-- ==== Sys2Proof/Word.lean ====
section
/-! DEFINITION. The word types of the device (R5, R6): registers are 32-bit words, memory is bytes. -/

namespace Sys2Proof

/-- One register word. -/
abbrev Word32 := BitVec 32

/-- One byte of DRAM. -/
abbrev Byte := BitVec 8

end Sys2Proof
end

