-- ==== Sys2Proof/Syntax.lean ====
section
/-! DEFINITION. The commands that act on the device: one constructor of `Instr` for each row of
spec/opcode_table.json, with the operands that its rule gives it. A row is a register access by a requester, a queue
command of a function, or an event (a TLP, a pin, a flit, a completed piece of engine work). What the outside world
supplies with an event (host memory that the device reads, a sampled level, a measured value) is an operand. -/

namespace Sys2Proof

/-- A requester: its function number (R41) and world bit (R86). The host never sets its own world: R87 stamps it, and
`WellFormed` holds the operand to that. -/
structure Req where
  fn : Nat
  secure : Bool
  deriving DecidableEq, Repr

/-- The two register windows (R37, R38). -/
inductive Window where
  | pf | vf
  deriving DecidableEq, Repr

/-- A 32-bit register write: requester, window, byte offset in the window, byte enables, value (R39, R497). -/
structure RegWr where
  req : Req
  win : Window
  off : Nat
  be : BitVec 4
  val : Word32
  deriving DecidableEq, Repr

/-- A 32-bit register read (R39). -/
structure RegRd where
  req : Req
  win : Window
  off : Nat
  deriving DecidableEq, Repr

/-- A queue command as its submission entry carries it (R118): function and queue that carry it, CID, ORDERED, the
reserved bits of bytes 0 to 7, and the fourteen parameter words. -/
structure CmdArgs where
  fn : Nat
  q : Nat
  cid : Nat
  ordered : Bool
  rsvd : Nat
  params : List Nat
  deriving DecidableEq, Repr

/-- The link fields of a flit (R379). -/
structure FlitHdr where
  seq : Nat
  ack : Nat
  ackValid : Bool
  nak : Bool
  deriving DecidableEq, Repr

/-- A frame digest with the flags and region masks of STATE_DIGEST (R400). -/
structure Digest where
  out : Nat
  frame : Nat
  value : Nat
  flags : Nat
  bad : Nat
  active : Nat
  refused : Nat
  plot : Nat
  deriving DecidableEq, Repr

/-- ROLE messages (R394 to R399). -/
inductive RoleMsg where
  | joinRequest (config : Nat)
  | joinAccept
  | joinRefuse (reason : Nat)
  | syncDone
  | handoverOffer (count : Nat)
  | ready
  | refusal (reason : Nat)
  deriving DecidableEq, Repr

/-- TIME_SYNC messages (R392, R393). -/
inductive TimeMsg where
  | request (t1 : Nat)
  | reply (t1 t2 t3 : Nat)
  | frame (out seq ta : Nat)
  | vrr (out seq line : Nat) (proceed : Bool)
  deriving DecidableEq, Repr

/-- The payload of a HEARTBEAT (R383). -/
structure Beat where
  protocol : Nat
  position : Nat
  state : Nat
  guyOut : Bool
  guyIn : Bool
  version : Nat
  dtime : Nat
  applied : Nat
  deriving DecidableEq, Repr

/-- MIRROR_WRITE by its SPACE (R385): pool data words with their POISON bits; register writes as offset, value, latch frame and
selector; one piece of a record, the last with `fin`; a resync marker. -/
inductive MirrorMsg where
  | pool (plot word fn : Nat) (world : Bool) (crit poison : Nat) (data : List Nat)
  | reg (fn : Nat) (world : Bool) (crit : Nat) (writes : List (Nat × Nat × Nat × Nat))
  | record (op : Nat) (params plots : List Nat) (fin : Bool)
  | marker (fin : Bool)
  deriving DecidableEq, Repr

/-- What a flit carries besides its link fields (R380). -/
inductive Flit where
  | heartbeat (b : Beat)
  | role (m : RoleMsg)
  | timeSync (m : TimeMsg)
  | commitArm (stage rec frame group fn : Nat) (entries : List (Nat × Nat × Nat)) (fin : Bool)
  | commitAck (stage rec frame : Nat)
  | digest (d : Digest)
  | mirror (m : MirrorMsg)
  | wake (sub arg : Nat)
  deriving DecidableEq, Repr

/-- One entry of settings section 0x0007 (R466): output, slot, register values by PF window offset, SLOTk_POS and SLOTk_SIZE, the
image with its palette, and END_OWNER. -/
structure EarlyEntry where
  out : Nat
  slot : Nat
  regs : List (Nat × Nat)
  pos : Nat
  size : Nat
  w : Nat
  h : Nat
  pixels : List Nat
  palette : List Nat
  endOwner : Nat
  deriving DecidableEq, Repr

/-- The ownership plan, section 0x0001 (R97): watermark words, table words, OWN_FN_CRIT by function, WLD_HOLD, OWNER and CHKj_OWNER
values by PF window offset. -/
structure OwnPlan where
  wmarkLo : Nat
  wmarkHi : Nat
  tableLo : Nat
  tableHi : Nat
  crits : List (Nat × Nat)
  hold : Nat
  owners : List (Nat × Nat)
  deriving DecidableEq, Repr

/-- Settings section 0x0008 (R466): POOL_BASE_LO, POOL_BASE_HI, POOL_PLOTS; for each function quota, share and channel limit. -/
structure PoolSection where
  baseLo : Nat
  baseHi : Nat
  plots : Nat
  fns : List (Nat × Nat × Nat × Nat)
  deriving DecidableEq, Repr

/-- The settings that a start reads (R457): sections as register values. -/
structure Settings where
  schema : Nat
  /-- The ownership plan, when a valid one is there (R97). -/
  plan : Option OwnPlan
  /-- Words of the region blocks by PF window offset. -/
  regions : List (Nat × Nat)
  dmcCfg : Nat
  /-- PLK_CFG [1:0], when section 0x0004 is there. -/
  pair : Option Nat
  /-- PMBus page to the hold groups that it feeds. -/
  rails : List (Nat × List Nat)
  updCfg : Nat
  updLock : Nat
  pool : Option PoolSection
  early : List EarlyEntry
  deriving DecidableEq, Repr

/-- What a start finds in the flash and the devices: which Xiresol slots and microcode halves pass R449 (bit s), their VERSIONs and
the SCHEMA range of each slot, the settings copies that pass R449 (R458), the owner key and the applet in its slot, with whether its
signature holds and its size in bytes (R103), the density and rank codes in the mode registers of each channel's devices, none where
they do not answer (R264), and the entry points that the secure core of this Xiresol fixes in the gate table (R99). -/
structure StartLoad where
  slots : Nat
  slotVers : Nat × Nat
  schemas : (Nat × Nat) × (Nat × Nat)
  halves : Nat
  mcVers : Nat × Nat
  copies : Option Settings × Option Settings
  keyFused : Bool
  applet : Option (Bool × Nat)
  modes : List (Option (Nat × Nat))
  gates : List Nat
  deriving DecidableEq, Repr

/-- How far the fetch of one furrow has come (R230): slot, plane, tile row, whether its metadata has arrived, bytes that have
arrived. -/
structure FetchState where
  slot : Nat
  plane : Nat
  row : Nat
  metaIn : Bool
  got : Nat
  deriving DecidableEq, Repr

/-- What the predictive monitor measures (R230): the service that the critical and the general port gave the output over the
last 8 lines, in bytes per µs, and the furrows partly fetched. -/
structure Monitor where
  rateCrit : Nat
  rateGen : Nat
  partly : List FetchState
  deriving DecidableEq, Repr

/-- A DRAM request as a requester forms it (R86, R270, R298): function and world, CL of the work, port, address of its first word,
number of words, and for a write each word with a mask of its bytes. A request of the secure core may be its owner applet's (R104). -/
structure DramReq where
  fn : Nat
  world : Bool
  applet : Bool
  crit : Nat
  port : Nat
  addr : Nat
  words : Nat
  data : Option (List (Nat × Nat))
  deriving DecidableEq, Repr

/-- A secure call of a service core (R99, R472): the address at which it enters, and the number of the command that the core carries
out. -/
structure GateCall where
  addr : Nat
  job : Option Nat
  deriving DecidableEq, Repr

/-- How a wake fares (R415, R416): the rails and clocks come up, the wake sequence runs to its end; or it goes on until a step
exceeds its limit. -/
inductive WakeResult where
  | up | stuck
  deriving DecidableEq, Repr

/-- What follows a report: for a contained one nothing more, output n, a block, or a management core whose command is in progress (R472);
for an uncorrectable error of an on-die memory, the tile of output n's furrow store that it spoils for a line, by its place in the store, or
the entry of the owner-table cache that counts as missing (R303). -/
inductive FaultAct where
  | reportOnly
  | output (n : Nat)
  | block
  | core (k : Nat) (jid : Option Nat)
  | furrow (n place : Nat)
  | ownCache (entry : Nat)
  deriving DecidableEq, Repr

/-- The commands of the device, in the order of the table. -/
inductive Instr where
  /-- REGISTER_WRITE (R497): A 32-bit write to a register field that has no behaviour of its own; access codes, lock, world and refusal recording apply. -/
  | registerWrite (w : RegWr)
  /-- WIDE_REGISTER_WRITE (R49): A write to the highest word of a 128-bit register loads all 128 bits from the requester's staging copy. -/
  | wideRegisterWrite (w : RegWr) (lows : List Word32)
  /-- WIDE_REGISTER_LOW_READ (R50): A read of the lowest word of a 128-bit register latches the upper three words for the reading function. -/
  | wideRegisterLowRead (r : RegRd)
  /-- COUNTER_LO_READ (R158): A read of the _LO register of a 64-bit counter latches its _HI register for the reading function. -/
  | counterLoRead (r : RegRd)
  /-- PG_ENABLE_WRITE (R44): A write to PG_CTRL.ENABLE starts or stops a block as its chapter defines, subject to locks and secure holds. -/
  | pgEnableWrite (w : RegWr)
  /-- PG_SOFT_RESET (R46): A write of 1 to PG_CTRL.SOFT_RESET stops the block and returns its registers and shadows to their reset values. -/
  | pgSoftReset (w : RegWr)
  /-- PG_LOCK (R47): A write of 1 to PG_CTRL.LOCK locks the page's RWL fields. -/
  | pgLock (w : RegWr)
  /-- PG_UNLOCK (R47): A secure write of 1 to PG_CTRL.UNLOCK clears LOCK. -/
  | pgUnlock (w : RegWr)
  /-- EVT_RAW_CLEAR (R56): A W1C write to EVT_RAW clears event bits, and a message follows while events stay pending. -/
  | evtRawClear (w : RegWr)
  /-- EVT_SET_WRITE (R56): A write to EVT_SET sets EVT_RAW bits for test, whatever EVT_EN holds. -/
  | evtSetWrite (w : RegWr)
  /-- EVT_EN_WRITE (R57): A write to EVT_EN changes event enables and may issue a message while events are pending. -/
  | evtEnWrite (w : RegWr)
  /-- EVT_ROUTE_WRITE (R59): A write to EVT_ROUTE or another route register sets the message target, refused with BAD_VECTOR for a bad vector or function. -/
  | evtRouteWrite (w : RegWr)
  /-- ERR_CODE_CLEAR (R45): A write of 1 to ERR_CODE.CLEAR clears CODE, OVERFLOW and ERR_INFO. -/
  | errCodeClear (w : RegWr)
  /-- SHADOW_GROUP_WRITE (R189): A write to SHADOW_CTRL.GROUP of a pipe page moves every page of the output to the new commit group unless a page is armed. -/
  | shadowGroupWrite (w : RegWr)
  /-- SHADOW_DISCARD (R48): A write of 1 to SHADOW_CTRL.DISCARD copies active values back into shadows unless the page is armed. -/
  | shadowDiscard (w : RegWr)
  /-- OWNER_WRITE (R52): A secure write of a page OWNER register as one value, refused as a whole under the delegation checks. -/
  | ownerWrite (w : RegWr)
  /-- CHK_OWNER_WRITE (R54): A secure write of CHKj_OWNER delegates one check region, with the frame conflict check of check-region pages. -/
  | chkOwnerWrite (w : RegWr)
  /-- CHANNEL_CREATE (R71): Command that creates a channel of a kind for an owning function and returns its handle. -/
  | channelCreate (c : CmdArgs)
  /-- CHANNEL_DESTROY (R71): Command that destroys a channel, at once or DEFERRED into DRAINING while a buffer holds a fence. -/
  | channelDestroy (c : CmdArgs)
  /-- BUFFER_ALLOC (R75): Command that allocates a buffer of whole plots under quota and share rules and writes the owner-table entries. -/
  | bufferAlloc (c : CmdArgs)
  /-- BUFFER_FREE (R81): Command that frees a buffer at once, or DEFERRED into FREEING while its fence count is above 0. -/
  | bufferFree (c : CmdArgs)
  /-- BUFFER_QUERY (R67): Command that returns a buffer's state, plot count and fence count. -/
  | bufferQuery (c : CmdArgs)
  /-- PLOT_FILL_DONE (R78): The fill engine finishes zero-filling a plot; after the last plot the buffer becomes LIVE and the allocation completes. -/
  | plotFillDone
  /-- POOL_ENABLE (R72): A write of 1 to POOL PG_CTRL.ENABLE checks the pool setting and fills the free list. -/
  | poolEnable (w : RegWr)
  /-- POOL_FN_QUOTA_WRITE (R74): A write to POOL_FN_QUOTA, accepted only while every share stays at or below its quota. -/
  | poolFnQuotaWrite (w : RegWr)
  /-- POOL_FN_SHARE_WRITE (R74): A write to POOL_FN_SHARE, checked against the quota and the sum of shares. -/
  | poolFnShareWrite (w : RegWr)
  /-- CHN_FN_LIMIT_WRITE (R83): A write to CHN_FN_LIMIT for the selected function, refused for a bad function or a limit above 256. -/
  | chnFnLimitWrite (w : RegWr)
  /-- POOL_LOW_MARK_WRITE (R84): A write to POOL_LOW_MARK that can set LOW_FREE when the free count falls below the mark. -/
  | poolLowMarkWrite (w : RegWr)
  /-- POOL_FN_PEAK_CLEAR (R84): A write of 1 to POOL_FN_PEAK.CLEAR sets PEAK to the current U(f). -/
  | poolFnPeakClear (w : RegWr)
  /-- WATERMARK_SET (R92): A secure write of 1 to WLD_WMARK_HI.SET freezes the secure watermark until device reset. -/
  | watermarkSet (w : RegWr)
  /-- WLD_DENY_CLEAR (R90): A write of 1 to WLD_DENY_ATTR.CLEAR clears the refusal capture and keeps the count. -/
  | wldDenyClear (w : RegWr)
  /-- WLD_HOLD_WRITE (R107): A secure write to WLD_HOLD sets explicit holds and wakes a held group that is gated. -/
  | wldHoldWrite (w : RegWr)
  /-- GATE_ENTRY (R99): A service core enters the secure world at a gate-table entry point, or counts a gate fault otherwise. -/
  | gateEntry (core : Nat) (call : GateCall)
  /-- GATE_RETURN (R100): A service core returns from the secure world and the hardware scrubs its registers, caches and predictors. -/
  | gateReturn (core r0 r1 : Nat)
  /-- GATE_TIMEOUT (R101): Secure code that has not returned after 50 µs is aborted, the core scrubbed and TIMEOUT returned. -/
  | gateTimeout (core : Nat)
  /-- PMC_CLEAR (R108): A write of 1 to PMC_CTRL.CLEAR sets every performance counter to 0. -/
  | pmcClear (w : RegWr)
  /-- SQ_DOORBELL (R115): A write to Q_SQ_DB posts new submission entries, or moves the queue to ERROR for a bad tail. -/
  | sqDoorbell (w : RegWr)
  /-- CQ_DOORBELL (R116): A write to Q_CQ_DB releases consumed completion entries, resuming fetch when space frees. -/
  | cqDoorbell (w : RegWr)
  /-- QUEUE_ENABLE (R114): A write of 1 to Q_CTRL.ENABLE checks sizes and vector and starts the queue RUNNING. -/
  | queueEnable (w : RegWr)
  /-- QUEUE_DISABLE (R115): A write of 0 to Q_CTRL.ENABLE stops fetching and drains the queue to IDLE. -/
  | queueDisable (w : RegWr)
  /-- PEER_ACCESS (R111): A peer TLP reaches a function BAR: doorbells are accepted, other writes dropped and reads return zero. -/
  | peerAccess (fn rid off : Nat) (wr : Option Word32)
  /-- COMMAND_FETCH (R124): The device fetches a submission entry by weighted round robin once room allows, and checks and starts it. -/
  | commandFetch (port : Nat) (entry : List Word32)
  /-- COALESCE_TIMEOUT (R126): COAL_TIME µs after the oldest unsignalled completion, the queue sends its completion message. -/
  | coalesceTimeout (fn q : Nat)
  /-- NOP (R120): Command that completes OK with no parameters. -/
  | nop (c : CmdArgs)
  /-- FN_RESET (R122): Manager command that starts a function reset of a named function and completes when it ends. -/
  | fnReset (c : CmdArgs)
  /-- FN_QUERY (R122): Manager command that returns a function's state, plot use and channel count. -/
  | fnQuery (c : CmdArgs)
  /-- FLR (R127): A Function Level Reset starts a bus reset of the function. -/
  | flr (fn : Nat)
  /-- VF_ENABLE_CLEARED (R127): Clearing VF Enable starts a bus reset of every VF of the port. -/
  | vfEnableCleared (port : Nat)
  /-- VF_ENABLE_SET (R127): Setting VF Enable, or link up for PF0, moves an ABSENT function to ENABLED with reset control page and queues. -/
  | vfEnableSet (port n : Nat)
  /-- VF_SOFT_RESET (R127): A write of 1 to SOFT_RESET of a VF control page starts a managed reset of the VF. -/
  | vfSoftReset (w : RegWr)
  /-- HP_PF_RESET_START (R127): A write of 1 to HP_PF_RESET.START starts a managed reset of the port's PF0. -/
  | hpPfResetStart (w : RegWr)
  /-- HP_SOFT_RESET (R501): A soft reset of HPA or HPB starts a managed reset of PF0 and then resets the page's other registers. -/
  | hpSoftReset (w : RegWr)
  /-- FN_RESET_POOL_STEP (R128): Once reset steps 1 and 2 have ended, step 3 destroys the function's channels and releases its slots and check regions. -/
  | fnResetPoolStep (fn : Nat)
  /-- FN_RESET_QUEUE_STEP (R128): Once step 3 has ended, step 4 posts ABORTED completions, idles queues and resets the control page, ending the reset. -/
  | fnResetQueueStep (fn : Nat)
  /-- PORT_LINK_DOWN (R131): A port's link goes down, including PERST# or hot reset, and every function enters HELD. -/
  | portLinkDown (port : Nat)
  /-- PORT_LINK_UP (R127): A port's link comes up and HELD functions that are enabled return to ENABLED keeping pool state. -/
  | portLinkUp (port speed width : Nat)
  /-- HP_MGR_ROLE_WRITE (R113): A secure write of 1 to HP_MGR.ROLE moves the manager role to this port's PF0. -/
  | hpMgrRoleWrite (w : RegWr)
  /-- INGEST (R147): Command that asks an ingest engine to read a host surface and write it tiled or Seedbed into a SURFACE buffer. -/
  | ingest (c : CmdArgs)
  /-- INGEST_START (R152): An engine starts a waiting ingest once a slot is free and every earlier ingest of the same buffer has completed. -/
  | ingestStart (engine slot : Nat)
  /-- HOST_READ_ERROR (R154): A host read of an ingest fails and ends the command with HOST_READ_ERROR. -/
  | hostReadError (engine slot kind addr tiles : Nat) (host : List (Nat × Byte))
  /-- INGEST_DONE (R155): An ingest's last metadata entry or word is written and visible; it completes and releases its fence. -/
  | ingestDone (engine slot : Nat) (host : List (Nat × Byte))
  /-- ING_SOFT_RESET (R157): A soft reset of an ING page squashes every waiting and in-flight command with ABORTED. -/
  | ingSoftReset (w : RegWr)
  /-- PIPE_LUT_DATA_ACCESS (R185): An access to PIPE_LUT_DATA reads or writes a regamma shadow entry and advances PIPE_LUT_ADDR. -/
  | pipeLutDataAccess (w : RegWr) (isRead : Bool)
  /-- PIPE_SCL_DATA_ACCESS (R185): An access to PIPE_SCL_DATA reads or writes a scaler coefficient pair and advances PIPE_SCL_ADDR. -/
  | pipeSclDataAccess (w : RegWr) (isRead : Bool)
  /-- SLOT_LUT_DATA_ACCESS (R185): An access to SLOTk_LUT_DATA reads or writes a degamma shadow entry and advances SLOTk_LUT_ADDR. -/
  | slotLutDataAccess (w : RegWr) (isRead : Bool)
  /-- LINE_COMPOSE_START (R233): The pipe starts composing a line once the previous line and the hand-off four lines back have ended. -/
  | lineComposeStart (out : Nat)
  /-- COMMIT (R196): Command that checks and arms a commit of a group's shadows and completes DEFERRED. -/
  | commit (c : CmdArgs)
  /-- APPLY_LINE (R199): At the apply line of a frame, ready commits are rechecked for handles and applied, deferred or dropped. -/
  | applyLine (out : Nat)
  /-- FRAME_DONE (R191): The latch point: applying commits moves armed copies to active, fences are released, the frame is latched and completions posted. -/
  | frameDone (out : Nat)
  /-- COMMIT_ACK_TIMEOUT (R200): A SENT commit with no COMMIT_ACK for 2 ms is dropped and completes COMMIT_ABANDONED. -/
  | commitAckTimeout (recNo : Nat)
  /-- SCAN_OUT_START (R216): A write of 1 to SCNn ENABLE copies the disruptive fields, checks timing, rate and reserve, and locks the PLL. -/
  | scanOutStart (w : RegWr)
  /-- SCAN_OUT_COUNTER_START (R216): After PLL lock and any genlock alignment the scan counter starts at the first headland line as the first latch point. -/
  | scanOutCounterStart (out : Nat)
  /-- SCAN_OUT_STOP_REQUEST (R217): A write of 0 to SCNn ENABLE requests a stop at the next FRAME_DONE, or at once in the headland. -/
  | scanOutStopRequest (w : RegWr)
  /-- SCN_SOFT_RESET (R217): A soft reset of SCNn stops scan-out at once, mid-line if need be, then resets the page. -/
  | scnSoftReset (w : RegWr)
  /-- SCAN_LINE_START (R230): At clock 0 of each line the monitor projects furrow completions and the line counter advances. -/
  | scanLineStart (out : Nat) (phase : Int) (m : Monitor)
  /-- FURROW_ARRIVAL (R230): A furrow fetch completes into the furrow store and the monitor evaluates again. -/
  | furrowArrival (out slot plane row clock : Nat) (m : Monitor)
  /-- HEADLAND_START (R219): The counter reaches the first headland line and sets HEADLAND_START. -/
  | headlandStart (out : Nat)
  /-- VSYNC (R219): The counter reaches clock 0 of the first sync line and sets VSYNC. -/
  | vsync (out : Nat)
  /-- HEADLAND_END (R219): The counter reaches the last headland line of the frame and sets HEADLAND_END. -/
  | headlandEnd (out : Nat)
  /-- LINE_MATCH (R219): The counter reaches SCN_LMi.LINE while enabled and sets LINE_MATCHi. -/
  | lineMatch (out index : Nat)
  /-- VRR_DECISION (R224): Under Adaptive-Sync, at the last nominal front-porch line and each added line, the output proceeds or adds a line. -/
  | vrrDecision (out : Nat)
  /-- GENLOCK_WRITE (R220): A write to SCN_GENLOCK sets the reference, refused for invalid sources, taking effect at the next frame start. -/
  | genlockWrite (w : RegWr)
  /-- DPL_ENABLE (R237): A write of 1 to DPLn ENABLE checks link settings, powers lanes and AUX and trains when HPD is high. -/
  | dplEnable (w : RegWr)
  /-- DPL_DISABLE (R237): A write of 0 to DPLn ENABLE or a soft reset ends AUX and puts the lanes in electrical idle. -/
  | dplDisable (w : RegWr)
  /-- HPD_PLUG (R242): HPD high for 10 ms after low: capabilities are read and the link trains when AUTO_TRAIN is 1. -/
  | hpdPlug (out sink : Nat) (blockPred : Bool)
  /-- HPD_IRQ (R242): A 0.25 to 2 ms low pulse on HPD: the link and sink status are read and a link loss acted on. -/
  | hpdIrq (out : Nat) (lost : Bool)
  /-- HPD_UNPLUG (R242): HPD low for more than 2 ms: lanes go idle and DPL_SINK is cleared. -/
  | hpdUnplug (out : Nat)
  /-- TRAINING_ATTEMPT_END (R239): A link-training attempt ends; on failure the next configuration is tried, or TRAINING_FAILED is recorded. -/
  | trainingAttemptEnd (out : Nat) (ok : Bool)
  /-- LINK_LOSS (R241): Lost lock is reported and the transmitter retrains downward while composition runs on. -/
  | linkLoss (out : Nat)
  /-- AUX_GO (R243): A write of GO = 1 to DPL_AUX_CTRL starts one AUX transaction after the transmitter's own traffic. -/
  | auxGo (w : RegWr)
  /-- AUX_REPLY (R243): An AUX reply arrives; the transaction ends or is retried after DEFER. -/
  | auxReply (out reply bytes : Nat) (data : List Nat)
  /-- AUX_REPLY_TIMEOUT (R243): An AUX reply does not arrive within 400 µs; after 3 timeouts the transaction fails. -/
  | auxReplyTimeout (out : Nat)
  /-- PPS_DATA_READ (R244): A read of DPL_PPS_DATA returns a PPS word and advances DPL_PPS_ADDR. -/
  | ppsDataRead (r : RegRd)
  /-- DPL_IDLE_HOLD_END (R247): After 50 ms of electrical idle on leaving the active role, the transmitters retrain and transmit as standby. -/
  | dplIdleHoldEnd (out : Nat)
  /-- SCAN (R252): Command that asks a check-value unit to compute a CRC over a buffer range or secure DRAM range. -/
  | scan (c : CmdArgs)
  /-- SCAN_START (R257): A check-value engine starts a waiting SCAN command once a slot is free. -/
  | scanStart (engine slot : Nat)
  /-- SCAN_DONE (R255): A SCAN ends after its last word or at an early end, writes its results and releases its fences. -/
  | scanDone (engine slot : Nat)
  /-- CHECK_REGION_FINAL (R261): The last pixel of a check region passes stage 12; the region loads its value, compares and acts on mismatches. -/
  | checkRegionFinal (out region : Nat)
  /-- DRAM_REQUEST (R273): A request enters a DRAM channel through a port, is checked against world rules and is scheduled by urgency. -/
  | dramRequest (q : DramReq)
  /-- DRAM_REQUEST_COMPLETE (R293): A DRAM request completes; each word is decoded clean, corrected, uncorrectable or poisoned, and lateness is counted. -/
  | dramRequestComplete (ch : Nat)
  /-- REFRESH_DUE (R277): A refresh interval expires; the refresh is issued, postponed into debt, or forced. -/
  | refreshDue (ch : Nat)
  /-- MR4_POLL (R276): The MR4 poll period expires; the channel reads the refresh rate and sets the multiplier M. -/
  | mr4Poll (ch rate : Nat) (hot : Bool)
  /-- RETRAIN_START (R279): A retraining trigger (interval, temperature, M change or retry) starts a channel pause in its turn. -/
  | retrainStart (ch cause : Nat)
  /-- DMC_TRAIN_START_WRITE (R279): A write of 1 to DMC_TRAIN_CTRL.START requests a retraining. -/
  | dmcTrainStartWrite (w : RegWr)
  /-- RETRAIN_END (R281): A retraining pause ends with a new setting, a restored setting (DEGRADED) or a FAILED channel. -/
  | retrainEnd (ch pause : Nat) (eyes : Option (Nat × Nat)) (readBack : Bool)
  /-- DRAM_POWER_DOWN (R274): A channel with no request for 1 µs enters power-down. -/
  | dramPowerDown (ch : Nat)
  /-- DMC_PORT_TARGET_ALL (R284): A write with DMC_PORT_TARGET.ALL = 1 writes the target to the same port of every present channel. -/
  | dmcPortTargetAll (w : RegWr)
  /-- DMC_PORT_MAXLAT_CLEAR (R271): A write of 1 to DMC_PORT_MAXLAT.CLEAR sets LAT to 0. -/
  | dmcPortMaxlatClear (w : RegWr)
  /-- DMC_DEBT_MAX_CLEAR (R277): A write of 1 to DMC_REF_STAT.CLEAR sets DEBT_MAX to DEBT. -/
  | dmcDebtMaxClear (w : RegWr)
  /-- DMC_STOP_WRITE (R285): A write of 0 to ENABLE or 1 to SOFT_RESET of a DMC page is refused for the normal world and is device-fatal for the secure world. -/
  | dmcStopWrite (w : RegWr)
  /-- REGIONS_SET (R287): A secure write of 1 to EDAC_CTRL.REGIONS_SET checks and freezes the code regions. -/
  | regionsSet (w : RegWr)
  /-- EDAC_LOG_RELEASE (R300): A write of 1 to EDAC_LOG_CTRL.RELEASE removes the oldest log entry. -/
  | edacLogRelease (w : RegWr)
  /-- EDAC_LOG_CLEAR_ALL (R300): A write of 1 to EDAC_LOG_CTRL.CLEAR_ALL removes every entry and clears LOST. -/
  | edacLogClearAll (w : RegWr)
  /-- EDAC_RETIRE_PLOT (R301): A write to EDAC_RETIRE_PLOT retires one pool plot, optionally persisting it. -/
  | edacRetirePlot (w : RegWr)
  /-- EDAC_RETIRE_BANK (R301): A write to EDAC_RETIRE_BANK starts retiring every pool plot touching a channel, rank and bank. -/
  | edacRetireBank (w : RegWr)
  /-- RETIRE_BANK_DONE (R301): A bank retirement completes, clears BUSY and sets RETIRE_DONE. -/
  | retireBankDone
  /-- TCH_ENABLE (R309): A write of 1 to TCH ENABLE checks every enabled panel and starts the engine. -/
  | tchEnable (w : RegWr)
  /-- TCH_PANEL_ENABLE (R309): A write of 1 to TCH_Pp_CFG.EN while the engine runs checks the panel and starts it. -/
  | tchPanelEnable (w : RegWr)
  /-- TCH_PANEL_DISABLE (R310): A write of 0 to TCH_Pp_CFG.EN stops the panel at frame end with a last record and a snapshot. -/
  | tchPanelDisable (w : RegWr)
  /-- TCH_SOFT_RESET (R310): A soft reset of a TCH page stops every panel at once without a last record or snapshot. -/
  | tchSoftReset (w : RegWr)
  /-- TOUCH_FRAME_START (R308): The engine frame period expires and the engine begins scanning its enabled panels. -/
  | touchFrameStart (engine : Nat)
  /-- TOUCH_PANEL_SCAN_END (R316): The last phase of a panel's frame ends; contacts are formed, tracked and the baseline followed. -/
  | touchPanelScanEnd (engine panel : Nat) (m : List (List Nat × List Nat)) (listen cand : List Nat)
  /-- TOUCH_SNAPSHOT (R321): Every second while SCANNING the panel writes a baseline snapshot to its report buffer. -/
  | touchSnapshot (engine panel : Nat)
  /-- CAPTURE_REF (R311): A write of 1 to CAPTURE_REF copies every node's BASE and COMP into its REF fields. -/
  | captureRef (w : RegWr)
  /-- TCH_NODE_DATA_ACCESS (R324): An access to TCH_NODE_DATA reads or writes a node-table entry and advances the address. -/
  | tchNodeDataAccess (w : RegWr) (isRead : Bool)
  /-- TCH_BUF_WRITE (R321): A write to TCH_Pp_BUF checks the report buffer and clears UNBOUND. -/
  | tchBufWrite (w : RegWr)
  /-- HAPTIC_PLAY (R336): Command that starts an effect on a haptic channel once its clip extent is resident. -/
  | hapticPlay (c : CmdArgs)
  /-- TOUCH_RULE (R334): Command that adds or removes a touch rule linking a panel rectangle to a haptic effect. -/
  | touchRule (c : CmdArgs)
  /-- RULE_MATCH (R334): The rule matcher takes a touch hand-off and gives one effect for each matching rule. -/
  | ruleMatch
  /-- CLIP_LOAD_DONE (R328): A clip extent finishes loading into the clip store; waiting commands proceed. -/
  | clipLoadDone
  /-- CONTROL_PERIOD (R333): At each 62.5 µs boundary a channel tests end conditions, chooses a new effect and computes its duty. -/
  | controlPeriod (ch : Nat) (adcA adcI : Int) (carrier : Nat)
  /-- TAP_SAMPLE (R329): A tap sample arrives from a mix bus for a haptic channel. -/
  | tapSample (tap : Nat) (sample : Int)
  /-- HAP_CHANNEL_ENABLE (R331): A write to HAP_Hc_CTRL.EN moves a channel between OFF and IDLE, braking any effect. -/
  | hapChannelEnable (w : RegWr)
  /-- CAL_START (R340): A write of 1 to HAP_Hc_CTRL.CAL_START starts an actuator calibration sweep in IDLE. -/
  | calStart (w : RegWr)
  /-- CAL_DONE (R340): A calibration sweep ends; F_RES and G are written or a reason-4 fault recorded. -/
  | calDone (ch freq peak : Nat)
  /-- AUDIO_QUEUE (R358): Command that queues a buffer region on a play or capture stream. -/
  | audioQueue (c : CmdArgs)
  /-- AUDIO_BLOCK_BOUNDARY (R353): A domain reaches a 16-sample block boundary and processes streams, buses, outputs and crossfades. -/
  | audioBlockBoundary (domain : Nat) (inputs : List (Nat × List Int)) (sync : List Nat)
  /-- ROUTE_APPLY (R363): A write of 1 to AUD_CTRL.APPLY checks and arms the pending route values and starts the needed bridges. -/
  | routeApply (w : RegWr)
  /-- BRIDGE_PRIMED (R365): A new rate bridge has run for its delay, allowing its domain to apply the armed set. -/
  | bridgePrimed (bridge : Nat)
  /-- TDM_PORT_ENABLE (R345): A write of 1 to TDM_CFG.EN checks the port's fields and starts it. -/
  | tdmPortEnable (w : RegWr)
  /-- BUS_ENABLE_WRITE (R352): A write to BUSb_CFG.EN fades a bus in or out from the next block boundary. -/
  | busEnableWrite (w : RegWr)
  /-- STREAM_DISABLE (R362): A write of 0 to STRc_CFG.EN ends the stream at the next block and releases its regions. -/
  | streamDisable (w : RegWr)
  /-- STREAM_CHANNEL_WRITE (R357): A write to STRc_CHANNEL checks the handle and channel kind. -/
  | streamChannelWrite (w : RegWr)
  /-- DOMAIN_HOLDOVER (R344): A domain following a port loses its frame sync or rate window and enters holdover. -/
  | domainHoldover (domain : Nat)
  /-- DOMAIN_RELOCK (R344): A domain in holdover locks again to a valid frame sync. -/
  | domainRelock (domain : Nat)
  /-- TDM_SLIP (R346): A slave port's FIFO would overflow or underflow and one frame is dropped or repeated. -/
  | tdmSlip (port : Nat)
  /-- TDM_CLOCK_LOST (R346): A slave port sees no frame sync for 4 nominal frames and sets CLOCK_LOST. -/
  | tdmClockLost (port : Nat)
  /-- AUD0_SOFT_RESET (R369): A soft reset of AUD0 stops the audio block without fades and resets every AUD page. -/
  | aud0SoftReset (w : RegWr)
  /-- GUY_IN_EDGE (R373): GUY_IN changes level, starting the 4 µs takeover or collision filter. -/
  | guyInEdge (asserted : Bool)
  /-- GUY_FILTER_EXPIRY (R373): GUY_IN has stayed released for 4 µs; a device without the token asserts GUY_OUT. -/
  | guyFilterExpiry
  /-- COLLISION (R374): A token holder samples GUY_IN asserted for 4 µs; position B releases. -/
  | collision
  /-- COLLISION_TIMEOUT (R374): A collision lasting 100 µs makes each device release and wait a random time. -/
  | collisionTimeout
  /-- COLLISION_BACKOFF_END (R374): The random wait ends and the device takes the token again if GUY_IN is still released. -/
  | collisionBackoffEnd
  /-- WAITING_TIMEOUT (R375): A position B device in WAITING reaches 300 ms with no token holder and becomes SOLO. -/
  | waitingTimeout
  /-- PLOLIA_LINK_UP (R378): The Plolia link trains and a valid HEARTBEAT is received. -/
  | ploliaLinkUp (speed width : Nat) (h : FlitHdr) (b : Beat)
  /-- REPLAY_TIMEOUT (R381): 4 µs pass without an advancing ACK and the sender replays. -/
  | replayTimeout
  /-- NULL_FLIT (R380): A NULL flit carries ACK; acknowledged mirror writes release their fences. -/
  | nullFlit (h : FlitHdr)
  /-- HEARTBEAT_SEND (R383): Every 100 µs (10 ms in FALLOW) the device sends a HEARTBEAT. -/
  | heartbeatSend
  /-- HEARTBEAT (R383): A HEARTBEAT is received, updating partner state and checking guy lines. -/
  | heartbeat (h : FlitHdr) (b : Beat) (slow : Bool)
  /-- HEARTBEAT_TIMEOUT (R383): No valid HEARTBEAT for 1.0 ms (100 ms in FALLOW); the link is declared down. -/
  | heartbeatTimeout
  /-- JOIN_REQUEST (R395): A ROLE JOIN_REQUEST reaches the token holder, which accepts and resyncs or refuses. -/
  | joinRequest (h : FlitHdr) (config : Nat)
  /-- JOIN_ACCEPT (R375): A JOIN_ACCEPT moves the requester to SYNCING. -/
  | joinAccept (h : FlitHdr)
  /-- JOIN_REFUSE (R375): A JOIN_REFUSE moves the requester to APART. -/
  | joinRefuse (h : FlitHdr) (reason : Nat)
  /-- SYNC_DONE (R375): ROLE SYNC_DONE moves a SYNCING device to STANDBY. -/
  | syncDone (h : FlitHdr)
  /-- RESYNC_SEND_DONE (R396): The token holder finishes sending every resync item and sends the end marker and SYNC_DONE. -/
  | resyncSendDone
  /-- HANDOVER_OFFER (R399): A ROLE HANDOVER_OFFER reaches the partner, which answers READY or a refusal. -/
  | handoverOffer (h : FlitHdr) (count : Nat)
  /-- HANDOVER_READY (R399): ROLE READY makes the token holder release GUY_OUT and enter STANDBY. -/
  | handoverReady (h : FlitHdr)
  /-- HANDOVER_REFUSAL (R399): A handover refusal makes the token holder resume and record PAIR_DISAGREE. -/
  | handoverRefusal (h : FlitHdr) (reason : Nat)
  /-- PLK_HANDOVER (R399): A write of 1 to PLK_CTRL.HANDOVER starts a voluntary handover. -/
  | plkHandover (w : RegWr)
  /-- HANDOVER_DRAINED (R399): Commits, channel operations and the ordered stream have drained; HANDOVER_OFFER is sent. -/
  | handoverDrained
  /-- HANDOVER_DRAIN_TIMEOUT (R399): The handover drain exceeds 100 ms; fetching resumes and TIMEOUT is recorded. -/
  | handoverDrainTimeout
  /-- PLK_RESYNC (R375): A write of 1 to PLK_CTRL.RESYNC on a device without the token sends JOIN_REQUEST. -/
  | plkResync (w : RegWr)
  /-- PLK_RETRAIN (R381): A write of 1 to PLK_CTRL.RETRAIN starts a link recovery. -/
  | plkRetrain (w : RegWr)
  /-- PLK_CLEAR_GUY_FAULT (R403): A secure write of 1 to PLK_CTRL.CLEAR_GUY_FAULT clears GUY_FAULT. -/
  | plkClearGuyFault (w : RegWr)
  /-- TIME_SYNC_DUE (R392): Every 1 ms the partner sends TIME_SYNC REQUEST. -/
  | timeSyncDue
  /-- TIME_SYNC_REQUEST (R392): The token holder receives a TIME_SYNC REQUEST and answers with REPLY timestamps. -/
  | timeSyncRequest (h : FlitHdr) (t1 : Nat)
  /-- TIME_SYNC_REPLY (R392): The partner computes its offset and trims or steps DTIME. -/
  | timeSyncReply (h : FlitHdr) (t1 t2 t3 : Nat)
  /-- TIME_SYNC_FRAME (R393): A frame marker sets the partner's SCN_SEQ and genlock phase error. -/
  | timeSyncFrame (h : FlitHdr) (out seq ta : Nat)
  /-- TIME_SYNC_VRR (R393): An Adaptive-Sync decision flit fixes the partner's decision for that line. -/
  | timeSyncVrr (h : FlitHdr) (out seq line : Nat) (proceed : Bool)
  /-- COMMIT_ARM_RECORD (R201): The standby device stores a commit record, sets ARMED and sends COMMIT_ACK HELD. -/
  | commitArmRecord (h : FlitHdr) (recNo group fn : Nat) (entries : List (Nat × Nat × Nat)) (fin : Bool)
  /-- COMMIT_ARM_APPLY (R201): The standby device takes fences and applies the commit at S or S + 1, acknowledging APPLIED. -/
  | commitArmApply (h : FlitHdr) (recNo frame : Nat)
  /-- COMMIT_ARM_DROP (R201): The standby device discards a commit record and clears ARMED. -/
  | commitArmDrop (h : FlitHdr) (recNo : Nat)
  /-- COMMIT_ACK_HELD (R200): COMMIT_ACK HELD moves a SENT commit to WAITING. -/
  | commitAckHeld (h : FlitHdr) (recNo : Nat)
  /-- COMMIT_ACK_APPLIED (R201): COMMIT_ACK APPLIED reports the frame the partner applied, a later frame counting as a disagreement. -/
  | commitAckApplied (h : FlitHdr) (recNo frame : Nat)
  /-- STATE_DIGEST (R401): A partner's frame digest is compared and differences are explained, counted or resolved. -/
  | stateDigest (h : FlitHdr) (d : Digest)
  /-- MIRROR_WRITE (R387): The partner applies a mirrored pool, register, record or resync-marker write. -/
  | mirrorWrite (h : FlitHdr) (m : MirrorMsg)
  /-- WAKE_FLIT (R404): A WAKE flit starts a wake of the partner or reports its wake success or failure. -/
  | wakeFlit (h : FlitHdr) (sub arg : Nat) (result : WakeResult)
  /-- PWR_REQ_RUN (R408): A PWR_REQ with TARGET RUN ends IDLE. -/
  | pwrReqRun (w : RegWr)
  /-- PWR_REQ_IDLE (R410): A PWR_REQ with TARGET IDLE starts Panel Replay and stops every running output. -/
  | pwrReqIdle (w : RegWr)
  /-- PWR_REQ_FALLOW (R411): A PWR_REQ with TARGET FALLOW starts the FALLOW entry by stopping fetch and draining work. -/
  | pwrReqFallow (w : RegWr)
  /-- PWR_REQ_OFF (R408): A PWR_REQ with TARGET OFF runs FALLOW entry steps 1–4 and turns the rails off. -/
  | pwrReqOff (w : RegWr)
  /-- FALLOW_DRAIN_DONE (R411): Work has drained and the FALLOW entry runs its remaining steps to completion. -/
  | fallowDrainDone
  /-- FALLOW_DRAIN_TIMEOUT (R409): Work does not drain within 100 ms; the request is refused and the device returns to RUN. -/
  | fallowDrainTimeout
  /-- WAKE_TLP (R412): A TLP reaching a function in FALLOW wakes the device. -/
  | wakeTlp (port : Nat) (result : WakeResult)
  /-- WAKE_PIN (R414): WAKE held at its active level for 1 ms wakes the device. -/
  | wakePin (result : WakeResult)
  /-- MOTION_EDGE (R414): A filtered edge of MOTION wakes the device. -/
  | motionEdge (level : Bool) (result : WakeResult)
  /-- CAN_WAKE_UP (R414): The ISO 11898-2 wake-up pattern on CAN_RXD wakes the device. -/
  | canWakeUp (result : WakeResult)
  /-- ALARM_FIRE (R414): The AON tick counter reaches AON_ALARM while enabled and wakes the device. -/
  | alarmFire (result : WakeResult)
  /-- WAKE_STEP_TIMEOUT (R416): A wake rail or clock step exceeds its limit; the device retries or reports WAKE_FAILED. -/
  | wakeStepTimeout (reason item : Nat) (entries : List (List Word32))
  /-- WAKE_RETRY (R416): After 10 ms with rails removed a further wake attempt starts. -/
  | wakeRetry (result : WakeResult)
  /-- SAG (R423): VSAG_N low or VHOLD below 4.75 V for 2 µs enters HOLDUP and starts the flush. -/
  | sag
  /-- POINT_OF_NO_RETURN (R424): The flush completes and the device decides once to resume or to write the MRAM save. -/
  | pointOfNoReturn (supplyGood : Bool)
  /-- MRAM_SAVE_DONE (R425): The MRAM image save completes or fails with SAVE_INCOMPLETE. -/
  | mramSaveDone (err : Bool)
  /-- VHOLD_EXHAUSTED (R424): VHOLD falls below 3.0 V and the device stops. -/
  | vholdExhausted
  /-- SUPPLY_RETURN (R424): The supply returns after a completed save and the device restarts through start-up with the image. -/
  | supplyReturn
  /-- PWR_ISL_WRITE (R406): A write to PWR_ISL_CTRL gates or stops the clock of one island, with holds and enables checked. -/
  | pwrIslWrite (w : RegWr)
  /-- PWR_SAVE_ADD (R419): A write to PWR_SAVE_ADD appends a register word to the hardware save list. -/
  | pwrSaveAdd (w : RegWr)
  /-- PWR_SAVE_CLEAR (R419): A write of 1 to PWR_SAVE_CTRL.CLEAR removes the writer's world's save-list entries. -/
  | pwrSaveClear (w : RegWr)
  /-- VHOLD_MEASURE (R427): At start-up and every 24 powered hours the AON measures VHOLD's capacitance and ESR. -/
  | vholdMeasure (mv capUf mohm : Nat) (meets : Bool)
  /-- TIM_CAL_INTERVAL (R429): Each 32,768 ticks the TIM page counts reference cycles and updates TIM_CAL. -/
  | timCalInterval (c : Nat)
  /-- TIM_SET (R432): A write to TIM_SET_HI sets DTIME at once. -/
  | timSet (w : RegWr)
  /-- AON_ALARM_ARM (R414): A write to AON_ALARM_HI arms the alarm tick. -/
  | aonAlarmArm (w : RegWr)
  /-- AON_PMB_GO (R106): A write of GO = 1 to AON_PMB_CTRL starts a PMBus transaction, refused for a held rail. -/
  | aonPmbGo (w : RegWr)
  /-- PMB_DONE (R416): A PMBus transaction completes or fails and PMB_DONE is set. -/
  | pmbDone (ok pec : Bool) (data : Nat)
  /-- AGE_SURVEY_REQUEST (R439): A write of 1 to AGE_CTRL.SURVEY requests a margin survey, refused under R439. -/
  | ageSurveyRequest (w : RegWr)
  /-- SURVEY_END (R440): A 256 ms survey ends; a new plan is formed, projections made and the ledger written. -/
  | surveyEnd (tj : Int) (m : List (Int × Nat))
  /-- MARGIN_ALARM (R437): An island's slack stays below GUARD_MV / 2 for 1 ms; its group rises and an ALARM survey starts. -/
  | marginAlarm (island : Nat)
  /-- PLAN_VOLTAGE_STEP (R441): A plan advances one voltage or frequency step of its application order. -/
  | planVoltageStep
  /-- POWERED_HOUR (R442): A powered hour passes; the total is written to the ledger and a PERIODIC survey starts every 500 hours. -/
  | poweredHour
  /-- SURVEY_DEFER_END (R439): 10 s after entering RUN a deferred survey runs. -/
  | surveyDeferEnd
  /-- UPD_OPEN (R453): UPD_CMD OPEN opens an update session for a kind and chooses the target. -/
  | updOpen (w : RegWr)
  /-- UPD_STAGE (R453): UPD_CMD STAGE programs bytes of a pool buffer into the target flash. -/
  | updStage (w : RegWr)
  /-- UPD_VERIFY (R449): UPD_CMD VERIFY checks the staged image's header, hash, signature and SVN. -/
  | updVerify (w : RegWr)
  /-- UPD_ACTIVATE (R455): UPD_CMD ACTIVATE arms the verified image for NEXT_START, HANDOVER or NOW. -/
  | updActivate (w : RegWr)
  /-- UPD_ABORT (R453): UPD_CMD ABORT discards staged content and any armed activation not begun. -/
  | updAbort (w : RegWr)
  /-- UPD_CLOSE (R453): UPD_CMD CLOSE ends the session, keeping an armed activation. -/
  | updClose (w : RegWr)
  /-- UPD_SESSION_TIMEOUT (R452): 60 s without a command from the holder end the session with TIMEOUT. -/
  | updSessionTimeout
  /-- UPD_UNLOCK (R454): A secure write of 1 to UPD_LOCK.UNLOCK clears the owner lock. -/
  | updUnlock (w : RegWr)
  /-- TRIAL_CONFIRMED (R456): A trial image meets its conditions; it becomes confirmed and the fuse counter is burnt. -/
  | trialConfirmed
  /-- TRIAL_TIMEOUT (R456): No confirmation within 60 s; the trial fails and restarts or reverts. -/
  | trialTimeout
  /-- MICROCODE_TARGET_LOAD (R460): Microcode in place is loaded into the next target once it is idle, then self-checked. -/
  | microcodeTargetLoad (ok : Bool)
  /-- AON_POWER_ON (R463): The AON rail rises and resets everything, starting a new DTIME epoch. -/
  | aonPowerOn
  /-- RESET_N_ASSERT (R463): RESET_N low for 10 µs or more starts a device reset. -/
  | resetNAssert
  /-- SYS_RESTART (R463): A secure write of 1 to SYS_RESET.RESTART starts a device reset. -/
  | sysRestart (w : RegWr)
  /-- RESET_RELEASE (R464): Reset release starts the start-up sequence with the Stake. -/
  | resetRelease
  /-- STARTUP_PHASE_END (R464): A start-up phase ends and the next phase begins, up to full services. -/
  | startupPhaseEnd (l : StartLoad)
  /-- SYS_EARLY_END (R468): A write of 1 to SYS_EARLY.END bit n ends the early image of output n. -/
  | sysEarlyEnd (w : RegWr)
  /-- FAULT_REPORT (R471): The fault aggregator receives a report, logs, counts and acts by its class. -/
  | faultReport (src sram cls code info fn : Nat) (act : FaultAct)
  /-- DEVICE_FATAL_FAULT (R473): A device-fatal source releases the guy line, idles every link and squashes engines. -/
  | deviceFatalFault (source : Nat)
  /-- FATAL_RESTART (R473): 100 ms after a device-fatal fault the device resets, or halts. -/
  | fatalRestart
  /-- WATCHDOG_EXPIRY (R473): The secure-core watchdog expires, a device-fatal fault. -/
  | watchdogExpiry
  /-- REFERENCE_LOSS (R473): The 25 MHz reference is lost in RUN or IDLE, a device-fatal fault. -/
  | referenceLoss
  /-- THERMTRIP (R489): A junction sensor reads 130 °C or more and the AON asserts THERMTRIP_N. -/
  | thermtrip
  /-- LOG_CLEAR (R475): A secure write of 1 to LOG_CTRL.CLEAR empties the log ring and clears LOST. -/
  | logClear (w : RegWr)
  /-- FLIT_CRC_FAILURE (R381): A Plolia receiver gets a flit whose CRC fails, whose SEQ leaves a gap, or whose KIND or reserved field is invalid; it sends NAK or starts a recovery, and discards until the replayed flit arrives. -/
  | flitCrcFailure (crc : Bool) (reserved : Option FlitHdr)
  /-- PLOLIA_RECOVERY_DONE (R381): A Plolia link recovery finishes retraining at its current rate and width within 200 µs, and flit transfer resumes from the kept replay store. -/
  | ploliaRecoveryDone
  /-- MIRROR_FLIT_SEND (R386): When the link can take another flit, the token holder forms the next ordered-stream flit, reads its mirror data through MIRROR_OUT and sends it, lowering PLK_MIRROR_QUEUED and releasing ingest writes held at the 8 MiB limit. -/
  | mirrorFlitSend
  /-- UPD_CMD_DONE (R453): A running UPD_CMD (STAGE, VERIFY, ACTIVATE and the others) finishes its flash or check work, loads UPD_STAT.CODE, clears BUSY and sets EVT_RAW.CMD_DONE. -/
  | updCmdDone (genuine : Bool)
  /-- MSIX_VECTOR_UNMASK (R59): The host unmasks an MSI-X vector of a function, and a message held pending for it under the PCIe pending-bit rules is delivered. -/
  | msixVectorUnmask (fn vec : Nat)
  /-- GROUP_WAKE_DONE (R107): A gated or stopping hold group woken by a secure WLD_HOLD write or a secure transaction runs again; the WLD_HOLD write completes and waiting secure transactions proceed. -/
  | groupWakeDone (group : Nat)
  deriving DecidableEq, Repr

end Sys2Proof
end

