-- ==== Sys2Proof/Decode.lean ====
section
/-! DEFINITION. The command that a word of spec/opcode_table.json spells. The device is a block: it takes commands, not
instruction words, and no row of the table gives a row any bits, so no word spells a command. -/

namespace Sys2Proof

/-- The command spelled by the lowest `nbits` bits of `w`: no row of the table gives bits, so none. -/
def decodeTableWord (_nbits _w : Nat) : Option Instr := none

end Sys2Proof
end

