-- ==== Sys2Proof/Config.lean ====
section
/-! DEFINITION. What the spec leaves open to one device or one run: the free values. Each is an opaque constant, so no
proof can see what it is. -/

namespace Sys2Proof.Config

/-- A value that the spec does not state. The state's counter `free` gives the index, and each use advances it. -/
opaque freeValue : Nat → Nat

/-- A value that the spec does not state for given operands; the first argument tells the uses apart. -/
opaque openResult : Nat → List Nat → Nat

end Sys2Proof.Config
end

