-- ==== Sys2Proof/Machine/RegMap.lean ====
section
/-! DEFINITION. The register pages of the device, field by field, as the register tables of the spec give them
(R9, R10, R42, R44 and the table of each block's chapter): for every field its byte offset in the page, its bits, its
access code, its RWL and SEC marks, its reset value (`none` for a dash) and the index dimensions of its block. -/

namespace Sys2Proof.Machine

/-- The base access codes of R10; RWL and SEC are separate marks. -/
inductive Acc where
  | rw | ro | wo | w1c | w1s | rws
  deriving DecidableEq, Repr

/-- One field of one register (R9): `off` is the byte offset of the word in its page, or of element 0 of its block;
`dims` lists (count, stride) of each index, outermost first. -/
structure Fld where
  off : Nat
  hi : Nat
  lo : Nat
  acc : Acc
  rwl : Bool
  sec : Bool
  reset : Option Nat
  dims : List (Nat × Nat)
  deriving DecidableEq, Repr

/-- The pages of the page map (R42), and the VF control page of each function (R38). -/
inductive Page where
  | sys | tim | log | pwr | aon | age | upd | wld | own
  | hp (p : Nat) | chn | pool | ing (n : Nat) | cvu (n : Nat) | dmc (n : Nat) | edac
  | pipe (n : Nat) | slot (n k : Nat) | chk (n : Nat) | scn (n : Nat) | dpl (n : Nat)
  | tch (n : Nat) | hap | aud (n : Nat) | plk | pmc
  | vf (fn : Nat)
  deriving DecidableEq, Repr

namespace F

/-! PG_ID (R44, spec/02_register_pages.md) -/
def PG_ID_KIND : Fld := ⟨0x000, 31, 24, .ro, false, false, none, []⟩
def PG_ID_INSTANCE : Fld := ⟨0x000, 23, 16, .ro, false, false, none, []⟩
def PG_ID_LAYOUT : Fld := ⟨0x000, 15, 8, .ro, false, false, some 0x1, []⟩
/-! PG_CAP (R44, spec/02_register_pages.md) -/
def PG_CAP_WIDE : Fld := ⟨0x004, 31, 31, .ro, false, false, none, []⟩
def PG_CAP_SHADOWED : Fld := ⟨0x004, 30, 30, .ro, false, false, none, []⟩
def PG_CAP_DELEGABLE : Fld := ⟨0x004, 29, 29, .ro, false, false, none, []⟩
def PG_CAP_LOCKABLE : Fld := ⟨0x004, 28, 28, .ro, false, false, none, []⟩
def PG_CAP_BLOCK_CAP : Fld := ⟨0x004, 27, 0, .ro, false, false, none, []⟩
/-! PG_CTRL (R44, spec/02_register_pages.md) -/
def PG_CTRL_ENABLE : Fld := ⟨0x008, 0, 0, .rw, true, false, none, []⟩
def PG_CTRL_SOFT_RESET : Fld := ⟨0x008, 1, 1, .wo, true, false, some 0x0, []⟩
def PG_CTRL_LOCK : Fld := ⟨0x008, 2, 2, .w1s, false, false, some 0x0, []⟩
def PG_CTRL_UNLOCK : Fld := ⟨0x008, 3, 3, .wo, false, true, some 0x0, []⟩
/-! PG_STAT (R44, spec/02_register_pages.md) -/
def PG_STAT_ENABLED : Fld := ⟨0x00C, 0, 0, .ro, false, false, some 0x0, []⟩
def PG_STAT_BUSY : Fld := ⟨0x00C, 1, 1, .ro, false, false, some 0x0, []⟩
def PG_STAT_LOCKED : Fld := ⟨0x00C, 2, 2, .ro, false, false, some 0x0, []⟩
def PG_STAT_ERR : Fld := ⟨0x00C, 3, 3, .ro, false, false, some 0x0, []⟩
def PG_STAT_DELEGATED : Fld := ⟨0x00C, 4, 4, .ro, false, false, none, []⟩
def PG_STAT_SECURE_OWNED : Fld := ⟨0x00C, 5, 5, .ro, false, false, none, []⟩
def PG_STAT_CRIT : Fld := ⟨0x00C, 7, 6, .ro, false, false, none, []⟩
def PG_STAT_OWN_FN : Fld := ⟨0x00C, 15, 8, .ro, false, false, none, []⟩
def PG_STAT_BLOCK_STAT : Fld := ⟨0x00C, 31, 16, .ro, false, false, some 0x0, []⟩
/-! EVT_RAW (R44, spec/02_register_pages.md) -/
def EVT_RAW_ERR : Fld := ⟨0x010, 31, 31, .w1c, false, false, some 0x0, []⟩
def EVT_RAW_BLOCK_EVT : Fld := ⟨0x010, 30, 0, .w1c, false, false, some 0x0, []⟩
/-! EVT_EN (R44, spec/02_register_pages.md) -/
def EVT_EN_EN : Fld := ⟨0x014, 31, 0, .rw, false, false, some 0x0, []⟩
/-! EVT_PEND (R44, spec/02_register_pages.md) -/
def EVT_PEND_PEND : Fld := ⟨0x018, 31, 0, .ro, false, false, some 0x0, []⟩
/-! EVT_SET (R44, spec/02_register_pages.md) -/
def EVT_SET_SET : Fld := ⟨0x01C, 31, 0, .w1s, false, false, some 0x0, []⟩
/-! ERR_CODE (R44, spec/02_register_pages.md) -/
def ERR_CODE_CODE : Fld := ⟨0x020, 15, 0, .ro, false, false, some 0x0, []⟩
def ERR_CODE_OVERFLOW : Fld := ⟨0x020, 16, 16, .ro, false, false, some 0x0, []⟩
def ERR_CODE_CLEAR : Fld := ⟨0x020, 31, 31, .wo, false, false, some 0x0, []⟩
/-! ERR_INFO (R44, spec/02_register_pages.md) -/
def ERR_INFO_INFO : Fld := ⟨0x024, 31, 0, .ro, false, false, some 0x0, []⟩
/-! SHADOW_CTRL (R44, spec/02_register_pages.md) -/
def SHADOW_CTRL_GROUP : Fld := ⟨0x028, 2, 0, .rw, true, false, some 0x0, []⟩
def SHADOW_CTRL_DIRTY : Fld := ⟨0x028, 8, 8, .ro, false, false, some 0x0, []⟩
def SHADOW_CTRL_ARMED : Fld := ⟨0x028, 9, 9, .ro, false, false, some 0x0, []⟩
def SHADOW_CTRL_DISCARD : Fld := ⟨0x028, 16, 16, .wo, false, false, some 0x0, []⟩
/-! OWNER (R44, spec/02_register_pages.md) -/
def OWNER_WORLD : Fld := ⟨0x02C, 31, 31, .rw, false, true, none, []⟩
def OWNER_FUNCTION : Fld := ⟨0x02C, 23, 16, .rw, false, true, none, []⟩
def OWNER_CRIT : Fld := ⟨0x02C, 13, 12, .rw, false, true, none, []⟩
def OWNER_DELEGATE : Fld := ⟨0x02C, 8, 8, .rw, false, true, none, []⟩
def OWNER_FRAME : Fld := ⟨0x02C, 3, 0, .rw, false, true, none, []⟩
/-! EVT_ROUTE (R44, spec/02_register_pages.md) -/
def EVT_ROUTE_EN : Fld := ⟨0x030, 31, 31, .rw, false, false, some 0x0, []⟩
def EVT_ROUTE_FUNCTION : Fld := ⟨0x030, 23, 16, .rw, false, false, some 0x40, []⟩
def EVT_ROUTE_VECTOR : Fld := ⟨0x030, 5, 0, .rw, false, false, some 0x0, []⟩
/-! CHN_LIVE (R82, spec/03_channels_and_pool.md) -/
def CHN_LIVE_OPEN : Fld := ⟨0x040, 8, 0, .ro, false, false, some 0x0, []⟩
def CHN_LIVE_DRAINING : Fld := ⟨0x040, 24, 16, .ro, false, false, some 0x0, []⟩
/-! CHN_SEL (R82, spec/03_channels_and_pool.md) -/
def CHN_SEL_INDEX : Fld := ⟨0x044, 7, 0, .rw, false, false, some 0x0, []⟩
/-! CHN_HANDLE (R82, spec/03_channels_and_pool.md) -/
def CHN_HANDLE_HANDLE : Fld := ⟨0x048, 31, 0, .ro, false, false, some 0x100, []⟩
/-! CHN_INFO (R82, spec/03_channels_and_pool.md) -/
def CHN_INFO_STATE : Fld := ⟨0x04C, 1, 0, .ro, false, false, some 0x0, []⟩
def CHN_INFO_FUNCTION : Fld := ⟨0x04C, 15, 8, .ro, false, false, some 0x0, []⟩
def CHN_INFO_BUFFERS : Fld := ⟨0x04C, 31, 16, .ro, false, false, some 0x0, []⟩
/-! CHN_PLOTS (R82, spec/03_channels_and_pool.md) -/
def CHN_PLOTS_PLOTS : Fld := ⟨0x050, 20, 0, .ro, false, false, some 0x0, []⟩
/-! CHN_FN_SEL (R82, spec/03_channels_and_pool.md) -/
def CHN_FN_SEL_FUNCTION : Fld := ⟨0x054, 7, 0, .rw, false, false, some 0x0, []⟩
/-! CHN_FN_LIMIT (R82, spec/03_channels_and_pool.md) -/
def CHN_FN_LIMIT_LIMIT : Fld := ⟨0x058, 8, 0, .rw, true, false, none, []⟩
def CHN_FN_LIMIT_COUNT : Fld := ⟨0x058, 24, 16, .ro, false, false, some 0x0, []⟩
/-! POOL_BASE_LO (R83, spec/03_channels_and_pool.md) -/
def POOL_BASE_LO_BASE_LO : Fld := ⟨0x040, 31, 21, .rw, true, false, some 0x0, []⟩
/-! POOL_BASE_HI (R83, spec/03_channels_and_pool.md) -/
def POOL_BASE_HI_BASE_HI : Fld := ⟨0x044, 3, 0, .rw, true, false, some 0x0, []⟩
/-! POOL_PLOTS (R83, spec/03_channels_and_pool.md) -/
def POOL_PLOTS_PLOTS : Fld := ⟨0x048, 20, 0, .rw, true, false, some 0x0, []⟩
/-! POOL_FREE (R83, spec/03_channels_and_pool.md) -/
def POOL_FREE_FREE : Fld := ⟨0x04C, 20, 0, .ro, false, false, some 0x0, []⟩
/-! POOL_LIVE_BUF (R83, spec/03_channels_and_pool.md) -/
def POOL_LIVE_BUF_LIVE : Fld := ⟨0x050, 16, 0, .ro, false, false, some 0x0, []⟩
/-! POOL_OWED (R83, spec/03_channels_and_pool.md) -/
def POOL_OWED_OWED : Fld := ⟨0x054, 20, 0, .ro, false, false, some 0x0, []⟩
/-! POOL_LOW_MARK (R83, spec/03_channels_and_pool.md) -/
def POOL_LOW_MARK_MARK : Fld := ⟨0x058, 20, 0, .rw, false, false, some 0x0, []⟩
/-! POOL_FN_SEL (R83, spec/03_channels_and_pool.md) -/
def POOL_FN_SEL_FUNCTION : Fld := ⟨0x05C, 7, 0, .rw, false, false, some 0x0, []⟩
/-! POOL_FN_QUOTA (R83, spec/03_channels_and_pool.md) -/
def POOL_FN_QUOTA_QUOTA : Fld := ⟨0x060, 20, 0, .rw, true, false, none, []⟩
/-! POOL_FN_SHARE (R83, spec/03_channels_and_pool.md) -/
def POOL_FN_SHARE_SHARE : Fld := ⟨0x064, 20, 0, .rw, true, false, some 0x0, []⟩
/-! POOL_FN_USED (R83, spec/03_channels_and_pool.md) -/
def POOL_FN_USED_USED : Fld := ⟨0x068, 20, 0, .ro, false, false, some 0x0, []⟩
/-! POOL_FN_PEAK (R83, spec/03_channels_and_pool.md) -/
def POOL_FN_PEAK_PEAK : Fld := ⟨0x06C, 20, 0, .ro, false, false, some 0x0, []⟩
def POOL_FN_PEAK_CLEAR : Fld := ⟨0x06C, 31, 31, .wo, false, false, some 0x0, []⟩
/-! POOL_BUF_SEL (R83, spec/03_channels_and_pool.md) -/
def POOL_BUF_SEL_INDEX : Fld := ⟨0x070, 15, 0, .rw, false, false, some 0x0, []⟩
/-! POOL_BUF_HANDLE (R83, spec/03_channels_and_pool.md) -/
def POOL_BUF_HANDLE_HANDLE : Fld := ⟨0x074, 31, 0, .ro, false, false, some 0x10000, []⟩
/-! POOL_BUF_INFO (R83, spec/03_channels_and_pool.md) -/
def POOL_BUF_INFO_STATE : Fld := ⟨0x078, 1, 0, .ro, false, false, some 0x0, []⟩
def POOL_BUF_INFO_FUNCTION : Fld := ⟨0x078, 15, 8, .ro, false, false, some 0x0, []⟩
def POOL_BUF_INFO_FENCES : Fld := ⟨0x078, 31, 16, .ro, false, false, some 0x0, []⟩
/-! POOL_BUF_CHANNEL (R83, spec/03_channels_and_pool.md) -/
def POOL_BUF_CHANNEL_CHANNEL : Fld := ⟨0x07C, 31, 0, .ro, false, false, some 0x0, []⟩
/-! POOL_BUF_PLOTS (R83, spec/03_channels_and_pool.md) -/
def POOL_BUF_PLOTS_PLOTS : Fld := ⟨0x080, 12, 0, .ro, false, false, some 0x0, []⟩
/-! POOL_FILL (R83, spec/03_channels_and_pool.md) -/
def POOL_FILL_ALWAYS : Fld := ⟨0x084, 0, 0, .rw, true, false, some 0x0, []⟩
/-! POOL_FILLED (R83, spec/03_channels_and_pool.md) -/
def POOL_FILLED_COUNT : Fld := ⟨0x088, 31, 0, .ro, false, false, some 0x0, []⟩
/-! POOL_RETIRED (R83, spec/03_channels_and_pool.md) -/
def POOL_RETIRED_RETIRED : Fld := ⟨0x08C, 20, 0, .ro, false, false, some 0x0, []⟩
/-! WLD_WMARK_LO (R107, spec/04_worlds.md) -/
def WLD_WMARK_LO_WMARK_LO : Fld := ⟨0x040, 31, 21, .rw, false, true, some 0x0, []⟩
/-! WLD_WMARK_HI (R107, spec/04_worlds.md) -/
def WLD_WMARK_HI_WMARK_HI : Fld := ⟨0x044, 3, 0, .rw, false, true, some 0x0, []⟩
def WLD_WMARK_HI_SET : Fld := ⟨0x044, 31, 31, .w1s, false, true, some 0x0, []⟩
/-! WLD_DENY_COUNT (R107, spec/04_worlds.md) -/
def WLD_DENY_COUNT_COUNT : Fld := ⟨0x048, 31, 0, .ro, false, false, some 0x0, []⟩
/-! WLD_DENY_ATTR (R107, spec/04_worlds.md) -/
def WLD_DENY_ATTR_FUNCTION : Fld := ⟨0x04C, 7, 0, .ro, false, false, some 0x0, []⟩
def WLD_DENY_ATTR_WORLD : Fld := ⟨0x04C, 8, 8, .ro, false, false, some 0x0, []⟩
def WLD_DENY_ATTR_CRIT : Fld := ⟨0x04C, 10, 9, .ro, false, false, some 0x0, []⟩
def WLD_DENY_ATTR_WRITE : Fld := ⟨0x04C, 11, 11, .ro, false, false, some 0x0, []⟩
def WLD_DENY_ATTR_TARGET : Fld := ⟨0x04C, 15, 12, .ro, false, false, some 0x0, []⟩
def WLD_DENY_ATTR_VALID : Fld := ⟨0x04C, 16, 16, .ro, false, false, some 0x0, []⟩
def WLD_DENY_ATTR_CLEAR : Fld := ⟨0x04C, 31, 31, .wo, false, false, some 0x0, []⟩
/-! WLD_DENY_ADDR_LO (R107, spec/04_worlds.md) -/
def WLD_DENY_ADDR_LO_ADDR_LO : Fld := ⟨0x050, 31, 0, .ro, false, false, some 0x0, []⟩
/-! WLD_DENY_ADDR_HI (R107, spec/04_worlds.md) -/
def WLD_DENY_ADDR_HI_ADDR_HI : Fld := ⟨0x054, 3, 0, .ro, false, false, some 0x0, []⟩
/-! WLD_GATE_STAT (R107, spec/04_worlds.md) -/
def WLD_GATE_STAT_IN_SECURE : Fld := ⟨0x058, 3, 0, .ro, false, false, some 0x0, []⟩
/-! WLD_GATE_COUNT (R107, spec/04_worlds.md) -/
def WLD_GATE_COUNT_COUNT : Fld := ⟨0x05C, 31, 0, .ro, false, false, some 0x0, []⟩
/-! WLD_HOLD (R107, spec/04_worlds.md) -/
def WLD_HOLD_HOLD : Fld := ⟨0x060, 24, 0, .rw, false, true, some 0x0, []⟩
/-! WLD_HOLD_STAT (R107, spec/04_worlds.md) -/
def WLD_HOLD_STAT_HELD : Fld := ⟨0x064, 24, 0, .ro, false, false, some 0x0, []⟩
/-! OWN_TABLE_LO (R107, spec/04_worlds.md) -/
def OWN_TABLE_LO_BASE_LO : Fld := ⟨0x040, 31, 12, .rw, true, true, none, []⟩
/-! OWN_TABLE_HI (R107, spec/04_worlds.md) -/
def OWN_TABLE_HI_BASE_HI : Fld := ⟨0x044, 3, 0, .rw, true, true, none, []⟩
/-! OWN_HITS (R107, spec/04_worlds.md) -/
def OWN_HITS_COUNT : Fld := ⟨0x048, 31, 0, .ro, false, false, some 0x0, []⟩
/-! OWN_MISSES (R107, spec/04_worlds.md) -/
def OWN_MISSES_COUNT : Fld := ⟨0x04C, 31, 0, .ro, false, false, some 0x0, []⟩
/-! OWN_FN_SEL (R107, spec/04_worlds.md) -/
def OWN_FN_SEL_FUNCTION : Fld := ⟨0x050, 7, 0, .rw, false, false, some 0x0, []⟩
/-! OWN_FN_CRIT (R107, spec/04_worlds.md) -/
def OWN_FN_CRIT_CRIT : Fld := ⟨0x054, 1, 0, .rw, false, true, none, []⟩
/-! OWN_PLOT_SEL (R107, spec/04_worlds.md) -/
def OWN_PLOT_SEL_PLOT : Fld := ⟨0x058, 19, 0, .rw, false, false, some 0x0, []⟩
/-! OWN_PLOT_ENTRY (R107, spec/04_worlds.md) -/
def OWN_PLOT_ENTRY_ENTRY : Fld := ⟨0x05C, 31, 0, .ro, false, false, some 0x0, []⟩
/-! OWN_APPLET (R107, spec/04_worlds.md) -/
def OWN_APPLET_LOADED : Fld := ⟨0x060, 0, 0, .ro, false, false, some 0x0, []⟩
def OWN_APPLET_RUNNING : Fld := ⟨0x060, 1, 1, .ro, false, false, some 0x0, []⟩
def OWN_APPLET_REJECT : Fld := ⟨0x060, 15, 8, .ro, false, false, some 0x0, []⟩
def OWN_APPLET_SIZE_KIB : Fld := ⟨0x060, 25, 16, .ro, false, false, some 0x0, []⟩
/-! OWN_KEY (R107, spec/04_worlds.md) -/
def OWN_KEY_FUSED : Fld := ⟨0x064, 0, 0, .ro, false, false, none, []⟩
/-! PMC_CTRL (R107, spec/04_worlds.md) -/
def PMC_CTRL_RUN : Fld := ⟨0x040, 0, 0, .rw, false, false, some 0x0, []⟩
def PMC_CTRL_CLEAR : Fld := ⟨0x040, 1, 1, .wo, false, false, some 0x0, []⟩
/-! PMC_STAT (R107, spec/04_worlds.md) -/
def PMC_STAT_FROZEN_CORE : Fld := ⟨0x044, 3, 0, .ro, false, false, some 0x0, []⟩
/-! PMC_SEL (R107, spec/04_worlds.md) -/
def PMC_SEL_EVENT : Fld := ⟨0x080, 7, 0, .rw, false, false, some 0x0, [(8, 0x10)]⟩
def PMC_SEL_FUNCTION : Fld := ⟨0x080, 15, 8, .rw, false, false, some 0x0, [(8, 0x10)]⟩
def PMC_SEL_FN_FILTER : Fld := ⟨0x080, 16, 16, .rw, false, false, some 0x0, [(8, 0x10)]⟩
/-! PMC_CNT_LO (R107, spec/04_worlds.md) -/
def PMC_CNT_LO_COUNT_LO : Fld := ⟨0x084, 31, 0, .ro, false, false, some 0x0, [(8, 0x10)]⟩
/-! PMC_CNT_HI (R107, spec/04_worlds.md) -/
def PMC_CNT_HI_COUNT_HI : Fld := ⟨0x088, 15, 0, .ro, false, false, some 0x0, [(8, 0x10)]⟩
/-! Q_SQ_BASE_LO (R131, spec/05_guest_interface.md) -/
def Q_SQ_BASE_LO_BASE_LO : Fld := ⟨0x000, 31, 6, .rw, false, false, some 0x0, [(8, 0x40)]⟩
/-! Q_SQ_BASE_HI (R131, spec/05_guest_interface.md) -/
def Q_SQ_BASE_HI_BASE_HI : Fld := ⟨0x004, 31, 0, .rw, false, false, some 0x0, [(8, 0x40)]⟩
/-! Q_SIZE (R131, spec/05_guest_interface.md) -/
def Q_SIZE_SQ_ENTRIES : Fld := ⟨0x010, 12, 0, .rw, false, false, some 0x0, [(8, 0x40)]⟩
def Q_SIZE_CQ_ENTRIES : Fld := ⟨0x010, 28, 16, .rw, false, false, some 0x0, [(8, 0x40)]⟩
/-! Q_CTRL (R131, spec/05_guest_interface.md) -/
def Q_CTRL_ENABLE : Fld := ⟨0x014, 0, 0, .rw, false, false, some 0x0, [(8, 0x40)]⟩
def Q_CTRL_VECTOR : Fld := ⟨0x014, 7, 2, .rw, false, false, some 0x0, [(8, 0x40)]⟩
def Q_CTRL_COAL_COUNT : Fld := ⟨0x014, 15, 8, .rw, false, false, some 0x0, [(8, 0x40)]⟩
def Q_CTRL_COAL_TIME : Fld := ⟨0x014, 23, 16, .rw, false, false, some 0x0, [(8, 0x40)]⟩
/-! Q_STAT (R131, spec/05_guest_interface.md) -/
def Q_STAT_STATE : Fld := ⟨0x018, 1, 0, .ro, false, false, some 0x0, [(8, 0x40)]⟩
def Q_STAT_SQ_HEAD : Fld := ⟨0x018, 15, 4, .ro, false, false, some 0x0, [(8, 0x40)]⟩
def Q_STAT_CQ_TAIL : Fld := ⟨0x018, 27, 16, .ro, false, false, some 0x0, [(8, 0x40)]⟩
def Q_STAT_PHASE : Fld := ⟨0x018, 28, 28, .ro, false, false, some 0x0, [(8, 0x40)]⟩
/-! Q_SQ_DB (R131, spec/05_guest_interface.md) -/
def Q_SQ_DB_TAIL : Fld := ⟨0x020, 11, 0, .wo, false, false, some 0x0, [(8, 0x40)]⟩
/-! Q_CQ_DB (R131, spec/05_guest_interface.md) -/
def Q_CQ_DB_HEAD : Fld := ⟨0x024, 11, 0, .wo, false, false, some 0x0, [(8, 0x40)]⟩
/-! VF_INFO (R131, spec/05_guest_interface.md) -/
def VF_INFO_FUNCTION : Fld := ⟨0x040, 7, 0, .ro, false, false, none, []⟩
def VF_INFO_PAIR_ROLE : Fld := ⟨0x040, 9, 8, .ro, false, false, none, []⟩
def VF_INFO_CRIT : Fld := ⟨0x040, 13, 12, .ro, false, false, none, []⟩
def VF_INFO_HELD_STATE : Fld := ⟨0x040, 16, 16, .ro, false, false, none, []⟩
/-! HP_LINK (R131, spec/05_guest_interface.md) -/
def HP_LINK_SPEED : Fld := ⟨0x040, 3, 0, .ro, false, false, some 0x0, []⟩
def HP_LINK_WIDTH : Fld := ⟨0x040, 7, 4, .ro, false, false, some 0x0, []⟩
def HP_LINK_ASPM : Fld := ⟨0x040, 9, 8, .ro, false, false, some 0x0, []⟩
/-! HP_LINK_DOWNS (R131, spec/05_guest_interface.md) -/
def HP_LINK_DOWNS_COUNT : Fld := ⟨0x044, 31, 0, .ro, false, false, some 0x0, []⟩
/-! HP_SRIOV (R131, spec/05_guest_interface.md) -/
def HP_SRIOV_NUM_VFS : Fld := ⟨0x048, 5, 0, .ro, false, false, some 0x0, []⟩
def HP_SRIOV_VF_ENABLE : Fld := ⟨0x048, 6, 6, .ro, false, false, some 0x0, []⟩
/-! HP_MGR (R131, spec/05_guest_interface.md) -/
def HP_MGR_ROLE : Fld := ⟨0x04C, 0, 0, .rw, false, true, some 0x0, []⟩
/-! HP_HOST_RID (R131, spec/05_guest_interface.md) -/
def HP_HOST_RID_RID : Fld := ⟨0x050, 15, 0, .rw, true, false, some 0x0, []⟩
def HP_HOST_RID_VALID : Fld := ⟨0x050, 16, 16, .rw, true, false, some 0x0, []⟩
/-! HP_PEER_DROP (R131, spec/05_guest_interface.md) -/
def HP_PEER_DROP_COUNT : Fld := ⟨0x054, 31, 0, .ro, false, false, some 0x0, []⟩
/-! HP_FN_SEL (R131, spec/05_guest_interface.md) -/
def HP_FN_SEL_FUNCTION : Fld := ⟨0x058, 5, 0, .rw, false, false, some 0x0, []⟩
/-! HP_FN_STAT (R131, spec/05_guest_interface.md) -/
def HP_FN_STAT_STATE : Fld := ⟨0x05C, 1, 0, .ro, false, false, some 0x0, []⟩
def HP_FN_STAT_BME : Fld := ⟨0x05C, 2, 2, .ro, false, false, some 0x0, []⟩
def HP_FN_STAT_HELD_STATE : Fld := ⟨0x05C, 3, 3, .ro, false, false, some 0x0, []⟩
def HP_FN_STAT_QUEUES : Fld := ⟨0x05C, 7, 4, .ro, false, false, some 0x0, []⟩
/-! HP_FN_WEIGHT (R131, spec/05_guest_interface.md) -/
def HP_FN_WEIGHT_WEIGHT : Fld := ⟨0x060, 7, 0, .rw, true, false, some 0x10, []⟩
/-! HP_FN_RESET_INFO (R131, spec/05_guest_interface.md) -/
def HP_FN_RESET_INFO_CAUSE : Fld := ⟨0x064, 2, 0, .ro, false, false, some 0x0, []⟩
def HP_FN_RESET_INFO_SQUASHED : Fld := ⟨0x064, 31, 16, .ro, false, false, some 0x0, []⟩
/-! HP_FN_RESET_TIME (R131, spec/05_guest_interface.md) -/
def HP_FN_RESET_TIME_TIME_US : Fld := ⟨0x068, 31, 0, .ro, false, false, some 0x0, []⟩
/-! HP_PF_RESET (R131, spec/05_guest_interface.md) -/
def HP_PF_RESET_START : Fld := ⟨0x06C, 0, 0, .wo, false, false, some 0x0, []⟩
/-! ING_CTRL (R158, spec/06_surfaces_and_seedbed.md) -/
def ING_CTRL_READ_SIZE : Fld := ⟨0x040, 1, 0, .rw, true, false, some 0x0, []⟩
def ING_CTRL_MAX_READS : Fld := ⟨0x040, 14, 8, .rw, true, false, some 0x40, []⟩
/-! ING_TILES_LO (R158, spec/06_surfaces_and_seedbed.md) -/
def ING_TILES_LO_COUNT_LO : Fld := ⟨0x044, 31, 0, .ro, false, false, some 0x0, []⟩
/-! ING_TILES_HI (R158, spec/06_surfaces_and_seedbed.md) -/
def ING_TILES_HI_COUNT_HI : Fld := ⟨0x048, 15, 0, .ro, false, false, some 0x0, []⟩
/-! ING_MODE (R158, spec/06_surfaces_and_seedbed.md) -/
def ING_MODE_COUNT : Fld := ⟨0x060, 31, 0, .ro, false, false, some 0x0, [(4, 0x4)]⟩
/-! ING_ERR_ADDR_LO (R158, spec/06_surfaces_and_seedbed.md) -/
def ING_ERR_ADDR_LO_ADDR_LO : Fld := ⟨0x070, 31, 0, .ro, false, false, some 0x0, []⟩
/-! ING_ERR_ADDR_HI (R158, spec/06_surfaces_and_seedbed.md) -/
def ING_ERR_ADDR_HI_ADDR_HI : Fld := ⟨0x074, 31, 0, .ro, false, false, some 0x0, []⟩
/-! ING_SLOT_SEL (R158, spec/06_surfaces_and_seedbed.md) -/
def ING_SLOT_SEL_SLOT : Fld := ⟨0x078, 2, 0, .rw, false, false, some 0x0, []⟩
/-! ING_SLOT_INFO (R158, spec/06_surfaces_and_seedbed.md) -/
def ING_SLOT_INFO_STATE : Fld := ⟨0x07C, 1, 0, .ro, false, false, some 0x0, []⟩
def ING_SLOT_INFO_FUNCTION : Fld := ⟨0x07C, 15, 8, .ro, false, false, some 0x0, []⟩
def ING_SLOT_INFO_FORMAT : Fld := ⟨0x07C, 23, 16, .ro, false, false, some 0x0, []⟩
def ING_SLOT_INFO_SEEDBED : Fld := ⟨0x07C, 24, 24, .ro, false, false, some 0x0, []⟩
/-! ING_SLOT_BUF (R158, spec/06_surfaces_and_seedbed.md) -/
def ING_SLOT_BUF_BUFFER : Fld := ⟨0x080, 31, 0, .ro, false, false, some 0x0, []⟩
/-! ING_SLOT_DONE (R158, spec/06_surfaces_and_seedbed.md) -/
def ING_SLOT_DONE_TILES : Fld := ⟨0x084, 23, 0, .ro, false, false, some 0x0, []⟩
/-! PIPE_CTRL (R186, spec/07_composition.md) -/
def PIPE_CTRL_DEPTH8 : Fld := ⟨0x040, 0, 0, .rws, false, false, some 0x0, []⟩
def PIPE_CTRL_REGAMMA_EN : Fld := ⟨0x040, 1, 1, .rws, false, false, some 0x0, []⟩
def PIPE_CTRL_OMTX_EN : Fld := ⟨0x040, 2, 2, .rws, false, false, some 0x0, []⟩
/-! PIPE_BG_RG (R186, spec/07_composition.md) -/
def PIPE_BG_RG_BG_R : Fld := ⟨0x044, 15, 0, .rws, false, false, some 0x0, []⟩
def PIPE_BG_RG_BG_G : Fld := ⟨0x044, 31, 16, .rws, false, false, some 0x0, []⟩
/-! PIPE_BG_B (R186, spec/07_composition.md) -/
def PIPE_BG_B_BG_B : Fld := ⟨0x048, 15, 0, .rws, false, false, some 0x0, []⟩
/-! PIPE_SCALERS (R186, spec/07_composition.md) -/
def PIPE_SCALERS_SLOT_0 : Fld := ⟨0x04C, 3, 0, .ro, false, false, some 0x0, []⟩
def PIPE_SCALERS_SLOT_1 : Fld := ⟨0x04C, 11, 8, .ro, false, false, some 0x0, []⟩
def PIPE_SCALERS_SLOT_2 : Fld := ⟨0x04C, 19, 16, .ro, false, false, some 0x0, []⟩
def PIPE_SCALERS_SLOT_3 : Fld := ⟨0x04C, 27, 24, .ro, false, false, some 0x0, []⟩
def PIPE_SCALERS_VALID_0 : Fld := ⟨0x04C, 7, 7, .ro, false, false, some 0x0, []⟩
def PIPE_SCALERS_VALID_1 : Fld := ⟨0x04C, 15, 15, .ro, false, false, some 0x0, []⟩
def PIPE_SCALERS_VALID_2 : Fld := ⟨0x04C, 23, 23, .ro, false, false, some 0x0, []⟩
def PIPE_SCALERS_VALID_3 : Fld := ⟨0x04C, 31, 31, .ro, false, false, some 0x0, []⟩
/-! PIPE_SPANS_2P (R186, spec/07_composition.md) -/
def PIPE_SPANS_2P_COUNT : Fld := ⟨0x050, 31, 0, .ro, false, false, some 0x0, []⟩
/-! PIPE_ELIM (R186, spec/07_composition.md) -/
def PIPE_ELIM_COUNT : Fld := ⟨0x054, 31, 0, .ro, false, false, some 0x0, []⟩
/-! PIPE_FRAMES (R186, spec/07_composition.md) -/
def PIPE_FRAMES_COUNT : Fld := ⟨0x058, 31, 0, .ro, false, false, some 0x0, []⟩
/-! PIPE_LUT_ADDR (R186, spec/07_composition.md) -/
def PIPE_LUT_ADDR_INDEX : Fld := ⟨0x060, 9, 0, .rw, false, false, some 0x0, []⟩
def PIPE_LUT_ADDR_CHANNEL : Fld := ⟨0x060, 11, 10, .rw, false, false, some 0x0, []⟩
/-! PIPE_LUT_DATA (R186, spec/07_composition.md) -/
def PIPE_LUT_DATA_ENTRY : Fld := ⟨0x064, 15, 0, .rws, false, false, none, []⟩
/-! PIPE_SCL_ADDR (R186, spec/07_composition.md) -/
def PIPE_SCL_ADDR_SCALER : Fld := ⟨0x068, 1, 0, .rw, false, false, some 0x0, []⟩
def PIPE_SCL_ADDR_DIR : Fld := ⟨0x068, 2, 2, .rw, false, false, some 0x0, []⟩
def PIPE_SCL_ADDR_PHASE : Fld := ⟨0x068, 8, 3, .rw, false, false, some 0x0, []⟩
def PIPE_SCL_ADDR_HALF : Fld := ⟨0x068, 9, 9, .rw, false, false, some 0x0, []⟩
/-! PIPE_SCL_DATA (R186, spec/07_composition.md) -/
def PIPE_SCL_DATA_TAP_EVEN : Fld := ⟨0x06C, 15, 0, .rws, false, false, none, []⟩
def PIPE_SCL_DATA_TAP_ODD : Fld := ⟨0x06C, 31, 16, .rws, false, false, none, []⟩
/-! KO_POS (R186, spec/07_composition.md) -/
def KO_POS_X : Fld := ⟨0x100, 12, 0, .rws, false, true, some 0x0, [(16, 0x10)]⟩
def KO_POS_Y : Fld := ⟨0x100, 28, 16, .rws, false, true, some 0x0, [(16, 0x10)]⟩
/-! KO_SIZE (R186, spec/07_composition.md) -/
def KO_SIZE_W : Fld := ⟨0x104, 13, 0, .rws, false, true, some 0x0, [(16, 0x10)]⟩
def KO_SIZE_H : Fld := ⟨0x104, 29, 16, .rws, false, true, some 0x0, [(16, 0x10)]⟩
/-! KO_CTRL (R186, spec/07_composition.md) -/
def KO_CTRL_SLOT : Fld := ⟨0x108, 3, 0, .rws, false, true, some 0x0, [(16, 0x10)]⟩
def KO_CTRL_EN : Fld := ⟨0x108, 8, 8, .rws, false, true, some 0x0, [(16, 0x10)]⟩
/-! SLOT_CTRL (R186, spec/07_composition.md) -/
def SLOT_CTRL_MODE : Fld := ⟨0x040, 1, 0, .rws, false, false, some 0x0, []⟩
def SLOT_CTRL_OPAQUE : Fld := ⟨0x040, 2, 2, .rws, false, false, some 0x0, []⟩
def SLOT_CTRL_SRC_SEL : Fld := ⟨0x040, 3, 3, .rws, false, false, some 0x0, []⟩
def SLOT_CTRL_IMTX_EN : Fld := ⟨0x040, 4, 4, .rws, false, false, some 0x0, []⟩
def SLOT_CTRL_DEGAMMA_EN : Fld := ⟨0x040, 5, 5, .rws, false, false, some 0x0, []⟩
def SLOT_CTRL_GMTX_EN : Fld := ⟨0x040, 6, 6, .rws, false, false, some 0x0, []⟩
def SLOT_CTRL_GS_IMAGE : Fld := ⟨0x040, 7, 7, .rws, false, false, some 0x0, []⟩
/-! SLOT_BUF (R186, spec/07_composition.md) -/
def SLOT_BUF_BUFFER : Fld := ⟨0x044, 31, 0, .rws, false, false, some 0x0, []⟩
/-! SLOT_FMT (R186, spec/07_composition.md) -/
def SLOT_FMT_FORMAT : Fld := ⟨0x048, 7, 0, .rws, false, false, some 0x1, []⟩
def SLOT_FMT_SEEDBED : Fld := ⟨0x048, 8, 8, .rws, false, false, some 0x0, []⟩
/-! SLOT_SURF (R186, spec/07_composition.md) -/
def SLOT_SURF_WIDTH : Fld := ⟨0x04C, 15, 0, .rws, false, false, some 0x0, []⟩
def SLOT_SURF_HEIGHT : Fld := ⟨0x04C, 31, 16, .rws, false, false, some 0x0, []⟩
/-! SLOT_CROP_POS (R186, spec/07_composition.md) -/
def SLOT_CROP_POS_X : Fld := ⟨0x050, 15, 0, .rws, false, false, some 0x0, []⟩
def SLOT_CROP_POS_Y : Fld := ⟨0x050, 31, 16, .rws, false, false, some 0x0, []⟩
/-! SLOT_CROP_SIZE (R186, spec/07_composition.md) -/
def SLOT_CROP_SIZE_W : Fld := ⟨0x054, 15, 0, .rws, false, false, some 0x0, []⟩
def SLOT_CROP_SIZE_H : Fld := ⟨0x054, 31, 16, .rws, false, false, some 0x0, []⟩
/-! SLOT_POS (R186, spec/07_composition.md) -/
def SLOT_POS_X : Fld := ⟨0x058, 15, 0, .rws, false, false, some 0x0, []⟩
def SLOT_POS_Y : Fld := ⟨0x058, 31, 16, .rws, false, false, some 0x0, []⟩
/-! SLOT_SIZE (R186, spec/07_composition.md) -/
def SLOT_SIZE_W : Fld := ⟨0x05C, 15, 0, .rws, false, false, some 0x0, []⟩
def SLOT_SIZE_H : Fld := ⟨0x05C, 31, 16, .rws, false, false, some 0x0, []⟩
/-! SLOT_ALPHA (R186, spec/07_composition.md) -/
def SLOT_ALPHA_PLANE_ALPHA : Fld := ⟨0x060, 15, 0, .rws, false, false, some 0xFFFF, []⟩
/-! SLOT_COLOR (R186, spec/07_composition.md) -/
def SLOT_COLOR_COLOR : Fld := ⟨0x064, 31, 0, .rws, false, false, some 0x0, []⟩
/-! SLOT_GS_COLOR (R186, spec/07_composition.md) -/
def SLOT_GS_COLOR_COLOR : Fld := ⟨0x068, 31, 0, .rws, false, false, some 0xFF000000, []⟩
/-! SLOT_GS_BUF (R186, spec/07_composition.md) -/
def SLOT_GS_BUF_BUFFER : Fld := ⟨0x06C, 31, 0, .rws, false, false, some 0x0, []⟩
/-! SLOT_GS_SIZE (R186, spec/07_composition.md) -/
def SLOT_GS_SIZE_GS_W : Fld := ⟨0x070, 8, 0, .rws, false, false, some 0x0, []⟩
def SLOT_GS_SIZE_GS_H : Fld := ⟨0x070, 24, 16, .rws, false, false, some 0x0, []⟩
/-! SLOT_STAT (R186, spec/07_composition.md) -/
def SLOT_STAT_LIVE : Fld := ⟨0x074, 0, 0, .ro, false, false, some 0x0, []⟩
def SLOT_STAT_SCALED : Fld := ⟨0x074, 1, 1, .ro, false, false, some 0x0, []⟩
def SLOT_STAT_SCALER : Fld := ⟨0x074, 3, 2, .ro, false, false, some 0x0, []⟩
/-! SLOT_SUBST (R186, spec/07_composition.md) -/
def SLOT_SUBST_SPANS : Fld := ⟨0x078, 31, 0, .ro, false, false, some 0x0, []⟩
/-! SLOT_LUT_ADDR (R186, spec/07_composition.md) -/
def SLOT_LUT_ADDR_INDEX : Fld := ⟨0x0C0, 9, 0, .rw, false, false, some 0x0, []⟩
/-! SLOT_LUT_DATA (R186, spec/07_composition.md) -/
def SLOT_LUT_DATA_ENTRY : Fld := ⟨0x0C4, 15, 0, .rws, false, false, none, []⟩
/-! SLOT_PAL (R186, spec/07_composition.md) -/
def SLOT_PAL_COLOR : Fld := ⟨0x400, 31, 0, .rws, false, false, some 0x0, [(256, 0x4)]⟩
/-! SCN_H0 (R233, spec/09_scanout.md) -/
def SCN_H0_ACTIVE : Fld := ⟨0x040, 12, 0, .rws, false, false, some 0x0, []⟩
def SCN_H0_FP : Fld := ⟨0x040, 28, 16, .rws, false, false, some 0x0, []⟩
/-! SCN_H1 (R233, spec/09_scanout.md) -/
def SCN_H1_SYNC : Fld := ⟨0x044, 12, 0, .rws, false, false, some 0x0, []⟩
def SCN_H1_BP : Fld := ⟨0x044, 28, 16, .rws, false, false, some 0x0, []⟩
/-! SCN_PCLK (R233, spec/09_scanout.md) -/
def SCN_PCLK_KHZ : Fld := ⟨0x050, 20, 0, .rws, false, false, some 0x0, []⟩
/-! SCN_MODE (R233, spec/09_scanout.md) -/
def SCN_MODE_VRR_EN : Fld := ⟨0x054, 0, 0, .rws, false, false, some 0x0, []⟩
def SCN_MODE_HSYNC_POS : Fld := ⟨0x054, 1, 1, .rws, false, false, some 0x0, []⟩
def SCN_MODE_VSYNC_POS : Fld := ⟨0x054, 2, 2, .rws, false, false, some 0x0, []⟩
def SCN_MODE_VTOTAL_MAX : Fld := ⟨0x054, 28, 16, .rws, false, false, some 0x0, []⟩
/-! SCN_GENLOCK (R233, spec/09_scanout.md) -/
def SCN_GENLOCK_SRC : Fld := ⟨0x058, 3, 0, .rw, false, false, some 0x0, []⟩
def SCN_GENLOCK_EN : Fld := ⟨0x058, 4, 4, .rw, false, false, some 0x0, []⟩
def SCN_GENLOCK_OFFSET : Fld := ⟨0x058, 28, 16, .rw, false, false, some 0x0, []⟩
/-! SCN_SEQ (R233, spec/09_scanout.md) -/
def SCN_SEQ_SEQ : Fld := ⟨0x05C, 31, 0, .ro, false, false, some 0x0, []⟩
/-! SCN_SEQ_INIT (R233, spec/09_scanout.md) -/
def SCN_SEQ_INIT_SEQ : Fld := ⟨0x060, 31, 0, .rw, false, false, some 0x0, []⟩
/-! SCN_POS (R233, spec/09_scanout.md) -/
def SCN_POS_LINE : Fld := ⟨0x064, 12, 0, .ro, false, false, some 0x0, []⟩
def SCN_POS_CLOCK : Fld := ⟨0x064, 28, 16, .ro, false, false, some 0x0, []⟩
/-! SCN_LM0 (R233, spec/09_scanout.md) -/
def SCN_LM0_LINE : Fld := ⟨0x068, 12, 0, .rw, false, false, some 0x0, []⟩
def SCN_LM0_EN : Fld := ⟨0x068, 31, 31, .rw, false, false, some 0x0, []⟩
/-! SCN_LM1 (R233, spec/09_scanout.md) -/
def SCN_LM1_LINE : Fld := ⟨0x06C, 12, 0, .rw, false, false, some 0x0, []⟩
def SCN_LM1_EN : Fld := ⟨0x06C, 31, 31, .rw, false, false, some 0x0, []⟩
/-! SCN_CL3_RESERVE (R233, spec/09_scanout.md) -/
def SCN_CL3_RESERVE_GRANULES : Fld := ⟨0x070, 9, 0, .rws, false, true, some 0x0, []⟩
def SCN_CL3_RESERVE_BW : Fld := ⟨0x070, 25, 16, .rws, false, true, some 0x0, []⟩
/-! SCN_FS_GRANT (R233, spec/09_scanout.md) -/
def SCN_FS_GRANT_SHARED : Fld := ⟨0x074, 9, 0, .ro, false, false, some 0x0, []⟩
def SCN_FS_GRANT_CL3_USED : Fld := ⟨0x074, 25, 16, .ro, false, false, some 0x0, []⟩
/-! SCN_FS_FREE (R233, spec/09_scanout.md) -/
def SCN_FS_FREE_FREE : Fld := ⟨0x078, 9, 0, .ro, false, false, some 0x280, []⟩
/-! SCN_SHED_CTRL (R233, spec/09_scanout.md) -/
def SCN_SHED_CTRL_MARGIN_US : Fld := ⟨0x07C, 7, 0, .rws, false, false, some 0xA, []⟩
/-! SCN_SHED_SPANS (R233, spec/09_scanout.md) -/
def SCN_SHED_SPANS_COUNT : Fld := ⟨0x080, 31, 0, .ro, false, false, some 0x0, []⟩
/-! SCN_UNDERRUN_SPANS (R233, spec/09_scanout.md) -/
def SCN_UNDERRUN_SPANS_COUNT : Fld := ⟨0x084, 31, 0, .ro, false, false, some 0x0, []⟩
/-! SCN_DROP_SPANS (R233, spec/09_scanout.md) -/
def SCN_DROP_SPANS_COUNT : Fld := ⟨0x088, 31, 0, .ro, false, false, some 0x0, []⟩
/-! SCN_SHED_STAT (R233, spec/09_scanout.md) -/
def SCN_SHED_STAT_MAX_CLASS : Fld := ⟨0x08C, 1, 0, .ro, false, false, some 0x0, []⟩
def SCN_SHED_STAT_ANY : Fld := ⟨0x08C, 2, 2, .ro, false, false, some 0x0, []⟩
/-! SCN_GENLOCK_STAT (R233, spec/09_scanout.md) -/
def SCN_GENLOCK_STAT_LOCKED : Fld := ⟨0x090, 0, 0, .ro, false, false, some 0x0, []⟩
def SCN_GENLOCK_STAT_ERROR : Fld := ⟨0x090, 31, 16, .ro, false, false, some 0x0, []⟩
/-! SCN_LAST_VTOTAL (R233, spec/09_scanout.md) -/
def SCN_LAST_VTOTAL_LINES : Fld := ⟨0x094, 12, 0, .ro, false, false, some 0x0, []⟩
/-! SCN_CREDIT_MIN (R233, spec/09_scanout.md) -/
def SCN_CREDIT_MIN_CLOCKS : Fld := ⟨0x098, 15, 0, .ro, false, false, some 0x0, []⟩
/-! DPL_CTRL (R248, spec/10_display_links.md) -/
def DPL_CTRL_EDP : Fld := ⟨0x040, 0, 0, .rw, false, false, some 0x0, []⟩
def DPL_CTRL_LANES : Fld := ⟨0x040, 2, 1, .rw, false, false, some 0x2, []⟩
def DPL_CTRL_MAX_RATE : Fld := ⟨0x040, 5, 3, .rw, false, false, some 0x3, []⟩
def DPL_CTRL_DSC_MODE : Fld := ⟨0x040, 7, 6, .rw, false, false, some 0x0, []⟩
def DPL_CTRL_PR_EN : Fld := ⟨0x040, 8, 8, .rw, false, false, some 0x0, []⟩
def DPL_CTRL_PSR2_EN : Fld := ⟨0x040, 9, 9, .rw, false, false, some 0x0, []⟩
def DPL_CTRL_AUTO_TRAIN : Fld := ⟨0x040, 10, 10, .rw, false, false, some 0x1, []⟩
def DPL_CTRL_COLORIMETRY : Fld := ⟨0x040, 12, 11, .rw, false, false, some 0x0, []⟩
def DPL_CTRL_STATIC_FRAMES : Fld := ⟨0x040, 23, 16, .rw, false, false, some 0x0, []⟩
/-! DPL_DSC (R248, spec/10_display_links.md) -/
def DPL_DSC_BPP_X16 : Fld := ⟨0x044, 9, 0, .rw, false, false, some 0xC0, []⟩
def DPL_DSC_SLICES : Fld := ⟨0x044, 12, 10, .rw, false, false, some 0x2, []⟩
def DPL_DSC_SLICE_H : Fld := ⟨0x044, 27, 16, .rw, false, false, some 0x6C, []⟩
/-! DPL_LINK (R248, spec/10_display_links.md) -/
def DPL_LINK_RATE : Fld := ⟨0x048, 2, 0, .ro, false, false, some 0x0, []⟩
def DPL_LINK_LANES : Fld := ⟨0x048, 4, 3, .ro, false, false, some 0x0, []⟩
def DPL_LINK_FEC : Fld := ⟨0x048, 5, 5, .ro, false, false, some 0x0, []⟩
def DPL_LINK_TRAINED : Fld := ⟨0x048, 6, 6, .ro, false, false, some 0x0, []⟩
def DPL_LINK_DSC : Fld := ⟨0x048, 7, 7, .ro, false, false, some 0x0, []⟩
/-! DPL_SINK (R248, spec/10_display_links.md) -/
def DPL_SINK_MAX_RATE : Fld := ⟨0x04C, 2, 0, .ro, false, false, some 0x0, []⟩
def DPL_SINK_MAX_LANES : Fld := ⟨0x04C, 4, 3, .ro, false, false, some 0x0, []⟩
def DPL_SINK_DSC : Fld := ⟨0x04C, 5, 5, .ro, false, false, some 0x0, []⟩
def DPL_SINK_PR : Fld := ⟨0x04C, 6, 6, .ro, false, false, some 0x0, []⟩
def DPL_SINK_PSR2 : Fld := ⟨0x04C, 7, 7, .ro, false, false, some 0x0, []⟩
def DPL_SINK_VRR : Fld := ⟨0x04C, 8, 8, .ro, false, false, some 0x0, []⟩
def DPL_SINK_MAX_SLICE_W : Fld := ⟨0x04C, 21, 9, .ro, false, false, some 0x0, []⟩
/-! DPL_TRAIN_FAILS (R248, spec/10_display_links.md) -/
def DPL_TRAIN_FAILS_COUNT : Fld := ⟨0x050, 31, 0, .ro, false, false, some 0x0, []⟩
/-! DPL_LOCK_LOSS (R248, spec/10_display_links.md) -/
def DPL_LOCK_LOSS_COUNT : Fld := ⟨0x054, 31, 0, .ro, false, false, some 0x0, []⟩
/-! DPL_AUX_ADDR (R248, spec/10_display_links.md) -/
def DPL_AUX_ADDR_ADDR : Fld := ⟨0x060, 19, 0, .rw, false, false, some 0x0, []⟩
def DPL_AUX_ADDR_REQ : Fld := ⟨0x060, 27, 24, .rw, false, false, some 0x0, []⟩
/-! DPL_AUX_CTRL (R248, spec/10_display_links.md) -/
def DPL_AUX_CTRL_LEN : Fld := ⟨0x064, 4, 0, .rw, false, false, some 0x0, []⟩
def DPL_AUX_CTRL_GO : Fld := ⟨0x064, 31, 31, .wo, false, false, some 0x0, []⟩
/-! DPL_AUX_STAT (R248, spec/10_display_links.md) -/
def DPL_AUX_STAT_STATE : Fld := ⟨0x068, 1, 0, .ro, false, false, some 0x0, []⟩
def DPL_AUX_STAT_REPLY : Fld := ⟨0x068, 7, 4, .ro, false, false, some 0x0, []⟩
def DPL_AUX_STAT_BYTES : Fld := ⟨0x068, 12, 8, .ro, false, false, some 0x0, []⟩
def DPL_AUX_STAT_DEFERS : Fld := ⟨0x068, 19, 16, .ro, false, false, some 0x0, []⟩
def DPL_AUX_STAT_TIMEOUTS : Fld := ⟨0x068, 21, 20, .ro, false, false, some 0x0, []⟩
/-! DPL_AUX_DATA (R248, spec/10_display_links.md) -/
def DPL_AUX_DATA_DATA : Fld := ⟨0x070, 31, 0, .rw, false, false, some 0x0, [(4, 0x4)]⟩
/-! DPL_PPS_ADDR (R248, spec/10_display_links.md) -/
def DPL_PPS_ADDR_WORD : Fld := ⟨0x080, 4, 0, .rw, false, false, some 0x0, []⟩
/-! DPL_PPS_DATA (R248, spec/10_display_links.md) -/
def DPL_PPS_DATA_DATA : Fld := ⟨0x084, 31, 0, .ro, false, false, some 0x0, []⟩
/-! CVU_CTRL (R262, spec/11_check_values.md) -/
def CVU_CTRL_RATE : Fld := ⟨0x040, 4, 0, .rw, true, false, some 0x5, []⟩
/-! CVU_BYTES_LO (R262, spec/11_check_values.md) -/
def CVU_BYTES_LO_COUNT_LO : Fld := ⟨0x044, 31, 0, .ro, false, false, some 0x0, []⟩
/-! CVU_BYTES_HI (R262, spec/11_check_values.md) -/
def CVU_BYTES_HI_COUNT_HI : Fld := ⟨0x048, 15, 0, .ro, false, false, some 0x0, []⟩
/-! CVU_CMDS (R262, spec/11_check_values.md) -/
def CVU_CMDS_COUNT : Fld := ⟨0x04C, 31, 0, .ro, false, false, some 0x0, []⟩
/-! CVU_SLOT_SEL (R262, spec/11_check_values.md) -/
def CVU_SLOT_SEL_SLOT : Fld := ⟨0x050, 2, 0, .rw, false, false, some 0x0, []⟩
/-! CVU_SLOT_INFO (R262, spec/11_check_values.md) -/
def CVU_SLOT_INFO_STATE : Fld := ⟨0x054, 1, 0, .ro, false, false, some 0x0, []⟩
def CVU_SLOT_INFO_POLY : Fld := ⟨0x054, 3, 2, .ro, false, false, some 0x0, []⟩
def CVU_SLOT_INFO_FUNCTION : Fld := ⟨0x054, 15, 8, .ro, false, false, some 0x0, []⟩
def CVU_SLOT_INFO_ADDR_MODE : Fld := ⟨0x054, 16, 16, .ro, false, false, some 0x0, []⟩
/-! CVU_SLOT_SRC (R262, spec/11_check_values.md) -/
def CVU_SLOT_SRC_SOURCE : Fld := ⟨0x058, 31, 0, .ro, false, false, some 0x0, []⟩
/-! CVU_SLOT_DONE (R262, spec/11_check_values.md) -/
def CVU_SLOT_DONE_BYTES : Fld := ⟨0x05C, 31, 0, .ro, false, false, some 0x0, []⟩
/-! CHK_SUMMARY (R262, spec/11_check_values.md) -/
def CHK_SUMMARY_MISMATCH : Fld := ⟨0x040, 15, 0, .ro, false, false, some 0x0, []⟩
def CHK_SUMMARY_ACTIVE : Fld := ⟨0x040, 31, 16, .ro, false, false, some 0x0, []⟩
/-! CHK_SEQ (R262, spec/11_check_values.md) -/
def CHK_SEQ_SEQ : Fld := ⟨0x044, 31, 0, .ro, false, false, some 0x0, []⟩
/-! CHK_CTRL (R262, spec/11_check_values.md) -/
def CHK_CTRL_EN : Fld := ⟨0x104, 0, 0, .rws, false, false, some 0x0, [(16, 0xC0)]⟩
def CHK_CTRL_COMPARE : Fld := ⟨0x104, 1, 1, .rws, false, false, some 0x0, [(16, 0xC0)]⟩
def CHK_CTRL_ACTION : Fld := ⟨0x104, 3, 2, .rws, false, false, some 0x0, [(16, 0xC0)]⟩
def CHK_CTRL_LIMIT : Fld := ⟨0x104, 15, 8, .rws, false, false, some 0x1, [(16, 0xC0)]⟩
/-! CHK_POS (R262, spec/11_check_values.md) -/
def CHK_POS_X : Fld := ⟨0x108, 12, 0, .rws, false, false, some 0x0, [(16, 0xC0)]⟩
def CHK_POS_Y : Fld := ⟨0x108, 28, 16, .rws, false, false, some 0x0, [(16, 0xC0)]⟩
/-! CHK_SIZE (R262, spec/11_check_values.md) -/
def CHK_SIZE_W : Fld := ⟨0x10C, 13, 0, .rws, false, false, some 0x0, [(16, 0xC0)]⟩
def CHK_SIZE_H : Fld := ⟨0x10C, 29, 16, .rws, false, false, some 0x0, [(16, 0xC0)]⟩
/-! CHK_EXPECT (R262, spec/11_check_values.md) -/
def CHK_EXPECT_E0 : Fld := ⟨0x110, 31, 0, .rws, false, false, some 0x0, [(16, 0xC0)]⟩
/-! CHK_LAST (R262, spec/11_check_values.md) -/
def CHK_LAST_V : Fld := ⟨0x114, 31, 0, .ro, false, false, some 0x0, [(16, 0xC0)]⟩
/-! CHK_LAST_SEQ (R262, spec/11_check_values.md) -/
def CHK_LAST_SEQ_SEQ : Fld := ⟨0x118, 31, 0, .ro, false, false, some 0x0, [(16, 0xC0)]⟩
/-! CHK_STAT (R262, spec/11_check_values.md) -/
def CHK_STAT_RESULT : Fld := ⟨0x11C, 1, 0, .ro, false, false, some 0x0, [(16, 0xC0)]⟩
def CHK_STAT_RUN : Fld := ⟨0x11C, 15, 8, .ro, false, false, some 0x0, [(16, 0xC0)]⟩
/-! CHK_MATCHES (R262, spec/11_check_values.md) -/
def CHK_MATCHES_COUNT : Fld := ⟨0x120, 31, 0, .ro, false, false, some 0x0, [(16, 0xC0)]⟩
/-! CHK_MISMATCHES (R262, spec/11_check_values.md) -/
def CHK_MISMATCHES_COUNT : Fld := ⟨0x124, 31, 0, .ro, false, false, some 0x0, [(16, 0xC0)]⟩
/-! CHK_FIRST_BAD (R262, spec/11_check_values.md) -/
def CHK_FIRST_BAD_SEQ : Fld := ⟨0x128, 31, 0, .ro, false, false, some 0x0, [(16, 0xC0)]⟩
/-! CHK_EVT_RAW (R262, spec/11_check_values.md) -/
def CHK_EVT_RAW_MISMATCH : Fld := ⟨0x12C, 0, 0, .w1c, false, false, some 0x0, [(16, 0xC0)]⟩
def CHK_EVT_RAW_ACTED : Fld := ⟨0x12C, 1, 1, .w1c, false, false, some 0x0, [(16, 0xC0)]⟩
/-! CHK_EVT_EN (R262, spec/11_check_values.md) -/
def CHK_EVT_EN_EN : Fld := ⟨0x130, 1, 0, .rw, false, false, some 0x0, [(16, 0xC0)]⟩
/-! CHK_ROUTE (R262, spec/11_check_values.md) -/
def CHK_ROUTE_VECTOR : Fld := ⟨0x134, 5, 0, .rw, false, false, some 0x0, [(16, 0xC0)]⟩
def CHK_ROUTE_FUNCTION : Fld := ⟨0x134, 23, 16, .rw, false, false, some 0x40, [(16, 0xC0)]⟩
def CHK_ROUTE_EN : Fld := ⟨0x134, 31, 31, .rw, false, false, some 0x0, [(16, 0xC0)]⟩
/-! DMC_CFG (R285, spec/12_dram.md) -/
def DMC_CFG_DENSITY : Fld := ⟨0x040, 1, 0, .rw, false, true, none, []⟩
def DMC_CFG_RANKS : Fld := ⟨0x040, 2, 2, .rw, false, true, none, []⟩
def DMC_CFG_RATE : Fld := ⟨0x040, 6, 4, .rw, false, true, none, []⟩
/-! DMC_STAT (R285, spec/12_dram.md) -/
def DMC_STAT_INIT : Fld := ⟨0x044, 0, 0, .ro, false, false, some 0x0, []⟩
def DMC_STAT_RQ_LEVEL : Fld := ⟨0x044, 15, 8, .ro, false, false, some 0x0, []⟩
def DMC_STAT_WQ_LEVEL : Fld := ⟨0x044, 22, 16, .ro, false, false, some 0x0, []⟩
def DMC_STAT_DRAIN : Fld := ⟨0x044, 23, 23, .ro, false, false, some 0x0, []⟩
/-! DMC_PORT_SEL (R285, spec/12_dram.md) -/
def DMC_PORT_SEL_PORT : Fld := ⟨0x048, 3, 0, .rw, false, false, some 0x0, []⟩
/-! DMC_PORT_TARGET (R285, spec/12_dram.md) -/
def DMC_PORT_TARGET_TARGET : Fld := ⟨0x04C, 11, 0, .rw, false, false, none, []⟩
def DMC_PORT_TARGET_ALL : Fld := ⟨0x04C, 16, 16, .wo, false, false, some 0x0, []⟩
/-! DMC_PORT_LATE (R285, spec/12_dram.md) -/
def DMC_PORT_LATE_COUNT : Fld := ⟨0x050, 31, 0, .ro, false, false, some 0x0, []⟩
/-! DMC_PORT_MAXLAT (R285, spec/12_dram.md) -/
def DMC_PORT_MAXLAT_LAT : Fld := ⟨0x054, 15, 0, .ro, false, false, some 0x0, []⟩
def DMC_PORT_MAXLAT_CLEAR : Fld := ⟨0x054, 31, 31, .wo, false, false, some 0x0, []⟩
/-! DMC_WDRAIN (R285, spec/12_dram.md) -/
def DMC_WDRAIN_HIGH : Fld := ⟨0x058, 6, 0, .rw, false, false, some 0x30, []⟩
def DMC_WDRAIN_LOW : Fld := ⟨0x058, 14, 8, .rw, false, false, some 0x10, []⟩
/-! DMC_REF_CTRL (R285, spec/12_dram.md) -/
def DMC_REF_CTRL_POSTPONE_MAX : Fld := ⟨0x05C, 3, 0, .rw, false, false, some 0x8, []⟩
def DMC_REF_CTRL_MR4_POLL : Fld := ⟨0x05C, 11, 4, .rw, false, false, some 0x10, []⟩
/-! DMC_REF_STAT (R285, spec/12_dram.md) -/
def DMC_REF_STAT_DEBT : Fld := ⟨0x060, 5, 0, .ro, false, false, some 0x0, []⟩
def DMC_REF_STAT_DEBT_MAX : Fld := ⟨0x060, 13, 8, .ro, false, false, some 0x0, []⟩
def DMC_REF_STAT_CLEAR : Fld := ⟨0x060, 31, 31, .wo, false, false, some 0x0, []⟩
/-! DMC_REF_COUNT (R285, spec/12_dram.md) -/
def DMC_REF_COUNT_COUNT : Fld := ⟨0x064, 31, 0, .ro, false, false, some 0x0, []⟩
/-! DMC_REF_FORCED (R285, spec/12_dram.md) -/
def DMC_REF_FORCED_COUNT : Fld := ⟨0x068, 31, 0, .ro, false, false, some 0x0, []⟩
/-! DMC_TRAIN_CTRL (R285, spec/12_dram.md) -/
def DMC_TRAIN_CTRL_INTERVAL : Fld := ⟨0x06C, 9, 0, .rw, false, false, some 0xA, []⟩
def DMC_TRAIN_CTRL_TEMP_STEP : Fld := ⟨0x06C, 23, 16, .rw, false, false, some 0xA, []⟩
def DMC_TRAIN_CTRL_START : Fld := ⟨0x06C, 31, 31, .wo, false, false, some 0x0, []⟩
/-! DMC_TRAIN_STAT (R285, spec/12_dram.md) -/
def DMC_TRAIN_STAT_COUNT : Fld := ⟨0x070, 15, 0, .ro, false, false, some 0x0, []⟩
def DMC_TRAIN_STAT_NO_WINDOW : Fld := ⟨0x070, 23, 16, .ro, false, false, some 0x0, []⟩
def DMC_TRAIN_STAT_DEGRADED : Fld := ⟨0x070, 24, 24, .ro, false, false, some 0x0, []⟩
/-! DMC_TRAIN_LAST (R285, spec/12_dram.md) -/
def DMC_TRAIN_LAST_PAUSE_NS : Fld := ⟨0x074, 15, 0, .ro, false, false, some 0x0, []⟩
def DMC_TRAIN_LAST_READ_EYE : Fld := ⟨0x074, 23, 16, .ro, false, false, some 0x0, []⟩
def DMC_TRAIN_LAST_WRITE_EYE : Fld := ⟨0x074, 31, 24, .ro, false, false, some 0x0, []⟩
/-! DMC_PASR (R285, spec/12_dram.md) -/
def DMC_PASR_KEEP : Fld := ⟨0x078, 7, 0, .rw, false, false, some 0x0, []⟩
def DMC_PASR_KEPT : Fld := ⟨0x078, 15, 8, .ro, false, false, some 0x0, []⟩
/-! DMC_RD_BURSTS (R285, spec/12_dram.md) -/
def DMC_RD_BURSTS_COUNT : Fld := ⟨0x07C, 31, 0, .ro, false, false, some 0x0, []⟩
/-! DMC_WR_BURSTS (R285, spec/12_dram.md) -/
def DMC_WR_BURSTS_COUNT : Fld := ⟨0x080, 31, 0, .ro, false, false, some 0x0, []⟩
/-! EDAC_CTRL (R303, spec/13_stored_data_protection.md) -/
def EDAC_CTRL_POISON_EN : Fld := ⟨0x040, 0, 0, .rw, false, true, some 0x1, []⟩
def EDAC_CTRL_REGIONS_SET : Fld := ⟨0x040, 1, 1, .w1s, false, true, some 0x0, []⟩
/-! EDAC_CE_COUNT (R303, spec/13_stored_data_protection.md) -/
def EDAC_CE_COUNT_COUNT : Fld := ⟨0x044, 31, 0, .ro, false, false, some 0x0, []⟩
/-! EDAC_UE_COUNT (R303, spec/13_stored_data_protection.md) -/
def EDAC_UE_COUNT_COUNT : Fld := ⟨0x048, 31, 0, .ro, false, false, some 0x0, []⟩
/-! EDAC_POISON_READS (R303, spec/13_stored_data_protection.md) -/
def EDAC_POISON_READS_COUNT : Fld := ⟨0x04C, 31, 0, .ro, false, false, some 0x0, []⟩
/-! EDAC_CE_THRESH (R303, spec/13_stored_data_protection.md) -/
def EDAC_CE_THRESH_THRESH : Fld := ⟨0x050, 15, 0, .rw, false, false, some 0x0, []⟩
def EDAC_CE_THRESH_WINDOW : Fld := ⟨0x050, 31, 16, .ro, false, false, some 0x0, []⟩
/-! EDAC_SRAM (R303, spec/13_stored_data_protection.md) -/
def EDAC_SRAM_CE : Fld := ⟨0x054, 15, 0, .ro, false, false, some 0x0, []⟩
def EDAC_SRAM_UE : Fld := ⟨0x054, 31, 16, .ro, false, false, some 0x0, []⟩
/-! EDAC_LOG_STAT (R303, spec/13_stored_data_protection.md) -/
def EDAC_LOG_STAT_COUNT : Fld := ⟨0x058, 6, 0, .ro, false, false, some 0x0, []⟩
def EDAC_LOG_STAT_LOST : Fld := ⟨0x058, 31, 16, .ro, false, false, some 0x0, []⟩
/-! EDAC_LOG_CTRL (R303, spec/13_stored_data_protection.md) -/
def EDAC_LOG_CTRL_RELEASE : Fld := ⟨0x05C, 0, 0, .wo, false, false, some 0x0, []⟩
def EDAC_LOG_CTRL_CLEAR_ALL : Fld := ⟨0x05C, 1, 1, .wo, false, false, some 0x0, []⟩
/-! EDAC_LOG_SEL (R303, spec/13_stored_data_protection.md) -/
def EDAC_LOG_SEL_INDEX : Fld := ⟨0x060, 5, 0, .rw, false, false, some 0x0, []⟩
/-! EDAC_LOG_W0 (R303, spec/13_stored_data_protection.md) -/
def EDAC_LOG_W0_ADDR_LO : Fld := ⟨0x064, 31, 0, .ro, false, false, some 0x0, []⟩
/-! EDAC_LOG_W1 (R303, spec/13_stored_data_protection.md) -/
def EDAC_LOG_W1_ADDR_HI : Fld := ⟨0x068, 3, 0, .ro, false, false, some 0x0, []⟩
def EDAC_LOG_W1_CH : Fld := ⟨0x068, 7, 4, .ro, false, false, some 0x0, []⟩
def EDAC_LOG_W1_RANK : Fld := ⟨0x068, 8, 8, .ro, false, false, some 0x0, []⟩
def EDAC_LOG_W1_BANK : Fld := ⟨0x068, 12, 9, .ro, false, false, some 0x0, []⟩
def EDAC_LOG_W1_KIND : Fld := ⟨0x068, 15, 13, .ro, false, false, some 0x0, []⟩
def EDAC_LOG_W1_PORT : Fld := ⟨0x068, 19, 16, .ro, false, false, some 0x0, []⟩
def EDAC_LOG_W1_FUNCTION : Fld := ⟨0x068, 27, 20, .ro, false, false, some 0x0, []⟩
def EDAC_LOG_W1_WORLD : Fld := ⟨0x068, 28, 28, .ro, false, false, some 0x0, []⟩
def EDAC_LOG_W1_STRONG : Fld := ⟨0x068, 29, 29, .ro, false, false, some 0x0, []⟩
def EDAC_LOG_W1_LATENT : Fld := ⟨0x068, 30, 30, .ro, false, false, some 0x0, []⟩
/-! EDAC_LOG_W2 (R303, spec/13_stored_data_protection.md) -/
def EDAC_LOG_W2_ROW : Fld := ⟨0x06C, 16, 0, .ro, false, false, some 0x0, []⟩
def EDAC_LOG_W2_POSITION : Fld := ⟨0x06C, 24, 17, .ro, false, false, some 0x0, []⟩
def EDAC_LOG_W2_REPEAT : Fld := ⟨0x06C, 31, 25, .ro, false, false, some 0x0, []⟩
/-! EDAC_LOG_W3 (R303, spec/13_stored_data_protection.md) -/
def EDAC_LOG_W3_TIME : Fld := ⟨0x070, 31, 0, .ro, false, false, some 0x0, []⟩
/-! EDAC_RETIRE_PLOT (R303, spec/13_stored_data_protection.md) -/
def EDAC_RETIRE_PLOT_PLOT : Fld := ⟨0x074, 19, 0, .wo, false, false, some 0x0, []⟩
def EDAC_RETIRE_PLOT_PERSIST : Fld := ⟨0x074, 31, 31, .wo, false, false, some 0x0, []⟩
/-! EDAC_RETIRE_BANK (R303, spec/13_stored_data_protection.md) -/
def EDAC_RETIRE_BANK_CH : Fld := ⟨0x078, 3, 0, .wo, false, false, some 0x0, []⟩
def EDAC_RETIRE_BANK_RANK : Fld := ⟨0x078, 4, 4, .wo, false, false, some 0x0, []⟩
def EDAC_RETIRE_BANK_BANK : Fld := ⟨0x078, 8, 5, .wo, false, false, some 0x0, []⟩
def EDAC_RETIRE_BANK_PERSIST : Fld := ⟨0x078, 31, 31, .wo, false, false, some 0x0, []⟩
/-! EDAC_RETIRE_STAT (R303, spec/13_stored_data_protection.md) -/
def EDAC_RETIRE_STAT_BANKS : Fld := ⟨0x07C, 4, 0, .ro, false, false, some 0x0, []⟩
/-! EDAC_REG_BASE (R303, spec/13_stored_data_protection.md) -/
def EDAC_REG_BASE_BASE : Fld := ⟨0x100, 14, 0, .rw, false, true, none, [(16, 0x10)]⟩
/-! EDAC_REG_SIZE (R303, spec/13_stored_data_protection.md) -/
def EDAC_REG_SIZE_SIZE : Fld := ⟨0x104, 15, 0, .rw, false, true, none, [(16, 0x10)]⟩
/-! EDAC_REG_CHECK (R303, spec/13_stored_data_protection.md) -/
def EDAC_REG_CHECK_CHECK_BASE : Fld := ⟨0x108, 19, 0, .rw, false, true, none, [(16, 0x10)]⟩
/-! EDAC_REG_CTRL (R303, spec/13_stored_data_protection.md) -/
def EDAC_REG_CTRL_CODE : Fld := ⟨0x10C, 0, 0, .rw, false, true, none, [(16, 0x10)]⟩
/-! TCH_CTRL (R324, spec/14_touch.md) -/
def TCH_CTRL_RATE_HZ : Fld := ⟨0x040, 8, 0, .rw, true, false, some 0x78, []⟩
def TCH_CTRL_AUTO_HOP : Fld := ⟨0x040, 9, 9, .rw, false, false, some 0x1, []⟩
def TCH_CTRL_CHARGER_EN : Fld := ⟨0x040, 10, 10, .rw, false, false, some 0x1, []⟩
/-! TCH_FREQ (R324, spec/14_touch.md) -/
def TCH_FREQ_F0 : Fld := ⟨0x044, 7, 0, .rw, true, false, some 0xC8, []⟩
def TCH_FREQ_F1 : Fld := ⟨0x044, 15, 8, .rw, true, false, some 0xB4, []⟩
def TCH_FREQ_F2 : Fld := ⟨0x044, 23, 16, .rw, true, false, some 0xA0, []⟩
def TCH_FREQ_F3 : Fld := ⟨0x044, 31, 24, .rw, true, false, some 0x8C, []⟩
/-! TCH_NOISE (R324, spec/14_touch.md) -/
def TCH_NOISE_HOP_THRESH : Fld := ⟨0x048, 15, 0, .rw, false, false, some 0x400, []⟩
def TCH_NOISE_CHARGER_THRESH : Fld := ⟨0x048, 31, 16, .rw, false, false, some 0x1000, []⟩
/-! TCH_STAT (R324, spec/14_touch.md) -/
def TCH_STAT_RATE_ACT : Fld := ⟨0x04C, 8, 0, .ro, false, false, some 0x0, []⟩
def TCH_STAT_FREQ : Fld := ⟨0x04C, 10, 9, .ro, false, false, some 0x0, []⟩
def TCH_STAT_CHARGER : Fld := ⟨0x04C, 11, 11, .ro, false, false, some 0x0, []⟩
def TCH_STAT_NOISE : Fld := ⟨0x04C, 31, 16, .ro, false, false, some 0x0, []⟩
/-! TCH_FRAME_TIME (R324, spec/14_touch.md) -/
def TCH_FRAME_TIME_US : Fld := ⟨0x050, 15, 0, .ro, false, false, some 0x0, []⟩
/-! TCH_FRAMES (R324, spec/14_touch.md) -/
def TCH_FRAMES_COUNT : Fld := ⟨0x054, 31, 0, .ro, false, false, some 0x0, []⟩
/-! TCH_NODE_ADDR (R324, spec/14_touch.md) -/
def TCH_NODE_ADDR_DRIVE : Fld := ⟨0x058, 7, 0, .rw, false, false, some 0x0, []⟩
def TCH_NODE_ADDR_SENSE : Fld := ⟨0x058, 14, 8, .rw, false, false, some 0x0, []⟩
def TCH_NODE_ADDR_PANEL : Fld := ⟨0x058, 16, 15, .rw, false, false, some 0x0, []⟩
def TCH_NODE_ADDR_FIELD : Fld := ⟨0x058, 19, 17, .rw, false, false, some 0x0, []⟩
/-! TCH_NODE_DATA (R324, spec/14_touch.md) -/
def TCH_NODE_DATA_DATA : Fld := ⟨0x05C, 31, 0, .rw, false, false, some 0x0, []⟩
/-! TCH_P_CFG (R324, spec/14_touch.md) -/
def TCH_P_CFG_EN : Fld := ⟨0x100, 0, 0, .rw, false, false, some 0x0, [(4, 0x40)]⟩
def TCH_P_CFG_MODE : Fld := ⟨0x100, 2, 1, .rw, true, false, some 0x0, [(4, 0x40)]⟩
def TCH_P_CFG_SWAP_XY : Fld := ⟨0x100, 3, 3, .rw, true, false, some 0x0, [(4, 0x40)]⟩
def TCH_P_CFG_FLIP_X : Fld := ⟨0x100, 4, 4, .rw, true, false, some 0x0, [(4, 0x40)]⟩
def TCH_P_CFG_FLIP_Y : Fld := ⟨0x100, 5, 5, .rw, true, false, some 0x0, [(4, 0x40)]⟩
def TCH_P_CFG_REF_EN : Fld := ⟨0x100, 6, 6, .rw, false, false, some 0x0, [(4, 0x40)]⟩
def TCH_P_CFG_CAPTURE_REF : Fld := ⟨0x100, 7, 7, .wo, false, false, some 0x0, [(4, 0x40)]⟩
/-! TCH_P_LINES (R324, spec/14_touch.md) -/
def TCH_P_LINES_DRV_FIRST : Fld := ⟨0x104, 7, 0, .rw, true, false, some 0x0, [(4, 0x40)]⟩
def TCH_P_LINES_DRV_COUNT : Fld := ⟨0x104, 15, 8, .rw, true, false, some 0x0, [(4, 0x40)]⟩
def TCH_P_LINES_SNS_FIRST : Fld := ⟨0x104, 22, 16, .rw, true, false, some 0x0, [(4, 0x40)]⟩
def TCH_P_LINES_SNS_COUNT : Fld := ⟨0x104, 30, 24, .rw, true, false, some 0x0, [(4, 0x40)]⟩
/-! TCH_P_SCAN (R324, spec/14_touch.md) -/
def TCH_P_SCAN_CYCLES : Fld := ⟨0x108, 7, 0, .rw, true, false, some 0x8, [(4, 0x40)]⟩
/-! TCH_P_RES (R324, spec/14_touch.md) -/
def TCH_P_RES_X_RES : Fld := ⟨0x10C, 15, 0, .rw, true, false, some 0x0, [(4, 0x40)]⟩
def TCH_P_RES_Y_RES : Fld := ⟨0x10C, 31, 16, .rw, true, false, some 0x0, [(4, 0x40)]⟩
/-! TCH_P_THRESH (R324, spec/14_touch.md) -/
def TCH_P_THRESH_TOUCH_THRESH : Fld := ⟨0x110, 15, 0, .rw, false, false, some 0x258, [(4, 0x40)]⟩
def TCH_P_THRESH_LIFT_THRESH : Fld := ⟨0x110, 31, 16, .rw, false, false, some 0x12C, [(4, 0x40)]⟩
/-! TCH_P_BASE0 (R324, spec/14_touch.md) -/
def TCH_P_BASE0_NEG_THRESH : Fld := ⟨0x114, 15, 0, .rw, false, false, some 0x12C, [(4, 0x40)]⟩
def TCH_P_BASE0_NOISE_THRESH : Fld := ⟨0x114, 23, 16, .rw, false, false, some 0x64, [(4, 0x40)]⟩
def TCH_P_BASE0_DRIFT_FRAMES : Fld := ⟨0x114, 31, 24, .rw, false, false, some 0x3C, [(4, 0x40)]⟩
/-! TCH_P_BASE1 (R324, spec/14_touch.md) -/
def TCH_P_BASE1_NEG_FRAMES : Fld := ⟨0x118, 3, 0, .rw, false, false, some 0x4, [(4, 0x40)]⟩
def TCH_P_BASE1_DEBOUNCE : Fld := ⟨0x118, 7, 4, .rw, false, false, some 0x1, [(4, 0x40)]⟩
def TCH_P_BASE1_HOLD_LIMIT : Fld := ⟨0x118, 31, 16, .rw, false, false, some 0x0, [(4, 0x40)]⟩
/-! TCH_P_TRACK (R324, spec/14_touch.md) -/
def TCH_P_TRACK_MAX_TOUCHES : Fld := ⟨0x11C, 4, 0, .rw, false, false, some 0x14, [(4, 0x40)]⟩
def TCH_P_TRACK_MAX_MOVE : Fld := ⟨0x11C, 15, 8, .rw, false, false, some 0x4, [(4, 0x40)]⟩
def TCH_P_TRACK_LARGE_NODES : Fld := ⟨0x11C, 23, 16, .rw, false, false, some 0x10, [(4, 0x40)]⟩
/-! TCH_P_BUF (R324, spec/14_touch.md) -/
def TCH_P_BUF_BUFFER : Fld := ⟨0x120, 31, 0, .rw, false, false, some 0x0, [(4, 0x40)]⟩
/-! TCH_P_HOST_LO (R324, spec/14_touch.md) -/
def TCH_P_HOST_LO_BASE_LO : Fld := ⟨0x124, 31, 8, .rw, false, false, some 0x0, [(4, 0x40)]⟩
/-! TCH_P_HOST_HI (R324, spec/14_touch.md) -/
def TCH_P_HOST_HI_BASE_HI : Fld := ⟨0x128, 31, 0, .rw, false, false, some 0x0, [(4, 0x40)]⟩
/-! TCH_P_HOST_SLOTS (R324, spec/14_touch.md) -/
def TCH_P_HOST_SLOTS_SLOTS : Fld := ⟨0x12C, 11, 0, .rw, false, false, some 0x0, [(4, 0x40)]⟩
/-! TCH_P_ROUTE (R324, spec/14_touch.md) -/
def TCH_P_ROUTE_VECTOR : Fld := ⟨0x130, 5, 0, .rw, false, false, some 0x0, [(4, 0x40)]⟩
def TCH_P_ROUTE_FUNCTION : Fld := ⟨0x130, 23, 16, .ro, false, false, some 0x0, [(4, 0x40)]⟩
def TCH_P_ROUTE_EN : Fld := ⟨0x130, 31, 31, .rw, false, false, some 0x0, [(4, 0x40)]⟩
/-! TCH_P_STAT (R324, spec/14_touch.md) -/
def TCH_P_STAT_STATE : Fld := ⟨0x134, 2, 0, .ro, false, false, some 0x0, [(4, 0x40)]⟩
def TCH_P_STAT_CONTACTS : Fld := ⟨0x134, 7, 3, .ro, false, false, some 0x0, [(4, 0x40)]⟩
def TCH_P_STAT_UNBOUND : Fld := ⟨0x134, 8, 8, .ro, false, false, some 0x0, [(4, 0x40)]⟩
def TCH_P_STAT_NO_REF : Fld := ⟨0x134, 9, 9, .ro, false, false, some 0x0, [(4, 0x40)]⟩
def TCH_P_STAT_BAD : Fld := ⟨0x134, 31, 16, .ro, false, false, some 0x0, [(4, 0x40)]⟩
/-! TCH_P_SEQ (R324, spec/14_touch.md) -/
def TCH_P_SEQ_SEQ : Fld := ⟨0x138, 31, 0, .ro, false, false, some 0x0, [(4, 0x40)]⟩
/-! TCH_P_HOST_SKIP (R324, spec/14_touch.md) -/
def TCH_P_HOST_SKIP_COUNT : Fld := ⟨0x13C, 31, 0, .ro, false, false, some 0x0, [(4, 0x40)]⟩
/-! HAP_CTRL (R340, spec/15_haptics.md) -/
def HAP_CTRL_PWM_KHZ : Fld := ⟨0x040, 6, 0, .rw, true, false, some 0x19, []⟩
def HAP_CTRL_DEAD_NS : Fld := ⟨0x040, 15, 8, .rw, true, false, some 0x5, []⟩
/-! HAP_RULE_STAT (R340, spec/15_haptics.md) -/
def HAP_RULE_STAT_USED : Fld := ⟨0x044, 6, 0, .ro, false, false, some 0x0, []⟩
def HAP_RULE_STAT_CLIP_FREE : Fld := ⟨0x044, 25, 16, .ro, false, false, some 0x200, []⟩
/-! HAP_RULE_SEL (R340, spec/15_haptics.md) -/
def HAP_RULE_SEL_INDEX : Fld := ⟨0x048, 5, 0, .rw, false, false, some 0x0, []⟩
/-! HAP_RULE_INFO (R340, spec/15_haptics.md) -/
def HAP_RULE_INFO_VALID : Fld := ⟨0x04C, 0, 0, .ro, false, false, some 0x0, []⟩
def HAP_RULE_INFO_PANEL : Fld := ⟨0x04C, 3, 1, .ro, false, false, some 0x0, []⟩
def HAP_RULE_INFO_CHANNEL : Fld := ⟨0x04C, 6, 4, .ro, false, false, some 0x0, []⟩
def HAP_RULE_INFO_EVENTS : Fld := ⟨0x04C, 9, 7, .ro, false, false, some 0x0, []⟩
def HAP_RULE_INFO_PRIORITY : Fld := ⟨0x04C, 11, 10, .ro, false, false, some 0x0, []⟩
def HAP_RULE_INFO_FUNCTION : Fld := ⟨0x04C, 23, 16, .ro, false, false, some 0x0, []⟩
/-! HAP_RULE_FIRES (R340, spec/15_haptics.md) -/
def HAP_RULE_FIRES_COUNT : Fld := ⟨0x050, 31, 0, .ro, false, false, some 0x0, []⟩
/-! HAP_H_CTRL (R340, spec/15_haptics.md) -/
def HAP_H_CTRL_EN : Fld := ⟨0x100, 0, 0, .rw, false, false, some 0x0, [(8, 0x40)]⟩
def HAP_H_CTRL_CAL_START : Fld := ⟨0x100, 1, 1, .wo, false, false, some 0x0, [(8, 0x40)]⟩
def HAP_H_CTRL_FUNCTION : Fld := ⟨0x100, 15, 8, .rw, true, false, some 0x0, [(8, 0x40)]⟩
/-! HAP_H_GAIN0 (R340, spec/15_haptics.md) -/
def HAP_H_GAIN0_KP : Fld := ⟨0x104, 15, 0, .rw, false, false, some 0x800, [(8, 0x40)]⟩
def HAP_H_GAIN0_KI : Fld := ⟨0x104, 31, 16, .rw, false, false, some 0x40, [(8, 0x40)]⟩
/-! HAP_H_GAIN1 (R340, spec/15_haptics.md) -/
def HAP_H_GAIN1_KF : Fld := ⟨0x108, 15, 0, .rw, false, false, some 0x1000, [(8, 0x40)]⟩
def HAP_H_GAIN1_KB : Fld := ⟨0x108, 31, 16, .rw, false, false, some 0xC00, [(8, 0x40)]⟩
/-! HAP_H_PHASE (R340, spec/15_haptics.md) -/
def HAP_H_PHASE_START_GAIN : Fld := ⟨0x10C, 15, 0, .rw, false, false, some 0x2000, [(8, 0x40)]⟩
def HAP_H_PHASE_START_PERIODS : Fld := ⟨0x10C, 23, 16, .rw, false, false, some 0x10, [(8, 0x40)]⟩
def HAP_H_PHASE_BRAKE_MAX : Fld := ⟨0x10C, 31, 24, .rw, false, false, some 0x40, [(8, 0x40)]⟩
/-! HAP_H_LIMIT (R340, spec/15_haptics.md) -/
def HAP_H_LIMIT_I_LIMIT : Fld := ⟨0x110, 15, 0, .rw, false, false, some 0x6000, [(8, 0x40)]⟩
def HAP_H_LIMIT_I_FAULT : Fld := ⟨0x110, 31, 16, .rw, false, false, some 0x7800, [(8, 0x40)]⟩
/-! HAP_H_SENSE (R340, spec/15_haptics.md) -/
def HAP_H_SENSE_ACC_SCALE : Fld := ⟨0x114, 15, 0, .rw, false, false, some 0x1000, [(8, 0x40)]⟩
def HAP_H_SENSE_BRAKE_THRESH : Fld := ⟨0x114, 30, 16, .rw, false, false, some 0x190, [(8, 0x40)]⟩
def HAP_H_SENSE_ACC_INV : Fld := ⟨0x114, 31, 31, .rw, false, false, some 0x0, [(8, 0x40)]⟩
/-! HAP_H_CALCFG (R340, spec/15_haptics.md) -/
def HAP_H_CALCFG_F_LO : Fld := ⟨0x118, 7, 0, .rw, false, false, some 0x32, [(8, 0x40)]⟩
def HAP_H_CALCFG_F_HI : Fld := ⟨0x118, 15, 8, .rw, false, false, some 0x96, [(8, 0x40)]⟩
def HAP_H_CALCFG_CAL_LEVEL : Fld := ⟨0x118, 31, 16, .rw, false, false, some 0x2000, [(8, 0x40)]⟩
/-! HAP_H_STAT (R340, spec/15_haptics.md) -/
def HAP_H_STAT_STATE : Fld := ⟨0x11C, 2, 0, .ro, false, false, some 0x0, [(8, 0x40)]⟩
def HAP_H_STAT_PRIORITY : Fld := ⟨0x11C, 5, 4, .ro, false, false, some 0x0, [(8, 0x40)]⟩
def HAP_H_STAT_SOURCE : Fld := ⟨0x11C, 6, 6, .ro, false, false, some 0x0, [(8, 0x40)]⟩
def HAP_H_STAT_FAULT_REASON : Fld := ⟨0x11C, 11, 8, .ro, false, false, some 0x0, [(8, 0x40)]⟩
def HAP_H_STAT_FUNCTION : Fld := ⟨0x11C, 23, 16, .ro, false, false, some 0x0, [(8, 0x40)]⟩
/-! HAP_H_CAL (R340, spec/15_haptics.md) -/
def HAP_H_CAL_F_RES : Fld := ⟨0x120, 15, 0, .ro, false, false, some 0x0, [(8, 0x40)]⟩
def HAP_H_CAL_G : Fld := ⟨0x120, 31, 16, .ro, false, false, some 0x0, [(8, 0x40)]⟩
/-! HAP_H_COUNTS (R340, spec/15_haptics.md) -/
def HAP_H_COUNTS_STARTED : Fld := ⟨0x124, 15, 0, .ro, false, false, some 0x0, [(8, 0x40)]⟩
def HAP_H_COUNTS_PREEMPTED : Fld := ⟨0x124, 23, 16, .ro, false, false, some 0x0, [(8, 0x40)]⟩
def HAP_H_COUNTS_DROPPED : Fld := ⟨0x124, 31, 24, .ro, false, false, some 0x0, [(8, 0x40)]⟩
/-! HAP_H_LAT (R340, spec/15_haptics.md) -/
def HAP_H_LAT_LAST : Fld := ⟨0x128, 15, 0, .ro, false, false, some 0x0, [(8, 0x40)]⟩
def HAP_H_LAT_MAX : Fld := ⟨0x128, 31, 16, .ro, false, false, some 0x0, [(8, 0x40)]⟩
/-! AUD_DOM (R369, spec/16_audio.md) -/
def AUD_DOM_SOURCE : Fld := ⟨0x040, 2, 0, .rw, true, false, some 0x0, [(3, 0x4)]⟩
def AUD_DOM_LOCKED : Fld := ⟨0x040, 8, 8, .ro, false, false, some 0x0, [(3, 0x4)]⟩
def AUD_DOM_HOLDOVER : Fld := ⟨0x040, 9, 9, .ro, false, false, some 0x0, [(3, 0x4)]⟩
/-! AUD_CTRL (R369, spec/16_audio.md) -/
def AUD_CTRL_XFADE : Fld := ⟨0x04C, 1, 0, .rw, false, false, some 0x1, []⟩
def AUD_CTRL_APPLY : Fld := ⟨0x04C, 8, 8, .wo, false, false, some 0x0, []⟩
def AUD_CTRL_ARMED : Fld := ⟨0x04C, 16, 16, .ro, false, false, some 0x0, []⟩
def AUD_CTRL_XFADE_BUSY : Fld := ⟨0x04C, 17, 17, .ro, false, false, some 0x0, []⟩
/-! AUD_BRIDGES (R369, spec/16_audio.md) -/
def AUD_BRIDGES_USED : Fld := ⟨0x050, 5, 0, .ro, false, false, some 0x0, []⟩
/-! AUD_ST (R369, spec/16_audio.md) -/
def AUD_ST_MIC : Fld := ⟨0x060, 2, 0, .rw, false, false, some 0x0, [(2, 0x4)]⟩
def AUD_ST_PORT : Fld := ⟨0x060, 6, 4, .rw, false, false, some 0x0, [(2, 0x4)]⟩
def AUD_ST_SLOT : Fld := ⟨0x060, 11, 8, .rw, false, false, some 0x0, [(2, 0x4)]⟩
def AUD_ST_EN : Fld := ⟨0x060, 15, 15, .rw, false, false, some 0x0, [(2, 0x4)]⟩
def AUD_ST_GAIN : Fld := ⟨0x060, 31, 16, .rw, false, false, some 0x0, [(2, 0x4)]⟩
/-! AUD_TAP (R369, spec/16_audio.md) -/
def AUD_TAP_BUS : Fld := ⟨0x070, 4, 0, .rw, false, false, some 0x0, [(8, 0x4)]⟩
def AUD_TAP_EN : Fld := ⟨0x070, 15, 15, .rw, false, false, some 0x0, [(8, 0x4)]⟩
/-! TDM_CFG (R369, spec/16_audio.md) -/
def TDM_CFG_EN : Fld := ⟨0x100, 0, 0, .rw, false, false, some 0x0, [(2, 0x100), (6, 0x10)]⟩
def TDM_CFG_MASTER : Fld := ⟨0x100, 1, 1, .rw, false, false, some 0x1, [(2, 0x100), (6, 0x10)]⟩
def TDM_CFG_I2S : Fld := ⟨0x100, 2, 2, .rw, false, false, some 0x0, [(2, 0x100), (6, 0x10)]⟩
def TDM_CFG_BCLK_INV : Fld := ⟨0x100, 3, 3, .rw, false, false, some 0x0, [(2, 0x100), (6, 0x10)]⟩
def TDM_CFG_DOMAIN : Fld := ⟨0x100, 5, 4, .rw, false, false, some 0x0, [(2, 0x100), (6, 0x10)]⟩
def TDM_CFG_SLOTS : Fld := ⟨0x100, 10, 6, .rw, false, false, some 0x2, [(2, 0x100), (6, 0x10)]⟩
def TDM_CFG_SLOT_BITS : Fld := ⟨0x100, 13, 12, .rw, false, false, some 0x1, [(2, 0x100), (6, 0x10)]⟩
/-! TDM_STAT (R369, spec/16_audio.md) -/
def TDM_STAT_RUNNING : Fld := ⟨0x104, 0, 0, .ro, false, false, some 0x0, [(2, 0x100), (6, 0x10)]⟩
def TDM_STAT_CLOCK_LOST : Fld := ⟨0x104, 1, 1, .ro, false, false, some 0x0, [(2, 0x100), (6, 0x10)]⟩
def TDM_STAT_SLIPS : Fld := ⟨0x104, 31, 16, .ro, false, false, some 0x0, [(2, 0x100), (6, 0x10)]⟩
/-! PDM_CFG (R369, spec/16_audio.md) -/
def PDM_CFG_EN : Fld := ⟨0x300, 7, 0, .rw, false, false, some 0x0, []⟩
/-! STR_CFG (R369, spec/16_audio.md) -/
def STR_CFG_EN : Fld := ⟨0x100, 0, 0, .rw, false, false, some 0x0, [(32, 0x10)]⟩
def STR_CFG_CAPTURE : Fld := ⟨0x100, 1, 1, .rw, false, false, some 0x0, [(32, 0x10)]⟩
def STR_CFG_DOMAIN : Fld := ⟨0x100, 3, 2, .rw, false, false, some 0x0, [(32, 0x10)]⟩
def STR_CFG_FORMAT : Fld := ⟨0x100, 4, 4, .rw, false, false, some 0x1, [(32, 0x10)]⟩
/-! STR_CHANNEL (R369, spec/16_audio.md) -/
def STR_CHANNEL_CHANNEL : Fld := ⟨0x104, 31, 0, .rw, false, false, some 0x0, [(32, 0x10)]⟩
/-! STR_SRC (R369, spec/16_audio.md) -/
def STR_SRC_SOURCE : Fld := ⟨0x108, 8, 0, .rw, false, false, some 0x0, [(32, 0x10)]⟩
/-! STR_STAT (R369, spec/16_audio.md) -/
def STR_STAT_QUEUED : Fld := ⟨0x10C, 3, 0, .ro, false, false, some 0x0, [(32, 0x10)]⟩
def STR_STAT_RUNNING : Fld := ⟨0x10C, 4, 4, .ro, false, false, some 0x0, [(32, 0x10)]⟩
def STR_STAT_MISSES : Fld := ⟨0x10C, 31, 16, .ro, false, false, some 0x0, [(32, 0x10)]⟩
/-! BUS_CFG (R369, spec/16_audio.md) -/
def BUS_CFG_EN : Fld := ⟨0x100, 0, 0, .rw, false, false, some 0x0, [(8, 0x140)]⟩
def BUS_CFG_DOMAIN : Fld := ⟨0x100, 2, 1, .rw, false, false, some 0x0, [(8, 0x140)]⟩
def BUS_CFG_BQ_EN : Fld := ⟨0x100, 13, 4, .rw, false, false, some 0x0, [(8, 0x140)]⟩
def BUS_CFG_GAIN : Fld := ⟨0x100, 31, 16, .rw, false, false, some 0x4000, [(8, 0x140)]⟩
/-! BUS_LIMIT (R369, spec/16_audio.md) -/
def BUS_LIMIT_THRESH : Fld := ⟨0x104, 23, 0, .rw, false, false, some 0x7FFFFF, [(8, 0x140)]⟩
def BUS_LIMIT_RELEASE : Fld := ⟨0x104, 31, 24, .rw, false, false, some 0x10, [(8, 0x140)]⟩
/-! BUS_METER (R369, spec/16_audio.md) -/
def BUS_METER_PEAK : Fld := ⟨0x108, 23, 0, .ro, false, false, some 0x0, [(8, 0x140)]⟩
def BUS_METER_LIMITED : Fld := ⟨0x108, 31, 31, .ro, false, false, some 0x0, [(8, 0x140)]⟩
/-! BUS_IN (R369, spec/16_audio.md) -/
def BUS_IN_SOURCE : Fld := ⟨0x110, 8, 0, .rw, false, false, some 0x0, [(8, 0x140), (16, 0x4)]⟩
def BUS_IN_GAIN : Fld := ⟨0x110, 31, 16, .rw, false, false, some 0x4000, [(8, 0x140), (16, 0x4)]⟩
/-! BUS_BQ_B0 (R369, spec/16_audio.md) -/
def BUS_BQ_B0_COEF : Fld := ⟨0x150, 31, 0, .rw, false, false, some 0x10000000, [(8, 0x140), (10, 0x14)]⟩
/-! BUS_BQ_B1 (R369, spec/16_audio.md) -/
def BUS_BQ_B1_COEF : Fld := ⟨0x154, 31, 0, .rw, false, false, some 0x0, [(8, 0x140), (10, 0x14)]⟩
/-! BUS_BQ_B2 (R369, spec/16_audio.md) -/
def BUS_BQ_B2_COEF : Fld := ⟨0x158, 31, 0, .rw, false, false, some 0x0, [(8, 0x140), (10, 0x14)]⟩
/-! BUS_BQ_A1 (R369, spec/16_audio.md) -/
def BUS_BQ_A1_COEF : Fld := ⟨0x15C, 31, 0, .rw, false, false, some 0x0, [(8, 0x140), (10, 0x14)]⟩
/-! BUS_BQ_A2 (R369, spec/16_audio.md) -/
def BUS_BQ_A2_COEF : Fld := ⟨0x160, 31, 0, .rw, false, false, some 0x0, [(8, 0x140), (10, 0x14)]⟩
/-! OUT_P_S (R369, spec/16_audio.md) -/
def OUT_P_S_SOURCE : Fld := ⟨0x100, 8, 0, .rw, false, false, some 0x0, [(6, 0x40), (16, 0x4)]⟩
/-! AUD_BLOCKS (R369, spec/16_audio.md) -/
def AUD_BLOCKS_COUNT : Fld := ⟨0x040, 31, 0, .ro, false, false, some 0x0, [(3, 0x4)]⟩
/-! AUD_BR (R369, spec/16_audio.md) -/
def AUD_BR_SOURCE : Fld := ⟨0x100, 8, 0, .ro, false, false, some 0x0, [(32, 0x4)]⟩
def AUD_BR_FROM : Fld := ⟨0x100, 10, 9, .ro, false, false, some 0x0, [(32, 0x4)]⟩
def AUD_BR_TO : Fld := ⟨0x100, 12, 11, .ro, false, false, some 0x0, [(32, 0x4)]⟩
def AUD_BR_PRIMED : Fld := ⟨0x100, 13, 13, .ro, false, false, some 0x0, [(32, 0x4)]⟩
def AUD_BR_VALID : Fld := ⟨0x100, 15, 15, .ro, false, false, some 0x0, [(32, 0x4)]⟩
/-! PLK_CFG (R404, spec/17_pair.md) -/
def PLK_CFG_POSITION : Fld := ⟨0x040, 0, 0, .rw, true, true, none, []⟩
def PLK_CFG_APART_TAKEOVER : Fld := ⟨0x040, 1, 1, .rw, true, true, none, []⟩
def PLK_CFG_STATE_LIMIT : Fld := ⟨0x040, 7, 4, .rw, false, false, some 0x3, []⟩
def PLK_CFG_TIME_STEP_US : Fld := ⟨0x040, 23, 8, .rw, false, false, some 0x64, []⟩
/-! PLK_CTRL (R404, spec/17_pair.md) -/
def PLK_CTRL_HANDOVER : Fld := ⟨0x044, 0, 0, .wo, false, false, some 0x0, []⟩
def PLK_CTRL_RESYNC : Fld := ⟨0x044, 1, 1, .wo, false, false, some 0x0, []⟩
def PLK_CTRL_RETRAIN : Fld := ⟨0x044, 2, 2, .wo, false, false, some 0x0, []⟩
def PLK_CTRL_CLEAR_GUY_FAULT : Fld := ⟨0x044, 3, 3, .wo, false, true, some 0x0, []⟩
/-! PLK_STAT (R404, spec/17_pair.md) -/
def PLK_STAT_STATE : Fld := ⟨0x048, 2, 0, .ro, false, false, some 0x0, []⟩
def PLK_STAT_LINK_UP : Fld := ⟨0x048, 3, 3, .ro, false, false, some 0x0, []⟩
def PLK_STAT_GUY_OUT : Fld := ⟨0x048, 4, 4, .ro, false, false, some 0x0, []⟩
def PLK_STAT_GUY_IN : Fld := ⟨0x048, 5, 5, .ro, false, false, some 0x0, []⟩
def PLK_STAT_GUY_FAULT : Fld := ⟨0x048, 6, 6, .ro, false, false, some 0x0, []⟩
def PLK_STAT_VERSION_DIFF : Fld := ⟨0x048, 7, 7, .ro, false, false, some 0x0, []⟩
def PLK_STAT_PARTNER_POSITION : Fld := ⟨0x048, 8, 8, .ro, false, false, some 0x0, []⟩
def PLK_STAT_PARTNER_STATE : Fld := ⟨0x048, 11, 9, .ro, false, false, some 0x0, []⟩
def PLK_STAT_LAST_REASON : Fld := ⟨0x048, 15, 12, .ro, false, false, some 0x0, []⟩
def PLK_STAT_WAKE_REASON : Fld := ⟨0x048, 23, 16, .ro, false, false, some 0x0, []⟩
/-! PLK_LINK (R404, spec/17_pair.md) -/
def PLK_LINK_SPEED : Fld := ⟨0x04C, 3, 0, .ro, false, false, some 0x0, []⟩
def PLK_LINK_WIDTH : Fld := ⟨0x04C, 7, 4, .ro, false, false, some 0x0, []⟩
/-! PLK_PARTNER_FW (R404, spec/17_pair.md) -/
def PLK_PARTNER_FW_VERSION : Fld := ⟨0x050, 31, 0, .ro, false, false, some 0x0, []⟩
/-! PLK_TIME_OFFSET (R404, spec/17_pair.md) -/
def PLK_TIME_OFFSET_NS : Fld := ⟨0x054, 31, 0, .ro, false, false, some 0x0, []⟩
/-! PLK_CRC_ERRS (R404, spec/17_pair.md) -/
def PLK_CRC_ERRS_COUNT : Fld := ⟨0x058, 31, 0, .ro, false, false, some 0x0, []⟩
/-! PLK_REPLAYS (R404, spec/17_pair.md) -/
def PLK_REPLAYS_COUNT : Fld := ⟨0x05C, 31, 0, .ro, false, false, some 0x0, []⟩
/-! PLK_RECOVERIES (R404, spec/17_pair.md) -/
def PLK_RECOVERIES_COUNT : Fld := ⟨0x060, 31, 0, .ro, false, false, some 0x0, []⟩
/-! PLK_MIRROR_QUEUED (R404, spec/17_pair.md) -/
def PLK_MIRROR_QUEUED_BYTES : Fld := ⟨0x064, 23, 0, .ro, false, false, some 0x0, []⟩
/-! PLK_MIRROR_WORDS_LO (R404, spec/17_pair.md) -/
def PLK_MIRROR_WORDS_LO_COUNT_LO : Fld := ⟨0x068, 31, 0, .ro, false, false, some 0x0, []⟩
/-! PLK_MIRROR_WORDS_HI (R404, spec/17_pair.md) -/
def PLK_MIRROR_WORDS_HI_COUNT_HI : Fld := ⟨0x06C, 15, 0, .ro, false, false, some 0x0, []⟩
/-! PLK_SYNC (R404, spec/17_pair.md) -/
def PLK_SYNC_PLOTS_LEFT : Fld := ⟨0x070, 20, 0, .ro, false, false, some 0x0, []⟩
/-! PLK_TAKEOVER (R404, spec/17_pair.md) -/
def PLK_TAKEOVER_COUNT : Fld := ⟨0x074, 15, 0, .ro, false, false, some 0x0, []⟩
def PLK_TAKEOVER_LAST : Fld := ⟨0x074, 31, 16, .ro, false, false, some 0x0, []⟩
/-! PLK_SKEW_FRAMES (R404, spec/17_pair.md) -/
def PLK_SKEW_FRAMES_COUNT : Fld := ⟨0x078, 31, 0, .ro, false, false, some 0x0, []⟩
/-! PLK_FRAME_DIGEST (R404, spec/17_pair.md) -/
def PLK_FRAME_DIGEST_DIGEST : Fld := ⟨0x100, 31, 0, .ro, false, false, some 0x0, [(8, 0x10)]⟩
/-! PLK_FRAME_SEQ (R404, spec/17_pair.md) -/
def PLK_FRAME_SEQ_SEQ : Fld := ⟨0x104, 31, 0, .ro, false, false, some 0x0, [(8, 0x10)]⟩
/-! PLK_FRAME_EXPLAINED (R404, spec/17_pair.md) -/
def PLK_FRAME_EXPLAINED_COUNT : Fld := ⟨0x108, 31, 0, .ro, false, false, some 0x0, [(8, 0x10)]⟩
/-! PLK_FRAME_RUN (R404, spec/17_pair.md) -/
def PLK_FRAME_RUN_RUN : Fld := ⟨0x10C, 7, 0, .ro, false, false, some 0x0, [(8, 0x10)]⟩
def PLK_FRAME_RUN_TOTAL : Fld := ⟨0x10C, 31, 8, .ro, false, false, some 0x0, [(8, 0x10)]⟩
/-! PWR_REQ (R432, spec/18_power_and_holdup.md) -/
def PWR_REQ_TARGET : Fld := ⟨0x040, 2, 0, .wo, false, false, some 0x0, []⟩
/-! PWR_REQ_STAT (R432, spec/18_power_and_holdup.md) -/
def PWR_REQ_STAT_CODE : Fld := ⟨0x044, 15, 0, .ro, false, false, some 0x0, []⟩
def PWR_REQ_STAT_TARGET : Fld := ⟨0x044, 18, 16, .ro, false, false, some 0x0, []⟩
def PWR_REQ_STAT_BUSY : Fld := ⟨0x044, 19, 19, .ro, false, false, some 0x0, []⟩
/-! PWR_STAT (R432, spec/18_power_and_holdup.md) -/
def PWR_STAT_STATE : Fld := ⟨0x048, 2, 0, .ro, false, false, some 0x0, []⟩
def PWR_STAT_HOLD_READY : Fld := ⟨0x048, 3, 3, .ro, false, false, some 0x0, []⟩
def PWR_STAT_RESUMED : Fld := ⟨0x048, 4, 4, .ro, false, false, some 0x0, []⟩
def PWR_STAT_WAKE_FAIL_REASON : Fld := ⟨0x048, 11, 8, .ro, false, false, some 0x0, []⟩
/-! PWR_WAKE_EN (R432, spec/18_power_and_holdup.md) -/
def PWR_WAKE_EN_SOURCES : Fld := ⟨0x04C, 6, 0, .rw, false, false, some 0x7F, []⟩
/-! PWR_WAKE_CAUSE (R432, spec/18_power_and_holdup.md) -/
def PWR_WAKE_CAUSE_SOURCES : Fld := ⟨0x050, 6, 0, .ro, false, false, some 0x0, []⟩
/-! PWR_WAKE_LIMIT (R432, spec/18_power_and_holdup.md) -/
def PWR_WAKE_LIMIT_REG_MS : Fld := ⟨0x054, 7, 0, .rw, false, false, some 0x14, []⟩
def PWR_WAKE_LIMIT_CLK_MS : Fld := ⟨0x054, 15, 8, .rw, false, false, some 0x5, []⟩
def PWR_WAKE_LIMIT_RETRIES : Fld := ⟨0x054, 17, 16, .rw, false, false, some 0x2, []⟩
/-! PWR_IDLE_CFG (R432, spec/18_power_and_holdup.md) -/
def PWR_IDLE_CFG_ALLOW_CL3 : Fld := ⟨0x058, 0, 0, .rw, false, true, some 0x0, []⟩
/-! PWR_ISL_SEL (R432, spec/18_power_and_holdup.md) -/
def PWR_ISL_SEL_ISLAND : Fld := ⟨0x05C, 5, 0, .rw, false, false, some 0x0, []⟩
/-! PWR_ISL_CTRL (R432, spec/18_power_and_holdup.md) -/
def PWR_ISL_CTRL_GATE : Fld := ⟨0x060, 0, 0, .rw, false, false, some 0x0, []⟩
def PWR_ISL_CTRL_CLK_STOP : Fld := ⟨0x060, 1, 1, .rw, false, false, some 0x0, []⟩
/-! PWR_ISL_STAT (R432, spec/18_power_and_holdup.md) -/
def PWR_ISL_STAT_POWERED : Fld := ⟨0x064, 0, 0, .ro, false, false, some 0x1, []⟩
def PWR_ISL_STAT_CLOCKED : Fld := ⟨0x064, 1, 1, .ro, false, false, some 0x1, []⟩
def PWR_ISL_STAT_DOMAIN : Fld := ⟨0x064, 4, 2, .ro, false, false, none, []⟩
def PWR_ISL_STAT_OUTPUT : Fld := ⟨0x064, 7, 5, .ro, false, false, none, []⟩
/-! PWR_SAVE_ADD (R432, spec/18_power_and_holdup.md) -/
def PWR_SAVE_ADD_OFFSET : Fld := ⟨0x068, 23, 0, .wo, false, false, some 0x0, []⟩
/-! PWR_SAVE_CTRL (R432, spec/18_power_and_holdup.md) -/
def PWR_SAVE_CTRL_CLEAR : Fld := ⟨0x06C, 0, 0, .wo, false, false, some 0x0, []⟩
/-! PWR_SAVE_COUNT (R432, spec/18_power_and_holdup.md) -/
def PWR_SAVE_COUNT_COUNT : Fld := ⟨0x070, 12, 0, .ro, false, false, some 0x0, []⟩
/-! PWR_SAVE_SEL (R432, spec/18_power_and_holdup.md) -/
def PWR_SAVE_SEL_INDEX : Fld := ⟨0x074, 11, 0, .rw, false, false, some 0x0, []⟩
/-! PWR_SAVE_ENTRY (R432, spec/18_power_and_holdup.md) -/
def PWR_SAVE_ENTRY_OFFSET : Fld := ⟨0x078, 23, 0, .ro, false, false, some 0x0, []⟩
def PWR_SAVE_ENTRY_WORLD : Fld := ⟨0x078, 31, 31, .ro, false, false, some 0x0, []⟩
/-! PWR_WAKE_TIME (R432, spec/18_power_and_holdup.md) -/
def PWR_WAKE_TIME_US : Fld := ⟨0x07C, 15, 0, .ro, false, false, some 0x0, []⟩
/-! AON_TICK_LO (R432, spec/18_power_and_holdup.md) -/
def AON_TICK_LO_COUNT : Fld := ⟨0x040, 31, 0, .ro, false, false, some 0x0, []⟩
/-! AON_TICK_HI (R432, spec/18_power_and_holdup.md) -/
def AON_TICK_HI_COUNT : Fld := ⟨0x044, 15, 0, .ro, false, false, some 0x0, []⟩
/-! AON_RES_LO (R432, spec/18_power_and_holdup.md) -/
def AON_RES_LO_TICKS : Fld := ⟨0x048, 31, 0, .ro, false, false, some 0x0, [(5, 0x8)]⟩
/-! AON_RES_HI (R432, spec/18_power_and_holdup.md) -/
def AON_RES_HI_TICKS : Fld := ⟨0x04C, 15, 0, .ro, false, false, some 0x0, [(5, 0x8)]⟩
def AON_RES_HI_ENTRIES : Fld := ⟨0x04C, 31, 16, .ro, false, false, some 0x0, [(5, 0x8)]⟩
/-! AON_ALARM_LO (R432, spec/18_power_and_holdup.md) -/
def AON_ALARM_LO_TICK : Fld := ⟨0x070, 31, 0, .rw, false, false, some 0x0, []⟩
/-! AON_ALARM_HI (R432, spec/18_power_and_holdup.md) -/
def AON_ALARM_HI_TICK : Fld := ⟨0x074, 15, 0, .rw, false, false, some 0x0, []⟩
def AON_ALARM_HI_ALARM_EN : Fld := ⟨0x074, 31, 31, .rw, false, false, some 0x0, []⟩
/-! AON_PINS (R432, spec/18_power_and_holdup.md) -/
def AON_PINS_WAKE_LEVEL : Fld := ⟨0x078, 0, 0, .rw, true, false, some 0x0, []⟩
/-! AON_CAN_WUP (R432, spec/18_power_and_holdup.md) -/
def AON_CAN_WUP_TWAKE : Fld := ⟨0x07C, 6, 0, .rw, false, false, some 0x14, []⟩
/-! AON_CAN_REPORT (R432, spec/18_power_and_holdup.md) -/
def AON_CAN_REPORT_ID : Fld := ⟨0x080, 28, 0, .rw, false, false, some 0x0, []⟩
def AON_CAN_REPORT_IDE : Fld := ⟨0x080, 29, 29, .rw, false, false, some 0x0, []⟩
def AON_CAN_REPORT_EN : Fld := ⟨0x080, 31, 31, .rw, false, false, some 0x0, []⟩
/-! AON_VHOLD (R432, spec/18_power_and_holdup.md) -/
def AON_VHOLD_MV : Fld := ⟨0x084, 12, 0, .ro, false, false, some 0x0, []⟩
def AON_VHOLD_CAP_UF : Fld := ⟨0x084, 31, 16, .ro, false, false, some 0x0, []⟩
/-! AON_VHOLD_ESR (R432, spec/18_power_and_holdup.md) -/
def AON_VHOLD_ESR_MOHM : Fld := ⟨0x088, 15, 0, .ro, false, false, some 0x0, []⟩
/-! AON_SAVE_STAT (R432, spec/18_power_and_holdup.md) -/
def AON_SAVE_STAT_LAST : Fld := ⟨0x08C, 1, 0, .ro, false, false, some 0x0, []⟩
def AON_SAVE_STAT_SLOT : Fld := ⟨0x08C, 2, 2, .ro, false, false, some 0x0, []⟩
def AON_SAVE_STAT_SAVES : Fld := ⟨0x08C, 31, 16, .ro, false, false, some 0x0, []⟩
/-! AON_SAVE_TIME (R432, spec/18_power_and_holdup.md) -/
def AON_SAVE_TIME_FLUSH_US : Fld := ⟨0x090, 15, 0, .ro, false, false, some 0x0, []⟩
def AON_SAVE_TIME_SAVE_US : Fld := ⟨0x090, 31, 16, .ro, false, false, some 0x0, []⟩
/-! AON_PMB_CTRL (R432, spec/18_power_and_holdup.md) -/
def AON_PMB_CTRL_ADDR : Fld := ⟨0x094, 6, 0, .rw, false, false, some 0x0, []⟩
def AON_PMB_CTRL_READ : Fld := ⟨0x094, 7, 7, .rw, false, false, some 0x0, []⟩
def AON_PMB_CTRL_CMD : Fld := ⟨0x094, 15, 8, .rw, false, false, some 0x0, []⟩
def AON_PMB_CTRL_LEN : Fld := ⟨0x094, 17, 16, .rw, false, false, some 0x0, []⟩
def AON_PMB_CTRL_GO : Fld := ⟨0x094, 31, 31, .wo, false, false, some 0x0, []⟩
/-! AON_PMB_DATA (R432, spec/18_power_and_holdup.md) -/
def AON_PMB_DATA_DATA : Fld := ⟨0x098, 15, 0, .rw, false, false, some 0x0, []⟩
/-! AON_PMB_STAT (R432, spec/18_power_and_holdup.md) -/
def AON_PMB_STAT_STATE : Fld := ⟨0x09C, 1, 0, .ro, false, false, some 0x0, []⟩
def AON_PMB_STAT_PEC_ERR : Fld := ⟨0x09C, 2, 2, .ro, false, false, some 0x0, []⟩
/-! TIM_NOW_LO (R432, spec/18_power_and_holdup.md) -/
def TIM_NOW_LO_NOW : Fld := ⟨0x040, 31, 0, .ro, false, false, some 0x0, []⟩
/-! TIM_NOW_HI (R432, spec/18_power_and_holdup.md) -/
def TIM_NOW_HI_NOW : Fld := ⟨0x044, 31, 0, .ro, false, false, some 0x0, []⟩
/-! TIM_SET_LO (R432, spec/18_power_and_holdup.md) -/
def TIM_SET_LO_SET : Fld := ⟨0x048, 31, 0, .rw, false, false, some 0x0, []⟩
/-! TIM_SET_HI (R432, spec/18_power_and_holdup.md) -/
def TIM_SET_HI_SET : Fld := ⟨0x04C, 31, 0, .rw, false, false, some 0x0, []⟩
/-! TIM_TRIM (R432, spec/18_power_and_holdup.md) -/
def TIM_TRIM_PPB : Fld := ⟨0x050, 17, 0, .rw, false, false, some 0x0, []⟩
/-! TIM_CAL (R432, spec/18_power_and_holdup.md) -/
def TIM_CAL_CAL : Fld := ⟨0x054, 31, 0, .ro, false, false, some 0x77359400, []⟩
/-! TIM_UNCERT (R432, spec/18_power_and_holdup.md) -/
def TIM_UNCERT_US : Fld := ⟨0x058, 31, 0, .ro, false, false, some 0x0, []⟩
/-! TIM_DRIFT (R432, spec/18_power_and_holdup.md) -/
def TIM_DRIFT_PPM : Fld := ⟨0x05C, 7, 0, .rw, false, false, some 0x1E, []⟩
/-! TIM_EPOCH (R432, spec/18_power_and_holdup.md) -/
def TIM_EPOCH_EPOCH : Fld := ⟨0x060, 15, 0, .ro, false, false, none, []⟩
/-! AGE_CTRL (R446, spec/19_ageing_and_margins.md) -/
def AGE_CTRL_SURVEY : Fld := ⟨0x040, 0, 0, .wo, false, false, some 0x0, []⟩
def AGE_CTRL_AUTO : Fld := ⟨0x040, 1, 1, .rw, false, true, some 0x1, []⟩
def AGE_CTRL_GUARD_MV : Fld := ⟨0x040, 15, 8, .rw, false, true, some 0xF, []⟩
/-! AGE_STAT (R446, spec/19_ageing_and_margins.md) -/
def AGE_STAT_SURVEYS : Fld := ⟨0x044, 15, 0, .ro, false, false, some 0x0, []⟩
def AGE_STAT_LAST_CAUSE : Fld := ⟨0x044, 18, 16, .ro, false, false, some 0x0, []⟩
/-! AGE_HOURS (R446, spec/19_ageing_and_margins.md) -/
def AGE_HOURS_HOURS : Fld := ⟨0x048, 31, 0, .ro, false, false, none, []⟩
/-! AGE_PROJ (R446, spec/19_ageing_and_margins.md) -/
def AGE_PROJ_ISLAND : Fld := ⟨0x04C, 5, 0, .ro, false, false, some 0x0, []⟩
def AGE_PROJ_LEFT : Fld := ⟨0x04C, 31, 16, .ro, false, false, some 0xFFFF, []⟩
/-! AGE_GRP_SEL (R446, spec/19_ageing_and_margins.md) -/
def AGE_GRP_SEL_GROUP : Fld := ⟨0x050, 3, 0, .rw, false, false, some 0x0, []⟩
/-! AGE_GRP (R446, spec/19_ageing_and_margins.md) -/
def AGE_GRP_MV : Fld := ⟨0x054, 9, 0, .ro, false, false, none, []⟩
def AGE_GRP_TOP_MV : Fld := ⟨0x054, 25, 16, .ro, false, false, none, []⟩
/-! AGE_ISL_SEL (R446, spec/19_ageing_and_margins.md) -/
def AGE_ISL_SEL_ISLAND : Fld := ⟨0x058, 5, 0, .rw, false, false, some 0x0, []⟩
/-! AGE_ISL_PLAN (R446, spec/19_ageing_and_margins.md) -/
def AGE_ISL_PLAN_F_MHZ : Fld := ⟨0x05C, 15, 0, .ro, false, false, none, []⟩
def AGE_ISL_PLAN_F_MIN_MHZ : Fld := ⟨0x05C, 31, 16, .ro, false, false, none, []⟩
/-! AGE_ISL_MARGIN (R446, spec/19_ageing_and_margins.md) -/
def AGE_ISL_MARGIN_VREQ_MV : Fld := ⟨0x060, 11, 0, .ro, false, false, some 0x0, []⟩
def AGE_ISL_MARGIN_DEGRADE_PPM : Fld := ⟨0x060, 23, 12, .ro, false, false, some 0x0, []⟩
def AGE_ISL_MARGIN_SLACK_PS : Fld := ⟨0x060, 31, 24, .ro, false, false, some 0x0, []⟩
/-! AGE_ISL_CAP (R446, spec/19_ageing_and_margins.md) -/
def AGE_ISL_CAP_CAP : Fld := ⟨0x064, 15, 0, .ro, false, false, some 0x0, []⟩
def AGE_ISL_CAP_REDUCED : Fld := ⟨0x064, 31, 31, .ro, false, false, none, []⟩
/-! AGE_LED_SEL (R446, spec/19_ageing_and_margins.md) -/
def AGE_LED_SEL_RECORD : Fld := ⟨0x068, 10, 0, .rw, false, false, some 0x0, []⟩
def AGE_LED_SEL_WORD : Fld := ⟨0x068, 16, 11, .rw, false, false, some 0x0, []⟩
/-! AGE_LED_DATA (R446, spec/19_ageing_and_margins.md) -/
def AGE_LED_DATA_DATA : Fld := ⟨0x06C, 31, 0, .ro, false, false, some 0x0, []⟩
/-! AGE_LED_STAT (R446, spec/19_ageing_and_margins.md) -/
def AGE_LED_STAT_COUNT : Fld := ⟨0x070, 11, 0, .ro, false, false, none, []⟩
def AGE_LED_STAT_BAD_CRC : Fld := ⟨0x070, 31, 31, .ro, false, false, some 0x0, []⟩
/-! UPD_CMD (R462, spec/20_firmware_update.md) -/
def UPD_CMD_OP : Fld := ⟨0x040, 3, 0, .wo, false, false, some 0x0, []⟩
def UPD_CMD_KIND : Fld := ⟨0x040, 6, 4, .wo, false, false, some 0x0, []⟩
def UPD_CMD_WHEN : Fld := ⟨0x040, 9, 8, .wo, false, false, some 0x0, []⟩
/-! UPD_ARG0 (R462, spec/20_firmware_update.md) -/
def UPD_ARG0_VALUE : Fld := ⟨0x044, 31, 0, .rw, false, false, some 0x0, []⟩
/-! UPD_ARG1 (R462, spec/20_firmware_update.md) -/
def UPD_ARG1_VALUE : Fld := ⟨0x048, 31, 0, .rw, false, false, some 0x0, []⟩
/-! UPD_ARG2 (R462, spec/20_firmware_update.md) -/
def UPD_ARG2_VALUE : Fld := ⟨0x04C, 31, 0, .rw, false, false, some 0x0, []⟩
/-! UPD_STAT (R462, spec/20_firmware_update.md) -/
def UPD_STAT_CODE : Fld := ⟨0x050, 15, 0, .ro, false, false, some 0x0, []⟩
def UPD_STAT_STATE : Fld := ⟨0x050, 18, 16, .ro, false, false, some 0x0, []⟩
def UPD_STAT_BUSY : Fld := ⟨0x050, 19, 19, .ro, false, false, some 0x0, []⟩
def UPD_STAT_HOLDER : Fld := ⟨0x050, 31, 24, .ro, false, false, some 0x0, []⟩
/-! UPD_STAGED (R462, spec/20_firmware_update.md) -/
def UPD_STAGED_BYTES : Fld := ⟨0x054, 24, 0, .ro, false, false, some 0x0, []⟩
/-! UPD_CFG (R462, spec/20_firmware_update.md) -/
def UPD_CFG_MOTION_EN : Fld := ⟨0x058, 0, 0, .rw, true, false, none, []⟩
def UPD_CFG_MOTION_HIGH : Fld := ⟨0x058, 1, 1, .rw, true, false, none, []⟩
def UPD_CFG_STILL_S : Fld := ⟨0x058, 15, 8, .rw, true, false, none, []⟩
def UPD_CFG_DEFER_FUSE : Fld := ⟨0x058, 16, 16, .rw, false, true, some 0x0, []⟩
/-! UPD_LOCK (R462, spec/20_firmware_update.md) -/
def UPD_LOCK_LOCK : Fld := ⟨0x05C, 0, 0, .w1s, false, true, none, []⟩
def UPD_LOCK_UNLOCK : Fld := ⟨0x05C, 1, 1, .wo, false, true, some 0x0, []⟩
/-! UPD_RUN_VER (R462, spec/20_firmware_update.md) -/
def UPD_RUN_VER_VERSION : Fld := ⟨0x060, 31, 0, .ro, false, false, none, []⟩
/-! UPD_MC_VER (R462, spec/20_firmware_update.md) -/
def UPD_MC_VER_VERSION : Fld := ⟨0x064, 31, 0, .ro, false, false, none, []⟩
/-! UPD_SLOT_VER (R462, spec/20_firmware_update.md) -/
def UPD_SLOT_VER_VERSION : Fld := ⟨0x068, 31, 0, .ro, false, false, none, [(2, 0x4)]⟩
/-! UPD_BOOT (R462, spec/20_firmware_update.md) -/
def UPD_BOOT_PRIMARY : Fld := ⟨0x070, 0, 0, .ro, false, false, none, []⟩
def UPD_BOOT_TRIAL : Fld := ⟨0x070, 1, 1, .ro, false, false, none, []⟩
def UPD_BOOT_ATTEMPTS : Fld := ⟨0x070, 3, 2, .ro, false, false, none, []⟩
def UPD_BOOT_MC_HALF : Fld := ⟨0x070, 4, 4, .ro, false, false, none, []⟩
def UPD_BOOT_SET_COPY : Fld := ⟨0x070, 5, 5, .ro, false, false, none, []⟩
def UPD_BOOT_ARMED_WHEN : Fld := ⟨0x070, 7, 6, .ro, false, false, none, []⟩
/-! UPD_SVN (R462, spec/20_firmware_update.md) -/
def UPD_SVN_XIRESOL : Fld := ⟨0x074, 6, 0, .ro, false, false, none, []⟩
def UPD_SVN_MICROCODE : Fld := ⟨0x074, 13, 8, .ro, false, false, none, []⟩
def UPD_SVN_SETTINGS : Fld := ⟨0x074, 21, 16, .ro, false, false, none, []⟩
/-! UPD_SCHEMA (R462, spec/20_firmware_update.md) -/
def UPD_SCHEMA_IN_USE : Fld := ⟨0x078, 15, 0, .ro, false, false, none, []⟩
/-! UPD_REVERT (R462, spec/20_firmware_update.md) -/
def UPD_REVERT_REASON : Fld := ⟨0x07C, 3, 0, .ro, false, false, none, []⟩
def UPD_REVERT_KIND : Fld := ⟨0x07C, 7, 4, .ro, false, false, none, []⟩
def UPD_REVERT_COUNT : Fld := ⟨0x07C, 15, 8, .ro, false, false, none, []⟩
/-! SYS_DEV_ID (R475, spec/21_bring_up_and_faults.md) -/
def SYS_DEV_ID_PART : Fld := ⟨0x040, 15, 0, .ro, false, false, none, []⟩
def SYS_DEV_ID_STEPPING : Fld := ⟨0x040, 23, 16, .ro, false, false, none, []⟩
/-! SYS_STAT (R475, spec/21_bring_up_and_faults.md) -/
def SYS_STAT_PHASE : Fld := ⟨0x044, 3, 0, .ro, false, false, some 0x1, []⟩
def SYS_STAT_RESET_CAUSE : Fld := ⟨0x044, 7, 4, .ro, false, false, none, []⟩
def SYS_STAT_DEFAULT_PLAN : Fld := ⟨0x044, 8, 8, .ro, false, false, some 0x0, []⟩
/-! SYS_BOOT_TIME (R475, spec/21_bring_up_and_faults.md) -/
def SYS_BOOT_TIME_EARLY_MS : Fld := ⟨0x048, 15, 0, .ro, false, false, some 0x0, []⟩
def SYS_BOOT_TIME_FULL_MS : Fld := ⟨0x048, 31, 16, .ro, false, false, some 0x0, []⟩
/-! SYS_FAULT_CNT (R475, spec/21_bring_up_and_faults.md) -/
def SYS_FAULT_CNT_CORRECTED : Fld := ⟨0x04C, 15, 0, .ro, false, false, some 0x0, []⟩
def SYS_FAULT_CNT_CONTAINED : Fld := ⟨0x04C, 31, 16, .ro, false, false, some 0x0, []⟩
/-! SYS_FATAL (R475, spec/21_bring_up_and_faults.md) -/
def SYS_FATAL_COUNT : Fld := ⟨0x050, 7, 0, .ro, false, false, none, []⟩
def SYS_FATAL_LAST_SOURCE : Fld := ⟨0x050, 11, 8, .ro, false, false, none, []⟩
def SYS_FATAL_HALT : Fld := ⟨0x050, 16, 16, .rw, false, true, some 0x0, []⟩
def SYS_FATAL_RESTART_LIMIT : Fld := ⟨0x050, 19, 17, .rw, false, true, some 0x3, []⟩
/-! SYS_CONTAIN (R475, spec/21_bring_up_and_faults.md) -/
def SYS_CONTAIN_OUT_STOP : Fld := ⟨0x054, 7, 0, .rw, false, true, some 0x0, []⟩
/-! SYS_EARLY (R475, spec/21_bring_up_and_faults.md) -/
def SYS_EARLY_ACTIVE : Fld := ⟨0x058, 7, 0, .ro, false, false, some 0x0, []⟩
def SYS_EARLY_END : Fld := ⟨0x058, 15, 8, .wo, false, false, some 0x0, []⟩
/-! SYS_RESET (R475, spec/21_bring_up_and_faults.md) -/
def SYS_RESET_RESTART : Fld := ⟨0x05C, 0, 0, .wo, false, true, some 0x0, []⟩
/-! LOG_STAT (R475, spec/21_bring_up_and_faults.md) -/
def LOG_STAT_COUNT : Fld := ⟨0x040, 12, 0, .ro, false, false, some 0x0, []⟩
def LOG_STAT_LOST : Fld := ⟨0x040, 31, 16, .ro, false, false, some 0x0, []⟩
/-! LOG_SEQ (R475, spec/21_bring_up_and_faults.md) -/
def LOG_SEQ_SEQ : Fld := ⟨0x044, 31, 0, .ro, false, false, some 0x0, []⟩
/-! LOG_CTRL (R475, spec/21_bring_up_and_faults.md) -/
def LOG_CTRL_INDEX : Fld := ⟨0x048, 11, 0, .rw, false, false, some 0x0, []⟩
def LOG_CTRL_MIN_CLASS : Fld := ⟨0x048, 13, 12, .rw, false, false, some 0x1, []⟩
def LOG_CTRL_CLEAR : Fld := ⟨0x048, 31, 31, .wo, false, true, some 0x0, []⟩
/-! LOG_DATA (R475, spec/21_bring_up_and_faults.md) -/
def LOG_DATA_DATA : Fld := ⟨0x050, 31, 0, .ro, false, false, some 0x0, [(8, 0x4)]⟩
/-! Q_CQ_BASE_LO (R131, spec/05_guest_interface.md) -/
def Q_CQ_BASE_LO_BASE_LO : Fld := ⟨0x008, 31, 6, .rw, false, false, some 0x0, [(8, 0x40)]⟩
/-! Q_CQ_BASE_HI (R131, spec/05_guest_interface.md) -/
def Q_CQ_BASE_HI_BASE_HI : Fld := ⟨0x00C, 31, 0, .rw, false, false, some 0x0, [(8, 0x40)]⟩
/-! ING_HOST_BYTES_LO (R158, spec/06_surfaces_and_seedbed.md) -/
def ING_HOST_BYTES_LO_COUNT_LO : Fld := ⟨0x04C, 31, 0, .ro, false, false, some 0x0, []⟩
/-! ING_HOST_BYTES_HI (R158, spec/06_surfaces_and_seedbed.md) -/
def ING_HOST_BYTES_HI_COUNT_HI : Fld := ⟨0x050, 15, 0, .ro, false, false, some 0x0, []⟩
/-! ING_POOL_WORDS_LO (R158, spec/06_surfaces_and_seedbed.md) -/
def ING_POOL_WORDS_LO_COUNT_LO : Fld := ⟨0x054, 31, 0, .ro, false, false, some 0x0, []⟩
/-! ING_POOL_WORDS_HI (R158, spec/06_surfaces_and_seedbed.md) -/
def ING_POOL_WORDS_HI_COUNT_HI : Fld := ⟨0x058, 15, 0, .ro, false, false, some 0x0, []⟩
/-! SCN_V0 (R233, spec/09_scanout.md) -/
def SCN_V0_ACTIVE : Fld := ⟨0x048, 12, 0, .rws, false, false, some 0x0, []⟩
def SCN_V0_FP : Fld := ⟨0x048, 28, 16, .rws, false, false, some 0x0, []⟩
/-! SCN_V1 (R233, spec/09_scanout.md) -/
def SCN_V1_SYNC : Fld := ⟨0x04C, 12, 0, .rws, false, false, some 0x0, []⟩
def SCN_V1_BP : Fld := ⟨0x04C, 28, 16, .rws, false, false, some 0x0, []⟩
/-! PIPE_OMTX0 (R186, spec/07_composition.md) -/
def PIPE_OMTX0_C00 : Fld := ⟨0x080, 15, 0, .rws, false, false, some 0x1000, []⟩
def PIPE_OMTX0_C01 : Fld := ⟨0x080, 31, 16, .rws, false, false, some 0x0, []⟩
/-! PIPE_OMTX1 (R186, spec/07_composition.md) -/
def PIPE_OMTX1_C02 : Fld := ⟨0x084, 15, 0, .rws, false, false, some 0x0, []⟩
def PIPE_OMTX1_C10 : Fld := ⟨0x084, 31, 16, .rws, false, false, some 0x0, []⟩
/-! PIPE_OMTX2 (R186, spec/07_composition.md) -/
def PIPE_OMTX2_C11 : Fld := ⟨0x088, 15, 0, .rws, false, false, some 0x1000, []⟩
def PIPE_OMTX2_C12 : Fld := ⟨0x088, 31, 16, .rws, false, false, some 0x0, []⟩
/-! PIPE_OMTX3 (R186, spec/07_composition.md) -/
def PIPE_OMTX3_C20 : Fld := ⟨0x08C, 15, 0, .rws, false, false, some 0x0, []⟩
def PIPE_OMTX3_C21 : Fld := ⟨0x08C, 31, 16, .rws, false, false, some 0x0, []⟩
/-! PIPE_OMTX4 (R186, spec/07_composition.md) -/
def PIPE_OMTX4_C22 : Fld := ⟨0x090, 15, 0, .rws, false, false, some 0x1000, []⟩
/-! PIPE_OMTX5 (R186, spec/07_composition.md) -/
def PIPE_OMTX5_O0 : Fld := ⟨0x094, 17, 0, .rws, false, false, some 0x0, []⟩
/-! PIPE_OMTX6 (R186, spec/07_composition.md) -/
def PIPE_OMTX6_O1 : Fld := ⟨0x098, 17, 0, .rws, false, false, some 0x0, []⟩
/-! PIPE_OMTX7 (R186, spec/07_composition.md) -/
def PIPE_OMTX7_O2 : Fld := ⟨0x09C, 17, 0, .rws, false, false, some 0x0, []⟩
/-! SLOT_IMTX0 (R186, spec/07_composition.md) -/
def SLOT_IMTX0_C00 : Fld := ⟨0x080, 15, 0, .rws, false, false, some 0x1000, []⟩
def SLOT_IMTX0_C01 : Fld := ⟨0x080, 31, 16, .rws, false, false, some 0x0, []⟩
/-! SLOT_IMTX1 (R186, spec/07_composition.md) -/
def SLOT_IMTX1_C02 : Fld := ⟨0x084, 15, 0, .rws, false, false, some 0x0, []⟩
def SLOT_IMTX1_C10 : Fld := ⟨0x084, 31, 16, .rws, false, false, some 0x0, []⟩
/-! SLOT_IMTX2 (R186, spec/07_composition.md) -/
def SLOT_IMTX2_C11 : Fld := ⟨0x088, 15, 0, .rws, false, false, some 0x1000, []⟩
def SLOT_IMTX2_C12 : Fld := ⟨0x088, 31, 16, .rws, false, false, some 0x0, []⟩
/-! SLOT_IMTX3 (R186, spec/07_composition.md) -/
def SLOT_IMTX3_C20 : Fld := ⟨0x08C, 15, 0, .rws, false, false, some 0x0, []⟩
def SLOT_IMTX3_C21 : Fld := ⟨0x08C, 31, 16, .rws, false, false, some 0x0, []⟩
/-! SLOT_IMTX4 (R186, spec/07_composition.md) -/
def SLOT_IMTX4_C22 : Fld := ⟨0x090, 15, 0, .rws, false, false, some 0x1000, []⟩
/-! SLOT_IMTX5 (R186, spec/07_composition.md) -/
def SLOT_IMTX5_O0 : Fld := ⟨0x094, 17, 0, .rws, false, false, some 0x0, []⟩
/-! SLOT_IMTX6 (R186, spec/07_composition.md) -/
def SLOT_IMTX6_O1 : Fld := ⟨0x098, 17, 0, .rws, false, false, some 0x0, []⟩
/-! SLOT_IMTX7 (R186, spec/07_composition.md) -/
def SLOT_IMTX7_O2 : Fld := ⟨0x09C, 17, 0, .rws, false, false, some 0x0, []⟩
/-! SLOT_GMTX0 (R186, spec/07_composition.md) -/
def SLOT_GMTX0_C00 : Fld := ⟨0x0A0, 15, 0, .rws, false, false, some 0x1000, []⟩
def SLOT_GMTX0_C01 : Fld := ⟨0x0A0, 31, 16, .rws, false, false, some 0x0, []⟩
/-! SLOT_GMTX1 (R186, spec/07_composition.md) -/
def SLOT_GMTX1_C02 : Fld := ⟨0x0A4, 15, 0, .rws, false, false, some 0x0, []⟩
def SLOT_GMTX1_C10 : Fld := ⟨0x0A4, 31, 16, .rws, false, false, some 0x0, []⟩
/-! SLOT_GMTX2 (R186, spec/07_composition.md) -/
def SLOT_GMTX2_C11 : Fld := ⟨0x0A8, 15, 0, .rws, false, false, some 0x1000, []⟩
def SLOT_GMTX2_C12 : Fld := ⟨0x0A8, 31, 16, .rws, false, false, some 0x0, []⟩
/-! SLOT_GMTX3 (R186, spec/07_composition.md) -/
def SLOT_GMTX3_C20 : Fld := ⟨0x0AC, 15, 0, .rws, false, false, some 0x0, []⟩
def SLOT_GMTX3_C21 : Fld := ⟨0x0AC, 31, 16, .rws, false, false, some 0x0, []⟩
/-! SLOT_GMTX4 (R186, spec/07_composition.md) -/
def SLOT_GMTX4_C22 : Fld := ⟨0x0B0, 15, 0, .rws, false, false, some 0x1000, []⟩
/-! SLOT_GMTX5 (R186, spec/07_composition.md) -/
def SLOT_GMTX5_O0 : Fld := ⟨0x0B4, 17, 0, .rws, false, false, some 0x0, []⟩
/-! SLOT_GMTX6 (R186, spec/07_composition.md) -/
def SLOT_GMTX6_O1 : Fld := ⟨0x0B8, 17, 0, .rws, false, false, some 0x0, []⟩
/-! SLOT_GMTX7 (R186, spec/07_composition.md) -/
def SLOT_GMTX7_O2 : Fld := ⟨0x0BC, 17, 0, .rws, false, false, some 0x0, []⟩
/-! CHK_OWNER (R262, spec/11_check_values.md) -/
def CHK_OWNER_WORLD : Fld := ⟨0x100, 31, 31, .rw, false, true, none, [(16, 0xC0)]⟩
def CHK_OWNER_FUNCTION : Fld := ⟨0x100, 23, 16, .rw, false, true, none, [(16, 0xC0)]⟩
def CHK_OWNER_CRIT : Fld := ⟨0x100, 13, 12, .rw, false, true, none, [(16, 0xC0)]⟩
def CHK_OWNER_DELEGATE : Fld := ⟨0x100, 8, 8, .rw, false, true, none, [(16, 0xC0)]⟩
def CHK_OWNER_FRAME : Fld := ⟨0x100, 3, 0, .rw, false, true, none, [(16, 0xC0)]⟩
/-! POOL_BS (R44, spec/02_register_pages.md) -/
def POOL_BS_FILL_ACTIVE : Fld := ⟨0x00C, 16, 16, .ro, false, false, some 0x0, []⟩
/-! HP_BS (R44, spec/02_register_pages.md) -/
def HP_BS_LINK_UP : Fld := ⟨0x00C, 16, 16, .ro, false, false, some 0x0, []⟩
/-! ING_BS (R44, spec/02_register_pages.md) -/
def ING_BS_ACTIVE : Fld := ⟨0x00C, 19, 16, .ro, false, false, some 0x0, []⟩
def ING_BS_QUEUED : Fld := ⟨0x00C, 26, 20, .ro, false, false, some 0x0, []⟩
/-! PIPE_BS (R44, spec/02_register_pages.md) -/
def PIPE_BS_COMPOSING : Fld := ⟨0x00C, 16, 16, .ro, false, false, some 0x0, []⟩
/-! SLOT_BS (R44, spec/02_register_pages.md) -/
def SLOT_BS_LIVE : Fld := ⟨0x00C, 16, 16, .ro, false, false, some 0x0, []⟩
/-! SCN_BS (R44, spec/02_register_pages.md) -/
def SCN_BS_RUNNING : Fld := ⟨0x00C, 16, 16, .ro, false, false, some 0x0, []⟩
def SCN_BS_PLL_LOCKED : Fld := ⟨0x00C, 17, 17, .ro, false, false, some 0x0, []⟩
def SCN_BS_IN_HEADLAND : Fld := ⟨0x00C, 18, 18, .ro, false, false, some 0x0, []⟩
def SCN_BS_VRR_WAIT : Fld := ⟨0x00C, 19, 19, .ro, false, false, some 0x0, []⟩
/-! DPL_BS (R44, spec/02_register_pages.md) -/
def DPL_BS_HPD : Fld := ⟨0x00C, 16, 16, .ro, false, false, some 0x0, []⟩
def DPL_BS_TRAINED : Fld := ⟨0x00C, 17, 17, .ro, false, false, some 0x0, []⟩
def DPL_BS_VIDEO : Fld := ⟨0x00C, 18, 18, .ro, false, false, some 0x0, []⟩
def DPL_BS_REPLAY : Fld := ⟨0x00C, 19, 19, .ro, false, false, some 0x0, []⟩
def DPL_BS_DSC_ACTIVE : Fld := ⟨0x00C, 20, 20, .ro, false, false, some 0x0, []⟩
/-! CVU_BS (R44, spec/02_register_pages.md) -/
def CVU_BS_ACTIVE : Fld := ⟨0x00C, 19, 16, .ro, false, false, some 0x0, []⟩
def CVU_BS_QUEUED : Fld := ⟨0x00C, 25, 20, .ro, false, false, some 0x0, []⟩
/-! CHK_BS (R44, spec/02_register_pages.md) -/
def CHK_BS_CHECKING : Fld := ⟨0x00C, 16, 16, .ro, false, false, some 0x0, []⟩
/-! DMC_BS (R44, spec/02_register_pages.md) -/
def DMC_BS_STATE : Fld := ⟨0x00C, 18, 16, .ro, false, false, some 0x0, []⟩
def DMC_BS_REF_MULT : Fld := ⟨0x00C, 20, 19, .ro, false, false, some 0x0, []⟩
/-! EDAC_BS (R44, spec/02_register_pages.md) -/
def EDAC_BS_RETIRING : Fld := ⟨0x00C, 16, 16, .ro, false, false, some 0x0, []⟩
/-! TCH_BS (R44, spec/02_register_pages.md) -/
def TCH_BS_SCANNING : Fld := ⟨0x00C, 19, 16, .ro, false, false, some 0x0, []⟩
def TCH_BS_CHARGER : Fld := ⟨0x00C, 20, 20, .ro, false, false, some 0x0, []⟩
/-! HAP_BS (R44, spec/02_register_pages.md) -/
def HAP_BS_RUN : Fld := ⟨0x00C, 23, 16, .ro, false, false, some 0x0, []⟩
/-! AUD0_BS (R44, spec/02_register_pages.md) -/
def AUD0_BS_LOCKED : Fld := ⟨0x00C, 18, 16, .ro, false, false, some 0x0, []⟩
/-! PLK_BS (R44, spec/02_register_pages.md) -/
def PLK_BS_STATE : Fld := ⟨0x00C, 18, 16, .ro, false, false, some 0x0, []⟩
/-! PWR_BS (R44, spec/02_register_pages.md) -/
def PWR_BS_STATE : Fld := ⟨0x00C, 18, 16, .ro, false, false, some 0x0, []⟩
/-! AON_BS (R44, spec/02_register_pages.md) -/
def AON_BS_VHOLD_OK : Fld := ⟨0x00C, 16, 16, .ro, false, false, some 0x0, []⟩
def AON_BS_VSAG : Fld := ⟨0x00C, 17, 17, .ro, false, false, some 0x0, []⟩
def AON_BS_WAKE_IN : Fld := ⟨0x00C, 18, 18, .ro, false, false, some 0x0, []⟩
def AON_BS_MOTION_IN : Fld := ⟨0x00C, 19, 19, .ro, false, false, some 0x0, []⟩
/-! TIM_BS (R44, spec/02_register_pages.md) -/
def TIM_BS_BRIDGED : Fld := ⟨0x00C, 16, 16, .ro, false, false, some 0x0, []⟩
def TIM_BS_DISCIPLINED : Fld := ⟨0x00C, 17, 17, .ro, false, false, some 0x0, []⟩
/-! AGE_BS (R44, spec/02_register_pages.md) -/
def AGE_BS_SURVEYING : Fld := ⟨0x00C, 16, 16, .ro, false, false, some 0x0, []⟩
def AGE_BS_APPLYING : Fld := ⟨0x00C, 17, 17, .ro, false, false, some 0x0, []⟩
def AGE_BS_REDUCED : Fld := ⟨0x00C, 18, 18, .ro, false, false, some 0x0, []⟩
def AGE_BS_PROJECTED : Fld := ⟨0x00C, 19, 19, .ro, false, false, some 0x0, []⟩
/-! UPD_BS (R44, spec/02_register_pages.md) -/
def UPD_BS_STATE : Fld := ⟨0x00C, 18, 16, .ro, false, false, some 0x0, []⟩
/-! SYS_BS (R44, spec/02_register_pages.md) -/
def SYS_BS_PHASE : Fld := ⟨0x00C, 19, 16, .ro, false, false, some 0x0, []⟩

end F

/-- The fields of the header that every page opens with (R44). -/
def fldsHDR : List Fld :=
  [F.PG_ID_KIND, F.PG_ID_INSTANCE, F.PG_ID_LAYOUT, F.PG_CAP_WIDE, F.PG_CAP_SHADOWED, F.PG_CAP_DELEGABLE, F.PG_CAP_LOCKABLE, F.PG_CAP_BLOCK_CAP, F.PG_CTRL_ENABLE, F.PG_CTRL_SOFT_RESET, F.PG_CTRL_LOCK, F.PG_CTRL_UNLOCK, F.PG_STAT_ENABLED, F.PG_STAT_BUSY, F.PG_STAT_LOCKED, F.PG_STAT_ERR, F.PG_STAT_DELEGATED, F.PG_STAT_SECURE_OWNED, F.PG_STAT_CRIT, F.PG_STAT_OWN_FN, F.PG_STAT_BLOCK_STAT, F.EVT_RAW_ERR, F.EVT_RAW_BLOCK_EVT, F.EVT_EN_EN, F.EVT_PEND_PEND, F.EVT_SET_SET, F.ERR_CODE_CODE, F.ERR_CODE_OVERFLOW, F.ERR_CODE_CLEAR, F.ERR_INFO_INFO, F.SHADOW_CTRL_GROUP, F.SHADOW_CTRL_DIRTY, F.SHADOW_CTRL_ARMED, F.SHADOW_CTRL_DISCARD, F.OWNER_WORLD, F.OWNER_FUNCTION, F.OWNER_CRIT, F.OWNER_DELEGATE, F.OWNER_FRAME, F.EVT_ROUTE_EN] ++
  [F.EVT_ROUTE_FUNCTION, F.EVT_ROUTE_VECTOR]

/-- The fields of the CHN page table. -/
def fldsCHN : List Fld :=
  [F.CHN_LIVE_OPEN, F.CHN_LIVE_DRAINING, F.CHN_SEL_INDEX, F.CHN_HANDLE_HANDLE, F.CHN_INFO_STATE, F.CHN_INFO_FUNCTION, F.CHN_INFO_BUFFERS, F.CHN_PLOTS_PLOTS, F.CHN_FN_SEL_FUNCTION, F.CHN_FN_LIMIT_LIMIT, F.CHN_FN_LIMIT_COUNT]

/-- The fields of the POOL page table. -/
def fldsPOOL : List Fld :=
  [F.POOL_BASE_LO_BASE_LO, F.POOL_BASE_HI_BASE_HI, F.POOL_PLOTS_PLOTS, F.POOL_FREE_FREE, F.POOL_LIVE_BUF_LIVE, F.POOL_OWED_OWED, F.POOL_LOW_MARK_MARK, F.POOL_FN_SEL_FUNCTION, F.POOL_FN_QUOTA_QUOTA, F.POOL_FN_SHARE_SHARE, F.POOL_FN_USED_USED, F.POOL_FN_PEAK_PEAK, F.POOL_FN_PEAK_CLEAR, F.POOL_BUF_SEL_INDEX, F.POOL_BUF_HANDLE_HANDLE, F.POOL_BUF_INFO_STATE, F.POOL_BUF_INFO_FUNCTION, F.POOL_BUF_INFO_FENCES, F.POOL_BUF_CHANNEL_CHANNEL, F.POOL_BUF_PLOTS_PLOTS, F.POOL_FILL_ALWAYS, F.POOL_FILLED_COUNT, F.POOL_RETIRED_RETIRED, F.POOL_BS_FILL_ACTIVE]

/-- The fields of the WLD page table. -/
def fldsWLD : List Fld :=
  [F.WLD_WMARK_LO_WMARK_LO, F.WLD_WMARK_HI_WMARK_HI, F.WLD_WMARK_HI_SET, F.WLD_DENY_COUNT_COUNT, F.WLD_DENY_ATTR_FUNCTION, F.WLD_DENY_ATTR_WORLD, F.WLD_DENY_ATTR_CRIT, F.WLD_DENY_ATTR_WRITE, F.WLD_DENY_ATTR_TARGET, F.WLD_DENY_ATTR_VALID, F.WLD_DENY_ATTR_CLEAR, F.WLD_DENY_ADDR_LO_ADDR_LO, F.WLD_DENY_ADDR_HI_ADDR_HI, F.WLD_GATE_STAT_IN_SECURE, F.WLD_GATE_COUNT_COUNT, F.WLD_HOLD_HOLD, F.WLD_HOLD_STAT_HELD]

/-- The fields of the OWN page table. -/
def fldsOWN : List Fld :=
  [F.OWN_TABLE_LO_BASE_LO, F.OWN_TABLE_HI_BASE_HI, F.OWN_HITS_COUNT, F.OWN_MISSES_COUNT, F.OWN_FN_SEL_FUNCTION, F.OWN_FN_CRIT_CRIT, F.OWN_PLOT_SEL_PLOT, F.OWN_PLOT_ENTRY_ENTRY, F.OWN_APPLET_LOADED, F.OWN_APPLET_RUNNING, F.OWN_APPLET_REJECT, F.OWN_APPLET_SIZE_KIB, F.OWN_KEY_FUSED]

/-- The fields of the PMC page table. -/
def fldsPMC : List Fld :=
  [F.PMC_CTRL_RUN, F.PMC_CTRL_CLEAR, F.PMC_STAT_FROZEN_CORE, F.PMC_SEL_EVENT, F.PMC_SEL_FUNCTION, F.PMC_SEL_FN_FILTER, F.PMC_CNT_LO_COUNT_LO, F.PMC_CNT_HI_COUNT_HI]

/-- The fields of the Q page table. -/
def fldsQ : List Fld :=
  [F.Q_SQ_BASE_LO_BASE_LO, F.Q_SQ_BASE_HI_BASE_HI, F.Q_SIZE_SQ_ENTRIES, F.Q_SIZE_CQ_ENTRIES, F.Q_CTRL_ENABLE, F.Q_CTRL_VECTOR, F.Q_CTRL_COAL_COUNT, F.Q_CTRL_COAL_TIME, F.Q_STAT_STATE, F.Q_STAT_SQ_HEAD, F.Q_STAT_CQ_TAIL, F.Q_STAT_PHASE, F.Q_SQ_DB_TAIL, F.Q_CQ_DB_HEAD, F.Q_CQ_BASE_LO_BASE_LO, F.Q_CQ_BASE_HI_BASE_HI]

/-- The fields of the VF page table. -/
def fldsVF : List Fld :=
  [F.VF_INFO_FUNCTION, F.VF_INFO_PAIR_ROLE, F.VF_INFO_CRIT, F.VF_INFO_HELD_STATE]

/-- The fields of the HP page table. -/
def fldsHP : List Fld :=
  [F.HP_LINK_SPEED, F.HP_LINK_WIDTH, F.HP_LINK_ASPM, F.HP_LINK_DOWNS_COUNT, F.HP_SRIOV_NUM_VFS, F.HP_SRIOV_VF_ENABLE, F.HP_MGR_ROLE, F.HP_HOST_RID_RID, F.HP_HOST_RID_VALID, F.HP_PEER_DROP_COUNT, F.HP_FN_SEL_FUNCTION, F.HP_FN_STAT_STATE, F.HP_FN_STAT_BME, F.HP_FN_STAT_HELD_STATE, F.HP_FN_STAT_QUEUES, F.HP_FN_WEIGHT_WEIGHT, F.HP_FN_RESET_INFO_CAUSE, F.HP_FN_RESET_INFO_SQUASHED, F.HP_FN_RESET_TIME_TIME_US, F.HP_PF_RESET_START, F.HP_BS_LINK_UP]

/-- The fields of the ING page table. -/
def fldsING : List Fld :=
  [F.ING_CTRL_READ_SIZE, F.ING_CTRL_MAX_READS, F.ING_TILES_LO_COUNT_LO, F.ING_TILES_HI_COUNT_HI, F.ING_MODE_COUNT, F.ING_ERR_ADDR_LO_ADDR_LO, F.ING_ERR_ADDR_HI_ADDR_HI, F.ING_SLOT_SEL_SLOT, F.ING_SLOT_INFO_STATE, F.ING_SLOT_INFO_FUNCTION, F.ING_SLOT_INFO_FORMAT, F.ING_SLOT_INFO_SEEDBED, F.ING_SLOT_BUF_BUFFER, F.ING_SLOT_DONE_TILES, F.ING_HOST_BYTES_LO_COUNT_LO, F.ING_HOST_BYTES_HI_COUNT_HI, F.ING_POOL_WORDS_LO_COUNT_LO, F.ING_POOL_WORDS_HI_COUNT_HI, F.ING_BS_ACTIVE, F.ING_BS_QUEUED]

/-- The fields of the PIPE page table. -/
def fldsPIPE : List Fld :=
  [F.PIPE_CTRL_DEPTH8, F.PIPE_CTRL_REGAMMA_EN, F.PIPE_CTRL_OMTX_EN, F.PIPE_BG_RG_BG_R, F.PIPE_BG_RG_BG_G, F.PIPE_BG_B_BG_B, F.PIPE_SCALERS_SLOT_0, F.PIPE_SCALERS_SLOT_1, F.PIPE_SCALERS_SLOT_2, F.PIPE_SCALERS_SLOT_3, F.PIPE_SCALERS_VALID_0, F.PIPE_SCALERS_VALID_1, F.PIPE_SCALERS_VALID_2, F.PIPE_SCALERS_VALID_3, F.PIPE_SPANS_2P_COUNT, F.PIPE_ELIM_COUNT, F.PIPE_FRAMES_COUNT, F.PIPE_LUT_ADDR_INDEX, F.PIPE_LUT_ADDR_CHANNEL, F.PIPE_LUT_DATA_ENTRY, F.PIPE_SCL_ADDR_SCALER, F.PIPE_SCL_ADDR_DIR, F.PIPE_SCL_ADDR_PHASE, F.PIPE_SCL_ADDR_HALF, F.PIPE_SCL_DATA_TAP_EVEN, F.PIPE_SCL_DATA_TAP_ODD, F.KO_POS_X, F.KO_POS_Y, F.KO_SIZE_W, F.KO_SIZE_H, F.KO_CTRL_SLOT, F.KO_CTRL_EN, F.PIPE_OMTX0_C00, F.PIPE_OMTX0_C01, F.PIPE_OMTX1_C02, F.PIPE_OMTX1_C10, F.PIPE_OMTX2_C11, F.PIPE_OMTX2_C12, F.PIPE_OMTX3_C20, F.PIPE_OMTX3_C21] ++
  [F.PIPE_OMTX4_C22, F.PIPE_OMTX5_O0, F.PIPE_OMTX6_O1, F.PIPE_OMTX7_O2, F.PIPE_BS_COMPOSING]

/-- The fields of the SLOT page table. -/
def fldsSLOT : List Fld :=
  [F.SLOT_CTRL_MODE, F.SLOT_CTRL_OPAQUE, F.SLOT_CTRL_SRC_SEL, F.SLOT_CTRL_IMTX_EN, F.SLOT_CTRL_DEGAMMA_EN, F.SLOT_CTRL_GMTX_EN, F.SLOT_CTRL_GS_IMAGE, F.SLOT_BUF_BUFFER, F.SLOT_FMT_FORMAT, F.SLOT_FMT_SEEDBED, F.SLOT_SURF_WIDTH, F.SLOT_SURF_HEIGHT, F.SLOT_CROP_POS_X, F.SLOT_CROP_POS_Y, F.SLOT_CROP_SIZE_W, F.SLOT_CROP_SIZE_H, F.SLOT_POS_X, F.SLOT_POS_Y, F.SLOT_SIZE_W, F.SLOT_SIZE_H, F.SLOT_ALPHA_PLANE_ALPHA, F.SLOT_COLOR_COLOR, F.SLOT_GS_COLOR_COLOR, F.SLOT_GS_BUF_BUFFER, F.SLOT_GS_SIZE_GS_W, F.SLOT_GS_SIZE_GS_H, F.SLOT_STAT_LIVE, F.SLOT_STAT_SCALED, F.SLOT_STAT_SCALER, F.SLOT_SUBST_SPANS, F.SLOT_LUT_ADDR_INDEX, F.SLOT_LUT_DATA_ENTRY, F.SLOT_PAL_COLOR, F.SLOT_IMTX0_C00, F.SLOT_IMTX0_C01, F.SLOT_IMTX1_C02, F.SLOT_IMTX1_C10, F.SLOT_IMTX2_C11, F.SLOT_IMTX2_C12, F.SLOT_IMTX3_C20] ++
  [F.SLOT_IMTX3_C21, F.SLOT_IMTX4_C22, F.SLOT_IMTX5_O0, F.SLOT_IMTX6_O1, F.SLOT_IMTX7_O2, F.SLOT_GMTX0_C00, F.SLOT_GMTX0_C01, F.SLOT_GMTX1_C02, F.SLOT_GMTX1_C10, F.SLOT_GMTX2_C11, F.SLOT_GMTX2_C12, F.SLOT_GMTX3_C20, F.SLOT_GMTX3_C21, F.SLOT_GMTX4_C22, F.SLOT_GMTX5_O0, F.SLOT_GMTX6_O1, F.SLOT_GMTX7_O2, F.SLOT_BS_LIVE]

/-- The fields of the SCN page table. -/
def fldsSCN : List Fld :=
  [F.SCN_H0_ACTIVE, F.SCN_H0_FP, F.SCN_H1_SYNC, F.SCN_H1_BP, F.SCN_PCLK_KHZ, F.SCN_MODE_VRR_EN, F.SCN_MODE_HSYNC_POS, F.SCN_MODE_VSYNC_POS, F.SCN_MODE_VTOTAL_MAX, F.SCN_GENLOCK_SRC, F.SCN_GENLOCK_EN, F.SCN_GENLOCK_OFFSET, F.SCN_SEQ_SEQ, F.SCN_SEQ_INIT_SEQ, F.SCN_POS_LINE, F.SCN_POS_CLOCK, F.SCN_LM0_LINE, F.SCN_LM0_EN, F.SCN_LM1_LINE, F.SCN_LM1_EN, F.SCN_CL3_RESERVE_GRANULES, F.SCN_CL3_RESERVE_BW, F.SCN_FS_GRANT_SHARED, F.SCN_FS_GRANT_CL3_USED, F.SCN_FS_FREE_FREE, F.SCN_SHED_CTRL_MARGIN_US, F.SCN_SHED_SPANS_COUNT, F.SCN_UNDERRUN_SPANS_COUNT, F.SCN_DROP_SPANS_COUNT, F.SCN_SHED_STAT_MAX_CLASS, F.SCN_SHED_STAT_ANY, F.SCN_GENLOCK_STAT_LOCKED, F.SCN_GENLOCK_STAT_ERROR, F.SCN_LAST_VTOTAL_LINES, F.SCN_CREDIT_MIN_CLOCKS, F.SCN_V0_ACTIVE, F.SCN_V0_FP, F.SCN_V1_SYNC, F.SCN_V1_BP, F.SCN_BS_RUNNING] ++
  [F.SCN_BS_PLL_LOCKED, F.SCN_BS_IN_HEADLAND, F.SCN_BS_VRR_WAIT]

/-- The fields of the DPL page table. -/
def fldsDPL : List Fld :=
  [F.DPL_CTRL_EDP, F.DPL_CTRL_LANES, F.DPL_CTRL_MAX_RATE, F.DPL_CTRL_DSC_MODE, F.DPL_CTRL_PR_EN, F.DPL_CTRL_PSR2_EN, F.DPL_CTRL_AUTO_TRAIN, F.DPL_CTRL_COLORIMETRY, F.DPL_CTRL_STATIC_FRAMES, F.DPL_DSC_BPP_X16, F.DPL_DSC_SLICES, F.DPL_DSC_SLICE_H, F.DPL_LINK_RATE, F.DPL_LINK_LANES, F.DPL_LINK_FEC, F.DPL_LINK_TRAINED, F.DPL_LINK_DSC, F.DPL_SINK_MAX_RATE, F.DPL_SINK_MAX_LANES, F.DPL_SINK_DSC, F.DPL_SINK_PR, F.DPL_SINK_PSR2, F.DPL_SINK_VRR, F.DPL_SINK_MAX_SLICE_W, F.DPL_TRAIN_FAILS_COUNT, F.DPL_LOCK_LOSS_COUNT, F.DPL_AUX_ADDR_ADDR, F.DPL_AUX_ADDR_REQ, F.DPL_AUX_CTRL_LEN, F.DPL_AUX_CTRL_GO, F.DPL_AUX_STAT_STATE, F.DPL_AUX_STAT_REPLY, F.DPL_AUX_STAT_BYTES, F.DPL_AUX_STAT_DEFERS, F.DPL_AUX_STAT_TIMEOUTS, F.DPL_AUX_DATA_DATA, F.DPL_PPS_ADDR_WORD, F.DPL_PPS_DATA_DATA, F.DPL_BS_HPD, F.DPL_BS_TRAINED] ++
  [F.DPL_BS_VIDEO, F.DPL_BS_REPLAY, F.DPL_BS_DSC_ACTIVE]

/-- The fields of the CVU page table. -/
def fldsCVU : List Fld :=
  [F.CVU_CTRL_RATE, F.CVU_BYTES_LO_COUNT_LO, F.CVU_BYTES_HI_COUNT_HI, F.CVU_CMDS_COUNT, F.CVU_SLOT_SEL_SLOT, F.CVU_SLOT_INFO_STATE, F.CVU_SLOT_INFO_POLY, F.CVU_SLOT_INFO_FUNCTION, F.CVU_SLOT_INFO_ADDR_MODE, F.CVU_SLOT_SRC_SOURCE, F.CVU_SLOT_DONE_BYTES, F.CVU_BS_ACTIVE, F.CVU_BS_QUEUED]

/-- The fields of the CHK page table. -/
def fldsCHK : List Fld :=
  [F.CHK_SUMMARY_MISMATCH, F.CHK_SUMMARY_ACTIVE, F.CHK_SEQ_SEQ, F.CHK_CTRL_EN, F.CHK_CTRL_COMPARE, F.CHK_CTRL_ACTION, F.CHK_CTRL_LIMIT, F.CHK_POS_X, F.CHK_POS_Y, F.CHK_SIZE_W, F.CHK_SIZE_H, F.CHK_EXPECT_E0, F.CHK_LAST_V, F.CHK_LAST_SEQ_SEQ, F.CHK_STAT_RESULT, F.CHK_STAT_RUN, F.CHK_MATCHES_COUNT, F.CHK_MISMATCHES_COUNT, F.CHK_FIRST_BAD_SEQ, F.CHK_EVT_RAW_MISMATCH, F.CHK_EVT_RAW_ACTED, F.CHK_EVT_EN_EN, F.CHK_ROUTE_VECTOR, F.CHK_ROUTE_FUNCTION, F.CHK_ROUTE_EN, F.CHK_OWNER_WORLD, F.CHK_OWNER_FUNCTION, F.CHK_OWNER_CRIT, F.CHK_OWNER_DELEGATE, F.CHK_OWNER_FRAME, F.CHK_BS_CHECKING]

/-- The fields of the DMC page table. -/
def fldsDMC : List Fld :=
  [F.DMC_CFG_DENSITY, F.DMC_CFG_RANKS, F.DMC_CFG_RATE, F.DMC_STAT_INIT, F.DMC_STAT_RQ_LEVEL, F.DMC_STAT_WQ_LEVEL, F.DMC_STAT_DRAIN, F.DMC_PORT_SEL_PORT, F.DMC_PORT_TARGET_TARGET, F.DMC_PORT_TARGET_ALL, F.DMC_PORT_LATE_COUNT, F.DMC_PORT_MAXLAT_LAT, F.DMC_PORT_MAXLAT_CLEAR, F.DMC_WDRAIN_HIGH, F.DMC_WDRAIN_LOW, F.DMC_REF_CTRL_POSTPONE_MAX, F.DMC_REF_CTRL_MR4_POLL, F.DMC_REF_STAT_DEBT, F.DMC_REF_STAT_DEBT_MAX, F.DMC_REF_STAT_CLEAR, F.DMC_REF_COUNT_COUNT, F.DMC_REF_FORCED_COUNT, F.DMC_TRAIN_CTRL_INTERVAL, F.DMC_TRAIN_CTRL_TEMP_STEP, F.DMC_TRAIN_CTRL_START, F.DMC_TRAIN_STAT_COUNT, F.DMC_TRAIN_STAT_NO_WINDOW, F.DMC_TRAIN_STAT_DEGRADED, F.DMC_TRAIN_LAST_PAUSE_NS, F.DMC_TRAIN_LAST_READ_EYE, F.DMC_TRAIN_LAST_WRITE_EYE, F.DMC_PASR_KEEP, F.DMC_PASR_KEPT, F.DMC_RD_BURSTS_COUNT, F.DMC_WR_BURSTS_COUNT, F.DMC_BS_STATE, F.DMC_BS_REF_MULT]

/-- The fields of the EDAC page table. -/
def fldsEDAC : List Fld :=
  [F.EDAC_CTRL_POISON_EN, F.EDAC_CTRL_REGIONS_SET, F.EDAC_CE_COUNT_COUNT, F.EDAC_UE_COUNT_COUNT, F.EDAC_POISON_READS_COUNT, F.EDAC_CE_THRESH_THRESH, F.EDAC_CE_THRESH_WINDOW, F.EDAC_SRAM_CE, F.EDAC_SRAM_UE, F.EDAC_LOG_STAT_COUNT, F.EDAC_LOG_STAT_LOST, F.EDAC_LOG_CTRL_RELEASE, F.EDAC_LOG_CTRL_CLEAR_ALL, F.EDAC_LOG_SEL_INDEX, F.EDAC_LOG_W0_ADDR_LO, F.EDAC_LOG_W1_ADDR_HI, F.EDAC_LOG_W1_CH, F.EDAC_LOG_W1_RANK, F.EDAC_LOG_W1_BANK, F.EDAC_LOG_W1_KIND, F.EDAC_LOG_W1_PORT, F.EDAC_LOG_W1_FUNCTION, F.EDAC_LOG_W1_WORLD, F.EDAC_LOG_W1_STRONG, F.EDAC_LOG_W1_LATENT, F.EDAC_LOG_W2_ROW, F.EDAC_LOG_W2_POSITION, F.EDAC_LOG_W2_REPEAT, F.EDAC_LOG_W3_TIME, F.EDAC_RETIRE_PLOT_PLOT, F.EDAC_RETIRE_PLOT_PERSIST, F.EDAC_RETIRE_BANK_CH, F.EDAC_RETIRE_BANK_RANK, F.EDAC_RETIRE_BANK_BANK, F.EDAC_RETIRE_BANK_PERSIST, F.EDAC_RETIRE_STAT_BANKS, F.EDAC_REG_BASE_BASE, F.EDAC_REG_SIZE_SIZE, F.EDAC_REG_CHECK_CHECK_BASE, F.EDAC_REG_CTRL_CODE] ++
  [F.EDAC_BS_RETIRING]

/-- The fields of the TCH page table. -/
def fldsTCH : List Fld :=
  [F.TCH_CTRL_RATE_HZ, F.TCH_CTRL_AUTO_HOP, F.TCH_CTRL_CHARGER_EN, F.TCH_FREQ_F0, F.TCH_FREQ_F1, F.TCH_FREQ_F2, F.TCH_FREQ_F3, F.TCH_NOISE_HOP_THRESH, F.TCH_NOISE_CHARGER_THRESH, F.TCH_STAT_RATE_ACT, F.TCH_STAT_FREQ, F.TCH_STAT_CHARGER, F.TCH_STAT_NOISE, F.TCH_FRAME_TIME_US, F.TCH_FRAMES_COUNT, F.TCH_NODE_ADDR_DRIVE, F.TCH_NODE_ADDR_SENSE, F.TCH_NODE_ADDR_PANEL, F.TCH_NODE_ADDR_FIELD, F.TCH_NODE_DATA_DATA, F.TCH_P_CFG_EN, F.TCH_P_CFG_MODE, F.TCH_P_CFG_SWAP_XY, F.TCH_P_CFG_FLIP_X, F.TCH_P_CFG_FLIP_Y, F.TCH_P_CFG_REF_EN, F.TCH_P_CFG_CAPTURE_REF, F.TCH_P_LINES_DRV_FIRST, F.TCH_P_LINES_DRV_COUNT, F.TCH_P_LINES_SNS_FIRST, F.TCH_P_LINES_SNS_COUNT, F.TCH_P_SCAN_CYCLES, F.TCH_P_RES_X_RES, F.TCH_P_RES_Y_RES, F.TCH_P_THRESH_TOUCH_THRESH, F.TCH_P_THRESH_LIFT_THRESH, F.TCH_P_BASE0_NEG_THRESH, F.TCH_P_BASE0_NOISE_THRESH, F.TCH_P_BASE0_DRIFT_FRAMES, F.TCH_P_BASE1_NEG_FRAMES] ++
  [F.TCH_P_BASE1_DEBOUNCE, F.TCH_P_BASE1_HOLD_LIMIT, F.TCH_P_TRACK_MAX_TOUCHES, F.TCH_P_TRACK_MAX_MOVE, F.TCH_P_TRACK_LARGE_NODES, F.TCH_P_BUF_BUFFER, F.TCH_P_HOST_LO_BASE_LO, F.TCH_P_HOST_HI_BASE_HI, F.TCH_P_HOST_SLOTS_SLOTS, F.TCH_P_ROUTE_VECTOR, F.TCH_P_ROUTE_FUNCTION, F.TCH_P_ROUTE_EN, F.TCH_P_STAT_STATE, F.TCH_P_STAT_CONTACTS, F.TCH_P_STAT_UNBOUND, F.TCH_P_STAT_NO_REF, F.TCH_P_STAT_BAD, F.TCH_P_SEQ_SEQ, F.TCH_P_HOST_SKIP_COUNT, F.TCH_BS_SCANNING, F.TCH_BS_CHARGER]

/-- The fields of the HAP page table. -/
def fldsHAP : List Fld :=
  [F.HAP_CTRL_PWM_KHZ, F.HAP_CTRL_DEAD_NS, F.HAP_RULE_STAT_USED, F.HAP_RULE_STAT_CLIP_FREE, F.HAP_RULE_SEL_INDEX, F.HAP_RULE_INFO_VALID, F.HAP_RULE_INFO_PANEL, F.HAP_RULE_INFO_CHANNEL, F.HAP_RULE_INFO_EVENTS, F.HAP_RULE_INFO_PRIORITY, F.HAP_RULE_INFO_FUNCTION, F.HAP_RULE_FIRES_COUNT, F.HAP_H_CTRL_EN, F.HAP_H_CTRL_CAL_START, F.HAP_H_CTRL_FUNCTION, F.HAP_H_GAIN0_KP, F.HAP_H_GAIN0_KI, F.HAP_H_GAIN1_KF, F.HAP_H_GAIN1_KB, F.HAP_H_PHASE_START_GAIN, F.HAP_H_PHASE_START_PERIODS, F.HAP_H_PHASE_BRAKE_MAX, F.HAP_H_LIMIT_I_LIMIT, F.HAP_H_LIMIT_I_FAULT, F.HAP_H_SENSE_ACC_SCALE, F.HAP_H_SENSE_BRAKE_THRESH, F.HAP_H_SENSE_ACC_INV, F.HAP_H_CALCFG_F_LO, F.HAP_H_CALCFG_F_HI, F.HAP_H_CALCFG_CAL_LEVEL, F.HAP_H_STAT_STATE, F.HAP_H_STAT_PRIORITY, F.HAP_H_STAT_SOURCE, F.HAP_H_STAT_FAULT_REASON, F.HAP_H_STAT_FUNCTION, F.HAP_H_CAL_F_RES, F.HAP_H_CAL_G, F.HAP_H_COUNTS_STARTED, F.HAP_H_COUNTS_PREEMPTED, F.HAP_H_COUNTS_DROPPED] ++
  [F.HAP_H_LAT_LAST, F.HAP_H_LAT_MAX, F.HAP_BS_RUN]

/-- The fields of the AUD0 page table. -/
def fldsAUD0 : List Fld :=
  [F.AUD_DOM_SOURCE, F.AUD_DOM_LOCKED, F.AUD_DOM_HOLDOVER, F.AUD_CTRL_XFADE, F.AUD_CTRL_APPLY, F.AUD_CTRL_ARMED, F.AUD_CTRL_XFADE_BUSY, F.AUD_BRIDGES_USED, F.AUD_ST_MIC, F.AUD_ST_PORT, F.AUD_ST_SLOT, F.AUD_ST_EN, F.AUD_ST_GAIN, F.AUD_TAP_BUS, F.AUD_TAP_EN, F.AUD0_BS_LOCKED]

/-- The fields of the AUD1 page table. -/
def fldsAUD1 : List Fld :=
  [F.TDM_CFG_EN, F.TDM_CFG_MASTER, F.TDM_CFG_I2S, F.TDM_CFG_BCLK_INV, F.TDM_CFG_DOMAIN, F.TDM_CFG_SLOTS, F.TDM_CFG_SLOT_BITS, F.TDM_STAT_RUNNING, F.TDM_STAT_CLOCK_LOST, F.TDM_STAT_SLIPS, F.PDM_CFG_EN]

/-- The fields of the AUD2 page table. -/
def fldsAUD2 : List Fld :=
  [F.STR_CFG_EN, F.STR_CFG_CAPTURE, F.STR_CFG_DOMAIN, F.STR_CFG_FORMAT, F.STR_CHANNEL_CHANNEL, F.STR_SRC_SOURCE, F.STR_STAT_QUEUED, F.STR_STAT_RUNNING, F.STR_STAT_MISSES]

/-- The fields of the AUD4 page table. -/
def fldsAUD4 : List Fld :=
  [F.BUS_CFG_EN, F.BUS_CFG_DOMAIN, F.BUS_CFG_BQ_EN, F.BUS_CFG_GAIN, F.BUS_LIMIT_THRESH, F.BUS_LIMIT_RELEASE, F.BUS_METER_PEAK, F.BUS_METER_LIMITED, F.BUS_IN_SOURCE, F.BUS_IN_GAIN, F.BUS_BQ_B0_COEF, F.BUS_BQ_B1_COEF, F.BUS_BQ_B2_COEF, F.BUS_BQ_A1_COEF, F.BUS_BQ_A2_COEF]

/-- The fields of the AUD7 page table. -/
def fldsAUD7 : List Fld :=
  [F.OUT_P_S_SOURCE]

/-- The fields of the AUD8 page table. -/
def fldsAUD8 : List Fld :=
  [F.AUD_BLOCKS_COUNT, F.AUD_BR_SOURCE, F.AUD_BR_FROM, F.AUD_BR_TO, F.AUD_BR_PRIMED, F.AUD_BR_VALID]

/-- The fields of the PLK page table. -/
def fldsPLK : List Fld :=
  [F.PLK_CFG_POSITION, F.PLK_CFG_APART_TAKEOVER, F.PLK_CFG_STATE_LIMIT, F.PLK_CFG_TIME_STEP_US, F.PLK_CTRL_HANDOVER, F.PLK_CTRL_RESYNC, F.PLK_CTRL_RETRAIN, F.PLK_CTRL_CLEAR_GUY_FAULT, F.PLK_STAT_STATE, F.PLK_STAT_LINK_UP, F.PLK_STAT_GUY_OUT, F.PLK_STAT_GUY_IN, F.PLK_STAT_GUY_FAULT, F.PLK_STAT_VERSION_DIFF, F.PLK_STAT_PARTNER_POSITION, F.PLK_STAT_PARTNER_STATE, F.PLK_STAT_LAST_REASON, F.PLK_STAT_WAKE_REASON, F.PLK_LINK_SPEED, F.PLK_LINK_WIDTH, F.PLK_PARTNER_FW_VERSION, F.PLK_TIME_OFFSET_NS, F.PLK_CRC_ERRS_COUNT, F.PLK_REPLAYS_COUNT, F.PLK_RECOVERIES_COUNT, F.PLK_MIRROR_QUEUED_BYTES, F.PLK_MIRROR_WORDS_LO_COUNT_LO, F.PLK_MIRROR_WORDS_HI_COUNT_HI, F.PLK_SYNC_PLOTS_LEFT, F.PLK_TAKEOVER_COUNT, F.PLK_TAKEOVER_LAST, F.PLK_SKEW_FRAMES_COUNT, F.PLK_FRAME_DIGEST_DIGEST, F.PLK_FRAME_SEQ_SEQ, F.PLK_FRAME_EXPLAINED_COUNT, F.PLK_FRAME_RUN_RUN, F.PLK_FRAME_RUN_TOTAL, F.PLK_BS_STATE]

/-- The fields of the PWR page table. -/
def fldsPWR : List Fld :=
  [F.PWR_REQ_TARGET, F.PWR_REQ_STAT_CODE, F.PWR_REQ_STAT_TARGET, F.PWR_REQ_STAT_BUSY, F.PWR_STAT_STATE, F.PWR_STAT_HOLD_READY, F.PWR_STAT_RESUMED, F.PWR_STAT_WAKE_FAIL_REASON, F.PWR_WAKE_EN_SOURCES, F.PWR_WAKE_CAUSE_SOURCES, F.PWR_WAKE_LIMIT_REG_MS, F.PWR_WAKE_LIMIT_CLK_MS, F.PWR_WAKE_LIMIT_RETRIES, F.PWR_IDLE_CFG_ALLOW_CL3, F.PWR_ISL_SEL_ISLAND, F.PWR_ISL_CTRL_GATE, F.PWR_ISL_CTRL_CLK_STOP, F.PWR_ISL_STAT_POWERED, F.PWR_ISL_STAT_CLOCKED, F.PWR_ISL_STAT_DOMAIN, F.PWR_ISL_STAT_OUTPUT, F.PWR_SAVE_ADD_OFFSET, F.PWR_SAVE_CTRL_CLEAR, F.PWR_SAVE_COUNT_COUNT, F.PWR_SAVE_SEL_INDEX, F.PWR_SAVE_ENTRY_OFFSET, F.PWR_SAVE_ENTRY_WORLD, F.PWR_WAKE_TIME_US, F.PWR_BS_STATE]

/-- The fields of the AON page table. -/
def fldsAON : List Fld :=
  [F.AON_TICK_LO_COUNT, F.AON_TICK_HI_COUNT, F.AON_RES_LO_TICKS, F.AON_RES_HI_TICKS, F.AON_RES_HI_ENTRIES, F.AON_ALARM_LO_TICK, F.AON_ALARM_HI_TICK, F.AON_ALARM_HI_ALARM_EN, F.AON_PINS_WAKE_LEVEL, F.AON_CAN_WUP_TWAKE, F.AON_CAN_REPORT_ID, F.AON_CAN_REPORT_IDE, F.AON_CAN_REPORT_EN, F.AON_VHOLD_MV, F.AON_VHOLD_CAP_UF, F.AON_VHOLD_ESR_MOHM, F.AON_SAVE_STAT_LAST, F.AON_SAVE_STAT_SLOT, F.AON_SAVE_STAT_SAVES, F.AON_SAVE_TIME_FLUSH_US, F.AON_SAVE_TIME_SAVE_US, F.AON_PMB_CTRL_ADDR, F.AON_PMB_CTRL_READ, F.AON_PMB_CTRL_CMD, F.AON_PMB_CTRL_LEN, F.AON_PMB_CTRL_GO, F.AON_PMB_DATA_DATA, F.AON_PMB_STAT_STATE, F.AON_PMB_STAT_PEC_ERR, F.AON_BS_VHOLD_OK, F.AON_BS_VSAG, F.AON_BS_WAKE_IN, F.AON_BS_MOTION_IN]

/-- The fields of the TIM page table. -/
def fldsTIM : List Fld :=
  [F.TIM_NOW_LO_NOW, F.TIM_NOW_HI_NOW, F.TIM_SET_LO_SET, F.TIM_SET_HI_SET, F.TIM_TRIM_PPB, F.TIM_CAL_CAL, F.TIM_UNCERT_US, F.TIM_DRIFT_PPM, F.TIM_EPOCH_EPOCH, F.TIM_BS_BRIDGED, F.TIM_BS_DISCIPLINED]

/-- The fields of the AGE page table. -/
def fldsAGE : List Fld :=
  [F.AGE_CTRL_SURVEY, F.AGE_CTRL_AUTO, F.AGE_CTRL_GUARD_MV, F.AGE_STAT_SURVEYS, F.AGE_STAT_LAST_CAUSE, F.AGE_HOURS_HOURS, F.AGE_PROJ_ISLAND, F.AGE_PROJ_LEFT, F.AGE_GRP_SEL_GROUP, F.AGE_GRP_MV, F.AGE_GRP_TOP_MV, F.AGE_ISL_SEL_ISLAND, F.AGE_ISL_PLAN_F_MHZ, F.AGE_ISL_PLAN_F_MIN_MHZ, F.AGE_ISL_MARGIN_VREQ_MV, F.AGE_ISL_MARGIN_DEGRADE_PPM, F.AGE_ISL_MARGIN_SLACK_PS, F.AGE_ISL_CAP_CAP, F.AGE_ISL_CAP_REDUCED, F.AGE_LED_SEL_RECORD, F.AGE_LED_SEL_WORD, F.AGE_LED_DATA_DATA, F.AGE_LED_STAT_COUNT, F.AGE_LED_STAT_BAD_CRC, F.AGE_BS_SURVEYING, F.AGE_BS_APPLYING, F.AGE_BS_REDUCED, F.AGE_BS_PROJECTED]

/-- The fields of the UPD page table. -/
def fldsUPD : List Fld :=
  [F.UPD_CMD_OP, F.UPD_CMD_KIND, F.UPD_CMD_WHEN, F.UPD_ARG0_VALUE, F.UPD_ARG1_VALUE, F.UPD_ARG2_VALUE, F.UPD_STAT_CODE, F.UPD_STAT_STATE, F.UPD_STAT_BUSY, F.UPD_STAT_HOLDER, F.UPD_STAGED_BYTES, F.UPD_CFG_MOTION_EN, F.UPD_CFG_MOTION_HIGH, F.UPD_CFG_STILL_S, F.UPD_CFG_DEFER_FUSE, F.UPD_LOCK_LOCK, F.UPD_LOCK_UNLOCK, F.UPD_RUN_VER_VERSION, F.UPD_MC_VER_VERSION, F.UPD_SLOT_VER_VERSION, F.UPD_BOOT_PRIMARY, F.UPD_BOOT_TRIAL, F.UPD_BOOT_ATTEMPTS, F.UPD_BOOT_MC_HALF, F.UPD_BOOT_SET_COPY, F.UPD_BOOT_ARMED_WHEN, F.UPD_SVN_XIRESOL, F.UPD_SVN_MICROCODE, F.UPD_SVN_SETTINGS, F.UPD_SCHEMA_IN_USE, F.UPD_REVERT_REASON, F.UPD_REVERT_KIND, F.UPD_REVERT_COUNT, F.UPD_BS_STATE]

/-- The fields of the SYS page table. -/
def fldsSYS : List Fld :=
  [F.SYS_DEV_ID_PART, F.SYS_DEV_ID_STEPPING, F.SYS_STAT_PHASE, F.SYS_STAT_RESET_CAUSE, F.SYS_STAT_DEFAULT_PLAN, F.SYS_BOOT_TIME_EARLY_MS, F.SYS_BOOT_TIME_FULL_MS, F.SYS_FAULT_CNT_CORRECTED, F.SYS_FAULT_CNT_CONTAINED, F.SYS_FATAL_COUNT, F.SYS_FATAL_LAST_SOURCE, F.SYS_FATAL_HALT, F.SYS_FATAL_RESTART_LIMIT, F.SYS_CONTAIN_OUT_STOP, F.SYS_EARLY_ACTIVE, F.SYS_EARLY_END, F.SYS_RESET_RESTART, F.SYS_BS_PHASE]

/-- The fields of the LOG page table. -/
def fldsLOG : List Fld :=
  [F.LOG_STAT_COUNT, F.LOG_STAT_LOST, F.LOG_SEQ_SEQ, F.LOG_CTRL_INDEX, F.LOG_CTRL_MIN_CLASS, F.LOG_CTRL_CLEAR, F.LOG_DATA_DATA]

/-- The field table of each page: the header of R44, then the block's own table (R42 names the chapter). A VF control
page and an HP page also hold the queue blocks of R131; offsets below are moved to where each page holds them. -/
def atOff (d : Nat) (l : List Fld) : List Fld := l.map fun f => { f with off := f.off + d }

/-- The first queues of a VF page have 4 blocks, those of an HP page 8 (R131). -/
def qDims (n : Nat) (l : List Fld) : List Fld := l.map fun f => { f with dims := [(n, 0x40)] }

/-- Every field of a page, header first. -/
def Page.flds : Page → List Fld
  | .sys => fldsHDR ++ fldsSYS
  | .tim => fldsHDR ++ fldsTIM
  | .log => fldsHDR ++ fldsLOG
  | .pwr => fldsHDR ++ fldsPWR
  | .aon => fldsHDR ++ fldsAON
  | .age => fldsHDR ++ fldsAGE
  | .upd => fldsHDR ++ fldsUPD
  | .wld => fldsHDR ++ fldsWLD
  | .own => fldsHDR ++ fldsOWN
  | .hp _ => fldsHDR ++ fldsHP ++ qDims 8 (atOff 0x200 fldsQ)
  | .chn => fldsHDR ++ fldsCHN
  | .pool => fldsHDR ++ fldsPOOL
  | .ing _ => fldsHDR ++ fldsING
  | .cvu _ => fldsHDR ++ fldsCVU
  | .dmc _ => fldsHDR ++ fldsDMC
  | .edac => fldsHDR ++ fldsEDAC
  | .pipe _ => fldsHDR ++ fldsPIPE
  | .slot _ _ => fldsHDR ++ fldsSLOT
  | .chk _ => fldsHDR ++ fldsCHK
  | .scn _ => fldsHDR ++ fldsSCN
  | .dpl _ => fldsHDR ++ fldsDPL
  | .tch _ => fldsHDR ++ fldsTCH
  | .hap => fldsHDR ++ fldsHAP
  | .aud 0 => fldsHDR ++ fldsAUD0
  | .aud 1 => fldsHDR ++ fldsAUD1
  | .aud 2 | .aud 3 => fldsHDR ++ fldsAUD2
  | .aud 4 | .aud 5 | .aud 6 => fldsHDR ++ fldsAUD4
  | .aud 7 => fldsHDR ++ fldsAUD7
  | .aud 8 => fldsHDR ++ fldsAUD8
  | .aud _ => fldsHDR
  | .plk => fldsHDR ++ fldsPLK
  | .pmc => fldsHDR ++ fldsPMC
  | .vf _ => fldsHDR ++ fldsVF ++ qDims 4 (atOff 0x100 fldsQ)

/-- PF window offset of each page (R42). VF control pages lie in windows of their own (R38); the model keys their words
above the 16 MiB of the PF window. -/
def Page.base : Page → Nat
  | .sys => 0x000000
  | .tim => 0x001000
  | .log => 0x002000
  | .pwr => 0x010000
  | .aon => 0x011000
  | .age => 0x012000
  | .upd => 0x013000
  | .wld => 0x020000
  | .own => 0x021000
  | .hp p => 0x030000 + 0x1000 * p
  | .chn => 0x040000
  | .pool => 0x041000
  | .ing n => 0x050000 + 0x1000 * n
  | .cvu n => 0x060000 + 0x1000 * n
  | .dmc n => 0x080000 + 0x1000 * n
  | .edac => 0x090000
  | .pipe n => 0x100000 + 0x20000 * n
  | .slot n k => 0x100000 + 0x20000 * n + 0x1000 * (1 + k)
  | .chk n => 0x100000 + 0x20000 * n + 0x11000
  | .scn n => 0x200000 + 0x2000 * n
  | .dpl n => 0x201000 + 0x2000 * n
  | .tch n => 0x280000 + 0x1000 * n
  | .hap => 0x2A0000
  | .aud n => 0x2C0000 + 0x1000 * n
  | .plk => 0x300000
  | .pmc => 0x310000
  | .vf fn => 0x1000000 + 0x1000 * fn

/-- The page that holds a PF window offset, none for an unpopulated slot (R39, R42). -/
def pageOf (a : Nat) : Option Page :=
  let p := a / 0x1000
  if p = 0x000 then some .sys
  else if p = 0x001 then some .tim
  else if p = 0x002 then some .log
  else if p = 0x010 then some .pwr
  else if p = 0x011 then some .aon
  else if p = 0x012 then some .age
  else if p = 0x013 then some .upd
  else if p = 0x020 then some .wld
  else if p = 0x021 then some .own
  else if p = 0x030 ∨ p = 0x031 then some (.hp (p - 0x030))
  else if p = 0x040 then some .chn
  else if p = 0x041 then some .pool
  else if 0x050 ≤ p ∧ p < 0x054 then some (.ing (p - 0x050))
  else if 0x060 ≤ p ∧ p < 0x064 then some (.cvu (p - 0x060))
  else if 0x080 ≤ p ∧ p < 0x090 then some (.dmc (p - 0x080))
  else if p = 0x090 then some .edac
  else if 0x100 ≤ p ∧ p < 0x200 then
    let n := (p - 0x100) / 0x20
    let k := (p - 0x100) % 0x20
    if k = 0 then some (.pipe n) else if k ≤ 0x10 then some (.slot n (k - 1))
    else if k = 0x11 then some (.chk n) else none
  else if 0x200 ≤ p ∧ p < 0x210 then
    some (if p % 2 = 0 then .scn ((p - 0x200) / 2) else .dpl ((p - 0x200) / 2))
  else if 0x280 ≤ p ∧ p < 0x282 then some (.tch (p - 0x280))
  else if p = 0x2A0 then some .hap
  else if 0x2C0 ≤ p ∧ p < 0x2C9 then some (.aud (p - 0x2C0))
  else if p = 0x300 then some .plk
  else if p = 0x310 then some .pmc
  else none

/-- Kind code of PG_ID.KIND (R42; the VF control page: spec/05_guest_interface.md, "The VF control page"). -/
def Page.kind : Page → Nat
  | .sys => 0x01 | .tim => 0x02 | .log => 0x03 | .pwr => 0x04 | .aon => 0x05 | .age => 0x06 | .upd => 0x07
  | .wld => 0x08 | .own => 0x09 | .hp _ => 0x0A | .chn => 0x0B | .pool => 0x0C | .ing _ => 0x0D | .cvu _ => 0x0E
  | .dmc _ => 0x0F | .edac => 0x10 | .pipe _ => 0x11 | .slot _ _ => 0x12 | .chk _ => 0x13 | .scn _ => 0x14
  | .dpl _ => 0x15 | .tch _ => 0x16 | .hap => 0x17 | .aud _ => 0x18 | .plk => 0x19 | .pmc => 0x1A | .vf _ => 0x1B

/-- PG_ID.INSTANCE (R42). -/
def Page.instNo : Page → Nat
  | .hp n | .ing n | .cvu n | .dmc n | .pipe n | .chk n | .scn n | .dpl n | .tch n | .aud n => n
  | .slot n k => 16 * n + k
  | .vf fn => fn
  | _ => 0

end Sys2Proof.Machine
end

