-- ==== Sys2Proof/Machine/Sparse.lean ====
section
/-! DEFINITION. Sparse stores: a list of (key, value) pairs in one canonical form, keys strictly rising and no entry
equal to what an unlisted key reads as. DRAM, the register words and their shadows are held this way. -/

namespace Sys2Proof.Machine

/-- A sparse store over natural keys. -/
abbrev Store (α : Type) := List (Nat × α)

namespace Sparse

variable {α : Type}

/-- The listed value at a key. -/
def find : Store α → Nat → Option α
  | [], _ => none
  | (k', v) :: r, k => if k = k' then some v else find r k

/-- The value read at a key; `d` is what an unlisted key reads as. -/
def get (d : Nat → α) (m : Store α) (k : Nat) : α := (find m k).getD (d k)

/-- Insert or replace in key order. -/
def put : Store α → Nat → α → Store α
  | [], k, v => [(k, v)]
  | (k', v') :: r, k, v =>
    if k < k' then (k, v) :: (k', v') :: r
    else if k = k' then (k, v) :: r
    else (k', v') :: put r k v

/-- Remove a key wherever it is listed. -/
def del : Store α → Nat → Store α
  | [], _ => []
  | (k', v') :: r, k => if k = k' then del r k else (k', v') :: del r k

/-- Write a value: writing what an unlisted key reads as removes the entry. -/
def set [DecidableEq α] (d : Nat → α) (m : Store α) (k : Nat) (v : α) : Store α :=
  if v = d k then del m k else put m k v

/-- Keys strictly rising from a bound. -/
def sortedFrom : Nat → Store α → Bool
  | _, [] => true
  | b, (k, _) :: r => decide (b ≤ k) && sortedFrom (k + 1) r

/-- The canonical form. -/
def wf [DecidableEq α] (d : Nat → α) (m : Store α) : Bool :=
  sortedFrom 0 m && m.all fun p => decide (p.2 ≠ d p.1)

end Sparse

end Sys2Proof.Machine
end

