-- ==== Sys2Proof/Machine/State.lean ====
section
/-! DEFINITION. The state of the device as plain data: every register word and shadow, DRAM, the tables of the channel
manager, the queues, every engine's commands in progress, the pair link, power, time and fault state, the queue of
waiting commands and what the device has put out. Each field's docstring cites the rule of spec/ that names it. -/

namespace Sys2Proof.Machine

/-- Faults. No meaning of this model stops with one: what the device itself calls a fault is recorded in its own
registers, log and fault state (R471 to R474), and the machine goes on. -/
inductive Fault where
  /-- Raised by nothing; kept so that the type is closed and inhabited. Safe: it allows no behaviour. -/
  | unreachable
  deriving DecidableEq, Repr

/-- Refusals. -/
inductive Refusal where
  /-- Raised only by an arm of `exec` whose command has no meaning yet. Safe: nothing is claimed of such a command. -/
  | notModelled (mnemonic : String)
  deriving DecidableEq, Repr

/-- The two part numbers (R1). -/
inductive Part where
  | sx8400 | sx8200
  deriving DecidableEq, Repr

/-- Secondary data that a transmitter sends with its video (R234, R235, R244). -/
inductive Secondary where
  /-- MSA: bits per component, and the timing-ignore bit. -/
  | msa (bpc : Nat) (ignoreTiming : Bool)
  /-- VSC SDP: bits per component, and DPL_CTRL.COLORIMETRY. -/
  | vsc (bpc colorimetry : Nat)
  /-- Adaptive-Sync SDP: the frame's actual total lines. -/
  | adaptiveSync (total : Nat)
  /-- PPS SDP: the 32 words of the PPS. -/
  | pps (ws : List Nat)
  deriving DecidableEq, Repr

/-- The two PWM outputs of a haptic channel over the carrier periods that follow (R326, R33): in high impedance, both low, or one of
them high for `num` / 32,768 of each carrier period of `khz` kHz, after `deadNs` with both low. -/
inductive HapPins where
  | highZ
  | low
  | pwmA (num khz deadNs : Nat)
  | pwmB (num khz deadNs : Nat)
  deriving DecidableEq, Repr

/-- What the device puts out towards its hosts, its partner and its pins, in order. -/
inductive Output where
  /-- A completion entry (R119) written to a slot of an internal queue of 0x40 or 0x41 (R195): function, queue, slot, the entry's sixteen
  words. An entry of a host function's queue is a `hostWrite`. -/
  | completion (fn q slot : Nat) (ws : List Nat)
  /-- An MSI-X message to a vector of a function (R57); 0x40 and 0x41 name the internal interrupt controller (R59). -/
  | message (fn vec : Nat)
  /-- The data that a register read returns. -/
  | readData (fn : Nat) (w : Word32)
  /-- The end of a DRAM request: port, function, address, status of each word, data of each word of a read. -/
  | dram (port fn addr : Nat) (status data : List Nat)
  /-- A posted write of 32-bit words to a function's host memory. -/
  | hostWrite (fn addr : Nat) (ws : List Nat)
  /-- A flit sent to the partner with its sequence number. -/
  | flit (seq : Nat) (f : Flit)
  /-- Acknowledgement fields sent to the partner: last SEQ accepted, and NAK (R379, R381). -/
  | ack (seq : Nat) (nak : Bool)
  /-- An AUX request on output n: command, address, length, data (R243). -/
  | aux (n cmd addr len : Nat) (data : List Nat)
  /-- A PMBus transaction started: device address, command, data (R416, R432). -/
  | pmbus (addr cmd data : Nat)
  /-- A CAN FD frame. -/
  | can (id : Nat) (data : List Nat)
  /-- A pixel line handed to the link: output, line, pixels as 4 components and a tag. -/
  | line (n y : Nat) (px : List (Nat × Nat × Nat × Nat))
  /-- The compressed bits of a line that leave with DSC in use: output, line, the bits as a number (R244). -/
  | encoded (n y v : Nat)
  /-- Secondary data sent on output n. -/
  | sdp (n : Nat) (d : Secondary)
  /-- Panel Replay, or PSR2, enabled in the sink of output n; the lines that follow are the captured frame (R245). -/
  | replay (n : Nat) (psr2 : Bool)
  /-- The outputs of haptic channel c. -/
  | bridge (c : Nat) (b : HapPins)
  /-- Samples that leave an output slot of a TDM port in the next block interval (R353). -/
  | tdm (port slot : Nat) (samples : List Int)
  deriving DecidableEq, Repr

/-! ## Wide registers and counter latches (R49, R50, R158) -/

/-- One staged lower word of a 128-bit register: requester, PF window offset of the word, value (R49). -/
structure Staged where
  fn : Nat
  key : Nat
  val : Word32
  deriving DecidableEq, Repr

/-- One latched upper word: reading function, PF window offset of the word, value (R50, R158). -/
structure Latched where
  fn : Nat
  key : Nat
  val : Word32
  deriving DecidableEq, Repr

/-! ## Channels, buffers and the pool (R62 to R85, R503) -/

/-- A channel-table slot that holds a channel (R71). -/
structure Chan where
  /-- Kind code of R62. -/
  kind : Nat
  /-- Owning function. -/
  fn : Nat
  /-- DRAINING rather than OPEN. -/
  draining : Bool
  /-- The CHANNEL_DESTROY whose final completion is owed. -/
  destroyJob : Option Nat
  deriving DecidableEq, Repr

/-- The states of an occupied buffer-table slot (R81). -/
inductive BufState where
  | filling | live | freeing
  deriving DecidableEq, Repr

/-- A buffer-table slot that holds a buffer (R81). -/
structure Buf where
  state : BufState
  /-- Channel-table slot of the buffer's channel. -/
  chan : Nat
  /-- Handle of the buffer's channel, as POOL_BUF_CHANNEL shows it. -/
  chanHandle : Nat
  /-- Owner: the owner of the channel (R75). -/
  fn : Nat
  /-- The plot list (R63). -/
  plots : List Nat
  /-- Requested size in bytes. -/
  size : Nat
  /-- Fence count (R79). -/
  fences : Nat
  /-- Plots still to be filled, in order (R78). -/
  toFill : List Nat
  /-- The BUFFER_ALLOC that completes when the last fill ends. -/
  allocJob : Option Nat
  /-- The freeing operation whose final completion is owed; none for a free without a completion of its own (R503). -/
  freeJob : Option Nat
  /-- The channel was destroyed while the buffer was FILLING: free it when the fill ends (R503). -/
  freeAfterFill : Bool
  deriving DecidableEq, Repr

/-- A slot table: occupied slots, generations that differ from 1, and the free slots in the order in which they became
free (R64, R66): slots from `fresh` up have been free since start-up, in ascending order, before every slot of
`freed`. -/
structure SlotTable (α : Type) where
  used : Store α
  gens : Store Nat
  fresh : Nat
  freed : List Nat
  deriving DecidableEq, Repr

/-- The plots of the pool (R75, R76): plots from `fresh` up to POOL_PLOTS that are not retired lead the free list in
ascending order, those of `freed` follow in release order. -/
structure Plots where
  fresh : Nat
  freed : List Nat
  /-- Retired plots that are withheld (R76). -/
  retired : List Nat
  /-- Retired plots that still belong to a buffer (R76). -/
  marked : List Nat
  deriving DecidableEq, Repr

/-- The channel manager and pool. -/
structure Pool where
  chans : SlotTable Chan
  bufs : SlotTable Buf
  plots : Plots
  /-- Buffers in FILLING, in allocation order: the fill engine fills the first plot of the first (R78). -/
  fillQueue : List Nat
  /-- POOL_FN_PEAK.PEAK of each function (R84). -/
  peak : Store Nat
  /-- Owner-table cache: line to (plot, entry) (R95). -/
  cache : Store (Nat × Word32)
  deriving DecidableEq, Repr

/-! ## World separation (R99 to R102) -/

/-- One service core as the gate sees it. The cores' instruction set is not documented; the state keeps what R99 to R102
name. -/
structure Core4 where
  /-- Inside the gate. -/
  inSecure : Bool
  /-- When the core entered, in ns. -/
  since : Nat
  /-- The two result registers of R100. -/
  result0 : Nat
  result1 : Nat
  /-- Every other register, cache and predictor entry of the secure stay has been scrubbed (R100). -/
  scrubbed : Bool
  deriving DecidableEq, Repr

/-- A secure access that waits for its group (R107): a register write, a register read, or a DRAM request. -/
inductive Waiting where
  | write (w : RegWr)
  | read (r : RegRd)
  | dram (q : DramReq)
  deriving DecidableEq, Repr

/-- The gate and the secure hold. -/
structure Worlds where
  /-- Entry points that the secure core has fixed in the gate table when it started (R99). -/
  gateTable : List Nat
  cores : Store Core4
  /-- Entry attempts at any other address (R99). -/
  gateFaults : Nat
  /-- Gated hold groups that a secure access or WLD_HOLD write is waking (R107), with the secure accesses that wait, in the order in which
  they came. -/
  waking : List Nat
  waitingSecure : List (Nat × Waiting)
  deriving DecidableEq, Repr

/-! ## Queues, commands and functions (R109 to R131) -/

/-- Queue states of R115. -/
inductive QState where
  | idle | running | draining | error
  deriving DecidableEq, Repr

/-- A completion to be written: CID, status, SQ head, FINAL, result words (R119). -/
structure CqEntry where
  cid : Nat
  status : Nat
  sqHead : Nat
  fin : Bool
  res : List Nat
  deriving DecidableEq, Repr

/-- A queue pair: what Q_STAT shows and what R116 and R126 count. -/
structure Queue where
  state : QState
  sqHead : Nat
  sqTail : Nat
  cqHead : Nat
  cqTail : Nat
  phase : Bool
  /-- Completions written and not yet signalled (R126). -/
  unsignalled : Nat
  /-- When the oldest unsignalled completion was written, in ns. -/
  oldest : Nat
  /-- Completions that wait for room in the CQ, in order (R116, R117). -/
  held : List CqEntry
  deriving DecidableEq, Repr

/-- Where a fetched command stands. -/
inductive JobStage where
  /-- Fetched; its first completion has not been posted. -/
  | fetched
  /-- Completed DEFERRED; its final completion is owed. -/
  | owed
  deriving DecidableEq, Repr

/-- A command fetched and not finished. -/
structure Job where
  jid : Nat
  fn : Nat
  q : Nat
  cid : Nat
  opcode : Nat
  params : List Nat
  sqHead : Nat
  stage : JobStage
  deriving DecidableEq, Repr

/-- Function states of R127. -/
inductive FnState where
  | absent | enabled | resetting | held
  deriving DecidableEq, Repr

/-- One function of a host port (R127, R128). -/
structure Fn where
  state : FnState
  /-- Bus Master Enable (HP_FN_STAT.BME). -/
  bme : Bool
  /-- HP_FN_STAT.HELD_STATE. -/
  heldState : Bool
  /-- HP_FN_RESET_INFO.CAUSE and SQUASHED, HP_FN_RESET_TIME. -/
  cause : Nat
  squashed : Nat
  timeUs : Nat
  /-- The running reset: 0 none, 1 steps 1 and 2, 3 step 3 done and step 4 to come. -/
  step : Nat
  /-- The running reset is a bus reset (R127). -/
  bus : Bool
  /-- Host memory may still be written by step 4. -/
  hostOk : Bool
  startNs : Nat
  /-- The reset came from a function that was HELD or ABSENT: it runs steps 3 and 4 only (R127). -/
  fromHeld : Bool
  fromAbsent : Bool
  /-- A link-down that runs steps 1 and 2 for a function now HELD (R131). -/
  linkDown : Bool
  /-- FN_RESET commands that complete when the reset ends (R122). -/
  waiters : List Nat
  /-- Fetched commands for which step 4 posts ABORTED, in fetch order (R128). -/
  aborted : List Job
  /-- The reset came from a soft reset of the HP page, which step 4 then resets (R501). -/
  hpPage : Bool
  deriving DecidableEq, Repr

/-- A weighted round of R124: services given to each function in the running round, and when each was last served, in ns. -/
structure Round where
  used : Store Nat
  servedAt : Store Nat
  deriving DecidableEq, Repr

/-- Host ports. -/
structure Hosts where
  /-- Queues by function × 8 + queue number; an unlisted queue is IDLE. -/
  queues : Store Queue
  /-- Functions that are not ABSENT-and-unreset, by function number. -/
  fns : Store Fn
  /-- Commands fetched and not finished, in fetch order. -/
  jobs : List Job
  nextJid : Nat
  /-- Entries of the internal queues of 0x40 and 0x41 that have not been fetched (R150, R195): opcode and entry, in order. -/
  coreEntries : List (Nat × CmdArgs)
  /-- Fetching is stopped (FALLOW entry, handover, device-fatal fault). -/
  fetchStopped : Bool
  /-- The rounds of R124: 0 and 1 of the ports, 2 to 5 of the ingest engines, 6 to 9 of the scan engines. -/
  rounds : Store Round
  /-- Queue of the last fetch of each function. -/
  lastQ : Store Nat
  /-- MSI-X vectors the host has unmasked, and messages pending for masked ones (R59), as (function, vector). -/
  unmasked : List (Nat × Nat)
  msiPending : List (Nat × Nat)
  /-- Interrupts that wait for the scrub of the core that takes them: core, vector (R100). -/
  heldIrqs : List (Nat × Nat)
  deriving DecidableEq, Repr

def Pool.reset : Pool where
  chans := ⟨[], [], 0, []⟩
  bufs := ⟨[], [], 0, []⟩
  plots := ⟨0, [], [], []⟩
  fillQueue := []
  peak := []
  cache := []

def Worlds.reset : Worlds where
  gateTable := []
  cores := []
  gateFaults := 0
  waking := []
  waitingSecure := []

def Hosts.reset : Hosts where
  queues := []
  fns := []
  jobs := []
  nextJid := 0
  coreEntries := []
  fetchStopped := false
  rounds := []
  lastQ := []
  unmasked := []
  msiPending := []
  heldIrqs := []

/-! ## Ingest engines (R147 to R157) -/

/-- An accepted INGEST (R150). -/
structure IngCmd where
  jid : Nat
  /-- Order of acceptance over all engines (R152). -/
  seq : Nat
  /-- Destination buffer slot and handle. -/
  buf : Nat
  handle : Nat
  fn : Nat
  format : Nat
  srcTiled : Bool
  seedbed : Bool
  width : Nat
  height : Nat
  rectX : Nat
  rectY : Nat
  rectW : Nat
  rectH : Nat
  src0 : Nat
  pitch0 : Nat
  src1 : Nat
  pitch1 : Nat
  /-- Tiles and data words written so far. -/
  tiles : Nat
  words : Nat
  deriving DecidableEq, Repr

/-- One engine: its waiting list and its eight in-flight slots. -/
structure IngEngine where
  waiting : List IngCmd
  slots : Store IngCmd
  deriving DecidableEq, Repr

/-- The four engines. -/
structure Ingest where
  engines : Store IngEngine
  nextSeq : Nat
  /-- Commands that ended OK, and for each buffer slot the count at which its last one ended (R245). -/
  ended : Nat
  lastEnd : Store Nat
  deriving DecidableEq, Repr

def Ingest.reset : Ingest where
  engines := []
  nextSeq := 0
  ended := 0
  lastEnd := []
/-! ## Outputs: frames, furrow store, commits (R159 to R233, R187 to R210) -/

/-- A pixel as stage 12 hands it over: three quantised components and the tag (R181). -/
structure OutPix where
  q0 : Nat
  q1 : Nat
  q2 : Nat
  tag : Nat
  deriving DecidableEq, Repr

/-- A tile in the furrow store (R232): its elements, or why it cannot be read. -/
inductive Tile where
  | data (es : List Nat)
  /-- Malformed (R145). -/
  | malformed
  /-- Refused (R91) or uncorrectable. -/
  | unreadable
  deriving DecidableEq, Repr

/-- One shed unit (R231): a slot in a span for one furrow, the furrow given as plane × 4096 + tile row. -/
structure ShedUnit where
  slot : Nat
  furrow : Nat
  span : Nat
  deriving DecidableEq, Repr

/-- A resident groundsheet image (R227): its handle and size, and the elements that could be read. -/
structure Sheet where
  buf : Nat
  w : Nat
  h : Nat
  elems : List (Option Nat)
  deriving DecidableEq, Repr

/-- One output: scan counter, latched frame, furrow store and what the frame has shown. -/
structure Disp where
  /-- Scan-out runs (R216, R217). -/
  running : Bool
  /-- A start has been accepted and the counter has not started (R216 steps 3 and 4). -/
  starting : Bool
  /-- A stop at the next FRAME_DONE has been requested (R217). -/
  stopping : Bool
  /-- A start has been written while the stop was pending: its steps follow the stop (R216, R217). -/
  again : Bool
  /-- Line of the scan counter. -/
  line : Nat
  /-- The counter still stands on the line of FRAME_DONE at which the frame was latched (R219). -/
  fresh : Bool
  /-- Guard lines of the frame, fixed at its latch point (R192, R375). -/
  guard : Nat
  /-- SCN_GENLOCK as it has been in force since the last frame start (R220). -/
  genlock : Nat
  /-- Front-porch lines added under Adaptive-Sync in the running headland (R224), lines by which genlock changes it, and
  lines by which it will change the next one (R221). -/
  added : Nat
  adjust : Int
  correct : Int
  /-- A VRR decision of this frame has been to proceed. -/
  proceeded : Bool
  /-- Pipe clocks from the latch point to clock 0 of line 0 without added lines. -/
  lead : Nat
  /-- The words of the output's pages as latched (R160). -/
  frame : Store Word32
  /-- Slots latched as released, failing R502, or in handover (R207, R209, R502). -/
  released : List Nat
  failing : List Nat
  handed : List Nat
  /-- Furrow store: tiles by slot, plane, tile row and column. -/
  tiles : Store Tile
  /-- Tiles of the store that are unreadable for the next line composed (R303). -/
  spoiled : List Nat
  /-- Furrows that have arrived, as slot × 65536 + plane × 4096 + tile row. -/
  arrived : List Nat
  /-- Resident groundsheet images by slot, and those fetched since the last latch point for the frame that it begins (R227). -/
  sheets : Store Sheet
  newSheets : Store Sheet
  /-- Composed lines of the frame, in line order, and of the lines handed over. -/
  lines : List (List OutPix)
  /-- Pipe clock, counted from the latch point, at which the last composition ended (R233). -/
  composeEnd : Nat
  /-- Shed units in force, furrows whose shed set has been started, and slots whose last projection had slack (R231). -/
  shed : List ShedUnit
  shedSeen : List Nat
  slack : List Nat
  /-- Counts of the frame so far. -/
  twoPass : Nat
  eliminated : Nat
  subst : Store Nat
  live : List Nat
  shedSpans : Nat
  underruns : Nat
  drops : Nat
  shedMax : Option Nat
  creditMin : Option Nat
  gsFallback : List Nat
  /-- Slots that failed R502 at the last latch point. -/
  failedBefore : List Nat
  /-- Check regions active in the frame, and those whose value is final (R260, R261). -/
  regions : List Nat
  regionsDone : List Nat
  /-- Results of the regions that are final: region, 1 match, 2 mismatch, 3 computed. -/
  results : Store Nat
  /-- Consecutive frames with a small phase error (R221), PLL trim in ppm. -/
  goodPhase : Nat
  trim : Int
  /-- An underrun of this frame has been reported (R219). -/
  missed : Bool
  /-- A commit applied at the frame's latch point; that, or an ingest that had ended since the latch point before into a buffer that the
  latched slots name; and the ingests that had ended by the latch point (R224, R245). -/
  applied : Bool
  changed : Bool
  doneMark : Nat
  /-- The next start continues SCN_SEQ (R410). -/
  resumed : Bool
  deriving DecidableEq, Repr

/-- Where an armed commit stands (R200). -/
inductive CommitStage where
  | sent | waiting | applying
  deriving DecidableEq, Repr

/-- An armed commit (R196, R200, R207). -/
structure Commit where
  /-- Record number: the order of arming (R390). -/
  cno : Nat
  /-- The COMMIT command; none for a slot release and on a standby device. -/
  jid : Option Nat
  cid : Nat
  fn : Nat
  group : Nat
  /-- TARGET_SEQ, when TARGET_EN is 1. -/
  target : Option Nat
  /-- Changed words of the armed copy: key and armed value. -/
  entries : List (Nat × Nat)
  /-- The page set (R195): page offsets, and offsets of check-region blocks. -/
  pages : List Nat
  stage : CommitStage
  /-- Frame at which it applies, outputs whose values have not moved, and whether its end has been posted. -/
  frame : Nat
  todo : List Nat
  posted : Bool
  /-- Slots in handover (R209), as output × 16 + slot; none for a commit without handover. -/
  handover : Option (List Nat)
  /-- A slot release (R207): the slot, as output × 16 + slot. -/
  release : Option Nat
  /-- When it was sent to the partner, in ns. -/
  sentAt : Nat
  /-- The committing function has been reset: its end posts nothing (R200). -/
  silent : Bool
  deriving DecidableEq, Repr

/-- Granules of one slot (R225): ring, groundsheet image, the class they were granted to, and the field values of R225 that
decide whether a commit changes them. -/
structure Grant where
  ring : Nat
  sheet : Nat
  crit : Nat
  key : List Int
  deriving DecidableEq, Repr

/-- Outputs, commits and the furrow store. -/
structure Display where
  disps : Store Disp
  commits : List Commit
  /-- Fences of layer slots (R80): key of the word that names the buffer, handle. -/
  fences : List (Nat × Nat)
  /-- Released slots (R207), and releases that wait for another commit, as output × 16 + slot. -/
  released : List Nat
  waitingRelease : List Nat
  /-- Granules held per slot, grants of applying commits, and per output the raised reserve of applying commits: granules and bandwidth. -/
  grants : Store Grant
  newGrants : Store Grant
  reserves : Store (Nat × Nat)
  /-- Frame whose apply line has begun, per lead output (R196 step 8). -/
  applySeen : Store Nat
  /-- Check regions whose ACTION has been carried out in their run of mismatches, as output × 16 + region (R261). -/
  acted : List Nat
  deriving DecidableEq, Repr

def Display.reset : Display where
  disps := []
  commits := []
  fences := []
  released := []
  waitingRelease := []
  grants := []
  newGrants := []
  reserves := []
  applySeen := []
  acted := []


/-! ## DisplayPort transmitters (R234 to R248) -/

/-- An AUX transaction in progress (R243): request command, address, length, data to write. -/
structure Aux where
  req : Nat
  addr : Nat
  len : Nat
  data : List Nat
  deriving DecidableEq, Repr

/-- A transmitter. A link configuration is a rate, coded as MAX_RATE, and a lane count. -/
structure Dpl where
  /-- Lanes and AUX are powered (R237). -/
  powered : Bool
  /-- HPD as classified (R242), and the sink's block-prediction report (R244). -/
  hpd : Bool
  blockPred : Bool
  /-- The sink reports the alternate scrambler seed reset of eDP, and the trained link uses it (R234). -/
  seedCap : Bool
  seed : Bool
  /-- Configurations still to try in a running training, the first being tried, and attempts made (R239). -/
  toTry : List (Nat × Nat)
  tries : Nat
  trained : Option (Nat × Nat)
  /-- The video decision of R240 has been made for this training and start. -/
  decided : Bool
  video : Bool
  dsc : Bool
  /-- In Panel Replay or PSR2, and static frames counted (R245). -/
  replay : Bool
  still : Nat
  /-- Total lines of the last completed frame. -/
  lastTotal : Nat
  aux : Option Aux
  /-- The transaction waits for the transmitter's own AUX traffic of a training (R243). -/
  auxHeld : Bool
  /-- Electrical idle after leaving the active role (R247), and held until the device restarts (R248). -/
  idleHold : Bool
  dead : Bool
  deriving DecidableEq, Repr

/-! ## Scan engines (R252 to R257) -/

/-- An accepted SCAN. -/
structure CvuCmd where
  jid : Nat
  fn : Nat
  poly : Nat
  fold : Nat
  /-- SRC_MODE: the range is DRAM, not a buffer. -/
  addrMode : Bool
  /-- Source buffer slot and handle. -/
  src : Nat
  handle : Nat
  start : Nat
  len : Nat
  /-- Result buffer slot, when RESULT_EN is 1, and block size. -/
  result : Option Nat
  block : Nat
  foldValue : Nat
  deriving DecidableEq, Repr

/-- One engine: its waiting list and its eight in-flight slots. -/
structure CvuEngine where
  waiting : List CvuCmd
  slots : Store CvuCmd
  deriving DecidableEq, Repr

/-! ## DRAM channels (R263 to R285) -/

/-- A request held by a channel or waiting at its crossing (R273): who asks, word address, words, and for a write each word with the
mask of its bytes. -/
structure DramItem where
  rid : Nat
  fn : Nat
  world : Bool
  crit : Nat
  port : Nat
  addr : Nat
  words : Nat
  data : Option (List (Nat × Nat))
  arrived : Nat
  deriving DecidableEq, Repr

/-- A channel. -/
structure Dmc where
  /-- Requests in arrival order. -/
  reqs : List DramItem
  drain : Bool
  /-- The activated row, as rank, bank and row, and the requests of its activation that are still to be issued, in order (R268). -/
  row : Option (Nat × Nat × Nat)
  batch : List Nat
  /-- Bank served last (HSK-SX8200). -/
  lastBank : Nat
  /-- SCAN_CRIT credit in units of 1 / (4 × C × 10^9) byte, and when it was last accrued (R272). -/
  credit : Nat
  creditAt : Nat
  /-- Refresh multiplier M; the debt D is DMC_REF_STAT.DEBT. -/
  mult : Nat
  powerDown : Bool
  lastUse : Nat
  /-- A retraining trigger waits, a retraining runs, consecutive retrainings without a window (R279, R281). -/
  want : Bool
  training : Bool
  noWindow : Nat
  failed : Bool
  selfRefresh : Bool
  deriving DecidableEq, Repr

/-- The controller. -/
structure Dram where
  chans : Store Dmc
  nextRid : Nat
  /-- Channel that retrained last, and when that retraining started (R279). -/
  lastTrained : Nat
  trainedAt : Option Nat
  deriving DecidableEq, Repr

def Dram.reset : Dram where
  chans := []
  nextRid := 0
  lastTrained := 15
  trainedAt := none

/-! ## Stored-data protection (R286 to R303) -/

/-- One entry of the error log, as EDAC_LOG_W0 to W3 show it (R300). -/
structure EdacEntry where
  w0 : Nat
  w1 : Nat
  w2 : Nat
  w3 : Nat
  deriving DecidableEq, Repr

/-- Stored-data protection. -/
structure Edac where
  /-- The error log, oldest first. -/
  log : List EdacEntry
  /-- The retirement list in the settings area of the flash (R302): plots, and banks as channel, rank, bank. -/
  plotList : List Nat
  bankList : List (Nat × Nat × Nat)
  /-- The bank retirement in progress (R301): channel, rank, bank. -/
  retiring : Option (Nat × Nat × Nat)
  deriving DecidableEq, Repr

def Edac.reset : Edac where
  log := []
  plotList := []
  bankList := []
  retiring := none

/-! ## Touch engines (R304 to R324) -/

/-- One entry of a panel's node table (R324): count c, baseline b, compensation code, reference, BAD, FROZEN, the negative count of
R314 and the sum of R313. -/
structure Node where
  count : Nat
  base : Nat
  comp : Nat
  refBase : Nat
  refComp : Nat
  bad : Bool
  frozen : Bool
  neg : Nat
  sum : Nat
  deriving DecidableEq, Repr

/-- A contact (R316, R317): identity, peak node, reported position, strength and area, whether its DOWN waits for the next record
(R320), and the start of its rest (R315): device time and strength. -/
structure Contact where
  id : Nat
  drv : Nat
  sns : Nat
  x : Nat
  y : Nat
  strength : Nat
  area : Nat
  large : Bool
  late : Bool
  holdAt : Nat
  holdStrength : Nat
  deriving DecidableEq, Repr

/-- An entry of a report record and of a hand-off (R318, R320): EVENT is 1 DOWN, 2 MOVE, 3 UP; the position of the frame before stands
beside it for a MOVE. -/
structure TouchEntry where
  id : Nat
  event : Nat
  large : Bool
  stuck : Bool
  present : Bool
  x : Nat
  y : Nat
  strength : Nat
  area : Nat
  prevX : Nat
  prevY : Nat
  deriving DecidableEq, Repr

/-- Panel states of R310, as TCH_Pp_STAT.STATE codes them in order. -/
inductive PanelState where
  | off | calibrating | refStart | scanning | listening | fault
  deriving DecidableEq, Repr

/-- A panel. -/
structure Panel where
  state : PanelState
  /-- A stop waits for the end of the running frame (R310). -/
  leaving : Bool
  nodes : Store Node
  /-- Contacts in order of identity, identities that ended in the previous frame, and peaks that await DEBOUNCE: node, frames. -/
  contacts : List Contact
  ended : List Nat
  seen : List (Nat × Nat × Nat)
  /-- Frames of CALIBRATING that have ended, and frames since the last drift step. -/
  calStep : Nat
  drift : Nat
  /-- The buffer handle whose record numbers TCH_Pp_SEQ continues; none before the first record (R320). -/
  seqBuf : Option Nat
  deriving DecidableEq, Repr

/-- A touch engine. -/
structure TouchEngine where
  /-- Panels whose scan has not ended in the running engine frame, the page's words as the frame took them, none between frames (R309),
  and the frame's scan time in ns (R308). -/
  todo : List Nat
  frame : Store Word32
  time : Nat
  /-- ENABLE was written 0: the engine stops at the end of the frame. -/
  closing : Bool
  panels : Store Panel
  /-- Index of the drive frequency, charger-noise mode, last N of each frequency, next candidate, frames with N at HOP_THRESH, frames
  below half of CHARGER_THRESH, the hop for the next frame, panels whose first frame after a hop is to come (R319). -/
  freq : Nat
  charger : Bool
  lastN : Store Nat
  cand : Nat
  loud : Nat
  quiet : Nat
  hopTo : Option Nat
  hopped : List Nat
  /-- Greatest N of the running frame at the current and at the candidate frequency. -/
  nCur : Nat
  nCand : Nat
  deriving DecidableEq, Repr

/-- What an engine hands to the rule matcher (R318, R335): device panel, device time at the end of the last phase, entries. -/
structure Handoff where
  panel : Nat
  time : Nat
  entries : List TouchEntry
  deriving DecidableEq, Repr

/-- The touch engines, and hand-offs on their way to the rule matcher. -/
structure Touch where
  engines : Store TouchEngine
  handoffs : List Handoff
  deriving DecidableEq, Repr

def Touch.reset : Touch where
  engines := []
  handoffs := []

/-! ## Haptic channels (R325 to R340) -/

/-- An effect (R327) with the function that owns it. -/
structure Effect where
  tapSource : Bool
  tap : Nat
  retrig : Bool
  priority : Nat
  gain : Nat
  clip : Nat
  offset : Nat
  length : Nat
  fn : Nat
  deriving DecidableEq, Repr

/-- A touch rule (R334). -/
structure Rule where
  fn : Nat
  panel : Nat
  channel : Nat
  events : Nat
  x : Nat
  y : Nat
  w : Nat
  h : Nat
  effect : Effect
  fires : Nat
  /-- Removed: it is gone from the next period boundary (R334). -/
  leaving : Bool
  deriving DecidableEq, Repr

/-- A clip extent in the clip store (R328): handle, offset, length, function that names it, and its samples once it is resident. -/
structure Extent where
  clip : Nat
  offset : Nat
  length : Nat
  fn : Nat
  samples : Option (List Int)
  deriving DecidableEq, Repr

/-- An effect that has arrived at a channel: its rule or its HAPTIC_PLAY, and the touch-down instant. -/
structure Arrival where
  effect : Effect
  rule : Option Nat
  jid : Option Nat
  touchAt : Nat
  deriving DecidableEq, Repr

/-- Channel states of R331, as HAP_Hc_STAT.STATE codes them in order. -/
inductive HapState where
  | off | idle | start | drive | brake | cal | fault
  deriving DecidableEq, Repr

/-- A haptic channel. -/
structure HapChan where
  state : HapState
  effect : Option Effect
  /-- Periods since the effect's first START period, and periods of braking or calibration. -/
  period : Nat
  braked : Nat
  integ : Int
  duty : Int
  /-- Largest |a| of the running calibration sweep (R340). -/
  peak : Nat
  /-- Runs of periods: quiet while braking, current limited, no motion in DRIVE (R331, R332). -/
  quiet : Nat
  limited : Nat
  still : Nat
  /-- EN was written 0, or the owner was reset: the effect ends through braking. -/
  turnOff : Bool
  ending : Bool
  arrivals : List Arrival
  waiting : Option Arrival
  deriving DecidableEq, Repr

/-- The haptic block. -/
structure Haptic where
  rules : Store Rule
  extents : List Extent
  chans : Store HapChan
  /-- Last sample of each tap and when it arrived, in ns; taps whose stall has been reported (R329). -/
  taps : Store (Int × Nat)
  stalled : List Nat
  /-- Commands that wait for their extent: job, rule to add or channel to play on, effect (R338). -/
  adds : List (Nat × Rule)
  plays : List (Nat × Nat × Effect)
  deriving DecidableEq, Repr

def Haptic.reset : Haptic where
  rules := []
  extents := []
  chans := []
  taps := []
  stalled := []
  adds := []
  plays := []

/-! ## Audio (R341 to R369) -/

/-- A queued region (R358): its command, function, buffer slot, byte offset, samples, LAST, samples processed, T0, and block boundaries
to pass before it may start (R360). -/
structure AudRegion where
  jid : Nat
  fn : Nat
  buf : Nat
  offset : Nat
  length : Nat
  last : Bool
  done : Nat
  t0 : Option Nat
  delay : Nat
  deriving DecidableEq, Repr

/-- A stream: regions in queue order, whether it runs, the last sample played, whether EN was written 0, and whether a reset of its owner
ends it at its next block boundary (R360 to R362, R128). -/
structure AudStream where
  regions : List AudRegion
  running : Bool
  lastSample : Int
  ending : Bool
  squashed : Bool
  deriving DecidableEq, Repr

/-- Biquad state x1, x2, y1, y2 of each of ten biquads, and the limiter gain (R350, R351). -/
structure BusRun where
  biquads : List (Int × Int × Int × Int)
  lg : Nat
  deriving DecidableEq, Repr

/-- A bus: whether it runs, its state, the state of the old run of a crossfade, and a fade of R352: in rather than out, samples done,
length. -/
structure AudBus where
  on : Bool
  run : BusRun
  old : Option BusRun
  fade : Option (Bool × Nat × Nat)
  deriving DecidableEq, Repr

/-- A rate bridge (R349). -/
structure Bridge where
  source : Nat
  src : Nat
  dst : Nat
  primed : Bool
  deriving DecidableEq, Repr

/-- A side-tone path over the block interval that runs: its settings word, the word before a crossfade, and the crossfade's samples done and
length (R355, R366). -/
structure SideNow where
  word : Nat
  old : Nat
  fade : Option (Nat × Nat)
  deriving DecidableEq, Repr

/-- The audio block. -/
structure Audio where
  /-- Settings in force of the pending fields, the settings before a crossfade, and the armed set, where they differ from reset (R363,
  R366); the domains that have not applied it, and XFADE as it was armed. -/
  active : Store Word32
  old : Store Word32
  armed : Option (Store Word32)
  todo : List Nat
  xfade : Nat
  /-- Crossfades: by domain, samples done, length, and the words that change. -/
  fades : Store (Nat × Nat × List Nat)
  /-- A set has applied whose end has not been reported. -/
  applying : Bool
  streams : Store AudStream
  buses : Store AudBus
  bridges : Store Bridge
  /-- Output ports that drive from their domain's next boundary, ports in their first block, and ports that fade in after a takeover (R345,
  R368). -/
  joining : List Nat
  fresh : List Nat
  fadeIn : List Nat
  /-- The DSP is being replaced (R460): 1 the outputs fade out, 2 the block stands. -/
  pause : Nat
  /-- By domain, what the output slots carry in the block interval that runs and in the one after it: port × 16 + slot, samples (R353). -/
  late : Store (Store (List Int) × Store (List Int))
  /-- The two side-tone paths over the MAIN block interval that runs. -/
  side : List SideNow
  /-- Domains whose fade-out begins at their next boundary, and domains whose outputs fade out in the interval that runs (R369). -/
  closing : List Nat
  faded : List Nat
  deriving DecidableEq, Repr

def Audio.reset : Audio where
  active := []
  old := []
  armed := none
  todo := []
  xfade := 0
  fades := []
  applying := false
  streams := []
  buses := []
  bridges := []
  joining := []
  fresh := []
  fadeIn := []
  pause := 0
  late := []
  side := []
  closing := []
  faded := []

/-! ## The pair (R370 to R404) -/

/-- Pair states of R375, coded as PLK_STAT.STATE. -/
inductive PairState where
  | waiting | solo | active | syncing | standby | detached | apart
  deriving DecidableEq, Repr

/-- One item of the ordered stream (R382, R384, R385, R390). -/
inductive MirrorItem where
  /-- Pool data words: buffer slot, plot, first word, word count, attribute function and world (SPACE 0). -/
  | pool (buf plot word words fn : Nat) (world : Bool)
  /-- A register write: offset, value, latch frame, value of the matching selector, attribute of the writer (SPACE 1). -/
  | reg (addr val latch sel fn : Nat) (world : Bool)
  /-- A record of a channel-manager, retirement or rule operation: operation code, parameters, plots (SPACE 2), with the
  completion that waits for its acknowledgement (R70). -/
  | record (op : Nat) (params plots : List Nat) (wait : Option (Nat × Nat × List Nat))
  /-- A resync marker: begin or end (SPACE 3). -/
  | marker (fin : Bool)
  /-- COMMIT_ARM: stage 0 RECORD with entries, 1 APPLY with frame, 2 DROP (R390). -/
  | arm (stage rec frame group fn : Nat) (entries : List (Nat × Nat × Nat))
  deriving DecidableEq, Repr

/-- A flit kept for replay: its sequence number, its KIND and the item it carries (R381). -/
structure SentFlit where
  seq : Nat
  flit : Flit
  item : Option MirrorItem
  replays : Nat
  deriving DecidableEq, Repr

/-- A commit record that a standby device holds (R201). -/
structure HeldRecord where
  recNo : Nat
  group : Nat
  fn : Nat
  /-- (PF window offset, value, selector) of each changed word. -/
  entries : List (Nat × Nat × Nat)
  /-- The commit's page set (R195, R201). -/
  pages : List Nat
  final : Bool
  deriving DecidableEq, Repr

/-- The pair link and guy lines. -/
structure Pair where
  state : PairState
  guyOut : Bool
  guyIn : Bool
  guyFault : Bool
  linkUp : Bool
  /-- The link has trained; it is up once a HEARTBEAT has been received (R378). -/
  trained : Bool
  /-- Level that GUY_IN has left and since when, for the 4 µs filter (R373, R374). -/
  edgeAt : Nat
  /-- GUY_IN was seen asserted before the running release filter (R373). -/
  wasAsserted : Bool
  /-- In collision (R374), since when; waiting out the random time of R374. -/
  collision : Bool
  backoff : Bool
  backoffUs : Nat
  /-- Last values of the partner's HEARTBEAT: protocol, position, state, GUY_OUT, GUY_IN, version, DTIME, applied count. -/
  pProtocol : Nat
  pPosition : Nat
  pState : Nat
  pGuyOut : Bool
  pGuyIn : Bool
  pVersion : Nat
  pDtime : Nat
  pApplied : Nat
  /-- Consecutive heartbeats that disagreed with the guy line (R403). -/
  guyDiffer : Nat
  lastReason : Nat
  wakeReason : Nat
  versionDiff : Bool
  /-- Next sequence number to send and next expected. -/
  txSeq : Nat
  rxSeq : Nat
  /-- Last sequence number the partner acknowledged. -/
  acked : Nat
  /-- The receiver discards until the replayed flit arrives (R381). -/
  discarding : Bool
  recovering : Bool
  replay : List SentFlit
  /-- Flits that wait for room in the replay store (R381). -/
  control : List Flit
  /-- The ordered stream not yet sent, first in first out (R382). -/
  ordered : List MirrorItem
  /-- Ordered-stream flits sent, and flits of the partner applied (R383, R399). -/
  sentOrdered : Nat
  applied : Nat
  /-- Buffers that hold a mirror fence, with their unacknowledged words (R80). -/
  mirrorFence : Store Nat
  /-- A resync runs; plots still to send or receive in step 5 of R396, the words of the first that remain to be sent with their poison,
  and the items of steps 1 to 4 that remain queued. -/
  resyncing : Bool
  resyncPlots : List Nat
  syncWords : List (Nat × Bool)
  resyncItems : Nat
  /-- Record number of the next commit (R390), and records held as standby (R201). -/
  nextRec : Nat
  held : List HeldRecord
  /-- A voluntary handover: 0 none, 1 draining, 2 offered; its start in ns; on the partner, an offer awaiting digests. -/
  handover : Nat
  handoverAt : Nat
  offered : Option Nat
  /-- Frame digests: own and partner's per output, as (output, frame, digest, flags, bad regions, active regions). -/
  ownDigests : List (Digest × Nat)
  partnerDigests : List (Digest × Nat)
  /-- Consecutive mismatches of the partner's regions, by output × 16 + region (R261, R402). -/
  partnerRuns : Store Nat
  /-- Mirror writes refused since link up, and the first refused plot (R387, R400). -/
  refusedCount : Nat
  refusedPlot : Option Nat
  /-- Skewed frames of each output awaiting their digest (R388, R401), as (output, frame). -/
  skewed : List (Nat × Nat)
  /-- TIME_SYNC REQUEST time awaiting its REPLY (R392); frame compare time of each output (R393). -/
  syncT1 : Option Nat
  /-- VRR decisions received, as (output, frame, line, proceed) (R393). -/
  vrrFlits : List (Nat × Nat × Nat × Bool)
  /-- SCN_GENLOCK values stored without being applied (R222, R398). -/
  storedGenlock : Store Nat
  /-- Mirrored register writes that wait for their latch frame (R388), as (offset, value, frame). -/
  latched : List (Nat × Nat × Nat)
  /-- When GUY_IN was released, for PLK_TAKEOVER.LAST. -/
  releasedAt : Nat
  /-- The partner runs its link as R404 states for FALLOW. -/
  pFallow : Bool
  /-- Frames of each output that have ended since SYNC_DONE (R397), and outputs whose last compared digests differed. -/
  sinceSync : Store Nat
  mismatched : List Nat
  /-- Plots of the record being received (R385). -/
  recPlots : List Nat
  /-- Buffers that the token holder keeps FREEING (R384, R389): each holds one fence here until its record or a takeover. -/
  keptFree : List Nat
  /-- Channels that the token holder keeps DRAINING: they go with its record or after a takeover. -/
  keptChans : List Nat
  /-- A region found this device faulty: it resyncs once the handover has ended (R402). -/
  resyncAfter : Bool
  /-- APPLY stages sent and not acknowledged: record, lead output, frame (R201). -/
  applySent : List (Nat × Nat × Nat)
  /-- DTIME of line 0, clock 0 of each output's last frame, and the phase error of R393. -/
  lineZero : Store Nat
  frameErr : Store Int
  /-- DTIME of line 0, clock 0 of the partner's last frame of each output (R393). -/
  partnerZero : Store Nat
  deriving DecidableEq, Repr

def Pair.reset : Pair where
  state := .waiting
  guyOut := false
  guyIn := false
  guyFault := false
  linkUp := false
  trained := false
  edgeAt := 0
  wasAsserted := false
  collision := false
  backoff := false
  backoffUs := 0
  pProtocol := 0
  pPosition := 0
  pState := 0
  pGuyOut := false
  pGuyIn := false
  pVersion := 0
  pDtime := 0
  pApplied := 0
  guyDiffer := 0
  lastReason := 0
  wakeReason := 0
  versionDiff := false
  txSeq := 1
  rxSeq := 1
  acked := 0
  discarding := false
  recovering := false
  replay := []
  control := []
  ordered := []
  sentOrdered := 0
  applied := 0
  mirrorFence := []
  resyncing := false
  resyncPlots := []
  syncWords := []
  resyncItems := 0
  nextRec := 0
  held := []
  handover := 0
  handoverAt := 0
  offered := none
  ownDigests := []
  partnerDigests := []
  partnerRuns := []
  refusedCount := 0
  refusedPlot := none
  skewed := []
  syncT1 := none
  vrrFlits := []
  storedGenlock := []
  latched := []
  releasedAt := 0
  pFallow := false
  sinceSync := []
  mismatched := []
  recPlots := []
  keptFree := []
  keptChans := []
  resyncAfter := false
  applySent := []
  lineZero := []
  frameErr := []
  partnerZero := []

/-! ## Device time (R428 to R432) -/

/-- The time counters. -/
structure Time where
  /-- DTIME in ns (R428). -/
  dtime : Nat
  /-- Remainder below 1 ns, in units of 10^-9 ns, of the trimmed reference cycles. -/
  frac : Nat
  /-- AON tick counter at 32.768 kHz, and the part of a tick that has run, in units of 10^-9 tick. -/
  ticks : Nat
  tickFrac : Nat
  /-- Capture of R429 (DTIME_E, T_E and the TIM_CAL then in force), and whether a bridge is due at the next wake. -/
  dtimeE : Nat
  tickE : Nat
  calE : Nat
  captured : Bool
  deriving DecidableEq, Repr

def Time.reset : Time where
  dtime := 0
  frac := 0
  ticks := 0
  tickFrac := 0
  dtimeE := 0
  tickE := 0
  calE := 0
  captured := false

/-! ## Power states, save list and hold-up (R405 to R427) -/

/-- The five states of R407, and the end of R424 when VHOLD is exhausted. -/
inductive PowerState where
  | run | idle | fallow | holdup | off | stopped
  deriving DecidableEq, Repr

/-- A power request that runs (R408, R409). -/
structure PowerReq where
  target : Nat
  fn : Nat
  secure : Bool
  startNs : Nat
  /-- Step of R411: 1 draining, 2 haptic channels brake and audio fades out. -/
  step : Nat
  deriving DecidableEq, Repr

/-- The AON SRAM image (R420). -/
structure SramImage where
  /-- (offset, world, value) of each saved word, in list order. -/
  words : List (Nat × Bool × Nat)
  /-- The words that the SRAM's own code finds uncorrectable, by place in the list (R421). -/
  bad : List Nat
  cause : Nat
  dtime : Nat
  tick : Nat
  cal : Nat
  deriving DecidableEq, Repr

/-- One MRAM image slot (R425). -/
structure MramSlot where
  number : Nat
  crcOk : Bool
  image : SramImage
  /-- Residency words and tick at the sag. -/
  residency : List Nat
  tick : Nat
  deriving DecidableEq, Repr

/-- Power, save list, save SRAM and MRAM save store. -/
structure Power where
  state : PowerState
  req : Option PowerReq
  /-- Outputs that ran when IDLE or FALLOW was entered, for R410 and R415. -/
  ranOutputs : List Nat
  /-- Islands gated by the power state, beside those that PWR_ISL_CTRL gates. -/
  stateGated : List Nat
  /-- The save list (R419): offset and world of the writer. -/
  saveList : List (Nat × Bool)
  sram : Option SramImage
  /-- Save record: N, CONSUMED, its CRC holds (R425). -/
  recordN : Nat
  consumed : Bool
  recordOk : Bool
  slotA : Option MramSlot
  slotB : Option MramSlot
  /-- Xiresol's copy of the gated domains' register words and shadows in the secure region (R411 step 3). -/
  copyRegs : Store Word32
  copyShad : Store Word32
  copyOk : Bool
  /-- Doorbells latched in FALLOW (R412): function, queue, tail, and the layout of R45 of their access. -/
  doorbells : List (Nat × Nat × Nat × Nat)
  /-- A wake that runs (R415): its source bit, the attempts begun, when the source acted; waiting out the 10 ms of R416. -/
  wake : Option Nat
  attempts : Nat
  wakeAt : Nat
  wakeWait : Bool
  /-- The wake is a resume after a hold-up (R424). -/
  resume : Bool
  /-- Commands of R424 that a resume completes ABORTED, and the hold-up's start. -/
  sagAt : Nat
  flushed : Bool
  saving : Bool
  /-- Restart on the return of the supply (R424). -/
  restart : Bool
  /-- Speed and width of HA, HB and Plolia from which FALLOW lowered them (R411, R415). -/
  links : List (Nat × Nat)
  /-- PWR_WAKE_EN as the AON holds it in OFF (R414). -/
  wakeEn : Nat
  /-- HOLD_READY was 1 at the sag; the sag found the device in FALLOW or after a device-fatal fault (R424 to R426, R474). -/
  readyAtSag : Bool
  noResume : Bool
  /-- Alarm armed (R414). -/
  alarmArmed : Bool
  /-- The PMBus transaction in progress (R432 table): address, command, read, length. -/
  pmb : Option (Nat × Nat × Bool × Nat)
  /-- Rail map of the signed settings: PMBus page to the hold groups that it feeds. -/
  railMap : Store (List Nat)
  /-- The page that the last PMBus PAGE command selected, per device address. -/
  pmbPage : Store Nat
  deriving DecidableEq, Repr

def Power.reset : Power where
  state := .run
  req := none
  ranOutputs := []
  stateGated := []
  saveList := []
  sram := none
  recordN := 0
  consumed := true
  recordOk := true
  slotA := none
  slotB := none
  copyRegs := []
  copyShad := []
  copyOk := false
  doorbells := []
  wake := none
  attempts := 0
  wakeAt := 0
  wakeWait := false
  resume := false
  sagAt := 0
  flushed := false
  saving := false
  restart := false
  links := []
  wakeEn := 0x7F
  readyAtSag := false
  noResume := false
  alarmArmed := false
  pmb := none
  railMap := []
  pmbPage := []

/-! ## Ageing (R433 to R446) -/

/-- A ledger record (R445): number, powered hours, cause, highest Tj, per island (V_req, floor requirement, planned frequency,
reduced), voltages of the nine groups. -/
structure LedgerRecord where
  number : Nat
  hours : Nat
  cause : Nat
  tj : Int
  islands : List (Nat × Nat × Nat × Bool)
  groups : List Nat
  crcOk : Bool
  deriving DecidableEq, Repr

/-- Margin state. -/
structure Age where
  /-- Voltages in force and planned per group, frequencies in force and planned per island, where they differ from the factory
  plan; the ledger's plan in force. -/
  mvNow : Store Nat
  mvPlan : Store Nat
  mhzNow : Store Nat
  mhzPlan : Store Nat
  /-- A plan is being applied, and whether any value has changed in it. -/
  applying : Bool
  changed : Bool
  /-- Reductions by island: CAP. -/
  caps : Store Nat
  /-- V_req, degradation and slack of the last survey by island. -/
  measured : Store (Nat × Nat × Nat)
  ledger : List LedgerRecord
  hours : Nat
  /-- The survey that runs, and one that waits, by cause. -/
  survey : Option Nat
  waiting : Option Nat
  surveys : Nat
  /-- The record that the ledger takes when the plan being applied is complete (R440). -/
  record : Option LedgerRecord
  deriving DecidableEq, Repr

def Age.reset : Age where
  mvNow := []
  mvPlan := []
  mhzNow := []
  mhzPlan := []
  applying := false
  changed := false
  caps := []
  measured := []
  ledger := []
  hours := 0
  survey := none
  waiting := none
  surveys := 0
  record := none

/-! ## Firmware update (R447 to R462) -/

/-- Confirmed location, trial location, trial attempts left (R451). -/
structure BootEntry where
  confirmed : Nat
  trial : Option Nat
  attempts : Nat
  deriving DecidableEq, Repr

/-- The content of a boot record (R451). -/
structure BootRecord where
  xiresol : BootEntry
  microcode : BootEntry
  settings : BootEntry
  /-- WHEN of the armed activation; 0 none. -/
  when_ : Nat
  deriving DecidableEq, Repr

/-- One copy of the boot record. -/
structure BootCopy where
  seq : Nat
  crcOk : Bool
  data : BootRecord
  deriving DecidableEq, Repr

/-- A UPD_CMD that runs: OP, requester, KIND, WHEN, and the code of its checks. -/
structure UpdRun where
  op : Nat
  fn : Nat
  secure : Bool
  kind : Nat
  when_ : Nat
  code : Nat
  /-- UPD_ARG0, UPD_ARG1 and UPD_ARG2 as the command took them. -/
  args : Nat × Nat × Nat
  deriving DecidableEq, Repr

/-- Update state. -/
structure Update where
  /-- Session state of the UPD page, its holder, kind and target location, and the bytes staged. -/
  state : Nat
  holder : Nat
  kind : Nat
  target : Nat
  staged : Nat
  running : Option UpdRun
  /-- The flash: bytes that differ from what an erased byte reads as. -/
  flash : List Host.Cell
  copy0 : BootCopy
  copy1 : BootCopy
  /-- Kinds whose image was on trial in this start, and kinds that started on trial before and were not confirmed. -/
  trials : List Nat
  begun : List Nat
  /-- Why the trial start ended (R456). -/
  reason : Nat
  /-- Fuse counters of kinds 1 to 3, and SVNs whose burn waits. -/
  fuses : Store Nat
  burn : Store Nat
  /-- Microcode in place: targets still to load (R460). -/
  micro : List Nat
  /-- The replacement of the first of them has begun. -/
  loading : Bool
  /-- MOTION: its level and its last edge in ns (R454). -/
  motion : Bool
  motionAt : Option Nat
  /-- UPD_REVERT as the update journal holds it: reason, kind, count. -/
  journal : Nat × Nat × Nat
  deriving DecidableEq, Repr

def Update.reset : Update where
  state := 0
  holder := 0
  kind := 0
  target := 0
  staged := 0
  running := none
  flash := []
  copy0 := ⟨1, true, ⟨⟨0, none, 0⟩, ⟨0, none, 0⟩, ⟨0, none, 0⟩, 0⟩⟩
  copy1 := ⟨0, true, ⟨⟨0, none, 0⟩, ⟨0, none, 0⟩, ⟨0, none, 0⟩, 0⟩⟩
  trials := []
  begun := []
  reason := 0
  fuses := []
  burn := []
  micro := []
  loading := false
  motion := false
  motionAt := none
  journal := (0, 0, 0)

/-! ## Faults, the system log and start-up (R463 to R475, R489) -/

/-- An entry of the system log (R475); its CRC follows from the other bytes. -/
structure LogEntry where
  dtime : Nat
  epoch : Nat
  cls : Nat
  prev : Bool
  code : Nat
  source : Nat
  info : Nat
  fn : Nat
  reps : Nat
  seq : Nat
  deriving DecidableEq, Repr

/-- The early image of an output (R466): slot, channel and buffer of the image, and END_OWNER. -/
structure Early where
  slot : Nat
  chan : Nat
  buf : Nat
  endOwner : Nat
  /-- Its first frame has been handed to the link (R467). -/
  shown : Bool
  deriving DecidableEq, Repr

/-- Fault and start-up state. -/
structure Faults where
  /-- The ring, oldest first, and the tail in MRAM (R475). -/
  log : List LogEntry
  tail : List LogEntry
  nextLog : Nat
  /-- The device-fatal fault in force, since when, and whether the device has halted (R473). -/
  fatal : Option Nat
  fatalAt : Nat
  halted : Bool
  /-- Kept in MRAM: fatal faults since AON power-on, the last source, times of fatal restarts. -/
  fatalCount : Nat
  fatalLast : Nat
  restarts : List Nat
  /-- RESET_N is held or a reset is in progress: the next reset release starts the device; its RESET_CAUSE. -/
  inReset : Bool
  cause : Nat
  /-- The Stake holds the device in reset: no Xiresol image passed (R465). -/
  recovery : Bool
  /-- The settings that this start has read; none under the default plan. -/
  settings : Option Settings
  /-- Time of reset release. -/
  releasedAt : Nat
  early : Store Early
  /-- Outputs stopped by a contained fault, whose transmitters go idle at the stop (R472). -/
  containStop : List Nat
  /-- Pages of blocks that a contained fault has stopped (R472). -/
  stopped : List Nat
  /-- THERMTRIP_N is asserted (R489). -/
  thermtrip : Bool
  deriving DecidableEq, Repr

def Faults.reset : Faults where
  log := []
  tail := []
  nextLog := 0
  fatal := none
  fatalAt := 0
  halted := false
  fatalCount := 0
  fatalLast := 0
  restarts := []
  inReset := false
  cause := 1
  recovery := false
  settings := none
  releasedAt := 0
  early := []
  containStop := []
  stopped := []
  thermtrip := false

/-! ## The whole state -/

/-- The state of the device. -/
structure State where
  /-- The commands that wait, first in, first out. The model's own. -/
  pending : List Instr
  /-- The part number (R1). -/
  part : Part
  /-- Register words that differ from reset, by PF window offset; banked words above the window. -/
  regs : Store Word32
  /-- Shadow words of RWS registers that differ from reset (R187). -/
  shad : Store Word32
  /-- What start-up loaded into fields whose reset value is a dash, where it differs from the default (R13, R46). -/
  loaded : Store Word32
  /-- Staging copies of 128-bit registers (R49). -/
  staged : List Staged
  /-- Read latches of 128-bit registers and 64-bit counters (R50, R158). -/
  latched : List Latched
  /-- Pages inside a soft reset that has not ended (R46, R501), by page offset. -/
  softResetting : List Nat
  /-- DRAM bytes that differ from what an unlisted byte reads as. -/
  mem : List Host.Cell
  /-- What the device has put out, oldest first. The model's own. -/
  out : List Output
  /-- The index of the next free value. The model's own. -/
  free : Nat
  /-- Time since reset in ns, in reference cycles of 40 ns. The model's own clock. -/
  now : Nat
  time : Time
  power : Power
  dram : Dram
  edac : Edac
  pool : Pool
  ingest : Ingest
  display : Display
  /-- Transmitters and scan engines, by number. -/
  dpls : Store Dpl
  cvus : Store CvuEngine
  touch : Touch
  haptic : Haptic
  audio : Audio
  age : Age
  update : Update
  faults : Faults
  worlds : Worlds
  hosts : Hosts
  pair : Pair
  deriving DecidableEq, Repr

/-- The machine right after reset. -/
def State.reset : State where
  pending := []
  part := .sx8400
  regs := []
  shad := []
  loaded := []
  staged := []
  latched := []
  softResetting := []
  mem := []
  out := []
  free := 0
  now := 0
  time := Time.reset
  power := Power.reset
  dram := Dram.reset
  edac := Edac.reset
  pool := Pool.reset
  ingest := Ingest.reset
  display := Display.reset
  dpls := []
  cvus := []
  touch := Touch.reset
  haptic := Haptic.reset
  audio := Audio.reset
  age := Age.reset
  update := Update.reset
  faults := Faults.reset
  worlds := Worlds.reset
  hosts := Hosts.reset
  pair := Pair.reset

end Sys2Proof.Machine
end

