-- ==== Sys2Proof/Machine/Ops.lean ====
section
/-! DEFINITION. The named operations over registers, events, status codes, messages and DRAM that every family
shares. -/

namespace Sys2Proof.Machine

/-! ## Bits -/

/-- Bits [hi:lo] of a number. -/
def bits (hi lo v : Nat) : Nat := v / 2 ^ lo % 2 ^ (hi + 1 - lo)

/-- `v` with bits [hi:lo] replaced by `x`. -/
def setBits (hi lo v x : Nat) : Nat :=
  v - bits hi lo v * 2 ^ lo + x % 2 ^ (hi + 1 - lo) * 2 ^ lo

/-- Bit n of a number. -/
def bit (n v : Nat) : Bool := v / 2 ^ n % 2 == 1

/-- One or zero. -/
def b2n (b : Bool) : Nat := if b then 1 else 0

/-- An unsigned field of `w` bits read as two's complement (R7). -/
def signed (w v : Nat) : Int := if v % 2 ^ w < 2 ^ (w - 1) then (v % 2 ^ w : Nat) else ((v % 2 ^ w : Nat) : Int) - 2 ^ w

/-- An integer stored in `w` bits. -/
def toBits (w : Nat) (v : Int) : Nat := (v % 2 ^ w).toNat

/-- Clamp to a range. -/
def clamp (lo hi v : Int) : Int := if v < lo then lo else if hi < v then hi else v

/-- Saturate at the largest value of `w` bits. -/
def satAdd (w a b : Nat) : Nat := min (a + b) (2 ^ w - 1)

/-! ## Field tables -/

/-- Whether byte distance `d` is an element of index dimensions, outermost first. -/
def inDims : List (Nat × Nat) → Nat → Bool
  | [], d => d == 0
  | (c, st) :: r, d => decide (d / st < c) && inDims r (d % st)

/-- Whether a field has a word at byte offset `o`. -/
def Fld.hits (f : Fld) (o : Nat) : Bool := decide (f.off ≤ o) && inDims f.dims (o - f.off)

/-- The byte offset of an element of an indexed field. -/
def Fld.at (f : Fld) (ix : List Nat) : Nat := f.off + ((f.dims.zip ix).map fun p => p.1.2 * p.2).sum

/-- The fields of a page that lie in the word at byte offset `o`. -/
def Page.fieldsAt (pg : Page) (o : Nat) : List Fld := pg.flds.filter fun f => f.hits o

/-- The key of a word: PF window offset for a page of the window (R42). -/
def Page.key (pg : Page) (o : Nat) : Nat := pg.base + o

/-- Words of an indirect or selected register lie above the window: one bank per register. -/
def bankKey (a sel : Nat) : Nat := 0x1_0000_0000 + a * 0x100000 + sel

/-! ## Reset values -/

/-- Pages on which start-up loads ENABLE = 1 (R44); DMC8 to DMC15 are absent on the HSK-SX8200 (R2). -/
def startsEnabled (part : Part) : Page → Bool
  | .sys | .tim | .log | .pwr | .aon | .age | .upd | .wld | .own | .hp _ | .edac => true
  | .dmc n => part == .sx8400 || decide (n < 8)
  | _ => false

/-- PG_CAP.BLOCK_CAP of each page, from the block's chapter. -/
def blockCap (part : Part) : Page → Nat
  | .chn => 0x100
  | .pool => if part = .sx8400 then 0x10_0000 else 0x08_0000
  | .wld => 0x4
  | .own => 0x1_0000
  | .pmc => 0x8
  | .vf _ => 0x4 + 0x8 * 8
  | .hp _ => 0x3F + 0x8 * 64
  | .ing _ => 0x8 + 0x40 * 16 + 0x0C * 2048
  | .pipe _ => 0x4 + 0x10 * 16 + 0x10 * 512 + 0x1 * 16384
  | .slot _ _ => 0x100
  | .scn _ => 0x1E00 + 0x870 * 0x2000 + 0x1 * 2 ^ 26 + 0x1 * 2 ^ 27
  | .dpl _ => 0xF
  | .cvu _ => 0x8 + 0x20 * 16 + 0xF * 1024
  | .chk _ => 0x10
  | .dmc _ => if part = .sx8400 then 0xC + 16 + 0x40 * 32 else 0xC
  | .edac => 0x10 + 0x40 * 32
  | .tch _ => 0x60 + 0xA0 * 128 + 0x4 * 2 ^ 15
  | .hap => 0x8 + 0x40 * 16 + 0x200 * 2048
  | .aud 0 => 0x20
  | .plk => 0x8 + 0x01 * 16
  | .pwr => 0x2E + 0x1000 * 64
  | .aon => 0x40 + 0x1000 * 128
  | .age => 0x2E + 0x9 * 64
  | .upd => 0x10
  | .log => 0x1000
  | _ => 0

/-- PG_CAP (R44): no register table of the spec holds a 128-bit register, so WIDE is 0; every page holds the RWL field
PG_CTRL.ENABLE, so LOCKABLE is 1. -/
def pgCap (part : Part) (pg : Page) : Nat :=
  blockCap part pg + b2n true * 2 ^ 28
    + b2n (match pg with | .slot _ _ | .chk _ => true | _ => false) * 2 ^ 29
    + b2n (pg.flds.any fun f => f.acc == .rws) * 2 ^ 30

/-- The function numbers that hold quotas, limits and shares (R73): PFs, VFs, 0x40 and 0x41. -/
def isHolder (fn : Nat) : Bool := decide (fn < 0x42) || (decide (0x80 ≤ fn) && decide (fn < 0xC0))

/-- VF numbers (R41). -/
def isVf (fn : Nat) : Bool := (decide (1 ≤ fn) && decide (fn < 0x40)) || (decide (0x81 ≤ fn) && decide (fn < 0xC0))

/-- PF0 numbers (R41). -/
def isPf (fn : Nat) : Bool := fn == 0x00 || fn == 0x80

/-- Values that start-up loads into fields whose reset value is a dash, outside the header. -/
def loadedField (part : Part) (pg : Page) (f : Fld) : Nat :=
  match pg with
  | .vf fn => if f = F.VF_INFO_FUNCTION then fn else 0
  | .sys => if f = F.SYS_DEV_ID_PART then (if part = .sx8400 then 0x8400 else 0x8200)
      else if f = F.SYS_DEV_ID_STEPPING then 0xB1 else if f = F.SYS_STAT_RESET_CAUSE then 1 else 0
  | .upd => if f = F.UPD_CFG_MOTION_EN then 1 else if f = F.UPD_CFG_STILL_S then 0x0A else 0
  | _ => 0

/-- The reset value of one field in one page (R13, R44). -/
def fieldReset (part : Part) (pg : Page) (f : Fld) : Nat :=
  match f.reset with
  | some v => if f = F.HP_MGR_ROLE && pg == .hp 0 then 1 else v
  | none => loadedField part pg f

/-- The reset value of the word at a byte offset of a page. -/
def pageWordReset (part : Part) (pg : Page) (o : Nat) : Nat :=
  if o = 0x000 then pg.kind * 2 ^ 24 + pg.instNo * 2 ^ 16 + 0x0100
  else if o = 0x004 then pgCap part pg
  else if o = 0x008 ∨ o = 0x00C then b2n (startsEnabled part pg)
  else if o = 0x02C then (match pg with | .vf fn => fn * 2 ^ 16 | _ => 0x0040_0000)
  else if o = 0x030 then (match pg with | .vf fn => fn * 2 ^ 16 | _ => 0x0040_0000)
  else (match pg with
    -- the default region of R465: region 0 STRONG over the first 64 MiB, its check area at 64 MiB
    | .edac => if o = 0x104 then 32 else if o = 0x108 then 0x400 else if o = 0x10C then 1
        else ((pg.fieldsAt o).map fun f => fieldReset part pg f * 2 ^ f.lo).sum
    -- DMC_WDRAIN is implemented on the HSK-SX8400 alone (R1)
    | .dmc _ => if o = F.DMC_WDRAIN_HIGH.off ∧ part = .sx8200 then 0
        else ((pg.fieldsAt o).map fun f => fieldReset part pg f * 2 ^ f.lo).sum
    | .chk _ => if F.CHK_OWNER_WORLD.hits o then 0x0040_0000
        else ((pg.fieldsAt o).map fun f => fieldReset part pg f * 2 ^ f.lo).sum
    | _ => ((pg.fieldsAt o).map fun f => fieldReset part pg f * 2 ^ f.lo).sum)

/-- How many block events each page defines: bits 0 up of EVT_RAW (R44 and the tables of each block's chapter). -/
def evtCount : Page → Nat
  | .sys | .aon | .hp _ | .edac => 6
  | .age => 5
  | .pwr | .upd | .pool | .hap => 4
  | .tim | .ing _ | .cvu _ | .slot _ _ => 3
  | .wld | .vf _ | .pipe _ | .chk _ => 2
  | .log | .own | .chn => 1
  | .dmc _ | .tch _ => 7
  | .scn _ => 12
  | .dpl _ => 10
  | .plk => 9
  | .aud n => if n = 0 then 3 else if n < 7 then 2 else 0
  | .pmc => 0

/-- The bits that EVT_RAW of a page holds: its block events and ERR. The others are reserved (R12, R44). -/
def evtMask (pg : Page) : Nat := 2 ^ 31 + (2 ^ evtCount pg - 1)

/-- The page of a key, the VF control pages included. -/
def pageOfKey (k : Nat) : Option Page :=
  if k < 0x1000000 then pageOf k
  else if k < 0x1100000 then some (.vf ((k - 0x1000000) / 0x1000))
  else none

/-- Latency targets of the twelve DRAM ports at start-up, in units of 10 ns (R270). -/
def portTargets : List Nat := [100, 200, 800, 800, 800, 400, 200, 200, 50, 100, 1600, 50]

/-- Reset values of banked words: limits and quotas per function (R83, R84), fetch weights, criticality, ports and
tables, as each register's chapter states. -/
def bankReset (a sel : Nat) : Nat :=
  if a = Page.chn.key F.CHN_FN_LIMIT_LIMIT.off then (if sel = 0 ∨ sel = 0x80 ∨ sel = 0x40 ∨ sel = 0x41 then 0x100 else 0)
  else if a = Page.pool.key F.POOL_FN_QUOTA_QUOTA.off then
    (if sel = 0 ∨ sel = 0x80 ∨ sel = 0x40 ∨ sel = 0x41 then 0x10_0000 else 0)
  else if a = Page.own.key F.OWN_FN_CRIT_CRIT.off then (if sel = 0x41 then 3 else 0)
  else if a = (Page.hp 0).key F.HP_FN_WEIGHT_WEIGHT.off ∨ a = (Page.hp 1).key F.HP_FN_WEIGHT_WEIGHT.off then 0x10
  else
    let o := a % 0x1000
    match pageOf a with
    | some (.pipe _) =>
      if o = F.PIPE_LUT_DATA_ENTRY.off then (sel % 1024 * 65535 + 511) / 1023
      else if o = F.PIPE_SCL_DATA_TAP_EVEN.off then
        -- entry: table × 128 + phase × 2 + pair; taps (0, 0x4000 - 0x100 p, 0x100 p, 0)
        (let p := sel / 2 % 64
         if sel % 2 = 0 then (0x4000 - 0x100 * p) * 2 ^ 16 else 0x100 * p)
      else 0
    | some (.slot _ _) => if o = F.SLOT_LUT_DATA_ENTRY.off then (sel % 1024 * 65535 + 511) / 1023 else 0
    | some (.dmc _) => if o = F.DMC_PORT_TARGET_TARGET.off then portTargets.getD sel 0 else 0
    | _ => 0

/-- What an unlisted register word reads as: its reset value. -/
def resetWord (part : Part) (k : Nat) : Word32 :=
  if k < 0x1_0000_0000 then
    match pageOfKey k with
    | some pg => BitVec.ofNat 32 (pageWordReset part pg (k % 0x1000))
    | none => 0
  else BitVec.ofNat 32 (bankReset ((k - 0x1_0000_0000) / 0x100000) (k % 0x100000))

/-! ## Register words and fields -/

namespace State

/-- The active word at a key. -/
def rw (s : State) (k : Nat) : Nat := (Sparse.get (resetWord s.part) s.regs k).toNat

/-- Set the active word at a key. -/
def setRw (s : State) (k v : Nat) : State :=
  { s with regs := Sparse.set (resetWord s.part) s.regs k (BitVec.ofNat 32 v) }

/-- The shadow word at a key (R187); after reset it equals the reset value of the active word. -/
def sw (s : State) (k : Nat) : Nat := (Sparse.get (resetWord s.part) s.shad k).toNat

/-- Set the shadow word at a key. -/
def setSw (s : State) (k v : Nat) : State :=
  { s with shad := Sparse.set (resetWord s.part) s.shad k (BitVec.ofNat 32 v) }

/-- The active value of a field of a page. -/
def fld (s : State) (pg : Page) (f : Fld) (ix : List Nat := []) : Nat := bits f.hi f.lo (s.rw (pg.key (f.at ix)))

/-- Set the active value of a field. -/
def setFld (s : State) (pg : Page) (f : Fld) (v : Nat) (ix : List Nat := []) : State :=
  let k := pg.key (f.at ix)
  s.setRw k (setBits f.hi f.lo (s.rw k) v)

/-- The shadow value of a field. -/
def sfld (s : State) (pg : Page) (f : Fld) (ix : List Nat := []) : Nat := bits f.hi f.lo (s.sw (pg.key (f.at ix)))

/-- Set the shadow value of a field. -/
def setSfld (s : State) (pg : Page) (f : Fld) (v : Nat) (ix : List Nat := []) : State :=
  let k := pg.key (f.at ix)
  s.setSw k (setBits f.hi f.lo (s.sw k) v)

/-- Whether a one-bit field reads 1. -/
def flag (s : State) (pg : Page) (f : Fld) (ix : List Nat := []) : Bool := s.fld pg f ix == 1

/-- Add to a field that wraps at its width. -/
def addFld (s : State) (pg : Page) (f : Fld) (n : Nat) (ix : List Nat := []) : State :=
  s.setFld pg f (s.fld pg f ix + n) ix

/-- Add to a field that saturates. -/
def satFld (s : State) (pg : Page) (f : Fld) (n : Nat) (ix : List Nat := []) : State :=
  s.setFld pg f (satAdd (f.hi + 1 - f.lo) (s.fld pg f ix) n) ix

/-- Add to a 48-bit counter held in a _LO and a _HI field. -/
def addCnt (s : State) (pg : Page) (lo hi : Fld) (n : Nat) (ix : List Nat := []) : State :=
  let v := s.fld pg lo ix + s.fld pg hi ix * 2 ^ 32 + n
  (s.setFld pg lo v ix).setFld pg hi (v / 2 ^ 32) ix

/-- Put something out. -/
def emit (s : State) (o : Output) : State := { s with out := s.out ++ [o] }

/-- Take the next free value: nothing constrains it. -/
def takeFree (s : State) : Nat × State := (Config.freeValue s.free, { s with free := s.free + 1 })

/-- DTIME: once it has been captured, the AON tick counter carries it (R428, R429). -/
def deviceTime (s : State) : Nat :=
  let t := s.time
  if t.captured then (t.dtimeE + (t.ticks - t.tickE) * t.calE / 65536) % 2 ^ 64 else t.dtime

/-! ## Messages and events (R56 to R59) -/

/-- The number of MSI-X vectors of a function (R59); 0 for a number that names no receiver. -/
def vectors (fn : Nat) : Nat :=
  if isPf fn || fn == 0x40 || fn == 0x41 then 64 else if isVf fn then 8 else 0

/-- The state of a function of a host port; an unlisted one is ABSENT. -/
def fnState (s : State) (fn : Nat) : FnState := ((Sparse.find s.hosts.fns fn).map Fn.state).getD .absent

/-- A service core is inside the gate (R99). -/
def inGate (s : State) (k : Nat) : Bool := ((Sparse.find s.worlds.cores k).map Core4.inSecure).getD false

/-- The service core that takes a vector of the internal interrupt controller. The spec does not state it. -/
def irqCore (vec : Nat) : Nat := Config.openResult 0x0100 [vec] % 4

/-- Send a message: to the internal interrupt controller at once, unless the service core that takes it is inside the gate, when it
waits for the scrub (R100); to a host function when the function is enabled and
the vector unmasked, and otherwise held in the pending bits of PCIe (R59). -/
def sendMsg (s : State) (fn vec : Nat) : State :=
  if fn = 0x40 then
    if s.inGate (irqCore vec) then { s with hosts := { s.hosts with heldIrqs := s.hosts.heldIrqs ++ [(irqCore vec, vec)] } }
    else s.emit (.message fn vec)
  else if fn = 0x41 then s.emit (.message fn vec)
  else if s.fnState fn = .enabled ∧ (fn, vec) ∈ s.hosts.unmasked then s.emit (.message fn vec)
  else if vectors fn = 0 ∨ (fn, vec) ∈ s.hosts.msiPending then s
  else { s with hosts := { s.hosts with msiPending := s.hosts.msiPending ++ [(fn, vec)] } }

/-- EVT_PEND of a page (R44). -/
def evtPend (s : State) (pg : Page) : Nat := Nat.land (s.rw (pg.key 0x010)) (s.rw (pg.key 0x014))

/-- EVT_ROUTE.FUNCTION as it reads: a copy of OWNER.FUNCTION while the page is delegated (R44). -/
def routeFn (s : State) (pg : Page) : Nat :=
  if s.flag pg F.OWNER_DELEGATE then s.fld pg F.OWNER_FUNCTION else s.fld pg F.EVT_ROUTE_FUNCTION

/-- The page's message, when EVT_ROUTE.EN is 1 (R57). -/
def pageMsg (s : State) (pg : Page) : State :=
  if s.flag pg F.EVT_ROUTE_EN then s.sendMsg (s.routeFn pg) (s.fld pg F.EVT_ROUTE_VECTOR) else s

/-- Set bits of EVT_RAW, none of the reserved ones (R12); a message follows when EVT_PEND leaves zero (R56, R57). -/
def raise (s : State) (pg : Page) (mask : Nat) : State :=
  let old := s.evtPend pg
  let s' := s.setRw (pg.key 0x010) (Nat.lor (s.rw (pg.key 0x010)) (Nat.land mask (evtMask pg)))
  if old = 0 ∧ s'.evtPend pg ≠ 0 then s'.pageMsg pg else s'

/-- Set one event bit. -/
def event (s : State) (pg : Page) (n : Nat) : State := s.raise pg (2 ^ n)

/-! ## Status codes (R45, R61) -/

end State

/-- Every status code that the device returns (R61). -/
def statusCodes : List Nat :=
  [0x0000, 0x0001, 0x0002, 0x0003, 0x0004, 0x0005, 0x0006, 0x0007, 0x0008, 0x0009, 0x000A, 0x0101, 0x0102, 0x0103, 0x0104,
    0x0105, 0x0106, 0x0107, 0x0108, 0x0201, 0x0202, 0x0203, 0x0204, 0x0301, 0x0302, 0x0303, 0x0304, 0x0305, 0x0401, 0x0402,
    0x0403, 0x0501, 0x0502, 0x0503, 0x0504, 0x0505, 0x0506, 0x0507, 0x0601, 0x0602, 0x0603, 0x0604, 0x0701, 0x0702, 0x0703,
    0x0801, 0x0802, 0x0803, 0x0901, 0x0902, 0x0903, 0x0904, 0x0A01, 0x0A02, 0x0A03, 0x0A04, 0x0B01, 0x0B02, 0x0C01, 0x0C02,
    0x0D01, 0x0D02, 0x0D03, 0x0E01, 0x0E02, 0x0E03, 0x0F01, 0x0F02, 0x0F03, 0x1001, 0x1002, 0x1003, 0x1004, 0x1101, 0x1102,
    0x1103, 0x1104, 0x1201, 0x1202, 0x1301, 0x1302]

/-- A code of the table that the spec does not single out. -/
def openCode (key : Nat) (args : List Nat) : Nat := statusCodes.getD (Config.openResult key args % statusCodes.length) 0

namespace State

/-- Record a status code in a page. -/
def recErr (s : State) (pg : Page) (code : Nat) (info : Nat := 0) : State :=
  let s1 :=
    if s.fld pg F.ERR_CODE_CODE = 0 then
      (s.setFld pg F.ERR_CODE_CODE code).setRw (pg.key 0x024) info
    else s.setFld pg F.ERR_CODE_OVERFLOW 1
  s1.raise pg (2 ^ 31)

end State

/-- A register access resolved to its page: page, byte offset in it, requester, value, and whether it came through a VF
window (R37, R38). -/
structure RegAcc where
  page : Page
  off : Nat
  req : Req
  val : Nat
  viaVf : Bool
  deriving DecidableEq, Repr

/-- ERR_INFO of a code recorded on a register write (R45). -/
def RegAcc.info (a : RegAcc) : Nat := a.off % 0x1000 + 2 ^ 12 + b2n a.req.secure * 2 ^ 13 + a.req.fn * 2 ^ 16

namespace State

/-- Record a code for a register write (R45). -/
def recAcc (s : State) (a : RegAcc) (code : Nat) : State := s.recErr a.page code a.info

/-! ## Performance counters (R102, R108) -/

/-- Count a performance event n times (R102, R108): nothing of the secure world, and the filter where it applies. -/
def pmcCount (s : State) (event fn : Nat) (world filterApplies : Bool) (n : Nat) : State :=
  if world ∨ !s.flag .pmc F.PMC_CTRL_RUN then s
  else
    (List.range 8).foldl (fun t i =>
      if t.fld .pmc F.PMC_SEL_EVENT [i] = event
          ∧ (!filterApplies ∨ !t.flag .pmc F.PMC_SEL_FN_FILTER [i] ∨ t.fld .pmc F.PMC_SEL_FUNCTION [i] = fn) then
        t.addCnt .pmc F.PMC_CNT_LO_COUNT_LO F.PMC_CNT_HI_COUNT_HI n [i]
      else t) s

/-! ## Refusals of world separation (R90) -/

/-- Count a refused transaction and capture its attribute and address. -/
def deny (s : State) (fn : Nat) (world : Bool) (crit : Nat) (write : Bool) (target addr : Nat) : State :=
  let s1 := s.satFld .wld F.WLD_DENY_COUNT_COUNT 1
  let s2 :=
    if s1.flag .wld F.WLD_DENY_ATTR_VALID then s1
    else
      let s3 := s1.setRw (Page.wld.key 0x04C)
        (fn + b2n world * 2 ^ 8 + crit * 2 ^ 9 + b2n write * 2 ^ 11 + target * 2 ^ 12 + 2 ^ 16)
      let s4 := s3.setRw (Page.wld.key 0x050) (addr % 2 ^ 32)
      s4.setFld .wld F.WLD_DENY_ADDR_HI_ADDR_HI (addr / 2 ^ 32)
  (s2.event .wld 0).pmcCount 0x04 fn world true 1

/-- OWN_FN_CRIT of a function (R87); 3 for 0x41. -/
def fnCrit (s : State) (fn : Nat) : Nat :=
  if fn = 0x41 then 3 else bits 1 0 (s.rw (bankKey (Page.own.key F.OWN_FN_CRIT_CRIT.off) fn))

/-- A refused normal-world access to a register page: WLD counts it and the page records WORLD_DENIED (R11, R90). -/
def denyReg (s : State) (a : RegAcc) : State :=
  (s.deny a.req.fn a.req.secure (s.fnCrit a.req.fn) true 0x4 (a.page.key a.off)).recAcc a 0x0201

/-! ## Field writes (R10, R11, R47, R51, R497) -/

/-- Whether the field is secure for this access: marked SEC, or any field but PG_ID, PG_CAP and PG_STAT of a page that
belongs to the secure world (R51). -/
def secFor (s : State) (a : RegAcc) (f : Fld) : Bool :=
  f.sec || (s.flag a.page F.OWNER_WORLD && a.off != 0x000 && a.off != 0x004 && a.off != 0x00C)

/-- Whether the whole access is refused to the requester because the page is the secure world's (R51). -/
def secretPage (s : State) (a : RegAcc) : Bool := s.flag a.page F.OWNER_WORLD && !a.req.secure

/-- The key under which a word stands: its own, or for a word behind a selector of its page that of the selected bank; 0 for a
selector that names no bank (R83, R84, R87, R131, R185, R270, R406). -/
def wordKey (s : State) (pg : Page) (o : Nat) : Option Nat :=
  let k := pg.key o
  let bank := fun (ok : Bool) (sel : Nat) => if ok then some (bankKey k sel) else none
  match pg with
  | .chn => if o = F.CHN_FN_LIMIT_LIMIT.off then (let f := s.fld .chn F.CHN_FN_SEL_FUNCTION; bank (isHolder f) f) else some k
  | .pool =>
    if o = F.POOL_FN_QUOTA_QUOTA.off ∨ o = F.POOL_FN_SHARE_SHARE.off then
      (let f := s.fld .pool F.POOL_FN_SEL_FUNCTION; bank (isHolder f) f) else some k
  | .own => if o = F.OWN_FN_CRIT_CRIT.off then bank true (s.fld .own F.OWN_FN_SEL_FUNCTION) else some k
  | .hp _ => if o = F.HP_FN_WEIGHT_WEIGHT.off then bank true (s.fld pg F.HP_FN_SEL_FUNCTION) else some k
  | .dmc _ =>
    if o = F.DMC_PORT_TARGET_TARGET.off then (let p := s.fld pg F.DMC_PORT_SEL_PORT; bank (decide (p < 12)) p) else some k
  | .pwr => if o = F.PWR_ISL_CTRL_GATE.off then (let i := s.fld .pwr F.PWR_ISL_SEL_ISLAND; bank (decide (i < 46)) i) else some k
  | .pipe _ =>
    if o = F.PIPE_LUT_DATA_ENTRY.off then bank true (s.fld pg F.PIPE_LUT_ADDR_CHANNEL * 1024 + s.fld pg F.PIPE_LUT_ADDR_INDEX)
    else if o = F.PIPE_SCL_DATA_TAP_EVEN.off then
      bank true (s.fld pg F.PIPE_SCL_ADDR_SCALER * 256 + s.fld pg F.PIPE_SCL_ADDR_DIR * 128 + s.fld pg F.PIPE_SCL_ADDR_PHASE * 2
        + s.fld pg F.PIPE_SCL_ADDR_HALF)
    else some k
  | .slot _ _ => if o = F.SLOT_LUT_DATA_ENTRY.off then bank true (s.fld pg F.SLOT_LUT_ADDR_INDEX) else some k
  | _ => some k

/-- The value of the field that a read by the requester returns now (R10): 0 for a SEC field read by the normal world,
the shadow of an RWS field. -/
def readFor (s : State) (a : RegAcc) (f : Fld) : Nat :=
  if s.secFor a f && !a.req.secure then 0
  else if f.acc = .wo then 0
  else
    match s.wordKey a.page a.off with
    | none => 0
    | some k => if f.acc = .rws then bits f.hi f.lo (s.sw k) else bits f.hi f.lo (s.rw k)

/-- Whether a route's FUNCTION is read-only for this access: a copy of the owner's number while the page or region is delegated, fixed on
a VF control page, and no field that R53 gives to an access through a frame (R44, R53, R130, R262). -/
def routeFixed (s : State) (a : RegAcc) (f : Fld) : Bool :=
  (f == F.EVT_ROUTE_FUNCTION
      && (a.viaVf || s.flag a.page F.OWNER_DELEGATE || (match a.page with | .vf _ => true | _ => false)))
    || (f == F.CHK_ROUTE_FUNCTION && (a.viaVf || s.flag a.page F.CHK_OWNER_DELEGATE [(a.off - 0x100) / 0xC0]))

/-- Whether the write counts as writing the field (R497). -/
def written (s : State) (a : RegAcc) (f : Fld) : Bool :=
  let v := bits f.hi f.lo a.val
  if s.routeFixed a f then false
  else
  match f.acc with
  | .ro => false
  | .wo => if f.hi = f.lo then v != 0 else true
  | .w1c | .w1s => v != 0
  | .rw | .rws => v != s.readFor a f

/-- The effect of a write on one field that has no behaviour of its own (R10). -/
def applyField (a : RegAcc) (s : State) (f : Fld) : State :=
  let k := a.page.key a.off
  let v := bits f.hi f.lo a.val
  match f.acc with
  | .ro | .wo => s
  | .rw => s.setRw k (setBits f.hi f.lo (s.rw k) v)
  | .rws => s.setSw k (setBits f.hi f.lo (s.sw k) v)
  | .w1c => s.setRw k (setBits f.hi f.lo (s.rw k) (Nat.land (bits f.hi f.lo (s.rw k)) (2 ^ (f.hi + 1 - f.lo) - 1 - v)))
  | .w1s => s.setRw k (setBits f.hi f.lo (s.rw k) (Nat.lor (bits f.hi f.lo (s.rw k)) v))

/-- The fields of the accessed word that the write writes. -/
def writtenFields (s : State) (a : RegAcc) : List Fld := (a.page.fieldsAt a.off).filter (s.written a)

/-- Whether a written field is refused: SEC to the normal world, or RWL on a locked page (R11). -/
def refusedSec (s : State) (a : RegAcc) (f : Fld) : Bool := s.secFor a f && !a.req.secure

def refusedLock (s : State) (a : RegAcc) (f : Fld) : Bool := f.rwl && s.flag a.page F.PG_CTRL_LOCK

/-- The written fields that take effect. -/
def grantedFields (s : State) (a : RegAcc) : List Fld :=
  (s.writtenFields a).filter fun f => !s.refusedSec a f && !s.refusedLock a f

/-- Record the refusals of a write: WORLD_DENIED goes before PAGE_LOCKED (R11). -/
def recRefused (s : State) (a : RegAcc) : State :=
  if (s.writtenFields a).any (s.refusedSec a) then s.denyReg a
  else if (s.writtenFields a).any (s.refusedLock a) then s.recAcc a 0x0004
  else s

/-- A write that a rule refuses as a whole with `code` (R11, R497): nothing unless it writes a field; the refusals of the fields
themselves go before the rule's own. -/
def refuse (s : State) (a : RegAcc) (code : Nat) : State :=
  let w := s.writtenFields a
  if w.isEmpty then s
  else if w.any (s.refusedSec a) then s.denyReg a
  else if w.any (s.refusedLock a) then s.recAcc a 0x0004
  else s.recAcc a code

/-- A write to fields without behaviour of their own: each granted field takes its value, and the page records what it
refused. `keep` limits the fields that the caller leaves to this rule. -/
def plainWrite (s : State) (a : RegAcc) (keep : Fld → Bool := fun _ => true) : State :=
  ((s.grantedFields a).filter keep).foldl (applyField a) (s.recRefused a)

/-- Whether the write may write a given field: written, not secure for the requester, not locked. -/
def grants (s : State) (a : RegAcc) (f : Fld) : Bool := (s.grantedFields a).contains f

end State

end Sys2Proof.Machine
end

