-- ==== Sys2Proof/Machine/AgeCap.lean ====
section
/-! DEFINITION. Islands and voltage groups (R433, R434), and the capability reductions that other blocks obey (R443). -/

namespace Sys2Proof.Machine

/-- Voltage group of an island: 0 to 7 CG0 to CG7, 8 FG, 9 AON (R433). -/
def islandGroup (i : Nat) : Nat :=
  if i = 0 then 9 else if i ≤ 4 then 0 else if i ≤ 9 ∨ i = 26 then 1
  else if i ≤ 13 then 2 else if i ≤ 17 then 3 else if i ≤ 25 then 4
  else if i ≤ 34 then 5 else if i ≤ 38 then 6 else if i = 39 then 7 else 8

/-- F_MIN and F_MAX in MHz of a FLEX island; none for a FIXED one (R433). -/
def flexRange (i : Nat) : Option (Nat × Nat) :=
  if i = 4 then some (200, 400) else if i = 9 then some (800, 1066) else if i = 26 then some (750, 1000)
  else if i = 27 then some (600, 1000) else if 28 ≤ i ∧ i ≤ 31 then some (750, 1000) else if i = 32 then some (1000, 1200)
  else if i = 33 then some (400, 600) else if 35 ≤ i ∧ i ≤ 38 then some (1000, 2000) else if i = 39 then some (1000, 1600)
  else if i = 40 ∨ i = 41 ∨ i = 44 then some (100, 200) else if i = 42 then some (100, 250) else if i = 45 then some (500, 800)
  else none

/-- Range of a group in mV (R434); AON stays at 800. -/
def groupRange (g : Nat) : Nat × Nat := if g = 9 then (800, 800) else if g = 8 then (700, 900) else (650, 850)

namespace State

/-- CAP of a reduced island. -/
def islandCap (s : State) (i : Nat) : Option Nat := Sparse.find s.age.caps i

/-- Whether training of DPLn may use a rate (R443). -/
def rateAllowed (s : State) (n r : Nat) : Bool := match s.islandCap (18 + n) with | some c => decide (r ≤ c) | none => true

/-- Whether a pixel clock is above the reduced capability of PIPEn (R443). -/
def pipeReduced (s : State) (n khz : Nat) : Bool := match s.islandCap (10 + n) with | some c => decide (2000 * c < khz) | none => false

/-- The speed code at which a reduced link trains: HA, HB, PLOLIA are islands 1, 2, 3 (R443). -/
def linkSpeed (s : State) (island speed : Nat) : Nat := match s.islandCap island with | some c => min speed c | none => speed

/-- DMC_CFG of a channel: a reduced DMC group loads RATE one step lower (R443). -/
def reducedCfg (s : State) (n cfg : Nat) : Nat :=
  if (s.islandCap (5 + n / 4)).isSome ∧ 0 < bits 6 4 cfg then cfg - 16 else cfg

/-- Whether a page's ENABLE is refused because its island is out of service, and the island (R443). -/
def outOfService (s : State) (pg : Page) : Option Nat :=
  match pg with
  | .ing n => if (s.islandCap (28 + n)).isSome then some (28 + n) else none
  | .cvu _ => if (s.islandCap 32).isSome then some 32 else none
  | _ => none

end State

end Sys2Proof.Machine
end

