-- ==== Sys2Proof/Machine/Codes.lean ====
section
/-! DEFINITION. The two codes of stored data, STRONG and LIGHT, and the CRC of the device (R249, R290 to R292). -/

namespace Sys2Proof.Machine.Codes

/-! ## STRONG: Reed-Solomon over GF(2^8) (R290) -/

/-- Multiply by alpha = 2 in GF(2^8) with x^8 + x^4 + x^3 + x^2 + 1. -/
def xtime (x : Nat) : Nat := if x < 128 then 2 * x else Nat.xor (2 * x - 256) 0x1D

/-- Product in GF(2^8); `n` bits of `b` remain. -/
def gmulAux : Nat → Nat → Nat → Nat
  | 0, _, _ => 0
  | n + 1, a, b => Nat.xor (if b % 2 = 1 then a else 0) (gmulAux n (xtime a) (b / 2))

def gmul (a b : Nat) : Nat := gmulAux 8 a b

/-- alpha^i. -/
def alphaPow : Nat → Nat
  | 0 => 1
  | i + 1 => xtime (alphaPow i)

/-- Byte i of a word. -/
def byteOf (i w : Nat) : Nat := w / 256 ^ i % 256

/-- One division step by g(x) = x^4 + 15 x^3 + 54 x^2 + 120 x + 64, whose roots are alpha^0 to alpha^3. -/
def rsStep (r : Nat × Nat × Nat × Nat) (d : Nat) : Nat × Nat × Nat × Nat :=
  let (r3, r2, r1, r0) := r
  let fb := Nat.xor d r3
  (Nat.xor r2 (gmul fb 15), Nat.xor r1 (gmul fb 54), Nat.xor r0 (gmul fb 120), gmul fb 64)

/-- The check word of a 128-bit data word: the highest coefficient, data symbol 15, enters first. -/
def strongCheck (w : Nat) : Nat :=
  let (r3, r2, r1, r0) := ((List.range 16).map fun i => byteOf (15 - i) w).foldl rsStep (0, 0, 0, 0)
  r0 + r1 * 2 ^ 8 + r2 * 2 ^ 16 + r3 * 2 ^ 24

/-- Coefficient k of the stored codeword: check symbols 0 to 3, then data symbols. -/
def rsCoef (w c k : Nat) : Nat := if k < 4 then byteOf k c else byteOf (k - 4) w

/-- Syndrome j: the codeword evaluated at alpha^j. -/
def syndrome (w c j : Nat) : Nat :=
  (List.range 20).foldl (fun acc i => Nat.xor (gmul acc (alphaPow j)) (rsCoef w c (19 - i))) 0

/-- What a decoder finds (R293): the data delivered and the position corrected. -/
inductive Found where
  | clean (w : Nat)
  | corrected (w position : Nat)
  | uncorrectable
  | poisoned
  deriving DecidableEq, Repr

/-- Decode a STRONG word: the poison pattern first, then a single-symbol error found by its syndromes. -/
def strongDecode (w c : Nat) : Found :=
  if w = 0 ∧ c = 0xFFFF_FFFF then .poisoned
  else
    let s0 := syndrome w c 0
    let s1 := syndrome w c 1
    let s2 := syndrome w c 2
    let s3 := syndrome w c 3
    if s0 = 0 ∧ s1 = 0 ∧ s2 = 0 ∧ s3 = 0 then .clean w
    else
      match (List.range 20).find? fun k =>
          s0 ≠ 0 ∧ s1 = gmul s0 (alphaPow k) ∧ s2 = gmul s1 (alphaPow k) ∧ s3 = gmul s2 (alphaPow k) with
      | none => .uncorrectable
      | some k =>
        if k < 4 then .corrected w (16 + k)
        else .corrected (w - byteOf (k - 4) w * 256 ^ (k - 4) + Nat.xor (byteOf (k - 4) w) s0 * 256 ^ (k - 4)) (k - 4)

/-! ## LIGHT: extended Hamming over 128 bits (R291) -/

/-- The codeword position of data bit i: the (i + 1)-th integer from 3 upward that is not a power of two. -/
def lightPos (i : Nat) : Nat :=
  if i < 1 then 3 else if i < 4 then i + 4 else if i < 11 then i + 5 else if i < 26 then i + 6
  else if i < 57 then i + 7 else if i < 120 then i + 8 else i + 9

/-- Parity of the listed bits of a word. -/
def parityOf (l : List Nat) (w : Nat) : Nat := (l.filter fun i => w / 2 ^ i % 2 == 1).length % 2

/-- Check bit k of a data word. -/
def lightBit (w k : Nat) : Nat := parityOf ((List.range 128).filter fun i => lightPos i / 2 ^ k % 2 == 1) w

/-- Field bits [7:0]. -/
def lightLow (w : Nat) : Nat := ((List.range 8).map fun k => lightBit w k * 2 ^ k).sum

/-- The check field of a data word; the marker bits [15:9] are 0. -/
def lightCheck (w : Nat) : Nat :=
  let c := lightLow w
  c + (parityOf (List.range 128) w + parityOf (List.range 8) c) % 2 * 2 ^ 8

/-- Decode a LIGHT word: four marker bits or more mean poison; an odd overall parity is a single-bit error, an even one
with a syndrome a double-bit error. -/
def lightDecode (w c : Nat) : Found :=
  if 4 ≤ ((List.range 7).filter fun i => c / 2 ^ (9 + i) % 2 == 1).length then .poisoned
  else
    let syn := Nat.xor (lightLow w) (c % 256)
    let odd := (parityOf (List.range 128) w + parityOf (List.range 9) c) % 2
    if odd = 0 then (if syn = 0 then .clean w else .uncorrectable)
    else if syn = 0 then .corrected w 136
    else
      match (List.range 8).find? fun k => syn = 2 ^ k with
      | some k => .corrected w (128 + k)
      | none =>
        match (List.range 128).find? fun i => lightPos i = syn with
        | some i => .corrected (if w / 2 ^ i % 2 = 1 then w - 2 ^ i else w + 2 ^ i) i
        | none => .uncorrectable

/-! ## Cyclic redundancy checks (R249 to R251) -/

/-- The parameters of one CRC (R249). -/
structure Crc where
  width : Nat
  poly : Nat
  reflected : Bool
  init : Nat
  xorout : Nat
  deriving DecidableEq, Repr

/-- The four CRCs by POLY code; `poly` of a reflected one is bit-reversed (R250). -/
def crcOf : Nat → Crc
  | 0 => ⟨32, 0x82F6_3B78, true, 0xFFFF_FFFF, 0xFFFF_FFFF⟩
  | 1 => ⟨32, 0xEDB8_8320, true, 0xFFFF_FFFF, 0xFFFF_FFFF⟩
  | 2 => ⟨64, 0x42F0_E1EB_A9EA_3693, false, 0, 0⟩
  | _ => ⟨16, 0x1021, false, 0xFFFF, 0x0000⟩

/-- Shift one bit through the register (R250). -/
def Crc.bitStep (c : Crc) (reg : Nat) : Nat :=
  if c.reflected then
    if reg % 2 = 1 then Nat.xor (reg / 2) c.poly else reg / 2
  else
    if reg / 2 ^ (c.width - 1) % 2 = 1 then Nat.xor (reg * 2) c.poly % 2 ^ c.width else reg * 2 % 2 ^ c.width

/-- Feed n bits. -/
def Crc.shift (c : Crc) : Nat → Nat → Nat
  | 0, reg => reg
  | n + 1, reg => c.shift n (c.bitStep reg)

/-- Feed one byte. -/
def Crc.byte (c : Crc) (reg b : Nat) : Nat :=
  c.shift 8 (if c.reflected then Nat.xor reg b else Nat.xor reg (b * 2 ^ (c.width - 8)))

/-- Feed one 128-bit word, least significant byte first (R249). -/
def Crc.word (c : Crc) (reg w : Nat) : Nat := (List.range 16).foldl (fun r i => c.byte r (byteOf i w)) reg

/-- XOR of the w-bit pieces of a fold value of up to 64 bits (R251). -/
def foldW (w f : Nat) : Nat :=
  if w = 64 then f % 2 ^ 64
  else if w = 32 then Nat.xor (f % 2 ^ 32) (f / 2 ^ 32 % 2 ^ 32)
  else Nat.xor (Nat.xor (f % 2 ^ 16) (f / 2 ^ 16 % 2 ^ 16)) (Nat.xor (f / 2 ^ 32 % 2 ^ 16) (f / 2 ^ 48 % 2 ^ 16))

/-- The register before the first byte. -/
def Crc.start (c : Crc) (fold : Nat) : Nat := Nat.xor c.init (foldW c.width fold)

/-- The value from the raw register. -/
def Crc.done (c : Crc) (reg : Nat) : Nat := Nat.xor reg c.xorout

/-- The check value of a sequence of words. -/
def Crc.value (c : Crc) (fold : Nat) (ws : List Nat) : Nat := c.done (ws.foldl c.word (c.start fold))

end Sys2Proof.Machine.Codes
end

