-- ==== Sys2Proof/Machine/Log.lean ====
section
/-! DEFINITION. The system log and the reports of the fault aggregator (R470, R471, R475). What a contained or device-fatal
fault does to its block stands in Faults.lean. -/

namespace Sys2Proof.Machine

/-- The 28 bytes of an entry that its CRC covers, as one number, and the CRC word (R475). -/
def LogEntry.body (e : LogEntry) : Nat :=
  e.dtime % 2 ^ 64 + e.epoch % 2 ^ 16 * 2 ^ 64 + e.cls % 2 ^ 8 * 2 ^ 80 + b2n e.prev * 2 ^ 88 + e.code % 2 ^ 16 * 2 ^ 96
    + e.source % 2 ^ 16 * 2 ^ 112 + e.info % 2 ^ 32 * 2 ^ 128 + e.fn % 2 ^ 8 * 2 ^ 160 + e.reps % 2 ^ 8 * 2 ^ 168 + e.seq % 2 ^ 32 * 2 ^ 192

/-- Word w of an entry as LOG_DATA shows it. -/
def LogEntry.word (e : LogEntry) (w : Nat) : Nat :=
  if w < 7 then bits (32 * w + 31) (32 * w) e.body
  else
    let c := Codes.crcOf 0
    c.done ((List.range 28).foldl (fun r i => c.byte r (Codes.byteOf i e.body)) (c.start 0))

/-- Source field of a log entry: page kind and instance (R42). -/
def Page.source (pg : Page) : Nat := pg.instNo + pg.kind * 2 ^ 8

namespace State

/-- Append an entry: the ring holds 4,096 and the tail the newest 256. In phase LIMITED the log is the tail alone: the page shows it, and each
entry goes into it (R465, R475). -/
def logEntry (s : State) (cls code source info fn : Nat) : State :=
  let e : LogEntry := ⟨s.deviceTime, s.fld .tim F.TIM_EPOCH_EPOCH, cls, false, code, source, info, fn, 0, s.faults.nextLog⟩
  let tailOnly := s.fld .sys F.SYS_STAT_PHASE == 8
  let cap := if tailOnly then 256 else 4096
  let full := decide (cap ≤ s.faults.log.length)
  let l := (if full then s.faults.log.drop (s.faults.log.length + 1 - cap) else s.faults.log) ++ [e]
  let s1 := { s with faults := { s.faults with
    log := l
    tail := if tailOnly then l else s.faults.tail
    nextLog := (s.faults.nextLog + 1) % 2 ^ 32 } }
  let s2 := (s1.setFld .log F.LOG_STAT_COUNT l.length).setFld .log F.LOG_SEQ_SEQ e.seq
  let s3 := if full && !tailOnly then s2.satFld .log F.LOG_STAT_LOST 1 else s2
  if s3.fld .log F.LOG_CTRL_MIN_CLASS ≤ cls then s3.event .log 0 else s3

/-- Whether an entry takes a report as a repeat: same source, code and class, within 1 ms (R471). -/
def isRepeat (s : State) (cls code source : Nat) (e : LogEntry) : Bool :=
  e.source == source && e.code == code && e.cls == cls && decide (s.deviceTime < e.dtime + 1000000)

/-- A report: entry or repeat, the counter of its class, and the SYS event of its class (R471). -/
def report (s : State) (cls code source info fn : Nat) : State :=
  let same := s.isRepeat cls code source
  let s1 := match s.faults.log.reverse.find? same with
    | some e =>
      let bump := fun (x : LogEntry) => if x = e then { x with reps := satAdd 8 x.reps 1 } else x
      { s with faults := { s.faults with log := s.faults.log.map bump } }
    | none => s.logEntry cls code source info fn
  if cls = 1 then (s1.satFld .sys F.SYS_FAULT_CNT_CORRECTED 1).event .sys 2
  else if cls = 2 then (s1.satFld .sys F.SYS_FAULT_CNT_CONTAINED 1).event .sys 3
  else s1

/-- A contained fault that is a report only, or whose block acts under its own rule (R472). -/
def reportContained (s : State) (pg : Page) (code : Nat) (info : Nat := 0) (fn : Nat := 0) : State :=
  s.report 2 code pg.source info fn

/-- A fault that the device repaired (R470). -/
def reportCorrected (s : State) (pg : Page) (code : Nat) (info : Nat := 0) : State := s.report 1 code pg.source info 0

/-- Class 0 entries: reset causes, phases, update outcomes (R475). -/
def logInfo (s : State) (pg : Page) (code info : Nat) : State := s.logEntry 0 code pg.source info 0

/-- A contained fault of output n: with OUT_STOP set, scan-out stops at the next FRAME_DONE and its transmitter goes idle
then (R472). -/
def containOutput (s : State) (pg : Page) (n code info fn : Nat) : State :=
  let s1 := s.reportContained pg code info fn
  if bit n (s1.fld .sys F.SYS_CONTAIN_OUT_STOP) ∧ !s1.faults.containStop.contains n then
    { s1 with faults := { s1.faults with containStop := s1.faults.containStop ++ [n] } }
  else s1

end State

end Sys2Proof.Machine
end

