-- ==== Sys2Proof/Machine/Commands.lean ====
section
/-! DEFINITION. Queue pairs and the life of a command: posting completions, signalling them, and the checks that every
submission entry passes before its own chapter's (R114 to R126, R500). -/

namespace Sys2Proof.Machine

/-- An IDLE queue with cleared pointers. -/
def idleQueue : Queue := ⟨.idle, 0, 0, 0, 0, false, 0, 0, []⟩

/-- Xiresol and the secure core, whose internal queues behave as a PF queue (R195). -/
def isCore (fn : Nat) : Bool := fn == 0x40 || fn == 0x41

/-- The sixteen words of a completion entry (R119): QUEUE and the reserved and unused bits included. -/
def CqEntry.words (e : CqEntry) (q : Nat) (phase : Bool) (dtime : Nat) : List Nat :=
  [e.cid % 2 ^ 16 + e.status % 2 ^ 16 * 2 ^ 16,
    e.sqHead % 2 ^ 12 + q % 8 * 2 ^ 12 + b2n e.fin * 2 ^ 15 + b2n phase * 2 ^ 16,
    dtime % 2 ^ 32, dtime / 2 ^ 32 % 2 ^ 32] ++ (List.range 12).map fun i => e.res.getD i 0 % 2 ^ 32

/-- The page that holds the queue blocks of a function (R112). -/
def qPage (fn : Nat) : Page := if isPf fn then .hp (fn / 0x80) else .vf fn

/-- A queue-block field as the function's page holds it (R131). -/
def qFld (fn : Nat) (f : Fld) : Fld :=
  { f with off := f.off + (if isPf fn then 0x200 else 0x100), dims := [(if isPf fn then 8 else 4, 0x40)] }

/-- Queue pairs of a function (R112). -/
def queueCount (fn : Nat) : Nat := if isPf fn then 8 else if isVf fn then 4 else 0

/-- How many leading parameter words each command uses (R118, R121, R122 and the tables of R147, R194, R252, R327, R334,
R336, R358). -/
def usedParams (opcode : Nat) : Nat :=
  match opcode with
  | 0x01 | 0x02 | 0x04 | 0x05 | 0x40 | 0x41 => 1
  | 0x03 | 0x20 => 2
  | 0x10 => 11
  | 0x18 => 8
  | 0x28 => 4
  | 0x30 => 5
  | 0x31 => 7
  | _ => 0

/-- The command codes of R120. -/
def knownOpcode (opcode : Nat) : Bool :=
  [0x00, 0x01, 0x02, 0x03, 0x04, 0x05, 0x10, 0x18, 0x20, 0x28, 0x30, 0x31, 0x40, 0x41].contains opcode

namespace State

/-- A queue's state; an internal queue runs from the start. -/
def queue (s : State) (fn q : Nat) : Queue :=
  (Sparse.find s.hosts.queues (fn * 8 + q)).getD (if isCore fn then { idleQueue with state := .running, phase := true } else idleQueue)

/-- Set a queue's state. -/
def setQueue (s : State) (fn q : Nat) (x : Queue) : State :=
  { s with hosts := { s.hosts with queues := Sparse.put s.hosts.queues (fn * 8 + q) x } }

/-- Active value of a queue-block field. -/
def qf (s : State) (fn q : Nat) (f : Fld) : Nat := s.fld (qPage fn) (qFld fn f) [q]

/-- SQ_ENTRIES and CQ_ENTRIES. -/
def sqSize (s : State) (fn q : Nat) : Nat := s.qf fn q F.Q_SIZE_SQ_ENTRIES

/-- The spec gives an internal queue no size of its own; a ring has 2 to 4,096 entries (R114). -/
def cqSize (s : State) (fn q : Nat) : Nat :=
  if isCore fn then 2 + Config.openResult 0x0195 [fn, q, 0] % 4095 else s.qf fn q F.Q_SIZE_CQ_ENTRIES

/-- Q_CQ_BASE. -/
def cqBase (s : State) (fn q : Nat) : Nat := s.qf fn q F.Q_CQ_BASE_LO_BASE_LO * 2 ^ 6 + s.qf fn q F.Q_CQ_BASE_HI_BASE_HI * 2 ^ 32

/-- The device has reached full services (R464). -/
def ready (s : State) : Bool := s.fld .sys F.SYS_STAT_PHASE == 7

/-- The device holds the standby role for commands (R376): PLK is enabled and it does not hold the token. -/
def standby (s : State) : Bool :=
  s.flag .plk F.PG_CTRL_ENABLE && s.pair.state != .solo && s.pair.state != .active

/-- The device mirrors to a partner (R70, R384): it holds the token with a partner joined that is not in FALLOW (R413). -/
def mirrors (s : State) : Bool := s.flag .plk F.PG_CTRL_ENABLE && s.pair.state == .active && !s.pair.pFallow

/-- The function that holds the manager role (R113). -/
def manager (s : State) : Nat := if s.flag (.hp 1) F.HP_MGR_ROLE then 0x80 else 0x00

/-- Commands of a queue fetched whose first completion has not been written. -/
def uncompleted (s : State) (fn q : Nat) : Nat :=
  (s.hosts.jobs.filter fun j => j.fn == fn && j.q == q && j.stage == .fetched).length
    + ((s.queue fn q).held.filter fun e => !e.fin).length

/-- Slots kept for final completions: of the commands whose DEFERRED has been written and whose final completion has not. -/
def owed (s : State) (fn q : Nat) : Nat :=
  (s.hosts.jobs.filter fun j => j.fn == fn && j.q == q && j.stage == .owed).length
    + ((s.queue fn q).held.filter fun e => e.fin).length - ((s.queue fn q).held.filter fun e => !e.fin && e.status == 1).length

/-- Completion entries written and not consumed (R116). -/
def unconsumed (s : State) (fn q : Nat) : Nat :=
  let x := s.queue fn q
  (x.cqTail + s.cqSize fn q - x.cqHead) % s.cqSize fn q

/-- The sum that R116 bounds. -/
def cqLoad (s : State) (fn q : Nat) : Nat := s.uncompleted fn q + s.owed fn q + s.unconsumed fn q

/-- Signal the unsignalled completions of a queue (R126). -/
def signalQueue (s : State) (fn q : Nat) : State :=
  let s1 := s.setQueue fn q { s.queue fn q with unsignalled := 0 }
  -- the vector of an internal queue is not stated
  s1.sendMsg fn (if isCore fn then Config.openResult 0x0195 [fn, q, 1] % 64 else s.qf fn q F.Q_CTRL_VECTOR)

/-- Whether an entry may be written now (R116): an unconsumed entry is never overwritten, and a DEFERRED completion, which adds an
unconsumed entry and keeps a slot for its final one, waits while the sum would pass its bound and a release can still lower it. What the
cores' software consumes of an internal queue is its own. -/
def cqRoom (s : State) (fn q : Nat) (e : CqEntry) : Bool :=
  isCore fn
    || (decide (s.unconsumed fn q + 1 < s.cqSize fn q)
      && (e.fin || e.status != 1 || s.unconsumed fn q == 0 || decide (s.cqLoad fn q + 1 < s.cqSize fn q)))

/-- What writing an entry puts out: one 64-byte write to its slot of the completion ring, or the slot of an internal queue (R119, R195). -/
def cqWrite (s : State) (fn q tail : Nat) (phase : Bool) (e : CqEntry) : Output :=
  let ws := e.words q phase s.deviceTime
  if isCore fn then .completion fn q tail ws else .hostWrite fn (s.cqBase fn q + 64 * tail) ws

/-- Write an entry as one 64-byte write at the CQ tail (R119), and signal it as R126 states. -/
def writeEntry (s : State) (fn q : Nat) (e : CqEntry) : State :=
  let x := s.queue fn q
  let s1 := s.emit (s.cqWrite fn q x.cqTail x.phase e)
  let tail := if x.cqTail + 1 < s.cqSize fn q then x.cqTail + 1 else 0
  let y := { x with
    cqTail := tail
    phase := if tail = 0 then !x.phase else x.phase
    unsignalled := x.unsignalled + 1
    oldest := if x.unsignalled = 0 then s.now else x.oldest }
  let s2 := s1.setQueue fn q y
  let cc := s.qf fn q F.Q_CTRL_COAL_COUNT
  let ct := s.qf fn q F.Q_CTRL_COAL_TIME
  if isCore fn ∨ cc = 0 ∨ ct = 0 ∨ cc ≤ y.unsignalled ∨ e.fin ∨ (e.status ≠ 0 ∧ e.status ≠ 1) then s2.signalQueue fn q else s2

/-- Post a completion: written at once, or behind those that wait for room. Nothing is posted to a queue that has left the states in which
it posts, and no final completion to a function in reset (R115, R121, R128). -/
def post (s : State) (fn q cid status sqHead : Nat) (fin : Bool) (res : List Nat) : State :=
  let x := s.queue fn q
  let e : CqEntry := ⟨cid, status, sqHead, fin, res⟩
  if x.state = .idle ∨ (fin ∧ (x.state = .draining ∨ s.fnState fn = .resetting)) then s
  else if x.held = [] ∧ s.cqRoom fn q e then s.writeEntry fn q e
  else s.setQueue fn q { x with held := x.held ++ [e] }

/-- Write the completions that have waited, in order, while there is room. -/
def releaseHeld (s : State) (fn q : Nat) : State :=
  (s.queue fn q).held.foldl (fun t e =>
    let x := t.queue fn q
    if x.held.head? = some e ∧ t.cqRoom fn q e then (t.setQueue fn q { x with held := x.held.tail }).writeEntry fn q e else t) s

/-- Forget the commands that do not meet a condition. -/
def keepJobs (s : State) (f : Job → Bool) : State := { s with hosts := { s.hosts with jobs := s.hosts.jobs.filter f } }

/-- The final completion of a command is owed from now on (R116). -/
def owe (s : State) (jid : Nat) : State :=
  { s with hosts := { s.hosts with jobs := s.hosts.jobs.map fun k => if k.jid = jid then { k with stage := .owed } else k } }

/-- A DRAINING queue whose last fetched command has posted its first completion goes IDLE and discards the final
completions it still owes (R115). -/
def drainCheck (s : State) (fn q : Nat) : State :=
  let x := s.queue fn q
  if x.state = .draining ∧ s.uncompleted fn q = 0 then
    (s.setQueue fn q { x with state := .idle, held := [] }).keepJobs fun j => !(j.fn == fn && j.q == q)
  else s

/-- The command of a number. -/
def job (s : State) (jid : Nat) : Option Job := s.hosts.jobs.find? fun j => j.jid == jid

/-- Forget a command. -/
def dropJob (s : State) (jid : Nat) : State :=
  s.keepJobs fun j => j.jid != jid

/-- Post the first completion of a command. With 0x0001 DEFERRED its final completion stays owed (R116). -/
def complete (s : State) (jid status : Nat) (res : List Nat := []) : State :=
  match s.job jid with
  | none => s
  | some j =>
    if j.stage = .owed then s
    else
      let s1 := s.post j.fn j.q j.cid status j.sqHead false res
      let s2 := if status = 1 then s1.owe jid else s1.dropJob jid
      s2.drainCheck j.fn j.q

/-- Post the final completion of a command that completed DEFERRED (R121). -/
def finish (s : State) (jid status : Nat) (res : List Nat := []) : State :=
  match s.job jid with
  | none => s
  | some j =>
    if j.stage = .owed then (s.post j.fn j.q j.cid status j.sqHead true res).dropJob jid
    else s.complete jid status res

/-- The same for a command number that may be absent. -/
def finishOpt (s : State) (jid : Option Nat) (status : Nat) (res : List Nat := []) : State :=
  match jid with
  | none => s
  | some j => s.finish j status res

/-- Queue a mirror item on the ordered stream while a partner is joined (R382, R384). -/
def mirror (s : State) (x : MirrorItem) : State :=
  if s.mirrors then { s with pair := { s.pair with ordered := s.pair.ordered ++ [x] } } else s

/-- Complete an operation of R67: at once, or, while a partner is joined, once the partner has acknowledged the record of
its effect (R70). -/
def completeMirrored (s : State) (op : Nat) (params plots : List Nat) (jid status : Nat) (res : List Nat) : State :=
  if s.mirrors then s.mirror (.record op params plots (some (jid, status, res))) else s.complete jid status res

/-- The end of what completed DEFERRED: the final completion, or, while a partner is joined, the record after whose acknowledgement it is
posted (R70). Records are acknowledged in order, so the DEFERRED completion has gone before. -/
def finishMirrored (s : State) (op : Nat) (params : List Nat) (jid : Option Nat) : State :=
  if s.mirrors then s.mirror (.record op params [] (jid.map fun j => (j, 0, []))) else s.finishOpt jid 0

/-! ## Weighted rounds (R124, R125) -/

/-- HP_FN_WEIGHT of a function; the cores have no register, and take part as a function at its reset value. -/
def weight (s : State) (f : Nat) : Nat :=
  if isCore f then 0x10 else bits 7 0 (s.rw (bankKey ((Page.hp (f / 0x80)).key F.HP_FN_WEIGHT_WEIGHT.off) (f % 0x80)))

def round (s : State) (i : Nat) : Round := (Sparse.find s.hosts.rounds i).getD ⟨[], []⟩

/-- Services still due to a function in a round, by the weight in force now (R125). -/
def due (s : State) (r : Round) (f : Nat) : Nat := s.weight f - Sparse.get (fun _ => 0) r.used f

/-- Of some functions the one that was served longest ago. -/
def oldestServed (r : Round) (l : List Nat) : Option Nat :=
  l.foldl (fun o f => match o with
    | some g => if Sparse.get (fun _ => 0) r.servedAt f < Sparse.get (fun _ => 0) r.servedAt g then some f else some g
    | none => some f) none

/-- The function that a round serves next among those that wait (R124): one of weight 0 that has not been served for 1 ms; else one that is
due in this round, or the first of a new round; one of weight 0 only while no other waits. -/
def pickFn (s : State) (i : Nat) (ws : List Nat) : Option Nat × State :=
  let r := s.round i
  let nz := ws.filter fun f => s.weight f != 0
  let z := ws.filter fun f => s.weight f == 0
  let late := z.filter fun f => decide (Sparse.get (fun _ => 0) r.servedAt f + 1000000 ≤ s.now)
  if late ≠ [] then (oldestServed r late, s)
  else if nz = [] then (oldestServed r z, s)
  else
    match nz.find? fun f => s.due r f != 0 with
    | some f => (some f, s)
    | none => (nz.head?, { s with hosts := { s.hosts with rounds := Sparse.put s.hosts.rounds i { r with used := [] } } })

/-- A function has been served in a round. -/
def served (s : State) (i f : Nat) : State :=
  let r := s.round i
  let r' : Round := ⟨Sparse.put r.used f (Sparse.get (fun _ => 0) r.used f + 1), Sparse.put r.servedAt f s.now⟩
  { s with hosts := { s.hosts with rounds := Sparse.put s.hosts.rounds i r' } }

/-- The ING or CVU page whose engine a replacement of its microcode stops from accepting (R460). -/
def replaced (s : State) : Option Page :=
  if s.update.state = 4 ∧ s.update.loading then
    match s.update.micro with
    | t :: _ => if t < 4 then some (.ing t) else if t < 8 then some (.cvu (t - 4)) else none
    | [] => none
  else none

/-- A contained fault has stopped the block of a page (R472). -/
def blockStopped (s : State) (pg : Page) : Bool := s.faults.stopped.contains pg.base

/-- The code of a command that needs a block which does not run: FAULT_CONTAINED after a contained fault, else NOT_READY (R470). -/
def notRunning (s : State) (pgs : List Page) : Nat := if pgs.any s.blockStopped then 0x1302 else 0x1301

/-- The checks of R500, in order; the code of the first that fails. -/
def entryCheck (s : State) (opcode : Nat) (c : CmdArgs) : Option Nat :=
  if ¬ s.ready ∧ opcode ≠ 0x00 then some 0x1301
  else if ¬ knownOpcode opcode then some 0x0003
  else if (opcode = 0x40 ∨ opcode = 0x41) ∧ c.fn ≠ s.manager then some 0x000A
  else if s.standby ∧ opcode ≠ 0x00 ∧ opcode ≠ 0x40 ∧ opcode ≠ 0x41 then some 0x1003
  else if c.rsvd ≠ 0 ∨ (c.params.drop (usedParams opcode)).any (· != 0) then some 0x0006
  else none

/-- Take up a fetched entry: it becomes a command with a number of its own. -/
def take (s : State) (opcode : Nat) (c : CmdArgs) : Job × State :=
  let j : Job := ⟨s.hosts.nextJid, c.fn, c.q, c.cid, opcode, c.params, (s.queue c.fn c.q).sqHead, .fetched⟩
  (j, { s with hosts := { s.hosts with jobs := s.hosts.jobs ++ [j], nextJid := s.hosts.nextJid + 1 } })

/-- Whether an entry may not start yet: ORDERED behind entries of its queue that have not completed, or behind entries of its internal
queue that wait (R117, R150, R195). -/
def entryWaits (s : State) (c : CmdArgs) : Bool :=
  (c.ordered && s.uncompleted c.fn c.q != 0)
    || (isCore c.fn && s.hosts.coreEntries.any fun e => e.2.fn == c.fn && e.2.q == c.q)

/-- An entry that is not fetched yet: that of a host function stays in its ring, that of a core in its internal queue. -/
def keepEntry (s : State) (opcode : Nat) (c : CmdArgs) : State :=
  if isCore c.fn then { s with hosts := { s.hosts with coreEntries := s.hosts.coreEntries ++ [(opcode, c)] } } else s

/-- A fetched entry: it is taken up, checked under R500, and completed with the first failure or carried out. -/
def carryEntry (s : State) (opcode : Nat) (c : CmdArgs) (carry : Job → State → State) : State :=
  let (j, s1) := s.take opcode c
  match s1.entryCheck opcode c with
  | some code => s1.complete j.jid code
  | none => carry j s1

/-- A submission entry: fetched and carried out, unless it may not start yet. -/
def command (s : State) (opcode : Nat) (c : CmdArgs) (carry : Job → State → State) : State :=
  if s.entryWaits c then s.keepEntry opcode c else s.carryEntry opcode c carry

end State

/-- Parameter word i of a command. -/
def Job.p (j : Job) (i : Nat) : Nat := j.params.getD i 0

end Sys2Proof.Machine
end

