-- ==== Sys2Proof/Machine/Islands.lean ====
section
/-! DEFINITION. Islands, power domains and hold groups: which pages and groups an island carries, which are gated, and which
groups are held (R105, R106, R405, R406, R433). -/

namespace Sys2Proof.Machine

/-! ## Islands and hold groups (R105, R433) -/

/-- The hold group of a page (R105). -/
def Page.group : Page → Option Nat
  | .pipe n | .slot n _ | .chk n | .scn n | .dpl n => some n
  | .cvu n => some (8 + n)
  | .ing n => some (12 + n)
  | .tch n => some (16 + n)
  | .hap => some 18
  | .aud _ => some 19
  | .plk => some 20
  | .dmc _ | .edac => some 21
  | .hp p => some (22 + p)
  | .chn | .pool => some 24
  | _ => none

/-- The pages of a hold group (R105). -/
def groupPages (g : Nat) : List Page :=
  if g < 8 then [.pipe g] ++ ((List.range 16).map fun k => Page.slot g k) ++ [.chk g, .scn g, .dpl g]
  else if g < 12 then [.cvu (g - 8)]
  else if g < 16 then [.ing (g - 12)]
  else if g < 18 then [.tch (g - 16)]
  else if g = 18 then [.hap]
  else if g = 19 then (List.range 9).map Page.aud
  else if g = 20 then [.plk]
  else if g = 21 then ((List.range 16).map Page.dmc) ++ [.edac]
  else if g < 24 then [.hp (g - 22)]
  else if g = 24 then [.chn, .pool]
  else []

/-- The hold groups whose blocks an island carries (R105, R433). -/
def islandGroups (i : Nat) : List Nat :=
  if i = 1 then [22] else if i = 2 then [23] else if i = 3 then [20]
  else if 5 ≤ i ∧ i ≤ 9 then [21]
  else if 10 ≤ i ∧ i ≤ 17 then [i - 10]
  else if 18 ≤ i ∧ i ≤ 25 then [i - 18]
  else if i = 27 then [24]
  else if 28 ≤ i ∧ i ≤ 31 then [12 + (i - 28)]
  else if i = 32 then [8, 9, 10, 11]
  else if i = 33 ∨ i = 34 ∨ i = 43 then [19]
  else if i = 40 ∨ i = 41 then [16 + (i - 40)]
  else if i = 42 ∨ i = 44 then [18]
  else []

/-- The hold groups whose islands a target state gates (R405). -/
def targetGroups (target : Nat) : List Nat :=
  if target = 1 then List.range 8
  else if target = 2 then (List.range 25).filter fun g => g != 20 && g != 22 && g != 23
  else if target = 4 then List.range 25 else []

/-- The pages whose registers an island holds (R406, R433). -/
def islandPages (i : Nat) : List Page :=
  if i = 1 ∨ i = 2 then [.hp (i - 1)]
  else if i = 3 then [.plk]
  else if 5 ≤ i ∧ i ≤ 8 then (List.range 4).map fun k => Page.dmc (4 * (i - 5) + k)
  else if i = 9 then [.own, .edac]
  else if 10 ≤ i ∧ i ≤ 17 then [.pipe (i - 10)] ++ ((List.range 16).map fun k => Page.slot (i - 10) k) ++ [.chk (i - 10), .scn (i - 10)]
  else if 18 ≤ i ∧ i ≤ 25 then [.dpl (i - 18)]
  else if i = 27 then [.chn, .pool]
  else if 28 ≤ i ∧ i ≤ 31 then [.ing (i - 28)]
  else if i = 32 then (List.range 4).map Page.cvu
  else if i = 33 then (List.range 9).map Page.aud
  else if i = 40 ∨ i = 41 then [.tch (i - 40)]
  else if i = 42 then [.hap]
  else []

/-- The power domain of an island: 0 AON, 1 LINK, 2 MEM, 3 OUTn, 4 ENGINES, 5 CORES, 6 FIELD (R433). -/
def islandDomain (i : Nat) : Nat :=
  if i = 0 then 0 else if i ≤ 4 then 1 else if i ≤ 9 then 2 else if i ≤ 25 then 3 else if i = 26 then 2
  else if i ≤ 34 then 4 else if i ≤ 39 then 5 else 6

namespace State

/-- PWR_ISL_CTRL of an island: GATE and CLK_STOP. -/
def islandCtrl (s : State) (i : Nat) : Nat := bits 1 0 (s.rw (bankKey (Page.pwr.key F.PWR_ISL_CTRL_GATE.off) i))

/-- Whether an island is powered (PWR_ISL_STAT.POWERED): not gated by a write or by the power state, and present;
islands 7 and 8 stay gated on the HSK-SX8200 (R433). -/
def islandPowered (s : State) (i : Nat) : Bool :=
  !bit 0 (s.islandCtrl i) && !s.power.stateGated.contains i && !(s.part == .sx8200 && (i == 7 || i == 8))

/-- Whether an island is clocked. -/
def islandClocked (s : State) (i : Nat) : Bool := s.islandPowered i && !bit 1 (s.islandCtrl i)

/-- Whether some island of a hold group is gated or stopped. -/
def groupStopped (s : State) (g : Nat) : Bool :=
  (List.range 46).any fun i => (islandGroups i).contains g && !s.islandClocked i && !(s.part == .sx8200 && (i == 7 || i == 8))

/-- Whether a transaction of the secure world is in flight to or from a block of a hold group (R105): an accepted SCAN or INGEST of 0x41,
a region of 0x41 on a stream, mirrored data of the secure world, a secure DRAM request, an operation of 0x41 at the channel manager, or
a secure access that waits for the group. -/
def secureBusy (s : State) (g : Nat) : Bool :=
  s.worlds.waitingSecure.any (fun w => w.1 == g)
    || (if 8 ≤ g ∧ g < 12 then
        (match Sparse.find s.cvus (g - 8) with
          | some e => e.slots.any (fun c => c.2.fn == 0x41) || e.waiting.any (fun c => c.fn == 0x41)
          | none => false)
      else if 12 ≤ g ∧ g < 16 then
        (match Sparse.find s.ingest.engines (g - 12) with
          | some e => e.slots.any (fun c => c.2.fn == 0x41) || e.waiting.any (fun c => c.fn == 0x41)
          | none => false)
      else if g = 19 then s.audio.streams.any fun x => x.2.regions.any fun r => r.fn == 0x41
      else if g = 20 then s.pair.ordered.any fun x => (match x with | .pool _ _ _ _ _ w => w | .reg _ _ _ _ _ w => w | _ => false)
      else if g = 21 then s.dram.chans.any fun x => x.2.reqs.any fun q => q.world
      else if g = 24 then s.hosts.jobs.any fun j => j.fn == 0x41 && decide (1 ≤ j.opcode) && decide (j.opcode ≤ 5)
      else false)

/-- Whether a hold group is held only or also automatically (R105). -/
def heldAuto (s : State) (g : Nat) : Bool := ((groupPages g).any fun pg => s.flag pg F.OWNER_WORLD) || s.secureBusy g

/-- Whether its bit in WLD_HOLD is set. -/
def heldBit (s : State) (g : Nat) : Bool := bit g (s.fld .wld F.WLD_HOLD_HOLD)

/-- Whether a hold group is held (R105). -/
def held (s : State) (g : Nat) : Bool := s.heldBit g || s.heldAuto g

/-- WLD_HOLD_STAT (R105). -/
def holdStat (s : State) : Nat := ((List.range 25).map fun g => b2n (s.held g) * 2 ^ g).sum

/-- The lowest held group of a list, when the request is the normal world's (R106). -/
def holdRefuses (s : State) (req : Req) (groups : List Nat) : Option Nat :=
  if req.secure then none else ((List.range 25).filter groups.contains).find? s.held

/-- ERR_INFO of 0x0202 (R106). -/
def holdInfo (s : State) (g fn : Nat) : Nat := g + b2n (!s.heldBit g) * 2 ^ 8 + fn * 2 ^ 16

/-- The core domains are off: FALLOW, HOLDUP, OFF, or stopped (R405). -/
def asleep (s : State) : Bool := s.power.state != .run && s.power.state != .idle

/-- The island that holds a page's registers. -/
def pageIsland (pg : Page) : Option Nat := (List.range 46).find? fun i => (islandPages i).contains pg

/-- Key of PWR_ISL_CTRL of an island. -/
def islKey (i : Nat) : Nat := bankKey (Page.pwr.key F.PWR_ISL_CTRL_GATE.off) i

/-- Clear GATE of the island that holds a page (R406). -/
def ungatePage (s : State) (pg : Page) : State :=
  match pageIsland pg with
  | some i => if bit 0 (s.islandCtrl i) then s.setRw (islKey i) (s.islandCtrl i - 1) else s
  | none => s

end State

end Sys2Proof.Machine
end

