-- ==== Sys2Proof/Machine/Access.lean ====
section
/-! DEFINITION. How a register access reaches its page: the two windows, delegation frames, partial writes, and the
refusals that stand before any field's own rule (R37 to R40, R46, R53, R54, R127, R377). -/

namespace Sys2Proof.Machine

/-- Pages whose writable fields the token holder mirrors (R384). -/
def mirroredPage : Page → Bool
  | .pipe _ | .slot _ _ | .chk _ | .scn _ | .dpl _ | .chn | .pool | .tch _ | .hap | .aud _ => true
  | _ => false

/-- Header and block words that stay local and writable on a device without the token (R377): event registers,
ERR_CODE, and their per-region counterparts. -/
def localWord (pg : Page) (o : Nat) : Bool :=
  o == 0x010 || o == 0x014 || o == 0x018 || o == 0x01C || o == 0x020 ||
    (match pg with
     | .chk _ => F.CHK_EVT_RAW_MISMATCH.hits o || F.CHK_EVT_EN_EN.hits o
     | _ => false)

/-- Words whose writes are mirrored on other pages too: OWNER, EVT_ROUTE and PG_CTRL.LOCK of every mirrored page are
words of that page; OWN_FN_CRIT is the one word of OWN (R384). -/
def mirroredWord (pg : Page) (o : Nat) : Bool :=
  (mirroredPage pg && !localWord pg o) || (pg == .own && o == F.OWN_FN_CRIT_CRIT.off)

namespace State

/-- The layer-slot and check-region pages, in window order. -/
def delegablePages : List Page :=
  (List.range 8).flatMap fun n => ((List.range 16).map fun k => Page.slot n k) ++ [.chk n]

/-- A check-region block of page n that a VF holds in a frame (R54). -/
def chkHeld (s : State) (n j fn f : Nat) : Bool :=
  s.flag (.chk n) F.CHK_OWNER_DELEGATE [j] && s.fld (.chk n) F.CHK_OWNER_FUNCTION [j] == fn
    && s.fld (.chk n) F.CHK_OWNER_FRAME [j] == f

/-- Whether a page appears in a frame of a VF (R53, R54). -/
def inFrame (s : State) (fn f : Nat) : Page → Bool
  | .chk n => (List.range 16).any fun j => s.chkHeld n j fn f
  | pg => s.flag pg F.OWNER_DELEGATE && s.fld pg F.OWNER_FUNCTION == fn && s.fld pg F.OWNER_FRAME == f

/-- Whether a page of the map is present and answers: DMC8 to DMC15 are absent on the HSK-SX8200 (R2), and in phase
LIMITED only SYS, LOG and AON respond (R465). -/
def answers (s : State) (pg : Page) : Bool :=
  (match pg with | .dmc n => s.part == .sx8400 || decide (n < 8) | _ => true)
    && (s.fld .sys F.SYS_STAT_PHASE != 8 || pg == .sys || pg == .log || pg == .aon)

/-- The page that an offset of a window reaches for a requester: PF functions and the device's own requesters have the PF window, VFs
their own (R37, R38). -/
def resolve (s : State) (req : Req) (win : Window) (off : Nat) : Option Page :=
  match win with
  | .pf => if off < 0x1000000 ∧ !isVf req.fn then (pageOf off).filter s.answers else none
  | .vf =>
    if !isVf req.fn then none
    else if off < 0x1000 then some (.vf req.fn)
    else if off < 0x10000 then delegablePages.find? (s.inFrame req.fn (off / 0x1000))
    else none

/-- The check region that holds a word of a check-region page (R43). -/
def chkRegion (o : Nat) : Option Nat := if 0x100 ≤ o ∧ o < 0xD00 then some ((o - 0x100) / 0xC0) else none

/-- Header words that a VF may not write through its frame (R53): PG_CTRL and OWNER. -/
def frameForbids (o : Nat) : Bool := o == 0x008 || o == 0x02C

/-- Whether a word of a check-region page is neither read nor written through a frame: the frame shows the header and the blocks of its
own VF (R54). -/
def hiddenBlock (s : State) (a : RegAcc) : Bool :=
  match a.page with
  | .chk n =>
    a.viaVf && decide (0x040 ≤ a.off)
      && !((chkRegion a.off).any fun j =>
        s.flag (.chk n) F.CHK_OWNER_DELEGATE [j] && s.fld (.chk n) F.CHK_OWNER_FUNCTION [j] == a.req.fn)
  | _ => false

/-- Writes at least one field of its word in the sense of R497. -/
def writesAny (s : State) (a : RegAcc) : Bool := !(s.writtenFields a).isEmpty

/-- The device holds the token, or runs without a pair (R376). -/
def hasToken (s : State) : Bool := !s.standby

/-- The two doorbell words of a queue block of a VF control page or an HP page (R131). -/
def isDoorbell (pg : Page) (o : Nat) : Bool :=
  (match pg with
    | .vf _ => 0x100 ≤ o && decide (o < 0x200)
    | .hp _ => 0x200 ≤ o && decide (o < 0x400)
    | _ => false) && (o % 0x40 == 0x20 || o % 0x40 == 0x24)

/-- Whether any register access of a requester reaches the device: not in a reset, in RECOVERY, in OFF or after VHOLD is
exhausted; from a host only once its port has left reset (R464) and no device-fatal fault holds its lanes idle (R473). -/
def reaches (s : State) (fn : Nat) : Bool :=
  !s.faults.inReset && !s.faults.recovery && s.power.state != .off && s.power.state != .stopped
    && (fn == 0x40 || fn == 0x41 || (decide (6 ≤ s.fld .sys F.SYS_STAT_PHASE) && s.faults.fatal.isNone))

/-- Whether a page answers in the present power state (R412): in FALLOW, and in HOLDUP alike, the LINK domain answers for
itself and for PWR, AON and TIM. -/
def domainAnswers (s : State) : Page → Bool
  | .pwr | .aon | .tim | .hp _ | .vf _ => !(s.power.state == .holdup && s.power.flushed)
  | _ => s.power.state != .fallow && s.power.state != .holdup

/-- Whether the island of a page is gated by PWR_ISL_CTRL. -/
def pageGated (s : State) (pg : Page) : Bool :=
  match pageIsland pg with | some i => bit 0 (s.islandCtrl i) | none => false

/-- A secure access to a gated or stopped group waits while the group wakes (R107). -/
def holdBack (s : State) (g : Nat) (w : Waiting) : State :=
  let wk := s.worlds.waking
  { s with worlds := { s.worlds with
      waking := if wk.contains g then wk else wk ++ [g]
      waitingSecure := s.worlds.waitingSecure ++ [(g, w)] } }

/-- Whether secure accesses to a group wait: the group is stopped, or earlier ones wait at its crossing, which keeps their order (R35,
R40, R107). -/
def groupWaits (s : State) (g : Nat) : Bool := s.groupStopped g || s.worlds.waitingSecure.any fun w => w.1 == g

/-- The group at whose crossing a secure access to a page waits. -/
def waitsAt (s : State) (req : Req) (pg : Page) : Option Nat :=
  if req.secure ∧ s.power.state ≠ .fallow ∧ s.power.state ≠ .holdup then pg.group.filter s.groupWaits else none

/-- Carry a register write to its page and through the refusals that precede the field rules; `run` is what the word
itself does with it. -/
def access (s : State) (w : RegWr) (run : RegAcc → State → State) : State :=
  match (if s.reaches w.req.fn then (s.resolve w.req w.win w.off).filter s.domainAnswers else none) with
  | none => s
  | some pg =>
    let a : RegAcc := ⟨pg, w.off % 0x1000, w.req, w.val.toNat, w.win == .vf && pg != .vf w.req.fn⟩
    if s.hiddenBlock a then s
    else
      match s.waitsAt w.req pg with
      | some g => s.holdBack g (.write w)
      | none =>
        if w.be ≠ 0xF#4 ∨ w.off % 4 ≠ 0 then s.recAcc a 0x0005
        else
          match pg with
          | .vf fn =>
            if s.fnState fn = .resetting then
              -- doorbells of a function in reset are ignored without a record
              (if s.writesAny a ∧ !isDoorbell pg a.off then s.recAcc a 0x0602 else s)
            else run a s
          | _ =>
            if s.standby ∧ mirroredWord pg a.off then (if s.writesAny a then s.recAcc a 0x1003 else s)
            else if a.viaVf ∧ frameForbids a.off then (if s.writesAny a then s.recAcc a 0x000A else s)
            else if pg.base ∈ s.softResetting ∧ 0x040 ≤ a.off ∧ !isDoorbell pg a.off then (if s.writesAny a then s.recAcc a 0x0009 else s)
            -- the registers of a gated island are gone; only PG_CTRL, whose ENABLE ungates it, acts (R406)
            else if s.pageGated pg ∧ a.off ≠ 0x008 then s
            else run a s

/-- A row of the table that is a write of one word: the write is carried out when it reaches such a word; any other write
is not this command, and nothing happens. -/
def accessAt (s : State) (w : RegWr) (here : RegAcc → Bool) (run : RegAcc → State → State) : State :=
  s.access w fun a s1 => if here a then run a s1 else s1

/-- The word of a register in the page it belongs to. -/
def isWord (pg : Page) (f : Fld) (a : RegAcc) : Bool := a.page == pg && f.hits a.off

/-- After a register write has taken effect on the token holder, it is queued for the partner (R384, R388): the value
written, for a word that R384 mirrors and whose written fields are not shadowed ones. -/
def mirrorWrite (before after : State) (a : RegAcc) (latch sel : Nat) : State :=
  if mirroredWord a.page a.off ∧ (before.grantedFields a).any (fun f => f.acc == .rw || f.acc == .w1s || (f.acc == .wo && (f.rwl || f.sec))) then
    after.mirror (.reg (a.page.key a.off) a.val latch sel a.req.fn a.req.secure)
  else after

end State

end Sys2Proof.Machine
end

