-- ==== Sys2Proof/Machine/Memory.lean ====
section
/-! DEFINITION. DRAM: its bytes, its map onto channels, the code regions with their check areas, reads and writes of
128-bit words with their outcomes, the error log, and the checks of world separation on DRAM addresses. -/

namespace Sys2Proof.Machine

/-- What an unlisted byte of DRAM reads as. -/
def memDefault (_ : Nat) : Byte := 0

/-- Memory is in canonical form. -/
abbrev Memory.wf (m : List Host.Cell) : Bool := Sparse.wf memDefault m

/-- Read one byte. -/
def Memory.read (m : List Host.Cell) (a : Nat) : Byte := Sparse.get memDefault m a

/-- Write one byte. -/
def Memory.write (m : List Host.Cell) (a : Nat) (v : Byte) : List Host.Cell := Sparse.set memDefault m a v

/-- Read n bytes, little-endian (R6). -/
def Memory.readN (m : List Host.Cell) (a : Nat) : Nat → Nat
  | 0 => 0
  | n + 1 => (Memory.read m a).toNat + 256 * Memory.readN m (a + 1) n

/-- Write n bytes, little-endian. -/
def Memory.writeN (m : List Host.Cell) (a : Nat) : Nat → Nat → List Host.Cell
  | 0, _ => m
  | n + 1, v => Memory.writeN (Memory.write m a (BitVec.ofNat 8 v)) (a + 1) n (v / 256)

/-- A code region in force (R286): start, size, check area, STRONG. -/
structure Region where
  base : Nat
  size : Nat
  check : Nat
  strong : Bool
  deriving DecidableEq, Repr

/-- Length of the check area. -/
def Region.checkLen (r : Region) : Nat := if r.strong then r.size / 4 else r.size / 8

/-- Address and width of the check entry of the word at an address of the region. -/
def Region.entryAddr (r : Region) (a : Nat) : Nat :=
  if r.strong then r.check + 4 * ((a - r.base) / 16) else r.check + 2 * ((a - r.base) / 16)

def Region.entryLen (r : Region) : Nat := if r.strong then 4 else 2

/-- The check entry of a data word. -/
def Region.encode (r : Region) (w : Nat) : Nat := if r.strong then Codes.strongCheck w else Codes.lightCheck w

/-- The check entry of a poisoned word; its data is zero (R292). -/
def Region.poison (r : Region) : Nat := if r.strong then 0xFFFF_FFFF else 0x7F * 2 ^ 9

/-- Decode a stored word. -/
def Region.decode (r : Region) (w c : Nat) : Codes.Found := if r.strong then Codes.strongDecode w c else Codes.lightDecode w c

/-- The place of an address in DRAM (R266). -/
structure DramPlace where
  ch : Nat
  rank : Nat
  bank : Nat
  row : Nat
  burst : Nat
  deriving DecidableEq, Repr

/-- A requester's attribute on a DRAM request, with the port that carries it (R86, R270). -/
structure Attr where
  fn : Nat
  world : Bool
  crit : Nat
  port : Nat
  /-- The channel manager's fill engine (R87). -/
  fill : Bool
  /-- A scan engine: errors found are latent (R299). -/
  latent : Bool
  deriving DecidableEq, Repr

namespace State

/-- Channels of the part (R1). -/
def channels (s : State) : Nat := if s.part = .sx8400 then 16 else 8

/-- Capacity per channel in bytes, from DMC_CFG of channel 0 (R263, R264). -/
def chCapacity (s : State) : Nat :=
  2 ^ (30 + s.fld (.dmc 0) F.DMC_CFG_DENSITY) * (s.fld (.dmc 0) F.DMC_CFG_RANKS + 1)

/-- Installed DRAM in bytes. -/
def installed (s : State) : Nat := s.channels * s.chCapacity

/-- The place of a DRAM address (R266). -/
def place (s : State) (a : Nat) : DramPlace :=
  let x := fun (i j k l m : Nat) => Nat.xor (Nat.xor (a / 2 ^ i) (a / 2 ^ j)) (Nat.xor (a / 2 ^ k) (a / 2 ^ l)) % m
  let ch := if s.channels = 16 then x 8 12 16 20 16 else x 8 11 14 17 8
  let l := a / 2 ^ (if s.channels = 16 then 12 else 11) * 256 + a % 256
  let ranks := s.fld (.dmc 0) F.DMC_CFG_RANKS + 1
  let top := 30 + s.fld (.dmc 0) F.DMC_CFG_DENSITY + (ranks - 1)
  { ch := ch
    rank := if ranks = 2 then l / 2 ^ (top - 1) % 2 else 0
    bank := Nat.xor (l / 2 ^ 11) (l / 2 ^ 15) % 16
    row := l / 2 ^ 15 % 2 ^ (top - 15 - (ranks - 1))
    burst := l / 64 % 32 }

/-! ### Channels and the credit of SCAN_CRIT (R272) -/

def idleDmc : Dmc where
  reqs := []
  drain := false
  row := none
  batch := []
  lastBank := 15
  credit := 0
  creditAt := 0
  mult := 1
  powerDown := false
  lastUse := 0
  want := false
  training := false
  noWindow := 0
  failed := false
  selfRefresh := false

def dmc (s : State) (n : Nat) : Dmc := (Sparse.find s.dram.chans n).getD idleDmc

/-- Credit of a byte in the units in which credit is held. -/
def creditUnit (s : State) : Nat := 4 * s.channels * 1000000000

/-- Credit accrued until now, at most 4,096 bytes. -/
def creditNow (s : State) (d : Dmc) : Nat :=
  let r := ((List.range 8).map fun n => s.fld (.scn n) F.SCN_CL3_RESERVE_BW * 100000000).sum
  min (4096 * s.creditUnit) (d.credit + 5 * r * (s.now - d.creditAt))

/-- Every channel takes what it has accrued: a reserve is about to change. -/
def settleCredit (s : State) : State :=
  { s with dram := { s.dram with chans := (List.range s.channels).foldl (fun m n =>
      Sparse.put m n { s.dmc n with credit := s.creditNow (s.dmc n), creditAt := s.now }) s.dram.chans } }

/-- Region block r as its registers hold it (R286). -/
def regionBlock (s : State) (r : Nat) : Region :=
  { base := s.fld .edac F.EDAC_REG_BASE_BASE [r] * 2 ^ 21
    size := s.fld .edac F.EDAC_REG_SIZE_SIZE [r] * 2 ^ 21
    check := s.fld .edac F.EDAC_REG_CHECK_CHECK_BASE [r] * 65536
    strong := s.flag .edac F.EDAC_REG_CTRL_CODE [r] }

/-- The enabled region blocks, whether in force or not. -/
def regionBlocks (s : State) : List Region := ((List.range 16).map s.regionBlock).filter fun r => r.size != 0

/-- The code regions in force: none before EDAC_CTRL.REGIONS_SET is 1 (R287). -/
def regions (s : State) : List Region := if s.flag .edac F.EDAC_CTRL_REGIONS_SET then s.regionBlocks else []

/-- The region that holds an address. -/
def regionAt (s : State) (a : Nat) : Option Region :=
  s.regions.find? fun r => decide (r.base ≤ a) && decide (a < r.base + r.size)

/-- Whether an address lies in a check area (R288). -/
def inCheckArea (s : State) (a : Nat) : Bool :=
  s.regions.any fun r => decide (r.check ≤ a) && decide (a < r.check + r.checkLen)

/-- The secure watermark (R92). -/
def watermark (s : State) : Nat :=
  s.fld .wld F.WLD_WMARK_LO_WMARK_LO * 2 ^ 21 + s.fld .wld F.WLD_WMARK_HI_WMARK_HI * 2 ^ 32

/-- Pool base and size (R72). -/
def poolBase (s : State) : Nat :=
  s.fld .pool F.POOL_BASE_LO_BASE_LO * 2 ^ 21 + s.fld .pool F.POOL_BASE_HI_BASE_HI * 2 ^ 32

def poolPlots (s : State) : Nat := s.fld .pool F.POOL_PLOTS_PLOTS

/-- The pool is enabled. -/
def poolOn (s : State) : Bool := s.flag .pool F.PG_CTRL_ENABLE

/-- The plot that holds an address, when the pool is enabled and holds it. -/
def plotOf (s : State) (a : Nat) : Option Nat :=
  if s.poolOn ∧ s.poolBase ≤ a ∧ a < s.poolBase + s.poolPlots * 65536 then some ((a - s.poolBase) / 65536) else none

/-- Address of a plot. -/
def plotAddr (s : State) (p : Nat) : Nat := s.poolBase + p * 65536

/-- Address of the owner table (R93). -/
def ownTable (s : State) : Nat :=
  s.fld .own F.OWN_TABLE_LO_BASE_LO * 2 ^ 12 + s.fld .own F.OWN_TABLE_HI_BASE_HI * 2 ^ 32

/-- The stored word at a 16-byte-aligned address, without decoding. -/
def rawWord (s : State) (a : Nat) : Nat := Memory.readN s.mem a 16

/-- Store a whole word with its check entry (R298). -/
def storeWord (s : State) (a w : Nat) : State :=
  let m := Memory.writeN s.mem a 16 w
  match s.regionAt a with
  | none => { s with mem := m }
  | some r => { s with mem := Memory.writeN m (r.entryAddr a) r.entryLen (r.encode w) }

/-- Store the poison pattern (R292); outside every region the word is left alone (R289). -/
def storePoison (s : State) (a : Nat) : State :=
  match s.regionAt a with
  | none => s
  | some r => { s with mem := Memory.writeN (Memory.writeN s.mem a 16 0) (r.entryAddr a) r.entryLen r.poison }

/-- What decoding the stored word finds (R289, R293). -/
def lookWord (s : State) (a : Nat) : Codes.Found :=
  match s.regionAt a with
  | none => .clean (s.rawWord a)
  | some r => r.decode (s.rawWord a) (Memory.readN s.mem (r.entryAddr a) r.entryLen)

/-- The data of a word with errors corrected, and zero where none is delivered; for the device's own tables. -/
def peekWord (s : State) (a : Nat) : Nat :=
  match s.lookWord a with
  | .clean w => w
  | .corrected w _ => w
  | _ => 0

/-- Change n bytes inside a word that the device owns, encoding the word anew. -/
def pokeBytes (s : State) (a n v : Nat) : State :=
  let b := a / 16 * 16
  let sh := 8 * (a - b)
  s.storeWord b (setBits (sh + 8 * n - 1) sh (s.peekWord b) v)

/-! ### The owner table (R93 to R96) -/

/-- The owner-table entry of a plot as DRAM holds it. -/
def ownEntry (s : State) (p : Nat) : Nat :=
  let a := s.ownTable + 4 * p
  bits (8 * (a % 16) + 31) (8 * (a % 16)) (s.peekWord (a / 16 * 16))

/-- Write an entry: DRAM and the cache together (R95). -/
def setOwnEntry (s : State) (p e : Nat) : State :=
  let s1 := s.pokeBytes (s.ownTable + 4 * p) 4 e
  match Sparse.find s1.pool.cache (p % 65536) with
  | some (q, _) =>
    if q = p then { s1 with pool := { s1.pool with cache := Sparse.put s1.pool.cache (p % 65536) (p, BitVec.ofNat 32 e) } }
    else s1
  | none => s1

/-- Clear WRITTEN in a plot's entry (R283, R298, R299). -/
def clearWritten (s : State) (p : Nat) : State :=
  if bit 11 (s.ownEntry p) then
    (s.setOwnEntry p (s.ownEntry p - 2 ^ 11))
  else s

/-! ### The error log (R300) -/

/-- Xiresol's copy of a new entry in the system log: class corrected for KIND 1, else contained. The spec gives a
corrected and a merge-refused word no status code. -/
def edacCopy (s : State) (w0 kind : Nat) : State :=
  s.logEntry (if kind = 1 then 1 else 2) (if kind = 1 then openCode 0x0300 [] else if kind = 2 then 0x0401 else openCode 0x0300 [kind]) Page.edac.source w0 0

/-- Log a corrected, uncorrectable or merge-refused word. -/
def edacLog (s : State) (who : Attr) (a kind position : Nat) : State :=
  let pl := s.place a
  let strong := match s.regionAt a with | some r => r.strong | none => false
  let w0 := a % 2 ^ 32
  let w1 := a / 2 ^ 32 % 16 + pl.ch * 2 ^ 4 + pl.rank * 2 ^ 8 + pl.bank * 2 ^ 9 + kind * 2 ^ 13 + who.port * 2 ^ 16
    + who.fn * 2 ^ 20 + b2n who.world * 2 ^ 28 + b2n strong * 2 ^ 29 + b2n who.latent * 2 ^ 30
  let w2 := pl.row + position * 2 ^ 17
  let w3 := s.deviceTime / 2 ^ 20 % 2 ^ 32
  let isTwin := fun (e : EdacEntry) => e.w0 == w0 && bits 3 0 e.w1 == a / 2 ^ 32 % 16 && bits 15 13 e.w1 == kind
  let l := s.edac.log
  if l.any isTwin then
    let bump := fun (e : EdacEntry) =>
      (if isTwin e then ⟨e.w0, e.w1, setBits 31 25 e.w2 (satAdd 7 (bits 31 25 e.w2) 1), e.w3⟩ else e : EdacEntry)
    { s with edac := { s.edac with log := l.map bump } }
  else if l.length < 64 then
    let s1 := { s with edac := { s.edac with log := l ++ [(⟨w0, w1, w2, w3⟩ : EdacEntry)] } }
    (s1.setFld .edac F.EDAC_LOG_STAT_COUNT (l.length + 1)).edacCopy w0 kind
  else
    match l.findIdx? fun e => bits 15 13 e.w1 == 1 with
    | some i =>
      let s1 := { s with edac := { s.edac with log := l.eraseIdx i ++ [(⟨w0, w1, w2, w3⟩ : EdacEntry)] } }
      (s1.satFld .edac F.EDAC_LOG_STAT_LOST 1).edacCopy w0 kind
    | none => (s.satFld .edac F.EDAC_LOG_STAT_LOST 1).event .edac 3

/-- A corrected word: write-back, count, log and events (R293, R294). -/
def noteCorrected (s : State) (who : Attr) (a w position : Nat) : State :=
  let s1 := ((s.storeWord a w).edacLog who a 1 position).satFld .edac F.EDAC_CE_COUNT_COUNT 1
  let s2 := (s1.satFld .edac F.EDAC_CE_THRESH_WINDOW 1).event .edac 0
  let th := s2.fld .edac F.EDAC_CE_THRESH_THRESH
  if th ≠ 0 ∧ th ≤ s2.fld .edac F.EDAC_CE_THRESH_WINDOW ∧ s1.fld .edac F.EDAC_CE_THRESH_WINDOW < th then s2.event .edac 2
  else s2

/-- An uncorrectable word: poison it when POISON_EN is 1, count, log, and clear WRITTEN of its plot (R293, R295, R298). -/
def noteUncorrectable (s : State) (who : Attr) (a kind : Nat) : State :=
  let s1 := if s.flag .edac F.EDAC_CTRL_POISON_EN then s.storePoison a else s
  let s2 := ((s1.edacLog who a kind 0xFF).satFld .edac F.EDAC_UE_COUNT_COUNT 1).event .edac 1
  match s2.plotOf a with
  | some p => s2.clearWritten p
  | none => s2

/-- Read a word for a requester: the data delivered, the status (0, 0x0401 or 0x0402), and what the read did. -/
def readWord (s : State) (who : Attr) (a : Nat) : Nat × Nat × State :=
  match s.lookWord a with
  | .clean w => (w, 0, s)
  | .corrected w pos => (w, 0, s.noteCorrected who a w pos)
  | .uncorrectable => (0, 0x0401, s.noteUncorrectable who a 2)
  | .poisoned => (0, 0x0402, s.satFld .edac F.EDAC_POISON_READS_COUNT 1)

/-! ### Admission (R89, R94 to R96) -/

/-- The rows of R94 for an entry. -/
def admits (who : Attr) (write : Bool) (e : Nat) : Bool :=
  if who.world then true
  else if who.fill then true
  else if !bit 9 e then false
  else if bit 8 e then false
  else if write then who.fn == bits 7 0 e
  else who.fn == bits 7 0 e || who.fn == 0x00 || who.fn == 0x80 || who.fn == 0x40

/-- A miss of the owner-table cache: the table is read and the line replaced (R95, R96). -/
def missOwner (s : State) (who : Attr) (p : Nat) : Option Nat × State :=
  let a := s.ownTable + 4 * p
  let (w, st, s1) := ((s.addFld .own F.OWN_MISSES_COUNT 1).pmcCount 0x03 who.fn who.world true 1).readWord ⟨0x40, true, 3, 8, false, false⟩ (a / 16 * 16)
  if st ≠ 0 then
    let s2 := { s1 with pool := { s1.pool with cache := Sparse.del s1.pool.cache (p % 65536) } }
    (none, ((s2.recErr .own 0x0401 p).event .own 0).reportContained .own 0x0401 p who.fn)
  else
    let e := bits (8 * (a % 16) + 31) (8 * (a % 16)) w
    (some e, { s1 with pool := { s1.pool with cache := Sparse.put s1.pool.cache (p % 65536) (p, BitVec.ofNat 32 e) } })

/-- Look up a plot's entry through the cache (R95, R96): a miss reads the table and replaces the line, an uncorrectable
table read keeps no entry, is recorded and answers none. -/
def lookupOwner (s : State) (who : Attr) (p : Nat) : Option Nat × State :=
  match Sparse.find s.pool.cache (p % 65536) with
  | some (q, e) =>
    if q = p then (some e.toNat, s.addFld .own F.OWN_HITS_COUNT 1) else s.missOwner who p
  | none => s.missOwner who p
/-- WLD_DENY_ATTR.TARGET of a DRAM address: check areas and other DRAM 0x3, secure DRAM 0x2, a pool plot 0x1. -/
def dramTarget (s : State) (a : Nat) : Nat :=
  if s.inCheckArea a ∨ s.installed ≤ a then 3
  else if a < s.watermark then 2
  else if (s.plotOf a).isSome then 1 else 3

/-- Whether a DRAM access is admitted (R89), with what the check itself does. -/
def checkDram (s : State) (who : Attr) (write : Bool) (a : Nat) : Bool × State :=
  if s.installed ≤ a ∨ s.inCheckArea a then (false, s)
  else if a < s.watermark then (who.world, s)
  else
    match s.plotOf a with
    | some p =>
      match s.lookupOwner who p with
      | (some e, s1) => (admits who write e, s1)
      | (none, s1) => (false, s1)
    | none => (who.fn == 0x40 || who.fn == 0x41, s)

/-- A checked access to the word at an address: refused accesses are counted and captured (R90). -/
def guardDram (s : State) (who : Attr) (write : Bool) (a : Nat) : Bool × State :=
  match s.checkDram who write a with
  | (true, s1) => (true, s1)
  | (false, s1) => (false, s1.deny who.fn who.world who.crit write (s1.dramTarget a) a)

/-- Write a whole word for a requester: admitted writes store it; the answer says whether it was admitted. -/
def writeWordAs (s : State) (who : Attr) (a w : Nat) : Bool × State :=
  match s.guardDram who true a with
  | (true, s1) => (true, (s1.storeWord a w).pmcCount 0x02 who.fn who.world true 1)
  | (false, s1) => (false, s1)

/-- Read a word for a requester: status 0x0201 when refused (R90), else as `readWord`. -/
def readWordAs (s : State) (who : Attr) (a : Nat) : Nat × Nat × State :=
  match s.guardDram who false a with
  | (true, s1) => (s1.pmcCount 0x01 who.fn who.world true 1).readWord who a
  | (false, s1) => (0, 0x0201, s1)

end State

end Sys2Proof.Machine
end

