-- ==== Sys2Proof/Machine/Worlds.lean ====
section
/-! DEFINITION. World separation: the watermark, the refusal log, the gate, the secure hold and the performance counters
(R86 to R108). -/

namespace Sys2Proof.Machine

namespace State

/-! ## The watermark and the refusal log -/

/-- The watermark words: a secure write of 1 to SET freezes them, and a write after that records NOT_PERMITTED (R92). -/
def watermarkWrite (a : RegAcc) (s : State) : State :=
  if s.flag .wld F.WLD_WMARK_HI_SET then s.refuse a 0x000A else s.plainWrite a

/-- WLD_DENY_ATTR.CLEAR: the capture goes, the count stays (R90). -/
def denyClear (a : RegAcc) (s : State) : State :=
  if s.grants a F.WLD_DENY_ATTR_CLEAR then
    ((s.setRw (Page.wld.key 0x04C) 0).setRw (Page.wld.key 0x050) 0).setRw (Page.wld.key 0x054) 0
  else s.recRefused a

/-- The groups that a running power request is stopping (R107, R411). -/
def stopping (s : State) (g : Nat) : Bool :=
  match s.power.req with | some r => (targetGroups r.target).contains g | none => false

/-- WLD_HOLD: a secure write sets explicit holds, and wakes each group it names that is gated, stopped or being stopped (R107). -/
def holdWrite (a : RegAcc) (s : State) : State :=
  let s1 := s.plainWrite a
  let wake := (List.range 25).filter fun g =>
    s1.heldBit g && bit g a.val && (s1.groupStopped g || s1.stopping g) && !s1.worlds.waking.contains g
  { s1 with worlds := { s1.worlds with waking := s1.worlds.waking ++ wake } }

/-! ## The gate (R99 to R102) -/

/-- A service core as the state holds it. -/
def core (s : State) (k : Nat) : Core4 := (Sparse.find s.worlds.cores k).getD ⟨false, 0, 0, 0, true⟩

def setCore (s : State) (k : Nat) (c : Core4) : State :=
  { s with worlds := { s.worlds with cores := Sparse.put s.worlds.cores k c } }

/-- Stop or resume the performance counters of a core (R102). -/
def freezeCore (s : State) (k : Nat) (on : Bool) : State :=
  let v := s.fld .pmc F.PMC_STAT_FROZEN_CORE
  s.setFld .pmc F.PMC_STAT_FROZEN_CORE (if bit k v = on then v else if on then v + 2 ^ k else v - 2 ^ k)

/-- Mark a core inside or outside the gate. -/
def markCore (s : State) (k : Nat) (on : Bool) : State :=
  let v := s.fld .wld F.WLD_GATE_STAT_IN_SECURE
  s.setFld .wld F.WLD_GATE_STAT_IN_SECURE (if bit k v = on then v else if on then v + 2 ^ k else v - 2 ^ k)

/-- The scrub of R100: every register but the two result registers is zero, nothing of the secure stay remains, and the interrupts that
waited are taken. -/
def scrub (s : State) (k r0 r1 : Nat) : State :=
  let s1 := ((s.setCore k ⟨false, (s.core k).since, r0, r1, true⟩).markCore k false).freezeCore k false
  let mine := fun (x : Nat × Nat) => x.1 == k
  let s2 := { s1 with hosts := { s1.hosts with heldIrqs := s1.hosts.heldIrqs.filter fun x => !mine x } }
  (s1.hosts.heldIrqs.filter mine).foldl (fun t x => t.emit (.message 0x40 x.2)) s2

def gateReturn (s : State) (k r0 r1 : Nat) : State := if (s.core k).inSecure then s.scrub k r0 r1 else s

/-- Secure code that has not returned is aborted: TIMEOUT in the first result register (R101). The abort leaves the second
result register open, so it is a free value. -/
def gateTimeout (s : State) (k : Nat) : State :=
  if (s.core k).inSecure then
    let (v, s1) := s.takeFree
    (s1.scrub k 0x0007 (v % 2 ^ 64)).event .wld 1
  else s

/-! ## The performance counters (R102, R108) -/

/-- PMC_SELi: an unknown event code, or FUNCTION 0x41, leaves the register alone and records BAD_ARGUMENT. -/
def pmcSelWrite (a : RegAcc) (s : State) : State :=
  if !s.writesAny a then s
  else if 0x09 < bits 7 0 a.val ∨ bits 15 8 a.val = 0x41 then
    s.refuse a 0x0006
  else s.plainWrite a

/-- PMC_CTRL: CLEAR sets every counter to 0; RUN is an ordinary field. -/
def pmcCtrlWrite (a : RegAcc) (s : State) : State :=
  let clear := s.grants a F.PMC_CTRL_CLEAR
  let s1 := s.plainWrite a
  if clear then
    (List.range 8).foldl (fun t i => (t.setFld .pmc F.PMC_CNT_LO_COUNT_LO 0 [i]).setFld .pmc F.PMC_CNT_HI_COUNT_HI 0 [i]) s1
  else s1

end State

/-! ## The commands -/

def execWatermarkSet (w : RegWr) (s : State) : Host.Outcome State Fault Refusal :=
  .next (s.accessAt w (State.isWord .wld F.WLD_WMARK_HI_SET) State.watermarkWrite)

def execWldDenyClear (w : RegWr) (s : State) : Host.Outcome State Fault Refusal :=
  .next (s.accessAt w (State.isWord .wld F.WLD_DENY_ATTR_CLEAR) State.denyClear)

def execWldHoldWrite (w : RegWr) (s : State) : Host.Outcome State Fault Refusal :=
  .next (s.accessAt w (State.isWord .wld F.WLD_HOLD_HOLD) State.holdWrite)

def execGateReturn (core r0 r1 : Nat) (s : State) : Host.Outcome State Fault Refusal := .next (s.gateReturn core r0 r1)

def execGateTimeout (core : Nat) (s : State) : Host.Outcome State Fault Refusal := .next (s.gateTimeout core)

def execPmcClear (w : RegWr) (s : State) : Host.Outcome State Fault Refusal :=
  .next (s.accessAt w (State.isWord .pmc F.PMC_CTRL_CLEAR) State.pmcCtrlWrite)

end Sys2Proof.Machine
end

