-- ==== Sys2Proof/Machine/Ageing.lean ====
section
/-! DEFINITION. Margin surveys, re-planning, projections and the margin ledger (R433 to R446). -/

namespace Sys2Proof.Machine

/-- Fused values of one device: sensitivity k in ps per mV, temperature correction, factory plan (R435, R438). The spec gives no
numbers, so each is an open result. -/
def fusedK (i : Nat) : Nat := Config.openResult 0x0435 [i]

def fusedT (i : Nat) (tj : Int) : Nat := Config.openResult 0x1435 [i, toBits 8 tj]

def factoryMv (g : Nat) : Nat :=
  let (lo, hi) := groupRange g
  lo + 5 * (Config.openResult 0x0438 [g] % ((hi - lo) / 5 + 1))

def factoryMhz (i : Nat) : Nat :=
  match flexRange i with
  | some (lo, hi) => lo + 50 * (Config.openResult 0x1438 [i] % ((hi - lo) / 50 + 1))
  | none => 0

/-- V_req in mV at frequency f2 of an island measured at v and f with slack sl (R436). -/
def vreqAt (v f f2 : Nat) (sl : Int) (k t guard : Nat) : Nat :=
  let s2 : Int := sl + Int.tdiv 1000000 f2 - Int.tdiv 1000000 f
  let vmin : Int := v - Int.tdiv s2 k
  (5 * Int.tdiv (vmin + t + guard + 4) 5).toNat

/-- The frequency steps of a FLEX island, highest first (R438). -/
def freqSteps (i : Nat) : List Nat :=
  match flexRange i with
  | some (lo, hi) => ((List.range ((hi - lo) / 50 + 1)).map fun k => lo + 50 * k).reverse
  | none => []

namespace State

def mvNow (s : State) (g : Nat) : Nat := if g = 9 then 800 else Sparse.get factoryMv s.age.mvNow g
def mvPlan (s : State) (g : Nat) : Nat := if g = 9 then 800 else Sparse.get factoryMv s.age.mvPlan g
def mhzNow (s : State) (i : Nat) : Nat := Sparse.get factoryMhz s.age.mhzNow i
def mhzPlan (s : State) (i : Nat) : Nat := Sparse.get factoryMhz s.age.mhzPlan i

/-- BLOCK_STAT of AGE. -/
def ageStat (s : State) : State :=
  let s1 := (s.setFld .age F.AGE_BS_SURVEYING (b2n s.age.survey.isSome)).setFld .age F.AGE_BS_APPLYING (b2n s.age.applying)
  s1.setFld .age F.AGE_BS_REDUCED (b2n (!s.age.caps.isEmpty))

def setAge (s : State) (a : Age) : State := ({ s with age := a }).ageStat

/-- The device is in RUN or IDLE. -/
def awake (s : State) : Bool := s.power.state == .run || s.power.state == .idle

/-- A survey falls due (R438, R439): it starts, or waits outside RUN and IDLE or behind a running one. -/
def surveyDue (s : State) (cause : Nat) : State :=
  if s.awake ∧ s.age.survey.isNone then s.setAge { s.age with survey := some cause }
  else s.setAge { s.age with waiting := some cause }

/-- Why a requested survey is refused (R439). -/
def surveyRefusal (s : State) : Option Nat :=
  if !s.awake then some 1
  else if s.age.survey.isSome ∨ s.age.applying then some 2
  else if s.fld .pwr F.PWR_STAT_HOLD_READY = 0 then some 3 else none

/-- AGE_CTRL: a survey is requested by the manager or the secure world. -/
def ageCtrlWrite (a : RegAcc) (s : State) : State :=
  let g := bits 15 8 a.val
  let guardOk := decide (10 ≤ g) && decide (g ≤ 50)
  let badGuard := s.grants a F.AGE_CTRL_GUARD_MV && !guardOk
  let go := s.grants a F.AGE_CTRL_SURVEY
  let s1 := s.plainWrite a fun f => f != F.AGE_CTRL_GUARD_MV || guardOk
  let s2 := if badGuard then s1.recAcc a 0x0006 else s1
  if !go then s2
  else if !a.req.secure ∧ a.req.fn ≠ s.manager then s2.recAcc a 0x000A
  else match s2.surveyRefusal with | some r => s2.recErr .age 0x1201 r | none => s2.surveyDue 3

/-! ## The end of a survey (R440, R443, R444, R445) -/

/-- V_req of an island at a frequency, from its measurement. -/
def vreqOf (s : State) (i f2 : Nat) (sl tj : Int) : Nat :=
  let f := if (flexRange i).isSome then s.mhzNow i else 1
  let f2 := if (flexRange i).isSome then f2 else 1
  vreqAt (s.mvNow (islandGroup i)) f f2 sl (fusedK i) (fusedT i tj) (s.fld .age F.AGE_CTRL_GUARD_MV)

/-- Islands that a survey reads. -/
def surveyed (s : State) : List Nat := (List.range 46).filter s.islandPowered

/-- The frequency that step 1 of R440 gives an island, and whether one meets the range. -/
def newMhz (s : State) (i : Nat) (sl tj : Int) : Nat × Bool :=
  let top := (groupRange (islandGroup i)).2
  let fits := fun (f : Nat) => decide (s.vreqOf i f sl tj ≤ top)
  match flexRange i with
  | none => (0, fits 1)
  | some (lo, _) =>
    if fits (s.mhzPlan i) then (s.mhzPlan i, true)
    else match (freqSteps i).find? fits with | some f => (f, true) | none => (lo, false)

/-- CAP of an island that no frequency saves (R443): the pipe's highest PCLK / 2 in MHz. For a link it is a rate by its code, and the spec says
neither which rates still meet nor what stands there for other islands. -/
def newCap (s : State) (i : Nat) (sl tj : Int) : Nat :=
  if 10 ≤ i ∧ i ≤ 17 then
    let f := s.fld (.scn (i - 10)) F.SCN_PCLK_KHZ / 2000
    let ok := fun (f2 : Nat) => decide (vreqAt (s.mvNow (islandGroup i)) f f2 sl (fusedK i) (fusedT i tj) (s.fld .age F.AGE_CTRL_GUARD_MV) ≤ 850)
    (((List.range (f + 1)).reverse.filter (0 < ·)).find? ok).getD 0
  else if 1 ≤ i ∧ i ≤ 3 then 1 + Config.openResult 0x0443 [i, toBits 16 sl] % 5
  else Config.openResult 0x0443 [i, toBits 16 sl] % (if 18 ≤ i ∧ i ≤ 25 then 4 else 65536)

/-- Reduce an island (R443). -/
def reduceIsland (s : State) (i : Nat) (sl tj : Int) : State :=
  let s1 := { s with age := { s.age with caps := Sparse.put s.age.caps i (s.newCap i sl tj) } }
  let other := (flexRange i).isSome && !((decide (28 ≤ i) && decide (i ≤ 32)) || (decide (35 ≤ i) && decide (i ≤ 38)))
  if other ∧ (s.islandCap i).isNone then (s1.event .age 3).reportContained .age (openCode 0x0443 [i]) i else s1

/-- Powered hours left before an island's floor requirement reaches the top of its range (R444). -/
def hoursLeft (s : State) (i floorNow : Nat) : Nat :=
  let top := (groupRange (islandGroup i)).2
  let periodic := s.age.ledger.filter fun r => r.cause == 2 && r.crcOk
  match periodic.reverse[3]? with
  | some r =>
    let f4 := (r.islands.getD i (0, 0, 0, false)).2.1
    if floorNow ≤ f4 then 0xFFFF else min 0xFFFF ((top - floorNow) * (s.age.hours - r.hours) / (floorNow - f4))
  | none => min 0xFFFF (Config.openResult 0x0444 [i, top - floorNow])

/-- The survey ends: measurements, plan, projections, and the record that the ledger takes once the plan has been applied (R440). -/
def surveyEnd (s : State) (tj : Int) (m : List (Int × Nat)) : State :=
  match s.age.survey with
  | none => s
  | some cause =>
    let isl := s.surveyed
    let sl := fun (i : Nat) => (m.getD i (0, 0)).1
    let plan := isl.map fun i => (i, s.newMhz i (sl i) tj)
    let reduced := (plan.filter fun p => !p.2.2).map Prod.fst
    let meas := plan.map fun p => (p.1, s.vreqOf p.1 p.2.1 (sl p.1) tj, min ((m.getD p.1 (0, 0)).2) 0xFFF, min (sl p.1).toNat 0xFF)
    let floors := isl.map fun i => (i, s.vreqOf i ((flexRange i).getD (1, 1)).1 (sl i) tj)
    let s1 := reduced.foldl (fun t i => t.reduceIsland i (sl i) tj) s
    let measured := meas.foldl (fun st p => Sparse.put st p.1 p.2) s1.age.measured
    let mhz := plan.foldl (fun st p => if (flexRange p.1).isSome then Sparse.put st p.1 p.2.1 else st) s1.age.mhzPlan
    let target := fun (g : Nat) =>
      let (lo, hi) := groupRange g
      let need := ((List.range 46).filter fun i => islandGroup i == g).map fun i =>
        if (s1.islandCap i).isSome then hi else (Sparse.get (fun _ => (0, 0, 0)) measured i).1
      let v := min hi (max lo (need.foldl max 0))
      if s1.flag .age F.AGE_CTRL_AUTO then v else max v (s1.mvPlan g - 10)
    let mv := (List.range 9).foldl (fun st g => Sparse.put st g (target g)) s1.age.mvPlan
    let same := decide ((List.range 9).all fun g => target g == s1.mvPlan g) && plan.all fun p => (flexRange p.1).isNone || p.2.1 == s1.mhzPlan p.1
    let lefts := floors.map fun p => (p.1, s1.hoursLeft p.1 p.2)
    let best := lefts.foldl (fun (b : Nat × Nat) p => if p.2 < b.2 then p else b) (0, 0xFFFF)
    let number := s1.age.surveys + 1
    let floorOf := fun (i : Nat) => ((floors.find? fun p => p.1 == i).map Prod.snd).getD 0
    let record : LedgerRecord := ⟨number, s1.age.hours, cause, tj,
      (List.range 46).map fun i => ((Sparse.get (fun _ => (0, 0, 0)) measured i).1 % 1024, floorOf i % 1024, Sparse.get factoryMhz mhz i, (s1.islandCap i).isSome),
      (List.range 9).map target, true⟩
    let store := cause != 1 || (match s1.age.ledger.getLast? with | some r => decide (r.hours + 24 ≤ s1.age.hours) | none => true)
    let s2 := s1.setAge { s1.age with
      measured := measured, mhzPlan := mhz, mvPlan := mv, applying := true, changed := !same, survey := none
      surveys := number, record := if store then some record else none }
    let s3 := ((s2.satFld .age F.AGE_STAT_SURVEYS 1).setFld .age F.AGE_STAT_LAST_CAUSE cause).event .age 0
    let s4 := (s3.setFld .age F.AGE_PROJ_ISLAND best.1).setFld .age F.AGE_PROJ_LEFT best.2
    if best.2 ≤ 1000 then ((s4.setFld .age F.AGE_BS_PROJECTED 1).event .age 2).reportCorrected .age (openCode 0x0444 []) best.1
    else s4.setFld .age F.AGE_BS_PROJECTED 0

/-! ## Applying a plan (R441) -/

/-- In a pair the token holder waits with lowerings and frequency rises until the partner is STANDBY. -/
def mayLower (s : State) : Bool := !(s.flag .plk F.PG_CTRL_ENABLE && s.pair.state == .active) || s.pair.pState == 4

/-- The record of an applied plan goes into the ledger, whose first 16 are never overwritten (R440, R445). -/
def storeLedger (s : State) : State :=
  match s.age.record with
  | none => s
  | some r => { s with age := { s.age with
      record := none, ledger := (if 2048 ≤ s.age.ledger.length then s.age.ledger.eraseIdx 16 else s.age.ledger) ++ [r] } }

/-- Every step of the plan has been applied. -/
def planDone (s : State) : State :=
  let s1 := s.storeLedger.setAge { s.storeLedger.age with applying := false, changed := false }
  if s.age.changed then s1.event .age 1 else s1

/-- One step of the plan's application order: rises of groups, then frequencies, then falls of groups; the last one ends it. A device that
must wait with its frequency rises makes the reductions first. -/
def planStep (s : State) : State :=
  if !s.age.applying ∨ s.power.state = .holdup then s
  else
    match (List.range 9).find? fun g => decide (s.mvNow g < s.mvPlan g) with
    | some g => { s with age := { s.age with mvNow := Sparse.put s.age.mvNow g (min (s.mvPlan g) (s.mvNow g + 5)) } }
    | none =>
      let moves := (List.range 46).filter fun i => s.mhzNow i != s.mhzPlan i
      match moves.find? fun i => s.mayLower || decide (s.mhzPlan i < s.mhzNow i) with
      | some i => { s with age := { s.age with mhzNow := Sparse.put s.age.mhzNow i (s.mhzPlan i) } }
      | none =>
        match (List.range 9).find? fun g => decide (s.mvPlan g < s.mvNow g) with
        | some g =>
          if s.mayLower then { s with age := { s.age with mvNow := Sparse.put s.age.mvNow g (max (s.mvPlan g) (s.mvNow g - 5)) } } else s
        | none => if moves = [] then s.planDone else s

/-- Continuous monitoring finds too little slack (R437). At the top of its range the fault is one of the island's blocks; the spec gives it no
status code. -/
def marginAlarm (s : State) (i : Nat) : State :=
  let g := islandGroup i
  let top := (groupRange g).2
  if 46 ≤ i ∨ !s.islandPowered i then s
  else if s.mvPlan g = top ∧ s.mvNow g = top then
    ((s.reportContained (((islandPages i).head?).getD .age) (openCode 0x0437 [i]) i).event .age 4).surveyDue 4
  else
    let s1 := if s.mvPlan g + 10 ≤ top then
        s.setAge { s.age with mvPlan := Sparse.put s.age.mvPlan g (s.mvPlan g + 10), applying := true, changed := true } else s
    (s1.event .age 4).surveyDue 4

/-- A powered hour has passed (R442). -/
def poweredHour (s : State) : State :=
  if s.awake then
    let h := s.age.hours + 1
    let s1 := { s with age := { s.age with hours := h } }
    if h % 500 = 0 then s1.surveyDue 2 else s1
  else s

/-- 10 s after entering RUN, a survey that waited runs (R439). -/
def surveyDeferEnd (s : State) : State :=
  match s.age.waiting with
  | some c => if s.power.state = .run ∧ s.age.survey.isNone then s.setAge { s.age with survey := some c, waiting := none } else s
  | none => s

end State

/-! ## The commands -/

def execAgeSurveyRequest (w : RegWr) (s : State) : Host.Outcome State Fault Refusal :=
  .next (s.accessAt w (fun a => State.isWord .age F.AGE_CTRL_SURVEY a) State.ageCtrlWrite)

def execSurveyEnd (tj : Int) (m : List (Int × Nat)) (s : State) : Host.Outcome State Fault Refusal := .next (s.surveyEnd tj m)

def execMarginAlarm (island : Nat) (s : State) : Host.Outcome State Fault Refusal := .next (s.marginAlarm island)

def execPlanVoltageStep (s : State) : Host.Outcome State Fault Refusal := .next s.planStep

def execPoweredHour (s : State) : Host.Outcome State Fault Refusal := .next s.poweredHour

def execSurveyDeferEnd (s : State) : Host.Outcome State Fault Refusal := .next s.surveyDeferEnd

end Sys2Proof.Machine
end

