-- ==== Sys2Proof/Machine/Pool.lean ====
section
/-! DEFINITION. Channels, buffers, fences, quotas and the pool (R62 to R85, R503), with the meanings of their commands
and register writes. -/

namespace Sys2Proof.Machine

/-! ## Slot tables (R64, R66) -/

/-- The slot that has been free longest, of `n` slots. -/
def SlotTable.next {α : Type} (t : SlotTable α) (n : Nat) : Option Nat :=
  if t.fresh < n then some t.fresh else t.freed.head?

/-- Current generation of a slot; 1 at start-up. -/
def SlotTable.gen {α : Type} (t : SlotTable α) (i : Nat) : Nat := Sparse.get (fun _ => 1) t.gens i

/-- Occupy the slot that has been free longest. -/
def SlotTable.occupy {α : Type} (t : SlotTable α) (i : Nat) (v : α) : SlotTable α :=
  if i = t.fresh then { t with used := Sparse.put t.used i v, fresh := t.fresh + 1 }
  else { t with used := Sparse.put t.used i v, freed := t.freed.erase i }

/-- Change an occupied slot. -/
def SlotTable.update {α : Type} (t : SlotTable α) (i : Nat) (v : α) : SlotTable α :=
  { t with used := Sparse.put t.used i v }

/-- Return a slot to FREE: its generation rises by 1, and after `last` continues at 1. -/
def SlotTable.release {α : Type} (t : SlotTable α) (i last : Nat) : SlotTable α :=
  let g := if t.gen i < last then t.gen i + 1 else 1
  { used := Sparse.del t.used i, gens := Sparse.set (fun _ => 1) t.gens i g, fresh := t.fresh, freed := t.freed ++ [i] }

/-- The last generation of a channel slot and of a buffer slot (R64). -/
def lastChanGen : Nat := 0xF_FFFF
def lastBufGen : Nat := 0xFFFF

/-- Plots allowed for a buffer of a kind, as bytes (R62). -/
def kindLimit : Nat → Nat
  | 1 => 268435456
  | 2 | 3 => 4194304
  | 4 | 5 => 1048576
  | 6 => 65536
  | _ => 0

/-- Plots of a size in bytes (R63). -/
def plotsFor (size : Nat) : Nat := if size % 65536 = 0 then size / 65536 else size / 65536 + 1

namespace State

/-! ## Lookups -/

def chan (s : State) (i : Nat) : Option Chan := Sparse.find s.pool.chans.used i

def buf (s : State) (i : Nat) : Option Buf := Sparse.find s.pool.bufs.used i

def setChan (s : State) (i : Nat) (c : Chan) : State :=
  { s with pool := { s.pool with chans := s.pool.chans.update i c } }

def setBuf (s : State) (i : Nat) (b : Buf) : State :=
  { s with pool := { s.pool with bufs := s.pool.bufs.update i b } }

/-- Handle of an occupied or free channel slot (R82 table). -/
def chanHandle (s : State) (i : Nat) : Nat :=
  i + s.pool.chans.gen i * 2 ^ 8 + ((s.chan i).map Chan.kind).getD 0 * 2 ^ 28

/-- Handle of a buffer slot. -/
def bufHandle (s : State) (i : Nat) : Nat := i + s.pool.bufs.gen i * 2 ^ 16

/-- Channels of a function in OPEN or DRAINING. -/
def chanCount (s : State) (fn : Nat) : Nat := (s.pool.chans.used.filter fun p => p.2.fn == fn).length

/-- CHN_FN_LIMIT.LIMIT of a function. -/
def chanLimit (s : State) (fn : Nat) : Nat := bits 8 0 (s.rw (bankKey (Page.chn.key F.CHN_FN_LIMIT_LIMIT.off) fn))

/-- Q(f), S(f) and U(f) (R73). -/
def quota (s : State) (fn : Nat) : Nat := bits 20 0 (s.rw (bankKey (Page.pool.key F.POOL_FN_QUOTA_QUOTA.off) fn))

def share (s : State) (fn : Nat) : Nat := bits 20 0 (s.rw (bankKey (Page.pool.key F.POOL_FN_SHARE_SHARE.off) fn))

def usedPlots (s : State) (fn : Nat) : Nat :=
  ((s.pool.bufs.used.filter fun p => p.2.fn == fn).map fun p => p.2.plots.length).sum

/-- Every function that holds a quota and a share (R73). -/
def holders : List Nat := (List.range 0xC0).filter fun f => isHolder f

/-- The sum of all shares. -/
def shareSum (s : State) : Nat := (holders.map s.share).sum

/-- The outstanding reserve of a function (R73). -/
def reserve (s : State) (fn : Nat) : Nat := s.share fn - s.usedPlots fn

/-- Free plots (POOL_FREE). -/
def freePlots (s : State) : Nat :=
  if s.poolOn then
    (s.poolPlots - s.pool.plots.fresh) - (s.pool.plots.retired.filter fun p => s.pool.plots.fresh ≤ p ∧ p < s.poolPlots).length
      + s.pool.plots.freed.length
  else 0

/-- The condition of LOW_FREE (R84). -/
def lowFree (s : State) : Bool :=
  s.poolOn && s.fld .pool F.POOL_LOW_MARK_MARK != 0 && decide (s.freePlots < s.fld .pool F.POOL_LOW_MARK_MARK)

/-- Set LOW_FREE when a change makes its condition true (R84). -/
def noteLow (before after : State) : State := if after.lowFree && !before.lowFree then after.event .pool 1 else after

/-- Whether a requester passes step 5 of R65 for a handle of an owner. -/
def passesOwner (fn owner : Nat) : Bool := !isVf fn || fn == owner

/-! ## Handle checks (R65) -/

/-- Check a channel handle: the slot index, or the code. -/
def checkChan (s : State) (fn h : Nat) : Except Nat Nat :=
  let i := h % 256
  let g := h / 2 ^ 8 % 2 ^ 20
  let kind := h / 2 ^ 28
  if kind = 0 ∨ 7 ≤ kind ∨ g = 0 then .error 0x0101
  else if g ≠ s.pool.chans.gen i then .error 0x0102
  else
    match s.chan i with
    | none => .error 0x0102
    | some c =>
      if c.kind ≠ kind then .error 0x0101
      else if c.draining then .error 0x0102
      else if !passesOwner fn c.fn then .error 0x0101
      else .ok i

/-- Check a buffer handle; `freeing` lets a buffer in FREEING pass step 4 (R67). -/
def checkBuf (s : State) (fn h : Nat) (freeing : Bool := false) : Except Nat Nat :=
  let i := h % 65536
  let g := h / 65536
  if g = 0 then .error 0x0101
  else if g ≠ s.pool.bufs.gen i then .error 0x0102
  else
    match s.buf i with
    | none => .error 0x0102
    | some b =>
      if b.state ≠ .live ∧ !(freeing ∧ b.state = .freeing) then .error 0x0102
      else if !passesOwner fn b.fn then .error 0x0101
      else .ok i

/-- Kind of the channel of a buffer. -/
def bufKind (s : State) (i : Nat) : Nat :=
  ((s.buf i).bind fun b => (s.chan b.chan).map Chan.kind).getD 0

/-! ## Plots -/

/-- Take n plots from the head of the free list: the plots, and the list that remains (R75). -/
def takePlots (s : State) (n : Nat) : List Nat × Plots :=
  let p := s.pool.plots
  let span := (List.range (n + p.retired.length)).map (· + p.fresh)
  let fromFresh := (span.filter fun x => x < s.poolPlots ∧ x ∉ p.retired).take n
  let rest := n - fromFresh.length
  let fresh := match fromFresh.getLast? with | some x => x + 1 | none => p.fresh
  (fromFresh ++ p.freed.take rest, { p with fresh := fresh, freed := p.freed.drop rest })

/-- Mark a plot of a buffer as unowned (R77). -/
def disown (s : State) (p : Nat) : State :=
  let e := s.ownEntry p
  s.setOwnEntry p (if bit 9 e then e - 2 ^ 9 else e)

/-- Put the plots of a freed buffer behind the free list; marked ones are withheld (R75, R76). -/
def returnPlots (s : State) (ps : List Nat) : State :=
  let p := s.pool.plots
  let (out, back) := ps.partition fun x => p.marked.contains x
  let s1 := { s with pool := { s.pool with plots :=
    { p with freed := p.freed ++ back, retired := p.retired ++ out, marked := p.marked.filter fun x => !out.contains x } } }
  let s2 := ps.foldl disown s1
  if s.shareSum ≤ s.poolPlots - s.pool.plots.retired.length ∧ s2.poolPlots - s2.pool.plots.retired.length < s2.shareSum then
    s2.event .pool 3
  else s2

/-- A DRAINING channel whose last buffer is FREE becomes FREE (R71); on a standby device the token holder's record says when. -/
def chanDrained (s : State) (ci : Nat) : State :=
  match s.chan ci with
  | some c =>
    if c.draining ∧ !s.pair.keptChans.contains ci ∧ !(s.pool.bufs.used.any fun p => p.2.chan == ci) then
      let s1 := { s with pool := { s.pool with chans := s.pool.chans.release ci lastChanGen } }
      (s1.finishMirrored 0x86 [s.chanHandle ci] c.destroyJob).event .chn 0
    else s
  | none => s

/-- Return a buffer to FREE: its plots go back, the owner table is marked, the generation rises (R81). -/
def releaseBuf (s : State) (i : Nat) : State :=
  match s.buf i with
  | none => s
  | some b =>
    let s1 := { s with pool := { s.pool with bufs := s.pool.bufs.release i lastBufGen } }
    noteLow s (s1.returnPlots b.plots)

/-- Free a buffer (R81): at once when no fence holds it, otherwise FREEING with the job whose final completion is owed. The
answer says whether the buffer is FREE. -/
def freeBuf (s : State) (i : Nat) (jid : Option Nat) : Bool × State :=
  match s.buf i with
  | none => (true, s)
  | some b =>
    if b.state = .filling then (false, s.setBuf i { b with freeAfterFill := true })
    else if b.fences = 0 then (true, s.releaseBuf i)
    else if b.state = .freeing then (false, s)
    else (false, s.setBuf i { b with state := .freeing, freeJob := jid })

/-- Destroy a channel (R71, R503): every buffer is freed; the channel is FREE at once when none is held, and otherwise
DRAINING with the job whose final completion is owed. -/
def destroyChan (s : State) (ci : Nat) (jid : Option Nat) : Bool × State :=
  match s.chan ci with
  | none => (true, s)
  | some c =>
    let idx := (s.pool.bufs.used.filter fun p => p.2.chan == ci).map Prod.fst
    let s1 := idx.foldl (fun t i => (t.freeBuf i none).2) s
    if s1.pool.bufs.used.any fun p => p.2.chan == ci then
      (false, s1.setChan ci { c with draining := true, destroyJob := jid })
    else (true, { s1 with pool := { s1.pool with chans := s1.pool.chans.release ci lastChanGen } })

/-- Parameters of the record of a destroy: the handle, whether the channel is now DRAINING, and its buffers in FREEING. -/
def destroyParams (s : State) (ci h : Nat) : List Nat :=
  [h, b2n (s.chan ci).isSome] ++ (s.pool.bufs.used.filter fun p => p.2.chan == ci && p.2.state == .freeing).map Prod.fst

/-! ## Fences (R79, R80) -/

/-- A reference to a buffer begins. -/
def fence (s : State) (i : Nat) : State :=
  match s.buf i with
  | some b => s.setBuf i { b with fences := b.fences + 1 }
  | none => s

/-- A reference to a buffer ends; the last one of a FREEING buffer frees it (R81). -/
def unfence (s : State) (i : Nat) : State :=
  match s.buf i with
  | none => s
  | some b =>
    let s1 := s.setBuf i { b with fences := b.fences - 1 }
    if b.state = .freeing ∧ b.fences ≤ 1 then
      let s2 := (s1.releaseBuf i).finishMirrored 0x85 [s.bufHandle i] b.freeJob
      (s2.event .pool 0).chanDrained b.chan
    else s1

/-! ## Allocation (R75, R77, R78) -/

/-- The decision of R75 for n plots of function f. -/
def allocCheck (s : State) (f n : Nat) : Option Nat :=
  if s.quota f < s.usedPlots f + n then some 0x0103
  else if s.freePlots < n + ((holders.filter (· != f)).map s.reserve).sum then some 0x0104
  else if (s.pool.bufs.next 65536).isNone then some 0x0108
  else none

/-- Whether a plot must be filled for a new owner (R78). -/
def needsFill (s : State) (f p : Nat) : Bool :=
  let e := s.ownEntry p
  !bit 11 e || bits 7 0 e != f || bit 8 e != (f == 0x41) || s.flag .pool F.POOL_FILL_ALWAYS

/-- The entry of an owned plot (R77, R93); WRITTEN is 1 because a plot not yet written is filled before use. -/
def ownedEntry (f : Nat) : Nat := f + b2n (f == 0x41) * 2 ^ 8 + 2 ^ 9 + 2 ^ 11

/-- A new buffer takes its slot; the rest of the plots stays free, and a buffer with plots to fill joins the fill queue (R78). -/
def addBuf (s : State) (i : Nat) (b : Buf) (rest : Plots) : State :=
  { s with pool := { s.pool with
    plots := rest
    bufs := s.pool.bufs.occupy i b
    fillQueue := if b.toFill = [] then s.pool.fillQueue else s.pool.fillQueue ++ [i] } }

/-- POOL_FN_PEAK keeps the greatest use of plots (R84). -/
def notePeak (s : State) (f : Nat) : State :=
  { s with pool := { s.pool with
    peak := Sparse.put s.pool.peak f (max (Sparse.get (fun _ => 0) s.pool.peak f) (s.usedPlots f)) } }

/-- Take n plots and a buffer slot for channel ci of function f; the slot. -/
def allocate (s : State) (ci f size : Nat) (jid : Option Nat) : Nat × State :=
  let n := plotsFor size
  let i := (s.pool.bufs.next 65536).getD 0
  let ps := (s.takePlots n).1
  let fill := ps.filter (s.needsFill f)
  let b : Buf := ⟨if fill = [] then .live else .filling, ci, s.chanHandle ci, f, ps, size, 0, fill, jid, none, false⟩
  let s1 := s.addBuf i b (s.takePlots n).2
  let s2 := ps.foldl (fun t p => t.setOwnEntry p (ownedEntry f)) s1
  let s3 := s2.notePeak f
  (i, noteLow s s3)

/-- A new buffer without a plot to fill is LIVE at once and its command completes; any other completes when its last fill ends (R78). -/
def allocDone (s : State) (j : Job) (i : Nat) : State :=
  match s.buf i with
  | some b =>
    if b.state = .live then (s.setBuf i { b with allocJob := none }).completeMirrored 0x03 [s.bufHandle i, b.chanHandle, b.size] b.plots j.jid 0 [s.bufHandle i]
    else s
  | none => s

/-- Step 2 of R68: CHN or POOL is not enabled. -/
def poolNotReady (s : State) : Bool := !s.poolOn || !s.flag .chn F.PG_CTRL_ENABLE

/-! ## The operations of R67, in the order of R68 -/

def carryChannelCreate (j : Job) (s : State) : State :=
  let kind := bits 3 0 (j.p 0)
  let owner := if isVf j.fn then j.fn else bits 15 8 (j.p 0)
  if s.poolNotReady then s.complete j.jid 0x1301
  else if bits 7 4 (j.p 0) ≠ 0 ∨ bits 31 16 (j.p 0) ≠ 0 then s.complete j.jid 0x0006
  else if kind = 0 ∨ 7 ≤ kind ∨ !isHolder owner then s.complete j.jid 0x0006
  else if s.chanLimit owner ≤ s.chanCount owner then (s.event .pool 2).complete j.jid 0x0103
  else
    match s.pool.chans.next 256 with
    | none => s.complete j.jid 0x0106
    | some i =>
      let s1 := { s with pool := { s.pool with chans := s.pool.chans.occupy i ⟨kind, owner, false, none⟩ } }
      s1.completeMirrored 0x01 [s1.chanHandle i, owner] [] j.jid 0 [s1.chanHandle i]

def carryChannelDestroy (j : Job) (s : State) : State :=
  if s.poolNotReady then s.complete j.jid 0x1301
  else
    match s.checkChan j.fn (j.p 0) with
    | .error code => s.complete j.jid code
    | .ok i =>
      match s.destroyChan i (some j.jid) with
      | (true, s1) => s1.completeMirrored 0x02 (s1.destroyParams i (j.p 0)) [] j.jid 0 []
      | (false, s1) => s1.completeMirrored 0x02 (s1.destroyParams i (j.p 0)) [] j.jid 1 []

def carryBufferAlloc (j : Job) (s : State) : State :=
  if s.poolNotReady then s.complete j.jid 0x1301
  else
    match s.checkChan j.fn (j.p 0) with
    | .error code => s.complete j.jid code
    | .ok ci =>
      let f := ((s.chan ci).map Chan.fn).getD 0
      let kind := ((s.chan ci).map Chan.kind).getD 0
      let size := j.p 1
      if size = 0 then s.complete j.jid 0x0002
      else if kindLimit kind < size then s.complete j.jid 0x0105
      else
        match s.allocCheck f (plotsFor size) with
        | some code => (if code = 0x0108 then s else s.event .pool 2).complete j.jid code
        | none =>
          let r := s.allocate ci f size (some j.jid)
          r.2.allocDone j r.1

def carryBufferFree (j : Job) (s : State) : State :=
  if s.poolNotReady then s.complete j.jid 0x1301
  else
    match s.checkBuf j.fn (j.p 0) with
    | .error code => s.complete j.jid code
    | .ok i =>
      match s.freeBuf i (some j.jid) with
      | (true, s1) => s1.completeMirrored 0x04 [j.p 0, 0] [] j.jid 0 []
      | (false, s1) => s1.completeMirrored 0x04 [j.p 0, 1] [] j.jid 1 []

def bufStateCode : BufState → Nat
  | .filling => 1
  | .live => 2
  | .freeing => 3

def carryBufferQuery (j : Job) (s : State) : State :=
  if s.poolNotReady then s.complete j.jid 0x1301
  else
    match s.checkBuf j.fn (j.p 0) true with
    | .error code => s.complete j.jid code
    | .ok i =>
      match s.buf i with
      | some b => s.complete j.jid 0 [bufStateCode b.state + b.fences * 2 ^ 16, b.plots.length]
      | none => s.complete j.jid 0x0102

/-! ## Fills (R78, R81, R503) -/

/-- Zero a range of DRAM, its check entries included: the check entry of zero data is zero in both codes (R290, R291). -/
def zeroRange (s : State) (a n : Nat) : State :=
  let inData := fun (k : Nat) => decide (a ≤ k) && decide (k < a + n)
  let inCheck := fun (k : Nat) => s.regions.any fun r =>
    decide (r.base ≤ a) && decide (a + n ≤ r.base + r.size)
      && decide (r.entryAddr a ≤ k) && decide (k < r.entryAddr (a + n - 16) + r.entryLen)
  { s with mem := s.mem.filter fun c => !(inData c.1 || inCheck c.1) }

/-- The last plot of a buffer is filled: the buffer is LIVE, or is freed when its channel was destroyed meanwhile. -/
def fillEnded (s : State) (i : Nat) (b : Buf) : State :=
  let s1 := s.setBuf i { b with state := .live, toFill := [], allocJob := none }
  let s2 :=
    match b.allocJob with
    | some jid => s1.completeMirrored 0x03 [s1.bufHandle i, b.chanHandle, b.size] b.plots jid 0 [s1.bufHandle i]
    | none => s1
  if b.freeAfterFill then
    let s3 := (s2.freeBuf i none).2
    (s3.mirror (.record 0x04 [s2.bufHandle i, b2n (s3.buf i).isSome] [] none)).chanDrained b.chan
  else s2

/-- The fill engine finishes a plot. -/
def plotFillDone (s : State) : State :=
  match s.pool.fillQueue with
  | [] => s
  | i :: rest =>
    match s.buf i with
    | none => { s with pool := { s.pool with fillQueue := rest } }
    | some b =>
      match b.toFill with
      | [] => { s with pool := { s.pool with fillQueue := rest } }
      | p :: ps =>
        let s1 := ((s.zeroRange (s.plotAddr p) 65536).addFld .pool F.POOL_FILLED_COUNT 1).pmcCount 0x02 0x40 false true 4096
        if ps = [] then ({ s1 with pool := { s1.pool with fillQueue := rest } }).fillEnded i b
        else s1.setBuf i { b with toFill := ps }

/-! ## Register writes of the CHN and POOL pages -/

/-- ERR_INFO of 0x0006 and 0x0604 on these pages (R84). -/
def selInfo (a : RegAcc) (sel : Nat) : Nat := a.off % 0x1000 + sel * 2 ^ 16

/-- A banked register written through its selector: nothing unless the value differs from what a read returns (R497), which is 0 for a
selector that names no holder; refused when the page is secure or locked, then when the selector names no holder (R83, R84), and otherwise
handed to `accept`. -/
def bankedWrite (a : RegAcc) (s : State) (sel : Nat) (f : Fld) (accept : Nat → State → State) : State :=
  if !s.grants a f then s.recRefused a
  else if !isHolder sel then s.recErr a.page 0x0006 (selInfo a sel)
  else accept (bits f.hi f.lo a.val) s

def quotaWrite (a : RegAcc) (s : State) : State :=
  let sel := s.fld .pool F.POOL_FN_SEL_FUNCTION
  bankedWrite a s sel F.POOL_FN_QUOTA_QUOTA fun v t =>
    if v < t.share sel then t.recErr .pool 0x0006 (selInfo a sel)
    else (t.setRw (bankKey (a.page.key a.off) sel) v).mirror (.reg (a.page.key a.off) a.val 0 sel a.req.fn a.req.secure)

def shareWrite (a : RegAcc) (s : State) : State :=
  let sel := s.fld .pool F.POOL_FN_SEL_FUNCTION
  bankedWrite a s sel F.POOL_FN_SHARE_SHARE fun v t =>
    if t.quota sel < v then t.recErr .pool 0x0006 (selInfo a sel)
    else if t.share sel < v ∧ t.poolPlots - t.pool.plots.retired.length < t.shareSum - t.share sel + v then
      t.recErr .pool 0x0604 (selInfo a sel)
    else (t.setRw (bankKey (a.page.key a.off) sel) v).mirror (.reg (a.page.key a.off) a.val 0 sel a.req.fn a.req.secure)

def limitWrite (a : RegAcc) (s : State) : State :=
  let sel := s.fld .chn F.CHN_FN_SEL_FUNCTION
  bankedWrite a s sel F.CHN_FN_LIMIT_LIMIT fun v t =>
    if 256 < v then t.recErr .chn 0x0006 (selInfo a sel)
    else (t.setRw (bankKey (a.page.key a.off) sel) v).mirror (.reg (a.page.key a.off) a.val 0 sel a.req.fn a.req.secure)

def lowMarkWrite (a : RegAcc) (s : State) : State := mirrorWrite s (noteLow s (s.plainWrite a)) a 0 0

/-- POOL_FN_PEAK.CLEAR (R84 table). -/
def peakClear (a : RegAcc) (s : State) : State :=
  let sel := s.fld .pool F.POOL_FN_SEL_FUNCTION
  if !s.written a F.POOL_FN_PEAK_CLEAR then s
  else if s.refusedSec a F.POOL_FN_PEAK_CLEAR then s.denyReg a
  else if !isHolder sel then s.recErr .pool 0x0006 (selInfo a sel)
  else { s with pool := { s.pool with peak := Sparse.put s.pool.peak sel (s.usedPlots sel) } }

/-- POOL_BASE_LO, POOL_BASE_HI and POOL_PLOTS: refused while the pool is enabled (R72). -/
def poolPlaceWrite (a : RegAcc) (s : State) : State :=
  if s.poolOn then s.refuse a 0x000A else mirrorWrite s (s.plainWrite a) a 0 0

/-- The refusals of R72 when POOL is enabled, the owner table's place (R93) and REGIONS_SET (R287) included. -/
def poolRefusal (s : State) : Option Nat :=
  let base := s.poolBase
  let n := s.poolPlots
  let tab := s.ownTable
  if !s.flag .edac F.EDAC_CTRL_REGIONS_SET then some 0x1301
  else if n = 0 then some 0x0002
  else if blockCap s.part .pool < n ∨ s.installed < base + n * 65536 ∨ base < s.watermark then some 0x0006
  else if s.watermark < tab + 4 * n then some 0x0006
  else if !(s.regions.any fun r => r.strong && decide (r.base ≤ tab) && decide (tab + 4 * n ≤ r.base + r.size)) then
    some 0x0006
  else if n < s.shareSum then some 0x0604
  else none

/-- Whether a plot has a 256-byte block in a channel, rank and bank (R301). -/
def plotInBank (s : State) (b : Nat × Nat × Nat) (p : Nat) : Bool :=
  (List.range 256).any fun k =>
    let d := s.place (s.plotAddr p + 256 * k)
    d.ch == b.1 && d.rank == b.2.1 && d.bank == b.2.2

/-- Retire one plot (R76): withheld at once, or when the buffer that holds it is freed. -/
def retirePlot (s : State) (p : Nat) : State :=
  let x := s.pool.plots
  if x.retired.contains p || x.marked.contains p then s
  else if s.pool.bufs.used.any fun b => b.2.plots.contains p then
    { s with pool := { s.pool with plots := { x with marked := x.marked ++ [p] } } }
  else
    let s1 := { s with pool := { s.pool with plots := { x with retired := x.retired ++ [p], freed := x.freed.filter (· != p) } } }
    let s2 := if s1.poolPlots - s1.pool.plots.retired.length < s1.shareSum ∧ s.shareSum ≤ s.poolPlots - x.retired.length
      then s1.event .pool 3 else s1
    noteLow s s2

/-- Fill the free list of a newly enabled pool (R75): retirements stay in force, and those of the list that lie in the new
pool are made before the first allocation (R302). -/
def startPool (s : State) : State :=
  let keep := s.pool.plots.retired.filter fun p => p < s.poolPlots
  let s1 := { s with pool := { s.pool with plots := ⟨0, [], keep, []⟩ } }
  let s2 := (s1.edac.plotList.filter fun p => p < s1.poolPlots).foldl retirePlot s1
  s2.edac.bankList.foldl (fun t b => ((List.range t.poolPlots).filter (t.plotInBank b)).foldl retirePlot t) s2

/-- A write of 1 to POOL PG_CTRL.ENABLE that is not refused by its access (R72). -/
def poolEnable (a : RegAcc) (s : State) : State :=
  match s.poolRefusal with
  | some code => s.recErr .pool code (if code = 0x0006 ∨ code = 0x0604 then selInfo a (s.fld .pool F.POOL_FN_SEL_FUNCTION) else a.info)
  | none =>
    let s1 := ((s.setFld .pool F.PG_CTRL_ENABLE 1).setFld .pool F.PG_STAT_ENABLED 1).startPool
    noteLow s (mirrorWrite s s1 a 0 0)

/-- A write of 0 to ENABLE of CHN or POOL: BUSY while any channel exists (R72). -/
def poolDisable (a : RegAcc) (s : State) : State :=
  if s.pool.chans.used ≠ [] then s.recAcc a 0x0009
  else mirrorWrite s ((s.setFld a.page F.PG_CTRL_ENABLE 0).setFld a.page F.PG_STAT_ENABLED 0) a 0 0

end State

/-! ## The commands -/

def execChannelCreate (c : CmdArgs) (s : State) : Host.Outcome State Fault Refusal :=
  .next (s.command 0x01 c State.carryChannelCreate)

def execChannelDestroy (c : CmdArgs) (s : State) : Host.Outcome State Fault Refusal :=
  .next (s.command 0x02 c State.carryChannelDestroy)

def execBufferAlloc (c : CmdArgs) (s : State) : Host.Outcome State Fault Refusal :=
  .next (s.command 0x03 c State.carryBufferAlloc)

def execBufferFree (c : CmdArgs) (s : State) : Host.Outcome State Fault Refusal :=
  .next (s.command 0x04 c State.carryBufferFree)

def execBufferQuery (c : CmdArgs) (s : State) : Host.Outcome State Fault Refusal :=
  .next (s.command 0x05 c State.carryBufferQuery)

def execPlotFillDone (s : State) : Host.Outcome State Fault Refusal := .next s.plotFillDone

def execPoolFnQuotaWrite (w : RegWr) (s : State) : Host.Outcome State Fault Refusal :=
  .next (s.accessAt w (State.isWord .pool F.POOL_FN_QUOTA_QUOTA) State.quotaWrite)

def execPoolFnShareWrite (w : RegWr) (s : State) : Host.Outcome State Fault Refusal :=
  .next (s.accessAt w (State.isWord .pool F.POOL_FN_SHARE_SHARE) State.shareWrite)

def execChnFnLimitWrite (w : RegWr) (s : State) : Host.Outcome State Fault Refusal :=
  .next (s.accessAt w (State.isWord .chn F.CHN_FN_LIMIT_LIMIT) State.limitWrite)

def execPoolLowMarkWrite (w : RegWr) (s : State) : Host.Outcome State Fault Refusal :=
  .next (s.accessAt w (State.isWord .pool F.POOL_LOW_MARK_MARK) State.lowMarkWrite)

def execPoolFnPeakClear (w : RegWr) (s : State) : Host.Outcome State Fault Refusal :=
  .next (s.accessAt w (State.isWord .pool F.POOL_FN_PEAK_CLEAR) State.peakClear)

end Sys2Proof.Machine
end

