-- ==== Sys2Proof/Machine/Seedbed.lean ====
section
/-! DEFINITION. Pixel formats, tiles, buffer layouts and the Seedbed format, to the bit (R132 to R145). -/

namespace Sys2Proof.Machine.Seedbed

/-- One plane of a format: tile size and element bytes, and the bit ranges (low bit, width) of its channels in channel
order c0 to c3 (R132, R134). -/
structure Plane where
  tileW : Nat
  tileH : Nat
  bytes : Nat
  chans : List (Nat × Nat)
  deriving DecidableEq, Repr

/-- The planes of a format code; none for a reserved code (R132, R134). -/
def planes : Nat → Option (List Plane)
  | 0x01 | 0x02 => some [⟨8, 8, 4, [(0, 8), (8, 8), (16, 8), (24, 8)]⟩]
  | 0x03 => some [⟨8, 8, 4, [(0, 10), (10, 10), (20, 10), (30, 2)]⟩]
  | 0x04 => some [⟨4, 8, 8, [(0, 16), (16, 16), (32, 16), (48, 16)]⟩]
  | 0x05 => some [⟨16, 16, 1, [(0, 8)]⟩, ⟨8, 16, 2, [(0, 8), (8, 8)]⟩]
  | 0x06 => some [⟨32, 8, 1, [(0, 8)]⟩]
  | _ => none

/-- Elements across and down of plane p of a surface (R134). -/
def planeW (format p w : Nat) : Nat := if format = 0x05 ∧ p = 1 then w / 2 else w

def planeH (format p h : Nat) : Nat := if format = 0x05 ∧ p = 1 then h / 2 else h

/-- Tile columns and rows of a plane. -/
def Plane.cols (pl : Plane) (ew : Nat) : Nat := (ew + pl.tileW - 1) / pl.tileW

def Plane.rows (pl : Plane) (eh : Nat) : Nat := (eh + pl.tileH - 1) / pl.tileH

/-- Elements of a tile. -/
def Plane.count (pl : Plane) : Nat := pl.tileW * pl.tileH

/-- Data and metadata base of each plane, and the layout size (R137). -/
def layoutFrom (format w h : Nat) (seedbed : Bool) : Nat → Nat → List Plane → List (Nat × Nat) × Nat
  | _, off, [] => ([], off)
  | p, off, pl :: r =>
    let tiles := pl.cols (planeW format p w) * pl.rows (planeH format p h)
    let metaB := off + 256 * tiles
    let next := if seedbed then metaB + (8 * tiles + 255) / 256 * 256 else metaB
    let (l, size) := layoutFrom format w h seedbed (p + 1) next r
    ((off, metaB) :: l, size)

def layout (format w h : Nat) (seedbed : Bool) : List (Nat × Nat) × Nat :=
  layoutFrom format w h seedbed 0 0 ((planes format).getD [])

/-- Bytes that a surface takes in a buffer (R137). -/
def layoutSize (format w h : Nat) (seedbed : Bool) : Nat := (layout format w h seedbed).2

/-- Pack a list of values of `width` bits, least first. -/
def packBits (width : Nat) : List Nat → Nat
  | [] => 0
  | v :: r => v + 2 ^ width * packBits width r

/-- Data word k of a number that holds a whole tile or stream. -/
def wordOf (k v : Nat) : Nat := v / 2 ^ (128 * k) % 2 ^ 128

/-- Channel c of an element. -/
def chanOf (e : Nat) (c : Nat × Nat) : Nat := e / 2 ^ c.1 % 2 ^ c.2

def listMin : List Nat → Nat
  | [] => 0
  | [a] => a
  | a :: r => min a (listMin r)

def listMax : List Nat → Nat
  | [] => 0
  | a :: r => max a (listMax r)

/-- The least w for which d < 2^w (R144). -/
def widthFor (d : Nat) : Nat := ((List.range 17).find? fun w => decide (d < 2 ^ w)).getD 16

/-- An encoded tile: its metadata entry and the data words that ingest writes (R138 to R144). -/
structure Encoded where
  entry : Nat
  words : List Nat
  mode : Nat
  deriving DecidableEq, Repr

/-- Encode the elements of a tile (R144). -/
def encode (pl : Plane) (es : List Nat) : Encoded :=
  let n := pl.count
  let e0 := es.headD 0
  if es.all (· == 0) then ⟨3 * 2 ^ 62 + 1 * 2 ^ 57, [], 3⟩
  else if es.all (· == e0) then
    if pl.bytes = 8 then ⟨2 * 2 ^ 62 + 1 * 2 ^ 57, [e0], 2⟩ else ⟨2 * 2 ^ 62 + 1 * 2 ^ 57 + e0, [], 2⟩
  else
    let ch := pl.chans.map fun c =>
      let vs := es.map fun e => chanOf e c
      (c, listMin vs, widthFor (listMax vs - listMin vs))
    let s := (ch.map fun x => x.2.2).sum
    let total := 1 + (n * s + 127) / 128
    if total ≤ 15 then
      let hdr := packBits 16 (ch.map fun x => x.2.1) + 2 ^ 64 * packBits 5 (ch.map fun x => x.2.2)
      let res := es.map fun e =>
        (ch.foldl (fun (acc : Nat × Nat) x => (acc.1 + (chanOf e x.1 - x.2.1) * 2 ^ acc.2, acc.2 + x.2.2)) (0, 0)).1
      let bits := packBits s res
      ⟨1 * 2 ^ 62 + total * 2 ^ 57, hdr :: (List.range (total - 1)).map fun k => wordOf k bits, 1⟩
    else
      let raw := packBits (8 * pl.bytes) es
      ⟨0 * 2 ^ 62 + 16 * 2 ^ 57, (List.range 16).map fun k => wordOf k raw, 0⟩

/-- The sixteen words of an uncompressed tile (R135). -/
def tiledWords (pl : Plane) (es : List Nat) : List Nat :=
  let raw := packBits (8 * pl.bytes) es
  (List.range 16).map fun k => wordOf k raw

/-- Split a number into n values of `width` bits. -/
def unpackBits (width : Nat) : Nat → Nat → List Nat
  | 0, _ => []
  | n + 1, v => v % 2 ^ width :: unpackBits width n (v / 2 ^ width)

/-- Elements of sixteen tile words. -/
def elemsOf (pl : Plane) (ws : List Nat) : List Nat := unpackBits (8 * pl.bytes) pl.count (packBits 128 ws)

/-- Data words that a reader fetches for an entry (R139, R140). -/
def fetchCount (pl : Plane) (entry : Nat) : Nat :=
  let mode := entry / 2 ^ 62 % 4
  let words := entry / 2 ^ 57 % 32
  if words = 0 then 0
  else if mode = 0 then 16 else if mode = 1 then words else if mode = 2 then (if pl.bytes = 8 then 1 else 0) else 0

/-- Decode an entry with its data words: the elements, or none for a malformed entry (R139 to R143, R145). -/
def decode (pl : Plane) (entry : Nat) (ws : List Nat) : Option (List Nat) :=
  let mode := entry / 2 ^ 62 % 4
  let words := entry / 2 ^ 57 % 32
  let rsvd := entry / 2 ^ 32 % 2 ^ 25
  let const := entry % 2 ^ 32
  let n := pl.count
  if words = 0 then some (List.replicate n 0)
  else if rsvd ≠ 0 then none
  else if mode = 3 then some (List.replicate n 0)
  else if mode = 2 then
    if pl.bytes = 8 then (if const = 0 then some (List.replicate n (ws.headD 0 % 2 ^ 64)) else none)
    else if 2 ^ (8 * pl.bytes) ≤ const then none
    else some (List.replicate n const)
  else if mode = 0 then (if words = 16 then some (elemsOf pl ws) else none)
  else
    let hdr := ws.headD 0
    let bases := unpackBits 16 4 hdr
    let widths := unpackBits 5 4 (hdr / 2 ^ 64)
    let okay := (List.range 4).all fun c =>
      match pl.chans[c]? with
      | some ch => decide (bases.getD c 0 < 2 ^ ch.2) && decide (widths.getD c 0 ≤ ch.2)
      | none => bases.getD c 0 == 0 && widths.getD c 0 == 0
    let s := widths.sum
    if hdr / 2 ^ 84 ≠ 0 ∨ !okay ∨ words = 16 ∨ words ≠ 1 + (n * s + 127) / 128 then none
    else
      let bits := packBits 128 (ws.drop 1)
      some ((unpackBits s n bits).map fun r =>
        ((pl.chans.zip (bases.zip widths)).foldl
          (fun (acc : Nat × Nat) (x : (Nat × Nat) × Nat × Nat) =>
            (acc.1 + (x.2.1 + r / 2 ^ acc.2 % 2 ^ x.2.2) % 2 ^ x.1.2 * 2 ^ x.1.1, acc.2 + x.2.2)) (0, 0)).1)

end Sys2Proof.Machine.Seedbed
end

