-- ==== Sys2Proof/Machine/Compose.lean ====
section
/-! DEFINITION. The composition arithmetic, to the bit: expansion, scaling, matrices, tables, premultiplication,
blending, keep-out, covered layers, groundsheets and the output stages (R159 to R181). Everything here is computed from a
view of the registers: the latched copy of a frame, or the armed copy of a commit. -/

namespace Sys2Proof.Machine.Compose

/-! ## Fixed-point helpers (R166 to R168) -/

/-- A working pixel: three components and alpha, each 0 to 65535 (R159). -/
structure Pix where
  c0 : Nat
  c1 : Nat
  c2 : Nat
  a : Nat
  deriving DecidableEq, Repr

/-- Apply a function to the three colour components. -/
def Pix.map (p : Pix) (f : Nat → Nat) : Pix := ⟨f p.c0, f p.c1, f p.c2, p.a⟩

/-- x / 65535 rounded to nearest, halves up (R166). -/
def div65535 (x : Nat) : Nat := (x + 32768 + (x + 32768) / 65536) / 65536

/-- Clamp an integer to 0 to 65535. -/
def clamp16 (v : Int) : Nat := (clamp 0 65535 v).toNat

/-- One row of a matrix: coefficients in s3.12, offset in s1.16 (R167). -/
def matrixRow (c0 c1 c2 o : Int) (p : Pix) : Nat :=
  clamp16 ((c0 * p.c0 + c1 * p.c1 + c2 * p.c2 + 2048) / 4096 + o)

/-- A table of 1,024 entries with linear interpolation (R168). -/
def lut (entry : Nat → Nat) (x : Nat) : Nat :=
  let p := x * 1023
  let i := p / 65535
  let f := p - i * 65535
  if i = 1023 then entry 1023 else div65535 (entry i * (65535 - f) + entry (i + 1) * f)

/-! ## Expansion (R161, R162) -/

/-- A colour word in ARGB8888. -/
def argb (w : Nat) : Pix :=
  ⟨bits 23 16 w * 257, bits 15 8 w * 257, bits 7 0 w * 257, bits 31 24 w * 257⟩

/-- A 10-bit component. -/
def expand10 (c : Nat) : Nat := c * 64 + c / 16

/-- A pixel of an RGB format. -/
def expandRgb (format e : Nat) : Pix :=
  if format = 0x03 then
    ⟨expand10 (bits 29 20 e), expand10 (bits 19 10 e), expand10 (bits 9 0 e), bits 31 30 e * 21845⟩
  else if format = 0x04 then ⟨bits 47 32 e, bits 31 16 e, bits 15 0 e, bits 63 48 e⟩
  else if format = 0x02 then { argb e with a := 65535 }
  else argb e

/-- A pixel of NV12 from its luma sample and its chroma pair. -/
def expandNv12 (y uv : Nat) : Pix := ⟨y * 257, uv % 256 * 257, uv / 256 % 256 * 257, 65535⟩

/-! ## The slot as a view shows it -/

/-- The values of one layer slot that composition uses. -/
structure Slot where
  n : Nat
  k : Nat
  en : Bool
  mode : Nat
  isOpaque : Bool
  solid : Bool
  imtx : Bool
  degamma : Bool
  gmtx : Bool
  gsImage : Bool
  buf : Nat
  format : Nat
  seedbed : Bool
  w : Nat
  h : Nat
  cx : Nat
  cy : Nat
  cw : Nat
  ch : Nat
  dx : Int
  dy : Int
  dw : Nat
  dh : Nat
  pa : Nat
  color : Nat
  gsColor : Nat
  gsBuf : Nat
  gsW : Nat
  gsH : Nat
  crit : Nat
  fn : Nat
  world : Bool
  deriving DecidableEq, Repr

/-- Read a slot from a view. -/
def slotOf (v : State) (n k : Nat) : Slot :=
  let f := fun (x : Fld) => v.fld (.slot n k) x
  let b := fun (x : Fld) => v.flag (.slot n k) x
  { n := n, k := k, en := b F.PG_CTRL_ENABLE, mode := f F.SLOT_CTRL_MODE, isOpaque := b F.SLOT_CTRL_OPAQUE
    solid := b F.SLOT_CTRL_SRC_SEL, imtx := b F.SLOT_CTRL_IMTX_EN, degamma := b F.SLOT_CTRL_DEGAMMA_EN
    gmtx := b F.SLOT_CTRL_GMTX_EN, gsImage := b F.SLOT_CTRL_GS_IMAGE, buf := f F.SLOT_BUF_BUFFER
    format := f F.SLOT_FMT_FORMAT, seedbed := b F.SLOT_FMT_SEEDBED
    w := f F.SLOT_SURF_WIDTH, h := f F.SLOT_SURF_HEIGHT, cx := f F.SLOT_CROP_POS_X, cy := f F.SLOT_CROP_POS_Y
    cw := f F.SLOT_CROP_SIZE_W, ch := f F.SLOT_CROP_SIZE_H
    dx := signed 16 (f F.SLOT_POS_X), dy := signed 16 (f F.SLOT_POS_Y), dw := f F.SLOT_SIZE_W, dh := f F.SLOT_SIZE_H
    pa := f F.SLOT_ALPHA_PLANE_ALPHA, color := f F.SLOT_COLOR_COLOR, gsColor := f F.SLOT_GS_COLOR_COLOR
    gsBuf := f F.SLOT_GS_BUF_BUFFER, gsW := f F.SLOT_GS_SIZE_GS_W, gsH := f F.SLOT_GS_SIZE_GS_H
    crit := f F.OWNER_CRIT, fn := f F.OWNER_FUNCTION, world := b F.OWNER_WORLD }

/-- All four sizes are nonzero (R163). -/
def Slot.sized (sl : Slot) : Bool := sl.cw != 0 && sl.ch != 0 && sl.dw != 0 && sl.dh != 0

/-- The slot reads a buffer (R164). -/
def Slot.reads (sl : Slot) : Bool := !sl.solid && sl.buf != 0

/-- The slot needs a scaler (R164). -/
def Slot.scaled (sl : Slot) : Bool := sl.reads && sl.sized && (sl.dw != sl.cw || sl.dh != sl.ch)

/-- The slots that the four scalers serve, in scaler order (R164). -/
def scalerSlots (slots : List Slot) : List Nat := ((slots.filter fun sl => sl.en && sl.scaled).map Slot.k).take 4

/-- A coefficient of a scaler table in s1.14: scaler, direction, phase, tap (R165, R185). -/
def coef (v : State) (n scaler dir phase tap : Nat) : Int :=
  let w := v.rw (bankKey ((Page.pipe n).key F.PIPE_SCL_DATA_TAP_EVEN.off) (scaler * 256 + dir * 128 + phase * 2 + tap / 2))
  signed 16 (if tap % 2 = 0 then w % 65536 else w / 65536)

/-- Degamma and regamma tables. -/
def slotLut (v : State) (n k i : Nat) : Nat :=
  bits 15 0 (v.rw (bankKey ((Page.slot n k).key F.SLOT_LUT_DATA_ENTRY.off) i))

def pipeLut (v : State) (n chan i : Nat) : Nat :=
  bits 15 0 (v.rw (bankKey ((Page.pipe n).key F.PIPE_LUT_DATA_ENTRY.off) (chan * 1024 + i)))

/-- A matrix of eight words at an offset of a page (R186). -/
def matrix (v : State) (pg : Page) (o : Nat) (p : Pix) : Pix :=
  let c := fun (w hi : Nat) => signed 16 (if hi = 0 then v.rw (pg.key (o + 4 * w)) % 65536 else v.rw (pg.key (o + 4 * w)) / 65536)
  let off := fun (i : Nat) => signed 18 (v.rw (pg.key (o + 4 * (5 + i))) % 2 ^ 18)
  { c0 := matrixRow (c 0 0) (c 0 1) (c 1 0) (off 0) p
    c1 := matrixRow (c 1 1) (c 2 0) (c 2 1) (off 1) p
    c2 := matrixRow (c 3 0) (c 3 1) (c 4 0) (off 2) p
    a := p.a }

/-! ## Surface pixels -/

/-- A tile of the furrow store by plane, tile row and tile column; none when it is missing or cannot be read. -/
abbrev Fetch := Nat → Nat → Nat → Option (List Nat)

/-- Element (x, y) of a plane. -/
def element (fetch : Fetch) (p : Nat) (pl : Seedbed.Plane) (x y : Nat) : Option Nat :=
  (fetch p (y / pl.tileH) (x / pl.tileW)).map fun es => es.getD (y % pl.tileH * pl.tileW + x % pl.tileW) 0

/-- A surface pixel, expanded (R161, R162). -/
def surfacePix (sl : Slot) (fetch : Fetch) (x y : Nat) : Option Pix :=
  match Seedbed.planes sl.format with
  | some [pl] => (element fetch 0 pl x y).map (expandRgb sl.format)
  | some [p0, p1] =>
    match element fetch 0 p0 x y, element fetch 1 p1 (x / 2) (y / 2) with
    | some ly, some uv => some (expandNv12 ly uv)
    | _, _ => none
  | _ => none

/-- The taps of a scaled direction: for local position i, the four source positions and the phase (R165). -/
def taps (src dst i : Nat) : List Nat × Nat :=
  let step := src * 65536 / dst
  let pos : Int := (i * step + step / 2 : Nat) - 32768
  let base := pos / 65536
  let phase := ((pos / 1024) % 64).toNat
  ((List.range 4).map fun (k : Nat) => (clamp 0 ((src : Int) - 1) (base - 1 + (k : Int))).toNat, phase)

/-- One filtered component (R165). -/
def filter4 (cs : List Int) (xs : List Nat) : Nat :=
  clamp16 (((cs.zip xs).foldl (fun acc p => acc + p.1 * (p.2 : Int)) 0 + 8192) / 16384)

/-- Filter four pixels, each component alone. -/
def filterPix (cs : List Int) (ps : List Pix) : Pix :=
  ⟨filter4 cs (ps.map Pix.c0), filter4 cs (ps.map Pix.c1), filter4 cs (ps.map Pix.c2), filter4 cs (ps.map Pix.a)⟩

/-- All of a list of options, or none. -/
def allSome {α : Type} : List (Option α) → Option (List α)
  | [] => some []
  | none :: _ => none
  | some a :: r => (allSome r).map (a :: ·)

/-- The horizontal pass for local column i on surface row y. -/
def rowPix (v : State) (sl : Slot) (scaler : Nat) (fetch : Fetch) (i y : Nat) : Option Pix :=
  if sl.dw = sl.cw then surfacePix sl fetch (sl.cx + i) y
  else
    let (cols, phase) := taps sl.cw sl.dw i
    (allSome (cols.map fun c => surfacePix sl fetch (sl.cx + c) y)).map
      (filterPix ((List.range 4).map fun k => coef v sl.n scaler 0 phase k))

/-- Stages 1 to 3 at local coordinates (i, j), without OPAQUE. -/
def contentPix (v : State) (sl : Slot) (scaler : Nat) (fetch : Fetch) (i j : Nat) : Option Pix :=
  if sl.dh = sl.ch then rowPix v sl scaler fetch i (sl.cy + j)
  else
    let (rows, phase) := taps sl.ch sl.dh j
    (allSome (rows.map fun r => rowPix v sl scaler fetch i (sl.cy + r))).map
      (filterPix ((List.range 4).map fun k => coef v sl.n scaler 1 phase k))

/-- The surface rows that local row j reads. -/
def rowsOf (sl : Slot) (j : Nat) : List Nat :=
  (if sl.dh = sl.ch then [j] else (taps sl.ch sl.dh j).1.eraseDups).map (· + sl.cy)

/-- The surface columns that local column i reads. -/
def colsOf (sl : Slot) (i : Nat) : List Nat :=
  (if sl.dw = sl.cw then [i] else (taps sl.cw sl.dw i).1.eraseDups).map (· + sl.cx)

/-- A pixel of the groundsheet: the constant colour, or the C8 image looked up in the palette; the second part says that an
element could not be read (R178, R179). -/
def sheetPix (v : State) (sl : Slot) (image : Option (List (Option Nat))) (badImage : Bool) (i j : Nat) : Pix × Bool :=
  if !sl.gsImage then (argb sl.gsColor, false)
  else if badImage then (argb sl.gsColor, true)
  else
    match image.bind fun es => (es.getD (j % sl.gsH * sl.gsW + i % sl.gsW) none) with
    | some idx => (argb (v.fld (.slot sl.n sl.k) F.SLOT_PAL_COLOR [idx]), false)
    | none => (argb sl.gsColor, true)

/-! ## Stages 4 to 8 -/

/-- Stages 4 to 6; content that enters at stage 5 skips the input matrix. -/
def chain (v : State) (sl : Slot) (atStage5 : Bool) (p : Pix) : Pix :=
  let p0 := if sl.isOpaque then { p with a := 65535 } else p
  let p1 := if sl.imtx && !atStage5 then matrix v (.slot sl.n sl.k) 0x080 p0 else p0
  let p2 := if sl.degamma then p1.map (lut (slotLut v sl.n sl.k)) else p1
  if sl.gmtx then matrix v (.slot sl.n sl.k) 0x0A0 p2 else p2

/-- Stage 7: the premultiplied source (R169). -/
def premult (mode pa : Nat) (p : Pix) : Pix :=
  let a := div65535 (p.a * pa)
  { p.map (fun c => div65535 (c * (if mode = 1 then a else pa))) with a := a }

/-- One component of stage 8 (R170). -/
def blend1 (mode pa p d : Nat) : Nat :=
  if mode = 2 then p
  else if mode = 3 then min 65535 (d + p)
  else min 65535 (p + div65535 (d * (65535 - pa)))

/-- Stage 8 (R170). -/
def blend (mode : Nat) (p d : Pix) : Pix :=
  ⟨blend1 mode p.a p.c0 d.c0, blend1 mode p.a p.c1 d.c1, blend1 mode p.a p.c2 d.c2, blend1 mode p.a p.a d.a⟩

/-! ## Keep-out (R173, R174) -/

/-- An active keep-out region. -/
structure Keepout where
  x : Nat
  y : Nat
  w : Nat
  h : Nat
  level : Nat
  deriving DecidableEq, Repr

/-- Region j as a view shows it: enabled with nonzero sizes, and its level. -/
def keepout (v : State) (n j : Nat) : Option Keepout :=
  let f := fun (x : Fld) => v.fld (.pipe n) x [j]
  if f F.KO_CTRL_EN = 1 ∧ f F.KO_SIZE_W ≠ 0 ∧ f F.KO_SIZE_H ≠ 0 then
    some ⟨f F.KO_POS_X, f F.KO_POS_Y, f F.KO_SIZE_W, f F.KO_SIZE_H, v.fld (.slot n (f F.KO_CTRL_SLOT)) F.OWNER_CRIT⟩
  else none

/-- The active regions of a view. -/
def keepouts (v : State) (n : Nat) : List Keepout :=
  (List.range 16).filterMap fun j => (keepout v n j).filter fun r => decide (2 ≤ r.level)

/-- The regions that are enabled and sized, whose slot is below CL2 (R173). -/
def deniedKeepouts (v : State) (n : Nat) : List Nat :=
  (List.range 16).filter fun j => match keepout v n j with | some r => decide (r.level < 2) | none => false

def Keepout.has (r : Keepout) (x y : Nat) : Bool :=
  decide (r.x ≤ x) && decide (x < r.x + r.w) && decide (r.y ≤ y) && decide (y < r.y + r.h)

/-- The keep-out level of a pixel, 0 for none (R174). -/
def koLevel (kos : List Keepout) (x y : Nat) : Nat := ((kos.filter fun r => r.has x y).map Keepout.level).foldl max 0

/-! ## Spans and covered layers (R175 to R177) -/

/-- First and last-plus-one column of span s. -/
def spanCols (hActive s : Nat) : Nat × Nat := (128 * s, min hActive (128 * s + 128))

/-- Number of spans of a line. -/
def spanCount (hActive : Nat) : Nat := (hActive + 127) / 128

/-- The columns of a span that the slot's rectangle contains on line y. -/
def slotCols (sl : Slot) (c : Nat × Nat) (y : Nat) : List Nat :=
  if sl.dy ≤ y ∧ (y : Int) < sl.dy + sl.dh then
    ((List.range (c.2 - c.1)).map (· + c.1)).filter fun (x : Nat) => decide (sl.dx ≤ x) && decide ((x : Int) < sl.dx + sl.dw)
  else []

/-- Whether the slot contributes in a span unless it is covered (R175). -/
def candidate (kos : List Keepout) (c : Nat × Nat) (y : Nat) (sl : Slot) : Bool :=
  sl.en && sl.sized && (slotCols sl c y).any fun x => decide (koLevel kos x y ≤ sl.crit)

/-- Whether a contributing slot covers the slots below it in a span (R176). -/
def covers (kos : List Keepout) (c : Nat × Nat) (y : Nat) (sl : Slot) : Bool :=
  (slotCols sl c y).length == c.2 - c.1
    && !(kos.any fun r => decide (sl.crit < r.level) && decide (r.x < c.2) && decide (c.1 < r.x + r.w) && decide (r.y ≤ y)
          && decide (y < r.y + r.h))
    && (sl.mode == 2 || (decide (sl.mode ≤ 1) && sl.isOpaque && sl.pa == 0xFFFF))

/-- Contributors in ascending slot number, and the covered slots, from the slots in descending order. -/
def contributorsFrom (kos : List Keepout) (c : Nat × Nat) (y : Nat) : List Slot → Bool → List Slot × List Slot
  | [], _ => ([], [])
  | sl :: r, hidden =>
    if candidate kos c y sl then
      if hidden then
        let (a, b) := contributorsFrom kos c y r true
        (a, sl :: b)
      else
        let (a, b) := contributorsFrom kos c y r (covers kos c y sl)
        (a ++ [sl], b)
    else contributorsFrom kos c y r hidden

/-- The contributors of a span on a line, lowest first, and the slots eliminated as covered. -/
def contributors (kos : List Keepout) (slots : List Slot) (c : Nat × Nat) (y : Nat) : List Slot × List Slot :=
  contributorsFrom kos c y slots.reverse false

/-- Pipe clocks of a span (R177). -/
def spanClocks (c : Nat × Nat) (count : Nat) : Nat := (if 8 < count then 2 else 1) * ((c.2 - c.1 + 1) / 2)

/-- The class of a span: the highest class among its contributors (R229). -/
def spanClass (cs : List Slot) : Nat := (cs.map Slot.crit).foldl max 0

/-! ## Output stages (R180, R181) -/

/-- The output groundsheet (R180). -/
def background (v : State) (n : Nat) : Pix :=
  ⟨v.fld (.pipe n) F.PIPE_BG_RG_BG_R, v.fld (.pipe n) F.PIPE_BG_RG_BG_G, v.fld (.pipe n) F.PIPE_BG_B_BG_B, 65535⟩

/-- Stages 9 to 11 (R181). -/
def outStages (v : State) (n : Nat) (d : Pix) (tag : Nat) : OutPix :=
  let p1 : Pix :=
    if v.flag (.pipe n) F.PIPE_CTRL_REGAMMA_EN then
      ⟨lut (pipeLut v n 0) d.c0, lut (pipeLut v n 1) d.c1, lut (pipeLut v n 2) d.c2, d.a⟩
    else d
  let p2 := if v.flag (.pipe n) F.PIPE_CTRL_OMTX_EN then matrix v (.pipe n) 0x080 p1 else p1
  let top := if v.flag (.pipe n) F.PIPE_CTRL_DEPTH8 then 255 else 1023
  ⟨div65535 (p2.c0 * top), div65535 (p2.c1 * top), div65535 (p2.c2 * top), tag⟩

/-! ## Checks of a slot (R183, R184) -/

/-- The layout size of the slot's surface, for a format that has planes (R137). -/
def Slot.layoutSize (sl : Slot) : Nat := Seedbed.layoutSize sl.format sl.w sl.h sl.seedbed

/-- Step 5: the direction that breaks the range of R164. -/
def Slot.scaleFault (sl : Slot) : Option Nat :=
  if 4 * sl.dw < sl.cw ∨ 8 * sl.cw < sl.dw then some 0
  else if 4 * sl.dh < sl.ch ∨ 8 * sl.ch < sl.dh then some 1
  else none

/-- Steps 2 to 8 of R183 for a slot; `fifth` says that the slot is past the fourth scaler. The code and ERR_INFO. -/
def Slot.check (sl : Slot) (plots gsPlots : Nat) (fifth : Bool) : Option (Nat × Nat) :=
  let k := sl.k
  let reads := sl.reads
  if !sl.solid && !sl.sized then none
  else if reads && !(decide (1 ≤ sl.format) && decide (sl.format ≤ 5)) then some (0x0701, k)
  else if (reads && (decide (sl.w < sl.cx + sl.cw) || decide (sl.h < sl.cy + sl.ch)
        || (sl.format == 5 && (sl.cx % 2 == 1 || sl.cy % 2 == 1))))
      || decide (sl.dx < -8192) || decide (8191 < sl.dx) || decide (sl.dy < -8192) || decide (8191 < sl.dy)
      || decide (8192 < sl.dw) || decide (8192 < sl.dh) then some (0x0006, k)
  else if reads && (decide (8192 < sl.w) || decide (8192 < sl.h) || decide (plots * 65536 < sl.layoutSize)) then some (0x0703, k)
  else
    match (if reads then sl.scaleFault else none) with
    | some d => some (0x0801, k + d * 2 ^ 9)
    | none =>
      if reads && fifth then some (0x0802, k)
      else if sl.gsImage && (sl.gsW == 0 || sl.gsH == 0) then some (0x0002, k)
      else if sl.gsImage && (decide (256 < sl.gsW) || decide (256 < sl.gsH)
          || decide (gsPlots * 65536 < Seedbed.layoutSize 6 sl.gsW sl.gsH false)) then some (0x0006, k)
      else none

/-- Whether the code of a failing slot concerns its groundsheet image (steps 7 and 8). -/
def Slot.badImage (sl : Slot) (gsPlots : Nat) : Bool :=
  sl.gsImage && (sl.gsW == 0 || sl.gsH == 0 || decide (256 < sl.gsW) || decide (256 < sl.gsH)
    || decide (gsPlots * 65536 < Seedbed.layoutSize 6 sl.gsW sl.gsH false))

end Sys2Proof.Machine.Compose
end

