-- ==== Sys2Proof/Machine/Furrow.lean ====
section
/-! DEFINITION. Outputs and their views, timing, the furrow-store granules and the CL3 reserve, and the fences of layer
slots (R80, R211 to R213, R225 to R229). -/

namespace Sys2Proof.Machine

/-- An output that has never run. -/
def idleDisp : Disp where
  running := false
  starting := false
  stopping := false
  again := false
  line := 0
  fresh := false
  guard := 0
  genlock := 0
  added := 0
  adjust := 0
  correct := 0
  proceeded := false
  lead := 0
  frame := []
  released := []
  failing := []
  handed := []
  tiles := []
  spoiled := []
  arrived := []
  sheets := []
  newSheets := []
  lines := []
  composeEnd := 0
  shed := []
  shedSeen := []
  slack := []
  twoPass := 0
  eliminated := 0
  subst := []
  live := []
  shedSpans := 0
  underruns := 0
  drops := 0
  shedMax := none
  creditMin := none
  gsFallback := []
  failedBefore := []
  regions := []
  regionsDone := []
  results := []
  goodPhase := 0
  trim := 0
  missed := false
  applied := false
  changed := false
  doneMark := 0
  resumed := false

/-- Timing of an output (R211, R212). -/
structure Timing where
  ha : Nat
  hfp : Nat
  hsync : Nat
  hbp : Nat
  va : Nat
  vfp : Nat
  vsync : Nat
  vbp : Nat
  khz : Nat
  vrr : Bool
  vmax : Nat
  deriving DecidableEq, Repr

def Timing.ht (t : Timing) : Nat := t.ha + t.hfp + t.hsync + t.hbp

def Timing.vt (t : Timing) : Nat := t.va + t.vfp + t.vsync + t.vbp

/-- Headland lines. -/
def Timing.headland (t : Timing) : Nat := t.vt - t.va

/-- Pipe clocks of a line. -/
def Timing.clocks (t : Timing) : Nat := t.ht / 2

/-- Guard lines of R192, for a single device or for one of a pair. -/
def Timing.guard (t : Timing) (pair : Bool) : Nat :=
  if pair then max 4 ((20 * t.khz + t.ht * 1000 - 1) / (t.ht * 1000)) else 4

/-- Whether a total number of lines breaks the refresh limits of 23.0 and 144.5 Hz (R212). -/
def Timing.badRate (t : Timing) (lines : Nat) : Bool :=
  decide (t.khz * 10000 < 230 * t.ht * lines) || decide (1445 * t.ht * lines < t.khz * 10000)

/-- The offset of the first register that breaks R212 or R224; a limit on a derived quantity stands at the lowest register
that takes part in it. -/
def Timing.fault (t : Timing) (pair : Bool) : Option Nat :=
  let hv := fun (x : Nat) => decide (x < 2) || decide (8190 < x) || x % 2 == 1
  let vv := fun (x : Nat) => decide (x < 1) || decide (8190 < x)
  let checks : List (Nat × Bool) :=
    [(0x040, decide (t.ha < 64) || decide (7680 < t.ha) || t.ha % 2 == 1 || hv t.hfp
        || decide (16384 < t.ht) || decide (t.ht < t.ha + 64)),
     (0x044, hv t.hsync || hv t.hbp),
     (0x048, decide (t.va < 64) || decide (2160 < t.va) || vv t.vfp || decide (8191 < t.vt) || decide (t.headland < 8)
        || decide (t.headland * t.ht * 1000 < 40 * t.khz) || decide (t.va / 2 < t.guard pair)),
     (0x04C, vv t.vsync || vv t.vbp),
     (0x050, decide (t.khz < 25000) || decide (1500000 < t.khz) || t.badRate t.vt),
     (0x054, t.vrr && (decide (t.vmax < t.vt) || decide (8191 < t.vmax) || t.badRate t.vmax))]
  (checks.find? Prod.snd).map Prod.fst

/-- Active pixel rate (R213). -/
def Timing.pixelRate (t : Timing) : Nat := t.khz * 1000 * t.ha * t.va / (t.ht * t.vt)

def Grant.total (g : Grant) : Nat := g.ring + g.sheet

/-! ## Furrows of a slot -/

/-- The planes of a slot's format with their numbers. -/
def slotPlanes (sl : Compose.Slot) : List (Nat × Seedbed.Plane) :=
  ((Seedbed.planes sl.format).getD []).zipIdx.map fun p => (p.2, p.1)

/-- Tile rows and columns of a plane for surface rows and columns. -/
def planeRow (sl : Compose.Slot) (p : Nat) (pl : Seedbed.Plane) (r : Nat) : Nat :=
  (if sl.format = 5 ∧ p = 1 then r / 2 else r) / pl.tileH

def planeCol (sl : Compose.Slot) (p : Nat) (pl : Seedbed.Plane) (c : Nat) : Nat :=
  (if sl.format = 5 ∧ p = 1 then c / 2 else c) / pl.tileW

/-- The furrows that a slot reads on output line y, in order of plane. -/
def furrowsOn (sl : Compose.Slot) (y : Nat) : List (Nat × Nat) :=
  if sl.dy ≤ y ∧ (y : Int) < sl.dy + sl.dh then
    (slotPlanes sl).flatMap fun p =>
      (((Compose.rowsOf sl ((y : Int) - sl.dy).toNat).map (planeRow sl p.1 p.2)).eraseDups).map fun r => (p.1, r)
  else []

namespace State

/-- An output. -/
def disp (s : State) (n : Nat) : Disp := (Sparse.find s.display.disps n).getD idleDisp

def setDisp (s : State) (n : Nat) (d : Disp) : State :=
  { s with display := { s.display with disps := Sparse.put s.display.disps n d } }

/-- The timing that a reading of the SCN fields gives. -/
def timingOf (get : Page → Fld → Nat) (n : Nat) : Timing :=
  let f := get (.scn n)
  ⟨f F.SCN_H0_ACTIVE, f F.SCN_H0_FP, f F.SCN_H1_SYNC, f F.SCN_H1_BP, f F.SCN_V0_ACTIVE, f F.SCN_V0_FP, f F.SCN_V1_SYNC,
    f F.SCN_V1_BP, f F.SCN_PCLK_KHZ, f F.SCN_MODE_VRR_EN == 1, f F.SCN_MODE_VTOTAL_MAX⟩

/-- Active timing and shadow timing. -/
def timing (s : State) (n : Nat) : Timing := timingOf (fun pg f => s.fld pg f) n

def shadowTiming (s : State) (n : Nat) : Timing := timingOf (fun pg f => s.sfld pg f) n

/-- The device is one of a pair: PLK is enabled. -/
def paired (s : State) : Bool := s.flag .plk F.PG_CTRL_ENABLE && s.power.state != .holdup

/-- The rules for a pair apply: a device in SOLO is a single device (R375, R376). -/
def pairForm (s : State) : Bool := s.paired && s.pair.state != .solo

/-- Whether a register key belongs to a page of output n (R188). -/
def outputKey (n k : Nat) : Bool :=
  let a := if k < 0x1_0000_0000 then k else (k - 0x1_0000_0000) / 0x100000
  (decide ((Page.pipe n).base ≤ a) && decide (a < (Page.pipe n).base + 0x20000))
    || (decide ((Page.scn n).base ≤ a) && decide (a < (Page.scn n).base + 0x1000))

/-- The words of output n as they stand (R160). -/
def outputWords (s : State) (n : Nat) : Store Word32 := s.regs.filter fun p => outputKey n p.1

/-- The view that composition of output n uses: the latched copy. -/
def frameView (s : State) (n : Nat) : State := { s with regs := (s.disp n).frame }

/-- The view of a commit: active values with the changed words of its armed copy. -/
def armedView (s : State) (entries : List (Nat × Nat)) : State := entries.foldl (fun t e => t.setRw e.1 e.2) s

/-- The slots of output n in a view. -/
def slots (v : State) (n : Nat) : List Compose.Slot := (List.range 16).map (Compose.slotOf v n)

/-! ## Granules (R225) -/

/-- Tile width of plane 0, and store rows of a furrow unit. -/
def unitRows (format : Nat) : Nat := if format = 0x05 then 32 else 8

def tile0Width (format : Nat) : Nat := if format = 0x04 then 4 else if format = 0x05 then 16 else 8

/-- Bytes of one furrow of any plane (R225). -/
def furrowBytes (sl : Compose.Slot) : Nat :=
  let tw := tile0Width sl.format
  let tc := (sl.cx + sl.cw - 1) / tw - sl.cx / tw + 1
  256 * tc + (if sl.seedbed then (8 * tc + 255) / 256 * 256 else 0)

/-- Bytes of one furrow unit (R225): for NV12 two furrows of plane 0 and one of plane 1. -/
def unitBytes (sl : Compose.Slot) : Nat := if sl.format = 0x05 then 3 * furrowBytes sl else furrowBytes sl

/-- Units of the ring of a slot (R225). -/
def ringUnits (sl : Compose.Slot) : Nat := max 2 (32 * ((sl.ch + sl.dh - 1) / sl.dh) / unitRows sl.format)

/-- Granules of the ring of a slot (R225). -/
def ringGranules (sl : Compose.Slot) : Nat :=
  if !sl.solid && sl.sized && sl.buf != 0 then (ringUnits sl * unitBytes sl + 65535) / 65536 else 0

/-- What a slot holds in a view, and the values that decide whether a commit changes it. -/
def grantOf (sl : Compose.Slot) : Grant where
  ring := ringGranules sl
  sheet := b2n (sl.gsImage && sl.gsBuf != 0)
  crit := sl.crit
  key := [sl.cx, sl.cy, sl.cw, sl.ch, sl.dw, sl.dh, sl.format, b2n sl.seedbed, b2n sl.solid, b2n sl.gsImage, sl.crit,
    b2n (sl.buf != 0), b2n (sl.gsBuf != 0)]

/-- The granules that a slot holds. -/
def heldGrant (s : State) (i : Nat) : Grant := (Sparse.find s.display.grants i).getD ⟨0, 0, 0, []⟩

/-- A slot's grants once every commit that applies has latched. -/
def nextGrant (s : State) (i : Nat) : Grant := (Sparse.find s.display.newGrants i).getD (s.heldGrant i)

/-- Reserve that applying commits raise on an output: granules and bandwidth (R229). -/
def raised (s : State) (n : Nat) : Nat × Nat := (Sparse.find s.display.reserves n).getD (0, 0)

/-- Reserved granules of an output: the larger of the value in force and one that an applying commit raises (R229). -/
def reserved (s : State) (n : Nat) : Nat := max (s.fld (.scn n) F.SCN_CL3_RESERVE_GRANULES) (s.raised n).1

/-- Reserved bandwidth of an output, in the same way. -/
def reservedBw (s : State) (n : Nat) : Nat := max (s.fld (.scn n) F.SCN_CL3_RESERVE_BW) (s.raised n).2

/-- Granules held by slots of one kind on output n, old and new together. -/
def granules (s : State) (n : Nat) (cl3 : Bool) : Nat :=
  let sum := fun (st : Store Grant) =>
    ((st.filter fun p => p.1 / 16 == n && (p.2.crit == 3) == cl3).map fun p => p.2.total).sum
  sum s.display.grants + sum s.display.newGrants

/-- SCN_FS_FREE (R225): granules of the whole store neither granted nor reserved. -/
def storeFree (s : State) : Nat := 640 - ((List.range 8).map fun n => s.granules n false + s.reserved n).sum

/-! ## The checks of R229 -/

/-- Demand of a CL3 slot in bytes per second (R228); the division of the rule truncates (R8). -/
def demand (t : Timing) (sl : Compose.Slot) : Nat :=
  unitBytes sl * sl.ch * t.khz * 1000 / (sl.dh * unitRows sl.format * t.ht)

/-- ERR_INFO of a failure of R229. -/
def reserveInfo (slot : Nat) (bw : Bool) (short : Nat) : Nat := slot + b2n bw * 16 + min short 0x3FF * 2 ^ 16

/-- The first slot of a list at which a running sum passes a limit. -/
def firstOver (limit : Nat) : List (Nat × Nat) → Nat → Option Nat
  | [], _ => none
  | (k, g) :: r, acc => if limit < acc + g then some k else firstOver limit r (acc + g)

/-- The CL3 slots of a view that hold a ring. -/
def cl3Slots (v : State) (n : Nat) : List Compose.Slot := (v.slots n).filter fun sl => sl.crit == 3 && decide (0 < ringGranules sl)

/-- Step 2 of R229 on one output: the sum of CL3 demand against BW. -/
def cl3Rate (v : State) (n : Nat) (t : Timing) : Option Nat :=
  (firstOver (v.fld (.scn n) F.SCN_CL3_RESERVE_BW * 100000000) ((v.cl3Slots n).map fun sl => (sl.k, demand t sl)) 0).map
    fun k => reserveInfo k true 0

/-- Step 3: the bytes of the furrows that line 0 reads against the headland; both sides times PCLK in kHz. -/
def cl3Line0 (v : State) (n : Nat) (t : Timing) : Option Nat :=
  let room := v.fld (.scn n) F.SCN_CL3_RESERVE_BW * 100 * (t.headland * t.ht * 1000 - 20 * t.khz)
  (firstOver room ((v.cl3Slots n).map fun sl => (sl.k, (furrowsOn sl 0).length * furrowBytes sl * t.khz)) 0).map
    fun k => reserveInfo k true 0

/-- Step 4: the clocks of the spans whose class is CL3 on each line, every slot page taken as enabled. -/
def cl3Clocks (v : State) (n : Nat) (t : Timing) : Option Nat :=
  let kos := Compose.keepouts v n
  let all := (v.slots n).map fun sl => { sl with en := true }
  let on := fun (y i : Nat) => (Compose.contributors kos all (Compose.spanCols t.ha i) y).1
  let spans := List.range (Compose.spanCount t.ha)
  let clocks := fun (y : Nat) => (spans.map fun i =>
    if Compose.spanClass (on y i) = 3 then Compose.spanClocks (Compose.spanCols t.ha i) (on y i).length else 0).sum
  ((List.range t.va).find? fun y => decide ((t.ht / 2 : Nat) - 256 < (clocks y : Int))).map fun y =>
    reserveInfo ((((spans.flatMap (on y)).find? fun sl => sl.crit == 3).map Compose.Slot.k).getD 0) false 0

/-- Steps 2 to 4 of R229 on one output with a timing; the ERR_INFO of the failure. -/
def cl3Check (v : State) (n : Nat) (t : Timing) : Option Nat := (v.cl3Rate n t <|> v.cl3Line0 n t) <|> v.cl3Clocks n t

/-- The timing that steps 2 to 4 of R229 use; none when a stopped output's shadows break R212. -/
def checkTiming (s : State) (n : Nat) : Option Timing :=
  if (s.disp n).running then some (s.timing n)
  else if ((s.shadowTiming n).fault s.pairForm).isNone then some (s.shadowTiming n) else none

/-- The bandwidth limit of R228 in units of 100 MB/s. -/
def reserveLimit (s : State) : Nat := if s.part = .sx8400 then 160 else 80

/-- What step 7 of R196 weighs (R209, R229): the outputs of the group, the view of the new state, and the slots that the page set holds. -/
structure Weigh where
  outs : List Nat
  view : State
  inSet : Nat → Bool

namespace Weigh

/-- What slot i holds in the new state. -/
def new (w : Weigh) (i : Nat) : Grant := grantOf (Compose.slotOf w.view (i / 16) (i % 16))

/-- Slot i is a changed slot (R225). -/
def changed (w : Weigh) (s : State) (i : Nat) : Bool :=
  w.inSet i && w.outs.contains (i / 16) && (w.new i).key != (s.nextGrant i).key

/-- What slot i holds once the commit and those before it have latched. -/
def after (w : Weigh) (s : State) (i : Nat) : Grant := if w.changed s i then w.new i else s.nextGrant i

/-- Reserve of output n in the new state: granules and bandwidth. -/
def res (w : Weigh) (s : State) (n : Nat) : Nat :=
  if w.outs.contains n then w.view.fld (.scn n) F.SCN_CL3_RESERVE_GRANULES else s.reserved n

def bw (w : Weigh) (s : State) (n : Nat) : Nat :=
  if w.outs.contains n then w.view.fld (.scn n) F.SCN_CL3_RESERVE_BW else s.reservedBw n

/-- The slots of output n. -/
def ids (n : Nat) : List Nat := (List.range 16).map (· + 16 * n)

/-- The changed slots below CL3, or of CL3, that need granules. -/
def needs (w : Weigh) (s : State) (cl3 : Bool) : List Nat :=
  (List.range 128).filter fun i => w.changed s i && ((w.new i).crit == 3) == cl3 && decide (0 < (w.new i).total)

/-- Granules that the new state takes while the old one still holds its own, new grants below CL3 left out. -/
def oldAndReserved (w : Weigh) (s : State) : Nat :=
  ((List.range 8).map fun n => s.granules n false + max (s.reserved n) (w.res s n)).sum

/-- Bandwidth reserved while the old state still holds its own. -/
def bothBw (w : Weigh) (s : State) : Nat := ((List.range 8).map fun n => max (s.reservedBw n) (w.bw s n)).sum

/-- The new state does not fit beside the old one (R209). -/
def tight (w : Weigh) (s : State) : Bool :=
  decide (640 < w.oldAndReserved s + ((w.needs s false).map fun i => (w.new i).total).sum) || decide (s.reserveLimit < w.bothBw s)

/-- A CL3 slot of output n would need a handover: its own reserve does not hold its old and new granules, or the reserve that it
needs can only be raised once the old state's resources have gone (R209). -/
def handsCl3 (w : Weigh) (s : State) (n : Nat) : Bool :=
  let mine := (w.needs s true).filter fun i => i / 16 == n
  !mine.isEmpty
    && (decide (max (s.reserved n) (w.res s n) < s.granules n true + (mine.map fun i => (w.new i).total).sum)
      || (decide (s.reserved n < w.res s n) && decide (640 < w.oldAndReserved s))
      || (decide (s.reservedBw n < w.bw s n) && decide (s.reserveLimit < w.bothBw s)))

/-- The first failure of steps 1 to 4 of R229, each step over the outputs in order: output, code and ERR_INFO. -/
def cl3Fault (w : Weigh) (s : State) : Option (Nat × Nat × Nat) :=
  let mine := fun (n : Nat) => (ids n).map fun i => (i % 16, if (w.after s i).crit = 3 then (w.after s i).total else 0)
  let step : (Nat → Timing → Option Nat) → Option (Nat × Nat × Nat) := fun f =>
    w.outs.findSome? fun n => (s.checkTiming n).bind fun t => (f n t).map fun info => (n, 0x0904, info)
  (w.outs.findSome? fun n => (firstOver (w.res s n) (mine n) 0).map fun k =>
      (n, 0x0904, reserveInfo k false (((mine n).map Prod.snd).sum - w.res s n)))
    <|> step w.view.cl3Rate <|> step w.view.cl3Line0 <|> step w.view.cl3Clocks

/-- Steps 5 and 6 of R229. -/
def sumFault (w : Weigh) (s : State) : Option (Nat × Nat × Nat) :=
  let head := w.outs.head?.getD 0
  let final := ((List.range 128).map fun i => if (w.after s i).crit = 3 then 0 else (w.after s i).total).sum
    + ((List.range 8).map (w.res s)).sum
  let first := ((w.outs.flatMap ids).find? fun i => w.changed s i && decide (0 < (w.new i).total)).getD (head * 16)
  if s.reserveLimit < ((List.range 8).map (w.bw s)).sum then some (head, 0x0904, reserveInfo 0 true 0)
  else if 640 < final then some (first / 16, 0x0903, reserveInfo (first % 16) false (final - 640))
  else none

/-- The CL3 slot that a commit may not hand over (R209). -/
def handFault (w : Weigh) (s : State) : Option (Nat × Nat × Nat) :=
  (w.outs.find? (w.handsCl3 s)).map fun n =>
    (n, 0x0904, reserveInfo ((((w.needs s true).find? fun i => i / 16 == n).getD 0) % 16) false 0)

end Weigh

/-- Step 7 of R196: the failing output with code and ERR_INFO, or the slots in handover when the commit needs one (R209, R229). -/
def reserveCheck (s : State) (w : Weigh) : Except (Nat × Nat × Nat) (Option (List Nat)) :=
  match w.cl3Fault s <|> w.sumFault s <|> w.handFault s with
  | some e => .error e
  | none => .ok (if w.tight s then some (w.needs s false) else none)

/-- At the apply line the changed slots of a commit take their grants, and a raised reserve is granted (R199, R229). -/
def grantResources (s v : State) (outs : List Nat) (inSet : Nat → Bool) : State :=
  let new := fun (i : Nat) => grantOf (Compose.slotOf v (i / 16) (i % 16))
  let ch := (List.range 128).filter fun i => inSet i && outs.contains (i / 16) && (new i).key != (s.nextGrant i).key
  let ng := ch.foldl (fun st i => Sparse.put st i (new i)) s.display.newGrants
  let rs := outs.foldl (fun st n => Sparse.put st n
    (max (v.fld (.scn n) F.SCN_CL3_RESERVE_GRANULES) (s.raised n).1, max (v.fld (.scn n) F.SCN_CL3_RESERVE_BW) (s.raised n).2))
    s.display.reserves
  { s with display := { s.display with newGrants := ng, reserves := rs } }

/-- At the latch point superseded grants and a lowered reserve are released (R209, R229). -/
def settleStore (s : State) (n : Nat) : State :=
  let mine := s.display.newGrants.filter fun p => p.1 / 16 == n
  { s with display := { s.display with
      grants := mine.foldl (fun st p => Sparse.put st p.1 p.2) s.display.grants
      newGrants := s.display.newGrants.filter fun p => p.1 / 16 != n
      reserves := Sparse.del s.display.reserves n } }

/-- A slot page has been reset: what it holds now is what its reset values ask for, at the next latch point of a running output, at once
of a stopped one (R160, R225). -/
def resetGrant (s : State) (n k : Nat) : State :=
  let s1 := { s with display := { s.display with
    newGrants := Sparse.put s.display.newGrants (16 * n + k) (grantOf (Compose.slotOf s n k)) } }
  if (s.disp n).running then s1 else s1.settleStore n

/-! ## Fences of layer slots (R80) -/

/-- The words of a slot that name buffers in a view, with their handles. -/
def slotNames (v : State) (n k : Nat) : List (Nat × Nat) :=
  let sl := Compose.slotOf v n k
  (if !sl.solid && sl.buf != 0 then [((Page.slot n k).key F.SLOT_BUF_BUFFER.off, sl.buf)] else [])
    ++ (if sl.gsImage && sl.gsBuf != 0 then [((Page.slot n k).key F.SLOT_GS_BUF_BUFFER.off, sl.gsBuf)] else [])

/-- Take the fences of the buffers that a view newly names in the given slots. -/
def takeSlotFences (s v : State) (ids : List Nat) : State :=
  (ids.flatMap fun i => slotNames v (i / 16) (i % 16)).foldl (fun t p =>
    if t.display.fences.contains p then t
    else if (t.buf (p.2 % 65536)).isSome ∧ t.pool.bufs.gen (p.2 % 65536) = p.2 / 65536 then
      ({ t with display := { t.display with fences := t.display.fences ++ [p] } }).fence (p.2 % 65536)
    else t) s

/-- Release the fences of output n that neither its latched values nor an applying commit name (R191 step 2). -/
def settleFences (s : State) (n : Nat) : State :=
  let live := ((List.range 16).flatMap fun k => slotNames s n k)
    ++ (s.display.commits.filter fun c => c.stage == .applying && c.todo.contains n).flatMap fun c =>
        let v := s.armedView c.entries
        (List.range 16).flatMap fun k => slotNames v n k
  let gone := s.display.fences.filter fun p => outputKey n p.1 && !live.contains p
  gone.foldl (fun t p =>
    ({ t with display := { t.display with fences := t.display.fences.filter (· != p) } }).unfence (p.2 % 65536)) s

/-! ## Buffers on screen -/

/-- Plots of the buffer that a handle names. -/
def handlePlots (s : State) (h : Nat) : Nat :=
  match s.buf (h % 65536) with
  | some b => if s.pool.bufs.gen (h % 65536) = h / 65536 then b.plots.length else 0
  | none => 0

/-- Address of a byte of a buffer (R63). -/
def slotAddr (s : State) (h b : Nat) : Nat :=
  s.plotAddr ((((s.buf (h % 65536)).map Buf.plots).getD []).getD (b / 65536) 0) + b % 65536

/-- The attribute of a slot's fetches: the slot page's OWNER as latched (R87, R88), on SCAN_CRIT or SCAN (R226, R270). -/
def slotAttr (sl : Compose.Slot) : Attr := ⟨sl.fn, sl.world, sl.crit, if sl.crit = 3 then 0 else 1, false, false⟩

/-- Read the words [first, first + n) of a buffer for a slot; the words, or none when one is refused, uncorrectable or
poisoned. -/
def readBuf (s : State) (who : Attr) (h b : Nat) : Nat → Except Nat (List Nat) × State
  | 0 => (.ok [], s)
  | n + 1 =>
    match s.readWordAs who (s.slotAddr h b) with
    | (w, 0, s1) =>
      match s1.readBuf who h (b + 16) n with
      | (.ok r, s2) => (.ok (w :: r), s2)
      | (.error code, s2) => (.error code, s2)
    | (_, code, s1) => (.error code, s1)

/-- The elements of a groundsheet image, read for a slot (R178, R227): each element, or none where it cannot be read. -/
def readSheet (s : State) (who : Attr) (sl : Compose.Slot) : List (Option Nat) × State :=
  let tw := (sl.gsW + 31) / 32
  let tiles := (List.range ((sl.gsH + 7) / 8 * tw)).foldl (fun (acc : List (Option (List Nat)) × State) t =>
    match acc.2.readBuf who sl.gsBuf (256 * t) 16 with
    | (.ok ws, s1) => (acc.1 ++ [some (Seedbed.elemsOf ⟨32, 8, 1, [(0, 8)]⟩ ws)], s1)
    | (.error _, s1) => (acc.1 ++ [none], s1)) ([], s)
  ((List.range (sl.gsW * sl.gsH)).map fun e =>
    let x := e % sl.gsW
    let y := e / sl.gsW
    (tiles.1.getD (y / 8 * tw + x / 32) none).map fun es => es.getD (y % 8 * 32 + x % 32) 0, tiles.2)

/-- A resident image is the one that a slot names. -/
def sheetFits (sl : Compose.Slot) (x : Sheet) : Bool := sl.gsImage && x.buf == sl.gsBuf && x.w == sl.gsW && x.h == sl.gsH

/-- Fetch the groundsheet image that slot i of a view names, unless it is resident (R227). While the output runs, the fetch carries the
OWNER of the frame that is being scanned (R88), and the image comes into use at the next latch point. -/
def loadSheet (s v : State) (i : Nat) : State :=
  let n := i / 16
  let k := i % 16
  let sl := Compose.slotOf v n k
  let d := s.disp n
  let here := match Sparse.find d.newSheets k with | some x => some x | none => Sparse.find d.sheets k
  if !sl.gsImage || sl.gsBuf == 0 || sl.badImage (s.handlePlots sl.gsBuf) || here.any (sheetFits sl) then s
  else
    let old := Compose.slotOf (s.frameView n) n k
    let who := if d.running then slotAttr old else slotAttr sl
    let (es, s1) := s.readSheet who sl
    let d1 := s1.disp n
    s1.setDisp n { d1 with newSheets := Sparse.put d1.newSheets k ⟨sl.gsBuf, sl.gsW, sl.gsH, es⟩ }

/-- Make the groundsheet images that a view names resident, for the given slots (R227). -/
def loadSheets (s v : State) (ids : List Nat) : State := ids.foldl (fun t i => t.loadSheet v i) s

/-- The images that the slots of a view show: of those fetched and those resident, the ones that it names. -/
def latchSheets (d : Disp) (v : State) (n : Nat) : Store Sheet :=
  (List.range 16).filterMap fun k =>
    let sl := Compose.slotOf v n k
    let pick := fun (st : Store Sheet) => (Sparse.find st k).filter (sheetFits sl)
    (pick d.newSheets <|> pick d.sheets).map fun x => (k, x)

end State

end Sys2Proof.Machine
end

