-- ==== Sys2Proof/Machine/Commit.lean ====
section
/-! DEFINITION. Shadows, commits and the frame boundary: the COMMIT command, the apply line, the latch point, slot release
and the acknowledgement timeout (R187 to R210, R502). -/

namespace Sys2Proof.Machine

namespace State

/-! ## Groups and page sets (R188 to R190, R195) -/

/-- The commit group of an output (R189). -/
def groupOf (s : State) (n : Nat) : Nat := s.fld (.pipe n) F.SHADOW_CTRL_GROUP

/-- The outputs of a group. -/
def groupOutputs (s : State) (g : Nat) : List Nat := (List.range 8).filter fun n => s.groupOf n == g

/-- The lead output of a group (R190). -/
def leadOf (s : State) (g : Nat) : Option Nat := (s.groupOutputs g).find? fun n => (s.disp n).running

/-- The output of a page offset, for a page of an output. -/
def outputOf (a : Nat) : Nat :=
  if (Page.scn 0).base ≤ a then (a - (Page.scn 0).base) / 0x2000 else (a - (Page.pipe 0).base) / 0x20000

/-- The member of a page set that holds a register key: a page, or a check-region block. -/
def memberOf (k : Nat) : Nat :=
  let a := if k < 0x1_0000_0000 then k else (k - 0x1_0000_0000) / 0x100000
  let b := a / 0x1000 * 0x1000
  match pageOf b with
  | some (.chk _) => if 0x100 ≤ a - b then b + 0x100 + (a - b - 0x100) / 0xC0 * 0xC0 else b
  | _ => b

/-- Pages and check-region blocks of output n. -/
def outputMembers (n : Nat) : List Nat :=
  [(Page.pipe n).base] ++ ((List.range 16).map fun k => (Page.slot n k).base)
    ++ ((List.range 16).map fun j => (Page.chk n).base + 0x100 + 0xC0 * j) ++ [(Page.scn n).base]

/-- Whether a requester may commit a member (R195). -/
def mayCommit (s : State) (fn m : Nat) : Bool :=
  let b := m / 0x1000 * 0x1000
  let o := s.rw (if m = b then b + 0x02C else m)
  let secure := bit 31 o || (m != b && bit 31 (s.rw (b + 0x02C)))
  if fn = 0x41 then true
  else if isVf fn then bit 8 o && bits 23 16 o == fn && !secure
  else !bit 8 o && !secure

/-- The page set of a commit (R195). -/
def pageSet (s : State) (g fn : Nat) : List Nat := ((s.groupOutputs g).flatMap outputMembers).filter (s.mayCommit fn)

/-- The RWS bits of a word that a requester may commit (R195). -/
def commitMask (fn k : Nat) : Nat :=
  let a := if k < 0x1_0000_0000 then k else (k - 0x1_0000_0000) / 0x100000
  match pageOf (a / 0x1000 * 0x1000) with
  | some pg =>
    ((pg.fieldsAt (a % 0x1000)).map fun f =>
      if f.acc = .rws ∧ (fn = 0x41 ∨ !f.sec) then (2 ^ (f.hi + 1 - f.lo) - 1) * 2 ^ f.lo else 0).sum
  | none => 0

/-- The keys, in order, at which a shadow of an output may differ from the active value. -/
def touchedKeys (s : State) (n : Nat) : List Nat :=
  let ks := (s.shad.map Prod.fst ++ s.regs.map Prod.fst).filter fun k => outputKey n k && s.rw k != s.sw k
  (ks.foldl (fun (st : Store Unit) k => Sparse.put st k ()) []).map Prod.fst

/-- A word with the masked bits of another. -/
def maskMerge (m old new : Nat) : Nat := Nat.lor (Nat.land old (0xFFFF_FFFF - m)) (Nat.land new m)

/-- The changed words of the armed copy (R187, R193). -/
def changedWords (s : State) (outs set : List Nat) (fn : Nat) : List (Nat × Nat) :=
  (outs.flatMap s.touchedKeys).filterMap fun k =>
    if set.contains (memberOf k) then
      let v := maskMerge (commitMask fn k) (s.rw k) (s.sw k)
      if v = s.rw k then none else some (k, v)
    else none

/-- SHADOW_CTRL.DIRTY of a page (R44). -/
def pageDirty (s : State) (b : Nat) : Bool :=
  (s.touchedKeys (outputOf b)).any fun k =>
    memberOf k / 0x1000 * 0x1000 == b && Nat.land (commitMask 0x41 k) (Nat.xor (s.rw k) (s.sw k)) != 0

/-- Whether a commit holds a page, or a block of it (SHADOW_CTRL.ARMED, R195); on a standby device a held record does. -/
def pageArmed (s : State) (b : Nat) : Bool :=
  (s.display.commits.any fun c => c.pages.any fun m => m / 0x1000 * 0x1000 == b)
    || (s.pair.held.any fun r => r.pages.any fun m => m / 0x1000 * 0x1000 == b)

/-- Copy the active values of the words that satisfy a test into their shadows (R48, R207). -/
def discardWords (s : State) (n : Nat) (which : Nat → Bool) : State :=
  ((s.touchedKeys n).filter which).foldl (fun t k => t.setSw k (maskMerge (commitMask 0x41 k) (t.sw k) (t.rw k))) s

/-- The view of the values that stand once every applying commit has latched. -/
def nextView (s : State) : State :=
  (s.display.commits.filter fun c => c.stage == .applying).foldl (fun t c =>
    (c.entries.filter fun e => c.todo.contains (outputOf (memberOf e.1))).foldl (fun u e => u.setRw e.1 e.2) t) s

/-! ## Slots of a view against R183 -/

/-- Step 1 of R183 on one handle (R183, R197): the code of R65, or WRONG_KIND. -/
def surfaceCheck (s : State) (fn h : Nat) : Option Nat :=
  match s.checkBuf fn h with
  | .error code => some code
  | .ok i => if s.bufKind i = 1 then none else some 0x0107

/-- Slots of an output that need a scaler and come after the fourth (R164). -/
def pastFourth (sls : List Compose.Slot) : List Nat := ((sls.filter fun sl => sl.en && sl.scaled).map Compose.Slot.k).drop 4

/-- The slot that step 6 of R183 names, when the armed copy leaves a fifth slot in need of a scaler (R164): the first past the fourth in the
page set, else the last scaled slot of it, else the last one that reads a surface. -/
def fifthSlot (sls mine : List Compose.Slot) : Option Nat :=
  let past := pastFourth sls
  if past = [] then none
  else
    ((mine.find? fun sl => past.contains sl.k) <|> (mine.filter Compose.Slot.scaled).getLast?
      <|> (mine.filter fun sl => sl.reads && sl.sized).getLast?).map Compose.Slot.k

/-- Step 6 of R196: the first failing slot of the page set, with code and ERR_INFO. -/
def slotChecks (s v : State) (outs set : List Nat) (fn : Nat) : Option (Page × Nat × Nat) :=
  outs.findSome? fun n =>
    let sls := v.slots n
    let mine := sls.filter fun sl => sl.en && set.contains (Page.slot n sl.k).base
    let fifth := fifthSlot sls mine
    mine.findSome? fun sl =>
      let full := sl.solid || sl.sized
      let hs := (if sl.reads && full then [sl.buf] else []) ++ (if sl.gsImage && full then [sl.gsBuf] else [])
      match hs.findSome? (s.surfaceCheck fn) with
      | some code => some (.slot n sl.k, code, sl.k)
      | none =>
        (sl.check (s.handlePlots sl.buf) (s.handlePlots sl.gsBuf) (fifth == some sl.k)).map fun p => (.slot n sl.k, p.1, p.2)

/-- Step 1 of R183 made again at the apply line, for every buffer that the armed copy names (R199). -/
def namesCheck (s v : State) (outs set : List Nat) (fn : Nat) : Option (Page × Nat) :=
  outs.findSome? fun n => (List.range 16).findSome? fun k =>
    if set.contains (Page.slot n k).base then
      let sl := Compose.slotOf v n k
      let hs := (if sl.reads then [sl.buf] else []) ++ (if sl.gsImage then [sl.gsBuf] else [])
      (hs.findSome? (s.surfaceCheck fn)).map fun code => (.slot n k, code)
    else none

/-! ## Arming, ending and moving -/

/-- ERR_INFO of a commit's code (R210). -/
def commitInfo (g fn cid : Nat) : Nat := g + fn * 2 ^ 8 + cid % 256 * 2 ^ 16

/-- An entry as the link carries it: offset, value, and the selector of an indirect word (R390). -/
def linkEntry (e : Nat × Nat) : Nat × Nat × Nat :=
  if e.1 < 0x1_0000_0000 then (e.1, e.2, 0)
  else ((e.1 - 0x1_0000_0000) / 0x100000, e.2, e.1 % 0x100000)

/-- The key of a link entry. -/
def entryKey (e : Nat × Nat × Nat) : Nat × Nat :=
  match pageOf (e.1 / 0x1000 * 0x1000) with
  | some (.pipe _) =>
    if e.1 % 0x1000 = 0x064 ∨ e.1 % 0x1000 = 0x06C then (bankKey e.1 e.2.2, e.2.1) else (e.1, e.2.1)
  | some (.slot _ _) => if e.1 % 0x1000 = 0x0C4 then (bankKey e.1 e.2.2, e.2.1) else (e.1, e.2.1)
  | _ => (e.1, e.2.1)

def putCommit (s : State) (c : Commit) : State :=
  { s with display := { s.display with commits := s.display.commits.map fun d => if d.cno = c.cno then c else d } }

def dropCommit (s : State) (c : Commit) : State :=
  { s with display := { s.display with commits := s.display.commits.filter fun d => d.cno != c.cno } }

/-- The slots of a page set, as output × 16 + slot. -/
def slotIds (set : List Nat) : List Nat :=
  (List.range 128).filter fun i => set.contains (Page.slot (i / 16) (i % 16)).base

/-- Post the final completion of a commit (R197), unless its function has been reset. -/
def endCommit (s : State) (c : Commit) (status : Nat) (res : List Nat) : State :=
  if c.silent ∨ c.posted then s else s.finishOpt c.jid status res

/-- An armed word takes effect. On a device that only holds the record of a commit, the shadow follows where it equalled the active value:
DIRTY reads 0 after a takeover (R204). -/
def moveWord (s : State) (c : Commit) (e : Nat × Nat) : State :=
  let s0 := if (pageOf e.1).any (fun pg => match pg with | .scn _ => e.1 % 0x1000 == F.SCN_CL3_RESERVE_BW.off | _ => false) then s.settleCredit else s
  let s1 := if c.jid.isNone && c.release.isNone && s0.sw e.1 == s0.rw e.1 then s0.setSw e.1 e.2 else s0
  s1.setRw e.1 e.2

/-- Move the armed words of some outputs into the active values, end or begin releases there (R191 step 1, R207). -/
def moveCommit (s : State) (c : Commit) (outs : List Nat) : State :=
  let mine := c.entries.filter fun e => outs.contains (outputOf (memberOf e.1))
  let s1 := mine.foldl (fun t e => t.moveWord c e) s
  let shown := (List.range 128).filter fun i =>
    mine.any fun e => e.1 == (Page.slot (i / 16) (i % 16)).key F.SLOT_BUF_BUFFER.off && e.2 != 0
  let rel := match c.release with
    | some i => if outs.contains (i / 16) ∧ !s1.display.released.contains i then s1.display.released ++ [i] else s1.display.released
    | none => s1.display.released.filter fun i => !shown.contains i
  let s2 := { s1 with display := { s1.display with released := rel } }
  s2.putCommit { c with todo := c.todo.filter fun n => !outs.contains n }

/-- RES1 of a commit that has applied (R197, R209). -/
def commitRes1 (c : Commit) : Nat := c.entries.length % 65536 + b2n c.handover.isSome * 65536

/-- A commit has applied on its group: ARMED clears and its final completion is posted, once; it goes when every output has its values
(R191, R197, R200). -/
def commitDone (s : State) (c : Commit) (frame : Nat) : State :=
  let s1 := s.endCommit c 0 [frame, commitRes1 c]
  if c.todo = [] then s1.dropCommit c else s1.putCommit { c with pages := [], posted := true }

/-- Take the fences and resources of a commit that applies (R199). -/
def takeResources (s : State) (c : Commit) : State :=
  let outs := s.groupOutputs c.group
  let v := s.armedView c.entries
  let ids := slotIds c.pages
  let s1 := s.takeSlotFences v ids
  let s2 := s1.grantResources v outs fun i => ids.contains i
  s2.loadSheets v ids

/-- The values of an applying commit take effect on every output that is left (R197). -/
def moveRest (s : State) (c : Commit) : State :=
  let s1 := c.todo.foldl (fun t n => (t.settleStore n).settleFences n) (s.moveCommit c c.todo)
  s1.commitDone { c with todo := [] } 0xFFFF_FFFF

/-- Apply a commit of a group without a lead output, at once (R197). -/
def applyAtOnce (s : State) (c : Commit) : State :=
  let c1 := { c with stage := .applying, todo := s.groupOutputs c.group }
  (((s.takeResources c).putCommit c1).mirror (.arm 1 c.cno 0xFFFF_FFFF c.group c.fn [])).moveRest c1

/-- Drop a commit that has not reached APPLYING: the partner is told, ARMED clears, and it completes with a code (R200). -/
def abandonCommit (s : State) (c : Commit) (status : Nat) (res : List Nat) : State :=
  ((s.mirror (.arm 2 c.cno 0 c.group c.fn [])).dropCommit c).endCommit c status res

/-- A ready commit at its apply line, or at once: R199's check and the application. -/
def applyCommit (s : State) (c : Commit) (frame : Option Nat) : State :=
  let outs := s.groupOutputs c.group
  let bad := if c.release.isSome then none else s.namesCheck (s.armedView c.entries) outs c.pages c.fn
  match bad with
  | some (pg, code) => (s.recErr pg code (commitInfo c.group c.fn c.cid)).abandonCommit c code [pg.base]
  | none =>
    match frame with
    | none => s.applyAtOnce c
    | some f =>
      let s1 := s.takeResources c
      (s1.putCommit { c with stage := .applying, frame := f, todo := outs }).mirror (.arm 1 c.cno f c.group c.fn [])

/-- Whether a group waits for outputs that IDLE stopped: its commits apply at the first latch point after the restart (R410). -/
def groupAsleep (s : State) (g : Nat) : Bool :=
  (s.groupOutputs g).any fun n =>
    ((s.disp n).starting && (s.disp n).resumed) || (s.power.state == .idle && s.power.ranOutputs.contains n)

/-- Commits that are ready in a group that has no lead output apply at once; a commit with a target waits (R197, R198). -/
def applyLeadless (s : State) : State :=
  s.display.commits.foldl (fun t c =>
    if c.stage = .waiting ∧ (t.leadOf c.group).isNone ∧ c.target.isNone ∧ !t.groupAsleep c.group then t.applyCommit c none
    else t) s

/-- Arm a commit (R196, R200): freeze the copy, and in a pair send its record. -/
def armCommit (s : State) (c : Commit) : State :=
  let c1 := { c with cno := s.pair.nextRec, stage := if s.mirrors then .sent else .waiting, sentAt := s.now }
  let s1 := { s with
    display := { s.display with commits := s.display.commits ++ [c1] }
    pair := { s.pair with nextRec := (s.pair.nextRec + 1) % 2 ^ 32 } }
  s1.mirror (.arm 0 c1.cno 0 c1.group c1.fn (c1.entries.map linkEntry))

/-! ## COMMIT (R194 to R197) -/

/-- Refuse a COMMIT; a page that fails records the code (R197, R210). -/
def failCommit (s : State) (j : Job) (code : Nat) (pg : Option (Page × Nat)) : State :=
  match pg with
  | some (p, info) => (s.recErr p code info).complete j.jid code [p.base]
  | none => s.complete j.jid code [0]

/-- Whether the target of a COMMIT is late, or too far (R196 steps 8 and 9). -/
def targetFault (s : State) (g target : Nat) : Option Nat :=
  match s.leadOf g with
  | none => some 0x0006
  | some n =>
    let d := (target + 2 ^ 33 - (s.fld (.scn n) F.SCN_SEQ_SEQ + 1)) % 2 ^ 32
    if 2 ^ 31 ≤ d ∨ Sparse.find s.display.applySeen n = some target then some 0x0302
    else if 255 < d then some 0x0006 else none

def carryCommit (j : Job) (s : State) : State :=
  let g := bits 2 0 (j.p 0)
  let ten := bit 8 (j.p 0)
  let outs := s.groupOutputs g
  let set := s.pageSet g j.fn
  let words := s.changedWords outs set j.fn
  let v := s.armedView words
  let info := commitInfo g j.fn j.cid
  let busy := (set.filter fun m => s.display.commits.any fun c => c.pages.contains m).head?
  let pageInfo := fun (m : Nat) => (pageOf (m / 0x1000 * 0x1000)).map fun pg => (pg, info)
  let disruptive := outs.find? fun n => words.any fun e => decide ((Page.scn n).key 0x040 ≤ e.1) && decide (e.1 < (Page.scn n).key 0x058)
  if bits 7 3 (j.p 0) ≠ 0 ∨ bits 31 9 (j.p 0) ≠ 0 ∨ (!ten ∧ j.p 1 ≠ 0) ∨ (ten ∧ (s.leadOf g).isNone) then s.failCommit j 0x0006 none
  else if words = [] then s.failCommit j 0x0002 none
  else
    match busy with
    | some m => s.failCommit j 0x0303 (pageInfo m)
    | none =>
      if 8 ≤ (s.display.commits.filter fun c => c.group == g && c.release.isNone && !c.posted).length then s.failCommit j 0x0303 none
      else
        match disruptive with
        | some n => s.failCommit j 0x0305 (some (.scn n, info))
        | none =>
          if 8192 < words.length then s.failCommit j 0x0301 none
          else
            match s.slotChecks v outs set j.fn with
            | some (pg, code, i) => s.failCommit j code (some (pg, i))
            | none =>
              match s.reserveCheck ⟨outs, s.nextView.armedView words, fun i => set.contains (Page.slot (i / 16) (i % 16)).base⟩ with
              | .error (n, code, i) => s.failCommit j code (some (.scn n, i))
              | .ok hand =>
                match (if ten then s.targetFault g (j.p 1) else none) with
                | some code => s.failCommit j code none
                | none =>
                  let c : Commit := ⟨0, some j.jid, j.cid, j.fn, g, if ten then some (j.p 1) else none, words, set, .waiting,
                    0, [], false, hand, none, 0, false⟩
                  ((s.armCommit c).complete j.jid 1 [words.length % 65536]).applyLeadless

/-! ## Slot release (R207) -/

/-- Function number of the internal commit of a release, which no function sends (DESIGN CHOICE). -/
def releaseFn : Nat := 0x42

/-- Arm the internal commit of a release. -/
def armRelease (s : State) (i : Nat) : State :=
  let pg := Page.slot (i / 16) (i % 16)
  let c : Commit := ⟨0, none, 0, releaseFn, s.groupOf (i / 16), none, [(pg.key F.SLOT_BUF_BUFFER.off, 0)], [pg.base], .waiting, 0, [],
    false, none, some i, 0, false⟩
  (s.armCommit c).applyLeadless

/-- Releases that waited for another commit are armed once that commit has ended. -/
def wakeReleases (s : State) : State :=
  s.display.waitingRelease.foldl (fun t i =>
    if t.pageArmed (Page.slot (i / 16) (i % 16)).base then t
    else ({ t with display := { t.display with waitingRelease := t.display.waitingRelease.filter (· != i) } }).armRelease i) s

/-- Release a slot: its shadows are discarded, and its buffer leaves at the next apply line. -/
def releaseSlot (s : State) (n k : Nat) : State :=
  let i := n * 16 + k
  let b := (Page.slot n k).base
  let s1 := s.discardWords n fun key => memberOf key == b
  if s1.display.commits.any (fun c => c.release == some i) ∨ s1.display.waitingRelease.contains i then s1
  else if s1.pageArmed b then
    { s1 with display := { s1.display with waitingRelease := s1.display.waitingRelease ++ [i] } }
  else s1.armRelease i

/-! ## The apply line (R192, R198 to R200) -/

/-- Take the apply decision of each armed commit of a group for frame f, earlier-armed first; `used` counts changed words. -/
def applyDecisions (s : State) (f used : Nat) : List Commit → State
  | [] => s
  | c :: r =>
    if c.stage = .applying then s.applyDecisions f used r
    else
      let n := if c.release.isSome then 0 else c.entries.length
      let late := match c.target with | some t => decide (2 ^ 31 ≤ (t + 2 ^ 32 - f) % 2 ^ 32) | none => false
      let mine := match c.target with | some t => t == f | none => true
      if late then (s.abandonCommit c 0x0302 [0]).applyDecisions f used r
      else if !mine then s.applyDecisions f used r
      else if c.stage = .sent ∨ 8192 < used + n then
        (if c.target.isSome then s.abandonCommit c 0x0302 [0] else s).applyDecisions f used r
      else
        let s1 := s.applyCommit c (some f)
        let applied := s1.display.commits.any fun d => d.cno == c.cno && d.stage == .applying
        s1.applyDecisions f (if applied then used + n else used) r

/-- The line of the running frame of output n that is the apply line of the next one (R192). -/
def atApplyLine (s : State) (n : Nat) : Bool :=
  (s.disp n).running && !(s.disp n).fresh && (s.disp n).line == (s.timing n).va - (s.disp n).guard

/-- The apply line of the next frame of a lead output; its decisions are taken once. -/
def applyLine (s : State) (n : Nat) : State :=
  let f := (s.fld (.scn n) F.SCN_SEQ_SEQ + 1) % 2 ^ 32
  if s.atApplyLine n ∧ s.leadOf (s.groupOf n) = some n ∧ Sparse.find s.display.applySeen n ≠ some f then
    let s1 := { s with display := { s.display with applySeen := Sparse.put s.display.applySeen n f } }
    (s1.applyDecisions f 0 (s1.display.commits.filter fun c => c.group == s1.groupOf n)).wakeReleases
  else s

/-! ## The latch point (R191, R502) -/

/-- A commit applies at the latch point of output n for frame `seq`. A commit that has not ended waits on its lead output for its frame. -/
def appliesAt (s : State) (n seq : Nat) (c : Commit) : Bool :=
  c.stage == .applying && c.todo.contains n
    && !(!c.posted && s.leadOf c.group == some n && decide (2 ^ 31 ≤ (seq + 2 ^ 32 - c.frame) % 2 ^ 32))

/-- The commits that apply at the latch point of output n. -/
def applyingAt (s : State) (n seq : Nat) : List Commit := s.display.commits.filter (s.appliesAt n seq)

/-- Step 1 of R191: the armed words of what applies move into the active values of output n. -/
def moveCommits (s : State) (n : Nat) (cs : List Commit) : State := cs.foldl (fun t c => t.moveCommit c [n]) s

/-- Step 3 of R191: what has applied on the lead output of its group, or everywhere, ends. -/
def endCommits (s : State) (n seq : Nat) (cs : List Commit) : State :=
  cs.foldl (fun t c =>
    let c1 := { c with todo := c.todo.filter (· != n) }
    if t.leadOf c.group = some n ∨ c1.todo = [] then t.commitDone c1 seq else t) s

/-- The slots of the latched view that fail R502, with code and ERR_INFO. -/
def latchFaults (s v : State) (n : Nat) : List (Nat × Nat × Nat) :=
  let sls := v.slots n
  let past := pastFourth sls
  (sls.filter Compose.Slot.en).filterMap fun sl =>
    (sl.check (s.handlePlots sl.buf) (s.handlePlots sl.gsBuf) (past.contains sl.k)).map fun p => (sl.k, p.1, p.2)

/-- PIPE_SCALERS and SLOTk_STAT as the assignment of R164 sets them. -/
def showScalers (s : State) (n : Nat) (served : List Nat) : State :=
  let w := (served.zipIdx.map fun p => (p.1 + 0x80) * 2 ^ (8 * p.2)).sum
  (List.range 16).foldl (fun t k =>
    let i := served.idxOf k
    let on := served.contains k
    (t.setFld (.slot n k) F.SLOT_STAT_SCALED (b2n on)).setFld (.slot n k) F.SLOT_STAT_SCALER (if on then i else 0))
    (s.setRw ((Page.pipe n).key F.PIPE_SCALERS_SLOT_0.off) w)

/-- The regions of a view that are active (R260), and the records of the others. -/
def regionLatch (s v : State) (n : Nat) : List Nat × List (Nat × Nat) :=
  let t := s.timing n
  (List.range 16).foldl (fun acc j =>
    let f := fun (x : Fld) => v.fld (.chk n) x [j]
    let w := f F.CHK_SIZE_W
    let h := f F.CHK_SIZE_H
    if f F.CHK_CTRL_EN = 0 ∨ w = 0 ∨ h = 0 ∨ s.display.released.contains (128 + n * 16 + j) then acc
    else if f F.CHK_OWNER_CRIT < 2 then (acc.1, acc.2 ++ [(j, 0x000A)])
    else if t.ha < f F.CHK_POS_X + w ∨ t.va < f F.CHK_POS_Y + h then (acc.1, acc.2 ++ [(j, 0x0B02)])
    else (acc.1 ++ [j], acc.2)) ([], [])

/-- The latest furrow of slot k whose shed set has started in the frame; 0xFFFFF stands for the last one of the frame before. -/
def lastSeen (d : Disp) (k : Nat) : Nat :=
  match (d.shedSeen.filter fun id => id / 65536 == k).getLast? with
  | some id => id % 65536
  | none => 0xFFFFF

/-- The shed set that the first furrow of each slot of the new frame starts with: that of the slot's last furrow (R231). -/
def lastShed (d : Disp) : List ShedUnit :=
  (List.range 16).flatMap fun k =>
    (d.shed.filter fun u => u.slot == k && u.furrow == lastSeen d k).map fun u => ⟨k, 0xFFFFF, u.span⟩

/-- Take the latched copy of frame `seq` (R160): the values that stand now, the check of R502, keep-out and check regions.
`lead` is the time in pipe clocks to line 0, `hand` the slots in handover. -/
def takeLatch (s : State) (n seq lead : Nat) (hand : List Nat) (applied : Bool) : State :=
  let d := s.disp n
  let s1 := s.setFld (.scn n) F.SCN_SEQ_SEQ seq
  let words := s1.outputWords n
  let v : State := { s1 with regs := words }
  let faults := s1.latchFaults v n
  let failing := faults.map Prod.fst
  let passed := ((v.slots n).filter fun sl => sl.en && !failing.contains sl.k).map Compose.Slot.k
  let served := Compose.scalerSlots (v.slots n)
  let (regions, records) := s1.regionLatch v n
  let fresh := (v.slots n).any fun sl => sl.en && ((if sl.reads then [sl.buf] else []) ++ (if sl.gsImage then [sl.gsBuf] else [])).any fun b =>
    decide (d.doneMark < Sparse.get (fun _ => 0) s.ingest.lastEnd (b % 65536))
  let rel := (List.range 16).filter fun k => s1.display.released.contains (n * 16 + k)
  let d1 : Disp := { idleDisp with
    running := true, line := d.line, fresh := d.line != (s1.timing n).va, guard := (s1.timing n).guard s1.pairForm
    genlock := d.genlock, lead := lead, frame := words, released := rel, failing := failing
    handed := hand.filterMap fun i => if i / 16 = n then some (i % 16) else none
    sheets := latchSheets d v n, shed := lastShed d, slack := d.slack
    failedBefore := (d.failedBefore.filter fun k => !passed.contains k && !failing.contains k) ++ failing
    regions := regions, adjust := d.correct, goodPhase := d.goodPhase, trim := d.trim, stopping := d.stopping, again := d.again
    applied := applied, changed := applied || fresh, doneMark := s.ingest.ended }
  let s2 := s1.setDisp n d1
  let s3 := faults.foldl (fun t p => if d.failedBefore.contains p.1 then t else t.recErr (.slot n p.1) p.2.1 p.2.2) s2
  let s4 := (Compose.deniedKeepouts v n).foldl (fun t j => (t.recErr (.pipe n) 0x0803 (j + 2 ^ 8)).event (.pipe n) 0) s3
  let s5 := records.foldl (fun t p => (t.recErr (.chk n) p.2 p.1).event (.chk n) 1) s4
  (s5.showScalers n served).setFld (.pipe n) F.PIPE_BS_COMPOSING (b2n (v.flag (.pipe n) F.PG_CTRL_ENABLE))

/-- The latch point of output n for frame `seq` (R191): the values move and the copy is taken, the fences of what is no longer shown end,
the completions follow. -/
def latchPoint (s : State) (n seq lead : Nat) : State :=
  let cs := s.applyingAt n seq
  let hand := cs.flatMap fun c => c.handover.getD []
  let s1 := (((s.moveCommits n cs).settleStore n).takeLatch n seq lead hand (!cs.isEmpty)).settleFences n
  (s1.endCommits n seq cs).wakeReleases

/-- The commits of a group of which one output has stopped: without a lead output left they apply at once; those that have applied on the new
lead output have ended (R190, R197). The others wait on each output for its own latch point. -/
def settleStopped (s : State) (g : Nat) : State :=
  (s.display.commits.filter fun c => c.group == g && c.stage == .applying && !c.posted).foldl (fun t c =>
    match t.leadOf g with
    | none => t.moveRest c
    | some m => if c.todo.contains m then t else t.commitDone c c.frame) s

/-- An output has stopped (R217): its slots keep their values and fences, and groups that lost their lead output apply at once (R190, R197). -/
def outputStopped (s : State) (n : Nat) : State :=
  let d := s.disp n
  let s0 := s.setDisp n { d with running := false, stopping := false, starting := false, fresh := false, tiles := [], arrived := [], lines := [] }
  let s1 := { s0 with display := { s0.display with applySeen := Sparse.del s0.display.applySeen n } }
  let s2 := s1.settleStopped (s.groupOf n)
  let s4 := ((s2.setFld (.scn n) F.PG_STAT_ENABLED 0).setFld (.scn n) F.SCN_BS_RUNNING 0).setFld (.scn n) F.SCN_BS_IN_HEADLAND 0
  let s5 := ((s4.setFld (.chk n) F.CHK_BS_CHECKING 0).setFld (.pipe n) F.PIPE_BS_COMPOSING 0).setFld (.scn n) F.SCN_BS_VRR_WAIT 0
  ((s5.event (.scn n) 11).applyLeadless).wakeReleases

/-- Followers of an output that has stopped, or with 8 of a partner that has gone, lose their lock (R221). -/
def dropFollowers (s : State) (src : Nat) : State :=
  ((List.range 8).filter fun m => bit 4 (s.disp m).genlock && bits 3 0 (s.disp m).genlock == src).foldl (fun t m =>
    let u := t.setDisp m { t.disp m with goodPhase := 0 }
    if u.flag (.scn m) F.SCN_GENLOCK_STAT_LOCKED then (u.setFld (.scn m) F.SCN_GENLOCK_STAT_LOCKED 0).event (.scn m) 10 else u) s

/-! ## Acknowledgement timeout and resets (R200) -/

/-- 2 ms have passed without COMMIT_ACK for a SENT commit. -/
def ackTimeout (s : State) (cno : Nat) : State :=
  match s.display.commits.find? fun c => c.cno == cno && c.stage == .sent with
  | some c => (s.abandonCommit c 0x0304 [0]).wakeReleases
  | none => s

/-- Step 2 of R128: the commits of a function that have not reached APPLYING end without a completion. -/
def dropFnCommits (s : State) (fn : Nat) : State :=
  ((s.display.commits.filter fun c => c.fn == fn && c.stage != .applying && c.release.isNone).foldl (fun t c =>
    (t.mirror (.arm 2 c.cno 0 c.group c.fn [])).dropCommit c) s).wakeReleases

/-- The commits that have not reached APPLYING end COMMIT_ABANDONED (R200, R203). -/
def abandonAll (s : State) (which : Commit → Bool) : State :=
  (s.display.commits.filter fun c => c.stage != .applying && which c).foldl (fun t c => t.abandonCommit c 0x0304 [0]) s

end State

/-! ## The commands -/

def execApplyLine (out : Nat) (s : State) : Host.Outcome State Fault Refusal := .next (s.applyLine out)

def execCommitAckTimeout (recNo : Nat) (s : State) : Host.Outcome State Fault Refusal := .next (s.ackTimeout recNo)

end Sys2Proof.Machine
end

