-- ==== Sys2Proof/Machine/Regs.lean ====
section
/-! DEFINITION. The header registers of a page (R44 to R59): events, routes, status codes, shadows, ownership and
delegation, wide registers and counter latches. PG_CTRL stands in Ctrl.lean and RegWrite.lean, because its effect is each block's own. -/

namespace Sys2Proof.Machine

namespace State

/-! ## What a read returns -/

/-- Receiving function of a region's messages: the copy of CHKj_OWNER.FUNCTION while the region is delegated (R262). -/
def chkRouteFn (s : State) (n j : Nat) : Nat :=
  if s.flag (.chk n) F.CHK_OWNER_DELEGATE [j] then s.fld (.chk n) F.CHK_OWNER_FUNCTION [j] else s.fld (.chk n) F.CHK_ROUTE_FUNCTION [j]

/-- The words whose value is computed from other state: header copies (R44), the device time and the AON tick count. -/
def viewWord (s : State) (pg : Page) (o : Nat) : Nat :=
  let w := s.rw (pg.key o)
  let own := s.rw (pg.key 0x02C)
  if o = 0x00C then
    w % 2 + b2n (bit 1 w || s.softResetting.contains pg.base) * 2 + b2n (s.flag pg F.PG_CTRL_LOCK) * 4 + b2n (s.fld pg F.ERR_CODE_CODE != 0) * 8 + bits 8 8 own * 16
      + bits 31 31 own * 32 + bits 13 12 own * 64 + bits 23 16 own * 256 + w / 65536 * 65536
  else if o = 0x018 then s.evtPend pg
  else if o = 0x01C then s.rw (pg.key 0x010)
  else if o = 0x028 then
    (if bit 30 (s.rw (pg.key 0x004)) then w % 8 + b2n (s.pageDirty pg.base) * 2 ^ 8 + b2n (s.pageArmed pg.base) * 2 ^ 9 else 0)
  else if o = 0x030 then setBits 23 16 w (s.routeFn pg)
  else
    match pg with
    | .tim =>
      if o = F.TIM_NOW_LO_NOW.off then s.deviceTime % 2 ^ 32
      else if o = F.TIM_NOW_HI_NOW.off then s.deviceTime / 2 ^ 32 % 2 ^ 32 else w
    | .aon =>
      if o = F.AON_TICK_LO_COUNT.off then s.time.ticks % 2 ^ 32
      else if o = F.AON_TICK_HI_COUNT.off then s.time.ticks / 2 ^ 32 % 2 ^ 16 else w
    | .scn n =>
      if o = F.SCN_FS_FREE_FREE.off then s.storeFree
      else if o = F.SCN_FS_GRANT_SHARED.off then s.granules n false + s.granules n true * 2 ^ 16 else w
    | .chk n => if F.CHK_ROUTE_FUNCTION.hits o then setBits 23 16 w (s.chkRouteFn n ((o - 0x100) / 0xC0)) else w
    | _ => w

/-- Carry a register read to its page (R37, R38, R54). A read that reaches no page, a gated one, or a block of another owner, returns 0; a
secure read of a stopped group waits with the secure writes before it (R40, R107). -/
def accessRead (s : State) (r : RegRd) (run : RegAcc → State → State) : State :=
  if !s.reaches r.req.fn then s
  else
    match (s.resolve r.req r.win r.off).filter s.domainAnswers with
    | none => s.emit (.readData r.req.fn 0)
    | some pg =>
      let a : RegAcc := ⟨pg, r.off % 0x1000, r.req, 0, r.win == .vf && pg != .vf r.req.fn⟩
      match (if s.hiddenBlock a then none else s.waitsAt r.req pg) with
      | some g => s.holdBack g (.read r)
      | none => if s.hiddenBlock a || s.pageGated pg then s.emit (.readData r.req.fn 0) else run a s

/-- Return the data of a read. -/
def answerRead (s : State) (a : RegAcc) (v : Nat) : State := s.emit (.readData a.req.fn (BitVec.ofNat 32 v))

/-! ## Counter latches and wide registers (R49, R50, R158) -/

/-- Replace the latched value of a word for a function. -/
def latchWord (s : State) (fn key v : Nat) : State :=
  { s with latched := s.latched.filter (fun l => !(l.fn == fn && l.key == key)) ++ [⟨fn, key, BitVec.ofNat 32 v⟩] }

/-- Stage a lower word for a requester. -/
def stageWord (s : State) (fn key : Nat) (v : Word32) : State :=
  { s with staged := s.staged.filter (fun l => !(l.fn == fn && l.key == key)) ++ [⟨fn, key, v⟩] }

/-- Whether a word is one of a 128-bit register: only a page whose PG_CAP.WIDE is 1 holds any, and PG_CAP.WIDE of every page of this
device is 0 (R44, R49). -/
def isWide (s : State) (a : RegAcc) : Bool := s.flag a.page F.PG_CAP_WIDE && decide (0x040 ≤ a.off)

/-- A write of one word of a wide register (R49): a lower word is staged; the highest word loads all four, taking the lower ones from the
requester's staging copy, else keeping them, and empties the copy. -/
def wideWrite (a : RegAcc) (s : State) : State :=
  if a.off % 16 ≠ 12 then s.stageWord a.req.fn (a.page.key a.off) (BitVec.ofNat 32 a.val)
  else
    let b := a.off - 12
    let s1 := (List.range 3).foldl (fun t i =>
      match t.staged.find? fun l => l.fn == a.req.fn && l.key == a.page.key (b + 4 * i) with
      | some l => t.plainWrite { a with off := b + 4 * i, val := l.val.toNat }
      | none => t) s
    let s2 := s1.plainWrite a
    { s2 with staged := s2.staged.filter fun l =>
        !(l.fn == a.req.fn && decide (a.page.key b ≤ l.key) && decide (l.key < a.page.key b + 12)) }

/-! ## Event registers (R56 to R59, R262) -/

/-- A write to EVT_RAW, EVT_EN or EVT_ROUTE has completed: a message follows while events are pending (R57). -/
def afterEventWrite (s : State) (a : RegAcc) : State :=
  if s.evtPend a.page != 0 then s.pageMsg a.page else s

def evtRawWrite (a : RegAcc) (s : State) : State :=
  if s.secretPage a then s.recRefused a else (s.plainWrite a).afterEventWrite a

def evtEnWrite (a : RegAcc) (s : State) : State :=
  if s.secretPage a then s.recRefused a else (s.plainWrite a).afterEventWrite a

/-- EVT_SET sets bits of EVT_RAW (R56). -/
def evtSetWrite (a : RegAcc) (s : State) : State :=
  if s.secretPage a then s.recRefused a else s.raise a.page a.val

/-- EVT_ROUTE: the function is read-only while the page is delegated, on a VF control page and through a frame (R44, R53, R130); a bad
vector or function refuses the whole write (R59). -/
def evtRouteWrite (a : RegAcc) (s : State) : State :=
  if s.secretPage a then s.recRefused a
  else
    let fixed := s.routeFixed a F.EVT_ROUTE_FUNCTION
    let fn := if fixed then s.routeFn a.page else bits 23 16 a.val
    let b := { a with val := setBits 23 16 a.val (if fixed then s.fld a.page F.EVT_ROUTE_FUNCTION else fn) }
    if vectors fn ≤ bits 5 0 a.val then s.refuse a 0x0603
    else (mirrorWrite s (s.plainWrite b) b 0 0).afterEventWrite a

/-! ### The event registers of a check region (R262) -/

/-- CHKj_EVT_RAW AND CHKj_EVT_EN. -/
def chkPend (s : State) (n j : Nat) : Nat :=
  Nat.land (bits 1 0 (s.rw ((Page.chk n).key (F.CHK_EVT_RAW_MISMATCH.at [j])))) (s.fld (.chk n) F.CHK_EVT_EN_EN [j])

def chkMsg (s : State) (n j : Nat) : State :=
  if s.flag (.chk n) F.CHK_ROUTE_EN [j] then s.sendMsg (s.chkRouteFn n j) (s.fld (.chk n) F.CHK_ROUTE_VECTOR [j]) else s

/-- Set an event bit of a region. -/
def chkEvent (s : State) (n j b : Nat) : State :=
  let k := (Page.chk n).key (F.CHK_EVT_RAW_MISMATCH.at [j])
  let s' := s.setRw k (Nat.lor (s.rw k) (2 ^ b))
  if s.chkPend n j = 0 ∧ s'.chkPend n j ≠ 0 then s'.chkMsg n j else s'

/-- Writes to CHKj_EVT_RAW, CHKj_EVT_EN and CHKj_ROUTE. -/
def chkEventWrite (a : RegAcc) (s : State) : State :=
  match a.page, chkRegion a.off with
  | .chk n, some j =>
    if s.secretPage a then s.recRefused a
    else if F.CHK_ROUTE_EN.hits a.off then
      let fixed := s.routeFixed a F.CHK_ROUTE_FUNCTION
      let fn := if fixed then s.chkRouteFn n j else bits 23 16 a.val
      let b := { a with val := setBits 23 16 a.val (if fixed then s.fld (.chk n) F.CHK_ROUTE_FUNCTION [j] else fn) }
      if vectors fn ≤ bits 5 0 a.val then s.refuse a 0x0603
      else
        let s1 := mirrorWrite s (s.plainWrite b) b 0 0
        if s1.chkPend n j ≠ 0 then s1.chkMsg n j else s1
    else
      let s1 := s.plainWrite a
      if s1.chkPend n j ≠ 0 then s1.chkMsg n j else s1
  | _, _ => s

/-- ERR_CODE.CLEAR (R45). -/
def errClear (a : RegAcc) (s : State) : State :=
  if s.grants a F.ERR_CODE_CLEAR then (s.setRw (a.page.key 0x020) 0).setRw (a.page.key 0x024) 0 else s.recRefused a

/-! ## SHADOW_CTRL (R48, R53, R189) -/

/-- The output of a page that holds shadows. -/
def shadowOutput : Page → Option Nat
  | .pipe n | .slot n _ | .chk n | .scn n => some n
  | _ => none

/-- The pages of output n. -/
def outputPages (n : Nat) : List Page := [.pipe n] ++ ((List.range 16).map fun k => Page.slot n k) ++ [.chk n, .scn n]

/-- Why a written GROUP is refused: a frame gives no GROUP (R53), the page is locked (R47) or armed (R48), and of the pages of an output
only the pipe page moves (R189). -/
def groupRefusal (s : State) (a : RegAcc) (n : Nat) : Option Nat :=
  if a.viaVf then some 0x000A
  else if s.refusedLock a F.SHADOW_CTRL_GROUP then some 0x0004
  else
    match a.page with
    | .pipe _ => if (outputPages n).any fun pg => s.pageArmed pg.base then some 0x0303 else none
    | _ => if s.pageArmed a.page.base then some 0x0303 else some 0x000A

/-- GROUP of the pipe page moves every page of the output. -/
def groupMove (a : RegAcc) (n : Nat) (s : State) : State :=
  (mirrorWrite s ((outputPages n).foldl (fun t pg => t.setFld pg F.SHADOW_CTRL_GROUP (bits 2 0 a.val)) s) a 0 0).applyLeadless

/-- DISCARD: the shadows of the page, or through a frame of a check-region page those of the VF's own blocks. -/
def discardPage (a : RegAcc) (n : Nat) (s : State) : State :=
  s.discardWords n fun k =>
    memberOf k / 0x1000 * 0x1000 == a.page.base
      && (!a.viaVf || (match a.page, chkRegion (memberOf k % 0x1000) with
          | .chk m, some j =>
            s.flag (.chk m) F.CHK_OWNER_DELEGATE [j] && s.fld (.chk m) F.CHK_OWNER_FUNCTION [j] == a.req.fn
          | _, _ => true))

/-- A write of SHADOW_CTRL: each of GROUP and DISCARD that it writes is refused or acts. The codes of the refusals are recorded in this
order, one code once. -/
def shadowCtrlWrite (a : RegAcc) (s : State) : State :=
  match shadowOutput a.page with
  | none => s
  | some n =>
    if s.secretPage a then s.recRefused a
    else
      let g := s.written a F.SHADOW_CTRL_GROUP
      let d := s.written a F.SHADOW_CTRL_DISCARD
      let gr := if g then s.groupRefusal a n else none
      let dr := if d && s.pageArmed a.page.base then some 0x0303 else none
      let s1 := (gr.toList ++ dr.toList).eraseDups.foldl (fun t c => t.recAcc a c) s
      let s2 := if g && gr.isNone then s1.groupMove a n else s1
      if d && dr.isNone then s2.discardPage a n else s2

/-! ## OWNER and CHKj_OWNER (R52 to R55) -/

/-- Whether frame f of a VF holds a page other than `self`, or check-region blocks of a page other than `chk`. -/
def frameTaken (s : State) (fn f : Nat) (self : Option Page) (chk : Option Nat) : Bool :=
  delegablePages.any fun pg =>
    match pg with
    | .chk m => chk != some m && (List.range 16).any fun j => s.chkHeld m j fn f
    | _ => some pg != self && s.inFrame fn f pg

/-- Discard what a function staged and latched in a page (R55). -/
def forgetStaged (s : State) (fn : Nat) (lo hi : Nat) : State :=
  let inside := fun (k : Nat) => decide (lo ≤ k) && decide (k < hi)
  { s with
    staged := s.staged.filter fun l => !(l.fn == fn && inside l.key)
    latched := s.latched.filter fun l => !(l.fn == fn && inside l.key) }

/-- The refusals of R52 for an OWNER value. -/
def ownerRefusal (s : State) (pg : Page) (v : Nat) : Option Nat :=
  let fn := bits 23 16 v
  let deleg := bit 8 v
  let conflict : Bool := match pg with | .chk _ => false | _ => s.frameTaken fn (bits 3 0 v) (some pg) none
  if deleg ∧ !bit 29 (s.rw (pg.key 0x004)) then some 0x000A
  else if deleg ∧ (!isVf fn ∨ bits 3 0 v = 0) then some 0x0006
  else if deleg ∧ bit 31 v then some 0x0006
  else if deleg ∧ conflict then some 0x0203
  else if s.pageArmed pg.base then some 0x0303
  else none

/-- Bits that OWNER holds. -/
def ownerBits (v : Nat) : Nat := Nat.land v 0x80FF_310F

/-- The latch frame that a mirrored write to a page of output n carries (R388): the frame whose latched copy first holds it. -/
def latchFrame (s : State) (pg : Page) : Nat :=
  match shadowOutput pg with
  | some n => if (s.disp n).running then (s.fld (.scn n) F.SCN_SEQ_SEQ + 1) % 2 ^ 32 else 0
  | none => 0

/-- Whether an OWNER value takes a page or region block out of the frame it is in: it clears DELEGATE or changes FUNCTION (R55). -/
def leavesFrame (old new : Nat) : Bool := (bit 8 old && !bit 8 new) || bits 23 16 old != bits 23 16 new

/-- An OWNER value takes effect: when the page leaves its frame, events pending for the old function of a delegated page are delivered
first, and what that function staged and latched in the page is discarded (R55). -/
def ownerApply (s : State) (pg : Page) (new : Nat) : State :=
  let old := s.rw (pg.key 0x02C)
  let s1 := if leavesFrame old new && bit 8 old && s.evtPend pg != 0 then s.pageMsg pg else s
  let s2 := if leavesFrame old new then s1.forgetStaged (bits 23 16 old) pg.base (pg.base + 0x1000) else s1
  s2.setRw (pg.key 0x02C) new

/-- The same for CHKj_OWNER; a region whose FUNCTION changes is released no more (R207). -/
def chkOwnerApply (s : State) (n j : Nat) (new : Nat) : State :=
  let k := (Page.chk n).key (0x100 + 0xC0 * j)
  let old := s.rw k
  let s1 := if leavesFrame old new && bit 8 old && s.chkPend n j != 0 then s.chkMsg n j else s
  let s2 := if leavesFrame old new then s1.forgetStaged (bits 23 16 old) k (k + 0xC0) else s1
  let rel := if bits 23 16 old = bits 23 16 new then s2.display.released
    else s2.display.released.filter (· != 128 + n * 16 + j)
  ({ s2 with display := { s2.display with released := rel } }).setRw k new

/-- A secure write of OWNER (R52, R55, R207); a VF control page's OWNER is fixed (R130). -/
def ownerWrite (a : RegAcc) (s : State) : State :=
  let old := s.rw (a.page.key 0x02C)
  let new := ownerBits a.val
  if !s.writesAny a then s
  else if !a.req.secure then s.denyReg a
  else
    match a.page with
    | .vf _ => s.recAcc a 0x000A
    | _ =>
      match s.ownerRefusal a.page new with
      | some code => s.recAcc a code
      | none =>
        let s1 := mirrorWrite s (s.ownerApply a.page new) a (s.latchFrame a.page) 0
        match a.page with
        -- on a device in the standby role the release arrives as COMMIT_ARM (R201, R204)
        | .slot n k => if bits 23 16 old ≠ bits 23 16 new ∧ !s.standby then s1.releaseSlot n k else s1
        | _ => s1

/-- A secure write of CHKj_OWNER (R54). -/
def chkOwnerWrite (a : RegAcc) (s : State) : State :=
  match a.page, chkRegion a.off with
  | .chk n, some j =>
    let new := ownerBits a.val
    let fn := bits 23 16 new
    let refusal : Option Nat :=
      if bit 8 new ∧ (!isVf fn ∨ bits 3 0 new = 0) then some 0x0006
      else if bit 8 new ∧ bit 31 new then some 0x0006
      else if bit 8 new ∧ s.frameTaken fn (bits 3 0 new) none (some n) then some 0x0203
      else if s.pageArmed a.page.base then some 0x0303 else none
    if !s.writesAny a then s
    else if !a.req.secure then s.denyReg a
    else
      match refusal with
      | some code => s.recAcc a code
      | none => mirrorWrite s (s.chkOwnerApply n j new) a (s.latchFrame a.page) 0
  | _, _ => s

/-- A word that is CHKj_OWNER. -/
def isChkOwner (a : RegAcc) : Bool := match a.page with | .chk _ => F.CHK_OWNER_WORLD.hits a.off | _ => false

/-- CHKj_OWNER as the token holder wrote it (R384). -/
def chkOwnerTaken (s : State) (a : RegAcc) : State :=
  match a.page, chkRegion a.off with
  | .chk n, some j => s.chkOwnerApply n j (ownerBits a.val)
  | _, _ => s

/-- A word of a region's event registers or route. -/
def isChkEvent (rel : Nat) (a : RegAcc) : Bool :=
  match a.page, chkRegion a.off with
  | .chk _, some j => a.off == 0x100 + 0xC0 * j + rel
  | _, _ => false

end State

/-! ## The commands -/

def execEvtRawClear (w : RegWr) (s : State) : Host.Outcome State Fault Refusal :=
  .next (s.accessAt w (fun a => a.off == 0x010 || State.isChkEvent 0x2C a)
    fun a t => if a.off = 0x010 then t.evtRawWrite a else t.chkEventWrite a)

def execEvtSetWrite (w : RegWr) (s : State) : Host.Outcome State Fault Refusal :=
  .next (s.accessAt w (fun a => a.off == 0x01C) State.evtSetWrite)

def execEvtEnWrite (w : RegWr) (s : State) : Host.Outcome State Fault Refusal :=
  .next (s.accessAt w (fun a => a.off == 0x014 || State.isChkEvent 0x30 a)
    fun a t => if a.off = 0x014 then t.evtEnWrite a else t.chkEventWrite a)

def execErrCodeClear (w : RegWr) (s : State) : Host.Outcome State Fault Refusal :=
  .next (s.accessAt w (fun a => a.off == 0x020) State.errClear)

def execShadowGroupWrite (w : RegWr) (s : State) : Host.Outcome State Fault Refusal :=
  .next (s.accessAt w (fun a => a.off == 0x028) State.shadowCtrlWrite)

def execShadowDiscard (w : RegWr) (s : State) : Host.Outcome State Fault Refusal :=
  .next (s.accessAt w (fun a => a.off == 0x028 && bit 16 a.val) State.shadowCtrlWrite)

def execChkOwnerWrite (w : RegWr) (s : State) : Host.Outcome State Fault Refusal :=
  .next (s.accessAt w State.isChkOwner State.chkOwnerWrite)

end Sys2Proof.Machine
end

