-- ==== Sys2Proof/Machine/Ctrl.lean ====
section
/-! DEFINITION. PG_CTRL as every page shares it (R44, R46, R47, R106): the refusals of a write, and what a soft reset
returns to its reset value. What ENABLE and a soft reset do to a block is each block's own. -/

namespace Sys2Proof.Machine

namespace State

/-- The page offset of a register key. -/
def keyPage (k : Nat) : Nat :=
  let a := if k < 0x1_0000_0000 then k else (k - 0x1_0000_0000) / 0x100000
  a / 0x1000 * 0x1000

/-- Header words that a soft reset keeps: SHADOW_CTRL.GROUP, OWNER, EVT_EN, EVT_ROUTE (R46). -/
def keptWord (k : Nat) : Bool :=
  decide (k < 0x1_0000_0000) && (k % 0x1000 == 0x028 || k % 0x1000 == 0x02C || k % 0x1000 == 0x014 || k % 0x1000 == 0x030)

/-- Return the registers and shadows of a page to their reset values (R46); `keep` names further keys that keep theirs. -/
def resetPage (s : State) (pg : Page) (keep : Nat → Bool := fun _ => false) : State :=
  let mine := fun (k : Nat) => keyPage k == pg.base && !keptWord k && !keep k
  let lock := s.fld pg F.PG_CTRL_LOCK
  let load := (s.loaded.filter fun p => mine p.1).reverse
  let s1 := { s with
    regs := s.regs.filter fun p => !mine p.1
    shad := s.shad.filter fun p => !mine p.1
    faults := { s.faults with stopped := s.faults.stopped.filter (· != pg.base) } }
  let s2 := load.foldl (fun t p => (t.setRw p.1 p.2.toNat).setSw p.1 p.2.toNat) s1
  let s3 := s2.setFld pg F.PG_CTRL_LOCK lock
  s3.setFld pg F.PG_STAT_ENABLED (s3.fld pg F.PG_CTRL_ENABLE)

/-- The held group that refuses a normal-world stop of a page (R106). -/
def pageHeld (s : State) (a : RegAcc) : Option Nat :=
  match a.page.group with
  | some g => s.holdRefuses a.req [g]
  | none => none

/-- The ENABLE part of a write of PG_CTRL: ENABLE = 1 ungates the island that holds the page first (R406). -/
def ctrlEnable (s : State) (a : RegAcc) (granted : Bool) (enable : Bool → State → State) : State :=
  if !granted then s else if bit 0 a.val then enable true (s.ungatePage a.page) else enable false s

/-- The SOFT_RESET part: refused while the page is armed. -/
def ctrlReset (s : State) (a : RegAcc) (granted : Bool) (reset : State → State) : State :=
  if !granted then s else if s.pageArmed a.page.base then s.recAcc a 0x0303 else reset s

/-- The LOCK and UNLOCK parts. -/
def ctrlLock (s : State) (a : RegAcc) (lock unlock : Bool) : State :=
  let s1 := if lock then s.setFld a.page F.PG_CTRL_LOCK 1 else s
  if unlock then s1.setFld a.page F.PG_CTRL_LOCK 0 else s1

/-- A write of PG_CTRL: refused fields are recorded, a stop of a held group is refused as a whole, a soft reset of an armed
page records COMMIT_BUSY; otherwise ENABLE, SOFT_RESET, LOCK and UNLOCK act in this order. -/
def ctrlWrite (a : RegAcc) (enable : Bool → State → State) (reset : State → State) (s : State) : State :=
  let en := s.grants a F.PG_CTRL_ENABLE
  let sr := s.grants a F.PG_CTRL_SOFT_RESET
  let lk := s.grants a F.PG_CTRL_LOCK
  let ul := s.grants a F.PG_CTRL_UNLOCK
  let s0 := s.recRefused a
  match (if (en && !bit 0 a.val) || sr then s.pageHeld a else none) with
  | some g => s0.recErr a.page 0x0202 (s.holdInfo g a.req.fn)
  | none =>
    let s2 := (s0.ctrlEnable a en enable).ctrlReset a sr reset
    let s4 := s2.ctrlLock a lk ul
    -- LOCK is mirrored also when no other bit of the write is (R384)
    if lk || ul then
      (if s4.pair.ordered.length = s.pair.ordered.length then
        mirrorWrite s s4 { a with val := a.val - a.val % 4 + s4.fld a.page F.PG_CTRL_ENABLE } 0 0 else s4)
    else s4

/-- ENABLE of a block whose chapter gives it no work of its own: the field and PG_STAT.ENABLED follow the write. A block that a contained fault
has stopped needs a soft reset first (R472). -/
def plainEnable (pg : Page) (on : Bool) (s : State) : State :=
  (s.setFld pg F.PG_CTRL_ENABLE (b2n on)).setFld pg F.PG_STAT_ENABLED (b2n (on && !s.faults.stopped.contains pg.base))

/-- ENABLE of a mirrored page, with the latch frame that R388 carries. -/
def mirroredEnable (a : RegAcc) (on : Bool) (s : State) : State :=
  mirrorWrite s (plainEnable a.page on s) a (s.latchFrame a.page) 0

end State

end Sys2Proof.Machine
end

