-- ==== Sys2Proof/Machine/HostPorts.lean ====
section
/-! DEFINITION. Queue registers, doorbells, peer accesses, coalesced messages, the manager role, and the queue commands
NOP and FN_QUERY (R111 to R126, R59). The resets of functions stand in FnReset.lean. -/

namespace Sys2Proof.Machine

/-- The function, queue number and relative offset of a queue-block word. -/
def queueWord (a : RegAcc) : Option (Nat × Nat × Nat) :=
  match a.page with
  | .hp p => if 0x200 ≤ a.off ∧ a.off < 0x400 then some (0x80 * p, (a.off - 0x200) / 0x40, a.off % 0x40) else none
  | .vf fn => if 0x100 ≤ a.off ∧ a.off < 0x200 then some (fn, (a.off - 0x100) / 0x40, a.off % 0x40) else none
  | _ => none

/-- Whether a word is a given register of a queue block. -/
def isQueueWord (rel : Nat) (a : RegAcc) : Bool :=
  match queueWord a with | some (_, _, r) => r == rel | none => false

/-- Port of a function. -/
def portOf (fn : Nat) : Nat := fn / 0x80

/-- Code of a function's state in HP_FN_STAT. -/
def fnStateCode : FnState → Nat
  | .absent => 0
  | .enabled => 1
  | .resetting => 2
  | .held => 3

/-- A function that has never been enabled. -/
def absentFn : Fn where
  state := .absent
  bme := false
  heldState := false
  cause := 0
  squashed := 0
  timeUs := 0
  step := 0
  bus := false
  hostOk := false
  startNs := 0
  fromHeld := false
  fromAbsent := false
  linkDown := false
  waiters := []
  aborted := []
  hpPage := false

namespace State

def fn (s : State) (f : Nat) : Fn := (Sparse.find s.hosts.fns f).getD absentFn

def setFn (s : State) (f : Nat) (x : Fn) : State :=
  { s with hosts := { s.hosts with fns := Sparse.put s.hosts.fns f x } }

/-- The queue-error event of the page that holds the queue (R115). -/
def queueErrorEvt (s : State) (fn : Nat) : State := if isPf fn then s.event (qPage fn) 5 else s.event (qPage fn) 0

/-- Move a queue to ERROR with a code (R115). -/
def queueError (s : State) (fn q code info : Nat) : State :=
  ((s.setQueue fn q { s.queue fn q with state := .error }).recErr (qPage fn) code info).queueErrorEvt fn

/-- Discard the final completions a queue still owes, and stop it (R115). -/
def queueToIdle (s : State) (fn q : Nat) : State :=
  (s.setQueue fn q { s.queue fn q with state := .idle, held := [] }).keepJobs fun j => !(j.fn == fn && j.q == q && j.stage == .owed)

/-- Free SQ entries: the ring holds its size less one (R114). -/
def sqFree (s : State) (fn q : Nat) : Nat :=
  let x := s.queue fn q
  let n := s.sqSize fn q
  n - 1 - (x.sqTail + n - x.sqHead) % n

/-- An SQ doorbell (R115). -/
def sqDoorbell (s : State) (fn q tail info : Nat) : State :=
  let x := s.queue fn q
  if s.fnState fn = .resetting then s
  else if s.power.state = .fallow then
    { s with power := { s.power with doorbells := s.power.doorbells ++ [(fn, q, tail, info)] } }
  else
    match x.state with
    | .idle => s.recErr (qPage fn) 0x000A info
    | .draining => s
    | .error => s
    | .running =>
      let n := s.sqSize fn q
      if n ≤ tail then s.queueError fn q 0x0006 info
      else if s.sqFree fn q < (tail + n - x.sqTail) % n then s.queueError fn q 0x0601 info
      else s.setQueue fn q { x with sqTail := tail }

/-- A CQ doorbell (R115, R116). -/
def cqDoorbell (s : State) (fn q head info : Nat) : State :=
  let x := s.queue fn q
  let n := s.cqSize fn q
  let bad := decide (n ≤ head) || decide (s.unconsumed fn q < (head + n - x.cqHead) % n)
  if s.fnState fn = .resetting then s
  else
    match x.state with
    | .idle => s.recErr (qPage fn) 0x000A info
    | .error => s
    | .running => if bad then s.queueError fn q 0x0006 info else (s.setQueue fn q { x with cqHead := head }).releaseHeld fn q
    | .draining =>
      if bad then (s.recErr (qPage fn) 0x0006 info).queueErrorEvt fn
      else ((s.setQueue fn q { x with cqHead := head }).releaseHeld fn q).drainCheck fn q

/-- A doorbell word written by its function's host; on a page of the secure world a normal-world doorbell is a refused secure field (R51). -/
def doorbellWrite (a : RegAcc) (s : State) : State :=
  if s.secretPage a then s.recRefused a
  else
  match queueWord a with
  | some (fn, q, 0x20) => s.sqDoorbell fn q (a.val % 4096) a.info
  | some (fn, q, 0x24) => s.cqDoorbell fn q (a.val % 4096) a.info
  | _ => s

/-- The refusals of setting ENABLE (R114). -/
def queueRefusal (s : State) (fn q vec : Nat) : Option Nat :=
  let sq := s.sqSize fn q
  let cq := s.cqSize fn q
  if sq = 0 ∨ cq = 0 then some 0x0002
  else if sq = 1 ∨ cq = 1 ∨ 4096 < sq ∨ 4096 < cq then some 0x0006
  else if vectors fn ≤ vec then some 0x0603
  else none

/-- ENABLE written 1 (R114, R115). -/
def queueEnable (s : State) (fn q : Nat) (a : RegAcc) : State :=
  match (s.queue fn q).state with
  | .idle =>
    match s.queueRefusal fn q (bits 7 2 a.val) with
    | some code => s.recAcc a code
    | none =>
      (s.setFld (qPage fn) (qFld fn F.Q_CTRL_ENABLE) 1 [q]).setQueue fn q { idleQueue with state := .running, phase := true }
  | .draining => s.recAcc a 0x000A
  | _ => s

/-- ENABLE written 0 (R115). -/
def queueDisable (s : State) (fn q : Nat) : State :=
  let x := s.queue fn q
  let s1 := s.setFld (qPage fn) (qFld fn F.Q_CTRL_ENABLE) 0 [q]
  match x.state with
  | .running | .error =>
    if s.uncompleted fn q = 0 then s1.queueToIdle fn q else s1.setQueue fn q { x with state := .draining }
  | _ => s1

/-- Q_CTRL: ENABLE starts or drains the queue, the other fields are ordinary. -/
def qCtrlWrite (a : RegAcc) (s : State) : State :=
  match queueWord a with
  | some (fn, q, _) =>
    let en := qFld fn F.Q_CTRL_ENABLE
    let turn := s.grants a en
    let s1 := s.plainWrite a (· != en)
    if turn then (if bit 0 a.val then s1.queueEnable fn q a else s1.queueDisable fn q) else s1
  | none => s

/-- Base and size words: refused while the queue is not IDLE (R114). -/
def qSetupWrite (a : RegAcc) (s : State) : State :=
  match queueWord a with
  | some (fn, q, _) =>
    if (s.queue fn q).state ≠ .idle then s.refuse a 0x000A else s.plainWrite a
  | none => s

/-- A peer's TLP (R111): a doorbell of the function it reaches is accepted, any other write dropped and counted, a read
answered with zero. A requester that counts as the host is no peer. -/
def peerAccess (s : State) (fn rid off : Nat) (wr : Option Word32) : State :=
  let p := Page.hp (portOf fn)
  if !s.flag p F.HP_HOST_RID_VALID ∨ s.fld p F.HP_HOST_RID_RID = rid then s
  else
    match wr with
    | none => s.emit (.readData fn 0)
    | some v =>
      let o := if isPf fn then off - (qPage fn).base else off
      let inPage := if isPf fn then decide ((qPage fn).base ≤ off) && decide (off < (qPage fn).base + 0x1000) else decide (off < 0x1000)
      let a : RegAcc := ⟨qPage fn, o, ⟨fn, false⟩, v.toNat, false⟩
      if inPage && (isQueueWord 0x20 a || isQueueWord 0x24 a) then doorbellWrite a s
      else (s.satFld p F.HP_PEER_DROP_COUNT 1).event p 4

/-- COAL_TIME µs have passed since the oldest unsignalled completion (R126). -/
def coalesceTimeout (s : State) (fn q : Nat) : State :=
  let x := s.queue fn q
  if x.unsignalled = 0 ∨ s.now < x.oldest + 1000 * s.qf fn q F.Q_CTRL_COAL_TIME then s else s.signalQueue fn q

/-- HP_FN_STAT of a function. -/
def fnStat (s : State) (f : Nat) : Nat :=
  let x := s.fn f
  let qs := ((List.range (queueCount f)).filter fun q => (s.queue f q).state == .running || (s.queue f q).state == .error).length
  fnStateCode x.state + b2n x.bme * 4 + b2n x.heldState * 8 + qs * 16

/-- FN_QUERY (R122). -/
def carryFnQuery (j : Job) (s : State) : State :=
  let f := j.p 0
  if !(isPf f || isVf f) ∨ f = j.fn then s.complete j.jid 0x0006
  else s.complete j.jid 0 [s.fnStat f, s.usedPlots f, s.chanCount f]

/-- NOP (R120). -/
def carryNop (j : Job) (s : State) : State := s.complete j.jid 0

/-- HP_MGR.ROLE: a secure write of 1 moves the role, a write of 0 is refused (R113, R131). -/
def mgrRoleWrite (a : RegAcc) (s : State) : State :=
  match a.page with
  | .hp p =>
    if s.grants a F.HP_MGR_ROLE then
      (if bit 0 a.val then (s.setFld (.hp p) F.HP_MGR_ROLE 1).setFld (.hp (1 - p)) F.HP_MGR_ROLE 0 else s.recAcc a 0x0006)
    else s.recRefused a
  | _ => s

/-- The messages of a function that waited for it to be enabled, of unmasked vectors, are delivered (R59). -/
def deliverPending (s : State) (fn : Nat) : State :=
  if s.fnState fn = .enabled then
    let go := s.hosts.msiPending.filter fun v => v.1 == fn && s.hosts.unmasked.contains v
    go.foldl (fun t v => t.emit (.message v.1 v.2))
      { s with hosts := { s.hosts with msiPending := s.hosts.msiPending.filter fun v => !go.contains v } }
  else s

/-- The host unmasks a vector: a message held pending for it is delivered (R59). -/
def unmask (s : State) (fn vec : Nat) : State :=
  if vectors fn ≤ vec ∨ fn = 0x40 ∨ fn = 0x41 then s
  else
    let un := if (fn, vec) ∈ s.hosts.unmasked then s.hosts.unmasked else s.hosts.unmasked ++ [(fn, vec)]
    let s1 := { s with hosts := { s.hosts with unmasked := un } }
    if (fn, vec) ∈ s.hosts.msiPending ∧ s.fnState fn = .enabled then
      let s2 := { s1 with hosts := { s1.hosts with msiPending := s1.hosts.msiPending.filter (· != (fn, vec)) } }
      s2.emit (.message fn vec)
    else s1

end State

/-! ## The commands -/

def execSqDoorbell (w : RegWr) (s : State) : Host.Outcome State Fault Refusal :=
  .next (s.accessAt w (isQueueWord 0x20) State.doorbellWrite)

def execCqDoorbell (w : RegWr) (s : State) : Host.Outcome State Fault Refusal :=
  .next (s.accessAt w (isQueueWord 0x24) State.doorbellWrite)

def execQueueEnable (w : RegWr) (s : State) : Host.Outcome State Fault Refusal :=
  .next (s.accessAt w (fun a => isQueueWord 0x14 a && bit 0 a.val) State.qCtrlWrite)

def execQueueDisable (w : RegWr) (s : State) : Host.Outcome State Fault Refusal :=
  .next (s.accessAt w (fun a => isQueueWord 0x14 a && !bit 0 a.val) State.qCtrlWrite)

def execPeerAccess (fn rid off : Nat) (wr : Option Word32) (s : State) : Host.Outcome State Fault Refusal :=
  .next (s.peerAccess fn rid off wr)

def execCoalesceTimeout (fn q : Nat) (s : State) : Host.Outcome State Fault Refusal := .next (s.coalesceTimeout fn q)

def execNop (c : CmdArgs) (s : State) : Host.Outcome State Fault Refusal := .next (s.command 0x00 c State.carryNop)

def execFnQuery (c : CmdArgs) (s : State) : Host.Outcome State Fault Refusal :=
  .next (s.command 0x41 c State.carryFnQuery)

def execHpMgrRoleWrite (w : RegWr) (s : State) : Host.Outcome State Fault Refusal :=
  .next (s.accessAt w (fun a => match a.page with | .hp _ => F.HP_MGR_ROLE.hits a.off | _ => false) State.mgrRoleWrite)

def execMsixVectorUnmask (fn vec : Nat) (s : State) : Host.Outcome State Fault Refusal := .next (s.unmask fn vec)

end Sys2Proof.Machine
end

