-- ==== Sys2Proof/Machine/Ingest.lean ====
section
/-! DEFINITION. Ingest engines: acceptance, start, tile by tile work, errors and soft reset (R147 to R157). The host memory
that an engine reads is an operand of the event that ends the command. -/

namespace Sys2Proof.Machine

/-- A byte of the host memory image that an event supplies; unlisted bytes read 0. -/
def hostByte (m : List (Nat × Byte)) (a : Nat) : Nat := (Sparse.get memDefault m a).toNat

/-- n bytes of host memory, little-endian. -/
def hostN (m : List (Nat × Byte)) (a : Nat) : Nat → Nat
  | 0 => 0
  | n + 1 => hostByte m a + 256 * hostN m (a + 1) n

namespace IngCmd

/-- The planes of the command. -/
def planes (c : IngCmd) : List Seedbed.Plane := (Seedbed.planes c.format).getD []

/-- Source address and pitch of a plane. -/
def src (c : IngCmd) (p : Nat) : Nat := if p = 0 then c.src0 else c.src1

def pitch (c : IngCmd) (p : Nat) : Nat := if p = 0 then c.pitch0 else c.pitch1

/-- Host address of element (x, y) of plane p: linear rows, or tiles as in R135 with each tile row at a multiple of the
pitch (R147). -/
def elemAddr (c : IngCmd) (p : Nat) (pl : Seedbed.Plane) (x y : Nat) : Nat :=
  if c.srcTiled then
    c.src p + y / pl.tileH * c.pitch p + x / pl.tileW * 256 + (y % pl.tileH * pl.tileW + x % pl.tileW) * pl.bytes
  else c.src p + y * c.pitch p + x * pl.bytes

/-- The elements of tile (tx, ty), padding zero, XRGB8888 made opaque inside the surface (R133, R136). -/
def tile (c : IngCmd) (host : List (Nat × Byte)) (p : Nat) (pl : Seedbed.Plane) (tx ty : Nat) : List Nat :=
  let ew := Seedbed.planeW c.format p c.width
  let eh := Seedbed.planeH c.format p c.height
  (List.range pl.count).map fun i =>
    let x := tx * pl.tileW + i % pl.tileW
    let y := ty * pl.tileH + i / pl.tileW
    if x < ew ∧ y < eh then
      let v := hostN host (c.elemAddr p pl x y) pl.bytes
      if c.format = 0x02 then v % 2 ^ 24 + 0xFF * 2 ^ 24 else v
    else 0

/-- Tile columns and rows of plane p that the widened region covers (R149): first, and one past the last. -/
def span (c : IngCmd) (p : Nat) (pl : Seedbed.Plane) : (Nat × Nat) × (Nat × Nat) :=
  let ew := Seedbed.planeW c.format p c.width
  let eh := Seedbed.planeH c.format p c.height
  let alignX := if c.format = 0x05 then 16 else pl.tileW
  let alignY := if c.format = 0x05 then 32 else pl.tileH
  let x0 := c.rectX / alignX * alignX
  let x1 := (c.rectX + c.rectW + alignX - 1) / alignX * alignX
  let y0 := c.rectY / alignY * alignY
  let y1 := (c.rectY + c.rectH + alignY - 1) / alignY * alignY
  let sub := if c.format = 0x05 ∧ p = 1 then 2 else 1
  ((x0 / sub / pl.tileW, min ((x1 / sub + pl.tileW - 1) / pl.tileW) (pl.cols ew)),
   (y0 / sub / pl.tileH, min ((y1 / sub + pl.tileH - 1) / pl.tileH) (pl.rows eh)))

/-- The tiles of the command in working order: plane, column, row (R151). -/
def work (c : IngCmd) : List (Nat × Seedbed.Plane × Nat × Nat) :=
  (c.planes.zipIdx).flatMap fun (pl, p) =>
    let ((x0, x1), (y0, y1)) := c.span p pl
    (List.range (y1 - y0)).flatMap fun dy => (List.range (x1 - x0)).map fun dx => (p, pl, x0 + dx, y0 + dy)

/-- Host bytes that a tile needs. -/
def tileBytes (c : IngCmd) (p : Nat) (pl : Seedbed.Plane) (tx ty : Nat) : Nat :=
  let ew := Seedbed.planeW c.format p c.width
  let eh := Seedbed.planeH c.format p c.height
  min pl.tileW (ew - tx * pl.tileW) * min pl.tileH (eh - ty * pl.tileH) * pl.bytes

end IngCmd

namespace State

def engine (s : State) (n : Nat) : IngEngine := (Sparse.find s.ingest.engines n).getD ⟨[], []⟩

def setEngine (s : State) (n : Nat) (e : IngEngine) : State :=
  { s with ingest := { s.ingest with engines := Sparse.put s.ingest.engines n e } }

/-- Keep BLOCK_STAT.ACTIVE and QUEUED, and let PG_STAT.ENABLED fall after the last command of a disabled engine (R157). -/
def ingStat (s : State) (n : Nat) : State :=
  let e := s.engine n
  let s1 := (s.setFld (.ing n) F.ING_BS_ACTIVE e.slots.length).setFld (.ing n) F.ING_BS_QUEUED e.waiting.length
  if s.flag (.ing n) F.PG_CTRL_ENABLE then s1
  else if e.slots.isEmpty && e.waiting.isEmpty then s1.setFld (.ing n) F.PG_STAT_ENABLED 0 else s1

/-- DRAM address of byte b of a buffer (R63). -/
def bufAddr (s : State) (i b : Nat) : Nat :=
  match s.buf i with
  | some x => s.plotAddr (x.plots.getD (b / 65536) 0) + b % 65536
  | none => 0

/-- Queue the mirror item of words written to a buffer, and take the buffer's mirror fence with the first (R80, R384). -/
def mirrorWords (s : State) (i b words fn : Nat) (world : Bool) : State :=
  if s.mirrors then
    match s.buf i with
    | some x =>
      let out := Sparse.get (fun _ => 0) s.pair.mirrorFence i
      let s1 := if out = 0 then s.fence i else s
      let s2 := { s1 with pair := { s1.pair with mirrorFence := Sparse.set (fun _ => 0) s1.pair.mirrorFence i (out + words) } }
      s2.mirror (.pool i (x.plots.getD (b / 65536) 0) (b % 65536 / 16) words fn world)
    | none => s
  else s

/-- Bytes of mirror data queued and not sent (PLK_MIRROR_QUEUED). -/
def mirrorQueued (s : State) : Nat :=
  (s.pair.ordered.map fun x => match x with | .pool _ _ _ w _ _ => 16 * w | _ => 0).sum

/-- Write words of a buffer for a requester in order, each checked (R91); the count written, and whether none was refused. -/
def writeBuf (s : State) (who : Attr) (i b : Nat) : List Nat → Nat × Bool × State
  | [] => (0, true, s)
  | w :: r =>
    match s.writeWordAs who (s.bufAddr i b) w with
    | (false, s1) => (0, false, s1)
    | (true, s1) =>
      let (n, okay, s2) := (s1.mirrorWords i b 1 who.fn who.world).writeBuf who i (b + 16) r
      (n + 1, okay, s2)

/-- Write a 64-bit metadata entry of a buffer. -/
def writeMeta (s : State) (who : Attr) (i b entry : Nat) : Bool × State :=
  match s.guardDram who true (s.bufAddr i b) with
  | (true, s1) => (true, ((s1.pokeBytes (s1.bufAddr i b) 8 entry).pmcCount 0x02 who.fn who.world true 1).mirrorWords i (b / 16 * 16) 1 who.fn who.world)
  | (false, s1) => (false, s1)

/-- Attribute of an engine acting for a function (R87), on INGEST_A or INGEST_B (R270). -/
def ingAttr (s : State) (n fn : Nat) : Attr := ⟨fn, fn == 0x41, s.fnCrit fn, if n < 2 then 2 else 3, false, false⟩

/-- Count words that an engine has written. -/
def ingNote (s : State) (n fn words : Nat) : State :=
  (s.addCnt (.ing n) F.ING_POOL_WORDS_LO_COUNT_LO F.ING_POOL_WORDS_HI_COUNT_HI words).pmcCount 0x05 fn (fn == 0x41) true words

/-- Write one encoded tile: its words, then its metadata entry (R148, R153). -/
def ingSeedTile (s : State) (n : Nat) (c : IngCmd) (who : Attr) (base : Nat × Nat) (idx : Nat) (enc : Seedbed.Encoded) : IngCmd × Bool × State :=
  let (k, okay, s1) := s.writeBuf who c.buf (base.1 + 256 * idx) enc.words
  let c1 := { c with words := c.words + k }
  if okay then
    match s1.writeMeta who c.buf (base.2 + 8 * idx) enc.entry with
    | (true, s2) =>
      let s3 := (s2.ingNote n c.fn (k + 1)).addCnt (.ing n) F.ING_TILES_LO_COUNT_LO F.ING_TILES_HI_COUNT_HI 1
      ({ c1 with tiles := c1.tiles + 1 }, true, s3.addFld (.ing n) F.ING_MODE_COUNT 1 [enc.mode])
    | (false, s2) => (c1, false, s2.ingNote n c.fn k)
  else (c1, false, s1.ingNote n c.fn k)

/-- Write one tile as it is (R148). -/
def ingPlainTile (s : State) (n : Nat) (c : IngCmd) (who : Attr) (addr : Nat) (ws : List Nat) : IngCmd × Bool × State :=
  let (k, okay, s1) := s.writeBuf who c.buf addr ws
  let c1 := { c with words := c.words + k }
  if okay then
    ({ c1 with tiles := c1.tiles + 1 }, true,
      (s1.ingNote n c.fn k).addCnt (.ing n) F.ING_TILES_LO_COUNT_LO F.ING_TILES_HI_COUNT_HI 1)
  else (c1, false, s1.ingNote n c.fn k)

/-- Carry out one tile (R151): whole tile read first, data words next, metadata entry or word 15 last. -/
def ingTile (s : State) (n : Nat) (c : IngCmd) (host : List (Nat × Byte)) (t : Nat × Seedbed.Plane × Nat × Nat) :
    IngCmd × Bool × State :=
  let (p, pl, tx, ty) := t
  let es := c.tile host p pl tx ty
  let who := s.ingAttr n c.fn
  let base := ((Seedbed.layout c.format c.width c.height c.seedbed).1.getD p (0, 0))
  let idx := ty * pl.cols (Seedbed.planeW c.format p c.width) + tx
  let s0 := s.addCnt (.ing n) F.ING_HOST_BYTES_LO_COUNT_LO F.ING_HOST_BYTES_HI_COUNT_HI (c.tileBytes p pl tx ty)
  if c.seedbed then s0.ingSeedTile n c who base idx (Seedbed.encode pl es)
  else s0.ingPlainTile n c who (base.1 + 256 * idx) (Seedbed.tiledWords pl es)

/-- Carry out tiles in order until one is refused. -/
def ingTiles (s : State) (n : Nat) (c : IngCmd) (host : List (Nat × Byte)) :
    List (Nat × Seedbed.Plane × Nat × Nat) → IngCmd × Bool × State
  | [] => (c, true, s)
  | t :: r =>
    match s.ingTile n c host t with
    | (c1, true, s1) => s1.ingTiles n c1 host r
    | (c1, false, s1) => (c1, false, s1)

/-- End a command: its slot is freed, its fence released, and it completes with the tiles and words written (R147, R155). -/
def ingEnd (s : State) (n slot : Nat) (c : IngCmd) (status : Nat) : State :=
  let e := s.engine n
  let s1 := s.setEngine n { e with slots := Sparse.del e.slots slot }
  ((s1.unfence c.buf).complete c.jid status [c.tiles, c.words]).ingStat n

/-- ERR_INFO of a code of an ING page (R154): function, slot, kind. -/
def ingInfo (c : IngCmd) (slot kind : Nat) : Nat := c.fn + slot * 2 ^ 8 + kind * 2 ^ 16

/-- The port whose host memory an ingest reads: that of its function, and that of the manager for the cores, with the requester ID of the
manager's PF0 (R147). -/
def ingPort (s : State) (c : IngCmd) : Nat := portOf (if c.fn = 0x40 ∨ c.fn = 0x41 then s.manager else c.fn)

/-- The host answers reads on a port: its link is up. -/
def hostAnswers (s : State) (p : Nat) : Bool := s.fld (.hp p) F.HP_LINK_SPEED != 0

/-- The last word of a command is written and visible (R155), or a write was refused on the way (R91). -/
def ingestDone (s : State) (n slot : Nat) (host : List (Nat × Byte)) : State :=
  match Sparse.find (s.engine n).slots slot with
  | none => s
  | some c =>
    -- while the mirror queue is at its limit, pool writes of ingest engines wait (R386); a host whose link is down answers no read
    if (s.mirrors ∧ 8388608 ≤ s.mirrorQueued) ∨ s.standby ∨ !s.hostAnswers (s.ingPort c) then s
    else
      match s.ingTiles n c host (c.work.drop c.tiles) with
      | (c1, true, s1) =>
        let s2 := { s1 with ingest := { s1.ingest with
          ended := s1.ingest.ended + 1, lastEnd := Sparse.put s1.ingest.lastEnd c.buf (s1.ingest.ended + 1) } }
        s2.ingEnd n slot c1 0
      | (c1, false, s1) => ((s1.event (.ing n) 1).recErr (.ing n) 0x0201 (ingInfo c slot 0)).ingEnd n slot c1 0x0201

/-- A host read fails after `tiles` further tiles have been written (R154). -/
def hostReadError (s : State) (n slot kind addr tiles : Nat) (host : List (Nat × Byte)) : State :=
  match Sparse.find (s.engine n).slots slot with
  | none => s
  | some c =>
    if c.work.length ≤ c.tiles + tiles ∨ s.standby then s
    else
    match s.ingTiles n c host ((c.work.drop c.tiles).take tiles) with
    | (c1, true, s1) =>
      let s2 :=
        if s1.fld (.ing n) F.ERR_CODE_CODE = 0 then
          (s1.setRw ((Page.ing n).key 0x070) (addr % 2 ^ 32)).setRw ((Page.ing n).key 0x074) (addr / 2 ^ 32)
        else s1
      ((s2.recErr (.ing n) 0x0702 (ingInfo c slot kind)).event (.ing n) 0).ingEnd n slot c1 0x0702
    | (c1, false, s1) => ((s1.event (.ing n) 1).recErr (.ing n) 0x0201 (ingInfo c slot 0)).ingEnd n slot c1 0x0201

/-- Row bytes of a plane of a linear source. -/
def rowBytes (format p w : Nat) (pl : Seedbed.Plane) : Nat := Seedbed.planeW format p w * pl.bytes

/-- The checks of R148, steps 3 to 7, on the parameter words; the code of the first that fails. -/
def ingestCheck (s : State) (i : Nat) (j : Job) : Option Nat :=
  let p1 := j.p 1
  let format := bits 7 0 p1
  let srcL := bits 9 8 p1
  let seed := bit 10 p1
  let eng := bits 15 12 p1
  let w := bits 15 0 (j.p 2)
  let h := bits 31 16 (j.p 2)
  let rx := bits 15 0 (j.p 3)
  let ry := bits 31 16 (j.p 3)
  let rw := bits 15 0 (j.p 4)
  let rh := bits 31 16 (j.p 4)
  let plots := ((s.buf i).map fun b => b.plots.length).getD 0
  let pls := (Seedbed.planes format).getD []
  let src := fun (p : Nat) => if p = 0 then j.p 5 + j.p 6 * 2 ^ 32 else j.p 8 + j.p 9 * 2 ^ 32
  let pitch := fun (p : Nat) => if p = 0 then j.p 7 else j.p 10
  let badPlane := fun (x : Seedbed.Plane × Nat) =>
    if srcL = 1 then
      decide (pitch x.2 < x.1.cols (Seedbed.planeW format x.2 w) * 256) || pitch x.2 % 256 != 0 || src x.2 % 256 != 0
    else
      let al := if format = 0x04 then 8 else 4
      decide (pitch x.2 < rowBytes format x.2 w x.1) || pitch x.2 % al != 0 || src x.2 % al != 0
  if bit 11 p1 ∨ bits 31 16 p1 ≠ 0 ∨ 2 ≤ srcL ∨ (4 ≤ eng ∧ eng ≤ 14) ∨ (rw = 0 ∧ rh = 0 ∧ (rx ≠ 0 ∨ ry ≠ 0)) then some 0x0006
  else if (Seedbed.planes format).isNone ∨ (format = 0x05 ∧ (w % 2 = 1 ∨ h % 2 = 1)) then some 0x0701
  else if w = 0 ∨ h = 0 ∨ (rw = 0 ∧ rh ≠ 0) ∨ (rw ≠ 0 ∧ rh = 0) then some 0x0002
  else if 8192 < w ∨ 8192 < h ∨ w < rx + rw ∨ h < ry + rh ∨ plots * 65536 < Seedbed.layoutSize format w h seed then some 0x0703
  else if pls.zipIdx.any badPlane ∨ (format ≠ 0x05 ∧ (src 1 ≠ 0 ∨ pitch 1 ≠ 0)) then some 0x0006
  else none

/-- The engine that an INGEST goes to (R150): the named one, or the enabled one with the fewest commands. -/
def ingestTarget (s : State) (p1 : Nat) : Option Nat :=
  let eng := bits 15 12 p1
  let load := fun (n : Nat) => (s.engine n).waiting.length + (s.engine n).slots.length
  let enabled := (List.range 4).filter fun n => s.flag (.ing n) F.PG_CTRL_ENABLE && !s.blockStopped (.ing n)
  let open_ := enabled.filter fun n => s.replaced != some (.ing n)
  if eng = 15 then open_.find? fun n => open_.all fun m => decide (load n ≤ load m)
  else if eng ∈ enabled then some eng
  else none

/-- The device does not take up an INGEST whose engine's waiting list is full, be the named engine enabled or not (R150), or whose engine is being
replaced (R460). -/
def ingestFull (s : State) (p1 : Nat) : Bool :=
  let eng := bits 15 12 p1
  match (if eng < 4 then some eng else s.ingestTarget p1) with
  | some n => decide (64 ≤ (s.engine n).waiting.length) || s.replaced == some (.ing n)
  | none => eng == 15 && (match s.replaced with | some (.ing _) => true | _ => false)

/-- INGEST: the checks of R148, then acceptance into the engine's waiting list with a fence (R150). -/
def carryIngest (j : Job) (s : State) : State :=
  match s.checkBuf j.fn (j.p 0) with
  | .error code => s.complete j.jid code [0, 0]
  | .ok i =>
    if s.bufKind i ≠ 1 then s.complete j.jid 0x0107 [0, 0]
    else
      match s.ingestCheck i j with
      | some code => s.complete j.jid code [0, 0]
      | none =>
        match s.ingestTarget (j.p 1) with
        | none =>
          let eng := bits 15 12 (j.p 1)
          s.complete j.jid (s.notRunning (if eng = 15 then (List.range 4).map Page.ing else [.ing eng])) [0, 0]
        | some n =>
          let w := bits 15 0 (j.p 2)
          let h := bits 31 16 (j.p 2)
          let whole := j.p 4 = 0
          let c : IngCmd := {
            jid := j.jid, seq := s.ingest.nextSeq, buf := i, handle := j.p 0, fn := j.fn
            format := bits 7 0 (j.p 1), srcTiled := bits 9 8 (j.p 1) == 1, seedbed := bit 10 (j.p 1)
            width := w, height := h
            rectX := bits 15 0 (j.p 3), rectY := bits 31 16 (j.p 3)
            rectW := if whole then w else bits 15 0 (j.p 4), rectH := if whole then h else bits 31 16 (j.p 4)
            src0 := j.p 5 + j.p 6 * 2 ^ 32, pitch0 := j.p 7, src1 := j.p 8 + j.p 9 * 2 ^ 32, pitch1 := j.p 10
            tiles := 0, words := 0 }
          let e := s.engine n
          let s1 := (s.fence i).setEngine n { e with waiting := e.waiting ++ [c] }
          ({ s1 with ingest := { s1.ingest with nextSeq := s1.ingest.nextSeq + 1 } }).ingStat n

/-- Every accepted ingest of the device. -/
def allIngests (s : State) : List IngCmd := s.ingest.engines.flatMap fun e => e.2.waiting ++ e.2.slots.map Prod.snd

/-- Whether an earlier-accepted ingest of the same buffer has not completed (R152). -/
def ingBlocked (s : State) (c : IngCmd) : Bool := s.allIngests.any fun d => d.buf == c.buf && decide (d.seq < c.seq)

/-- An engine starts, in a free slot, the oldest command that may start of the function that the weights choose (R124, R150,
R152). In the standby role the engines stay idle (R157). -/
def ingestStart (s : State) (n slot : Nat) : State :=
  let e := s.engine n
  if 8 ≤ slot ∨ (Sparse.find e.slots slot).isSome then s
  else
    let may := e.waiting.filter fun c => !s.ingBlocked c
    match s.pickFn (2 + n) ((List.range 256).filter fun f => may.any fun c => c.fn == f) with
    | (none, s1) => s1
    | (some f, s1) =>
      match (if s.standby then none else may.find? fun c => c.fn == f) with
      | none => s
      | some c =>
        ((s1.setEngine n ⟨e.waiting.filter fun d => d.seq != c.seq, Sparse.put e.slots slot c⟩).served (2 + n) f).ingStat n

/-- Squash the commands of an engine that a test names: fences are released; with `abort` each completes ABORTED with what
it wrote (R128, R157). -/
def ingSquash (s : State) (n : Nat) (which : IngCmd → Bool) (abort : Bool) : State :=
  let e := s.engine n
  let gone := e.slots.filterMap (fun p => if which p.2 then some p.2 else none) ++ e.waiting.filter which
  let s1 := s.setEngine n ⟨e.waiting.filter (fun c => !which c), e.slots.filter fun p => !which p.2⟩
  let s2 := gone.foldl (fun t c =>
    let u := t.unfence c.buf
    if abort then u.complete c.jid 0x0008 [c.tiles, c.words] else u) s1
  if gone.isEmpty then s2.ingStat n else (s2.event (.ing n) 2).ingStat n

/-- ING_CTRL: MAX_READS of 0 or above 64 is refused (R158). -/
def ingCtrlWrite (a : RegAcc) (s : State) : State :=
  let m := bits 14 8 a.val
  if s.written a F.ING_CTRL_MAX_READS ∧ (m = 0 ∨ 64 < m) then s.recAcc a 0x0006 else s.plainWrite a

end State

/-! ## The commands -/

def execIngest (c : CmdArgs) (s : State) : Host.Outcome State Fault Refusal :=
  .next (if s.ingestFull (c.params.getD 1 0) then s.keepEntry 0x10 c else s.command 0x10 c State.carryIngest)

def execIngestStart (engine slot : Nat) (s : State) : Host.Outcome State Fault Refusal := .next (s.ingestStart engine slot)

def execHostReadError (engine slot kind addr tiles : Nat) (host : List (Nat × Byte)) (s : State) :
    Host.Outcome State Fault Refusal :=
  .next (s.hostReadError engine slot kind addr tiles host)

def execIngestDone (engine slot : Nat) (host : List (Nat × Byte)) (s : State) : Host.Outcome State Fault Refusal :=
  .next (s.ingestDone engine slot host)

end Sys2Proof.Machine
end

