-- ==== Sys2Proof/Machine/Touch.lean ====
section
/-! DEFINITION. Touch engines: enabling and stopping panels, engine frames, measurement, baselines, contacts, reports and the node
table (R304 to R324). -/

namespace Sys2Proof.Machine

/-- A node that has never been measured. -/
def idleNode : Node where
  count := 0
  base := 0
  comp := 0
  refBase := 0
  refComp := 0
  bad := false
  frozen := false
  neg := 0
  sum := 0

def idlePanel : Panel where
  state := .off
  leaving := false
  nodes := []
  contacts := []
  ended := []
  seen := []
  calStep := 0
  drift := 0
  seqBuf := none

def idleTouch : TouchEngine where
  todo := []
  frame := []
  time := 0
  closing := false
  panels := []
  freq := 0
  charger := false
  lastN := []
  cand := 1
  loud := 0
  quiet := 0
  hopTo := none
  hopped := []
  nCur := 0
  nCand := 0

/-- Codes of TCH_Pp_STAT.STATE. -/
def panelCode : PanelState → Nat
  | .off => 0
  | .calibrating => 1
  | .refStart => 2
  | .scanning => 3
  | .listening => 4
  | .fault => 5

/-- Keys of the node table: drive × 128 + sense, with 0xFF and 0x7F for self lines, as TCH_NODE_ADDR addresses them (R324). -/
def nodeKey (drv sns : Nat) : Nat := drv * 128 + sns

/-- The delta d of a node (R307). -/
def Node.delta (n : Node) : Int := if n.bad then 0 else clamp (-32768) 32767 ((n.count : Int) - n.base)

/-- Move a baseline, within 0 to 65,535. -/
def Node.shift (n : Node) (by' : Int) : Node := { n with base := (clamp 0 65535 (n.base + by')).toNat }

/-- Insert in ascending order. -/
def insertAsc (v : Int) : List Int → List Int
  | [] => [v]
  | x :: r => if v ≤ x then v :: x :: r else x :: insertAsc v r

/-- The lower median; 0 of no values. -/
def lowerMedian (l : List Int) : Int := (l.foldr insertAsc []).getD ((l.length - 1) / 2) 0

/-- H[k][j] of R306. -/
def hadamard (k j : Nat) : Int :=
  let x := Nat.land k j
  if (x % 2 + x / 2 % 2 + x / 4 % 2) % 2 = 0 then 1 else -1

/-- Node count c of drive line l and sense line i from the modulator counts of its group's phases (R306). -/
def decodeNode (m : List Nat) (sCount l i : Nat) : Nat :=
  let sum := (List.range 8).foldl (fun (acc : Int) k =>
    acc + hadamard k (l % 8) * ((m.getD ((l / 8 * 8 + k) * sCount + i) 0 : Nat) - 32768)) 0
  (clamp 0 65535 (32768 + (sum + 4) / 8)).toNat

/-- The noise N of a listen phase (R319). -/
def noiseOf (m : List Nat) : Nat := (m.map fun (x : Nat) => ((x : Int) - 32768).natAbs).foldl max 0

/-- t_phase in ns at f kHz (R308). -/
def phaseTime (cycles f : Nat) : Nat := cycles * 1000000 / f + 2000

/-- Phases of a panel: mutual and self (R308). -/
def panelPhases (mode d : Nat) : Nat × Nat :=
  (if mode = 2 then 0 else 8 * ((d + 7) / 8), if mode = 0 then 0 else 1 + (d + 95) / 96)

/-- The nodes of a panel, in the order of R321. -/
def panelNodes (mode d n : Nat) : List Nat :=
  (if mode = 2 then [] else (List.range d).flatMap fun x => (List.range n).map fun y => nodeKey x y)
    ++ (if mode = 0 then [] else (List.range n).map fun y => nodeKey 0xFF y)
    ++ (if mode = 0 then [] else (List.range d).map fun x => nodeKey x 0x7F)

/-- A panel's geometry and thresholds as one engine frame uses them. -/
structure PanelCfg where
  mode : Nat
  d : Nat
  n : Nat
  touch : Nat
  lift : Nat
  deriving DecidableEq, Repr

/-- Columns and rows of the grid on which contacts form: a SELF panel without drive lines is one-dimensional (R305). -/
def PanelCfg.cols (c : PanelCfg) : Nat := if c.d = 0 then 1 else c.d

/-- The delta at a crossing. In SELF mode with drive lines the spec states no rule that joins the two profiles, so the value is an
open result of them. -/
def PanelCfg.at (c : PanelCfg) (nodes : Store Node) (x y : Nat) : Int :=
  let dl := fun (k : Nat) => ((Sparse.find nodes k).getD idleNode).delta
  if c.mode ≠ 2 then dl (nodeKey x y)
  else if c.d = 0 then dl (nodeKey 0xFF y)
  else signed 16 (Config.openResult 0x0305 [toBits 16 (dl (nodeKey x 0x7F)), toBits 16 (dl (nodeKey 0xFF y))])

/-- Neighbours of a node on the grid. -/
def PanelCfg.near (c : PanelCfg) (x y r : Nat) : List (Nat × Nat) :=
  ((List.range (2 * r + 1)).flatMap fun (i : Nat) => (List.range (2 * r + 1)).filterMap fun (j : Nat) =>
    let a : Int := (x : Int) + i - r
    let b : Int := (y : Int) + j - r
    if 0 ≤ a ∧ a < c.cols ∧ 0 ≤ b ∧ b < c.n then some (a.toNat, b.toNat) else none)

/-- Peaks with a delta of at least `thr` (R316 step 1). -/
def PanelCfg.peaks (c : PanelCfg) (nodes : Store Node) (thr : Nat) : List (Nat × Nat) :=
  let v := c.at nodes
  ((List.range c.cols).flatMap fun x => (List.range c.n).map fun y => (x, y)).filter fun p =>
    decide ((thr : Int) ≤ v p.1 p.2) && (c.near p.1 p.2 1).all fun q =>
      q == p || decide (v q.1 q.2 < v p.1 p.2)
        || (decide (v q.1 q.2 = v p.1 p.2) && (decide (p.1 < q.1) || (p.1 == q.1 && decide (p.2 < q.2))))

/-- Grow a 4-connected region of nodes with d ≥ LIFT_THRESH (R316 step 5). -/
def PanelCfg.grow (c : PanelCfg) (nodes : Store Node) : Nat → List (Nat × Nat) → List (Nat × Nat)
  | 0, l => l
  | fuel + 1, l =>
    let next := (l.flatMap fun p => (c.near p.1 p.2 1).filter fun q =>
      (q.1 == p.1 || q.2 == p.2) && !l.contains q && decide ((c.lift : Int) ≤ c.at nodes q.1 q.2)).eraseDups
    if next = [] then l else c.grow nodes fuel (l ++ next)

/-- What a peak measures (R316): position in panel coordinates, strength, area, LARGE. -/
structure Blob where
  drv : Nat
  sns : Nat
  x : Nat
  y : Nat
  strength : Nat
  area : Nat
  large : Bool
  deriving DecidableEq, Repr

/-- Code of ERR_INFO for the checks of R309: status code, reason, panel. -/
abbrev PanelFault := Nat × Nat × Nat

namespace State

def touchEng (s : State) (e : Nat) : TouchEngine := (Sparse.find s.touch.engines e).getD idleTouch

def setTouch (s : State) (e : Nat) (x : TouchEngine) : State :=
  { s with touch := { s.touch with engines := Sparse.put s.touch.engines e x } }

def panel (s : State) (e p : Nat) : Panel := (Sparse.find (s.touchEng e).panels p).getD idlePanel

/-- Set a panel, and keep TCH_Pp_STAT and BLOCK_STAT as it stands. -/
def setPanel (s : State) (e p : Nat) (x : Panel) : State :=
  let s1 := s.setTouch e { s.touchEng e with panels := Sparse.put (s.touchEng e).panels p x }
  let pg := Page.tch e
  let s2 := (s1.setFld pg F.TCH_P_STAT_STATE (panelCode x.state) [p]).setFld pg F.TCH_P_STAT_CONTACTS x.contacts.length [p]
  let s3 := s2.setFld pg F.TCH_P_STAT_BAD (x.nodes.filter fun q => q.2.bad).length [p]
  let bs := s3.fld pg F.TCH_BS_SCANNING
  s3.setFld pg F.TCH_BS_SCANNING (setBits p p bs (b2n (x.state == .scanning)))

/-- The registers of a touch page as the running engine frame took them (R309). -/
def touchView (s : State) (e : Nat) : State := { s with regs := (s.touchEng e).frame }

/-- The registers that a frame under way goes by; between frames, those that stand. -/
def touchRegs (s : State) (e : Nat) : State := if (s.touchEng e).frame = [] then s else s.touchView e

def panelCfg (s : State) (e p : Nat) : PanelCfg where
  mode := s.fld (.tch e) F.TCH_P_CFG_MODE [p]
  d := s.fld (.tch e) F.TCH_P_LINES_DRV_COUNT [p]
  n := s.fld (.tch e) F.TCH_P_LINES_SNS_COUNT [p]
  touch := s.fld (.tch e) F.TCH_P_THRESH_TOUCH_THRESH [p]
  lift := s.fld (.tch e) F.TCH_P_THRESH_LIFT_THRESH [p]

/-- Drive frequency c in kHz. -/
def touchKhz (s : State) (e c : Nat) : Nat := 2 * bits (8 * c + 7) (8 * c) (s.rw ((Page.tch e).key F.TCH_FREQ_F0.off))

/-! ## Checks (R308, R309) -/

def panelTime (s : State) (e p : Nat) (charger : Bool) (freq : Nat) : Nat :=
  let c := s.panelCfg e p
  let (nMut, nSelf) := panelPhases c.mode c.d
  let t := fun (i : Nat) => phaseTime (s.fld (.tch e) F.TCH_P_SCAN_CYCLES [p]) (s.touchKhz e (i % 4))
  if charger then 20000 + (nMut + nSelf) * (t freq + t (freq + 1) + t (freq + 2)) + 2 * t freq
  else 20000 + (nMut + nSelf + 2) * t freq

/-- Whether two ranges share a line. -/
def rangesMeet (a n b m : Nat) : Bool := decide (a < b + m) && decide (b < a + n) && n != 0 && m != 0

/-- The first failing condition of R309 for some of the panels that are or become enabled. -/
def panelFault (s : State) (e : Nat) (all check : List Nat) : Option PanelFault :=
  let f := fun (x : Fld) (p : Nat) => s.fld (.tch e) x [p]
  let rate := s.fld (.tch e) F.TCH_CTRL_RATE_HZ
  let badFreq := (List.range 4).any fun c => let k := s.touchKhz e c; decide (k < 100) || decide (500 < k)
  let lowest := ((List.range 4).foldl (fun best c => if s.touchKhz e c < s.touchKhz e best then c else best) 0)
  let first := check.headD 0
  let zero := check.find? fun p => rate == 0 || f F.TCH_P_SCAN_CYCLES p == 0 || f F.TCH_P_RES_X_RES p == 0 || f F.TCH_P_RES_Y_RES p == 0
    || f F.TCH_P_LINES_SNS_COUNT p == 0 || (f F.TCH_P_CFG_MODE p != 2 && f F.TCH_P_LINES_DRV_COUNT p == 0)
  let arg := check.find? fun p => f F.TCH_P_CFG_MODE p == 3 || decide (64 < f F.TCH_P_SCAN_CYCLES p) || badFreq
    || f F.TCH_P_THRESH_LIFT_THRESH p == 0 || decide (f F.TCH_P_THRESH_TOUCH_THRESH p ≤ f F.TCH_P_THRESH_LIFT_THRESH p)
    || decide (20 < f F.TCH_P_TRACK_MAX_TOUCHES p)
  let range := check.find? fun p => decide (160 < f F.TCH_P_LINES_DRV_FIRST p + f F.TCH_P_LINES_DRV_COUNT p)
    || decide (96 < f F.TCH_P_LINES_SNS_FIRST p + f F.TCH_P_LINES_SNS_COUNT p)
  let shared := check.find? fun p => all.any fun q => q != p
    && (rangesMeet (f F.TCH_P_LINES_DRV_FIRST p) (f F.TCH_P_LINES_DRV_COUNT p) (f F.TCH_P_LINES_DRV_FIRST q) (f F.TCH_P_LINES_DRV_COUNT q)
      || rangesMeet (f F.TCH_P_LINES_SNS_FIRST p) (f F.TCH_P_LINES_SNS_COUNT p) (f F.TCH_P_LINES_SNS_FIRST q) (f F.TCH_P_LINES_SNS_COUNT q))
  let frame := (all.map fun p => s.panelTime e p false lowest).sum
  let cap := match all.length with | 0 => 511 | 1 => 360 | 2 => 300 | 3 => 270 | _ => 240
  match zero with
  | some p => some (0x0002, 0, p)
  | none => match arg with
  | some p => some (0x0006, 0, p)
  | none => match range with
  | some p => some (0x0D01, 1, p)
  | none => match shared with
  | some p => some (0x0D01, 2, p)
  | none =>
    if 1000000000 < frame * rate then some (0x0D01, 3, first)
    else if cap < rate then some (0x0D01, 4, first) else none

def recPanelFault (s : State) (e : Nat) (x : PanelFault) : State := s.recErr (.tch e) x.1 (x.2.2 + x.2.1 * 2 ^ 8)

/-! ## The report buffer (R321) -/

/-- TCH_Pp_BUF as the frame goes by it. -/
def touchHandle (s : State) (e p : Nat) : Nat := (s.touchRegs e).fld (.tch e) F.TCH_P_BUF_BUFFER [p]

/-- The live buffer that TCH_Pp_BUF names: its slot and the attribute of its owner on the FIELD port. A reset of the owner ends the reports
(R128). -/
def touchBuf (s : State) (e p : Nat) : Option (Nat × Attr) :=
  let h := s.touchHandle e p
  if h = 0 ∨ h / 65536 ≠ s.pool.bufs.gen (h % 65536) then none
  else
    match s.buf (h % 65536) with
    | some b => if b.state = .live ∧ s.fnState b.fn ≠ .resetting then some (h % 65536, ⟨b.fn, b.fn == 0x41, s.fnCrit b.fn, 7, false, false⟩) else none
    | none => none

/-- The panel stops writing its buffer (R321), unless another has been named meanwhile. -/
def touchUnbind (s : State) (e p : Nat) : State :=
  if s.fld (.tch e) F.TCH_P_STAT_UNBOUND [p] = 1 ∨ s.fld (.tch e) F.TCH_P_BUF_BUFFER [p] ≠ s.touchHandle e p then s
  else (s.setFld (.tch e) F.TCH_P_STAT_UNBOUND 1 [p]).event (.tch e) 6

/-- Write words of the report buffer; whether they were written. -/
def touchWrite (s : State) (e p b : Nat) (ws : List Nat) : Bool × State :=
  if s.touchHandle e p = 0 ∨ s.fld (.tch e) F.TCH_P_STAT_UNBOUND [p] = 1 then (false, s)
  else
    match s.touchBuf e p with
    | none => (false, s.touchUnbind e p)
    | some (i, who) =>
      let (_, okay, s1) := s.writeBuf who i b ws
      if okay then (true, s1) else (false, s1.touchUnbind e p)

/-- A control word of plot 0. -/
def touchCtl (s : State) (e p b : Nat) : Nat :=
  match s.touchBuf e p with
  | some (i, _) => s.peekWord (s.bufAddr i b)
  | none => 0

/-- GEOM without SNAP_VALID. -/
def touchGeom (s : State) (e p : Nat) : Nat :=
  let c := s.panelCfg e p
  c.d + c.n * 2 ^ 8 + c.mode * 2 ^ 16

/-- Pack 32-bit entries, four to a word. -/
def pack32 : List Nat → List Nat
  | a :: b :: c :: d :: r => (a + b * 2 ^ 32 + c * 2 ^ 64 + d * 2 ^ 96) :: pack32 r
  | [] => []
  | [a] => [a]
  | [a, b] => [a + b * 2 ^ 32]
  | [a, b, c] => [a + b * 2 ^ 32 + c * 2 ^ 64]

/-- Write a snapshot: GEOM invalid, entries, SNAP_SEQ and SNAP_TIME, GEOM valid. -/
def snapshot (s : State) (e p : Nat) : State :=
  let c := s.panelCfg e p
  let nodes := (s.panel e p).nodes
  let es := (panelNodes c.mode c.d c.n).map fun k =>
    let x := (Sparse.find nodes k).getD idleNode
    x.base % 65536 + x.comp % 64 * 2 ^ 16 + b2n x.bad * 2 ^ 22
  let geom := fun (t : State) (valid : Bool) => setBits 31 0 (t.touchCtl e p 16) (t.touchGeom e p + b2n valid * 2 ^ 31)
  let (ok1, s1) := s.touchWrite e p 16 [geom s false]
  if !ok1 then s1
  else
    let (ok2, s2) := s1.touchWrite e p 256 (pack32 es)
    if !ok2 then s2
    else
      let w := s2.touchCtl e p 0
      let (ok3, s3) := s2.touchWrite e p 0 [setBits 127 64 (setBits 63 32 w (bits 31 0 w)) s2.time.dtime]
      if ok3 then (s3.touchWrite e p 16 [geom s3 true]).2 else s3

/-! ## Records (R320, R322) -/

/-- The 128-bit words of a record. -/
def recordWords (seq time pan : Nat) (flags freq : Nat) (es : List TouchEntry) : List Nat :=
  let head := seq + time % 2 ^ 64 * 2 ^ 32 + pan * 2 ^ 96 + es.length * 2 ^ 104 + flags * 2 ^ 112 + freq * 2 ^ 120
  let body := (es.zipIdx.map fun p =>
    let x := p.1
    (x.id + (x.event + b2n x.large * 4 + b2n x.stuck * 8 + b2n x.present * 16) * 2 ^ 8 + x.x % 65536 * 2 ^ 16 + x.y % 65536 * 2 ^ 32
      + x.strength * 2 ^ 48 + x.area * 2 ^ 64) * 2 ^ (96 * p.2)).sum
  head :: (List.range 15).map fun i => body / 2 ^ (128 * i) % 2 ^ 128

/-- The four register words of a 128-bit word. -/
def words32 (w : Nat) : List Nat := (List.range 4).map fun i => bits (32 * i + 31) (32 * i) w

/-- Deliver a record to the host ring and signal it (R322). -/
def touchHost (s : State) (e p seq : Nat) (ws : List Nat) : State :=
  let f := fun (x : Fld) => (s.touchRegs e).fld (.tch e) x [p]
  let slots := f F.TCH_P_HOST_SLOTS_SLOTS
  if slots = 0 then s
  else
    match s.touchBuf e p with
    | none => s.satFld (.tch e) F.TCH_P_HOST_SKIP_COUNT 1 [p]
    | some (_, who) =>
      let x := (Sparse.find s.hosts.fns who.fn)
      if !(isPf who.fn || isVf who.fn) ∨ s.fnState who.fn ≠ .enabled ∨ !((x.map Fn.bme).getD false) then
        s.satFld (.tch e) F.TCH_P_HOST_SKIP_COUNT 1 [p]
      else
        let a := f F.TCH_P_HOST_LO_BASE_LO * 2 ^ 8 + f F.TCH_P_HOST_HI_BASE_HI * 2 ^ 32 + 256 * (seq % slots)
        let s1 := (s.emit (.hostWrite who.fn (a + 16) ((ws.drop 1).flatMap words32))).emit (.hostWrite who.fn a (words32 (ws.headD 0)))
        if f F.TCH_P_ROUTE_EN = 1 then s1.sendMsg who.fn (f F.TCH_P_ROUTE_VECTOR) else s1

/-- The number before the first record: LAST_SEQ of the control record, or 0 (R320). -/
def touchSeq (s : State) (e p : Nat) : Nat :=
  if (s.panel e p).seqBuf = some (s.touchHandle e p) then s.fld (.tch e) F.TCH_P_SEQ_SEQ [p] else s.touchCtl e p 0 % 2 ^ 32

/-- Store a record in the panel's buffer, then its number in the control record (R320). -/
def storeRecord (s : State) (e p seq : Nat) (ws : List Nat) : State :=
  match s.touchBuf e p with
  | some (i, _) =>
    let plots := ((s.buf i).map fun (b : Buf) => b.plots.length).getD 2
    let (okay, t) := s.touchWrite e p (65536 + 256 * (seq % (256 * (plots - 1)))) ws
    if okay then (t.touchWrite e p 0 [setBits 31 0 (t.touchCtl e p 0) seq]).2 else t
  | none => (s.touchWrite e p 0 []).2

/-- Write a report record: the pool record, then LAST_SEQ, then the host ring. -/
def touchRecord (s : State) (e p : Nat) (overflow : Bool) (es : List TouchEntry) : State :=
  let x := s.touchEng e
  let last := s.touchSeq e p
  let seq := if last = 0xFFFF_FFFF then 1 else last + 1
  let flags := b2n overflow + b2n x.charger * 2 + s.fld (.tch e) F.TCH_P_STAT_NO_REF [p] * 4
  let ws := recordWords seq s.time.dtime (p + 4 * e) flags x.freq es
  let s0 := s.setPanel e p { s.panel e p with seqBuf := some (s.touchHandle e p) }
  let s2 := (s0.setFld (.tch e) F.TCH_P_SEQ_SEQ seq [p]).storeRecord e p seq ws
  s2.touchHost e p seq ws

/-- Hand a frame's entries to the rule matcher (R318). -/
def handOff (s : State) (e p : Nat) (es : List TouchEntry) : State :=
  if es.isEmpty then s
  else { s with touch := { s.touch with handoffs := s.touch.handoffs ++ [(⟨4 * e + p, s.time.dtime, es⟩ : Handoff)] } }

/-! ## Starting and stopping panels (R310, R311) -/

/-- The snapshot of the panel's buffer, when it is valid and fits (R311). -/
def snapshotFits (s : State) (e p : Nat) : Bool := bits 31 0 (s.touchCtl e p 16) == s.touchGeom e p + 2 ^ 31

/-- Load the reference of a start into the node table: baselines, codes and BAD. -/
def loadReference (s : State) (e p : Nat) (snap : Bool) : Store Node :=
  let c := s.panelCfg e p
  let old := (s.panel e p).nodes
  (panelNodes c.mode c.d c.n).zipIdx.foldl (fun acc q =>
    let x := (Sparse.find old q.1).getD idleNode
    let y := if snap then
        let w := bits (32 * (q.2 % 4) + 31) (32 * (q.2 % 4)) (s.touchCtl e p (256 + q.2 / 4 * 16))
        { x with base := w % 65536, comp := bits 21 16 w, bad := bit 22 w, frozen := false, neg := 0 }
      else { x with base := x.refBase, comp := x.refComp, frozen := false, neg := 0 }
    Sparse.put acc q.1 y) old

/-- Forget what the last run of a panel measured; codes start from 0 (R313). -/
def clearNodes (s : State) (e p : Nat) : Store Node :=
  let c := s.panelCfg e p
  (panelNodes c.mode c.d c.n).foldl (fun acc k =>
    let x := (Sparse.find acc k).getD idleNode
    Sparse.put acc k { x with comp := 0, bad := false, frozen := false, neg := 0, sum := 0 }) (s.panel e p).nodes

/-- Start a panel that has passed its checks; `snap` allows a snapshot as its reference (R311, R397). -/
def panelStartWith (s : State) (snap : Bool) (e p : Nat) : State :=
  let x := s.panel e p
  let y := { x with leaving := false, contacts := [], ended := [], seen := [], calStep := 0, drift := 0, seqBuf := none }
  if s.standby then s.setPanel e p { y with state := .listening }
  else if snap && s.snapshotFits e p then
    (s.setPanel e p { y with state := .refStart, nodes := s.loadReference e p true }).setFld (.tch e) F.TCH_P_STAT_NO_REF 0 [p]
  else if s.fld (.tch e) F.TCH_P_CFG_REF_EN [p] = 1 then
    (s.setPanel e p { y with state := .refStart, nodes := s.loadReference e p false }).setFld (.tch e) F.TCH_P_STAT_NO_REF 0 [p]
  else (s.setPanel e p { y with state := .calibrating, nodes := s.clearNodes e p }).setFld (.tch e) F.TCH_P_STAT_NO_REF 1 [p]

def panelStart (s : State) (e p : Nat) : State := s.panelStartWith true e p

/-- The last record of a stop: UP for every contact; then a snapshot (R310). -/
def panelStopped (s : State) (e p : Nat) : State :=
  let x := s.panel e p
  let es := x.contacts.map fun c =>
    (⟨c.id, 3, c.large, false, false, c.x, c.y, c.strength, c.area, c.x, c.y⟩ : TouchEntry)
  let s1 := s.handOff e p es
  let s2 := if es.isEmpty then s1 else s1.touchRecord e p false es
  let s3 := s2.snapshot e p
  let stay := s3.standby && s3.flag (.tch e) F.PG_CTRL_ENABLE && s3.fld (.tch e) F.TCH_P_CFG_EN [p] == 1
  s3.setPanel e p { s3.panel e p with
    state := if stay then .listening else .off, leaving := false, contacts := [], ended := [], seen := [] }

/-- Request the stop of a panel: at the end of the running frame, or now when none runs for it. -/
def panelStop (s : State) (e p : Nat) : State :=
  let x := s.panel e p
  match x.state with
  | .off => s
  | .fault | .listening => s.setPanel e p { x with state := .off }
  | _ => if (s.touchEng e).todo.contains p then s.setPanel e p { x with leaving := true } else s.panelStopped e p

/-- The engine has ended its last frame. -/
def touchStopped (s : State) (e : Nat) : State :=
  let s1 := s.setTouch e { s.touchEng e with todo := [], frame := [], closing := false, charger := false, loud := 0, quiet := 0, hopTo := none, hopped := [], lastN := [] }
  let s2 := (s1.setFld (.tch e) F.PG_STAT_ENABLED 0).setFld (.tch e) F.TCH_STAT_RATE_ACT 0
  (s2.setFld (.tch e) F.TCH_STAT_CHARGER 0).setFld (.tch e) F.TCH_BS_CHARGER 0

/-- Panels of the engine with EN = 1. -/
def enabledPanels (s : State) (e : Nat) : List Nat := (List.range 4).filter fun p => s.fld (.tch e) F.TCH_P_CFG_EN [p] == 1

/-- Start the engine with its enabled panels. -/
def touchStart (s : State) (e : Nat) : State :=
  let s1 := (s.setFld (.tch e) F.PG_CTRL_ENABLE 1).setFld (.tch e) F.PG_STAT_ENABLED 1
  (s1.enabledPanels e).foldl (fun t p => t.panelStart e p) s1

/-- Stop every panel of the engine; PG_STAT.ENABLED falls at the end of the frame. -/
def touchStop (s : State) (e : Nat) : State :=
  let s1 := (List.range 4).foldl (fun t p => t.panelStop e p) s
  if (s1.touchEng e).todo = [] then s1.touchStopped e else s1.setTouch e { s1.touchEng e with closing := true }

/-- ENABLE of TCHe (R309, R310). -/
def tchEnable (a : RegAcc) (on : Bool) (s : State) : State :=
  match a.page with
  | .tch e =>
    if on then
      match s.panelFault e (s.enabledPanels e) (s.enabledPanels e) with
      | some x => s.recPanelFault e x
      | none => mirrorWrite s (s.touchStart e) a 0 0
    else mirrorWrite s ((s.setFld (.tch e) F.PG_CTRL_ENABLE 0).touchStop e) a 0 0
  | _ => s

/-- A soft reset of a TCH page: every panel stops at once without a last record or snapshot. -/
def tchReset (a : RegAcc) (s : State) : State :=
  match a.page with
  | .tch e =>
    let s1 := s.setTouch e idleTouch
    mirrorWrite s (s1.resetPage (.tch e)) a 0 0
  | _ => s

/-- The device takes the active role: panels in LISTENING start; leaving it, they stop (R310). -/
def touchActivate (s : State) (snap : Bool) : State :=
  (List.range 2).foldl (fun t e => (List.range 4).foldl (fun u p =>
    if (u.panel e p).state = .listening then u.panelStartWith snap e p else u) t) s

/-- Stop every panel of both engines. -/
def touchLeave (s : State) : State :=
  (List.range 2).foldl (fun t e => (List.range 4).foldl (fun u p =>
    match (u.panel e p).state with
    | .scanning | .refStart | .calibrating => u.panelStop e p
    | _ => u) t) s

/-- The restart of a wake: engines that are enabled start their panels. -/
def touchRestart (s : State) : State :=
  (List.range 2).foldl (fun t e => if t.flag (.tch e) F.PG_CTRL_ENABLE then t.touchStart e else t) s

/-! ## Register writes -/

/-- Fields of a TCH page that stand still while the engine is enabled (R309). -/
def tchFixed (f : Fld) : Bool := f.rwl && f != F.PG_CTRL_ENABLE && f != F.PG_CTRL_SOFT_RESET

/-- TCH_CTRL, TCH_FREQ, TCH_Pp_LINES, TCH_Pp_SCAN, TCH_Pp_RES. -/
def tchPlainWrite (a : RegAcc) (s : State) : State :=
  let on := s.flag a.page F.PG_CTRL_ENABLE
  let s1 := s.plainWrite a fun f => !(on && tchFixed f)
  let s2 := if on ∧ (s.grantedFields a).any tchFixed then s1.recAcc a 0x000A else s1
  mirrorWrite s s2 a 0 0

/-- Copy BASE and COMP of every node into its REF fields (R311). -/
def captureRef (s : State) (e p : Nat) : State :=
  let x := s.panel e p
  s.setPanel e p { x with nodes := x.nodes.map fun q => (q.1, { q.2 with refBase := q.2.base, refComp := q.2.comp }) }

/-- The panel whose block holds a word. -/
def panelOf (o : Nat) : Nat := (o - 0x100) / 0x40

/-- TCH_Pp_CFG: EN starts and stops the panel, CAPTURE_REF captures. -/
def tchCfgWrite (a : RegAcc) (s : State) : State :=
  match a.page with
  | .tch e =>
    let p := panelOf a.off
    let en := s.grants a F.TCH_P_CFG_EN
    let on := s.flag (.tch e) F.PG_CTRL_ENABLE
    let keep := fun (f : Fld) => f != F.TCH_P_CFG_EN && !(on && tchFixed f)
    let s1 := s.plainWrite a keep
    let s2 := if on ∧ (s.grantedFields a).any tchFixed then s1.recAcc a 0x000A else s1
    let s3 := if s.grants a F.TCH_P_CFG_CAPTURE_REF then s2.captureRef e p else s2
    let s4 :=
      if !en then s3
      else if bit 0 a.val then
        if on then
          match s3.panelFault e ((s3.enabledPanels e).filter (· != p) ++ [p]) [p] with
          | some x => s3.recPanelFault e x
          | none => (s3.setFld (.tch e) F.TCH_P_CFG_EN 1 [p]).panelStart e p
        else s3.setFld (.tch e) F.TCH_P_CFG_EN 1 [p]
      else (s3.setFld (.tch e) F.TCH_P_CFG_EN 0 [p]).panelStop e p
    mirrorWrite s s4 a 0 0
  | _ => s

/-- TCH_Pp_BUF: the checks of R321, and UNBOUND clears. -/
def tchBufWrite (a : RegAcc) (s : State) : State :=
  match a.page with
  | .tch e =>
    let p := panelOf a.off
    let bind := fun (t : State) => mirrorWrite s (t.setFld (.tch e) F.TCH_P_STAT_UNBOUND 0 [p]) a 0 0
    let accept := fun (fn : Nat) => bind ((s.plainWrite a).setFld (.tch e) F.TCH_P_ROUTE_FUNCTION fn [p])
    if s.secretPage a then s.recRefused a
    else if s.writtenFields a = [] then bind s
    else if a.val = 0 then accept 0
    else
      match s.checkBuf a.req.fn a.val with
      | .error c => s.refuse a c
      | .ok i =>
        if s.bufKind i ≠ 4 then s.refuse a 0x0107
        else
          match s.buf i with
          | some b => if b.plots.length < 2 then s.refuse a 0x0105 else accept b.fn
          | none => s
  | _ => s

/-- TCH_Pp_ROUTE: a vector beyond the owner's table is refused. -/
def tchRouteWrite (a : RegAcc) (s : State) : State :=
  match a.page with
  | .tch e =>
    if s.written a F.TCH_P_ROUTE_VECTOR ∧ vectors (s.fld (.tch e) F.TCH_P_ROUTE_FUNCTION [panelOf a.off]) ≤ bits 5 0 a.val then s.refuse a 0x0603
    else mirrorWrite s (s.plainWrite a) a 0 0
  | _ => s

/-! ## The node table (R324) -/

/-- Whether TCH_NODE_ADDR names an entry of the panel. -/
def nodeValid (c : PanelCfg) (drv sns field : Nat) : Bool :=
  let senseSelf := drv == 0xFF && decide (sns < c.n) && c.mode != 0
  let driveSelf := sns == 0x7F && decide (drv < c.d) && c.mode != 0
  decide (field < 6) && ((decide (drv < c.d) && decide (sns < c.n)) || senseSelf || driveSelf)

/-- The value that a read of an entry gives. -/
def nodeRead (x : Node) (field : Nat) : Nat :=
  if field = 0 then x.count else if field = 1 then x.base else if field = 2 then toBits 16 x.delta
  else if field = 3 then x.comp else if field = 4 then x.refBase + x.refComp * 2 ^ 16
  else b2n x.bad + b2n x.frozen * 2

/-- An access to TCH_NODE_DATA: the entry read or written, and the address advanced. -/
def nodeAccess (a : RegAcc) (isRead : Bool) (s : State) : State :=
  match a.page with
  | .tch e =>
    let f := fun (x : Fld) => s.fld (.tch e) x
    let p := f F.TCH_NODE_ADDR_PANEL
    let drv := f F.TCH_NODE_ADDR_DRIVE
    let sns := f F.TCH_NODE_ADDR_SENSE
    let field := f F.TCH_NODE_ADDR_FIELD
    let c := s.panelCfg e p
    let x := s.panel e p
    let n := (Sparse.find x.nodes (nodeKey drv sns)).getD idleNode
    let wrap := decide (c.n ≤ sns + 1)
    let s1 := (s.setFld (.tch e) F.TCH_NODE_ADDR_SENSE (if wrap then 0 else sns + 1)).setFld (.tch e) F.TCH_NODE_ADDR_DRIVE
      (if wrap then drv + 1 else drv)
    let put := fun (y : Node) => s1.setPanel e p { x with nodes := Sparse.put x.nodes (nodeKey drv sns) y }
    if s.secretPage a then (if isRead then s.answerRead a 0 else s.denyReg a)
    else if !nodeValid c drv sns field then
      let s2 := s1.recErr (.tch e) 0x0D02 (s.rw ((Page.tch e).key F.TCH_NODE_ADDR_DRIVE.off) % 2 ^ 20)
      if isRead then s2.answerRead a 0 else if a.val = 0 then s1 else s2
    else if isRead then s1.answerRead a (nodeRead n field)
    else if field = 1 then put { n with base := a.val % 65536 }
    else if field = 3 then (if a.val % 64 = n.comp then s1 else if s.flag (.tch e) F.PG_CTRL_ENABLE then s1.recAcc a 0x000A else put { n with comp := a.val % 64 })
    else if field = 4 then put { n with refBase := a.val % 65536, refComp := bits 21 16 a.val }
    else s1
  | _ => s

/-! ## Engine frames (R308, R319) -/

/-- The end of an engine frame: counters, noise, hops and charger-noise mode. -/
def touchFrameEnd (s : State) (e : Nat) : State :=
  let v := s.touchView e
  let f := fun (x : Fld) => v.fld (.tch e) x
  let x := s.touchEng e
  let s1 := (s.addFld (.tch e) F.TCH_FRAMES_COUNT 1).setFld (.tch e) F.TCH_FRAME_TIME_US (min 65535 (x.time / 1000))
  if x.closing then s1.touchStopped e
  else
    let last := Sparse.put (Sparse.put x.lastN x.freq x.nCur) ((x.freq + x.cand) % 4) x.nCand
    let n := fun (c : Nat) => Sparse.find last c
    let hop := f F.TCH_NOISE_HOP_THRESH
    let loud := if hop ≠ 0 ∧ hop ≤ x.nCur then x.loud + 1 else 0
    let others := ([1, 2, 3].map fun i => (x.freq + i) % 4).filter fun c => (n c).isSome
    let best := others.foldl (fun (b : Option Nat) c => match b with
      | none => some c
      | some d => if (n c).getD 0 < (n d).getD 0 then some c else some d) none
    let target := match best with
      | some c => if f F.TCH_CTRL_AUTO_HOP = 1 ∧ hop ≠ 0 ∧ 2 ≤ loud ∧ (n c).getD 0 < hop / 2 then some c else none
      | none => none
    let ct := f F.TCH_NOISE_CHARGER_THRESH
    let enter := !x.charger && f F.TCH_CTRL_CHARGER_EN == 1 && ct != 0 && (List.range 4).all fun c => match n c with | some v => decide (ct ≤ v) | none => false
    let quiet := if x.charger ∧ x.nCur < ct / 2 then x.quiet + 1 else 0
    let leave := x.charger && decide (64 ≤ quiet)
    let ch := if enter then true else if leave then false else x.charger
    let s2 := s1.setTouch e { x with
      lastN := last, loud := if target.isSome then 0 else loud, hopTo := target, charger := ch, quiet := if leave then 0 else quiet
      cand := x.cand % 3 + 1, nCur := 0, nCand := 0, frame := [] }
    let s3 := ((s2.setFld (.tch e) F.TCH_STAT_NOISE x.nCur).setFld (.tch e) F.TCH_STAT_CHARGER (b2n ch)).setFld (.tch e) F.TCH_BS_CHARGER (b2n ch)
    if enter then s3.event (.tch e) 3 else if leave then s3.event (.tch e) 4 else s3

/-- An engine frame begins: a hop takes effect, the page's fields are taken, and the panels are scanned in order. -/
def touchFrameStart (s : State) (e : Nat) : State :=
  let x := s.touchEng e
  if !s.flag (.tch e) F.PG_STAT_ENABLED ∨ x.todo ≠ [] then s
  else
    let todo := (List.range 4).filter fun p => match (s.panel e p).state with
      | .calibrating | .refStart | .scanning | .listening => true
      | _ => false
    let freq := x.hopTo.getD x.freq
    let regs := s.regs.filter fun p => keyPage p.1 == (Page.tch e).base
    let s1 := s.setTouch e { x with todo := todo, frame := regs, freq := freq, hopTo := none, hopped := if x.hopTo.isSome then todo else x.hopped }
    let s2 := if x.hopTo.isSome then s1.event (.tch e) 2 else s1
    let time := (todo.map fun p => s2.panelTime e p x.charger freq).sum
    let rate := s2.fld (.tch e) F.TCH_CTRL_RATE_HZ
    let act := if x.charger ∧ 1000000000 < time * rate then 1000000000 / time else rate
    let s3 := (s2.setFld (.tch e) F.TCH_STAT_RATE_ACT act).setFld (.tch e) F.TCH_STAT_FREQ freq
    let s4 := s3.setTouch e { s3.touchEng e with time := time }
    if todo = [] then s4.touchFrameEnd e else s4

/-! ## Contacts (R316, R317) -/

/-- X or Y of a position in 1/256 of a node pitch (R316 step 6). -/
def panelCoord (v256 res lines : Nat) : Nat :=
  if lines ≤ 1 then (res - 1) / 2 else (v256 * (res - 1) + (lines - 1) * 128) / ((lines - 1) * 256)

/-- Measure a peak (R316 steps 2 to 7); `v` holds the panel's fields. -/
def measure (v : State) (e p : Nat) (c : PanelCfg) (nodes : Store Node) (pk : Nat × Nat) : Blob :=
  let f := fun (x : Fld) => v.fld (.tch e) x [p]
  let ws := (c.near pk.1 pk.2 1).map fun q => (q, (c.at nodes q.1 q.2).toNat)
  let w := (ws.map Prod.snd).sum
  -- thresholds of 0 let a peak weigh nothing; the quotient is then open
  let x256 := if w = 0 then Config.openResult 0x0316 [pk.1, pk.2, 0] else ((ws.map fun q => q.2 * q.1.1 * 256).sum + w / 2) / w
  let y256 := if w = 0 then Config.openResult 0x0316 [pk.1, pk.2, 1] else ((ws.map fun q => q.2 * q.1.2 * 256).sum + w / 2) / w
  let xr := f F.TCH_P_RES_X_RES
  let yr := f F.TCH_P_RES_Y_RES
  let x0 := if c.d = 0 then 0 else panelCoord x256 xr c.d
  let y0 := panelCoord y256 yr c.n
  let sw := f F.TCH_P_CFG_SWAP_XY == 1
  let x1 := if sw then y0 else x0
  let y1 := if sw then x0 else y0
  let area := (c.grow nodes (c.cols * c.n) [pk]).length
  let large := f F.TCH_P_TRACK_LARGE_NODES
  -- an exchanged coordinate beyond the other axis has no stated reflection
  let flip := fun (res v : Nat) => if v + 1 ≤ res then res - 1 - v else Config.openResult 0x1316 [res, v] % 65536
  ⟨pk.1, pk.2, if f F.TCH_P_CFG_FLIP_X = 1 then flip xr x1 else x1, if f F.TCH_P_CFG_FLIP_Y = 1 then flip yr y1 else y1,
    min 65535 w, min 255 area, large != 0 && decide (large ≤ min 255 area)⟩

/-- Chebyshev distance. -/
def cheb (a b : Nat × Nat) : Nat := max (max a.1 b.1 - min a.1 b.1) (max a.2 b.2 - min a.2 b.2)

/-- Match contacts and peaks: pairs in ascending distance, the lower identity first on a tie (R317). -/
def matchPeaks (cs : List Contact) (bs : List Blob) (far : Nat) : List (Contact × Blob) :=
  ((List.range (far + 1)).flatMap fun r => cs.flatMap fun c => (bs.filter fun b => cheb (c.drv, c.sns) (b.drv, b.sns) == r).map fun b => (c, b)).foldl
    (fun acc q => if acc.any fun x => x.1.id == q.1.id || x.2 == q.2 then acc else acc ++ [q]) []

/-- The identity of a new contact (R317). -/
def newId (held ended : List Nat) : Nat :=
  match (List.range 32).find? fun i => !held.contains i && !ended.contains i with
  | some i => i
  | none => ((List.range 32).find? fun i => !held.contains i).getD 31

/-- Insert a contact in order of identity. -/
def insertContact (c : Contact) : List Contact → List Contact
  | [] => [c]
  | d :: r => if c.id < d.id then c :: d :: r else d :: insertContact c r

/-- Insert a blob by descending strength. -/
def insertBlob (b : Blob) : List Blob → List Blob
  | [] => [b]
  | d :: r => if d.strength < b.strength then b :: d :: r else d :: insertBlob b r

/-- What tracking a frame gives: the record's entries UP, MOVE, DOWN in ascending identity, what goes to the rule matcher, contacts, ended
identities, waiting peaks, OVERFLOW, and the contacts ended for resting. -/
structure Tracked where
  ups : List TouchEntry
  moves : List TouchEntry
  downs : List TouchEntry
  hand : List TouchEntry
  contacts : List Contact
  ended : List Nat
  seen : List (Nat × Nat × Nat)
  overflow : Bool
  stuck : List Contact
  deriving DecidableEq, Repr

/-- Track one frame (R315, R317); `present` marks the first frame of REF_START. -/
def track (s v : State) (e p : Nat) (c : PanelCfg) (x : Panel) (present : Bool) : Tracked :=
  let f := fun (y : Fld) => v.fld (.tch e) y [p]
  let far := f F.TCH_P_TRACK_MAX_MOVE
  let blobs := (c.peaks x.nodes c.lift).map (measure v e p c x.nodes)
  let pairs := matchPeaks x.contacts blobs far
  let lostC := x.contacts.filter fun k => !(pairs.any fun q => q.1.id == k.id)
  let hold := f F.TCH_P_BASE1_HOLD_LIMIT
  let moved := x.contacts.filterMap fun k => (pairs.find? fun q => q.1.id == k.id).map fun q =>
    let b := q.2
    let same := b.drv == k.drv && b.sns == k.sns && decide (8 * (max b.strength k.holdStrength - min b.strength k.holdStrength) ≤ k.holdStrength)
    (k, { k with drv := b.drv, sns := b.sns, x := b.x, y := b.y, strength := b.strength, area := b.area, large := b.large
                 holdAt := if same then k.holdAt else s.time.dtime, holdStrength := if same then k.holdStrength else b.strength })
  let rests := fun (k : Contact) => hold != 0 && decide (k.holdAt + hold * 1000000000 ≤ s.time.dtime)
  let stuck := (moved.map Prod.snd).filter rests
  let going := moved.filter fun q => !rests q.2
  -- at most MAX_TOUCHES contacts go on; a lowered limit ends the weakest
  let most := f F.TCH_P_TRACK_MAX_TOUCHES
  let strong := fun (q : Contact × Contact) => (going.filter fun r =>
    decide (q.2.strength < r.2.strength) || (r.2.strength == q.2.strength && decide (r.2.id < q.2.id))).length
  let kept := going.filter fun q => decide (strong q < most)
  let entry := fun (k : Contact) (ev px py : Nat) (st pr : Bool) =>
    (⟨k.id, ev, k.large, st, pr, k.x, k.y, k.strength, k.area, px, py⟩ : TouchEntry)
  let ups := (x.contacts.filterMap fun k =>
    if lostC.any fun l => l.id == k.id then some (entry k 3 k.x k.y false false)
    else match stuck.find? fun l => l.id == k.id with
      | some l => some (entry l 3 k.x k.y true false)
      | none => ((going.find? fun q => q.1.id == k.id).filter fun q => !decide (strong q < most)).map fun q => entry q.2 3 k.x k.y false false)
  let moves := (kept.filter fun q => !q.1.late).map fun q => entry q.2 2 q.1.x q.1.y false false
  let lateDowns := (kept.filter fun q => q.1.late).map fun q => entry q.2 1 q.1.x q.1.y false false
  -- peaks that continue no contact
  let free := (blobs.filter fun b => !(pairs.any fun q => q.2 == b)).filter fun b => decide ((c.touch : Int) ≤ c.at x.nodes b.drv b.sns)
  let count := fun (b : Blob) => 1 + (((x.seen.filter fun q => decide (cheb (q.1, q.2.1) (b.drv, b.sns) ≤ far)).map fun q => q.2.2).foldl max 0)
  let need := if present then 1 else max 1 (f F.TCH_P_BASE1_DEBOUNCE) + b2n (s.touchEng e).charger
  let confirmed := fun (b : Blob) => c.mode != 1 ||
    (decide (((c.touch / 4 : Nat) : Int) ≤ ((Sparse.find x.nodes (nodeKey 0xFF b.sns)).getD idleNode).delta)
      && decide (((c.touch / 4 : Nat) : Int) ≤ ((Sparse.find x.nodes (nodeKey b.drv 0x7F)).getD idleNode).delta))
  let ready := (free.filter fun b => decide (need ≤ count b) && confirmed b).foldr insertBlob []
  let room := most - kept.length
  let take := ready.take room
  let endedNow := ups.map TouchEntry.id
  let start := take.foldl (fun (acc : List Contact × List Nat) b =>
    let id := newId (acc.2 ++ kept.map (fun q => q.1.id) ++ endedNow) x.ended
    (acc.1 ++ [⟨id, b.drv, b.sns, b.x, b.y, b.strength, b.area, b.large, false, s.time.dtime, b.strength⟩], acc.2 ++ [id])) ([], [])
  let news := start.1.foldl (fun acc k => insertContact k acc) []
  let fresh := news.map fun k => entry k 1 k.x k.y false present
  let downs := lateDowns ++ fresh
  let sorted := (List.range 32).flatMap fun i => downs.filter fun d => d.id == i
  -- at most twenty entries: later DOWNs wait for the next record
  let fit := sorted.take (20 - ups.length - moves.length)
  let late := fun (k : Contact) => sorted.any (fun d => d.id == k.id) && !(fit.any fun d => d.id == k.id)
  let contacts := (kept.map Prod.snd ++ news).foldl (fun acc k => insertContact { k with late := late k } acc) []
  -- with MAX_TOUCHES 0 nothing is reported
  let hand := if most = 0 then [] else ups ++ (kept.map fun q => entry q.2 2 q.1.x q.1.y false false) ++ fresh
  ⟨if most = 0 then [] else ups, moves, fit, hand, contacts, endedNow,
    (free.filter fun b => !take.contains b).map fun b => (b.drv, b.sns, min 16 (count b)),
    decide (fit.length < sorted.length) || decide (room < ready.length), stuck⟩

/-! ## Baselines (R312 to R315) -/

/-- Whether contacts freeze a node (R314): within distance 2 of a peak, or a self line with a peak on it. -/
def freezes (cs : List Contact) (k : Nat) : Bool :=
  let drv := k / 128
  let sns := k % 128
  cs.any fun c =>
    if drv = 0xFF then c.sns == sns
    else if sns = 0x7F then c.drv == drv
    else decide (cheb (c.drv, c.sns) (drv, sns) ≤ 2)

/-- Change every node of a panel. -/
def mapNodes (nodes : Store Node) (keys : List Nat) (g : Nat → Node → Node) : Store Node :=
  keys.foldl (fun acc k => Sparse.put acc k (g k ((Sparse.find acc k).getD idleNode))) nodes

/-- The lower median of d over the nodes that are neither frozen nor BAD. -/
def driftOf (nodes : Store Node) (keys : List Nat) : Int :=
  lowerMedian (keys.filterMap fun k =>
    let n := (Sparse.find nodes k).getD idleNode
    if n.frozen || n.bad then none else some n.delta)

/-- Follow the baseline of a scanning panel (R314); the panel's drift counter has been advanced. -/
def follow (v : State) (e p : Nat) (keys : List Nat) (nodes : Store Node) (drift : Bool) : Store Node :=
  let f := fun (y : Fld) => v.fld (.tch e) y [p]
  let neg := f F.TCH_P_BASE0_NEG_THRESH
  let frames := max 1 (f F.TCH_P_BASE1_NEG_FRAMES)
  let n1 := mapNodes nodes keys fun _ n =>
    if n.frozen || n.bad then n
    else if n.delta ≤ -(neg : Int) then
      (if frames ≤ n.neg + 1 then { n with base := n.count, neg := 0 } else { n with neg := n.neg + 1 })
    else { n with neg := 0 }
  if drift then
    let m := driftOf n1 keys
    mapNodes n1 keys fun _ n =>
      if n.bad then n
      else if n.frozen then n.shift m.sign
      else if n.delta < (f F.TCH_P_BASE0_NOISE_THRESH : Nat) then n.shift n.delta.sign else n
  else n1

/-! ## The end of a panel's scan -/

/-- The node counts of a frame (R306, R319): with three frequencies, the median of each node's three. -/
def frameCounts (c : PanelCfg) (m : List (List Nat × List Nat)) : List (Nat × Nat) :=
  let one := fun (q : List Nat × List Nat) (i k : Nat) =>
    let muts := if c.mode = 2 then 0 else c.d * c.n
    if i < muts then decodeNode q.1 c.n (k / 128) (k % 128) else min 65535 (q.2.getD (i - muts) 0)
  (panelNodes c.mode c.d c.n).zipIdx.map fun q =>
    (q.1, (lowerMedian (m.map fun x => ((one x q.2 q.1 : Nat) : Int))).toNat)

/-- Report a frame's entries (R318, R320). -/
def touchReport (s : State) (e p : Nat) (t : Tracked) : State :=
  let es := t.ups ++ t.moves ++ t.downs
  let s1 := s.handOff e p t.hand
  if t.contacts.isEmpty && t.ups.isEmpty then s1 else s1.touchRecord e p t.overflow es

/-- A frame of a panel in CALIBRATING (R313). -/
def calFrame (s : State) (e p : Nat) (x : Panel) (counts : List (Nat × Nat)) : State :=
  let keys := counts.map Prod.fst
  let val := fun (k : Nat) => ((counts.find? fun q => q.1 == k).map Prod.snd).getD 0
  if x.calStep < 6 then
    let b := 2 ^ (5 - x.calStep)
    s.setPanel e p { x with calStep := x.calStep + 1, nodes := mapNodes x.nodes keys fun k n =>
      { n with count := val k, comp := if 32768 ≤ val k then n.comp + b else n.comp } }
  else
    let out := fun (k : Nat) => decide (16384 < ((val k : Int) - 32768).natAbs)
    let nodes := mapNodes x.nodes keys fun k n =>
      { n with count := val k, sum := n.sum + val k, bad := n.bad || (x.calStep == 6 && out k) }
    let bads := keys.filter fun k => ((Sparse.find nodes k).getD idleNode).bad
    let info := match bads with
      | [] => 0
      | k :: _ => k / 128 + k % 128 * 2 ^ 8 + p * 2 ^ 16 + min 255 bads.length * 2 ^ 24
    let s1 := s.setPanel e p { x with calStep := x.calStep + 1, nodes := nodes }
    let s2 := if x.calStep = 6 ∧ bads ≠ [] then s1.recErr (.tch e) 0x0D03 info else s1
    if x.calStep = 6 ∧ keys.length < 8 * bads.length then
      ((s2.setPanel e p { s2.panel e p with state := .fault }).event (.tch e) 1).reportContained (.tch e) 0x0D03 info
    else if x.calStep = 13 then
      (s2.setPanel e p { s2.panel e p with state := .scanning, nodes := mapNodes nodes keys fun _ n =>
        { n with base := (n.sum + 4) / 8, sum := 0 } }).event (.tch e) 0
    else s2

/-- The first frame of REF_START (R312). -/
def refFrame (s v : State) (e p : Nat) (c : PanelCfg) (x : Panel) (counts : List (Nat × Nat)) : State :=
  let keys := counts.map Prod.fst
  let val := fun (k : Nat) => ((counts.find? fun q => q.1 == k).map Prod.snd).getD 0
  let nodes := mapNodes x.nodes keys fun k n => { n with count := val k }
  let node := fun (k : Nat) => (Sparse.find nodes k).getD idleNode
  if keys.any fun k => !(node k).bad && decide (16384 < ((val k : Int) - 32768).natAbs) then
    (s.setPanel e p { x with state := .calibrating, calStep := 0, nodes := s.clearNodes e p }).setFld (.tch e) F.TCH_P_STAT_NO_REF 1 [p]
  else
    let m := lowerMedian ((keys.filter fun k => !(node k).bad).map fun k => (val k : Int) - (node k).base)
    let cand := keys.filter fun k => !(node k).bad && decide ((c.touch : Int) ≤ (val k : Int) - (node k).base - m)
    let near := fun (k : Nat) => cand.any fun q => decide (cheb (q / 128, q % 128) (k / 128, k % 128) ≤ 2)
    let based := mapNodes nodes keys fun k n => if near k then n.shift m else { n with base := val k }
    let y := { x with nodes := based }
    let t := track s v e p c y true
    let frozen := mapNodes based keys fun k n => { n with frozen := freezes t.contacts k }
    let z := { y with state := .scanning, nodes := frozen, contacts := t.contacts, ended := t.ended, seen := t.seen, drift := 0 }
    (s.setPanel e p z).touchReport e p t

/-- A frame of a panel in SCANNING (R314 to R318). -/
def scanFrame (s v : State) (e p : Nat) (c : PanelCfg) (x : Panel) (counts : List (Nat × Nat)) : State :=
  let f := fun (y : Fld) => v.fld (.tch e) y [p]
  let keys := counts.map Prod.fst
  let val := fun (k : Nat) => ((counts.find? fun q => q.1 == k).map Prod.snd).getD 0
  let n0 := mapNodes x.nodes keys fun k n => { n with count := val k }
  let eng := s.touchEng e
  let m := driftOf n0 keys
  let n1 := if eng.hopped.contains p then mapNodes n0 keys fun _ n => n.shift m else n0
  let t := track s v e p c { x with nodes := n1 } false
  -- nodes frozen for a stuck contact alone take b = c
  let n2 := mapNodes n1 keys fun k n =>
    let others := freezes t.contacts k
    if freezes t.stuck k ∧ !others then { n with base := n.count, frozen := false } else { n with frozen := others }
  let every := f F.TCH_P_BASE0_DRIFT_FRAMES
  let due := every != 0 && decide (every ≤ x.drift + 1)
  let n3 := follow v e p keys n2 due
  let s1 := s.setPanel e p { x with
    nodes := n3, contacts := t.contacts, ended := t.ended, seen := t.seen, drift := if due ∨ every = 0 then 0 else x.drift + 1 }
  let s2 := if t.stuck.isEmpty then s1 else s1.event (.tch e) 5
  s2.touchReport e p t

/-- The last phase of a panel's frame ends. -/
def panelScanEnd (s : State) (e p : Nat) (m : List (List Nat × List Nat)) (listen cand : List Nat) : State :=
  let eng := s.touchEng e
  if eng.todo.head? ≠ some p then s
  else
    let v := s.touchView e
    let s1 := s.setTouch e { eng with todo := eng.todo.drop 1, nCur := max eng.nCur (noiseOf listen), nCand := max eng.nCand (noiseOf cand) }
    let x := s1.panel e p
    let c := v.panelCfg e p
    let counts := frameCounts c m
    let s2 :=
      if x.leaving then s1.panelStopped e p
      else
        match x.state with
        | .calibrating => s1.calFrame e p x counts
        | .refStart => refFrame s1 v e p c x counts
        | .scanning => scanFrame s1 v e p c x counts
        | _ => s1
    -- the first frame after a hop has passed (R319)
    let s3 := s2.setTouch e { s2.touchEng e with hopped := (s2.touchEng e).hopped.filter (· != p) }
    if (s3.touchEng e).todo = [] then s3.touchFrameEnd e else s3

/-- A panel's snapshot of every second. -/
def touchSnapshot (s : State) (e p : Nat) : State := if (s.panel e p).state = .scanning then s.snapshot e p else s

def isTchCtrl (a : RegAcc) : Bool := a.off == 0x008 && (match a.page with | .tch _ => true | _ => false)

/-- A word of a panel block. -/
def isPanelWord (f : Fld) (a : RegAcc) : Bool := match a.page with | .tch _ => f.hits a.off | _ => false

end State

/-! ## The commands -/

def execTchEnable (w : RegWr) (s : State) : Host.Outcome State Fault Refusal :=
  .next (s.accessAt w (fun a => State.isTchCtrl a && bit 0 a.val) fun a t => t.ctrlWrite a (State.tchEnable a) (State.tchReset a))

def execTchPanelEnable (w : RegWr) (s : State) : Host.Outcome State Fault Refusal :=
  .next (s.accessAt w (fun a => State.isPanelWord F.TCH_P_CFG_EN a && bit 0 a.val) State.tchCfgWrite)

def execTchPanelDisable (w : RegWr) (s : State) : Host.Outcome State Fault Refusal :=
  .next (s.accessAt w (fun a => State.isPanelWord F.TCH_P_CFG_EN a && !bit 0 a.val) State.tchCfgWrite)

def execTchSoftReset (w : RegWr) (s : State) : Host.Outcome State Fault Refusal :=
  .next (s.accessAt w (fun a => State.isTchCtrl a && bit 1 a.val) fun a t => t.ctrlWrite a (State.tchEnable a) (State.tchReset a))

def execTouchFrameStart (engine : Nat) (s : State) : Host.Outcome State Fault Refusal := .next (s.touchFrameStart engine)

def execTouchPanelScanEnd (engine panel : Nat) (m : List (List Nat × List Nat)) (listen cand : List Nat) (s : State) :
    Host.Outcome State Fault Refusal := .next (s.panelScanEnd engine panel m listen cand)

def execTouchSnapshot (engine panel : Nat) (s : State) : Host.Outcome State Fault Refusal := .next (s.touchSnapshot engine panel)

def execCaptureRef (w : RegWr) (s : State) : Host.Outcome State Fault Refusal :=
  .next (s.accessAt w (fun a => State.isPanelWord F.TCH_P_CFG_CAPTURE_REF a && bit 7 a.val) State.tchCfgWrite)

def execTchNodeDataAccess (w : RegWr) (isRead : Bool) (s : State) : Host.Outcome State Fault Refusal :=
  let here := State.isPanelWord F.TCH_NODE_DATA_DATA
  .next (if isRead then s.accessRead ⟨w.req, w.win, w.off⟩ fun a t => if here a then State.nodeAccess a true t else t
    else s.accessAt w here fun a t => State.mirrorWrite t (State.nodeAccess a false t) a 0 (t.rw (a.page.key F.TCH_NODE_ADDR_DRIVE.off)))

def execTchBufWrite (w : RegWr) (s : State) : Host.Outcome State Fault Refusal :=
  .next (s.accessAt w (State.isPanelWord F.TCH_P_BUF_BUFFER) State.tchBufWrite)

end Sys2Proof.Machine
end

