-- ==== Sys2Proof/Machine/Haptic.lean ====
section
/-! DEFINITION. Haptic channels: effects, the clip store, touch rules, the control loop, faults and calibration (R325 to R340). -/

namespace Sys2Proof.Machine

/-- A channel that has never been enabled. -/
def idleHap : HapChan where
  state := .off
  effect := none
  period := 0
  braked := 0
  integ := 0
  duty := 0
  quiet := 0
  peak := 0
  limited := 0
  still := 0
  turnOff := false
  ending := false
  arrivals := []
  waiting := none

/-- Codes of HAP_Hc_STAT.STATE. -/
def hapCode : HapState → Nat
  | .off => 0
  | .idle => 1
  | .start => 2
  | .drive => 3
  | .brake => 4
  | .cal => 5
  | .fault => 6

/-- An effect from its four words (R327). -/
def effectOf (fn e0 e1 e2 e3 : Nat) : Effect where
  tapSource := bit 0 e0
  tap := bits 3 1 e0
  retrig := bit 4 e0
  priority := bits 6 5 e0
  gain := bits 31 16 e0
  clip := e1
  offset := e2
  length := e3
  fn := fn

/-- Fields of E0 to E2 that must be 0 (R327). -/
def effectReserved (e0 e1 e2 : Nat) : Bool :=
  bits 15 7 e0 != 0 || (if bit 0 e0 then e1 != 0 || e2 != 0 else bits 3 1 e0 != 0)

/-- Blocks of the clip store that an extent occupies (R328). -/
def clipBlocks (offset length : Nat) : Nat := (offset % 512 + 2 * length + 511) / 512

/-- Whether an effect plays an extent. -/
def Effect.names (x : Effect) (t : Extent) : Bool := !x.tapSource && x.clip == t.clip && x.offset == t.offset && x.length == t.length

/-- t of R330. -/
def hapTarget (sample : Int) (gain : Nat) : Int := clamp (-32767) 32767 (sample * gain / 2 ^ 15)

/-- a of R330. -/
def hapAccel (adc : Int) (scale : Nat) (inv : Bool) : Int :=
  let a := clamp (-32767) 32767 (adc * scale / 2 ^ 12)
  if inv then -a else a

/-- The loop gains of a channel block. -/
structure HapGains where
  startGain : Nat
  kp : Nat
  ki : Nat
  kf : Nat
  kb : Nat
  deriving DecidableEq, Repr

/-- The duty of R330 and the new integ. -/
def hapDuty (g : HapGains) (st : HapState) (t a integ : Int) (limited : Bool) : Int × Int :=
  let i1 := if st = .drive then clamp (-1048576) 1048576 (integ + (t - a)) else integ
  let raw := match st with
    | .start => t * g.startGain / 2 ^ 12
    | .drive => (t * g.kf + (t - a) * g.kp + i1 * g.ki) / 2 ^ 12
    | .brake => -(a * g.kb / 2 ^ 12)
    | _ => 0
  let d := clamp (-32767) 32767 raw
  (if limited then Int.tdiv d 2 else d, i1)

namespace State

def hap (s : State) (c : Nat) : HapChan := (Sparse.find s.haptic.chans c).getD idleHap

/-- Set a channel, and keep HAP_Hc_STAT and BLOCK_STAT as it stands. -/
def setHap (s : State) (c : Nat) (x : HapChan) : State :=
  let s1 := { s with haptic := { s.haptic with chans := Sparse.put s.haptic.chans c x } }
  let s2 := s1.setFld .hap F.HAP_H_STAT_STATE (hapCode x.state) [c]
  let s3 := (s2.setFld .hap F.HAP_H_STAT_PRIORITY ((x.effect.map Effect.priority).getD 0) [c]).setFld .hap F.HAP_H_STAT_SOURCE
    (b2n ((x.effect.map Effect.tapSource).getD false)) [c]
  let s4 := s3.setFld .hap F.HAP_H_STAT_FUNCTION ((x.effect.map Effect.fn).getD 0) [c]
  s4.setFld .hap F.HAP_BS_RUN (setBits c c (s4.fld .hap F.HAP_BS_RUN) (b2n (x.state == .start || x.state == .drive || x.state == .brake)))

/-! ## The clip store (R328) -/

/-- The effects that the block knows: of rules, in force, arrived, waiting, and of commands that wait for their extent. -/
def effectsHeld (s : State) : List Effect :=
  s.haptic.rules.map (fun p => p.2.effect)
    ++ s.haptic.chans.flatMap (fun p => p.2.effect.toList ++ p.2.arrivals.map Arrival.effect ++ p.2.waiting.toList.map Arrival.effect)
    ++ s.haptic.adds.map (fun p => p.2.effect) ++ s.haptic.plays.map fun p => p.2.2

/-- HAP_RULE_STAT as it stands. -/
def ruleStat (s : State) : State :=
  let used := (s.haptic.extents.map fun x => clipBlocks x.offset x.length).sum
  (s.setFld .hap F.HAP_RULE_STAT_USED s.haptic.rules.length).setFld .hap F.HAP_RULE_STAT_CLIP_FREE (512 - used)

/-- Release extents that nothing names. -/
def clipGc (s : State) : State :=
  let held := s.effectsHeld
  ({ s with haptic := { s.haptic with extents := s.haptic.extents.filter fun x => held.any fun e => e.names x } }).ruleStat

/-- The extent of an effect. -/
def extentOf (s : State) (e : Effect) : Option Extent := s.haptic.extents.find? e.names

/-- Whether an effect can start: a tap, or a resident extent. -/
def clipReady (s : State) (e : Effect) : Bool := e.tapSource || ((s.extentOf e).map fun x => x.samples.isSome).getD false

/-- A rule or effect names its clip: a fence (R80) and, when the extent is new, its load. -/
def nameClip (s : State) (e : Effect) : State :=
  if e.tapSource then s
  else
    let s1 := s.fence (e.clip % 65536)
    if (s1.extentOf e).isSome then s1
    else
      let x : Extent := ⟨e.clip, e.offset, e.length, e.fn, none⟩
      ({ s1 with haptic := { s1.haptic with extents := s1.haptic.extents ++ [x] } }).ruleStat

/-- A rule or effect that named its clip has ended. -/
def dropClip (s : State) (e : Effect) : State := if e.tapSource then s else (s.unfence (e.clip % 65536)).clipGc

/-- Read n 16-byte words of a clip for a function on the FIELD port; the spec states no value for a word that is not delivered. -/
def readClip (s : State) (who : Attr) (i b : Nat) : Nat → List Nat × State
  | 0 => ([], s)
  | n + 1 =>
    let (w, st, s1) := s.readWordAs who (s.bufAddr i b)
    let (v, s2) := if st = 0 then (w, s1) else s1.takeFree
    let (r, s3) := s2.readClip who i (b + 16) n
    (v % 2 ^ 128 :: r, s3)

/-- Samples of an extent from the words that cover it. -/
def clipSamples (offset length : Nat) (ws : List Nat) : List Int :=
  (List.range length).map fun k =>
    let b := offset % 16 + 2 * k
    signed 16 (bits (8 * (b % 16) + 15) (8 * (b % 16)) (ws.getD (b / 16) 0))

/-! ## Effects on a channel (R333) -/

/-- An arrival loses or is dropped: it is counted, and its command completes BUSY (R333, R338). -/
def dropArrival (s : State) (c : Nat) (x : Arrival) : State :=
  let s1 := ((s.satFld .hap F.HAP_H_COUNTS_DROPPED 1 [c]).event .hap 3).dropClip x.effect
  match x.jid with
  | some j => s1.complete j 0x0009
  | none => s1

/-- The command of an arrival completes OK. -/
def arrivalOk (s : State) (x : Arrival) : State :=
  match x.jid with
  | some j => s.complete j 0
  | none => s

/-- An effect arrives at a channel. -/
def arrive (s : State) (c : Nat) (x : Arrival) : State :=
  let h := s.hap c
  s.setHap c { h with arrivals := h.arrivals ++ [x] }

/-- The running effect ends and leaves the channel. -/
def endEffect (s : State) (c : Nat) : State :=
  let h := s.hap c
  match h.effect with
  | some e => (s.setHap c { h with effect := none, ending := false }).dropClip e
  | none => s.setHap c { h with ending := false }

/-- The channel's motion has ended: IDLE, or OFF after EN was written 0. -/
def hapRest (s : State) (c : Nat) : State :=
  let s1 := s.endEffect c
  let h := s1.hap c
  s1.setHap c { h with state := if h.turnOff then .off else .idle, turnOff := false, duty := 0, quiet := 0, braked := 0, limited := 0, still := 0 }

/-- Enter BRAKE, or rest at once when BRAKE_MAX is 0 (R331). -/
def hapBrake (s : State) (c : Nat) : State :=
  if s.fld .hap F.HAP_H_PHASE_BRAKE_MAX [c] = 0 then s.hapRest c
  else s.setHap c { s.hap c with state := .brake, braked := 0, quiet := 0, ending := false }

/-- The winner starts (R331): counters and, for a rule, the latency of R335; `carrier` is the time in ns from the boundary to the first
carrier period that the first duty governs. -/
def hapStart (s : State) (c carrier : Nat) (x : Arrival) : State :=
  let s1 := s.endEffect c
  let skip := s1.fld .hap F.HAP_H_PHASE_START_PERIODS [c] == 0
  let s2 := s1.setHap c { s1.hap c with
    state := if skip then .drive else .start, effect := some x.effect, period := 0, integ := 0, quiet := 0, braked := 0
    ending := false, waiting := none }
  let s3 := (s2.addFld .hap F.HAP_H_COUNTS_STARTED 1 [c]).arrivalOk x
  match x.rule with
  | some _ =>
    let us := min 65535 ((s3.time.dtime + carrier - x.touchAt) / 1000)
    (s3.setFld .hap F.HAP_H_LAT_LAST us [c]).setFld .hap F.HAP_H_LAT_MAX (max us (s3.fld .hap F.HAP_H_LAT_MAX [c])) [c]
  | none => s3

/-- What the winner does in the channel's state (R333). -/
def hapWinner (s : State) (c carrier : Nat) (x : Arrival) : State :=
  let h := s.hap c
  let stop := x.effect.gain == 0
  let fin := fun (t : State) => (t.arrivalOk x).dropClip x.effect
  match h.state with
  | .idle => if stop then fin s else s.hapStart c carrier x
  | .start | .drive =>
    if ((h.effect.map Effect.priority).getD 0) ≤ x.effect.priority then
      let s1 := s.satFld .hap F.HAP_H_COUNTS_PREEMPTED 1 [c]
      if stop then fin ((s1.endEffect c).hapBrake c) else s1.hapStart c carrier x
    else s.dropArrival c x
  | .brake =>
    if h.turnOff then s.dropArrival c x
    else if stop then fin s
    else if x.effect.retrig && !(x.rule.isSome && decide (x.touchAt + 1125000 ≤ s.time.dtime)) then s.setHap c { h with waiting := some x }
    else s.hapStart c carrier x
  | _ => s.dropArrival c x

/-- Rules first, in rule index order, then commands in arrival order. -/
def arrivalOrder (l : List Arrival) : List Arrival :=
  ((List.range 64).flatMap fun i => l.filter fun x => x.rule == some i) ++ l.filter fun x => x.rule.isNone

/-- The choice of a boundary (R333). -/
def hapChoose (s : State) (c carrier : Nat) : State :=
  let h := s.hap c
  let all := h.waiting.toList ++ arrivalOrder h.arrivals
  let best := all.foldl (fun (b : Option Arrival) x => match b with
    | none => some x
    | some y => if y.effect.priority < x.effect.priority then some x else some y) none
  let s1 := s.setHap c { h with arrivals := [], waiting := none }
  match best with
  | none => s1
  | some w =>
    let i := all.findIdx fun x => x == w
    (all.eraseIdx i).foldl (fun t x => t.dropArrival c x) (s1.hapWinner c carrier w)

/-! ## The control period (R329 to R333) -/

/-- An actuator fault (R332): FAULT, but for reason 4, which returns to IDLE. -/
def hapFault (s : State) (c reason : Nat) : State :=
  let s1 := s.endEffect c
  let s2 := s1.setHap c { s1.hap c with state := if reason = 4 then .idle else .fault, duty := 0, turnOff := false, limited := 0, still := 0 }
  let s3 := if reason = 4 then s2 else s2.setFld .hap F.HAP_H_STAT_FAULT_REASON reason [c]
  ((s3.recErr .hap 0x0E03 (c + reason * 2 ^ 8)).event .hap 0).reportContained .hap 0x0E03 (c + reason * 2 ^ 8)

/-- No sample of a tap has arrived for 4 periods of 62.5 µs (R329). -/
def tapStalled (s : State) (tap : Nat) : Bool :=
  decide (((Sparse.find s.haptic.taps tap).map Prod.snd).getD 0 + 250000 ≤ s.now)

/-- The source sample of the period (R329). -/
def hapSample (s : State) (h : HapChan) : Int :=
  match h.effect with
  | none => 0
  | some e =>
    if e.tapSource then (if s.tapStalled e.tap then 0 else ((Sparse.find s.haptic.taps e.tap).map Prod.fst).getD 0)
    else (((s.extentOf e).bind Extent.samples).getD []).getD h.period 0

/-- A driving channel that meets the stall of its tap sets TAP_STALL, once per stall (R329). -/
def noteStall (s : State) (h : HapChan) : State :=
  match h.effect with
  | some e =>
    if e.tapSource ∧ s.tapStalled e.tap ∧ e.tap ∉ s.haptic.stalled then
      ({ s with haptic := { s.haptic with stalled := s.haptic.stalled ++ [e.tap] } }).event .hap 2
    else s
  | none => s

/-- The end conditions of R331 at a boundary. -/
def hapEnds (s : State) (c : Nat) (t a : Int) : State :=
  let h := s.hap c
  let f := fun (x : Fld) => s.fld .hap x [c]
  let spent := match h.effect with
    | some e => !(e.tapSource && e.length == 0xFFFF_FFFF) && decide (e.length ≤ h.period)
    | none => true
  match h.state with
  | .start =>
    if spent || h.ending then s.hapBrake c
    else if f F.HAP_H_PHASE_START_PERIODS ≤ h.period ∨ (t ≠ 0 ∧ 0 < t * a ∧ 7 * t.natAbs ≤ 8 * a.natAbs) then
      s.setHap c { h with state := .drive, integ := 0 }
    else s
  | .drive => if spent || h.ending then s.hapBrake c else s
  | .brake =>
    let quiet := if a.natAbs < f F.HAP_H_SENSE_BRAKE_THRESH then h.quiet + 1 else 0
    if 4 ≤ quiet ∨ f F.HAP_H_PHASE_BRAKE_MAX ≤ h.braked then s.hapRest c else s.setHap c { h with quiet := quiet }
  | _ => s

/-- The sine of a calibration sweep (R340): the spec gives its amplitude and its end frequencies, not its rounding. -/
def calDuty (period lo hi level : Nat) : Int :=
  clamp (-(level : Int)) level (signed 16 (Config.openResult 0x0340 [period, lo, hi, level]))

/-- The outputs that a duty drives, after the duty `last` (R326): dead time where the sign changes. -/
def bridgeOf (s : State) (last duty : Int) : HapPins :=
  let khz := s.fld .hap F.HAP_CTRL_PWM_KHZ
  let dead := if last * duty < 0 then 10 * s.fld .hap F.HAP_CTRL_DEAD_NS else 0
  if duty = 0 then .low else if 0 < duty then .pwmA duty.natAbs khz dead else .pwmB duty.natAbs khz dead

/-- Both outputs of a channel low, or in high impedance in the standby role (R326, R33). -/
def bridgeQuiet (s : State) (c : Nat) : State := s.emit (.bridge c (if s.standby then .highZ else .low))

/-- The sample of the period that begins and the duty it drives (R329 to R333). The sweep of a calibration lasts 4,000 periods and ends
with braking (R340). -/
def periodOutput (s : State) (c : Nat) (a : Int) (lim : Bool) : State :=
  let f := fun (x : Fld) => s.fld .hap x [c]
  let g := s.hap c
  let t := hapTarget (s.hapSample g) ((g.effect.map Effect.gain).getD 0)
  let gains : HapGains := ⟨f F.HAP_H_PHASE_START_GAIN, f F.HAP_H_GAIN0_KP, f F.HAP_H_GAIN0_KI, f F.HAP_H_GAIN1_KF, f F.HAP_H_GAIN1_KB⟩
  let di := hapDuty gains g.state t a g.integ lim
  let g1 :=
    match g.state with
    | .start | .drive => { g with duty := di.1, integ := di.2, period := g.period + 1 }
    | .brake => { g with duty := di.1, braked := g.braked + 1 }
    | .cal =>
      let sweep := calDuty g.braked (f F.HAP_H_CALCFG_F_LO) (f F.HAP_H_CALCFG_F_HI) (f F.HAP_H_CALCFG_CAL_LEVEL)
      { g with duty := if g.braked < 4000 then sweep else (hapDuty gains .brake 0 a 0 false).1, braked := g.braked + 1 }
    | _ => { g with duty := 0 }
  ((if g.state = .start ∨ g.state = .drive then s.noteStall g else s).setHap c g1).emit (.bridge c (s.bridgeOf g.duty g1.duty))

/-- Rules of the channel that have been removed are gone: their waiting effects are dropped (R334). -/
def dropRule (s : State) (i : Nat) : State :=
  match Sparse.find s.haptic.rules i with
  | none => s
  | some r =>
    let h := s.hap r.channel
    let gone := fun (x : Arrival) => x.rule == some i
    let s1 := ({ s with haptic := { s.haptic with rules := Sparse.del s.haptic.rules i } }).setHap r.channel { h with
      arrivals := h.arrivals.filter fun x => !gone x
      waiting := match h.waiting with | some x => if gone x then none else some x | none => none }
    let s2 := (h.arrivals ++ h.waiting.toList).foldl (fun t x => if gone x then t.dropArrival r.channel x else t) s1
    s2.dropClip r.effect

/-- The removed rules of channel c at its period boundary. -/
def dropLeaving (s : State) (c : Nat) : State :=
  (s.haptic.rules.filter fun p => p.2.leaving && p.2.channel == c).foldl (fun t p => t.dropRule p.1) s

/-- The block runs: enabled, and not stopped by a contained fault. -/
def hapRuns (s : State) : Bool := s.flag .hap F.PG_CTRL_ENABLE && !s.blockStopped .hap

/-- A boundary at which the channel cannot drive: the standby role, or a block that is disabled or stopped. What has arrived is
dropped. -/
def quietPeriod (s : State) (c : Nat) : State :=
  let h := s.hap c
  ((h.arrivals ++ h.waiting.toList).foldl (fun t x => t.dropArrival c x)
    (s.setHap c { h with arrivals := [], waiting := none, duty := 0 })).bridgeQuiet c

/-- A period boundary of a channel, with the samples of the period that has ended. -/
def controlPeriod (s : State) (c : Nat) (adcA adcI : Int) (carrier : Nat) : State :=
  let f := fun (x : Fld) => s.fld .hap x [c]
  let h := s.hap c
  let moving := h.state == .start || h.state == .drive || h.state == .brake || h.state == .cal
  let a := hapAccel adcA (f F.HAP_H_SENSE_ACC_SCALE) (f F.HAP_H_SENSE_ACC_INV == 1)
  let lim := f F.HAP_H_LIMIT_I_LIMIT != 0 && decide (f F.HAP_H_LIMIT_I_LIMIT ≤ adcI.natAbs)
  let run := if lim then h.limited + 1 else 0
  let still := if h.state = .drive ∧ 16384 ≤ h.duty.natAbs ∧ a.natAbs < 512 then h.still + 1 else 0
  let reason : Nat :=
    if !moving then 0
    else if f F.HAP_H_LIMIT_I_FAULT ≠ 0 ∧ f F.HAP_H_LIMIT_I_FAULT ≤ adcI.natAbs then 1
    else if 16 ≤ run then 2 else if 64 ≤ still then 3 else 0
  if 8 ≤ c then s
  else if s.standby || !s.hapRuns then (s.dropLeaving c).quietPeriod c
  else
    let s0 := s.setHap c { h with
      limited := if moving then run else 0, still := still
      peak := if h.state = .cal ∧ h.braked ≤ 4000 then max h.peak a.natAbs else h.peak }
    let s1 :=
      if reason ≠ 0 then s0.hapFault c reason
      else
        let t0 := hapTarget (s0.hapSample (s0.hap c)) ((h.effect.map Effect.gain).getD 0)
        s0.hapEnds c t0 a
    ((s1.dropLeaving c).hapChoose c carrier).periodOutput c a lim

/-- Whether haptic tap t is fed: its setting in force has EN = 1 and its bus is enabled (R356). -/
def tapFed (s : State) (t : Nat) : Bool :=
  let v : State := { s with regs := s.audio.active }
  let b := v.fld (.aud 0) F.AUD_TAP_BUS [t]
  v.fld (.aud 0) F.AUD_TAP_EN [t] == 1 && s.fld (.aud (4 + b / 8)) F.BUS_CFG_EN [b % 8] == 1

/-- A tap sample arrives (R329). -/
def tapSample (s : State) (tap : Nat) (v : Int) : State :=
  if 8 ≤ tap ∨ !s.tapFed tap then s
  else
    { s with haptic := { s.haptic with
        taps := Sparse.put s.haptic.taps tap (clamp (-32768) 32767 v, s.now)
        stalled := s.haptic.stalled.filter (· != tap) } }

/-! ## HAPTIC_PLAY and TOUCH_RULE (R334, R336 to R338) -/

/-- The checks of R337 from step 1 for an effect on a channel; `bad` is step 3, `panel` the panel of a rule, `empty` its W or H of 0,
`full` step 9. -/
def effectCheck (s : State) (fn c : Nat) (e0 e1 e2 e3 : Nat) (bad : Bool) (panel : Option Nat) (empty full : Bool) : Option Nat :=
  let e := effectOf fn e0 e1 e2 e3
  let clip := s.checkBuf fn e1
  let plots := match clip with | .ok i => ((s.buf i).map fun (b : Buf) => b.plots.length).getD 0 | .error _ => 0
  let clipFault : Option Nat :=
    if e.tapSource then none
    else match clip with
      | .error code => some code
      | .ok i => if s.bufKind i ≠ 5 then some 0x0107 else none
  let used := (s.haptic.extents.map fun x => clipBlocks x.offset x.length).sum
  match clipFault with
  | some code => some code
  | none =>
    if bad || effectReserved e0 e1 e2 then some 0x0006
    else if isVf fn && (fn != s.fld .hap F.HAP_H_CTRL_FUNCTION [c]
        || (match panel with | some p => fn != s.fld (.tch (p / 4)) F.TCH_P_ROUTE_FUNCTION [p % 4] | none => false)) then some 0x000A
    else if e.length = 0 ∨ empty then some 0x0002
    else if !e.tapSource ∧ (131072 < e.length ∨ e.offset % 2 = 1 ∨ plots * 65536 < e.offset + 2 * e.length) then some 0x0105
    else if s.blockStopped .hap then some 0x1302
    else if !s.flag .hap F.PG_CTRL_ENABLE ∨ s.fld .hap F.HAP_H_CTRL_EN [c] = 0 then some 0x1301
    else if (s.hap c).state = .fault then some 0x0E03
    else if full then some 0x0E01
    else if !e.tapSource ∧ (s.extentOf e).isNone ∧ 512 < used + clipBlocks e.offset e.length then some 0x0E02
    else none

/-- HAPTIC_PLAY (R336). -/
def carryHapticPlay (j : Job) (s : State) : State :=
  let c := bits 2 0 (j.p 0)
  match s.effectCheck j.fn c (j.p 1) (j.p 2) (j.p 3) (j.p 4) (bits 31 3 (j.p 0) != 0) none false false with
  | some code => s.complete j.jid code
  | none =>
    let e := effectOf j.fn (j.p 1) (j.p 2) (j.p 3) (j.p 4)
    let s1 := s.nameClip e
    if s1.clipReady e then s1.arrive c ⟨e, none, some j.jid, 0⟩
    else { s1 with haptic := { s1.haptic with plays := s1.haptic.plays ++ [(j.jid, c, e)] } }

/-- The lowest free rule index. -/
def freeRule (s : State) : Option Nat := (List.range 64).find? fun i => (Sparse.find s.haptic.rules i).isNone

/-- Enter a rule at an index. -/
def putRule (s : State) (i : Nat) (r : Rule) : State :=
  ({ s with haptic := { s.haptic with rules := Sparse.put s.haptic.rules i r } }).ruleStat

/-- Remove a rule: it is gone from the next period boundary of its channel (R334). -/
def removeRule (s : State) (i : Nat) : State :=
  match Sparse.find s.haptic.rules i with
  | none => s
  | some r => { s with haptic := { s.haptic with rules := Sparse.put s.haptic.rules i { r with leaving := true } } }

/-- A rule from the words of TOUCH_RULE. -/
def ruleOf (fn : Nat) (ps : List Nat) : Rule :=
  let p := fun (i : Nat) => ps.getD i 0
  ⟨fn, bits 18 16 (p 0), bits 22 20 (p 0), bits 26 24 (p 0), bits 15 0 (p 1), bits 31 16 (p 1), bits 15 0 (p 2), bits 31 16 (p 2),
    effectOf fn (p 3) (p 4) (p 5) (p 6), 0, false⟩

/-- TOUCH_RULE (R334). -/
def carryTouchRule (j : Job) (s : State) : State :=
  let p0 := j.p 0
  let op := bits 1 0 p0
  let i := bits 13 8 p0
  if op = 1 then
    let rest := bits 7 2 p0 != 0 || bits 31 14 p0 != 0 || (List.range 6).any fun k => j.p (k + 1) != 0
    match Sparse.find s.haptic.rules i with
    | none => s.complete j.jid 0x0006
    | some r =>
      if rest ∨ r.leaving ∨ (isVf j.fn ∧ r.fn ≠ j.fn) then s.complete j.jid 0x0006
      else ((s.removeRule i).mirror (.record 0x33 [i] [] none)).complete j.jid 0
  else
    let r := ruleOf j.fn j.params
    let bad := op != 0 || i != 0 || bits 7 2 p0 != 0 || bits 15 14 p0 != 0 || bit 19 p0 || bit 23 p0 || bits 31 27 p0 != 0 || r.events == 0
    match s.effectCheck j.fn r.channel (j.p 3) (j.p 4) (j.p 5) (j.p 6) bad (some r.panel) (r.w == 0 || r.h == 0)
        (decide (64 ≤ s.haptic.rules.length + s.haptic.adds.length)) with
    | some code => s.complete j.jid code
    | none =>
      let s1 := s.nameClip r.effect
      if s1.clipReady r.effect then
        match s1.freeRule with
        | some k => ((s1.putRule k r).mirror (.record 0x31 (k :: j.fn :: j.params) [] none)).complete j.jid 0 [k]
        | none => s1
      else { s1 with haptic := { s1.haptic with adds := s1.haptic.adds ++ [(j.jid, r)] } }

/-- The first extent that is loading becomes resident: rules that waited for it are added, effects arrive (R328, R338). -/
def clipLoadDone (s : State) : State :=
  match s.haptic.extents.find? fun x => x.samples.isNone with
  | none => s
  | some x =>
    let who : Attr := ⟨x.fn, x.fn == 0x41, s.fnCrit x.fn, 7, false, false⟩
    let first := x.offset / 16
    let (ws, s1) := s.readClip who (x.clip % 65536) (16 * first) ((x.offset + 2 * x.length + 15) / 16 - first)
    let y := { x with samples := some (clipSamples x.offset x.length ws) }
    let adds := s1.haptic.adds.filter fun p => p.2.effect.names x
    let plays := s1.haptic.plays.filter fun p => p.2.2.names x
    let s2 := { s1 with haptic := { s1.haptic with
      extents := s1.haptic.extents.map fun z => if z = x then y else z
      adds := s1.haptic.adds.filter fun p => !p.2.effect.names x
      plays := s1.haptic.plays.filter fun p => !p.2.2.names x } }
    let s3 := adds.foldl (fun t p => match t.freeRule with
      | some k =>
        let params := ((t.job p.1).map Job.params).getD []
        ((t.putRule k p.2).mirror (.record 0x31 (k :: p.2.fn :: params) [] none)).complete p.1 0 [k]
      | none => t) s2
    (plays.foldl (fun t p => t.arrive p.2.1 ⟨p.2.2, none, some p.1, 0⟩) s3).clipGc

/-! ## The rule matcher (R334) -/

/-- Whether a position lies in a rule's rectangle. -/
def inRule (r : Rule) (x y : Nat) : Bool := decide (r.x ≤ x) && decide (x < r.x + r.w) && decide (r.y ≤ y) && decide (y < r.y + r.h)

/-- Whether a rule matches an entry. -/
def ruleMatches (r : Rule) (e : TouchEntry) : Bool :=
  (e.event == 1 && bit 0 r.events && inRule r e.x e.y) || (e.event == 3 && bit 1 r.events && inRule r e.x e.y)
    || (e.event == 2 && bit 2 r.events && inRule r e.x e.y && !inRule r e.prevX e.prevY)

/-- The matcher takes the next hand-off: each matching rule gives one effect. -/
def ruleMatch (s : State) : State :=
  match s.touch.handoffs with
  | [] => s
  | h :: rest =>
    let s1 := { s with touch := { s.touch with handoffs := rest } }
    if s1.standby then s1
    else
      s1.haptic.rules.foldl (fun t p =>
        let r := p.2
        if r.panel = h.panel ∧ s1.fnState r.fn ≠ .resetting ∧ h.entries.any (ruleMatches r) then
          let u := t.putRule p.1 { r with fires := (r.fires + 1) % 2 ^ 32 }
          let v := if r.effect.tapSource then u else u.fence (r.effect.clip % 65536)
          v.arrive r.channel ⟨r.effect, some p.1, none, h.time⟩
        else t) s1

/-! ## Register writes, calibration, resets -/

/-- EN of a channel (R331). -/
def hapEnable (s : State) (c : Nat) (on : Bool) : State :=
  let s1 := s.setFld .hap F.HAP_H_CTRL_EN (b2n on) [c]
  let h := s1.hap c
  if on then
    match h.state with
    | .off => s1.setHap c { h with state := .idle }
    | _ => s1.setHap c { h with turnOff := false }
  else
    match h.state with
    | .off => s1
    | .fault => (s1.setHap c { h with state := .off }).setFld .hap F.HAP_H_STAT_FAULT_REASON 0 [c]
    | .brake => s1.setHap c { h with turnOff := true }
    | _ => (s1.setHap c { h with turnOff := true }).hapBrake c

/-- CAL_START (R340). -/
def calStart (s : State) (a : RegAcc) (c : Nat) : State :=
  let f := fun (x : Fld) => s.fld .hap x [c]
  let h := s.hap c
  if h.state ≠ .idle then s.recAcc a 0x0009
  else if !s.hapRuns then s.recAcc a (if s.blockStopped .hap then 0x1302 else 0x1301)
  else if f F.HAP_H_CALCFG_F_HI ≤ f F.HAP_H_CALCFG_F_LO ∨ f F.HAP_H_CALCFG_CAL_LEVEL = 0 then s.recAcc a 0x0006
  else s.setHap c { h with state := .cal, braked := 0, limited := 0, still := 0, peak := 0 }

/-- HAP_Hc_CTRL. -/
def hapCtrlWrite (a : RegAcc) (s : State) : State :=
  let c := (a.off - 0x100) / 0x40
  let en := s.grants a F.HAP_H_CTRL_EN
  let cal := s.grants a F.HAP_H_CTRL_CAL_START
  let s1 := s.plainWrite a fun f => f != F.HAP_H_CTRL_EN
  let s2 := if en then s1.hapEnable c (bit 0 a.val) else s1
  let s3 := if cal then s2.calStart a c else s2
  mirrorWrite s s3 a 0 0

/-- HAP_CTRL: refused while a channel is enabled, or with a carrier outside 20 to 100 kHz. -/
def hapCarrierWrite (a : RegAcc) (s : State) : State :=
  if (List.range 8).any fun c => s.fld .hap F.HAP_H_CTRL_EN [c] == 1 then s.refuse a 0x000A
  else if s.written a F.HAP_CTRL_PWM_KHZ ∧ (bits 6 0 a.val < 20 ∨ 100 < bits 6 0 a.val) then s.refuse a 0x0006
  else mirrorWrite s (s.plainWrite a) a 0 0

/-- A calibration sweep ends with the frequency at which |a| peaked, in 0.1 Hz, and that peak, which is the one of the period samples of
the sweep (R340). -/
def calDone (s : State) (c freq peak : Nat) : State :=
  let level := s.fld .hap F.HAP_H_CALCFG_CAL_LEVEL [c]
  if (s.hap c).state ≠ .cal ∨ peak ≠ (s.hap c).peak then s
  else if peak < level / 16 then s.hapFault c 4
  else
    -- CAL_LEVEL may have been written 0 during the sweep; the quotient is then open
    let g := if level = 0 then Config.openResult 0x0341 [peak] else peak * 4096 / level
    let s1 := (s.setFld .hap F.HAP_H_CAL_F_RES freq [c]).setFld .hap F.HAP_H_CAL_G (min 0xFFFF g) [c]
    (s1.setHap c { s1.hap c with state := .idle, duty := 0, braked := 0 }).event .hap 1

/-- Step 2 of a function reset: its rules go, its effects end through braking (R339). The commands themselves end with the reset. -/
def hapResetFn (s : State) (fn : Nat) : State :=
  let s1 := (s.haptic.rules.filter fun p => p.2.fn == fn).foldl (fun t p => (t.dropRule p.1).mirror (.record 0x33 [p.1] [] none)) s
  let gone := s1.haptic.adds.filter (fun p => p.2.fn == fn) |>.map fun p => p.2.effect
  let gone2 := s1.haptic.plays.filter (fun p => p.2.2.fn == fn) |>.map fun p => p.2.2
  let s2 := { s1 with haptic := { s1.haptic with
    adds := s1.haptic.adds.filter fun p => p.2.fn != fn
    plays := s1.haptic.plays.filter fun p => p.2.2.fn != fn } }
  let s3 := (gone ++ gone2).foldl (fun t e => t.dropClip e) s2
  (List.range 8).foldl (fun t c =>
    let h := t.hap c
    let mine := fun (x : Arrival) => x.effect.fn == fn
    let out := (h.arrivals ++ h.waiting.toList).filter mine
    let u := t.setHap c { h with
      ending := h.ending || (match h.effect with | some e => e.fn == fn | none => false)
      arrivals := h.arrivals.filter fun x => !mine x
      waiting := match h.waiting with | some x => if mine x then none else some x | none => none }
    out.foldl (fun v x => v.dropClip x.effect) u) s3

/-- The block goes silent at once: role changes and device-fatal faults (R326, R339). Enabled channels stand in IDLE. -/
def hapSilence (s : State) : State :=
  (List.range 8).foldl (fun t c =>
    let u := (t.endEffect c).bridgeQuiet c
    let h := u.hap c
    if h.state = .off ∨ h.state = .fault then u
    else (h.arrivals ++ h.waiting.toList).foldl (fun v x => v.dropArrival c x)
      (u.setHap c { h with state := if h.turnOff then .off else .idle, turnOff := false, duty := 0, arrivals := [], waiting := none })) s

/-- ENABLE of HAP: a disabled block keeps both outputs of every channel low (R326). -/
def hapBlockEnable (a : RegAcc) (on : Bool) (s : State) : State :=
  mirroredEnable a on (if on then s else s.hapSilence)

/-- A soft reset of HAP: channels, rules and clip store return to their state after reset; commands end ABORTED. -/
def hapBlockReset (a : RegAcc) (s : State) : State :=
  let jobs := s.haptic.adds.map Prod.fst ++ s.haptic.plays.map Prod.fst
    ++ s.haptic.chans.flatMap fun p => (p.2.arrivals ++ p.2.waiting.toList).filterMap Arrival.jid
  let s1 := s.effectsHeld.foldl (fun t e => if e.tapSource then t else t.unfence (e.clip % 65536)) s
  let s2 := (List.range 8).foldl bridgeQuiet { s1 with haptic := Haptic.reset }
  let s3 := jobs.foldl (fun t j => t.complete j 0x0008) s2
  mirrorWrite s (s3.resetPage .hap) a 0 0

end State

/-! ## The commands -/

def execHapticPlay (c : CmdArgs) (s : State) : Host.Outcome State Fault Refusal := .next (s.command 0x30 c State.carryHapticPlay)

def execTouchRule (c : CmdArgs) (s : State) : Host.Outcome State Fault Refusal := .next (s.command 0x31 c State.carryTouchRule)

def execRuleMatch (s : State) : Host.Outcome State Fault Refusal := .next s.ruleMatch

def execClipLoadDone (s : State) : Host.Outcome State Fault Refusal := .next s.clipLoadDone

def execControlPeriod (ch : Nat) (adcA adcI : Int) (carrier : Nat) (s : State) : Host.Outcome State Fault Refusal :=
  .next (s.controlPeriod ch adcA adcI carrier)

def execTapSample (tap : Nat) (sample : Int) (s : State) : Host.Outcome State Fault Refusal := .next (s.tapSample tap sample)

def execHapChannelEnable (w : RegWr) (s : State) : Host.Outcome State Fault Refusal :=
  .next (s.accessAt w (State.isWord .hap F.HAP_H_CTRL_EN) State.hapCtrlWrite)

def execCalStart (w : RegWr) (s : State) : Host.Outcome State Fault Refusal :=
  .next (s.accessAt w (fun a => State.isWord .hap F.HAP_H_CTRL_CAL_START a && bit 1 a.val) State.hapCtrlWrite)

def execCalDone (ch freq peak : Nat) (s : State) : Host.Outcome State Fault Refusal := .next (s.calDone ch freq peak)

end Sys2Proof.Machine
end

