-- ==== Sys2Proof/Machine/Audio.lean ====
section
/-! DEFINITION. The audio block: rate domains and ports, buses, streams, route changes under signal, and its pages (R341 to R369). -/

namespace Sys2Proof.Machine

/-! ## Arithmetic (R342, R350, R351) -/

def sat16 (v : Int) : Int := clamp (-32768) 32767 v
def sat24 (v : Int) : Int := clamp (-8388608) 8388607 v
def sat32 (v : Int) : Int := clamp (-2147483648) 2147483647 v

/-- A sample from a slot of 16, 24 or 32 bits (R342). -/
def slotIn (width : Nat) (v : Int) : Int :=
  if width = 0 then signed 16 (toBits 16 v) * 2 ^ 8 else if width = 1 then signed 24 (toBits 24 v) else signed 32 (toBits 32 v) / 2 ^ 8

/-- A slot from a sample. -/
def slotOut (width : Nat) (v : Int) : Int :=
  if width = 0 then sat16 ((v + 128) / 2 ^ 8) else if width = 1 then v else v * 2 ^ 8

/-- Settings of a bus, as R350 and R351 use them. -/
structure BusCfg where
  gain : Int
  bqEn : Nat
  coef : List (Int × Int × Int × Int × Int)
  thresh : Nat
  release : Nat
  deriving DecidableEq, Repr

/-- One sample through the ten biquads: the result, the new states, and whether anything saturated. -/
def biquads (en : Nat) : Nat → List (Int × Int × Int × Int × Int) → List (Int × Int × Int × Int) → Int → Int × List (Int × Int × Int × Int) × Bool
  | _, [], sts, y => (y, sts, false)
  | _, _, [], y => (y, [], false)
  | k, (b0, b1, b2, a1, a2) :: cs, (x1, x2, y1, y2) :: sts, y =>
    if bit k en then
      let v := b0 * y + b1 * x1 + b2 * x2 - a1 * y1 - a2 * y2
      let raw := (v + 2 ^ 27) / 2 ^ 28
      let z := sat32 raw
      let (out, r, s) := biquads en (k + 1) cs sts z
      (out, (y, x1, z, y1) :: r, s || z != raw)
    else
      let (out, r, s) := biquads en (k + 1) cs sts y
      (out, (x1, x2, y1, y2) :: r, s)

/-- The sum of the input selectors: (sample, gain) of each with a source. -/
def mixInputs (xs : List (Int × Int)) : Int × Bool :=
  xs.foldl (fun (acc : Int × Bool) p =>
    let raw := acc.1 + (p.1 * p.2 + 8192) / 2 ^ 14
    (sat32 raw, acc.2 || sat32 raw != raw)) (0, false)

/-- One sample of a bus: unlimited, limited, the new run, saturated, limiting. -/
def busSample (c : BusCfg) (r : BusRun) (xs : List (Int × Int)) : Int × Int × BusRun × Bool × Bool :=
  let (acc, s0) := mixInputs xs
  let (y, st, s1) := biquads c.bqEn 0 c.coef r.biquads acc
  let raw := (y * c.gain + 8192) / 2 ^ 14
  let u := sat32 raw
  let p := u.natAbs
  let lg1 := if 0 < p ∧ c.thresh < p * r.lg / 2 ^ 15 then c.thresh * 2 ^ 15 / p else r.lg
  let rawL := u * lg1 / 2 ^ 15
  let l := sat24 rawL
  let lg2 := if lg1 < 32768 then min 32768 (lg1 + max 1 ((32768 - lg1) * (c.release + 1) / 2 ^ 12)) else lg1
  (u, l, ⟨st, lg2⟩, s0 || s1 || u != raw || l != rawL, decide (lg1 < 32768))

/-- A block of a bus: unlimited and limited samples, the run after it, saturated, limiting. -/
def busBlock (c : BusCfg) (r : BusRun) (xss : List (List (Int × Int))) : List Int × List Int × BusRun × Bool × Bool :=
  xss.foldl (fun (acc : List Int × List Int × BusRun × Bool × Bool) xs =>
    let (u, l, r1, s, g) := busSample c acc.2.2.1 xs
    (acc.1 ++ [u], acc.2.1 ++ [l], r1, acc.2.2.2.1 || s, acc.2.2.2.2 || g)) ([], [], r, false, false)

/-- Crossfade a block whose first sample is number `k` (counted from 1) of `x` (R366). -/
def crossfade (x k : Nat) (old new : List Int) : List Int :=
  ((old.zip new).zipIdx).map fun p => (p.1.1 * ((x : Int) - (k + p.2 : Nat)) + p.1.2 * (k + p.2 : Nat)) / x

/-- A linear fade of a block: `done` samples of `len` have passed (R352, R360). -/
def fadeBlock (isIn : Bool) (done len : Nat) (l : List Int) : List Int :=
  l.zipIdx.map fun p =>
    let j := done + p.2
    let w := if isIn then min (j + 1) len else len - 1 - min j (len - 1)
    Int.tdiv (p.1 * w) len

/-- The state of a bus at its start. -/
def freshRun : BusRun := ⟨List.replicate 10 (0, 0, 0, 0), 32768⟩

def idleBus : AudBus := ⟨false, freshRun, none, none⟩

def idleStream : AudStream := ⟨[], false, 0, false, false⟩

/-- XFADE in samples. -/
def xfadeLen (code : Nat) : Nat := if code = 0 then 0 else if code = 1 then 16 else if code = 2 then 64 else 256

/-- A 16-sample block of silence. -/
def silence : List Int := List.replicate 16 0

/-! ## Names of elements -/

/-- Page and block index of a bus. -/
def busPage (b : Nat) : Page := .aud (4 + b / 8)

/-- Page of a stream. -/
def strPage (c : Nat) : Page := .aud (2 + c / 32)

/-- Index of a TDM port's block: 0 to 5 input ports, 6 to 11 output ports. -/
def tdmIx (p : Nat) : List Nat := [p / 6, p % 6]

/-- A source code is one that R348 names. -/
def validCode (c : Nat) : Bool :=
  c == 0 || (decide (1 ≤ c) && decide (c ≤ 0x60)) || (decide (0x80 ≤ c) && decide (c ≤ 0x87)) || (decide (0x100 ≤ c) && decide (c ≤ 0x13F))
    || (decide (0x180 ≤ c) && decide (c ≤ 0x197))

def isBusCode (c : Nat) : Bool := decide (0x180 ≤ c) && decide (c ≤ 0x197)

/-- A pending field's word, by page and offset (R363). -/
def isPending (pg : Page) (o : Nat) : Bool :=
  match pg with
  | .aud 0 => F.AUD_ST_MIC.hits o || F.AUD_TAP_BUS.hits o
  | .aud 1 => false
  | .aud 7 => F.OUT_P_S_SOURCE.hits o
  | .aud 8 => false
  | .aud n =>
    if n < 4 then F.STR_SRC_SOURCE.hits o
    else F.BUS_CFG_EN.hits o || F.BUS_LIMIT_THRESH.hits o || F.BUS_IN_SOURCE.hits o || F.BUS_BQ_B0_COEF.hits o || F.BUS_BQ_B1_COEF.hits o
      || F.BUS_BQ_B2_COEF.hits o || F.BUS_BQ_A1_COEF.hits o || F.BUS_BQ_A2_COEF.hits o
  | _ => false

/-- A selector of a set: page, offset, kind, own number, destination domain, source code. -/
structure Selector where
  page : Nat
  off : Nat
  /-- 0 bus input, 1 output slot, 2 capture source. -/
  kind : Nat
  owner : Nat
  dst : Nat
  code : Nat
  deriving DecidableEq, Repr

namespace State

/-! ## Settings -/

/-- A state whose registers show a set of pending values. -/
def audView (s : State) (set : Store Word32) : State := { s with regs := set }

def busDomain (s : State) (b : Nat) : Nat := s.fld (busPage b) F.BUS_CFG_DOMAIN [b % 8]

def strFld (s : State) (c : Nat) (f : Fld) : Nat := s.fld (strPage c) f [c % 32]

def tdmFld (s : State) (p : Nat) (f : Fld) : Nat := s.fld (.aud 1) f (tdmIx p)

def stream (s : State) (c : Nat) : AudStream := (Sparse.find s.audio.streams c).getD idleStream

/-- Set a stream, and keep STRc_STAT as it stands. -/
def setStream (s : State) (c : Nat) (x : AudStream) : State :=
  let s1 := { s with audio := { s.audio with streams := Sparse.put s.audio.streams c x } }
  (s1.setFld (strPage c) F.STR_STAT_QUEUED x.regions.length [c % 32]).setFld (strPage c) F.STR_STAT_RUNNING (b2n x.running) [c % 32]

def bus (s : State) (b : Nat) : AudBus := (Sparse.find s.audio.buses b).getD idleBus

def setBus (s : State) (b : Nat) (x : AudBus) : State := { s with audio := { s.audio with buses := Sparse.put s.audio.buses b x } }

/-- The domain of a source code; silence has none. -/
def codeDomain (s : State) (c : Nat) : Option Nat :=
  if c = 0 then none
  else if c ≤ 0x60 then some (s.tdmFld ((c - 1) / 16) F.TDM_CFG_DOMAIN)
  else if c < 0x100 then some 0
  else if c < 0x180 then some (s.strFld (c - 0x100) F.STR_CFG_DOMAIN)
  else some (s.busDomain (c - 0x180))

/-- The words of the pending fields that differ from reset. -/
def pendingSet (s : State) : Store Word32 :=
  s.regs.filter fun p => match pageOfKey p.1 with
    | some pg => isPending pg (p.1 % 0x1000)
    | none => false

/-- The domain in which an element's word acts. -/
def wordDomain (s : State) (set : Store Word32) (k : Nat) : Nat :=
  let o := k % 0x1000
  match pageOfKey k with
  | some (.aud 0) => if F.AUD_TAP_BUS.hits o then s.busDomain (bits 4 0 ((s.audView set).rw k)) else 0
  | some (.aud 7) => s.tdmFld (6 + (o - 0x100) / 0x40) F.TDM_CFG_DOMAIN
  | some (.aud n) =>
    if n < 4 then s.strFld ((n - 2) * 32 + (o - 0x100) / 0x10) F.STR_CFG_DOMAIN
    else s.busDomain ((n - 4) * 8 + (o - 0x100) / 0x140)
  | _ => 0

/-! ## The check of an armed set (R364) -/

/-- The selectors of a set, in order of page and offset. -/
def selectors (s : State) (set : Store Word32) : List Selector :=
  let v := s.audView set
  ((List.range 64).filterMap fun c =>
      let f := F.STR_SRC_SOURCE
      if s.strFld c F.STR_CFG_CAPTURE = 1 then
        some ⟨2 + c / 32, f.at [c % 32], 2, c, s.strFld c F.STR_CFG_DOMAIN, v.fld (strPage c) f [c % 32]⟩ else none)
    ++ ((List.range 24).flatMap fun b => (List.range 16).map fun i =>
      ⟨4 + b / 8, F.BUS_IN_SOURCE.at [b % 8, i], 0, b, s.busDomain b, v.fld (busPage b) F.BUS_IN_SOURCE [b % 8, i]⟩)
    ++ ((List.range 6).flatMap fun p => (List.range 16).map fun i =>
      ⟨7, F.OUT_P_S_SOURCE.at [p, i], 1, p, s.tdmFld (6 + p) F.TDM_CFG_DOMAIN, v.fld (.aud 7) F.OUT_P_S_SOURCE [p, i]⟩)

/-- Reasons 1 to 3 for one selector. -/
def selectorFault (x : Selector) : Option Nat :=
  if !validCode x.code then some 1
  else if x.kind = 0 then (if isBusCode x.code ∧ x.owner ≤ x.code - 0x180 then some 2 else none)
  else if x.kind = 1 then (if x.code = 0 ∨ isBusCode x.code then none else some 3)
  else if 0x100 ≤ x.code ∧ x.code < 0x180 then some 3 else none

/-- The bridges that a set needs, each with the first selector that needs it (R349). -/
def bridgeNeeds (s : State) (set : Store Word32) : List ((Nat × Nat × Nat) × Selector) :=
  (s.selectors set).foldl (fun acc x =>
    match s.codeDomain x.code with
    | some d =>
      if d = x.dst ∨ (acc.any fun p => p.1 == (x.code, d, x.dst)) then acc else acc ++ [((x.code, d, x.dst), x)]
    | none => acc) []

/-- The first failing register of a set: offset, page, reason. -/
def routeFault (s : State) (set : Store Word32) : Option (Nat × Nat × Nat) :=
  let v := s.audView set
  let f := fun (x : Fld) (i : Nat) => v.fld (.aud 0) x [i]
  let side := (List.range 2).findSome? fun i =>
    let p := f F.AUD_ST_PORT i
    if 6 ≤ p then some (F.AUD_ST_MIC.at [i], 0, 1)
    else if f F.AUD_ST_EN i = 1 ∧ (s.tdmFld (6 + p) F.TDM_CFG_DOMAIN ≠ 0 ∨ s.tdmFld (6 + p) F.TDM_CFG_SLOTS ≤ f F.AUD_ST_SLOT i) then
      some (F.AUD_ST_MIC.at [i], 0, 5)
    else none
  let tap := (List.range 8).findSome? fun i => if 23 < f F.AUD_TAP_BUS i then some (F.AUD_TAP_BUS.at [i], 0, 3) else none
  let sel := (s.selectors set).findSome? fun x => (selectorFault x).map fun r => (x.off, x.page, r)
  let needs := s.bridgeNeeds set
  let running := s.audio.bridges.map Prod.snd
  let extra := needs.filter fun n => !(running.any fun b => (b.source, b.src, b.dst) == n.1)
  let many := if 32 < needs.length then (needs[32]?) else extra[32 - running.length]?
  match side with
  | some x => some x
  | none => match tap with
  | some x => some x
  | none => match sel with
  | some x => some x
  | none => many.map fun n => (n.2.off, n.2.page, 4)

/-! ## Bridges (R349, R365) -/

/-- Show the bridges in AUD8 and AUD_BRIDGES. -/
def showBridges (s : State) : State :=
  let s1 := (List.range 32).foldl (fun t k =>
    let w := match Sparse.find t.audio.bridges k with
      | some b => b.source + b.src * 2 ^ 9 + b.dst * 2 ^ 11 + b2n b.primed * 2 ^ 13 + 2 ^ 15
      | none => 0
    t.setRw ((Page.aud 8).key (F.AUD_BR_SOURCE.at [k])) w) s
  s1.setFld (.aud 0) F.AUD_BRIDGES_USED s1.audio.bridges.length

/-- Keep the bridges that some set needs. -/
def trimBridges (s : State) (sets : List (Store Word32)) : State :=
  let needs := sets.flatMap fun x => (s.bridgeNeeds x).map Prod.fst
  ({ s with audio := { s.audio with
    bridges := s.audio.bridges.filter fun p => needs.contains (p.2.source, p.2.src, p.2.dst) } }).showBridges

/-- Start the bridges that a set needs and that do not run. -/
def startBridges (s : State) (set : Store Word32) : State :=
  ((s.bridgeNeeds set).foldl (fun t n =>
    if t.audio.bridges.any fun p => (p.2.source, p.2.src, p.2.dst) == n.1 then t
    else
      match (List.range 32).find? fun k => (Sparse.find t.audio.bridges k).isNone with
      | some k => { t with audio := { t.audio with bridges := Sparse.put t.audio.bridges k ⟨n.1.1, n.1.2.1, n.1.2.2, false⟩ } }
      | none => t) s).showBridges

/-- A bridge has run for its delay. -/
def bridgePrimed (s : State) (k : Nat) : State :=
  match Sparse.find s.audio.bridges k with
  | some b => ({ s with audio := { s.audio with bridges := Sparse.put s.audio.bridges k { b with primed := true } } }).showBridges
  | none => s

/-- AUD_CTRL: XFADE is an ordinary field; APPLY checks the pending values and arms them (R363, R364). -/
def audCtrlWrite (a : RegAcc) (s : State) : State :=
  let apply := s.grants a F.AUD_CTRL_APPLY
  let s1 := s.plainWrite a
  let s2 :=
    if !apply then s1
    else
      let set := s1.pendingSet
      match s1.routeFault set with
      | some (o, p, r) => s1.recErr (.aud 0) 0x0F01 (o + p * 2 ^ 12 + r * 2 ^ 16)
      | none =>
        let t := { s1 with audio := { s1.audio with
          armed := some set, todo := [0, 1, 2], xfade := s1.fld (.aud 0) F.AUD_CTRL_XFADE, applying := false } }
        ((t.trimBridges [t.audio.active, t.audio.old, set]).startBridges set).setFld (.aud 0) F.AUD_CTRL_ARMED 1
  mirrorWrite s s2 a 0 0

/-! ## A domain applies the armed set (R365) -/

/-- The words in which two sets differ and that act in domain d. -/
def changedIn (s : State) (old new : Store Word32) (d : Nat) : List Nat :=
  ((old.map Prod.fst ++ new.map Prod.fst).eraseDups).filter fun k =>
    (s.audView old).rw k != (s.audView new).rw k && s.wordDomain new k == d

/-- Whether domain d may apply: every bridge feeding it has run, and no crossfade of an earlier set runs. -/
def mayApply (s : State) (d : Nat) : Bool :=
  s.audio.todo.contains d && !(s.audio.bridges.any fun p => p.2.dst == d && !p.2.primed)
    && (s.audio.applying || s.audio.fades.isEmpty)

/-- Apply the armed set in domain d. -/
def applySet (s : State) (d : Nat) : State :=
  match s.audio.armed with
  | none => s
  | some set =>
    if !s.mayApply d then s
    else
      let keys := s.changedIn s.audio.active set d
      let word := fun (st : Store Word32) (k : Nat) => BitVec.ofNat 32 ((s.audView st).rw k)
      let put := fun (st : Store Word32) (src : Store Word32) => keys.foldl (fun acc k => Sparse.set (resetWord s.part) acc k (word src k)) st
      let len := xfadeLen s.audio.xfade
      let fade := decide (len ≠ 0) && !keys.isEmpty
      let todo := s.audio.todo.filter (· != d)
      let s1 := { s with audio := { s.audio with
        active := put s.audio.active set
        old := if fade then put s.audio.old s.audio.active else s.audio.old
        fades := if fade then Sparse.put s.audio.fades d (0, len, keys) else s.audio.fades
        todo := todo, applying := true, armed := if todo = [] then none else some set } }
      let s2 := if fade then
          ((List.range 24).filter fun b => s1.busDomain b == d).foldl (fun t b => t.setBus b { t.bus b with old := some (t.bus b).run }) s1
        else s1
      let s3 := if todo = [] then s2.setFld (.aud 0) F.AUD_CTRL_ARMED 0 else s2
      if fade then s3.setFld (.aud 0) F.AUD_CTRL_XFADE_BUSY 1 else s3

/-- The end of the crossfades (R365 step 4): XFADE_BUSY clears, bridges that no set needs are released, and APPLY_DONE is set once every
domain has applied the set. -/
def applyEnd (s : State) : State :=
  let done := s.audio.applying && s.audio.todo.isEmpty
  let busy := s.flag (.aud 0) F.AUD_CTRL_XFADE_BUSY
  if s.audio.fades.isEmpty && (done || busy) then
    let s1 := { s with audio := { s.audio with applying := s.audio.applying && !done, old := [] } }
    let s2 := (s1.trimBridges (s1.audio.active :: s1.audio.armed.toList)).setFld (.aud 0) F.AUD_CTRL_XFADE_BUSY 0
    if done || !s.audio.applying then s2.event (.aud 0) 0 else s2
  else s

/-! ## Streams (R358 to R362) -/

/-- Attribute of an engine acting for a function, on the AUDIO port (R87, R270). -/
def audAttr (s : State) (fn : Nat) : Attr := ⟨fn, fn == 0x41, s.fnCrit fn, 6, false, false⟩

/-- Bytes of a sample. -/
def sampleBytes (s : State) (c : Nat) : Nat := if s.strFld c F.STR_CFG_FORMAT = 1 then 4 else 2

/-- Post the final completion of a region and release its fence (R358). A region that never began has no T0: that value is free. -/
def endRegion (s : State) (r : AudRegion) (status : Nat) : State :=
  let (t0, s1) := match r.t0 with
    | some t => (t, s)
    | none => let (v, t) := s.takeFree; (v % 2 ^ 64, t)
  (s1.unfence r.buf).finish r.jid status [r.done, t0 % 2 ^ 32, t0 / 2 ^ 32 % 2 ^ 32]

/-- A region is released without a final completion (R121): its command is forgotten. -/
def dropRegion (s : State) (r : AudRegion) : State :=
  (s.unfence r.buf).keepJobs fun j => j.jid != r.jid

/-- Release every region of a stream (R362); without final completions for a reset (R121). -/
def releaseRegions (s : State) (c : Nat) (silent : Bool) : State :=
  let x := s.stream c
  let s1 := s.setStream c { x with regions := [], squashed := false }
  x.regions.foldl (fun t r => if silent then t.dropRegion r else t.endRegion r 0) s1

/-- Read n words of a buffer; none when a word is refused, 0 for a word that is not delivered. -/
def audRead (s : State) (who : Attr) (i b : Nat) : Nat → Option (List Nat) × State
  | 0 => (some [], s)
  | n + 1 =>
    match s.readWordAs who (s.bufAddr i b) with
    | (_, 0x0201, s1) => (none, s1)
    | (w, _, s1) =>
      match s1.audRead who i (b + 16) n with
      | (some r, s2) => (some (w :: r), s2)
      | (none, s2) => (none, s2)

/-- Sixteen samples at a byte offset of a run of words. -/
def blockSamples (wide : Bool) (first : Nat) (ws : List Nat) : List Int :=
  (List.range 16).map fun j =>
    let b := first + (if wide then 4 else 2) * j
    let v := ws.getD (b / 16) 0 / 2 ^ (8 * (b % 16))
    if wide then signed 24 (bits 31 8 v) else signed 16 (v % 2 ^ 16) * 2 ^ 8

/-- The ramp from the last sample to 0 (R360). -/
def rampDown (last : Int) : List Int := fadeBlock false 0 16 (List.replicate 16 last)

/-- A stream of a function that is being reset loses its regions at its block boundary (R128, R362). -/
def squashStream (s : State) (c : Nat) : State := if (s.stream c).squashed then s.releaseRegions c true else s

/-- A block of a play stream: its samples. -/
def playBlock (s : State) (c : Nat) : List Int × State :=
  let x0 := s.stream c
  let x := { x0 with regions := x0.regions.map fun r => { r with delay := r.delay - 1 } }
  let stopped := fun (t : State) => t.setStream c { t.stream c with running := false, lastSample := 0, ending := false }
  if x.ending then
    let s1 := (s.setStream c x).releaseRegions c false
    (if x.running then rampDown x.lastSample else silence, stopped s1)
  else
    match x.regions with
    | [] =>
      if x.running then
        let s1 := (stopped s).satFld (strPage c) F.STR_STAT_MISSES 1 [c % 32]
        (rampDown x.lastSample, (s1.event (strPage c) 0).recErr (strPage c) 0x0F03 c)
      else (silence, s)
    | r :: rest =>
      if !x.running ∧ r.delay ≠ 0 then (silence, s.setStream c x)
      else
        let wide := s.sampleBytes c == 4
        let at0 := r.offset + s.sampleBytes c * r.done
        let base := at0 / 16 * 16
        match s.audRead (s.audAttr r.fn) r.buf base ((at0 + 16 * s.sampleBytes c - base + 15) / 16) with
        | (none, s1) => (silence, ((s1.setStream c { x with regions := rest, running := false, lastSample := 0 }).endRegion r 0x0201))
        | (some ws, s1) =>
          let raw := blockSamples wide (at0 - base) ws
          let ys := if x.running then raw else fadeBlock true 0 16 raw
          let r1 := { r with done := r.done + 16, t0 := some (r.t0.getD s.time.dtime) }
          let y := { x with running := true, lastSample := ys.getD 15 0, regions := r1 :: rest }
          if r.length ≤ r1.done then
            let last := r.last
            let s2 := s1.setStream c { y with regions := rest, running := !last, lastSample := if last then 0 else y.lastSample }
            (ys, s2.endRegion r1 0)
          else (ys, s1.setStream c y)

/-- Write bytes inside a buffer, word by word, keeping the other bytes; whether all were admitted. -/
def audWrite (s : State) (who : Attr) (i b : Nat) : List Nat → Bool × State
  | [] => (true, s)
  | v :: r =>
    -- v is a group of 4 bytes at a multiple of 4
    let w := b / 16 * 16
    let sh := 8 * (b % 16)
    match s.writeBuf who i w [setBits (sh + 31) sh (s.peekWord (s.bufAddr i w)) v] with
    | (_, true, s1) => s1.audWrite who i (b + 4) r
    | (_, false, s1) => (false, s1)

/-- A captured block as groups of four bytes. -/
def captureGroups (wide : Bool) (l : List Int) : List Nat :=
  if wide then l.map fun v => toBits 24 v * 2 ^ 8
  else (List.range 8).map fun j =>
    toBits 16 (sat16 ((l.getD (2 * j) 0 + 128) / 2 ^ 8)) + toBits 16 (sat16 ((l.getD (2 * j + 1) 0 + 128) / 2 ^ 8)) * 2 ^ 16

/-- A block of a capture stream (R361). -/
def captureBlock (s : State) (c : Nat) (l : List Int) : State :=
  let x := s.stream c
  if x.ending then
    let s1 := s.releaseRegions c false
    s1.setStream c { s1.stream c with running := false, ending := false }
  else if s.strFld c F.STR_CFG_EN = 0 then s
  else
    match x.regions with
    | [] => ((s.setStream c { x with running := false }).satFld (strPage c) F.STR_STAT_MISSES 1 [c % 32]).event (strPage c) 1
    | r :: rest =>
      let wide := s.sampleBytes c == 4
      match s.audWrite (s.audAttr r.fn) r.buf (r.offset + s.sampleBytes c * r.done) (captureGroups wide l) with
      | (false, s1) => (s1.setStream c { x with regions := rest }).endRegion r 0x0201
      | (true, s1) =>
        let r1 := { r with done := r.done + 16, t0 := some (r.t0.getD s.time.dtime) }
        if r.length ≤ r1.done then
          (s1.setStream c { x with regions := rest, running := !r.last && !rest.isEmpty }).endRegion r1 0
        else s1.setStream c { x with regions := r1 :: rest, running := true }

/-- AUDIO_QUEUE (R358, R359). -/
def carryAudioQueue (j : Job) (s : State) : State :=
  let p0 := j.p 0
  let c := bits 5 0 p0
  let rate := bits 9 8 p0
  let dom := s.strFld c F.STR_CFG_DOMAIN
  let rateOf := if dom = 0 then 1 else if dom = 1 then 2 else 0
  match s.checkBuf j.fn (j.p 1) with
  | .error code => s.complete j.jid code
  | .ok i =>
    let kind := s.bufKind i
    let plots := ((s.buf i).map fun (b : Buf) => b.plots.length).getD 0
    let chan := ((s.buf i).map fun (b : Buf) => b.chanHandle).getD 0
    let x := s.stream c
    let fault : Option Nat :=
      if kind ≠ 2 ∧ kind ≠ 3 then some 0x0107
      else if bits 7 6 p0 ≠ 0 ∨ bits 11 10 p0 ≠ 0 ∨ bits 31 13 p0 ≠ 0 ∨ rate = 3 then some 0x0006
      else if chan ≠ s.strFld c F.STR_CHANNEL_CHANNEL then some 0x000A
      else if j.p 3 = 0 then some 0x0002
      else if j.p 3 % 16 ≠ 0 ∨ j.p 2 % 4 ≠ 0 ∨ plots * 65536 < j.p 2 + j.p 3 * s.sampleBytes c then some 0x0105
      else if s.blockStopped (.aud 0) then some 0x1302
      else if !s.flag (.aud 0) F.PG_CTRL_ENABLE ∨ s.strFld c F.STR_CFG_EN = 0 then some 0x1301
      else if rate ≠ rateOf then some 0x0F02
      else if 8 ≤ x.regions.length then some 0x0009
      else none
    match fault with
    | some code => s.complete j.jid code
    | none =>
      let r : AudRegion := ⟨j.jid, j.fn, i, j.p 2, j.p 3, bit 12 p0, 0, none, 3⟩
      let s1 := (s.fence i).setStream c { x with regions := x.regions ++ [r] }
      s1.complete j.jid 1

/-! ## A block boundary (R353) -/

/-- What the block computes on the way: samples of streams, and of buses unlimited and limited. -/
structure Mix where
  streams : Store (List Int)
  buses : Store (List Int × List Int)
  deriving DecidableEq, Repr

/-- Sixteen free values of `w` bits: the output of a rate bridge, which the spec bounds but does not state (R349). -/
def bridgeBlock (s : State) (w : Nat) : List Int × State :=
  ((List.range 16).map fun i => signed w (Config.freeValue (s.free + i) % 2 ^ w), { s with free := s.free + 16 })

/-- The block that a source code delivers in domain d; `limited` picks a bus's output. -/
def sourceBlock (s : State) (d code : Nat) (inputs : List (Nat × List Int)) (m : Mix) (limited : Bool) : List Int × State :=
  match s.codeDomain code with
  | none => (silence, s)
  | some from' =>
    if from' ≠ d then s.bridgeBlock (if isBusCode code && !limited then 32 else 24)
    else
      let raw := ((inputs.find? fun p => p.1 == code).map Prod.snd).getD silence
      let sixteen := (List.range 16).map fun i => raw.getD i 0
      let v :=
        if code ≤ 0x60 then
          let p := (code - 1) / 16
          if s.tdmFld p F.TDM_CFG_EN = 0 ∨ s.tdmFld p F.TDM_STAT_CLOCK_LOST = 1 ∨ s.tdmFld p F.TDM_CFG_SLOTS ≤ (code - 1) % 16 then silence
          else sixteen.map (slotIn (s.tdmFld p F.TDM_CFG_SLOT_BITS))
        else if code < 0x100 then (if bit (code - 0x80) (s.fld (.aud 1) F.PDM_CFG_EN) then sixteen.map (slotIn 1) else silence)
        else if code < 0x180 then (Sparse.find m.streams (code - 0x100)).getD silence
        else (let o := (Sparse.find m.buses (code - 0x180)).getD (silence, silence); if limited then o.2 else o.1)
      (v, s)

/-- The settings of a bus under a set. -/
def busCfg (s : State) (set : Store Word32) (b : Nat) : BusCfg :=
  let v := s.audView set
  let f := fun (x : Fld) (ix : List Nat) => v.fld (busPage b) x (b % 8 :: ix)
  { gain := signed 16 (f F.BUS_CFG_GAIN []), bqEn := f F.BUS_CFG_BQ_EN []
    coef := (List.range 10).map fun k =>
      (signed 32 (f F.BUS_BQ_B0_COEF [k]), signed 32 (f F.BUS_BQ_B1_COEF [k]), signed 32 (f F.BUS_BQ_B2_COEF [k]),
        signed 32 (f F.BUS_BQ_A1_COEF [k]), signed 32 (f F.BUS_BQ_A2_COEF [k]))
    thresh := f F.BUS_LIMIT_THRESH [], release := f F.BUS_LIMIT_RELEASE [] }

/-- The inputs of a bus under a set, sample by sample: (sample, gain) of each selector with a source. -/
def busInputs (s : State) (set : Store Word32) (d b : Nat) (inputs : List (Nat × List Int)) (m : Mix) : List (List (Int × Int)) × State :=
  let v := s.audView set
  let (cols, s1) := (List.range 16).foldl (fun (acc : List (List Int × Int) × State) i =>
    let code := v.fld (busPage b) F.BUS_IN_SOURCE [b % 8, i]
    if code = 0 then acc
    else
      let (l, t) := acc.2.sourceBlock d code inputs m false
      (acc.1 ++ [(l, signed 16 (v.fld (busPage b) F.BUS_IN_GAIN [b % 8, i]))], t)) ([], s)
  ((List.range 16).map fun j => cols.map fun c => (c.1.getD j 0, c.2), s1)

/-- Whether a crossfade of domain d changes a word that satisfies a test: samples done and length. -/
def fadeOf (s : State) (d : Nat) (hit : Nat → Bool) : Option (Nat × Nat) :=
  match Sparse.find s.audio.fades d with
  | some (k, len, keys) => if keys.any hit then some (k, len) else none
  | none => none

/-- A bus as its EN finds it: it starts with a fade-in and stops with a fade-out (R352). -/
def busAsked (s : State) (b : Nat) : AudBus :=
  let want := s.fld (busPage b) F.BUS_CFG_EN [b % 8] == 1
  let len := max 16 (xfadeLen (s.fld (.aud 0) F.AUD_CTRL_XFADE))
  let x := s.bus b
  if want && !x.on then { idleBus with on := true, fade := some (true, 0, len) }
  else if !want && x.on && !(match x.fade with | some (i, _, _) => !i | none => false) then { x with fade := some (false, 0, len) } else x

/-- The settings of a domain as they were before its running crossfades. -/
def oldSettings (s : State) (d : Nat) : Store Word32 :=
  s.audio.active.foldl (fun (acc : Store Word32) (p : Nat × Word32) =>
    if (s.fadeOf d fun q => q == p.1).isSome then acc else Sparse.put acc p.1 p.2) s.audio.old

/-- The output of a bus under a crossfade of its settings: the old run beside the new one (R366). -/
def busCross (s : State) (d b : Nat) (inputs : List (Nat × List Int)) (m : Mix) (old : Option BusRun) (u l : List Int) :
    (List Int × List Int × Option BusRun × Bool × Bool) × State :=
  let base := (busPage b).key (0x100 + 0x140 * (b % 8))
  let mine := fun (k : Nat) => decide (base ≤ k) && decide (k < base + 0x140)
  match s.fadeOf d mine, old with
  | some (k, n), some o =>
    let set := s.oldSettings d
    let r := s.busInputs set d b inputs m
    let (ou, ol, orun, osat, olim) := busBlock (r.2.busCfg set b) o r.1
    ((crossfade n (k + 1) ou u, crossfade n (k + 1) ol l, some orun, osat, olim), r.2)
  | _, o => ((u, l, o, false, false), s)

/-- A bus after its block: its state, its meter and its events (R350, R351). -/
def putBus (s : State) (b : Nat) (x : AudBus) (l : List Int) (sat lim : Bool) : State :=
  let peak := (l.map Int.natAbs).foldl max 0
  let s1 := ((s.setBus b x).setFld (busPage b) F.BUS_METER_PEAK peak [b % 8]).setFld (busPage b) F.BUS_METER_LIMITED (b2n lim) [b % 8]
  let s2 := if lim then s1.event (busPage b) 0 else s1
  if sat then s2.event (busPage b) 1 else s2

/-- A block of bus b (R350 to R352, R366). -/
def runBus (s : State) (d b : Nat) (inputs : List (Nat × List Int)) (m : Mix) : Mix × State :=
  let x := s.busAsked b
  if !x.on then (m, if s.rw ((busPage b).key (F.BUS_METER_PEAK.at [b % 8])) = 0 then s else s.setRw ((busPage b).key (F.BUS_METER_PEAK.at [b % 8])) 0)
  else
    let r := s.busInputs s.audio.active d b inputs m
    let (u, l, run, sat, lim) := busBlock (r.2.busCfg r.2.audio.active b) x.run r.1
    let c := r.2.busCross d b inputs m x.old u l
    let (u3, l3, fade, on) := match x.fade with
      | some (i, k, n) =>
        (fadeBlock i k n c.1.1, fadeBlock i k n c.1.2.1, if n ≤ k + 16 then none else some (i, k + 16, n), i || decide (k + 16 < n))
      | none => (c.1.1, c.1.2.1, none, true)
    ({ m with buses := Sparse.put m.buses b (u3, l3) }, c.2.putBus b (if on then ⟨true, run, c.1.2.2.1, fade⟩ else idleBus) l3
      (sat || c.1.2.2.2.1) (lim || c.1.2.2.2.2))

/-- The block of a selector whose source may be crossfading. -/
def selected (s : State) (d k : Nat) (code : State → Nat) (inputs : List (Nat × List Int)) (m : Mix) : List Int × State :=
  let (new, s1) := s.sourceBlock d (code (s.audView s.audio.active)) inputs m true
  match s1.fadeOf d fun q => q == k with
  | some (n, len) =>
    let (old, s2) := s1.sourceBlock d (code (s1.audView s1.audio.old)) inputs m true
    (crossfade len (n + 1) old new, s2)
  | none => (new, s1)

/-- What a side-tone path with settings word `w` adds to a slot (R355). Input 0x200 + m holds what the path's own decimator gives of
microphone m for the frames of the interval, 3 samples after the sound (R354). -/
def sideTone (s : State) (w p slot : Nat) (inputs : List (Nat × List Int)) : List Int :=
  let mic := bits 2 0 w
  if bit 15 w ∧ bits 6 4 w = p ∧ bits 11 8 w = slot ∧ bit mic (s.fld (.aud 1) F.PDM_CFG_EN) then
    let x := ((inputs.find? fun q => q.1 == 0x200 + mic).map Prod.snd).getD silence
    (List.range 16).map fun j => sat24 ((slotIn 1 (x.getD j 0) * signed 16 (bits 31 16 w) + 8192) / 2 ^ 14)
  else silence

/-- The same through a crossfade of the path's settings. -/
def sideToneNow (s : State) (x : SideNow) (p slot : Nat) (inputs : List (Nat × List Int)) : List Int :=
  let new := s.sideTone x.word p slot inputs
  match x.fade with
  | some (n, len) => crossfade len (n + 1) (s.sideTone x.old p slot inputs) new
  | none => new

/-- The side-tone paths as they stand for the block interval that begins. -/
def sidePlan (s : State) : State :=
  let plan := (List.range 2).map fun i =>
    let k := (Page.aud 0).key (F.AUD_ST_MIC.at [i])
    (⟨(s.audView s.audio.active).rw k, (s.audView s.audio.old).rw k, s.fadeOf 0 fun q => q == k⟩ : SideNow)
  { s with audio := { s.audio with side := plan } }

/-- Output port p is clocked by domain d. -/
def portServed (s : State) (d p : Nat) : Bool :=
  s.tdmFld (6 + p) F.TDM_CFG_EN == 1 && s.tdmFld (6 + p) F.TDM_CFG_DOMAIN == d && s.tdmFld (6 + p) F.TDM_STAT_CLOCK_LOST == 0

/-- What a slot sends in the interval that has ended: its block with the side-tone added, in a first block zero, in a fade faded (R345, R355,
R368, R369). -/
def slotFrames (s : State) (d p i : Nat) (inputs : List (Nat × List Int)) : List Int :=
  let base := (Sparse.find ((Sparse.find s.audio.late d).getD ([], [])).1 (p * 16 + i)).getD silence
  let add := fun (l : List Int) (x : SideNow) => (l.zip (s.sideToneNow x p i inputs)).map fun q => sat24 (q.1 + q.2)
  let mixed := if d = 0 then s.audio.side.foldl add base else base
  if s.audio.fresh.contains p then silence
  else if s.audio.fadeIn.contains p then fadeBlock true 0 16 mixed
  else if s.audio.faded.contains d then fadeBlock false 0 16 mixed
  else mixed

/-- The frames that output port p has sent in the block interval of domain d that has ended; none in the standby role (R33). -/
def portFrames (s : State) (d p : Nat) (inputs : List (Nat × List Int)) : State :=
  if !s.portServed d p then s
  else if s.audio.joining.contains p then { s with audio := { s.audio with joining := s.audio.joining.filter (· != p) } }
  else
    let s1 := (List.range (s.tdmFld (6 + p) F.TDM_CFG_SLOTS)).foldl (fun t i =>
      if t.standby then t
      else t.emit (.tdm p i ((t.slotFrames d p i inputs).map (slotOut (t.tdmFld (6 + p) F.TDM_CFG_SLOT_BITS))))) s
    { s1 with audio := { s1.audio with fresh := s1.audio.fresh.filter (· != p), fadeIn := s1.audio.fadeIn.filter (· != p) } }

/-- What the slots of the domain's output ports take from the block that is processed: it leaves in the interval after the next boundary
(R353). -/
def takeSlots (s : State) (d : Nat) (inputs : List (Nat × List Int)) (m : Mix) : State :=
  let r := ((List.range 6).filter (s.portServed d)).foldl (fun (acc : Store (List Int) × State) p =>
    (List.range (s.tdmFld (6 + p) F.TDM_CFG_SLOTS)).foldl (fun (acc : Store (List Int) × State) i =>
      let k := (Page.aud 7).key (F.OUT_P_S_SOURCE.at [p, i])
      let (l, t) := acc.2.selected d k (fun v => v.fld (.aud 7) F.OUT_P_S_SOURCE [p, i]) inputs m
      (Sparse.put acc.1 (p * 16 + i) l, t)) acc) ([], s)
  let next := ((Sparse.find r.2.audio.late d).getD ([], [])).2
  { r.2 with audio := { r.2.audio with late := Sparse.put r.2.audio.late d (next, r.1) } }

/-- Frame syncs seen in the block interval: a slave port that had lost its clock runs again (R346). -/
def portSync (s : State) (d : Nat) (sync : List Nat) : State :=
  (List.range 12).foldl (fun t p =>
    if t.tdmFld p F.TDM_CFG_EN = 1 ∧ t.tdmFld p F.TDM_CFG_DOMAIN = d ∧ t.tdmFld p F.TDM_CFG_MASTER = 0 ∧ sync.contains p then
      (t.setFld (.aud 1) F.TDM_STAT_CLOCK_LOST 0 (tdmIx p)).setFld (.aud 1) F.TDM_STAT_RUNNING 1 (tdmIx p)
    else t) s

/-- Crossfades of domain d advance by a block. -/
def fadeStep (s : State) (d : Nat) : State :=
  match Sparse.find s.audio.fades d with
  | none => s
  | some (k, len, keys) =>
    if len ≤ k + 16 then
      let s1 := { s with audio := { s.audio with
        fades := Sparse.del s.audio.fades d, old := s.audio.old.filter fun p => !keys.contains p.1 } }
      ((List.range 24).filter fun b => s1.busDomain b == d).foldl (fun t b => t.setBus b { t.bus b with old := none }) s1
    else { s with audio := { s.audio with fades := Sparse.put s.audio.fades d (k + 16, len, keys) } }

/-- The block has been stopped: every domain has faded out (R369). -/
def audStopped (s : State) : State :=
  let s1 := { s with
    audio := { s.audio with
      buses := [], fades := [], old := [], armed := none, todo := [], applying := false
      closing := [], faded := [], late := [], side := [], pause := 0 } }
  let s2 := (s1.setFld (.aud 0) F.AUD_CTRL_ARMED 0).setFld (.aud 0) F.AUD_CTRL_XFADE_BUSY 0
  (List.range 9).foldl (fun t n => t.setFld (.aud n) F.PG_STAT_ENABLED 0) s2

/-- The streams of one direction that a domain serves. -/
def streamsOf (s : State) (d capture : Nat) : List Nat :=
  (List.range 64).filter fun c => s.strFld c F.STR_CFG_CAPTURE == capture && s.strFld c F.STR_CFG_DOMAIN == d

/-- The play streams of a domain give their blocks. -/
def playStreams (s : State) (d : Nat) : Mix × State :=
  (s.streamsOf d 0).foldl (fun (acc : Mix × State) c =>
    let r := (acc.2.squashStream c).playBlock c
    ({ acc.1 with streams := Sparse.put acc.1.streams c r.1 }, r.2)) (⟨[], []⟩, s)

/-- The buses of a domain run, in order. -/
def runBuses (s : State) (d : Nat) (inputs : List (Nat × List Int)) (m : Mix) : Mix × State :=
  ((List.range 24).filter fun b => s.busDomain b == d).foldl (fun (acc : Mix × State) b => acc.2.runBus d b inputs acc.1) (m, s)

/-- The capture streams of a domain take their blocks. -/
def captureStreams (s : State) (d : Nat) (closing : Bool) (inputs : List (Nat × List Int)) (m : Mix) : State :=
  (s.streamsOf d 1).foldl (fun t c =>
    let k := (strPage c).key (F.STR_SRC_SOURCE.at [c % 32])
    let r := t.selected d k (fun v => v.fld (strPage c) F.STR_SRC_SOURCE [c % 32]) inputs m
    (r.2.squashStream c).captureBlock c (if closing then fadeBlock false 0 16 r.1 else r.1)) s

/-- Every domain has faded out for a replacement of the DSP: the block stands, still enabled (R460). -/
def audPaused (s : State) : State :=
  { s with audio := { s.audio with pause := 2, buses := [], fades := [], old := [], late := [], side := [] } }

/-- The outputs of a domain that had to stop have faded out; with the last one the engine stops (R369), or stands to be loaded. -/
def domainClosed (s : State) (d : Nat) : State :=
  let s1 := { s with audio := { s.audio with faded := s.audio.faded.filter (· != d) } }
  if s1.audio.faded = [] ∧ s1.audio.closing = [] then (if s1.audio.pause = 1 then s1.audPaused else s1.audStopped) else s1

/-- A domain that has to stop: its outputs fade over the interval that begins. -/
def domainFades (s : State) (d : Nat) : State :=
  { s with audio := { s.audio with closing := s.audio.closing.filter (· != d), faded := s.audio.faded ++ [d] } }

/-- The block that domain d processes. -/
def processBlock (s : State) (d : Nat) (inputs : List (Nat × List Int)) : State :=
  let closing := s.audio.closing.contains d
  let s0 := s.applySet d
  let r1 := (if d = 0 then s0.sidePlan else s0).playStreams d
  let r2 := r1.2.runBuses d inputs r1.1
  let s1 := (r2.2.takeSlots d inputs r2.1).captureStreams d closing inputs r2.1
  let s2 := ((s1.fadeStep d).addFld (.aud 8) F.AUD_BLOCKS_COUNT 1 [d]).applyEnd
  if closing then s2.domainFades d else s2

/-- A block boundary of domain d: the frames of the interval that has ended have left, and what its inputs took is processed (R353). -/
def blockBoundary (s : State) (d : Nat) (inputs : List (Nat × List Int)) (sync : List Nat) : State :=
  let stops := s.audio.closing.contains d || s.audio.faded.contains d
  let runs := s.flag (.aud 0) F.PG_STAT_ENABLED && (s.flag (.aud 0) F.PG_CTRL_ENABLE || stops)
  if 3 ≤ d ∨ !runs ∨ s.audio.pause = 2 then s
  else
    let s1 := (List.range 6).foldl (fun t p => t.portFrames d p inputs) (s.portSync d sync)
    if s.audio.faded.contains d then s1.domainClosed d else s1.processBlock d inputs

/-- BLOCK_STAT of AUD0 follows LOCKED. -/
def setLocked (s : State) (d : Nat) (locked holdover : Bool) : State :=
  let s1 := (s.setFld (.aud 0) F.AUD_DOM_LOCKED (b2n locked) [d]).setFld (.aud 0) F.AUD_DOM_HOLDOVER (b2n holdover) [d]
  s1.setFld (.aud 0) F.AUD0_BS_LOCKED (setBits d d (s1.fld (.aud 0) F.AUD0_BS_LOCKED) (b2n locked))

/-- A domain that follows a port enters holdover (R344). -/
def domainHoldover (s : State) (d : Nat) : State :=
  if d < 3 ∧ s.fld (.aud 0) F.AUD_DOM_LOCKED [d] = 1 then (s.setLocked d false true).event (.aud 0) 1 else s

/-- A domain in holdover locks again. -/
def domainRelock (s : State) (d : Nat) : State :=
  let src := s.fld (.aud 0) F.AUD_DOM_SOURCE [d]
  if d < 3 ∧ 1 ≤ src ∧ src ≤ 6 ∧ s.fld (.aud 0) F.AUD_DOM_HOLDOVER [d] = 1 ∧ s.tdmFld (src - 1) F.TDM_CFG_EN = 1
      ∧ s.tdmFld (src - 1) F.TDM_CFG_MASTER = 0 ∧ s.tdmFld (src - 1) F.TDM_CFG_DOMAIN = d then
    (s.setLocked d true false).event (.aud 0) 2
  else s

/-- AUD_DOMd (R343). -/
def audDomWrite (a : RegAcc) (s : State) : State :=
  let d := (a.off - 0x040) / 4
  let src := bits 2 0 a.val
  let used := ((List.range 12).any fun p => s.tdmFld p F.TDM_CFG_EN == 1 && s.tdmFld p F.TDM_CFG_DOMAIN == d)
    || (List.range 24).any fun b => s.fld (busPage b) F.BUS_CFG_EN [b % 8] == 1 && s.busDomain b == d
  if !s.grants a F.AUD_DOM_SOURCE then s.recRefused a
  else if used then s.refuse a 0x000A
  else if src = 7 then s.refuse a 0x0006
  else mirrorWrite s ((s.plainWrite a).setLocked d false (src != 0)) a 0 0

/-- The check of R345 on a value of TDM_CFG. -/
def tdmFault (v : Nat) : Option Nat :=
  let slots := bits 10 6 v
  let dom := bits 5 4 v
  let rate := if dom = 0 then 48000 else if dom = 1 then 96000 else 16000
  let width := if bits 13 12 v = 0 then 16 else if bits 13 12 v = 1 then 24 else 32
  if slots = 0 then some 0x0002
  else if 16 < slots ∨ dom = 3 ∨ bits 13 12 v = 3 ∨ (bit 2 v ∧ slots ≠ 2) ∨ 24576000 < rate * slots * width ∨ bit 11 v ∨ bits 31 14 v ≠ 0 then
    some 0x0006
  else none

/-- TDM_CFG of a port. -/
def tdmCfgWrite (a : RegAcc) (s : State) : State :=
  let p := (a.off - 0x100) / 0x100 * 6 + (a.off % 0x100) / 0x10
  let en := s.grants a F.TDM_CFG_EN
  let on := s.tdmFld p F.TDM_CFG_EN == 1
  let others := (s.grantedFields a).any (· != F.TDM_CFG_EN)
  let s1 := if on then (if others then s.recAcc a 0x000A else s.recRefused a) else s.plainWrite a (· != F.TDM_CFG_EN)
  let s2 :=
    if !en then s1
    else if bit 0 a.val then
      match tdmFault a.val with
      | some code => s1.recAcc a code
      | none =>
        let t := (s1.setFld (.aud 1) F.TDM_CFG_EN 1 (tdmIx p)).setFld (.aud 1) F.TDM_STAT_RUNNING (bits 1 1 a.val) (tdmIx p)
        if 6 ≤ p then { t with audio := { t.audio with fresh := t.audio.fresh ++ [p - 6], joining := t.audio.joining ++ [p - 6] } } else t
    else
      let t := ((s1.setFld (.aud 1) F.TDM_CFG_EN 0 (tdmIx p)).setFld (.aud 1) F.TDM_STAT_RUNNING 0 (tdmIx p)).setFld (.aud 1) F.TDM_STAT_CLOCK_LOST 0 (tdmIx p)
      let t := { t with audio := { t.audio with
        fresh := t.audio.fresh.filter fun q => q + 6 != p, joining := t.audio.joining.filter fun q => q + 6 != p } }
      (List.range 3).foldl (fun u d => if u.fld (.aud 0) F.AUD_DOM_SOURCE [d] = p + 1 ∧ p < 6 then u.domainHoldover d else u) t
  mirrorWrite s s2 a 0 0

/-- A slave port that does not clock its own domain slips a frame (R346). -/
def tdmSlip (s : State) (p : Nat) : State :=
  let dom := s.tdmFld p F.TDM_CFG_DOMAIN
  if p < 12 ∧ s.tdmFld p F.TDM_CFG_EN = 1 ∧ s.tdmFld p F.TDM_CFG_MASTER = 0 ∧ !(p < 6 && s.fld (.aud 0) F.AUD_DOM_SOURCE [dom] == p + 1) then
    (s.satFld (.aud 1) F.TDM_STAT_SLIPS 1 (tdmIx p)).event (.aud 1) 0
  else s

/-- A slave port sees no frame sync for 4 nominal frames (R346): a domain that follows it enters holdover (R344). -/
def tdmClockLost (s : State) (p : Nat) : State :=
  if p < 12 ∧ s.tdmFld p F.TDM_CFG_EN = 1 ∧ s.tdmFld p F.TDM_CFG_MASTER = 0 ∧ s.tdmFld p F.TDM_STAT_CLOCK_LOST = 0 then
    (List.range 3).foldl (fun u d => if p < 6 ∧ u.fld (.aud 0) F.AUD_DOM_SOURCE [d] = p + 1 then u.domainHoldover d else u)
      (((s.setFld (.aud 1) F.TDM_STAT_CLOCK_LOST 1 (tdmIx p)).setFld (.aud 1) F.TDM_STAT_RUNNING 0 (tdmIx p)).event (.aud 1) 1)
  else s

/-! ## Buses and streams: their registers (R352, R357, R362) -/

/-- BUSb_CFG: EN and DOMAIN act at once, the rest is pending. -/
def busCfgWrite (a : RegAcc) (s : State) : State :=
  let on := s.fld a.page F.BUS_CFG_EN [(a.off - 0x100) / 0x140] == 1
  let dom := s.grants a F.BUS_CFG_DOMAIN
  let code : Option Nat := if dom && on then some 0x000A else if dom && bits 2 1 a.val == 3 then some 0x0006 else none
  let s1 := s.plainWrite a fun f => !(f == F.BUS_CFG_DOMAIN && code.isSome)
  mirrorWrite s (match code with | some c => s1.recAcc a c | none => s1) a 0 0

/-- The stream of a word of AUD2 or AUD3. -/
def streamOf (a : RegAcc) : Nat :=
  match a.page with
  | .aud n => (n - 2) * 32 + (a.off - 0x100) / 0x10
  | _ => 0

/-- STRc_CFG: EN ends the stream; the other fields stand still while EN = 1. -/
def strCfgWrite (a : RegAcc) (s : State) : State :=
  let c := streamOf a
  let on := s.strFld c F.STR_CFG_EN == 1
  let fixed := fun (f : Fld) => f == F.STR_CFG_CAPTURE || f == F.STR_CFG_DOMAIN || f == F.STR_CFG_FORMAT
  let touched := (s.grantedFields a).any fixed
  let badDom := s.grants a F.STR_CFG_DOMAIN && bits 3 2 a.val == 3
  let s1 := s.plainWrite a fun f => !(fixed f && on) && !(f == F.STR_CFG_DOMAIN && badDom)
  let s2 := if on && touched then s1.recAcc a 0x000A else if badDom then s1.recAcc a 0x0006 else s1
  let s3 := if s.grants a F.STR_CFG_EN && !bit 0 a.val then s2.setStream c { s2.stream c with ending := true } else s2
  mirrorWrite s s3 a 0 0

/-- STRc_CHANNEL (R357). -/
def strChannelWrite (a : RegAcc) (s : State) : State :=
  let c := streamOf a
  if !s.grants a F.STR_CHANNEL_CHANNEL then s.recRefused a
  else if s.strFld c F.STR_CFG_EN = 1 then s.refuse a 0x000A
  else
    match s.checkChan a.req.fn a.val with
    | .error code => s.refuse a code
    | .ok i =>
      let kind := ((s.chan i).map Chan.kind).getD 0
      if kind ≠ (if s.strFld c F.STR_CFG_CAPTURE = 1 then 3 else 2) then s.refuse a 0x0107
      else mirrorWrite s (s.plainWrite a) a 0 0

/-- Owner of a stream: the owner of its channel. -/
def streamOwner (s : State) (c : Nat) : Option Nat :=
  let h := s.strFld c F.STR_CHANNEL_CHANNEL
  (s.chan (h % 256)).map Chan.fn

/-- Step 2 of a function reset: its streams end at their next block boundary through the underrun of R360, their regions released without
completions (R128, R362). -/
def audResetFn (s : State) (fn : Nat) : State :=
  (List.range 64).foldl (fun t c =>
    if (t.stream c).regions ≠ [] ∧ t.streamOwner c = some fn then t.setStream c { t.stream c with squashed := true } else t) s

/-- No stream of a function waits for that boundary. -/
def streamsSquashed (s : State) (fn : Nat) : Bool :=
  !(s.audio.streams.any fun p => p.2.squashed && s.streamOwner p.1 == some fn)

/-- At takeover streams start idle and every output port fades in (R368). -/
def audTakeover (s : State) : State :=
  let s1 := (List.range 64).foldl (fun t c =>
    if (t.stream c).running ∨ (t.stream c).regions ≠ [] then (t.releaseRegions c true).setStream c idleStream else t) s
  { s1 with audio := { s1.audio with fadeIn := List.range 6, joining := List.range 6 } }

/-! ## AUD0 as a block (R369) -/

/-- Set ENABLE of every AUD page. -/
def audEnableAll (s : State) (on : Bool) : State :=
  (List.range 9).foldl (fun t n => t.setFld (.aud n) F.PG_CTRL_ENABLE (b2n on)) s

/-- End every stream under R362 at the next boundary. -/
def endStreams (s : State) : State :=
  (List.range 64).foldl (fun t c =>
    if (t.stream c).running ∨ (t.stream c).regions ≠ [] then t.setStream c { t.stream c with ending := true } else t) s

/-- Stop the block with its fades. -/
def audStop (s : State) : State :=
  let s1 := (s.audEnableAll false).endStreams
  { s1 with audio := { s1.audio with closing := [0, 1, 2], faded := [], pause := 0 } }

/-- ENABLE of an AUD page; those of AUD1 to AUD8 ignore writes. -/
def audEnable (a : RegAcc) (on : Bool) (s : State) : State :=
  match a.page with
  | .aud 0 =>
    if on then
      let s1 := (List.range 9).foldl (fun t n => t.setFld (.aud n) F.PG_STAT_ENABLED 1) (s.audEnableAll true)
      mirrorWrite s (if s.audio.pause = 1 then s1 else { s1 with audio := { s1.audio with closing := [], faded := [] } }) a 0 0
    else mirrorWrite s s.audStop a 0 0
  | _ => s

/-- Silence at once: streams are released, fades and sets discarded. -/
def audKill (s : State) : State :=
  let s1 := (List.range 64).foldl (fun t c =>
    if (t.stream c).running ∨ (t.stream c).regions ≠ [] then (t.releaseRegions c false).setStream c idleStream else t) s
  s1.audStopped

/-- SOFT_RESET of AUD0 stops the block without fades and resets every AUD page; of AUD1 to AUD8 it is refused. -/
def audReset (a : RegAcc) (s : State) : State :=
  match a.page with
  | .aud 0 =>
    let s1 := s.audKill
    let s2 := { s1 with audio := Audio.reset }
    let s3 := (List.range 9).foldl (fun t n => t.resetPage (.aud n)) s2
    mirrorWrite s s3 a 0 0
  | _ => s.recAcc a 0x000A

def isAud (n : Nat) (f : Fld) (a : RegAcc) : Bool := a.page == .aud n && f.hits a.off

def isBusCfg (a : RegAcc) : Bool :=
  (match a.page with | .aud n => decide (4 ≤ n) && decide (n ≤ 6) | _ => false) && F.BUS_CFG_EN.hits a.off

def isStream (f : Fld) (a : RegAcc) : Bool := (a.page == .aud 2 || a.page == .aud 3) && f.hits a.off

end State

/-! ## The commands -/

def execAudioQueue (c : CmdArgs) (s : State) : Host.Outcome State Fault Refusal := .next (s.command 0x28 c State.carryAudioQueue)

def execAudioBlockBoundary (domain : Nat) (inputs : List (Nat × List Int)) (sync : List Nat) (s : State) : Host.Outcome State Fault Refusal :=
  .next (s.blockBoundary domain inputs sync)

def execRouteApply (w : RegWr) (s : State) : Host.Outcome State Fault Refusal :=
  .next (s.accessAt w (fun a => State.isAud 0 F.AUD_CTRL_APPLY a && bit 8 a.val) State.audCtrlWrite)

def execBridgePrimed (bridge : Nat) (s : State) : Host.Outcome State Fault Refusal := .next (s.bridgePrimed bridge)

def execTdmPortEnable (w : RegWr) (s : State) : Host.Outcome State Fault Refusal :=
  .next (s.accessAt w (State.isAud 1 F.TDM_CFG_EN) State.tdmCfgWrite)

def execBusEnableWrite (w : RegWr) (s : State) : Host.Outcome State Fault Refusal :=
  .next (s.accessAt w State.isBusCfg State.busCfgWrite)

def execStreamDisable (w : RegWr) (s : State) : Host.Outcome State Fault Refusal :=
  .next (s.accessAt w (fun a => State.isStream F.STR_CFG_EN a && !bit 0 a.val) State.strCfgWrite)

def execStreamChannelWrite (w : RegWr) (s : State) : Host.Outcome State Fault Refusal :=
  .next (s.accessAt w (State.isStream F.STR_CHANNEL_CHANNEL) State.strChannelWrite)

def execDomainHoldover (domain : Nat) (s : State) : Host.Outcome State Fault Refusal := .next (s.domainHoldover domain)

def execDomainRelock (domain : Nat) (s : State) : Host.Outcome State Fault Refusal := .next (s.domainRelock domain)

def execTdmSlip (port : Nat) (s : State) : Host.Outcome State Fault Refusal := .next (s.tdmSlip port)

def execTdmClockLost (port : Nat) (s : State) : Host.Outcome State Fault Refusal := .next (s.tdmClockLost port)

def execAud0SoftReset (w : RegWr) (s : State) : Host.Outcome State Fault Refusal :=
  .next (s.accessAt w (fun a => a.page == .aud 0 && a.off == 0x008 && bit 1 a.val)
    fun a t => t.ctrlWrite a (State.audEnable a) (State.audReset a))

end Sys2Proof.Machine
end

