-- ==== Sys2Proof/Machine/Dram.lean ====
section
/-! DEFINITION. The DRAM controller: admission, scheduling and completion of requests, refresh, retraining, power-down, tuning
registers, self-refresh (R263 to R285), and the EDAC page (R287, R300 to R302). RETRAIN_END and the stop of a DMC page stand in
Faults.lean, because they may be device-fatal. -/

namespace Sys2Proof.Machine

def DramItem.isWrite (q : DramItem) : Bool := q.data.isSome

namespace State

/-- Key of a word selected by DMC_PORT_SEL. -/
def portKey (n : Nat) (f : Fld) (port : Nat) : Nat := bankKey ((Page.dmc n).key f.off) port

/-- Held requests (R273): 64 reads and 64 writes, or 128 in all and 16 to a bank; those beyond wait at their crossings. -/
def heldReqs (s : State) (reqs : List DramItem) : List DramItem :=
  if s.part = .sx8400 then
    let r := (reqs.filter fun q => !q.isWrite).take 64
    let w := (reqs.filter DramItem.isWrite).take 64
    reqs.filter fun q => r.contains q || w.contains q
  else
    (reqs.take 128).foldl (fun acc q =>
      if (acc.filter fun p => (s.place p.addr).bank == (s.place q.addr).bank).length < 16 then acc ++ [q] else acc) []

/-- Set a channel and keep DMC_STAT and BLOCK_STAT. -/
def setDmc (s : State) (n : Nat) (d : Dmc) : State :=
  let pg := Page.dmc n
  let held := s.heldReqs d.reqs
  let w := (held.filter DramItem.isWrite).length
  let s1 := { s with dram := { s.dram with chans := Sparse.put s.dram.chans n d } }
  let (rq, wq) := if s.part = .sx8400 then (held.length - w, w) else (held.length, 0)
  let s2 := ((s1.setFld pg F.DMC_STAT_RQ_LEVEL rq).setFld pg F.DMC_STAT_WQ_LEVEL wq).setFld pg F.DMC_STAT_DRAIN (b2n d.drain)
  let st := if d.failed then 4 else if d.selfRefresh then 3 else if d.training then 2
    else if s2.flag pg F.DMC_STAT_INIT then 1 else 0
  (s2.setFld pg F.DMC_BS_STATE st).setFld pg F.DMC_BS_REF_MULT (if d.mult = 4 then 2 else d.mult - 1)

/-! ## Scheduling (R269 to R273) -/

/-- Urgency of a request (R271). -/
def urgency (s : State) (n : Nat) (q : DramItem) : Nat :=
  let t := bits 11 0 (s.rw (portKey n F.DMC_PORT_TARGET_TARGET q.port)) * 10
  let age := s.now - q.arrived
  if t ≤ age then 3 else if 3 * t ≤ 4 * age then 2 else if t ≤ 2 * age then 1 else 0

/-- Whether two requests overlap in a 64-byte burst, or match rows in opposite directions (R269). -/
def ordered (s : State) (p q : DramItem) : Bool :=
  let burst := fun (x : DramItem) => (x.addr / 64, (x.addr + 16 * x.words - 1) / 64)
  let overlap := decide ((burst p).1 ≤ (burst q).2) && decide ((burst q).1 ≤ (burst p).2)
  let a := s.place p.addr
  let b := s.place q.addr
  overlap || (p.isWrite != q.isWrite && a.rank == b.rank && a.bank == b.bank && a.row == b.row)

/-- Prefer higher urgency, then the lower port, then the older request. -/
def better (s : State) (n : Nat) (p q : DramItem) : Bool :=
  let u := s.urgency n p
  let v := s.urgency n q
  decide (v < u) || (u == v && (decide (p.port < q.port) || (p.port == q.port && decide (p.rid < q.rid))))

/-- The best of a list. -/
def best (s : State) (n : Nat) : List DramItem → Option DramItem
  | [] => none
  | q :: r => match s.best n r with | some p => if s.better n q p then some q else some p | none => some q

/-- The pick of R273 before R269: credit first, then the part's rule. -/
def pick (s : State) (n : Nat) (d : Dmc) : Option DramItem :=
  let held := s.heldReqs d.reqs
  match held.find? fun q => q.port == 0 && !q.isWrite && decide (16 * q.words * s.creditUnit ≤ s.creditNow d) with
  | some q => some q
  | none =>
    if s.part = .sx8400 then
      let ws := held.filter DramItem.isWrite
      if d.drain then s.best n ws
      else match s.best n (held.filter fun q => !q.isWrite) with | some q => some q | none => s.best n ws
    else
      let top := (held.map (s.urgency n)).foldl max 0
      let these := held.filter fun q => s.urgency n q == top
      let bank := ((List.range 16).map fun k => (d.lastBank + 1 + k) % 16).find? fun b => these.any fun q => (s.place q.addr).bank == b
      match bank with
      | some b => these.find? fun q => (s.place q.addr).bank == b
      | none => none

/-- The row that a request names. -/
def rowOf (s : State) (q : DramItem) : Nat × Nat × Nat :=
  let p := s.place q.addr
  (p.rank, p.bank, p.row)

/-- Data bursts of 64 bytes of a request. -/
def dataBursts (q : DramItem) : Nat := (q.addr + 16 * q.words - 1) / 64 - q.addr / 64 + 1

/-- A request and the earlier ones that must go before it, directly or through others, in arrival order (R269). Requests that overlap, or
match rows, name one row. -/
def chainOf (s : State) (mine : List DramItem) (q : DramItem) : List DramItem :=
  mine.reverse.foldl (fun acc p =>
    if p.rid = q.rid ∨ acc.any (fun x => decide (p.rid < x.rid) && s.ordered p x) then p :: acc else acc) []

/-- The first requests of a list that 4 bursts can carry, and at least one. -/
def fourBursts (room : Nat) : List DramItem → List DramItem
  | [] => []
  | q :: r => if dataBursts q ≤ room then q :: fourBursts (room - dataBursts q) r else []

/-- The activation of a row for a picked request (R268): the pick behind those that must go before it, then the other held requests of the
row, as far as R269 lets them follow; the HSK-SX8400 keeps to the pick's direction. -/
def activation (s : State) (d : Dmc) (q : DramItem) : List DramItem :=
  let mine := d.reqs.filter fun p => s.rowOf p == s.rowOf q
  let held := s.heldReqs d.reqs
  let all := mine.foldl (fun acc p =>
    if acc.contains p then acc
    else if held.contains p && (s.part == .sx8200 || p.isWrite == q.isWrite)
        && mine.all (fun x => !(decide (x.rid < p.rid) && s.ordered x p) || acc.contains x) then acc ++ [p]
    else acc) (s.chainOf mine q)
  match all with
  | [] => []
  | x :: r => x :: fourBursts (4 - dataBursts x) r

/-- The request that the channel issues next, and those of its activation after it: the activation under way goes on, otherwise a row is
activated for the request that the rules pick. -/
def issue (s : State) (n : Nat) (d : Dmc) : Option (DramItem × List Nat) :=
  match d.batch with
  | rid :: r => (d.reqs.find? fun q => q.rid == rid).map fun q => (q, r)
  | [] =>
    match (s.pick n d).map (s.activation d) with
    | some (q :: r) => some (q, r.map DramItem.rid)
    | _ => none

/-- Drain follows the write queue and write urgency (R273). -/
def drainStep (s : State) (n : Nat) (d : Dmc) : Dmc :=
  let ws := (s.heldReqs d.reqs).filter DramItem.isWrite
  if s.part = .sx8200 then d
  else if d.drain then { d with drain := decide (s.fld (.dmc n) F.DMC_WDRAIN_LOW < ws.length) }
  else { d with drain := decide (s.fld (.dmc n) F.DMC_WDRAIN_HIGH ≤ ws.length) || ws.any fun q => s.urgency n q == 3 }

/-! ## Admission (R89, R90, R267, R275) -/

/-- The criticality that the originator of a request stamps (R87): the slot's for a scan-out fetch, the carried one for a mirror write, 3 for
Plolia's own reads and for the secure core, and else OWN_FN_CRIT of the function. -/
def stampCrit (s : State) (q : DramReq) : Nat :=
  if q.port = 0 ∨ q.port = 1 ∨ q.port = 5 then q.crit else if q.port = 4 ∨ q.fn = 0x41 then 3 else s.fnCrit q.fn

/-- The owner table holds an address (R93). -/
def inOwnTable (s : State) (a : Nat) : Bool := decide (s.ownTable ≤ a) && decide (a < s.ownTable + 4 * s.poolPlots)

/-- The check of a request. The applet changes no owner-table entry (R104). -/
def guardRequest (s : State) (who : Attr) (applet write : Bool) (a : Nat) : Bool × State :=
  if applet && write && s.inOwnTable a then (false, s.deny who.fn who.world who.crit true (s.dramTarget a) a) else s.guardDram who write a

/-- A request enters its channel when it is admitted; a refused one is counted, its write dropped and its read zeroed. -/
def dramRequest (s : State) (q : DramReq) : State :=
  let a := q.addr / 16 * 16
  if q.words = 0 ∨ 256 < a % 256 + 16 * q.words then s
  else
    let crit := s.stampCrit q
    let who : Attr := ⟨q.fn, q.world, crit, q.port, false, false⟩
    match s.guardRequest who q.applet q.data.isSome a with
    | (false, s1) =>
      s1.emit (.dram q.port q.fn a (List.replicate q.words 0x0201) (if q.data.isSome then [] else List.replicate q.words 0))
    | (true, s1) =>
      let ch := (s1.place a).ch
      let d := s1.dmc ch
      let item : DramItem := ⟨s1.dram.nextRid, q.fn, q.world, crit, q.port, a, q.words, q.data, s1.now⟩
      let s2 := { s1 with dram := { s1.dram with nextRid := s1.dram.nextRid + 1 } }
      s2.setDmc ch (s2.drainStep ch { d with reqs := d.reqs ++ [item], powerDown := false, lastUse := s2.now })

/-! ## Completion (R289, R293 to R298) -/

/-- Merge the masked bytes of a word into another. -/
def mergeBytes (mask old new : Nat) : Nat :=
  ((List.range 16).map fun i => (if bit i mask then bits (8 * i + 7) (8 * i) new else bits (8 * i + 7) (8 * i) old) * 2 ^ (8 * i)).sum

/-- Write one word: whole, or as a read, a merge and a write (R298). The status to the requester. -/
def writeMasked (s : State) (who : Attr) (a w mask : Nat) : Nat × State :=
  if mask % 65536 = 0xFFFF then (0, s.storeWord a w)
  else
    match s.lookWord a with
    | .clean v => (0, s.storeWord a (mergeBytes mask v w))
    | .corrected v pos => (0, (s.noteCorrected who a v pos).storeWord a (mergeBytes mask v w))
    | .uncorrectable => (0x0401, s.noteUncorrectable who a 3)
    | .poisoned => (0x0402, s.satFld .edac F.EDAC_POISON_READS_COUNT 1)

/-- Write the words of a request in order. -/
def writeWords (s : State) (who : Attr) (a : Nat) : List (Nat × Nat) → List Nat × State
  | [] => ([], s)
  | (w, m) :: r =>
    let (st, s1) := s.writeMasked who a w m
    let (l, s2) := (s1.pmcCount 0x02 who.fn who.world true 1).writeWords who (a + 16) r
    (st :: l, s2)

/-- Read the words of a request in order. -/
def readWords (s : State) (who : Attr) (a : Nat) : Nat → List (Nat × Nat) × State
  | 0 => ([], s)
  | k + 1 =>
    let (w, st, s1) := s.readWord who a
    let (l, s2) := (s1.pmcCount 0x01 who.fn who.world true 1).readWords who (a + 16) k
    ((w, st) :: l, s2)

/-- Issue n refreshes. -/
def refresh (s : State) (n k : Nat) : State := s.addFld (.dmc n) F.DMC_REF_COUNT_COUNT k

def setDebt (s : State) (n v : Nat) : State :=
  let s1 := s.setFld (.dmc n) F.DMC_REF_STAT_DEBT v
  s1.setFld (.dmc n) F.DMC_REF_STAT_DEBT_MAX (max v (s1.fld (.dmc n) F.DMC_REF_STAT_DEBT_MAX))

/-- Whether refreshes are held back: a request at urgency 2 or 3, or drain (R277). -/
def refreshBusy (s : State) (n : Nat) : Bool :=
  let d := s.dmc n
  d.drain || (s.heldReqs d.reqs).any fun q => decide (2 ≤ s.urgency n q)

/-- Issue the owed refreshes when nothing holds them back. -/
def payDebt (s : State) (n : Nat) : State :=
  let debt := s.fld (.dmc n) F.DMC_REF_STAT_DEBT
  if debt ≠ 0 ∧ !s.refreshBusy n then (s.refresh n debt).setDebt n 0 else s

/-- The bursts of check storage that the words of a request use, each once (R288). -/
def checkBursts (s : State) (q : DramItem) : List Nat :=
  match s.regionAt q.addr with
  | none => []
  | some r => ((List.range q.words).map fun i => r.entryAddr (q.addr + 16 * i) / 64).eraseDups

/-- Count the bursts of a request: its data on its own channel, each check burst on the channel to which the map sends it (R267). -/
def countBursts (s : State) (n : Nat) (q : DramItem) (f : Fld) : State :=
  (s.checkBursts q).foldl (fun t b => t.addFld (.dmc (t.place (64 * b)).ch) f 1) (s.addFld (.dmc n) f (dataBursts q))

/-- Lateness and the longest latency of a completed request (R271). -/
def noteLatency (s : State) (n : Nat) (q : DramItem) : State :=
  let age := s.now - q.arrived
  let t := bits 11 0 (s.rw (portKey n F.DMC_PORT_TARGET_TARGET q.port)) * 10
  let mk := portKey n F.DMC_PORT_MAXLAT_LAT q.port
  let s1 := s.setRw mk (max (s.rw mk) (min 0xFFFF (age / 10)))
  let lk := portKey n F.DMC_PORT_LATE_COUNT q.port
  if t < age then (s1.setRw lk (satAdd 32 (s1.rw lk) 1)).event (.dmc n) 6 else s1

/-- The channel issues the request that its rules pick, and it completes. -/
def dramComplete (s : State) (n : Nat) : State :=
  let d0 := s.drainStep n (s.dmc n)
  if d0.training ∨ d0.failed ∨ d0.selfRefresh then s
  else
    match s.issue n d0 with
    | none => s.setDmc n d0
    | some (q, rest) =>
      let credit := s.creditNow d0
      let cost := 16 * q.words * s.creditUnit
      let spend := if q.port = 0 ∧ !q.isWrite ∧ cost ≤ credit then cost else 0
      let d1 := { d0 with
        reqs := d0.reqs.filter fun p => p.rid != q.rid, credit := credit - spend, creditAt := s.now
        lastBank := (s.place q.addr).bank, lastUse := s.now
        row := if rest = [] then none else some (s.rowOf q), batch := rest }
      let s1 := (s.setDmc n d1).noteLatency n q
      let who : Attr := ⟨q.fn, q.world, q.crit, q.port, false, false⟩
      let s2 := match q.data with
        | some ws =>
          let (sts, t) := (s1.countBursts n q F.DMC_WR_BURSTS_COUNT).writeWords who q.addr ws
          t.emit (.dram q.port q.fn q.addr sts [])
        | none =>
          let (l, t) := (s1.countBursts n q F.DMC_RD_BURSTS_COUNT).readWords who q.addr q.words
          t.emit (.dram q.port q.fn q.addr (l.map Prod.snd) (l.map Prod.fst))
      let s3 := s2.setDmc n (s2.drainStep n (s2.dmc n))
      if rest = [] then s3.payDebt n else s3

/-! ## Refresh (R276 to R278, R280) -/

/-- k forced refreshes. -/
def forced (s : State) (n k : Nat) : State :=
  if k = 0 then s else ((s.refresh n k).addFld (.dmc n) F.DMC_REF_FORCED_COUNT k).event (.dmc n) 1

/-- A refresh falls due. -/
def refreshDue (s : State) (n : Nat) : State :=
  let d := s.dmc n
  let debt := s.fld (.dmc n) F.DMC_REF_STAT_DEBT
  if d.failed ∨ d.selfRefresh then s
  else if d.training then s.refresh n 1
  else if s.refreshBusy n then
    (if s.fld (.dmc n) F.DMC_REF_CTRL_POSTPONE_MAX ≤ debt then s.forced n 1 else s.setDebt n (debt + 1))
  else (s.refresh n 1).payDebt n

/-- M from the highest rate that MR4 reports, in eighths of the base rate (R276). -/
def multOf (rate : Nat) (hot : Bool) : Nat := if hot ∨ 16 < rate then 4 else if 8 < rate then 2 else 1

/-- The debt after a change of M (R278). -/
def newDebt (debt old new : Nat) : Nat := if old < new then debt * (new / old) + 1 else ((debt + 1) * new + old - 1) / old

/-- An MR4 poll. -/
def mr4Poll (s : State) (n rate : Nat) (hot : Bool) : State :=
  let d := s.dmc n
  if d.failed ∨ d.selfRefresh then s
  else
    let m := multOf rate hot
    let s0 := if hot ∨ 32 < rate then (s.event (.dmc n) 4).reportContained (.dmc n) (openCode 0x0276 []) n else s
    if m = d.mult then s0
    else
      let debt := newDebt (s0.fld (.dmc n) F.DMC_REF_STAT_DEBT) d.mult m
      let top := s0.fld (.dmc n) F.DMC_REF_CTRL_POSTPONE_MAX
      let s1 := ((s0.setDmc n { d with mult := m, want := true }).setDebt n debt).event (.dmc n) 0
      if top < debt then (s1.forced n (debt - top / 2)).setDebt n (top / 2) else s1

/-! ## Retraining and power-down (R274, R279) -/

/-- The channel whose turn it is: the first that waits, in channel order after the one that trained last. -/
def trainTurn (s : State) : Option Nat :=
  ((List.range 16).map fun k => (s.dram.lastTrained + 1 + k) % 16).find? fun n => decide (n < s.channels) && (s.dmc n).want

/-- A retraining trigger of a channel: 0 interval, 1 temperature, 2 retry, 3 none new; the channel starts in its turn. -/
def retrainStart (s : State) (n cause : Nat) : State :=
  let c := fun (f : Fld) => s.fld (.dmc n) f
  let trig := (cause == 0 && c F.DMC_TRAIN_CTRL_INTERVAL != 0) || (cause == 1 && c F.DMC_TRAIN_CTRL_TEMP_STEP != 0)
    || (cause == 2 && c F.DMC_TRAIN_STAT_DEGRADED == 1)
  let s1 := if trig ∧ n < s.channels then s.setDmc n { s.dmc n with want := true } else s
  let busy := (List.range 16).any fun k => (s1.dmc k).training
  let d := s1.dmc n
  let soon : Bool := match s1.dram.trainedAt with | some at0 => decide (s1.now < at0 + 200000) | none => false
  if busy ∨ soon ∨ s1.trainTurn ≠ some n ∨ d.failed ∨ d.selfRefresh then s1
  else
    let s2 := { s1 with dram := { s1.dram with lastTrained := n, trainedAt := some s1.now } }
    s2.setDmc n { d with want := false, training := true, row := none, batch := [] }

/-- A channel with no request for 1 µs enters power-down. -/
def dramPowerDown (s : State) (n : Nat) : State :=
  let d := s.dmc n
  if d.reqs.isEmpty ∧ d.lastUse + 1000 ≤ s.now ∧ !d.training ∧ !d.failed ∧ !d.selfRefresh then s.setDmc n { d with powerDown := true } else s

/-! ## Registers (R271, R277, R279, R284) -/

/-- A word of the port selected by DMC_PORT_SEL; 12 to 15 select none. -/
def portWrite (a : RegAcc) (s : State) (run : Nat → Nat → State → State) : State :=
  match a.page with
  | .dmc n =>
    let p := s.fld (.dmc n) F.DMC_PORT_SEL_PORT
    if 12 ≤ p then s.refuse a 0x0006 else run n p (s.recRefused a)
  | _ => s

/-- A new latency target of a port: waiting requests take the new thresholds from now on, so drain and owed refreshes follow (R284). -/
def setTarget (s : State) (n p v : Nat) : State :=
  let s1 := s.setRw (portKey n F.DMC_PORT_TARGET_TARGET p) v
  (s1.setDmc n (s1.drainStep n (s1.dmc n))).payDebt n

/-- DMC_PORT_TARGET: one channel, or with ALL every present channel in ascending order. -/
def portTargetWrite (a : RegAcc) (s : State) : State :=
  portWrite a s fun n p t =>
    let v := bits 11 0 a.val
    if s.grants a F.DMC_PORT_TARGET_ALL then (List.range t.channels).foldl (fun u m => u.setTarget m p v) t
    else if s.grants a F.DMC_PORT_TARGET_TARGET then t.setTarget n p v else t

def maxlatClear (a : RegAcc) (s : State) : State :=
  portWrite a s fun n p t => if s.grants a F.DMC_PORT_MAXLAT_CLEAR then t.setRw (portKey n F.DMC_PORT_MAXLAT_LAT p) 0 else t

def debtMaxClear (a : RegAcc) (s : State) : State :=
  if s.grants a F.DMC_REF_STAT_CLEAR then s.setFld a.page F.DMC_REF_STAT_DEBT_MAX (s.fld a.page F.DMC_REF_STAT_DEBT) else s.recRefused a

/-- DMC_TRAIN_CTRL: the fields, and START as a trigger. -/
def trainCtrlWrite (a : RegAcc) (s : State) : State :=
  match a.page with
  | .dmc n =>
    let go := s.grants a F.DMC_TRAIN_CTRL_START
    let s1 := s.plainWrite a
    if go then s1.setDmc n { s1.dmc n with want := true } else s1
  | _ => s

/-- DMC_CFG once the channel is initialised. -/
def dmcCfgWrite (a : RegAcc) (s : State) : State :=
  if s.flag a.page F.DMC_STAT_INIT then s.refuse a 0x000A else s.plainWrite a

/-- DMC_WDRAIN and DMC_REF_CTRL: values out of range have no effect. -/
def wdrainWrite (a : RegAcc) (s : State) : State :=
  let hi := bits 6 0 a.val
  if s.part = .sx8200 then s
  else if hi = 0 ∨ 64 < hi ∨ hi ≤ bits 14 8 a.val then s.refuse a 0x0006
  else
    match a.page with
    | .dmc n =>
      let s1 := s.plainWrite a
      (s1.setDmc n (s1.drainStep n (s1.dmc n))).payDebt n
    | _ => s

def refCtrlWrite (a : RegAcc) (s : State) : State :=
  if 8 < bits 3 0 a.val ∨ bits 11 4 a.val = 0 then s.refuse a 0x0006 else s.plainWrite a

/-! ## Self-refresh (R282, R283) -/

/-- Whether channel n keeps eighth e of installed DRAM in FALLOW. -/
def keptEighth (s : State) (n e : Nat) : Bool :=
  let size := s.installed / 8
  bit e (s.fld (.dmc n) F.DMC_PASR_KEEP) || (s.watermark != 0 && decide (e * size < s.watermark))
    || ((List.range s.poolPlots).any fun p => s.poolOn && bit 9 (s.ownEntry p) && s.plotAddr p / size == e)

/-- Every request that a channel has accepted completes (R282). -/
def drainChannel (s : State) (n : Nat) : State := (List.range (s.dmc n).reqs.length).foldl (fun t _ => t.dramComplete n) s

/-- Entry: accepted requests and owed refreshes first, then the partial-array masks, and self-refresh. -/
def selfRefreshEntry (s : State) : State :=
  let s0 := (List.range s.channels).foldl drainChannel s
  (List.range s.channels).foldl (fun t n =>
    let kept := ((List.range 8).map fun e => b2n (s0.keptEighth n e) * 2 ^ e).sum
    let debt := t.fld (.dmc n) F.DMC_REF_STAT_DEBT
    let t1 := ((t.refresh n debt).setDebt n 0).setFld (.dmc n) F.DMC_PASR_KEPT kept
    t1.setDmc n { t1.dmc n with selfRefresh := true, training := false, powerDown := false, row := none, batch := [] }) s0

/-- The retraining of a channel on the wake: it counts as one, and the eyes that it finds are stated nowhere, so they are open. -/
def wakeTrain (s : State) (n : Nat) : State :=
  let pg := Page.dmc n
  let s1 := s.setDmc n { s.dmc n with selfRefresh := false, want := false }
  let s2 := (s1.addFld pg F.DMC_TRAIN_STAT_COUNT 1).setRw (pg.key F.DMC_TRAIN_LAST_PAUSE_NS.off)
    (Config.openResult 0x0283 [n, s1.fld pg F.DMC_TRAIN_STAT_COUNT] % 2 ^ 32)
  s2.event pg 2

/-- Wake: every channel retrains; lost eighths lose their content, and their plots their WRITTEN. -/
def selfRefreshExit (s : State) : State :=
  let size := s.installed / 8
  let lost := fun (a : Nat) => !bit (a / size) (s.fld (.dmc (s.place a).ch) F.DMC_PASR_KEPT)
  let gone := fun (p : Nat) => (List.range s.channels).any fun n => !bit (s.plotAddr p / size) (s.fld (.dmc n) F.DMC_PASR_KEPT)
  let s1 := (List.range s.channels).foldl wakeTrain s
  let s2 := { s1 with mem := s1.mem.filter fun c => !lost c.1 }
  if s2.poolOn then ((List.range s2.poolPlots).filter gone).foldl clearWritten s2 else s2

/-! ## The EDAC page -/

/-- Ranges of numbers that share one. -/
def overlaps (a n b m : Nat) : Bool := decide (a < b + m) && decide (b < a + n)

/-- Why a region fails (R287). -/
def regionFault (s : State) (r : Nat) : Option Nat :=
  let x := s.regionBlock r
  let others := ((List.range 16).filter (· != r)).map s.regionBlock |>.filter fun y => y.size != 0
  if x.size = 0 then none
  else if s.installed < x.base + x.size ∨ s.installed < x.check + x.checkLen then some 1
  else if others.any fun y => overlaps x.base x.size y.base y.size then some 2
  else if overlaps x.check x.checkLen x.base x.size
      || others.any fun y => overlaps x.check x.checkLen y.base y.size || overlaps x.check x.checkLen y.check y.checkLen then some 3
  else none

/-- The first region block that breaks a rule of R287 and R288, with the rule's number. -/
def firstRegionFault (s : State) : Option (Nat × Nat) := (List.range 16).findSome? fun r => (s.regionFault r).map fun k => (r, k)

/-- REGIONS_SET. -/
def regionsSet (s : State) : State :=
  let f := s.firstRegionFault.getD (0, 0)
  if s.firstRegionFault.isSome then s.recErr .edac 0x0403 (f.1 + f.2 * 2 ^ 8) else s.setFld .edac F.EDAC_CTRL_REGIONS_SET 1

/-- EDAC_CTRL. -/
def edacCtrlWrite (a : RegAcc) (s : State) : State :=
  let go := s.grants a F.EDAC_CTRL_REGIONS_SET
  let s1 := s.plainWrite a fun f => f != F.EDAC_CTRL_REGIONS_SET
  if go ∧ !s.flag .edac F.EDAC_CTRL_REGIONS_SET then s1.regionsSet else s1

/-- A word of a region block. -/
def regionWrite (a : RegAcc) (s : State) : State :=
  if s.flag .edac F.EDAC_CTRL_REGIONS_SET then s.refuse a 0x000A else s.plainWrite a

/-- EDAC_CE_THRESH: a write starts the window anew. -/
def threshWrite (a : RegAcc) (s : State) : State :=
  if s.secretPage a then s.recRefused a else (s.plainWrite a).setFld .edac F.EDAC_CE_THRESH_WINDOW 0

/-- EDAC_LOG_CTRL. -/
def edacLogCtrl (a : RegAcc) (s : State) : State :=
  let rel := s.grants a F.EDAC_LOG_CTRL_RELEASE
  let all := s.grants a F.EDAC_LOG_CTRL_CLEAR_ALL
  let s0 := s.recRefused a
  let s1 := if rel then { s0 with edac := { s0.edac with log := s0.edac.log.drop 1 } } else s0
  let s2 := if all then ({ s1 with edac := { s1.edac with log := [] } }).setFld .edac F.EDAC_LOG_STAT_LOST 0 else s1
  s2.setFld .edac F.EDAC_LOG_STAT_COUNT s2.edac.log.length

/-- EDAC_RETIRE_PLOT (R301, R302): the partner takes the retirement as a record (R384). -/
def retirePlotWrite (a : RegAcc) (s : State) : State :=
  let p := bits 19 0 a.val
  let keep := bit 31 a.val
  if s.edac.retiring.isSome then s.refuse a 0x0009
  else if s.poolPlots ≤ p then s.refuse a 0x0006
  else if !s.grants a F.EDAC_RETIRE_PLOT_PLOT then s.recRefused a
  else
    let s1 := (s.retirePlot p).mirror (.record 0x80 [p] [p] none)
    if !keep ∨ s1.edac.plotList.contains p then s1
    else if 1024 ≤ s1.edac.plotList.length then s1.recAcc a 0x000A
    else { s1 with edac := { s1.edac with plotList := s1.edac.plotList ++ [p] } }

/-- EDAC_RETIRE_BANK: the plots are withheld at once, the page is BUSY until the retirement has completed. -/
def retireBankWrite (a : RegAcc) (s : State) : State :=
  let b := (bits 3 0 a.val, bits 4 4 a.val, bits 8 5 a.val)
  let keep := bit 31 a.val
  if s.edac.retiring.isSome then s.refuse a 0x0009
  else if s.channels ≤ b.1 ∨ (b.2.1 = 1 ∧ s.fld (.dmc 0) F.DMC_CFG_RANKS = 0) then s.refuse a 0x0006
  else if !s.grants a F.EDAC_RETIRE_BANK_CH then s.recRefused a
  else
    let ps := (List.range s.poolPlots).filter (s.plotInBank b)
    let s1 := (ps.foldl retirePlot s).mirror (.record 0x80 [b.1, b.2.1, b.2.2] ps none)
    let s2 := ({ s1 with edac := { s1.edac with retiring := some b } }).setFld .edac F.PG_STAT_BUSY 1
    let s3 := s2.setFld .edac F.EDAC_BS_RETIRING 1
    if !keep ∨ s3.edac.bankList.contains b then s3
    else if 16 ≤ s3.edac.bankList.length then s3.recAcc a 0x000A
    else { s3 with edac := { s3.edac with bankList := s3.edac.bankList ++ [b] } }

/-- A bank retirement completes. -/
def retireBankDone (s : State) : State :=
  match s.edac.retiring with
  | none => s
  | some _ =>
    let s1 := ({ s with edac := { s.edac with retiring := none } }).setFld .edac F.PG_STAT_BUSY 0
    let n := s1.fld .edac F.EDAC_RETIRE_STAT_BANKS
    ((s1.setFld .edac F.EDAC_BS_RETIRING 0).setFld .edac F.EDAC_RETIRE_STAT_BANKS (min 16 (n + 1))).event .edac 5

/-- A soft reset of EDAC (R499). -/
def edacReset (s : State) : State :=
  let s1 := s.retireBankDone
  let keep := fun (k : Nat) => k == Page.edac.key 0x040 || (decide (Page.edac.key 0x100 ≤ k) && decide (k < Page.edac.key 0x200))
  let s2 := s1.resetPage .edac keep
  { s2 with edac := { s2.edac with log := [] } }

end State

/-- A word of a DMC page. -/
def isDmcWord (f : Fld) (a : RegAcc) : Bool := a.off == f.off && (match a.page with | .dmc _ => true | _ => false)

/-! ## The commands -/

def execDramRequest (q : DramReq) (s : State) : Host.Outcome State Fault Refusal := .next (s.dramRequest q)

def execDramRequestComplete (ch : Nat) (s : State) : Host.Outcome State Fault Refusal := .next (s.dramComplete ch)

def execRefreshDue (ch : Nat) (s : State) : Host.Outcome State Fault Refusal := .next (s.refreshDue ch)

def execMr4Poll (ch rate : Nat) (hot : Bool) (s : State) : Host.Outcome State Fault Refusal := .next (s.mr4Poll ch rate hot)

def execRetrainStart (ch cause : Nat) (s : State) : Host.Outcome State Fault Refusal := .next (s.retrainStart ch cause)

def execDmcTrainStartWrite (w : RegWr) (s : State) : Host.Outcome State Fault Refusal :=
  .next (s.accessAt w (isDmcWord F.DMC_TRAIN_CTRL_START) State.trainCtrlWrite)

def execDramPowerDown (ch : Nat) (s : State) : Host.Outcome State Fault Refusal := .next (s.dramPowerDown ch)

def execDmcPortTargetAll (w : RegWr) (s : State) : Host.Outcome State Fault Refusal :=
  .next (s.accessAt w (isDmcWord F.DMC_PORT_TARGET_ALL) State.portTargetWrite)

def execDmcPortMaxlatClear (w : RegWr) (s : State) : Host.Outcome State Fault Refusal :=
  .next (s.accessAt w (isDmcWord F.DMC_PORT_MAXLAT_CLEAR) State.maxlatClear)

def execDmcDebtMaxClear (w : RegWr) (s : State) : Host.Outcome State Fault Refusal :=
  .next (s.accessAt w (isDmcWord F.DMC_REF_STAT_CLEAR) State.debtMaxClear)

def execRegionsSet (w : RegWr) (s : State) : Host.Outcome State Fault Refusal :=
  .next (s.accessAt w (State.isWord .edac F.EDAC_CTRL_REGIONS_SET) State.edacCtrlWrite)

def execEdacLogRelease (w : RegWr) (s : State) : Host.Outcome State Fault Refusal :=
  .next (s.accessAt w (fun a => State.isWord .edac F.EDAC_LOG_CTRL_RELEASE a && bit 0 a.val) State.edacLogCtrl)

def execEdacLogClearAll (w : RegWr) (s : State) : Host.Outcome State Fault Refusal :=
  .next (s.accessAt w (fun a => State.isWord .edac F.EDAC_LOG_CTRL_CLEAR_ALL a && bit 1 a.val) State.edacLogCtrl)

def execEdacRetirePlot (w : RegWr) (s : State) : Host.Outcome State Fault Refusal :=
  .next (s.accessAt w (State.isWord .edac F.EDAC_RETIRE_PLOT_PLOT) State.retirePlotWrite)

def execEdacRetireBank (w : RegWr) (s : State) : Host.Outcome State Fault Refusal :=
  .next (s.accessAt w (State.isWord .edac F.EDAC_RETIRE_BANK_CH) State.retireBankWrite)

def execRetireBankDone (s : State) : Host.Outcome State Fault Refusal := .next s.retireBankDone

end Sys2Proof.Machine
end

