-- ==== Sys2Proof/Machine/DisplayPort.lean ====
section
/-! DEFINITION. DisplayPort transmitters: enable and disable, link training, hot plug, AUX, the start of video with DSC, and
Panel Replay (R234 to R248). -/

namespace Sys2Proof.Machine

/-- A transmitter that has never been powered. -/
def idleDpl : Dpl where
  powered := false
  hpd := false
  blockPred := false
  seedCap := false
  seed := false
  toTry := []
  tries := 0
  trained := none
  decided := false
  video := false
  dsc := false
  replay := false
  still := 0
  lastTotal := 0
  aux := none
  auxHeld := false
  idleHold := false
  dead := false

/-- Payload per lane in Mb/s, by rate code (R238). -/
def laneRate (dsc : Bool) (rate : Nat) : Nat :=
  if rate = 3 then 13056 else if rate = 2 then 9671
  else if rate = 1 then (if dsc then 6324 else 6480) else if dsc then 4216 else 4320

/-- Lane count of a LANES code. -/
def lanesOf (code : Nat) : Nat := 2 ^ code

namespace State

def dpl (s : State) (n : Nat) : Dpl := (Sparse.find s.dpls n).getD idleDpl

/-- Set a transmitter, and keep BLOCK_STAT and DPL_LINK as it stands. -/
def setDpl (s : State) (n : Nat) (d : Dpl) : State :=
  let s1 := { s with dpls := Sparse.put s.dpls n d }
  let pg := Page.dpl n
  let (rate, lanes) := d.trained.getD (0, 1)
  let on := d.trained.isSome
  let s2 := (s1.setFld pg F.DPL_BS_HPD (b2n d.hpd)).setFld pg F.DPL_BS_TRAINED (b2n on)
  let s3 := ((s2.setFld pg F.DPL_BS_VIDEO (b2n d.video)).setFld pg F.DPL_BS_REPLAY (b2n d.replay)).setFld pg F.DPL_BS_DSC_ACTIVE (b2n d.dsc)
  let s4 := ((s3.setFld pg F.DPL_LINK_RATE rate).setFld pg F.DPL_LINK_LANES (lanes / 2)).setFld pg F.DPL_LINK_TRAINED (b2n on)
  (s4.setFld pg F.DPL_LINK_FEC (b2n (d.dsc && on && decide (rate ≤ 1)))).setFld pg F.DPL_LINK_DSC (b2n d.dsc)

/-- Bits per component of the link (R235). -/
def linkBpc (s : State) (n : Nat) : Nat := if s.flag (.pipe n) F.PIPE_CTRL_DEPTH8 then 8 else 10

/-! ## Training (R238, R239) -/

/-- The eligible configurations, in the order of R239: largest lane count first, then half and a quarter of it. -/
def configs (s : State) (n : Nat) : List (Nat × Nat) :=
  let f := fun (x : Fld) => s.fld (.dpl n) x
  let top := min (min (f F.DPL_CTRL_MAX_RATE) (f F.DPL_SINK_MAX_RATE)) (if f F.DPL_CTRL_EDP = 1 then 1 else 3)
  let rates := (List.range 4).reverse.filter fun r => decide (r ≤ top) && s.rateAllowed n r
  let most := lanesOf (min (f F.DPL_CTRL_LANES) (f F.DPL_SINK_MAX_LANES))
  ([most, most / 2, most / 4].filter (0 < ·)).flatMap fun l => rates.map fun r => (r, l)

/-- The transmitter's own AUX traffic has ended: a transaction that waited for it starts (R243). -/
def auxRelease (s : State) (n : Nat) : State :=
  let d := s.dpl n
  match d.aux with
  | some x => if d.auxHeld then (s.setDpl n { d with auxHeld := false }).emit (.aux n x.req x.addr x.len x.data) else s
  | none => s

/-- No configuration is left: electrical idle and the record of R239. -/
def trainFailed (s : State) (n tries : Nat) : State :=
  let d := s.dpl n
  (((s.setDpl n { d with toTry := [], trained := none, video := false }).event (.dpl n) 4).recErr (.dpl n) 0x0A02 (tries % 16)).auxRelease n

/-- Start a training over some configurations. -/
def trainWith (s : State) (n : Nat) (cs : List (Nat × Nat)) : State :=
  let d := s.dpl n
  if d.dead ∨ d.idleHold then s
  else if !d.hpd then s.recErr (.dpl n) 0x0A01 0
  else
    let s1 := s.setDpl n { d with toTry := cs, tries := 0, trained := none, decided := false, video := false, dsc := false, replay := false }
    if cs = [] then s1.trainFailed n 0 else s1

def train (s : State) (n : Nat) : State := s.trainWith n (s.configs n)

/-- A training attempt ends. -/
def attemptEnd (s : State) (n : Nat) (ok : Bool) : State :=
  let d := s.dpl n
  match d.toTry with
  | [] => s
  | c :: rest =>
    if ok then
      ((s.setDpl n { d with
        toTry := [], tries := 0, trained := some c, decided := false, seed := d.seedCap && s.flag (.dpl n) F.DPL_CTRL_EDP }).event (.dpl n) 3).auxRelease n
    else
      let s1 := s.satFld (.dpl n) F.DPL_TRAIN_FAILS_COUNT 1
      if rest = [] then s1.trainFailed n (d.tries + 1) else s1.setDpl n { d with toTry := rest, tries := d.tries + 1 }

/-- A link loss: retraining goes only downward from the configuration that last trained (R241). -/
def linkLoss (s : State) (n : Nat) : State :=
  let d := s.dpl n
  match d.trained with
  | none => s
  | some c =>
    let s1 := (s.satFld (.dpl n) F.DPL_LOCK_LOSS_COUNT 1).event (.dpl n) 5
    let cs := s1.configs n
    s1.trainWith n (match cs.findIdx? (· == c) with | some i => cs.drop i | none => cs.filter fun x => decide (x.1 * x.2 ≤ c.1 * c.2))

/-! ## Enable and disable (R237) -/

/-- The checks of R237. -/
def dplFault (s : State) (n : Nat) : Option Nat :=
  let f := fun (x : Fld) => s.fld (.dpl n) x
  let dsc := f F.DPL_CTRL_DSC_MODE
  let bpp := f F.DPL_DSC_BPP_X16
  if f F.DPL_CTRL_LANES = 3 ∨ 3 < f F.DPL_CTRL_MAX_RATE ∨ f F.DPL_CTRL_COLORIMETRY = 3 ∨ dsc = 3 then some 0x0006
  else if f F.DPL_CTRL_EDP = 1 ∧ 1 < f F.DPL_CTRL_MAX_RATE then some 0x0A03
  else if dsc ≠ 0 ∧ f F.DPL_DSC_SLICE_H = 0 then some 0x0002
  else if dsc ≠ 0 ∧ (bpp < 128 ∨ 48 * s.linkBpc n - 16 < bpp ∨ 4 < f F.DPL_DSC_SLICES) then some 0x0006
  else none

/-- End the AUX transaction in progress with AUX_FAILED (R237, R243). -/
def auxFail (s : State) (n : Nat) : State :=
  match (s.dpl n).aux with
  | none => s
  | some _ =>
    let s1 := s.setDpl n { s.dpl n with aux := none, auxHeld := false }
    ((s1.setFld (.dpl n) F.DPL_AUX_STAT_STATE 3).recErr (.dpl n) 0x0A04 0).event (.dpl n) 6

/-- Lanes in electrical idle: nothing is trained and no video runs. -/
def lanesIdle (s : State) (n : Nat) : State :=
  let d := s.dpl n
  (s.setDpl n { d with
    toTry := [], tries := 0, trained := none, seed := false, decided := false, video := false, dsc := false, replay := false, still := 0 }).auxRelease n

def dplOff (s : State) (n : Nat) : State :=
  let s1 := (s.auxFail n).lanesIdle n
  (s1.setDpl n { s1.dpl n with powered := false }).setFld (.dpl n) F.PG_STAT_ENABLED 0

def dplOn (s : State) (n : Nat) : State :=
  match s.dplFault n with
  | some code => s.recErr (.dpl n) code 0x1008
  | none =>
    let s1 := ((s.setFld (.dpl n) F.PG_CTRL_ENABLE 1).setFld (.dpl n) F.PG_STAT_ENABLED 1)
    let s2 := s1.setDpl n { s1.dpl n with powered := true }
    if (s2.dpl n).hpd ∧ s2.flag (.dpl n) F.DPL_CTRL_AUTO_TRAIN then s2.train n else s2

/-- ENABLE of DPLn: the write is mirrored as it was made (R384). -/
def dplEnable (a : RegAcc) (on : Bool) (s : State) : State :=
  match a.page with
  | .dpl n =>
    if on then (match s.dplFault n with | some code => s.recAcc a code | none => mirrorWrite s (s.dplOn n) a 0 0)
    else mirrorWrite s ((s.setFld (.dpl n) F.PG_CTRL_ENABLE 0).dplOff n) a 0 0
  | _ => s

def dplReset (a : RegAcc) (s : State) : State :=
  match a.page with
  | .dpl n =>
    let s1 := ((s.dplOff n).resetPage (.dpl n))
    let d := s1.dpl n
    mirrorWrite s (s1.setDpl n d) a 0 0
  | _ => s

/-- DPL_CTRL and DPL_DSC: refused while ENABLE is 1. -/
def dplSetupWrite (a : RegAcc) (s : State) : State :=
  if s.flag a.page F.PG_CTRL_ENABLE ∧ s.writesAny a then
    (if (s.writtenFields a).any (s.refusedSec a) then s.denyReg a else s.recAcc a 0x000A)
  else mirrorWrite s (s.plainWrite a) a 0 0

/-! ## Hot plug (R242) -/

/-- A plug: DPL_SINK takes bits 21 to 0 of `sink`; bit 22 is the sink's report of the alternate scrambler seed (R234), which has no field. -/
def hpdPlug (s : State) (n sink : Nat) (blockPred : Bool) : State :=
  let d := s.dpl n
  if d.hpd ∨ s.asleep then s
  else
    let s1 := (s.setDpl n { d with hpd := true, blockPred := blockPred, seedCap := bit 22 sink }).setRw ((Page.dpl n).key F.DPL_SINK_PR.off) (sink % 2 ^ 22)
    let s2 := s1.event (.dpl n) 0
    if d.powered ∧ s2.flag (.dpl n) F.DPL_CTRL_AUTO_TRAIN then s2.train n else s2

def hpdUnplug (s : State) (n : Nat) : State :=
  let d := s.dpl n
  if !d.hpd ∨ s.asleep then s
  else
    let s1 := (s.lanesIdle n)
    let s2 := (s1.setDpl n { s1.dpl n with hpd := false, blockPred := false, seedCap := false }).setRw ((Page.dpl n).key F.DPL_SINK_PR.off) 0
    s2.event (.dpl n) 1

def hpdIrq (s : State) (n : Nat) (lost : Bool) : State :=
  if !(s.dpl n).hpd ∨ s.asleep then s
  else
    let s1 := s.event (.dpl n) 2
    if lost then s1.linkLoss n else s1

/-! ## AUX (R243) -/

/-- Native AUX requests have bit 3 of the request command set (PRESUMED: DisplayPort 2.1). -/
def auxNative (req : Nat) : Bool := bit 3 req

/-- A native write that touches the DPCD addresses that the transmitter owns. -/
def auxOwned (req addr len : Nat) : Bool :=
  req == 8 && (List.range len).any fun i => (decide (0x100 ≤ addr + i) && decide (addr + i ≤ 0x12F)) || addr + i == 0x160

/-- A transmitter that drives no AUX: disabled, or idle after a device-fatal fault (R237, R248). -/
def auxDown (s : State) (n : Nat) : Bool := !(s.dpl n).powered || (s.dpl n).dead || s.faults.fatal.isSome

/-- DPL_AUX_ADDR and DPL_AUX_DATA: refused while STATE is busy. -/
def auxWordWrite (a : RegAcc) (s : State) : State :=
  match a.page with
  | .dpl n => if (s.dpl n).aux.isSome then s.refuse a 0x0009 else mirrorWrite s (s.plainWrite a) a 0 0
  | _ => s

/-- DPL_AUX_CTRL. A transaction of a transmitter that drives no AUX ends at once with AUX_FAILED. -/
def auxGo (a : RegAcc) (s : State) : State :=
  match a.page with
  | .dpl n =>
    let f := fun (x : Fld) => s.fld (.dpl n) x
    let len := bits 4 0 a.val
    let req := f F.DPL_AUX_ADDR_REQ
    let addr := f F.DPL_AUX_ADDR_ADDR
    let go := s.grants a F.DPL_AUX_CTRL_GO
    if s.secretPage a then s.recRefused a
    else if (s.dpl n).aux.isSome then s.refuse a 0x0009
    else if 16 < len then s.refuse a 0x0006
    else if go ∧ len = 0 ∧ auxNative req then s.recAcc a 0x0002
    else if go ∧ (s.dpl n).trained.isSome ∧ auxOwned req addr len then s.recAcc a 0x000A
    else
      let s1 := mirrorWrite s (s.plainWrite a) a 0 0
      if go then
        let data := (List.range len).map fun i => bits (8 * (i % 4) + 7) (8 * (i % 4)) (s.fld (.dpl n) F.DPL_AUX_DATA_DATA [i / 4])
        let x : Aux := ⟨req, addr, len, if bit 0 req then [] else data⟩
        let s2 := (s1.setRw ((Page.dpl n).key F.DPL_AUX_STAT_STATE.off) 1).setDpl n { s1.dpl n with aux := some x, auxHeld := true }
        if s2.auxDown n then s2.auxFail n else if (s2.dpl n).toTry = [] then s2.auxRelease n else s2
      else s1
  | _ => s

/-- A reply defers: AUX_DEFER or I2C_DEFER (PRESUMED: DisplayPort 2.1). -/
def auxDefers (reply : Nat) : Bool := reply == 2 || reply == 8

def auxReply (s : State) (n reply bytes : Nat) (data : List Nat) : State :=
  match (s.dpl n).aux with
  | none => s
  | some x =>
    if (s.dpl n).auxHeld then s
    else
    let s1 := s.setFld (.dpl n) F.DPL_AUX_STAT_REPLY reply
    if auxDefers reply then
      let s2 := s1.setFld (.dpl n) F.DPL_AUX_STAT_DEFERS (s1.fld (.dpl n) F.DPL_AUX_STAT_DEFERS + 1)
      if 7 ≤ s2.fld (.dpl n) F.DPL_AUX_STAT_DEFERS then s2.auxFail n else s2.emit (.aux n x.req x.addr x.len x.data)
    else
      let s2 := if bit 0 x.req then
          (data.take x.len).zipIdx.foldl (fun t p =>
            let k := (Page.dpl n).key (F.DPL_AUX_DATA_DATA.at [p.2 / 4])
            t.setRw k (setBits (8 * (p.2 % 4) + 7) (8 * (p.2 % 4)) (t.rw k) p.1)) s1
        else s1
      let s3 := (s2.setFld (.dpl n) F.DPL_AUX_STAT_BYTES (min bytes x.len)).setFld (.dpl n) F.DPL_AUX_STAT_STATE 2
      (s3.setDpl n { s3.dpl n with aux := none }).event (.dpl n) 6

def auxTimeout (s : State) (n : Nat) : State :=
  match (s.dpl n).aux with
  | none => s
  | some x =>
    if (s.dpl n).auxHeld then s
    else
    let s1 := s.setFld (.dpl n) F.DPL_AUX_STAT_TIMEOUTS (s.fld (.dpl n) F.DPL_AUX_STAT_TIMEOUTS + 1)
    if 3 ≤ s1.fld (.dpl n) F.DPL_AUX_STAT_TIMEOUTS then s1.auxFail n else s1.emit (.aux n x.req x.addr x.len x.data)

/-! ## DSC and video (R240, R244) -/

/-- The parameters of the encoder (R244): from equal ones, two devices make equal streams. -/
def dscParams (s : State) (n : Nat) : List Nat :=
  let t := s.timing n
  [s.linkBpc n, s.fld (.dpl n) F.DPL_DSC_BPP_X16, s.fld (.dpl n) F.DPL_DSC_SLICES, s.fld (.dpl n) F.DPL_DSC_SLICE_H, t.ha, t.va,
    b2n (s.dpl n).blockPred]

/-- A word of the PPS. DSC 1.2a gives it from these parameters; the spec does not repeat that standard's tables, so the word is an
open result of them. -/
def ppsWord (s : State) (n w : Nat) : Nat := Config.openResult 0x0244 (s.dscParams n ++ [w]) % 2 ^ 32

/-- The compressed bits of line y. DSC 1.2a makes them of the parameters and of the lines of the slices up to y; the spec does not repeat
that standard, so they are an open result of these. -/
def dscLine (s : State) (n y : Nat) (lines : List (List OutPix)) : Nat :=
  let top := y - y % max 1 (s.fld (.dpl n) F.DPL_DSC_SLICE_H)
  Config.openResult 0x1244 (s.dscParams n ++ [y] ++ (((lines.drop top).take (y - top + 1)).flatten.flatMap fun p => [p.q0, p.q1, p.q2]))

/-- Line y leaves on the main link: its pixels, or with DSC in use the bits that the encoder makes of them. -/
def sendLine (s : State) (n y : Nat) (lines : List (List OutPix)) : State :=
  match lines[y]? with
  | some px =>
    if (s.dpl n).dsc then s.emit (.encoded n y (s.dscLine n y lines))
    else s.emit (.line n y (px.map fun (p : OutPix) => (p.q0, p.q1, p.q2, p.tag)))
  | none => s

/-- The transmitter sends a line of the running frame: video runs and the panel does not replay. -/
def scanLine (s : State) (n y : Nat) : State :=
  if (s.dpl n).video ∧ !(s.dpl n).replay then s.sendLine n y (s.disp n).lines else s

/-- The Adaptive-Sync SDP of a frame whose total lines have been decided (R235). -/
def adaptiveSdp (s : State) (n total : Nat) : State :=
  if (s.dpl n).video ∧ !(s.dpl n).replay then s.emit (.sdp n (.adaptiveSync total)) else s

/-- A read of DPL_PPS_DATA returns a word and advances DPL_PPS_ADDR. -/
def ppsDataRead (a : RegAcc) (s : State) : State :=
  match a.page with
  | .dpl n =>
    let w := s.fld (.dpl n) F.DPL_PPS_ADDR_WORD
    let v := if (s.dpl n).dsc ∧ !s.secretPage a then s.ppsWord n w else 0
    (s.answerRead a v).setFld (.dpl n) F.DPL_PPS_ADDR_WORD (w + 1)
  | _ => s

/-- A read that reaches DPL_PPS_DATA; any other is not this command. -/
def ppsRead (r : RegRd) (s : State) : State :=
  s.accessRead r fun a t =>
    match a.page with
    | .dpl _ => if a.off = F.DPL_PPS_DATA_DATA.off then ppsDataRead a t else t
    | _ => t

/-- The decision of R240 at a latch point: whether DSC is used, whether video starts, and the rate required in bit/s. -/
def videoDecision (s : State) (n rate lanes : Nat) : Bool × Bool × Nat :=
  let f := fun (x : Fld) => s.fld (.dpl n) x
  let t := s.timing n
  let hz := t.khz * 1000
  let plain := hz * 3 * s.linkBpc n
  let packed := hz * f F.DPL_DSC_BPP_X16 / 16
  let capPlain := laneRate false rate * lanes * 1000000
  let capDsc := laneRate true rate * lanes * 1000000
  let mode := f F.DPL_CTRL_DSC_MODE
  let dsc := mode == 2 || (mode == 1 && decide (capPlain < plain))
  let slices := 2 ^ f F.DPL_DSC_SLICES
  let geometry := t.ha % slices == 0 && (f F.DPL_DSC_SLICE_H != 0 && t.va % f F.DPL_DSC_SLICE_H == 0)
    && decide (t.ha / slices ≤ f F.DPL_SINK_MAX_SLICE_W)
  let fits := if dsc then decide (packed ≤ capDsc) && f F.DPL_SINK_DSC == 1 && geometry else decide (plain ≤ capPlain)
  (dsc, fits && (!t.vrr || f F.DPL_SINK_VRR == 1), if dsc then packed else plain)

/-- A latch point with the link trained: video starts, its PPS before the first compressed frame (R244), or its mode is refused (R240). -/
def videoStart (s : State) (n : Nat) : State :=
  let d := s.dpl n
  match d.trained with
  | none => s
  | some (rate, lanes) =>
    if d.decided ∨ !(s.disp n).running then s
    else
      let (dsc, ok, need) := s.videoDecision n rate lanes
      if ok then
        let s1 := (s.setDpl n { d with decided := true, video := true, dsc := dsc }).event (.dpl n) 9
        if dsc then s1.emit (.sdp n (.pps ((List.range 32).map (s1.ppsWord n)))) else s1
      else (s.setDpl n { d with decided := true, video := false, dsc := false }).recErr (.dpl n) 0x0A03
        ((need + 99999999) / 100000000 % 65536 * 65536)

/-- A latch point at the transmitter: video starts where it can, and a frame that is sent has its MSA and VSC SDP (R235). -/
def videoLatch (s : State) (n : Nat) : State :=
  let s1 := s.videoStart n
  if (s1.dpl n).video ∧ !(s1.dpl n).replay then
    (s1.emit (.sdp n (.msa (s1.linkBpc n) (s1.timing n).vrr))).emit (.sdp n (.vsc (s1.linkBpc n) (s1.fld (.dpl n) F.DPL_CTRL_COLORIMETRY)))
  else s1

/-- Scan-out has stopped: a trained link stays trained and carries the idle pattern (R240). -/
def videoStop (s : State) (n : Nat) : State :=
  let d := s.dpl n
  s.setDpl n { d with decided := false, video := false, dsc := if d.replay then d.dsc else false }

/-! ## Panel Replay (R245) -/

/-- The replay that the sink and the settings allow: Panel Replay (`false`), otherwise PSR2 (`true`). -/
def replayMode (s : State) (n : Nat) : Option Bool :=
  let f := fun (x : Fld) => s.fld (.dpl n) x == 1
  if f F.DPL_CTRL_PR_EN && f F.DPL_SINK_PR then some false
  else if f F.DPL_CTRL_PSR2_EN && f F.DPL_CTRL_EDP && f F.DPL_SINK_PSR2 && !f F.DPL_SINK_PR then some true else none

/-- Enter replay: it is enabled in the sink, and the last frame is sent as the captured frame. -/
def enterReplay (s : State) (n : Nat) (last : List (List OutPix)) : State :=
  let d := s.dpl n
  match s.replayMode n with
  | none => s
  | some psr2 =>
    if d.replay ∨ !d.video then s
    else
      let s1 := (List.range last.length).foldl (fun t y => t.sendLine n y last) (s.emit (.replay n psr2))
      (s1.setDpl n { d with replay := true }).event (.dpl n) 7

def exitReplay (s : State) (n : Nat) : State :=
  let d := s.dpl n
  if d.replay then (s.setDpl n { d with replay := false, still := 0 }).event (.dpl n) 8 else s

/-- Whether the frame that ends was static; `total` is its total lines. -/
def staticFrame (s : State) (n total : Nat) : Bool :=
  let d := s.disp n
  !d.changed && d.shed.isEmpty && d.subst.isEmpty && d.drops == 0 && (s.dpl n).lastTotal == total

/-- The transmitter's part of FRAME_DONE, at the latch point of the next frame: `still` tells whether the frame that ended was static,
`last` is that frame. A frame that is known at its latch point not to be static ends the replay there, and one that loses spans in its
course ends it at the latch point that follows. -/
def replayStep (s : State) (n total : Nat) (still : Bool) (last : List (List OutPix)) : State :=
  let d := s.dpl n
  let count := if still then d.still + 1 else 0
  let s1 := s.setDpl n { d with still := count, lastTotal := total }
  let need := s.fld (.dpl n) F.DPL_CTRL_STATIC_FRAMES
  if !still ∨ (s.disp n).changed then s1.exitReplay n
  else if need ≠ 0 ∧ need ≤ count then s1.enterReplay n last else s1

/-! ## Pairs and device-fatal faults (R247, R248) -/

/-- The transmitters of a device that leaves the active role go idle, and hold it. -/
def dplLeave (s : State) : State :=
  (List.range 8).foldl (fun t n =>
    if (t.dpl n).powered then
      let u := t.lanesIdle n
      u.setDpl n { u.dpl n with idleHold := true }
    else t) s

/-- 50 ms of electrical idle have passed: the transmitter retrains. -/
def idleHoldEnd (s : State) (n : Nat) : State :=
  let d := s.dpl n
  if d.idleHold then
    let s1 := s.setDpl n { d with idleHold := false }
    if d.powered then s1.train n else s1
  else s

/-- Hardware electrical idle of every transmitter on a device-fatal fault, with AUX undriven. -/
def dplDead (s : State) : State :=
  (List.range 8).foldl (fun t n =>
    let u := (t.setDpl n { t.dpl n with aux := none, auxHeld := false }).lanesIdle n
    u.setDpl n { u.dpl n with dead := true }) s

def isDplCtrl (a : RegAcc) : Bool := a.off == 0x008 && (match a.page with | .dpl _ => true | _ => false)

end State

/-! ## The commands -/

def execDplEnable (w : RegWr) (s : State) : Host.Outcome State Fault Refusal :=
  .next (s.accessAt w (fun a => State.isDplCtrl a && bit 0 a.val)
    fun a t => t.ctrlWrite a (State.dplEnable a) (State.dplReset a))

def execDplDisable (w : RegWr) (s : State) : Host.Outcome State Fault Refusal :=
  .next (s.accessAt w (fun a => State.isDplCtrl a && (!bit 0 a.val || bit 1 a.val))
    fun a t => t.ctrlWrite a (State.dplEnable a) (State.dplReset a))

def execHpdPlug (out sink : Nat) (blockPred : Bool) (s : State) : Host.Outcome State Fault Refusal :=
  .next (s.hpdPlug out sink blockPred)

def execHpdIrq (out : Nat) (lost : Bool) (s : State) : Host.Outcome State Fault Refusal := .next (s.hpdIrq out lost)

def execHpdUnplug (out : Nat) (s : State) : Host.Outcome State Fault Refusal := .next (s.hpdUnplug out)

def execTrainingAttemptEnd (out : Nat) (ok : Bool) (s : State) : Host.Outcome State Fault Refusal := .next (s.attemptEnd out ok)

def execLinkLoss (out : Nat) (s : State) : Host.Outcome State Fault Refusal := .next (s.linkLoss out)

def execAuxGo (w : RegWr) (s : State) : Host.Outcome State Fault Refusal :=
  .next (s.accessAt w (fun a => match a.page with | .dpl _ => a.off == F.DPL_AUX_CTRL_GO.off | _ => false) State.auxGo)

def execAuxReply (out reply bytes : Nat) (data : List Nat) (s : State) : Host.Outcome State Fault Refusal :=
  .next (s.auxReply out reply bytes data)

def execAuxReplyTimeout (out : Nat) (s : State) : Host.Outcome State Fault Refusal := .next (s.auxTimeout out)

def execPpsDataRead (r : RegRd) (s : State) : Host.Outcome State Fault Refusal := .next (State.ppsRead r s)

def execDplIdleHoldEnd (out : Nat) (s : State) : Host.Outcome State Fault Refusal := .next (s.idleHoldEnd out)

end Sys2Proof.Machine
end

