-- ==== Sys2Proof/Machine/PairLink.lean ====
section
/-! DEFINITION. The Plolia link layer (R379 to R383, R386): flits sent and kept for replay, acceptance of a received flit, what an
acknowledgement ends, recoveries, and the loss of the link. The pair's state machine stands in Pair.lean. -/

namespace Sys2Proof.Machine

/-- Flits that go out before every other: HEARTBEAT, ROLE and TIME_SYNC (R382). -/
def urgentFlit : Flit → Bool
  | .heartbeat _ | .role _ | .timeSync _ => true
  | _ => false

namespace State

/-- Put a sequenced flit on the link: it takes the next number and is kept for replay (R379, R381). During a recovery it goes out
when flit transfer resumes. -/
def sendNow (s : State) (f : Flit) (item : Option MirrorItem) : State :=
  let k := s.pair.txSeq
  let s1 := { s with pair := { s.pair with
    txSeq := (k + 1) % 4096
    replay := s.pair.replay ++ [(⟨k, f, item, 0⟩ : SentFlit)] } }
  if s.pair.recovering then s1 else (s1.emit (.flit k f)).pmcCount 0x07 0x42 false false 1

/-- Send a flit that falls due: nothing before the link has trained; a flit beyond the 512 of the replay store waits, the urgent ones in front
(R381, R382). -/
def sendFlit (s : State) (f : Flit) (item : Option MirrorItem := none) : State :=
  if !s.pair.trained then s
  else if s.pair.replay.length < 512 ∧ s.pair.control = [] then s.sendNow f item
  else
    let (first, rest) := s.pair.control.partition urgentFlit
    { s with pair := { s.pair with control := if urgentFlit f then first ++ [f] ++ rest else first ++ rest ++ [f] } }

/-- Send what waited, while the replay store has room; `fuel` bounds the number of flits. -/
def sendWaiting : Nat → State → State
  | 0, s => s
  | k + 1, s =>
    match s.pair.control with
    | f :: r =>
      if s.pair.replay.length < 512 then
        ({ s with pair := { s.pair with control := r } }.sendNow f none).sendWaiting k
      else s
    | [] => s

/-- The device is ACTIVE with a link to a partner. -/
def activeLinked (s : State) : Bool := s.paired && s.pair.state == .active && s.pair.linkUp

/-- The device's link is up, so that it can send ROLE and other messages. -/
def linked (s : State) : Bool := s.paired && s.pair.linkUp

/-- A mirrored item has been acknowledged, or will not be: the fence of a buffer ends with its last word (R80), and a completion that
waited for its record is posted (R70). -/
def itemEnded (s : State) (x : Option MirrorItem) : State :=
  match x with
  | some (.pool buf _ _ words _ _) =>
    let out := Sparse.get (fun _ => 0) s.pair.mirrorFence buf
    let s1 := { s with pair := { s.pair with mirrorFence := Sparse.set (fun _ => 0) s.pair.mirrorFence buf (out - words) } }
    if out ≠ 0 ∧ out ≤ words then s1.unfence buf else s1
  | some (.record _ _ _ (some (jid, status, res))) => s.finish jid status res
  | _ => s

/-- Distance from one sequence number to another, modulo 4,096. -/
def seqDist (a b : Nat) : Nat := (b + 4096 - a) % 4096

/-- Take an acknowledgement: every flit up to ACK leaves the replay store, and what it carried has arrived (R381). -/
def takeAck (s : State) (ack : Nat) : State :=
  match s.pair.replay with
  | [] => s
  | f :: _ =>
    let n := seqDist f.seq ack + 1
    if n ≤ s.pair.replay.length then
      let gone := s.pair.replay.take n
      let s1 := { s with pair := { s.pair with replay := s.pair.replay.drop n, acked := ack } }
      sendWaiting 512 (gone.foldl (fun t g => t.itemEnded g.item) s1)
    else s

/-- A recovery retrains the link at its rate and width (R381). -/
def startRecovery (s : State) : State :=
  if s.pair.trained ∧ !s.pair.recovering then
    ({ s with pair := { s.pair with recovering := true } }).satFld .plk F.PLK_RECOVERIES_COUNT 1
  else s

/-- Send every flit of the replay store again. -/
def resend (s : State) : State := s.pair.replay.foldl (fun t f => t.emit (.flit f.seq f.flit)) s

/-- Replay from ACK + 1; eight replays of one flit start a recovery (R381). -/
def replayAll (s : State) : State :=
  if s.pair.replay = [] ∨ s.pair.recovering then s
  else
    let l := s.pair.replay.map fun (f : SentFlit) => { f with replays := f.replays + 1 }
    let s1 := ({ s with pair := { s.pair with replay := l } }).satFld .plk F.PLK_REPLAYS_COUNT 1
    if l.any fun f => 8 ≤ f.replays then s1.startRecovery else s1.resend

/-- A recovery ends: transfer resumes from the replay store. -/
def recoveryDone (s : State) : State :=
  if s.pair.recovering then
    ({ s with pair := { s.pair with recovering := false, replay := s.pair.replay.map fun (f : SentFlit) => { f with replays := 0 } } }).resend
  else s

/-- The link fields of a received flit: its acknowledgement, and its request for replay (R379, R381). -/
def takeHeader (s : State) (h : FlitHdr) : State :=
  let s1 := if h.ackValid then s.takeAck h.ack else s
  if h.nak then s1.replayAll else s1

/-- Ask for replay from the flit after the last accepted one, and discard until it arrives (R381). -/
def sendNak (s : State) : State :=
  if s.pair.discarding then s
  else ({ s with pair := { s.pair with discarding := true } }).emit (.ack ((s.pair.rxSeq + 4095) % 4096) true)

/-- A sequenced flit with a good CRC arrives: it is accepted and acknowledged when its number is the next expected; one that comes
again is acknowledged again, and one after a gap is discarded (R381). -/
def accept (s : State) (h : FlitHdr) (run : State → State) : State :=
  if !s.pair.trained ∨ s.pair.recovering then s
  else
    let s1 := s.takeHeader h
    if h.seq = s1.pair.rxSeq then
      let s2 := { s1 with pair := { s1.pair with rxSeq := (h.seq + 1) % 4096, discarding := false } }
      (run s2).emit (.ack h.seq false)
    else if seqDist h.seq s1.pair.rxSeq < 2048 then s1.emit (.ack ((s1.pair.rxSeq + 4095) % 4096) false)
    else s1.sendNak

/-- What a flit lost on the link was. -/
def badFlit (s : State) (crc : Bool) (reserved : Option FlitHdr) : State :=
  if !s.pair.trained ∨ s.pair.recovering then s
  else
    match reserved with
    | some h => (s.accept h fun t => t).startRecovery
    | none => (if crc then s.satFld .plk F.PLK_CRC_ERRS_COUNT 1 else s).sendNak

/-- A frame counts as skewed, once (R201, R388, R393). -/
def noteSkew (s : State) (n seq : Nat) : State :=
  if s.pair.skewed.contains (n, seq) then s
  else ({ s with pair := { s.pair with skewed := s.pair.skewed ++ [(n, seq)] } }).satFld .plk F.PLK_SKEW_FRAMES_COUNT 1

/-- The link is gone: nothing of the stream to the partner remains (R80, R375), and what followed the partner loses its lock (R221). -/
def dropLink (s : State) : State :=
  let items := s.pair.replay.map SentFlit.item ++ s.pair.ordered.map some
  let s1 := { s with pair := { s.pair with
    linkUp := false, trained := false, recovering := false, discarding := false, replay := [], control := [], ordered := []
    txSeq := 1, rxSeq := 1, acked := 0, sentOrdered := 0, applied := 0, resyncing := false, resyncPlots := [], syncWords := [], resyncItems := 0, offered := none
    ownDigests := [], partnerDigests := [], partnerRuns := [], skewed := [], sinceSync := [], syncT1 := none, vrrFlits := [], recPlots := []
    pFallow := false, applySent := [], latched := [], handover := 0, refusedCount := 0, refusedPlot := none
    pGuyOut := false, frameErr := [], partnerZero := [] } }
  let s2 := items.foldl itemEnded s1
  -- what the ended items free is not mirrored either; the completions that its records would have held back are posted
  let late := s2.pair.ordered
  let s3 := (late.map some).foldl itemEnded { s2 with pair := { s2.pair with mirrorFence := [], ordered := [] } }
  ((s3.setFld .plk F.PLK_LINK_SPEED 0).setFld .plk F.PLK_LINK_WIDTH 0).dropFollowers 8

end State

end Sys2Proof.Machine
end

