-- ==== Sys2Proof/Machine/Scanout.lean ====
section
/-! DEFINITION. Scan-out: start and stop, the scan counter and its events, furrow fetch into the furrow store, the
predictive monitor, line composition with underrun substitution and span drop, Adaptive-Sync and genlock (R211 to R233), and
the indirect tables of the pipe and slot pages (R185). FRAME_DONE stands in Frame.lean. -/

namespace Sys2Proof.Machine

open Compose

/-! ## Positions in pipe clocks, counted from the latch point -/

/-- Total lines of the running frame: nominal, plus Adaptive-Sync lines, plus the genlock correction (R221, R224). -/
def totalLines (t : Timing) (d : Disp) : Nat := ((t.vt + d.added : Nat) + d.adjust).toNat

/-- Clock 0 of active line y. -/
def activeClock (t : Timing) (d : Disp) (y : Nat) : Nat :=
  ((d.lead + (d.added + y) * t.clocks : Nat) + d.adjust * t.clocks).toNat

/-- Clock 0 of the line at which the counter stands; before the latch point while the counter stands on the line of FRAME_DONE. -/
def lineClock (t : Timing) (d : Disp) : Int :=
  if d.fresh then -(t.ha / 2 : Nat)
  else if d.line < t.va then activeClock t d d.line
  else ((d.lead - (t.vt - t.va) * t.clocks + (d.line - t.va) * t.clocks : Nat) : Int)

/-- End of the hand-off of line y. -/
def handoffEnd (t : Timing) (d : Disp) (y : Nat) : Nat := activeClock t d y + t.ha / 2

/-- Where composition of line y may start, when the last one ended at `fin` (R233). -/
def composeStart (t : Timing) (d : Disp) (y fin : Nat) : Nat :=
  if y = 0 then 16 * t.khz / 2000 else max fin (if 4 ≤ y then handoffEnd t d (y - 4) else 0)

/-! ## Tiles and furrows -/

/-- Key of a tile of a slot. -/
def tileKey (slot plane ty tx : Nat) : Nat := slot * 2 ^ 40 + plane * 2 ^ 32 + ty * 2 ^ 16 + tx

/-- A furrow of a slot as one number. -/
def furrowId (plane row : Nat) : Nat := plane * 4096 + row

/-- The tiles of a slot in the furrow store as a source of pixels. -/
def Disp.fetch (d : Disp) (slot : Nat) : Fetch := fun p ty tx =>
  if d.spoiled.contains (tileKey slot p ty tx) then none
  else
  match Sparse.find d.tiles (tileKey slot p ty tx) with
  | some (.data es) => some es
  | _ => none

/-- A furrow with the first line that reads it. -/
structure Furrow where
  plane : Nat
  row : Nat
  line : Nat
  deriving DecidableEq, Repr

/-- All furrows of a slot in an active area, in the order in which lines need them. -/
def slotFurrows (sl : Slot) (va : Nat) : List Furrow :=
  (List.range va).foldl (fun acc y => (furrowsOn sl y).foldl (fun acc f =>
    if acc.any fun g => g.plane == f.1 && g.row == f.2 then acc else acc ++ [⟨f.1, f.2, y⟩]) acc) []

/-- A furrow of slot k as one number. -/
def furrowKey (k : Nat) (f : Furrow) : Nat := k * 65536 + furrowId f.plane f.row

/-- The ring unit that a furrow belongs to (R225). -/
def furrowUnit (sl : Slot) (f : Furrow) : Nat := if sl.format = 5 ∧ f.plane = 0 then f.row / 2 else f.row

/-- The furrows of a slot that have not arrived, in row order. -/
def furrowsLeft (d : Disp) (va : Nat) (sl : Slot) : List Furrow := (slotFurrows sl va).filter fun f => !d.arrived.contains (furrowKey sl.k f)

/-- Whether the ring of a slot has room for a furrow: beside the units that lines still to be composed read (R225). -/
def ringHolds (d : Disp) (va : Nat) (sl : Slot) (f : Furrow) : Bool :=
  let used := ((slotFurrows sl va).filter fun g =>
    d.arrived.contains (furrowKey sl.k g) && ((List.range va).drop d.lines.length).any fun y => (furrowsOn sl y).contains (g.plane, g.row)).map (furrowUnit sl)
  let all := (furrowUnit sl f :: used).eraseDups
  decide (all.length ≤ State.ringUnits sl)

/-- A slot is shed in a span for a furrow; one whose shed set has not been started has that of the slot's furrow before it (R231). -/
def isShed (d : Disp) (k fid i : Nat) : Bool :=
  d.shed.contains ⟨k, if d.shedSeen.contains (k * 65536 + fid) then fid else State.lastSeen d k, i⟩

namespace State

/-- Whether scan-out fetches the slot's surface in the latched frame. -/
def fetches (d : Disp) (v : State) (n : Nat) (sl : Slot) : Bool :=
  v.flag (.pipe n) F.PG_CTRL_ENABLE && sl.en && sl.sized && sl.reads && !d.released.contains sl.k && !d.failing.contains sl.k
    && !d.handed.contains sl.k

/-- The slots of the latched view; none while the pipe page is latched disabled (R180). -/
def frameSlots (v : State) (n : Nat) : List Slot :=
  if v.flag (.pipe n) F.PG_CTRL_ENABLE then v.slots n else []

/-- The tile columns of a furrow that serve a span in which the slot contributes and is not shed (R226). -/
def neededCols (d : Disp) (slots : List Slot) (kos : List Keepout) (t : Timing) (sl : Slot) (f : Furrow) : List Nat :=
  let pl := ((slotPlanes sl).find? fun p => p.1 == f.plane).map Prod.snd
  let lines := (List.range t.va).filter fun y => (furrowsOn sl y).contains (f.plane, f.row)
  let spans := (List.range (spanCount t.ha)).filter fun i =>
    !isShed d sl.k (furrowId f.plane f.row) i
      && lines.any fun y => (contributors kos slots (spanCols t.ha i) y).1.any fun c => c.k == sl.k
  match pl with
  | none => []
  | some pl =>
    (spans.flatMap fun i =>
      let cols := slotCols sl (spanCols t.ha i) (lines.headD 0)
      cols.flatMap fun (x : Nat) => (colsOf sl ((x : Int) - sl.dx).toNat).map (planeCol sl f.plane pl)).eraseDups

/-- Bytes of the layout of a plane: data base, metadata base, tile columns. -/
def planeBase (sl : Slot) (p : Nat) (pl : Seedbed.Plane) : Nat × Nat × Nat :=
  let b := (Seedbed.layout sl.format sl.w sl.h sl.seedbed).1.getD p (0, 0)
  (b.1, b.2, pl.cols (Seedbed.planeW sl.format p sl.w))

/-- Bytes still to arrive of a furrow (R230). -/
def remaining (s : State) (sl : Slot) (f : Furrow) (cols : List Nat) (m : Monitor) : Nat :=
  let st := (m.partly.find? fun p => p.slot == sl.k && p.plane == f.plane && p.row == f.row).getD ⟨sl.k, f.plane, f.row, false, 0⟩
  let bytes := fun (tx : Nat) =>
    match (slotPlanes sl).find? fun p => p.1 == f.plane with
    | some (p, pl) =>
      let b := planeBase sl p pl
      if sl.seedbed ∧ st.metaIn then
        let a := s.slotAddr sl.buf (b.2.1 + 8 * (f.row * b.2.2 + tx))
        16 * Seedbed.fetchCount pl (bits (8 * (a % 16) + 63) (8 * (a % 16)) (s.peekWord (a / 16 * 16)))
      else 256
    | none => 0
  (cols.map bytes).sum - st.got

/-! ## The predictive monitor (R230, R231) -/

/-- Where composition of line y is scheduled to start, from the state of the frame. -/
def scheduledStart (d : Disp) (slots : List Slot) (kos : List Keepout) (t : Timing) (y : Nat) : Nat :=
  let c0 := d.lines.length
  let clocks := fun (z : Nat) =>
    ((List.range (spanCount t.ha)).map fun i => spanClocks (spanCols t.ha i) (contributors kos slots (spanCols t.ha i) z).1.length).sum
  let fin := (List.range (y - c0)).foldl (fun fin i => composeStart t d (c0 + i) fin + clocks (c0 + i)) d.composeEnd
  composeStart t d y fin

/-- Projection of one furrow in pipe clocks scaled by the rate: the room before the deadline and what completion needs. -/
def projection (s : State) (d : Disp) (slots : List Slot) (kos : List Keepout) (t : Timing) (now : Int) (m : Monitor)
    (sl : Slot) (f : Furrow) : Int × Int × Int :=
  let rate := if sl.crit = 3 then m.rateCrit else m.rateGen
  let cols := neededCols d slots kos t sl f
  let margin := (s.fld (.scn sl.n) F.SCN_SHED_CTRL_MARGIN_US : Nat)
  let room : Int := ((scheduledStart d slots kos t f.line : Nat) - now) * 2000 * rate
  (room, (s.remaining sl f cols m + margin * rate : Nat) * t.khz, (2 * margin * rate : Nat) * t.khz)

/-- The slots that scan-out fetches in the latched frame. -/
def fetchedSlots (s : State) (n : Nat) (d : Disp) : List Slot :=
  let v := s.frameView n
  (frameSlots v n).filter (fetches d v n)

/-- The furrows still to arrive of the fetched slots: those of which some tile is to be fetched. -/
def toArrive (s : State) (n : Nat) (d : Disp) (t : Timing) : List (Slot × Furrow) :=
  let v := s.frameView n
  let slots := frameSlots v n
  let kos := keepouts v n
  (s.fetchedSlots n d).flatMap fun sl =>
    ((furrowsLeft d t.va sl).filter fun f => !(neededCols d slots kos t sl f).isEmpty).map fun f => (sl, f)

/-- The current furrow of each fetched slot: the first that has not arrived, when the ring has room for it. -/
def currentFurrows (s : State) (n : Nat) (d : Disp) (t : Timing) : List (Slot × Furrow) :=
  (s.fetchedSlots n d).filterMap fun sl => ((furrowsLeft d t.va sl).head?.filter (ringHolds d t.va sl)).map fun f => (sl, f)

/-- Whether the span of a furrow's slot may be shed: every contributor below its class is shed there for its current furrow, or for what the
line reads when it has none left (R21, R231). -/
def eligible (d : Disp) (slots : List Slot) (kos : List Keepout) (t : Timing) (cur : List (Slot × Furrow)) (sl : Slot)
    (f : Furrow) (i : Nat) : Bool :=
  let lines := (List.range t.va).filter fun y => (furrowsOn sl y).contains (f.plane, f.row)
  let here := fun (y : Nat) => (contributors kos slots (spanCols t.ha i) y).1
  sl.crit != 3 && !isShed d sl.k (furrowId f.plane f.row) i && lines.any (fun y => (here y).any fun c => c.k == sl.k)
    && lines.all fun y => (here y).all fun c =>
      decide (sl.crit ≤ c.crit) || (match cur.find? fun p => p.1.k == c.k with
        | some p => isShed d c.k (furrowId p.2.plane p.2.row) i
        | none => (furrowsOn c y).any fun g => isShed d c.k (furrowId g.1 g.2) i)

/-- The next unit to shed: lowest class, then lowest slot, then highest span. -/
def nextUnit (d : Disp) (slots : List Slot) (kos : List Keepout) (t : Timing) (cur : List (Slot × Furrow)) : Option (Slot × Furrow × Nat) :=
  let units := fun (c : Nat) => (cur.filter fun p => p.1.crit == c).flatMap fun p =>
    ((List.range (spanCount t.ha)).reverse.filter (eligible d slots kos t cur p.1 p.2)).map fun i => (p.1, p.2, i)
  ((units 0) ++ (units 1) ++ (units 2)).head?

/-- The shed set of a furrow starts: with the spans of the slot's furrow before it, or, when they are to be removed, with none. -/
def startSet (d : Disp) (k fid : Nat) (remove : Bool) : Disp :=
  if d.shedSeen.contains (k * 65536 + fid) then d
  else
    let spans := if remove then [] else (d.shed.filter fun x => x.slot == k && x.furrow == State.lastSeen d k).map ShedUnit.span
    { d with
      shedSeen := d.shedSeen ++ [k * 65536 + fid]
      shed := d.shed ++ spans.map fun i => (⟨k, fid, i⟩ : ShedUnit) }

/-- Shed one unit: it is noted for the frame, and the first of a frame sets SHED (R219, R231). -/
def shedUnit (s : State) (n : Nat) (sl : Slot) (f : Furrow) (i : Nat) : State :=
  let d0 := s.disp n
  let d := startSet d0 sl.k (furrowId f.plane f.row) false
  let d1 := { d with
    shed := d.shed ++ [(⟨sl.k, furrowId f.plane f.row, i⟩ : ShedUnit)]
    shedMax := some (max (d.shedMax.getD 0) sl.crit) }
  let s1 := (s.setDisp n d1).pmcCount 0x06 sl.fn sl.world true 1
  if d0.shedMax.isNone then s1.event (.scn n) 6 else s1

/-- Shed while a furrow is projected late, one unit at a time (R231); `fuel` bounds the number of units. -/
def shedLoop (n : Nat) (now : Int) (m : Monitor) : Nat → State → State
  | 0, s => s
  | fuel + 1, s =>
    let d := s.disp n
    let t := s.timing n
    let v := s.frameView n
    let slots := frameSlots v n
    let kos := keepouts v n
    let late := (s.toArrive n d t).any fun p => let (room, need, _) := s.projection d slots kos t now m p.1 p.2; decide (room < need)
    if late then
      match nextUnit d slots kos t (s.currentFurrows n d t) with
      | some (sl, f, i) => shedLoop n now m fuel (s.shedUnit n sl f i)
      | none => s
    else s

/-- The highest class of which the latest furrow of some slot is shed. -/
def topShed (d : Disp) (slots : List Slot) : Nat :=
  ((slots.filter fun sl => d.shed.any fun u => u.slot == sl.k && u.furrow == State.lastSeen d sl.k).map Slot.crit).foldl max 0

/-- A slot's last projection has the slack of R231. -/
def noteSlack (d : Disp) (k : Nat) (on : Bool) : Disp := { d with slack := (d.slack.filter (· != k)) ++ (if on then [k] else []) }

/-- The fetch of a slot goes on to its next furrow: its shed set starts, the highest shed class being removed first when the slot's furrow
before it had slack of twice the margin; a furrow of which nothing is to be fetched has arrived (R226, R231). -/
def advanceSlot (n : Nat) (now : Int) (m : Monitor) (top : Nat) (sl : Slot) : Nat → State → State
  | 0, s => s
  | fuel + 1, s =>
    let d := s.disp n
    let t := s.timing n
    let v := s.frameView n
    match (furrowsLeft d t.va sl).head?.filter (ringHolds d t.va sl) with
    | none => s
    | some f =>
      let d1 := startSet d sl.k (furrowId f.plane f.row) (d.slack.contains sl.k && sl.crit == top)
      if (neededCols d1 (frameSlots v n) (keepouts v n) t sl f).isEmpty then
        let (room, need, twice) := s.projection d1 (frameSlots v n) (keepouts v n) t now m sl f
        let d2 := noteSlack d1 sl.k (decide (need + twice ≤ room))
        advanceSlot n now m top sl fuel (s.setDisp n { d2 with arrived := d2.arrived ++ [furrowKey sl.k f] })
      else s.setDisp n d1

/-- Every fetched slot stands at the furrow that it is to fetch. -/
def advance (s : State) (n : Nat) (now : Int) (m : Monitor) : State :=
  let d := s.disp n
  let top := topShed d (frameSlots (s.frameView n) n)
  (s.fetchedSlots n d).foldl (fun u sl => advanceSlot n now m top sl (slotFurrows sl (s.timing n).va).length u) s

/-- One evaluation of the monitor (R230, R231). -/
def monitor (s : State) (n : Nat) (now : Int) (m : Monitor) : State :=
  let s0 := s.advance n now m
  let t := s0.timing n
  let s1 := shedLoop n now m (16 * spanCount t.ha) s0
  let d := s1.disp n
  let v := s1.frameView n
  let cur := s1.currentFurrows n d t
  s1.setDisp n (cur.foldl (fun x p =>
    let (room, need, twice) := s1.projection d (frameSlots v n) (keepouts v n) t now m p.1 p.2
    noteSlack x p.1.k (decide (need + twice ≤ room))) d)

/-! ## Furrow fetch (R226) -/

/-- Read one tile of a furrow for a slot, with its metadata word when the layout is Seedbed. -/
def readTile (s : State) (sl : Slot) (p : Nat) (pl : Seedbed.Plane) (ty tx : Nat) (entry : Option Nat) : Tile × State :=
  let b := planeBase sl p pl
  let idx := ty * b.2.2 + tx
  let who := slotAttr sl
  if sl.seedbed then
    match entry with
    | none => (.unreadable, s)
    | some e =>
      match s.readBuf who sl.buf (b.1 + 256 * idx) (Seedbed.fetchCount pl e) with
      | (.error _, s1) => (.unreadable, s1)
      | (.ok ws, s1) =>
        match Seedbed.decode pl e ws with
        | some es => (.data es, s1)
        | none => (.malformed, s1.event (.slot sl.n sl.k) 1)
  else
    match s.readBuf who sl.buf (b.1 + 256 * idx) 16 with
    | (.ok ws, s1) => (.data (Seedbed.elemsOf pl ws), s1)
    | (.error _, s1) => (.unreadable, s1)

/-- The metadata words of the needed tiles of a furrow, each read once: address and word. -/
def readMeta (s : State) (who : Attr) : List Nat → List (Nat × Option Nat) × State
  | [] => ([], s)
  | a :: r =>
    let (w, st, s1) := s.readWordAs who a
    let (l, s2) := s1.readMeta who r
    ((a, if st = 0 then some w else none) :: l, s2)

/-- The needed tiles of a furrow, fetched: metadata first, then the data words that it names. -/
def fetchFurrow (s : State) (n : Nat) (sl : Slot) (f : Furrow) (pl : Seedbed.Plane) : State :=
  let d := s.disp n
  let v := s.frameView n
  let cols := neededCols d (frameSlots v n) (keepouts v n) (s.timing n) sl f
  let b := planeBase sl f.plane pl
  let entryAddr := fun (tx : Nat) => s.slotAddr sl.buf (b.2.1 + 8 * (f.row * b.2.2 + tx))
  let (metas, s1) := if sl.seedbed then s.readMeta (slotAttr sl) ((cols.map fun tx => entryAddr tx / 16 * 16).eraseDups) else ([], s)
  let (tiles, s2) := cols.foldl (fun (acc : Store Tile × State) tx =>
    let a := entryAddr tx
    let w := ((metas.find? fun q => q.1 == a / 16 * 16).bind Prod.snd).map fun w => bits (8 * (a % 16) + 63) (8 * (a % 16)) w
    let (x, u) := acc.2.readTile sl f.plane pl f.row tx w
    (Sparse.put acc.1 (tileKey sl.k f.plane f.row tx) x, u)) (d.tiles, s1)
  let d2 := s2.disp n
  s2.setDisp n { d2 with tiles := tiles, arrived := d2.arrived ++ [furrowKey sl.k f] }

/-- A furrow is the one that its port fetches next: the current furrow with the earliest deadline, on a tie of the higher class (R226). -/
def fetchedNext (cur : List (Slot × Furrow)) (sl : Slot) (f : Furrow) : Bool :=
  cur.any (fun p => p.1.k == sl.k && p.2 == f)
    && !(cur.any fun p => (p.1.crit == 3) == (sl.crit == 3) && (decide (p.2.line < f.line) || (p.2.line == f.line && decide (sl.crit < p.1.crit))))

/-- A furrow fetch completes: the needed tiles enter the furrow store. One that its port does not fetch next is no event. -/
def furrowArrival (s : State) (n k p row clock : Nat) (m : Monitor) : State :=
  let d := s.disp n
  let t := s.timing n
  let now := lineClock t d + clock
  match (s.fetchedSlots n d).find? fun sl => sl.k == k with
  | none => s
  | some sl =>
    match (slotFurrows sl t.va).find? fun f => f.plane == p && f.row == row, (slotPlanes sl).find? fun q => q.1 == p with
    | some f, some (_, pl) =>
      let s0 := s.advance n now m
      if !d.running ∨ !fetchedNext (s0.currentFurrows n (s0.disp n) t) sl f then s
      else (s0.fetchFurrow n sl f pl).monitor n now m
    | _, _ => s

/-! ## Line composition (R171, R232, R233) -/

/-- How a contributor is shown in a span on a line. -/
inductive Show where
  | surface (px : List (Option Pix))
  | solid
  | sheet (underrun shed : Bool)
  deriving DecidableEq, Repr

/-- Decide how a slot is shown in the columns of a span. -/
def showSlot (d : Disp) (v : State) (n y : Nat) (served : List Nat) (sl : Slot) (i : Nat) (cols : List Nat) : Show :=
  if d.failing.contains sl.k then .sheet true false
  else if d.released.contains sl.k ∨ d.handed.contains sl.k then .sheet false false
  else if sl.solid then .solid
  else if sl.buf = 0 then .sheet false false
  else if (furrowsOn sl y).any fun f => isShed d sl.k (furrowId f.1 f.2) i then .sheet false true
  else
    let px := cols.map fun (x : Nat) =>
      contentPix v sl (served.idxOf sl.k) (d.fetch sl.k) ((x : Int) - sl.dx).toNat ((y : Int) - sl.dy).toNat
    if n = sl.n ∧ px.all Option.isSome then .surface px else .sheet true false

/-- What one contributor gives a span: its premultiplied pixels by column, how it was shown, and whether the groundsheet image
fell back (R178, R179). -/
structure Layer where
  sl : Slot
  px : List (Nat × Pix)
  shown : Show
  fellBack : Bool
  deriving DecidableEq, Repr

/-- Stages 1 to 7 of a contributor in a span. -/
def layerOf (d : Disp) (v : State) (n y : Nat) (served : List Nat) (badImage : Bool) (c : Nat × Nat) (i : Nat) (sl : Slot) : Layer :=
  let cols := slotCols sl c y
  let shown := showSlot d v n y served sl i cols
  let image := ((Sparse.find d.sheets sl.k).filter (sheetFits sl)).map Sheet.elems
  match shown with
  | .surface px =>
    ⟨sl, cols.zip (px.map fun p => premult sl.mode sl.pa (chain v sl false (p.getD ⟨0, 0, 0, 0⟩))), shown, false⟩
  | .solid => ⟨sl, cols.map fun x => (x, premult sl.mode sl.pa (chain v sl true (argb sl.color))), shown, false⟩
  | .sheet _ _ =>
    let ps := cols.map fun (x : Nat) => (x, sheetPix v sl image badImage ((x : Int) - sl.dx).toNat ((y : Int) - sl.dy).toNat)
    ⟨sl, ps.map fun p => (p.1, premult sl.mode sl.pa (chain v sl true p.2.1)), shown, ps.any fun p => p.2.2⟩

/-- One pixel through the cascade and the output stages (R171, R172, R174). -/
def cascade (v : State) (n : Nat) (kos : List Keepout) (layers : List Layer) (x y : Nat) : OutPix :=
  let level := koLevel kos x y
  let (dst, tag) := layers.foldl (fun (acc : Pix × Nat) l =>
    match l.px.find? fun p => p.1 == x with
    | some p => if level ≤ l.sl.crit then (blend l.sl.mode p.2 acc.1, l.sl.crit) else acc
    | none => acc) (background v n, 0)
  outStages v n dst tag

/-- The order in which a line's spans are composed (R233): descending class, then ascending column. -/
def spanOrder (classes : List Nat) : List Nat :=
  [3, 2, 1, 0].flatMap fun c => (List.range classes.length).filter fun i => classes.getD i 0 == c

/-- The spans that are complete in time, from the order, the clocks of each and the room (R233). -/
def spansInTime (clocks : List Nat) (room : Nat) : List Nat → Nat → List Nat
  | [], _ => []
  | i :: r, used => if used + clocks.getD i 0 ≤ room then i :: spansInTime clocks room r (used + clocks.getD i 0) else []

/-- A line with a clock deficit is first shed for (R177, R233): every eligible unit of its furrows. -/
def shedForLine (n y : Nat) : Nat → State → State
  | 0, s => s
  | fuel + 1, s =>
    let d := s.disp n
    let t := s.timing n
    let v := s.frameView n
    let slots := frameSlots v n
    let cur := (slots.filter (fetches d v n)).flatMap fun sl =>
      (furrowsOn sl y).filterMap fun f => ((slotFurrows sl t.va).find? fun g => g.plane == f.1 && g.row == f.2).map fun g => (sl, g)
    match nextUnit d slots (keepouts v n) t cur with
    | some (sl, f, i) => shedForLine n y fuel (s.shedUnit n sl f i)
    | none => s

/-- What the composition of one line leaves: the display with the line, slots that start to show their groundsheet and slots that fall
back in it, and whether it makes the frame's first unplanned groundsheet, dropped span and second pass known. -/
structure LineWork where
  disp : Disp
  subst : List Nat
  fell : List Nat
  missed : Bool
  dropped : Bool
  twice : Bool

/-- The work of one line (R159 to R186, R227, R233): `s` is the state before the shedding for this line, `d0` the display after it, `deficit`
tells that composition cannot end in time. -/
def lineWork (s : State) (n : Nat) (d0 : Disp) (start : Nat) (deficit : Bool) : LineWork :=
  let d := s.disp n
  let t := s.timing n
  let y := d.lines.length
  let v := s.frameView n
  let slots := frameSlots v n
  let kos := keepouts v n
  let served := scalerSlots slots
  let spans := List.range (spanCount t.ha)
  let cols := fun (i : Nat) => spanCols t.ha i
  let con := spans.map fun i => contributors kos slots (cols i) y
  let clocks := spans.map fun i => spanClocks (cols i) (con.getD i ([], [])).1.length
  let due := activeClock t d y
  let inTime := spansInTime clocks (due - (start + 248)) (spanOrder (con.map fun c => spanClass c.1)) 0
  let badImage := fun (sl : Slot) => sl.badImage (s.handlePlots sl.gsBuf)
  let layers := spans.map fun i =>
    if inTime.contains i then (con.getD i ([], [])).1.map fun sl => layerOf d0 v n y served (badImage sl) (cols i) i sl else []
  let line := spans.flatMap fun i =>
    ((List.range ((cols i).2 - (cols i).1)).map (· + (cols i).1)).map fun x =>
      if inTime.contains i then cascade v n kos (layers.getD i []) x y else outStages v n (background v n) 0
  let all := layers.flatten
  let sheets := all.filter fun l => match l.shown with | .sheet _ _ => true | _ => false
  let under := all.filter fun l => match l.shown with | .sheet true _ => true | _ => false
  let missing := under.filter fun l => !d0.failing.contains l.sl.k
  let shedN := (all.filter fun l => match l.shown with | .sheet _ true => true | _ => false).length
  let two := (inTime.filter fun i => decide (8 < (con.getD i ([], [])).1.length)).length
  let drops := spans.length - inTime.length
  let fell := ((all.filter Layer.fellBack).map fun l => l.sl.k).eraseDups
  let used := (inTime.map fun i => clocks.getD i 0).sum
  let credit := if deficit then 0 else due - (start + clocks.sum + 248)
  let first := (under.length != (under.filter fun l => d0.failing.contains l.sl.k).length) && (d0.underruns == 0 || missing.isEmpty == false)
  { disp := { d0 with
      lines := d0.lines ++ [line]
      composeEnd := start + used
      twoPass := d0.twoPass + two
      eliminated := d0.eliminated + (con.map fun c => c.2.length).sum
      subst := sheets.foldl (fun st l => Sparse.put st l.sl.k (Sparse.get (fun _ => 0) st l.sl.k + 1)) d0.subst
      live := (d0.live ++ (con.flatMap fun c => c.1.map Slot.k)).eraseDups
      shedSpans := d0.shedSpans + shedN
      underruns := d0.underruns + under.length
      drops := d0.drops + drops
      creditMin := some (match d0.creditMin with | some c => min c credit | none => credit)
      gsFallback := (d0.gsFallback ++ fell).eraseDups
      missed := d0.missed || first }
    subst := (sheets.map fun l => l.sl.k).eraseDups.filter fun k => (Sparse.find d0.subst k).isNone
    fell := fell.filter fun k => !d0.gsFallback.contains k
    missed := first && !d0.missed
    dropped := drops != 0 && d0.drops == 0
    twice := two != 0 && d0.twoPass == 0 }

/-- Pipe clocks that the spans of the next line take, and whether its composition begins too late to end in time (R233). -/
def lineLate (s : State) (n : Nat) (start : Nat) : Bool :=
  let d := s.disp n
  let t := s.timing n
  let y := d.lines.length
  let v := s.frameView n
  let slots := frameSlots v n
  let kos := keepouts v n
  let clocks := (List.range (spanCount t.ha)).map fun i =>
    spanClocks (spanCols t.ha i) (contributors kos slots (spanCols t.ha i) y).1.length
  decide (activeClock t d y < start + clocks.sum + 248)

/-- A line whose work is known: the display takes it, and the events of its frame follow. -/
def putLine (s : State) (n : Nat) (w : LineWork) : State :=
  let s1 := s.setDisp n w.disp
  let s2 := w.subst.foldl (fun u k => u.event (.slot n k) 0) s1
  let s3 := w.fell.foldl (fun u k => u.event (.slot n k) 2) s2
  let s4 := if w.missed then s3.event (.scn n) 7 else s3
  let s5 := if w.dropped then s4.event (.scn n) 8 else s4
  if w.twice then s5.event (.pipe n) 1 else s5

/-- The pipe composes the next line of an output. -/
def composeLine (s : State) (n : Nat) : State :=
  let d := s.disp n
  let t := s.timing n
  let y := d.lines.length
  let ready := y < 4 ∨ (d.line < t.va ∧ !d.fresh ∧ y ≤ d.line + 4)
  if !d.running ∨ t.va ≤ y ∨ ¬ ready then s
  else
    let start := composeStart t d y d.composeEnd
    let late := s.lineLate n start
    let s0 := if late then shedForLine n y (16 * spanCount t.ha) s else s
    let s1 := s0.putLine n (s.lineWork n (s0.disp n) start late)
    if (s.disp n).spoiled = [] then s1 else s1.setDisp n { s1.disp n with spoiled := [] }

/-- The gain of the fine correction, in ppm for 65,536 pixel clocks, with its sign: the rule states proportion and no factor. -/
def phaseGain : Int := (Config.openResult 0x0221 [] % 2 ^ 33 : Nat) - 2 ^ 32

/-- What the genlock word in force names (R220): enabled, source, and OFFSET in lines. -/
def genlockOf (d : Disp) : Bool × Nat × Int := (bit 4 d.genlock, bits 3 0 d.genlock, signed 13 (bits 28 16 d.genlock))

/-- The reference of a follower runs: another output of the device, or the partner's, whose frames are marked over the link. -/
def refRuns (s : State) (n src : Nat) : Bool :=
  if src = 8 then s.pair.linkUp && (Sparse.find s.pair.partnerZero n).isSome else (s.disp src).running

/-- Refresh rates within 0.5 % of each other (R221). -/
def ratesClose (t r : Timing) : Bool :=
  let rate := t.khz * (r.ht * r.vt)
  let ref := r.khz * (t.ht * t.vt)
  decide (200 * rate ≤ 201 * ref) && decide (199 * ref ≤ 200 * rate)

/-- Genlock correction at the start of a follower's frame (R221): `e` is the measured phase error in pixel clocks; none when the partner has
marked no frame. -/
def genlock (s : State) (n : Nat) (e : Option Int) : State :=
  let d := s.disp n
  let (en, src, _) := genlockOf d
  match (if en && s.refRuns n src then e else none) with
  | none => s.setDisp n { d with goodPhase := 0 }
  | some e =>
    let t := s.timing n
    let s0 := s.setFld (.scn n) F.SCN_GENLOCK_STAT_ERROR (toBits 16 (clamp (-32768) 32767 e))
    let locked := s.flag (.scn n) F.SCN_GENLOCK_STAT_LOCKED
    let good := if e.natAbs ≤ 4 ∧ (src = 8 ∨ ratesClose t (s.timing src)) then d.goodPhase + 1 else 0
    let lines := min (e.natAbs / t.ht) (t.headland / 4)
    -- a late follower shortens its headland, never below 8 lines and 40 µs
    let floor := max 8 ((40 * t.khz + t.ht * 1000 - 1) / (t.ht * 1000))
    let adj : Int := if e.natAbs < t.ht then 0 else if 0 < e then -((min lines (t.headland - floor) : Nat) : Int) else lines
    let trim : Int := if e.natAbs < t.ht then clamp (-500) 500 ((e * phaseGain).tdiv 65536) else d.trim
    let s1 := s0.setDisp n { d with goodPhase := min good 8, correct := adj, trim := trim }
    if !locked ∧ 8 ≤ good then (s1.setFld (.scn n) F.SCN_GENLOCK_STAT_LOCKED 1).event (.scn n) 9
    else if locked ∧ 16 < e.natAbs then (s1.setFld (.scn n) F.SCN_GENLOCK_STAT_LOCKED 0).event (.scn n) 10
    else s1

/-- The phase error that R393 gives, taken once for each frame that the partner marks. -/
def takeFrameErr (s : State) (n : Nat) : Option Int × State :=
  (Sparse.find s.pair.frameErr n, { s with pair := { s.pair with frameErr := Sparse.del s.pair.frameErr n } })

/-- Line 0 of a frame: SCN_GENLOCK comes into force, and a follower measures its phase and corrects it (R220, R221, R393). -/
def frameStart (s : State) (n : Nat) (phase : Int) : State :=
  let d := s.disp n
  let word := s.rw ((Page.scn n).key F.SCN_GENLOCK_SRC.off)
  let s1 := s.setDisp n { d with genlock := word, goodPhase := if word = d.genlock then d.goodPhase else 0 }
  let (e, s2) := if bits 3 0 word = 8 then s1.takeFrameErr n else (some phase, s1)
  let s3 := (s2.genlock n e).setFld (.scn n) F.SCN_BS_VRR_WAIT 0
  { s3 with pair := { s3.pair with lineZero := Sparse.put s3.pair.lineZero n s3.time.dtime } }

/-- Clock 0 of a line: the counter advances, the monitor evaluates, and at line 0 a follower measures its phase and the token
holder marks the frame to its partner (R230, R221, R393). -/
def scanLineStart (s : State) (n : Nat) (phase : Int) (m : Monitor) : State :=
  let d := s.disp n
  let t := s.timing n
  if !d.running then s
  else
    let next := if d.line + 1 < totalLines t d then d.line + 1 else 0
    let d1 := { d with line := next, fresh := false }
    let s1 := ((s.setDisp n d1).setFld (.scn n) F.SCN_POS_LINE next).setFld (.scn n) F.SCN_BS_IN_HEADLAND (b2n (decide (t.va ≤ next)))
    let s2 := if next = 0 then s1.frameStart n phase else s1
    let s3 := if next = 0 ∧ s.activeLinked then
        s2.sendFlit (.timeSync (.frame n (s.fld (.scn n) F.SCN_SEQ_SEQ) s.time.dtime)) else s2
    -- the line being scanned is handed to the link while video runs and the panel does not replay
    let s4 := if next < t.va then s3.scanLine n next else s3
    s4.monitor n (lineClock t (s4.disp n)) m

/-- An event of the counter at a line (R219). -/
def counterEvent (s : State) (n bitNo : Nat) (here : Timing → Disp → Bool) : State :=
  let d := s.disp n
  if d.running && !d.fresh && here (s.timing n) d then s.event (.scn n) bitNo else s

/-- LINE_MATCHi (R219). -/
def lineMatch (s : State) (n i : Nat) : State :=
  let (en, line) := if i = 0 then (F.SCN_LM0_EN, F.SCN_LM0_LINE) else (F.SCN_LM1_EN, F.SCN_LM1_LINE)
  if s.flag (.scn n) en ∧ i < 2 then s.counterEvent n (4 + i) fun _ d => d.line == s.fld (.scn n) line else s

/-- A decision of Adaptive-Sync (R224): a follower of a partner output repeats its reference's decision; otherwise the output
proceeds when a commit of the group applied at the latch point of the next frame or is ready, or the frame has reached VTOTAL_MAX. -/
def vrrDecision (s : State) (n : Nat) : State :=
  let d := s.disp n
  let t := s.timing n
  let last := t.va + t.vfp - 1 + d.added
  if !d.running ∨ !t.vrr ∨ d.proceeded ∨ d.line ≠ last then s
  else
    let seq := s.fld (.scn n) F.SCN_SEQ_SEQ
    let told := if (genlockOf d).1 ∧ (genlockOf d).2.1 = 8 then
        s.pair.vrrFlits.find? fun f => f.1 == n && f.2.1 == seq && f.2.2.1 == d.line else none
    let g := s.groupOf n
    let own := d.applied || (s.display.commits.any fun c => c.group == g && c.stage == .waiting) || decide (t.vmax ≤ totalLines t d)
    let go : Bool := match told with | some f => f.2.2.2 | none => own
    let d1 := if go then { d with proceeded := true } else { d with added := d.added + 1 }
    let s00 := (s.setDisp n d1).setFld (.scn n) F.SCN_BS_VRR_WAIT (b2n (!go))
    let s0 := if go then s00.adaptiveSdp n (totalLines t d1) else s00
    let s1 := if s.standby ∧ s.pair.linkUp ∧ told.isNone then s0.noteSkew n seq else s0
    if s.activeLinked then s1.sendFlit (.timeSync (.vrr n seq d.line go)) else s1

/-- SCN_GENLOCK (R220). -/
def genlockWrite (a : RegAcc) (s : State) : State :=
  match a.page with
  | .scn n =>
    let src := bits 3 0 a.val
    let en := bit 4 a.val
    let f := fun (m : Nat) (x : Fld) => s.fld (.scn m) x
    -- what the write would create: a follower, or another source
    let makes := en || src != f n F.SCN_GENLOCK_SRC
    let bad := 8 < src ∨ (makes ∧ (src = n ∨ (src = 8 ∧ !s.paired) ∨ (src < 8 ∧ (f src F.SCN_GENLOCK_EN = 1 ∨ f src F.SCN_MODE_VRR_EN = 1))))
      ∨ (en ∧ (List.range 8).any fun m => m != n && f m F.SCN_GENLOCK_EN == 1 && f m F.SCN_GENLOCK_SRC == n)
    if !s.writesAny a then s
    else if bad then (if (s.writtenFields a).any (s.refusedSec a) then s.denyReg a else s.recAcc a 0x0006)
    else mirrorWrite s (s.plainWrite a) a 0 0
  | _ => s

/-! ## Start and stop (R216, R217) -/

/-- Output n runs, starts, or will run again when IDLE ends. -/
def runsOn (s : State) (n : Nat) : Bool := (s.disp n).running || (s.disp n).starting || s.power.ranOutputs.contains n

/-- Sum of the active pixel rates of the other outputs that run or are to run (R3, R213). -/
def otherRates (s : State) (n : Nat) : Nat :=
  (((List.range 8).filter fun m => m != n && s.runsOn m).map fun m => (s.timing m).pixelRate).sum

/-- The check of R216 step 2 after the copy: the code and ERR_INFO. -/
def startFault (s : State) (n : Nat) : Option (Nat × Nat) :=
  let t := s.timing n
  match t.fault s.pairForm with
  | some o => some (0x0902, o)
  | none =>
    -- in a pair, Adaptive-Sync needs a line of at least 3 µs (R393)
    if s.pairForm ∧ t.vrr ∧ t.ht * 1000 < 3 * t.khz then some (0x0902, 0x054)
    else
      let sum := s.otherRates n + t.pixelRate
      if (if s.part = .sx8400 then 9000000000 else 4500000000) < sum then some (0x0901, sum / 10000000 % 65536 * 65536)
      else
        match cl3Check { s with regs := s.outputWords n } n t with
        | some i => some (0x0904, i)
        | none => if s.pipeReduced n t.khz then some (0x1202, 10 + n) else none

/-- Output n will not run again after IDLE. -/
def dropRan (s : State) (n : Nat) : State :=
  { s with power := { s.power with ranOutputs := s.power.ranOutputs.filter (· != n) } }

/-- Steps 1 to 3 of R216 for an output that stands: the disruptive shadows are copied and checked, and the PLL locks. -/
def beginStart (s : State) (n : Nat) : State :=
  let s1 := (List.range 6).foldl (fun t i => let k := (Page.scn n).key (0x040 + 4 * i); t.setRw k (t.sw k)) s
  match s1.startFault n with
  | some (code, info) =>
    -- a mirrored start that is refused for a reduced island is also a contained fault there (R443)
    let s2 := (s1.setFld (.scn n) F.PG_CTRL_ENABLE 0).recErr (.scn n) code info
    if s.standby ∧ code = 0x1202 then s2.reportContained (.scn n) code info else s2
  | none =>
    let d := s1.disp n
    ((s1.setFld (.scn n) F.PG_CTRL_ENABLE 1).setDisp n { d with starting := true, resumed := false }).setFld (.scn n) F.SCN_BS_PLL_LOCKED 1

/-- A write of 1 to SCNn ENABLE (R216 steps 1 to 3; R443). While a stop is pending the start follows the stop; after a stop by a contained fault
it waits for OUT_STOP to be written again (R472). -/
def scanStart (a : RegAcc) (n : Nat) (s : State) : State :=
  let d := s.disp n
  if s.faults.stopped.contains (Page.scn n).base then s.recAcc a 0x1302
  else if d.running then
    mirrorWrite s ((s.setFld (.scn n) F.PG_CTRL_ENABLE 1).setDisp n { d with again := d.stopping }) a 0 0
  else
    let s1 := (s.dropRan n).beginStart n
    if (s1.disp n).starting then mirrorWrite s s1 a 0 0 else s1

/-- Where the phase error of a follower that started now would lie: from its reference's line, as an interval in pixel clocks of the follower,
modulo the reference's frame (R221, R223). -/
def startPhase (s : State) (n src : Nat) (offset : Int) : Int × Int × Int :=
  let t := s.timing n
  let own : Int := ((t.vt - t.va) * t.ht : Nat)
  if src = 8 then
    let since : Int := (s.time.dtime : Int) - ((Sparse.find s.pair.partnerZero n).getD 0 : Nat)
    let e := own + (since * t.khz).tdiv 1000000 - offset * t.ht
    (e, e, (t.vt * t.ht : Nat))
  else
    let d := s.disp src
    let r := s.timing src
    let toOwn := fun (x : Int) => (x * t.khz).tdiv r.khz
    -- the reference's pixel clocks since its line 0, at the start and at the end of the line on which it stands
    let at0 : Int := (d.line * r.ht : Nat)
    (own + toOwn at0 - offset * t.ht, own + toOwn (at0 + r.ht) - offset * t.ht, toOwn ((totalLines r d * r.ht : Nat) : Int))

/-- A follower whose reference runs starts where its phase error is below one line (R223); `e` runs over an interval, whole reference frames
apart. -/
def aligned (s : State) (n : Nat) : Bool :=
  let word := s.rw ((Page.scn n).key F.SCN_GENLOCK_SRC.off)
  let src := bits 3 0 word
  if !bit 4 word || !s.refRuns n src then true
  else
    let (lo, hi, frame) := s.startPhase n src (signed 13 (bits 28 16 word))
    let line : Int := ((s.timing n).ht : Nat)
    -- some whole number of frames off, the interval meets the open one of one line to either side
    decide (frame ≤ 0) || decide (-((line - 1 - lo) / frame) * frame ≤ hi + line - 1)

/-- The counter starts: the first latch point (R216 steps 4 and 5). -/
def counterStart (s : State) (n : Nat) : State :=
  let d := s.disp n
  let t := s.timing n
  if !d.starting then s
  else
    let s0 := (s.setDisp n { d with
      running := true, starting := false, line := t.va, genlock := s.rw ((Page.scn n).key F.SCN_GENLOCK_SRC.off), goodPhase := 0 }).setFld
      (.scn n) F.PG_STAT_ENABLED 1
    let s1 := s0.loadSheets s0 ((List.range 16).map (· + 16 * n))
    let seq := if d.resumed then (s.fld (.scn n) F.SCN_SEQ_SEQ + 1) % 2 ^ 32 else s.fld (.scn n) F.SCN_SEQ_INIT_SEQ
    let s2 := s1.latchPoint n seq ((t.vt - t.va) * t.clocks)
    let s3 := (s2.setFld (.scn n) F.SCN_BS_RUNNING 1).setFld (.scn n) F.SCN_BS_IN_HEADLAND 1
    (s3.setFld (.scn n) F.SCN_POS_LINE t.va).setFld (.chk n) F.CHK_BS_CHECKING 1

/-- Stop at once (R217, R240): a start that was asked for while the stop was pending follows. -/
def stopNow (s : State) (n : Nat) : State :=
  let again := (s.disp n).again
  let s1 := ((s.outputStopped n).dropFollowers n).videoStop n
  if again then (s1.setDisp n { s1.disp n with again := false }).beginStart n else s1

/-- Output n is not to run: what starts does not, and IDLE does not bring it back. -/
def standStill (s : State) (n : Nat) : State := (s.setDisp n { s.disp n with starting := false, resumed := false, again := false }).dropRan n

/-- A write of 0 to SCNn ENABLE (R217). -/
def scanStop (a : RegAcc) (n : Nat) (s : State) : State :=
  let d := s.disp n
  let s1 := mirrorWrite s (s.setFld (.scn n) F.PG_CTRL_ENABLE 0) a 0 0
  if d.running then
    (if (s.timing n).va ≤ d.line then (s1.standStill n).stopNow n else s1.setDisp n { d with stopping := true, again := false })
  else s1.standStill n

/-- ENABLE of SCNn. -/
def scnEnable (a : RegAcc) (on : Bool) (s : State) : State :=
  match a.page with
  | .scn n => if on then scanStart a n s else scanStop a n s
  | _ => s

/-- Output n follows the partner's frame marker; the value in force is kept for a takeover (R222). -/
def followOut (s : State) (n : Nat) : State :=
  let k := (Page.scn n).key F.SCN_GENLOCK_SRC.off
  ({ s with pair := { s.pair with storedGenlock := Sparse.put s.pair.storedGenlock n (s.rw k) } }).setRw k 0x18

/-- A soft reset of SCNn (R217); an output of a device in the standby role still follows the partner (R222). -/
def scnReset (a : RegAcc) (s : State) : State :=
  match a.page with
  | .scn n =>
    let s0 := s.standStill n
    let s1 := (if (s.disp n).running then s0.stopNow n else s0).settleCredit.resetPage (.scn n)
    mirrorWrite s (if s.standby then s1.followOut n else s1) a 0 0
  | _ => s

def isScnCtrl (a : RegAcc) : Bool := a.off == 0x008 && (match a.page with | .scn _ => true | _ => false)

/-! ## The indirect tables (R185) -/

/-- The key of the table entry that a _DATA register reaches, and the page's _ADDR advanced by one entry. -/
def tableEntry (s : State) (a : RegAcc) : Option (Nat × State) :=
  match a.page with
  | .pipe n =>
    let f := fun (x : Fld) => s.fld (.pipe n) x
    if a.off = F.PIPE_LUT_DATA_ENTRY.off then
      let i := f F.PIPE_LUT_ADDR_INDEX
      some (bankKey (a.page.key a.off) (f F.PIPE_LUT_ADDR_CHANNEL * 1024 + i), s.setFld (.pipe n) F.PIPE_LUT_ADDR_INDEX (i + 1))
    else if a.off = F.PIPE_SCL_DATA_TAP_EVEN.off then
      let h := f F.PIPE_SCL_ADDR_HALF
      let p := f F.PIPE_SCL_ADDR_PHASE
      let s1 := s.setFld (.pipe n) F.PIPE_SCL_ADDR_HALF (h + 1)
      some (bankKey (a.page.key a.off) (f F.PIPE_SCL_ADDR_SCALER * 256 + f F.PIPE_SCL_ADDR_DIR * 128 + p * 2 + h),
        if h = 1 then s1.setFld (.pipe n) F.PIPE_SCL_ADDR_PHASE (p + 1) else s1)
    else none
  | .slot n k =>
    if a.off = F.SLOT_LUT_DATA_ENTRY.off then
      let i := s.fld (.slot n k) F.SLOT_LUT_ADDR_INDEX
      some (bankKey (a.page.key a.off) i, s.setFld (.slot n k) F.SLOT_LUT_ADDR_INDEX (i + 1))
    else none
  | _ => none

/-- A write of a _DATA register: the shadow entry takes the value, and the address advances. -/
def tableWrite (a : RegAcc) (s : State) : State :=
  match s.tableEntry a with
  | some (k, s1) => if s.secretPage a then s.recRefused a else s1.setSw k (Nat.land a.val (commitMask 0x41 k))
  | none => s

/-- A read of a _DATA register: the shadow entry is returned, and the address advances. -/
def tableRead (a : RegAcc) (s : State) : State :=
  match s.tableEntry a with
  | some (k, s1) => s1.answerRead a (if s.secretPage a then 0 else s.sw k)
  | none => s

/-- An access to a _DATA register. -/
def tableAccess (w : RegWr) (isRead : Bool) (here : RegAcc → Bool) (s : State) : State :=
  if isRead then s.accessRead ⟨w.req, w.win, w.off⟩ fun a t => if here a then tableRead a t else t
  else s.accessAt w here tableWrite

/-- PIPE_LUT_ADDR: CHANNEL 3 is refused (R185). -/
def lutAddrWrite (a : RegAcc) (s : State) : State :=
  if s.written a F.PIPE_LUT_ADDR_CHANNEL ∧ bits 11 10 a.val = 3 then
    s.refuse a 0x0006
  else mirrorWrite s (s.plainWrite a) a 0 0

end State

/-! ## The commands -/

def execPipeLutDataAccess (w : RegWr) (isRead : Bool) (s : State) : Host.Outcome State Fault Refusal :=
  .next (State.tableAccess w isRead
    (fun a => match a.page with | .pipe _ => a.off == F.PIPE_LUT_DATA_ENTRY.off | _ => false) s)

def execPipeSclDataAccess (w : RegWr) (isRead : Bool) (s : State) : Host.Outcome State Fault Refusal :=
  .next (State.tableAccess w isRead
    (fun a => match a.page with | .pipe _ => a.off == F.PIPE_SCL_DATA_TAP_EVEN.off | _ => false) s)

def execSlotLutDataAccess (w : RegWr) (isRead : Bool) (s : State) : Host.Outcome State Fault Refusal :=
  .next (State.tableAccess w isRead
    (fun a => match a.page with | .slot _ _ => a.off == F.SLOT_LUT_DATA_ENTRY.off | _ => false) s)

def execLineComposeStart (out : Nat) (s : State) : Host.Outcome State Fault Refusal := .next (s.composeLine out)

def execScanOutStart (w : RegWr) (s : State) : Host.Outcome State Fault Refusal :=
  .next (s.accessAt w (fun a => State.isScnCtrl a && bit 0 a.val)
    fun a t => t.ctrlWrite a (State.scnEnable a) (State.scnReset a))

def execScanOutStopRequest (w : RegWr) (s : State) : Host.Outcome State Fault Refusal :=
  .next (s.accessAt w (fun a => State.isScnCtrl a && !bit 0 a.val)
    fun a t => t.ctrlWrite a (State.scnEnable a) (State.scnReset a))

def execScnSoftReset (w : RegWr) (s : State) : Host.Outcome State Fault Refusal :=
  .next (s.accessAt w (fun a => State.isScnCtrl a && bit 1 a.val)
    fun a t => t.ctrlWrite a (State.scnEnable a) (State.scnReset a))

def execScanLineStart (out : Nat) (phase : Int) (m : Monitor) (s : State) : Host.Outcome State Fault Refusal :=
  .next (s.scanLineStart out phase m)

def execFurrowArrival (out slot plane row clock : Nat) (m : Monitor) (s : State) : Host.Outcome State Fault Refusal :=
  .next (s.furrowArrival out slot plane row clock m)

def execHeadlandStart (out : Nat) (s : State) : Host.Outcome State Fault Refusal :=
  .next (s.counterEvent out 1 fun t d => d.line == t.va)

def execVsync (out : Nat) (s : State) : Host.Outcome State Fault Refusal :=
  .next (s.counterEvent out 2 fun t d => d.line == t.va + t.vfp + d.added)

def execHeadlandEnd (out : Nat) (s : State) : Host.Outcome State Fault Refusal :=
  .next (s.counterEvent out 3 fun t d => d.line + 1 == totalLines t d)

def execLineMatch (out i : Nat) (s : State) : Host.Outcome State Fault Refusal := .next (s.lineMatch out i)

def execVrrDecision (out : Nat) (s : State) : Host.Outcome State Fault Refusal := .next (s.vrrDecision out)

def execGenlockWrite (w : RegWr) (s : State) : Host.Outcome State Fault Refusal :=
  .next (s.accessAt w (fun a => match a.page with | .scn _ => F.SCN_GENLOCK_SRC.hits a.off | _ => false) State.genlockWrite)

end Sys2Proof.Machine
end

