-- ==== Sys2Proof/Machine/Check.lean ====
section
/-! DEFINITION. Check values: the scan engines CVU0 to CVU3 with the SCAN command, and the check regions of the outputs
(R249 to R262). -/

namespace Sys2Proof.Machine

open Codes

/-- The buffers that a scan reads or writes, each once: it holds one fence on each (R80). -/
def CvuCmd.bufs (c : CvuCmd) : List Nat := ((if c.addrMode then [] else [c.src]) ++ c.result.toList).eraseDups

namespace State

/-! ## Scan engines (R252 to R257) -/

def cvu (s : State) (n : Nat) : CvuEngine := (Sparse.find s.cvus n).getD ⟨[], []⟩

def setCvu (s : State) (n : Nat) (e : CvuEngine) : State := { s with cvus := Sparse.put s.cvus n e }

/-- Keep BLOCK_STAT, and let PG_STAT.ENABLED fall after the last command of a disabled engine. -/
def cvuStat (s : State) (n : Nat) : State :=
  let e := s.cvu n
  let s1 := (s.setFld (.cvu n) F.CVU_BS_ACTIVE e.slots.length).setFld (.cvu n) F.CVU_BS_QUEUED e.waiting.length
  if s.flag (.cvu n) F.PG_CTRL_ENABLE then s1
  else if e.slots.isEmpty && e.waiting.isEmpty then s1.setFld (.cvu n) F.PG_STAT_ENABLED 0 else s1

/-- The fold value of a range or block that starts at a byte offset or DRAM address (R255). -/
def foldOf (c : CvuCmd) (at0 : Nat) : Nat := if c.fold = 1 then at0 else if c.fold = 2 then c.foldValue else 0

/-- Attribute of a scan on the management port (R87, R270, R299). -/
def cvuAttr (s : State) (fn : Nat) : Attr := ⟨fn, fn == 0x41, s.fnCrit fn, 10, false, true⟩

/-- What a scan has done: raw registers of the range and of the running block, bytes read, entries written. -/
structure Scanning where
  reg : Nat
  blockReg : Nat
  done : Nat
  entries : Nat
  deriving DecidableEq, Repr

/-- Write entry i of RESULT (R255). -/
def putEntry (s : State) (c : CvuCmd) (i v : Nat) : Bool × State :=
  match c.result with
  | none => (true, s)
  | some b =>
    let a := s.bufAddr b (8 * i)
    match s.guardDram (s.cvuAttr c.fn) true a with
    | (true, s1) =>
      (true, ((s1.pokeBytes a 8 v).pmcCount 0x02 c.fn (c.fn == 0x41) true 1).mirrorWords b (8 * i / 16 * 16) 1 c.fn (c.fn == 0x41))
    | (false, s1) => (false, s1)

/-- Read the range in ascending order; `k` words remain. The status is 0, or the code of the early end (R255, R256). -/
def scanWords (s : State) (n : Nat) (c : CvuCmd) : Nat → Scanning → Nat × Scanning × State
  | 0, x => (0, x, s)
  | k + 1, x =>
    let crc := crcOf c.poly
    let off := c.start + x.done
    let a := if c.addrMode then off else s.bufAddr c.src off
    let (w, st, s1) := s.readWordAs (s.cvuAttr c.fn) a
    if st = 0x0201 then (0x0201, x, s1.event (.cvu n) 1)
    else if st ≠ 0 then (0x0401, x, s1.event (.cvu n) 0)
    else
      let s2 := s1.addCnt (.cvu n) F.CVU_BYTES_LO_COUNT_LO F.CVU_BYTES_HI_COUNT_HI 16
      let reg := crc.word x.reg w
      let breg := crc.word x.blockReg w
      let done := x.done + 16
      let x1 : Scanning := ⟨reg, breg, done, x.entries⟩
      if c.result.isSome ∧ (done % c.block = 0 ∨ k = 0) then
        match s2.putEntry c x.entries (crc.done breg) with
        | (true, s3) => s3.scanWords n c k { x1 with blockReg := crc.start (foldOf c (c.start + done)), entries := x.entries + 1 }
        | (false, s3) => (0x0201, x1, s3.event (.cvu n) 1)
      else s2.scanWords n c k x1

/-- Release the fences of a scan (R80, R256). -/
def scanUnfence (s : State) (c : CvuCmd) : State := c.bufs.foldl unfence s

/-- A scan ends: after its last word, or early (R255, R256). -/
def scanDone (s : State) (n slot : Nat) : State :=
  let e := s.cvu n
  match Sparse.find e.slots slot with
  | none => s
  | some c =>
    let crc := crcOf c.poly
    let f := crc.start (foldOf c c.start)
    let (st, x, s1) := s.scanWords n c (c.len / 16) ⟨f, f, 0, 0⟩
    let v := if st = 0 then crc.done x.reg else 0
    let done := if st = 0x0401 then (c.start + x.done) % 2 ^ 32 else x.done
    let s2 := (s1.setCvu n { s1.cvu n with slots := Sparse.del (s1.cvu n).slots slot }).addFld (.cvu n) F.CVU_CMDS_COUNT 1
    ((s2.scanUnfence c).complete c.jid st [v % 2 ^ 32, v / 2 ^ 32, done, x.entries]).cvuStat n

/-- An engine starts, in a free slot, the oldest waiting command of the function that the weights choose (R124, R257). -/
def scanStartCmd (s : State) (n slot : Nat) : State :=
  let e := s.cvu n
  if 8 ≤ slot ∨ (Sparse.find e.slots slot).isSome then s
  else
    match s.pickFn (6 + n) ((List.range 256).filter fun f => e.waiting.any fun c => c.fn == f) with
    | (none, s1) => s1
    | (some f, s1) =>
      match e.waiting.find? fun c => c.fn == f with
      | none => s
      | some c =>
        ((s1.setCvu n ⟨e.waiting.filter fun d => d.jid != c.jid, Sparse.put e.slots slot c⟩).served (6 + n) f).cvuStat n

/-- Squash the commands of an engine that a test names (R128, R256). -/
def cvuSquash (s : State) (n : Nat) (which : CvuCmd → Bool) (abort : Bool) : State :=
  let e := s.cvu n
  let gone := (e.slots.map Prod.snd ++ e.waiting).filter which
  let s1 := s.setCvu n ⟨e.waiting.filter (fun c => !which c), e.slots.filter fun p => !which p.2⟩
  let s2 := gone.foldl (fun t c => let u := t.scanUnfence c; if abort then u.complete c.jid 0x0008 [0, 0, 0, 0] else u) s1
  if gone.isEmpty then s2.cvuStat n else (s2.event (.cvu n) 2).cvuStat n

/-- The engine that a SCAN goes to, as R150. -/
def scanTarget (s : State) (p1 : Nat) : Option Nat :=
  let eng := bits 11 8 p1
  let load := fun (n : Nat) => (s.cvu n).waiting.length + (s.cvu n).slots.length
  let enabled := (List.range 4).filter fun n => s.flag (.cvu n) F.PG_CTRL_ENABLE && !s.blockStopped (.cvu n)
  let open_ := enabled.filter fun n => s.replaced != some (.cvu n)
  if eng = 15 then open_.find? fun n => open_.all fun m => decide (load n ≤ load m)
  else if eng ∈ enabled then some eng
  else none

/-- A SCAN whose engine's waiting list is full is not taken up, be the named engine enabled or not (R257), nor one whose engine is being replaced
(R460). -/
def scanFull (s : State) (p1 : Nat) : Bool :=
  let eng := bits 11 8 p1
  match (if eng < 4 then some eng else s.scanTarget p1) with
  | some n => decide (32 ≤ (s.cvu n).waiting.length) || s.replaced == some (.cvu n)
  | none => eng == 15 && (match s.replaced with | some (.cvu _) => true | _ => false)

/-- Start of the range of a SCAN: a byte offset, or a DRAM address (R252). -/
def scanFrom (j : Job) : Nat := j.p 2 + (if bit 4 (j.p 1) then bits 3 0 (j.p 3) * 2 ^ 32 else 0)

/-- The buffer of a handle that passes R65; 0 for any other. -/
def bufOr (s : State) (fn h : Nat) : Nat := match s.checkBuf fn h with | .ok i => i | .error _ => 0

/-- Steps 1 to 3 of R253. -/
def scanHandles (s : State) (j : Job) : Option Nat :=
  if bit 4 (j.p 1) ∧ j.fn ≠ 0x41 then some 0x000A
  else match (if bit 4 (j.p 1) then none else match s.checkBuf j.fn (j.p 0) with | .error c => some c | .ok _ => none) with
  | some c => some c
  | none => if bit 12 (j.p 1) then (match s.checkBuf j.fn (j.p 5) with | .error c => some c | .ok _ => none) else none

/-- Steps 4 to 10 of R253. -/
def scanParams (s : State) (j : Job) : Option Nat :=
  let p1 := j.p 1
  let addr := bit 4 p1
  let fold := bits 3 2 p1
  let eng := bits 11 8 p1
  let res := bit 12 p1
  let start := scanFrom j
  let len := j.p 4
  let block := j.p 6
  let plots := fun (i : Nat) => ((s.buf i).map fun b => b.plots.length).getD 0
  let si := s.bufOr j.fn (j.p 0)
  let di := s.bufOr j.fn (j.p 5)
  if res ∧ s.bufKind di ≠ 6 then some 0x0107
  else if bits 7 5 p1 ≠ 0 ∨ bits 31 13 p1 ≠ 0 ∨ bits 31 4 (j.p 3) ≠ 0 ∨ fold = 3 ∨ (4 ≤ eng ∧ eng ≤ 14) ∨ (addr ∧ j.p 0 ≠ 0)
      ∨ (!addr ∧ bits 3 0 (j.p 3) ≠ 0) ∨ (!res ∧ (j.p 5 ≠ 0 ∨ block ≠ 0)) ∨ (fold ≠ 2 ∧ j.p 7 ≠ 0) then some 0x0006
  else if res ∧ block = 0 then some 0x0002
  else if start % 16 ≠ 0 ∨ len % 16 ≠ 0 ∨ block % 16 ≠ 0 then some 0x0006
  else if (!addr ∧ plots si * 65536 < start + len) ∨ (res ∧ plots di * 65536 < 8 * ((len + block - 1) / block)) then some 0x0105
  else if addr ∧ s.installed < start + len then some 0x0006
  else if (s.scanTarget p1).isNone then some (s.notRunning (if eng = 15 then (List.range 4).map Page.cvu else [.cvu eng])) else none

/-- The first failing check of R253. -/
def scanFault (s : State) (j : Job) : Option Nat :=
  match s.scanHandles j with | some c => some c | none => s.scanParams j

/-- The accepted command of a SCAN. -/
def scanCmd (s : State) (j : Job) : CvuCmd where
  jid := j.jid
  fn := j.fn
  poly := bits 1 0 (j.p 1)
  fold := bits 3 2 (j.p 1)
  addrMode := bit 4 (j.p 1)
  src := s.bufOr j.fn (j.p 0)
  handle := j.p 0
  start := scanFrom j
  len := j.p 4
  result := if bit 12 (j.p 1) then some (s.bufOr j.fn (j.p 5)) else none
  block := j.p 6
  foldValue := j.p 7

/-- The fences of a scan (R80). -/
def scanFence (s : State) (c : CvuCmd) : State := c.bufs.foldl fence s

/-- SCAN: the checks of R253 in order, then acceptance; LENGTH 0 completes at once (R254). -/
def carryScan (j : Job) (s : State) : State :=
  match s.scanFault j with
  | some code => s.complete j.jid code
  | none =>
    let c := s.scanCmd j
    if c.len = 0 then
      let crc := crcOf c.poly
      let v := crc.done (crc.start (foldOf c c.start))
      s.complete j.jid 0 [v % 2 ^ 32, v / 2 ^ 32, 0, 0]
    else
      match s.scanTarget (j.p 1) with
      | none => s
      | some n =>
        let s2 := s.scanFence c
        let e := s2.cvu n
        (s2.setCvu n { e with waiting := e.waiting ++ [c] }).cvuStat n

/-- CVU_CTRL: a RATE of 0 or above 16 is refused. -/
def cvuCtrlWrite (a : RegAcc) (s : State) : State :=
  let r := bits 4 0 a.val
  if s.grants a F.CVU_CTRL_RATE ∧ (r = 0 ∨ 16 < r) then s.recAcc a 0x0006 else s.plainWrite a

/-! ## Check regions (R258 to R261) -/

/-- The entry of a pixel (R258). -/
def regionEntry (depth8 : Bool) (p : OutPix) : Nat :=
  if depth8 then p.q0 % 256 + p.q1 % 256 * 2 ^ 8 + p.q2 % 256 * 2 ^ 16 + p.tag * 2 ^ 30
  else p.q0 % 1024 + p.q1 % 1024 * 2 ^ 10 + p.q2 % 1024 * 2 ^ 20 + p.tag * 2 ^ 30

/-- Four entries to a word, the last completed with zeros. -/
def packEntries : List Nat → List Nat
  | e0 :: e1 :: e2 :: e3 :: r => (e0 + e1 * 2 ^ 32 + e2 * 2 ^ 64 + e3 * 2 ^ 96) :: packEntries r
  | [] => []
  | [e0] => [e0]
  | [e0, e1] => [e0 + e1 * 2 ^ 32]
  | [e0, e1, e2] => [e0 + e1 * 2 ^ 32 + e2 * 2 ^ 64]

/-- The words of a rectangle of the composed frame, in raster order. -/
def rectWords (lines : List (List OutPix)) (depth8 : Bool) (x y w h : Nat) : List Nat :=
  packEntries (((lines.drop y).take h).flatMap fun l => ((l.drop x).take w).map (regionEntry depth8))

/-- V of R259. -/
def regionValue (seq : Nat) (ws : List Nat) : Nat := (crcOf 0).value seq ws

/-- The raw register of n zero words from a start value (R259). -/
def zeroRegister (start words : Nat) : Nat := (List.replicate words 0).foldl (crcOf 0).word start

/-- The match of R259. -/
def regionMatches (v seq e0 words : Nat) : Bool := v == Nat.xor e0 (zeroRegister seq words)

/-- The last pixel of region j has passed stage 12 (R261). -/
def regionFinal (s : State) (n j : Nat) : State :=
  let d := s.disp n
  let v := s.frameView n
  let f := fun (x : Fld) => v.fld (.chk n) x [j]
  let y := f F.CHK_POS_Y
  let h := f F.CHK_SIZE_H
  if !d.running ∨ !d.regions.contains j ∨ d.regionsDone.contains j ∨ d.lines.length < y + h then s
  else
    let seq := s.fld (.scn n) F.SCN_SEQ_SEQ
    let ws := rectWords d.lines (v.flag (.pipe n) F.PIPE_CTRL_DEPTH8) (f F.CHK_POS_X) y (f F.CHK_SIZE_W) h
    let val := regionValue seq ws
    let compare := f F.CHK_CTRL_COMPARE == 1
    let same := regionMatches val seq (f F.CHK_EXPECT_E0) ws.length
    let result := if !compare then 3 else if same then 1 else 2
    let s1 := s.setDisp n { d with regionsDone := d.regionsDone ++ [j], results := Sparse.put d.results j result }
    let s2 := ((s1.setFld (.chk n) F.CHK_LAST_V val [j]).setFld (.chk n) F.CHK_LAST_SEQ_SEQ seq [j]).setFld (.chk n) F.CHK_STAT_RESULT result [j]
    if result = 3 then s2
    else if result = 1 then (s2.satFld (.chk n) F.CHK_MATCHES_COUNT 1 [j]).setFld (.chk n) F.CHK_STAT_RUN 0 [j]
    else
      let old := s.fld (.chk n) F.CHK_STAT_RUN [j]
      let limit := max 1 (f F.CHK_CTRL_LIMIT)
      let s3 := (s2.satFld (.chk n) F.CHK_MISMATCHES_COUNT 1 [j]).satFld (.chk n) F.CHK_STAT_RUN 1 [j]
      let s4 := if old = 0 then s3.setFld (.chk n) F.CHK_FIRST_BAD_SEQ seq [j] else s3
      let s5 := ((s4.chkEvent n j 0).event (.chk n) 0).recErr (.chk n) 0x0B01 j
      -- ACTION is carried out once in a run, at the first mismatch at which the count has reached LIMIT
      let done := old ≠ 0 ∧ s5.display.acted.contains (n * 16 + j)
      let acted := s5.display.acted.filter (· != n * 16 + j)
      if limit ≤ satAdd 8 old 1 ∧ ¬done then
        let s6 := ({ s5 with display := { s5.display with acted := acted ++ [n * 16 + j] } }).chkEvent n j 1
        if f F.CHK_CTRL_ACTION = 0 then s6 else s6.containOutput (.chk n) n 0x0B01 j (s6.fld (.chk n) F.CHK_OWNER_FUNCTION [j])
      else if done then s5 else { s5 with display := { s5.display with acted := acted } }

end State

/-! ## The commands -/

def execScan (c : CmdArgs) (s : State) : Host.Outcome State Fault Refusal :=
  .next (if s.scanFull (c.params.getD 1 0) then s.keepEntry 0x18 c else s.command 0x18 c State.carryScan)

def execScanStart (engine slot : Nat) (s : State) : Host.Outcome State Fault Refusal := .next (s.scanStartCmd engine slot)

def execScanDone (engine slot : Nat) (s : State) : Host.Outcome State Fault Refusal := .next (s.scanDone engine slot)

def execCheckRegionFinal (out region : Nat) (s : State) : Host.Outcome State Fault Refusal := .next (s.regionFinal out region)

end Sys2Proof.Machine
end

