-- ==== Sys2Proof/Machine/Pair.lean ====
section
/-! DEFINITION. The redundant pair: guy lines, pair states, joining, takeover and handover, time, commit acknowledgements and the
comparison of frame digests (R370 to R404). Applying what the partner mirrors stands in Mirror.lean. -/

namespace Sys2Proof.Machine

/-- Code of a pair state in PLK_STAT (R375). -/
def PairState.code : PairState → Nat
  | .waiting => 0
  | .solo => 1
  | .active => 2
  | .syncing => 3
  | .standby => 4
  | .detached => 5
  | .apart => 6

/-- VF_INFO.PAIR_ROLE of a pair state (R376). -/
def PairState.role : PairState → Nat
  | .solo => 0
  | .active => 1
  | _ => 2

namespace State

/-! ## Recording -/

/-- 0x1002 PAIR_DISAGREE with its reason, and an output or a plot (R401). -/
def pairDisagree (s : State) (reason : Nat) (out : Nat := 0) (plot : Nat := 0) : State :=
  let s1 := { s with pair := { s.pair with lastReason := reason } }
  (s1.recErr .plk 0x1002 (reason + out * 2 ^ 8 + plot * 2 ^ 12)).event .plk 3

/-- Enter a pair state; a change of the role that functions see sets ROLE_CHANGE. -/
def enterPair (s : State) (st : PairState) : State :=
  let s1 := { s with pair := { s.pair with state := st } }
  if st.role ≠ s.pair.state.role then s1.event .plk 2 else s1

/-- The device's POSITION: A or B. -/
def position (s : State) : Nat := s.fld .plk F.PLK_CFG_POSITION

/-- The digest of this device's pair-relevant settings (R394): the settings themselves are not part of the state. -/
def configDigest (s : State) : Nat := Config.openResult 0x0394 [s.fld .upd F.UPD_SCHEMA_IN_USE]

/-- The HEARTBEAT this device sends (R383). -/
def ownBeat (s : State) : Beat :=
  ⟨1, s.position, s.pair.state.code, s.pair.guyOut, s.pair.guyIn, s.fld .upd F.UPD_RUN_VER_VERSION, s.deviceTime, s.pair.applied⟩

/-- Assert GUY_OUT: the token is taken. -/
def takeToken (s : State) : State :=
  ({ s with pair := { s.pair with guyOut := true } }).satFld .plk F.PLK_TAKEOVER_COUNT 1

/-- Ask the token holder for a join, when the link is up (R394). -/
def askJoin (s : State) : State := if s.linked then s.sendFlit (.role (.joinRequest s.configDigest)) else s

/-- DETACHED, which asks at once when the link is already up (R375). -/
def enterDetached (s : State) : State := (s.enterPair .detached).askJoin

/-! ## Roles (R376, R398) -/

/-- In the standby role every output follows the partner's frame marker (R222). -/
def followPartner (s : State) : State := (List.range 8).foldl followOut s

/-- Each output follows what the former token holder's followed (R222, R398). -/
def unfollow (s : State) : State :=
  (List.range 8).foldl (fun t n =>
    t.setRw ((Page.scn n).key F.SCN_GENLOCK_SRC.off) ((Sparse.find t.pair.storedGenlock n).getD 0))
    { s with pair := { s.pair with frameErr := [] } }

/-- The blocks that only the active role drives start (R398). `snap` allows snapshot references (R397). -/
def startRole (s : State) (snap : Bool) : State :=
  let s1 := ((s.touchActivate snap).hapSilence).audTakeover
  (s1.unfollow.setFld .plk F.PLK_TIME_OFFSET_NS 0).setFld .tim F.TIM_BS_DISCIPLINED 0

/-- Streams end without completions: the standby role plays none (R368). -/
def stopStreams (s : State) : State :=
  (List.range 64).foldl (fun t c =>
    if (t.stream c).running ∨ (t.stream c).regions ≠ [] then (t.releaseRegions c true).setStream c idleStream else t) s

/-- A buffer that the token holder keeps FREEING: it holds a fence until the token holder's record, or a takeover (R389). -/
def keepFreeing (s : State) (i : Nat) : State :=
  match s.buf i with
  | none => s
  | some b =>
    if s.pair.keptFree.contains i then s
    else ({ s with pair := { s.pair with keptFree := s.pair.keptFree ++ [i] } }).setBuf i { b with state := .freeing, fences := b.fences + 1 }

/-- The device that gives up the token and stands by keeps what is FREEING or DRAINING until the new holder's record (R389). -/
def keepEnding (s : State) : State :=
  let s1 := ((s.pool.bufs.used.filter fun p => p.2.state == .freeing).map Prod.fst).foldl keepFreeing s
  { s1 with pair := { s1.pair with keptChans := (s.pool.chans.used.filter fun p => p.2.draining).map Prod.fst } }

/-- A command that the device no longer carries out ends ABORTED; a final completion that it owes is not posted (R389). -/
def abandonJob (s : State) (jid : Nat) : State :=
  match s.job jid with
  | none => s
  | some j => if j.stage = .owed then s.dropJob jid else s.complete jid 0x0008

/-- The channel operations whose record the partner has not acknowledged, and those that wait for a fill, a free or a destroy, end (R389). -/
def abandonOps (s : State) : State :=
  let wait := fun (x : MirrorItem) => match x with | .record _ _ _ w => w.map Prod.fst | _ => none
  let sent := (s.pair.replay.filterMap SentFlit.item ++ s.pair.ordered).filterMap wait
  let bufs := s.pool.bufs.used.flatMap fun p => p.2.allocJob.toList ++ p.2.freeJob.toList
  let chans := s.pool.chans.used.filterMap fun p => p.2.destroyJob
  let p := s.pool
  let s1 := { s with pool := { p with
    bufs := { p.bufs with used := p.bufs.used.map fun x => (x.1, { x.2 with allocJob := none, freeJob := none }) }
    chans := { p.chans with used := p.chans.used.map fun x => (x.1, { x.2 with destroyJob := none }) } } }
  (sent ++ bufs ++ chans).foldl abandonJob s1

/-- COMMIT_ARM DROP for a commit, while the link is up (R200). -/
def sendDrop (s : State) (c : Commit) : State :=
  if s.linked then
    ({ s with pair := { s.pair with sentOrdered := (s.pair.sentOrdered + 1) % 2 ^ 32 } }).sendFlit (.commitArm 2 c.cno 0 c.group c.fn [] true)
  else s

/-- What the token holder carried out for guests ends: commits that do not apply (R200, R203), ingests, scans and channel operations (R157, R389).
What was to be mirrored is not; the partner hears of the dropped commits. -/
def endGuestWork (s : State) : State :=
  let dropped := s.display.commits.filter fun c => c.stage != .applying
  let s1 := ({ s with display := { s.display with waitingRelease := [] } }).abandonAll fun _ => true
  let s2 := (List.range 4).foldl (fun t n => (t.ingSquash n (fun _ => true) true).cvuSquash n (fun _ => true) true) s1
  let s3 := s2.abandonOps
  let items := s3.pair.ordered
  let s4 := { s3 with pair := { s3.pair with ordered := [], resyncing := false, resyncPlots := [], syncWords := [] } }
  let s5 := items.foldl (fun t x => t.itemEnded (some x)) (dropped.foldl sendDrop s4)
  { s5 with pair := { s5.pair with ordered := [] } }

/-- The device leaves the active role while it runs on: its work for guests ends, GUY_OUT is released, transmitters go idle (R247), and
touch, haptics and audio stop driving (R33, R310, R339, R368). -/
def leaveRole (s : State) (st : PairState) : State :=
  let s1 := (if st = .standby then s.keepEnding else s).endGuestWork
  let s2 := ({ s1 with pair := { s1.pair with guyOut := false } }).enterPair st
  ((s2.dplLeave.touchLeave).hapSilence).stopStreams.followPartner

/-- What the old token holder kept FREEING or DRAINING goes once this device's own references end (R389). -/
def releaseKept (s : State) : State :=
  let s1 := s.pair.keptFree.foldl unfence { s with pair := { s.pair with keptFree := [], keptChans := [] } }
  s.pair.keptChans.foldl chanDrained s1

/-- A takeover (R398): held records go, shadows equal active values (R203, R204), and the device is SOLO, or ACTIVE after a handover.
A stale one releases every layer slot first (R397). -/
def takeover (s : State) (stale : Bool) : State :=
  let st := if s.pair.handover = 3 ∧ !stale then PairState.active else .solo
  let s1 := s.takeToken
  let s2 := s1.setFld .plk F.PLK_TAKEOVER_LAST (min 0xFFFF ((s.now - s.pair.releasedAt) / 10))
  let s3 := { s2 with
    shad := s2.regs
    display := { s2.display with commits := s2.display.commits.map fun (c : Commit) => { c with pages := [] } }
    pair := { s2.pair with held := [], handover := 0, offered := none, backoff := false, latched := [] } }
  let s4 := (s3.enterPair st).releaseKept
  let s5 := if stale then (List.range 128).foldl (fun t i => t.releaseSlot (i / 16) (i % 16)) s4 else s4
  s5.startRole (!stale)

/-- The takeover condition is met (R373, R375). -/
def takeoverCondition (s : State) : State :=
  match s.pair.state with
  | .standby => s.takeover false
  | .syncing | .detached => s.takeover true
  | .apart => if s.flag .plk F.PLK_CFG_APART_TAKEOVER then s.takeover true else s
  | _ => s

/-! ## Guy lines (R371 to R374, R403) -/

/-- In WAITING, position A takes a free token at once. -/
def waitingStep (s : State) : State :=
  if s.pair.state = .waiting ∧ s.position = 0 ∧ !s.pair.guyIn then (s.takeToken.enterPair .solo).unfollow else s

/-- GUY_IN changes level; with PLK disabled it is ignored (R370). -/
def guyInEdge (s : State) (asserted : Bool) : State :=
  if s.pair.guyIn = asserted then s
  else
    let s1 := { s with pair := { s.pair with
      guyIn := asserted, edgeAt := s.now, wasAsserted := s.pair.guyIn
      releasedAt := if asserted then s.pair.releasedAt else s.now
      collision := s.pair.collision && asserted } }
    if s1.paired then s1.waitingStep else s1

/-- GUY_IN has kept its level for 4 µs. -/
def guyFilter (s : State) : State :=
  let was := s.pair.wasAsserted
  let s1 := { s with pair := { s.pair with wasAsserted := false } }
  if !s.paired then s
  else if s.pair.guyIn then (if s.pair.state = .waiting then s1.enterDetached else s1)
  else if was ∧ !s.pair.guyFault ∧ !s.pair.backoff then s1.takeoverCondition
  else s1

/-- A token holder has sampled GUY_IN asserted for 4 µs. -/
def guyCollision (s : State) : State :=
  if s.paired ∧ s.pair.guyOut ∧ s.pair.guyIn then
    if s.position = 1 then ((s.leaveRole .detached).pairDisagree 4).askJoin
    else { s with pair := { s.pair with collision := true } }
  else s

/-- A collision has lasted 100 µs: the device lets go and draws a random wait. -/
def collisionTimeout (s : State) : State :=
  if s.paired ∧ s.pair.collision ∧ s.pair.guyOut ∧ s.pair.guyIn then
    let (v, s1) := s.takeFree
    let s2 := ((s1.leaveRole .detached).pairDisagree 4).askJoin
    { s2 with pair := { s2.pair with collision := false, backoff := true, backoffUs := 10 + v % 991 } }
  else s

/-- The random wait has passed. -/
def backoffEnd (s : State) : State :=
  if s.paired ∧ s.pair.backoff then
    let s1 := { s with pair := { s.pair with backoff := false } }
    if s.pair.guyIn then s1 else s1.takeoverCondition
  else s

/-- 300 ms have passed in WAITING at position B. -/
def waitingTimeout (s : State) : State :=
  if s.paired ∧ s.pair.state = .waiting ∧ s.position = 1 ∧ !s.pair.guyIn ∧ !(s.pair.linkUp && s.pair.pGuyOut) then
    (s.takeToken.enterPair .solo).unfollow
  else s

/-- GUY_FAULT (R403). -/
def setGuyFault (s : State) : State :=
  if s.pair.guyFault then s
  else
    let s1 := ({ s with pair := { s.pair with guyFault := true } }).event .plk 5
    (s1.pairDisagree 5).reportContained .plk 0x1002 5

/-! ## Link and heartbeats (R378, R383) -/

/-- What a HEARTBEAT reports. -/
def noteBeat (s : State) (b : Beat) (slow : Bool) : State :=
  let s1 := { s with pair := { s.pair with
    pProtocol := b.protocol, pPosition := b.position, pState := b.state, pGuyOut := b.guyOut, pGuyIn := b.guyIn
    pVersion := b.version, pDtime := b.dtime, pApplied := b.applied, pFallow := slow } }
  s1.setFld .plk F.PLK_PARTNER_FW_VERSION b.version

/-- The guy line against the partner's report. -/
def checkGuy (s : State) (b : Beat) : State :=
  let n := if b.guyOut = s.pair.guyIn then 0 else s.pair.guyDiffer + 1
  let s1 := { s with pair := { s.pair with guyDiffer := min n 3 } }
  if s.pair.state = .waiting ∧ s.position = 1 ∧ b.guyOut ∧ !s.pair.guyIn then s1.setGuyFault.enterDetached
  else if 3 ≤ n then s1.setGuyFault else s1

/-- The link has trained and the partner's first HEARTBEAT arrives. -/
def linkComesUp (s : State) (speed width : Nat) (h : FlitHdr) (b : Beat) : State :=
  if !s.paired ∨ s.pair.linkUp ∨ s.faults.fatal.isSome then s
  else
    let s1 := { s with pair := { s.pair with trained := true, rxSeq := h.seq } }
    let s2 := (s1.setFld .plk F.PLK_LINK_SPEED (s1.linkSpeed 3 speed)).setFld .plk F.PLK_LINK_WIDTH width
    (s2.sendFlit (.heartbeat s2.ownBeat)).accept h fun t =>
      let u := ({ t with pair := { t.pair with linkUp := true } }.event .plk 0).noteBeat b false
      let v := u.checkGuy b
      if u.pair.state = .detached then v.askJoin else v

/-- A HEARTBEAT falls due. -/
def sendBeat (s : State) : State := if s.paired then s.sendFlit (.heartbeat s.ownBeat) else s

def heartbeat (s : State) (h : FlitHdr) (b : Beat) (slow : Bool) : State :=
  if s.linked then s.accept h fun t => (t.noteBeat b slow).checkGuy b else s

/-- The token holder has lost its partner: SOLO, its commits end as those of a single device (R200, R203, R375). -/
def goSolo (s : State) : State := ((s.enterPair .solo).abandonAll fun c => c.stage == .sent).applyLeadless.wakeReleases

/-- No valid HEARTBEAT has arrived in time: the link is down (R200, R373, R375). -/
def linkDown (s : State) : State :=
  if !s.linked then s
  else
    let waiting := s.pair.handover
    let s1 := s.dropLink.event .plk 1
    let s2 := if waiting = 1 ∨ waiting = 2 then { s1 with hosts := { s1.hosts with fetchStopped := false } } else s1
    match s.pair.state with
    | .active => s2.goSolo
    | .syncing | .standby =>
      if s.pair.guyFault ∧ !s.pair.guyIn then s2.takeoverCondition else s2.enterPair .detached
    | _ => if s.pair.guyFault ∧ !s.pair.guyIn then s2.takeoverCondition else s2

/-- The transmitter of this device has waited 4 µs for an ACK that advances. -/
def replayTimeout (s : State) : State := if s.pair.trained then s.replayAll else s

def nullFlit (s : State) (h : FlitHdr) : State := if s.pair.trained ∧ !s.pair.recovering then s.takeHeader h else s

/-! ## Joining and resynchronisation (R394 to R397) -/

/-- The reason of the first check of R395 that fails. -/
def joinFault (s : State) (config : Nat) : Option Nat :=
  if s.pair.pProtocol ≠ 1 then some 1
  else if s.pair.pPosition = s.position then some 2
  else if config ≠ s.configDigest then some 3
  else if s.pair.pGuyOut then some 4
  else none

/-- Bits of a word that a write sets: its RW, RWS and W1S fields. -/
def setMask (pg : Page) (o : Nat) : Nat :=
  ((pg.fieldsAt o).filter fun f => f.acc == .rw || f.acc == .rws || f.acc == .w1s).foldl (fun m f => Nat.lor m ((2 ^ (f.hi + 1 - f.lo) - 1) * 2 ^ f.lo)) 0

/-- Whether a word holds such a field. -/
def settable (pg : Page) (o : Nat) : Bool := setMask pg o != 0

/-- Words of the mirrored pages that differ from reset, the PG_CTRL word of each page last: those of CHN and POOL, and those of the other pages
(R396 steps 2 and 4). -/
def resyncRegs (s : State) : List MirrorItem × List MirrorItem :=
  let one := fun (p : Nat × Word32) =>
    let e := linkEntry (p.1, p.2.toNat)
    match pageOf (e.1 / 0x1000 * 0x1000) with
    | some pg => if mirroredWord pg (e.1 % 0x1000) && settable pg (e.1 % 0x1000) then some (e.1, MirrorItem.reg e.1 e.2.1 0 e.2.2 0x41 true) else none
    | none => none
  let l := s.regs.filterMap one
  let first := fun (x : Nat × MirrorItem) => x.1 / 0x1000 == Page.chn.base / 0x1000 || x.1 / 0x1000 == Page.pool.base / 0x1000
  let plain := fun (x : Nat × MirrorItem) => x.1 % 0x1000 != 0x008
  let (a, b) := l.partition first
  let last := fun (l : List (Nat × MirrorItem)) => (l.filter plain ++ l.filter fun x => !plain x).map Prod.snd
  (last a, last b)

/-- The tables of the channel manager with the order of what is free (R70) and the retirements (R396 step 3). -/
def resyncPool (s : State) : List MirrorItem :=
  let chans := s.pool.chans.used.map fun p =>
    MirrorItem.record 0x81 [s.chanHandle p.1, p.2.fn, b2n p.2.draining] [] none
  let bufs := s.pool.bufs.used.map fun p =>
    MirrorItem.record 0x82 [s.bufHandle p.1, p.2.chanHandle, p.2.size, if p.2.state = .freeing then 1 else 0] p.2.plots none
  let out := MirrorItem.record 0x80 [] (s.pool.plots.retired ++ s.pool.plots.marked) none
  let free := fun (kind fresh : Nat) (freed : List Nat) (gens : Store Nat) =>
    MirrorItem.record 0x89 [kind, fresh, freed.length] (freed ++ gens.flatMap fun p => [p.1, p.2]) none
  let order := [free 0 s.pool.chans.fresh s.pool.chans.freed s.pool.chans.gens, free 1 s.pool.bufs.fresh s.pool.bufs.freed s.pool.bufs.gens,
    free 2 s.pool.plots.fresh s.pool.plots.freed []]
  chans ++ bufs ++ order ++ [out]

/-- Values of step 4 of R396 beside registers: the slots that are released, the haptic rules, the audio values in force and the touch nodes. -/
def resyncOthers (s : State) : List MirrorItem :=
  let rules := s.haptic.rules.map fun p =>
    let r := p.2
    let x := r.effect
    MirrorItem.record 0x84 [p.1, r.fn, r.panel * 2 ^ 16 + r.channel * 2 ^ 20 + r.events * 2 ^ 24, r.x + r.y * 2 ^ 16, r.w + r.h * 2 ^ 16,
      b2n x.tapSource + x.tap * 2 + b2n x.retrig * 2 ^ 4 + x.priority * 2 ^ 5 + x.gain * 2 ^ 16, x.clip, x.offset, x.length] [] none
  let aud := s.audio.active.map fun p => MirrorItem.record 0x83 [p.1, p.2.toNat] [] none
  let nodes := s.touch.engines.flatMap fun p => p.2.panels.flatMap fun q => q.2.nodes.map fun n =>
    MirrorItem.record 0x87 [p.1, q.1, n.1, n.2.base + n.2.comp * 2 ^ 16, n.2.refBase + n.2.refComp * 2 ^ 16] [] none
  .record 0x88 s.display.released [] none :: rules ++ aud ++ nodes

/-- Begin a resync: an earlier one is abandoned (R375, R396). Armed commits are recorded again behind the tables. -/
def startResync (s : State) : State :=
  let rest := s.pair.ordered.filter fun x => match x with | .marker _ => false | _ => true
  let items := rest ++ [.marker false] ++ s.resyncRegs.1 ++ s.resyncPool ++ s.resyncRegs.2 ++ s.resyncOthers
  let plots := s.pool.bufs.used.flatMap fun p => p.2.plots
  let again := s.display.commits.filter fun c => c.stage != .applying
  let s1 := { s with
    pair := { s.pair with
      ordered := items ++ again.map fun c => .arm 0 c.cno 0 c.group c.fn (c.entries.map linkEntry)
      resyncing := true, resyncPlots := plots, syncWords := [], resyncItems := items.length }
    display := { s.display with commits := s.display.commits.map fun c =>
      if c.stage = .applying then c else { c with stage := .sent, sentAt := s.now } } }
  s1

/-- JOIN_REQUEST reaches the token holder. -/
def joinRequest (s : State) (config : Nat) : State :=
  if !s.pair.guyOut then s
  else
    match s.joinFault config with
    | some r => (s.sendFlit (.role (.joinRefuse r))).pairDisagree r
    | none =>
      let s1 := (s.sendFlit (.role .joinAccept)).enterPair .active
      let differ := s.pair.pVersion != s.fld .upd F.UPD_RUN_VER_VERSION
      let s2 := { s1 with pair := { s1.pair with versionDiff := differ } }
      (if differ then s2.event .plk 3 else s2).startResync

def joinAccept (s : State) : State :=
  match s.pair.state with
  | .detached | .syncing | .apart => s.enterPair .syncing
  | _ => s

def joinRefused (s : State) : State :=
  match s.pair.state with
  | .detached | .syncing | .apart => s.enterPair .apart
  | _ => s

def syncDone (s : State) : State :=
  if s.pair.state = .syncing then
    let s1 := { s with pair := { s.pair with resyncing := false, resyncPlots := [], sinceSync := [], ownDigests := [], partnerDigests := [], mismatched := [] } }
    (s1.enterPair .standby).event .plk 4
  else s

/-- Every resync item has been sent: the end marker and SYNC_DONE follow. -/
def resyncSent (s : State) : State :=
  let p := s.pair
  if s.activeLinked ∧ p.resyncing ∧ p.resyncItems = 0 ∧ p.resyncPlots = [] then
    let s1 := (s.sendFlit (.mirror (.marker true))).sendFlit (.role .syncDone)
    ({ s1 with pair := { s1.pair with
      resyncing := false, sentOrdered := (s1.pair.sentOrdered + 1) % 2 ^ 32, sinceSync := [], ownDigests := [], partnerDigests := []
      mismatched := [] } }).event .plk 4
  else s

/-- A resync cause on the device without the token: it asks for a new join (R375, R401). -/
def resyncCause (s : State) : State :=
  if s.pair.state = .standby ∧ s.linked then (s.askJoin).enterPair .syncing else s

/-! ## Handover (R399) -/

/-- Stop fetching and wait for the drain. -/
def startHandover (s : State) : State :=
  { s with hosts := { s.hosts with fetchStopped := true }, pair := { s.pair with handover := 1, handoverAt := s.now } }

/-- PLK_CTRL.HANDOVER written 1. -/
def handoverWrite (a : RegAcc) (s : State) : State :=
  if !s.linked then s.recAcc a 0x1004
  else if s.pair.state ≠ .active then s.recAcc a 0x1001
  else if s.pair.guyFault then s.pairDisagree 5
  else if s.pair.pState ≠ 4 then s.pairDisagree 10
  else if s.pair.handover ≠ 0 then s
  else s.startHandover

/-- Channel operations that have not completed. -/
def chanOpsRun (s : State) : Bool := s.hosts.jobs.any fun j => decide (1 ≤ j.opcode) && decide (j.opcode ≤ 5) && j.stage == .fetched

/-- The drain has ended: the offer goes out with the count of ordered-stream flits. -/
def handoverDrained (s : State) : State :=
  if s.activeLinked ∧ s.pair.handover = 1 ∧ s.display.commits.all Commit.posted ∧ !s.chanOpsRun ∧ s.pair.ordered = [] ∧ !s.pair.resyncing then
    ({ s with pair := { s.pair with handover := 2 } }).sendFlit (.role (.handoverOffer s.pair.sentOrdered))
  else s

/-- The token holder keeps the token: it fetches again. -/
def keepToken (s : State) : State :=
  { s with hosts := { s.hosts with fetchStopped := false }, pair := { s.pair with handover := 0, resyncAfter := false } }

def handoverTimeout (s : State) : State :=
  if s.pair.handover = 1 then s.keepToken.recErr .plk 0x0007 else s

/-- The partner answers an offer once it has applied the count (R399 step 4). -/
def answerOffer (s : State) : State :=
  match s.pair.offered with
  | none => s
  | some count =>
    if s.pair.applied ≠ count then s
    else
      let s1 := { s with pair := { s.pair with offered := none } }
      if s.pair.state ≠ .standby then s1.sendFlit (.role (.refusal 10))
      else if s.pair.guyFault then s1.sendFlit (.role (.refusal 5))
      else if s.pair.mismatched ≠ [] then s1.sendFlit (.role (.refusal 7))
      else ({ s1 with pair := { s1.pair with handover := 3 } }).sendFlit (.role .ready)

def handoverOffer (s : State) (count : Nat) : State :=
  if s.pair.guyOut then s else ({ s with pair := { s.pair with offered := some count } }).answerOffer

/-- READY: the token is given up; the device stands by with every item it holds (R399 step 5). -/
def handoverReady (s : State) : State :=
  if s.pair.handover = 2 ∧ s.pair.state = .active then
    let again := s.pair.resyncAfter
    let s1 := s.leaveRole .standby
    let s2 := { s1 with hosts := { s1.hosts with fetchStopped := false }, pair := { s1.pair with handover := 0, resyncAfter := false } }
    if again then s2.resyncCause else s2
  else s

def handoverRefused (s : State) (reason : Nat) : State :=
  if s.pair.handover = 2 then s.keepToken.pairDisagree reason else s

/-! ## Time and frame markers (R392, R393) -/

/-- The device's time no longer rests on a bridge (R430). -/
def clearBridged (s : State) : State := (s.setFld .tim F.TIM_BS_BRIDGED 0).setFld .tim F.TIM_UNCERT_US 0

def timeSyncDue (s : State) : State :=
  if s.linked ∧ !s.pair.guyOut then
    ({ s with pair := { s.pair with syncT1 := some s.time.dtime } }).sendFlit (.timeSync (.request s.time.dtime))
  else s

def timeSyncRequest (s : State) (t1 : Nat) : State :=
  if s.pair.guyOut then s.sendFlit (.timeSync (.reply t1 s.time.dtime s.time.dtime)) else s

/-- The partner's correction. The rate that removes a small offset is not stated: a free value of at most 100 ppm, against its sign. -/
def timeSyncReply (s : State) (t1 t2 t3 : Nat) : State :=
  if s.pair.guyOut ∨ s.pair.syncT1 ≠ some t1 then s
  else
    let o : Int := (((t1 : Int) - t2) + ((s.time.dtime : Int) - t3)).tdiv 2
    let s1 := ({ s with pair := { s.pair with syncT1 := none } }).setFld .plk F.PLK_TIME_OFFSET_NS
      (toBits 32 (clamp (-2147483648) 2147483647 o))
    let s2 := s1.setFld .tim F.TIM_BS_DISCIPLINED 1
    if s.fld .plk F.PLK_CFG_TIME_STEP_US * 1000 < o.natAbs then
      let s3 := { s2 with time := { s2.time with dtime := toBits 64 ((s2.time.dtime : Int) - o) } }
      ((s3.event .plk 8).pairDisagree 6).clearBridged
    else
      let (v, s3) := s2.takeFree
      let rate : Int := if o = 0 then signed 18 (s.fld .tim F.TIM_TRIM_PPB) else -(o.sign * ((v % 100001 : Nat) : Int))
      let s4 := s3.setFld .tim F.TIM_TRIM_PPB (toBits 18 rate)
      if o.natAbs ≤ 1000 then s4.clearBridged else s4

/-- The partner's frame number and phase error follow the marker of line 0, clock 0 (R393). -/
def timeSyncFrame (s : State) (n seq ta : Nat) : State :=
  let d := s.disp n
  let s0 := { s with pair := { s.pair with partnerZero := Sparse.put s.pair.partnerZero n ta } }
  if s.pair.guyOut then s
  else if !d.running then s0
  else
    match Sparse.find s.pair.lineZero n with
    | none => s0
    | some tb =>
      let t := s.timing n
      let period : Int := ((t.ht * totalLines t d * 1000000 / t.khz : Nat) : Int)
      let diff : Int := (tb : Int) - ta
      -- how many frames the marked line 0 lies from this device's last one, to the nearest
      let k : Int := if period = 0 then 0 else (2 * diff + period) / (2 * period)
      let headland := d.fresh || decide (t.va ≤ d.line)
      let num := toBits 32 ((seq : Int) + k + (if headland then 1 else 0))
      let e : Int := ((diff - k * period) * ((t.khz : Int) * 1000)).tdiv 1000000000
      let s1 := s0.setFld (.scn n) F.SCN_SEQ_SEQ num
      { s1 with pair := { s1.pair with frameErr := Sparse.put s1.pair.frameErr n e } }

/-- A decision of Adaptive-Sync on the token holder (R393). -/
def timeSyncVrr (s : State) (n seq line : Nat) (proceed : Bool) : State :=
  if s.pair.guyOut then s
  else
    let old := s.pair.vrrFlits.filter fun f => f.1 != n || f.2.1 == seq
    { s with pair := { s.pair with vrrFlits := old ++ [(n, seq, line, proceed)] } }

/-! ## Commits over the link (R200, R201, R390) -/

/-- RECORD: the armed copy is stored; the last piece is acknowledged HELD. -/
def armRecord (s : State) (recNo g fn : Nat) (entries : List (Nat × Nat × Nat)) (fin : Bool) : State :=
  let old := (s.pair.held.find? fun r => r.recNo == recNo).map HeldRecord.entries
  let words := old.getD [] ++ entries
  let pages := if fn = releaseFn then (words.map fun e => e.1 / 0x1000 * 0x1000).eraseDups else s.pageSet g fn
  let r : HeldRecord := ⟨recNo, g, fn, words, pages, fin⟩
  let s1 := { s with pair := { s.pair with
    held := (s.pair.held.filter fun x => x.recNo != recNo) ++ [r]
    nextRec := if fin then (recNo + 1) % 2 ^ 32 else s.pair.nextRec } }
  if fin then s1.sendFlit (.commitAck 0 recNo 0) else s1

/-- The commit that a held record stands for. -/
def heldCommit (s : State) (r : HeldRecord) (frame : Nat) : Commit :=
  let words := r.entries.map entryKey
  let rel := if r.fn = releaseFn then
      (List.range 128).find? fun i => words.any fun e => e.1 == (Page.slot (i / 16) (i % 16)).key F.SLOT_BUF_BUFFER.off else none
  ⟨r.recNo, none, 0, r.fn, r.group, none, words, r.pages, .applying, frame, s.groupOutputs r.group, false, none, rel, 0, false⟩

/-- APPLY S: fences are taken, and the values move at the latch point of S, or of the next frame when S has passed. -/
def armApply (s : State) (recNo frame : Nat) : State :=
  match s.pair.held.find? fun r => r.recNo == recNo && r.final with
  | none => s
  | some r =>
    let s1 := { s with pair := { s.pair with held := s.pair.held.filter fun x => x.recNo != recNo } }
    match s1.leadOf r.group with
    | none =>
      let c := s1.heldCommit r 0xFFFF_FFFF
      let s2 := { s1 with display := { s1.display with commits := s1.display.commits ++ [c] } }
      (s2.applyAtOnce c).sendFlit (.commitAck 1 recNo frame)
    | some n =>
      let cur := s1.fld (.scn n) F.SCN_SEQ_SEQ
      let late := decide ((cur + 2 ^ 32 - frame) % 2 ^ 32 < 2 ^ 31)
      let f := if late then (cur + 1) % 2 ^ 32 else frame
      let c := s1.heldCommit r f
      let s2 := { s1 with display := { s1.display with commits := s1.display.commits ++ [c] } }
      let s3 := (s2.takeResources c).sendFlit (.commitAck 1 recNo f)
      if late then s3.noteSkew n frame else s3

def armDrop (s : State) (recNo : Nat) : State :=
  { s with pair := { s.pair with held := s.pair.held.filter fun x => x.recNo != recNo } }

/-- HELD: the commit is ready (R198). -/
def ackHeld (s : State) (recNo : Nat) : State :=
  match s.display.commits.find? fun c => c.cno == recNo && c.stage == .sent with
  | some c => ((s.putCommit { c with stage := .waiting }).applyLeadless).wakeReleases
  | none => s

/-- APPLIED: a later frame than that of APPLY is a disagreement on state for one frame. -/
def ackApplied (s : State) (recNo frame : Nat) : State :=
  match s.pair.applySent.find? fun p => p.1 == recNo with
  | some (_, n, f) =>
    let s1 := { s with pair := { s.pair with applySent := s.pair.applySent.filter fun p => p.1 != recNo } }
    if f ≠ frame then s1.noteSkew n f else s1
  | none => s

/-! ## Frame digests (R400 to R402) -/

/-- Digests are kept until both devices' are there; the newest sixteen of each device suffice. -/
def keepDigest (l : List (Digest × Nat)) (d : Digest) (due : Nat) : List (Digest × Nat) := (l ++ [(d, due)]).drop (l.length + 1 - 16)

/-- Mask of the regions of output n whose count of consecutive mismatches has reached LIMIT: they act (R261). -/
def dueRegions (s : State) (n : Nat) (run : Nat → Nat) : Nat :=
  let v := s.frameView n
  ((List.range 16).map fun j => b2n (decide (max 1 (v.fld (.chk n) F.CHK_CTRL_LIMIT [j]) ≤ run j)) * 2 ^ j).sum

/-- The consecutive mismatches of the partner's regions, after its digest of a frame. -/
def partnerRuns (s : State) (d : Digest) : Store Nat :=
  (List.range 16).foldl (fun m j =>
    let k := d.out * 16 + j
    if bit j d.bad then Sparse.put m k (satAdd 8 (Sparse.get (fun _ => 0) m k) 1)
    else if bit j d.active then Sparse.del m k else m) s.pair.partnerRuns

/-- R402 for the regions with ACTION 2 that mismatched on one device only and act there; a mask names the acting ones of each device. -/
def regionDisagree (s : State) (own other : Digest) (ownDue otherDue : Nat) : State :=
  let mine := (List.range 16).any fun j => bit j own.bad && bit j ownDue && !bit j other.bad && bit j other.active
  let theirs := (List.range 16).any fun j => bit j other.bad && bit j otherDue && !bit j own.bad && bit j own.active
  let s1 := if mine ∨ theirs then s.pairDisagree 9 own.out else s
  if mine then
    let s2 := s1.reportContained .plk 0x1002 (9 + own.out * 2 ^ 8)
    if s2.pair.state = .active ∧ s2.pair.pState = 4 ∧ s2.pair.handover = 0 then
      ({ s2 with pair := { s2.pair with resyncAfter := true } }).startHandover
    else s2.resyncCause
  else s1

/-- Compare the digests of one frame. -/
def compareDigests (s : State) (own other : Digest) : State :=
  let n := own.out
  if own.value = other.value then
    let s2 := s.setFld .plk F.PLK_FRAME_RUN_RUN 0 [n]
    { s2 with pair := { s2.pair with mismatched := s2.pair.mismatched.filter (· != n) } }
  else
    let s2 := { s with pair := { s.pair with mismatched := if s.pair.mismatched.contains n then s.pair.mismatched else s.pair.mismatched ++ [n] } }
    if own.flags ≠ 0 ∨ other.flags ≠ 0 then s2.satFld .plk F.PLK_FRAME_EXPLAINED_COUNT 1 [n]
    else
      let s3 := (s2.satFld .plk F.PLK_FRAME_RUN_RUN 1 [n]).satFld .plk F.PLK_FRAME_RUN_TOTAL 1 [n]
      let s4 := s3.pairDisagree 7 n
      let limit := s4.fld .plk F.PLK_CFG_STATE_LIMIT
      if limit ≠ 0 ∧ limit ≤ s4.fld .plk F.PLK_FRAME_RUN_RUN [n] then s4.resyncCause else s4

/-- Compare what has arrived on both sides, from the second frame after SYNC_DONE (R397). -/
def matchDigest (s : State) (n frame : Nat) : State :=
  let same := fun (d : Digest × Nat) => d.1.out == n && d.1.frame == frame
  match s.pair.ownDigests.find? same, s.pair.partnerDigests.find? same with
  | some own, some other =>
    -- a digest that arrives after the end of the next frame decides nothing about regions (R402)
    let late := s.pair.ownDigests.any fun d => d.1.out == n && d.1.frame == (frame + 1) % 2 ^ 32
    let s1 := { s with pair := { s.pair with
      ownDigests := s.pair.ownDigests.filter fun d => !same d
      partnerDigests := s.pair.partnerDigests.filter fun d => !same d
      skewed := s.pair.skewed.filter fun p => p.1 != n || p.2 != frame } }
    (if late then s1 else s1.regionDisagree own.1 other.1 own.2 other.2).compareDigests own.1 other.1
  | _, _ => s

/-- The device computes digests: ACTIVE, SYNCING or STANDBY (R400). -/
def digests (s : State) : Bool := s.paired && (s.pair.state == .active || s.pair.state == .syncing || s.pair.state == .standby)

/-- A frame of output n has ended with its digest: it is shown, sent and compared. -/
def ownDigest (s : State) (d : Digest) : State :=
  if !s.digests then s
  else
    let s1 := (s.setFld .plk F.PLK_FRAME_DIGEST_DIGEST d.value [d.out]).setFld .plk F.PLK_FRAME_SEQ_SEQ d.frame [d.out]
    let skew := s.pair.skewed.contains (d.out, d.frame)
    let partner := s.pair.state != .active
    let d1 := { d with
      flags := d.flags + b2n skew * 2 ^ 4
      refused := if partner then s.pair.refusedCount else 0
      plot := if partner then s.pair.refusedPlot.getD 0 else 0 }
    let count := Sparse.get (fun _ => 0) s.pair.sinceSync d.out + 1
    let due := s.dueRegions d.out fun j => s.fld (.chk d.out) F.CHK_STAT_RUN [j]
    let s2 := if s1.pair.linkUp ∧ !s1.pair.pFallow then s1.sendFlit (.digest d1) else s1
    let s3 := { s2 with pair := { s2.pair with
      sinceSync := Sparse.put s2.pair.sinceSync d.out count
      ownDigests := if 2 ≤ count then keepDigest s2.pair.ownDigests d1 due else s2.pair.ownDigests } }
    s3.matchDigest d.out d.frame

/-- A partner's digest arrives: refused mirror writes first (R387), then the comparison. -/
def partnerDigest (s : State) (d : Digest) : State :=
  if !s.digests then s
  else
    let s1 := if bit 4 d.flags then s.noteSkew d.out d.frame else s
    let more := s.pair.state == .active && decide (s.pair.refusedCount < d.refused)
    let s2 := if more then
        let u := ({ s1 with pair := { s1.pair with refusedCount := d.refused, refusedPlot := some d.plot } }).recErr .plk 0x0201 d.plot
        (u.event .plk 6).pairDisagree 8 0 d.plot
      else s1
    let runs := s2.partnerRuns d
    let due := s2.dueRegions d.out fun j => Sparse.get (fun _ => 0) runs (d.out * 16 + j)
    ({ s2 with pair := { s2.pair with
      partnerRuns := runs, partnerDigests := keepDigest s2.pair.partnerDigests d due } }).matchDigest d.out d.frame

/-! ## Forming the ordered stream (R382, R385, R386) -/

/-- Merge the pool items that continue the head of the stream: at most 14 words of one plot, in order, of one attribute. -/
def poolRun (plot fn : Nat) (world : Bool) (next room : Nat) : List MirrorItem → Nat
  | .pool _ p w k f wo :: r => if p = plot ∧ f = fn ∧ wo = world ∧ w = next ∧ k ≤ room then 1 + poolRun plot fn world (next + k) (room - k) r else 0
  | _ => 0

/-- Words of an item. -/
def itemWords : MirrorItem → Nat
  | .pool _ _ _ k _ _ => k
  | _ => 0

/-- Read words of a plot for the partner: data, and whether each is poisoned or cannot be delivered (R293, R296). -/
def mirrorRead (s : State) (plot word : Nat) : Nat → List (Nat × Bool) × State
  | 0 => ([], s)
  | k + 1 =>
    let (w, st, s1) := s.readWord ⟨0x41, true, 3, 4, false, false⟩ (s.plotAddr plot + 16 * word)
    let (l, s2) := s1.mirrorRead plot (word + 1) k
    ((w, st != 0) :: l, s2)

/-- POISON bits. -/
def poisonBits (l : List (Nat × Bool)) : Nat := (l.zipIdx.map fun p => b2n p.1.2 * 2 ^ p.2).sum

/-- A flit of the ordered stream has been formed. -/
def sentOne (s : State) (f : Flit) (item : Option MirrorItem) (rest : List MirrorItem) (items words : Nat) : State :=
  let s1 := { s with pair := { s.pair with
    ordered := rest, resyncItems := s.pair.resyncItems - items, sentOrdered := (s.pair.sentOrdered + 1) % 2 ^ 32 } }
  (s1.sendNow f item).addCnt .plk F.PLK_MIRROR_WORDS_LO_COUNT_LO F.PLK_MIRROR_WORDS_HI_COUNT_HI words

/-- Form a flit of step 5 of R396: the data of a plot is read when its first flit is formed. -/
def sendSync (s : State) : State :=
  match s.pair.resyncPlots with
  | [] => s
  | p :: r =>
    let (ws, s1) := if s.pair.syncWords = [] then s.mirrorRead p 0 4096 else (s.pair.syncWords, s)
    let now := ws.take 14
    let left := ws.drop 14
    let e := s1.ownEntry p
    let s2 := { s1 with pair := { s1.pair with syncWords := left, resyncPlots := if left = [] then r else p :: r } }
    s2.sentOne (.mirror (.pool p (4096 - ws.length) (bits 7 0 e) (bit 8 e) (s1.fnCrit (bits 7 0 e)) (poisonBits now) (now.map Prod.fst))) none s2.pair.ordered 0 now.length

/-- The token holder forms the next flit of the ordered stream. -/
def mirrorSend (s : State) : State :=
  if !s.activeLinked ∨ s.asleep ∨ s.pair.recovering ∨ s.pair.pFallow ∨ 512 ≤ s.pair.replay.length ∨ s.pair.control ≠ [] then s
  else
    match s.pair.ordered with
    | [] => s.sendSync
    | .pool buf plot word k fn world :: r =>
      if s.pair.syncWords ≠ [] ∧ s.pair.resyncPlots.head? = some plot then s.sendSync
      else
        let more := poolRun plot fn world (word + k) (14 - k) r
        let total := k + ((r.take more).map itemWords).sum
        let (ws, s1) := s.mirrorRead plot word total
        let same := (r.take more).all fun x => match x with | .pool b _ _ _ _ _ => b == buf | _ => false
        if same then
          s1.sentOne (.mirror (.pool plot word fn world (s1.fnCrit fn) (poisonBits ws) (ws.map Prod.fst))) (some (.pool buf plot word total fn world))
            (r.drop more) (1 + more) total
        else
          let one := ws.take k
          s1.sentOne (.mirror (.pool plot word fn world (s1.fnCrit fn) (poisonBits one) (one.map Prod.fst))) (some (.pool buf plot word k fn world)) r 1 k
    | .reg addr val latch sel fn world :: r =>
      s.sentOne (.mirror (.reg fn world (s.fnCrit fn) [(addr, val, latch, sel)])) none r 1 1
    | .record op params plots wait :: r =>
      let item := MirrorItem.record op params plots wait
      if plots.length ≤ 40 then
        s.sentOne (.mirror (.record op params plots true)) (some item) r 1 ((params.length + 3) / 4 + (plots.length + 3) / 4)
      else
        s.sentOne (.mirror (.record op params (plots.take 40) false)) none (.record op params (plots.drop 40) wait :: r) 0 14
    | .marker fin :: r => s.sentOne (.mirror (.marker fin)) none r 1 0
    | .arm stage recNo frame g fn es :: r =>
      if stage = 0 ∧ 14 < es.length then
        s.sentOne (.commitArm 0 recNo 0 g fn (es.take 14) false) none (.arm 0 recNo 0 g fn (es.drop 14) :: r) 0 0
      else
        let s1 := if stage = 1 then
            { s with pair := { s.pair with applySent := s.pair.applySent ++ [(recNo, (s.leadOf g).getD 0, frame)] } } else s
        s1.sentOne (.commitArm stage recNo frame g fn es true) none r 1 0

/-! ## FALLOW and wakes (R404) -/

/-- WAKE with SUB 1 or 2: the partner has woken, or has failed to. -/
def wakeReport (s : State) (sub arg : Nat) : State :=
  if sub = 1 then { s with pair := { s.pair with pFallow := false } }
  else if sub = 2 then ({ s with pair := { s.pair with wakeReason := arg % 256 } }).event .plk 7
  else s

/-! ## PLK registers (R370, R375, R381, R403) -/

/-- PLK_CTRL: HANDOVER, RESYNC, RETRAIN, CLEAR_GUY_FAULT, in this order. -/
def plkCtrlWrite (a : RegAcc) (s : State) : State :=
  let g := fun (f : Fld) => s.grants a f
  let s0 := s.recRefused a
  let s1 := if g F.PLK_CTRL_HANDOVER then s0.handoverWrite a else s0
  let s2 := if g F.PLK_CTRL_RESYNC then
      (if s1.pair.guyOut ∨ !s1.paired then s1.recAcc a 0x000A
       else if s1.pair.state = .standby then s1.resyncCause else s1.askJoin)
    else s1
  let s3 := if g F.PLK_CTRL_RETRAIN then s2.startRecovery else s2
  if g F.PLK_CTRL_CLEAR_GUY_FAULT then { s3 with pair := { s3.pair with guyFault := false, guyDiffer := 0 } } else s3

/-- Start-up has loaded the pair configuration (R370, R375): the device waits for the token. -/
def pairStart (s : State) : State :=
  let s1 := { s with pair := { s.pair with state := .waiting, guyOut := false, wasAsserted := false } }
  ((s1.setFld .plk F.PG_CTRL_ENABLE 1).setFld .plk F.PG_STAT_ENABLED 1).followPartner.waitingStep

/-- PLK ENABLE = 0: SOLO, GUY_OUT released, the link idle, every output driven (R370, R372). -/
def pairStop (s : State) : State :=
  let was := s.standby
  let s1 := s.dropLink
  let s2 := ((s1.setFld .plk F.PG_CTRL_ENABLE 0).setFld .plk F.PG_STAT_ENABLED 0).goSolo
  let s3 := { s2 with pair := { s2.pair with guyOut := false, held := [], collision := false, backoff := false } }
  if was then s3.releaseKept.startRole true else s3

/-- ENABLE of PLK once start-up has ended: the normal world is refused, and a write of 1 has no effect (R370). -/
def plkEnable (a : RegAcc) (on : Bool) (s : State) : State :=
  if on ∨ !a.req.secure then s.recAcc a 0x000A else s.pairStop

def plkReset (a : RegAcc) (s : State) : State :=
  if !a.req.secure then s.recAcc a 0x000A else s.pairStop.resetPage .plk

def isPlkCtrl (a : RegAcc) : Bool := a.page == .plk && a.off == F.PLK_CTRL_HANDOVER.off

end State

/-! ## The commands -/

def execGuyInEdge (asserted : Bool) (s : State) : Host.Outcome State Fault Refusal := .next (s.guyInEdge asserted)

def execGuyFilterExpiry (s : State) : Host.Outcome State Fault Refusal := .next s.guyFilter

def execCollision (s : State) : Host.Outcome State Fault Refusal := .next s.guyCollision

def execCollisionTimeout (s : State) : Host.Outcome State Fault Refusal := .next s.collisionTimeout

def execCollisionBackoffEnd (s : State) : Host.Outcome State Fault Refusal := .next s.backoffEnd

def execWaitingTimeout (s : State) : Host.Outcome State Fault Refusal := .next s.waitingTimeout

def execPloliaLinkUp (speed width : Nat) (h : FlitHdr) (b : Beat) (s : State) : Host.Outcome State Fault Refusal :=
  .next (s.linkComesUp speed width h b)

def execReplayTimeout (s : State) : Host.Outcome State Fault Refusal := .next s.replayTimeout

def execNullFlit (h : FlitHdr) (s : State) : Host.Outcome State Fault Refusal := .next (s.nullFlit h)

def execHeartbeatSend (s : State) : Host.Outcome State Fault Refusal := .next s.sendBeat

def execHeartbeat (h : FlitHdr) (b : Beat) (slow : Bool) (s : State) : Host.Outcome State Fault Refusal := .next (s.heartbeat h b slow)

def execHeartbeatTimeout (s : State) : Host.Outcome State Fault Refusal := .next s.linkDown

def execJoinRequest (h : FlitHdr) (config : Nat) (s : State) : Host.Outcome State Fault Refusal :=
  .next (s.accept h fun t => t.joinRequest config)

def execJoinAccept (h : FlitHdr) (s : State) : Host.Outcome State Fault Refusal := .next (s.accept h State.joinAccept)

def execJoinRefuse (h : FlitHdr) (reason : Nat) (s : State) : Host.Outcome State Fault Refusal :=
  .next (if reason = 0 then s else s.accept h State.joinRefused)

def execSyncDone (h : FlitHdr) (s : State) : Host.Outcome State Fault Refusal := .next (s.accept h State.syncDone)

def execResyncSendDone (s : State) : Host.Outcome State Fault Refusal := .next s.resyncSent

def execHandoverOffer (h : FlitHdr) (count : Nat) (s : State) : Host.Outcome State Fault Refusal :=
  .next (s.accept h fun t => t.handoverOffer count)

def execHandoverRefusal (h : FlitHdr) (reason : Nat) (s : State) : Host.Outcome State Fault Refusal :=
  .next (s.accept h fun t => t.handoverRefused reason)

def execPlkHandover (w : RegWr) (s : State) : Host.Outcome State Fault Refusal :=
  .next (s.accessAt w (fun a => State.isPlkCtrl a && bit 0 a.val) State.plkCtrlWrite)

def execHandoverDrained (s : State) : Host.Outcome State Fault Refusal := .next s.handoverDrained

def execHandoverDrainTimeout (s : State) : Host.Outcome State Fault Refusal := .next s.handoverTimeout

def execPlkResync (w : RegWr) (s : State) : Host.Outcome State Fault Refusal :=
  .next (s.accessAt w (fun a => State.isPlkCtrl a && bit 1 a.val) State.plkCtrlWrite)

def execPlkRetrain (w : RegWr) (s : State) : Host.Outcome State Fault Refusal :=
  .next (s.accessAt w (fun a => State.isPlkCtrl a && bit 2 a.val) State.plkCtrlWrite)

def execPlkClearGuyFault (w : RegWr) (s : State) : Host.Outcome State Fault Refusal :=
  .next (s.accessAt w (fun a => State.isPlkCtrl a && bit 3 a.val) State.plkCtrlWrite)

def execTimeSyncDue (s : State) : Host.Outcome State Fault Refusal := .next s.timeSyncDue

def execTimeSyncRequest (h : FlitHdr) (t1 : Nat) (s : State) : Host.Outcome State Fault Refusal :=
  .next (s.accept h fun t => t.timeSyncRequest t1)

def execTimeSyncReply (h : FlitHdr) (t1 t2 t3 : Nat) (s : State) : Host.Outcome State Fault Refusal :=
  .next (s.accept h fun t => t.timeSyncReply t1 t2 t3)

def execTimeSyncFrame (h : FlitHdr) (out seq ta : Nat) (s : State) : Host.Outcome State Fault Refusal :=
  .next (s.accept h fun t => t.timeSyncFrame out seq ta)

def execTimeSyncVrr (h : FlitHdr) (out seq line : Nat) (proceed : Bool) (s : State) : Host.Outcome State Fault Refusal :=
  .next (s.accept h fun t => t.timeSyncVrr out seq line proceed)

def execCommitAckHeld (h : FlitHdr) (recNo : Nat) (s : State) : Host.Outcome State Fault Refusal :=
  .next (s.accept h fun t => t.ackHeld recNo)

def execCommitAckApplied (h : FlitHdr) (recNo frame : Nat) (s : State) : Host.Outcome State Fault Refusal :=
  .next (s.accept h fun t => t.ackApplied recNo frame)

def execStateDigest (h : FlitHdr) (d : Digest) (s : State) : Host.Outcome State Fault Refusal :=
  .next (s.accept h fun t => t.partnerDigest d)

def execFlitCrcFailure (crc : Bool) (reserved : Option FlitHdr) (s : State) : Host.Outcome State Fault Refusal :=
  .next (s.badFlit crc reserved)

def execPloliaRecoveryDone (s : State) : Host.Outcome State Fault Refusal := .next s.recoveryDone

def execMirrorFlitSend (s : State) : Host.Outcome State Fault Refusal := .next s.mirrorSend

end Sys2Proof.Machine
end

