-- ==== Sys2Proof/Machine/Frame.lean ====
section
/-! DEFINITION. The end of a frame (R191, R217, R219, R245, R400), and with it the IDLE power state, which stops outputs at
their frame ends and restarts them (R407, R409, R410, R418). -/

namespace Sys2Proof.Machine

/-- Code of a state in PWR_STAT.STATE, BLOCK_STAT and the residency registers. -/
def PowerState.code : PowerState → Nat
  | .run => 0
  | .idle => 1
  | .fallow => 2
  | .holdup => 3
  | .off => 4
  | .stopped => 4

namespace State

/-! ## Power states and requests -/

/-- Enter a power state: its codes and its residency entry (R407, R418). -/
def enterPower (s : State) (st : PowerState) : State :=
  let s1 := { s with power := { s.power with state := st } }
  if st = .stopped then s1
  else
    ((s1.setFld .pwr F.PWR_STAT_STATE st.code).setFld .pwr F.PWR_BS_STATE st.code).satFld .aon F.AON_RES_HI_ENTRIES 1 [st.code]

/-- ERR_INFO of 0x1101 (R409). -/
def refusedInfo (reason target fn : Nat) : Nat := reason + target * 2 ^ 4 + fn * 2 ^ 16

/-- A request ends: code, BUSY and the event (R409). -/
def endRequest (s : State) (code info : Nat) : State :=
  let s1 := { s with power := { s.power with req := none } }
  let s2 := (s1.setFld .pwr F.PWR_REQ_STAT_CODE code).setFld .pwr F.PWR_REQ_STAT_BUSY 0
  (if code = 0 then s2 else s2.recErr .pwr code info).event .pwr 0

/-- The request that runs, when it is for a state. -/
def entering (s : State) (target : Nat) : Bool := match s.power.req with | some r => r.target == target | none => false

/-- The outputs whose scan-out runs. -/
def runningOutputs (s : State) : List Nat := (List.range 8).filter fun n => (s.disp n).running

/-! ## IDLE (R410) -/

/-- IDLE entry completes once every output has stopped: the pipe and scan-out islands are gated. -/
def idleCheck (s : State) : State :=
  if s.entering 1 ∧ s.runningOutputs = [] then
    (({ s with power := { s.power with stateGated := (List.range 8).map (· + 10) } }).enterPower .idle).endRequest 0 0
  else s

/-- Restart the outputs that a state stopped: R216 from step 3, with SCN_SEQ continued. -/
def restartOutputs (s : State) : State :=
  let s1 := (s.power.ranOutputs.filter fun n => !(s.disp n).running).foldl (fun t n =>
    (t.setDisp n { t.disp n with starting := true, resumed := true }).setFld (.scn n) F.SCN_BS_PLL_LOCKED 1) s
  { s1 with power := { s1.power with ranOutputs := [] } }

/-- IDLE exit. -/
def idleExit (s : State) : State :=
  if s.power.state = .idle then
    (({ s with power := { s.power with stateGated := [] } }).restartOutputs).enterPower .run
  else s

/-- IDLE entry begins: the outputs that run stop at their next FRAME_DONE. -/
def idleEntry (s : State) : State :=
  ({ s with power := { s.power with ranOutputs := s.runningOutputs } }).idleCheck

/-! ## What a frame leaves (R160, R182, R230 to R233, R260, R400) -/

/-- Publish the counts of the frame that ends. -/
def publishFrame (s : State) (n : Nat) : State :=
  let d := s.disp n
  let t := s.timing n
  let s1 := (((s.setFld (.scn n) F.SCN_SHED_SPANS_COUNT d.shedSpans).setFld (.scn n) F.SCN_UNDERRUN_SPANS_COUNT d.underruns).setFld
    (.scn n) F.SCN_DROP_SPANS_COUNT d.drops).setFld (.scn n) F.SCN_LAST_VTOTAL_LINES (totalLines t d)
  let s2 := (s1.setFld (.scn n) F.SCN_SHED_STAT_ANY (b2n d.shedMax.isSome)).setFld (.scn n) F.SCN_SHED_STAT_MAX_CLASS (d.shedMax.getD 0)
  let s3 := s2.setFld (.scn n) F.SCN_CREDIT_MIN_CLOCKS (min (d.creditMin.getD 0xFFFF) 0xFFFF)
  let s4 := ((s3.setFld (.pipe n) F.PIPE_SPANS_2P_COUNT d.twoPass).setFld (.pipe n) F.PIPE_ELIM_COUNT d.eliminated).addFld
    (.pipe n) F.PIPE_FRAMES_COUNT 1
  let s5 := (List.range 16).foldl (fun u k =>
    let live := b2n (d.live.contains k)
    ((u.setFld (.slot n k) F.SLOT_STAT_LIVE live).setFld (.slot n k) F.SLOT_BS_LIVE live).setFld (.slot n k) F.SLOT_SUBST_SPANS
      (Sparse.get (fun _ => 0) d.subst k)) s4
  let mask := fun (p : Nat → Bool) => ((List.range 16).map fun j => b2n (p j) * 2 ^ j).sum
  let s6 := (List.range 16).foldl (fun u j =>
    if d.regions.contains j then u else u.setFld (.chk n) F.CHK_STAT_RESULT 0 [j]) s5
  let s7 := (s6.setFld (.chk n) F.CHK_SUMMARY_MISMATCH (mask fun j => Sparse.find d.results j == some 2)).setFld (.chk n)
    F.CHK_SUMMARY_ACTIVE (mask fun j => d.regions.contains j)
  if d.regions = [] then s7 else s7.setFld (.chk n) F.CHK_SEQ_SEQ (s.fld (.scn n) F.SCN_SEQ_SEQ)

/-- The frame digest of the frame that ends, with its flags and region masks (R400). -/
def frameDigest (s : State) (n : Nat) : Digest :=
  let d := s.disp n
  let t := s.timing n
  let v := s.frameView n
  let seq := s.fld (.scn n) F.SCN_SEQ_SEQ
  let act2 := fun (j : Nat) => v.fld (.chk n) F.CHK_CTRL_ACTION [j] == 2
  let mask := fun (p : Nat → Bool) => ((List.range 16).map fun j => b2n (p j) * 2 ^ j).sum
  { out := n, frame := seq
    value := regionValue seq (rectWords d.lines (v.flag (.pipe n) F.PIPE_CTRL_DEPTH8) 0 0 t.ha t.va)
    flags := b2n (d.shedSpans != 0) + b2n (d.underruns != 0) * 2 + b2n (d.drops != 0) * 4 + b2n (!d.handed.isEmpty) * 8
    bad := mask fun j => act2 j && Sparse.find d.results j == some 2
    active := mask fun j => act2 j && d.regions.contains j
    refused := 0, plot := 0 }

/-! ## Mirrored words that wait for their latch frame (R388) -/

/-- Store a mirrored register word as the partner wrote it: every writable field of the word takes its value. -/
def mirrorStore (s : State) (key val : Nat) : State :=
  match pageOfKey key with
  | none => s
  | some pg =>
    let a : RegAcc := ⟨pg, key % 0x1000, ⟨0x41, true⟩, val, false⟩
    if a.off = 0x008 then
      let s1 := plainEnable pg (bit 0 val) s
      (if bit 3 val then s1.setFld pg F.PG_CTRL_LOCK 0 else if bit 2 val then s1.setFld pg F.PG_CTRL_LOCK 1 else s1)
    else if a.off = 0x02C then s.ownerApply pg (ownerBits val)
    else if isChkOwner a then s.chkOwnerTaken a
    else (pg.fieldsAt a.off).foldl (applyField a) s

/-- The mirrored words of output n whose latch frame has come. -/
def takeMirrored (s : State) (n seq : Nat) : State :=
  let due := fun (x : Nat × Nat × Nat) => outputOf x.1 == n && (x.2.2 == seq || decide ((seq + 2 ^ 32 - x.2.2) % 2 ^ 32 < 2 ^ 31))
  let s1 := (s.pair.latched.filter due).foldl (fun t x => t.mirrorStore x.1 x.2.1) s
  { s1 with pair := { s1.pair with latched := s1.pair.latched.filter fun x => !due x } }

/-! ## FRAME_DONE -/

/-- The first frame of an early image that its link has taken whole: SYS_BOOT_TIME.EARLY_MS (R467). -/
def noteEarly (s : State) (n : Nat) : State :=
  match Sparse.find s.faults.early n with
  | some e =>
    if e.shown ∨ !(s.dpl n).video then s
    else
      let ms := (s.now - s.faults.releasedAt) / 1000000
      ({ s with faults := { s.faults with early := Sparse.put s.faults.early n { e with shown := true } } }).setFld .sys
        F.SYS_BOOT_TIME_EARLY_MS (min 0xFFFF (max ms (s.fld .sys F.SYS_BOOT_TIME_EARLY_MS)))
  | none => s

/-- An early image whose link, once trained, cannot carry its video (R240): its entry is skipped and logged, and the output stands (R466). -/
def earlyRefused (s : State) (n : Nat) : State :=
  match Sparse.find s.faults.early n with
  | none => s
  | some e =>
    if e.shown ∨ !(s.dpl n).decided ∨ (s.dpl n).video then s
    else
      let act := s.fld .sys F.SYS_EARLY_ACTIVE
      let s1 := ({ s with faults := { s.faults with early := Sparse.del s.faults.early n } }).setFld .sys F.SYS_EARLY_ACTIVE
        (if bit n act then act - 2 ^ n else act)
      let s2 := (((s1.setFld (.scn n) F.PG_CTRL_ENABLE 0).standStill n).stopNow n).logInfo .sys 0x0A03 n
      (s2.destroyChan e.chan none).2

/-- The stop that a contained fault asked of output n has happened: it starts again only once OUT_STOP has been written again (R472). -/
def dropContain (s : State) (n : Nat) : State :=
  ({ s with faults := { s.faults with
      containStop := s.faults.containStop.filter (· != n), stopped := s.faults.stopped ++ [(Page.scn n).base] } }).setFld (.scn n) F.PG_CTRL_ENABLE 0

/-- The output stops at this FRAME_DONE: on the way to IDLE it stays ready to continue, a stop by the manager or by a contained fault
ends it (R217, R410, R472). -/
def frameStop (s : State) (n : Nat) (keep contained : Bool) : State :=
  let s1 := if keep then s.enterReplay n (s.disp n).lines else s
  let s2 := s1.stopNow n
  let s3 := if keep then s2.setDisp n { s2.disp n with resumed := true } else s2.dropRan n
  (if contained then (s3.dropContain n).lanesIdle n else s3).idleCheck

/-- The output goes on: the latch point of the next frame. Its lead is the pipe clocks from this event to clock 0 of line 0 of the next
frame, without added or corrected lines. -/
def frameNext (s : State) (n seq total : Nat) : State :=
  let t := s.timing n
  let still := s.staticFrame n total
  let lead := (t.vt - t.va + 1) * t.clocks - t.ha / 2
  ((((s.takeMirrored n seq).latchPoint n seq lead).replayStep n total still (s.disp n).lines).videoLatch n).earlyRefused n

/-- What the end of a frame makes known: final regions, the frame's counts, its digest, EARLY_MS and the event. -/
def frameResults (s : State) (n : Nat) : State :=
  let s1 := (s.disp n).regions.foldl (fun u j => u.regionFinal n j) s
  let s2 := s1.publishFrame n
  ((s2.ownDigest (s1.frameDigest n)).noteEarly n).event (.scn n) 0

/-- The last active pixel of output n has left stage 12: the frame ends, and the next is latched or scan-out stops. -/
def frameDone (s : State) (n : Nat) : State :=
  let d := s.disp n
  let t := s.timing n
  if !d.running ∨ d.fresh ∨ d.line + 1 ≠ t.va ∨ d.lines.length < t.va then s
  else
    let seq := (s.fld (.scn n) F.SCN_SEQ_SEQ + 1) % 2 ^ 32
    let s1 := s.frameResults n
    let contained := s1.faults.containStop.contains n
    let stopping := contained || (s1.disp n).stopping
    if s1.entering 1 ∨ stopping then s1.frameStop n (s1.entering 1 && !stopping) contained
    else s1.frameNext n seq (totalLines t d)

/-- The scan counter starts: the first latch point, at which a commit that ended IDLE applies (R216, R410). -/
def scanOutStarts (s : State) (n : Nat) : State :=
  let d := s.disp n
  if !d.starting ∨ s.power.state = .fallow ∨ s.power.state = .holdup ∨ !s.aligned n then s
  else
    let s0 := { s with power := { s.power with stateGated := s.power.stateGated.filter (· != 10 + n) } }
    let f := (s.fld (.scn n) F.SCN_SEQ_SEQ + 1) % 2 ^ 32
    let g := s.groupOf n
    let s1 := if d.resumed ∧ (s.leadOf g).isNone then
        s0.applyDecisions f 0 (s0.display.commits.filter fun c => c.group == g) else s0
    let s2 := s1.counterStart n
    ((if d.resumed then s2.exitReplay n else s2).videoLatch n).earlyRefused n

/-- Carry out a COMMIT command; in IDLE, arming it ends IDLE (R408, R410). -/
def commitCommand (c : CmdArgs) (s : State) : State :=
  let s1 := s.carryEntry 0x20 c carryCommit
  if s1.pair.nextRec ≠ s.pair.nextRec then s1.idleExit else s1

end State

/-! ## The commands -/

def execFrameDone (out : Nat) (s : State) : Host.Outcome State Fault Refusal := .next (s.frameDone out)

def execScanOutCounterStart (out : Nat) (s : State) : Host.Outcome State Fault Refusal := .next (s.scanOutStarts out)

def execCommit (c : CmdArgs) (s : State) : Host.Outcome State Fault Refusal :=
  .next (if s.entryWaits c then s.keepEntry 0x20 c else s.commitCommand c)

end Sys2Proof.Machine
end

