-- ==== Sys2Proof/Machine/Restart.lean ====
section
/-! DEFINITION. Device time across sleep and restart, the MRAM log tail, and the reset scopes (R428 to R431, R463, R475). -/

namespace Sys2Proof.Machine

/-- The plan of a ledger record. -/
def LedgerRecord.mv (r : LedgerRecord) : Store Nat := r.groups.zipIdx.map fun p => (p.2, p.1)

def LedgerRecord.mhz (r : LedgerRecord) : Store Nat := r.islands.zipIdx.map fun p => (p.2, p.1.2.2.1)

/-- Margin state as a device reset leaves it: the ledger stays, the islands run at the plan of its newest record (R438). -/
def Age.restart (a : Age) : Age :=
  let (mv, mhz) : Store Nat × Store Nat := match a.ledger.getLast? with | some r => (r.mv, r.mhz) | none => ([], [])
  { Age.reset with mvNow := mv, mvPlan := mv, mhzNow := mhz, mhzPlan := mhz, caps := a.caps, ledger := a.ledger, hours := a.hours }

namespace State

/-! ## Device time (R429, R431) -/

/-- Capture DTIME and the tick. -/
def captureTime (s : State) : State :=
  if s.time.captured then s
  else
    { s with time := { s.time with dtimeE := s.time.dtime, tickE := s.time.ticks, calE := s.fld .tim F.TIM_CAL_CAL, captured := true } }

/-- Carry DTIME across the time since the capture. -/
def bridgeTime (s : State) : State :=
  if !s.time.captured then s
  else
    let bridged := (s.time.ticks - s.time.tickE) * s.time.calE / 65536
    let un := s.fld .tim F.TIM_UNCERT_US + bridged / 1000 * s.fld .tim F.TIM_DRIFT_PPM / 1000000 + 62
    let s1 := { s with time := { s.time with dtime := (s.time.dtimeE + bridged) % 2 ^ 64, frac := 0, captured := false } }
    ((s1.setFld .tim F.TIM_UNCERT_US (min un 0xFFFF_FFFF)).setFld .tim F.TIM_BS_BRIDGED 1).event .tim 0

/-! ## The log tail (R475) -/

/-- Write the newest 256 entries to the MRAM tail. -/
def writeTail (s : State) : State :=
  let l := s.faults.log
  if l = [] then s else { s with faults := { s.faults with tail := l.drop (l.length - 256) } }

/-- Phase 3 copies the tail into the ring, marked and ahead of the new entries. -/
def recallTail (s : State) : State :=
  let old := s.faults.tail.map fun (e : LogEntry) => { e with prev := true }
  let l := old ++ s.faults.log
  ({ s with faults := { s.faults with log := l } }).setFld .log F.LOG_STAT_COUNT (min l.length 4096)

/-- Phase LIMITED begins: the log is the tail alone, with what this start has logged (R465). -/
def limitLog (s : State) : State :=
  let t := s.recallTail
  let l := t.faults.log.drop (t.faults.log.length - 256)
  ({ t with faults := { t.faults with log := l, tail := l } }).setFld .log F.LOG_STAT_COUNT l.length

/-- Give a word the value that start-up loads into it, which a soft reset gives it again (R46). -/
def setLoaded (s : State) (k v : Nat) : State :=
  ({ s with loaded := Sparse.put s.loaded k (BitVec.ofNat 32 v) }).setRw k v

/-! ## Device reset and AON power-on (R463) -/

/-- Everything outside the AON domain takes its reset value; the MRAM, the flash, the fuses and the AON keep their content. -/
def deviceReset (s : State) (cause : Nat) : State :=
  let t := s.captureTime
  let r := State.reset
  let epoch := t.fld .tim F.TIM_EPOCH_EPOCH
  let s1 : State := { r with
    pending := t.pending, part := t.part, out := t.out, free := t.free, now := t.now
    regs := t.regs.filter fun p => keyPage p.1 == Page.aon.base
    time := { Time.reset with
      dtime := t.time.dtime, ticks := t.time.ticks, tickFrac := t.time.tickFrac
      dtimeE := t.time.dtimeE, tickE := t.time.tickE, calE := t.time.calE, captured := true }
    power := { r.power with
      saveList := t.power.saveList, sram := t.power.sram, recordN := t.power.recordN, consumed := t.power.consumed
      recordOk := t.power.recordOk, slotA := t.power.slotA, slotB := t.power.slotB, alarmArmed := t.power.alarmArmed
      wakeEn := t.power.wakeEn, railMap := t.power.railMap, pmb := t.power.pmb, pmbPage := t.power.pmbPage }
    edac := { r.edac with plotList := t.edac.plotList, bankList := t.edac.bankList }
    age := t.age.restart
    update := { r.update with
      flash := t.update.flash, copy0 := t.update.copy0, copy1 := t.update.copy1
      begun := (t.update.begun ++ t.update.trials).eraseDups, reason := t.update.reason
      fuses := t.update.fuses, burn := t.update.burn, motion := t.update.motion, motionAt := t.update.motionAt
      journal := t.update.journal }
    faults := { r.faults with
      tail := t.faults.tail
      nextLog := match t.faults.tail.getLast? with | some e => (e.seq + 1) % 2 ^ 32 | none => 0
      fatalCount := t.faults.fatalCount, fatalLast := t.faults.fatalLast, restarts := t.faults.restarts
      inReset := true, cause := cause, thermtrip := t.faults.thermtrip }
    pair := { r.pair with guyIn := t.pair.guyIn } }
  s1.setLoaded (Page.tim.key F.TIM_EPOCH_EPOCH.off) epoch

/-- The AON rail rises: the AON domain resets as well, and DTIME starts a new epoch (R431, R463). -/
def aonPowerOn (s : State) : State :=
  let t := s.deviceReset 1
  let e := (t.fld .tim F.TIM_EPOCH_EPOCH + 1) % 65536
  let s1 : State := { t with
    regs := []
    time := Time.reset
    power := { Power.reset with
      recordN := t.power.recordN, consumed := t.power.consumed, recordOk := t.power.recordOk
      slotA := t.power.slotA, slotB := t.power.slotB, railMap := t.power.railMap }
    faults := { t.faults with fatalCount := 0, restarts := [], thermtrip := false } }
  (s1.setLoaded (Page.tim.key F.TIM_EPOCH_EPOCH.off) e).event .tim 2

end State

end Sys2Proof.Machine
end

