-- ==== Sys2Proof/Machine/Update.lean ====
section
/-! DEFINITION. Firmware and microcode update: the flash, the boot record, sessions and their commands, trials and their end,
fuses, microcode in place (R447 to R462). -/

namespace Sys2Proof.Machine

/-- What an unlisted byte of the flash reads as: erased. -/
def flashDefault (_ : Nat) : Byte := 0xFF

/-- Base and size of the location of an image (R450): by kind and location. -/
def flashPlace (kind loc : Nat) : Nat × Nat :=
  if kind = 1 then (0x0010_0000 + loc * 0x0100_0000, 0x0100_0000)
  else if kind = 2 then (0x0210_0000 + loc * 0x0040_0000, 0x0040_0000)
  else if kind = 3 then (0x0290_0000 + loc * 0x0020_0000, 0x0020_0000)
  else (0x02D0_0000, 0x0010_0000)

/-- Longest body of a kind (R447). -/
def bodyMax (kind : Nat) : Nat :=
  if kind = 1 then 16776960 else if kind = 2 then 4194048 else if kind = 3 then 2096896 else 524288

/-- Largest value of the fuse counter of a kind (R447). -/
def fuseMax (kind : Nat) : Nat := if kind = 1 then 64 else 32

/-- The entry of a kind in a boot record. -/
def BootRecord.entry (r : BootRecord) (kind : Nat) : BootEntry :=
  if kind = 1 then r.xiresol else if kind = 2 then r.microcode else r.settings

def BootRecord.setEntry (r : BootRecord) (kind : Nat) (e : BootEntry) : BootRecord :=
  if kind = 1 then { r with xiresol := e } else if kind = 2 then { r with microcode := e }
  else if kind = 3 then { r with settings := e } else r

/-- The WHEN values that R455 allows for a kind. -/
def whenAllowed (kind w : Nat) : Bool :=
  w == 1 || (w == 2 && (kind == 1 || kind == 3)) || (w == 3 && kind != 4)

/-- Targets of microcode in place, in the order of R460: ING0 to ING3, CVU0 to CVU3, DMC, HAP, TCH0, TCH1, AUDIO_DSP. -/
def microTargets : List Nat := List.range 13

namespace State

/-! ## Flash and boot record (R450, R451) -/

def flashByte (s : State) (a : Nat) : Nat := (Sparse.get flashDefault s.update.flash a).toNat

/-- n bytes of the flash, little-endian. -/
def flashN (s : State) (a : Nat) : Nat → Nat
  | 0 => 0
  | n + 1 => s.flashByte a + 256 * s.flashN (a + 1) n

/-- Program bytes; each 64 KiB sector is erased when its first byte is programmed. -/
def program (s : State) (a : Nat) : List Nat → State
  | [] => s
  | b :: r =>
    let f := if a % 65536 = 0 then s.update.flash.filter (fun c => c.1 / 65536 != a / 65536) else s.update.flash
    ({ s with update := { s.update with flash := Sparse.set flashDefault f a (BitVec.ofNat 8 b) } }).program (a + 1) r

/-- The boot record that the Stake uses: the copy whose CRC holds and whose sequence number is higher. -/
def boot (s : State) : BootRecord :=
  let a := s.update.copy0
  let b := s.update.copy1
  if b.crcOk ∧ (!a.crcOk ∨ a.seq < b.seq) then b.data else a.data

/-- Write the boot record: to the copy with the lower sequence number. -/
def writeBoot (s : State) (r : BootRecord) : State :=
  let a := s.update.copy0
  let b := s.update.copy1
  if a.seq ≤ b.seq then { s with update := { s.update with copy0 := ⟨(b.seq + 1) % 2 ^ 32, true, r⟩ } }
  else { s with update := { s.update with copy1 := ⟨(a.seq + 1) % 2 ^ 32, true, r⟩ } }

/-- SVN and VERSION of the image at a location (R448). -/
def imageSvn (s : State) (kind loc : Nat) : Nat := s.flashN ((flashPlace kind loc).1 + 12) 4

def imageVersion (s : State) (kind loc : Nat) : Nat := s.flashN ((flashPlace kind loc).1 + 8) 4

/-- Fuse counter of a kind. -/
def fuse (s : State) (kind : Nat) : Nat := Sparse.get (fun _ => 0) s.update.fuses kind

/-- R449 on an image of which `staged` bytes are there: the code of the first failure. `genuine` tells whether BODY_HASH and
SIGNATURE hold. -/
def imageFault (s : State) (kind loc staged : Nat) (genuine : Bool) : Option Nat :=
  let b := (flashPlace kind loc).1
  let len := s.flashN (b + 16) 4
  let reserved := s.flashN (b + 6) 2 != 0 || (List.range 88).any fun i => s.flashByte (b + 168 + i) != 0
  let svn := s.imageSvn kind loc
  if s.flashN b 4 ≠ 0x48425355 ∨ s.flashByte (b + 4) ≠ kind ∨ s.flashByte (b + 5) ≠ 1 ∨ reserved ∨ len = 0 ∨ bodyMax kind < len then
    some 0x0006
  else if staged < 256 + len then some 0x0105
  else if !genuine then some 0x0506
  else if kind ≠ 4 ∧ (fuseMax kind < svn ∨ svn < s.fuse kind) then some 0x0507
  else none

/-! ## The session as the page shows it -/

def updStat (s : State) : State :=
  let u := s.update
  let s1 := ((s.setFld .upd F.UPD_STAT_STATE u.state).setFld .upd F.UPD_BS_STATE u.state).setFld .upd F.UPD_STAT_HOLDER (if u.state = 0 then 0 else u.holder)
  (s1.setFld .upd F.UPD_STAT_BUSY (b2n u.running.isSome)).setFld .upd F.UPD_STAGED_BYTES (if u.state = 0 then 0 else u.staged)

def setUpd (s : State) (u : Update) : State := ({ s with update := u }).updStat

/-- End the session: what it staged and did not arm is discarded. -/
def closeSession (s : State) : State := s.setUpd { s.update with state := 0, holder := 0, staged := 0, loading := false }

/-- A session ends without its holder (R452). -/
def loseSession (s : State) : State :=
  if s.update.state = 0 ∨ s.update.state = 4 then s -- APPLYING lasts until the replacement ends (R460)
  else
    let s1 := ({ s with update := { s.update with running := none } }).closeSession
    ((s1.setFld .upd F.UPD_STAT_CODE 0x0007).recErr .upd 0x0007).event .upd 3

/-- A reset of a function ends its session. -/
def updFnReset (s : State) (fn : Nat) : State :=
  if s.update.state ≠ 0 ∧ s.update.holder = fn then s.loseSession else s

/-! ## Refusals (R454) -/

/-- The supply check. -/
def supplyOk (s : State) : Bool := s.flag .pwr F.PWR_STAT_HOLD_READY && decide (4850 ≤ s.fld .aon F.AON_VHOLD_MV)

/-- The motion check. -/
def motionRefuses (s : State) : Bool :=
  let still := s.fld .upd F.UPD_CFG_STILL_S
  s.flag .upd F.UPD_CFG_MOTION_EN
    && (s.update.motion == s.flag .upd F.UPD_CFG_MOTION_HIGH
      || (match s.update.motionAt with | some t => decide (s.now ≤ t + still * 1000000000) && still != 0 | none => false))

def updRefusal (s : State) (secure : Bool) : Option Nat :=
  if s.flag .upd F.UPD_LOCK_LOCK ∧ !secure then some 0x0503
  else if !s.supplyOk then some 0x0502
  else if s.motionRefuses then some 0x0501 else none

/-! ## Trials and fuses (R456) -/

/-- Burn a counter up to an SVN while the supply check passes; otherwise the burn waits for the next start. -/
def burnFuse (s : State) (kind svn : Nat) : State :=
  if s.fuse kind < svn then
    if s.supplyOk then { s with update := { s.update with fuses := Sparse.put s.update.fuses kind svn, burn := Sparse.del s.update.burn kind } }
    else { s with update := { s.update with burn := Sparse.put s.update.burn kind svn } }
  else s

/-- The boot record with the entry of a kind settled: WHEN stays while another kind is armed and has not begun its trial. -/
def settleBoot (s : State) (kind loc : Nat) : State :=
  let r := s.boot
  let armed := [1, 2, 3].any fun k =>
    k != kind && (r.entry k).trial.isSome && !s.update.trials.contains k && !s.update.begun.contains k
  s.writeBoot { r.setEntry kind ⟨loc, none, 0⟩ with when_ := if armed then r.when_ else 0 }

/-- A location becomes the confirmed one of its kind. -/
def confirmImage (s : State) (kind loc : Nat) : State :=
  let s1 := s.settleBoot kind loc
  let s2 := { s1 with update := { s1.update with
    trials := s1.update.trials.filter (· != kind), begun := s1.update.begun.filter (· != kind) } }
  let s3 := if s2.flag .upd F.UPD_CFG_DEFER_FUSE then s2 else s2.burnFuse kind (s2.imageSvn kind loc)
  (s3.event .upd 2).logInfo .upd 0 kind

/-- A trial has failed for good: the confirmed image stands, and the journal says why. -/
def revertImage (s : State) (kind reason : Nat) : State :=
  let s1 := s.settleBoot kind (s.boot.entry kind).confirmed
  let (_, _, n) := s1.update.journal
  let s2 := { s1 with update := { s1.update with
    journal := (reason, kind, min (n + 1) 255)
    trials := s1.update.trials.filter (· != kind), begun := s1.update.begun.filter (· != kind) } }
  ((s2.recErr .upd 0x0505 reason).event .upd 1).logInfo .upd 0x0505 reason

/-- The conditions of confirmation hold. -/
def trialConfirmed (s : State) : State :=
  let st := s.pair.state
  let pairOk := !s.paired || st == .solo || st == .active || st == .standby
  if s.update.trials = [] ∨ !s.ready ∨ !pairOk ∨ s.faults.fatal.isSome ∨ s.faults.releasedAt + 60000000000 < s.now then s
  else s.update.trials.foldl (fun t k =>
    match ((t.boot).entry k).trial with
    | some loc => t.confirmImage k loc
    | none => t) s

/-- 60 s have passed without confirmation: a trial restart. -/
def trialTimeout (s : State) : State :=
  if s.update.trials = [] then s
  else ({ s with update := { s.update with reason := 2 } }).deviceReset 8

/-! ## UPD_CMD (R452, R453, R455) -/

/-- The code of a command's checks at its write; 0 when they pass. -/
def updCheck (s : State) (op fn : Nat) (secure : Bool) (kind w : Nat) : Nat × Nat :=
  let u := s.update
  if op = 0 ∨ 7 ≤ op then (0x0003, 0)
  else if u.state ≠ 0 ∧ u.holder ≠ fn ∧ !(op = 5 ∧ secure) then (0x0504, u.holder * 2 ^ 16)
  else if op = 1 then
    if !s.flag .upd F.PG_CTRL_ENABLE then (0x1301, 0)
    else if u.state ≠ 0 then (0x0504, u.holder * 2 ^ 16)
    else if kind = 0 ∨ 4 < kind then (0x0006, 0)
    else if !(isPf fn || fn == 0x40 || secure) then (0x000A, 0)
    else match s.updRefusal secure with | some c => (c, 0) | none => (0, 0)
  else if op = 2 then
    if u.state ≠ 1 then (0x000A, 0)
    else
      match s.checkBuf fn (s.fld .upd F.UPD_ARG0_VALUE) with
      | .error c => (c, 0)
      | .ok i =>
        let off := s.fld .upd F.UPD_ARG1_VALUE
        let len := s.fld .upd F.UPD_ARG2_VALUE
        let plots := ((s.buf i).map fun b => b.plots.length).getD 0
        if len = 0 then (0x0002, 0)
        else if off ≠ u.staged then (0x0006, 0)
        else if (flashPlace u.kind u.target).2 < off + len then (0x0105, 0)
        else if plots * 65536 < len then (0x0105, 0) else (0, 0)
  else if op = 3 then (if u.state ≠ 1 then (0x000A, 0) else (0, 0))
  else if op = 4 then
    if u.state ≠ 2 then (0x000A, 0)
    else if !whenAllowed u.kind w then (0x0006, 0)
    else if w = 3 ∧ u.kind ≠ 2 ∧ s.paired ∧ s.pair.state = .active ∧ s.pair.pState = 4 then (0x000A, 0)
    else match s.updRefusal secure with | some c => (c, 0) | none => (0, 0)
  else if op = 5 then (if u.state = 0 then (0x000A, 0) else (0, 0))
  else (0, 0)

/-- A write of UPD_CMD. -/
def updCmdWrite (a : RegAcc) (s : State) : State :=
  if s.secFor a F.UPD_CMD_OP ∧ !a.req.secure then s.recRefused a
  else if s.update.running.isSome then s.recAcc a 0x0009
  else
    let op := bits 3 0 a.val
    let kind := bits 6 4 a.val
    let w := bits 9 8 a.val
    let (code, info) := s.updCheck op a.req.fn a.req.secure kind w
    let s1 := s.setUpd { s.update with running := some ⟨op, a.req.fn, a.req.secure, kind, w, code,
      (s.fld .upd F.UPD_ARG0_VALUE, s.fld .upd F.UPD_ARG1_VALUE, s.fld .upd F.UPD_ARG2_VALUE)⟩ }
    if code = 0 then s1 else s1.recErr .upd code info

/-- Bytes of 128-bit words. -/
def wordBytes (ws : List Nat) : List Nat := ws.flatMap fun w => (List.range 16).map fun i => w / 256 ^ i % 256

/-- STAGE: the buffer's bytes go into the target. -/
def stage (s : State) (r : UpdRun) : Nat × State :=
  let (buf, _, len) := r.args
  let who : Attr := ⟨r.fn, r.secure, s.fnCrit r.fn, 8, false, false⟩
  match s.readBuf who buf 0 ((len + 15) / 16) with
  | (.ok ws, s1) =>
    let s2 := s1.program ((flashPlace s1.update.kind s1.update.target).1 + s1.update.staged) ((wordBytes ws).take len)
    (0, s2.setUpd { s2.update with staged := s2.update.staged + len })
  | (.error code, s1) => (code, s1)

/-- ACTIVATE: the boot record is written; an immediate restart follows for WHEN 3 of Xiresol and settings. -/
def activate (s : State) (r : UpdRun) : State :=
  let u := s.update
  if u.kind = 2 ∧ r.when_ = 3 then s.setUpd { u with state := 4, micro := microTargets }
  else
    let b := s.boot
    let rec' := b.setEntry u.kind ⟨(b.entry u.kind).confirmed, some u.target, 2⟩
    let s1 := s.writeBoot { rec' with when_ := r.when_ }
    s1.setUpd { s1.update with state := 3, begun := s1.update.begun.filter (· != u.kind) }

/-- ABORT: an armed activation that has not begun is cleared. -/
def abortSession (s : State) : State :=
  let u := s.update
  if u.state = 4 then s
  else if u.state = 3 then
    (s.settleBoot u.kind (s.boot.entry u.kind).confirmed).closeSession
  else s.closeSession

/-- The end of a command: its outcome, and its effect when every check has passed. -/
def updCmdDone (s : State) (genuine : Bool) : State :=
  match s.update.running with
  | none => s
  | some r =>
    let s0 := { s with update := { s.update with running := none } }
    let u := s0.update
    let (code, s1) : Nat × State :=
      if r.code ≠ 0 then (r.code, s0)
      else if r.op = 1 then
        let target := if r.kind = 4 then 0 else 1 - min 1 (s0.boot.entry r.kind).confirmed
        (0, s0.setUpd { u with state := 1, holder := r.fn, kind := r.kind, target := target, staged := 0 })
      else if r.op = 2 then s0.stage r
      else if r.op = 3 then
        (match s0.imageFault u.kind u.target u.staged genuine with
         | some c => (c, s0)
         | none => (0, s0.setUpd { u with state := 2 }))
      else if r.op = 4 then (0, s0.activate r)
      else if r.op = 5 then (0, s0.abortSession)
      else (0, if u.state = 4 then s0 else s0.closeSession)
    let s2 := if code ≠ 0 ∧ r.code = 0 then s1.recErr .upd code else s1
    let s3 := ((s2.setFld .upd F.UPD_STAT_CODE code).updStat).event .upd 0
    if r.op = 4 ∧ code = 0 ∧ r.when_ = 3 ∧ u.kind ≠ 2 then s3.deviceReset 8 else s3

/-- UPD_LOCK: LOCK is set by a secure write, and UNLOCK clears it. -/
def updLockWrite (a : RegAcc) (s : State) : State :=
  let s1 := s.plainWrite a
  if s.grants a F.UPD_LOCK_UNLOCK then s1.setFld .upd F.UPD_LOCK_LOCK 0 else s1

/-- 60 s have passed since the last command of a session. -/
def sessionTimeout (s : State) : State := if s.update.running.isSome then s else s.loseSession

/-! ## Microcode in place (R460) -/

/-- Whether a target may be loaded now. -/
def targetReady (s : State) (t : Nat) : Bool :=
  if t < 4 then (s.engine t).slots.isEmpty && (s.engine t).waiting.isEmpty
  else if t < 8 then (s.cvu (t - 4)).slots.isEmpty && (s.cvu (t - 4)).waiting.isEmpty
  else if t = 8 then (List.range s.channels).all fun n => !(s.dmc n).training
  else if t = 9 then (List.range 8).all fun c => match (s.hap c).state with | .off | .idle | .fault => true | _ => false
  else if t < 12 then (s.touchEng (t - 10)).todo.isEmpty
  else s.audio.pause == 2 || !s.flag (.aud 0) F.PG_STAT_ENABLED

/-- What loading a target does to its block. -/
def loadTarget (s : State) (t : Nat) : State :=
  if t = 10 ∨ t = 11 then
    (List.range 4).foldl (fun u p =>
      match (u.panel (t - 10) p).state with
      | .scanning | .refStart | .calibrating => (u.panelStopped (t - 10) p).panelStart (t - 10) p
      | _ => u) s
  else if t = 12 then
    { s with audio := { s.audio with pause := 0, fadeIn := List.range 6, joining := List.range 6 } }
  else s

/-- The replacement of a target begins: an ING or CVU engine accepts no more (`replaced`), the audio outputs fade out and the streams end. -/
def beginTarget (s : State) (t : Nat) : State :=
  let s1 := { s with update := { s.update with loading := true } }
  if t = 12 ∧ s.flag (.aud 0) F.PG_STAT_ENABLED ∧ s.audio.closing = [] ∧ s.audio.faded = [] then
    let u := s1.endStreams
    { u with audio := { u.audio with pause := 1, closing := [0, 1, 2] } }
  else s1

/-- The Stake goes on with the next target: once the checks of R454 pass the replacement begins, and when the target stands it is loaded. Its
self-check passes or fails; a failure loads it, and every target before it, with the confirmed microcode again. -/
def microLoad (s0 : State) (ok : Bool) : State :=
  match s0.update.micro with
  | [] => s0
  | t :: rest =>
    if s0.update.state ≠ 4 ∨ (!s0.update.loading ∧ (s0.updRefusal (s0.update.holder == 0x41)).isSome) then s0
    else
    let s := if s0.update.loading then s0 else s0.beginTarget t
    if !s.targetReady t then s
    else
      let s1 := ({ s with update := { s.update with loading := false } }).loadTarget t
      if !ok then
        let s2 := (microTargets.filter (· < t)).foldl loadTarget { s1 with update := { s1.update with micro := [] } }
        s2.closeSession.revertImage 2 5
      else if rest ≠ [] then { s1 with update := { s1.update with micro := rest } }
      else
        let loc := s1.update.target
        let s2 := (({ s1 with update := { s1.update with micro := [] } }).closeSession).confirmImage 2 loc
        s2.setLoaded (Page.upd.key F.UPD_MC_VER_VERSION.off) (s2.imageVersion 2 loc)

/-! ## HANDOVER_READY (R399, R455) -/

/-- READY from the partner: this device gives up the token, and an armed HANDOVER activation restarts it at once. -/
def handoverReadyRestart (s : State) (h : FlitHdr) : State :=
  let t := s.accept h handoverReady
  if s.pair.state = .active ∧ t.pair.state = .standby ∧ t.boot.when_ = 2 then t.deviceReset 8 else t

def isUpdCmd (op : Nat) (a : RegAcc) : Bool := isWord .upd F.UPD_CMD_OP a && bits 3 0 a.val == op

end State

/-! ## The commands -/

def execUpdOpen (w : RegWr) (s : State) : Host.Outcome State Fault Refusal :=
  .next (s.accessAt w (State.isUpdCmd 1) State.updCmdWrite)

def execUpdStage (w : RegWr) (s : State) : Host.Outcome State Fault Refusal :=
  .next (s.accessAt w (State.isUpdCmd 2) State.updCmdWrite)

def execUpdVerify (w : RegWr) (s : State) : Host.Outcome State Fault Refusal :=
  .next (s.accessAt w (State.isUpdCmd 3) State.updCmdWrite)

def execUpdActivate (w : RegWr) (s : State) : Host.Outcome State Fault Refusal :=
  .next (s.accessAt w (State.isUpdCmd 4) State.updCmdWrite)

def execUpdAbort (w : RegWr) (s : State) : Host.Outcome State Fault Refusal :=
  .next (s.accessAt w (State.isUpdCmd 5) State.updCmdWrite)

def execUpdClose (w : RegWr) (s : State) : Host.Outcome State Fault Refusal :=
  .next (s.accessAt w (State.isUpdCmd 6) State.updCmdWrite)

def execUpdCmdDone (genuine : Bool) (s : State) : Host.Outcome State Fault Refusal := .next (s.updCmdDone genuine)

def execUpdSessionTimeout (s : State) : Host.Outcome State Fault Refusal := .next s.sessionTimeout

def execUpdUnlock (w : RegWr) (s : State) : Host.Outcome State Fault Refusal :=
  .next (s.accessAt w (fun a => State.isWord .upd F.UPD_LOCK_UNLOCK a && bit 1 a.val) State.updLockWrite)

def execTrialConfirmed (s : State) : Host.Outcome State Fault Refusal := .next s.trialConfirmed

def execTrialTimeout (s : State) : Host.Outcome State Fault Refusal := .next s.trialTimeout

def execMicrocodeTargetLoad (ok : Bool) (s : State) : Host.Outcome State Fault Refusal := .next (s.microLoad ok)

def execHandoverReady (h : FlitHdr) (s : State) : Host.Outcome State Fault Refusal := .next (s.handoverReadyRestart h)

end Sys2Proof.Machine
end

