-- ==== Sys2Proof/Machine/FnReset.lean ====
section
/-! DEFINITION. Functions of the host ports: their states, the four steps of a function reset, and the port's link (R127 to
R131, R122, R501). -/

namespace Sys2Proof.Machine

namespace State

/-! ## Functions and their pages (R127) -/

/-- The functions of a port, PF0 first. -/
def portFns (p : Nat) : List Nat := (List.range 64).map (· + 0x80 * p)

/-- The link of a port is up. -/
def portUp (s : State) (p : Nat) : Bool := s.fld (.hp p) F.HP_LINK_SPEED != 0

/-- Whether the host has a function enabled: PF0 while the link is up, a VF through VF Enable and NumVFs. -/
def fnWanted (s : State) (f : Nat) : Bool :=
  s.portUp (portOf f)
    && (isPf f || (s.flag (.hp (portOf f)) F.HP_SRIOV_VF_ENABLE && decide (f % 0x80 ≤ s.fld (.hp (portOf f)) F.HP_SRIOV_NUM_VFS)))

/-- The function holds pool state. -/
def holdsPool (s : State) (f : Nat) : Bool := s.chanCount f != 0

/-- ENABLE, ENABLED and BUSY of a VF control page. -/
def showFn (s : State) (f : Nat) : State :=
  if isVf f then
    let on := b2n (s.fnState f == .enabled)
    ((s.setFld (.vf f) F.PG_CTRL_ENABLE on).setFld (.vf f) F.PG_STAT_ENABLED on).setFld (.vf f) F.PG_STAT_BUSY
      (b2n (s.fnState f == .resetting))
  else s

/-- Queues of a function go IDLE with their ENABLE fields 0. -/
def idleQueues (s : State) (f : Nat) : State :=
  (List.range (queueCount f)).foldl (fun t q =>
    (t.setFld (qPage f) (qFld f F.Q_CTRL_ENABLE) 0 [q]).setQueue f q idleQueue) s

/-- The control page of a VF takes its reset values. -/
def resetVfPage (s : State) (f : Nat) : State := if isVf f then s.resetPage (.vf f) else s

/-- The queue registers of a PF0 take their reset values; a VF's go with its control page. -/
def resetQueueRegs (s : State) (f : Nat) : State :=
  if isPf f then { s with regs := s.regs.filter fun p => !(decide ((qPage f).key 0x200 ≤ p.1) && decide (p.1 < (qPage f).key 0x400)) } else s

/-- A function becomes ENABLED; no row writes config space, so the host's Bus Master Enable is taken to come with it. -/
def enableFn (s : State) (f : Nat) : State :=
  let x := s.fn f
  match x.state with
  | .absent =>
    let s1 := ((s.idleQueues f).resetVfPage f).resetQueueRegs f
    let held := s.holdsPool f
    let s2 := (s1.setFn f { x with state := .enabled, heldState := held, bme := true }).showFn f
    if held ∧ isVf f then s2.event (.vf f) 1 else s2
  | .held =>
    let s2 := (s.setFn f { x with state := .enabled, heldState := true, bme := true }).showFn f
    if isVf f then s2.event (.vf f) 1 else s2
  | _ => s

/-! ## Steps 1 and 2 (R128) -/

/-- Commands of the function that have no first completion, and its entries not yet fetched. -/
def fnPending (s : State) (f : Nat) : Nat :=
  (s.hosts.jobs.filter fun j => j.fn == f && j.stage == .fetched).length
    + ((List.range (queueCount f)).map fun q =>
        let x := s.queue f q
        let n := s.sqSize f q
        if n = 0 then 0 else (x.sqTail + n - x.sqHead) % n).sum

/-- Stop the function's work in the engines, channels, rules and commits. A device without the token leaves mirrored state
alone (R130). -/
def squashFn (s : State) (f : Nat) : State :=
  let s1 := (List.range 4).foldl (fun t n => (t.ingSquash n (fun c => c.fn == f) false).cvuSquash n (fun c => c.fn == f) false) s
  if s.standby then s1
  else ((s1.audResetFn f).hapResetFn f).dropFnCommits f

/-- The commands of a function are forgotten: nothing more of them is written to its host memory. -/
def forgetJobs (s : State) (f : Nat) : State :=
  (List.range (queueCount f)).foldl (fun t q => if (t.queue f q).held = [] then t else t.setQueue f q { t.queue f q with held := [] })
    (s.keepJobs fun j => j.fn != f)

/-- The final completions that a function's commands owe are discarded (R121, R128). -/
def forgetOwed (s : State) (f : Nat) : State := s.keepJobs fun j => !(j.fn == f && j.stage == .owed)

/-- Start a reset, or fold the trigger into the running one. -/
def startReset (s : State) (f cause : Nat) (bus hpPage : Bool) (jid : Option Nat) : State :=
  let x := s.fn f
  match x.state with
  | .resetting =>
    (if bus then s.forgetJobs f else s).setFn f
      { x with bus := x.bus || bus, hostOk := x.hostOk && !bus, hpPage := x.hpPage || hpPage, waiters := x.waiters ++ jid.toList }
  | .enabled =>
    let n := s.fnPending f
    let s1 := s.setFn f { x with
      state := .resetting, step := 1, cause := cause, squashed := min n 0xFFFF, bus := bus, hostOk := !bus, startNs := s.now
      fromHeld := false, fromAbsent := false, linkDown := false, waiters := jid.toList, aborted := [], hpPage := hpPage }
    let s2 := ((s1.showFn f).forgetOwed f).squashFn f
    let s3 := (if bus then s2.forgetJobs f else s2).updFnReset f
    if bus then s3.event (.hp (portOf f)) 3 else s3
  | .held =>
    -- a link-down whose steps 1 and 2 still run is folded in
    (s.setFn f { x with
      state := .resetting, step := 1, cause := cause, squashed := 0, bus := false, hostOk := false, startNs := s.now
      fromHeld := true, fromAbsent := false, linkDown := false, waiters := jid.toList, aborted := [], hpPage := false }).showFn f
  | .absent =>
    s.setFn f { x with
      step := 1, cause := cause, squashed := 0, bus := false, hostOk := false, startNs := s.now
      fromHeld := false, fromAbsent := true, waiters := x.waiters ++ jid.toList, aborted := [], hpPage := false }

/-- FN_RESET (R122). -/
def carryFnReset (j : Job) (s : State) : State :=
  let f := j.p 0
  if !(isPf f || isVf f) ∨ f = j.fn then s.complete j.jid 0x0006
  else
    match s.fnState f with
    | .absent => if s.holdsPool f ∨ (s.fn f).step ≠ 0 then s.startReset f 3 false false (some j.jid) else s.complete j.jid 0
    | _ => s.startReset f 3 false false (some j.jid)

/-- A Function Level Reset; that of PF0 clears VF Enable and so resets the port's VFs (R127, R129). -/
def clearVfEnable (s : State) (p : Nat) : State :=
  let s1 := (s.setFld (.hp p) F.HP_SRIOV_VF_ENABLE 0).setFld (.hp p) F.HP_SRIOV_NUM_VFS 0
  ((portFns p).drop 1).foldl (fun t f => if t.fnState f = .enabled ∨ t.fnState f = .resetting then t.startReset f 2 true false none else t) s1

def flr (s : State) (f : Nat) : State :=
  if s.fnState f = .enabled ∨ s.fnState f = .resetting then
    let s1 := s.startReset f 1 true false none
    if isPf f then s1.clearVfEnable (portOf f) else s1
  else s

/-- VF Enable is set with NumVFs. -/
def setVfEnable (s : State) (p n : Nat) : State :=
  if 2 ≤ p ∨ !s.portUp p ∨ s.fnState (0x80 * p) ≠ .enabled then s
  else
    let k := min n 63
    let s1 := (s.setFld (.hp p) F.HP_SRIOV_VF_ENABLE 1).setFld (.hp p) F.HP_SRIOV_NUM_VFS k
    ((List.range k).map (· + 1 + 0x80 * p)).foldl enableFn s1

/-! ## Step 3 (R128) -/

/-- Every row of steps 1 and 2 has ended: its channel operations recorded and its mirror data acknowledged, its streams ended, its commits
applied. -/
def stepsEnded (s : State) (f : Nat) : Bool :=
  let mine := fun (x : MirrorItem) => match x with
    | .pool _ _ _ _ fn _ => fn == f
    | .record _ _ _ (some (jid, _, _)) => ((s.job jid).map Job.fn) == some f
    | _ => false
  (s.standby || (!s.pair.linkUp || (!(s.pair.ordered.any mine) && !(s.pair.replay.any fun y => match y.item with | some x => mine x | none => false))))
    && s.streamsSquashed f && !(s.display.commits.any fun c => c.fn == f && c.stage == .applying && c.release.isNone && !c.posted)

/-- A command of the function that allocates a buffer still being filled is not completed: step 4 reports it ABORTED (R503). -/
def dropAllocs (s : State) (f : Nat) : State :=
  (s.pool.bufs.used.map Prod.fst).foldl (fun t i =>
    match t.buf i with
    | some b => if b.state = .filling ∧ (b.allocJob.bind t.job).map Job.fn = some f then t.setBuf i { b with allocJob := none } else t
    | none => t) s

/-- Destroy the channels of a function, each mirrored as a destroy. -/
def destroyFnChans (s : State) (f : Nat) : State :=
  ((s.pool.chans.used.filter fun p => p.2.fn == f && !p.2.draining).map Prod.fst).foldl (fun t ci =>
    let u := ((t.dropAllocs f).destroyChan ci none).2
    u.mirror (.record 0x02 (u.destroyParams ci (t.chanHandle ci)) [] none)) s

/-- Release the function's layer slots and check regions. -/
def releaseFnSlots (s : State) (f : Nat) : State :=
  let s1 := (List.range 8).foldl (fun t n => (List.range 16).foldl (fun u k =>
    if u.fld (.slot n k) F.OWNER_FUNCTION = f then u.releaseSlot n k else u) t) s
  let rel := (List.range 8).flatMap fun n => ((List.range 16).filter fun j => s1.fld (.chk n) F.CHK_OWNER_FUNCTION [j] == f).map fun j => 128 + n * 16 + j
  { s1 with display := { s1.display with released := (s1.display.released ++ rel).eraseDups } }

/-- Steps 1 and 2 have ended: of a link-down, which this ends; of a reset, whose step 3 runs. -/
def poolStep (s : State) (f : Nat) : State :=
  let x := s.fn f
  if !s.stepsEnded f then s
  else if x.linkDown then
    (s.setFn f { x with linkDown := false, cause := 5, timeUs := (s.now - x.startNs) / 1000 }).event (.hp (portOf f)) 2
  else if x.step ≠ 1 then s
  else
    let s1 := s.setFn f { x with step := 3 }
    if s.standby then s1 else (s1.destroyFnChans f).releaseFnSlots f

/-! ## Step 4 (R128, R501) -/

/-- Keys that a soft reset of an HP page keeps: the role and the state of the link and of SR-IOV. -/
def hpKept (p k : Nat) : Bool :=
  k == (Page.hp p).key F.HP_MGR_ROLE.off || k == (Page.hp p).key F.HP_LINK_SPEED.off || k == (Page.hp p).key F.HP_SRIOV_NUM_VFS.off

/-- The reset ends: fetched commands are reported ABORTED in a managed reset, the queues go IDLE, the control page resets. -/
def queueStep (s : State) (f : Nat) : State :=
  let x := s.fn f
  if x.step ≠ 3 then s
  else
    let p := portOf f
    let mine := s.hosts.jobs.filter fun j => j.fn == f
    let s1 := if x.hostOk ∧ !x.fromHeld ∧ !x.fromAbsent then
        (mine.filter fun j => j.stage == .fetched).foldl (fun t j => t.post j.fn j.q j.cid 0x0008 j.sqHead false []) s else s
    let s3 := ((s1.forgetJobs f).idleQueues f).resetVfPage f
    let s4 := if x.bus then { s3 with hosts := { s3.hosts with
        unmasked := s3.hosts.unmasked.filter (fun v => v.1 != f), msiPending := s3.hosts.msiPending.filter fun v => v.1 != f } } else s3
    let st : FnState := if s4.fnWanted f then .enabled else .absent
    let s5 := s4.setFn f { x with
      state := st, step := 0, heldState := false, timeUs := (s.now - x.startNs) / 1000, waiters := [], hpPage := false }
    let s6 := s5.showFn f
    let s7 := if x.hpPage then
        { s6.resetPage (.hp p) (hpKept p) with softResetting := s6.softResetting.filter (· != (Page.hp p).base) } else s6
    x.waiters.foldl (fun t jid => t.complete jid 0) ((s7.event (.hp p) 2).deliverPending f)

/-- A soft reset of HPA or HPB: BUSY until the reset of PF0 that it starts, or joins, has ended (R46, R501). -/
def hpReset (p : Nat) (s : State) : State :=
  let f := 0x80 * p
  if s.fnState f = .enabled ∨ s.fnState f = .resetting then
    let s1 := s.startReset f 4 false true none
    { s1 with softResetting := if s1.softResetting.contains (Page.hp p).base then s1.softResetting else s1.softResetting ++ [(Page.hp p).base] }
  else s.resetPage (.hp p) (hpKept p)

/-- HP_PF_RESET.START. -/
def pfResetWrite (a : RegAcc) (s : State) : State :=
  match a.page with
  | .hp p =>
    if s.grants a F.HP_PF_RESET_START then
      (if s.fnState (0x80 * p) = .enabled ∨ s.fnState (0x80 * p) = .resetting then s.startReset (0x80 * p) 4 false false none else s)
    else s.recRefused a
  | _ => s

/-- PG_CTRL of a VF control page: ENABLE writes have no effect, SOFT_RESET starts a managed reset. -/
def vfCtrlWrite (a : RegAcc) (fn : Nat) (s : State) : State :=
  let s0 := s.recRefused a
  let s1 := if s.grants a F.PG_CTRL_SOFT_RESET ∧ s.fnState fn = .enabled then s0.startReset fn 4 false false none else s0
  let s2 := if s.grants a F.PG_CTRL_LOCK then s1.setFld a.page F.PG_CTRL_LOCK 1 else s1
  if s.grants a F.PG_CTRL_UNLOCK then s2.setFld a.page F.PG_CTRL_LOCK 0 else s2

/-! ## The port's link (R127, R131) -/

/-- A function of a port whose link goes down. -/
def fnLinkDown (s : State) (f : Nat) : State :=
  let x := s.fn f
  match x.state with
  | .enabled =>
    let s1 := s.setFn f { x with state := .held, heldState := true, bme := false, linkDown := true, startNs := s.now, squashed := min (s.fnPending f) 0xFFFF }
    let s2 := s1.squashFn f
    (((s2.forgetJobs f).idleQueues f).updFnReset f).showFn f
  | .resetting => (s.forgetJobs f).setFn f { x with hostOk := false, bme := false }
  | _ => s

def portLinkDown (s : State) (p : Nat) : State :=
  if 2 ≤ p ∨ !s.portUp p then s
  else
    let s1 := (portFns p).foldl fnLinkDown s
    let s2 := { s1 with hosts := { s1.hosts with
      unmasked := s1.hosts.unmasked.filter (fun v => portOf v.1 != p || v.1 == 0x40 || v.1 == 0x41)
      msiPending := s1.hosts.msiPending.filter fun v => portOf v.1 != p } }
    let s3 := (s2.setRw ((Page.hp p).key F.HP_LINK_SPEED.off) 0).setRw ((Page.hp p).key F.HP_SRIOV_NUM_VFS.off) 0
    ((s3.satFld (.hp p) F.HP_LINK_DOWNS_COUNT 1).setFld (.hp p) F.HP_BS_LINK_UP 0).event (.hp p) 0

def portLinkUp (s : State) (p speed width : Nat) : State :=
  if 2 ≤ p ∨ speed = 0 ∨ 5 < speed ∨ ([1, 2, 4, 8].contains width) = false ∨ s.faults.inReset ∨ s.faults.recovery ∨ s.faults.fatal.isSome ∨ s.portUp p
      ∨ s.power.state = .off ∨ s.power.state = .stopped then s
  else
    let s1 := ((s.setFld (.hp p) F.HP_LINK_SPEED (s.linkSpeed (1 + p) speed)).setFld (.hp p) F.HP_LINK_WIDTH width).setFld (.hp p) F.HP_BS_LINK_UP 1
    (s1.enableFn (0x80 * p)).event (.hp p) 1

end State

/-! ## The commands -/

def execFnReset (c : CmdArgs) (s : State) : Host.Outcome State Fault Refusal := .next (s.command 0x40 c State.carryFnReset)

def execFlr (fn : Nat) (s : State) : Host.Outcome State Fault Refusal := .next (s.flr fn)

def execVfEnableCleared (port : Nat) (s : State) : Host.Outcome State Fault Refusal :=
  .next (if port < 2 then s.clearVfEnable port else s)

def execVfEnableSet (port n : Nat) (s : State) : Host.Outcome State Fault Refusal := .next (s.setVfEnable port n)

def execVfSoftReset (w : RegWr) (s : State) : Host.Outcome State Fault Refusal :=
  .next (s.accessAt w (fun a => a.off == 0x008 && bit 1 a.val && (match a.page with | .vf _ => true | _ => false))
    fun a t => match a.page with | .vf f => t.vfCtrlWrite a f | _ => t)

def execHpPfResetStart (w : RegWr) (s : State) : Host.Outcome State Fault Refusal :=
  .next (s.accessAt w (fun a => match a.page with | .hp _ => F.HP_PF_RESET_START.hits a.off | _ => false) State.pfResetWrite)

def execHpSoftReset (w : RegWr) (s : State) : Host.Outcome State Fault Refusal :=
  .next (s.accessAt w (fun a => a.off == 0x008 && bit 1 a.val && (match a.page with | .hp _ => true | _ => false))
    fun a t => match a.page with
      | .hp p => t.ctrlWrite a (State.plainEnable a.page) (State.hpReset p)
      | _ => t)

def execFnResetPoolStep (fn : Nat) (s : State) : Host.Outcome State Fault Refusal := .next (s.poolStep fn)

def execFnResetQueueStep (fn : Nat) (s : State) : Host.Outcome State Fault Refusal := .next (s.queueStep fn)

def execPortLinkDown (port : Nat) (s : State) : Host.Outcome State Fault Refusal := .next (s.portLinkDown port)

def execPortLinkUp (port speed width : Nat) (s : State) : Host.Outcome State Fault Refusal := .next (s.portLinkUp port speed width)

end Sys2Proof.Machine
end

