-- ==== Sys2Proof/Machine/Faults.lean ====
section
/-! DEFINITION. What contained and device-fatal faults do (R472 to R474), the end of a retraining (R280, R281), the stop of a DRAM
channel (R285), and the log's CLEAR (R475). -/

namespace Sys2Proof.Machine

namespace State

/-! ## Device-fatal faults (R473, R474) -/

/-- The fatal record: a class 3 entry, which the AON writes to the MRAM tail, and the counters kept there. The spec gives the entry no
status code, so it is open. -/
def fatalRecord (s : State) (source code : Nat) (pg : Page) (info fn : Nat) : State :=
  let s1 := (s.report 3 code pg.source info fn).writeTail
  { s1 with faults := { s1.faults with fatalCount := satAdd 8 s1.faults.fatalCount 1, fatalLast := source } }

/-- Every engine is squashed without completions. -/
def squashAll (s : State) : State :=
  let s1 := { s with hosts := { s.hosts with jobs := [], coreEntries := [], fetchStopped := true } }
  (List.range 4).foldl (fun t n => (t.ingSquash n (fun _ => true) false).cvuSquash n (fun _ => true) false) s1

/-- The hardware's part: the guy line, the lanes of every link, haptics, touch drive and audio outputs. -/
def idleAll (s : State) : State :=
  let s1 := { s with pair := { s.pair with guyOut := false } }
  let s2 := s1.dplDead.linkDown
  let s3 := { s2 with pair := { s2.pair with guyOut := false } }
  let s4 := (s3.portLinkDown 0).portLinkDown 1
  let s5 := (List.range 2).foldl (fun t e => t.setTouch e idleTouch) s4
  s5.hapSilence.audKill

/-- A device-fatal fault. In HOLDUP, and after another one, it adds only its record. -/
def deviceFatal (s : State) (source code : Nat) (pg : Page) (info fn : Nat) : State :=
  if s.faults.inReset ∨ s.power.state = .off ∨ s.power.state = .stopped then s
  else if s.power.state = .holdup ∨ s.faults.fatal.isSome then s.fatalRecord source code pg info fn
  else
    let s1 := { s with faults := { s.faults with fatal := some source, fatalAt := s.now, containStop := [] } }
    (s1.squashAll.idleAll).fatalRecord source code pg info fn

/-- A fatal fault by its source: the page that stands for it. -/
def fatalPage (source : Nat) : Page := if source = 1 ∨ source = 2 then .dmc 0 else if source = 3 ∨ source = 4 then .wld else .sys

def fatalSource (s : State) (source : Nat) : State :=
  if source = 0 ∨ 6 < source then s else s.deviceFatal source (openCode 0x0473 [source]) (fatalPage source) 0 0

/-- Fatal restarts within the last 10 minutes. -/
def recentRestarts (s : State) : List Nat := s.faults.restarts.filter fun t => decide (s.now < t + 600000000000)

/-- 100 ms after the fault: the device resets, or halts. A restart out of HOLDUP follows the supply instead (R474). -/
def fatalRestart (s : State) : State :=
  if s.faults.fatal.isNone ∨ s.faults.halted ∨ s.power.state = .holdup ∨ s.power.state = .stopped ∨ s.power.state = .off then s
  else if s.flag .sys F.SYS_FATAL_HALT ∨ s.fld .sys F.SYS_FATAL_RESTART_LIMIT ≤ s.recentRestarts.length then
    { s with faults := { s.faults with halted := true } }
  else
    let s1 := { s with
      faults := { s.faults with restarts := s.recentRestarts ++ [s.now] }
      update := { s.update with reason := if s.update.trials.isEmpty then s.update.reason else 4 } }
    s1.deviceReset 3

/-! ## Contained faults (R472) -/

/-- A queue, engine or link buffer has failed: its block stops, and its commands are squashed as R157 squashes them. -/
def stopBlock (s : State) (pg : Page) : State :=
  let s1 := ({ s with faults := { s.faults with stopped := s.faults.stopped ++ [pg.base] } }).setFld pg F.PG_STAT_ENABLED 0
  match pg with
  | .ing n => s1.ingSquash n (fun _ => true) true
  | .cvu n => s1.cvuSquash n (fun _ => true) true
  | .hp p => (List.range 4).foldl (fun t n =>
      (t.ingSquash n (fun c => portOf c.fn == p && c.fn != 0x40 && c.fn != 0x41) true).cvuSquash n
        (fun c => portOf c.fn == p && c.fn != 0x40 && c.fn != 0x41) true) s1
  | .plk => s1.linkDown
  | .tch e => s1.setTouch e idleTouch
  | .hap => s1.hapSilence
  | .aud _ => s1.audKill
  | _ => s1

/-- A management core takes a synchronous fault: it is scrubbed, and its command completes TIMEOUT. -/
def stopCore (s : State) (k : Nat) (jid : Option Nat) : State :=
  if 4 ≤ k then s
  else
    let s1 := s.scrub k (s.core k).result0 (s.core k).result1
    match jid with | some j => s1.complete j 0x0007 | none => s1

/-- A gate entry: at an entry point of the gate table the core enters; elsewhere nothing changes world and a gate fault is counted, which is
a contained fault of the core (R99, R472). The spec gives it no status code. -/
def gateEntry (s : State) (k addr : Nat) (jid : Option Nat) : State :=
  if 4 ≤ k ∨ (s.core k).inSecure then s
  else if s.worlds.gateTable.contains addr then
    let s1 := s.setCore k ⟨true, s.now, 0, 0, false⟩
    let s2 := ((s1.markCore k true).freezeCore k true).addFld .wld F.WLD_GATE_COUNT_COUNT 1
    s2.pmcCount 0x09 0x40 false false 1
  else
    let s1 := { s with worlds := { s.worlds with gateFaults := s.worlds.gateFaults + 1 } }
    (s1.reportContained .wld (openCode 0x0099 []) k 0x40).stopCore k jid

/-- An on-die memory error counts in EDAC_SRAM: 1 corrected, 2 uncorrectable (R303). -/
def sramError (s : State) (kind : Nat) : State :=
  if kind = 1 then s.satFld .edac F.EDAC_SRAM_CE 1
  else if kind = 2 then (s.satFld .edac F.EDAC_SRAM_UE 1).event .edac 4
  else s

/-- What an uncorrectable error of the furrow store or of the owner-table cache does (R303). -/
def onDie (s : State) : FaultAct → State
  | .furrow n place => s.setDisp n { s.disp n with spoiled := (s.disp n).spoiled ++ [place] }
  | .ownCache i => { s with pool := { s.pool with cache := Sparse.del s.pool.cache i } }
  | _ => s

/-- A report reaches the aggregator (R471) with a code of R61: classes 1 corrected, 2 contained, 3 device-fatal with its source in INFO. -/
def faultReport (s : State) (src sram cls code info fn : Nat) (act : FaultAct) : State :=
  match pageOf src with
  | none => s
  | some pg =>
    if !statusCodes.contains code ∨ s.faults.inReset ∨ s.power.state = .off ∨ s.power.state = .stopped then s
    else
      let s0 := (s.sramError sram).onDie act
      if cls = 3 then s0.deviceFatal (bits 3 0 info) code pg info fn
      else if cls = 2 then
        match act with
        | .reportOnly => s0.reportContained pg code info fn
        | .output n => if n < 8 then s0.containOutput pg n code info fn else s0.reportContained pg code info fn
        | .block => (s0.reportContained pg code info fn).stopBlock pg
        | .core k jid => (s0.reportContained pg code info fn).stopCore k jid
        | .furrow _ _ | .ownCache _ => s0.reportContained pg code info fn
      else if cls = 1 then s0.report 1 code pg.source info fn
      else s0

/-! ## Retraining and stopped channels (R280, R281, R285) -/

/-- The end of a pause: `eyes` are the read and write eye widths of a passing sweep; without one the old setting is restored, and the
channel runs on when it reads back the training pattern. -/
def retrainEnd (s : State) (n pause : Nat) (eyes : Option (Nat × Nat)) (readBack : Bool) : State :=
  let d := s.dmc n
  let pg := Page.dmc n
  if !d.training ∨ s.channels ≤ n then s
  else
    let s1 := (s.addFld pg F.DMC_TRAIN_STAT_COUNT 1).setFld pg F.DMC_TRAIN_LAST_PAUSE_NS (min pause 0xFFFF)
    match eyes with
    | some (r, w) =>
      let s2 := ((s1.setFld pg F.DMC_TRAIN_LAST_READ_EYE r).setFld pg F.DMC_TRAIN_LAST_WRITE_EYE w).setFld pg F.DMC_TRAIN_STAT_DEGRADED 0
      (s2.setDmc n { d with training := false, noWindow := 0 }).event pg 2
    | none =>
      let s2 := ((s1.setFld pg F.DMC_TRAIN_LAST_READ_EYE 0).setFld pg F.DMC_TRAIN_LAST_WRITE_EYE 0).satFld pg F.DMC_TRAIN_STAT_NO_WINDOW 1
      if readBack then
        let k := d.noWindow + 1
        let s3 := (s2.setFld pg F.DMC_TRAIN_STAT_DEGRADED 1).setDmc n { d with training := false, noWindow := k }
        (((s3.recErr pg 0x0C01 (min k 0xFF)).event pg 3).reportCorrected pg 0x0C01 (min k 0xFF)).event pg 2
      else
        let s3 := (s2.setDmc n { d with training := false, failed := true }).event pg 5
        s3.deviceFatal 1 (openCode 0x0473 [1]) pg 0 0

/-- The secure world stops a channel: nothing it can complete remains, and the device reports a fatal fault. -/
def stopChannel (n : Nat) (s : State) : State :=
  let s1 := (s.setFld (.dmc n) F.PG_CTRL_ENABLE 0).setFld (.dmc n) F.PG_STAT_ENABLED 0
  (s1.setDmc n { s1.dmc n with reqs := [], training := false, want := false, failed := true }).deviceFatal 2
    (openCode 0x0473 [2]) (.dmc n) 0 0

/-- PG_CTRL of a DMC page. -/
def dmcEnable (a : RegAcc) (on : Bool) (s : State) : State :=
  match a.page with
  | .dmc n =>
    if on then plainEnable a.page true s
    else if a.req.secure then stopChannel n s else s.recAcc a 0x000A
  | _ => s

def dmcReset (a : RegAcc) (s : State) : State :=
  match a.page with
  | .dmc n => if a.req.secure then stopChannel n (s.resetPage a.page) else s.recAcc a 0x000A
  | _ => s

/-! ## The log page (R475) -/

/-- LOG_CTRL: CLEAR empties the ring; the MRAM tail stays. -/
def logCtrlWrite (a : RegAcc) (s : State) : State :=
  let go := s.grants a F.LOG_CTRL_CLEAR
  let s1 := s.plainWrite a
  if go then
    (({ s1 with faults := { s1.faults with log := [] } }).setFld .log F.LOG_STAT_COUNT 0).setFld .log F.LOG_STAT_LOST 0
  else s1

/-- A junction sensor reads 130 °C or more (R489). -/
def thermtrip (s : State) : State :=
  if s.power.state = .stopped then s else { s with faults := { s.faults with thermtrip := true } }

/-- SYS_RESET.RESTART (R463). -/
def sysResetWrite (a : RegAcc) (s : State) : State :=
  if s.grants a F.SYS_RESET_RESTART then s.deviceReset 4 else s.recRefused a

end State

/-- PG_CTRL of a DMC page. -/
def isDmcCtrl (a : RegAcc) : Bool := a.off == 0x008 && (match a.page with | .dmc _ => true | _ => false)

/-! ## The commands -/

def execGateEntry (core : Nat) (call : GateCall) (s : State) : Host.Outcome State Fault Refusal :=
  .next (s.gateEntry core call.addr call.job)

def execRetrainEnd (ch pause : Nat) (eyes : Option (Nat × Nat)) (readBack : Bool) (s : State) : Host.Outcome State Fault Refusal :=
  .next (s.retrainEnd ch pause eyes readBack)

def execDmcStopWrite (w : RegWr) (s : State) : Host.Outcome State Fault Refusal :=
  .next (s.accessAt w (fun a => isDmcCtrl a && (!bit 0 a.val || bit 1 a.val))
    fun a t => t.ctrlWrite a (State.dmcEnable a) (State.dmcReset a))

def execFaultReport (src sram cls code info fn : Nat) (act : FaultAct) (s : State) : Host.Outcome State Fault Refusal :=
  .next (s.faultReport src sram cls code info fn act)

def execDeviceFatalFault (source : Nat) (s : State) : Host.Outcome State Fault Refusal := .next (s.fatalSource source)

def execFatalRestart (s : State) : Host.Outcome State Fault Refusal := .next s.fatalRestart

def execWatchdogExpiry (s : State) : Host.Outcome State Fault Refusal := .next (s.fatalSource 3)

def execReferenceLoss (s : State) : Host.Outcome State Fault Refusal :=
  .next (if s.power.state = .run ∨ s.power.state = .idle then s.fatalSource 6 else s)

def execThermtrip (s : State) : Host.Outcome State Fault Refusal := .next s.thermtrip

def execLogClear (w : RegWr) (s : State) : Host.Outcome State Fault Refusal :=
  .next (s.accessAt w (State.isWord .log F.LOG_CTRL_CLEAR) State.logCtrlWrite)

def execSysRestart (w : RegWr) (s : State) : Host.Outcome State Fault Refusal :=
  .next (s.accessAt w (State.isWord .sys F.SYS_RESET_RESTART) State.sysResetWrite)

end Sys2Proof.Machine
end

