-- ==== Sys2Proof/Machine/Views.lean ====
section
/-! DEFINITION. Register words that show other state: tables behind a selector, statuses and counts (R82 to R85, R100, R105, R131, R157,
R257, R300, R334, R403, R418, R433, R446, R451, R456, R473, R475), and the reads of registers. -/

namespace Sys2Proof.Machine

/-- Codes of a queue's and of a function's state. -/
def QState.code : QState → Nat
  | .idle => 0
  | .running => 1
  | .draining => 2
  | .error => 3

def FnState.code : FnState → Nat
  | .absent => 0
  | .enabled => 1
  | .resetting => 2
  | .held => 3

/-- Byte i of a number at byte position p. -/
def bytesAt (p v : Nat) : Nat := v * 256 ^ p

/-- The bytes of a ledger record, as one number, without its CRC (R445). -/
def LedgerRecord.body (r : LedgerRecord) : Nat :=
  r.number % 2 ^ 32 + bytesAt 4 (r.hours % 2 ^ 32) + bytesAt 8 (r.cause % 256) + bytesAt 9 (toBits 8 r.tj)
    + (r.islands.zipIdx.map fun (x : (Nat × Nat × Nat × Bool) × Nat) =>
        bytesAt (16 + 4 * x.2) (x.1.1 % 1024 + x.1.2.1 % 1024 * 2 ^ 10 + x.1.2.2.1 % 2048 * 2 ^ 20 + b2n x.1.2.2.2 * 2 ^ 31)).sum
    + (r.groups.zipIdx.map fun (x : Nat × Nat) => bytesAt (200 + 2 * x.2) (x.1 % 65536)).sum

/-- Word w of a record; the CRC word of a record whose CRC fails is not stated. -/
def LedgerRecord.word (r : LedgerRecord) (w : Nat) : Nat :=
  if w < 63 then bits (32 * w + 31) (32 * w) r.body
  else
    let c := Codes.crcOf 0
    let crc := c.done ((List.range 252).foldl (fun x i => c.byte x (Codes.byteOf i r.body)) (c.start 0))
    if r.crcOk then crc else Config.openResult 0x0445 [r.number, crc] % 2 ^ 32

namespace State

/-- VF_INFO.PAIR_ROLE: 0 without a pair (R376). -/
def pairRole (s : State) : Nat := if s.paired then s.pair.state.role else 0

/-- PLK_STAT.STATE: SOLO while ENABLE is 0 after start-up. -/
def pairCode (s : State) : Nat := if s.paired ∨ s.fld .sys F.SYS_STAT_PHASE < 5 then s.pair.state.code else 1

/-- Channel and buffer tables (R82 to R85). -/
def chnWord (s : State) (o : Nat) : Option Nat :=
  let i := s.fld .chn F.CHN_SEL_INDEX
  let bufs := (s.pool.bufs.used.map Prod.snd).filter fun b => b.chan == i
  let fn := s.fld .chn F.CHN_FN_SEL_FUNCTION
  if o = F.CHN_LIVE_OPEN.off then
    some ((s.pool.chans.used.filter fun p => !p.2.draining).length + (s.pool.chans.used.filter fun p => p.2.draining).length * 2 ^ 16)
  else if o = F.CHN_HANDLE_HANDLE.off then some (s.chanHandle i)
  else if o = F.CHN_INFO_STATE.off then
    some (match s.chan i with | some c => (if c.draining then 2 else 1) + c.fn * 2 ^ 8 + bufs.length * 2 ^ 16 | none => 0)
  else if o = F.CHN_PLOTS_PLOTS.off then some ((bufs.map fun b => b.plots.length).sum)
  else if o = F.CHN_FN_LIMIT_LIMIT.off then some (if isHolder fn then s.chanLimit fn + s.chanCount fn * 2 ^ 16 else 0)
  else none

def poolWord (s : State) (o : Nat) : Option Nat :=
  let fn := s.fld .pool F.POOL_FN_SEL_FUNCTION
  let i := s.fld .pool F.POOL_BUF_SEL_INDEX
  let b := s.buf i
  let held := fun (v : Nat) => some (if isHolder fn then v else 0)
  if o = F.POOL_FREE_FREE.off then some s.freePlots
  else if o = F.POOL_LIVE_BUF_LIVE.off then some s.pool.bufs.used.length
  else if o = F.POOL_OWED_OWED.off then some ((holders.map s.reserve).sum)
  else if o = F.POOL_FN_QUOTA_QUOTA.off then held (s.quota fn)
  else if o = F.POOL_FN_SHARE_SHARE.off then held (s.share fn)
  else if o = F.POOL_FN_USED_USED.off then held (s.usedPlots fn)
  else if o = F.POOL_FN_PEAK_PEAK.off then held (Sparse.get (fun _ => 0) s.pool.peak fn)
  else if o = F.POOL_BUF_HANDLE_HANDLE.off then some (s.bufHandle i)
  else if o = F.POOL_BUF_INFO_STATE.off then
    some (match b with | some x => bufStateCode x.state + x.fn * 2 ^ 8 + x.fences * 2 ^ 16 | none => 0)
  else if o = F.POOL_BUF_CHANNEL_CHANNEL.off then some ((b.map Buf.chanHandle).getD 0)
  else if o = F.POOL_BUF_PLOTS_PLOTS.off then some ((b.map fun x => x.plots.length).getD 0)
  else if o = F.POOL_RETIRED_RETIRED.off then some s.pool.plots.retired.length
  else none

/-- OWN (R87, R93). -/
def ownWord (s : State) (o : Nat) : Option Nat :=
  if o = F.OWN_FN_CRIT_CRIT.off then some (s.fnCrit (s.fld .own F.OWN_FN_SEL_FUNCTION))
  else if o = F.OWN_PLOT_ENTRY_ENTRY.off then
    (let p := s.fld .own F.OWN_PLOT_SEL_PLOT
     some (if p < s.poolPlots then s.ownEntry p else 0))
  else none

/-- Q_STAT of a queue block (R115). -/
def queueStat (s : State) (fn q : Nat) : Nat :=
  let x := s.queue fn q
  x.state.code + x.sqHead * 2 ^ 4 + x.cqTail * 2 ^ 16 + b2n x.phase * 2 ^ 28

/-- VF_INFO, OWN_FN_CRIT in OWNER and PG_STAT, and the queues of a VF control page (R130, R131). -/
def vfWord (s : State) (fn o : Nat) : Option Nat :=
  let held := ((Sparse.find s.hosts.fns fn).map Fn.heldState).getD false
  if o = F.VF_INFO_FUNCTION.off then some (fn + s.pairRole * 2 ^ 8 + s.fnCrit fn * 2 ^ 12 + b2n held * 2 ^ 16)
  else if o = 0x00C then some (setBits 7 6 (s.viewWord (.vf fn) o) (s.fnCrit fn))
  else if o = 0x02C then some (setBits 13 12 (s.viewWord (.vf fn) o) (s.fnCrit fn))
  else if 0x100 ≤ o ∧ o < 0x200 ∧ o % 0x40 = 0x18 then some (s.queueStat fn ((o - 0x100) / 0x40))
  else none

/-- HP pages: the function that HP_FN_SEL names, and the queues of PF0 (R131). -/
def hpWord (s : State) (p o : Nat) : Option Nat :=
  let n := s.fld (.hp p) F.HP_FN_SEL_FUNCTION
  let fn := 0x80 * p + n
  let x := s.fn fn
  if o = F.HP_FN_STAT_STATE.off then
    (let q := ((List.range (queueCount fn)).filter fun k => match (s.queue fn k).state with | .running | .error => true | _ => false).length
     some ((s.fnState fn).code + b2n x.bme * 4 + b2n x.heldState * 8 + q * 2 ^ 4))
  else if o = F.HP_LINK_SPEED.off ∧ s.fld (.hp p) F.HP_LINK_SPEED ≠ 0 then
    -- which of L0, L0s, L1 and L1.2 a link that is up rests in is a matter of its traffic and time (R109)
    some (setBits 9 8 (s.viewWord (.hp p) o) (Config.openResult 0x0109 [p, s.now]))
  else if o = F.HP_FN_WEIGHT_WEIGHT.off then some (bits 7 0 (s.rw (bankKey ((Page.hp p).key o) n)))
  else if o = F.HP_FN_RESET_INFO_CAUSE.off then some (x.cause + min 0xFFFF x.squashed * 2 ^ 16)
  else if o = F.HP_FN_RESET_TIME_TIME_US.off then some (x.timeUs % 2 ^ 32)
  else if 0x200 ≤ o ∧ o < 0x400 ∧ o % 0x40 = 0x18 then some (s.queueStat (0x80 * p) ((o - 0x200) / 0x40))
  else none

/-- The in-flight slots of the engines (R157, R257). -/
def ingWord (s : State) (n o : Nat) : Option Nat :=
  let c := Sparse.find (s.engine n).slots (s.fld (.ing n) F.ING_SLOT_SEL_SLOT)
  if o = F.ING_SLOT_INFO_STATE.off then
    some (match c with
      | some x => (if s.ingBlocked x then 2 else 1) + x.fn * 2 ^ 8 + x.format * 2 ^ 16 + b2n x.seedbed * 2 ^ 24
      | none => 0)
  else if o = F.ING_SLOT_BUF_BUFFER.off then some ((c.map IngCmd.handle).getD 0)
  else if o = F.ING_SLOT_DONE_TILES.off then some ((c.map IngCmd.tiles).getD 0)
  else none

def cvuWord (s : State) (n o : Nat) : Option Nat :=
  let k := s.fld (.cvu n) F.CVU_SLOT_SEL_SLOT
  let c := Sparse.find (s.cvu n).slots k
  if o = F.CVU_SLOT_INFO_STATE.off then
    some (match c with | some x => 1 + x.poly * 4 + x.fn * 2 ^ 8 + b2n x.addrMode * 2 ^ 16 | none => 0)
  else if o = F.CVU_SLOT_SRC_SOURCE.off then some (match c with | some x => if x.addrMode then 0 else x.handle | none => 0)
  else if o = F.CVU_SLOT_DONE_BYTES.off then
    -- how far a running command has read is a matter of time
    some (match c with | some x => Config.openResult 0x0257 [n, k, s.now] % (x.len + 1) | none => 0)
  else none

/-- DMC: the port that DMC_PORT_SEL names. -/
def dmcWord (s : State) (n o : Nat) : Option Nat :=
  if o = F.DMC_PORT_TARGET_TARGET.off ∨ o = F.DMC_PORT_LATE_COUNT.off ∨ o = F.DMC_PORT_MAXLAT_LAT.off then
    (let p := s.fld (.dmc n) F.DMC_PORT_SEL_PORT
     some (if p < 12 then s.rw (bankKey ((Page.dmc n).key o) p) else 0))
  else none

/-- EDAC: the selected log entry (R300). -/
def edacWord (s : State) (o : Nat) : Option Nat :=
  let e := s.edac.log[s.fld .edac F.EDAC_LOG_SEL_INDEX]?
  if o = F.EDAC_LOG_W0_ADDR_LO.off then some ((e.map EdacEntry.w0).getD 0)
  else if o = F.EDAC_LOG_W1_ADDR_HI.off then some ((e.map EdacEntry.w1).getD 0)
  else if o = F.EDAC_LOG_W2_ROW.off then some ((e.map EdacEntry.w2).getD 0)
  else if o = F.EDAC_LOG_W3_TIME.off then some ((e.map EdacEntry.w3).getD 0)
  else none

/-- HAP: the selected rule (R334). -/
def hapWord (s : State) (o : Nat) : Option Nat :=
  let r := Sparse.find s.haptic.rules (s.fld .hap F.HAP_RULE_SEL_INDEX)
  if o = F.HAP_RULE_INFO_VALID.off then
    some (match r with
      | some x => 1 + x.panel * 2 + x.channel * 2 ^ 4 + x.events * 2 ^ 7 + x.effect.priority * 2 ^ 10 + x.fn * 2 ^ 16
      | none => 0)
  else if o = F.HAP_RULE_FIRES_COUNT.off then some ((r.map fun x => x.fires % 2 ^ 32).getD 0)
  else none

/-- PLK (R375, R386, R396, R404). -/
def plkWord (s : State) (o : Nat) : Option Nat :=
  let p := s.pair
  if o = F.PLK_STAT_STATE.off then
    some (s.pairCode + b2n p.linkUp * 2 ^ 3 + b2n p.guyOut * 2 ^ 4 + b2n p.guyIn * 2 ^ 5 + b2n p.guyFault * 2 ^ 6
      + b2n p.versionDiff * 2 ^ 7 + p.pPosition % 2 * 2 ^ 8 + p.pState % 8 * 2 ^ 9 + p.lastReason % 16 * 2 ^ 12 + p.wakeReason % 256 * 2 ^ 16)
  else if o = F.PLK_MIRROR_QUEUED_BYTES.off then some s.mirrorQueued
  else if o = F.PLK_SYNC_PLOTS_LEFT.off then some p.resyncPlots.length
  else if o = 0x00C then some (setBits 18 16 (s.viewWord .plk o) s.pairCode)
  else none

/-- PWR: the selected island and the selected save entry (R406, R419). -/
def pwrWord (s : State) (secure : Bool) (o : Nat) : Option Nat :=
  let i := s.fld .pwr F.PWR_ISL_SEL_ISLAND
  if o = F.PWR_ISL_CTRL_GATE.off then some (if i < 46 then s.islandCtrl i else 0)
  else if o = F.PWR_ISL_STAT_POWERED.off then
    some (if i < 46 then
      b2n (s.islandPowered i) + b2n (s.islandClocked i) * 2 + islandDomain i * 4
        + (if islandDomain i = 3 then (i - 10) % 8 * 2 ^ 5 else 0)
      else 0)
  else if o = F.PWR_SAVE_COUNT_COUNT.off then some s.power.saveList.length
  else if o = F.PWR_SAVE_ENTRY_OFFSET.off then
    some (match s.power.saveList[s.fld .pwr F.PWR_SAVE_SEL_INDEX]? with
      | some (a, w) => if w && !secure then 0 else a + b2n w * 2 ^ 31
      | none => 0)
  else none

/-- AGE: the selected group, island and ledger record (R434, R443, R445, R446). -/
def ageWord (s : State) (o : Nat) : Option Nat :=
  let g := s.fld .age F.AGE_GRP_SEL_GROUP
  let i := s.fld .age F.AGE_ISL_SEL_ISLAND
  let isl := fun (v : Nat) => some (if i < 46 then v else 0)
  let rec? := s.age.ledger.reverse[s.fld .age F.AGE_LED_SEL_RECORD]?
  if o = F.AGE_HOURS_HOURS.off then some (s.age.hours % 2 ^ 32)
  else if o = F.AGE_GRP_MV.off then some (if g < 9 then s.mvPlan g + (groupRange g).2 * 2 ^ 16 else 0)
  else if o = F.AGE_ISL_PLAN_F_MHZ.off then
    isl (match flexRange i with | some (lo, _) => s.mhzPlan i + lo * 2 ^ 16 | none => 0)
  else if o = F.AGE_ISL_MARGIN_VREQ_MV.off then
    isl (match Sparse.find s.age.measured i with | some (v, d, k) => v % 2 ^ 12 + d % 2 ^ 12 * 2 ^ 12 + k % 256 * 2 ^ 24 | none => 0)
  else if o = F.AGE_ISL_CAP_CAP.off then isl (match s.islandCap i with | some c => c % 2 ^ 16 + 2 ^ 31 | none => 0)
  else if o = F.AGE_LED_DATA_DATA.off then some ((rec?.map fun r => r.word (s.fld .age F.AGE_LED_SEL_WORD)).getD 0)
  else if o = F.AGE_LED_STAT_COUNT.off then some (s.age.ledger.length + b2n ((rec?.map fun r => !r.crcOk).getD false) * 2 ^ 31)
  else none

/-- UPD: the boot record, the fuses and the journal (R451, R456). -/
def updWord (s : State) (o : Nat) : Option Nat :=
  let r := s.boot
  let trial := [1, 2, 3].find? fun k => s.update.trials.contains k
  if o = F.UPD_BOOT_PRIMARY.off then
    some (r.xiresol.confirmed % 2 + b2n trial.isSome * 2 + (match trial with | some k => (r.entry k).attempts % 4 | none => 0) * 4
      + r.microcode.confirmed % 2 * 2 ^ 4 + r.settings.confirmed % 2 * 2 ^ 5 + r.when_ % 4 * 2 ^ 6)
  else if o = F.UPD_SVN_XIRESOL.off then some (s.fuse 1 + s.fuse 2 * 2 ^ 8 + s.fuse 3 * 2 ^ 16)
  else if o = F.UPD_REVERT_REASON.off then
    some (s.update.journal.1 + s.update.journal.2.1 * 2 ^ 4 + min 255 s.update.journal.2.2 * 2 ^ 8)
  else none

/-- LOG: the selected entry, 0 newest (R475). -/
def logWord (s : State) (o : Nat) : Option Nat :=
  if F.LOG_DATA_DATA.hits o then
    some ((s.faults.log.reverse[s.fld .log F.LOG_CTRL_INDEX]?.map fun e => e.word ((o - F.LOG_DATA_DATA.off) / 4)).getD 0)
  else none

/-- A word that other state gives; `secure` tells the world of the reader. -/
def derivedWord (s : State) (secure : Bool) (pg : Page) (o : Nat) : Option Nat :=
  match pg with
  | .chn => s.chnWord o
  | .pool => if o = 0x00C then some (setBits 16 16 (s.viewWord .pool o) (b2n (!s.pool.fillQueue.isEmpty))) else s.poolWord o
  | .own => s.ownWord o
  | .wld => if o = F.WLD_HOLD_STAT_HELD.off then some s.holdStat else none
  | .vf fn => s.vfWord fn o
  | .hp p => s.hpWord p o
  | .ing n => s.ingWord n o
  | .cvu n => s.cvuWord n o
  | .dmc n => s.dmcWord n o
  | .edac => s.edacWord o
  | .hap => s.hapWord o
  | .plk => s.plkWord o
  | .pwr => s.pwrWord secure o
  | .age => s.ageWord o
  | .upd => s.updWord o
  | .log => s.logWord o
  | .sys =>
    if o = F.SYS_FATAL_COUNT.off then some (setBits 11 0 (s.viewWord .sys o) (min 255 s.faults.fatalCount + s.faults.fatalLast % 16 * 2 ^ 8))
    else none
  | .scn n =>
    -- the pipe clock within the line is a matter of time
    if o = F.SCN_POS_LINE.off then
      some (setBits 28 16 (s.viewWord pg o)
        (if (s.disp n).running then Config.openResult 0x0964 [n, s.now] % max 1 (s.timing n).clocks else 0))
    else none
  | _ => none

/-- A word as it stands. -/
def fullWord (s : State) (secure : Bool) (pg : Page) (o : Nat) : Nat := (s.derivedWord secure pg o).getD (s.viewWord pg o)

/-- What a read of a word by a requester returns (R10, R51): secure fields read 0 to the normal world, write-only fields
read 0, and RWS fields read their shadows. -/
def readWordFor (s : State) (a : RegAcc) : Nat :=
  let w := s.fullWord a.req.secure a.page a.off
  ((a.page.fieldsAt a.off).map fun f =>
    (if s.secFor a f && !a.req.secure then 0
      else if f.acc = .wo then 0
      else if f.acc = .rws then bits f.hi f.lo (s.sw (a.page.key a.off))
      else bits f.hi f.lo w) * 2 ^ f.lo).sum

/-- What a read does besides: AGE_LED_DATA advances AGE_LED_SEL.WORD. -/
def afterRead (s : State) (a : RegAcc) : State :=
  if a.page == .age && a.off == F.AGE_LED_DATA_DATA.off then s.addFld .age F.AGE_LED_SEL_WORD 1 else s

/-! ## Reads (R49, R50, R158) -/

/-- The _LO registers of 64-bit counters; each _HI register follows its _LO register. -/
def isCounterLo (pg : Page) (o : Nat) : Bool :=
  match pg with
  | .ing _ => F.ING_TILES_LO_COUNT_LO.hits o || F.ING_HOST_BYTES_LO_COUNT_LO.hits o || F.ING_POOL_WORDS_LO_COUNT_LO.hits o
  | .pmc => F.PMC_CNT_LO_COUNT_LO.hits o
  | .cvu _ => F.CVU_BYTES_LO_COUNT_LO.hits o
  | .plk => F.PLK_MIRROR_WORDS_LO_COUNT_LO.hits o
  | .aon => F.AON_TICK_LO_COUNT.hits o || F.AON_RES_LO_TICKS.hits o
  | .tim => F.TIM_NOW_LO_NOW.hits o
  | _ => false

/-- The word that the reading function has latched for a _HI register or for an upper word of a wide one; none reads as it stands. -/
def latchedWord (s : State) (a : RegAcc) : Nat :=
  match s.latched.find? fun l => l.fn == a.req.fn && l.key == a.page.key a.off with
  | some l => l.val.toNat
  | none => s.readWordFor a

/-- What a read of a word does and returns (R50, R158): the lowest word of a wide register latches its upper words for the reading function,
and the _LO word of a counter its _HI word; those words return what is latched. -/
def plainRead (a : RegAcc) (s : State) : State :=
  let wide := s.isWide a
  let isHi := (decide (4 ≤ a.off) && isCounterLo a.page (a.off - 4)) || (wide && a.off % 16 != 0)
  let s1 := (s.answerRead a (if isHi then s.latchedWord a else s.readWordFor a)).afterRead a
  let ups := if wide && a.off % 16 == 0 then [4, 8, 12] else if isCounterLo a.page a.off then [4] else []
  ups.foldl (fun t d => t.latchWord a.req.fn (a.page.key (a.off + d)) (s.readWordFor { a with off := a.off + d })) s1

end State

end Sys2Proof.Machine
end

