-- ==== Sys2Proof/Machine/PowerReq.lean ====
section
/-! DEFINITION. Power requests and their entries (R405 to R413), island gating (R406), the save list (R419, R420), hold-up up to the
point of no return (R423 to R427), device time registers (R428 to R432) and the AON's PMBus and alarm (R414, R416). Wakes stand in
Wake.lean, because they write registers back. -/

namespace Sys2Proof.Machine

/-- The islands of the domains that FALLOW gates: every one but AON and LINK. -/
def fallowIslands : List Nat := (List.range 46).filter fun i => decide (2 ≤ islandDomain i)

namespace State

/-! ## Requests (R407 to R409) -/

/-- The conditions of R409 that decide a request at once: a code and its ERR_INFO, or nothing when it starts. -/
def requestFault (s : State) (a : RegAcc) (target : Nat) : Option (Nat × Nat) :=
  let outs := s.runningOutputs
  let cl3 := outs.any fun n => (frameSlots (s.frameView n) n).any fun sl =>
    sl.en && (s.frameView n).fld (.slot n sl.k) F.OWNER_CRIT == 3
  if target = 3 ∨ 5 ≤ target then some (0x0006, a.info)
  else if !a.req.secure ∧ a.req.fn ≠ 0x40 ∧ a.req.fn ≠ s.manager then some (0x000A, a.info)
  else if s.power.req.isSome then some (0x0009, a.info)
  else
    match s.holdRefuses a.req (targetGroups target) with
    | some g => some (0x0202, s.holdInfo g a.req.fn)
    | none =>
      if target = s.power.state.code then none
      else if target = 1 ∧ cl3 ∧ s.fld .pwr F.PWR_IDLE_CFG_ALLOW_CL3 = 0 then some (0x1101, refusedInfo 3 target a.req.fn)
      else if target = 1 ∧ outs.any (fun n => !s.flag (.dpl n) F.DPL_SINK_PR) then some (0x1101, refusedInfo 4 target a.req.fn)
      else if (target = 2 ∨ target = 4) ∧ s.pair.state = .active ∧ s.paired ∧ !s.pair.pFallow then
        some (0x1101, refusedInfo 5 target a.req.fn)
      else none

/-- Transmitters that are enabled are powered and train again. -/
def linksStart (s : State) : State :=
  (List.range 8).foldl (fun t n =>
    if t.flag (.dpl n) F.PG_CTRL_ENABLE then
      let u := t.setDpl n { t.dpl n with powered := true }
      if (u.dpl n).hpd ∧ u.flag (.dpl n) F.DPL_CTRL_AUTO_TRAIN then u.train n else u
    else t) s

/-- Haptic channels that are enabled stand in IDLE again; a channel that still brakes comes to IDLE. -/
def hapticOn (s : State) : State :=
  (List.range 8).foldl (fun t c =>
    let h := t.hap c
    if t.fld .hap F.HAP_H_CTRL_EN [c] = 1 ∧ (h.state = .off ∨ h.turnOff) then
      t.setHap c { h with state := if h.state = .off then .idle else h.state, turnOff := false }
    else t) s

/-- AUD0 runs again while its ENABLE is 1. -/
def audioOn (s : State) : State :=
  if s.flag (.aud 0) F.PG_CTRL_ENABLE then
    (List.range 9).foldl (fun t n => t.setFld (.aud n) F.PG_STAT_ENABLED 1) { s with audio := { s.audio with closing := [], faded := [] } }
  else s

/-- The request returns the device to RUN: what it had stopped starts again, fetching resumes (R409). -/
def backToRun (s : State) (step : Nat) : State :=
  let s1 := { s with hosts := { s.hosts with fetchStopped := false } }
  let s2 := if step = 2 then s1.linksStart.hapticOn.audioOn.touchRestart else s1
  if s2.power.state = .idle then s2.idleExit else s2.restartOutputs

/-- A refusal with 0x1101 while the entry runs (R409 steps 9 and 10). -/
def refuseEntry (s : State) (reason : Nat) : State :=
  match s.power.req with
  | some r => (s.endRequest 0x1101 (refusedInfo reason r.target r.fn)).backToRun r.step
  | none => s

/-- A write of PWR_REQ. From FALLOW and HOLDUP the state table has no request, so one for another state does nothing. -/
def pwrReqWrite (a : RegAcc) (s : State) : State :=
  let target := bits 2 0 a.val
  if !s.grants a F.PWR_REQ_TARGET then s.recRefused a
  else
    let s0 := s.setFld .pwr F.PWR_REQ_STAT_TARGET target
    match s.requestFault a target with
    | some (code, info) => ((s0.setFld .pwr F.PWR_REQ_STAT_CODE code).recErr .pwr code info).event .pwr 0
    | none =>
      if target = s.power.state.code then s0.endRequest 0 0
      else if s.asleep then s
      else
        let s1 := (s0.setFld .pwr F.PWR_REQ_STAT_CODE 0).setFld .pwr F.PWR_REQ_STAT_BUSY 1
        let s2 := { s1 with power := { s1.power with req := some ⟨target, a.req.fn, a.req.secure, s.now, 1⟩ } }
        if target = 0 then s2.idleExit.endRequest 0 0
        else if target = 1 then s2.idleEntry
        else { s2 with hosts := { s2.hosts with fetchStopped := true } }

/-! ## The save engine (R419, R420) -/

/-- The value that the save engine reads: the active value, with its copies and computed fields. -/
def saveWord (s : State) (k : Nat) : Nat := match pageOfKey k with | some pg => s.fullWord true pg (k % 0x1000) | none => 0

/-- Store the save list in the AON SRAM. -/
def saveList (s : State) (cause : Nat) : State :=
  { s with power := { s.power with sram := some {
      words := s.power.saveList.map fun e => (e.1, e.2, s.saveWord e.1)
      bad := [], cause := cause, dtime := s.time.dtimeE, tick := s.time.tickE, cal := s.time.calE } } }

/-- A populated register word of the window (R42). -/
def populated (s : State) (o : Nat) : Bool :=
  o % 4 == 0 && (match (pageOf o).filter s.answers with | some pg => !(pg.fieldsAt (o % 0x1000)).isEmpty | none => false)

/-- PWR_SAVE_ADD. -/
def saveAdd (a : RegAcc) (s : State) : State :=
  let o := bits 23 0 a.val
  if s.secretPage a then s.recRefused a
  else
    match (pageOf o).filter fun _ => s.populated o with
    | none => s.recAcc a 0x0006
    | some pg =>
      if !a.req.secure ∧ (s.flag pg F.OWNER_WORLD ∨ (pg.fieldsAt (o % 0x1000)).any Fld.sec) then s.recAcc a 0x0201
      else if s.power.saveList.any fun e => e.1 == o then s
      else if 4096 ≤ s.power.saveList.length then s.recErr .pwr 0x1104 o
      else { s with power := { s.power with saveList := s.power.saveList ++ [(o, a.req.secure)] } }

/-- PWR_SAVE_CTRL.CLEAR. -/
def saveClear (a : RegAcc) (s : State) : State :=
  if s.grants a F.PWR_SAVE_CTRL_CLEAR then
    { s with power := { s.power with saveList := if a.req.secure then [] else s.power.saveList.filter fun e => e.2 } }
  else s.recRefused a

/-! ## FALLOW and OFF entry (R411) -/

/-- The pages whose registers Xiresol copies: those of the OUTn, ENGINES, FIELD and CORES domains. -/
def copiedKey (k : Nat) : Bool :=
  fallowIslands.any fun i => decide (3 ≤ islandDomain i) && (islandPages i).any fun pg => pg.base == keyPage k

/-- Copy the registers and shadows of the gated domains, tables included. -/
def copyDomains (s : State) : State :=
  { s with power := { s.power with
      copyRegs := s.regs.filter fun p => copiedKey p.1
      copyShad := s.shad.filter fun p => copiedKey p.1
      copyOk := true } }

/-- Give the gated domains the copied values back. -/
def restoreDomains (s : State) : State :=
  if !s.power.copyOk then s
  else
    { s with
      regs := s.power.copyRegs.foldl (fun m p => Sparse.put m p.1 p.2) (s.regs.filter fun p => !copiedKey p.1)
      shad := s.power.copyShad.foldl (fun m p => Sparse.put m p.1 p.2) (s.shad.filter fun p => !copiedKey p.1)
      power := { s.power with copyRegs := [], copyShad := [], copyOk := false } }

/-- Outputs stop, with their transmitters idle and AUX undriven. -/
def outputsOff (s : State) : State :=
  let run := s.runningOutputs
  let was := s.power.ranOutputs
  let s1 := run.foldl (fun t n => (t.stopNow n).videoStop n) s
  let s2 := (List.range 8).foldl (fun t n =>
    let u := (t.auxFail n).lanesIdle n
    if (u.dpl n).powered then u.setDpl n { u.dpl n with powered := false } else u) s1
  { s2 with power := { s2.power with ranOutputs := was.filter (fun n => !run.contains n) ++ run } }

/-- Touch panels stop, with a snapshot. -/
def touchOff (s : State) : State :=
  (List.range 2).foldl (fun t e =>
    if (Sparse.find t.touch.engines e).isSome then (t.setTouch e { t.touchEng e with todo := [] }).touchStop e else t) s

/-- Haptic channels brake towards OFF; in a block that does not drive they are OFF at once (R411 step 2). -/
def hapticBrakeOff (s : State) : State :=
  (List.range 8).foldl (fun t c =>
    let h := t.hap c
    if h.state = .off ∨ h.state = .fault then t
    else if s.standby || !s.hapRuns then t.setHap c { h with state := .off }
    else
      let u := t.setHap c { h with turnOff := true }
      if h.state = .brake then u else u.hapBrake c) s

/-- Audio fades out and stops as after a write of 0 to AUD0 ENABLE (R411 step 2, R369). -/
def audioFade (s : State) : State :=
  if s.flag (.aud 0) F.PG_STAT_ENABLED then
    let s1 := s.endStreams
    { s1 with audio := { s1.audio with closing := [0, 1, 2], faded := [], pause := 0 } }
  else s

/-- Step 2 of an entry has ended: every channel is OFF and the audio block has stopped. -/
def quietened (s : State) : Bool :=
  ((List.range 8).all fun c => match (s.hap c).state with | .off | .fault => true | _ => false)
    && !s.flag (.aud 0) F.PG_STAT_ENABLED

/-- The haptic outputs are not driven (R417). -/
def bridgesOff (s : State) : State := (List.range 8).foldl (fun t c => t.emit (.bridge c .highZ)) s

/-- Haptic channels are OFF at once. -/
def hapticOff (s : State) : State :=
  (List.range 8).foldl (fun t c =>
    let h := t.hap c
    if h.state = .off ∨ h.state = .fault then t else t.setHap c { h with state := .off }) s.hapSilence

/-- The work that an entry waits for has ended (R411 step 1). -/
def drained (s : State) : Bool :=
  s.hosts.jobs.all (fun j => j.stage == .owed)
    && s.ingest.engines.all (fun e => e.2.waiting.isEmpty && e.2.slots.isEmpty)
    && s.cvus.all (fun e => e.2.waiting.isEmpty && e.2.slots.isEmpty)
    && s.audio.streams.all (fun x => x.2.regions.isEmpty)
    && s.display.commits.all Commit.posted

/-- Links go to 2.5 GT/s and one lane; their trained rate and width come back with the wake (R411, R415). -/
def linkFlds : List (Page × Fld × Fld) :=
  [(.hp 0, F.HP_LINK_SPEED, F.HP_LINK_WIDTH), (.hp 1, F.HP_LINK_SPEED, F.HP_LINK_WIDTH), (.plk, F.PLK_LINK_SPEED, F.PLK_LINK_WIDTH)]

def linksSlow (s : State) : State :=
  let s1 := { s with power := { s.power with links := linkFlds.map fun l => (s.fld l.1 l.2.1, s.fld l.1 l.2.2) } }
  linkFlds.foldl (fun t l => if t.fld l.1 l.2.1 = 0 then t else (t.setFld l.1 l.2.1 1).setFld l.1 l.2.2 1) s1

def linksBack (s : State) : State :=
  let s1 := (linkFlds.zip s.power.links).foldl (fun t l =>
    if t.fld l.1.1 l.1.2.1 = 0 then t else (t.setFld l.1.1 l.1.2.1 l.2.1).setFld l.1.1 l.1.2.2 l.2.2) s
  { s1 with power := { s1.power with links := [] } }

/-- Steps 3 to 6 of an entry, once channels brake no more and audio has faded. -/
def fallowFinish (s : State) : State :=
  match s.power.req with
  | none => s
  | some r =>
    if r.step ≠ 2 ∨ (r.target ≠ 2 ∧ r.target ≠ 4) ∨ !s.quietened ∨ s.asleep then s
    else
      let s2 := (((s.copyDomains.captureTime).saveList r.target).selfRefreshEntry).bridgesOff
      if r.target = 2 then
        let s3 := s2.linksSlow
        (({ s3 with power := { s3.power with stateGated := fallowIslands } }).enterPower .fallow).endRequest 0 0
      else
        let en := s2.fld .pwr F.PWR_WAKE_EN_SOURCES
        let s3 := ((s2.endRequest 0 0).writeTail).deviceReset 5
        ({ s3 with power := { s3.power with wakeEn := en } }).enterPower .off

/-- The work has drained: step 2 begins, and with nothing to brake or fade the entry ends. -/
def fallowEntry (s : State) : State :=
  match s.power.req with
  | none => s
  | some r =>
    if (r.target ≠ 2 ∧ r.target ≠ 4) ∨ s.asleep then s
    else if r.step = 2 then s.fallowFinish
    else if !s.drained then s
    else
      let s1 := s.outputsOff.touchOff.hapticBrakeOff.audioFade
      ({ s1 with power := { s1.power with req := some { r with step := 2 } } }).fallowFinish

/-- The work of step 1 has not drained within 100 ms. -/
def fallowTimeout (s : State) : State :=
  match s.power.req with
  | some r => if r.step = 1 ∧ (r.target = 2 ∨ r.target = 4) then s.refuseEntry 6 else s
  | none => s

/-! ## Islands (R406) -/

/-- The registers of a gated island's pages are lost: they hold their reset values, with what start-up loaded. -/
def loseIsland (s : State) (i : Nat) : State :=
  let mine := fun (k : Nat) => (islandPages i).any fun pg => pg.base == keyPage k
  let s1 := { s with regs := s.regs.filter (fun p => !mine p.1), shad := s.shad.filter fun p => !mine p.1 }
  (s.loaded.filter fun p => mine p.1).reverse.foldl (fun t p => (t.setRw p.1 p.2.toNat).setSw p.1 p.2.toNat) s1

/-- PWR_ISL_CTRL. -/
def islWrite (a : RegAcc) (s : State) : State :=
  let i := s.fld .pwr F.PWR_ISL_SEL_ISLAND
  let old := s.islandCtrl i
  let new := bits 1 0 a.val
  let stops := (bit 0 new && !bit 0 old) || (bit 1 new && !bit 1 old)
  if s.secretPage a then s.recRefused a
  else if 46 ≤ i then (if s.writesAny a then s.recErr .pwr 0x0006 (selInfo a i) else s)
  else if new = old then s
  else
    match (if stops then s.holdRefuses a.req (islandGroups i) else none) with
    | some g => s.recErr .pwr 0x0202 (s.holdInfo g a.req.fn)
    | none =>
      if islandDomain i < 2 then s.recAcc a 0x000A
      else if stops ∧ (islandPages i).any (fun pg => s.flag pg F.PG_STAT_ENABLED) then s.recErr .pwr 0x1101 (refusedInfo 9 0 a.req.fn)
      else
        let s1 := s.setRw (islKey i) new
        if bit 0 new ∧ !bit 0 old then s1.loseIsland i else s1

/-! ## Registers with limits of their own -/

/-- PWR_WAKE_LIMIT: a limit of 0 is refused. -/
def wakeLimitWrite (a : RegAcc) (s : State) : State :=
  if bits 7 0 a.val = 0 ∨ bits 15 8 a.val = 0 then
    s.refuse a 0x0006
  else s.plainWrite a

/-- AON_CAN_WUP: TWAKE from 7 to 100. -/
def twakeWrite (a : RegAcc) (s : State) : State :=
  let t := bits 6 0 a.val
  if t < 7 ∨ 100 < t then s.refuse a 0x0006 else s.plainWrite a

/-- AON_ALARM_HI: the write arms the alarm. -/
def alarmWrite (a : RegAcc) (s : State) : State :=
  if s.secretPage a then s.recRefused a
  else
    let s1 := s.plainWrite a
    { s1 with power := { s1.power with alarmArmed := true } }

/-! ## Device time registers (R429, R430, R432) -/

/-- TIM_SET_HI. -/
def timSetWrite (a : RegAcc) (s : State) : State :=
  if s.secretPage a then s.recRefused a
  else if !a.req.secure ∧ a.req.fn ≠ s.manager then s.refuse a 0x000A
  else if s.standby then s.refuse a 0x1003
  else
    let s1 := s.setFld .tim F.TIM_SET_HI_SET a.val
    let v := (a.val * 2 ^ 32 + s1.fld .tim F.TIM_SET_LO_SET) % 2 ^ 64
    (({ s1 with time := { s1.time with dtime := v, frac := 0 } }).event .tim 1).clearBridged

/-- TIM_TRIM. -/
def timTrimWrite (a : RegAcc) (s : State) : State :=
  let v := signed 18 (bits 17 0 a.val)
  if s.standby then s.refuse a 0x000A
  else if v < -100000 ∨ 100000 < v then s.refuse a 0x0006
  else s.plainWrite a

/-- A calibration interval of 32,768 ticks has counted c reference cycles. -/
def timCal (s : State) (c : Nat) : State := if s.asleep then s else s.setFld .tim F.TIM_CAL_CAL (c * 80)

/-! ## The PMBus controller -/

/-- The page that a command addresses feeds a held group, and the command would turn it off: OPERATION without its on bit, or a write
of ON_OFF_CONFIG, whose effect on the rail the device cannot tell. -/
def pmbHeld (s : State) (req : Req) (addr cmd data len : Nat) (read : Bool) : Option Nat :=
  let off := !read && ((cmd == 0x01 && decide (1 ≤ len) && !bit 7 data) || (cmd == 0x02 && decide (1 ≤ len)))
  let pgNo := Sparse.get (fun _ => 0) s.power.pmbPage addr
  if off then s.holdRefuses req (Sparse.get (fun _ => []) s.power.railMap pgNo) else none

/-- AON_PMB_CTRL. -/
def pmbWrite (a : RegAcc) (s : State) : State :=
  let go := s.grants a F.AON_PMB_CTRL_GO
  let len := bits 17 16 a.val
  let addr := bits 6 0 a.val
  let cmd := bits 15 8 a.val
  let read := bit 7 a.val
  let data := s.fld .aon F.AON_PMB_DATA_DATA % 256 ^ len
  if s.secretPage a then s.recRefused a
  else if len = 3 then s.refuse a 0x0006
  else if go ∧ s.power.pmb.isSome then s.refuse a 0x0009
  else
    let s1 := s.plainWrite a
    if !go then s1
    else
      match s.pmbHeld a.req addr cmd data len read with
      | some g => s1.recErr .pwr 0x0202 (s.holdInfo g a.req.fn)
      | none =>
        let s2 := { s1 with power := { s1.power with
          pmb := some (addr, cmd, read, len)
          pmbPage := if cmd = 0 ∧ !read ∧ 1 ≤ len then Sparse.put s1.power.pmbPage addr (data % 256) else s1.power.pmbPage } }
        ((s2.setFld .aon F.AON_PMB_STAT_STATE 1).setFld .aon F.AON_PMB_STAT_PEC_ERR 0).emit (.pmbus addr cmd data)

/-- The transaction ends. -/
def pmbEnd (s : State) (ok pec : Bool) (data : Nat) : State :=
  match s.power.pmb with
  | none => s
  | some (_, _, read, len) =>
    let s1 := { s with power := { s.power with pmb := none } }
    let s2 := (s1.setFld .aon F.AON_PMB_STAT_STATE (if ok then 2 else 3)).setFld .aon F.AON_PMB_STAT_PEC_ERR (b2n (!ok && pec))
    let s3 := if ok ∧ read then s2.setFld .aon F.AON_PMB_DATA_DATA (data % 256 ^ len) else s2
    s3.event .aon 5

/-- VHOLD has been measured (R427). The spec states no code for the report of CAP_LOW: it is one of R61, and open. -/
def vholdMeasure (s : State) (mv cap mohm : Nat) (meets : Bool) : State :=
  let s1 := ((s.setFld .aon F.AON_VHOLD_MV mv).setFld .aon F.AON_VHOLD_CAP_UF cap).setFld .aon F.AON_VHOLD_ESR_MOHM mohm
  let s2 := s1.setFld .aon F.AON_BS_VHOLD_OK (b2n (4850 ≤ mv))
  let s3 := s2.setFld .pwr F.PWR_STAT_HOLD_READY (b2n (decide (4850 ≤ mv) && meets))
  if !meets ∨ 50 < mohm then (s3.event .aon 4).reportContained .aon (openCode 0x0427 []) else s3

/-! ## Hold-up (R423 to R426, R474) -/

/-- Abort every gate entry, and scrub its core (R100). -/
def abortGates (s : State) : State :=
  (List.range 4).foldl (fun t k => if (t.core k).inSecure then t.scrub k (t.core k).result0 (t.core k).result1 else t) s

/-- The hardware's part of a sag, and the squash of all work without completions. -/
def sagStop (s : State) : State :=
  let s1 := { s with hosts := { s.hosts with fetchStopped := true }, pair := { s.pair with guyOut := false } }
  let s2 := (List.range 4).foldl (fun t n => (t.ingSquash n (fun _ => true) false).cvuSquash n (fun _ => true) false) s1
  let s3 := (s2.display.commits.filter fun c => c.stage != .applying).foldl dropCommit s2
  let s4 := (List.range 64).foldl (fun t c =>
    if (t.stream c).regions ≠ [] then (t.releaseRegions c true).setStream c idleStream else t) s3
  let s5 := (List.range 2).foldl (fun t e => t.setTouch e idleTouch) s4.outputsOff
  let s6 := s5.hapticOff.audStopped
  (List.range 16).foldl (fun t n =>
    if (t.dmc n).training then t.setDmc n { t.dmc n with training := false, want := true } else t) s6

/-- What a sag does to an update (R452, R461): the session ends with TIMEOUT, what runs stops, and a copy of the boot record that was being
written fails its CRC. -/
def sagSession (s : State) : State :=
  let u := s.update
  let writing := match u.running with
    | some r => r.code == 0 && ((r.op == 4 && !(u.kind == 2 && r.when_ == 3)) || (r.op == 5 && u.state == 3))
    | none => false
  if u.state = 0 then (if u.running.isSome then s.setUpd { u with running := none } else s)
  else
    let s1 :=
      if !writing then s
      else if u.copy0.seq ≤ u.copy1.seq then { s with update := { u with copy0 := { u.copy0 with crcOk := false } } }
      else { s with update := { u with copy1 := { u.copy1 with crcOk := false } } }
    let s2 := ({ s1 with update := { s1.update with running := none, micro := [] } }).closeSession
    ((s2.setFld .upd F.UPD_STAT_CODE 0x0007).recErr .upd 0x0007).event .upd 3

/-- A sag abandons a survey without a record (R439). -/
def sagSurvey (s : State) : State := if s.age.survey.isSome then s.setAge { s.age with survey := none } else s

/-- A sag: HOLDUP starts, and the flush stores what it can. -/
def sag (s : State) : State :=
  if s.faults.inReset ∨ s.power.state = .holdup ∨ s.power.state = .off ∨ s.power.state = .stopped then s
  else
    let fallow := s.power.state == .fallow
    let fatal := s.faults.fatal.isSome
    let s1 := { s with power := { s.power with
      req := none, wake := none, wakeWait := false, resume := false, sagAt := s.now, flushed := false, saving := false, restart := false
      readyAtSag := s.flag .pwr F.PWR_STAT_HOLD_READY, noResume := fallow || fatal } }
    let s2 := ((s1.setFld .pwr F.PWR_REQ_STAT_BUSY 0).setFld .aon F.AON_BS_VSAG 1).abortGates.sagSession.sagSurvey
    let s3 := if fallow then { s2 with pair := { s2.pair with guyOut := false } }
      else if fatal then (s2.captureTime.saveList 3).selfRefreshEntry
      else ((s2.sagStop.copyDomains.captureTime).saveList 3).selfRefreshEntry
    (if fallow then s3.captureTime else s3).enterPower .holdup

/-- The save of the MRAM image starts: the save record is written first. -/
def startSave (s : State) : State :=
  let p := s.power
  ({ s with power := { p with
      recordN := (if p.recordOk then p.recordN else 0) + 1, consumed := false, recordOk := true, saving := true } }).writeTail

/-- The image slot that the running save writes: the one that does not hold the image before it. -/
def saveSlotB (s : State) : Bool :=
  match s.power.slotA with | some m => m.number + 1 == s.power.recordN && m.crcOk | none => false

/-- Write the image, or leave it without a header. -/
def putSlot (s : State) (ok : Bool) : State :=
  let img : SramImage := s.power.sram.getD ⟨[], [], 3, s.time.dtimeE, s.time.tickE, s.time.calE⟩
  let m : MramSlot := {
    number := s.power.recordN, crcOk := ok, image := { img with dtime := s.time.dtimeE, tick := s.time.tickE, cal := s.time.calE }
    residency := (List.range 5).map fun i => s.fld .aon F.AON_RES_LO_TICKS [i] + s.fld .aon F.AON_RES_HI_TICKS [i] * 2 ^ 32
    tick := s.time.tickE }
  if s.saveSlotB then { s with power := { s.power with slotB := some m } } else { s with power := { s.power with slotA := some m } }

/-- The save ends: 1 VHOLD below 3.0 V, 2 a write error; 3 stands for a sag while HOLD_READY was 0, whatever the save did. -/
def saveEnd (s : State) (fault : Nat) : State :=
  let b := s.saveSlotB
  let s1 := s.putSlot (fault == 0)
  let s2 := { s1 with power := { s1.power with saving := false, restart := fault != 1 } }
  let s3 := s2.setFld .aon F.AON_SAVE_TIME_SAVE_US (min 0xFFFF ((s.now - s.power.sagAt) / 1000))
  let s4 := s3.setFld .aon F.AON_SAVE_STAT_LAST (if fault = 0 then 1 else 2)
  let s5 := if fault = 0 then (s4.setFld .aon F.AON_SAVE_STAT_SLOT (b2n b)).satFld .aon F.AON_SAVE_STAT_SAVES 1 else s4
  if !s.power.readyAtSag then s5.recErr .pwr 0x1103 3 else if fault ≠ 0 then s5.recErr .pwr 0x1103 fault else s5

def mramSaveDone (s : State) (err : Bool) : State :=
  if s.power.state = .holdup ∧ s.power.saving then s.saveEnd (if err then 2 else 0) else s

/-- VHOLD has fallen below 3.0 V: the device stops. -/
def vholdExhausted (s : State) : State :=
  if s.power.state ≠ .holdup then s
  else (if s.power.saving then s.saveEnd 1 else s).enterPower .stopped

/-- The supply returns after the save: the device restarts with the image. -/
def supplyReturn (s : State) : State :=
  if s.power.state = .holdup ∧ s.power.restart then (s.setFld .aon F.AON_BS_VSAG 0).deviceReset 7 else s

end State

/-- A write of PWR_REQ for a state. -/
def isPwrReq (target : Nat) (a : RegAcc) : Bool := State.isWord .pwr F.PWR_REQ_TARGET a && bits 2 0 a.val == target

/-! ## The commands -/

def execPwrReqRun (w : RegWr) (s : State) : Host.Outcome State Fault Refusal := .next (s.accessAt w (isPwrReq 0) State.pwrReqWrite)

def execPwrReqIdle (w : RegWr) (s : State) : Host.Outcome State Fault Refusal := .next (s.accessAt w (isPwrReq 1) State.pwrReqWrite)

def execPwrReqFallow (w : RegWr) (s : State) : Host.Outcome State Fault Refusal := .next (s.accessAt w (isPwrReq 2) State.pwrReqWrite)

def execPwrReqOff (w : RegWr) (s : State) : Host.Outcome State Fault Refusal := .next (s.accessAt w (isPwrReq 4) State.pwrReqWrite)

def execFallowDrainDone (s : State) : Host.Outcome State Fault Refusal := .next s.fallowEntry

def execFallowDrainTimeout (s : State) : Host.Outcome State Fault Refusal := .next s.fallowTimeout

def execSag (s : State) : Host.Outcome State Fault Refusal := .next s.sag

def execMramSaveDone (err : Bool) (s : State) : Host.Outcome State Fault Refusal := .next (s.mramSaveDone err)

def execVholdExhausted (s : State) : Host.Outcome State Fault Refusal := .next s.vholdExhausted

def execSupplyReturn (s : State) : Host.Outcome State Fault Refusal := .next s.supplyReturn

def execPwrIslWrite (w : RegWr) (s : State) : Host.Outcome State Fault Refusal :=
  .next (s.accessAt w (State.isWord .pwr F.PWR_ISL_CTRL_GATE) State.islWrite)

def execPwrSaveAdd (w : RegWr) (s : State) : Host.Outcome State Fault Refusal :=
  .next (s.accessAt w (State.isWord .pwr F.PWR_SAVE_ADD_OFFSET) State.saveAdd)

def execPwrSaveClear (w : RegWr) (s : State) : Host.Outcome State Fault Refusal :=
  .next (s.accessAt w (State.isWord .pwr F.PWR_SAVE_CTRL_CLEAR) State.saveClear)

def execVholdMeasure (mv capUf mohm : Nat) (meets : Bool) (s : State) : Host.Outcome State Fault Refusal :=
  .next (s.vholdMeasure mv capUf mohm meets)

def execTimCalInterval (c : Nat) (s : State) : Host.Outcome State Fault Refusal := .next (s.timCal c)

def execTimSet (w : RegWr) (s : State) : Host.Outcome State Fault Refusal :=
  .next (s.accessAt w (State.isWord .tim F.TIM_SET_HI_SET) State.timSetWrite)

def execAonAlarmArm (w : RegWr) (s : State) : Host.Outcome State Fault Refusal :=
  .next (s.accessAt w (State.isWord .aon F.AON_ALARM_HI_TICK) State.alarmWrite)

def execAonPmbGo (w : RegWr) (s : State) : Host.Outcome State Fault Refusal :=
  .next (s.accessAt w (fun a => State.isWord .aon F.AON_PMB_CTRL_GO a && bit 31 a.val) State.pmbWrite)

def execPmbDone (ok pec : Bool) (data : Nat) (s : State) : Host.Outcome State Fault Refusal := .next (s.pmbEnd ok pec data)

end Sys2Proof.Machine
end

