-- ==== Sys2Proof/Machine/Clock.lean ====
section
/-! DEFINITION. One cycle of the 25 MHz reference: device time (R428), the AON tick counter and the residency counters
(R418), and the end of a FALLOW or OFF entry whose braking and fades are over (R411). A step with no command waiting takes one cycle
(DESIGN CHOICE, see the assumption log). -/

namespace Sys2Proof.Machine

/-- Reference cycles of 40 ns, in units of 10^-9 ns, as TIM_TRIM.PPB scales them (R428). -/
def State.cycleLength (s : State) : Nat := (40 * (1000000000 + signed 18 (s.fld .tim F.TIM_TRIM_PPB))).toNat

/-- Device time over one cycle: it runs from the reference unless it was captured for the AON ticks to carry (R428,
R429). -/
def Time.cycle (t : Time) (len : Nat) : Time :=
  if t.captured then t
  else
    let total := t.frac + len
    { t with dtime := (t.dtime + total / 1000000000) % 2 ^ 64, frac := total % 1000000000 }

/-- The AON part of one cycle: 40 ns are 1,310,720 of 10^9 parts of a 32.768 kHz tick (R418, R428). -/
def Time.aonCycle (t : Time) : Time :=
  let part := t.tickFrac + 1310720
  { t with ticks := (t.ticks + part / 1000000000) % 2 ^ 48, tickFrac := part % 1000000000 }

/-- Whether this cycle ends an AON tick. -/
def Time.tickDue (t : Time) : Bool := decide (1000000000 ≤ t.tickFrac + 1310720)

namespace State

/-- Count one tick in the residency counter of the running power state (R418). -/
def countResidency (s : State) : State :=
  s.addCnt .aon F.AON_RES_LO_TICKS F.AON_RES_HI_TICKS 1 [s.power.state.code]

/-- The AON in one cycle; without its supply nothing counts (R424). -/
def aonTick (s : State) : State :=
  if s.power.state = .stopped then s
  else
    let due := s.time.tickDue
    let s1 := { s with time := s.time.aonCycle }
    if due then s1.countResidency else s1

/-- Clock cycles of service core k in the normal world during this cycle of the reference (R102, R108); islands 35 to 38 carry the cores. -/
def coreCycles (s : State) (k : Nat) : Nat :=
  if s.islandClocked (35 + k) ∧ !s.inGate k then (s.now + 40) * s.mhzNow (35 + k) / 1000 - s.now * s.mhzNow (35 + k) / 1000 else 0

/-- The service cores' event of the performance counters. -/
def countCores (s : State) : State :=
  if s.asleep then s else s.pmcCount 0x08 0x40 false false ((List.range 4).map s.coreCycles).sum

/-- One cycle of the reference. -/
def tick (s : State) : State :=
  let s1 := s.countCores
  ({ s1 with now := s1.now + 40, time := s1.time.cycle s1.cycleLength }).aonTick.fallowFinish

end State

end Sys2Proof.Machine
end

