-- ==== Sys2Proof/Machine/Fetch.lean ====
section
/-! DEFINITION. Fetching a submission entry: the weighted round robin of a port, the holds that keep an entry in its ring, and the
dispatch to the command's own meaning (R116, R117, R118, R124, R150, R253, R500). -/

namespace Sys2Proof.Machine

/-- A submission entry taken apart (R118). -/
def entryArgs (fn q : Nat) (ws : List Word32) : Nat × CmdArgs :=
  let w := fun (i : Nat) => (ws.getD i 0).toNat
  (bits 7 0 (w 0),
   { fn := fn, q := q, cid := bits 31 16 (w 0), ordered := bit 8 (w 0), rsvd := bits 15 9 (w 0) + w 1 * 2 ^ 7
     params := (List.range 14).map fun i => w (i + 2) })

namespace State

/-- Whether a queue has an entry that may be fetched: RUNNING, entries waiting, and room in the CQ (R115, R116). -/
def fetchable (s : State) (f q : Nat) : Bool :=
  let x := s.queue f q
  x.state == .running && x.sqHead != x.sqTail && decide (s.cqLoad f q + 1 < s.cqSize f q)

/-- The queues of a function that may be fetched from. -/
def waitingQueues (s : State) (f : Nat) : List Nat := (List.range (queueCount f)).filter (s.fetchable f)

/-- The functions of a port that wait. -/
def waitingFns (s : State) (p : Nat) : List Nat :=
  (portFns p).filter fun f => s.fnState f == .enabled && !(s.waitingQueues f).isEmpty

/-- The element that follows one in cyclic order. -/
def after (l : List Nat) (x : Nat) : Option Nat := match l.find? fun y => decide (x < y) with | some y => some y | none => l.head?

/-- Whether an entry stays in its ring for now: ORDERED behind uncompleted entries, or an engine whose list is full. -/
def entryHeld (s : State) (f q opcode : Nat) (c : CmdArgs) : Bool :=
  (c.ordered && s.uncompleted f q != 0)
    || (opcode == 0x10 && s.ingestFull (c.params.getD 1 0)) || (opcode == 0x18 && s.scanFull (c.params.getD 1 0))

/-- Carry out an entry by its opcode. -/
def dispatch (s : State) (opcode : Nat) (c : CmdArgs) : State :=
  let run := fun (f : Job → State → State) => s.carryEntry opcode c f
  match opcode with
  | 0x00 => run carryNop
  | 0x01 => run carryChannelCreate
  | 0x02 => run carryChannelDestroy
  | 0x03 => run carryBufferAlloc
  | 0x04 => run carryBufferFree
  | 0x05 => run carryBufferQuery
  | 0x10 => run carryIngest
  | 0x18 => run carryScan
  | 0x20 => s.commitCommand c
  | 0x28 => run carryAudioQueue
  | 0x30 => run carryHapticPlay
  | 0x31 => run carryTouchRule
  | 0x40 => run carryFnReset
  | 0x41 => run carryFnQuery
  | _ => run fun _ t => t

/-- Fetching runs on a port: the link is up and fetching is not stopped. -/
def fetchOn (s : State) (p : Nat) : Bool :=
  decide (p < 2) && s.portUp p && !s.hosts.fetchStopped && (s.power.state == .run || s.power.state == .idle) && s.faults.fatal.isNone
    && !s.faults.inReset

/-- The first entry of the internal queues that may start: the oldest of its queue, and not held (R150, R195). -/
def coreReady (s : State) : Option (Nat × CmdArgs) :=
  let l := s.hosts.coreEntries
  l.find? fun e => (l.find? fun x => x.2.fn == e.2.fn && x.2.q == e.2.q) == some e && !s.entryHeld e.2.fn e.2.q e.1 e.2

/-- A fetch from the internal queues. -/
def coreFetch (s : State) : State :=
  match s.coreReady with
  | none => s
  | some e => ({ s with hosts := { s.hosts with coreEntries := s.hosts.coreEntries.erase e } }).dispatch e.1 e.2

/-- Fetching runs on the internal queues. -/
def coreFetchOn (s : State) : Bool :=
  !s.hosts.fetchStopped && (s.power.state == .run || s.power.state == .idle) && s.faults.fatal.isNone && !s.faults.inReset

/-- A fetch on a port, `ws` being the entry that the host placed at the head of the ring served; port 2 stands for the internal queues,
whose entries the state holds. -/
def commandFetch (s : State) (p : Nat) (ws : List Word32) : State :=
  if p = 2 then (if s.coreFetchOn then s.coreFetch else s)
  else if !s.fetchOn p then s
  else
    match s.pickFn p (s.waitingFns p) with
    | (none, s1) => s1
    | (some f, s1) =>
      match after (s1.waitingQueues f) (Sparse.get (fun _ => 8) s1.hosts.lastQ f) with
      | none => s1
      | some q =>
        let s2 := ({ s1 with hosts := { s1.hosts with lastQ := Sparse.put s1.hosts.lastQ f q } }).served p f
        let (opcode, c) := entryArgs f q ws
        if s2.entryHeld f q opcode c then s2
        else
          let x := s2.queue f q
          let n := s2.sqSize f q
          (s2.setQueue f q { x with sqHead := if x.sqHead + 1 < n then x.sqHead + 1 else 0 }).dispatch opcode c

end State

/-! ## The commands -/

def execCommandFetch (port : Nat) (entry : List Word32) (s : State) : Host.Outcome State Fault Refusal :=
  .next (s.commandFetch port entry)

end Sys2Proof.Machine
end

