-- ==== Sys2Proof/Machine/RegWrite.lean ====
section
/-! DEFINITION. PG_CTRL of every page (R46, R47, R72, R157, R285, R369, R443, R446, R462, R498, R499, R501) and the one dispatcher that
carries a register write to the rule of its word. Rows of the table that name one word use the same rule. -/

namespace Sys2Proof.Machine

namespace State

/-! ## PG_CTRL -/

/-- ENABLE of an ING or CVU page: refused out of service (R443); a stop lets accepted commands end (R157). -/
def engineEnable (a : RegAcc) (stat : State → State) (on : Bool) (s : State) : State :=
  if on then
    match s.outOfService a.page with
    | some i =>
      -- a mirrored action that a device without the token refuses is also a contained fault there
      let s1 := s.recErr a.page 0x1202 i
      if s.standby then s1.reportContained a.page 0x1202 i else s1
    | none => plainEnable a.page true s
  else stat (s.setFld a.page F.PG_CTRL_ENABLE 0)

/-- A soft reset of a pipe, slot or check-region page (R46, R160, R207): CHKj_OWNER takes the plan's value again, and the fence of a buffer
that the page no longer names is released at the next frame, or at once while the output is stopped. -/
def outputPageReset (a : RegAcc) (n : Nat) (s : State) : State :=
  let s0 := s.resetPage a.page
  let s1 := mirrorWrite s (match a.page with | .slot _ k => s0.resetGrant n k | _ => s0) a 0 0
  if (s.disp n).running then s1 else s1.settleFences n

/-- A soft reset of POOL or CHN: refused while any channel exists; the table generations stay (R72). -/
def poolReset (a : RegAcc) (s : State) : State :=
  if s.pool.chans.used ≠ [] then s.recAcc a 0x0009
  else
    let s1 := s.resetPage a.page
    mirrorWrite s (if a.page = .pool then { s1 with pool := { s1.pool with peak := [] } } else s1) a 0 0

/-- Words whose value shows work or a link that a soft reset of their page does not stop. -/
def liveWord (pg : Page) (k : Nat) : Bool :=
  let o := k % 0x1000
  decide (k < 0x1_0000_0000) &&
    (match pg with
     | .sys => o == 0x00C || o == 0x044 || o == 0x058
     | .pwr => o == 0x00C || o == 0x044 || o == 0x048
     | .aon => o == 0x00C
     | .log => o == 0x040 || o == 0x044
     | .wld => o == 0x040 || o == 0x044 || o == 0x060
     | .pmc => o == 0x044
     | _ => false)

/-- The kept words of OWN (R498): the table's place and the criticality of every function. -/
def ownKept (k : Nat) : Bool :=
  k == Page.own.key 0x040 || k == Page.own.key 0x044
    || (decide (0x1_0000_0000 ≤ k) && (k - 0x1_0000_0000) / 0x100000 == Page.own.key F.OWN_FN_CRIT_CRIT.off)

/-- A soft reset of a page whose chapter adds nothing to R46, and of WLD and OWN (R498). -/
def systemReset (pg : Page) (s : State) : State :=
  let s1 := s.resetPage pg fun k => liveWord pg k || (pg == .own && ownKept k)
  match pg with
  | .own => { s1 with pool := { s1.pool with cache := [] } }
  | .aon => { s1 with power := { s1.power with pmb := none, alarmArmed := false } }
  | _ => s1

/-- What ENABLE does on each page. -/
def pageEnable (a : RegAcc) (on : Bool) (s : State) : State :=
  match a.page with
  | .scn _ => scnEnable a on s
  | .dpl _ => dplEnable a on s
  | .pool => if on then s.poolEnable a else s.poolDisable a
  | .chn => if on then mirroredEnable a true s else s.poolDisable a
  | .tch _ => tchEnable a on s
  | .hap => hapBlockEnable a on s
  | .aud _ => audEnable a on s
  | .plk => plkEnable a on s
  | .ing n => engineEnable a (·.ingStat n) on s
  | .cvu n => engineEnable a (·.cvuStat n) on s
  | .dmc _ => dmcEnable a on s
  | .edac | .age => if on then plainEnable a.page true s else s.recAcc a 0x000A
  | .pipe _ | .slot _ _ | .chk _ => mirroredEnable a on s
  | pg => plainEnable pg on s

/-- What SOFT_RESET does on each page. -/
def pageReset (a : RegAcc) (s : State) : State :=
  match a.page with
  | .scn _ => scnReset a s
  | .dpl _ => dplReset a s
  | .pool | .chn => poolReset a s
  | .tch _ => tchReset a s
  | .hap => hapBlockReset a s
  | .aud _ => audReset a s
  | .plk => plkReset a s
  | .ing n => (s.ingSquash n (fun _ => true) true).resetPage a.page
  | .cvu n => (s.cvuSquash n (fun _ => true) true).resetPage a.page
  | .dmc _ => dmcReset a s
  | .edac => s.edacReset
  | .age | .upd => s.recAcc a 0x000A
  | .hp p => hpReset p s
  | .pipe n | .slot n _ | .chk n => outputPageReset a n s
  | pg => systemReset pg s

/-- A write of PG_CTRL. -/
def pgCtrl (a : RegAcc) (s : State) : State :=
  match a.page with
  | .vf fn => s.vfCtrlWrite a fn
  | _ => s.ctrlWrite a (pageEnable a) (pageReset a)

/-! ## Words that no row of the table names by itself -/

/-- HP_FN_WEIGHT of the function that HP_FN_SEL names. -/
def weightWrite (a : RegAcc) (s : State) : State :=
  if s.grants a F.HP_FN_WEIGHT_WEIGHT then
    s.setRw (bankKey (a.page.key a.off) (s.fld a.page F.HP_FN_SEL_FUNCTION)) (bits 7 0 a.val)
  else s.recRefused a

/-- OWN_TABLE_LO and OWN_TABLE_HI stand still while the pool is enabled (R93). -/
def ownTableWrite (a : RegAcc) (s : State) : State :=
  if s.poolOn then s.refuse a 0x000A else s.plainWrite a

/-- OWN_FN_CRIT of the function that OWN_FN_SEL names; 0x41 ignores writes. -/
def fnCritWrite (a : RegAcc) (s : State) : State :=
  let sel := s.fld .own F.OWN_FN_SEL_FUNCTION
  if sel = 0x41 ∧ a.req.secure then s
  else if !s.grants a F.OWN_FN_CRIT_CRIT then s.recRefused a
  else (s.setRw (bankKey (a.page.key a.off) sel) (bits 1 0 a.val)).mirror (.reg (a.page.key a.off) a.val 0 sel a.req.fn true)

/-- CHK_CTRL of a region: a written ACTION of 3 is refused with its word. -/
def chkCtrlWrite (a : RegAcc) (s : State) : State :=
  if bits 3 2 a.val = 3 ∧ s.written a F.CHK_CTRL_ACTION then s.refuse a 0x0006 else s.plainWrite a

/-- Every other word: its fields take their values, and a mirrored page's write is queued for the partner. -/
def plainWord (a : RegAcc) (s : State) : State := mirrorWrite s (s.plainWrite a) a 0 0

/-! ## The end of an early image (R468) -/

/-- The early image of output n ends. The slot is disabled from the next latch point and names its image no more, OWNER takes END_OWNER
unless the secure world has written it, the image's buffer is freed after its last frame, and its channel goes. -/
def earlyEnd (s : State) (n : Nat) (owner : Bool) : State :=
  match Sparse.find s.faults.early n with
  | none => s
  | some e =>
    let pg := Page.slot n e.slot
    let act := s.fld .sys F.SYS_EARLY_ACTIVE
    let s1 := ({ s with faults := { s.faults with early := Sparse.del s.faults.early n } }).setFld .sys F.SYS_EARLY_ACTIVE
      (if bit n act then act - 2 ^ n else act)
    let s2 := (plainEnable pg false s1).mirror (.reg (pg.key 0x008) 0 (s.latchFrame pg) 0 0x41 true)
    let s3 := if owner then (s2.setRw (pg.key 0x02C) (ownerBits e.endOwner)).mirror
        (.reg (pg.key 0x02C) (ownerBits e.endOwner) (s.latchFrame pg) 0 0x41 true) else s2
    let s4 := (s3.setFld pg F.SLOT_CTRL_GS_IMAGE 0).setSfld pg F.SLOT_CTRL_GS_IMAGE 0
    let s5 := if (s.disp n).running then s4 else s4.settleFences n
    let s6 := (s5.destroyChan e.chan none).2
    (s6.mirror (.record 0x02 (s6.destroyParams e.chan (s5.chanHandle e.chan)) [] none)).event .sys 4

/-- SYS_CONTAIN: a write of OUT_STOP lets every output that a contained fault has stopped start again (R472). -/
def containWrite (a : RegAcc) (s : State) : State :=
  let s1 := s.plainWrite a
  if s.refusedSec a F.SYS_CONTAIN_OUT_STOP then s1
  else
    { s1 with faults := { s1.faults with
      stopped := s1.faults.stopped.filter fun b => !((List.range 8).any fun n => (Page.scn n).base == b) } }

/-- SYS_EARLY.END: for the manager and the secure world. -/
def sysEarlyWrite (a : RegAcc) (s : State) : State :=
  if s.secretPage a then s.recRefused a
  else if !a.req.secure ∧ a.req.fn ≠ s.manager then (if bits 15 8 a.val = 0 then s else s.recAcc a 0x000A)
  else ((List.range 8).filter fun n => bit (8 + n) a.val).foldl (fun t n => t.earlyEnd n true) s

/-- OWNER: a secure write that takes effect on the slot of an early image ends the image. -/
def ownerWord (a : RegAcc) (s : State) : State :=
  let s1 := s.ownerWrite a
  match a.page with
  | .slot n k =>
    (match Sparse.find s.faults.early n with
     | some e => if e.slot = k ∧ s1.rw (a.page.key 0x02C) ≠ s.rw (a.page.key 0x02C) then s1.earlyEnd n false else s1
     | none => s1)
  | _ => s1

/-! ## The dispatcher -/

/-- A word of the PF window beyond the header, by page. -/
def blockWrite (a : RegAcc) (s : State) : State :=
  let o := a.off
  match a.page with
  | .wld =>
    if o = 0x040 ∨ o = 0x044 then watermarkWrite a s else if o = 0x04C then denyClear a s
    else if o = 0x060 then holdWrite a s else plainWord a s
  | .own => if o = 0x040 ∨ o = 0x044 then ownTableWrite a s else if o = 0x054 then fnCritWrite a s else plainWord a s
  | .pmc => if o = 0x040 then pmcCtrlWrite a s else if F.PMC_SEL_EVENT.hits o then pmcSelWrite a s else plainWord a s
  | .chn => if o = 0x058 then limitWrite a s else plainWord a s
  | .pool =>
    if o = 0x040 ∨ o = 0x044 ∨ o = 0x048 then poolPlaceWrite a s else if o = 0x058 then lowMarkWrite a s
    else if o = 0x060 then quotaWrite a s else if o = 0x064 then shareWrite a s else if o = 0x06C then peakClear a s
    else plainWord a s
  | .hp _ =>
    if o = F.HP_MGR_ROLE.off then mgrRoleWrite a s else if o = F.HP_PF_RESET_START.off then pfResetWrite a s
    else if o = F.HP_FN_WEIGHT_WEIGHT.off then weightWrite a s else plainWord a s
  | .ing _ => if o = 0x040 then ingCtrlWrite a s else plainWord a s
  | .cvu _ => if o = 0x040 then cvuCtrlWrite a s else plainWord a s
  | .pipe _ =>
    if o = F.PIPE_LUT_ADDR_INDEX.off then lutAddrWrite a s
    else if o = F.PIPE_LUT_DATA_ENTRY.off ∨ o = F.PIPE_SCL_DATA_TAP_EVEN.off then tableWrite a s else plainWord a s
  | .slot _ _ => if o = F.SLOT_LUT_DATA_ENTRY.off then tableWrite a s else plainWord a s
  | .scn _ => if o = F.SCN_GENLOCK_SRC.off then genlockWrite a s else plainWord a s
  | .chk _ => if F.CHK_CTRL_ACTION.hits o then chkCtrlWrite a s else plainWord a s
  | .dpl _ =>
    if o = 0x040 ∨ o = 0x044 then dplSetupWrite a s else if o = F.DPL_AUX_CTRL_GO.off then auxGo a s
    else if o = F.DPL_AUX_ADDR_ADDR.off ∨ F.DPL_AUX_DATA_DATA.hits o then auxWordWrite a s else plainWord a s
  | .dmc _ =>
    if o = 0x040 then dmcCfgWrite a s else if o = 0x04C then portTargetWrite a s else if o = 0x054 then maxlatClear a s
    else if o = 0x058 then wdrainWrite a s else if o = 0x05C then refCtrlWrite a s else if o = 0x060 then debtMaxClear a s
    else if o = 0x06C then trainCtrlWrite a s else plainWord a s
  | .edac =>
    if o = 0x040 then edacCtrlWrite a s else if o = 0x050 then threshWrite a s else if o = 0x05C then edacLogCtrl a s
    else if o = 0x074 then retirePlotWrite a s else if o = 0x078 then retireBankWrite a s
    else if 0x100 ≤ o ∧ o < 0x200 then regionWrite a s else plainWord a s
  | .tch _ =>
    if o = F.TCH_NODE_DATA_DATA.off then mirrorWrite s (nodeAccess a false s) a 0 (s.rw (a.page.key F.TCH_NODE_ADDR_DRIVE.off))
    else if F.TCH_P_CFG_EN.hits o then tchCfgWrite a s else if F.TCH_P_BUF_BUFFER.hits o then tchBufWrite a s
    else if F.TCH_P_ROUTE_VECTOR.hits o then tchRouteWrite a s else tchPlainWrite a s
  | .hap => if F.HAP_H_CTRL_EN.hits o then hapCtrlWrite a s else if o = 0x040 then hapCarrierWrite a s else plainWord a s
  | .aud 0 => if F.AUD_DOM_SOURCE.hits o then audDomWrite a s else if o = 0x04C then audCtrlWrite a s else plainWord a s
  | .aud 1 => if F.TDM_CFG_EN.hits o then tdmCfgWrite a s else plainWord a s
  | .aud 2 | .aud 3 =>
    if F.STR_CFG_EN.hits o then strCfgWrite a s else if F.STR_CHANNEL_CHANNEL.hits o then strChannelWrite a s else plainWord a s
  | .aud 4 | .aud 5 | .aud 6 => if F.BUS_CFG_EN.hits o then busCfgWrite a s else plainWord a s
  | .plk => if o = 0x044 then plkCtrlWrite a s else plainWord a s
  | .pwr =>
    if o = 0x040 then pwrReqWrite a s else if o = 0x054 then wakeLimitWrite a s else if o = 0x060 then islWrite a s
    else if o = 0x068 then saveAdd a s else if o = 0x06C then saveClear a s else plainWord a s
  | .aon => if o = 0x074 then alarmWrite a s else if o = 0x07C then twakeWrite a s else if o = 0x094 then pmbWrite a s else plainWord a s
  | .tim => if o = 0x04C then timSetWrite a s else if o = 0x050 then timTrimWrite a s else plainWord a s
  | .age => if o = 0x040 then ageCtrlWrite a s else plainWord a s
  | .upd => if o = 0x040 then updCmdWrite a s else if o = 0x05C then updLockWrite a s else plainWord a s
  | .sys => if o = 0x054 then containWrite a s else if o = 0x05C then sysResetWrite a s else if o = 0x058 then sysEarlyWrite a s else plainWord a s
  | .log => if o = 0x048 then logCtrlWrite a s else plainWord a s
  | _ => plainWord a s

/-- A word of a queue block. -/
def queueWrite (a : RegAcc) (rel : Nat) (s : State) : State :=
  if rel = 0x20 ∨ rel = 0x24 then doorbellWrite a s else if rel = 0x14 then qCtrlWrite a s else qSetupWrite a s

/-- A write of a header word (R44 to R59). -/
def headerWrite (a : RegAcc) (s : State) : State :=
  let o := a.off
  if o = 0x008 then pgCtrl a s else if o = 0x010 then evtRawWrite a s else if o = 0x014 then evtEnWrite a s
  else if o = 0x01C then evtSetWrite a s else if o = 0x020 then errClear a s else if o = 0x028 then shadowCtrlWrite a s
  else if o = 0x02C then ownerWord a s else if o = 0x030 then evtRouteWrite a s else s

/-- A write of a word of a queue block, or of the block's own registers. -/
def bodyWrite (a : RegAcc) (s : State) : State :=
  match queueWord a with
  | some (_, _, rel) => queueWrite a rel s
  | none => blockWrite a s

/-- Any register write, once it has passed the rules of its page's access. -/
def regWrite (a : RegAcc) (s : State) : State :=
  if a.off < 0x040 then headerWrite a s
  else if s.isWide a then wideWrite a s
  else if isChkOwner a then chkOwnerWrite a s
  else if isChkEvent 0x2C a || isChkEvent 0x30 a || isChkEvent 0x34 a then chkEventWrite a s
  else bodyWrite a s

/-- A write of several words is carried out as writes of one word in ascending address order (R39); `lows` are the words before the last. A
PCIe write that covers a wide register whole is so applied in one step (R49). -/
def longWrite (w : RegWr) (lows : List Word32) (s : State) : State :=
  let s1 := lows.zipIdx.foldl (fun t p =>
    t.access { w with off := w.off - 4 * (lows.length - p.2), be := 0xF#4, val := p.1 } regWrite) s
  s1.access w regWrite

/-! ## Register reads -/

/-- Any register read: the words behind an address register advance it (R185, R244, R324), every other word is read as R10, R50 and R158
state. -/
def regRead (a : RegAcc) (s : State) : State :=
  match a.page with
  | .pipe _ =>
    if a.off = F.PIPE_LUT_DATA_ENTRY.off ∨ a.off = F.PIPE_SCL_DATA_TAP_EVEN.off then tableRead a s else plainRead a s
  | .slot _ _ => if a.off = F.SLOT_LUT_DATA_ENTRY.off then tableRead a s else plainRead a s
  | .dpl _ => if a.off = F.DPL_PPS_DATA_DATA.off then ppsDataRead a s else plainRead a s
  | .tch _ => if a.off = F.TCH_NODE_DATA_DATA.off then nodeAccess a true s else plainRead a s
  | _ => plainRead a s

/-! ## Secure accesses that waited for a group (R107) -/

/-- A secure access that has waited acts now. -/
def waited (s : State) (w : Waiting) : State :=
  match w with
  | .write x => s.access x regWrite
  | .read x => s.accessRead x regRead
  | .dram x => s.dramRequest x

/-- The islands of a hold group run again: gates and stops of PWR_ISL_CTRL and of the power state end, and the waiting accesses act. -/
def groupWake (s : State) (g : Nat) : State :=
  let is := (List.range 46).filter fun i => (islandGroups i).contains g
  let s1 := is.foldl (fun t i => if t.islandCtrl i = 0 then t else t.setRw (islKey i) 0) s
  let go := s1.worlds.waitingSecure.filter fun w => w.1 == g
  let s2 := { s1 with
    power := { s1.power with stateGated := s1.power.stateGated.filter fun i => !is.contains i }
    worlds := { s1.worlds with
      waking := s1.worlds.waking.filter (· != g)
      waitingSecure := s1.worlds.waitingSecure.filter fun w => w.1 != g } }
  go.foldl (fun t w => t.waited w.2) s2

end State

/-- A write of PG_CTRL. -/
def isCtrl (a : RegAcc) : Bool := a.off == 0x008

/-! ## The commands -/

def execRegisterWrite (w : RegWr) (s : State) : Host.Outcome State Fault Refusal := .next (s.access w State.regWrite)

def execWideRegisterWrite (w : RegWr) (lows : List Word32) (s : State) : Host.Outcome State Fault Refusal :=
  .next (s.longWrite w lows)

def execWideRegisterLowRead (r : RegRd) (s : State) : Host.Outcome State Fault Refusal := .next (s.accessRead r State.regRead)

def execCounterLoRead (r : RegRd) (s : State) : Host.Outcome State Fault Refusal := .next (s.accessRead r State.regRead)

def execPgEnableWrite (w : RegWr) (s : State) : Host.Outcome State Fault Refusal := .next (s.accessAt w isCtrl State.pgCtrl)

def execPgSoftReset (w : RegWr) (s : State) : Host.Outcome State Fault Refusal :=
  .next (s.accessAt w (fun a => isCtrl a && bit 1 a.val) State.pgCtrl)

def execIngSoftReset (w : RegWr) (s : State) : Host.Outcome State Fault Refusal :=
  .next (s.accessAt w (fun a => isCtrl a && bit 1 a.val && (match a.page with | .ing _ => true | _ => false)) State.pgCtrl)

def execPgLock (w : RegWr) (s : State) : Host.Outcome State Fault Refusal :=
  .next (s.accessAt w (fun a => isCtrl a && bit 2 a.val) State.pgCtrl)

def execPgUnlock (w : RegWr) (s : State) : Host.Outcome State Fault Refusal :=
  .next (s.accessAt w (fun a => isCtrl a && bit 3 a.val) State.pgCtrl)

def execEvtRouteWrite (w : RegWr) (s : State) : Host.Outcome State Fault Refusal :=
  .next (s.accessAt w (fun a => a.off == 0x030 || State.isChkEvent 0x34 a)
    fun a t => if a.off = 0x030 then t.evtRouteWrite a else t.chkEventWrite a)

def execOwnerWrite (w : RegWr) (s : State) : Host.Outcome State Fault Refusal :=
  .next (s.accessAt w (fun a => a.off == 0x02C) State.ownerWord)

def execSysEarlyEnd (w : RegWr) (s : State) : Host.Outcome State Fault Refusal :=
  .next (s.accessAt w (State.isWord .sys F.SYS_EARLY_END) State.sysEarlyWrite)

def execPoolEnable (w : RegWr) (s : State) : Host.Outcome State Fault Refusal :=
  .next (s.accessAt w (fun a => State.isWord .pool F.PG_CTRL_ENABLE a && bit 0 a.val) State.pgCtrl)

def execGroupWakeDone (g : Nat) (s : State) : Host.Outcome State Fault Refusal :=
  .next (if s.worlds.waking.contains g && !s.asleep then s.groupWake g else s)

end Sys2Proof.Machine
end

