-- ==== Sys2Proof/Machine/Mirror.lean ====
section
/-! DEFINITION. What a device does with the ordered stream of the token holder: mirrored pool words, register writes, records and
resync markers (R384 to R388, R396), and the stages of COMMIT_ARM (R201, R390). -/

namespace Sys2Proof.Machine

/-- Occupy slot i with generation g, wherever it stands among the free slots. -/
def SlotTable.occupyAt {α : Type} (t : SlotTable α) (i g : Nat) (v : α) : SlotTable α :=
  { used := Sparse.put t.used i v
    gens := Sparse.set (fun _ => 1) t.gens i g
    fresh := max t.fresh (i + 1)
    freed := if t.fresh ≤ i then (List.range (i - t.fresh)).map (· + t.fresh) ++ t.freed else t.freed.erase i }

/-- Take one plot out of the free list. -/
def Plots.claim (t : Plots) (p : Nat) : Plots :=
  { t with
    fresh := max t.fresh (p + 1)
    freed := if t.fresh ≤ p then ((List.range (p - t.fresh)).map (· + t.fresh)).filter (fun x => !t.retired.contains x) ++ t.freed
      else t.freed.erase p }

namespace State

/-! ## Space 0: pool data (R387) -/

/-- A mirrored word that R94 refuses is dropped and counted. -/
def mirrorRefused (s : State) (plot : Nat) : State :=
  let s1 := { s with pair := { s.pair with
    refusedCount := s.pair.refusedCount + 1
    refusedPlot := match s.pair.refusedPlot with | none => some plot | some p => some p } }
  if s.pair.state = .standby then (s1.pairDisagree 8 0 plot).resyncCause else s1

/-- One mirrored word. -/
def mirrorWord (s : State) (who : Attr) (plot word : Nat) (poison : Bool) (data : Nat) : State :=
  if !s.poolOn ∨ s.poolPlots ≤ plot then s.mirrorRefused plot
  else
    let a := s.plotAddr plot + 16 * word
    match s.guardDram who true a with
    | (true, s1) => (if poison then s1.storePoison a else s1.storeWord a data).pmcCount 0x02 who.fn who.world true 1
    | (false, s1) => s1.mirrorRefused plot

/-- The words of a flit; the last word of a plot ends the plot's part of a resync. -/
def mirrorPool (s : State) (plot word : Nat) (who : Attr) (poison : Nat) (data : List Nat) : State :=
  let s1 := data.zipIdx.foldl (fun (t : State) (x : Nat × Nat) => t.mirrorWord who plot (word + x.2) (bit x.2 poison) x.1) s
  if s1.pair.resyncing ∧ word + data.length = 4096 then
    { s1 with pair := { s1.pair with resyncPlots := s1.pair.resyncPlots.filter (· != plot) } }
  else s1

/-! ## Space 1: register writes (R385, R388) -/

/-- The selector that an indirect word of a mirrored page stands behind. -/
def selectorOf (pg : Page) (o : Nat) : Option Nat :=
  match pg with
  | .chn => if o = F.CHN_FN_LIMIT_LIMIT.off then some (pg.key F.CHN_FN_SEL_FUNCTION.off) else none
  | .pool => if o = F.POOL_FN_QUOTA_QUOTA.off ∨ o = F.POOL_FN_SHARE_SHARE.off then some (pg.key F.POOL_FN_SEL_FUNCTION.off) else none
  | .own => if o = F.OWN_FN_CRIT_CRIT.off then some (pg.key F.OWN_FN_SEL_FUNCTION.off) else none
  | .tch _ => if o = F.TCH_NODE_DATA_DATA.off then some (pg.key F.TCH_NODE_ADDR_DRIVE.off) else none
  | _ => none

/-- A mirrored write acts as on the token holder, which has accepted it: OWNER, CHKj_OWNER and GROUP without another check against ARMED, which
may clear later here. -/
def mirrorActs (a : RegAcc) (s : State) : State :=
  if a.off = 0x02C then s.ownerApply a.page (ownerBits a.val)
  else if a.off = 0x028 then (match shadowOutput a.page with | some n => s.groupMove a n | none => s)
  else if isChkOwner a then s.chkOwnerTaken a
  else regWrite a s

/-- A mirrored write that takes effect on arrival, as a write with the attribute that the flit carries (R86, R87); its CRIT is
OWN_FN_CRIT of the function, which is mirrored in the same stream; the selector it used is in force for it, and
OWN_FN_SEL, which is not mirrored, stays. -/
def mirrorTakes (s : State) (pg : Page) (o : Nat) (w : Nat × Nat × Nat × Nat) (req : Req) : State :=
  let a : RegAcc := ⟨pg, o, req, w.2.1, false⟩
  match selectorOf pg o with
  | none => mirrorActs a s
  | some k =>
    let s1 := mirrorActs a (s.setRw k w.2.2.2)
    if pg = .own then s1.setRw k (s.rw k) else s1

/-- A word of a resync is stored as the token holder holds it; an indirect one in its bank. -/
def resyncStore (s : State) (pg : Page) (w : Nat × Nat × Nat × Nat) : State :=
  let o := w.1 % 0x1000
  let k := if (selectorOf pg o).isSome then bankKey w.1 w.2.2.2 else (entryKey (w.1, w.2.1, w.2.2.2)).1
  let v := if k < 0x1_0000_0000 then maskMerge (setMask pg o) (s.rw k) w.2.1 else w.2.1
  (s.setRw k v).setSw k v

/-- One register write of a flit. SCN_GENLOCK is stored and not applied (R222). -/
def mirrorReg (s : State) (req : Req) (w : Nat × Nat × Nat × Nat) : State :=
  match pageOf w.1 with
  | none => s
  | some pg =>
    let o := w.1 % 0x1000
    let n := outputOf w.1
    if !mirroredWord pg o then s
    else
      match pg with
      | .scn m =>
        if o = F.SCN_GENLOCK_SRC.off then { s with pair := { s.pair with storedGenlock := Sparse.put s.pair.storedGenlock m w.2.1 } }
        else if s.pair.resyncing ∧ o ≠ 0x008 then s.resyncStore pg w else s.mirrorTakes pg o w req
      | _ =>
        if s.pair.resyncing ∧ o ≠ 0x008 then s.resyncStore pg w
        else if w.2.2.1 = 0 then s.mirrorTakes pg o w req
        else if !(s.disp n).running then s.mirrorStore w.1 w.2.1
        else
          let s1 := { s with pair := { s.pair with latched := s.pair.latched ++ [(w.1, w.2.1, w.2.2.1)] } }
          let cur := s.fld (.scn n) F.SCN_SEQ_SEQ
          if (cur + 2 ^ 32 - w.2.2.1) % 2 ^ 32 < 2 ^ 31 then s1.noteSkew n w.2.2.1 else s1

/-! ## Space 2: records (R384, R385, R389) -/

/-- A buffer appears with its handle and plots; a plot that R78 fills on the token holder is zero here too. -/
def mirrorAlloc (s : State) (h ch size : Nat) (plots : List Nat) (fill : Bool) : State :=
  match s.chan (ch % 256) with
  | none => s
  | some c =>
    let s1 := if fill then (plots.filter (s.needsFill c.fn)).foldl (fun t p => t.zeroRange (t.plotAddr p) 65536) s else s
    let b : Buf := ⟨.live, ch % 256, ch, c.fn, plots, size, 0, [], none, none, false⟩
    let s2 := { s1 with pool := { s1.pool with
      bufs := s1.pool.bufs.occupyAt (h % 65536) (h / 65536) b
      plots := plots.foldl Plots.claim s1.pool.plots } }
    let s3 := plots.foldl (fun t p => t.setOwnEntry p (ownedEntry c.fn)) s2
    noteLow s (s3.notePeak c.fn)

/-- Whether a handle names a buffer, or a channel, that stands. -/
def hasBuf (s : State) (h : Nat) : Bool := (s.buf (h % 65536)).isSome && s.bufHandle (h % 65536) == h

def hasChan (s : State) (h : Nat) : Bool := (s.chan (h % 256)).isSome && s.chanHandle (h % 256) == h

def mirrorFree (s : State) (h kept : Nat) : State :=
  if !s.hasBuf h then s else if kept = 1 then s.keepFreeing (h % 65536) else (s.freeBuf (h % 65536) none).2

def mirrorDestroy (s : State) (h draining : Nat) (kept : List Nat) : State :=
  if !s.hasChan h then s
  else
    let s1 := kept.foldl keepFreeing s
    let s2 := if draining = 1 then { s1 with pair := { s1.pair with keptChans := s1.pair.keptChans ++ [h % 256] } } else s1
    let s3 := (s2.destroyChan (h % 256) none).2
    -- a channel that the token holder keeps stays, though no buffer of it is known here
    if draining = 1 ∧ (s3.chan (h % 256)).isNone then
      match s.chan (h % 256) with
      | some c => { s2 with pool := { s3.pool with chans := s2.pool.chans.update (h % 256) (⟨c.kind, c.fn, true, none⟩ : Chan) } }
      | none => s3
    else s3

/-- The token holder has freed a buffer that was FREEING. -/
def mirrorFreed (s : State) (h : Nat) : State :=
  let i := h % 65536
  if s.hasBuf h ∧ s.pair.keptFree.contains i then
    ({ s with pair := { s.pair with keptFree := s.pair.keptFree.filter (· != i) } }).unfence i
  else s

/-- The token holder has freed a channel that was DRAINING. -/
def mirrorDrained (s : State) (h : Nat) : State :=
  if s.hasChan h then
    ({ s with pair := { s.pair with keptChans := s.pair.keptChans.filter (· != h % 256) } }).chanDrained (h % 256)
  else s

/-- A rule that the token holder has added at index k (R339). -/
def mirrorRule (s : State) (k fn : Nat) (ps : List Nat) : State :=
  let r := ruleOf fn ps
  ((s.dropRule k).nameClip r.effect).putRule k r

/-- A rule of a resync. -/
def resyncRule (s : State) (ps : List Nat) : State :=
  let p := fun (i : Nat) => ps.getD i 0
  let x : Effect := ⟨bit 0 (p 5), bits 3 1 (p 5), bit 4 (p 5), bits 6 5 (p 5), bits 31 16 (p 5), p 6, p 7, p 8, p 1⟩
  let r : Rule := ⟨p 1, bits 19 16 (p 2), bits 23 20 (p 2), bits 31 24 (p 2), bits 15 0 (p 3), bits 31 16 (p 3), bits 15 0 (p 4),
    bits 31 16 (p 4), x, 0, false⟩
  (s.nameClip x).putRule (p 0) r

/-- A node of a resync: baseline, compensation and reference. -/
def resyncNode (s : State) (ps : List Nat) : State :=
  let p := fun (i : Nat) => ps.getD i 0
  let x := s.panel (p 0) (p 1)
  let n := (Sparse.find x.nodes (p 2)).getD idleNode
  let y : Node := { n with base := bits 15 0 (p 3), comp := bits 21 16 (p 3), refBase := bits 15 0 (p 4), refComp := bits 21 16 (p 4) }
  s.setPanel (p 0) (p 1) { x with nodes := Sparse.put x.nodes (p 2) y }

/-- A channel of the holder takes its slot here (R384). -/
def mirrorChan (s : State) (h fn : Nat) (draining : Bool) : State :=
  { s with pool := { s.pool with
    chans := s.pool.chans.occupyAt (h % 256) (h / 2 ^ 8 % 2 ^ 20) ⟨h / 2 ^ 28, fn, draining, none⟩ } }

/-- A channel that the holder keeps DRAINING. -/
def keepDraining (s : State) (i : Nat) : State := { s with pair := { s.pair with keptChans := s.pair.keptChans ++ [i] } }

/-- A buffer of a resync: its plots are still to come (R396). -/
def resyncBuf (s : State) (h chan size : Nat) (plots : List Nat) (freeing : Bool) : State :=
  let t := s.mirrorAlloc h chan size plots false
  let u := { t with pair := { t.pair with resyncPlots := t.pair.resyncPlots ++ plots } }
  if freeing then u.keepFreeing (h % 65536) else u

/-- A list of numbers read as pairs. -/
def pairs : List Nat → List (Nat × Nat)
  | a :: b :: r => (a, b) :: pairs r
  | _ => []

/-- What is free on the token holder, in its order: channel slots, buffer slots or plots (R64, R66, R70). -/
def resyncFree (s : State) (kind fresh : Nat) (freed : List Nat) (gens : Store Nat) : State :=
  let p := s.pool
  { s with pool :=
      if kind = 0 then { p with chans := { p.chans with fresh := fresh, freed := freed, gens := gens } }
      else if kind = 1 then { p with bufs := { p.bufs with fresh := fresh, freed := freed, gens := gens } }
      else { p with plots := { p.plots with fresh := fresh, freed := freed } } }

/-- The items of a resync beside buffers (R396). -/
def resyncItem (s : State) (op : Nat) (ps plots : List Nat) : State :=
  let p := fun (i : Nat) => ps.getD i 0
  if op = 0x80 then plots.foldl retirePlot s
  else if op = 0x83 then { s with audio := { s.audio with active := Sparse.put s.audio.active (p 0) (BitVec.ofNat 32 (p 1)) } }
  else if op = 0x84 then s.resyncRule ps
  else if op = 0x85 then s.mirrorFreed (p 0)
  else if op = 0x86 then s.mirrorDrained (p 0)
  else if op = 0x87 then s.resyncNode ps
  else if op = 0x89 then s.resyncFree (p 0) (p 1) (plots.take (p 2)) (pairs (plots.drop (p 2)))
  else if op = 0x88 then { s with display := { s.display with released := ps } }
  else s

/-- One whole record. -/
def mirrorRecord (s : State) (op : Nat) (ps plots : List Nat) : State :=
  let p := fun (i : Nat) => ps.getD i 0
  if op = 0x01 then s.mirrorChan (p 0) (p 1) false
  else if op = 0x02 then s.mirrorDestroy (p 0) (p 1) (ps.drop 2)
  else if op = 0x03 then s.mirrorAlloc (p 0) (p 1) (p 2) plots true
  else if op = 0x04 then s.mirrorFree (p 0) (p 1)
  else if op = 0x31 then s.mirrorRule (p 0) (p 1) (ps.drop 2)
  else if op = 0x33 then s.dropRule (p 0)
  else if op = 0x81 then (if p 2 = 1 then (s.mirrorChan (p 0) (p 1) true).keepDraining (p 0 % 256) else s.mirrorChan (p 0) (p 1) false)
  else if op = 0x82 then s.resyncBuf (p 0) (p 1) (p 2) plots (p 3 = 1)
  else s.resyncItem op ps plots

/-! ## Space 3: resync markers (R396) -/

/-- Whether a register key holds a mirrored value. -/
def mirroredKey (k : Nat) : Bool :=
  let a := if k < 0x1_0000_0000 then k else (k - 0x1_0000_0000) / 0x100000
  match pageOf a with
  | some pg => mirroredWord pg (a % 0x1000) && settable pg (a % 0x1000) && !(match pg with | .scn _ => a % 0x1000 == F.SCN_GENLOCK_SRC.off | _ => false)
  | none => false

/-- The outputs stop: they start again with the values of the resync. -/
def stopOutputs (s : State) : State :=
  (List.range 8).foldl (fun t n =>
    if (t.disp n).running then (t.stopNow n).videoStop n
    else if (t.disp n).starting then t.setDisp n { t.disp n with starting := false } else t) s

/-- The begin marker: every mirrored item and active value goes. -/
def mirrorClear (s : State) : State :=
  let s0 := s.stopOutputs
  let s1 := (s0.pool.bufs.used.flatMap fun p => p.2.plots).foldl disown s0
  let ctrls := (s1.regs.filter fun p => mirroredKey p.1 && p.1 % 0x1000 == 0x008).filterMap fun p => pageOf p.1
  let p := s1.pool
  let s2 := { s1 with
    regs := s1.regs.filter fun x => !mirroredKey x.1
    shad := s1.shad.filter fun x => !mirroredKey x.1
    pool := { p with
      chans := ⟨[], p.chans.gens, 0, []⟩
      bufs := ⟨[], p.bufs.gens, 0, []⟩
      plots := ⟨0, [], [], []⟩
      fillQueue := [], peak := [], cache := [] }
    display := { s1.display with commits := [], fences := [], released := [], waitingRelease := [], grants := [], newGrants := [], reserves := [] }
    haptic := { s1.haptic with rules := [], extents := [], adds := [], plays := [] }
    audio := { s1.audio with active := [], old := [], armed := none, todo := [], fades := [] }
    pair := { s1.pair with
      held := [], latched := [], keptFree := [], keptChans := [], storedGenlock := [], recPlots := [], resyncPlots := [], resyncing := true } }
  (ctrls.foldl (fun t pg => t.setFld pg F.PG_STAT_ENABLED (t.fld pg F.PG_CTRL_ENABLE)) s2).ruleStat

/-- The end marker: layer slots hold the fences and resources of what they name. -/
def mirrorEnd (s : State) : State :=
  let ids := (List.range 128).filter fun i => !s.display.released.contains i
  let s1 := ((s.takeSlotFences s ids).grantResources s (List.range 8) fun i => ids.contains i).loadSheets s ids
  { s1 with pair := { s1.pair with resyncing := false, resyncPlots := [] } }

/-! ## A flit of the ordered stream -/

/-- What a MIRROR_WRITE does. -/
def mirrorApply (s : State) (m : MirrorMsg) : State :=
  match m with
  | .pool plot word fn world crit poison data => s.mirrorPool plot word ⟨fn, world, crit, 5, false, false⟩ poison data
  | .reg fn world _ writes => writes.foldl (fun t w => t.mirrorReg ⟨fn, world⟩ w) s
  | .record op ps plots fin =>
    if fin then ({ s with pair := { s.pair with recPlots := [] } }).mirrorRecord op ps (s.pair.recPlots ++ plots)
    else { s with pair := { s.pair with recPlots := s.pair.recPlots ++ plots } }
  | .marker fin => if fin then s.mirrorEnd else s.mirrorClear

/-- A flit of the ordered stream reaches a device without the token: what it carries is applied and counted, and an offer that waited
for the count is answered (R382, R383, R399). -/
def orderedFlit (s : State) (h : FlitHdr) (run : State → State) : State :=
  s.accept h fun t =>
    let u := if t.standby then run t else t
    ({ u with pair := { u.pair with applied := (u.pair.applied + 1) % 2 ^ 32 } }).answerOffer

end State

/-! ## The commands -/

def execMirrorWrite (h : FlitHdr) (m : MirrorMsg) (s : State) : Host.Outcome State Fault Refusal :=
  .next (s.orderedFlit h fun t => t.mirrorApply m)

def execCommitArmRecord (h : FlitHdr) (recNo group fn : Nat) (entries : List (Nat × Nat × Nat)) (fin : Bool) (s : State) :
    Host.Outcome State Fault Refusal :=
  .next (s.orderedFlit h fun t => (t.armRecord recNo group fn entries fin).idleExit)

def execCommitArmApply (h : FlitHdr) (recNo frame : Nat) (s : State) : Host.Outcome State Fault Refusal :=
  .next (s.orderedFlit h fun t => t.armApply recNo frame)

def execCommitArmDrop (h : FlitHdr) (recNo : Nat) (s : State) : Host.Outcome State Fault Refusal :=
  .next (s.orderedFlit h fun t => t.armDrop recNo)

end Sys2Proof.Machine
end

