-- ==== Sys2Proof/Machine/Wake.lean ====
section
/-! DEFINITION. Wakes from FALLOW and OFF, their failure and retry, and the point of no return of a hold-up with its resume (R404, R412 to
R416, R421, R424 to R426). -/

namespace Sys2Proof.Machine

namespace State

/-! ## The wake sequence (R415) -/

/-- The save list is written back in list order, as ordinary writes with the stored world; a word that the SRAM's code cannot correct is
skipped (R421). -/
def writeBack (s : State) : State :=
  match s.power.sram with
  | none => s
  | some img =>
    img.words.zipIdx.foldl (fun (t : State) (e : (Nat × Bool × Nat) × Nat) =>
      if img.bad.contains e.2 then t.event .edac 4
      else
        t.access ⟨⟨if e.1.2.1 then 0x41 else 0x40, e.1.2.1⟩, .pf, e.1.1, 0xF#4, BitVec.ofNat 32 e.1.2.2⟩ regWrite) s

/-- Latched doorbells act in the order of their arrival (R412). -/
def replayDoorbells (s : State) : State :=
  s.power.doorbells.foldl (fun t d => t.sqDoorbell d.1 d.2.1 d.2.2.1 d.2.2.2) { s with power := { s.power with doorbells := [] } }

/-- The end of a wake is told to the partner, and a device without the token asks to join again (R404, R413). -/
def wakePair (s : State) : State :=
  let t := if s.linked then s.sendFlit (.wake 1 0) else s
  if t.paired && !t.pair.guyOut then (if t.pair.state == .standby then t.resyncCause else t.askJoin) else t

/-- Steps 3 and 4 of a wake: DRAM, the saved registers and the time are back, and the state is RUN. -/
def wakeRestore (s : State) : State :=
  let s1 := s.selfRefreshExit
  let s2 := ({ s1 with power := { s1.power with stateGated := [], wake := none, wakeWait := false } }).enterPower .run
  let s3 := (s2.writeBack.restoreDomains).bridgeTime
  { s3 with hosts := { s3.hosts with fetchStopped := false } }

/-- Steps 5 and 6: what ran starts again, latched doorbells act, and the links return to their rate. -/
def wakeBlocks (s : State) : State :=
  (((((s.linksStart.hapticOn).audioOn).touchRestart).restartOutputs).linksBack).replayDoorbells

/-- The rest of a wake once rails and clocks are up, for FALLOW and for a resume. -/
def wakeDone (s : State) : State :=
  let us := min 0xFFFF ((s.now - s.power.wakeAt) / 10000)
  (((s.wakeRestore.wakeBlocks).setFld .pwr F.PWR_WAKE_TIME_US us).event .pwr 1).wakePair

/-- An attempt runs: it succeeds, or waits for a step to exceed its limit. -/
def attempt (s : State) : WakeResult → State
  | .up => s.wakeDone
  | .stuck => s

/-- A wake source starts a wake from FALLOW. -/
def startWake (s : State) (b : Nat) (r : WakeResult) : State :=
  let s1 := { s with power := { s.power with wake := some b, attempts := 1, wakeAt := s.now, wakeWait := false } }
  let s2 := s1.setFld .pwr F.PWR_WAKE_CAUSE_SOURCES (2 ^ b)
  (if s2.linked then s2.sendFlit (.wake 0 b) else s2).attempt r

/-- A wake source of the AON domain starts the device from OFF (R414, R463). -/
def offWake (s : State) (b : Nat) : State :=
  let s1 := (s.setFld .pwr F.PWR_WAKE_CAUSE_SOURCES (2 ^ b)).enterPower .run
  { s1 with faults := { s1.faults with inReset := true, cause := if b = 4 then 6 else 5 } }

/-- A wake source acts (R408, R409 step 10, R414). -/
def wakeSource (s : State) (b : Nat) (r : WakeResult) : State :=
  let mask := if s.power.state = .off then s.power.wakeEn else s.fld .pwr F.PWR_WAKE_EN_SOURCES
  if !bit b mask then s
  else
    match s.power.state with
    | .run | .idle => s.refuseEntry 7
    | .fallow => if s.power.wake.isSome then s else s.startWake b r
    | .off => if 3 ≤ b then s.offWake b else s
    | _ => s

/-! ## The sources (R414) -/

/-- The AON domain works. -/
def aonOn (s : State) : Bool := s.power.state != .stopped

def wakeTlp (s : State) (port : Nat) (r : WakeResult) : State :=
  if 2 ≤ port ∨ !s.portUp port then s else s.wakeSource port r

/-- WAKE has stood at its active level for 1 ms. -/
def wakePin (s : State) (r : WakeResult) : State :=
  if !s.aonOn then s
  else ((s.setFld .aon F.AON_BS_WAKE_IN (s.fld .aon F.AON_PINS_WAKE_LEVEL)).event .aon 1).wakeSource 4 r

/-- A filtered edge of MOTION; the update engine's refusal sees it too (R454). -/
def motionEdge (s : State) (level : Bool) (r : WakeResult) : State :=
  if !s.aonOn then s
  else
    let s1 := { s with update := { s.update with motion := level, motionAt := some s.now } }
    ((s1.setFld .aon F.AON_BS_MOTION_IN (b2n level)).event .aon 2).wakeSource 5 r

def canWake (s : State) (r : WakeResult) : State := if !s.aonOn then s else (s.event .aon 0).wakeSource 3 r

/-- The tick counter reaches the armed alarm. -/
def alarmFire (s : State) (r : WakeResult) : State :=
  let tick := s.fld .aon F.AON_ALARM_LO_TICK + s.fld .aon F.AON_ALARM_HI_TICK * 2 ^ 32
  if !s.aonOn ∨ !s.power.alarmArmed ∨ s.fld .aon F.AON_ALARM_HI_ALARM_EN = 0 ∨ s.time.ticks < tick then s
  else
    let s1 := ({ s with power := { s.power with alarmArmed := false } }).setFld .aon F.AON_ALARM_HI_ALARM_EN 0
    (s1.event .aon 3).wakeSource 6 r

/-- WAKE from the partner: SUB 0 is a wake source, SUB 1 and 2 end the partner's wake (R404). -/
def wakeFlit (s : State) (sub arg : Nat) (r : WakeResult) : State := if sub = 0 then s.wakeSource 2 r else s.wakeReport sub arg

/-! ## Failure (R416) -/

/-- Complete every entry of the rings whose doorbells FALLOW latched, as far as their CQs have room; `entries` are the entries that the
hosts placed there, in order. -/
def failLatched : List (List Word32) → List (Nat × Nat) → State → State
  | [], _, s => s
  | e :: es, qs, s =>
    match qs.find? fun (p : Nat × Nat) => s.fetchable p.1 p.2 with
    | none => s
    | some (f, q) =>
      let x := s.queue f q
      let s1 := s.setQueue f q { x with sqHead := if x.sqHead + 1 < s.sqSize f q then x.sqHead + 1 else 0 }
      let (op, c) := entryArgs f q e
      let (j, s2) := s1.take op c
      failLatched es qs (s2.complete j.jid 0x1102)

/-- The CAN frame of a failed wake. -/
def canReport (s : State) (reason : Nat) : State :=
  if s.fld .aon F.AON_CAN_REPORT_EN = 0 ∨ s.standby then s
  else
    s.emit (.can (s.fld .aon F.AON_CAN_REPORT_ID + s.fld .aon F.AON_CAN_REPORT_IDE * 2 ^ 29)
      ([reason, s.power.attempts] ++ (List.range 6).map fun i => Codes.byteOf i s.time.ticks))

/-- The last attempt has failed. -/
def wakeFailed (s : State) (reason item : Nat) (entries : List (List Word32)) : State :=
  let s1 := { s with power := { s.power with wake := none, wakeWait := false } }
  let s2 := (s1.setFld .pwr F.PWR_STAT_WAKE_FAIL_REASON reason).recErr .pwr 0x1102 (reason + s.power.attempts * 2 ^ 8 + item * 2 ^ 16)
  let qs := (s.power.doorbells.map fun d => (d.1, d.2.1)).eraseDups
  let s3 := { s2 with power := { s2.power with state := .run, doorbells := [] } }
  let s4 := s.power.doorbells.foldl (fun (t : State) d => t.sqDoorbell d.1 d.2.1 d.2.2.1 d.2.2.2) s3
  let s5 := failLatched entries qs s4
  let s6 := ({ s5 with power := { s5.power with state := .fallow } }).event .pwr 2
  (if s6.linked then s6.sendFlit (.wake 2 reason) else s6).canReport reason

/-- A rail or clock step exceeds its limit: the attempt is undone, and another follows after 10 ms while any is left. -/
def wakeStepTimeout (s : State) (reason item : Nat) (entries : List (List Word32)) : State :=
  if s.power.state ≠ .fallow ∨ s.power.wake.isNone ∨ s.power.wakeWait ∨ reason = 0 ∨ 3 < reason ∨ 64 ≤ item then s
  else if s.power.attempts ≤ s.fld .pwr F.PWR_WAKE_LIMIT_RETRIES then { s with power := { s.power with wakeWait := true } }
  else s.wakeFailed reason item entries

def wakeRetry (s : State) (r : WakeResult) : State :=
  if s.power.state = .fallow ∧ s.power.wake.isSome ∧ s.power.wakeWait then
    ({ s with power := { s.power with wakeWait := false, attempts := s.power.attempts + 1 } }).attempt r
  else s

/-! ## The point of no return (R424) -/

/-- The resume: the device wakes from step 2, commands fetched before the sag complete ABORTED, and a pair is rejoined from DETACHED. -/
def resumeRun (s : State) : State :=
  let old := (s.hosts.jobs.filter fun j => j.stage == .fetched).map Job.jid
  let s1 := { s.dropLink with power := { s.dropLink.power with wakeAt := s.now } }
  let s2 := if s1.paired then (s1.enterPair .detached).followPartner else s1
  let s3 := old.foldl (fun t j => t.complete j 0x0008) s2.wakeDone
  let s4 := ((s3.setFld .pwr F.PWR_STAT_RESUMED 1).setFld .aon F.AON_SAVE_STAT_LAST 3).setFld .aon F.AON_BS_VSAG 0
  s4.event .pwr 3

/-- The point of no return: the device decides once. -/
def pointOfNoReturn (s : State) (supplyGood : Bool) : State :=
  if s.power.state ≠ .holdup ∨ s.power.flushed then s
  else
    let s1 := s.setFld .aon F.AON_SAVE_TIME_FLUSH_US (min 0xFFFF ((s.now - s.power.sagAt) / 1000))
    let s2 := ({ s1 with power := { s1.power with flushed := true } }).bridgesOff
    if supplyGood ∧ !s2.power.noResume then s2.resumeRun
    else (s2.setFld .pwr F.PWR_STAT_RESUMED 0).dropLink.startSave

end State

/-! ## The commands -/

def execWakeTlp (port : Nat) (result : WakeResult) (s : State) : Host.Outcome State Fault Refusal := .next (s.wakeTlp port result)

def execWakePin (result : WakeResult) (s : State) : Host.Outcome State Fault Refusal := .next (s.wakePin result)

def execMotionEdge (level : Bool) (result : WakeResult) (s : State) : Host.Outcome State Fault Refusal := .next (s.motionEdge level result)

def execCanWakeUp (result : WakeResult) (s : State) : Host.Outcome State Fault Refusal := .next (s.canWake result)

def execAlarmFire (result : WakeResult) (s : State) : Host.Outcome State Fault Refusal := .next (s.alarmFire result)

def execWakeFlit (h : FlitHdr) (sub arg : Nat) (result : WakeResult) (s : State) : Host.Outcome State Fault Refusal :=
  .next (s.accept h fun t => t.wakeFlit sub arg result)

def execWakeStepTimeout (reason item : Nat) (entries : List (List Word32)) (s : State) : Host.Outcome State Fault Refusal :=
  .next (s.wakeStepTimeout reason item entries)

def execWakeRetry (result : WakeResult) (s : State) : Host.Outcome State Fault Refusal := .next (s.wakeRetry result)

def execPointOfNoReturn (supplyGood : Bool) (s : State) : Host.Outcome State Fault Refusal := .next (s.pointOfNoReturn supplyGood)

end Sys2Proof.Machine
end

