-- ==== Sys2Proof/Machine/Startup.lean ====
section
/-! DEFINITION. Resets and the start-up phases (R463 to R468), with what each phase loads: images and trials (R449, R456, R458), the
owner applet (R103), DRAM and code regions (R264, R287), the MRAM image (R421, R425), the ownership plan (R97), the pair (R370), the
pool and the early images (R466). -/

namespace Sys2Proof.Machine

namespace State

/-! ## Images (R451, R456, R458) -/

/-- The location of a kind that this start uses, of those that `pass` admits. A trial that a reset ended has lost an attempt; one that
cannot be loaded has failed for `reason`; without a trial the confirmed location stands, or, when `other` allows it, the other one. -/
def pickImage (s : State) (kind reason : Nat) (pass : Nat → Bool) (other : Bool) : Option Nat × State :=
  let r := s.boot
  let e := r.entry kind
  let keep := if pass e.confirmed then some e.confirmed else if other && pass (1 - e.confirmed) then some (1 - e.confirmed) else none
  match e.trial with
  | none => (keep, s)
  | some t =>
    let again := s.update.begun.contains kind
    if !again && r.when_ == 2 && s.faults.cause != 8 then (keep, s)
    else if again && decide (e.attempts ≤ 1) then (keep, s.revertImage kind (if s.update.reason = 0 then 2 else s.update.reason))
    else if !pass t then
      (if reason = 1 ∧ (!again ∨ 2 < e.attempts) then
        -- the attempt has failed and others are left: the trial starts again
        (keep, { s with update := { s.update with begun := (s.update.begun ++ [kind]).eraseDups, reason := 1 } })
      else (keep, s.revertImage kind reason))
    else
      let s1 := if again then s.writeBoot (r.setEntry kind { e with attempts := e.attempts - 1 }) else s
      (some t, { s1 with update := { s1.update with
        trials := s1.update.trials ++ [kind], begun := s1.update.begun.filter (· != kind) } })

/-- A pair's part by number. -/
def part2 {α : Type} (p : α × α) (k : Nat) : α := if k = 0 then p.1 else p.2

/-- The settings copies that the Xiresol of a slot reads. -/
def readable (l : StartLoad) (slot k : Nat) : Bool :=
  match part2 l.copies k with
  | some c => decide ((part2 l.schemas slot).1 ≤ c.schema) && decide (c.schema ≤ (part2 l.schemas slot).2)
  | none => false

/-- The settings: a Xiresol on trial that can read none gives way to the confirmed one. -/
def pickSettings (s : State) (l : StartLoad) (slot : Nat) : Nat × Option Nat × State :=
  match s.pickImage 3 3 (readable l slot) false with
  | (some c, s1) => (slot, some c, s1)
  | (none, s1) =>
    if s1.update.trials.contains 1 then
      let s2 := s1.revertImage 1 3
      let back := s2.boot.xiresol.confirmed
      let (c, s3) := s2.pickImage 3 3 (readable l back) false
      (back, c, s3)
    else (slot, none, s1.recErr .upd 0x0505 3)

/-- Burn what waits for a start. -/
def burnWaiting (s : State) : State := s.update.burn.foldl (fun t p => t.burnFuse p.1 p.2) s

/-- The owner applet (R103). -/
def loadApplet (s : State) (l : StartLoad) : State :=
  let s0 := s.setLoaded (Page.own.key F.OWN_KEY_FUSED.off) (b2n l.keyFused)
  let reject := fun (r : Nat) => (s0.setFld .own F.OWN_APPLET_REJECT r).recErr .own 0x0204 r
  match l.applet with
  | none => s0
  | some (genuine, size) =>
    if !l.keyFused then reject 3
    else if !genuine then reject 1
    else if 524288 < size then reject 2
    else ((s0.setFld .own F.OWN_APPLET_LOADED 1).setFld .own F.OWN_APPLET_RUNNING 1).setFld .own F.OWN_APPLET_SIZE_KIB ((size + 1023) / 1024)

/-- Registers that Xiresol loads from the settings it has read. -/
def loadSettings (s : State) (c : Settings) : State :=
  let s1 := { s with
    faults := { s.faults with settings := some c }
    power := { s.power with railMap := c.rails } }
  ((s1.setLoaded (Page.upd.key F.UPD_SCHEMA_IN_USE.off) c.schema).setLoaded (Page.upd.key F.UPD_CFG_MOTION_EN.off) c.updCfg).setLoaded
    (Page.upd.key F.UPD_LOCK_LOCK.off) c.updLock

/-- Phase 2. Without a Xiresol slot that passes, the Stake holds the device; a trial whose load has failed with attempts left restarts it. -/
def phaseLoad (s : State) (l : StartLoad) : State :=
  match s.pickImage 1 1 (fun k => bit k l.slots) true with
  | (none, s1) =>
    if s1.update.begun.contains 1 then s1.deviceReset 8
    else
    { s1 with
      faults := { s1.faults with recovery := true }
      pair := { s1.pair with guyOut := false } }
  | (some slot, s1) =>
    let (half, s2) := s1.pickImage 2 1 (fun k => bit k l.halves) true
    if s2.update.begun.contains 1 ∨ s2.update.begun.contains 2 then s2.deviceReset 8
    else
    let (slot1, copy, s3) := s2.pickSettings l slot
    let s4 := (s3.setLoaded (Page.upd.key F.UPD_RUN_VER_VERSION.off) (part2 l.slotVers slot1)).setLoaded
      (Page.upd.key F.UPD_MC_VER_VERSION.off) (part2 l.mcVers (half.getD 0))
    let s5 := (s4.setLoaded (Page.upd.key F.UPD_SLOT_VER_VERSION.off) l.slotVers.1).setLoaded
      (Page.upd.key (F.UPD_SLOT_VER_VERSION.off + 4)) l.slotVers.2
    let s6 := match copy.bind fun k => part2 l.copies k with | some c => s5.loadSettings c | none => s5
    let s7 := ((s6.burnWaiting).loadApplet l).setFld .sys F.SYS_STAT_PHASE 3
    { s7 with
      update := { s7.update with reason := 0 }
      worlds := { s7.worlds with gateTable := l.gates } }

/-! ## DRAM and the MRAM image (R264, R287, R421, R425) -/

/-- The image that a restart uses. -/
def savedImage (s : State) : Option MramSlot :=
  let p := s.power
  if !p.recordOk || p.consumed then none
  else ([p.slotA, p.slotB].filterMap id).find? fun m => m.crcOk && m.number == p.recordN

/-- Use the image once: the saved words are written back, and the list is kept. -/
def useImage (s : State) : State :=
  match s.savedImage with
  | none => s
  | some m =>
    let s1 := { s with power := { s.power with
      consumed := true, sram := some m.image, saveList := m.image.words.map fun (w : Nat × Bool × Nat) => (w.1, w.2.1) } }
    s1.writeBack

/-- The code regions: those of the settings, else the default ones. -/
def setRegions (s : State) : State :=
  let s1 := match s.faults.settings with
    | some c =>
      let none_ := (List.range 4).foldl (fun (t : State) i => t.setLoaded (Page.edac.key (0x100 + 4 * i)) 0) s
      c.regions.foldl (fun (t : State) (r : Nat × Nat) => t.setLoaded r.1 r.2) none_
    | none => s
  s1.regionsSet

/-- DMC_CFG of this start: that of the settings, or the mode registers of channel 0's devices at 3200 MT/s (R465). -/
def startCfg (s : State) (l : StartLoad) : Nat :=
  match s.faults.settings with
  | some c => c.dmcCfg
  | none => match l.modes.getD 0 none with | some m => m.1 % 4 + m.2 % 2 * 4 | none => 0

/-- DENSITY, RANKS and RATE name a configuration that the controller supports (R263). -/
def cfgSupported (cfg : Nat) : Bool :=
  decide (bits 1 0 cfg < 3) && !(bits 1 0 cfg == 2 && bit 2 cfg) && decide (bits 6 4 cfg < 6)

/-- The lowest channel that does not answer, or whose devices differ from DMC_CFG, with whether it answered (R264). -/
def dramFault (s : State) (l : StartLoad) (cfg : Nat) : Option (Nat × Bool) :=
  (List.range s.channels).findSome? fun n =>
    match l.modes.getD n none with
    | none => some (n, false)
    | some m => if cfgSupported cfg ∧ m.1 = bits 1 0 cfg ∧ m.2 = bits 2 2 cfg then none else some (n, true)

/-- DMC_CFG of every channel, with the reductions of R443. -/
def loadCfg (s : State) (cfg : Nat) : State :=
  (List.range s.channels).foldl (fun t n => t.setLoaded ((Page.dmc n).key F.DMC_CFG_DENSITY.off) (t.reducedCfg n cfg)) s

/-- Every channel is initialised and runs. -/
def startDram (s : State) : State :=
  (List.range s.channels).foldl (fun t n => let u := t.setFld (.dmc n) F.DMC_STAT_INIT 1; u.setDmc n (u.dmc n)) s

/-- Phase 3: a channel that does not match ends it in LIMITED. -/
def phaseMemory (s : State) (l : StartLoad) : State :=
  let cfg := s.startCfg l
  let s0 := s.loadCfg cfg
  match s0.dramFault l cfg with
  | some (ch, answered) =>
    let s1 := s0.limitLog.setFld .sys F.SYS_STAT_PHASE 8
    (s1.recErr (.dmc ch) 0x0C02 (ch + b2n answered * 2 ^ 8)).event .sys 5
  | none =>
    let s1 := ((s0.startDram).setRegions).bridgeTime
    ((s1.recallTail.useImage).surveyDue 1).setFld .sys F.SYS_STAT_PHASE 4

/-! ## The plan, the pair and the pool (R97, R370, R466) -/

/-- A register write that Xiresol makes in the secure world. -/
def secureWrite (s : State) (key v : Nat) : State :=
  match pageOf key with
  | some pg => regWrite ⟨pg, key % 0x1000, ⟨0x41, true⟩, v, false⟩ s
  | none => s

/-- The ownership plan of the settings. -/
def applyPlan (s : State) (p : OwnPlan) : State :=
  let w := Page.wld
  let o := Page.own
  let s1 := ((s.setLoaded (w.key F.WLD_WMARK_LO_WMARK_LO.off) p.wmarkLo).setLoaded (w.key F.WLD_WMARK_HI_WMARK_HI.off) p.wmarkHi).setFld
    .wld F.WLD_WMARK_HI_SET 1
  let s2 := (s1.setLoaded (o.key F.OWN_TABLE_LO_BASE_LO.off) p.tableLo).setLoaded (o.key F.OWN_TABLE_HI_BASE_HI.off) p.tableHi
  let s3 := (p.crits.filter fun c => c.1 != 0x41).foldl (fun t c => t.setRw (bankKey (o.key F.OWN_FN_CRIT_CRIT.off) c.1) (c.2 % 4)) s2
  let s4 := s3.setLoaded (w.key 0x060) p.hold
  p.owners.foldl (fun t x => t.secureWrite x.1 x.2) s4

/-- The default plan: a watermark of 64 MiB; every other value is its reset value. -/
def defaultPlan (s : State) : State :=
  let s1 := (s.setLoaded (Page.wld.key F.WLD_WMARK_LO_WMARK_LO.off) 0x0400_0000).setFld .wld F.WLD_WMARK_HI_SET 1
  (s1.setFld .sys F.SYS_STAT_DEFAULT_PLAN 1).event .sys 0

/-- Section 0x0008: the pool is placed, its shares set, and CHN and POOL enabled with their refusals. -/
def placePool (s : State) (p : PoolSection) : State :=
  let k := fun (f : Fld) => Page.pool.key f.off
  let s1 := ((s.secureWrite (k F.POOL_BASE_LO_BASE_LO) p.baseLo).secureWrite (k F.POOL_BASE_HI_BASE_HI) p.baseHi).secureWrite
    (k F.POOL_PLOTS_PLOTS) p.plots
  let s2 := p.fns.foldl (fun t x =>
    let t1 := (t.setRw (k F.POOL_FN_SEL_FUNCTION) x.1).setRw (Page.chn.key F.CHN_FN_SEL_FUNCTION.off) x.1
    ((t1.secureWrite (k F.POOL_FN_QUOTA_QUOTA) x.2.1).secureWrite (k F.POOL_FN_SHARE_SHARE) x.2.2.1).secureWrite
      (Page.chn.key F.CHN_FN_LIMIT_LIMIT.off) x.2.2.2) s1
  let s3 := (s2.setRw (k F.POOL_FN_SEL_FUNCTION) 0).setRw (Page.chn.key F.CHN_FN_SEL_FUNCTION.off) 0
  (s3.secureWrite (Page.chn.key 0x008) 1).secureWrite (Page.pool.key 0x008) 1

/-- The pair configuration: PLK starts with one, and stays SOLO without. -/
def startPair (s : State) : State :=
  match s.faults.settings.bind Settings.pair with
  | some v =>
    let k := Page.plk.key F.PLK_CFG_POSITION.off
    (s.setLoaded k (setBits 1 0 (s.rw k) v)).pairStart
  | none => { s with pair := { s.pair with state := .solo } }

/-! ## Early images (R466) -/

/-- The bytes of a C8 image in the TILED layout, as 128-bit words. -/
def imageWords (w h : Nat) (px : List Nat) : List Nat :=
  let tw := (w + 31) / 32
  (List.range ((h + 7) / 8 * tw * 16)).map fun i =>
    let t := i / 16
    ((List.range 16).map fun j =>
      let e := i % 16 * 16 + j
      let x := t % tw * 32 + e % 32
      let y := t / tw * 8 + e / 32
      (if x < w ∧ y < h then px.getD (y * w + x) 0 % 256 else 0) * 256 ^ j).sum

/-- Set a word and its shadow. -/
def putWord (s : State) (k v : Nat) : State := (s.setRw k v).setSw k v

/-- Write words into the plots of a buffer. -/
def fillImage (s : State) (i : Nat) (ws : List Nat) : State :=
  ws.zipIdx.foldl (fun (t : State) (x : Nat × Nat) => t.storeWord (t.slotAddr i (16 * x.2)) x.1) s

/-- The image buffer of an entry: a SURFACE channel of 0x41 and a buffer that is LIVE once Xiresol has written it. -/
def earlyBuffer (s : State) (e : EarlyEntry) : Option (Nat × Nat × State) :=
  let size := Seedbed.layoutSize 6 e.w e.h false
  if s.poolNotReady ∨ (s.allocCheck 0x41 (plotsFor size)).isSome then none
  else
    match s.pool.chans.next 256 with
    | none => none
    | some ci =>
      let s1 := { s with pool := { s.pool with chans := s.pool.chans.occupy ci ⟨1, 0x41, false, none⟩ } }
      let (i, s2) := s1.allocate ci 0x41 size none
      let s3 := { s2 with pool := { s2.pool with fillQueue := s2.pool.fillQueue.filter (· != i) } }
      match s3.buf i with
      | none => none
      | some b =>
        let s4 := b.plots.foldl (fun t p => t.zeroRange (t.plotAddr p) 65536) (s3.setBuf i { b with state := .live, toFill := [] })
        some (ci, i, s4.fillImage (s4.bufHandle i) (imageWords e.w e.h e.pixels))

/-- The slot of an entry: secure, released, showing the image; and its pipe. -/
def earlySlot (s : State) (e : EarlyEntry) (i : Nat) : State :=
  let pg := Page.slot e.out e.slot
  let k := fun (f : Fld) => pg.key f.off
  let s1 := e.regs.foldl (fun t r => t.putWord r.1 r.2) s
  let s2 := (s1.putWord (k F.SLOT_POS_X) e.pos).putWord (k F.SLOT_SIZE_W) e.size
  let s3 := s2.setRw (pg.key 0x02C) 0x8041_3000
  let s4 := (s3.putWord (k F.SLOT_GS_BUF_BUFFER) (s.bufHandle i)).putWord (k F.SLOT_GS_SIZE_GS_W) (e.w + e.h * 2 ^ F.SLOT_GS_SIZE_GS_H.lo)
  let s5 := (s4.setFld pg F.SLOT_CTRL_GS_IMAGE 1).setSfld pg F.SLOT_CTRL_GS_IMAGE 1
  let s6 := e.palette.zipIdx.foldl (fun (t : State) (x : Nat × Nat) => t.putWord (pg.key (F.SLOT_PAL_COLOR.at [x.2])) x.1) s5
  let s7 := plainEnable (.pipe e.out) true (plainEnable pg true s6)
  let id := e.out * 16 + e.slot
  let s8 := { s7 with display := { s7.display with released := (s7.display.released ++ [id]).eraseDups } }
  ((s8.takeSlotFences s8 [id]).grantResources s8 [e.out] fun x => x == id).settleStore e.out

/-- One entry; one that a check of R183, R212 or R237 refuses is skipped as a whole and logged, and its output is left stopped. The check of
R240 needs the trained link: `earlyRefused` makes it at the output's latch point. -/
def earlyImage (s : State) (e : EarlyEntry) : State :=
  let skip := fun (code : Nat) => s.logInfo .sys code e.out
  let pg := Page.slot e.out e.slot
  if e.w = 0 ∨ e.h = 0 then skip 0x0002
  else if 256 < e.w ∨ 256 < e.h then skip 0x0006
  else
    match s.earlyBuffer e with
    | none => skip 0x1301
    | some (ci, i, s1) =>
      let s2 := s1.earlySlot e i
      match s2.slotChecks s2 [e.out] [pg.base] 0x41 with
      | some (_, code, _) => skip code
      | none =>
      let s3 := s2.secureWrite ((Page.dpl e.out).key 0x008) 1
      let s4 := s3.secureWrite ((Page.scn e.out).key 0x008) 1
      if !s3.flag (.dpl e.out) F.PG_CTRL_ENABLE then skip (s3.fld (.dpl e.out) F.ERR_CODE_CODE)
      else if !s4.flag (.scn e.out) F.PG_CTRL_ENABLE then skip (s4.fld (.scn e.out) F.ERR_CODE_CODE)
      else
        let s5 := { s4 with faults := { s4.faults with early := Sparse.put s4.faults.early e.out ⟨e.slot, ci, i, e.endOwner, false⟩ } }
        s5.setFld .sys F.SYS_EARLY_ACTIVE (setBits e.out e.out (s5.fld .sys F.SYS_EARLY_ACTIVE) 1)

/-- Phase 4, and the begin of phase 5, in which the early images are shown. -/
def phasePlan (s : State) : State :=
  let s1 := match s.faults.settings.bind Settings.plan with | some p => s.applyPlan p | none => s.defaultPlan
  let s2 := s1.startPair
  let s3 := match s2.faults.settings.bind Settings.pool with | some p => s2.placePool p | none => s2
  let s4 := s3.setFld .sys F.SYS_STAT_PHASE 5
  match s4.faults.settings with
  | some c => if c.pool.isSome then c.early.foldl earlyImage s4 else s4
  | none => s4

/-! ## The phases (R464) -/

/-- Full services. -/
def phaseFull (s : State) : State :=
  let s1 := (s.setFld .sys F.SYS_STAT_PHASE 7).setFld .sys F.SYS_BOOT_TIME_FULL_MS (min 0xFFFF ((s.now - s.faults.releasedAt) / 1000000))
  ((s1.burnWaiting).touchRestart).event .sys 1

/-- The running phase ends: its action is complete, and the next one begins. Phase 5 waits for the START survey, phase 6 until its plan
has been applied. -/
def phaseStep (s : State) (l : StartLoad) : State :=
  match s.fld .sys F.SYS_STAT_PHASE with
  | 1 => s.setFld .sys F.SYS_STAT_PHASE 2
  | 2 => s.phaseLoad l
  | 3 => s.phaseMemory l
  | 4 => s.phasePlan
  | 5 => if s.age.survey = some 1 then s else s.setFld .sys F.SYS_STAT_PHASE 6
  | 6 => if s.age.applying then s else s.phaseFull
  | _ => s

/-- STARTUP_PHASE_END: each phase that begins is logged (R475) and shown in BLOCK_STAT. -/
def phaseEnd (s : State) (l : StartLoad) : State :=
  if s.faults.inReset ∨ s.faults.recovery ∨ s.faults.fatal.isSome ∨ s.power.state ≠ .run then s
  else
    let s1 := s.phaseStep l
    let p := s1.fld .sys F.SYS_STAT_PHASE
    if p = s.fld .sys F.SYS_STAT_PHASE then s1 else (s1.setFld .sys F.SYS_BS_PHASE p).logInfo .sys 0 p

/-! ## Reset scopes (R463) -/

/-- RESET_N low: a device reset in every state, OFF included; THERMTRIP_N clears (R489). -/
def resetN (s : State) : State :=
  if s.power.state = .stopped then s
  else
    let s1 := s.deviceReset 2
    { s1 with faults := { s1.faults with thermtrip := false } }

/-- Reset release: phase 1 begins, and the cause is recorded. -/
def resetRelease (s : State) : State :=
  if !s.faults.inReset ∨ s.power.state ≠ .run then s
  else
    let s1 := { s with faults := { s.faults with inReset := false, recovery := false, releasedAt := s.now } }
    ((s1.setFld .sys F.SYS_STAT_RESET_CAUSE s.faults.cause).setFld .sys F.SYS_BS_PHASE 1).logInfo .sys 0 s.faults.cause

end State

/-! ## The commands -/

def execAonPowerOn (s : State) : Host.Outcome State Fault Refusal := .next s.aonPowerOn

def execResetNAssert (s : State) : Host.Outcome State Fault Refusal := .next s.resetN

def execResetRelease (s : State) : Host.Outcome State Fault Refusal := .next s.resetRelease

def execStartupPhaseEnd (l : StartLoad) (s : State) : Host.Outcome State Fault Refusal := .next (s.phaseEnd l)

end Sys2Proof.Machine
end

