-- ==== Sys2Proof/Machine/Dispatch.lean ====
section
/-! DEFINITION. One arm per command: each calls the command's own meaning. -/

namespace Sys2Proof.Machine

def exec (i : Instr) (s : State) : Host.Outcome State Fault Refusal :=
  match i with
  | .registerWrite w => Sys2Proof.Machine.execRegisterWrite w s
  | .wideRegisterWrite w lows => Sys2Proof.Machine.execWideRegisterWrite w lows s
  | .wideRegisterLowRead r => Sys2Proof.Machine.execWideRegisterLowRead r s
  | .counterLoRead r => Sys2Proof.Machine.execCounterLoRead r s
  | .pgEnableWrite w => Sys2Proof.Machine.execPgEnableWrite w s
  | .pgSoftReset w => Sys2Proof.Machine.execPgSoftReset w s
  | .pgLock w => Sys2Proof.Machine.execPgLock w s
  | .pgUnlock w => Sys2Proof.Machine.execPgUnlock w s
  | .evtRawClear w => Sys2Proof.Machine.execEvtRawClear w s
  | .evtSetWrite w => Sys2Proof.Machine.execEvtSetWrite w s
  | .evtEnWrite w => Sys2Proof.Machine.execEvtEnWrite w s
  | .evtRouteWrite w => Sys2Proof.Machine.execEvtRouteWrite w s
  | .errCodeClear w => Sys2Proof.Machine.execErrCodeClear w s
  | .shadowGroupWrite w => Sys2Proof.Machine.execShadowGroupWrite w s
  | .shadowDiscard w => Sys2Proof.Machine.execShadowDiscard w s
  | .ownerWrite w => Sys2Proof.Machine.execOwnerWrite w s
  | .chkOwnerWrite w => Sys2Proof.Machine.execChkOwnerWrite w s
  | .channelCreate c => Sys2Proof.Machine.execChannelCreate c s
  | .channelDestroy c => Sys2Proof.Machine.execChannelDestroy c s
  | .bufferAlloc c => Sys2Proof.Machine.execBufferAlloc c s
  | .bufferFree c => Sys2Proof.Machine.execBufferFree c s
  | .bufferQuery c => Sys2Proof.Machine.execBufferQuery c s
  | .plotFillDone => Sys2Proof.Machine.execPlotFillDone s
  | .poolEnable w => Sys2Proof.Machine.execPoolEnable w s
  | .poolFnQuotaWrite w => Sys2Proof.Machine.execPoolFnQuotaWrite w s
  | .poolFnShareWrite w => Sys2Proof.Machine.execPoolFnShareWrite w s
  | .chnFnLimitWrite w => Sys2Proof.Machine.execChnFnLimitWrite w s
  | .poolLowMarkWrite w => Sys2Proof.Machine.execPoolLowMarkWrite w s
  | .poolFnPeakClear w => Sys2Proof.Machine.execPoolFnPeakClear w s
  | .watermarkSet w => Sys2Proof.Machine.execWatermarkSet w s
  | .wldDenyClear w => Sys2Proof.Machine.execWldDenyClear w s
  | .wldHoldWrite w => Sys2Proof.Machine.execWldHoldWrite w s
  | .gateEntry core call => Sys2Proof.Machine.execGateEntry core call s
  | .gateReturn core r0 r1 => Sys2Proof.Machine.execGateReturn core r0 r1 s
  | .gateTimeout core => Sys2Proof.Machine.execGateTimeout core s
  | .pmcClear w => Sys2Proof.Machine.execPmcClear w s
  | .sqDoorbell w => Sys2Proof.Machine.execSqDoorbell w s
  | .cqDoorbell w => Sys2Proof.Machine.execCqDoorbell w s
  | .queueEnable w => Sys2Proof.Machine.execQueueEnable w s
  | .queueDisable w => Sys2Proof.Machine.execQueueDisable w s
  | .peerAccess fn rid off wr => Sys2Proof.Machine.execPeerAccess fn rid off wr s
  | .commandFetch port entry => Sys2Proof.Machine.execCommandFetch port entry s
  | .coalesceTimeout fn q => Sys2Proof.Machine.execCoalesceTimeout fn q s
  | .nop c => Sys2Proof.Machine.execNop c s
  | .fnReset c => Sys2Proof.Machine.execFnReset c s
  | .fnQuery c => Sys2Proof.Machine.execFnQuery c s
  | .flr fn => Sys2Proof.Machine.execFlr fn s
  | .vfEnableCleared port => Sys2Proof.Machine.execVfEnableCleared port s
  | .vfEnableSet port n => Sys2Proof.Machine.execVfEnableSet port n s
  | .vfSoftReset w => Sys2Proof.Machine.execVfSoftReset w s
  | .hpPfResetStart w => Sys2Proof.Machine.execHpPfResetStart w s
  | .hpSoftReset w => Sys2Proof.Machine.execHpSoftReset w s
  | .fnResetPoolStep fn => Sys2Proof.Machine.execFnResetPoolStep fn s
  | .fnResetQueueStep fn => Sys2Proof.Machine.execFnResetQueueStep fn s
  | .portLinkDown port => Sys2Proof.Machine.execPortLinkDown port s
  | .portLinkUp port speed width => Sys2Proof.Machine.execPortLinkUp port speed width s
  | .hpMgrRoleWrite w => Sys2Proof.Machine.execHpMgrRoleWrite w s
  | .ingest c => Sys2Proof.Machine.execIngest c s
  | .ingestStart engine slot => Sys2Proof.Machine.execIngestStart engine slot s
  | .hostReadError engine slot kind addr tiles host => Sys2Proof.Machine.execHostReadError engine slot kind addr tiles host s
  | .ingestDone engine slot host => Sys2Proof.Machine.execIngestDone engine slot host s
  | .ingSoftReset w => Sys2Proof.Machine.execIngSoftReset w s
  | .pipeLutDataAccess w isRead => Sys2Proof.Machine.execPipeLutDataAccess w isRead s
  | .pipeSclDataAccess w isRead => Sys2Proof.Machine.execPipeSclDataAccess w isRead s
  | .slotLutDataAccess w isRead => Sys2Proof.Machine.execSlotLutDataAccess w isRead s
  | .lineComposeStart out => Sys2Proof.Machine.execLineComposeStart out s
  | .commit c => Sys2Proof.Machine.execCommit c s
  | .applyLine out => Sys2Proof.Machine.execApplyLine out s
  | .frameDone out => Sys2Proof.Machine.execFrameDone out s
  | .commitAckTimeout recNo => Sys2Proof.Machine.execCommitAckTimeout recNo s
  | .scanOutStart w => Sys2Proof.Machine.execScanOutStart w s
  | .scanOutCounterStart out => Sys2Proof.Machine.execScanOutCounterStart out s
  | .scanOutStopRequest w => Sys2Proof.Machine.execScanOutStopRequest w s
  | .scnSoftReset w => Sys2Proof.Machine.execScnSoftReset w s
  | .scanLineStart out phase m => Sys2Proof.Machine.execScanLineStart out phase m s
  | .furrowArrival out slot plane row clock m => Sys2Proof.Machine.execFurrowArrival out slot plane row clock m s
  | .headlandStart out => Sys2Proof.Machine.execHeadlandStart out s
  | .vsync out => Sys2Proof.Machine.execVsync out s
  | .headlandEnd out => Sys2Proof.Machine.execHeadlandEnd out s
  | .lineMatch out index => Sys2Proof.Machine.execLineMatch out index s
  | .vrrDecision out => Sys2Proof.Machine.execVrrDecision out s
  | .genlockWrite w => Sys2Proof.Machine.execGenlockWrite w s
  | .dplEnable w => Sys2Proof.Machine.execDplEnable w s
  | .dplDisable w => Sys2Proof.Machine.execDplDisable w s
  | .hpdPlug out sink blockPred => Sys2Proof.Machine.execHpdPlug out sink blockPred s
  | .hpdIrq out lost => Sys2Proof.Machine.execHpdIrq out lost s
  | .hpdUnplug out => Sys2Proof.Machine.execHpdUnplug out s
  | .trainingAttemptEnd out ok => Sys2Proof.Machine.execTrainingAttemptEnd out ok s
  | .linkLoss out => Sys2Proof.Machine.execLinkLoss out s
  | .auxGo w => Sys2Proof.Machine.execAuxGo w s
  | .auxReply out reply bytes data => Sys2Proof.Machine.execAuxReply out reply bytes data s
  | .auxReplyTimeout out => Sys2Proof.Machine.execAuxReplyTimeout out s
  | .ppsDataRead r => Sys2Proof.Machine.execPpsDataRead r s
  | .dplIdleHoldEnd out => Sys2Proof.Machine.execDplIdleHoldEnd out s
  | .scan c => Sys2Proof.Machine.execScan c s
  | .scanStart engine slot => Sys2Proof.Machine.execScanStart engine slot s
  | .scanDone engine slot => Sys2Proof.Machine.execScanDone engine slot s
  | .checkRegionFinal out region => Sys2Proof.Machine.execCheckRegionFinal out region s
  | .dramRequest q => Sys2Proof.Machine.execDramRequest q s
  | .dramRequestComplete ch => Sys2Proof.Machine.execDramRequestComplete ch s
  | .refreshDue ch => Sys2Proof.Machine.execRefreshDue ch s
  | .mr4Poll ch rate hot => Sys2Proof.Machine.execMr4Poll ch rate hot s
  | .retrainStart ch cause => Sys2Proof.Machine.execRetrainStart ch cause s
  | .dmcTrainStartWrite w => Sys2Proof.Machine.execDmcTrainStartWrite w s
  | .retrainEnd ch pause eyes readBack => Sys2Proof.Machine.execRetrainEnd ch pause eyes readBack s
  | .dramPowerDown ch => Sys2Proof.Machine.execDramPowerDown ch s
  | .dmcPortTargetAll w => Sys2Proof.Machine.execDmcPortTargetAll w s
  | .dmcPortMaxlatClear w => Sys2Proof.Machine.execDmcPortMaxlatClear w s
  | .dmcDebtMaxClear w => Sys2Proof.Machine.execDmcDebtMaxClear w s
  | .dmcStopWrite w => Sys2Proof.Machine.execDmcStopWrite w s
  | .regionsSet w => Sys2Proof.Machine.execRegionsSet w s
  | .edacLogRelease w => Sys2Proof.Machine.execEdacLogRelease w s
  | .edacLogClearAll w => Sys2Proof.Machine.execEdacLogClearAll w s
  | .edacRetirePlot w => Sys2Proof.Machine.execEdacRetirePlot w s
  | .edacRetireBank w => Sys2Proof.Machine.execEdacRetireBank w s
  | .retireBankDone => Sys2Proof.Machine.execRetireBankDone s
  | .tchEnable w => Sys2Proof.Machine.execTchEnable w s
  | .tchPanelEnable w => Sys2Proof.Machine.execTchPanelEnable w s
  | .tchPanelDisable w => Sys2Proof.Machine.execTchPanelDisable w s
  | .tchSoftReset w => Sys2Proof.Machine.execTchSoftReset w s
  | .touchFrameStart engine => Sys2Proof.Machine.execTouchFrameStart engine s
  | .touchPanelScanEnd engine panel m listen cand => Sys2Proof.Machine.execTouchPanelScanEnd engine panel m listen cand s
  | .touchSnapshot engine panel => Sys2Proof.Machine.execTouchSnapshot engine panel s
  | .captureRef w => Sys2Proof.Machine.execCaptureRef w s
  | .tchNodeDataAccess w isRead => Sys2Proof.Machine.execTchNodeDataAccess w isRead s
  | .tchBufWrite w => Sys2Proof.Machine.execTchBufWrite w s
  | .hapticPlay c => Sys2Proof.Machine.execHapticPlay c s
  | .touchRule c => Sys2Proof.Machine.execTouchRule c s
  | .ruleMatch => Sys2Proof.Machine.execRuleMatch s
  | .clipLoadDone => Sys2Proof.Machine.execClipLoadDone s
  | .controlPeriod ch adcA adcI carrier => Sys2Proof.Machine.execControlPeriod ch adcA adcI carrier s
  | .tapSample tap sample => Sys2Proof.Machine.execTapSample tap sample s
  | .hapChannelEnable w => Sys2Proof.Machine.execHapChannelEnable w s
  | .calStart w => Sys2Proof.Machine.execCalStart w s
  | .calDone ch freq peak => Sys2Proof.Machine.execCalDone ch freq peak s
  | .audioQueue c => Sys2Proof.Machine.execAudioQueue c s
  | .audioBlockBoundary domain inputs sync => Sys2Proof.Machine.execAudioBlockBoundary domain inputs sync s
  | .routeApply w => Sys2Proof.Machine.execRouteApply w s
  | .bridgePrimed bridge => Sys2Proof.Machine.execBridgePrimed bridge s
  | .tdmPortEnable w => Sys2Proof.Machine.execTdmPortEnable w s
  | .busEnableWrite w => Sys2Proof.Machine.execBusEnableWrite w s
  | .streamDisable w => Sys2Proof.Machine.execStreamDisable w s
  | .streamChannelWrite w => Sys2Proof.Machine.execStreamChannelWrite w s
  | .domainHoldover domain => Sys2Proof.Machine.execDomainHoldover domain s
  | .domainRelock domain => Sys2Proof.Machine.execDomainRelock domain s
  | .tdmSlip port => Sys2Proof.Machine.execTdmSlip port s
  | .tdmClockLost port => Sys2Proof.Machine.execTdmClockLost port s
  | .aud0SoftReset w => Sys2Proof.Machine.execAud0SoftReset w s
  | .guyInEdge asserted => Sys2Proof.Machine.execGuyInEdge asserted s
  | .guyFilterExpiry => Sys2Proof.Machine.execGuyFilterExpiry s
  | .collision => Sys2Proof.Machine.execCollision s
  | .collisionTimeout => Sys2Proof.Machine.execCollisionTimeout s
  | .collisionBackoffEnd => Sys2Proof.Machine.execCollisionBackoffEnd s
  | .waitingTimeout => Sys2Proof.Machine.execWaitingTimeout s
  | .ploliaLinkUp speed width h b => Sys2Proof.Machine.execPloliaLinkUp speed width h b s
  | .replayTimeout => Sys2Proof.Machine.execReplayTimeout s
  | .nullFlit h => Sys2Proof.Machine.execNullFlit h s
  | .heartbeatSend => Sys2Proof.Machine.execHeartbeatSend s
  | .heartbeat h b slow => Sys2Proof.Machine.execHeartbeat h b slow s
  | .heartbeatTimeout => Sys2Proof.Machine.execHeartbeatTimeout s
  | .joinRequest h config => Sys2Proof.Machine.execJoinRequest h config s
  | .joinAccept h => Sys2Proof.Machine.execJoinAccept h s
  | .joinRefuse h reason => Sys2Proof.Machine.execJoinRefuse h reason s
  | .syncDone h => Sys2Proof.Machine.execSyncDone h s
  | .resyncSendDone => Sys2Proof.Machine.execResyncSendDone s
  | .handoverOffer h count => Sys2Proof.Machine.execHandoverOffer h count s
  | .handoverReady h => Sys2Proof.Machine.execHandoverReady h s
  | .handoverRefusal h reason => Sys2Proof.Machine.execHandoverRefusal h reason s
  | .plkHandover w => Sys2Proof.Machine.execPlkHandover w s
  | .handoverDrained => Sys2Proof.Machine.execHandoverDrained s
  | .handoverDrainTimeout => Sys2Proof.Machine.execHandoverDrainTimeout s
  | .plkResync w => Sys2Proof.Machine.execPlkResync w s
  | .plkRetrain w => Sys2Proof.Machine.execPlkRetrain w s
  | .plkClearGuyFault w => Sys2Proof.Machine.execPlkClearGuyFault w s
  | .timeSyncDue => Sys2Proof.Machine.execTimeSyncDue s
  | .timeSyncRequest h t1 => Sys2Proof.Machine.execTimeSyncRequest h t1 s
  | .timeSyncReply h t1 t2 t3 => Sys2Proof.Machine.execTimeSyncReply h t1 t2 t3 s
  | .timeSyncFrame h out seq ta => Sys2Proof.Machine.execTimeSyncFrame h out seq ta s
  | .timeSyncVrr h out seq line proceed => Sys2Proof.Machine.execTimeSyncVrr h out seq line proceed s
  | .commitArmRecord h recNo group fn entries fin => Sys2Proof.Machine.execCommitArmRecord h recNo group fn entries fin s
  | .commitArmApply h recNo frame => Sys2Proof.Machine.execCommitArmApply h recNo frame s
  | .commitArmDrop h recNo => Sys2Proof.Machine.execCommitArmDrop h recNo s
  | .commitAckHeld h recNo => Sys2Proof.Machine.execCommitAckHeld h recNo s
  | .commitAckApplied h recNo frame => Sys2Proof.Machine.execCommitAckApplied h recNo frame s
  | .stateDigest h d => Sys2Proof.Machine.execStateDigest h d s
  | .mirrorWrite h m => Sys2Proof.Machine.execMirrorWrite h m s
  | .wakeFlit h sub arg result => Sys2Proof.Machine.execWakeFlit h sub arg result s
  | .pwrReqRun w => Sys2Proof.Machine.execPwrReqRun w s
  | .pwrReqIdle w => Sys2Proof.Machine.execPwrReqIdle w s
  | .pwrReqFallow w => Sys2Proof.Machine.execPwrReqFallow w s
  | .pwrReqOff w => Sys2Proof.Machine.execPwrReqOff w s
  | .fallowDrainDone => Sys2Proof.Machine.execFallowDrainDone s
  | .fallowDrainTimeout => Sys2Proof.Machine.execFallowDrainTimeout s
  | .wakeTlp port result => Sys2Proof.Machine.execWakeTlp port result s
  | .wakePin result => Sys2Proof.Machine.execWakePin result s
  | .motionEdge level result => Sys2Proof.Machine.execMotionEdge level result s
  | .canWakeUp result => Sys2Proof.Machine.execCanWakeUp result s
  | .alarmFire result => Sys2Proof.Machine.execAlarmFire result s
  | .wakeStepTimeout reason item entries => Sys2Proof.Machine.execWakeStepTimeout reason item entries s
  | .wakeRetry result => Sys2Proof.Machine.execWakeRetry result s
  | .sag => Sys2Proof.Machine.execSag s
  | .pointOfNoReturn supplyGood => Sys2Proof.Machine.execPointOfNoReturn supplyGood s
  | .mramSaveDone err => Sys2Proof.Machine.execMramSaveDone err s
  | .vholdExhausted => Sys2Proof.Machine.execVholdExhausted s
  | .supplyReturn => Sys2Proof.Machine.execSupplyReturn s
  | .pwrIslWrite w => Sys2Proof.Machine.execPwrIslWrite w s
  | .pwrSaveAdd w => Sys2Proof.Machine.execPwrSaveAdd w s
  | .pwrSaveClear w => Sys2Proof.Machine.execPwrSaveClear w s
  | .vholdMeasure mv capUf mohm meets => Sys2Proof.Machine.execVholdMeasure mv capUf mohm meets s
  | .timCalInterval c => Sys2Proof.Machine.execTimCalInterval c s
  | .timSet w => Sys2Proof.Machine.execTimSet w s
  | .aonAlarmArm w => Sys2Proof.Machine.execAonAlarmArm w s
  | .aonPmbGo w => Sys2Proof.Machine.execAonPmbGo w s
  | .pmbDone ok pec data => Sys2Proof.Machine.execPmbDone ok pec data s
  | .ageSurveyRequest w => Sys2Proof.Machine.execAgeSurveyRequest w s
  | .surveyEnd tj m => Sys2Proof.Machine.execSurveyEnd tj m s
  | .marginAlarm island => Sys2Proof.Machine.execMarginAlarm island s
  | .planVoltageStep => Sys2Proof.Machine.execPlanVoltageStep s
  | .poweredHour => Sys2Proof.Machine.execPoweredHour s
  | .surveyDeferEnd => Sys2Proof.Machine.execSurveyDeferEnd s
  | .updOpen w => Sys2Proof.Machine.execUpdOpen w s
  | .updStage w => Sys2Proof.Machine.execUpdStage w s
  | .updVerify w => Sys2Proof.Machine.execUpdVerify w s
  | .updActivate w => Sys2Proof.Machine.execUpdActivate w s
  | .updAbort w => Sys2Proof.Machine.execUpdAbort w s
  | .updClose w => Sys2Proof.Machine.execUpdClose w s
  | .updSessionTimeout => Sys2Proof.Machine.execUpdSessionTimeout s
  | .updUnlock w => Sys2Proof.Machine.execUpdUnlock w s
  | .trialConfirmed => Sys2Proof.Machine.execTrialConfirmed s
  | .trialTimeout => Sys2Proof.Machine.execTrialTimeout s
  | .microcodeTargetLoad ok => Sys2Proof.Machine.execMicrocodeTargetLoad ok s
  | .aonPowerOn => Sys2Proof.Machine.execAonPowerOn s
  | .resetNAssert => Sys2Proof.Machine.execResetNAssert s
  | .sysRestart w => Sys2Proof.Machine.execSysRestart w s
  | .resetRelease => Sys2Proof.Machine.execResetRelease s
  | .startupPhaseEnd l => Sys2Proof.Machine.execStartupPhaseEnd l s
  | .sysEarlyEnd w => Sys2Proof.Machine.execSysEarlyEnd w s
  | .faultReport src sram cls code info fn act => Sys2Proof.Machine.execFaultReport src sram cls code info fn act s
  | .deviceFatalFault source => Sys2Proof.Machine.execDeviceFatalFault source s
  | .fatalRestart => Sys2Proof.Machine.execFatalRestart s
  | .watchdogExpiry => Sys2Proof.Machine.execWatchdogExpiry s
  | .referenceLoss => Sys2Proof.Machine.execReferenceLoss s
  | .thermtrip => Sys2Proof.Machine.execThermtrip s
  | .logClear w => Sys2Proof.Machine.execLogClear w s
  | .flitCrcFailure crc reserved => Sys2Proof.Machine.execFlitCrcFailure crc reserved s
  | .ploliaRecoveryDone => Sys2Proof.Machine.execPloliaRecoveryDone s
  | .mirrorFlitSend => Sys2Proof.Machine.execMirrorFlitSend s
  | .updCmdDone genuine => Sys2Proof.Machine.execUpdCmdDone genuine s
  | .msixVectorUnmask fn vec => Sys2Proof.Machine.execMsixVectorUnmask fn vec s
  | .groupWakeDone group => Sys2Proof.Machine.execGroupWakeDone group s

end Sys2Proof.Machine
end

