-- ==== Sys2Proof/Safety.lean ====
section
/-! DEFINITION. What claims are stated in terms of: the invariant that every command and every cycle keeps, the conditions under which
a register write or a queue command is carried out, and what a command leaves alone. -/

namespace Sys2Proof.Machine

/-- Device time stays in its counters: DTIME in 64 bits (R428), the AON ticks in 48 (R418), and the parts that have not
made up a nanosecond or a tick stay below one. -/
structure Time.InRange (t : Time) : Prop where
  dtime : t.dtime < 2 ^ 64
  frac : t.frac < 1000000000
  ticks : t.ticks < 2 ^ 48
  tickFrac : t.tickFrac < 1000000000

/-- The tables of the channel manager list each occupied slot once, in order. -/
structure Pool.Sorted (x : Pool) : Prop where
  chans : Sparse.sortedFrom 0 x.chans.used = true
  bufs : Sparse.sortedFrom 0 x.bufs.used = true

/-- What holds in every state that commands and cycles lead to from such a state, for a part and a queue that nothing
changes: DRAM, the register words, their shadows, the copies that FALLOW keeps and the flash are in canonical form, so
that equal contents are equal data; the time counters are in range; the number that the next fetched command takes is new;
and the channel and buffer tables list each slot once. -/
structure Sound (p : Part) (q : List Instr) (s : State) : Prop where
  part : s.part = p
  queue : s.pending = q
  mem : Memory.wf s.mem = true
  regs : Sparse.wf (resetWord p) s.regs = true
  shad : Sparse.wf (resetWord p) s.shad = true
  copyRegs : Sparse.wf (resetWord p) s.power.copyRegs = true
  copyShad : Sparse.wf (resetWord p) s.power.copyShad = true
  flash : Sparse.wf flashDefault s.update.flash = true
  time : s.time.InRange
  jobs : ∀ j ∈ s.hosts.jobs, j.jid < s.hosts.nextJid
  tables : s.pool.Sorted

/-- The invariant of the device: the canonical forms and the counter ranges, whatever the queue holds. -/
def Inv (s : State) : Prop := Sound s.part s.pending s

/-! ## What a command leaves alone -/

/-- The pieces of the state that a frame names; the part and the queue of waiting commands are no piece, because no command changes them. -/
inductive Piece where
  | regs | shad | loaded | staged | latched | softResetting | mem | out | free | now | time | power | dram | edac | chans | bufs | plots | fillQueue | peak | cache | ingest | display | dpls | cvus | touch | haptic | audio | age | update | faults | worlds | queues | fns | jobs | coreEntries | fetchStopped | arbiter | unmasked | msiPending | pair
  deriving DecidableEq, Repr

/-- A piece is the same in two states. -/
def Piece.Same (s t : State) : Piece → Prop
  | .regs => t.regs = s.regs
  | .shad => t.shad = s.shad
  | .loaded => t.loaded = s.loaded
  | .staged => t.staged = s.staged
  | .latched => t.latched = s.latched
  | .softResetting => t.softResetting = s.softResetting
  | .mem => t.mem = s.mem
  | .out => t.out = s.out
  | .free => t.free = s.free
  | .now => t.now = s.now
  | .time => t.time = s.time
  | .power => t.power = s.power
  | .dram => t.dram = s.dram
  | .edac => t.edac = s.edac
  | .chans => t.pool.chans = s.pool.chans
  | .bufs => t.pool.bufs = s.pool.bufs
  | .plots => t.pool.plots = s.pool.plots
  | .fillQueue => t.pool.fillQueue = s.pool.fillQueue
  | .peak => t.pool.peak = s.pool.peak
  | .cache => t.pool.cache = s.pool.cache
  | .ingest => t.ingest = s.ingest
  | .display => t.display = s.display
  | .dpls => t.dpls = s.dpls
  | .cvus => t.cvus = s.cvus
  | .touch => t.touch = s.touch
  | .haptic => t.haptic = s.haptic
  | .audio => t.audio = s.audio
  | .age => t.age = s.age
  | .update => t.update = s.update
  | .faults => t.faults = s.faults
  | .worlds => t.worlds = s.worlds
  | .queues => t.hosts.queues = s.hosts.queues
  | .fns => t.hosts.fns = s.hosts.fns
  | .jobs => t.hosts.jobs = s.hosts.jobs ∧ t.hosts.nextJid = s.hosts.nextJid
  | .coreEntries => t.hosts.coreEntries = s.hosts.coreEntries
  | .fetchStopped => t.hosts.fetchStopped = s.hosts.fetchStopped
  | .arbiter => t.hosts.rounds = s.hosts.rounds ∧ t.hosts.lastQ = s.hosts.lastQ
  | .unmasked => t.hosts.unmasked = s.hosts.unmasked
  | .msiPending => t.hosts.msiPending = s.hosts.msiPending ∧ t.hosts.heldIrqs = s.hosts.heldIrqs
  | .pair => t.pair = s.pair

/-- Nothing but the named pieces may differ. -/
def OnlyChanges (s t : State) (cs : List Piece) : Prop := t.part = s.part ∧ t.pending = s.pending ∧ ∀ c, c ∉ cs → c.Same s t

/-- Every piece but the listed ones. -/
def allBut (cs : List Piece) : List Piece :=
  [.regs, .shad, .loaded, .staged, .latched, .softResetting, .mem, .out, .free, .now, .time, .power, .dram, .edac, .chans, .bufs, .plots,
    .fillQueue, .peak, .cache, .ingest, .display, .dpls, .cvus, .touch, .haptic, .audio, .age, .update, .faults, .worlds, .queues, .fns,
    .jobs, .coreEntries, .fetchStopped, .arbiter, .unmasked, .msiPending, .pair].filter fun c => !cs.contains c

/-- The pieces that each command may write, whatever it meets; every other piece it leaves as it was. -/
def pieces : Instr → List Piece
  | .registerWrite _ | .wideRegisterWrite _ _ | .handoverReady _ | .mirrorWrite _ _ | .wakeFlit _ _ _ _ | .wakeTlp _ _ | .wakePin _
  | .motionEdge _ _ | .canWakeUp _ | .alarmFire _ | .wakeRetry _ | .pointOfNoReturn _ | .startupPhaseEnd _ | .groupWakeDone _ =>
    allBut [.now]
  | .wideRegisterLowRead _ | .counterLoRead _ =>
    [.regs, .latched, .out, .touch, .worlds, .msiPending]
  | .pgEnableWrite _ | .pgSoftReset _ | .pgLock _ | .pgUnlock _ | .poolEnable _ | .ingSoftReset _ =>
    [.regs, .shad, .softResetting, .mem, .out, .free, .power, .dram, .edac, .chans, .bufs, .plots, .peak, .cache, .ingest, .display,
     .dpls, .cvus, .touch, .haptic, .audio, .update, .faults, .worlds, .queues, .fns, .jobs, .coreEntries, .fetchStopped, .unmasked,
     .msiPending, .pair]
  | .evtRawClear _ | .evtEnWrite _ | .evtRouteWrite _ | .poolLowMarkWrite _ | .genlockWrite _ | .tchBufWrite _ | .busEnableWrite _
  | .streamChannelWrite _ =>
    [.regs, .shad, .out, .worlds, .msiPending, .pair]
  | .evtSetWrite _ | .errCodeClear _ | .wldDenyClear _ | .gateReturn _ _ _ | .hpMgrRoleWrite _ | .dmcPortMaxlatClear _
  | .dmcDebtMaxClear _ =>
    [.regs, .out, .worlds, .msiPending]
  | .shadowGroupWrite _ | .shadowDiscard _ =>
    [.regs, .shad, .mem, .out, .dram, .edac, .chans, .bufs, .plots, .cache, .display, .faults, .worlds, .queues, .jobs, .msiPending,
     .pair]
  | .ownerWrite _ =>
    [.regs, .shad, .staged, .latched, .mem, .out, .dram, .edac, .chans, .bufs, .plots, .cache, .display, .faults, .worlds, .queues,
     .jobs, .msiPending, .pair]
  | .chkOwnerWrite _ =>
    [.regs, .staged, .latched, .out, .display, .worlds, .msiPending, .pair]
  | .channelCreate _ =>
    [.regs, .out, .chans, .queues, .jobs, .coreEntries, .msiPending, .pair]
  | .channelDestroy _ =>
    [.regs, .mem, .out, .chans, .bufs, .plots, .cache, .queues, .jobs, .coreEntries, .msiPending, .pair]
  | .bufferAlloc _ =>
    [.regs, .mem, .out, .bufs, .plots, .fillQueue, .peak, .cache, .queues, .jobs, .coreEntries, .msiPending, .pair]
  | .bufferFree _ =>
    [.regs, .mem, .out, .bufs, .plots, .cache, .queues, .jobs, .coreEntries, .msiPending, .pair]
  | .bufferQuery _ | .nop _ | .fnQuery _ =>
    [.out, .queues, .jobs, .coreEntries, .msiPending]
  | .plotFillDone =>
    [.regs, .mem, .out, .chans, .bufs, .plots, .fillQueue, .cache, .queues, .jobs, .msiPending, .pair]
  | .poolFnQuotaWrite _ | .poolFnShareWrite _ | .chnFnLimitWrite _ =>
    [.regs, .out, .worlds, .msiPending, .pair]
  | .poolFnPeakClear _ =>
    [.regs, .out, .peak, .worlds, .msiPending]
  | .watermarkSet _ | .wldHoldWrite _ | .pmcClear _ | .pipeLutDataAccess _ _ | .pipeSclDataAccess _ _ | .slotLutDataAccess _ _
  | .regionsSet _ | .pwrIslWrite _ | .updUnlock _ =>
    [.regs, .shad, .out, .worlds, .msiPending]
  | .gateEntry _ _ =>
    [.regs, .out, .faults, .worlds, .queues, .jobs, .msiPending]
  | .gateTimeout _ =>
    [.regs, .out, .free, .worlds, .msiPending]
  | .sqDoorbell _ | .cqDoorbell _ =>
    [.regs, .out, .power, .worlds, .queues, .jobs, .msiPending]
  | .queueEnable _ | .queueDisable _ =>
    [.regs, .shad, .out, .worlds, .queues, .jobs, .msiPending]
  | .peerAccess _ _ _ _ =>
    [.regs, .out, .power, .queues, .jobs, .msiPending]
  | .commandFetch _ _ =>
    [.regs, .shad, .mem, .out, .power, .dram, .edac, .chans, .bufs, .plots, .fillQueue, .peak, .cache, .ingest, .display, .cvus, .haptic,
     .audio, .update, .faults, .queues, .fns, .jobs, .coreEntries, .arbiter, .msiPending, .pair]
  | .coalesceTimeout _ _ =>
    [.out, .queues, .msiPending]
  | .fnReset _ =>
    [.regs, .shad, .mem, .out, .dram, .edac, .chans, .bufs, .plots, .cache, .ingest, .display, .cvus, .haptic, .audio, .update, .faults,
     .queues, .fns, .jobs, .coreEntries, .msiPending, .pair]
  | .flr _ | .vfEnableCleared _ =>
    [.regs, .shad, .mem, .out, .dram, .edac, .chans, .bufs, .plots, .cache, .ingest, .display, .cvus, .haptic, .audio, .update, .faults,
     .queues, .fns, .jobs, .msiPending, .pair]
  | .vfEnableSet _ _ | .portLinkUp _ _ _ =>
    [.regs, .shad, .out, .faults, .queues, .fns, .msiPending]
  | .vfSoftReset _ | .hpPfResetStart _ =>
    [.regs, .shad, .mem, .out, .dram, .edac, .chans, .bufs, .plots, .cache, .ingest, .display, .cvus, .haptic, .audio, .update, .faults,
     .worlds, .queues, .fns, .jobs, .msiPending, .pair]
  | .hpSoftReset _ =>
    [.regs, .shad, .softResetting, .mem, .out, .dram, .edac, .chans, .bufs, .plots, .cache, .ingest, .display, .cvus, .haptic, .audio,
     .update, .faults, .worlds, .queues, .fns, .jobs, .msiPending, .pair]
  | .fnResetPoolStep _ =>
    [.regs, .shad, .mem, .out, .dram, .edac, .chans, .bufs, .plots, .cache, .display, .faults, .queues, .fns, .jobs, .msiPending, .pair]
  | .fnResetQueueStep _ =>
    [.regs, .shad, .softResetting, .out, .faults, .queues, .fns, .jobs, .unmasked, .msiPending]
  | .portLinkDown _ =>
    [.regs, .shad, .mem, .out, .dram, .edac, .chans, .bufs, .plots, .cache, .ingest, .display, .cvus, .haptic, .audio, .update, .faults,
     .queues, .fns, .jobs, .unmasked, .msiPending, .pair]
  | .ingest _ =>
    [.regs, .out, .bufs, .ingest, .queues, .jobs, .coreEntries, .msiPending]
  | .ingestStart _ _ =>
    [.regs, .ingest, .arbiter]
  | .hostReadError _ _ _ _ _ _ | .ingestDone _ _ _ =>
    [.regs, .mem, .out, .edac, .chans, .bufs, .plots, .cache, .ingest, .faults, .queues, .jobs, .msiPending, .pair]
  | .lineComposeStart _ =>
    [.regs, .out, .display, .msiPending]
  | .commit _ =>
    [.regs, .shad, .mem, .out, .power, .dram, .edac, .chans, .bufs, .plots, .cache, .display, .faults, .queues, .jobs, .coreEntries,
     .msiPending, .pair]
  | .applyLine _ | .commitAckTimeout _ | .commitArmApply _ _ _ | .commitAckHeld _ _ =>
    [.regs, .shad, .mem, .out, .dram, .edac, .chans, .bufs, .plots, .cache, .display, .faults, .queues, .jobs, .msiPending, .pair]
  | .frameDone _ =>
    [.regs, .shad, .staged, .latched, .mem, .out, .power, .dram, .edac, .chans, .bufs, .plots, .cache, .display, .dpls, .faults, .queues,
     .jobs, .fetchStopped, .msiPending, .pair]
  | .scanOutStart _ | .scanOutStopRequest _ | .scnSoftReset _ =>
    [.regs, .shad, .mem, .out, .power, .dram, .edac, .chans, .bufs, .plots, .cache, .display, .dpls, .faults, .worlds, .queues, .jobs,
     .msiPending, .pair]
  | .scanOutCounterStart _ =>
    [.regs, .shad, .mem, .out, .power, .dram, .edac, .chans, .bufs, .plots, .cache, .display, .dpls, .faults, .queues, .jobs,
     .msiPending, .pair]
  | .scanLineStart _ _ _ =>
    [.regs, .out, .display, .msiPending, .pair]
  | .furrowArrival _ _ _ _ _ _ =>
    [.regs, .mem, .out, .edac, .cache, .display, .faults, .msiPending]
  | .headlandStart _ | .vsync _ | .headlandEnd _ | .lineMatch _ _ | .refreshDue _ | .domainHoldover _ | .domainRelock _ | .tdmSlip _
  | .tdmClockLost _ =>
    [.regs, .out, .msiPending]
  | .vrrDecision _ =>
    [.regs, .out, .display, .pair]
  | .dplEnable _ | .dplDisable _ =>
    [.regs, .shad, .out, .dpls, .faults, .worlds, .msiPending, .pair]
  | .hpdPlug _ _ _ | .hpdIrq _ _ | .hpdUnplug _ | .trainingAttemptEnd _ _ | .linkLoss _ | .auxReply _ _ _ _ | .auxReplyTimeout _
  | .dplIdleHoldEnd _ =>
    [.regs, .out, .dpls, .msiPending]
  | .auxGo _ =>
    [.regs, .shad, .out, .dpls, .worlds, .msiPending, .pair]
  | .ppsDataRead _ =>
    [.regs, .out, .worlds]
  | .scan _ =>
    [.regs, .out, .bufs, .cvus, .queues, .jobs, .coreEntries, .msiPending]
  | .scanStart _ _ =>
    [.regs, .cvus, .arbiter]
  | .scanDone _ _ =>
    [.regs, .mem, .out, .edac, .chans, .bufs, .plots, .cache, .cvus, .faults, .queues, .jobs, .msiPending, .pair]
  | .checkRegionFinal _ _ =>
    [.regs, .out, .display, .faults, .msiPending]
  | .dramRequest _ | .dramRequestComplete _ =>
    [.regs, .mem, .out, .dram, .edac, .cache, .faults, .msiPending]
  | .mr4Poll _ _ _ =>
    [.regs, .out, .dram, .faults, .msiPending]
  | .retrainStart _ _ | .dramPowerDown _ =>
    [.regs, .dram]
  | .dmcTrainStartWrite _ =>
    [.regs, .shad, .out, .dram, .worlds, .msiPending]
  | .retrainEnd _ _ _ _ | .deviceFatalFault _ | .watchdogExpiry | .referenceLoss =>
    [.regs, .shad, .mem, .out, .free, .dram, .edac, .chans, .bufs, .plots, .cache, .ingest, .display, .dpls, .cvus, .touch, .haptic,
     .audio, .update, .faults, .queues, .fns, .jobs, .coreEntries, .fetchStopped, .unmasked, .msiPending, .pair]
  | .dmcPortTargetAll _ =>
    [.regs, .out, .dram, .worlds, .msiPending]
  | .dmcStopWrite _ | .faultReport _ _ _ _ _ _ _ =>
    [.regs, .shad, .mem, .out, .free, .dram, .edac, .chans, .bufs, .plots, .cache, .ingest, .display, .dpls, .cvus, .touch, .haptic,
     .audio, .update, .faults, .worlds, .queues, .fns, .jobs, .coreEntries, .fetchStopped, .unmasked, .msiPending, .pair]
  | .edacLogRelease _ | .edacLogClearAll _ =>
    [.regs, .out, .edac, .worlds, .msiPending]
  | .edacRetirePlot _ | .edacRetireBank _ =>
    [.regs, .out, .edac, .plots, .worlds, .msiPending, .pair]
  | .retireBankDone =>
    [.regs, .out, .edac, .msiPending]
  | .tchEnable _ | .tchPanelEnable _ | .tchPanelDisable _ | .tchSoftReset _ | .captureRef _ =>
    [.regs, .shad, .mem, .out, .edac, .bufs, .cache, .touch, .faults, .worlds, .msiPending, .pair]
  | .touchFrameStart _ =>
    [.regs, .out, .touch, .msiPending]
  | .touchPanelScanEnd _ _ _ _ _ =>
    [.regs, .mem, .out, .edac, .bufs, .cache, .touch, .faults, .msiPending, .pair]
  | .touchSnapshot _ _ =>
    [.regs, .mem, .out, .edac, .bufs, .cache, .faults, .msiPending, .pair]
  | .tchNodeDataAccess _ _ =>
    [.regs, .out, .touch, .worlds, .msiPending, .pair]
  | .hapticPlay _ =>
    [.regs, .out, .bufs, .haptic, .queues, .jobs, .coreEntries, .msiPending]
  | .touchRule _ =>
    [.regs, .out, .bufs, .haptic, .queues, .jobs, .coreEntries, .msiPending, .pair]
  | .ruleMatch =>
    [.regs, .bufs, .touch, .haptic]
  | .clipLoadDone =>
    [.regs, .mem, .out, .free, .edac, .cache, .haptic, .faults, .queues, .jobs, .msiPending, .pair]
  | .controlPeriod _ _ _ _ | .calDone _ _ _ =>
    [.regs, .mem, .out, .chans, .bufs, .plots, .cache, .haptic, .faults, .queues, .jobs, .msiPending, .pair]
  | .tapSample _ _ =>
    [.haptic]
  | .hapChannelEnable _ | .calStart _ =>
    [.regs, .shad, .mem, .out, .chans, .bufs, .plots, .cache, .haptic, .worlds, .queues, .jobs, .msiPending, .pair]
  | .audioQueue _ =>
    [.regs, .out, .bufs, .audio, .queues, .jobs, .coreEntries, .msiPending]
  | .audioBlockBoundary _ _ _ =>
    [.regs, .mem, .out, .free, .edac, .chans, .bufs, .plots, .cache, .audio, .faults, .queues, .jobs, .msiPending, .pair]
  | .routeApply _ | .tdmPortEnable _ | .streamDisable _ =>
    [.regs, .shad, .out, .audio, .worlds, .msiPending, .pair]
  | .bridgePrimed _ =>
    [.regs, .audio]
  | .aud0SoftReset _ =>
    [.regs, .shad, .mem, .out, .free, .chans, .bufs, .plots, .cache, .audio, .faults, .worlds, .queues, .jobs, .msiPending, .pair]
  | .guyInEdge _ | .waitingTimeout | .resyncSendDone =>
    [.regs, .out, .msiPending, .pair]
  | .guyFilterExpiry | .collisionBackoffEnd =>
    [.regs, .shad, .mem, .out, .free, .dram, .edac, .chans, .bufs, .plots, .cache, .display, .touch, .haptic, .audio, .faults, .queues,
     .jobs, .msiPending, .pair]
  | .collision | .collisionTimeout =>
    [.regs, .mem, .out, .free, .edac, .chans, .bufs, .plots, .cache, .ingest, .display, .dpls, .cvus, .touch, .haptic, .audio, .faults,
     .queues, .jobs, .msiPending, .pair]
  | .ploliaLinkUp _ _ _ _ | .heartbeat _ _ _ =>
    [.regs, .mem, .out, .chans, .bufs, .plots, .cache, .faults, .queues, .jobs, .msiPending, .pair]
  | .replayTimeout | .heartbeatSend | .handoverDrained | .timeSyncDue =>
    [.regs, .out, .pair]
  | .nullFlit _ | .joinAccept _ | .joinRefuse _ _ | .syncDone _ | .handoverOffer _ _ | .timeSyncRequest _ _ | .timeSyncFrame _ _ _ _
  | .timeSyncVrr _ _ _ _ _ | .commitArmDrop _ _ | .commitAckApplied _ _ _ | .flitCrcFailure _ _ =>
    [.regs, .mem, .out, .chans, .bufs, .plots, .cache, .queues, .jobs, .msiPending, .pair]
  | .heartbeatTimeout =>
    [.regs, .shad, .mem, .out, .free, .dram, .edac, .chans, .bufs, .plots, .cache, .display, .touch, .haptic, .audio, .faults, .queues,
     .jobs, .fetchStopped, .msiPending, .pair]
  | .joinRequest _ _ =>
    [.regs, .mem, .out, .chans, .bufs, .plots, .cache, .display, .queues, .jobs, .msiPending, .pair]
  | .handoverRefusal _ _ =>
    [.regs, .mem, .out, .chans, .bufs, .plots, .cache, .queues, .jobs, .fetchStopped, .msiPending, .pair]
  | .plkHandover _ | .plkResync _ | .plkRetrain _ | .plkClearGuyFault _ =>
    [.regs, .out, .worlds, .fetchStopped, .msiPending, .pair]
  | .handoverDrainTimeout =>
    [.regs, .out, .fetchStopped, .msiPending, .pair]
  | .timeSyncReply _ _ _ _ =>
    [.regs, .mem, .out, .free, .time, .chans, .bufs, .plots, .cache, .queues, .jobs, .msiPending, .pair]
  | .commitArmRecord _ _ _ _ _ _ =>
    [.regs, .mem, .out, .power, .chans, .bufs, .plots, .cache, .display, .queues, .jobs, .msiPending, .pair]
  | .stateDigest _ _ =>
    [.regs, .mem, .out, .chans, .bufs, .plots, .cache, .faults, .queues, .jobs, .fetchStopped, .msiPending, .pair]
  | .pwrReqRun _ | .pwrReqIdle _ | .pwrReqFallow _ | .pwrReqOff _ =>
    [.regs, .out, .power, .display, .worlds, .fetchStopped, .msiPending]
  | .fallowDrainDone | .aonPowerOn | .sysRestart _ | .updCmdDone _ =>
    allBut [.free, .now]
  | .fallowDrainTimeout =>
    [.regs, .out, .power, .display, .dpls, .touch, .haptic, .audio, .fetchStopped, .msiPending]
  | .wakeStepTimeout _ _ _ =>
    [.regs, .out, .power, .queues, .jobs, .msiPending, .pair]
  | .sag =>
    [.regs, .shad, .mem, .out, .free, .time, .power, .dram, .edac, .chans, .bufs, .plots, .cache, .ingest, .display, .dpls, .cvus,
     .touch, .haptic, .audio, .age, .update, .faults, .worlds, .queues, .jobs, .fetchStopped, .msiPending, .pair]
  | .mramSaveDone _ | .vholdExhausted | .pmbDone _ _ _ =>
    [.regs, .out, .power, .msiPending]
  | .supplyReturn | .trialTimeout | .resetNAssert | .fatalRestart =>
    allBut [.out, .free, .now]
  | .pwrSaveAdd _ | .pwrSaveClear _ =>
    [.regs, .out, .power, .worlds, .msiPending]
  | .vholdMeasure _ _ _ _ | .resetRelease =>
    [.regs, .out, .faults, .msiPending]
  | .timCalInterval _ =>
    [.regs]
  | .timSet _ =>
    [.regs, .out, .time, .worlds, .msiPending]
  | .aonAlarmArm _ | .aonPmbGo _ =>
    [.regs, .shad, .out, .power, .worlds, .msiPending]
  | .ageSurveyRequest _ =>
    [.regs, .shad, .out, .age, .worlds, .msiPending]
  | .surveyEnd _ _ | .marginAlarm _ =>
    [.regs, .out, .age, .faults, .msiPending]
  | .planVoltageStep =>
    [.regs, .out, .age, .msiPending]
  | .poweredHour | .surveyDeferEnd =>
    [.regs, .age]
  | .updOpen _ | .updStage _ | .updVerify _ | .updActivate _ | .updAbort _ | .updClose _ =>
    [.regs, .out, .update, .worlds, .msiPending]
  | .updSessionTimeout =>
    [.regs, .out, .update, .msiPending]
  | .trialConfirmed =>
    [.regs, .out, .update, .faults, .msiPending]
  | .microcodeTargetLoad _ =>
    [.regs, .loaded, .mem, .out, .edac, .bufs, .cache, .touch, .audio, .update, .faults, .msiPending, .pair]
  | .sysEarlyEnd _ =>
    [.regs, .shad, .mem, .out, .chans, .bufs, .plots, .cache, .display, .faults, .worlds, .queues, .jobs, .msiPending, .pair]
  | .thermtrip =>
    [.faults]
  | .logClear _ =>
    [.regs, .shad, .out, .faults, .worlds, .msiPending]
  | .ploliaRecoveryDone =>
    [.out, .pair]
  | .mirrorFlitSend =>
    [.regs, .mem, .out, .edac, .cache, .faults, .msiPending, .pair]
  | .msixVectorUnmask _ _ =>
    [.out, .unmasked, .msiPending]

/-- The active word at a key, as bits. -/
def State.word (s : State) (k : Nat) : Word32 := BitVec.ofNat 32 (s.rw k)

/-- Every active register word but the listed ones is as it was. -/
def SameWordsBut (s t : State) (ks : List Nat) : Prop := ∀ k, k ∉ ks → t.rw k = s.rw k

/-- Every shadow word but the listed ones is as it was. -/
def SameShadowsBut (s t : State) (ks : List Nat) : Prop := ∀ k, k ∉ ks → t.sw k = s.sw k

/-- Every byte of DRAM is as it was. -/
def SameMemory (s t : State) : Prop := ∀ a, Memory.read t.mem a = Memory.read s.mem a

/-- Every byte of DRAM outside the check areas is as it was, but those of the named 128-bit words. -/
def SameDramBut (s t : State) (touched : Nat → Prop) : Prop :=
  ∀ a, s.inCheckArea a = false → ¬ touched (a / 16) → Memory.read t.mem a = Memory.read s.mem a

/-- A 128-bit word that holds the owner-table entry of a plot of the list. -/
def State.entryWord (s : State) (ps : List Nat) (w : Nat) : Prop := ∃ p ∈ ps, w = (s.ownTable + 4 * p) / 16

/-- The plots of a buffer. -/
def State.plotsOf (s : State) (i : Nat) : List Nat := ((s.buf i).map Buf.plots).getD []

/-- A 128-bit word of a buffer as its plots lay it out (R63). -/
def State.bufWord (s : State) (i : Nat) (w : Nat) : Prop := ∃ b, w = s.bufAddr i b / 16

/-- A 128-bit word of the owner table, or one that holds the entry of a plot of the buffer. -/
def State.tableWord (s : State) (i : Nat) (w : Nat) : Prop := (∃ p < s.poolPlots, w = (s.ownTable + 4 * p) / 16) ∨ s.entryWord (s.plotsOf i) w

/-- Every entry of a table but the listed ones is as it was. -/
def SameEntriesBut {α : Type} (a b : Store α) (ks : List Nat) : Prop := ∀ k, k ∉ ks → Sparse.find b k = Sparse.find a k

/-- A message to a vector of a function between two states (R59, R100): it is the one thing put out when the internal interrupt
controller or an enabled function with the vector unmasked receives it; for a service core inside the gate it waits for the scrub;
otherwise it waits in the pending bits, or names no receiver. -/
def MessageGoes (s t : State) (fn vec : Nat) : Prop :=
  if fn = 0x40 ∧ s.inGate (State.irqCore vec) = true then
    t.out = s.out ∧ t.hosts.heldIrqs = s.hosts.heldIrqs ++ [(State.irqCore vec, vec)] ∧ t.hosts.msiPending = s.hosts.msiPending
  else
    t.hosts.heldIrqs = s.hosts.heldIrqs
      ∧ (if fn = 0x40 ∨ fn = 0x41 ∨ (s.fnState fn = .enabled ∧ (fn, vec) ∈ s.hosts.unmasked) then t.out = s.out ++ [.message fn vec]
         else t.out = s.out ∧ (State.vectors fn = 0 ∨ (fn, vec) ∈ t.hosts.msiPending))

/-- Nothing is put out between two states, and no message begins to wait. -/
def NoMessage (s t : State) : Prop :=
  t.out = s.out ∧ t.hosts.msiPending = s.hosts.msiPending ∧ t.hosts.heldIrqs = s.hosts.heldIrqs

/-- A page has recorded a status code between two states (R45): the first code is kept with its detail, a further one sets OVERFLOW; the
ERR event is set in both cases. -/
def Records (s t : State) (pg : Page) (code info : Nat) : Prop :=
  t.word (pg.key 0x010) = s.word (pg.key 0x010) ||| 0x80000000#32
    ∧ (if s.fld pg F.ERR_CODE_CODE = 0 then t.fld pg F.ERR_CODE_CODE = code ∧ t.rw (pg.key 0x024) = info
       else t.fld pg F.ERR_CODE_CODE = s.fld pg F.ERR_CODE_CODE ∧ t.flag pg F.ERR_CODE_OVERFLOW = true ∧ t.rw (pg.key 0x024) = s.rw (pg.key 0x024))

/-- The words of a page that recording a status code writes. -/
def errWords (pg : Page) : List Nat := [pg.key 0x010, pg.key 0x020, pg.key 0x024]

/-- A register access has been refused to the normal world (R11, R51, R90): WLD counts it and raises DENIED, the first one is captured with
its attribute and address, and the page records 0x0201. -/
def Denied (s t : State) (a : RegAcc) : Prop :=
  t.fld .wld F.WLD_DENY_COUNT_COUNT = min (s.fld .wld F.WLD_DENY_COUNT_COUNT + 1) 0xFFFFFFFF
    ∧ bit 0 (t.rw (Page.wld.key 0x010)) = true
    ∧ (s.flag .wld F.WLD_DENY_ATTR_VALID = false →
        t.rw (Page.wld.key 0x04C) = a.req.fn + b2n a.req.secure * 2 ^ 8 + s.fnCrit a.req.fn * 2 ^ 9 + 2 ^ 11 + 4 * 2 ^ 12 + 2 ^ 16
          ∧ t.rw (Page.wld.key 0x050) = a.page.key a.off % 2 ^ 32)
    ∧ (a.page ≠ .wld → Records s t a.page 0x0201 a.info)

/-- The words that such a refusal may write: the page's error words, the capture of WLD, and the counters of PMC. -/
def denyWords (pg : Page) : List Nat :=
  errWords pg ++ [Page.wld.key 0x010, Page.wld.key 0x048, Page.wld.key 0x04C, Page.wld.key 0x050, Page.wld.key 0x054]
    ++ (List.range 8).flatMap fun i => [Page.pmc.key (0x084 + 0x10 * i), Page.pmc.key (0x088 + 0x10 * i)]

/-! ## When a register write is carried out -/

/-- A VF control page (R130). -/
def Page.isVfCtrl : Page → Bool
  | .vf _ => true
  | _ => false

/-- The access that a write makes to a page. -/
def accOf (w : RegWr) (pg : Page) : RegAcc :=
  ⟨pg, w.off % 0x1000, w.req, w.val.toNat, w.win == .vf && pg != .vf w.req.fn⟩

/-- A whole-word write reaches its word in page `pg` and passes every refusal that stands before the rules of the word itself: the window
names the page for this requester (R37, R38), the page answers (R412), no group has to wake first (R107), the device may take the write
in its pair role (R377), through a frame it is no header word that a VF may not write (R53), no soft reset of the page runs (R46), and
the island of the page is not gated (R406). -/
def State.arrives (s : State) (w : RegWr) (pg : Page) : Bool :=
  s.reaches w.req.fn && s.resolve w.req w.win w.off == some pg && s.domainAnswers pg && !s.hiddenBlock (accOf w pg)
    && (s.waitsAt w.req pg).isNone && w.be == 0xF#4 && w.off % 4 == 0
    && (match pg with
      | .vf fn => s.fnState fn != .resetting
      | _ => !(s.standby && mirroredWord pg (w.off % 0x1000)) && !((accOf w pg).viaVf && frameForbids (w.off % 0x1000))
          && !(s.softResetting.contains pg.base && decide (0x040 ≤ w.off % 0x1000))
          && (!s.pageGated pg || w.off % 0x1000 == 0x008))

/-- The access that a read makes to a page. -/
def rdOf (r : RegRd) (pg : Page) : RegAcc := ⟨pg, r.off % 0x1000, r.req, 0, r.win == .vf && pg != .vf r.req.fn⟩

/-- A read reaches its word in page `pg`: the window names the page for this requester (R37, R38), the page answers (R412), its island is
not gated (R406), no other owner holds the block (R54), and no group has to wake first (R107). -/
def State.readReaches (s : State) (r : RegRd) (pg : Page) : Bool :=
  s.reaches r.req.fn && s.resolve r.req r.win r.off == some pg && s.domainAnswers pg && !s.pageGated pg && !s.hiddenBlock (rdOf r pg)
    && (s.waitsAt r.req pg).isNone

/-- A word that a read only returns: none behind an address register that a read advances (R185, R244, R324, R445). -/
def readOnlyReturns (pg : Page) (o : Nat) : Bool :=
  match pg with
  | .pipe _ => o != F.PIPE_LUT_DATA_ENTRY.off && o != F.PIPE_SCL_DATA_TAP_EVEN.off
  | .slot _ _ => o != F.SLOT_LUT_DATA_ENTRY.off
  | .dpl _ => o != F.DPL_PPS_DATA_DATA.off
  | .tch _ => o != F.TCH_NODE_DATA_DATA.off
  | .age => o != F.AGE_LED_DATA_DATA.off
  | _ => true

/-! ## When a queue command is carried out -/

/-- A submission entry starts (R117, R150, R195), and passes the checks of every entry before its own (R500): full services, the manager role for
the commands that ask it, the token, and zeros in what the command does not use. -/
def State.accepts (s : State) (opcode : Nat) (c : CmdArgs) : Bool :=
  !s.entryWaits c && (s.ready || opcode == 0) && knownOpcode opcode && (!(opcode == 0x40 || opcode == 0x41) || c.fn == s.manager)
    && (!s.standby || opcode == 0 || opcode == 0x40 || opcode == 0x41) && c.rsvd == 0
    && (c.params.drop (usedParams opcode)).all (· == 0)

/-- The queue that carries the command can post at once: an internal queue, or one that is RUNNING or has not yet left ERROR, in which no entry
waits and the completion ring has room even for a DEFERRED completion (R116). -/
def State.posts (s : State) (fn q : Nat) : Bool :=
  ((s.queue fn q).state == .running || (s.queue fn q).state == .error) && (s.queue fn q).held.isEmpty
    && (isCore fn || (decide (s.unconsumed fn q + 1 < s.cqSize fn q)
      && (s.unconsumed fn q == 0 || decide (s.cqLoad fn q + 2 < s.cqSize fn q))))

/-- Between two states the command has posted its first completion with this status and these result words: its entry stands at a slot of its
completion ring (R119). -/
def Completed (s t : State) (c : CmdArgs) (status : Nat) (res : List Nat) : Prop :=
  ∃ tail phase head, s.cqWrite c.fn c.q tail phase ⟨c.cid, status, head, false, res⟩ ∈ t.out

/-- A command taken up earlier has posted a completion between two states: its first one, or its final one. -/
def Posts (s t : State) (j : Job) (fin : Bool) (status : Nat) (res : List Nat) : Prop :=
  ∃ tail phase, s.cqWrite j.fn j.q tail phase ⟨j.cid, status, j.sqHead, fin, res⟩ ∈ t.out

/-- The command of this number still waits for its first completion, in a queue that can post, and no buffer or channel that is being freed
owes its final completion to it. -/
def State.awaits (s : State) (jid : Nat) (j : Job) : Bool :=
  s.job jid == some j && j.stage == .fetched && s.posts j.fn j.q && (s.pool.bufs.used.all fun p => p.2.freeJob != some jid)
    && (s.pool.chans.used.all fun p => p.2.destroyJob != some jid)

/-! ## Check regions -/

/-- A field of check region j as the frame in progress has latched it (R160, R260). -/
def State.chkFld (s : State) (n j : Nat) (x : Fld) : Nat := (s.frameView n).fld (.chk n) x [j]

/-- The words of check region j over the frame composed so far (R258). -/
def State.chkWords (s : State) (n j : Nat) : List Nat :=
  rectWords (s.disp n).lines ((s.frameView n).flag (.pipe n) F.PIPE_CTRL_DEPTH8) (s.chkFld n j F.CHK_POS_X) (s.chkFld n j F.CHK_POS_Y)
    (s.chkFld n j F.CHK_SIZE_W) (s.chkFld n j F.CHK_SIZE_H)

/-- The last active pixel of the running frame of output n has been composed (R219). -/
def State.frameEnds (s : State) (n : Nat) : Bool :=
  (s.disp n).running && !(s.disp n).fresh && (s.disp n).line + 1 == (s.timing n).va && decide ((s.timing n).va ≤ (s.disp n).lines.length)

/-- Check region j is active, not yet decided, and its last line has been composed. -/
def State.chkDue (s : State) (n j : Nat) : Bool :=
  (s.disp n).running && (s.disp n).regions.contains j && !(s.disp n).regionsDone.contains j
    && decide (s.chkFld n j F.CHK_POS_Y + s.chkFld n j F.CHK_SIZE_H ≤ (s.disp n).lines.length)

/-- The region has loaded its value and sequence number and a result between two states, and counts as decided (R261). -/
def RegionLoads (s t : State) (n j val result : Nat) : Prop :=
  t.fld (.chk n) F.CHK_LAST_V [j] = val ∧ t.fld (.chk n) F.CHK_LAST_SEQ_SEQ [j] = s.fld (.scn n) F.SCN_SEQ_SEQ
    ∧ t.fld (.chk n) F.CHK_STAT_RESULT [j] = result ∧ (t.disp n).regionsDone = (s.disp n).regionsDone ++ [j]
    ∧ SameEntriesBut s.display.disps t.display.disps [n]

/-- Words of the block of check region j, by their offsets in region 0. -/
def chkBlock (n j : Nat) (os : List Nat) : List Nat := os.map fun o => (Page.chk n).key (o + 0xC0 * j)

/-! ## Commits -/

/-- The command of this number has completed DEFERRED, and its queue can post the final completion. -/
def State.owes (s : State) (jid : Nat) (j : Job) : Bool := s.job jid == some j && j.stage == .owed && s.posts j.fn j.q

/-- Group, page set and changed words of a COMMIT (R193, R195). -/
def commitGroup (c : CmdArgs) : Nat := bits 2 0 (c.params.getD 0 0)

def State.commitSet (s : State) (c : CmdArgs) : List Nat := s.pageSet (commitGroup c) c.fn

def State.commitWords (s : State) (c : CmdArgs) : List (Nat × Nat) := s.changedWords (s.groupOutputs (commitGroup c)) (s.commitSet c) c.fn

/-- Parameters of a COMMIT that pass the first row of R196: reserved bits 0, no target without TARGET_EN, a target only with a lead output. -/
def State.commitParams (s : State) (c : CmdArgs) : Bool :=
  bits 7 3 (c.params.getD 0 0) == 0 && bits 31 9 (c.params.getD 0 0) == 0
    && (if bit 8 (c.params.getD 0 0) then (s.leadOf (commitGroup c)).isSome else c.params.getD 1 0 == 0)

/-- No commit of a group without a lead output waits, and no slot release waits for a commit. -/
def State.commitsQuiet (s : State) : Bool :=
  (s.display.commits.all fun d => d.stage != .waiting || (s.leadOf d.group).isSome || d.target.isSome) && s.display.waitingRelease.isEmpty

/-! ## Scan-out -/

/-- The state after the disruptive fields of output n have been copied from their shadows (R216 step 1). -/
def State.copiedTiming (s : State) (n : Nat) : State :=
  (List.range 6).foldl (fun t i => let k := (Page.scn n).key (0x040 + 4 * i); t.setRw k (t.sw k)) s

/-- A granted write of PG_CTRL with nothing but ENABLE and SOFT_RESET, in an island that is not gated, which no held group refuses. -/
def State.ctrlGranted (s : State) (w : RegWr) (pg : Page) (f : Fld) (v : Nat) : Bool :=
  s.arrives w pg && !s.pageGated pg && w.off % 0x1000 == 0x008 && w.val.toNat == v && s.grants (accOf w pg) f && (s.pageHeld (accOf w pg)).isNone

/-- A granted write of a word with no refused field: every written field is granted. -/
def State.wordGranted (s : State) (w : RegWr) (pg : Page) (o : Nat) : Bool :=
  s.arrives w pg && w.off % 0x1000 == o && s.writesAny (accOf w pg)
    && !(s.writtenFields (accOf w pg)).any (s.refusedSec (accOf w pg)) && !(s.writtenFields (accOf w pg)).any (s.refusedLock (accOf w pg))

/-- Every register and shadow word of a page from 0x040 on has its reset value, or the value that start-up loaded (R46). -/
def WordsReset (s t : State) (pg : Page) : Prop :=
  ∀ o < 0x1000, 0x040 ≤ o → t.word (pg.key o) = (Sparse.find s.loaded (pg.key o)).getD (resetWord s.part (pg.key o))

/-! ## The pair link -/

/-- The next sequenced flit arrives on a trained link that is not recovering, without an acknowledgement of its own (R379, R381). -/
def State.receives (s : State) (h : FlitHdr) : Bool :=
  s.pair.trained && !s.pair.recovering && !h.ackValid && !h.nak && h.seq == s.pair.rxSeq

/-- The flit has been accepted: the next number is expected, and its acknowledgement is the last thing put out (R381). -/
def TookFlit (t : State) (h : FlitHdr) : Prop :=
  t.pair.rxSeq = (h.seq + 1) % 4096 ∧ t.pair.discarding = false ∧ t.out.getLast? = some (.ack h.seq false)

/-- A sequenced flit that falls due goes out at once: the link has trained and is not recovering, nothing waits, and the replay store has
room (R381). -/
def State.canSend (s : State) : Bool := s.pair.trained && !s.pair.recovering && s.pair.control.isEmpty && decide (s.pair.replay.length < 512)

/-- A flit of this number has been sent. -/
def Sends (t : State) (k : Nat) (f : Flit) : Prop := Output.flit k f ∈ t.out

end Sys2Proof.Machine
end

