-- ==== Sys2Proof/Certificates/Slice0/Obligations.lean ====
section
/-! DEFINITION. The statements for the provers: what each command does, what it leaves alone, and what every step keeps. -/

open Sys2Proof Sys2Proof.Machine

/-- R45, R56, R57: a write of ones to EVT_RAW clears those bits, a write to EVT_EN replaces it, a write to EVT_SET sets the same bits of EVT_RAW, but no
reserved one (R12), whatever EVT_EN holds, and a write of 1 to ERR_CODE.CLEAR clears CODE, OVERFLOW and ERR_INFO. After a write to EVT_RAW or EVT_EN
the page's message goes while an event is pending and EVT_ROUTE.EN is 1; after EVT_SET it goes when EVT_PEND leaves 0. No other word changes. By
R11, R51 and R90 a page of the secure world refuses each of these writes, and one to EVT_ROUTE, to the normal world. R54, R262: through CHKj_EVT_RAW
and CHKj_EVT_EN of region j the same holds for the region's own event bits, with the region's own route; a VF that holds the region reaches them
through its frame. Where a clause takes a reading of the model: log entry 66. -/
def Obligations.EventRegisters : Prop :=
  (∀ (s : State) (w : RegWr) (pg : Page), Inv s → s.arrives w pg = true → w.off % 0x1000 = 0x010 → s.secretPage (accOf w pg) = false →
    ∃ t, exec (.evtRawClear w) s = .next t ∧ t.word (pg.key 0x010) = s.word (pg.key 0x010) &&& ~~~w.val
      ∧ (t.evtPend pg ≠ 0 → s.flag pg F.EVT_ROUTE_EN = true → MessageGoes s t (s.routeFn pg) (s.fld pg F.EVT_ROUTE_VECTOR))
      ∧ (t.evtPend pg = 0 ∨ s.flag pg F.EVT_ROUTE_EN = false → NoMessage s t)
      ∧ OnlyChanges s t [.regs, .out, .msiPending] ∧ SameWordsBut s t [pg.key 0x010])
  ∧ (∀ (s : State) (w : RegWr) (pg : Page), Inv s → s.arrives w pg = true → w.off % 0x1000 = 0x014 → s.secretPage (accOf w pg) = false →
    ∃ t, exec (.evtEnWrite w) s = .next t ∧ t.word (pg.key 0x014) = w.val
      ∧ (t.evtPend pg ≠ 0 → s.flag pg F.EVT_ROUTE_EN = true → MessageGoes s t (s.routeFn pg) (s.fld pg F.EVT_ROUTE_VECTOR))
      ∧ (t.evtPend pg = 0 ∨ s.flag pg F.EVT_ROUTE_EN = false → NoMessage s t)
      ∧ OnlyChanges s t [.regs, .out, .msiPending] ∧ SameWordsBut s t [pg.key 0x014])
  ∧ (∀ (s : State) (w : RegWr) (pg : Page), Inv s → s.arrives w pg = true → w.off % 0x1000 = 0x01C → s.secretPage (accOf w pg) = false →
    ∃ t, exec (.evtSetWrite w) s = .next t ∧ t.word (pg.key 0x010) = s.word (pg.key 0x010) ||| (w.val &&& BitVec.ofNat 32 (evtMask pg))
      ∧ (s.evtPend pg = 0 → t.evtPend pg ≠ 0 → s.flag pg F.EVT_ROUTE_EN = true →
          MessageGoes s t (s.routeFn pg) (s.fld pg F.EVT_ROUTE_VECTOR))
      ∧ (s.evtPend pg ≠ 0 ∨ t.evtPend pg = 0 ∨ s.flag pg F.EVT_ROUTE_EN = false → NoMessage s t)
      ∧ OnlyChanges s t [.regs, .out, .msiPending] ∧ SameWordsBut s t [pg.key 0x010])
  ∧ (∀ (s : State) (w : RegWr) (pg : Page), Inv s → s.arrives w pg = true → w.off % 0x1000 = 0x020 → bit 31 w.val.toNat = true →
      s.secretPage (accOf w pg) = false →
    ∃ t, exec (.errCodeClear w) s = .next t ∧ t.rw (pg.key 0x020) = 0 ∧ t.rw (pg.key 0x024) = 0
      ∧ OnlyChanges s t [.regs] ∧ SameWordsBut s t [pg.key 0x020, pg.key 0x024])
  ∧ (∀ (s : State) (w : RegWr) (pg : Page) (i : Instr), Inv s → s.arrives w pg = true →
      (i, w.off % 0x1000) ∈ [(Instr.evtRawClear w, 0x010), (.evtEnWrite w, 0x014), (.evtSetWrite w, 0x01C), (.evtRouteWrite w, 0x030)] →
      s.secretPage (accOf w pg) = true → s.writesAny (accOf w pg) = true →
    ∃ t, exec i s = .next t ∧ Denied s t (accOf w pg)
      ∧ OnlyChanges s t [.regs, .out, .msiPending] ∧ SameWordsBut s t (denyWords pg))
  ∧ (∀ (s : State) (w : RegWr) (n j : Nat), Inv s → n < 8 → j < 16 → s.arrives w (.chk n) = true → w.off % 0x1000 = 0x100 + 0xC0 * j + 0x2C →
      s.secretPage (accOf w (.chk n)) = false →
    ∃ t, exec (.evtRawClear w) s = .next t
      ∧ t.word ((Page.chk n).key (0x12C + 0xC0 * j)) = s.word ((Page.chk n).key (0x12C + 0xC0 * j)) &&& ~~~(w.val &&& 3#32)
      ∧ (t.chkPend n j ≠ 0 → s.flag (.chk n) F.CHK_ROUTE_EN [j] = true →
          MessageGoes s t (s.chkRouteFn n j) (s.fld (.chk n) F.CHK_ROUTE_VECTOR [j]))
      ∧ (t.chkPend n j = 0 → NoMessage s t)
      ∧ OnlyChanges s t [.regs, .out, .msiPending] ∧ SameWordsBut s t [(Page.chk n).key (0x12C + 0xC0 * j)])
  ∧ (∀ (s : State) (w : RegWr) (n j : Nat), Inv s → n < 8 → j < 16 → s.arrives w (.chk n) = true → w.off % 0x1000 = 0x100 + 0xC0 * j + 0x30 →
      s.secretPage (accOf w (.chk n)) = false →
    ∃ t, exec (.evtEnWrite w) s = .next t ∧ t.fld (.chk n) F.CHK_EVT_EN_EN [j] = bits 1 0 w.val.toNat
      ∧ (t.chkPend n j ≠ 0 → s.flag (.chk n) F.CHK_ROUTE_EN [j] = true →
          MessageGoes s t (s.chkRouteFn n j) (s.fld (.chk n) F.CHK_ROUTE_VECTOR [j]))
      ∧ (t.chkPend n j = 0 → NoMessage s t)
      ∧ OnlyChanges s t [.regs, .out, .msiPending] ∧ SameWordsBut s t [(Page.chk n).key (0x130 + 0xC0 * j)])

/-- R44, R53, R57, R59: a write to EVT_ROUTE takes EN, FUNCTION and VECTOR when the vector lies within the receiving function's count; while the page is
delegated, through a frame, and on a VF control page, FUNCTION stays as it is. A vector beyond the count, or a function that names no receiver,
leaves the route and records 0x0603. -/
def Obligations.EventRoute : Prop :=
  (∀ (s : State) (w : RegWr) (pg : Page), Inv s → s.arrives w pg = true → w.off % 0x1000 = 0x030 → s.secretPage (accOf w pg) = false →
      s.flag pg F.OWNER_DELEGATE = false → pg.isVfCtrl = false → (accOf w pg).viaVf = false →
      bits 5 0 w.val.toNat < State.vectors (bits 23 16 w.val.toNat) →
    ∃ t, exec (.evtRouteWrite w) s = .next t ∧ t.flag pg F.EVT_ROUTE_EN = bit 31 w.val.toNat
      ∧ t.fld pg F.EVT_ROUTE_FUNCTION = bits 23 16 w.val.toNat ∧ t.fld pg F.EVT_ROUTE_VECTOR = bits 5 0 w.val.toNat
      ∧ (s.evtPend pg ≠ 0 → bit 31 w.val.toNat = true → MessageGoes s t (bits 23 16 w.val.toNat) (bits 5 0 w.val.toNat))
      ∧ (s.evtPend pg = 0 ∨ bit 31 w.val.toNat = false → NoMessage s t) ∧ (s.mirrors = false → t.pair = s.pair)
      ∧ OnlyChanges s t [.regs, .out, .msiPending, .pair] ∧ SameWordsBut s t [pg.key 0x030])
  ∧ (∀ (s : State) (w : RegWr) (pg : Page), Inv s → s.arrives w pg = true → w.off % 0x1000 = 0x030 → s.secretPage (accOf w pg) = false →
      (s.flag pg F.OWNER_DELEGATE = true ∨ pg.isVfCtrl = true ∨ (accOf w pg).viaVf = true) →
      bits 5 0 w.val.toNat < State.vectors (s.routeFn pg) →
    ∃ t, exec (.evtRouteWrite w) s = .next t ∧ t.flag pg F.EVT_ROUTE_EN = bit 31 w.val.toNat
      ∧ t.fld pg F.EVT_ROUTE_FUNCTION = s.fld pg F.EVT_ROUTE_FUNCTION ∧ t.fld pg F.EVT_ROUTE_VECTOR = bits 5 0 w.val.toNat
      ∧ (s.evtPend pg ≠ 0 → bit 31 w.val.toNat = true → MessageGoes s t (s.routeFn pg) (bits 5 0 w.val.toNat))
      ∧ (s.evtPend pg = 0 ∨ bit 31 w.val.toNat = false → NoMessage s t)
      ∧ OnlyChanges s t [.regs, .out, .msiPending, .pair] ∧ SameWordsBut s t [pg.key 0x030])
  ∧ (∀ (s : State) (w : RegWr) (pg : Page), Inv s → s.arrives w pg = true → w.off % 0x1000 = 0x030 → s.secretPage (accOf w pg) = false →
      State.vectors (if s.routeFixed (accOf w pg) F.EVT_ROUTE_FUNCTION then s.routeFn pg else bits 23 16 w.val.toNat) ≤ bits 5 0 w.val.toNat →
      s.writesAny (accOf w pg) = true →
    ∃ t, exec (.evtRouteWrite w) s = .next t ∧ Records s t pg 0x0603 (accOf w pg).info
      ∧ OnlyChanges s t [.regs, .out, .msiPending] ∧ SameWordsBut s t (errWords pg))

/-- R47, R11: a write that sets LOCK locks the page's RWL fields until the secure world writes UNLOCK; while LOCK is 1 a write of another value to the
RWL field PG_CTRL.ENABLE changes no field and records 0x0004. Where a clause takes a reading of the model: log entry 67. -/
def Obligations.PageLock : Prop :=
  (∀ (s : State) (w : RegWr) (pg : Page), Inv s → s.arrives w pg = true → w.off % 0x1000 = 0x008 →
      w.val.toNat = 4 + s.fld pg F.PG_CTRL_ENABLE → s.grants (accOf w pg) F.PG_CTRL_LOCK = true →
    ∃ t, exec (.pgLock w) s = .next t ∧ t.fld pg F.PG_CTRL_LOCK = 1 ∧ t.fld pg F.PG_CTRL_ENABLE = s.fld pg F.PG_CTRL_ENABLE
      ∧ (s.mirrors = false → t.pair = s.pair) ∧ OnlyChanges s t [.regs, .pair] ∧ SameWordsBut s t [pg.key 0x008])
  ∧ (∀ (s : State) (w : RegWr) (pg : Page), Inv s → s.arrives w pg = true → w.off % 0x1000 = 0x008 →
      w.val.toNat = 8 + s.fld pg F.PG_CTRL_ENABLE → w.req.secure = true →
    ∃ t, exec (.pgUnlock w) s = .next t ∧ t.fld pg F.PG_CTRL_LOCK = 0 ∧ t.fld pg F.PG_CTRL_ENABLE = s.fld pg F.PG_CTRL_ENABLE
      ∧ (s.mirrors = false → t.pair = s.pair) ∧ OnlyChanges s t [.regs, .pair] ∧ SameWordsBut s t [pg.key 0x008])
  ∧ (∀ (s : State) (w : RegWr) (pg : Page), Inv s → s.arrives w pg = true → w.off % 0x1000 = 0x008 → pg.isVfCtrl = false →
      s.flag pg F.PG_CTRL_LOCK = true → s.secretPage (accOf w pg) = false → w.val.toNat = 1 - s.fld pg F.PG_CTRL_ENABLE →
    ∃ t, exec (.pgEnableWrite w) s = .next t ∧ Records s t pg 0x0004 (accOf w pg).info
      ∧ OnlyChanges s t [.regs, .out, .msiPending] ∧ SameWordsBut s t (errWords pg))

/-- R44, R106, R472: on the pages whose chapters give a write of ENABLE no further work, PG_CTRL.ENABLE and PG_STAT.ENABLED take the value (ENABLED
stays 0 while a contained fault has stopped the block); a pipe, layer-slot or check-region page alike, where a joined partner is told, and of a
gated island first ungates it. A normal-world write of 0 to a block of a secure-held group changes nothing and records 0x0202 with the group. Where
a clause takes a reading of the model: log entry 20. -/
def Obligations.PageEnable : Prop :=
  (∀ (s : State) (w : RegWr) (pg : Page), Inv s → s.arrives w pg = true → w.off % 0x1000 = 0x008 →
      pg ∈ [.sys, .tim, .log, .pwr, .aon, .upd, .wld, .own, .pmc] → w.val.toNat = 1 - s.fld pg F.PG_CTRL_ENABLE →
      s.grants (accOf w pg) F.PG_CTRL_ENABLE = true → s.pageHeld (accOf w pg) = none → s.pageGated pg = false →
    ∃ t, exec (.pgEnableWrite w) s = .next t ∧ t.fld pg F.PG_CTRL_ENABLE = bits 0 0 w.val.toNat
      ∧ t.fld pg F.PG_STAT_ENABLED = (if s.faults.stopped.contains pg.base then 0 else bits 0 0 w.val.toNat) ∧ t.fld pg F.PG_CTRL_LOCK = s.fld pg F.PG_CTRL_LOCK
      ∧ OnlyChanges s t [.regs] ∧ SameWordsBut s t [pg.key 0x008, pg.key 0x00C])
  ∧ (∀ (s : State) (w : RegWr) (n k : Nat) (pg : Page), Inv s → n < 8 → k < 16 → pg ∈ [.pipe n, .slot n k, .chk n] → s.arrives w pg = true →
      w.off % 0x1000 = 0x008 → w.val.toNat = 1 - s.fld pg F.PG_CTRL_ENABLE → s.grants (accOf w pg) F.PG_CTRL_ENABLE = true →
      s.pageHeld (accOf w pg) = none → s.pageGated pg = false →
    ∃ t, exec (.pgEnableWrite w) s = .next t ∧ t.fld pg F.PG_CTRL_ENABLE = bits 0 0 w.val.toNat
      ∧ t.fld pg F.PG_STAT_ENABLED = (if s.faults.stopped.contains pg.base then 0 else bits 0 0 w.val.toNat) ∧ (s.mirrors = false → t.pair = s.pair)
      ∧ OnlyChanges s t [.regs, .pair] ∧ SameWordsBut s t [pg.key 0x008, pg.key 0x00C])
  ∧ (∀ (s : State) (w : RegWr) (n k i : Nat) (pg : Page), Inv s → n < 8 → k < 16 → pg ∈ [.pipe n, .slot n k, .chk n] → s.arrives w pg = true →
      w.off % 0x1000 = 0x008 → w.val.toNat = 1 → s.grants (accOf w pg) F.PG_CTRL_ENABLE = true → State.pageIsland pg = some i → s.pageGated pg = true →
    ∃ t, exec (.pgEnableWrite w) s = .next t ∧ t.pageGated pg = false ∧ t.fld pg F.PG_CTRL_ENABLE = 1
      ∧ t.fld pg F.PG_STAT_ENABLED = (if s.faults.stopped.contains pg.base then 0 else 1)
      ∧ OnlyChanges s t [.regs, .pair] ∧ SameWordsBut s t [pg.key 0x008, pg.key 0x00C, State.islKey i])
  ∧ (∀ (s : State) (w : RegWr) (pg : Page) (g : Nat), Inv s → s.arrives w pg = true → w.off % 0x1000 = 0x008 → pg.isVfCtrl = false →
      w.val.toNat = 0 → s.fld pg F.PG_CTRL_ENABLE = 1 → s.grants (accOf w pg) F.PG_CTRL_ENABLE = true → s.pageHeld (accOf w pg) = some g →
    ∃ t, exec (.pgEnableWrite w) s = .next t ∧ Records s t pg 0x0202 (s.holdInfo g w.req.fn)
      ∧ OnlyChanges s t [.regs, .out, .msiPending] ∧ SameWordsBut s t (errWords pg))

/-- R46: a soft reset returns every register and shadow of the page to its reset value, or to what start-up loaded into it, and keeps PG_CTRL.LOCK,
SHADOW_CTRL.GROUP, OWNER, EVT_EN and EVT_ROUTE. Here for a layer-slot page of a stopped output and for TIM. An armed page is not reset and records
0x0303. Where a clause takes a reading of the model: log entry 19. -/
def Obligations.PageSoftReset : Prop :=
  (∀ (s : State) (w : RegWr) (pg : Page) (n k : Nat), Inv s → n < 8 → k < 16 → pg = .tim ∨ pg = .slot n k ∧ (s.disp n).running = false →
      s.arrives w pg = true → w.off % 0x1000 = 0x008 → w.val.toNat = 2 + s.fld pg F.PG_CTRL_ENABLE →
      s.grants (accOf w pg) F.PG_CTRL_SOFT_RESET = true → s.pageHeld (accOf w pg) = none → s.pageArmed pg.base = false → s.pageGated pg = false →
    ∃ t, exec (.pgSoftReset w) s = .next t
      ∧ (∀ o < 0x1000, 0x040 ≤ o → t.word (pg.key o) = (Sparse.find s.loaded (pg.key o)).getD (resetWord s.part (pg.key o))
          ∧ t.sw (pg.key o) = ((Sparse.find s.loaded (pg.key o)).getD (resetWord s.part (pg.key o))).toNat)
      ∧ (∀ o ∈ [0x010, 0x020, 0x024], Sparse.find s.loaded (pg.key o) = none → t.rw (pg.key o) = 0)
      ∧ t.fld pg F.PG_CTRL_LOCK = s.fld pg F.PG_CTRL_LOCK ∧ t.rw (pg.key 0x028) = s.rw (pg.key 0x028) ∧ t.rw (pg.key 0x02C) = s.rw (pg.key 0x02C)
      ∧ t.rw (pg.key 0x014) = s.rw (pg.key 0x014) ∧ t.rw (pg.key 0x030) = s.rw (pg.key 0x030))
  ∧ (∀ (s : State) (w : RegWr) (n k : Nat), Inv s → n < 8 → k < 16 → s.arrives w (.slot n k) = true → w.off % 0x1000 = 0x008 →
      w.val.toNat = 2 + s.fld (.slot n k) F.PG_CTRL_ENABLE → s.grants (accOf w (.slot n k)) F.PG_CTRL_SOFT_RESET = true →
      s.pageHeld (accOf w (.slot n k)) = none → s.pageArmed (Page.slot n k).base = true →
    ∃ t, exec (.pgSoftReset w) s = .next t ∧ Records s t (.slot n k) 0x0303 (accOf w (.slot n k)).info
      ∧ OnlyChanges s t [.regs, .out, .msiPending] ∧ SameWordsBut s t (errWords (.slot n k)))

/-- R10, R497: a write that reaches a layer-slot page with none of its written fields refused gives each written RW field its value and each written RWS
field's shadow its value (a field that the write does not change keeps the same value); no other word, and no active value of an RWS field, changes. -/
def Obligations.PlainRegisterWrite : Prop :=
  ∀ (s : State) (w : RegWr) (n k o : Nat), Inv s → n < 8 → k < 16 → s.arrives w (.slot n k) = true → w.off % 0x1000 = o →
      0x040 ≤ o → o ≠ F.SLOT_LUT_DATA_ENTRY.off → s.secretPage (accOf w (.slot n k)) = false →
      (s.writtenFields (accOf w (.slot n k))).any (s.refusedSec (accOf w (.slot n k))) = false →
      (s.writtenFields (accOf w (.slot n k))).any (s.refusedLock (accOf w (.slot n k))) = false →
    ∃ t, exec (.registerWrite w) s = .next t
      ∧ (∀ f ∈ (Page.slot n k).fieldsAt o, f.acc = .rw → f.sec = false → bits f.hi f.lo (t.rw ((Page.slot n k).key o)) = bits f.hi f.lo w.val.toNat)
      ∧ (∀ f ∈ (Page.slot n k).fieldsAt o, f.acc = .rws → f.sec = false → bits f.hi f.lo (t.sw ((Page.slot n k).key o)) = bits f.hi f.lo w.val.toNat
          ∧ bits f.hi f.lo (t.rw ((Page.slot n k).key o)) = bits f.hi f.lo (s.rw ((Page.slot n k).key o)))
      ∧ (∀ f ∈ (Page.slot n k).fieldsAt o, f.acc = .ro → bits f.hi f.lo (t.rw ((Page.slot n k).key o)) = bits f.hi f.lo (s.rw ((Page.slot n k).key o)))
      ∧ (s.mirrors = false → t.pair = s.pair) ∧ OnlyChanges s t [.regs, .shad, .pair]
      ∧ SameWordsBut s t [(Page.slot n k).key o] ∧ SameShadowsBut s t [(Page.slot n k).key o]

/-- R39, R49, R50, R158: a write of several words is carried out as writes of one word in ascending address order. In a page with wide registers (no
page of this device has any) a lower word of a 16-byte block is staged for its requester alone; the highest word loads the lower ones of its
requester with it and empties the staging copy; the read of the lowest word returns it and latches the other three for the reading function, whose
reads of those return what is latched. The read of a _LO counter returns it and latches _HI for the reading function. The read of any other word
returns it. Where a clause takes a reading of the model: log entries 7 and 18. -/
def Obligations.WideAndCounterAccess : Prop :=
  (∀ (s : State) (w : RegWr), ∃ t, exec (.wideRegisterWrite w []) s = .next t ∧ exec (.registerWrite w) s = .next t)
  ∧ (∀ (s : State) (w : RegWr) (l : Word32) (ls : List Word32),
    ∃ t u, exec (.wideRegisterWrite w (l :: ls)) s = .next u
      ∧ exec (.registerWrite { w with off := w.off - 4 * (ls.length + 1), be := 0xF#4, val := l }) s = .next t
      ∧ exec (.wideRegisterWrite w ls) t = .next u)
  ∧ (∀ (s : State) (w : RegWr) (pg : Page), Inv s → s.arrives w pg = true → s.isWide (accOf w pg) = true → w.off % 0x1000 % 16 ≠ 12 →
    ∃ t, exec (.wideRegisterWrite w []) s = .next t
      ∧ t.staged.find? (fun l => l.fn == w.req.fn && l.key == pg.key (w.off % 0x1000)) = some ⟨w.req.fn, pg.key (w.off % 0x1000), w.val⟩
      ∧ (∀ fn key, fn ≠ w.req.fn ∨ key ≠ pg.key (w.off % 0x1000) →
          t.staged.find? (fun l => l.fn == fn && l.key == key) = s.staged.find? (fun l => l.fn == fn && l.key == key))
      ∧ OnlyChanges s t [.staged])
  ∧ (∀ (s : State) (w : RegWr) (n k o : Nat), Inv s → n < 8 → k < 16 → s.arrives w (.slot n k) = true → w.off % 0x1000 = o →
      s.isWide (accOf w (.slot n k)) = true → o % 16 = 12 → s.secretPage (accOf w (.slot n k)) = false →
      (s.writtenFields (accOf w (.slot n k))).any (s.refusedSec (accOf w (.slot n k))) = false →
      (s.writtenFields (accOf w (.slot n k))).any (s.refusedLock (accOf w (.slot n k))) = false →
      (∀ l ∈ s.staged, l.fn = w.req.fn → l.key < (Page.slot n k).key (o - 12) ∨ (Page.slot n k).key o ≤ l.key) →
    ∃ t, exec (.wideRegisterWrite w []) s = .next t
      ∧ (∀ f ∈ (Page.slot n k).fieldsAt o, f.acc = .rws → f.sec = false → bits f.hi f.lo (t.sw ((Page.slot n k).key o)) = bits f.hi f.lo w.val.toNat)
      ∧ t.staged = s.staged ∧ OnlyChanges s t [.regs, .shad, .staged] ∧ SameWordsBut s t [(Page.slot n k).key o]
      ∧ SameShadowsBut s t [(Page.slot n k).key o])
  ∧ (∀ (s : State) (r : RegRd) (pg : Page), s.readReaches r pg = true → s.isWide (rdOf r pg) = true → r.off % 0x1000 % 16 = 0 →
      readOnlyReturns pg (r.off % 0x1000) = true →
    ∃ t, exec (.wideRegisterLowRead r) s = .next t
      ∧ t.out = s.out ++ [.readData r.req.fn (BitVec.ofNat 32 (s.readWordFor (rdOf r pg)))]
      ∧ (∀ d ∈ [4, 8, 12], t.latched.find? (fun l => l.fn == r.req.fn && l.key == pg.key (r.off % 0x1000 + d))
          = some ⟨r.req.fn, pg.key (r.off % 0x1000 + d), BitVec.ofNat 32 (s.readWordFor { rdOf r pg with off := r.off % 0x1000 + d })⟩)
      ∧ (∀ fn key, fn ≠ r.req.fn → t.latched.find? (fun l => l.fn == fn && l.key == key) = s.latched.find? (fun l => l.fn == fn && l.key == key))
      ∧ OnlyChanges s t [.latched, .out])
  ∧ (∀ (s : State) (r : RegRd) (pg : Page) (v : Word32), s.readReaches r pg = true → s.isWide (rdOf r pg) = true → r.off % 0x1000 % 16 ≠ 0 →
      readOnlyReturns pg (r.off % 0x1000) = true → State.isCounterLo pg (r.off % 0x1000) = false →
      s.latched.find? (fun l => l.fn == r.req.fn && l.key == pg.key (r.off % 0x1000)) = some ⟨r.req.fn, pg.key (r.off % 0x1000), v⟩ →
    exec (.wideRegisterLowRead r) s = .next (s.emit (.readData r.req.fn v)))
  ∧ (∀ (s : State) (r : RegRd) (pg : Page), s.readReaches r pg = true → s.isWide (rdOf r pg) = false →
      State.isCounterLo pg (r.off % 0x1000) = true →
    ∃ t, exec (.counterLoRead r) s = .next t
      ∧ t.out = s.out ++ [.readData r.req.fn (BitVec.ofNat 32 (s.readWordFor (rdOf r pg)))]
      ∧ t.latched.find? (fun l => l.fn == r.req.fn && l.key == pg.key (r.off % 0x1000 + 4))
          = some ⟨r.req.fn, pg.key (r.off % 0x1000 + 4), BitVec.ofNat 32 (s.readWordFor { rdOf r pg with off := r.off % 0x1000 + 4 })⟩
      ∧ (∀ fn key, fn ≠ r.req.fn ∨ key ≠ pg.key (r.off % 0x1000 + 4) →
          t.latched.find? (fun l => l.fn == fn && l.key == key) = s.latched.find? (fun l => l.fn == fn && l.key == key))
      ∧ OnlyChanges s t [.latched, .out])
  ∧ (∀ (s : State) (r : RegRd) (pg : Page) (v : Word32), s.readReaches r pg = true → 4 ≤ r.off % 0x1000 →
      State.isCounterLo pg (r.off % 0x1000 - 4) = true → State.isCounterLo pg (r.off % 0x1000) = false → s.isWide (rdOf r pg) = false →
      s.latched.find? (fun l => l.fn == r.req.fn && l.key == pg.key (r.off % 0x1000)) = some ⟨r.req.fn, pg.key (r.off % 0x1000), v⟩ →
    exec (.counterLoRead r) s = .next (s.emit (.readData r.req.fn v)))
  ∧ (∀ (s : State) (r : RegRd) (pg : Page), s.readReaches r pg = true → s.isWide (rdOf r pg) = false → readOnlyReturns pg (r.off % 0x1000) = true →
      State.isCounterLo pg (r.off % 0x1000) = false → (4 ≤ r.off % 0x1000 → State.isCounterLo pg (r.off % 0x1000 - 4) = false) →
    exec (.wideRegisterLowRead r) s = .next (s.emit (.readData r.req.fn (BitVec.ofNat 32 (s.readWordFor (rdOf r pg))))))

/-- R48, R189: a write of a new GROUP to a pipe page, with no page of the output armed, moves every page of the output to the group; DISCARD on a page
that is not armed copies the active value of every shadowed field of the page into its shadow. -/
def Obligations.ShadowControl : Prop :=
  (∀ (s : State) (w : RegWr) (n : Nat), Inv s → n < 8 → s.arrives w (.pipe n) = true → w.off % 0x1000 = 0x028 → w.val.toNat < 8 →
      s.grants (accOf w (.pipe n)) F.SHADOW_CTRL_GROUP = true → (State.outputPages n).any (fun pg => s.pageArmed pg.base) = false →
      s.display.commits = [] →
    ∃ t, exec (.shadowGroupWrite w) s = .next t ∧ (∀ pg ∈ State.outputPages n, t.fld pg F.SHADOW_CTRL_GROUP = w.val.toNat)
      ∧ (s.mirrors = false → t.pair = s.pair) ∧ OnlyChanges s t [.regs, .pair]
      ∧ SameWordsBut s t ((State.outputPages n).map fun pg => pg.key 0x028))
  ∧ (∀ (s : State) (w : RegWr) (n : Nat), Inv s → n < 8 → s.arrives w (.pipe n) = true → w.off % 0x1000 = 0x028 → w.val.toNat < 8 →
      s.grants (accOf w (.pipe n)) F.SHADOW_CTRL_GROUP = true → (State.outputPages n).any (fun pg => s.pageArmed pg.base) = true →
    ∃ t, exec (.shadowGroupWrite w) s = .next t ∧ Records s t (.pipe n) 0x0303 (accOf w (.pipe n)).info
      ∧ OnlyChanges s t [.regs, .out, .msiPending] ∧ SameWordsBut s t (errWords (.pipe n)))
  ∧ (∀ (s : State) (w : RegWr) (n k : Nat), Inv s → n < 8 → k < 16 → s.arrives w (.slot n k) = true → w.off % 0x1000 = 0x028 →
      w.val.toNat = 2 ^ 16 + s.fld (.slot n k) F.SHADOW_CTRL_GROUP → s.grants (accOf w (.slot n k)) F.SHADOW_CTRL_DISCARD = true →
      s.pageArmed (Page.slot n k).base = false →
    ∃ t, exec (.shadowDiscard w) s = .next t
      ∧ (∀ o < 0x1000, 0x040 ≤ o → ∀ f ∈ (Page.slot n k).fieldsAt o, f.acc = .rws →
          bits f.hi f.lo (t.sw ((Page.slot n k).key o)) = bits f.hi f.lo (s.rw ((Page.slot n k).key o)))
      ∧ (∀ i < 1024, bits 15 0 (t.sw (bankKey ((Page.slot n k).key F.SLOT_LUT_DATA_ENTRY.off) i))
          = bits 15 0 (s.rw (bankKey ((Page.slot n k).key F.SLOT_LUT_DATA_ENTRY.off) i)))
      ∧ OnlyChanges s t [.shad]
      ∧ (∀ key, State.memberOf key / 0x1000 * 0x1000 ≠ (Page.slot n k).base → t.sw key = s.sw key))

/-- R52, R55: a secure write of OWNER that no condition of R52 refuses sets its fields as one value, with no effect on the page's other words. When the
page leaves its frame, because DELEGATE goes to 0 or FUNCTION changes, events pending for the old function of a delegated page are signalled to it
first, and what it staged and latched in the page is discarded; a layer slot whose FUNCTION changes is released (R207). Each condition of R52
refuses the whole write and records its code. R54: CHKj_OWNER alike. R11, R90: a normal-world write that changes either is refused. -/
def Obligations.Ownership : Prop :=
  (∀ (s : State) (w : RegWr) (pg : Page), Inv s → s.arrives w pg = true → w.off % 0x1000 = 0x02C → w.req.secure = true → pg.isVfCtrl = false →
      s.writesAny (accOf w pg) = true → s.ownerRefusal pg (State.ownerBits w.val.toNat) = none →
      (∀ n k, pg = .slot n k → bits 23 16 w.val.toNat = s.fld pg F.OWNER_FUNCTION ∨ s.standby = true) →
    ∃ t, exec (.ownerWrite w) s = .next t ∧ t.rw (pg.key 0x02C) = State.ownerBits w.val.toNat
      ∧ t.flag pg F.OWNER_WORLD = bit 31 w.val.toNat ∧ t.fld pg F.OWNER_FUNCTION = bits 23 16 w.val.toNat
      ∧ t.fld pg F.OWNER_CRIT = bits 13 12 w.val.toNat ∧ t.flag pg F.OWNER_DELEGATE = bit 8 w.val.toNat
      ∧ t.fld pg F.OWNER_FRAME = bits 3 0 w.val.toNat
      ∧ (State.leavesFrame (s.rw (pg.key 0x02C)) w.val.toNat = true →
          ∀ l ∈ t.staged, l.fn ≠ s.fld pg F.OWNER_FUNCTION ∨ l.key < pg.base ∨ pg.base + 0x1000 ≤ l.key)
      ∧ (State.leavesFrame (s.rw (pg.key 0x02C)) w.val.toNat = false → t.staged = s.staged ∧ t.latched = s.latched ∧ NoMessage s t)
      ∧ (State.leavesFrame (s.rw (pg.key 0x02C)) w.val.toNat = true → s.flag pg F.OWNER_DELEGATE = true → s.evtPend pg ≠ 0 →
          s.flag pg F.EVT_ROUTE_EN = true → MessageGoes s t (s.fld pg F.OWNER_FUNCTION) (s.fld pg F.EVT_ROUTE_VECTOR))
      ∧ (s.mirrors = false → t.pair = s.pair) ∧ OnlyChanges s t [.regs, .staged, .latched, .out, .msiPending, .pair]
      ∧ SameWordsBut s t [pg.key 0x02C])
  ∧ (∀ (s : State) (w : RegWr) (pg : Page) (code : Nat), Inv s → s.arrives w pg = true → w.off % 0x1000 = 0x02C → w.req.secure = true →
      pg.isVfCtrl = false → s.writesAny (accOf w pg) = true → s.ownerRefusal pg (State.ownerBits w.val.toNat) = some code →
    ∃ t, exec (.ownerWrite w) s = .next t ∧ Records s t pg code (accOf w pg).info
      ∧ OnlyChanges s t [.regs, .out, .msiPending] ∧ SameWordsBut s t (errWords pg))
  ∧ (∀ (s : State) (w : RegWr) (n k : Nat), Inv s → n < 8 → k < 16 → s.arrives w (.slot n k) = true → w.off % 0x1000 = 0x02C →
      w.req.secure = true → s.ownerRefusal (.slot n k) (State.ownerBits w.val.toNat) = none →
      bits 23 16 w.val.toNat ≠ s.fld (.slot n k) F.OWNER_FUNCTION → s.standby = false → s.display.commits = [] →
      n * 16 + k ∉ s.display.waitingRelease → (s.leadOf (s.groupOf n)).isSome = true →
    ∃ t c, exec (.ownerWrite w) s = .next t ∧ t.rw ((Page.slot n k).key 0x02C) = State.ownerBits w.val.toNat
      ∧ t.sw ((Page.slot n k).key F.SLOT_BUF_BUFFER.off) = s.rw ((Page.slot n k).key F.SLOT_BUF_BUFFER.off)
      ∧ t.display.commits = [c] ∧ c.release = some (n * 16 + k) ∧ c.entries = [((Page.slot n k).key F.SLOT_BUF_BUFFER.off, 0)]
      ∧ c.group = s.groupOf n ∧ c.stage = (if s.mirrors then CommitStage.sent else CommitStage.waiting)
      ∧ OnlyChanges s t [.regs, .shad, .staged, .latched, .out, .display, .msiPending, .pair]
      ∧ SameWordsBut s t [(Page.slot n k).key 0x02C])
  ∧ (∀ (s : State) (w : RegWr) (n j : Nat), Inv s → n < 8 → j < 16 → s.arrives w (.chk n) = true →
      w.off % 0x1000 = F.CHK_OWNER_WORLD.at [j] → w.req.secure = true → s.writesAny (accOf w (.chk n)) = true →
      (bit 8 w.val.toNat = true → isVf (bits 23 16 w.val.toNat) = true ∧ bits 3 0 w.val.toNat ≠ 0 ∧ bit 31 w.val.toNat = false
        ∧ s.frameTaken (bits 23 16 w.val.toNat) (bits 3 0 w.val.toNat) none (some n) = false) →
      s.pageArmed (Page.chk n).base = false →
    ∃ t, exec (.chkOwnerWrite w) s = .next t ∧ t.rw ((Page.chk n).key (F.CHK_OWNER_WORLD.at [j])) = State.ownerBits w.val.toNat
      ∧ (bit 8 w.val.toNat = true → t.chkHeld n j (bits 23 16 w.val.toNat) (bits 3 0 w.val.toNat) = true)
      ∧ (State.leavesFrame (s.rw ((Page.chk n).key (F.CHK_OWNER_WORLD.at [j]))) w.val.toNat = true →
          ∀ l ∈ t.staged, l.fn ≠ s.fld (.chk n) F.CHK_OWNER_FUNCTION [j] ∨ l.key < (Page.chk n).key (0x100 + 0xC0 * j)
            ∨ (Page.chk n).key (0x100 + 0xC0 * j) + 0xC0 ≤ l.key)
      ∧ (State.leavesFrame (s.rw ((Page.chk n).key (F.CHK_OWNER_WORLD.at [j]))) w.val.toNat = false → t.staged = s.staged ∧ NoMessage s t)
      ∧ (State.leavesFrame (s.rw ((Page.chk n).key (F.CHK_OWNER_WORLD.at [j]))) w.val.toNat = true →
          s.flag (.chk n) F.CHK_OWNER_DELEGATE [j] = true → s.chkPend n j ≠ 0 → s.flag (.chk n) F.CHK_ROUTE_EN [j] = true →
          MessageGoes s t (s.fld (.chk n) F.CHK_OWNER_FUNCTION [j]) (s.fld (.chk n) F.CHK_ROUTE_VECTOR [j]))
      ∧ (s.mirrors = false → t.pair = s.pair) ∧ OnlyChanges s t [.regs, .staged, .latched, .out, .display, .msiPending, .pair]
      ∧ SameWordsBut s t [(Page.chk n).key (F.CHK_OWNER_WORLD.at [j])])
  ∧ (∀ (s : State) (w : RegWr) (n j code : Nat), Inv s → n < 8 → j < 16 → s.arrives w (.chk n) = true →
      w.off % 0x1000 = F.CHK_OWNER_WORLD.at [j] → w.req.secure = true → s.writesAny (accOf w (.chk n)) = true →
      (if bit 8 w.val.toNat = true ∧ (isVf (bits 23 16 w.val.toNat) = false ∨ bits 3 0 w.val.toNat = 0 ∨ bit 31 w.val.toNat = true) then code = 0x0006
       else if bit 8 w.val.toNat = true ∧ s.frameTaken (bits 23 16 w.val.toNat) (bits 3 0 w.val.toNat) none (some n) = true then code = 0x0203
       else s.pageArmed (Page.chk n).base = true ∧ code = 0x0303) →
    ∃ t, exec (.chkOwnerWrite w) s = .next t ∧ Records s t (.chk n) code (accOf w (.chk n)).info
      ∧ OnlyChanges s t [.regs, .out, .msiPending] ∧ SameWordsBut s t (errWords (.chk n)))
  ∧ (∀ (s : State) (w : RegWr) (pg : Page), Inv s → s.arrives w pg = true → w.off % 0x1000 = 0x02C → w.req.secure = false →
      s.writesAny (accOf w pg) = true →
    ∃ t, exec (.ownerWrite w) s = .next t ∧ Denied s t (accOf w pg)
      ∧ OnlyChanges s t [.regs, .out, .msiPending] ∧ SameWordsBut s t (denyWords pg))
  ∧ (∀ (s : State) (w : RegWr) (n j : Nat), Inv s → n < 8 → j < 16 → s.arrives w (.chk n) = true →
      w.off % 0x1000 = F.CHK_OWNER_WORLD.at [j] → w.req.secure = false → s.writesAny (accOf w (.chk n)) = true →
    ∃ t, exec (.chkOwnerWrite w) s = .next t ∧ Denied s t (accOf w (.chk n))
      ∧ OnlyChanges s t [.regs, .out, .msiPending] ∧ SameWordsBut s t (denyWords (.chk n)))

/-- R67, R68, R71, R66: with CHN and POOL enabled and no partner joined, CHANNEL_CREATE with a valid kind and owner below its limit takes the channel
slot that has been free longest and completes OK with its handle; CHANNEL_DESTROY of a channel whose buffers hold no fence frees them all and the
channel, whose generation rises, and completes OK; with a fence held it completes DEFERRED and the channel is DRAINING. A failed check completes
with its code and changes no table. -/
def Obligations.ChannelCommands : Prop :=
  (∀ (s : State) (c : CmdArgs) (i : Nat), Inv s → s.accepts 0x01 c = true → s.posts c.fn c.q = true → s.mirrors = false →
      s.poolNotReady = false → c.params.getD 0 0 < 2 ^ 16 → bits 7 4 (c.params.getD 0 0) = 0 →
      1 ≤ bits 3 0 (c.params.getD 0 0) → bits 3 0 (c.params.getD 0 0) ≤ 6 →
      isHolder (if isVf c.fn then c.fn else bits 15 8 (c.params.getD 0 0)) = true →
      s.chanCount (if isVf c.fn then c.fn else bits 15 8 (c.params.getD 0 0))
        < s.chanLimit (if isVf c.fn then c.fn else bits 15 8 (c.params.getD 0 0)) → s.pool.chans.next 256 = some i →
    ∃ t, exec (.channelCreate c) s = .next t
      ∧ t.chan i = some ⟨bits 3 0 (c.params.getD 0 0), if isVf c.fn then c.fn else bits 15 8 (c.params.getD 0 0), false, none⟩
      ∧ Completed s t c 0 [i + s.pool.chans.gen i * 2 ^ 8 + bits 3 0 (c.params.getD 0 0) * 2 ^ 28]
      ∧ SameEntriesBut s.pool.chans.used t.pool.chans.used [i] ∧ (∀ k < 256, t.pool.chans.gen k = s.pool.chans.gen k)
      ∧ OnlyChanges s t [.out, .chans, .queues, .jobs, .msiPending])
  ∧ (∀ (s : State) (c : CmdArgs) (i : Nat), Inv s → s.accepts 0x02 c = true → s.posts c.fn c.q = true → s.mirrors = false →
      s.poolNotReady = false → s.checkChan c.fn (c.params.getD 0 0) = .ok i →
      (∀ p ∈ s.pool.bufs.used, p.2.chan = i → p.2.fences = 0 ∧ p.2.state = .live) →
    ∃ t, exec (.channelDestroy c) s = .next t ∧ t.chan i = none
      ∧ t.pool.chans.gen i = (if s.pool.chans.gen i < 0xFFFFF then s.pool.chans.gen i + 1 else 1)
      ∧ (∀ p ∈ t.pool.bufs.used, p.2.chan ≠ i) ∧ (∀ p ∈ s.pool.bufs.used, p.2.chan ≠ i → p ∈ t.pool.bufs.used)
      ∧ Completed s t c 0 [] ∧ SameEntriesBut s.pool.chans.used t.pool.chans.used [i]
      ∧ SameDramBut s t (s.entryWord (s.pool.bufs.used.flatMap fun p => if p.2.chan = i then p.2.plots else []))
      ∧ OnlyChanges s t [.regs, .mem, .out, .chans, .bufs, .plots, .cache, .queues, .jobs, .msiPending])
  ∧ (∀ (s : State) (c : CmdArgs) (i : Nat) (x : Chan) (j : Nat) (b : Buf), Inv s → s.accepts 0x02 c = true → s.posts c.fn c.q = true →
      s.mirrors = false → s.poolNotReady = false → s.checkChan c.fn (c.params.getD 0 0) = .ok i → s.chan i = some x →
      s.buf j = some b → b.chan = i → 0 < b.fences → b.state = .live →
    ∃ t, exec (.channelDestroy c) s = .next t ∧ t.chan i = some { x with draining := true, destroyJob := some s.hosts.nextJid }
      ∧ t.buf j = some { b with state := .freeing, freeJob := none } ∧ Completed s t c 1 []
      ∧ (∀ k < 256, t.pool.chans.gen k = s.pool.chans.gen k)
      ∧ OnlyChanges s t [.regs, .mem, .out, .chans, .bufs, .plots, .cache, .queues, .jobs, .msiPending])
  ∧ (∀ (s : State) (c : CmdArgs) (code : Nat), Inv s → s.accepts 0x02 c = true → s.posts c.fn c.q = true → s.poolNotReady = false →
      s.checkChan c.fn (c.params.getD 0 0) = .error code →
    ∃ t, exec (.channelDestroy c) s = .next t ∧ Completed s t c code [] ∧ OnlyChanges s t [.out, .queues, .jobs, .msiPending])

/-- R75, R77, R78, R81: BUFFER_ALLOC within quota, reserves and table takes whole plots from the head of the free list; it completes OK with the handle
at once when no plot needs filling, and otherwise stays FILLING without a completion. BUFFER_FREE frees a buffer without fences and completes OK,
its generation rising, or completes DEFERRED with the buffer FREEING. BUFFER_QUERY returns state, fence count and plots. NO_QUOTA and POOL_EMPTY
complete with their codes and allocate nothing. R78, R81: when the fill engine finishes a plot, POOL_FILLED counts it; before the last plot the
buffer stays FILLING with one plot fewer to fill, and after the last it is LIVE and the allocation completes. Where a clause takes a reading of the
model: log entry 75. -/
def Obligations.BufferCommands : Prop :=
  (∀ (s : State) (c : CmdArgs) (ci i : Nat) (x : Chan), Inv s → s.accepts 0x03 c = true → s.posts c.fn c.q = true → s.mirrors = false →
      s.poolNotReady = false → s.checkChan c.fn (c.params.getD 0 0) = .ok ci → s.chan ci = some x → 0 < c.params.getD 1 0 →
      c.params.getD 1 0 ≤ kindLimit x.kind → s.allocCheck x.fn (plotsFor (c.params.getD 1 0)) = none → s.pool.bufs.next 65536 = some i →
      (s.takePlots (plotsFor (c.params.getD 1 0))).1.filter (s.needsFill x.fn) = [] →
    ∃ t, exec (.bufferAlloc c) s = .next t
      ∧ t.buf i = some ⟨.live, ci, s.chanHandle ci, x.fn, (s.takePlots (plotsFor (c.params.getD 1 0))).1, c.params.getD 1 0, 0, [], none, none, false⟩
      ∧ Completed s t c 0 [i + s.pool.bufs.gen i * 2 ^ 16] ∧ t.pool.plots = (s.takePlots (plotsFor (c.params.getD 1 0))).2
      ∧ SameEntriesBut s.pool.bufs.used t.pool.bufs.used [i] ∧ SameDramBut s t (s.entryWord (s.takePlots (plotsFor (c.params.getD 1 0))).1)
      ∧ OnlyChanges s t [.regs, .mem, .out, .bufs, .plots, .peak, .cache, .queues, .jobs, .msiPending])
  ∧ (∀ (s : State) (c : CmdArgs) (ci i : Nat) (x : Chan), Inv s → s.accepts 0x03 c = true → s.poolNotReady = false →
      s.checkChan c.fn (c.params.getD 0 0) = .ok ci → s.chan ci = some x → 0 < c.params.getD 1 0 → c.params.getD 1 0 ≤ kindLimit x.kind →
      s.allocCheck x.fn (plotsFor (c.params.getD 1 0)) = none → s.pool.bufs.next 65536 = some i →
      (s.takePlots (plotsFor (c.params.getD 1 0))).1.filter (s.needsFill x.fn) ≠ [] →
    ∃ t, exec (.bufferAlloc c) s = .next t
      ∧ t.buf i = some ⟨.filling, ci, s.chanHandle ci, x.fn, (s.takePlots (plotsFor (c.params.getD 1 0))).1, c.params.getD 1 0, 0,
          (s.takePlots (plotsFor (c.params.getD 1 0))).1.filter (s.needsFill x.fn), some s.hosts.nextJid, none, false⟩
      ∧ t.pool.fillQueue = s.pool.fillQueue ++ [i] ∧ t.pool.plots = (s.takePlots (plotsFor (c.params.getD 1 0))).2
      ∧ (∀ o ∈ t.out, o ∈ s.out ∨ ∃ fn vec, o = Output.message fn vec)
      ∧ SameEntriesBut s.pool.bufs.used t.pool.bufs.used [i] ∧ SameDramBut s t (s.entryWord (s.takePlots (plotsFor (c.params.getD 1 0))).1)
      ∧ OnlyChanges s t [.regs, .mem, .out, .bufs, .plots, .fillQueue, .peak, .cache, .jobs, .msiPending])
  ∧ (∀ (s : State) (c : CmdArgs) (ci : Nat) (x : Chan) (code : Nat), Inv s → s.accepts 0x03 c = true → s.posts c.fn c.q = true →
      s.poolNotReady = false → s.checkChan c.fn (c.params.getD 0 0) = .ok ci → s.chan ci = some x → 0 < c.params.getD 1 0 →
      c.params.getD 1 0 ≤ kindLimit x.kind → s.allocCheck x.fn (plotsFor (c.params.getD 1 0)) = some code →
    ∃ t, exec (.bufferAlloc c) s = .next t ∧ Completed s t c code [] ∧ OnlyChanges s t [.regs, .out, .queues, .jobs, .msiPending]
      ∧ SameWordsBut s t [Page.pool.key 0x010])
  ∧ (∀ (s : State) (c : CmdArgs) (i : Nat) (b : Buf), Inv s → s.accepts 0x04 c = true → s.posts c.fn c.q = true → s.mirrors = false →
      s.poolNotReady = false → s.checkBuf c.fn (c.params.getD 0 0) = .ok i → s.buf i = some b → b.fences = 0 →
    ∃ t, exec (.bufferFree c) s = .next t ∧ t.buf i = none ∧ t.pool.bufs.gen i = (if s.pool.bufs.gen i < 0xFFFF then s.pool.bufs.gen i + 1 else 1)
      ∧ Completed s t c 0 [] ∧ SameEntriesBut s.pool.bufs.used t.pool.bufs.used [i] ∧ SameDramBut s t (s.entryWord b.plots)
      ∧ OnlyChanges s t [.regs, .mem, .out, .bufs, .plots, .cache, .queues, .jobs, .msiPending])
  ∧ (∀ (s : State) (c : CmdArgs) (i : Nat) (b : Buf), Inv s → s.accepts 0x04 c = true → s.posts c.fn c.q = true → s.mirrors = false →
      s.poolNotReady = false → s.checkBuf c.fn (c.params.getD 0 0) = .ok i → s.buf i = some b → 0 < b.fences →
    ∃ t, exec (.bufferFree c) s = .next t ∧ t.buf i = some { b with state := .freeing, freeJob := some s.hosts.nextJid } ∧ Completed s t c 1 []
      ∧ SameEntriesBut s.pool.bufs.used t.pool.bufs.used [i] ∧ OnlyChanges s t [.out, .bufs, .queues, .jobs, .msiPending])
  ∧ (∀ (s : State) (c : CmdArgs) (i : Nat) (b : Buf), Inv s → s.accepts 0x05 c = true → s.posts c.fn c.q = true → s.poolNotReady = false →
      s.checkBuf c.fn (c.params.getD 0 0) true = .ok i → s.buf i = some b →
    ∃ t, exec (.bufferQuery c) s = .next t ∧ Completed s t c 0 [State.bufStateCode b.state + b.fences * 2 ^ 16, b.plots.length]
      ∧ OnlyChanges s t [.out, .queues, .jobs, .msiPending])
  ∧ (∀ (s : State) (i p : Nat) (rest ps : List Nat) (b : Buf), Inv s → s.pool.fillQueue = i :: rest → s.buf i = some b → b.toFill = p :: ps →
      ps ≠ [] →
    ∃ t, exec .plotFillDone s = .next t ∧ t.buf i = some { b with toFill := ps } ∧ t.pool.fillQueue = s.pool.fillQueue
      ∧ t.fld .pool F.POOL_FILLED_COUNT = (s.fld .pool F.POOL_FILLED_COUNT + 1) % 2 ^ 32
      ∧ (∀ a, s.plotAddr p ≤ a → a < s.plotAddr p + 65536 → Memory.read t.mem a = 0)
      ∧ SameDramBut s t (fun w => s.plotAddr p / 16 ≤ w ∧ w < s.plotAddr p / 16 + 4096)
      ∧ OnlyChanges s t [.regs, .mem, .bufs] ∧ SameWordsBut s t [Page.pool.key F.POOL_FILLED_COUNT.off]
      ∧ SameEntriesBut s.pool.bufs.used t.pool.bufs.used [i])
  ∧ (∀ (s : State) (i p jid : Nat) (rest : List Nat) (b : Buf) (j : Job), Inv s → s.pool.fillQueue = i :: rest → s.buf i = some b →
      b.toFill = [p] → b.freeAfterFill = false → s.mirrors = false → b.allocJob = some jid → s.awaits jid j = true →
    ∃ t, exec .plotFillDone s = .next t ∧ t.buf i = some { b with state := .live, toFill := [], allocJob := none }
      ∧ t.pool.fillQueue = rest
      ∧ Posts s t j false 0 [i + s.pool.bufs.gen i * 2 ^ 16]
      ∧ OnlyChanges s t [.regs, .mem, .out, .bufs, .fillQueue, .queues, .jobs, .msiPending]
      ∧ SameWordsBut s t [Page.pool.key F.POOL_FILLED_COUNT.off] ∧ SameEntriesBut s.pool.bufs.used t.pool.bufs.used [i])

/-- R72, R74, R83, R84: the settings of the pool. POOL ENABLE is refused with the code of its first failing check; an accepted quota keeps every share
at or below it and an accepted share keeps the sum within the pool; LIMIT is at most 256; a write outside these, or one whose selector names no
function that can hold buffers, changes nothing and is recorded; CLEAR sets PEAK to the present use; a mark above the free count sets LOW_FREE when
the condition becomes true. Where a clause takes a reading of the model: log entries 80 to 82. -/
def Obligations.PoolSettings : Prop :=
  (∀ (s : State) (w : RegWr), Inv s → s.arrives w .pool = true → w.off % 0x1000 = 0x008 → w.val.toNat = 1 →
      s.grants (accOf w .pool) F.PG_CTRL_ENABLE = true → s.pageGated .pool = false → s.poolRefusal = none →
      s.edac.plotList = [] → s.edac.bankList = [] →
    ∃ t, exec (.poolEnable w) s = .next t ∧ t.fld .pool F.PG_CTRL_ENABLE = 1 ∧ t.fld .pool F.PG_STAT_ENABLED = 1
      ∧ t.pool.plots = ⟨0, [], s.pool.plots.retired.filter fun p => decide (p < s.poolPlots), []⟩
      ∧ (s.mirrors = false → t.pair = s.pair) ∧ OnlyChanges s t [.regs, .out, .plots, .msiPending, .pair]
      ∧ SameWordsBut s t [Page.pool.key 0x008, Page.pool.key 0x00C, Page.pool.key 0x010])
  ∧ (∀ (s : State) (w : RegWr) (code : Nat), Inv s → s.arrives w .pool = true → w.off % 0x1000 = 0x008 → w.val.toNat = 1 →
      s.grants (accOf w .pool) F.PG_CTRL_ENABLE = true → s.pageGated .pool = false → s.poolRefusal = some code →
    ∃ t, exec (.poolEnable w) s = .next t ∧ t.fld .pool F.PG_CTRL_ENABLE = s.fld .pool F.PG_CTRL_ENABLE
      ∧ Records s t .pool code (if code = 0x0006 ∨ code = 0x0604 then 0x008 + s.fld .pool F.POOL_FN_SEL_FUNCTION * 2 ^ 16 else (accOf w .pool).info)
      ∧ OnlyChanges s t [.regs, .out, .msiPending] ∧ SameWordsBut s t (errWords .pool))
  ∧ (∀ (s : State) (w : RegWr) (f : Nat), Inv s → s.arrives w .pool = true → w.off % 0x1000 = F.POOL_FN_QUOTA_QUOTA.off →
      s.secretPage (accOf w .pool) = false → s.flag .pool F.PG_CTRL_LOCK = false → s.fld .pool F.POOL_FN_SEL_FUNCTION = f → isHolder f = true →
      s.share f ≤ bits 20 0 w.val.toNat →
    ∃ t, exec (.poolFnQuotaWrite w) s = .next t ∧ t.quota f = bits 20 0 w.val.toNat ∧ (∀ g, g ≠ f → t.quota g = s.quota g)
      ∧ (s.mirrors = false → t.pair = s.pair) ∧ OnlyChanges s t [.regs, .pair]
      ∧ SameWordsBut s t [bankKey (Page.pool.key F.POOL_FN_QUOTA_QUOTA.off) f])
  ∧ (∀ (s : State) (w : RegWr) (f : Nat), Inv s → s.arrives w .pool = true → w.off % 0x1000 = F.POOL_FN_SHARE_SHARE.off →
      s.secretPage (accOf w .pool) = false → s.flag .pool F.PG_CTRL_LOCK = false → s.fld .pool F.POOL_FN_SEL_FUNCTION = f → isHolder f = true →
      bits 20 0 w.val.toNat ≤ s.quota f →
      bits 20 0 w.val.toNat ≤ s.share f ∨ s.shareSum - s.share f + bits 20 0 w.val.toNat ≤ s.poolPlots - s.pool.plots.retired.length →
    ∃ t, exec (.poolFnShareWrite w) s = .next t ∧ t.share f = bits 20 0 w.val.toNat ∧ (∀ g, g ≠ f → t.share g = s.share g)
      ∧ (s.mirrors = false → t.pair = s.pair) ∧ OnlyChanges s t [.regs, .pair]
      ∧ SameWordsBut s t [bankKey (Page.pool.key F.POOL_FN_SHARE_SHARE.off) f])
  ∧ (∀ (s : State) (w : RegWr) (f : Nat), Inv s → s.arrives w .chn = true → w.off % 0x1000 = F.CHN_FN_LIMIT_LIMIT.off →
      s.secretPage (accOf w .chn) = false → s.flag .chn F.PG_CTRL_LOCK = false → s.fld .chn F.CHN_FN_SEL_FUNCTION = f → isHolder f = true →
      bits 8 0 w.val.toNat ≤ 256 →
    ∃ t, exec (.chnFnLimitWrite w) s = .next t ∧ t.chanLimit f = bits 8 0 w.val.toNat ∧ (∀ g, g ≠ f → t.chanLimit g = s.chanLimit g)
      ∧ (s.mirrors = false → t.pair = s.pair) ∧ OnlyChanges s t [.regs, .pair]
      ∧ SameWordsBut s t [bankKey (Page.chn.key F.CHN_FN_LIMIT_LIMIT.off) f])
  ∧ (∀ (s : State) (w : RegWr), Inv s → s.arrives w .pool = true → w.off % 0x1000 = F.POOL_LOW_MARK_MARK.off →
      s.secretPage (accOf w .pool) = false → s.flag .pool F.PG_CTRL_LOCK = false →
    ∃ t, exec (.poolLowMarkWrite w) s = .next t ∧ t.fld .pool F.POOL_LOW_MARK_MARK = bits 20 0 w.val.toNat
      ∧ (t.lowFree = true → s.lowFree = false → bit 1 (t.rw (Page.pool.key 0x010)) = true)
      ∧ (t.lowFree = false ∨ s.lowFree = true → t.rw (Page.pool.key 0x010) = s.rw (Page.pool.key 0x010))
      ∧ (s.mirrors = false → t.pair = s.pair) ∧ OnlyChanges s t [.regs, .out, .msiPending, .pair]
      ∧ SameWordsBut s t [Page.pool.key F.POOL_LOW_MARK_MARK.off, Page.pool.key 0x010])
  ∧ (∀ (s : State) (w : RegWr) (f : Nat), Inv s → s.arrives w .pool = true → w.off % 0x1000 = F.POOL_FN_PEAK_CLEAR.off →
      s.secretPage (accOf w .pool) = false → s.fld .pool F.POOL_FN_SEL_FUNCTION = f → isHolder f = true →
      bits F.POOL_FN_PEAK_CLEAR.hi F.POOL_FN_PEAK_CLEAR.lo w.val.toNat = 1 →
    ∃ t, exec (.poolFnPeakClear w) s = .next t ∧ Sparse.find t.pool.peak f = some (s.usedPlots f)
      ∧ SameEntriesBut s.pool.peak t.pool.peak [f] ∧ OnlyChanges s t [.peak])
  ∧ (∀ (s : State) (w : RegWr) (f : Nat), Inv s → s.arrives w .pool = true → w.off % 0x1000 = F.POOL_FN_QUOTA_QUOTA.off →
      s.grants (accOf w .pool) F.POOL_FN_QUOTA_QUOTA = true → s.fld .pool F.POOL_FN_SEL_FUNCTION = f →
      isHolder f = false ∨ bits 20 0 w.val.toNat < s.share f →
    ∃ t, exec (.poolFnQuotaWrite w) s = .next t ∧ Records s t .pool 0x0006 (State.selInfo (accOf w .pool) f)
      ∧ OnlyChanges s t [.regs, .out, .msiPending] ∧ SameWordsBut s t (errWords .pool))
  ∧ (∀ (s : State) (w : RegWr) (f code : Nat), Inv s → s.arrives w .pool = true → w.off % 0x1000 = F.POOL_FN_SHARE_SHARE.off →
      s.grants (accOf w .pool) F.POOL_FN_SHARE_SHARE = true → s.fld .pool F.POOL_FN_SEL_FUNCTION = f →
      (if isHolder f = false ∨ s.quota f < bits 20 0 w.val.toNat then code = 0x0006
       else s.share f < bits 20 0 w.val.toNat ∧ s.poolPlots - s.pool.plots.retired.length < s.shareSum - s.share f + bits 20 0 w.val.toNat
        ∧ code = 0x0604) →
    ∃ t, exec (.poolFnShareWrite w) s = .next t ∧ Records s t .pool code (State.selInfo (accOf w .pool) f)
      ∧ OnlyChanges s t [.regs, .out, .msiPending] ∧ SameWordsBut s t (errWords .pool))
  ∧ (∀ (s : State) (w : RegWr) (f : Nat), Inv s → s.arrives w .chn = true → w.off % 0x1000 = F.CHN_FN_LIMIT_LIMIT.off →
      s.grants (accOf w .chn) F.CHN_FN_LIMIT_LIMIT = true → s.fld .chn F.CHN_FN_SEL_FUNCTION = f →
      isHolder f = false ∨ 256 < bits 8 0 w.val.toNat →
    ∃ t, exec (.chnFnLimitWrite w) s = .next t ∧ Records s t .chn 0x0006 (State.selInfo (accOf w .chn) f)
      ∧ OnlyChanges s t [.regs, .out, .msiPending] ∧ SameWordsBut s t (errWords .chn))

/-- R92, R90, R105, R107, R108: a secure write of SET takes the watermark's high bits and freezes it, and a later write of a watermark word changes
nothing and records NOT_PERMITTED; CLEAR of WLD_DENY_ATTR empties the capture and keeps the count; a secure write of WLD_HOLD takes the mask and
wakes each held group that is stopped; CLEAR of PMC_CTRL sets every counter to 0. R107: when the wake of a held group ends, none of its islands is
gated or stopped any more; with no secure access waiting at its crossing that is all, and an access that waited is then carried out as an access of
its own. Where a clause takes a reading of the model: log entries 25 and 49. -/
def Obligations.WorldRegisters : Prop :=
  (∀ (s : State) (w : RegWr), Inv s → s.arrives w .wld = true → w.off % 0x1000 = 0x044 → w.req.secure = true → bit 31 w.val.toNat = true →
      s.flag .wld F.WLD_WMARK_HI_SET = false →
    ∃ t, exec (.watermarkSet w) s = .next t ∧ t.flag .wld F.WLD_WMARK_HI_SET = true
      ∧ t.watermark = s.fld .wld F.WLD_WMARK_LO_WMARK_LO * 2 ^ 21 + bits 3 0 w.val.toNat * 2 ^ 32
      ∧ OnlyChanges s t [.regs] ∧ SameWordsBut s t [Page.wld.key 0x044])
  ∧ (∀ (s : State) (w : RegWr), Inv s → s.arrives w .wld = true → w.off % 0x1000 = 0x044 → w.req.secure = true →
      s.flag .wld F.WLD_WMARK_HI_SET = true → s.writesAny (accOf w .wld) = true →
    ∃ t, exec (.watermarkSet w) s = .next t ∧ t.watermark = s.watermark ∧ Records s t .wld 0x000A (accOf w .wld).info
      ∧ OnlyChanges s t [.regs, .out, .msiPending] ∧ SameWordsBut s t (errWords .wld))
  ∧ (∀ (s : State) (w : RegWr), Inv s → s.arrives w .wld = true → w.off % 0x1000 = 0x04C → bit 31 w.val.toNat = true →
      s.grants (accOf w .wld) F.WLD_DENY_ATTR_CLEAR = true →
    ∃ t, exec (.wldDenyClear w) s = .next t ∧ t.rw (Page.wld.key 0x04C) = 0 ∧ t.rw (Page.wld.key 0x050) = 0 ∧ t.rw (Page.wld.key 0x054) = 0
      ∧ t.fld .wld F.WLD_DENY_COUNT_COUNT = s.fld .wld F.WLD_DENY_COUNT_COUNT
      ∧ OnlyChanges s t [.regs] ∧ SameWordsBut s t [Page.wld.key 0x04C, Page.wld.key 0x050, Page.wld.key 0x054])
  ∧ (∀ (s : State) (w : RegWr), Inv s → s.arrives w .wld = true → w.off % 0x1000 = 0x060 → w.req.secure = true →
    ∃ t, exec (.wldHoldWrite w) s = .next t ∧ t.fld .wld F.WLD_HOLD_HOLD = bits 24 0 w.val.toNat
      ∧ (∀ g < 25, bit g w.val.toNat = true → s.groupStopped g = true → g ∈ t.worlds.waking)
      ∧ (∀ g, g ∈ t.worlds.waking → g ∈ s.worlds.waking ∨ bit g w.val.toNat = true ∧ s.groupStopped g = true)
      ∧ t.worlds.waitingSecure = s.worlds.waitingSecure
      ∧ OnlyChanges s t [.regs, .worlds] ∧ SameWordsBut s t [Page.wld.key 0x060])
  ∧ (∀ (s : State) (w : RegWr), Inv s → s.arrives w .pmc = true → w.off % 0x1000 = 0x040 → bit 1 w.val.toNat = true →
      s.secretPage (accOf w .pmc) = false →
    ∃ t, exec (.pmcClear w) s = .next t ∧ t.fld .pmc F.PMC_CTRL_RUN = bits 0 0 w.val.toNat
      ∧ (∀ i < 8, t.fld .pmc F.PMC_CNT_LO_COUNT_LO [i] = 0 ∧ t.fld .pmc F.PMC_CNT_HI_COUNT_HI [i] = 0)
      ∧ OnlyChanges s t [.regs] ∧ SameWordsBut s t (Page.pmc.key 0x040 :: (List.range 8).flatMap fun i => [Page.pmc.key (0x084 + 16 * i), Page.pmc.key (0x088 + 16 * i)]))
  ∧ (∀ (s : State) (g : Nat), Inv s → g < 25 → g ∈ s.worlds.waking → s.asleep = false → (∀ p ∈ s.worlds.waitingSecure, p.1 ≠ g) →
    ∃ t, exec (.groupWakeDone g) s = .next t ∧ t.groupStopped g = false ∧ g ∉ t.worlds.waking
      ∧ t.worlds.waitingSecure = s.worlds.waitingSecure
      ∧ (∀ i < 46, (islandGroups i).contains g = false → t.islandPowered i = s.islandPowered i ∧ t.islandClocked i = s.islandClocked i)
      ∧ OnlyChanges s t [.regs, .power, .worlds]
      ∧ SameWordsBut s t ((List.range 46).map fun i => bankKey (Page.pwr.key F.PWR_ISL_CTRL_GATE.off) i))
  ∧ (∀ (s : State) (g : Nat) (x : Waiting) (i : Instr), Inv s → g < 25 → g ∈ s.worlds.waking → s.asleep = false →
      s.worlds.waitingSecure = [(g, x)] →
      (match x with | .write w => i = .registerWrite w | .read r => i = .counterLoRead r | .dram q => i = .dramRequest q) →
    ∃ u t, exec (.groupWakeDone g) { s with worlds := { s.worlds with waitingSecure := [] } } = .next u
      ∧ exec (.groupWakeDone g) s = .next t ∧ exec i u = .next t)

/-- R99, R100, R101, R102, R472: an entry at a gate-table address takes the core into the secure world, counts it and stops its counters; at any other
address the core keeps its world, and a gate fault is counted and reported as contained: the core is scrubbed, and the command in progress completes
with 0x0007. A return scrubs the core but for its two result registers, its counters resume, and the interrupts that waited are taken; secure code
that is aborted leaves 0x0007 in the first and sets GATE_TIMEOUT. Where a clause takes a reading of the model: log entries 9, 69 and 70. -/
def Obligations.Gate : Prop :=
  (∀ (s : State) (k addr : Nat) (jid : Option Nat), Inv s → k < 4 → (s.core k).inSecure = false → addr ∈ s.worlds.gateTable →
    ∃ t, exec (.gateEntry k ⟨addr, jid⟩) s = .next t ∧ (t.core k).inSecure = true ∧ (t.core k).since = s.now
      ∧ bit k (t.fld .wld F.WLD_GATE_STAT_IN_SECURE) = true ∧ bit k (t.fld .pmc F.PMC_STAT_FROZEN_CORE) = true
      ∧ t.fld .wld F.WLD_GATE_COUNT_COUNT = (s.fld .wld F.WLD_GATE_COUNT_COUNT + 1) % 2 ^ 32
      ∧ (∀ j, j ≠ k → t.core j = s.core j) ∧ t.worlds.gateFaults = s.worlds.gateFaults ∧ OnlyChanges s t [.regs, .worlds]
      ∧ SameWordsBut s t ([Page.wld.key 0x058, Page.wld.key 0x05C, Page.pmc.key 0x044]
          ++ (List.range 8).flatMap fun i => [Page.pmc.key (0x084 + 16 * i), Page.pmc.key (0x088 + 16 * i)]))
  ∧ (∀ (s : State) (k addr : Nat) (jid : Option Nat), Inv s → k < 4 → (s.core k).inSecure = false → addr ∉ s.worlds.gateTable →
    ∃ t, exec (.gateEntry k ⟨addr, jid⟩) s = .next t ∧ t.worlds.gateFaults = s.worlds.gateFaults + 1
      ∧ t.core k = { s.core k with scrubbed := true } ∧ (∀ j, j ≠ k → t.core j = s.core j)
      ∧ t.fld .sys F.SYS_FAULT_CNT_CONTAINED = min (s.fld .sys F.SYS_FAULT_CNT_CONTAINED + 1) (2 ^ (F.SYS_FAULT_CNT_CONTAINED.hi + 1 - F.SYS_FAULT_CNT_CONTAINED.lo) - 1)
      ∧ bit 3 (t.rw (Page.sys.key 0x010)) = true
      ∧ OnlyChanges s t (pieces (.gateEntry k ⟨addr, jid⟩)))
  ∧ (∀ (s : State) (k addr j : Nat) (job : Job), Inv s → k < 4 → (s.core k).inSecure = false → addr ∉ s.worlds.gateTable →
      s.awaits j job = true → ∃ t, exec (.gateEntry k ⟨addr, some j⟩) s = .next t ∧ Posts s t job false 0x0007 [])
  ∧ (∀ (s : State) (k r0 r1 : Nat), Inv s → k < 4 → (s.core k).inSecure = true →
    ∃ t, exec (.gateReturn k r0 r1) s = .next t ∧ t.core k = ⟨false, (s.core k).since, r0, r1, true⟩ ∧ (∀ j, j ≠ k → t.core j = s.core j)
      ∧ bit k (t.fld .wld F.WLD_GATE_STAT_IN_SECURE) = false ∧ bit k (t.fld .pmc F.PMC_STAT_FROZEN_CORE) = false
      ∧ t.out = s.out ++ (s.hosts.heldIrqs.filter fun x => x.1 == k).map (fun x => Output.message 0x40 x.2)
      ∧ t.hosts.heldIrqs = s.hosts.heldIrqs.filter (fun x => x.1 != k) ∧ t.hosts.msiPending = s.hosts.msiPending
      ∧ OnlyChanges s t [.regs, .out, .worlds, .msiPending] ∧ SameWordsBut s t [Page.wld.key 0x058, Page.pmc.key 0x044])
  ∧ (∀ (s : State) (k : Nat), Inv s → k < 4 → (s.core k).inSecure = true →
    ∃ t, exec (.gateTimeout k) s = .next t ∧ (t.core k).inSecure = false ∧ (t.core k).result0 = 0x0007 ∧ (t.core k).scrubbed = true
      ∧ (∀ j, j ≠ k → t.core j = s.core j) ∧ bit k (t.fld .wld F.WLD_GATE_STAT_IN_SECURE) = false
      ∧ bit 1 (t.rw (Page.wld.key 0x010)) = true ∧ bit k (t.fld .pmc F.PMC_STAT_FROZEN_CORE) = false
      ∧ OnlyChanges s t [.regs, .out, .free, .worlds, .msiPending]
      ∧ SameWordsBut s t [Page.wld.key 0x058, Page.pmc.key 0x044, Page.wld.key 0x010])

/-- R114, R115, R116: the registers of a queue. ENABLE written 1 on an IDLE queue with sizes of 2 to 4,096 and a vector of the function starts it with
cleared pointers and PHASE 1, or records the code of R114; written 0 on a running queue it makes it IDLE, or DRAINING while a fetched command lacks
its first completion. A valid tail or head is taken; an SQ doorbell that adds more entries than were free, or any value outside the ring, stops the
queue in ERROR; a doorbell of an IDLE queue has no effect and records NOT_PERMITTED. A head that makes room lets an entry that waited for it be
written; a tail written in FALLOW is kept for the wake; a page of the secure world refuses the normal world's doorbells (R51, R90). -/
def Obligations.QueueRegisters : Prop :=
  (∀ (s : State) (w : RegWr) (pg : Page) (f q : Nat), Inv s → s.arrives w pg = true → queueWord (accOf w pg) = some (f, q, 0x14) →
      bit 0 w.val.toNat = true → s.secretPage (accOf w pg) = false → (s.queue f q).state = .idle → s.qf f q F.Q_CTRL_ENABLE = 0 →
      2 ≤ s.sqSize f q → s.sqSize f q ≤ 4096 → 2 ≤ s.cqSize f q → s.cqSize f q ≤ 4096 → bits 7 2 w.val.toNat < State.vectors f →
    ∃ t, exec (.queueEnable w) s = .next t ∧ t.queue f q = ⟨.running, 0, 0, 0, 0, true, 0, 0, []⟩
      ∧ t.qf f q F.Q_CTRL_ENABLE = 1 ∧ t.qf f q F.Q_CTRL_VECTOR = bits 7 2 w.val.toNat
      ∧ t.qf f q F.Q_CTRL_COAL_COUNT = bits 15 8 w.val.toNat ∧ t.qf f q F.Q_CTRL_COAL_TIME = bits 23 16 w.val.toNat
      ∧ SameEntriesBut s.hosts.queues t.hosts.queues [f * 8 + q] ∧ OnlyChanges s t [.regs, .queues]
      ∧ SameWordsBut s t [pg.key (w.off % 0x1000)])
  ∧ (∀ (s : State) (w : RegWr) (pg : Page) (f q : Nat), Inv s → s.arrives w pg = true → queueWord (accOf w pg) = some (f, q, 0x14) →
      bit 0 w.val.toNat = false → s.secretPage (accOf w pg) = false → s.qf f q F.Q_CTRL_ENABLE = 1 →
      (s.queue f q).state = .running ∨ (s.queue f q).state = .error →
    ∃ t, exec (.queueDisable w) s = .next t ∧ t.qf f q F.Q_CTRL_ENABLE = 0
      ∧ t.queue f q = (if s.uncompleted f q = 0 then { s.queue f q with state := .idle, held := [] } else { s.queue f q with state := .draining })
      ∧ t.hosts.jobs = (if s.uncompleted f q = 0 then s.hosts.jobs.filter (fun j => !(j.fn == f && j.q == q && j.stage == .owed)) else s.hosts.jobs)
      ∧ SameEntriesBut s.hosts.queues t.hosts.queues [f * 8 + q] ∧ OnlyChanges s t [.regs, .queues, .jobs]
      ∧ SameWordsBut s t [pg.key (w.off % 0x1000)])
  ∧ (∀ (s : State) (w : RegWr) (pg : Page) (f q : Nat), Inv s → s.arrives w pg = true → queueWord (accOf w pg) = some (f, q, 0x20) →
      s.secretPage (accOf w pg) = false → s.fnState f ≠ .resetting → s.power.state ≠ .fallow → (s.queue f q).state = .running → w.val.toNat % 4096 < s.sqSize f q →
      (w.val.toNat % 4096 + s.sqSize f q - (s.queue f q).sqTail) % s.sqSize f q ≤ s.sqFree f q →
    ∃ t, exec (.sqDoorbell w) s = .next t ∧ t.queue f q = { s.queue f q with sqTail := w.val.toNat % 4096 }
      ∧ SameEntriesBut s.hosts.queues t.hosts.queues [f * 8 + q] ∧ OnlyChanges s t [.queues])
  ∧ (∀ (s : State) (w : RegWr) (pg : Page) (f q : Nat), Inv s → s.arrives w pg = true → queueWord (accOf w pg) = some (f, q, 0x20) →
      s.secretPage (accOf w pg) = false → s.fnState f ≠ .resetting → s.power.state ≠ .fallow → (s.queue f q).state = .running → w.val.toNat % 4096 < s.sqSize f q →
      s.sqFree f q < (w.val.toNat % 4096 + s.sqSize f q - (s.queue f q).sqTail) % s.sqSize f q →
    ∃ t, exec (.sqDoorbell w) s = .next t ∧ t.queue f q = { s.queue f q with state := .error }
      ∧ bit (if isPf f then 5 else 0) (t.rw ((qPage f).key 0x010)) = true
      ∧ (s.fld (qPage f) F.ERR_CODE_CODE = 0 → t.fld (qPage f) F.ERR_CODE_CODE = 0x0601)
      ∧ SameEntriesBut s.hosts.queues t.hosts.queues [f * 8 + q] ∧ OnlyChanges s t [.regs, .out, .queues, .msiPending]
      ∧ SameWordsBut s t (errWords (qPage f)))
  ∧ (∀ (s : State) (w : RegWr) (pg : Page) (f q : Nat), Inv s → s.arrives w pg = true → queueWord (accOf w pg) = some (f, q, 0x20) →
      s.secretPage (accOf w pg) = false → s.fnState f ≠ .resetting → s.power.state ≠ .fallow → (s.queue f q).state = .idle →
    ∃ t, exec (.sqDoorbell w) s = .next t ∧ Records s t (qPage f) 0x000A (accOf w pg).info
      ∧ OnlyChanges s t [.regs, .out, .msiPending] ∧ SameWordsBut s t (errWords (qPage f)))
  ∧ (∀ (s : State) (w : RegWr) (pg : Page) (f q : Nat), Inv s → s.arrives w pg = true → queueWord (accOf w pg) = some (f, q, 0x24) →
      s.secretPage (accOf w pg) = false → s.fnState f ≠ .resetting →
      (s.queue f q).state = .running ∨ (s.queue f q).state = .draining ∧ s.uncompleted f q ≠ 0 → (s.queue f q).held = [] →
      w.val.toNat % 4096 < s.cqSize f q → (w.val.toNat % 4096 + s.cqSize f q - (s.queue f q).cqHead) % s.cqSize f q ≤ s.unconsumed f q →
    ∃ t, exec (.cqDoorbell w) s = .next t ∧ t.queue f q = { s.queue f q with cqHead := w.val.toNat % 4096 }
      ∧ SameEntriesBut s.hosts.queues t.hosts.queues [f * 8 + q] ∧ OnlyChanges s t [.queues])
  ∧ (∀ (s : State) (w : RegWr) (pg : Page) (f q : Nat), Inv s → s.arrives w pg = true → queueWord (accOf w pg) = some (f, q, 0x24) →
      s.secretPage (accOf w pg) = false → s.fnState f ≠ .resetting → (s.queue f q).state = .running → s.cqSize f q ≤ w.val.toNat % 4096 →
    ∃ t, exec (.cqDoorbell w) s = .next t ∧ t.queue f q = { s.queue f q with state := .error }
      ∧ (s.fld (qPage f) F.ERR_CODE_CODE = 0 → t.fld (qPage f) F.ERR_CODE_CODE = 0x0006)
      ∧ OnlyChanges s t [.regs, .out, .queues, .msiPending] ∧ SameWordsBut s t (errWords (qPage f)))
  ∧ (∀ (s : State) (w : RegWr) (pg : Page) (f q : Nat) (e : CqEntry), Inv s → s.arrives w pg = true → queueWord (accOf w pg) = some (f, q, 0x24) →
      s.secretPage (accOf w pg) = false → s.fnState f ≠ .resetting → (s.queue f q).state = .running → (s.queue f q).held = [e] →
      e.fin = true → w.val.toNat % 4096 < s.cqSize f q → (s.queue f q).cqTail < s.cqSize f q → w.val.toNat % 4096 = (s.queue f q).cqTail →
      1 < s.cqSize f q →
    ∃ t, exec (.cqDoorbell w) s = .next t ∧ s.cqWrite f q (s.queue f q).cqTail (s.queue f q).phase e ∈ t.out
      ∧ (t.queue f q).held = [] ∧ (t.queue f q).cqHead = w.val.toNat % 4096 ∧ OnlyChanges s t [.out, .queues, .msiPending])
  ∧ (∀ (s : State) (w : RegWr) (pg : Page) (f q : Nat), Inv s → s.arrives w pg = true → queueWord (accOf w pg) = some (f, q, 0x20) →
      s.secretPage (accOf w pg) = false → s.fnState f ≠ .resetting → s.power.state = .fallow →
    ∃ t, exec (.sqDoorbell w) s = .next t
      ∧ t.power.doorbells = s.power.doorbells ++ [(f, q, w.val.toNat % 4096, (accOf w pg).info)] ∧ OnlyChanges s t [.power])
  ∧ (∀ (s : State) (w : RegWr) (pg : Page) (f q o : Nat) (i : Instr), Inv s → s.arrives w pg = true → queueWord (accOf w pg) = some (f, q, o) →
      (i, o) ∈ [(Instr.sqDoorbell w, 0x20), (.cqDoorbell w, 0x24)] → s.secretPage (accOf w pg) = true → s.writesAny (accOf w pg) = true →
    ∃ t, exec i s = .next t ∧ Denied s t (accOf w pg) ∧ OnlyChanges s t [.regs, .out, .msiPending] ∧ SameWordsBut s t (denyWords pg))

/-- R117, R118, R124: with one waiting function of nonzero weight and one of its queues fetchable, a fetch takes the entry at the ring's head, moves the
head and uses one of the function's fetches; a NOP entry completes OK with the CID of the entry; an ORDERED entry behind an uncompleted one stays in
its ring. An entry of an internal queue that may not start yet waits there, and a fetch takes it up. NOP, FN_QUERY and the failed checks of R500
complete with their status. Where a clause takes a reading of the model: log entries 54, 86 and 87. -/
def Obligations.FetchAndSimpleCommands : Prop :=
  (∀ (s : State) (p f q : Nat) (ws : List Word32), Inv s → s.fetchOn p = true → s.waitingFns p = [f] → s.weight f ≠ 0 →
      s.due (s.round p) f ≠ 0 → s.waitingQueues f = [q] → (s.queue f q).held = [] → (entryArgs f q ws).1 = 0 → (entryArgs f q ws).2.ordered = false → (entryArgs f q ws).2.rsvd = 0 →
      (entryArgs f q ws).2.params.all (· == 0) = true →
    ∃ t, exec (.commandFetch p ws) s = .next t ∧ Completed s t (entryArgs f q ws).2 0 []
      ∧ (t.queue f q).sqHead = (if (s.queue f q).sqHead + 1 < s.sqSize f q then (s.queue f q).sqHead + 1 else 0)
      ∧ t.due (t.round p) f = s.due (s.round p) f - 1 ∧ SameEntriesBut s.hosts.queues t.hosts.queues [f * 8 + q]
      ∧ OnlyChanges s t [.out, .queues, .jobs, .arbiter, .msiPending])
  ∧ (∀ (s : State) (p f q : Nat) (ws : List Word32), s.fetchOn p = true → s.waitingFns p = [f] → s.weight f ≠ 0 →
      s.due (s.round p) f ≠ 0 → s.waitingQueues f = [q] → (entryArgs f q ws).2.ordered = true → s.uncompleted f q ≠ 0 →
    ∃ t, exec (.commandFetch p ws) s = .next t ∧ t.queue f q = s.queue f q ∧ t.hosts.jobs = s.hosts.jobs ∧ OnlyChanges s t [.arbiter])
  ∧ (∀ (s : State) (c : CmdArgs) (ws : List Word32), Inv s → s.coreFetchOn = true → s.hosts.coreEntries = [(0x00, c)] → isCore c.fn = true →
      c.ordered = false → c.rsvd = 0 → c.params.all (· == 0) = true → s.posts c.fn c.q = true →
    ∃ t, exec (.commandFetch 2 ws) s = .next t ∧ Completed s t c 0 [] ∧ t.hosts.coreEntries = []
      ∧ OnlyChanges s t [.out, .queues, .jobs, .coreEntries, .msiPending])
  ∧ (∀ (s : State) (c : CmdArgs), s.entryWaits c = true →
    ∃ t, exec (.nop c) s = .next t ∧ t.hosts.coreEntries = s.hosts.coreEntries ++ (if isCore c.fn then [(0x00, c)] else [])
      ∧ OnlyChanges s t [.coreEntries])
  ∧ (∀ (s : State) (c : CmdArgs), Inv s → s.accepts 0x00 c = true → s.posts c.fn c.q = true →
    ∃ t, exec (.nop c) s = .next t ∧ Completed s t c 0 [] ∧ OnlyChanges s t [.out, .queues, .jobs, .msiPending])
  ∧ (∀ (s : State) (c : CmdArgs), Inv s → s.accepts 0x41 c = true → s.posts c.fn c.q = true →
      isPf (c.params.getD 0 0) = true ∨ isVf (c.params.getD 0 0) = true → c.params.getD 0 0 ≠ c.fn →
    ∃ t, exec (.fnQuery c) s = .next t
      ∧ Completed s t c 0 [s.fnStat (c.params.getD 0 0), s.usedPlots (c.params.getD 0 0), s.chanCount (c.params.getD 0 0)]
      ∧ OnlyChanges s t [.out, .queues, .jobs, .msiPending])
  ∧ (∀ (s : State) (c : CmdArgs), Inv s → s.entryWaits c = false → s.ready = true → s.posts c.fn c.q = true → c.fn ≠ s.manager →
    ∃ t, exec (.fnQuery c) s = .next t ∧ Completed s t c 0x000A [] ∧ OnlyChanges s t [.out, .queues, .jobs, .msiPending])
  ∧ (∀ (s : State) (c : CmdArgs), Inv s → s.entryWaits c = false → s.ready = false → s.posts c.fn c.q = true →
    ∃ t, exec (.fnQuery c) s = .next t ∧ Completed s t c 0x1301 [] ∧ OnlyChanges s t [.out, .queues, .jobs, .msiPending])

/-- R111, R113, R126, R59: a peer's write away from the doorbells is dropped, counted and reported and its read answered with zero, while its doorbell
acts as the function's own; the manager role moves to the port whose ROLE the secure world sets; unsignalled completions are signalled when
COAL_TIME has passed; unmasking a vector delivers the message held for it. -/
def Obligations.HostPortEvents : Prop :=
  (∀ (s : State) (f rid off : Nat) (v : Word32), Inv s → isPf f = true ∨ isVf f = true → s.flag (.hp (portOf f)) F.HP_HOST_RID_VALID = true →
      s.fld (.hp (portOf f)) F.HP_HOST_RID_RID ≠ rid → off < 0x100 →
    ∃ t, exec (.peerAccess f rid off (some v)) s = .next t
      ∧ t.fld (.hp (portOf f)) F.HP_PEER_DROP_COUNT = satAdd 32 (s.fld (.hp (portOf f)) F.HP_PEER_DROP_COUNT) 1
      ∧ bit 4 (t.rw ((Page.hp (portOf f)).key 0x010)) = true ∧ OnlyChanges s t [.regs, .out, .msiPending]
      ∧ SameWordsBut s t [(Page.hp (portOf f)).key 0x054, (Page.hp (portOf f)).key 0x010])
  ∧ (∀ (s : State) (f rid off : Nat), s.flag (.hp (portOf f)) F.HP_HOST_RID_VALID = true → s.fld (.hp (portOf f)) F.HP_HOST_RID_RID ≠ rid →
    ∃ t, exec (.peerAccess f rid off none) s = .next t ∧ t.out = s.out ++ [.readData f 0] ∧ OnlyChanges s t [.out])
  ∧ (∀ (s : State) (f rid q tail : Nat), isVf f = true → q < 4 → s.flag (.hp (portOf f)) F.HP_HOST_RID_VALID = true →
      s.fld (.hp (portOf f)) F.HP_HOST_RID_RID ≠ rid → tail < 4096 → s.fnState f ≠ .resetting → s.power.state ≠ .fallow →
      (s.queue f q).state = .running → tail < s.sqSize f q → (tail + s.sqSize f q - (s.queue f q).sqTail) % s.sqSize f q ≤ s.sqFree f q →
    ∃ t, exec (.peerAccess f rid (0x120 + 0x40 * q) (some (BitVec.ofNat 32 tail))) s = .next t
      ∧ t.queue f q = { s.queue f q with sqTail := tail } ∧ OnlyChanges s t [.queues])
  ∧ (∀ (s : State) (w : RegWr) (p : Nat), Inv s → p < 2 → s.arrives w (.hp p) = true → w.off % 0x1000 = F.HP_MGR_ROLE.off → w.req.secure = true →
      s.flag (.hp p) F.HP_MGR_ROLE = false → bit 0 w.val.toNat = true →
    ∃ t, exec (.hpMgrRoleWrite w) s = .next t ∧ t.flag (.hp p) F.HP_MGR_ROLE = true ∧ t.flag (.hp (1 - p)) F.HP_MGR_ROLE = false
      ∧ t.manager = 0x80 * p ∧ OnlyChanges s t [.regs]
      ∧ SameWordsBut s t [(Page.hp p).key F.HP_MGR_ROLE.off, (Page.hp (1 - p)).key F.HP_MGR_ROLE.off])
  ∧ (∀ (s : State) (f q : Nat), isCore f = false → (s.queue f q).unsignalled ≠ 0 →
      (s.queue f q).oldest + 1000 * s.qf f q F.Q_CTRL_COAL_TIME ≤ s.now →
    ∃ t, exec (.coalesceTimeout f q) s = .next t ∧ MessageGoes s t f (s.qf f q F.Q_CTRL_VECTOR)
      ∧ t.queue f q = { s.queue f q with unsignalled := 0 } ∧ OnlyChanges s t [.out, .queues, .msiPending])
  ∧ (∀ (s : State) (f vec : Nat), vec < State.vectors f → f ≠ 0x40 → f ≠ 0x41 → s.fnState f = .enabled →
    ∃ t, exec (.msixVectorUnmask f vec) s = .next t ∧ (f, vec) ∈ t.hosts.unmasked ∧ (∀ v ∈ s.hosts.unmasked, v ∈ t.hosts.unmasked)
      ∧ ((f, vec) ∈ s.hosts.msiPending → t.out = s.out ++ [.message f vec] ∧ (f, vec) ∉ t.hosts.msiPending)
      ∧ ((f, vec) ∉ s.hosts.msiPending → NoMessage s t)
      ∧ OnlyChanges s t [.out, .unmasked, .msiPending])

/-- R122, R127, R128, R129: each trigger takes an enabled function into RESETTING with its cause and its count of squashed entries; a further trigger is
folded into the running reset and keeps the cause; the Function Level Reset of a PF clears VF Enable. Where a clause takes a reading of the model:
log entry 53. -/
def Obligations.FunctionResetStart : Prop :=
  (∀ (s : State) (f : Nat), Inv s → isVf f = true → s.fnState f = .enabled →
    ∃ t, exec (.flr f) s = .next t ∧ t.fnState f = .resetting ∧ (t.fn f).cause = 1 ∧ (t.fn f).bus = true ∧ (t.fn f).step = 1
      ∧ (t.fn f).squashed = min (s.fnPending f) 0xFFFF ∧ (∀ j ∈ t.hosts.jobs, j.fn ≠ f) ∧ (∀ g, g ≠ f → t.fn g = s.fn g)
      ∧ bit 3 (t.rw ((Page.hp (portOf f)).key 0x010)) = true ∧ OnlyChanges s t (pieces (.flr f)))
  ∧ (∀ (s : State) (f : Nat), Inv s → isVf f = true → s.fnState f = .resetting →
    ∃ t, exec (.flr f) s = .next t ∧ t.fnState f = .resetting ∧ (t.fn f).cause = (s.fn f).cause ∧ (t.fn f).bus = true
      ∧ (t.fn f).hostOk = false ∧ OnlyChanges s t (pieces (.flr f)))
  ∧ (∀ (s : State) (f : Nat), Inv s → isPf f = true → s.fnState f = .enabled →
    ∃ t, exec (.flr f) s = .next t ∧ t.fnState f = .resetting ∧ t.flag (.hp (portOf f)) F.HP_SRIOV_VF_ENABLE = false
      ∧ t.fld (.hp (portOf f)) F.HP_SRIOV_NUM_VFS = 0)
  ∧ (∀ (s : State) (p : Nat), Inv s → p < 2 →
    ∃ t, exec (.vfEnableCleared p) s = .next t ∧ t.flag (.hp p) F.HP_SRIOV_VF_ENABLE = false ∧ t.fld (.hp p) F.HP_SRIOV_NUM_VFS = 0
      ∧ (∀ k < 64, 1 ≤ k → s.fnState (0x80 * p + k) = .enabled → t.fnState (0x80 * p + k) = .resetting ∧ (t.fn (0x80 * p + k)).cause = 2)
      ∧ OnlyChanges s t (pieces (.vfEnableCleared p)))
  ∧ (∀ (s : State) (c : CmdArgs), Inv s → s.accepts 0x40 c = true → isPf (c.params.getD 0 0) = true ∨ isVf (c.params.getD 0 0) = true →
      c.params.getD 0 0 ≠ c.fn → s.fnState (c.params.getD 0 0) = .enabled →
    ∃ t, exec (.fnReset c) s = .next t ∧ t.fnState (c.params.getD 0 0) = .resetting ∧ (t.fn (c.params.getD 0 0)).cause = 3
      ∧ (t.fn (c.params.getD 0 0)).bus = false ∧ (t.fn (c.params.getD 0 0)).waiters = [s.hosts.nextJid]
      ∧ OnlyChanges s t (pieces (.fnReset c)))
  ∧ (∀ (s : State) (c : CmdArgs), Inv s → s.accepts 0x40 c = true → s.posts c.fn c.q = true →
      isPf (c.params.getD 0 0) = true ∨ isVf (c.params.getD 0 0) = true →
      c.params.getD 0 0 ≠ c.fn → s.fnState (c.params.getD 0 0) = .absent → s.holdsPool (c.params.getD 0 0) = false → (s.fn (c.params.getD 0 0)).step = 0 →
    ∃ t, exec (.fnReset c) s = .next t ∧ Completed s t c 0 [] ∧ OnlyChanges s t [.out, .queues, .jobs, .msiPending])
  ∧ (∀ (s : State) (w : RegWr) (f : Nat), Inv s → s.arrives w (.vf f) = true → isVf f = true → w.off % 0x1000 = 0x008 →
      w.val.toNat = 2 + s.fld (.vf f) F.PG_CTRL_ENABLE → s.grants (accOf w (.vf f)) F.PG_CTRL_SOFT_RESET = true → s.fnState f = .enabled →
    ∃ t, exec (.vfSoftReset w) s = .next t ∧ t.fnState f = .resetting ∧ (t.fn f).cause = 4 ∧ (t.fn f).bus = false
      ∧ OnlyChanges s t (pieces (.vfSoftReset w)))
  ∧ (∀ (s : State) (w : RegWr) (p : Nat), Inv s → p < 2 → s.arrives w (.hp p) = true → w.off % 0x1000 = F.HP_PF_RESET_START.off →
      s.grants (accOf w (.hp p)) F.HP_PF_RESET_START = true → s.fnState (0x80 * p) = .enabled →
    ∃ t, exec (.hpPfResetStart w) s = .next t ∧ t.fnState (0x80 * p) = .resetting ∧ (t.fn (0x80 * p)).cause = 4
      ∧ (t.fn (0x80 * p)).hpPage = false ∧ OnlyChanges s t (pieces (.hpPfResetStart w)))
  ∧ (∀ (s : State) (w : RegWr) (p : Nat), Inv s → p < 2 → s.arrives w (.hp p) = true → w.off % 0x1000 = 0x008 →
      w.val.toNat = 2 + s.fld (.hp p) F.PG_CTRL_ENABLE → s.grants (accOf w (.hp p)) F.PG_CTRL_SOFT_RESET = true →
      s.pageHeld (accOf w (.hp p)) = none → s.pageArmed (Page.hp p).base = false → s.fnState (0x80 * p) = .enabled →
    ∃ t, exec (.hpSoftReset w) s = .next t ∧ t.fnState (0x80 * p) = .resetting ∧ (t.fn (0x80 * p)).cause = 4
      ∧ (t.fn (0x80 * p)).hpPage = true ∧ OnlyChanges s t (pieces (.hpSoftReset w)))

/-- R127, R128, R131: the steps of a function reset and the states of functions around the port's link. When steps 1 and 2 have ended, step 3 destroys
the function's channels; step 4 posts ABORTED in a managed reset, makes the queues IDLE and ends in ENABLED or ABSENT with RESET_DONE. A link that
comes up enables PF0; VF Enable enables the VFs up to NumVFs; a link that goes down holds its enabled functions. Where a clause takes a reading of
the model: log entry 53. -/
def Obligations.FunctionStates : Prop :=
  (∀ (s : State) (f : Nat), Inv s → s.stepsEnded f = true → (s.fn f).linkDown = false → (s.fn f).step = 1 → s.standby = false →
    ∃ t, exec (.fnResetPoolStep f) s = .next t ∧ (t.fn f).step = 3 ∧ (∀ p ∈ t.pool.chans.used, p.2.fn = f → p.2.draining = true)
      ∧ OnlyChanges s t (pieces (.fnResetPoolStep f)))
  ∧ (∀ (s : State) (f : Nat), Inv s → s.stepsEnded f = true → (s.fn f).linkDown = true →
    ∃ t, exec (.fnResetPoolStep f) s = .next t ∧ (t.fn f).linkDown = false ∧ (t.fn f).cause = 5
      ∧ (t.fn f).timeUs = (s.now - (s.fn f).startNs) / 1000 ∧ bit 2 (t.rw ((Page.hp (portOf f)).key 0x010)) = true
      ∧ OnlyChanges s t [.regs, .out, .fns, .msiPending] ∧ SameWordsBut s t [(Page.hp (portOf f)).key 0x010])
  ∧ (∀ (s : State) (f : Nat), Inv s → isVf f = true → (s.fn f).step = 3 → (s.fn f).waiters = [] → (s.fn f).hpPage = false →
    ∃ t, exec (.fnResetQueueStep f) s = .next t ∧ t.fnState f = (if s.fnWanted f then .enabled else .absent) ∧ (t.fn f).step = 0
      ∧ (t.fn f).timeUs = (s.now - (s.fn f).startNs) / 1000 ∧ (t.fn f).cause = (s.fn f).cause
      ∧ (∀ q < 4, t.queue f q = idleQueue) ∧ (∀ j ∈ t.hosts.jobs, j.fn ≠ f) ∧ bit 2 (t.rw ((Page.hp (portOf f)).key 0x010)) = true
      ∧ OnlyChanges s t (pieces (.fnResetQueueStep f)))
  ∧ (∀ (s : State) (f : Nat) (j : Job), Inv s → isVf f = true → (s.fn f).step = 3 → (s.fn f).hostOk = true → (s.fn f).fromHeld = false →
      (s.fn f).fromAbsent = false → j ∈ s.hosts.jobs → j.fn = f → j.stage = .fetched → s.posts f j.q = true →
    ∃ t, exec (.fnResetQueueStep f) s = .next t
      ∧ Posts s t j false 0x0008 [])
  ∧ (∀ (s : State) (p speed width : Nat), Inv s → p < 2 → 1 ≤ speed → speed ≤ 5 → width ∈ [1, 2, 4, 8] → s.faults.inReset = false → s.faults.recovery = false →
      s.faults.fatal = none → s.portUp p = false → s.power.state ≠ .off → s.power.state ≠ .stopped →
      s.fnState (0x80 * p) = .absent ∨ s.fnState (0x80 * p) = .held →
    ∃ t, exec (.portLinkUp p speed width) s = .next t ∧ t.fnState (0x80 * p) = .enabled ∧ t.fld (.hp p) F.HP_LINK_SPEED = s.linkSpeed (1 + p) speed
      ∧ t.fld (.hp p) F.HP_LINK_WIDTH = width ∧ bit 1 (t.rw ((Page.hp p).key 0x010)) = true
      ∧ ((s.fnState (0x80 * p) = .held ∨ s.holdsPool (0x80 * p) = true) → (t.fn (0x80 * p)).heldState = true)
      ∧ (∀ g, g ≠ 0x80 * p → t.fn g = s.fn g) ∧ OnlyChanges s t (pieces (.portLinkUp p speed width)))
  ∧ (∀ (s : State) (p n : Nat), Inv s → p < 2 → n ≤ 63 → s.portUp p = true → s.fnState (0x80 * p) = .enabled →
    ∃ t, exec (.vfEnableSet p n) s = .next t ∧ t.flag (.hp p) F.HP_SRIOV_VF_ENABLE = true ∧ t.fld (.hp p) F.HP_SRIOV_NUM_VFS = n
      ∧ (∀ k < n, s.fnState (0x80 * p + 1 + k) = .absent → t.fnState (0x80 * p + 1 + k) = .enabled)
      ∧ OnlyChanges s t (pieces (.vfEnableSet p n)))
  ∧ (∀ (s : State) (p : Nat), Inv s → p < 2 → s.portUp p = true →
    ∃ t, exec (.portLinkDown p) s = .next t ∧ t.portUp p = false
      ∧ t.fld (.hp p) F.HP_LINK_DOWNS_COUNT = satAdd 32 (s.fld (.hp p) F.HP_LINK_DOWNS_COUNT) 1
      ∧ (∀ f ∈ State.portFns p, s.fnState f = .enabled → t.fnState f = .held ∧ (t.fn f).heldState = true ∧ (∀ j ∈ t.hosts.jobs, j.fn ≠ f))
      ∧ (∀ f ∈ State.portFns p, s.fnState f = .resetting → t.fnState f = .resetting ∧ (t.fn f).hostOk = false)
      ∧ bit 0 (t.rw ((Page.hp p).key 0x010)) = true ∧ OnlyChanges s t (pieces (.portLinkDown p)))

/-- R147, R148, R150, R65: an INGEST that passes every check enters its engine's waiting list with a fence and completes nothing yet; a destination that
fails R65 or R148 completes with the code of the first failing check, counts 0 and writes nothing. An engine starts the oldest command that no
earlier ingest of the same buffer blocks, of the function that the weights serve (R124), in its lowest free slot (R152). An entry whose engine's
waiting list is full is not taken up. Where a clause takes a reading of the model: log entries 54, 55 and 78. -/
def Obligations.IngestAcceptance : Prop :=
  (∀ (s : State) (c : CmdArgs) (i n : Nat) (b : Buf), Inv s → s.accepts 0x10 c = true → s.ingestFull (c.params.getD 1 0) = false →
      s.checkBuf c.fn (c.params.getD 0 0) = .ok i → s.buf i = some b → s.bufKind i = 1 → s.ingestCheck i (s.take 0x10 c).1 = none →
      s.ingestTarget (c.params.getD 1 0) = some n →
    ∃ t, exec (.ingest c) s = .next t
      ∧ t.engine n = { s.engine n with waiting := (s.engine n).waiting ++ [{
          jid := s.hosts.nextJid, seq := s.ingest.nextSeq, buf := i, handle := c.params.getD 0 0, fn := c.fn
          format := bits 7 0 (c.params.getD 1 0), srcTiled := bits 9 8 (c.params.getD 1 0) == 1, seedbed := bit 10 (c.params.getD 1 0)
          width := bits 15 0 (c.params.getD 2 0), height := bits 31 16 (c.params.getD 2 0)
          rectX := bits 15 0 (c.params.getD 3 0), rectY := bits 31 16 (c.params.getD 3 0)
          rectW := if c.params.getD 4 0 = 0 then bits 15 0 (c.params.getD 2 0) else bits 15 0 (c.params.getD 4 0)
          rectH := if c.params.getD 4 0 = 0 then bits 31 16 (c.params.getD 2 0) else bits 31 16 (c.params.getD 4 0)
          src0 := c.params.getD 5 0 + c.params.getD 6 0 * 2 ^ 32, pitch0 := c.params.getD 7 0
          src1 := c.params.getD 8 0 + c.params.getD 9 0 * 2 ^ 32, pitch1 := c.params.getD 10 0, tiles := 0, words := 0 }] }
      ∧ t.buf i = some { b with fences := b.fences + 1 } ∧ SameEntriesBut s.pool.bufs.used t.pool.bufs.used [i]
      ∧ SameEntriesBut s.ingest.engines t.ingest.engines [n] ∧ OnlyChanges s t [.regs, .bufs, .ingest, .jobs]
      ∧ SameWordsBut s t [(Page.ing n).key 0x00C])
  ∧ (∀ (s : State) (c : CmdArgs) (code : Nat), Inv s → s.accepts 0x10 c = true → s.posts c.fn c.q = true →
      s.ingestFull (c.params.getD 1 0) = false → s.checkBuf c.fn (c.params.getD 0 0) = .error code →
    ∃ t, exec (.ingest c) s = .next t ∧ Completed s t c code [0, 0] ∧ OnlyChanges s t [.out, .queues, .jobs, .msiPending])
  ∧ (∀ (s : State) (c : CmdArgs) (i code : Nat), Inv s → s.accepts 0x10 c = true → s.posts c.fn c.q = true →
      s.ingestFull (c.params.getD 1 0) = false → s.checkBuf c.fn (c.params.getD 0 0) = .ok i → s.bufKind i = 1 →
      s.ingestCheck i (s.take 0x10 c).1 = some code →
    ∃ t, exec (.ingest c) s = .next t ∧ Completed s t c code [0, 0] ∧ OnlyChanges s t [.out, .queues, .jobs, .msiPending])
  ∧ (∀ (s : State) (c : CmdArgs) (i : Nat), Inv s → s.accepts 0x10 c = true → s.posts c.fn c.q = true →
      s.ingestFull (c.params.getD 1 0) = false → s.checkBuf c.fn (c.params.getD 0 0) = .ok i → s.bufKind i ≠ 1 →
    ∃ t, exec (.ingest c) s = .next t ∧ Completed s t c 0x0107 [0, 0] ∧ OnlyChanges s t [.out, .queues, .jobs, .msiPending])
  ∧ (∀ (s : State) (c : CmdArgs) (i : Nat), Inv s → s.accepts 0x10 c = true → s.posts c.fn c.q = true →
      s.ingestFull (c.params.getD 1 0) = false → s.checkBuf c.fn (c.params.getD 0 0) = .ok i → s.bufKind i = 1 →
      s.ingestCheck i (s.take 0x10 c).1 = none → (∀ n < 4, s.flag (.ing n) F.PG_CTRL_ENABLE = false ∧ s.blockStopped (.ing n) = false) →
    ∃ t, exec (.ingest c) s = .next t ∧ Completed s t c 0x1301 [0, 0] ∧ OnlyChanges s t [.out, .queues, .jobs, .msiPending])
  ∧ (∀ (s : State) (c : CmdArgs), s.ingestFull (c.params.getD 1 0) = true →
    ∃ t, exec (.ingest c) s = .next t ∧ t.hosts.coreEntries = s.hosts.coreEntries ++ (if isCore c.fn then [(0x10, c)] else [])
      ∧ OnlyChanges s t [.coreEntries])
  ∧ (∀ (s s1 : State) (n f k : Nat) (x : IngCmd), Inv s → n < 4 → s.standby = false →
      k < 8 → Sparse.find (s.engine n).slots k = none →
      s.pickFn (2 + n) ((List.range 256).filter fun g => (s.engine n).waiting.any fun c => !s.ingBlocked c && c.fn == g) = (some f, s1) →
      (s.engine n).waiting.find? (fun c => c.fn == f && !s.ingBlocked c) = some x →
    ∃ t, exec (.ingestStart n k) s = .next t ∧ Sparse.find (t.engine n).slots k = some x
      ∧ (t.engine n).waiting = (s.engine n).waiting.filter (fun d => d.seq != x.seq)
      ∧ t.due (t.round (2 + n)) f = s1.due (s1.round (2 + n)) f - 1
      ∧ SameEntriesBut (s.engine n).slots (t.engine n).slots [k] ∧ SameEntriesBut s.ingest.engines t.ingest.engines [n]
      ∧ OnlyChanges s t [.regs, .ingest, .arbiter] ∧ SameWordsBut s t [(Page.ing n).key 0x00C])

/-- R147, R154, R155, R157: the end of an ingest. A command whose writes are all admitted has written every tile of its region: RES0 counts its tiles
and RES1 the data words of R139 (16 for a TILED tile), its slot is free, its fence released; no byte of DRAM changes but in its buffer's plots, the
owner table and the check areas. A refused write ends it with WORLD_DENIED. A failed host read ends it with HOST_READ_ERROR and captures the
address. A soft reset completes each command of the engine with ABORTED. Where a clause takes a reading of the model: log entry 55. -/
def Obligations.IngestEnd : Prop :=
  (∀ (s : State) (n k : Nat) (host : List (Nat × Byte)) (c : IngCmd) (j : Job), Inv s → n < 4 → Sparse.find (s.engine n).slots k = some c →
      (s.mirrors = true → s.mirrorQueued < 8388608) → s.standby = false → s.hostAnswers (s.ingPort c) = true →
      (s.ingTiles n c host (c.work.drop c.tiles)).2.1 = true → s.awaits c.jid j = true →
    ∃ t, exec (.ingestDone n k host) s = .next t ∧ Sparse.find (t.engine n).slots k = none
      ∧ Posts s t j false 0 
          [c.tiles + (c.work.drop c.tiles).length,
           c.words + ((c.work.drop c.tiles).map fun w => if c.seedbed then (Seedbed.encode w.2.1 (c.tile host w.1 w.2.1 w.2.2.1 w.2.2.2)).words.length else 16).sum]
      ∧ t.ingest.ended = s.ingest.ended + 1 ∧ Sparse.find t.ingest.lastEnd c.buf = some (s.ingest.ended + 1)
      ∧ SameDramBut s t (fun w => s.bufWord c.buf w ∨ s.tableWord c.buf w)
      ∧ OnlyChanges s t [.regs, .mem, .out, .edac, .chans, .bufs, .plots, .cache, .ingest, .faults, .queues, .jobs, .msiPending, .pair])
  ∧ (∀ (s : State) (n k : Nat) (host : List (Nat × Byte)) (c : IngCmd) (j : Job), Inv s → n < 4 → Sparse.find (s.engine n).slots k = some c →
      (s.mirrors = true → s.mirrorQueued < 8388608) → s.standby = false → s.hostAnswers (s.ingPort c) = true →
      (s.ingTiles n c host (c.work.drop c.tiles)).2.1 = false → s.awaits c.jid j = true →
    ∃ t, exec (.ingestDone n k host) s = .next t ∧ Sparse.find (t.engine n).slots k = none
      ∧ (∃ tiles words, Posts s t j false 0x0201 [tiles, words])
      ∧ bit 1 (t.rw ((Page.ing n).key 0x010)) = true ∧ t.fld (.ing n) F.ERR_CODE_CODE ≠ 0
      ∧ OnlyChanges s t [.regs, .mem, .out, .edac, .chans, .bufs, .plots, .cache, .ingest, .faults, .queues, .jobs, .msiPending, .pair])
  ∧ (∀ (s : State) (n k kind addr m : Nat) (host : List (Nat × Byte)) (c : IngCmd) (j : Job), Inv s → n < 4 →
      Sparse.find (s.engine n).slots k = some c → s.standby = false → c.tiles + m < c.work.length →
      (s.ingTiles n c host ((c.work.drop c.tiles).take m)).2.1 = true → s.awaits c.jid j = true → addr < 2 ^ 64 →
    ∃ t, exec (.hostReadError n k kind addr m host) s = .next t ∧ Sparse.find (t.engine n).slots k = none
      ∧ Posts s t j false 0x0702
          [c.tiles + m,
           c.words + (((c.work.drop c.tiles).take m).map fun w => if c.seedbed then (Seedbed.encode w.2.1 (c.tile host w.1 w.2.1 w.2.2.1 w.2.2.2)).words.length else 16).sum]
      ∧ bit 0 (t.rw ((Page.ing n).key 0x010)) = true
      ∧ (s.fld (.ing n) F.ERR_CODE_CODE = 0 → t.fld (.ing n) F.ERR_CODE_CODE = 0x0702
          ∧ t.rw ((Page.ing n).key 0x070) + t.rw ((Page.ing n).key 0x074) * 2 ^ 32 = addr)
      ∧ (s.fld (.ing n) F.ERR_CODE_CODE ≠ 0 → t.rw ((Page.ing n).key 0x070) = s.rw ((Page.ing n).key 0x070)
          ∧ t.rw ((Page.ing n).key 0x074) = s.rw ((Page.ing n).key 0x074))
      ∧ OnlyChanges s t (pieces (.hostReadError n k kind addr m host)))
  ∧ (∀ (s : State) (w : RegWr) (n : Nat), Inv s → n < 4 → s.arrives w (.ing n) = true → w.off % 0x1000 = 0x008 →
      w.val.toNat = 2 + s.fld (.ing n) F.PG_CTRL_ENABLE → s.grants (accOf w (.ing n)) F.PG_CTRL_SOFT_RESET = true →
      s.pageHeld (accOf w (.ing n)) = none → s.pageArmed (Page.ing n).base = false →
    ∃ t, exec (.ingSoftReset w) s = .next t ∧ (t.engine n).waiting = [] ∧ (t.engine n).slots = []
      ∧ (∀ o < 0x1000, 0x040 ≤ o → t.word ((Page.ing n).key o) = (Sparse.find s.loaded ((Page.ing n).key o)).getD (resetWord s.part ((Page.ing n).key o)))
      ∧ SameEntriesBut s.ingest.engines t.ingest.engines [n] ∧ t.display = s.display ∧ t.cvus = s.cvus)
  ∧ (∀ (s : State) (w : RegWr) (n : Nat) (c : IngCmd) (j : Job), Inv s → n < 4 → s.arrives w (.ing n) = true → w.off % 0x1000 = 0x008 →
      w.val.toNat = 2 + s.fld (.ing n) F.PG_CTRL_ENABLE → s.grants (accOf w (.ing n)) F.PG_CTRL_SOFT_RESET = true →
      s.pageHeld (accOf w (.ing n)) = none → s.pageArmed (Page.ing n).base = false → s.engine n = ⟨[c], []⟩ → s.awaits c.jid j = true →
    ∃ t, exec (.ingSoftReset w) s = .next t
      ∧ Posts s t j false 0x0008 [c.tiles, c.words])

/-- R252 to R256, R80: a SCAN that passes every check of R253 is taken into its engine's waiting list with its fences; LENGTH 0 completes at once with
the value of the empty input; a failing check gives its code. An entry whose engine's waiting list is full is not taken up. The engine starts the
oldest command of the function that the weights serve (R124) in its lowest free slot (R150). A scan of secure DRAM whose words are all clean
completes with the check value of those words in address order, and counts them; it ends early with 0x0401 at the first word that is poisoned. Where
a clause takes a reading of the model: log entry 56. -/
def Obligations.ScanCommand : Prop :=
  (∀ (s : State) (c : CmdArgs) (n : Nat), Inv s → s.accepts 0x18 c = true → s.scanFull (c.params.getD 1 0) = false →
      s.scanFault (s.take 0x18 c).1 = none → c.params.getD 4 0 ≠ 0 → s.scanTarget (c.params.getD 1 0) = some n →
    ∃ t, exec (.scan c) s = .next t
      ∧ t.cvu n = { s.cvu n with waiting := (s.cvu n).waiting ++ [s.scanCmd (s.take 0x18 c).1] }
      ∧ t.pool.bufs.used = (s.scanFence (s.scanCmd (s.take 0x18 c).1)).pool.bufs.used
      ∧ SameEntriesBut s.cvus t.cvus [n] ∧ OnlyChanges s t [.regs, .bufs, .cvus, .jobs] ∧ SameWordsBut s t [(Page.cvu n).key 0x00C])
  ∧ (∀ (s : State) (c : CmdArgs), Inv s → s.accepts 0x18 c = true → s.posts c.fn c.q = true → s.scanFull (c.params.getD 1 0) = false →
      s.scanFault (s.take 0x18 c).1 = none → c.params.getD 4 0 = 0 →
    ∃ t, exec (.scan c) s = .next t
      ∧ (let code := Codes.crcOf (bits 1 0 (c.params.getD 1 0))
         let v := code.value (State.foldOf (s.scanCmd (s.take 0x18 c).1) (State.scanFrom (s.take 0x18 c).1)) []
         Completed s t c 0 [v % 2 ^ 32, v / 2 ^ 32, 0, 0])
      ∧ OnlyChanges s t [.out, .queues, .jobs, .msiPending])
  ∧ (∀ (s : State) (c : CmdArgs) (code : Nat), Inv s → s.accepts 0x18 c = true → s.posts c.fn c.q = true →
      s.scanFull (c.params.getD 1 0) = false → s.scanFault (s.take 0x18 c).1 = some code →
    ∃ t, exec (.scan c) s = .next t ∧ Completed s t c code [] ∧ OnlyChanges s t [.out, .queues, .jobs, .msiPending])
  ∧ (∀ (s : State) (c : CmdArgs), s.scanFull (c.params.getD 1 0) = true →
    ∃ t, exec (.scan c) s = .next t ∧ t.hosts.coreEntries = s.hosts.coreEntries ++ (if isCore c.fn then [(0x18, c)] else [])
      ∧ OnlyChanges s t [.coreEntries])
  ∧ (∀ (s s1 : State) (n f k : Nat) (x : CvuCmd), Inv s → n < 4 →
      k < 8 → Sparse.find (s.cvu n).slots k = none →
      s.pickFn (6 + n) ((List.range 256).filter fun g => (s.cvu n).waiting.any fun c => c.fn == g) = (some f, s1) →
      (s.cvu n).waiting.find? (fun c => c.fn == f) = some x →
    ∃ t, exec (.scanStart n k) s = .next t ∧ Sparse.find (t.cvu n).slots k = some x
      ∧ (t.cvu n).waiting = (s.cvu n).waiting.filter (fun d => d.jid != x.jid) ∧ SameEntriesBut (s.cvu n).slots (t.cvu n).slots [k]
      ∧ t.due (t.round (6 + n)) f = s1.due (s1.round (6 + n)) f - 1
      ∧ SameEntriesBut s.cvus t.cvus [n] ∧ OnlyChanges s t [.regs, .cvus, .arbiter] ∧ SameWordsBut s t [(Page.cvu n).key 0x00C])
  ∧ (∀ (s : State) (n k : Nat) (c : CvuCmd) (j : Job) (ws : List Nat), Inv s → n < 4 → Sparse.find (s.cvu n).slots k = some c →
      c.fn = 0x41 → c.addrMode = true → c.result = none → c.len = 16 * ws.length → c.start + c.len ≤ s.installed →
      c.start + c.len ≤ s.watermark → (∀ i < ws.length, s.inCheckArea (c.start + 16 * i) = false
        ∧ s.lookWord (c.start + 16 * i) = .clean (ws.getD i 0)) → s.awaits c.jid j = true →
    ∃ t, exec (.scanDone n k) s = .next t ∧ Sparse.find (t.cvu n).slots k = none
      ∧ (let v := (Codes.crcOf c.poly).value (State.foldOf c c.start) ws
         Posts s t j false 0 [v % 2 ^ 32, v / 2 ^ 32, c.len, 0])
      ∧ t.fld (.cvu n) F.CVU_CMDS_COUNT = (s.fld (.cvu n) F.CVU_CMDS_COUNT + 1) % 2 ^ 32
      ∧ t.fld (.cvu n) F.CVU_BYTES_LO_COUNT_LO + t.fld (.cvu n) F.CVU_BYTES_HI_COUNT_HI * 2 ^ 32
          = (s.fld (.cvu n) F.CVU_BYTES_LO_COUNT_LO + s.fld (.cvu n) F.CVU_BYTES_HI_COUNT_HI * 2 ^ 32 + c.len) % 2 ^ 48
      ∧ OnlyChanges s t [.regs, .out, .cvus, .queues, .jobs, .msiPending]
      ∧ SameWordsBut s t [(Page.cvu n).key 0x00C, (Page.cvu n).key 0x044, (Page.cvu n).key 0x048, (Page.cvu n).key 0x04C])
  ∧ (∀ (s : State) (n k m : Nat) (c : CvuCmd) (j : Job), Inv s → n < 4 → Sparse.find (s.cvu n).slots k = some c →
      c.fn = 0x41 → c.addrMode = true → c.result = none → 16 * m < c.len → c.len % 16 = 0 → c.start + c.len ≤ s.installed →
      c.start + c.len ≤ s.watermark → (∀ i < m, s.inCheckArea (c.start + 16 * i) = false
        ∧ ∃ w, s.lookWord (c.start + 16 * i) = .clean w) → s.inCheckArea (c.start + 16 * m) = false →
      s.lookWord (c.start + 16 * m) = .poisoned → s.awaits c.jid j = true →
    ∃ t, exec (.scanDone n k) s = .next t ∧ Sparse.find (t.cvu n).slots k = none
      ∧ Posts s t j false 0x0401 [0, 0, (c.start + 16 * m) % 2 ^ 32, 0] ∧ bit 0 (t.rw ((Page.cvu n).key 0x010)) = true
      ∧ OnlyChanges s t [.regs, .out, .cvus, .queues, .jobs, .msiPending])

/-- R258 to R261: when the last pixel of an active region has been composed, the region loads LAST and LAST_SEQ with V, the CRC-32C of the packed
entries folded with SCN_SEQ; with COMPARE it decides the match of R259: a match counts and ends the run of mismatches, a mismatch counts, lengthens
the run, sets MISMATCH in the region and in the header, and records 0x0B01. Once in a run, when it has reached LIMIT, the region acts: with ACTION 0
by its event alone, else also by a report of a contained fault of the output. Where a clause takes a reading of the model: log entry 56. -/
def Obligations.CheckRegion : Prop :=
  (∀ (s : State) (n j : Nat), Inv s → n < 8 → j < 16 → s.chkDue n j = true → s.chkFld n j F.CHK_CTRL_COMPARE = 0 →
    ∃ t, exec (.checkRegionFinal n j) s = .next t ∧ RegionLoads s t n j (State.regionValue (s.fld (.scn n) F.SCN_SEQ_SEQ) (s.chkWords n j)) 3
      ∧ OnlyChanges s t [.regs, .display] ∧ SameWordsBut s t (chkBlock n j [0x114, 0x118, 0x11C]))
  ∧ (∀ (s : State) (n j : Nat) (seq val : Nat), Inv s → n < 8 → j < 16 → s.chkDue n j = true → s.chkFld n j F.CHK_CTRL_COMPARE = 1 →
      seq = s.fld (.scn n) F.SCN_SEQ_SEQ → val = State.regionValue seq (s.chkWords n j) →
      val = Nat.xor (s.chkFld n j F.CHK_EXPECT_E0) (State.zeroRegister seq (s.chkWords n j).length) →
    ∃ t, exec (.checkRegionFinal n j) s = .next t ∧ RegionLoads s t n j val 1 ∧ t.fld (.chk n) F.CHK_STAT_RUN [j] = 0
      ∧ t.fld (.chk n) F.CHK_MATCHES_COUNT [j] = min (s.fld (.chk n) F.CHK_MATCHES_COUNT [j] + 1) 0xFFFFFFFF
      ∧ OnlyChanges s t [.regs, .display] ∧ SameWordsBut s t (chkBlock n j [0x114, 0x118, 0x11C, 0x120]))
  ∧ (∀ (s : State) (n j : Nat) (seq val run : Nat), Inv s → n < 8 → j < 16 → s.chkDue n j = true → s.chkFld n j F.CHK_CTRL_COMPARE = 1 →
      seq = s.fld (.scn n) F.SCN_SEQ_SEQ → val = State.regionValue seq (s.chkWords n j) →
      val ≠ Nat.xor (s.chkFld n j F.CHK_EXPECT_E0) (State.zeroRegister seq (s.chkWords n j).length) →
      run = s.fld (.chk n) F.CHK_STAT_RUN [j] → run + 1 < max 1 (s.chkFld n j F.CHK_CTRL_LIMIT) →
    ∃ t, exec (.checkRegionFinal n j) s = .next t ∧ RegionLoads s t n j val 2 ∧ t.fld (.chk n) F.CHK_STAT_RUN [j] = run + 1
      ∧ t.fld (.chk n) F.CHK_MISMATCHES_COUNT [j] = min (s.fld (.chk n) F.CHK_MISMATCHES_COUNT [j] + 1) 0xFFFFFFFF
      ∧ t.fld (.chk n) F.CHK_FIRST_BAD_SEQ [j] = (if run = 0 then seq else s.fld (.chk n) F.CHK_FIRST_BAD_SEQ [j])
      ∧ t.fld (.chk n) F.CHK_EVT_RAW_MISMATCH [j] = 1 ∧ bit 0 (t.rw ((Page.chk n).key 0x010)) = true
      ∧ bit 31 (t.rw ((Page.chk n).key 0x010)) = true
      ∧ (s.fld (.chk n) F.ERR_CODE_CODE = 0 → t.fld (.chk n) F.ERR_CODE_CODE = 0x0B01 ∧ t.rw ((Page.chk n).key 0x024) = j)
      ∧ OnlyChanges s t [.regs, .out, .display, .msiPending]
      ∧ SameWordsBut s t (chkBlock n j [0x114, 0x118, 0x11C, 0x124, 0x128, 0x12C] ++ errWords (.chk n)))
  ∧ (∀ (s : State) (n j : Nat) (seq val run : Nat), Inv s → n < 8 → j < 16 → s.chkDue n j = true → s.chkFld n j F.CHK_CTRL_COMPARE = 1 →
      seq = s.fld (.scn n) F.SCN_SEQ_SEQ → val = State.regionValue seq (s.chkWords n j) →
      val ≠ Nat.xor (s.chkFld n j F.CHK_EXPECT_E0) (State.zeroRegister seq (s.chkWords n j).length) →
      run = s.fld (.chk n) F.CHK_STAT_RUN [j] → max 1 (s.chkFld n j F.CHK_CTRL_LIMIT) ≤ satAdd 8 run 1 →
      run = 0 ∨ s.display.acted.contains (n * 16 + j) = false → s.chkFld n j F.CHK_CTRL_ACTION = 0 →
    ∃ t, exec (.checkRegionFinal n j) s = .next t ∧ RegionLoads s t n j val 2 ∧ t.fld (.chk n) F.CHK_STAT_RUN [j] = satAdd 8 run 1
      ∧ t.fld (.chk n) F.CHK_EVT_RAW_ACTED [j] = 1 ∧ t.display.acted.contains (n * 16 + j) = true ∧ OnlyChanges s t [.regs, .out, .display, .msiPending]
      ∧ SameWordsBut s t (chkBlock n j [0x114, 0x118, 0x11C, 0x124, 0x128, 0x12C] ++ errWords (.chk n)))
  ∧ (∀ (s : State) (n j : Nat) (seq val run : Nat), Inv s → n < 8 → j < 16 → s.chkDue n j = true → s.chkFld n j F.CHK_CTRL_COMPARE = 1 →
      seq = s.fld (.scn n) F.SCN_SEQ_SEQ → val = State.regionValue seq (s.chkWords n j) →
      val ≠ Nat.xor (s.chkFld n j F.CHK_EXPECT_E0) (State.zeroRegister seq (s.chkWords n j).length) →
      run = s.fld (.chk n) F.CHK_STAT_RUN [j] → max 1 (s.chkFld n j F.CHK_CTRL_LIMIT) ≤ satAdd 8 run 1 →
      run = 0 ∨ s.display.acted.contains (n * 16 + j) = false → s.chkFld n j F.CHK_CTRL_ACTION ≠ 0 →
    ∃ t, exec (.checkRegionFinal n j) s = .next t ∧ RegionLoads s t n j val 2 ∧ t.fld (.chk n) F.CHK_STAT_RUN [j] = satAdd 8 run 1
      ∧ t.fld (.chk n) F.CHK_EVT_RAW_ACTED [j] = 1 ∧ t.display.acted.contains (n * 16 + j) = true
      ∧ t.fld .sys F.SYS_FAULT_CNT_CONTAINED = satAdd 16 (s.fld .sys F.SYS_FAULT_CNT_CONTAINED) 1
      ∧ (bit n (s.fld .sys F.SYS_CONTAIN_OUT_STOP) = true → n ∈ t.faults.containStop)
      ∧ OnlyChanges s t (pieces (.checkRegionFinal n j)))
  ∧ (∀ (s : State) (n j : Nat) (seq val run : Nat), Inv s → n < 8 → j < 16 → s.chkDue n j = true → s.chkFld n j F.CHK_CTRL_COMPARE = 1 →
      seq = s.fld (.scn n) F.SCN_SEQ_SEQ → val = State.regionValue seq (s.chkWords n j) →
      val ≠ Nat.xor (s.chkFld n j F.CHK_EXPECT_E0) (State.zeroRegister seq (s.chkWords n j).length) →
      run = s.fld (.chk n) F.CHK_STAT_RUN [j] → run ≠ 0 → s.display.acted.contains (n * 16 + j) = true →
    ∃ t, exec (.checkRegionFinal n j) s = .next t ∧ RegionLoads s t n j val 2 ∧ t.fld (.chk n) F.CHK_STAT_RUN [j] = satAdd 8 run 1
      ∧ t.fld (.chk n) F.CHK_EVT_RAW_ACTED [j] = s.fld (.chk n) F.CHK_EVT_RAW_ACTED [j] ∧ t.display.acted = s.display.acted
      ∧ OnlyChanges s t [.regs, .out, .display, .msiPending]
      ∧ SameWordsBut s t (chkBlock n j [0x114, 0x118, 0x11C, 0x124, 0x128, 0x12C] ++ errWords (.chk n)))

/-- R185, R187: a write of a data register of a LUT or of the scaler table sets the shadow entry that its address register names, and a read returns it;
either advances the address: INDEX from 1023 to 0 with CHANNEL kept, HALF, then PHASE from 63 to 0. -/
def Obligations.TableAccess : Prop :=
  (∀ (s : State) (w : RegWr) (n : Nat), Inv s → n < 8 → s.arrives w (.pipe n) = true → w.off % 0x1000 = 0x064 →
      s.secretPage (accOf w (.pipe n)) = false →
    ∃ t, exec (.pipeLutDataAccess w false) s = .next t
      ∧ (let k := bankKey ((Page.pipe n).key 0x064) (s.fld (.pipe n) F.PIPE_LUT_ADDR_CHANNEL * 1024 + s.fld (.pipe n) F.PIPE_LUT_ADDR_INDEX)
         t.sw k = w.val.toNat % 65536 ∧ SameShadowsBut s t [k])
      ∧ t.fld (.pipe n) F.PIPE_LUT_ADDR_INDEX = (s.fld (.pipe n) F.PIPE_LUT_ADDR_INDEX + 1) % 1024
      ∧ t.fld (.pipe n) F.PIPE_LUT_ADDR_CHANNEL = s.fld (.pipe n) F.PIPE_LUT_ADDR_CHANNEL
      ∧ OnlyChanges s t [.regs, .shad] ∧ SameWordsBut s t [(Page.pipe n).key 0x060])
  ∧ (∀ (s : State) (w : RegWr) (n : Nat), Inv s → n < 8 → s.readReaches ⟨w.req, w.win, w.off⟩ (.pipe n) = true → w.off % 0x1000 = 0x064 →
      s.secretPage (rdOf ⟨w.req, w.win, w.off⟩ (.pipe n)) = false →
    ∃ t, exec (.pipeLutDataAccess w true) s = .next t
      ∧ t.out = s.out ++ [.readData w.req.fn
          (BitVec.ofNat 32 (s.sw (bankKey ((Page.pipe n).key 0x064) (s.fld (.pipe n) F.PIPE_LUT_ADDR_CHANNEL * 1024 + s.fld (.pipe n) F.PIPE_LUT_ADDR_INDEX))))]
      ∧ t.fld (.pipe n) F.PIPE_LUT_ADDR_INDEX = (s.fld (.pipe n) F.PIPE_LUT_ADDR_INDEX + 1) % 1024
      ∧ OnlyChanges s t [.regs, .out] ∧ SameWordsBut s t [(Page.pipe n).key 0x060])
  ∧ (∀ (s : State) (w : RegWr) (n : Nat), Inv s → n < 8 → s.arrives w (.pipe n) = true → w.off % 0x1000 = 0x06C →
      s.secretPage (accOf w (.pipe n)) = false →
    ∃ t, exec (.pipeSclDataAccess w false) s = .next t
      ∧ (let h := s.fld (.pipe n) F.PIPE_SCL_ADDR_HALF
         let p := s.fld (.pipe n) F.PIPE_SCL_ADDR_PHASE
         let k := bankKey ((Page.pipe n).key 0x06C)
           (s.fld (.pipe n) F.PIPE_SCL_ADDR_SCALER * 256 + s.fld (.pipe n) F.PIPE_SCL_ADDR_DIR * 128 + p * 2 + h)
         t.sw k = w.val.toNat ∧ SameShadowsBut s t [k] ∧ t.fld (.pipe n) F.PIPE_SCL_ADDR_HALF = 1 - h
           ∧ t.fld (.pipe n) F.PIPE_SCL_ADDR_PHASE = (p + h) % 64)
      ∧ t.fld (.pipe n) F.PIPE_SCL_ADDR_SCALER = s.fld (.pipe n) F.PIPE_SCL_ADDR_SCALER
      ∧ t.fld (.pipe n) F.PIPE_SCL_ADDR_DIR = s.fld (.pipe n) F.PIPE_SCL_ADDR_DIR
      ∧ OnlyChanges s t [.regs, .shad] ∧ SameWordsBut s t [(Page.pipe n).key 0x068])
  ∧ (∀ (s : State) (w : RegWr) (n k : Nat), Inv s → n < 8 → k < 16 → s.arrives w (.slot n k) = true → w.off % 0x1000 = 0x0C4 →
      s.secretPage (accOf w (.slot n k)) = false →
    ∃ t, exec (.slotLutDataAccess w false) s = .next t
      ∧ (let b := bankKey ((Page.slot n k).key 0x0C4) (s.fld (.slot n k) F.SLOT_LUT_ADDR_INDEX)
         t.sw b = w.val.toNat % 65536 ∧ SameShadowsBut s t [b])
      ∧ t.fld (.slot n k) F.SLOT_LUT_ADDR_INDEX = (s.fld (.slot n k) F.SLOT_LUT_ADDR_INDEX + 1) % 1024
      ∧ OnlyChanges s t [.regs, .shad] ∧ SameWordsBut s t [(Page.slot n k).key 0x0C0])

/-- R194 to R197: a COMMIT is refused with 0x0006 for a reserved bit or a target that cannot be, 0x0002 when nothing changes, 0x0303 for a page that a
commit holds, with the page recorded. One that passes every check is armed behind the earlier ones with its changed words and page set, and
completes DEFERRED with the number of changed words; no register changes. An armed commit that no acknowledgement reaches within 2 ms is dropped and
completes COMMIT_ABANDONED (R200). Where a clause takes a reading of the model: log entries 10 to 12, 96 and 97. -/
def Obligations.CommitArming : Prop :=
  (∀ (s : State) (c : CmdArgs), Inv s → s.accepts 0x20 c = true → s.posts c.fn c.q = true → s.commitParams c = false →
    ∃ t, exec (.commit c) s = .next t ∧ Completed s t c 0x0006 [0] ∧ OnlyChanges s t [.out, .queues, .jobs, .msiPending])
  ∧ (∀ (s : State) (c : CmdArgs), Inv s → s.accepts 0x20 c = true → s.posts c.fn c.q = true → s.commitParams c = true → s.commitWords c = [] →
    ∃ t, exec (.commit c) s = .next t ∧ Completed s t c 0x0002 [0] ∧ OnlyChanges s t [.out, .queues, .jobs, .msiPending])
  ∧ (∀ (s : State) (c : CmdArgs) (m : Nat) (pg : Page), Inv s → s.accepts 0x20 c = true → s.posts c.fn c.q = true → s.commitParams c = true →
      s.commitWords c ≠ [] → (s.commitSet c).find? (fun m => s.display.commits.any fun d => d.pages.contains m) = some m →
      pageOf (m / 0x1000 * 0x1000) = some pg →
    ∃ t, exec (.commit c) s = .next t ∧ Completed s t c 0x0303 [pg.base]
      ∧ (s.fld pg F.ERR_CODE_CODE = 0 → t.fld pg F.ERR_CODE_CODE = 0x0303
          ∧ t.rw (pg.key 0x024) = ((commitGroup c) + c.fn * 2 ^ 8 + c.cid % 256 * 2 ^ 16) % 2 ^ 32)
      ∧ OnlyChanges s t [.regs, .out, .queues, .jobs, .msiPending] ∧ SameWordsBut s t (errWords pg))
  ∧ (∀ (s : State) (c : CmdArgs) (hand : Option (List Nat)), Inv s → s.accepts 0x20 c = true → s.posts c.fn c.q = true → s.commitParams c = true →
      s.commitWords c ≠ [] → (s.commitWords c).length ≤ 8192 → (s.leadOf (commitGroup c)).isSome = true → s.commitsQuiet = true → s.mirrors = false →
      s.power.state ≠ .idle → ((s.commitSet c).all fun m => s.display.commits.all fun d => !d.pages.contains m) = true →
      (s.display.commits.filter fun d => d.group == (commitGroup c) && d.release.isNone && !d.posted).length < 8 →
      ((s.groupOutputs (commitGroup c)).all fun n => (s.commitWords c).all fun e =>
        decide (e.1 < (Page.scn n).key 0x040) || decide ((Page.scn n).key 0x058 ≤ e.1)) = true →
      s.slotChecks (s.armedView (s.commitWords c)) (s.groupOutputs (commitGroup c)) (s.commitSet c) c.fn = none →
      s.reserveCheck ⟨s.groupOutputs (commitGroup c), s.nextView.armedView (s.commitWords c),
        fun i => (s.commitSet c).contains (Page.slot (i / 16) (i % 16)).base⟩ = .ok hand →
      (bit 8 (c.params.getD 0 0) = true → s.targetFault (commitGroup c) (c.params.getD 1 0) = none) →
    ∃ t, exec (.commit c) s = .next t
      ∧ t.display = { s.display with commits := s.display.commits ++ [{
          cno := s.pair.nextRec, jid := some s.hosts.nextJid, cid := c.cid, fn := c.fn, group := commitGroup c
          target := if bit 8 (c.params.getD 0 0) then some (c.params.getD 1 0) else none
          entries := s.commitWords c, pages := s.commitSet c, stage := .waiting, frame := 0, todo := [], posted := false
          handover := hand, release := none, sentAt := s.now, silent := false }] }
      ∧ t.pair = { s.pair with nextRec := (s.pair.nextRec + 1) % 2 ^ 32 }
      ∧ Completed s t c 1 [(s.commitWords c).length] ∧ OnlyChanges s t [.out, .display, .queues, .jobs, .msiPending, .pair])
  ∧ (∀ (s : State) (c : Commit) (jid : Nat) (j : Job), Inv s → s.display.commits = [c] → c.stage = .sent → c.jid = some jid →
      c.silent = false → c.posted = false → s.owes jid j = true → s.display.waitingRelease = [] →
    ∃ t, exec (.commitAckTimeout c.cno) s = .next t ∧ Posts s t j true 0x0304 [0]
      ∧ t.display = { s.display with commits := [] } ∧ OnlyChanges s t [.out, .display, .queues, .jobs, .msiPending, .pair])

/-- R192, R198 to R200: at the apply line of its lead output a ready commit whose buffers still stand is APPLYING for the next frame; its target frame
makes it wait, and a target that has passed drops it with COMMIT_LATE; a buffer that has gone drops it with the code of R65 and the page. No shadow
and no active register of the outputs changes. Where a clause takes a reading of the model: log entries 10 to 13 and 90. -/
def Obligations.ApplyLine : Prop :=
  (∀ (s : State) (n : Nat) (c : Commit), Inv s → n < 8 → s.atApplyLine n = true → s.leadOf (s.groupOf n) = some n →
      Sparse.find s.display.applySeen n ≠ some ((s.fld (.scn n) F.SCN_SEQ_SEQ + 1) % 2 ^ 32) → s.display.commits = [c] → s.display.waitingRelease = [] → c.group = s.groupOf n → c.stage = .waiting → c.release = none →
      (∀ x, c.target = some x → x = (s.fld (.scn n) F.SCN_SEQ_SEQ + 1) % 2 ^ 32) → c.entries.length ≤ 8192 →
      s.namesCheck (s.armedView c.entries) (s.groupOutputs c.group) c.pages c.fn = none →
    ∃ t, exec (.applyLine n) s = .next t
      ∧ t.display.commits = [{ c with stage := .applying, frame := (s.fld (.scn n) F.SCN_SEQ_SEQ + 1) % 2 ^ 32, todo := s.groupOutputs c.group }]
      ∧ OnlyChanges s t (pieces (.applyLine n)))
  ∧ (∀ (s : State) (n x : Nat) (c : Commit), Inv s → n < 8 → s.atApplyLine n = true → s.leadOf (s.groupOf n) = some n →
      Sparse.find s.display.applySeen n ≠ some ((s.fld (.scn n) F.SCN_SEQ_SEQ + 1) % 2 ^ 32) → s.display.commits = [c] → s.display.waitingRelease = [] → c.group = s.groupOf n → c.stage = .waiting → c.target = some x →
      0 < (x + 2 ^ 32 - (s.fld (.scn n) F.SCN_SEQ_SEQ + 1) % 2 ^ 32) % 2 ^ 32 →
      (x + 2 ^ 32 - (s.fld (.scn n) F.SCN_SEQ_SEQ + 1) % 2 ^ 32) % 2 ^ 32 < 2 ^ 31 → x < 2 ^ 32 →
    ∃ t, exec (.applyLine n) s = .next t ∧ t.display.commits = [c] ∧ OnlyChanges s t [.display])
  ∧ (∀ (s : State) (n x jid : Nat) (c : Commit) (j : Job), Inv s → n < 8 → s.atApplyLine n = true → s.leadOf (s.groupOf n) = some n →
      Sparse.find s.display.applySeen n ≠ some ((s.fld (.scn n) F.SCN_SEQ_SEQ + 1) % 2 ^ 32) → s.display.commits = [c] → s.display.waitingRelease = [] → c.group = s.groupOf n → c.stage = .waiting → c.target = some x →
      2 ^ 31 ≤ (x + 2 ^ 32 - (s.fld (.scn n) F.SCN_SEQ_SEQ + 1) % 2 ^ 32) % 2 ^ 32 → c.jid = some jid → c.silent = false →
      c.posted = false → s.owes jid j = true →
    ∃ t, exec (.applyLine n) s = .next t ∧ t.display.commits = [] ∧ Posts s t j true 0x0302 [0]
      ∧ OnlyChanges s t [.out, .display, .queues, .jobs, .msiPending, .pair])
  ∧ (∀ (s : State) (n jid code : Nat) (pg : Page) (c : Commit) (j : Job), Inv s → n < 8 → s.atApplyLine n = true →
      s.leadOf (s.groupOf n) = some n → Sparse.find s.display.applySeen n ≠ some ((s.fld (.scn n) F.SCN_SEQ_SEQ + 1) % 2 ^ 32) →
      s.display.commits = [c] → s.display.waitingRelease = [] → c.group = s.groupOf n →
      c.stage = .waiting → c.release = none → c.target = none → c.entries.length ≤ 8192 →
      s.namesCheck (s.armedView c.entries) (s.groupOutputs c.group) c.pages c.fn = some (pg, code) → c.jid = some jid →
      c.silent = false → c.posted = false → s.owes jid j = true →
    ∃ t, exec (.applyLine n) s = .next t ∧ t.display.commits = [] ∧ Posts s t j true code [pg.base]
      ∧ (s.fld pg F.ERR_CODE_CODE = 0 → t.fld pg F.ERR_CODE_CODE = code % 2 ^ 16
          ∧ t.rw (pg.key 0x024) = (c.group + c.fn * 2 ^ 8 + c.cid % 256 * 2 ^ 16) % 2 ^ 32)
      ∧ OnlyChanges s t [.regs, .out, .display, .queues, .jobs, .msiPending, .pair] ∧ SameWordsBut s t (errWords pg))

/-- R191, R219, R160, R217: a frame that ends with scan-out going on sets FRAME_DONE and takes the latch point of the next frame: SCN_SEQ rises by one,
an APPLYING commit's armed words stand in the latched copy and its final completion carries its frame and word count. A requested stop ends scan-out
instead: ENABLED falls and STOPPED is set. -/
def Obligations.FrameBoundary : Prop :=
  (∀ (s : State) (n : Nat), Inv s → n < 8 → s.frameEnds n = true → (s.disp n).stopping = false →
      (s.frameResults n).faults.containStop.contains n = false → s.entering 1 = false → Sparse.find s.faults.early n = none →
      s.display.commits = [] → s.display.waitingRelease = [] → s.pair.latched = [] →
    ∃ t, exec (.frameDone n) s = .next t ∧ bit 0 (t.rw ((Page.scn n).key 0x010)) = true
      ∧ t.fld (.scn n) F.SCN_SEQ_SEQ = (s.fld (.scn n) F.SCN_SEQ_SEQ + 1) % 2 ^ 32 ∧ (t.disp n).running = true ∧ (t.disp n).lines = []
      ∧ t.fld (.scn n) F.SCN_SHED_SPANS_COUNT = (s.disp n).shedSpans % 2 ^ 32
      ∧ t.fld (.scn n) F.SCN_UNDERRUN_SPANS_COUNT = (s.disp n).underruns % 2 ^ 32
      ∧ t.fld (.pipe n) F.PIPE_FRAMES_COUNT = (s.fld (.pipe n) F.PIPE_FRAMES_COUNT + 1) % 2 ^ 32
      ∧ OnlyChanges s t (pieces (.frameDone n)))
  ∧ (∀ (s : State) (n jid : Nat) (c : Commit) (j : Job), Inv s → n < 8 → s.frameEnds n = true → (s.disp n).stopping = false →
      (s.frameResults n).faults.containStop.contains n = false → s.entering 1 = false → Sparse.find s.faults.early n = none →
      s.display.commits = [c] → s.display.waitingRelease = [] → s.pair.latched = [] →
      c.stage = .applying → c.todo = [n] → c.frame = (s.fld (.scn n) F.SCN_SEQ_SEQ + 1) % 2 ^ 32 → c.jid = some jid → c.silent = false → c.posted = false → c.release = none →
      s.owes jid j = true → (c.entries.map Prod.fst).Nodup →
      (∀ e ∈ c.entries, State.outputKey n e.1 = true ∧ State.outputOf (State.memberOf e.1) = n ∧ e.1 ≠ (Page.scn n).key F.SCN_SEQ_SEQ.off) →
    ∃ t, exec (.frameDone n) s = .next t ∧ Posts s t j true 0 [c.frame, c.entries.length % 65536 + b2n c.handover.isSome * 65536]
      ∧ t.display.commits = [] ∧ (∀ e ∈ c.entries, Sparse.get (resetWord s.part) (t.disp n).frame e.1 = BitVec.ofNat 32 e.2)
      ∧ OnlyChanges s t (pieces (.frameDone n)))
  ∧ (∀ (s : State) (n : Nat), Inv s → n < 8 → s.frameEnds n = true → (s.disp n).stopping = true →
      (s.frameResults n).faults.containStop.contains n = false → s.entering 1 = false →
      s.display.commits = [] → s.display.waitingRelease = [] → s.pair.latched = [] →
    ∃ t, exec (.frameDone n) s = .next t ∧ bit 0 (t.rw ((Page.scn n).key 0x010)) = true ∧ bit 11 (t.rw ((Page.scn n).key 0x010)) = true
      ∧ (t.disp n).running = false ∧ (t.disp n).stopping = false ∧ t.fld (.scn n) F.PG_STAT_ENABLED = 0
      ∧ t.fld (.scn n) F.SCN_SEQ_SEQ = s.fld (.scn n) F.SCN_SEQ_SEQ
      ∧ OnlyChanges s t (pieces (.frameDone n)))

/-- R216, R217, R46: a write of 1 to SCNn ENABLE copies the disruptive fields from their shadows and, when the checks pass, makes the output ready to
start with its PLL locked; a failing check leaves ENABLE 0 and records its code. The counter starts at the first headland line with SCN_SEQ_INIT as
the latch point of the first frame. A write of 0 in the active area asks for a stop at FRAME_DONE, in the headland it stops at once, and an output
that has not started does not start; a write of 1 while a stop is pending lets a start follow the stop (log entry 94). A soft reset stops at once
and returns the page to its reset values. A genlocked start waits for its alignment (R223); an output that a contained fault stopped refuses the
start with 0x1302 (R472). -/
def Obligations.ScanOutControl : Prop :=
  (∀ (s : State) (w : RegWr) (n : Nat), Inv s → n < 8 → s.ctrlGranted w (.scn n) F.PG_CTRL_ENABLE 1 = true → s.fld (.scn n) F.PG_CTRL_ENABLE = 0 →
      (s.disp n).running = false → s.faults.stopped.contains (Page.scn n).base = false → (s.copiedTiming n).startFault n = none →
    ∃ t, exec (.scanOutStart w) s = .next t ∧ (t.disp n).starting = true ∧ (t.disp n).running = false ∧ t.fld (.scn n) F.PG_CTRL_ENABLE = 1
      ∧ t.fld (.scn n) F.SCN_BS_PLL_LOCKED = 1 ∧ (∀ i < 6, t.rw ((Page.scn n).key (0x040 + 4 * i)) = s.sw ((Page.scn n).key (0x040 + 4 * i)))
      ∧ t.power = { s.power with ranOutputs := s.power.ranOutputs.filter (· != n) }
      ∧ SameEntriesBut s.display.disps t.display.disps [n] ∧ OnlyChanges s t [.regs, .display, .power, .pair]
      ∧ SameWordsBut s t ([0x008, 0x00C, 0x040, 0x044, 0x048, 0x04C, 0x050, 0x054].map (Page.scn n).key))
  ∧ (∀ (s : State) (w : RegWr) (n code info : Nat), Inv s → n < 8 → s.ctrlGranted w (.scn n) F.PG_CTRL_ENABLE 1 = true →
      s.fld (.scn n) F.PG_CTRL_ENABLE = 0 → (s.disp n).running = false → s.faults.stopped.contains (Page.scn n).base = false →
      (s.copiedTiming n).startFault n = some (code, info) → s.fld (.scn n) F.ERR_CODE_CODE = 0 →
    ∃ t, exec (.scanOutStart w) s = .next t ∧ t.display = s.display ∧ t.fld (.scn n) F.PG_CTRL_ENABLE = 0
      ∧ t.fld (.scn n) F.ERR_CODE_CODE = code ∧ bit 31 (t.rw ((Page.scn n).key 0x010)) = true
      ∧ t.rw ((Page.scn n).key 0x024) = info ∧ OnlyChanges s t [.regs, .out, .power, .msiPending])
  ∧ (∀ (s : State) (w : RegWr) (n : Nat), Inv s → n < 8 → s.ctrlGranted w (.scn n) F.PG_CTRL_ENABLE 1 = true → s.fld (.scn n) F.PG_CTRL_ENABLE = 0 →
      s.faults.stopped.contains (Page.scn n).base = true →
    ∃ t, exec (.scanOutStart w) s = .next t ∧ Records s t (.scn n) 0x1302 (accOf w (.scn n)).info
      ∧ OnlyChanges s t [.regs, .out, .msiPending] ∧ SameWordsBut s t (errWords (.scn n)))
  ∧ (∀ (s : State) (w : RegWr) (n : Nat), Inv s → n < 8 → s.ctrlGranted w (.scn n) F.PG_CTRL_ENABLE 1 = true → s.fld (.scn n) F.PG_CTRL_ENABLE = 0 →
      s.faults.stopped.contains (Page.scn n).base = false → (s.disp n).running = true →
    ∃ t, exec (.scanOutStart w) s = .next t ∧ t.disp n = { s.disp n with again := (s.disp n).stopping } ∧ t.fld (.scn n) F.PG_CTRL_ENABLE = 1
      ∧ SameEntriesBut s.display.disps t.display.disps [n] ∧ OnlyChanges s t [.regs, .display, .pair] ∧ SameWordsBut s t [(Page.scn n).key 0x008])
  ∧ (∀ (s : State) (n : Nat), s.aligned n = false → exec (.scanOutCounterStart n) s = .next s)
  ∧ (∀ (s : State) (n : Nat), Inv s → n < 8 → (s.disp n).starting = true → s.power.state ≠ .fallow → s.power.state ≠ .holdup → s.aligned n = true →
      s.display.commits = [] → s.display.waitingRelease = [] → Sparse.find s.faults.early n = none →
    ∃ t, exec (.scanOutCounterStart n) s = .next t ∧ (t.disp n).running = true ∧ (t.disp n).starting = false
      ∧ (t.disp n).line = (s.timing n).va ∧ t.fld (.scn n) F.SCN_SEQ_SEQ
          = (if (s.disp n).resumed then (s.fld (.scn n) F.SCN_SEQ_SEQ + 1) % 2 ^ 32 else s.fld (.scn n) F.SCN_SEQ_INIT_SEQ)
      ∧ t.fld (.scn n) F.PG_STAT_ENABLED = 1 ∧ t.fld (.scn n) F.SCN_POS_LINE = (s.timing n).va ∧ t.fld (.scn n) F.SCN_BS_IN_HEADLAND = 1
      ∧ OnlyChanges s t (pieces (.scanOutCounterStart n)))
  ∧ (∀ (s : State) (w : RegWr) (n : Nat), Inv s → n < 8 → s.ctrlGranted w (.scn n) F.PG_CTRL_ENABLE 0 = true → s.fld (.scn n) F.PG_CTRL_ENABLE = 1 →
      (s.disp n).running = true → (s.disp n).line < (s.timing n).va →
    ∃ t, exec (.scanOutStopRequest w) s = .next t ∧ t.disp n = { s.disp n with stopping := true, again := false } ∧ t.fld (.scn n) F.PG_CTRL_ENABLE = 0
      ∧ SameEntriesBut s.display.disps t.display.disps [n] ∧ OnlyChanges s t [.regs, .display, .pair] ∧ SameWordsBut s t [(Page.scn n).key 0x008])
  ∧ (∀ (s : State) (w : RegWr) (n : Nat), Inv s → n < 8 → s.ctrlGranted w (.scn n) F.PG_CTRL_ENABLE 0 = true → s.fld (.scn n) F.PG_CTRL_ENABLE = 1 →
      (s.disp n).running = false →
    ∃ t, exec (.scanOutStopRequest w) s = .next t ∧ t.disp n = { s.disp n with starting := false, resumed := false, again := false }
      ∧ t.fld (.scn n) F.PG_CTRL_ENABLE = 0 ∧ t.power = { s.power with ranOutputs := s.power.ranOutputs.filter (· != n) }
      ∧ SameEntriesBut s.display.disps t.display.disps [n] ∧ OnlyChanges s t [.regs, .display, .power, .pair] ∧ SameWordsBut s t [(Page.scn n).key 0x008])
  ∧ (∀ (s : State) (w : RegWr) (n : Nat), Inv s → n < 8 → s.ctrlGranted w (.scn n) F.PG_CTRL_ENABLE 0 = true → s.fld (.scn n) F.PG_CTRL_ENABLE = 1 →
      (s.disp n).running = true → (s.timing n).va ≤ (s.disp n).line → s.display.commits = [] → s.display.waitingRelease = [] →
    ∃ t, exec (.scanOutStopRequest w) s = .next t ∧ (t.disp n).running = false ∧ t.fld (.scn n) F.PG_CTRL_ENABLE = 0
      ∧ t.fld (.scn n) F.PG_STAT_ENABLED = 0 ∧ bit 11 (t.rw ((Page.scn n).key 0x010)) = true
      ∧ OnlyChanges s t (pieces (.scanOutStopRequest w)))
  ∧ (∀ (s : State) (w : RegWr) (n : Nat), Inv s → n < 8 →
      s.ctrlGranted w (.scn n) F.PG_CTRL_SOFT_RESET (2 + s.fld (.scn n) F.PG_CTRL_ENABLE) = true →
      s.pageArmed (Page.scn n).base = false → s.display.commits = [] → s.display.waitingRelease = [] →
    ∃ t, exec (.scnSoftReset w) s = .next t ∧ (t.disp n).running = false ∧ WordsReset s t (.scn n) ∧ (Sparse.find s.loaded ((Page.scn n).key 0x010) = none → t.rw ((Page.scn n).key 0x010) = 0)
      ∧ t.rw ((Page.scn n).key 0x014) = s.rw ((Page.scn n).key 0x014) ∧ OnlyChanges s t (pieces (.scnSoftReset w)))

/-- R219, R218, R224: at clock 0 of a line the counter advances through the frame's lines and SCN_POS and IN_HEADLAND follow; its line events set their
bit in the running output at their line only; an Adaptive-Sync decision lets the output proceed when a commit of its group is ready or the frame has
reached VTOTAL_MAX, and otherwise adds a line. -/
def Obligations.ScanOutCounter : Prop :=
  (∀ (s : State) (n : Nat) (phase : Int) (m : Monitor), Inv s → n < 8 → (s.disp n).running = true →
    ∃ t, exec (.scanLineStart n phase m) s = .next t
      ∧ (t.disp n).line = (if (s.disp n).line + 1 < totalLines (s.timing n) (s.disp n) then (s.disp n).line + 1 else 0)
      ∧ t.fld (.scn n) F.SCN_POS_LINE = (t.disp n).line % 2 ^ 13
      ∧ t.fld (.scn n) F.SCN_BS_IN_HEADLAND = b2n (decide ((s.timing n).va ≤ (t.disp n).line)) ∧ (t.disp n).lines = (s.disp n).lines
      ∧ OnlyChanges s t (pieces (.scanLineStart n phase m)))
  ∧ (∀ (s : State) (n : Nat), Inv s → n < 8 → (s.disp n).running = true → (s.disp n).fresh = false →
      (s.disp n).line = (s.timing n).va →
    ∃ t, exec (.headlandStart n) s = .next t ∧ t.word ((Page.scn n).key 0x010) = s.word ((Page.scn n).key 0x010) ||| 2#32
      ∧ OnlyChanges s t [.regs, .out, .msiPending] ∧ SameWordsBut s t [(Page.scn n).key 0x010])
  ∧ (∀ (s : State) (n : Nat), Inv s → n < 8 → (s.disp n).running = true → (s.disp n).fresh = false →
      (s.disp n).line = (s.timing n).va + (s.timing n).vfp + (s.disp n).added →
    ∃ t, exec (.vsync n) s = .next t ∧ t.word ((Page.scn n).key 0x010) = s.word ((Page.scn n).key 0x010) ||| 4#32
      ∧ OnlyChanges s t [.regs, .out, .msiPending] ∧ SameWordsBut s t [(Page.scn n).key 0x010])
  ∧ (∀ (s : State) (n : Nat), Inv s → n < 8 → (s.disp n).running = true → (s.disp n).fresh = false →
      (s.disp n).line + 1 = totalLines (s.timing n) (s.disp n) →
    ∃ t, exec (.headlandEnd n) s = .next t ∧ t.word ((Page.scn n).key 0x010) = s.word ((Page.scn n).key 0x010) ||| 8#32
      ∧ OnlyChanges s t [.regs, .out, .msiPending] ∧ SameWordsBut s t [(Page.scn n).key 0x010])
  ∧ (∀ (s : State) (n i : Nat) (en line : Fld), Inv s → n < 8 → (i, en, line) ∈ [(0, F.SCN_LM0_EN, F.SCN_LM0_LINE), (1, F.SCN_LM1_EN, F.SCN_LM1_LINE)] →
      (s.disp n).running = true → (s.disp n).fresh = false → s.fld (.scn n) en = 1 → s.fld (.scn n) line = (s.disp n).line →
    ∃ t, exec (.lineMatch n i) s = .next t ∧ bit (4 + i) (t.rw ((Page.scn n).key 0x010)) = true
      ∧ (∀ b, b ≠ 4 + i → bit b (t.rw ((Page.scn n).key 0x010)) = bit b (s.rw ((Page.scn n).key 0x010)))
      ∧ OnlyChanges s t [.regs, .out, .msiPending] ∧ SameWordsBut s t [(Page.scn n).key 0x010])
  ∧ (∀ (s : State) (n : Nat), (s.disp n).running = false →
      exec (.headlandStart n) s = .next s ∧ exec (.vsync n) s = .next s ∧ exec (.headlandEnd n) s = .next s ∧ exec (.vrrDecision n) s = .next s
        ∧ exec (.lineMatch n 0) s = .next s ∧ exec (.lineMatch n 1) s = .next s)
  ∧ (∀ (s : State) (n : Nat) (go : Bool), Inv s → n < 8 → (s.disp n).running = true → (s.timing n).vrr = true → (s.disp n).proceeded = false →
      (s.disp n).line + 1 = (s.timing n).va + (s.timing n).vfp + (s.disp n).added → s.standby = false →
      ((State.genlockOf (s.disp n)).1 = true → (State.genlockOf (s.disp n)).2.1 ≠ 8) →
      go = ((s.disp n).applied || (s.display.commits.any fun c => c.group == s.groupOf n && c.stage == .waiting)
        || decide ((s.timing n).vmax ≤ totalLines (s.timing n) (s.disp n))) →
    ∃ t, exec (.vrrDecision n) s = .next t
      ∧ t.disp n = (if go then { s.disp n with proceeded := true } else { s.disp n with added := (s.disp n).added + 1 })
      ∧ t.fld (.scn n) F.SCN_BS_VRR_WAIT = b2n (!go) ∧ SameEntriesBut s.display.disps t.display.disps [n]
      ∧ OnlyChanges s t (pieces (.vrrDecision n)) ∧ (s.activeLinked = false → SameWordsBut s t [(Page.scn n).key 0x00C]))
  ∧ (∀ (s : State) (n : Nat) (f : Nat × Nat × Nat × Bool), Inv s → n < 8 → (s.disp n).running = true → (s.timing n).vrr = true →
      (s.disp n).proceeded = false → (s.disp n).line + 1 = (s.timing n).va + (s.timing n).vfp + (s.disp n).added →
      (State.genlockOf (s.disp n)).1 = true → (State.genlockOf (s.disp n)).2.1 = 8 →
      (s.pair.vrrFlits.find? fun g => g.1 == n && g.2.1 == s.fld (.scn n) F.SCN_SEQ_SEQ && g.2.2.1 == (s.disp n).line) = some f →
    ∃ t, exec (.vrrDecision n) s = .next t
      ∧ t.disp n = (if f.2.2.2 then { s.disp n with proceeded := true } else { s.disp n with added := (s.disp n).added + 1 })
      ∧ t.fld (.scn n) F.SCN_BS_VRR_WAIT = b2n (!f.2.2.2) ∧ OnlyChanges s t (pieces (.vrrDecision n)))

/-- R220: a granted write of SCN_GENLOCK with a valid reference takes its fields; one that would create a follower of itself, of a partner that there is
not, of another follower or of an Adaptive-Sync output, or make a follower's reference follow in turn, is refused with 0x0006 and changes no field.
By log entry 15 a write creates what it names when it sets EN or changes SRC. Where a clause takes a reading of the model: log entries 15 and 95. -/
def Obligations.GenlockSetting : Prop :=
  (∀ (s : State) (w : RegWr) (n : Nat), Inv s → n < 8 → s.wordGranted w (.scn n) F.SCN_GENLOCK_SRC.off = true → s.secretPage (accOf w (.scn n)) = false →
      bits 3 0 w.val.toNat ≤ 8 →
      (bit 4 w.val.toNat = true ∨ bits 3 0 w.val.toNat ≠ s.fld (.scn n) F.SCN_GENLOCK_SRC →
        bits 3 0 w.val.toNat ≠ n ∧ (bits 3 0 w.val.toNat = 8 → s.paired = true)
        ∧ (bits 3 0 w.val.toNat < 8 → s.fld (.scn (bits 3 0 w.val.toNat)) F.SCN_GENLOCK_EN = 0 ∧ s.fld (.scn (bits 3 0 w.val.toNat)) F.SCN_MODE_VRR_EN = 0)) →
      (bit 4 w.val.toNat = true → ∀ m < 8, m ≠ n → ¬ (s.fld (.scn m) F.SCN_GENLOCK_EN = 1 ∧ s.fld (.scn m) F.SCN_GENLOCK_SRC = n)) →
    ∃ t, exec (.genlockWrite w) s = .next t ∧ t.fld (.scn n) F.SCN_GENLOCK_SRC = bits 3 0 w.val.toNat
      ∧ t.fld (.scn n) F.SCN_GENLOCK_EN = bits 4 4 w.val.toNat
      ∧ t.fld (.scn n) F.SCN_GENLOCK_OFFSET = bits F.SCN_GENLOCK_OFFSET.hi F.SCN_GENLOCK_OFFSET.lo w.val.toNat
      ∧ OnlyChanges s t [.regs, .pair] ∧ SameWordsBut s t [(Page.scn n).key F.SCN_GENLOCK_SRC.off])
  ∧ (∀ (s : State) (w : RegWr) (n : Nat), Inv s → n < 8 → s.wordGranted w (.scn n) F.SCN_GENLOCK_SRC.off = true → s.secretPage (accOf w (.scn n)) = false →
      s.writesAny (accOf w (.scn n)) = true →
      8 < bits 3 0 w.val.toNat
        ∨ ((bit 4 w.val.toNat = true ∨ bits 3 0 w.val.toNat ≠ s.fld (.scn n) F.SCN_GENLOCK_SRC)
          ∧ (bits 3 0 w.val.toNat = n ∨ (bits 3 0 w.val.toNat = 8 ∧ s.paired = false)
            ∨ (bits 3 0 w.val.toNat < 8 ∧ (s.fld (.scn (bits 3 0 w.val.toNat)) F.SCN_GENLOCK_EN = 1 ∨ s.fld (.scn (bits 3 0 w.val.toNat)) F.SCN_MODE_VRR_EN = 1))))
        ∨ (bit 4 w.val.toNat = true ∧ ∃ m < 8, m ≠ n ∧ s.fld (.scn m) F.SCN_GENLOCK_EN = 1 ∧ s.fld (.scn m) F.SCN_GENLOCK_SRC = n) →
    ∃ t, exec (.genlockWrite w) s = .next t ∧ Records s t (.scn n) 0x0006 (accOf w (.scn n)).info
      ∧ OnlyChanges s t [.regs, .out, .msiPending] ∧ SameWordsBut s t (errWords (.scn n)))

/-- R226, R230: the furrow that its port fetches next arrives, the earliest deadline first: it counts as arrived, and every tile that a line of the
frame needs of it is in the furrow store. By R232, R233, R180 and R175 the pipe composes one line of H_ACTIVE pixels behind the earlier ones when
its turn has come; a line that no enabled slot reaches is background throughout, with tag 0. Where a clause takes a reading of the model: log
entries 14 and 98. -/
def Obligations.FurrowsAndLines : Prop :=
  (∀ (s s0 : State) (n k p row clock : Nat) (m : Monitor) (sl : Compose.Slot) (f : Furrow) (q : Nat × Seedbed.Plane), Inv s → n < 8 →
      (s.disp n).running = true → (s.fetchedSlots n (s.disp n)).find? (fun x => x.k == k) = some sl →
      (slotFurrows sl (s.timing n).va).find? (fun g => g.plane == p && g.row == row) = some f →
      (slotPlanes sl).find? (fun x => x.1 == p) = some q → s0 = s.advance n (lineClock (s.timing n) (s.disp n) + clock) m →
      State.fetchedNext (s0.currentFurrows n (s0.disp n) (s.timing n)) sl f = true →
    ∃ t, exec (.furrowArrival n k p row clock m) s = .next t
      ∧ furrowKey k f ∈ (t.disp n).arrived ∧ (∀ x ∈ (s.disp n).arrived, x ∈ (t.disp n).arrived)
      ∧ (∀ tx ∈ State.neededCols (s0.disp n) (State.frameSlots (s.frameView n) n) (Compose.keepouts (s.frameView n) n) (s.timing n) sl f,
          (Sparse.find (t.disp n).tiles (tileKey k p row tx)).isSome = true)
      ∧ (t.disp n).lines = (s.disp n).lines ∧ (t.disp n).line = (s.disp n).line ∧ SameEntriesBut s.display.disps t.display.disps [n]
      ∧ OnlyChanges s t (pieces (.furrowArrival n k p row clock m)))
  ∧ (∀ (s : State) (n : Nat), Inv s → n < 8 → (s.disp n).running = true → (s.disp n).lines.length < (s.timing n).va →
      ((s.disp n).lines.length < 4
        ∨ ((s.disp n).line < (s.timing n).va ∧ (s.disp n).fresh = false ∧ (s.disp n).lines.length ≤ (s.disp n).line + 4)) →
    ∃ t, exec (.lineComposeStart n) s = .next t ∧ (t.disp n).lines.dropLast = (s.disp n).lines ∧ (t.disp n).lines.getLast?.map List.length = some (s.timing n).ha
      ∧ (t.disp n).line = (s.disp n).line ∧ SameEntriesBut s.display.disps t.display.disps [n] ∧ OnlyChanges s t [.regs, .out, .display, .msiPending])
  ∧ (∀ (s : State) (n : Nat), Inv s → n < 8 → (s.disp n).running = true → (s.disp n).lines.length < (s.timing n).va →
      ((s.disp n).lines.length < 4
        ∨ ((s.disp n).line < (s.timing n).va ∧ (s.disp n).fresh = false ∧ (s.disp n).lines.length ≤ (s.disp n).line + 4)) →
      (∀ sl ∈ State.frameSlots (s.frameView n) n, sl.en = false) →
    ∃ t, exec (.lineComposeStart n) s = .next t
      ∧ (t.disp n).lines = (s.disp n).lines
          ++ [List.replicate (s.timing n).ha (Compose.outStages (s.frameView n) n (Compose.background (s.frameView n) n) 0)]
      ∧ OnlyChanges s t [.regs, .out, .display, .msiPending])

/-- R237, R46, R247: ENABLE of a transmitter powers it when the checks pass, and starts a training over the eligible configurations when HPD is high and
AUTO_TRAIN is 1; a failing check leaves ENABLE 0 and records its code. ENABLE 0 puts the lanes in electrical idle, and ends an AUX transaction in
progress with AUX_FAILED. When the idle hold of a device that left the active role ends, the transmitter retrains. -/
def Obligations.TransmitterEnable : Prop :=
  (∀ (s : State) (w : RegWr) (n : Nat), Inv s → n < 8 → s.ctrlGranted w (.dpl n) F.PG_CTRL_ENABLE 1 = true → s.fld (.dpl n) F.PG_CTRL_ENABLE = 0 →
      s.dplFault n = none → ((s.dpl n).hpd && s.flag (.dpl n) F.DPL_CTRL_AUTO_TRAIN) = false →
    ∃ t, exec (.dplEnable w) s = .next t ∧ t.dpl n = { s.dpl n with powered := true } ∧ t.fld (.dpl n) F.PG_CTRL_ENABLE = 1
      ∧ t.fld (.dpl n) F.PG_STAT_ENABLED = 1 ∧ SameEntriesBut s.dpls t.dpls [n] ∧ OnlyChanges s t [.regs, .dpls, .pair]
      ∧ SameWordsBut s t ([0x008, 0x00C, 0x048].map (Page.dpl n).key))
  ∧ (∀ (s : State) (w : RegWr) (n : Nat), Inv s → n < 8 → s.ctrlGranted w (.dpl n) F.PG_CTRL_ENABLE 1 = true → s.fld (.dpl n) F.PG_CTRL_ENABLE = 0 →
      s.dplFault n = none → (s.dpl n).hpd = true → s.flag (.dpl n) F.DPL_CTRL_AUTO_TRAIN = true → (s.dpl n).dead = false →
      (s.dpl n).idleHold = false → s.configs n ≠ [] →
    ∃ t, exec (.dplEnable w) s = .next t ∧ (t.dpl n).powered = true ∧ (t.dpl n).toTry = s.configs n ∧ (t.dpl n).trained = none
      ∧ (t.dpl n).video = false ∧ t.fld (.dpl n) F.PG_CTRL_ENABLE = 1 ∧ SameEntriesBut s.dpls t.dpls [n] ∧ OnlyChanges s t [.regs, .dpls, .pair]
      ∧ SameWordsBut s t ([0x008, 0x00C, 0x048].map (Page.dpl n).key))
  ∧ (∀ (s : State) (w : RegWr) (n code : Nat), Inv s → n < 8 → s.ctrlGranted w (.dpl n) F.PG_CTRL_ENABLE 1 = true →
      s.fld (.dpl n) F.PG_CTRL_ENABLE = 0 → s.dplFault n = some code →
    ∃ t, exec (.dplEnable w) s = .next t ∧ Records s t (.dpl n) code (accOf w (.dpl n)).info ∧ t.fld (.dpl n) F.PG_CTRL_ENABLE = 0
      ∧ OnlyChanges s t [.regs, .out, .msiPending] ∧ SameWordsBut s t (errWords (.dpl n)))
  ∧ (∀ (s : State) (w : RegWr) (n : Nat), Inv s → n < 8 → s.ctrlGranted w (.dpl n) F.PG_CTRL_ENABLE 0 = true → s.fld (.dpl n) F.PG_CTRL_ENABLE = 1 →
    ∃ t, exec (.dplDisable w) s = .next t ∧ (t.dpl n).powered = false ∧ (t.dpl n).trained = none ∧ (t.dpl n).toTry = [] ∧ (t.dpl n).video = false
      ∧ (t.dpl n).aux = none ∧ (t.dpl n).hpd = (s.dpl n).hpd ∧ t.fld (.dpl n) F.PG_CTRL_ENABLE = 0 ∧ t.fld (.dpl n) F.PG_STAT_ENABLED = 0
      ∧ ((s.dpl n).aux.isSome = true → t.fld (.dpl n) F.DPL_AUX_STAT_STATE = 3 ∧ bit 6 (t.rw ((Page.dpl n).key 0x010)) = true
          ∧ (s.fld (.dpl n) F.ERR_CODE_CODE = 0 → t.fld (.dpl n) F.ERR_CODE_CODE = 0x0A04))
      ∧ SameEntriesBut s.dpls t.dpls [n] ∧ OnlyChanges s t [.regs, .out, .dpls, .msiPending, .pair]
      ∧ SameWordsBut s t ([0x008, 0x00C, 0x048, 0x068].map (Page.dpl n).key ++ errWords (.dpl n)))
  ∧ (∀ (s : State) (n : Nat), Inv s → n < 8 → (s.dpl n).idleHold = true → (s.dpl n).powered = true → (s.dpl n).hpd = true →
      (s.dpl n).dead = false → s.configs n ≠ [] →
    ∃ t, exec (.dplIdleHoldEnd n) s = .next t ∧ (t.dpl n).idleHold = false ∧ (t.dpl n).toTry = s.configs n ∧ (t.dpl n).trained = none
      ∧ SameEntriesBut s.dpls t.dpls [n] ∧ OnlyChanges s t [.regs, .dpls] ∧ SameWordsBut s t ([0x00C, 0x048].map (Page.dpl n).key))

/-- R239, R241, R242: a plug sets HPD_PLUG, loads DPL_SINK and trains when AUTO_TRAIN is 1; an unplug idles the lanes and clears DPL_SINK; IRQ_HPD sets
its event and acts on a link loss. A link loss counts and retrains from the configuration that last trained downward while scan-out runs on. An
attempt that trains leaves that configuration; a failed one counts and leaves the rest, and the last failure records 0x0A02 with the attempts. Where
a clause takes a reading of the model: log entries 60 and 61. -/
def Obligations.HotPlugAndTraining : Prop :=
  (∀ (s : State) (n sink : Nat) (bp : Bool), Inv s → n < 8 → (s.dpl n).hpd = false → s.asleep = false →
      ((s.dpl n).powered && s.flag (.dpl n) F.DPL_CTRL_AUTO_TRAIN) = false →
    ∃ t, exec (.hpdPlug n sink bp) s = .next t ∧ t.dpl n = { s.dpl n with hpd := true, blockPred := bp, seedCap := bit 22 sink }
      ∧ t.rw ((Page.dpl n).key 0x04C) = sink % 2 ^ 22 ∧ t.word ((Page.dpl n).key 0x010) = s.word ((Page.dpl n).key 0x010) ||| 1#32
      ∧ SameEntriesBut s.dpls t.dpls [n] ∧ OnlyChanges s t [.regs, .out, .dpls, .msiPending]
      ∧ SameWordsBut s t ([0x00C, 0x010, 0x048, 0x04C].map (Page.dpl n).key))
  ∧ (∀ (s : State) (n sink : Nat) (bp : Bool), Inv s → n < 8 → (s.dpl n).hpd = false → s.asleep = false → (s.dpl n).powered = true →
      s.flag (.dpl n) F.DPL_CTRL_AUTO_TRAIN = true → (s.dpl n).dead = false → (s.dpl n).idleHold = false →
    ∃ t, exec (.hpdPlug n sink bp) s = .next t ∧ (t.dpl n).hpd = true ∧ (t.dpl n).toTry = t.configs n ∧ (t.dpl n).trained = none
      ∧ bit 0 (t.rw ((Page.dpl n).key 0x010)) = true ∧ OnlyChanges s t [.regs, .out, .dpls, .msiPending])
  ∧ (∀ (s : State) (n : Nat), Inv s → n < 8 → (s.dpl n).hpd = true → s.asleep = false →
    ∃ t, exec (.hpdUnplug n) s = .next t ∧ (t.dpl n).hpd = false ∧ (t.dpl n).trained = none ∧ (t.dpl n).video = false
      ∧ t.rw ((Page.dpl n).key 0x04C) = 0 ∧ t.word ((Page.dpl n).key 0x010) = s.word ((Page.dpl n).key 0x010) ||| 2#32
      ∧ SameEntriesBut s.dpls t.dpls [n] ∧ OnlyChanges s t [.regs, .out, .dpls, .msiPending]
      ∧ SameWordsBut s t ([0x00C, 0x010, 0x048, 0x04C].map (Page.dpl n).key))
  ∧ (∀ (s : State) (n : Nat), Inv s → n < 8 → (s.dpl n).hpd = true → s.asleep = false →
    ∃ t, exec (.hpdIrq n false) s = .next t ∧ t.word ((Page.dpl n).key 0x010) = s.word ((Page.dpl n).key 0x010) ||| 4#32
      ∧ OnlyChanges s t [.regs, .out, .msiPending] ∧ SameWordsBut s t [(Page.dpl n).key 0x010])
  ∧ (∀ (s : State) (n i : Nat) (c : Nat × Nat), Inv s → n < 8 → (s.dpl n).hpd = true → s.asleep = false → (s.dpl n).dead = false →
      (s.dpl n).idleHold = false → (s.dpl n).trained = some c → (s.configs n).findIdx? (· == c) = some i →
    ∃ t, exec (.linkLoss n) s = .next t ∧
      (t.dpl n).toTry = (s.configs n).drop i ∧ (t.dpl n).trained = none ∧ (t.dpl n).video = false
      ∧ t.fld (.dpl n) F.DPL_LOCK_LOSS_COUNT = min (s.fld (.dpl n) F.DPL_LOCK_LOSS_COUNT + 1) 0xFFFFFFFF
      ∧ bit 5 (t.rw ((Page.dpl n).key 0x010)) = true ∧ OnlyChanges s t [.regs, .out, .dpls, .msiPending]
      ∧ SameWordsBut s t ([0x00C, 0x010, 0x048, 0x054].map (Page.dpl n).key))
  ∧ (∀ (s : State) (n i : Nat) (c : Nat × Nat), Inv s → n < 8 → (s.dpl n).hpd = true → s.asleep = false → (s.dpl n).dead = false →
      (s.dpl n).idleHold = false → (s.dpl n).trained = some c → (s.configs n).findIdx? (· == c) = some i →
    ∃ t, exec (.hpdIrq n true) s = .next t ∧ bit 2 (t.rw ((Page.dpl n).key 0x010)) = true ∧
      (t.dpl n).toTry = (s.configs n).drop i ∧ (t.dpl n).trained = none ∧ (t.dpl n).video = false
      ∧ t.fld (.dpl n) F.DPL_LOCK_LOSS_COUNT = min (s.fld (.dpl n) F.DPL_LOCK_LOSS_COUNT + 1) 0xFFFFFFFF
      ∧ bit 5 (t.rw ((Page.dpl n).key 0x010)) = true ∧ OnlyChanges s t [.regs, .out, .dpls, .msiPending]
      ∧ SameWordsBut s t ([0x00C, 0x010, 0x048, 0x054].map (Page.dpl n).key))
  ∧ (∀ (s : State) (n : Nat) (c : Nat × Nat) (rest : List (Nat × Nat)), Inv s → n < 8 → (s.dpl n).toTry = c :: rest →
    ∃ t, exec (.trainingAttemptEnd n true) s = .next t
      ∧ (t.dpl n).toTry = [] ∧ (t.dpl n).tries = 0 ∧ (t.dpl n).trained = some c ∧ (t.dpl n).decided = false ∧ (t.dpl n).auxHeld = (if (s.dpl n).aux.isSome then false else (s.dpl n).auxHeld)
      ∧ (∀ x, (s.dpl n).aux = some x → (s.dpl n).auxHeld = true → Output.aux n x.req x.addr x.len x.data ∈ t.out)
      ∧ t.word ((Page.dpl n).key 0x010) = s.word ((Page.dpl n).key 0x010) ||| 8#32
      ∧ OnlyChanges s t [.regs, .out, .dpls, .msiPending] ∧ SameWordsBut s t ([0x00C, 0x010, 0x048].map (Page.dpl n).key))
  ∧ (∀ (s : State) (n : Nat) (c : Nat × Nat) (rest : List (Nat × Nat)), Inv s → n < 8 → (s.dpl n).toTry = c :: rest → rest ≠ [] →
    ∃ t, exec (.trainingAttemptEnd n false) s = .next t ∧ t.dpl n = { s.dpl n with toTry := rest, tries := (s.dpl n).tries + 1 }
      ∧ t.fld (.dpl n) F.DPL_TRAIN_FAILS_COUNT = min (s.fld (.dpl n) F.DPL_TRAIN_FAILS_COUNT + 1) 0xFFFFFFFF
      ∧ OnlyChanges s t [.regs, .dpls] ∧ SameWordsBut s t ([0x00C, 0x048, 0x050].map (Page.dpl n).key))
  ∧ (∀ (s : State) (n : Nat) (c : Nat × Nat), Inv s → n < 8 → (s.dpl n).toTry = [c] →
    ∃ t, exec (.trainingAttemptEnd n false) s = .next t ∧ (t.dpl n).toTry = [] ∧ (t.dpl n).trained = none ∧ (t.dpl n).video = false
      ∧ bit 4 (t.rw ((Page.dpl n).key 0x010)) = true
      ∧ (s.fld (.dpl n) F.ERR_CODE_CODE = 0 → t.fld (.dpl n) F.ERR_CODE_CODE = 0x0A02 ∧ t.rw ((Page.dpl n).key 0x024) = ((s.dpl n).tries + 1) % 16)
      ∧ OnlyChanges s t [.regs, .out, .dpls, .msiPending]
      ∧ SameWordsBut s t ([0x00C, 0x048, 0x050].map (Page.dpl n).key ++ errWords (.dpl n)))

/-- R243, R244: GO starts the one AUX transaction that DPL_AUX_ADDR names, with STATE busy, once a training has ended; a transmitter that drives no AUX
ends it with AUX_FAILED. While one runs, a write of its registers records BUSY. A reply that does not defer ends it with its data, its byte count
and AUX_DONE; a DEFER or a timeout repeats it until the seventh DEFER or the third timeout, which ends it with AUX_FAILED. A read of DPL_PPS_DATA
returns a word of the PPS, 0 while DSC is not in use, and advances the word address; the words of a PPS are an open result (log entry 100). Where a
clause takes a reading of the model: log entries 60 and 61. -/
def Obligations.AuxAndPps : Prop :=
  (∀ (s : State) (w : RegWr) (n len req addr : Nat) (data : List Nat), Inv s → n < 8 → s.wordGranted w (.dpl n) 0x064 = true →
      s.secretPage (accOf w (.dpl n)) = false → s.grants (accOf w (.dpl n)) F.DPL_AUX_CTRL_GO = true → (s.dpl n).aux = none → s.auxDown n = false →
      len = bits 4 0 w.val.toNat → req = s.fld (.dpl n) F.DPL_AUX_ADDR_REQ → addr = s.fld (.dpl n) F.DPL_AUX_ADDR_ADDR → len ≤ 16 →
      (len = 0 → State.auxNative req = false) → ((s.dpl n).trained.isSome = true → State.auxOwned req addr len = false) →
      data = (if bit 0 req then [] else (List.range len).map fun i => bits (8 * (i % 4) + 7) (8 * (i % 4)) (s.rw ((Page.dpl n).key (0x070 + 4 * (i / 4))))) →
    ∃ t, exec (.auxGo w) s = .next t ∧ t.out = s.out ++ (if (s.dpl n).toTry = [] then [.aux n req addr len data] else [])
      ∧ (t.dpl n).aux = some ⟨req, addr, len, data⟩ ∧ (t.dpl n).auxHeld = !(s.dpl n).toTry.isEmpty
      ∧ t.rw ((Page.dpl n).key 0x068) = 1 ∧ SameEntriesBut s.dpls t.dpls [n] ∧ OnlyChanges s t [.regs, .out, .dpls, .pair]
      ∧ SameWordsBut s t ([0x00C, 0x048, 0x064, 0x068].map (Page.dpl n).key))
  ∧ (∀ (s : State) (w : RegWr) (n : Nat), Inv s → n < 8 → s.wordGranted w (.dpl n) 0x064 = true →
      s.secretPage (accOf w (.dpl n)) = false → s.grants (accOf w (.dpl n)) F.DPL_AUX_CTRL_GO = true → (s.dpl n).aux = none → s.auxDown n = true →
      bits 4 0 w.val.toNat ≤ 16 → (bits 4 0 w.val.toNat = 0 → State.auxNative (s.fld (.dpl n) F.DPL_AUX_ADDR_REQ) = false) → (s.dpl n).trained = none →
    ∃ t, exec (.auxGo w) s = .next t ∧ (t.dpl n).aux = none ∧ t.fld (.dpl n) F.DPL_AUX_STAT_STATE = 3 ∧ bit 6 (t.rw ((Page.dpl n).key 0x010)) = true
      ∧ (s.fld (.dpl n) F.ERR_CODE_CODE = 0 → t.fld (.dpl n) F.ERR_CODE_CODE = 0x0A04)
      ∧ OnlyChanges s t [.regs, .out, .dpls, .msiPending, .pair]
      ∧ SameWordsBut s t ([0x00C, 0x048, 0x064, 0x068].map (Page.dpl n).key ++ errWords (.dpl n)))
  ∧ (∀ (s : State) (w : RegWr) (n : Nat), Inv s → n < 8 → s.wordGranted w (.dpl n) 0x064 = true →
      s.secretPage (accOf w (.dpl n)) = false → (s.dpl n).aux.isSome = true → s.writesAny (accOf w (.dpl n)) = true →
    ∃ t, exec (.auxGo w) s = .next t ∧ Records s t (.dpl n) 0x0009 (accOf w (.dpl n)).info
      ∧ OnlyChanges s t [.regs, .out, .msiPending] ∧ SameWordsBut s t (errWords (.dpl n)))
  ∧ (∀ (s : State) (w : RegWr) (n o : Nat), Inv s → n < 8 → o ∈ [0x060, 0x070, 0x074, 0x078, 0x07C] → s.wordGranted w (.dpl n) o = true →
      s.secretPage (accOf w (.dpl n)) = false → (s.dpl n).aux.isSome = true → s.writesAny (accOf w (.dpl n)) = true →
    ∃ t, exec (.registerWrite w) s = .next t ∧ Records s t (.dpl n) 0x0009 (accOf w (.dpl n)).info
      ∧ OnlyChanges s t [.regs, .out, .msiPending] ∧ SameWordsBut s t (errWords (.dpl n)))
  ∧ (∀ (s : State) (n reply bytes : Nat) (data : List Nat) (x : Aux), Inv s → n < 8 → (s.dpl n).aux = some x → (s.dpl n).auxHeld = false → x.len ≤ 16 → reply < 16 →
      State.auxDefers reply = false → (∀ v ∈ data, v < 256) →
    ∃ t, exec (.auxReply n reply bytes data) s = .next t ∧ (t.dpl n).aux = none ∧ t.fld (.dpl n) F.DPL_AUX_STAT_STATE = 2
      ∧ t.fld (.dpl n) F.DPL_AUX_STAT_REPLY = reply ∧ t.fld (.dpl n) F.DPL_AUX_STAT_BYTES = min bytes x.len
      ∧ (bit 0 x.req = true → ∀ i < min x.len data.length,
          bits (8 * (i % 4) + 7) (8 * (i % 4)) (t.rw ((Page.dpl n).key (0x070 + 4 * (i / 4)))) = data.getD i 0)
      ∧ t.word ((Page.dpl n).key 0x010) = s.word ((Page.dpl n).key 0x010) ||| 64#32 ∧ OnlyChanges s t [.regs, .out, .dpls, .msiPending]
      ∧ SameWordsBut s t ([0x00C, 0x010, 0x048, 0x068, 0x070, 0x074, 0x078, 0x07C].map (Page.dpl n).key))
  ∧ (∀ (s : State) (n reply bytes : Nat) (data : List Nat) (x : Aux), Inv s → n < 8 → (s.dpl n).aux = some x → (s.dpl n).auxHeld = false → reply < 16 →
      State.auxDefers reply = true → s.fld (.dpl n) F.DPL_AUX_STAT_DEFERS < 6 →
    ∃ t, exec (.auxReply n reply bytes data) s = .next t ∧ t.out = s.out ++ [.aux n x.req x.addr x.len x.data] ∧ t.dpls = s.dpls
      ∧ t.fld (.dpl n) F.DPL_AUX_STAT_DEFERS = s.fld (.dpl n) F.DPL_AUX_STAT_DEFERS + 1
      ∧ OnlyChanges s t [.regs, .out] ∧ SameWordsBut s t [(Page.dpl n).key 0x068])
  ∧ (∀ (s : State) (n : Nat) (x : Aux), Inv s → n < 8 → (s.dpl n).aux = some x → (s.dpl n).auxHeld = false → s.fld (.dpl n) F.DPL_AUX_STAT_TIMEOUTS < 2 →
    ∃ t, exec (.auxReplyTimeout n) s = .next t ∧ t.out = s.out ++ [.aux n x.req x.addr x.len x.data] ∧ t.dpls = s.dpls
      ∧ t.fld (.dpl n) F.DPL_AUX_STAT_TIMEOUTS = s.fld (.dpl n) F.DPL_AUX_STAT_TIMEOUTS + 1
      ∧ OnlyChanges s t [.regs, .out] ∧ SameWordsBut s t [(Page.dpl n).key 0x068])
  ∧ (∀ (s : State) (n : Nat) (x : Aux), Inv s → n < 8 → (s.dpl n).aux = some x → (s.dpl n).auxHeld = false → s.fld (.dpl n) F.DPL_AUX_STAT_TIMEOUTS = 2 →
    ∃ t, exec (.auxReplyTimeout n) s = .next t ∧ (t.dpl n).aux = none ∧ t.fld (.dpl n) F.DPL_AUX_STAT_STATE = 3
      ∧ bit 6 (t.rw ((Page.dpl n).key 0x010)) = true ∧ (s.fld (.dpl n) F.ERR_CODE_CODE = 0 → t.fld (.dpl n) F.ERR_CODE_CODE = 0x0A04)
      ∧ OnlyChanges s t [.regs, .out, .dpls, .msiPending]
      ∧ SameWordsBut s t ([0x00C, 0x048, 0x068].map (Page.dpl n).key ++ errWords (.dpl n)))
  ∧ (∀ (s : State) (r : RegRd) (n : Nat), Inv s → n < 8 → s.readReaches r (.dpl n) = true → r.off % 0x1000 = 0x084 →
    ∃ t, exec (.ppsDataRead r) s = .next t
      ∧ t.out = s.out ++ [.readData r.req.fn (if (s.dpl n).dsc && !s.secretPage (rdOf r (.dpl n)) then
          BitVec.ofNat 32 (s.ppsWord n (s.fld (.dpl n) F.DPL_PPS_ADDR_WORD)) else 0)]
      ∧ t.fld (.dpl n) F.DPL_PPS_ADDR_WORD = (s.fld (.dpl n) F.DPL_PPS_ADDR_WORD + 1) % 32
      ∧ OnlyChanges s t [.regs, .out] ∧ SameWordsBut s t [(Page.dpl n).key 0x080])

/-- R89, R90, R269, R271 to R275, R298: an admitted request waits at its channel in arrival order; a refused one is answered with WORLD_DENIED and
zeros, and counted. The request that a channel issues leaves it: a write of a whole word stores it and answers 0, a read of a clean word returns it,
and a request that completes late is counted on its port. No request of a row overtakes an earlier one that it must follow. A channel with no
request for 1 µs enters power-down. Where a clause takes a reading of the model: log entries 57, 58, 85 and 89. -/
def Obligations.DramTraffic : Prop :=
  (∀ (s : State) (q : DramReq), Inv s → q.addr % 16 = 0 → 0 < q.words → q.addr % 256 + 16 * q.words ≤ 256 → q.addr < s.installed →
      s.inCheckArea q.addr = false → q.world = true → q.applet = false → q.addr < s.watermark → (s.place q.addr).ch < s.channels →
    ∃ t, exec (.dramRequest q) s = .next t
      ∧ (t.dmc (s.place q.addr).ch).reqs = (s.dmc (s.place q.addr).ch).reqs ++
          [⟨s.dram.nextRid, q.fn, q.world, s.stampCrit q, q.port, q.addr, q.words, q.data, s.now⟩]
      ∧ (t.dmc (s.place q.addr).ch).powerDown = false ∧ t.dram.nextRid = s.dram.nextRid + 1
      ∧ SameEntriesBut s.dram.chans t.dram.chans [(s.place q.addr).ch] ∧ OnlyChanges s t [.regs, .dram]
      ∧ SameWordsBut s t ([0x00C, 0x044].map (Page.dmc (s.place q.addr).ch).key))
  ∧ (∀ (s : State) (q : DramReq), Inv s → q.addr % 16 = 0 → 0 < q.words → q.addr % 256 + 16 * q.words ≤ 256 → q.addr < s.installed →
      s.inCheckArea q.addr = false → q.world = false → q.addr < s.watermark →
    ∃ t, exec (.dramRequest q) s = .next t ∧ t.dram = s.dram ∧ SameMemory s t
      ∧ Output.dram q.port q.fn q.addr (List.replicate q.words 0x0201) (if q.data.isSome then [] else List.replicate q.words 0) ∈ t.out
      ∧ t.fld .wld F.WLD_DENY_COUNT_COUNT = min (s.fld .wld F.WLD_DENY_COUNT_COUNT + 1) 0xFFFFFFFF
      ∧ OnlyChanges s t [.regs, .out, .msiPending])
  ∧ (∀ (s s1 : State) (q : DramReq) (ch : Nat), Inv s → 0 < q.words → q.addr / 16 * 16 % 256 + 16 * q.words ≤ 256 → ch = (s1.place (q.addr / 16 * 16)).ch →
      s.guardRequest ⟨q.fn, q.world, s.stampCrit q, q.port, false, false⟩ q.applet q.data.isSome (q.addr / 16 * 16) = (true, s1) →
    ∃ t, exec (.dramRequest q) s = .next t
      ∧ (t.dmc ch).reqs = (s.dmc ch).reqs ++ [⟨s.dram.nextRid, q.fn, q.world, s.stampCrit q, q.port, q.addr / 16 * 16, q.words, q.data, s.now⟩]
      ∧ SameMemory s t ∧ SameEntriesBut s.dram.chans t.dram.chans [ch] ∧ OnlyChanges s t (pieces (.dramRequest q)))
  ∧ (∀ (s s1 : State) (q : DramReq), Inv s → 0 < q.words → q.addr / 16 * 16 % 256 + 16 * q.words ≤ 256 →
      s.guardRequest ⟨q.fn, q.world, s.stampCrit q, q.port, false, false⟩ q.applet q.data.isSome (q.addr / 16 * 16) = (false, s1) →
    ∃ t, exec (.dramRequest q) s = .next t ∧ t.dram = s.dram ∧ SameMemory s t
      ∧ Output.dram q.port q.fn (q.addr / 16 * 16) (List.replicate q.words 0x0201) (if q.data.isSome then [] else List.replicate q.words 0) ∈ t.out
      ∧ OnlyChanges s t (pieces (.dramRequest q)))
  ∧ (∀ (s : State) (n : Nat) (q : DramItem) (rest : List Nat) (w : Nat), Inv s → n < s.channels →
      s.issue n (s.drainStep n (s.dmc n)) = some (q, rest) → (s.dmc n).training = false →
      (s.dmc n).failed = false → (s.dmc n).selfRefresh = false → q.data = some [(w, 0xFFFF)] → q.words = 1 → q.addr % 16 = 0 → w < 2 ^ 128 →
      q.port < 12 → s.inCheckArea q.addr = false →
    ∃ t, exec (.dramRequestComplete n) s = .next t ∧ (t.dmc n).reqs = (s.dmc n).reqs.filter (fun p => p.rid != q.rid) ∧ (t.dmc n).batch = rest
      ∧ Memory.readN t.mem q.addr 16 = w
      ∧ SameDramBut s t (fun x => x = q.addr / 16) ∧ t.out.getLast? = some (.dram q.port q.fn q.addr [0] [])
      ∧ SameEntriesBut s.dram.chans t.dram.chans [n] ∧ OnlyChanges s t [.regs, .mem, .out, .dram, .msiPending])
  ∧ (∀ (s : State) (n : Nat) (q : DramItem) (rest : List Nat) (w : Nat), Inv s → n < s.channels →
      s.issue n (s.drainStep n (s.dmc n)) = some (q, rest) → (s.dmc n).training = false →
      (s.dmc n).failed = false → (s.dmc n).selfRefresh = false → q.data = none → q.words = 1 → q.addr % 16 = 0 → q.port < 12 →
      s.lookWord q.addr = .clean w →
    ∃ t, exec (.dramRequestComplete n) s = .next t ∧ (t.dmc n).reqs = (s.dmc n).reqs.filter (fun p => p.rid != q.rid) ∧ (t.dmc n).batch = rest
      ∧ t.out.getLast? = some (.dram q.port q.fn q.addr [0] [w])
      ∧ (let mk := State.portKey n F.DMC_PORT_MAXLAT_LAT q.port
         let lk := State.portKey n F.DMC_PORT_LATE_COUNT q.port
         t.rw mk = max (s.rw mk) (min 0xFFFF ((s.now - q.arrived) / 10))
         ∧ t.rw lk = (if bits 11 0 (s.rw (State.portKey n F.DMC_PORT_TARGET_TARGET q.port)) * 10 < s.now - q.arrived then
             min (s.rw lk + 1) 0xFFFFFFFF else s.rw lk))
      ∧ SameEntriesBut s.dram.chans t.dram.chans [n] ∧ OnlyChanges s t [.regs, .out, .dram, .msiPending])
  ∧ (∀ (s : State) (n : Nat) (p q : DramItem), (s.dmc n).reqs.Pairwise (fun a b => a.rid < b.rid) → (s.dmc n).batch = [] →
      p ∈ (s.dmc n).reqs → q ∈ (s.dmc n).reqs → p.rid < q.rid → s.rowOf p = s.rowOf q → s.ordered p q = true →
    ∃ t, exec (.dramRequestComplete n) s = .next t ∧ (p ∈ (t.dmc n).reqs → q ∈ (t.dmc n).reqs))
  ∧ (∀ (s : State) (n : Nat), Inv s → n < s.channels → (s.dmc n).reqs = [] → (s.dmc n).training = false → (s.dmc n).failed = false →
      (s.dmc n).selfRefresh = false → (s.dmc n).lastUse + 1000 ≤ s.now →
    ∃ t, exec (.dramPowerDown n) s = .next t ∧ t.dmc n = { s.dmc n with powerDown := true } ∧ SameEntriesBut s.dram.chans t.dram.chans [n]
      ∧ OnlyChanges s t [.regs, .dram] ∧ SameWordsBut s t ([0x00C, 0x044].map (Page.dmc n).key))

/-- R276 to R281: a refresh that falls due is issued when the channel is quiet, postponed while it is busy, and forced once POSTPONE_MAX are owed. A
change of M converts the debt as R278 states and forces refreshes down to half of POSTPONE_MAX when the new debt is above it; a channel too hot is
reported as contained. A trigger starts a retraining in its turn; its end stores the pause and the eyes and clears DEGRADED, a sweep without a
window whose read-back passes sets DEGRADED and records 0x0C01, and one whose read-back fails leaves the channel FAILED with a device-fatal fault.
Where a clause takes a reading of the model: log entries 103 to 105. -/
def Obligations.DramMaintenance : Prop :=
  (∀ (s : State) (n : Nat), Inv s → n < 16 → (s.dmc n).failed = false → (s.dmc n).selfRefresh = false → (s.dmc n).training = false →
      s.refreshBusy n = false → s.fld (.dmc n) F.DMC_REF_STAT_DEBT = 0 →
    ∃ t, exec (.refreshDue n) s = .next t
      ∧ t.fld (.dmc n) F.DMC_REF_COUNT_COUNT = (s.fld (.dmc n) F.DMC_REF_COUNT_COUNT + 1) % 2 ^ 32
      ∧ OnlyChanges s t [.regs] ∧ SameWordsBut s t [(Page.dmc n).key 0x064])
  ∧ (∀ (s : State) (n : Nat), Inv s → n < 16 → (s.dmc n).failed = false → (s.dmc n).selfRefresh = false → (s.dmc n).training = false →
      s.refreshBusy n = true → s.fld (.dmc n) F.DMC_REF_STAT_DEBT < s.fld (.dmc n) F.DMC_REF_CTRL_POSTPONE_MAX →
    ∃ t, exec (.refreshDue n) s = .next t ∧ t.fld (.dmc n) F.DMC_REF_STAT_DEBT = s.fld (.dmc n) F.DMC_REF_STAT_DEBT + 1
      ∧ t.fld (.dmc n) F.DMC_REF_STAT_DEBT_MAX = max (s.fld (.dmc n) F.DMC_REF_STAT_DEBT + 1) (s.fld (.dmc n) F.DMC_REF_STAT_DEBT_MAX)
      ∧ OnlyChanges s t [.regs] ∧ SameWordsBut s t [(Page.dmc n).key 0x060])
  ∧ (∀ (s : State) (n : Nat), Inv s → n < 16 → (s.dmc n).failed = false → (s.dmc n).selfRefresh = false → (s.dmc n).training = false →
      s.refreshBusy n = true → s.fld (.dmc n) F.DMC_REF_CTRL_POSTPONE_MAX ≤ s.fld (.dmc n) F.DMC_REF_STAT_DEBT →
    ∃ t, exec (.refreshDue n) s = .next t
      ∧ t.fld (.dmc n) F.DMC_REF_COUNT_COUNT = (s.fld (.dmc n) F.DMC_REF_COUNT_COUNT + 1) % 2 ^ 32
      ∧ t.fld (.dmc n) F.DMC_REF_FORCED_COUNT = (s.fld (.dmc n) F.DMC_REF_FORCED_COUNT + 1) % 2 ^ 32
      ∧ t.word ((Page.dmc n).key 0x010) = s.word ((Page.dmc n).key 0x010) ||| 2#32 ∧ OnlyChanges s t [.regs, .out, .msiPending]
      ∧ SameWordsBut s t ([0x010, 0x064, 0x068].map (Page.dmc n).key))
  ∧ (∀ (s : State) (n rate m debt top : Nat), Inv s → n < s.channels → (s.dmc n).failed = false → (s.dmc n).selfRefresh = false →
      rate ≤ 32 → m = (if 16 < rate then 4 else if 8 < rate then 2 else 1) → (s.dmc n).mult ∈ [1, 2, 4] → m ≠ (s.dmc n).mult →
      s.fld (.dmc n) F.DMC_REF_STAT_DEBT ≤ 8 → top = s.fld (.dmc n) F.DMC_REF_CTRL_POSTPONE_MAX →
      debt = (if (s.dmc n).mult < m then s.fld (.dmc n) F.DMC_REF_STAT_DEBT * (m / (s.dmc n).mult) + 1
        else ((s.fld (.dmc n) F.DMC_REF_STAT_DEBT + 1) * m + (s.dmc n).mult - 1) / (s.dmc n).mult) →
    ∃ t, exec (.mr4Poll n rate false) s = .next t ∧ t.dmc n = { s.dmc n with mult := m, want := true }
      ∧ t.fld (.dmc n) F.DMC_REF_STAT_DEBT = (if top < debt then top / 2 else debt)
      ∧ t.fld (.dmc n) F.DMC_REF_FORCED_COUNT = (s.fld (.dmc n) F.DMC_REF_FORCED_COUNT + (if top < debt then debt - top / 2 else 0)) % 2 ^ 32
      ∧ t.fld (.dmc n) F.DMC_REF_STAT_DEBT_MAX = max debt (s.fld (.dmc n) F.DMC_REF_STAT_DEBT_MAX)
      ∧ bit 0 (t.rw ((Page.dmc n).key 0x010)) = true ∧ OnlyChanges s t [.regs, .out, .dram, .msiPending]
      ∧ SameWordsBut s t ([0x00C, 0x010, 0x044, 0x060, 0x064, 0x068].map (Page.dmc n).key))
  ∧ (∀ (s : State) (n rate : Nat) (hot : Bool), Inv s → n < s.channels → (s.dmc n).failed = false → (s.dmc n).selfRefresh = false →
      hot = true ∨ 32 < rate →
    ∃ t, exec (.mr4Poll n rate hot) s = .next t ∧ (t.dmc n).mult = 4 ∧ bit 4 (t.rw ((Page.dmc n).key 0x010)) = true
      ∧ t.fld .sys F.SYS_FAULT_CNT_CONTAINED = satAdd 16 (s.fld .sys F.SYS_FAULT_CNT_CONTAINED) 1
      ∧ OnlyChanges s t (pieces (.mr4Poll n rate hot)))
  ∧ (∀ (s : State) (n cause : Nat), Inv s → n < s.channels →
      (cause = 0 ∧ s.fld (.dmc n) F.DMC_TRAIN_CTRL_INTERVAL ≠ 0) ∨ (cause = 1 ∧ s.fld (.dmc n) F.DMC_TRAIN_CTRL_TEMP_STEP ≠ 0)
        ∨ (cause = 2 ∧ s.fld (.dmc n) F.DMC_TRAIN_STAT_DEGRADED = 1) ∨ (s.dmc n).want = true →
      (∀ k < 16, (s.dmc k).training = false) →
      (∀ k < 16, k ≠ n → (s.dmc k).want = false) → (s.dmc n).failed = false → (s.dmc n).selfRefresh = false →
      (∀ x, s.dram.trainedAt = some x → x + 200000 ≤ s.now) →
    ∃ t, exec (.retrainStart n cause) s = .next t ∧ t.dmc n = { s.dmc n with want := false, training := true, row := none, batch := [] }
      ∧ t.dram.lastTrained = n ∧ t.dram.trainedAt = some s.now
      ∧ SameEntriesBut s.dram.chans t.dram.chans [n] ∧ OnlyChanges s t [.regs, .dram] ∧ SameWordsBut s t ([0x00C, 0x044].map (Page.dmc n).key))
  ∧ (∀ (s : State) (w : RegWr) (n : Nat), Inv s → n < s.channels → s.wordGranted w (.dmc n) 0x06C = true →
      s.grants (accOf w (.dmc n)) F.DMC_TRAIN_CTRL_START = true → s.secretPage (accOf w (.dmc n)) = false →
    ∃ t, exec (.dmcTrainStartWrite w) s = .next t ∧ t.dmc n = { s.dmc n with want := true }
      ∧ t.fld (.dmc n) F.DMC_TRAIN_CTRL_INTERVAL = bits 9 0 w.val.toNat ∧ t.fld (.dmc n) F.DMC_TRAIN_CTRL_TEMP_STEP = bits 23 16 w.val.toNat
      ∧ OnlyChanges s t [.regs, .dram] ∧ SameWordsBut s t ([0x00C, 0x044, 0x06C].map (Page.dmc n).key))
  ∧ (∀ (s : State) (n pause r w : Nat) (rb : Bool), Inv s → n < s.channels → (s.dmc n).training = true →
    ∃ t, exec (.retrainEnd n pause (some (r, w)) rb) s = .next t ∧ t.dmc n = { s.dmc n with training := false, noWindow := 0 }
      ∧ t.fld (.dmc n) F.DMC_TRAIN_LAST_READ_EYE = r % 256 ∧ t.fld (.dmc n) F.DMC_TRAIN_LAST_WRITE_EYE = w % 256
      ∧ t.fld (.dmc n) F.DMC_TRAIN_LAST_PAUSE_NS = min pause 0xFFFF ∧ t.fld (.dmc n) F.DMC_TRAIN_STAT_DEGRADED = 0
      ∧ t.fld (.dmc n) F.DMC_TRAIN_STAT_COUNT = (s.fld (.dmc n) F.DMC_TRAIN_STAT_COUNT + 1) % 2 ^ 16
      ∧ t.word ((Page.dmc n).key 0x010) = s.word ((Page.dmc n).key 0x010) ||| 4#32 ∧ OnlyChanges s t [.regs, .out, .dram, .msiPending]
      ∧ SameWordsBut s t ([0x00C, 0x010, 0x044, 0x070, 0x074].map (Page.dmc n).key))
  ∧ (∀ (s : State) (n pause : Nat), Inv s → n < s.channels → (s.dmc n).training = true →
    ∃ t, exec (.retrainEnd n pause none true) s = .next t ∧ t.dmc n = { s.dmc n with training := false, noWindow := (s.dmc n).noWindow + 1 }
      ∧ t.fld (.dmc n) F.DMC_TRAIN_STAT_DEGRADED = 1 ∧ bit 3 (t.rw ((Page.dmc n).key 0x010)) = true
      ∧ (s.fld (.dmc n) F.ERR_CODE_CODE = 0 → t.fld (.dmc n) F.ERR_CODE_CODE = 0x0C01
          ∧ t.rw ((Page.dmc n).key 0x024) = min ((s.dmc n).noWindow + 1) 0xFF)
      ∧ t.fld .sys F.SYS_FAULT_CNT_CORRECTED = min (s.fld .sys F.SYS_FAULT_CNT_CORRECTED + 1) (2 ^ (F.SYS_FAULT_CNT_CORRECTED.hi + 1 - F.SYS_FAULT_CNT_CORRECTED.lo) - 1)
      ∧ OnlyChanges s t [.regs, .out, .dram, .faults, .msiPending])
  ∧ (∀ (s : State) (n pause : Nat), Inv s → n < s.channels → (s.dmc n).training = true → s.faults.inReset = false → s.power.state = .run →
      s.faults.fatal = none →
    ∃ t, exec (.retrainEnd n pause none false) s = .next t ∧ (t.dmc n).failed = true ∧ t.faults.fatal = some 1
      ∧ t.faults.fatalLast = 1 ∧ bit 5 (t.rw ((Page.dmc n).key 0x010)) = true ∧ t.pair.guyOut = false ∧ t.hosts.jobs = []
      ∧ OnlyChanges s t (pieces (.retrainEnd n pause none false)))

/-- R271, R278, R284, R285: DMC_PORT_TARGET writes the selected port of one channel, or with ALL of every present channel; CLEAR of the longest latency
and of the largest debt; a port of 12 or above is refused. A stop of a channel by the secure world fails the channel and is device-fatal; any other
requester's stop is refused with 0x000A. -/
def Obligations.DmcRegisters : Prop :=
  (∀ (s : State) (w : RegWr) (n : Nat), Inv s → n < s.channels → s.arrives w (.dmc n) = true → w.off % 0x1000 = 0x04C →
      s.secretPage (accOf w (.dmc n)) = false → s.fld (.dmc n) F.DMC_PORT_SEL_PORT < 12 → bit 16 w.val.toNat = true →
    ∃ t, exec (.dmcPortTargetAll w) s = .next t
      ∧ (∀ m < s.channels, t.rw (State.portKey m F.DMC_PORT_TARGET_TARGET (s.fld (.dmc n) F.DMC_PORT_SEL_PORT)) = bits 11 0 w.val.toNat)
      ∧ OnlyChanges s t [.regs, .dram]
      ∧ SameWordsBut s t ((List.range s.channels).flatMap fun m =>
          State.portKey m F.DMC_PORT_TARGET_TARGET (s.fld (.dmc n) F.DMC_PORT_SEL_PORT) :: [0x00C, 0x044, 0x060, 0x064].map (Page.dmc m).key))
  ∧ (∀ (s : State) (w : RegWr) (n : Nat), Inv s → n < s.channels → s.arrives w (.dmc n) = true → w.off % 0x1000 = 0x04C →
      s.secretPage (accOf w (.dmc n)) = false → s.fld (.dmc n) F.DMC_PORT_SEL_PORT < 12 → bit 16 w.val.toNat = false →
    ∃ t, exec (.dmcPortTargetAll w) s = .next t
      ∧ t.rw (State.portKey n F.DMC_PORT_TARGET_TARGET (s.fld (.dmc n) F.DMC_PORT_SEL_PORT)) = bits 11 0 w.val.toNat
      ∧ SameEntriesBut s.dram.chans t.dram.chans [n] ∧ OnlyChanges s t [.regs, .dram]
      ∧ SameWordsBut s t (State.portKey n F.DMC_PORT_TARGET_TARGET (s.fld (.dmc n) F.DMC_PORT_SEL_PORT) :: [0x00C, 0x044, 0x060, 0x064].map (Page.dmc n).key))
  ∧ (∀ (s : State) (w : RegWr) (n : Nat), Inv s → n < s.channels → s.arrives w (.dmc n) = true → w.off % 0x1000 = 0x04C →
      s.secretPage (accOf w (.dmc n)) = false → s.writesAny (accOf w (.dmc n)) = true → 12 ≤ s.fld (.dmc n) F.DMC_PORT_SEL_PORT →
    ∃ t, exec (.dmcPortTargetAll w) s = .next t ∧ Records s t (.dmc n) 0x0006 (accOf w (.dmc n)).info
      ∧ OnlyChanges s t [.regs, .out, .msiPending] ∧ SameWordsBut s t (errWords (.dmc n)))
  ∧ (∀ (s : State) (w : RegWr) (n : Nat), Inv s → n < s.channels → s.arrives w (.dmc n) = true → w.off % 0x1000 = 0x054 →
      s.secretPage (accOf w (.dmc n)) = false → s.fld (.dmc n) F.DMC_PORT_SEL_PORT < 12 → bit 31 w.val.toNat = true →
    ∃ t, exec (.dmcPortMaxlatClear w) s = .next t
      ∧ t.rw (State.portKey n F.DMC_PORT_MAXLAT_LAT (s.fld (.dmc n) F.DMC_PORT_SEL_PORT)) = 0
      ∧ OnlyChanges s t [.regs] ∧ SameWordsBut s t [State.portKey n F.DMC_PORT_MAXLAT_LAT (s.fld (.dmc n) F.DMC_PORT_SEL_PORT)])
  ∧ (∀ (s : State) (w : RegWr) (n : Nat), Inv s → n < s.channels → s.arrives w (.dmc n) = true → w.off % 0x1000 = 0x060 →
      s.grants (accOf w (.dmc n)) F.DMC_REF_STAT_CLEAR = true →
    ∃ t, exec (.dmcDebtMaxClear w) s = .next t ∧ t.fld (.dmc n) F.DMC_REF_STAT_DEBT_MAX = s.fld (.dmc n) F.DMC_REF_STAT_DEBT
      ∧ t.fld (.dmc n) F.DMC_REF_STAT_DEBT = s.fld (.dmc n) F.DMC_REF_STAT_DEBT
      ∧ OnlyChanges s t [.regs] ∧ SameWordsBut s t [(Page.dmc n).key 0x060])
  ∧ (∀ (s : State) (w : RegWr) (n : Nat), Inv s → n < s.channels → s.ctrlGranted w (.dmc n) F.PG_CTRL_ENABLE 0 = true → s.fld (.dmc n) F.PG_CTRL_ENABLE = 1 →
      w.req.secure = true → s.faults.inReset = false → s.power.state = .run → s.faults.fatal = none →
    ∃ t, exec (.dmcStopWrite w) s = .next t ∧ (t.dmc n).failed = true ∧ (t.dmc n).reqs = [] ∧ t.faults.fatal = some 2 ∧ t.faults.fatalLast = 2
      ∧ t.fld (.dmc n) F.PG_CTRL_ENABLE = 0 ∧ t.fld (.dmc n) F.PG_STAT_ENABLED = 0 ∧ OnlyChanges s t (pieces (.dmcStopWrite w)))
  ∧ (∀ (s : State) (w : RegWr) (n : Nat), Inv s → n < s.channels → s.ctrlGranted w (.dmc n) F.PG_CTRL_ENABLE 0 = true → s.fld (.dmc n) F.PG_CTRL_ENABLE = 1 →
      w.req.secure = false →
    ∃ t, exec (.dmcStopWrite w) s = .next t ∧ Records s t (.dmc n) 0x000A (accOf w (.dmc n)).info
      ∧ OnlyChanges s t [.regs, .out, .msiPending] ∧ SameWordsBut s t (errWords (.dmc n)))

/-- R287, R300, R301, R302, R76: REGIONS_SET puts the region blocks in force when none breaks a rule, else 0x0403 names the first that does; RELEASE
drops the oldest log entry and CLEAR_ALL every entry with the count of lost ones; a retired plot is withheld at once when no buffer holds it; a bank
retirement makes the page BUSY until it completes, counts and sets RETIRE_DONE. -/
def Obligations.EdacPage : Prop :=
  (∀ (s : State) (w : RegWr), Inv s → s.wordGranted w .edac 0x040 = true → s.grants (accOf w .edac) F.EDAC_CTRL_REGIONS_SET = true →
      s.fld .edac F.EDAC_CTRL_REGIONS_SET = 0 → s.firstRegionFault = none →
    ∃ t, exec (.regionsSet w) s = .next t ∧ t.fld .edac F.EDAC_CTRL_REGIONS_SET = 1 ∧ t.fld .edac F.EDAC_CTRL_POISON_EN = bits 0 0 w.val.toNat
      ∧ OnlyChanges s t [.regs] ∧ SameWordsBut s t [Page.edac.key 0x040])
  ∧ (∀ (s : State) (w : RegWr) (r k : Nat), Inv s → s.wordGranted w .edac 0x040 = true → s.grants (accOf w .edac) F.EDAC_CTRL_REGIONS_SET = true →
      s.fld .edac F.EDAC_CTRL_REGIONS_SET = 0 → s.firstRegionFault = some (r, k) → bits 0 0 w.val.toNat = s.fld .edac F.EDAC_CTRL_POISON_EN →
    ∃ t, exec (.regionsSet w) s = .next t ∧ t.fld .edac F.EDAC_CTRL_REGIONS_SET = 0 ∧ Records s t .edac 0x0403 (r + k * 2 ^ 8)
      ∧ OnlyChanges s t [.regs, .out, .msiPending] ∧ SameWordsBut s t (errWords .edac))
  ∧ (∀ (s : State) (w : RegWr) (e : EdacEntry) (l : List EdacEntry), Inv s → s.wordGranted w .edac 0x05C = true → bits 1 0 w.val.toNat = 1 →
      s.edac.log = e :: l → l.length < 64 →
    ∃ t, exec (.edacLogRelease w) s = .next t ∧ t.edac = { s.edac with log := l } ∧ t.fld .edac F.EDAC_LOG_STAT_COUNT = l.length
      ∧ t.fld .edac F.EDAC_LOG_STAT_LOST = s.fld .edac F.EDAC_LOG_STAT_LOST
      ∧ OnlyChanges s t [.regs, .edac] ∧ SameWordsBut s t [Page.edac.key 0x058])
  ∧ (∀ (s : State) (w : RegWr), Inv s → s.wordGranted w .edac 0x05C = true → bit 1 w.val.toNat = true →
    ∃ t, exec (.edacLogClearAll w) s = .next t ∧ t.edac = { s.edac with log := [] } ∧ t.fld .edac F.EDAC_LOG_STAT_COUNT = 0
      ∧ t.fld .edac F.EDAC_LOG_STAT_LOST = 0 ∧ OnlyChanges s t [.regs, .edac] ∧ SameWordsBut s t [Page.edac.key 0x058])
  ∧ (∀ (s : State) (w : RegWr) (p : Nat), Inv s → s.arrives w .edac = true → w.off % 0x1000 = 0x074 → s.secretPage (accOf w .edac) = false →
      s.grants (accOf w .edac) F.EDAC_RETIRE_PLOT_PLOT = true → s.edac.retiring = none → p = bits 19 0 w.val.toNat → p < s.poolPlots → p ∉ s.pool.plots.retired → p ∉ s.pool.plots.marked →
      (s.pool.bufs.used.any fun b => b.2.plots.contains p) = false → bit 31 w.val.toNat = false →
    ∃ t, exec (.edacRetirePlot w) s = .next t
      ∧ t.pool.plots = { s.pool.plots with retired := s.pool.plots.retired ++ [p], freed := s.pool.plots.freed.filter (· != p) }
      ∧ t.edac = s.edac ∧ OnlyChanges s t [.regs, .out, .plots, .msiPending, .pair] ∧ SameWordsBut s t [Page.pool.key 0x010])
  ∧ (∀ (s : State) (w : RegWr), Inv s → s.arrives w .edac = true → w.off % 0x1000 = 0x074 → s.secretPage (accOf w .edac) = false →
      s.writesAny (accOf w .edac) = true → s.edac.retiring = none → s.poolPlots ≤ bits 19 0 w.val.toNat →
    ∃ t, exec (.edacRetirePlot w) s = .next t ∧ Records s t .edac 0x0006 (accOf w .edac).info
      ∧ OnlyChanges s t [.regs, .out, .msiPending] ∧ SameWordsBut s t (errWords .edac))
  ∧ (∀ (s : State) (w : RegWr) (b : Nat × Nat × Nat), Inv s → s.arrives w .edac = true → w.off % 0x1000 = 0x078 →
      s.secretPage (accOf w .edac) = false → s.grants (accOf w .edac) F.EDAC_RETIRE_BANK_CH = true → s.edac.retiring = none → b = (bits 3 0 w.val.toNat, bits 4 4 w.val.toNat, bits 8 5 w.val.toNat) →
      b.1 < s.channels → (b.2.1 = 1 → s.fld (.dmc 0) F.DMC_CFG_RANKS = 1) → bit 31 w.val.toNat = false →
    ∃ t, exec (.edacRetireBank w) s = .next t ∧ t.edac = { s.edac with retiring := some b } ∧ t.fld .edac F.PG_STAT_BUSY = 1
      ∧ t.fld .edac F.EDAC_BS_RETIRING = 1
      ∧ (∀ p < s.poolPlots, s.plotInBank b p = true → p ∈ t.pool.plots.retired ∨ p ∈ t.pool.plots.marked)
      ∧ OnlyChanges s t [.regs, .out, .edac, .plots, .msiPending, .pair])
  ∧ (∀ (s : State) (b : Nat × Nat × Nat), Inv s → s.edac.retiring = some b →
    ∃ t, exec .retireBankDone s = .next t ∧ t.edac = { s.edac with retiring := none } ∧ t.fld .edac F.PG_STAT_BUSY = 0
      ∧ t.fld .edac F.EDAC_BS_RETIRING = 0 ∧ t.fld .edac F.EDAC_RETIRE_STAT_BANKS = min 16 (s.fld .edac F.EDAC_RETIRE_STAT_BANKS + 1)
      ∧ t.word (Page.edac.key 0x010) = s.word (Page.edac.key 0x010) ||| 32#32 ∧ OnlyChanges s t [.regs, .out, .edac, .msiPending]
      ∧ SameWordsBut s t ([0x00C, 0x010, 0x07C].map Page.edac.key))

/-- R309, R310, R311, R321: a write of 1 to ENABLE of a touch engine whose panels pass the checks starts each enabled panel, in CALIBRATING when it has
neither a snapshot nor REF_EN; a failing check leaves ENABLE 0 and records its code with the panel and the reason. EN of a panel starts it from its
snapshot, and stops it at the end of the running frame or, between frames, at once. A soft reset stops every panel. A buffer of the wrong kind or
with one plot is refused; a right one is bound, UNBOUND clears and its owner receives the messages. Where a clause takes a reading of the model: log
entry 62. -/
def Obligations.TouchPanels : Prop :=
  (∀ (s : State) (w : RegWr) (e p : Nat), Inv s → e < 2 → p < 4 → s.ctrlGranted w (.tch e) F.PG_CTRL_ENABLE 1 = true →
      s.enabledPanels e = [p] → s.panelFault e [p] [p] = none → s.standby = false → s.snapshotFits e p = false →
      s.fld (.tch e) F.TCH_P_CFG_REF_EN [p] = 0 →
    ∃ t, exec (.tchEnable w) s = .next t ∧ t.fld (.tch e) F.PG_CTRL_ENABLE = 1 ∧ t.fld (.tch e) F.PG_STAT_ENABLED = 1
      ∧ (t.panel e p).state = .calibrating ∧ (t.panel e p).calStep = 0 ∧ (t.panel e p).contacts = []
      ∧ t.fld (.tch e) F.TCH_P_STAT_STATE [p] = 1 ∧ t.fld (.tch e) F.TCH_P_STAT_NO_REF [p] = 1
      ∧ (∀ q, q ≠ p → t.panel e q = s.panel e q) ∧ SameEntriesBut s.touch.engines t.touch.engines [e] ∧ OnlyChanges s t [.regs, .touch, .pair]
      ∧ SameWordsBut s t ([0x008, 0x00C, F.TCH_P_STAT_STATE.at [p]].map (Page.tch e).key))
  ∧ (∀ (s : State) (w : RegWr) (e code reason p : Nat), Inv s → e < 2 → s.ctrlGranted w (.tch e) F.PG_CTRL_ENABLE 1 = true →
      s.panelFault e (s.enabledPanels e) (s.enabledPanels e) = some (code, reason, p) →
    ∃ t, exec (.tchEnable w) s = .next t ∧ t.fld (.tch e) F.PG_CTRL_ENABLE = s.fld (.tch e) F.PG_CTRL_ENABLE
      ∧ Records s t (.tch e) code (p + reason * 2 ^ 8) ∧ OnlyChanges s t [.regs, .out, .msiPending] ∧ SameWordsBut s t (errWords (.tch e)))
  ∧ (∀ (s : State) (w : RegWr) (e p : Nat), Inv s → e < 2 → p < 4 → s.wordGranted w (.tch e) (F.TCH_P_CFG_EN.at [p]) = true →
      s.flag (.tch e) F.PG_CTRL_ENABLE = true → bit 0 w.val.toNat = true → bit 7 w.val.toNat = false →
      w.val.toNat = s.rw ((Page.tch e).key (F.TCH_P_CFG_EN.at [p])) + 1 →
      s.panelFault e ((s.enabledPanels e).filter (· != p) ++ [p]) [p] = none → s.standby = false → s.snapshotFits e p = true →
    ∃ t, exec (.tchPanelEnable w) s = .next t ∧ t.fld (.tch e) F.TCH_P_CFG_EN [p] = 1 ∧ (t.panel e p).state = .refStart
      ∧ (t.panel e p).nodes = s.loadReference e p true ∧ t.fld (.tch e) F.TCH_P_STAT_STATE [p] = 2
      ∧ t.fld (.tch e) F.TCH_P_STAT_NO_REF [p] = 0 ∧ (∀ q, q ≠ p → t.panel e q = s.panel e q) ∧ OnlyChanges s t [.regs, .touch, .pair]
      ∧ SameWordsBut s t ([0x00C, F.TCH_P_CFG_EN.at [p], F.TCH_P_STAT_STATE.at [p]].map (Page.tch e).key))
  ∧ (∀ (s : State) (w : RegWr) (e p : Nat), Inv s → e < 2 → p < 4 → s.wordGranted w (.tch e) (F.TCH_P_CFG_EN.at [p]) = true →
      bit 0 w.val.toNat = false → bit 7 w.val.toNat = false → w.val.toNat + 1 = s.rw ((Page.tch e).key (F.TCH_P_CFG_EN.at [p])) →
      (s.panel e p).state = .scanning → (s.touchEng e).todo.contains p = true →
    ∃ t, exec (.tchPanelDisable w) s = .next t ∧ t.fld (.tch e) F.TCH_P_CFG_EN [p] = 0 ∧ t.panel e p = { s.panel e p with leaving := true }
      ∧ (∀ q, q ≠ p → t.panel e q = s.panel e q) ∧ OnlyChanges s t [.regs, .touch, .pair])
  ∧ (∀ (s : State) (w : RegWr) (e p : Nat), Inv s → e < 2 → p < 4 → s.wordGranted w (.tch e) (F.TCH_P_CFG_EN.at [p]) = true →
      bit 0 w.val.toNat = false → bit 7 w.val.toNat = false → w.val.toNat + 1 = s.rw ((Page.tch e).key (F.TCH_P_CFG_EN.at [p])) →
      (s.panel e p).state = .scanning → (s.touchEng e).todo.contains p = false → (s.panel e p).contacts = [] →
      s.touchHandle e p = 0 →
    ∃ t, exec (.tchPanelDisable w) s = .next t ∧ t.fld (.tch e) F.TCH_P_CFG_EN [p] = 0 ∧ (t.panel e p).state = .off
      ∧ t.fld (.tch e) F.TCH_P_STAT_STATE [p] = 0 ∧ (∀ q, q ≠ p → t.panel e q = s.panel e q) ∧ OnlyChanges s t [.regs, .touch, .pair])
  ∧ (∀ (s : State) (w : RegWr) (e : Nat), Inv s → e < 2 →
      s.ctrlGranted w (.tch e) F.PG_CTRL_SOFT_RESET (2 + s.fld (.tch e) F.PG_CTRL_ENABLE) = true → s.pageArmed (Page.tch e).base = false →
    ∃ t, exec (.tchSoftReset w) s = .next t ∧ (∀ p < 4, t.panel e p = idlePanel) ∧ (t.touchEng e).todo = [] ∧ WordsReset s t (.tch e)
      ∧ (Sparse.find s.loaded ((Page.tch e).key 0x010) = none → t.rw ((Page.tch e).key 0x010) = 0) ∧ SameEntriesBut s.touch.engines t.touch.engines [e]
      ∧ OnlyChanges s t (pieces (.tchSoftReset w)))
  ∧ (∀ (s : State) (w : RegWr) (e p i : Nat) (b : Buf), Inv s → e < 2 → p < 4 → s.wordGranted w (.tch e) (F.TCH_P_BUF_BUFFER.at [p]) = true →
      w.val.toNat ≠ 0 → s.checkBuf w.req.fn w.val.toNat = .ok i → s.bufKind i = 4 → s.buf i = some b → 2 ≤ b.plots.length →
    ∃ t, exec (.tchBufWrite w) s = .next t ∧ t.fld (.tch e) F.TCH_P_BUF_BUFFER [p] = w.val.toNat
      ∧ t.fld (.tch e) F.TCH_P_STAT_UNBOUND [p] = 0 ∧ t.fld (.tch e) F.TCH_P_ROUTE_FUNCTION [p] = b.fn % 256
      ∧ (∀ q, q ≠ p → t.panel e q = s.panel e q) ∧ OnlyChanges s t [.regs, .touch, .pair]
      ∧ SameWordsBut s t ([0x00C, F.TCH_P_BUF_BUFFER.at [p], F.TCH_P_ROUTE_VECTOR.at [p], F.TCH_P_STAT_STATE.at [p]].map (Page.tch e).key))
  ∧ (∀ (s : State) (w : RegWr) (e p i : Nat) (b : Buf), Inv s → e < 2 → p < 4 → s.wordGranted w (.tch e) (F.TCH_P_BUF_BUFFER.at [p]) = true →
      w.val.toNat ≠ 0 → s.checkBuf w.req.fn w.val.toNat = .ok i → s.buf i = some b → (s.bufKind i = 4 → b.plots.length < 2) →
    ∃ t, exec (.tchBufWrite w) s = .next t ∧ t.touch = s.touch
      ∧ Records s t (.tch e) (if s.bufKind i = 4 then 0x0105 else 0x0107) (accOf w (.tch e)).info
      ∧ OnlyChanges s t [.regs, .out, .msiPending] ∧ SameWordsBut s t (errWords (.tch e)))

/-- R306, R308, R311, R313, R319, R321, R324: an engine frame begins between frames, scans the running panels in order on the active frequency, and ends
after the last of them with FRAMES counted and the noise stored. A panel's frame puts every node's decoded count into the node table; in CALIBRATING
it decides a bit of each compensation code in six frames and after eight more takes the mean as baseline and scans. A snapshot ends with a valid
GEOM unless the buffer was lost. CAPTURE_REF copies the baselines, and NODE_DATA reads and writes an entry and moves on. Where a clause takes a
reading of the model: log entry 62. -/
def Obligations.TouchFrames : Prop :=
  (∀ (s : State) (e f : Nat), Inv s → e < 2 → s.flag (.tch e) F.PG_STAT_ENABLED = true → (s.touchEng e).todo = [] →
      f = (s.touchEng e).hopTo.getD (s.touchEng e).freq → f < 4 →
      (∃ p < 4, (s.panel e p).state ≠ .off ∧ (s.panel e p).state ≠ .fault) →
    ∃ t, exec (.touchFrameStart e) s = .next t
      ∧ (t.touchEng e).todo = (List.range 4).filter (fun p => (s.panel e p).state != .off && (s.panel e p).state != .fault)
      ∧ (∀ p, t.panel e p = s.panel e p) ∧ (t.touchEng e).freq = f ∧ (t.touchEng e).hopTo = none ∧ t.fld (.tch e) F.TCH_STAT_FREQ = f
      ∧ (t.touchEng e).time = ((t.touchEng e).todo.map fun p => s.panelTime e p (s.touchEng e).charger f).sum
      ∧ t.fld (.tch e) F.TCH_STAT_RATE_ACT =
          (if (s.touchEng e).charger ∧ 1000000000 < (t.touchEng e).time * s.fld (.tch e) F.TCH_CTRL_RATE_HZ
           then 1000000000 / (t.touchEng e).time else s.fld (.tch e) F.TCH_CTRL_RATE_HZ)
      ∧ SameEntriesBut s.touch.engines t.touch.engines [e] ∧ OnlyChanges s t [.regs, .touch, .out, .msiPending]
      ∧ ((s.touchEng e).hopTo = none → t.out = s.out ∧ SameWordsBut s t ([0x04C, 0x050].map (Page.tch e).key))
      ∧ ((s.touchEng e).hopTo ≠ none → bit 2 (t.rw ((Page.tch e).key 0x010)) = true))
  ∧ (∀ (s : State) (e p q k v step : Nat) (r : List Nat) (m : List (List Nat × List Nat)) (listen cand : List Nat), Inv s → e < 2 → p < 4 →
      (s.touchEng e).todo = p :: q :: r → (s.panel e p).leaving = false → (s.panel e p).state = .calibrating → (s.panel e p).calStep = step →
      step < 6 → (State.frameCounts ((s.touchView e).panelCfg e p) m).find? (fun x => x.1 == k) = some (k, v) →
    ∃ t, exec (.touchPanelScanEnd e p m listen cand) s = .next t ∧ (t.touchEng e).todo = q :: r ∧ (t.panel e p).calStep = step + 1
      ∧ (∃ n, Sparse.find (t.panel e p).nodes k = some n ∧ n.count = v ∧ n.base = ((Sparse.find (s.panel e p).nodes k).getD idleNode).base
          ∧ n.comp = ((Sparse.find (s.panel e p).nodes k).getD idleNode).comp + (if 32768 ≤ v then 2 ^ (5 - step) else 0))
      ∧ OnlyChanges s t [.regs, .touch])
  ∧ (∀ (s : State) (e p q k v : Nat) (r : List Nat) (m : List (List Nat × List Nat)) (listen cand : List Nat), Inv s → e < 2 → p < 4 →
      (s.touchEng e).todo = p :: q :: r → (s.panel e p).leaving = false → (s.panel e p).state = .calibrating → (s.panel e p).calStep = 13 →
      (State.frameCounts ((s.touchView e).panelCfg e p) m).find? (fun x => x.1 == k) = some (k, v) →
    ∃ t, exec (.touchPanelScanEnd e p m listen cand) s = .next t ∧ (t.panel e p).state = .scanning
      ∧ t.fld (.tch e) F.TCH_P_STAT_STATE [p] = 3 ∧ bit 0 (t.rw ((Page.tch e).key 0x010)) = true
      ∧ (∃ n, Sparse.find (t.panel e p).nodes k = some n ∧ n.count = v
          ∧ n.base = (((Sparse.find (s.panel e p).nodes k).getD idleNode).sum + v + 4) / 8)
      ∧ OnlyChanges s t [.regs, .touch, .out, .msiPending])
  ∧ (∀ (s : State) (e p : Nat) (m : List (List Nat × List Nat)) (listen cand : List Nat), Inv s → e < 2 → p < 4 → (s.touchEng e).todo = [p] →
      (s.panel e p).leaving = false → (s.panel e p).state = .listening → (s.touchEng e).closing = false → (s.touchEng e).charger = false →
      (s.touchView e).fld (.tch e) F.TCH_CTRL_CHARGER_EN = 0 →
    ∃ t, exec (.touchPanelScanEnd e p m listen cand) s = .next t ∧ (t.touchEng e).todo = [] ∧ (∀ q, t.panel e q = s.panel e q)
      ∧ t.fld (.tch e) F.TCH_FRAMES_COUNT = (s.fld (.tch e) F.TCH_FRAMES_COUNT + 1) % 2 ^ 32
      ∧ t.fld (.tch e) F.TCH_FRAME_TIME_US = min 65535 ((s.touchEng e).time / 1000)
      ∧ t.fld (.tch e) F.TCH_STAT_NOISE = max (s.touchEng e).nCur (noiseOf listen) % 2 ^ 16 ∧ OnlyChanges s t [.regs, .touch])
  ∧ (∀ (s : State) (e p : Nat) (m : List (List Nat × List Nat)) (listen cand : List Nat), (s.touchEng e).todo.head? ≠ some p →
      exec (.touchPanelScanEnd e p m listen cand) s = .next s)
  ∧ (∀ (s : State) (e p i : Nat) (who : Attr), Inv s → e < 2 → p < 4 → (s.panel e p).state = .scanning → s.touchBuf e p = some (i, who) →
      s.fld (.tch e) F.TCH_P_STAT_UNBOUND [p] = 0 → s.inCheckArea (s.bufAddr i 16) = false → s.bufAddr i 16 % 16 = 0 →
    ∃ t, exec (.touchSnapshot e p) s = .next t ∧ (t.fld (.tch e) F.TCH_P_STAT_UNBOUND [p] = 0 → t.snapshotFits e p = true)
      ∧ (t.fld (.tch e) F.TCH_P_STAT_UNBOUND [p] = 1 → bit 6 (t.rw ((Page.tch e).key 0x010)) = true) ∧ t.touch = s.touch
      ∧ SameDramBut s t (fun w => s.bufWord i w ∨ s.tableWord i w))
  ∧ (∀ (s : State) (e p : Nat), (s.panel e p).state ≠ .scanning → exec (.touchSnapshot e p) s = .next s)
  ∧ (∀ (s : State) (w : RegWr) (e p k : Nat) (n : Node), Inv s → e < 2 → p < 4 → s.wordGranted w (.tch e) (F.TCH_P_CFG_EN.at [p]) = true →
      bit 7 w.val.toNat = true → w.val.toNat = s.rw ((Page.tch e).key (F.TCH_P_CFG_EN.at [p])) + 128 →
      Sparse.find (s.panel e p).nodes k = some n →
    ∃ t, exec (.captureRef w) s = .next t ∧ Sparse.find (t.panel e p).nodes k = some { n with refBase := n.base, refComp := n.comp }
      ∧ (∀ q, q ≠ p → t.panel e q = s.panel e q) ∧ SameEntriesBut s.touch.engines t.touch.engines [e] ∧ OnlyChanges s t [.regs, .touch, .pair]
      ∧ SameWordsBut s t ([0x00C, F.TCH_P_STAT_STATE.at [p]].map (Page.tch e).key))
  ∧ (∀ (s : State) (w : RegWr) (e p drv sns : Nat), Inv s → e < 2 → s.readReaches ⟨w.req, w.win, w.off⟩ (.tch e) = true → w.off % 0x1000 = 0x05C →
      s.secretPage (accOf w (.tch e)) = false → s.fld (.tch e) F.TCH_NODE_ADDR_PANEL = p → s.fld (.tch e) F.TCH_NODE_ADDR_DRIVE = drv →
      s.fld (.tch e) F.TCH_NODE_ADDR_SENSE = sns → s.fld (.tch e) F.TCH_NODE_ADDR_FIELD = 1 → drv < (s.panelCfg e p).d → sns < (s.panelCfg e p).n →
    ∃ t, exec (.tchNodeDataAccess w true) s = .next t
      ∧ t.out = s.out ++ [.readData w.req.fn (BitVec.ofNat 32 ((Sparse.find (s.panel e p).nodes (nodeKey drv sns)).getD idleNode).base)]
      ∧ t.fld (.tch e) F.TCH_NODE_ADDR_SENSE = (if sns + 1 < (s.panelCfg e p).n then sns + 1 else 0)
      ∧ t.fld (.tch e) F.TCH_NODE_ADDR_DRIVE = (if sns + 1 < (s.panelCfg e p).n then drv else drv + 1)
      ∧ OnlyChanges s t [.regs, .out] ∧ SameWordsBut s t [(Page.tch e).key 0x058])
  ∧ (∀ (s : State) (w : RegWr) (e p drv sns : Nat) (n : Node), Inv s → e < 2 → s.arrives w (.tch e) = true → w.off % 0x1000 = 0x05C →
      s.secretPage (accOf w (.tch e)) = false → s.fld (.tch e) F.TCH_NODE_ADDR_PANEL = p → s.fld (.tch e) F.TCH_NODE_ADDR_DRIVE = drv →
      s.fld (.tch e) F.TCH_NODE_ADDR_SENSE = sns → s.fld (.tch e) F.TCH_NODE_ADDR_FIELD = 1 → drv < (s.panelCfg e p).d → sns < (s.panelCfg e p).n →
      Sparse.find (s.panel e p).nodes (nodeKey drv sns) = some n →
    ∃ t, exec (.tchNodeDataAccess w false) s = .next t
      ∧ Sparse.find (t.panel e p).nodes (nodeKey drv sns) = some { n with base := w.val.toNat % 65536 }
      ∧ SameEntriesBut (s.panel e p).nodes (t.panel e p).nodes [nodeKey drv sns] ∧ (∀ q, q ≠ p → t.panel e q = s.panel e q)
      ∧ OnlyChanges s t [.regs, .touch, .pair])
  ∧ (∀ (s : State) (w : RegWr) (e : Nat), Inv s → e < 2 → s.arrives w (.tch e) = true → w.off % 0x1000 = 0x05C →
      s.secretPage (accOf w (.tch e)) = false → w.val.toNat ≠ 0 → 6 ≤ s.fld (.tch e) F.TCH_NODE_ADDR_FIELD → s.fld (.tch e) F.ERR_CODE_CODE = 0 →
    ∃ t, exec (.tchNodeDataAccess w false) s = .next t ∧ t.touch = s.touch ∧ t.fld (.tch e) F.ERR_CODE_CODE = 0x0D02
      ∧ t.rw ((Page.tch e).key 0x024) = s.rw ((Page.tch e).key 0x058) % 2 ^ 20 ∧ OnlyChanges s t [.regs, .out, .msiPending, .pair])

/-- R327 to R340: HAPTIC_PLAY of a tap is an arrival at its channel, of a clip that is not resident waits for its extent, and a failed check of R337
completes with its code; TOUCH_RULE adds at the lowest free index and removes; a matching hand-off fires a rule once; a loaded extent lets its
commands go on. Where a clause takes a reading of the model: log entry 64. -/
def Obligations.HapticCommands : Prop :=
  (∀ (s : State) (c : CmdArgs) (e : Effect), Inv s → s.accepts 0x30 c = true → s.posts c.fn c.q = true → bits 31 3 (c.params.getD 0 0) = 0 →
      e = effectOf c.fn (c.params.getD 1 0) (c.params.getD 2 0) (c.params.getD 3 0) (c.params.getD 4 0) → e.tapSource = true →
      s.effectCheck c.fn (bits 2 0 (c.params.getD 0 0)) (c.params.getD 1 0) (c.params.getD 2 0) (c.params.getD 3 0) (c.params.getD 4 0)
        false none false false = none →
    ∃ t, exec (.hapticPlay c) s = .next t
      ∧ (t.hap (bits 2 0 (c.params.getD 0 0))).arrivals = (s.hap (bits 2 0 (c.params.getD 0 0))).arrivals ++ [⟨e, none, some s.hosts.nextJid, 0⟩]
      ∧ ((t.job s.hosts.nextJid).map fun j => (j.fn, j.q, j.cid, j.stage)) = some (c.fn, c.q, c.cid, .fetched) ∧ t.out = s.out
      ∧ SameEntriesBut s.haptic.chans t.haptic.chans [bits 2 0 (c.params.getD 0 0)] ∧ t.haptic.rules = s.haptic.rules
      ∧ OnlyChanges s t [.regs, .haptic, .queues, .jobs])
  ∧ (∀ (s : State) (c : CmdArgs) (e : Effect), Inv s → s.accepts 0x30 c = true → s.posts c.fn c.q = true → bits 31 3 (c.params.getD 0 0) = 0 →
      e = effectOf c.fn (c.params.getD 1 0) (c.params.getD 2 0) (c.params.getD 3 0) (c.params.getD 4 0) → e.tapSource = false →
      s.effectCheck c.fn (bits 2 0 (c.params.getD 0 0)) (c.params.getD 1 0) (c.params.getD 2 0) (c.params.getD 3 0) (c.params.getD 4 0)
        false none false false = none → s.extentOf e = none →
    ∃ t, exec (.hapticPlay c) s = .next t ∧ t.haptic.plays = s.haptic.plays ++ [(s.hosts.nextJid, bits 2 0 (c.params.getD 0 0), e)]
      ∧ t.haptic.extents = s.haptic.extents ++ [⟨e.clip, e.offset, e.length, c.fn, none⟩] ∧ t.haptic.chans = s.haptic.chans ∧ t.out = s.out
      ∧ OnlyChanges s t [.regs, .haptic, .bufs, .queues, .jobs])
  ∧ (∀ (s : State) (c : CmdArgs) (code : Nat), Inv s → s.accepts 0x30 c = true → s.posts c.fn c.q = true →
      s.effectCheck c.fn (bits 2 0 (c.params.getD 0 0)) (c.params.getD 1 0) (c.params.getD 2 0) (c.params.getD 3 0) (c.params.getD 4 0)
        (bits 31 3 (c.params.getD 0 0) != 0) none false false = some code →
    ∃ t, exec (.hapticPlay c) s = .next t ∧ Completed s t c code [] ∧ t.haptic = s.haptic ∧ OnlyChanges s t [.out, .queues, .jobs, .msiPending])
  ∧ (∀ (s : State) (c : CmdArgs) (k : Nat), Inv s → s.accepts 0x31 c = true → s.posts c.fn c.q = true →
      (c.params.getD 0 0) % 65536 = 0 → bit 19 (c.params.getD 0 0) = false → bit 23 (c.params.getD 0 0) = false →
      bits 31 27 (c.params.getD 0 0) = 0 → (State.ruleOf c.fn c.params).events ≠ 0 → s.clipReady (State.ruleOf c.fn c.params).effect = true →
      (State.ruleOf c.fn c.params).w ≠ 0 → (State.ruleOf c.fn c.params).h ≠ 0 → s.haptic.adds = [] → s.haptic.rules.length < 64 →
      s.effectCheck c.fn (bits 22 20 (c.params.getD 0 0)) (c.params.getD 3 0) (c.params.getD 4 0) (c.params.getD 5 0) (c.params.getD 6 0)
        false (some (bits 18 16 (c.params.getD 0 0))) false false = none →
      k < 64 → Sparse.find s.haptic.rules k = none → (∀ i < k, Sparse.find s.haptic.rules i ≠ none) →
    ∃ t, exec (.touchRule c) s = .next t ∧ Completed s t c 0 [k] ∧ Sparse.find t.haptic.rules k = some (State.ruleOf c.fn c.params)
      ∧ SameEntriesBut s.haptic.rules t.haptic.rules [k] ∧ t.haptic.chans = s.haptic.chans
      ∧ OnlyChanges s t [.regs, .out, .haptic, .bufs, .queues, .jobs, .msiPending, .pair])
  ∧ (∀ (s : State) (c : CmdArgs) (i : Nat) (r : Rule), Inv s → s.accepts 0x31 c = true → s.posts c.fn c.q = true → i < 64 →
      c.params.getD 0 0 = 1 + i * 2 ^ 8 → (∀ k < 6, c.params.getD (k + 1) 0 = 0) → Sparse.find s.haptic.rules i = some r →
      r.leaving = false → (isVf c.fn = true → r.fn = c.fn) →
    ∃ t, exec (.touchRule c) s = .next t ∧ Completed s t c 0 [] ∧ Sparse.find t.haptic.rules i = some { r with leaving := true }
      ∧ SameEntriesBut s.haptic.rules t.haptic.rules [i] ∧ t.haptic.chans = s.haptic.chans
      ∧ OnlyChanges s t [.out, .haptic, .queues, .jobs, .msiPending, .pair])
  ∧ (∀ (s : State) (i : Nat) (r : Rule) (h : Handoff) (rest : List Handoff), Inv s → s.standby = false → s.touch.handoffs = h :: rest →
      s.haptic.rules = [(i, r)] → r.panel = h.panel → s.fnState r.fn ≠ .resetting → h.entries.any (State.ruleMatches r) = true →
    ∃ t, exec .ruleMatch s = .next t ∧ t.touch = { s.touch with handoffs := rest }
      ∧ t.haptic.rules = [(i, { r with fires := (r.fires + 1) % 2 ^ 32 })]
      ∧ (t.hap r.channel).arrivals = (s.hap r.channel).arrivals ++ [⟨r.effect, some i, none, h.time⟩]
      ∧ SameEntriesBut s.haptic.chans t.haptic.chans [r.channel] ∧ OnlyChanges s t [.regs, .bufs, .touch, .haptic])
  ∧ (∀ (s : State) (i : Nat) (r : Rule) (h : Handoff) (rest : List Handoff), Inv s → s.touch.handoffs = h :: rest → s.haptic.rules = [(i, r)] →
      (r.panel ≠ h.panel ∨ h.entries.any (State.ruleMatches r) = false ∨ s.standby = true) →
    ∃ t, exec .ruleMatch s = .next t ∧ t.touch = { s.touch with handoffs := rest } ∧ OnlyChanges s t [.touch])
  ∧ (∀ (s : State) (x : Extent) (j ch : Nat) (e : Effect), Inv s → s.haptic.extents = [x] → x.samples = none → s.haptic.adds = [] →
      s.haptic.plays = [(j, ch, e)] → e.names x = true →
    ∃ t, exec .clipLoadDone s = .next t ∧ (t.hap ch).arrivals = (s.hap ch).arrivals ++ [⟨e, none, some j, 0⟩] ∧ t.haptic.plays = []
      ∧ (∃ l, l.length = x.length ∧ t.haptic.extents = [{ x with samples := some l }])
      ∧ SameEntriesBut s.haptic.chans t.haptic.chans [ch] ∧ t.hosts.jobs = s.hosts.jobs)

/-- R329 to R333, R340: at a period boundary an effect that wins starts an idle channel, its command completes OK and the START duty is the gained
sample times START_GAIN; a driving channel takes the DRIVE duty; braking ends in IDLE after BRAKE_MAX periods; a current of I_FAULT or more is a
fault of reason 1. EN takes a channel from OFF to IDLE, from FAULT to OFF, and from every other state through braking to OFF; a removed rule is gone
after the boundary; a standby or disabled channel drives nothing; calibration starts from IDLE only, and its end stores F_RES and G or is a fault of
reason 4. Where a clause takes a reading of the model: log entries 64 and 92. -/
def Obligations.HapticChannels : Prop :=
  (∀ (s : State) (c jid carrier : Nat) (adcA adcI v : Int) (x : Arrival) (j : Job) (ext : Extent) (l : List Int), Inv s → c < 8 → s.standby = false →
      s.hapRuns = true → s.haptic.rules.all (fun p => !p.2.leaving) = true →
      (s.hap c).state = .idle → (s.hap c).effect = none → (s.hap c).waiting = none → (s.hap c).arrivals = [x] → x.rule = none →
      x.jid = some jid → s.awaits jid j = true → x.effect.gain ≠ 0 → x.effect.tapSource = false → s.extentOf x.effect = some ext →
      ext.samples = some (v :: l) → s.fld .hap F.HAP_H_PHASE_START_PERIODS [c] ≠ 0 → (s.fld .hap F.HAP_H_LIMIT_I_LIMIT [c] = 0 ∨ adcI.natAbs < s.fld .hap F.HAP_H_LIMIT_I_LIMIT [c]) →
    ∃ t, exec (.controlPeriod c adcA adcI carrier) s = .next t ∧ (t.hap c).state = .start ∧ (t.hap c).effect = some x.effect
      ∧ (t.hap c).arrivals = [] ∧ (t.hap c).period = 1
      ∧ (t.hap c).duty = clamp (-32767) 32767 (clamp (-32767) 32767 (v * x.effect.gain / 2 ^ 15) * s.fld .hap F.HAP_H_PHASE_START_GAIN [c] / 2 ^ 12)
      ∧ Posts s t j false 0 [] ∧ t.fld .hap F.HAP_H_STAT_STATE [c] = 2
      ∧ t.fld .hap F.HAP_H_COUNTS_STARTED [c] = (s.fld .hap F.HAP_H_COUNTS_STARTED [c] + 1) % 2 ^ 16
      ∧ SameEntriesBut s.haptic.chans t.haptic.chans [c] ∧ t.haptic.rules = s.haptic.rules ∧ t.haptic.extents = s.haptic.extents)
  ∧ (∀ (s : State) (c carrier : Nat) (adcA adcI v a i' : Int) (e : Effect) (ext : Extent) (l : List Int), Inv s → c < 8 → s.standby = false →
      s.hapRuns = true → s.haptic.rules.all (fun p => !p.2.leaving) = true →
      (s.hap c).state = .drive → (s.hap c).effect = some e → (s.hap c).waiting = none → (s.hap c).arrivals = [] → (s.hap c).ending = false →
      e.tapSource = false → (s.hap c).period < e.length → s.extentOf e = some ext → ext.samples = some l → l.getD (s.hap c).period 0 = v →
      (s.hap c).duty.natAbs < 16384 → (s.fld .hap F.HAP_H_LIMIT_I_LIMIT [c] = 0 ∨ adcI.natAbs < s.fld .hap F.HAP_H_LIMIT_I_LIMIT [c]) →
      (s.fld .hap F.HAP_H_LIMIT_I_FAULT [c] = 0 ∨ adcI.natAbs < s.fld .hap F.HAP_H_LIMIT_I_FAULT [c]) → s.fld .hap F.HAP_H_SENSE_ACC_INV [c] = 0 →
      a = clamp (-32767) 32767 (adcA * s.fld .hap F.HAP_H_SENSE_ACC_SCALE [c] / 2 ^ 12) →
      i' = clamp (-1048576) 1048576 ((s.hap c).integ + (clamp (-32767) 32767 (v * e.gain / 2 ^ 15) - a)) →
    ∃ t, exec (.controlPeriod c adcA adcI carrier) s = .next t ∧ (t.hap c).state = .drive ∧ (t.hap c).effect = some e
      ∧ (t.hap c).period = (s.hap c).period + 1 ∧ (t.hap c).integ = i'
      ∧ (t.hap c).duty = clamp (-32767) 32767 ((clamp (-32767) 32767 (v * e.gain / 2 ^ 15) * s.fld .hap F.HAP_H_GAIN1_KF [c]
          + (clamp (-32767) 32767 (v * e.gain / 2 ^ 15) - a) * s.fld .hap F.HAP_H_GAIN0_KP [c] + i' * s.fld .hap F.HAP_H_GAIN0_KI [c]) / 2 ^ 12)
      ∧ t.out = s.out ++ [.bridge c (s.bridgeOf (s.hap c).duty (t.hap c).duty)]
      ∧ SameEntriesBut s.haptic.chans t.haptic.chans [c] ∧ OnlyChanges s t [.regs, .haptic, .out]
      ∧ SameWordsBut s t [Page.hap.key 0x00C, Page.hap.key (F.HAP_H_STAT_STATE.at [c])])
  ∧ (∀ (s : State) (c carrier : Nat) (adcA adcI : Int), Inv s → c < 8 → s.standby = false → s.hapRuns = true →
      s.haptic.rules.all (fun p => !p.2.leaving) = true → (s.hap c).state = .brake →
      (s.hap c).effect = none → (s.hap c).waiting = none → (s.hap c).arrivals = [] → s.fld .hap F.HAP_H_PHASE_BRAKE_MAX [c] ≤ (s.hap c).braked →
      (s.hap c).limited = 0 → (s.fld .hap F.HAP_H_LIMIT_I_FAULT [c] = 0 ∨ adcI.natAbs < s.fld .hap F.HAP_H_LIMIT_I_FAULT [c]) →
    ∃ t, exec (.controlPeriod c adcA adcI carrier) s = .next t ∧ (t.hap c).state = (if (s.hap c).turnOff then .off else .idle)
      ∧ (t.hap c).duty = 0 ∧ t.out = s.out ++ [.bridge c .low]
      ∧ SameEntriesBut s.haptic.chans t.haptic.chans [c] ∧ OnlyChanges s t [.regs, .haptic, .out])
  ∧ (∀ (s : State) (c carrier : Nat) (adcA adcI : Int), Inv s → c < 8 → s.standby = false → s.hapRuns = true →
      (s.hap c).state ∈ [.start, .drive, .brake, .cal] →
      s.fld .hap F.HAP_H_LIMIT_I_FAULT [c] ≠ 0 → s.fld .hap F.HAP_H_LIMIT_I_FAULT [c] ≤ adcI.natAbs →
    ∃ t, exec (.controlPeriod c adcA adcI carrier) s = .next t ∧ (t.hap c).state = .fault ∧ (t.hap c).duty = 0 ∧ (t.hap c).effect = none ∧ .bridge c .low ∈ t.out
      ∧ t.fld .hap F.HAP_H_STAT_FAULT_REASON [c] = 1 ∧ bit 0 (t.rw (Page.hap.key 0x010)) = true
      ∧ (s.fld .hap F.ERR_CODE_CODE = 0 → t.fld .hap F.ERR_CODE_CODE = 0x0E03 ∧ t.rw (Page.hap.key 0x024) = c + 1 * 2 ^ 8)
      ∧ SameEntriesBut s.haptic.chans t.haptic.chans [c])
  ∧ (∀ (s : State) (tap : Nat) (v : Int), tap < 8 → s.tapFed tap = true →
    ∃ t, exec (.tapSample tap v) s = .next t
      ∧ Sparse.find t.haptic.taps tap = some (clamp (-32768) 32767 v, s.now) ∧ tap ∉ t.haptic.stalled
      ∧ SameEntriesBut s.haptic.taps t.haptic.taps [tap] ∧ t.haptic.chans = s.haptic.chans ∧ OnlyChanges s t [.haptic])
  ∧ (∀ (s : State) (w : RegWr) (c : Nat), Inv s → c < 8 → s.wordGranted w .hap (F.HAP_H_CTRL_EN.at [c]) = true → bit 1 w.val.toNat = false →
      bit 0 w.val.toNat = true → w.val.toNat = s.rw (Page.hap.key (F.HAP_H_CTRL_EN.at [c])) + 1 → (s.hap c).state = .off →
    ∃ t, exec (.hapChannelEnable w) s = .next t ∧ t.fld .hap F.HAP_H_CTRL_EN [c] = 1 ∧ t.hap c = { s.hap c with state := .idle }
      ∧ t.fld .hap F.HAP_H_STAT_STATE [c] = 1 ∧ SameEntriesBut s.haptic.chans t.haptic.chans [c] ∧ OnlyChanges s t [.regs, .haptic, .pair]
      ∧ SameWordsBut s t ([0x00C, F.HAP_H_CTRL_EN.at [c], F.HAP_H_STAT_STATE.at [c]].map Page.hap.key))
  ∧ (∀ (s : State) (w : RegWr) (c : Nat), Inv s → c < 8 → s.wordGranted w .hap (F.HAP_H_CTRL_EN.at [c]) = true → bit 1 w.val.toNat = false →
      bit 0 w.val.toNat = false → w.val.toNat + 1 = s.rw (Page.hap.key (F.HAP_H_CTRL_EN.at [c])) → (s.hap c).state = .fault →
    ∃ t, exec (.hapChannelEnable w) s = .next t ∧ t.fld .hap F.HAP_H_CTRL_EN [c] = 0 ∧ t.hap c = { s.hap c with state := .off }
      ∧ t.fld .hap F.HAP_H_STAT_FAULT_REASON [c] = 0 ∧ t.fld .hap F.HAP_H_STAT_STATE [c] = 0 ∧ OnlyChanges s t [.regs, .haptic, .pair])
  ∧ (∀ (s : State) (w : RegWr) (c : Nat), Inv s → c < 8 → s.wordGranted w .hap (F.HAP_H_CTRL_EN.at [c]) = true → bit 1 w.val.toNat = false →
      bit 0 w.val.toNat = false → w.val.toNat + 1 = s.rw (Page.hap.key (F.HAP_H_CTRL_EN.at [c])) →
      (s.hap c).state ∈ [.idle, .start, .drive, .cal] → s.fld .hap F.HAP_H_PHASE_BRAKE_MAX [c] ≠ 0 →
    ∃ t, exec (.hapChannelEnable w) s = .next t ∧ t.fld .hap F.HAP_H_CTRL_EN [c] = 0
      ∧ t.hap c = { s.hap c with state := .brake, turnOff := true, braked := 0, quiet := 0, ending := false }
      ∧ t.fld .hap F.HAP_H_STAT_STATE [c] = 4 ∧ OnlyChanges s t [.regs, .haptic, .pair])
  ∧ (∀ (s : State) (w : RegWr) (c : Nat), Inv s → c < 8 → s.wordGranted w .hap (F.HAP_H_CTRL_EN.at [c]) = true → bit 1 w.val.toNat = true →
      w.val.toNat = s.rw (Page.hap.key (F.HAP_H_CTRL_EN.at [c])) + 2 → (s.hap c).state = .idle → s.hapRuns = true →
      s.fld .hap F.HAP_H_CALCFG_F_LO [c] < s.fld .hap F.HAP_H_CALCFG_F_HI [c] → s.fld .hap F.HAP_H_CALCFG_CAL_LEVEL [c] ≠ 0 →
    ∃ t, exec (.calStart w) s = .next t ∧ (t.hap c).state = .cal ∧ t.fld .hap F.HAP_H_STAT_STATE [c] = 5 ∧ OnlyChanges s t [.regs, .haptic, .pair])
  ∧ (∀ (s : State) (w : RegWr) (c : Nat), Inv s → c < 8 → s.wordGranted w .hap (F.HAP_H_CTRL_EN.at [c]) = true → bit 1 w.val.toNat = true →
      w.val.toNat = s.rw (Page.hap.key (F.HAP_H_CTRL_EN.at [c])) + 2 → (s.hap c).state ≠ .idle →
    ∃ t, exec (.calStart w) s = .next t ∧ t.haptic = s.haptic ∧ Records s t .hap 0x0009 (accOf w .hap).info
      ∧ OnlyChanges s t [.regs, .out, .msiPending, .pair] ∧ SameWordsBut s t (errWords .hap))
  ∧ (∀ (s : State) (c freq peak level : Nat), Inv s → c < 8 → (s.hap c).state = .cal → (s.hap c).peak = peak → s.fld .hap F.HAP_H_CALCFG_CAL_LEVEL [c] = level →
      level ≠ 0 → level ≤ 16 * peak →
    ∃ t, exec (.calDone c freq peak) s = .next t ∧ t.fld .hap F.HAP_H_CAL_F_RES [c] = freq % 2 ^ 16
      ∧ t.fld .hap F.HAP_H_CAL_G [c] = min 0xFFFF (peak * 4096 / level) ∧ (t.hap c).state = .idle ∧ bit 1 (t.rw (Page.hap.key 0x010)) = true
      ∧ OnlyChanges s t [.regs, .haptic, .out, .msiPending]
      ∧ SameWordsBut s t ([0x00C, 0x010, F.HAP_H_CAL_F_RES.at [c], F.HAP_H_STAT_STATE.at [c]].map Page.hap.key))
  ∧ (∀ (s : State) (c freq : Nat), Inv s → c < 8 → (s.hap c).state = .cal →
      (s.hap c).peak < s.fld .hap F.HAP_H_CALCFG_CAL_LEVEL [c] / 16 →
    ∃ t, exec (.calDone c freq (s.hap c).peak) s = .next t ∧ (t.hap c).state = .idle
      ∧ t.rw (Page.hap.key (F.HAP_H_CAL_F_RES.at [c])) = s.rw (Page.hap.key (F.HAP_H_CAL_F_RES.at [c])) ∧ bit 0 (t.rw (Page.hap.key 0x010)) = true)
  ∧ (∀ (s : State) (c carrier i : Nat) (adcA adcI : Int) (r : Rule), Inv s → c < 8 → Sparse.find s.haptic.rules i = some r → r.leaving = true →
      r.channel = c →
    ∃ t, exec (.controlPeriod c adcA adcI carrier) s = .next t ∧ Sparse.find t.haptic.rules i = none)
  ∧ (∀ (s : State) (c carrier : Nat) (adcA adcI : Int), Inv s → c < 8 → (s.standby = true ∨ s.hapRuns = false) →
    ∃ t, exec (.controlPeriod c adcA adcI carrier) s = .next t ∧ (t.hap c).duty = 0 ∧ (t.hap c).arrivals = [] ∧ (t.hap c).waiting = none
      ∧ .bridge c (if s.standby then .highZ else .low) ∈ t.out ∧ SameEntriesBut s.haptic.chans t.haptic.chans [c])

/-- R358 to R362, R364, R365, R369: AUDIO_QUEUE that passes its checks completes DEFERRED and its region waits at the stream; at a block boundary a
region that has played all its samples posts its final completion with their number and T0, and a running stream without a region records 0x0F03; EN
of 0 ends a stream at the next boundary; STRc_CHANNEL takes a channel of its kind. APPLY arms the pending fields for every domain, or records the
first failing register; a bridge that has run for its delay is primed; a soft reset of AUD0 stops everything. Where a clause takes a reading of the
model: log entry 65. -/
def Obligations.AudioStreams : Prop :=
  (∀ (s : State) (c : CmdArgs) (ch i : Nat) (b : Buf), Inv s → s.accepts 0x28 c = true → s.posts c.fn c.q = true → ch < 64 →
      c.params.getD 0 0 = ch + 1 * 2 ^ 8 → s.checkBuf c.fn (c.params.getD 1 0) = .ok i → s.buf i = some b → s.bufKind i ∈ [2, 3] →
      b.chanHandle = s.strFld ch F.STR_CHANNEL_CHANNEL → c.params.getD 3 0 ≠ 0 → c.params.getD 3 0 % 16 = 0 → c.params.getD 2 0 % 4 = 0 →
      c.params.getD 2 0 + c.params.getD 3 0 * s.sampleBytes ch ≤ b.plots.length * 65536 → s.blockStopped (.aud 0) = false →
      s.flag (.aud 0) F.PG_CTRL_ENABLE = true → s.strFld ch F.STR_CFG_EN = 1 → s.strFld ch F.STR_CFG_DOMAIN = 0 →
      (s.stream ch).regions.length < 8 →
    ∃ t, exec (.audioQueue c) s = .next t ∧ Completed s t c 1 []
      ∧ (t.stream ch).regions = (s.stream ch).regions ++ [⟨s.hosts.nextJid, c.fn, i, c.params.getD 2 0, c.params.getD 3 0, false, 0, none, 3⟩]
      ∧ (t.stream ch).running = (s.stream ch).running ∧ (t.buf i).map Buf.fences = some (b.fences + 1)
      ∧ t.strFld ch F.STR_STAT_QUEUED = (s.stream ch).regions.length + 1
      ∧ SameEntriesBut s.audio.streams t.audio.streams [ch] ∧ OnlyChanges s t [.regs, .out, .bufs, .audio, .queues, .jobs, .msiPending])
  ∧ (∀ (s : State) (d ch t0 : Nat) (r : AudRegion) (j : Job), Inv s → d < 3 → ch < 64 → s.flag (.aud 0) F.PG_STAT_ENABLED = true →
      s.flag (.aud 0) F.PG_CTRL_ENABLE = true → s.audio.closing = [] → s.audio.faded = [] → s.audio.pause ≠ 2 → s.audio.armed = none → s.audio.fades = [] → s.audio.applying = false →
      s.streamsOf d 0 = [ch] → s.streamsOf d 1 = [] → (∀ b < 24, s.busDomain b ≠ d) → (∀ p < 12, s.tdmFld p F.TDM_CFG_DOMAIN ≠ d) →
      (s.stream ch).regions = [r] → (s.stream ch).running = true → (s.stream ch).ending = false → (s.stream ch).squashed = false → r.t0 = some t0 → r.length = r.done + 16 → s.owes r.jid j = true →
      (s.buf r.buf).map Buf.state = some .live →
      (s.audRead (s.audAttr r.fn) r.buf ((r.offset + s.sampleBytes ch * r.done) / 16 * 16)
        ((r.offset + s.sampleBytes ch * r.done + 16 * s.sampleBytes ch - (r.offset + s.sampleBytes ch * r.done) / 16 * 16 + 15) / 16)).1 ≠ none →
    ∃ t, exec (.audioBlockBoundary d [] []) s = .next t ∧ (t.stream ch).regions = [] ∧ (t.stream ch).running = !r.last
      ∧ Posts s t j true 0 [r.done + 16, t0 % 2 ^ 32, t0 / 2 ^ 32 % 2 ^ 32]
      ∧ t.fld (.aud 8) F.AUD_BLOCKS_COUNT [d] = (s.fld (.aud 8) F.AUD_BLOCKS_COUNT [d] + 1) % 2 ^ 32
      ∧ SameEntriesBut s.audio.streams t.audio.streams [ch] ∧ t.audio.active = s.audio.active)
  ∧ (∀ (s : State) (d ch : Nat), Inv s → d < 3 → ch < 64 → s.flag (.aud 0) F.PG_STAT_ENABLED = true →
      s.flag (.aud 0) F.PG_CTRL_ENABLE = true → s.audio.closing = [] → s.audio.faded = [] → s.audio.pause ≠ 2 → s.audio.armed = none → s.audio.fades = [] → s.audio.applying = false →
      s.streamsOf d 0 = [ch] → s.streamsOf d 1 = [] → (∀ b < 24, s.busDomain b ≠ d) → (∀ p < 12, s.tdmFld p F.TDM_CFG_DOMAIN ≠ d) →
      (s.stream ch).regions = [] → (s.stream ch).running = true → (s.stream ch).ending = false → (s.stream ch).squashed = false →
    ∃ t, exec (.audioBlockBoundary d [] []) s = .next t ∧ t.stream ch = ⟨[], false, 0, false, false⟩
      ∧ t.strFld ch F.STR_STAT_MISSES = min (s.strFld ch F.STR_STAT_MISSES + 1) (2 ^ (F.STR_STAT_MISSES.hi + 1 - F.STR_STAT_MISSES.lo) - 1)
      ∧ bit 0 (t.rw ((strPage ch).key 0x010)) = true ∧ (s.fld (strPage ch) F.ERR_CODE_CODE = 0 → t.fld (strPage ch) F.ERR_CODE_CODE = 0x0F03
          ∧ t.rw ((strPage ch).key 0x024) = ch)
      ∧ SameEntriesBut s.audio.streams t.audio.streams [ch] ∧ OnlyChanges s t [.regs, .out, .audio, .msiPending])
  ∧ (∀ (s : State) (w : RegWr) (ch : Nat), Inv s → ch < 64 → s.wordGranted w (strPage ch) (F.STR_CFG_EN.at [ch % 32]) = true →
      bit 0 w.val.toNat = false → w.val.toNat + 1 = s.rw ((strPage ch).key (F.STR_CFG_EN.at [ch % 32])) →
    ∃ t, exec (.streamDisable w) s = .next t ∧ t.strFld ch F.STR_CFG_EN = 0 ∧ t.stream ch = { s.stream ch with ending := true }
      ∧ SameEntriesBut s.audio.streams t.audio.streams [ch] ∧ OnlyChanges s t [.regs, .audio, .pair]
      ∧ SameWordsBut s t ([F.STR_CFG_EN.at [ch % 32], F.STR_STAT_QUEUED.at [ch % 32]].map (strPage ch).key))
  ∧ (∀ (s : State) (w : RegWr) (ch i : Nat) (x : Chan), Inv s → ch < 64 →
      s.wordGranted w (strPage ch) (F.STR_CHANNEL_CHANNEL.at [ch % 32]) = true → s.strFld ch F.STR_CFG_EN = 0 → w.val.toNat ≠ 0 →
      s.checkChan w.req.fn w.val.toNat = .ok i → s.chan i = some x →
    ∃ t, exec (.streamChannelWrite w) s = .next t
      ∧ (x.kind = (if s.strFld ch F.STR_CFG_CAPTURE = 1 then 3 else 2) → t.strFld ch F.STR_CHANNEL_CHANNEL = w.val.toNat
          ∧ OnlyChanges s t [.regs, .pair] ∧ SameWordsBut s t [(strPage ch).key (F.STR_CHANNEL_CHANNEL.at [ch % 32])])
      ∧ (x.kind ≠ (if s.strFld ch F.STR_CFG_CAPTURE = 1 then 3 else 2) → Records s t (strPage ch) 0x0107 (accOf w (strPage ch)).info
          ∧ OnlyChanges s t [.regs, .out, .msiPending, .pair] ∧ SameWordsBut s t (errWords (strPage ch))))
  ∧ (∀ (s : State) (w : RegWr) (ch code : Nat), Inv s → ch < 64 →
      s.wordGranted w (strPage ch) (F.STR_CHANNEL_CHANNEL.at [ch % 32]) = true →
      (if s.strFld ch F.STR_CFG_EN = 1 then code = 0x000A else s.checkChan w.req.fn w.val.toNat = .error code) →
    ∃ t, exec (.streamChannelWrite w) s = .next t ∧ Records s t (strPage ch) code (accOf w (strPage ch)).info
      ∧ OnlyChanges s t [.regs, .out, .msiPending] ∧ SameWordsBut s t (errWords (strPage ch)))
  ∧ (∀ (s : State) (w : RegWr), Inv s → s.wordGranted w (.aud 0) 0x04C = true → bit 8 w.val.toNat = true →
      w.val.toNat = s.rw ((Page.aud 0).key 0x04C) + 256 → s.routeFault s.pendingSet = none →
    ∃ t, exec (.routeApply w) s = .next t ∧ t.audio.armed = some s.pendingSet ∧ t.audio.todo = [0, 1, 2]
      ∧ t.audio.xfade = s.fld (.aud 0) F.AUD_CTRL_XFADE ∧ t.fld (.aud 0) F.AUD_CTRL_ARMED = 1 ∧ t.audio.active = s.audio.active
      ∧ t.audio.streams = s.audio.streams ∧ t.audio.buses = s.audio.buses ∧ OnlyChanges s t [.regs, .audio, .pair])
  ∧ (∀ (s : State) (w : RegWr) (o p r : Nat), Inv s → s.wordGranted w (.aud 0) 0x04C = true → bit 8 w.val.toNat = true →
      w.val.toNat = s.rw ((Page.aud 0).key 0x04C) + 256 → s.routeFault s.pendingSet = some (o, p, r) →
    ∃ t, exec (.routeApply w) s = .next t ∧ Records s t (.aud 0) 0x0F01 (o + p * 2 ^ 12 + r * 2 ^ 16) ∧ t.audio = s.audio
      ∧ OnlyChanges s t [.regs, .out, .msiPending, .pair] ∧ SameWordsBut s t (errWords (.aud 0)))
  ∧ (∀ (s : State) (k : Nat) (b : Bridge), Inv s → k < 32 → Sparse.find s.audio.bridges k = some b → b.source < 2 ^ 9 → b.src < 4 → b.dst < 4 →
    ∃ t, exec (.bridgePrimed k) s = .next t ∧ Sparse.find t.audio.bridges k = some { b with primed := true }
      ∧ SameEntriesBut s.audio.bridges t.audio.bridges [k] ∧ bit 13 (t.rw ((Page.aud 8).key (F.AUD_BR_SOURCE.at [k]))) = true
      ∧ OnlyChanges s t [.regs, .audio])
  ∧ (∀ (s : State) (w : RegWr), Inv s → s.ctrlGranted w (.aud 0) F.PG_CTRL_SOFT_RESET (2 + s.fld (.aud 0) F.PG_CTRL_ENABLE) = true →
      s.pageArmed (Page.aud 0).base = false →
    ∃ t, exec (.aud0SoftReset w) s = .next t ∧ t.audio = Audio.reset ∧ (∀ n < 9, WordsReset s t (.aud n))
      ∧ (∀ n < 9, Sparse.find s.loaded ((Page.aud n).key 0x010) = none → t.rw ((Page.aud n).key 0x010) = 0) ∧ t.haptic = s.haptic ∧ t.touch = s.touch
      ∧ OnlyChanges s t (pieces (.aud0SoftReset w)))

/-- R344 to R346, R352: EN of a TDM port whose fields pass the check enables it with them, and a failing check leaves it disabled with its code;
BUSb_CFG takes its fields, but DOMAIN stands still while EN is 1; a domain that loses its port enters holdover and locks again; slips and a lost
clock of a slave port are counted and raised. Where a clause takes a reading of the model: log entry 65. -/
def Obligations.AudioPorts : Prop :=
  (∀ (s : State) (w : RegWr) (p : Nat), Inv s → p < 12 → s.wordGranted w (.aud 1) (F.TDM_CFG_EN.at (tdmIx p)) = true →
      s.tdmFld p F.TDM_CFG_EN = 0 → bit 0 w.val.toNat = true → State.tdmFault w.val.toNat = none →
    ∃ t, exec (.tdmPortEnable w) s = .next t ∧ t.tdmFld p F.TDM_CFG_EN = 1
      ∧ (∀ f ∈ [F.TDM_CFG_MASTER, F.TDM_CFG_I2S, F.TDM_CFG_DOMAIN, F.TDM_CFG_SLOTS, F.TDM_CFG_SLOT_BITS], t.tdmFld p f = bits f.hi f.lo w.val.toNat)
      ∧ t.tdmFld p F.TDM_STAT_RUNNING = bits 1 1 w.val.toNat ∧ t.audio.fresh = (if 6 ≤ p then s.audio.fresh ++ [p - 6] else s.audio.fresh)
      ∧ t.audio.joining = (if 6 ≤ p then s.audio.joining ++ [p - 6] else s.audio.joining)
      ∧ OnlyChanges s t [.regs, .audio, .pair] ∧ SameWordsBut s t ([F.TDM_CFG_EN.at (tdmIx p), F.TDM_STAT_RUNNING.at (tdmIx p)].map (Page.aud 1).key))
  ∧ (∀ (s : State) (w : RegWr) (p code : Nat), Inv s → p < 12 → s.wordGranted w (.aud 1) (F.TDM_CFG_EN.at (tdmIx p)) = true →
      s.tdmFld p F.TDM_CFG_EN = 0 → bit 0 w.val.toNat = true → State.tdmFault w.val.toNat = some code →
    ∃ t, exec (.tdmPortEnable w) s = .next t ∧ t.tdmFld p F.TDM_CFG_EN = 0 ∧ Records s t (.aud 1) code (accOf w (.aud 1)).info
      ∧ OnlyChanges s t [.regs, .out, .msiPending, .pair] ∧ SameWordsBut s t ((Page.aud 1).key (F.TDM_CFG_EN.at (tdmIx p)) :: errWords (.aud 1)))
  ∧ (∀ (s : State) (w : RegWr) (b : Nat), Inv s → b < 24 → s.wordGranted w (busPage b) (F.BUS_CFG_EN.at [b % 8]) = true →
      (bits 2 1 w.val.toNat = s.busDomain b ∨ (s.fld (busPage b) F.BUS_CFG_EN [b % 8] = 0 ∧ bits 2 1 w.val.toNat ≠ 3)) →
    ∃ t, exec (.busEnableWrite w) s = .next t
      ∧ (∀ f ∈ [F.BUS_CFG_EN, F.BUS_CFG_DOMAIN, F.BUS_CFG_BQ_EN, F.BUS_CFG_GAIN], t.fld (busPage b) f [b % 8] = bits f.hi f.lo w.val.toNat)
      ∧ OnlyChanges s t [.regs, .pair] ∧ SameWordsBut s t [(busPage b).key (F.BUS_CFG_EN.at [b % 8])])
  ∧ (∀ (s : State) (w : RegWr) (b : Nat), Inv s → b < 24 → s.wordGranted w (busPage b) (F.BUS_CFG_EN.at [b % 8]) = true →
      bits 2 1 w.val.toNat ≠ s.busDomain b → (s.fld (busPage b) F.BUS_CFG_EN [b % 8] = 1 ∨ bits 2 1 w.val.toNat = 3) →
    ∃ t, exec (.busEnableWrite w) s = .next t ∧ t.busDomain b = s.busDomain b ∧ Records s t (busPage b) (if s.fld (busPage b) F.BUS_CFG_EN [b % 8] = 1 then 0x000A else 0x0006) (accOf w (busPage b)).info
      ∧ OnlyChanges s t [.regs, .out, .msiPending, .pair])
  ∧ (∀ (s : State) (d : Nat), Inv s → d < 3 → s.fld (.aud 0) F.AUD_DOM_LOCKED [d] = 1 →
    ∃ t, exec (.domainHoldover d) s = .next t ∧ t.fld (.aud 0) F.AUD_DOM_LOCKED [d] = 0 ∧ t.fld (.aud 0) F.AUD_DOM_HOLDOVER [d] = 1
      ∧ t.word ((Page.aud 0).key 0x010) = s.word ((Page.aud 0).key 0x010) ||| 2#32 ∧ OnlyChanges s t [.regs, .out, .msiPending]
      ∧ SameWordsBut s t ([0x00C, 0x010, F.AUD_DOM_LOCKED.at [d]].map (Page.aud 0).key))
  ∧ (∀ (s : State) (d p : Nat), Inv s → d < 3 → p < 6 → s.fld (.aud 0) F.AUD_DOM_SOURCE [d] = p + 1 → s.fld (.aud 0) F.AUD_DOM_HOLDOVER [d] = 1 →
      s.tdmFld p F.TDM_CFG_EN = 1 → s.tdmFld p F.TDM_CFG_MASTER = 0 → s.tdmFld p F.TDM_CFG_DOMAIN = d →
    ∃ t, exec (.domainRelock d) s = .next t ∧ t.fld (.aud 0) F.AUD_DOM_LOCKED [d] = 1 ∧ t.fld (.aud 0) F.AUD_DOM_HOLDOVER [d] = 0
      ∧ t.word ((Page.aud 0).key 0x010) = s.word ((Page.aud 0).key 0x010) ||| 4#32 ∧ OnlyChanges s t [.regs, .out, .msiPending]
      ∧ SameWordsBut s t ([0x00C, 0x010, F.AUD_DOM_LOCKED.at [d]].map (Page.aud 0).key))
  ∧ (∀ (s : State) (d : Nat), Inv s → d < 3 → s.fld (.aud 0) F.AUD_DOM_LOCKED [d] = 0 → exec (.domainHoldover d) s = .next s)
  ∧ (∀ (s : State) (p : Nat), Inv s → p < 12 → s.tdmFld p F.TDM_CFG_EN = 1 → s.tdmFld p F.TDM_CFG_MASTER = 0 →
      (p < 6 → s.fld (.aud 0) F.AUD_DOM_SOURCE [s.tdmFld p F.TDM_CFG_DOMAIN] ≠ p + 1) →
    ∃ t, exec (.tdmSlip p) s = .next t
      ∧ t.tdmFld p F.TDM_STAT_SLIPS = min (s.tdmFld p F.TDM_STAT_SLIPS + 1) (2 ^ (F.TDM_STAT_SLIPS.hi + 1 - F.TDM_STAT_SLIPS.lo) - 1)
      ∧ t.word ((Page.aud 1).key 0x010) = s.word ((Page.aud 1).key 0x010) ||| 1#32 ∧ OnlyChanges s t [.regs, .out, .msiPending]
      ∧ SameWordsBut s t ([0x010, F.TDM_STAT_SLIPS.at (tdmIx p)].map (Page.aud 1).key))
  ∧ (∀ (s : State) (p : Nat), Inv s → p < 12 → s.tdmFld p F.TDM_CFG_EN = 1 → s.tdmFld p F.TDM_CFG_MASTER = 0 → s.tdmFld p F.TDM_STAT_CLOCK_LOST = 0 →
    ∃ t, exec (.tdmClockLost p) s = .next t ∧ t.tdmFld p F.TDM_STAT_CLOCK_LOST = 1 ∧ t.tdmFld p F.TDM_STAT_RUNNING = 0
      ∧ t.word ((Page.aud 1).key 0x010) = s.word ((Page.aud 1).key 0x010) ||| 2#32 ∧ OnlyChanges s t [.regs, .out, .msiPending]
      ∧ (∀ d < 3, p < 6 → s.fld (.aud 0) F.AUD_DOM_SOURCE [d] = p + 1 → s.fld (.aud 0) F.AUD_DOM_LOCKED [d] = 1 →
          t.fld (.aud 0) F.AUD_DOM_LOCKED [d] = 0 ∧ t.fld (.aud 0) F.AUD_DOM_HOLDOVER [d] = 1)
      ∧ ((∀ d < 3, p < 6 → s.fld (.aud 0) F.AUD_DOM_SOURCE [d] = p + 1 → s.fld (.aud 0) F.AUD_DOM_LOCKED [d] = 0) →
          SameWordsBut s t ([0x010, F.TDM_STAT_RUNNING.at (tdmIx p)].map (Page.aud 1).key)))
  ∧ (∀ (s : State) (w : RegWr) (p : Nat), Inv s → p < 12 → s.wordGranted w (.aud 1) (F.TDM_CFG_EN.at (tdmIx p)) = true →
      bit 0 w.val.toNat = false → w.val.toNat + 1 = s.rw ((Page.aud 1).key (F.TDM_CFG_EN.at (tdmIx p))) →
    ∃ t, exec (.tdmPortEnable w) s = .next t ∧ t.tdmFld p F.TDM_CFG_EN = 0 ∧ t.tdmFld p F.TDM_STAT_RUNNING = 0
      ∧ t.tdmFld p F.TDM_STAT_CLOCK_LOST = 0 ∧ OnlyChanges s t [.regs, .out, .audio, .msiPending, .pair])
  ∧ (∀ (s : State) (d p i : Nat) (inputs : List (Nat × List Int)) (sync : List Nat) (l : List Int) (st next : Store (List Int)), Inv s → d < 3 →
      p < 6 → s.flag (.aud 0) F.PG_STAT_ENABLED = true → s.flag (.aud 0) F.PG_CTRL_ENABLE = true → s.audio.closing = [] → s.audio.faded = [] →
      s.audio.pause ≠ 2 → s.standby = false → s.portServed d p = true → i < s.tdmFld (6 + p) F.TDM_CFG_SLOTS → p ∉ s.audio.joining →
      p ∉ s.audio.fresh → p ∉ s.audio.fadeIn → (d = 0 → s.audio.side = []) → Sparse.find s.audio.late d = some (st, next) →
      Sparse.find st (p * 16 + i) = some l →
    ∃ t, exec (.audioBlockBoundary d inputs sync) s = .next t ∧ .tdm p i (l.map (slotOut (s.tdmFld (6 + p) F.TDM_CFG_SLOT_BITS))) ∈ t.out)
  ∧ (∀ (s : State) (d b : Nat) (inputs : List (Nat × List Int)) (xs : List (List (Int × Int))) (u l : List Int) (run : BusRun) (sat lim : Bool),
      Inv s → d < 3 → s.flag (.aud 0) F.PG_STAT_ENABLED = true → s.flag (.aud 0) F.PG_CTRL_ENABLE = true → s.audio.closing = [] →
      s.audio.faded = [] → s.audio.pause ≠ 2 → s.audio.armed = none → s.audio.fades = [] → s.audio.applying = false →
      s.streamsOf d 0 = [] → (List.range 24).filter (fun k => s.busDomain k == d) = [b] →
      s.fld (busPage b) F.BUS_CFG_EN [b % 8] = 1 → (s.bus b).on = true → (s.bus b).fade = none → (s.bus b).old = none →
      xs = (s.busInputs s.audio.active d b inputs ⟨[], []⟩).1 →
      busBlock (s.busCfg s.audio.active b) (s.bus b).run xs = (u, l, run, sat, lim) →
    ∃ t, exec (.audioBlockBoundary d inputs []) s = .next t ∧ t.bus b = ⟨true, run, none, none⟩
      ∧ t.fld (busPage b) F.BUS_METER_PEAK [b % 8] = ((l.map Int.natAbs).foldl max 0) % 2 ^ (F.BUS_METER_PEAK.hi + 1 - F.BUS_METER_PEAK.lo)
      ∧ t.fld (busPage b) F.BUS_METER_LIMITED [b % 8] = b2n lim
      ∧ (lim = true → bit 0 (t.rw ((busPage b).key 0x010)) = true) ∧ (sat = true → bit 1 (t.rw ((busPage b).key 0x010)) = true))

/-- R371 to R375, R378, R381, R383, R398, R403: an edge of the guy line is taken with its time; a fall in WAITING at POSITION 0 and the filter's expiry
in STANDBY take the token, count a takeover and go to SOLO, the latter with its time with the stored genlock settings in force; SYNCING and STANDBY
genlock every output to the partner; in WAITING a line that stays asserted without a link leads to DETACHED. Both devices with the token: POSITION 0
keeps it and watches, POSITION 1 drops it at once; when the watch runs out it drops it too and backs off between 10 and 1000 µs, after which it
takes the token only if the line is free. The WAITING timeout takes the token at POSITION 1. The link that comes up trains and takes the partner's
beat; a heartbeat carries this device's state; the third one whose GUY_OUT differs from the line sets GUY_FAULT; a silent link ends ACTIVE in SOLO
and STANDBY without GUY_FAULT in DETACHED. Where a clause takes a reading of the model: log entries 26 to 28, 101 and 109. -/
def Obligations.PairStates : Prop :=
  (∀ (s : State) (a : Bool), Inv s → s.pair.guyIn ≠ a → s.pair.state ≠ .waiting →
    ∃ t, exec (.guyInEdge a) s = .next t
      ∧ t.pair = { s.pair with guyIn := a, edgeAt := s.now, wasAsserted := s.pair.guyIn, releasedAt := if a then s.pair.releasedAt else s.now, collision := s.pair.collision && a } ∧ OnlyChanges s t [.pair])
  ∧ (∀ (s : State), Inv s → s.paired = true → s.pair.state = .waiting → s.position = 0 → s.pair.guyIn = true →
    ∃ t, exec (.guyInEdge false) s = .next t ∧ t.pair.state = .solo ∧ t.pair.guyOut = true
      ∧ t.fld .plk F.PLK_TAKEOVER_COUNT = min (s.fld .plk F.PLK_TAKEOVER_COUNT + 1) 0xFFFF
      ∧ bit 2 (t.rw (Page.plk.key 0x010)) = true ∧ OnlyChanges s t [.regs, .out, .msiPending, .pair]
      ∧ (∀ n < 8, t.rw ((Page.scn n).key F.SCN_GENLOCK_SRC.off) = (Sparse.find s.pair.storedGenlock n).getD 0 % 2 ^ 32)
      ∧ SameWordsBut s t ([0x010, 0x074].map Page.plk.key ++ (List.range 8).map fun n => (Page.scn n).key F.SCN_GENLOCK_SRC.off))
  ∧ (∀ (s : State), Inv s → s.paired = true → s.pair.guyIn = false → s.pair.wasAsserted = true → s.pair.guyFault = false → s.pair.backoff = false →
      s.pair.state = .standby → s.pair.handover ≠ 3 →
    ∃ t, exec .guyFilterExpiry s = .next t ∧ t.pair.state = .solo ∧ t.pair.guyOut = true ∧ t.pair.held = []
      ∧ t.fld .plk F.PLK_TAKEOVER_COUNT = min (s.fld .plk F.PLK_TAKEOVER_COUNT + 1) 0xFFFF
      ∧ t.fld .plk F.PLK_TAKEOVER_LAST = min 0xFFFF ((s.now - s.pair.releasedAt) / 10)
      ∧ (∀ n < 8, t.rw ((Page.scn n).key F.SCN_GENLOCK_SRC.off) = (Sparse.find s.pair.storedGenlock n).getD 0 % 2 ^ 32))
  ∧ (∀ (s : State), Inv s → s.paired = true → s.pair.guyIn = true → s.pair.state = .waiting → s.pair.linkUp = false →
    ∃ t, exec .guyFilterExpiry s = .next t ∧ t.pair = { s.pair with wasAsserted := false, state := .detached } ∧ OnlyChanges s t [.pair])
  ∧ (∀ (s : State), Inv s → s.paired = true → s.pair.guyOut = true → s.pair.guyIn = true → s.position = 0 →
    ∃ t, exec .collision s = .next t ∧ t.pair = { s.pair with collision := true } ∧ OnlyChanges s t [.pair])
  ∧ (∀ (s : State), Inv s → s.paired = true → s.pair.guyOut = true → s.pair.guyIn = true → s.position = 1 →
    ∃ t, exec .collision s = .next t ∧ t.pair.state = .detached ∧ t.pair.guyOut = false ∧ t.pair.lastReason = 4
      ∧ bit 3 (t.rw (Page.plk.key 0x010)) = true ∧ (∀ n < 8, t.rw ((Page.scn n).key F.SCN_GENLOCK_SRC.off) = 0x18))
  ∧ (∀ (s : State), Inv s → s.paired = true → s.pair.collision = true → s.pair.guyOut = true → s.pair.guyIn = true →
    ∃ t, exec .collisionTimeout s = .next t ∧ t.pair.state = .detached ∧ t.pair.guyOut = false ∧ t.pair.collision = false ∧ t.pair.backoff = true
      ∧ 10 ≤ t.pair.backoffUs ∧ t.pair.backoffUs ≤ 1000 ∧ t.pair.lastReason = 4)
  ∧ (∀ (s : State), Inv s → s.paired = true → s.pair.backoff = true → s.pair.guyIn = true →
    ∃ t, exec .collisionBackoffEnd s = .next t ∧ t.pair = { s.pair with backoff := false } ∧ OnlyChanges s t [.pair])
  ∧ (∀ (s : State), Inv s → s.paired = true → s.pair.backoff = true → s.pair.guyIn = false → s.pair.state = .detached →
    ∃ t, exec .collisionBackoffEnd s = .next t ∧ t.pair.state = .solo ∧ t.pair.guyOut = true ∧ t.pair.backoff = false)
  ∧ (∀ (s : State), Inv s → s.paired = true → s.pair.state = .waiting → s.position = 1 → s.pair.guyIn = false →
      (s.pair.linkUp && s.pair.pGuyOut) = false →
    ∃ t, exec .waitingTimeout s = .next t ∧ t.pair = { s.pair with state := .solo, guyOut := true, frameErr := [] }
      ∧ (∀ n < 8, t.rw ((Page.scn n).key F.SCN_GENLOCK_SRC.off) = (Sparse.find s.pair.storedGenlock n).getD 0 % 2 ^ 32)
      ∧ t.fld .plk F.PLK_TAKEOVER_COUNT = min (s.fld .plk F.PLK_TAKEOVER_COUNT + 1) 0xFFFF ∧ OnlyChanges s t [.regs, .out, .msiPending, .pair])
  ∧ (∀ (s : State) (speed width : Nat) (h : FlitHdr) (b : Beat), Inv s → s.paired = true → s.pair.linkUp = false → s.faults.fatal = none →
      s.pair.recovering = false → h.ackValid = false → h.nak = false → b.guyOut = s.pair.guyIn →
    ∃ t, exec (.ploliaLinkUp speed width h b) s = .next t ∧ t.pair.linkUp = true ∧ t.pair.trained = true ∧ TookFlit t h
      ∧ t.pair.state = s.pair.state ∧ t.pair.guyOut = s.pair.guyOut ∧ t.pair.pState = b.state ∧ t.pair.pVersion = b.version
      ∧ t.fld .plk F.PLK_LINK_SPEED = s.linkSpeed 3 speed % 16 ∧ t.fld .plk F.PLK_LINK_WIDTH = width % 16 ∧ bit 0 (t.rw (Page.plk.key 0x010)) = true
      ∧ OnlyChanges s t [.regs, .out, .msiPending, .pair])
  ∧ (∀ (s : State), Inv s → s.paired = true → s.canSend = true →
    ∃ t, exec .heartbeatSend s = .next t ∧ t.out = s.out ++ [.flit s.pair.txSeq (.heartbeat s.ownBeat)]
      ∧ t.pair = { s.pair with txSeq := (s.pair.txSeq + 1) % 4096, replay := s.pair.replay ++ [⟨s.pair.txSeq, .heartbeat s.ownBeat, none, 0⟩] }
      ∧ OnlyChanges s t [.regs, .out, .pair])
  ∧ (∀ (s : State) (h : FlitHdr) (b : Beat) (slow : Bool), Inv s → s.linked = true → s.receives h = true → b.guyOut = s.pair.guyIn →
    ∃ t, exec (.heartbeat h b slow) s = .next t ∧ TookFlit t h ∧ t.out = s.out ++ [.ack h.seq false]
      ∧ t.pair = { s.pair with rxSeq := (h.seq + 1) % 4096, discarding := false, guyDiffer := 0, pProtocol := b.protocol, pPosition := b.position, pState := b.state, pGuyOut := b.guyOut, pGuyIn := b.guyIn, pVersion := b.version, pDtime := b.dtime, pApplied := b.applied, pFallow := slow }
      ∧ OnlyChanges s t [.regs, .out, .pair] ∧ SameWordsBut s t [Page.plk.key 0x050])
  ∧ (∀ (s : State) (h : FlitHdr) (b : Beat) (slow : Bool), Inv s → s.linked = true → s.receives h = true → b.guyOut ≠ s.pair.guyIn →
      s.pair.guyDiffer = 2 → s.pair.guyFault = false → s.pair.state ≠ .waiting →
    ∃ t, exec (.heartbeat h b slow) s = .next t ∧ TookFlit t h ∧ t.pair.guyFault = true ∧ t.pair.lastReason = 5 ∧ t.pair.state = s.pair.state
      ∧ bit 5 (t.rw (Page.plk.key 0x010)) = true)
  ∧ (∀ (s : State), Inv s → s.linked = true → s.pair.state = .active →
    ∃ t, exec .heartbeatTimeout s = .next t ∧ t.pair.state = .solo ∧ t.pair.linkUp = false ∧ t.pair.trained = false ∧ t.pair.replay = []
      ∧ t.pair.ordered = [] ∧ t.pair.guyOut = s.pair.guyOut ∧ bit 1 (t.rw (Page.plk.key 0x010)) = true)
  ∧ (∀ (s : State), Inv s → s.linked = true → s.pair.state = .standby → s.pair.guyFault = false →
    ∃ t, exec .heartbeatTimeout s = .next t ∧ t.pair.state = .detached ∧ t.pair.linkUp = false ∧ t.pair.guyOut = s.pair.guyOut
      ∧ bit 1 (t.rw (Page.plk.key 0x010)) = true ∧ t.display.commits = s.display.commits ∧ t.touch = s.touch ∧ t.haptic = s.haptic)

/-- R375, R381, R394 to R399, R403: the holder accepts a JOIN_REQUEST whose checks pass, starts the resync and stays ACTIVE, and refuses any other with
its reason; an accepted partner is SYNCING, a refused one APART, and SYNC_DONE makes it STANDBY. The resync that has sent everything sends its end
marker and SYNC_DONE. PLK_HANDOVER stops fetching and drains, or records why it cannot; the drained device offers; a STANDBY that has applied as
many items is READY, refuses when it is no STANDBY or has a GUY_FAULT, and holds an offer that is ahead of it; READY hands the token over, a refusal
or the drain timeout takes fetching up again. RESYNC joins anew from STANDBY, or records 0x000A with the token; RETRAIN recovers the link, and
CLEAR_GUY_FAULT clears the fault. Where a clause takes a reading of the model: log entries 27 to 29. -/
def Obligations.PairRoles : Prop :=
  (∀ (s : State) (h : FlitHdr) (config : Nat), Inv s → s.receives h = true → s.canSend = true → s.pair.guyOut = true → s.joinFault config = none →
    ∃ t, exec (.joinRequest h config) s = .next t ∧ TookFlit t h ∧ t.pair.state = .active ∧ t.pair.resyncing = true
      ∧ Sends t s.pair.txSeq (.role .joinAccept) ∧ MirrorItem.marker false ∈ t.pair.ordered
      ∧ t.pair.resyncPlots = s.pool.bufs.used.flatMap (fun p => p.2.plots) ∧ t.pool = s.pool ∧ t.pair.guyOut = true)
  ∧ (∀ (s : State) (h : FlitHdr) (config r : Nat), Inv s → s.receives h = true → s.canSend = true → s.pair.guyOut = true →
      s.joinFault config = some r →
    ∃ t, exec (.joinRequest h config) s = .next t ∧ TookFlit t h ∧ t.pair.state = s.pair.state ∧ t.pair.lastReason = r
      ∧ Sends t s.pair.txSeq (.role (.joinRefuse r)) ∧ bit 3 (t.rw (Page.plk.key 0x010)) = true ∧ OnlyChanges s t [.regs, .out, .msiPending, .pair])
  ∧ (∀ (s : State) (h : FlitHdr), Inv s → s.receives h = true → s.pair.state ∈ [.detached, .syncing, .apart] →
    ∃ t, exec (.joinAccept h) s = .next t ∧ TookFlit t h
      ∧ t.pair = { s.pair with rxSeq := (h.seq + 1) % 4096, discarding := false, state := .syncing } ∧ OnlyChanges s t [.out, .pair])
  ∧ (∀ (s : State) (h : FlitHdr) (r : Nat), Inv s → s.receives h = true → r ≠ 0 → s.pair.state ∈ [.detached, .syncing, .apart] →
    ∃ t, exec (.joinRefuse h r) s = .next t ∧ TookFlit t h
      ∧ t.pair = { s.pair with rxSeq := (h.seq + 1) % 4096, discarding := false, state := .apart } ∧ OnlyChanges s t [.out, .pair])
  ∧ (∀ (s : State) (h : FlitHdr), Inv s → s.receives h = true → s.pair.state = .syncing →
    ∃ t, exec (.syncDone h) s = .next t ∧ TookFlit t h ∧ t.pair.state = .standby ∧ t.pair.resyncing = false
      ∧ bit 4 (t.rw (Page.plk.key 0x010)) = true ∧ OnlyChanges s t [.regs, .out, .msiPending, .pair] ∧ SameWordsBut s t [Page.plk.key 0x010])
  ∧ (∀ (s : State), Inv s → s.activeLinked = true → s.canSend = true → s.pair.replay.length < 511 → s.pair.resyncing = true → s.pair.resyncItems = 0 →
      s.pair.resyncPlots = [] →
    ∃ t, exec .resyncSendDone s = .next t ∧ t.pair.resyncing = false ∧ Sends t s.pair.txSeq (.mirror (.marker true))
      ∧ Sends t ((s.pair.txSeq + 1) % 4096) (.role .syncDone) ∧ t.pair.state = .active ∧ bit 4 (t.rw (Page.plk.key 0x010)) = true
      ∧ OnlyChanges s t [.regs, .out, .msiPending, .pair])
  ∧ (∀ (s : State) (h : FlitHdr) (count : Nat), Inv s → s.receives h = true → s.canSend = true → s.pair.guyOut = false → s.pair.state = .standby →
      s.pair.applied = count → s.pair.guyFault = false →
    ∃ t, exec (.handoverOffer h count) s = .next t ∧ TookFlit t h ∧ t.pair.state = .standby ∧ t.pair.offered = none
      ∧ (s.pair.mismatched = [] → t.pair.handover = 3 ∧ Sends t s.pair.txSeq (.role .ready))
      ∧ (s.pair.mismatched ≠ [] → t.pair.handover = s.pair.handover ∧ Sends t s.pair.txSeq (.role (.refusal 7)))
      ∧ OnlyChanges s t [.regs, .out, .pair])
  ∧ (∀ (s : State) (h : FlitHdr) (count : Nat), Inv s → s.receives h = true → s.canSend = true → s.pair.guyOut = false → s.pair.applied = count →
      (s.pair.state ≠ .standby ∨ s.pair.guyFault = true) →
    ∃ t, exec (.handoverOffer h count) s = .next t ∧ TookFlit t h ∧ t.pair.state = s.pair.state ∧ t.pair.offered = none
      ∧ t.pair.handover = s.pair.handover ∧ Sends t s.pair.txSeq (.role (.refusal (if s.pair.state ≠ .standby then 10 else 5)))
      ∧ OnlyChanges s t [.regs, .out, .pair])
  ∧ (∀ (s : State) (h : FlitHdr) (count : Nat), Inv s → s.receives h = true → s.pair.guyOut = false → s.pair.applied ≠ count →
    ∃ t, exec (.handoverOffer h count) s = .next t ∧ TookFlit t h ∧ t.pair.offered = some count ∧ t.pair.handover = s.pair.handover
      ∧ OnlyChanges s t [.out, .pair])
  ∧ (∀ (s : State) (h : FlitHdr), Inv s → s.receives h = true → s.pair.state = .active → s.pair.handover = 2 → s.pair.resyncAfter = false →
      s.boot.when_ ≠ 2 →
    ∃ t, exec (.handoverReady h) s = .next t ∧ TookFlit t h ∧ t.pair.state = .standby ∧ t.pair.guyOut = false ∧ t.pair.handover = 0
      ∧ t.hosts.fetchStopped = false ∧ (∀ n < 8, t.rw ((Page.scn n).key F.SCN_GENLOCK_SRC.off) = 0x18))
  ∧ (∀ (s : State) (h : FlitHdr) (r : Nat), Inv s → s.receives h = true → s.pair.handover = 2 →
    ∃ t, exec (.handoverRefusal h r) s = .next t ∧ TookFlit t h ∧ t.pair.handover = 0 ∧ t.hosts.fetchStopped = false ∧ t.pair.lastReason = r
      ∧ t.pair.state = s.pair.state ∧ t.pair.guyOut = s.pair.guyOut ∧ bit 3 (t.rw (Page.plk.key 0x010)) = true
      ∧ OnlyChanges s t [.regs, .out, .fetchStopped, .msiPending, .pair])
  ∧ (∀ (s : State) (w : RegWr), Inv s → s.wordGranted w .plk 0x044 = true → w.val.toNat = 1 → s.linked = true → s.pair.state = .active →
      s.pair.guyFault = false → s.pair.pState = 4 → s.pair.handover = 0 →
    ∃ t, exec (.plkHandover w) s = .next t ∧ t.hosts.fetchStopped = true ∧ t.pair = { s.pair with handover := 1, handoverAt := s.now }
      ∧ OnlyChanges s t [.fetchStopped, .pair])
  ∧ (∀ (s : State) (w : RegWr), Inv s → s.wordGranted w .plk 0x044 = true → w.val.toNat = 1 → (s.linked = false ∨ s.pair.state ≠ .active) →
    ∃ t, exec (.plkHandover w) s = .next t ∧ t.pair = s.pair
      ∧ Records s t .plk (if s.linked then 0x1001 else 0x1004) (accOf w .plk).info ∧ OnlyChanges s t [.regs, .out, .msiPending]
      ∧ SameWordsBut s t (errWords .plk))
  ∧ (∀ (s : State), Inv s → s.activeLinked = true → s.canSend = true → s.pair.handover = 1 → s.display.commits.all Commit.posted = true → s.chanOpsRun = false →
      s.pair.ordered = [] → s.pair.resyncing = false →
    ∃ t, exec .handoverDrained s = .next t ∧ t.pair.handover = 2 ∧ t.out = s.out ++ [.flit s.pair.txSeq (.role (.handoverOffer s.pair.sentOrdered))]
      ∧ t.pair.state = .active ∧ OnlyChanges s t [.regs, .out, .pair])
  ∧ (∀ (s : State), Inv s → s.pair.handover = 1 →
    ∃ t, exec .handoverDrainTimeout s = .next t ∧ t.pair = { s.pair with handover := 0, resyncAfter := false } ∧ t.hosts.fetchStopped = false
      ∧ Records s t .plk 0x0007 0 ∧ OnlyChanges s t [.regs, .out, .fetchStopped, .msiPending, .pair] ∧ SameWordsBut s t (errWords .plk))
  ∧ (∀ (s : State) (w : RegWr), Inv s → s.wordGranted w .plk 0x044 = true → w.val.toNat = 2 → s.linked = true → s.canSend = true →
      s.pair.state = .standby → s.pair.guyOut = false →
    ∃ t, exec (.plkResync w) s = .next t ∧ t.pair.state = .syncing ∧ t.out = s.out ++ [.flit s.pair.txSeq (.role (.joinRequest s.configDigest))]
      ∧ OnlyChanges s t [.regs, .out, .pair])
  ∧ (∀ (s : State) (w : RegWr), Inv s → s.wordGranted w .plk 0x044 = true → w.val.toNat = 2 → (s.pair.guyOut = true ∨ s.paired = false) →
    ∃ t, exec (.plkResync w) s = .next t ∧ t.pair = s.pair ∧ Records s t .plk 0x000A (accOf w .plk).info
      ∧ OnlyChanges s t [.regs, .out, .msiPending])
  ∧ (∀ (s : State) (w : RegWr), Inv s → s.wordGranted w .plk 0x044 = true → w.val.toNat = 4 → s.pair.trained = true → s.pair.recovering = false →
    ∃ t, exec (.plkRetrain w) s = .next t ∧ t.pair = { s.pair with recovering := true }
      ∧ t.fld .plk F.PLK_RECOVERIES_COUNT = min (s.fld .plk F.PLK_RECOVERIES_COUNT + 1) 0xFFFFFFFF
      ∧ OnlyChanges s t [.regs, .pair] ∧ SameWordsBut s t [Page.plk.key 0x060])
  ∧ (∀ (s : State) (w : RegWr), Inv s → s.wordGranted w .plk 0x044 = true → w.val.toNat = 8 →
    ∃ t, exec (.plkClearGuyFault w) s = .next t ∧ t.pair = { s.pair with guyFault := false, guyDiffer := 0 } ∧ OnlyChanges s t [.pair])

/-- R379 to R388, R390 to R393, R396, R400 to R404: a replay timeout sends the flit again up to the seventh time and then recovers the link; an
acknowledgement empties the replay buffer; a CRC failure is counted, answered with a NAK and discards until the resend; a recovery sends every
unacknowledged flit again. The ordered stream sends its head item and counts it; the partner applies a mirrored write (a genlock setting is stored)
and a channel record, and counts each. TIME_SYNC carries DTIME; a smaller offset slews DTIME, one above TIME_STEP_US steps it and sets TIME_STEP; a
frame marker sets SCN_SEQ and the frame error, and an Adaptive-Sync decision waits for its frame. COMMIT_ARM is held and acknowledged, applied at
its frame, or dropped; its acknowledgements ready the commit and count skewed frames. Digests that agree end the run of mismatches, others, or
regions that differ, lengthen it and set the reason; every flit is taken by its header alike; WAKE reports the wake of the partner or its failing.
Where a clause takes a reading of the model: log entries 22 to 33, 83, 102 and 109. -/
def Obligations.PairStream : Prop :=
  (∀ (s : State) (f : SentFlit), Inv s → s.pair.trained = true → s.pair.recovering = false → s.pair.replay = [f] → f.replays < 7 →
    ∃ t, exec .replayTimeout s = .next t ∧ t.pair = { s.pair with replay := [{ f with replays := f.replays + 1 }] }
      ∧ t.out = s.out ++ [.flit f.seq f.flit] ∧ t.fld .plk F.PLK_REPLAYS_COUNT = min (s.fld .plk F.PLK_REPLAYS_COUNT + 1) 0xFFFFFFFF
      ∧ OnlyChanges s t [.regs, .out, .pair] ∧ SameWordsBut s t [Page.plk.key 0x05C])
  ∧ (∀ (s : State) (f : SentFlit), Inv s → s.pair.trained = true → s.pair.recovering = false → s.pair.replay = [f] → 7 ≤ f.replays →
    ∃ t, exec .replayTimeout s = .next t ∧ t.pair = { s.pair with replay := [{ f with replays := f.replays + 1 }], recovering := true }
      ∧ t.fld .plk F.PLK_RECOVERIES_COUNT = min (s.fld .plk F.PLK_RECOVERIES_COUNT + 1) 0xFFFFFFFF ∧ OnlyChanges s t [.regs, .pair])
  ∧ (∀ (s : State) (h : FlitHdr) (f : SentFlit), Inv s → s.pair.trained = true → s.pair.recovering = false → s.pair.replay = [f] → f.item = none →
      f.seq < 4096 → s.pair.control = [] → h.ackValid = true → h.ack = f.seq → h.nak = false →
    ∃ t, exec (.nullFlit h) s = .next t ∧ t.pair = { s.pair with replay := [], acked := f.seq } ∧ OnlyChanges s t [.pair])
  ∧ (∀ (s : State), Inv s → s.pair.trained = true → s.pair.recovering = false → s.pair.discarding = false →
    ∃ t, exec (.flitCrcFailure true none) s = .next t ∧ t.pair = { s.pair with discarding := true }
      ∧ t.out = s.out ++ [.ack ((s.pair.rxSeq + 4095) % 4096) true]
      ∧ t.fld .plk F.PLK_CRC_ERRS_COUNT = min (s.fld .plk F.PLK_CRC_ERRS_COUNT + 1) 0xFFFFFFFF
      ∧ OnlyChanges s t [.regs, .out, .pair] ∧ SameWordsBut s t [Page.plk.key 0x058])
  ∧ (∀ (s : State), s.pair.recovering = true →
    ∃ t, exec .ploliaRecoveryDone s = .next t
      ∧ t.pair = { s.pair with recovering := false, replay := s.pair.replay.map fun (f : SentFlit) => { f with replays := 0 } }
      ∧ t.out = s.out ++ s.pair.replay.map (fun f => .flit f.seq f.flit) ∧ OnlyChanges s t [.out, .pair])
  ∧ (∀ (s : State) (addr val latch sel fn : Nat) (world : Bool) (r : List MirrorItem), Inv s → s.activeLinked = true → s.canSend = true →
      s.pair.pFallow = false → s.pair.ordered = .reg addr val latch sel fn world :: r →
    ∃ t, exec .mirrorFlitSend s = .next t
      ∧ t.out = s.out ++ [.flit s.pair.txSeq (.mirror (.reg fn world (s.fnCrit fn) [(addr, val, latch, sel)]))]
      ∧ t.pair.ordered = r ∧ t.pair.sentOrdered = (s.pair.sentOrdered + 1) % 2 ^ 32 ∧ t.pair.txSeq = (s.pair.txSeq + 1) % 4096
      ∧ OnlyChanges s t [.regs, .out, .pair])
  ∧ (∀ (s : State) (h : FlitHdr) (n v latch sel fn crit : Nat) (world : Bool), Inv s → s.receives h = true → s.standby = true → s.pair.offered = none →
      n < 8 →
    ∃ t, exec (.mirrorWrite h (.reg fn world crit [((Page.scn n).key F.SCN_GENLOCK_SRC.off, v, latch, sel)])) s = .next t ∧ TookFlit t h
      ∧ Sparse.find t.pair.storedGenlock n = some v ∧ SameEntriesBut s.pair.storedGenlock t.pair.storedGenlock [n]
      ∧ t.pair.applied = (s.pair.applied + 1) % 2 ^ 32 ∧ OnlyChanges s t [.out, .pair])
  ∧ (∀ (s : State) (h : FlitHdr) (handle fn : Nat), Inv s → s.receives h = true → s.standby = true → s.pair.offered = none → s.pair.recPlots = [] →
    ∃ t, exec (.mirrorWrite h (.record 0x01 [handle, fn] [] true)) s = .next t ∧ TookFlit t h
      ∧ t.chan (handle % 256) = some ⟨handle / 2 ^ 28, fn, false, none⟩ ∧ SameEntriesBut s.pool.chans.used t.pool.chans.used [handle % 256]
      ∧ t.pair.applied = (s.pair.applied + 1) % 2 ^ 32 ∧ OnlyChanges s t [.out, .chans, .pair])
  ∧ (∀ (s : State), Inv s → s.linked = true → s.pair.guyOut = false → s.canSend = true →
    ∃ t, exec .timeSyncDue s = .next t ∧ t.pair.syncT1 = some s.time.dtime
      ∧ t.out = s.out ++ [.flit s.pair.txSeq (.timeSync (.request s.time.dtime))] ∧ OnlyChanges s t [.regs, .out, .pair])
  ∧ (∀ (s : State) (h : FlitHdr) (t1 : Nat), Inv s → s.receives h = true → s.canSend = true → s.pair.guyOut = true →
    ∃ t, exec (.timeSyncRequest h t1) s = .next t ∧ TookFlit t h
      ∧ Sends t s.pair.txSeq (.timeSync (.reply t1 s.time.dtime s.time.dtime)) ∧ OnlyChanges s t [.regs, .out, .pair])
  ∧ (∀ (s : State) (h : FlitHdr) (t1 t2 t3 : Nat) (o : Int), Inv s → s.receives h = true → s.pair.guyOut = false → s.pair.syncT1 = some t1 →
      o = (((t1 : Int) - t2) + ((s.time.dtime : Int) - t3)).tdiv 2 → s.fld .plk F.PLK_CFG_TIME_STEP_US * 1000 < o.natAbs →
    ∃ t, exec (.timeSyncReply h t1 t2 t3) s = .next t ∧ TookFlit t h ∧ t.time = { s.time with dtime := toBits 64 ((s.time.dtime : Int) - o) }
      ∧ t.fld .plk F.PLK_TIME_OFFSET_NS = toBits 32 (clamp (-2147483648) 2147483647 o) ∧ t.pair.lastReason = 6
      ∧ bit 8 (t.rw (Page.plk.key 0x010)) = true ∧ t.fld .tim F.TIM_BS_BRIDGED = 0 ∧ t.fld .tim F.TIM_BS_DISCIPLINED = 1
      ∧ OnlyChanges s t [.regs, .out, .msiPending, .time, .pair])
  ∧ (∀ (s : State) (h : FlitHdr) (t1 t2 t3 : Nat) (o : Int), Inv s → s.receives h = true → s.pair.guyOut = false → s.pair.syncT1 = some t1 →
      o = (((t1 : Int) - t2) + ((s.time.dtime : Int) - t3)).tdiv 2 → o.natAbs ≤ s.fld .plk F.PLK_CFG_TIME_STEP_US * 1000 → o ≠ 0 →
    ∃ t, exec (.timeSyncReply h t1 t2 t3) s = .next t ∧ TookFlit t h ∧ t.time = s.time ∧ t.fld .plk F.PLK_TIME_OFFSET_NS =
        toBits 32 (clamp (-2147483648) 2147483647 o)
      ∧ (∃ r : Nat, r ≤ 100000 ∧ t.fld .tim F.TIM_TRIM_PPB = toBits 18 (-(o.sign * (r : Int)))) ∧ t.fld .tim F.TIM_BS_DISCIPLINED = 1
      ∧ (o.natAbs ≤ 1000 → t.fld .tim F.TIM_BS_BRIDGED = 0) ∧ OnlyChanges s t [.regs, .out, .free, .pair])
  ∧ (∀ (s : State) (h : FlitHdr) (n seq ta tb : Nat), Inv s → s.receives h = true → s.pair.guyOut = false → n < 8 → (s.disp n).running = true →
      Sparse.find s.pair.lineZero n = some tb → seq < 2 ^ 32 - 1 →
      2 * ((tb : Int) - ta).natAbs < (s.timing n).ht * totalLines (s.timing n) (s.disp n) * 1000000 / (s.timing n).khz →
    ∃ t, exec (.timeSyncFrame h n seq ta) s = .next t ∧ TookFlit t h
      ∧ t.fld (.scn n) F.SCN_SEQ_SEQ = (if (s.disp n).fresh = true ∨ (s.timing n).va ≤ (s.disp n).line then seq + 1 else seq)
      ∧ Sparse.find t.pair.frameErr n = some ((((tb : Int) - ta) * (((s.timing n).khz : Int) * 1000)).tdiv 1000000000)
      ∧ OnlyChanges s t [.regs, .out, .pair])
  ∧ (∀ (s : State) (h : FlitHdr) (n seq line : Nat) (go : Bool), Inv s → s.receives h = true → s.pair.guyOut = false →
    ∃ t, exec (.timeSyncVrr h n seq line go) s = .next t ∧ TookFlit t h ∧ (n, seq, line, go) ∈ t.pair.vrrFlits
      ∧ (∀ f ∈ s.pair.vrrFlits, f.1 ≠ n → f ∈ t.pair.vrrFlits) ∧ OnlyChanges s t [.out, .pair])
  ∧ (∀ (s : State) (h : FlitHdr) (rec g fn : Nat) (es : List (Nat × Nat × Nat)), Inv s → s.receives h = true → s.canSend = true → s.standby = true →
      s.pair.offered = none → s.power.state = .run → (∀ r ∈ s.pair.held, r.recNo ≠ rec) →
    ∃ t, exec (.commitArmRecord h rec g fn es true) s = .next t ∧ TookFlit t h ∧ t.pair.held = s.pair.held ++ [⟨rec, g, fn, es,
          if fn = State.releaseFn then (es.map fun e => e.1 / 0x1000 * 0x1000).eraseDups else s.pageSet g fn, true⟩]
      ∧ t.pair.nextRec = (rec + 1) % 2 ^ 32 ∧ Sends t s.pair.txSeq (.commitAck 0 rec 0) ∧ t.pair.applied = (s.pair.applied + 1) % 2 ^ 32
      ∧ OnlyChanges s t [.regs, .out, .pair])
  ∧ (∀ (s : State) (h : FlitHdr) (rec frame n : Nat) (r : HeldRecord), Inv s → s.receives h = true → s.canSend = true → s.standby = true →
      s.pair.offered = none → s.pair.held = [r] → r.recNo = rec → r.final = true → s.leadOf r.group = some n → frame < 2 ^ 32 →
      2 ^ 31 ≤ (s.fld (.scn n) F.SCN_SEQ_SEQ + 2 ^ 32 - frame) % 2 ^ 32 →
    ∃ t, exec (.commitArmApply h rec frame) s = .next t ∧ TookFlit t h ∧ t.pair.held = [] ∧ Sends t s.pair.txSeq (.commitAck 1 rec frame)
      ∧ (∃ c ∈ t.display.commits, c.cno = rec ∧ c.group = r.group ∧ c.stage = .applying ∧ c.frame = frame)
      ∧ t.pair.applied = (s.pair.applied + 1) % 2 ^ 32)
  ∧ (∀ (s : State) (h : FlitHdr) (rec : Nat), Inv s → s.receives h = true → s.standby = true → s.pair.offered = none →
    ∃ t, exec (.commitArmDrop h rec) s = .next t ∧ TookFlit t h ∧ t.pair.held = s.pair.held.filter (fun r => r.recNo != rec)
      ∧ t.pair.applied = (s.pair.applied + 1) % 2 ^ 32 ∧ OnlyChanges s t [.out, .pair])
  ∧ (∀ (s : State) (h : FlitHdr) (rec n : Nat) (c : Commit), Inv s → s.receives h = true → s.display.commits = [c] → c.cno = rec → c.stage = .sent →
      s.leadOf c.group = some n → s.display.waitingRelease = [] →
    ∃ t, exec (.commitAckHeld h rec) s = .next t ∧ TookFlit t h ∧ t.display.commits = [{ c with stage := .waiting }]
      ∧ t.display.disps = s.display.disps)
  ∧ (∀ (s : State) (h : FlitHdr) (rec n f frame : Nat), Inv s → s.receives h = true → s.pair.applySent = [(rec, n, f)] → s.pair.skewed = [] →
    ∃ t, exec (.commitAckApplied h rec frame) s = .next t ∧ TookFlit t h ∧ t.pair.applySent = []
      ∧ t.pair.skewed = (if f = frame then [] else [(n, f)])
      ∧ t.fld .plk F.PLK_SKEW_FRAMES_COUNT = min (s.fld .plk F.PLK_SKEW_FRAMES_COUNT + (if f = frame then 0 else 1)) 0xFFFFFFFF
      ∧ OnlyChanges s t [.regs, .out, .pair] ∧ SameWordsBut s t [Page.plk.key 0x078])
  ∧ (∀ (s : State) (h : FlitHdr) (d e : Digest) (due : Nat), Inv s → s.receives h = true → s.paired = true → s.pair.state = .standby → d.out < 8 →
      s.pair.ownDigests = [(e, due)] → e.out = d.out → e.frame = d.frame → e.value = d.value → s.pair.partnerDigests = [] → e.bad = 0 → d.bad = 0 →
      d.flags = 0 →
    ∃ t, exec (.stateDigest h d) s = .next t ∧ TookFlit t h ∧ t.pair.ownDigests = [] ∧ t.pair.partnerDigests = []
      ∧ t.pair.mismatched = s.pair.mismatched.filter (· != d.out) ∧ t.fld .plk F.PLK_FRAME_RUN_RUN [d.out] = 0
      ∧ OnlyChanges s t [.regs, .out, .pair] ∧ SameWordsBut s t [Page.plk.key (F.PLK_FRAME_RUN_RUN.at [d.out])])
  ∧ (∀ (s : State) (h : FlitHdr) (d e : Digest) (due : Nat), Inv s → s.receives h = true → s.paired = true → s.pair.state = .standby → d.out < 8 →
      s.pair.ownDigests = [(e, due)] → e.out = d.out → e.frame = d.frame → e.value ≠ d.value → s.pair.partnerDigests = [] → e.bad = 0 → d.bad = 0 →
      e.flags = 0 → d.flags = 0 → s.fld .plk F.PLK_CFG_STATE_LIMIT = 0 →
    ∃ t, exec (.stateDigest h d) s = .next t ∧ TookFlit t h ∧ t.pair.lastReason = 7 ∧ d.out ∈ t.pair.mismatched
      ∧ t.fld .plk F.PLK_FRAME_RUN_RUN [d.out] = min (s.fld .plk F.PLK_FRAME_RUN_RUN [d.out] + 1) 0xFF
      ∧ t.fld .plk F.PLK_FRAME_RUN_TOTAL [d.out] = min (s.fld .plk F.PLK_FRAME_RUN_TOTAL [d.out] + 1) 0xFFFFFF
      ∧ bit 3 (t.rw (Page.plk.key 0x010)) = true ∧ OnlyChanges s t [.regs, .out, .msiPending, .pair])
  ∧ (∀ (s : State) (h : FlitHdr) (arg : Nat) (r : WakeResult), Inv s → s.receives h = true →
    ∃ t, exec (.wakeFlit h 1 arg r) s = .next t ∧ TookFlit t h ∧ t.pair.pFallow = false ∧ OnlyChanges s t [.out, .pair])
  ∧ (∀ (s : State) (h : FlitHdr) (arg : Nat) (r : WakeResult), Inv s → s.receives h = true →
    ∃ t, exec (.wakeFlit h 2 arg r) s = .next t ∧ TookFlit t h ∧ t.pair.wakeReason = arg % 256 ∧ bit 7 (t.rw (Page.plk.key 0x010)) = true
      ∧ OnlyChanges s t [.regs, .out, .msiPending, .pair])
  ∧ (∀ (s : State) (h : FlitHdr) (d e : Digest) (due j : Nat), Inv s → s.receives h = true → s.linked = true → s.pair.state = .standby → d.out < 8 →
      s.pair.ownDigests = [(e, due)] → e.out = d.out → e.frame = d.frame → e.value = d.value → s.pair.partnerDigests = [] → d.flags = 0 →
      j < 16 → bit j e.bad = true → bit j due = true → bit j d.bad = false → bit j d.active = true →
    ∃ t, exec (.stateDigest h d) s = .next t ∧ TookFlit t h ∧ t.pair.lastReason = 9 ∧ t.pair.state = .syncing ∧ t.pair.ownDigests = []
      ∧ bit 3 (t.rw (Page.plk.key 0x010)) = true)
  ∧ (∀ (s : State) (h k : FlitHdr), s.pair.trained = true → s.pair.recovering = false → s.linked = true → k = { h with ackValid := false, nak := false } →
      (s.takeHeader h).pair.trained = true → (s.takeHeader h).pair.recovering = false → (s.takeHeader h).linked = true →
    (∀ b slow, exec (.heartbeat h b slow) s = exec (.heartbeat k b slow) (s.takeHeader h))
      ∧ (∀ c, exec (.joinRequest h c) s = exec (.joinRequest k c) (s.takeHeader h))
      ∧ exec (.joinAccept h) s = exec (.joinAccept k) (s.takeHeader h)
      ∧ (∀ r, r ≠ 0 → exec (.joinRefuse h r) s = exec (.joinRefuse k r) (s.takeHeader h))
      ∧ exec (.syncDone h) s = exec (.syncDone k) (s.takeHeader h)
      ∧ (∀ c, exec (.handoverOffer h c) s = exec (.handoverOffer k c) (s.takeHeader h))
      ∧ exec (.handoverReady h) s = exec (.handoverReady k) (s.takeHeader h)
      ∧ (∀ r, exec (.handoverRefusal h r) s = exec (.handoverRefusal k r) (s.takeHeader h))
      ∧ (∀ m, exec (.mirrorWrite h m) s = exec (.mirrorWrite k m) (s.takeHeader h))
      ∧ (∀ a b c es fin, exec (.commitArmRecord h a b c es fin) s = exec (.commitArmRecord k a b c es fin) (s.takeHeader h))
      ∧ (∀ a b, exec (.commitArmApply h a b) s = exec (.commitArmApply k a b) (s.takeHeader h))
      ∧ (∀ a, exec (.commitArmDrop h a) s = exec (.commitArmDrop k a) (s.takeHeader h))
      ∧ (∀ a, exec (.commitAckHeld h a) s = exec (.commitAckHeld k a) (s.takeHeader h))
      ∧ (∀ a b, exec (.commitAckApplied h a b) s = exec (.commitAckApplied k a b) (s.takeHeader h))
      ∧ (∀ a, exec (.timeSyncRequest h a) s = exec (.timeSyncRequest k a) (s.takeHeader h))
      ∧ (∀ a b c, exec (.timeSyncReply h a b c) s = exec (.timeSyncReply k a b c) (s.takeHeader h))
      ∧ (∀ a b c, exec (.timeSyncFrame h a b c) s = exec (.timeSyncFrame k a b c) (s.takeHeader h))
      ∧ (∀ a b c g, exec (.timeSyncVrr h a b c g) s = exec (.timeSyncVrr k a b c g) (s.takeHeader h))
      ∧ (∀ d, exec (.stateDigest h d) s = exec (.stateDigest k d) (s.takeHeader h))
      ∧ (∀ a b r, exec (.wakeFlit h a b r) s = exec (.wakeFlit k a b r) (s.takeHeader h)))

/-- R406 to R411, R419, R420, R423 to R427: requests for a power state are accepted or refused in the stated order; IDLE and FALLOW are entered and
left; an island is gated only while none of its pages is enabled; the save list grows and is cleared; a sag flushes, the point of no return resumes
or starts the MRAM save, and the save ends, is cut short, or is followed by a restart. Where a clause takes a reading of the model: log entries 46,
47 and 51. -/
def Obligations.PowerRequests : Prop :=
  (∀ (s : State) (w : RegWr), Inv s → s.arrives w .pwr = true → w.off % 0x1000 = 0x040 → s.grants (accOf w .pwr) F.PWR_REQ_TARGET = true →
      bits 2 0 w.val.toNat = 2 → w.req.secure = false → w.req.fn ≠ 0x40 → w.req.fn ≠ s.manager → s.fld .pwr F.ERR_CODE_CODE = 0 →
    ∃ t, exec (.pwrReqFallow w) s = .next t ∧ t.power = s.power ∧ t.fld .pwr F.PWR_REQ_STAT_CODE = 0x000A ∧ t.fld .pwr F.ERR_CODE_CODE = 0x000A
      ∧ t.rw (Page.pwr.key 0x024) = (accOf w .pwr).info ∧ t.word (Page.pwr.key 0x010) = s.word (Page.pwr.key 0x010) ||| 0x80000001#32
      ∧ OnlyChanges s t [.regs, .out, .msiPending])
  ∧ (∀ (s : State) (w : RegWr), Inv s → s.arrives w .pwr = true → w.off % 0x1000 = 0x040 → s.grants (accOf w .pwr) F.PWR_REQ_TARGET = true →
      bits 2 0 w.val.toNat = 4 → w.req.secure = true ∨ w.req.fn = 0x40 → s.power.req ≠ none → s.fld .pwr F.ERR_CODE_CODE = 0 →
    ∃ t, exec (.pwrReqOff w) s = .next t ∧ t.power = s.power ∧ t.fld .pwr F.PWR_REQ_STAT_CODE = 0x0009 ∧ t.fld .pwr F.ERR_CODE_CODE = 0x0009
      ∧ t.rw (Page.pwr.key 0x024) = (accOf w .pwr).info ∧ OnlyChanges s t [.regs, .out, .msiPending])
  ∧ (∀ (s : State) (w : RegWr) (g : Nat), Inv s → s.arrives w .pwr = true → w.off % 0x1000 = 0x040 →
      s.grants (accOf w .pwr) F.PWR_REQ_TARGET = true → bits 2 0 w.val.toNat = 1 → w.req = ⟨0x40, false⟩ → s.power.req = none → g < 8 →
      s.held g = true → (∀ h < g, s.held h = false) → s.fld .pwr F.ERR_CODE_CODE = 0 →
    ∃ t, exec (.pwrReqIdle w) s = .next t ∧ t.power = s.power ∧ t.fld .pwr F.PWR_REQ_STAT_CODE = 0x0202
      ∧ t.rw (Page.pwr.key 0x024) = s.holdInfo g 0x40 ∧ OnlyChanges s t [.regs, .out, .msiPending])
  ∧ (∀ (s : State) (w : RegWr), Inv s → s.arrives w .pwr = true → w.off % 0x1000 = 0x040 → s.grants (accOf w .pwr) F.PWR_REQ_TARGET = true →
      bits 2 0 w.val.toNat = 2 → w.req = ⟨0x41, true⟩ → s.power.req = none → s.power.state = .run → s.pair.state = .active → s.paired = true →
      s.pair.pFallow = false → s.fld .pwr F.ERR_CODE_CODE = 0 →
    ∃ t, exec (.pwrReqFallow w) s = .next t ∧ t.power = s.power ∧ t.fld .pwr F.PWR_REQ_STAT_CODE = 0x1101
      ∧ t.rw (Page.pwr.key 0x024) = 5 + 2 * 16 + 0x41 * 2 ^ 16 ∧ OnlyChanges s t [.regs, .out, .msiPending])
  ∧ (∀ (s : State) (w : RegWr), Inv s → s.arrives w .pwr = true → w.off % 0x1000 = 0x040 → s.grants (accOf w .pwr) F.PWR_REQ_TARGET = true →
      bits 2 0 w.val.toNat = 1 → w.req = ⟨0x41, true⟩ → s.power.req = none → s.power.state = .run → s.runningOutputs = [] →
    ∃ t, exec (.pwrReqIdle w) s = .next t
      ∧ t.power = { s.power with state := .idle, stateGated := [10, 11, 12, 13, 14, 15, 16, 17], ranOutputs := [] }
      ∧ t.fld .pwr F.PWR_STAT_STATE = 1 ∧ t.fld .pwr F.PWR_REQ_STAT_CODE = 0 ∧ t.fld .pwr F.PWR_REQ_STAT_BUSY = 0
      ∧ t.fld .pwr F.PWR_REQ_STAT_TARGET = 1 ∧ bit 0 (t.rw (Page.pwr.key 0x010)) = true
      ∧ t.fld .aon F.AON_RES_HI_ENTRIES [1] = min (s.fld .aon F.AON_RES_HI_ENTRIES [1] + 1) 0xFFFF
      ∧ OnlyChanges s t [.regs, .out, .power, .msiPending])
  ∧ (∀ (s : State) (w : RegWr), Inv s → s.arrives w .pwr = true → w.off % 0x1000 = 0x040 → s.grants (accOf w .pwr) F.PWR_REQ_TARGET = true →
      bits 2 0 w.val.toNat = 1 → w.req = ⟨0x41, true⟩ → s.power.req = none → s.power.state = .run → s.runningOutputs ≠ [] →
      (s.fld .pwr F.PWR_IDLE_CFG_ALLOW_CL3 = 1 ∨ ∀ n ∈ s.runningOutputs, ∀ x ∈ State.frameSlots (s.frameView n) n, x.en = true →
        (s.frameView n).fld (.slot n x.k) F.OWNER_CRIT ≠ 3) → (∀ n ∈ s.runningOutputs, s.flag (.dpl n) F.DPL_SINK_PR = true) →
    ∃ t, exec (.pwrReqIdle w) s = .next t
      ∧ t.power = { s.power with req := some ⟨1, 0x41, true, s.now, 1⟩, ranOutputs := s.runningOutputs }
      ∧ t.fld .pwr F.PWR_REQ_STAT_BUSY = 1 ∧ t.fld .pwr F.PWR_REQ_STAT_TARGET = 1 ∧ t.display = s.display ∧ OnlyChanges s t [.regs, .power])
  ∧ (∀ (s : State) (w : RegWr) (n : Nat), Inv s → s.arrives w .pwr = true → w.off % 0x1000 = 0x040 →
      s.grants (accOf w .pwr) F.PWR_REQ_TARGET = true → bits 2 0 w.val.toNat = 1 → w.req = ⟨0x41, true⟩ → s.power.req = none →
      s.power.state = .run → n ∈ s.runningOutputs → s.fld .pwr F.ERR_CODE_CODE = 0 →
      ((∃ x ∈ State.frameSlots (s.frameView n) n, x.en = true ∧ (s.frameView n).fld (.slot n x.k) F.OWNER_CRIT = 3)
          ∧ s.fld .pwr F.PWR_IDLE_CFG_ALLOW_CL3 = 0
        ∨ s.fld .pwr F.PWR_IDLE_CFG_ALLOW_CL3 = 1 ∧ s.flag (.dpl n) F.DPL_SINK_PR = false) →
    ∃ t, exec (.pwrReqIdle w) s = .next t ∧ t.power = s.power ∧ t.fld .pwr F.PWR_REQ_STAT_CODE = 0x1101
      ∧ t.rw (Page.pwr.key 0x024) = (if s.fld .pwr F.PWR_IDLE_CFG_ALLOW_CL3 = 0 then 3 else 4) + 1 * 16 + 0x41 * 2 ^ 16
      ∧ OnlyChanges s t [.regs, .out, .msiPending])
  ∧ (∀ (s : State) (w : RegWr), Inv s → s.arrives w .pwr = true → w.off % 0x1000 = 0x040 → s.grants (accOf w .pwr) F.PWR_REQ_TARGET = true →
      bits 2 0 w.val.toNat = 0 → w.req = ⟨0x41, true⟩ → s.power.req = none → s.power.state = .idle →
    ∃ t, exec (.pwrReqRun w) s = .next t ∧ t.power = { s.power with state := .run, stateGated := [], ranOutputs := [] }
      ∧ t.fld .pwr F.PWR_STAT_STATE = 0 ∧ t.fld .pwr F.PWR_REQ_STAT_CODE = 0 ∧ bit 0 (t.rw (Page.pwr.key 0x010)) = true
      ∧ (∀ n ∈ s.power.ranOutputs, (s.disp n).running = false → (t.disp n).starting = true)
      ∧ OnlyChanges s t [.regs, .out, .power, .display, .msiPending])
  ∧ (∀ (s : State) (w : RegWr), Inv s → s.arrives w .pwr = true → w.off % 0x1000 = 0x040 → s.grants (accOf w .pwr) F.PWR_REQ_TARGET = true →
      bits 2 0 w.val.toNat = 2 → w.req = ⟨0x41, true⟩ → s.power.req = none → s.power.state ∈ [.run, .idle] →
      (s.pair.state = .active → s.paired = false ∨ s.pair.pFallow = true) →
    ∃ t, exec (.pwrReqFallow w) s = .next t ∧ t.power = { s.power with req := some ⟨2, 0x41, true, s.now, 1⟩ }
      ∧ t.fld .pwr F.PWR_REQ_STAT_BUSY = 1 ∧ t.fld .pwr F.PWR_REQ_STAT_TARGET = 2 ∧ t.hosts.fetchStopped = true
      ∧ OnlyChanges s t [.regs, .power, .fetchStopped])
  ∧ (∀ (s : State) (w : RegWr), Inv s → s.arrives w .pwr = true → w.off % 0x1000 = 0x040 → s.grants (accOf w .pwr) F.PWR_REQ_TARGET = true →
      bits 2 0 w.val.toNat = 4 → w.req = ⟨0x41, true⟩ → s.power.req = none → s.power.state ∈ [.run, .idle] →
      (s.pair.state = .active → s.paired = false ∨ s.pair.pFallow = true) →
    ∃ t, exec (.pwrReqOff w) s = .next t ∧ t.power = { s.power with req := some ⟨4, 0x41, true, s.now, 1⟩ }
      ∧ t.fld .pwr F.PWR_REQ_STAT_BUSY = 1 ∧ t.hosts.fetchStopped = true ∧ OnlyChanges s t [.regs, .power, .fetchStopped])
  ∧ (∀ (s : State) (r : PowerReq), Inv s → s.power.req = some r → r.target = 2 ∨ r.target = 4 → r.step = 1 → s.drained = true → s.asleep = false →
      s.flag (.aud 0) F.PG_STAT_ENABLED = true →
    ∃ t, exec .fallowDrainDone s = .next t ∧ t.power.state = s.power.state ∧ t.power.req = some { r with step := 2 } ∧ t.audio.closing = [0, 1, 2]
      ∧ (∀ n < 8, (t.disp n).running = false) ∧ (∀ n < 8, (t.dpl n).powered = false))
  ∧ (∀ (s : State) (r : PowerReq), Inv s → s.power.req = some r → r.target = 2 → r.step = 2 ∨ r.step = 1 ∧ s.drained = true → s.quietened = true →
      s.asleep = false →
    ∃ t, exec .fallowDrainDone s = .next t ∧ t.power.state = .fallow ∧ t.power.req = none ∧ t.power.stateGated = fallowIslands
      ∧ t.power.copyOk = true ∧ (∀ n < s.channels, (t.dmc n).selfRefresh = true) ∧ (r.step = 1 → ∀ n < 8, (t.disp n).running = false)
      ∧ (∃ img, t.power.sram = some img ∧ img.cause = 2 ∧ img.words.map (fun e => (e.1, e.2.1)) = s.power.saveList)
      ∧ (∀ c < 8, .bridge c .highZ ∈ t.out)
      ∧ t.time.captured = true ∧ t.fld .pwr F.PWR_REQ_STAT_CODE = 0 ∧ bit 0 (t.rw (Page.pwr.key 0x010)) = true)
  ∧ (∀ (s : State) (r : PowerReq), Inv s → s.power.req = some r → r.target = 4 → r.step = 2 ∨ r.step = 1 ∧ s.drained = true → s.quietened = true →
      s.asleep = false →
    ∃ t, exec .fallowDrainDone s = .next t ∧ t.power.state = .off ∧ t.power.req = none ∧ t.power.wakeEn = s.fld .pwr F.PWR_WAKE_EN_SOURCES
      ∧ t.pair.guyOut = false ∧ t.power.saveList = s.power.saveList ∧ t.time.captured = true
      ∧ (∃ img, t.power.sram = some img ∧ img.cause = 4 ∧ img.words.map (fun e => (e.1, e.2.1)) = s.power.saveList))
  ∧ (∀ (s : State) (r : PowerReq), Inv s → s.power.req = some r → r.target = 2 ∨ r.target = 4 → r.step = 1 → s.power.state = .run →
      s.power.ranOutputs = [] → s.fld .pwr F.ERR_CODE_CODE = 0 →
    ∃ t, exec .fallowDrainTimeout s = .next t ∧ t.power = { s.power with req := none } ∧ t.hosts.fetchStopped = false
      ∧ t.fld .pwr F.PWR_REQ_STAT_CODE = 0x1101 ∧ t.fld .pwr F.ERR_CODE_CODE = 0x1101
      ∧ t.rw (Page.pwr.key 0x024) = 6 + r.target * 16 + r.fn * 2 ^ 16 ∧ OnlyChanges s t [.regs, .out, .power, .fetchStopped, .msiPending])
  ∧ (∀ (s : State) (w : RegWr) (i : Nat), Inv s → s.arrives w .pwr = true → w.off % 0x1000 = 0x060 → s.secretPage (accOf w .pwr) = false →
      w.req.secure = true → s.fld .pwr F.PWR_ISL_SEL_ISLAND = i → i < 46 → 2 ≤ islandDomain i → bits 1 0 w.val.toNat = 1 → s.islandCtrl i = 0 →
      (∃ pg ∈ islandPages i, s.flag pg F.PG_STAT_ENABLED = true) →
    ∃ t, exec (.pwrIslWrite w) s = .next t ∧ Records s t .pwr 0x1101 (9 + w.req.fn * 2 ^ 16) ∧ OnlyChanges s t [.regs, .out, .msiPending]
      ∧ SameWordsBut s t (errWords .pwr))
  ∧ (∀ (s : State) (w : RegWr) (i : Nat), Inv s → s.arrives w .pwr = true → w.off % 0x1000 = 0x060 → s.secretPage (accOf w .pwr) = false →
      w.req.secure = true → s.fld .pwr F.PWR_ISL_SEL_ISLAND = i → i < 46 → 2 ≤ islandDomain i → bits 1 0 w.val.toNat = 1 → s.islandCtrl i = 0 →
      (∀ pg ∈ islandPages i, s.flag pg F.PG_STAT_ENABLED = false) →
    ∃ t, exec (.pwrIslWrite w) s = .next t ∧ t.rw (State.islKey i) = 1 ∧ OnlyChanges s t [.regs, .shad]
      ∧ (∀ pg ∈ islandPages i, ∀ o < 0x1000, Sparse.find s.loaded (pg.key o) = none → t.word (pg.key o) = resetWord s.part (pg.key o))
      ∧ (∀ k, (∀ pg ∈ islandPages i, pg.base ≠ State.keyPage k) → k ≠ State.islKey i → t.rw k = s.rw k))
  ∧ (∀ (s : State) (w : RegWr) (pg : Page) (o : Nat), Inv s → s.arrives w .pwr = true → w.off % 0x1000 = 0x068 →
      s.secretPage (accOf w .pwr) = false → o = bits 23 0 w.val.toNat → pageOf o = some pg → s.populated o = true →
      w.req.secure = true → (∀ e ∈ s.power.saveList, e.1 ≠ o) → s.power.saveList.length < 4096 →
    ∃ t, exec (.pwrSaveAdd w) s = .next t ∧ t.power = { s.power with saveList := s.power.saveList ++ [(o, true)] } ∧ OnlyChanges s t [.power])
  ∧ (∀ (s : State) (w : RegWr), Inv s → s.arrives w .pwr = true → w.off % 0x1000 = 0x06C → s.grants (accOf w .pwr) F.PWR_SAVE_CTRL_CLEAR = true →
    ∃ t, exec (.pwrSaveClear w) s = .next t
      ∧ t.power = { s.power with saveList := if w.req.secure then [] else s.power.saveList.filter fun e => e.2 } ∧ OnlyChanges s t [.power])
  ∧ (∀ (s : State), Inv s → s.faults.inReset = false → s.asleep = false → s.faults.fatal = none →
    ∃ t, exec .sag s = .next t ∧ t.power.state = .holdup ∧ t.power.req = none ∧ t.power.sagAt = s.now ∧ t.power.flushed = false
      ∧ t.power.noResume = false ∧ t.hosts.fetchStopped = true ∧ t.pair.guyOut = false ∧ t.fld .aon F.AON_BS_VSAG = 1
      ∧ (∀ n < s.channels, (t.dmc n).selfRefresh = true) ∧ (∀ n < 8, (t.disp n).running = false) ∧ (∀ k < 4, (t.core k).inSecure = false)
      ∧ (∃ img, t.power.sram = some img ∧ img.cause = 3 ∧ img.words.map (fun e => (e.1, e.2.1)) = s.power.saveList)
      ∧ t.time.captured = true ∧ (s.time.captured = false → t.time.dtimeE = s.time.dtime ∧ t.time.tickE = s.time.ticks))
  ∧ (∀ (s : State), Inv s → s.faults.inReset = false → s.power.state = .fallow →
    ∃ t, exec .sag s = .next t ∧ t.power.state = .holdup ∧ t.power.req = none ∧ t.power.wake = none ∧ t.power.sagAt = s.now
      ∧ t.power.noResume = true ∧ t.power.sram = s.power.sram ∧ t.pair.guyOut = false ∧ t.fld .aon F.AON_BS_VSAG = 1 ∧ t.time.captured = true)
  ∧ (∀ (s : State) (img : SramImage), Inv s → s.power.state = .holdup → s.power.flushed = false → s.power.noResume = false →
      s.power.sram = some img → img.words = [] →
    ∃ t, exec (.pointOfNoReturn true) s = .next t ∧ t.power.state = .run ∧ t.fld .pwr F.PWR_STAT_RESUMED = 1
      ∧ t.fld .aon F.AON_SAVE_STAT_LAST = 3 ∧ t.fld .aon F.AON_BS_VSAG = 0 ∧ bit 3 (t.rw (Page.pwr.key 0x010)) = true
      ∧ (∀ n < s.channels, (t.dmc n).selfRefresh = false) ∧ t.hosts.fetchStopped = false)
  ∧ (∀ (s : State), Inv s → s.power.state = .holdup → s.power.flushed = false →
    ∃ t, exec (.pointOfNoReturn false) s = .next t ∧ t.power.state = .holdup ∧ t.power.flushed = true ∧ t.power.saving = true
      ∧ t.power.consumed = false ∧ t.power.recordN = (if s.power.recordOk then s.power.recordN else 0) + 1 ∧ t.fld .pwr F.PWR_STAT_RESUMED = 0
      ∧ t.fld .aon F.AON_SAVE_TIME_FLUSH_US = min 0xFFFF ((s.now - s.power.sagAt) / 1000))
  ∧ (∀ (s : State) (img : SramImage), Inv s → s.power.state = .holdup → s.power.saving = true → s.power.readyAtSag = true →
      s.power.sram = some img → s.power.slotA = none →
    ∃ t, exec (.mramSaveDone false) s = .next t ∧ t.power.saving = false ∧ t.power.restart = true
      ∧ (∃ m, t.power.slotA = some m ∧ m.number = s.power.recordN ∧ m.crcOk = true ∧ m.image.words = img.words)
      ∧ t.power.slotB = s.power.slotB ∧ t.fld .aon F.AON_SAVE_STAT_LAST = 1 ∧ t.fld .aon F.AON_SAVE_STAT_SLOT = 0
      ∧ t.fld .aon F.AON_SAVE_STAT_SAVES = min (s.fld .aon F.AON_SAVE_STAT_SAVES + 1) 0xFFFF ∧ OnlyChanges s t [.regs, .power])
  ∧ (∀ (s : State), Inv s → s.power.state = .holdup → s.power.saving = true → s.power.readyAtSag = true →
    ∃ t, exec .vholdExhausted s = .next t ∧ t.power.state = .stopped ∧ t.power.restart = false ∧ t.fld .aon F.AON_SAVE_STAT_LAST = 2
      ∧ Records s t .pwr 0x1103 1 ∧ OnlyChanges s t [.regs, .out, .power, .msiPending])
  ∧ (∀ (s : State), Inv s → s.power.state = .holdup → s.power.restart = true →
    ∃ t, exec .supplyReturn s = .next t ∧ t.faults.inReset = true ∧ t.faults.cause = 7 ∧ t.power.slotA = s.power.slotA
      ∧ t.power.slotB = s.power.slotB ∧ t.power.recordN = s.power.recordN ∧ t.power.sram = s.power.sram)
  ∧ (∀ (s : State) (mv cap mohm : Nat), Inv s → mv < 2 ^ 13 → cap < 2 ^ 16 → mohm ≤ 50 →
    ∃ t, exec (.vholdMeasure mv cap mohm true) s = .next t ∧ t.fld .aon F.AON_VHOLD_MV = mv ∧ t.fld .aon F.AON_VHOLD_CAP_UF = cap
      ∧ t.fld .aon F.AON_VHOLD_ESR_MOHM = mohm ∧ t.fld .aon F.AON_BS_VHOLD_OK = b2n (4850 ≤ mv)
      ∧ t.fld .pwr F.PWR_STAT_HOLD_READY = b2n (4850 ≤ mv) ∧ OnlyChanges s t [.regs]
      ∧ SameWordsBut s t [Page.aon.key 0x084, Page.aon.key 0x088, Page.aon.key 0x00C, Page.pwr.key 0x048])
  ∧ (∀ (s : State) (mv cap mohm : Nat) (meets : Bool), Inv s → mv < 2 ^ 13 → cap < 2 ^ 16 → mohm < 2 ^ 16 → (meets = false ∨ 50 < mohm) →
    ∃ t, exec (.vholdMeasure mv cap mohm meets) s = .next t ∧ t.fld .aon F.AON_VHOLD_MV = mv ∧ bit 4 (t.rw (Page.aon.key 0x010)) = true
      ∧ t.fld .pwr F.PWR_STAT_HOLD_READY = b2n (decide (4850 ≤ mv) && meets)
      ∧ t.fld .sys F.SYS_FAULT_CNT_CONTAINED = min (s.fld .sys F.SYS_FAULT_CNT_CONTAINED + 1) 0xFFFF)

/-- R404, R409 step 10, R412 to R416, R421, R428 to R432 and the AON: every wake source acts while its bit in PWR_WAKE_EN is 1; a wake from FALLOW ends
in RUN with DRAM out of self-refresh, the save list written back and DTIME bridged; a source refuses a running entry, starts the device from OFF
when it belongs to the AON, and does nothing when masked; failing attempts are repeated and the last one is reported; calibration, TIM_SET, the
alarm and PMBus transactions. Where a clause takes a reading of the model: log entries 48, 107 and 108. -/
def Obligations.WakesAndTime : Prop :=
  (∀ (s : State) (i : Instr) (b : Nat) (img : SramImage), Inv s → (i, b) ∈ [(.wakeTlp 0 .up, 0), (.wakeTlp 1 .up, 1), (.canWakeUp .up, 3),
        (.wakePin .up, 4), (.motionEdge true .up, 5), (.motionEdge false .up, 5), (.alarmFire .up, 6)] → (b < 2 → s.portUp b = true) →
      (b = 6 → s.power.alarmArmed = true ∧ s.fld .aon F.AON_ALARM_HI_ALARM_EN = 1 ∧
        s.fld .aon F.AON_ALARM_LO_TICK + s.fld .aon F.AON_ALARM_HI_TICK * 2 ^ 32 ≤ s.time.ticks) → s.power.state = .fallow →
      s.power.wake = none → bit b (s.fld .pwr F.PWR_WAKE_EN_SOURCES) = true → s.power.sram = some img → img.words = [] →
    ∃ t, exec i s = .next t ∧ t.power.state = .run ∧ t.fld .pwr F.PWR_STAT_STATE = 0 ∧ t.fld .pwr F.PWR_WAKE_CAUSE_SOURCES = 2 ^ b
      ∧ t.power.wake = none ∧ t.power.stateGated = [] ∧ t.power.doorbells = [] ∧ t.hosts.fetchStopped = false
      ∧ (∀ n < s.channels, (t.dmc n).selfRefresh = false) ∧ bit 1 (t.rw (Page.pwr.key 0x010)) = true ∧ t.time.captured = false
      ∧ (s.time.captured = true → t.time.dtime = (s.time.dtimeE + (s.time.ticks - s.time.tickE) * s.time.calE / 65536) % 2 ^ 64))
  ∧ (∀ (s : State) (img : SramImage) (v : Nat), Inv s → s.power.state = .fallow → s.power.wake = none →
      bit 4 (s.fld .pwr F.PWR_WAKE_EN_SOURCES) = true → s.power.sram = some img → img.words = [(Page.tim.key 0x05C, true, v)] → img.bad = [] →
      s.fld .tim F.PG_CTRL_LOCK = 0 → s.softResetting = [] → s.faults.inReset = false → s.faults.recovery = false → s.faults.stopped = [] →
    ∃ t, exec (.wakePin .up) s = .next t ∧ t.fld .tim F.TIM_DRIFT_PPM = bits 7 0 v)
  ∧ (∀ (s : State) (i : Instr) (b : Nat), Inv s → (i, b) ∈ [(.wakeTlp 0 .stuck, 0), (.wakeTlp 1 .stuck, 1)] → s.portUp b = true →
      s.power.state = .fallow → s.power.wake = none → bit b (s.fld .pwr F.PWR_WAKE_EN_SOURCES) = true → s.linked = false →
    ∃ t, exec i s = .next t ∧ t.power = { s.power with wake := some b, attempts := 1, wakeAt := s.now, wakeWait := false }
      ∧ t.fld .pwr F.PWR_WAKE_CAUSE_SOURCES = 2 ^ b ∧ OnlyChanges s t [.regs, .power] ∧ SameWordsBut s t [Page.pwr.key 0x050])
  ∧ (∀ (s : State) (i : Instr) (b : Nat) (r : PowerReq), Inv s →
      (i, b) ∈ [(.wakeTlp 0 .up, 0), (.wakeTlp 1 .up, 1), (.canWakeUp .up, 3), (.wakePin .up, 4), (.motionEdge true .up, 5)] →
      (b < 2 → s.portUp b = true) → s.power.state = .run → s.power.req = some r → r.target = 2 ∨ r.target = 4 → s.power.ranOutputs = [] →
      bit b (s.fld .pwr F.PWR_WAKE_EN_SOURCES) = true → s.fld .pwr F.ERR_CODE_CODE = 0 →
    ∃ t, exec i s = .next t ∧ t.power = { s.power with req := none } ∧ t.hosts.fetchStopped = false
      ∧ t.fld .pwr F.PWR_REQ_STAT_CODE = 0x1101 ∧ t.rw (Page.pwr.key 0x024) = 7 + r.target * 16 + r.fn * 2 ^ 16)
  ∧ (∀ (s : State) (i : Instr) (b c : Nat), Inv s →
      (i, b, c) ∈ [(.canWakeUp .stuck, 3, 5), (.wakePin .stuck, 4, 6), (.motionEdge true .stuck, 5, 5)] → s.power.state = .off →
      bit b s.power.wakeEn = true →
    ∃ t, exec i s = .next t ∧ t.power = { s.power with state := .run } ∧ t.faults = { s.faults with inReset := true, cause := c }
      ∧ t.fld .pwr F.PWR_WAKE_CAUSE_SOURCES = 2 ^ b)
  ∧ (∀ (s : State) (i : Instr) (b : Nat) (r : WakeResult), Inv s → (i, b) ∈ [(.canWakeUp r, 3), (.wakePin r, 4), (.motionEdge false r, 5)] →
      s.power.state ≠ .stopped → bit b (s.fld .pwr F.PWR_WAKE_EN_SOURCES) = false → (s.power.state = .off → bit b s.power.wakeEn = false) →
    ∃ t, exec i s = .next t ∧ t.power = s.power ∧ t.fld .pwr F.PWR_WAKE_CAUSE_SOURCES = s.fld .pwr F.PWR_WAKE_CAUSE_SOURCES
      ∧ bit (b - 3) (t.rw (Page.aon.key 0x010)) = true ∧ OnlyChanges s t [.regs, .out, .update, .msiPending])
  ∧ (∀ (s : State) (r : WakeResult), Inv s → s.power.state = .run → s.power.req = none → s.power.alarmArmed = true →
      s.fld .aon F.AON_ALARM_HI_ALARM_EN = 1 → s.fld .aon F.AON_ALARM_LO_TICK + s.fld .aon F.AON_ALARM_HI_TICK * 2 ^ 32 ≤ s.time.ticks →
    ∃ t, exec (.alarmFire r) s = .next t ∧ t.power = { s.power with alarmArmed := false } ∧ t.fld .aon F.AON_ALARM_HI_ALARM_EN = 0
      ∧ t.fld .aon F.AON_ALARM_HI_TICK = s.fld .aon F.AON_ALARM_HI_TICK ∧ bit 3 (t.rw (Page.aon.key 0x010)) = true
      ∧ OnlyChanges s t [.regs, .out, .power, .msiPending])
  ∧ (∀ (s : State) (b reason item : Nat) (es : List (List Word32)), Inv s → s.power.state = .fallow → s.power.wake = some b →
      s.power.wakeWait = false → 0 < reason → reason ≤ 3 → item < 64 → s.power.attempts ≤ s.fld .pwr F.PWR_WAKE_LIMIT_RETRIES →
    ∃ t, exec (.wakeStepTimeout reason item es) s = .next t ∧ t.power = { s.power with wakeWait := true } ∧ OnlyChanges s t [.power])
  ∧ (∀ (s : State) (b reason item : Nat) (es : List (List Word32)), Inv s → s.power.state = .fallow → s.power.wake = some b →
      s.power.wakeWait = false → 0 < reason → reason ≤ 3 → item < 64 → s.fld .pwr F.PWR_WAKE_LIMIT_RETRIES < s.power.attempts →
      s.power.doorbells = [] → s.linked = false → s.standby = false → s.fld .pwr F.ERR_CODE_CODE = 0 →
    ∃ t, exec (.wakeStepTimeout reason item es) s = .next t ∧ t.power = { s.power with wake := none, wakeWait := false }
      ∧ t.fld .pwr F.PWR_STAT_WAKE_FAIL_REASON = reason ∧ t.fld .pwr F.ERR_CODE_CODE = 0x1102
      ∧ t.rw (Page.pwr.key 0x024) = (reason + s.power.attempts * 2 ^ 8 + item * 2 ^ 16) % 2 ^ 32 ∧ bit 2 (t.rw (Page.pwr.key 0x010)) = true
      ∧ (s.fld .aon F.AON_CAN_REPORT_EN = 1 → ∃ d, Output.can (s.fld .aon F.AON_CAN_REPORT_ID + s.fld .aon F.AON_CAN_REPORT_IDE * 2 ^ 29) d ∈ t.out
          ∧ d.take 2 = [reason, s.power.attempts] ∧ d.length = 8)
      ∧ OnlyChanges s t [.regs, .out, .power, .msiPending])
  ∧ (∀ (s : State) (b : Nat) (img : SramImage), Inv s → s.power.state = .fallow → s.power.wake = some b → s.power.wakeWait = true →
      s.power.sram = some img → img.words = [] →
    ∃ t, exec (.wakeRetry .up) s = .next t ∧ t.power.state = .run ∧ t.power.attempts = s.power.attempts + 1 ∧ t.power.wake = none)
  ∧ (∀ (s : State) (c : Nat), Inv s → s.asleep = false → c * 80 < 2 ^ 32 →
    ∃ t, exec (.timCalInterval c) s = .next t ∧ t.fld .tim F.TIM_CAL_CAL = c * 80 ∧ OnlyChanges s t [.regs] ∧ SameWordsBut s t [Page.tim.key 0x054])
  ∧ (∀ (s : State) (w : RegWr), Inv s → s.arrives w .tim = true → w.off % 0x1000 = 0x04C → s.secretPage (accOf w .tim) = false →
      w.req.secure = true ∨ w.req.fn = s.manager → s.standby = false →
    ∃ t, exec (.timSet w) s = .next t
      ∧ t.time = { s.time with dtime := w.val.toNat * 2 ^ 32 + s.fld .tim F.TIM_SET_LO_SET, frac := 0 }
      ∧ bit 1 (t.rw (Page.tim.key 0x010)) = true ∧ t.fld .tim F.TIM_BS_BRIDGED = 0 ∧ OnlyChanges s t [.regs, .out, .msiPending, .time])
  ∧ (∀ (s : State) (w : RegWr), Inv s → s.arrives w .tim = true → w.off % 0x1000 = 0x04C → s.secretPage (accOf w .tim) = false →
      s.writesAny (accOf w .tim) = true → (w.req.secure = false ∧ w.req.fn ≠ s.manager) ∨ s.standby = true →
    ∃ t, exec (.timSet w) s = .next t ∧ t.time = s.time
      ∧ Records s t .tim (if w.req.secure = false ∧ w.req.fn ≠ s.manager then 0x000A else 0x1003) (accOf w .tim).info ∧ OnlyChanges s t [.regs, .out, .msiPending])
  ∧ (∀ (s : State) (w : RegWr), Inv s → s.arrives w .aon = true → w.off % 0x1000 = 0x074 → s.secretPage (accOf w .aon) = false →
    ∃ t, exec (.aonAlarmArm w) s = .next t ∧ t.power = { s.power with alarmArmed := true }
      ∧ t.fld .aon F.AON_ALARM_HI_TICK = bits 15 0 w.val.toNat ∧ t.flag .aon F.AON_ALARM_HI_ALARM_EN = bit 31 w.val.toNat)
  ∧ (∀ (s : State) (w : RegWr), Inv s → s.arrives w .aon = true → w.off % 0x1000 = 0x094 → s.grants (accOf w .aon) F.AON_PMB_CTRL_GO = true →
      s.secretPage (accOf w .aon) = false → w.req.secure = true → bits 17 16 w.val.toNat = 2 → bits 15 8 w.val.toNat = 0x79 → bit 7 w.val.toNat = true →
      s.power.pmb = none →
    ∃ t, exec (.aonPmbGo w) s = .next t ∧ t.power = { s.power with pmb := some (bits 6 0 w.val.toNat, 0x79, true, 2) }
      ∧ t.fld .aon F.AON_PMB_STAT_STATE = 1 ∧ Output.pmbus (bits 6 0 w.val.toNat) 0x79 (s.fld .aon F.AON_PMB_DATA_DATA) ∈ t.out)
  ∧ (∀ (s : State) (addr cmd len data : Nat) (pec : Bool), Inv s → s.power.pmb = some (addr, cmd, true, len) → len ≤ 2 →
    ∃ t, exec (.pmbDone true pec data) s = .next t ∧ t.power = { s.power with pmb := none } ∧ t.fld .aon F.AON_PMB_STAT_STATE = 2
      ∧ t.fld .aon F.AON_PMB_STAT_PEC_ERR = 0 ∧ t.fld .aon F.AON_PMB_DATA_DATA = data % 256 ^ len
      ∧ bit 5 (t.rw (Page.aon.key 0x010)) = true ∧ OnlyChanges s t [.regs, .out, .power, .msiPending])
  ∧ (∀ (s : State) (addr cmd len data : Nat) (read pec : Bool), Inv s → s.power.pmb = some (addr, cmd, read, len) →
    ∃ t, exec (.pmbDone false pec data) s = .next t ∧ t.power = { s.power with pmb := none } ∧ t.fld .aon F.AON_PMB_STAT_STATE = 3
      ∧ t.fld .aon F.AON_PMB_STAT_PEC_ERR = b2n pec ∧ t.fld .aon F.AON_PMB_DATA_DATA = s.fld .aon F.AON_PMB_DATA_DATA
      ∧ OnlyChanges s t [.regs, .out, .power, .msiPending])

/-- R436 to R445, R447 to R462: a requested survey starts or is refused with its reason; the plan of a survey gives every island that is not reduced a
voltage and a frequency that its required voltage meets, rises come first and falls last, and no step starts in HOLDUP; margin alarms, powered hours
and deferred surveys. UPD_CMD is checked in the stated order and its end has the effect of its row; sessions time out; a trial is confirmed or given
up; microcode is replaced target by target. Where a clause takes a reading of the model: log entries 36 to 41. -/
def Obligations.AgeingAndUpdate : Prop :=
  (∀ (s : State) (w : RegWr), Inv s → s.arrives w .age = true → w.off % 0x1000 = 0x040 → w.req = ⟨0x41, true⟩ → bit 0 w.val.toNat = true →
      10 ≤ bits 15 8 w.val.toNat → bits 15 8 w.val.toNat ≤ 50 → s.awake = true → s.age.survey = none → s.age.applying = false →
      s.fld .pwr F.PWR_STAT_HOLD_READY = 1 →
    ∃ t, exec (.ageSurveyRequest w) s = .next t ∧ t.age = { s.age with survey := some 3 } ∧ t.fld .age F.AGE_BS_SURVEYING = 1
      ∧ t.fld .age F.AGE_CTRL_GUARD_MV = bits 15 8 w.val.toNat ∧ t.flag .age F.AGE_CTRL_AUTO = bit 1 w.val.toNat)
  ∧ (∀ (s : State) (w : RegWr) (c : Nat), Inv s → s.arrives w .age = true → w.off % 0x1000 = 0x040 → w.req = ⟨0x41, true⟩ →
      bit 0 w.val.toNat = true → bits 15 8 w.val.toNat = 15 → s.awake = true → s.age.survey = some c →
    ∃ t, exec (.ageSurveyRequest w) s = .next t ∧ t.age = s.age ∧ Records s t .age 0x1201 2)
  ∧ (∀ (s : State) (tj : Int) (m : List (Int × Nat)) (c : Nat), Inv s → s.age.survey = some c → c < 8 → c ≠ 1 →
    ∃ t, exec (.surveyEnd tj m) s = .next t ∧ t.age.survey = none ∧ t.age.applying = true ∧ t.age.mvNow = s.age.mvNow ∧ t.age.mhzNow = s.age.mhzNow
      ∧ t.age.ledger = s.age.ledger ∧ (∃ r, t.age.record = some r ∧ r.cause = c ∧ r.hours = s.age.hours ∧ r.number = t.age.surveys ∧ r.tj = tj)
      ∧ (∀ i ∈ s.surveyed, t.islandCap i = none → s.vreqOf i (t.mhzPlan i) (m.getD i (0, 0)).1 tj ≤ t.mvPlan (islandGroup i))
      ∧ (∀ g < 9, (groupRange g).1 ≤ t.mvPlan g ∧ (s.flag .age F.AGE_CTRL_AUTO = false → s.mvPlan g ≤ t.mvPlan g + 10))
      ∧ t.fld .age F.AGE_STAT_LAST_CAUSE = c ∧ t.fld .age F.AGE_STAT_SURVEYS = min (s.fld .age F.AGE_STAT_SURVEYS + 1) 0xFFFF
      ∧ bit 0 (t.rw (Page.age.key 0x010)) = true ∧ OnlyChanges s t [.regs, .out, .age, .faults, .msiPending])
  ∧ (∀ (s : State) (g : Nat), Inv s → s.age.applying = true → s.power.state ≠ .holdup → g < 9 → s.mvNow g < s.mvPlan g →
      (∀ h < g, s.mvPlan h ≤ s.mvNow h) →
    ∃ t, exec .planVoltageStep s = .next t ∧ t.mvNow g = min (s.mvPlan g) (s.mvNow g + 5) ∧ SameEntriesBut s.age.mvNow t.age.mvNow [g]
      ∧ t.age.mvPlan = s.age.mvPlan ∧ t.age.mhzNow = s.age.mhzNow ∧ OnlyChanges s t [.age])
  ∧ (∀ (s : State) (i : Nat), Inv s → s.age.applying = true → s.power.state ≠ .holdup → (∀ h < 9, s.mvPlan h ≤ s.mvNow h) → i < 46 →
      s.mhzNow i ≠ s.mhzPlan i → (∀ k < i, s.mhzNow k = s.mhzPlan k) → (s.mayLower = true ∨ s.mhzPlan i < s.mhzNow i) →
    ∃ t, exec .planVoltageStep s = .next t ∧ t.mhzNow i = s.mhzPlan i ∧ SameEntriesBut s.age.mhzNow t.age.mhzNow [i]
      ∧ t.age.mvNow = s.age.mvNow ∧ OnlyChanges s t [.age])
  ∧ (∀ (s : State) (g : Nat), Inv s → s.age.applying = true → s.power.state ≠ .holdup → s.mayLower = true → g < 9 →
      (∀ h < 9, s.mvPlan h ≤ s.mvNow h) → (∀ i < 46, s.mhzNow i = s.mhzPlan i) → s.mvPlan g < s.mvNow g → (∀ h < g, s.mvNow h = s.mvPlan h) →
    ∃ t, exec .planVoltageStep s = .next t ∧ t.mvNow g = max (s.mvPlan g) (s.mvNow g - 5) ∧ SameEntriesBut s.age.mvNow t.age.mvNow [g]
      ∧ OnlyChanges s t [.age])
  ∧ (∀ (s : State), Inv s → s.age.applying = true → s.power.state ≠ .holdup → (∀ g < 9, s.mvNow g = s.mvPlan g) →
      (∀ i < 46, s.mhzNow i = s.mhzPlan i) →
    ∃ t, exec .planVoltageStep s = .next t
      ∧ t.age = { s.age with
          applying := false, changed := false, record := none
          ledger := match s.age.record with
            | some r => (if 2048 ≤ s.age.ledger.length then s.age.ledger.eraseIdx 16 else s.age.ledger) ++ [r]
            | none => s.age.ledger }
      ∧ t.fld .age F.AGE_BS_APPLYING = 0
      ∧ (s.age.changed = true → bit 1 (t.rw (Page.age.key 0x010)) = true) ∧ OnlyChanges s t [.regs, .out, .age, .msiPending])
  ∧ (∀ (s : State), s.power.state = .holdup → exec .planVoltageStep s = .next s)
  ∧ (∀ (s : State) (i g : Nat), Inv s → i < 46 → s.islandPowered i = true → islandGroup i = g → s.mvPlan g + 10 ≤ (groupRange g).2 →
      s.awake = true → s.age.survey = none →
    ∃ t, exec (.marginAlarm i) s = .next t ∧ t.age.survey = some 4 ∧ t.age.applying = true
      ∧ t.age.mvPlan = Sparse.put s.age.mvPlan g (s.mvPlan g + 10) ∧ t.age.mvNow = s.age.mvNow ∧ bit 4 (t.rw (Page.age.key 0x010)) = true
      ∧ OnlyChanges s t [.regs, .out, .age, .msiPending])
  ∧ (∀ (s : State) (i g : Nat), Inv s → i < 46 → s.islandPowered i = true → islandGroup i = g → s.mvPlan g = (groupRange g).2 →
      s.mvNow g = (groupRange g).2 → s.awake = true → s.age.survey = none →
    ∃ t, exec (.marginAlarm i) s = .next t ∧ t.age = { s.age with survey := some 4 } ∧ bit 4 (t.rw (Page.age.key 0x010)) = true
      ∧ t.fld .sys F.SYS_FAULT_CNT_CONTAINED = min (s.fld .sys F.SYS_FAULT_CNT_CONTAINED + 1) 0xFFFF)
  ∧ (∀ (s : State), Inv s → s.awake = true →
    ∃ t, exec .poweredHour s = .next t ∧ t.age.hours = s.age.hours + 1
      ∧ ((s.age.hours + 1) % 500 = 0 → s.age.survey = none → t.age.survey = some 2)
      ∧ ((s.age.hours + 1) % 500 ≠ 0 → t.age = { s.age with hours := s.age.hours + 1 }) ∧ OnlyChanges s t [.regs, .age])
  ∧ (∀ (s : State) (c : Nat), Inv s → s.age.waiting = some c → s.power.state = .run → s.age.survey = none →
    ∃ t, exec .surveyDeferEnd s = .next t ∧ t.age = { s.age with survey := some c, waiting := none } ∧ OnlyChanges s t [.regs, .age])
  ∧ (∀ (s : State) (i : Instr) (w : RegWr) (op : Nat), Inv s → (i, op) ∈ [(.updOpen w, 1), (.updStage w, 2), (.updVerify w, 3), (.updActivate w, 4),
        (.updAbort w, 5), (.updClose w, 6)] → s.arrives w .upd = true → w.off % 0x1000 = 0x040 → s.secretPage (accOf w .upd) = false →
      bits 3 0 w.val.toNat = op → s.update.running = none →
      s.updCheck op w.req.fn w.req.secure (bits 6 4 w.val.toNat) (bits 9 8 w.val.toNat) = (0, 0) →
    ∃ t, exec i s = .next t
      ∧ t.update = { s.update with running := some ⟨op, w.req.fn, w.req.secure, bits 6 4 w.val.toNat, bits 9 8 w.val.toNat, 0,
          (s.fld .upd F.UPD_ARG0_VALUE, s.fld .upd F.UPD_ARG1_VALUE, s.fld .upd F.UPD_ARG2_VALUE)⟩ }
      ∧ t.fld .upd F.UPD_STAT_BUSY = 1 ∧ OnlyChanges s t [.regs, .update])
  ∧ (∀ (s : State) (w : RegWr) (r : UpdRun), Inv s → s.arrives w .upd = true → w.off % 0x1000 = 0x040 → s.secretPage (accOf w .upd) = false →
      bits 3 0 w.val.toNat = 1 → s.update.running = some r →
    ∃ t, exec (.updOpen w) s = .next t ∧ t.update = s.update ∧ Records s t .upd 0x0009 (accOf w .upd).info ∧ OnlyChanges s t [.regs, .out, .msiPending])
  ∧ (∀ (s : State) (w : RegWr) (code : Nat), Inv s → s.arrives w .upd = true → w.off % 0x1000 = 0x040 → s.secretPage (accOf w .upd) = false →
      bits 3 0 w.val.toNat = 1 → s.update.running = none → s.update.state = 0 → s.flag .upd F.PG_CTRL_ENABLE = true →
      bits 6 4 w.val.toNat ∈ [1, 2, 3, 4] → w.req = ⟨0x40, false⟩ →
      code = (if s.fld .upd F.UPD_LOCK_LOCK = 1 then 0x0503
        else if s.fld .pwr F.PWR_STAT_HOLD_READY = 0 ∨ s.fld .aon F.AON_VHOLD_MV < 4850 then 0x0502
        else if s.fld .upd F.UPD_CFG_MOTION_EN = 1 ∧ s.update.motion = s.flag .upd F.UPD_CFG_MOTION_HIGH then 0x0501 else 0) → code ≠ 0 →
    ∃ t, exec (.updOpen w) s = .next t ∧ Records s t .upd code 0
      ∧ t.update = { s.update with running := some ⟨1, 0x40, false, bits 6 4 w.val.toNat, bits 9 8 w.val.toNat, code,
          (s.fld .upd F.UPD_ARG0_VALUE, s.fld .upd F.UPD_ARG1_VALUE, s.fld .upd F.UPD_ARG2_VALUE)⟩ })
  ∧ (∀ (s : State) (g secure : Bool) (fn kind w : Nat) (args : Nat × Nat × Nat), Inv s → s.update.running = some ⟨1, fn, secure, kind, w, 0, args⟩ → kind ∈ [1, 2, 3, 4] → fn < 256 →
    ∃ t, exec (.updCmdDone g) s = .next t ∧ t.update.state = 1 ∧ t.update.holder = fn ∧ t.update.kind = kind ∧ t.update.staged = 0
      ∧ (kind ≠ 4 → (s.boot.entry kind).confirmed ≤ 1 → t.update.target ≠ (s.boot.entry kind).confirmed) ∧ t.update.running = none
      ∧ t.fld .upd F.UPD_STAT_CODE = 0 ∧ t.fld .upd F.UPD_STAT_BUSY = 0 ∧ t.fld .upd F.UPD_STAT_STATE = 1 ∧ t.fld .upd F.UPD_STAT_HOLDER = fn
      ∧ bit 0 (t.rw (Page.upd.key 0x010)) = true ∧ OnlyChanges s t [.regs, .out, .update, .msiPending])
  ∧ (∀ (s u : State) (g secure : Bool) (fn kind w buf off len : Nat) (ws : List Nat), Inv s →
      s.update.running = some ⟨2, fn, secure, kind, w, 0, (buf, off, len)⟩ → s.update.state = 1 →
      State.readBuf { s with update := { s.update with running := none } } ⟨fn, secure, s.fnCrit fn, 8, false, false⟩
        buf 0 ((len + 15) / 16) = (.ok ws, u) →
    ∃ t, exec (.updCmdDone g) s = .next t ∧ t.update.state = 1 ∧ t.update.running = none ∧ t.update.staged = s.update.staged + len
      ∧ t.fld .upd F.UPD_STAT_CODE = 0
      ∧ (∀ j < len, j < 16 * ws.length →
          t.flashByte ((flashPlace s.update.kind s.update.target).1 + s.update.staged + j) = (ws.getD (j / 16) 0) / 256 ^ (j % 16) % 256)
      ∧ t.update.copy0 = s.update.copy0 ∧ t.update.copy1 = s.update.copy1)
  ∧ (∀ (s : State) (g secure : Bool) (fn kind w : Nat) (args : Nat × Nat × Nat), Inv s → s.update.running = some ⟨3, fn, secure, kind, w, 0, args⟩ → s.update.state = 1 →
    ∃ t, exec (.updCmdDone g) s = .next t ∧ t.update.flash = s.update.flash
      ∧ (s.imageFault s.update.kind s.update.target s.update.staged g = none → t.update.state = 2 ∧ t.fld .upd F.UPD_STAT_CODE = 0)
      ∧ (∀ c, s.imageFault s.update.kind s.update.target s.update.staged g = some c →
          t.update.state = 1 ∧ t.fld .upd F.UPD_STAT_CODE = c ∧ (s.fld .upd F.ERR_CODE_CODE = 0 → t.fld .upd F.ERR_CODE_CODE = c))
      ∧ OnlyChanges s t [.regs, .out, .update, .msiPending])
  ∧ (∀ (s : State) (g secure : Bool) (fn kind k w : Nat) (args : Nat × Nat × Nat), Inv s →
      s.update.running = some ⟨4, fn, secure, kind, w, 0, args⟩ → s.update.kind = k → k ∈ [1, 2, 3] → w ∈ [1, 2] →
      s.update.copy0.crcOk = true → s.update.copy1.crcOk = true → s.update.copy0.seq < s.update.copy1.seq → s.update.copy1.seq < 2 ^ 32 - 1 →
    ∃ t, exec (.updCmdDone g) s = .next t ∧ t.update.state = 3 ∧ t.update.copy1 = s.update.copy1 ∧ t.update.copy0.seq = s.update.copy1.seq + 1
      ∧ t.boot.entry k = ⟨(s.boot.entry k).confirmed, some s.update.target, 2⟩ ∧ t.boot.when_ = w
      ∧ (∀ j ∈ [1, 2, 3], j ≠ k → t.boot.entry j = s.boot.entry j) ∧ OnlyChanges s t [.regs, .out, .update, .msiPending])
  ∧ (∀ (s : State) (g secure : Bool) (fn kind k : Nat) (args : Nat × Nat × Nat), Inv s →
      s.update.running = some ⟨4, fn, secure, kind, 3, 0, args⟩ → s.update.kind = k → k ∈ [1, 3] →
      s.update.copy0.crcOk = true → s.update.copy1.crcOk = true → s.update.copy0.seq < s.update.copy1.seq → s.update.copy1.seq < 2 ^ 32 - 1 →
    ∃ t, exec (.updCmdDone g) s = .next t ∧ t.faults.inReset = true ∧ t.faults.cause = 8
      ∧ t.boot.entry k = ⟨(s.boot.entry k).confirmed, some s.update.target, 2⟩ ∧ t.boot.when_ = 3)
  ∧ (∀ (s : State) (g secure : Bool) (fn kind : Nat) (args : Nat × Nat × Nat), Inv s →
      s.update.running = some ⟨4, fn, secure, kind, 3, 0, args⟩ → s.update.kind = 2 →
    ∃ t, exec (.updCmdDone g) s = .next t ∧ t.update = { s.update with running := none, state := 4, micro := microTargets }
      ∧ t.fld .upd F.UPD_STAT_STATE = 4 ∧ OnlyChanges s t [.regs, .out, .update, .msiPending])
  ∧ (∀ (s : State) (g secure : Bool) (fn kind op w : Nat) (args : Nat × Nat × Nat), Inv s →
      s.update.running = some ⟨op, fn, secure, kind, w, 0, args⟩ → op = 5 ∧ s.update.state ∈ [1, 2] ∨ op = 6 ∧ s.update.state ∈ [1, 2, 3] →
    ∃ t, exec (.updCmdDone g) s = .next t
      ∧ t.update = { s.update with running := none, state := 0, holder := 0, staged := 0, loading := false } ∧ t.fld .upd F.UPD_STAT_STATE = 0
      ∧ OnlyChanges s t [.regs, .out, .update, .msiPending])
  ∧ (∀ (s : State) (g secure : Bool) (fn kind k w : Nat) (args : Nat × Nat × Nat), Inv s →
      s.update.running = some ⟨5, fn, secure, kind, w, 0, args⟩ → s.update.state = 3 → s.update.kind = k → k ∈ [1, 2, 3] →
      s.update.copy0.crcOk = true → s.update.copy1.crcOk = true → s.update.copy0.seq < s.update.copy1.seq → s.update.copy1.seq < 2 ^ 32 - 1 →
    ∃ t, exec (.updCmdDone g) s = .next t ∧ t.update.state = 0 ∧ t.update.running = none
      ∧ t.boot.entry k = ⟨(s.boot.entry k).confirmed, none, 0⟩ ∧ OnlyChanges s t [.regs, .out, .update, .msiPending])
  ∧ (∀ (s : State), Inv s → s.update.running = none → s.update.state ∈ [1, 2, 3] →
    ∃ t, exec .updSessionTimeout s = .next t ∧ t.update = { s.update with state := 0, holder := 0, staged := 0, loading := false }
      ∧ t.fld .upd F.UPD_STAT_CODE = 0x0007 ∧ bit 3 (t.rw (Page.upd.key 0x010)) = true ∧ OnlyChanges s t [.regs, .out, .update, .msiPending])
  ∧ (∀ (s : State) (w : RegWr), Inv s → s.arrives w .upd = true → w.off % 0x1000 = 0x05C → w.req.secure = true → bit 1 w.val.toNat = true →
    ∃ t, exec (.updUnlock w) s = .next t ∧ t.fld .upd F.UPD_LOCK_LOCK = 0 ∧ OnlyChanges s t [.regs])
  ∧ (∀ (s : State) (k loc : Nat), Inv s → s.update.trials = [k] → k ∈ [1, 2, 3] → s.ready = true → s.paired = false → s.faults.fatal = none →
      s.now ≤ s.faults.releasedAt + 60000000000 → (s.boot.entry k).trial = some loc → s.update.copy0.crcOk = true → s.update.copy1.crcOk = true →
      s.update.copy0.seq < s.update.copy1.seq → s.update.copy1.seq < 2 ^ 32 - 1 →
    ∃ t, exec .trialConfirmed s = .next t ∧ t.update.trials = [] ∧ t.boot.entry k = ⟨loc, none, 0⟩ ∧ t.boot.when_ = 0
      ∧ (s.fld .upd F.UPD_CFG_DEFER_FUSE = 0 → s.supplyOk = true → t.fuse k = max (s.fuse k) (s.imageSvn k loc))
      ∧ (s.fld .upd F.UPD_CFG_DEFER_FUSE = 1 → t.fuse k = s.fuse k) ∧ bit 2 (t.rw (Page.upd.key 0x010)) = true)
  ∧ (∀ (s : State), Inv s → s.update.trials ≠ [] →
    ∃ t, exec .trialTimeout s = .next t ∧ t.faults.inReset = true ∧ t.faults.cause = 8 ∧ t.update.reason = 2 ∧ t.update.flash = s.update.flash
      ∧ (∀ k ∈ s.update.trials, k ∈ t.update.begun))
  ∧ (∀ (s : State) (x r : Nat) (rest : List Nat), Inv s → s.update.state = 4 → s.update.micro = x :: r :: rest → x < 10 → s.targetReady x = true →
      (s.update.loading = true ∨ s.updRefusal (s.update.holder == 0x41) = none) →
    ∃ t, exec (.microcodeTargetLoad true) s = .next t ∧ t.update = { s.update with micro := r :: rest, loading := false }
      ∧ OnlyChanges s t [.update])
  ∧ (∀ (s : State) (x : Nat) (rest : List Nat) (g : Bool), Inv s → s.update.state = 4 → s.update.micro = x :: rest → x < 10 →
      s.targetReady x = false → (s.update.loading = true ∨ s.updRefusal (s.update.holder == 0x41) = none) →
    ∃ t, exec (.microcodeTargetLoad g) s = .next t ∧ t.update = { s.update with loading := true } ∧ OnlyChanges s t [.update])
  ∧ (∀ (s : State) (x : Nat) (rest : List Nat), Inv s → s.update.state = 4 → s.update.micro = x :: rest → x < 10 → s.targetReady x = true →
      (s.update.loading = true ∨ s.updRefusal (s.update.holder == 0x41) = none) → s.update.copy0.crcOk = true → s.update.copy1.crcOk = true →
      s.update.copy0.seq < s.update.copy1.seq → s.update.copy1.seq < 2 ^ 32 - 1 →
    ∃ t, exec (.microcodeTargetLoad false) s = .next t ∧ t.update.state = 0 ∧ t.update.micro = [] ∧ t.update.journal.1 = 5 ∧ t.update.journal.2.1 = 2
      ∧ t.boot.entry 2 = ⟨(s.boot.entry 2).confirmed, none, 0⟩ ∧ bit 1 (t.rw (Page.upd.key 0x010)) = true)

/-- R431, R438, R463 to R466, R468, R470 to R475, R489: the scopes of the resets, the phases of a start and its failing paths, the end of an early
image; what a report of each class does, a repeat within 1 ms, device-fatal faults with their restart or halt, THERMTRIP_N and the log's CLEAR.
Where a clause takes a reading of the model: log entries 34 to 36, 42 to 45, 91, 93 and 106. -/
def Obligations.StartAndFaults : Prop :=
  (∀ (s : State), Inv s →
    ∃ t, exec .aonPowerOn s = .next t ∧ t.faults.inReset = true ∧ t.faults.cause = 1 ∧ t.time.dtime = 0 ∧ t.time.ticks = 0
      ∧ t.fld .tim F.TIM_EPOCH_EPOCH = (s.fld .tim F.TIM_EPOCH_EPOCH + 1) % 65536 ∧ bit 2 (t.rw (Page.tim.key 0x010)) = true
      ∧ (∀ k, k ∉ [Page.tim.key 0x010, Page.tim.key F.TIM_EPOCH_EPOCH.off] → t.rw k = (resetWord s.part k).toNat)
      ∧ t.update.flash = s.update.flash ∧ t.update.copy0 = s.update.copy0 ∧ t.update.copy1 = s.update.copy1 ∧ t.update.fuses = s.update.fuses
      ∧ t.age.ledger = s.age.ledger ∧ t.power.slotA = s.power.slotA ∧ t.power.slotB = s.power.slotB ∧ t.faults.tail = s.faults.tail
      ∧ t.pool = Pool.reset ∧ t.hosts.jobs = [] ∧ t.pair.guyOut = false)
  ∧ (∀ (s : State), Inv s → s.power.state ≠ .stopped →
    ∃ t, exec .resetNAssert s = .next t ∧ t.faults.inReset = true ∧ t.faults.cause = 2 ∧ t.faults.thermtrip = false ∧ t.power.state = .run
      ∧ t.time.ticks = s.time.ticks ∧ t.power.saveList = s.power.saveList ∧ t.power.sram = s.power.sram ∧ t.update.flash = s.update.flash
      ∧ t.age.ledger = s.age.ledger ∧ t.pool = Pool.reset ∧ t.display = Display.reset ∧ t.hosts.jobs = []
      ∧ (∀ k, State.keyPage k ≠ Page.aon.base → k ≠ Page.tim.key F.TIM_EPOCH_EPOCH.off → t.rw k = (resetWord s.part k).toNat)
      ∧ (∀ k, State.keyPage k = Page.aon.base → t.rw k = s.rw k))
  ∧ (∀ (s : State) (w : RegWr), Inv s → s.arrives w .sys = true → w.off % 0x1000 = F.SYS_RESET_RESTART.off →
      s.grants (accOf w .sys) F.SYS_RESET_RESTART = true →
    ∃ t, exec (.sysRestart w) s = .next t ∧ t.faults.inReset = true ∧ t.faults.cause = 4 ∧ t.power.state = .run ∧ t.update.flash = s.update.flash
      ∧ t.pool = Pool.reset ∧ (∀ k, State.keyPage k = Page.aon.base → t.rw k = s.rw k))
  ∧ (∀ (s : State), Inv s → s.faults.inReset = true → s.power.state = .run → s.faults.cause < 16 → s.fld .sys F.SYS_STAT_PHASE ≠ 8 →
    ∃ t, exec .resetRelease s = .next t ∧ t.faults.inReset = false ∧ t.faults.recovery = false ∧ t.faults.releasedAt = s.now
      ∧ t.fld .sys F.SYS_STAT_RESET_CAUSE = s.faults.cause ∧ t.fld .sys F.SYS_BS_PHASE = 1
      ∧ (∃ e, t.faults.log.getLast? = some e ∧ e.cls = 0 ∧ e.source = Page.sys.source ∧ e.info = s.faults.cause ∧ e.dtime = s.deviceTime)
      ∧ OnlyChanges s t [.regs, .out, .faults, .msiPending])
  ∧ (∀ (s : State) (l : StartLoad), Inv s → s.faults.inReset = false → s.faults.recovery = false → s.faults.fatal = none → s.power.state = .run →
      s.fld .sys F.SYS_STAT_PHASE = 1 →
    ∃ t, exec (.startupPhaseEnd l) s = .next t ∧ t.fld .sys F.SYS_STAT_PHASE = 2 ∧ t.fld .sys F.SYS_BS_PHASE = 2
      ∧ (∃ e, t.faults.log.getLast? = some e ∧ e.cls = 0 ∧ e.info = 2) ∧ OnlyChanges s t [.regs, .out, .faults, .msiPending])
  ∧ (∀ (s : State) (l : StartLoad), Inv s → s.faults.inReset = false → s.faults.recovery = false → s.faults.fatal = none → s.power.state = .run →
      s.fld .sys F.SYS_STAT_PHASE = 2 → (s.boot.entry 1).trial = none → s.update.begun.contains 1 = false →
      bit (s.boot.entry 1).confirmed l.slots = false → bit (1 - (s.boot.entry 1).confirmed) l.slots = false →
    ∃ t, exec (.startupPhaseEnd l) s = .next t ∧ t.faults.recovery = true ∧ t.pair.guyOut = false ∧ t.fld .sys F.SYS_STAT_PHASE = 2
      ∧ OnlyChanges s t [.faults, .pair])
  ∧ (∀ (s : State) (l : StartLoad) (k h : Nat), Inv s → s.faults.inReset = false → s.faults.recovery = false → s.faults.fatal = none →
      s.power.state = .run → s.fld .sys F.SYS_STAT_PHASE = 2 → (∀ i ∈ [1, 2, 3], (s.boot.entry i).trial = none) →
      s.update.begun = [] → s.update.burn = [] → k = (s.boot.entry 1).confirmed → k ≤ 1 → bit k l.slots = true →
      h = (s.boot.entry 2).confirmed → h ≤ 1 → bit h l.halves = true →
    ∃ t, exec (.startupPhaseEnd l) s = .next t ∧ t.fld .sys F.SYS_STAT_PHASE = 3 ∧ t.fld .sys F.SYS_BS_PHASE = 3
      ∧ t.fld .upd F.UPD_RUN_VER_VERSION = State.part2 l.slotVers k % 2 ^ 32 ∧ t.fld .upd F.UPD_MC_VER_VERSION = State.part2 l.mcVers h % 2 ^ 32
      ∧ t.fld .own F.OWN_KEY_FUSED = b2n l.keyFused ∧ t.worlds.gateTable = l.gates
      ∧ (State.readable l k (s.boot.entry 3).confirmed = true → t.faults.settings = State.part2 l.copies (s.boot.entry 3).confirmed)
      ∧ (∀ p, l.applet = some p → (l.keyFused = true ∧ p.1 = true ∧ p.2 ≤ 524288 →
          t.fld .own F.OWN_APPLET_RUNNING = 1 ∧ t.fld .own F.OWN_APPLET_SIZE_KIB = (p.2 + 1023) / 1024)
        ∧ (l.keyFused = false → t.fld .own F.OWN_APPLET_REJECT = 3) ∧ (l.keyFused = true → p.1 = false → t.fld .own F.OWN_APPLET_REJECT = 1)
        ∧ (l.keyFused = true → p.1 = true → 524288 < p.2 → t.fld .own F.OWN_APPLET_REJECT = 2))
      ∧ OnlyChanges s t [.regs, .loaded, .out, .faults, .update, .power, .worlds, .msiPending])
  ∧ (∀ (s : State) (l : StartLoad) (k : Nat), Inv s → s.faults.inReset = false → s.faults.recovery = false → s.faults.fatal = none →
      s.power.state = .run → s.fld .sys F.SYS_STAT_PHASE = 2 → (s.boot.entry 1).trial = none → s.update.begun = [] →
      k = (s.boot.entry 1).confirmed → k ≤ 1 → bit k l.slots = false → bit (1 - k) l.slots = true →
      (∀ i ∈ [2, 3], (s.boot.entry i).trial = none) → s.update.burn = [] →
    ∃ t, exec (.startupPhaseEnd l) s = .next t ∧ t.fld .sys F.SYS_STAT_PHASE = 3
      ∧ t.fld .upd F.UPD_RUN_VER_VERSION = State.part2 l.slotVers (1 - k) % 2 ^ 32)
  ∧ (∀ (s : State) (l : StartLoad) (n : Nat), Inv s → s.faults.inReset = false → s.faults.recovery = false → s.faults.fatal = none →
      s.power.state = .run → s.fld .sys F.SYS_STAT_PHASE = 3 → n < s.channels →
      (State.cfgSupported (s.startCfg l) = false ∨ l.modes.getD n none ≠ some (bits 1 0 (s.startCfg l), bits 2 2 (s.startCfg l))) →
      (∀ i < n, State.cfgSupported (s.startCfg l) = true ∧ l.modes.getD i none = some (bits 1 0 (s.startCfg l), bits 2 2 (s.startCfg l))) →
    ∃ t, exec (.startupPhaseEnd l) s = .next t ∧ t.fld .sys F.SYS_STAT_PHASE = 8 ∧ bit 5 (t.rw (Page.sys.key 0x010)) = true
      ∧ (s.fld (.dmc n) F.ERR_CODE_CODE = 0 → t.fld (.dmc n) F.ERR_CODE_CODE = 0x0C02
        ∧ t.fld (.dmc n) F.ERR_INFO_INFO = n + b2n (l.modes.getD n none).isSome * 2 ^ 8)
      ∧ t.faults.log = t.faults.tail ∧ t.faults.log.length ≤ 256 ∧ (∃ e, t.faults.log.getLast? = some e ∧ e.cls = 0 ∧ e.info = 8)
      ∧ OnlyChanges s t [.regs, .loaded, .out, .faults, .msiPending])
  ∧ (∀ (s : State) (l : StartLoad), Inv s → s.faults.inReset = false → s.faults.recovery = false → s.faults.fatal = none →
      s.power.state = .run → s.fld .sys F.SYS_STAT_PHASE = 3 → s.savedImage = none → s.faults.tail.length ≤ 256 →
      s.faults.tail.length + s.faults.log.length < 4096 →
      State.cfgSupported (s.startCfg l) = true → (∀ i < s.channels, l.modes.getD i none = some (bits 1 0 (s.startCfg l), bits 2 2 (s.startCfg l))) →
    ∃ t, exec (.startupPhaseEnd l) s = .next t ∧ t.fld .sys F.SYS_STAT_PHASE = 4 ∧ t.fld .sys F.SYS_BS_PHASE = 4
      ∧ (∀ i < s.channels, t.fld (.dmc i) F.DMC_STAT_INIT = 1) ∧ t.time.captured = false
      ∧ (s.time.captured = true → t.time.dtime = (s.time.dtimeE + (s.time.ticks - s.time.tickE) * s.time.calE / 65536) % 2 ^ 64
        ∧ bit 0 (t.rw (Page.tim.key 0x010)) = true)
      ∧ (s.age.survey = none → t.age.survey = some 1)
      ∧ t.faults.log.dropLast = (s.faults.tail.map fun x => { x with prev := true }) ++ s.faults.log
      ∧ (∃ e, t.faults.log.getLast? = some e ∧ e.cls = 0 ∧ e.info = 4)
      ∧ OnlyChanges s t [.regs, .loaded, .out, .faults, .dram, .time, .age, .msiPending])
  ∧ (∀ (s : State) (l : StartLoad), Inv s → s.faults.inReset = false → s.faults.recovery = false → s.faults.fatal = none → s.power.state = .run →
      s.fld .sys F.SYS_STAT_PHASE = 4 → (∀ c, s.faults.settings = some c → c.plan = none ∧ c.pair = none ∧ c.pool = none) →
      s.fld .wld F.WLD_WMARK_HI_WMARK_HI = 0 →
    ∃ t, exec (.startupPhaseEnd l) s = .next t ∧ t.fld .sys F.SYS_STAT_PHASE = 5 ∧ t.fld .sys F.SYS_STAT_DEFAULT_PLAN = 1 ∧ t.pair.state = .solo
      ∧ t.watermark = 0x0400_0000 ∧ bit 0 (t.rw (Page.sys.key 0x010)) = true ∧ t.fld .wld F.WLD_WMARK_HI_SET = 1)
  ∧ (∀ (s : State) (l : StartLoad) (c : Settings) (p : OwnPlan), Inv s → s.faults.inReset = false → s.faults.recovery = false → s.faults.fatal = none →
      s.power.state = .run → s.fld .sys F.SYS_STAT_PHASE = 4 → s.faults.settings = some c → c.plan = some p → p.owners = [] →
      c.pair = none → c.pool = none →
    ∃ t, exec (.startupPhaseEnd l) s = .next t ∧ t.fld .sys F.SYS_STAT_PHASE = 5 ∧ t.fld .sys F.SYS_STAT_DEFAULT_PLAN = s.fld .sys F.SYS_STAT_DEFAULT_PLAN
      ∧ t.fld .wld F.WLD_WMARK_LO_WMARK_LO = bits 31 21 p.wmarkLo ∧ t.fld .wld F.WLD_WMARK_HI_SET = 1
      ∧ t.fld .own F.OWN_TABLE_LO_BASE_LO = bits F.OWN_TABLE_LO_BASE_LO.hi F.OWN_TABLE_LO_BASE_LO.lo p.tableLo
      ∧ (∀ f x, (f, x) ∈ p.crits → (∀ y ∈ p.crits, y.1 = f → y = (f, x)) → f < 0x40 → t.fnCrit f = x % 4) ∧ t.pair.state = .solo)
  ∧ (∀ (s : State) (l : StartLoad) (p : Nat), Inv s → s.faults.inReset = false → s.faults.recovery = false → s.faults.fatal = none →
      s.power.state = .run → s.fld .sys F.SYS_STAT_PHASE = p → p ∈ [5, 6] → (p = 5 → s.age.survey ≠ some 1) → (p = 6 → s.age.applying = false) → s.update.burn = [] →
    ∃ t, exec (.startupPhaseEnd l) s = .next t ∧ t.fld .sys F.SYS_STAT_PHASE = p + 1
      ∧ (p = 6 → bit 1 (t.rw (Page.sys.key 0x010)) = true
        ∧ t.fld .sys F.SYS_BOOT_TIME_FULL_MS = min 0xFFFF ((s.now - s.faults.releasedAt) / 1000000)))
  ∧ (∀ (s : State) (l : StartLoad), (s.fld .sys F.SYS_STAT_PHASE = 5 ∧ s.age.survey = some 1) ∨ (s.fld .sys F.SYS_STAT_PHASE = 6 ∧ s.age.applying = true)
      ∨ s.faults.inReset = true ∨ s.faults.recovery = true ∨ s.faults.fatal ≠ none ∨ s.power.state ≠ .run ∨ 7 ≤ s.fld .sys F.SYS_STAT_PHASE →
    exec (.startupPhaseEnd l) s = .next s)
  ∧ (∀ (s : State) (w : RegWr) (n : Nat) (e : Early), Inv s → s.arrives w .sys = true → w.off % 0x1000 = F.SYS_EARLY_END.off →
      (w.req.secure = true ∨ (w.req.fn = s.manager ∧ s.secretPage (accOf w .sys) = false)) → n < 8 → bit (8 + n) w.val.toNat = true → Sparse.find s.faults.early n = some e → e.slot < 16 →
    ∃ t, exec (.sysEarlyEnd w) s = .next t ∧ Sparse.find t.faults.early n = none ∧ bit n (t.fld .sys F.SYS_EARLY_ACTIVE) = false
      ∧ t.fld (.slot n e.slot) F.PG_CTRL_ENABLE = 0 ∧ bit 4 (t.rw (Page.sys.key 0x010)) = true
      ∧ t.rw ((Page.slot n e.slot).key 0x02C) = State.ownerBits e.endOwner)
  ∧ (∀ (s : State) (w : RegWr), Inv s → s.arrives w .sys = true → w.off % 0x1000 = F.SYS_EARLY_END.off →
      (w.req.secure = true ∨ (w.req.fn = s.manager ∧ s.secretPage (accOf w .sys) = false)) → (∀ n < 8, bit (8 + n) w.val.toNat = true → Sparse.find s.faults.early n = none) →
    exec (.sysEarlyEnd w) s = .next s)
  ∧ (∀ (s : State) (w : RegWr), Inv s → s.arrives w .sys = true → w.off % 0x1000 = F.SYS_EARLY_END.off → w.req.secure = false →
      (w.req.fn = s.manager → s.secretPage (accOf w .sys) = true) →
    ∃ t, exec (.sysEarlyEnd w) s = .next t ∧ t.faults = s.faults ∧ OnlyChanges s t [.regs, .out, .msiPending])
  ∧ (∀ (s : State) (src code info fn : Nat) (pg : Page) (act : FaultAct), Inv s → pageOf src = some pg → statusCodes.contains code = true →
      s.faults.inReset = false → s.power.state ≠ .off → s.power.state ≠ .stopped → s.fld .sys F.SYS_STAT_PHASE ≠ 8 →
      (∀ e ∈ s.faults.log, s.isRepeat 1 code pg.source e = false) → (∀ k j, act ≠ .furrow k j) → (∀ k, act ≠ .ownCache k) →
    ∃ t, exec (.faultReport src 0 1 code info fn act) s = .next t
      ∧ t.faults.log = s.faults.log.drop (s.faults.log.length + 1 - 4096)
          ++ [⟨s.deviceTime, s.fld .tim F.TIM_EPOCH_EPOCH, 1, false, code, pg.source, info, fn, 0, s.faults.nextLog⟩]
      ∧ t.fld .sys F.SYS_FAULT_CNT_CORRECTED = min (s.fld .sys F.SYS_FAULT_CNT_CORRECTED + 1) 0xFFFF ∧ bit 2 (t.rw (Page.sys.key 0x010)) = true
      ∧ t.fld .log F.LOG_STAT_COUNT = t.faults.log.length ∧ t.fld .log F.LOG_SEQ_SEQ = s.faults.nextLog % 2 ^ 32
      ∧ t.fld .log F.LOG_STAT_LOST = min (s.fld .log F.LOG_STAT_LOST + b2n (decide (4096 ≤ s.faults.log.length))) 0xFFFF
      ∧ OnlyChanges s t [.regs, .out, .faults, .msiPending])
  ∧ (∀ (s : State) (src sram cls code info fn : Nat) (pg : Page), Inv s → pageOf src = some pg → statusCodes.contains code = true →
      s.faults.inReset = false → s.power.state ≠ .off → s.power.state ≠ .stopped → sram ∈ [1, 2] → cls ∈ [1, 2] →
    ∃ t, exec (.faultReport src sram cls code info fn .reportOnly) s = .next t
      ∧ t.fld .edac F.EDAC_SRAM_CE = min (s.fld .edac F.EDAC_SRAM_CE + b2n (sram == 1)) 0xFFFF
      ∧ t.fld .edac F.EDAC_SRAM_UE = min (s.fld .edac F.EDAC_SRAM_UE + b2n (sram == 2)) 0xFFFF
      ∧ (sram = 2 → bit 4 (t.rw (Page.edac.key 0x010)) = true) ∧ OnlyChanges s t [.regs, .out, .faults, .msiPending])
  ∧ (∀ (s : State) (src code info fn n : Nat) (pg : Page) (e : LogEntry) (l m : List LogEntry), Inv s → pageOf src = some pg → statusCodes.contains code = true →
      s.faults.inReset = false → s.power.state ≠ .off → s.power.state ≠ .stopped → s.faults.log = l ++ [e] ++ m → e ∉ l → e ∉ m →
      s.isRepeat 2 code pg.source e = true → (∀ x ∈ m, s.isRepeat 2 code pg.source x = false) → n < 8 →
    ∃ t, exec (.faultReport src 0 2 code info fn (.output n)) s = .next t ∧ t.faults.log = l ++ [{ e with reps := min (e.reps + 1) 255 }] ++ m
      ∧ (n ∈ t.faults.containStop ↔ n ∈ s.faults.containStop ∨ bit n (s.fld .sys F.SYS_CONTAIN_OUT_STOP) = true)
      ∧ t.fld .sys F.SYS_FAULT_CNT_CONTAINED = min (s.fld .sys F.SYS_FAULT_CNT_CONTAINED + 1) 0xFFFF
      ∧ bit 3 (t.rw (Page.sys.key 0x010)) = true ∧ OnlyChanges s t [.regs, .out, .faults, .msiPending])
  ∧ (∀ (s : State) (src code info fn : Nat) (n : Nat), Inv s → n < 4 → pageOf src = some (.ing n) → statusCodes.contains code = true →
      s.faults.inReset = false → s.power.state ≠ .off → s.power.state ≠ .stopped →
    ∃ t, exec (.faultReport src 0 2 code info fn .block) s = .next t ∧ t.fld (.ing n) F.PG_STAT_ENABLED = 0 ∧ (.ing n : Page).base ∈ t.faults.stopped
      ∧ (t.engine n).waiting = [] ∧ (t.engine n).slots = [])
  ∧ (∀ (s : State) (src code info fn k : Nat) (pg : Page), Inv s → pageOf src = some pg → statusCodes.contains code = true →
      s.faults.inReset = false → s.power.state ≠ .off → s.power.state ≠ .stopped → k < 4 →
    ∃ t, exec (.faultReport src 0 2 code info fn (.core k none)) s = .next t ∧ (t.core k).inSecure = false ∧ (t.core k).scrubbed = true
      ∧ bit 3 (t.rw (Page.sys.key 0x010)) = true)
  ∧ (∀ (s : State) (i : Instr) (c : Nat), Inv s → (i, c) ∈ [(.deviceFatalFault 1, 1), (.deviceFatalFault 2, 2), (.deviceFatalFault 4, 4),
        (.deviceFatalFault 5, 5), (.deviceFatalFault 3, 3), (.deviceFatalFault 6, 6),
        (.watchdogExpiry, 3), (.referenceLoss, 6)] → s.faults.inReset = false → s.faults.fatal = none →
      s.power.state ∉ [.off, .stopped, .holdup] → (i = .referenceLoss → s.asleep = false) →
    ∃ t, exec i s = .next t ∧ t.faults.fatal = some c ∧ t.faults.fatalAt = s.now ∧ t.faults.fatalLast = c
      ∧ t.faults.fatalCount = min (s.faults.fatalCount + 1) 255 ∧ t.pair.guyOut = false ∧ t.pair.linkUp = false ∧ t.hosts.fetchStopped = true
      ∧ t.hosts.jobs = []
      ∧ (∃ e ∈ t.faults.log, e.cls = 3 ∧ e.dtime = s.deviceTime) ∧ t.faults.tail = t.faults.log.drop (t.faults.log.length - 256)
      ∧ t.power = s.power ∧ t.age = s.age)
  ∧ (∀ (s : State), s.asleep = true → exec .referenceLoss s = .next s)
  ∧ (∀ (s : State) (c d : Nat), Inv s → 0 < d → d ≤ 6 → s.faults.inReset = false → s.faults.fatal = some c → s.power.state ∉ [.off, .stopped] →
    ∃ t, exec (.deviceFatalFault d) s = .next t ∧ t.faults.fatal = some c ∧ t.faults.fatalAt = s.faults.fatalAt ∧ t.faults.fatalLast = d
      ∧ OnlyChanges s t [.regs, .out, .faults, .msiPending])
  ∧ (∀ (s : State) (c : Nat), Inv s → s.faults.fatal = some c → s.faults.halted = false →
      s.power.state ∉ [.off, .stopped, .holdup] →
      (s.fld .sys F.SYS_FATAL_HALT = 1 ∨ s.fld .sys F.SYS_FATAL_RESTART_LIMIT ≤ (s.faults.restarts.filter fun r => decide (s.now < r + 600000000000)).length) →
    ∃ t, exec .fatalRestart s = .next t ∧ t.faults = { s.faults with halted := true } ∧ OnlyChanges s t [.faults])
  ∧ (∀ (s : State) (c : Nat), Inv s → s.faults.fatal = some c → s.faults.halted = false →
      s.power.state ∉ [.off, .stopped, .holdup] → s.fld .sys F.SYS_FATAL_HALT = 0 →
      (s.faults.restarts.filter fun r => decide (s.now < r + 600000000000)).length < s.fld .sys F.SYS_FATAL_RESTART_LIMIT →
    ∃ t, exec .fatalRestart s = .next t ∧ t.faults.inReset = true ∧ t.faults.cause = 3 ∧ t.faults.fatal = none
      ∧ t.faults.restarts = (s.faults.restarts.filter fun r => decide (s.now < r + 600000000000)) ++ [s.now]
      ∧ (s.update.trials ≠ [] → t.update.reason = 4) ∧ t.faults.fatalCount = s.faults.fatalCount ∧ t.faults.tail = s.faults.tail)
  ∧ (∀ (s : State), s.power.state ≠ .stopped →
    ∃ t, exec .thermtrip s = .next t ∧ t.faults = { s.faults with thermtrip := true } ∧ OnlyChanges s t [.faults])
  ∧ (∀ (s : State) (w : RegWr), Inv s → s.arrives w .log = true → w.off % 0x1000 = F.LOG_CTRL_CLEAR.off →
      s.grants (accOf w .log) F.LOG_CTRL_CLEAR = true →
    ∃ t, exec (.logClear w) s = .next t ∧ t.faults.log = [] ∧ t.faults.tail = s.faults.tail ∧ t.fld .log F.LOG_STAT_COUNT = 0
      ∧ t.fld .log F.LOG_STAT_LOST = 0)

/-- One step takes the command at the front of the queue and is exec of it on the state with the queue's rest. -/
def Obligations.StepRunsFront : Prop :=
  ∀ (c : Instr) (s : State), step { s with pending := c :: s.pending } = exec c s

/-- R102, R108, R411, R418, R428, and the model's choice that a step on an empty queue is one cycle of the 25 MHz reference (log entry 4): 40 ns pass,
DTIME advances by 40 ns as TIM_TRIM.PPB scales them unless it was captured, the AON tick counter and the residency counter of the power state count
ticks of 32.768 kHz, the performance counters of event 0x08 count the cycles that service cores run in the normal world, and a FALLOW or OFF entry
whose channels have braked and whose audio has faded ends; nothing else changes. -/
def Obligations.IdleStepIsACycle : Prop :=
  (∀ (s : State), Inv s → s.pending = [] → (∀ r, s.power.req = some r → r.step = 2 → r.target ∈ [2, 4] → s.quietened = true → s.asleep = true) →
    ∃ t, step s = .next t ∧ t.now = s.now + 40 ∧ OnlyChanges s t [.regs, .now, .time]
      ∧ SameWordsBut s t ([Page.aon.key (F.AON_RES_LO_TICKS.at [s.power.state.code]), Page.aon.key (F.AON_RES_HI_TICKS.at [s.power.state.code])]
        ++ (List.range 8).flatMap fun i => [Page.pmc.key (F.PMC_CNT_LO_COUNT_LO.at [i]), Page.pmc.key (F.PMC_CNT_HI_COUNT_HI.at [i])])
      ∧ (s.time.captured = true → t.time.dtime = s.time.dtime) ∧ (s.power.state = .stopped → t.time.ticks = s.time.ticks)
      ∧ (s.time.captured = false → s.fld .tim F.TIM_TRIM_PPB = 0 → t.time.dtime = (s.time.dtime + 40) % 2 ^ 64 ∧ t.time.frac = s.time.frac)
      ∧ (s.power.state ≠ .stopped →
          t.time.ticks * 10 ^ 9 + t.time.tickFrac = (s.time.ticks * 10 ^ 9 + s.time.tickFrac + 1310720) % (2 ^ 48 * 10 ^ 9)))
  ∧ (∀ (s : State), Inv s → s.pending = [] → s.time.captured = false → s.fld .tim F.TIM_TRIM_PPB < 2 ^ 17 → s.power.req = none →
    ∃ t, step s = .next t ∧ t.time.dtime * 10 ^ 9 + t.time.frac =
      (s.time.dtime * 10 ^ 9 + s.time.frac + 40 * (10 ^ 9 + s.fld .tim F.TIM_TRIM_PPB)) % (2 ^ 64 * 10 ^ 9))
  ∧ (∀ (s : State), Inv s → s.pending = [] → s.time.captured = false → 2 ^ 17 ≤ s.fld .tim F.TIM_TRIM_PPB → s.power.req = none →
    ∃ t, step s = .next t ∧ t.time.dtime * 10 ^ 9 + t.time.frac =
      (s.time.dtime * 10 ^ 9 + s.time.frac + 40 * (10 ^ 9 + s.fld .tim F.TIM_TRIM_PPB - 2 ^ 18)) % (2 ^ 64 * 10 ^ 9))
  ∧ (∀ (s : State) (i : Nat), Inv s → s.pending = [] → s.power.req = none → i < 8 →
    ∃ t, step s = .next t
      ∧ t.fld .pmc F.PMC_CNT_LO_COUNT_LO [i] + t.fld .pmc F.PMC_CNT_HI_COUNT_HI [i] * 2 ^ 32 =
        (s.fld .pmc F.PMC_CNT_LO_COUNT_LO [i] + s.fld .pmc F.PMC_CNT_HI_COUNT_HI [i] * 2 ^ 32
          + if s.asleep = false ∧ s.fld .pmc F.PMC_CTRL_RUN = 1 ∧ s.fld .pmc F.PMC_SEL_EVENT [i] = 0x08
            then ((List.range 4).map fun k => if s.islandClocked (35 + k) ∧ s.inGate k = false
              then (s.now + 40) * s.mhzNow (35 + k) / 1000 - s.now * s.mhzNow (35 + k) / 1000 else 0).sum else 0) % 2 ^ 48)
  ∧ (∀ (s : State) (r : PowerReq), Inv s → s.pending = [] → s.power.req = some r → r.step = 2 → r.target = 2 → s.quietened = true → s.asleep = false →
    ∃ t, step s = .next t ∧ t.power.state = .fallow ∧ t.power.req = none ∧ t.time.captured = true ∧ t.now = s.now + 40)
  ∧ (∀ (s : State) (r : PowerReq), Inv s → s.pending = [] → s.power.req = some r → r.step = 2 → r.target = 4 → s.quietened = true → s.asleep = false →
    ∃ t, step s = .next t ∧ t.power.state = .off ∧ t.faults.inReset = true ∧ t.faults.cause = 5 ∧ t.time.captured = true
      ∧ t.power.wakeEn = s.fld .pwr F.PWR_WAKE_EN_SOURCES)

/-- Every command answers a next state in every state, and changes nothing outside the pieces of the state listed for it. -/
def Obligations.EveryCommandKeepsTheRest : Prop :=
  ∀ (i : Instr) (s : State), ∃ t, exec i s = .next t ∧ OnlyChanges s t (pieces i)

/-- The invariant holds at reset. -/
def Obligations.InvAtReset : Prop :=
 Inv State.reset

/-- Every step keeps the invariant: memory, register files, shadows, the copies of the FALLOW entry and the flash keep their canonical forms, the time
counters stay in their ranges, every job's number is below the next one, and the pool's tables stay sorted. -/
def Obligations.EveryStepKeepsInv : Prop :=
  ∀ (s t : State), Inv s → step s = .next t → Inv t

/-- What reset leaves, of the values that the spec states: the registers of every page hold their reset values, no channel, buffer, queue entry or
command exists, DTIME is 0, and the device is in RUN. A field that the spec's tables mark with a dash has the value that the model gives it (log
entry 2). -/
def Obligations.ResetLeaves : Prop :=
  (∀ k, State.reset.rw k = (resetWord State.reset.part k).toNat) ∧ (∀ k, State.reset.sw k = (resetWord State.reset.part k).toNat)
    ∧ State.reset.fld .pwr F.PWR_WAKE_EN_SOURCES = 0x7F ∧ State.reset.fld .pwr F.PWR_WAKE_LIMIT_REG_MS = 20
    ∧ State.reset.fld .tim F.TIM_CAL_CAL = 2000000000 ∧ State.reset.fld .tim F.TIM_DRIFT_PPM = 30 ∧ State.reset.fld .age F.AGE_CTRL_GUARD_MV = 15
    ∧ State.reset.fld .aon F.AON_CAN_WUP_TWAKE = 20 ∧ State.reset.fld .age F.AGE_PROJ_LEFT = 0xFFFF
    ∧ State.reset.pending = [] ∧ State.reset.out = [] ∧ State.reset.hosts.jobs = [] ∧ State.reset.mem = []
    ∧ (∀ i, State.reset.buf i = none) ∧ (∀ i, State.reset.chan i = none) ∧ State.reset.time.dtime = 0 ∧ State.reset.power.state = .run
    ∧ State.reset.power.saveList = [] ∧ State.reset.faults.log = [] ∧ State.reset.pair.guyOut = false ∧ State.reset.update.state = 0

/-- R474: a sag after a device-fatal fault enters HOLDUP and stores only the save list, the point of no return chooses the MRAM save, the restart
follows when the supply returns, and a device-fatal fault during HOLDUP adds only its record. -/
def Obligations.SagAfterFatalFault : Prop :=
  (∀ (s : State) (c : Nat), Inv s → s.faults.inReset = false → s.faults.fatal = some c → s.asleep = false →
    ∃ t, exec .sag s = .next t ∧ t.power.state = .holdup ∧ t.power.noResume = true
      ∧ (∃ img, t.power.sram = some img ∧ img.cause = 3 ∧ img.words.map (fun e => (e.1, e.2.1)) = s.power.saveList)
      ∧ t.power.copyRegs = s.power.copyRegs ∧ t.power.copyShad = s.power.copyShad ∧ t.power.copyOk = s.power.copyOk)
  ∧ (∀ (s : State) (good : Bool), Inv s → s.power.state = .holdup → s.power.flushed = false → s.power.noResume = true →
    ∃ t, exec (.pointOfNoReturn good) s = .next t ∧ t.power.state = .holdup ∧ t.power.saving = true)
  ∧ (∀ (s : State) (err : Bool), Inv s → s.power.state = .holdup → s.power.saving = true →
    ∃ t u, exec (.mramSaveDone err) s = .next t ∧ exec .supplyReturn t = .next u ∧ u.faults.inReset = true ∧ u.faults.cause = 7)
  ∧ (∀ (s : State) (d : Nat), Inv s → 0 < d → d ≤ 6 → s.faults.inReset = false → s.power.state = .holdup →
    ∃ t, exec (.deviceFatalFault d) s = .next t ∧ t.power = s.power ∧ t.faults.fatal = s.faults.fatal ∧ t.faults.fatalLast = d
      ∧ (∃ e ∈ t.faults.log, e.cls = 3)
      ∧ t.faults.tail = t.faults.log.drop (t.faults.log.length - 256) ∧ OnlyChanges s t [.regs, .out, .faults, .msiPending])

/-- R139: an entry with WORDS = 0 decodes as CLEAR, whatever its MODE, with no data word fetched; so does an entry of zero bytes. -/
def Obligations.SeedbedZeroWords : Prop :=
  ∀ (pl : Seedbed.Plane) (entry : Nat) (ws : List Nat), entry / 2 ^ 57 % 32 = 0 →
    Seedbed.fetchCount pl entry = 0 ∧ Seedbed.decode pl entry ws = Seedbed.decode pl (3 * 2 ^ 62 + 2 ^ 57) []
      ∧ Seedbed.decode pl 0 ws = some (List.replicate pl.count 0)

/-- R138 to R144: whatever a tile holds, the words and the entry that ingest writes decode to its elements, the reader fetches exactly the words that
were written, and an entry is a number of 64 bits, a data word one of 128. -/
def Obligations.SeedbedRoundTrip : Prop :=
  ∀ (format : Nat) (pls : List Seedbed.Plane) (pl : Seedbed.Plane) (es : List Nat), Seedbed.planes format = some pls → pl ∈ pls →
    es.length = pl.count → (∀ e ∈ es, e < 2 ^ (8 * pl.bytes)) →
    Seedbed.decode pl (Seedbed.encode pl es).entry (Seedbed.encode pl es).words = some es
      ∧ (Seedbed.encode pl es).words.length = Seedbed.fetchCount pl (Seedbed.encode pl es).entry
      ∧ (Seedbed.encode pl es).entry < 2 ^ 64 ∧ ∀ w ∈ (Seedbed.encode pl es).words, w < 2 ^ 128
end

