-- ==== Sys2Proof/Laws/Bits.lean ====
section
/-! SUPPORT. The laws of bit ranges: what a range reads after a write to it or beside it. -/

namespace Sys2Proof.Machine

set_option Elab.async false
set_option linter.all false

theorem bits_lt (hi lo v : Nat) : bits hi lo v < 2 ^ (hi + 1 - lo) := Nat.mod_lt _ (Nat.two_pow_pos _)

/-- A number is its part above a range, the range and the part below it. -/
theorem split_bits (lo w v : Nat) : v = v / 2 ^ lo / 2 ^ w * 2 ^ (lo + w) + v / 2 ^ lo % 2 ^ w * 2 ^ lo + v % 2 ^ lo := by
  have h1 := Nat.div_add_mod v (2 ^ lo)
  have h2 := Nat.div_add_mod (v / 2 ^ lo) (2 ^ w)
  rw [Nat.pow_add]
  calc v = 2 ^ lo * (v / 2 ^ lo) + v % 2 ^ lo := h1.symm
    _ = 2 ^ lo * (2 ^ w * (v / 2 ^ lo / 2 ^ w) + v / 2 ^ lo % 2 ^ w) + v % 2 ^ lo := by rw [h2]
    _ = _ := by
      rw [Nat.mul_add, Nat.mul_comm (v / 2 ^ lo % 2 ^ w), ← Nat.mul_assoc, Nat.mul_comm (2 ^ lo * 2 ^ w)]

theorem setBits_eq (lo w v x : Nat) :
    v - v / 2 ^ lo % 2 ^ w * 2 ^ lo + x % 2 ^ w * 2 ^ lo
      = v / 2 ^ lo / 2 ^ w * 2 ^ (lo + w) + x % 2 ^ w * 2 ^ lo + v % 2 ^ lo := by
  have h := split_bits lo w v
  omega

/-- The part above a range, the range, and the part below it, of a number put together from them. -/
theorem split_of (lo w a b c : Nat) (hc : c < 2 ^ lo) :
    (a * 2 ^ (lo + w) + b * 2 ^ lo + c) / 2 ^ lo = a * 2 ^ w + b ∧ (a * 2 ^ (lo + w) + b * 2 ^ lo + c) % 2 ^ lo = c := by
  have hp : 0 < 2 ^ lo := Nat.two_pow_pos lo
  have e : a * 2 ^ (lo + w) + b * 2 ^ lo + c = 2 ^ lo * (a * 2 ^ w + b) + c := by
    rw [Nat.pow_add, Nat.mul_add, Nat.mul_comm b, ← Nat.mul_assoc a, Nat.mul_comm a, Nat.mul_assoc (2 ^ lo) a]
  rw [e]
  constructor
  · rw [Nat.mul_add_div hp, Nat.div_eq_of_lt hc, Nat.add_zero]
  · rw [Nat.mul_add_mod, Nat.mod_eq_of_lt hc]

/-- A range reads what was written to it. -/
@[simp] theorem bits_setBits_self (hi lo v x : Nat) : bits hi lo (setBits hi lo v x) = x % 2 ^ (hi + 1 - lo) := by
  unfold bits setBits bits
  rw [setBits_eq, (split_of lo _ _ _ _ (Nat.mod_lt _ (Nat.two_pow_pos _))).1,
    Nat.mul_add_mod_self_right, Nat.mod_mod]

/-- A range below the one written keeps its value. -/
theorem bits_setBits_below {hi lo hi' lo' : Nat} (v x : Nat) (h : hi' < lo) (h' : lo' ≤ hi') :
    bits hi' lo' (setBits hi lo v x) = bits hi' lo' v := by
  unfold bits setBits bits
  rw [setBits_eq]
  have e := (split_of lo (hi + 1 - lo) (v / 2 ^ lo / 2 ^ (hi + 1 - lo)) (x % 2 ^ (hi + 1 - lo)) (v % 2 ^ lo)
    (Nat.mod_lt _ (Nat.two_pow_pos _))).2
  generalize v / 2 ^ lo / 2 ^ (hi + 1 - lo) * 2 ^ (lo + (hi + 1 - lo)) + x % 2 ^ (hi + 1 - lo) * 2 ^ lo + v % 2 ^ lo = n at e
  have key : ∀ m, m / 2 ^ lo' % 2 ^ (hi' + 1 - lo') = m % 2 ^ lo / 2 ^ lo' % 2 ^ (hi' + 1 - lo') := by
    intro m
    have hs : lo = lo' + (lo - lo') := by omega
    rw [hs, Nat.pow_add, Nat.mod_mul_right_div_self, Nat.mod_mod_of_dvd _ (Nat.pow_dvd_pow 2 (by omega))]
  rw [key n, e, ← key v]

/-- A range above the one written keeps its value. -/
theorem bits_setBits_above {hi lo hi' lo' : Nat} (v x : Nat) (h : hi < lo') (h' : lo ≤ hi) :
    bits hi' lo' (setBits hi lo v x) = bits hi' lo' v := by
  unfold bits setBits bits
  rw [setBits_eq]
  have hs : lo' = lo + ((hi + 1 - lo) + (lo' - (hi + 1))) := by omega
  have e := (split_of lo (hi + 1 - lo) (v / 2 ^ lo / 2 ^ (hi + 1 - lo)) (x % 2 ^ (hi + 1 - lo)) (v % 2 ^ lo)
    (Nat.mod_lt _ (Nat.two_pow_pos _))).1
  have key : ∀ m, m / 2 ^ lo' = m / 2 ^ lo / 2 ^ (hi + 1 - lo) / 2 ^ (lo' - (hi + 1)) := by
    intro m
    rw [Nat.div_div_eq_div_mul, Nat.div_div_eq_div_mul, ← Nat.pow_add, ← Nat.pow_add]
    congr 2
  rw [key (_ + _ + _), e, key v]
  congr 2
  rw [Nat.mul_comm, Nat.mul_add_div (Nat.two_pow_pos _), Nat.div_eq_of_lt (Nat.mod_lt _ (Nat.two_pow_pos _)), Nat.add_zero]

/-- Writing a range of a word leaves a word. -/
theorem setBits_lt {hi lo v n : Nat} (x : Nat) (hv : v < 2 ^ n) (h : hi < n) (hl : lo ≤ hi) : setBits hi lo v x < 2 ^ n := by
  unfold setBits bits
  rw [setBits_eq]
  have hn : n = lo + (hi + 1 - lo) + (n - (hi + 1)) := by omega
  have ha : v / 2 ^ lo / 2 ^ (hi + 1 - lo) < 2 ^ (n - (hi + 1)) := by
    rw [Nat.div_div_eq_div_mul, ← Nat.pow_add, Nat.div_lt_iff_lt_mul (Nat.two_pow_pos _), ← Nat.pow_add]
    rwa [show n - (hi + 1) + (lo + (hi + 1 - lo)) = n by omega]
  have hb : x % 2 ^ (hi + 1 - lo) < 2 ^ (hi + 1 - lo) := Nat.mod_lt _ (Nat.two_pow_pos _)
  have hc : v % 2 ^ lo < 2 ^ lo := Nat.mod_lt _ (Nat.two_pow_pos _)
  generalize v / 2 ^ lo / 2 ^ (hi + 1 - lo) = a at *
  generalize x % 2 ^ (hi + 1 - lo) = b at *
  generalize v % 2 ^ lo = c at *
  have h1 : b * 2 ^ lo + c < 2 ^ (lo + (hi + 1 - lo)) := by
    rw [Nat.pow_add]
    calc b * 2 ^ lo + c < b * 2 ^ lo + 2 ^ lo := by omega
      _ = (b + 1) * 2 ^ lo := by rw [Nat.add_mul, Nat.one_mul]
      _ ≤ 2 ^ (hi + 1 - lo) * 2 ^ lo := Nat.mul_le_mul_right _ hb
      _ = _ := Nat.mul_comm _ _
  have h2 : (a + 1) * 2 ^ (lo + (hi + 1 - lo)) ≤ 2 ^ n := by
    rw [hn, Nat.pow_add 2 (lo + (hi + 1 - lo)), Nat.mul_comm (2 ^ (lo + (hi + 1 - lo)))]
    exact Nat.mul_le_mul_right _ ha
  rw [Nat.add_mul, Nat.one_mul] at h2
  omega

end Sys2Proof.Machine
end

