-- ==== Sys2Proof/Laws/Sparse.lean ====
section
/-! SUPPORT. The laws of sparse stores and of memory: a read after a write, and the canonical form that every operation
keeps. -/

namespace Sys2Proof.Machine

set_option Elab.async false
set_option linter.all false

namespace Sparse

variable {α : Type}

theorem sortedFrom_mono {m : Store α} {b c : Nat} (hbc : b ≤ c) (h : sortedFrom c m = true) : sortedFrom b m = true := by
  cases m with
  | nil => rfl
  | cons p r =>
    obtain ⟨k, v⟩ := p
    simp only [sortedFrom, Bool.and_eq_true, decide_eq_true_eq] at h ⊢
    exact ⟨by omega, h.2⟩

/-- A key below every listed key is not listed. -/
theorem find_below {m : Store α} {b k : Nat} (h : sortedFrom b m = true) (hk : k < b) : find m k = none := by
  induction m generalizing b with
  | nil => rfl
  | cons p r ih =>
    obtain ⟨k', v'⟩ := p
    simp only [sortedFrom, Bool.and_eq_true, decide_eq_true_eq] at h
    simp only [find]
    rw [if_neg (by omega)]
    exact ih h.2 (by omega)

theorem find_put_self (m : Store α) (k : Nat) (v : α) : find (put m k v) k = some v := by
  induction m with
  | nil => simp [put, find]
  | cons p r ih =>
    obtain ⟨k', v'⟩ := p
    simp only [put]
    split
    · simp [find]
    · split
      · simp [find]
      · rename_i h1 h2
        simp [find, h2, ih]

theorem find_put_other (m : Store α) {k j : Nat} (v : α) (h : j ≠ k) : find (put m k v) j = find m j := by
  induction m with
  | nil => simp [put, find, h]
  | cons p r ih =>
    obtain ⟨k', v'⟩ := p
    simp only [put]
    split
    · simp [find, h]
    · split
      · rename_i h1 h2
        simp [find, h, ← h2]
      · simp only [find, ih]

theorem find_del_other (m : Store α) {k j : Nat} (h : j ≠ k) : find (del m k) j = find m j := by
  induction m with
  | nil => rfl
  | cons p r ih =>
    obtain ⟨k', v'⟩ := p
    simp only [del]
    split
    · rename_i h1
      simp [find, ← h1, h, ih]
    · simp only [find, ih]

theorem find_del_self (m : Store α) (k : Nat) : find (del m k) k = none := by
  induction m with
  | nil => rfl
  | cons p r ih =>
    obtain ⟨k', v'⟩ := p
    simp only [del]
    split
    · exact ih
    · rename_i h1
      simp only [find, if_neg h1]
      exact ih

theorem sortedFrom_put {m : Store α} {b k : Nat} (v : α) (h : sortedFrom b m = true) (hk : b ≤ k) :
    sortedFrom b (put m k v) = true := by
  induction m generalizing b with
  | nil => simp [put, sortedFrom, hk]
  | cons p r ih =>
    obtain ⟨k', v'⟩ := p
    simp only [sortedFrom, Bool.and_eq_true, decide_eq_true_eq] at h
    simp only [put]
    split
    · simp only [sortedFrom, Bool.and_eq_true, decide_eq_true_eq]
      exact ⟨hk, by omega, h.2⟩
    · split
      · rename_i h1 h2
        subst h2
        simp only [sortedFrom, Bool.and_eq_true, decide_eq_true_eq]
        exact ⟨hk, h.2⟩
      · simp only [sortedFrom, Bool.and_eq_true, decide_eq_true_eq]
        exact ⟨h.1, ih h.2 (by omega)⟩

theorem sortedFrom_del {m : Store α} {b : Nat} (k : Nat) (h : sortedFrom b m = true) : sortedFrom b (del m k) = true := by
  induction m generalizing b with
  | nil => rfl
  | cons p r ih =>
    obtain ⟨k', v'⟩ := p
    simp only [sortedFrom, Bool.and_eq_true, decide_eq_true_eq] at h
    simp only [del]
    split
    · exact sortedFrom_mono (by omega) (ih h.2)
    · simp only [sortedFrom, Bool.and_eq_true, decide_eq_true_eq]
      exact ⟨h.1, ih h.2⟩

theorem sortedFrom_map {β : Type} {m : Store α} {f : Nat × α → Nat × β} {b : Nat} (hf : ∀ p, (f p).1 = p.1)
    (h : sortedFrom b m = true) : sortedFrom b (m.map f) = true := by
  induction m generalizing b with
  | nil => rfl
  | cons p r ih =>
    obtain ⟨k, v⟩ := p
    have hk : (f (k, v)).1 = k := hf _
    rw [List.map_cons]
    generalize f (k, v) = e at hk
    obtain ⟨k', v'⟩ := e
    subst hk
    simp only [sortedFrom, Bool.and_eq_true, decide_eq_true_eq] at h ⊢
    exact ⟨h.1, ih h.2⟩

theorem sortedFrom_filter {m : Store α} {b : Nat} (f : Nat × α → Bool) (h : sortedFrom b m = true) :
    sortedFrom b (m.filter f) = true := by
  induction m generalizing b with
  | nil => rfl
  | cons p r ih =>
    obtain ⟨k', v'⟩ := p
    simp only [sortedFrom, Bool.and_eq_true, decide_eq_true_eq] at h
    simp only [List.filter_cons]
    split
    · simp only [sortedFrom, Bool.and_eq_true, decide_eq_true_eq]
      exact ⟨h.1, ih h.2⟩
    · exact sortedFrom_mono (by omega) (ih h.2)

theorem mem_put {m : Store α} {k : Nat} {v : α} {p : Nat × α} (h : p ∈ put m k v) : p = (k, v) ∨ p ∈ m := by
  induction m with
  | nil => simpa [put] using h
  | cons q r ih =>
    obtain ⟨k', v'⟩ := q
    simp only [put] at h
    split at h
    · simpa using h
    · split at h
      · simp only [List.mem_cons] at h ⊢
        rcases h with h | h
        · exact .inl h
        · exact .inr (.inr h)
      · simp only [List.mem_cons] at h ⊢
        rcases h with h | h
        · exact .inr (.inl h)
        · rcases ih h with h | h
          · exact .inl h
          · exact .inr (.inr h)

theorem mem_del {m : Store α} {k : Nat} {p : Nat × α} (h : p ∈ del m k) : p ∈ m := by
  induction m with
  | nil => simp [del] at h
  | cons q r ih =>
    obtain ⟨k', v'⟩ := q
    simp only [del] at h
    split at h
    · exact List.mem_cons_of_mem _ (ih h)
    · simp only [List.mem_cons] at h ⊢
      rcases h with h | h
      · exact .inl h
      · exact .inr (ih h)

variable [DecidableEq α] {d : Nat → α}

/-- The empty store is in canonical form. -/
theorem wf_nil : wf d [] = true := rfl

theorem wf_iff {m : Store α} : wf d m = true ↔ sortedFrom 0 m = true ∧ ∀ p ∈ m, p.2 ≠ d p.1 := by
  simp [wf]

/-- A write of a value that differs from the unlisted one keeps the canonical form. -/
theorem wf_put {m : Store α} {k : Nat} {v : α} (h : wf d m = true) (hv : v ≠ d k) : wf d (put m k v) = true := by
  rw [wf_iff] at h ⊢
  refine ⟨sortedFrom_put v h.1 (Nat.zero_le k), fun p hp => ?_⟩
  rcases mem_put hp with rfl | hp
  · exact hv
  · exact h.2 p hp

theorem wf_del {m : Store α} (k : Nat) (h : wf d m = true) : wf d (del m k) = true := by
  rw [wf_iff] at h ⊢
  exact ⟨sortedFrom_del k h.1, fun p hp => h.2 p (mem_del hp)⟩

/-- Every write keeps the canonical form. -/
theorem wf_set {m : Store α} (k : Nat) (v : α) (h : wf d m = true) : wf d (set d m k v) = true := by
  unfold set
  split
  · exact wf_del k h
  · exact wf_put h ‹_›

theorem wf_filter {m : Store α} (f : Nat × α → Bool) (h : wf d m = true) : wf d (m.filter f) = true := by
  rw [wf_iff] at h ⊢
  exact ⟨sortedFrom_filter f h.1, fun p hp => h.2 p ((List.mem_filter.1 hp).1)⟩

/-- Merging the entries of one canonical store into another keeps the canonical form. -/
theorem wf_merge {m n : Store α} (h : wf d m = true) (hn : wf d n = true) :
    wf d (n.foldl (fun a p => put a p.1 p.2) m) = true := by
  rw [wf_iff] at hn
  have key : ∀ (l : Store α), (∀ p ∈ l, p.2 ≠ d p.1) → ∀ m, wf d m = true →
      wf d (l.foldl (fun a p => put a p.1 p.2) m) = true := by
    intro l
    induction l with
    | nil => intro _ m hm; exact hm
    | cons p r ih =>
      intro hl m hm
      exact ih (fun q hq => hl q (List.mem_cons_of_mem _ hq)) _ (wf_put hm (hl p List.mem_cons_self))
  exact key n hn.2 m h

/-- A read of the key just written gives the value written. -/
@[simp] theorem get_set_self (m : Store α) (k : Nat) (v : α) : get d (set d m k v) k = v := by
  unfold get set
  split
  · rw [find_del_self]
    simp [*]
  · rw [find_put_self]
    rfl

/-- A write leaves every other key alone. -/
theorem get_set_other {m : Store α} {k j : Nat} (v : α) (h : j ≠ k) : get d (set d m k v) j = get d m j := by
  unfold get set
  split
  · rw [find_del_other m h]
  · rw [find_put_other m v h]

end Sparse

namespace Memory

theorem wf_write {m : List Host.Cell} (a : Nat) (v : Byte) (h : wf m = true) : wf (write m a v) = true :=
  Sparse.wf_set a v h

theorem wf_writeN {m : List Host.Cell} (a n v : Nat) (h : wf m = true) : wf (writeN m a n v) = true := by
  induction n generalizing m a v with
  | zero => exact h
  | succ n ih => exact ih _ _ (wf_write _ _ h)

theorem read_write_self (m : List Host.Cell) (a : Nat) (v : Byte) : read (write m a v) a = v :=
  Sparse.get_set_self m a v

theorem read_write_other {m : List Host.Cell} {a b : Nat} (v : Byte) (h : b ≠ a) : read (write m a v) b = read m b :=
  Sparse.get_set_other v h

/-- A write of n bytes changes no byte outside them. -/
theorem read_writeN_other {m : List Host.Cell} {a b n : Nat} (v : Nat) (h : b < a ∨ a + n ≤ b) :
    read (writeN m a n v) b = read m b := by
  induction n generalizing m a v with
  | zero => rfl
  | succ n ih =>
    rw [writeN, ih _ (by omega), read_write_other _ (by omega)]

/-- What was written is read back, as many bytes as were written. -/
theorem readN_writeN (m : List Host.Cell) (a n v : Nat) :
    readN (writeN m a n v) a n = v % 256 ^ n := by
  induction n generalizing m a v with
  | zero => simp [readN, Nat.mod_one]
  | succ n ih =>
    rw [writeN, readN, ih, read_writeN_other _ (by omega), read_write_self]
    simp only [BitVec.toNat_ofNat]
    have h1 : v % 256 ^ (n + 1) = v % 256 + 256 * (v / 256 % 256 ^ n) := by
      rw [Nat.pow_succ', Nat.mod_mul]
    rw [h1]

end Memory

end Sys2Proof.Machine
end

