-- ==== Sys2Proof/Laws/Regs.lean ====
section
/-! SUPPORT. The laws of register words and fields: a read after a write, and what every other word keeps. -/

namespace Sys2Proof.Machine

set_option Elab.async false
set_option linter.all false

variable {s : State}

/-- What the laws of register words need: the active words are in canonical form. -/
theorem Inv.regs (h : Inv s) : Sparse.wf (resetWord s.part) s.regs = true := Sound.regs h

theorem Inv.shad (h : Inv s) : Sparse.wf (resetWord s.part) s.shad = true := Sound.shad h

theorem Inv.mem (h : Inv s) : Memory.wf s.mem = true := Sound.mem h

namespace State

theorem rw_lt (s : State) (k : Nat) : s.rw k < 2 ^ 32 := BitVec.isLt _

theorem sw_lt (s : State) (k : Nat) : s.sw k < 2 ^ 32 := BitVec.isLt _

theorem rw_setRw_self (s : State) (k v : Nat) : (s.setRw k v).rw k = v % 2 ^ 32 := by
  unfold rw setRw
  rw [Sparse.get_set_self, BitVec.toNat_ofNat]

theorem rw_setRw_other {k j : Nat} (v : Nat) (h : j ≠ k) : (s.setRw k v).rw j = s.rw j := by
  unfold rw setRw
  rw [Sparse.get_set_other _ h]

theorem sw_setSw_self (s : State) (k v : Nat) : (s.setSw k v).sw k = v % 2 ^ 32 := by
  unfold sw setSw
  rw [Sparse.get_set_self, BitVec.toNat_ofNat]

theorem sw_setSw_other {k j : Nat} (v : Nat) (h : j ≠ k) : (s.setSw k v).sw j = s.sw j := by
  unfold sw setSw
  rw [Sparse.get_set_other _ h]

@[simp] theorem sw_setRw (s : State) (k v j : Nat) : (s.setRw k v).sw j = s.sw j := rfl

@[simp] theorem rw_setSw (s : State) (k v j : Nat) : (s.setSw k v).rw j = s.rw j := rfl

/-- The word that a field write leaves. -/
theorem rw_setFld_self (s : State) (pg : Page) (f : Fld) (v : Nat) (ix : List Nat)
    (hf : f.hi < 32) (hl : f.lo ≤ f.hi) :
    (s.setFld pg f v ix).rw (pg.key (f.at ix)) = setBits f.hi f.lo (s.rw (pg.key (f.at ix))) v := by
  unfold setFld
  rw [rw_setRw_self, Nat.mod_eq_of_lt (setBits_lt _ (rw_lt _ _) hf hl)]

theorem rw_setFld_other {pg : Page} {f : Fld} {ix : List Nat} {k : Nat} (v : Nat) (h : k ≠ pg.key (f.at ix)) :
    (s.setFld pg f v ix).rw k = s.rw k := rw_setRw_other _ h

/-- A field reads what was written to it. -/
theorem fld_setFld_self (s : State) (pg : Page) (f : Fld) (v : Nat) (ix : List Nat)
    (hf : f.hi < 32) (hl : f.lo ≤ f.hi) : (s.setFld pg f v ix).fld pg f ix = v % 2 ^ (f.hi + 1 - f.lo) := by
  unfold fld
  rw [rw_setFld_self s pg f v ix hf hl, bits_setBits_self]

/-- A field of another word keeps its value. -/
theorem fld_setFld_other {pg pg' : Page} {f f' : Fld} {ix ix' : List Nat} (v : Nat)
    (h : pg'.key (f'.at ix') ≠ pg.key (f.at ix)) : (s.setFld pg f v ix).fld pg' f' ix' = s.fld pg' f' ix' := by
  unfold fld
  rw [rw_setFld_other v h]

/-- A field of the same word above the written one keeps its value. -/
theorem fld_setFld_above (s : State) {pg : Page} {f f' : Fld} {ix : List Nat} (v : Nat)
    (he : f'.at ix = f.at ix) (hf : f.hi < 32) (hl : f.lo ≤ f.hi) (ha : f.hi < f'.lo) :
    (s.setFld pg f v ix).fld pg f' ix = s.fld pg f' ix := by
  unfold fld
  rw [he, rw_setFld_self s pg f v ix hf hl, bits_setBits_above _ _ ha hl]

/-- A field of the same word below the written one keeps its value. -/
theorem fld_setFld_below (s : State) {pg : Page} {f f' : Fld} {ix : List Nat} (v : Nat)
    (he : f'.at ix = f.at ix) (hf : f.hi < 32) (hl : f.lo ≤ f.hi) (hb : f'.hi < f.lo) (hl' : f'.lo ≤ f'.hi) :
    (s.setFld pg f v ix).fld pg f' ix = s.fld pg f' ix := by
  unfold fld
  rw [he, rw_setFld_self s pg f v ix hf hl, bits_setBits_below _ _ hb hl']

/-- A write of a word keeps the canonical form of the active words. -/
theorem wf_setRw (h : Sparse.wf (resetWord s.part) s.regs = true) (k v : Nat) :
    Sparse.wf (resetWord (s.setRw k v).part) (s.setRw k v).regs = true := Sparse.wf_set _ _ h

theorem wf_setFld (h : Sparse.wf (resetWord s.part) s.regs = true) (pg : Page) (f : Fld) (v : Nat) (ix : List Nat) :
    Sparse.wf (resetWord (s.setFld pg f v ix).part) (s.setFld pg f v ix).regs = true := wf_setRw h _ _

/-! ### Events and status codes -/

/-- Sending a message changes no register word. -/
@[simp] theorem sendMsg_regs (s : State) (fn vec : Nat) : (s.sendMsg fn vec).regs = s.regs := by
  unfold sendMsg
  (repeat' split) <;> rfl

@[simp] theorem sendMsg_part (s : State) (fn vec : Nat) : (s.sendMsg fn vec).part = s.part := by
  unfold sendMsg
  (repeat' split) <;> rfl

@[simp] theorem sendMsg_rw (s : State) (fn vec k : Nat) : (s.sendMsg fn vec).rw k = s.rw k := by
  unfold rw
  rw [sendMsg_regs, sendMsg_part]

@[simp] theorem pageMsg_rw (s : State) (pg : Page) (k : Nat) : (s.pageMsg pg).rw k = s.rw k := by
  unfold pageMsg
  split
  · exact sendMsg_rw _ _ _ _
  · rfl

/-- Setting event bits changes EVT_RAW of the page alone, among the register words. -/
theorem rw_raise_other {pg : Page} {k : Nat} (mask : Nat) (h : k ≠ pg.key 0x010) : (s.raise pg mask).rw k = s.rw k := by
  unfold raise
  dsimp only
  split
  · rw [pageMsg_rw, rw_setRw_other _ h]
  · rw [rw_setRw_other _ h]

/-- EVT_RAW after setting event bits: no reserved one is set. -/
theorem rw_raise_self (s : State) (pg : Page) (mask : Nat) :
    (s.raise pg mask).rw (pg.key 0x010) = Nat.lor (s.rw (pg.key 0x010)) (Nat.land mask (evtMask pg)) % 2 ^ 32 := by
  unfold raise
  dsimp only
  split
  · rw [pageMsg_rw, rw_setRw_self]
  · rw [rw_setRw_self]

end State

end Sys2Proof.Machine
end

