-- ==== Sys2Proof/Laws/Access.lean ====
section
/-! SUPPORT. What the access rules say once: a write that arrives is carried to its word, and a queue command that is accepted is carried
out. -/

namespace Sys2Proof.Machine

set_option Elab.async false
set_option linter.all false

namespace State

variable {s : State}

/-- A write that arrives runs what its word does with it. -/
theorem access_eq {w : RegWr} {pg : Page} (h : s.arrives w pg = true) (run : RegAcc → State → State) :
    s.access w run = run (accOf w pg) s := by
  simp only [arrives, Bool.and_eq_true, beq_iff_eq, Bool.not_eq_true', Option.isNone_iff_eq_none, and_assoc] at h
  obtain ⟨h1, h2, h3, h4, h5, h6, h7, h8⟩ := h
  unfold access
  rw [if_pos h1, h2]
  simp only [Option.filter, h3, if_true]
  simp only [accOf] at h4 h8 ⊢
  rw [if_neg (by simp [h4]), h5]
  dsimp only
  rw [if_neg (by simp [h6, h7])]
  cases pg
  case vf fn =>
    dsimp only at h8 ⊢
    exact if_neg (by simpa using h8)
  all_goals
    simp only [Bool.and_eq_true, Bool.not_eq_true', Bool.and_eq_false_iff, and_assoc] at h8
    obtain ⟨h9, h10, h11, h12⟩ := h8
    dsimp only
    rw [if_neg (by rintro ⟨a, b⟩; rcases h9 with h | h <;> simp_all),
      if_neg (by rintro ⟨a, b⟩; rcases h10 with h | h <;> simp_all),
      if_neg (by rintro ⟨a, b⟩; rcases h11 with h | h <;> simp_all),
      if_neg (by rintro ⟨a, b⟩; simp_all)]

theorem accessAt_eq {w : RegWr} {pg : Page} (h : s.arrives w pg = true) {here : RegAcc → Bool} (hh : here (accOf w pg) = true)
    (run : RegAcc → State → State) : s.accessAt w here run = run (accOf w pg) s := by
  unfold accessAt
  rw [access_eq h, if_pos hh]

/-! ### Queue commands -/

/-- The number that a fetched command takes, and its first state. -/
theorem take_eq (s : State) (opcode : Nat) (c : CmdArgs) : s.take opcode c =
    (⟨s.hosts.nextJid, c.fn, c.q, c.cid, opcode, c.params, (s.queue c.fn c.q).sqHead, .fetched⟩,
      { s with hosts := { s.hosts with
          jobs := s.hosts.jobs ++ [⟨s.hosts.nextJid, c.fn, c.q, c.cid, opcode, c.params, (s.queue c.fn c.q).sqHead, .fetched⟩]
          nextJid := s.hosts.nextJid + 1 } }) := rfl

/-- An accepted command is carried out. -/
theorem command_eq {opcode : Nat} {c : CmdArgs} (h : s.accepts opcode c = true) (carry : Job → State → State) :
    s.command opcode c carry = carry (s.take opcode c).1 (s.take opcode c).2 := by
  have hn : (s.take opcode c).2.entryCheck opcode c = none := by
    simp only [accepts, Bool.and_eq_true, Bool.or_eq_true, beq_iff_eq, Bool.not_eq_true', List.all_eq_true, and_assoc] at h
    obtain ⟨-, h1, h2, h3, h4, h5, h6⟩ := h
    have e1 : (s.take opcode c).2.ready = s.ready := rfl
    have e2 : (s.take opcode c).2.manager = s.manager := rfl
    have e3 : (s.take opcode c).2.standby = s.standby := rfl
    unfold entryCheck
    rw [e1, e2, e3]
    rw [if_neg (by rintro ⟨a, b⟩; rcases h1 with h | h <;> simp_all), if_neg (by simp [h2]),
      if_neg (by rintro ⟨a, b⟩; rcases h3 with h | h <;> simp_all),
      if_neg (by rintro ⟨a, b, d, e⟩; simp_all), if_neg]
    rintro (a | a)
    · exact a h5
    · simp only [List.any_eq_true, bne_iff_ne] at a
      obtain ⟨x, hx, hne⟩ := a
      exact hne (h6 x hx)
  have hw : s.entryWaits c = false := by
    simp only [accepts, Bool.and_eq_true, Bool.not_eq_true', and_assoc] at h
    exact h.1
  unfold command carryEntry
  rw [hw]
  simp only [hn, Bool.false_eq_true, if_false]

end State

end Sys2Proof.Machine
end

