-- ==== Sys2Proof/Laws/Complete.lean ====
section
/-! SUPPORT. The life of a queue command: the number it takes is new, and a completion that its queue can take is put out. -/

namespace Sys2Proof.Machine

set_option Elab.async false
set_option linter.all false

variable {s : State}

theorem Inv.jobs (h : Inv s) : ∀ j ∈ s.hosts.jobs, j.jid < s.hosts.nextJid := Sound.jobs h

namespace State

/-! ### What is put out stays put out -/

theorem mem_out_emit {o o' : Output} (h : o ∈ s.out) : o ∈ (s.emit o').out := List.mem_append_left _ h

theorem mem_out_sendMsg {o : Output} (fn vec : Nat) (h : o ∈ s.out) : o ∈ (s.sendMsg fn vec).out := by
  unfold sendMsg
  (repeat' split) <;> first | exact h | exact mem_out_emit h

theorem mem_out_signalQueue {o : Output} (fn q : Nat) (h : o ∈ s.out) : o ∈ (s.signalQueue fn q).out :=
  mem_out_sendMsg _ _ h

theorem mem_out_drainCheck {o : Output} (fn q : Nat) (h : o ∈ s.out) : o ∈ (s.drainCheck fn q).out := by
  unfold drainCheck
  dsimp only
  split <;> exact h

/-! ### Posting -/

/-- A queue that carries a command posts: it runs or has not left ERROR, no entry waits, and its ring has room even for a DEFERRED. -/
def CanPost (s : State) (fn q : Nat) : Prop :=
  ((s.queue fn q).state = .running ∨ (s.queue fn q).state = .error) ∧ (s.queue fn q).held = []
    ∧ (isCore fn = true ∨ s.unconsumed fn q + 1 < s.cqSize fn q
        ∧ (s.unconsumed fn q = 0 ∨ s.cqLoad fn q + 1 < s.cqSize fn q))

theorem canPost_of_posts {fn q : Nat} (h : s.posts fn q = true) : s.CanPost fn q := by
  simp only [posts, Bool.and_eq_true, Bool.or_eq_true, beq_iff_eq, decide_eq_true_eq, List.isEmpty_iff] at h
  obtain ⟨⟨hq, hh⟩, hr⟩ := h
  refine ⟨hq, hh, hr.imp_right fun k => ⟨k.1, k.2.imp_right fun m => by omega⟩⟩

theorem CanPost.room {fn q : Nat} (h : s.CanPost fn q) (e : CqEntry) : s.cqRoom fn q e = true := by
  unfold cqRoom
  rcases h.2.2 with k | ⟨k, m | m⟩
  · simp [k]
  · rw [m] at k
    simp only [m, Bool.or_eq_true, Bool.and_eq_true, decide_eq_true_eq, beq_self_eq_true]
    exact .inr ⟨k, .inl (.inr trivial)⟩
  · simp only [Bool.or_eq_true, Bool.and_eq_true, decide_eq_true_eq]
    exact .inr ⟨k, .inr m⟩

/-- The number of commands that wait for a first completion rises by one when an entry is taken up. -/
theorem cqLoad_take (opcode : Nat) (c : CmdArgs) (fn q : Nat) : (s.take opcode c).2.cqLoad fn q ≤ s.cqLoad fn q + 1 := by
  have hu : (s.take opcode c).2.uncompleted fn q ≤ s.uncompleted fn q + 1 := by
    simp only [uncompleted, take, List.filter_append, List.length_append]
    have : ∀ (f : Job → Bool) (j : Job), ([j].filter f).length ≤ 1 := fun f j => List.length_filter_le f [j]
    have h1 := this (fun j => j.fn == fn && j.q == q && j.stage == .fetched)
      ⟨s.hosts.nextJid, c.fn, c.q, c.cid, opcode, c.params, (s.queue c.fn c.q).sqHead, .fetched⟩
    show _ + _ + ((s.queue fn q).held.filter fun e => !e.fin).length ≤ _
    omega
  have ho : (s.take opcode c).2.owed fn q = s.owed fn q := by
    simp only [owed, take, List.filter_append, List.length_append]
    have h1 : ([(⟨s.hosts.nextJid, c.fn, c.q, c.cid, opcode, c.params, (s.queue c.fn c.q).sqHead, .fetched⟩ : Job)].filter
        fun j => j.fn == fn && j.q == q && j.stage == .owed).length = 0 := by simp
    rw [h1]
    rfl
  have hc : (s.take opcode c).2.unconsumed fn q = s.unconsumed fn q := rfl
  unfold cqLoad
  omega

theorem canPost_take {fn q : Nat} (h : s.posts fn q = true) (opcode : Nat) (c : CmdArgs) : (s.take opcode c).2.CanPost fn q := by
  simp only [posts, Bool.and_eq_true, Bool.or_eq_true, beq_iff_eq, decide_eq_true_eq, List.isEmpty_iff] at h
  obtain ⟨⟨hq, hh⟩, hr⟩ := h
  have hl := cqLoad_take (s := s) opcode c fn q
  refine ⟨hq, hh, hr.imp_right fun k => ⟨k.1, k.2.imp_right fun m => ?_⟩⟩
  exact Nat.lt_of_le_of_lt (Nat.add_le_add_right hl 1) m

/-- A queue that can post puts the completion entry out. -/
theorem post_out {fn q : Nat} (hp : s.CanPost fn q) (cid status sqHead : Nat) (res : List Nat) :
    ∃ tail phase, s.cqWrite fn q tail phase ⟨cid, status, sqHead, false, res⟩ ∈ (s.post fn q cid status sqHead false res).out := by
  refine ⟨(s.queue fn q).cqTail, (s.queue fn q).phase, ?_⟩
  have h0 : ¬((s.queue fn q).state = .idle ∨ (false = true ∧ ((s.queue fn q).state = .draining ∨ s.fnState fn = .resetting))) := by
    rcases hp.1 with h | h <;> simp [h]
  unfold post
  dsimp only
  rw [if_neg h0, if_pos ⟨hp.2.1, hp.room _⟩]
  unfold writeEntry
  dsimp only
  generalize s.cqWrite fn q _ _ _ = o
  split
  · exact mem_out_signalQueue _ _ (List.mem_append_right _ (List.mem_singleton.2 rfl))
  · exact List.mem_append_right _ (List.mem_singleton.2 rfl)

/-- The first completion of a fetched command is put out. -/
theorem complete_out {jid : Nat} {j : Job} (hj : s.job jid = some j) (hs : j.stage = .fetched) (hp : s.CanPost j.fn j.q)
    (status : Nat) (res : List Nat) :
    ∃ tail phase, s.cqWrite j.fn j.q tail phase ⟨j.cid, status, j.sqHead, false, res⟩ ∈ (s.complete jid status res).out := by
  obtain ⟨tail, phase, h⟩ := post_out hp j.cid status j.sqHead res
  refine ⟨tail, phase, ?_⟩
  unfold complete
  simp only [hj]
  rw [if_neg (by simp [hs])]
  refine mem_out_drainCheck _ _ ?_
  split <;> exact h

/-- A command that awaits its first completion posts it. -/
theorem posts_complete {jid : Nat} {j : Job} (h : s.awaits jid j = true) (status : Nat) (res : List Nat) :
    Posts s (s.complete jid status res) j false status res := by
  simp only [awaits, Bool.and_eq_true, beq_iff_eq] at h
  obtain ⟨⟨⟨⟨hj, hs⟩, hp⟩, -⟩, -⟩ := h
  exact complete_out hj hs (canPost_of_posts hp) status res

/-- The command just fetched is found by its number. -/
theorem job_take (h : ∀ j ∈ s.hosts.jobs, j.jid < s.hosts.nextJid) (opcode : Nat) (c : CmdArgs) :
    (s.take opcode c).2.job s.hosts.nextJid = some (s.take opcode c).1 := by
  have hn : s.hosts.jobs.find? (fun j => j.jid == s.hosts.nextJid) = none := by
    rw [List.find?_eq_none]
    intro j hj
    have := h j hj
    simp only [beq_iff_eq]
    omega
  simp only [take_eq, job]
  rw [List.find?_append, hn]
  simp

/-- A command that completes as soon as it is fetched. -/
theorem completed_take (h : Inv s) {c : CmdArgs} (hp : s.posts c.fn c.q = true) (opcode status : Nat) (res : List Nat) :
    Completed s ((s.take opcode c).2.complete s.hosts.nextJid status res) c status res := by
  obtain ⟨tail, phase, ho⟩ := complete_out (job_take h.jobs opcode c) rfl (canPost_take hp opcode c) status res
  exact ⟨tail, phase, _, ho⟩

end State

end Sys2Proof.Machine
end

