-- ==== Sys2Proof/Laws/Fields.lean ====
section
/-! SUPPORT. The fields of the header words are those of R44 on every page. -/

namespace Sys2Proof.Machine

set_option Elab.async false
set_option linter.all false

/-- Every page opens with the header fields; its own fields lie behind the header or in PG_STAT. -/
theorem flds_split (pg : Page) : ∃ l, pg.flds = fldsHDR ++ l ∧ ∀ f ∈ l, 0x040 ≤ f.off ∨ (f.off = 0x00C ∧ f.dims = []) := by
  cases pg
  case aud n =>
    match n with
    | 0 | 1 | 2 | 3 | 4 | 5 | 6 | 7 | 8 => exact ⟨_, rfl, by decide⟩
    | n + 9 => exact ⟨_, rfl, by decide⟩
  all_goals exact ⟨_, rfl, by decide⟩

/-- A header word but PG_STAT has the header's fields. -/
theorem fieldsAt_header (pg : Page) {o : Nat} (ho : o < 0x040) (hc : o ≠ 0x00C) : pg.fieldsAt o = fldsHDR.filter fun f => f.hits o := by
  obtain ⟨l, he, hl⟩ := flds_split pg
  have hn : l.filter (fun f => f.hits o) = [] := by
    rw [List.filter_eq_nil_iff]
    intro f hf
    simp only [Fld.hits, Bool.and_eq_true, decide_eq_true_eq, not_and]
    intro hle
    rcases hl f hf with h | ⟨h, hd⟩
    · omega
    · rw [hd]
      simp only [inDims, beq_iff_eq]
      omega
  unfold Page.fieldsAt
  rw [he, List.filter_append, hn, List.append_nil]

end Sys2Proof.Machine
end

