-- ==== Sys2Proof/Laws/FrameBase.lean ====
section
/-! SUPPORT. What a command leaves alone, under the ways in which an operation is built: an update of some pieces, a fold over a list, a
fold that carries a value beside the state. -/

namespace Sys2Proof.Machine

set_option Elab.async false
set_option linter.all false

variable {s0 s : State} {cs : List Piece}

theorem OnlyChanges.refl (s : State) (cs : List Piece) : OnlyChanges s s cs :=
  ⟨rfl, rfl, fun c _ => by cases c <;> first | rfl | exact ⟨rfl, rfl⟩⟩

theorem OnlyChanges.mono {t : State} {ds : List Piece} (h : OnlyChanges s t cs) (hs : cs ⊆ ds) : OnlyChanges s t ds :=
  ⟨h.1, h.2.1, fun c hc => h.2.2 c fun hm => hc (hs hm)⟩

theorem Piece.Same.trans {a b d : State} {c : Piece} (h : c.Same a b) (k : c.Same b d) : c.Same a d := by
  cases c
  case jobs => exact ⟨k.1.trans h.1, k.2.trans h.2⟩
  case arbiter => exact ⟨k.1.trans h.1, k.2.trans h.2⟩
  case msiPending => exact ⟨k.1.trans h.1, k.2.trans h.2⟩
  all_goals exact Eq.trans (b := _) k h

theorem OnlyChanges.trans {a b d : State} (h : OnlyChanges a b cs) (k : OnlyChanges b d cs) : OnlyChanges a d cs :=
  ⟨k.1.trans h.1, k.2.1.trans h.2.1, fun c hc => (h.2.2 c hc).trans (k.2.2 c hc)⟩

theorem Piece.mem_of {c : Piece} {ws : List Piece} (hw : ws ⊆ cs) (h : c ∈ ws) : c ∈ cs := hw h

/-- A record of fields differs from a state by what its fields show. -/
theorem OnlyChanges.of_mk
    {pending : List Instr} {part : Part} {regs : Store Word32} {shad : Store Word32} {loaded : Store Word32} {staged : List Staged}
    {latched : List Latched} {softResetting : List Nat} {mem : List Host.Cell} {out : List Output} {free : Nat} {now : Nat} {time : Time}
    {power : Power} {dram : Dram} {edac : Edac} {pool : Pool} {ingest : Ingest} {display : Display} {dpls : Store Dpl}
    {cvus : Store CvuEngine} {touch : Touch} {haptic : Haptic} {audio : Audio} {age : Age} {update : Update} {faults : Faults}
    {worlds : Worlds} {hosts : Hosts} {pair : Pair}
    (hs : OnlyChanges s0 s cs) (hpart : part = s.part) (hpending : pending = s.pending)
    (h_regs : .regs ∈ cs ∨ regs = s.regs := by first | exact .inr (by with_reducible rfl) | exact .inl (Piece.mem_of (by assumption) (by decide)))
    (h_shad : .shad ∈ cs ∨ shad = s.shad := by first | exact .inr (by with_reducible rfl) | exact .inl (Piece.mem_of (by assumption) (by decide)))
    (h_loaded : .loaded ∈ cs ∨ loaded = s.loaded := by first | exact .inr (by with_reducible rfl) | exact .inl (Piece.mem_of (by assumption) (by decide)))
    (h_staged : .staged ∈ cs ∨ staged = s.staged := by first | exact .inr (by with_reducible rfl) | exact .inl (Piece.mem_of (by assumption) (by decide)))
    (h_latched : .latched ∈ cs ∨ latched = s.latched := by first | exact .inr (by with_reducible rfl) | exact .inl (Piece.mem_of (by assumption) (by decide)))
    (h_softResetting : .softResetting ∈ cs ∨ softResetting = s.softResetting := by first | exact .inr (by with_reducible rfl) | exact .inl (Piece.mem_of (by assumption) (by decide)))
    (h_mem : .mem ∈ cs ∨ mem = s.mem := by first | exact .inr (by with_reducible rfl) | exact .inl (Piece.mem_of (by assumption) (by decide)))
    (h_out : .out ∈ cs ∨ out = s.out := by first | exact .inr (by with_reducible rfl) | exact .inl (Piece.mem_of (by assumption) (by decide)))
    (h_free : .free ∈ cs ∨ free = s.free := by first | exact .inr (by with_reducible rfl) | exact .inl (Piece.mem_of (by assumption) (by decide)))
    (h_now : .now ∈ cs ∨ now = s.now := by first | exact .inr (by with_reducible rfl) | exact .inl (Piece.mem_of (by assumption) (by decide)))
    (h_time : .time ∈ cs ∨ time = s.time := by first | exact .inr (by with_reducible rfl) | exact .inl (Piece.mem_of (by assumption) (by decide)))
    (h_power : .power ∈ cs ∨ power = s.power := by first | exact .inr (by with_reducible rfl) | exact .inl (Piece.mem_of (by assumption) (by decide)))
    (h_dram : .dram ∈ cs ∨ dram = s.dram := by first | exact .inr (by with_reducible rfl) | exact .inl (Piece.mem_of (by assumption) (by decide)))
    (h_edac : .edac ∈ cs ∨ edac = s.edac := by first | exact .inr (by with_reducible rfl) | exact .inl (Piece.mem_of (by assumption) (by decide)))
    (h_chans : .chans ∈ cs ∨ pool.chans = s.pool.chans := by first | exact .inr (by with_reducible rfl) | exact .inl (Piece.mem_of (by assumption) (by decide)))
    (h_bufs : .bufs ∈ cs ∨ pool.bufs = s.pool.bufs := by first | exact .inr (by with_reducible rfl) | exact .inl (Piece.mem_of (by assumption) (by decide)))
    (h_plots : .plots ∈ cs ∨ pool.plots = s.pool.plots := by first | exact .inr (by with_reducible rfl) | exact .inl (Piece.mem_of (by assumption) (by decide)))
    (h_fillQueue : .fillQueue ∈ cs ∨ pool.fillQueue = s.pool.fillQueue := by first | exact .inr (by with_reducible rfl) | exact .inl (Piece.mem_of (by assumption) (by decide)))
    (h_peak : .peak ∈ cs ∨ pool.peak = s.pool.peak := by first | exact .inr (by with_reducible rfl) | exact .inl (Piece.mem_of (by assumption) (by decide)))
    (h_cache : .cache ∈ cs ∨ pool.cache = s.pool.cache := by first | exact .inr (by with_reducible rfl) | exact .inl (Piece.mem_of (by assumption) (by decide)))
    (h_ingest : .ingest ∈ cs ∨ ingest = s.ingest := by first | exact .inr (by with_reducible rfl) | exact .inl (Piece.mem_of (by assumption) (by decide)))
    (h_display : .display ∈ cs ∨ display = s.display := by first | exact .inr (by with_reducible rfl) | exact .inl (Piece.mem_of (by assumption) (by decide)))
    (h_dpls : .dpls ∈ cs ∨ dpls = s.dpls := by first | exact .inr (by with_reducible rfl) | exact .inl (Piece.mem_of (by assumption) (by decide)))
    (h_cvus : .cvus ∈ cs ∨ cvus = s.cvus := by first | exact .inr (by with_reducible rfl) | exact .inl (Piece.mem_of (by assumption) (by decide)))
    (h_touch : .touch ∈ cs ∨ touch = s.touch := by first | exact .inr (by with_reducible rfl) | exact .inl (Piece.mem_of (by assumption) (by decide)))
    (h_haptic : .haptic ∈ cs ∨ haptic = s.haptic := by first | exact .inr (by with_reducible rfl) | exact .inl (Piece.mem_of (by assumption) (by decide)))
    (h_audio : .audio ∈ cs ∨ audio = s.audio := by first | exact .inr (by with_reducible rfl) | exact .inl (Piece.mem_of (by assumption) (by decide)))
    (h_age : .age ∈ cs ∨ age = s.age := by first | exact .inr (by with_reducible rfl) | exact .inl (Piece.mem_of (by assumption) (by decide)))
    (h_update : .update ∈ cs ∨ update = s.update := by first | exact .inr (by with_reducible rfl) | exact .inl (Piece.mem_of (by assumption) (by decide)))
    (h_faults : .faults ∈ cs ∨ faults = s.faults := by first | exact .inr (by with_reducible rfl) | exact .inl (Piece.mem_of (by assumption) (by decide)))
    (h_worlds : .worlds ∈ cs ∨ worlds = s.worlds := by first | exact .inr (by with_reducible rfl) | exact .inl (Piece.mem_of (by assumption) (by decide)))
    (h_queues : .queues ∈ cs ∨ hosts.queues = s.hosts.queues := by first | exact .inr (by with_reducible rfl) | exact .inl (Piece.mem_of (by assumption) (by decide)))
    (h_fns : .fns ∈ cs ∨ hosts.fns = s.hosts.fns := by first | exact .inr (by with_reducible rfl) | exact .inl (Piece.mem_of (by assumption) (by decide)))
    (h_jobs : .jobs ∈ cs ∨ (hosts.jobs = s.hosts.jobs ∧ hosts.nextJid = s.hosts.nextJid) := by first | exact .inr ⟨by with_reducible rfl, by with_reducible rfl⟩ | exact .inl (Piece.mem_of (by assumption) (by decide)))
    (h_coreEntries : .coreEntries ∈ cs ∨ hosts.coreEntries = s.hosts.coreEntries := by first | exact .inr (by with_reducible rfl) | exact .inl (Piece.mem_of (by assumption) (by decide)))
    (h_fetchStopped : .fetchStopped ∈ cs ∨ hosts.fetchStopped = s.hosts.fetchStopped := by first | exact .inr (by with_reducible rfl) | exact .inl (Piece.mem_of (by assumption) (by decide)))
    (h_arbiter : .arbiter ∈ cs ∨ (hosts.rounds = s.hosts.rounds ∧ hosts.lastQ = s.hosts.lastQ) := by first | exact .inr ⟨by with_reducible rfl, by with_reducible rfl⟩ | exact .inl (Piece.mem_of (by assumption) (by decide)))
    (h_unmasked : .unmasked ∈ cs ∨ hosts.unmasked = s.hosts.unmasked := by first | exact .inr (by with_reducible rfl) | exact .inl (Piece.mem_of (by assumption) (by decide)))
    (h_msiPending : .msiPending ∈ cs ∨ (hosts.msiPending = s.hosts.msiPending ∧ hosts.heldIrqs = s.hosts.heldIrqs) := by first | exact .inr ⟨by with_reducible rfl, by with_reducible rfl⟩ | exact .inl (Piece.mem_of (by assumption) (by decide)))
    (h_pair : .pair ∈ cs ∨ pair = s.pair := by first | exact .inr (by with_reducible rfl) | exact .inl (Piece.mem_of (by assumption) (by decide))) :
    OnlyChanges s0 ⟨pending, part, regs, shad, loaded, staged, latched, softResetting, mem, out, free, now, time, power, dram,
      edac, pool, ingest, display, dpls, cvus, touch, haptic, audio, age, update, faults, worlds, hosts, pair⟩ cs := by
  refine hs.trans ⟨hpart, hpending, fun c hc => ?_⟩
  cases c
  · exact h_regs.resolve_left hc
  · exact h_shad.resolve_left hc
  · exact h_loaded.resolve_left hc
  · exact h_staged.resolve_left hc
  · exact h_latched.resolve_left hc
  · exact h_softResetting.resolve_left hc
  · exact h_mem.resolve_left hc
  · exact h_out.resolve_left hc
  · exact h_free.resolve_left hc
  · exact h_now.resolve_left hc
  · exact h_time.resolve_left hc
  · exact h_power.resolve_left hc
  · exact h_dram.resolve_left hc
  · exact h_edac.resolve_left hc
  · exact h_chans.resolve_left hc
  · exact h_bufs.resolve_left hc
  · exact h_plots.resolve_left hc
  · exact h_fillQueue.resolve_left hc
  · exact h_peak.resolve_left hc
  · exact h_cache.resolve_left hc
  · exact h_ingest.resolve_left hc
  · exact h_display.resolve_left hc
  · exact h_dpls.resolve_left hc
  · exact h_cvus.resolve_left hc
  · exact h_touch.resolve_left hc
  · exact h_haptic.resolve_left hc
  · exact h_audio.resolve_left hc
  · exact h_age.resolve_left hc
  · exact h_update.resolve_left hc
  · exact h_faults.resolve_left hc
  · exact h_worlds.resolve_left hc
  · exact h_queues.resolve_left hc
  · exact h_fns.resolve_left hc
  · exact h_jobs.resolve_left hc
  · exact h_coreEntries.resolve_left hc
  · exact h_fetchStopped.resolve_left hc
  · exact h_arbiter.resolve_left hc
  · exact h_unmasked.resolve_left hc
  · exact h_msiPending.resolve_left hc
  · exact h_pair.resolve_left hc

/-- The state that an equation names. -/
theorem OnlyChanges.snd_of {α : Type} {x : α × State} {a : α} {t : State} (e : x = (a, t)) (h : OnlyChanges s0 x.2 cs) :
    OnlyChanges s0 t cs := by
  rwa [e] at h

theorem OnlyChanges.thd_of {α β : Type} {x : α × β × State} {a : α} {b : β} {t : State} (e : x = (a, b, t))
    (h : OnlyChanges s0 x.2.2 cs) : OnlyChanges s0 t cs := by
  rwa [e] at h

theorem foldl_only {α : Type} {f : State → α → State} {l : List α}
    (hf : ∀ t x, OnlyChanges s0 t cs → OnlyChanges s0 (f t x) cs) (h : OnlyChanges s0 s cs) : OnlyChanges s0 (l.foldl f s) cs := by
  induction l generalizing s with
  | nil => exact h
  | cons a r ih => exact ih (hf s a h)

/-- The same for a fold that carries a value with the state. -/
theorem foldl_only_snd {α β : Type} {f : β × State → α → β × State} {l : List α} {a : β × State}
    (hf : ∀ t x, OnlyChanges s0 t.2 cs → OnlyChanges s0 (f t x).2 cs) (h : OnlyChanges s0 a.2 cs) : OnlyChanges s0 (l.foldl f a).2 cs := by
  induction l generalizing a with
  | nil => exact h
  | cons x r ih => exact ih (hf a x h)

end Sys2Proof.Machine
end

