-- ==== Sys2Proof/Laws/FrameOps.lean ====
section
/-! SUPPORT. What every operation of Machine/Ops.lean leaves alone. -/

namespace Sys2Proof.Machine

set_option Elab.async false
set_option linter.all false

variable {s0 : State} {pcs : List Piece}

theorem State.setRw_only {s : State} (k : Nat) (v : Nat) (hw : [.regs] ⊆ pcs) (hs : OnlyChanges s0 s pcs) :
    OnlyChanges s0 (State.setRw s k v) pcs := by
  unfold State.setRw
  repeat' first
    | with_reducible assumption
    | with_reducible apply foldl_only
    | with_reducible refine OnlyChanges.snd_of (by with_reducible assumption) ?_
    | with_reducible refine OnlyChanges.thd_of (by with_reducible assumption) ?_
    | intro _
    | split
    | dsimp only
    | with_reducible refine OnlyChanges.of_mk ?_ rfl rfl

theorem State.setSw_only {s : State} (k : Nat) (v : Nat) (hw : [.shad] ⊆ pcs) (hs : OnlyChanges s0 s pcs) :
    OnlyChanges s0 (State.setSw s k v) pcs := by
  unfold State.setSw
  repeat' first
    | with_reducible assumption
    | with_reducible apply foldl_only
    | with_reducible refine OnlyChanges.snd_of (by with_reducible assumption) ?_
    | with_reducible refine OnlyChanges.thd_of (by with_reducible assumption) ?_
    | intro _
    | split
    | dsimp only
    | with_reducible refine OnlyChanges.of_mk ?_ rfl rfl

theorem State.setFld_only {s : State} (pg : Page) (f : Fld) (v : Nat) (ix : List Nat) (hw : [.regs] ⊆ pcs) (hs : OnlyChanges s0 s pcs) :
    OnlyChanges s0 (State.setFld s pg f v ix) pcs := by
  unfold State.setFld
  repeat' first
    | with_reducible assumption
    | with_reducible apply foldl_only
    | with_reducible refine State.setRw_only _ _ (List.Subset.trans (by decide) hw) ?_
    | with_reducible refine OnlyChanges.snd_of (by with_reducible assumption) ?_
    | with_reducible refine OnlyChanges.thd_of (by with_reducible assumption) ?_
    | intro _
    | split
    | dsimp only

theorem State.setSfld_only {s : State} (pg : Page) (f : Fld) (v : Nat) (ix : List Nat) (hw : [.shad] ⊆ pcs) (hs : OnlyChanges s0 s pcs) :
    OnlyChanges s0 (State.setSfld s pg f v ix) pcs := by
  unfold State.setSfld
  repeat' first
    | with_reducible assumption
    | with_reducible apply foldl_only
    | with_reducible refine State.setSw_only _ _ (List.Subset.trans (by decide) hw) ?_
    | with_reducible refine OnlyChanges.snd_of (by with_reducible assumption) ?_
    | with_reducible refine OnlyChanges.thd_of (by with_reducible assumption) ?_
    | intro _
    | split
    | dsimp only

theorem State.addFld_only {s : State} (pg : Page) (f : Fld) (n : Nat) (ix : List Nat) (hw : [.regs] ⊆ pcs) (hs : OnlyChanges s0 s pcs) :
    OnlyChanges s0 (State.addFld s pg f n ix) pcs := by
  unfold State.addFld
  repeat' first
    | with_reducible assumption
    | with_reducible apply foldl_only
    | with_reducible refine State.setFld_only _ _ _ _ (List.Subset.trans (by decide) hw) ?_
    | with_reducible refine OnlyChanges.snd_of (by with_reducible assumption) ?_
    | with_reducible refine OnlyChanges.thd_of (by with_reducible assumption) ?_
    | intro _
    | split
    | dsimp only

theorem State.satFld_only {s : State} (pg : Page) (f : Fld) (n : Nat) (ix : List Nat) (hw : [.regs] ⊆ pcs) (hs : OnlyChanges s0 s pcs) :
    OnlyChanges s0 (State.satFld s pg f n ix) pcs := by
  unfold State.satFld
  repeat' first
    | with_reducible assumption
    | with_reducible apply foldl_only
    | with_reducible refine State.setFld_only _ _ _ _ (List.Subset.trans (by decide) hw) ?_
    | with_reducible refine OnlyChanges.snd_of (by with_reducible assumption) ?_
    | with_reducible refine OnlyChanges.thd_of (by with_reducible assumption) ?_
    | intro _
    | split
    | dsimp only

theorem State.addCnt_only {s : State} (pg : Page) (lo : Fld) (hi : Fld) (n : Nat) (ix : List Nat) (hw : [.regs] ⊆ pcs) (hs : OnlyChanges s0 s pcs) :
    OnlyChanges s0 (State.addCnt s pg lo hi n ix) pcs := by
  unfold State.addCnt
  repeat' first
    | with_reducible assumption
    | with_reducible apply foldl_only
    | with_reducible refine State.setFld_only _ _ _ _ (List.Subset.trans (by decide) hw) ?_
    | with_reducible refine OnlyChanges.snd_of (by with_reducible assumption) ?_
    | with_reducible refine OnlyChanges.thd_of (by with_reducible assumption) ?_
    | intro _
    | split
    | dsimp only

theorem State.emit_only {s : State} (o : Output) (hw : [.out] ⊆ pcs) (hs : OnlyChanges s0 s pcs) :
    OnlyChanges s0 (State.emit s o) pcs := by
  unfold State.emit
  repeat' first
    | with_reducible assumption
    | with_reducible apply foldl_only
    | with_reducible refine OnlyChanges.snd_of (by with_reducible assumption) ?_
    | with_reducible refine OnlyChanges.thd_of (by with_reducible assumption) ?_
    | intro _
    | split
    | dsimp only
    | with_reducible refine OnlyChanges.of_mk ?_ rfl rfl

theorem State.takeFree_only {s : State} (hw : [.free] ⊆ pcs) (hs : OnlyChanges s0 s pcs) :
    OnlyChanges s0 (State.takeFree s).2 pcs := by
  unfold State.takeFree
  repeat' first
    | with_reducible assumption
    | with_reducible apply foldl_only
    | with_reducible refine OnlyChanges.snd_of (by with_reducible assumption) ?_
    | with_reducible refine OnlyChanges.thd_of (by with_reducible assumption) ?_
    | intro _
    | split
    | dsimp only
    | with_reducible refine OnlyChanges.of_mk ?_ rfl rfl

theorem State.sendMsg_only {s : State} (fn : Nat) (vec : Nat) (hw : [.out, .msiPending] ⊆ pcs) (hs : OnlyChanges s0 s pcs) :
    OnlyChanges s0 (State.sendMsg s fn vec) pcs := by
  unfold State.sendMsg
  repeat' first
    | with_reducible assumption
    | with_reducible apply foldl_only
    | with_reducible refine State.emit_only _ (List.Subset.trans (by decide) hw) ?_
    | with_reducible refine OnlyChanges.snd_of (by with_reducible assumption) ?_
    | with_reducible refine OnlyChanges.thd_of (by with_reducible assumption) ?_
    | intro _
    | split
    | dsimp only
    | with_reducible refine OnlyChanges.of_mk ?_ rfl rfl

theorem State.pageMsg_only {s : State} (pg : Page) (hw : [.out, .msiPending] ⊆ pcs) (hs : OnlyChanges s0 s pcs) :
    OnlyChanges s0 (State.pageMsg s pg) pcs := by
  unfold State.pageMsg
  repeat' first
    | with_reducible assumption
    | with_reducible apply foldl_only
    | with_reducible refine State.sendMsg_only _ _ (List.Subset.trans (by decide) hw) ?_
    | with_reducible refine OnlyChanges.snd_of (by with_reducible assumption) ?_
    | with_reducible refine OnlyChanges.thd_of (by with_reducible assumption) ?_
    | intro _
    | split
    | dsimp only

theorem State.raise_only {s : State} (pg : Page) (mask : Nat) (hw : [.regs, .out, .msiPending] ⊆ pcs) (hs : OnlyChanges s0 s pcs) :
    OnlyChanges s0 (State.raise s pg mask) pcs := by
  unfold State.raise
  repeat' first
    | with_reducible assumption
    | with_reducible apply foldl_only
    | with_reducible refine State.setRw_only _ _ (List.Subset.trans (by decide) hw) ?_
    | with_reducible refine State.pageMsg_only _ (List.Subset.trans (by decide) hw) ?_
    | with_reducible refine OnlyChanges.snd_of (by with_reducible assumption) ?_
    | with_reducible refine OnlyChanges.thd_of (by with_reducible assumption) ?_
    | intro _
    | split
    | dsimp only

theorem State.event_only {s : State} (pg : Page) (n : Nat) (hw : [.regs, .out, .msiPending] ⊆ pcs) (hs : OnlyChanges s0 s pcs) :
    OnlyChanges s0 (State.event s pg n) pcs := by
  unfold State.event
  repeat' first
    | with_reducible assumption
    | with_reducible apply foldl_only
    | with_reducible refine State.raise_only _ _ (List.Subset.trans (by decide) hw) ?_
    | with_reducible refine OnlyChanges.snd_of (by with_reducible assumption) ?_
    | with_reducible refine OnlyChanges.thd_of (by with_reducible assumption) ?_
    | intro _
    | split
    | dsimp only

theorem State.recErr_only {s : State} (pg : Page) (code : Nat) (info : Nat) (hw : [.regs, .out, .msiPending] ⊆ pcs) (hs : OnlyChanges s0 s pcs) :
    OnlyChanges s0 (State.recErr s pg code info) pcs := by
  unfold State.recErr
  repeat' first
    | with_reducible assumption
    | with_reducible apply foldl_only
    | with_reducible refine State.setRw_only _ _ (List.Subset.trans (by decide) hw) ?_
    | with_reducible refine State.setFld_only _ _ _ _ (List.Subset.trans (by decide) hw) ?_
    | with_reducible refine State.raise_only _ _ (List.Subset.trans (by decide) hw) ?_
    | with_reducible refine OnlyChanges.snd_of (by with_reducible assumption) ?_
    | with_reducible refine OnlyChanges.thd_of (by with_reducible assumption) ?_
    | intro _
    | split
    | dsimp only

theorem State.recAcc_only {s : State} (a : RegAcc) (code : Nat) (hw : [.regs, .out, .msiPending] ⊆ pcs) (hs : OnlyChanges s0 s pcs) :
    OnlyChanges s0 (State.recAcc s a code) pcs := by
  unfold State.recAcc
  repeat' first
    | with_reducible assumption
    | with_reducible apply foldl_only
    | with_reducible refine State.recErr_only _ _ _ (List.Subset.trans (by decide) hw) ?_
    | with_reducible refine OnlyChanges.snd_of (by with_reducible assumption) ?_
    | with_reducible refine OnlyChanges.thd_of (by with_reducible assumption) ?_
    | intro _
    | split
    | dsimp only

theorem State.pmcCount_only {s : State} (event : Nat) (fn : Nat) (world : Bool) (filterApplies : Bool) (n : Nat) (hw : [.regs] ⊆ pcs) (hs : OnlyChanges s0 s pcs) :
    OnlyChanges s0 (State.pmcCount s event fn world filterApplies n) pcs := by
  unfold State.pmcCount
  repeat' first
    | with_reducible assumption
    | with_reducible apply foldl_only
    | with_reducible refine State.addCnt_only _ _ _ _ _ (List.Subset.trans (by decide) hw) ?_
    | with_reducible refine OnlyChanges.snd_of (by with_reducible assumption) ?_
    | with_reducible refine OnlyChanges.thd_of (by with_reducible assumption) ?_
    | intro _
    | split
    | dsimp only

theorem State.deny_only {s : State} (fn : Nat) (world : Bool) (crit : Nat) (write : Bool) (target : Nat) (addr : Nat) (hw : [.regs, .out, .msiPending] ⊆ pcs) (hs : OnlyChanges s0 s pcs) :
    OnlyChanges s0 (State.deny s fn world crit write target addr) pcs := by
  unfold State.deny
  repeat' first
    | with_reducible assumption
    | with_reducible apply foldl_only
    | with_reducible refine State.setRw_only _ _ (List.Subset.trans (by decide) hw) ?_
    | with_reducible refine State.setFld_only _ _ _ _ (List.Subset.trans (by decide) hw) ?_
    | with_reducible refine State.satFld_only _ _ _ _ (List.Subset.trans (by decide) hw) ?_
    | with_reducible refine State.event_only _ _ (List.Subset.trans (by decide) hw) ?_
    | with_reducible refine State.pmcCount_only _ _ _ _ _ (List.Subset.trans (by decide) hw) ?_
    | with_reducible refine OnlyChanges.snd_of (by with_reducible assumption) ?_
    | with_reducible refine OnlyChanges.thd_of (by with_reducible assumption) ?_
    | intro _
    | split
    | dsimp only

theorem State.denyReg_only {s : State} (a : RegAcc) (hw : [.regs, .out, .msiPending] ⊆ pcs) (hs : OnlyChanges s0 s pcs) :
    OnlyChanges s0 (State.denyReg s a) pcs := by
  unfold State.denyReg
  repeat' first
    | with_reducible assumption
    | with_reducible apply foldl_only
    | with_reducible refine State.recAcc_only _ _ (List.Subset.trans (by decide) hw) ?_
    | with_reducible refine State.deny_only _ _ _ _ _ _ (List.Subset.trans (by decide) hw) ?_
    | with_reducible refine OnlyChanges.snd_of (by with_reducible assumption) ?_
    | with_reducible refine OnlyChanges.thd_of (by with_reducible assumption) ?_
    | intro _
    | split
    | dsimp only

theorem State.applyField_only (a : RegAcc) {s : State} (f : Fld) (hw : [.regs, .shad] ⊆ pcs) (hs : OnlyChanges s0 s pcs) :
    OnlyChanges s0 (State.applyField a s f) pcs := by
  unfold State.applyField
  repeat' first
    | with_reducible assumption
    | with_reducible apply foldl_only
    | with_reducible refine State.setRw_only _ _ (List.Subset.trans (by decide) hw) ?_
    | with_reducible refine State.setSw_only _ _ (List.Subset.trans (by decide) hw) ?_
    | with_reducible refine OnlyChanges.snd_of (by with_reducible assumption) ?_
    | with_reducible refine OnlyChanges.thd_of (by with_reducible assumption) ?_
    | intro _
    | split
    | dsimp only

theorem State.recRefused_only {s : State} (a : RegAcc) (hw : [.regs, .out, .msiPending] ⊆ pcs) (hs : OnlyChanges s0 s pcs) :
    OnlyChanges s0 (State.recRefused s a) pcs := by
  unfold State.recRefused
  repeat' first
    | with_reducible assumption
    | with_reducible apply foldl_only
    | with_reducible refine State.recAcc_only _ _ (List.Subset.trans (by decide) hw) ?_
    | with_reducible refine State.denyReg_only _ (List.Subset.trans (by decide) hw) ?_
    | with_reducible refine OnlyChanges.snd_of (by with_reducible assumption) ?_
    | with_reducible refine OnlyChanges.thd_of (by with_reducible assumption) ?_
    | intro _
    | split
    | dsimp only

theorem State.refuse_only {s : State} (a : RegAcc) (code : Nat) (hw : [.regs, .out, .msiPending] ⊆ pcs) (hs : OnlyChanges s0 s pcs) :
    OnlyChanges s0 (State.refuse s a code) pcs := by
  unfold State.refuse
  repeat' first
    | with_reducible assumption
    | with_reducible apply foldl_only
    | with_reducible refine State.recAcc_only _ _ (List.Subset.trans (by decide) hw) ?_
    | with_reducible refine State.denyReg_only _ (List.Subset.trans (by decide) hw) ?_
    | with_reducible refine OnlyChanges.snd_of (by with_reducible assumption) ?_
    | with_reducible refine OnlyChanges.thd_of (by with_reducible assumption) ?_
    | intro _
    | split
    | dsimp only

theorem State.plainWrite_only {s : State} (a : RegAcc) (keep : Fld → Bool) (hw : [.regs, .shad, .out, .msiPending] ⊆ pcs) (hs : OnlyChanges s0 s pcs) :
    OnlyChanges s0 (State.plainWrite s a keep) pcs := by
  unfold State.plainWrite
  repeat' first
    | with_reducible assumption
    | with_reducible apply foldl_only
    | with_reducible refine State.applyField_only _ _ (List.Subset.trans (by decide) hw) ?_
    | with_reducible refine State.recRefused_only _ (List.Subset.trans (by decide) hw) ?_
    | with_reducible refine OnlyChanges.snd_of (by with_reducible assumption) ?_
    | with_reducible refine OnlyChanges.thd_of (by with_reducible assumption) ?_
    | intro _
    | split
    | dsimp only

end Sys2Proof.Machine
end

