-- ==== Sys2Proof/Laws/FrameCommands.lean ====
section
/-! SUPPORT. What every operation of Machine/Commands.lean leaves alone. -/

namespace Sys2Proof.Machine

set_option Elab.async false
set_option linter.all false

variable {s0 : State} {pcs : List Piece}

theorem State.setQueue_only {s : State} (fn : Nat) (x2 : Nat) (x : Queue) (hw : [.queues] ⊆ pcs) (hs : OnlyChanges s0 s pcs) :
    OnlyChanges s0 (State.setQueue s fn x2 x) pcs := by
  unfold State.setQueue
  repeat' first
    | with_reducible assumption
    | with_reducible apply foldl_only
    | with_reducible refine OnlyChanges.snd_of (by with_reducible assumption) ?_
    | with_reducible refine OnlyChanges.thd_of (by with_reducible assumption) ?_
    | intro _
    | split
    | dsimp only
    | with_reducible refine OnlyChanges.of_mk ?_ rfl rfl

theorem State.signalQueue_only {s : State} (fn : Nat) (x2 : Nat) (hw : [.out, .queues, .msiPending] ⊆ pcs) (hs : OnlyChanges s0 s pcs) :
    OnlyChanges s0 (State.signalQueue s fn x2) pcs := by
  unfold State.signalQueue
  repeat' first
    | with_reducible assumption
    | with_reducible apply foldl_only
    | with_reducible refine State.sendMsg_only _ _ (List.Subset.trans (by decide) hw) ?_
    | with_reducible refine State.setQueue_only _ _ _ (List.Subset.trans (by decide) hw) ?_
    | with_reducible refine OnlyChanges.snd_of (by with_reducible assumption) ?_
    | with_reducible refine OnlyChanges.thd_of (by with_reducible assumption) ?_
    | intro _
    | split
    | dsimp only

theorem State.writeEntry_only {s : State} (fn : Nat) (x2 : Nat) (e : CqEntry) (hw : [.out, .queues, .msiPending] ⊆ pcs) (hs : OnlyChanges s0 s pcs) :
    OnlyChanges s0 (State.writeEntry s fn x2 e) pcs := by
  unfold State.writeEntry
  repeat' first
    | with_reducible assumption
    | with_reducible apply foldl_only
    | with_reducible refine State.emit_only _ (List.Subset.trans (by decide) hw) ?_
    | with_reducible refine State.setQueue_only _ _ _ (List.Subset.trans (by decide) hw) ?_
    | with_reducible refine State.signalQueue_only _ _ (List.Subset.trans (by decide) hw) ?_
    | with_reducible refine OnlyChanges.snd_of (by with_reducible assumption) ?_
    | with_reducible refine OnlyChanges.thd_of (by with_reducible assumption) ?_
    | intro _
    | split
    | dsimp only

theorem State.post_only {s : State} (fn : Nat) (x2 : Nat) (cid : Nat) (status : Nat) (sqHead : Nat) (fin : Bool) (res : List Nat) (hw : [.out, .queues, .msiPending] ⊆ pcs) (hs : OnlyChanges s0 s pcs) :
    OnlyChanges s0 (State.post s fn x2 cid status sqHead fin res) pcs := by
  unfold State.post
  repeat' first
    | with_reducible assumption
    | with_reducible apply foldl_only
    | with_reducible refine State.setQueue_only _ _ _ (List.Subset.trans (by decide) hw) ?_
    | with_reducible refine State.writeEntry_only _ _ _ (List.Subset.trans (by decide) hw) ?_
    | with_reducible refine OnlyChanges.snd_of (by with_reducible assumption) ?_
    | with_reducible refine OnlyChanges.thd_of (by with_reducible assumption) ?_
    | intro _
    | split
    | dsimp only

theorem State.releaseHeld_only {s : State} (fn : Nat) (x2 : Nat) (hw : [.out, .queues, .msiPending] ⊆ pcs) (hs : OnlyChanges s0 s pcs) :
    OnlyChanges s0 (State.releaseHeld s fn x2) pcs := by
  unfold State.releaseHeld
  repeat' first
    | with_reducible assumption
    | with_reducible apply foldl_only
    | with_reducible refine State.setQueue_only _ _ _ (List.Subset.trans (by decide) hw) ?_
    | with_reducible refine State.writeEntry_only _ _ _ (List.Subset.trans (by decide) hw) ?_
    | with_reducible refine OnlyChanges.snd_of (by with_reducible assumption) ?_
    | with_reducible refine OnlyChanges.thd_of (by with_reducible assumption) ?_
    | intro _
    | split
    | dsimp only

theorem State.keepJobs_only {s : State} (f : Job → Bool) (hw : [.jobs] ⊆ pcs) (hs : OnlyChanges s0 s pcs) :
    OnlyChanges s0 (State.keepJobs s f) pcs := by
  unfold State.keepJobs
  repeat' first
    | with_reducible assumption
    | with_reducible apply foldl_only
    | with_reducible refine OnlyChanges.snd_of (by with_reducible assumption) ?_
    | with_reducible refine OnlyChanges.thd_of (by with_reducible assumption) ?_
    | intro _
    | split
    | dsimp only
    | with_reducible refine OnlyChanges.of_mk ?_ rfl rfl

theorem State.owe_only {s : State} (jid : Nat) (hw : [.jobs] ⊆ pcs) (hs : OnlyChanges s0 s pcs) :
    OnlyChanges s0 (State.owe s jid) pcs := by
  unfold State.owe
  repeat' first
    | with_reducible assumption
    | with_reducible apply foldl_only
    | with_reducible refine OnlyChanges.snd_of (by with_reducible assumption) ?_
    | with_reducible refine OnlyChanges.thd_of (by with_reducible assumption) ?_
    | intro _
    | split
    | dsimp only
    | with_reducible refine OnlyChanges.of_mk ?_ rfl rfl

theorem State.drainCheck_only {s : State} (fn : Nat) (x2 : Nat) (hw : [.queues, .jobs] ⊆ pcs) (hs : OnlyChanges s0 s pcs) :
    OnlyChanges s0 (State.drainCheck s fn x2) pcs := by
  unfold State.drainCheck
  repeat' first
    | with_reducible assumption
    | with_reducible apply foldl_only
    | with_reducible refine State.setQueue_only _ _ _ (List.Subset.trans (by decide) hw) ?_
    | with_reducible refine State.keepJobs_only _ (List.Subset.trans (by decide) hw) ?_
    | with_reducible refine OnlyChanges.snd_of (by with_reducible assumption) ?_
    | with_reducible refine OnlyChanges.thd_of (by with_reducible assumption) ?_
    | intro _
    | split
    | dsimp only

theorem State.dropJob_only {s : State} (jid : Nat) (hw : [.jobs] ⊆ pcs) (hs : OnlyChanges s0 s pcs) :
    OnlyChanges s0 (State.dropJob s jid) pcs := by
  unfold State.dropJob
  repeat' first
    | with_reducible assumption
    | with_reducible apply foldl_only
    | with_reducible refine State.keepJobs_only _ (List.Subset.trans (by decide) hw) ?_
    | with_reducible refine OnlyChanges.snd_of (by with_reducible assumption) ?_
    | with_reducible refine OnlyChanges.thd_of (by with_reducible assumption) ?_
    | intro _
    | split
    | dsimp only

theorem State.complete_only {s : State} (jid : Nat) (status : Nat) (res : List Nat) (hw : [.out, .queues, .jobs, .msiPending] ⊆ pcs) (hs : OnlyChanges s0 s pcs) :
    OnlyChanges s0 (State.complete s jid status res) pcs := by
  unfold State.complete
  repeat' first
    | with_reducible assumption
    | with_reducible apply foldl_only
    | with_reducible refine State.post_only _ _ _ _ _ _ _ (List.Subset.trans (by decide) hw) ?_
    | with_reducible refine State.owe_only _ (List.Subset.trans (by decide) hw) ?_
    | with_reducible refine State.drainCheck_only _ _ (List.Subset.trans (by decide) hw) ?_
    | with_reducible refine State.dropJob_only _ (List.Subset.trans (by decide) hw) ?_
    | with_reducible refine OnlyChanges.snd_of (by with_reducible assumption) ?_
    | with_reducible refine OnlyChanges.thd_of (by with_reducible assumption) ?_
    | intro _
    | split
    | dsimp only

theorem State.finish_only {s : State} (jid : Nat) (status : Nat) (res : List Nat) (hw : [.out, .queues, .jobs, .msiPending] ⊆ pcs) (hs : OnlyChanges s0 s pcs) :
    OnlyChanges s0 (State.finish s jid status res) pcs := by
  unfold State.finish
  repeat' first
    | with_reducible assumption
    | with_reducible apply foldl_only
    | with_reducible refine State.post_only _ _ _ _ _ _ _ (List.Subset.trans (by decide) hw) ?_
    | with_reducible refine State.dropJob_only _ (List.Subset.trans (by decide) hw) ?_
    | with_reducible refine State.complete_only _ _ _ (List.Subset.trans (by decide) hw) ?_
    | with_reducible refine OnlyChanges.snd_of (by with_reducible assumption) ?_
    | with_reducible refine OnlyChanges.thd_of (by with_reducible assumption) ?_
    | intro _
    | split
    | dsimp only

theorem State.finishOpt_only {s : State} (jid : Option Nat) (status : Nat) (res : List Nat) (hw : [.out, .queues, .jobs, .msiPending] ⊆ pcs) (hs : OnlyChanges s0 s pcs) :
    OnlyChanges s0 (State.finishOpt s jid status res) pcs := by
  unfold State.finishOpt
  repeat' first
    | with_reducible assumption
    | with_reducible apply foldl_only
    | with_reducible refine State.finish_only _ _ _ (List.Subset.trans (by decide) hw) ?_
    | with_reducible refine OnlyChanges.snd_of (by with_reducible assumption) ?_
    | with_reducible refine OnlyChanges.thd_of (by with_reducible assumption) ?_
    | intro _
    | split
    | dsimp only

theorem State.mirror_only {s : State} (x : MirrorItem) (hw : [.pair] ⊆ pcs) (hs : OnlyChanges s0 s pcs) :
    OnlyChanges s0 (State.mirror s x) pcs := by
  unfold State.mirror
  repeat' first
    | with_reducible assumption
    | with_reducible apply foldl_only
    | with_reducible refine OnlyChanges.snd_of (by with_reducible assumption) ?_
    | with_reducible refine OnlyChanges.thd_of (by with_reducible assumption) ?_
    | intro _
    | split
    | dsimp only
    | with_reducible refine OnlyChanges.of_mk ?_ rfl rfl

theorem State.completeMirrored_only {s : State} (op : Nat) (params : List Nat) (plots : List Nat) (jid : Nat) (status : Nat) (res : List Nat) (hw : [.out, .queues, .jobs, .msiPending, .pair] ⊆ pcs) (hs : OnlyChanges s0 s pcs) :
    OnlyChanges s0 (State.completeMirrored s op params plots jid status res) pcs := by
  unfold State.completeMirrored
  repeat' first
    | with_reducible assumption
    | with_reducible apply foldl_only
    | with_reducible refine State.complete_only _ _ _ (List.Subset.trans (by decide) hw) ?_
    | with_reducible refine State.mirror_only _ (List.Subset.trans (by decide) hw) ?_
    | with_reducible refine OnlyChanges.snd_of (by with_reducible assumption) ?_
    | with_reducible refine OnlyChanges.thd_of (by with_reducible assumption) ?_
    | intro _
    | split
    | dsimp only

theorem State.finishMirrored_only {s : State} (op : Nat) (params : List Nat) (jid : Option Nat) (hw : [.out, .queues, .jobs, .msiPending, .pair] ⊆ pcs) (hs : OnlyChanges s0 s pcs) :
    OnlyChanges s0 (State.finishMirrored s op params jid) pcs := by
  unfold State.finishMirrored
  repeat' first
    | with_reducible assumption
    | with_reducible apply foldl_only
    | with_reducible refine State.finishOpt_only _ _ _ (List.Subset.trans (by decide) hw) ?_
    | with_reducible refine State.mirror_only _ (List.Subset.trans (by decide) hw) ?_
    | with_reducible refine OnlyChanges.snd_of (by with_reducible assumption) ?_
    | with_reducible refine OnlyChanges.thd_of (by with_reducible assumption) ?_
    | intro _
    | split
    | dsimp only

theorem State.pickFn_only {s : State} (i : Nat) (ws : List Nat) (hw : [.arbiter] ⊆ pcs) (hs : OnlyChanges s0 s pcs) :
    OnlyChanges s0 (State.pickFn s i ws).2 pcs := by
  unfold State.pickFn
  repeat' first
    | with_reducible assumption
    | with_reducible apply foldl_only
    | with_reducible refine OnlyChanges.snd_of (by with_reducible assumption) ?_
    | with_reducible refine OnlyChanges.thd_of (by with_reducible assumption) ?_
    | intro _
    | split
    | dsimp only
    | with_reducible refine OnlyChanges.of_mk ?_ rfl rfl

theorem State.served_only {s : State} (i : Nat) (f : Nat) (hw : [.arbiter] ⊆ pcs) (hs : OnlyChanges s0 s pcs) :
    OnlyChanges s0 (State.served s i f) pcs := by
  unfold State.served
  repeat' first
    | with_reducible assumption
    | with_reducible apply foldl_only
    | with_reducible refine OnlyChanges.snd_of (by with_reducible assumption) ?_
    | with_reducible refine OnlyChanges.thd_of (by with_reducible assumption) ?_
    | intro _
    | split
    | dsimp only
    | with_reducible refine OnlyChanges.of_mk ?_ rfl rfl

theorem State.take_only {s : State} (opcode : Nat) (c : CmdArgs) (hw : [.jobs] ⊆ pcs) (hs : OnlyChanges s0 s pcs) :
    OnlyChanges s0 (State.take s opcode c).2 pcs := by
  unfold State.take
  repeat' first
    | with_reducible assumption
    | with_reducible apply foldl_only
    | with_reducible refine OnlyChanges.snd_of (by with_reducible assumption) ?_
    | with_reducible refine OnlyChanges.thd_of (by with_reducible assumption) ?_
    | intro _
    | split
    | dsimp only
    | with_reducible refine OnlyChanges.of_mk ?_ rfl rfl

theorem State.keepEntry_only {s : State} (opcode : Nat) (c : CmdArgs) (hw : [.coreEntries] ⊆ pcs) (hs : OnlyChanges s0 s pcs) :
    OnlyChanges s0 (State.keepEntry s opcode c) pcs := by
  unfold State.keepEntry
  repeat' first
    | with_reducible assumption
    | with_reducible apply foldl_only
    | with_reducible refine OnlyChanges.snd_of (by with_reducible assumption) ?_
    | with_reducible refine OnlyChanges.thd_of (by with_reducible assumption) ?_
    | intro _
    | split
    | dsimp only
    | with_reducible refine OnlyChanges.of_mk ?_ rfl rfl

theorem State.carryEntry_only {s : State} (opcode : Nat) (c : CmdArgs) (carry : Job → State → State) (hw : [.out, .queues, .jobs, .msiPending] ⊆ pcs) (hs : OnlyChanges s0 s pcs) (hcarry : ∀ (y0 : Job) (y1 : State), OnlyChanges s0 y1 pcs → OnlyChanges s0 (carry y0 y1) pcs) :
    OnlyChanges s0 (State.carryEntry s opcode c carry) pcs := by
  unfold State.carryEntry
  repeat' first
    | with_reducible assumption
    | with_reducible apply foldl_only
    | with_reducible apply hcarry
    | with_reducible refine State.complete_only _ _ _ (List.Subset.trans (by decide) hw) ?_
    | with_reducible refine State.take_only _ _ (List.Subset.trans (by decide) hw) ?_
    | with_reducible refine OnlyChanges.snd_of (by with_reducible assumption) ?_
    | with_reducible refine OnlyChanges.thd_of (by with_reducible assumption) ?_
    | intro _
    | split
    | dsimp only

theorem State.command_only {s : State} (opcode : Nat) (c : CmdArgs) (carry : Job → State → State) (hw : [.out, .queues, .jobs, .coreEntries, .msiPending] ⊆ pcs) (hs : OnlyChanges s0 s pcs) (hcarry : ∀ (y0 : Job) (y1 : State), OnlyChanges s0 y1 pcs → OnlyChanges s0 (carry y0 y1) pcs) :
    OnlyChanges s0 (State.command s opcode c carry) pcs := by
  unfold State.command
  repeat' first
    | with_reducible assumption
    | with_reducible apply foldl_only
    | with_reducible apply hcarry
    | with_reducible refine State.keepEntry_only _ _ (List.Subset.trans (by decide) hw) ?_
    | with_reducible refine State.carryEntry_only _ _ _ (List.Subset.trans (by decide) hw) ?_ ?_
    | with_reducible refine OnlyChanges.snd_of (by with_reducible assumption) ?_
    | with_reducible refine OnlyChanges.thd_of (by with_reducible assumption) ?_
    | intro _
    | split
    | dsimp only

end Sys2Proof.Machine
end

