-- ==== Sys2Proof/Laws/FrameIslands.lean ====
section
/-! SUPPORT. What every operation of Machine/Islands.lean leaves alone. -/

namespace Sys2Proof.Machine

set_option Elab.async false
set_option linter.all false

variable {s0 : State} {pcs : List Piece}

theorem State.ungatePage_only {s : State} (pg : Page) (hw : [.regs] ⊆ pcs) (hs : OnlyChanges s0 s pcs) :
    OnlyChanges s0 (State.ungatePage s pg) pcs := by
  unfold State.ungatePage
  repeat' first
    | with_reducible assumption
    | with_reducible apply foldl_only
    | with_reducible refine State.setRw_only _ _ (List.Subset.trans (by decide) hw) ?_
    | with_reducible refine OnlyChanges.snd_of (by with_reducible assumption) ?_
    | with_reducible refine OnlyChanges.thd_of (by with_reducible assumption) ?_
    | intro _
    | split
    | dsimp only

end Sys2Proof.Machine
end

