-- ==== Sys2Proof/Laws/FrameAccess.lean ====
section
/-! SUPPORT. What every operation of Machine/Access.lean leaves alone. -/

namespace Sys2Proof.Machine

set_option Elab.async false
set_option linter.all false

variable {s0 : State} {pcs : List Piece}

theorem State.holdBack_only {s : State} (g : Nat) (w : Waiting) (hw : [.worlds] ⊆ pcs) (hs : OnlyChanges s0 s pcs) :
    OnlyChanges s0 (State.holdBack s g w) pcs := by
  unfold State.holdBack
  repeat' first
    | with_reducible assumption
    | with_reducible apply foldl_only
    | with_reducible refine OnlyChanges.snd_of (by with_reducible assumption) ?_
    | with_reducible refine OnlyChanges.thd_of (by with_reducible assumption) ?_
    | intro _
    | split
    | dsimp only
    | with_reducible refine OnlyChanges.of_mk ?_ rfl rfl

theorem State.access_only {s : State} (w : RegWr) (run : RegAcc → State → State) (hw : [.regs, .out, .worlds, .msiPending] ⊆ pcs) (hs : OnlyChanges s0 s pcs) (hrun : ∀ (y0 : RegAcc) (y1 : State), OnlyChanges s0 y1 pcs → OnlyChanges s0 (run y0 y1) pcs) :
    OnlyChanges s0 (State.access s w run) pcs := by
  unfold State.access
  repeat' first
    | with_reducible assumption
    | with_reducible apply foldl_only
    | with_reducible apply hrun
    | with_reducible refine State.recAcc_only _ _ (List.Subset.trans (by decide) hw) ?_
    | with_reducible refine State.holdBack_only _ _ (List.Subset.trans (by decide) hw) ?_
    | with_reducible refine OnlyChanges.snd_of (by with_reducible assumption) ?_
    | with_reducible refine OnlyChanges.thd_of (by with_reducible assumption) ?_
    | intro _
    | split
    | dsimp only

theorem State.accessAt_only {s : State} (w : RegWr) (here : RegAcc → Bool) (run : RegAcc → State → State) (hw : [.regs, .out, .worlds, .msiPending] ⊆ pcs) (hs : OnlyChanges s0 s pcs) (hrun : ∀ (y0 : RegAcc) (y1 : State), OnlyChanges s0 y1 pcs → OnlyChanges s0 (run y0 y1) pcs) :
    OnlyChanges s0 (State.accessAt s w here run) pcs := by
  unfold State.accessAt
  repeat' first
    | with_reducible assumption
    | with_reducible apply foldl_only
    | with_reducible apply hrun
    | with_reducible refine State.access_only _ _ (List.Subset.trans (by decide) hw) ?_ ?_
    | with_reducible refine OnlyChanges.snd_of (by with_reducible assumption) ?_
    | with_reducible refine OnlyChanges.thd_of (by with_reducible assumption) ?_
    | intro _
    | split
    | dsimp only

theorem State.mirrorWrite_only {before : State} {after : State} (a : RegAcc) (latch : Nat) (sel : Nat) (hw : [.pair] ⊆ pcs) (hafter : OnlyChanges s0 after pcs) :
    OnlyChanges s0 (State.mirrorWrite before after a latch sel) pcs := by
  unfold State.mirrorWrite
  repeat' first
    | with_reducible assumption
    | with_reducible apply foldl_only
    | with_reducible refine State.mirror_only _ (List.Subset.trans (by decide) hw) ?_
    | with_reducible refine OnlyChanges.snd_of (by with_reducible assumption) ?_
    | with_reducible refine OnlyChanges.thd_of (by with_reducible assumption) ?_
    | intro _
    | split
    | dsimp only

end Sys2Proof.Machine
end

