-- ==== Sys2Proof/Laws/FrameLog.lean ====
section
/-! SUPPORT. What every operation of Machine/Log.lean leaves alone. -/

namespace Sys2Proof.Machine

set_option Elab.async false
set_option linter.all false

variable {s0 : State} {pcs : List Piece}

theorem State.logEntry_only {s : State} (cls : Nat) (code : Nat) (source : Nat) (info : Nat) (fn : Nat) (hw : [.regs, .out, .faults, .msiPending] ⊆ pcs) (hs : OnlyChanges s0 s pcs) :
    OnlyChanges s0 (State.logEntry s cls code source info fn) pcs := by
  unfold State.logEntry
  repeat' first
    | with_reducible assumption
    | with_reducible apply foldl_only
    | with_reducible refine State.setFld_only _ _ _ _ (List.Subset.trans (by decide) hw) ?_
    | with_reducible refine State.satFld_only _ _ _ _ (List.Subset.trans (by decide) hw) ?_
    | with_reducible refine State.event_only _ _ (List.Subset.trans (by decide) hw) ?_
    | with_reducible refine OnlyChanges.snd_of (by with_reducible assumption) ?_
    | with_reducible refine OnlyChanges.thd_of (by with_reducible assumption) ?_
    | intro _
    | split
    | dsimp only
    | with_reducible refine OnlyChanges.of_mk ?_ rfl rfl

theorem State.report_only {s : State} (cls : Nat) (code : Nat) (source : Nat) (info : Nat) (fn : Nat) (hw : [.regs, .out, .faults, .msiPending] ⊆ pcs) (hs : OnlyChanges s0 s pcs) :
    OnlyChanges s0 (State.report s cls code source info fn) pcs := by
  unfold State.report
  repeat' first
    | with_reducible assumption
    | with_reducible apply foldl_only
    | with_reducible refine State.satFld_only _ _ _ _ (List.Subset.trans (by decide) hw) ?_
    | with_reducible refine State.event_only _ _ (List.Subset.trans (by decide) hw) ?_
    | with_reducible refine State.logEntry_only _ _ _ _ _ (List.Subset.trans (by decide) hw) ?_
    | with_reducible refine OnlyChanges.snd_of (by with_reducible assumption) ?_
    | with_reducible refine OnlyChanges.thd_of (by with_reducible assumption) ?_
    | intro _
    | split
    | dsimp only
    | with_reducible refine OnlyChanges.of_mk ?_ rfl rfl

theorem State.reportContained_only {s : State} (pg : Page) (code : Nat) (info : Nat) (fn : Nat) (hw : [.regs, .out, .faults, .msiPending] ⊆ pcs) (hs : OnlyChanges s0 s pcs) :
    OnlyChanges s0 (State.reportContained s pg code info fn) pcs := by
  unfold State.reportContained
  repeat' first
    | with_reducible assumption
    | with_reducible apply foldl_only
    | with_reducible refine State.report_only _ _ _ _ _ (List.Subset.trans (by decide) hw) ?_
    | with_reducible refine OnlyChanges.snd_of (by with_reducible assumption) ?_
    | with_reducible refine OnlyChanges.thd_of (by with_reducible assumption) ?_
    | intro _
    | split
    | dsimp only

theorem State.reportCorrected_only {s : State} (pg : Page) (code : Nat) (info : Nat) (hw : [.regs, .out, .faults, .msiPending] ⊆ pcs) (hs : OnlyChanges s0 s pcs) :
    OnlyChanges s0 (State.reportCorrected s pg code info) pcs := by
  unfold State.reportCorrected
  repeat' first
    | with_reducible assumption
    | with_reducible apply foldl_only
    | with_reducible refine State.report_only _ _ _ _ _ (List.Subset.trans (by decide) hw) ?_
    | with_reducible refine OnlyChanges.snd_of (by with_reducible assumption) ?_
    | with_reducible refine OnlyChanges.thd_of (by with_reducible assumption) ?_
    | intro _
    | split
    | dsimp only

theorem State.logInfo_only {s : State} (pg : Page) (code : Nat) (info : Nat) (hw : [.regs, .out, .faults, .msiPending] ⊆ pcs) (hs : OnlyChanges s0 s pcs) :
    OnlyChanges s0 (State.logInfo s pg code info) pcs := by
  unfold State.logInfo
  repeat' first
    | with_reducible assumption
    | with_reducible apply foldl_only
    | with_reducible refine State.logEntry_only _ _ _ _ _ (List.Subset.trans (by decide) hw) ?_
    | with_reducible refine OnlyChanges.snd_of (by with_reducible assumption) ?_
    | with_reducible refine OnlyChanges.thd_of (by with_reducible assumption) ?_
    | intro _
    | split
    | dsimp only

theorem State.containOutput_only {s : State} (pg : Page) (n : Nat) (code : Nat) (info : Nat) (fn : Nat) (hw : [.regs, .out, .faults, .msiPending] ⊆ pcs) (hs : OnlyChanges s0 s pcs) :
    OnlyChanges s0 (State.containOutput s pg n code info fn) pcs := by
  unfold State.containOutput
  repeat' first
    | with_reducible assumption
    | with_reducible apply foldl_only
    | with_reducible refine State.reportContained_only _ _ _ _ (List.Subset.trans (by decide) hw) ?_
    | with_reducible refine OnlyChanges.snd_of (by with_reducible assumption) ?_
    | with_reducible refine OnlyChanges.thd_of (by with_reducible assumption) ?_
    | intro _
    | split
    | dsimp only
    | with_reducible refine OnlyChanges.of_mk ?_ rfl rfl

end Sys2Proof.Machine
end

