-- ==== Sys2Proof/Laws/FrameMemory.lean ====
section
/-! SUPPORT. What every operation of Machine/Memory.lean leaves alone. -/

namespace Sys2Proof.Machine

set_option Elab.async false
set_option linter.all false

variable {s0 : State} {pcs : List Piece}

theorem State.settleCredit_only {s : State} (hw : [.dram] ⊆ pcs) (hs : OnlyChanges s0 s pcs) :
    OnlyChanges s0 (State.settleCredit s) pcs := by
  unfold State.settleCredit
  repeat' first
    | with_reducible assumption
    | with_reducible apply foldl_only
    | with_reducible refine OnlyChanges.snd_of (by with_reducible assumption) ?_
    | with_reducible refine OnlyChanges.thd_of (by with_reducible assumption) ?_
    | intro _
    | split
    | dsimp only
    | with_reducible refine OnlyChanges.of_mk ?_ rfl rfl

theorem State.storeWord_only {s : State} (a : Nat) (w : Nat) (hw : [.mem] ⊆ pcs) (hs : OnlyChanges s0 s pcs) :
    OnlyChanges s0 (State.storeWord s a w) pcs := by
  unfold State.storeWord
  repeat' first
    | with_reducible assumption
    | with_reducible apply foldl_only
    | with_reducible refine OnlyChanges.snd_of (by with_reducible assumption) ?_
    | with_reducible refine OnlyChanges.thd_of (by with_reducible assumption) ?_
    | intro _
    | split
    | dsimp only
    | with_reducible refine OnlyChanges.of_mk ?_ rfl rfl

theorem State.storePoison_only {s : State} (a : Nat) (hw : [.mem] ⊆ pcs) (hs : OnlyChanges s0 s pcs) :
    OnlyChanges s0 (State.storePoison s a) pcs := by
  unfold State.storePoison
  repeat' first
    | with_reducible assumption
    | with_reducible apply foldl_only
    | with_reducible refine OnlyChanges.snd_of (by with_reducible assumption) ?_
    | with_reducible refine OnlyChanges.thd_of (by with_reducible assumption) ?_
    | intro _
    | split
    | dsimp only
    | with_reducible refine OnlyChanges.of_mk ?_ rfl rfl

theorem State.pokeBytes_only {s : State} (a : Nat) (n : Nat) (v : Nat) (hw : [.mem] ⊆ pcs) (hs : OnlyChanges s0 s pcs) :
    OnlyChanges s0 (State.pokeBytes s a n v) pcs := by
  unfold State.pokeBytes
  repeat' first
    | with_reducible assumption
    | with_reducible apply foldl_only
    | with_reducible refine State.storeWord_only _ _ (List.Subset.trans (by decide) hw) ?_
    | with_reducible refine OnlyChanges.snd_of (by with_reducible assumption) ?_
    | with_reducible refine OnlyChanges.thd_of (by with_reducible assumption) ?_
    | intro _
    | split
    | dsimp only

theorem State.setOwnEntry_only {s : State} (x1 : Nat) (e : Nat) (hw : [.mem, .cache] ⊆ pcs) (hs : OnlyChanges s0 s pcs) :
    OnlyChanges s0 (State.setOwnEntry s x1 e) pcs := by
  unfold State.setOwnEntry
  repeat' first
    | with_reducible assumption
    | with_reducible apply foldl_only
    | with_reducible refine State.pokeBytes_only _ _ _ (List.Subset.trans (by decide) hw) ?_
    | with_reducible refine OnlyChanges.snd_of (by with_reducible assumption) ?_
    | with_reducible refine OnlyChanges.thd_of (by with_reducible assumption) ?_
    | intro _
    | split
    | dsimp only
    | with_reducible refine OnlyChanges.of_mk ?_ rfl rfl

theorem State.clearWritten_only {s : State} (x1 : Nat) (hw : [.mem, .cache] ⊆ pcs) (hs : OnlyChanges s0 s pcs) :
    OnlyChanges s0 (State.clearWritten s x1) pcs := by
  unfold State.clearWritten
  repeat' first
    | with_reducible assumption
    | with_reducible apply foldl_only
    | with_reducible refine State.setOwnEntry_only _ _ (List.Subset.trans (by decide) hw) ?_
    | with_reducible refine OnlyChanges.snd_of (by with_reducible assumption) ?_
    | with_reducible refine OnlyChanges.thd_of (by with_reducible assumption) ?_
    | intro _
    | split
    | dsimp only

theorem State.edacCopy_only {s : State} (w0 : Nat) (kind : Nat) (hw : [.regs, .out, .faults, .msiPending] ⊆ pcs) (hs : OnlyChanges s0 s pcs) :
    OnlyChanges s0 (State.edacCopy s w0 kind) pcs := by
  unfold State.edacCopy
  repeat' first
    | with_reducible assumption
    | with_reducible apply foldl_only
    | with_reducible refine State.logEntry_only _ _ _ _ _ (List.Subset.trans (by decide) hw) ?_
    | with_reducible refine OnlyChanges.snd_of (by with_reducible assumption) ?_
    | with_reducible refine OnlyChanges.thd_of (by with_reducible assumption) ?_
    | intro _
    | split
    | dsimp only

theorem State.edacLog_only {s : State} (who : Attr) (a : Nat) (kind : Nat) (position : Nat) (hw : [.regs, .out, .edac, .faults, .msiPending] ⊆ pcs) (hs : OnlyChanges s0 s pcs) :
    OnlyChanges s0 (State.edacLog s who a kind position) pcs := by
  unfold State.edacLog
  repeat' first
    | with_reducible assumption
    | with_reducible apply foldl_only
    | with_reducible refine State.setFld_only _ _ _ _ (List.Subset.trans (by decide) hw) ?_
    | with_reducible refine State.satFld_only _ _ _ _ (List.Subset.trans (by decide) hw) ?_
    | with_reducible refine State.event_only _ _ (List.Subset.trans (by decide) hw) ?_
    | with_reducible refine State.edacCopy_only _ _ (List.Subset.trans (by decide) hw) ?_
    | with_reducible refine OnlyChanges.snd_of (by with_reducible assumption) ?_
    | with_reducible refine OnlyChanges.thd_of (by with_reducible assumption) ?_
    | intro _
    | split
    | dsimp only
    | with_reducible refine OnlyChanges.of_mk ?_ rfl rfl

theorem State.noteCorrected_only {s : State} (who : Attr) (a : Nat) (w : Nat) (position : Nat) (hw : [.regs, .mem, .out, .edac, .faults, .msiPending] ⊆ pcs) (hs : OnlyChanges s0 s pcs) :
    OnlyChanges s0 (State.noteCorrected s who a w position) pcs := by
  unfold State.noteCorrected
  repeat' first
    | with_reducible assumption
    | with_reducible apply foldl_only
    | with_reducible refine State.satFld_only _ _ _ _ (List.Subset.trans (by decide) hw) ?_
    | with_reducible refine State.event_only _ _ (List.Subset.trans (by decide) hw) ?_
    | with_reducible refine State.storeWord_only _ _ (List.Subset.trans (by decide) hw) ?_
    | with_reducible refine State.edacLog_only _ _ _ _ (List.Subset.trans (by decide) hw) ?_
    | with_reducible refine OnlyChanges.snd_of (by with_reducible assumption) ?_
    | with_reducible refine OnlyChanges.thd_of (by with_reducible assumption) ?_
    | intro _
    | split
    | dsimp only

theorem State.noteUncorrectable_only {s : State} (who : Attr) (a : Nat) (kind : Nat) (hw : [.regs, .mem, .out, .edac, .cache, .faults, .msiPending] ⊆ pcs) (hs : OnlyChanges s0 s pcs) :
    OnlyChanges s0 (State.noteUncorrectable s who a kind) pcs := by
  unfold State.noteUncorrectable
  repeat' first
    | with_reducible assumption
    | with_reducible apply foldl_only
    | with_reducible refine State.satFld_only _ _ _ _ (List.Subset.trans (by decide) hw) ?_
    | with_reducible refine State.event_only _ _ (List.Subset.trans (by decide) hw) ?_
    | with_reducible refine State.storePoison_only _ (List.Subset.trans (by decide) hw) ?_
    | with_reducible refine State.clearWritten_only _ (List.Subset.trans (by decide) hw) ?_
    | with_reducible refine State.edacLog_only _ _ _ _ (List.Subset.trans (by decide) hw) ?_
    | with_reducible refine OnlyChanges.snd_of (by with_reducible assumption) ?_
    | with_reducible refine OnlyChanges.thd_of (by with_reducible assumption) ?_
    | intro _
    | split
    | dsimp only

theorem State.readWord_only {s : State} (who : Attr) (a : Nat) (hw : [.regs, .mem, .out, .edac, .cache, .faults, .msiPending] ⊆ pcs) (hs : OnlyChanges s0 s pcs) :
    OnlyChanges s0 (State.readWord s who a).2.2 pcs := by
  unfold State.readWord
  repeat' first
    | with_reducible assumption
    | with_reducible apply foldl_only
    | with_reducible refine State.satFld_only _ _ _ _ (List.Subset.trans (by decide) hw) ?_
    | with_reducible refine State.noteCorrected_only _ _ _ _ (List.Subset.trans (by decide) hw) ?_
    | with_reducible refine State.noteUncorrectable_only _ _ _ (List.Subset.trans (by decide) hw) ?_
    | with_reducible refine OnlyChanges.snd_of (by with_reducible assumption) ?_
    | with_reducible refine OnlyChanges.thd_of (by with_reducible assumption) ?_
    | intro _
    | split
    | dsimp only

theorem State.missOwner_only {s : State} (who : Attr) (x2 : Nat) (hw : [.regs, .mem, .out, .edac, .cache, .faults, .msiPending] ⊆ pcs) (hs : OnlyChanges s0 s pcs) :
    OnlyChanges s0 (State.missOwner s who x2).2 pcs := by
  unfold State.missOwner
  repeat' first
    | with_reducible assumption
    | with_reducible apply foldl_only
    | with_reducible refine State.addFld_only _ _ _ _ (List.Subset.trans (by decide) hw) ?_
    | with_reducible refine State.event_only _ _ (List.Subset.trans (by decide) hw) ?_
    | with_reducible refine State.recErr_only _ _ _ (List.Subset.trans (by decide) hw) ?_
    | with_reducible refine State.pmcCount_only _ _ _ _ _ (List.Subset.trans (by decide) hw) ?_
    | with_reducible refine State.reportContained_only _ _ _ _ (List.Subset.trans (by decide) hw) ?_
    | with_reducible refine State.readWord_only _ _ (List.Subset.trans (by decide) hw) ?_
    | with_reducible refine OnlyChanges.snd_of (by with_reducible assumption) ?_
    | with_reducible refine OnlyChanges.thd_of (by with_reducible assumption) ?_
    | intro _
    | split
    | dsimp only
    | with_reducible refine OnlyChanges.of_mk ?_ rfl rfl

theorem State.lookupOwner_only {s : State} (who : Attr) (x2 : Nat) (hw : [.regs, .mem, .out, .edac, .cache, .faults, .msiPending] ⊆ pcs) (hs : OnlyChanges s0 s pcs) :
    OnlyChanges s0 (State.lookupOwner s who x2).2 pcs := by
  unfold State.lookupOwner
  repeat' first
    | with_reducible assumption
    | with_reducible apply foldl_only
    | with_reducible refine State.addFld_only _ _ _ _ (List.Subset.trans (by decide) hw) ?_
    | with_reducible refine State.missOwner_only _ _ (List.Subset.trans (by decide) hw) ?_
    | with_reducible refine OnlyChanges.snd_of (by with_reducible assumption) ?_
    | with_reducible refine OnlyChanges.thd_of (by with_reducible assumption) ?_
    | intro _
    | split
    | dsimp only

theorem State.checkDram_only {s : State} (who : Attr) (write : Bool) (a : Nat) (hw : [.regs, .mem, .out, .edac, .cache, .faults, .msiPending] ⊆ pcs) (hs : OnlyChanges s0 s pcs) :
    OnlyChanges s0 (State.checkDram s who write a).2 pcs := by
  unfold State.checkDram
  repeat' first
    | with_reducible assumption
    | with_reducible apply foldl_only
    | with_reducible refine State.lookupOwner_only _ _ (List.Subset.trans (by decide) hw) ?_
    | with_reducible refine OnlyChanges.snd_of (by with_reducible assumption) ?_
    | with_reducible refine OnlyChanges.thd_of (by with_reducible assumption) ?_
    | intro _
    | split
    | dsimp only

theorem State.guardDram_only {s : State} (who : Attr) (write : Bool) (a : Nat) (hw : [.regs, .mem, .out, .edac, .cache, .faults, .msiPending] ⊆ pcs) (hs : OnlyChanges s0 s pcs) :
    OnlyChanges s0 (State.guardDram s who write a).2 pcs := by
  unfold State.guardDram
  repeat' first
    | with_reducible assumption
    | with_reducible apply foldl_only
    | with_reducible refine State.deny_only _ _ _ _ _ _ (List.Subset.trans (by decide) hw) ?_
    | with_reducible refine State.checkDram_only _ _ _ (List.Subset.trans (by decide) hw) ?_
    | with_reducible refine OnlyChanges.snd_of (by with_reducible assumption) ?_
    | with_reducible refine OnlyChanges.thd_of (by with_reducible assumption) ?_
    | intro _
    | split
    | dsimp only

theorem State.writeWordAs_only {s : State} (who : Attr) (a : Nat) (w : Nat) (hw : [.regs, .mem, .out, .edac, .cache, .faults, .msiPending] ⊆ pcs) (hs : OnlyChanges s0 s pcs) :
    OnlyChanges s0 (State.writeWordAs s who a w).2 pcs := by
  unfold State.writeWordAs
  repeat' first
    | with_reducible assumption
    | with_reducible apply foldl_only
    | with_reducible refine State.pmcCount_only _ _ _ _ _ (List.Subset.trans (by decide) hw) ?_
    | with_reducible refine State.storeWord_only _ _ (List.Subset.trans (by decide) hw) ?_
    | with_reducible refine State.guardDram_only _ _ _ (List.Subset.trans (by decide) hw) ?_
    | with_reducible refine OnlyChanges.snd_of (by with_reducible assumption) ?_
    | with_reducible refine OnlyChanges.thd_of (by with_reducible assumption) ?_
    | intro _
    | split
    | dsimp only

theorem State.readWordAs_only {s : State} (who : Attr) (a : Nat) (hw : [.regs, .mem, .out, .edac, .cache, .faults, .msiPending] ⊆ pcs) (hs : OnlyChanges s0 s pcs) :
    OnlyChanges s0 (State.readWordAs s who a).2.2 pcs := by
  unfold State.readWordAs
  repeat' first
    | with_reducible assumption
    | with_reducible apply foldl_only
    | with_reducible refine State.pmcCount_only _ _ _ _ _ (List.Subset.trans (by decide) hw) ?_
    | with_reducible refine State.readWord_only _ _ (List.Subset.trans (by decide) hw) ?_
    | with_reducible refine State.guardDram_only _ _ _ (List.Subset.trans (by decide) hw) ?_
    | with_reducible refine OnlyChanges.snd_of (by with_reducible assumption) ?_
    | with_reducible refine OnlyChanges.thd_of (by with_reducible assumption) ?_
    | intro _
    | split
    | dsimp only

end Sys2Proof.Machine
end

