-- ==== Sys2Proof/Laws/FrameWorlds.lean ====
section
/-! SUPPORT. What every operation of Machine/Worlds.lean leaves alone. -/

namespace Sys2Proof.Machine

set_option Elab.async false
set_option linter.all false

variable {s0 : State} {pcs : List Piece}

theorem State.watermarkWrite_only (a : RegAcc) {s : State} (hw : [.regs, .shad, .out, .msiPending] ⊆ pcs) (hs : OnlyChanges s0 s pcs) :
    OnlyChanges s0 (State.watermarkWrite a s) pcs := by
  unfold State.watermarkWrite
  repeat' first
    | with_reducible assumption
    | with_reducible apply foldl_only
    | with_reducible refine State.refuse_only _ _ (List.Subset.trans (by decide) hw) ?_
    | with_reducible refine State.plainWrite_only _ _ (List.Subset.trans (by decide) hw) ?_
    | with_reducible refine OnlyChanges.snd_of (by with_reducible assumption) ?_
    | with_reducible refine OnlyChanges.thd_of (by with_reducible assumption) ?_
    | intro _
    | split
    | dsimp only

theorem State.denyClear_only (a : RegAcc) {s : State} (hw : [.regs, .out, .msiPending] ⊆ pcs) (hs : OnlyChanges s0 s pcs) :
    OnlyChanges s0 (State.denyClear a s) pcs := by
  unfold State.denyClear
  repeat' first
    | with_reducible assumption
    | with_reducible apply foldl_only
    | with_reducible refine State.setRw_only _ _ (List.Subset.trans (by decide) hw) ?_
    | with_reducible refine State.recRefused_only _ (List.Subset.trans (by decide) hw) ?_
    | with_reducible refine OnlyChanges.snd_of (by with_reducible assumption) ?_
    | with_reducible refine OnlyChanges.thd_of (by with_reducible assumption) ?_
    | intro _
    | split
    | dsimp only

theorem State.holdWrite_only (a : RegAcc) {s : State} (hw : [.regs, .shad, .out, .worlds, .msiPending] ⊆ pcs) (hs : OnlyChanges s0 s pcs) :
    OnlyChanges s0 (State.holdWrite a s) pcs := by
  unfold State.holdWrite
  repeat' first
    | with_reducible assumption
    | with_reducible apply foldl_only
    | with_reducible refine State.plainWrite_only _ _ (List.Subset.trans (by decide) hw) ?_
    | with_reducible refine OnlyChanges.snd_of (by with_reducible assumption) ?_
    | with_reducible refine OnlyChanges.thd_of (by with_reducible assumption) ?_
    | intro _
    | split
    | dsimp only
    | with_reducible refine OnlyChanges.of_mk ?_ rfl rfl

theorem State.setCore_only {s : State} (k : Nat) (c : Core4) (hw : [.worlds] ⊆ pcs) (hs : OnlyChanges s0 s pcs) :
    OnlyChanges s0 (State.setCore s k c) pcs := by
  unfold State.setCore
  repeat' first
    | with_reducible assumption
    | with_reducible apply foldl_only
    | with_reducible refine OnlyChanges.snd_of (by with_reducible assumption) ?_
    | with_reducible refine OnlyChanges.thd_of (by with_reducible assumption) ?_
    | intro _
    | split
    | dsimp only
    | with_reducible refine OnlyChanges.of_mk ?_ rfl rfl

theorem State.freezeCore_only {s : State} (k : Nat) (on : Bool) (hw : [.regs] ⊆ pcs) (hs : OnlyChanges s0 s pcs) :
    OnlyChanges s0 (State.freezeCore s k on) pcs := by
  unfold State.freezeCore
  repeat' first
    | with_reducible assumption
    | with_reducible apply foldl_only
    | with_reducible refine State.setFld_only _ _ _ _ (List.Subset.trans (by decide) hw) ?_
    | with_reducible refine OnlyChanges.snd_of (by with_reducible assumption) ?_
    | with_reducible refine OnlyChanges.thd_of (by with_reducible assumption) ?_
    | intro _
    | split
    | dsimp only

theorem State.markCore_only {s : State} (k : Nat) (on : Bool) (hw : [.regs] ⊆ pcs) (hs : OnlyChanges s0 s pcs) :
    OnlyChanges s0 (State.markCore s k on) pcs := by
  unfold State.markCore
  repeat' first
    | with_reducible assumption
    | with_reducible apply foldl_only
    | with_reducible refine State.setFld_only _ _ _ _ (List.Subset.trans (by decide) hw) ?_
    | with_reducible refine OnlyChanges.snd_of (by with_reducible assumption) ?_
    | with_reducible refine OnlyChanges.thd_of (by with_reducible assumption) ?_
    | intro _
    | split
    | dsimp only

theorem State.scrub_only {s : State} (k : Nat) (r0 : Nat) (r1 : Nat) (hw : [.regs, .out, .worlds, .msiPending] ⊆ pcs) (hs : OnlyChanges s0 s pcs) :
    OnlyChanges s0 (State.scrub s k r0 r1) pcs := by
  unfold State.scrub
  repeat' first
    | with_reducible assumption
    | with_reducible apply foldl_only
    | with_reducible refine State.emit_only _ (List.Subset.trans (by decide) hw) ?_
    | with_reducible refine State.setCore_only _ _ (List.Subset.trans (by decide) hw) ?_
    | with_reducible refine State.freezeCore_only _ _ (List.Subset.trans (by decide) hw) ?_
    | with_reducible refine State.markCore_only _ _ (List.Subset.trans (by decide) hw) ?_
    | with_reducible refine OnlyChanges.snd_of (by with_reducible assumption) ?_
    | with_reducible refine OnlyChanges.thd_of (by with_reducible assumption) ?_
    | intro _
    | split
    | dsimp only
    | with_reducible refine OnlyChanges.of_mk ?_ rfl rfl

theorem State.gateReturn_only {s : State} (k : Nat) (r0 : Nat) (r1 : Nat) (hw : [.regs, .out, .worlds, .msiPending] ⊆ pcs) (hs : OnlyChanges s0 s pcs) :
    OnlyChanges s0 (State.gateReturn s k r0 r1) pcs := by
  unfold State.gateReturn
  repeat' first
    | with_reducible assumption
    | with_reducible apply foldl_only
    | with_reducible refine State.scrub_only _ _ _ (List.Subset.trans (by decide) hw) ?_
    | with_reducible refine OnlyChanges.snd_of (by with_reducible assumption) ?_
    | with_reducible refine OnlyChanges.thd_of (by with_reducible assumption) ?_
    | intro _
    | split
    | dsimp only

theorem State.gateTimeout_only {s : State} (k : Nat) (hw : [.regs, .out, .free, .worlds, .msiPending] ⊆ pcs) (hs : OnlyChanges s0 s pcs) :
    OnlyChanges s0 (State.gateTimeout s k) pcs := by
  unfold State.gateTimeout
  repeat' first
    | with_reducible assumption
    | with_reducible apply foldl_only
    | with_reducible refine State.takeFree_only  (List.Subset.trans (by decide) hw) ?_
    | with_reducible refine State.event_only _ _ (List.Subset.trans (by decide) hw) ?_
    | with_reducible refine State.scrub_only _ _ _ (List.Subset.trans (by decide) hw) ?_
    | with_reducible refine OnlyChanges.snd_of (by with_reducible assumption) ?_
    | with_reducible refine OnlyChanges.thd_of (by with_reducible assumption) ?_
    | intro _
    | split
    | dsimp only

theorem State.pmcSelWrite_only (a : RegAcc) {s : State} (hw : [.regs, .shad, .out, .msiPending] ⊆ pcs) (hs : OnlyChanges s0 s pcs) :
    OnlyChanges s0 (State.pmcSelWrite a s) pcs := by
  unfold State.pmcSelWrite
  repeat' first
    | with_reducible assumption
    | with_reducible apply foldl_only
    | with_reducible refine State.refuse_only _ _ (List.Subset.trans (by decide) hw) ?_
    | with_reducible refine State.plainWrite_only _ _ (List.Subset.trans (by decide) hw) ?_
    | with_reducible refine OnlyChanges.snd_of (by with_reducible assumption) ?_
    | with_reducible refine OnlyChanges.thd_of (by with_reducible assumption) ?_
    | intro _
    | split
    | dsimp only

theorem State.pmcCtrlWrite_only (a : RegAcc) {s : State} (hw : [.regs, .shad, .out, .msiPending] ⊆ pcs) (hs : OnlyChanges s0 s pcs) :
    OnlyChanges s0 (State.pmcCtrlWrite a s) pcs := by
  unfold State.pmcCtrlWrite
  repeat' first
    | with_reducible assumption
    | with_reducible apply foldl_only
    | with_reducible refine State.setFld_only _ _ _ _ (List.Subset.trans (by decide) hw) ?_
    | with_reducible refine State.plainWrite_only _ _ (List.Subset.trans (by decide) hw) ?_
    | with_reducible refine OnlyChanges.snd_of (by with_reducible assumption) ?_
    | with_reducible refine OnlyChanges.thd_of (by with_reducible assumption) ?_
    | intro _
    | split
    | dsimp only

end Sys2Proof.Machine
end

