-- ==== Sys2Proof/Laws/FrameAgeing.lean ====
section
/-! SUPPORT. What every operation of Machine/Ageing.lean leaves alone. -/

namespace Sys2Proof.Machine

set_option Elab.async false
set_option linter.all false

variable {s0 : State} {pcs : List Piece}

theorem State.ageStat_only {s : State} (hw : [.regs] ⊆ pcs) (hs : OnlyChanges s0 s pcs) :
    OnlyChanges s0 (State.ageStat s) pcs := by
  unfold State.ageStat
  repeat' first
    | with_reducible assumption
    | with_reducible apply foldl_only
    | with_reducible refine State.setFld_only _ _ _ _ (List.Subset.trans (by decide) hw) ?_
    | with_reducible refine OnlyChanges.snd_of (by with_reducible assumption) ?_
    | with_reducible refine OnlyChanges.thd_of (by with_reducible assumption) ?_
    | intro _
    | split
    | dsimp only

theorem State.setAge_only {s : State} (a : Age) (hw : [.regs, .age] ⊆ pcs) (hs : OnlyChanges s0 s pcs) :
    OnlyChanges s0 (State.setAge s a) pcs := by
  unfold State.setAge
  repeat' first
    | with_reducible assumption
    | with_reducible apply foldl_only
    | with_reducible refine State.ageStat_only  (List.Subset.trans (by decide) hw) ?_
    | with_reducible refine OnlyChanges.snd_of (by with_reducible assumption) ?_
    | with_reducible refine OnlyChanges.thd_of (by with_reducible assumption) ?_
    | intro _
    | split
    | dsimp only
    | with_reducible refine OnlyChanges.of_mk ?_ rfl rfl

theorem State.surveyDue_only {s : State} (cause : Nat) (hw : [.regs, .age] ⊆ pcs) (hs : OnlyChanges s0 s pcs) :
    OnlyChanges s0 (State.surveyDue s cause) pcs := by
  unfold State.surveyDue
  repeat' first
    | with_reducible assumption
    | with_reducible apply foldl_only
    | with_reducible refine State.setAge_only _ (List.Subset.trans (by decide) hw) ?_
    | with_reducible refine OnlyChanges.snd_of (by with_reducible assumption) ?_
    | with_reducible refine OnlyChanges.thd_of (by with_reducible assumption) ?_
    | intro _
    | split
    | dsimp only

theorem State.ageCtrlWrite_only (a : RegAcc) {s : State} (hw : [.regs, .shad, .out, .age, .msiPending] ⊆ pcs) (hs : OnlyChanges s0 s pcs) :
    OnlyChanges s0 (State.ageCtrlWrite a s) pcs := by
  unfold State.ageCtrlWrite
  repeat' first
    | with_reducible assumption
    | with_reducible apply foldl_only
    | with_reducible refine State.recErr_only _ _ _ (List.Subset.trans (by decide) hw) ?_
    | with_reducible refine State.recAcc_only _ _ (List.Subset.trans (by decide) hw) ?_
    | with_reducible refine State.plainWrite_only _ _ (List.Subset.trans (by decide) hw) ?_
    | with_reducible refine State.surveyDue_only _ (List.Subset.trans (by decide) hw) ?_
    | with_reducible refine OnlyChanges.snd_of (by with_reducible assumption) ?_
    | with_reducible refine OnlyChanges.thd_of (by with_reducible assumption) ?_
    | intro _
    | split
    | dsimp only

theorem State.reduceIsland_only {s : State} (i : Nat) (sl : Int) (tj : Int) (hw : [.regs, .out, .age, .faults, .msiPending] ⊆ pcs) (hs : OnlyChanges s0 s pcs) :
    OnlyChanges s0 (State.reduceIsland s i sl tj) pcs := by
  unfold State.reduceIsland
  repeat' first
    | with_reducible assumption
    | with_reducible apply foldl_only
    | with_reducible refine State.event_only _ _ (List.Subset.trans (by decide) hw) ?_
    | with_reducible refine State.reportContained_only _ _ _ _ (List.Subset.trans (by decide) hw) ?_
    | with_reducible refine OnlyChanges.snd_of (by with_reducible assumption) ?_
    | with_reducible refine OnlyChanges.thd_of (by with_reducible assumption) ?_
    | intro _
    | split
    | dsimp only
    | with_reducible refine OnlyChanges.of_mk ?_ rfl rfl

theorem State.surveyEnd_only {s : State} (tj : Int) (m : List (Int × Nat)) (hw : [.regs, .out, .age, .faults, .msiPending] ⊆ pcs) (hs : OnlyChanges s0 s pcs) :
    OnlyChanges s0 (State.surveyEnd s tj m) pcs := by
  unfold State.surveyEnd
  repeat' first
    | with_reducible assumption
    | with_reducible apply foldl_only
    | with_reducible refine State.setFld_only _ _ _ _ (List.Subset.trans (by decide) hw) ?_
    | with_reducible refine State.satFld_only _ _ _ _ (List.Subset.trans (by decide) hw) ?_
    | with_reducible refine State.event_only _ _ (List.Subset.trans (by decide) hw) ?_
    | with_reducible refine State.reportCorrected_only _ _ _ (List.Subset.trans (by decide) hw) ?_
    | with_reducible refine State.setAge_only _ (List.Subset.trans (by decide) hw) ?_
    | with_reducible refine State.reduceIsland_only _ _ _ (List.Subset.trans (by decide) hw) ?_
    | with_reducible refine OnlyChanges.snd_of (by with_reducible assumption) ?_
    | with_reducible refine OnlyChanges.thd_of (by with_reducible assumption) ?_
    | intro _
    | split
    | dsimp only

theorem State.storeLedger_only {s : State} (hw : [.age] ⊆ pcs) (hs : OnlyChanges s0 s pcs) :
    OnlyChanges s0 (State.storeLedger s) pcs := by
  unfold State.storeLedger
  repeat' first
    | with_reducible assumption
    | with_reducible apply foldl_only
    | with_reducible refine OnlyChanges.snd_of (by with_reducible assumption) ?_
    | with_reducible refine OnlyChanges.thd_of (by with_reducible assumption) ?_
    | intro _
    | split
    | dsimp only
    | with_reducible refine OnlyChanges.of_mk ?_ rfl rfl

theorem State.planDone_only {s : State} (hw : [.regs, .out, .age, .msiPending] ⊆ pcs) (hs : OnlyChanges s0 s pcs) :
    OnlyChanges s0 (State.planDone s) pcs := by
  unfold State.planDone
  repeat' first
    | with_reducible assumption
    | with_reducible apply foldl_only
    | with_reducible refine State.event_only _ _ (List.Subset.trans (by decide) hw) ?_
    | with_reducible refine State.setAge_only _ (List.Subset.trans (by decide) hw) ?_
    | with_reducible refine State.storeLedger_only  (List.Subset.trans (by decide) hw) ?_
    | with_reducible refine OnlyChanges.snd_of (by with_reducible assumption) ?_
    | with_reducible refine OnlyChanges.thd_of (by with_reducible assumption) ?_
    | intro _
    | split
    | dsimp only

theorem State.planStep_only {s : State} (hw : [.regs, .out, .age, .msiPending] ⊆ pcs) (hs : OnlyChanges s0 s pcs) :
    OnlyChanges s0 (State.planStep s) pcs := by
  unfold State.planStep
  repeat' first
    | with_reducible assumption
    | with_reducible apply foldl_only
    | with_reducible refine State.planDone_only  (List.Subset.trans (by decide) hw) ?_
    | with_reducible refine OnlyChanges.snd_of (by with_reducible assumption) ?_
    | with_reducible refine OnlyChanges.thd_of (by with_reducible assumption) ?_
    | intro _
    | split
    | dsimp only
    | with_reducible refine OnlyChanges.of_mk ?_ rfl rfl

theorem State.marginAlarm_only {s : State} (i : Nat) (hw : [.regs, .out, .age, .faults, .msiPending] ⊆ pcs) (hs : OnlyChanges s0 s pcs) :
    OnlyChanges s0 (State.marginAlarm s i) pcs := by
  unfold State.marginAlarm
  repeat' first
    | with_reducible assumption
    | with_reducible apply foldl_only
    | with_reducible refine State.event_only _ _ (List.Subset.trans (by decide) hw) ?_
    | with_reducible refine State.reportContained_only _ _ _ _ (List.Subset.trans (by decide) hw) ?_
    | with_reducible refine State.setAge_only _ (List.Subset.trans (by decide) hw) ?_
    | with_reducible refine State.surveyDue_only _ (List.Subset.trans (by decide) hw) ?_
    | with_reducible refine OnlyChanges.snd_of (by with_reducible assumption) ?_
    | with_reducible refine OnlyChanges.thd_of (by with_reducible assumption) ?_
    | intro _
    | split
    | dsimp only

theorem State.poweredHour_only {s : State} (hw : [.regs, .age] ⊆ pcs) (hs : OnlyChanges s0 s pcs) :
    OnlyChanges s0 (State.poweredHour s) pcs := by
  unfold State.poweredHour
  repeat' first
    | with_reducible assumption
    | with_reducible apply foldl_only
    | with_reducible refine State.surveyDue_only _ (List.Subset.trans (by decide) hw) ?_
    | with_reducible refine OnlyChanges.snd_of (by with_reducible assumption) ?_
    | with_reducible refine OnlyChanges.thd_of (by with_reducible assumption) ?_
    | intro _
    | split
    | dsimp only
    | with_reducible refine OnlyChanges.of_mk ?_ rfl rfl

theorem State.surveyDeferEnd_only {s : State} (hw : [.regs, .age] ⊆ pcs) (hs : OnlyChanges s0 s pcs) :
    OnlyChanges s0 (State.surveyDeferEnd s) pcs := by
  unfold State.surveyDeferEnd
  repeat' first
    | with_reducible assumption
    | with_reducible apply foldl_only
    | with_reducible refine State.setAge_only _ (List.Subset.trans (by decide) hw) ?_
    | with_reducible refine OnlyChanges.snd_of (by with_reducible assumption) ?_
    | with_reducible refine OnlyChanges.thd_of (by with_reducible assumption) ?_
    | intro _
    | split
    | dsimp only

end Sys2Proof.Machine
end

