-- ==== Sys2Proof/Laws/FramePool.lean ====
section
/-! SUPPORT. What every operation of Machine/Pool.lean leaves alone. -/

namespace Sys2Proof.Machine

set_option Elab.async false
set_option linter.all false

variable {s0 : State} {pcs : List Piece}

theorem State.setChan_only {s : State} (i : Nat) (c : Chan) (hw : [.chans] ⊆ pcs) (hs : OnlyChanges s0 s pcs) :
    OnlyChanges s0 (State.setChan s i c) pcs := by
  unfold State.setChan
  repeat' first
    | with_reducible assumption
    | with_reducible apply foldl_only
    | with_reducible refine OnlyChanges.snd_of (by with_reducible assumption) ?_
    | with_reducible refine OnlyChanges.thd_of (by with_reducible assumption) ?_
    | intro _
    | split
    | dsimp only
    | with_reducible refine OnlyChanges.of_mk ?_ rfl rfl

theorem State.setBuf_only {s : State} (i : Nat) (b : Buf) (hw : [.bufs] ⊆ pcs) (hs : OnlyChanges s0 s pcs) :
    OnlyChanges s0 (State.setBuf s i b) pcs := by
  unfold State.setBuf
  repeat' first
    | with_reducible assumption
    | with_reducible apply foldl_only
    | with_reducible refine OnlyChanges.snd_of (by with_reducible assumption) ?_
    | with_reducible refine OnlyChanges.thd_of (by with_reducible assumption) ?_
    | intro _
    | split
    | dsimp only
    | with_reducible refine OnlyChanges.of_mk ?_ rfl rfl

theorem State.noteLow_only {before : State} {after : State} (hw : [.regs, .out, .msiPending] ⊆ pcs) (hafter : OnlyChanges s0 after pcs) :
    OnlyChanges s0 (State.noteLow before after) pcs := by
  unfold State.noteLow
  repeat' first
    | with_reducible assumption
    | with_reducible apply foldl_only
    | with_reducible refine State.event_only _ _ (List.Subset.trans (by decide) hw) ?_
    | with_reducible refine OnlyChanges.snd_of (by with_reducible assumption) ?_
    | with_reducible refine OnlyChanges.thd_of (by with_reducible assumption) ?_
    | intro _
    | split
    | dsimp only

theorem State.disown_only {s : State} (x1 : Nat) (hw : [.mem, .cache] ⊆ pcs) (hs : OnlyChanges s0 s pcs) :
    OnlyChanges s0 (State.disown s x1) pcs := by
  unfold State.disown
  repeat' first
    | with_reducible assumption
    | with_reducible apply foldl_only
    | with_reducible refine State.setOwnEntry_only _ _ (List.Subset.trans (by decide) hw) ?_
    | with_reducible refine OnlyChanges.snd_of (by with_reducible assumption) ?_
    | with_reducible refine OnlyChanges.thd_of (by with_reducible assumption) ?_
    | intro _
    | split
    | dsimp only

theorem State.returnPlots_only {s : State} (ps : List Nat) (hw : [.regs, .mem, .out, .plots, .cache, .msiPending] ⊆ pcs) (hs : OnlyChanges s0 s pcs) :
    OnlyChanges s0 (State.returnPlots s ps) pcs := by
  unfold State.returnPlots
  repeat' first
    | with_reducible assumption
    | with_reducible apply foldl_only
    | with_reducible refine State.event_only _ _ (List.Subset.trans (by decide) hw) ?_
    | with_reducible refine State.disown_only _ (List.Subset.trans (by decide) hw) ?_
    | with_reducible refine OnlyChanges.snd_of (by with_reducible assumption) ?_
    | with_reducible refine OnlyChanges.thd_of (by with_reducible assumption) ?_
    | intro _
    | split
    | dsimp only
    | with_reducible refine OnlyChanges.of_mk ?_ rfl rfl

theorem State.chanDrained_only {s : State} (ci : Nat) (hw : [.regs, .out, .chans, .queues, .jobs, .msiPending, .pair] ⊆ pcs) (hs : OnlyChanges s0 s pcs) :
    OnlyChanges s0 (State.chanDrained s ci) pcs := by
  unfold State.chanDrained
  repeat' first
    | with_reducible assumption
    | with_reducible apply foldl_only
    | with_reducible refine State.event_only _ _ (List.Subset.trans (by decide) hw) ?_
    | with_reducible refine State.finishMirrored_only _ _ _ (List.Subset.trans (by decide) hw) ?_
    | with_reducible refine OnlyChanges.snd_of (by with_reducible assumption) ?_
    | with_reducible refine OnlyChanges.thd_of (by with_reducible assumption) ?_
    | intro _
    | split
    | dsimp only
    | with_reducible refine OnlyChanges.of_mk ?_ rfl rfl

theorem State.releaseBuf_only {s : State} (i : Nat) (hw : [.regs, .mem, .out, .bufs, .plots, .cache, .msiPending] ⊆ pcs) (hs : OnlyChanges s0 s pcs) :
    OnlyChanges s0 (State.releaseBuf s i) pcs := by
  unfold State.releaseBuf
  repeat' first
    | with_reducible assumption
    | with_reducible apply foldl_only
    | with_reducible refine State.noteLow_only  (List.Subset.trans (by decide) hw) ?_
    | with_reducible refine State.returnPlots_only _ (List.Subset.trans (by decide) hw) ?_
    | with_reducible refine OnlyChanges.snd_of (by with_reducible assumption) ?_
    | with_reducible refine OnlyChanges.thd_of (by with_reducible assumption) ?_
    | intro _
    | split
    | dsimp only
    | with_reducible refine OnlyChanges.of_mk ?_ rfl rfl

theorem State.freeBuf_only {s : State} (i : Nat) (jid : Option Nat) (hw : [.regs, .mem, .out, .bufs, .plots, .cache, .msiPending] ⊆ pcs) (hs : OnlyChanges s0 s pcs) :
    OnlyChanges s0 (State.freeBuf s i jid).2 pcs := by
  unfold State.freeBuf
  repeat' first
    | with_reducible assumption
    | with_reducible apply foldl_only
    | with_reducible refine State.setBuf_only _ _ (List.Subset.trans (by decide) hw) ?_
    | with_reducible refine State.releaseBuf_only _ (List.Subset.trans (by decide) hw) ?_
    | with_reducible refine OnlyChanges.snd_of (by with_reducible assumption) ?_
    | with_reducible refine OnlyChanges.thd_of (by with_reducible assumption) ?_
    | intro _
    | split
    | dsimp only

theorem State.destroyChan_only {s : State} (ci : Nat) (jid : Option Nat) (hw : [.regs, .mem, .out, .chans, .bufs, .plots, .cache, .msiPending] ⊆ pcs) (hs : OnlyChanges s0 s pcs) :
    OnlyChanges s0 (State.destroyChan s ci jid).2 pcs := by
  unfold State.destroyChan
  repeat' first
    | with_reducible assumption
    | with_reducible apply foldl_only
    | with_reducible refine State.setChan_only _ _ (List.Subset.trans (by decide) hw) ?_
    | with_reducible refine State.freeBuf_only _ _ (List.Subset.trans (by decide) hw) ?_
    | with_reducible refine OnlyChanges.snd_of (by with_reducible assumption) ?_
    | with_reducible refine OnlyChanges.thd_of (by with_reducible assumption) ?_
    | intro _
    | split
    | dsimp only
    | with_reducible refine OnlyChanges.of_mk ?_ rfl rfl

theorem State.fence_only {s : State} (i : Nat) (hw : [.bufs] ⊆ pcs) (hs : OnlyChanges s0 s pcs) :
    OnlyChanges s0 (State.fence s i) pcs := by
  unfold State.fence
  repeat' first
    | with_reducible assumption
    | with_reducible apply foldl_only
    | with_reducible refine State.setBuf_only _ _ (List.Subset.trans (by decide) hw) ?_
    | with_reducible refine OnlyChanges.snd_of (by with_reducible assumption) ?_
    | with_reducible refine OnlyChanges.thd_of (by with_reducible assumption) ?_
    | intro _
    | split
    | dsimp only

theorem State.unfence_only {s : State} (i : Nat) (hw : [.regs, .mem, .out, .chans, .bufs, .plots, .cache, .queues, .jobs, .msiPending, .pair] ⊆ pcs) (hs : OnlyChanges s0 s pcs) :
    OnlyChanges s0 (State.unfence s i) pcs := by
  unfold State.unfence
  repeat' first
    | with_reducible assumption
    | with_reducible apply foldl_only
    | with_reducible refine State.event_only _ _ (List.Subset.trans (by decide) hw) ?_
    | with_reducible refine State.finishMirrored_only _ _ _ (List.Subset.trans (by decide) hw) ?_
    | with_reducible refine State.setBuf_only _ _ (List.Subset.trans (by decide) hw) ?_
    | with_reducible refine State.chanDrained_only _ (List.Subset.trans (by decide) hw) ?_
    | with_reducible refine State.releaseBuf_only _ (List.Subset.trans (by decide) hw) ?_
    | with_reducible refine OnlyChanges.snd_of (by with_reducible assumption) ?_
    | with_reducible refine OnlyChanges.thd_of (by with_reducible assumption) ?_
    | intro _
    | split
    | dsimp only

theorem State.addBuf_only {s : State} (i : Nat) (b : Buf) (rest : Plots) (hw : [.bufs, .plots, .fillQueue] ⊆ pcs) (hs : OnlyChanges s0 s pcs) :
    OnlyChanges s0 (State.addBuf s i b rest) pcs := by
  unfold State.addBuf
  repeat' first
    | with_reducible assumption
    | with_reducible apply foldl_only
    | with_reducible refine OnlyChanges.snd_of (by with_reducible assumption) ?_
    | with_reducible refine OnlyChanges.thd_of (by with_reducible assumption) ?_
    | intro _
    | split
    | dsimp only
    | with_reducible refine OnlyChanges.of_mk ?_ rfl rfl

theorem State.notePeak_only {s : State} (f : Nat) (hw : [.peak] ⊆ pcs) (hs : OnlyChanges s0 s pcs) :
    OnlyChanges s0 (State.notePeak s f) pcs := by
  unfold State.notePeak
  repeat' first
    | with_reducible assumption
    | with_reducible apply foldl_only
    | with_reducible refine OnlyChanges.snd_of (by with_reducible assumption) ?_
    | with_reducible refine OnlyChanges.thd_of (by with_reducible assumption) ?_
    | intro _
    | split
    | dsimp only
    | with_reducible refine OnlyChanges.of_mk ?_ rfl rfl

theorem State.allocate_only {s : State} (ci : Nat) (f : Nat) (size : Nat) (jid : Option Nat) (hw : [.regs, .mem, .out, .bufs, .plots, .fillQueue, .peak, .cache, .msiPending] ⊆ pcs) (hs : OnlyChanges s0 s pcs) :
    OnlyChanges s0 (State.allocate s ci f size jid).2 pcs := by
  unfold State.allocate
  repeat' first
    | with_reducible assumption
    | with_reducible apply foldl_only
    | with_reducible refine State.setOwnEntry_only _ _ (List.Subset.trans (by decide) hw) ?_
    | with_reducible refine State.noteLow_only  (List.Subset.trans (by decide) hw) ?_
    | with_reducible refine State.addBuf_only _ _ _ (List.Subset.trans (by decide) hw) ?_
    | with_reducible refine State.notePeak_only _ (List.Subset.trans (by decide) hw) ?_
    | with_reducible refine OnlyChanges.snd_of (by with_reducible assumption) ?_
    | with_reducible refine OnlyChanges.thd_of (by with_reducible assumption) ?_
    | intro _
    | split
    | dsimp only

theorem State.allocDone_only {s : State} (j : Job) (i : Nat) (hw : [.out, .bufs, .queues, .jobs, .msiPending, .pair] ⊆ pcs) (hs : OnlyChanges s0 s pcs) :
    OnlyChanges s0 (State.allocDone s j i) pcs := by
  unfold State.allocDone
  repeat' first
    | with_reducible assumption
    | with_reducible apply foldl_only
    | with_reducible refine State.completeMirrored_only _ _ _ _ _ _ (List.Subset.trans (by decide) hw) ?_
    | with_reducible refine State.setBuf_only _ _ (List.Subset.trans (by decide) hw) ?_
    | with_reducible refine OnlyChanges.snd_of (by with_reducible assumption) ?_
    | with_reducible refine OnlyChanges.thd_of (by with_reducible assumption) ?_
    | intro _
    | split
    | dsimp only

theorem State.carryChannelCreate_only (j : Job) {s : State} (hw : [.regs, .out, .chans, .queues, .jobs, .msiPending, .pair] ⊆ pcs) (hs : OnlyChanges s0 s pcs) :
    OnlyChanges s0 (State.carryChannelCreate j s) pcs := by
  unfold State.carryChannelCreate
  repeat' first
    | with_reducible assumption
    | with_reducible apply foldl_only
    | with_reducible refine State.event_only _ _ (List.Subset.trans (by decide) hw) ?_
    | with_reducible refine State.complete_only _ _ _ (List.Subset.trans (by decide) hw) ?_
    | with_reducible refine State.completeMirrored_only _ _ _ _ _ _ (List.Subset.trans (by decide) hw) ?_
    | with_reducible refine OnlyChanges.snd_of (by with_reducible assumption) ?_
    | with_reducible refine OnlyChanges.thd_of (by with_reducible assumption) ?_
    | intro _
    | split
    | dsimp only
    | with_reducible refine OnlyChanges.of_mk ?_ rfl rfl

theorem State.carryChannelDestroy_only (j : Job) {s : State} (hw : [.regs, .mem, .out, .chans, .bufs, .plots, .cache, .queues, .jobs, .msiPending, .pair] ⊆ pcs) (hs : OnlyChanges s0 s pcs) :
    OnlyChanges s0 (State.carryChannelDestroy j s) pcs := by
  unfold State.carryChannelDestroy
  repeat' first
    | with_reducible assumption
    | with_reducible apply foldl_only
    | with_reducible refine State.complete_only _ _ _ (List.Subset.trans (by decide) hw) ?_
    | with_reducible refine State.completeMirrored_only _ _ _ _ _ _ (List.Subset.trans (by decide) hw) ?_
    | with_reducible refine State.destroyChan_only _ _ (List.Subset.trans (by decide) hw) ?_
    | with_reducible refine OnlyChanges.snd_of (by with_reducible assumption) ?_
    | with_reducible refine OnlyChanges.thd_of (by with_reducible assumption) ?_
    | intro _
    | split
    | dsimp only

theorem State.carryBufferAlloc_only (j : Job) {s : State} (hw : [.regs, .mem, .out, .bufs, .plots, .fillQueue, .peak, .cache, .queues, .jobs, .msiPending, .pair] ⊆ pcs) (hs : OnlyChanges s0 s pcs) :
    OnlyChanges s0 (State.carryBufferAlloc j s) pcs := by
  unfold State.carryBufferAlloc
  repeat' first
    | with_reducible assumption
    | with_reducible apply foldl_only
    | with_reducible refine State.event_only _ _ (List.Subset.trans (by decide) hw) ?_
    | with_reducible refine State.complete_only _ _ _ (List.Subset.trans (by decide) hw) ?_
    | with_reducible refine State.allocate_only _ _ _ _ (List.Subset.trans (by decide) hw) ?_
    | with_reducible refine State.allocDone_only _ _ (List.Subset.trans (by decide) hw) ?_
    | with_reducible refine OnlyChanges.snd_of (by with_reducible assumption) ?_
    | with_reducible refine OnlyChanges.thd_of (by with_reducible assumption) ?_
    | intro _
    | split
    | dsimp only

theorem State.carryBufferFree_only (j : Job) {s : State} (hw : [.regs, .mem, .out, .bufs, .plots, .cache, .queues, .jobs, .msiPending, .pair] ⊆ pcs) (hs : OnlyChanges s0 s pcs) :
    OnlyChanges s0 (State.carryBufferFree j s) pcs := by
  unfold State.carryBufferFree
  repeat' first
    | with_reducible assumption
    | with_reducible apply foldl_only
    | with_reducible refine State.complete_only _ _ _ (List.Subset.trans (by decide) hw) ?_
    | with_reducible refine State.completeMirrored_only _ _ _ _ _ _ (List.Subset.trans (by decide) hw) ?_
    | with_reducible refine State.freeBuf_only _ _ (List.Subset.trans (by decide) hw) ?_
    | with_reducible refine OnlyChanges.snd_of (by with_reducible assumption) ?_
    | with_reducible refine OnlyChanges.thd_of (by with_reducible assumption) ?_
    | intro _
    | split
    | dsimp only

theorem State.carryBufferQuery_only (j : Job) {s : State} (hw : [.out, .queues, .jobs, .msiPending] ⊆ pcs) (hs : OnlyChanges s0 s pcs) :
    OnlyChanges s0 (State.carryBufferQuery j s) pcs := by
  unfold State.carryBufferQuery
  repeat' first
    | with_reducible assumption
    | with_reducible apply foldl_only
    | with_reducible refine State.complete_only _ _ _ (List.Subset.trans (by decide) hw) ?_
    | with_reducible refine OnlyChanges.snd_of (by with_reducible assumption) ?_
    | with_reducible refine OnlyChanges.thd_of (by with_reducible assumption) ?_
    | intro _
    | split
    | dsimp only

theorem State.zeroRange_only {s : State} (a : Nat) (n : Nat) (hw : [.mem] ⊆ pcs) (hs : OnlyChanges s0 s pcs) :
    OnlyChanges s0 (State.zeroRange s a n) pcs := by
  unfold State.zeroRange
  repeat' first
    | with_reducible assumption
    | with_reducible apply foldl_only
    | with_reducible refine OnlyChanges.snd_of (by with_reducible assumption) ?_
    | with_reducible refine OnlyChanges.thd_of (by with_reducible assumption) ?_
    | intro _
    | split
    | dsimp only
    | with_reducible refine OnlyChanges.of_mk ?_ rfl rfl

theorem State.fillEnded_only {s : State} (i : Nat) (b : Buf) (hw : [.regs, .mem, .out, .chans, .bufs, .plots, .cache, .queues, .jobs, .msiPending, .pair] ⊆ pcs) (hs : OnlyChanges s0 s pcs) :
    OnlyChanges s0 (State.fillEnded s i b) pcs := by
  unfold State.fillEnded
  repeat' first
    | with_reducible assumption
    | with_reducible apply foldl_only
    | with_reducible refine State.mirror_only _ (List.Subset.trans (by decide) hw) ?_
    | with_reducible refine State.completeMirrored_only _ _ _ _ _ _ (List.Subset.trans (by decide) hw) ?_
    | with_reducible refine State.setBuf_only _ _ (List.Subset.trans (by decide) hw) ?_
    | with_reducible refine State.chanDrained_only _ (List.Subset.trans (by decide) hw) ?_
    | with_reducible refine State.freeBuf_only _ _ (List.Subset.trans (by decide) hw) ?_
    | with_reducible refine OnlyChanges.snd_of (by with_reducible assumption) ?_
    | with_reducible refine OnlyChanges.thd_of (by with_reducible assumption) ?_
    | intro _
    | split
    | dsimp only

theorem State.plotFillDone_only {s : State} (hw : [.regs, .mem, .out, .chans, .bufs, .plots, .fillQueue, .cache, .queues, .jobs, .msiPending, .pair] ⊆ pcs) (hs : OnlyChanges s0 s pcs) :
    OnlyChanges s0 (State.plotFillDone s) pcs := by
  unfold State.plotFillDone
  repeat' first
    | with_reducible assumption
    | with_reducible apply foldl_only
    | with_reducible refine State.addFld_only _ _ _ _ (List.Subset.trans (by decide) hw) ?_
    | with_reducible refine State.pmcCount_only _ _ _ _ _ (List.Subset.trans (by decide) hw) ?_
    | with_reducible refine State.setBuf_only _ _ (List.Subset.trans (by decide) hw) ?_
    | with_reducible refine State.zeroRange_only _ _ (List.Subset.trans (by decide) hw) ?_
    | with_reducible refine State.fillEnded_only _ _ (List.Subset.trans (by decide) hw) ?_
    | with_reducible refine OnlyChanges.snd_of (by with_reducible assumption) ?_
    | with_reducible refine OnlyChanges.thd_of (by with_reducible assumption) ?_
    | intro _
    | split
    | dsimp only
    | with_reducible refine OnlyChanges.of_mk ?_ rfl rfl

theorem State.bankedWrite_only (a : RegAcc) {s : State} (sel : Nat) (f : Fld) (accept : Nat → State → State) (hw : [.regs, .out, .msiPending] ⊆ pcs) (hs : OnlyChanges s0 s pcs) (haccept : ∀ (y0 : Nat) (y1 : State), OnlyChanges s0 y1 pcs → OnlyChanges s0 (accept y0 y1) pcs) :
    OnlyChanges s0 (State.bankedWrite a s sel f accept) pcs := by
  unfold State.bankedWrite
  repeat' first
    | with_reducible assumption
    | with_reducible apply foldl_only
    | with_reducible apply haccept
    | with_reducible refine State.recErr_only _ _ _ (List.Subset.trans (by decide) hw) ?_
    | with_reducible refine State.recRefused_only _ (List.Subset.trans (by decide) hw) ?_
    | with_reducible refine OnlyChanges.snd_of (by with_reducible assumption) ?_
    | with_reducible refine OnlyChanges.thd_of (by with_reducible assumption) ?_
    | intro _
    | split
    | dsimp only

theorem State.quotaWrite_only (a : RegAcc) {s : State} (hw : [.regs, .out, .msiPending, .pair] ⊆ pcs) (hs : OnlyChanges s0 s pcs) :
    OnlyChanges s0 (State.quotaWrite a s) pcs := by
  unfold State.quotaWrite
  repeat' first
    | with_reducible assumption
    | with_reducible apply foldl_only
    | with_reducible refine State.setRw_only _ _ (List.Subset.trans (by decide) hw) ?_
    | with_reducible refine State.recErr_only _ _ _ (List.Subset.trans (by decide) hw) ?_
    | with_reducible refine State.mirror_only _ (List.Subset.trans (by decide) hw) ?_
    | with_reducible refine State.bankedWrite_only _ _ _ _ (List.Subset.trans (by decide) hw) ?_ ?_
    | with_reducible refine OnlyChanges.snd_of (by with_reducible assumption) ?_
    | with_reducible refine OnlyChanges.thd_of (by with_reducible assumption) ?_
    | intro _
    | split
    | dsimp only

theorem State.shareWrite_only (a : RegAcc) {s : State} (hw : [.regs, .out, .msiPending, .pair] ⊆ pcs) (hs : OnlyChanges s0 s pcs) :
    OnlyChanges s0 (State.shareWrite a s) pcs := by
  unfold State.shareWrite
  repeat' first
    | with_reducible assumption
    | with_reducible apply foldl_only
    | with_reducible refine State.setRw_only _ _ (List.Subset.trans (by decide) hw) ?_
    | with_reducible refine State.recErr_only _ _ _ (List.Subset.trans (by decide) hw) ?_
    | with_reducible refine State.mirror_only _ (List.Subset.trans (by decide) hw) ?_
    | with_reducible refine State.bankedWrite_only _ _ _ _ (List.Subset.trans (by decide) hw) ?_ ?_
    | with_reducible refine OnlyChanges.snd_of (by with_reducible assumption) ?_
    | with_reducible refine OnlyChanges.thd_of (by with_reducible assumption) ?_
    | intro _
    | split
    | dsimp only

theorem State.limitWrite_only (a : RegAcc) {s : State} (hw : [.regs, .out, .msiPending, .pair] ⊆ pcs) (hs : OnlyChanges s0 s pcs) :
    OnlyChanges s0 (State.limitWrite a s) pcs := by
  unfold State.limitWrite
  repeat' first
    | with_reducible assumption
    | with_reducible apply foldl_only
    | with_reducible refine State.setRw_only _ _ (List.Subset.trans (by decide) hw) ?_
    | with_reducible refine State.recErr_only _ _ _ (List.Subset.trans (by decide) hw) ?_
    | with_reducible refine State.mirror_only _ (List.Subset.trans (by decide) hw) ?_
    | with_reducible refine State.bankedWrite_only _ _ _ _ (List.Subset.trans (by decide) hw) ?_ ?_
    | with_reducible refine OnlyChanges.snd_of (by with_reducible assumption) ?_
    | with_reducible refine OnlyChanges.thd_of (by with_reducible assumption) ?_
    | intro _
    | split
    | dsimp only

theorem State.lowMarkWrite_only (a : RegAcc) {s : State} (hw : [.regs, .shad, .out, .msiPending, .pair] ⊆ pcs) (hs : OnlyChanges s0 s pcs) :
    OnlyChanges s0 (State.lowMarkWrite a s) pcs := by
  unfold State.lowMarkWrite
  repeat' first
    | with_reducible assumption
    | with_reducible apply foldl_only
    | with_reducible refine State.plainWrite_only _ _ (List.Subset.trans (by decide) hw) ?_
    | with_reducible refine State.mirrorWrite_only _ _ _ (List.Subset.trans (by decide) hw) ?_
    | with_reducible refine State.noteLow_only  (List.Subset.trans (by decide) hw) ?_
    | with_reducible refine OnlyChanges.snd_of (by with_reducible assumption) ?_
    | with_reducible refine OnlyChanges.thd_of (by with_reducible assumption) ?_
    | intro _
    | split
    | dsimp only

theorem State.peakClear_only (a : RegAcc) {s : State} (hw : [.regs, .out, .peak, .msiPending] ⊆ pcs) (hs : OnlyChanges s0 s pcs) :
    OnlyChanges s0 (State.peakClear a s) pcs := by
  unfold State.peakClear
  repeat' first
    | with_reducible assumption
    | with_reducible apply foldl_only
    | with_reducible refine State.recErr_only _ _ _ (List.Subset.trans (by decide) hw) ?_
    | with_reducible refine State.denyReg_only _ (List.Subset.trans (by decide) hw) ?_
    | with_reducible refine OnlyChanges.snd_of (by with_reducible assumption) ?_
    | with_reducible refine OnlyChanges.thd_of (by with_reducible assumption) ?_
    | intro _
    | split
    | dsimp only
    | with_reducible refine OnlyChanges.of_mk ?_ rfl rfl

theorem State.poolPlaceWrite_only (a : RegAcc) {s : State} (hw : [.regs, .shad, .out, .msiPending, .pair] ⊆ pcs) (hs : OnlyChanges s0 s pcs) :
    OnlyChanges s0 (State.poolPlaceWrite a s) pcs := by
  unfold State.poolPlaceWrite
  repeat' first
    | with_reducible assumption
    | with_reducible apply foldl_only
    | with_reducible refine State.refuse_only _ _ (List.Subset.trans (by decide) hw) ?_
    | with_reducible refine State.plainWrite_only _ _ (List.Subset.trans (by decide) hw) ?_
    | with_reducible refine State.mirrorWrite_only _ _ _ (List.Subset.trans (by decide) hw) ?_
    | with_reducible refine OnlyChanges.snd_of (by with_reducible assumption) ?_
    | with_reducible refine OnlyChanges.thd_of (by with_reducible assumption) ?_
    | intro _
    | split
    | dsimp only

theorem State.retirePlot_only {s : State} (x1 : Nat) (hw : [.regs, .out, .plots, .msiPending] ⊆ pcs) (hs : OnlyChanges s0 s pcs) :
    OnlyChanges s0 (State.retirePlot s x1) pcs := by
  unfold State.retirePlot
  repeat' first
    | with_reducible assumption
    | with_reducible apply foldl_only
    | with_reducible refine State.event_only _ _ (List.Subset.trans (by decide) hw) ?_
    | with_reducible refine State.noteLow_only  (List.Subset.trans (by decide) hw) ?_
    | with_reducible refine OnlyChanges.snd_of (by with_reducible assumption) ?_
    | with_reducible refine OnlyChanges.thd_of (by with_reducible assumption) ?_
    | intro _
    | split
    | dsimp only
    | with_reducible refine OnlyChanges.of_mk ?_ rfl rfl

theorem State.startPool_only {s : State} (hw : [.regs, .out, .plots, .msiPending] ⊆ pcs) (hs : OnlyChanges s0 s pcs) :
    OnlyChanges s0 (State.startPool s) pcs := by
  unfold State.startPool
  repeat' first
    | with_reducible assumption
    | with_reducible apply foldl_only
    | with_reducible refine State.retirePlot_only _ (List.Subset.trans (by decide) hw) ?_
    | with_reducible refine OnlyChanges.snd_of (by with_reducible assumption) ?_
    | with_reducible refine OnlyChanges.thd_of (by with_reducible assumption) ?_
    | intro _
    | split
    | dsimp only
    | with_reducible refine OnlyChanges.of_mk ?_ rfl rfl

theorem State.poolEnable_only (a : RegAcc) {s : State} (hw : [.regs, .out, .plots, .msiPending, .pair] ⊆ pcs) (hs : OnlyChanges s0 s pcs) :
    OnlyChanges s0 (State.poolEnable a s) pcs := by
  unfold State.poolEnable
  repeat' first
    | with_reducible assumption
    | with_reducible apply foldl_only
    | with_reducible refine State.setFld_only _ _ _ _ (List.Subset.trans (by decide) hw) ?_
    | with_reducible refine State.recErr_only _ _ _ (List.Subset.trans (by decide) hw) ?_
    | with_reducible refine State.mirrorWrite_only _ _ _ (List.Subset.trans (by decide) hw) ?_
    | with_reducible refine State.noteLow_only  (List.Subset.trans (by decide) hw) ?_
    | with_reducible refine State.startPool_only  (List.Subset.trans (by decide) hw) ?_
    | with_reducible refine OnlyChanges.snd_of (by with_reducible assumption) ?_
    | with_reducible refine OnlyChanges.thd_of (by with_reducible assumption) ?_
    | intro _
    | split
    | dsimp only

theorem State.poolDisable_only (a : RegAcc) {s : State} (hw : [.regs, .out, .msiPending, .pair] ⊆ pcs) (hs : OnlyChanges s0 s pcs) :
    OnlyChanges s0 (State.poolDisable a s) pcs := by
  unfold State.poolDisable
  repeat' first
    | with_reducible assumption
    | with_reducible apply foldl_only
    | with_reducible refine State.setFld_only _ _ _ _ (List.Subset.trans (by decide) hw) ?_
    | with_reducible refine State.recAcc_only _ _ (List.Subset.trans (by decide) hw) ?_
    | with_reducible refine State.mirrorWrite_only _ _ _ (List.Subset.trans (by decide) hw) ?_
    | with_reducible refine OnlyChanges.snd_of (by with_reducible assumption) ?_
    | with_reducible refine OnlyChanges.thd_of (by with_reducible assumption) ?_
    | intro _
    | split
    | dsimp only

end Sys2Proof.Machine
end

