-- ==== Sys2Proof/Laws/FrameFurrow.lean ====
section
/-! SUPPORT. What every operation of Machine/Furrow.lean leaves alone. -/

namespace Sys2Proof.Machine

set_option Elab.async false
set_option linter.all false

variable {s0 : State} {pcs : List Piece}

theorem State.setDisp_only {s : State} (n : Nat) (d : Disp) (hw : [.display] ⊆ pcs) (hs : OnlyChanges s0 s pcs) :
    OnlyChanges s0 (State.setDisp s n d) pcs := by
  unfold State.setDisp
  repeat' first
    | with_reducible assumption
    | with_reducible apply foldl_only
    | with_reducible refine OnlyChanges.snd_of (by with_reducible assumption) ?_
    | with_reducible refine OnlyChanges.thd_of (by with_reducible assumption) ?_
    | intro _
    | split
    | dsimp only
    | with_reducible refine OnlyChanges.of_mk ?_ rfl rfl

theorem State.armedView_only {s : State} (entries : List (Nat × Nat)) (hw : [.regs] ⊆ pcs) (hs : OnlyChanges s0 s pcs) :
    OnlyChanges s0 (State.armedView s entries) pcs := by
  unfold State.armedView
  repeat' first
    | with_reducible assumption
    | with_reducible apply foldl_only
    | with_reducible refine State.setRw_only _ _ (List.Subset.trans (by decide) hw) ?_
    | with_reducible refine OnlyChanges.snd_of (by with_reducible assumption) ?_
    | with_reducible refine OnlyChanges.thd_of (by with_reducible assumption) ?_
    | intro _
    | split
    | dsimp only

theorem State.grantResources_only {s : State} {v : State} (outs : List Nat) (inSet : Nat → Bool) (hw : [.display] ⊆ pcs) (hs : OnlyChanges s0 s pcs) :
    OnlyChanges s0 (State.grantResources s v outs inSet) pcs := by
  unfold State.grantResources
  repeat' first
    | with_reducible assumption
    | with_reducible apply foldl_only
    | with_reducible refine OnlyChanges.snd_of (by with_reducible assumption) ?_
    | with_reducible refine OnlyChanges.thd_of (by with_reducible assumption) ?_
    | intro _
    | split
    | dsimp only
    | with_reducible refine OnlyChanges.of_mk ?_ rfl rfl

theorem State.settleStore_only {s : State} (n : Nat) (hw : [.display] ⊆ pcs) (hs : OnlyChanges s0 s pcs) :
    OnlyChanges s0 (State.settleStore s n) pcs := by
  unfold State.settleStore
  repeat' first
    | with_reducible assumption
    | with_reducible apply foldl_only
    | with_reducible refine OnlyChanges.snd_of (by with_reducible assumption) ?_
    | with_reducible refine OnlyChanges.thd_of (by with_reducible assumption) ?_
    | intro _
    | split
    | dsimp only
    | with_reducible refine OnlyChanges.of_mk ?_ rfl rfl

theorem State.resetGrant_only {s : State} (n : Nat) (k : Nat) (hw : [.display] ⊆ pcs) (hs : OnlyChanges s0 s pcs) :
    OnlyChanges s0 (State.resetGrant s n k) pcs := by
  unfold State.resetGrant
  repeat' first
    | with_reducible assumption
    | with_reducible apply foldl_only
    | with_reducible refine State.settleStore_only _ (List.Subset.trans (by decide) hw) ?_
    | with_reducible refine OnlyChanges.snd_of (by with_reducible assumption) ?_
    | with_reducible refine OnlyChanges.thd_of (by with_reducible assumption) ?_
    | intro _
    | split
    | dsimp only
    | with_reducible refine OnlyChanges.of_mk ?_ rfl rfl

theorem State.takeSlotFences_only {s : State} {v : State} (ids : List Nat) (hw : [.bufs, .display] ⊆ pcs) (hs : OnlyChanges s0 s pcs) :
    OnlyChanges s0 (State.takeSlotFences s v ids) pcs := by
  unfold State.takeSlotFences
  repeat' first
    | with_reducible assumption
    | with_reducible apply foldl_only
    | with_reducible refine State.fence_only _ (List.Subset.trans (by decide) hw) ?_
    | with_reducible refine OnlyChanges.snd_of (by with_reducible assumption) ?_
    | with_reducible refine OnlyChanges.thd_of (by with_reducible assumption) ?_
    | intro _
    | split
    | dsimp only
    | with_reducible refine OnlyChanges.of_mk ?_ rfl rfl

theorem State.settleFences_only {s : State} (n : Nat) (hw : [.regs, .mem, .out, .chans, .bufs, .plots, .cache, .display, .queues, .jobs, .msiPending, .pair] ⊆ pcs) (hs : OnlyChanges s0 s pcs) :
    OnlyChanges s0 (State.settleFences s n) pcs := by
  unfold State.settleFences
  repeat' first
    | with_reducible assumption
    | with_reducible apply foldl_only
    | with_reducible refine State.unfence_only _ (List.Subset.trans (by decide) hw) ?_
    | with_reducible refine State.armedView_only _ (List.Subset.trans (by decide) hw) ?_
    | with_reducible refine OnlyChanges.snd_of (by with_reducible assumption) ?_
    | with_reducible refine OnlyChanges.thd_of (by with_reducible assumption) ?_
    | intro _
    | split
    | dsimp only
    | with_reducible refine OnlyChanges.of_mk ?_ rfl rfl

theorem State.readBuf_only {s : State} (who : Attr) (x2 : Nat) (b : Nat) (x4 : Nat) (hw : [.regs, .mem, .out, .edac, .cache, .faults, .msiPending] ⊆ pcs) (hs : OnlyChanges s0 s pcs) :
    OnlyChanges s0 (State.readBuf s who x2 b x4).2 pcs := by
  induction x4 generalizing s who x2 b with
  | zero =>
    unfold State.readBuf
    repeat' first
      | with_reducible assumption
      | with_reducible apply foldl_only
      | with_reducible refine State.readWordAs_only _ _ (List.Subset.trans (by decide) hw) ?_
      | with_reducible refine OnlyChanges.snd_of (by with_reducible assumption) ?_
      | with_reducible refine OnlyChanges.thd_of (by with_reducible assumption) ?_
      | intro _
      | split
      | dsimp only
  | succ _ ih =>
    unfold State.readBuf
    repeat' first
      | with_reducible assumption
      | with_reducible apply ih
      | with_reducible apply foldl_only
      | with_reducible refine State.readWordAs_only _ _ (List.Subset.trans (by decide) hw) ?_
      | with_reducible refine OnlyChanges.snd_of (by with_reducible assumption) ?_
      | with_reducible refine OnlyChanges.thd_of (by with_reducible assumption) ?_
      | intro _
      | split
      | dsimp only

theorem State.readSheet_only {s : State} (who : Attr) (sl : Compose.Slot) (hw : [.regs, .mem, .out, .edac, .cache, .faults, .msiPending] ⊆ pcs) (hs : OnlyChanges s0 s pcs) :
    OnlyChanges s0 (State.readSheet s who sl).2 pcs := by
  unfold State.readSheet
  repeat' first
    | with_reducible apply foldl_only_snd
    | with_reducible assumption
    | with_reducible apply foldl_only
    | with_reducible refine State.readBuf_only _ _ _ _ (List.Subset.trans (by decide) hw) ?_
    | with_reducible refine OnlyChanges.snd_of (by with_reducible assumption) ?_
    | with_reducible refine OnlyChanges.thd_of (by with_reducible assumption) ?_
    | intro _
    | split
    | dsimp only

theorem State.loadSheet_only {s : State} {v : State} (i : Nat) (hw : [.regs, .mem, .out, .edac, .cache, .display, .faults, .msiPending] ⊆ pcs) (hs : OnlyChanges s0 s pcs) :
    OnlyChanges s0 (State.loadSheet s v i) pcs := by
  unfold State.loadSheet
  repeat' first
    | with_reducible assumption
    | with_reducible apply foldl_only
    | with_reducible refine State.setDisp_only _ _ (List.Subset.trans (by decide) hw) ?_
    | with_reducible refine State.readSheet_only _ _ (List.Subset.trans (by decide) hw) ?_
    | with_reducible refine OnlyChanges.snd_of (by with_reducible assumption) ?_
    | with_reducible refine OnlyChanges.thd_of (by with_reducible assumption) ?_
    | intro _
    | split
    | dsimp only

theorem State.loadSheets_only {s : State} {v : State} (ids : List Nat) (hw : [.regs, .mem, .out, .edac, .cache, .display, .faults, .msiPending] ⊆ pcs) (hs : OnlyChanges s0 s pcs) :
    OnlyChanges s0 (State.loadSheets s v ids) pcs := by
  unfold State.loadSheets
  repeat' first
    | with_reducible assumption
    | with_reducible apply foldl_only
    | with_reducible refine State.loadSheet_only _ (List.Subset.trans (by decide) hw) ?_
    | with_reducible refine OnlyChanges.snd_of (by with_reducible assumption) ?_
    | with_reducible refine OnlyChanges.thd_of (by with_reducible assumption) ?_
    | intro _
    | split
    | dsimp only

end Sys2Proof.Machine
end

