-- ==== Sys2Proof/Laws/FrameCommit.lean ====
section
/-! SUPPORT. What every operation of Machine/Commit.lean leaves alone. -/

namespace Sys2Proof.Machine

set_option Elab.async false
set_option linter.all false

variable {s0 : State} {pcs : List Piece}

theorem State.discardWords_only {s : State} (n : Nat) (which : Nat → Bool) (hw : [.shad] ⊆ pcs) (hs : OnlyChanges s0 s pcs) :
    OnlyChanges s0 (State.discardWords s n which) pcs := by
  unfold State.discardWords
  repeat' first
    | with_reducible assumption
    | with_reducible apply foldl_only
    | with_reducible refine State.setSw_only _ _ (List.Subset.trans (by decide) hw) ?_
    | with_reducible refine OnlyChanges.snd_of (by with_reducible assumption) ?_
    | with_reducible refine OnlyChanges.thd_of (by with_reducible assumption) ?_
    | intro _
    | split
    | dsimp only

theorem State.nextView_only {s : State} (hw : [.regs] ⊆ pcs) (hs : OnlyChanges s0 s pcs) :
    OnlyChanges s0 (State.nextView s) pcs := by
  unfold State.nextView
  repeat' first
    | with_reducible assumption
    | with_reducible apply foldl_only
    | with_reducible refine State.setRw_only _ _ (List.Subset.trans (by decide) hw) ?_
    | with_reducible refine OnlyChanges.snd_of (by with_reducible assumption) ?_
    | with_reducible refine OnlyChanges.thd_of (by with_reducible assumption) ?_
    | intro _
    | split
    | dsimp only

theorem State.putCommit_only {s : State} (c : Commit) (hw : [.display] ⊆ pcs) (hs : OnlyChanges s0 s pcs) :
    OnlyChanges s0 (State.putCommit s c) pcs := by
  unfold State.putCommit
  repeat' first
    | with_reducible assumption
    | with_reducible apply foldl_only
    | with_reducible refine OnlyChanges.snd_of (by with_reducible assumption) ?_
    | with_reducible refine OnlyChanges.thd_of (by with_reducible assumption) ?_
    | intro _
    | split
    | dsimp only
    | with_reducible refine OnlyChanges.of_mk ?_ rfl rfl

theorem State.dropCommit_only {s : State} (c : Commit) (hw : [.display] ⊆ pcs) (hs : OnlyChanges s0 s pcs) :
    OnlyChanges s0 (State.dropCommit s c) pcs := by
  unfold State.dropCommit
  repeat' first
    | with_reducible assumption
    | with_reducible apply foldl_only
    | with_reducible refine OnlyChanges.snd_of (by with_reducible assumption) ?_
    | with_reducible refine OnlyChanges.thd_of (by with_reducible assumption) ?_
    | intro _
    | split
    | dsimp only
    | with_reducible refine OnlyChanges.of_mk ?_ rfl rfl

theorem State.endCommit_only {s : State} (c : Commit) (status : Nat) (res : List Nat) (hw : [.out, .queues, .jobs, .msiPending] ⊆ pcs) (hs : OnlyChanges s0 s pcs) :
    OnlyChanges s0 (State.endCommit s c status res) pcs := by
  unfold State.endCommit
  repeat' first
    | with_reducible assumption
    | with_reducible apply foldl_only
    | with_reducible refine State.finishOpt_only _ _ _ (List.Subset.trans (by decide) hw) ?_
    | with_reducible refine OnlyChanges.snd_of (by with_reducible assumption) ?_
    | with_reducible refine OnlyChanges.thd_of (by with_reducible assumption) ?_
    | intro _
    | split
    | dsimp only

theorem State.moveWord_only {s : State} (c : Commit) (e : Nat × Nat) (hw : [.regs, .shad, .dram] ⊆ pcs) (hs : OnlyChanges s0 s pcs) :
    OnlyChanges s0 (State.moveWord s c e) pcs := by
  unfold State.moveWord
  repeat' first
    | with_reducible assumption
    | with_reducible apply foldl_only
    | with_reducible refine State.setRw_only _ _ (List.Subset.trans (by decide) hw) ?_
    | with_reducible refine State.setSw_only _ _ (List.Subset.trans (by decide) hw) ?_
    | with_reducible refine State.settleCredit_only  (List.Subset.trans (by decide) hw) ?_
    | with_reducible refine OnlyChanges.snd_of (by with_reducible assumption) ?_
    | with_reducible refine OnlyChanges.thd_of (by with_reducible assumption) ?_
    | intro _
    | split
    | dsimp only

theorem State.moveCommit_only {s : State} (c : Commit) (outs : List Nat) (hw : [.regs, .shad, .dram, .display] ⊆ pcs) (hs : OnlyChanges s0 s pcs) :
    OnlyChanges s0 (State.moveCommit s c outs) pcs := by
  unfold State.moveCommit
  repeat' first
    | with_reducible assumption
    | with_reducible apply foldl_only
    | with_reducible refine State.putCommit_only _ (List.Subset.trans (by decide) hw) ?_
    | with_reducible refine State.moveWord_only _ _ (List.Subset.trans (by decide) hw) ?_
    | with_reducible refine OnlyChanges.snd_of (by with_reducible assumption) ?_
    | with_reducible refine OnlyChanges.thd_of (by with_reducible assumption) ?_
    | intro _
    | split
    | dsimp only
    | with_reducible refine OnlyChanges.of_mk ?_ rfl rfl

theorem State.commitDone_only {s : State} (c : Commit) (frame : Nat) (hw : [.out, .display, .queues, .jobs, .msiPending] ⊆ pcs) (hs : OnlyChanges s0 s pcs) :
    OnlyChanges s0 (State.commitDone s c frame) pcs := by
  unfold State.commitDone
  repeat' first
    | with_reducible assumption
    | with_reducible apply foldl_only
    | with_reducible refine State.putCommit_only _ (List.Subset.trans (by decide) hw) ?_
    | with_reducible refine State.dropCommit_only _ (List.Subset.trans (by decide) hw) ?_
    | with_reducible refine State.endCommit_only _ _ _ (List.Subset.trans (by decide) hw) ?_
    | with_reducible refine OnlyChanges.snd_of (by with_reducible assumption) ?_
    | with_reducible refine OnlyChanges.thd_of (by with_reducible assumption) ?_
    | intro _
    | split
    | dsimp only

theorem State.takeResources_only {s : State} (c : Commit) (hw : [.regs, .mem, .out, .edac, .bufs, .cache, .display, .faults, .msiPending] ⊆ pcs) (hs : OnlyChanges s0 s pcs) :
    OnlyChanges s0 (State.takeResources s c) pcs := by
  unfold State.takeResources
  repeat' first
    | with_reducible assumption
    | with_reducible apply foldl_only
    | with_reducible refine State.armedView_only _ (List.Subset.trans (by decide) hw) ?_
    | with_reducible refine State.grantResources_only _ _ (List.Subset.trans (by decide) hw) ?_
    | with_reducible refine State.takeSlotFences_only _ (List.Subset.trans (by decide) hw) ?_
    | with_reducible refine State.loadSheets_only _ (List.Subset.trans (by decide) hw) ?_
    | with_reducible refine OnlyChanges.snd_of (by with_reducible assumption) ?_
    | with_reducible refine OnlyChanges.thd_of (by with_reducible assumption) ?_
    | intro _
    | split
    | dsimp only

theorem State.moveRest_only {s : State} (c : Commit) (hw : [.regs, .shad, .mem, .out, .dram, .chans, .bufs, .plots, .cache, .display, .queues, .jobs, .msiPending, .pair] ⊆ pcs) (hs : OnlyChanges s0 s pcs) :
    OnlyChanges s0 (State.moveRest s c) pcs := by
  unfold State.moveRest
  repeat' first
    | with_reducible assumption
    | with_reducible apply foldl_only
    | with_reducible refine State.settleStore_only _ (List.Subset.trans (by decide) hw) ?_
    | with_reducible refine State.settleFences_only _ (List.Subset.trans (by decide) hw) ?_
    | with_reducible refine State.moveCommit_only _ _ (List.Subset.trans (by decide) hw) ?_
    | with_reducible refine State.commitDone_only _ _ (List.Subset.trans (by decide) hw) ?_
    | with_reducible refine OnlyChanges.snd_of (by with_reducible assumption) ?_
    | with_reducible refine OnlyChanges.thd_of (by with_reducible assumption) ?_
    | intro _
    | split
    | dsimp only

theorem State.applyAtOnce_only {s : State} (c : Commit) (hw : [.regs, .shad, .mem, .out, .dram, .edac, .chans, .bufs, .plots, .cache, .display, .faults, .queues, .jobs, .msiPending, .pair] ⊆ pcs) (hs : OnlyChanges s0 s pcs) :
    OnlyChanges s0 (State.applyAtOnce s c) pcs := by
  unfold State.applyAtOnce
  repeat' first
    | with_reducible assumption
    | with_reducible apply foldl_only
    | with_reducible refine State.mirror_only _ (List.Subset.trans (by decide) hw) ?_
    | with_reducible refine State.putCommit_only _ (List.Subset.trans (by decide) hw) ?_
    | with_reducible refine State.takeResources_only _ (List.Subset.trans (by decide) hw) ?_
    | with_reducible refine State.moveRest_only _ (List.Subset.trans (by decide) hw) ?_
    | with_reducible refine OnlyChanges.snd_of (by with_reducible assumption) ?_
    | with_reducible refine OnlyChanges.thd_of (by with_reducible assumption) ?_
    | intro _
    | split
    | dsimp only

theorem State.abandonCommit_only {s : State} (c : Commit) (status : Nat) (res : List Nat) (hw : [.out, .display, .queues, .jobs, .msiPending, .pair] ⊆ pcs) (hs : OnlyChanges s0 s pcs) :
    OnlyChanges s0 (State.abandonCommit s c status res) pcs := by
  unfold State.abandonCommit
  repeat' first
    | with_reducible assumption
    | with_reducible apply foldl_only
    | with_reducible refine State.mirror_only _ (List.Subset.trans (by decide) hw) ?_
    | with_reducible refine State.dropCommit_only _ (List.Subset.trans (by decide) hw) ?_
    | with_reducible refine State.endCommit_only _ _ _ (List.Subset.trans (by decide) hw) ?_
    | with_reducible refine OnlyChanges.snd_of (by with_reducible assumption) ?_
    | with_reducible refine OnlyChanges.thd_of (by with_reducible assumption) ?_
    | intro _
    | split
    | dsimp only

theorem State.applyCommit_only {s : State} (c : Commit) (frame : Option Nat) (hw : [.regs, .shad, .mem, .out, .dram, .edac, .chans, .bufs, .plots, .cache, .display, .faults, .queues, .jobs, .msiPending, .pair] ⊆ pcs) (hs : OnlyChanges s0 s pcs) :
    OnlyChanges s0 (State.applyCommit s c frame) pcs := by
  unfold State.applyCommit
  repeat' first
    | with_reducible assumption
    | with_reducible apply foldl_only
    | with_reducible refine State.recErr_only _ _ _ (List.Subset.trans (by decide) hw) ?_
    | with_reducible refine State.mirror_only _ (List.Subset.trans (by decide) hw) ?_
    | with_reducible refine State.armedView_only _ (List.Subset.trans (by decide) hw) ?_
    | with_reducible refine State.putCommit_only _ (List.Subset.trans (by decide) hw) ?_
    | with_reducible refine State.takeResources_only _ (List.Subset.trans (by decide) hw) ?_
    | with_reducible refine State.applyAtOnce_only _ (List.Subset.trans (by decide) hw) ?_
    | with_reducible refine State.abandonCommit_only _ _ _ (List.Subset.trans (by decide) hw) ?_
    | with_reducible refine OnlyChanges.snd_of (by with_reducible assumption) ?_
    | with_reducible refine OnlyChanges.thd_of (by with_reducible assumption) ?_
    | intro _
    | split
    | dsimp only

theorem State.applyLeadless_only {s : State} (hw : [.regs, .shad, .mem, .out, .dram, .edac, .chans, .bufs, .plots, .cache, .display, .faults, .queues, .jobs, .msiPending, .pair] ⊆ pcs) (hs : OnlyChanges s0 s pcs) :
    OnlyChanges s0 (State.applyLeadless s) pcs := by
  unfold State.applyLeadless
  repeat' first
    | with_reducible assumption
    | with_reducible apply foldl_only
    | with_reducible refine State.applyCommit_only _ _ (List.Subset.trans (by decide) hw) ?_
    | with_reducible refine OnlyChanges.snd_of (by with_reducible assumption) ?_
    | with_reducible refine OnlyChanges.thd_of (by with_reducible assumption) ?_
    | intro _
    | split
    | dsimp only

theorem State.armCommit_only {s : State} (c : Commit) (hw : [.display, .pair] ⊆ pcs) (hs : OnlyChanges s0 s pcs) :
    OnlyChanges s0 (State.armCommit s c) pcs := by
  unfold State.armCommit
  repeat' first
    | with_reducible assumption
    | with_reducible apply foldl_only
    | with_reducible refine State.mirror_only _ (List.Subset.trans (by decide) hw) ?_
    | with_reducible refine OnlyChanges.snd_of (by with_reducible assumption) ?_
    | with_reducible refine OnlyChanges.thd_of (by with_reducible assumption) ?_
    | intro _
    | split
    | dsimp only
    | with_reducible refine OnlyChanges.of_mk ?_ rfl rfl

theorem State.failCommit_only {s : State} (j : Job) (code : Nat) (pg : Option (Page × Nat)) (hw : [.regs, .out, .queues, .jobs, .msiPending] ⊆ pcs) (hs : OnlyChanges s0 s pcs) :
    OnlyChanges s0 (State.failCommit s j code pg) pcs := by
  unfold State.failCommit
  repeat' first
    | with_reducible assumption
    | with_reducible apply foldl_only
    | with_reducible refine State.recErr_only _ _ _ (List.Subset.trans (by decide) hw) ?_
    | with_reducible refine State.complete_only _ _ _ (List.Subset.trans (by decide) hw) ?_
    | with_reducible refine OnlyChanges.snd_of (by with_reducible assumption) ?_
    | with_reducible refine OnlyChanges.thd_of (by with_reducible assumption) ?_
    | intro _
    | split
    | dsimp only

theorem State.carryCommit_only (j : Job) {s : State} (hw : [.regs, .shad, .mem, .out, .dram, .edac, .chans, .bufs, .plots, .cache, .display, .faults, .queues, .jobs, .msiPending, .pair] ⊆ pcs) (hs : OnlyChanges s0 s pcs) :
    OnlyChanges s0 (State.carryCommit j s) pcs := by
  unfold State.carryCommit
  repeat' first
    | with_reducible assumption
    | with_reducible apply foldl_only
    | with_reducible refine State.complete_only _ _ _ (List.Subset.trans (by decide) hw) ?_
    | with_reducible refine State.armedView_only _ (List.Subset.trans (by decide) hw) ?_
    | with_reducible refine State.nextView_only  (List.Subset.trans (by decide) hw) ?_
    | with_reducible refine State.applyLeadless_only  (List.Subset.trans (by decide) hw) ?_
    | with_reducible refine State.armCommit_only _ (List.Subset.trans (by decide) hw) ?_
    | with_reducible refine State.failCommit_only _ _ _ (List.Subset.trans (by decide) hw) ?_
    | with_reducible refine OnlyChanges.snd_of (by with_reducible assumption) ?_
    | with_reducible refine OnlyChanges.thd_of (by with_reducible assumption) ?_
    | intro _
    | split
    | dsimp only

theorem State.armRelease_only {s : State} (i : Nat) (hw : [.regs, .shad, .mem, .out, .dram, .edac, .chans, .bufs, .plots, .cache, .display, .faults, .queues, .jobs, .msiPending, .pair] ⊆ pcs) (hs : OnlyChanges s0 s pcs) :
    OnlyChanges s0 (State.armRelease s i) pcs := by
  unfold State.armRelease
  repeat' first
    | with_reducible assumption
    | with_reducible apply foldl_only
    | with_reducible refine State.applyLeadless_only  (List.Subset.trans (by decide) hw) ?_
    | with_reducible refine State.armCommit_only _ (List.Subset.trans (by decide) hw) ?_
    | with_reducible refine OnlyChanges.snd_of (by with_reducible assumption) ?_
    | with_reducible refine OnlyChanges.thd_of (by with_reducible assumption) ?_
    | intro _
    | split
    | dsimp only

theorem State.wakeReleases_only {s : State} (hw : [.regs, .shad, .mem, .out, .dram, .edac, .chans, .bufs, .plots, .cache, .display, .faults, .queues, .jobs, .msiPending, .pair] ⊆ pcs) (hs : OnlyChanges s0 s pcs) :
    OnlyChanges s0 (State.wakeReleases s) pcs := by
  unfold State.wakeReleases
  repeat' first
    | with_reducible assumption
    | with_reducible apply foldl_only
    | with_reducible refine State.armRelease_only _ (List.Subset.trans (by decide) hw) ?_
    | with_reducible refine OnlyChanges.snd_of (by with_reducible assumption) ?_
    | with_reducible refine OnlyChanges.thd_of (by with_reducible assumption) ?_
    | intro _
    | split
    | dsimp only
    | with_reducible refine OnlyChanges.of_mk ?_ rfl rfl

theorem State.releaseSlot_only {s : State} (n : Nat) (k : Nat) (hw : [.regs, .shad, .mem, .out, .dram, .edac, .chans, .bufs, .plots, .cache, .display, .faults, .queues, .jobs, .msiPending, .pair] ⊆ pcs) (hs : OnlyChanges s0 s pcs) :
    OnlyChanges s0 (State.releaseSlot s n k) pcs := by
  unfold State.releaseSlot
  repeat' first
    | with_reducible assumption
    | with_reducible apply foldl_only
    | with_reducible refine State.discardWords_only _ _ (List.Subset.trans (by decide) hw) ?_
    | with_reducible refine State.armRelease_only _ (List.Subset.trans (by decide) hw) ?_
    | with_reducible refine OnlyChanges.snd_of (by with_reducible assumption) ?_
    | with_reducible refine OnlyChanges.thd_of (by with_reducible assumption) ?_
    | intro _
    | split
    | dsimp only
    | with_reducible refine OnlyChanges.of_mk ?_ rfl rfl

theorem State.applyDecisions_only {s : State} (f : Nat) (used : Nat) (x3 : List Commit) (hw : [.regs, .shad, .mem, .out, .dram, .edac, .chans, .bufs, .plots, .cache, .display, .faults, .queues, .jobs, .msiPending, .pair] ⊆ pcs) (hs : OnlyChanges s0 s pcs) :
    OnlyChanges s0 (State.applyDecisions s f used x3) pcs := by
  induction x3 generalizing s f used with
  | nil =>
    unfold State.applyDecisions
    repeat' first
      | with_reducible assumption
      | with_reducible apply foldl_only
      | with_reducible refine State.abandonCommit_only _ _ _ (List.Subset.trans (by decide) hw) ?_
      | with_reducible refine State.applyCommit_only _ _ (List.Subset.trans (by decide) hw) ?_
      | with_reducible refine OnlyChanges.snd_of (by with_reducible assumption) ?_
      | with_reducible refine OnlyChanges.thd_of (by with_reducible assumption) ?_
      | intro _
      | split
      | dsimp only
  | cons _ _ ih =>
    unfold State.applyDecisions
    repeat' first
      | with_reducible assumption
      | with_reducible apply ih
      | with_reducible apply foldl_only
      | with_reducible refine State.abandonCommit_only _ _ _ (List.Subset.trans (by decide) hw) ?_
      | with_reducible refine State.applyCommit_only _ _ (List.Subset.trans (by decide) hw) ?_
      | with_reducible refine OnlyChanges.snd_of (by with_reducible assumption) ?_
      | with_reducible refine OnlyChanges.thd_of (by with_reducible assumption) ?_
      | intro _
      | split
      | dsimp only

theorem State.applyLine_only {s : State} (n : Nat) (hw : [.regs, .shad, .mem, .out, .dram, .edac, .chans, .bufs, .plots, .cache, .display, .faults, .queues, .jobs, .msiPending, .pair] ⊆ pcs) (hs : OnlyChanges s0 s pcs) :
    OnlyChanges s0 (State.applyLine s n) pcs := by
  unfold State.applyLine
  repeat' first
    | with_reducible assumption
    | with_reducible apply foldl_only
    | with_reducible refine State.wakeReleases_only  (List.Subset.trans (by decide) hw) ?_
    | with_reducible refine State.applyDecisions_only _ _ _ (List.Subset.trans (by decide) hw) ?_
    | with_reducible refine OnlyChanges.snd_of (by with_reducible assumption) ?_
    | with_reducible refine OnlyChanges.thd_of (by with_reducible assumption) ?_
    | intro _
    | split
    | dsimp only
    | with_reducible refine OnlyChanges.of_mk ?_ rfl rfl

theorem State.moveCommits_only {s : State} (n : Nat) (cs : List Commit) (hw : [.regs, .shad, .dram, .display] ⊆ pcs) (hs : OnlyChanges s0 s pcs) :
    OnlyChanges s0 (State.moveCommits s n cs) pcs := by
  unfold State.moveCommits
  repeat' first
    | with_reducible assumption
    | with_reducible apply foldl_only
    | with_reducible refine State.moveCommit_only _ _ (List.Subset.trans (by decide) hw) ?_
    | with_reducible refine OnlyChanges.snd_of (by with_reducible assumption) ?_
    | with_reducible refine OnlyChanges.thd_of (by with_reducible assumption) ?_
    | intro _
    | split
    | dsimp only

theorem State.endCommits_only {s : State} (n : Nat) (seq : Nat) (cs : List Commit) (hw : [.out, .display, .queues, .jobs, .msiPending] ⊆ pcs) (hs : OnlyChanges s0 s pcs) :
    OnlyChanges s0 (State.endCommits s n seq cs) pcs := by
  unfold State.endCommits
  repeat' first
    | with_reducible assumption
    | with_reducible apply foldl_only
    | with_reducible refine State.commitDone_only _ _ (List.Subset.trans (by decide) hw) ?_
    | with_reducible refine OnlyChanges.snd_of (by with_reducible assumption) ?_
    | with_reducible refine OnlyChanges.thd_of (by with_reducible assumption) ?_
    | intro _
    | split
    | dsimp only

theorem State.showScalers_only {s : State} (n : Nat) (served : List Nat) (hw : [.regs] ⊆ pcs) (hs : OnlyChanges s0 s pcs) :
    OnlyChanges s0 (State.showScalers s n served) pcs := by
  unfold State.showScalers
  repeat' first
    | with_reducible assumption
    | with_reducible apply foldl_only
    | with_reducible refine State.setRw_only _ _ (List.Subset.trans (by decide) hw) ?_
    | with_reducible refine State.setFld_only _ _ _ _ (List.Subset.trans (by decide) hw) ?_
    | with_reducible refine OnlyChanges.snd_of (by with_reducible assumption) ?_
    | with_reducible refine OnlyChanges.thd_of (by with_reducible assumption) ?_
    | intro _
    | split
    | dsimp only

theorem State.takeLatch_only {s : State} (n : Nat) (seq : Nat) (lead : Nat) (hand : List Nat) (applied : Bool) (hw : [.regs, .out, .display, .msiPending] ⊆ pcs) (hs : OnlyChanges s0 s pcs) :
    OnlyChanges s0 (State.takeLatch s n seq lead hand applied) pcs := by
  unfold State.takeLatch
  repeat' first
    | with_reducible assumption
    | with_reducible apply foldl_only
    | with_reducible refine State.setFld_only _ _ _ _ (List.Subset.trans (by decide) hw) ?_
    | with_reducible refine State.event_only _ _ (List.Subset.trans (by decide) hw) ?_
    | with_reducible refine State.recErr_only _ _ _ (List.Subset.trans (by decide) hw) ?_
    | with_reducible refine State.setDisp_only _ _ (List.Subset.trans (by decide) hw) ?_
    | with_reducible refine State.showScalers_only _ _ (List.Subset.trans (by decide) hw) ?_
    | with_reducible refine OnlyChanges.snd_of (by with_reducible assumption) ?_
    | with_reducible refine OnlyChanges.thd_of (by with_reducible assumption) ?_
    | intro _
    | split
    | dsimp only
    | with_reducible refine OnlyChanges.of_mk ?_ rfl rfl

theorem State.latchPoint_only {s : State} (n : Nat) (seq : Nat) (lead : Nat) (hw : [.regs, .shad, .mem, .out, .dram, .edac, .chans, .bufs, .plots, .cache, .display, .faults, .queues, .jobs, .msiPending, .pair] ⊆ pcs) (hs : OnlyChanges s0 s pcs) :
    OnlyChanges s0 (State.latchPoint s n seq lead) pcs := by
  unfold State.latchPoint
  repeat' first
    | with_reducible assumption
    | with_reducible apply foldl_only
    | with_reducible refine State.settleStore_only _ (List.Subset.trans (by decide) hw) ?_
    | with_reducible refine State.settleFences_only _ (List.Subset.trans (by decide) hw) ?_
    | with_reducible refine State.wakeReleases_only  (List.Subset.trans (by decide) hw) ?_
    | with_reducible refine State.moveCommits_only _ _ (List.Subset.trans (by decide) hw) ?_
    | with_reducible refine State.endCommits_only _ _ _ (List.Subset.trans (by decide) hw) ?_
    | with_reducible refine State.takeLatch_only _ _ _ _ _ (List.Subset.trans (by decide) hw) ?_
    | with_reducible refine OnlyChanges.snd_of (by with_reducible assumption) ?_
    | with_reducible refine OnlyChanges.thd_of (by with_reducible assumption) ?_
    | intro _
    | split
    | dsimp only

theorem State.settleStopped_only {s : State} (g : Nat) (hw : [.regs, .shad, .mem, .out, .dram, .chans, .bufs, .plots, .cache, .display, .queues, .jobs, .msiPending, .pair] ⊆ pcs) (hs : OnlyChanges s0 s pcs) :
    OnlyChanges s0 (State.settleStopped s g) pcs := by
  unfold State.settleStopped
  repeat' first
    | with_reducible assumption
    | with_reducible apply foldl_only
    | with_reducible refine State.commitDone_only _ _ (List.Subset.trans (by decide) hw) ?_
    | with_reducible refine State.moveRest_only _ (List.Subset.trans (by decide) hw) ?_
    | with_reducible refine OnlyChanges.snd_of (by with_reducible assumption) ?_
    | with_reducible refine OnlyChanges.thd_of (by with_reducible assumption) ?_
    | intro _
    | split
    | dsimp only

theorem State.outputStopped_only {s : State} (n : Nat) (hw : [.regs, .shad, .mem, .out, .dram, .edac, .chans, .bufs, .plots, .cache, .display, .faults, .queues, .jobs, .msiPending, .pair] ⊆ pcs) (hs : OnlyChanges s0 s pcs) :
    OnlyChanges s0 (State.outputStopped s n) pcs := by
  unfold State.outputStopped
  repeat' first
    | with_reducible assumption
    | with_reducible apply foldl_only
    | with_reducible refine State.setFld_only _ _ _ _ (List.Subset.trans (by decide) hw) ?_
    | with_reducible refine State.event_only _ _ (List.Subset.trans (by decide) hw) ?_
    | with_reducible refine State.setDisp_only _ _ (List.Subset.trans (by decide) hw) ?_
    | with_reducible refine State.applyLeadless_only  (List.Subset.trans (by decide) hw) ?_
    | with_reducible refine State.wakeReleases_only  (List.Subset.trans (by decide) hw) ?_
    | with_reducible refine State.settleStopped_only _ (List.Subset.trans (by decide) hw) ?_
    | with_reducible refine OnlyChanges.snd_of (by with_reducible assumption) ?_
    | with_reducible refine OnlyChanges.thd_of (by with_reducible assumption) ?_
    | intro _
    | split
    | dsimp only
    | with_reducible refine OnlyChanges.of_mk ?_ rfl rfl

theorem State.dropFollowers_only {s : State} (src : Nat) (hw : [.regs, .out, .display, .msiPending] ⊆ pcs) (hs : OnlyChanges s0 s pcs) :
    OnlyChanges s0 (State.dropFollowers s src) pcs := by
  unfold State.dropFollowers
  repeat' first
    | with_reducible assumption
    | with_reducible apply foldl_only
    | with_reducible refine State.setFld_only _ _ _ _ (List.Subset.trans (by decide) hw) ?_
    | with_reducible refine State.event_only _ _ (List.Subset.trans (by decide) hw) ?_
    | with_reducible refine State.setDisp_only _ _ (List.Subset.trans (by decide) hw) ?_
    | with_reducible refine OnlyChanges.snd_of (by with_reducible assumption) ?_
    | with_reducible refine OnlyChanges.thd_of (by with_reducible assumption) ?_
    | intro _
    | split
    | dsimp only

theorem State.ackTimeout_only {s : State} (cno : Nat) (hw : [.regs, .shad, .mem, .out, .dram, .edac, .chans, .bufs, .plots, .cache, .display, .faults, .queues, .jobs, .msiPending, .pair] ⊆ pcs) (hs : OnlyChanges s0 s pcs) :
    OnlyChanges s0 (State.ackTimeout s cno) pcs := by
  unfold State.ackTimeout
  repeat' first
    | with_reducible assumption
    | with_reducible apply foldl_only
    | with_reducible refine State.abandonCommit_only _ _ _ (List.Subset.trans (by decide) hw) ?_
    | with_reducible refine State.wakeReleases_only  (List.Subset.trans (by decide) hw) ?_
    | with_reducible refine OnlyChanges.snd_of (by with_reducible assumption) ?_
    | with_reducible refine OnlyChanges.thd_of (by with_reducible assumption) ?_
    | intro _
    | split
    | dsimp only

theorem State.dropFnCommits_only {s : State} (fn : Nat) (hw : [.regs, .shad, .mem, .out, .dram, .edac, .chans, .bufs, .plots, .cache, .display, .faults, .queues, .jobs, .msiPending, .pair] ⊆ pcs) (hs : OnlyChanges s0 s pcs) :
    OnlyChanges s0 (State.dropFnCommits s fn) pcs := by
  unfold State.dropFnCommits
  repeat' first
    | with_reducible assumption
    | with_reducible apply foldl_only
    | with_reducible refine State.mirror_only _ (List.Subset.trans (by decide) hw) ?_
    | with_reducible refine State.dropCommit_only _ (List.Subset.trans (by decide) hw) ?_
    | with_reducible refine State.wakeReleases_only  (List.Subset.trans (by decide) hw) ?_
    | with_reducible refine OnlyChanges.snd_of (by with_reducible assumption) ?_
    | with_reducible refine OnlyChanges.thd_of (by with_reducible assumption) ?_
    | intro _
    | split
    | dsimp only

theorem State.abandonAll_only {s : State} (which : Commit → Bool) (hw : [.out, .display, .queues, .jobs, .msiPending, .pair] ⊆ pcs) (hs : OnlyChanges s0 s pcs) :
    OnlyChanges s0 (State.abandonAll s which) pcs := by
  unfold State.abandonAll
  repeat' first
    | with_reducible assumption
    | with_reducible apply foldl_only
    | with_reducible refine State.abandonCommit_only _ _ _ (List.Subset.trans (by decide) hw) ?_
    | with_reducible refine OnlyChanges.snd_of (by with_reducible assumption) ?_
    | with_reducible refine OnlyChanges.thd_of (by with_reducible assumption) ?_
    | intro _
    | split
    | dsimp only

end Sys2Proof.Machine
end

