-- ==== Sys2Proof/Laws/FrameRegs.lean ====
section
/-! SUPPORT. What every operation of Machine/Regs.lean leaves alone. -/

namespace Sys2Proof.Machine

set_option Elab.async false
set_option linter.all false

variable {s0 : State} {pcs : List Piece}

theorem State.accessRead_only {s : State} (r : RegRd) (run : RegAcc → State → State) (hw : [.out, .worlds] ⊆ pcs) (hs : OnlyChanges s0 s pcs) (hrun : ∀ (y0 : RegAcc) (y1 : State), OnlyChanges s0 y1 pcs → OnlyChanges s0 (run y0 y1) pcs) :
    OnlyChanges s0 (State.accessRead s r run) pcs := by
  unfold State.accessRead
  repeat' first
    | with_reducible assumption
    | with_reducible apply foldl_only
    | with_reducible apply hrun
    | with_reducible refine State.emit_only _ (List.Subset.trans (by decide) hw) ?_
    | with_reducible refine State.holdBack_only _ _ (List.Subset.trans (by decide) hw) ?_
    | with_reducible refine OnlyChanges.snd_of (by with_reducible assumption) ?_
    | with_reducible refine OnlyChanges.thd_of (by with_reducible assumption) ?_
    | intro _
    | split
    | dsimp only

theorem State.answerRead_only {s : State} (a : RegAcc) (v : Nat) (hw : [.out] ⊆ pcs) (hs : OnlyChanges s0 s pcs) :
    OnlyChanges s0 (State.answerRead s a v) pcs := by
  unfold State.answerRead
  repeat' first
    | with_reducible assumption
    | with_reducible apply foldl_only
    | with_reducible refine State.emit_only _ (List.Subset.trans (by decide) hw) ?_
    | with_reducible refine OnlyChanges.snd_of (by with_reducible assumption) ?_
    | with_reducible refine OnlyChanges.thd_of (by with_reducible assumption) ?_
    | intro _
    | split
    | dsimp only

theorem State.latchWord_only {s : State} (fn : Nat) (key : Nat) (v : Nat) (hw : [.latched] ⊆ pcs) (hs : OnlyChanges s0 s pcs) :
    OnlyChanges s0 (State.latchWord s fn key v) pcs := by
  unfold State.latchWord
  repeat' first
    | with_reducible assumption
    | with_reducible apply foldl_only
    | with_reducible refine OnlyChanges.snd_of (by with_reducible assumption) ?_
    | with_reducible refine OnlyChanges.thd_of (by with_reducible assumption) ?_
    | intro _
    | split
    | dsimp only
    | with_reducible refine OnlyChanges.of_mk ?_ rfl rfl

theorem State.stageWord_only {s : State} (fn : Nat) (key : Nat) (v : Word32) (hw : [.staged] ⊆ pcs) (hs : OnlyChanges s0 s pcs) :
    OnlyChanges s0 (State.stageWord s fn key v) pcs := by
  unfold State.stageWord
  repeat' first
    | with_reducible assumption
    | with_reducible apply foldl_only
    | with_reducible refine OnlyChanges.snd_of (by with_reducible assumption) ?_
    | with_reducible refine OnlyChanges.thd_of (by with_reducible assumption) ?_
    | intro _
    | split
    | dsimp only
    | with_reducible refine OnlyChanges.of_mk ?_ rfl rfl

theorem State.wideWrite_only (a : RegAcc) {s : State} (hw : [.regs, .shad, .staged, .out, .msiPending] ⊆ pcs) (hs : OnlyChanges s0 s pcs) :
    OnlyChanges s0 (State.wideWrite a s) pcs := by
  unfold State.wideWrite
  repeat' first
    | with_reducible assumption
    | with_reducible apply foldl_only
    | with_reducible refine State.plainWrite_only _ _ (List.Subset.trans (by decide) hw) ?_
    | with_reducible refine State.stageWord_only _ _ _ (List.Subset.trans (by decide) hw) ?_
    | with_reducible refine OnlyChanges.snd_of (by with_reducible assumption) ?_
    | with_reducible refine OnlyChanges.thd_of (by with_reducible assumption) ?_
    | intro _
    | split
    | dsimp only
    | with_reducible refine OnlyChanges.of_mk ?_ rfl rfl

theorem State.afterEventWrite_only {s : State} (a : RegAcc) (hw : [.out, .msiPending] ⊆ pcs) (hs : OnlyChanges s0 s pcs) :
    OnlyChanges s0 (State.afterEventWrite s a) pcs := by
  unfold State.afterEventWrite
  repeat' first
    | with_reducible assumption
    | with_reducible apply foldl_only
    | with_reducible refine State.pageMsg_only _ (List.Subset.trans (by decide) hw) ?_
    | with_reducible refine OnlyChanges.snd_of (by with_reducible assumption) ?_
    | with_reducible refine OnlyChanges.thd_of (by with_reducible assumption) ?_
    | intro _
    | split
    | dsimp only

theorem State.evtRawWrite_only (a : RegAcc) {s : State} (hw : [.regs, .shad, .out, .msiPending] ⊆ pcs) (hs : OnlyChanges s0 s pcs) :
    OnlyChanges s0 (State.evtRawWrite a s) pcs := by
  unfold State.evtRawWrite
  repeat' first
    | with_reducible assumption
    | with_reducible apply foldl_only
    | with_reducible refine State.recRefused_only _ (List.Subset.trans (by decide) hw) ?_
    | with_reducible refine State.plainWrite_only _ _ (List.Subset.trans (by decide) hw) ?_
    | with_reducible refine State.afterEventWrite_only _ (List.Subset.trans (by decide) hw) ?_
    | with_reducible refine OnlyChanges.snd_of (by with_reducible assumption) ?_
    | with_reducible refine OnlyChanges.thd_of (by with_reducible assumption) ?_
    | intro _
    | split
    | dsimp only

theorem State.evtEnWrite_only (a : RegAcc) {s : State} (hw : [.regs, .shad, .out, .msiPending] ⊆ pcs) (hs : OnlyChanges s0 s pcs) :
    OnlyChanges s0 (State.evtEnWrite a s) pcs := by
  unfold State.evtEnWrite
  repeat' first
    | with_reducible assumption
    | with_reducible apply foldl_only
    | with_reducible refine State.recRefused_only _ (List.Subset.trans (by decide) hw) ?_
    | with_reducible refine State.plainWrite_only _ _ (List.Subset.trans (by decide) hw) ?_
    | with_reducible refine State.afterEventWrite_only _ (List.Subset.trans (by decide) hw) ?_
    | with_reducible refine OnlyChanges.snd_of (by with_reducible assumption) ?_
    | with_reducible refine OnlyChanges.thd_of (by with_reducible assumption) ?_
    | intro _
    | split
    | dsimp only

theorem State.evtSetWrite_only (a : RegAcc) {s : State} (hw : [.regs, .out, .msiPending] ⊆ pcs) (hs : OnlyChanges s0 s pcs) :
    OnlyChanges s0 (State.evtSetWrite a s) pcs := by
  unfold State.evtSetWrite
  repeat' first
    | with_reducible assumption
    | with_reducible apply foldl_only
    | with_reducible refine State.raise_only _ _ (List.Subset.trans (by decide) hw) ?_
    | with_reducible refine State.recRefused_only _ (List.Subset.trans (by decide) hw) ?_
    | with_reducible refine OnlyChanges.snd_of (by with_reducible assumption) ?_
    | with_reducible refine OnlyChanges.thd_of (by with_reducible assumption) ?_
    | intro _
    | split
    | dsimp only

theorem State.evtRouteWrite_only (a : RegAcc) {s : State} (hw : [.regs, .shad, .out, .msiPending, .pair] ⊆ pcs) (hs : OnlyChanges s0 s pcs) :
    OnlyChanges s0 (State.evtRouteWrite a s) pcs := by
  unfold State.evtRouteWrite
  repeat' first
    | with_reducible assumption
    | with_reducible apply foldl_only
    | with_reducible refine State.recRefused_only _ (List.Subset.trans (by decide) hw) ?_
    | with_reducible refine State.refuse_only _ _ (List.Subset.trans (by decide) hw) ?_
    | with_reducible refine State.plainWrite_only _ _ (List.Subset.trans (by decide) hw) ?_
    | with_reducible refine State.mirrorWrite_only _ _ _ (List.Subset.trans (by decide) hw) ?_
    | with_reducible refine State.afterEventWrite_only _ (List.Subset.trans (by decide) hw) ?_
    | with_reducible refine OnlyChanges.snd_of (by with_reducible assumption) ?_
    | with_reducible refine OnlyChanges.thd_of (by with_reducible assumption) ?_
    | intro _
    | split
    | dsimp only

theorem State.chkMsg_only {s : State} (n : Nat) (j : Nat) (hw : [.out, .msiPending] ⊆ pcs) (hs : OnlyChanges s0 s pcs) :
    OnlyChanges s0 (State.chkMsg s n j) pcs := by
  unfold State.chkMsg
  repeat' first
    | with_reducible assumption
    | with_reducible apply foldl_only
    | with_reducible refine State.sendMsg_only _ _ (List.Subset.trans (by decide) hw) ?_
    | with_reducible refine OnlyChanges.snd_of (by with_reducible assumption) ?_
    | with_reducible refine OnlyChanges.thd_of (by with_reducible assumption) ?_
    | intro _
    | split
    | dsimp only

theorem State.chkEvent_only {s : State} (n : Nat) (j : Nat) (b : Nat) (hw : [.regs, .out, .msiPending] ⊆ pcs) (hs : OnlyChanges s0 s pcs) :
    OnlyChanges s0 (State.chkEvent s n j b) pcs := by
  unfold State.chkEvent
  repeat' first
    | with_reducible assumption
    | with_reducible apply foldl_only
    | with_reducible refine State.setRw_only _ _ (List.Subset.trans (by decide) hw) ?_
    | with_reducible refine State.chkMsg_only _ _ (List.Subset.trans (by decide) hw) ?_
    | with_reducible refine OnlyChanges.snd_of (by with_reducible assumption) ?_
    | with_reducible refine OnlyChanges.thd_of (by with_reducible assumption) ?_
    | intro _
    | split
    | dsimp only

theorem State.chkEventWrite_only (a : RegAcc) {s : State} (hw : [.regs, .shad, .out, .msiPending, .pair] ⊆ pcs) (hs : OnlyChanges s0 s pcs) :
    OnlyChanges s0 (State.chkEventWrite a s) pcs := by
  unfold State.chkEventWrite
  repeat' first
    | with_reducible assumption
    | with_reducible apply foldl_only
    | with_reducible refine State.recRefused_only _ (List.Subset.trans (by decide) hw) ?_
    | with_reducible refine State.refuse_only _ _ (List.Subset.trans (by decide) hw) ?_
    | with_reducible refine State.plainWrite_only _ _ (List.Subset.trans (by decide) hw) ?_
    | with_reducible refine State.mirrorWrite_only _ _ _ (List.Subset.trans (by decide) hw) ?_
    | with_reducible refine State.chkMsg_only _ _ (List.Subset.trans (by decide) hw) ?_
    | with_reducible refine OnlyChanges.snd_of (by with_reducible assumption) ?_
    | with_reducible refine OnlyChanges.thd_of (by with_reducible assumption) ?_
    | intro _
    | split
    | dsimp only

theorem State.errClear_only (a : RegAcc) {s : State} (hw : [.regs, .out, .msiPending] ⊆ pcs) (hs : OnlyChanges s0 s pcs) :
    OnlyChanges s0 (State.errClear a s) pcs := by
  unfold State.errClear
  repeat' first
    | with_reducible assumption
    | with_reducible apply foldl_only
    | with_reducible refine State.setRw_only _ _ (List.Subset.trans (by decide) hw) ?_
    | with_reducible refine State.recRefused_only _ (List.Subset.trans (by decide) hw) ?_
    | with_reducible refine OnlyChanges.snd_of (by with_reducible assumption) ?_
    | with_reducible refine OnlyChanges.thd_of (by with_reducible assumption) ?_
    | intro _
    | split
    | dsimp only

theorem State.groupMove_only (a : RegAcc) (n : Nat) {s : State} (hw : [.regs, .shad, .mem, .out, .dram, .edac, .chans, .bufs, .plots, .cache, .display, .faults, .queues, .jobs, .msiPending, .pair] ⊆ pcs) (hs : OnlyChanges s0 s pcs) :
    OnlyChanges s0 (State.groupMove a n s) pcs := by
  unfold State.groupMove
  repeat' first
    | with_reducible assumption
    | with_reducible apply foldl_only
    | with_reducible refine State.setFld_only _ _ _ _ (List.Subset.trans (by decide) hw) ?_
    | with_reducible refine State.mirrorWrite_only _ _ _ (List.Subset.trans (by decide) hw) ?_
    | with_reducible refine State.applyLeadless_only  (List.Subset.trans (by decide) hw) ?_
    | with_reducible refine OnlyChanges.snd_of (by with_reducible assumption) ?_
    | with_reducible refine OnlyChanges.thd_of (by with_reducible assumption) ?_
    | intro _
    | split
    | dsimp only

theorem State.discardPage_only (a : RegAcc) (n : Nat) {s : State} (hw : [.shad] ⊆ pcs) (hs : OnlyChanges s0 s pcs) :
    OnlyChanges s0 (State.discardPage a n s) pcs := by
  unfold State.discardPage
  repeat' first
    | with_reducible assumption
    | with_reducible apply foldl_only
    | with_reducible refine State.discardWords_only _ _ (List.Subset.trans (by decide) hw) ?_
    | with_reducible refine OnlyChanges.snd_of (by with_reducible assumption) ?_
    | with_reducible refine OnlyChanges.thd_of (by with_reducible assumption) ?_
    | intro _
    | split
    | dsimp only

theorem State.shadowCtrlWrite_only (a : RegAcc) {s : State} (hw : [.regs, .shad, .mem, .out, .dram, .edac, .chans, .bufs, .plots, .cache, .display, .faults, .queues, .jobs, .msiPending, .pair] ⊆ pcs) (hs : OnlyChanges s0 s pcs) :
    OnlyChanges s0 (State.shadowCtrlWrite a s) pcs := by
  unfold State.shadowCtrlWrite
  repeat' first
    | with_reducible assumption
    | with_reducible apply foldl_only
    | with_reducible refine State.recAcc_only _ _ (List.Subset.trans (by decide) hw) ?_
    | with_reducible refine State.recRefused_only _ (List.Subset.trans (by decide) hw) ?_
    | with_reducible refine State.groupMove_only _ _ (List.Subset.trans (by decide) hw) ?_
    | with_reducible refine State.discardPage_only _ _ (List.Subset.trans (by decide) hw) ?_
    | with_reducible refine OnlyChanges.snd_of (by with_reducible assumption) ?_
    | with_reducible refine OnlyChanges.thd_of (by with_reducible assumption) ?_
    | intro _
    | split
    | dsimp only

theorem State.forgetStaged_only {s : State} (fn : Nat) (lo : Nat) (hi : Nat) (hw : [.staged, .latched] ⊆ pcs) (hs : OnlyChanges s0 s pcs) :
    OnlyChanges s0 (State.forgetStaged s fn lo hi) pcs := by
  unfold State.forgetStaged
  repeat' first
    | with_reducible assumption
    | with_reducible apply foldl_only
    | with_reducible refine OnlyChanges.snd_of (by with_reducible assumption) ?_
    | with_reducible refine OnlyChanges.thd_of (by with_reducible assumption) ?_
    | intro _
    | split
    | dsimp only
    | with_reducible refine OnlyChanges.of_mk ?_ rfl rfl

theorem State.ownerApply_only {s : State} (pg : Page) (new : Nat) (hw : [.regs, .staged, .latched, .out, .msiPending] ⊆ pcs) (hs : OnlyChanges s0 s pcs) :
    OnlyChanges s0 (State.ownerApply s pg new) pcs := by
  unfold State.ownerApply
  repeat' first
    | with_reducible assumption
    | with_reducible apply foldl_only
    | with_reducible refine State.setRw_only _ _ (List.Subset.trans (by decide) hw) ?_
    | with_reducible refine State.pageMsg_only _ (List.Subset.trans (by decide) hw) ?_
    | with_reducible refine State.forgetStaged_only _ _ _ (List.Subset.trans (by decide) hw) ?_
    | with_reducible refine OnlyChanges.snd_of (by with_reducible assumption) ?_
    | with_reducible refine OnlyChanges.thd_of (by with_reducible assumption) ?_
    | intro _
    | split
    | dsimp only

theorem State.chkOwnerApply_only {s : State} (n : Nat) (j : Nat) (new : Nat) (hw : [.regs, .staged, .latched, .out, .display, .msiPending] ⊆ pcs) (hs : OnlyChanges s0 s pcs) :
    OnlyChanges s0 (State.chkOwnerApply s n j new) pcs := by
  unfold State.chkOwnerApply
  repeat' first
    | with_reducible assumption
    | with_reducible apply foldl_only
    | with_reducible refine State.setRw_only _ _ (List.Subset.trans (by decide) hw) ?_
    | with_reducible refine State.chkMsg_only _ _ (List.Subset.trans (by decide) hw) ?_
    | with_reducible refine State.forgetStaged_only _ _ _ (List.Subset.trans (by decide) hw) ?_
    | with_reducible refine OnlyChanges.snd_of (by with_reducible assumption) ?_
    | with_reducible refine OnlyChanges.thd_of (by with_reducible assumption) ?_
    | intro _
    | split
    | dsimp only
    | with_reducible refine OnlyChanges.of_mk ?_ rfl rfl

theorem State.ownerWrite_only (a : RegAcc) {s : State} (hw : [.regs, .shad, .staged, .latched, .mem, .out, .dram, .edac, .chans, .bufs, .plots, .cache, .display, .faults, .queues, .jobs, .msiPending, .pair] ⊆ pcs) (hs : OnlyChanges s0 s pcs) :
    OnlyChanges s0 (State.ownerWrite a s) pcs := by
  unfold State.ownerWrite
  repeat' first
    | with_reducible assumption
    | with_reducible apply foldl_only
    | with_reducible refine State.recAcc_only _ _ (List.Subset.trans (by decide) hw) ?_
    | with_reducible refine State.denyReg_only _ (List.Subset.trans (by decide) hw) ?_
    | with_reducible refine State.mirrorWrite_only _ _ _ (List.Subset.trans (by decide) hw) ?_
    | with_reducible refine State.releaseSlot_only _ _ (List.Subset.trans (by decide) hw) ?_
    | with_reducible refine State.ownerApply_only _ _ (List.Subset.trans (by decide) hw) ?_
    | with_reducible refine OnlyChanges.snd_of (by with_reducible assumption) ?_
    | with_reducible refine OnlyChanges.thd_of (by with_reducible assumption) ?_
    | intro _
    | split
    | dsimp only

theorem State.chkOwnerWrite_only (a : RegAcc) {s : State} (hw : [.regs, .staged, .latched, .out, .display, .msiPending, .pair] ⊆ pcs) (hs : OnlyChanges s0 s pcs) :
    OnlyChanges s0 (State.chkOwnerWrite a s) pcs := by
  unfold State.chkOwnerWrite
  repeat' first
    | with_reducible assumption
    | with_reducible apply foldl_only
    | with_reducible refine State.recAcc_only _ _ (List.Subset.trans (by decide) hw) ?_
    | with_reducible refine State.denyReg_only _ (List.Subset.trans (by decide) hw) ?_
    | with_reducible refine State.mirrorWrite_only _ _ _ (List.Subset.trans (by decide) hw) ?_
    | with_reducible refine State.chkOwnerApply_only _ _ _ (List.Subset.trans (by decide) hw) ?_
    | with_reducible refine OnlyChanges.snd_of (by with_reducible assumption) ?_
    | with_reducible refine OnlyChanges.thd_of (by with_reducible assumption) ?_
    | intro _
    | split
    | dsimp only

theorem State.chkOwnerTaken_only {s : State} (a : RegAcc) (hw : [.regs, .staged, .latched, .out, .display, .msiPending] ⊆ pcs) (hs : OnlyChanges s0 s pcs) :
    OnlyChanges s0 (State.chkOwnerTaken s a) pcs := by
  unfold State.chkOwnerTaken
  repeat' first
    | with_reducible assumption
    | with_reducible apply foldl_only
    | with_reducible refine State.chkOwnerApply_only _ _ _ (List.Subset.trans (by decide) hw) ?_
    | with_reducible refine OnlyChanges.snd_of (by with_reducible assumption) ?_
    | with_reducible refine OnlyChanges.thd_of (by with_reducible assumption) ?_
    | intro _
    | split
    | dsimp only

end Sys2Proof.Machine
end

