-- ==== Sys2Proof/Laws/FrameCtrl.lean ====
section
/-! SUPPORT. What every operation of Machine/Ctrl.lean leaves alone. -/

namespace Sys2Proof.Machine

set_option Elab.async false
set_option linter.all false

variable {s0 : State} {pcs : List Piece}

theorem State.resetPage_only {s : State} (pg : Page) (keep : Nat → Bool) (hw : [.regs, .shad, .faults] ⊆ pcs) (hs : OnlyChanges s0 s pcs) :
    OnlyChanges s0 (State.resetPage s pg keep) pcs := by
  unfold State.resetPage
  repeat' first
    | with_reducible assumption
    | with_reducible apply foldl_only
    | with_reducible refine State.setRw_only _ _ (List.Subset.trans (by decide) hw) ?_
    | with_reducible refine State.setSw_only _ _ (List.Subset.trans (by decide) hw) ?_
    | with_reducible refine State.setFld_only _ _ _ _ (List.Subset.trans (by decide) hw) ?_
    | with_reducible refine OnlyChanges.snd_of (by with_reducible assumption) ?_
    | with_reducible refine OnlyChanges.thd_of (by with_reducible assumption) ?_
    | intro _
    | split
    | dsimp only
    | with_reducible refine OnlyChanges.of_mk ?_ rfl rfl

theorem State.ctrlEnable_only {s : State} (a : RegAcc) (granted : Bool) (enable : Bool → State → State) (hw : [.regs] ⊆ pcs) (hs : OnlyChanges s0 s pcs) (henable : ∀ (y0 : Bool) (y1 : State), OnlyChanges s0 y1 pcs → OnlyChanges s0 (enable y0 y1) pcs) :
    OnlyChanges s0 (State.ctrlEnable s a granted enable) pcs := by
  unfold State.ctrlEnable
  repeat' first
    | with_reducible assumption
    | with_reducible apply foldl_only
    | with_reducible apply henable
    | with_reducible refine State.ungatePage_only _ (List.Subset.trans (by decide) hw) ?_
    | with_reducible refine OnlyChanges.snd_of (by with_reducible assumption) ?_
    | with_reducible refine OnlyChanges.thd_of (by with_reducible assumption) ?_
    | intro _
    | split
    | dsimp only

theorem State.ctrlReset_only {s : State} (a : RegAcc) (granted : Bool) (reset : State → State) (hw : [.regs, .out, .msiPending] ⊆ pcs) (hs : OnlyChanges s0 s pcs) (hreset : ∀ (y0 : State), OnlyChanges s0 y0 pcs → OnlyChanges s0 (reset y0) pcs) :
    OnlyChanges s0 (State.ctrlReset s a granted reset) pcs := by
  unfold State.ctrlReset
  repeat' first
    | with_reducible assumption
    | with_reducible apply foldl_only
    | with_reducible apply hreset
    | with_reducible refine State.recAcc_only _ _ (List.Subset.trans (by decide) hw) ?_
    | with_reducible refine OnlyChanges.snd_of (by with_reducible assumption) ?_
    | with_reducible refine OnlyChanges.thd_of (by with_reducible assumption) ?_
    | intro _
    | split
    | dsimp only

theorem State.ctrlLock_only {s : State} (a : RegAcc) (lock : Bool) (unlock : Bool) (hw : [.regs] ⊆ pcs) (hs : OnlyChanges s0 s pcs) :
    OnlyChanges s0 (State.ctrlLock s a lock unlock) pcs := by
  unfold State.ctrlLock
  repeat' first
    | with_reducible assumption
    | with_reducible apply foldl_only
    | with_reducible refine State.setFld_only _ _ _ _ (List.Subset.trans (by decide) hw) ?_
    | with_reducible refine OnlyChanges.snd_of (by with_reducible assumption) ?_
    | with_reducible refine OnlyChanges.thd_of (by with_reducible assumption) ?_
    | intro _
    | split
    | dsimp only

theorem State.ctrlWrite_only (a : RegAcc) (enable : Bool → State → State) (reset : State → State) {s : State} (hw : [.regs, .out, .msiPending, .pair] ⊆ pcs) (henable : ∀ (y0 : Bool) (y1 : State), OnlyChanges s0 y1 pcs → OnlyChanges s0 (enable y0 y1) pcs) (hreset : ∀ (y0 : State), OnlyChanges s0 y0 pcs → OnlyChanges s0 (reset y0) pcs) (hs : OnlyChanges s0 s pcs) :
    OnlyChanges s0 (State.ctrlWrite a enable reset s) pcs := by
  unfold State.ctrlWrite
  repeat' first
    | with_reducible assumption
    | with_reducible apply foldl_only
    | with_reducible apply henable
    | with_reducible apply hreset
    | with_reducible refine State.recErr_only _ _ _ (List.Subset.trans (by decide) hw) ?_
    | with_reducible refine State.recRefused_only _ (List.Subset.trans (by decide) hw) ?_
    | with_reducible refine State.mirrorWrite_only _ _ _ (List.Subset.trans (by decide) hw) ?_
    | with_reducible refine State.ctrlEnable_only _ _ _ (List.Subset.trans (by decide) hw) ?_ ?_
    | with_reducible refine State.ctrlReset_only _ _ _ (List.Subset.trans (by decide) hw) ?_ ?_
    | with_reducible refine State.ctrlLock_only _ _ _ (List.Subset.trans (by decide) hw) ?_
    | with_reducible refine OnlyChanges.snd_of (by with_reducible assumption) ?_
    | with_reducible refine OnlyChanges.thd_of (by with_reducible assumption) ?_
    | intro _
    | split
    | dsimp only

theorem State.plainEnable_only (pg : Page) (on : Bool) {s : State} (hw : [.regs] ⊆ pcs) (hs : OnlyChanges s0 s pcs) :
    OnlyChanges s0 (State.plainEnable pg on s) pcs := by
  unfold State.plainEnable
  repeat' first
    | with_reducible assumption
    | with_reducible apply foldl_only
    | with_reducible refine State.setFld_only _ _ _ _ (List.Subset.trans (by decide) hw) ?_
    | with_reducible refine OnlyChanges.snd_of (by with_reducible assumption) ?_
    | with_reducible refine OnlyChanges.thd_of (by with_reducible assumption) ?_
    | intro _
    | split
    | dsimp only

theorem State.mirroredEnable_only (a : RegAcc) (on : Bool) {s : State} (hw : [.regs, .pair] ⊆ pcs) (hs : OnlyChanges s0 s pcs) :
    OnlyChanges s0 (State.mirroredEnable a on s) pcs := by
  unfold State.mirroredEnable
  repeat' first
    | with_reducible assumption
    | with_reducible apply foldl_only
    | with_reducible refine State.mirrorWrite_only _ _ _ (List.Subset.trans (by decide) hw) ?_
    | with_reducible refine State.plainEnable_only _ _ (List.Subset.trans (by decide) hw) ?_
    | with_reducible refine OnlyChanges.snd_of (by with_reducible assumption) ?_
    | with_reducible refine OnlyChanges.thd_of (by with_reducible assumption) ?_
    | intro _
    | split
    | dsimp only

end Sys2Proof.Machine
end

