-- ==== Sys2Proof/Laws/FrameHostPorts.lean ====
section
/-! SUPPORT. What every operation of Machine/HostPorts.lean leaves alone. -/

namespace Sys2Proof.Machine

set_option Elab.async false
set_option linter.all false

variable {s0 : State} {pcs : List Piece}

theorem State.setFn_only {s : State} (f : Nat) (x : Fn) (hw : [.fns] ⊆ pcs) (hs : OnlyChanges s0 s pcs) :
    OnlyChanges s0 (State.setFn s f x) pcs := by
  unfold State.setFn
  repeat' first
    | with_reducible assumption
    | with_reducible apply foldl_only
    | with_reducible refine OnlyChanges.snd_of (by with_reducible assumption) ?_
    | with_reducible refine OnlyChanges.thd_of (by with_reducible assumption) ?_
    | intro _
    | split
    | dsimp only
    | with_reducible refine OnlyChanges.of_mk ?_ rfl rfl

theorem State.queueErrorEvt_only {s : State} (fn : Nat) (hw : [.regs, .out, .msiPending] ⊆ pcs) (hs : OnlyChanges s0 s pcs) :
    OnlyChanges s0 (State.queueErrorEvt s fn) pcs := by
  unfold State.queueErrorEvt
  repeat' first
    | with_reducible assumption
    | with_reducible apply foldl_only
    | with_reducible refine State.event_only _ _ (List.Subset.trans (by decide) hw) ?_
    | with_reducible refine OnlyChanges.snd_of (by with_reducible assumption) ?_
    | with_reducible refine OnlyChanges.thd_of (by with_reducible assumption) ?_
    | intro _
    | split
    | dsimp only

theorem State.queueError_only {s : State} (fn : Nat) (x2 : Nat) (code : Nat) (info : Nat) (hw : [.regs, .out, .queues, .msiPending] ⊆ pcs) (hs : OnlyChanges s0 s pcs) :
    OnlyChanges s0 (State.queueError s fn x2 code info) pcs := by
  unfold State.queueError
  repeat' first
    | with_reducible assumption
    | with_reducible apply foldl_only
    | with_reducible refine State.recErr_only _ _ _ (List.Subset.trans (by decide) hw) ?_
    | with_reducible refine State.setQueue_only _ _ _ (List.Subset.trans (by decide) hw) ?_
    | with_reducible refine State.queueErrorEvt_only _ (List.Subset.trans (by decide) hw) ?_
    | with_reducible refine OnlyChanges.snd_of (by with_reducible assumption) ?_
    | with_reducible refine OnlyChanges.thd_of (by with_reducible assumption) ?_
    | intro _
    | split
    | dsimp only

theorem State.queueToIdle_only {s : State} (fn : Nat) (x2 : Nat) (hw : [.queues, .jobs] ⊆ pcs) (hs : OnlyChanges s0 s pcs) :
    OnlyChanges s0 (State.queueToIdle s fn x2) pcs := by
  unfold State.queueToIdle
  repeat' first
    | with_reducible assumption
    | with_reducible apply foldl_only
    | with_reducible refine State.setQueue_only _ _ _ (List.Subset.trans (by decide) hw) ?_
    | with_reducible refine State.keepJobs_only _ (List.Subset.trans (by decide) hw) ?_
    | with_reducible refine OnlyChanges.snd_of (by with_reducible assumption) ?_
    | with_reducible refine OnlyChanges.thd_of (by with_reducible assumption) ?_
    | intro _
    | split
    | dsimp only

theorem State.sqDoorbell_only {s : State} (fn : Nat) (x2 : Nat) (tail : Nat) (info : Nat) (hw : [.regs, .out, .power, .queues, .msiPending] ⊆ pcs) (hs : OnlyChanges s0 s pcs) :
    OnlyChanges s0 (State.sqDoorbell s fn x2 tail info) pcs := by
  unfold State.sqDoorbell
  repeat' first
    | with_reducible assumption
    | with_reducible apply foldl_only
    | with_reducible refine State.recErr_only _ _ _ (List.Subset.trans (by decide) hw) ?_
    | with_reducible refine State.setQueue_only _ _ _ (List.Subset.trans (by decide) hw) ?_
    | with_reducible refine State.queueError_only _ _ _ _ (List.Subset.trans (by decide) hw) ?_
    | with_reducible refine OnlyChanges.snd_of (by with_reducible assumption) ?_
    | with_reducible refine OnlyChanges.thd_of (by with_reducible assumption) ?_
    | intro _
    | split
    | dsimp only
    | with_reducible refine OnlyChanges.of_mk ?_ rfl rfl

theorem State.cqDoorbell_only {s : State} (fn : Nat) (x2 : Nat) (head : Nat) (info : Nat) (hw : [.regs, .out, .queues, .jobs, .msiPending] ⊆ pcs) (hs : OnlyChanges s0 s pcs) :
    OnlyChanges s0 (State.cqDoorbell s fn x2 head info) pcs := by
  unfold State.cqDoorbell
  repeat' first
    | with_reducible assumption
    | with_reducible apply foldl_only
    | with_reducible refine State.recErr_only _ _ _ (List.Subset.trans (by decide) hw) ?_
    | with_reducible refine State.setQueue_only _ _ _ (List.Subset.trans (by decide) hw) ?_
    | with_reducible refine State.releaseHeld_only _ _ (List.Subset.trans (by decide) hw) ?_
    | with_reducible refine State.drainCheck_only _ _ (List.Subset.trans (by decide) hw) ?_
    | with_reducible refine State.queueErrorEvt_only _ (List.Subset.trans (by decide) hw) ?_
    | with_reducible refine State.queueError_only _ _ _ _ (List.Subset.trans (by decide) hw) ?_
    | with_reducible refine OnlyChanges.snd_of (by with_reducible assumption) ?_
    | with_reducible refine OnlyChanges.thd_of (by with_reducible assumption) ?_
    | intro _
    | split
    | dsimp only

theorem State.doorbellWrite_only (a : RegAcc) {s : State} (hw : [.regs, .out, .power, .queues, .jobs, .msiPending] ⊆ pcs) (hs : OnlyChanges s0 s pcs) :
    OnlyChanges s0 (State.doorbellWrite a s) pcs := by
  unfold State.doorbellWrite
  repeat' first
    | with_reducible assumption
    | with_reducible apply foldl_only
    | with_reducible refine State.recRefused_only _ (List.Subset.trans (by decide) hw) ?_
    | with_reducible refine State.sqDoorbell_only _ _ _ _ (List.Subset.trans (by decide) hw) ?_
    | with_reducible refine State.cqDoorbell_only _ _ _ _ (List.Subset.trans (by decide) hw) ?_
    | with_reducible refine OnlyChanges.snd_of (by with_reducible assumption) ?_
    | with_reducible refine OnlyChanges.thd_of (by with_reducible assumption) ?_
    | intro _
    | split
    | dsimp only

theorem State.queueEnable_only {s : State} (fn : Nat) (x2 : Nat) (a : RegAcc) (hw : [.regs, .out, .queues, .msiPending] ⊆ pcs) (hs : OnlyChanges s0 s pcs) :
    OnlyChanges s0 (State.queueEnable s fn x2 a) pcs := by
  unfold State.queueEnable
  repeat' first
    | with_reducible assumption
    | with_reducible apply foldl_only
    | with_reducible refine State.setFld_only _ _ _ _ (List.Subset.trans (by decide) hw) ?_
    | with_reducible refine State.recAcc_only _ _ (List.Subset.trans (by decide) hw) ?_
    | with_reducible refine State.setQueue_only _ _ _ (List.Subset.trans (by decide) hw) ?_
    | with_reducible refine OnlyChanges.snd_of (by with_reducible assumption) ?_
    | with_reducible refine OnlyChanges.thd_of (by with_reducible assumption) ?_
    | intro _
    | split
    | dsimp only

theorem State.queueDisable_only {s : State} (fn : Nat) (x2 : Nat) (hw : [.regs, .queues, .jobs] ⊆ pcs) (hs : OnlyChanges s0 s pcs) :
    OnlyChanges s0 (State.queueDisable s fn x2) pcs := by
  unfold State.queueDisable
  repeat' first
    | with_reducible assumption
    | with_reducible apply foldl_only
    | with_reducible refine State.setFld_only _ _ _ _ (List.Subset.trans (by decide) hw) ?_
    | with_reducible refine State.setQueue_only _ _ _ (List.Subset.trans (by decide) hw) ?_
    | with_reducible refine State.queueToIdle_only _ _ (List.Subset.trans (by decide) hw) ?_
    | with_reducible refine OnlyChanges.snd_of (by with_reducible assumption) ?_
    | with_reducible refine OnlyChanges.thd_of (by with_reducible assumption) ?_
    | intro _
    | split
    | dsimp only

theorem State.qCtrlWrite_only (a : RegAcc) {s : State} (hw : [.regs, .shad, .out, .queues, .jobs, .msiPending] ⊆ pcs) (hs : OnlyChanges s0 s pcs) :
    OnlyChanges s0 (State.qCtrlWrite a s) pcs := by
  unfold State.qCtrlWrite
  repeat' first
    | with_reducible assumption
    | with_reducible apply foldl_only
    | with_reducible refine State.plainWrite_only _ _ (List.Subset.trans (by decide) hw) ?_
    | with_reducible refine State.queueEnable_only _ _ _ (List.Subset.trans (by decide) hw) ?_
    | with_reducible refine State.queueDisable_only _ _ (List.Subset.trans (by decide) hw) ?_
    | with_reducible refine OnlyChanges.snd_of (by with_reducible assumption) ?_
    | with_reducible refine OnlyChanges.thd_of (by with_reducible assumption) ?_
    | intro _
    | split
    | dsimp only

theorem State.qSetupWrite_only (a : RegAcc) {s : State} (hw : [.regs, .shad, .out, .msiPending] ⊆ pcs) (hs : OnlyChanges s0 s pcs) :
    OnlyChanges s0 (State.qSetupWrite a s) pcs := by
  unfold State.qSetupWrite
  repeat' first
    | with_reducible assumption
    | with_reducible apply foldl_only
    | with_reducible refine State.refuse_only _ _ (List.Subset.trans (by decide) hw) ?_
    | with_reducible refine State.plainWrite_only _ _ (List.Subset.trans (by decide) hw) ?_
    | with_reducible refine OnlyChanges.snd_of (by with_reducible assumption) ?_
    | with_reducible refine OnlyChanges.thd_of (by with_reducible assumption) ?_
    | intro _
    | split
    | dsimp only

theorem State.peerAccess_only {s : State} (fn : Nat) (rid : Nat) (off : Nat) (wr : Option Word32) (hw : [.regs, .out, .power, .queues, .jobs, .msiPending] ⊆ pcs) (hs : OnlyChanges s0 s pcs) :
    OnlyChanges s0 (State.peerAccess s fn rid off wr) pcs := by
  unfold State.peerAccess
  repeat' first
    | with_reducible assumption
    | with_reducible apply foldl_only
    | with_reducible refine State.satFld_only _ _ _ _ (List.Subset.trans (by decide) hw) ?_
    | with_reducible refine State.emit_only _ (List.Subset.trans (by decide) hw) ?_
    | with_reducible refine State.event_only _ _ (List.Subset.trans (by decide) hw) ?_
    | with_reducible refine State.doorbellWrite_only _ (List.Subset.trans (by decide) hw) ?_
    | with_reducible refine OnlyChanges.snd_of (by with_reducible assumption) ?_
    | with_reducible refine OnlyChanges.thd_of (by with_reducible assumption) ?_
    | intro _
    | split
    | dsimp only

theorem State.coalesceTimeout_only {s : State} (fn : Nat) (x2 : Nat) (hw : [.out, .queues, .msiPending] ⊆ pcs) (hs : OnlyChanges s0 s pcs) :
    OnlyChanges s0 (State.coalesceTimeout s fn x2) pcs := by
  unfold State.coalesceTimeout
  repeat' first
    | with_reducible assumption
    | with_reducible apply foldl_only
    | with_reducible refine State.signalQueue_only _ _ (List.Subset.trans (by decide) hw) ?_
    | with_reducible refine OnlyChanges.snd_of (by with_reducible assumption) ?_
    | with_reducible refine OnlyChanges.thd_of (by with_reducible assumption) ?_
    | intro _
    | split
    | dsimp only

theorem State.carryFnQuery_only (j : Job) {s : State} (hw : [.out, .queues, .jobs, .msiPending] ⊆ pcs) (hs : OnlyChanges s0 s pcs) :
    OnlyChanges s0 (State.carryFnQuery j s) pcs := by
  unfold State.carryFnQuery
  repeat' first
    | with_reducible assumption
    | with_reducible apply foldl_only
    | with_reducible refine State.complete_only _ _ _ (List.Subset.trans (by decide) hw) ?_
    | with_reducible refine OnlyChanges.snd_of (by with_reducible assumption) ?_
    | with_reducible refine OnlyChanges.thd_of (by with_reducible assumption) ?_
    | intro _
    | split
    | dsimp only

theorem State.carryNop_only (j : Job) {s : State} (hw : [.out, .queues, .jobs, .msiPending] ⊆ pcs) (hs : OnlyChanges s0 s pcs) :
    OnlyChanges s0 (State.carryNop j s) pcs := by
  unfold State.carryNop
  repeat' first
    | with_reducible assumption
    | with_reducible apply foldl_only
    | with_reducible refine State.complete_only _ _ _ (List.Subset.trans (by decide) hw) ?_
    | with_reducible refine OnlyChanges.snd_of (by with_reducible assumption) ?_
    | with_reducible refine OnlyChanges.thd_of (by with_reducible assumption) ?_
    | intro _
    | split
    | dsimp only

theorem State.mgrRoleWrite_only (a : RegAcc) {s : State} (hw : [.regs, .out, .msiPending] ⊆ pcs) (hs : OnlyChanges s0 s pcs) :
    OnlyChanges s0 (State.mgrRoleWrite a s) pcs := by
  unfold State.mgrRoleWrite
  repeat' first
    | with_reducible assumption
    | with_reducible apply foldl_only
    | with_reducible refine State.setFld_only _ _ _ _ (List.Subset.trans (by decide) hw) ?_
    | with_reducible refine State.recAcc_only _ _ (List.Subset.trans (by decide) hw) ?_
    | with_reducible refine State.recRefused_only _ (List.Subset.trans (by decide) hw) ?_
    | with_reducible refine OnlyChanges.snd_of (by with_reducible assumption) ?_
    | with_reducible refine OnlyChanges.thd_of (by with_reducible assumption) ?_
    | intro _
    | split
    | dsimp only

theorem State.deliverPending_only {s : State} (fn : Nat) (hw : [.out, .msiPending] ⊆ pcs) (hs : OnlyChanges s0 s pcs) :
    OnlyChanges s0 (State.deliverPending s fn) pcs := by
  unfold State.deliverPending
  repeat' first
    | with_reducible assumption
    | with_reducible apply foldl_only
    | with_reducible refine State.emit_only _ (List.Subset.trans (by decide) hw) ?_
    | with_reducible refine OnlyChanges.snd_of (by with_reducible assumption) ?_
    | with_reducible refine OnlyChanges.thd_of (by with_reducible assumption) ?_
    | intro _
    | split
    | dsimp only
    | with_reducible refine OnlyChanges.of_mk ?_ rfl rfl

theorem State.unmask_only {s : State} (fn : Nat) (vec : Nat) (hw : [.out, .unmasked, .msiPending] ⊆ pcs) (hs : OnlyChanges s0 s pcs) :
    OnlyChanges s0 (State.unmask s fn vec) pcs := by
  unfold State.unmask
  repeat' first
    | with_reducible assumption
    | with_reducible apply foldl_only
    | with_reducible refine State.emit_only _ (List.Subset.trans (by decide) hw) ?_
    | with_reducible refine OnlyChanges.snd_of (by with_reducible assumption) ?_
    | with_reducible refine OnlyChanges.thd_of (by with_reducible assumption) ?_
    | intro _
    | split
    | dsimp only
    | with_reducible refine OnlyChanges.of_mk ?_ rfl rfl

end Sys2Proof.Machine
end

