-- ==== Sys2Proof/Laws/FrameIngest.lean ====
section
/-! SUPPORT. What every operation of Machine/Ingest.lean leaves alone. -/

namespace Sys2Proof.Machine

set_option Elab.async false
set_option linter.all false

variable {s0 : State} {pcs : List Piece}

theorem State.setEngine_only {s : State} (n : Nat) (e : IngEngine) (hw : [.ingest] ⊆ pcs) (hs : OnlyChanges s0 s pcs) :
    OnlyChanges s0 (State.setEngine s n e) pcs := by
  unfold State.setEngine
  repeat' first
    | with_reducible assumption
    | with_reducible apply foldl_only
    | with_reducible refine OnlyChanges.snd_of (by with_reducible assumption) ?_
    | with_reducible refine OnlyChanges.thd_of (by with_reducible assumption) ?_
    | intro _
    | split
    | dsimp only
    | with_reducible refine OnlyChanges.of_mk ?_ rfl rfl

theorem State.ingStat_only {s : State} (n : Nat) (hw : [.regs] ⊆ pcs) (hs : OnlyChanges s0 s pcs) :
    OnlyChanges s0 (State.ingStat s n) pcs := by
  unfold State.ingStat
  repeat' first
    | with_reducible assumption
    | with_reducible apply foldl_only
    | with_reducible refine State.setFld_only _ _ _ _ (List.Subset.trans (by decide) hw) ?_
    | with_reducible refine OnlyChanges.snd_of (by with_reducible assumption) ?_
    | with_reducible refine OnlyChanges.thd_of (by with_reducible assumption) ?_
    | intro _
    | split
    | dsimp only

theorem State.mirrorWords_only {s : State} (i : Nat) (b : Nat) (words : Nat) (fn : Nat) (world : Bool) (hw : [.bufs, .pair] ⊆ pcs) (hs : OnlyChanges s0 s pcs) :
    OnlyChanges s0 (State.mirrorWords s i b words fn world) pcs := by
  unfold State.mirrorWords
  repeat' first
    | with_reducible assumption
    | with_reducible apply foldl_only
    | with_reducible refine State.mirror_only _ (List.Subset.trans (by decide) hw) ?_
    | with_reducible refine State.fence_only _ (List.Subset.trans (by decide) hw) ?_
    | with_reducible refine OnlyChanges.snd_of (by with_reducible assumption) ?_
    | with_reducible refine OnlyChanges.thd_of (by with_reducible assumption) ?_
    | intro _
    | split
    | dsimp only
    | with_reducible refine OnlyChanges.of_mk ?_ rfl rfl

theorem State.writeBuf_only {s : State} (who : Attr) (i : Nat) (b : Nat) (x4 : List Nat) (hw : [.regs, .mem, .out, .edac, .bufs, .cache, .faults, .msiPending, .pair] ⊆ pcs) (hs : OnlyChanges s0 s pcs) :
    OnlyChanges s0 (State.writeBuf s who i b x4).2.2 pcs := by
  induction x4 generalizing s who i b with
  | nil =>
    unfold State.writeBuf
    repeat' first
      | with_reducible assumption
      | with_reducible apply foldl_only
      | with_reducible refine State.writeWordAs_only _ _ _ (List.Subset.trans (by decide) hw) ?_
      | with_reducible refine State.mirrorWords_only _ _ _ _ _ (List.Subset.trans (by decide) hw) ?_
      | with_reducible refine OnlyChanges.snd_of (by with_reducible assumption) ?_
      | with_reducible refine OnlyChanges.thd_of (by with_reducible assumption) ?_
      | intro _
      | split
      | dsimp only
  | cons _ _ ih =>
    unfold State.writeBuf
    repeat' first
      | with_reducible assumption
      | with_reducible apply ih
      | with_reducible apply foldl_only
      | with_reducible refine State.writeWordAs_only _ _ _ (List.Subset.trans (by decide) hw) ?_
      | with_reducible refine State.mirrorWords_only _ _ _ _ _ (List.Subset.trans (by decide) hw) ?_
      | with_reducible refine OnlyChanges.snd_of (by with_reducible assumption) ?_
      | with_reducible refine OnlyChanges.thd_of (by with_reducible assumption) ?_
      | intro _
      | split
      | dsimp only

theorem State.writeMeta_only {s : State} (who : Attr) (i : Nat) (b : Nat) (entry : Nat) (hw : [.regs, .mem, .out, .edac, .bufs, .cache, .faults, .msiPending, .pair] ⊆ pcs) (hs : OnlyChanges s0 s pcs) :
    OnlyChanges s0 (State.writeMeta s who i b entry).2 pcs := by
  unfold State.writeMeta
  repeat' first
    | with_reducible assumption
    | with_reducible apply foldl_only
    | with_reducible refine State.pmcCount_only _ _ _ _ _ (List.Subset.trans (by decide) hw) ?_
    | with_reducible refine State.pokeBytes_only _ _ _ (List.Subset.trans (by decide) hw) ?_
    | with_reducible refine State.guardDram_only _ _ _ (List.Subset.trans (by decide) hw) ?_
    | with_reducible refine State.mirrorWords_only _ _ _ _ _ (List.Subset.trans (by decide) hw) ?_
    | with_reducible refine OnlyChanges.snd_of (by with_reducible assumption) ?_
    | with_reducible refine OnlyChanges.thd_of (by with_reducible assumption) ?_
    | intro _
    | split
    | dsimp only

theorem State.ingNote_only {s : State} (n : Nat) (fn : Nat) (words : Nat) (hw : [.regs] ⊆ pcs) (hs : OnlyChanges s0 s pcs) :
    OnlyChanges s0 (State.ingNote s n fn words) pcs := by
  unfold State.ingNote
  repeat' first
    | with_reducible assumption
    | with_reducible apply foldl_only
    | with_reducible refine State.addCnt_only _ _ _ _ _ (List.Subset.trans (by decide) hw) ?_
    | with_reducible refine State.pmcCount_only _ _ _ _ _ (List.Subset.trans (by decide) hw) ?_
    | with_reducible refine OnlyChanges.snd_of (by with_reducible assumption) ?_
    | with_reducible refine OnlyChanges.thd_of (by with_reducible assumption) ?_
    | intro _
    | split
    | dsimp only

theorem State.ingSeedTile_only {s : State} (n : Nat) (c : IngCmd) (who : Attr) (base : Nat × Nat) (idx : Nat) (enc : Seedbed.Encoded) (hw : [.regs, .mem, .out, .edac, .bufs, .cache, .faults, .msiPending, .pair] ⊆ pcs) (hs : OnlyChanges s0 s pcs) :
    OnlyChanges s0 (State.ingSeedTile s n c who base idx enc).2.2 pcs := by
  unfold State.ingSeedTile
  repeat' first
    | with_reducible assumption
    | with_reducible apply foldl_only
    | with_reducible refine State.addFld_only _ _ _ _ (List.Subset.trans (by decide) hw) ?_
    | with_reducible refine State.addCnt_only _ _ _ _ _ (List.Subset.trans (by decide) hw) ?_
    | with_reducible refine State.writeBuf_only _ _ _ _ (List.Subset.trans (by decide) hw) ?_
    | with_reducible refine State.writeMeta_only _ _ _ _ (List.Subset.trans (by decide) hw) ?_
    | with_reducible refine State.ingNote_only _ _ _ (List.Subset.trans (by decide) hw) ?_
    | with_reducible refine OnlyChanges.snd_of (by with_reducible assumption) ?_
    | with_reducible refine OnlyChanges.thd_of (by with_reducible assumption) ?_
    | intro _
    | split
    | dsimp only

theorem State.ingPlainTile_only {s : State} (n : Nat) (c : IngCmd) (who : Attr) (addr : Nat) (ws : List Nat) (hw : [.regs, .mem, .out, .edac, .bufs, .cache, .faults, .msiPending, .pair] ⊆ pcs) (hs : OnlyChanges s0 s pcs) :
    OnlyChanges s0 (State.ingPlainTile s n c who addr ws).2.2 pcs := by
  unfold State.ingPlainTile
  repeat' first
    | with_reducible assumption
    | with_reducible apply foldl_only
    | with_reducible refine State.addCnt_only _ _ _ _ _ (List.Subset.trans (by decide) hw) ?_
    | with_reducible refine State.writeBuf_only _ _ _ _ (List.Subset.trans (by decide) hw) ?_
    | with_reducible refine State.ingNote_only _ _ _ (List.Subset.trans (by decide) hw) ?_
    | with_reducible refine OnlyChanges.snd_of (by with_reducible assumption) ?_
    | with_reducible refine OnlyChanges.thd_of (by with_reducible assumption) ?_
    | intro _
    | split
    | dsimp only

theorem State.ingTile_only {s : State} (n : Nat) (c : IngCmd) (host : List (Nat × Byte)) (t : Nat × Seedbed.Plane × Nat × Nat)
    (hw : [.regs, .mem, .out, .edac, .bufs, .cache, .faults, .msiPending, .pair] ⊆ pcs) (hs : OnlyChanges s0 s pcs) : OnlyChanges s0 (State.ingTile s n c host t).2.2 pcs := by
  obtain ⟨a, pl, tx, ty⟩ := t
  simp only [State.ingTile]
  split
  · exact State.ingSeedTile_only _ _ _ _ _ _ (List.Subset.trans (by decide) hw) (State.addCnt_only _ _ _ _ _ (List.Subset.trans (by decide) hw) hs)
  · exact State.ingPlainTile_only _ _ _ _ _ (List.Subset.trans (by decide) hw) (State.addCnt_only _ _ _ _ _ (List.Subset.trans (by decide) hw) hs)

theorem State.ingTiles_only {s : State} (n : Nat) (c : IngCmd) (host : List (Nat × Byte)) (x4 : List (Nat × Seedbed.Plane × Nat × Nat)) (hw : [.regs, .mem, .out, .edac, .bufs, .cache, .faults, .msiPending, .pair] ⊆ pcs) (hs : OnlyChanges s0 s pcs) :
    OnlyChanges s0 (State.ingTiles s n c host x4).2.2 pcs := by
  induction x4 generalizing s n c host with
  | nil =>
    unfold State.ingTiles
    repeat' first
      | with_reducible assumption
      | with_reducible apply foldl_only
      | with_reducible refine State.ingTile_only _ _ _ _ (List.Subset.trans (by decide) hw) ?_
      | with_reducible refine OnlyChanges.snd_of (by with_reducible assumption) ?_
      | with_reducible refine OnlyChanges.thd_of (by with_reducible assumption) ?_
      | intro _
      | split
      | dsimp only
  | cons _ _ ih =>
    unfold State.ingTiles
    repeat' first
      | with_reducible assumption
      | with_reducible apply ih
      | with_reducible apply foldl_only
      | with_reducible refine State.ingTile_only _ _ _ _ (List.Subset.trans (by decide) hw) ?_
      | with_reducible refine OnlyChanges.snd_of (by with_reducible assumption) ?_
      | with_reducible refine OnlyChanges.thd_of (by with_reducible assumption) ?_
      | intro _
      | split
      | dsimp only

theorem State.ingEnd_only {s : State} (n : Nat) (slot : Nat) (c : IngCmd) (status : Nat) (hw : [.regs, .mem, .out, .chans, .bufs, .plots, .cache, .ingest, .queues, .jobs, .msiPending, .pair] ⊆ pcs) (hs : OnlyChanges s0 s pcs) :
    OnlyChanges s0 (State.ingEnd s n slot c status) pcs := by
  unfold State.ingEnd
  repeat' first
    | with_reducible assumption
    | with_reducible apply foldl_only
    | with_reducible refine State.complete_only _ _ _ (List.Subset.trans (by decide) hw) ?_
    | with_reducible refine State.unfence_only _ (List.Subset.trans (by decide) hw) ?_
    | with_reducible refine State.setEngine_only _ _ (List.Subset.trans (by decide) hw) ?_
    | with_reducible refine State.ingStat_only _ (List.Subset.trans (by decide) hw) ?_
    | with_reducible refine OnlyChanges.snd_of (by with_reducible assumption) ?_
    | with_reducible refine OnlyChanges.thd_of (by with_reducible assumption) ?_
    | intro _
    | split
    | dsimp only

theorem State.ingestDone_only {s : State} (n : Nat) (slot : Nat) (host : List (Nat × Byte)) (hw : [.regs, .mem, .out, .edac, .chans, .bufs, .plots, .cache, .ingest, .faults, .queues, .jobs, .msiPending, .pair] ⊆ pcs) (hs : OnlyChanges s0 s pcs) :
    OnlyChanges s0 (State.ingestDone s n slot host) pcs := by
  unfold State.ingestDone
  repeat' first
    | with_reducible assumption
    | with_reducible apply foldl_only
    | with_reducible refine State.event_only _ _ (List.Subset.trans (by decide) hw) ?_
    | with_reducible refine State.recErr_only _ _ _ (List.Subset.trans (by decide) hw) ?_
    | with_reducible refine State.ingTiles_only _ _ _ _ (List.Subset.trans (by decide) hw) ?_
    | with_reducible refine State.ingEnd_only _ _ _ _ (List.Subset.trans (by decide) hw) ?_
    | with_reducible refine OnlyChanges.snd_of (by with_reducible assumption) ?_
    | with_reducible refine OnlyChanges.thd_of (by with_reducible assumption) ?_
    | intro _
    | split
    | dsimp only
    | with_reducible refine OnlyChanges.of_mk ?_ rfl rfl

theorem State.hostReadError_only {s : State} (n : Nat) (slot : Nat) (kind : Nat) (addr : Nat) (tiles : Nat) (host : List (Nat × Byte)) (hw : [.regs, .mem, .out, .edac, .chans, .bufs, .plots, .cache, .ingest, .faults, .queues, .jobs, .msiPending, .pair] ⊆ pcs) (hs : OnlyChanges s0 s pcs) :
    OnlyChanges s0 (State.hostReadError s n slot kind addr tiles host) pcs := by
  unfold State.hostReadError
  repeat' first
    | with_reducible assumption
    | with_reducible apply foldl_only
    | with_reducible refine State.setRw_only _ _ (List.Subset.trans (by decide) hw) ?_
    | with_reducible refine State.event_only _ _ (List.Subset.trans (by decide) hw) ?_
    | with_reducible refine State.recErr_only _ _ _ (List.Subset.trans (by decide) hw) ?_
    | with_reducible refine State.ingTiles_only _ _ _ _ (List.Subset.trans (by decide) hw) ?_
    | with_reducible refine State.ingEnd_only _ _ _ _ (List.Subset.trans (by decide) hw) ?_
    | with_reducible refine OnlyChanges.snd_of (by with_reducible assumption) ?_
    | with_reducible refine OnlyChanges.thd_of (by with_reducible assumption) ?_
    | intro _
    | split
    | dsimp only

theorem State.carryIngest_only (j : Job) {s : State} (hw : [.regs, .out, .bufs, .ingest, .queues, .jobs, .msiPending] ⊆ pcs) (hs : OnlyChanges s0 s pcs) :
    OnlyChanges s0 (State.carryIngest j s) pcs := by
  unfold State.carryIngest
  repeat' first
    | with_reducible assumption
    | with_reducible apply foldl_only
    | with_reducible refine State.complete_only _ _ _ (List.Subset.trans (by decide) hw) ?_
    | with_reducible refine State.fence_only _ (List.Subset.trans (by decide) hw) ?_
    | with_reducible refine State.setEngine_only _ _ (List.Subset.trans (by decide) hw) ?_
    | with_reducible refine State.ingStat_only _ (List.Subset.trans (by decide) hw) ?_
    | with_reducible refine OnlyChanges.snd_of (by with_reducible assumption) ?_
    | with_reducible refine OnlyChanges.thd_of (by with_reducible assumption) ?_
    | intro _
    | split
    | dsimp only
    | with_reducible refine OnlyChanges.of_mk ?_ rfl rfl

theorem State.ingestStart_only {s : State} (n : Nat) (slot : Nat) (hw : [.regs, .ingest, .arbiter] ⊆ pcs) (hs : OnlyChanges s0 s pcs) :
    OnlyChanges s0 (State.ingestStart s n slot) pcs := by
  unfold State.ingestStart
  repeat' first
    | with_reducible assumption
    | with_reducible apply foldl_only
    | with_reducible refine State.pickFn_only _ _ (List.Subset.trans (by decide) hw) ?_
    | with_reducible refine State.served_only _ _ (List.Subset.trans (by decide) hw) ?_
    | with_reducible refine State.setEngine_only _ _ (List.Subset.trans (by decide) hw) ?_
    | with_reducible refine State.ingStat_only _ (List.Subset.trans (by decide) hw) ?_
    | with_reducible refine OnlyChanges.snd_of (by with_reducible assumption) ?_
    | with_reducible refine OnlyChanges.thd_of (by with_reducible assumption) ?_
    | intro _
    | split
    | dsimp only

theorem State.ingSquash_only {s : State} (n : Nat) (which : IngCmd → Bool) (abort : Bool) (hw : [.regs, .mem, .out, .chans, .bufs, .plots, .cache, .ingest, .queues, .jobs, .msiPending, .pair] ⊆ pcs) (hs : OnlyChanges s0 s pcs) :
    OnlyChanges s0 (State.ingSquash s n which abort) pcs := by
  unfold State.ingSquash
  repeat' first
    | with_reducible assumption
    | with_reducible apply foldl_only
    | with_reducible refine State.event_only _ _ (List.Subset.trans (by decide) hw) ?_
    | with_reducible refine State.complete_only _ _ _ (List.Subset.trans (by decide) hw) ?_
    | with_reducible refine State.unfence_only _ (List.Subset.trans (by decide) hw) ?_
    | with_reducible refine State.setEngine_only _ _ (List.Subset.trans (by decide) hw) ?_
    | with_reducible refine State.ingStat_only _ (List.Subset.trans (by decide) hw) ?_
    | with_reducible refine OnlyChanges.snd_of (by with_reducible assumption) ?_
    | with_reducible refine OnlyChanges.thd_of (by with_reducible assumption) ?_
    | intro _
    | split
    | dsimp only

theorem State.ingCtrlWrite_only (a : RegAcc) {s : State} (hw : [.regs, .shad, .out, .msiPending] ⊆ pcs) (hs : OnlyChanges s0 s pcs) :
    OnlyChanges s0 (State.ingCtrlWrite a s) pcs := by
  unfold State.ingCtrlWrite
  repeat' first
    | with_reducible assumption
    | with_reducible apply foldl_only
    | with_reducible refine State.recAcc_only _ _ (List.Subset.trans (by decide) hw) ?_
    | with_reducible refine State.plainWrite_only _ _ (List.Subset.trans (by decide) hw) ?_
    | with_reducible refine OnlyChanges.snd_of (by with_reducible assumption) ?_
    | with_reducible refine OnlyChanges.thd_of (by with_reducible assumption) ?_
    | intro _
    | split
    | dsimp only

end Sys2Proof.Machine
end

