-- ==== Sys2Proof/Laws/FrameTouch.lean ====
section
/-! SUPPORT. What every operation of Machine/Touch.lean leaves alone. -/

namespace Sys2Proof.Machine

set_option Elab.async false
set_option linter.all false

variable {s0 : State} {pcs : List Piece}

theorem State.setTouch_only {s : State} (e : Nat) (x : TouchEngine) (hw : [.touch] ⊆ pcs) (hs : OnlyChanges s0 s pcs) :
    OnlyChanges s0 (State.setTouch s e x) pcs := by
  unfold State.setTouch
  repeat' first
    | with_reducible assumption
    | with_reducible apply foldl_only
    | with_reducible refine OnlyChanges.snd_of (by with_reducible assumption) ?_
    | with_reducible refine OnlyChanges.thd_of (by with_reducible assumption) ?_
    | intro _
    | split
    | dsimp only
    | with_reducible refine OnlyChanges.of_mk ?_ rfl rfl

theorem State.setPanel_only {s : State} (e : Nat) (x2 : Nat) (x : Panel) (hw : [.regs, .touch] ⊆ pcs) (hs : OnlyChanges s0 s pcs) :
    OnlyChanges s0 (State.setPanel s e x2 x) pcs := by
  unfold State.setPanel
  repeat' first
    | with_reducible assumption
    | with_reducible apply foldl_only
    | with_reducible refine State.setFld_only _ _ _ _ (List.Subset.trans (by decide) hw) ?_
    | with_reducible refine State.setTouch_only _ _ (List.Subset.trans (by decide) hw) ?_
    | with_reducible refine OnlyChanges.snd_of (by with_reducible assumption) ?_
    | with_reducible refine OnlyChanges.thd_of (by with_reducible assumption) ?_
    | intro _
    | split
    | dsimp only

theorem State.recPanelFault_only {s : State} (e : Nat) (x : PanelFault) (hw : [.regs, .out, .msiPending] ⊆ pcs) (hs : OnlyChanges s0 s pcs) :
    OnlyChanges s0 (State.recPanelFault s e x) pcs := by
  unfold State.recPanelFault
  repeat' first
    | with_reducible assumption
    | with_reducible apply foldl_only
    | with_reducible refine State.recErr_only _ _ _ (List.Subset.trans (by decide) hw) ?_
    | with_reducible refine OnlyChanges.snd_of (by with_reducible assumption) ?_
    | with_reducible refine OnlyChanges.thd_of (by with_reducible assumption) ?_
    | intro _
    | split
    | dsimp only

theorem State.touchUnbind_only {s : State} (e : Nat) (x2 : Nat) (hw : [.regs, .out, .msiPending] ⊆ pcs) (hs : OnlyChanges s0 s pcs) :
    OnlyChanges s0 (State.touchUnbind s e x2) pcs := by
  unfold State.touchUnbind
  repeat' first
    | with_reducible assumption
    | with_reducible apply foldl_only
    | with_reducible refine State.setFld_only _ _ _ _ (List.Subset.trans (by decide) hw) ?_
    | with_reducible refine State.event_only _ _ (List.Subset.trans (by decide) hw) ?_
    | with_reducible refine OnlyChanges.snd_of (by with_reducible assumption) ?_
    | with_reducible refine OnlyChanges.thd_of (by with_reducible assumption) ?_
    | intro _
    | split
    | dsimp only

theorem State.touchWrite_only {s : State} (e : Nat) (x2 : Nat) (b : Nat) (ws : List Nat) (hw : [.regs, .mem, .out, .edac, .bufs, .cache, .faults, .msiPending, .pair] ⊆ pcs) (hs : OnlyChanges s0 s pcs) :
    OnlyChanges s0 (State.touchWrite s e x2 b ws).2 pcs := by
  unfold State.touchWrite
  repeat' first
    | with_reducible assumption
    | with_reducible apply foldl_only
    | with_reducible refine State.writeBuf_only _ _ _ _ (List.Subset.trans (by decide) hw) ?_
    | with_reducible refine State.touchUnbind_only _ _ (List.Subset.trans (by decide) hw) ?_
    | with_reducible refine OnlyChanges.snd_of (by with_reducible assumption) ?_
    | with_reducible refine OnlyChanges.thd_of (by with_reducible assumption) ?_
    | intro _
    | split
    | dsimp only

theorem State.snapshot_only {s : State} (e : Nat) (x2 : Nat) (hw : [.regs, .mem, .out, .edac, .bufs, .cache, .faults, .msiPending, .pair] ⊆ pcs) (hs : OnlyChanges s0 s pcs) :
    OnlyChanges s0 (State.snapshot s e x2) pcs := by
  unfold State.snapshot
  repeat' first
    | with_reducible assumption
    | with_reducible apply foldl_only
    | with_reducible refine State.touchWrite_only _ _ _ _ (List.Subset.trans (by decide) hw) ?_
    | with_reducible refine OnlyChanges.snd_of (by with_reducible assumption) ?_
    | with_reducible refine OnlyChanges.thd_of (by with_reducible assumption) ?_
    | intro _
    | split
    | dsimp only

theorem State.touchHost_only {s : State} (e : Nat) (x2 : Nat) (seq : Nat) (ws : List Nat) (hw : [.regs, .out, .msiPending] ⊆ pcs) (hs : OnlyChanges s0 s pcs) :
    OnlyChanges s0 (State.touchHost s e x2 seq ws) pcs := by
  unfold State.touchHost
  repeat' first
    | with_reducible assumption
    | with_reducible apply foldl_only
    | with_reducible refine State.satFld_only _ _ _ _ (List.Subset.trans (by decide) hw) ?_
    | with_reducible refine State.emit_only _ (List.Subset.trans (by decide) hw) ?_
    | with_reducible refine State.sendMsg_only _ _ (List.Subset.trans (by decide) hw) ?_
    | with_reducible refine OnlyChanges.snd_of (by with_reducible assumption) ?_
    | with_reducible refine OnlyChanges.thd_of (by with_reducible assumption) ?_
    | intro _
    | split
    | dsimp only

theorem State.storeRecord_only {s : State} (e : Nat) (x2 : Nat) (seq : Nat) (ws : List Nat) (hw : [.regs, .mem, .out, .edac, .bufs, .cache, .faults, .msiPending, .pair] ⊆ pcs) (hs : OnlyChanges s0 s pcs) :
    OnlyChanges s0 (State.storeRecord s e x2 seq ws) pcs := by
  unfold State.storeRecord
  repeat' first
    | with_reducible assumption
    | with_reducible apply foldl_only
    | with_reducible refine State.touchWrite_only _ _ _ _ (List.Subset.trans (by decide) hw) ?_
    | with_reducible refine OnlyChanges.snd_of (by with_reducible assumption) ?_
    | with_reducible refine OnlyChanges.thd_of (by with_reducible assumption) ?_
    | intro _
    | split
    | dsimp only

theorem State.touchRecord_only {s : State} (e : Nat) (x2 : Nat) (overflow : Bool) (es : List TouchEntry) (hw : [.regs, .mem, .out, .edac, .bufs, .cache, .touch, .faults, .msiPending, .pair] ⊆ pcs) (hs : OnlyChanges s0 s pcs) :
    OnlyChanges s0 (State.touchRecord s e x2 overflow es) pcs := by
  unfold State.touchRecord
  repeat' first
    | with_reducible assumption
    | with_reducible apply foldl_only
    | with_reducible refine State.setFld_only _ _ _ _ (List.Subset.trans (by decide) hw) ?_
    | with_reducible refine State.setPanel_only _ _ _ (List.Subset.trans (by decide) hw) ?_
    | with_reducible refine State.touchHost_only _ _ _ _ (List.Subset.trans (by decide) hw) ?_
    | with_reducible refine State.storeRecord_only _ _ _ _ (List.Subset.trans (by decide) hw) ?_
    | with_reducible refine OnlyChanges.snd_of (by with_reducible assumption) ?_
    | with_reducible refine OnlyChanges.thd_of (by with_reducible assumption) ?_
    | intro _
    | split
    | dsimp only

theorem State.handOff_only {s : State} (e : Nat) (x2 : Nat) (es : List TouchEntry) (hw : [.touch] ⊆ pcs) (hs : OnlyChanges s0 s pcs) :
    OnlyChanges s0 (State.handOff s e x2 es) pcs := by
  unfold State.handOff
  repeat' first
    | with_reducible assumption
    | with_reducible apply foldl_only
    | with_reducible refine OnlyChanges.snd_of (by with_reducible assumption) ?_
    | with_reducible refine OnlyChanges.thd_of (by with_reducible assumption) ?_
    | intro _
    | split
    | dsimp only
    | with_reducible refine OnlyChanges.of_mk ?_ rfl rfl

theorem State.panelStartWith_only {s : State} (snap : Bool) (e : Nat) (x3 : Nat) (hw : [.regs, .touch] ⊆ pcs) (hs : OnlyChanges s0 s pcs) :
    OnlyChanges s0 (State.panelStartWith s snap e x3) pcs := by
  unfold State.panelStartWith
  repeat' first
    | with_reducible assumption
    | with_reducible apply foldl_only
    | with_reducible refine State.setFld_only _ _ _ _ (List.Subset.trans (by decide) hw) ?_
    | with_reducible refine State.setPanel_only _ _ _ (List.Subset.trans (by decide) hw) ?_
    | with_reducible refine OnlyChanges.snd_of (by with_reducible assumption) ?_
    | with_reducible refine OnlyChanges.thd_of (by with_reducible assumption) ?_
    | intro _
    | split
    | dsimp only

theorem State.panelStart_only {s : State} (e : Nat) (x2 : Nat) (hw : [.regs, .touch] ⊆ pcs) (hs : OnlyChanges s0 s pcs) :
    OnlyChanges s0 (State.panelStart s e x2) pcs := by
  unfold State.panelStart
  repeat' first
    | with_reducible assumption
    | with_reducible apply foldl_only
    | with_reducible refine State.panelStartWith_only _ _ _ (List.Subset.trans (by decide) hw) ?_
    | with_reducible refine OnlyChanges.snd_of (by with_reducible assumption) ?_
    | with_reducible refine OnlyChanges.thd_of (by with_reducible assumption) ?_
    | intro _
    | split
    | dsimp only

theorem State.panelStopped_only {s : State} (e : Nat) (x2 : Nat) (hw : [.regs, .mem, .out, .edac, .bufs, .cache, .touch, .faults, .msiPending, .pair] ⊆ pcs) (hs : OnlyChanges s0 s pcs) :
    OnlyChanges s0 (State.panelStopped s e x2) pcs := by
  unfold State.panelStopped
  repeat' first
    | with_reducible assumption
    | with_reducible apply foldl_only
    | with_reducible refine State.setPanel_only _ _ _ (List.Subset.trans (by decide) hw) ?_
    | with_reducible refine State.snapshot_only _ _ (List.Subset.trans (by decide) hw) ?_
    | with_reducible refine State.touchRecord_only _ _ _ _ (List.Subset.trans (by decide) hw) ?_
    | with_reducible refine State.handOff_only _ _ _ (List.Subset.trans (by decide) hw) ?_
    | with_reducible refine OnlyChanges.snd_of (by with_reducible assumption) ?_
    | with_reducible refine OnlyChanges.thd_of (by with_reducible assumption) ?_
    | intro _
    | split
    | dsimp only

theorem State.panelStop_only {s : State} (e : Nat) (x2 : Nat) (hw : [.regs, .mem, .out, .edac, .bufs, .cache, .touch, .faults, .msiPending, .pair] ⊆ pcs) (hs : OnlyChanges s0 s pcs) :
    OnlyChanges s0 (State.panelStop s e x2) pcs := by
  unfold State.panelStop
  repeat' first
    | with_reducible assumption
    | with_reducible apply foldl_only
    | with_reducible refine State.setPanel_only _ _ _ (List.Subset.trans (by decide) hw) ?_
    | with_reducible refine State.panelStopped_only _ _ (List.Subset.trans (by decide) hw) ?_
    | with_reducible refine OnlyChanges.snd_of (by with_reducible assumption) ?_
    | with_reducible refine OnlyChanges.thd_of (by with_reducible assumption) ?_
    | intro _
    | split
    | dsimp only

theorem State.touchStopped_only {s : State} (e : Nat) (hw : [.regs, .touch] ⊆ pcs) (hs : OnlyChanges s0 s pcs) :
    OnlyChanges s0 (State.touchStopped s e) pcs := by
  unfold State.touchStopped
  repeat' first
    | with_reducible assumption
    | with_reducible apply foldl_only
    | with_reducible refine State.setFld_only _ _ _ _ (List.Subset.trans (by decide) hw) ?_
    | with_reducible refine State.setTouch_only _ _ (List.Subset.trans (by decide) hw) ?_
    | with_reducible refine OnlyChanges.snd_of (by with_reducible assumption) ?_
    | with_reducible refine OnlyChanges.thd_of (by with_reducible assumption) ?_
    | intro _
    | split
    | dsimp only

theorem State.touchStart_only {s : State} (e : Nat) (hw : [.regs, .touch] ⊆ pcs) (hs : OnlyChanges s0 s pcs) :
    OnlyChanges s0 (State.touchStart s e) pcs := by
  unfold State.touchStart
  repeat' first
    | with_reducible assumption
    | with_reducible apply foldl_only
    | with_reducible refine State.setFld_only _ _ _ _ (List.Subset.trans (by decide) hw) ?_
    | with_reducible refine State.panelStart_only _ _ (List.Subset.trans (by decide) hw) ?_
    | with_reducible refine OnlyChanges.snd_of (by with_reducible assumption) ?_
    | with_reducible refine OnlyChanges.thd_of (by with_reducible assumption) ?_
    | intro _
    | split
    | dsimp only

theorem State.touchStop_only {s : State} (e : Nat) (hw : [.regs, .mem, .out, .edac, .bufs, .cache, .touch, .faults, .msiPending, .pair] ⊆ pcs) (hs : OnlyChanges s0 s pcs) :
    OnlyChanges s0 (State.touchStop s e) pcs := by
  unfold State.touchStop
  repeat' first
    | with_reducible assumption
    | with_reducible apply foldl_only
    | with_reducible refine State.setTouch_only _ _ (List.Subset.trans (by decide) hw) ?_
    | with_reducible refine State.panelStop_only _ _ (List.Subset.trans (by decide) hw) ?_
    | with_reducible refine State.touchStopped_only _ (List.Subset.trans (by decide) hw) ?_
    | with_reducible refine OnlyChanges.snd_of (by with_reducible assumption) ?_
    | with_reducible refine OnlyChanges.thd_of (by with_reducible assumption) ?_
    | intro _
    | split
    | dsimp only

theorem State.tchEnable_only (a : RegAcc) (on : Bool) {s : State} (hw : [.regs, .mem, .out, .edac, .bufs, .cache, .touch, .faults, .msiPending, .pair] ⊆ pcs) (hs : OnlyChanges s0 s pcs) :
    OnlyChanges s0 (State.tchEnable a on s) pcs := by
  unfold State.tchEnable
  repeat' first
    | with_reducible assumption
    | with_reducible apply foldl_only
    | with_reducible refine State.setFld_only _ _ _ _ (List.Subset.trans (by decide) hw) ?_
    | with_reducible refine State.mirrorWrite_only _ _ _ (List.Subset.trans (by decide) hw) ?_
    | with_reducible refine State.recPanelFault_only _ _ (List.Subset.trans (by decide) hw) ?_
    | with_reducible refine State.touchStart_only _ (List.Subset.trans (by decide) hw) ?_
    | with_reducible refine State.touchStop_only _ (List.Subset.trans (by decide) hw) ?_
    | with_reducible refine OnlyChanges.snd_of (by with_reducible assumption) ?_
    | with_reducible refine OnlyChanges.thd_of (by with_reducible assumption) ?_
    | intro _
    | split
    | dsimp only

theorem State.tchReset_only (a : RegAcc) {s : State} (hw : [.regs, .shad, .touch, .faults, .pair] ⊆ pcs) (hs : OnlyChanges s0 s pcs) :
    OnlyChanges s0 (State.tchReset a s) pcs := by
  unfold State.tchReset
  repeat' first
    | with_reducible assumption
    | with_reducible apply foldl_only
    | with_reducible refine State.mirrorWrite_only _ _ _ (List.Subset.trans (by decide) hw) ?_
    | with_reducible refine State.resetPage_only _ _ (List.Subset.trans (by decide) hw) ?_
    | with_reducible refine State.setTouch_only _ _ (List.Subset.trans (by decide) hw) ?_
    | with_reducible refine OnlyChanges.snd_of (by with_reducible assumption) ?_
    | with_reducible refine OnlyChanges.thd_of (by with_reducible assumption) ?_
    | intro _
    | split
    | dsimp only

theorem State.touchActivate_only {s : State} (snap : Bool) (hw : [.regs, .touch] ⊆ pcs) (hs : OnlyChanges s0 s pcs) :
    OnlyChanges s0 (State.touchActivate s snap) pcs := by
  unfold State.touchActivate
  repeat' first
    | with_reducible assumption
    | with_reducible apply foldl_only
    | with_reducible refine State.panelStartWith_only _ _ _ (List.Subset.trans (by decide) hw) ?_
    | with_reducible refine OnlyChanges.snd_of (by with_reducible assumption) ?_
    | with_reducible refine OnlyChanges.thd_of (by with_reducible assumption) ?_
    | intro _
    | split
    | dsimp only

theorem State.touchLeave_only {s : State} (hw : [.regs, .mem, .out, .edac, .bufs, .cache, .touch, .faults, .msiPending, .pair] ⊆ pcs) (hs : OnlyChanges s0 s pcs) :
    OnlyChanges s0 (State.touchLeave s) pcs := by
  unfold State.touchLeave
  repeat' first
    | with_reducible assumption
    | with_reducible apply foldl_only
    | with_reducible refine State.panelStop_only _ _ (List.Subset.trans (by decide) hw) ?_
    | with_reducible refine OnlyChanges.snd_of (by with_reducible assumption) ?_
    | with_reducible refine OnlyChanges.thd_of (by with_reducible assumption) ?_
    | intro _
    | split
    | dsimp only

theorem State.touchRestart_only {s : State} (hw : [.regs, .touch] ⊆ pcs) (hs : OnlyChanges s0 s pcs) :
    OnlyChanges s0 (State.touchRestart s) pcs := by
  unfold State.touchRestart
  repeat' first
    | with_reducible assumption
    | with_reducible apply foldl_only
    | with_reducible refine State.touchStart_only _ (List.Subset.trans (by decide) hw) ?_
    | with_reducible refine OnlyChanges.snd_of (by with_reducible assumption) ?_
    | with_reducible refine OnlyChanges.thd_of (by with_reducible assumption) ?_
    | intro _
    | split
    | dsimp only

theorem State.tchPlainWrite_only (a : RegAcc) {s : State} (hw : [.regs, .shad, .out, .msiPending, .pair] ⊆ pcs) (hs : OnlyChanges s0 s pcs) :
    OnlyChanges s0 (State.tchPlainWrite a s) pcs := by
  unfold State.tchPlainWrite
  repeat' first
    | with_reducible assumption
    | with_reducible apply foldl_only
    | with_reducible refine State.recAcc_only _ _ (List.Subset.trans (by decide) hw) ?_
    | with_reducible refine State.plainWrite_only _ _ (List.Subset.trans (by decide) hw) ?_
    | with_reducible refine State.mirrorWrite_only _ _ _ (List.Subset.trans (by decide) hw) ?_
    | with_reducible refine OnlyChanges.snd_of (by with_reducible assumption) ?_
    | with_reducible refine OnlyChanges.thd_of (by with_reducible assumption) ?_
    | intro _
    | split
    | dsimp only

theorem State.captureRef_only {s : State} (e : Nat) (x2 : Nat) (hw : [.regs, .touch] ⊆ pcs) (hs : OnlyChanges s0 s pcs) :
    OnlyChanges s0 (State.captureRef s e x2) pcs := by
  unfold State.captureRef
  repeat' first
    | with_reducible assumption
    | with_reducible apply foldl_only
    | with_reducible refine State.setPanel_only _ _ _ (List.Subset.trans (by decide) hw) ?_
    | with_reducible refine OnlyChanges.snd_of (by with_reducible assumption) ?_
    | with_reducible refine OnlyChanges.thd_of (by with_reducible assumption) ?_
    | intro _
    | split
    | dsimp only

theorem State.tchCfgWrite_only (a : RegAcc) {s : State} (hw : [.regs, .shad, .mem, .out, .edac, .bufs, .cache, .touch, .faults, .msiPending, .pair] ⊆ pcs) (hs : OnlyChanges s0 s pcs) :
    OnlyChanges s0 (State.tchCfgWrite a s) pcs := by
  unfold State.tchCfgWrite
  repeat' first
    | with_reducible assumption
    | with_reducible apply foldl_only
    | with_reducible refine State.setFld_only _ _ _ _ (List.Subset.trans (by decide) hw) ?_
    | with_reducible refine State.recAcc_only _ _ (List.Subset.trans (by decide) hw) ?_
    | with_reducible refine State.plainWrite_only _ _ (List.Subset.trans (by decide) hw) ?_
    | with_reducible refine State.mirrorWrite_only _ _ _ (List.Subset.trans (by decide) hw) ?_
    | with_reducible refine State.recPanelFault_only _ _ (List.Subset.trans (by decide) hw) ?_
    | with_reducible refine State.panelStart_only _ _ (List.Subset.trans (by decide) hw) ?_
    | with_reducible refine State.panelStop_only _ _ (List.Subset.trans (by decide) hw) ?_
    | with_reducible refine State.captureRef_only _ _ (List.Subset.trans (by decide) hw) ?_
    | with_reducible refine OnlyChanges.snd_of (by with_reducible assumption) ?_
    | with_reducible refine OnlyChanges.thd_of (by with_reducible assumption) ?_
    | intro _
    | split
    | dsimp only

theorem State.tchBufWrite_only (a : RegAcc) {s : State} (hw : [.regs, .shad, .out, .msiPending, .pair] ⊆ pcs) (hs : OnlyChanges s0 s pcs) :
    OnlyChanges s0 (State.tchBufWrite a s) pcs := by
  unfold State.tchBufWrite
  repeat' first
    | with_reducible assumption
    | with_reducible apply foldl_only
    | with_reducible refine State.setFld_only _ _ _ _ (List.Subset.trans (by decide) hw) ?_
    | with_reducible refine State.recRefused_only _ (List.Subset.trans (by decide) hw) ?_
    | with_reducible refine State.refuse_only _ _ (List.Subset.trans (by decide) hw) ?_
    | with_reducible refine State.plainWrite_only _ _ (List.Subset.trans (by decide) hw) ?_
    | with_reducible refine State.mirrorWrite_only _ _ _ (List.Subset.trans (by decide) hw) ?_
    | with_reducible refine OnlyChanges.snd_of (by with_reducible assumption) ?_
    | with_reducible refine OnlyChanges.thd_of (by with_reducible assumption) ?_
    | intro _
    | split
    | dsimp only

theorem State.tchRouteWrite_only (a : RegAcc) {s : State} (hw : [.regs, .shad, .out, .msiPending, .pair] ⊆ pcs) (hs : OnlyChanges s0 s pcs) :
    OnlyChanges s0 (State.tchRouteWrite a s) pcs := by
  unfold State.tchRouteWrite
  repeat' first
    | with_reducible assumption
    | with_reducible apply foldl_only
    | with_reducible refine State.refuse_only _ _ (List.Subset.trans (by decide) hw) ?_
    | with_reducible refine State.plainWrite_only _ _ (List.Subset.trans (by decide) hw) ?_
    | with_reducible refine State.mirrorWrite_only _ _ _ (List.Subset.trans (by decide) hw) ?_
    | with_reducible refine OnlyChanges.snd_of (by with_reducible assumption) ?_
    | with_reducible refine OnlyChanges.thd_of (by with_reducible assumption) ?_
    | intro _
    | split
    | dsimp only

theorem State.nodeAccess_only (a : RegAcc) (isRead : Bool) {s : State} (hw : [.regs, .out, .touch, .msiPending] ⊆ pcs) (hs : OnlyChanges s0 s pcs) :
    OnlyChanges s0 (State.nodeAccess a isRead s) pcs := by
  unfold State.nodeAccess
  repeat' first
    | with_reducible assumption
    | with_reducible apply foldl_only
    | with_reducible refine State.setFld_only _ _ _ _ (List.Subset.trans (by decide) hw) ?_
    | with_reducible refine State.recErr_only _ _ _ (List.Subset.trans (by decide) hw) ?_
    | with_reducible refine State.recAcc_only _ _ (List.Subset.trans (by decide) hw) ?_
    | with_reducible refine State.denyReg_only _ (List.Subset.trans (by decide) hw) ?_
    | with_reducible refine State.answerRead_only _ _ (List.Subset.trans (by decide) hw) ?_
    | with_reducible refine State.setPanel_only _ _ _ (List.Subset.trans (by decide) hw) ?_
    | with_reducible refine OnlyChanges.snd_of (by with_reducible assumption) ?_
    | with_reducible refine OnlyChanges.thd_of (by with_reducible assumption) ?_
    | intro _
    | split
    | dsimp only

theorem State.touchFrameEnd_only {s : State} (e : Nat) (hw : [.regs, .out, .touch, .msiPending] ⊆ pcs) (hs : OnlyChanges s0 s pcs) :
    OnlyChanges s0 (State.touchFrameEnd s e) pcs := by
  unfold State.touchFrameEnd
  repeat' first
    | with_reducible assumption
    | with_reducible apply foldl_only
    | with_reducible refine State.setFld_only _ _ _ _ (List.Subset.trans (by decide) hw) ?_
    | with_reducible refine State.addFld_only _ _ _ _ (List.Subset.trans (by decide) hw) ?_
    | with_reducible refine State.event_only _ _ (List.Subset.trans (by decide) hw) ?_
    | with_reducible refine State.setTouch_only _ _ (List.Subset.trans (by decide) hw) ?_
    | with_reducible refine State.touchStopped_only _ (List.Subset.trans (by decide) hw) ?_
    | with_reducible refine OnlyChanges.snd_of (by with_reducible assumption) ?_
    | with_reducible refine OnlyChanges.thd_of (by with_reducible assumption) ?_
    | intro _
    | split
    | dsimp only

theorem State.touchFrameStart_only {s : State} (e : Nat) (hw : [.regs, .out, .touch, .msiPending] ⊆ pcs) (hs : OnlyChanges s0 s pcs) :
    OnlyChanges s0 (State.touchFrameStart s e) pcs := by
  unfold State.touchFrameStart
  repeat' first
    | with_reducible assumption
    | with_reducible apply foldl_only
    | with_reducible refine State.setFld_only _ _ _ _ (List.Subset.trans (by decide) hw) ?_
    | with_reducible refine State.event_only _ _ (List.Subset.trans (by decide) hw) ?_
    | with_reducible refine State.setTouch_only _ _ (List.Subset.trans (by decide) hw) ?_
    | with_reducible refine State.touchFrameEnd_only _ (List.Subset.trans (by decide) hw) ?_
    | with_reducible refine OnlyChanges.snd_of (by with_reducible assumption) ?_
    | with_reducible refine OnlyChanges.thd_of (by with_reducible assumption) ?_
    | intro _
    | split
    | dsimp only

theorem State.touchReport_only {s : State} (e : Nat) (x2 : Nat) (t : State.Tracked) (hw : [.regs, .mem, .out, .edac, .bufs, .cache, .touch, .faults, .msiPending, .pair] ⊆ pcs) (hs : OnlyChanges s0 s pcs) :
    OnlyChanges s0 (State.touchReport s e x2 t) pcs := by
  unfold State.touchReport
  repeat' first
    | with_reducible assumption
    | with_reducible apply foldl_only
    | with_reducible refine State.touchRecord_only _ _ _ _ (List.Subset.trans (by decide) hw) ?_
    | with_reducible refine State.handOff_only _ _ _ (List.Subset.trans (by decide) hw) ?_
    | with_reducible refine OnlyChanges.snd_of (by with_reducible assumption) ?_
    | with_reducible refine OnlyChanges.thd_of (by with_reducible assumption) ?_
    | intro _
    | split
    | dsimp only

theorem State.calFrame_only {s : State} (e : Nat) (x2 : Nat) (x : Panel) (counts : List (Nat × Nat)) (hw : [.regs, .out, .touch, .faults, .msiPending] ⊆ pcs) (hs : OnlyChanges s0 s pcs) :
    OnlyChanges s0 (State.calFrame s e x2 x counts) pcs := by
  unfold State.calFrame
  repeat' first
    | with_reducible assumption
    | with_reducible apply foldl_only
    | with_reducible refine State.event_only _ _ (List.Subset.trans (by decide) hw) ?_
    | with_reducible refine State.recErr_only _ _ _ (List.Subset.trans (by decide) hw) ?_
    | with_reducible refine State.reportContained_only _ _ _ _ (List.Subset.trans (by decide) hw) ?_
    | with_reducible refine State.setPanel_only _ _ _ (List.Subset.trans (by decide) hw) ?_
    | with_reducible refine OnlyChanges.snd_of (by with_reducible assumption) ?_
    | with_reducible refine OnlyChanges.thd_of (by with_reducible assumption) ?_
    | intro _
    | split
    | dsimp only

theorem State.refFrame_only {s : State} {v : State} (e : Nat) (x3 : Nat) (c : PanelCfg) (x : Panel) (counts : List (Nat × Nat)) (hw : [.regs, .mem, .out, .edac, .bufs, .cache, .touch, .faults, .msiPending, .pair] ⊆ pcs) (hs : OnlyChanges s0 s pcs) :
    OnlyChanges s0 (State.refFrame s v e x3 c x counts) pcs := by
  unfold State.refFrame
  repeat' first
    | with_reducible assumption
    | with_reducible apply foldl_only
    | with_reducible refine State.setFld_only _ _ _ _ (List.Subset.trans (by decide) hw) ?_
    | with_reducible refine State.setPanel_only _ _ _ (List.Subset.trans (by decide) hw) ?_
    | with_reducible refine State.touchReport_only _ _ _ (List.Subset.trans (by decide) hw) ?_
    | with_reducible refine OnlyChanges.snd_of (by with_reducible assumption) ?_
    | with_reducible refine OnlyChanges.thd_of (by with_reducible assumption) ?_
    | intro _
    | split
    | dsimp only

theorem State.scanFrame_only {s : State} {v : State} (e : Nat) (x3 : Nat) (c : PanelCfg) (x : Panel) (counts : List (Nat × Nat)) (hw : [.regs, .mem, .out, .edac, .bufs, .cache, .touch, .faults, .msiPending, .pair] ⊆ pcs) (hs : OnlyChanges s0 s pcs) :
    OnlyChanges s0 (State.scanFrame s v e x3 c x counts) pcs := by
  unfold State.scanFrame
  repeat' first
    | with_reducible assumption
    | with_reducible apply foldl_only
    | with_reducible refine State.event_only _ _ (List.Subset.trans (by decide) hw) ?_
    | with_reducible refine State.setPanel_only _ _ _ (List.Subset.trans (by decide) hw) ?_
    | with_reducible refine State.touchReport_only _ _ _ (List.Subset.trans (by decide) hw) ?_
    | with_reducible refine OnlyChanges.snd_of (by with_reducible assumption) ?_
    | with_reducible refine OnlyChanges.thd_of (by with_reducible assumption) ?_
    | intro _
    | split
    | dsimp only

theorem State.panelScanEnd_only {s : State} (e : Nat) (x2 : Nat) (m : List (List Nat × List Nat)) (listen : List Nat) (cand : List Nat) (hw : [.regs, .mem, .out, .edac, .bufs, .cache, .touch, .faults, .msiPending, .pair] ⊆ pcs) (hs : OnlyChanges s0 s pcs) :
    OnlyChanges s0 (State.panelScanEnd s e x2 m listen cand) pcs := by
  unfold State.panelScanEnd
  repeat' first
    | with_reducible assumption
    | with_reducible apply foldl_only
    | with_reducible refine State.setTouch_only _ _ (List.Subset.trans (by decide) hw) ?_
    | with_reducible refine State.panelStopped_only _ _ (List.Subset.trans (by decide) hw) ?_
    | with_reducible refine State.touchFrameEnd_only _ (List.Subset.trans (by decide) hw) ?_
    | with_reducible refine State.calFrame_only _ _ _ _ (List.Subset.trans (by decide) hw) ?_
    | with_reducible refine State.refFrame_only _ _ _ _ _ (List.Subset.trans (by decide) hw) ?_
    | with_reducible refine State.scanFrame_only _ _ _ _ _ (List.Subset.trans (by decide) hw) ?_
    | with_reducible refine OnlyChanges.snd_of (by with_reducible assumption) ?_
    | with_reducible refine OnlyChanges.thd_of (by with_reducible assumption) ?_
    | intro _
    | split
    | dsimp only

theorem State.touchSnapshot_only {s : State} (e : Nat) (x2 : Nat) (hw : [.regs, .mem, .out, .edac, .bufs, .cache, .faults, .msiPending, .pair] ⊆ pcs) (hs : OnlyChanges s0 s pcs) :
    OnlyChanges s0 (State.touchSnapshot s e x2) pcs := by
  unfold State.touchSnapshot
  repeat' first
    | with_reducible assumption
    | with_reducible apply foldl_only
    | with_reducible refine State.snapshot_only _ _ (List.Subset.trans (by decide) hw) ?_
    | with_reducible refine OnlyChanges.snd_of (by with_reducible assumption) ?_
    | with_reducible refine OnlyChanges.thd_of (by with_reducible assumption) ?_
    | intro _
    | split
    | dsimp only

end Sys2Proof.Machine
end

