-- ==== Sys2Proof/Laws/FrameHaptic.lean ====
section
/-! SUPPORT. What every operation of Machine/Haptic.lean leaves alone. -/

namespace Sys2Proof.Machine

set_option Elab.async false
set_option linter.all false

variable {s0 : State} {pcs : List Piece}

theorem State.setHap_only {s : State} (c : Nat) (x : HapChan) (hw : [.regs, .haptic] ⊆ pcs) (hs : OnlyChanges s0 s pcs) :
    OnlyChanges s0 (State.setHap s c x) pcs := by
  unfold State.setHap
  repeat' first
    | with_reducible assumption
    | with_reducible apply foldl_only
    | with_reducible refine State.setFld_only _ _ _ _ (List.Subset.trans (by decide) hw) ?_
    | with_reducible refine OnlyChanges.snd_of (by with_reducible assumption) ?_
    | with_reducible refine OnlyChanges.thd_of (by with_reducible assumption) ?_
    | intro _
    | split
    | dsimp only
    | with_reducible refine OnlyChanges.of_mk ?_ rfl rfl

theorem State.ruleStat_only {s : State} (hw : [.regs] ⊆ pcs) (hs : OnlyChanges s0 s pcs) :
    OnlyChanges s0 (State.ruleStat s) pcs := by
  unfold State.ruleStat
  repeat' first
    | with_reducible assumption
    | with_reducible apply foldl_only
    | with_reducible refine State.setFld_only _ _ _ _ (List.Subset.trans (by decide) hw) ?_
    | with_reducible refine OnlyChanges.snd_of (by with_reducible assumption) ?_
    | with_reducible refine OnlyChanges.thd_of (by with_reducible assumption) ?_
    | intro _
    | split
    | dsimp only

theorem State.clipGc_only {s : State} (hw : [.regs, .haptic] ⊆ pcs) (hs : OnlyChanges s0 s pcs) :
    OnlyChanges s0 (State.clipGc s) pcs := by
  unfold State.clipGc
  repeat' first
    | with_reducible assumption
    | with_reducible apply foldl_only
    | with_reducible refine State.ruleStat_only  (List.Subset.trans (by decide) hw) ?_
    | with_reducible refine OnlyChanges.snd_of (by with_reducible assumption) ?_
    | with_reducible refine OnlyChanges.thd_of (by with_reducible assumption) ?_
    | intro _
    | split
    | dsimp only
    | with_reducible refine OnlyChanges.of_mk ?_ rfl rfl

theorem State.nameClip_only {s : State} (e : Effect) (hw : [.regs, .bufs, .haptic] ⊆ pcs) (hs : OnlyChanges s0 s pcs) :
    OnlyChanges s0 (State.nameClip s e) pcs := by
  unfold State.nameClip
  repeat' first
    | with_reducible assumption
    | with_reducible apply foldl_only
    | with_reducible refine State.fence_only _ (List.Subset.trans (by decide) hw) ?_
    | with_reducible refine State.ruleStat_only  (List.Subset.trans (by decide) hw) ?_
    | with_reducible refine OnlyChanges.snd_of (by with_reducible assumption) ?_
    | with_reducible refine OnlyChanges.thd_of (by with_reducible assumption) ?_
    | intro _
    | split
    | dsimp only
    | with_reducible refine OnlyChanges.of_mk ?_ rfl rfl

theorem State.dropClip_only {s : State} (e : Effect) (hw : [.regs, .mem, .out, .chans, .bufs, .plots, .cache, .haptic, .queues, .jobs, .msiPending, .pair] ⊆ pcs) (hs : OnlyChanges s0 s pcs) :
    OnlyChanges s0 (State.dropClip s e) pcs := by
  unfold State.dropClip
  repeat' first
    | with_reducible assumption
    | with_reducible apply foldl_only
    | with_reducible refine State.unfence_only _ (List.Subset.trans (by decide) hw) ?_
    | with_reducible refine State.clipGc_only  (List.Subset.trans (by decide) hw) ?_
    | with_reducible refine OnlyChanges.snd_of (by with_reducible assumption) ?_
    | with_reducible refine OnlyChanges.thd_of (by with_reducible assumption) ?_
    | intro _
    | split
    | dsimp only

theorem State.readClip_only {s : State} (who : Attr) (i : Nat) (b : Nat) (x4 : Nat) (hw : [.regs, .mem, .out, .free, .edac, .cache, .faults, .msiPending] ⊆ pcs) (hs : OnlyChanges s0 s pcs) :
    OnlyChanges s0 (State.readClip s who i b x4).2 pcs := by
  induction x4 generalizing s who i b with
  | zero =>
    unfold State.readClip
    repeat' first
      | with_reducible assumption
      | with_reducible apply foldl_only
      | with_reducible refine State.takeFree_only  (List.Subset.trans (by decide) hw) ?_
      | with_reducible refine State.readWordAs_only _ _ (List.Subset.trans (by decide) hw) ?_
      | with_reducible refine OnlyChanges.snd_of (by with_reducible assumption) ?_
      | with_reducible refine OnlyChanges.thd_of (by with_reducible assumption) ?_
      | intro _
      | split
      | dsimp only
  | succ _ ih =>
    unfold State.readClip
    repeat' first
      | with_reducible assumption
      | with_reducible apply ih
      | with_reducible apply foldl_only
      | with_reducible refine State.takeFree_only  (List.Subset.trans (by decide) hw) ?_
      | with_reducible refine State.readWordAs_only _ _ (List.Subset.trans (by decide) hw) ?_
      | with_reducible refine OnlyChanges.snd_of (by with_reducible assumption) ?_
      | with_reducible refine OnlyChanges.thd_of (by with_reducible assumption) ?_
      | intro _
      | split
      | dsimp only

theorem State.dropArrival_only {s : State} (c : Nat) (x : Arrival) (hw : [.regs, .mem, .out, .chans, .bufs, .plots, .cache, .haptic, .queues, .jobs, .msiPending, .pair] ⊆ pcs) (hs : OnlyChanges s0 s pcs) :
    OnlyChanges s0 (State.dropArrival s c x) pcs := by
  unfold State.dropArrival
  repeat' first
    | with_reducible assumption
    | with_reducible apply foldl_only
    | with_reducible refine State.satFld_only _ _ _ _ (List.Subset.trans (by decide) hw) ?_
    | with_reducible refine State.event_only _ _ (List.Subset.trans (by decide) hw) ?_
    | with_reducible refine State.complete_only _ _ _ (List.Subset.trans (by decide) hw) ?_
    | with_reducible refine State.dropClip_only _ (List.Subset.trans (by decide) hw) ?_
    | with_reducible refine OnlyChanges.snd_of (by with_reducible assumption) ?_
    | with_reducible refine OnlyChanges.thd_of (by with_reducible assumption) ?_
    | intro _
    | split
    | dsimp only

theorem State.arrivalOk_only {s : State} (x : Arrival) (hw : [.out, .queues, .jobs, .msiPending] ⊆ pcs) (hs : OnlyChanges s0 s pcs) :
    OnlyChanges s0 (State.arrivalOk s x) pcs := by
  unfold State.arrivalOk
  repeat' first
    | with_reducible assumption
    | with_reducible apply foldl_only
    | with_reducible refine State.complete_only _ _ _ (List.Subset.trans (by decide) hw) ?_
    | with_reducible refine OnlyChanges.snd_of (by with_reducible assumption) ?_
    | with_reducible refine OnlyChanges.thd_of (by with_reducible assumption) ?_
    | intro _
    | split
    | dsimp only

theorem State.arrive_only {s : State} (c : Nat) (x : Arrival) (hw : [.regs, .haptic] ⊆ pcs) (hs : OnlyChanges s0 s pcs) :
    OnlyChanges s0 (State.arrive s c x) pcs := by
  unfold State.arrive
  repeat' first
    | with_reducible assumption
    | with_reducible apply foldl_only
    | with_reducible refine State.setHap_only _ _ (List.Subset.trans (by decide) hw) ?_
    | with_reducible refine OnlyChanges.snd_of (by with_reducible assumption) ?_
    | with_reducible refine OnlyChanges.thd_of (by with_reducible assumption) ?_
    | intro _
    | split
    | dsimp only

theorem State.endEffect_only {s : State} (c : Nat) (hw : [.regs, .mem, .out, .chans, .bufs, .plots, .cache, .haptic, .queues, .jobs, .msiPending, .pair] ⊆ pcs) (hs : OnlyChanges s0 s pcs) :
    OnlyChanges s0 (State.endEffect s c) pcs := by
  unfold State.endEffect
  repeat' first
    | with_reducible assumption
    | with_reducible apply foldl_only
    | with_reducible refine State.setHap_only _ _ (List.Subset.trans (by decide) hw) ?_
    | with_reducible refine State.dropClip_only _ (List.Subset.trans (by decide) hw) ?_
    | with_reducible refine OnlyChanges.snd_of (by with_reducible assumption) ?_
    | with_reducible refine OnlyChanges.thd_of (by with_reducible assumption) ?_
    | intro _
    | split
    | dsimp only

theorem State.hapRest_only {s : State} (c : Nat) (hw : [.regs, .mem, .out, .chans, .bufs, .plots, .cache, .haptic, .queues, .jobs, .msiPending, .pair] ⊆ pcs) (hs : OnlyChanges s0 s pcs) :
    OnlyChanges s0 (State.hapRest s c) pcs := by
  unfold State.hapRest
  repeat' first
    | with_reducible assumption
    | with_reducible apply foldl_only
    | with_reducible refine State.setHap_only _ _ (List.Subset.trans (by decide) hw) ?_
    | with_reducible refine State.endEffect_only _ (List.Subset.trans (by decide) hw) ?_
    | with_reducible refine OnlyChanges.snd_of (by with_reducible assumption) ?_
    | with_reducible refine OnlyChanges.thd_of (by with_reducible assumption) ?_
    | intro _
    | split
    | dsimp only

theorem State.hapBrake_only {s : State} (c : Nat) (hw : [.regs, .mem, .out, .chans, .bufs, .plots, .cache, .haptic, .queues, .jobs, .msiPending, .pair] ⊆ pcs) (hs : OnlyChanges s0 s pcs) :
    OnlyChanges s0 (State.hapBrake s c) pcs := by
  unfold State.hapBrake
  repeat' first
    | with_reducible assumption
    | with_reducible apply foldl_only
    | with_reducible refine State.setHap_only _ _ (List.Subset.trans (by decide) hw) ?_
    | with_reducible refine State.hapRest_only _ (List.Subset.trans (by decide) hw) ?_
    | with_reducible refine OnlyChanges.snd_of (by with_reducible assumption) ?_
    | with_reducible refine OnlyChanges.thd_of (by with_reducible assumption) ?_
    | intro _
    | split
    | dsimp only

theorem State.hapStart_only {s : State} (c : Nat) (carrier : Nat) (x : Arrival) (hw : [.regs, .mem, .out, .chans, .bufs, .plots, .cache, .haptic, .queues, .jobs, .msiPending, .pair] ⊆ pcs) (hs : OnlyChanges s0 s pcs) :
    OnlyChanges s0 (State.hapStart s c carrier x) pcs := by
  unfold State.hapStart
  repeat' first
    | with_reducible assumption
    | with_reducible apply foldl_only
    | with_reducible refine State.setFld_only _ _ _ _ (List.Subset.trans (by decide) hw) ?_
    | with_reducible refine State.addFld_only _ _ _ _ (List.Subset.trans (by decide) hw) ?_
    | with_reducible refine State.setHap_only _ _ (List.Subset.trans (by decide) hw) ?_
    | with_reducible refine State.arrivalOk_only _ (List.Subset.trans (by decide) hw) ?_
    | with_reducible refine State.endEffect_only _ (List.Subset.trans (by decide) hw) ?_
    | with_reducible refine OnlyChanges.snd_of (by with_reducible assumption) ?_
    | with_reducible refine OnlyChanges.thd_of (by with_reducible assumption) ?_
    | intro _
    | split
    | dsimp only

theorem State.hapWinner_only {s : State} (c : Nat) (carrier : Nat) (x : Arrival) (hw : [.regs, .mem, .out, .chans, .bufs, .plots, .cache, .haptic, .queues, .jobs, .msiPending, .pair] ⊆ pcs) (hs : OnlyChanges s0 s pcs) :
    OnlyChanges s0 (State.hapWinner s c carrier x) pcs := by
  unfold State.hapWinner
  repeat' first
    | with_reducible assumption
    | with_reducible apply foldl_only
    | with_reducible refine State.satFld_only _ _ _ _ (List.Subset.trans (by decide) hw) ?_
    | with_reducible refine State.setHap_only _ _ (List.Subset.trans (by decide) hw) ?_
    | with_reducible refine State.dropClip_only _ (List.Subset.trans (by decide) hw) ?_
    | with_reducible refine State.dropArrival_only _ _ (List.Subset.trans (by decide) hw) ?_
    | with_reducible refine State.arrivalOk_only _ (List.Subset.trans (by decide) hw) ?_
    | with_reducible refine State.endEffect_only _ (List.Subset.trans (by decide) hw) ?_
    | with_reducible refine State.hapBrake_only _ (List.Subset.trans (by decide) hw) ?_
    | with_reducible refine State.hapStart_only _ _ _ (List.Subset.trans (by decide) hw) ?_
    | with_reducible refine OnlyChanges.snd_of (by with_reducible assumption) ?_
    | with_reducible refine OnlyChanges.thd_of (by with_reducible assumption) ?_
    | intro _
    | split
    | dsimp only

theorem State.hapChoose_only {s : State} (c : Nat) (carrier : Nat) (hw : [.regs, .mem, .out, .chans, .bufs, .plots, .cache, .haptic, .queues, .jobs, .msiPending, .pair] ⊆ pcs) (hs : OnlyChanges s0 s pcs) :
    OnlyChanges s0 (State.hapChoose s c carrier) pcs := by
  unfold State.hapChoose
  repeat' first
    | with_reducible assumption
    | with_reducible apply foldl_only
    | with_reducible refine State.setHap_only _ _ (List.Subset.trans (by decide) hw) ?_
    | with_reducible refine State.dropArrival_only _ _ (List.Subset.trans (by decide) hw) ?_
    | with_reducible refine State.hapWinner_only _ _ _ (List.Subset.trans (by decide) hw) ?_
    | with_reducible refine OnlyChanges.snd_of (by with_reducible assumption) ?_
    | with_reducible refine OnlyChanges.thd_of (by with_reducible assumption) ?_
    | intro _
    | split
    | dsimp only

theorem State.hapFault_only {s : State} (c : Nat) (reason : Nat) (hw : [.regs, .mem, .out, .chans, .bufs, .plots, .cache, .haptic, .faults, .queues, .jobs, .msiPending, .pair] ⊆ pcs) (hs : OnlyChanges s0 s pcs) :
    OnlyChanges s0 (State.hapFault s c reason) pcs := by
  unfold State.hapFault
  repeat' first
    | with_reducible assumption
    | with_reducible apply foldl_only
    | with_reducible refine State.setFld_only _ _ _ _ (List.Subset.trans (by decide) hw) ?_
    | with_reducible refine State.event_only _ _ (List.Subset.trans (by decide) hw) ?_
    | with_reducible refine State.recErr_only _ _ _ (List.Subset.trans (by decide) hw) ?_
    | with_reducible refine State.reportContained_only _ _ _ _ (List.Subset.trans (by decide) hw) ?_
    | with_reducible refine State.setHap_only _ _ (List.Subset.trans (by decide) hw) ?_
    | with_reducible refine State.endEffect_only _ (List.Subset.trans (by decide) hw) ?_
    | with_reducible refine OnlyChanges.snd_of (by with_reducible assumption) ?_
    | with_reducible refine OnlyChanges.thd_of (by with_reducible assumption) ?_
    | intro _
    | split
    | dsimp only

theorem State.noteStall_only {s : State} (x1 : HapChan) (hw : [.regs, .out, .haptic, .msiPending] ⊆ pcs) (hs : OnlyChanges s0 s pcs) :
    OnlyChanges s0 (State.noteStall s x1) pcs := by
  unfold State.noteStall
  repeat' first
    | with_reducible assumption
    | with_reducible apply foldl_only
    | with_reducible refine State.event_only _ _ (List.Subset.trans (by decide) hw) ?_
    | with_reducible refine OnlyChanges.snd_of (by with_reducible assumption) ?_
    | with_reducible refine OnlyChanges.thd_of (by with_reducible assumption) ?_
    | intro _
    | split
    | dsimp only
    | with_reducible refine OnlyChanges.of_mk ?_ rfl rfl

theorem State.hapEnds_only {s : State} (c : Nat) (t : Int) (a : Int) (hw : [.regs, .mem, .out, .chans, .bufs, .plots, .cache, .haptic, .queues, .jobs, .msiPending, .pair] ⊆ pcs) (hs : OnlyChanges s0 s pcs) :
    OnlyChanges s0 (State.hapEnds s c t a) pcs := by
  unfold State.hapEnds
  repeat' first
    | with_reducible assumption
    | with_reducible apply foldl_only
    | with_reducible refine State.setHap_only _ _ (List.Subset.trans (by decide) hw) ?_
    | with_reducible refine State.hapRest_only _ (List.Subset.trans (by decide) hw) ?_
    | with_reducible refine State.hapBrake_only _ (List.Subset.trans (by decide) hw) ?_
    | with_reducible refine OnlyChanges.snd_of (by with_reducible assumption) ?_
    | with_reducible refine OnlyChanges.thd_of (by with_reducible assumption) ?_
    | intro _
    | split
    | dsimp only

theorem State.bridgeQuiet_only {s : State} (c : Nat) (hw : [.out] ⊆ pcs) (hs : OnlyChanges s0 s pcs) :
    OnlyChanges s0 (State.bridgeQuiet s c) pcs := by
  unfold State.bridgeQuiet
  repeat' first
    | with_reducible assumption
    | with_reducible apply foldl_only
    | with_reducible refine State.emit_only _ (List.Subset.trans (by decide) hw) ?_
    | with_reducible refine OnlyChanges.snd_of (by with_reducible assumption) ?_
    | with_reducible refine OnlyChanges.thd_of (by with_reducible assumption) ?_
    | intro _
    | split
    | dsimp only

theorem State.periodOutput_only {s : State} (c : Nat) (a : Int) (lim : Bool) (hw : [.regs, .out, .haptic, .msiPending] ⊆ pcs) (hs : OnlyChanges s0 s pcs) :
    OnlyChanges s0 (State.periodOutput s c a lim) pcs := by
  unfold State.periodOutput
  repeat' first
    | with_reducible assumption
    | with_reducible apply foldl_only
    | with_reducible refine State.emit_only _ (List.Subset.trans (by decide) hw) ?_
    | with_reducible refine State.setHap_only _ _ (List.Subset.trans (by decide) hw) ?_
    | with_reducible refine State.noteStall_only _ (List.Subset.trans (by decide) hw) ?_
    | with_reducible refine OnlyChanges.snd_of (by with_reducible assumption) ?_
    | with_reducible refine OnlyChanges.thd_of (by with_reducible assumption) ?_
    | intro _
    | split
    | dsimp only

theorem State.dropRule_only {s : State} (i : Nat) (hw : [.regs, .mem, .out, .chans, .bufs, .plots, .cache, .haptic, .queues, .jobs, .msiPending, .pair] ⊆ pcs) (hs : OnlyChanges s0 s pcs) :
    OnlyChanges s0 (State.dropRule s i) pcs := by
  unfold State.dropRule
  repeat' first
    | with_reducible assumption
    | with_reducible apply foldl_only
    | with_reducible refine State.setHap_only _ _ (List.Subset.trans (by decide) hw) ?_
    | with_reducible refine State.dropClip_only _ (List.Subset.trans (by decide) hw) ?_
    | with_reducible refine State.dropArrival_only _ _ (List.Subset.trans (by decide) hw) ?_
    | with_reducible refine OnlyChanges.snd_of (by with_reducible assumption) ?_
    | with_reducible refine OnlyChanges.thd_of (by with_reducible assumption) ?_
    | intro _
    | split
    | dsimp only
    | with_reducible refine OnlyChanges.of_mk ?_ rfl rfl

theorem State.dropLeaving_only {s : State} (c : Nat) (hw : [.regs, .mem, .out, .chans, .bufs, .plots, .cache, .haptic, .queues, .jobs, .msiPending, .pair] ⊆ pcs) (hs : OnlyChanges s0 s pcs) :
    OnlyChanges s0 (State.dropLeaving s c) pcs := by
  unfold State.dropLeaving
  repeat' first
    | with_reducible assumption
    | with_reducible apply foldl_only
    | with_reducible refine State.dropRule_only _ (List.Subset.trans (by decide) hw) ?_
    | with_reducible refine OnlyChanges.snd_of (by with_reducible assumption) ?_
    | with_reducible refine OnlyChanges.thd_of (by with_reducible assumption) ?_
    | intro _
    | split
    | dsimp only

theorem State.quietPeriod_only {s : State} (c : Nat) (hw : [.regs, .mem, .out, .chans, .bufs, .plots, .cache, .haptic, .queues, .jobs, .msiPending, .pair] ⊆ pcs) (hs : OnlyChanges s0 s pcs) :
    OnlyChanges s0 (State.quietPeriod s c) pcs := by
  unfold State.quietPeriod
  repeat' first
    | with_reducible assumption
    | with_reducible apply foldl_only
    | with_reducible refine State.setHap_only _ _ (List.Subset.trans (by decide) hw) ?_
    | with_reducible refine State.dropArrival_only _ _ (List.Subset.trans (by decide) hw) ?_
    | with_reducible refine State.bridgeQuiet_only _ (List.Subset.trans (by decide) hw) ?_
    | with_reducible refine OnlyChanges.snd_of (by with_reducible assumption) ?_
    | with_reducible refine OnlyChanges.thd_of (by with_reducible assumption) ?_
    | intro _
    | split
    | dsimp only

theorem State.controlPeriod_only {s : State} (c : Nat) (adcA : Int) (adcI : Int) (carrier : Nat) (hw : [.regs, .mem, .out, .chans, .bufs, .plots, .cache, .haptic, .faults, .queues, .jobs, .msiPending, .pair] ⊆ pcs) (hs : OnlyChanges s0 s pcs) :
    OnlyChanges s0 (State.controlPeriod s c adcA adcI carrier) pcs := by
  unfold State.controlPeriod
  repeat' first
    | with_reducible assumption
    | with_reducible apply foldl_only
    | with_reducible refine State.setHap_only _ _ (List.Subset.trans (by decide) hw) ?_
    | with_reducible refine State.hapChoose_only _ _ (List.Subset.trans (by decide) hw) ?_
    | with_reducible refine State.hapFault_only _ _ (List.Subset.trans (by decide) hw) ?_
    | with_reducible refine State.hapEnds_only _ _ _ (List.Subset.trans (by decide) hw) ?_
    | with_reducible refine State.periodOutput_only _ _ _ (List.Subset.trans (by decide) hw) ?_
    | with_reducible refine State.dropLeaving_only _ (List.Subset.trans (by decide) hw) ?_
    | with_reducible refine State.quietPeriod_only _ (List.Subset.trans (by decide) hw) ?_
    | with_reducible refine OnlyChanges.snd_of (by with_reducible assumption) ?_
    | with_reducible refine OnlyChanges.thd_of (by with_reducible assumption) ?_
    | intro _
    | split
    | dsimp only

theorem State.tapSample_only {s : State} (tap : Nat) (v : Int) (hw : [.haptic] ⊆ pcs) (hs : OnlyChanges s0 s pcs) :
    OnlyChanges s0 (State.tapSample s tap v) pcs := by
  unfold State.tapSample
  repeat' first
    | with_reducible assumption
    | with_reducible apply foldl_only
    | with_reducible refine OnlyChanges.snd_of (by with_reducible assumption) ?_
    | with_reducible refine OnlyChanges.thd_of (by with_reducible assumption) ?_
    | intro _
    | split
    | dsimp only
    | with_reducible refine OnlyChanges.of_mk ?_ rfl rfl

theorem State.carryHapticPlay_only (j : Job) {s : State} (hw : [.regs, .out, .bufs, .haptic, .queues, .jobs, .msiPending] ⊆ pcs) (hs : OnlyChanges s0 s pcs) :
    OnlyChanges s0 (State.carryHapticPlay j s) pcs := by
  unfold State.carryHapticPlay
  repeat' first
    | with_reducible assumption
    | with_reducible apply foldl_only
    | with_reducible refine State.complete_only _ _ _ (List.Subset.trans (by decide) hw) ?_
    | with_reducible refine State.nameClip_only _ (List.Subset.trans (by decide) hw) ?_
    | with_reducible refine State.arrive_only _ _ (List.Subset.trans (by decide) hw) ?_
    | with_reducible refine OnlyChanges.snd_of (by with_reducible assumption) ?_
    | with_reducible refine OnlyChanges.thd_of (by with_reducible assumption) ?_
    | intro _
    | split
    | dsimp only
    | with_reducible refine OnlyChanges.of_mk ?_ rfl rfl

theorem State.putRule_only {s : State} (i : Nat) (r : Rule) (hw : [.regs, .haptic] ⊆ pcs) (hs : OnlyChanges s0 s pcs) :
    OnlyChanges s0 (State.putRule s i r) pcs := by
  unfold State.putRule
  repeat' first
    | with_reducible assumption
    | with_reducible apply foldl_only
    | with_reducible refine State.ruleStat_only  (List.Subset.trans (by decide) hw) ?_
    | with_reducible refine OnlyChanges.snd_of (by with_reducible assumption) ?_
    | with_reducible refine OnlyChanges.thd_of (by with_reducible assumption) ?_
    | intro _
    | split
    | dsimp only
    | with_reducible refine OnlyChanges.of_mk ?_ rfl rfl

theorem State.removeRule_only {s : State} (i : Nat) (hw : [.haptic] ⊆ pcs) (hs : OnlyChanges s0 s pcs) :
    OnlyChanges s0 (State.removeRule s i) pcs := by
  unfold State.removeRule
  repeat' first
    | with_reducible assumption
    | with_reducible apply foldl_only
    | with_reducible refine OnlyChanges.snd_of (by with_reducible assumption) ?_
    | with_reducible refine OnlyChanges.thd_of (by with_reducible assumption) ?_
    | intro _
    | split
    | dsimp only
    | with_reducible refine OnlyChanges.of_mk ?_ rfl rfl

theorem State.carryTouchRule_only (j : Job) {s : State} (hw : [.regs, .out, .bufs, .haptic, .queues, .jobs, .msiPending, .pair] ⊆ pcs) (hs : OnlyChanges s0 s pcs) :
    OnlyChanges s0 (State.carryTouchRule j s) pcs := by
  unfold State.carryTouchRule
  repeat' first
    | with_reducible assumption
    | with_reducible apply foldl_only
    | with_reducible refine State.complete_only _ _ _ (List.Subset.trans (by decide) hw) ?_
    | with_reducible refine State.mirror_only _ (List.Subset.trans (by decide) hw) ?_
    | with_reducible refine State.nameClip_only _ (List.Subset.trans (by decide) hw) ?_
    | with_reducible refine State.putRule_only _ _ (List.Subset.trans (by decide) hw) ?_
    | with_reducible refine State.removeRule_only _ (List.Subset.trans (by decide) hw) ?_
    | with_reducible refine OnlyChanges.snd_of (by with_reducible assumption) ?_
    | with_reducible refine OnlyChanges.thd_of (by with_reducible assumption) ?_
    | intro _
    | split
    | dsimp only
    | with_reducible refine OnlyChanges.of_mk ?_ rfl rfl

theorem State.clipLoadDone_only {s : State} (hw : [.regs, .mem, .out, .free, .edac, .cache, .haptic, .faults, .queues, .jobs, .msiPending, .pair] ⊆ pcs) (hs : OnlyChanges s0 s pcs) :
    OnlyChanges s0 (State.clipLoadDone s) pcs := by
  unfold State.clipLoadDone
  repeat' first
    | with_reducible assumption
    | with_reducible apply foldl_only
    | with_reducible refine State.complete_only _ _ _ (List.Subset.trans (by decide) hw) ?_
    | with_reducible refine State.mirror_only _ (List.Subset.trans (by decide) hw) ?_
    | with_reducible refine State.clipGc_only  (List.Subset.trans (by decide) hw) ?_
    | with_reducible refine State.readClip_only _ _ _ _ (List.Subset.trans (by decide) hw) ?_
    | with_reducible refine State.arrive_only _ _ (List.Subset.trans (by decide) hw) ?_
    | with_reducible refine State.putRule_only _ _ (List.Subset.trans (by decide) hw) ?_
    | with_reducible refine OnlyChanges.snd_of (by with_reducible assumption) ?_
    | with_reducible refine OnlyChanges.thd_of (by with_reducible assumption) ?_
    | intro _
    | split
    | dsimp only
    | with_reducible refine OnlyChanges.of_mk ?_ rfl rfl

theorem State.ruleMatch_only {s : State} (hw : [.regs, .bufs, .touch, .haptic] ⊆ pcs) (hs : OnlyChanges s0 s pcs) :
    OnlyChanges s0 (State.ruleMatch s) pcs := by
  unfold State.ruleMatch
  repeat' first
    | with_reducible assumption
    | with_reducible apply foldl_only
    | with_reducible refine State.fence_only _ (List.Subset.trans (by decide) hw) ?_
    | with_reducible refine State.arrive_only _ _ (List.Subset.trans (by decide) hw) ?_
    | with_reducible refine State.putRule_only _ _ (List.Subset.trans (by decide) hw) ?_
    | with_reducible refine OnlyChanges.snd_of (by with_reducible assumption) ?_
    | with_reducible refine OnlyChanges.thd_of (by with_reducible assumption) ?_
    | intro _
    | split
    | dsimp only
    | with_reducible refine OnlyChanges.of_mk ?_ rfl rfl

theorem State.hapEnable_only {s : State} (c : Nat) (on : Bool) (hw : [.regs, .mem, .out, .chans, .bufs, .plots, .cache, .haptic, .queues, .jobs, .msiPending, .pair] ⊆ pcs) (hs : OnlyChanges s0 s pcs) :
    OnlyChanges s0 (State.hapEnable s c on) pcs := by
  unfold State.hapEnable
  repeat' first
    | with_reducible assumption
    | with_reducible apply foldl_only
    | with_reducible refine State.setFld_only _ _ _ _ (List.Subset.trans (by decide) hw) ?_
    | with_reducible refine State.setHap_only _ _ (List.Subset.trans (by decide) hw) ?_
    | with_reducible refine State.hapBrake_only _ (List.Subset.trans (by decide) hw) ?_
    | with_reducible refine OnlyChanges.snd_of (by with_reducible assumption) ?_
    | with_reducible refine OnlyChanges.thd_of (by with_reducible assumption) ?_
    | intro _
    | split
    | dsimp only

theorem State.calStart_only {s : State} (a : RegAcc) (c : Nat) (hw : [.regs, .out, .haptic, .msiPending] ⊆ pcs) (hs : OnlyChanges s0 s pcs) :
    OnlyChanges s0 (State.calStart s a c) pcs := by
  unfold State.calStart
  repeat' first
    | with_reducible assumption
    | with_reducible apply foldl_only
    | with_reducible refine State.recAcc_only _ _ (List.Subset.trans (by decide) hw) ?_
    | with_reducible refine State.setHap_only _ _ (List.Subset.trans (by decide) hw) ?_
    | with_reducible refine OnlyChanges.snd_of (by with_reducible assumption) ?_
    | with_reducible refine OnlyChanges.thd_of (by with_reducible assumption) ?_
    | intro _
    | split
    | dsimp only

theorem State.hapCtrlWrite_only (a : RegAcc) {s : State} (hw : [.regs, .shad, .mem, .out, .chans, .bufs, .plots, .cache, .haptic, .queues, .jobs, .msiPending, .pair] ⊆ pcs) (hs : OnlyChanges s0 s pcs) :
    OnlyChanges s0 (State.hapCtrlWrite a s) pcs := by
  unfold State.hapCtrlWrite
  repeat' first
    | with_reducible assumption
    | with_reducible apply foldl_only
    | with_reducible refine State.plainWrite_only _ _ (List.Subset.trans (by decide) hw) ?_
    | with_reducible refine State.mirrorWrite_only _ _ _ (List.Subset.trans (by decide) hw) ?_
    | with_reducible refine State.hapEnable_only _ _ (List.Subset.trans (by decide) hw) ?_
    | with_reducible refine State.calStart_only _ _ (List.Subset.trans (by decide) hw) ?_
    | with_reducible refine OnlyChanges.snd_of (by with_reducible assumption) ?_
    | with_reducible refine OnlyChanges.thd_of (by with_reducible assumption) ?_
    | intro _
    | split
    | dsimp only

theorem State.hapCarrierWrite_only (a : RegAcc) {s : State} (hw : [.regs, .shad, .out, .msiPending, .pair] ⊆ pcs) (hs : OnlyChanges s0 s pcs) :
    OnlyChanges s0 (State.hapCarrierWrite a s) pcs := by
  unfold State.hapCarrierWrite
  repeat' first
    | with_reducible assumption
    | with_reducible apply foldl_only
    | with_reducible refine State.refuse_only _ _ (List.Subset.trans (by decide) hw) ?_
    | with_reducible refine State.plainWrite_only _ _ (List.Subset.trans (by decide) hw) ?_
    | with_reducible refine State.mirrorWrite_only _ _ _ (List.Subset.trans (by decide) hw) ?_
    | with_reducible refine OnlyChanges.snd_of (by with_reducible assumption) ?_
    | with_reducible refine OnlyChanges.thd_of (by with_reducible assumption) ?_
    | intro _
    | split
    | dsimp only

theorem State.calDone_only {s : State} (c : Nat) (freq : Nat) (peak : Nat) (hw : [.regs, .mem, .out, .chans, .bufs, .plots, .cache, .haptic, .faults, .queues, .jobs, .msiPending, .pair] ⊆ pcs) (hs : OnlyChanges s0 s pcs) :
    OnlyChanges s0 (State.calDone s c freq peak) pcs := by
  unfold State.calDone
  repeat' first
    | with_reducible assumption
    | with_reducible apply foldl_only
    | with_reducible refine State.setFld_only _ _ _ _ (List.Subset.trans (by decide) hw) ?_
    | with_reducible refine State.event_only _ _ (List.Subset.trans (by decide) hw) ?_
    | with_reducible refine State.setHap_only _ _ (List.Subset.trans (by decide) hw) ?_
    | with_reducible refine State.hapFault_only _ _ (List.Subset.trans (by decide) hw) ?_
    | with_reducible refine OnlyChanges.snd_of (by with_reducible assumption) ?_
    | with_reducible refine OnlyChanges.thd_of (by with_reducible assumption) ?_
    | intro _
    | split
    | dsimp only

theorem State.hapResetFn_only {s : State} (fn : Nat) (hw : [.regs, .mem, .out, .chans, .bufs, .plots, .cache, .haptic, .queues, .jobs, .msiPending, .pair] ⊆ pcs) (hs : OnlyChanges s0 s pcs) :
    OnlyChanges s0 (State.hapResetFn s fn) pcs := by
  unfold State.hapResetFn
  repeat' first
    | with_reducible assumption
    | with_reducible apply foldl_only
    | with_reducible refine State.mirror_only _ (List.Subset.trans (by decide) hw) ?_
    | with_reducible refine State.setHap_only _ _ (List.Subset.trans (by decide) hw) ?_
    | with_reducible refine State.dropClip_only _ (List.Subset.trans (by decide) hw) ?_
    | with_reducible refine State.dropRule_only _ (List.Subset.trans (by decide) hw) ?_
    | with_reducible refine OnlyChanges.snd_of (by with_reducible assumption) ?_
    | with_reducible refine OnlyChanges.thd_of (by with_reducible assumption) ?_
    | intro _
    | split
    | dsimp only
    | with_reducible refine OnlyChanges.of_mk ?_ rfl rfl

theorem State.hapSilence_only {s : State} (hw : [.regs, .mem, .out, .chans, .bufs, .plots, .cache, .haptic, .queues, .jobs, .msiPending, .pair] ⊆ pcs) (hs : OnlyChanges s0 s pcs) :
    OnlyChanges s0 (State.hapSilence s) pcs := by
  unfold State.hapSilence
  repeat' first
    | with_reducible assumption
    | with_reducible apply foldl_only
    | with_reducible refine State.setHap_only _ _ (List.Subset.trans (by decide) hw) ?_
    | with_reducible refine State.dropArrival_only _ _ (List.Subset.trans (by decide) hw) ?_
    | with_reducible refine State.endEffect_only _ (List.Subset.trans (by decide) hw) ?_
    | with_reducible refine State.bridgeQuiet_only _ (List.Subset.trans (by decide) hw) ?_
    | with_reducible refine OnlyChanges.snd_of (by with_reducible assumption) ?_
    | with_reducible refine OnlyChanges.thd_of (by with_reducible assumption) ?_
    | intro _
    | split
    | dsimp only

theorem State.hapBlockEnable_only (a : RegAcc) (on : Bool) {s : State} (hw : [.regs, .mem, .out, .chans, .bufs, .plots, .cache, .haptic, .queues, .jobs, .msiPending, .pair] ⊆ pcs) (hs : OnlyChanges s0 s pcs) :
    OnlyChanges s0 (State.hapBlockEnable a on s) pcs := by
  unfold State.hapBlockEnable
  repeat' first
    | with_reducible assumption
    | with_reducible apply foldl_only
    | with_reducible refine State.mirroredEnable_only _ _ (List.Subset.trans (by decide) hw) ?_
    | with_reducible refine State.hapSilence_only  (List.Subset.trans (by decide) hw) ?_
    | with_reducible refine OnlyChanges.snd_of (by with_reducible assumption) ?_
    | with_reducible refine OnlyChanges.thd_of (by with_reducible assumption) ?_
    | intro _
    | split
    | dsimp only

theorem State.hapBlockReset_only (a : RegAcc) {s : State} (hw : [.regs, .shad, .mem, .out, .chans, .bufs, .plots, .cache, .haptic, .faults, .queues, .jobs, .msiPending, .pair] ⊆ pcs) (hs : OnlyChanges s0 s pcs) :
    OnlyChanges s0 (State.hapBlockReset a s) pcs := by
  unfold State.hapBlockReset
  repeat' first
    | with_reducible assumption
    | with_reducible apply foldl_only
    | with_reducible refine State.complete_only _ _ _ (List.Subset.trans (by decide) hw) ?_
    | with_reducible refine State.mirrorWrite_only _ _ _ (List.Subset.trans (by decide) hw) ?_
    | with_reducible refine State.unfence_only _ (List.Subset.trans (by decide) hw) ?_
    | with_reducible refine State.resetPage_only _ _ (List.Subset.trans (by decide) hw) ?_
    | with_reducible refine State.bridgeQuiet_only _ (List.Subset.trans (by decide) hw) ?_
    | with_reducible refine OnlyChanges.snd_of (by with_reducible assumption) ?_
    | with_reducible refine OnlyChanges.thd_of (by with_reducible assumption) ?_
    | intro _
    | split
    | dsimp only
    | with_reducible refine OnlyChanges.of_mk ?_ rfl rfl

end Sys2Proof.Machine
end

