-- ==== Sys2Proof/Laws/FrameAudio.lean ====
section
/-! SUPPORT. What every operation of Machine/Audio.lean leaves alone. -/

namespace Sys2Proof.Machine

set_option Elab.async false
set_option linter.all false

variable {s0 : State} {pcs : List Piece}

theorem State.setStream_only {s : State} (c : Nat) (x : AudStream) (hw : [.regs, .audio] ⊆ pcs) (hs : OnlyChanges s0 s pcs) :
    OnlyChanges s0 (State.setStream s c x) pcs := by
  unfold State.setStream
  repeat' first
    | with_reducible assumption
    | with_reducible apply foldl_only
    | with_reducible refine State.setFld_only _ _ _ _ (List.Subset.trans (by decide) hw) ?_
    | with_reducible refine OnlyChanges.snd_of (by with_reducible assumption) ?_
    | with_reducible refine OnlyChanges.thd_of (by with_reducible assumption) ?_
    | intro _
    | split
    | dsimp only
    | with_reducible refine OnlyChanges.of_mk ?_ rfl rfl

theorem State.setBus_only {s : State} (b : Nat) (x : AudBus) (hw : [.audio] ⊆ pcs) (hs : OnlyChanges s0 s pcs) :
    OnlyChanges s0 (State.setBus s b x) pcs := by
  unfold State.setBus
  repeat' first
    | with_reducible assumption
    | with_reducible apply foldl_only
    | with_reducible refine OnlyChanges.snd_of (by with_reducible assumption) ?_
    | with_reducible refine OnlyChanges.thd_of (by with_reducible assumption) ?_
    | intro _
    | split
    | dsimp only
    | with_reducible refine OnlyChanges.of_mk ?_ rfl rfl

theorem State.showBridges_only {s : State} (hw : [.regs] ⊆ pcs) (hs : OnlyChanges s0 s pcs) :
    OnlyChanges s0 (State.showBridges s) pcs := by
  unfold State.showBridges
  repeat' first
    | with_reducible assumption
    | with_reducible apply foldl_only
    | with_reducible refine State.setRw_only _ _ (List.Subset.trans (by decide) hw) ?_
    | with_reducible refine State.setFld_only _ _ _ _ (List.Subset.trans (by decide) hw) ?_
    | with_reducible refine OnlyChanges.snd_of (by with_reducible assumption) ?_
    | with_reducible refine OnlyChanges.thd_of (by with_reducible assumption) ?_
    | intro _
    | split
    | dsimp only

theorem State.trimBridges_only {s : State} (sets : List (Store Word32)) (hw : [.regs, .audio] ⊆ pcs) (hs : OnlyChanges s0 s pcs) :
    OnlyChanges s0 (State.trimBridges s sets) pcs := by
  unfold State.trimBridges
  repeat' first
    | with_reducible assumption
    | with_reducible apply foldl_only
    | with_reducible refine State.showBridges_only  (List.Subset.trans (by decide) hw) ?_
    | with_reducible refine OnlyChanges.snd_of (by with_reducible assumption) ?_
    | with_reducible refine OnlyChanges.thd_of (by with_reducible assumption) ?_
    | intro _
    | split
    | dsimp only
    | with_reducible refine OnlyChanges.of_mk ?_ rfl rfl

theorem State.startBridges_only {s : State} (set : Store Word32) (hw : [.regs, .audio] ⊆ pcs) (hs : OnlyChanges s0 s pcs) :
    OnlyChanges s0 (State.startBridges s set) pcs := by
  unfold State.startBridges
  repeat' first
    | with_reducible assumption
    | with_reducible apply foldl_only
    | with_reducible refine State.showBridges_only  (List.Subset.trans (by decide) hw) ?_
    | with_reducible refine OnlyChanges.snd_of (by with_reducible assumption) ?_
    | with_reducible refine OnlyChanges.thd_of (by with_reducible assumption) ?_
    | intro _
    | split
    | dsimp only
    | with_reducible refine OnlyChanges.of_mk ?_ rfl rfl

theorem State.bridgePrimed_only {s : State} (k : Nat) (hw : [.regs, .audio] ⊆ pcs) (hs : OnlyChanges s0 s pcs) :
    OnlyChanges s0 (State.bridgePrimed s k) pcs := by
  unfold State.bridgePrimed
  repeat' first
    | with_reducible assumption
    | with_reducible apply foldl_only
    | with_reducible refine State.showBridges_only  (List.Subset.trans (by decide) hw) ?_
    | with_reducible refine OnlyChanges.snd_of (by with_reducible assumption) ?_
    | with_reducible refine OnlyChanges.thd_of (by with_reducible assumption) ?_
    | intro _
    | split
    | dsimp only
    | with_reducible refine OnlyChanges.of_mk ?_ rfl rfl

theorem State.audCtrlWrite_only (a : RegAcc) {s : State} (hw : [.regs, .shad, .out, .audio, .msiPending, .pair] ⊆ pcs) (hs : OnlyChanges s0 s pcs) :
    OnlyChanges s0 (State.audCtrlWrite a s) pcs := by
  unfold State.audCtrlWrite
  repeat' first
    | with_reducible assumption
    | with_reducible apply foldl_only
    | with_reducible refine State.setFld_only _ _ _ _ (List.Subset.trans (by decide) hw) ?_
    | with_reducible refine State.recErr_only _ _ _ (List.Subset.trans (by decide) hw) ?_
    | with_reducible refine State.plainWrite_only _ _ (List.Subset.trans (by decide) hw) ?_
    | with_reducible refine State.mirrorWrite_only _ _ _ (List.Subset.trans (by decide) hw) ?_
    | with_reducible refine State.trimBridges_only _ (List.Subset.trans (by decide) hw) ?_
    | with_reducible refine State.startBridges_only _ (List.Subset.trans (by decide) hw) ?_
    | with_reducible refine OnlyChanges.snd_of (by with_reducible assumption) ?_
    | with_reducible refine OnlyChanges.thd_of (by with_reducible assumption) ?_
    | intro _
    | split
    | dsimp only
    | with_reducible refine OnlyChanges.of_mk ?_ rfl rfl

theorem State.applySet_only {s : State} (d : Nat) (hw : [.regs, .audio] ⊆ pcs) (hs : OnlyChanges s0 s pcs) :
    OnlyChanges s0 (State.applySet s d) pcs := by
  unfold State.applySet
  repeat' first
    | with_reducible assumption
    | with_reducible apply foldl_only
    | with_reducible refine State.setFld_only _ _ _ _ (List.Subset.trans (by decide) hw) ?_
    | with_reducible refine State.setBus_only _ _ (List.Subset.trans (by decide) hw) ?_
    | with_reducible refine OnlyChanges.snd_of (by with_reducible assumption) ?_
    | with_reducible refine OnlyChanges.thd_of (by with_reducible assumption) ?_
    | intro _
    | split
    | dsimp only
    | with_reducible refine OnlyChanges.of_mk ?_ rfl rfl

theorem State.applyEnd_only {s : State} (hw : [.regs, .out, .audio, .msiPending] ⊆ pcs) (hs : OnlyChanges s0 s pcs) :
    OnlyChanges s0 (State.applyEnd s) pcs := by
  unfold State.applyEnd
  repeat' first
    | with_reducible assumption
    | with_reducible apply foldl_only
    | with_reducible refine State.setFld_only _ _ _ _ (List.Subset.trans (by decide) hw) ?_
    | with_reducible refine State.event_only _ _ (List.Subset.trans (by decide) hw) ?_
    | with_reducible refine State.trimBridges_only _ (List.Subset.trans (by decide) hw) ?_
    | with_reducible refine OnlyChanges.snd_of (by with_reducible assumption) ?_
    | with_reducible refine OnlyChanges.thd_of (by with_reducible assumption) ?_
    | intro _
    | split
    | dsimp only
    | with_reducible refine OnlyChanges.of_mk ?_ rfl rfl

theorem State.endRegion_only {s : State} (r : AudRegion) (status : Nat) (hw : [.regs, .mem, .out, .free, .chans, .bufs, .plots, .cache, .queues, .jobs, .msiPending, .pair] ⊆ pcs) (hs : OnlyChanges s0 s pcs) :
    OnlyChanges s0 (State.endRegion s r status) pcs := by
  unfold State.endRegion
  repeat' first
    | with_reducible assumption
    | with_reducible apply foldl_only
    | with_reducible refine State.takeFree_only  (List.Subset.trans (by decide) hw) ?_
    | with_reducible refine State.finish_only _ _ _ (List.Subset.trans (by decide) hw) ?_
    | with_reducible refine State.unfence_only _ (List.Subset.trans (by decide) hw) ?_
    | with_reducible refine OnlyChanges.snd_of (by with_reducible assumption) ?_
    | with_reducible refine OnlyChanges.thd_of (by with_reducible assumption) ?_
    | intro _
    | split
    | dsimp only

theorem State.dropRegion_only {s : State} (r : AudRegion) (hw : [.regs, .mem, .out, .chans, .bufs, .plots, .cache, .queues, .jobs, .msiPending, .pair] ⊆ pcs) (hs : OnlyChanges s0 s pcs) :
    OnlyChanges s0 (State.dropRegion s r) pcs := by
  unfold State.dropRegion
  repeat' first
    | with_reducible assumption
    | with_reducible apply foldl_only
    | with_reducible refine State.keepJobs_only _ (List.Subset.trans (by decide) hw) ?_
    | with_reducible refine State.unfence_only _ (List.Subset.trans (by decide) hw) ?_
    | with_reducible refine OnlyChanges.snd_of (by with_reducible assumption) ?_
    | with_reducible refine OnlyChanges.thd_of (by with_reducible assumption) ?_
    | intro _
    | split
    | dsimp only

theorem State.releaseRegions_only {s : State} (c : Nat) (silent : Bool) (hw : [.regs, .mem, .out, .free, .chans, .bufs, .plots, .cache, .audio, .queues, .jobs, .msiPending, .pair] ⊆ pcs) (hs : OnlyChanges s0 s pcs) :
    OnlyChanges s0 (State.releaseRegions s c silent) pcs := by
  unfold State.releaseRegions
  repeat' first
    | with_reducible assumption
    | with_reducible apply foldl_only
    | with_reducible refine State.setStream_only _ _ (List.Subset.trans (by decide) hw) ?_
    | with_reducible refine State.endRegion_only _ _ (List.Subset.trans (by decide) hw) ?_
    | with_reducible refine State.dropRegion_only _ (List.Subset.trans (by decide) hw) ?_
    | with_reducible refine OnlyChanges.snd_of (by with_reducible assumption) ?_
    | with_reducible refine OnlyChanges.thd_of (by with_reducible assumption) ?_
    | intro _
    | split
    | dsimp only

theorem State.audRead_only {s : State} (who : Attr) (i : Nat) (b : Nat) (x4 : Nat) (hw : [.regs, .mem, .out, .edac, .cache, .faults, .msiPending] ⊆ pcs) (hs : OnlyChanges s0 s pcs) :
    OnlyChanges s0 (State.audRead s who i b x4).2 pcs := by
  induction x4 generalizing s who i b with
  | zero =>
    unfold State.audRead
    repeat' first
      | with_reducible assumption
      | with_reducible apply foldl_only
      | with_reducible refine State.readWordAs_only _ _ (List.Subset.trans (by decide) hw) ?_
      | with_reducible refine OnlyChanges.snd_of (by with_reducible assumption) ?_
      | with_reducible refine OnlyChanges.thd_of (by with_reducible assumption) ?_
      | intro _
      | split
      | dsimp only
  | succ _ ih =>
    unfold State.audRead
    repeat' first
      | with_reducible assumption
      | with_reducible apply ih
      | with_reducible apply foldl_only
      | with_reducible refine State.readWordAs_only _ _ (List.Subset.trans (by decide) hw) ?_
      | with_reducible refine OnlyChanges.snd_of (by with_reducible assumption) ?_
      | with_reducible refine OnlyChanges.thd_of (by with_reducible assumption) ?_
      | intro _
      | split
      | dsimp only

theorem State.squashStream_only {s : State} (c : Nat) (hw : [.regs, .mem, .out, .free, .chans, .bufs, .plots, .cache, .audio, .queues, .jobs, .msiPending, .pair] ⊆ pcs) (hs : OnlyChanges s0 s pcs) :
    OnlyChanges s0 (State.squashStream s c) pcs := by
  unfold State.squashStream
  repeat' first
    | with_reducible assumption
    | with_reducible apply foldl_only
    | with_reducible refine State.releaseRegions_only _ _ (List.Subset.trans (by decide) hw) ?_
    | with_reducible refine OnlyChanges.snd_of (by with_reducible assumption) ?_
    | with_reducible refine OnlyChanges.thd_of (by with_reducible assumption) ?_
    | intro _
    | split
    | dsimp only

theorem State.playBlock_only {s : State} (c : Nat) (hw : [.regs, .mem, .out, .free, .edac, .chans, .bufs, .plots, .cache, .audio, .faults, .queues, .jobs, .msiPending, .pair] ⊆ pcs) (hs : OnlyChanges s0 s pcs) :
    OnlyChanges s0 (State.playBlock s c).2 pcs := by
  unfold State.playBlock
  repeat' first
    | with_reducible assumption
    | with_reducible apply foldl_only
    | with_reducible refine State.satFld_only _ _ _ _ (List.Subset.trans (by decide) hw) ?_
    | with_reducible refine State.event_only _ _ (List.Subset.trans (by decide) hw) ?_
    | with_reducible refine State.recErr_only _ _ _ (List.Subset.trans (by decide) hw) ?_
    | with_reducible refine State.setStream_only _ _ (List.Subset.trans (by decide) hw) ?_
    | with_reducible refine State.endRegion_only _ _ (List.Subset.trans (by decide) hw) ?_
    | with_reducible refine State.releaseRegions_only _ _ (List.Subset.trans (by decide) hw) ?_
    | with_reducible refine State.audRead_only _ _ _ _ (List.Subset.trans (by decide) hw) ?_
    | with_reducible refine OnlyChanges.snd_of (by with_reducible assumption) ?_
    | with_reducible refine OnlyChanges.thd_of (by with_reducible assumption) ?_
    | intro _
    | split
    | dsimp only

theorem State.audWrite_only {s : State} (who : Attr) (i : Nat) (b : Nat) (x4 : List Nat) (hw : [.regs, .mem, .out, .edac, .bufs, .cache, .faults, .msiPending, .pair] ⊆ pcs) (hs : OnlyChanges s0 s pcs) :
    OnlyChanges s0 (State.audWrite s who i b x4).2 pcs := by
  induction x4 generalizing s who i b with
  | nil =>
    unfold State.audWrite
    repeat' first
      | with_reducible assumption
      | with_reducible apply foldl_only
      | with_reducible refine State.writeBuf_only _ _ _ _ (List.Subset.trans (by decide) hw) ?_
      | with_reducible refine OnlyChanges.snd_of (by with_reducible assumption) ?_
      | with_reducible refine OnlyChanges.thd_of (by with_reducible assumption) ?_
      | intro _
      | split
      | dsimp only
  | cons _ _ ih =>
    unfold State.audWrite
    repeat' first
      | with_reducible assumption
      | with_reducible apply ih
      | with_reducible apply foldl_only
      | with_reducible refine State.writeBuf_only _ _ _ _ (List.Subset.trans (by decide) hw) ?_
      | with_reducible refine OnlyChanges.snd_of (by with_reducible assumption) ?_
      | with_reducible refine OnlyChanges.thd_of (by with_reducible assumption) ?_
      | intro _
      | split
      | dsimp only

theorem State.captureBlock_only {s : State} (c : Nat) (l : List Int) (hw : [.regs, .mem, .out, .free, .edac, .chans, .bufs, .plots, .cache, .audio, .faults, .queues, .jobs, .msiPending, .pair] ⊆ pcs) (hs : OnlyChanges s0 s pcs) :
    OnlyChanges s0 (State.captureBlock s c l) pcs := by
  unfold State.captureBlock
  repeat' first
    | with_reducible assumption
    | with_reducible apply foldl_only
    | with_reducible refine State.satFld_only _ _ _ _ (List.Subset.trans (by decide) hw) ?_
    | with_reducible refine State.event_only _ _ (List.Subset.trans (by decide) hw) ?_
    | with_reducible refine State.setStream_only _ _ (List.Subset.trans (by decide) hw) ?_
    | with_reducible refine State.endRegion_only _ _ (List.Subset.trans (by decide) hw) ?_
    | with_reducible refine State.releaseRegions_only _ _ (List.Subset.trans (by decide) hw) ?_
    | with_reducible refine State.audWrite_only _ _ _ _ (List.Subset.trans (by decide) hw) ?_
    | with_reducible refine OnlyChanges.snd_of (by with_reducible assumption) ?_
    | with_reducible refine OnlyChanges.thd_of (by with_reducible assumption) ?_
    | intro _
    | split
    | dsimp only

theorem State.carryAudioQueue_only (j : Job) {s : State} (hw : [.regs, .out, .bufs, .audio, .queues, .jobs, .msiPending] ⊆ pcs) (hs : OnlyChanges s0 s pcs) :
    OnlyChanges s0 (State.carryAudioQueue j s) pcs := by
  unfold State.carryAudioQueue
  repeat' first
    | with_reducible assumption
    | with_reducible apply foldl_only
    | with_reducible refine State.complete_only _ _ _ (List.Subset.trans (by decide) hw) ?_
    | with_reducible refine State.fence_only _ (List.Subset.trans (by decide) hw) ?_
    | with_reducible refine State.setStream_only _ _ (List.Subset.trans (by decide) hw) ?_
    | with_reducible refine OnlyChanges.snd_of (by with_reducible assumption) ?_
    | with_reducible refine OnlyChanges.thd_of (by with_reducible assumption) ?_
    | intro _
    | split
    | dsimp only

theorem State.bridgeBlock_only {s : State} (w : Nat) (hw : [.free] ⊆ pcs) (hs : OnlyChanges s0 s pcs) :
    OnlyChanges s0 (State.bridgeBlock s w).2 pcs := by
  unfold State.bridgeBlock
  repeat' first
    | with_reducible assumption
    | with_reducible apply foldl_only
    | with_reducible refine OnlyChanges.snd_of (by with_reducible assumption) ?_
    | with_reducible refine OnlyChanges.thd_of (by with_reducible assumption) ?_
    | intro _
    | split
    | dsimp only
    | with_reducible refine OnlyChanges.of_mk ?_ rfl rfl

theorem State.sourceBlock_only {s : State} (d : Nat) (code : Nat) (inputs : List (Nat × List Int)) (m : State.Mix) (limited : Bool) (hw : [.free] ⊆ pcs) (hs : OnlyChanges s0 s pcs) :
    OnlyChanges s0 (State.sourceBlock s d code inputs m limited).2 pcs := by
  unfold State.sourceBlock
  repeat' first
    | with_reducible assumption
    | with_reducible apply foldl_only
    | with_reducible refine State.bridgeBlock_only _ (List.Subset.trans (by decide) hw) ?_
    | with_reducible refine OnlyChanges.snd_of (by with_reducible assumption) ?_
    | with_reducible refine OnlyChanges.thd_of (by with_reducible assumption) ?_
    | intro _
    | split
    | dsimp only

theorem State.busInputs_only {s : State} (set : Store Word32) (d : Nat) (b : Nat) (inputs : List (Nat × List Int)) (m : State.Mix) (hw : [.regs, .free] ⊆ pcs) (hs : OnlyChanges s0 s pcs) :
    OnlyChanges s0 (State.busInputs s set d b inputs m).2 pcs := by
  unfold State.busInputs
  repeat' first
    | with_reducible apply foldl_only_snd
    | with_reducible assumption
    | with_reducible apply foldl_only
    | with_reducible refine State.sourceBlock_only _ _ _ _ _ (List.Subset.trans (by decide) hw) ?_
    | with_reducible refine OnlyChanges.snd_of (by with_reducible assumption) ?_
    | with_reducible refine OnlyChanges.thd_of (by with_reducible assumption) ?_
    | intro _
    | split
    | dsimp only

theorem State.busCross_only {s : State} (d : Nat) (b : Nat) (inputs : List (Nat × List Int)) (m : State.Mix) (old : Option BusRun) (u : List Int) (l : List Int) (hw : [.regs, .free] ⊆ pcs) (hs : OnlyChanges s0 s pcs) :
    OnlyChanges s0 (State.busCross s d b inputs m old u l).2 pcs := by
  unfold State.busCross
  repeat' first
    | with_reducible assumption
    | with_reducible apply foldl_only
    | with_reducible refine State.busInputs_only _ _ _ _ _ (List.Subset.trans (by decide) hw) ?_
    | with_reducible refine OnlyChanges.snd_of (by with_reducible assumption) ?_
    | with_reducible refine OnlyChanges.thd_of (by with_reducible assumption) ?_
    | intro _
    | split
    | dsimp only

theorem State.putBus_only {s : State} (b : Nat) (x : AudBus) (l : List Int) (sat : Bool) (lim : Bool) (hw : [.regs, .out, .audio, .msiPending] ⊆ pcs) (hs : OnlyChanges s0 s pcs) :
    OnlyChanges s0 (State.putBus s b x l sat lim) pcs := by
  unfold State.putBus
  repeat' first
    | with_reducible assumption
    | with_reducible apply foldl_only
    | with_reducible refine State.setFld_only _ _ _ _ (List.Subset.trans (by decide) hw) ?_
    | with_reducible refine State.event_only _ _ (List.Subset.trans (by decide) hw) ?_
    | with_reducible refine State.setBus_only _ _ (List.Subset.trans (by decide) hw) ?_
    | with_reducible refine OnlyChanges.snd_of (by with_reducible assumption) ?_
    | with_reducible refine OnlyChanges.thd_of (by with_reducible assumption) ?_
    | intro _
    | split
    | dsimp only

theorem State.runBus_only {s : State} (d : Nat) (b : Nat) (inputs : List (Nat × List Int)) (m : State.Mix) (hw : [.regs, .out, .free, .audio, .msiPending] ⊆ pcs) (hs : OnlyChanges s0 s pcs) :
    OnlyChanges s0 (State.runBus s d b inputs m).2 pcs := by
  unfold State.runBus
  repeat' first
    | with_reducible assumption
    | with_reducible apply foldl_only
    | with_reducible refine State.setRw_only _ _ (List.Subset.trans (by decide) hw) ?_
    | with_reducible refine State.busInputs_only _ _ _ _ _ (List.Subset.trans (by decide) hw) ?_
    | with_reducible refine State.busCross_only _ _ _ _ _ _ _ (List.Subset.trans (by decide) hw) ?_
    | with_reducible refine State.putBus_only _ _ _ _ _ (List.Subset.trans (by decide) hw) ?_
    | with_reducible refine OnlyChanges.snd_of (by with_reducible assumption) ?_
    | with_reducible refine OnlyChanges.thd_of (by with_reducible assumption) ?_
    | intro _
    | split
    | dsimp only

theorem State.selected_only {s : State} (d : Nat) (k : Nat) (code : State → Nat) (inputs : List (Nat × List Int)) (m : State.Mix) (hw : [.regs, .free] ⊆ pcs) (hs : OnlyChanges s0 s pcs) :
    OnlyChanges s0 (State.selected s d k code inputs m).2 pcs := by
  unfold State.selected
  repeat' first
    | with_reducible assumption
    | with_reducible apply foldl_only
    | with_reducible refine State.sourceBlock_only _ _ _ _ _ (List.Subset.trans (by decide) hw) ?_
    | with_reducible refine OnlyChanges.snd_of (by with_reducible assumption) ?_
    | with_reducible refine OnlyChanges.thd_of (by with_reducible assumption) ?_
    | intro _
    | split
    | dsimp only

theorem State.sidePlan_only {s : State} (hw : [.regs, .audio] ⊆ pcs) (hs : OnlyChanges s0 s pcs) :
    OnlyChanges s0 (State.sidePlan s) pcs := by
  unfold State.sidePlan
  repeat' first
    | with_reducible assumption
    | with_reducible apply foldl_only
    | with_reducible refine OnlyChanges.snd_of (by with_reducible assumption) ?_
    | with_reducible refine OnlyChanges.thd_of (by with_reducible assumption) ?_
    | intro _
    | split
    | dsimp only
    | with_reducible refine OnlyChanges.of_mk ?_ rfl rfl

theorem State.portFrames_only {s : State} (d : Nat) (x2 : Nat) (inputs : List (Nat × List Int)) (hw : [.out, .audio] ⊆ pcs) (hs : OnlyChanges s0 s pcs) :
    OnlyChanges s0 (State.portFrames s d x2 inputs) pcs := by
  unfold State.portFrames
  repeat' first
    | with_reducible assumption
    | with_reducible apply foldl_only
    | with_reducible refine State.emit_only _ (List.Subset.trans (by decide) hw) ?_
    | with_reducible refine OnlyChanges.snd_of (by with_reducible assumption) ?_
    | with_reducible refine OnlyChanges.thd_of (by with_reducible assumption) ?_
    | intro _
    | split
    | dsimp only
    | with_reducible refine OnlyChanges.of_mk ?_ rfl rfl

theorem State.takeSlots_only {s : State} (d : Nat) (inputs : List (Nat × List Int)) (m : State.Mix) (hw : [.regs, .free, .audio] ⊆ pcs) (hs : OnlyChanges s0 s pcs) :
    OnlyChanges s0 (State.takeSlots s d inputs m) pcs := by
  unfold State.takeSlots
  extract_lets r next
  have h : OnlyChanges s0 r.2 pcs := by
    refine foldl_only_snd (fun t x ht => foldl_only_snd (fun t x ht => ?_) ht) hs
    exact State.selected_only _ _ _ _ _ (List.Subset.trans (by decide) hw) ht
  exact OnlyChanges.of_mk (h) rfl rfl

theorem State.portSync_only {s : State} (d : Nat) (sync : List Nat) (hw : [.regs] ⊆ pcs) (hs : OnlyChanges s0 s pcs) :
    OnlyChanges s0 (State.portSync s d sync) pcs := by
  unfold State.portSync
  repeat' first
    | with_reducible assumption
    | with_reducible apply foldl_only
    | with_reducible refine State.setFld_only _ _ _ _ (List.Subset.trans (by decide) hw) ?_
    | with_reducible refine OnlyChanges.snd_of (by with_reducible assumption) ?_
    | with_reducible refine OnlyChanges.thd_of (by with_reducible assumption) ?_
    | intro _
    | split
    | dsimp only

theorem State.fadeStep_only {s : State} (d : Nat) (hw : [.audio] ⊆ pcs) (hs : OnlyChanges s0 s pcs) :
    OnlyChanges s0 (State.fadeStep s d) pcs := by
  unfold State.fadeStep
  repeat' first
    | with_reducible assumption
    | with_reducible apply foldl_only
    | with_reducible refine State.setBus_only _ _ (List.Subset.trans (by decide) hw) ?_
    | with_reducible refine OnlyChanges.snd_of (by with_reducible assumption) ?_
    | with_reducible refine OnlyChanges.thd_of (by with_reducible assumption) ?_
    | intro _
    | split
    | dsimp only
    | with_reducible refine OnlyChanges.of_mk ?_ rfl rfl

theorem State.audStopped_only {s : State} (hw : [.regs, .audio] ⊆ pcs) (hs : OnlyChanges s0 s pcs) :
    OnlyChanges s0 (State.audStopped s) pcs := by
  unfold State.audStopped
  repeat' first
    | with_reducible assumption
    | with_reducible apply foldl_only
    | with_reducible refine State.setFld_only _ _ _ _ (List.Subset.trans (by decide) hw) ?_
    | with_reducible refine OnlyChanges.snd_of (by with_reducible assumption) ?_
    | with_reducible refine OnlyChanges.thd_of (by with_reducible assumption) ?_
    | intro _
    | split
    | dsimp only
    | with_reducible refine OnlyChanges.of_mk ?_ rfl rfl

theorem State.playStreams_only {s : State} (d : Nat) (hw : [.regs, .mem, .out, .free, .edac, .chans, .bufs, .plots, .cache, .audio, .faults, .queues, .jobs, .msiPending, .pair] ⊆ pcs) (hs : OnlyChanges s0 s pcs) :
    OnlyChanges s0 (State.playStreams s d).2 pcs := by
  unfold State.playStreams
  repeat' first
    | with_reducible apply foldl_only_snd
    | with_reducible assumption
    | with_reducible apply foldl_only
    | with_reducible refine State.squashStream_only _ (List.Subset.trans (by decide) hw) ?_
    | with_reducible refine State.playBlock_only _ (List.Subset.trans (by decide) hw) ?_
    | with_reducible refine OnlyChanges.snd_of (by with_reducible assumption) ?_
    | with_reducible refine OnlyChanges.thd_of (by with_reducible assumption) ?_
    | intro _
    | split
    | dsimp only

theorem State.runBuses_only {s : State} (d : Nat) (inputs : List (Nat × List Int)) (m : State.Mix) (hw : [.regs, .out, .free, .audio, .msiPending] ⊆ pcs) (hs : OnlyChanges s0 s pcs) :
    OnlyChanges s0 (State.runBuses s d inputs m).2 pcs := by
  unfold State.runBuses
  repeat' first
    | with_reducible apply foldl_only_snd
    | with_reducible assumption
    | with_reducible apply foldl_only
    | with_reducible refine State.runBus_only _ _ _ _ (List.Subset.trans (by decide) hw) ?_
    | with_reducible refine OnlyChanges.snd_of (by with_reducible assumption) ?_
    | with_reducible refine OnlyChanges.thd_of (by with_reducible assumption) ?_
    | intro _
    | split
    | dsimp only

theorem State.captureStreams_only {s : State} (d : Nat) (closing : Bool) (inputs : List (Nat × List Int)) (m : State.Mix) (hw : [.regs, .mem, .out, .free, .edac, .chans, .bufs, .plots, .cache, .audio, .faults, .queues, .jobs, .msiPending, .pair] ⊆ pcs) (hs : OnlyChanges s0 s pcs) :
    OnlyChanges s0 (State.captureStreams s d closing inputs m) pcs := by
  unfold State.captureStreams
  repeat' first
    | with_reducible assumption
    | with_reducible apply foldl_only
    | with_reducible refine State.squashStream_only _ (List.Subset.trans (by decide) hw) ?_
    | with_reducible refine State.captureBlock_only _ _ (List.Subset.trans (by decide) hw) ?_
    | with_reducible refine State.selected_only _ _ _ _ _ (List.Subset.trans (by decide) hw) ?_
    | with_reducible refine OnlyChanges.snd_of (by with_reducible assumption) ?_
    | with_reducible refine OnlyChanges.thd_of (by with_reducible assumption) ?_
    | intro _
    | split
    | dsimp only

theorem State.audPaused_only {s : State} (hw : [.audio] ⊆ pcs) (hs : OnlyChanges s0 s pcs) :
    OnlyChanges s0 (State.audPaused s) pcs := by
  unfold State.audPaused
  repeat' first
    | with_reducible assumption
    | with_reducible apply foldl_only
    | with_reducible refine OnlyChanges.snd_of (by with_reducible assumption) ?_
    | with_reducible refine OnlyChanges.thd_of (by with_reducible assumption) ?_
    | intro _
    | split
    | dsimp only
    | with_reducible refine OnlyChanges.of_mk ?_ rfl rfl

theorem State.domainClosed_only {s : State} (d : Nat) (hw : [.regs, .audio] ⊆ pcs) (hs : OnlyChanges s0 s pcs) :
    OnlyChanges s0 (State.domainClosed s d) pcs := by
  unfold State.domainClosed
  repeat' first
    | with_reducible assumption
    | with_reducible apply foldl_only
    | with_reducible refine State.audStopped_only  (List.Subset.trans (by decide) hw) ?_
    | with_reducible refine State.audPaused_only  (List.Subset.trans (by decide) hw) ?_
    | with_reducible refine OnlyChanges.snd_of (by with_reducible assumption) ?_
    | with_reducible refine OnlyChanges.thd_of (by with_reducible assumption) ?_
    | intro _
    | split
    | dsimp only
    | with_reducible refine OnlyChanges.of_mk ?_ rfl rfl

theorem State.domainFades_only {s : State} (d : Nat) (hw : [.audio] ⊆ pcs) (hs : OnlyChanges s0 s pcs) :
    OnlyChanges s0 (State.domainFades s d) pcs := by
  unfold State.domainFades
  repeat' first
    | with_reducible assumption
    | with_reducible apply foldl_only
    | with_reducible refine OnlyChanges.snd_of (by with_reducible assumption) ?_
    | with_reducible refine OnlyChanges.thd_of (by with_reducible assumption) ?_
    | intro _
    | split
    | dsimp only
    | with_reducible refine OnlyChanges.of_mk ?_ rfl rfl

theorem State.processBlock_only {s : State} (d : Nat) (inputs : List (Nat × List Int)) (hw : [.regs, .mem, .out, .free, .edac, .chans, .bufs, .plots, .cache, .audio, .faults, .queues, .jobs, .msiPending, .pair] ⊆ pcs) (hs : OnlyChanges s0 s pcs) :
    OnlyChanges s0 (State.processBlock s d inputs) pcs := by
  unfold State.processBlock
  repeat' first
    | with_reducible assumption
    | with_reducible apply foldl_only
    | with_reducible refine State.addFld_only _ _ _ _ (List.Subset.trans (by decide) hw) ?_
    | with_reducible refine State.applySet_only _ (List.Subset.trans (by decide) hw) ?_
    | with_reducible refine State.applyEnd_only  (List.Subset.trans (by decide) hw) ?_
    | with_reducible refine State.sidePlan_only  (List.Subset.trans (by decide) hw) ?_
    | with_reducible refine State.takeSlots_only _ _ _ (List.Subset.trans (by decide) hw) ?_
    | with_reducible refine State.fadeStep_only _ (List.Subset.trans (by decide) hw) ?_
    | with_reducible refine State.playStreams_only _ (List.Subset.trans (by decide) hw) ?_
    | with_reducible refine State.runBuses_only _ _ _ (List.Subset.trans (by decide) hw) ?_
    | with_reducible refine State.captureStreams_only _ _ _ _ (List.Subset.trans (by decide) hw) ?_
    | with_reducible refine State.domainFades_only _ (List.Subset.trans (by decide) hw) ?_
    | with_reducible refine OnlyChanges.snd_of (by with_reducible assumption) ?_
    | with_reducible refine OnlyChanges.thd_of (by with_reducible assumption) ?_
    | intro _
    | split
    | dsimp only

theorem State.blockBoundary_only {s : State} (d : Nat) (inputs : List (Nat × List Int)) (sync : List Nat) (hw : [.regs, .mem, .out, .free, .edac, .chans, .bufs, .plots, .cache, .audio, .faults, .queues, .jobs, .msiPending, .pair] ⊆ pcs) (hs : OnlyChanges s0 s pcs) :
    OnlyChanges s0 (State.blockBoundary s d inputs sync) pcs := by
  unfold State.blockBoundary
  repeat' first
    | with_reducible assumption
    | with_reducible apply foldl_only
    | with_reducible refine State.portFrames_only _ _ _ (List.Subset.trans (by decide) hw) ?_
    | with_reducible refine State.portSync_only _ _ (List.Subset.trans (by decide) hw) ?_
    | with_reducible refine State.domainClosed_only _ (List.Subset.trans (by decide) hw) ?_
    | with_reducible refine State.processBlock_only _ _ (List.Subset.trans (by decide) hw) ?_
    | with_reducible refine OnlyChanges.snd_of (by with_reducible assumption) ?_
    | with_reducible refine OnlyChanges.thd_of (by with_reducible assumption) ?_
    | intro _
    | split
    | dsimp only

theorem State.setLocked_only {s : State} (d : Nat) (locked : Bool) (holdover : Bool) (hw : [.regs] ⊆ pcs) (hs : OnlyChanges s0 s pcs) :
    OnlyChanges s0 (State.setLocked s d locked holdover) pcs := by
  unfold State.setLocked
  repeat' first
    | with_reducible assumption
    | with_reducible apply foldl_only
    | with_reducible refine State.setFld_only _ _ _ _ (List.Subset.trans (by decide) hw) ?_
    | with_reducible refine OnlyChanges.snd_of (by with_reducible assumption) ?_
    | with_reducible refine OnlyChanges.thd_of (by with_reducible assumption) ?_
    | intro _
    | split
    | dsimp only

theorem State.domainHoldover_only {s : State} (d : Nat) (hw : [.regs, .out, .msiPending] ⊆ pcs) (hs : OnlyChanges s0 s pcs) :
    OnlyChanges s0 (State.domainHoldover s d) pcs := by
  unfold State.domainHoldover
  repeat' first
    | with_reducible assumption
    | with_reducible apply foldl_only
    | with_reducible refine State.event_only _ _ (List.Subset.trans (by decide) hw) ?_
    | with_reducible refine State.setLocked_only _ _ _ (List.Subset.trans (by decide) hw) ?_
    | with_reducible refine OnlyChanges.snd_of (by with_reducible assumption) ?_
    | with_reducible refine OnlyChanges.thd_of (by with_reducible assumption) ?_
    | intro _
    | split
    | dsimp only

theorem State.domainRelock_only {s : State} (d : Nat) (hw : [.regs, .out, .msiPending] ⊆ pcs) (hs : OnlyChanges s0 s pcs) :
    OnlyChanges s0 (State.domainRelock s d) pcs := by
  unfold State.domainRelock
  repeat' first
    | with_reducible assumption
    | with_reducible apply foldl_only
    | with_reducible refine State.event_only _ _ (List.Subset.trans (by decide) hw) ?_
    | with_reducible refine State.setLocked_only _ _ _ (List.Subset.trans (by decide) hw) ?_
    | with_reducible refine OnlyChanges.snd_of (by with_reducible assumption) ?_
    | with_reducible refine OnlyChanges.thd_of (by with_reducible assumption) ?_
    | intro _
    | split
    | dsimp only

theorem State.audDomWrite_only (a : RegAcc) {s : State} (hw : [.regs, .shad, .out, .msiPending, .pair] ⊆ pcs) (hs : OnlyChanges s0 s pcs) :
    OnlyChanges s0 (State.audDomWrite a s) pcs := by
  unfold State.audDomWrite
  repeat' first
    | with_reducible assumption
    | with_reducible apply foldl_only
    | with_reducible refine State.recRefused_only _ (List.Subset.trans (by decide) hw) ?_
    | with_reducible refine State.refuse_only _ _ (List.Subset.trans (by decide) hw) ?_
    | with_reducible refine State.plainWrite_only _ _ (List.Subset.trans (by decide) hw) ?_
    | with_reducible refine State.mirrorWrite_only _ _ _ (List.Subset.trans (by decide) hw) ?_
    | with_reducible refine State.setLocked_only _ _ _ (List.Subset.trans (by decide) hw) ?_
    | with_reducible refine OnlyChanges.snd_of (by with_reducible assumption) ?_
    | with_reducible refine OnlyChanges.thd_of (by with_reducible assumption) ?_
    | intro _
    | split
    | dsimp only

theorem State.tdmCfgWrite_only (a : RegAcc) {s : State} (hw : [.regs, .shad, .out, .audio, .msiPending, .pair] ⊆ pcs) (hs : OnlyChanges s0 s pcs) :
    OnlyChanges s0 (State.tdmCfgWrite a s) pcs := by
  unfold State.tdmCfgWrite
  repeat' first
    | with_reducible assumption
    | with_reducible apply foldl_only
    | with_reducible refine State.setFld_only _ _ _ _ (List.Subset.trans (by decide) hw) ?_
    | with_reducible refine State.recAcc_only _ _ (List.Subset.trans (by decide) hw) ?_
    | with_reducible refine State.recRefused_only _ (List.Subset.trans (by decide) hw) ?_
    | with_reducible refine State.plainWrite_only _ _ (List.Subset.trans (by decide) hw) ?_
    | with_reducible refine State.mirrorWrite_only _ _ _ (List.Subset.trans (by decide) hw) ?_
    | with_reducible refine State.domainHoldover_only _ (List.Subset.trans (by decide) hw) ?_
    | with_reducible refine OnlyChanges.snd_of (by with_reducible assumption) ?_
    | with_reducible refine OnlyChanges.thd_of (by with_reducible assumption) ?_
    | intro _
    | split
    | dsimp only
    | with_reducible refine OnlyChanges.of_mk ?_ rfl rfl

theorem State.tdmSlip_only {s : State} (x1 : Nat) (hw : [.regs, .out, .msiPending] ⊆ pcs) (hs : OnlyChanges s0 s pcs) :
    OnlyChanges s0 (State.tdmSlip s x1) pcs := by
  unfold State.tdmSlip
  repeat' first
    | with_reducible assumption
    | with_reducible apply foldl_only
    | with_reducible refine State.satFld_only _ _ _ _ (List.Subset.trans (by decide) hw) ?_
    | with_reducible refine State.event_only _ _ (List.Subset.trans (by decide) hw) ?_
    | with_reducible refine OnlyChanges.snd_of (by with_reducible assumption) ?_
    | with_reducible refine OnlyChanges.thd_of (by with_reducible assumption) ?_
    | intro _
    | split
    | dsimp only

theorem State.tdmClockLost_only {s : State} (x1 : Nat) (hw : [.regs, .out, .msiPending] ⊆ pcs) (hs : OnlyChanges s0 s pcs) :
    OnlyChanges s0 (State.tdmClockLost s x1) pcs := by
  unfold State.tdmClockLost
  repeat' first
    | with_reducible assumption
    | with_reducible apply foldl_only
    | with_reducible refine State.setFld_only _ _ _ _ (List.Subset.trans (by decide) hw) ?_
    | with_reducible refine State.event_only _ _ (List.Subset.trans (by decide) hw) ?_
    | with_reducible refine State.domainHoldover_only _ (List.Subset.trans (by decide) hw) ?_
    | with_reducible refine OnlyChanges.snd_of (by with_reducible assumption) ?_
    | with_reducible refine OnlyChanges.thd_of (by with_reducible assumption) ?_
    | intro _
    | split
    | dsimp only

theorem State.busCfgWrite_only (a : RegAcc) {s : State} (hw : [.regs, .shad, .out, .msiPending, .pair] ⊆ pcs) (hs : OnlyChanges s0 s pcs) :
    OnlyChanges s0 (State.busCfgWrite a s) pcs := by
  unfold State.busCfgWrite
  repeat' first
    | with_reducible assumption
    | with_reducible apply foldl_only
    | with_reducible refine State.recAcc_only _ _ (List.Subset.trans (by decide) hw) ?_
    | with_reducible refine State.plainWrite_only _ _ (List.Subset.trans (by decide) hw) ?_
    | with_reducible refine State.mirrorWrite_only _ _ _ (List.Subset.trans (by decide) hw) ?_
    | with_reducible refine OnlyChanges.snd_of (by with_reducible assumption) ?_
    | with_reducible refine OnlyChanges.thd_of (by with_reducible assumption) ?_
    | intro _
    | split
    | dsimp only

theorem State.strCfgWrite_only (a : RegAcc) {s : State} (hw : [.regs, .shad, .out, .audio, .msiPending, .pair] ⊆ pcs) (hs : OnlyChanges s0 s pcs) :
    OnlyChanges s0 (State.strCfgWrite a s) pcs := by
  unfold State.strCfgWrite
  repeat' first
    | with_reducible assumption
    | with_reducible apply foldl_only
    | with_reducible refine State.recAcc_only _ _ (List.Subset.trans (by decide) hw) ?_
    | with_reducible refine State.plainWrite_only _ _ (List.Subset.trans (by decide) hw) ?_
    | with_reducible refine State.mirrorWrite_only _ _ _ (List.Subset.trans (by decide) hw) ?_
    | with_reducible refine State.setStream_only _ _ (List.Subset.trans (by decide) hw) ?_
    | with_reducible refine OnlyChanges.snd_of (by with_reducible assumption) ?_
    | with_reducible refine OnlyChanges.thd_of (by with_reducible assumption) ?_
    | intro _
    | split
    | dsimp only

theorem State.strChannelWrite_only (a : RegAcc) {s : State} (hw : [.regs, .shad, .out, .msiPending, .pair] ⊆ pcs) (hs : OnlyChanges s0 s pcs) :
    OnlyChanges s0 (State.strChannelWrite a s) pcs := by
  unfold State.strChannelWrite
  repeat' first
    | with_reducible assumption
    | with_reducible apply foldl_only
    | with_reducible refine State.recRefused_only _ (List.Subset.trans (by decide) hw) ?_
    | with_reducible refine State.refuse_only _ _ (List.Subset.trans (by decide) hw) ?_
    | with_reducible refine State.plainWrite_only _ _ (List.Subset.trans (by decide) hw) ?_
    | with_reducible refine State.mirrorWrite_only _ _ _ (List.Subset.trans (by decide) hw) ?_
    | with_reducible refine OnlyChanges.snd_of (by with_reducible assumption) ?_
    | with_reducible refine OnlyChanges.thd_of (by with_reducible assumption) ?_
    | intro _
    | split
    | dsimp only

theorem State.audResetFn_only {s : State} (fn : Nat) (hw : [.regs, .audio] ⊆ pcs) (hs : OnlyChanges s0 s pcs) :
    OnlyChanges s0 (State.audResetFn s fn) pcs := by
  unfold State.audResetFn
  repeat' first
    | with_reducible assumption
    | with_reducible apply foldl_only
    | with_reducible refine State.setStream_only _ _ (List.Subset.trans (by decide) hw) ?_
    | with_reducible refine OnlyChanges.snd_of (by with_reducible assumption) ?_
    | with_reducible refine OnlyChanges.thd_of (by with_reducible assumption) ?_
    | intro _
    | split
    | dsimp only

theorem State.audTakeover_only {s : State} (hw : [.regs, .mem, .out, .free, .chans, .bufs, .plots, .cache, .audio, .queues, .jobs, .msiPending, .pair] ⊆ pcs) (hs : OnlyChanges s0 s pcs) :
    OnlyChanges s0 (State.audTakeover s) pcs := by
  unfold State.audTakeover
  repeat' first
    | with_reducible assumption
    | with_reducible apply foldl_only
    | with_reducible refine State.setStream_only _ _ (List.Subset.trans (by decide) hw) ?_
    | with_reducible refine State.releaseRegions_only _ _ (List.Subset.trans (by decide) hw) ?_
    | with_reducible refine OnlyChanges.snd_of (by with_reducible assumption) ?_
    | with_reducible refine OnlyChanges.thd_of (by with_reducible assumption) ?_
    | intro _
    | split
    | dsimp only
    | with_reducible refine OnlyChanges.of_mk ?_ rfl rfl

theorem State.audEnableAll_only {s : State} (on : Bool) (hw : [.regs] ⊆ pcs) (hs : OnlyChanges s0 s pcs) :
    OnlyChanges s0 (State.audEnableAll s on) pcs := by
  unfold State.audEnableAll
  repeat' first
    | with_reducible assumption
    | with_reducible apply foldl_only
    | with_reducible refine State.setFld_only _ _ _ _ (List.Subset.trans (by decide) hw) ?_
    | with_reducible refine OnlyChanges.snd_of (by with_reducible assumption) ?_
    | with_reducible refine OnlyChanges.thd_of (by with_reducible assumption) ?_
    | intro _
    | split
    | dsimp only

theorem State.endStreams_only {s : State} (hw : [.regs, .audio] ⊆ pcs) (hs : OnlyChanges s0 s pcs) :
    OnlyChanges s0 (State.endStreams s) pcs := by
  unfold State.endStreams
  repeat' first
    | with_reducible assumption
    | with_reducible apply foldl_only
    | with_reducible refine State.setStream_only _ _ (List.Subset.trans (by decide) hw) ?_
    | with_reducible refine OnlyChanges.snd_of (by with_reducible assumption) ?_
    | with_reducible refine OnlyChanges.thd_of (by with_reducible assumption) ?_
    | intro _
    | split
    | dsimp only

theorem State.audStop_only {s : State} (hw : [.regs, .audio] ⊆ pcs) (hs : OnlyChanges s0 s pcs) :
    OnlyChanges s0 (State.audStop s) pcs := by
  unfold State.audStop
  repeat' first
    | with_reducible assumption
    | with_reducible apply foldl_only
    | with_reducible refine State.audEnableAll_only _ (List.Subset.trans (by decide) hw) ?_
    | with_reducible refine State.endStreams_only  (List.Subset.trans (by decide) hw) ?_
    | with_reducible refine OnlyChanges.snd_of (by with_reducible assumption) ?_
    | with_reducible refine OnlyChanges.thd_of (by with_reducible assumption) ?_
    | intro _
    | split
    | dsimp only
    | with_reducible refine OnlyChanges.of_mk ?_ rfl rfl

theorem State.audEnable_only (a : RegAcc) (on : Bool) {s : State} (hw : [.regs, .audio, .pair] ⊆ pcs) (hs : OnlyChanges s0 s pcs) :
    OnlyChanges s0 (State.audEnable a on s) pcs := by
  unfold State.audEnable
  repeat' first
    | with_reducible assumption
    | with_reducible apply foldl_only
    | with_reducible refine State.setFld_only _ _ _ _ (List.Subset.trans (by decide) hw) ?_
    | with_reducible refine State.mirrorWrite_only _ _ _ (List.Subset.trans (by decide) hw) ?_
    | with_reducible refine State.audEnableAll_only _ (List.Subset.trans (by decide) hw) ?_
    | with_reducible refine State.audStop_only  (List.Subset.trans (by decide) hw) ?_
    | with_reducible refine OnlyChanges.snd_of (by with_reducible assumption) ?_
    | with_reducible refine OnlyChanges.thd_of (by with_reducible assumption) ?_
    | intro _
    | split
    | dsimp only
    | with_reducible refine OnlyChanges.of_mk ?_ rfl rfl

theorem State.audKill_only {s : State} (hw : [.regs, .mem, .out, .free, .chans, .bufs, .plots, .cache, .audio, .queues, .jobs, .msiPending, .pair] ⊆ pcs) (hs : OnlyChanges s0 s pcs) :
    OnlyChanges s0 (State.audKill s) pcs := by
  unfold State.audKill
  repeat' first
    | with_reducible assumption
    | with_reducible apply foldl_only
    | with_reducible refine State.setStream_only _ _ (List.Subset.trans (by decide) hw) ?_
    | with_reducible refine State.releaseRegions_only _ _ (List.Subset.trans (by decide) hw) ?_
    | with_reducible refine State.audStopped_only  (List.Subset.trans (by decide) hw) ?_
    | with_reducible refine OnlyChanges.snd_of (by with_reducible assumption) ?_
    | with_reducible refine OnlyChanges.thd_of (by with_reducible assumption) ?_
    | intro _
    | split
    | dsimp only

theorem State.audReset_only (a : RegAcc) {s : State} (hw : [.regs, .shad, .mem, .out, .free, .chans, .bufs, .plots, .cache, .audio, .faults, .queues, .jobs, .msiPending, .pair] ⊆ pcs) (hs : OnlyChanges s0 s pcs) :
    OnlyChanges s0 (State.audReset a s) pcs := by
  unfold State.audReset
  repeat' first
    | with_reducible assumption
    | with_reducible apply foldl_only
    | with_reducible refine State.recAcc_only _ _ (List.Subset.trans (by decide) hw) ?_
    | with_reducible refine State.mirrorWrite_only _ _ _ (List.Subset.trans (by decide) hw) ?_
    | with_reducible refine State.resetPage_only _ _ (List.Subset.trans (by decide) hw) ?_
    | with_reducible refine State.audKill_only  (List.Subset.trans (by decide) hw) ?_
    | with_reducible refine OnlyChanges.snd_of (by with_reducible assumption) ?_
    | with_reducible refine OnlyChanges.thd_of (by with_reducible assumption) ?_
    | intro _
    | split
    | dsimp only
    | with_reducible refine OnlyChanges.of_mk ?_ rfl rfl

end Sys2Proof.Machine
end

