-- ==== Sys2Proof/Laws/FrameScanout.lean ====
section
/-! SUPPORT. What every operation of Machine/Scanout.lean leaves alone. -/

namespace Sys2Proof.Machine

set_option Elab.async false
set_option linter.all false

variable {s0 : State} {pcs : List Piece}

theorem State.shedUnit_only {s : State} (n : Nat) (sl : Compose.Slot) (f : Furrow) (i : Nat) (hw : [.regs, .out, .display, .msiPending] ⊆ pcs) (hs : OnlyChanges s0 s pcs) :
    OnlyChanges s0 (State.shedUnit s n sl f i) pcs := by
  unfold State.shedUnit
  repeat' first
    | with_reducible assumption
    | with_reducible apply foldl_only
    | with_reducible refine State.event_only _ _ (List.Subset.trans (by decide) hw) ?_
    | with_reducible refine State.pmcCount_only _ _ _ _ _ (List.Subset.trans (by decide) hw) ?_
    | with_reducible refine State.setDisp_only _ _ (List.Subset.trans (by decide) hw) ?_
    | with_reducible refine OnlyChanges.snd_of (by with_reducible assumption) ?_
    | with_reducible refine OnlyChanges.thd_of (by with_reducible assumption) ?_
    | intro _
    | split
    | dsimp only

theorem State.shedLoop_only (n : Nat) (now : Int) (m : Monitor) (x3 : Nat) {x4 : State} (hw : [.regs, .out, .display, .msiPending] ⊆ pcs) (hx4 : OnlyChanges s0 x4 pcs) :
    OnlyChanges s0 (State.shedLoop n now m x3 x4) pcs := by
  induction x3 generalizing n now m x4 with
  | zero =>
    unfold State.shedLoop
    repeat' first
      | with_reducible assumption
      | with_reducible apply foldl_only
      | with_reducible refine State.shedUnit_only _ _ _ _ (List.Subset.trans (by decide) hw) ?_
      | with_reducible refine OnlyChanges.snd_of (by with_reducible assumption) ?_
      | with_reducible refine OnlyChanges.thd_of (by with_reducible assumption) ?_
      | intro _
      | split
      | dsimp only
  | succ _ ih =>
    unfold State.shedLoop
    repeat' first
      | with_reducible assumption
      | with_reducible apply ih
      | with_reducible apply foldl_only
      | with_reducible refine State.shedUnit_only _ _ _ _ (List.Subset.trans (by decide) hw) ?_
      | with_reducible refine OnlyChanges.snd_of (by with_reducible assumption) ?_
      | with_reducible refine OnlyChanges.thd_of (by with_reducible assumption) ?_
      | intro _
      | split
      | dsimp only

theorem State.advanceSlot_only (n : Nat) (now : Int) (m : Monitor) (top : Nat) (sl : Compose.Slot) (x5 : Nat) {x6 : State} (hw : [.regs, .display] ⊆ pcs) (hx6 : OnlyChanges s0 x6 pcs) :
    OnlyChanges s0 (State.advanceSlot n now m top sl x5 x6) pcs := by
  induction x5 generalizing n now m top sl x6 with
  | zero =>
    unfold State.advanceSlot
    repeat' first
      | with_reducible assumption
      | with_reducible apply foldl_only
      | with_reducible refine State.setDisp_only _ _ (List.Subset.trans (by decide) hw) ?_
      | with_reducible refine OnlyChanges.snd_of (by with_reducible assumption) ?_
      | with_reducible refine OnlyChanges.thd_of (by with_reducible assumption) ?_
      | intro _
      | split
      | dsimp only
  | succ _ ih =>
    unfold State.advanceSlot
    repeat' first
      | with_reducible assumption
      | with_reducible apply ih
      | with_reducible apply foldl_only
      | with_reducible refine State.setDisp_only _ _ (List.Subset.trans (by decide) hw) ?_
      | with_reducible refine OnlyChanges.snd_of (by with_reducible assumption) ?_
      | with_reducible refine OnlyChanges.thd_of (by with_reducible assumption) ?_
      | intro _
      | split
      | dsimp only

theorem State.advance_only {s : State} (n : Nat) (now : Int) (m : Monitor) (hw : [.regs, .display] ⊆ pcs) (hs : OnlyChanges s0 s pcs) :
    OnlyChanges s0 (State.advance s n now m) pcs := by
  unfold State.advance
  repeat' first
    | with_reducible assumption
    | with_reducible apply foldl_only
    | with_reducible refine State.advanceSlot_only _ _ _ _ _ _ (List.Subset.trans (by decide) hw) ?_
    | with_reducible refine OnlyChanges.snd_of (by with_reducible assumption) ?_
    | with_reducible refine OnlyChanges.thd_of (by with_reducible assumption) ?_
    | intro _
    | split
    | dsimp only

theorem State.monitor_only {s : State} (n : Nat) (now : Int) (m : Monitor) (hw : [.regs, .out, .display, .msiPending] ⊆ pcs) (hs : OnlyChanges s0 s pcs) :
    OnlyChanges s0 (State.monitor s n now m) pcs := by
  unfold State.monitor
  repeat' first
    | with_reducible assumption
    | with_reducible apply foldl_only
    | with_reducible refine State.setDisp_only _ _ (List.Subset.trans (by decide) hw) ?_
    | with_reducible refine State.shedLoop_only _ _ _ _ (List.Subset.trans (by decide) hw) ?_
    | with_reducible refine State.advance_only _ _ _ (List.Subset.trans (by decide) hw) ?_
    | with_reducible refine OnlyChanges.snd_of (by with_reducible assumption) ?_
    | with_reducible refine OnlyChanges.thd_of (by with_reducible assumption) ?_
    | intro _
    | split
    | dsimp only

theorem State.readTile_only {s : State} (sl : Compose.Slot) (x2 : Nat) (pl : Seedbed.Plane) (ty : Nat) (tx : Nat) (entry : Option Nat) (hw : [.regs, .mem, .out, .edac, .cache, .faults, .msiPending] ⊆ pcs) (hs : OnlyChanges s0 s pcs) :
    OnlyChanges s0 (State.readTile s sl x2 pl ty tx entry).2 pcs := by
  unfold State.readTile
  repeat' first
    | with_reducible assumption
    | with_reducible apply foldl_only
    | with_reducible refine State.event_only _ _ (List.Subset.trans (by decide) hw) ?_
    | with_reducible refine State.readBuf_only _ _ _ _ (List.Subset.trans (by decide) hw) ?_
    | with_reducible refine OnlyChanges.snd_of (by with_reducible assumption) ?_
    | with_reducible refine OnlyChanges.thd_of (by with_reducible assumption) ?_
    | intro _
    | split
    | dsimp only

theorem State.readMeta_only {s : State} (who : Attr) (x2 : List Nat) (hw : [.regs, .mem, .out, .edac, .cache, .faults, .msiPending] ⊆ pcs) (hs : OnlyChanges s0 s pcs) :
    OnlyChanges s0 (State.readMeta s who x2).2 pcs := by
  induction x2 generalizing s who with
  | nil =>
    unfold State.readMeta
    repeat' first
      | with_reducible assumption
      | with_reducible apply foldl_only
      | with_reducible refine State.readWordAs_only _ _ (List.Subset.trans (by decide) hw) ?_
      | with_reducible refine OnlyChanges.snd_of (by with_reducible assumption) ?_
      | with_reducible refine OnlyChanges.thd_of (by with_reducible assumption) ?_
      | intro _
      | split
      | dsimp only
  | cons _ _ ih =>
    unfold State.readMeta
    repeat' first
      | with_reducible assumption
      | with_reducible apply ih
      | with_reducible apply foldl_only
      | with_reducible refine State.readWordAs_only _ _ (List.Subset.trans (by decide) hw) ?_
      | with_reducible refine OnlyChanges.snd_of (by with_reducible assumption) ?_
      | with_reducible refine OnlyChanges.thd_of (by with_reducible assumption) ?_
      | intro _
      | split
      | dsimp only

theorem State.fetchFurrow_only {s : State} (n : Nat) (sl : Compose.Slot) (f : Furrow) (pl : Seedbed.Plane) (hw : [.regs, .mem, .out, .edac, .cache, .display, .faults, .msiPending] ⊆ pcs) (hs : OnlyChanges s0 s pcs) :
    OnlyChanges s0 (State.fetchFurrow s n sl f pl) pcs := by
  unfold State.fetchFurrow
  repeat' first
    | with_reducible apply foldl_only_snd
    | with_reducible assumption
    | with_reducible apply foldl_only
    | with_reducible refine State.setDisp_only _ _ (List.Subset.trans (by decide) hw) ?_
    | with_reducible refine State.readTile_only _ _ _ _ _ _ (List.Subset.trans (by decide) hw) ?_
    | with_reducible refine State.readMeta_only _ _ (List.Subset.trans (by decide) hw) ?_
    | with_reducible refine OnlyChanges.snd_of (by with_reducible assumption) ?_
    | with_reducible refine OnlyChanges.thd_of (by with_reducible assumption) ?_
    | intro _
    | split
    | dsimp only

theorem State.furrowArrival_only {s : State} (n : Nat) (k : Nat) (x3 : Nat) (row : Nat) (clock : Nat) (m : Monitor) (hw : [.regs, .mem, .out, .edac, .cache, .display, .faults, .msiPending] ⊆ pcs) (hs : OnlyChanges s0 s pcs) :
    OnlyChanges s0 (State.furrowArrival s n k x3 row clock m) pcs := by
  unfold State.furrowArrival
  repeat' first
    | with_reducible apply foldl_only_snd
    | with_reducible assumption
    | with_reducible apply foldl_only
    | with_reducible refine State.advance_only _ _ _ (List.Subset.trans (by decide) hw) ?_
    | with_reducible refine State.monitor_only _ _ _ (List.Subset.trans (by decide) hw) ?_
    | with_reducible refine State.fetchFurrow_only _ _ _ _ (List.Subset.trans (by decide) hw) ?_
    | with_reducible refine OnlyChanges.snd_of (by with_reducible assumption) ?_
    | with_reducible refine OnlyChanges.thd_of (by with_reducible assumption) ?_
    | intro _
    | split
    | dsimp only

theorem State.shedForLine_only (n : Nat) (y : Nat) (x2 : Nat) {x3 : State} (hw : [.regs, .out, .display, .msiPending] ⊆ pcs) (hx3 : OnlyChanges s0 x3 pcs) :
    OnlyChanges s0 (State.shedForLine n y x2 x3) pcs := by
  induction x2 generalizing n y x3 with
  | zero =>
    unfold State.shedForLine
    repeat' first
      | with_reducible assumption
      | with_reducible apply foldl_only
      | with_reducible refine State.shedUnit_only _ _ _ _ (List.Subset.trans (by decide) hw) ?_
      | with_reducible refine OnlyChanges.snd_of (by with_reducible assumption) ?_
      | with_reducible refine OnlyChanges.thd_of (by with_reducible assumption) ?_
      | intro _
      | split
      | dsimp only
  | succ _ ih =>
    unfold State.shedForLine
    repeat' first
      | with_reducible assumption
      | with_reducible apply ih
      | with_reducible apply foldl_only
      | with_reducible refine State.shedUnit_only _ _ _ _ (List.Subset.trans (by decide) hw) ?_
      | with_reducible refine OnlyChanges.snd_of (by with_reducible assumption) ?_
      | with_reducible refine OnlyChanges.thd_of (by with_reducible assumption) ?_
      | intro _
      | split
      | dsimp only

theorem State.putLine_only {s : State} (n : Nat) (w : State.LineWork) (hw : [.regs, .out, .display, .msiPending] ⊆ pcs) (hs : OnlyChanges s0 s pcs) :
    OnlyChanges s0 (State.putLine s n w) pcs := by
  unfold State.putLine
  repeat' first
    | with_reducible assumption
    | with_reducible apply foldl_only
    | with_reducible refine State.event_only _ _ (List.Subset.trans (by decide) hw) ?_
    | with_reducible refine State.setDisp_only _ _ (List.Subset.trans (by decide) hw) ?_
    | with_reducible refine OnlyChanges.snd_of (by with_reducible assumption) ?_
    | with_reducible refine OnlyChanges.thd_of (by with_reducible assumption) ?_
    | intro _
    | split
    | dsimp only

theorem State.composeLine_only {s : State} (n : Nat) (hw : [.regs, .out, .display, .msiPending] ⊆ pcs) (hs : OnlyChanges s0 s pcs) :
    OnlyChanges s0 (State.composeLine s n) pcs := by
  unfold State.composeLine
  repeat' first
    | with_reducible assumption
    | with_reducible apply foldl_only
    | with_reducible refine State.setDisp_only _ _ (List.Subset.trans (by decide) hw) ?_
    | with_reducible refine State.shedForLine_only _ _ _ (List.Subset.trans (by decide) hw) ?_
    | with_reducible refine State.putLine_only _ _ (List.Subset.trans (by decide) hw) ?_
    | with_reducible refine OnlyChanges.snd_of (by with_reducible assumption) ?_
    | with_reducible refine OnlyChanges.thd_of (by with_reducible assumption) ?_
    | intro _
    | split
    | dsimp only

theorem State.genlock_only {s : State} (n : Nat) (e : Option Int) (hw : [.regs, .out, .display, .msiPending] ⊆ pcs) (hs : OnlyChanges s0 s pcs) :
    OnlyChanges s0 (State.genlock s n e) pcs := by
  unfold State.genlock
  repeat' first
    | with_reducible assumption
    | with_reducible apply foldl_only
    | with_reducible refine State.setFld_only _ _ _ _ (List.Subset.trans (by decide) hw) ?_
    | with_reducible refine State.event_only _ _ (List.Subset.trans (by decide) hw) ?_
    | with_reducible refine State.setDisp_only _ _ (List.Subset.trans (by decide) hw) ?_
    | with_reducible refine OnlyChanges.snd_of (by with_reducible assumption) ?_
    | with_reducible refine OnlyChanges.thd_of (by with_reducible assumption) ?_
    | intro _
    | split
    | dsimp only

theorem State.takeFrameErr_only {s : State} (n : Nat) (hw : [.pair] ⊆ pcs) (hs : OnlyChanges s0 s pcs) :
    OnlyChanges s0 (State.takeFrameErr s n).2 pcs := by
  unfold State.takeFrameErr
  repeat' first
    | with_reducible assumption
    | with_reducible apply foldl_only
    | with_reducible refine OnlyChanges.snd_of (by with_reducible assumption) ?_
    | with_reducible refine OnlyChanges.thd_of (by with_reducible assumption) ?_
    | intro _
    | split
    | dsimp only
    | with_reducible refine OnlyChanges.of_mk ?_ rfl rfl

theorem State.frameStart_only {s : State} (n : Nat) (phase : Int) (hw : [.regs, .out, .display, .msiPending, .pair] ⊆ pcs) (hs : OnlyChanges s0 s pcs) :
    OnlyChanges s0 (State.frameStart s n phase) pcs := by
  unfold State.frameStart
  repeat' first
    | with_reducible assumption
    | with_reducible apply foldl_only
    | with_reducible refine State.setFld_only _ _ _ _ (List.Subset.trans (by decide) hw) ?_
    | with_reducible refine State.setDisp_only _ _ (List.Subset.trans (by decide) hw) ?_
    | with_reducible refine State.genlock_only _ _ (List.Subset.trans (by decide) hw) ?_
    | with_reducible refine State.takeFrameErr_only _ (List.Subset.trans (by decide) hw) ?_
    | with_reducible refine OnlyChanges.snd_of (by with_reducible assumption) ?_
    | with_reducible refine OnlyChanges.thd_of (by with_reducible assumption) ?_
    | intro _
    | split
    | dsimp only
    | with_reducible refine OnlyChanges.of_mk ?_ rfl rfl

theorem State.scanLineStart_only {s : State} (n : Nat) (phase : Int) (m : Monitor) (hw : [.regs, .out, .display, .msiPending, .pair] ⊆ pcs) (hs : OnlyChanges s0 s pcs) :
    OnlyChanges s0 (State.scanLineStart s n phase m) pcs := by
  unfold State.scanLineStart
  repeat' first
    | with_reducible assumption
    | with_reducible apply foldl_only
    | with_reducible refine State.setFld_only _ _ _ _ (List.Subset.trans (by decide) hw) ?_
    | with_reducible refine State.setDisp_only _ _ (List.Subset.trans (by decide) hw) ?_
    | with_reducible refine State.scanLine_only _ _ (List.Subset.trans (by decide) hw) ?_
    | with_reducible refine State.sendFlit_only _ _ (List.Subset.trans (by decide) hw) ?_
    | with_reducible refine State.monitor_only _ _ _ (List.Subset.trans (by decide) hw) ?_
    | with_reducible refine State.frameStart_only _ _ (List.Subset.trans (by decide) hw) ?_
    | with_reducible refine OnlyChanges.snd_of (by with_reducible assumption) ?_
    | with_reducible refine OnlyChanges.thd_of (by with_reducible assumption) ?_
    | intro _
    | split
    | dsimp only

theorem State.counterEvent_only {s : State} (n : Nat) (bitNo : Nat) (here : Timing → Disp → Bool) (hw : [.regs, .out, .msiPending] ⊆ pcs) (hs : OnlyChanges s0 s pcs) :
    OnlyChanges s0 (State.counterEvent s n bitNo here) pcs := by
  unfold State.counterEvent
  repeat' first
    | with_reducible assumption
    | with_reducible apply foldl_only
    | with_reducible refine State.event_only _ _ (List.Subset.trans (by decide) hw) ?_
    | with_reducible refine OnlyChanges.snd_of (by with_reducible assumption) ?_
    | with_reducible refine OnlyChanges.thd_of (by with_reducible assumption) ?_
    | intro _
    | split
    | dsimp only

theorem State.lineMatch_only {s : State} (n : Nat) (i : Nat) (hw : [.regs, .out, .msiPending] ⊆ pcs) (hs : OnlyChanges s0 s pcs) :
    OnlyChanges s0 (State.lineMatch s n i) pcs := by
  unfold State.lineMatch
  repeat' first
    | with_reducible assumption
    | with_reducible apply foldl_only
    | with_reducible refine State.counterEvent_only _ _ _ (List.Subset.trans (by decide) hw) ?_
    | with_reducible refine OnlyChanges.snd_of (by with_reducible assumption) ?_
    | with_reducible refine OnlyChanges.thd_of (by with_reducible assumption) ?_
    | intro _
    | split
    | dsimp only

theorem State.vrrDecision_only {s : State} (n : Nat) (hw : [.regs, .out, .display, .pair] ⊆ pcs) (hs : OnlyChanges s0 s pcs) :
    OnlyChanges s0 (State.vrrDecision s n) pcs := by
  unfold State.vrrDecision
  repeat' first
    | with_reducible assumption
    | with_reducible apply foldl_only
    | with_reducible refine State.setFld_only _ _ _ _ (List.Subset.trans (by decide) hw) ?_
    | with_reducible refine State.setDisp_only _ _ (List.Subset.trans (by decide) hw) ?_
    | with_reducible refine State.adaptiveSdp_only _ _ (List.Subset.trans (by decide) hw) ?_
    | with_reducible refine State.sendFlit_only _ _ (List.Subset.trans (by decide) hw) ?_
    | with_reducible refine State.noteSkew_only _ _ (List.Subset.trans (by decide) hw) ?_
    | with_reducible refine OnlyChanges.snd_of (by with_reducible assumption) ?_
    | with_reducible refine OnlyChanges.thd_of (by with_reducible assumption) ?_
    | intro _
    | split
    | dsimp only

theorem State.genlockWrite_only (a : RegAcc) {s : State} (hw : [.regs, .shad, .out, .msiPending, .pair] ⊆ pcs) (hs : OnlyChanges s0 s pcs) :
    OnlyChanges s0 (State.genlockWrite a s) pcs := by
  unfold State.genlockWrite
  repeat' first
    | with_reducible assumption
    | with_reducible apply foldl_only
    | with_reducible refine State.recAcc_only _ _ (List.Subset.trans (by decide) hw) ?_
    | with_reducible refine State.denyReg_only _ (List.Subset.trans (by decide) hw) ?_
    | with_reducible refine State.plainWrite_only _ _ (List.Subset.trans (by decide) hw) ?_
    | with_reducible refine State.mirrorWrite_only _ _ _ (List.Subset.trans (by decide) hw) ?_
    | with_reducible refine OnlyChanges.snd_of (by with_reducible assumption) ?_
    | with_reducible refine OnlyChanges.thd_of (by with_reducible assumption) ?_
    | intro _
    | split
    | dsimp only

theorem State.dropRan_only {s : State} (n : Nat) (hw : [.power] ⊆ pcs) (hs : OnlyChanges s0 s pcs) :
    OnlyChanges s0 (State.dropRan s n) pcs := by
  unfold State.dropRan
  repeat' first
    | with_reducible assumption
    | with_reducible apply foldl_only
    | with_reducible refine OnlyChanges.snd_of (by with_reducible assumption) ?_
    | with_reducible refine OnlyChanges.thd_of (by with_reducible assumption) ?_
    | intro _
    | split
    | dsimp only
    | with_reducible refine OnlyChanges.of_mk ?_ rfl rfl

theorem State.beginStart_only {s : State} (n : Nat) (hw : [.regs, .out, .display, .faults, .msiPending] ⊆ pcs) (hs : OnlyChanges s0 s pcs) :
    OnlyChanges s0 (State.beginStart s n) pcs := by
  unfold State.beginStart
  repeat' first
    | with_reducible assumption
    | with_reducible apply foldl_only
    | with_reducible refine State.setRw_only _ _ (List.Subset.trans (by decide) hw) ?_
    | with_reducible refine State.setFld_only _ _ _ _ (List.Subset.trans (by decide) hw) ?_
    | with_reducible refine State.recErr_only _ _ _ (List.Subset.trans (by decide) hw) ?_
    | with_reducible refine State.reportContained_only _ _ _ _ (List.Subset.trans (by decide) hw) ?_
    | with_reducible refine State.setDisp_only _ _ (List.Subset.trans (by decide) hw) ?_
    | with_reducible refine OnlyChanges.snd_of (by with_reducible assumption) ?_
    | with_reducible refine OnlyChanges.thd_of (by with_reducible assumption) ?_
    | intro _
    | split
    | dsimp only

theorem State.scanStart_only (a : RegAcc) (n : Nat) {s : State} (hw : [.regs, .out, .power, .display, .faults, .msiPending, .pair] ⊆ pcs) (hs : OnlyChanges s0 s pcs) :
    OnlyChanges s0 (State.scanStart a n s) pcs := by
  unfold State.scanStart
  repeat' first
    | with_reducible assumption
    | with_reducible apply foldl_only
    | with_reducible refine State.setFld_only _ _ _ _ (List.Subset.trans (by decide) hw) ?_
    | with_reducible refine State.recAcc_only _ _ (List.Subset.trans (by decide) hw) ?_
    | with_reducible refine State.mirrorWrite_only _ _ _ (List.Subset.trans (by decide) hw) ?_
    | with_reducible refine State.setDisp_only _ _ (List.Subset.trans (by decide) hw) ?_
    | with_reducible refine State.dropRan_only _ (List.Subset.trans (by decide) hw) ?_
    | with_reducible refine State.beginStart_only _ (List.Subset.trans (by decide) hw) ?_
    | with_reducible refine OnlyChanges.snd_of (by with_reducible assumption) ?_
    | with_reducible refine OnlyChanges.thd_of (by with_reducible assumption) ?_
    | intro _
    | split
    | dsimp only

theorem State.counterStart_only {s : State} (n : Nat) (hw : [.regs, .shad, .mem, .out, .dram, .edac, .chans, .bufs, .plots, .cache, .display, .faults, .queues, .jobs, .msiPending, .pair] ⊆ pcs) (hs : OnlyChanges s0 s pcs) :
    OnlyChanges s0 (State.counterStart s n) pcs := by
  unfold State.counterStart
  repeat' first
    | with_reducible assumption
    | with_reducible apply foldl_only
    | with_reducible refine State.setFld_only _ _ _ _ (List.Subset.trans (by decide) hw) ?_
    | with_reducible refine State.setDisp_only _ _ (List.Subset.trans (by decide) hw) ?_
    | with_reducible refine State.loadSheets_only _ (List.Subset.trans (by decide) hw) ?_
    | with_reducible refine State.latchPoint_only _ _ _ (List.Subset.trans (by decide) hw) ?_
    | with_reducible refine OnlyChanges.snd_of (by with_reducible assumption) ?_
    | with_reducible refine OnlyChanges.thd_of (by with_reducible assumption) ?_
    | intro _
    | split
    | dsimp only

theorem State.stopNow_only {s : State} (n : Nat) (hw : [.regs, .shad, .mem, .out, .dram, .edac, .chans, .bufs, .plots, .cache, .display, .dpls, .faults, .queues, .jobs, .msiPending, .pair] ⊆ pcs) (hs : OnlyChanges s0 s pcs) :
    OnlyChanges s0 (State.stopNow s n) pcs := by
  unfold State.stopNow
  repeat' first
    | with_reducible assumption
    | with_reducible apply foldl_only
    | with_reducible refine State.setDisp_only _ _ (List.Subset.trans (by decide) hw) ?_
    | with_reducible refine State.outputStopped_only _ (List.Subset.trans (by decide) hw) ?_
    | with_reducible refine State.dropFollowers_only _ (List.Subset.trans (by decide) hw) ?_
    | with_reducible refine State.videoStop_only _ (List.Subset.trans (by decide) hw) ?_
    | with_reducible refine State.beginStart_only _ (List.Subset.trans (by decide) hw) ?_
    | with_reducible refine OnlyChanges.snd_of (by with_reducible assumption) ?_
    | with_reducible refine OnlyChanges.thd_of (by with_reducible assumption) ?_
    | intro _
    | split
    | dsimp only

theorem State.standStill_only {s : State} (n : Nat) (hw : [.power, .display] ⊆ pcs) (hs : OnlyChanges s0 s pcs) :
    OnlyChanges s0 (State.standStill s n) pcs := by
  unfold State.standStill
  repeat' first
    | with_reducible assumption
    | with_reducible apply foldl_only
    | with_reducible refine State.setDisp_only _ _ (List.Subset.trans (by decide) hw) ?_
    | with_reducible refine State.dropRan_only _ (List.Subset.trans (by decide) hw) ?_
    | with_reducible refine OnlyChanges.snd_of (by with_reducible assumption) ?_
    | with_reducible refine OnlyChanges.thd_of (by with_reducible assumption) ?_
    | intro _
    | split
    | dsimp only

theorem State.scanStop_only (a : RegAcc) (n : Nat) {s : State} (hw : [.regs, .shad, .mem, .out, .power, .dram, .edac, .chans, .bufs, .plots, .cache, .display, .dpls, .faults, .queues, .jobs, .msiPending, .pair] ⊆ pcs) (hs : OnlyChanges s0 s pcs) :
    OnlyChanges s0 (State.scanStop a n s) pcs := by
  unfold State.scanStop
  repeat' first
    | with_reducible assumption
    | with_reducible apply foldl_only
    | with_reducible refine State.setFld_only _ _ _ _ (List.Subset.trans (by decide) hw) ?_
    | with_reducible refine State.mirrorWrite_only _ _ _ (List.Subset.trans (by decide) hw) ?_
    | with_reducible refine State.setDisp_only _ _ (List.Subset.trans (by decide) hw) ?_
    | with_reducible refine State.stopNow_only _ (List.Subset.trans (by decide) hw) ?_
    | with_reducible refine State.standStill_only _ (List.Subset.trans (by decide) hw) ?_
    | with_reducible refine OnlyChanges.snd_of (by with_reducible assumption) ?_
    | with_reducible refine OnlyChanges.thd_of (by with_reducible assumption) ?_
    | intro _
    | split
    | dsimp only

theorem State.scnEnable_only (a : RegAcc) (on : Bool) {s : State} (hw : [.regs, .shad, .mem, .out, .power, .dram, .edac, .chans, .bufs, .plots, .cache, .display, .dpls, .faults, .queues, .jobs, .msiPending, .pair] ⊆ pcs) (hs : OnlyChanges s0 s pcs) :
    OnlyChanges s0 (State.scnEnable a on s) pcs := by
  unfold State.scnEnable
  repeat' first
    | with_reducible assumption
    | with_reducible apply foldl_only
    | with_reducible refine State.scanStart_only _ _ (List.Subset.trans (by decide) hw) ?_
    | with_reducible refine State.scanStop_only _ _ (List.Subset.trans (by decide) hw) ?_
    | with_reducible refine OnlyChanges.snd_of (by with_reducible assumption) ?_
    | with_reducible refine OnlyChanges.thd_of (by with_reducible assumption) ?_
    | intro _
    | split
    | dsimp only

theorem State.followOut_only {s : State} (n : Nat) (hw : [.regs, .pair] ⊆ pcs) (hs : OnlyChanges s0 s pcs) :
    OnlyChanges s0 (State.followOut s n) pcs := by
  unfold State.followOut
  repeat' first
    | with_reducible assumption
    | with_reducible apply foldl_only
    | with_reducible refine State.setRw_only _ _ (List.Subset.trans (by decide) hw) ?_
    | with_reducible refine OnlyChanges.snd_of (by with_reducible assumption) ?_
    | with_reducible refine OnlyChanges.thd_of (by with_reducible assumption) ?_
    | intro _
    | split
    | dsimp only
    | with_reducible refine OnlyChanges.of_mk ?_ rfl rfl

theorem State.scnReset_only (a : RegAcc) {s : State} (hw : [.regs, .shad, .mem, .out, .power, .dram, .edac, .chans, .bufs, .plots, .cache, .display, .dpls, .faults, .queues, .jobs, .msiPending, .pair] ⊆ pcs) (hs : OnlyChanges s0 s pcs) :
    OnlyChanges s0 (State.scnReset a s) pcs := by
  unfold State.scnReset
  repeat' first
    | with_reducible assumption
    | with_reducible apply foldl_only
    | with_reducible refine State.mirrorWrite_only _ _ _ (List.Subset.trans (by decide) hw) ?_
    | with_reducible refine State.settleCredit_only  (List.Subset.trans (by decide) hw) ?_
    | with_reducible refine State.resetPage_only _ _ (List.Subset.trans (by decide) hw) ?_
    | with_reducible refine State.stopNow_only _ (List.Subset.trans (by decide) hw) ?_
    | with_reducible refine State.standStill_only _ (List.Subset.trans (by decide) hw) ?_
    | with_reducible refine State.followOut_only _ (List.Subset.trans (by decide) hw) ?_
    | with_reducible refine OnlyChanges.snd_of (by with_reducible assumption) ?_
    | with_reducible refine OnlyChanges.thd_of (by with_reducible assumption) ?_
    | intro _
    | split
    | dsimp only

theorem State.tableEntry_only {s t : State} {a : RegAcc} {k : Nat} (e : State.tableEntry s a = some (k, t)) (hw : [.regs] ⊆ pcs) (hs : OnlyChanges s0 s pcs) :
    OnlyChanges s0 t pcs := by
  unfold State.tableEntry at e
  split at e
  · dsimp only at e
    split at e
    · simp only [Option.some.injEq, Prod.mk.injEq] at e
      obtain ⟨-, rfl⟩ := e
      exact State.setFld_only _ _ _ _ hw hs
    · split at e
      · simp only [Option.some.injEq, Prod.mk.injEq] at e
        obtain ⟨-, rfl⟩ := e
        split
        · exact State.setFld_only _ _ _ _ hw (State.setFld_only _ _ _ _ hw hs)
        · exact State.setFld_only _ _ _ _ hw hs
      · simp at e
  · dsimp only at e
    split at e
    · simp only [Option.some.injEq, Prod.mk.injEq] at e
      obtain ⟨-, rfl⟩ := e
      exact State.setFld_only _ _ _ _ hw hs
    · simp at e
  · simp at e

theorem State.tableWrite_only (a : RegAcc) {s : State} (hw : [.regs, .shad, .out, .msiPending] ⊆ pcs) (hs : OnlyChanges s0 s pcs) :
    OnlyChanges s0 (State.tableWrite a s) pcs := by
  unfold State.tableWrite
  repeat' first
    | with_reducible refine State.tableEntry_only (by with_reducible assumption) (List.Subset.trans (by decide) hw) ?_
    | with_reducible assumption
    | with_reducible apply foldl_only
    | with_reducible refine State.setSw_only _ _ (List.Subset.trans (by decide) hw) ?_
    | with_reducible refine State.recRefused_only _ (List.Subset.trans (by decide) hw) ?_
    | with_reducible refine OnlyChanges.snd_of (by with_reducible assumption) ?_
    | with_reducible refine OnlyChanges.thd_of (by with_reducible assumption) ?_
    | intro _
    | split
    | dsimp only

theorem State.tableRead_only (a : RegAcc) {s : State} (hw : [.regs, .out] ⊆ pcs) (hs : OnlyChanges s0 s pcs) :
    OnlyChanges s0 (State.tableRead a s) pcs := by
  unfold State.tableRead
  repeat' first
    | with_reducible refine State.tableEntry_only (by with_reducible assumption) (List.Subset.trans (by decide) hw) ?_
    | with_reducible assumption
    | with_reducible apply foldl_only
    | with_reducible refine State.answerRead_only _ _ (List.Subset.trans (by decide) hw) ?_
    | with_reducible refine OnlyChanges.snd_of (by with_reducible assumption) ?_
    | with_reducible refine OnlyChanges.thd_of (by with_reducible assumption) ?_
    | intro _
    | split
    | dsimp only

theorem State.tableAccess_only (w : RegWr) (isRead : Bool) (here : RegAcc → Bool) {s : State} (hw : [.regs, .shad, .out, .worlds, .msiPending] ⊆ pcs) (hs : OnlyChanges s0 s pcs) :
    OnlyChanges s0 (State.tableAccess w isRead here s) pcs := by
  unfold State.tableAccess
  repeat' first
    | with_reducible assumption
    | with_reducible apply foldl_only
    | with_reducible refine State.accessAt_only _ _ _ (List.Subset.trans (by decide) hw) ?_ ?_
    | with_reducible refine State.accessRead_only _ _ (List.Subset.trans (by decide) hw) ?_ ?_
    | with_reducible refine State.tableWrite_only _ (List.Subset.trans (by decide) hw) ?_
    | with_reducible refine State.tableRead_only _ (List.Subset.trans (by decide) hw) ?_
    | with_reducible refine OnlyChanges.snd_of (by with_reducible assumption) ?_
    | with_reducible refine OnlyChanges.thd_of (by with_reducible assumption) ?_
    | intro _
    | split
    | dsimp only

theorem State.lutAddrWrite_only (a : RegAcc) {s : State} (hw : [.regs, .shad, .out, .msiPending, .pair] ⊆ pcs) (hs : OnlyChanges s0 s pcs) :
    OnlyChanges s0 (State.lutAddrWrite a s) pcs := by
  unfold State.lutAddrWrite
  repeat' first
    | with_reducible assumption
    | with_reducible apply foldl_only
    | with_reducible refine State.refuse_only _ _ (List.Subset.trans (by decide) hw) ?_
    | with_reducible refine State.plainWrite_only _ _ (List.Subset.trans (by decide) hw) ?_
    | with_reducible refine State.mirrorWrite_only _ _ _ (List.Subset.trans (by decide) hw) ?_
    | with_reducible refine OnlyChanges.snd_of (by with_reducible assumption) ?_
    | with_reducible refine OnlyChanges.thd_of (by with_reducible assumption) ?_
    | intro _
    | split
    | dsimp only

end Sys2Proof.Machine
end

