-- ==== Sys2Proof/Laws/FrameCheck.lean ====
section
/-! SUPPORT. What every operation of Machine/Check.lean leaves alone. -/

namespace Sys2Proof.Machine

set_option Elab.async false
set_option linter.all false

variable {s0 : State} {pcs : List Piece}

theorem State.setCvu_only {s : State} (n : Nat) (e : CvuEngine) (hw : [.cvus] ⊆ pcs) (hs : OnlyChanges s0 s pcs) :
    OnlyChanges s0 (State.setCvu s n e) pcs := by
  unfold State.setCvu
  repeat' first
    | with_reducible assumption
    | with_reducible apply foldl_only
    | with_reducible refine OnlyChanges.snd_of (by with_reducible assumption) ?_
    | with_reducible refine OnlyChanges.thd_of (by with_reducible assumption) ?_
    | intro _
    | split
    | dsimp only
    | with_reducible refine OnlyChanges.of_mk ?_ rfl rfl

theorem State.cvuStat_only {s : State} (n : Nat) (hw : [.regs] ⊆ pcs) (hs : OnlyChanges s0 s pcs) :
    OnlyChanges s0 (State.cvuStat s n) pcs := by
  unfold State.cvuStat
  repeat' first
    | with_reducible assumption
    | with_reducible apply foldl_only
    | with_reducible refine State.setFld_only _ _ _ _ (List.Subset.trans (by decide) hw) ?_
    | with_reducible refine OnlyChanges.snd_of (by with_reducible assumption) ?_
    | with_reducible refine OnlyChanges.thd_of (by with_reducible assumption) ?_
    | intro _
    | split
    | dsimp only

theorem State.putEntry_only {s : State} (c : CvuCmd) (i : Nat) (v : Nat) (hw : [.regs, .mem, .out, .edac, .bufs, .cache, .faults, .msiPending, .pair] ⊆ pcs) (hs : OnlyChanges s0 s pcs) :
    OnlyChanges s0 (State.putEntry s c i v).2 pcs := by
  unfold State.putEntry
  repeat' first
    | with_reducible assumption
    | with_reducible apply foldl_only
    | with_reducible refine State.pmcCount_only _ _ _ _ _ (List.Subset.trans (by decide) hw) ?_
    | with_reducible refine State.pokeBytes_only _ _ _ (List.Subset.trans (by decide) hw) ?_
    | with_reducible refine State.guardDram_only _ _ _ (List.Subset.trans (by decide) hw) ?_
    | with_reducible refine State.mirrorWords_only _ _ _ _ _ (List.Subset.trans (by decide) hw) ?_
    | with_reducible refine OnlyChanges.snd_of (by with_reducible assumption) ?_
    | with_reducible refine OnlyChanges.thd_of (by with_reducible assumption) ?_
    | intro _
    | split
    | dsimp only

theorem State.scanWords_only {s : State} (n : Nat) (c : CvuCmd) (x3 : Nat) (x4 : State.Scanning) (hw : [.regs, .mem, .out, .edac, .bufs, .cache, .faults, .msiPending, .pair] ⊆ pcs) (hs : OnlyChanges s0 s pcs) :
    OnlyChanges s0 (State.scanWords s n c x3 x4).2.2 pcs := by
  induction x3 generalizing s n c x4 with
  | zero =>
    unfold State.scanWords
    repeat' first
      | with_reducible assumption
      | with_reducible apply foldl_only
      | with_reducible refine State.addCnt_only _ _ _ _ _ (List.Subset.trans (by decide) hw) ?_
      | with_reducible refine State.event_only _ _ (List.Subset.trans (by decide) hw) ?_
      | with_reducible refine State.readWordAs_only _ _ (List.Subset.trans (by decide) hw) ?_
      | with_reducible refine State.putEntry_only _ _ _ (List.Subset.trans (by decide) hw) ?_
      | with_reducible refine OnlyChanges.snd_of (by with_reducible assumption) ?_
      | with_reducible refine OnlyChanges.thd_of (by with_reducible assumption) ?_
      | intro _
      | split
      | dsimp only
  | succ _ ih =>
    unfold State.scanWords
    repeat' first
      | with_reducible assumption
      | with_reducible apply ih
      | with_reducible apply foldl_only
      | with_reducible refine State.addCnt_only _ _ _ _ _ (List.Subset.trans (by decide) hw) ?_
      | with_reducible refine State.event_only _ _ (List.Subset.trans (by decide) hw) ?_
      | with_reducible refine State.readWordAs_only _ _ (List.Subset.trans (by decide) hw) ?_
      | with_reducible refine State.putEntry_only _ _ _ (List.Subset.trans (by decide) hw) ?_
      | with_reducible refine OnlyChanges.snd_of (by with_reducible assumption) ?_
      | with_reducible refine OnlyChanges.thd_of (by with_reducible assumption) ?_
      | intro _
      | split
      | dsimp only

theorem State.scanUnfence_only {s : State} (c : CvuCmd) (hw : [.regs, .mem, .out, .chans, .bufs, .plots, .cache, .queues, .jobs, .msiPending, .pair] ⊆ pcs) (hs : OnlyChanges s0 s pcs) :
    OnlyChanges s0 (State.scanUnfence s c) pcs := by
  unfold State.scanUnfence
  repeat' first
    | with_reducible assumption
    | with_reducible apply foldl_only
    | with_reducible refine State.unfence_only _ (List.Subset.trans (by decide) hw) ?_
    | with_reducible refine OnlyChanges.snd_of (by with_reducible assumption) ?_
    | with_reducible refine OnlyChanges.thd_of (by with_reducible assumption) ?_
    | intro _
    | split
    | dsimp only

theorem State.scanDone_only {s : State} (n : Nat) (slot : Nat) (hw : [.regs, .mem, .out, .edac, .chans, .bufs, .plots, .cache, .cvus, .faults, .queues, .jobs, .msiPending, .pair] ⊆ pcs) (hs : OnlyChanges s0 s pcs) :
    OnlyChanges s0 (State.scanDone s n slot) pcs := by
  unfold State.scanDone
  repeat' first
    | with_reducible assumption
    | with_reducible apply foldl_only
    | with_reducible refine State.addFld_only _ _ _ _ (List.Subset.trans (by decide) hw) ?_
    | with_reducible refine State.complete_only _ _ _ (List.Subset.trans (by decide) hw) ?_
    | with_reducible refine State.setCvu_only _ _ (List.Subset.trans (by decide) hw) ?_
    | with_reducible refine State.cvuStat_only _ (List.Subset.trans (by decide) hw) ?_
    | with_reducible refine State.scanWords_only _ _ _ _ (List.Subset.trans (by decide) hw) ?_
    | with_reducible refine State.scanUnfence_only _ (List.Subset.trans (by decide) hw) ?_
    | with_reducible refine OnlyChanges.snd_of (by with_reducible assumption) ?_
    | with_reducible refine OnlyChanges.thd_of (by with_reducible assumption) ?_
    | intro _
    | split
    | dsimp only

theorem State.scanStartCmd_only {s : State} (n : Nat) (slot : Nat) (hw : [.regs, .cvus, .arbiter] ⊆ pcs) (hs : OnlyChanges s0 s pcs) :
    OnlyChanges s0 (State.scanStartCmd s n slot) pcs := by
  unfold State.scanStartCmd
  repeat' first
    | with_reducible assumption
    | with_reducible apply foldl_only
    | with_reducible refine State.pickFn_only _ _ (List.Subset.trans (by decide) hw) ?_
    | with_reducible refine State.served_only _ _ (List.Subset.trans (by decide) hw) ?_
    | with_reducible refine State.setCvu_only _ _ (List.Subset.trans (by decide) hw) ?_
    | with_reducible refine State.cvuStat_only _ (List.Subset.trans (by decide) hw) ?_
    | with_reducible refine OnlyChanges.snd_of (by with_reducible assumption) ?_
    | with_reducible refine OnlyChanges.thd_of (by with_reducible assumption) ?_
    | intro _
    | split
    | dsimp only

theorem State.cvuSquash_only {s : State} (n : Nat) (which : CvuCmd → Bool) (abort : Bool) (hw : [.regs, .mem, .out, .chans, .bufs, .plots, .cache, .cvus, .queues, .jobs, .msiPending, .pair] ⊆ pcs) (hs : OnlyChanges s0 s pcs) :
    OnlyChanges s0 (State.cvuSquash s n which abort) pcs := by
  unfold State.cvuSquash
  repeat' first
    | with_reducible assumption
    | with_reducible apply foldl_only
    | with_reducible refine State.event_only _ _ (List.Subset.trans (by decide) hw) ?_
    | with_reducible refine State.complete_only _ _ _ (List.Subset.trans (by decide) hw) ?_
    | with_reducible refine State.setCvu_only _ _ (List.Subset.trans (by decide) hw) ?_
    | with_reducible refine State.cvuStat_only _ (List.Subset.trans (by decide) hw) ?_
    | with_reducible refine State.scanUnfence_only _ (List.Subset.trans (by decide) hw) ?_
    | with_reducible refine OnlyChanges.snd_of (by with_reducible assumption) ?_
    | with_reducible refine OnlyChanges.thd_of (by with_reducible assumption) ?_
    | intro _
    | split
    | dsimp only

theorem State.scanFence_only {s : State} (c : CvuCmd) (hw : [.bufs] ⊆ pcs) (hs : OnlyChanges s0 s pcs) :
    OnlyChanges s0 (State.scanFence s c) pcs := by
  unfold State.scanFence
  repeat' first
    | with_reducible assumption
    | with_reducible apply foldl_only
    | with_reducible refine State.fence_only _ (List.Subset.trans (by decide) hw) ?_
    | with_reducible refine OnlyChanges.snd_of (by with_reducible assumption) ?_
    | with_reducible refine OnlyChanges.thd_of (by with_reducible assumption) ?_
    | intro _
    | split
    | dsimp only

theorem State.carryScan_only (j : Job) {s : State} (hw : [.regs, .out, .bufs, .cvus, .queues, .jobs, .msiPending] ⊆ pcs) (hs : OnlyChanges s0 s pcs) :
    OnlyChanges s0 (State.carryScan j s) pcs := by
  unfold State.carryScan
  repeat' first
    | with_reducible assumption
    | with_reducible apply foldl_only
    | with_reducible refine State.complete_only _ _ _ (List.Subset.trans (by decide) hw) ?_
    | with_reducible refine State.setCvu_only _ _ (List.Subset.trans (by decide) hw) ?_
    | with_reducible refine State.cvuStat_only _ (List.Subset.trans (by decide) hw) ?_
    | with_reducible refine State.scanFence_only _ (List.Subset.trans (by decide) hw) ?_
    | with_reducible refine OnlyChanges.snd_of (by with_reducible assumption) ?_
    | with_reducible refine OnlyChanges.thd_of (by with_reducible assumption) ?_
    | intro _
    | split
    | dsimp only

theorem State.cvuCtrlWrite_only (a : RegAcc) {s : State} (hw : [.regs, .shad, .out, .msiPending] ⊆ pcs) (hs : OnlyChanges s0 s pcs) :
    OnlyChanges s0 (State.cvuCtrlWrite a s) pcs := by
  unfold State.cvuCtrlWrite
  repeat' first
    | with_reducible assumption
    | with_reducible apply foldl_only
    | with_reducible refine State.recAcc_only _ _ (List.Subset.trans (by decide) hw) ?_
    | with_reducible refine State.plainWrite_only _ _ (List.Subset.trans (by decide) hw) ?_
    | with_reducible refine OnlyChanges.snd_of (by with_reducible assumption) ?_
    | with_reducible refine OnlyChanges.thd_of (by with_reducible assumption) ?_
    | intro _
    | split
    | dsimp only

theorem State.regionFinal_only {s : State} (n j : Nat) (hw : [.regs, .out, .display, .faults, .msiPending] ⊆ pcs) (hs : OnlyChanges s0 s pcs) :
    OnlyChanges s0 (State.regionFinal s n j) pcs := by
  unfold State.regionFinal
  extract_lets d v f y h seq ws val compare same result s1 s2 old limit s3 s4 s5 done acted dd s6
  have h2 : OnlyChanges s0 s2 pcs := State.setFld_only _ _ _ _ (List.Subset.trans (by decide) hw) (State.setFld_only _ _ _ _ (List.Subset.trans (by decide) hw) (State.setFld_only _ _ _ _ (List.Subset.trans (by decide) hw) (State.setDisp_only _ _ (List.Subset.trans (by decide) hw) hs)))
  have h3 : OnlyChanges s0 s3 pcs := State.satFld_only _ _ _ _ (List.Subset.trans (by decide) hw) (State.satFld_only _ _ _ _ (List.Subset.trans (by decide) hw) h2)
  have h4 : OnlyChanges s0 s4 pcs := by
    show OnlyChanges s0 (if old = 0 then _ else _) pcs
    split
    · exact State.setFld_only _ _ _ _ (List.Subset.trans (by decide) hw) h3
    · exact h3
  have h5 : OnlyChanges s0 s5 pcs := State.recErr_only _ _ _ (List.Subset.trans (by decide) hw) (State.event_only _ _ (List.Subset.trans (by decide) hw) (State.chkEvent_only _ _ _ (List.Subset.trans (by decide) hw) h4))
  have h6 : OnlyChanges s0 s6 pcs := State.chkEvent_only _ _ _ (List.Subset.trans (by decide) hw) (OnlyChanges.of_mk (h5) rfl rfl)
  split
  · exact hs
  · split
    · exact h2
    · split
      · exact State.setFld_only _ _ _ _ (List.Subset.trans (by decide) hw) (State.satFld_only _ _ _ _ (List.Subset.trans (by decide) hw) h2)
      · split
        · split
          · exact h6
          · exact State.containOutput_only _ _ _ _ _ (List.Subset.trans (by decide) hw) h6
        · split
          · exact h5
          · exact OnlyChanges.of_mk (h5) rfl rfl

end Sys2Proof.Machine
end

