-- ==== Sys2Proof/Laws/FramePair.lean ====
section
/-! SUPPORT. What every operation of Machine/Pair.lean leaves alone. -/

namespace Sys2Proof.Machine

set_option Elab.async false
set_option linter.all false

variable {s0 : State} {pcs : List Piece}

theorem State.pairDisagree_only {s : State} (reason : Nat) (out : Nat) (plot : Nat) (hw : [.regs, .out, .msiPending, .pair] ⊆ pcs) (hs : OnlyChanges s0 s pcs) :
    OnlyChanges s0 (State.pairDisagree s reason out plot) pcs := by
  unfold State.pairDisagree
  repeat' first
    | with_reducible assumption
    | with_reducible apply foldl_only
    | with_reducible refine State.event_only _ _ (List.Subset.trans (by decide) hw) ?_
    | with_reducible refine State.recErr_only _ _ _ (List.Subset.trans (by decide) hw) ?_
    | with_reducible refine OnlyChanges.snd_of (by with_reducible assumption) ?_
    | with_reducible refine OnlyChanges.thd_of (by with_reducible assumption) ?_
    | intro _
    | split
    | dsimp only
    | with_reducible refine OnlyChanges.of_mk ?_ rfl rfl

theorem State.enterPair_only {s : State} (st : PairState) (hw : [.regs, .out, .msiPending, .pair] ⊆ pcs) (hs : OnlyChanges s0 s pcs) :
    OnlyChanges s0 (State.enterPair s st) pcs := by
  unfold State.enterPair
  repeat' first
    | with_reducible assumption
    | with_reducible apply foldl_only
    | with_reducible refine State.event_only _ _ (List.Subset.trans (by decide) hw) ?_
    | with_reducible refine OnlyChanges.snd_of (by with_reducible assumption) ?_
    | with_reducible refine OnlyChanges.thd_of (by with_reducible assumption) ?_
    | intro _
    | split
    | dsimp only
    | with_reducible refine OnlyChanges.of_mk ?_ rfl rfl

theorem State.takeToken_only {s : State} (hw : [.regs, .pair] ⊆ pcs) (hs : OnlyChanges s0 s pcs) :
    OnlyChanges s0 (State.takeToken s) pcs := by
  unfold State.takeToken
  repeat' first
    | with_reducible assumption
    | with_reducible apply foldl_only
    | with_reducible refine State.satFld_only _ _ _ _ (List.Subset.trans (by decide) hw) ?_
    | with_reducible refine OnlyChanges.snd_of (by with_reducible assumption) ?_
    | with_reducible refine OnlyChanges.thd_of (by with_reducible assumption) ?_
    | intro _
    | split
    | dsimp only
    | with_reducible refine OnlyChanges.of_mk ?_ rfl rfl

theorem State.askJoin_only {s : State} (hw : [.regs, .out, .pair] ⊆ pcs) (hs : OnlyChanges s0 s pcs) :
    OnlyChanges s0 (State.askJoin s) pcs := by
  unfold State.askJoin
  repeat' first
    | with_reducible assumption
    | with_reducible apply foldl_only
    | with_reducible refine State.sendFlit_only _ _ (List.Subset.trans (by decide) hw) ?_
    | with_reducible refine OnlyChanges.snd_of (by with_reducible assumption) ?_
    | with_reducible refine OnlyChanges.thd_of (by with_reducible assumption) ?_
    | intro _
    | split
    | dsimp only

theorem State.enterDetached_only {s : State} (hw : [.regs, .out, .msiPending, .pair] ⊆ pcs) (hs : OnlyChanges s0 s pcs) :
    OnlyChanges s0 (State.enterDetached s) pcs := by
  unfold State.enterDetached
  repeat' first
    | with_reducible assumption
    | with_reducible apply foldl_only
    | with_reducible refine State.enterPair_only _ (List.Subset.trans (by decide) hw) ?_
    | with_reducible refine State.askJoin_only  (List.Subset.trans (by decide) hw) ?_
    | with_reducible refine OnlyChanges.snd_of (by with_reducible assumption) ?_
    | with_reducible refine OnlyChanges.thd_of (by with_reducible assumption) ?_
    | intro _
    | split
    | dsimp only

theorem State.followPartner_only {s : State} (hw : [.regs, .pair] ⊆ pcs) (hs : OnlyChanges s0 s pcs) :
    OnlyChanges s0 (State.followPartner s) pcs := by
  unfold State.followPartner
  repeat' first
    | with_reducible assumption
    | with_reducible apply foldl_only
    | with_reducible refine State.followOut_only _ (List.Subset.trans (by decide) hw) ?_
    | with_reducible refine OnlyChanges.snd_of (by with_reducible assumption) ?_
    | with_reducible refine OnlyChanges.thd_of (by with_reducible assumption) ?_
    | intro _
    | split
    | dsimp only

theorem State.unfollow_only {s : State} (hw : [.regs, .pair] ⊆ pcs) (hs : OnlyChanges s0 s pcs) :
    OnlyChanges s0 (State.unfollow s) pcs := by
  unfold State.unfollow
  repeat' first
    | with_reducible assumption
    | with_reducible apply foldl_only
    | with_reducible refine State.setRw_only _ _ (List.Subset.trans (by decide) hw) ?_
    | with_reducible refine OnlyChanges.snd_of (by with_reducible assumption) ?_
    | with_reducible refine OnlyChanges.thd_of (by with_reducible assumption) ?_
    | intro _
    | split
    | dsimp only
    | with_reducible refine OnlyChanges.of_mk ?_ rfl rfl

theorem State.startRole_only {s : State} (snap : Bool) (hw : [.regs, .mem, .out, .free, .chans, .bufs, .plots, .cache, .touch, .haptic, .audio, .queues, .jobs, .msiPending, .pair] ⊆ pcs) (hs : OnlyChanges s0 s pcs) :
    OnlyChanges s0 (State.startRole s snap) pcs := by
  unfold State.startRole
  repeat' first
    | with_reducible assumption
    | with_reducible apply foldl_only
    | with_reducible refine State.setFld_only _ _ _ _ (List.Subset.trans (by decide) hw) ?_
    | with_reducible refine State.touchActivate_only _ (List.Subset.trans (by decide) hw) ?_
    | with_reducible refine State.hapSilence_only  (List.Subset.trans (by decide) hw) ?_
    | with_reducible refine State.audTakeover_only  (List.Subset.trans (by decide) hw) ?_
    | with_reducible refine State.unfollow_only  (List.Subset.trans (by decide) hw) ?_
    | with_reducible refine OnlyChanges.snd_of (by with_reducible assumption) ?_
    | with_reducible refine OnlyChanges.thd_of (by with_reducible assumption) ?_
    | intro _
    | split
    | dsimp only

theorem State.stopStreams_only {s : State} (hw : [.regs, .mem, .out, .free, .chans, .bufs, .plots, .cache, .audio, .queues, .jobs, .msiPending, .pair] ⊆ pcs) (hs : OnlyChanges s0 s pcs) :
    OnlyChanges s0 (State.stopStreams s) pcs := by
  unfold State.stopStreams
  repeat' first
    | with_reducible assumption
    | with_reducible apply foldl_only
    | with_reducible refine State.setStream_only _ _ (List.Subset.trans (by decide) hw) ?_
    | with_reducible refine State.releaseRegions_only _ _ (List.Subset.trans (by decide) hw) ?_
    | with_reducible refine OnlyChanges.snd_of (by with_reducible assumption) ?_
    | with_reducible refine OnlyChanges.thd_of (by with_reducible assumption) ?_
    | intro _
    | split
    | dsimp only

theorem State.keepFreeing_only {s : State} (i : Nat) (hw : [.bufs, .pair] ⊆ pcs) (hs : OnlyChanges s0 s pcs) :
    OnlyChanges s0 (State.keepFreeing s i) pcs := by
  unfold State.keepFreeing
  repeat' first
    | with_reducible assumption
    | with_reducible apply foldl_only
    | with_reducible refine State.setBuf_only _ _ (List.Subset.trans (by decide) hw) ?_
    | with_reducible refine OnlyChanges.snd_of (by with_reducible assumption) ?_
    | with_reducible refine OnlyChanges.thd_of (by with_reducible assumption) ?_
    | intro _
    | split
    | dsimp only
    | with_reducible refine OnlyChanges.of_mk ?_ rfl rfl

theorem State.keepEnding_only {s : State} (hw : [.bufs, .pair] ⊆ pcs) (hs : OnlyChanges s0 s pcs) :
    OnlyChanges s0 (State.keepEnding s) pcs := by
  unfold State.keepEnding
  repeat' first
    | with_reducible assumption
    | with_reducible apply foldl_only
    | with_reducible refine State.keepFreeing_only _ (List.Subset.trans (by decide) hw) ?_
    | with_reducible refine OnlyChanges.snd_of (by with_reducible assumption) ?_
    | with_reducible refine OnlyChanges.thd_of (by with_reducible assumption) ?_
    | intro _
    | split
    | dsimp only
    | with_reducible refine OnlyChanges.of_mk ?_ rfl rfl

theorem State.abandonJob_only {s : State} (jid : Nat) (hw : [.out, .queues, .jobs, .msiPending] ⊆ pcs) (hs : OnlyChanges s0 s pcs) :
    OnlyChanges s0 (State.abandonJob s jid) pcs := by
  unfold State.abandonJob
  repeat' first
    | with_reducible assumption
    | with_reducible apply foldl_only
    | with_reducible refine State.dropJob_only _ (List.Subset.trans (by decide) hw) ?_
    | with_reducible refine State.complete_only _ _ _ (List.Subset.trans (by decide) hw) ?_
    | with_reducible refine OnlyChanges.snd_of (by with_reducible assumption) ?_
    | with_reducible refine OnlyChanges.thd_of (by with_reducible assumption) ?_
    | intro _
    | split
    | dsimp only

theorem State.abandonOps_only {s : State} (hw : [.out, .chans, .bufs, .queues, .jobs, .msiPending] ⊆ pcs) (hs : OnlyChanges s0 s pcs) :
    OnlyChanges s0 (State.abandonOps s) pcs := by
  unfold State.abandonOps
  repeat' first
    | with_reducible assumption
    | with_reducible apply foldl_only
    | with_reducible refine State.abandonJob_only _ (List.Subset.trans (by decide) hw) ?_
    | with_reducible refine OnlyChanges.snd_of (by with_reducible assumption) ?_
    | with_reducible refine OnlyChanges.thd_of (by with_reducible assumption) ?_
    | intro _
    | split
    | dsimp only
    | with_reducible refine OnlyChanges.of_mk ?_ rfl rfl

theorem State.sendDrop_only {s : State} (c : Commit) (hw : [.regs, .out, .pair] ⊆ pcs) (hs : OnlyChanges s0 s pcs) :
    OnlyChanges s0 (State.sendDrop s c) pcs := by
  unfold State.sendDrop
  repeat' first
    | with_reducible assumption
    | with_reducible apply foldl_only
    | with_reducible refine State.sendFlit_only _ _ (List.Subset.trans (by decide) hw) ?_
    | with_reducible refine OnlyChanges.snd_of (by with_reducible assumption) ?_
    | with_reducible refine OnlyChanges.thd_of (by with_reducible assumption) ?_
    | intro _
    | split
    | dsimp only
    | with_reducible refine OnlyChanges.of_mk ?_ rfl rfl

theorem State.endGuestWork_only {s : State} (hw : [.regs, .mem, .out, .chans, .bufs, .plots, .cache, .ingest, .display, .cvus, .queues, .jobs, .msiPending, .pair] ⊆ pcs) (hs : OnlyChanges s0 s pcs) :
    OnlyChanges s0 (State.endGuestWork s) pcs := by
  unfold State.endGuestWork
  repeat' first
    | with_reducible assumption
    | with_reducible apply foldl_only
    | with_reducible refine State.abandonAll_only _ (List.Subset.trans (by decide) hw) ?_
    | with_reducible refine State.itemEnded_only _ (List.Subset.trans (by decide) hw) ?_
    | with_reducible refine State.ingSquash_only _ _ _ (List.Subset.trans (by decide) hw) ?_
    | with_reducible refine State.cvuSquash_only _ _ _ (List.Subset.trans (by decide) hw) ?_
    | with_reducible refine State.abandonOps_only  (List.Subset.trans (by decide) hw) ?_
    | with_reducible refine State.sendDrop_only _ (List.Subset.trans (by decide) hw) ?_
    | with_reducible refine OnlyChanges.snd_of (by with_reducible assumption) ?_
    | with_reducible refine OnlyChanges.thd_of (by with_reducible assumption) ?_
    | intro _
    | split
    | dsimp only
    | with_reducible refine OnlyChanges.of_mk ?_ rfl rfl

theorem State.leaveRole_only {s : State} (st : PairState) (hw : [.regs, .mem, .out, .free, .edac, .chans, .bufs, .plots, .cache, .ingest, .display, .dpls, .cvus, .touch, .haptic, .audio, .faults, .queues, .jobs, .msiPending, .pair] ⊆ pcs) (hs : OnlyChanges s0 s pcs) :
    OnlyChanges s0 (State.leaveRole s st) pcs := by
  unfold State.leaveRole
  repeat' first
    | with_reducible assumption
    | with_reducible apply foldl_only
    | with_reducible refine State.dplLeave_only  (List.Subset.trans (by decide) hw) ?_
    | with_reducible refine State.touchLeave_only  (List.Subset.trans (by decide) hw) ?_
    | with_reducible refine State.hapSilence_only  (List.Subset.trans (by decide) hw) ?_
    | with_reducible refine State.enterPair_only _ (List.Subset.trans (by decide) hw) ?_
    | with_reducible refine State.followPartner_only  (List.Subset.trans (by decide) hw) ?_
    | with_reducible refine State.stopStreams_only  (List.Subset.trans (by decide) hw) ?_
    | with_reducible refine State.keepEnding_only  (List.Subset.trans (by decide) hw) ?_
    | with_reducible refine State.endGuestWork_only  (List.Subset.trans (by decide) hw) ?_
    | with_reducible refine OnlyChanges.snd_of (by with_reducible assumption) ?_
    | with_reducible refine OnlyChanges.thd_of (by with_reducible assumption) ?_
    | intro _
    | split
    | dsimp only
    | with_reducible refine OnlyChanges.of_mk ?_ rfl rfl

theorem State.releaseKept_only {s : State} (hw : [.regs, .mem, .out, .chans, .bufs, .plots, .cache, .queues, .jobs, .msiPending, .pair] ⊆ pcs) (hs : OnlyChanges s0 s pcs) :
    OnlyChanges s0 (State.releaseKept s) pcs := by
  unfold State.releaseKept
  repeat' first
    | with_reducible assumption
    | with_reducible apply foldl_only
    | with_reducible refine State.chanDrained_only _ (List.Subset.trans (by decide) hw) ?_
    | with_reducible refine State.unfence_only _ (List.Subset.trans (by decide) hw) ?_
    | with_reducible refine OnlyChanges.snd_of (by with_reducible assumption) ?_
    | with_reducible refine OnlyChanges.thd_of (by with_reducible assumption) ?_
    | intro _
    | split
    | dsimp only
    | with_reducible refine OnlyChanges.of_mk ?_ rfl rfl

theorem State.takeover_only {s : State} (stale : Bool) (hw : [.regs, .shad, .mem, .out, .free, .dram, .edac, .chans, .bufs, .plots, .cache, .display, .touch, .haptic, .audio, .faults, .queues, .jobs, .msiPending, .pair] ⊆ pcs) (hs : OnlyChanges s0 s pcs) :
    OnlyChanges s0 (State.takeover s stale) pcs := by
  unfold State.takeover
  repeat' first
    | with_reducible assumption
    | with_reducible apply foldl_only
    | with_reducible refine State.setFld_only _ _ _ _ (List.Subset.trans (by decide) hw) ?_
    | with_reducible refine State.releaseSlot_only _ _ (List.Subset.trans (by decide) hw) ?_
    | with_reducible refine State.enterPair_only _ (List.Subset.trans (by decide) hw) ?_
    | with_reducible refine State.takeToken_only  (List.Subset.trans (by decide) hw) ?_
    | with_reducible refine State.startRole_only _ (List.Subset.trans (by decide) hw) ?_
    | with_reducible refine State.releaseKept_only  (List.Subset.trans (by decide) hw) ?_
    | with_reducible refine OnlyChanges.snd_of (by with_reducible assumption) ?_
    | with_reducible refine OnlyChanges.thd_of (by with_reducible assumption) ?_
    | intro _
    | split
    | dsimp only
    | with_reducible refine OnlyChanges.of_mk ?_ rfl rfl

theorem State.takeoverCondition_only {s : State} (hw : [.regs, .shad, .mem, .out, .free, .dram, .edac, .chans, .bufs, .plots, .cache, .display, .touch, .haptic, .audio, .faults, .queues, .jobs, .msiPending, .pair] ⊆ pcs) (hs : OnlyChanges s0 s pcs) :
    OnlyChanges s0 (State.takeoverCondition s) pcs := by
  unfold State.takeoverCondition
  repeat' first
    | with_reducible assumption
    | with_reducible apply foldl_only
    | with_reducible refine State.takeover_only _ (List.Subset.trans (by decide) hw) ?_
    | with_reducible refine OnlyChanges.snd_of (by with_reducible assumption) ?_
    | with_reducible refine OnlyChanges.thd_of (by with_reducible assumption) ?_
    | intro _
    | split
    | dsimp only

theorem State.waitingStep_only {s : State} (hw : [.regs, .out, .msiPending, .pair] ⊆ pcs) (hs : OnlyChanges s0 s pcs) :
    OnlyChanges s0 (State.waitingStep s) pcs := by
  unfold State.waitingStep
  repeat' first
    | with_reducible assumption
    | with_reducible apply foldl_only
    | with_reducible refine State.enterPair_only _ (List.Subset.trans (by decide) hw) ?_
    | with_reducible refine State.takeToken_only  (List.Subset.trans (by decide) hw) ?_
    | with_reducible refine State.unfollow_only  (List.Subset.trans (by decide) hw) ?_
    | with_reducible refine OnlyChanges.snd_of (by with_reducible assumption) ?_
    | with_reducible refine OnlyChanges.thd_of (by with_reducible assumption) ?_
    | intro _
    | split
    | dsimp only

theorem State.guyInEdge_only {s : State} (asserted : Bool) (hw : [.regs, .out, .msiPending, .pair] ⊆ pcs) (hs : OnlyChanges s0 s pcs) :
    OnlyChanges s0 (State.guyInEdge s asserted) pcs := by
  unfold State.guyInEdge
  repeat' first
    | with_reducible assumption
    | with_reducible apply foldl_only
    | with_reducible refine State.waitingStep_only  (List.Subset.trans (by decide) hw) ?_
    | with_reducible refine OnlyChanges.snd_of (by with_reducible assumption) ?_
    | with_reducible refine OnlyChanges.thd_of (by with_reducible assumption) ?_
    | intro _
    | split
    | dsimp only
    | with_reducible refine OnlyChanges.of_mk ?_ rfl rfl

theorem State.guyFilter_only {s : State} (hw : [.regs, .shad, .mem, .out, .free, .dram, .edac, .chans, .bufs, .plots, .cache, .display, .touch, .haptic, .audio, .faults, .queues, .jobs, .msiPending, .pair] ⊆ pcs) (hs : OnlyChanges s0 s pcs) :
    OnlyChanges s0 (State.guyFilter s) pcs := by
  unfold State.guyFilter
  repeat' first
    | with_reducible assumption
    | with_reducible apply foldl_only
    | with_reducible refine State.enterDetached_only  (List.Subset.trans (by decide) hw) ?_
    | with_reducible refine State.takeoverCondition_only  (List.Subset.trans (by decide) hw) ?_
    | with_reducible refine OnlyChanges.snd_of (by with_reducible assumption) ?_
    | with_reducible refine OnlyChanges.thd_of (by with_reducible assumption) ?_
    | intro _
    | split
    | dsimp only
    | with_reducible refine OnlyChanges.of_mk ?_ rfl rfl

theorem State.guyCollision_only {s : State} (hw : [.regs, .mem, .out, .free, .edac, .chans, .bufs, .plots, .cache, .ingest, .display, .dpls, .cvus, .touch, .haptic, .audio, .faults, .queues, .jobs, .msiPending, .pair] ⊆ pcs) (hs : OnlyChanges s0 s pcs) :
    OnlyChanges s0 (State.guyCollision s) pcs := by
  unfold State.guyCollision
  repeat' first
    | with_reducible assumption
    | with_reducible apply foldl_only
    | with_reducible refine State.pairDisagree_only _ _ _ (List.Subset.trans (by decide) hw) ?_
    | with_reducible refine State.askJoin_only  (List.Subset.trans (by decide) hw) ?_
    | with_reducible refine State.leaveRole_only _ (List.Subset.trans (by decide) hw) ?_
    | with_reducible refine OnlyChanges.snd_of (by with_reducible assumption) ?_
    | with_reducible refine OnlyChanges.thd_of (by with_reducible assumption) ?_
    | intro _
    | split
    | dsimp only
    | with_reducible refine OnlyChanges.of_mk ?_ rfl rfl

theorem State.collisionTimeout_only {s : State} (hw : [.regs, .mem, .out, .free, .edac, .chans, .bufs, .plots, .cache, .ingest, .display, .dpls, .cvus, .touch, .haptic, .audio, .faults, .queues, .jobs, .msiPending, .pair] ⊆ pcs) (hs : OnlyChanges s0 s pcs) :
    OnlyChanges s0 (State.collisionTimeout s) pcs := by
  unfold State.collisionTimeout
  repeat' first
    | with_reducible assumption
    | with_reducible apply foldl_only
    | with_reducible refine State.takeFree_only  (List.Subset.trans (by decide) hw) ?_
    | with_reducible refine State.pairDisagree_only _ _ _ (List.Subset.trans (by decide) hw) ?_
    | with_reducible refine State.askJoin_only  (List.Subset.trans (by decide) hw) ?_
    | with_reducible refine State.leaveRole_only _ (List.Subset.trans (by decide) hw) ?_
    | with_reducible refine OnlyChanges.snd_of (by with_reducible assumption) ?_
    | with_reducible refine OnlyChanges.thd_of (by with_reducible assumption) ?_
    | intro _
    | split
    | dsimp only
    | with_reducible refine OnlyChanges.of_mk ?_ rfl rfl

theorem State.backoffEnd_only {s : State} (hw : [.regs, .shad, .mem, .out, .free, .dram, .edac, .chans, .bufs, .plots, .cache, .display, .touch, .haptic, .audio, .faults, .queues, .jobs, .msiPending, .pair] ⊆ pcs) (hs : OnlyChanges s0 s pcs) :
    OnlyChanges s0 (State.backoffEnd s) pcs := by
  unfold State.backoffEnd
  repeat' first
    | with_reducible assumption
    | with_reducible apply foldl_only
    | with_reducible refine State.takeoverCondition_only  (List.Subset.trans (by decide) hw) ?_
    | with_reducible refine OnlyChanges.snd_of (by with_reducible assumption) ?_
    | with_reducible refine OnlyChanges.thd_of (by with_reducible assumption) ?_
    | intro _
    | split
    | dsimp only
    | with_reducible refine OnlyChanges.of_mk ?_ rfl rfl

theorem State.waitingTimeout_only {s : State} (hw : [.regs, .out, .msiPending, .pair] ⊆ pcs) (hs : OnlyChanges s0 s pcs) :
    OnlyChanges s0 (State.waitingTimeout s) pcs := by
  unfold State.waitingTimeout
  repeat' first
    | with_reducible assumption
    | with_reducible apply foldl_only
    | with_reducible refine State.enterPair_only _ (List.Subset.trans (by decide) hw) ?_
    | with_reducible refine State.takeToken_only  (List.Subset.trans (by decide) hw) ?_
    | with_reducible refine State.unfollow_only  (List.Subset.trans (by decide) hw) ?_
    | with_reducible refine OnlyChanges.snd_of (by with_reducible assumption) ?_
    | with_reducible refine OnlyChanges.thd_of (by with_reducible assumption) ?_
    | intro _
    | split
    | dsimp only

theorem State.setGuyFault_only {s : State} (hw : [.regs, .out, .faults, .msiPending, .pair] ⊆ pcs) (hs : OnlyChanges s0 s pcs) :
    OnlyChanges s0 (State.setGuyFault s) pcs := by
  unfold State.setGuyFault
  repeat' first
    | with_reducible assumption
    | with_reducible apply foldl_only
    | with_reducible refine State.event_only _ _ (List.Subset.trans (by decide) hw) ?_
    | with_reducible refine State.reportContained_only _ _ _ _ (List.Subset.trans (by decide) hw) ?_
    | with_reducible refine State.pairDisagree_only _ _ _ (List.Subset.trans (by decide) hw) ?_
    | with_reducible refine OnlyChanges.snd_of (by with_reducible assumption) ?_
    | with_reducible refine OnlyChanges.thd_of (by with_reducible assumption) ?_
    | intro _
    | split
    | dsimp only
    | with_reducible refine OnlyChanges.of_mk ?_ rfl rfl

theorem State.noteBeat_only {s : State} (b : Beat) (slow : Bool) (hw : [.regs, .pair] ⊆ pcs) (hs : OnlyChanges s0 s pcs) :
    OnlyChanges s0 (State.noteBeat s b slow) pcs := by
  unfold State.noteBeat
  repeat' first
    | with_reducible assumption
    | with_reducible apply foldl_only
    | with_reducible refine State.setFld_only _ _ _ _ (List.Subset.trans (by decide) hw) ?_
    | with_reducible refine OnlyChanges.snd_of (by with_reducible assumption) ?_
    | with_reducible refine OnlyChanges.thd_of (by with_reducible assumption) ?_
    | intro _
    | split
    | dsimp only
    | with_reducible refine OnlyChanges.of_mk ?_ rfl rfl

theorem State.checkGuy_only {s : State} (b : Beat) (hw : [.regs, .out, .faults, .msiPending, .pair] ⊆ pcs) (hs : OnlyChanges s0 s pcs) :
    OnlyChanges s0 (State.checkGuy s b) pcs := by
  unfold State.checkGuy
  repeat' first
    | with_reducible assumption
    | with_reducible apply foldl_only
    | with_reducible refine State.enterDetached_only  (List.Subset.trans (by decide) hw) ?_
    | with_reducible refine State.setGuyFault_only  (List.Subset.trans (by decide) hw) ?_
    | with_reducible refine OnlyChanges.snd_of (by with_reducible assumption) ?_
    | with_reducible refine OnlyChanges.thd_of (by with_reducible assumption) ?_
    | intro _
    | split
    | dsimp only
    | with_reducible refine OnlyChanges.of_mk ?_ rfl rfl

theorem State.linkComesUp_only {s : State} (speed : Nat) (width : Nat) (x3 : FlitHdr) (b : Beat) (hw : [.regs, .mem, .out, .chans, .bufs, .plots, .cache, .faults, .queues, .jobs, .msiPending, .pair] ⊆ pcs) (hs : OnlyChanges s0 s pcs) :
    OnlyChanges s0 (State.linkComesUp s speed width x3 b) pcs := by
  unfold State.linkComesUp
  repeat' first
    | with_reducible assumption
    | with_reducible apply foldl_only
    | with_reducible refine State.setFld_only _ _ _ _ (List.Subset.trans (by decide) hw) ?_
    | with_reducible refine State.event_only _ _ (List.Subset.trans (by decide) hw) ?_
    | with_reducible refine State.sendFlit_only _ _ (List.Subset.trans (by decide) hw) ?_
    | with_reducible refine State.accept_only _ _ (List.Subset.trans (by decide) hw) ?_ ?_
    | with_reducible refine State.askJoin_only  (List.Subset.trans (by decide) hw) ?_
    | with_reducible refine State.noteBeat_only _ _ (List.Subset.trans (by decide) hw) ?_
    | with_reducible refine State.checkGuy_only _ (List.Subset.trans (by decide) hw) ?_
    | with_reducible refine OnlyChanges.snd_of (by with_reducible assumption) ?_
    | with_reducible refine OnlyChanges.thd_of (by with_reducible assumption) ?_
    | intro _
    | split
    | dsimp only
    | with_reducible refine OnlyChanges.of_mk ?_ rfl rfl

theorem State.sendBeat_only {s : State} (hw : [.regs, .out, .pair] ⊆ pcs) (hs : OnlyChanges s0 s pcs) :
    OnlyChanges s0 (State.sendBeat s) pcs := by
  unfold State.sendBeat
  repeat' first
    | with_reducible assumption
    | with_reducible apply foldl_only
    | with_reducible refine State.sendFlit_only _ _ (List.Subset.trans (by decide) hw) ?_
    | with_reducible refine OnlyChanges.snd_of (by with_reducible assumption) ?_
    | with_reducible refine OnlyChanges.thd_of (by with_reducible assumption) ?_
    | intro _
    | split
    | dsimp only

theorem State.heartbeat_only {s : State} (x1 : FlitHdr) (b : Beat) (slow : Bool) (hw : [.regs, .mem, .out, .chans, .bufs, .plots, .cache, .faults, .queues, .jobs, .msiPending, .pair] ⊆ pcs) (hs : OnlyChanges s0 s pcs) :
    OnlyChanges s0 (State.heartbeat s x1 b slow) pcs := by
  unfold State.heartbeat
  repeat' first
    | with_reducible assumption
    | with_reducible apply foldl_only
    | with_reducible refine State.accept_only _ _ (List.Subset.trans (by decide) hw) ?_ ?_
    | with_reducible refine State.noteBeat_only _ _ (List.Subset.trans (by decide) hw) ?_
    | with_reducible refine State.checkGuy_only _ (List.Subset.trans (by decide) hw) ?_
    | with_reducible refine OnlyChanges.snd_of (by with_reducible assumption) ?_
    | with_reducible refine OnlyChanges.thd_of (by with_reducible assumption) ?_
    | intro _
    | split
    | dsimp only

theorem State.goSolo_only {s : State} (hw : [.regs, .shad, .mem, .out, .dram, .edac, .chans, .bufs, .plots, .cache, .display, .faults, .queues, .jobs, .msiPending, .pair] ⊆ pcs) (hs : OnlyChanges s0 s pcs) :
    OnlyChanges s0 (State.goSolo s) pcs := by
  unfold State.goSolo
  repeat' first
    | with_reducible assumption
    | with_reducible apply foldl_only
    | with_reducible refine State.applyLeadless_only  (List.Subset.trans (by decide) hw) ?_
    | with_reducible refine State.wakeReleases_only  (List.Subset.trans (by decide) hw) ?_
    | with_reducible refine State.abandonAll_only _ (List.Subset.trans (by decide) hw) ?_
    | with_reducible refine State.enterPair_only _ (List.Subset.trans (by decide) hw) ?_
    | with_reducible refine OnlyChanges.snd_of (by with_reducible assumption) ?_
    | with_reducible refine OnlyChanges.thd_of (by with_reducible assumption) ?_
    | intro _
    | split
    | dsimp only

theorem State.linkDown_only {s : State} (hw : [.regs, .shad, .mem, .out, .free, .dram, .edac, .chans, .bufs, .plots, .cache, .display, .touch, .haptic, .audio, .faults, .queues, .jobs, .fetchStopped, .msiPending, .pair] ⊆ pcs) (hs : OnlyChanges s0 s pcs) :
    OnlyChanges s0 (State.linkDown s) pcs := by
  unfold State.linkDown
  repeat' first
    | with_reducible assumption
    | with_reducible apply foldl_only
    | with_reducible refine State.event_only _ _ (List.Subset.trans (by decide) hw) ?_
    | with_reducible refine State.dropLink_only  (List.Subset.trans (by decide) hw) ?_
    | with_reducible refine State.enterPair_only _ (List.Subset.trans (by decide) hw) ?_
    | with_reducible refine State.takeoverCondition_only  (List.Subset.trans (by decide) hw) ?_
    | with_reducible refine State.goSolo_only  (List.Subset.trans (by decide) hw) ?_
    | with_reducible refine OnlyChanges.snd_of (by with_reducible assumption) ?_
    | with_reducible refine OnlyChanges.thd_of (by with_reducible assumption) ?_
    | intro _
    | split
    | dsimp only
    | with_reducible refine OnlyChanges.of_mk ?_ rfl rfl

theorem State.replayTimeout_only {s : State} (hw : [.regs, .out, .pair] ⊆ pcs) (hs : OnlyChanges s0 s pcs) :
    OnlyChanges s0 (State.replayTimeout s) pcs := by
  unfold State.replayTimeout
  repeat' first
    | with_reducible assumption
    | with_reducible apply foldl_only
    | with_reducible refine State.replayAll_only  (List.Subset.trans (by decide) hw) ?_
    | with_reducible refine OnlyChanges.snd_of (by with_reducible assumption) ?_
    | with_reducible refine OnlyChanges.thd_of (by with_reducible assumption) ?_
    | intro _
    | split
    | dsimp only

theorem State.nullFlit_only {s : State} (x1 : FlitHdr) (hw : [.regs, .mem, .out, .chans, .bufs, .plots, .cache, .queues, .jobs, .msiPending, .pair] ⊆ pcs) (hs : OnlyChanges s0 s pcs) :
    OnlyChanges s0 (State.nullFlit s x1) pcs := by
  unfold State.nullFlit
  repeat' first
    | with_reducible assumption
    | with_reducible apply foldl_only
    | with_reducible refine State.takeHeader_only _ (List.Subset.trans (by decide) hw) ?_
    | with_reducible refine OnlyChanges.snd_of (by with_reducible assumption) ?_
    | with_reducible refine OnlyChanges.thd_of (by with_reducible assumption) ?_
    | intro _
    | split
    | dsimp only

theorem State.startResync_only {s : State} (hw : [.display, .pair] ⊆ pcs) (hs : OnlyChanges s0 s pcs) :
    OnlyChanges s0 (State.startResync s) pcs := by
  unfold State.startResync
  repeat' first
    | with_reducible assumption
    | with_reducible apply foldl_only
    | with_reducible refine OnlyChanges.snd_of (by with_reducible assumption) ?_
    | with_reducible refine OnlyChanges.thd_of (by with_reducible assumption) ?_
    | intro _
    | split
    | dsimp only
    | with_reducible refine OnlyChanges.of_mk ?_ rfl rfl

theorem State.joinRequest_only {s : State} (config : Nat) (hw : [.regs, .out, .display, .msiPending, .pair] ⊆ pcs) (hs : OnlyChanges s0 s pcs) :
    OnlyChanges s0 (State.joinRequest s config) pcs := by
  unfold State.joinRequest
  repeat' first
    | with_reducible assumption
    | with_reducible apply foldl_only
    | with_reducible refine State.event_only _ _ (List.Subset.trans (by decide) hw) ?_
    | with_reducible refine State.sendFlit_only _ _ (List.Subset.trans (by decide) hw) ?_
    | with_reducible refine State.pairDisagree_only _ _ _ (List.Subset.trans (by decide) hw) ?_
    | with_reducible refine State.enterPair_only _ (List.Subset.trans (by decide) hw) ?_
    | with_reducible refine State.startResync_only  (List.Subset.trans (by decide) hw) ?_
    | with_reducible refine OnlyChanges.snd_of (by with_reducible assumption) ?_
    | with_reducible refine OnlyChanges.thd_of (by with_reducible assumption) ?_
    | intro _
    | split
    | dsimp only
    | with_reducible refine OnlyChanges.of_mk ?_ rfl rfl

theorem State.joinAccept_only {s : State} (hw : [.regs, .out, .msiPending, .pair] ⊆ pcs) (hs : OnlyChanges s0 s pcs) :
    OnlyChanges s0 (State.joinAccept s) pcs := by
  unfold State.joinAccept
  repeat' first
    | with_reducible assumption
    | with_reducible apply foldl_only
    | with_reducible refine State.enterPair_only _ (List.Subset.trans (by decide) hw) ?_
    | with_reducible refine OnlyChanges.snd_of (by with_reducible assumption) ?_
    | with_reducible refine OnlyChanges.thd_of (by with_reducible assumption) ?_
    | intro _
    | split
    | dsimp only

theorem State.joinRefused_only {s : State} (hw : [.regs, .out, .msiPending, .pair] ⊆ pcs) (hs : OnlyChanges s0 s pcs) :
    OnlyChanges s0 (State.joinRefused s) pcs := by
  unfold State.joinRefused
  repeat' first
    | with_reducible assumption
    | with_reducible apply foldl_only
    | with_reducible refine State.enterPair_only _ (List.Subset.trans (by decide) hw) ?_
    | with_reducible refine OnlyChanges.snd_of (by with_reducible assumption) ?_
    | with_reducible refine OnlyChanges.thd_of (by with_reducible assumption) ?_
    | intro _
    | split
    | dsimp only

theorem State.syncDone_only {s : State} (hw : [.regs, .out, .msiPending, .pair] ⊆ pcs) (hs : OnlyChanges s0 s pcs) :
    OnlyChanges s0 (State.syncDone s) pcs := by
  unfold State.syncDone
  repeat' first
    | with_reducible assumption
    | with_reducible apply foldl_only
    | with_reducible refine State.event_only _ _ (List.Subset.trans (by decide) hw) ?_
    | with_reducible refine State.enterPair_only _ (List.Subset.trans (by decide) hw) ?_
    | with_reducible refine OnlyChanges.snd_of (by with_reducible assumption) ?_
    | with_reducible refine OnlyChanges.thd_of (by with_reducible assumption) ?_
    | intro _
    | split
    | dsimp only
    | with_reducible refine OnlyChanges.of_mk ?_ rfl rfl

theorem State.resyncSent_only {s : State} (hw : [.regs, .out, .msiPending, .pair] ⊆ pcs) (hs : OnlyChanges s0 s pcs) :
    OnlyChanges s0 (State.resyncSent s) pcs := by
  unfold State.resyncSent
  repeat' first
    | with_reducible assumption
    | with_reducible apply foldl_only
    | with_reducible refine State.event_only _ _ (List.Subset.trans (by decide) hw) ?_
    | with_reducible refine State.sendFlit_only _ _ (List.Subset.trans (by decide) hw) ?_
    | with_reducible refine OnlyChanges.snd_of (by with_reducible assumption) ?_
    | with_reducible refine OnlyChanges.thd_of (by with_reducible assumption) ?_
    | intro _
    | split
    | dsimp only
    | with_reducible refine OnlyChanges.of_mk ?_ rfl rfl

theorem State.resyncCause_only {s : State} (hw : [.regs, .out, .msiPending, .pair] ⊆ pcs) (hs : OnlyChanges s0 s pcs) :
    OnlyChanges s0 (State.resyncCause s) pcs := by
  unfold State.resyncCause
  repeat' first
    | with_reducible assumption
    | with_reducible apply foldl_only
    | with_reducible refine State.enterPair_only _ (List.Subset.trans (by decide) hw) ?_
    | with_reducible refine State.askJoin_only  (List.Subset.trans (by decide) hw) ?_
    | with_reducible refine OnlyChanges.snd_of (by with_reducible assumption) ?_
    | with_reducible refine OnlyChanges.thd_of (by with_reducible assumption) ?_
    | intro _
    | split
    | dsimp only

theorem State.startHandover_only {s : State} (hw : [.fetchStopped, .pair] ⊆ pcs) (hs : OnlyChanges s0 s pcs) :
    OnlyChanges s0 (State.startHandover s) pcs := by
  unfold State.startHandover
  repeat' first
    | with_reducible assumption
    | with_reducible apply foldl_only
    | with_reducible refine OnlyChanges.snd_of (by with_reducible assumption) ?_
    | with_reducible refine OnlyChanges.thd_of (by with_reducible assumption) ?_
    | intro _
    | split
    | dsimp only
    | with_reducible refine OnlyChanges.of_mk ?_ rfl rfl

theorem State.handoverWrite_only (a : RegAcc) {s : State} (hw : [.regs, .out, .fetchStopped, .msiPending, .pair] ⊆ pcs) (hs : OnlyChanges s0 s pcs) :
    OnlyChanges s0 (State.handoverWrite a s) pcs := by
  unfold State.handoverWrite
  repeat' first
    | with_reducible assumption
    | with_reducible apply foldl_only
    | with_reducible refine State.recAcc_only _ _ (List.Subset.trans (by decide) hw) ?_
    | with_reducible refine State.pairDisagree_only _ _ _ (List.Subset.trans (by decide) hw) ?_
    | with_reducible refine State.startHandover_only  (List.Subset.trans (by decide) hw) ?_
    | with_reducible refine OnlyChanges.snd_of (by with_reducible assumption) ?_
    | with_reducible refine OnlyChanges.thd_of (by with_reducible assumption) ?_
    | intro _
    | split
    | dsimp only

theorem State.handoverDrained_only {s : State} (hw : [.regs, .out, .pair] ⊆ pcs) (hs : OnlyChanges s0 s pcs) :
    OnlyChanges s0 (State.handoverDrained s) pcs := by
  unfold State.handoverDrained
  repeat' first
    | with_reducible assumption
    | with_reducible apply foldl_only
    | with_reducible refine State.sendFlit_only _ _ (List.Subset.trans (by decide) hw) ?_
    | with_reducible refine OnlyChanges.snd_of (by with_reducible assumption) ?_
    | with_reducible refine OnlyChanges.thd_of (by with_reducible assumption) ?_
    | intro _
    | split
    | dsimp only
    | with_reducible refine OnlyChanges.of_mk ?_ rfl rfl

theorem State.keepToken_only {s : State} (hw : [.fetchStopped, .pair] ⊆ pcs) (hs : OnlyChanges s0 s pcs) :
    OnlyChanges s0 (State.keepToken s) pcs := by
  unfold State.keepToken
  repeat' first
    | with_reducible assumption
    | with_reducible apply foldl_only
    | with_reducible refine OnlyChanges.snd_of (by with_reducible assumption) ?_
    | with_reducible refine OnlyChanges.thd_of (by with_reducible assumption) ?_
    | intro _
    | split
    | dsimp only
    | with_reducible refine OnlyChanges.of_mk ?_ rfl rfl

theorem State.handoverTimeout_only {s : State} (hw : [.regs, .out, .fetchStopped, .msiPending, .pair] ⊆ pcs) (hs : OnlyChanges s0 s pcs) :
    OnlyChanges s0 (State.handoverTimeout s) pcs := by
  unfold State.handoverTimeout
  repeat' first
    | with_reducible assumption
    | with_reducible apply foldl_only
    | with_reducible refine State.recErr_only _ _ _ (List.Subset.trans (by decide) hw) ?_
    | with_reducible refine State.keepToken_only  (List.Subset.trans (by decide) hw) ?_
    | with_reducible refine OnlyChanges.snd_of (by with_reducible assumption) ?_
    | with_reducible refine OnlyChanges.thd_of (by with_reducible assumption) ?_
    | intro _
    | split
    | dsimp only

theorem State.answerOffer_only {s : State} (hw : [.regs, .out, .pair] ⊆ pcs) (hs : OnlyChanges s0 s pcs) :
    OnlyChanges s0 (State.answerOffer s) pcs := by
  unfold State.answerOffer
  repeat' first
    | with_reducible assumption
    | with_reducible apply foldl_only
    | with_reducible refine State.sendFlit_only _ _ (List.Subset.trans (by decide) hw) ?_
    | with_reducible refine OnlyChanges.snd_of (by with_reducible assumption) ?_
    | with_reducible refine OnlyChanges.thd_of (by with_reducible assumption) ?_
    | intro _
    | split
    | dsimp only
    | with_reducible refine OnlyChanges.of_mk ?_ rfl rfl

theorem State.handoverOffer_only {s : State} (count : Nat) (hw : [.regs, .out, .pair] ⊆ pcs) (hs : OnlyChanges s0 s pcs) :
    OnlyChanges s0 (State.handoverOffer s count) pcs := by
  unfold State.handoverOffer
  repeat' first
    | with_reducible assumption
    | with_reducible apply foldl_only
    | with_reducible refine State.answerOffer_only  (List.Subset.trans (by decide) hw) ?_
    | with_reducible refine OnlyChanges.snd_of (by with_reducible assumption) ?_
    | with_reducible refine OnlyChanges.thd_of (by with_reducible assumption) ?_
    | intro _
    | split
    | dsimp only
    | with_reducible refine OnlyChanges.of_mk ?_ rfl rfl

theorem State.handoverReady_only {s : State} (hw : [.regs, .mem, .out, .free, .edac, .chans, .bufs, .plots, .cache, .ingest, .display, .dpls, .cvus, .touch, .haptic, .audio, .faults, .queues, .jobs, .fetchStopped, .msiPending, .pair] ⊆ pcs) (hs : OnlyChanges s0 s pcs) :
    OnlyChanges s0 (State.handoverReady s) pcs := by
  unfold State.handoverReady
  repeat' first
    | with_reducible assumption
    | with_reducible apply foldl_only
    | with_reducible refine State.leaveRole_only _ (List.Subset.trans (by decide) hw) ?_
    | with_reducible refine State.resyncCause_only  (List.Subset.trans (by decide) hw) ?_
    | with_reducible refine OnlyChanges.snd_of (by with_reducible assumption) ?_
    | with_reducible refine OnlyChanges.thd_of (by with_reducible assumption) ?_
    | intro _
    | split
    | dsimp only
    | with_reducible refine OnlyChanges.of_mk ?_ rfl rfl

theorem State.handoverRefused_only {s : State} (reason : Nat) (hw : [.regs, .out, .fetchStopped, .msiPending, .pair] ⊆ pcs) (hs : OnlyChanges s0 s pcs) :
    OnlyChanges s0 (State.handoverRefused s reason) pcs := by
  unfold State.handoverRefused
  repeat' first
    | with_reducible assumption
    | with_reducible apply foldl_only
    | with_reducible refine State.pairDisagree_only _ _ _ (List.Subset.trans (by decide) hw) ?_
    | with_reducible refine State.keepToken_only  (List.Subset.trans (by decide) hw) ?_
    | with_reducible refine OnlyChanges.snd_of (by with_reducible assumption) ?_
    | with_reducible refine OnlyChanges.thd_of (by with_reducible assumption) ?_
    | intro _
    | split
    | dsimp only

theorem State.clearBridged_only {s : State} (hw : [.regs] ⊆ pcs) (hs : OnlyChanges s0 s pcs) :
    OnlyChanges s0 (State.clearBridged s) pcs := by
  unfold State.clearBridged
  repeat' first
    | with_reducible assumption
    | with_reducible apply foldl_only
    | with_reducible refine State.setFld_only _ _ _ _ (List.Subset.trans (by decide) hw) ?_
    | with_reducible refine OnlyChanges.snd_of (by with_reducible assumption) ?_
    | with_reducible refine OnlyChanges.thd_of (by with_reducible assumption) ?_
    | intro _
    | split
    | dsimp only

theorem State.timeSyncDue_only {s : State} (hw : [.regs, .out, .pair] ⊆ pcs) (hs : OnlyChanges s0 s pcs) :
    OnlyChanges s0 (State.timeSyncDue s) pcs := by
  unfold State.timeSyncDue
  repeat' first
    | with_reducible assumption
    | with_reducible apply foldl_only
    | with_reducible refine State.sendFlit_only _ _ (List.Subset.trans (by decide) hw) ?_
    | with_reducible refine OnlyChanges.snd_of (by with_reducible assumption) ?_
    | with_reducible refine OnlyChanges.thd_of (by with_reducible assumption) ?_
    | intro _
    | split
    | dsimp only
    | with_reducible refine OnlyChanges.of_mk ?_ rfl rfl

theorem State.timeSyncRequest_only {s : State} (t1 : Nat) (hw : [.regs, .out, .pair] ⊆ pcs) (hs : OnlyChanges s0 s pcs) :
    OnlyChanges s0 (State.timeSyncRequest s t1) pcs := by
  unfold State.timeSyncRequest
  repeat' first
    | with_reducible assumption
    | with_reducible apply foldl_only
    | with_reducible refine State.sendFlit_only _ _ (List.Subset.trans (by decide) hw) ?_
    | with_reducible refine OnlyChanges.snd_of (by with_reducible assumption) ?_
    | with_reducible refine OnlyChanges.thd_of (by with_reducible assumption) ?_
    | intro _
    | split
    | dsimp only

theorem State.timeSyncReply_only {s : State} (t1 : Nat) (t2 : Nat) (t3 : Nat) (hw : [.regs, .out, .free, .time, .msiPending, .pair] ⊆ pcs) (hs : OnlyChanges s0 s pcs) :
    OnlyChanges s0 (State.timeSyncReply s t1 t2 t3) pcs := by
  unfold State.timeSyncReply
  repeat' first
    | with_reducible assumption
    | with_reducible apply foldl_only
    | with_reducible refine State.setFld_only _ _ _ _ (List.Subset.trans (by decide) hw) ?_
    | with_reducible refine State.takeFree_only  (List.Subset.trans (by decide) hw) ?_
    | with_reducible refine State.event_only _ _ (List.Subset.trans (by decide) hw) ?_
    | with_reducible refine State.pairDisagree_only _ _ _ (List.Subset.trans (by decide) hw) ?_
    | with_reducible refine State.clearBridged_only  (List.Subset.trans (by decide) hw) ?_
    | with_reducible refine OnlyChanges.snd_of (by with_reducible assumption) ?_
    | with_reducible refine OnlyChanges.thd_of (by with_reducible assumption) ?_
    | intro _
    | split
    | dsimp only
    | with_reducible refine OnlyChanges.of_mk ?_ rfl rfl

theorem State.timeSyncFrame_only {s : State} (n : Nat) (seq : Nat) (ta : Nat) (hw : [.regs, .pair] ⊆ pcs) (hs : OnlyChanges s0 s pcs) :
    OnlyChanges s0 (State.timeSyncFrame s n seq ta) pcs := by
  unfold State.timeSyncFrame
  repeat' first
    | with_reducible assumption
    | with_reducible apply foldl_only
    | with_reducible refine State.setFld_only _ _ _ _ (List.Subset.trans (by decide) hw) ?_
    | with_reducible refine OnlyChanges.snd_of (by with_reducible assumption) ?_
    | with_reducible refine OnlyChanges.thd_of (by with_reducible assumption) ?_
    | intro _
    | split
    | dsimp only
    | with_reducible refine OnlyChanges.of_mk ?_ rfl rfl

theorem State.timeSyncVrr_only {s : State} (n : Nat) (seq : Nat) (line : Nat) (proceed : Bool) (hw : [.pair] ⊆ pcs) (hs : OnlyChanges s0 s pcs) :
    OnlyChanges s0 (State.timeSyncVrr s n seq line proceed) pcs := by
  unfold State.timeSyncVrr
  repeat' first
    | with_reducible assumption
    | with_reducible apply foldl_only
    | with_reducible refine OnlyChanges.snd_of (by with_reducible assumption) ?_
    | with_reducible refine OnlyChanges.thd_of (by with_reducible assumption) ?_
    | intro _
    | split
    | dsimp only
    | with_reducible refine OnlyChanges.of_mk ?_ rfl rfl

theorem State.armRecord_only {s : State} (recNo : Nat) (g : Nat) (fn : Nat) (entries : List (Nat × Nat × Nat)) (fin : Bool) (hw : [.regs, .out, .pair] ⊆ pcs) (hs : OnlyChanges s0 s pcs) :
    OnlyChanges s0 (State.armRecord s recNo g fn entries fin) pcs := by
  unfold State.armRecord
  repeat' first
    | with_reducible assumption
    | with_reducible apply foldl_only
    | with_reducible refine State.sendFlit_only _ _ (List.Subset.trans (by decide) hw) ?_
    | with_reducible refine OnlyChanges.snd_of (by with_reducible assumption) ?_
    | with_reducible refine OnlyChanges.thd_of (by with_reducible assumption) ?_
    | intro _
    | split
    | dsimp only
    | with_reducible refine OnlyChanges.of_mk ?_ rfl rfl

theorem State.armApply_only {s : State} (recNo : Nat) (frame : Nat) (hw : [.regs, .shad, .mem, .out, .dram, .edac, .chans, .bufs, .plots, .cache, .display, .faults, .queues, .jobs, .msiPending, .pair] ⊆ pcs) (hs : OnlyChanges s0 s pcs) :
    OnlyChanges s0 (State.armApply s recNo frame) pcs := by
  unfold State.armApply
  repeat' first
    | with_reducible assumption
    | with_reducible apply foldl_only
    | with_reducible refine State.takeResources_only _ (List.Subset.trans (by decide) hw) ?_
    | with_reducible refine State.applyAtOnce_only _ (List.Subset.trans (by decide) hw) ?_
    | with_reducible refine State.sendFlit_only _ _ (List.Subset.trans (by decide) hw) ?_
    | with_reducible refine State.noteSkew_only _ _ (List.Subset.trans (by decide) hw) ?_
    | with_reducible refine OnlyChanges.snd_of (by with_reducible assumption) ?_
    | with_reducible refine OnlyChanges.thd_of (by with_reducible assumption) ?_
    | intro _
    | split
    | dsimp only
    | with_reducible refine OnlyChanges.of_mk ?_ rfl rfl

theorem State.armDrop_only {s : State} (recNo : Nat) (hw : [.pair] ⊆ pcs) (hs : OnlyChanges s0 s pcs) :
    OnlyChanges s0 (State.armDrop s recNo) pcs := by
  unfold State.armDrop
  repeat' first
    | with_reducible assumption
    | with_reducible apply foldl_only
    | with_reducible refine OnlyChanges.snd_of (by with_reducible assumption) ?_
    | with_reducible refine OnlyChanges.thd_of (by with_reducible assumption) ?_
    | intro _
    | split
    | dsimp only
    | with_reducible refine OnlyChanges.of_mk ?_ rfl rfl

theorem State.ackHeld_only {s : State} (recNo : Nat) (hw : [.regs, .shad, .mem, .out, .dram, .edac, .chans, .bufs, .plots, .cache, .display, .faults, .queues, .jobs, .msiPending, .pair] ⊆ pcs) (hs : OnlyChanges s0 s pcs) :
    OnlyChanges s0 (State.ackHeld s recNo) pcs := by
  unfold State.ackHeld
  repeat' first
    | with_reducible assumption
    | with_reducible apply foldl_only
    | with_reducible refine State.putCommit_only _ (List.Subset.trans (by decide) hw) ?_
    | with_reducible refine State.applyLeadless_only  (List.Subset.trans (by decide) hw) ?_
    | with_reducible refine State.wakeReleases_only  (List.Subset.trans (by decide) hw) ?_
    | with_reducible refine OnlyChanges.snd_of (by with_reducible assumption) ?_
    | with_reducible refine OnlyChanges.thd_of (by with_reducible assumption) ?_
    | intro _
    | split
    | dsimp only

theorem State.ackApplied_only {s : State} (recNo : Nat) (frame : Nat) (hw : [.regs, .pair] ⊆ pcs) (hs : OnlyChanges s0 s pcs) :
    OnlyChanges s0 (State.ackApplied s recNo frame) pcs := by
  unfold State.ackApplied
  repeat' first
    | with_reducible assumption
    | with_reducible apply foldl_only
    | with_reducible refine State.noteSkew_only _ _ (List.Subset.trans (by decide) hw) ?_
    | with_reducible refine OnlyChanges.snd_of (by with_reducible assumption) ?_
    | with_reducible refine OnlyChanges.thd_of (by with_reducible assumption) ?_
    | intro _
    | split
    | dsimp only
    | with_reducible refine OnlyChanges.of_mk ?_ rfl rfl

theorem State.regionDisagree_only {s : State} (own : Digest) (other : Digest) (ownDue : Nat) (otherDue : Nat) (hw : [.regs, .out, .faults, .fetchStopped, .msiPending, .pair] ⊆ pcs) (hs : OnlyChanges s0 s pcs) :
    OnlyChanges s0 (State.regionDisagree s own other ownDue otherDue) pcs := by
  unfold State.regionDisagree
  repeat' first
    | with_reducible assumption
    | with_reducible apply foldl_only
    | with_reducible refine State.reportContained_only _ _ _ _ (List.Subset.trans (by decide) hw) ?_
    | with_reducible refine State.pairDisagree_only _ _ _ (List.Subset.trans (by decide) hw) ?_
    | with_reducible refine State.resyncCause_only  (List.Subset.trans (by decide) hw) ?_
    | with_reducible refine State.startHandover_only  (List.Subset.trans (by decide) hw) ?_
    | with_reducible refine OnlyChanges.snd_of (by with_reducible assumption) ?_
    | with_reducible refine OnlyChanges.thd_of (by with_reducible assumption) ?_
    | intro _
    | split
    | dsimp only
    | with_reducible refine OnlyChanges.of_mk ?_ rfl rfl

theorem State.compareDigests_only {s : State} (own : Digest) (other : Digest) (hw : [.regs, .out, .msiPending, .pair] ⊆ pcs) (hs : OnlyChanges s0 s pcs) :
    OnlyChanges s0 (State.compareDigests s own other) pcs := by
  unfold State.compareDigests
  repeat' first
    | with_reducible assumption
    | with_reducible apply foldl_only
    | with_reducible refine State.setFld_only _ _ _ _ (List.Subset.trans (by decide) hw) ?_
    | with_reducible refine State.satFld_only _ _ _ _ (List.Subset.trans (by decide) hw) ?_
    | with_reducible refine State.pairDisagree_only _ _ _ (List.Subset.trans (by decide) hw) ?_
    | with_reducible refine State.resyncCause_only  (List.Subset.trans (by decide) hw) ?_
    | with_reducible refine OnlyChanges.snd_of (by with_reducible assumption) ?_
    | with_reducible refine OnlyChanges.thd_of (by with_reducible assumption) ?_
    | intro _
    | split
    | dsimp only
    | with_reducible refine OnlyChanges.of_mk ?_ rfl rfl

theorem State.matchDigest_only {s : State} (n : Nat) (frame : Nat) (hw : [.regs, .out, .faults, .fetchStopped, .msiPending, .pair] ⊆ pcs) (hs : OnlyChanges s0 s pcs) :
    OnlyChanges s0 (State.matchDigest s n frame) pcs := by
  unfold State.matchDigest
  repeat' first
    | with_reducible assumption
    | with_reducible apply foldl_only
    | with_reducible refine State.regionDisagree_only _ _ _ _ (List.Subset.trans (by decide) hw) ?_
    | with_reducible refine State.compareDigests_only _ _ (List.Subset.trans (by decide) hw) ?_
    | with_reducible refine OnlyChanges.snd_of (by with_reducible assumption) ?_
    | with_reducible refine OnlyChanges.thd_of (by with_reducible assumption) ?_
    | intro _
    | split
    | dsimp only
    | with_reducible refine OnlyChanges.of_mk ?_ rfl rfl

theorem State.ownDigest_only {s : State} (d : Digest) (hw : [.regs, .out, .faults, .fetchStopped, .msiPending, .pair] ⊆ pcs) (hs : OnlyChanges s0 s pcs) :
    OnlyChanges s0 (State.ownDigest s d) pcs := by
  unfold State.ownDigest
  repeat' first
    | with_reducible assumption
    | with_reducible apply foldl_only
    | with_reducible refine State.setFld_only _ _ _ _ (List.Subset.trans (by decide) hw) ?_
    | with_reducible refine State.sendFlit_only _ _ (List.Subset.trans (by decide) hw) ?_
    | with_reducible refine State.matchDigest_only _ _ (List.Subset.trans (by decide) hw) ?_
    | with_reducible refine OnlyChanges.snd_of (by with_reducible assumption) ?_
    | with_reducible refine OnlyChanges.thd_of (by with_reducible assumption) ?_
    | intro _
    | split
    | dsimp only
    | with_reducible refine OnlyChanges.of_mk ?_ rfl rfl

theorem State.partnerDigest_only {s : State} (d : Digest) (hw : [.regs, .out, .faults, .fetchStopped, .msiPending, .pair] ⊆ pcs) (hs : OnlyChanges s0 s pcs) :
    OnlyChanges s0 (State.partnerDigest s d) pcs := by
  unfold State.partnerDigest
  repeat' first
    | with_reducible assumption
    | with_reducible apply foldl_only
    | with_reducible refine State.event_only _ _ (List.Subset.trans (by decide) hw) ?_
    | with_reducible refine State.recErr_only _ _ _ (List.Subset.trans (by decide) hw) ?_
    | with_reducible refine State.noteSkew_only _ _ (List.Subset.trans (by decide) hw) ?_
    | with_reducible refine State.pairDisagree_only _ _ _ (List.Subset.trans (by decide) hw) ?_
    | with_reducible refine State.matchDigest_only _ _ (List.Subset.trans (by decide) hw) ?_
    | with_reducible refine OnlyChanges.snd_of (by with_reducible assumption) ?_
    | with_reducible refine OnlyChanges.thd_of (by with_reducible assumption) ?_
    | intro _
    | split
    | dsimp only
    | with_reducible refine OnlyChanges.of_mk ?_ rfl rfl

theorem State.mirrorRead_only {s : State} (plot : Nat) (word : Nat) (x3 : Nat) (hw : [.regs, .mem, .out, .edac, .cache, .faults, .msiPending] ⊆ pcs) (hs : OnlyChanges s0 s pcs) :
    OnlyChanges s0 (State.mirrorRead s plot word x3).2 pcs := by
  induction x3 generalizing s plot word with
  | zero =>
    unfold State.mirrorRead
    repeat' first
      | with_reducible assumption
      | with_reducible apply foldl_only
      | with_reducible refine State.readWord_only _ _ (List.Subset.trans (by decide) hw) ?_
      | with_reducible refine OnlyChanges.snd_of (by with_reducible assumption) ?_
      | with_reducible refine OnlyChanges.thd_of (by with_reducible assumption) ?_
      | intro _
      | split
      | dsimp only
  | succ _ ih =>
    unfold State.mirrorRead
    repeat' first
      | with_reducible assumption
      | with_reducible apply ih
      | with_reducible apply foldl_only
      | with_reducible refine State.readWord_only _ _ (List.Subset.trans (by decide) hw) ?_
      | with_reducible refine OnlyChanges.snd_of (by with_reducible assumption) ?_
      | with_reducible refine OnlyChanges.thd_of (by with_reducible assumption) ?_
      | intro _
      | split
      | dsimp only

theorem State.sentOne_only {s : State} (f : Flit) (item : Option MirrorItem) (rest : List MirrorItem) (items : Nat) (words : Nat) (hw : [.regs, .out, .pair] ⊆ pcs) (hs : OnlyChanges s0 s pcs) :
    OnlyChanges s0 (State.sentOne s f item rest items words) pcs := by
  unfold State.sentOne
  repeat' first
    | with_reducible assumption
    | with_reducible apply foldl_only
    | with_reducible refine State.addCnt_only _ _ _ _ _ (List.Subset.trans (by decide) hw) ?_
    | with_reducible refine State.sendNow_only _ _ (List.Subset.trans (by decide) hw) ?_
    | with_reducible refine OnlyChanges.snd_of (by with_reducible assumption) ?_
    | with_reducible refine OnlyChanges.thd_of (by with_reducible assumption) ?_
    | intro _
    | split
    | dsimp only
    | with_reducible refine OnlyChanges.of_mk ?_ rfl rfl

theorem State.sendSync_only {s : State} (hw : [.regs, .mem, .out, .edac, .cache, .faults, .msiPending, .pair] ⊆ pcs) (hs : OnlyChanges s0 s pcs) :
    OnlyChanges s0 (State.sendSync s) pcs := by
  unfold State.sendSync
  repeat' first
    | with_reducible assumption
    | with_reducible apply foldl_only
    | with_reducible refine State.mirrorRead_only _ _ _ (List.Subset.trans (by decide) hw) ?_
    | with_reducible refine State.sentOne_only _ _ _ _ _ (List.Subset.trans (by decide) hw) ?_
    | with_reducible refine OnlyChanges.snd_of (by with_reducible assumption) ?_
    | with_reducible refine OnlyChanges.thd_of (by with_reducible assumption) ?_
    | intro _
    | split
    | dsimp only
    | with_reducible refine OnlyChanges.of_mk ?_ rfl rfl

theorem State.mirrorSend_only {s : State} (hw : [.regs, .mem, .out, .edac, .cache, .faults, .msiPending, .pair] ⊆ pcs) (hs : OnlyChanges s0 s pcs) :
    OnlyChanges s0 (State.mirrorSend s) pcs := by
  unfold State.mirrorSend
  repeat' first
    | with_reducible assumption
    | with_reducible apply foldl_only
    | with_reducible refine State.mirrorRead_only _ _ _ (List.Subset.trans (by decide) hw) ?_
    | with_reducible refine State.sentOne_only _ _ _ _ _ (List.Subset.trans (by decide) hw) ?_
    | with_reducible refine State.sendSync_only  (List.Subset.trans (by decide) hw) ?_
    | with_reducible refine OnlyChanges.snd_of (by with_reducible assumption) ?_
    | with_reducible refine OnlyChanges.thd_of (by with_reducible assumption) ?_
    | intro _
    | split
    | dsimp only
    | with_reducible refine OnlyChanges.of_mk ?_ rfl rfl

theorem State.wakeReport_only {s : State} (sub : Nat) (arg : Nat) (hw : [.regs, .out, .msiPending, .pair] ⊆ pcs) (hs : OnlyChanges s0 s pcs) :
    OnlyChanges s0 (State.wakeReport s sub arg) pcs := by
  unfold State.wakeReport
  repeat' first
    | with_reducible assumption
    | with_reducible apply foldl_only
    | with_reducible refine State.event_only _ _ (List.Subset.trans (by decide) hw) ?_
    | with_reducible refine OnlyChanges.snd_of (by with_reducible assumption) ?_
    | with_reducible refine OnlyChanges.thd_of (by with_reducible assumption) ?_
    | intro _
    | split
    | dsimp only
    | with_reducible refine OnlyChanges.of_mk ?_ rfl rfl

theorem State.plkCtrlWrite_only (a : RegAcc) {s : State} (hw : [.regs, .out, .fetchStopped, .msiPending, .pair] ⊆ pcs) (hs : OnlyChanges s0 s pcs) :
    OnlyChanges s0 (State.plkCtrlWrite a s) pcs := by
  unfold State.plkCtrlWrite
  repeat' first
    | with_reducible assumption
    | with_reducible apply foldl_only
    | with_reducible refine State.recAcc_only _ _ (List.Subset.trans (by decide) hw) ?_
    | with_reducible refine State.recRefused_only _ (List.Subset.trans (by decide) hw) ?_
    | with_reducible refine State.startRecovery_only  (List.Subset.trans (by decide) hw) ?_
    | with_reducible refine State.askJoin_only  (List.Subset.trans (by decide) hw) ?_
    | with_reducible refine State.resyncCause_only  (List.Subset.trans (by decide) hw) ?_
    | with_reducible refine State.handoverWrite_only _ (List.Subset.trans (by decide) hw) ?_
    | with_reducible refine OnlyChanges.snd_of (by with_reducible assumption) ?_
    | with_reducible refine OnlyChanges.thd_of (by with_reducible assumption) ?_
    | intro _
    | split
    | dsimp only
    | with_reducible refine OnlyChanges.of_mk ?_ rfl rfl

theorem State.pairStart_only {s : State} (hw : [.regs, .out, .msiPending, .pair] ⊆ pcs) (hs : OnlyChanges s0 s pcs) :
    OnlyChanges s0 (State.pairStart s) pcs := by
  unfold State.pairStart
  repeat' first
    | with_reducible assumption
    | with_reducible apply foldl_only
    | with_reducible refine State.setFld_only _ _ _ _ (List.Subset.trans (by decide) hw) ?_
    | with_reducible refine State.followPartner_only  (List.Subset.trans (by decide) hw) ?_
    | with_reducible refine State.waitingStep_only  (List.Subset.trans (by decide) hw) ?_
    | with_reducible refine OnlyChanges.snd_of (by with_reducible assumption) ?_
    | with_reducible refine OnlyChanges.thd_of (by with_reducible assumption) ?_
    | intro _
    | split
    | dsimp only
    | with_reducible refine OnlyChanges.of_mk ?_ rfl rfl

theorem State.pairStop_only {s : State} (hw : [.regs, .shad, .mem, .out, .free, .dram, .edac, .chans, .bufs, .plots, .cache, .display, .touch, .haptic, .audio, .faults, .queues, .jobs, .msiPending, .pair] ⊆ pcs) (hs : OnlyChanges s0 s pcs) :
    OnlyChanges s0 (State.pairStop s) pcs := by
  unfold State.pairStop
  repeat' first
    | with_reducible assumption
    | with_reducible apply foldl_only
    | with_reducible refine State.setFld_only _ _ _ _ (List.Subset.trans (by decide) hw) ?_
    | with_reducible refine State.dropLink_only  (List.Subset.trans (by decide) hw) ?_
    | with_reducible refine State.startRole_only _ (List.Subset.trans (by decide) hw) ?_
    | with_reducible refine State.releaseKept_only  (List.Subset.trans (by decide) hw) ?_
    | with_reducible refine State.goSolo_only  (List.Subset.trans (by decide) hw) ?_
    | with_reducible refine OnlyChanges.snd_of (by with_reducible assumption) ?_
    | with_reducible refine OnlyChanges.thd_of (by with_reducible assumption) ?_
    | intro _
    | split
    | dsimp only
    | with_reducible refine OnlyChanges.of_mk ?_ rfl rfl

theorem State.plkEnable_only (a : RegAcc) (on : Bool) {s : State} (hw : [.regs, .shad, .mem, .out, .free, .dram, .edac, .chans, .bufs, .plots, .cache, .display, .touch, .haptic, .audio, .faults, .queues, .jobs, .msiPending, .pair] ⊆ pcs) (hs : OnlyChanges s0 s pcs) :
    OnlyChanges s0 (State.plkEnable a on s) pcs := by
  unfold State.plkEnable
  repeat' first
    | with_reducible assumption
    | with_reducible apply foldl_only
    | with_reducible refine State.recAcc_only _ _ (List.Subset.trans (by decide) hw) ?_
    | with_reducible refine State.pairStop_only  (List.Subset.trans (by decide) hw) ?_
    | with_reducible refine OnlyChanges.snd_of (by with_reducible assumption) ?_
    | with_reducible refine OnlyChanges.thd_of (by with_reducible assumption) ?_
    | intro _
    | split
    | dsimp only

theorem State.plkReset_only (a : RegAcc) {s : State} (hw : [.regs, .shad, .mem, .out, .free, .dram, .edac, .chans, .bufs, .plots, .cache, .display, .touch, .haptic, .audio, .faults, .queues, .jobs, .msiPending, .pair] ⊆ pcs) (hs : OnlyChanges s0 s pcs) :
    OnlyChanges s0 (State.plkReset a s) pcs := by
  unfold State.plkReset
  repeat' first
    | with_reducible assumption
    | with_reducible apply foldl_only
    | with_reducible refine State.recAcc_only _ _ (List.Subset.trans (by decide) hw) ?_
    | with_reducible refine State.resetPage_only _ _ (List.Subset.trans (by decide) hw) ?_
    | with_reducible refine State.pairStop_only  (List.Subset.trans (by decide) hw) ?_
    | with_reducible refine OnlyChanges.snd_of (by with_reducible assumption) ?_
    | with_reducible refine OnlyChanges.thd_of (by with_reducible assumption) ?_
    | intro _
    | split
    | dsimp only

end Sys2Proof.Machine
end

