-- ==== Sys2Proof/Laws/FrameFrame.lean ====
section
/-! SUPPORT. What every operation of Machine/Frame.lean leaves alone. -/

namespace Sys2Proof.Machine

set_option Elab.async false
set_option linter.all false

variable {s0 : State} {pcs : List Piece}

theorem State.enterPower_only {s : State} (st : PowerState) (hw : [.regs, .power] ⊆ pcs) (hs : OnlyChanges s0 s pcs) :
    OnlyChanges s0 (State.enterPower s st) pcs := by
  unfold State.enterPower
  repeat' first
    | with_reducible assumption
    | with_reducible apply foldl_only
    | with_reducible refine State.setFld_only _ _ _ _ (List.Subset.trans (by decide) hw) ?_
    | with_reducible refine State.satFld_only _ _ _ _ (List.Subset.trans (by decide) hw) ?_
    | with_reducible refine OnlyChanges.snd_of (by with_reducible assumption) ?_
    | with_reducible refine OnlyChanges.thd_of (by with_reducible assumption) ?_
    | intro _
    | split
    | dsimp only
    | with_reducible refine OnlyChanges.of_mk ?_ rfl rfl

theorem State.endRequest_only {s : State} (code : Nat) (info : Nat) (hw : [.regs, .out, .power, .msiPending] ⊆ pcs) (hs : OnlyChanges s0 s pcs) :
    OnlyChanges s0 (State.endRequest s code info) pcs := by
  unfold State.endRequest
  repeat' first
    | with_reducible assumption
    | with_reducible apply foldl_only
    | with_reducible refine State.setFld_only _ _ _ _ (List.Subset.trans (by decide) hw) ?_
    | with_reducible refine State.event_only _ _ (List.Subset.trans (by decide) hw) ?_
    | with_reducible refine State.recErr_only _ _ _ (List.Subset.trans (by decide) hw) ?_
    | with_reducible refine OnlyChanges.snd_of (by with_reducible assumption) ?_
    | with_reducible refine OnlyChanges.thd_of (by with_reducible assumption) ?_
    | intro _
    | split
    | dsimp only
    | with_reducible refine OnlyChanges.of_mk ?_ rfl rfl

theorem State.idleCheck_only {s : State} (hw : [.regs, .out, .power, .msiPending] ⊆ pcs) (hs : OnlyChanges s0 s pcs) :
    OnlyChanges s0 (State.idleCheck s) pcs := by
  unfold State.idleCheck
  repeat' first
    | with_reducible assumption
    | with_reducible apply foldl_only
    | with_reducible refine State.enterPower_only _ (List.Subset.trans (by decide) hw) ?_
    | with_reducible refine State.endRequest_only _ _ (List.Subset.trans (by decide) hw) ?_
    | with_reducible refine OnlyChanges.snd_of (by with_reducible assumption) ?_
    | with_reducible refine OnlyChanges.thd_of (by with_reducible assumption) ?_
    | intro _
    | split
    | dsimp only
    | with_reducible refine OnlyChanges.of_mk ?_ rfl rfl

theorem State.restartOutputs_only {s : State} (hw : [.regs, .power, .display] ⊆ pcs) (hs : OnlyChanges s0 s pcs) :
    OnlyChanges s0 (State.restartOutputs s) pcs := by
  unfold State.restartOutputs
  repeat' first
    | with_reducible assumption
    | with_reducible apply foldl_only
    | with_reducible refine State.setFld_only _ _ _ _ (List.Subset.trans (by decide) hw) ?_
    | with_reducible refine State.setDisp_only _ _ (List.Subset.trans (by decide) hw) ?_
    | with_reducible refine OnlyChanges.snd_of (by with_reducible assumption) ?_
    | with_reducible refine OnlyChanges.thd_of (by with_reducible assumption) ?_
    | intro _
    | split
    | dsimp only
    | with_reducible refine OnlyChanges.of_mk ?_ rfl rfl

theorem State.idleExit_only {s : State} (hw : [.regs, .power, .display] ⊆ pcs) (hs : OnlyChanges s0 s pcs) :
    OnlyChanges s0 (State.idleExit s) pcs := by
  unfold State.idleExit
  repeat' first
    | with_reducible assumption
    | with_reducible apply foldl_only
    | with_reducible refine State.enterPower_only _ (List.Subset.trans (by decide) hw) ?_
    | with_reducible refine State.restartOutputs_only  (List.Subset.trans (by decide) hw) ?_
    | with_reducible refine OnlyChanges.snd_of (by with_reducible assumption) ?_
    | with_reducible refine OnlyChanges.thd_of (by with_reducible assumption) ?_
    | intro _
    | split
    | dsimp only
    | with_reducible refine OnlyChanges.of_mk ?_ rfl rfl

theorem State.idleEntry_only {s : State} (hw : [.regs, .out, .power, .msiPending] ⊆ pcs) (hs : OnlyChanges s0 s pcs) :
    OnlyChanges s0 (State.idleEntry s) pcs := by
  unfold State.idleEntry
  repeat' first
    | with_reducible assumption
    | with_reducible apply foldl_only
    | with_reducible refine State.idleCheck_only  (List.Subset.trans (by decide) hw) ?_
    | with_reducible refine OnlyChanges.snd_of (by with_reducible assumption) ?_
    | with_reducible refine OnlyChanges.thd_of (by with_reducible assumption) ?_
    | intro _
    | split
    | dsimp only
    | with_reducible refine OnlyChanges.of_mk ?_ rfl rfl

theorem State.publishFrame_only {s : State} (n : Nat) (hw : [.regs] ⊆ pcs) (hs : OnlyChanges s0 s pcs) :
    OnlyChanges s0 (State.publishFrame s n) pcs := by
  unfold State.publishFrame
  repeat' first
    | with_reducible assumption
    | with_reducible apply foldl_only
    | with_reducible refine State.setFld_only _ _ _ _ (List.Subset.trans (by decide) hw) ?_
    | with_reducible refine State.addFld_only _ _ _ _ (List.Subset.trans (by decide) hw) ?_
    | with_reducible refine OnlyChanges.snd_of (by with_reducible assumption) ?_
    | with_reducible refine OnlyChanges.thd_of (by with_reducible assumption) ?_
    | intro _
    | split
    | dsimp only

theorem State.mirrorStore_only {s : State} (key : Nat) (val : Nat) (hw : [.regs, .shad, .staged, .latched, .out, .display, .msiPending] ⊆ pcs) (hs : OnlyChanges s0 s pcs) :
    OnlyChanges s0 (State.mirrorStore s key val) pcs := by
  unfold State.mirrorStore
  repeat' first
    | with_reducible assumption
    | with_reducible apply foldl_only
    | with_reducible refine State.setFld_only _ _ _ _ (List.Subset.trans (by decide) hw) ?_
    | with_reducible refine State.applyField_only _ _ (List.Subset.trans (by decide) hw) ?_
    | with_reducible refine State.ownerApply_only _ _ (List.Subset.trans (by decide) hw) ?_
    | with_reducible refine State.chkOwnerTaken_only _ (List.Subset.trans (by decide) hw) ?_
    | with_reducible refine State.plainEnable_only _ _ (List.Subset.trans (by decide) hw) ?_
    | with_reducible refine OnlyChanges.snd_of (by with_reducible assumption) ?_
    | with_reducible refine OnlyChanges.thd_of (by with_reducible assumption) ?_
    | intro _
    | split
    | dsimp only

theorem State.takeMirrored_only {s : State} (n : Nat) (seq : Nat) (hw : [.regs, .shad, .staged, .latched, .out, .display, .msiPending, .pair] ⊆ pcs) (hs : OnlyChanges s0 s pcs) :
    OnlyChanges s0 (State.takeMirrored s n seq) pcs := by
  unfold State.takeMirrored
  repeat' first
    | with_reducible assumption
    | with_reducible apply foldl_only
    | with_reducible refine State.mirrorStore_only _ _ (List.Subset.trans (by decide) hw) ?_
    | with_reducible refine OnlyChanges.snd_of (by with_reducible assumption) ?_
    | with_reducible refine OnlyChanges.thd_of (by with_reducible assumption) ?_
    | intro _
    | split
    | dsimp only
    | with_reducible refine OnlyChanges.of_mk ?_ rfl rfl

theorem State.noteEarly_only {s : State} (n : Nat) (hw : [.regs, .faults] ⊆ pcs) (hs : OnlyChanges s0 s pcs) :
    OnlyChanges s0 (State.noteEarly s n) pcs := by
  unfold State.noteEarly
  repeat' first
    | with_reducible assumption
    | with_reducible apply foldl_only
    | with_reducible refine State.setFld_only _ _ _ _ (List.Subset.trans (by decide) hw) ?_
    | with_reducible refine OnlyChanges.snd_of (by with_reducible assumption) ?_
    | with_reducible refine OnlyChanges.thd_of (by with_reducible assumption) ?_
    | intro _
    | split
    | dsimp only
    | with_reducible refine OnlyChanges.of_mk ?_ rfl rfl

theorem State.earlyRefused_only {s : State} (n : Nat) (hw : [.regs, .shad, .mem, .out, .power, .dram, .edac, .chans, .bufs, .plots, .cache, .display, .dpls, .faults, .queues, .jobs, .msiPending, .pair] ⊆ pcs) (hs : OnlyChanges s0 s pcs) :
    OnlyChanges s0 (State.earlyRefused s n) pcs := by
  unfold State.earlyRefused
  repeat' first
    | with_reducible assumption
    | with_reducible apply foldl_only
    | with_reducible refine State.setFld_only _ _ _ _ (List.Subset.trans (by decide) hw) ?_
    | with_reducible refine State.logInfo_only _ _ _ (List.Subset.trans (by decide) hw) ?_
    | with_reducible refine State.destroyChan_only _ _ (List.Subset.trans (by decide) hw) ?_
    | with_reducible refine State.stopNow_only _ (List.Subset.trans (by decide) hw) ?_
    | with_reducible refine State.standStill_only _ (List.Subset.trans (by decide) hw) ?_
    | with_reducible refine OnlyChanges.snd_of (by with_reducible assumption) ?_
    | with_reducible refine OnlyChanges.thd_of (by with_reducible assumption) ?_
    | intro _
    | split
    | dsimp only
    | with_reducible refine OnlyChanges.of_mk ?_ rfl rfl

theorem State.dropContain_only {s : State} (n : Nat) (hw : [.regs, .faults] ⊆ pcs) (hs : OnlyChanges s0 s pcs) :
    OnlyChanges s0 (State.dropContain s n) pcs := by
  unfold State.dropContain
  repeat' first
    | with_reducible assumption
    | with_reducible apply foldl_only
    | with_reducible refine State.setFld_only _ _ _ _ (List.Subset.trans (by decide) hw) ?_
    | with_reducible refine OnlyChanges.snd_of (by with_reducible assumption) ?_
    | with_reducible refine OnlyChanges.thd_of (by with_reducible assumption) ?_
    | intro _
    | split
    | dsimp only
    | with_reducible refine OnlyChanges.of_mk ?_ rfl rfl

theorem State.frameStop_only {s : State} (n : Nat) (keep : Bool) (contained : Bool) (hw : [.regs, .shad, .mem, .out, .power, .dram, .edac, .chans, .bufs, .plots, .cache, .display, .dpls, .faults, .queues, .jobs, .msiPending, .pair] ⊆ pcs) (hs : OnlyChanges s0 s pcs) :
    OnlyChanges s0 (State.frameStop s n keep contained) pcs := by
  unfold State.frameStop
  repeat' first
    | with_reducible assumption
    | with_reducible apply foldl_only
    | with_reducible refine State.setDisp_only _ _ (List.Subset.trans (by decide) hw) ?_
    | with_reducible refine State.lanesIdle_only _ (List.Subset.trans (by decide) hw) ?_
    | with_reducible refine State.enterReplay_only _ _ (List.Subset.trans (by decide) hw) ?_
    | with_reducible refine State.dropRan_only _ (List.Subset.trans (by decide) hw) ?_
    | with_reducible refine State.stopNow_only _ (List.Subset.trans (by decide) hw) ?_
    | with_reducible refine State.idleCheck_only  (List.Subset.trans (by decide) hw) ?_
    | with_reducible refine State.dropContain_only _ (List.Subset.trans (by decide) hw) ?_
    | with_reducible refine OnlyChanges.snd_of (by with_reducible assumption) ?_
    | with_reducible refine OnlyChanges.thd_of (by with_reducible assumption) ?_
    | intro _
    | split
    | dsimp only

theorem State.frameNext_only {s : State} (n : Nat) (seq : Nat) (total : Nat) (hw : [.regs, .shad, .staged, .latched, .mem, .out, .power, .dram, .edac, .chans, .bufs, .plots, .cache, .display, .dpls, .faults, .queues, .jobs, .msiPending, .pair] ⊆ pcs) (hs : OnlyChanges s0 s pcs) :
    OnlyChanges s0 (State.frameNext s n seq total) pcs := by
  unfold State.frameNext
  repeat' first
    | with_reducible assumption
    | with_reducible apply foldl_only
    | with_reducible refine State.latchPoint_only _ _ _ (List.Subset.trans (by decide) hw) ?_
    | with_reducible refine State.videoLatch_only _ (List.Subset.trans (by decide) hw) ?_
    | with_reducible refine State.replayStep_only _ _ _ _ (List.Subset.trans (by decide) hw) ?_
    | with_reducible refine State.takeMirrored_only _ _ (List.Subset.trans (by decide) hw) ?_
    | with_reducible refine State.earlyRefused_only _ (List.Subset.trans (by decide) hw) ?_
    | with_reducible refine OnlyChanges.snd_of (by with_reducible assumption) ?_
    | with_reducible refine OnlyChanges.thd_of (by with_reducible assumption) ?_
    | intro _
    | split
    | dsimp only

theorem State.frameResults_only {s : State} (n : Nat) (hw : [.regs, .out, .display, .faults, .fetchStopped, .msiPending, .pair] ⊆ pcs) (hs : OnlyChanges s0 s pcs) :
    OnlyChanges s0 (State.frameResults s n) pcs := by
  unfold State.frameResults
  repeat' first
    | with_reducible assumption
    | with_reducible apply foldl_only
    | with_reducible refine State.event_only _ _ (List.Subset.trans (by decide) hw) ?_
    | with_reducible refine State.regionFinal_only _ _ (List.Subset.trans (by decide) hw) ?_
    | with_reducible refine State.ownDigest_only _ (List.Subset.trans (by decide) hw) ?_
    | with_reducible refine State.publishFrame_only _ (List.Subset.trans (by decide) hw) ?_
    | with_reducible refine State.noteEarly_only _ (List.Subset.trans (by decide) hw) ?_
    | with_reducible refine OnlyChanges.snd_of (by with_reducible assumption) ?_
    | with_reducible refine OnlyChanges.thd_of (by with_reducible assumption) ?_
    | intro _
    | split
    | dsimp only

theorem State.frameDone_only {s : State} (n : Nat) (hw : [.regs, .shad, .staged, .latched, .mem, .out, .power, .dram, .edac, .chans, .bufs, .plots, .cache, .display, .dpls, .faults, .queues, .jobs, .fetchStopped, .msiPending, .pair] ⊆ pcs) (hs : OnlyChanges s0 s pcs) :
    OnlyChanges s0 (State.frameDone s n) pcs := by
  unfold State.frameDone
  repeat' first
    | with_reducible assumption
    | with_reducible apply foldl_only
    | with_reducible refine State.frameStop_only _ _ _ (List.Subset.trans (by decide) hw) ?_
    | with_reducible refine State.frameNext_only _ _ _ (List.Subset.trans (by decide) hw) ?_
    | with_reducible refine State.frameResults_only _ (List.Subset.trans (by decide) hw) ?_
    | with_reducible refine OnlyChanges.snd_of (by with_reducible assumption) ?_
    | with_reducible refine OnlyChanges.thd_of (by with_reducible assumption) ?_
    | intro _
    | split
    | dsimp only

theorem State.scanOutStarts_only {s : State} (n : Nat) (hw : [.regs, .shad, .mem, .out, .power, .dram, .edac, .chans, .bufs, .plots, .cache, .display, .dpls, .faults, .queues, .jobs, .msiPending, .pair] ⊆ pcs) (hs : OnlyChanges s0 s pcs) :
    OnlyChanges s0 (State.scanOutStarts s n) pcs := by
  unfold State.scanOutStarts
  repeat' first
    | with_reducible assumption
    | with_reducible apply foldl_only
    | with_reducible refine State.applyDecisions_only _ _ _ (List.Subset.trans (by decide) hw) ?_
    | with_reducible refine State.videoLatch_only _ (List.Subset.trans (by decide) hw) ?_
    | with_reducible refine State.exitReplay_only _ (List.Subset.trans (by decide) hw) ?_
    | with_reducible refine State.counterStart_only _ (List.Subset.trans (by decide) hw) ?_
    | with_reducible refine State.earlyRefused_only _ (List.Subset.trans (by decide) hw) ?_
    | with_reducible refine OnlyChanges.snd_of (by with_reducible assumption) ?_
    | with_reducible refine OnlyChanges.thd_of (by with_reducible assumption) ?_
    | intro _
    | split
    | dsimp only
    | with_reducible refine OnlyChanges.of_mk ?_ rfl rfl

theorem State.commitCommand_only (c : CmdArgs) {s : State} (hw : [.regs, .shad, .mem, .out, .power, .dram, .edac, .chans, .bufs, .plots, .cache, .display, .faults, .queues, .jobs, .msiPending, .pair] ⊆ pcs) (hs : OnlyChanges s0 s pcs) :
    OnlyChanges s0 (State.commitCommand c s) pcs := by
  unfold State.commitCommand
  repeat' first
    | with_reducible assumption
    | with_reducible apply foldl_only
    | with_reducible refine State.carryEntry_only _ _ _ (List.Subset.trans (by decide) hw) ?_ ?_
    | with_reducible refine State.carryCommit_only _ (List.Subset.trans (by decide) hw) ?_
    | with_reducible refine State.idleExit_only  (List.Subset.trans (by decide) hw) ?_
    | with_reducible refine OnlyChanges.snd_of (by with_reducible assumption) ?_
    | with_reducible refine OnlyChanges.thd_of (by with_reducible assumption) ?_
    | intro _
    | split
    | dsimp only

end Sys2Proof.Machine
end

