-- ==== Sys2Proof/Laws/FrameUpdate.lean ====
section
/-! SUPPORT. What every operation of Machine/Update.lean leaves alone. -/

namespace Sys2Proof.Machine

set_option Elab.async false
set_option linter.all false

variable {s0 : State} {pcs : List Piece}

theorem State.program_only {s : State} (a : Nat) (x2 : List Nat) (hw : [.update] ⊆ pcs) (hs : OnlyChanges s0 s pcs) :
    OnlyChanges s0 (State.program s a x2) pcs := by
  induction x2 generalizing s a with
  | nil => exact hs
  | cons b r ih =>
    unfold State.program
    dsimp only
    exact ih _ (OnlyChanges.of_mk hs rfl rfl)

theorem State.writeBoot_only {s : State} (r : BootRecord) (hw : [.update] ⊆ pcs) (hs : OnlyChanges s0 s pcs) :
    OnlyChanges s0 (State.writeBoot s r) pcs := by
  unfold State.writeBoot
  repeat' first
    | with_reducible assumption
    | with_reducible apply foldl_only
    | with_reducible refine OnlyChanges.snd_of (by with_reducible assumption) ?_
    | with_reducible refine OnlyChanges.thd_of (by with_reducible assumption) ?_
    | intro _
    | split
    | dsimp only
    | with_reducible refine OnlyChanges.of_mk ?_ rfl rfl

theorem State.updStat_only {s : State} (hw : [.regs] ⊆ pcs) (hs : OnlyChanges s0 s pcs) :
    OnlyChanges s0 (State.updStat s) pcs := by
  unfold State.updStat
  repeat' first
    | with_reducible assumption
    | with_reducible apply foldl_only
    | with_reducible refine State.setFld_only _ _ _ _ (List.Subset.trans (by decide) hw) ?_
    | with_reducible refine OnlyChanges.snd_of (by with_reducible assumption) ?_
    | with_reducible refine OnlyChanges.thd_of (by with_reducible assumption) ?_
    | intro _
    | split
    | dsimp only

theorem State.setUpd_only {s : State} (u : Update) (hw : [.regs, .update] ⊆ pcs) (hs : OnlyChanges s0 s pcs) :
    OnlyChanges s0 (State.setUpd s u) pcs := by
  unfold State.setUpd
  repeat' first
    | with_reducible assumption
    | with_reducible apply foldl_only
    | with_reducible refine State.updStat_only  (List.Subset.trans (by decide) hw) ?_
    | with_reducible refine OnlyChanges.snd_of (by with_reducible assumption) ?_
    | with_reducible refine OnlyChanges.thd_of (by with_reducible assumption) ?_
    | intro _
    | split
    | dsimp only
    | with_reducible refine OnlyChanges.of_mk ?_ rfl rfl

theorem State.closeSession_only {s : State} (hw : [.regs, .update] ⊆ pcs) (hs : OnlyChanges s0 s pcs) :
    OnlyChanges s0 (State.closeSession s) pcs := by
  unfold State.closeSession
  repeat' first
    | with_reducible assumption
    | with_reducible apply foldl_only
    | with_reducible refine State.setUpd_only _ (List.Subset.trans (by decide) hw) ?_
    | with_reducible refine OnlyChanges.snd_of (by with_reducible assumption) ?_
    | with_reducible refine OnlyChanges.thd_of (by with_reducible assumption) ?_
    | intro _
    | split
    | dsimp only

theorem State.loseSession_only {s : State} (hw : [.regs, .out, .update, .msiPending] ⊆ pcs) (hs : OnlyChanges s0 s pcs) :
    OnlyChanges s0 (State.loseSession s) pcs := by
  unfold State.loseSession
  repeat' first
    | with_reducible assumption
    | with_reducible apply foldl_only
    | with_reducible refine State.setFld_only _ _ _ _ (List.Subset.trans (by decide) hw) ?_
    | with_reducible refine State.event_only _ _ (List.Subset.trans (by decide) hw) ?_
    | with_reducible refine State.recErr_only _ _ _ (List.Subset.trans (by decide) hw) ?_
    | with_reducible refine State.closeSession_only  (List.Subset.trans (by decide) hw) ?_
    | with_reducible refine OnlyChanges.snd_of (by with_reducible assumption) ?_
    | with_reducible refine OnlyChanges.thd_of (by with_reducible assumption) ?_
    | intro _
    | split
    | dsimp only
    | with_reducible refine OnlyChanges.of_mk ?_ rfl rfl

theorem State.updFnReset_only {s : State} (fn : Nat) (hw : [.regs, .out, .update, .msiPending] ⊆ pcs) (hs : OnlyChanges s0 s pcs) :
    OnlyChanges s0 (State.updFnReset s fn) pcs := by
  unfold State.updFnReset
  repeat' first
    | with_reducible assumption
    | with_reducible apply foldl_only
    | with_reducible refine State.loseSession_only  (List.Subset.trans (by decide) hw) ?_
    | with_reducible refine OnlyChanges.snd_of (by with_reducible assumption) ?_
    | with_reducible refine OnlyChanges.thd_of (by with_reducible assumption) ?_
    | intro _
    | split
    | dsimp only

theorem State.burnFuse_only {s : State} (kind : Nat) (svn : Nat) (hw : [.update] ⊆ pcs) (hs : OnlyChanges s0 s pcs) :
    OnlyChanges s0 (State.burnFuse s kind svn) pcs := by
  unfold State.burnFuse
  repeat' first
    | with_reducible assumption
    | with_reducible apply foldl_only
    | with_reducible refine OnlyChanges.snd_of (by with_reducible assumption) ?_
    | with_reducible refine OnlyChanges.thd_of (by with_reducible assumption) ?_
    | intro _
    | split
    | dsimp only
    | with_reducible refine OnlyChanges.of_mk ?_ rfl rfl

theorem State.settleBoot_only {s : State} (kind : Nat) (loc : Nat) (hw : [.update] ⊆ pcs) (hs : OnlyChanges s0 s pcs) :
    OnlyChanges s0 (State.settleBoot s kind loc) pcs := by
  unfold State.settleBoot
  repeat' first
    | with_reducible assumption
    | with_reducible apply foldl_only
    | with_reducible refine State.writeBoot_only _ (List.Subset.trans (by decide) hw) ?_
    | with_reducible refine OnlyChanges.snd_of (by with_reducible assumption) ?_
    | with_reducible refine OnlyChanges.thd_of (by with_reducible assumption) ?_
    | intro _
    | split
    | dsimp only

theorem State.confirmImage_only {s : State} (kind : Nat) (loc : Nat) (hw : [.regs, .out, .update, .faults, .msiPending] ⊆ pcs) (hs : OnlyChanges s0 s pcs) :
    OnlyChanges s0 (State.confirmImage s kind loc) pcs := by
  unfold State.confirmImage
  repeat' first
    | with_reducible assumption
    | with_reducible apply foldl_only
    | with_reducible refine State.event_only _ _ (List.Subset.trans (by decide) hw) ?_
    | with_reducible refine State.logInfo_only _ _ _ (List.Subset.trans (by decide) hw) ?_
    | with_reducible refine State.burnFuse_only _ _ (List.Subset.trans (by decide) hw) ?_
    | with_reducible refine State.settleBoot_only _ _ (List.Subset.trans (by decide) hw) ?_
    | with_reducible refine OnlyChanges.snd_of (by with_reducible assumption) ?_
    | with_reducible refine OnlyChanges.thd_of (by with_reducible assumption) ?_
    | intro _
    | split
    | dsimp only
    | with_reducible refine OnlyChanges.of_mk ?_ rfl rfl

theorem State.revertImage_only {s : State} (kind : Nat) (reason : Nat) (hw : [.regs, .out, .update, .faults, .msiPending] ⊆ pcs) (hs : OnlyChanges s0 s pcs) :
    OnlyChanges s0 (State.revertImage s kind reason) pcs := by
  unfold State.revertImage
  repeat' first
    | with_reducible assumption
    | with_reducible apply foldl_only
    | with_reducible refine State.event_only _ _ (List.Subset.trans (by decide) hw) ?_
    | with_reducible refine State.recErr_only _ _ _ (List.Subset.trans (by decide) hw) ?_
    | with_reducible refine State.logInfo_only _ _ _ (List.Subset.trans (by decide) hw) ?_
    | with_reducible refine State.settleBoot_only _ _ (List.Subset.trans (by decide) hw) ?_
    | with_reducible refine OnlyChanges.snd_of (by with_reducible assumption) ?_
    | with_reducible refine OnlyChanges.thd_of (by with_reducible assumption) ?_
    | intro _
    | split
    | dsimp only
    | with_reducible refine OnlyChanges.of_mk ?_ rfl rfl

theorem State.trialConfirmed_only {s : State} (hw : [.regs, .out, .update, .faults, .msiPending] ⊆ pcs) (hs : OnlyChanges s0 s pcs) :
    OnlyChanges s0 (State.trialConfirmed s) pcs := by
  unfold State.trialConfirmed
  repeat' first
    | with_reducible assumption
    | with_reducible apply foldl_only
    | with_reducible refine State.confirmImage_only _ _ (List.Subset.trans (by decide) hw) ?_
    | with_reducible refine OnlyChanges.snd_of (by with_reducible assumption) ?_
    | with_reducible refine OnlyChanges.thd_of (by with_reducible assumption) ?_
    | intro _
    | split
    | dsimp only

theorem State.trialTimeout_only {s : State} (hw : [.regs, .shad, .loaded, .staged, .latched, .softResetting, .mem, .time, .power, .dram, .edac, .chans, .bufs, .plots, .fillQueue, .peak, .cache, .ingest, .display, .dpls, .cvus, .touch, .haptic, .audio, .age, .update, .faults, .worlds, .queues, .fns, .jobs, .coreEntries, .fetchStopped, .arbiter, .unmasked, .msiPending, .pair] ⊆ pcs) (hs : OnlyChanges s0 s pcs) :
    OnlyChanges s0 (State.trialTimeout s) pcs := by
  unfold State.trialTimeout
  repeat' first
    | with_reducible assumption
    | with_reducible apply foldl_only
    | with_reducible refine State.deviceReset_only _ (List.Subset.trans (by decide) hw) ?_
    | with_reducible refine OnlyChanges.snd_of (by with_reducible assumption) ?_
    | with_reducible refine OnlyChanges.thd_of (by with_reducible assumption) ?_
    | intro _
    | split
    | dsimp only
    | with_reducible refine OnlyChanges.of_mk ?_ rfl rfl

theorem State.updCmdWrite_only (a : RegAcc) {s : State} (hw : [.regs, .out, .update, .msiPending] ⊆ pcs) (hs : OnlyChanges s0 s pcs) :
    OnlyChanges s0 (State.updCmdWrite a s) pcs := by
  unfold State.updCmdWrite
  repeat' first
    | with_reducible assumption
    | with_reducible apply foldl_only
    | with_reducible refine State.recErr_only _ _ _ (List.Subset.trans (by decide) hw) ?_
    | with_reducible refine State.recAcc_only _ _ (List.Subset.trans (by decide) hw) ?_
    | with_reducible refine State.recRefused_only _ (List.Subset.trans (by decide) hw) ?_
    | with_reducible refine State.setUpd_only _ (List.Subset.trans (by decide) hw) ?_
    | with_reducible refine OnlyChanges.snd_of (by with_reducible assumption) ?_
    | with_reducible refine OnlyChanges.thd_of (by with_reducible assumption) ?_
    | intro _
    | split
    | dsimp only

theorem State.stage_only {s : State} (r : UpdRun) (hw : [.regs, .mem, .out, .edac, .cache, .update, .faults, .msiPending] ⊆ pcs) (hs : OnlyChanges s0 s pcs) :
    OnlyChanges s0 (State.stage s r).2 pcs := by
  unfold State.stage
  repeat' first
    | with_reducible assumption
    | with_reducible apply foldl_only
    | with_reducible refine State.readBuf_only _ _ _ _ (List.Subset.trans (by decide) hw) ?_
    | with_reducible refine State.program_only _ _ (List.Subset.trans (by decide) hw) ?_
    | with_reducible refine State.setUpd_only _ (List.Subset.trans (by decide) hw) ?_
    | with_reducible refine OnlyChanges.snd_of (by with_reducible assumption) ?_
    | with_reducible refine OnlyChanges.thd_of (by with_reducible assumption) ?_
    | intro _
    | split
    | dsimp only

theorem State.activate_only {s : State} (r : UpdRun) (hw : [.regs, .update] ⊆ pcs) (hs : OnlyChanges s0 s pcs) :
    OnlyChanges s0 (State.activate s r) pcs := by
  unfold State.activate
  repeat' first
    | with_reducible assumption
    | with_reducible apply foldl_only
    | with_reducible refine State.writeBoot_only _ (List.Subset.trans (by decide) hw) ?_
    | with_reducible refine State.setUpd_only _ (List.Subset.trans (by decide) hw) ?_
    | with_reducible refine OnlyChanges.snd_of (by with_reducible assumption) ?_
    | with_reducible refine OnlyChanges.thd_of (by with_reducible assumption) ?_
    | intro _
    | split
    | dsimp only

theorem State.abortSession_only {s : State} (hw : [.regs, .update] ⊆ pcs) (hs : OnlyChanges s0 s pcs) :
    OnlyChanges s0 (State.abortSession s) pcs := by
  unfold State.abortSession
  repeat' first
    | with_reducible assumption
    | with_reducible apply foldl_only
    | with_reducible refine State.closeSession_only  (List.Subset.trans (by decide) hw) ?_
    | with_reducible refine State.settleBoot_only _ _ (List.Subset.trans (by decide) hw) ?_
    | with_reducible refine OnlyChanges.snd_of (by with_reducible assumption) ?_
    | with_reducible refine OnlyChanges.thd_of (by with_reducible assumption) ?_
    | intro _
    | split
    | dsimp only

theorem State.updCmdDone_only {s : State} (genuine : Bool) (hw : [.regs, .shad, .loaded, .staged, .latched, .softResetting, .mem, .out, .time, .power, .dram, .edac, .chans, .bufs, .plots, .fillQueue, .peak, .cache, .ingest, .display, .dpls, .cvus, .touch, .haptic, .audio, .age, .update, .faults, .worlds, .queues, .fns, .jobs, .coreEntries, .fetchStopped, .arbiter, .unmasked, .msiPending, .pair] ⊆ pcs) (hs : OnlyChanges s0 s pcs) :
    OnlyChanges s0 (State.updCmdDone s genuine) pcs := by
  unfold State.updCmdDone
  repeat' first
    | with_reducible assumption
    | with_reducible apply foldl_only
    | with_reducible refine State.setFld_only _ _ _ _ (List.Subset.trans (by decide) hw) ?_
    | with_reducible refine State.event_only _ _ (List.Subset.trans (by decide) hw) ?_
    | with_reducible refine State.recErr_only _ _ _ (List.Subset.trans (by decide) hw) ?_
    | with_reducible refine State.deviceReset_only _ (List.Subset.trans (by decide) hw) ?_
    | with_reducible refine State.updStat_only  (List.Subset.trans (by decide) hw) ?_
    | with_reducible refine State.setUpd_only _ (List.Subset.trans (by decide) hw) ?_
    | with_reducible refine State.closeSession_only  (List.Subset.trans (by decide) hw) ?_
    | with_reducible refine State.stage_only _ (List.Subset.trans (by decide) hw) ?_
    | with_reducible refine State.activate_only _ (List.Subset.trans (by decide) hw) ?_
    | with_reducible refine State.abortSession_only  (List.Subset.trans (by decide) hw) ?_
    | with_reducible refine OnlyChanges.snd_of (by with_reducible assumption) ?_
    | with_reducible refine OnlyChanges.thd_of (by with_reducible assumption) ?_
    | intro _
    | split
    | dsimp only
    | with_reducible refine OnlyChanges.of_mk ?_ rfl rfl

theorem State.updLockWrite_only (a : RegAcc) {s : State} (hw : [.regs, .shad, .out, .msiPending] ⊆ pcs) (hs : OnlyChanges s0 s pcs) :
    OnlyChanges s0 (State.updLockWrite a s) pcs := by
  unfold State.updLockWrite
  repeat' first
    | with_reducible assumption
    | with_reducible apply foldl_only
    | with_reducible refine State.setFld_only _ _ _ _ (List.Subset.trans (by decide) hw) ?_
    | with_reducible refine State.plainWrite_only _ _ (List.Subset.trans (by decide) hw) ?_
    | with_reducible refine OnlyChanges.snd_of (by with_reducible assumption) ?_
    | with_reducible refine OnlyChanges.thd_of (by with_reducible assumption) ?_
    | intro _
    | split
    | dsimp only

theorem State.sessionTimeout_only {s : State} (hw : [.regs, .out, .update, .msiPending] ⊆ pcs) (hs : OnlyChanges s0 s pcs) :
    OnlyChanges s0 (State.sessionTimeout s) pcs := by
  unfold State.sessionTimeout
  repeat' first
    | with_reducible assumption
    | with_reducible apply foldl_only
    | with_reducible refine State.loseSession_only  (List.Subset.trans (by decide) hw) ?_
    | with_reducible refine OnlyChanges.snd_of (by with_reducible assumption) ?_
    | with_reducible refine OnlyChanges.thd_of (by with_reducible assumption) ?_
    | intro _
    | split
    | dsimp only

theorem State.loadTarget_only {s : State} (t : Nat) (hw : [.regs, .mem, .out, .edac, .bufs, .cache, .touch, .audio, .faults, .msiPending, .pair] ⊆ pcs) (hs : OnlyChanges s0 s pcs) :
    OnlyChanges s0 (State.loadTarget s t) pcs := by
  unfold State.loadTarget
  repeat' first
    | with_reducible assumption
    | with_reducible apply foldl_only
    | with_reducible refine State.panelStart_only _ _ (List.Subset.trans (by decide) hw) ?_
    | with_reducible refine State.panelStopped_only _ _ (List.Subset.trans (by decide) hw) ?_
    | with_reducible refine OnlyChanges.snd_of (by with_reducible assumption) ?_
    | with_reducible refine OnlyChanges.thd_of (by with_reducible assumption) ?_
    | intro _
    | split
    | dsimp only
    | with_reducible refine OnlyChanges.of_mk ?_ rfl rfl

theorem State.beginTarget_only {s : State} (t : Nat) (hw : [.regs, .audio, .update] ⊆ pcs) (hs : OnlyChanges s0 s pcs) :
    OnlyChanges s0 (State.beginTarget s t) pcs := by
  unfold State.beginTarget
  repeat' first
    | with_reducible assumption
    | with_reducible apply foldl_only
    | with_reducible refine State.endStreams_only  (List.Subset.trans (by decide) hw) ?_
    | with_reducible refine OnlyChanges.snd_of (by with_reducible assumption) ?_
    | with_reducible refine OnlyChanges.thd_of (by with_reducible assumption) ?_
    | intro _
    | split
    | dsimp only
    | with_reducible refine OnlyChanges.of_mk ?_ rfl rfl

theorem State.microLoad_only {s0 : State} (ok : Bool) (hw : [.regs, .loaded, .mem, .out, .edac, .bufs, .cache, .touch, .audio, .update, .faults, .msiPending, .pair] ⊆ pcs) (hs0 : OnlyChanges s0 s0 pcs) :
    OnlyChanges s0 (State.microLoad s0 ok) pcs := by
  unfold State.microLoad
  repeat' first
    | with_reducible assumption
    | with_reducible apply foldl_only
    | with_reducible refine State.setLoaded_only _ _ (List.Subset.trans (by decide) hw) ?_
    | with_reducible refine State.closeSession_only  (List.Subset.trans (by decide) hw) ?_
    | with_reducible refine State.confirmImage_only _ _ (List.Subset.trans (by decide) hw) ?_
    | with_reducible refine State.revertImage_only _ _ (List.Subset.trans (by decide) hw) ?_
    | with_reducible refine State.loadTarget_only _ (List.Subset.trans (by decide) hw) ?_
    | with_reducible refine State.beginTarget_only _ (List.Subset.trans (by decide) hw) ?_
    | with_reducible refine OnlyChanges.snd_of (by with_reducible assumption) ?_
    | with_reducible refine OnlyChanges.thd_of (by with_reducible assumption) ?_
    | intro _
    | split
    | dsimp only
    | with_reducible refine OnlyChanges.of_mk ?_ rfl rfl

theorem State.handoverReadyRestart_only {s : State} (x1 : FlitHdr) (hw : [.regs, .shad, .loaded, .staged, .latched, .softResetting, .mem, .out, .free, .time, .power, .dram, .edac, .chans, .bufs, .plots, .fillQueue, .peak, .cache, .ingest, .display, .dpls, .cvus, .touch, .haptic, .audio, .age, .update, .faults, .worlds, .queues, .fns, .jobs, .coreEntries, .fetchStopped, .arbiter, .unmasked, .msiPending, .pair] ⊆ pcs) (hs : OnlyChanges s0 s pcs) :
    OnlyChanges s0 (State.handoverReadyRestart s x1) pcs := by
  unfold State.handoverReadyRestart
  repeat' first
    | with_reducible assumption
    | with_reducible apply foldl_only
    | with_reducible refine State.accept_only _ _ (List.Subset.trans (by decide) hw) ?_ ?_
    | with_reducible refine State.handoverReady_only  (List.Subset.trans (by decide) hw) ?_
    | with_reducible refine State.deviceReset_only _ (List.Subset.trans (by decide) hw) ?_
    | with_reducible refine OnlyChanges.snd_of (by with_reducible assumption) ?_
    | with_reducible refine OnlyChanges.thd_of (by with_reducible assumption) ?_
    | intro _
    | split
    | dsimp only

end Sys2Proof.Machine
end

