-- ==== Sys2Proof/Laws/FrameFnReset.lean ====
section
/-! SUPPORT. What every operation of Machine/FnReset.lean leaves alone. -/

namespace Sys2Proof.Machine

set_option Elab.async false
set_option linter.all false

variable {s0 : State} {pcs : List Piece}

theorem State.showFn_only {s : State} (f : Nat) (hw : [.regs] ⊆ pcs) (hs : OnlyChanges s0 s pcs) :
    OnlyChanges s0 (State.showFn s f) pcs := by
  unfold State.showFn
  repeat' first
    | with_reducible assumption
    | with_reducible apply foldl_only
    | with_reducible refine State.setFld_only _ _ _ _ (List.Subset.trans (by decide) hw) ?_
    | with_reducible refine OnlyChanges.snd_of (by with_reducible assumption) ?_
    | with_reducible refine OnlyChanges.thd_of (by with_reducible assumption) ?_
    | intro _
    | split
    | dsimp only

theorem State.idleQueues_only {s : State} (f : Nat) (hw : [.regs, .queues] ⊆ pcs) (hs : OnlyChanges s0 s pcs) :
    OnlyChanges s0 (State.idleQueues s f) pcs := by
  unfold State.idleQueues
  repeat' first
    | with_reducible assumption
    | with_reducible apply foldl_only
    | with_reducible refine State.setFld_only _ _ _ _ (List.Subset.trans (by decide) hw) ?_
    | with_reducible refine State.setQueue_only _ _ _ (List.Subset.trans (by decide) hw) ?_
    | with_reducible refine OnlyChanges.snd_of (by with_reducible assumption) ?_
    | with_reducible refine OnlyChanges.thd_of (by with_reducible assumption) ?_
    | intro _
    | split
    | dsimp only

theorem State.resetVfPage_only {s : State} (f : Nat) (hw : [.regs, .shad, .faults] ⊆ pcs) (hs : OnlyChanges s0 s pcs) :
    OnlyChanges s0 (State.resetVfPage s f) pcs := by
  unfold State.resetVfPage
  repeat' first
    | with_reducible assumption
    | with_reducible apply foldl_only
    | with_reducible refine State.resetPage_only _ _ (List.Subset.trans (by decide) hw) ?_
    | with_reducible refine OnlyChanges.snd_of (by with_reducible assumption) ?_
    | with_reducible refine OnlyChanges.thd_of (by with_reducible assumption) ?_
    | intro _
    | split
    | dsimp only

theorem State.resetQueueRegs_only {s : State} (f : Nat) (hw : [.regs] ⊆ pcs) (hs : OnlyChanges s0 s pcs) :
    OnlyChanges s0 (State.resetQueueRegs s f) pcs := by
  unfold State.resetQueueRegs
  repeat' first
    | with_reducible assumption
    | with_reducible apply foldl_only
    | with_reducible refine OnlyChanges.snd_of (by with_reducible assumption) ?_
    | with_reducible refine OnlyChanges.thd_of (by with_reducible assumption) ?_
    | intro _
    | split
    | dsimp only
    | with_reducible refine OnlyChanges.of_mk ?_ rfl rfl

theorem State.enableFn_only {s : State} (f : Nat) (hw : [.regs, .shad, .out, .faults, .queues, .fns, .msiPending] ⊆ pcs) (hs : OnlyChanges s0 s pcs) :
    OnlyChanges s0 (State.enableFn s f) pcs := by
  unfold State.enableFn
  repeat' first
    | with_reducible assumption
    | with_reducible apply foldl_only
    | with_reducible refine State.event_only _ _ (List.Subset.trans (by decide) hw) ?_
    | with_reducible refine State.setFn_only _ _ (List.Subset.trans (by decide) hw) ?_
    | with_reducible refine State.showFn_only _ (List.Subset.trans (by decide) hw) ?_
    | with_reducible refine State.idleQueues_only _ (List.Subset.trans (by decide) hw) ?_
    | with_reducible refine State.resetVfPage_only _ (List.Subset.trans (by decide) hw) ?_
    | with_reducible refine State.resetQueueRegs_only _ (List.Subset.trans (by decide) hw) ?_
    | with_reducible refine OnlyChanges.snd_of (by with_reducible assumption) ?_
    | with_reducible refine OnlyChanges.thd_of (by with_reducible assumption) ?_
    | intro _
    | split
    | dsimp only

theorem State.squashFn_only {s : State} (f : Nat) (hw : [.regs, .shad, .mem, .out, .dram, .edac, .chans, .bufs, .plots, .cache, .ingest, .display, .cvus, .haptic, .audio, .faults, .queues, .jobs, .msiPending, .pair] ⊆ pcs) (hs : OnlyChanges s0 s pcs) :
    OnlyChanges s0 (State.squashFn s f) pcs := by
  unfold State.squashFn
  repeat' first
    | with_reducible assumption
    | with_reducible apply foldl_only
    | with_reducible refine State.dropFnCommits_only _ (List.Subset.trans (by decide) hw) ?_
    | with_reducible refine State.ingSquash_only _ _ _ (List.Subset.trans (by decide) hw) ?_
    | with_reducible refine State.cvuSquash_only _ _ _ (List.Subset.trans (by decide) hw) ?_
    | with_reducible refine State.hapResetFn_only _ (List.Subset.trans (by decide) hw) ?_
    | with_reducible refine State.audResetFn_only _ (List.Subset.trans (by decide) hw) ?_
    | with_reducible refine OnlyChanges.snd_of (by with_reducible assumption) ?_
    | with_reducible refine OnlyChanges.thd_of (by with_reducible assumption) ?_
    | intro _
    | split
    | dsimp only

theorem State.forgetJobs_only {s : State} (f : Nat) (hw : [.queues, .jobs] ⊆ pcs) (hs : OnlyChanges s0 s pcs) :
    OnlyChanges s0 (State.forgetJobs s f) pcs := by
  unfold State.forgetJobs
  repeat' first
    | with_reducible assumption
    | with_reducible apply foldl_only
    | with_reducible refine State.setQueue_only _ _ _ (List.Subset.trans (by decide) hw) ?_
    | with_reducible refine State.keepJobs_only _ (List.Subset.trans (by decide) hw) ?_
    | with_reducible refine OnlyChanges.snd_of (by with_reducible assumption) ?_
    | with_reducible refine OnlyChanges.thd_of (by with_reducible assumption) ?_
    | intro _
    | split
    | dsimp only

theorem State.forgetOwed_only {s : State} (f : Nat) (hw : [.jobs] ⊆ pcs) (hs : OnlyChanges s0 s pcs) :
    OnlyChanges s0 (State.forgetOwed s f) pcs := by
  unfold State.forgetOwed
  repeat' first
    | with_reducible assumption
    | with_reducible apply foldl_only
    | with_reducible refine State.keepJobs_only _ (List.Subset.trans (by decide) hw) ?_
    | with_reducible refine OnlyChanges.snd_of (by with_reducible assumption) ?_
    | with_reducible refine OnlyChanges.thd_of (by with_reducible assumption) ?_
    | intro _
    | split
    | dsimp only

theorem State.startReset_only {s : State} (f : Nat) (cause : Nat) (bus : Bool) (hpPage : Bool) (jid : Option Nat) (hw : [.regs, .shad, .mem, .out, .dram, .edac, .chans, .bufs, .plots, .cache, .ingest, .display, .cvus, .haptic, .audio, .update, .faults, .queues, .fns, .jobs, .msiPending, .pair] ⊆ pcs) (hs : OnlyChanges s0 s pcs) :
    OnlyChanges s0 (State.startReset s f cause bus hpPage jid) pcs := by
  unfold State.startReset
  repeat' first
    | with_reducible assumption
    | with_reducible apply foldl_only
    | with_reducible refine State.event_only _ _ (List.Subset.trans (by decide) hw) ?_
    | with_reducible refine State.setFn_only _ _ (List.Subset.trans (by decide) hw) ?_
    | with_reducible refine State.updFnReset_only _ (List.Subset.trans (by decide) hw) ?_
    | with_reducible refine State.showFn_only _ (List.Subset.trans (by decide) hw) ?_
    | with_reducible refine State.squashFn_only _ (List.Subset.trans (by decide) hw) ?_
    | with_reducible refine State.forgetJobs_only _ (List.Subset.trans (by decide) hw) ?_
    | with_reducible refine State.forgetOwed_only _ (List.Subset.trans (by decide) hw) ?_
    | with_reducible refine OnlyChanges.snd_of (by with_reducible assumption) ?_
    | with_reducible refine OnlyChanges.thd_of (by with_reducible assumption) ?_
    | intro _
    | split
    | dsimp only

theorem State.carryFnReset_only (j : Job) {s : State} (hw : [.regs, .shad, .mem, .out, .dram, .edac, .chans, .bufs, .plots, .cache, .ingest, .display, .cvus, .haptic, .audio, .update, .faults, .queues, .fns, .jobs, .msiPending, .pair] ⊆ pcs) (hs : OnlyChanges s0 s pcs) :
    OnlyChanges s0 (State.carryFnReset j s) pcs := by
  unfold State.carryFnReset
  repeat' first
    | with_reducible assumption
    | with_reducible apply foldl_only
    | with_reducible refine State.complete_only _ _ _ (List.Subset.trans (by decide) hw) ?_
    | with_reducible refine State.startReset_only _ _ _ _ _ (List.Subset.trans (by decide) hw) ?_
    | with_reducible refine OnlyChanges.snd_of (by with_reducible assumption) ?_
    | with_reducible refine OnlyChanges.thd_of (by with_reducible assumption) ?_
    | intro _
    | split
    | dsimp only

theorem State.clearVfEnable_only {s : State} (x1 : Nat) (hw : [.regs, .shad, .mem, .out, .dram, .edac, .chans, .bufs, .plots, .cache, .ingest, .display, .cvus, .haptic, .audio, .update, .faults, .queues, .fns, .jobs, .msiPending, .pair] ⊆ pcs) (hs : OnlyChanges s0 s pcs) :
    OnlyChanges s0 (State.clearVfEnable s x1) pcs := by
  unfold State.clearVfEnable
  repeat' first
    | with_reducible assumption
    | with_reducible apply foldl_only
    | with_reducible refine State.setFld_only _ _ _ _ (List.Subset.trans (by decide) hw) ?_
    | with_reducible refine State.startReset_only _ _ _ _ _ (List.Subset.trans (by decide) hw) ?_
    | with_reducible refine OnlyChanges.snd_of (by with_reducible assumption) ?_
    | with_reducible refine OnlyChanges.thd_of (by with_reducible assumption) ?_
    | intro _
    | split
    | dsimp only

theorem State.flr_only {s : State} (f : Nat) (hw : [.regs, .shad, .mem, .out, .dram, .edac, .chans, .bufs, .plots, .cache, .ingest, .display, .cvus, .haptic, .audio, .update, .faults, .queues, .fns, .jobs, .msiPending, .pair] ⊆ pcs) (hs : OnlyChanges s0 s pcs) :
    OnlyChanges s0 (State.flr s f) pcs := by
  unfold State.flr
  repeat' first
    | with_reducible assumption
    | with_reducible apply foldl_only
    | with_reducible refine State.startReset_only _ _ _ _ _ (List.Subset.trans (by decide) hw) ?_
    | with_reducible refine State.clearVfEnable_only _ (List.Subset.trans (by decide) hw) ?_
    | with_reducible refine OnlyChanges.snd_of (by with_reducible assumption) ?_
    | with_reducible refine OnlyChanges.thd_of (by with_reducible assumption) ?_
    | intro _
    | split
    | dsimp only

theorem State.setVfEnable_only {s : State} (x1 : Nat) (n : Nat) (hw : [.regs, .shad, .out, .faults, .queues, .fns, .msiPending] ⊆ pcs) (hs : OnlyChanges s0 s pcs) :
    OnlyChanges s0 (State.setVfEnable s x1 n) pcs := by
  unfold State.setVfEnable
  repeat' first
    | with_reducible assumption
    | with_reducible apply foldl_only
    | with_reducible refine State.setFld_only _ _ _ _ (List.Subset.trans (by decide) hw) ?_
    | with_reducible refine State.enableFn_only _ (List.Subset.trans (by decide) hw) ?_
    | with_reducible refine OnlyChanges.snd_of (by with_reducible assumption) ?_
    | with_reducible refine OnlyChanges.thd_of (by with_reducible assumption) ?_
    | intro _
    | split
    | dsimp only

theorem State.dropAllocs_only {s : State} (f : Nat) (hw : [.bufs] ⊆ pcs) (hs : OnlyChanges s0 s pcs) :
    OnlyChanges s0 (State.dropAllocs s f) pcs := by
  unfold State.dropAllocs
  repeat' first
    | with_reducible assumption
    | with_reducible apply foldl_only
    | with_reducible refine State.setBuf_only _ _ (List.Subset.trans (by decide) hw) ?_
    | with_reducible refine OnlyChanges.snd_of (by with_reducible assumption) ?_
    | with_reducible refine OnlyChanges.thd_of (by with_reducible assumption) ?_
    | intro _
    | split
    | dsimp only

theorem State.destroyFnChans_only {s : State} (f : Nat) (hw : [.regs, .mem, .out, .chans, .bufs, .plots, .cache, .msiPending, .pair] ⊆ pcs) (hs : OnlyChanges s0 s pcs) :
    OnlyChanges s0 (State.destroyFnChans s f) pcs := by
  unfold State.destroyFnChans
  repeat' first
    | with_reducible assumption
    | with_reducible apply foldl_only
    | with_reducible refine State.mirror_only _ (List.Subset.trans (by decide) hw) ?_
    | with_reducible refine State.destroyChan_only _ _ (List.Subset.trans (by decide) hw) ?_
    | with_reducible refine State.dropAllocs_only _ (List.Subset.trans (by decide) hw) ?_
    | with_reducible refine OnlyChanges.snd_of (by with_reducible assumption) ?_
    | with_reducible refine OnlyChanges.thd_of (by with_reducible assumption) ?_
    | intro _
    | split
    | dsimp only

theorem State.releaseFnSlots_only {s : State} (f : Nat) (hw : [.regs, .shad, .mem, .out, .dram, .edac, .chans, .bufs, .plots, .cache, .display, .faults, .queues, .jobs, .msiPending, .pair] ⊆ pcs) (hs : OnlyChanges s0 s pcs) :
    OnlyChanges s0 (State.releaseFnSlots s f) pcs := by
  unfold State.releaseFnSlots
  repeat' first
    | with_reducible assumption
    | with_reducible apply foldl_only
    | with_reducible refine State.releaseSlot_only _ _ (List.Subset.trans (by decide) hw) ?_
    | with_reducible refine OnlyChanges.snd_of (by with_reducible assumption) ?_
    | with_reducible refine OnlyChanges.thd_of (by with_reducible assumption) ?_
    | intro _
    | split
    | dsimp only
    | with_reducible refine OnlyChanges.of_mk ?_ rfl rfl

theorem State.poolStep_only {s : State} (f : Nat) (hw : [.regs, .shad, .mem, .out, .dram, .edac, .chans, .bufs, .plots, .cache, .display, .faults, .queues, .fns, .jobs, .msiPending, .pair] ⊆ pcs) (hs : OnlyChanges s0 s pcs) :
    OnlyChanges s0 (State.poolStep s f) pcs := by
  unfold State.poolStep
  repeat' first
    | with_reducible assumption
    | with_reducible apply foldl_only
    | with_reducible refine State.event_only _ _ (List.Subset.trans (by decide) hw) ?_
    | with_reducible refine State.setFn_only _ _ (List.Subset.trans (by decide) hw) ?_
    | with_reducible refine State.destroyFnChans_only _ (List.Subset.trans (by decide) hw) ?_
    | with_reducible refine State.releaseFnSlots_only _ (List.Subset.trans (by decide) hw) ?_
    | with_reducible refine OnlyChanges.snd_of (by with_reducible assumption) ?_
    | with_reducible refine OnlyChanges.thd_of (by with_reducible assumption) ?_
    | intro _
    | split
    | dsimp only

theorem State.queueStep_only {s : State} (f : Nat) (hw : [.regs, .shad, .softResetting, .out, .faults, .queues, .fns, .jobs, .unmasked, .msiPending] ⊆ pcs) (hs : OnlyChanges s0 s pcs) :
    OnlyChanges s0 (State.queueStep s f) pcs := by
  unfold State.queueStep
  repeat' first
    | with_reducible assumption
    | with_reducible apply foldl_only
    | with_reducible refine State.event_only _ _ (List.Subset.trans (by decide) hw) ?_
    | with_reducible refine State.post_only _ _ _ _ _ _ _ (List.Subset.trans (by decide) hw) ?_
    | with_reducible refine State.complete_only _ _ _ (List.Subset.trans (by decide) hw) ?_
    | with_reducible refine State.resetPage_only _ _ (List.Subset.trans (by decide) hw) ?_
    | with_reducible refine State.setFn_only _ _ (List.Subset.trans (by decide) hw) ?_
    | with_reducible refine State.deliverPending_only _ (List.Subset.trans (by decide) hw) ?_
    | with_reducible refine State.showFn_only _ (List.Subset.trans (by decide) hw) ?_
    | with_reducible refine State.idleQueues_only _ (List.Subset.trans (by decide) hw) ?_
    | with_reducible refine State.resetVfPage_only _ (List.Subset.trans (by decide) hw) ?_
    | with_reducible refine State.forgetJobs_only _ (List.Subset.trans (by decide) hw) ?_
    | with_reducible refine OnlyChanges.snd_of (by with_reducible assumption) ?_
    | with_reducible refine OnlyChanges.thd_of (by with_reducible assumption) ?_
    | intro _
    | split
    | dsimp only
    | with_reducible refine OnlyChanges.of_mk ?_ rfl rfl

theorem State.hpReset_only (x0 : Nat) {s : State} (hw : [.regs, .shad, .softResetting, .mem, .out, .dram, .edac, .chans, .bufs, .plots, .cache, .ingest, .display, .cvus, .haptic, .audio, .update, .faults, .queues, .fns, .jobs, .msiPending, .pair] ⊆ pcs) (hs : OnlyChanges s0 s pcs) :
    OnlyChanges s0 (State.hpReset x0 s) pcs := by
  unfold State.hpReset
  repeat' first
    | with_reducible assumption
    | with_reducible apply foldl_only
    | with_reducible refine State.resetPage_only _ _ (List.Subset.trans (by decide) hw) ?_
    | with_reducible refine State.startReset_only _ _ _ _ _ (List.Subset.trans (by decide) hw) ?_
    | with_reducible refine OnlyChanges.snd_of (by with_reducible assumption) ?_
    | with_reducible refine OnlyChanges.thd_of (by with_reducible assumption) ?_
    | intro _
    | split
    | dsimp only
    | with_reducible refine OnlyChanges.of_mk ?_ rfl rfl

theorem State.pfResetWrite_only (a : RegAcc) {s : State} (hw : [.regs, .shad, .mem, .out, .dram, .edac, .chans, .bufs, .plots, .cache, .ingest, .display, .cvus, .haptic, .audio, .update, .faults, .queues, .fns, .jobs, .msiPending, .pair] ⊆ pcs) (hs : OnlyChanges s0 s pcs) :
    OnlyChanges s0 (State.pfResetWrite a s) pcs := by
  unfold State.pfResetWrite
  repeat' first
    | with_reducible assumption
    | with_reducible apply foldl_only
    | with_reducible refine State.recRefused_only _ (List.Subset.trans (by decide) hw) ?_
    | with_reducible refine State.startReset_only _ _ _ _ _ (List.Subset.trans (by decide) hw) ?_
    | with_reducible refine OnlyChanges.snd_of (by with_reducible assumption) ?_
    | with_reducible refine OnlyChanges.thd_of (by with_reducible assumption) ?_
    | intro _
    | split
    | dsimp only

theorem State.vfCtrlWrite_only (a : RegAcc) (fn : Nat) {s : State} (hw : [.regs, .shad, .mem, .out, .dram, .edac, .chans, .bufs, .plots, .cache, .ingest, .display, .cvus, .haptic, .audio, .update, .faults, .queues, .fns, .jobs, .msiPending, .pair] ⊆ pcs) (hs : OnlyChanges s0 s pcs) :
    OnlyChanges s0 (State.vfCtrlWrite a fn s) pcs := by
  unfold State.vfCtrlWrite
  repeat' first
    | with_reducible assumption
    | with_reducible apply foldl_only
    | with_reducible refine State.setFld_only _ _ _ _ (List.Subset.trans (by decide) hw) ?_
    | with_reducible refine State.recRefused_only _ (List.Subset.trans (by decide) hw) ?_
    | with_reducible refine State.startReset_only _ _ _ _ _ (List.Subset.trans (by decide) hw) ?_
    | with_reducible refine OnlyChanges.snd_of (by with_reducible assumption) ?_
    | with_reducible refine OnlyChanges.thd_of (by with_reducible assumption) ?_
    | intro _
    | split
    | dsimp only

theorem State.fnLinkDown_only {s : State} (f : Nat) (hw : [.regs, .shad, .mem, .out, .dram, .edac, .chans, .bufs, .plots, .cache, .ingest, .display, .cvus, .haptic, .audio, .update, .faults, .queues, .fns, .jobs, .msiPending, .pair] ⊆ pcs) (hs : OnlyChanges s0 s pcs) :
    OnlyChanges s0 (State.fnLinkDown s f) pcs := by
  unfold State.fnLinkDown
  repeat' first
    | with_reducible assumption
    | with_reducible apply foldl_only
    | with_reducible refine State.setFn_only _ _ (List.Subset.trans (by decide) hw) ?_
    | with_reducible refine State.updFnReset_only _ (List.Subset.trans (by decide) hw) ?_
    | with_reducible refine State.showFn_only _ (List.Subset.trans (by decide) hw) ?_
    | with_reducible refine State.idleQueues_only _ (List.Subset.trans (by decide) hw) ?_
    | with_reducible refine State.squashFn_only _ (List.Subset.trans (by decide) hw) ?_
    | with_reducible refine State.forgetJobs_only _ (List.Subset.trans (by decide) hw) ?_
    | with_reducible refine OnlyChanges.snd_of (by with_reducible assumption) ?_
    | with_reducible refine OnlyChanges.thd_of (by with_reducible assumption) ?_
    | intro _
    | split
    | dsimp only

theorem State.portLinkDown_only {s : State} (x1 : Nat) (hw : [.regs, .shad, .mem, .out, .dram, .edac, .chans, .bufs, .plots, .cache, .ingest, .display, .cvus, .haptic, .audio, .update, .faults, .queues, .fns, .jobs, .unmasked, .msiPending, .pair] ⊆ pcs) (hs : OnlyChanges s0 s pcs) :
    OnlyChanges s0 (State.portLinkDown s x1) pcs := by
  unfold State.portLinkDown
  repeat' first
    | with_reducible assumption
    | with_reducible apply foldl_only
    | with_reducible refine State.setRw_only _ _ (List.Subset.trans (by decide) hw) ?_
    | with_reducible refine State.setFld_only _ _ _ _ (List.Subset.trans (by decide) hw) ?_
    | with_reducible refine State.satFld_only _ _ _ _ (List.Subset.trans (by decide) hw) ?_
    | with_reducible refine State.event_only _ _ (List.Subset.trans (by decide) hw) ?_
    | with_reducible refine State.fnLinkDown_only _ (List.Subset.trans (by decide) hw) ?_
    | with_reducible refine OnlyChanges.snd_of (by with_reducible assumption) ?_
    | with_reducible refine OnlyChanges.thd_of (by with_reducible assumption) ?_
    | intro _
    | split
    | dsimp only
    | with_reducible refine OnlyChanges.of_mk ?_ rfl rfl

theorem State.portLinkUp_only {s : State} (x1 : Nat) (speed : Nat) (width : Nat) (hw : [.regs, .shad, .out, .faults, .queues, .fns, .msiPending] ⊆ pcs) (hs : OnlyChanges s0 s pcs) :
    OnlyChanges s0 (State.portLinkUp s x1 speed width) pcs := by
  unfold State.portLinkUp
  repeat' first
    | with_reducible assumption
    | with_reducible apply foldl_only
    | with_reducible refine State.setFld_only _ _ _ _ (List.Subset.trans (by decide) hw) ?_
    | with_reducible refine State.event_only _ _ (List.Subset.trans (by decide) hw) ?_
    | with_reducible refine State.enableFn_only _ (List.Subset.trans (by decide) hw) ?_
    | with_reducible refine OnlyChanges.snd_of (by with_reducible assumption) ?_
    | with_reducible refine OnlyChanges.thd_of (by with_reducible assumption) ?_
    | intro _
    | split
    | dsimp only

end Sys2Proof.Machine
end

