-- ==== Sys2Proof/Laws/FrameFaults.lean ====
section
/-! SUPPORT. What every operation of Machine/Faults.lean leaves alone. -/

namespace Sys2Proof.Machine

set_option Elab.async false
set_option linter.all false

variable {s0 : State} {pcs : List Piece}

theorem State.fatalRecord_only {s : State} (source : Nat) (code : Nat) (pg : Page) (info : Nat) (fn : Nat) (hw : [.regs, .out, .faults, .msiPending] ⊆ pcs) (hs : OnlyChanges s0 s pcs) :
    OnlyChanges s0 (State.fatalRecord s source code pg info fn) pcs := by
  unfold State.fatalRecord
  repeat' first
    | with_reducible assumption
    | with_reducible apply foldl_only
    | with_reducible refine State.report_only _ _ _ _ _ (List.Subset.trans (by decide) hw) ?_
    | with_reducible refine State.writeTail_only  (List.Subset.trans (by decide) hw) ?_
    | with_reducible refine OnlyChanges.snd_of (by with_reducible assumption) ?_
    | with_reducible refine OnlyChanges.thd_of (by with_reducible assumption) ?_
    | intro _
    | split
    | dsimp only
    | with_reducible refine OnlyChanges.of_mk ?_ rfl rfl

theorem State.squashAll_only {s : State} (hw : [.regs, .mem, .out, .chans, .bufs, .plots, .cache, .ingest, .cvus, .queues, .jobs, .coreEntries, .fetchStopped, .msiPending, .pair] ⊆ pcs) (hs : OnlyChanges s0 s pcs) :
    OnlyChanges s0 (State.squashAll s) pcs := by
  unfold State.squashAll
  repeat' first
    | with_reducible assumption
    | with_reducible apply foldl_only
    | with_reducible refine State.ingSquash_only _ _ _ (List.Subset.trans (by decide) hw) ?_
    | with_reducible refine State.cvuSquash_only _ _ _ (List.Subset.trans (by decide) hw) ?_
    | with_reducible refine OnlyChanges.snd_of (by with_reducible assumption) ?_
    | with_reducible refine OnlyChanges.thd_of (by with_reducible assumption) ?_
    | intro _
    | split
    | dsimp only
    | with_reducible refine OnlyChanges.of_mk ?_ rfl rfl

theorem State.idleAll_only {s : State} (hw : [.regs, .shad, .mem, .out, .free, .dram, .edac, .chans, .bufs, .plots, .cache, .ingest, .display, .dpls, .cvus, .touch, .haptic, .audio, .update, .faults, .queues, .fns, .jobs, .fetchStopped, .unmasked, .msiPending, .pair] ⊆ pcs) (hs : OnlyChanges s0 s pcs) :
    OnlyChanges s0 (State.idleAll s) pcs := by
  unfold State.idleAll
  repeat' first
    | with_reducible assumption
    | with_reducible apply foldl_only
    | with_reducible refine State.dplDead_only  (List.Subset.trans (by decide) hw) ?_
    | with_reducible refine State.setTouch_only _ _ (List.Subset.trans (by decide) hw) ?_
    | with_reducible refine State.hapSilence_only  (List.Subset.trans (by decide) hw) ?_
    | with_reducible refine State.audKill_only  (List.Subset.trans (by decide) hw) ?_
    | with_reducible refine State.linkDown_only  (List.Subset.trans (by decide) hw) ?_
    | with_reducible refine State.portLinkDown_only _ (List.Subset.trans (by decide) hw) ?_
    | with_reducible refine OnlyChanges.snd_of (by with_reducible assumption) ?_
    | with_reducible refine OnlyChanges.thd_of (by with_reducible assumption) ?_
    | intro _
    | split
    | dsimp only
    | with_reducible refine OnlyChanges.of_mk ?_ rfl rfl

theorem State.deviceFatal_only {s : State} (source : Nat) (code : Nat) (pg : Page) (info : Nat) (fn : Nat) (hw : [.regs, .shad, .mem, .out, .free, .dram, .edac, .chans, .bufs, .plots, .cache, .ingest, .display, .dpls, .cvus, .touch, .haptic, .audio, .update, .faults, .queues, .fns, .jobs, .coreEntries, .fetchStopped, .unmasked, .msiPending, .pair] ⊆ pcs) (hs : OnlyChanges s0 s pcs) :
    OnlyChanges s0 (State.deviceFatal s source code pg info fn) pcs := by
  unfold State.deviceFatal
  repeat' first
    | with_reducible assumption
    | with_reducible apply foldl_only
    | with_reducible refine State.fatalRecord_only _ _ _ _ _ (List.Subset.trans (by decide) hw) ?_
    | with_reducible refine State.squashAll_only  (List.Subset.trans (by decide) hw) ?_
    | with_reducible refine State.idleAll_only  (List.Subset.trans (by decide) hw) ?_
    | with_reducible refine OnlyChanges.snd_of (by with_reducible assumption) ?_
    | with_reducible refine OnlyChanges.thd_of (by with_reducible assumption) ?_
    | intro _
    | split
    | dsimp only
    | with_reducible refine OnlyChanges.of_mk ?_ rfl rfl

theorem State.fatalSource_only {s : State} (source : Nat) (hw : [.regs, .shad, .mem, .out, .free, .dram, .edac, .chans, .bufs, .plots, .cache, .ingest, .display, .dpls, .cvus, .touch, .haptic, .audio, .update, .faults, .queues, .fns, .jobs, .coreEntries, .fetchStopped, .unmasked, .msiPending, .pair] ⊆ pcs) (hs : OnlyChanges s0 s pcs) :
    OnlyChanges s0 (State.fatalSource s source) pcs := by
  unfold State.fatalSource
  repeat' first
    | with_reducible assumption
    | with_reducible apply foldl_only
    | with_reducible refine State.deviceFatal_only _ _ _ _ _ (List.Subset.trans (by decide) hw) ?_
    | with_reducible refine OnlyChanges.snd_of (by with_reducible assumption) ?_
    | with_reducible refine OnlyChanges.thd_of (by with_reducible assumption) ?_
    | intro _
    | split
    | dsimp only

theorem State.fatalRestart_only {s : State} (hw : [.regs, .shad, .loaded, .staged, .latched, .softResetting, .mem, .time, .power, .dram, .edac, .chans, .bufs, .plots, .fillQueue, .peak, .cache, .ingest, .display, .dpls, .cvus, .touch, .haptic, .audio, .age, .update, .faults, .worlds, .queues, .fns, .jobs, .coreEntries, .fetchStopped, .arbiter, .unmasked, .msiPending, .pair] ⊆ pcs) (hs : OnlyChanges s0 s pcs) :
    OnlyChanges s0 (State.fatalRestart s) pcs := by
  unfold State.fatalRestart
  repeat' first
    | with_reducible assumption
    | with_reducible apply foldl_only
    | with_reducible refine State.deviceReset_only _ (List.Subset.trans (by decide) hw) ?_
    | with_reducible refine OnlyChanges.snd_of (by with_reducible assumption) ?_
    | with_reducible refine OnlyChanges.thd_of (by with_reducible assumption) ?_
    | intro _
    | split
    | dsimp only
    | with_reducible refine OnlyChanges.of_mk ?_ rfl rfl

theorem State.stopBlock_only {s : State} (pg : Page) (hw : [.regs, .shad, .mem, .out, .free, .dram, .edac, .chans, .bufs, .plots, .cache, .ingest, .display, .cvus, .touch, .haptic, .audio, .faults, .queues, .jobs, .fetchStopped, .msiPending, .pair] ⊆ pcs) (hs : OnlyChanges s0 s pcs) :
    OnlyChanges s0 (State.stopBlock s pg) pcs := by
  unfold State.stopBlock
  repeat' first
    | with_reducible assumption
    | with_reducible apply foldl_only
    | with_reducible refine State.setFld_only _ _ _ _ (List.Subset.trans (by decide) hw) ?_
    | with_reducible refine State.ingSquash_only _ _ _ (List.Subset.trans (by decide) hw) ?_
    | with_reducible refine State.cvuSquash_only _ _ _ (List.Subset.trans (by decide) hw) ?_
    | with_reducible refine State.setTouch_only _ _ (List.Subset.trans (by decide) hw) ?_
    | with_reducible refine State.hapSilence_only  (List.Subset.trans (by decide) hw) ?_
    | with_reducible refine State.audKill_only  (List.Subset.trans (by decide) hw) ?_
    | with_reducible refine State.linkDown_only  (List.Subset.trans (by decide) hw) ?_
    | with_reducible refine OnlyChanges.snd_of (by with_reducible assumption) ?_
    | with_reducible refine OnlyChanges.thd_of (by with_reducible assumption) ?_
    | intro _
    | split
    | dsimp only
    | with_reducible refine OnlyChanges.of_mk ?_ rfl rfl

theorem State.stopCore_only {s : State} (k : Nat) (jid : Option Nat) (hw : [.regs, .out, .worlds, .queues, .jobs, .msiPending] ⊆ pcs) (hs : OnlyChanges s0 s pcs) :
    OnlyChanges s0 (State.stopCore s k jid) pcs := by
  unfold State.stopCore
  repeat' first
    | with_reducible assumption
    | with_reducible apply foldl_only
    | with_reducible refine State.complete_only _ _ _ (List.Subset.trans (by decide) hw) ?_
    | with_reducible refine State.scrub_only _ _ _ (List.Subset.trans (by decide) hw) ?_
    | with_reducible refine OnlyChanges.snd_of (by with_reducible assumption) ?_
    | with_reducible refine OnlyChanges.thd_of (by with_reducible assumption) ?_
    | intro _
    | split
    | dsimp only

theorem State.gateEntry_only {s : State} (k : Nat) (addr : Nat) (jid : Option Nat) (hw : [.regs, .out, .faults, .worlds, .queues, .jobs, .msiPending] ⊆ pcs) (hs : OnlyChanges s0 s pcs) :
    OnlyChanges s0 (State.gateEntry s k addr jid) pcs := by
  unfold State.gateEntry
  repeat' first
    | with_reducible assumption
    | with_reducible apply foldl_only
    | with_reducible refine State.addFld_only _ _ _ _ (List.Subset.trans (by decide) hw) ?_
    | with_reducible refine State.pmcCount_only _ _ _ _ _ (List.Subset.trans (by decide) hw) ?_
    | with_reducible refine State.reportContained_only _ _ _ _ (List.Subset.trans (by decide) hw) ?_
    | with_reducible refine State.setCore_only _ _ (List.Subset.trans (by decide) hw) ?_
    | with_reducible refine State.freezeCore_only _ _ (List.Subset.trans (by decide) hw) ?_
    | with_reducible refine State.markCore_only _ _ (List.Subset.trans (by decide) hw) ?_
    | with_reducible refine State.stopCore_only _ _ (List.Subset.trans (by decide) hw) ?_
    | with_reducible refine OnlyChanges.snd_of (by with_reducible assumption) ?_
    | with_reducible refine OnlyChanges.thd_of (by with_reducible assumption) ?_
    | intro _
    | split
    | dsimp only
    | with_reducible refine OnlyChanges.of_mk ?_ rfl rfl

theorem State.sramError_only {s : State} (kind : Nat) (hw : [.regs, .out, .msiPending] ⊆ pcs) (hs : OnlyChanges s0 s pcs) :
    OnlyChanges s0 (State.sramError s kind) pcs := by
  unfold State.sramError
  repeat' first
    | with_reducible assumption
    | with_reducible apply foldl_only
    | with_reducible refine State.satFld_only _ _ _ _ (List.Subset.trans (by decide) hw) ?_
    | with_reducible refine State.event_only _ _ (List.Subset.trans (by decide) hw) ?_
    | with_reducible refine OnlyChanges.snd_of (by with_reducible assumption) ?_
    | with_reducible refine OnlyChanges.thd_of (by with_reducible assumption) ?_
    | intro _
    | split
    | dsimp only

theorem State.onDie_only {s : State} (x1 : FaultAct) (hw : [.cache, .display] ⊆ pcs) (hs : OnlyChanges s0 s pcs) :
    OnlyChanges s0 (State.onDie s x1) pcs := by
  unfold State.onDie
  repeat' first
    | with_reducible assumption
    | with_reducible apply foldl_only
    | with_reducible refine State.setDisp_only _ _ (List.Subset.trans (by decide) hw) ?_
    | with_reducible refine OnlyChanges.snd_of (by with_reducible assumption) ?_
    | with_reducible refine OnlyChanges.thd_of (by with_reducible assumption) ?_
    | intro _
    | split
    | dsimp only
    | with_reducible refine OnlyChanges.of_mk ?_ rfl rfl

theorem State.faultReport_only {s : State} (src : Nat) (sram : Nat) (cls : Nat) (code : Nat) (info : Nat) (fn : Nat) (act : FaultAct) (hw : [.regs, .shad, .mem, .out, .free, .dram, .edac, .chans, .bufs, .plots, .cache, .ingest, .display, .dpls, .cvus, .touch, .haptic, .audio, .update, .faults, .worlds, .queues, .fns, .jobs, .coreEntries, .fetchStopped, .unmasked, .msiPending, .pair] ⊆ pcs) (hs : OnlyChanges s0 s pcs) :
    OnlyChanges s0 (State.faultReport s src sram cls code info fn act) pcs := by
  unfold State.faultReport
  repeat' first
    | with_reducible assumption
    | with_reducible apply foldl_only
    | with_reducible refine State.report_only _ _ _ _ _ (List.Subset.trans (by decide) hw) ?_
    | with_reducible refine State.reportContained_only _ _ _ _ (List.Subset.trans (by decide) hw) ?_
    | with_reducible refine State.containOutput_only _ _ _ _ _ (List.Subset.trans (by decide) hw) ?_
    | with_reducible refine State.deviceFatal_only _ _ _ _ _ (List.Subset.trans (by decide) hw) ?_
    | with_reducible refine State.stopBlock_only _ (List.Subset.trans (by decide) hw) ?_
    | with_reducible refine State.stopCore_only _ _ (List.Subset.trans (by decide) hw) ?_
    | with_reducible refine State.sramError_only _ (List.Subset.trans (by decide) hw) ?_
    | with_reducible refine State.onDie_only _ (List.Subset.trans (by decide) hw) ?_
    | with_reducible refine OnlyChanges.snd_of (by with_reducible assumption) ?_
    | with_reducible refine OnlyChanges.thd_of (by with_reducible assumption) ?_
    | intro _
    | split
    | dsimp only

theorem State.retrainEnd_only {s : State} (n : Nat) (pause : Nat) (eyes : Option (Nat × Nat)) (readBack : Bool) (hw : [.regs, .shad, .mem, .out, .free, .dram, .edac, .chans, .bufs, .plots, .cache, .ingest, .display, .dpls, .cvus, .touch, .haptic, .audio, .update, .faults, .queues, .fns, .jobs, .coreEntries, .fetchStopped, .unmasked, .msiPending, .pair] ⊆ pcs) (hs : OnlyChanges s0 s pcs) :
    OnlyChanges s0 (State.retrainEnd s n pause eyes readBack) pcs := by
  unfold State.retrainEnd
  repeat' first
    | with_reducible assumption
    | with_reducible apply foldl_only
    | with_reducible refine State.setFld_only _ _ _ _ (List.Subset.trans (by decide) hw) ?_
    | with_reducible refine State.addFld_only _ _ _ _ (List.Subset.trans (by decide) hw) ?_
    | with_reducible refine State.satFld_only _ _ _ _ (List.Subset.trans (by decide) hw) ?_
    | with_reducible refine State.event_only _ _ (List.Subset.trans (by decide) hw) ?_
    | with_reducible refine State.recErr_only _ _ _ (List.Subset.trans (by decide) hw) ?_
    | with_reducible refine State.reportCorrected_only _ _ _ (List.Subset.trans (by decide) hw) ?_
    | with_reducible refine State.setDmc_only _ _ (List.Subset.trans (by decide) hw) ?_
    | with_reducible refine State.deviceFatal_only _ _ _ _ _ (List.Subset.trans (by decide) hw) ?_
    | with_reducible refine OnlyChanges.snd_of (by with_reducible assumption) ?_
    | with_reducible refine OnlyChanges.thd_of (by with_reducible assumption) ?_
    | intro _
    | split
    | dsimp only

theorem State.stopChannel_only (n : Nat) {s : State} (hw : [.regs, .shad, .mem, .out, .free, .dram, .edac, .chans, .bufs, .plots, .cache, .ingest, .display, .dpls, .cvus, .touch, .haptic, .audio, .update, .faults, .queues, .fns, .jobs, .coreEntries, .fetchStopped, .unmasked, .msiPending, .pair] ⊆ pcs) (hs : OnlyChanges s0 s pcs) :
    OnlyChanges s0 (State.stopChannel n s) pcs := by
  unfold State.stopChannel
  repeat' first
    | with_reducible assumption
    | with_reducible apply foldl_only
    | with_reducible refine State.setFld_only _ _ _ _ (List.Subset.trans (by decide) hw) ?_
    | with_reducible refine State.setDmc_only _ _ (List.Subset.trans (by decide) hw) ?_
    | with_reducible refine State.deviceFatal_only _ _ _ _ _ (List.Subset.trans (by decide) hw) ?_
    | with_reducible refine OnlyChanges.snd_of (by with_reducible assumption) ?_
    | with_reducible refine OnlyChanges.thd_of (by with_reducible assumption) ?_
    | intro _
    | split
    | dsimp only

theorem State.dmcEnable_only (a : RegAcc) (on : Bool) {s : State} (hw : [.regs, .shad, .mem, .out, .free, .dram, .edac, .chans, .bufs, .plots, .cache, .ingest, .display, .dpls, .cvus, .touch, .haptic, .audio, .update, .faults, .queues, .fns, .jobs, .coreEntries, .fetchStopped, .unmasked, .msiPending, .pair] ⊆ pcs) (hs : OnlyChanges s0 s pcs) :
    OnlyChanges s0 (State.dmcEnable a on s) pcs := by
  unfold State.dmcEnable
  repeat' first
    | with_reducible assumption
    | with_reducible apply foldl_only
    | with_reducible refine State.recAcc_only _ _ (List.Subset.trans (by decide) hw) ?_
    | with_reducible refine State.plainEnable_only _ _ (List.Subset.trans (by decide) hw) ?_
    | with_reducible refine State.stopChannel_only _ (List.Subset.trans (by decide) hw) ?_
    | with_reducible refine OnlyChanges.snd_of (by with_reducible assumption) ?_
    | with_reducible refine OnlyChanges.thd_of (by with_reducible assumption) ?_
    | intro _
    | split
    | dsimp only

theorem State.dmcReset_only (a : RegAcc) {s : State} (hw : [.regs, .shad, .mem, .out, .free, .dram, .edac, .chans, .bufs, .plots, .cache, .ingest, .display, .dpls, .cvus, .touch, .haptic, .audio, .update, .faults, .queues, .fns, .jobs, .coreEntries, .fetchStopped, .unmasked, .msiPending, .pair] ⊆ pcs) (hs : OnlyChanges s0 s pcs) :
    OnlyChanges s0 (State.dmcReset a s) pcs := by
  unfold State.dmcReset
  repeat' first
    | with_reducible assumption
    | with_reducible apply foldl_only
    | with_reducible refine State.recAcc_only _ _ (List.Subset.trans (by decide) hw) ?_
    | with_reducible refine State.resetPage_only _ _ (List.Subset.trans (by decide) hw) ?_
    | with_reducible refine State.stopChannel_only _ (List.Subset.trans (by decide) hw) ?_
    | with_reducible refine OnlyChanges.snd_of (by with_reducible assumption) ?_
    | with_reducible refine OnlyChanges.thd_of (by with_reducible assumption) ?_
    | intro _
    | split
    | dsimp only

theorem State.logCtrlWrite_only (a : RegAcc) {s : State} (hw : [.regs, .shad, .out, .faults, .msiPending] ⊆ pcs) (hs : OnlyChanges s0 s pcs) :
    OnlyChanges s0 (State.logCtrlWrite a s) pcs := by
  unfold State.logCtrlWrite
  repeat' first
    | with_reducible assumption
    | with_reducible apply foldl_only
    | with_reducible refine State.setFld_only _ _ _ _ (List.Subset.trans (by decide) hw) ?_
    | with_reducible refine State.plainWrite_only _ _ (List.Subset.trans (by decide) hw) ?_
    | with_reducible refine OnlyChanges.snd_of (by with_reducible assumption) ?_
    | with_reducible refine OnlyChanges.thd_of (by with_reducible assumption) ?_
    | intro _
    | split
    | dsimp only
    | with_reducible refine OnlyChanges.of_mk ?_ rfl rfl

theorem State.thermtrip_only {s : State} (hw : [.faults] ⊆ pcs) (hs : OnlyChanges s0 s pcs) :
    OnlyChanges s0 (State.thermtrip s) pcs := by
  unfold State.thermtrip
  repeat' first
    | with_reducible assumption
    | with_reducible apply foldl_only
    | with_reducible refine OnlyChanges.snd_of (by with_reducible assumption) ?_
    | with_reducible refine OnlyChanges.thd_of (by with_reducible assumption) ?_
    | intro _
    | split
    | dsimp only
    | with_reducible refine OnlyChanges.of_mk ?_ rfl rfl

theorem State.sysResetWrite_only (a : RegAcc) {s : State} (hw : [.regs, .shad, .loaded, .staged, .latched, .softResetting, .mem, .out, .time, .power, .dram, .edac, .chans, .bufs, .plots, .fillQueue, .peak, .cache, .ingest, .display, .dpls, .cvus, .touch, .haptic, .audio, .age, .update, .faults, .worlds, .queues, .fns, .jobs, .coreEntries, .fetchStopped, .arbiter, .unmasked, .msiPending, .pair] ⊆ pcs) (hs : OnlyChanges s0 s pcs) :
    OnlyChanges s0 (State.sysResetWrite a s) pcs := by
  unfold State.sysResetWrite
  repeat' first
    | with_reducible assumption
    | with_reducible apply foldl_only
    | with_reducible refine State.recRefused_only _ (List.Subset.trans (by decide) hw) ?_
    | with_reducible refine State.deviceReset_only _ (List.Subset.trans (by decide) hw) ?_
    | with_reducible refine OnlyChanges.snd_of (by with_reducible assumption) ?_
    | with_reducible refine OnlyChanges.thd_of (by with_reducible assumption) ?_
    | intro _
    | split
    | dsimp only

end Sys2Proof.Machine
end

