-- ==== Sys2Proof/Laws/FrameViews.lean ====
section
/-! SUPPORT. What every operation of Machine/Views.lean leaves alone. -/

namespace Sys2Proof.Machine

set_option Elab.async false
set_option linter.all false

variable {s0 : State} {pcs : List Piece}

theorem State.afterRead_only {s : State} (a : RegAcc) (hw : [.regs] ⊆ pcs) (hs : OnlyChanges s0 s pcs) :
    OnlyChanges s0 (State.afterRead s a) pcs := by
  unfold State.afterRead
  repeat' first
    | with_reducible assumption
    | with_reducible apply foldl_only
    | with_reducible refine State.addFld_only _ _ _ _ (List.Subset.trans (by decide) hw) ?_
    | with_reducible refine OnlyChanges.snd_of (by with_reducible assumption) ?_
    | with_reducible refine OnlyChanges.thd_of (by with_reducible assumption) ?_
    | intro _
    | split
    | dsimp only

theorem State.plainRead_only (a : RegAcc) {s : State} (hw : [.regs, .latched, .out] ⊆ pcs) (hs : OnlyChanges s0 s pcs) :
    OnlyChanges s0 (State.plainRead a s) pcs := by
  unfold State.plainRead
  repeat' first
    | with_reducible assumption
    | with_reducible apply foldl_only
    | with_reducible refine State.answerRead_only _ _ (List.Subset.trans (by decide) hw) ?_
    | with_reducible refine State.latchWord_only _ _ _ (List.Subset.trans (by decide) hw) ?_
    | with_reducible refine State.afterRead_only _ (List.Subset.trans (by decide) hw) ?_
    | with_reducible refine OnlyChanges.snd_of (by with_reducible assumption) ?_
    | with_reducible refine OnlyChanges.thd_of (by with_reducible assumption) ?_
    | intro _
    | split
    | dsimp only

end Sys2Proof.Machine
end

