-- ==== Sys2Proof/Laws/FramePowerReq.lean ====
section
/-! SUPPORT. What every operation of Machine/PowerReq.lean leaves alone. -/

namespace Sys2Proof.Machine

set_option Elab.async false
set_option linter.all false

variable {s0 : State} {pcs : List Piece}

theorem State.linksStart_only {s : State} (hw : [.regs, .out, .dpls, .msiPending] ⊆ pcs) (hs : OnlyChanges s0 s pcs) :
    OnlyChanges s0 (State.linksStart s) pcs := by
  unfold State.linksStart
  repeat' first
    | with_reducible assumption
    | with_reducible apply foldl_only
    | with_reducible refine State.setDpl_only _ _ (List.Subset.trans (by decide) hw) ?_
    | with_reducible refine State.train_only _ (List.Subset.trans (by decide) hw) ?_
    | with_reducible refine OnlyChanges.snd_of (by with_reducible assumption) ?_
    | with_reducible refine OnlyChanges.thd_of (by with_reducible assumption) ?_
    | intro _
    | split
    | dsimp only

theorem State.hapticOn_only {s : State} (hw : [.regs, .haptic] ⊆ pcs) (hs : OnlyChanges s0 s pcs) :
    OnlyChanges s0 (State.hapticOn s) pcs := by
  unfold State.hapticOn
  repeat' first
    | with_reducible assumption
    | with_reducible apply foldl_only
    | with_reducible refine State.setHap_only _ _ (List.Subset.trans (by decide) hw) ?_
    | with_reducible refine OnlyChanges.snd_of (by with_reducible assumption) ?_
    | with_reducible refine OnlyChanges.thd_of (by with_reducible assumption) ?_
    | intro _
    | split
    | dsimp only

theorem State.audioOn_only {s : State} (hw : [.regs, .audio] ⊆ pcs) (hs : OnlyChanges s0 s pcs) :
    OnlyChanges s0 (State.audioOn s) pcs := by
  unfold State.audioOn
  repeat' first
    | with_reducible assumption
    | with_reducible apply foldl_only
    | with_reducible refine State.setFld_only _ _ _ _ (List.Subset.trans (by decide) hw) ?_
    | with_reducible refine OnlyChanges.snd_of (by with_reducible assumption) ?_
    | with_reducible refine OnlyChanges.thd_of (by with_reducible assumption) ?_
    | intro _
    | split
    | dsimp only
    | with_reducible refine OnlyChanges.of_mk ?_ rfl rfl

theorem State.backToRun_only {s : State} (step : Nat) (hw : [.regs, .out, .power, .display, .dpls, .touch, .haptic, .audio, .fetchStopped, .msiPending] ⊆ pcs) (hs : OnlyChanges s0 s pcs) :
    OnlyChanges s0 (State.backToRun s step) pcs := by
  unfold State.backToRun
  repeat' first
    | with_reducible assumption
    | with_reducible apply foldl_only
    | with_reducible refine State.touchRestart_only  (List.Subset.trans (by decide) hw) ?_
    | with_reducible refine State.restartOutputs_only  (List.Subset.trans (by decide) hw) ?_
    | with_reducible refine State.idleExit_only  (List.Subset.trans (by decide) hw) ?_
    | with_reducible refine State.linksStart_only  (List.Subset.trans (by decide) hw) ?_
    | with_reducible refine State.hapticOn_only  (List.Subset.trans (by decide) hw) ?_
    | with_reducible refine State.audioOn_only  (List.Subset.trans (by decide) hw) ?_
    | with_reducible refine OnlyChanges.snd_of (by with_reducible assumption) ?_
    | with_reducible refine OnlyChanges.thd_of (by with_reducible assumption) ?_
    | intro _
    | split
    | dsimp only
    | with_reducible refine OnlyChanges.of_mk ?_ rfl rfl

theorem State.refuseEntry_only {s : State} (reason : Nat) (hw : [.regs, .out, .power, .display, .dpls, .touch, .haptic, .audio, .fetchStopped, .msiPending] ⊆ pcs) (hs : OnlyChanges s0 s pcs) :
    OnlyChanges s0 (State.refuseEntry s reason) pcs := by
  unfold State.refuseEntry
  repeat' first
    | with_reducible assumption
    | with_reducible apply foldl_only
    | with_reducible refine State.endRequest_only _ _ (List.Subset.trans (by decide) hw) ?_
    | with_reducible refine State.backToRun_only _ (List.Subset.trans (by decide) hw) ?_
    | with_reducible refine OnlyChanges.snd_of (by with_reducible assumption) ?_
    | with_reducible refine OnlyChanges.thd_of (by with_reducible assumption) ?_
    | intro _
    | split
    | dsimp only

theorem State.pwrReqWrite_only (a : RegAcc) {s : State} (hw : [.regs, .out, .power, .display, .fetchStopped, .msiPending] ⊆ pcs) (hs : OnlyChanges s0 s pcs) :
    OnlyChanges s0 (State.pwrReqWrite a s) pcs := by
  unfold State.pwrReqWrite
  repeat' first
    | with_reducible assumption
    | with_reducible apply foldl_only
    | with_reducible refine State.setFld_only _ _ _ _ (List.Subset.trans (by decide) hw) ?_
    | with_reducible refine State.event_only _ _ (List.Subset.trans (by decide) hw) ?_
    | with_reducible refine State.recErr_only _ _ _ (List.Subset.trans (by decide) hw) ?_
    | with_reducible refine State.recRefused_only _ (List.Subset.trans (by decide) hw) ?_
    | with_reducible refine State.endRequest_only _ _ (List.Subset.trans (by decide) hw) ?_
    | with_reducible refine State.idleExit_only  (List.Subset.trans (by decide) hw) ?_
    | with_reducible refine State.idleEntry_only  (List.Subset.trans (by decide) hw) ?_
    | with_reducible refine OnlyChanges.snd_of (by with_reducible assumption) ?_
    | with_reducible refine OnlyChanges.thd_of (by with_reducible assumption) ?_
    | intro _
    | split
    | dsimp only
    | with_reducible refine OnlyChanges.of_mk ?_ rfl rfl

theorem State.saveList_only {s : State} (cause : Nat) (hw : [.power] ⊆ pcs) (hs : OnlyChanges s0 s pcs) :
    OnlyChanges s0 (State.saveList s cause) pcs := by
  unfold State.saveList
  repeat' first
    | with_reducible assumption
    | with_reducible apply foldl_only
    | with_reducible refine OnlyChanges.snd_of (by with_reducible assumption) ?_
    | with_reducible refine OnlyChanges.thd_of (by with_reducible assumption) ?_
    | intro _
    | split
    | dsimp only
    | with_reducible refine OnlyChanges.of_mk ?_ rfl rfl

theorem State.saveAdd_only (a : RegAcc) {s : State} (hw : [.regs, .out, .power, .msiPending] ⊆ pcs) (hs : OnlyChanges s0 s pcs) :
    OnlyChanges s0 (State.saveAdd a s) pcs := by
  unfold State.saveAdd
  repeat' first
    | with_reducible assumption
    | with_reducible apply foldl_only
    | with_reducible refine State.recErr_only _ _ _ (List.Subset.trans (by decide) hw) ?_
    | with_reducible refine State.recAcc_only _ _ (List.Subset.trans (by decide) hw) ?_
    | with_reducible refine State.recRefused_only _ (List.Subset.trans (by decide) hw) ?_
    | with_reducible refine OnlyChanges.snd_of (by with_reducible assumption) ?_
    | with_reducible refine OnlyChanges.thd_of (by with_reducible assumption) ?_
    | intro _
    | split
    | dsimp only
    | with_reducible refine OnlyChanges.of_mk ?_ rfl rfl

theorem State.saveClear_only (a : RegAcc) {s : State} (hw : [.regs, .out, .power, .msiPending] ⊆ pcs) (hs : OnlyChanges s0 s pcs) :
    OnlyChanges s0 (State.saveClear a s) pcs := by
  unfold State.saveClear
  repeat' first
    | with_reducible assumption
    | with_reducible apply foldl_only
    | with_reducible refine State.recRefused_only _ (List.Subset.trans (by decide) hw) ?_
    | with_reducible refine OnlyChanges.snd_of (by with_reducible assumption) ?_
    | with_reducible refine OnlyChanges.thd_of (by with_reducible assumption) ?_
    | intro _
    | split
    | dsimp only
    | with_reducible refine OnlyChanges.of_mk ?_ rfl rfl

theorem State.copyDomains_only {s : State} (hw : [.power] ⊆ pcs) (hs : OnlyChanges s0 s pcs) :
    OnlyChanges s0 (State.copyDomains s) pcs := by
  unfold State.copyDomains
  repeat' first
    | with_reducible assumption
    | with_reducible apply foldl_only
    | with_reducible refine OnlyChanges.snd_of (by with_reducible assumption) ?_
    | with_reducible refine OnlyChanges.thd_of (by with_reducible assumption) ?_
    | intro _
    | split
    | dsimp only
    | with_reducible refine OnlyChanges.of_mk ?_ rfl rfl

theorem State.restoreDomains_only {s : State} (hw : [.regs, .shad, .power] ⊆ pcs) (hs : OnlyChanges s0 s pcs) :
    OnlyChanges s0 (State.restoreDomains s) pcs := by
  unfold State.restoreDomains
  repeat' first
    | with_reducible assumption
    | with_reducible apply foldl_only
    | with_reducible refine OnlyChanges.snd_of (by with_reducible assumption) ?_
    | with_reducible refine OnlyChanges.thd_of (by with_reducible assumption) ?_
    | intro _
    | split
    | dsimp only
    | with_reducible refine OnlyChanges.of_mk ?_ rfl rfl

theorem State.outputsOff_only {s : State} (hw : [.regs, .shad, .mem, .out, .power, .dram, .edac, .chans, .bufs, .plots, .cache, .display, .dpls, .faults, .queues, .jobs, .msiPending, .pair] ⊆ pcs) (hs : OnlyChanges s0 s pcs) :
    OnlyChanges s0 (State.outputsOff s) pcs := by
  unfold State.outputsOff
  repeat' first
    | with_reducible assumption
    | with_reducible apply foldl_only
    | with_reducible refine State.setDpl_only _ _ (List.Subset.trans (by decide) hw) ?_
    | with_reducible refine State.auxFail_only _ (List.Subset.trans (by decide) hw) ?_
    | with_reducible refine State.lanesIdle_only _ (List.Subset.trans (by decide) hw) ?_
    | with_reducible refine State.videoStop_only _ (List.Subset.trans (by decide) hw) ?_
    | with_reducible refine State.stopNow_only _ (List.Subset.trans (by decide) hw) ?_
    | with_reducible refine OnlyChanges.snd_of (by with_reducible assumption) ?_
    | with_reducible refine OnlyChanges.thd_of (by with_reducible assumption) ?_
    | intro _
    | split
    | dsimp only
    | with_reducible refine OnlyChanges.of_mk ?_ rfl rfl

theorem State.touchOff_only {s : State} (hw : [.regs, .mem, .out, .edac, .bufs, .cache, .touch, .faults, .msiPending, .pair] ⊆ pcs) (hs : OnlyChanges s0 s pcs) :
    OnlyChanges s0 (State.touchOff s) pcs := by
  unfold State.touchOff
  repeat' first
    | with_reducible assumption
    | with_reducible apply foldl_only
    | with_reducible refine State.setTouch_only _ _ (List.Subset.trans (by decide) hw) ?_
    | with_reducible refine State.touchStop_only _ (List.Subset.trans (by decide) hw) ?_
    | with_reducible refine OnlyChanges.snd_of (by with_reducible assumption) ?_
    | with_reducible refine OnlyChanges.thd_of (by with_reducible assumption) ?_
    | intro _
    | split
    | dsimp only

theorem State.hapticBrakeOff_only {s : State} (hw : [.regs, .mem, .out, .chans, .bufs, .plots, .cache, .haptic, .queues, .jobs, .msiPending, .pair] ⊆ pcs) (hs : OnlyChanges s0 s pcs) :
    OnlyChanges s0 (State.hapticBrakeOff s) pcs := by
  unfold State.hapticBrakeOff
  repeat' first
    | with_reducible assumption
    | with_reducible apply foldl_only
    | with_reducible refine State.setHap_only _ _ (List.Subset.trans (by decide) hw) ?_
    | with_reducible refine State.hapBrake_only _ (List.Subset.trans (by decide) hw) ?_
    | with_reducible refine OnlyChanges.snd_of (by with_reducible assumption) ?_
    | with_reducible refine OnlyChanges.thd_of (by with_reducible assumption) ?_
    | intro _
    | split
    | dsimp only

theorem State.audioFade_only {s : State} (hw : [.regs, .audio] ⊆ pcs) (hs : OnlyChanges s0 s pcs) :
    OnlyChanges s0 (State.audioFade s) pcs := by
  unfold State.audioFade
  repeat' first
    | with_reducible assumption
    | with_reducible apply foldl_only
    | with_reducible refine State.endStreams_only  (List.Subset.trans (by decide) hw) ?_
    | with_reducible refine OnlyChanges.snd_of (by with_reducible assumption) ?_
    | with_reducible refine OnlyChanges.thd_of (by with_reducible assumption) ?_
    | intro _
    | split
    | dsimp only
    | with_reducible refine OnlyChanges.of_mk ?_ rfl rfl

theorem State.bridgesOff_only {s : State} (hw : [.out] ⊆ pcs) (hs : OnlyChanges s0 s pcs) :
    OnlyChanges s0 (State.bridgesOff s) pcs := by
  unfold State.bridgesOff
  repeat' first
    | with_reducible assumption
    | with_reducible apply foldl_only
    | with_reducible refine State.emit_only _ (List.Subset.trans (by decide) hw) ?_
    | with_reducible refine OnlyChanges.snd_of (by with_reducible assumption) ?_
    | with_reducible refine OnlyChanges.thd_of (by with_reducible assumption) ?_
    | intro _
    | split
    | dsimp only

theorem State.hapticOff_only {s : State} (hw : [.regs, .mem, .out, .chans, .bufs, .plots, .cache, .haptic, .queues, .jobs, .msiPending, .pair] ⊆ pcs) (hs : OnlyChanges s0 s pcs) :
    OnlyChanges s0 (State.hapticOff s) pcs := by
  unfold State.hapticOff
  repeat' first
    | with_reducible assumption
    | with_reducible apply foldl_only
    | with_reducible refine State.setHap_only _ _ (List.Subset.trans (by decide) hw) ?_
    | with_reducible refine State.hapSilence_only  (List.Subset.trans (by decide) hw) ?_
    | with_reducible refine OnlyChanges.snd_of (by with_reducible assumption) ?_
    | with_reducible refine OnlyChanges.thd_of (by with_reducible assumption) ?_
    | intro _
    | split
    | dsimp only

theorem State.linksSlow_only {s : State} (hw : [.regs, .power] ⊆ pcs) (hs : OnlyChanges s0 s pcs) :
    OnlyChanges s0 (State.linksSlow s) pcs := by
  unfold State.linksSlow
  repeat' first
    | with_reducible assumption
    | with_reducible apply foldl_only
    | with_reducible refine State.setFld_only _ _ _ _ (List.Subset.trans (by decide) hw) ?_
    | with_reducible refine OnlyChanges.snd_of (by with_reducible assumption) ?_
    | with_reducible refine OnlyChanges.thd_of (by with_reducible assumption) ?_
    | intro _
    | split
    | dsimp only
    | with_reducible refine OnlyChanges.of_mk ?_ rfl rfl

theorem State.linksBack_only {s : State} (hw : [.regs, .power] ⊆ pcs) (hs : OnlyChanges s0 s pcs) :
    OnlyChanges s0 (State.linksBack s) pcs := by
  unfold State.linksBack
  repeat' first
    | with_reducible assumption
    | with_reducible apply foldl_only
    | with_reducible refine State.setFld_only _ _ _ _ (List.Subset.trans (by decide) hw) ?_
    | with_reducible refine OnlyChanges.snd_of (by with_reducible assumption) ?_
    | with_reducible refine OnlyChanges.thd_of (by with_reducible assumption) ?_
    | intro _
    | split
    | dsimp only
    | with_reducible refine OnlyChanges.of_mk ?_ rfl rfl

theorem State.fallowFinish_only {s : State} (hw : [.regs, .shad, .loaded, .staged, .latched, .softResetting, .mem, .out, .time, .power, .dram, .edac, .chans, .bufs, .plots, .fillQueue, .peak, .cache, .ingest, .display, .dpls, .cvus, .touch, .haptic, .audio, .age, .update, .faults, .worlds, .queues, .fns, .jobs, .coreEntries, .fetchStopped, .arbiter, .unmasked, .msiPending, .pair] ⊆ pcs) (hs : OnlyChanges s0 s pcs) :
    OnlyChanges s0 (State.fallowFinish s) pcs := by
  unfold State.fallowFinish
  repeat' first
    | with_reducible assumption
    | with_reducible apply foldl_only
    | with_reducible refine State.enterPower_only _ (List.Subset.trans (by decide) hw) ?_
    | with_reducible refine State.endRequest_only _ _ (List.Subset.trans (by decide) hw) ?_
    | with_reducible refine State.captureTime_only  (List.Subset.trans (by decide) hw) ?_
    | with_reducible refine State.writeTail_only  (List.Subset.trans (by decide) hw) ?_
    | with_reducible refine State.deviceReset_only _ (List.Subset.trans (by decide) hw) ?_
    | with_reducible refine State.selfRefreshEntry_only  (List.Subset.trans (by decide) hw) ?_
    | with_reducible refine State.saveList_only _ (List.Subset.trans (by decide) hw) ?_
    | with_reducible refine State.copyDomains_only  (List.Subset.trans (by decide) hw) ?_
    | with_reducible refine State.bridgesOff_only  (List.Subset.trans (by decide) hw) ?_
    | with_reducible refine State.linksSlow_only  (List.Subset.trans (by decide) hw) ?_
    | with_reducible refine OnlyChanges.snd_of (by with_reducible assumption) ?_
    | with_reducible refine OnlyChanges.thd_of (by with_reducible assumption) ?_
    | intro _
    | split
    | dsimp only
    | with_reducible refine OnlyChanges.of_mk ?_ rfl rfl

theorem State.fallowEntry_only {s : State} (hw : [.regs, .shad, .loaded, .staged, .latched, .softResetting, .mem, .out, .time, .power, .dram, .edac, .chans, .bufs, .plots, .fillQueue, .peak, .cache, .ingest, .display, .dpls, .cvus, .touch, .haptic, .audio, .age, .update, .faults, .worlds, .queues, .fns, .jobs, .coreEntries, .fetchStopped, .arbiter, .unmasked, .msiPending, .pair] ⊆ pcs) (hs : OnlyChanges s0 s pcs) :
    OnlyChanges s0 (State.fallowEntry s) pcs := by
  unfold State.fallowEntry
  repeat' first
    | with_reducible assumption
    | with_reducible apply foldl_only
    | with_reducible refine State.outputsOff_only  (List.Subset.trans (by decide) hw) ?_
    | with_reducible refine State.touchOff_only  (List.Subset.trans (by decide) hw) ?_
    | with_reducible refine State.hapticBrakeOff_only  (List.Subset.trans (by decide) hw) ?_
    | with_reducible refine State.audioFade_only  (List.Subset.trans (by decide) hw) ?_
    | with_reducible refine State.fallowFinish_only  (List.Subset.trans (by decide) hw) ?_
    | with_reducible refine OnlyChanges.snd_of (by with_reducible assumption) ?_
    | with_reducible refine OnlyChanges.thd_of (by with_reducible assumption) ?_
    | intro _
    | split
    | dsimp only
    | with_reducible refine OnlyChanges.of_mk ?_ rfl rfl

theorem State.fallowTimeout_only {s : State} (hw : [.regs, .out, .power, .display, .dpls, .touch, .haptic, .audio, .fetchStopped, .msiPending] ⊆ pcs) (hs : OnlyChanges s0 s pcs) :
    OnlyChanges s0 (State.fallowTimeout s) pcs := by
  unfold State.fallowTimeout
  repeat' first
    | with_reducible assumption
    | with_reducible apply foldl_only
    | with_reducible refine State.refuseEntry_only _ (List.Subset.trans (by decide) hw) ?_
    | with_reducible refine OnlyChanges.snd_of (by with_reducible assumption) ?_
    | with_reducible refine OnlyChanges.thd_of (by with_reducible assumption) ?_
    | intro _
    | split
    | dsimp only

theorem State.loseIsland_only {s : State} (i : Nat) (hw : [.regs, .shad] ⊆ pcs) (hs : OnlyChanges s0 s pcs) :
    OnlyChanges s0 (State.loseIsland s i) pcs := by
  unfold State.loseIsland
  repeat' first
    | with_reducible assumption
    | with_reducible apply foldl_only
    | with_reducible refine State.setRw_only _ _ (List.Subset.trans (by decide) hw) ?_
    | with_reducible refine State.setSw_only _ _ (List.Subset.trans (by decide) hw) ?_
    | with_reducible refine OnlyChanges.snd_of (by with_reducible assumption) ?_
    | with_reducible refine OnlyChanges.thd_of (by with_reducible assumption) ?_
    | intro _
    | split
    | dsimp only
    | with_reducible refine OnlyChanges.of_mk ?_ rfl rfl

theorem State.islWrite_only (a : RegAcc) {s : State} (hw : [.regs, .shad, .out, .msiPending] ⊆ pcs) (hs : OnlyChanges s0 s pcs) :
    OnlyChanges s0 (State.islWrite a s) pcs := by
  unfold State.islWrite
  repeat' first
    | with_reducible assumption
    | with_reducible apply foldl_only
    | with_reducible refine State.setRw_only _ _ (List.Subset.trans (by decide) hw) ?_
    | with_reducible refine State.recErr_only _ _ _ (List.Subset.trans (by decide) hw) ?_
    | with_reducible refine State.recAcc_only _ _ (List.Subset.trans (by decide) hw) ?_
    | with_reducible refine State.recRefused_only _ (List.Subset.trans (by decide) hw) ?_
    | with_reducible refine State.loseIsland_only _ (List.Subset.trans (by decide) hw) ?_
    | with_reducible refine OnlyChanges.snd_of (by with_reducible assumption) ?_
    | with_reducible refine OnlyChanges.thd_of (by with_reducible assumption) ?_
    | intro _
    | split
    | dsimp only

theorem State.wakeLimitWrite_only (a : RegAcc) {s : State} (hw : [.regs, .shad, .out, .msiPending] ⊆ pcs) (hs : OnlyChanges s0 s pcs) :
    OnlyChanges s0 (State.wakeLimitWrite a s) pcs := by
  unfold State.wakeLimitWrite
  repeat' first
    | with_reducible assumption
    | with_reducible apply foldl_only
    | with_reducible refine State.refuse_only _ _ (List.Subset.trans (by decide) hw) ?_
    | with_reducible refine State.plainWrite_only _ _ (List.Subset.trans (by decide) hw) ?_
    | with_reducible refine OnlyChanges.snd_of (by with_reducible assumption) ?_
    | with_reducible refine OnlyChanges.thd_of (by with_reducible assumption) ?_
    | intro _
    | split
    | dsimp only

theorem State.twakeWrite_only (a : RegAcc) {s : State} (hw : [.regs, .shad, .out, .msiPending] ⊆ pcs) (hs : OnlyChanges s0 s pcs) :
    OnlyChanges s0 (State.twakeWrite a s) pcs := by
  unfold State.twakeWrite
  repeat' first
    | with_reducible assumption
    | with_reducible apply foldl_only
    | with_reducible refine State.refuse_only _ _ (List.Subset.trans (by decide) hw) ?_
    | with_reducible refine State.plainWrite_only _ _ (List.Subset.trans (by decide) hw) ?_
    | with_reducible refine OnlyChanges.snd_of (by with_reducible assumption) ?_
    | with_reducible refine OnlyChanges.thd_of (by with_reducible assumption) ?_
    | intro _
    | split
    | dsimp only

theorem State.alarmWrite_only (a : RegAcc) {s : State} (hw : [.regs, .shad, .out, .power, .msiPending] ⊆ pcs) (hs : OnlyChanges s0 s pcs) :
    OnlyChanges s0 (State.alarmWrite a s) pcs := by
  unfold State.alarmWrite
  repeat' first
    | with_reducible assumption
    | with_reducible apply foldl_only
    | with_reducible refine State.recRefused_only _ (List.Subset.trans (by decide) hw) ?_
    | with_reducible refine State.plainWrite_only _ _ (List.Subset.trans (by decide) hw) ?_
    | with_reducible refine OnlyChanges.snd_of (by with_reducible assumption) ?_
    | with_reducible refine OnlyChanges.thd_of (by with_reducible assumption) ?_
    | intro _
    | split
    | dsimp only
    | with_reducible refine OnlyChanges.of_mk ?_ rfl rfl

theorem State.timSetWrite_only (a : RegAcc) {s : State} (hw : [.regs, .out, .time, .msiPending] ⊆ pcs) (hs : OnlyChanges s0 s pcs) :
    OnlyChanges s0 (State.timSetWrite a s) pcs := by
  unfold State.timSetWrite
  repeat' first
    | with_reducible assumption
    | with_reducible apply foldl_only
    | with_reducible refine State.setFld_only _ _ _ _ (List.Subset.trans (by decide) hw) ?_
    | with_reducible refine State.event_only _ _ (List.Subset.trans (by decide) hw) ?_
    | with_reducible refine State.recRefused_only _ (List.Subset.trans (by decide) hw) ?_
    | with_reducible refine State.refuse_only _ _ (List.Subset.trans (by decide) hw) ?_
    | with_reducible refine State.clearBridged_only  (List.Subset.trans (by decide) hw) ?_
    | with_reducible refine OnlyChanges.snd_of (by with_reducible assumption) ?_
    | with_reducible refine OnlyChanges.thd_of (by with_reducible assumption) ?_
    | intro _
    | split
    | dsimp only
    | with_reducible refine OnlyChanges.of_mk ?_ rfl rfl

theorem State.timTrimWrite_only (a : RegAcc) {s : State} (hw : [.regs, .shad, .out, .msiPending] ⊆ pcs) (hs : OnlyChanges s0 s pcs) :
    OnlyChanges s0 (State.timTrimWrite a s) pcs := by
  unfold State.timTrimWrite
  repeat' first
    | with_reducible assumption
    | with_reducible apply foldl_only
    | with_reducible refine State.refuse_only _ _ (List.Subset.trans (by decide) hw) ?_
    | with_reducible refine State.plainWrite_only _ _ (List.Subset.trans (by decide) hw) ?_
    | with_reducible refine OnlyChanges.snd_of (by with_reducible assumption) ?_
    | with_reducible refine OnlyChanges.thd_of (by with_reducible assumption) ?_
    | intro _
    | split
    | dsimp only

theorem State.timCal_only {s : State} (c : Nat) (hw : [.regs] ⊆ pcs) (hs : OnlyChanges s0 s pcs) :
    OnlyChanges s0 (State.timCal s c) pcs := by
  unfold State.timCal
  repeat' first
    | with_reducible assumption
    | with_reducible apply foldl_only
    | with_reducible refine State.setFld_only _ _ _ _ (List.Subset.trans (by decide) hw) ?_
    | with_reducible refine OnlyChanges.snd_of (by with_reducible assumption) ?_
    | with_reducible refine OnlyChanges.thd_of (by with_reducible assumption) ?_
    | intro _
    | split
    | dsimp only

theorem State.pmbWrite_only (a : RegAcc) {s : State} (hw : [.regs, .shad, .out, .power, .msiPending] ⊆ pcs) (hs : OnlyChanges s0 s pcs) :
    OnlyChanges s0 (State.pmbWrite a s) pcs := by
  unfold State.pmbWrite
  repeat' first
    | with_reducible assumption
    | with_reducible apply foldl_only
    | with_reducible refine State.setFld_only _ _ _ _ (List.Subset.trans (by decide) hw) ?_
    | with_reducible refine State.emit_only _ (List.Subset.trans (by decide) hw) ?_
    | with_reducible refine State.recErr_only _ _ _ (List.Subset.trans (by decide) hw) ?_
    | with_reducible refine State.recRefused_only _ (List.Subset.trans (by decide) hw) ?_
    | with_reducible refine State.refuse_only _ _ (List.Subset.trans (by decide) hw) ?_
    | with_reducible refine State.plainWrite_only _ _ (List.Subset.trans (by decide) hw) ?_
    | with_reducible refine OnlyChanges.snd_of (by with_reducible assumption) ?_
    | with_reducible refine OnlyChanges.thd_of (by with_reducible assumption) ?_
    | intro _
    | split
    | dsimp only
    | with_reducible refine OnlyChanges.of_mk ?_ rfl rfl

theorem State.pmbEnd_only {s : State} (ok : Bool) (pec : Bool) (data : Nat) (hw : [.regs, .out, .power, .msiPending] ⊆ pcs) (hs : OnlyChanges s0 s pcs) :
    OnlyChanges s0 (State.pmbEnd s ok pec data) pcs := by
  unfold State.pmbEnd
  repeat' first
    | with_reducible assumption
    | with_reducible apply foldl_only
    | with_reducible refine State.setFld_only _ _ _ _ (List.Subset.trans (by decide) hw) ?_
    | with_reducible refine State.event_only _ _ (List.Subset.trans (by decide) hw) ?_
    | with_reducible refine OnlyChanges.snd_of (by with_reducible assumption) ?_
    | with_reducible refine OnlyChanges.thd_of (by with_reducible assumption) ?_
    | intro _
    | split
    | dsimp only
    | with_reducible refine OnlyChanges.of_mk ?_ rfl rfl

theorem State.vholdMeasure_only {s : State} (mv : Nat) (cap : Nat) (mohm : Nat) (meets : Bool) (hw : [.regs, .out, .faults, .msiPending] ⊆ pcs) (hs : OnlyChanges s0 s pcs) :
    OnlyChanges s0 (State.vholdMeasure s mv cap mohm meets) pcs := by
  unfold State.vholdMeasure
  repeat' first
    | with_reducible assumption
    | with_reducible apply foldl_only
    | with_reducible refine State.setFld_only _ _ _ _ (List.Subset.trans (by decide) hw) ?_
    | with_reducible refine State.event_only _ _ (List.Subset.trans (by decide) hw) ?_
    | with_reducible refine State.reportContained_only _ _ _ _ (List.Subset.trans (by decide) hw) ?_
    | with_reducible refine OnlyChanges.snd_of (by with_reducible assumption) ?_
    | with_reducible refine OnlyChanges.thd_of (by with_reducible assumption) ?_
    | intro _
    | split
    | dsimp only

theorem State.abortGates_only {s : State} (hw : [.regs, .out, .worlds, .msiPending] ⊆ pcs) (hs : OnlyChanges s0 s pcs) :
    OnlyChanges s0 (State.abortGates s) pcs := by
  unfold State.abortGates
  repeat' first
    | with_reducible assumption
    | with_reducible apply foldl_only
    | with_reducible refine State.scrub_only _ _ _ (List.Subset.trans (by decide) hw) ?_
    | with_reducible refine OnlyChanges.snd_of (by with_reducible assumption) ?_
    | with_reducible refine OnlyChanges.thd_of (by with_reducible assumption) ?_
    | intro _
    | split
    | dsimp only

theorem State.sagStop_only {s : State} (hw : [.regs, .shad, .mem, .out, .free, .power, .dram, .edac, .chans, .bufs, .plots, .cache, .ingest, .display, .dpls, .cvus, .touch, .haptic, .audio, .faults, .queues, .jobs, .fetchStopped, .msiPending, .pair] ⊆ pcs) (hs : OnlyChanges s0 s pcs) :
    OnlyChanges s0 (State.sagStop s) pcs := by
  unfold State.sagStop
  repeat' first
    | with_reducible assumption
    | with_reducible apply foldl_only
    | with_reducible refine State.dropCommit_only _ (List.Subset.trans (by decide) hw) ?_
    | with_reducible refine State.ingSquash_only _ _ _ (List.Subset.trans (by decide) hw) ?_
    | with_reducible refine State.cvuSquash_only _ _ _ (List.Subset.trans (by decide) hw) ?_
    | with_reducible refine State.setTouch_only _ _ (List.Subset.trans (by decide) hw) ?_
    | with_reducible refine State.setStream_only _ _ (List.Subset.trans (by decide) hw) ?_
    | with_reducible refine State.releaseRegions_only _ _ (List.Subset.trans (by decide) hw) ?_
    | with_reducible refine State.audStopped_only  (List.Subset.trans (by decide) hw) ?_
    | with_reducible refine State.setDmc_only _ _ (List.Subset.trans (by decide) hw) ?_
    | with_reducible refine State.outputsOff_only  (List.Subset.trans (by decide) hw) ?_
    | with_reducible refine State.hapticOff_only  (List.Subset.trans (by decide) hw) ?_
    | with_reducible refine OnlyChanges.snd_of (by with_reducible assumption) ?_
    | with_reducible refine OnlyChanges.thd_of (by with_reducible assumption) ?_
    | intro _
    | split
    | dsimp only
    | with_reducible refine OnlyChanges.of_mk ?_ rfl rfl

theorem State.sagSession_only {s : State} (hw : [.regs, .out, .update, .msiPending] ⊆ pcs) (hs : OnlyChanges s0 s pcs) :
    OnlyChanges s0 (State.sagSession s) pcs := by
  unfold State.sagSession
  repeat' first
    | with_reducible assumption
    | with_reducible apply foldl_only
    | with_reducible refine State.setFld_only _ _ _ _ (List.Subset.trans (by decide) hw) ?_
    | with_reducible refine State.event_only _ _ (List.Subset.trans (by decide) hw) ?_
    | with_reducible refine State.recErr_only _ _ _ (List.Subset.trans (by decide) hw) ?_
    | with_reducible refine State.setUpd_only _ (List.Subset.trans (by decide) hw) ?_
    | with_reducible refine State.closeSession_only  (List.Subset.trans (by decide) hw) ?_
    | with_reducible refine OnlyChanges.snd_of (by with_reducible assumption) ?_
    | with_reducible refine OnlyChanges.thd_of (by with_reducible assumption) ?_
    | intro _
    | split
    | dsimp only
    | with_reducible refine OnlyChanges.of_mk ?_ rfl rfl

theorem State.sagSurvey_only {s : State} (hw : [.regs, .age] ⊆ pcs) (hs : OnlyChanges s0 s pcs) :
    OnlyChanges s0 (State.sagSurvey s) pcs := by
  unfold State.sagSurvey
  repeat' first
    | with_reducible assumption
    | with_reducible apply foldl_only
    | with_reducible refine State.setAge_only _ (List.Subset.trans (by decide) hw) ?_
    | with_reducible refine OnlyChanges.snd_of (by with_reducible assumption) ?_
    | with_reducible refine OnlyChanges.thd_of (by with_reducible assumption) ?_
    | intro _
    | split
    | dsimp only

theorem State.sag_only {s : State} (hw : [.regs, .shad, .mem, .out, .free, .time, .power, .dram, .edac, .chans, .bufs, .plots, .cache, .ingest, .display, .dpls, .cvus, .touch, .haptic, .audio, .age, .update, .faults, .worlds, .queues, .jobs, .fetchStopped, .msiPending, .pair] ⊆ pcs) (hs : OnlyChanges s0 s pcs) :
    OnlyChanges s0 (State.sag s) pcs := by
  unfold State.sag
  repeat' first
    | with_reducible assumption
    | with_reducible apply foldl_only
    | with_reducible refine State.setFld_only _ _ _ _ (List.Subset.trans (by decide) hw) ?_
    | with_reducible refine State.enterPower_only _ (List.Subset.trans (by decide) hw) ?_
    | with_reducible refine State.captureTime_only  (List.Subset.trans (by decide) hw) ?_
    | with_reducible refine State.selfRefreshEntry_only  (List.Subset.trans (by decide) hw) ?_
    | with_reducible refine State.saveList_only _ (List.Subset.trans (by decide) hw) ?_
    | with_reducible refine State.copyDomains_only  (List.Subset.trans (by decide) hw) ?_
    | with_reducible refine State.abortGates_only  (List.Subset.trans (by decide) hw) ?_
    | with_reducible refine State.sagStop_only  (List.Subset.trans (by decide) hw) ?_
    | with_reducible refine State.sagSession_only  (List.Subset.trans (by decide) hw) ?_
    | with_reducible refine State.sagSurvey_only  (List.Subset.trans (by decide) hw) ?_
    | with_reducible refine OnlyChanges.snd_of (by with_reducible assumption) ?_
    | with_reducible refine OnlyChanges.thd_of (by with_reducible assumption) ?_
    | intro _
    | split
    | dsimp only
    | with_reducible refine OnlyChanges.of_mk ?_ rfl rfl

theorem State.startSave_only {s : State} (hw : [.power, .faults] ⊆ pcs) (hs : OnlyChanges s0 s pcs) :
    OnlyChanges s0 (State.startSave s) pcs := by
  unfold State.startSave
  repeat' first
    | with_reducible assumption
    | with_reducible apply foldl_only
    | with_reducible refine State.writeTail_only  (List.Subset.trans (by decide) hw) ?_
    | with_reducible refine OnlyChanges.snd_of (by with_reducible assumption) ?_
    | with_reducible refine OnlyChanges.thd_of (by with_reducible assumption) ?_
    | intro _
    | split
    | dsimp only
    | with_reducible refine OnlyChanges.of_mk ?_ rfl rfl

theorem State.putSlot_only {s : State} (ok : Bool) (hw : [.power] ⊆ pcs) (hs : OnlyChanges s0 s pcs) :
    OnlyChanges s0 (State.putSlot s ok) pcs := by
  unfold State.putSlot
  repeat' first
    | with_reducible assumption
    | with_reducible apply foldl_only
    | with_reducible refine OnlyChanges.snd_of (by with_reducible assumption) ?_
    | with_reducible refine OnlyChanges.thd_of (by with_reducible assumption) ?_
    | intro _
    | split
    | dsimp only
    | with_reducible refine OnlyChanges.of_mk ?_ rfl rfl

theorem State.saveEnd_only {s : State} (fault : Nat) (hw : [.regs, .out, .power, .msiPending] ⊆ pcs) (hs : OnlyChanges s0 s pcs) :
    OnlyChanges s0 (State.saveEnd s fault) pcs := by
  unfold State.saveEnd
  repeat' first
    | with_reducible assumption
    | with_reducible apply foldl_only
    | with_reducible refine State.setFld_only _ _ _ _ (List.Subset.trans (by decide) hw) ?_
    | with_reducible refine State.satFld_only _ _ _ _ (List.Subset.trans (by decide) hw) ?_
    | with_reducible refine State.recErr_only _ _ _ (List.Subset.trans (by decide) hw) ?_
    | with_reducible refine State.putSlot_only _ (List.Subset.trans (by decide) hw) ?_
    | with_reducible refine OnlyChanges.snd_of (by with_reducible assumption) ?_
    | with_reducible refine OnlyChanges.thd_of (by with_reducible assumption) ?_
    | intro _
    | split
    | dsimp only
    | with_reducible refine OnlyChanges.of_mk ?_ rfl rfl

theorem State.mramSaveDone_only {s : State} (err : Bool) (hw : [.regs, .out, .power, .msiPending] ⊆ pcs) (hs : OnlyChanges s0 s pcs) :
    OnlyChanges s0 (State.mramSaveDone s err) pcs := by
  unfold State.mramSaveDone
  repeat' first
    | with_reducible assumption
    | with_reducible apply foldl_only
    | with_reducible refine State.saveEnd_only _ (List.Subset.trans (by decide) hw) ?_
    | with_reducible refine OnlyChanges.snd_of (by with_reducible assumption) ?_
    | with_reducible refine OnlyChanges.thd_of (by with_reducible assumption) ?_
    | intro _
    | split
    | dsimp only

theorem State.vholdExhausted_only {s : State} (hw : [.regs, .out, .power, .msiPending] ⊆ pcs) (hs : OnlyChanges s0 s pcs) :
    OnlyChanges s0 (State.vholdExhausted s) pcs := by
  unfold State.vholdExhausted
  repeat' first
    | with_reducible assumption
    | with_reducible apply foldl_only
    | with_reducible refine State.enterPower_only _ (List.Subset.trans (by decide) hw) ?_
    | with_reducible refine State.saveEnd_only _ (List.Subset.trans (by decide) hw) ?_
    | with_reducible refine OnlyChanges.snd_of (by with_reducible assumption) ?_
    | with_reducible refine OnlyChanges.thd_of (by with_reducible assumption) ?_
    | intro _
    | split
    | dsimp only

theorem State.supplyReturn_only {s : State} (hw : [.regs, .shad, .loaded, .staged, .latched, .softResetting, .mem, .time, .power, .dram, .edac, .chans, .bufs, .plots, .fillQueue, .peak, .cache, .ingest, .display, .dpls, .cvus, .touch, .haptic, .audio, .age, .update, .faults, .worlds, .queues, .fns, .jobs, .coreEntries, .fetchStopped, .arbiter, .unmasked, .msiPending, .pair] ⊆ pcs) (hs : OnlyChanges s0 s pcs) :
    OnlyChanges s0 (State.supplyReturn s) pcs := by
  unfold State.supplyReturn
  repeat' first
    | with_reducible assumption
    | with_reducible apply foldl_only
    | with_reducible refine State.setFld_only _ _ _ _ (List.Subset.trans (by decide) hw) ?_
    | with_reducible refine State.deviceReset_only _ (List.Subset.trans (by decide) hw) ?_
    | with_reducible refine OnlyChanges.snd_of (by with_reducible assumption) ?_
    | with_reducible refine OnlyChanges.thd_of (by with_reducible assumption) ?_
    | intro _
    | split
    | dsimp only

end Sys2Proof.Machine
end

