-- ==== Sys2Proof/Laws/FrameFetch.lean ====
section
/-! SUPPORT. What every operation of Machine/Fetch.lean leaves alone. -/

namespace Sys2Proof.Machine

set_option Elab.async false
set_option linter.all false

variable {s0 : State} {pcs : List Piece}

theorem State.dispatch_only {s : State} (opcode : Nat) (c : CmdArgs) (hw : [.regs, .shad, .mem, .out, .power, .dram, .edac, .chans, .bufs, .plots, .fillQueue, .peak, .cache, .ingest, .display, .cvus, .haptic, .audio, .update, .faults, .queues, .fns, .jobs, .msiPending, .pair] ⊆ pcs) (hs : OnlyChanges s0 s pcs) :
    OnlyChanges s0 (State.dispatch s opcode c) pcs := by
  unfold State.dispatch
  repeat' first
    | with_reducible assumption
    | with_reducible apply foldl_only
    | with_reducible refine State.carryEntry_only _ _ _ (List.Subset.trans (by decide) hw) ?_ ?_
    | with_reducible refine State.carryChannelCreate_only _ (List.Subset.trans (by decide) hw) ?_
    | with_reducible refine State.carryChannelDestroy_only _ (List.Subset.trans (by decide) hw) ?_
    | with_reducible refine State.carryBufferAlloc_only _ (List.Subset.trans (by decide) hw) ?_
    | with_reducible refine State.carryBufferFree_only _ (List.Subset.trans (by decide) hw) ?_
    | with_reducible refine State.carryBufferQuery_only _ (List.Subset.trans (by decide) hw) ?_
    | with_reducible refine State.carryFnQuery_only _ (List.Subset.trans (by decide) hw) ?_
    | with_reducible refine State.carryNop_only _ (List.Subset.trans (by decide) hw) ?_
    | with_reducible refine State.carryIngest_only _ (List.Subset.trans (by decide) hw) ?_
    | with_reducible refine State.carryScan_only _ (List.Subset.trans (by decide) hw) ?_
    | with_reducible refine State.carryHapticPlay_only _ (List.Subset.trans (by decide) hw) ?_
    | with_reducible refine State.carryTouchRule_only _ (List.Subset.trans (by decide) hw) ?_
    | with_reducible refine State.carryAudioQueue_only _ (List.Subset.trans (by decide) hw) ?_
    | with_reducible refine State.commitCommand_only _ (List.Subset.trans (by decide) hw) ?_
    | with_reducible refine State.carryFnReset_only _ (List.Subset.trans (by decide) hw) ?_
    | with_reducible refine OnlyChanges.snd_of (by with_reducible assumption) ?_
    | with_reducible refine OnlyChanges.thd_of (by with_reducible assumption) ?_
    | intro _
    | split
    | dsimp only

theorem State.coreFetch_only {s : State} (hw : [.regs, .shad, .mem, .out, .power, .dram, .edac, .chans, .bufs, .plots, .fillQueue, .peak, .cache, .ingest, .display, .cvus, .haptic, .audio, .update, .faults, .queues, .fns, .jobs, .coreEntries, .msiPending, .pair] ⊆ pcs) (hs : OnlyChanges s0 s pcs) :
    OnlyChanges s0 (State.coreFetch s) pcs := by
  unfold State.coreFetch
  repeat' first
    | with_reducible assumption
    | with_reducible apply foldl_only
    | with_reducible refine State.dispatch_only _ _ (List.Subset.trans (by decide) hw) ?_
    | with_reducible refine OnlyChanges.snd_of (by with_reducible assumption) ?_
    | with_reducible refine OnlyChanges.thd_of (by with_reducible assumption) ?_
    | intro _
    | split
    | dsimp only
    | with_reducible refine OnlyChanges.of_mk ?_ rfl rfl

theorem State.commandFetch_only {s : State} (x1 : Nat) (ws : List Word32) (hw : [.regs, .shad, .mem, .out, .power, .dram, .edac, .chans, .bufs, .plots, .fillQueue, .peak, .cache, .ingest, .display, .cvus, .haptic, .audio, .update, .faults, .queues, .fns, .jobs, .coreEntries, .arbiter, .msiPending, .pair] ⊆ pcs) (hs : OnlyChanges s0 s pcs) :
    OnlyChanges s0 (State.commandFetch s x1 ws) pcs := by
  unfold State.commandFetch
  repeat' first
    | with_reducible assumption
    | with_reducible apply foldl_only
    | with_reducible refine State.setQueue_only _ _ _ (List.Subset.trans (by decide) hw) ?_
    | with_reducible refine State.pickFn_only _ _ (List.Subset.trans (by decide) hw) ?_
    | with_reducible refine State.served_only _ _ (List.Subset.trans (by decide) hw) ?_
    | with_reducible refine State.dispatch_only _ _ (List.Subset.trans (by decide) hw) ?_
    | with_reducible refine State.coreFetch_only  (List.Subset.trans (by decide) hw) ?_
    | with_reducible refine OnlyChanges.snd_of (by with_reducible assumption) ?_
    | with_reducible refine OnlyChanges.thd_of (by with_reducible assumption) ?_
    | intro _
    | split
    | dsimp only
    | with_reducible refine OnlyChanges.of_mk ?_ rfl rfl

end Sys2Proof.Machine
end

