-- ==== Sys2Proof/Laws/FrameRegWrite.lean ====
section
/-! SUPPORT. What every operation of Machine/RegWrite.lean leaves alone. -/

namespace Sys2Proof.Machine

set_option Elab.async false
set_option linter.all false

variable {s0 : State} {pcs : List Piece}

theorem State.engineEnable_only (a : RegAcc) (stat : State → State) (on : Bool) {s : State} (hw : [.regs, .out, .faults, .msiPending] ⊆ pcs) (hstat : ∀ (y0 : State), OnlyChanges s0 y0 pcs → OnlyChanges s0 (stat y0) pcs) (hs : OnlyChanges s0 s pcs) :
    OnlyChanges s0 (State.engineEnable a stat on s) pcs := by
  unfold State.engineEnable
  repeat' first
    | with_reducible assumption
    | with_reducible apply foldl_only
    | with_reducible apply hstat
    | with_reducible refine State.setFld_only _ _ _ _ (List.Subset.trans (by decide) hw) ?_
    | with_reducible refine State.recErr_only _ _ _ (List.Subset.trans (by decide) hw) ?_
    | with_reducible refine State.reportContained_only _ _ _ _ (List.Subset.trans (by decide) hw) ?_
    | with_reducible refine State.plainEnable_only _ _ (List.Subset.trans (by decide) hw) ?_
    | with_reducible refine OnlyChanges.snd_of (by with_reducible assumption) ?_
    | with_reducible refine OnlyChanges.thd_of (by with_reducible assumption) ?_
    | intro _
    | split
    | dsimp only

theorem State.outputPageReset_only (a : RegAcc) (n : Nat) {s : State} (hw : [.regs, .shad, .mem, .out, .chans, .bufs, .plots, .cache, .display, .faults, .queues, .jobs, .msiPending, .pair] ⊆ pcs) (hs : OnlyChanges s0 s pcs) :
    OnlyChanges s0 (State.outputPageReset a n s) pcs := by
  unfold State.outputPageReset
  repeat' first
    | with_reducible assumption
    | with_reducible apply foldl_only
    | with_reducible refine State.mirrorWrite_only _ _ _ (List.Subset.trans (by decide) hw) ?_
    | with_reducible refine State.resetGrant_only _ _ (List.Subset.trans (by decide) hw) ?_
    | with_reducible refine State.settleFences_only _ (List.Subset.trans (by decide) hw) ?_
    | with_reducible refine State.resetPage_only _ _ (List.Subset.trans (by decide) hw) ?_
    | with_reducible refine OnlyChanges.snd_of (by with_reducible assumption) ?_
    | with_reducible refine OnlyChanges.thd_of (by with_reducible assumption) ?_
    | intro _
    | split
    | dsimp only

theorem State.poolReset_only (a : RegAcc) {s : State} (hw : [.regs, .shad, .out, .peak, .faults, .msiPending, .pair] ⊆ pcs) (hs : OnlyChanges s0 s pcs) :
    OnlyChanges s0 (State.poolReset a s) pcs := by
  unfold State.poolReset
  repeat' first
    | with_reducible assumption
    | with_reducible apply foldl_only
    | with_reducible refine State.recAcc_only _ _ (List.Subset.trans (by decide) hw) ?_
    | with_reducible refine State.mirrorWrite_only _ _ _ (List.Subset.trans (by decide) hw) ?_
    | with_reducible refine State.resetPage_only _ _ (List.Subset.trans (by decide) hw) ?_
    | with_reducible refine OnlyChanges.snd_of (by with_reducible assumption) ?_
    | with_reducible refine OnlyChanges.thd_of (by with_reducible assumption) ?_
    | intro _
    | split
    | dsimp only
    | with_reducible refine OnlyChanges.of_mk ?_ rfl rfl

theorem State.systemReset_only (pg : Page) {s : State} (hw : [.regs, .shad, .power, .cache, .faults] ⊆ pcs) (hs : OnlyChanges s0 s pcs) :
    OnlyChanges s0 (State.systemReset pg s) pcs := by
  unfold State.systemReset
  repeat' first
    | with_reducible assumption
    | with_reducible apply foldl_only
    | with_reducible refine State.resetPage_only _ _ (List.Subset.trans (by decide) hw) ?_
    | with_reducible refine OnlyChanges.snd_of (by with_reducible assumption) ?_
    | with_reducible refine OnlyChanges.thd_of (by with_reducible assumption) ?_
    | intro _
    | split
    | dsimp only
    | with_reducible refine OnlyChanges.of_mk ?_ rfl rfl

theorem State.pageEnable_only (a : RegAcc) (on : Bool) {s : State} (hw : [.regs, .shad, .mem, .out, .free, .power, .dram, .edac, .chans, .bufs, .plots, .cache, .ingest, .display, .dpls, .cvus, .touch, .haptic, .audio, .update, .faults, .queues, .fns, .jobs, .coreEntries, .fetchStopped, .unmasked, .msiPending, .pair] ⊆ pcs) (hs : OnlyChanges s0 s pcs) :
    OnlyChanges s0 (State.pageEnable a on s) pcs := by
  unfold State.pageEnable
  repeat' first
    | with_reducible assumption
    | with_reducible apply foldl_only
    | with_reducible refine State.recAcc_only _ _ (List.Subset.trans (by decide) hw) ?_
    | with_reducible refine State.poolEnable_only _ (List.Subset.trans (by decide) hw) ?_
    | with_reducible refine State.poolDisable_only _ (List.Subset.trans (by decide) hw) ?_
    | with_reducible refine State.plainEnable_only _ _ (List.Subset.trans (by decide) hw) ?_
    | with_reducible refine State.mirroredEnable_only _ _ (List.Subset.trans (by decide) hw) ?_
    | with_reducible refine State.dplEnable_only _ _ (List.Subset.trans (by decide) hw) ?_
    | with_reducible refine State.scnEnable_only _ _ (List.Subset.trans (by decide) hw) ?_
    | with_reducible refine State.ingStat_only _ (List.Subset.trans (by decide) hw) ?_
    | with_reducible refine State.cvuStat_only _ (List.Subset.trans (by decide) hw) ?_
    | with_reducible refine State.tchEnable_only _ _ (List.Subset.trans (by decide) hw) ?_
    | with_reducible refine State.hapBlockEnable_only _ _ (List.Subset.trans (by decide) hw) ?_
    | with_reducible refine State.audEnable_only _ _ (List.Subset.trans (by decide) hw) ?_
    | with_reducible refine State.plkEnable_only _ _ (List.Subset.trans (by decide) hw) ?_
    | with_reducible refine State.dmcEnable_only _ _ (List.Subset.trans (by decide) hw) ?_
    | with_reducible refine State.engineEnable_only _ _ _ (List.Subset.trans (by decide) hw) ?_ ?_
    | with_reducible refine OnlyChanges.snd_of (by with_reducible assumption) ?_
    | with_reducible refine OnlyChanges.thd_of (by with_reducible assumption) ?_
    | intro _
    | split
    | dsimp only

theorem State.pageReset_only (a : RegAcc) {s : State} (hw : [.regs, .shad, .softResetting, .mem, .out, .free, .power, .dram, .edac, .chans, .bufs, .plots, .peak, .cache, .ingest, .display, .dpls, .cvus, .touch, .haptic, .audio, .update, .faults, .queues, .fns, .jobs, .coreEntries, .fetchStopped, .unmasked, .msiPending, .pair] ⊆ pcs) (hs : OnlyChanges s0 s pcs) :
    OnlyChanges s0 (State.pageReset a s) pcs := by
  unfold State.pageReset
  repeat' first
    | with_reducible assumption
    | with_reducible apply foldl_only
    | with_reducible refine State.recAcc_only _ _ (List.Subset.trans (by decide) hw) ?_
    | with_reducible refine State.resetPage_only _ _ (List.Subset.trans (by decide) hw) ?_
    | with_reducible refine State.dplReset_only _ (List.Subset.trans (by decide) hw) ?_
    | with_reducible refine State.scnReset_only _ (List.Subset.trans (by decide) hw) ?_
    | with_reducible refine State.ingSquash_only _ _ _ (List.Subset.trans (by decide) hw) ?_
    | with_reducible refine State.cvuSquash_only _ _ _ (List.Subset.trans (by decide) hw) ?_
    | with_reducible refine State.tchReset_only _ (List.Subset.trans (by decide) hw) ?_
    | with_reducible refine State.hapBlockReset_only _ (List.Subset.trans (by decide) hw) ?_
    | with_reducible refine State.audReset_only _ (List.Subset.trans (by decide) hw) ?_
    | with_reducible refine State.plkReset_only _ (List.Subset.trans (by decide) hw) ?_
    | with_reducible refine State.edacReset_only  (List.Subset.trans (by decide) hw) ?_
    | with_reducible refine State.hpReset_only _ (List.Subset.trans (by decide) hw) ?_
    | with_reducible refine State.dmcReset_only _ (List.Subset.trans (by decide) hw) ?_
    | with_reducible refine State.outputPageReset_only _ _ (List.Subset.trans (by decide) hw) ?_
    | with_reducible refine State.poolReset_only _ (List.Subset.trans (by decide) hw) ?_
    | with_reducible refine State.systemReset_only _ (List.Subset.trans (by decide) hw) ?_
    | with_reducible refine OnlyChanges.snd_of (by with_reducible assumption) ?_
    | with_reducible refine OnlyChanges.thd_of (by with_reducible assumption) ?_
    | intro _
    | split
    | dsimp only

theorem State.pgCtrl_only (a : RegAcc) {s : State} (hw : [.regs, .shad, .softResetting, .mem, .out, .free, .power, .dram, .edac, .chans, .bufs, .plots, .peak, .cache, .ingest, .display, .dpls, .cvus, .touch, .haptic, .audio, .update, .faults, .queues, .fns, .jobs, .coreEntries, .fetchStopped, .unmasked, .msiPending, .pair] ⊆ pcs) (hs : OnlyChanges s0 s pcs) :
    OnlyChanges s0 (State.pgCtrl a s) pcs := by
  unfold State.pgCtrl
  repeat' first
    | with_reducible assumption
    | with_reducible apply foldl_only
    | with_reducible refine State.ctrlWrite_only _ _ _ (List.Subset.trans (by decide) hw) ?_ ?_ ?_
    | with_reducible refine State.vfCtrlWrite_only _ _ (List.Subset.trans (by decide) hw) ?_
    | with_reducible refine State.pageEnable_only _ _ (List.Subset.trans (by decide) hw) ?_
    | with_reducible refine State.pageReset_only _ (List.Subset.trans (by decide) hw) ?_
    | with_reducible refine OnlyChanges.snd_of (by with_reducible assumption) ?_
    | with_reducible refine OnlyChanges.thd_of (by with_reducible assumption) ?_
    | intro _
    | split
    | dsimp only

theorem State.weightWrite_only (a : RegAcc) {s : State} (hw : [.regs, .out, .msiPending] ⊆ pcs) (hs : OnlyChanges s0 s pcs) :
    OnlyChanges s0 (State.weightWrite a s) pcs := by
  unfold State.weightWrite
  repeat' first
    | with_reducible assumption
    | with_reducible apply foldl_only
    | with_reducible refine State.setRw_only _ _ (List.Subset.trans (by decide) hw) ?_
    | with_reducible refine State.recRefused_only _ (List.Subset.trans (by decide) hw) ?_
    | with_reducible refine OnlyChanges.snd_of (by with_reducible assumption) ?_
    | with_reducible refine OnlyChanges.thd_of (by with_reducible assumption) ?_
    | intro _
    | split
    | dsimp only

theorem State.ownTableWrite_only (a : RegAcc) {s : State} (hw : [.regs, .shad, .out, .msiPending] ⊆ pcs) (hs : OnlyChanges s0 s pcs) :
    OnlyChanges s0 (State.ownTableWrite a s) pcs := by
  unfold State.ownTableWrite
  repeat' first
    | with_reducible assumption
    | with_reducible apply foldl_only
    | with_reducible refine State.refuse_only _ _ (List.Subset.trans (by decide) hw) ?_
    | with_reducible refine State.plainWrite_only _ _ (List.Subset.trans (by decide) hw) ?_
    | with_reducible refine OnlyChanges.snd_of (by with_reducible assumption) ?_
    | with_reducible refine OnlyChanges.thd_of (by with_reducible assumption) ?_
    | intro _
    | split
    | dsimp only

theorem State.fnCritWrite_only (a : RegAcc) {s : State} (hw : [.regs, .out, .msiPending, .pair] ⊆ pcs) (hs : OnlyChanges s0 s pcs) :
    OnlyChanges s0 (State.fnCritWrite a s) pcs := by
  unfold State.fnCritWrite
  repeat' first
    | with_reducible assumption
    | with_reducible apply foldl_only
    | with_reducible refine State.setRw_only _ _ (List.Subset.trans (by decide) hw) ?_
    | with_reducible refine State.recRefused_only _ (List.Subset.trans (by decide) hw) ?_
    | with_reducible refine State.mirror_only _ (List.Subset.trans (by decide) hw) ?_
    | with_reducible refine OnlyChanges.snd_of (by with_reducible assumption) ?_
    | with_reducible refine OnlyChanges.thd_of (by with_reducible assumption) ?_
    | intro _
    | split
    | dsimp only

theorem State.chkCtrlWrite_only (a : RegAcc) {s : State} (hw : [.regs, .shad, .out, .msiPending] ⊆ pcs) (hs : OnlyChanges s0 s pcs) :
    OnlyChanges s0 (State.chkCtrlWrite a s) pcs := by
  unfold State.chkCtrlWrite
  repeat' first
    | with_reducible assumption
    | with_reducible apply foldl_only
    | with_reducible refine State.refuse_only _ _ (List.Subset.trans (by decide) hw) ?_
    | with_reducible refine State.plainWrite_only _ _ (List.Subset.trans (by decide) hw) ?_
    | with_reducible refine OnlyChanges.snd_of (by with_reducible assumption) ?_
    | with_reducible refine OnlyChanges.thd_of (by with_reducible assumption) ?_
    | intro _
    | split
    | dsimp only

theorem State.plainWord_only (a : RegAcc) {s : State} (hw : [.regs, .shad, .out, .msiPending, .pair] ⊆ pcs) (hs : OnlyChanges s0 s pcs) :
    OnlyChanges s0 (State.plainWord a s) pcs := by
  unfold State.plainWord
  repeat' first
    | with_reducible assumption
    | with_reducible apply foldl_only
    | with_reducible refine State.plainWrite_only _ _ (List.Subset.trans (by decide) hw) ?_
    | with_reducible refine State.mirrorWrite_only _ _ _ (List.Subset.trans (by decide) hw) ?_
    | with_reducible refine OnlyChanges.snd_of (by with_reducible assumption) ?_
    | with_reducible refine OnlyChanges.thd_of (by with_reducible assumption) ?_
    | intro _
    | split
    | dsimp only

theorem State.earlyEnd_only {s : State} (n : Nat) (owner : Bool) (hw : [.regs, .shad, .mem, .out, .chans, .bufs, .plots, .cache, .display, .faults, .queues, .jobs, .msiPending, .pair] ⊆ pcs) (hs : OnlyChanges s0 s pcs) :
    OnlyChanges s0 (State.earlyEnd s n owner) pcs := by
  unfold State.earlyEnd
  repeat' first
    | with_reducible assumption
    | with_reducible apply foldl_only
    | with_reducible refine State.setRw_only _ _ (List.Subset.trans (by decide) hw) ?_
    | with_reducible refine State.setFld_only _ _ _ _ (List.Subset.trans (by decide) hw) ?_
    | with_reducible refine State.setSfld_only _ _ _ _ (List.Subset.trans (by decide) hw) ?_
    | with_reducible refine State.event_only _ _ (List.Subset.trans (by decide) hw) ?_
    | with_reducible refine State.mirror_only _ (List.Subset.trans (by decide) hw) ?_
    | with_reducible refine State.destroyChan_only _ _ (List.Subset.trans (by decide) hw) ?_
    | with_reducible refine State.settleFences_only _ (List.Subset.trans (by decide) hw) ?_
    | with_reducible refine State.plainEnable_only _ _ (List.Subset.trans (by decide) hw) ?_
    | with_reducible refine OnlyChanges.snd_of (by with_reducible assumption) ?_
    | with_reducible refine OnlyChanges.thd_of (by with_reducible assumption) ?_
    | intro _
    | split
    | dsimp only
    | with_reducible refine OnlyChanges.of_mk ?_ rfl rfl

theorem State.containWrite_only (a : RegAcc) {s : State} (hw : [.regs, .shad, .out, .faults, .msiPending] ⊆ pcs) (hs : OnlyChanges s0 s pcs) :
    OnlyChanges s0 (State.containWrite a s) pcs := by
  unfold State.containWrite
  repeat' first
    | with_reducible assumption
    | with_reducible apply foldl_only
    | with_reducible refine State.plainWrite_only _ _ (List.Subset.trans (by decide) hw) ?_
    | with_reducible refine OnlyChanges.snd_of (by with_reducible assumption) ?_
    | with_reducible refine OnlyChanges.thd_of (by with_reducible assumption) ?_
    | intro _
    | split
    | dsimp only
    | with_reducible refine OnlyChanges.of_mk ?_ rfl rfl

theorem State.sysEarlyWrite_only (a : RegAcc) {s : State} (hw : [.regs, .shad, .mem, .out, .chans, .bufs, .plots, .cache, .display, .faults, .queues, .jobs, .msiPending, .pair] ⊆ pcs) (hs : OnlyChanges s0 s pcs) :
    OnlyChanges s0 (State.sysEarlyWrite a s) pcs := by
  unfold State.sysEarlyWrite
  repeat' first
    | with_reducible assumption
    | with_reducible apply foldl_only
    | with_reducible refine State.recAcc_only _ _ (List.Subset.trans (by decide) hw) ?_
    | with_reducible refine State.recRefused_only _ (List.Subset.trans (by decide) hw) ?_
    | with_reducible refine State.earlyEnd_only _ _ (List.Subset.trans (by decide) hw) ?_
    | with_reducible refine OnlyChanges.snd_of (by with_reducible assumption) ?_
    | with_reducible refine OnlyChanges.thd_of (by with_reducible assumption) ?_
    | intro _
    | split
    | dsimp only

theorem State.ownerWord_only (a : RegAcc) {s : State} (hw : [.regs, .shad, .staged, .latched, .mem, .out, .dram, .edac, .chans, .bufs, .plots, .cache, .display, .faults, .queues, .jobs, .msiPending, .pair] ⊆ pcs) (hs : OnlyChanges s0 s pcs) :
    OnlyChanges s0 (State.ownerWord a s) pcs := by
  unfold State.ownerWord
  repeat' first
    | with_reducible assumption
    | with_reducible apply foldl_only
    | with_reducible refine State.ownerWrite_only _ (List.Subset.trans (by decide) hw) ?_
    | with_reducible refine State.earlyEnd_only _ _ (List.Subset.trans (by decide) hw) ?_
    | with_reducible refine OnlyChanges.snd_of (by with_reducible assumption) ?_
    | with_reducible refine OnlyChanges.thd_of (by with_reducible assumption) ?_
    | intro _
    | split
    | dsimp only

theorem State.blockWrite_only (a : RegAcc) {s : State} (hw : [.regs, .shad, .loaded, .staged, .latched, .softResetting, .mem, .out, .time, .power, .dram, .edac, .chans, .bufs, .plots, .fillQueue, .peak, .cache, .ingest, .display, .dpls, .cvus, .touch, .haptic, .audio, .age, .update, .faults, .worlds, .queues, .fns, .jobs, .coreEntries, .fetchStopped, .arbiter, .unmasked, .msiPending, .pair] ⊆ pcs) (hs : OnlyChanges s0 s pcs) :
    OnlyChanges s0 (State.blockWrite a s) pcs := by
  unfold State.blockWrite
  repeat' first
    | with_reducible assumption
    | with_reducible apply foldl_only
    | with_reducible refine State.mirrorWrite_only _ _ _ (List.Subset.trans (by decide) hw) ?_
    | with_reducible refine State.quotaWrite_only _ (List.Subset.trans (by decide) hw) ?_
    | with_reducible refine State.shareWrite_only _ (List.Subset.trans (by decide) hw) ?_
    | with_reducible refine State.limitWrite_only _ (List.Subset.trans (by decide) hw) ?_
    | with_reducible refine State.lowMarkWrite_only _ (List.Subset.trans (by decide) hw) ?_
    | with_reducible refine State.peakClear_only _ (List.Subset.trans (by decide) hw) ?_
    | with_reducible refine State.poolPlaceWrite_only _ (List.Subset.trans (by decide) hw) ?_
    | with_reducible refine State.watermarkWrite_only _ (List.Subset.trans (by decide) hw) ?_
    | with_reducible refine State.denyClear_only _ (List.Subset.trans (by decide) hw) ?_
    | with_reducible refine State.holdWrite_only _ (List.Subset.trans (by decide) hw) ?_
    | with_reducible refine State.pmcSelWrite_only _ (List.Subset.trans (by decide) hw) ?_
    | with_reducible refine State.pmcCtrlWrite_only _ (List.Subset.trans (by decide) hw) ?_
    | with_reducible refine State.dplSetupWrite_only _ (List.Subset.trans (by decide) hw) ?_
    | with_reducible refine State.auxWordWrite_only _ (List.Subset.trans (by decide) hw) ?_
    | with_reducible refine State.auxGo_only _ (List.Subset.trans (by decide) hw) ?_
    | with_reducible refine State.genlockWrite_only _ (List.Subset.trans (by decide) hw) ?_
    | with_reducible refine State.tableWrite_only _ (List.Subset.trans (by decide) hw) ?_
    | with_reducible refine State.lutAddrWrite_only _ (List.Subset.trans (by decide) hw) ?_
    | with_reducible refine State.mgrRoleWrite_only _ (List.Subset.trans (by decide) hw) ?_
    | with_reducible refine State.ingCtrlWrite_only _ (List.Subset.trans (by decide) hw) ?_
    | with_reducible refine State.cvuCtrlWrite_only _ (List.Subset.trans (by decide) hw) ?_
    | with_reducible refine State.tchPlainWrite_only _ (List.Subset.trans (by decide) hw) ?_
    | with_reducible refine State.tchCfgWrite_only _ (List.Subset.trans (by decide) hw) ?_
    | with_reducible refine State.tchBufWrite_only _ (List.Subset.trans (by decide) hw) ?_
    | with_reducible refine State.tchRouteWrite_only _ (List.Subset.trans (by decide) hw) ?_
    | with_reducible refine State.nodeAccess_only _ _ (List.Subset.trans (by decide) hw) ?_
    | with_reducible refine State.hapCtrlWrite_only _ (List.Subset.trans (by decide) hw) ?_
    | with_reducible refine State.hapCarrierWrite_only _ (List.Subset.trans (by decide) hw) ?_
    | with_reducible refine State.audCtrlWrite_only _ (List.Subset.trans (by decide) hw) ?_
    | with_reducible refine State.audDomWrite_only _ (List.Subset.trans (by decide) hw) ?_
    | with_reducible refine State.tdmCfgWrite_only _ (List.Subset.trans (by decide) hw) ?_
    | with_reducible refine State.busCfgWrite_only _ (List.Subset.trans (by decide) hw) ?_
    | with_reducible refine State.strCfgWrite_only _ (List.Subset.trans (by decide) hw) ?_
    | with_reducible refine State.strChannelWrite_only _ (List.Subset.trans (by decide) hw) ?_
    | with_reducible refine State.plkCtrlWrite_only _ (List.Subset.trans (by decide) hw) ?_
    | with_reducible refine State.ageCtrlWrite_only _ (List.Subset.trans (by decide) hw) ?_
    | with_reducible refine State.portTargetWrite_only _ (List.Subset.trans (by decide) hw) ?_
    | with_reducible refine State.maxlatClear_only _ (List.Subset.trans (by decide) hw) ?_
    | with_reducible refine State.debtMaxClear_only _ (List.Subset.trans (by decide) hw) ?_
    | with_reducible refine State.trainCtrlWrite_only _ (List.Subset.trans (by decide) hw) ?_
    | with_reducible refine State.dmcCfgWrite_only _ (List.Subset.trans (by decide) hw) ?_
    | with_reducible refine State.wdrainWrite_only _ (List.Subset.trans (by decide) hw) ?_
    | with_reducible refine State.refCtrlWrite_only _ (List.Subset.trans (by decide) hw) ?_
    | with_reducible refine State.edacCtrlWrite_only _ (List.Subset.trans (by decide) hw) ?_
    | with_reducible refine State.regionWrite_only _ (List.Subset.trans (by decide) hw) ?_
    | with_reducible refine State.threshWrite_only _ (List.Subset.trans (by decide) hw) ?_
    | with_reducible refine State.edacLogCtrl_only _ (List.Subset.trans (by decide) hw) ?_
    | with_reducible refine State.retirePlotWrite_only _ (List.Subset.trans (by decide) hw) ?_
    | with_reducible refine State.retireBankWrite_only _ (List.Subset.trans (by decide) hw) ?_
    | with_reducible refine State.updCmdWrite_only _ (List.Subset.trans (by decide) hw) ?_
    | with_reducible refine State.updLockWrite_only _ (List.Subset.trans (by decide) hw) ?_
    | with_reducible refine State.pfResetWrite_only _ (List.Subset.trans (by decide) hw) ?_
    | with_reducible refine State.logCtrlWrite_only _ (List.Subset.trans (by decide) hw) ?_
    | with_reducible refine State.sysResetWrite_only _ (List.Subset.trans (by decide) hw) ?_
    | with_reducible refine State.pwrReqWrite_only _ (List.Subset.trans (by decide) hw) ?_
    | with_reducible refine State.saveAdd_only _ (List.Subset.trans (by decide) hw) ?_
    | with_reducible refine State.saveClear_only _ (List.Subset.trans (by decide) hw) ?_
    | with_reducible refine State.islWrite_only _ (List.Subset.trans (by decide) hw) ?_
    | with_reducible refine State.wakeLimitWrite_only _ (List.Subset.trans (by decide) hw) ?_
    | with_reducible refine State.twakeWrite_only _ (List.Subset.trans (by decide) hw) ?_
    | with_reducible refine State.alarmWrite_only _ (List.Subset.trans (by decide) hw) ?_
    | with_reducible refine State.timSetWrite_only _ (List.Subset.trans (by decide) hw) ?_
    | with_reducible refine State.timTrimWrite_only _ (List.Subset.trans (by decide) hw) ?_
    | with_reducible refine State.pmbWrite_only _ (List.Subset.trans (by decide) hw) ?_
    | with_reducible refine State.weightWrite_only _ (List.Subset.trans (by decide) hw) ?_
    | with_reducible refine State.ownTableWrite_only _ (List.Subset.trans (by decide) hw) ?_
    | with_reducible refine State.fnCritWrite_only _ (List.Subset.trans (by decide) hw) ?_
    | with_reducible refine State.chkCtrlWrite_only _ (List.Subset.trans (by decide) hw) ?_
    | with_reducible refine State.plainWord_only _ (List.Subset.trans (by decide) hw) ?_
    | with_reducible refine State.containWrite_only _ (List.Subset.trans (by decide) hw) ?_
    | with_reducible refine State.sysEarlyWrite_only _ (List.Subset.trans (by decide) hw) ?_
    | with_reducible refine OnlyChanges.snd_of (by with_reducible assumption) ?_
    | with_reducible refine OnlyChanges.thd_of (by with_reducible assumption) ?_
    | intro _
    | split
    | dsimp only

theorem State.queueWrite_only (a : RegAcc) (rel : Nat) {s : State} (hw : [.regs, .shad, .out, .power, .queues, .jobs, .msiPending] ⊆ pcs) (hs : OnlyChanges s0 s pcs) :
    OnlyChanges s0 (State.queueWrite a rel s) pcs := by
  unfold State.queueWrite
  repeat' first
    | with_reducible assumption
    | with_reducible apply foldl_only
    | with_reducible refine State.doorbellWrite_only _ (List.Subset.trans (by decide) hw) ?_
    | with_reducible refine State.qCtrlWrite_only _ (List.Subset.trans (by decide) hw) ?_
    | with_reducible refine State.qSetupWrite_only _ (List.Subset.trans (by decide) hw) ?_
    | with_reducible refine OnlyChanges.snd_of (by with_reducible assumption) ?_
    | with_reducible refine OnlyChanges.thd_of (by with_reducible assumption) ?_
    | intro _
    | split
    | dsimp only

theorem State.headerWrite_only (a : RegAcc) {s : State} (hw : [.regs, .shad, .staged, .latched, .softResetting, .mem, .out, .free, .power, .dram, .edac, .chans, .bufs, .plots, .peak, .cache, .ingest, .display, .dpls, .cvus, .touch, .haptic, .audio, .update, .faults, .queues, .fns, .jobs, .coreEntries, .fetchStopped, .unmasked, .msiPending, .pair] ⊆ pcs) (hs : OnlyChanges s0 s pcs) :
    OnlyChanges s0 (State.headerWrite a s) pcs := by
  unfold State.headerWrite
  repeat' first
    | with_reducible assumption
    | with_reducible apply foldl_only
    | with_reducible refine State.evtRawWrite_only _ (List.Subset.trans (by decide) hw) ?_
    | with_reducible refine State.evtEnWrite_only _ (List.Subset.trans (by decide) hw) ?_
    | with_reducible refine State.evtSetWrite_only _ (List.Subset.trans (by decide) hw) ?_
    | with_reducible refine State.evtRouteWrite_only _ (List.Subset.trans (by decide) hw) ?_
    | with_reducible refine State.errClear_only _ (List.Subset.trans (by decide) hw) ?_
    | with_reducible refine State.shadowCtrlWrite_only _ (List.Subset.trans (by decide) hw) ?_
    | with_reducible refine State.pgCtrl_only _ (List.Subset.trans (by decide) hw) ?_
    | with_reducible refine State.ownerWord_only _ (List.Subset.trans (by decide) hw) ?_
    | with_reducible refine OnlyChanges.snd_of (by with_reducible assumption) ?_
    | with_reducible refine OnlyChanges.thd_of (by with_reducible assumption) ?_
    | intro _
    | split
    | dsimp only

theorem State.bodyWrite_only (a : RegAcc) {s : State} (hw : [.regs, .shad, .loaded, .staged, .latched, .softResetting, .mem, .out, .time, .power, .dram, .edac, .chans, .bufs, .plots, .fillQueue, .peak, .cache, .ingest, .display, .dpls, .cvus, .touch, .haptic, .audio, .age, .update, .faults, .worlds, .queues, .fns, .jobs, .coreEntries, .fetchStopped, .arbiter, .unmasked, .msiPending, .pair] ⊆ pcs) (hs : OnlyChanges s0 s pcs) :
    OnlyChanges s0 (State.bodyWrite a s) pcs := by
  unfold State.bodyWrite
  repeat' first
    | with_reducible assumption
    | with_reducible apply foldl_only
    | with_reducible refine State.blockWrite_only _ (List.Subset.trans (by decide) hw) ?_
    | with_reducible refine State.queueWrite_only _ _ (List.Subset.trans (by decide) hw) ?_
    | with_reducible refine OnlyChanges.snd_of (by with_reducible assumption) ?_
    | with_reducible refine OnlyChanges.thd_of (by with_reducible assumption) ?_
    | intro _
    | split
    | dsimp only

theorem State.regWrite_only (a : RegAcc) {s : State} (hw : [.regs, .shad, .loaded, .staged, .latched, .softResetting, .mem, .out, .free, .time, .power, .dram, .edac, .chans, .bufs, .plots, .fillQueue, .peak, .cache, .ingest, .display, .dpls, .cvus, .touch, .haptic, .audio, .age, .update, .faults, .worlds, .queues, .fns, .jobs, .coreEntries, .fetchStopped, .arbiter, .unmasked, .msiPending, .pair] ⊆ pcs) (hs : OnlyChanges s0 s pcs) :
    OnlyChanges s0 (State.regWrite a s) pcs := by
  unfold State.regWrite
  repeat' first
    | with_reducible assumption
    | with_reducible apply foldl_only
    | with_reducible refine State.wideWrite_only _ (List.Subset.trans (by decide) hw) ?_
    | with_reducible refine State.chkEventWrite_only _ (List.Subset.trans (by decide) hw) ?_
    | with_reducible refine State.chkOwnerWrite_only _ (List.Subset.trans (by decide) hw) ?_
    | with_reducible refine State.headerWrite_only _ (List.Subset.trans (by decide) hw) ?_
    | with_reducible refine State.bodyWrite_only _ (List.Subset.trans (by decide) hw) ?_
    | with_reducible refine OnlyChanges.snd_of (by with_reducible assumption) ?_
    | with_reducible refine OnlyChanges.thd_of (by with_reducible assumption) ?_
    | intro _
    | split
    | dsimp only

theorem State.longWrite_only (w : RegWr) (lows : List Word32) {s : State} (hw : [.regs, .shad, .loaded, .staged, .latched, .softResetting, .mem, .out, .free, .time, .power, .dram, .edac, .chans, .bufs, .plots, .fillQueue, .peak, .cache, .ingest, .display, .dpls, .cvus, .touch, .haptic, .audio, .age, .update, .faults, .worlds, .queues, .fns, .jobs, .coreEntries, .fetchStopped, .arbiter, .unmasked, .msiPending, .pair] ⊆ pcs) (hs : OnlyChanges s0 s pcs) :
    OnlyChanges s0 (State.longWrite w lows s) pcs := by
  unfold State.longWrite
  repeat' first
    | with_reducible assumption
    | with_reducible apply foldl_only
    | with_reducible refine State.access_only _ _ (List.Subset.trans (by decide) hw) ?_ ?_
    | with_reducible refine State.regWrite_only _ (List.Subset.trans (by decide) hw) ?_
    | with_reducible refine OnlyChanges.snd_of (by with_reducible assumption) ?_
    | with_reducible refine OnlyChanges.thd_of (by with_reducible assumption) ?_
    | intro _
    | split
    | dsimp only

theorem State.regRead_only (a : RegAcc) {s : State} (hw : [.regs, .latched, .out, .touch, .msiPending] ⊆ pcs) (hs : OnlyChanges s0 s pcs) :
    OnlyChanges s0 (State.regRead a s) pcs := by
  unfold State.regRead
  repeat' first
    | with_reducible assumption
    | with_reducible apply foldl_only
    | with_reducible refine State.ppsDataRead_only _ (List.Subset.trans (by decide) hw) ?_
    | with_reducible refine State.tableRead_only _ (List.Subset.trans (by decide) hw) ?_
    | with_reducible refine State.nodeAccess_only _ _ (List.Subset.trans (by decide) hw) ?_
    | with_reducible refine State.plainRead_only _ (List.Subset.trans (by decide) hw) ?_
    | with_reducible refine OnlyChanges.snd_of (by with_reducible assumption) ?_
    | with_reducible refine OnlyChanges.thd_of (by with_reducible assumption) ?_
    | intro _
    | split
    | dsimp only

theorem State.waited_only {s : State} (w : Waiting) (hw : [.regs, .shad, .loaded, .staged, .latched, .softResetting, .mem, .out, .free, .time, .power, .dram, .edac, .chans, .bufs, .plots, .fillQueue, .peak, .cache, .ingest, .display, .dpls, .cvus, .touch, .haptic, .audio, .age, .update, .faults, .worlds, .queues, .fns, .jobs, .coreEntries, .fetchStopped, .arbiter, .unmasked, .msiPending, .pair] ⊆ pcs) (hs : OnlyChanges s0 s pcs) :
    OnlyChanges s0 (State.waited s w) pcs := by
  unfold State.waited
  repeat' first
    | with_reducible assumption
    | with_reducible apply foldl_only
    | with_reducible refine State.access_only _ _ (List.Subset.trans (by decide) hw) ?_ ?_
    | with_reducible refine State.accessRead_only _ _ (List.Subset.trans (by decide) hw) ?_ ?_
    | with_reducible refine State.dramRequest_only _ (List.Subset.trans (by decide) hw) ?_
    | with_reducible refine State.regWrite_only _ (List.Subset.trans (by decide) hw) ?_
    | with_reducible refine State.regRead_only _ (List.Subset.trans (by decide) hw) ?_
    | with_reducible refine OnlyChanges.snd_of (by with_reducible assumption) ?_
    | with_reducible refine OnlyChanges.thd_of (by with_reducible assumption) ?_
    | intro _
    | split
    | dsimp only

theorem State.groupWake_only {s : State} (g : Nat) (hw : [.regs, .shad, .loaded, .staged, .latched, .softResetting, .mem, .out, .free, .time, .power, .dram, .edac, .chans, .bufs, .plots, .fillQueue, .peak, .cache, .ingest, .display, .dpls, .cvus, .touch, .haptic, .audio, .age, .update, .faults, .worlds, .queues, .fns, .jobs, .coreEntries, .fetchStopped, .arbiter, .unmasked, .msiPending, .pair] ⊆ pcs) (hs : OnlyChanges s0 s pcs) :
    OnlyChanges s0 (State.groupWake s g) pcs := by
  unfold State.groupWake
  repeat' first
    | with_reducible assumption
    | with_reducible apply foldl_only
    | with_reducible refine State.setRw_only _ _ (List.Subset.trans (by decide) hw) ?_
    | with_reducible refine State.waited_only _ (List.Subset.trans (by decide) hw) ?_
    | with_reducible refine OnlyChanges.snd_of (by with_reducible assumption) ?_
    | with_reducible refine OnlyChanges.thd_of (by with_reducible assumption) ?_
    | intro _
    | split
    | dsimp only
    | with_reducible refine OnlyChanges.of_mk ?_ rfl rfl

end Sys2Proof.Machine
end

