-- ==== Sys2Proof/Laws/FrameMirror.lean ====
section
/-! SUPPORT. What every operation of Machine/Mirror.lean leaves alone. -/

namespace Sys2Proof.Machine

set_option Elab.async false
set_option linter.all false

variable {s0 : State} {pcs : List Piece}

theorem State.mirrorRefused_only {s : State} (plot : Nat) (hw : [.regs, .out, .msiPending, .pair] ⊆ pcs) (hs : OnlyChanges s0 s pcs) :
    OnlyChanges s0 (State.mirrorRefused s plot) pcs := by
  unfold State.mirrorRefused
  repeat' first
    | with_reducible assumption
    | with_reducible apply foldl_only
    | with_reducible refine State.pairDisagree_only _ _ _ (List.Subset.trans (by decide) hw) ?_
    | with_reducible refine State.resyncCause_only  (List.Subset.trans (by decide) hw) ?_
    | with_reducible refine OnlyChanges.snd_of (by with_reducible assumption) ?_
    | with_reducible refine OnlyChanges.thd_of (by with_reducible assumption) ?_
    | intro _
    | split
    | dsimp only
    | with_reducible refine OnlyChanges.of_mk ?_ rfl rfl

theorem State.mirrorWord_only {s : State} (who : Attr) (plot : Nat) (word : Nat) (poison : Bool) (data : Nat) (hw : [.regs, .mem, .out, .edac, .cache, .faults, .msiPending, .pair] ⊆ pcs) (hs : OnlyChanges s0 s pcs) :
    OnlyChanges s0 (State.mirrorWord s who plot word poison data) pcs := by
  unfold State.mirrorWord
  repeat' first
    | with_reducible assumption
    | with_reducible apply foldl_only
    | with_reducible refine State.pmcCount_only _ _ _ _ _ (List.Subset.trans (by decide) hw) ?_
    | with_reducible refine State.storeWord_only _ _ (List.Subset.trans (by decide) hw) ?_
    | with_reducible refine State.storePoison_only _ (List.Subset.trans (by decide) hw) ?_
    | with_reducible refine State.guardDram_only _ _ _ (List.Subset.trans (by decide) hw) ?_
    | with_reducible refine State.mirrorRefused_only _ (List.Subset.trans (by decide) hw) ?_
    | with_reducible refine OnlyChanges.snd_of (by with_reducible assumption) ?_
    | with_reducible refine OnlyChanges.thd_of (by with_reducible assumption) ?_
    | intro _
    | split
    | dsimp only

theorem State.mirrorPool_only {s : State} (plot : Nat) (word : Nat) (who : Attr) (poison : Nat) (data : List Nat) (hw : [.regs, .mem, .out, .edac, .cache, .faults, .msiPending, .pair] ⊆ pcs) (hs : OnlyChanges s0 s pcs) :
    OnlyChanges s0 (State.mirrorPool s plot word who poison data) pcs := by
  unfold State.mirrorPool
  repeat' first
    | with_reducible assumption
    | with_reducible apply foldl_only
    | with_reducible refine State.mirrorWord_only _ _ _ _ _ (List.Subset.trans (by decide) hw) ?_
    | with_reducible refine OnlyChanges.snd_of (by with_reducible assumption) ?_
    | with_reducible refine OnlyChanges.thd_of (by with_reducible assumption) ?_
    | intro _
    | split
    | dsimp only
    | with_reducible refine OnlyChanges.of_mk ?_ rfl rfl

theorem State.mirrorActs_only (a : RegAcc) {s : State} (hw : [.regs, .shad, .loaded, .staged, .latched, .softResetting, .mem, .out, .free, .time, .power, .dram, .edac, .chans, .bufs, .plots, .fillQueue, .peak, .cache, .ingest, .display, .dpls, .cvus, .touch, .haptic, .audio, .age, .update, .faults, .worlds, .queues, .fns, .jobs, .coreEntries, .fetchStopped, .arbiter, .unmasked, .msiPending, .pair] ⊆ pcs) (hs : OnlyChanges s0 s pcs) :
    OnlyChanges s0 (State.mirrorActs a s) pcs := by
  unfold State.mirrorActs
  repeat' first
    | with_reducible assumption
    | with_reducible apply foldl_only
    | with_reducible refine State.groupMove_only _ _ (List.Subset.trans (by decide) hw) ?_
    | with_reducible refine State.ownerApply_only _ _ (List.Subset.trans (by decide) hw) ?_
    | with_reducible refine State.chkOwnerTaken_only _ (List.Subset.trans (by decide) hw) ?_
    | with_reducible refine State.regWrite_only _ (List.Subset.trans (by decide) hw) ?_
    | with_reducible refine OnlyChanges.snd_of (by with_reducible assumption) ?_
    | with_reducible refine OnlyChanges.thd_of (by with_reducible assumption) ?_
    | intro _
    | split
    | dsimp only

theorem State.mirrorTakes_only {s : State} (pg : Page) (o : Nat) (w : Nat × Nat × Nat × Nat) (req : Req) (hw : [.regs, .shad, .loaded, .staged, .latched, .softResetting, .mem, .out, .free, .time, .power, .dram, .edac, .chans, .bufs, .plots, .fillQueue, .peak, .cache, .ingest, .display, .dpls, .cvus, .touch, .haptic, .audio, .age, .update, .faults, .worlds, .queues, .fns, .jobs, .coreEntries, .fetchStopped, .arbiter, .unmasked, .msiPending, .pair] ⊆ pcs) (hs : OnlyChanges s0 s pcs) :
    OnlyChanges s0 (State.mirrorTakes s pg o w req) pcs := by
  unfold State.mirrorTakes
  repeat' first
    | with_reducible assumption
    | with_reducible apply foldl_only
    | with_reducible refine State.setRw_only _ _ (List.Subset.trans (by decide) hw) ?_
    | with_reducible refine State.mirrorActs_only _ (List.Subset.trans (by decide) hw) ?_
    | with_reducible refine OnlyChanges.snd_of (by with_reducible assumption) ?_
    | with_reducible refine OnlyChanges.thd_of (by with_reducible assumption) ?_
    | intro _
    | split
    | dsimp only

theorem State.resyncStore_only {s : State} (pg : Page) (w : Nat × Nat × Nat × Nat) (hw : [.regs, .shad] ⊆ pcs) (hs : OnlyChanges s0 s pcs) :
    OnlyChanges s0 (State.resyncStore s pg w) pcs := by
  unfold State.resyncStore
  repeat' first
    | with_reducible assumption
    | with_reducible apply foldl_only
    | with_reducible refine State.setRw_only _ _ (List.Subset.trans (by decide) hw) ?_
    | with_reducible refine State.setSw_only _ _ (List.Subset.trans (by decide) hw) ?_
    | with_reducible refine OnlyChanges.snd_of (by with_reducible assumption) ?_
    | with_reducible refine OnlyChanges.thd_of (by with_reducible assumption) ?_
    | intro _
    | split
    | dsimp only

theorem State.mirrorReg_only {s : State} (req : Req) (w : Nat × Nat × Nat × Nat) (hw : [.regs, .shad, .loaded, .staged, .latched, .softResetting, .mem, .out, .free, .time, .power, .dram, .edac, .chans, .bufs, .plots, .fillQueue, .peak, .cache, .ingest, .display, .dpls, .cvus, .touch, .haptic, .audio, .age, .update, .faults, .worlds, .queues, .fns, .jobs, .coreEntries, .fetchStopped, .arbiter, .unmasked, .msiPending, .pair] ⊆ pcs) (hs : OnlyChanges s0 s pcs) :
    OnlyChanges s0 (State.mirrorReg s req w) pcs := by
  unfold State.mirrorReg
  repeat' first
    | with_reducible assumption
    | with_reducible apply foldl_only
    | with_reducible refine State.noteSkew_only _ _ (List.Subset.trans (by decide) hw) ?_
    | with_reducible refine State.mirrorStore_only _ _ (List.Subset.trans (by decide) hw) ?_
    | with_reducible refine State.mirrorTakes_only _ _ _ _ (List.Subset.trans (by decide) hw) ?_
    | with_reducible refine State.resyncStore_only _ _ (List.Subset.trans (by decide) hw) ?_
    | with_reducible refine OnlyChanges.snd_of (by with_reducible assumption) ?_
    | with_reducible refine OnlyChanges.thd_of (by with_reducible assumption) ?_
    | intro _
    | split
    | dsimp only
    | with_reducible refine OnlyChanges.of_mk ?_ rfl rfl

theorem State.mirrorAlloc_only {s : State} (x1 : Nat) (ch : Nat) (size : Nat) (plots : List Nat) (fill : Bool) (hw : [.regs, .mem, .out, .bufs, .plots, .peak, .cache, .msiPending] ⊆ pcs) (hs : OnlyChanges s0 s pcs) :
    OnlyChanges s0 (State.mirrorAlloc s x1 ch size plots fill) pcs := by
  unfold State.mirrorAlloc
  repeat' first
    | with_reducible assumption
    | with_reducible apply foldl_only
    | with_reducible refine State.setOwnEntry_only _ _ (List.Subset.trans (by decide) hw) ?_
    | with_reducible refine State.noteLow_only  (List.Subset.trans (by decide) hw) ?_
    | with_reducible refine State.notePeak_only _ (List.Subset.trans (by decide) hw) ?_
    | with_reducible refine State.zeroRange_only _ _ (List.Subset.trans (by decide) hw) ?_
    | with_reducible refine OnlyChanges.snd_of (by with_reducible assumption) ?_
    | with_reducible refine OnlyChanges.thd_of (by with_reducible assumption) ?_
    | intro _
    | split
    | dsimp only
    | with_reducible refine OnlyChanges.of_mk ?_ rfl rfl

theorem State.mirrorFree_only {s : State} (x1 : Nat) (kept : Nat) (hw : [.regs, .mem, .out, .bufs, .plots, .cache, .msiPending, .pair] ⊆ pcs) (hs : OnlyChanges s0 s pcs) :
    OnlyChanges s0 (State.mirrorFree s x1 kept) pcs := by
  unfold State.mirrorFree
  repeat' first
    | with_reducible assumption
    | with_reducible apply foldl_only
    | with_reducible refine State.freeBuf_only _ _ (List.Subset.trans (by decide) hw) ?_
    | with_reducible refine State.keepFreeing_only _ (List.Subset.trans (by decide) hw) ?_
    | with_reducible refine OnlyChanges.snd_of (by with_reducible assumption) ?_
    | with_reducible refine OnlyChanges.thd_of (by with_reducible assumption) ?_
    | intro _
    | split
    | dsimp only

theorem State.mirrorDestroy_only {s : State} (h : Nat) (draining : Nat) (kept : List Nat) (hw : [.regs, .mem, .out, .chans, .bufs, .plots, .cache, .msiPending, .pair] ⊆ pcs) (hs : OnlyChanges s0 s pcs) :
    OnlyChanges s0 (State.mirrorDestroy s h draining kept) pcs := by
  unfold State.mirrorDestroy
  split
  · exact hs
  · dsimp only
    generalize hr : kept.foldl State.keepFreeing s = r
    have h1 : OnlyChanges s0 r pcs := hr ▸ foldl_only (fun t x ht => State.keepFreeing_only _ (List.Subset.trans (by decide) hw) ht) hs
    generalize hb : (if draining = 1 then { r with pair := { r.pair with keptChans := r.pair.keptChans ++ [h % 256] } } else r) = b
    have h2 : OnlyChanges s0 b pcs := by
      rw [← hb]
      split
      · exact OnlyChanges.of_mk h1 rfl rfl
      · exact h1
    have h3 := State.destroyChan_only (s := b) (s0 := b) (pcs := [.regs, .mem, .out, .chans, .bufs, .plots, .cache, .msiPending]) (h % 256) none (List.Subset.refl _) (OnlyChanges.refl _ _)
    have h4 : OnlyChanges s0 (b.destroyChan (h % 256) none).2 pcs :=
      State.destroyChan_only _ _ (List.Subset.trans (by decide) hw) h2
    split
    · split
      · exact OnlyChanges.of_mk h2 rfl rfl (h_bufs := .inl (hw (by decide))) (h_plots := .inl (hw (by decide)))
          (h_fillQueue := .inr (h3.2.2 .fillQueue (by decide))) (h_peak := .inr (h3.2.2 .peak (by decide))) (h_cache := .inl (hw (by decide)))
      · exact h4
    · exact h4

theorem State.mirrorFreed_only {s : State} (x1 : Nat) (hw : [.regs, .mem, .out, .chans, .bufs, .plots, .cache, .queues, .jobs, .msiPending, .pair] ⊆ pcs) (hs : OnlyChanges s0 s pcs) :
    OnlyChanges s0 (State.mirrorFreed s x1) pcs := by
  unfold State.mirrorFreed
  repeat' first
    | with_reducible assumption
    | with_reducible apply foldl_only
    | with_reducible refine State.unfence_only _ (List.Subset.trans (by decide) hw) ?_
    | with_reducible refine OnlyChanges.snd_of (by with_reducible assumption) ?_
    | with_reducible refine OnlyChanges.thd_of (by with_reducible assumption) ?_
    | intro _
    | split
    | dsimp only
    | with_reducible refine OnlyChanges.of_mk ?_ rfl rfl

theorem State.mirrorDrained_only {s : State} (x1 : Nat) (hw : [.regs, .out, .chans, .queues, .jobs, .msiPending, .pair] ⊆ pcs) (hs : OnlyChanges s0 s pcs) :
    OnlyChanges s0 (State.mirrorDrained s x1) pcs := by
  unfold State.mirrorDrained
  repeat' first
    | with_reducible assumption
    | with_reducible apply foldl_only
    | with_reducible refine State.chanDrained_only _ (List.Subset.trans (by decide) hw) ?_
    | with_reducible refine OnlyChanges.snd_of (by with_reducible assumption) ?_
    | with_reducible refine OnlyChanges.thd_of (by with_reducible assumption) ?_
    | intro _
    | split
    | dsimp only
    | with_reducible refine OnlyChanges.of_mk ?_ rfl rfl

theorem State.mirrorRule_only {s : State} (k : Nat) (fn : Nat) (ps : List Nat) (hw : [.regs, .mem, .out, .chans, .bufs, .plots, .cache, .haptic, .queues, .jobs, .msiPending, .pair] ⊆ pcs) (hs : OnlyChanges s0 s pcs) :
    OnlyChanges s0 (State.mirrorRule s k fn ps) pcs := by
  unfold State.mirrorRule
  repeat' first
    | with_reducible assumption
    | with_reducible apply foldl_only
    | with_reducible refine State.nameClip_only _ (List.Subset.trans (by decide) hw) ?_
    | with_reducible refine State.dropRule_only _ (List.Subset.trans (by decide) hw) ?_
    | with_reducible refine State.putRule_only _ _ (List.Subset.trans (by decide) hw) ?_
    | with_reducible refine OnlyChanges.snd_of (by with_reducible assumption) ?_
    | with_reducible refine OnlyChanges.thd_of (by with_reducible assumption) ?_
    | intro _
    | split
    | dsimp only

theorem State.resyncRule_only {s : State} (ps : List Nat) (hw : [.regs, .bufs, .haptic] ⊆ pcs) (hs : OnlyChanges s0 s pcs) :
    OnlyChanges s0 (State.resyncRule s ps) pcs := by
  unfold State.resyncRule
  repeat' first
    | with_reducible assumption
    | with_reducible apply foldl_only
    | with_reducible refine State.nameClip_only _ (List.Subset.trans (by decide) hw) ?_
    | with_reducible refine State.putRule_only _ _ (List.Subset.trans (by decide) hw) ?_
    | with_reducible refine OnlyChanges.snd_of (by with_reducible assumption) ?_
    | with_reducible refine OnlyChanges.thd_of (by with_reducible assumption) ?_
    | intro _
    | split
    | dsimp only

theorem State.resyncNode_only {s : State} (ps : List Nat) (hw : [.regs, .touch] ⊆ pcs) (hs : OnlyChanges s0 s pcs) :
    OnlyChanges s0 (State.resyncNode s ps) pcs := by
  unfold State.resyncNode
  repeat' first
    | with_reducible assumption
    | with_reducible apply foldl_only
    | with_reducible refine State.setPanel_only _ _ _ (List.Subset.trans (by decide) hw) ?_
    | with_reducible refine OnlyChanges.snd_of (by with_reducible assumption) ?_
    | with_reducible refine OnlyChanges.thd_of (by with_reducible assumption) ?_
    | intro _
    | split
    | dsimp only

theorem State.mirrorChan_only {s : State} (x1 : Nat) (fn : Nat) (draining : Bool) (hw : [.chans] ⊆ pcs) (hs : OnlyChanges s0 s pcs) :
    OnlyChanges s0 (State.mirrorChan s x1 fn draining) pcs := by
  unfold State.mirrorChan
  repeat' first
    | with_reducible assumption
    | with_reducible apply foldl_only
    | with_reducible refine OnlyChanges.snd_of (by with_reducible assumption) ?_
    | with_reducible refine OnlyChanges.thd_of (by with_reducible assumption) ?_
    | intro _
    | split
    | dsimp only
    | with_reducible refine OnlyChanges.of_mk ?_ rfl rfl

theorem State.keepDraining_only {s : State} (i : Nat) (hw : [.pair] ⊆ pcs) (hs : OnlyChanges s0 s pcs) :
    OnlyChanges s0 (State.keepDraining s i) pcs := by
  unfold State.keepDraining
  repeat' first
    | with_reducible assumption
    | with_reducible apply foldl_only
    | with_reducible refine OnlyChanges.snd_of (by with_reducible assumption) ?_
    | with_reducible refine OnlyChanges.thd_of (by with_reducible assumption) ?_
    | intro _
    | split
    | dsimp only
    | with_reducible refine OnlyChanges.of_mk ?_ rfl rfl

theorem State.resyncBuf_only {s : State} (x1 : Nat) (chan : Nat) (size : Nat) (plots : List Nat) (freeing : Bool) (hw : [.regs, .mem, .out, .bufs, .plots, .peak, .cache, .msiPending, .pair] ⊆ pcs) (hs : OnlyChanges s0 s pcs) :
    OnlyChanges s0 (State.resyncBuf s x1 chan size plots freeing) pcs := by
  unfold State.resyncBuf
  repeat' first
    | with_reducible assumption
    | with_reducible apply foldl_only
    | with_reducible refine State.keepFreeing_only _ (List.Subset.trans (by decide) hw) ?_
    | with_reducible refine State.mirrorAlloc_only _ _ _ _ _ (List.Subset.trans (by decide) hw) ?_
    | with_reducible refine OnlyChanges.snd_of (by with_reducible assumption) ?_
    | with_reducible refine OnlyChanges.thd_of (by with_reducible assumption) ?_
    | intro _
    | split
    | dsimp only
    | with_reducible refine OnlyChanges.of_mk ?_ rfl rfl

theorem State.resyncFree_only {s : State} (kind : Nat) (fresh : Nat) (freed : List Nat) (gens : Store Nat) (hw : [.chans, .bufs, .plots, .fillQueue, .peak, .cache] ⊆ pcs) (hs : OnlyChanges s0 s pcs) :
    OnlyChanges s0 (State.resyncFree s kind fresh freed gens) pcs := by
  unfold State.resyncFree
  repeat' first
    | with_reducible assumption
    | with_reducible apply foldl_only
    | with_reducible refine OnlyChanges.snd_of (by with_reducible assumption) ?_
    | with_reducible refine OnlyChanges.thd_of (by with_reducible assumption) ?_
    | intro _
    | split
    | dsimp only
    | with_reducible refine OnlyChanges.of_mk ?_ rfl rfl

theorem State.resyncItem_only {s : State} (op : Nat) (ps : List Nat) (plots : List Nat) (hw : [.regs, .mem, .out, .chans, .bufs, .plots, .fillQueue, .peak, .cache, .display, .touch, .haptic, .audio, .queues, .jobs, .msiPending, .pair] ⊆ pcs) (hs : OnlyChanges s0 s pcs) :
    OnlyChanges s0 (State.resyncItem s op ps plots) pcs := by
  unfold State.resyncItem
  repeat' first
    | with_reducible assumption
    | with_reducible apply foldl_only
    | with_reducible refine State.retirePlot_only _ (List.Subset.trans (by decide) hw) ?_
    | with_reducible refine State.mirrorFreed_only _ (List.Subset.trans (by decide) hw) ?_
    | with_reducible refine State.mirrorDrained_only _ (List.Subset.trans (by decide) hw) ?_
    | with_reducible refine State.resyncRule_only _ (List.Subset.trans (by decide) hw) ?_
    | with_reducible refine State.resyncNode_only _ (List.Subset.trans (by decide) hw) ?_
    | with_reducible refine State.resyncFree_only _ _ _ _ (List.Subset.trans (by decide) hw) ?_
    | with_reducible refine OnlyChanges.snd_of (by with_reducible assumption) ?_
    | with_reducible refine OnlyChanges.thd_of (by with_reducible assumption) ?_
    | intro _
    | split
    | dsimp only
    | with_reducible refine OnlyChanges.of_mk ?_ rfl rfl

theorem State.mirrorRecord_only {s : State} (op : Nat) (ps : List Nat) (plots : List Nat) (hw : [.regs, .mem, .out, .chans, .bufs, .plots, .fillQueue, .peak, .cache, .display, .touch, .haptic, .audio, .queues, .jobs, .msiPending, .pair] ⊆ pcs) (hs : OnlyChanges s0 s pcs) :
    OnlyChanges s0 (State.mirrorRecord s op ps plots) pcs := by
  unfold State.mirrorRecord
  repeat' first
    | with_reducible assumption
    | with_reducible apply foldl_only
    | with_reducible refine State.dropRule_only _ (List.Subset.trans (by decide) hw) ?_
    | with_reducible refine State.mirrorAlloc_only _ _ _ _ _ (List.Subset.trans (by decide) hw) ?_
    | with_reducible refine State.mirrorFree_only _ _ (List.Subset.trans (by decide) hw) ?_
    | with_reducible refine State.mirrorDestroy_only _ _ _ (List.Subset.trans (by decide) hw) ?_
    | with_reducible refine State.mirrorRule_only _ _ _ (List.Subset.trans (by decide) hw) ?_
    | with_reducible refine State.mirrorChan_only _ _ _ (List.Subset.trans (by decide) hw) ?_
    | with_reducible refine State.keepDraining_only _ (List.Subset.trans (by decide) hw) ?_
    | with_reducible refine State.resyncBuf_only _ _ _ _ _ (List.Subset.trans (by decide) hw) ?_
    | with_reducible refine State.resyncItem_only _ _ _ (List.Subset.trans (by decide) hw) ?_
    | with_reducible refine OnlyChanges.snd_of (by with_reducible assumption) ?_
    | with_reducible refine OnlyChanges.thd_of (by with_reducible assumption) ?_
    | intro _
    | split
    | dsimp only

theorem State.stopOutputs_only {s : State} (hw : [.regs, .shad, .mem, .out, .dram, .edac, .chans, .bufs, .plots, .cache, .display, .dpls, .faults, .queues, .jobs, .msiPending, .pair] ⊆ pcs) (hs : OnlyChanges s0 s pcs) :
    OnlyChanges s0 (State.stopOutputs s) pcs := by
  unfold State.stopOutputs
  repeat' first
    | with_reducible assumption
    | with_reducible apply foldl_only
    | with_reducible refine State.setDisp_only _ _ (List.Subset.trans (by decide) hw) ?_
    | with_reducible refine State.videoStop_only _ (List.Subset.trans (by decide) hw) ?_
    | with_reducible refine State.stopNow_only _ (List.Subset.trans (by decide) hw) ?_
    | with_reducible refine OnlyChanges.snd_of (by with_reducible assumption) ?_
    | with_reducible refine OnlyChanges.thd_of (by with_reducible assumption) ?_
    | intro _
    | split
    | dsimp only

theorem State.mirrorClear_only {s : State} (hw : [.regs, .shad, .mem, .out, .dram, .edac, .chans, .bufs, .plots, .fillQueue, .peak, .cache, .display, .dpls, .haptic, .audio, .faults, .queues, .jobs, .msiPending, .pair] ⊆ pcs) (hs : OnlyChanges s0 s pcs) :
    OnlyChanges s0 (State.mirrorClear s) pcs := by
  unfold State.mirrorClear
  repeat' first
    | with_reducible assumption
    | with_reducible apply foldl_only
    | with_reducible refine State.setFld_only _ _ _ _ (List.Subset.trans (by decide) hw) ?_
    | with_reducible refine State.disown_only _ (List.Subset.trans (by decide) hw) ?_
    | with_reducible refine State.ruleStat_only  (List.Subset.trans (by decide) hw) ?_
    | with_reducible refine State.stopOutputs_only  (List.Subset.trans (by decide) hw) ?_
    | with_reducible refine OnlyChanges.snd_of (by with_reducible assumption) ?_
    | with_reducible refine OnlyChanges.thd_of (by with_reducible assumption) ?_
    | intro _
    | split
    | dsimp only
    | with_reducible refine OnlyChanges.of_mk ?_ rfl rfl

theorem State.mirrorEnd_only {s : State} (hw : [.regs, .mem, .out, .edac, .bufs, .cache, .display, .faults, .msiPending, .pair] ⊆ pcs) (hs : OnlyChanges s0 s pcs) :
    OnlyChanges s0 (State.mirrorEnd s) pcs := by
  unfold State.mirrorEnd
  repeat' first
    | with_reducible assumption
    | with_reducible apply foldl_only
    | with_reducible refine State.grantResources_only _ _ (List.Subset.trans (by decide) hw) ?_
    | with_reducible refine State.takeSlotFences_only _ (List.Subset.trans (by decide) hw) ?_
    | with_reducible refine State.loadSheets_only _ (List.Subset.trans (by decide) hw) ?_
    | with_reducible refine OnlyChanges.snd_of (by with_reducible assumption) ?_
    | with_reducible refine OnlyChanges.thd_of (by with_reducible assumption) ?_
    | intro _
    | split
    | dsimp only
    | with_reducible refine OnlyChanges.of_mk ?_ rfl rfl

theorem State.mirrorApply_only {s : State} (m : MirrorMsg) (hw : [.regs, .shad, .loaded, .staged, .latched, .softResetting, .mem, .out, .free, .time, .power, .dram, .edac, .chans, .bufs, .plots, .fillQueue, .peak, .cache, .ingest, .display, .dpls, .cvus, .touch, .haptic, .audio, .age, .update, .faults, .worlds, .queues, .fns, .jobs, .coreEntries, .fetchStopped, .arbiter, .unmasked, .msiPending, .pair] ⊆ pcs) (hs : OnlyChanges s0 s pcs) :
    OnlyChanges s0 (State.mirrorApply s m) pcs := by
  unfold State.mirrorApply
  repeat' first
    | with_reducible assumption
    | with_reducible apply foldl_only
    | with_reducible refine State.mirrorPool_only _ _ _ _ _ (List.Subset.trans (by decide) hw) ?_
    | with_reducible refine State.mirrorReg_only _ _ (List.Subset.trans (by decide) hw) ?_
    | with_reducible refine State.mirrorRecord_only _ _ _ (List.Subset.trans (by decide) hw) ?_
    | with_reducible refine State.mirrorClear_only  (List.Subset.trans (by decide) hw) ?_
    | with_reducible refine State.mirrorEnd_only  (List.Subset.trans (by decide) hw) ?_
    | with_reducible refine OnlyChanges.snd_of (by with_reducible assumption) ?_
    | with_reducible refine OnlyChanges.thd_of (by with_reducible assumption) ?_
    | intro _
    | split
    | dsimp only
    | with_reducible refine OnlyChanges.of_mk ?_ rfl rfl

theorem State.orderedFlit_only {s : State} (x1 : FlitHdr) (run : State → State) (hw : [.regs, .mem, .out, .chans, .bufs, .plots, .cache, .queues, .jobs, .msiPending, .pair] ⊆ pcs) (hs : OnlyChanges s0 s pcs) (hrun : ∀ (y0 : State), OnlyChanges s0 y0 pcs → OnlyChanges s0 (run y0) pcs) :
    OnlyChanges s0 (State.orderedFlit s x1 run) pcs := by
  unfold State.orderedFlit
  repeat' first
    | with_reducible assumption
    | with_reducible apply foldl_only
    | with_reducible apply hrun
    | with_reducible refine State.accept_only _ _ (List.Subset.trans (by decide) hw) ?_ ?_
    | with_reducible refine State.answerOffer_only  (List.Subset.trans (by decide) hw) ?_
    | with_reducible refine OnlyChanges.snd_of (by with_reducible assumption) ?_
    | with_reducible refine OnlyChanges.thd_of (by with_reducible assumption) ?_
    | intro _
    | split
    | dsimp only
    | with_reducible refine OnlyChanges.of_mk ?_ rfl rfl

end Sys2Proof.Machine
end

