-- ==== Sys2Proof/Laws/FrameExec.lean ====
section
/-! SUPPORT. What every command leaves alone. -/

namespace Sys2Proof.Machine

set_option Elab.async false
set_option linter.all false

theorem execRegisterWrite_only (w : RegWr) {s t : State} (h : execRegisterWrite w s = .next t) : OnlyChanges s t [.regs, .shad, .loaded, .staged, .latched, .softResetting, .mem, .out, .free, .time, .power, .dram, .edac, .chans, .bufs, .plots, .fillQueue, .peak, .cache, .ingest, .display, .dpls, .cvus, .touch, .haptic, .audio, .age, .update, .faults, .worlds, .queues, .fns, .jobs, .coreEntries, .fetchStopped, .arbiter, .unmasked, .msiPending, .pair] := by
  cases h
  repeat' first
    | with_reducible exact OnlyChanges.refl _ _
    | with_reducible assumption
    | with_reducible refine State.access_only _ _ (by decide) ?_ ?_
    | with_reducible refine State.regWrite_only _ (by decide) ?_
    | intro _
    | split
    | dsimp only

theorem execWideRegisterWrite_only (w : RegWr) (lows : List Word32) {s t : State} (h : execWideRegisterWrite w lows s = .next t) : OnlyChanges s t [.regs, .shad, .loaded, .staged, .latched, .softResetting, .mem, .out, .free, .time, .power, .dram, .edac, .chans, .bufs, .plots, .fillQueue, .peak, .cache, .ingest, .display, .dpls, .cvus, .touch, .haptic, .audio, .age, .update, .faults, .worlds, .queues, .fns, .jobs, .coreEntries, .fetchStopped, .arbiter, .unmasked, .msiPending, .pair] := by
  cases h
  repeat' first
    | with_reducible exact OnlyChanges.refl _ _
    | with_reducible assumption
    | with_reducible refine State.longWrite_only _ _ (by decide) ?_
    | intro _
    | split
    | dsimp only

theorem execWideRegisterLowRead_only (r : RegRd) {s t : State} (h : execWideRegisterLowRead r s = .next t) : OnlyChanges s t [.regs, .latched, .out, .touch, .worlds, .msiPending] := by
  cases h
  repeat' first
    | with_reducible exact OnlyChanges.refl _ _
    | with_reducible assumption
    | with_reducible refine State.accessRead_only _ _ (by decide) ?_ ?_
    | with_reducible refine State.regRead_only _ (by decide) ?_
    | intro _
    | split
    | dsimp only

theorem execCounterLoRead_only (r : RegRd) {s t : State} (h : execCounterLoRead r s = .next t) : OnlyChanges s t [.regs, .latched, .out, .touch, .worlds, .msiPending] := by
  cases h
  repeat' first
    | with_reducible exact OnlyChanges.refl _ _
    | with_reducible assumption
    | with_reducible refine State.accessRead_only _ _ (by decide) ?_ ?_
    | with_reducible refine State.regRead_only _ (by decide) ?_
    | intro _
    | split
    | dsimp only

theorem execPgEnableWrite_only (w : RegWr) {s t : State} (h : execPgEnableWrite w s = .next t) : OnlyChanges s t [.regs, .shad, .softResetting, .mem, .out, .free, .power, .dram, .edac, .chans, .bufs, .plots, .peak, .cache, .ingest, .display, .dpls, .cvus, .touch, .haptic, .audio, .update, .faults, .worlds, .queues, .fns, .jobs, .coreEntries, .fetchStopped, .unmasked, .msiPending, .pair] := by
  cases h
  repeat' first
    | with_reducible exact OnlyChanges.refl _ _
    | with_reducible assumption
    | with_reducible refine State.accessAt_only _ _ _ (by decide) ?_ ?_
    | with_reducible refine State.pgCtrl_only _ (by decide) ?_
    | intro _
    | split
    | dsimp only

theorem execPgSoftReset_only (w : RegWr) {s t : State} (h : execPgSoftReset w s = .next t) : OnlyChanges s t [.regs, .shad, .softResetting, .mem, .out, .free, .power, .dram, .edac, .chans, .bufs, .plots, .peak, .cache, .ingest, .display, .dpls, .cvus, .touch, .haptic, .audio, .update, .faults, .worlds, .queues, .fns, .jobs, .coreEntries, .fetchStopped, .unmasked, .msiPending, .pair] := by
  cases h
  repeat' first
    | with_reducible exact OnlyChanges.refl _ _
    | with_reducible assumption
    | with_reducible refine State.accessAt_only _ _ _ (by decide) ?_ ?_
    | with_reducible refine State.pgCtrl_only _ (by decide) ?_
    | intro _
    | split
    | dsimp only

theorem execPgLock_only (w : RegWr) {s t : State} (h : execPgLock w s = .next t) : OnlyChanges s t [.regs, .shad, .softResetting, .mem, .out, .free, .power, .dram, .edac, .chans, .bufs, .plots, .peak, .cache, .ingest, .display, .dpls, .cvus, .touch, .haptic, .audio, .update, .faults, .worlds, .queues, .fns, .jobs, .coreEntries, .fetchStopped, .unmasked, .msiPending, .pair] := by
  cases h
  repeat' first
    | with_reducible exact OnlyChanges.refl _ _
    | with_reducible assumption
    | with_reducible refine State.accessAt_only _ _ _ (by decide) ?_ ?_
    | with_reducible refine State.pgCtrl_only _ (by decide) ?_
    | intro _
    | split
    | dsimp only

theorem execPgUnlock_only (w : RegWr) {s t : State} (h : execPgUnlock w s = .next t) : OnlyChanges s t [.regs, .shad, .softResetting, .mem, .out, .free, .power, .dram, .edac, .chans, .bufs, .plots, .peak, .cache, .ingest, .display, .dpls, .cvus, .touch, .haptic, .audio, .update, .faults, .worlds, .queues, .fns, .jobs, .coreEntries, .fetchStopped, .unmasked, .msiPending, .pair] := by
  cases h
  repeat' first
    | with_reducible exact OnlyChanges.refl _ _
    | with_reducible assumption
    | with_reducible refine State.accessAt_only _ _ _ (by decide) ?_ ?_
    | with_reducible refine State.pgCtrl_only _ (by decide) ?_
    | intro _
    | split
    | dsimp only

theorem execEvtRawClear_only (w : RegWr) {s t : State} (h : execEvtRawClear w s = .next t) : OnlyChanges s t [.regs, .shad, .out, .worlds, .msiPending, .pair] := by
  cases h
  repeat' first
    | with_reducible exact OnlyChanges.refl _ _
    | with_reducible assumption
    | with_reducible refine State.accessAt_only _ _ _ (by decide) ?_ ?_
    | with_reducible refine State.evtRawWrite_only _ (by decide) ?_
    | with_reducible refine State.chkEventWrite_only _ (by decide) ?_
    | intro _
    | split
    | dsimp only

theorem execEvtSetWrite_only (w : RegWr) {s t : State} (h : execEvtSetWrite w s = .next t) : OnlyChanges s t [.regs, .out, .worlds, .msiPending] := by
  cases h
  repeat' first
    | with_reducible exact OnlyChanges.refl _ _
    | with_reducible assumption
    | with_reducible refine State.accessAt_only _ _ _ (by decide) ?_ ?_
    | with_reducible refine State.evtSetWrite_only _ (by decide) ?_
    | intro _
    | split
    | dsimp only

theorem execEvtEnWrite_only (w : RegWr) {s t : State} (h : execEvtEnWrite w s = .next t) : OnlyChanges s t [.regs, .shad, .out, .worlds, .msiPending, .pair] := by
  cases h
  repeat' first
    | with_reducible exact OnlyChanges.refl _ _
    | with_reducible assumption
    | with_reducible refine State.accessAt_only _ _ _ (by decide) ?_ ?_
    | with_reducible refine State.evtEnWrite_only _ (by decide) ?_
    | with_reducible refine State.chkEventWrite_only _ (by decide) ?_
    | intro _
    | split
    | dsimp only

theorem execEvtRouteWrite_only (w : RegWr) {s t : State} (h : execEvtRouteWrite w s = .next t) : OnlyChanges s t [.regs, .shad, .out, .worlds, .msiPending, .pair] := by
  cases h
  repeat' first
    | with_reducible exact OnlyChanges.refl _ _
    | with_reducible assumption
    | with_reducible refine State.accessAt_only _ _ _ (by decide) ?_ ?_
    | with_reducible refine State.evtRouteWrite_only _ (by decide) ?_
    | with_reducible refine State.chkEventWrite_only _ (by decide) ?_
    | intro _
    | split
    | dsimp only

theorem execErrCodeClear_only (w : RegWr) {s t : State} (h : execErrCodeClear w s = .next t) : OnlyChanges s t [.regs, .out, .worlds, .msiPending] := by
  cases h
  repeat' first
    | with_reducible exact OnlyChanges.refl _ _
    | with_reducible assumption
    | with_reducible refine State.accessAt_only _ _ _ (by decide) ?_ ?_
    | with_reducible refine State.errClear_only _ (by decide) ?_
    | intro _
    | split
    | dsimp only

theorem execShadowGroupWrite_only (w : RegWr) {s t : State} (h : execShadowGroupWrite w s = .next t) : OnlyChanges s t [.regs, .shad, .mem, .out, .dram, .edac, .chans, .bufs, .plots, .cache, .display, .faults, .worlds, .queues, .jobs, .msiPending, .pair] := by
  cases h
  repeat' first
    | with_reducible exact OnlyChanges.refl _ _
    | with_reducible assumption
    | with_reducible refine State.accessAt_only _ _ _ (by decide) ?_ ?_
    | with_reducible refine State.shadowCtrlWrite_only _ (by decide) ?_
    | intro _
    | split
    | dsimp only

theorem execShadowDiscard_only (w : RegWr) {s t : State} (h : execShadowDiscard w s = .next t) : OnlyChanges s t [.regs, .shad, .mem, .out, .dram, .edac, .chans, .bufs, .plots, .cache, .display, .faults, .worlds, .queues, .jobs, .msiPending, .pair] := by
  cases h
  repeat' first
    | with_reducible exact OnlyChanges.refl _ _
    | with_reducible assumption
    | with_reducible refine State.accessAt_only _ _ _ (by decide) ?_ ?_
    | with_reducible refine State.shadowCtrlWrite_only _ (by decide) ?_
    | intro _
    | split
    | dsimp only

theorem execOwnerWrite_only (w : RegWr) {s t : State} (h : execOwnerWrite w s = .next t) : OnlyChanges s t [.regs, .shad, .staged, .latched, .mem, .out, .dram, .edac, .chans, .bufs, .plots, .cache, .display, .faults, .worlds, .queues, .jobs, .msiPending, .pair] := by
  cases h
  repeat' first
    | with_reducible exact OnlyChanges.refl _ _
    | with_reducible assumption
    | with_reducible refine State.accessAt_only _ _ _ (by decide) ?_ ?_
    | with_reducible refine State.ownerWord_only _ (by decide) ?_
    | intro _
    | split
    | dsimp only

theorem execChkOwnerWrite_only (w : RegWr) {s t : State} (h : execChkOwnerWrite w s = .next t) : OnlyChanges s t [.regs, .staged, .latched, .out, .display, .worlds, .msiPending, .pair] := by
  cases h
  repeat' first
    | with_reducible exact OnlyChanges.refl _ _
    | with_reducible assumption
    | with_reducible refine State.accessAt_only _ _ _ (by decide) ?_ ?_
    | with_reducible refine State.chkOwnerWrite_only _ (by decide) ?_
    | intro _
    | split
    | dsimp only

theorem execChannelCreate_only (c : CmdArgs) {s t : State} (h : execChannelCreate c s = .next t) : OnlyChanges s t [.regs, .out, .chans, .queues, .jobs, .coreEntries, .msiPending, .pair] := by
  cases h
  repeat' first
    | with_reducible exact OnlyChanges.refl _ _
    | with_reducible assumption
    | with_reducible refine State.command_only _ _ _ (by decide) ?_ ?_
    | with_reducible refine State.carryChannelCreate_only _ (by decide) ?_
    | intro _
    | split
    | dsimp only

theorem execChannelDestroy_only (c : CmdArgs) {s t : State} (h : execChannelDestroy c s = .next t) : OnlyChanges s t [.regs, .mem, .out, .chans, .bufs, .plots, .cache, .queues, .jobs, .coreEntries, .msiPending, .pair] := by
  cases h
  repeat' first
    | with_reducible exact OnlyChanges.refl _ _
    | with_reducible assumption
    | with_reducible refine State.command_only _ _ _ (by decide) ?_ ?_
    | with_reducible refine State.carryChannelDestroy_only _ (by decide) ?_
    | intro _
    | split
    | dsimp only

theorem execBufferAlloc_only (c : CmdArgs) {s t : State} (h : execBufferAlloc c s = .next t) : OnlyChanges s t [.regs, .mem, .out, .bufs, .plots, .fillQueue, .peak, .cache, .queues, .jobs, .coreEntries, .msiPending, .pair] := by
  cases h
  repeat' first
    | with_reducible exact OnlyChanges.refl _ _
    | with_reducible assumption
    | with_reducible refine State.command_only _ _ _ (by decide) ?_ ?_
    | with_reducible refine State.carryBufferAlloc_only _ (by decide) ?_
    | intro _
    | split
    | dsimp only

theorem execBufferFree_only (c : CmdArgs) {s t : State} (h : execBufferFree c s = .next t) : OnlyChanges s t [.regs, .mem, .out, .bufs, .plots, .cache, .queues, .jobs, .coreEntries, .msiPending, .pair] := by
  cases h
  repeat' first
    | with_reducible exact OnlyChanges.refl _ _
    | with_reducible assumption
    | with_reducible refine State.command_only _ _ _ (by decide) ?_ ?_
    | with_reducible refine State.carryBufferFree_only _ (by decide) ?_
    | intro _
    | split
    | dsimp only

theorem execBufferQuery_only (c : CmdArgs) {s t : State} (h : execBufferQuery c s = .next t) : OnlyChanges s t [.out, .queues, .jobs, .coreEntries, .msiPending] := by
  cases h
  repeat' first
    | with_reducible exact OnlyChanges.refl _ _
    | with_reducible assumption
    | with_reducible refine State.command_only _ _ _ (by decide) ?_ ?_
    | with_reducible refine State.carryBufferQuery_only _ (by decide) ?_
    | intro _
    | split
    | dsimp only

theorem execPlotFillDone_only {s t : State} (h : execPlotFillDone s = .next t) : OnlyChanges s t [.regs, .mem, .out, .chans, .bufs, .plots, .fillQueue, .cache, .queues, .jobs, .msiPending, .pair] := by
  cases h
  repeat' first
    | with_reducible exact OnlyChanges.refl _ _
    | with_reducible assumption
    | with_reducible refine State.plotFillDone_only  (by decide) ?_
    | intro _
    | split
    | dsimp only

theorem execPoolEnable_only (w : RegWr) {s t : State} (h : execPoolEnable w s = .next t) : OnlyChanges s t [.regs, .shad, .softResetting, .mem, .out, .free, .power, .dram, .edac, .chans, .bufs, .plots, .peak, .cache, .ingest, .display, .dpls, .cvus, .touch, .haptic, .audio, .update, .faults, .worlds, .queues, .fns, .jobs, .coreEntries, .fetchStopped, .unmasked, .msiPending, .pair] := by
  cases h
  repeat' first
    | with_reducible exact OnlyChanges.refl _ _
    | with_reducible assumption
    | with_reducible refine State.accessAt_only _ _ _ (by decide) ?_ ?_
    | with_reducible refine State.pgCtrl_only _ (by decide) ?_
    | intro _
    | split
    | dsimp only

theorem execPoolFnQuotaWrite_only (w : RegWr) {s t : State} (h : execPoolFnQuotaWrite w s = .next t) : OnlyChanges s t [.regs, .out, .worlds, .msiPending, .pair] := by
  cases h
  repeat' first
    | with_reducible exact OnlyChanges.refl _ _
    | with_reducible assumption
    | with_reducible refine State.accessAt_only _ _ _ (by decide) ?_ ?_
    | with_reducible refine State.quotaWrite_only _ (by decide) ?_
    | intro _
    | split
    | dsimp only

theorem execPoolFnShareWrite_only (w : RegWr) {s t : State} (h : execPoolFnShareWrite w s = .next t) : OnlyChanges s t [.regs, .out, .worlds, .msiPending, .pair] := by
  cases h
  repeat' first
    | with_reducible exact OnlyChanges.refl _ _
    | with_reducible assumption
    | with_reducible refine State.accessAt_only _ _ _ (by decide) ?_ ?_
    | with_reducible refine State.shareWrite_only _ (by decide) ?_
    | intro _
    | split
    | dsimp only

theorem execChnFnLimitWrite_only (w : RegWr) {s t : State} (h : execChnFnLimitWrite w s = .next t) : OnlyChanges s t [.regs, .out, .worlds, .msiPending, .pair] := by
  cases h
  repeat' first
    | with_reducible exact OnlyChanges.refl _ _
    | with_reducible assumption
    | with_reducible refine State.accessAt_only _ _ _ (by decide) ?_ ?_
    | with_reducible refine State.limitWrite_only _ (by decide) ?_
    | intro _
    | split
    | dsimp only

theorem execPoolLowMarkWrite_only (w : RegWr) {s t : State} (h : execPoolLowMarkWrite w s = .next t) : OnlyChanges s t [.regs, .shad, .out, .worlds, .msiPending, .pair] := by
  cases h
  repeat' first
    | with_reducible exact OnlyChanges.refl _ _
    | with_reducible assumption
    | with_reducible refine State.accessAt_only _ _ _ (by decide) ?_ ?_
    | with_reducible refine State.lowMarkWrite_only _ (by decide) ?_
    | intro _
    | split
    | dsimp only

theorem execPoolFnPeakClear_only (w : RegWr) {s t : State} (h : execPoolFnPeakClear w s = .next t) : OnlyChanges s t [.regs, .out, .peak, .worlds, .msiPending] := by
  cases h
  repeat' first
    | with_reducible exact OnlyChanges.refl _ _
    | with_reducible assumption
    | with_reducible refine State.accessAt_only _ _ _ (by decide) ?_ ?_
    | with_reducible refine State.peakClear_only _ (by decide) ?_
    | intro _
    | split
    | dsimp only

theorem execWatermarkSet_only (w : RegWr) {s t : State} (h : execWatermarkSet w s = .next t) : OnlyChanges s t [.regs, .shad, .out, .worlds, .msiPending] := by
  cases h
  repeat' first
    | with_reducible exact OnlyChanges.refl _ _
    | with_reducible assumption
    | with_reducible refine State.accessAt_only _ _ _ (by decide) ?_ ?_
    | with_reducible refine State.watermarkWrite_only _ (by decide) ?_
    | intro _
    | split
    | dsimp only

theorem execWldDenyClear_only (w : RegWr) {s t : State} (h : execWldDenyClear w s = .next t) : OnlyChanges s t [.regs, .out, .worlds, .msiPending] := by
  cases h
  repeat' first
    | with_reducible exact OnlyChanges.refl _ _
    | with_reducible assumption
    | with_reducible refine State.accessAt_only _ _ _ (by decide) ?_ ?_
    | with_reducible refine State.denyClear_only _ (by decide) ?_
    | intro _
    | split
    | dsimp only

theorem execWldHoldWrite_only (w : RegWr) {s t : State} (h : execWldHoldWrite w s = .next t) : OnlyChanges s t [.regs, .shad, .out, .worlds, .msiPending] := by
  cases h
  repeat' first
    | with_reducible exact OnlyChanges.refl _ _
    | with_reducible assumption
    | with_reducible refine State.accessAt_only _ _ _ (by decide) ?_ ?_
    | with_reducible refine State.holdWrite_only _ (by decide) ?_
    | intro _
    | split
    | dsimp only

theorem execGateEntry_only (core : Nat) (call : GateCall) {s t : State} (h : execGateEntry core call s = .next t) : OnlyChanges s t [.regs, .out, .faults, .worlds, .queues, .jobs, .msiPending] := by
  cases h
  repeat' first
    | with_reducible exact OnlyChanges.refl _ _
    | with_reducible assumption
    | with_reducible refine State.gateEntry_only _ _ _ (by decide) ?_
    | intro _
    | split
    | dsimp only

theorem execGateReturn_only (core r0 r1 : Nat) {s t : State} (h : execGateReturn core r0 r1 s = .next t) : OnlyChanges s t [.regs, .out, .worlds, .msiPending] := by
  cases h
  repeat' first
    | with_reducible exact OnlyChanges.refl _ _
    | with_reducible assumption
    | with_reducible refine State.gateReturn_only _ _ _ (by decide) ?_
    | intro _
    | split
    | dsimp only

theorem execGateTimeout_only (core : Nat) {s t : State} (h : execGateTimeout core s = .next t) : OnlyChanges s t [.regs, .out, .free, .worlds, .msiPending] := by
  cases h
  repeat' first
    | with_reducible exact OnlyChanges.refl _ _
    | with_reducible assumption
    | with_reducible refine State.gateTimeout_only _ (by decide) ?_
    | intro _
    | split
    | dsimp only

theorem execPmcClear_only (w : RegWr) {s t : State} (h : execPmcClear w s = .next t) : OnlyChanges s t [.regs, .shad, .out, .worlds, .msiPending] := by
  cases h
  repeat' first
    | with_reducible exact OnlyChanges.refl _ _
    | with_reducible assumption
    | with_reducible refine State.accessAt_only _ _ _ (by decide) ?_ ?_
    | with_reducible refine State.pmcCtrlWrite_only _ (by decide) ?_
    | intro _
    | split
    | dsimp only

theorem execSqDoorbell_only (w : RegWr) {s t : State} (h : execSqDoorbell w s = .next t) : OnlyChanges s t [.regs, .out, .power, .worlds, .queues, .jobs, .msiPending] := by
  cases h
  repeat' first
    | with_reducible exact OnlyChanges.refl _ _
    | with_reducible assumption
    | with_reducible refine State.accessAt_only _ _ _ (by decide) ?_ ?_
    | with_reducible refine State.doorbellWrite_only _ (by decide) ?_
    | intro _
    | split
    | dsimp only

theorem execCqDoorbell_only (w : RegWr) {s t : State} (h : execCqDoorbell w s = .next t) : OnlyChanges s t [.regs, .out, .power, .worlds, .queues, .jobs, .msiPending] := by
  cases h
  repeat' first
    | with_reducible exact OnlyChanges.refl _ _
    | with_reducible assumption
    | with_reducible refine State.accessAt_only _ _ _ (by decide) ?_ ?_
    | with_reducible refine State.doorbellWrite_only _ (by decide) ?_
    | intro _
    | split
    | dsimp only

theorem execQueueEnable_only (w : RegWr) {s t : State} (h : execQueueEnable w s = .next t) : OnlyChanges s t [.regs, .shad, .out, .worlds, .queues, .jobs, .msiPending] := by
  cases h
  repeat' first
    | with_reducible exact OnlyChanges.refl _ _
    | with_reducible assumption
    | with_reducible refine State.accessAt_only _ _ _ (by decide) ?_ ?_
    | with_reducible refine State.qCtrlWrite_only _ (by decide) ?_
    | intro _
    | split
    | dsimp only

theorem execQueueDisable_only (w : RegWr) {s t : State} (h : execQueueDisable w s = .next t) : OnlyChanges s t [.regs, .shad, .out, .worlds, .queues, .jobs, .msiPending] := by
  cases h
  repeat' first
    | with_reducible exact OnlyChanges.refl _ _
    | with_reducible assumption
    | with_reducible refine State.accessAt_only _ _ _ (by decide) ?_ ?_
    | with_reducible refine State.qCtrlWrite_only _ (by decide) ?_
    | intro _
    | split
    | dsimp only

theorem execPeerAccess_only (fn rid off : Nat) (wr : Option Word32) {s t : State} (h : execPeerAccess fn rid off wr s = .next t) : OnlyChanges s t [.regs, .out, .power, .queues, .jobs, .msiPending] := by
  cases h
  repeat' first
    | with_reducible exact OnlyChanges.refl _ _
    | with_reducible assumption
    | with_reducible refine State.peerAccess_only _ _ _ _ (by decide) ?_
    | intro _
    | split
    | dsimp only

theorem execCommandFetch_only (port : Nat) (entry : List Word32) {s t : State} (h : execCommandFetch port entry s = .next t) : OnlyChanges s t [.regs, .shad, .mem, .out, .power, .dram, .edac, .chans, .bufs, .plots, .fillQueue, .peak, .cache, .ingest, .display, .cvus, .haptic, .audio, .update, .faults, .queues, .fns, .jobs, .coreEntries, .arbiter, .msiPending, .pair] := by
  cases h
  repeat' first
    | with_reducible exact OnlyChanges.refl _ _
    | with_reducible assumption
    | with_reducible refine State.commandFetch_only _ _ (by decide) ?_
    | intro _
    | split
    | dsimp only

theorem execCoalesceTimeout_only (fn q : Nat) {s t : State} (h : execCoalesceTimeout fn q s = .next t) : OnlyChanges s t [.out, .queues, .msiPending] := by
  cases h
  repeat' first
    | with_reducible exact OnlyChanges.refl _ _
    | with_reducible assumption
    | with_reducible refine State.coalesceTimeout_only _ _ (by decide) ?_
    | intro _
    | split
    | dsimp only

theorem execNop_only (c : CmdArgs) {s t : State} (h : execNop c s = .next t) : OnlyChanges s t [.out, .queues, .jobs, .coreEntries, .msiPending] := by
  cases h
  repeat' first
    | with_reducible exact OnlyChanges.refl _ _
    | with_reducible assumption
    | with_reducible refine State.command_only _ _ _ (by decide) ?_ ?_
    | with_reducible refine State.carryNop_only _ (by decide) ?_
    | intro _
    | split
    | dsimp only

theorem execFnReset_only (c : CmdArgs) {s t : State} (h : execFnReset c s = .next t) : OnlyChanges s t [.regs, .shad, .mem, .out, .dram, .edac, .chans, .bufs, .plots, .cache, .ingest, .display, .cvus, .haptic, .audio, .update, .faults, .queues, .fns, .jobs, .coreEntries, .msiPending, .pair] := by
  cases h
  repeat' first
    | with_reducible exact OnlyChanges.refl _ _
    | with_reducible assumption
    | with_reducible refine State.command_only _ _ _ (by decide) ?_ ?_
    | with_reducible refine State.carryFnReset_only _ (by decide) ?_
    | intro _
    | split
    | dsimp only

theorem execFnQuery_only (c : CmdArgs) {s t : State} (h : execFnQuery c s = .next t) : OnlyChanges s t [.out, .queues, .jobs, .coreEntries, .msiPending] := by
  cases h
  repeat' first
    | with_reducible exact OnlyChanges.refl _ _
    | with_reducible assumption
    | with_reducible refine State.command_only _ _ _ (by decide) ?_ ?_
    | with_reducible refine State.carryFnQuery_only _ (by decide) ?_
    | intro _
    | split
    | dsimp only

theorem execFlr_only (fn : Nat) {s t : State} (h : execFlr fn s = .next t) : OnlyChanges s t [.regs, .shad, .mem, .out, .dram, .edac, .chans, .bufs, .plots, .cache, .ingest, .display, .cvus, .haptic, .audio, .update, .faults, .queues, .fns, .jobs, .msiPending, .pair] := by
  cases h
  repeat' first
    | with_reducible exact OnlyChanges.refl _ _
    | with_reducible assumption
    | with_reducible refine State.flr_only _ (by decide) ?_
    | intro _
    | split
    | dsimp only

theorem execVfEnableCleared_only (port : Nat) {s t : State} (h : execVfEnableCleared port s = .next t) : OnlyChanges s t [.regs, .shad, .mem, .out, .dram, .edac, .chans, .bufs, .plots, .cache, .ingest, .display, .cvus, .haptic, .audio, .update, .faults, .queues, .fns, .jobs, .msiPending, .pair] := by
  cases h
  repeat' first
    | with_reducible exact OnlyChanges.refl _ _
    | with_reducible assumption
    | with_reducible refine State.clearVfEnable_only _ (by decide) ?_
    | intro _
    | split
    | dsimp only

theorem execVfEnableSet_only (port n : Nat) {s t : State} (h : execVfEnableSet port n s = .next t) : OnlyChanges s t [.regs, .shad, .out, .faults, .queues, .fns, .msiPending] := by
  cases h
  repeat' first
    | with_reducible exact OnlyChanges.refl _ _
    | with_reducible assumption
    | with_reducible refine State.setVfEnable_only _ _ (by decide) ?_
    | intro _
    | split
    | dsimp only

theorem execVfSoftReset_only (w : RegWr) {s t : State} (h : execVfSoftReset w s = .next t) : OnlyChanges s t [.regs, .shad, .mem, .out, .dram, .edac, .chans, .bufs, .plots, .cache, .ingest, .display, .cvus, .haptic, .audio, .update, .faults, .worlds, .queues, .fns, .jobs, .msiPending, .pair] := by
  cases h
  repeat' first
    | with_reducible exact OnlyChanges.refl _ _
    | with_reducible assumption
    | with_reducible refine State.accessAt_only _ _ _ (by decide) ?_ ?_
    | with_reducible refine State.vfCtrlWrite_only _ _ (by decide) ?_
    | intro _
    | split
    | dsimp only

theorem execHpPfResetStart_only (w : RegWr) {s t : State} (h : execHpPfResetStart w s = .next t) : OnlyChanges s t [.regs, .shad, .mem, .out, .dram, .edac, .chans, .bufs, .plots, .cache, .ingest, .display, .cvus, .haptic, .audio, .update, .faults, .worlds, .queues, .fns, .jobs, .msiPending, .pair] := by
  cases h
  repeat' first
    | with_reducible exact OnlyChanges.refl _ _
    | with_reducible assumption
    | with_reducible refine State.accessAt_only _ _ _ (by decide) ?_ ?_
    | with_reducible refine State.pfResetWrite_only _ (by decide) ?_
    | intro _
    | split
    | dsimp only

theorem execHpSoftReset_only (w : RegWr) {s t : State} (h : execHpSoftReset w s = .next t) : OnlyChanges s t [.regs, .shad, .softResetting, .mem, .out, .dram, .edac, .chans, .bufs, .plots, .cache, .ingest, .display, .cvus, .haptic, .audio, .update, .faults, .worlds, .queues, .fns, .jobs, .msiPending, .pair] := by
  cases h
  repeat' first
    | with_reducible exact OnlyChanges.refl _ _
    | with_reducible assumption
    | with_reducible refine State.accessAt_only _ _ _ (by decide) ?_ ?_
    | with_reducible refine State.ctrlWrite_only _ _ _ (by decide) ?_ ?_ ?_
    | with_reducible refine State.plainEnable_only _ _ (by decide) ?_
    | with_reducible refine State.hpReset_only _ (by decide) ?_
    | intro _
    | split
    | dsimp only

theorem execFnResetPoolStep_only (fn : Nat) {s t : State} (h : execFnResetPoolStep fn s = .next t) : OnlyChanges s t [.regs, .shad, .mem, .out, .dram, .edac, .chans, .bufs, .plots, .cache, .display, .faults, .queues, .fns, .jobs, .msiPending, .pair] := by
  cases h
  repeat' first
    | with_reducible exact OnlyChanges.refl _ _
    | with_reducible assumption
    | with_reducible refine State.poolStep_only _ (by decide) ?_
    | intro _
    | split
    | dsimp only

theorem execFnResetQueueStep_only (fn : Nat) {s t : State} (h : execFnResetQueueStep fn s = .next t) : OnlyChanges s t [.regs, .shad, .softResetting, .out, .faults, .queues, .fns, .jobs, .unmasked, .msiPending] := by
  cases h
  repeat' first
    | with_reducible exact OnlyChanges.refl _ _
    | with_reducible assumption
    | with_reducible refine State.queueStep_only _ (by decide) ?_
    | intro _
    | split
    | dsimp only

theorem execPortLinkDown_only (port : Nat) {s t : State} (h : execPortLinkDown port s = .next t) : OnlyChanges s t [.regs, .shad, .mem, .out, .dram, .edac, .chans, .bufs, .plots, .cache, .ingest, .display, .cvus, .haptic, .audio, .update, .faults, .queues, .fns, .jobs, .unmasked, .msiPending, .pair] := by
  cases h
  repeat' first
    | with_reducible exact OnlyChanges.refl _ _
    | with_reducible assumption
    | with_reducible refine State.portLinkDown_only _ (by decide) ?_
    | intro _
    | split
    | dsimp only

theorem execPortLinkUp_only (port speed width : Nat) {s t : State} (h : execPortLinkUp port speed width s = .next t) : OnlyChanges s t [.regs, .shad, .out, .faults, .queues, .fns, .msiPending] := by
  cases h
  repeat' first
    | with_reducible exact OnlyChanges.refl _ _
    | with_reducible assumption
    | with_reducible refine State.portLinkUp_only _ _ _ (by decide) ?_
    | intro _
    | split
    | dsimp only

theorem execHpMgrRoleWrite_only (w : RegWr) {s t : State} (h : execHpMgrRoleWrite w s = .next t) : OnlyChanges s t [.regs, .out, .worlds, .msiPending] := by
  cases h
  repeat' first
    | with_reducible exact OnlyChanges.refl _ _
    | with_reducible assumption
    | with_reducible refine State.accessAt_only _ _ _ (by decide) ?_ ?_
    | with_reducible refine State.mgrRoleWrite_only _ (by decide) ?_
    | intro _
    | split
    | dsimp only

theorem execIngest_only (c : CmdArgs) {s t : State} (h : execIngest c s = .next t) : OnlyChanges s t [.regs, .out, .bufs, .ingest, .queues, .jobs, .coreEntries, .msiPending] := by
  cases h
  repeat' first
    | with_reducible exact OnlyChanges.refl _ _
    | with_reducible assumption
    | with_reducible refine State.keepEntry_only _ _ (by decide) ?_
    | with_reducible refine State.command_only _ _ _ (by decide) ?_ ?_
    | with_reducible refine State.carryIngest_only _ (by decide) ?_
    | intro _
    | split
    | dsimp only

theorem execIngestStart_only (engine slot : Nat) {s t : State} (h : execIngestStart engine slot s = .next t) : OnlyChanges s t [.regs, .ingest, .arbiter] := by
  cases h
  repeat' first
    | with_reducible exact OnlyChanges.refl _ _
    | with_reducible assumption
    | with_reducible refine State.ingestStart_only _ _ (by decide) ?_
    | intro _
    | split
    | dsimp only

theorem execHostReadError_only (engine slot kind addr tiles : Nat) (host : List (Nat × Byte)) {s t : State} (h : execHostReadError engine slot kind addr tiles host s = .next t) : OnlyChanges s t [.regs, .mem, .out, .edac, .chans, .bufs, .plots, .cache, .ingest, .faults, .queues, .jobs, .msiPending, .pair] := by
  cases h
  repeat' first
    | with_reducible exact OnlyChanges.refl _ _
    | with_reducible assumption
    | with_reducible refine State.hostReadError_only _ _ _ _ _ _ (by decide) ?_
    | intro _
    | split
    | dsimp only

theorem execIngestDone_only (engine slot : Nat) (host : List (Nat × Byte)) {s t : State} (h : execIngestDone engine slot host s = .next t) : OnlyChanges s t [.regs, .mem, .out, .edac, .chans, .bufs, .plots, .cache, .ingest, .faults, .queues, .jobs, .msiPending, .pair] := by
  cases h
  repeat' first
    | with_reducible exact OnlyChanges.refl _ _
    | with_reducible assumption
    | with_reducible refine State.ingestDone_only _ _ _ (by decide) ?_
    | intro _
    | split
    | dsimp only

theorem execIngSoftReset_only (w : RegWr) {s t : State} (h : execIngSoftReset w s = .next t) : OnlyChanges s t [.regs, .shad, .softResetting, .mem, .out, .free, .power, .dram, .edac, .chans, .bufs, .plots, .peak, .cache, .ingest, .display, .dpls, .cvus, .touch, .haptic, .audio, .update, .faults, .worlds, .queues, .fns, .jobs, .coreEntries, .fetchStopped, .unmasked, .msiPending, .pair] := by
  cases h
  repeat' first
    | with_reducible exact OnlyChanges.refl _ _
    | with_reducible assumption
    | with_reducible refine State.accessAt_only _ _ _ (by decide) ?_ ?_
    | with_reducible refine State.pgCtrl_only _ (by decide) ?_
    | intro _
    | split
    | dsimp only

theorem execPipeLutDataAccess_only (w : RegWr) (isRead : Bool) {s t : State} (h : execPipeLutDataAccess w isRead s = .next t) : OnlyChanges s t [.regs, .shad, .out, .worlds, .msiPending] := by
  cases h
  repeat' first
    | with_reducible exact OnlyChanges.refl _ _
    | with_reducible assumption
    | with_reducible refine State.tableAccess_only _ _ _ (by decide) ?_
    | intro _
    | split
    | dsimp only

theorem execPipeSclDataAccess_only (w : RegWr) (isRead : Bool) {s t : State} (h : execPipeSclDataAccess w isRead s = .next t) : OnlyChanges s t [.regs, .shad, .out, .worlds, .msiPending] := by
  cases h
  repeat' first
    | with_reducible exact OnlyChanges.refl _ _
    | with_reducible assumption
    | with_reducible refine State.tableAccess_only _ _ _ (by decide) ?_
    | intro _
    | split
    | dsimp only

theorem execSlotLutDataAccess_only (w : RegWr) (isRead : Bool) {s t : State} (h : execSlotLutDataAccess w isRead s = .next t) : OnlyChanges s t [.regs, .shad, .out, .worlds, .msiPending] := by
  cases h
  repeat' first
    | with_reducible exact OnlyChanges.refl _ _
    | with_reducible assumption
    | with_reducible refine State.tableAccess_only _ _ _ (by decide) ?_
    | intro _
    | split
    | dsimp only

theorem execLineComposeStart_only (out : Nat) {s t : State} (h : execLineComposeStart out s = .next t) : OnlyChanges s t [.regs, .out, .display, .msiPending] := by
  cases h
  repeat' first
    | with_reducible exact OnlyChanges.refl _ _
    | with_reducible assumption
    | with_reducible refine State.composeLine_only _ (by decide) ?_
    | intro _
    | split
    | dsimp only

theorem execCommit_only (c : CmdArgs) {s t : State} (h : execCommit c s = .next t) : OnlyChanges s t [.regs, .shad, .mem, .out, .power, .dram, .edac, .chans, .bufs, .plots, .cache, .display, .faults, .queues, .jobs, .coreEntries, .msiPending, .pair] := by
  cases h
  repeat' first
    | with_reducible exact OnlyChanges.refl _ _
    | with_reducible assumption
    | with_reducible refine State.keepEntry_only _ _ (by decide) ?_
    | with_reducible refine State.commitCommand_only _ (by decide) ?_
    | intro _
    | split
    | dsimp only

theorem execApplyLine_only (out : Nat) {s t : State} (h : execApplyLine out s = .next t) : OnlyChanges s t [.regs, .shad, .mem, .out, .dram, .edac, .chans, .bufs, .plots, .cache, .display, .faults, .queues, .jobs, .msiPending, .pair] := by
  cases h
  repeat' first
    | with_reducible exact OnlyChanges.refl _ _
    | with_reducible assumption
    | with_reducible refine State.applyLine_only _ (by decide) ?_
    | intro _
    | split
    | dsimp only

theorem execFrameDone_only (out : Nat) {s t : State} (h : execFrameDone out s = .next t) : OnlyChanges s t [.regs, .shad, .staged, .latched, .mem, .out, .power, .dram, .edac, .chans, .bufs, .plots, .cache, .display, .dpls, .faults, .queues, .jobs, .fetchStopped, .msiPending, .pair] := by
  cases h
  repeat' first
    | with_reducible exact OnlyChanges.refl _ _
    | with_reducible assumption
    | with_reducible refine State.frameDone_only _ (by decide) ?_
    | intro _
    | split
    | dsimp only

theorem execCommitAckTimeout_only (recNo : Nat) {s t : State} (h : execCommitAckTimeout recNo s = .next t) : OnlyChanges s t [.regs, .shad, .mem, .out, .dram, .edac, .chans, .bufs, .plots, .cache, .display, .faults, .queues, .jobs, .msiPending, .pair] := by
  cases h
  repeat' first
    | with_reducible exact OnlyChanges.refl _ _
    | with_reducible assumption
    | with_reducible refine State.ackTimeout_only _ (by decide) ?_
    | intro _
    | split
    | dsimp only

theorem execScanOutStart_only (w : RegWr) {s t : State} (h : execScanOutStart w s = .next t) : OnlyChanges s t [.regs, .shad, .mem, .out, .power, .dram, .edac, .chans, .bufs, .plots, .cache, .display, .dpls, .faults, .worlds, .queues, .jobs, .msiPending, .pair] := by
  cases h
  repeat' first
    | with_reducible exact OnlyChanges.refl _ _
    | with_reducible assumption
    | with_reducible refine State.accessAt_only _ _ _ (by decide) ?_ ?_
    | with_reducible refine State.ctrlWrite_only _ _ _ (by decide) ?_ ?_ ?_
    | with_reducible refine State.scnEnable_only _ _ (by decide) ?_
    | with_reducible refine State.scnReset_only _ (by decide) ?_
    | intro _
    | split
    | dsimp only

theorem execScanOutCounterStart_only (out : Nat) {s t : State} (h : execScanOutCounterStart out s = .next t) : OnlyChanges s t [.regs, .shad, .mem, .out, .power, .dram, .edac, .chans, .bufs, .plots, .cache, .display, .dpls, .faults, .queues, .jobs, .msiPending, .pair] := by
  cases h
  repeat' first
    | with_reducible exact OnlyChanges.refl _ _
    | with_reducible assumption
    | with_reducible refine State.scanOutStarts_only _ (by decide) ?_
    | intro _
    | split
    | dsimp only

theorem execScanOutStopRequest_only (w : RegWr) {s t : State} (h : execScanOutStopRequest w s = .next t) : OnlyChanges s t [.regs, .shad, .mem, .out, .power, .dram, .edac, .chans, .bufs, .plots, .cache, .display, .dpls, .faults, .worlds, .queues, .jobs, .msiPending, .pair] := by
  cases h
  repeat' first
    | with_reducible exact OnlyChanges.refl _ _
    | with_reducible assumption
    | with_reducible refine State.accessAt_only _ _ _ (by decide) ?_ ?_
    | with_reducible refine State.ctrlWrite_only _ _ _ (by decide) ?_ ?_ ?_
    | with_reducible refine State.scnEnable_only _ _ (by decide) ?_
    | with_reducible refine State.scnReset_only _ (by decide) ?_
    | intro _
    | split
    | dsimp only

theorem execScnSoftReset_only (w : RegWr) {s t : State} (h : execScnSoftReset w s = .next t) : OnlyChanges s t [.regs, .shad, .mem, .out, .power, .dram, .edac, .chans, .bufs, .plots, .cache, .display, .dpls, .faults, .worlds, .queues, .jobs, .msiPending, .pair] := by
  cases h
  repeat' first
    | with_reducible exact OnlyChanges.refl _ _
    | with_reducible assumption
    | with_reducible refine State.accessAt_only _ _ _ (by decide) ?_ ?_
    | with_reducible refine State.ctrlWrite_only _ _ _ (by decide) ?_ ?_ ?_
    | with_reducible refine State.scnEnable_only _ _ (by decide) ?_
    | with_reducible refine State.scnReset_only _ (by decide) ?_
    | intro _
    | split
    | dsimp only

theorem execScanLineStart_only (out : Nat) (phase : Int) (m : Monitor) {s t : State} (h : execScanLineStart out phase m s = .next t) : OnlyChanges s t [.regs, .out, .display, .msiPending, .pair] := by
  cases h
  repeat' first
    | with_reducible exact OnlyChanges.refl _ _
    | with_reducible assumption
    | with_reducible refine State.scanLineStart_only _ _ _ (by decide) ?_
    | intro _
    | split
    | dsimp only

theorem execFurrowArrival_only (out slot plane row clock : Nat) (m : Monitor) {s t : State} (h : execFurrowArrival out slot plane row clock m s = .next t) : OnlyChanges s t [.regs, .mem, .out, .edac, .cache, .display, .faults, .msiPending] := by
  cases h
  repeat' first
    | with_reducible exact OnlyChanges.refl _ _
    | with_reducible assumption
    | with_reducible refine State.furrowArrival_only _ _ _ _ _ _ (by decide) ?_
    | intro _
    | split
    | dsimp only

theorem execHeadlandStart_only (out : Nat) {s t : State} (h : execHeadlandStart out s = .next t) : OnlyChanges s t [.regs, .out, .msiPending] := by
  cases h
  repeat' first
    | with_reducible exact OnlyChanges.refl _ _
    | with_reducible assumption
    | with_reducible refine State.counterEvent_only _ _ _ (by decide) ?_
    | intro _
    | split
    | dsimp only

theorem execVsync_only (out : Nat) {s t : State} (h : execVsync out s = .next t) : OnlyChanges s t [.regs, .out, .msiPending] := by
  cases h
  repeat' first
    | with_reducible exact OnlyChanges.refl _ _
    | with_reducible assumption
    | with_reducible refine State.counterEvent_only _ _ _ (by decide) ?_
    | intro _
    | split
    | dsimp only

theorem execHeadlandEnd_only (out : Nat) {s t : State} (h : execHeadlandEnd out s = .next t) : OnlyChanges s t [.regs, .out, .msiPending] := by
  cases h
  repeat' first
    | with_reducible exact OnlyChanges.refl _ _
    | with_reducible assumption
    | with_reducible refine State.counterEvent_only _ _ _ (by decide) ?_
    | intro _
    | split
    | dsimp only

theorem execLineMatch_only (out i : Nat) {s t : State} (h : execLineMatch out index s = .next t) : OnlyChanges s t [.regs, .out, .msiPending] := by
  cases h
  repeat' first
    | with_reducible exact OnlyChanges.refl _ _
    | with_reducible assumption
    | with_reducible refine State.lineMatch_only _ _ (by decide) ?_
    | intro _
    | split
    | dsimp only

theorem execVrrDecision_only (out : Nat) {s t : State} (h : execVrrDecision out s = .next t) : OnlyChanges s t [.regs, .out, .display, .pair] := by
  cases h
  repeat' first
    | with_reducible exact OnlyChanges.refl _ _
    | with_reducible assumption
    | with_reducible refine State.vrrDecision_only _ (by decide) ?_
    | intro _
    | split
    | dsimp only

theorem execGenlockWrite_only (w : RegWr) {s t : State} (h : execGenlockWrite w s = .next t) : OnlyChanges s t [.regs, .shad, .out, .worlds, .msiPending, .pair] := by
  cases h
  repeat' first
    | with_reducible exact OnlyChanges.refl _ _
    | with_reducible assumption
    | with_reducible refine State.accessAt_only _ _ _ (by decide) ?_ ?_
    | with_reducible refine State.genlockWrite_only _ (by decide) ?_
    | intro _
    | split
    | dsimp only

theorem execDplEnable_only (w : RegWr) {s t : State} (h : execDplEnable w s = .next t) : OnlyChanges s t [.regs, .shad, .out, .dpls, .faults, .worlds, .msiPending, .pair] := by
  cases h
  repeat' first
    | with_reducible exact OnlyChanges.refl _ _
    | with_reducible assumption
    | with_reducible refine State.accessAt_only _ _ _ (by decide) ?_ ?_
    | with_reducible refine State.ctrlWrite_only _ _ _ (by decide) ?_ ?_ ?_
    | with_reducible refine State.dplEnable_only _ _ (by decide) ?_
    | with_reducible refine State.dplReset_only _ (by decide) ?_
    | intro _
    | split
    | dsimp only

theorem execDplDisable_only (w : RegWr) {s t : State} (h : execDplDisable w s = .next t) : OnlyChanges s t [.regs, .shad, .out, .dpls, .faults, .worlds, .msiPending, .pair] := by
  cases h
  repeat' first
    | with_reducible exact OnlyChanges.refl _ _
    | with_reducible assumption
    | with_reducible refine State.accessAt_only _ _ _ (by decide) ?_ ?_
    | with_reducible refine State.ctrlWrite_only _ _ _ (by decide) ?_ ?_ ?_
    | with_reducible refine State.dplEnable_only _ _ (by decide) ?_
    | with_reducible refine State.dplReset_only _ (by decide) ?_
    | intro _
    | split
    | dsimp only

theorem execHpdPlug_only (out sink : Nat) (blockPred : Bool) {s t : State} (h : execHpdPlug out sink blockPred s = .next t) : OnlyChanges s t [.regs, .out, .dpls, .msiPending] := by
  cases h
  repeat' first
    | with_reducible exact OnlyChanges.refl _ _
    | with_reducible assumption
    | with_reducible refine State.hpdPlug_only _ _ _ (by decide) ?_
    | intro _
    | split
    | dsimp only

theorem execHpdIrq_only (out : Nat) (lost : Bool) {s t : State} (h : execHpdIrq out lost s = .next t) : OnlyChanges s t [.regs, .out, .dpls, .msiPending] := by
  cases h
  repeat' first
    | with_reducible exact OnlyChanges.refl _ _
    | with_reducible assumption
    | with_reducible refine State.hpdIrq_only _ _ (by decide) ?_
    | intro _
    | split
    | dsimp only

theorem execHpdUnplug_only (out : Nat) {s t : State} (h : execHpdUnplug out s = .next t) : OnlyChanges s t [.regs, .out, .dpls, .msiPending] := by
  cases h
  repeat' first
    | with_reducible exact OnlyChanges.refl _ _
    | with_reducible assumption
    | with_reducible refine State.hpdUnplug_only _ (by decide) ?_
    | intro _
    | split
    | dsimp only

theorem execTrainingAttemptEnd_only (out : Nat) (ok : Bool) {s t : State} (h : execTrainingAttemptEnd out ok s = .next t) : OnlyChanges s t [.regs, .out, .dpls, .msiPending] := by
  cases h
  repeat' first
    | with_reducible exact OnlyChanges.refl _ _
    | with_reducible assumption
    | with_reducible refine State.attemptEnd_only _ _ (by decide) ?_
    | intro _
    | split
    | dsimp only

theorem execLinkLoss_only (out : Nat) {s t : State} (h : execLinkLoss out s = .next t) : OnlyChanges s t [.regs, .out, .dpls, .msiPending] := by
  cases h
  repeat' first
    | with_reducible exact OnlyChanges.refl _ _
    | with_reducible assumption
    | with_reducible refine State.linkLoss_only _ (by decide) ?_
    | intro _
    | split
    | dsimp only

theorem execAuxGo_only (w : RegWr) {s t : State} (h : execAuxGo w s = .next t) : OnlyChanges s t [.regs, .shad, .out, .dpls, .worlds, .msiPending, .pair] := by
  cases h
  repeat' first
    | with_reducible exact OnlyChanges.refl _ _
    | with_reducible assumption
    | with_reducible refine State.accessAt_only _ _ _ (by decide) ?_ ?_
    | with_reducible refine State.auxGo_only _ (by decide) ?_
    | intro _
    | split
    | dsimp only

theorem execAuxReply_only (out reply bytes : Nat) (data : List Nat) {s t : State} (h : execAuxReply out reply bytes data s = .next t) : OnlyChanges s t [.regs, .out, .dpls, .msiPending] := by
  cases h
  repeat' first
    | with_reducible exact OnlyChanges.refl _ _
    | with_reducible assumption
    | with_reducible refine State.auxReply_only _ _ _ _ (by decide) ?_
    | intro _
    | split
    | dsimp only

theorem execAuxReplyTimeout_only (out : Nat) {s t : State} (h : execAuxReplyTimeout out s = .next t) : OnlyChanges s t [.regs, .out, .dpls, .msiPending] := by
  cases h
  repeat' first
    | with_reducible exact OnlyChanges.refl _ _
    | with_reducible assumption
    | with_reducible refine State.auxTimeout_only _ (by decide) ?_
    | intro _
    | split
    | dsimp only

theorem execPpsDataRead_only (r : RegRd) {s t : State} (h : execPpsDataRead r s = .next t) : OnlyChanges s t [.regs, .out, .worlds] := by
  cases h
  repeat' first
    | with_reducible exact OnlyChanges.refl _ _
    | with_reducible assumption
    | with_reducible refine State.ppsRead_only _ (by decide) ?_
    | intro _
    | split
    | dsimp only

theorem execDplIdleHoldEnd_only (out : Nat) {s t : State} (h : execDplIdleHoldEnd out s = .next t) : OnlyChanges s t [.regs, .out, .dpls, .msiPending] := by
  cases h
  repeat' first
    | with_reducible exact OnlyChanges.refl _ _
    | with_reducible assumption
    | with_reducible refine State.idleHoldEnd_only _ (by decide) ?_
    | intro _
    | split
    | dsimp only

theorem execScan_only (c : CmdArgs) {s t : State} (h : execScan c s = .next t) : OnlyChanges s t [.regs, .out, .bufs, .cvus, .queues, .jobs, .coreEntries, .msiPending] := by
  cases h
  repeat' first
    | with_reducible exact OnlyChanges.refl _ _
    | with_reducible assumption
    | with_reducible refine State.keepEntry_only _ _ (by decide) ?_
    | with_reducible refine State.command_only _ _ _ (by decide) ?_ ?_
    | with_reducible refine State.carryScan_only _ (by decide) ?_
    | intro _
    | split
    | dsimp only

theorem execScanStart_only (engine slot : Nat) {s t : State} (h : execScanStart engine slot s = .next t) : OnlyChanges s t [.regs, .cvus, .arbiter] := by
  cases h
  repeat' first
    | with_reducible exact OnlyChanges.refl _ _
    | with_reducible assumption
    | with_reducible refine State.scanStartCmd_only _ _ (by decide) ?_
    | intro _
    | split
    | dsimp only

theorem execScanDone_only (engine slot : Nat) {s t : State} (h : execScanDone engine slot s = .next t) : OnlyChanges s t [.regs, .mem, .out, .edac, .chans, .bufs, .plots, .cache, .cvus, .faults, .queues, .jobs, .msiPending, .pair] := by
  cases h
  repeat' first
    | with_reducible exact OnlyChanges.refl _ _
    | with_reducible assumption
    | with_reducible refine State.scanDone_only _ _ (by decide) ?_
    | intro _
    | split
    | dsimp only

theorem execCheckRegionFinal_only (out region : Nat) {s t : State} (h : execCheckRegionFinal out region s = .next t) : OnlyChanges s t [.regs, .out, .display, .faults, .msiPending] := by
  cases h
  repeat' first
    | with_reducible exact OnlyChanges.refl _ _
    | with_reducible assumption
    | with_reducible refine State.regionFinal_only _ _ (by decide) ?_
    | intro _
    | split
    | dsimp only

theorem execDramRequest_only (q : DramReq) {s t : State} (h : execDramRequest q s = .next t) : OnlyChanges s t [.regs, .mem, .out, .dram, .edac, .cache, .faults, .msiPending] := by
  cases h
  repeat' first
    | with_reducible exact OnlyChanges.refl _ _
    | with_reducible assumption
    | with_reducible refine State.dramRequest_only _ (by decide) ?_
    | intro _
    | split
    | dsimp only

theorem execDramRequestComplete_only (ch : Nat) {s t : State} (h : execDramRequestComplete ch s = .next t) : OnlyChanges s t [.regs, .mem, .out, .dram, .edac, .cache, .faults, .msiPending] := by
  cases h
  repeat' first
    | with_reducible exact OnlyChanges.refl _ _
    | with_reducible assumption
    | with_reducible refine State.dramComplete_only _ (by decide) ?_
    | intro _
    | split
    | dsimp only

theorem execRefreshDue_only (ch : Nat) {s t : State} (h : execRefreshDue ch s = .next t) : OnlyChanges s t [.regs, .out, .msiPending] := by
  cases h
  repeat' first
    | with_reducible exact OnlyChanges.refl _ _
    | with_reducible assumption
    | with_reducible refine State.refreshDue_only _ (by decide) ?_
    | intro _
    | split
    | dsimp only

theorem execMr4Poll_only (ch rate : Nat) (hot : Bool) {s t : State} (h : execMr4Poll ch rate hot s = .next t) : OnlyChanges s t [.regs, .out, .dram, .faults, .msiPending] := by
  cases h
  repeat' first
    | with_reducible exact OnlyChanges.refl _ _
    | with_reducible assumption
    | with_reducible refine State.mr4Poll_only _ _ _ (by decide) ?_
    | intro _
    | split
    | dsimp only

theorem execRetrainStart_only (ch cause : Nat) {s t : State} (h : execRetrainStart ch cause s = .next t) : OnlyChanges s t [.regs, .dram] := by
  cases h
  repeat' first
    | with_reducible exact OnlyChanges.refl _ _
    | with_reducible assumption
    | with_reducible refine State.retrainStart_only _ _ (by decide) ?_
    | intro _
    | split
    | dsimp only

theorem execDmcTrainStartWrite_only (w : RegWr) {s t : State} (h : execDmcTrainStartWrite w s = .next t) : OnlyChanges s t [.regs, .shad, .out, .dram, .worlds, .msiPending] := by
  cases h
  repeat' first
    | with_reducible exact OnlyChanges.refl _ _
    | with_reducible assumption
    | with_reducible refine State.accessAt_only _ _ _ (by decide) ?_ ?_
    | with_reducible refine State.trainCtrlWrite_only _ (by decide) ?_
    | intro _
    | split
    | dsimp only

theorem execRetrainEnd_only (ch pause : Nat) (eyes : Option (Nat × Nat)) (readBack : Bool) {s t : State} (h : execRetrainEnd ch pause eyes readBack s = .next t) : OnlyChanges s t [.regs, .shad, .mem, .out, .free, .dram, .edac, .chans, .bufs, .plots, .cache, .ingest, .display, .dpls, .cvus, .touch, .haptic, .audio, .update, .faults, .queues, .fns, .jobs, .coreEntries, .fetchStopped, .unmasked, .msiPending, .pair] := by
  cases h
  repeat' first
    | with_reducible exact OnlyChanges.refl _ _
    | with_reducible assumption
    | with_reducible refine State.retrainEnd_only _ _ _ _ (by decide) ?_
    | intro _
    | split
    | dsimp only

theorem execDramPowerDown_only (ch : Nat) {s t : State} (h : execDramPowerDown ch s = .next t) : OnlyChanges s t [.regs, .dram] := by
  cases h
  repeat' first
    | with_reducible exact OnlyChanges.refl _ _
    | with_reducible assumption
    | with_reducible refine State.dramPowerDown_only _ (by decide) ?_
    | intro _
    | split
    | dsimp only

theorem execDmcPortTargetAll_only (w : RegWr) {s t : State} (h : execDmcPortTargetAll w s = .next t) : OnlyChanges s t [.regs, .out, .dram, .worlds, .msiPending] := by
  cases h
  repeat' first
    | with_reducible exact OnlyChanges.refl _ _
    | with_reducible assumption
    | with_reducible refine State.accessAt_only _ _ _ (by decide) ?_ ?_
    | with_reducible refine State.portTargetWrite_only _ (by decide) ?_
    | intro _
    | split
    | dsimp only

theorem execDmcPortMaxlatClear_only (w : RegWr) {s t : State} (h : execDmcPortMaxlatClear w s = .next t) : OnlyChanges s t [.regs, .out, .worlds, .msiPending] := by
  cases h
  repeat' first
    | with_reducible exact OnlyChanges.refl _ _
    | with_reducible assumption
    | with_reducible refine State.accessAt_only _ _ _ (by decide) ?_ ?_
    | with_reducible refine State.maxlatClear_only _ (by decide) ?_
    | intro _
    | split
    | dsimp only

theorem execDmcDebtMaxClear_only (w : RegWr) {s t : State} (h : execDmcDebtMaxClear w s = .next t) : OnlyChanges s t [.regs, .out, .worlds, .msiPending] := by
  cases h
  repeat' first
    | with_reducible exact OnlyChanges.refl _ _
    | with_reducible assumption
    | with_reducible refine State.accessAt_only _ _ _ (by decide) ?_ ?_
    | with_reducible refine State.debtMaxClear_only _ (by decide) ?_
    | intro _
    | split
    | dsimp only

theorem execDmcStopWrite_only (w : RegWr) {s t : State} (h : execDmcStopWrite w s = .next t) : OnlyChanges s t [.regs, .shad, .mem, .out, .free, .dram, .edac, .chans, .bufs, .plots, .cache, .ingest, .display, .dpls, .cvus, .touch, .haptic, .audio, .update, .faults, .worlds, .queues, .fns, .jobs, .coreEntries, .fetchStopped, .unmasked, .msiPending, .pair] := by
  cases h
  repeat' first
    | with_reducible exact OnlyChanges.refl _ _
    | with_reducible assumption
    | with_reducible refine State.accessAt_only _ _ _ (by decide) ?_ ?_
    | with_reducible refine State.ctrlWrite_only _ _ _ (by decide) ?_ ?_ ?_
    | with_reducible refine State.dmcEnable_only _ _ (by decide) ?_
    | with_reducible refine State.dmcReset_only _ (by decide) ?_
    | intro _
    | split
    | dsimp only

theorem execRegionsSet_only (w : RegWr) {s t : State} (h : execRegionsSet w s = .next t) : OnlyChanges s t [.regs, .shad, .out, .worlds, .msiPending] := by
  cases h
  repeat' first
    | with_reducible exact OnlyChanges.refl _ _
    | with_reducible assumption
    | with_reducible refine State.accessAt_only _ _ _ (by decide) ?_ ?_
    | with_reducible refine State.edacCtrlWrite_only _ (by decide) ?_
    | intro _
    | split
    | dsimp only

theorem execEdacLogRelease_only (w : RegWr) {s t : State} (h : execEdacLogRelease w s = .next t) : OnlyChanges s t [.regs, .out, .edac, .worlds, .msiPending] := by
  cases h
  repeat' first
    | with_reducible exact OnlyChanges.refl _ _
    | with_reducible assumption
    | with_reducible refine State.accessAt_only _ _ _ (by decide) ?_ ?_
    | with_reducible refine State.edacLogCtrl_only _ (by decide) ?_
    | intro _
    | split
    | dsimp only

theorem execEdacLogClearAll_only (w : RegWr) {s t : State} (h : execEdacLogClearAll w s = .next t) : OnlyChanges s t [.regs, .out, .edac, .worlds, .msiPending] := by
  cases h
  repeat' first
    | with_reducible exact OnlyChanges.refl _ _
    | with_reducible assumption
    | with_reducible refine State.accessAt_only _ _ _ (by decide) ?_ ?_
    | with_reducible refine State.edacLogCtrl_only _ (by decide) ?_
    | intro _
    | split
    | dsimp only

theorem execEdacRetirePlot_only (w : RegWr) {s t : State} (h : execEdacRetirePlot w s = .next t) : OnlyChanges s t [.regs, .out, .edac, .plots, .worlds, .msiPending, .pair] := by
  cases h
  repeat' first
    | with_reducible exact OnlyChanges.refl _ _
    | with_reducible assumption
    | with_reducible refine State.accessAt_only _ _ _ (by decide) ?_ ?_
    | with_reducible refine State.retirePlotWrite_only _ (by decide) ?_
    | intro _
    | split
    | dsimp only

theorem execEdacRetireBank_only (w : RegWr) {s t : State} (h : execEdacRetireBank w s = .next t) : OnlyChanges s t [.regs, .out, .edac, .plots, .worlds, .msiPending, .pair] := by
  cases h
  repeat' first
    | with_reducible exact OnlyChanges.refl _ _
    | with_reducible assumption
    | with_reducible refine State.accessAt_only _ _ _ (by decide) ?_ ?_
    | with_reducible refine State.retireBankWrite_only _ (by decide) ?_
    | intro _
    | split
    | dsimp only

theorem execRetireBankDone_only {s t : State} (h : execRetireBankDone s = .next t) : OnlyChanges s t [.regs, .out, .edac, .msiPending] := by
  cases h
  repeat' first
    | with_reducible exact OnlyChanges.refl _ _
    | with_reducible assumption
    | with_reducible refine State.retireBankDone_only  (by decide) ?_
    | intro _
    | split
    | dsimp only

theorem execTchEnable_only (w : RegWr) {s t : State} (h : execTchEnable w s = .next t) : OnlyChanges s t [.regs, .shad, .mem, .out, .edac, .bufs, .cache, .touch, .faults, .worlds, .msiPending, .pair] := by
  cases h
  repeat' first
    | with_reducible exact OnlyChanges.refl _ _
    | with_reducible assumption
    | with_reducible refine State.accessAt_only _ _ _ (by decide) ?_ ?_
    | with_reducible refine State.ctrlWrite_only _ _ _ (by decide) ?_ ?_ ?_
    | with_reducible refine State.tchEnable_only _ _ (by decide) ?_
    | with_reducible refine State.tchReset_only _ (by decide) ?_
    | intro _
    | split
    | dsimp only

theorem execTchPanelEnable_only (w : RegWr) {s t : State} (h : execTchPanelEnable w s = .next t) : OnlyChanges s t [.regs, .shad, .mem, .out, .edac, .bufs, .cache, .touch, .faults, .worlds, .msiPending, .pair] := by
  cases h
  repeat' first
    | with_reducible exact OnlyChanges.refl _ _
    | with_reducible assumption
    | with_reducible refine State.accessAt_only _ _ _ (by decide) ?_ ?_
    | with_reducible refine State.tchCfgWrite_only _ (by decide) ?_
    | intro _
    | split
    | dsimp only

theorem execTchPanelDisable_only (w : RegWr) {s t : State} (h : execTchPanelDisable w s = .next t) : OnlyChanges s t [.regs, .shad, .mem, .out, .edac, .bufs, .cache, .touch, .faults, .worlds, .msiPending, .pair] := by
  cases h
  repeat' first
    | with_reducible exact OnlyChanges.refl _ _
    | with_reducible assumption
    | with_reducible refine State.accessAt_only _ _ _ (by decide) ?_ ?_
    | with_reducible refine State.tchCfgWrite_only _ (by decide) ?_
    | intro _
    | split
    | dsimp only

theorem execTchSoftReset_only (w : RegWr) {s t : State} (h : execTchSoftReset w s = .next t) : OnlyChanges s t [.regs, .shad, .mem, .out, .edac, .bufs, .cache, .touch, .faults, .worlds, .msiPending, .pair] := by
  cases h
  repeat' first
    | with_reducible exact OnlyChanges.refl _ _
    | with_reducible assumption
    | with_reducible refine State.accessAt_only _ _ _ (by decide) ?_ ?_
    | with_reducible refine State.ctrlWrite_only _ _ _ (by decide) ?_ ?_ ?_
    | with_reducible refine State.tchEnable_only _ _ (by decide) ?_
    | with_reducible refine State.tchReset_only _ (by decide) ?_
    | intro _
    | split
    | dsimp only

theorem execTouchFrameStart_only (engine : Nat) {s t : State} (h : execTouchFrameStart engine s = .next t) : OnlyChanges s t [.regs, .out, .touch, .msiPending] := by
  cases h
  repeat' first
    | with_reducible exact OnlyChanges.refl _ _
    | with_reducible assumption
    | with_reducible refine State.touchFrameStart_only _ (by decide) ?_
    | intro _
    | split
    | dsimp only

theorem execTouchPanelScanEnd_only (engine panel : Nat) (m : List (List Nat × List Nat)) (listen cand : List Nat) {s t : State} (h : execTouchPanelScanEnd engine panel m listen cand s = .next t) : OnlyChanges s t [.regs, .mem, .out, .edac, .bufs, .cache, .touch, .faults, .msiPending, .pair] := by
  cases h
  repeat' first
    | with_reducible exact OnlyChanges.refl _ _
    | with_reducible assumption
    | with_reducible refine State.panelScanEnd_only _ _ _ _ _ (by decide) ?_
    | intro _
    | split
    | dsimp only

theorem execTouchSnapshot_only (engine panel : Nat) {s t : State} (h : execTouchSnapshot engine panel s = .next t) : OnlyChanges s t [.regs, .mem, .out, .edac, .bufs, .cache, .faults, .msiPending, .pair] := by
  cases h
  repeat' first
    | with_reducible exact OnlyChanges.refl _ _
    | with_reducible assumption
    | with_reducible refine State.touchSnapshot_only _ _ (by decide) ?_
    | intro _
    | split
    | dsimp only

theorem execCaptureRef_only (w : RegWr) {s t : State} (h : execCaptureRef w s = .next t) : OnlyChanges s t [.regs, .shad, .mem, .out, .edac, .bufs, .cache, .touch, .faults, .worlds, .msiPending, .pair] := by
  cases h
  repeat' first
    | with_reducible exact OnlyChanges.refl _ _
    | with_reducible assumption
    | with_reducible refine State.accessAt_only _ _ _ (by decide) ?_ ?_
    | with_reducible refine State.tchCfgWrite_only _ (by decide) ?_
    | intro _
    | split
    | dsimp only

theorem execTchNodeDataAccess_only (w : RegWr) (isRead : Bool) {s t : State} (h : execTchNodeDataAccess w isRead s = .next t) : OnlyChanges s t [.regs, .out, .touch, .worlds, .msiPending, .pair] := by
  cases h
  repeat' first
    | with_reducible exact OnlyChanges.refl _ _
    | with_reducible assumption
    | with_reducible refine State.accessAt_only _ _ _ (by decide) ?_ ?_
    | with_reducible refine State.mirrorWrite_only _ _ _ (by decide) ?_
    | with_reducible refine State.accessRead_only _ _ (by decide) ?_ ?_
    | with_reducible refine State.nodeAccess_only _ _ (by decide) ?_
    | intro _
    | split
    | dsimp only

theorem execTchBufWrite_only (w : RegWr) {s t : State} (h : execTchBufWrite w s = .next t) : OnlyChanges s t [.regs, .shad, .out, .worlds, .msiPending, .pair] := by
  cases h
  repeat' first
    | with_reducible exact OnlyChanges.refl _ _
    | with_reducible assumption
    | with_reducible refine State.accessAt_only _ _ _ (by decide) ?_ ?_
    | with_reducible refine State.tchBufWrite_only _ (by decide) ?_
    | intro _
    | split
    | dsimp only

theorem execHapticPlay_only (c : CmdArgs) {s t : State} (h : execHapticPlay c s = .next t) : OnlyChanges s t [.regs, .out, .bufs, .haptic, .queues, .jobs, .coreEntries, .msiPending] := by
  cases h
  repeat' first
    | with_reducible exact OnlyChanges.refl _ _
    | with_reducible assumption
    | with_reducible refine State.command_only _ _ _ (by decide) ?_ ?_
    | with_reducible refine State.carryHapticPlay_only _ (by decide) ?_
    | intro _
    | split
    | dsimp only

theorem execTouchRule_only (c : CmdArgs) {s t : State} (h : execTouchRule c s = .next t) : OnlyChanges s t [.regs, .out, .bufs, .haptic, .queues, .jobs, .coreEntries, .msiPending, .pair] := by
  cases h
  repeat' first
    | with_reducible exact OnlyChanges.refl _ _
    | with_reducible assumption
    | with_reducible refine State.command_only _ _ _ (by decide) ?_ ?_
    | with_reducible refine State.carryTouchRule_only _ (by decide) ?_
    | intro _
    | split
    | dsimp only

theorem execRuleMatch_only {s t : State} (h : execRuleMatch s = .next t) : OnlyChanges s t [.regs, .bufs, .touch, .haptic] := by
  cases h
  repeat' first
    | with_reducible exact OnlyChanges.refl _ _
    | with_reducible assumption
    | with_reducible refine State.ruleMatch_only  (by decide) ?_
    | intro _
    | split
    | dsimp only

theorem execClipLoadDone_only {s t : State} (h : execClipLoadDone s = .next t) : OnlyChanges s t [.regs, .mem, .out, .free, .edac, .cache, .haptic, .faults, .queues, .jobs, .msiPending, .pair] := by
  cases h
  repeat' first
    | with_reducible exact OnlyChanges.refl _ _
    | with_reducible assumption
    | with_reducible refine State.clipLoadDone_only  (by decide) ?_
    | intro _
    | split
    | dsimp only

theorem execControlPeriod_only (ch : Nat) (adcA adcI : Int) (carrier : Nat) {s t : State} (h : execControlPeriod ch adcA adcI carrier s = .next t) : OnlyChanges s t [.regs, .mem, .out, .chans, .bufs, .plots, .cache, .haptic, .faults, .queues, .jobs, .msiPending, .pair] := by
  cases h
  repeat' first
    | with_reducible exact OnlyChanges.refl _ _
    | with_reducible assumption
    | with_reducible refine State.controlPeriod_only _ _ _ _ (by decide) ?_
    | intro _
    | split
    | dsimp only

theorem execTapSample_only (tap : Nat) (sample : Int) {s t : State} (h : execTapSample tap sample s = .next t) : OnlyChanges s t [.haptic] := by
  cases h
  repeat' first
    | with_reducible exact OnlyChanges.refl _ _
    | with_reducible assumption
    | with_reducible refine State.tapSample_only _ _ (by decide) ?_
    | intro _
    | split
    | dsimp only

theorem execHapChannelEnable_only (w : RegWr) {s t : State} (h : execHapChannelEnable w s = .next t) : OnlyChanges s t [.regs, .shad, .mem, .out, .chans, .bufs, .plots, .cache, .haptic, .worlds, .queues, .jobs, .msiPending, .pair] := by
  cases h
  repeat' first
    | with_reducible exact OnlyChanges.refl _ _
    | with_reducible assumption
    | with_reducible refine State.accessAt_only _ _ _ (by decide) ?_ ?_
    | with_reducible refine State.hapCtrlWrite_only _ (by decide) ?_
    | intro _
    | split
    | dsimp only

theorem execCalStart_only (w : RegWr) {s t : State} (h : execCalStart w s = .next t) : OnlyChanges s t [.regs, .shad, .mem, .out, .chans, .bufs, .plots, .cache, .haptic, .worlds, .queues, .jobs, .msiPending, .pair] := by
  cases h
  repeat' first
    | with_reducible exact OnlyChanges.refl _ _
    | with_reducible assumption
    | with_reducible refine State.accessAt_only _ _ _ (by decide) ?_ ?_
    | with_reducible refine State.hapCtrlWrite_only _ (by decide) ?_
    | intro _
    | split
    | dsimp only

theorem execCalDone_only (ch freq peak : Nat) {s t : State} (h : execCalDone ch freq peak s = .next t) : OnlyChanges s t [.regs, .mem, .out, .chans, .bufs, .plots, .cache, .haptic, .faults, .queues, .jobs, .msiPending, .pair] := by
  cases h
  repeat' first
    | with_reducible exact OnlyChanges.refl _ _
    | with_reducible assumption
    | with_reducible refine State.calDone_only _ _ _ (by decide) ?_
    | intro _
    | split
    | dsimp only

theorem execAudioQueue_only (c : CmdArgs) {s t : State} (h : execAudioQueue c s = .next t) : OnlyChanges s t [.regs, .out, .bufs, .audio, .queues, .jobs, .coreEntries, .msiPending] := by
  cases h
  repeat' first
    | with_reducible exact OnlyChanges.refl _ _
    | with_reducible assumption
    | with_reducible refine State.command_only _ _ _ (by decide) ?_ ?_
    | with_reducible refine State.carryAudioQueue_only _ (by decide) ?_
    | intro _
    | split
    | dsimp only

theorem execAudioBlockBoundary_only (domain : Nat) (inputs : List (Nat × List Int)) (sync : List Nat) {s t : State} (h : execAudioBlockBoundary domain inputs sync s = .next t) : OnlyChanges s t [.regs, .mem, .out, .free, .edac, .chans, .bufs, .plots, .cache, .audio, .faults, .queues, .jobs, .msiPending, .pair] := by
  cases h
  repeat' first
    | with_reducible exact OnlyChanges.refl _ _
    | with_reducible assumption
    | with_reducible refine State.blockBoundary_only _ _ _ (by decide) ?_
    | intro _
    | split
    | dsimp only

theorem execRouteApply_only (w : RegWr) {s t : State} (h : execRouteApply w s = .next t) : OnlyChanges s t [.regs, .shad, .out, .audio, .worlds, .msiPending, .pair] := by
  cases h
  repeat' first
    | with_reducible exact OnlyChanges.refl _ _
    | with_reducible assumption
    | with_reducible refine State.accessAt_only _ _ _ (by decide) ?_ ?_
    | with_reducible refine State.audCtrlWrite_only _ (by decide) ?_
    | intro _
    | split
    | dsimp only

theorem execBridgePrimed_only (bridge : Nat) {s t : State} (h : execBridgePrimed bridge s = .next t) : OnlyChanges s t [.regs, .audio] := by
  cases h
  repeat' first
    | with_reducible exact OnlyChanges.refl _ _
    | with_reducible assumption
    | with_reducible refine State.bridgePrimed_only _ (by decide) ?_
    | intro _
    | split
    | dsimp only

theorem execTdmPortEnable_only (w : RegWr) {s t : State} (h : execTdmPortEnable w s = .next t) : OnlyChanges s t [.regs, .shad, .out, .audio, .worlds, .msiPending, .pair] := by
  cases h
  repeat' first
    | with_reducible exact OnlyChanges.refl _ _
    | with_reducible assumption
    | with_reducible refine State.accessAt_only _ _ _ (by decide) ?_ ?_
    | with_reducible refine State.tdmCfgWrite_only _ (by decide) ?_
    | intro _
    | split
    | dsimp only

theorem execBusEnableWrite_only (w : RegWr) {s t : State} (h : execBusEnableWrite w s = .next t) : OnlyChanges s t [.regs, .shad, .out, .worlds, .msiPending, .pair] := by
  cases h
  repeat' first
    | with_reducible exact OnlyChanges.refl _ _
    | with_reducible assumption
    | with_reducible refine State.accessAt_only _ _ _ (by decide) ?_ ?_
    | with_reducible refine State.busCfgWrite_only _ (by decide) ?_
    | intro _
    | split
    | dsimp only

theorem execStreamDisable_only (w : RegWr) {s t : State} (h : execStreamDisable w s = .next t) : OnlyChanges s t [.regs, .shad, .out, .audio, .worlds, .msiPending, .pair] := by
  cases h
  repeat' first
    | with_reducible exact OnlyChanges.refl _ _
    | with_reducible assumption
    | with_reducible refine State.accessAt_only _ _ _ (by decide) ?_ ?_
    | with_reducible refine State.strCfgWrite_only _ (by decide) ?_
    | intro _
    | split
    | dsimp only

theorem execStreamChannelWrite_only (w : RegWr) {s t : State} (h : execStreamChannelWrite w s = .next t) : OnlyChanges s t [.regs, .shad, .out, .worlds, .msiPending, .pair] := by
  cases h
  repeat' first
    | with_reducible exact OnlyChanges.refl _ _
    | with_reducible assumption
    | with_reducible refine State.accessAt_only _ _ _ (by decide) ?_ ?_
    | with_reducible refine State.strChannelWrite_only _ (by decide) ?_
    | intro _
    | split
    | dsimp only

theorem execDomainHoldover_only (domain : Nat) {s t : State} (h : execDomainHoldover domain s = .next t) : OnlyChanges s t [.regs, .out, .msiPending] := by
  cases h
  repeat' first
    | with_reducible exact OnlyChanges.refl _ _
    | with_reducible assumption
    | with_reducible refine State.domainHoldover_only _ (by decide) ?_
    | intro _
    | split
    | dsimp only

theorem execDomainRelock_only (domain : Nat) {s t : State} (h : execDomainRelock domain s = .next t) : OnlyChanges s t [.regs, .out, .msiPending] := by
  cases h
  repeat' first
    | with_reducible exact OnlyChanges.refl _ _
    | with_reducible assumption
    | with_reducible refine State.domainRelock_only _ (by decide) ?_
    | intro _
    | split
    | dsimp only

theorem execTdmSlip_only (port : Nat) {s t : State} (h : execTdmSlip port s = .next t) : OnlyChanges s t [.regs, .out, .msiPending] := by
  cases h
  repeat' first
    | with_reducible exact OnlyChanges.refl _ _
    | with_reducible assumption
    | with_reducible refine State.tdmSlip_only _ (by decide) ?_
    | intro _
    | split
    | dsimp only

theorem execTdmClockLost_only (port : Nat) {s t : State} (h : execTdmClockLost port s = .next t) : OnlyChanges s t [.regs, .out, .msiPending] := by
  cases h
  repeat' first
    | with_reducible exact OnlyChanges.refl _ _
    | with_reducible assumption
    | with_reducible refine State.tdmClockLost_only _ (by decide) ?_
    | intro _
    | split
    | dsimp only

theorem execAud0SoftReset_only (w : RegWr) {s t : State} (h : execAud0SoftReset w s = .next t) : OnlyChanges s t [.regs, .shad, .mem, .out, .free, .chans, .bufs, .plots, .cache, .audio, .faults, .worlds, .queues, .jobs, .msiPending, .pair] := by
  cases h
  repeat' first
    | with_reducible exact OnlyChanges.refl _ _
    | with_reducible assumption
    | with_reducible refine State.accessAt_only _ _ _ (by decide) ?_ ?_
    | with_reducible refine State.ctrlWrite_only _ _ _ (by decide) ?_ ?_ ?_
    | with_reducible refine State.audEnable_only _ _ (by decide) ?_
    | with_reducible refine State.audReset_only _ (by decide) ?_
    | intro _
    | split
    | dsimp only

theorem execGuyInEdge_only (asserted : Bool) {s t : State} (h : execGuyInEdge asserted s = .next t) : OnlyChanges s t [.regs, .out, .msiPending, .pair] := by
  cases h
  repeat' first
    | with_reducible exact OnlyChanges.refl _ _
    | with_reducible assumption
    | with_reducible refine State.guyInEdge_only _ (by decide) ?_
    | intro _
    | split
    | dsimp only

theorem execGuyFilterExpiry_only {s t : State} (h : execGuyFilterExpiry s = .next t) : OnlyChanges s t [.regs, .shad, .mem, .out, .free, .dram, .edac, .chans, .bufs, .plots, .cache, .display, .touch, .haptic, .audio, .faults, .queues, .jobs, .msiPending, .pair] := by
  cases h
  repeat' first
    | with_reducible exact OnlyChanges.refl _ _
    | with_reducible assumption
    | with_reducible refine State.guyFilter_only  (by decide) ?_
    | intro _
    | split
    | dsimp only

theorem execCollision_only {s t : State} (h : execCollision s = .next t) : OnlyChanges s t [.regs, .mem, .out, .free, .edac, .chans, .bufs, .plots, .cache, .ingest, .display, .dpls, .cvus, .touch, .haptic, .audio, .faults, .queues, .jobs, .msiPending, .pair] := by
  cases h
  repeat' first
    | with_reducible exact OnlyChanges.refl _ _
    | with_reducible assumption
    | with_reducible refine State.guyCollision_only  (by decide) ?_
    | intro _
    | split
    | dsimp only

theorem execCollisionTimeout_only {s t : State} (h : execCollisionTimeout s = .next t) : OnlyChanges s t [.regs, .mem, .out, .free, .edac, .chans, .bufs, .plots, .cache, .ingest, .display, .dpls, .cvus, .touch, .haptic, .audio, .faults, .queues, .jobs, .msiPending, .pair] := by
  cases h
  repeat' first
    | with_reducible exact OnlyChanges.refl _ _
    | with_reducible assumption
    | with_reducible refine State.collisionTimeout_only  (by decide) ?_
    | intro _
    | split
    | dsimp only

theorem execCollisionBackoffEnd_only {s t : State} (h : execCollisionBackoffEnd s = .next t) : OnlyChanges s t [.regs, .shad, .mem, .out, .free, .dram, .edac, .chans, .bufs, .plots, .cache, .display, .touch, .haptic, .audio, .faults, .queues, .jobs, .msiPending, .pair] := by
  cases h
  repeat' first
    | with_reducible exact OnlyChanges.refl _ _
    | with_reducible assumption
    | with_reducible refine State.backoffEnd_only  (by decide) ?_
    | intro _
    | split
    | dsimp only

theorem execWaitingTimeout_only {s t : State} (h : execWaitingTimeout s = .next t) : OnlyChanges s t [.regs, .out, .msiPending, .pair] := by
  cases h
  repeat' first
    | with_reducible exact OnlyChanges.refl _ _
    | with_reducible assumption
    | with_reducible refine State.waitingTimeout_only  (by decide) ?_
    | intro _
    | split
    | dsimp only

theorem execPloliaLinkUp_only (speed width : Nat) (h : FlitHdr) (b : Beat) {s t : State} (h : execPloliaLinkUp speed width h b s = .next t) : OnlyChanges s t [.regs, .mem, .out, .chans, .bufs, .plots, .cache, .faults, .queues, .jobs, .msiPending, .pair] := by
  cases h
  repeat' first
    | with_reducible exact OnlyChanges.refl _ _
    | with_reducible assumption
    | with_reducible refine State.linkComesUp_only _ _ _ _ (by decide) ?_
    | intro _
    | split
    | dsimp only

theorem execReplayTimeout_only {s t : State} (h : execReplayTimeout s = .next t) : OnlyChanges s t [.regs, .out, .pair] := by
  cases h
  repeat' first
    | with_reducible exact OnlyChanges.refl _ _
    | with_reducible assumption
    | with_reducible refine State.replayTimeout_only  (by decide) ?_
    | intro _
    | split
    | dsimp only

theorem execNullFlit_only (h : FlitHdr) {s t : State} (h : execNullFlit h s = .next t) : OnlyChanges s t [.regs, .mem, .out, .chans, .bufs, .plots, .cache, .queues, .jobs, .msiPending, .pair] := by
  cases h
  repeat' first
    | with_reducible exact OnlyChanges.refl _ _
    | with_reducible assumption
    | with_reducible refine State.nullFlit_only _ (by decide) ?_
    | intro _
    | split
    | dsimp only

theorem execHeartbeatSend_only {s t : State} (h : execHeartbeatSend s = .next t) : OnlyChanges s t [.regs, .out, .pair] := by
  cases h
  repeat' first
    | with_reducible exact OnlyChanges.refl _ _
    | with_reducible assumption
    | with_reducible refine State.sendBeat_only  (by decide) ?_
    | intro _
    | split
    | dsimp only

theorem execHeartbeat_only (h : FlitHdr) (b : Beat) (slow : Bool) {s t : State} (h : execHeartbeat h b slow s = .next t) : OnlyChanges s t [.regs, .mem, .out, .chans, .bufs, .plots, .cache, .faults, .queues, .jobs, .msiPending, .pair] := by
  cases h
  repeat' first
    | with_reducible exact OnlyChanges.refl _ _
    | with_reducible assumption
    | with_reducible refine State.heartbeat_only _ _ _ (by decide) ?_
    | intro _
    | split
    | dsimp only

theorem execHeartbeatTimeout_only {s t : State} (h : execHeartbeatTimeout s = .next t) : OnlyChanges s t [.regs, .shad, .mem, .out, .free, .dram, .edac, .chans, .bufs, .plots, .cache, .display, .touch, .haptic, .audio, .faults, .queues, .jobs, .fetchStopped, .msiPending, .pair] := by
  cases h
  repeat' first
    | with_reducible exact OnlyChanges.refl _ _
    | with_reducible assumption
    | with_reducible refine State.linkDown_only  (by decide) ?_
    | intro _
    | split
    | dsimp only

theorem execJoinRequest_only (h : FlitHdr) (config : Nat) {s t : State} (h : execJoinRequest h config s = .next t) : OnlyChanges s t [.regs, .mem, .out, .chans, .bufs, .plots, .cache, .display, .queues, .jobs, .msiPending, .pair] := by
  cases h
  repeat' first
    | with_reducible exact OnlyChanges.refl _ _
    | with_reducible assumption
    | with_reducible refine State.accept_only _ _ (by decide) ?_ ?_
    | with_reducible refine State.joinRequest_only _ (by decide) ?_
    | intro _
    | split
    | dsimp only

theorem execJoinAccept_only (h : FlitHdr) {s t : State} (h : execJoinAccept h s = .next t) : OnlyChanges s t [.regs, .mem, .out, .chans, .bufs, .plots, .cache, .queues, .jobs, .msiPending, .pair] := by
  cases h
  repeat' first
    | with_reducible exact OnlyChanges.refl _ _
    | with_reducible assumption
    | with_reducible refine State.accept_only _ _ (by decide) ?_ ?_
    | with_reducible refine State.joinAccept_only  (by decide) ?_
    | intro _
    | split
    | dsimp only

theorem execJoinRefuse_only (h : FlitHdr) (reason : Nat) {s t : State} (h : execJoinRefuse h reason s = .next t) : OnlyChanges s t [.regs, .mem, .out, .chans, .bufs, .plots, .cache, .queues, .jobs, .msiPending, .pair] := by
  cases h
  repeat' first
    | with_reducible exact OnlyChanges.refl _ _
    | with_reducible assumption
    | with_reducible refine State.accept_only _ _ (by decide) ?_ ?_
    | with_reducible refine State.joinRefused_only  (by decide) ?_
    | intro _
    | split
    | dsimp only

theorem execSyncDone_only (h : FlitHdr) {s t : State} (h : execSyncDone h s = .next t) : OnlyChanges s t [.regs, .mem, .out, .chans, .bufs, .plots, .cache, .queues, .jobs, .msiPending, .pair] := by
  cases h
  repeat' first
    | with_reducible exact OnlyChanges.refl _ _
    | with_reducible assumption
    | with_reducible refine State.accept_only _ _ (by decide) ?_ ?_
    | with_reducible refine State.syncDone_only  (by decide) ?_
    | intro _
    | split
    | dsimp only

theorem execResyncSendDone_only {s t : State} (h : execResyncSendDone s = .next t) : OnlyChanges s t [.regs, .out, .msiPending, .pair] := by
  cases h
  repeat' first
    | with_reducible exact OnlyChanges.refl _ _
    | with_reducible assumption
    | with_reducible refine State.resyncSent_only  (by decide) ?_
    | intro _
    | split
    | dsimp only

theorem execHandoverOffer_only (h : FlitHdr) (count : Nat) {s t : State} (h : execHandoverOffer h count s = .next t) : OnlyChanges s t [.regs, .mem, .out, .chans, .bufs, .plots, .cache, .queues, .jobs, .msiPending, .pair] := by
  cases h
  repeat' first
    | with_reducible exact OnlyChanges.refl _ _
    | with_reducible assumption
    | with_reducible refine State.accept_only _ _ (by decide) ?_ ?_
    | with_reducible refine State.handoverOffer_only _ (by decide) ?_
    | intro _
    | split
    | dsimp only

theorem execHandoverReady_only (h : FlitHdr) {s t : State} (h : execHandoverReady h s = .next t) : OnlyChanges s t [.regs, .shad, .loaded, .staged, .latched, .softResetting, .mem, .out, .free, .time, .power, .dram, .edac, .chans, .bufs, .plots, .fillQueue, .peak, .cache, .ingest, .display, .dpls, .cvus, .touch, .haptic, .audio, .age, .update, .faults, .worlds, .queues, .fns, .jobs, .coreEntries, .fetchStopped, .arbiter, .unmasked, .msiPending, .pair] := by
  cases h
  repeat' first
    | with_reducible exact OnlyChanges.refl _ _
    | with_reducible assumption
    | with_reducible refine State.handoverReadyRestart_only _ (by decide) ?_
    | intro _
    | split
    | dsimp only

theorem execHandoverRefusal_only (h : FlitHdr) (reason : Nat) {s t : State} (h : execHandoverRefusal h reason s = .next t) : OnlyChanges s t [.regs, .mem, .out, .chans, .bufs, .plots, .cache, .queues, .jobs, .fetchStopped, .msiPending, .pair] := by
  cases h
  repeat' first
    | with_reducible exact OnlyChanges.refl _ _
    | with_reducible assumption
    | with_reducible refine State.accept_only _ _ (by decide) ?_ ?_
    | with_reducible refine State.handoverRefused_only _ (by decide) ?_
    | intro _
    | split
    | dsimp only

theorem execPlkHandover_only (w : RegWr) {s t : State} (h : execPlkHandover w s = .next t) : OnlyChanges s t [.regs, .out, .worlds, .fetchStopped, .msiPending, .pair] := by
  cases h
  repeat' first
    | with_reducible exact OnlyChanges.refl _ _
    | with_reducible assumption
    | with_reducible refine State.accessAt_only _ _ _ (by decide) ?_ ?_
    | with_reducible refine State.plkCtrlWrite_only _ (by decide) ?_
    | intro _
    | split
    | dsimp only

theorem execHandoverDrained_only {s t : State} (h : execHandoverDrained s = .next t) : OnlyChanges s t [.regs, .out, .pair] := by
  cases h
  repeat' first
    | with_reducible exact OnlyChanges.refl _ _
    | with_reducible assumption
    | with_reducible refine State.handoverDrained_only  (by decide) ?_
    | intro _
    | split
    | dsimp only

theorem execHandoverDrainTimeout_only {s t : State} (h : execHandoverDrainTimeout s = .next t) : OnlyChanges s t [.regs, .out, .fetchStopped, .msiPending, .pair] := by
  cases h
  repeat' first
    | with_reducible exact OnlyChanges.refl _ _
    | with_reducible assumption
    | with_reducible refine State.handoverTimeout_only  (by decide) ?_
    | intro _
    | split
    | dsimp only

theorem execPlkResync_only (w : RegWr) {s t : State} (h : execPlkResync w s = .next t) : OnlyChanges s t [.regs, .out, .worlds, .fetchStopped, .msiPending, .pair] := by
  cases h
  repeat' first
    | with_reducible exact OnlyChanges.refl _ _
    | with_reducible assumption
    | with_reducible refine State.accessAt_only _ _ _ (by decide) ?_ ?_
    | with_reducible refine State.plkCtrlWrite_only _ (by decide) ?_
    | intro _
    | split
    | dsimp only

theorem execPlkRetrain_only (w : RegWr) {s t : State} (h : execPlkRetrain w s = .next t) : OnlyChanges s t [.regs, .out, .worlds, .fetchStopped, .msiPending, .pair] := by
  cases h
  repeat' first
    | with_reducible exact OnlyChanges.refl _ _
    | with_reducible assumption
    | with_reducible refine State.accessAt_only _ _ _ (by decide) ?_ ?_
    | with_reducible refine State.plkCtrlWrite_only _ (by decide) ?_
    | intro _
    | split
    | dsimp only

theorem execPlkClearGuyFault_only (w : RegWr) {s t : State} (h : execPlkClearGuyFault w s = .next t) : OnlyChanges s t [.regs, .out, .worlds, .fetchStopped, .msiPending, .pair] := by
  cases h
  repeat' first
    | with_reducible exact OnlyChanges.refl _ _
    | with_reducible assumption
    | with_reducible refine State.accessAt_only _ _ _ (by decide) ?_ ?_
    | with_reducible refine State.plkCtrlWrite_only _ (by decide) ?_
    | intro _
    | split
    | dsimp only

theorem execTimeSyncDue_only {s t : State} (h : execTimeSyncDue s = .next t) : OnlyChanges s t [.regs, .out, .pair] := by
  cases h
  repeat' first
    | with_reducible exact OnlyChanges.refl _ _
    | with_reducible assumption
    | with_reducible refine State.timeSyncDue_only  (by decide) ?_
    | intro _
    | split
    | dsimp only

theorem execTimeSyncRequest_only (h : FlitHdr) (t1 : Nat) {s t : State} (h : execTimeSyncRequest h t1 s = .next t) : OnlyChanges s t [.regs, .mem, .out, .chans, .bufs, .plots, .cache, .queues, .jobs, .msiPending, .pair] := by
  cases h
  repeat' first
    | with_reducible exact OnlyChanges.refl _ _
    | with_reducible assumption
    | with_reducible refine State.accept_only _ _ (by decide) ?_ ?_
    | with_reducible refine State.timeSyncRequest_only _ (by decide) ?_
    | intro _
    | split
    | dsimp only

theorem execTimeSyncReply_only (h : FlitHdr) (t1 t2 t3 : Nat) {s t : State} (h : execTimeSyncReply h t1 t2 t3 s = .next t) : OnlyChanges s t [.regs, .mem, .out, .free, .time, .chans, .bufs, .plots, .cache, .queues, .jobs, .msiPending, .pair] := by
  cases h
  repeat' first
    | with_reducible exact OnlyChanges.refl _ _
    | with_reducible assumption
    | with_reducible refine State.accept_only _ _ (by decide) ?_ ?_
    | with_reducible refine State.timeSyncReply_only _ _ _ (by decide) ?_
    | intro _
    | split
    | dsimp only

theorem execTimeSyncFrame_only (h : FlitHdr) (out seq ta : Nat) {s t : State} (h : execTimeSyncFrame h out seq ta s = .next t) : OnlyChanges s t [.regs, .mem, .out, .chans, .bufs, .plots, .cache, .queues, .jobs, .msiPending, .pair] := by
  cases h
  repeat' first
    | with_reducible exact OnlyChanges.refl _ _
    | with_reducible assumption
    | with_reducible refine State.accept_only _ _ (by decide) ?_ ?_
    | with_reducible refine State.timeSyncFrame_only _ _ _ (by decide) ?_
    | intro _
    | split
    | dsimp only

theorem execTimeSyncVrr_only (h : FlitHdr) (out seq line : Nat) (proceed : Bool) {s t : State} (h : execTimeSyncVrr h out seq line proceed s = .next t) : OnlyChanges s t [.regs, .mem, .out, .chans, .bufs, .plots, .cache, .queues, .jobs, .msiPending, .pair] := by
  cases h
  repeat' first
    | with_reducible exact OnlyChanges.refl _ _
    | with_reducible assumption
    | with_reducible refine State.accept_only _ _ (by decide) ?_ ?_
    | with_reducible refine State.timeSyncVrr_only _ _ _ _ (by decide) ?_
    | intro _
    | split
    | dsimp only

theorem execCommitArmRecord_only (h : FlitHdr) (recNo group fn : Nat) (entries : List (Nat × Nat × Nat)) (fin : Bool) {s t : State} (h : execCommitArmRecord h recNo group fn entries fin s = .next t) : OnlyChanges s t [.regs, .mem, .out, .power, .chans, .bufs, .plots, .cache, .display, .queues, .jobs, .msiPending, .pair] := by
  cases h
  repeat' first
    | with_reducible exact OnlyChanges.refl _ _
    | with_reducible assumption
    | with_reducible refine State.armRecord_only _ _ _ _ _ (by decide) ?_
    | with_reducible refine State.idleExit_only  (by decide) ?_
    | with_reducible refine State.orderedFlit_only _ _ (by decide) ?_ ?_
    | intro _
    | split
    | dsimp only

theorem execCommitArmApply_only (h : FlitHdr) (recNo frame : Nat) {s t : State} (h : execCommitArmApply h recNo frame s = .next t) : OnlyChanges s t [.regs, .shad, .mem, .out, .dram, .edac, .chans, .bufs, .plots, .cache, .display, .faults, .queues, .jobs, .msiPending, .pair] := by
  cases h
  repeat' first
    | with_reducible exact OnlyChanges.refl _ _
    | with_reducible assumption
    | with_reducible refine State.armApply_only _ _ (by decide) ?_
    | with_reducible refine State.orderedFlit_only _ _ (by decide) ?_ ?_
    | intro _
    | split
    | dsimp only

theorem execCommitArmDrop_only (h : FlitHdr) (recNo : Nat) {s t : State} (h : execCommitArmDrop h recNo s = .next t) : OnlyChanges s t [.regs, .mem, .out, .chans, .bufs, .plots, .cache, .queues, .jobs, .msiPending, .pair] := by
  cases h
  repeat' first
    | with_reducible exact OnlyChanges.refl _ _
    | with_reducible assumption
    | with_reducible refine State.armDrop_only _ (by decide) ?_
    | with_reducible refine State.orderedFlit_only _ _ (by decide) ?_ ?_
    | intro _
    | split
    | dsimp only

theorem execCommitAckHeld_only (h : FlitHdr) (recNo : Nat) {s t : State} (h : execCommitAckHeld h recNo s = .next t) : OnlyChanges s t [.regs, .shad, .mem, .out, .dram, .edac, .chans, .bufs, .plots, .cache, .display, .faults, .queues, .jobs, .msiPending, .pair] := by
  cases h
  repeat' first
    | with_reducible exact OnlyChanges.refl _ _
    | with_reducible assumption
    | with_reducible refine State.accept_only _ _ (by decide) ?_ ?_
    | with_reducible refine State.ackHeld_only _ (by decide) ?_
    | intro _
    | split
    | dsimp only

theorem execCommitAckApplied_only (h : FlitHdr) (recNo frame : Nat) {s t : State} (h : execCommitAckApplied h recNo frame s = .next t) : OnlyChanges s t [.regs, .mem, .out, .chans, .bufs, .plots, .cache, .queues, .jobs, .msiPending, .pair] := by
  cases h
  repeat' first
    | with_reducible exact OnlyChanges.refl _ _
    | with_reducible assumption
    | with_reducible refine State.accept_only _ _ (by decide) ?_ ?_
    | with_reducible refine State.ackApplied_only _ _ (by decide) ?_
    | intro _
    | split
    | dsimp only

theorem execStateDigest_only (h : FlitHdr) (d : Digest) {s t : State} (h : execStateDigest h d s = .next t) : OnlyChanges s t [.regs, .mem, .out, .chans, .bufs, .plots, .cache, .faults, .queues, .jobs, .fetchStopped, .msiPending, .pair] := by
  cases h
  repeat' first
    | with_reducible exact OnlyChanges.refl _ _
    | with_reducible assumption
    | with_reducible refine State.accept_only _ _ (by decide) ?_ ?_
    | with_reducible refine State.partnerDigest_only _ (by decide) ?_
    | intro _
    | split
    | dsimp only

theorem execMirrorWrite_only (h : FlitHdr) (m : MirrorMsg) {s t : State} (h : execMirrorWrite h m s = .next t) : OnlyChanges s t [.regs, .shad, .loaded, .staged, .latched, .softResetting, .mem, .out, .free, .time, .power, .dram, .edac, .chans, .bufs, .plots, .fillQueue, .peak, .cache, .ingest, .display, .dpls, .cvus, .touch, .haptic, .audio, .age, .update, .faults, .worlds, .queues, .fns, .jobs, .coreEntries, .fetchStopped, .arbiter, .unmasked, .msiPending, .pair] := by
  cases h
  repeat' first
    | with_reducible exact OnlyChanges.refl _ _
    | with_reducible assumption
    | with_reducible refine State.mirrorApply_only _ (by decide) ?_
    | with_reducible refine State.orderedFlit_only _ _ (by decide) ?_ ?_
    | intro _
    | split
    | dsimp only

theorem execWakeFlit_only (h : FlitHdr) (sub arg : Nat) (result : WakeResult) {s t : State} (h : execWakeFlit h sub arg result s = .next t) : OnlyChanges s t [.regs, .shad, .loaded, .staged, .latched, .softResetting, .mem, .out, .free, .time, .power, .dram, .edac, .chans, .bufs, .plots, .fillQueue, .peak, .cache, .ingest, .display, .dpls, .cvus, .touch, .haptic, .audio, .age, .update, .faults, .worlds, .queues, .fns, .jobs, .coreEntries, .fetchStopped, .arbiter, .unmasked, .msiPending, .pair] := by
  cases h
  repeat' first
    | with_reducible exact OnlyChanges.refl _ _
    | with_reducible assumption
    | with_reducible refine State.accept_only _ _ (by decide) ?_ ?_
    | with_reducible refine State.wakeFlit_only _ _ _ (by decide) ?_
    | intro _
    | split
    | dsimp only

theorem execPwrReqRun_only (w : RegWr) {s t : State} (h : execPwrReqRun w s = .next t) : OnlyChanges s t [.regs, .out, .power, .display, .worlds, .fetchStopped, .msiPending] := by
  cases h
  repeat' first
    | with_reducible exact OnlyChanges.refl _ _
    | with_reducible assumption
    | with_reducible refine State.accessAt_only _ _ _ (by decide) ?_ ?_
    | with_reducible refine State.pwrReqWrite_only _ (by decide) ?_
    | intro _
    | split
    | dsimp only

theorem execPwrReqIdle_only (w : RegWr) {s t : State} (h : execPwrReqIdle w s = .next t) : OnlyChanges s t [.regs, .out, .power, .display, .worlds, .fetchStopped, .msiPending] := by
  cases h
  repeat' first
    | with_reducible exact OnlyChanges.refl _ _
    | with_reducible assumption
    | with_reducible refine State.accessAt_only _ _ _ (by decide) ?_ ?_
    | with_reducible refine State.pwrReqWrite_only _ (by decide) ?_
    | intro _
    | split
    | dsimp only

theorem execPwrReqFallow_only (w : RegWr) {s t : State} (h : execPwrReqFallow w s = .next t) : OnlyChanges s t [.regs, .out, .power, .display, .worlds, .fetchStopped, .msiPending] := by
  cases h
  repeat' first
    | with_reducible exact OnlyChanges.refl _ _
    | with_reducible assumption
    | with_reducible refine State.accessAt_only _ _ _ (by decide) ?_ ?_
    | with_reducible refine State.pwrReqWrite_only _ (by decide) ?_
    | intro _
    | split
    | dsimp only

theorem execPwrReqOff_only (w : RegWr) {s t : State} (h : execPwrReqOff w s = .next t) : OnlyChanges s t [.regs, .out, .power, .display, .worlds, .fetchStopped, .msiPending] := by
  cases h
  repeat' first
    | with_reducible exact OnlyChanges.refl _ _
    | with_reducible assumption
    | with_reducible refine State.accessAt_only _ _ _ (by decide) ?_ ?_
    | with_reducible refine State.pwrReqWrite_only _ (by decide) ?_
    | intro _
    | split
    | dsimp only

theorem execFallowDrainDone_only {s t : State} (h : execFallowDrainDone s = .next t) : OnlyChanges s t [.regs, .shad, .loaded, .staged, .latched, .softResetting, .mem, .out, .time, .power, .dram, .edac, .chans, .bufs, .plots, .fillQueue, .peak, .cache, .ingest, .display, .dpls, .cvus, .touch, .haptic, .audio, .age, .update, .faults, .worlds, .queues, .fns, .jobs, .coreEntries, .fetchStopped, .arbiter, .unmasked, .msiPending, .pair] := by
  cases h
  repeat' first
    | with_reducible exact OnlyChanges.refl _ _
    | with_reducible assumption
    | with_reducible refine State.fallowEntry_only  (by decide) ?_
    | intro _
    | split
    | dsimp only

theorem execFallowDrainTimeout_only {s t : State} (h : execFallowDrainTimeout s = .next t) : OnlyChanges s t [.regs, .out, .power, .display, .dpls, .touch, .haptic, .audio, .fetchStopped, .msiPending] := by
  cases h
  repeat' first
    | with_reducible exact OnlyChanges.refl _ _
    | with_reducible assumption
    | with_reducible refine State.fallowTimeout_only  (by decide) ?_
    | intro _
    | split
    | dsimp only

theorem execWakeTlp_only (port : Nat) (result : WakeResult) {s t : State} (h : execWakeTlp port result s = .next t) : OnlyChanges s t [.regs, .shad, .loaded, .staged, .latched, .softResetting, .mem, .out, .free, .time, .power, .dram, .edac, .chans, .bufs, .plots, .fillQueue, .peak, .cache, .ingest, .display, .dpls, .cvus, .touch, .haptic, .audio, .age, .update, .faults, .worlds, .queues, .fns, .jobs, .coreEntries, .fetchStopped, .arbiter, .unmasked, .msiPending, .pair] := by
  cases h
  repeat' first
    | with_reducible exact OnlyChanges.refl _ _
    | with_reducible assumption
    | with_reducible refine State.wakeTlp_only _ _ (by decide) ?_
    | intro _
    | split
    | dsimp only

theorem execWakePin_only (result : WakeResult) {s t : State} (h : execWakePin result s = .next t) : OnlyChanges s t [.regs, .shad, .loaded, .staged, .latched, .softResetting, .mem, .out, .free, .time, .power, .dram, .edac, .chans, .bufs, .plots, .fillQueue, .peak, .cache, .ingest, .display, .dpls, .cvus, .touch, .haptic, .audio, .age, .update, .faults, .worlds, .queues, .fns, .jobs, .coreEntries, .fetchStopped, .arbiter, .unmasked, .msiPending, .pair] := by
  cases h
  repeat' first
    | with_reducible exact OnlyChanges.refl _ _
    | with_reducible assumption
    | with_reducible refine State.wakePin_only _ (by decide) ?_
    | intro _
    | split
    | dsimp only

theorem execMotionEdge_only (level : Bool) (result : WakeResult) {s t : State} (h : execMotionEdge level result s = .next t) : OnlyChanges s t [.regs, .shad, .loaded, .staged, .latched, .softResetting, .mem, .out, .free, .time, .power, .dram, .edac, .chans, .bufs, .plots, .fillQueue, .peak, .cache, .ingest, .display, .dpls, .cvus, .touch, .haptic, .audio, .age, .update, .faults, .worlds, .queues, .fns, .jobs, .coreEntries, .fetchStopped, .arbiter, .unmasked, .msiPending, .pair] := by
  cases h
  repeat' first
    | with_reducible exact OnlyChanges.refl _ _
    | with_reducible assumption
    | with_reducible refine State.motionEdge_only _ _ (by decide) ?_
    | intro _
    | split
    | dsimp only

theorem execCanWakeUp_only (result : WakeResult) {s t : State} (h : execCanWakeUp result s = .next t) : OnlyChanges s t [.regs, .shad, .loaded, .staged, .latched, .softResetting, .mem, .out, .free, .time, .power, .dram, .edac, .chans, .bufs, .plots, .fillQueue, .peak, .cache, .ingest, .display, .dpls, .cvus, .touch, .haptic, .audio, .age, .update, .faults, .worlds, .queues, .fns, .jobs, .coreEntries, .fetchStopped, .arbiter, .unmasked, .msiPending, .pair] := by
  cases h
  repeat' first
    | with_reducible exact OnlyChanges.refl _ _
    | with_reducible assumption
    | with_reducible refine State.canWake_only _ (by decide) ?_
    | intro _
    | split
    | dsimp only

theorem execAlarmFire_only (result : WakeResult) {s t : State} (h : execAlarmFire result s = .next t) : OnlyChanges s t [.regs, .shad, .loaded, .staged, .latched, .softResetting, .mem, .out, .free, .time, .power, .dram, .edac, .chans, .bufs, .plots, .fillQueue, .peak, .cache, .ingest, .display, .dpls, .cvus, .touch, .haptic, .audio, .age, .update, .faults, .worlds, .queues, .fns, .jobs, .coreEntries, .fetchStopped, .arbiter, .unmasked, .msiPending, .pair] := by
  cases h
  repeat' first
    | with_reducible exact OnlyChanges.refl _ _
    | with_reducible assumption
    | with_reducible refine State.alarmFire_only _ (by decide) ?_
    | intro _
    | split
    | dsimp only

theorem execWakeStepTimeout_only (reason item : Nat) (entries : List (List Word32)) {s t : State} (h : execWakeStepTimeout reason item entries s = .next t) : OnlyChanges s t [.regs, .out, .power, .queues, .jobs, .msiPending, .pair] := by
  cases h
  repeat' first
    | with_reducible exact OnlyChanges.refl _ _
    | with_reducible assumption
    | with_reducible refine State.wakeStepTimeout_only _ _ _ (by decide) ?_
    | intro _
    | split
    | dsimp only

theorem execWakeRetry_only (result : WakeResult) {s t : State} (h : execWakeRetry result s = .next t) : OnlyChanges s t [.regs, .shad, .loaded, .staged, .latched, .softResetting, .mem, .out, .free, .time, .power, .dram, .edac, .chans, .bufs, .plots, .fillQueue, .peak, .cache, .ingest, .display, .dpls, .cvus, .touch, .haptic, .audio, .age, .update, .faults, .worlds, .queues, .fns, .jobs, .coreEntries, .fetchStopped, .arbiter, .unmasked, .msiPending, .pair] := by
  cases h
  repeat' first
    | with_reducible exact OnlyChanges.refl _ _
    | with_reducible assumption
    | with_reducible refine State.wakeRetry_only _ (by decide) ?_
    | intro _
    | split
    | dsimp only

theorem execSag_only {s t : State} (h : execSag s = .next t) : OnlyChanges s t [.regs, .shad, .mem, .out, .free, .time, .power, .dram, .edac, .chans, .bufs, .plots, .cache, .ingest, .display, .dpls, .cvus, .touch, .haptic, .audio, .age, .update, .faults, .worlds, .queues, .jobs, .fetchStopped, .msiPending, .pair] := by
  cases h
  repeat' first
    | with_reducible exact OnlyChanges.refl _ _
    | with_reducible assumption
    | with_reducible refine State.sag_only  (by decide) ?_
    | intro _
    | split
    | dsimp only

theorem execPointOfNoReturn_only (supplyGood : Bool) {s t : State} (h : execPointOfNoReturn supplyGood s = .next t) : OnlyChanges s t [.regs, .shad, .loaded, .staged, .latched, .softResetting, .mem, .out, .free, .time, .power, .dram, .edac, .chans, .bufs, .plots, .fillQueue, .peak, .cache, .ingest, .display, .dpls, .cvus, .touch, .haptic, .audio, .age, .update, .faults, .worlds, .queues, .fns, .jobs, .coreEntries, .fetchStopped, .arbiter, .unmasked, .msiPending, .pair] := by
  cases h
  repeat' first
    | with_reducible exact OnlyChanges.refl _ _
    | with_reducible assumption
    | with_reducible refine State.pointOfNoReturn_only _ (by decide) ?_
    | intro _
    | split
    | dsimp only

theorem execMramSaveDone_only (err : Bool) {s t : State} (h : execMramSaveDone err s = .next t) : OnlyChanges s t [.regs, .out, .power, .msiPending] := by
  cases h
  repeat' first
    | with_reducible exact OnlyChanges.refl _ _
    | with_reducible assumption
    | with_reducible refine State.mramSaveDone_only _ (by decide) ?_
    | intro _
    | split
    | dsimp only

theorem execVholdExhausted_only {s t : State} (h : execVholdExhausted s = .next t) : OnlyChanges s t [.regs, .out, .power, .msiPending] := by
  cases h
  repeat' first
    | with_reducible exact OnlyChanges.refl _ _
    | with_reducible assumption
    | with_reducible refine State.vholdExhausted_only  (by decide) ?_
    | intro _
    | split
    | dsimp only

theorem execSupplyReturn_only {s t : State} (h : execSupplyReturn s = .next t) : OnlyChanges s t [.regs, .shad, .loaded, .staged, .latched, .softResetting, .mem, .time, .power, .dram, .edac, .chans, .bufs, .plots, .fillQueue, .peak, .cache, .ingest, .display, .dpls, .cvus, .touch, .haptic, .audio, .age, .update, .faults, .worlds, .queues, .fns, .jobs, .coreEntries, .fetchStopped, .arbiter, .unmasked, .msiPending, .pair] := by
  cases h
  repeat' first
    | with_reducible exact OnlyChanges.refl _ _
    | with_reducible assumption
    | with_reducible refine State.supplyReturn_only  (by decide) ?_
    | intro _
    | split
    | dsimp only

theorem execPwrIslWrite_only (w : RegWr) {s t : State} (h : execPwrIslWrite w s = .next t) : OnlyChanges s t [.regs, .shad, .out, .worlds, .msiPending] := by
  cases h
  repeat' first
    | with_reducible exact OnlyChanges.refl _ _
    | with_reducible assumption
    | with_reducible refine State.accessAt_only _ _ _ (by decide) ?_ ?_
    | with_reducible refine State.islWrite_only _ (by decide) ?_
    | intro _
    | split
    | dsimp only

theorem execPwrSaveAdd_only (w : RegWr) {s t : State} (h : execPwrSaveAdd w s = .next t) : OnlyChanges s t [.regs, .out, .power, .worlds, .msiPending] := by
  cases h
  repeat' first
    | with_reducible exact OnlyChanges.refl _ _
    | with_reducible assumption
    | with_reducible refine State.accessAt_only _ _ _ (by decide) ?_ ?_
    | with_reducible refine State.saveAdd_only _ (by decide) ?_
    | intro _
    | split
    | dsimp only

theorem execPwrSaveClear_only (w : RegWr) {s t : State} (h : execPwrSaveClear w s = .next t) : OnlyChanges s t [.regs, .out, .power, .worlds, .msiPending] := by
  cases h
  repeat' first
    | with_reducible exact OnlyChanges.refl _ _
    | with_reducible assumption
    | with_reducible refine State.accessAt_only _ _ _ (by decide) ?_ ?_
    | with_reducible refine State.saveClear_only _ (by decide) ?_
    | intro _
    | split
    | dsimp only

theorem execVholdMeasure_only (mv capUf mohm : Nat) (meets : Bool) {s t : State} (h : execVholdMeasure mv capUf mohm meets s = .next t) : OnlyChanges s t [.regs, .out, .faults, .msiPending] := by
  cases h
  repeat' first
    | with_reducible exact OnlyChanges.refl _ _
    | with_reducible assumption
    | with_reducible refine State.vholdMeasure_only _ _ _ _ (by decide) ?_
    | intro _
    | split
    | dsimp only

theorem execTimCalInterval_only (c : Nat) {s t : State} (h : execTimCalInterval c s = .next t) : OnlyChanges s t [.regs] := by
  cases h
  repeat' first
    | with_reducible exact OnlyChanges.refl _ _
    | with_reducible assumption
    | with_reducible refine State.timCal_only _ (by decide) ?_
    | intro _
    | split
    | dsimp only

theorem execTimSet_only (w : RegWr) {s t : State} (h : execTimSet w s = .next t) : OnlyChanges s t [.regs, .out, .time, .worlds, .msiPending] := by
  cases h
  repeat' first
    | with_reducible exact OnlyChanges.refl _ _
    | with_reducible assumption
    | with_reducible refine State.accessAt_only _ _ _ (by decide) ?_ ?_
    | with_reducible refine State.timSetWrite_only _ (by decide) ?_
    | intro _
    | split
    | dsimp only

theorem execAonAlarmArm_only (w : RegWr) {s t : State} (h : execAonAlarmArm w s = .next t) : OnlyChanges s t [.regs, .shad, .out, .power, .worlds, .msiPending] := by
  cases h
  repeat' first
    | with_reducible exact OnlyChanges.refl _ _
    | with_reducible assumption
    | with_reducible refine State.accessAt_only _ _ _ (by decide) ?_ ?_
    | with_reducible refine State.alarmWrite_only _ (by decide) ?_
    | intro _
    | split
    | dsimp only

theorem execAonPmbGo_only (w : RegWr) {s t : State} (h : execAonPmbGo w s = .next t) : OnlyChanges s t [.regs, .shad, .out, .power, .worlds, .msiPending] := by
  cases h
  repeat' first
    | with_reducible exact OnlyChanges.refl _ _
    | with_reducible assumption
    | with_reducible refine State.accessAt_only _ _ _ (by decide) ?_ ?_
    | with_reducible refine State.pmbWrite_only _ (by decide) ?_
    | intro _
    | split
    | dsimp only

theorem execPmbDone_only (ok pec : Bool) (data : Nat) {s t : State} (h : execPmbDone ok pec data s = .next t) : OnlyChanges s t [.regs, .out, .power, .msiPending] := by
  cases h
  repeat' first
    | with_reducible exact OnlyChanges.refl _ _
    | with_reducible assumption
    | with_reducible refine State.pmbEnd_only _ _ _ (by decide) ?_
    | intro _
    | split
    | dsimp only

theorem execAgeSurveyRequest_only (w : RegWr) {s t : State} (h : execAgeSurveyRequest w s = .next t) : OnlyChanges s t [.regs, .shad, .out, .age, .worlds, .msiPending] := by
  cases h
  repeat' first
    | with_reducible exact OnlyChanges.refl _ _
    | with_reducible assumption
    | with_reducible refine State.accessAt_only _ _ _ (by decide) ?_ ?_
    | with_reducible refine State.ageCtrlWrite_only _ (by decide) ?_
    | intro _
    | split
    | dsimp only

theorem execSurveyEnd_only (tj : Int) (m : List (Int × Nat)) {s t : State} (h : execSurveyEnd tj m s = .next t) : OnlyChanges s t [.regs, .out, .age, .faults, .msiPending] := by
  cases h
  repeat' first
    | with_reducible exact OnlyChanges.refl _ _
    | with_reducible assumption
    | with_reducible refine State.surveyEnd_only _ _ (by decide) ?_
    | intro _
    | split
    | dsimp only

theorem execMarginAlarm_only (island : Nat) {s t : State} (h : execMarginAlarm island s = .next t) : OnlyChanges s t [.regs, .out, .age, .faults, .msiPending] := by
  cases h
  repeat' first
    | with_reducible exact OnlyChanges.refl _ _
    | with_reducible assumption
    | with_reducible refine State.marginAlarm_only _ (by decide) ?_
    | intro _
    | split
    | dsimp only

theorem execPlanVoltageStep_only {s t : State} (h : execPlanVoltageStep s = .next t) : OnlyChanges s t [.regs, .out, .age, .msiPending] := by
  cases h
  repeat' first
    | with_reducible exact OnlyChanges.refl _ _
    | with_reducible assumption
    | with_reducible refine State.planStep_only  (by decide) ?_
    | intro _
    | split
    | dsimp only

theorem execPoweredHour_only {s t : State} (h : execPoweredHour s = .next t) : OnlyChanges s t [.regs, .age] := by
  cases h
  repeat' first
    | with_reducible exact OnlyChanges.refl _ _
    | with_reducible assumption
    | with_reducible refine State.poweredHour_only  (by decide) ?_
    | intro _
    | split
    | dsimp only

theorem execSurveyDeferEnd_only {s t : State} (h : execSurveyDeferEnd s = .next t) : OnlyChanges s t [.regs, .age] := by
  cases h
  repeat' first
    | with_reducible exact OnlyChanges.refl _ _
    | with_reducible assumption
    | with_reducible refine State.surveyDeferEnd_only  (by decide) ?_
    | intro _
    | split
    | dsimp only

theorem execUpdOpen_only (w : RegWr) {s t : State} (h : execUpdOpen w s = .next t) : OnlyChanges s t [.regs, .out, .update, .worlds, .msiPending] := by
  cases h
  repeat' first
    | with_reducible exact OnlyChanges.refl _ _
    | with_reducible assumption
    | with_reducible refine State.accessAt_only _ _ _ (by decide) ?_ ?_
    | with_reducible refine State.updCmdWrite_only _ (by decide) ?_
    | intro _
    | split
    | dsimp only

theorem execUpdStage_only (w : RegWr) {s t : State} (h : execUpdStage w s = .next t) : OnlyChanges s t [.regs, .out, .update, .worlds, .msiPending] := by
  cases h
  repeat' first
    | with_reducible exact OnlyChanges.refl _ _
    | with_reducible assumption
    | with_reducible refine State.accessAt_only _ _ _ (by decide) ?_ ?_
    | with_reducible refine State.updCmdWrite_only _ (by decide) ?_
    | intro _
    | split
    | dsimp only

theorem execUpdVerify_only (w : RegWr) {s t : State} (h : execUpdVerify w s = .next t) : OnlyChanges s t [.regs, .out, .update, .worlds, .msiPending] := by
  cases h
  repeat' first
    | with_reducible exact OnlyChanges.refl _ _
    | with_reducible assumption
    | with_reducible refine State.accessAt_only _ _ _ (by decide) ?_ ?_
    | with_reducible refine State.updCmdWrite_only _ (by decide) ?_
    | intro _
    | split
    | dsimp only

theorem execUpdActivate_only (w : RegWr) {s t : State} (h : execUpdActivate w s = .next t) : OnlyChanges s t [.regs, .out, .update, .worlds, .msiPending] := by
  cases h
  repeat' first
    | with_reducible exact OnlyChanges.refl _ _
    | with_reducible assumption
    | with_reducible refine State.accessAt_only _ _ _ (by decide) ?_ ?_
    | with_reducible refine State.updCmdWrite_only _ (by decide) ?_
    | intro _
    | split
    | dsimp only

theorem execUpdAbort_only (w : RegWr) {s t : State} (h : execUpdAbort w s = .next t) : OnlyChanges s t [.regs, .out, .update, .worlds, .msiPending] := by
  cases h
  repeat' first
    | with_reducible exact OnlyChanges.refl _ _
    | with_reducible assumption
    | with_reducible refine State.accessAt_only _ _ _ (by decide) ?_ ?_
    | with_reducible refine State.updCmdWrite_only _ (by decide) ?_
    | intro _
    | split
    | dsimp only

theorem execUpdClose_only (w : RegWr) {s t : State} (h : execUpdClose w s = .next t) : OnlyChanges s t [.regs, .out, .update, .worlds, .msiPending] := by
  cases h
  repeat' first
    | with_reducible exact OnlyChanges.refl _ _
    | with_reducible assumption
    | with_reducible refine State.accessAt_only _ _ _ (by decide) ?_ ?_
    | with_reducible refine State.updCmdWrite_only _ (by decide) ?_
    | intro _
    | split
    | dsimp only

theorem execUpdSessionTimeout_only {s t : State} (h : execUpdSessionTimeout s = .next t) : OnlyChanges s t [.regs, .out, .update, .msiPending] := by
  cases h
  repeat' first
    | with_reducible exact OnlyChanges.refl _ _
    | with_reducible assumption
    | with_reducible refine State.sessionTimeout_only  (by decide) ?_
    | intro _
    | split
    | dsimp only

theorem execUpdUnlock_only (w : RegWr) {s t : State} (h : execUpdUnlock w s = .next t) : OnlyChanges s t [.regs, .shad, .out, .worlds, .msiPending] := by
  cases h
  repeat' first
    | with_reducible exact OnlyChanges.refl _ _
    | with_reducible assumption
    | with_reducible refine State.accessAt_only _ _ _ (by decide) ?_ ?_
    | with_reducible refine State.updLockWrite_only _ (by decide) ?_
    | intro _
    | split
    | dsimp only

theorem execTrialConfirmed_only {s t : State} (h : execTrialConfirmed s = .next t) : OnlyChanges s t [.regs, .out, .update, .faults, .msiPending] := by
  cases h
  repeat' first
    | with_reducible exact OnlyChanges.refl _ _
    | with_reducible assumption
    | with_reducible refine State.trialConfirmed_only  (by decide) ?_
    | intro _
    | split
    | dsimp only

theorem execTrialTimeout_only {s t : State} (h : execTrialTimeout s = .next t) : OnlyChanges s t [.regs, .shad, .loaded, .staged, .latched, .softResetting, .mem, .time, .power, .dram, .edac, .chans, .bufs, .plots, .fillQueue, .peak, .cache, .ingest, .display, .dpls, .cvus, .touch, .haptic, .audio, .age, .update, .faults, .worlds, .queues, .fns, .jobs, .coreEntries, .fetchStopped, .arbiter, .unmasked, .msiPending, .pair] := by
  cases h
  repeat' first
    | with_reducible exact OnlyChanges.refl _ _
    | with_reducible assumption
    | with_reducible refine State.trialTimeout_only  (by decide) ?_
    | intro _
    | split
    | dsimp only

theorem execMicrocodeTargetLoad_only (ok : Bool) {s t : State} (h : execMicrocodeTargetLoad ok s = .next t) : OnlyChanges s t [.regs, .loaded, .mem, .out, .edac, .bufs, .cache, .touch, .audio, .update, .faults, .msiPending, .pair] := by
  cases h
  repeat' first
    | with_reducible exact OnlyChanges.refl _ _
    | with_reducible assumption
    | with_reducible refine State.microLoad_only _ (by decide) ?_
    | intro _
    | split
    | dsimp only

theorem execAonPowerOn_only {s t : State} (h : execAonPowerOn s = .next t) : OnlyChanges s t [.regs, .shad, .loaded, .staged, .latched, .softResetting, .mem, .out, .time, .power, .dram, .edac, .chans, .bufs, .plots, .fillQueue, .peak, .cache, .ingest, .display, .dpls, .cvus, .touch, .haptic, .audio, .age, .update, .faults, .worlds, .queues, .fns, .jobs, .coreEntries, .fetchStopped, .arbiter, .unmasked, .msiPending, .pair] := by
  cases h
  repeat' first
    | with_reducible exact OnlyChanges.refl _ _
    | with_reducible assumption
    | with_reducible refine State.aonPowerOn_only  (by decide) ?_
    | intro _
    | split
    | dsimp only

theorem execResetNAssert_only {s t : State} (h : execResetNAssert s = .next t) : OnlyChanges s t [.regs, .shad, .loaded, .staged, .latched, .softResetting, .mem, .time, .power, .dram, .edac, .chans, .bufs, .plots, .fillQueue, .peak, .cache, .ingest, .display, .dpls, .cvus, .touch, .haptic, .audio, .age, .update, .faults, .worlds, .queues, .fns, .jobs, .coreEntries, .fetchStopped, .arbiter, .unmasked, .msiPending, .pair] := by
  cases h
  repeat' first
    | with_reducible exact OnlyChanges.refl _ _
    | with_reducible assumption
    | with_reducible refine State.resetN_only  (by decide) ?_
    | intro _
    | split
    | dsimp only

theorem execSysRestart_only (w : RegWr) {s t : State} (h : execSysRestart w s = .next t) : OnlyChanges s t [.regs, .shad, .loaded, .staged, .latched, .softResetting, .mem, .out, .time, .power, .dram, .edac, .chans, .bufs, .plots, .fillQueue, .peak, .cache, .ingest, .display, .dpls, .cvus, .touch, .haptic, .audio, .age, .update, .faults, .worlds, .queues, .fns, .jobs, .coreEntries, .fetchStopped, .arbiter, .unmasked, .msiPending, .pair] := by
  cases h
  repeat' first
    | with_reducible exact OnlyChanges.refl _ _
    | with_reducible assumption
    | with_reducible refine State.accessAt_only _ _ _ (by decide) ?_ ?_
    | with_reducible refine State.sysResetWrite_only _ (by decide) ?_
    | intro _
    | split
    | dsimp only

theorem execResetRelease_only {s t : State} (h : execResetRelease s = .next t) : OnlyChanges s t [.regs, .out, .faults, .msiPending] := by
  cases h
  repeat' first
    | with_reducible exact OnlyChanges.refl _ _
    | with_reducible assumption
    | with_reducible refine State.resetRelease_only  (by decide) ?_
    | intro _
    | split
    | dsimp only

theorem execStartupPhaseEnd_only (l : StartLoad) {s t : State} (h : execStartupPhaseEnd l s = .next t) : OnlyChanges s t [.regs, .shad, .loaded, .staged, .latched, .softResetting, .mem, .out, .free, .time, .power, .dram, .edac, .chans, .bufs, .plots, .fillQueue, .peak, .cache, .ingest, .display, .dpls, .cvus, .touch, .haptic, .audio, .age, .update, .faults, .worlds, .queues, .fns, .jobs, .coreEntries, .fetchStopped, .arbiter, .unmasked, .msiPending, .pair] := by
  cases h
  repeat' first
    | with_reducible exact OnlyChanges.refl _ _
    | with_reducible assumption
    | with_reducible refine State.phaseEnd_only _ (by decide) ?_
    | intro _
    | split
    | dsimp only

theorem execSysEarlyEnd_only (w : RegWr) {s t : State} (h : execSysEarlyEnd w s = .next t) : OnlyChanges s t [.regs, .shad, .mem, .out, .chans, .bufs, .plots, .cache, .display, .faults, .worlds, .queues, .jobs, .msiPending, .pair] := by
  cases h
  repeat' first
    | with_reducible exact OnlyChanges.refl _ _
    | with_reducible assumption
    | with_reducible refine State.accessAt_only _ _ _ (by decide) ?_ ?_
    | with_reducible refine State.sysEarlyWrite_only _ (by decide) ?_
    | intro _
    | split
    | dsimp only

theorem execFaultReport_only (src sram cls code info fn : Nat) (act : FaultAct) {s t : State} (h : execFaultReport src sram cls code info fn act s = .next t) : OnlyChanges s t [.regs, .shad, .mem, .out, .free, .dram, .edac, .chans, .bufs, .plots, .cache, .ingest, .display, .dpls, .cvus, .touch, .haptic, .audio, .update, .faults, .worlds, .queues, .fns, .jobs, .coreEntries, .fetchStopped, .unmasked, .msiPending, .pair] := by
  cases h
  repeat' first
    | with_reducible exact OnlyChanges.refl _ _
    | with_reducible assumption
    | with_reducible refine State.faultReport_only _ _ _ _ _ _ _ (by decide) ?_
    | intro _
    | split
    | dsimp only

theorem execDeviceFatalFault_only (source : Nat) {s t : State} (h : execDeviceFatalFault source s = .next t) : OnlyChanges s t [.regs, .shad, .mem, .out, .free, .dram, .edac, .chans, .bufs, .plots, .cache, .ingest, .display, .dpls, .cvus, .touch, .haptic, .audio, .update, .faults, .queues, .fns, .jobs, .coreEntries, .fetchStopped, .unmasked, .msiPending, .pair] := by
  cases h
  repeat' first
    | with_reducible exact OnlyChanges.refl _ _
    | with_reducible assumption
    | with_reducible refine State.fatalSource_only _ (by decide) ?_
    | intro _
    | split
    | dsimp only

theorem execFatalRestart_only {s t : State} (h : execFatalRestart s = .next t) : OnlyChanges s t [.regs, .shad, .loaded, .staged, .latched, .softResetting, .mem, .time, .power, .dram, .edac, .chans, .bufs, .plots, .fillQueue, .peak, .cache, .ingest, .display, .dpls, .cvus, .touch, .haptic, .audio, .age, .update, .faults, .worlds, .queues, .fns, .jobs, .coreEntries, .fetchStopped, .arbiter, .unmasked, .msiPending, .pair] := by
  cases h
  repeat' first
    | with_reducible exact OnlyChanges.refl _ _
    | with_reducible assumption
    | with_reducible refine State.fatalRestart_only  (by decide) ?_
    | intro _
    | split
    | dsimp only

theorem execWatchdogExpiry_only {s t : State} (h : execWatchdogExpiry s = .next t) : OnlyChanges s t [.regs, .shad, .mem, .out, .free, .dram, .edac, .chans, .bufs, .plots, .cache, .ingest, .display, .dpls, .cvus, .touch, .haptic, .audio, .update, .faults, .queues, .fns, .jobs, .coreEntries, .fetchStopped, .unmasked, .msiPending, .pair] := by
  cases h
  repeat' first
    | with_reducible exact OnlyChanges.refl _ _
    | with_reducible assumption
    | with_reducible refine State.fatalSource_only _ (by decide) ?_
    | intro _
    | split
    | dsimp only

theorem execReferenceLoss_only {s t : State} (h : execReferenceLoss s = .next t) : OnlyChanges s t [.regs, .shad, .mem, .out, .free, .dram, .edac, .chans, .bufs, .plots, .cache, .ingest, .display, .dpls, .cvus, .touch, .haptic, .audio, .update, .faults, .queues, .fns, .jobs, .coreEntries, .fetchStopped, .unmasked, .msiPending, .pair] := by
  cases h
  repeat' first
    | with_reducible exact OnlyChanges.refl _ _
    | with_reducible assumption
    | with_reducible refine State.fatalSource_only _ (by decide) ?_
    | intro _
    | split
    | dsimp only

theorem execThermtrip_only {s t : State} (h : execThermtrip s = .next t) : OnlyChanges s t [.faults] := by
  cases h
  repeat' first
    | with_reducible exact OnlyChanges.refl _ _
    | with_reducible assumption
    | with_reducible refine State.thermtrip_only  (by decide) ?_
    | intro _
    | split
    | dsimp only

theorem execLogClear_only (w : RegWr) {s t : State} (h : execLogClear w s = .next t) : OnlyChanges s t [.regs, .shad, .out, .faults, .worlds, .msiPending] := by
  cases h
  repeat' first
    | with_reducible exact OnlyChanges.refl _ _
    | with_reducible assumption
    | with_reducible refine State.accessAt_only _ _ _ (by decide) ?_ ?_
    | with_reducible refine State.logCtrlWrite_only _ (by decide) ?_
    | intro _
    | split
    | dsimp only

theorem execFlitCrcFailure_only (crc : Bool) (reserved : Option FlitHdr) {s t : State} (h : execFlitCrcFailure crc reserved s = .next t) : OnlyChanges s t [.regs, .mem, .out, .chans, .bufs, .plots, .cache, .queues, .jobs, .msiPending, .pair] := by
  cases h
  repeat' first
    | with_reducible exact OnlyChanges.refl _ _
    | with_reducible assumption
    | with_reducible refine State.badFlit_only _ _ (by decide) ?_
    | intro _
    | split
    | dsimp only

theorem execPloliaRecoveryDone_only {s t : State} (h : execPloliaRecoveryDone s = .next t) : OnlyChanges s t [.out, .pair] := by
  cases h
  repeat' first
    | with_reducible exact OnlyChanges.refl _ _
    | with_reducible assumption
    | with_reducible refine State.recoveryDone_only  (by decide) ?_
    | intro _
    | split
    | dsimp only

theorem execMirrorFlitSend_only {s t : State} (h : execMirrorFlitSend s = .next t) : OnlyChanges s t [.regs, .mem, .out, .edac, .cache, .faults, .msiPending, .pair] := by
  cases h
  repeat' first
    | with_reducible exact OnlyChanges.refl _ _
    | with_reducible assumption
    | with_reducible refine State.mirrorSend_only  (by decide) ?_
    | intro _
    | split
    | dsimp only

theorem execUpdCmdDone_only (genuine : Bool) {s t : State} (h : execUpdCmdDone genuine s = .next t) : OnlyChanges s t [.regs, .shad, .loaded, .staged, .latched, .softResetting, .mem, .out, .time, .power, .dram, .edac, .chans, .bufs, .plots, .fillQueue, .peak, .cache, .ingest, .display, .dpls, .cvus, .touch, .haptic, .audio, .age, .update, .faults, .worlds, .queues, .fns, .jobs, .coreEntries, .fetchStopped, .arbiter, .unmasked, .msiPending, .pair] := by
  cases h
  repeat' first
    | with_reducible exact OnlyChanges.refl _ _
    | with_reducible assumption
    | with_reducible refine State.updCmdDone_only _ (by decide) ?_
    | intro _
    | split
    | dsimp only

theorem execMsixVectorUnmask_only (fn vec : Nat) {s t : State} (h : execMsixVectorUnmask fn vec s = .next t) : OnlyChanges s t [.out, .unmasked, .msiPending] := by
  cases h
  repeat' first
    | with_reducible exact OnlyChanges.refl _ _
    | with_reducible assumption
    | with_reducible refine State.unmask_only _ _ (by decide) ?_
    | intro _
    | split
    | dsimp only

theorem execGroupWakeDone_only (g : Nat) {s t : State} (h : execGroupWakeDone group s = .next t) : OnlyChanges s t [.regs, .shad, .loaded, .staged, .latched, .softResetting, .mem, .out, .free, .time, .power, .dram, .edac, .chans, .bufs, .plots, .fillQueue, .peak, .cache, .ingest, .display, .dpls, .cvus, .touch, .haptic, .audio, .age, .update, .faults, .worlds, .queues, .fns, .jobs, .coreEntries, .fetchStopped, .arbiter, .unmasked, .msiPending, .pair] := by
  cases h
  repeat' first
    | with_reducible exact OnlyChanges.refl _ _
    | with_reducible assumption
    | with_reducible refine State.groupWake_only _ (by decide) ?_
    | intro _
    | split
    | dsimp only

end Sys2Proof.Machine
end

