-- ==== Sys2Proof/Laws/SoundBase.lean ====
section
/-! SUPPORT. The invariant of Safety.lean under the ways in which an operation is built: an update of other fields, a
fold over a list, a fold that carries a value beside the state. -/

namespace Sys2Proof.Machine

set_option Elab.async false
set_option linter.all false

variable {p : Part} {q : List Instr}

/-- An update of fields that the invariant does not name keeps it. -/
theorem Sound.of_mk {s : State} {pending : List Instr} {part : Part} {regs shad loaded : Store Word32} {staged : List Staged}
    {latched : List Latched} {softResetting : List Nat} {mem : List Host.Cell} {out : List Output} {free now : Nat} {time : Time}
    {power : Power} {dram : Dram} {edac : Edac} {pool : Pool} {ingest : Ingest} {display : Display} {dpls : Store Dpl}
    {cvus : Store CvuEngine} {touch : Touch} {haptic : Haptic} {audio : Audio} {age : Age} {update : Update} {faults : Faults}
    {worlds : Worlds} {hosts : Hosts} {pair : Pair} (h : Sound p q s) (hpart : part = s.part) (hpending : pending = s.pending)
    (hmem : mem = s.mem) (hregs : regs = s.regs) (hshad : shad = s.shad) (hcr : power.copyRegs = s.power.copyRegs)
    (hcs : power.copyShad = s.power.copyShad) (hfl : update.flash = s.update.flash) (ht : time = s.time)
    (hj : hosts.jobs = s.hosts.jobs) (hn : hosts.nextJid = s.hosts.nextJid)
    (hpc : pool.chans.used = s.pool.chans.used) (hpb : pool.bufs.used = s.pool.bufs.used) :
    Sound p q ⟨pending, part, regs, shad, loaded, staged, latched, softResetting, mem, out, free, now, time, power, dram,
      edac, pool, ingest, display, dpls, cvus, touch, haptic, audio, age, update, faults, worlds, hosts, pair⟩ := by
  subst hpart hpending hmem hregs hshad ht
  exact ⟨h.part, h.queue, h.mem, h.regs, h.shad, hcr ▸ h.copyRegs, hcs ▸ h.copyShad, hfl ▸ h.flash, h.time,
    by rw [hj, hn]; exact h.jobs, ⟨hpc ▸ h.tables.chans, hpb ▸ h.tables.bufs⟩⟩

/-- The same for an update of the tables that keeps them sorted. -/
theorem Sound.of_tables {s : State} {pending : List Instr} {part : Part} {regs shad loaded : Store Word32} {staged : List Staged}
    {latched : List Latched} {softResetting : List Nat} {mem : List Host.Cell} {out : List Output} {free now : Nat} {time : Time}
    {power : Power} {dram : Dram} {edac : Edac} {pool : Pool} {ingest : Ingest} {display : Display} {dpls : Store Dpl}
    {cvus : Store CvuEngine} {touch : Touch} {haptic : Haptic} {audio : Audio} {age : Age} {update : Update} {faults : Faults}
    {worlds : Worlds} {hosts : Hosts} {pair : Pair} (h : Sound p q s) (hp : s.pool.Sorted → pool.Sorted) (hpart : part = s.part) (hpending : pending = s.pending)
    (hmem : mem = s.mem) (hregs : regs = s.regs) (hshad : shad = s.shad) (hcr : power.copyRegs = s.power.copyRegs)
    (hcs : power.copyShad = s.power.copyShad) (hfl : update.flash = s.update.flash) (ht : time = s.time)
    (hj : hosts.jobs = s.hosts.jobs) (hn : hosts.nextJid = s.hosts.nextJid) :
    Sound p q ⟨pending, part, regs, shad, loaded, staged, latched, softResetting, mem, out, free, now, time, power, dram,
      edac, pool, ingest, display, dpls, cvus, touch, haptic, audio, age, update, faults, worlds, hosts, pair⟩ := by
  subst hpart hpending hmem hregs hshad ht
  exact ⟨h.part, h.queue, h.mem, h.regs, h.shad, hcr ▸ h.copyRegs, hcs ▸ h.copyShad, hfl ▸ h.flash, h.time,
    by rw [hj, hn]; exact h.jobs, hp h.tables⟩

/-- The state that an equation names. -/
theorem Sound.snd_of {α : Type} {x : α × State} {a : α} {t : State} (e : x = (a, t)) (h : Sound p q x.2) : Sound p q t := by
  rwa [e] at h

theorem Sound.thd_of {α β : Type} {x : α × β × State} {a : α} {b : β} {t : State} (e : x = (a, b, t)) (h : Sound p q x.2.2) :
    Sound p q t := by
  rwa [e] at h

theorem foldl_sound {α : Type} {f : State → α → State} {l : List α} {s : State}
    (hf : ∀ t x, Sound p q t → Sound p q (f t x)) (h : Sound p q s) : Sound p q (l.foldl f s) := by
  induction l generalizing s with
  | nil => exact h
  | cons a r ih => exact ih (hf s a h)

/-- The same for a fold that carries a value with the state. -/
theorem foldl_sound_snd {α β : Type} {f : β × State → α → β × State} {l : List α} {a : β × State}
    (hf : ∀ t x, Sound p q t.2 → Sound p q (f t x).2) (h : Sound p q a.2) : Sound p q (l.foldl f a).2 := by
  induction l generalizing a with
  | nil => exact h
  | cons x r ih => exact ih (hf a x h)

end Sys2Proof.Machine
end

