-- ==== Sys2Proof/Laws/SoundOps.lean ====
section
/-! SUPPORT. Every operation of Machine/Ops.lean keeps the invariant of Safety.lean. -/

namespace Sys2Proof.Machine

set_option Elab.async false
set_option linter.all false

variable {p : Part} {q : List Instr}

theorem State.setRw_sound {s : State} (k : Nat) (v : Nat) (hs : Sound p q s) : Sound p q (State.setRw s k v) := by
  obtain ⟨rfl, h2, h3, h4, h5, h6, h7, h8, h9, h10, h11⟩ := hs
  exact ⟨rfl, h2, h3, Sparse.wf_set _ _ h4, h5, h6, h7, h8, h9, h10, h11⟩

theorem State.setSw_sound {s : State} (k : Nat) (v : Nat) (hs : Sound p q s) : Sound p q (State.setSw s k v) := by
  obtain ⟨rfl, h2, h3, h4, h5, h6, h7, h8, h9, h10, h11⟩ := hs
  exact ⟨rfl, h2, h3, h4, Sparse.wf_set _ _ h5, h6, h7, h8, h9, h10, h11⟩

theorem State.setFld_sound {s : State} (pg : Page) (f : Fld) (v : Nat) (ix : List Nat) (hs : Sound p q s) :
    Sound p q (State.setFld s pg f v ix) := by
  unfold State.setFld
  repeat' first
    | with_reducible assumption
    | with_reducible apply foldl_sound
    | with_reducible apply State.setRw_sound
    | with_reducible refine Sound.snd_of (by with_reducible assumption) ?_
    | with_reducible refine Sound.thd_of (by with_reducible assumption) ?_
    | intro _
    | split
    | dsimp only
    | with_reducible refine Sound.of_mk ?_ rfl rfl rfl rfl rfl rfl rfl rfl rfl rfl rfl rfl rfl

theorem State.setSfld_sound {s : State} (pg : Page) (f : Fld) (v : Nat) (ix : List Nat) (hs : Sound p q s) :
    Sound p q (State.setSfld s pg f v ix) := by
  unfold State.setSfld
  repeat' first
    | with_reducible assumption
    | with_reducible apply foldl_sound
    | with_reducible apply State.setSw_sound
    | with_reducible refine Sound.snd_of (by with_reducible assumption) ?_
    | with_reducible refine Sound.thd_of (by with_reducible assumption) ?_
    | intro _
    | split
    | dsimp only
    | with_reducible refine Sound.of_mk ?_ rfl rfl rfl rfl rfl rfl rfl rfl rfl rfl rfl rfl rfl

theorem State.addFld_sound {s : State} (pg : Page) (f : Fld) (n : Nat) (ix : List Nat) (hs : Sound p q s) :
    Sound p q (State.addFld s pg f n ix) := by
  unfold State.addFld
  repeat' first
    | with_reducible assumption
    | with_reducible apply foldl_sound
    | with_reducible apply State.setFld_sound
    | with_reducible refine Sound.snd_of (by with_reducible assumption) ?_
    | with_reducible refine Sound.thd_of (by with_reducible assumption) ?_
    | intro _
    | split
    | dsimp only
    | with_reducible refine Sound.of_mk ?_ rfl rfl rfl rfl rfl rfl rfl rfl rfl rfl rfl rfl rfl

theorem State.satFld_sound {s : State} (pg : Page) (f : Fld) (n : Nat) (ix : List Nat) (hs : Sound p q s) :
    Sound p q (State.satFld s pg f n ix) := by
  unfold State.satFld
  repeat' first
    | with_reducible assumption
    | with_reducible apply foldl_sound
    | with_reducible apply State.setFld_sound
    | with_reducible refine Sound.snd_of (by with_reducible assumption) ?_
    | with_reducible refine Sound.thd_of (by with_reducible assumption) ?_
    | intro _
    | split
    | dsimp only
    | with_reducible refine Sound.of_mk ?_ rfl rfl rfl rfl rfl rfl rfl rfl rfl rfl rfl rfl rfl

theorem State.addCnt_sound {s : State} (pg : Page) (lo : Fld) (hi : Fld) (n : Nat) (ix : List Nat) (hs : Sound p q s) :
    Sound p q (State.addCnt s pg lo hi n ix) := by
  unfold State.addCnt
  repeat' first
    | with_reducible assumption
    | with_reducible apply foldl_sound
    | with_reducible apply State.setFld_sound
    | with_reducible refine Sound.snd_of (by with_reducible assumption) ?_
    | with_reducible refine Sound.thd_of (by with_reducible assumption) ?_
    | intro _
    | split
    | dsimp only
    | with_reducible refine Sound.of_mk ?_ rfl rfl rfl rfl rfl rfl rfl rfl rfl rfl rfl rfl rfl

theorem State.emit_sound {s : State} (o : Output) (hs : Sound p q s) :
    Sound p q (State.emit s o) := by
  unfold State.emit
  repeat' first
    | with_reducible assumption
    | with_reducible apply foldl_sound
    | with_reducible refine Sound.snd_of (by with_reducible assumption) ?_
    | with_reducible refine Sound.thd_of (by with_reducible assumption) ?_
    | intro _
    | split
    | dsimp only
    | with_reducible refine Sound.of_mk ?_ rfl rfl rfl rfl rfl rfl rfl rfl rfl rfl rfl rfl rfl

theorem State.takeFree_sound {s : State} (hs : Sound p q s) :
    Sound p q (State.takeFree s).2 := by
  unfold State.takeFree
  repeat' first
    | with_reducible assumption
    | with_reducible apply foldl_sound
    | with_reducible refine Sound.snd_of (by with_reducible assumption) ?_
    | with_reducible refine Sound.thd_of (by with_reducible assumption) ?_
    | intro _
    | split
    | dsimp only
    | with_reducible refine Sound.of_mk ?_ rfl rfl rfl rfl rfl rfl rfl rfl rfl rfl rfl rfl rfl

theorem State.sendMsg_sound {s : State} (fn : Nat) (vec : Nat) (hs : Sound p q s) :
    Sound p q (State.sendMsg s fn vec) := by
  unfold State.sendMsg
  repeat' first
    | with_reducible assumption
    | with_reducible apply foldl_sound
    | with_reducible apply State.emit_sound
    | with_reducible refine Sound.snd_of (by with_reducible assumption) ?_
    | with_reducible refine Sound.thd_of (by with_reducible assumption) ?_
    | intro _
    | split
    | dsimp only
    | with_reducible refine Sound.of_mk ?_ rfl rfl rfl rfl rfl rfl rfl rfl rfl rfl rfl rfl rfl

theorem State.pageMsg_sound {s : State} (pg : Page) (hs : Sound p q s) :
    Sound p q (State.pageMsg s pg) := by
  unfold State.pageMsg
  repeat' first
    | with_reducible assumption
    | with_reducible apply foldl_sound
    | with_reducible apply State.sendMsg_sound
    | with_reducible refine Sound.snd_of (by with_reducible assumption) ?_
    | with_reducible refine Sound.thd_of (by with_reducible assumption) ?_
    | intro _
    | split
    | dsimp only
    | with_reducible refine Sound.of_mk ?_ rfl rfl rfl rfl rfl rfl rfl rfl rfl rfl rfl rfl rfl

theorem State.raise_sound {s : State} (pg : Page) (mask : Nat) (hs : Sound p q s) :
    Sound p q (State.raise s pg mask) := by
  unfold State.raise
  repeat' first
    | with_reducible assumption
    | with_reducible apply foldl_sound
    | with_reducible apply State.setRw_sound
    | with_reducible apply State.pageMsg_sound
    | with_reducible refine Sound.snd_of (by with_reducible assumption) ?_
    | with_reducible refine Sound.thd_of (by with_reducible assumption) ?_
    | intro _
    | split
    | dsimp only
    | with_reducible refine Sound.of_mk ?_ rfl rfl rfl rfl rfl rfl rfl rfl rfl rfl rfl rfl rfl

theorem State.event_sound {s : State} (pg : Page) (n : Nat) (hs : Sound p q s) :
    Sound p q (State.event s pg n) := by
  unfold State.event
  repeat' first
    | with_reducible assumption
    | with_reducible apply foldl_sound
    | with_reducible apply State.raise_sound
    | with_reducible refine Sound.snd_of (by with_reducible assumption) ?_
    | with_reducible refine Sound.thd_of (by with_reducible assumption) ?_
    | intro _
    | split
    | dsimp only
    | with_reducible refine Sound.of_mk ?_ rfl rfl rfl rfl rfl rfl rfl rfl rfl rfl rfl rfl rfl

theorem State.recErr_sound {s : State} (pg : Page) (code : Nat) (info : Nat) (hs : Sound p q s) :
    Sound p q (State.recErr s pg code info) := by
  unfold State.recErr
  repeat' first
    | with_reducible assumption
    | with_reducible apply foldl_sound
    | with_reducible apply State.setRw_sound
    | with_reducible apply State.setFld_sound
    | with_reducible apply State.raise_sound
    | with_reducible refine Sound.snd_of (by with_reducible assumption) ?_
    | with_reducible refine Sound.thd_of (by with_reducible assumption) ?_
    | intro _
    | split
    | dsimp only
    | with_reducible refine Sound.of_mk ?_ rfl rfl rfl rfl rfl rfl rfl rfl rfl rfl rfl rfl rfl

theorem State.recAcc_sound {s : State} (a : RegAcc) (code : Nat) (hs : Sound p q s) :
    Sound p q (State.recAcc s a code) := by
  unfold State.recAcc
  repeat' first
    | with_reducible assumption
    | with_reducible apply foldl_sound
    | with_reducible apply State.recErr_sound
    | with_reducible refine Sound.snd_of (by with_reducible assumption) ?_
    | with_reducible refine Sound.thd_of (by with_reducible assumption) ?_
    | intro _
    | split
    | dsimp only
    | with_reducible refine Sound.of_mk ?_ rfl rfl rfl rfl rfl rfl rfl rfl rfl rfl rfl rfl rfl

theorem State.pmcCount_sound {s : State} (event : Nat) (fn : Nat) (world : Bool) (filterApplies : Bool) (n : Nat) (hs : Sound p q s) :
    Sound p q (State.pmcCount s event fn world filterApplies n) := by
  unfold State.pmcCount
  repeat' first
    | with_reducible assumption
    | with_reducible apply foldl_sound
    | with_reducible apply State.addCnt_sound
    | with_reducible refine Sound.snd_of (by with_reducible assumption) ?_
    | with_reducible refine Sound.thd_of (by with_reducible assumption) ?_
    | intro _
    | split
    | dsimp only
    | with_reducible refine Sound.of_mk ?_ rfl rfl rfl rfl rfl rfl rfl rfl rfl rfl rfl rfl rfl

theorem State.deny_sound {s : State} (fn : Nat) (world : Bool) (crit : Nat) (write : Bool) (target : Nat) (addr : Nat) (hs : Sound p q s) :
    Sound p q (State.deny s fn world crit write target addr) := by
  unfold State.deny
  repeat' first
    | with_reducible assumption
    | with_reducible apply foldl_sound
    | with_reducible apply State.setRw_sound
    | with_reducible apply State.setFld_sound
    | with_reducible apply State.satFld_sound
    | with_reducible apply State.event_sound
    | with_reducible apply State.pmcCount_sound
    | with_reducible refine Sound.snd_of (by with_reducible assumption) ?_
    | with_reducible refine Sound.thd_of (by with_reducible assumption) ?_
    | intro _
    | split
    | dsimp only
    | with_reducible refine Sound.of_mk ?_ rfl rfl rfl rfl rfl rfl rfl rfl rfl rfl rfl rfl rfl

theorem State.denyReg_sound {s : State} (a : RegAcc) (hs : Sound p q s) :
    Sound p q (State.denyReg s a) := by
  unfold State.denyReg
  repeat' first
    | with_reducible assumption
    | with_reducible apply foldl_sound
    | with_reducible apply State.recAcc_sound
    | with_reducible apply State.deny_sound
    | with_reducible refine Sound.snd_of (by with_reducible assumption) ?_
    | with_reducible refine Sound.thd_of (by with_reducible assumption) ?_
    | intro _
    | split
    | dsimp only
    | with_reducible refine Sound.of_mk ?_ rfl rfl rfl rfl rfl rfl rfl rfl rfl rfl rfl rfl rfl

theorem State.applyField_sound (a : RegAcc) {s : State} (f : Fld) (hs : Sound p q s) :
    Sound p q (State.applyField a s f) := by
  unfold State.applyField
  repeat' first
    | with_reducible assumption
    | with_reducible apply foldl_sound
    | with_reducible apply State.setRw_sound
    | with_reducible apply State.setSw_sound
    | with_reducible refine Sound.snd_of (by with_reducible assumption) ?_
    | with_reducible refine Sound.thd_of (by with_reducible assumption) ?_
    | intro _
    | split
    | dsimp only
    | with_reducible refine Sound.of_mk ?_ rfl rfl rfl rfl rfl rfl rfl rfl rfl rfl rfl rfl rfl

theorem State.recRefused_sound {s : State} (a : RegAcc) (hs : Sound p q s) :
    Sound p q (State.recRefused s a) := by
  unfold State.recRefused
  repeat' first
    | with_reducible assumption
    | with_reducible apply foldl_sound
    | with_reducible apply State.recAcc_sound
    | with_reducible apply State.denyReg_sound
    | with_reducible refine Sound.snd_of (by with_reducible assumption) ?_
    | with_reducible refine Sound.thd_of (by with_reducible assumption) ?_
    | intro _
    | split
    | dsimp only
    | with_reducible refine Sound.of_mk ?_ rfl rfl rfl rfl rfl rfl rfl rfl rfl rfl rfl rfl rfl

theorem State.refuse_sound {s : State} (a : RegAcc) (code : Nat) (hs : Sound p q s) :
    Sound p q (State.refuse s a code) := by
  unfold State.refuse
  repeat' first
    | with_reducible assumption
    | with_reducible apply foldl_sound
    | with_reducible apply State.recAcc_sound
    | with_reducible apply State.denyReg_sound
    | with_reducible refine Sound.snd_of (by with_reducible assumption) ?_
    | with_reducible refine Sound.thd_of (by with_reducible assumption) ?_
    | intro _
    | split
    | dsimp only
    | with_reducible refine Sound.of_mk ?_ rfl rfl rfl rfl rfl rfl rfl rfl rfl rfl rfl rfl rfl

theorem State.plainWrite_sound {s : State} (a : RegAcc) (keep : Fld → Bool) (hs : Sound p q s) :
    Sound p q (State.plainWrite s a keep) := by
  unfold State.plainWrite
  repeat' first
    | with_reducible assumption
    | with_reducible apply foldl_sound
    | with_reducible apply State.applyField_sound
    | with_reducible apply State.recRefused_sound
    | with_reducible refine Sound.snd_of (by with_reducible assumption) ?_
    | with_reducible refine Sound.thd_of (by with_reducible assumption) ?_
    | intro _
    | split
    | dsimp only
    | with_reducible refine Sound.of_mk ?_ rfl rfl rfl rfl rfl rfl rfl rfl rfl rfl rfl rfl rfl

end Sys2Proof.Machine
end

