-- ==== Sys2Proof/Laws/SoundCommands.lean ====
section
/-! SUPPORT. Every operation of Machine/Commands.lean keeps the invariant of Safety.lean. -/

namespace Sys2Proof.Machine

set_option Elab.async false
set_option linter.all false

variable {p : Part} {q : List Instr}

theorem State.setQueue_sound {s : State} (fn : Nat) (x2 : Nat) (x : Queue) (hs : Sound p q s) :
    Sound p q (State.setQueue s fn x2 x) := by
  unfold State.setQueue
  repeat' first
    | with_reducible assumption
    | with_reducible apply foldl_sound
    | with_reducible refine Sound.snd_of (by with_reducible assumption) ?_
    | with_reducible refine Sound.thd_of (by with_reducible assumption) ?_
    | intro _
    | split
    | dsimp only
    | with_reducible refine Sound.of_mk ?_ rfl rfl rfl rfl rfl rfl rfl rfl rfl rfl rfl rfl rfl

theorem State.signalQueue_sound {s : State} (fn : Nat) (x2 : Nat) (hs : Sound p q s) :
    Sound p q (State.signalQueue s fn x2) := by
  unfold State.signalQueue
  repeat' first
    | with_reducible assumption
    | with_reducible apply foldl_sound
    | with_reducible apply State.sendMsg_sound
    | with_reducible apply State.setQueue_sound
    | with_reducible refine Sound.snd_of (by with_reducible assumption) ?_
    | with_reducible refine Sound.thd_of (by with_reducible assumption) ?_
    | intro _
    | split
    | dsimp only
    | with_reducible refine Sound.of_mk ?_ rfl rfl rfl rfl rfl rfl rfl rfl rfl rfl rfl rfl rfl

theorem State.writeEntry_sound {s : State} (fn : Nat) (x2 : Nat) (e : CqEntry) (hs : Sound p q s) :
    Sound p q (State.writeEntry s fn x2 e) := by
  unfold State.writeEntry
  repeat' first
    | with_reducible assumption
    | with_reducible apply foldl_sound
    | with_reducible apply State.emit_sound
    | with_reducible apply State.setQueue_sound
    | with_reducible apply State.signalQueue_sound
    | with_reducible refine Sound.snd_of (by with_reducible assumption) ?_
    | with_reducible refine Sound.thd_of (by with_reducible assumption) ?_
    | intro _
    | split
    | dsimp only
    | with_reducible refine Sound.of_mk ?_ rfl rfl rfl rfl rfl rfl rfl rfl rfl rfl rfl rfl rfl

theorem State.post_sound {s : State} (fn : Nat) (x2 : Nat) (cid : Nat) (status : Nat) (sqHead : Nat) (fin : Bool) (res : List Nat) (hs : Sound p q s) :
    Sound p q (State.post s fn x2 cid status sqHead fin res) := by
  unfold State.post
  repeat' first
    | with_reducible assumption
    | with_reducible apply foldl_sound
    | with_reducible apply State.setQueue_sound
    | with_reducible apply State.writeEntry_sound
    | with_reducible refine Sound.snd_of (by with_reducible assumption) ?_
    | with_reducible refine Sound.thd_of (by with_reducible assumption) ?_
    | intro _
    | split
    | dsimp only
    | with_reducible refine Sound.of_mk ?_ rfl rfl rfl rfl rfl rfl rfl rfl rfl rfl rfl rfl rfl

theorem State.releaseHeld_sound {s : State} (fn : Nat) (x2 : Nat) (hs : Sound p q s) :
    Sound p q (State.releaseHeld s fn x2) := by
  unfold State.releaseHeld
  repeat' first
    | with_reducible assumption
    | with_reducible apply foldl_sound
    | with_reducible apply State.setQueue_sound
    | with_reducible apply State.writeEntry_sound
    | with_reducible refine Sound.snd_of (by with_reducible assumption) ?_
    | with_reducible refine Sound.thd_of (by with_reducible assumption) ?_
    | intro _
    | split
    | dsimp only
    | with_reducible refine Sound.of_mk ?_ rfl rfl rfl rfl rfl rfl rfl rfl rfl rfl rfl rfl rfl

theorem State.keepJobs_sound {s : State} (f : Job → Bool) (hs : Sound p q s) : Sound p q (State.keepJobs s f) :=
  ⟨hs.part, hs.queue, hs.mem, hs.regs, hs.shad, hs.copyRegs, hs.copyShad, hs.flash, hs.time,
    fun j hj => hs.jobs j (List.mem_filter.1 hj).1, hs.tables⟩

theorem State.owe_sound {s : State} (jid : Nat) (hs : Sound p q s) : Sound p q (State.owe s jid) := by
  refine ⟨hs.part, hs.queue, hs.mem, hs.regs, hs.shad, hs.copyRegs, hs.copyShad, hs.flash, hs.time, fun j hj => ?_, hs.tables⟩
  obtain ⟨k, hk, rfl⟩ := List.mem_map.1 hj
  have := hs.jobs k hk
  show (if k.jid = jid then ({ k with stage := .owed } : Job) else k).jid < s.hosts.nextJid
  split <;> exact this

theorem State.drainCheck_sound {s : State} (fn : Nat) (x2 : Nat) (hs : Sound p q s) :
    Sound p q (State.drainCheck s fn x2) := by
  unfold State.drainCheck
  repeat' first
    | with_reducible assumption
    | with_reducible apply foldl_sound
    | with_reducible apply State.setQueue_sound
    | with_reducible apply State.keepJobs_sound
    | with_reducible refine Sound.snd_of (by with_reducible assumption) ?_
    | with_reducible refine Sound.thd_of (by with_reducible assumption) ?_
    | intro _
    | split
    | dsimp only
    | with_reducible refine Sound.of_mk ?_ rfl rfl rfl rfl rfl rfl rfl rfl rfl rfl rfl rfl rfl

theorem State.dropJob_sound {s : State} (jid : Nat) (hs : Sound p q s) :
    Sound p q (State.dropJob s jid) := by
  unfold State.dropJob
  repeat' first
    | with_reducible assumption
    | with_reducible apply foldl_sound
    | with_reducible apply State.keepJobs_sound
    | with_reducible refine Sound.snd_of (by with_reducible assumption) ?_
    | with_reducible refine Sound.thd_of (by with_reducible assumption) ?_
    | intro _
    | split
    | dsimp only
    | with_reducible refine Sound.of_mk ?_ rfl rfl rfl rfl rfl rfl rfl rfl rfl rfl rfl rfl rfl

theorem State.complete_sound {s : State} (jid : Nat) (status : Nat) (res : List Nat) (hs : Sound p q s) :
    Sound p q (State.complete s jid status res) := by
  unfold State.complete
  repeat' first
    | with_reducible assumption
    | with_reducible apply foldl_sound
    | with_reducible apply State.post_sound
    | with_reducible apply State.owe_sound
    | with_reducible apply State.drainCheck_sound
    | with_reducible apply State.dropJob_sound
    | with_reducible refine Sound.snd_of (by with_reducible assumption) ?_
    | with_reducible refine Sound.thd_of (by with_reducible assumption) ?_
    | intro _
    | split
    | dsimp only
    | with_reducible refine Sound.of_mk ?_ rfl rfl rfl rfl rfl rfl rfl rfl rfl rfl rfl rfl rfl

theorem State.finish_sound {s : State} (jid : Nat) (status : Nat) (res : List Nat) (hs : Sound p q s) :
    Sound p q (State.finish s jid status res) := by
  unfold State.finish
  repeat' first
    | with_reducible assumption
    | with_reducible apply foldl_sound
    | with_reducible apply State.post_sound
    | with_reducible apply State.dropJob_sound
    | with_reducible apply State.complete_sound
    | with_reducible refine Sound.snd_of (by with_reducible assumption) ?_
    | with_reducible refine Sound.thd_of (by with_reducible assumption) ?_
    | intro _
    | split
    | dsimp only
    | with_reducible refine Sound.of_mk ?_ rfl rfl rfl rfl rfl rfl rfl rfl rfl rfl rfl rfl rfl

theorem State.finishOpt_sound {s : State} (jid : Option Nat) (status : Nat) (res : List Nat) (hs : Sound p q s) :
    Sound p q (State.finishOpt s jid status res) := by
  unfold State.finishOpt
  repeat' first
    | with_reducible assumption
    | with_reducible apply foldl_sound
    | with_reducible apply State.finish_sound
    | with_reducible refine Sound.snd_of (by with_reducible assumption) ?_
    | with_reducible refine Sound.thd_of (by with_reducible assumption) ?_
    | intro _
    | split
    | dsimp only
    | with_reducible refine Sound.of_mk ?_ rfl rfl rfl rfl rfl rfl rfl rfl rfl rfl rfl rfl rfl

theorem State.mirror_sound {s : State} (x : MirrorItem) (hs : Sound p q s) :
    Sound p q (State.mirror s x) := by
  unfold State.mirror
  repeat' first
    | with_reducible assumption
    | with_reducible apply foldl_sound
    | with_reducible refine Sound.snd_of (by with_reducible assumption) ?_
    | with_reducible refine Sound.thd_of (by with_reducible assumption) ?_
    | intro _
    | split
    | dsimp only
    | with_reducible refine Sound.of_mk ?_ rfl rfl rfl rfl rfl rfl rfl rfl rfl rfl rfl rfl rfl

theorem State.completeMirrored_sound {s : State} (op : Nat) (params : List Nat) (plots : List Nat) (jid : Nat) (status : Nat) (res : List Nat) (hs : Sound p q s) :
    Sound p q (State.completeMirrored s op params plots jid status res) := by
  unfold State.completeMirrored
  repeat' first
    | with_reducible assumption
    | with_reducible apply foldl_sound
    | with_reducible apply State.complete_sound
    | with_reducible apply State.mirror_sound
    | with_reducible refine Sound.snd_of (by with_reducible assumption) ?_
    | with_reducible refine Sound.thd_of (by with_reducible assumption) ?_
    | intro _
    | split
    | dsimp only
    | with_reducible refine Sound.of_mk ?_ rfl rfl rfl rfl rfl rfl rfl rfl rfl rfl rfl rfl rfl

theorem State.finishMirrored_sound {s : State} (op : Nat) (params : List Nat) (jid : Option Nat) (hs : Sound p q s) :
    Sound p q (State.finishMirrored s op params jid) := by
  unfold State.finishMirrored
  repeat' first
    | with_reducible assumption
    | with_reducible apply foldl_sound
    | with_reducible apply State.finishOpt_sound
    | with_reducible apply State.mirror_sound
    | with_reducible refine Sound.snd_of (by with_reducible assumption) ?_
    | with_reducible refine Sound.thd_of (by with_reducible assumption) ?_
    | intro _
    | split
    | dsimp only
    | with_reducible refine Sound.of_mk ?_ rfl rfl rfl rfl rfl rfl rfl rfl rfl rfl rfl rfl rfl

theorem State.pickFn_sound {s : State} (i : Nat) (ws : List Nat) (hs : Sound p q s) :
    Sound p q (State.pickFn s i ws).2 := by
  unfold State.pickFn
  repeat' first
    | with_reducible assumption
    | with_reducible apply foldl_sound
    | with_reducible refine Sound.snd_of (by with_reducible assumption) ?_
    | with_reducible refine Sound.thd_of (by with_reducible assumption) ?_
    | intro _
    | split
    | dsimp only
    | with_reducible refine Sound.of_mk ?_ rfl rfl rfl rfl rfl rfl rfl rfl rfl rfl rfl rfl rfl

theorem State.served_sound {s : State} (i : Nat) (f : Nat) (hs : Sound p q s) :
    Sound p q (State.served s i f) := by
  unfold State.served
  repeat' first
    | with_reducible assumption
    | with_reducible apply foldl_sound
    | with_reducible refine Sound.snd_of (by with_reducible assumption) ?_
    | with_reducible refine Sound.thd_of (by with_reducible assumption) ?_
    | intro _
    | split
    | dsimp only
    | with_reducible refine Sound.of_mk ?_ rfl rfl rfl rfl rfl rfl rfl rfl rfl rfl rfl rfl rfl

theorem State.take_sound {s : State} (opcode : Nat) (c : CmdArgs) (hs : Sound p q s) : Sound p q (State.take s opcode c).2 := by
  refine ⟨hs.part, hs.queue, hs.mem, hs.regs, hs.shad, hs.copyRegs, hs.copyShad, hs.flash, hs.time, fun j hj => ?_, hs.tables⟩
  rcases List.mem_append.1 hj with h | h
  · exact Nat.lt_succ_of_lt (hs.jobs j h)
  · rw [List.mem_singleton.1 h]
    exact Nat.lt_succ_self _

theorem State.keepEntry_sound {s : State} (opcode : Nat) (c : CmdArgs) (hs : Sound p q s) :
    Sound p q (State.keepEntry s opcode c) := by
  unfold State.keepEntry
  repeat' first
    | with_reducible assumption
    | with_reducible apply foldl_sound
    | with_reducible refine Sound.snd_of (by with_reducible assumption) ?_
    | with_reducible refine Sound.thd_of (by with_reducible assumption) ?_
    | intro _
    | split
    | dsimp only
    | with_reducible refine Sound.of_mk ?_ rfl rfl rfl rfl rfl rfl rfl rfl rfl rfl rfl rfl rfl

theorem State.carryEntry_sound {s : State} (opcode : Nat) (c : CmdArgs) (carry : Job → State → State) (hs : Sound p q s) (hcarry : ∀ (y0 : Job) (y1 : State), Sound p q y1 → Sound p q (carry y0 y1)) :
    Sound p q (State.carryEntry s opcode c carry) := by
  unfold State.carryEntry
  repeat' first
    | with_reducible assumption
    | with_reducible apply foldl_sound
    | with_reducible apply hcarry
    | with_reducible apply State.complete_sound
    | with_reducible apply State.take_sound
    | with_reducible refine Sound.snd_of (by with_reducible assumption) ?_
    | with_reducible refine Sound.thd_of (by with_reducible assumption) ?_
    | intro _
    | split
    | dsimp only
    | with_reducible refine Sound.of_mk ?_ rfl rfl rfl rfl rfl rfl rfl rfl rfl rfl rfl rfl rfl

theorem State.command_sound {s : State} (opcode : Nat) (c : CmdArgs) (carry : Job → State → State) (hs : Sound p q s) (hcarry : ∀ (y0 : Job) (y1 : State), Sound p q y1 → Sound p q (carry y0 y1)) :
    Sound p q (State.command s opcode c carry) := by
  unfold State.command
  repeat' first
    | with_reducible assumption
    | with_reducible apply foldl_sound
    | with_reducible apply hcarry
    | with_reducible apply State.keepEntry_sound
    | with_reducible apply State.carryEntry_sound
    | with_reducible refine Sound.snd_of (by with_reducible assumption) ?_
    | with_reducible refine Sound.thd_of (by with_reducible assumption) ?_
    | intro _
    | split
    | dsimp only
    | with_reducible refine Sound.of_mk ?_ rfl rfl rfl rfl rfl rfl rfl rfl rfl rfl rfl rfl rfl

end Sys2Proof.Machine
end

