-- ==== Sys2Proof/Laws/SoundIslands.lean ====
section
/-! SUPPORT. Every operation of Machine/Islands.lean keeps the invariant of Safety.lean. -/

namespace Sys2Proof.Machine

set_option Elab.async false
set_option linter.all false

variable {p : Part} {q : List Instr}

theorem State.ungatePage_sound {s : State} (pg : Page) (hs : Sound p q s) :
    Sound p q (State.ungatePage s pg) := by
  unfold State.ungatePage
  repeat' first
    | with_reducible assumption
    | with_reducible apply foldl_sound
    | with_reducible apply State.setRw_sound
    | with_reducible refine Sound.snd_of (by with_reducible assumption) ?_
    | with_reducible refine Sound.thd_of (by with_reducible assumption) ?_
    | intro _
    | split
    | dsimp only
    | with_reducible refine Sound.of_mk ?_ rfl rfl rfl rfl rfl rfl rfl rfl rfl rfl rfl rfl rfl

end Sys2Proof.Machine
end

