-- ==== Sys2Proof/Laws/SoundAccess.lean ====
section
/-! SUPPORT. Every operation of Machine/Access.lean keeps the invariant of Safety.lean. -/

namespace Sys2Proof.Machine

set_option Elab.async false
set_option linter.all false

variable {p : Part} {q : List Instr}

theorem State.holdBack_sound {s : State} (g : Nat) (w : Waiting) (hs : Sound p q s) :
    Sound p q (State.holdBack s g w) := by
  unfold State.holdBack
  repeat' first
    | with_reducible assumption
    | with_reducible apply foldl_sound
    | with_reducible refine Sound.snd_of (by with_reducible assumption) ?_
    | with_reducible refine Sound.thd_of (by with_reducible assumption) ?_
    | intro _
    | split
    | dsimp only
    | with_reducible refine Sound.of_mk ?_ rfl rfl rfl rfl rfl rfl rfl rfl rfl rfl rfl rfl rfl

theorem State.access_sound {s : State} (w : RegWr) (run : RegAcc → State → State) (hs : Sound p q s) (hrun : ∀ (y0 : RegAcc) (y1 : State), Sound p q y1 → Sound p q (run y0 y1)) :
    Sound p q (State.access s w run) := by
  unfold State.access
  repeat' first
    | with_reducible assumption
    | with_reducible apply foldl_sound
    | with_reducible apply hrun
    | with_reducible apply State.recAcc_sound
    | with_reducible apply State.holdBack_sound
    | with_reducible refine Sound.snd_of (by with_reducible assumption) ?_
    | with_reducible refine Sound.thd_of (by with_reducible assumption) ?_
    | intro _
    | split
    | dsimp only
    | with_reducible refine Sound.of_mk ?_ rfl rfl rfl rfl rfl rfl rfl rfl rfl rfl rfl rfl rfl

theorem State.accessAt_sound {s : State} (w : RegWr) (here : RegAcc → Bool) (run : RegAcc → State → State) (hs : Sound p q s) (hrun : ∀ (y0 : RegAcc) (y1 : State), Sound p q y1 → Sound p q (run y0 y1)) :
    Sound p q (State.accessAt s w here run) := by
  unfold State.accessAt
  repeat' first
    | with_reducible assumption
    | with_reducible apply foldl_sound
    | with_reducible apply hrun
    | with_reducible apply State.access_sound
    | with_reducible refine Sound.snd_of (by with_reducible assumption) ?_
    | with_reducible refine Sound.thd_of (by with_reducible assumption) ?_
    | intro _
    | split
    | dsimp only
    | with_reducible refine Sound.of_mk ?_ rfl rfl rfl rfl rfl rfl rfl rfl rfl rfl rfl rfl rfl

theorem State.mirrorWrite_sound {before : State} {after : State} (a : RegAcc) (latch : Nat) (sel : Nat) (hafter : Sound p q after) :
    Sound p q (State.mirrorWrite before after a latch sel) := by
  unfold State.mirrorWrite
  repeat' first
    | with_reducible assumption
    | with_reducible apply foldl_sound
    | with_reducible apply State.mirror_sound
    | with_reducible refine Sound.snd_of (by with_reducible assumption) ?_
    | with_reducible refine Sound.thd_of (by with_reducible assumption) ?_
    | intro _
    | split
    | dsimp only
    | with_reducible refine Sound.of_mk ?_ rfl rfl rfl rfl rfl rfl rfl rfl rfl rfl rfl rfl rfl

end Sys2Proof.Machine
end

