-- ==== Sys2Proof/Laws/SoundLog.lean ====
section
/-! SUPPORT. Every operation of Machine/Log.lean keeps the invariant of Safety.lean. -/

namespace Sys2Proof.Machine

set_option Elab.async false
set_option linter.all false

variable {p : Part} {q : List Instr}

theorem State.logEntry_sound {s : State} (cls : Nat) (code : Nat) (source : Nat) (info : Nat) (fn : Nat) (hs : Sound p q s) :
    Sound p q (State.logEntry s cls code source info fn) := by
  unfold State.logEntry
  repeat' first
    | with_reducible assumption
    | with_reducible apply foldl_sound
    | with_reducible apply State.setFld_sound
    | with_reducible apply State.satFld_sound
    | with_reducible apply State.event_sound
    | with_reducible refine Sound.snd_of (by with_reducible assumption) ?_
    | with_reducible refine Sound.thd_of (by with_reducible assumption) ?_
    | intro _
    | split
    | dsimp only
    | with_reducible refine Sound.of_mk ?_ rfl rfl rfl rfl rfl rfl rfl rfl rfl rfl rfl rfl rfl

theorem State.report_sound {s : State} (cls : Nat) (code : Nat) (source : Nat) (info : Nat) (fn : Nat) (hs : Sound p q s) :
    Sound p q (State.report s cls code source info fn) := by
  unfold State.report
  repeat' first
    | with_reducible assumption
    | with_reducible apply foldl_sound
    | with_reducible apply State.satFld_sound
    | with_reducible apply State.event_sound
    | with_reducible apply State.logEntry_sound
    | with_reducible refine Sound.snd_of (by with_reducible assumption) ?_
    | with_reducible refine Sound.thd_of (by with_reducible assumption) ?_
    | intro _
    | split
    | dsimp only
    | with_reducible refine Sound.of_mk ?_ rfl rfl rfl rfl rfl rfl rfl rfl rfl rfl rfl rfl rfl

theorem State.reportContained_sound {s : State} (pg : Page) (code : Nat) (info : Nat) (fn : Nat) (hs : Sound p q s) :
    Sound p q (State.reportContained s pg code info fn) := by
  unfold State.reportContained
  repeat' first
    | with_reducible assumption
    | with_reducible apply foldl_sound
    | with_reducible apply State.report_sound
    | with_reducible refine Sound.snd_of (by with_reducible assumption) ?_
    | with_reducible refine Sound.thd_of (by with_reducible assumption) ?_
    | intro _
    | split
    | dsimp only
    | with_reducible refine Sound.of_mk ?_ rfl rfl rfl rfl rfl rfl rfl rfl rfl rfl rfl rfl rfl

theorem State.reportCorrected_sound {s : State} (pg : Page) (code : Nat) (info : Nat) (hs : Sound p q s) :
    Sound p q (State.reportCorrected s pg code info) := by
  unfold State.reportCorrected
  repeat' first
    | with_reducible assumption
    | with_reducible apply foldl_sound
    | with_reducible apply State.report_sound
    | with_reducible refine Sound.snd_of (by with_reducible assumption) ?_
    | with_reducible refine Sound.thd_of (by with_reducible assumption) ?_
    | intro _
    | split
    | dsimp only
    | with_reducible refine Sound.of_mk ?_ rfl rfl rfl rfl rfl rfl rfl rfl rfl rfl rfl rfl rfl

theorem State.logInfo_sound {s : State} (pg : Page) (code : Nat) (info : Nat) (hs : Sound p q s) :
    Sound p q (State.logInfo s pg code info) := by
  unfold State.logInfo
  repeat' first
    | with_reducible assumption
    | with_reducible apply foldl_sound
    | with_reducible apply State.logEntry_sound
    | with_reducible refine Sound.snd_of (by with_reducible assumption) ?_
    | with_reducible refine Sound.thd_of (by with_reducible assumption) ?_
    | intro _
    | split
    | dsimp only
    | with_reducible refine Sound.of_mk ?_ rfl rfl rfl rfl rfl rfl rfl rfl rfl rfl rfl rfl rfl

theorem State.containOutput_sound {s : State} (pg : Page) (n : Nat) (code : Nat) (info : Nat) (fn : Nat) (hs : Sound p q s) :
    Sound p q (State.containOutput s pg n code info fn) := by
  unfold State.containOutput
  repeat' first
    | with_reducible assumption
    | with_reducible apply foldl_sound
    | with_reducible apply State.reportContained_sound
    | with_reducible refine Sound.snd_of (by with_reducible assumption) ?_
    | with_reducible refine Sound.thd_of (by with_reducible assumption) ?_
    | intro _
    | split
    | dsimp only
    | with_reducible refine Sound.of_mk ?_ rfl rfl rfl rfl rfl rfl rfl rfl rfl rfl rfl rfl rfl

end Sys2Proof.Machine
end

