-- ==== Sys2Proof/Laws/SoundMemory.lean ====
section
/-! SUPPORT. Every operation of Machine/Memory.lean keeps the invariant of Safety.lean. -/

namespace Sys2Proof.Machine

set_option Elab.async false
set_option linter.all false

variable {p : Part} {q : List Instr}


theorem Sound.setMem {s : State} {m : List Host.Cell} (hs : Sound p q s) (hm : Memory.wf m = true) :
    Sound p q { s with mem := m } :=
  ⟨hs.part, hs.queue, hm, hs.regs, hs.shad, hs.copyRegs, hs.copyShad, hs.flash, hs.time, hs.jobs, hs.tables⟩

theorem State.settleCredit_sound {s : State} (hs : Sound p q s) :
    Sound p q (State.settleCredit s) := by
  unfold State.settleCredit
  repeat' first
    | with_reducible assumption
    | with_reducible apply foldl_sound
    | with_reducible refine Sound.snd_of (by with_reducible assumption) ?_
    | with_reducible refine Sound.thd_of (by with_reducible assumption) ?_
    | intro _
    | split
    | dsimp only
    | with_reducible refine Sound.of_mk ?_ rfl rfl rfl rfl rfl rfl rfl rfl rfl rfl rfl rfl rfl

theorem State.storeWord_sound {s : State} (a : Nat) (w : Nat) (hs : Sound p q s) : Sound p q (State.storeWord s a w) := by
  unfold State.storeWord
  split
  · exact hs.setMem (Memory.wf_writeN _ _ _ hs.mem)
  · exact hs.setMem (Memory.wf_writeN _ _ _ (Memory.wf_writeN _ _ _ hs.mem))

theorem State.storePoison_sound {s : State} (a : Nat) (hs : Sound p q s) : Sound p q (State.storePoison s a) := by
  unfold State.storePoison
  split
  · exact hs
  · exact hs.setMem (Memory.wf_writeN _ _ _ (Memory.wf_writeN _ _ _ hs.mem))

theorem State.pokeBytes_sound {s : State} (a : Nat) (n : Nat) (v : Nat) (hs : Sound p q s) :
    Sound p q (State.pokeBytes s a n v) := by
  unfold State.pokeBytes
  repeat' first
    | with_reducible assumption
    | with_reducible apply foldl_sound
    | with_reducible apply State.storeWord_sound
    | with_reducible refine Sound.snd_of (by with_reducible assumption) ?_
    | with_reducible refine Sound.thd_of (by with_reducible assumption) ?_
    | intro _
    | split
    | dsimp only
    | with_reducible refine Sound.of_mk ?_ rfl rfl rfl rfl rfl rfl rfl rfl rfl rfl rfl rfl rfl

theorem State.setOwnEntry_sound {s : State} (x1 : Nat) (e : Nat) (hs : Sound p q s) :
    Sound p q (State.setOwnEntry s x1 e) := by
  unfold State.setOwnEntry
  repeat' first
    | with_reducible assumption
    | with_reducible apply foldl_sound
    | with_reducible apply State.pokeBytes_sound
    | with_reducible refine Sound.snd_of (by with_reducible assumption) ?_
    | with_reducible refine Sound.thd_of (by with_reducible assumption) ?_
    | intro _
    | split
    | dsimp only
    | with_reducible refine Sound.of_mk ?_ rfl rfl rfl rfl rfl rfl rfl rfl rfl rfl rfl rfl rfl

theorem State.clearWritten_sound {s : State} (x1 : Nat) (hs : Sound p q s) :
    Sound p q (State.clearWritten s x1) := by
  unfold State.clearWritten
  repeat' first
    | with_reducible assumption
    | with_reducible apply foldl_sound
    | with_reducible apply State.setOwnEntry_sound
    | with_reducible refine Sound.snd_of (by with_reducible assumption) ?_
    | with_reducible refine Sound.thd_of (by with_reducible assumption) ?_
    | intro _
    | split
    | dsimp only
    | with_reducible refine Sound.of_mk ?_ rfl rfl rfl rfl rfl rfl rfl rfl rfl rfl rfl rfl rfl

theorem State.edacCopy_sound {s : State} (w0 : Nat) (kind : Nat) (hs : Sound p q s) :
    Sound p q (State.edacCopy s w0 kind) := by
  unfold State.edacCopy
  repeat' first
    | with_reducible assumption
    | with_reducible apply foldl_sound
    | with_reducible apply State.logEntry_sound
    | with_reducible refine Sound.snd_of (by with_reducible assumption) ?_
    | with_reducible refine Sound.thd_of (by with_reducible assumption) ?_
    | intro _
    | split
    | dsimp only
    | with_reducible refine Sound.of_mk ?_ rfl rfl rfl rfl rfl rfl rfl rfl rfl rfl rfl rfl rfl

theorem State.edacLog_sound {s : State} (who : Attr) (a : Nat) (kind : Nat) (position : Nat) (hs : Sound p q s) :
    Sound p q (State.edacLog s who a kind position) := by
  unfold State.edacLog
  repeat' first
    | with_reducible assumption
    | with_reducible apply foldl_sound
    | with_reducible apply State.setFld_sound
    | with_reducible apply State.satFld_sound
    | with_reducible apply State.event_sound
    | with_reducible apply State.edacCopy_sound
    | with_reducible refine Sound.snd_of (by with_reducible assumption) ?_
    | with_reducible refine Sound.thd_of (by with_reducible assumption) ?_
    | intro _
    | split
    | dsimp only
    | with_reducible refine Sound.of_mk ?_ rfl rfl rfl rfl rfl rfl rfl rfl rfl rfl rfl rfl rfl

theorem State.noteCorrected_sound {s : State} (who : Attr) (a : Nat) (w : Nat) (position : Nat) (hs : Sound p q s) :
    Sound p q (State.noteCorrected s who a w position) := by
  unfold State.noteCorrected
  repeat' first
    | with_reducible assumption
    | with_reducible apply foldl_sound
    | with_reducible apply State.satFld_sound
    | with_reducible apply State.event_sound
    | with_reducible apply State.storeWord_sound
    | with_reducible apply State.edacLog_sound
    | with_reducible refine Sound.snd_of (by with_reducible assumption) ?_
    | with_reducible refine Sound.thd_of (by with_reducible assumption) ?_
    | intro _
    | split
    | dsimp only
    | with_reducible refine Sound.of_mk ?_ rfl rfl rfl rfl rfl rfl rfl rfl rfl rfl rfl rfl rfl

theorem State.noteUncorrectable_sound {s : State} (who : Attr) (a : Nat) (kind : Nat) (hs : Sound p q s) :
    Sound p q (State.noteUncorrectable s who a kind) := by
  unfold State.noteUncorrectable
  repeat' first
    | with_reducible assumption
    | with_reducible apply foldl_sound
    | with_reducible apply State.satFld_sound
    | with_reducible apply State.event_sound
    | with_reducible apply State.storePoison_sound
    | with_reducible apply State.clearWritten_sound
    | with_reducible apply State.edacLog_sound
    | with_reducible refine Sound.snd_of (by with_reducible assumption) ?_
    | with_reducible refine Sound.thd_of (by with_reducible assumption) ?_
    | intro _
    | split
    | dsimp only
    | with_reducible refine Sound.of_mk ?_ rfl rfl rfl rfl rfl rfl rfl rfl rfl rfl rfl rfl rfl

theorem State.readWord_sound {s : State} (who : Attr) (a : Nat) (hs : Sound p q s) :
    Sound p q (State.readWord s who a).2.2 := by
  unfold State.readWord
  repeat' first
    | with_reducible assumption
    | with_reducible apply foldl_sound
    | with_reducible apply State.satFld_sound
    | with_reducible apply State.noteCorrected_sound
    | with_reducible apply State.noteUncorrectable_sound
    | with_reducible refine Sound.snd_of (by with_reducible assumption) ?_
    | with_reducible refine Sound.thd_of (by with_reducible assumption) ?_
    | intro _
    | split
    | dsimp only
    | with_reducible refine Sound.of_mk ?_ rfl rfl rfl rfl rfl rfl rfl rfl rfl rfl rfl rfl rfl

theorem State.missOwner_sound {s : State} (who : Attr) (x2 : Nat) (hs : Sound p q s) :
    Sound p q (State.missOwner s who x2).2 := by
  unfold State.missOwner
  repeat' first
    | with_reducible assumption
    | with_reducible apply foldl_sound
    | with_reducible apply State.addFld_sound
    | with_reducible apply State.event_sound
    | with_reducible apply State.recErr_sound
    | with_reducible apply State.pmcCount_sound
    | with_reducible apply State.reportContained_sound
    | with_reducible apply State.readWord_sound
    | with_reducible refine Sound.snd_of (by with_reducible assumption) ?_
    | with_reducible refine Sound.thd_of (by with_reducible assumption) ?_
    | intro _
    | split
    | dsimp only
    | with_reducible refine Sound.of_mk ?_ rfl rfl rfl rfl rfl rfl rfl rfl rfl rfl rfl rfl rfl

theorem State.lookupOwner_sound {s : State} (who : Attr) (x2 : Nat) (hs : Sound p q s) :
    Sound p q (State.lookupOwner s who x2).2 := by
  unfold State.lookupOwner
  repeat' first
    | with_reducible assumption
    | with_reducible apply foldl_sound
    | with_reducible apply State.addFld_sound
    | with_reducible apply State.missOwner_sound
    | with_reducible refine Sound.snd_of (by with_reducible assumption) ?_
    | with_reducible refine Sound.thd_of (by with_reducible assumption) ?_
    | intro _
    | split
    | dsimp only
    | with_reducible refine Sound.of_mk ?_ rfl rfl rfl rfl rfl rfl rfl rfl rfl rfl rfl rfl rfl

theorem State.checkDram_sound {s : State} (who : Attr) (write : Bool) (a : Nat) (hs : Sound p q s) :
    Sound p q (State.checkDram s who write a).2 := by
  unfold State.checkDram
  repeat' first
    | with_reducible assumption
    | with_reducible apply foldl_sound
    | with_reducible apply State.lookupOwner_sound
    | with_reducible refine Sound.snd_of (by with_reducible assumption) ?_
    | with_reducible refine Sound.thd_of (by with_reducible assumption) ?_
    | intro _
    | split
    | dsimp only
    | with_reducible refine Sound.of_mk ?_ rfl rfl rfl rfl rfl rfl rfl rfl rfl rfl rfl rfl rfl

theorem State.guardDram_sound {s : State} (who : Attr) (write : Bool) (a : Nat) (hs : Sound p q s) :
    Sound p q (State.guardDram s who write a).2 := by
  unfold State.guardDram
  repeat' first
    | with_reducible assumption
    | with_reducible apply foldl_sound
    | with_reducible apply State.deny_sound
    | with_reducible apply State.checkDram_sound
    | with_reducible refine Sound.snd_of (by with_reducible assumption) ?_
    | with_reducible refine Sound.thd_of (by with_reducible assumption) ?_
    | intro _
    | split
    | dsimp only
    | with_reducible refine Sound.of_mk ?_ rfl rfl rfl rfl rfl rfl rfl rfl rfl rfl rfl rfl rfl

theorem State.writeWordAs_sound {s : State} (who : Attr) (a : Nat) (w : Nat) (hs : Sound p q s) :
    Sound p q (State.writeWordAs s who a w).2 := by
  unfold State.writeWordAs
  repeat' first
    | with_reducible assumption
    | with_reducible apply foldl_sound
    | with_reducible apply State.pmcCount_sound
    | with_reducible apply State.storeWord_sound
    | with_reducible apply State.guardDram_sound
    | with_reducible refine Sound.snd_of (by with_reducible assumption) ?_
    | with_reducible refine Sound.thd_of (by with_reducible assumption) ?_
    | intro _
    | split
    | dsimp only
    | with_reducible refine Sound.of_mk ?_ rfl rfl rfl rfl rfl rfl rfl rfl rfl rfl rfl rfl rfl

theorem State.readWordAs_sound {s : State} (who : Attr) (a : Nat) (hs : Sound p q s) :
    Sound p q (State.readWordAs s who a).2.2 := by
  unfold State.readWordAs
  repeat' first
    | with_reducible assumption
    | with_reducible apply foldl_sound
    | with_reducible apply State.pmcCount_sound
    | with_reducible apply State.readWord_sound
    | with_reducible apply State.guardDram_sound
    | with_reducible refine Sound.snd_of (by with_reducible assumption) ?_
    | with_reducible refine Sound.thd_of (by with_reducible assumption) ?_
    | intro _
    | split
    | dsimp only
    | with_reducible refine Sound.of_mk ?_ rfl rfl rfl rfl rfl rfl rfl rfl rfl rfl rfl rfl rfl

end Sys2Proof.Machine
end

