-- ==== Sys2Proof/Laws/SoundWorlds.lean ====
section
/-! SUPPORT. Every operation of Machine/Worlds.lean keeps the invariant of Safety.lean. -/

namespace Sys2Proof.Machine

set_option Elab.async false
set_option linter.all false

variable {p : Part} {q : List Instr}

theorem State.watermarkWrite_sound (a : RegAcc) {s : State} (hs : Sound p q s) :
    Sound p q (State.watermarkWrite a s) := by
  unfold State.watermarkWrite
  repeat' first
    | with_reducible assumption
    | with_reducible apply foldl_sound
    | with_reducible apply State.refuse_sound
    | with_reducible apply State.plainWrite_sound
    | with_reducible refine Sound.snd_of (by with_reducible assumption) ?_
    | with_reducible refine Sound.thd_of (by with_reducible assumption) ?_
    | intro _
    | split
    | dsimp only
    | with_reducible refine Sound.of_mk ?_ rfl rfl rfl rfl rfl rfl rfl rfl rfl rfl rfl rfl rfl

theorem State.denyClear_sound (a : RegAcc) {s : State} (hs : Sound p q s) :
    Sound p q (State.denyClear a s) := by
  unfold State.denyClear
  repeat' first
    | with_reducible assumption
    | with_reducible apply foldl_sound
    | with_reducible apply State.setRw_sound
    | with_reducible apply State.recRefused_sound
    | with_reducible refine Sound.snd_of (by with_reducible assumption) ?_
    | with_reducible refine Sound.thd_of (by with_reducible assumption) ?_
    | intro _
    | split
    | dsimp only
    | with_reducible refine Sound.of_mk ?_ rfl rfl rfl rfl rfl rfl rfl rfl rfl rfl rfl rfl rfl

theorem State.holdWrite_sound (a : RegAcc) {s : State} (hs : Sound p q s) :
    Sound p q (State.holdWrite a s) := by
  unfold State.holdWrite
  repeat' first
    | with_reducible assumption
    | with_reducible apply foldl_sound
    | with_reducible apply State.plainWrite_sound
    | with_reducible refine Sound.snd_of (by with_reducible assumption) ?_
    | with_reducible refine Sound.thd_of (by with_reducible assumption) ?_
    | intro _
    | split
    | dsimp only
    | with_reducible refine Sound.of_mk ?_ rfl rfl rfl rfl rfl rfl rfl rfl rfl rfl rfl rfl rfl

theorem State.setCore_sound {s : State} (k : Nat) (c : Core4) (hs : Sound p q s) :
    Sound p q (State.setCore s k c) := by
  unfold State.setCore
  repeat' first
    | with_reducible assumption
    | with_reducible apply foldl_sound
    | with_reducible refine Sound.snd_of (by with_reducible assumption) ?_
    | with_reducible refine Sound.thd_of (by with_reducible assumption) ?_
    | intro _
    | split
    | dsimp only
    | with_reducible refine Sound.of_mk ?_ rfl rfl rfl rfl rfl rfl rfl rfl rfl rfl rfl rfl rfl

theorem State.freezeCore_sound {s : State} (k : Nat) (on : Bool) (hs : Sound p q s) :
    Sound p q (State.freezeCore s k on) := by
  unfold State.freezeCore
  repeat' first
    | with_reducible assumption
    | with_reducible apply foldl_sound
    | with_reducible apply State.setFld_sound
    | with_reducible refine Sound.snd_of (by with_reducible assumption) ?_
    | with_reducible refine Sound.thd_of (by with_reducible assumption) ?_
    | intro _
    | split
    | dsimp only
    | with_reducible refine Sound.of_mk ?_ rfl rfl rfl rfl rfl rfl rfl rfl rfl rfl rfl rfl rfl

theorem State.markCore_sound {s : State} (k : Nat) (on : Bool) (hs : Sound p q s) :
    Sound p q (State.markCore s k on) := by
  unfold State.markCore
  repeat' first
    | with_reducible assumption
    | with_reducible apply foldl_sound
    | with_reducible apply State.setFld_sound
    | with_reducible refine Sound.snd_of (by with_reducible assumption) ?_
    | with_reducible refine Sound.thd_of (by with_reducible assumption) ?_
    | intro _
    | split
    | dsimp only
    | with_reducible refine Sound.of_mk ?_ rfl rfl rfl rfl rfl rfl rfl rfl rfl rfl rfl rfl rfl

theorem State.scrub_sound {s : State} (k : Nat) (r0 : Nat) (r1 : Nat) (hs : Sound p q s) :
    Sound p q (State.scrub s k r0 r1) := by
  unfold State.scrub
  repeat' first
    | with_reducible assumption
    | with_reducible apply foldl_sound
    | with_reducible apply State.emit_sound
    | with_reducible apply State.setCore_sound
    | with_reducible apply State.freezeCore_sound
    | with_reducible apply State.markCore_sound
    | with_reducible refine Sound.snd_of (by with_reducible assumption) ?_
    | with_reducible refine Sound.thd_of (by with_reducible assumption) ?_
    | intro _
    | split
    | dsimp only
    | with_reducible refine Sound.of_mk ?_ rfl rfl rfl rfl rfl rfl rfl rfl rfl rfl rfl rfl rfl

theorem State.gateReturn_sound {s : State} (k : Nat) (r0 : Nat) (r1 : Nat) (hs : Sound p q s) :
    Sound p q (State.gateReturn s k r0 r1) := by
  unfold State.gateReturn
  repeat' first
    | with_reducible assumption
    | with_reducible apply foldl_sound
    | with_reducible apply State.scrub_sound
    | with_reducible refine Sound.snd_of (by with_reducible assumption) ?_
    | with_reducible refine Sound.thd_of (by with_reducible assumption) ?_
    | intro _
    | split
    | dsimp only
    | with_reducible refine Sound.of_mk ?_ rfl rfl rfl rfl rfl rfl rfl rfl rfl rfl rfl rfl rfl

theorem State.gateTimeout_sound {s : State} (k : Nat) (hs : Sound p q s) :
    Sound p q (State.gateTimeout s k) := by
  unfold State.gateTimeout
  repeat' first
    | with_reducible assumption
    | with_reducible apply foldl_sound
    | with_reducible apply State.takeFree_sound
    | with_reducible apply State.event_sound
    | with_reducible apply State.scrub_sound
    | with_reducible refine Sound.snd_of (by with_reducible assumption) ?_
    | with_reducible refine Sound.thd_of (by with_reducible assumption) ?_
    | intro _
    | split
    | dsimp only
    | with_reducible refine Sound.of_mk ?_ rfl rfl rfl rfl rfl rfl rfl rfl rfl rfl rfl rfl rfl

theorem State.pmcSelWrite_sound (a : RegAcc) {s : State} (hs : Sound p q s) :
    Sound p q (State.pmcSelWrite a s) := by
  unfold State.pmcSelWrite
  repeat' first
    | with_reducible assumption
    | with_reducible apply foldl_sound
    | with_reducible apply State.refuse_sound
    | with_reducible apply State.plainWrite_sound
    | with_reducible refine Sound.snd_of (by with_reducible assumption) ?_
    | with_reducible refine Sound.thd_of (by with_reducible assumption) ?_
    | intro _
    | split
    | dsimp only
    | with_reducible refine Sound.of_mk ?_ rfl rfl rfl rfl rfl rfl rfl rfl rfl rfl rfl rfl rfl

theorem State.pmcCtrlWrite_sound (a : RegAcc) {s : State} (hs : Sound p q s) :
    Sound p q (State.pmcCtrlWrite a s) := by
  unfold State.pmcCtrlWrite
  repeat' first
    | with_reducible assumption
    | with_reducible apply foldl_sound
    | with_reducible apply State.setFld_sound
    | with_reducible apply State.plainWrite_sound
    | with_reducible refine Sound.snd_of (by with_reducible assumption) ?_
    | with_reducible refine Sound.thd_of (by with_reducible assumption) ?_
    | intro _
    | split
    | dsimp only
    | with_reducible refine Sound.of_mk ?_ rfl rfl rfl rfl rfl rfl rfl rfl rfl rfl rfl rfl rfl

end Sys2Proof.Machine
end

