-- ==== Sys2Proof/Laws/SoundAgeing.lean ====
section
/-! SUPPORT. Every operation of Machine/Ageing.lean keeps the invariant of Safety.lean. -/

namespace Sys2Proof.Machine

set_option Elab.async false
set_option linter.all false

variable {p : Part} {q : List Instr}

theorem State.ageStat_sound {s : State} (hs : Sound p q s) :
    Sound p q (State.ageStat s) := by
  unfold State.ageStat
  repeat' first
    | with_reducible assumption
    | with_reducible apply foldl_sound
    | with_reducible apply State.setFld_sound
    | with_reducible refine Sound.snd_of (by with_reducible assumption) ?_
    | with_reducible refine Sound.thd_of (by with_reducible assumption) ?_
    | intro _
    | split
    | dsimp only
    | with_reducible refine Sound.of_mk ?_ rfl rfl rfl rfl rfl rfl rfl rfl rfl rfl rfl rfl rfl

theorem State.setAge_sound {s : State} (a : Age) (hs : Sound p q s) :
    Sound p q (State.setAge s a) := by
  unfold State.setAge
  repeat' first
    | with_reducible assumption
    | with_reducible apply foldl_sound
    | with_reducible apply State.ageStat_sound
    | with_reducible refine Sound.snd_of (by with_reducible assumption) ?_
    | with_reducible refine Sound.thd_of (by with_reducible assumption) ?_
    | intro _
    | split
    | dsimp only
    | with_reducible refine Sound.of_mk ?_ rfl rfl rfl rfl rfl rfl rfl rfl rfl rfl rfl rfl rfl

theorem State.surveyDue_sound {s : State} (cause : Nat) (hs : Sound p q s) :
    Sound p q (State.surveyDue s cause) := by
  unfold State.surveyDue
  repeat' first
    | with_reducible assumption
    | with_reducible apply foldl_sound
    | with_reducible apply State.setAge_sound
    | with_reducible refine Sound.snd_of (by with_reducible assumption) ?_
    | with_reducible refine Sound.thd_of (by with_reducible assumption) ?_
    | intro _
    | split
    | dsimp only
    | with_reducible refine Sound.of_mk ?_ rfl rfl rfl rfl rfl rfl rfl rfl rfl rfl rfl rfl rfl

theorem State.ageCtrlWrite_sound (a : RegAcc) {s : State} (hs : Sound p q s) :
    Sound p q (State.ageCtrlWrite a s) := by
  unfold State.ageCtrlWrite
  repeat' first
    | with_reducible assumption
    | with_reducible apply foldl_sound
    | with_reducible apply State.recErr_sound
    | with_reducible apply State.recAcc_sound
    | with_reducible apply State.plainWrite_sound
    | with_reducible apply State.surveyDue_sound
    | with_reducible refine Sound.snd_of (by with_reducible assumption) ?_
    | with_reducible refine Sound.thd_of (by with_reducible assumption) ?_
    | intro _
    | split
    | dsimp only
    | with_reducible refine Sound.of_mk ?_ rfl rfl rfl rfl rfl rfl rfl rfl rfl rfl rfl rfl rfl

theorem State.reduceIsland_sound {s : State} (i : Nat) (sl : Int) (tj : Int) (hs : Sound p q s) :
    Sound p q (State.reduceIsland s i sl tj) := by
  unfold State.reduceIsland
  repeat' first
    | with_reducible assumption
    | with_reducible apply foldl_sound
    | with_reducible apply State.event_sound
    | with_reducible apply State.reportContained_sound
    | with_reducible refine Sound.snd_of (by with_reducible assumption) ?_
    | with_reducible refine Sound.thd_of (by with_reducible assumption) ?_
    | intro _
    | split
    | dsimp only
    | with_reducible refine Sound.of_mk ?_ rfl rfl rfl rfl rfl rfl rfl rfl rfl rfl rfl rfl rfl

theorem State.surveyEnd_sound {s : State} (tj : Int) (m : List (Int × Nat)) (hs : Sound p q s) :
    Sound p q (State.surveyEnd s tj m) := by
  unfold State.surveyEnd
  repeat' first
    | with_reducible assumption
    | with_reducible apply foldl_sound
    | with_reducible apply State.setFld_sound
    | with_reducible apply State.satFld_sound
    | with_reducible apply State.event_sound
    | with_reducible apply State.reportCorrected_sound
    | with_reducible apply State.setAge_sound
    | with_reducible apply State.reduceIsland_sound
    | with_reducible refine Sound.snd_of (by with_reducible assumption) ?_
    | with_reducible refine Sound.thd_of (by with_reducible assumption) ?_
    | intro _
    | split
    | dsimp only
    | with_reducible refine Sound.of_mk ?_ rfl rfl rfl rfl rfl rfl rfl rfl rfl rfl rfl rfl rfl

theorem State.storeLedger_sound {s : State} (hs : Sound p q s) :
    Sound p q (State.storeLedger s) := by
  unfold State.storeLedger
  repeat' first
    | with_reducible assumption
    | with_reducible apply foldl_sound
    | with_reducible refine Sound.snd_of (by with_reducible assumption) ?_
    | with_reducible refine Sound.thd_of (by with_reducible assumption) ?_
    | intro _
    | split
    | dsimp only
    | with_reducible refine Sound.of_mk ?_ rfl rfl rfl rfl rfl rfl rfl rfl rfl rfl rfl rfl rfl

theorem State.planDone_sound {s : State} (hs : Sound p q s) :
    Sound p q (State.planDone s) := by
  unfold State.planDone
  repeat' first
    | with_reducible assumption
    | with_reducible apply foldl_sound
    | with_reducible apply State.event_sound
    | with_reducible apply State.setAge_sound
    | with_reducible apply State.storeLedger_sound
    | with_reducible refine Sound.snd_of (by with_reducible assumption) ?_
    | with_reducible refine Sound.thd_of (by with_reducible assumption) ?_
    | intro _
    | split
    | dsimp only
    | with_reducible refine Sound.of_mk ?_ rfl rfl rfl rfl rfl rfl rfl rfl rfl rfl rfl rfl rfl

theorem State.planStep_sound {s : State} (hs : Sound p q s) :
    Sound p q (State.planStep s) := by
  unfold State.planStep
  repeat' first
    | with_reducible assumption
    | with_reducible apply foldl_sound
    | with_reducible apply State.planDone_sound
    | with_reducible refine Sound.snd_of (by with_reducible assumption) ?_
    | with_reducible refine Sound.thd_of (by with_reducible assumption) ?_
    | intro _
    | split
    | dsimp only
    | with_reducible refine Sound.of_mk ?_ rfl rfl rfl rfl rfl rfl rfl rfl rfl rfl rfl rfl rfl

theorem State.marginAlarm_sound {s : State} (i : Nat) (hs : Sound p q s) :
    Sound p q (State.marginAlarm s i) := by
  unfold State.marginAlarm
  repeat' first
    | with_reducible assumption
    | with_reducible apply foldl_sound
    | with_reducible apply State.event_sound
    | with_reducible apply State.reportContained_sound
    | with_reducible apply State.setAge_sound
    | with_reducible apply State.surveyDue_sound
    | with_reducible refine Sound.snd_of (by with_reducible assumption) ?_
    | with_reducible refine Sound.thd_of (by with_reducible assumption) ?_
    | intro _
    | split
    | dsimp only
    | with_reducible refine Sound.of_mk ?_ rfl rfl rfl rfl rfl rfl rfl rfl rfl rfl rfl rfl rfl

theorem State.poweredHour_sound {s : State} (hs : Sound p q s) :
    Sound p q (State.poweredHour s) := by
  unfold State.poweredHour
  repeat' first
    | with_reducible assumption
    | with_reducible apply foldl_sound
    | with_reducible apply State.surveyDue_sound
    | with_reducible refine Sound.snd_of (by with_reducible assumption) ?_
    | with_reducible refine Sound.thd_of (by with_reducible assumption) ?_
    | intro _
    | split
    | dsimp only
    | with_reducible refine Sound.of_mk ?_ rfl rfl rfl rfl rfl rfl rfl rfl rfl rfl rfl rfl rfl

theorem State.surveyDeferEnd_sound {s : State} (hs : Sound p q s) :
    Sound p q (State.surveyDeferEnd s) := by
  unfold State.surveyDeferEnd
  repeat' first
    | with_reducible assumption
    | with_reducible apply foldl_sound
    | with_reducible apply State.setAge_sound
    | with_reducible refine Sound.snd_of (by with_reducible assumption) ?_
    | with_reducible refine Sound.thd_of (by with_reducible assumption) ?_
    | intro _
    | split
    | dsimp only
    | with_reducible refine Sound.of_mk ?_ rfl rfl rfl rfl rfl rfl rfl rfl rfl rfl rfl rfl rfl

end Sys2Proof.Machine
end

