-- ==== Sys2Proof/Laws/SoundPool.lean ====
section
/-! SUPPORT. Every operation of Machine/Pool.lean keeps the invariant of Safety.lean. -/

namespace Sys2Proof.Machine

set_option Elab.async false
set_option linter.all false

variable {p : Part} {q : List Instr}


theorem SlotTable.sorted_update {α : Type} {t : SlotTable α} (i : Nat) (v : α) (h : Sparse.sortedFrom 0 t.used = true) :
    Sparse.sortedFrom 0 (t.update i v).used = true := Sparse.sortedFrom_put _ h (Nat.zero_le _)

theorem SlotTable.sorted_occupy {α : Type} {t : SlotTable α} (i : Nat) (v : α) (h : Sparse.sortedFrom 0 t.used = true) :
    Sparse.sortedFrom 0 (t.occupy i v).used = true := by
  unfold SlotTable.occupy
  split <;> exact Sparse.sortedFrom_put _ h (Nat.zero_le _)

theorem SlotTable.sorted_release {α : Type} {t : SlotTable α} (i last : Nat) (h : Sparse.sortedFrom 0 t.used = true) :
    Sparse.sortedFrom 0 (t.release i last).used = true := Sparse.sortedFrom_del _ h

theorem State.setChan_sound {s : State} (i : Nat) (c : Chan) (hs : Sound p q s) :
    Sound p q (State.setChan s i c) := by
  unfold State.setChan
  repeat' first
    | with_reducible refine Sound.of_tables ?_ (fun h => ⟨SlotTable.sorted_update _ _ h.chans, h.bufs⟩) rfl rfl rfl rfl rfl rfl rfl rfl rfl rfl rfl
    | with_reducible assumption
    | with_reducible apply foldl_sound
    | with_reducible refine Sound.snd_of (by with_reducible assumption) ?_
    | with_reducible refine Sound.thd_of (by with_reducible assumption) ?_
    | intro _
    | split
    | dsimp only
    | with_reducible refine Sound.of_mk ?_ rfl rfl rfl rfl rfl rfl rfl rfl rfl rfl rfl rfl rfl

theorem State.setBuf_sound {s : State} (i : Nat) (b : Buf) (hs : Sound p q s) :
    Sound p q (State.setBuf s i b) := by
  unfold State.setBuf
  repeat' first
    | with_reducible refine Sound.of_tables ?_ (fun h => ⟨h.chans, SlotTable.sorted_update _ _ h.bufs⟩) rfl rfl rfl rfl rfl rfl rfl rfl rfl rfl rfl
    | with_reducible assumption
    | with_reducible apply foldl_sound
    | with_reducible refine Sound.snd_of (by with_reducible assumption) ?_
    | with_reducible refine Sound.thd_of (by with_reducible assumption) ?_
    | intro _
    | split
    | dsimp only
    | with_reducible refine Sound.of_mk ?_ rfl rfl rfl rfl rfl rfl rfl rfl rfl rfl rfl rfl rfl

theorem State.noteLow_sound {before : State} {after : State} (hafter : Sound p q after) :
    Sound p q (State.noteLow before after) := by
  unfold State.noteLow
  repeat' first
    | with_reducible assumption
    | with_reducible apply foldl_sound
    | with_reducible apply State.event_sound
    | with_reducible refine Sound.snd_of (by with_reducible assumption) ?_
    | with_reducible refine Sound.thd_of (by with_reducible assumption) ?_
    | intro _
    | split
    | dsimp only
    | with_reducible refine Sound.of_mk ?_ rfl rfl rfl rfl rfl rfl rfl rfl rfl rfl rfl rfl rfl

theorem State.disown_sound {s : State} (x1 : Nat) (hs : Sound p q s) :
    Sound p q (State.disown s x1) := by
  unfold State.disown
  repeat' first
    | with_reducible assumption
    | with_reducible apply foldl_sound
    | with_reducible apply State.setOwnEntry_sound
    | with_reducible refine Sound.snd_of (by with_reducible assumption) ?_
    | with_reducible refine Sound.thd_of (by with_reducible assumption) ?_
    | intro _
    | split
    | dsimp only
    | with_reducible refine Sound.of_mk ?_ rfl rfl rfl rfl rfl rfl rfl rfl rfl rfl rfl rfl rfl

theorem State.returnPlots_sound {s : State} (ps : List Nat) (hs : Sound p q s) :
    Sound p q (State.returnPlots s ps) := by
  unfold State.returnPlots
  repeat' first
    | with_reducible assumption
    | with_reducible apply foldl_sound
    | with_reducible apply State.event_sound
    | with_reducible apply State.disown_sound
    | with_reducible refine Sound.snd_of (by with_reducible assumption) ?_
    | with_reducible refine Sound.thd_of (by with_reducible assumption) ?_
    | intro _
    | split
    | dsimp only
    | with_reducible refine Sound.of_mk ?_ rfl rfl rfl rfl rfl rfl rfl rfl rfl rfl rfl rfl rfl

theorem State.chanDrained_sound {s : State} (ci : Nat) (hs : Sound p q s) :
    Sound p q (State.chanDrained s ci) := by
  unfold State.chanDrained
  repeat' first
    | with_reducible refine Sound.of_tables ?_ (fun h => ⟨SlotTable.sorted_release _ _ h.chans, h.bufs⟩) rfl rfl rfl rfl rfl rfl rfl rfl rfl rfl rfl
    | with_reducible assumption
    | with_reducible apply foldl_sound
    | with_reducible apply State.event_sound
    | with_reducible apply State.finishMirrored_sound
    | with_reducible refine Sound.snd_of (by with_reducible assumption) ?_
    | with_reducible refine Sound.thd_of (by with_reducible assumption) ?_
    | intro _
    | split
    | dsimp only
    | with_reducible refine Sound.of_mk ?_ rfl rfl rfl rfl rfl rfl rfl rfl rfl rfl rfl rfl rfl

theorem State.releaseBuf_sound {s : State} (i : Nat) (hs : Sound p q s) :
    Sound p q (State.releaseBuf s i) := by
  unfold State.releaseBuf
  repeat' first
    | with_reducible refine Sound.of_tables ?_ (fun h => ⟨h.chans, SlotTable.sorted_release _ _ h.bufs⟩) rfl rfl rfl rfl rfl rfl rfl rfl rfl rfl rfl
    | with_reducible assumption
    | with_reducible apply foldl_sound
    | with_reducible apply State.noteLow_sound
    | with_reducible apply State.returnPlots_sound
    | with_reducible refine Sound.snd_of (by with_reducible assumption) ?_
    | with_reducible refine Sound.thd_of (by with_reducible assumption) ?_
    | intro _
    | split
    | dsimp only
    | with_reducible refine Sound.of_mk ?_ rfl rfl rfl rfl rfl rfl rfl rfl rfl rfl rfl rfl rfl

theorem State.freeBuf_sound {s : State} (i : Nat) (jid : Option Nat) (hs : Sound p q s) :
    Sound p q (State.freeBuf s i jid).2 := by
  unfold State.freeBuf
  repeat' first
    | with_reducible assumption
    | with_reducible apply foldl_sound
    | with_reducible apply State.setBuf_sound
    | with_reducible apply State.releaseBuf_sound
    | with_reducible refine Sound.snd_of (by with_reducible assumption) ?_
    | with_reducible refine Sound.thd_of (by with_reducible assumption) ?_
    | intro _
    | split
    | dsimp only
    | with_reducible refine Sound.of_mk ?_ rfl rfl rfl rfl rfl rfl rfl rfl rfl rfl rfl rfl rfl

theorem State.destroyChan_sound {s : State} (ci : Nat) (jid : Option Nat) (hs : Sound p q s) :
    Sound p q (State.destroyChan s ci jid).2 := by
  unfold State.destroyChan
  repeat' first
    | with_reducible refine Sound.of_tables ?_ (fun h => ⟨SlotTable.sorted_release _ _ h.chans, h.bufs⟩) rfl rfl rfl rfl rfl rfl rfl rfl rfl rfl rfl
    | with_reducible assumption
    | with_reducible apply foldl_sound
    | with_reducible apply State.setChan_sound
    | with_reducible apply State.freeBuf_sound
    | with_reducible refine Sound.snd_of (by with_reducible assumption) ?_
    | with_reducible refine Sound.thd_of (by with_reducible assumption) ?_
    | intro _
    | split
    | dsimp only
    | with_reducible refine Sound.of_mk ?_ rfl rfl rfl rfl rfl rfl rfl rfl rfl rfl rfl rfl rfl

theorem State.fence_sound {s : State} (i : Nat) (hs : Sound p q s) :
    Sound p q (State.fence s i) := by
  unfold State.fence
  repeat' first
    | with_reducible assumption
    | with_reducible apply foldl_sound
    | with_reducible apply State.setBuf_sound
    | with_reducible refine Sound.snd_of (by with_reducible assumption) ?_
    | with_reducible refine Sound.thd_of (by with_reducible assumption) ?_
    | intro _
    | split
    | dsimp only
    | with_reducible refine Sound.of_mk ?_ rfl rfl rfl rfl rfl rfl rfl rfl rfl rfl rfl rfl rfl

theorem State.unfence_sound {s : State} (i : Nat) (hs : Sound p q s) :
    Sound p q (State.unfence s i) := by
  unfold State.unfence
  repeat' first
    | with_reducible assumption
    | with_reducible apply foldl_sound
    | with_reducible apply State.event_sound
    | with_reducible apply State.finishMirrored_sound
    | with_reducible apply State.setBuf_sound
    | with_reducible apply State.chanDrained_sound
    | with_reducible apply State.releaseBuf_sound
    | with_reducible refine Sound.snd_of (by with_reducible assumption) ?_
    | with_reducible refine Sound.thd_of (by with_reducible assumption) ?_
    | intro _
    | split
    | dsimp only
    | with_reducible refine Sound.of_mk ?_ rfl rfl rfl rfl rfl rfl rfl rfl rfl rfl rfl rfl rfl

theorem State.addBuf_sound {s : State} (i : Nat) (b : Buf) (rest : Plots) (hs : Sound p q s) :
    Sound p q (State.addBuf s i b rest) := by
  unfold State.addBuf
  repeat' first
    | with_reducible refine Sound.of_tables ?_ (fun h => ⟨h.chans, SlotTable.sorted_occupy _ _ h.bufs⟩) rfl rfl rfl rfl rfl rfl rfl rfl rfl rfl rfl
    | with_reducible assumption
    | with_reducible apply foldl_sound
    | with_reducible refine Sound.snd_of (by with_reducible assumption) ?_
    | with_reducible refine Sound.thd_of (by with_reducible assumption) ?_
    | intro _
    | split
    | dsimp only
    | with_reducible refine Sound.of_mk ?_ rfl rfl rfl rfl rfl rfl rfl rfl rfl rfl rfl rfl rfl

theorem State.notePeak_sound {s : State} (f : Nat) (hs : Sound p q s) :
    Sound p q (State.notePeak s f) := by
  unfold State.notePeak
  repeat' first
    | with_reducible assumption
    | with_reducible apply foldl_sound
    | with_reducible refine Sound.snd_of (by with_reducible assumption) ?_
    | with_reducible refine Sound.thd_of (by with_reducible assumption) ?_
    | intro _
    | split
    | dsimp only
    | with_reducible refine Sound.of_mk ?_ rfl rfl rfl rfl rfl rfl rfl rfl rfl rfl rfl rfl rfl

theorem State.allocate_sound {s : State} (ci : Nat) (f : Nat) (size : Nat) (jid : Option Nat) (hs : Sound p q s) :
    Sound p q (State.allocate s ci f size jid).2 := by
  unfold State.allocate
  repeat' first
    | with_reducible assumption
    | with_reducible apply foldl_sound
    | with_reducible apply State.setOwnEntry_sound
    | with_reducible apply State.noteLow_sound
    | with_reducible apply State.addBuf_sound
    | with_reducible apply State.notePeak_sound
    | with_reducible refine Sound.snd_of (by with_reducible assumption) ?_
    | with_reducible refine Sound.thd_of (by with_reducible assumption) ?_
    | intro _
    | split
    | dsimp only
    | with_reducible refine Sound.of_mk ?_ rfl rfl rfl rfl rfl rfl rfl rfl rfl rfl rfl rfl rfl

theorem State.allocDone_sound {s : State} (j : Job) (i : Nat) (hs : Sound p q s) :
    Sound p q (State.allocDone s j i) := by
  unfold State.allocDone
  repeat' first
    | with_reducible assumption
    | with_reducible apply foldl_sound
    | with_reducible apply State.completeMirrored_sound
    | with_reducible apply State.setBuf_sound
    | with_reducible refine Sound.snd_of (by with_reducible assumption) ?_
    | with_reducible refine Sound.thd_of (by with_reducible assumption) ?_
    | intro _
    | split
    | dsimp only
    | with_reducible refine Sound.of_mk ?_ rfl rfl rfl rfl rfl rfl rfl rfl rfl rfl rfl rfl rfl

theorem State.carryChannelCreate_sound (j : Job) {s : State} (hs : Sound p q s) :
    Sound p q (State.carryChannelCreate j s) := by
  unfold State.carryChannelCreate
  repeat' first
    | with_reducible refine Sound.of_tables ?_ (fun h => ⟨SlotTable.sorted_occupy _ _ h.chans, h.bufs⟩) rfl rfl rfl rfl rfl rfl rfl rfl rfl rfl rfl
    | with_reducible assumption
    | with_reducible apply foldl_sound
    | with_reducible apply State.event_sound
    | with_reducible apply State.complete_sound
    | with_reducible apply State.completeMirrored_sound
    | with_reducible refine Sound.snd_of (by with_reducible assumption) ?_
    | with_reducible refine Sound.thd_of (by with_reducible assumption) ?_
    | intro _
    | split
    | dsimp only
    | with_reducible refine Sound.of_mk ?_ rfl rfl rfl rfl rfl rfl rfl rfl rfl rfl rfl rfl rfl

theorem State.carryChannelDestroy_sound (j : Job) {s : State} (hs : Sound p q s) :
    Sound p q (State.carryChannelDestroy j s) := by
  unfold State.carryChannelDestroy
  repeat' first
    | with_reducible assumption
    | with_reducible apply foldl_sound
    | with_reducible apply State.complete_sound
    | with_reducible apply State.completeMirrored_sound
    | with_reducible apply State.destroyChan_sound
    | with_reducible refine Sound.snd_of (by with_reducible assumption) ?_
    | with_reducible refine Sound.thd_of (by with_reducible assumption) ?_
    | intro _
    | split
    | dsimp only
    | with_reducible refine Sound.of_mk ?_ rfl rfl rfl rfl rfl rfl rfl rfl rfl rfl rfl rfl rfl

theorem State.carryBufferAlloc_sound (j : Job) {s : State} (hs : Sound p q s) :
    Sound p q (State.carryBufferAlloc j s) := by
  unfold State.carryBufferAlloc
  repeat' first
    | with_reducible assumption
    | with_reducible apply foldl_sound
    | with_reducible apply State.event_sound
    | with_reducible apply State.complete_sound
    | with_reducible apply State.allocate_sound
    | with_reducible apply State.allocDone_sound
    | with_reducible refine Sound.snd_of (by with_reducible assumption) ?_
    | with_reducible refine Sound.thd_of (by with_reducible assumption) ?_
    | intro _
    | split
    | dsimp only
    | with_reducible refine Sound.of_mk ?_ rfl rfl rfl rfl rfl rfl rfl rfl rfl rfl rfl rfl rfl

theorem State.carryBufferFree_sound (j : Job) {s : State} (hs : Sound p q s) :
    Sound p q (State.carryBufferFree j s) := by
  unfold State.carryBufferFree
  repeat' first
    | with_reducible assumption
    | with_reducible apply foldl_sound
    | with_reducible apply State.complete_sound
    | with_reducible apply State.completeMirrored_sound
    | with_reducible apply State.freeBuf_sound
    | with_reducible refine Sound.snd_of (by with_reducible assumption) ?_
    | with_reducible refine Sound.thd_of (by with_reducible assumption) ?_
    | intro _
    | split
    | dsimp only
    | with_reducible refine Sound.of_mk ?_ rfl rfl rfl rfl rfl rfl rfl rfl rfl rfl rfl rfl rfl

theorem State.carryBufferQuery_sound (j : Job) {s : State} (hs : Sound p q s) :
    Sound p q (State.carryBufferQuery j s) := by
  unfold State.carryBufferQuery
  repeat' first
    | with_reducible assumption
    | with_reducible apply foldl_sound
    | with_reducible apply State.complete_sound
    | with_reducible refine Sound.snd_of (by with_reducible assumption) ?_
    | with_reducible refine Sound.thd_of (by with_reducible assumption) ?_
    | intro _
    | split
    | dsimp only
    | with_reducible refine Sound.of_mk ?_ rfl rfl rfl rfl rfl rfl rfl rfl rfl rfl rfl rfl rfl

theorem State.zeroRange_sound {s : State} (a : Nat) (n : Nat) (hs : Sound p q s) : Sound p q (State.zeroRange s a n) := by
  exact hs.setMem (Sparse.wf_filter _ hs.mem)

theorem State.fillEnded_sound {s : State} (i : Nat) (b : Buf) (hs : Sound p q s) :
    Sound p q (State.fillEnded s i b) := by
  unfold State.fillEnded
  repeat' first
    | with_reducible assumption
    | with_reducible apply foldl_sound
    | with_reducible apply State.mirror_sound
    | with_reducible apply State.completeMirrored_sound
    | with_reducible apply State.setBuf_sound
    | with_reducible apply State.chanDrained_sound
    | with_reducible apply State.freeBuf_sound
    | with_reducible refine Sound.snd_of (by with_reducible assumption) ?_
    | with_reducible refine Sound.thd_of (by with_reducible assumption) ?_
    | intro _
    | split
    | dsimp only
    | with_reducible refine Sound.of_mk ?_ rfl rfl rfl rfl rfl rfl rfl rfl rfl rfl rfl rfl rfl

theorem State.plotFillDone_sound {s : State} (hs : Sound p q s) :
    Sound p q (State.plotFillDone s) := by
  unfold State.plotFillDone
  repeat' first
    | with_reducible assumption
    | with_reducible apply foldl_sound
    | with_reducible apply State.addFld_sound
    | with_reducible apply State.pmcCount_sound
    | with_reducible apply State.setBuf_sound
    | with_reducible apply State.zeroRange_sound
    | with_reducible apply State.fillEnded_sound
    | with_reducible refine Sound.snd_of (by with_reducible assumption) ?_
    | with_reducible refine Sound.thd_of (by with_reducible assumption) ?_
    | intro _
    | split
    | dsimp only
    | with_reducible refine Sound.of_mk ?_ rfl rfl rfl rfl rfl rfl rfl rfl rfl rfl rfl rfl rfl

theorem State.bankedWrite_sound (a : RegAcc) {s : State} (sel : Nat) (f : Fld) (accept : Nat → State → State) (hs : Sound p q s) (haccept : ∀ (y0 : Nat) (y1 : State), Sound p q y1 → Sound p q (accept y0 y1)) :
    Sound p q (State.bankedWrite a s sel f accept) := by
  unfold State.bankedWrite
  repeat' first
    | with_reducible assumption
    | with_reducible apply foldl_sound
    | with_reducible apply haccept
    | with_reducible apply State.recErr_sound
    | with_reducible apply State.recRefused_sound
    | with_reducible refine Sound.snd_of (by with_reducible assumption) ?_
    | with_reducible refine Sound.thd_of (by with_reducible assumption) ?_
    | intro _
    | split
    | dsimp only
    | with_reducible refine Sound.of_mk ?_ rfl rfl rfl rfl rfl rfl rfl rfl rfl rfl rfl rfl rfl

theorem State.quotaWrite_sound (a : RegAcc) {s : State} (hs : Sound p q s) :
    Sound p q (State.quotaWrite a s) := by
  unfold State.quotaWrite
  repeat' first
    | with_reducible assumption
    | with_reducible apply foldl_sound
    | with_reducible apply State.setRw_sound
    | with_reducible apply State.recErr_sound
    | with_reducible apply State.mirror_sound
    | with_reducible apply State.bankedWrite_sound
    | with_reducible refine Sound.snd_of (by with_reducible assumption) ?_
    | with_reducible refine Sound.thd_of (by with_reducible assumption) ?_
    | intro _
    | split
    | dsimp only
    | with_reducible refine Sound.of_mk ?_ rfl rfl rfl rfl rfl rfl rfl rfl rfl rfl rfl rfl rfl

theorem State.shareWrite_sound (a : RegAcc) {s : State} (hs : Sound p q s) :
    Sound p q (State.shareWrite a s) := by
  unfold State.shareWrite
  repeat' first
    | with_reducible assumption
    | with_reducible apply foldl_sound
    | with_reducible apply State.setRw_sound
    | with_reducible apply State.recErr_sound
    | with_reducible apply State.mirror_sound
    | with_reducible apply State.bankedWrite_sound
    | with_reducible refine Sound.snd_of (by with_reducible assumption) ?_
    | with_reducible refine Sound.thd_of (by with_reducible assumption) ?_
    | intro _
    | split
    | dsimp only
    | with_reducible refine Sound.of_mk ?_ rfl rfl rfl rfl rfl rfl rfl rfl rfl rfl rfl rfl rfl

theorem State.limitWrite_sound (a : RegAcc) {s : State} (hs : Sound p q s) :
    Sound p q (State.limitWrite a s) := by
  unfold State.limitWrite
  repeat' first
    | with_reducible assumption
    | with_reducible apply foldl_sound
    | with_reducible apply State.setRw_sound
    | with_reducible apply State.recErr_sound
    | with_reducible apply State.mirror_sound
    | with_reducible apply State.bankedWrite_sound
    | with_reducible refine Sound.snd_of (by with_reducible assumption) ?_
    | with_reducible refine Sound.thd_of (by with_reducible assumption) ?_
    | intro _
    | split
    | dsimp only
    | with_reducible refine Sound.of_mk ?_ rfl rfl rfl rfl rfl rfl rfl rfl rfl rfl rfl rfl rfl

theorem State.lowMarkWrite_sound (a : RegAcc) {s : State} (hs : Sound p q s) :
    Sound p q (State.lowMarkWrite a s) := by
  unfold State.lowMarkWrite
  repeat' first
    | with_reducible assumption
    | with_reducible apply foldl_sound
    | with_reducible apply State.plainWrite_sound
    | with_reducible apply State.mirrorWrite_sound
    | with_reducible apply State.noteLow_sound
    | with_reducible refine Sound.snd_of (by with_reducible assumption) ?_
    | with_reducible refine Sound.thd_of (by with_reducible assumption) ?_
    | intro _
    | split
    | dsimp only
    | with_reducible refine Sound.of_mk ?_ rfl rfl rfl rfl rfl rfl rfl rfl rfl rfl rfl rfl rfl

theorem State.peakClear_sound (a : RegAcc) {s : State} (hs : Sound p q s) :
    Sound p q (State.peakClear a s) := by
  unfold State.peakClear
  repeat' first
    | with_reducible assumption
    | with_reducible apply foldl_sound
    | with_reducible apply State.recErr_sound
    | with_reducible apply State.denyReg_sound
    | with_reducible refine Sound.snd_of (by with_reducible assumption) ?_
    | with_reducible refine Sound.thd_of (by with_reducible assumption) ?_
    | intro _
    | split
    | dsimp only
    | with_reducible refine Sound.of_mk ?_ rfl rfl rfl rfl rfl rfl rfl rfl rfl rfl rfl rfl rfl

theorem State.poolPlaceWrite_sound (a : RegAcc) {s : State} (hs : Sound p q s) :
    Sound p q (State.poolPlaceWrite a s) := by
  unfold State.poolPlaceWrite
  repeat' first
    | with_reducible assumption
    | with_reducible apply foldl_sound
    | with_reducible apply State.refuse_sound
    | with_reducible apply State.plainWrite_sound
    | with_reducible apply State.mirrorWrite_sound
    | with_reducible refine Sound.snd_of (by with_reducible assumption) ?_
    | with_reducible refine Sound.thd_of (by with_reducible assumption) ?_
    | intro _
    | split
    | dsimp only
    | with_reducible refine Sound.of_mk ?_ rfl rfl rfl rfl rfl rfl rfl rfl rfl rfl rfl rfl rfl

theorem State.retirePlot_sound {s : State} (x1 : Nat) (hs : Sound p q s) :
    Sound p q (State.retirePlot s x1) := by
  unfold State.retirePlot
  repeat' first
    | with_reducible assumption
    | with_reducible apply foldl_sound
    | with_reducible apply State.event_sound
    | with_reducible apply State.noteLow_sound
    | with_reducible refine Sound.snd_of (by with_reducible assumption) ?_
    | with_reducible refine Sound.thd_of (by with_reducible assumption) ?_
    | intro _
    | split
    | dsimp only
    | with_reducible refine Sound.of_mk ?_ rfl rfl rfl rfl rfl rfl rfl rfl rfl rfl rfl rfl rfl

theorem State.startPool_sound {s : State} (hs : Sound p q s) :
    Sound p q (State.startPool s) := by
  unfold State.startPool
  repeat' first
    | with_reducible assumption
    | with_reducible apply foldl_sound
    | with_reducible apply State.retirePlot_sound
    | with_reducible refine Sound.snd_of (by with_reducible assumption) ?_
    | with_reducible refine Sound.thd_of (by with_reducible assumption) ?_
    | intro _
    | split
    | dsimp only
    | with_reducible refine Sound.of_mk ?_ rfl rfl rfl rfl rfl rfl rfl rfl rfl rfl rfl rfl rfl

theorem State.poolEnable_sound (a : RegAcc) {s : State} (hs : Sound p q s) :
    Sound p q (State.poolEnable a s) := by
  unfold State.poolEnable
  repeat' first
    | with_reducible assumption
    | with_reducible apply foldl_sound
    | with_reducible apply State.setFld_sound
    | with_reducible apply State.recErr_sound
    | with_reducible apply State.mirrorWrite_sound
    | with_reducible apply State.noteLow_sound
    | with_reducible apply State.startPool_sound
    | with_reducible refine Sound.snd_of (by with_reducible assumption) ?_
    | with_reducible refine Sound.thd_of (by with_reducible assumption) ?_
    | intro _
    | split
    | dsimp only
    | with_reducible refine Sound.of_mk ?_ rfl rfl rfl rfl rfl rfl rfl rfl rfl rfl rfl rfl rfl

theorem State.poolDisable_sound (a : RegAcc) {s : State} (hs : Sound p q s) :
    Sound p q (State.poolDisable a s) := by
  unfold State.poolDisable
  repeat' first
    | with_reducible assumption
    | with_reducible apply foldl_sound
    | with_reducible apply State.setFld_sound
    | with_reducible apply State.recAcc_sound
    | with_reducible apply State.mirrorWrite_sound
    | with_reducible refine Sound.snd_of (by with_reducible assumption) ?_
    | with_reducible refine Sound.thd_of (by with_reducible assumption) ?_
    | intro _
    | split
    | dsimp only
    | with_reducible refine Sound.of_mk ?_ rfl rfl rfl rfl rfl rfl rfl rfl rfl rfl rfl rfl rfl

end Sys2Proof.Machine
end

