-- ==== Sys2Proof/Laws/SoundFurrow.lean ====
section
/-! SUPPORT. Every operation of Machine/Furrow.lean keeps the invariant of Safety.lean. -/

namespace Sys2Proof.Machine

set_option Elab.async false
set_option linter.all false

variable {p : Part} {q : List Instr}

theorem State.setDisp_sound {s : State} (n : Nat) (d : Disp) (hs : Sound p q s) :
    Sound p q (State.setDisp s n d) := by
  unfold State.setDisp
  repeat' first
    | with_reducible assumption
    | with_reducible apply foldl_sound
    | with_reducible refine Sound.snd_of (by with_reducible assumption) ?_
    | with_reducible refine Sound.thd_of (by with_reducible assumption) ?_
    | intro _
    | split
    | dsimp only
    | with_reducible refine Sound.of_mk ?_ rfl rfl rfl rfl rfl rfl rfl rfl rfl rfl rfl rfl rfl

theorem State.armedView_sound {s : State} (entries : List (Nat × Nat)) (hs : Sound p q s) :
    Sound p q (State.armedView s entries) := by
  unfold State.armedView
  repeat' first
    | with_reducible assumption
    | with_reducible apply foldl_sound
    | with_reducible apply State.setRw_sound
    | with_reducible refine Sound.snd_of (by with_reducible assumption) ?_
    | with_reducible refine Sound.thd_of (by with_reducible assumption) ?_
    | intro _
    | split
    | dsimp only
    | with_reducible refine Sound.of_mk ?_ rfl rfl rfl rfl rfl rfl rfl rfl rfl rfl rfl rfl rfl

theorem State.grantResources_sound {s : State} {v : State} (outs : List Nat) (inSet : Nat → Bool) (hs : Sound p q s) :
    Sound p q (State.grantResources s v outs inSet) := by
  unfold State.grantResources
  repeat' first
    | with_reducible assumption
    | with_reducible apply foldl_sound
    | with_reducible refine Sound.snd_of (by with_reducible assumption) ?_
    | with_reducible refine Sound.thd_of (by with_reducible assumption) ?_
    | intro _
    | split
    | dsimp only
    | with_reducible refine Sound.of_mk ?_ rfl rfl rfl rfl rfl rfl rfl rfl rfl rfl rfl rfl rfl

theorem State.settleStore_sound {s : State} (n : Nat) (hs : Sound p q s) :
    Sound p q (State.settleStore s n) := by
  unfold State.settleStore
  repeat' first
    | with_reducible assumption
    | with_reducible apply foldl_sound
    | with_reducible refine Sound.snd_of (by with_reducible assumption) ?_
    | with_reducible refine Sound.thd_of (by with_reducible assumption) ?_
    | intro _
    | split
    | dsimp only
    | with_reducible refine Sound.of_mk ?_ rfl rfl rfl rfl rfl rfl rfl rfl rfl rfl rfl rfl rfl

theorem State.resetGrant_sound {s : State} (n : Nat) (k : Nat) (hs : Sound p q s) :
    Sound p q (State.resetGrant s n k) := by
  unfold State.resetGrant
  repeat' first
    | with_reducible assumption
    | with_reducible apply foldl_sound
    | with_reducible apply State.settleStore_sound
    | with_reducible refine Sound.snd_of (by with_reducible assumption) ?_
    | with_reducible refine Sound.thd_of (by with_reducible assumption) ?_
    | intro _
    | split
    | dsimp only
    | with_reducible refine Sound.of_mk ?_ rfl rfl rfl rfl rfl rfl rfl rfl rfl rfl rfl rfl rfl

theorem State.takeSlotFences_sound {s : State} {v : State} (ids : List Nat) (hs : Sound p q s) :
    Sound p q (State.takeSlotFences s v ids) := by
  unfold State.takeSlotFences
  repeat' first
    | with_reducible assumption
    | with_reducible apply foldl_sound
    | with_reducible apply State.fence_sound
    | with_reducible refine Sound.snd_of (by with_reducible assumption) ?_
    | with_reducible refine Sound.thd_of (by with_reducible assumption) ?_
    | intro _
    | split
    | dsimp only
    | with_reducible refine Sound.of_mk ?_ rfl rfl rfl rfl rfl rfl rfl rfl rfl rfl rfl rfl rfl

theorem State.settleFences_sound {s : State} (n : Nat) (hs : Sound p q s) :
    Sound p q (State.settleFences s n) := by
  unfold State.settleFences
  repeat' first
    | with_reducible assumption
    | with_reducible apply foldl_sound
    | with_reducible apply State.unfence_sound
    | with_reducible apply State.armedView_sound
    | with_reducible refine Sound.snd_of (by with_reducible assumption) ?_
    | with_reducible refine Sound.thd_of (by with_reducible assumption) ?_
    | intro _
    | split
    | dsimp only
    | with_reducible refine Sound.of_mk ?_ rfl rfl rfl rfl rfl rfl rfl rfl rfl rfl rfl rfl rfl

theorem State.readBuf_sound {s : State} (who : Attr) (x2 : Nat) (b : Nat) (x4 : Nat) (hs : Sound p q s) :
    Sound p q (State.readBuf s who x2 b x4).2 := by
  induction x4 generalizing s who x2 b with
  | zero =>
    unfold State.readBuf
    repeat' first
      | with_reducible assumption
      | with_reducible apply foldl_sound
      | with_reducible apply State.readWordAs_sound
      | with_reducible refine Sound.snd_of (by with_reducible assumption) ?_
      | with_reducible refine Sound.thd_of (by with_reducible assumption) ?_
      | intro _
      | split
      | dsimp only
      | with_reducible refine Sound.of_mk ?_ rfl rfl rfl rfl rfl rfl rfl rfl rfl rfl rfl rfl rfl
  | succ _ ih =>
    unfold State.readBuf
    repeat' first
      | with_reducible assumption
      | with_reducible apply ih
      | with_reducible apply foldl_sound
      | with_reducible apply State.readWordAs_sound
      | with_reducible refine Sound.snd_of (by with_reducible assumption) ?_
      | with_reducible refine Sound.thd_of (by with_reducible assumption) ?_
      | intro _
      | split
      | dsimp only
      | with_reducible refine Sound.of_mk ?_ rfl rfl rfl rfl rfl rfl rfl rfl rfl rfl rfl rfl rfl

theorem State.readSheet_sound {s : State} (who : Attr) (sl : Compose.Slot) (hs : Sound p q s) :
    Sound p q (State.readSheet s who sl).2 := by
  unfold State.readSheet
  repeat' first
    | with_reducible apply foldl_sound_snd
    | with_reducible assumption
    | with_reducible apply foldl_sound
    | with_reducible apply State.readBuf_sound
    | with_reducible refine Sound.snd_of (by with_reducible assumption) ?_
    | with_reducible refine Sound.thd_of (by with_reducible assumption) ?_
    | intro _
    | split
    | dsimp only
    | with_reducible refine Sound.of_mk ?_ rfl rfl rfl rfl rfl rfl rfl rfl rfl rfl rfl rfl rfl

theorem State.loadSheet_sound {s : State} {v : State} (i : Nat) (hs : Sound p q s) :
    Sound p q (State.loadSheet s v i) := by
  unfold State.loadSheet
  repeat' first
    | with_reducible assumption
    | with_reducible apply foldl_sound
    | with_reducible apply State.setDisp_sound
    | with_reducible apply State.readSheet_sound
    | with_reducible refine Sound.snd_of (by with_reducible assumption) ?_
    | with_reducible refine Sound.thd_of (by with_reducible assumption) ?_
    | intro _
    | split
    | dsimp only
    | with_reducible refine Sound.of_mk ?_ rfl rfl rfl rfl rfl rfl rfl rfl rfl rfl rfl rfl rfl

theorem State.loadSheets_sound {s : State} {v : State} (ids : List Nat) (hs : Sound p q s) :
    Sound p q (State.loadSheets s v ids) := by
  unfold State.loadSheets
  repeat' first
    | with_reducible assumption
    | with_reducible apply foldl_sound
    | with_reducible apply State.loadSheet_sound
    | with_reducible refine Sound.snd_of (by with_reducible assumption) ?_
    | with_reducible refine Sound.thd_of (by with_reducible assumption) ?_
    | intro _
    | split
    | dsimp only
    | with_reducible refine Sound.of_mk ?_ rfl rfl rfl rfl rfl rfl rfl rfl rfl rfl rfl rfl rfl

end Sys2Proof.Machine
end

