-- ==== Sys2Proof/Laws/SoundCommit.lean ====
section
/-! SUPPORT. Every operation of Machine/Commit.lean keeps the invariant of Safety.lean. -/

namespace Sys2Proof.Machine

set_option Elab.async false
set_option linter.all false

variable {p : Part} {q : List Instr}

theorem State.discardWords_sound {s : State} (n : Nat) (which : Nat → Bool) (hs : Sound p q s) :
    Sound p q (State.discardWords s n which) := by
  unfold State.discardWords
  repeat' first
    | with_reducible assumption
    | with_reducible apply foldl_sound
    | with_reducible apply State.setSw_sound
    | with_reducible refine Sound.snd_of (by with_reducible assumption) ?_
    | with_reducible refine Sound.thd_of (by with_reducible assumption) ?_
    | intro _
    | split
    | dsimp only
    | with_reducible refine Sound.of_mk ?_ rfl rfl rfl rfl rfl rfl rfl rfl rfl rfl rfl rfl rfl

theorem State.nextView_sound {s : State} (hs : Sound p q s) :
    Sound p q (State.nextView s) := by
  unfold State.nextView
  repeat' first
    | with_reducible assumption
    | with_reducible apply foldl_sound
    | with_reducible apply State.setRw_sound
    | with_reducible refine Sound.snd_of (by with_reducible assumption) ?_
    | with_reducible refine Sound.thd_of (by with_reducible assumption) ?_
    | intro _
    | split
    | dsimp only
    | with_reducible refine Sound.of_mk ?_ rfl rfl rfl rfl rfl rfl rfl rfl rfl rfl rfl rfl rfl

theorem State.putCommit_sound {s : State} (c : Commit) (hs : Sound p q s) :
    Sound p q (State.putCommit s c) := by
  unfold State.putCommit
  repeat' first
    | with_reducible assumption
    | with_reducible apply foldl_sound
    | with_reducible refine Sound.snd_of (by with_reducible assumption) ?_
    | with_reducible refine Sound.thd_of (by with_reducible assumption) ?_
    | intro _
    | split
    | dsimp only
    | with_reducible refine Sound.of_mk ?_ rfl rfl rfl rfl rfl rfl rfl rfl rfl rfl rfl rfl rfl

theorem State.dropCommit_sound {s : State} (c : Commit) (hs : Sound p q s) :
    Sound p q (State.dropCommit s c) := by
  unfold State.dropCommit
  repeat' first
    | with_reducible assumption
    | with_reducible apply foldl_sound
    | with_reducible refine Sound.snd_of (by with_reducible assumption) ?_
    | with_reducible refine Sound.thd_of (by with_reducible assumption) ?_
    | intro _
    | split
    | dsimp only
    | with_reducible refine Sound.of_mk ?_ rfl rfl rfl rfl rfl rfl rfl rfl rfl rfl rfl rfl rfl

theorem State.endCommit_sound {s : State} (c : Commit) (status : Nat) (res : List Nat) (hs : Sound p q s) :
    Sound p q (State.endCommit s c status res) := by
  unfold State.endCommit
  repeat' first
    | with_reducible assumption
    | with_reducible apply foldl_sound
    | with_reducible apply State.finishOpt_sound
    | with_reducible refine Sound.snd_of (by with_reducible assumption) ?_
    | with_reducible refine Sound.thd_of (by with_reducible assumption) ?_
    | intro _
    | split
    | dsimp only
    | with_reducible refine Sound.of_mk ?_ rfl rfl rfl rfl rfl rfl rfl rfl rfl rfl rfl rfl rfl

theorem State.moveWord_sound {s : State} (c : Commit) (e : Nat × Nat) (hs : Sound p q s) :
    Sound p q (State.moveWord s c e) := by
  unfold State.moveWord
  repeat' first
    | with_reducible assumption
    | with_reducible apply foldl_sound
    | with_reducible apply State.setRw_sound
    | with_reducible apply State.setSw_sound
    | with_reducible apply State.settleCredit_sound
    | with_reducible refine Sound.snd_of (by with_reducible assumption) ?_
    | with_reducible refine Sound.thd_of (by with_reducible assumption) ?_
    | intro _
    | split
    | dsimp only
    | with_reducible refine Sound.of_mk ?_ rfl rfl rfl rfl rfl rfl rfl rfl rfl rfl rfl rfl rfl

theorem State.moveCommit_sound {s : State} (c : Commit) (outs : List Nat) (hs : Sound p q s) :
    Sound p q (State.moveCommit s c outs) := by
  unfold State.moveCommit
  repeat' first
    | with_reducible assumption
    | with_reducible apply foldl_sound
    | with_reducible apply State.putCommit_sound
    | with_reducible apply State.moveWord_sound
    | with_reducible refine Sound.snd_of (by with_reducible assumption) ?_
    | with_reducible refine Sound.thd_of (by with_reducible assumption) ?_
    | intro _
    | split
    | dsimp only
    | with_reducible refine Sound.of_mk ?_ rfl rfl rfl rfl rfl rfl rfl rfl rfl rfl rfl rfl rfl

theorem State.commitDone_sound {s : State} (c : Commit) (frame : Nat) (hs : Sound p q s) :
    Sound p q (State.commitDone s c frame) := by
  unfold State.commitDone
  repeat' first
    | with_reducible assumption
    | with_reducible apply foldl_sound
    | with_reducible apply State.putCommit_sound
    | with_reducible apply State.dropCommit_sound
    | with_reducible apply State.endCommit_sound
    | with_reducible refine Sound.snd_of (by with_reducible assumption) ?_
    | with_reducible refine Sound.thd_of (by with_reducible assumption) ?_
    | intro _
    | split
    | dsimp only
    | with_reducible refine Sound.of_mk ?_ rfl rfl rfl rfl rfl rfl rfl rfl rfl rfl rfl rfl rfl

theorem State.takeResources_sound {s : State} (c : Commit) (hs : Sound p q s) :
    Sound p q (State.takeResources s c) := by
  unfold State.takeResources
  repeat' first
    | with_reducible assumption
    | with_reducible apply foldl_sound
    | with_reducible apply State.armedView_sound
    | with_reducible apply State.grantResources_sound
    | with_reducible apply State.takeSlotFences_sound
    | with_reducible apply State.loadSheets_sound
    | with_reducible refine Sound.snd_of (by with_reducible assumption) ?_
    | with_reducible refine Sound.thd_of (by with_reducible assumption) ?_
    | intro _
    | split
    | dsimp only
    | with_reducible refine Sound.of_mk ?_ rfl rfl rfl rfl rfl rfl rfl rfl rfl rfl rfl rfl rfl

theorem State.moveRest_sound {s : State} (c : Commit) (hs : Sound p q s) :
    Sound p q (State.moveRest s c) := by
  unfold State.moveRest
  repeat' first
    | with_reducible assumption
    | with_reducible apply foldl_sound
    | with_reducible apply State.settleStore_sound
    | with_reducible apply State.settleFences_sound
    | with_reducible apply State.moveCommit_sound
    | with_reducible apply State.commitDone_sound
    | with_reducible refine Sound.snd_of (by with_reducible assumption) ?_
    | with_reducible refine Sound.thd_of (by with_reducible assumption) ?_
    | intro _
    | split
    | dsimp only
    | with_reducible refine Sound.of_mk ?_ rfl rfl rfl rfl rfl rfl rfl rfl rfl rfl rfl rfl rfl

theorem State.applyAtOnce_sound {s : State} (c : Commit) (hs : Sound p q s) :
    Sound p q (State.applyAtOnce s c) := by
  unfold State.applyAtOnce
  repeat' first
    | with_reducible assumption
    | with_reducible apply foldl_sound
    | with_reducible apply State.mirror_sound
    | with_reducible apply State.putCommit_sound
    | with_reducible apply State.takeResources_sound
    | with_reducible apply State.moveRest_sound
    | with_reducible refine Sound.snd_of (by with_reducible assumption) ?_
    | with_reducible refine Sound.thd_of (by with_reducible assumption) ?_
    | intro _
    | split
    | dsimp only
    | with_reducible refine Sound.of_mk ?_ rfl rfl rfl rfl rfl rfl rfl rfl rfl rfl rfl rfl rfl

theorem State.abandonCommit_sound {s : State} (c : Commit) (status : Nat) (res : List Nat) (hs : Sound p q s) :
    Sound p q (State.abandonCommit s c status res) := by
  unfold State.abandonCommit
  repeat' first
    | with_reducible assumption
    | with_reducible apply foldl_sound
    | with_reducible apply State.mirror_sound
    | with_reducible apply State.dropCommit_sound
    | with_reducible apply State.endCommit_sound
    | with_reducible refine Sound.snd_of (by with_reducible assumption) ?_
    | with_reducible refine Sound.thd_of (by with_reducible assumption) ?_
    | intro _
    | split
    | dsimp only
    | with_reducible refine Sound.of_mk ?_ rfl rfl rfl rfl rfl rfl rfl rfl rfl rfl rfl rfl rfl

theorem State.applyCommit_sound {s : State} (c : Commit) (frame : Option Nat) (hs : Sound p q s) :
    Sound p q (State.applyCommit s c frame) := by
  unfold State.applyCommit
  repeat' first
    | with_reducible assumption
    | with_reducible apply foldl_sound
    | with_reducible apply State.recErr_sound
    | with_reducible apply State.mirror_sound
    | with_reducible apply State.armedView_sound
    | with_reducible apply State.putCommit_sound
    | with_reducible apply State.takeResources_sound
    | with_reducible apply State.applyAtOnce_sound
    | with_reducible apply State.abandonCommit_sound
    | with_reducible refine Sound.snd_of (by with_reducible assumption) ?_
    | with_reducible refine Sound.thd_of (by with_reducible assumption) ?_
    | intro _
    | split
    | dsimp only
    | with_reducible refine Sound.of_mk ?_ rfl rfl rfl rfl rfl rfl rfl rfl rfl rfl rfl rfl rfl

theorem State.applyLeadless_sound {s : State} (hs : Sound p q s) :
    Sound p q (State.applyLeadless s) := by
  unfold State.applyLeadless
  repeat' first
    | with_reducible assumption
    | with_reducible apply foldl_sound
    | with_reducible apply State.applyCommit_sound
    | with_reducible refine Sound.snd_of (by with_reducible assumption) ?_
    | with_reducible refine Sound.thd_of (by with_reducible assumption) ?_
    | intro _
    | split
    | dsimp only
    | with_reducible refine Sound.of_mk ?_ rfl rfl rfl rfl rfl rfl rfl rfl rfl rfl rfl rfl rfl

theorem State.armCommit_sound {s : State} (c : Commit) (hs : Sound p q s) :
    Sound p q (State.armCommit s c) := by
  unfold State.armCommit
  repeat' first
    | with_reducible assumption
    | with_reducible apply foldl_sound
    | with_reducible apply State.mirror_sound
    | with_reducible refine Sound.snd_of (by with_reducible assumption) ?_
    | with_reducible refine Sound.thd_of (by with_reducible assumption) ?_
    | intro _
    | split
    | dsimp only
    | with_reducible refine Sound.of_mk ?_ rfl rfl rfl rfl rfl rfl rfl rfl rfl rfl rfl rfl rfl

theorem State.failCommit_sound {s : State} (j : Job) (code : Nat) (pg : Option (Page × Nat)) (hs : Sound p q s) :
    Sound p q (State.failCommit s j code pg) := by
  unfold State.failCommit
  repeat' first
    | with_reducible assumption
    | with_reducible apply foldl_sound
    | with_reducible apply State.recErr_sound
    | with_reducible apply State.complete_sound
    | with_reducible refine Sound.snd_of (by with_reducible assumption) ?_
    | with_reducible refine Sound.thd_of (by with_reducible assumption) ?_
    | intro _
    | split
    | dsimp only
    | with_reducible refine Sound.of_mk ?_ rfl rfl rfl rfl rfl rfl rfl rfl rfl rfl rfl rfl rfl

theorem State.carryCommit_sound (j : Job) {s : State} (hs : Sound p q s) :
    Sound p q (State.carryCommit j s) := by
  unfold State.carryCommit
  repeat' first
    | with_reducible assumption
    | with_reducible apply foldl_sound
    | with_reducible apply State.complete_sound
    | with_reducible apply State.armedView_sound
    | with_reducible apply State.nextView_sound
    | with_reducible apply State.applyLeadless_sound
    | with_reducible apply State.armCommit_sound
    | with_reducible apply State.failCommit_sound
    | with_reducible refine Sound.snd_of (by with_reducible assumption) ?_
    | with_reducible refine Sound.thd_of (by with_reducible assumption) ?_
    | intro _
    | split
    | dsimp only
    | with_reducible refine Sound.of_mk ?_ rfl rfl rfl rfl rfl rfl rfl rfl rfl rfl rfl rfl rfl

theorem State.armRelease_sound {s : State} (i : Nat) (hs : Sound p q s) :
    Sound p q (State.armRelease s i) := by
  unfold State.armRelease
  repeat' first
    | with_reducible assumption
    | with_reducible apply foldl_sound
    | with_reducible apply State.applyLeadless_sound
    | with_reducible apply State.armCommit_sound
    | with_reducible refine Sound.snd_of (by with_reducible assumption) ?_
    | with_reducible refine Sound.thd_of (by with_reducible assumption) ?_
    | intro _
    | split
    | dsimp only
    | with_reducible refine Sound.of_mk ?_ rfl rfl rfl rfl rfl rfl rfl rfl rfl rfl rfl rfl rfl

theorem State.wakeReleases_sound {s : State} (hs : Sound p q s) :
    Sound p q (State.wakeReleases s) := by
  unfold State.wakeReleases
  repeat' first
    | with_reducible assumption
    | with_reducible apply foldl_sound
    | with_reducible apply State.armRelease_sound
    | with_reducible refine Sound.snd_of (by with_reducible assumption) ?_
    | with_reducible refine Sound.thd_of (by with_reducible assumption) ?_
    | intro _
    | split
    | dsimp only
    | with_reducible refine Sound.of_mk ?_ rfl rfl rfl rfl rfl rfl rfl rfl rfl rfl rfl rfl rfl

theorem State.releaseSlot_sound {s : State} (n : Nat) (k : Nat) (hs : Sound p q s) :
    Sound p q (State.releaseSlot s n k) := by
  unfold State.releaseSlot
  repeat' first
    | with_reducible assumption
    | with_reducible apply foldl_sound
    | with_reducible apply State.discardWords_sound
    | with_reducible apply State.armRelease_sound
    | with_reducible refine Sound.snd_of (by with_reducible assumption) ?_
    | with_reducible refine Sound.thd_of (by with_reducible assumption) ?_
    | intro _
    | split
    | dsimp only
    | with_reducible refine Sound.of_mk ?_ rfl rfl rfl rfl rfl rfl rfl rfl rfl rfl rfl rfl rfl

theorem State.applyDecisions_sound {s : State} (f : Nat) (used : Nat) (x3 : List Commit) (hs : Sound p q s) :
    Sound p q (State.applyDecisions s f used x3) := by
  induction x3 generalizing s f used with
  | nil =>
    unfold State.applyDecisions
    repeat' first
      | with_reducible assumption
      | with_reducible apply foldl_sound
      | with_reducible apply State.abandonCommit_sound
      | with_reducible apply State.applyCommit_sound
      | with_reducible refine Sound.snd_of (by with_reducible assumption) ?_
      | with_reducible refine Sound.thd_of (by with_reducible assumption) ?_
      | intro _
      | split
      | dsimp only
      | with_reducible refine Sound.of_mk ?_ rfl rfl rfl rfl rfl rfl rfl rfl rfl rfl rfl rfl rfl
  | cons _ _ ih =>
    unfold State.applyDecisions
    repeat' first
      | with_reducible assumption
      | with_reducible apply ih
      | with_reducible apply foldl_sound
      | with_reducible apply State.abandonCommit_sound
      | with_reducible apply State.applyCommit_sound
      | with_reducible refine Sound.snd_of (by with_reducible assumption) ?_
      | with_reducible refine Sound.thd_of (by with_reducible assumption) ?_
      | intro _
      | split
      | dsimp only
      | with_reducible refine Sound.of_mk ?_ rfl rfl rfl rfl rfl rfl rfl rfl rfl rfl rfl rfl rfl

theorem State.applyLine_sound {s : State} (n : Nat) (hs : Sound p q s) :
    Sound p q (State.applyLine s n) := by
  unfold State.applyLine
  repeat' first
    | with_reducible assumption
    | with_reducible apply foldl_sound
    | with_reducible apply State.wakeReleases_sound
    | with_reducible apply State.applyDecisions_sound
    | with_reducible refine Sound.snd_of (by with_reducible assumption) ?_
    | with_reducible refine Sound.thd_of (by with_reducible assumption) ?_
    | intro _
    | split
    | dsimp only
    | with_reducible refine Sound.of_mk ?_ rfl rfl rfl rfl rfl rfl rfl rfl rfl rfl rfl rfl rfl

theorem State.moveCommits_sound {s : State} (n : Nat) (cs : List Commit) (hs : Sound p q s) :
    Sound p q (State.moveCommits s n cs) := by
  unfold State.moveCommits
  repeat' first
    | with_reducible assumption
    | with_reducible apply foldl_sound
    | with_reducible apply State.moveCommit_sound
    | with_reducible refine Sound.snd_of (by with_reducible assumption) ?_
    | with_reducible refine Sound.thd_of (by with_reducible assumption) ?_
    | intro _
    | split
    | dsimp only
    | with_reducible refine Sound.of_mk ?_ rfl rfl rfl rfl rfl rfl rfl rfl rfl rfl rfl rfl rfl

theorem State.endCommits_sound {s : State} (n : Nat) (seq : Nat) (cs : List Commit) (hs : Sound p q s) :
    Sound p q (State.endCommits s n seq cs) := by
  unfold State.endCommits
  repeat' first
    | with_reducible assumption
    | with_reducible apply foldl_sound
    | with_reducible apply State.commitDone_sound
    | with_reducible refine Sound.snd_of (by with_reducible assumption) ?_
    | with_reducible refine Sound.thd_of (by with_reducible assumption) ?_
    | intro _
    | split
    | dsimp only
    | with_reducible refine Sound.of_mk ?_ rfl rfl rfl rfl rfl rfl rfl rfl rfl rfl rfl rfl rfl

theorem State.showScalers_sound {s : State} (n : Nat) (served : List Nat) (hs : Sound p q s) :
    Sound p q (State.showScalers s n served) := by
  unfold State.showScalers
  repeat' first
    | with_reducible assumption
    | with_reducible apply foldl_sound
    | with_reducible apply State.setRw_sound
    | with_reducible apply State.setFld_sound
    | with_reducible refine Sound.snd_of (by with_reducible assumption) ?_
    | with_reducible refine Sound.thd_of (by with_reducible assumption) ?_
    | intro _
    | split
    | dsimp only
    | with_reducible refine Sound.of_mk ?_ rfl rfl rfl rfl rfl rfl rfl rfl rfl rfl rfl rfl rfl

theorem State.takeLatch_sound {s : State} (n : Nat) (seq : Nat) (lead : Nat) (hand : List Nat) (applied : Bool) (hs : Sound p q s) :
    Sound p q (State.takeLatch s n seq lead hand applied) := by
  unfold State.takeLatch
  repeat' first
    | with_reducible assumption
    | with_reducible apply foldl_sound
    | with_reducible apply State.setFld_sound
    | with_reducible apply State.event_sound
    | with_reducible apply State.recErr_sound
    | with_reducible apply State.setDisp_sound
    | with_reducible apply State.showScalers_sound
    | with_reducible refine Sound.snd_of (by with_reducible assumption) ?_
    | with_reducible refine Sound.thd_of (by with_reducible assumption) ?_
    | intro _
    | split
    | dsimp only
    | with_reducible refine Sound.of_mk ?_ rfl rfl rfl rfl rfl rfl rfl rfl rfl rfl rfl rfl rfl

theorem State.latchPoint_sound {s : State} (n : Nat) (seq : Nat) (lead : Nat) (hs : Sound p q s) :
    Sound p q (State.latchPoint s n seq lead) := by
  unfold State.latchPoint
  repeat' first
    | with_reducible assumption
    | with_reducible apply foldl_sound
    | with_reducible apply State.settleStore_sound
    | with_reducible apply State.settleFences_sound
    | with_reducible apply State.wakeReleases_sound
    | with_reducible apply State.moveCommits_sound
    | with_reducible apply State.endCommits_sound
    | with_reducible apply State.takeLatch_sound
    | with_reducible refine Sound.snd_of (by with_reducible assumption) ?_
    | with_reducible refine Sound.thd_of (by with_reducible assumption) ?_
    | intro _
    | split
    | dsimp only
    | with_reducible refine Sound.of_mk ?_ rfl rfl rfl rfl rfl rfl rfl rfl rfl rfl rfl rfl rfl

theorem State.settleStopped_sound {s : State} (g : Nat) (hs : Sound p q s) :
    Sound p q (State.settleStopped s g) := by
  unfold State.settleStopped
  repeat' first
    | with_reducible assumption
    | with_reducible apply foldl_sound
    | with_reducible apply State.commitDone_sound
    | with_reducible apply State.moveRest_sound
    | with_reducible refine Sound.snd_of (by with_reducible assumption) ?_
    | with_reducible refine Sound.thd_of (by with_reducible assumption) ?_
    | intro _
    | split
    | dsimp only
    | with_reducible refine Sound.of_mk ?_ rfl rfl rfl rfl rfl rfl rfl rfl rfl rfl rfl rfl rfl

theorem State.outputStopped_sound {s : State} (n : Nat) (hs : Sound p q s) :
    Sound p q (State.outputStopped s n) := by
  unfold State.outputStopped
  repeat' first
    | with_reducible assumption
    | with_reducible apply foldl_sound
    | with_reducible apply State.setFld_sound
    | with_reducible apply State.event_sound
    | with_reducible apply State.setDisp_sound
    | with_reducible apply State.applyLeadless_sound
    | with_reducible apply State.wakeReleases_sound
    | with_reducible apply State.settleStopped_sound
    | with_reducible refine Sound.snd_of (by with_reducible assumption) ?_
    | with_reducible refine Sound.thd_of (by with_reducible assumption) ?_
    | intro _
    | split
    | dsimp only
    | with_reducible refine Sound.of_mk ?_ rfl rfl rfl rfl rfl rfl rfl rfl rfl rfl rfl rfl rfl

theorem State.dropFollowers_sound {s : State} (src : Nat) (hs : Sound p q s) :
    Sound p q (State.dropFollowers s src) := by
  unfold State.dropFollowers
  repeat' first
    | with_reducible assumption
    | with_reducible apply foldl_sound
    | with_reducible apply State.setFld_sound
    | with_reducible apply State.event_sound
    | with_reducible apply State.setDisp_sound
    | with_reducible refine Sound.snd_of (by with_reducible assumption) ?_
    | with_reducible refine Sound.thd_of (by with_reducible assumption) ?_
    | intro _
    | split
    | dsimp only
    | with_reducible refine Sound.of_mk ?_ rfl rfl rfl rfl rfl rfl rfl rfl rfl rfl rfl rfl rfl

theorem State.ackTimeout_sound {s : State} (cno : Nat) (hs : Sound p q s) :
    Sound p q (State.ackTimeout s cno) := by
  unfold State.ackTimeout
  repeat' first
    | with_reducible assumption
    | with_reducible apply foldl_sound
    | with_reducible apply State.abandonCommit_sound
    | with_reducible apply State.wakeReleases_sound
    | with_reducible refine Sound.snd_of (by with_reducible assumption) ?_
    | with_reducible refine Sound.thd_of (by with_reducible assumption) ?_
    | intro _
    | split
    | dsimp only
    | with_reducible refine Sound.of_mk ?_ rfl rfl rfl rfl rfl rfl rfl rfl rfl rfl rfl rfl rfl

theorem State.dropFnCommits_sound {s : State} (fn : Nat) (hs : Sound p q s) :
    Sound p q (State.dropFnCommits s fn) := by
  unfold State.dropFnCommits
  repeat' first
    | with_reducible assumption
    | with_reducible apply foldl_sound
    | with_reducible apply State.mirror_sound
    | with_reducible apply State.dropCommit_sound
    | with_reducible apply State.wakeReleases_sound
    | with_reducible refine Sound.snd_of (by with_reducible assumption) ?_
    | with_reducible refine Sound.thd_of (by with_reducible assumption) ?_
    | intro _
    | split
    | dsimp only
    | with_reducible refine Sound.of_mk ?_ rfl rfl rfl rfl rfl rfl rfl rfl rfl rfl rfl rfl rfl

theorem State.abandonAll_sound {s : State} (which : Commit → Bool) (hs : Sound p q s) :
    Sound p q (State.abandonAll s which) := by
  unfold State.abandonAll
  repeat' first
    | with_reducible assumption
    | with_reducible apply foldl_sound
    | with_reducible apply State.abandonCommit_sound
    | with_reducible refine Sound.snd_of (by with_reducible assumption) ?_
    | with_reducible refine Sound.thd_of (by with_reducible assumption) ?_
    | intro _
    | split
    | dsimp only
    | with_reducible refine Sound.of_mk ?_ rfl rfl rfl rfl rfl rfl rfl rfl rfl rfl rfl rfl rfl

end Sys2Proof.Machine
end

