-- ==== Sys2Proof/Laws/SoundRegs.lean ====
section
/-! SUPPORT. Every operation of Machine/Regs.lean keeps the invariant of Safety.lean. -/

namespace Sys2Proof.Machine

set_option Elab.async false
set_option linter.all false

variable {p : Part} {q : List Instr}

theorem State.accessRead_sound {s : State} (r : RegRd) (run : RegAcc → State → State) (hs : Sound p q s) (hrun : ∀ (y0 : RegAcc) (y1 : State), Sound p q y1 → Sound p q (run y0 y1)) :
    Sound p q (State.accessRead s r run) := by
  unfold State.accessRead
  repeat' first
    | with_reducible assumption
    | with_reducible apply foldl_sound
    | with_reducible apply hrun
    | with_reducible apply State.emit_sound
    | with_reducible apply State.holdBack_sound
    | with_reducible refine Sound.snd_of (by with_reducible assumption) ?_
    | with_reducible refine Sound.thd_of (by with_reducible assumption) ?_
    | intro _
    | split
    | dsimp only
    | with_reducible refine Sound.of_mk ?_ rfl rfl rfl rfl rfl rfl rfl rfl rfl rfl rfl rfl rfl

theorem State.answerRead_sound {s : State} (a : RegAcc) (v : Nat) (hs : Sound p q s) :
    Sound p q (State.answerRead s a v) := by
  unfold State.answerRead
  repeat' first
    | with_reducible assumption
    | with_reducible apply foldl_sound
    | with_reducible apply State.emit_sound
    | with_reducible refine Sound.snd_of (by with_reducible assumption) ?_
    | with_reducible refine Sound.thd_of (by with_reducible assumption) ?_
    | intro _
    | split
    | dsimp only
    | with_reducible refine Sound.of_mk ?_ rfl rfl rfl rfl rfl rfl rfl rfl rfl rfl rfl rfl rfl

theorem State.latchWord_sound {s : State} (fn : Nat) (key : Nat) (v : Nat) (hs : Sound p q s) :
    Sound p q (State.latchWord s fn key v) := by
  unfold State.latchWord
  repeat' first
    | with_reducible assumption
    | with_reducible apply foldl_sound
    | with_reducible refine Sound.snd_of (by with_reducible assumption) ?_
    | with_reducible refine Sound.thd_of (by with_reducible assumption) ?_
    | intro _
    | split
    | dsimp only
    | with_reducible refine Sound.of_mk ?_ rfl rfl rfl rfl rfl rfl rfl rfl rfl rfl rfl rfl rfl

theorem State.stageWord_sound {s : State} (fn : Nat) (key : Nat) (v : Word32) (hs : Sound p q s) :
    Sound p q (State.stageWord s fn key v) := by
  unfold State.stageWord
  repeat' first
    | with_reducible assumption
    | with_reducible apply foldl_sound
    | with_reducible refine Sound.snd_of (by with_reducible assumption) ?_
    | with_reducible refine Sound.thd_of (by with_reducible assumption) ?_
    | intro _
    | split
    | dsimp only
    | with_reducible refine Sound.of_mk ?_ rfl rfl rfl rfl rfl rfl rfl rfl rfl rfl rfl rfl rfl

theorem State.wideWrite_sound (a : RegAcc) {s : State} (hs : Sound p q s) :
    Sound p q (State.wideWrite a s) := by
  unfold State.wideWrite
  repeat' first
    | with_reducible assumption
    | with_reducible apply foldl_sound
    | with_reducible apply State.plainWrite_sound
    | with_reducible apply State.stageWord_sound
    | with_reducible refine Sound.snd_of (by with_reducible assumption) ?_
    | with_reducible refine Sound.thd_of (by with_reducible assumption) ?_
    | intro _
    | split
    | dsimp only
    | with_reducible refine Sound.of_mk ?_ rfl rfl rfl rfl rfl rfl rfl rfl rfl rfl rfl rfl rfl

theorem State.afterEventWrite_sound {s : State} (a : RegAcc) (hs : Sound p q s) :
    Sound p q (State.afterEventWrite s a) := by
  unfold State.afterEventWrite
  repeat' first
    | with_reducible assumption
    | with_reducible apply foldl_sound
    | with_reducible apply State.pageMsg_sound
    | with_reducible refine Sound.snd_of (by with_reducible assumption) ?_
    | with_reducible refine Sound.thd_of (by with_reducible assumption) ?_
    | intro _
    | split
    | dsimp only
    | with_reducible refine Sound.of_mk ?_ rfl rfl rfl rfl rfl rfl rfl rfl rfl rfl rfl rfl rfl

theorem State.evtRawWrite_sound (a : RegAcc) {s : State} (hs : Sound p q s) :
    Sound p q (State.evtRawWrite a s) := by
  unfold State.evtRawWrite
  repeat' first
    | with_reducible assumption
    | with_reducible apply foldl_sound
    | with_reducible apply State.recRefused_sound
    | with_reducible apply State.plainWrite_sound
    | with_reducible apply State.afterEventWrite_sound
    | with_reducible refine Sound.snd_of (by with_reducible assumption) ?_
    | with_reducible refine Sound.thd_of (by with_reducible assumption) ?_
    | intro _
    | split
    | dsimp only
    | with_reducible refine Sound.of_mk ?_ rfl rfl rfl rfl rfl rfl rfl rfl rfl rfl rfl rfl rfl

theorem State.evtEnWrite_sound (a : RegAcc) {s : State} (hs : Sound p q s) :
    Sound p q (State.evtEnWrite a s) := by
  unfold State.evtEnWrite
  repeat' first
    | with_reducible assumption
    | with_reducible apply foldl_sound
    | with_reducible apply State.recRefused_sound
    | with_reducible apply State.plainWrite_sound
    | with_reducible apply State.afterEventWrite_sound
    | with_reducible refine Sound.snd_of (by with_reducible assumption) ?_
    | with_reducible refine Sound.thd_of (by with_reducible assumption) ?_
    | intro _
    | split
    | dsimp only
    | with_reducible refine Sound.of_mk ?_ rfl rfl rfl rfl rfl rfl rfl rfl rfl rfl rfl rfl rfl

theorem State.evtSetWrite_sound (a : RegAcc) {s : State} (hs : Sound p q s) :
    Sound p q (State.evtSetWrite a s) := by
  unfold State.evtSetWrite
  repeat' first
    | with_reducible assumption
    | with_reducible apply foldl_sound
    | with_reducible apply State.raise_sound
    | with_reducible apply State.recRefused_sound
    | with_reducible refine Sound.snd_of (by with_reducible assumption) ?_
    | with_reducible refine Sound.thd_of (by with_reducible assumption) ?_
    | intro _
    | split
    | dsimp only
    | with_reducible refine Sound.of_mk ?_ rfl rfl rfl rfl rfl rfl rfl rfl rfl rfl rfl rfl rfl

theorem State.evtRouteWrite_sound (a : RegAcc) {s : State} (hs : Sound p q s) :
    Sound p q (State.evtRouteWrite a s) := by
  unfold State.evtRouteWrite
  repeat' first
    | with_reducible assumption
    | with_reducible apply foldl_sound
    | with_reducible apply State.recRefused_sound
    | with_reducible apply State.refuse_sound
    | with_reducible apply State.plainWrite_sound
    | with_reducible apply State.mirrorWrite_sound
    | with_reducible apply State.afterEventWrite_sound
    | with_reducible refine Sound.snd_of (by with_reducible assumption) ?_
    | with_reducible refine Sound.thd_of (by with_reducible assumption) ?_
    | intro _
    | split
    | dsimp only
    | with_reducible refine Sound.of_mk ?_ rfl rfl rfl rfl rfl rfl rfl rfl rfl rfl rfl rfl rfl

theorem State.chkMsg_sound {s : State} (n : Nat) (j : Nat) (hs : Sound p q s) :
    Sound p q (State.chkMsg s n j) := by
  unfold State.chkMsg
  repeat' first
    | with_reducible assumption
    | with_reducible apply foldl_sound
    | with_reducible apply State.sendMsg_sound
    | with_reducible refine Sound.snd_of (by with_reducible assumption) ?_
    | with_reducible refine Sound.thd_of (by with_reducible assumption) ?_
    | intro _
    | split
    | dsimp only
    | with_reducible refine Sound.of_mk ?_ rfl rfl rfl rfl rfl rfl rfl rfl rfl rfl rfl rfl rfl

theorem State.chkEvent_sound {s : State} (n : Nat) (j : Nat) (b : Nat) (hs : Sound p q s) :
    Sound p q (State.chkEvent s n j b) := by
  unfold State.chkEvent
  repeat' first
    | with_reducible assumption
    | with_reducible apply foldl_sound
    | with_reducible apply State.setRw_sound
    | with_reducible apply State.chkMsg_sound
    | with_reducible refine Sound.snd_of (by with_reducible assumption) ?_
    | with_reducible refine Sound.thd_of (by with_reducible assumption) ?_
    | intro _
    | split
    | dsimp only
    | with_reducible refine Sound.of_mk ?_ rfl rfl rfl rfl rfl rfl rfl rfl rfl rfl rfl rfl rfl

theorem State.chkEventWrite_sound (a : RegAcc) {s : State} (hs : Sound p q s) :
    Sound p q (State.chkEventWrite a s) := by
  unfold State.chkEventWrite
  repeat' first
    | with_reducible assumption
    | with_reducible apply foldl_sound
    | with_reducible apply State.recRefused_sound
    | with_reducible apply State.refuse_sound
    | with_reducible apply State.plainWrite_sound
    | with_reducible apply State.mirrorWrite_sound
    | with_reducible apply State.chkMsg_sound
    | with_reducible refine Sound.snd_of (by with_reducible assumption) ?_
    | with_reducible refine Sound.thd_of (by with_reducible assumption) ?_
    | intro _
    | split
    | dsimp only
    | with_reducible refine Sound.of_mk ?_ rfl rfl rfl rfl rfl rfl rfl rfl rfl rfl rfl rfl rfl

theorem State.errClear_sound (a : RegAcc) {s : State} (hs : Sound p q s) :
    Sound p q (State.errClear a s) := by
  unfold State.errClear
  repeat' first
    | with_reducible assumption
    | with_reducible apply foldl_sound
    | with_reducible apply State.setRw_sound
    | with_reducible apply State.recRefused_sound
    | with_reducible refine Sound.snd_of (by with_reducible assumption) ?_
    | with_reducible refine Sound.thd_of (by with_reducible assumption) ?_
    | intro _
    | split
    | dsimp only
    | with_reducible refine Sound.of_mk ?_ rfl rfl rfl rfl rfl rfl rfl rfl rfl rfl rfl rfl rfl

theorem State.groupMove_sound (a : RegAcc) (n : Nat) {s : State} (hs : Sound p q s) :
    Sound p q (State.groupMove a n s) := by
  unfold State.groupMove
  repeat' first
    | with_reducible assumption
    | with_reducible apply foldl_sound
    | with_reducible apply State.setFld_sound
    | with_reducible apply State.mirrorWrite_sound
    | with_reducible apply State.applyLeadless_sound
    | with_reducible refine Sound.snd_of (by with_reducible assumption) ?_
    | with_reducible refine Sound.thd_of (by with_reducible assumption) ?_
    | intro _
    | split
    | dsimp only
    | with_reducible refine Sound.of_mk ?_ rfl rfl rfl rfl rfl rfl rfl rfl rfl rfl rfl rfl rfl

theorem State.discardPage_sound (a : RegAcc) (n : Nat) {s : State} (hs : Sound p q s) :
    Sound p q (State.discardPage a n s) := by
  unfold State.discardPage
  repeat' first
    | with_reducible assumption
    | with_reducible apply foldl_sound
    | with_reducible apply State.discardWords_sound
    | with_reducible refine Sound.snd_of (by with_reducible assumption) ?_
    | with_reducible refine Sound.thd_of (by with_reducible assumption) ?_
    | intro _
    | split
    | dsimp only
    | with_reducible refine Sound.of_mk ?_ rfl rfl rfl rfl rfl rfl rfl rfl rfl rfl rfl rfl rfl

theorem State.shadowCtrlWrite_sound (a : RegAcc) {s : State} (hs : Sound p q s) :
    Sound p q (State.shadowCtrlWrite a s) := by
  unfold State.shadowCtrlWrite
  repeat' first
    | with_reducible assumption
    | with_reducible apply foldl_sound
    | with_reducible apply State.recAcc_sound
    | with_reducible apply State.recRefused_sound
    | with_reducible apply State.groupMove_sound
    | with_reducible apply State.discardPage_sound
    | with_reducible refine Sound.snd_of (by with_reducible assumption) ?_
    | with_reducible refine Sound.thd_of (by with_reducible assumption) ?_
    | intro _
    | split
    | dsimp only
    | with_reducible refine Sound.of_mk ?_ rfl rfl rfl rfl rfl rfl rfl rfl rfl rfl rfl rfl rfl

theorem State.forgetStaged_sound {s : State} (fn : Nat) (lo : Nat) (hi : Nat) (hs : Sound p q s) :
    Sound p q (State.forgetStaged s fn lo hi) := by
  unfold State.forgetStaged
  repeat' first
    | with_reducible assumption
    | with_reducible apply foldl_sound
    | with_reducible refine Sound.snd_of (by with_reducible assumption) ?_
    | with_reducible refine Sound.thd_of (by with_reducible assumption) ?_
    | intro _
    | split
    | dsimp only
    | with_reducible refine Sound.of_mk ?_ rfl rfl rfl rfl rfl rfl rfl rfl rfl rfl rfl rfl rfl

theorem State.ownerApply_sound {s : State} (pg : Page) (new : Nat) (hs : Sound p q s) :
    Sound p q (State.ownerApply s pg new) := by
  unfold State.ownerApply
  repeat' first
    | with_reducible assumption
    | with_reducible apply foldl_sound
    | with_reducible apply State.setRw_sound
    | with_reducible apply State.pageMsg_sound
    | with_reducible apply State.forgetStaged_sound
    | with_reducible refine Sound.snd_of (by with_reducible assumption) ?_
    | with_reducible refine Sound.thd_of (by with_reducible assumption) ?_
    | intro _
    | split
    | dsimp only
    | with_reducible refine Sound.of_mk ?_ rfl rfl rfl rfl rfl rfl rfl rfl rfl rfl rfl rfl rfl

theorem State.chkOwnerApply_sound {s : State} (n : Nat) (j : Nat) (new : Nat) (hs : Sound p q s) :
    Sound p q (State.chkOwnerApply s n j new) := by
  unfold State.chkOwnerApply
  repeat' first
    | with_reducible assumption
    | with_reducible apply foldl_sound
    | with_reducible apply State.setRw_sound
    | with_reducible apply State.chkMsg_sound
    | with_reducible apply State.forgetStaged_sound
    | with_reducible refine Sound.snd_of (by with_reducible assumption) ?_
    | with_reducible refine Sound.thd_of (by with_reducible assumption) ?_
    | intro _
    | split
    | dsimp only
    | with_reducible refine Sound.of_mk ?_ rfl rfl rfl rfl rfl rfl rfl rfl rfl rfl rfl rfl rfl

theorem State.ownerWrite_sound (a : RegAcc) {s : State} (hs : Sound p q s) :
    Sound p q (State.ownerWrite a s) := by
  unfold State.ownerWrite
  repeat' first
    | with_reducible assumption
    | with_reducible apply foldl_sound
    | with_reducible apply State.recAcc_sound
    | with_reducible apply State.denyReg_sound
    | with_reducible apply State.mirrorWrite_sound
    | with_reducible apply State.releaseSlot_sound
    | with_reducible apply State.ownerApply_sound
    | with_reducible refine Sound.snd_of (by with_reducible assumption) ?_
    | with_reducible refine Sound.thd_of (by with_reducible assumption) ?_
    | intro _
    | split
    | dsimp only
    | with_reducible refine Sound.of_mk ?_ rfl rfl rfl rfl rfl rfl rfl rfl rfl rfl rfl rfl rfl

theorem State.chkOwnerWrite_sound (a : RegAcc) {s : State} (hs : Sound p q s) :
    Sound p q (State.chkOwnerWrite a s) := by
  unfold State.chkOwnerWrite
  repeat' first
    | with_reducible assumption
    | with_reducible apply foldl_sound
    | with_reducible apply State.recAcc_sound
    | with_reducible apply State.denyReg_sound
    | with_reducible apply State.mirrorWrite_sound
    | with_reducible apply State.chkOwnerApply_sound
    | with_reducible refine Sound.snd_of (by with_reducible assumption) ?_
    | with_reducible refine Sound.thd_of (by with_reducible assumption) ?_
    | intro _
    | split
    | dsimp only
    | with_reducible refine Sound.of_mk ?_ rfl rfl rfl rfl rfl rfl rfl rfl rfl rfl rfl rfl rfl

theorem State.chkOwnerTaken_sound {s : State} (a : RegAcc) (hs : Sound p q s) :
    Sound p q (State.chkOwnerTaken s a) := by
  unfold State.chkOwnerTaken
  repeat' first
    | with_reducible assumption
    | with_reducible apply foldl_sound
    | with_reducible apply State.chkOwnerApply_sound
    | with_reducible refine Sound.snd_of (by with_reducible assumption) ?_
    | with_reducible refine Sound.thd_of (by with_reducible assumption) ?_
    | intro _
    | split
    | dsimp only
    | with_reducible refine Sound.of_mk ?_ rfl rfl rfl rfl rfl rfl rfl rfl rfl rfl rfl rfl rfl

end Sys2Proof.Machine
end

