-- ==== Sys2Proof/Laws/SoundCtrl.lean ====
section
/-! SUPPORT. Every operation of Machine/Ctrl.lean keeps the invariant of Safety.lean. -/

namespace Sys2Proof.Machine

set_option Elab.async false
set_option linter.all false

variable {p : Part} {q : List Instr}

theorem Sound.filterRegs {s : State} {f g : Nat × Word32 → Bool} {fa : Faults} (hs : Sound p q s) :
    Sound p q { s with regs := s.regs.filter f, shad := s.shad.filter g, faults := fa } :=
  ⟨hs.part, hs.queue, hs.mem, Sparse.wf_filter _ hs.regs, Sparse.wf_filter _ hs.shad, hs.copyRegs, hs.copyShad, hs.flash, hs.time, hs.jobs, hs.tables⟩

theorem State.resetPage_sound {s : State} (pg : Page) (keep : Nat → Bool) (hs : Sound p q s) :
    Sound p q (State.resetPage s pg keep) := by
  unfold State.resetPage
  refine State.setFld_sound _ _ _ _ (State.setFld_sound _ _ _ _ (foldl_sound (fun t x ht => ?_) hs.filterRegs))
  exact State.setSw_sound _ _ (State.setRw_sound _ _ ht)

theorem State.ctrlEnable_sound {s : State} (a : RegAcc) (granted : Bool) (enable : Bool → State → State) (hs : Sound p q s) (henable : ∀ (y0 : Bool) (y1 : State), Sound p q y1 → Sound p q (enable y0 y1)) :
    Sound p q (State.ctrlEnable s a granted enable) := by
  unfold State.ctrlEnable
  repeat' first
    | with_reducible assumption
    | with_reducible apply foldl_sound
    | with_reducible apply henable
    | with_reducible apply State.ungatePage_sound
    | with_reducible refine Sound.snd_of (by with_reducible assumption) ?_
    | with_reducible refine Sound.thd_of (by with_reducible assumption) ?_
    | intro _
    | split
    | dsimp only
    | with_reducible refine Sound.of_mk ?_ rfl rfl rfl rfl rfl rfl rfl rfl rfl rfl rfl rfl rfl

theorem State.ctrlReset_sound {s : State} (a : RegAcc) (granted : Bool) (reset : State → State) (hs : Sound p q s) (hreset : ∀ (y0 : State), Sound p q y0 → Sound p q (reset y0)) :
    Sound p q (State.ctrlReset s a granted reset) := by
  unfold State.ctrlReset
  repeat' first
    | with_reducible assumption
    | with_reducible apply foldl_sound
    | with_reducible apply hreset
    | with_reducible apply State.recAcc_sound
    | with_reducible refine Sound.snd_of (by with_reducible assumption) ?_
    | with_reducible refine Sound.thd_of (by with_reducible assumption) ?_
    | intro _
    | split
    | dsimp only
    | with_reducible refine Sound.of_mk ?_ rfl rfl rfl rfl rfl rfl rfl rfl rfl rfl rfl rfl rfl

theorem State.ctrlLock_sound {s : State} (a : RegAcc) (lock : Bool) (unlock : Bool) (hs : Sound p q s) :
    Sound p q (State.ctrlLock s a lock unlock) := by
  unfold State.ctrlLock
  repeat' first
    | with_reducible assumption
    | with_reducible apply foldl_sound
    | with_reducible apply State.setFld_sound
    | with_reducible refine Sound.snd_of (by with_reducible assumption) ?_
    | with_reducible refine Sound.thd_of (by with_reducible assumption) ?_
    | intro _
    | split
    | dsimp only
    | with_reducible refine Sound.of_mk ?_ rfl rfl rfl rfl rfl rfl rfl rfl rfl rfl rfl rfl rfl

theorem State.ctrlWrite_sound (a : RegAcc) (enable : Bool → State → State) (reset : State → State) {s : State} (henable : ∀ (y0 : Bool) (y1 : State), Sound p q y1 → Sound p q (enable y0 y1)) (hreset : ∀ (y0 : State), Sound p q y0 → Sound p q (reset y0)) (hs : Sound p q s) :
    Sound p q (State.ctrlWrite a enable reset s) := by
  unfold State.ctrlWrite
  repeat' first
    | with_reducible assumption
    | with_reducible apply foldl_sound
    | with_reducible apply henable
    | with_reducible apply hreset
    | with_reducible apply State.recErr_sound
    | with_reducible apply State.recRefused_sound
    | with_reducible apply State.mirrorWrite_sound
    | with_reducible apply State.ctrlEnable_sound
    | with_reducible apply State.ctrlReset_sound
    | with_reducible apply State.ctrlLock_sound
    | with_reducible refine Sound.snd_of (by with_reducible assumption) ?_
    | with_reducible refine Sound.thd_of (by with_reducible assumption) ?_
    | intro _
    | split
    | dsimp only
    | with_reducible refine Sound.of_mk ?_ rfl rfl rfl rfl rfl rfl rfl rfl rfl rfl rfl rfl rfl

theorem State.plainEnable_sound (pg : Page) (on : Bool) {s : State} (hs : Sound p q s) :
    Sound p q (State.plainEnable pg on s) := by
  unfold State.plainEnable
  repeat' first
    | with_reducible assumption
    | with_reducible apply foldl_sound
    | with_reducible apply State.setFld_sound
    | with_reducible refine Sound.snd_of (by with_reducible assumption) ?_
    | with_reducible refine Sound.thd_of (by with_reducible assumption) ?_
    | intro _
    | split
    | dsimp only
    | with_reducible refine Sound.of_mk ?_ rfl rfl rfl rfl rfl rfl rfl rfl rfl rfl rfl rfl rfl

theorem State.mirroredEnable_sound (a : RegAcc) (on : Bool) {s : State} (hs : Sound p q s) :
    Sound p q (State.mirroredEnable a on s) := by
  unfold State.mirroredEnable
  repeat' first
    | with_reducible assumption
    | with_reducible apply foldl_sound
    | with_reducible apply State.mirrorWrite_sound
    | with_reducible apply State.plainEnable_sound
    | with_reducible refine Sound.snd_of (by with_reducible assumption) ?_
    | with_reducible refine Sound.thd_of (by with_reducible assumption) ?_
    | intro _
    | split
    | dsimp only
    | with_reducible refine Sound.of_mk ?_ rfl rfl rfl rfl rfl rfl rfl rfl rfl rfl rfl rfl rfl

end Sys2Proof.Machine
end

