-- ==== Sys2Proof/Laws/SoundHostPorts.lean ====
section
/-! SUPPORT. Every operation of Machine/HostPorts.lean keeps the invariant of Safety.lean. -/

namespace Sys2Proof.Machine

set_option Elab.async false
set_option linter.all false

variable {p : Part} {q : List Instr}

theorem State.setFn_sound {s : State} (f : Nat) (x : Fn) (hs : Sound p q s) :
    Sound p q (State.setFn s f x) := by
  unfold State.setFn
  repeat' first
    | with_reducible assumption
    | with_reducible apply foldl_sound
    | with_reducible refine Sound.snd_of (by with_reducible assumption) ?_
    | with_reducible refine Sound.thd_of (by with_reducible assumption) ?_
    | intro _
    | split
    | dsimp only
    | with_reducible refine Sound.of_mk ?_ rfl rfl rfl rfl rfl rfl rfl rfl rfl rfl rfl rfl rfl

theorem State.queueErrorEvt_sound {s : State} (fn : Nat) (hs : Sound p q s) :
    Sound p q (State.queueErrorEvt s fn) := by
  unfold State.queueErrorEvt
  repeat' first
    | with_reducible assumption
    | with_reducible apply foldl_sound
    | with_reducible apply State.event_sound
    | with_reducible refine Sound.snd_of (by with_reducible assumption) ?_
    | with_reducible refine Sound.thd_of (by with_reducible assumption) ?_
    | intro _
    | split
    | dsimp only
    | with_reducible refine Sound.of_mk ?_ rfl rfl rfl rfl rfl rfl rfl rfl rfl rfl rfl rfl rfl

theorem State.queueError_sound {s : State} (fn : Nat) (x2 : Nat) (code : Nat) (info : Nat) (hs : Sound p q s) :
    Sound p q (State.queueError s fn x2 code info) := by
  unfold State.queueError
  repeat' first
    | with_reducible assumption
    | with_reducible apply foldl_sound
    | with_reducible apply State.recErr_sound
    | with_reducible apply State.setQueue_sound
    | with_reducible apply State.queueErrorEvt_sound
    | with_reducible refine Sound.snd_of (by with_reducible assumption) ?_
    | with_reducible refine Sound.thd_of (by with_reducible assumption) ?_
    | intro _
    | split
    | dsimp only
    | with_reducible refine Sound.of_mk ?_ rfl rfl rfl rfl rfl rfl rfl rfl rfl rfl rfl rfl rfl

theorem State.queueToIdle_sound {s : State} (fn : Nat) (x2 : Nat) (hs : Sound p q s) :
    Sound p q (State.queueToIdle s fn x2) := by
  unfold State.queueToIdle
  repeat' first
    | with_reducible assumption
    | with_reducible apply foldl_sound
    | with_reducible apply State.setQueue_sound
    | with_reducible apply State.keepJobs_sound
    | with_reducible refine Sound.snd_of (by with_reducible assumption) ?_
    | with_reducible refine Sound.thd_of (by with_reducible assumption) ?_
    | intro _
    | split
    | dsimp only
    | with_reducible refine Sound.of_mk ?_ rfl rfl rfl rfl rfl rfl rfl rfl rfl rfl rfl rfl rfl

theorem State.sqDoorbell_sound {s : State} (fn : Nat) (x2 : Nat) (tail : Nat) (info : Nat) (hs : Sound p q s) :
    Sound p q (State.sqDoorbell s fn x2 tail info) := by
  unfold State.sqDoorbell
  repeat' first
    | with_reducible assumption
    | with_reducible apply foldl_sound
    | with_reducible apply State.recErr_sound
    | with_reducible apply State.setQueue_sound
    | with_reducible apply State.queueError_sound
    | with_reducible refine Sound.snd_of (by with_reducible assumption) ?_
    | with_reducible refine Sound.thd_of (by with_reducible assumption) ?_
    | intro _
    | split
    | dsimp only
    | with_reducible refine Sound.of_mk ?_ rfl rfl rfl rfl rfl rfl rfl rfl rfl rfl rfl rfl rfl

theorem State.cqDoorbell_sound {s : State} (fn : Nat) (x2 : Nat) (head : Nat) (info : Nat) (hs : Sound p q s) :
    Sound p q (State.cqDoorbell s fn x2 head info) := by
  unfold State.cqDoorbell
  repeat' first
    | with_reducible assumption
    | with_reducible apply foldl_sound
    | with_reducible apply State.recErr_sound
    | with_reducible apply State.setQueue_sound
    | with_reducible apply State.releaseHeld_sound
    | with_reducible apply State.drainCheck_sound
    | with_reducible apply State.queueErrorEvt_sound
    | with_reducible apply State.queueError_sound
    | with_reducible refine Sound.snd_of (by with_reducible assumption) ?_
    | with_reducible refine Sound.thd_of (by with_reducible assumption) ?_
    | intro _
    | split
    | dsimp only
    | with_reducible refine Sound.of_mk ?_ rfl rfl rfl rfl rfl rfl rfl rfl rfl rfl rfl rfl rfl

theorem State.doorbellWrite_sound (a : RegAcc) {s : State} (hs : Sound p q s) :
    Sound p q (State.doorbellWrite a s) := by
  unfold State.doorbellWrite
  repeat' first
    | with_reducible assumption
    | with_reducible apply foldl_sound
    | with_reducible apply State.recRefused_sound
    | with_reducible apply State.sqDoorbell_sound
    | with_reducible apply State.cqDoorbell_sound
    | with_reducible refine Sound.snd_of (by with_reducible assumption) ?_
    | with_reducible refine Sound.thd_of (by with_reducible assumption) ?_
    | intro _
    | split
    | dsimp only
    | with_reducible refine Sound.of_mk ?_ rfl rfl rfl rfl rfl rfl rfl rfl rfl rfl rfl rfl rfl

theorem State.queueEnable_sound {s : State} (fn : Nat) (x2 : Nat) (a : RegAcc) (hs : Sound p q s) :
    Sound p q (State.queueEnable s fn x2 a) := by
  unfold State.queueEnable
  repeat' first
    | with_reducible assumption
    | with_reducible apply foldl_sound
    | with_reducible apply State.setFld_sound
    | with_reducible apply State.recAcc_sound
    | with_reducible apply State.setQueue_sound
    | with_reducible refine Sound.snd_of (by with_reducible assumption) ?_
    | with_reducible refine Sound.thd_of (by with_reducible assumption) ?_
    | intro _
    | split
    | dsimp only
    | with_reducible refine Sound.of_mk ?_ rfl rfl rfl rfl rfl rfl rfl rfl rfl rfl rfl rfl rfl

theorem State.queueDisable_sound {s : State} (fn : Nat) (x2 : Nat) (hs : Sound p q s) :
    Sound p q (State.queueDisable s fn x2) := by
  unfold State.queueDisable
  repeat' first
    | with_reducible assumption
    | with_reducible apply foldl_sound
    | with_reducible apply State.setFld_sound
    | with_reducible apply State.setQueue_sound
    | with_reducible apply State.queueToIdle_sound
    | with_reducible refine Sound.snd_of (by with_reducible assumption) ?_
    | with_reducible refine Sound.thd_of (by with_reducible assumption) ?_
    | intro _
    | split
    | dsimp only
    | with_reducible refine Sound.of_mk ?_ rfl rfl rfl rfl rfl rfl rfl rfl rfl rfl rfl rfl rfl

theorem State.qCtrlWrite_sound (a : RegAcc) {s : State} (hs : Sound p q s) :
    Sound p q (State.qCtrlWrite a s) := by
  unfold State.qCtrlWrite
  repeat' first
    | with_reducible assumption
    | with_reducible apply foldl_sound
    | with_reducible apply State.plainWrite_sound
    | with_reducible apply State.queueEnable_sound
    | with_reducible apply State.queueDisable_sound
    | with_reducible refine Sound.snd_of (by with_reducible assumption) ?_
    | with_reducible refine Sound.thd_of (by with_reducible assumption) ?_
    | intro _
    | split
    | dsimp only
    | with_reducible refine Sound.of_mk ?_ rfl rfl rfl rfl rfl rfl rfl rfl rfl rfl rfl rfl rfl

theorem State.qSetupWrite_sound (a : RegAcc) {s : State} (hs : Sound p q s) :
    Sound p q (State.qSetupWrite a s) := by
  unfold State.qSetupWrite
  repeat' first
    | with_reducible assumption
    | with_reducible apply foldl_sound
    | with_reducible apply State.refuse_sound
    | with_reducible apply State.plainWrite_sound
    | with_reducible refine Sound.snd_of (by with_reducible assumption) ?_
    | with_reducible refine Sound.thd_of (by with_reducible assumption) ?_
    | intro _
    | split
    | dsimp only
    | with_reducible refine Sound.of_mk ?_ rfl rfl rfl rfl rfl rfl rfl rfl rfl rfl rfl rfl rfl

theorem State.peerAccess_sound {s : State} (fn : Nat) (rid : Nat) (off : Nat) (wr : Option Word32) (hs : Sound p q s) :
    Sound p q (State.peerAccess s fn rid off wr) := by
  unfold State.peerAccess
  repeat' first
    | with_reducible assumption
    | with_reducible apply foldl_sound
    | with_reducible apply State.satFld_sound
    | with_reducible apply State.emit_sound
    | with_reducible apply State.event_sound
    | with_reducible apply State.doorbellWrite_sound
    | with_reducible refine Sound.snd_of (by with_reducible assumption) ?_
    | with_reducible refine Sound.thd_of (by with_reducible assumption) ?_
    | intro _
    | split
    | dsimp only
    | with_reducible refine Sound.of_mk ?_ rfl rfl rfl rfl rfl rfl rfl rfl rfl rfl rfl rfl rfl

theorem State.coalesceTimeout_sound {s : State} (fn : Nat) (x2 : Nat) (hs : Sound p q s) :
    Sound p q (State.coalesceTimeout s fn x2) := by
  unfold State.coalesceTimeout
  repeat' first
    | with_reducible assumption
    | with_reducible apply foldl_sound
    | with_reducible apply State.signalQueue_sound
    | with_reducible refine Sound.snd_of (by with_reducible assumption) ?_
    | with_reducible refine Sound.thd_of (by with_reducible assumption) ?_
    | intro _
    | split
    | dsimp only
    | with_reducible refine Sound.of_mk ?_ rfl rfl rfl rfl rfl rfl rfl rfl rfl rfl rfl rfl rfl

theorem State.carryFnQuery_sound (j : Job) {s : State} (hs : Sound p q s) :
    Sound p q (State.carryFnQuery j s) := by
  unfold State.carryFnQuery
  repeat' first
    | with_reducible assumption
    | with_reducible apply foldl_sound
    | with_reducible apply State.complete_sound
    | with_reducible refine Sound.snd_of (by with_reducible assumption) ?_
    | with_reducible refine Sound.thd_of (by with_reducible assumption) ?_
    | intro _
    | split
    | dsimp only
    | with_reducible refine Sound.of_mk ?_ rfl rfl rfl rfl rfl rfl rfl rfl rfl rfl rfl rfl rfl

theorem State.carryNop_sound (j : Job) {s : State} (hs : Sound p q s) :
    Sound p q (State.carryNop j s) := by
  unfold State.carryNop
  repeat' first
    | with_reducible assumption
    | with_reducible apply foldl_sound
    | with_reducible apply State.complete_sound
    | with_reducible refine Sound.snd_of (by with_reducible assumption) ?_
    | with_reducible refine Sound.thd_of (by with_reducible assumption) ?_
    | intro _
    | split
    | dsimp only
    | with_reducible refine Sound.of_mk ?_ rfl rfl rfl rfl rfl rfl rfl rfl rfl rfl rfl rfl rfl

theorem State.mgrRoleWrite_sound (a : RegAcc) {s : State} (hs : Sound p q s) :
    Sound p q (State.mgrRoleWrite a s) := by
  unfold State.mgrRoleWrite
  repeat' first
    | with_reducible assumption
    | with_reducible apply foldl_sound
    | with_reducible apply State.setFld_sound
    | with_reducible apply State.recAcc_sound
    | with_reducible apply State.recRefused_sound
    | with_reducible refine Sound.snd_of (by with_reducible assumption) ?_
    | with_reducible refine Sound.thd_of (by with_reducible assumption) ?_
    | intro _
    | split
    | dsimp only
    | with_reducible refine Sound.of_mk ?_ rfl rfl rfl rfl rfl rfl rfl rfl rfl rfl rfl rfl rfl

theorem State.deliverPending_sound {s : State} (fn : Nat) (hs : Sound p q s) :
    Sound p q (State.deliverPending s fn) := by
  unfold State.deliverPending
  repeat' first
    | with_reducible assumption
    | with_reducible apply foldl_sound
    | with_reducible apply State.emit_sound
    | with_reducible refine Sound.snd_of (by with_reducible assumption) ?_
    | with_reducible refine Sound.thd_of (by with_reducible assumption) ?_
    | intro _
    | split
    | dsimp only
    | with_reducible refine Sound.of_mk ?_ rfl rfl rfl rfl rfl rfl rfl rfl rfl rfl rfl rfl rfl

theorem State.unmask_sound {s : State} (fn : Nat) (vec : Nat) (hs : Sound p q s) :
    Sound p q (State.unmask s fn vec) := by
  unfold State.unmask
  repeat' first
    | with_reducible assumption
    | with_reducible apply foldl_sound
    | with_reducible apply State.emit_sound
    | with_reducible refine Sound.snd_of (by with_reducible assumption) ?_
    | with_reducible refine Sound.thd_of (by with_reducible assumption) ?_
    | intro _
    | split
    | dsimp only
    | with_reducible refine Sound.of_mk ?_ rfl rfl rfl rfl rfl rfl rfl rfl rfl rfl rfl rfl rfl

end Sys2Proof.Machine
end

