-- ==== Sys2Proof/Laws/SoundIngest.lean ====
section
/-! SUPPORT. Every operation of Machine/Ingest.lean keeps the invariant of Safety.lean. -/

namespace Sys2Proof.Machine

set_option Elab.async false
set_option linter.all false

variable {p : Part} {q : List Instr}

theorem State.setEngine_sound {s : State} (n : Nat) (e : IngEngine) (hs : Sound p q s) :
    Sound p q (State.setEngine s n e) := by
  unfold State.setEngine
  repeat' first
    | with_reducible assumption
    | with_reducible apply foldl_sound
    | with_reducible refine Sound.snd_of (by with_reducible assumption) ?_
    | with_reducible refine Sound.thd_of (by with_reducible assumption) ?_
    | intro _
    | split
    | dsimp only
    | with_reducible refine Sound.of_mk ?_ rfl rfl rfl rfl rfl rfl rfl rfl rfl rfl rfl rfl rfl

theorem State.ingStat_sound {s : State} (n : Nat) (hs : Sound p q s) :
    Sound p q (State.ingStat s n) := by
  unfold State.ingStat
  repeat' first
    | with_reducible assumption
    | with_reducible apply foldl_sound
    | with_reducible apply State.setFld_sound
    | with_reducible refine Sound.snd_of (by with_reducible assumption) ?_
    | with_reducible refine Sound.thd_of (by with_reducible assumption) ?_
    | intro _
    | split
    | dsimp only
    | with_reducible refine Sound.of_mk ?_ rfl rfl rfl rfl rfl rfl rfl rfl rfl rfl rfl rfl rfl

theorem State.mirrorWords_sound {s : State} (i : Nat) (b : Nat) (words : Nat) (fn : Nat) (world : Bool) (hs : Sound p q s) :
    Sound p q (State.mirrorWords s i b words fn world) := by
  unfold State.mirrorWords
  repeat' first
    | with_reducible assumption
    | with_reducible apply foldl_sound
    | with_reducible apply State.mirror_sound
    | with_reducible apply State.fence_sound
    | with_reducible refine Sound.snd_of (by with_reducible assumption) ?_
    | with_reducible refine Sound.thd_of (by with_reducible assumption) ?_
    | intro _
    | split
    | dsimp only
    | with_reducible refine Sound.of_mk ?_ rfl rfl rfl rfl rfl rfl rfl rfl rfl rfl rfl rfl rfl

theorem State.writeBuf_sound {s : State} (who : Attr) (i : Nat) (b : Nat) (x4 : List Nat) (hs : Sound p q s) :
    Sound p q (State.writeBuf s who i b x4).2.2 := by
  induction x4 generalizing s who i b with
  | nil =>
    unfold State.writeBuf
    repeat' first
      | with_reducible assumption
      | with_reducible apply foldl_sound
      | with_reducible apply State.writeWordAs_sound
      | with_reducible apply State.mirrorWords_sound
      | with_reducible refine Sound.snd_of (by with_reducible assumption) ?_
      | with_reducible refine Sound.thd_of (by with_reducible assumption) ?_
      | intro _
      | split
      | dsimp only
      | with_reducible refine Sound.of_mk ?_ rfl rfl rfl rfl rfl rfl rfl rfl rfl rfl rfl rfl rfl
  | cons _ _ ih =>
    unfold State.writeBuf
    repeat' first
      | with_reducible assumption
      | with_reducible apply ih
      | with_reducible apply foldl_sound
      | with_reducible apply State.writeWordAs_sound
      | with_reducible apply State.mirrorWords_sound
      | with_reducible refine Sound.snd_of (by with_reducible assumption) ?_
      | with_reducible refine Sound.thd_of (by with_reducible assumption) ?_
      | intro _
      | split
      | dsimp only
      | with_reducible refine Sound.of_mk ?_ rfl rfl rfl rfl rfl rfl rfl rfl rfl rfl rfl rfl rfl

theorem State.writeMeta_sound {s : State} (who : Attr) (i : Nat) (b : Nat) (entry : Nat) (hs : Sound p q s) :
    Sound p q (State.writeMeta s who i b entry).2 := by
  unfold State.writeMeta
  repeat' first
    | with_reducible assumption
    | with_reducible apply foldl_sound
    | with_reducible apply State.pmcCount_sound
    | with_reducible apply State.pokeBytes_sound
    | with_reducible apply State.guardDram_sound
    | with_reducible apply State.mirrorWords_sound
    | with_reducible refine Sound.snd_of (by with_reducible assumption) ?_
    | with_reducible refine Sound.thd_of (by with_reducible assumption) ?_
    | intro _
    | split
    | dsimp only
    | with_reducible refine Sound.of_mk ?_ rfl rfl rfl rfl rfl rfl rfl rfl rfl rfl rfl rfl rfl

theorem State.ingNote_sound {s : State} (n : Nat) (fn : Nat) (words : Nat) (hs : Sound p q s) :
    Sound p q (State.ingNote s n fn words) := by
  unfold State.ingNote
  repeat' first
    | with_reducible assumption
    | with_reducible apply foldl_sound
    | with_reducible apply State.addCnt_sound
    | with_reducible apply State.pmcCount_sound
    | with_reducible refine Sound.snd_of (by with_reducible assumption) ?_
    | with_reducible refine Sound.thd_of (by with_reducible assumption) ?_
    | intro _
    | split
    | dsimp only
    | with_reducible refine Sound.of_mk ?_ rfl rfl rfl rfl rfl rfl rfl rfl rfl rfl rfl rfl rfl

theorem State.ingSeedTile_sound {s : State} (n : Nat) (c : IngCmd) (who : Attr) (base : Nat × Nat) (idx : Nat) (enc : Seedbed.Encoded) (hs : Sound p q s) :
    Sound p q (State.ingSeedTile s n c who base idx enc).2.2 := by
  unfold State.ingSeedTile
  repeat' first
    | with_reducible assumption
    | with_reducible apply foldl_sound
    | with_reducible apply State.addFld_sound
    | with_reducible apply State.addCnt_sound
    | with_reducible apply State.writeBuf_sound
    | with_reducible apply State.writeMeta_sound
    | with_reducible apply State.ingNote_sound
    | with_reducible refine Sound.snd_of (by with_reducible assumption) ?_
    | with_reducible refine Sound.thd_of (by with_reducible assumption) ?_
    | intro _
    | split
    | dsimp only
    | with_reducible refine Sound.of_mk ?_ rfl rfl rfl rfl rfl rfl rfl rfl rfl rfl rfl rfl rfl

theorem State.ingPlainTile_sound {s : State} (n : Nat) (c : IngCmd) (who : Attr) (addr : Nat) (ws : List Nat) (hs : Sound p q s) :
    Sound p q (State.ingPlainTile s n c who addr ws).2.2 := by
  unfold State.ingPlainTile
  repeat' first
    | with_reducible assumption
    | with_reducible apply foldl_sound
    | with_reducible apply State.addCnt_sound
    | with_reducible apply State.writeBuf_sound
    | with_reducible apply State.ingNote_sound
    | with_reducible refine Sound.snd_of (by with_reducible assumption) ?_
    | with_reducible refine Sound.thd_of (by with_reducible assumption) ?_
    | intro _
    | split
    | dsimp only
    | with_reducible refine Sound.of_mk ?_ rfl rfl rfl rfl rfl rfl rfl rfl rfl rfl rfl rfl rfl

theorem State.ingTile_sound {s : State} (n : Nat) (c : IngCmd) (host : List (Nat × Byte)) (t : Nat × Seedbed.Plane × Nat × Nat)
    (hs : Sound p q s) : Sound p q (State.ingTile s n c host t).2.2 := by
  obtain ⟨a, pl, tx, ty⟩ := t
  simp only [State.ingTile]
  split
  · exact State.ingSeedTile_sound _ _ _ _ _ _ (State.addCnt_sound _ _ _ _ _ hs)
  · exact State.ingPlainTile_sound _ _ _ _ _ (State.addCnt_sound _ _ _ _ _ hs)

theorem State.ingTiles_sound {s : State} (n : Nat) (c : IngCmd) (host : List (Nat × Byte)) (x4 : List (Nat × Seedbed.Plane × Nat × Nat)) (hs : Sound p q s) :
    Sound p q (State.ingTiles s n c host x4).2.2 := by
  induction x4 generalizing s n c host with
  | nil =>
    unfold State.ingTiles
    repeat' first
      | with_reducible assumption
      | with_reducible apply foldl_sound
      | with_reducible apply State.ingTile_sound
      | with_reducible refine Sound.snd_of (by with_reducible assumption) ?_
      | with_reducible refine Sound.thd_of (by with_reducible assumption) ?_
      | intro _
      | split
      | dsimp only
      | with_reducible refine Sound.of_mk ?_ rfl rfl rfl rfl rfl rfl rfl rfl rfl rfl rfl rfl rfl
  | cons _ _ ih =>
    unfold State.ingTiles
    repeat' first
      | with_reducible assumption
      | with_reducible apply ih
      | with_reducible apply foldl_sound
      | with_reducible apply State.ingTile_sound
      | with_reducible refine Sound.snd_of (by with_reducible assumption) ?_
      | with_reducible refine Sound.thd_of (by with_reducible assumption) ?_
      | intro _
      | split
      | dsimp only
      | with_reducible refine Sound.of_mk ?_ rfl rfl rfl rfl rfl rfl rfl rfl rfl rfl rfl rfl rfl

theorem State.ingEnd_sound {s : State} (n : Nat) (slot : Nat) (c : IngCmd) (status : Nat) (hs : Sound p q s) :
    Sound p q (State.ingEnd s n slot c status) := by
  unfold State.ingEnd
  repeat' first
    | with_reducible assumption
    | with_reducible apply foldl_sound
    | with_reducible apply State.complete_sound
    | with_reducible apply State.unfence_sound
    | with_reducible apply State.setEngine_sound
    | with_reducible apply State.ingStat_sound
    | with_reducible refine Sound.snd_of (by with_reducible assumption) ?_
    | with_reducible refine Sound.thd_of (by with_reducible assumption) ?_
    | intro _
    | split
    | dsimp only
    | with_reducible refine Sound.of_mk ?_ rfl rfl rfl rfl rfl rfl rfl rfl rfl rfl rfl rfl rfl

theorem State.ingestDone_sound {s : State} (n : Nat) (slot : Nat) (host : List (Nat × Byte)) (hs : Sound p q s) :
    Sound p q (State.ingestDone s n slot host) := by
  unfold State.ingestDone
  repeat' first
    | with_reducible assumption
    | with_reducible apply foldl_sound
    | with_reducible apply State.event_sound
    | with_reducible apply State.recErr_sound
    | with_reducible apply State.ingTiles_sound
    | with_reducible apply State.ingEnd_sound
    | with_reducible refine Sound.snd_of (by with_reducible assumption) ?_
    | with_reducible refine Sound.thd_of (by with_reducible assumption) ?_
    | intro _
    | split
    | dsimp only
    | with_reducible refine Sound.of_mk ?_ rfl rfl rfl rfl rfl rfl rfl rfl rfl rfl rfl rfl rfl

theorem State.hostReadError_sound {s : State} (n : Nat) (slot : Nat) (kind : Nat) (addr : Nat) (tiles : Nat) (host : List (Nat × Byte)) (hs : Sound p q s) :
    Sound p q (State.hostReadError s n slot kind addr tiles host) := by
  unfold State.hostReadError
  repeat' first
    | with_reducible assumption
    | with_reducible apply foldl_sound
    | with_reducible apply State.setRw_sound
    | with_reducible apply State.event_sound
    | with_reducible apply State.recErr_sound
    | with_reducible apply State.ingTiles_sound
    | with_reducible apply State.ingEnd_sound
    | with_reducible refine Sound.snd_of (by with_reducible assumption) ?_
    | with_reducible refine Sound.thd_of (by with_reducible assumption) ?_
    | intro _
    | split
    | dsimp only
    | with_reducible refine Sound.of_mk ?_ rfl rfl rfl rfl rfl rfl rfl rfl rfl rfl rfl rfl rfl

theorem State.carryIngest_sound (j : Job) {s : State} (hs : Sound p q s) :
    Sound p q (State.carryIngest j s) := by
  unfold State.carryIngest
  repeat' first
    | with_reducible assumption
    | with_reducible apply foldl_sound
    | with_reducible apply State.complete_sound
    | with_reducible apply State.fence_sound
    | with_reducible apply State.setEngine_sound
    | with_reducible apply State.ingStat_sound
    | with_reducible refine Sound.snd_of (by with_reducible assumption) ?_
    | with_reducible refine Sound.thd_of (by with_reducible assumption) ?_
    | intro _
    | split
    | dsimp only
    | with_reducible refine Sound.of_mk ?_ rfl rfl rfl rfl rfl rfl rfl rfl rfl rfl rfl rfl rfl

theorem State.ingestStart_sound {s : State} (n : Nat) (slot : Nat) (hs : Sound p q s) :
    Sound p q (State.ingestStart s n slot) := by
  unfold State.ingestStart
  repeat' first
    | with_reducible assumption
    | with_reducible apply foldl_sound
    | with_reducible apply State.pickFn_sound
    | with_reducible apply State.served_sound
    | with_reducible apply State.setEngine_sound
    | with_reducible apply State.ingStat_sound
    | with_reducible refine Sound.snd_of (by with_reducible assumption) ?_
    | with_reducible refine Sound.thd_of (by with_reducible assumption) ?_
    | intro _
    | split
    | dsimp only
    | with_reducible refine Sound.of_mk ?_ rfl rfl rfl rfl rfl rfl rfl rfl rfl rfl rfl rfl rfl

theorem State.ingSquash_sound {s : State} (n : Nat) (which : IngCmd → Bool) (abort : Bool) (hs : Sound p q s) :
    Sound p q (State.ingSquash s n which abort) := by
  unfold State.ingSquash
  repeat' first
    | with_reducible assumption
    | with_reducible apply foldl_sound
    | with_reducible apply State.event_sound
    | with_reducible apply State.complete_sound
    | with_reducible apply State.unfence_sound
    | with_reducible apply State.setEngine_sound
    | with_reducible apply State.ingStat_sound
    | with_reducible refine Sound.snd_of (by with_reducible assumption) ?_
    | with_reducible refine Sound.thd_of (by with_reducible assumption) ?_
    | intro _
    | split
    | dsimp only
    | with_reducible refine Sound.of_mk ?_ rfl rfl rfl rfl rfl rfl rfl rfl rfl rfl rfl rfl rfl

theorem State.ingCtrlWrite_sound (a : RegAcc) {s : State} (hs : Sound p q s) :
    Sound p q (State.ingCtrlWrite a s) := by
  unfold State.ingCtrlWrite
  repeat' first
    | with_reducible assumption
    | with_reducible apply foldl_sound
    | with_reducible apply State.recAcc_sound
    | with_reducible apply State.plainWrite_sound
    | with_reducible refine Sound.snd_of (by with_reducible assumption) ?_
    | with_reducible refine Sound.thd_of (by with_reducible assumption) ?_
    | intro _
    | split
    | dsimp only
    | with_reducible refine Sound.of_mk ?_ rfl rfl rfl rfl rfl rfl rfl rfl rfl rfl rfl rfl rfl

end Sys2Proof.Machine
end

