-- ==== Sys2Proof/Laws/SoundTouch.lean ====
section
/-! SUPPORT. Every operation of Machine/Touch.lean keeps the invariant of Safety.lean. -/

namespace Sys2Proof.Machine

set_option Elab.async false
set_option linter.all false

variable {p : Part} {q : List Instr}

theorem State.setTouch_sound {s : State} (e : Nat) (x : TouchEngine) (hs : Sound p q s) :
    Sound p q (State.setTouch s e x) := by
  unfold State.setTouch
  repeat' first
    | with_reducible assumption
    | with_reducible apply foldl_sound
    | with_reducible refine Sound.snd_of (by with_reducible assumption) ?_
    | with_reducible refine Sound.thd_of (by with_reducible assumption) ?_
    | intro _
    | split
    | dsimp only
    | with_reducible refine Sound.of_mk ?_ rfl rfl rfl rfl rfl rfl rfl rfl rfl rfl rfl rfl rfl

theorem State.setPanel_sound {s : State} (e : Nat) (x2 : Nat) (x : Panel) (hs : Sound p q s) :
    Sound p q (State.setPanel s e x2 x) := by
  unfold State.setPanel
  repeat' first
    | with_reducible assumption
    | with_reducible apply foldl_sound
    | with_reducible apply State.setFld_sound
    | with_reducible apply State.setTouch_sound
    | with_reducible refine Sound.snd_of (by with_reducible assumption) ?_
    | with_reducible refine Sound.thd_of (by with_reducible assumption) ?_
    | intro _
    | split
    | dsimp only
    | with_reducible refine Sound.of_mk ?_ rfl rfl rfl rfl rfl rfl rfl rfl rfl rfl rfl rfl rfl

theorem State.recPanelFault_sound {s : State} (e : Nat) (x : PanelFault) (hs : Sound p q s) :
    Sound p q (State.recPanelFault s e x) := by
  unfold State.recPanelFault
  repeat' first
    | with_reducible assumption
    | with_reducible apply foldl_sound
    | with_reducible apply State.recErr_sound
    | with_reducible refine Sound.snd_of (by with_reducible assumption) ?_
    | with_reducible refine Sound.thd_of (by with_reducible assumption) ?_
    | intro _
    | split
    | dsimp only
    | with_reducible refine Sound.of_mk ?_ rfl rfl rfl rfl rfl rfl rfl rfl rfl rfl rfl rfl rfl

theorem State.touchUnbind_sound {s : State} (e : Nat) (x2 : Nat) (hs : Sound p q s) :
    Sound p q (State.touchUnbind s e x2) := by
  unfold State.touchUnbind
  repeat' first
    | with_reducible assumption
    | with_reducible apply foldl_sound
    | with_reducible apply State.setFld_sound
    | with_reducible apply State.event_sound
    | with_reducible refine Sound.snd_of (by with_reducible assumption) ?_
    | with_reducible refine Sound.thd_of (by with_reducible assumption) ?_
    | intro _
    | split
    | dsimp only
    | with_reducible refine Sound.of_mk ?_ rfl rfl rfl rfl rfl rfl rfl rfl rfl rfl rfl rfl rfl

theorem State.touchWrite_sound {s : State} (e : Nat) (x2 : Nat) (b : Nat) (ws : List Nat) (hs : Sound p q s) :
    Sound p q (State.touchWrite s e x2 b ws).2 := by
  unfold State.touchWrite
  repeat' first
    | with_reducible assumption
    | with_reducible apply foldl_sound
    | with_reducible apply State.writeBuf_sound
    | with_reducible apply State.touchUnbind_sound
    | with_reducible refine Sound.snd_of (by with_reducible assumption) ?_
    | with_reducible refine Sound.thd_of (by with_reducible assumption) ?_
    | intro _
    | split
    | dsimp only
    | with_reducible refine Sound.of_mk ?_ rfl rfl rfl rfl rfl rfl rfl rfl rfl rfl rfl rfl rfl

theorem State.snapshot_sound {s : State} (e : Nat) (x2 : Nat) (hs : Sound p q s) :
    Sound p q (State.snapshot s e x2) := by
  unfold State.snapshot
  repeat' first
    | with_reducible assumption
    | with_reducible apply foldl_sound
    | with_reducible apply State.touchWrite_sound
    | with_reducible refine Sound.snd_of (by with_reducible assumption) ?_
    | with_reducible refine Sound.thd_of (by with_reducible assumption) ?_
    | intro _
    | split
    | dsimp only
    | with_reducible refine Sound.of_mk ?_ rfl rfl rfl rfl rfl rfl rfl rfl rfl rfl rfl rfl rfl

theorem State.touchHost_sound {s : State} (e : Nat) (x2 : Nat) (seq : Nat) (ws : List Nat) (hs : Sound p q s) :
    Sound p q (State.touchHost s e x2 seq ws) := by
  unfold State.touchHost
  repeat' first
    | with_reducible assumption
    | with_reducible apply foldl_sound
    | with_reducible apply State.satFld_sound
    | with_reducible apply State.emit_sound
    | with_reducible apply State.sendMsg_sound
    | with_reducible refine Sound.snd_of (by with_reducible assumption) ?_
    | with_reducible refine Sound.thd_of (by with_reducible assumption) ?_
    | intro _
    | split
    | dsimp only
    | with_reducible refine Sound.of_mk ?_ rfl rfl rfl rfl rfl rfl rfl rfl rfl rfl rfl rfl rfl

theorem State.storeRecord_sound {s : State} (e : Nat) (x2 : Nat) (seq : Nat) (ws : List Nat) (hs : Sound p q s) :
    Sound p q (State.storeRecord s e x2 seq ws) := by
  unfold State.storeRecord
  repeat' first
    | with_reducible assumption
    | with_reducible apply foldl_sound
    | with_reducible apply State.touchWrite_sound
    | with_reducible refine Sound.snd_of (by with_reducible assumption) ?_
    | with_reducible refine Sound.thd_of (by with_reducible assumption) ?_
    | intro _
    | split
    | dsimp only
    | with_reducible refine Sound.of_mk ?_ rfl rfl rfl rfl rfl rfl rfl rfl rfl rfl rfl rfl rfl

theorem State.touchRecord_sound {s : State} (e : Nat) (x2 : Nat) (overflow : Bool) (es : List TouchEntry) (hs : Sound p q s) :
    Sound p q (State.touchRecord s e x2 overflow es) := by
  unfold State.touchRecord
  repeat' first
    | with_reducible assumption
    | with_reducible apply foldl_sound
    | with_reducible apply State.setFld_sound
    | with_reducible apply State.setPanel_sound
    | with_reducible apply State.touchHost_sound
    | with_reducible apply State.storeRecord_sound
    | with_reducible refine Sound.snd_of (by with_reducible assumption) ?_
    | with_reducible refine Sound.thd_of (by with_reducible assumption) ?_
    | intro _
    | split
    | dsimp only
    | with_reducible refine Sound.of_mk ?_ rfl rfl rfl rfl rfl rfl rfl rfl rfl rfl rfl rfl rfl

theorem State.handOff_sound {s : State} (e : Nat) (x2 : Nat) (es : List TouchEntry) (hs : Sound p q s) :
    Sound p q (State.handOff s e x2 es) := by
  unfold State.handOff
  repeat' first
    | with_reducible assumption
    | with_reducible apply foldl_sound
    | with_reducible refine Sound.snd_of (by with_reducible assumption) ?_
    | with_reducible refine Sound.thd_of (by with_reducible assumption) ?_
    | intro _
    | split
    | dsimp only
    | with_reducible refine Sound.of_mk ?_ rfl rfl rfl rfl rfl rfl rfl rfl rfl rfl rfl rfl rfl

theorem State.panelStartWith_sound {s : State} (snap : Bool) (e : Nat) (x3 : Nat) (hs : Sound p q s) :
    Sound p q (State.panelStartWith s snap e x3) := by
  unfold State.panelStartWith
  repeat' first
    | with_reducible assumption
    | with_reducible apply foldl_sound
    | with_reducible apply State.setFld_sound
    | with_reducible apply State.setPanel_sound
    | with_reducible refine Sound.snd_of (by with_reducible assumption) ?_
    | with_reducible refine Sound.thd_of (by with_reducible assumption) ?_
    | intro _
    | split
    | dsimp only
    | with_reducible refine Sound.of_mk ?_ rfl rfl rfl rfl rfl rfl rfl rfl rfl rfl rfl rfl rfl

theorem State.panelStart_sound {s : State} (e : Nat) (x2 : Nat) (hs : Sound p q s) :
    Sound p q (State.panelStart s e x2) := by
  unfold State.panelStart
  repeat' first
    | with_reducible assumption
    | with_reducible apply foldl_sound
    | with_reducible apply State.panelStartWith_sound
    | with_reducible refine Sound.snd_of (by with_reducible assumption) ?_
    | with_reducible refine Sound.thd_of (by with_reducible assumption) ?_
    | intro _
    | split
    | dsimp only
    | with_reducible refine Sound.of_mk ?_ rfl rfl rfl rfl rfl rfl rfl rfl rfl rfl rfl rfl rfl

theorem State.panelStopped_sound {s : State} (e : Nat) (x2 : Nat) (hs : Sound p q s) :
    Sound p q (State.panelStopped s e x2) := by
  unfold State.panelStopped
  repeat' first
    | with_reducible assumption
    | with_reducible apply foldl_sound
    | with_reducible apply State.setPanel_sound
    | with_reducible apply State.snapshot_sound
    | with_reducible apply State.touchRecord_sound
    | with_reducible apply State.handOff_sound
    | with_reducible refine Sound.snd_of (by with_reducible assumption) ?_
    | with_reducible refine Sound.thd_of (by with_reducible assumption) ?_
    | intro _
    | split
    | dsimp only
    | with_reducible refine Sound.of_mk ?_ rfl rfl rfl rfl rfl rfl rfl rfl rfl rfl rfl rfl rfl

theorem State.panelStop_sound {s : State} (e : Nat) (x2 : Nat) (hs : Sound p q s) :
    Sound p q (State.panelStop s e x2) := by
  unfold State.panelStop
  repeat' first
    | with_reducible assumption
    | with_reducible apply foldl_sound
    | with_reducible apply State.setPanel_sound
    | with_reducible apply State.panelStopped_sound
    | with_reducible refine Sound.snd_of (by with_reducible assumption) ?_
    | with_reducible refine Sound.thd_of (by with_reducible assumption) ?_
    | intro _
    | split
    | dsimp only
    | with_reducible refine Sound.of_mk ?_ rfl rfl rfl rfl rfl rfl rfl rfl rfl rfl rfl rfl rfl

theorem State.touchStopped_sound {s : State} (e : Nat) (hs : Sound p q s) :
    Sound p q (State.touchStopped s e) := by
  unfold State.touchStopped
  repeat' first
    | with_reducible assumption
    | with_reducible apply foldl_sound
    | with_reducible apply State.setFld_sound
    | with_reducible apply State.setTouch_sound
    | with_reducible refine Sound.snd_of (by with_reducible assumption) ?_
    | with_reducible refine Sound.thd_of (by with_reducible assumption) ?_
    | intro _
    | split
    | dsimp only
    | with_reducible refine Sound.of_mk ?_ rfl rfl rfl rfl rfl rfl rfl rfl rfl rfl rfl rfl rfl

theorem State.touchStart_sound {s : State} (e : Nat) (hs : Sound p q s) :
    Sound p q (State.touchStart s e) := by
  unfold State.touchStart
  repeat' first
    | with_reducible assumption
    | with_reducible apply foldl_sound
    | with_reducible apply State.setFld_sound
    | with_reducible apply State.panelStart_sound
    | with_reducible refine Sound.snd_of (by with_reducible assumption) ?_
    | with_reducible refine Sound.thd_of (by with_reducible assumption) ?_
    | intro _
    | split
    | dsimp only
    | with_reducible refine Sound.of_mk ?_ rfl rfl rfl rfl rfl rfl rfl rfl rfl rfl rfl rfl rfl

theorem State.touchStop_sound {s : State} (e : Nat) (hs : Sound p q s) :
    Sound p q (State.touchStop s e) := by
  unfold State.touchStop
  repeat' first
    | with_reducible assumption
    | with_reducible apply foldl_sound
    | with_reducible apply State.setTouch_sound
    | with_reducible apply State.panelStop_sound
    | with_reducible apply State.touchStopped_sound
    | with_reducible refine Sound.snd_of (by with_reducible assumption) ?_
    | with_reducible refine Sound.thd_of (by with_reducible assumption) ?_
    | intro _
    | split
    | dsimp only
    | with_reducible refine Sound.of_mk ?_ rfl rfl rfl rfl rfl rfl rfl rfl rfl rfl rfl rfl rfl

theorem State.tchEnable_sound (a : RegAcc) (on : Bool) {s : State} (hs : Sound p q s) :
    Sound p q (State.tchEnable a on s) := by
  unfold State.tchEnable
  repeat' first
    | with_reducible assumption
    | with_reducible apply foldl_sound
    | with_reducible apply State.setFld_sound
    | with_reducible apply State.mirrorWrite_sound
    | with_reducible apply State.recPanelFault_sound
    | with_reducible apply State.touchStart_sound
    | with_reducible apply State.touchStop_sound
    | with_reducible refine Sound.snd_of (by with_reducible assumption) ?_
    | with_reducible refine Sound.thd_of (by with_reducible assumption) ?_
    | intro _
    | split
    | dsimp only
    | with_reducible refine Sound.of_mk ?_ rfl rfl rfl rfl rfl rfl rfl rfl rfl rfl rfl rfl rfl

theorem State.tchReset_sound (a : RegAcc) {s : State} (hs : Sound p q s) :
    Sound p q (State.tchReset a s) := by
  unfold State.tchReset
  repeat' first
    | with_reducible assumption
    | with_reducible apply foldl_sound
    | with_reducible apply State.mirrorWrite_sound
    | with_reducible apply State.resetPage_sound
    | with_reducible apply State.setTouch_sound
    | with_reducible refine Sound.snd_of (by with_reducible assumption) ?_
    | with_reducible refine Sound.thd_of (by with_reducible assumption) ?_
    | intro _
    | split
    | dsimp only
    | with_reducible refine Sound.of_mk ?_ rfl rfl rfl rfl rfl rfl rfl rfl rfl rfl rfl rfl rfl

theorem State.touchActivate_sound {s : State} (snap : Bool) (hs : Sound p q s) :
    Sound p q (State.touchActivate s snap) := by
  unfold State.touchActivate
  repeat' first
    | with_reducible assumption
    | with_reducible apply foldl_sound
    | with_reducible apply State.panelStartWith_sound
    | with_reducible refine Sound.snd_of (by with_reducible assumption) ?_
    | with_reducible refine Sound.thd_of (by with_reducible assumption) ?_
    | intro _
    | split
    | dsimp only
    | with_reducible refine Sound.of_mk ?_ rfl rfl rfl rfl rfl rfl rfl rfl rfl rfl rfl rfl rfl

theorem State.touchLeave_sound {s : State} (hs : Sound p q s) :
    Sound p q (State.touchLeave s) := by
  unfold State.touchLeave
  repeat' first
    | with_reducible assumption
    | with_reducible apply foldl_sound
    | with_reducible apply State.panelStop_sound
    | with_reducible refine Sound.snd_of (by with_reducible assumption) ?_
    | with_reducible refine Sound.thd_of (by with_reducible assumption) ?_
    | intro _
    | split
    | dsimp only
    | with_reducible refine Sound.of_mk ?_ rfl rfl rfl rfl rfl rfl rfl rfl rfl rfl rfl rfl rfl

theorem State.touchRestart_sound {s : State} (hs : Sound p q s) :
    Sound p q (State.touchRestart s) := by
  unfold State.touchRestart
  repeat' first
    | with_reducible assumption
    | with_reducible apply foldl_sound
    | with_reducible apply State.touchStart_sound
    | with_reducible refine Sound.snd_of (by with_reducible assumption) ?_
    | with_reducible refine Sound.thd_of (by with_reducible assumption) ?_
    | intro _
    | split
    | dsimp only
    | with_reducible refine Sound.of_mk ?_ rfl rfl rfl rfl rfl rfl rfl rfl rfl rfl rfl rfl rfl

theorem State.tchPlainWrite_sound (a : RegAcc) {s : State} (hs : Sound p q s) :
    Sound p q (State.tchPlainWrite a s) := by
  unfold State.tchPlainWrite
  repeat' first
    | with_reducible assumption
    | with_reducible apply foldl_sound
    | with_reducible apply State.recAcc_sound
    | with_reducible apply State.plainWrite_sound
    | with_reducible apply State.mirrorWrite_sound
    | with_reducible refine Sound.snd_of (by with_reducible assumption) ?_
    | with_reducible refine Sound.thd_of (by with_reducible assumption) ?_
    | intro _
    | split
    | dsimp only
    | with_reducible refine Sound.of_mk ?_ rfl rfl rfl rfl rfl rfl rfl rfl rfl rfl rfl rfl rfl

theorem State.captureRef_sound {s : State} (e : Nat) (x2 : Nat) (hs : Sound p q s) :
    Sound p q (State.captureRef s e x2) := by
  unfold State.captureRef
  repeat' first
    | with_reducible assumption
    | with_reducible apply foldl_sound
    | with_reducible apply State.setPanel_sound
    | with_reducible refine Sound.snd_of (by with_reducible assumption) ?_
    | with_reducible refine Sound.thd_of (by with_reducible assumption) ?_
    | intro _
    | split
    | dsimp only
    | with_reducible refine Sound.of_mk ?_ rfl rfl rfl rfl rfl rfl rfl rfl rfl rfl rfl rfl rfl

theorem State.tchCfgWrite_sound (a : RegAcc) {s : State} (hs : Sound p q s) :
    Sound p q (State.tchCfgWrite a s) := by
  unfold State.tchCfgWrite
  repeat' first
    | with_reducible assumption
    | with_reducible apply foldl_sound
    | with_reducible apply State.setFld_sound
    | with_reducible apply State.recAcc_sound
    | with_reducible apply State.plainWrite_sound
    | with_reducible apply State.mirrorWrite_sound
    | with_reducible apply State.recPanelFault_sound
    | with_reducible apply State.panelStart_sound
    | with_reducible apply State.panelStop_sound
    | with_reducible apply State.captureRef_sound
    | with_reducible refine Sound.snd_of (by with_reducible assumption) ?_
    | with_reducible refine Sound.thd_of (by with_reducible assumption) ?_
    | intro _
    | split
    | dsimp only
    | with_reducible refine Sound.of_mk ?_ rfl rfl rfl rfl rfl rfl rfl rfl rfl rfl rfl rfl rfl

theorem State.tchBufWrite_sound (a : RegAcc) {s : State} (hs : Sound p q s) :
    Sound p q (State.tchBufWrite a s) := by
  unfold State.tchBufWrite
  repeat' first
    | with_reducible assumption
    | with_reducible apply foldl_sound
    | with_reducible apply State.setFld_sound
    | with_reducible apply State.recRefused_sound
    | with_reducible apply State.refuse_sound
    | with_reducible apply State.plainWrite_sound
    | with_reducible apply State.mirrorWrite_sound
    | with_reducible refine Sound.snd_of (by with_reducible assumption) ?_
    | with_reducible refine Sound.thd_of (by with_reducible assumption) ?_
    | intro _
    | split
    | dsimp only
    | with_reducible refine Sound.of_mk ?_ rfl rfl rfl rfl rfl rfl rfl rfl rfl rfl rfl rfl rfl

theorem State.tchRouteWrite_sound (a : RegAcc) {s : State} (hs : Sound p q s) :
    Sound p q (State.tchRouteWrite a s) := by
  unfold State.tchRouteWrite
  repeat' first
    | with_reducible assumption
    | with_reducible apply foldl_sound
    | with_reducible apply State.refuse_sound
    | with_reducible apply State.plainWrite_sound
    | with_reducible apply State.mirrorWrite_sound
    | with_reducible refine Sound.snd_of (by with_reducible assumption) ?_
    | with_reducible refine Sound.thd_of (by with_reducible assumption) ?_
    | intro _
    | split
    | dsimp only
    | with_reducible refine Sound.of_mk ?_ rfl rfl rfl rfl rfl rfl rfl rfl rfl rfl rfl rfl rfl

theorem State.nodeAccess_sound (a : RegAcc) (isRead : Bool) {s : State} (hs : Sound p q s) :
    Sound p q (State.nodeAccess a isRead s) := by
  unfold State.nodeAccess
  repeat' first
    | with_reducible assumption
    | with_reducible apply foldl_sound
    | with_reducible apply State.setFld_sound
    | with_reducible apply State.recErr_sound
    | with_reducible apply State.recAcc_sound
    | with_reducible apply State.denyReg_sound
    | with_reducible apply State.answerRead_sound
    | with_reducible apply State.setPanel_sound
    | with_reducible refine Sound.snd_of (by with_reducible assumption) ?_
    | with_reducible refine Sound.thd_of (by with_reducible assumption) ?_
    | intro _
    | split
    | dsimp only
    | with_reducible refine Sound.of_mk ?_ rfl rfl rfl rfl rfl rfl rfl rfl rfl rfl rfl rfl rfl

theorem State.touchFrameEnd_sound {s : State} (e : Nat) (hs : Sound p q s) :
    Sound p q (State.touchFrameEnd s e) := by
  unfold State.touchFrameEnd
  repeat' first
    | with_reducible assumption
    | with_reducible apply foldl_sound
    | with_reducible apply State.setFld_sound
    | with_reducible apply State.addFld_sound
    | with_reducible apply State.event_sound
    | with_reducible apply State.setTouch_sound
    | with_reducible apply State.touchStopped_sound
    | with_reducible refine Sound.snd_of (by with_reducible assumption) ?_
    | with_reducible refine Sound.thd_of (by with_reducible assumption) ?_
    | intro _
    | split
    | dsimp only
    | with_reducible refine Sound.of_mk ?_ rfl rfl rfl rfl rfl rfl rfl rfl rfl rfl rfl rfl rfl

theorem State.touchFrameStart_sound {s : State} (e : Nat) (hs : Sound p q s) :
    Sound p q (State.touchFrameStart s e) := by
  unfold State.touchFrameStart
  repeat' first
    | with_reducible assumption
    | with_reducible apply foldl_sound
    | with_reducible apply State.setFld_sound
    | with_reducible apply State.event_sound
    | with_reducible apply State.setTouch_sound
    | with_reducible apply State.touchFrameEnd_sound
    | with_reducible refine Sound.snd_of (by with_reducible assumption) ?_
    | with_reducible refine Sound.thd_of (by with_reducible assumption) ?_
    | intro _
    | split
    | dsimp only
    | with_reducible refine Sound.of_mk ?_ rfl rfl rfl rfl rfl rfl rfl rfl rfl rfl rfl rfl rfl

theorem State.touchReport_sound {s : State} (e : Nat) (x2 : Nat) (t : State.Tracked) (hs : Sound p q s) :
    Sound p q (State.touchReport s e x2 t) := by
  unfold State.touchReport
  repeat' first
    | with_reducible assumption
    | with_reducible apply foldl_sound
    | with_reducible apply State.touchRecord_sound
    | with_reducible apply State.handOff_sound
    | with_reducible refine Sound.snd_of (by with_reducible assumption) ?_
    | with_reducible refine Sound.thd_of (by with_reducible assumption) ?_
    | intro _
    | split
    | dsimp only
    | with_reducible refine Sound.of_mk ?_ rfl rfl rfl rfl rfl rfl rfl rfl rfl rfl rfl rfl rfl

theorem State.calFrame_sound {s : State} (e : Nat) (x2 : Nat) (x : Panel) (counts : List (Nat × Nat)) (hs : Sound p q s) :
    Sound p q (State.calFrame s e x2 x counts) := by
  unfold State.calFrame
  repeat' first
    | with_reducible assumption
    | with_reducible apply foldl_sound
    | with_reducible apply State.event_sound
    | with_reducible apply State.recErr_sound
    | with_reducible apply State.reportContained_sound
    | with_reducible apply State.setPanel_sound
    | with_reducible refine Sound.snd_of (by with_reducible assumption) ?_
    | with_reducible refine Sound.thd_of (by with_reducible assumption) ?_
    | intro _
    | split
    | dsimp only
    | with_reducible refine Sound.of_mk ?_ rfl rfl rfl rfl rfl rfl rfl rfl rfl rfl rfl rfl rfl

theorem State.refFrame_sound {s : State} {v : State} (e : Nat) (x3 : Nat) (c : PanelCfg) (x : Panel) (counts : List (Nat × Nat)) (hs : Sound p q s) :
    Sound p q (State.refFrame s v e x3 c x counts) := by
  unfold State.refFrame
  repeat' first
    | with_reducible assumption
    | with_reducible apply foldl_sound
    | with_reducible apply State.setFld_sound
    | with_reducible apply State.setPanel_sound
    | with_reducible apply State.touchReport_sound
    | with_reducible refine Sound.snd_of (by with_reducible assumption) ?_
    | with_reducible refine Sound.thd_of (by with_reducible assumption) ?_
    | intro _
    | split
    | dsimp only
    | with_reducible refine Sound.of_mk ?_ rfl rfl rfl rfl rfl rfl rfl rfl rfl rfl rfl rfl rfl

theorem State.scanFrame_sound {s : State} {v : State} (e : Nat) (x3 : Nat) (c : PanelCfg) (x : Panel) (counts : List (Nat × Nat)) (hs : Sound p q s) :
    Sound p q (State.scanFrame s v e x3 c x counts) := by
  unfold State.scanFrame
  repeat' first
    | with_reducible assumption
    | with_reducible apply foldl_sound
    | with_reducible apply State.event_sound
    | with_reducible apply State.setPanel_sound
    | with_reducible apply State.touchReport_sound
    | with_reducible refine Sound.snd_of (by with_reducible assumption) ?_
    | with_reducible refine Sound.thd_of (by with_reducible assumption) ?_
    | intro _
    | split
    | dsimp only
    | with_reducible refine Sound.of_mk ?_ rfl rfl rfl rfl rfl rfl rfl rfl rfl rfl rfl rfl rfl

theorem State.panelScanEnd_sound {s : State} (e : Nat) (x2 : Nat) (m : List (List Nat × List Nat)) (listen : List Nat) (cand : List Nat) (hs : Sound p q s) :
    Sound p q (State.panelScanEnd s e x2 m listen cand) := by
  unfold State.panelScanEnd
  repeat' first
    | with_reducible assumption
    | with_reducible apply foldl_sound
    | with_reducible apply State.setTouch_sound
    | with_reducible apply State.panelStopped_sound
    | with_reducible apply State.touchFrameEnd_sound
    | with_reducible apply State.calFrame_sound
    | with_reducible apply State.refFrame_sound
    | with_reducible apply State.scanFrame_sound
    | with_reducible refine Sound.snd_of (by with_reducible assumption) ?_
    | with_reducible refine Sound.thd_of (by with_reducible assumption) ?_
    | intro _
    | split
    | dsimp only
    | with_reducible refine Sound.of_mk ?_ rfl rfl rfl rfl rfl rfl rfl rfl rfl rfl rfl rfl rfl

theorem State.touchSnapshot_sound {s : State} (e : Nat) (x2 : Nat) (hs : Sound p q s) :
    Sound p q (State.touchSnapshot s e x2) := by
  unfold State.touchSnapshot
  repeat' first
    | with_reducible assumption
    | with_reducible apply foldl_sound
    | with_reducible apply State.snapshot_sound
    | with_reducible refine Sound.snd_of (by with_reducible assumption) ?_
    | with_reducible refine Sound.thd_of (by with_reducible assumption) ?_
    | intro _
    | split
    | dsimp only
    | with_reducible refine Sound.of_mk ?_ rfl rfl rfl rfl rfl rfl rfl rfl rfl rfl rfl rfl rfl

end Sys2Proof.Machine
end

