-- ==== Sys2Proof/Laws/SoundHaptic.lean ====
section
/-! SUPPORT. Every operation of Machine/Haptic.lean keeps the invariant of Safety.lean. -/

namespace Sys2Proof.Machine

set_option Elab.async false
set_option linter.all false

variable {p : Part} {q : List Instr}

theorem State.setHap_sound {s : State} (c : Nat) (x : HapChan) (hs : Sound p q s) :
    Sound p q (State.setHap s c x) := by
  unfold State.setHap
  repeat' first
    | with_reducible assumption
    | with_reducible apply foldl_sound
    | with_reducible apply State.setFld_sound
    | with_reducible refine Sound.snd_of (by with_reducible assumption) ?_
    | with_reducible refine Sound.thd_of (by with_reducible assumption) ?_
    | intro _
    | split
    | dsimp only
    | with_reducible refine Sound.of_mk ?_ rfl rfl rfl rfl rfl rfl rfl rfl rfl rfl rfl rfl rfl

theorem State.ruleStat_sound {s : State} (hs : Sound p q s) :
    Sound p q (State.ruleStat s) := by
  unfold State.ruleStat
  repeat' first
    | with_reducible assumption
    | with_reducible apply foldl_sound
    | with_reducible apply State.setFld_sound
    | with_reducible refine Sound.snd_of (by with_reducible assumption) ?_
    | with_reducible refine Sound.thd_of (by with_reducible assumption) ?_
    | intro _
    | split
    | dsimp only
    | with_reducible refine Sound.of_mk ?_ rfl rfl rfl rfl rfl rfl rfl rfl rfl rfl rfl rfl rfl

theorem State.clipGc_sound {s : State} (hs : Sound p q s) :
    Sound p q (State.clipGc s) := by
  unfold State.clipGc
  repeat' first
    | with_reducible assumption
    | with_reducible apply foldl_sound
    | with_reducible apply State.ruleStat_sound
    | with_reducible refine Sound.snd_of (by with_reducible assumption) ?_
    | with_reducible refine Sound.thd_of (by with_reducible assumption) ?_
    | intro _
    | split
    | dsimp only
    | with_reducible refine Sound.of_mk ?_ rfl rfl rfl rfl rfl rfl rfl rfl rfl rfl rfl rfl rfl

theorem State.nameClip_sound {s : State} (e : Effect) (hs : Sound p q s) :
    Sound p q (State.nameClip s e) := by
  unfold State.nameClip
  repeat' first
    | with_reducible assumption
    | with_reducible apply foldl_sound
    | with_reducible apply State.fence_sound
    | with_reducible apply State.ruleStat_sound
    | with_reducible refine Sound.snd_of (by with_reducible assumption) ?_
    | with_reducible refine Sound.thd_of (by with_reducible assumption) ?_
    | intro _
    | split
    | dsimp only
    | with_reducible refine Sound.of_mk ?_ rfl rfl rfl rfl rfl rfl rfl rfl rfl rfl rfl rfl rfl

theorem State.dropClip_sound {s : State} (e : Effect) (hs : Sound p q s) :
    Sound p q (State.dropClip s e) := by
  unfold State.dropClip
  repeat' first
    | with_reducible assumption
    | with_reducible apply foldl_sound
    | with_reducible apply State.unfence_sound
    | with_reducible apply State.clipGc_sound
    | with_reducible refine Sound.snd_of (by with_reducible assumption) ?_
    | with_reducible refine Sound.thd_of (by with_reducible assumption) ?_
    | intro _
    | split
    | dsimp only
    | with_reducible refine Sound.of_mk ?_ rfl rfl rfl rfl rfl rfl rfl rfl rfl rfl rfl rfl rfl

theorem State.readClip_sound {s : State} (who : Attr) (i : Nat) (b : Nat) (x4 : Nat) (hs : Sound p q s) :
    Sound p q (State.readClip s who i b x4).2 := by
  induction x4 generalizing s who i b with
  | zero =>
    unfold State.readClip
    repeat' first
      | with_reducible assumption
      | with_reducible apply foldl_sound
      | with_reducible apply State.takeFree_sound
      | with_reducible apply State.readWordAs_sound
      | with_reducible refine Sound.snd_of (by with_reducible assumption) ?_
      | with_reducible refine Sound.thd_of (by with_reducible assumption) ?_
      | intro _
      | split
      | dsimp only
      | with_reducible refine Sound.of_mk ?_ rfl rfl rfl rfl rfl rfl rfl rfl rfl rfl rfl rfl rfl
  | succ _ ih =>
    unfold State.readClip
    repeat' first
      | with_reducible assumption
      | with_reducible apply ih
      | with_reducible apply foldl_sound
      | with_reducible apply State.takeFree_sound
      | with_reducible apply State.readWordAs_sound
      | with_reducible refine Sound.snd_of (by with_reducible assumption) ?_
      | with_reducible refine Sound.thd_of (by with_reducible assumption) ?_
      | intro _
      | split
      | dsimp only
      | with_reducible refine Sound.of_mk ?_ rfl rfl rfl rfl rfl rfl rfl rfl rfl rfl rfl rfl rfl

theorem State.dropArrival_sound {s : State} (c : Nat) (x : Arrival) (hs : Sound p q s) :
    Sound p q (State.dropArrival s c x) := by
  unfold State.dropArrival
  repeat' first
    | with_reducible assumption
    | with_reducible apply foldl_sound
    | with_reducible apply State.satFld_sound
    | with_reducible apply State.event_sound
    | with_reducible apply State.complete_sound
    | with_reducible apply State.dropClip_sound
    | with_reducible refine Sound.snd_of (by with_reducible assumption) ?_
    | with_reducible refine Sound.thd_of (by with_reducible assumption) ?_
    | intro _
    | split
    | dsimp only
    | with_reducible refine Sound.of_mk ?_ rfl rfl rfl rfl rfl rfl rfl rfl rfl rfl rfl rfl rfl

theorem State.arrivalOk_sound {s : State} (x : Arrival) (hs : Sound p q s) :
    Sound p q (State.arrivalOk s x) := by
  unfold State.arrivalOk
  repeat' first
    | with_reducible assumption
    | with_reducible apply foldl_sound
    | with_reducible apply State.complete_sound
    | with_reducible refine Sound.snd_of (by with_reducible assumption) ?_
    | with_reducible refine Sound.thd_of (by with_reducible assumption) ?_
    | intro _
    | split
    | dsimp only
    | with_reducible refine Sound.of_mk ?_ rfl rfl rfl rfl rfl rfl rfl rfl rfl rfl rfl rfl rfl

theorem State.arrive_sound {s : State} (c : Nat) (x : Arrival) (hs : Sound p q s) :
    Sound p q (State.arrive s c x) := by
  unfold State.arrive
  repeat' first
    | with_reducible assumption
    | with_reducible apply foldl_sound
    | with_reducible apply State.setHap_sound
    | with_reducible refine Sound.snd_of (by with_reducible assumption) ?_
    | with_reducible refine Sound.thd_of (by with_reducible assumption) ?_
    | intro _
    | split
    | dsimp only
    | with_reducible refine Sound.of_mk ?_ rfl rfl rfl rfl rfl rfl rfl rfl rfl rfl rfl rfl rfl

theorem State.endEffect_sound {s : State} (c : Nat) (hs : Sound p q s) :
    Sound p q (State.endEffect s c) := by
  unfold State.endEffect
  repeat' first
    | with_reducible assumption
    | with_reducible apply foldl_sound
    | with_reducible apply State.setHap_sound
    | with_reducible apply State.dropClip_sound
    | with_reducible refine Sound.snd_of (by with_reducible assumption) ?_
    | with_reducible refine Sound.thd_of (by with_reducible assumption) ?_
    | intro _
    | split
    | dsimp only
    | with_reducible refine Sound.of_mk ?_ rfl rfl rfl rfl rfl rfl rfl rfl rfl rfl rfl rfl rfl

theorem State.hapRest_sound {s : State} (c : Nat) (hs : Sound p q s) :
    Sound p q (State.hapRest s c) := by
  unfold State.hapRest
  repeat' first
    | with_reducible assumption
    | with_reducible apply foldl_sound
    | with_reducible apply State.setHap_sound
    | with_reducible apply State.endEffect_sound
    | with_reducible refine Sound.snd_of (by with_reducible assumption) ?_
    | with_reducible refine Sound.thd_of (by with_reducible assumption) ?_
    | intro _
    | split
    | dsimp only
    | with_reducible refine Sound.of_mk ?_ rfl rfl rfl rfl rfl rfl rfl rfl rfl rfl rfl rfl rfl

theorem State.hapBrake_sound {s : State} (c : Nat) (hs : Sound p q s) :
    Sound p q (State.hapBrake s c) := by
  unfold State.hapBrake
  repeat' first
    | with_reducible assumption
    | with_reducible apply foldl_sound
    | with_reducible apply State.setHap_sound
    | with_reducible apply State.hapRest_sound
    | with_reducible refine Sound.snd_of (by with_reducible assumption) ?_
    | with_reducible refine Sound.thd_of (by with_reducible assumption) ?_
    | intro _
    | split
    | dsimp only
    | with_reducible refine Sound.of_mk ?_ rfl rfl rfl rfl rfl rfl rfl rfl rfl rfl rfl rfl rfl

theorem State.hapStart_sound {s : State} (c : Nat) (carrier : Nat) (x : Arrival) (hs : Sound p q s) :
    Sound p q (State.hapStart s c carrier x) := by
  unfold State.hapStart
  repeat' first
    | with_reducible assumption
    | with_reducible apply foldl_sound
    | with_reducible apply State.setFld_sound
    | with_reducible apply State.addFld_sound
    | with_reducible apply State.setHap_sound
    | with_reducible apply State.arrivalOk_sound
    | with_reducible apply State.endEffect_sound
    | with_reducible refine Sound.snd_of (by with_reducible assumption) ?_
    | with_reducible refine Sound.thd_of (by with_reducible assumption) ?_
    | intro _
    | split
    | dsimp only
    | with_reducible refine Sound.of_mk ?_ rfl rfl rfl rfl rfl rfl rfl rfl rfl rfl rfl rfl rfl

theorem State.hapWinner_sound {s : State} (c : Nat) (carrier : Nat) (x : Arrival) (hs : Sound p q s) :
    Sound p q (State.hapWinner s c carrier x) := by
  unfold State.hapWinner
  repeat' first
    | with_reducible assumption
    | with_reducible apply foldl_sound
    | with_reducible apply State.satFld_sound
    | with_reducible apply State.setHap_sound
    | with_reducible apply State.dropClip_sound
    | with_reducible apply State.dropArrival_sound
    | with_reducible apply State.arrivalOk_sound
    | with_reducible apply State.endEffect_sound
    | with_reducible apply State.hapBrake_sound
    | with_reducible apply State.hapStart_sound
    | with_reducible refine Sound.snd_of (by with_reducible assumption) ?_
    | with_reducible refine Sound.thd_of (by with_reducible assumption) ?_
    | intro _
    | split
    | dsimp only
    | with_reducible refine Sound.of_mk ?_ rfl rfl rfl rfl rfl rfl rfl rfl rfl rfl rfl rfl rfl

theorem State.hapChoose_sound {s : State} (c : Nat) (carrier : Nat) (hs : Sound p q s) :
    Sound p q (State.hapChoose s c carrier) := by
  unfold State.hapChoose
  repeat' first
    | with_reducible assumption
    | with_reducible apply foldl_sound
    | with_reducible apply State.setHap_sound
    | with_reducible apply State.dropArrival_sound
    | with_reducible apply State.hapWinner_sound
    | with_reducible refine Sound.snd_of (by with_reducible assumption) ?_
    | with_reducible refine Sound.thd_of (by with_reducible assumption) ?_
    | intro _
    | split
    | dsimp only
    | with_reducible refine Sound.of_mk ?_ rfl rfl rfl rfl rfl rfl rfl rfl rfl rfl rfl rfl rfl

theorem State.hapFault_sound {s : State} (c : Nat) (reason : Nat) (hs : Sound p q s) :
    Sound p q (State.hapFault s c reason) := by
  unfold State.hapFault
  repeat' first
    | with_reducible assumption
    | with_reducible apply foldl_sound
    | with_reducible apply State.setFld_sound
    | with_reducible apply State.event_sound
    | with_reducible apply State.recErr_sound
    | with_reducible apply State.reportContained_sound
    | with_reducible apply State.setHap_sound
    | with_reducible apply State.endEffect_sound
    | with_reducible refine Sound.snd_of (by with_reducible assumption) ?_
    | with_reducible refine Sound.thd_of (by with_reducible assumption) ?_
    | intro _
    | split
    | dsimp only
    | with_reducible refine Sound.of_mk ?_ rfl rfl rfl rfl rfl rfl rfl rfl rfl rfl rfl rfl rfl

theorem State.noteStall_sound {s : State} (x1 : HapChan) (hs : Sound p q s) :
    Sound p q (State.noteStall s x1) := by
  unfold State.noteStall
  repeat' first
    | with_reducible assumption
    | with_reducible apply foldl_sound
    | with_reducible apply State.event_sound
    | with_reducible refine Sound.snd_of (by with_reducible assumption) ?_
    | with_reducible refine Sound.thd_of (by with_reducible assumption) ?_
    | intro _
    | split
    | dsimp only
    | with_reducible refine Sound.of_mk ?_ rfl rfl rfl rfl rfl rfl rfl rfl rfl rfl rfl rfl rfl

theorem State.hapEnds_sound {s : State} (c : Nat) (t : Int) (a : Int) (hs : Sound p q s) :
    Sound p q (State.hapEnds s c t a) := by
  unfold State.hapEnds
  repeat' first
    | with_reducible assumption
    | with_reducible apply foldl_sound
    | with_reducible apply State.setHap_sound
    | with_reducible apply State.hapRest_sound
    | with_reducible apply State.hapBrake_sound
    | with_reducible refine Sound.snd_of (by with_reducible assumption) ?_
    | with_reducible refine Sound.thd_of (by with_reducible assumption) ?_
    | intro _
    | split
    | dsimp only
    | with_reducible refine Sound.of_mk ?_ rfl rfl rfl rfl rfl rfl rfl rfl rfl rfl rfl rfl rfl

theorem State.bridgeQuiet_sound {s : State} (c : Nat) (hs : Sound p q s) :
    Sound p q (State.bridgeQuiet s c) := by
  unfold State.bridgeQuiet
  repeat' first
    | with_reducible assumption
    | with_reducible apply foldl_sound
    | with_reducible apply State.emit_sound
    | with_reducible refine Sound.snd_of (by with_reducible assumption) ?_
    | with_reducible refine Sound.thd_of (by with_reducible assumption) ?_
    | intro _
    | split
    | dsimp only
    | with_reducible refine Sound.of_mk ?_ rfl rfl rfl rfl rfl rfl rfl rfl rfl rfl rfl rfl rfl

theorem State.periodOutput_sound {s : State} (c : Nat) (a : Int) (lim : Bool) (hs : Sound p q s) :
    Sound p q (State.periodOutput s c a lim) := by
  unfold State.periodOutput
  repeat' first
    | with_reducible assumption
    | with_reducible apply foldl_sound
    | with_reducible apply State.emit_sound
    | with_reducible apply State.setHap_sound
    | with_reducible apply State.noteStall_sound
    | with_reducible refine Sound.snd_of (by with_reducible assumption) ?_
    | with_reducible refine Sound.thd_of (by with_reducible assumption) ?_
    | intro _
    | split
    | dsimp only
    | with_reducible refine Sound.of_mk ?_ rfl rfl rfl rfl rfl rfl rfl rfl rfl rfl rfl rfl rfl

theorem State.dropRule_sound {s : State} (i : Nat) (hs : Sound p q s) :
    Sound p q (State.dropRule s i) := by
  unfold State.dropRule
  repeat' first
    | with_reducible assumption
    | with_reducible apply foldl_sound
    | with_reducible apply State.setHap_sound
    | with_reducible apply State.dropClip_sound
    | with_reducible apply State.dropArrival_sound
    | with_reducible refine Sound.snd_of (by with_reducible assumption) ?_
    | with_reducible refine Sound.thd_of (by with_reducible assumption) ?_
    | intro _
    | split
    | dsimp only
    | with_reducible refine Sound.of_mk ?_ rfl rfl rfl rfl rfl rfl rfl rfl rfl rfl rfl rfl rfl

theorem State.dropLeaving_sound {s : State} (c : Nat) (hs : Sound p q s) :
    Sound p q (State.dropLeaving s c) := by
  unfold State.dropLeaving
  repeat' first
    | with_reducible assumption
    | with_reducible apply foldl_sound
    | with_reducible apply State.dropRule_sound
    | with_reducible refine Sound.snd_of (by with_reducible assumption) ?_
    | with_reducible refine Sound.thd_of (by with_reducible assumption) ?_
    | intro _
    | split
    | dsimp only
    | with_reducible refine Sound.of_mk ?_ rfl rfl rfl rfl rfl rfl rfl rfl rfl rfl rfl rfl rfl

theorem State.quietPeriod_sound {s : State} (c : Nat) (hs : Sound p q s) :
    Sound p q (State.quietPeriod s c) := by
  unfold State.quietPeriod
  repeat' first
    | with_reducible assumption
    | with_reducible apply foldl_sound
    | with_reducible apply State.setHap_sound
    | with_reducible apply State.dropArrival_sound
    | with_reducible apply State.bridgeQuiet_sound
    | with_reducible refine Sound.snd_of (by with_reducible assumption) ?_
    | with_reducible refine Sound.thd_of (by with_reducible assumption) ?_
    | intro _
    | split
    | dsimp only
    | with_reducible refine Sound.of_mk ?_ rfl rfl rfl rfl rfl rfl rfl rfl rfl rfl rfl rfl rfl

theorem State.controlPeriod_sound {s : State} (c : Nat) (adcA : Int) (adcI : Int) (carrier : Nat) (hs : Sound p q s) :
    Sound p q (State.controlPeriod s c adcA adcI carrier) := by
  unfold State.controlPeriod
  repeat' first
    | with_reducible assumption
    | with_reducible apply foldl_sound
    | with_reducible apply State.setHap_sound
    | with_reducible apply State.hapChoose_sound
    | with_reducible apply State.hapFault_sound
    | with_reducible apply State.hapEnds_sound
    | with_reducible apply State.periodOutput_sound
    | with_reducible apply State.dropLeaving_sound
    | with_reducible apply State.quietPeriod_sound
    | with_reducible refine Sound.snd_of (by with_reducible assumption) ?_
    | with_reducible refine Sound.thd_of (by with_reducible assumption) ?_
    | intro _
    | split
    | dsimp only
    | with_reducible refine Sound.of_mk ?_ rfl rfl rfl rfl rfl rfl rfl rfl rfl rfl rfl rfl rfl

theorem State.tapSample_sound {s : State} (tap : Nat) (v : Int) (hs : Sound p q s) :
    Sound p q (State.tapSample s tap v) := by
  unfold State.tapSample
  repeat' first
    | with_reducible assumption
    | with_reducible apply foldl_sound
    | with_reducible refine Sound.snd_of (by with_reducible assumption) ?_
    | with_reducible refine Sound.thd_of (by with_reducible assumption) ?_
    | intro _
    | split
    | dsimp only
    | with_reducible refine Sound.of_mk ?_ rfl rfl rfl rfl rfl rfl rfl rfl rfl rfl rfl rfl rfl

theorem State.carryHapticPlay_sound (j : Job) {s : State} (hs : Sound p q s) :
    Sound p q (State.carryHapticPlay j s) := by
  unfold State.carryHapticPlay
  repeat' first
    | with_reducible assumption
    | with_reducible apply foldl_sound
    | with_reducible apply State.complete_sound
    | with_reducible apply State.nameClip_sound
    | with_reducible apply State.arrive_sound
    | with_reducible refine Sound.snd_of (by with_reducible assumption) ?_
    | with_reducible refine Sound.thd_of (by with_reducible assumption) ?_
    | intro _
    | split
    | dsimp only
    | with_reducible refine Sound.of_mk ?_ rfl rfl rfl rfl rfl rfl rfl rfl rfl rfl rfl rfl rfl

theorem State.putRule_sound {s : State} (i : Nat) (r : Rule) (hs : Sound p q s) :
    Sound p q (State.putRule s i r) := by
  unfold State.putRule
  repeat' first
    | with_reducible assumption
    | with_reducible apply foldl_sound
    | with_reducible apply State.ruleStat_sound
    | with_reducible refine Sound.snd_of (by with_reducible assumption) ?_
    | with_reducible refine Sound.thd_of (by with_reducible assumption) ?_
    | intro _
    | split
    | dsimp only
    | with_reducible refine Sound.of_mk ?_ rfl rfl rfl rfl rfl rfl rfl rfl rfl rfl rfl rfl rfl

theorem State.removeRule_sound {s : State} (i : Nat) (hs : Sound p q s) :
    Sound p q (State.removeRule s i) := by
  unfold State.removeRule
  repeat' first
    | with_reducible assumption
    | with_reducible apply foldl_sound
    | with_reducible refine Sound.snd_of (by with_reducible assumption) ?_
    | with_reducible refine Sound.thd_of (by with_reducible assumption) ?_
    | intro _
    | split
    | dsimp only
    | with_reducible refine Sound.of_mk ?_ rfl rfl rfl rfl rfl rfl rfl rfl rfl rfl rfl rfl rfl

theorem State.carryTouchRule_sound (j : Job) {s : State} (hs : Sound p q s) :
    Sound p q (State.carryTouchRule j s) := by
  unfold State.carryTouchRule
  repeat' first
    | with_reducible assumption
    | with_reducible apply foldl_sound
    | with_reducible apply State.complete_sound
    | with_reducible apply State.mirror_sound
    | with_reducible apply State.nameClip_sound
    | with_reducible apply State.putRule_sound
    | with_reducible apply State.removeRule_sound
    | with_reducible refine Sound.snd_of (by with_reducible assumption) ?_
    | with_reducible refine Sound.thd_of (by with_reducible assumption) ?_
    | intro _
    | split
    | dsimp only
    | with_reducible refine Sound.of_mk ?_ rfl rfl rfl rfl rfl rfl rfl rfl rfl rfl rfl rfl rfl

theorem State.clipLoadDone_sound {s : State} (hs : Sound p q s) :
    Sound p q (State.clipLoadDone s) := by
  unfold State.clipLoadDone
  repeat' first
    | with_reducible assumption
    | with_reducible apply foldl_sound
    | with_reducible apply State.complete_sound
    | with_reducible apply State.mirror_sound
    | with_reducible apply State.clipGc_sound
    | with_reducible apply State.readClip_sound
    | with_reducible apply State.arrive_sound
    | with_reducible apply State.putRule_sound
    | with_reducible refine Sound.snd_of (by with_reducible assumption) ?_
    | with_reducible refine Sound.thd_of (by with_reducible assumption) ?_
    | intro _
    | split
    | dsimp only
    | with_reducible refine Sound.of_mk ?_ rfl rfl rfl rfl rfl rfl rfl rfl rfl rfl rfl rfl rfl

theorem State.ruleMatch_sound {s : State} (hs : Sound p q s) :
    Sound p q (State.ruleMatch s) := by
  unfold State.ruleMatch
  repeat' first
    | with_reducible assumption
    | with_reducible apply foldl_sound
    | with_reducible apply State.fence_sound
    | with_reducible apply State.arrive_sound
    | with_reducible apply State.putRule_sound
    | with_reducible refine Sound.snd_of (by with_reducible assumption) ?_
    | with_reducible refine Sound.thd_of (by with_reducible assumption) ?_
    | intro _
    | split
    | dsimp only
    | with_reducible refine Sound.of_mk ?_ rfl rfl rfl rfl rfl rfl rfl rfl rfl rfl rfl rfl rfl

theorem State.hapEnable_sound {s : State} (c : Nat) (on : Bool) (hs : Sound p q s) :
    Sound p q (State.hapEnable s c on) := by
  unfold State.hapEnable
  repeat' first
    | with_reducible assumption
    | with_reducible apply foldl_sound
    | with_reducible apply State.setFld_sound
    | with_reducible apply State.setHap_sound
    | with_reducible apply State.hapBrake_sound
    | with_reducible refine Sound.snd_of (by with_reducible assumption) ?_
    | with_reducible refine Sound.thd_of (by with_reducible assumption) ?_
    | intro _
    | split
    | dsimp only
    | with_reducible refine Sound.of_mk ?_ rfl rfl rfl rfl rfl rfl rfl rfl rfl rfl rfl rfl rfl

theorem State.calStart_sound {s : State} (a : RegAcc) (c : Nat) (hs : Sound p q s) :
    Sound p q (State.calStart s a c) := by
  unfold State.calStart
  repeat' first
    | with_reducible assumption
    | with_reducible apply foldl_sound
    | with_reducible apply State.recAcc_sound
    | with_reducible apply State.setHap_sound
    | with_reducible refine Sound.snd_of (by with_reducible assumption) ?_
    | with_reducible refine Sound.thd_of (by with_reducible assumption) ?_
    | intro _
    | split
    | dsimp only
    | with_reducible refine Sound.of_mk ?_ rfl rfl rfl rfl rfl rfl rfl rfl rfl rfl rfl rfl rfl

theorem State.hapCtrlWrite_sound (a : RegAcc) {s : State} (hs : Sound p q s) :
    Sound p q (State.hapCtrlWrite a s) := by
  unfold State.hapCtrlWrite
  repeat' first
    | with_reducible assumption
    | with_reducible apply foldl_sound
    | with_reducible apply State.plainWrite_sound
    | with_reducible apply State.mirrorWrite_sound
    | with_reducible apply State.hapEnable_sound
    | with_reducible apply State.calStart_sound
    | with_reducible refine Sound.snd_of (by with_reducible assumption) ?_
    | with_reducible refine Sound.thd_of (by with_reducible assumption) ?_
    | intro _
    | split
    | dsimp only
    | with_reducible refine Sound.of_mk ?_ rfl rfl rfl rfl rfl rfl rfl rfl rfl rfl rfl rfl rfl

theorem State.hapCarrierWrite_sound (a : RegAcc) {s : State} (hs : Sound p q s) :
    Sound p q (State.hapCarrierWrite a s) := by
  unfold State.hapCarrierWrite
  repeat' first
    | with_reducible assumption
    | with_reducible apply foldl_sound
    | with_reducible apply State.refuse_sound
    | with_reducible apply State.plainWrite_sound
    | with_reducible apply State.mirrorWrite_sound
    | with_reducible refine Sound.snd_of (by with_reducible assumption) ?_
    | with_reducible refine Sound.thd_of (by with_reducible assumption) ?_
    | intro _
    | split
    | dsimp only
    | with_reducible refine Sound.of_mk ?_ rfl rfl rfl rfl rfl rfl rfl rfl rfl rfl rfl rfl rfl

theorem State.calDone_sound {s : State} (c : Nat) (freq : Nat) (peak : Nat) (hs : Sound p q s) :
    Sound p q (State.calDone s c freq peak) := by
  unfold State.calDone
  repeat' first
    | with_reducible assumption
    | with_reducible apply foldl_sound
    | with_reducible apply State.setFld_sound
    | with_reducible apply State.event_sound
    | with_reducible apply State.setHap_sound
    | with_reducible apply State.hapFault_sound
    | with_reducible refine Sound.snd_of (by with_reducible assumption) ?_
    | with_reducible refine Sound.thd_of (by with_reducible assumption) ?_
    | intro _
    | split
    | dsimp only
    | with_reducible refine Sound.of_mk ?_ rfl rfl rfl rfl rfl rfl rfl rfl rfl rfl rfl rfl rfl

theorem State.hapResetFn_sound {s : State} (fn : Nat) (hs : Sound p q s) :
    Sound p q (State.hapResetFn s fn) := by
  unfold State.hapResetFn
  repeat' first
    | with_reducible assumption
    | with_reducible apply foldl_sound
    | with_reducible apply State.mirror_sound
    | with_reducible apply State.setHap_sound
    | with_reducible apply State.dropClip_sound
    | with_reducible apply State.dropRule_sound
    | with_reducible refine Sound.snd_of (by with_reducible assumption) ?_
    | with_reducible refine Sound.thd_of (by with_reducible assumption) ?_
    | intro _
    | split
    | dsimp only
    | with_reducible refine Sound.of_mk ?_ rfl rfl rfl rfl rfl rfl rfl rfl rfl rfl rfl rfl rfl

theorem State.hapSilence_sound {s : State} (hs : Sound p q s) :
    Sound p q (State.hapSilence s) := by
  unfold State.hapSilence
  repeat' first
    | with_reducible assumption
    | with_reducible apply foldl_sound
    | with_reducible apply State.setHap_sound
    | with_reducible apply State.dropArrival_sound
    | with_reducible apply State.endEffect_sound
    | with_reducible apply State.bridgeQuiet_sound
    | with_reducible refine Sound.snd_of (by with_reducible assumption) ?_
    | with_reducible refine Sound.thd_of (by with_reducible assumption) ?_
    | intro _
    | split
    | dsimp only
    | with_reducible refine Sound.of_mk ?_ rfl rfl rfl rfl rfl rfl rfl rfl rfl rfl rfl rfl rfl

theorem State.hapBlockEnable_sound (a : RegAcc) (on : Bool) {s : State} (hs : Sound p q s) :
    Sound p q (State.hapBlockEnable a on s) := by
  unfold State.hapBlockEnable
  repeat' first
    | with_reducible assumption
    | with_reducible apply foldl_sound
    | with_reducible apply State.mirroredEnable_sound
    | with_reducible apply State.hapSilence_sound
    | with_reducible refine Sound.snd_of (by with_reducible assumption) ?_
    | with_reducible refine Sound.thd_of (by with_reducible assumption) ?_
    | intro _
    | split
    | dsimp only
    | with_reducible refine Sound.of_mk ?_ rfl rfl rfl rfl rfl rfl rfl rfl rfl rfl rfl rfl rfl

theorem State.hapBlockReset_sound (a : RegAcc) {s : State} (hs : Sound p q s) :
    Sound p q (State.hapBlockReset a s) := by
  unfold State.hapBlockReset
  repeat' first
    | with_reducible assumption
    | with_reducible apply foldl_sound
    | with_reducible apply State.complete_sound
    | with_reducible apply State.mirrorWrite_sound
    | with_reducible apply State.unfence_sound
    | with_reducible apply State.resetPage_sound
    | with_reducible apply State.bridgeQuiet_sound
    | with_reducible refine Sound.snd_of (by with_reducible assumption) ?_
    | with_reducible refine Sound.thd_of (by with_reducible assumption) ?_
    | intro _
    | split
    | dsimp only
    | with_reducible refine Sound.of_mk ?_ rfl rfl rfl rfl rfl rfl rfl rfl rfl rfl rfl rfl rfl

end Sys2Proof.Machine
end

