-- ==== Sys2Proof/Laws/SoundAudio.lean ====
section
/-! SUPPORT. Every operation of Machine/Audio.lean keeps the invariant of Safety.lean. -/

namespace Sys2Proof.Machine

set_option Elab.async false
set_option linter.all false

variable {p : Part} {q : List Instr}

theorem State.setStream_sound {s : State} (c : Nat) (x : AudStream) (hs : Sound p q s) :
    Sound p q (State.setStream s c x) := by
  unfold State.setStream
  repeat' first
    | with_reducible assumption
    | with_reducible apply foldl_sound
    | with_reducible apply State.setFld_sound
    | with_reducible refine Sound.snd_of (by with_reducible assumption) ?_
    | with_reducible refine Sound.thd_of (by with_reducible assumption) ?_
    | intro _
    | split
    | dsimp only
    | with_reducible refine Sound.of_mk ?_ rfl rfl rfl rfl rfl rfl rfl rfl rfl rfl rfl rfl rfl

theorem State.setBus_sound {s : State} (b : Nat) (x : AudBus) (hs : Sound p q s) :
    Sound p q (State.setBus s b x) := by
  unfold State.setBus
  repeat' first
    | with_reducible assumption
    | with_reducible apply foldl_sound
    | with_reducible refine Sound.snd_of (by with_reducible assumption) ?_
    | with_reducible refine Sound.thd_of (by with_reducible assumption) ?_
    | intro _
    | split
    | dsimp only
    | with_reducible refine Sound.of_mk ?_ rfl rfl rfl rfl rfl rfl rfl rfl rfl rfl rfl rfl rfl

theorem State.showBridges_sound {s : State} (hs : Sound p q s) :
    Sound p q (State.showBridges s) := by
  unfold State.showBridges
  repeat' first
    | with_reducible assumption
    | with_reducible apply foldl_sound
    | with_reducible apply State.setRw_sound
    | with_reducible apply State.setFld_sound
    | with_reducible refine Sound.snd_of (by with_reducible assumption) ?_
    | with_reducible refine Sound.thd_of (by with_reducible assumption) ?_
    | intro _
    | split
    | dsimp only
    | with_reducible refine Sound.of_mk ?_ rfl rfl rfl rfl rfl rfl rfl rfl rfl rfl rfl rfl rfl

theorem State.trimBridges_sound {s : State} (sets : List (Store Word32)) (hs : Sound p q s) :
    Sound p q (State.trimBridges s sets) := by
  unfold State.trimBridges
  repeat' first
    | with_reducible assumption
    | with_reducible apply foldl_sound
    | with_reducible apply State.showBridges_sound
    | with_reducible refine Sound.snd_of (by with_reducible assumption) ?_
    | with_reducible refine Sound.thd_of (by with_reducible assumption) ?_
    | intro _
    | split
    | dsimp only
    | with_reducible refine Sound.of_mk ?_ rfl rfl rfl rfl rfl rfl rfl rfl rfl rfl rfl rfl rfl

theorem State.startBridges_sound {s : State} (set : Store Word32) (hs : Sound p q s) :
    Sound p q (State.startBridges s set) := by
  unfold State.startBridges
  repeat' first
    | with_reducible assumption
    | with_reducible apply foldl_sound
    | with_reducible apply State.showBridges_sound
    | with_reducible refine Sound.snd_of (by with_reducible assumption) ?_
    | with_reducible refine Sound.thd_of (by with_reducible assumption) ?_
    | intro _
    | split
    | dsimp only
    | with_reducible refine Sound.of_mk ?_ rfl rfl rfl rfl rfl rfl rfl rfl rfl rfl rfl rfl rfl

theorem State.bridgePrimed_sound {s : State} (k : Nat) (hs : Sound p q s) :
    Sound p q (State.bridgePrimed s k) := by
  unfold State.bridgePrimed
  repeat' first
    | with_reducible assumption
    | with_reducible apply foldl_sound
    | with_reducible apply State.showBridges_sound
    | with_reducible refine Sound.snd_of (by with_reducible assumption) ?_
    | with_reducible refine Sound.thd_of (by with_reducible assumption) ?_
    | intro _
    | split
    | dsimp only
    | with_reducible refine Sound.of_mk ?_ rfl rfl rfl rfl rfl rfl rfl rfl rfl rfl rfl rfl rfl

theorem State.audCtrlWrite_sound (a : RegAcc) {s : State} (hs : Sound p q s) :
    Sound p q (State.audCtrlWrite a s) := by
  unfold State.audCtrlWrite
  repeat' first
    | with_reducible assumption
    | with_reducible apply foldl_sound
    | with_reducible apply State.setFld_sound
    | with_reducible apply State.recErr_sound
    | with_reducible apply State.plainWrite_sound
    | with_reducible apply State.mirrorWrite_sound
    | with_reducible apply State.trimBridges_sound
    | with_reducible apply State.startBridges_sound
    | with_reducible refine Sound.snd_of (by with_reducible assumption) ?_
    | with_reducible refine Sound.thd_of (by with_reducible assumption) ?_
    | intro _
    | split
    | dsimp only
    | with_reducible refine Sound.of_mk ?_ rfl rfl rfl rfl rfl rfl rfl rfl rfl rfl rfl rfl rfl

theorem State.applySet_sound {s : State} (d : Nat) (hs : Sound p q s) :
    Sound p q (State.applySet s d) := by
  unfold State.applySet
  repeat' first
    | with_reducible assumption
    | with_reducible apply foldl_sound
    | with_reducible apply State.setFld_sound
    | with_reducible apply State.setBus_sound
    | with_reducible refine Sound.snd_of (by with_reducible assumption) ?_
    | with_reducible refine Sound.thd_of (by with_reducible assumption) ?_
    | intro _
    | split
    | dsimp only
    | with_reducible refine Sound.of_mk ?_ rfl rfl rfl rfl rfl rfl rfl rfl rfl rfl rfl rfl rfl

theorem State.applyEnd_sound {s : State} (hs : Sound p q s) :
    Sound p q (State.applyEnd s) := by
  unfold State.applyEnd
  repeat' first
    | with_reducible assumption
    | with_reducible apply foldl_sound
    | with_reducible apply State.setFld_sound
    | with_reducible apply State.event_sound
    | with_reducible apply State.trimBridges_sound
    | with_reducible refine Sound.snd_of (by with_reducible assumption) ?_
    | with_reducible refine Sound.thd_of (by with_reducible assumption) ?_
    | intro _
    | split
    | dsimp only
    | with_reducible refine Sound.of_mk ?_ rfl rfl rfl rfl rfl rfl rfl rfl rfl rfl rfl rfl rfl

theorem State.endRegion_sound {s : State} (r : AudRegion) (status : Nat) (hs : Sound p q s) :
    Sound p q (State.endRegion s r status) := by
  unfold State.endRegion
  repeat' first
    | with_reducible assumption
    | with_reducible apply foldl_sound
    | with_reducible apply State.takeFree_sound
    | with_reducible apply State.finish_sound
    | with_reducible apply State.unfence_sound
    | with_reducible refine Sound.snd_of (by with_reducible assumption) ?_
    | with_reducible refine Sound.thd_of (by with_reducible assumption) ?_
    | intro _
    | split
    | dsimp only
    | with_reducible refine Sound.of_mk ?_ rfl rfl rfl rfl rfl rfl rfl rfl rfl rfl rfl rfl rfl

theorem State.dropRegion_sound {s : State} (r : AudRegion) (hs : Sound p q s) :
    Sound p q (State.dropRegion s r) := by
  unfold State.dropRegion
  repeat' first
    | with_reducible assumption
    | with_reducible apply foldl_sound
    | with_reducible apply State.keepJobs_sound
    | with_reducible apply State.unfence_sound
    | with_reducible refine Sound.snd_of (by with_reducible assumption) ?_
    | with_reducible refine Sound.thd_of (by with_reducible assumption) ?_
    | intro _
    | split
    | dsimp only
    | with_reducible refine Sound.of_mk ?_ rfl rfl rfl rfl rfl rfl rfl rfl rfl rfl rfl rfl rfl

theorem State.releaseRegions_sound {s : State} (c : Nat) (silent : Bool) (hs : Sound p q s) :
    Sound p q (State.releaseRegions s c silent) := by
  unfold State.releaseRegions
  repeat' first
    | with_reducible assumption
    | with_reducible apply foldl_sound
    | with_reducible apply State.setStream_sound
    | with_reducible apply State.endRegion_sound
    | with_reducible apply State.dropRegion_sound
    | with_reducible refine Sound.snd_of (by with_reducible assumption) ?_
    | with_reducible refine Sound.thd_of (by with_reducible assumption) ?_
    | intro _
    | split
    | dsimp only
    | with_reducible refine Sound.of_mk ?_ rfl rfl rfl rfl rfl rfl rfl rfl rfl rfl rfl rfl rfl

theorem State.audRead_sound {s : State} (who : Attr) (i : Nat) (b : Nat) (x4 : Nat) (hs : Sound p q s) :
    Sound p q (State.audRead s who i b x4).2 := by
  induction x4 generalizing s who i b with
  | zero =>
    unfold State.audRead
    repeat' first
      | with_reducible assumption
      | with_reducible apply foldl_sound
      | with_reducible apply State.readWordAs_sound
      | with_reducible refine Sound.snd_of (by with_reducible assumption) ?_
      | with_reducible refine Sound.thd_of (by with_reducible assumption) ?_
      | intro _
      | split
      | dsimp only
      | with_reducible refine Sound.of_mk ?_ rfl rfl rfl rfl rfl rfl rfl rfl rfl rfl rfl rfl rfl
  | succ _ ih =>
    unfold State.audRead
    repeat' first
      | with_reducible assumption
      | with_reducible apply ih
      | with_reducible apply foldl_sound
      | with_reducible apply State.readWordAs_sound
      | with_reducible refine Sound.snd_of (by with_reducible assumption) ?_
      | with_reducible refine Sound.thd_of (by with_reducible assumption) ?_
      | intro _
      | split
      | dsimp only
      | with_reducible refine Sound.of_mk ?_ rfl rfl rfl rfl rfl rfl rfl rfl rfl rfl rfl rfl rfl

theorem State.squashStream_sound {s : State} (c : Nat) (hs : Sound p q s) :
    Sound p q (State.squashStream s c) := by
  unfold State.squashStream
  repeat' first
    | with_reducible assumption
    | with_reducible apply foldl_sound
    | with_reducible apply State.releaseRegions_sound
    | with_reducible refine Sound.snd_of (by with_reducible assumption) ?_
    | with_reducible refine Sound.thd_of (by with_reducible assumption) ?_
    | intro _
    | split
    | dsimp only
    | with_reducible refine Sound.of_mk ?_ rfl rfl rfl rfl rfl rfl rfl rfl rfl rfl rfl rfl rfl

theorem State.playBlock_sound {s : State} (c : Nat) (hs : Sound p q s) :
    Sound p q (State.playBlock s c).2 := by
  unfold State.playBlock
  repeat' first
    | with_reducible assumption
    | with_reducible apply foldl_sound
    | with_reducible apply State.satFld_sound
    | with_reducible apply State.event_sound
    | with_reducible apply State.recErr_sound
    | with_reducible apply State.setStream_sound
    | with_reducible apply State.endRegion_sound
    | with_reducible apply State.releaseRegions_sound
    | with_reducible apply State.audRead_sound
    | with_reducible refine Sound.snd_of (by with_reducible assumption) ?_
    | with_reducible refine Sound.thd_of (by with_reducible assumption) ?_
    | intro _
    | split
    | dsimp only
    | with_reducible refine Sound.of_mk ?_ rfl rfl rfl rfl rfl rfl rfl rfl rfl rfl rfl rfl rfl

theorem State.audWrite_sound {s : State} (who : Attr) (i : Nat) (b : Nat) (x4 : List Nat) (hs : Sound p q s) :
    Sound p q (State.audWrite s who i b x4).2 := by
  induction x4 generalizing s who i b with
  | nil =>
    unfold State.audWrite
    repeat' first
      | with_reducible assumption
      | with_reducible apply foldl_sound
      | with_reducible apply State.writeBuf_sound
      | with_reducible refine Sound.snd_of (by with_reducible assumption) ?_
      | with_reducible refine Sound.thd_of (by with_reducible assumption) ?_
      | intro _
      | split
      | dsimp only
      | with_reducible refine Sound.of_mk ?_ rfl rfl rfl rfl rfl rfl rfl rfl rfl rfl rfl rfl rfl
  | cons _ _ ih =>
    unfold State.audWrite
    repeat' first
      | with_reducible assumption
      | with_reducible apply ih
      | with_reducible apply foldl_sound
      | with_reducible apply State.writeBuf_sound
      | with_reducible refine Sound.snd_of (by with_reducible assumption) ?_
      | with_reducible refine Sound.thd_of (by with_reducible assumption) ?_
      | intro _
      | split
      | dsimp only
      | with_reducible refine Sound.of_mk ?_ rfl rfl rfl rfl rfl rfl rfl rfl rfl rfl rfl rfl rfl

theorem State.captureBlock_sound {s : State} (c : Nat) (l : List Int) (hs : Sound p q s) :
    Sound p q (State.captureBlock s c l) := by
  unfold State.captureBlock
  repeat' first
    | with_reducible assumption
    | with_reducible apply foldl_sound
    | with_reducible apply State.satFld_sound
    | with_reducible apply State.event_sound
    | with_reducible apply State.setStream_sound
    | with_reducible apply State.endRegion_sound
    | with_reducible apply State.releaseRegions_sound
    | with_reducible apply State.audWrite_sound
    | with_reducible refine Sound.snd_of (by with_reducible assumption) ?_
    | with_reducible refine Sound.thd_of (by with_reducible assumption) ?_
    | intro _
    | split
    | dsimp only
    | with_reducible refine Sound.of_mk ?_ rfl rfl rfl rfl rfl rfl rfl rfl rfl rfl rfl rfl rfl

theorem State.carryAudioQueue_sound (j : Job) {s : State} (hs : Sound p q s) :
    Sound p q (State.carryAudioQueue j s) := by
  unfold State.carryAudioQueue
  repeat' first
    | with_reducible assumption
    | with_reducible apply foldl_sound
    | with_reducible apply State.complete_sound
    | with_reducible apply State.fence_sound
    | with_reducible apply State.setStream_sound
    | with_reducible refine Sound.snd_of (by with_reducible assumption) ?_
    | with_reducible refine Sound.thd_of (by with_reducible assumption) ?_
    | intro _
    | split
    | dsimp only
    | with_reducible refine Sound.of_mk ?_ rfl rfl rfl rfl rfl rfl rfl rfl rfl rfl rfl rfl rfl

theorem State.bridgeBlock_sound {s : State} (w : Nat) (hs : Sound p q s) :
    Sound p q (State.bridgeBlock s w).2 := by
  unfold State.bridgeBlock
  repeat' first
    | with_reducible assumption
    | with_reducible apply foldl_sound
    | with_reducible refine Sound.snd_of (by with_reducible assumption) ?_
    | with_reducible refine Sound.thd_of (by with_reducible assumption) ?_
    | intro _
    | split
    | dsimp only
    | with_reducible refine Sound.of_mk ?_ rfl rfl rfl rfl rfl rfl rfl rfl rfl rfl rfl rfl rfl

theorem State.sourceBlock_sound {s : State} (d : Nat) (code : Nat) (inputs : List (Nat × List Int)) (m : State.Mix) (limited : Bool) (hs : Sound p q s) :
    Sound p q (State.sourceBlock s d code inputs m limited).2 := by
  unfold State.sourceBlock
  repeat' first
    | with_reducible assumption
    | with_reducible apply foldl_sound
    | with_reducible apply State.bridgeBlock_sound
    | with_reducible refine Sound.snd_of (by with_reducible assumption) ?_
    | with_reducible refine Sound.thd_of (by with_reducible assumption) ?_
    | intro _
    | split
    | dsimp only
    | with_reducible refine Sound.of_mk ?_ rfl rfl rfl rfl rfl rfl rfl rfl rfl rfl rfl rfl rfl

theorem State.busInputs_sound {s : State} (set : Store Word32) (d : Nat) (b : Nat) (inputs : List (Nat × List Int)) (m : State.Mix) (hs : Sound p q s) :
    Sound p q (State.busInputs s set d b inputs m).2 := by
  unfold State.busInputs
  repeat' first
    | with_reducible apply foldl_sound_snd
    | with_reducible assumption
    | with_reducible apply foldl_sound
    | with_reducible apply State.sourceBlock_sound
    | with_reducible refine Sound.snd_of (by with_reducible assumption) ?_
    | with_reducible refine Sound.thd_of (by with_reducible assumption) ?_
    | intro _
    | split
    | dsimp only
    | with_reducible refine Sound.of_mk ?_ rfl rfl rfl rfl rfl rfl rfl rfl rfl rfl rfl rfl rfl

theorem State.busCross_sound {s : State} (d : Nat) (b : Nat) (inputs : List (Nat × List Int)) (m : State.Mix) (old : Option BusRun) (u : List Int) (l : List Int) (hs : Sound p q s) :
    Sound p q (State.busCross s d b inputs m old u l).2 := by
  unfold State.busCross
  repeat' first
    | with_reducible assumption
    | with_reducible apply foldl_sound
    | with_reducible apply State.busInputs_sound
    | with_reducible refine Sound.snd_of (by with_reducible assumption) ?_
    | with_reducible refine Sound.thd_of (by with_reducible assumption) ?_
    | intro _
    | split
    | dsimp only
    | with_reducible refine Sound.of_mk ?_ rfl rfl rfl rfl rfl rfl rfl rfl rfl rfl rfl rfl rfl

theorem State.putBus_sound {s : State} (b : Nat) (x : AudBus) (l : List Int) (sat : Bool) (lim : Bool) (hs : Sound p q s) :
    Sound p q (State.putBus s b x l sat lim) := by
  unfold State.putBus
  repeat' first
    | with_reducible assumption
    | with_reducible apply foldl_sound
    | with_reducible apply State.setFld_sound
    | with_reducible apply State.event_sound
    | with_reducible apply State.setBus_sound
    | with_reducible refine Sound.snd_of (by with_reducible assumption) ?_
    | with_reducible refine Sound.thd_of (by with_reducible assumption) ?_
    | intro _
    | split
    | dsimp only
    | with_reducible refine Sound.of_mk ?_ rfl rfl rfl rfl rfl rfl rfl rfl rfl rfl rfl rfl rfl

theorem State.runBus_sound {s : State} (d : Nat) (b : Nat) (inputs : List (Nat × List Int)) (m : State.Mix) (hs : Sound p q s) :
    Sound p q (State.runBus s d b inputs m).2 := by
  unfold State.runBus
  repeat' first
    | with_reducible assumption
    | with_reducible apply foldl_sound
    | with_reducible apply State.setRw_sound
    | with_reducible apply State.busInputs_sound
    | with_reducible apply State.busCross_sound
    | with_reducible apply State.putBus_sound
    | with_reducible refine Sound.snd_of (by with_reducible assumption) ?_
    | with_reducible refine Sound.thd_of (by with_reducible assumption) ?_
    | intro _
    | split
    | dsimp only
    | with_reducible refine Sound.of_mk ?_ rfl rfl rfl rfl rfl rfl rfl rfl rfl rfl rfl rfl rfl

theorem State.selected_sound {s : State} (d : Nat) (k : Nat) (code : State → Nat) (inputs : List (Nat × List Int)) (m : State.Mix) (hs : Sound p q s) :
    Sound p q (State.selected s d k code inputs m).2 := by
  unfold State.selected
  repeat' first
    | with_reducible assumption
    | with_reducible apply foldl_sound
    | with_reducible apply State.sourceBlock_sound
    | with_reducible refine Sound.snd_of (by with_reducible assumption) ?_
    | with_reducible refine Sound.thd_of (by with_reducible assumption) ?_
    | intro _
    | split
    | dsimp only
    | with_reducible refine Sound.of_mk ?_ rfl rfl rfl rfl rfl rfl rfl rfl rfl rfl rfl rfl rfl

theorem State.sidePlan_sound {s : State} (hs : Sound p q s) :
    Sound p q (State.sidePlan s) := by
  unfold State.sidePlan
  repeat' first
    | with_reducible assumption
    | with_reducible apply foldl_sound
    | with_reducible refine Sound.snd_of (by with_reducible assumption) ?_
    | with_reducible refine Sound.thd_of (by with_reducible assumption) ?_
    | intro _
    | split
    | dsimp only
    | with_reducible refine Sound.of_mk ?_ rfl rfl rfl rfl rfl rfl rfl rfl rfl rfl rfl rfl rfl

theorem State.portFrames_sound {s : State} (d : Nat) (x2 : Nat) (inputs : List (Nat × List Int)) (hs : Sound p q s) :
    Sound p q (State.portFrames s d x2 inputs) := by
  unfold State.portFrames
  repeat' first
    | with_reducible assumption
    | with_reducible apply foldl_sound
    | with_reducible apply State.emit_sound
    | with_reducible refine Sound.snd_of (by with_reducible assumption) ?_
    | with_reducible refine Sound.thd_of (by with_reducible assumption) ?_
    | intro _
    | split
    | dsimp only
    | with_reducible refine Sound.of_mk ?_ rfl rfl rfl rfl rfl rfl rfl rfl rfl rfl rfl rfl rfl

theorem State.takeSlots_sound {s : State} (d : Nat) (inputs : List (Nat × List Int)) (m : State.Mix) (hs : Sound p q s) :
    Sound p q (State.takeSlots s d inputs m) := by
  unfold State.takeSlots
  extract_lets r next
  have h : Sound p q r.2 := by
    refine foldl_sound_snd (fun t x ht => foldl_sound_snd (fun t x ht => ?_) ht) hs
    exact State.selected_sound _ _ _ _ _ ht
  exact Sound.of_mk (h) rfl rfl rfl rfl rfl rfl rfl rfl rfl rfl rfl rfl rfl

theorem State.portSync_sound {s : State} (d : Nat) (sync : List Nat) (hs : Sound p q s) :
    Sound p q (State.portSync s d sync) := by
  unfold State.portSync
  repeat' first
    | with_reducible assumption
    | with_reducible apply foldl_sound
    | with_reducible apply State.setFld_sound
    | with_reducible refine Sound.snd_of (by with_reducible assumption) ?_
    | with_reducible refine Sound.thd_of (by with_reducible assumption) ?_
    | intro _
    | split
    | dsimp only
    | with_reducible refine Sound.of_mk ?_ rfl rfl rfl rfl rfl rfl rfl rfl rfl rfl rfl rfl rfl

theorem State.fadeStep_sound {s : State} (d : Nat) (hs : Sound p q s) :
    Sound p q (State.fadeStep s d) := by
  unfold State.fadeStep
  repeat' first
    | with_reducible assumption
    | with_reducible apply foldl_sound
    | with_reducible apply State.setBus_sound
    | with_reducible refine Sound.snd_of (by with_reducible assumption) ?_
    | with_reducible refine Sound.thd_of (by with_reducible assumption) ?_
    | intro _
    | split
    | dsimp only
    | with_reducible refine Sound.of_mk ?_ rfl rfl rfl rfl rfl rfl rfl rfl rfl rfl rfl rfl rfl

theorem State.audStopped_sound {s : State} (hs : Sound p q s) :
    Sound p q (State.audStopped s) := by
  unfold State.audStopped
  repeat' first
    | with_reducible assumption
    | with_reducible apply foldl_sound
    | with_reducible apply State.setFld_sound
    | with_reducible refine Sound.snd_of (by with_reducible assumption) ?_
    | with_reducible refine Sound.thd_of (by with_reducible assumption) ?_
    | intro _
    | split
    | dsimp only
    | with_reducible refine Sound.of_mk ?_ rfl rfl rfl rfl rfl rfl rfl rfl rfl rfl rfl rfl rfl

theorem State.playStreams_sound {s : State} (d : Nat) (hs : Sound p q s) :
    Sound p q (State.playStreams s d).2 := by
  unfold State.playStreams
  repeat' first
    | with_reducible apply foldl_sound_snd
    | with_reducible assumption
    | with_reducible apply foldl_sound
    | with_reducible apply State.squashStream_sound
    | with_reducible apply State.playBlock_sound
    | with_reducible refine Sound.snd_of (by with_reducible assumption) ?_
    | with_reducible refine Sound.thd_of (by with_reducible assumption) ?_
    | intro _
    | split
    | dsimp only
    | with_reducible refine Sound.of_mk ?_ rfl rfl rfl rfl rfl rfl rfl rfl rfl rfl rfl rfl rfl

theorem State.runBuses_sound {s : State} (d : Nat) (inputs : List (Nat × List Int)) (m : State.Mix) (hs : Sound p q s) :
    Sound p q (State.runBuses s d inputs m).2 := by
  unfold State.runBuses
  repeat' first
    | with_reducible apply foldl_sound_snd
    | with_reducible assumption
    | with_reducible apply foldl_sound
    | with_reducible apply State.runBus_sound
    | with_reducible refine Sound.snd_of (by with_reducible assumption) ?_
    | with_reducible refine Sound.thd_of (by with_reducible assumption) ?_
    | intro _
    | split
    | dsimp only
    | with_reducible refine Sound.of_mk ?_ rfl rfl rfl rfl rfl rfl rfl rfl rfl rfl rfl rfl rfl

theorem State.captureStreams_sound {s : State} (d : Nat) (closing : Bool) (inputs : List (Nat × List Int)) (m : State.Mix) (hs : Sound p q s) :
    Sound p q (State.captureStreams s d closing inputs m) := by
  unfold State.captureStreams
  repeat' first
    | with_reducible assumption
    | with_reducible apply foldl_sound
    | with_reducible apply State.squashStream_sound
    | with_reducible apply State.captureBlock_sound
    | with_reducible apply State.selected_sound
    | with_reducible refine Sound.snd_of (by with_reducible assumption) ?_
    | with_reducible refine Sound.thd_of (by with_reducible assumption) ?_
    | intro _
    | split
    | dsimp only
    | with_reducible refine Sound.of_mk ?_ rfl rfl rfl rfl rfl rfl rfl rfl rfl rfl rfl rfl rfl

theorem State.audPaused_sound {s : State} (hs : Sound p q s) :
    Sound p q (State.audPaused s) := by
  unfold State.audPaused
  repeat' first
    | with_reducible assumption
    | with_reducible apply foldl_sound
    | with_reducible refine Sound.snd_of (by with_reducible assumption) ?_
    | with_reducible refine Sound.thd_of (by with_reducible assumption) ?_
    | intro _
    | split
    | dsimp only
    | with_reducible refine Sound.of_mk ?_ rfl rfl rfl rfl rfl rfl rfl rfl rfl rfl rfl rfl rfl

theorem State.domainClosed_sound {s : State} (d : Nat) (hs : Sound p q s) :
    Sound p q (State.domainClosed s d) := by
  unfold State.domainClosed
  repeat' first
    | with_reducible assumption
    | with_reducible apply foldl_sound
    | with_reducible apply State.audStopped_sound
    | with_reducible apply State.audPaused_sound
    | with_reducible refine Sound.snd_of (by with_reducible assumption) ?_
    | with_reducible refine Sound.thd_of (by with_reducible assumption) ?_
    | intro _
    | split
    | dsimp only
    | with_reducible refine Sound.of_mk ?_ rfl rfl rfl rfl rfl rfl rfl rfl rfl rfl rfl rfl rfl

theorem State.domainFades_sound {s : State} (d : Nat) (hs : Sound p q s) :
    Sound p q (State.domainFades s d) := by
  unfold State.domainFades
  repeat' first
    | with_reducible assumption
    | with_reducible apply foldl_sound
    | with_reducible refine Sound.snd_of (by with_reducible assumption) ?_
    | with_reducible refine Sound.thd_of (by with_reducible assumption) ?_
    | intro _
    | split
    | dsimp only
    | with_reducible refine Sound.of_mk ?_ rfl rfl rfl rfl rfl rfl rfl rfl rfl rfl rfl rfl rfl

theorem State.processBlock_sound {s : State} (d : Nat) (inputs : List (Nat × List Int)) (hs : Sound p q s) :
    Sound p q (State.processBlock s d inputs) := by
  unfold State.processBlock
  repeat' first
    | with_reducible assumption
    | with_reducible apply foldl_sound
    | with_reducible apply State.addFld_sound
    | with_reducible apply State.applySet_sound
    | with_reducible apply State.applyEnd_sound
    | with_reducible apply State.sidePlan_sound
    | with_reducible apply State.takeSlots_sound
    | with_reducible apply State.fadeStep_sound
    | with_reducible apply State.playStreams_sound
    | with_reducible apply State.runBuses_sound
    | with_reducible apply State.captureStreams_sound
    | with_reducible apply State.domainFades_sound
    | with_reducible refine Sound.snd_of (by with_reducible assumption) ?_
    | with_reducible refine Sound.thd_of (by with_reducible assumption) ?_
    | intro _
    | split
    | dsimp only
    | with_reducible refine Sound.of_mk ?_ rfl rfl rfl rfl rfl rfl rfl rfl rfl rfl rfl rfl rfl

theorem State.blockBoundary_sound {s : State} (d : Nat) (inputs : List (Nat × List Int)) (sync : List Nat) (hs : Sound p q s) :
    Sound p q (State.blockBoundary s d inputs sync) := by
  unfold State.blockBoundary
  repeat' first
    | with_reducible assumption
    | with_reducible apply foldl_sound
    | with_reducible apply State.portFrames_sound
    | with_reducible apply State.portSync_sound
    | with_reducible apply State.domainClosed_sound
    | with_reducible apply State.processBlock_sound
    | with_reducible refine Sound.snd_of (by with_reducible assumption) ?_
    | with_reducible refine Sound.thd_of (by with_reducible assumption) ?_
    | intro _
    | split
    | dsimp only
    | with_reducible refine Sound.of_mk ?_ rfl rfl rfl rfl rfl rfl rfl rfl rfl rfl rfl rfl rfl

theorem State.setLocked_sound {s : State} (d : Nat) (locked : Bool) (holdover : Bool) (hs : Sound p q s) :
    Sound p q (State.setLocked s d locked holdover) := by
  unfold State.setLocked
  repeat' first
    | with_reducible assumption
    | with_reducible apply foldl_sound
    | with_reducible apply State.setFld_sound
    | with_reducible refine Sound.snd_of (by with_reducible assumption) ?_
    | with_reducible refine Sound.thd_of (by with_reducible assumption) ?_
    | intro _
    | split
    | dsimp only
    | with_reducible refine Sound.of_mk ?_ rfl rfl rfl rfl rfl rfl rfl rfl rfl rfl rfl rfl rfl

theorem State.domainHoldover_sound {s : State} (d : Nat) (hs : Sound p q s) :
    Sound p q (State.domainHoldover s d) := by
  unfold State.domainHoldover
  repeat' first
    | with_reducible assumption
    | with_reducible apply foldl_sound
    | with_reducible apply State.event_sound
    | with_reducible apply State.setLocked_sound
    | with_reducible refine Sound.snd_of (by with_reducible assumption) ?_
    | with_reducible refine Sound.thd_of (by with_reducible assumption) ?_
    | intro _
    | split
    | dsimp only
    | with_reducible refine Sound.of_mk ?_ rfl rfl rfl rfl rfl rfl rfl rfl rfl rfl rfl rfl rfl

theorem State.domainRelock_sound {s : State} (d : Nat) (hs : Sound p q s) :
    Sound p q (State.domainRelock s d) := by
  unfold State.domainRelock
  repeat' first
    | with_reducible assumption
    | with_reducible apply foldl_sound
    | with_reducible apply State.event_sound
    | with_reducible apply State.setLocked_sound
    | with_reducible refine Sound.snd_of (by with_reducible assumption) ?_
    | with_reducible refine Sound.thd_of (by with_reducible assumption) ?_
    | intro _
    | split
    | dsimp only
    | with_reducible refine Sound.of_mk ?_ rfl rfl rfl rfl rfl rfl rfl rfl rfl rfl rfl rfl rfl

theorem State.audDomWrite_sound (a : RegAcc) {s : State} (hs : Sound p q s) :
    Sound p q (State.audDomWrite a s) := by
  unfold State.audDomWrite
  repeat' first
    | with_reducible assumption
    | with_reducible apply foldl_sound
    | with_reducible apply State.recRefused_sound
    | with_reducible apply State.refuse_sound
    | with_reducible apply State.plainWrite_sound
    | with_reducible apply State.mirrorWrite_sound
    | with_reducible apply State.setLocked_sound
    | with_reducible refine Sound.snd_of (by with_reducible assumption) ?_
    | with_reducible refine Sound.thd_of (by with_reducible assumption) ?_
    | intro _
    | split
    | dsimp only
    | with_reducible refine Sound.of_mk ?_ rfl rfl rfl rfl rfl rfl rfl rfl rfl rfl rfl rfl rfl

theorem State.tdmCfgWrite_sound (a : RegAcc) {s : State} (hs : Sound p q s) :
    Sound p q (State.tdmCfgWrite a s) := by
  unfold State.tdmCfgWrite
  repeat' first
    | with_reducible assumption
    | with_reducible apply foldl_sound
    | with_reducible apply State.setFld_sound
    | with_reducible apply State.recAcc_sound
    | with_reducible apply State.recRefused_sound
    | with_reducible apply State.plainWrite_sound
    | with_reducible apply State.mirrorWrite_sound
    | with_reducible apply State.domainHoldover_sound
    | with_reducible refine Sound.snd_of (by with_reducible assumption) ?_
    | with_reducible refine Sound.thd_of (by with_reducible assumption) ?_
    | intro _
    | split
    | dsimp only
    | with_reducible refine Sound.of_mk ?_ rfl rfl rfl rfl rfl rfl rfl rfl rfl rfl rfl rfl rfl

theorem State.tdmSlip_sound {s : State} (x1 : Nat) (hs : Sound p q s) :
    Sound p q (State.tdmSlip s x1) := by
  unfold State.tdmSlip
  repeat' first
    | with_reducible assumption
    | with_reducible apply foldl_sound
    | with_reducible apply State.satFld_sound
    | with_reducible apply State.event_sound
    | with_reducible refine Sound.snd_of (by with_reducible assumption) ?_
    | with_reducible refine Sound.thd_of (by with_reducible assumption) ?_
    | intro _
    | split
    | dsimp only
    | with_reducible refine Sound.of_mk ?_ rfl rfl rfl rfl rfl rfl rfl rfl rfl rfl rfl rfl rfl

theorem State.tdmClockLost_sound {s : State} (x1 : Nat) (hs : Sound p q s) :
    Sound p q (State.tdmClockLost s x1) := by
  unfold State.tdmClockLost
  repeat' first
    | with_reducible assumption
    | with_reducible apply foldl_sound
    | with_reducible apply State.setFld_sound
    | with_reducible apply State.event_sound
    | with_reducible apply State.domainHoldover_sound
    | with_reducible refine Sound.snd_of (by with_reducible assumption) ?_
    | with_reducible refine Sound.thd_of (by with_reducible assumption) ?_
    | intro _
    | split
    | dsimp only
    | with_reducible refine Sound.of_mk ?_ rfl rfl rfl rfl rfl rfl rfl rfl rfl rfl rfl rfl rfl

theorem State.busCfgWrite_sound (a : RegAcc) {s : State} (hs : Sound p q s) :
    Sound p q (State.busCfgWrite a s) := by
  unfold State.busCfgWrite
  repeat' first
    | with_reducible assumption
    | with_reducible apply foldl_sound
    | with_reducible apply State.recAcc_sound
    | with_reducible apply State.plainWrite_sound
    | with_reducible apply State.mirrorWrite_sound
    | with_reducible refine Sound.snd_of (by with_reducible assumption) ?_
    | with_reducible refine Sound.thd_of (by with_reducible assumption) ?_
    | intro _
    | split
    | dsimp only
    | with_reducible refine Sound.of_mk ?_ rfl rfl rfl rfl rfl rfl rfl rfl rfl rfl rfl rfl rfl

theorem State.strCfgWrite_sound (a : RegAcc) {s : State} (hs : Sound p q s) :
    Sound p q (State.strCfgWrite a s) := by
  unfold State.strCfgWrite
  repeat' first
    | with_reducible assumption
    | with_reducible apply foldl_sound
    | with_reducible apply State.recAcc_sound
    | with_reducible apply State.plainWrite_sound
    | with_reducible apply State.mirrorWrite_sound
    | with_reducible apply State.setStream_sound
    | with_reducible refine Sound.snd_of (by with_reducible assumption) ?_
    | with_reducible refine Sound.thd_of (by with_reducible assumption) ?_
    | intro _
    | split
    | dsimp only
    | with_reducible refine Sound.of_mk ?_ rfl rfl rfl rfl rfl rfl rfl rfl rfl rfl rfl rfl rfl

theorem State.strChannelWrite_sound (a : RegAcc) {s : State} (hs : Sound p q s) :
    Sound p q (State.strChannelWrite a s) := by
  unfold State.strChannelWrite
  repeat' first
    | with_reducible assumption
    | with_reducible apply foldl_sound
    | with_reducible apply State.recRefused_sound
    | with_reducible apply State.refuse_sound
    | with_reducible apply State.plainWrite_sound
    | with_reducible apply State.mirrorWrite_sound
    | with_reducible refine Sound.snd_of (by with_reducible assumption) ?_
    | with_reducible refine Sound.thd_of (by with_reducible assumption) ?_
    | intro _
    | split
    | dsimp only
    | with_reducible refine Sound.of_mk ?_ rfl rfl rfl rfl rfl rfl rfl rfl rfl rfl rfl rfl rfl

theorem State.audResetFn_sound {s : State} (fn : Nat) (hs : Sound p q s) :
    Sound p q (State.audResetFn s fn) := by
  unfold State.audResetFn
  repeat' first
    | with_reducible assumption
    | with_reducible apply foldl_sound
    | with_reducible apply State.setStream_sound
    | with_reducible refine Sound.snd_of (by with_reducible assumption) ?_
    | with_reducible refine Sound.thd_of (by with_reducible assumption) ?_
    | intro _
    | split
    | dsimp only
    | with_reducible refine Sound.of_mk ?_ rfl rfl rfl rfl rfl rfl rfl rfl rfl rfl rfl rfl rfl

theorem State.audTakeover_sound {s : State} (hs : Sound p q s) :
    Sound p q (State.audTakeover s) := by
  unfold State.audTakeover
  repeat' first
    | with_reducible assumption
    | with_reducible apply foldl_sound
    | with_reducible apply State.setStream_sound
    | with_reducible apply State.releaseRegions_sound
    | with_reducible refine Sound.snd_of (by with_reducible assumption) ?_
    | with_reducible refine Sound.thd_of (by with_reducible assumption) ?_
    | intro _
    | split
    | dsimp only
    | with_reducible refine Sound.of_mk ?_ rfl rfl rfl rfl rfl rfl rfl rfl rfl rfl rfl rfl rfl

theorem State.audEnableAll_sound {s : State} (on : Bool) (hs : Sound p q s) :
    Sound p q (State.audEnableAll s on) := by
  unfold State.audEnableAll
  repeat' first
    | with_reducible assumption
    | with_reducible apply foldl_sound
    | with_reducible apply State.setFld_sound
    | with_reducible refine Sound.snd_of (by with_reducible assumption) ?_
    | with_reducible refine Sound.thd_of (by with_reducible assumption) ?_
    | intro _
    | split
    | dsimp only
    | with_reducible refine Sound.of_mk ?_ rfl rfl rfl rfl rfl rfl rfl rfl rfl rfl rfl rfl rfl

theorem State.endStreams_sound {s : State} (hs : Sound p q s) :
    Sound p q (State.endStreams s) := by
  unfold State.endStreams
  repeat' first
    | with_reducible assumption
    | with_reducible apply foldl_sound
    | with_reducible apply State.setStream_sound
    | with_reducible refine Sound.snd_of (by with_reducible assumption) ?_
    | with_reducible refine Sound.thd_of (by with_reducible assumption) ?_
    | intro _
    | split
    | dsimp only
    | with_reducible refine Sound.of_mk ?_ rfl rfl rfl rfl rfl rfl rfl rfl rfl rfl rfl rfl rfl

theorem State.audStop_sound {s : State} (hs : Sound p q s) :
    Sound p q (State.audStop s) := by
  unfold State.audStop
  repeat' first
    | with_reducible assumption
    | with_reducible apply foldl_sound
    | with_reducible apply State.audEnableAll_sound
    | with_reducible apply State.endStreams_sound
    | with_reducible refine Sound.snd_of (by with_reducible assumption) ?_
    | with_reducible refine Sound.thd_of (by with_reducible assumption) ?_
    | intro _
    | split
    | dsimp only
    | with_reducible refine Sound.of_mk ?_ rfl rfl rfl rfl rfl rfl rfl rfl rfl rfl rfl rfl rfl

theorem State.audEnable_sound (a : RegAcc) (on : Bool) {s : State} (hs : Sound p q s) :
    Sound p q (State.audEnable a on s) := by
  unfold State.audEnable
  repeat' first
    | with_reducible assumption
    | with_reducible apply foldl_sound
    | with_reducible apply State.setFld_sound
    | with_reducible apply State.mirrorWrite_sound
    | with_reducible apply State.audEnableAll_sound
    | with_reducible apply State.audStop_sound
    | with_reducible refine Sound.snd_of (by with_reducible assumption) ?_
    | with_reducible refine Sound.thd_of (by with_reducible assumption) ?_
    | intro _
    | split
    | dsimp only
    | with_reducible refine Sound.of_mk ?_ rfl rfl rfl rfl rfl rfl rfl rfl rfl rfl rfl rfl rfl

theorem State.audKill_sound {s : State} (hs : Sound p q s) :
    Sound p q (State.audKill s) := by
  unfold State.audKill
  repeat' first
    | with_reducible assumption
    | with_reducible apply foldl_sound
    | with_reducible apply State.setStream_sound
    | with_reducible apply State.releaseRegions_sound
    | with_reducible apply State.audStopped_sound
    | with_reducible refine Sound.snd_of (by with_reducible assumption) ?_
    | with_reducible refine Sound.thd_of (by with_reducible assumption) ?_
    | intro _
    | split
    | dsimp only
    | with_reducible refine Sound.of_mk ?_ rfl rfl rfl rfl rfl rfl rfl rfl rfl rfl rfl rfl rfl

theorem State.audReset_sound (a : RegAcc) {s : State} (hs : Sound p q s) :
    Sound p q (State.audReset a s) := by
  unfold State.audReset
  repeat' first
    | with_reducible assumption
    | with_reducible apply foldl_sound
    | with_reducible apply State.recAcc_sound
    | with_reducible apply State.mirrorWrite_sound
    | with_reducible apply State.resetPage_sound
    | with_reducible apply State.audKill_sound
    | with_reducible refine Sound.snd_of (by with_reducible assumption) ?_
    | with_reducible refine Sound.thd_of (by with_reducible assumption) ?_
    | intro _
    | split
    | dsimp only
    | with_reducible refine Sound.of_mk ?_ rfl rfl rfl rfl rfl rfl rfl rfl rfl rfl rfl rfl rfl

end Sys2Proof.Machine
end

