-- ==== Sys2Proof/Laws/SoundScanout.lean ====
section
/-! SUPPORT. Every operation of Machine/Scanout.lean keeps the invariant of Safety.lean. -/

namespace Sys2Proof.Machine

set_option Elab.async false
set_option linter.all false

variable {p : Part} {q : List Instr}

theorem State.shedUnit_sound {s : State} (n : Nat) (sl : Compose.Slot) (f : Furrow) (i : Nat) (hs : Sound p q s) :
    Sound p q (State.shedUnit s n sl f i) := by
  unfold State.shedUnit
  repeat' first
    | with_reducible assumption
    | with_reducible apply foldl_sound
    | with_reducible apply State.event_sound
    | with_reducible apply State.pmcCount_sound
    | with_reducible apply State.setDisp_sound
    | with_reducible refine Sound.snd_of (by with_reducible assumption) ?_
    | with_reducible refine Sound.thd_of (by with_reducible assumption) ?_
    | intro _
    | split
    | dsimp only
    | with_reducible refine Sound.of_mk ?_ rfl rfl rfl rfl rfl rfl rfl rfl rfl rfl rfl rfl rfl

theorem State.shedLoop_sound (n : Nat) (now : Int) (m : Monitor) (x3 : Nat) {x4 : State} (hx4 : Sound p q x4) :
    Sound p q (State.shedLoop n now m x3 x4) := by
  induction x3 generalizing n now m x4 with
  | zero =>
    unfold State.shedLoop
    repeat' first
      | with_reducible assumption
      | with_reducible apply foldl_sound
      | with_reducible apply State.shedUnit_sound
      | with_reducible refine Sound.snd_of (by with_reducible assumption) ?_
      | with_reducible refine Sound.thd_of (by with_reducible assumption) ?_
      | intro _
      | split
      | dsimp only
      | with_reducible refine Sound.of_mk ?_ rfl rfl rfl rfl rfl rfl rfl rfl rfl rfl rfl rfl rfl
  | succ _ ih =>
    unfold State.shedLoop
    repeat' first
      | with_reducible assumption
      | with_reducible apply ih
      | with_reducible apply foldl_sound
      | with_reducible apply State.shedUnit_sound
      | with_reducible refine Sound.snd_of (by with_reducible assumption) ?_
      | with_reducible refine Sound.thd_of (by with_reducible assumption) ?_
      | intro _
      | split
      | dsimp only
      | with_reducible refine Sound.of_mk ?_ rfl rfl rfl rfl rfl rfl rfl rfl rfl rfl rfl rfl rfl

theorem State.advanceSlot_sound (n : Nat) (now : Int) (m : Monitor) (top : Nat) (sl : Compose.Slot) (x5 : Nat) {x6 : State} (hx6 : Sound p q x6) :
    Sound p q (State.advanceSlot n now m top sl x5 x6) := by
  induction x5 generalizing n now m top sl x6 with
  | zero =>
    unfold State.advanceSlot
    repeat' first
      | with_reducible assumption
      | with_reducible apply foldl_sound
      | with_reducible apply State.setDisp_sound
      | with_reducible refine Sound.snd_of (by with_reducible assumption) ?_
      | with_reducible refine Sound.thd_of (by with_reducible assumption) ?_
      | intro _
      | split
      | dsimp only
      | with_reducible refine Sound.of_mk ?_ rfl rfl rfl rfl rfl rfl rfl rfl rfl rfl rfl rfl rfl
  | succ _ ih =>
    unfold State.advanceSlot
    repeat' first
      | with_reducible assumption
      | with_reducible apply ih
      | with_reducible apply foldl_sound
      | with_reducible apply State.setDisp_sound
      | with_reducible refine Sound.snd_of (by with_reducible assumption) ?_
      | with_reducible refine Sound.thd_of (by with_reducible assumption) ?_
      | intro _
      | split
      | dsimp only
      | with_reducible refine Sound.of_mk ?_ rfl rfl rfl rfl rfl rfl rfl rfl rfl rfl rfl rfl rfl

theorem State.advance_sound {s : State} (n : Nat) (now : Int) (m : Monitor) (hs : Sound p q s) :
    Sound p q (State.advance s n now m) := by
  unfold State.advance
  repeat' first
    | with_reducible assumption
    | with_reducible apply foldl_sound
    | with_reducible apply State.advanceSlot_sound
    | with_reducible refine Sound.snd_of (by with_reducible assumption) ?_
    | with_reducible refine Sound.thd_of (by with_reducible assumption) ?_
    | intro _
    | split
    | dsimp only
    | with_reducible refine Sound.of_mk ?_ rfl rfl rfl rfl rfl rfl rfl rfl rfl rfl rfl rfl rfl

theorem State.monitor_sound {s : State} (n : Nat) (now : Int) (m : Monitor) (hs : Sound p q s) :
    Sound p q (State.monitor s n now m) := by
  unfold State.monitor
  repeat' first
    | with_reducible assumption
    | with_reducible apply foldl_sound
    | with_reducible apply State.setDisp_sound
    | with_reducible apply State.shedLoop_sound
    | with_reducible apply State.advance_sound
    | with_reducible refine Sound.snd_of (by with_reducible assumption) ?_
    | with_reducible refine Sound.thd_of (by with_reducible assumption) ?_
    | intro _
    | split
    | dsimp only
    | with_reducible refine Sound.of_mk ?_ rfl rfl rfl rfl rfl rfl rfl rfl rfl rfl rfl rfl rfl

theorem State.readTile_sound {s : State} (sl : Compose.Slot) (x2 : Nat) (pl : Seedbed.Plane) (ty : Nat) (tx : Nat) (entry : Option Nat) (hs : Sound p q s) :
    Sound p q (State.readTile s sl x2 pl ty tx entry).2 := by
  unfold State.readTile
  repeat' first
    | with_reducible assumption
    | with_reducible apply foldl_sound
    | with_reducible apply State.event_sound
    | with_reducible apply State.readBuf_sound
    | with_reducible refine Sound.snd_of (by with_reducible assumption) ?_
    | with_reducible refine Sound.thd_of (by with_reducible assumption) ?_
    | intro _
    | split
    | dsimp only
    | with_reducible refine Sound.of_mk ?_ rfl rfl rfl rfl rfl rfl rfl rfl rfl rfl rfl rfl rfl

theorem State.readMeta_sound {s : State} (who : Attr) (x2 : List Nat) (hs : Sound p q s) :
    Sound p q (State.readMeta s who x2).2 := by
  induction x2 generalizing s who with
  | nil =>
    unfold State.readMeta
    repeat' first
      | with_reducible assumption
      | with_reducible apply foldl_sound
      | with_reducible apply State.readWordAs_sound
      | with_reducible refine Sound.snd_of (by with_reducible assumption) ?_
      | with_reducible refine Sound.thd_of (by with_reducible assumption) ?_
      | intro _
      | split
      | dsimp only
      | with_reducible refine Sound.of_mk ?_ rfl rfl rfl rfl rfl rfl rfl rfl rfl rfl rfl rfl rfl
  | cons _ _ ih =>
    unfold State.readMeta
    repeat' first
      | with_reducible assumption
      | with_reducible apply ih
      | with_reducible apply foldl_sound
      | with_reducible apply State.readWordAs_sound
      | with_reducible refine Sound.snd_of (by with_reducible assumption) ?_
      | with_reducible refine Sound.thd_of (by with_reducible assumption) ?_
      | intro _
      | split
      | dsimp only
      | with_reducible refine Sound.of_mk ?_ rfl rfl rfl rfl rfl rfl rfl rfl rfl rfl rfl rfl rfl

theorem State.fetchFurrow_sound {s : State} (n : Nat) (sl : Compose.Slot) (f : Furrow) (pl : Seedbed.Plane) (hs : Sound p q s) :
    Sound p q (State.fetchFurrow s n sl f pl) := by
  unfold State.fetchFurrow
  repeat' first
    | with_reducible apply foldl_sound_snd
    | with_reducible assumption
    | with_reducible apply foldl_sound
    | with_reducible apply State.setDisp_sound
    | with_reducible apply State.readTile_sound
    | with_reducible apply State.readMeta_sound
    | with_reducible refine Sound.snd_of (by with_reducible assumption) ?_
    | with_reducible refine Sound.thd_of (by with_reducible assumption) ?_
    | intro _
    | split
    | dsimp only
    | with_reducible refine Sound.of_mk ?_ rfl rfl rfl rfl rfl rfl rfl rfl rfl rfl rfl rfl rfl

theorem State.furrowArrival_sound {s : State} (n : Nat) (k : Nat) (x3 : Nat) (row : Nat) (clock : Nat) (m : Monitor) (hs : Sound p q s) :
    Sound p q (State.furrowArrival s n k x3 row clock m) := by
  unfold State.furrowArrival
  repeat' first
    | with_reducible apply foldl_sound_snd
    | with_reducible assumption
    | with_reducible apply foldl_sound
    | with_reducible apply State.advance_sound
    | with_reducible apply State.monitor_sound
    | with_reducible apply State.fetchFurrow_sound
    | with_reducible refine Sound.snd_of (by with_reducible assumption) ?_
    | with_reducible refine Sound.thd_of (by with_reducible assumption) ?_
    | intro _
    | split
    | dsimp only
    | with_reducible refine Sound.of_mk ?_ rfl rfl rfl rfl rfl rfl rfl rfl rfl rfl rfl rfl rfl

theorem State.shedForLine_sound (n : Nat) (y : Nat) (x2 : Nat) {x3 : State} (hx3 : Sound p q x3) :
    Sound p q (State.shedForLine n y x2 x3) := by
  induction x2 generalizing n y x3 with
  | zero =>
    unfold State.shedForLine
    repeat' first
      | with_reducible assumption
      | with_reducible apply foldl_sound
      | with_reducible apply State.shedUnit_sound
      | with_reducible refine Sound.snd_of (by with_reducible assumption) ?_
      | with_reducible refine Sound.thd_of (by with_reducible assumption) ?_
      | intro _
      | split
      | dsimp only
      | with_reducible refine Sound.of_mk ?_ rfl rfl rfl rfl rfl rfl rfl rfl rfl rfl rfl rfl rfl
  | succ _ ih =>
    unfold State.shedForLine
    repeat' first
      | with_reducible assumption
      | with_reducible apply ih
      | with_reducible apply foldl_sound
      | with_reducible apply State.shedUnit_sound
      | with_reducible refine Sound.snd_of (by with_reducible assumption) ?_
      | with_reducible refine Sound.thd_of (by with_reducible assumption) ?_
      | intro _
      | split
      | dsimp only
      | with_reducible refine Sound.of_mk ?_ rfl rfl rfl rfl rfl rfl rfl rfl rfl rfl rfl rfl rfl

theorem State.putLine_sound {s : State} (n : Nat) (w : State.LineWork) (hs : Sound p q s) :
    Sound p q (State.putLine s n w) := by
  unfold State.putLine
  repeat' first
    | with_reducible assumption
    | with_reducible apply foldl_sound
    | with_reducible apply State.event_sound
    | with_reducible apply State.setDisp_sound
    | with_reducible refine Sound.snd_of (by with_reducible assumption) ?_
    | with_reducible refine Sound.thd_of (by with_reducible assumption) ?_
    | intro _
    | split
    | dsimp only
    | with_reducible refine Sound.of_mk ?_ rfl rfl rfl rfl rfl rfl rfl rfl rfl rfl rfl rfl rfl

theorem State.composeLine_sound {s : State} (n : Nat) (hs : Sound p q s) :
    Sound p q (State.composeLine s n) := by
  unfold State.composeLine
  repeat' first
    | with_reducible assumption
    | with_reducible apply foldl_sound
    | with_reducible apply State.setDisp_sound
    | with_reducible apply State.shedForLine_sound
    | with_reducible apply State.putLine_sound
    | with_reducible refine Sound.snd_of (by with_reducible assumption) ?_
    | with_reducible refine Sound.thd_of (by with_reducible assumption) ?_
    | intro _
    | split
    | dsimp only
    | with_reducible refine Sound.of_mk ?_ rfl rfl rfl rfl rfl rfl rfl rfl rfl rfl rfl rfl rfl

theorem State.genlock_sound {s : State} (n : Nat) (e : Option Int) (hs : Sound p q s) :
    Sound p q (State.genlock s n e) := by
  unfold State.genlock
  repeat' first
    | with_reducible assumption
    | with_reducible apply foldl_sound
    | with_reducible apply State.setFld_sound
    | with_reducible apply State.event_sound
    | with_reducible apply State.setDisp_sound
    | with_reducible refine Sound.snd_of (by with_reducible assumption) ?_
    | with_reducible refine Sound.thd_of (by with_reducible assumption) ?_
    | intro _
    | split
    | dsimp only
    | with_reducible refine Sound.of_mk ?_ rfl rfl rfl rfl rfl rfl rfl rfl rfl rfl rfl rfl rfl

theorem State.takeFrameErr_sound {s : State} (n : Nat) (hs : Sound p q s) :
    Sound p q (State.takeFrameErr s n).2 := by
  unfold State.takeFrameErr
  repeat' first
    | with_reducible assumption
    | with_reducible apply foldl_sound
    | with_reducible refine Sound.snd_of (by with_reducible assumption) ?_
    | with_reducible refine Sound.thd_of (by with_reducible assumption) ?_
    | intro _
    | split
    | dsimp only
    | with_reducible refine Sound.of_mk ?_ rfl rfl rfl rfl rfl rfl rfl rfl rfl rfl rfl rfl rfl

theorem State.frameStart_sound {s : State} (n : Nat) (phase : Int) (hs : Sound p q s) :
    Sound p q (State.frameStart s n phase) := by
  unfold State.frameStart
  repeat' first
    | with_reducible assumption
    | with_reducible apply foldl_sound
    | with_reducible apply State.setFld_sound
    | with_reducible apply State.setDisp_sound
    | with_reducible apply State.genlock_sound
    | with_reducible apply State.takeFrameErr_sound
    | with_reducible refine Sound.snd_of (by with_reducible assumption) ?_
    | with_reducible refine Sound.thd_of (by with_reducible assumption) ?_
    | intro _
    | split
    | dsimp only
    | with_reducible refine Sound.of_mk ?_ rfl rfl rfl rfl rfl rfl rfl rfl rfl rfl rfl rfl rfl

theorem State.scanLineStart_sound {s : State} (n : Nat) (phase : Int) (m : Monitor) (hs : Sound p q s) :
    Sound p q (State.scanLineStart s n phase m) := by
  unfold State.scanLineStart
  repeat' first
    | with_reducible assumption
    | with_reducible apply foldl_sound
    | with_reducible apply State.setFld_sound
    | with_reducible apply State.setDisp_sound
    | with_reducible apply State.scanLine_sound
    | with_reducible apply State.sendFlit_sound
    | with_reducible apply State.monitor_sound
    | with_reducible apply State.frameStart_sound
    | with_reducible refine Sound.snd_of (by with_reducible assumption) ?_
    | with_reducible refine Sound.thd_of (by with_reducible assumption) ?_
    | intro _
    | split
    | dsimp only
    | with_reducible refine Sound.of_mk ?_ rfl rfl rfl rfl rfl rfl rfl rfl rfl rfl rfl rfl rfl

theorem State.counterEvent_sound {s : State} (n : Nat) (bitNo : Nat) (here : Timing → Disp → Bool) (hs : Sound p q s) :
    Sound p q (State.counterEvent s n bitNo here) := by
  unfold State.counterEvent
  repeat' first
    | with_reducible assumption
    | with_reducible apply foldl_sound
    | with_reducible apply State.event_sound
    | with_reducible refine Sound.snd_of (by with_reducible assumption) ?_
    | with_reducible refine Sound.thd_of (by with_reducible assumption) ?_
    | intro _
    | split
    | dsimp only
    | with_reducible refine Sound.of_mk ?_ rfl rfl rfl rfl rfl rfl rfl rfl rfl rfl rfl rfl rfl

theorem State.lineMatch_sound {s : State} (n : Nat) (i : Nat) (hs : Sound p q s) :
    Sound p q (State.lineMatch s n i) := by
  unfold State.lineMatch
  repeat' first
    | with_reducible assumption
    | with_reducible apply foldl_sound
    | with_reducible apply State.counterEvent_sound
    | with_reducible refine Sound.snd_of (by with_reducible assumption) ?_
    | with_reducible refine Sound.thd_of (by with_reducible assumption) ?_
    | intro _
    | split
    | dsimp only
    | with_reducible refine Sound.of_mk ?_ rfl rfl rfl rfl rfl rfl rfl rfl rfl rfl rfl rfl rfl

theorem State.vrrDecision_sound {s : State} (n : Nat) (hs : Sound p q s) :
    Sound p q (State.vrrDecision s n) := by
  unfold State.vrrDecision
  repeat' first
    | with_reducible assumption
    | with_reducible apply foldl_sound
    | with_reducible apply State.setFld_sound
    | with_reducible apply State.setDisp_sound
    | with_reducible apply State.adaptiveSdp_sound
    | with_reducible apply State.sendFlit_sound
    | with_reducible apply State.noteSkew_sound
    | with_reducible refine Sound.snd_of (by with_reducible assumption) ?_
    | with_reducible refine Sound.thd_of (by with_reducible assumption) ?_
    | intro _
    | split
    | dsimp only
    | with_reducible refine Sound.of_mk ?_ rfl rfl rfl rfl rfl rfl rfl rfl rfl rfl rfl rfl rfl

theorem State.genlockWrite_sound (a : RegAcc) {s : State} (hs : Sound p q s) :
    Sound p q (State.genlockWrite a s) := by
  unfold State.genlockWrite
  repeat' first
    | with_reducible assumption
    | with_reducible apply foldl_sound
    | with_reducible apply State.recAcc_sound
    | with_reducible apply State.denyReg_sound
    | with_reducible apply State.plainWrite_sound
    | with_reducible apply State.mirrorWrite_sound
    | with_reducible refine Sound.snd_of (by with_reducible assumption) ?_
    | with_reducible refine Sound.thd_of (by with_reducible assumption) ?_
    | intro _
    | split
    | dsimp only
    | with_reducible refine Sound.of_mk ?_ rfl rfl rfl rfl rfl rfl rfl rfl rfl rfl rfl rfl rfl

theorem State.dropRan_sound {s : State} (n : Nat) (hs : Sound p q s) :
    Sound p q (State.dropRan s n) := by
  unfold State.dropRan
  repeat' first
    | with_reducible assumption
    | with_reducible apply foldl_sound
    | with_reducible refine Sound.snd_of (by with_reducible assumption) ?_
    | with_reducible refine Sound.thd_of (by with_reducible assumption) ?_
    | intro _
    | split
    | dsimp only
    | with_reducible refine Sound.of_mk ?_ rfl rfl rfl rfl rfl rfl rfl rfl rfl rfl rfl rfl rfl

theorem State.beginStart_sound {s : State} (n : Nat) (hs : Sound p q s) :
    Sound p q (State.beginStart s n) := by
  unfold State.beginStart
  repeat' first
    | with_reducible assumption
    | with_reducible apply foldl_sound
    | with_reducible apply State.setRw_sound
    | with_reducible apply State.setFld_sound
    | with_reducible apply State.recErr_sound
    | with_reducible apply State.reportContained_sound
    | with_reducible apply State.setDisp_sound
    | with_reducible refine Sound.snd_of (by with_reducible assumption) ?_
    | with_reducible refine Sound.thd_of (by with_reducible assumption) ?_
    | intro _
    | split
    | dsimp only
    | with_reducible refine Sound.of_mk ?_ rfl rfl rfl rfl rfl rfl rfl rfl rfl rfl rfl rfl rfl

theorem State.scanStart_sound (a : RegAcc) (n : Nat) {s : State} (hs : Sound p q s) :
    Sound p q (State.scanStart a n s) := by
  unfold State.scanStart
  repeat' first
    | with_reducible assumption
    | with_reducible apply foldl_sound
    | with_reducible apply State.setFld_sound
    | with_reducible apply State.recAcc_sound
    | with_reducible apply State.mirrorWrite_sound
    | with_reducible apply State.setDisp_sound
    | with_reducible apply State.dropRan_sound
    | with_reducible apply State.beginStart_sound
    | with_reducible refine Sound.snd_of (by with_reducible assumption) ?_
    | with_reducible refine Sound.thd_of (by with_reducible assumption) ?_
    | intro _
    | split
    | dsimp only
    | with_reducible refine Sound.of_mk ?_ rfl rfl rfl rfl rfl rfl rfl rfl rfl rfl rfl rfl rfl

theorem State.counterStart_sound {s : State} (n : Nat) (hs : Sound p q s) :
    Sound p q (State.counterStart s n) := by
  unfold State.counterStart
  repeat' first
    | with_reducible assumption
    | with_reducible apply foldl_sound
    | with_reducible apply State.setFld_sound
    | with_reducible apply State.setDisp_sound
    | with_reducible apply State.loadSheets_sound
    | with_reducible apply State.latchPoint_sound
    | with_reducible refine Sound.snd_of (by with_reducible assumption) ?_
    | with_reducible refine Sound.thd_of (by with_reducible assumption) ?_
    | intro _
    | split
    | dsimp only
    | with_reducible refine Sound.of_mk ?_ rfl rfl rfl rfl rfl rfl rfl rfl rfl rfl rfl rfl rfl

theorem State.stopNow_sound {s : State} (n : Nat) (hs : Sound p q s) :
    Sound p q (State.stopNow s n) := by
  unfold State.stopNow
  repeat' first
    | with_reducible assumption
    | with_reducible apply foldl_sound
    | with_reducible apply State.setDisp_sound
    | with_reducible apply State.outputStopped_sound
    | with_reducible apply State.dropFollowers_sound
    | with_reducible apply State.videoStop_sound
    | with_reducible apply State.beginStart_sound
    | with_reducible refine Sound.snd_of (by with_reducible assumption) ?_
    | with_reducible refine Sound.thd_of (by with_reducible assumption) ?_
    | intro _
    | split
    | dsimp only
    | with_reducible refine Sound.of_mk ?_ rfl rfl rfl rfl rfl rfl rfl rfl rfl rfl rfl rfl rfl

theorem State.standStill_sound {s : State} (n : Nat) (hs : Sound p q s) :
    Sound p q (State.standStill s n) := by
  unfold State.standStill
  repeat' first
    | with_reducible assumption
    | with_reducible apply foldl_sound
    | with_reducible apply State.setDisp_sound
    | with_reducible apply State.dropRan_sound
    | with_reducible refine Sound.snd_of (by with_reducible assumption) ?_
    | with_reducible refine Sound.thd_of (by with_reducible assumption) ?_
    | intro _
    | split
    | dsimp only
    | with_reducible refine Sound.of_mk ?_ rfl rfl rfl rfl rfl rfl rfl rfl rfl rfl rfl rfl rfl

theorem State.scanStop_sound (a : RegAcc) (n : Nat) {s : State} (hs : Sound p q s) :
    Sound p q (State.scanStop a n s) := by
  unfold State.scanStop
  repeat' first
    | with_reducible assumption
    | with_reducible apply foldl_sound
    | with_reducible apply State.setFld_sound
    | with_reducible apply State.mirrorWrite_sound
    | with_reducible apply State.setDisp_sound
    | with_reducible apply State.stopNow_sound
    | with_reducible apply State.standStill_sound
    | with_reducible refine Sound.snd_of (by with_reducible assumption) ?_
    | with_reducible refine Sound.thd_of (by with_reducible assumption) ?_
    | intro _
    | split
    | dsimp only
    | with_reducible refine Sound.of_mk ?_ rfl rfl rfl rfl rfl rfl rfl rfl rfl rfl rfl rfl rfl

theorem State.scnEnable_sound (a : RegAcc) (on : Bool) {s : State} (hs : Sound p q s) :
    Sound p q (State.scnEnable a on s) := by
  unfold State.scnEnable
  repeat' first
    | with_reducible assumption
    | with_reducible apply foldl_sound
    | with_reducible apply State.scanStart_sound
    | with_reducible apply State.scanStop_sound
    | with_reducible refine Sound.snd_of (by with_reducible assumption) ?_
    | with_reducible refine Sound.thd_of (by with_reducible assumption) ?_
    | intro _
    | split
    | dsimp only
    | with_reducible refine Sound.of_mk ?_ rfl rfl rfl rfl rfl rfl rfl rfl rfl rfl rfl rfl rfl

theorem State.followOut_sound {s : State} (n : Nat) (hs : Sound p q s) :
    Sound p q (State.followOut s n) := by
  unfold State.followOut
  repeat' first
    | with_reducible assumption
    | with_reducible apply foldl_sound
    | with_reducible apply State.setRw_sound
    | with_reducible refine Sound.snd_of (by with_reducible assumption) ?_
    | with_reducible refine Sound.thd_of (by with_reducible assumption) ?_
    | intro _
    | split
    | dsimp only
    | with_reducible refine Sound.of_mk ?_ rfl rfl rfl rfl rfl rfl rfl rfl rfl rfl rfl rfl rfl

theorem State.scnReset_sound (a : RegAcc) {s : State} (hs : Sound p q s) :
    Sound p q (State.scnReset a s) := by
  unfold State.scnReset
  repeat' first
    | with_reducible assumption
    | with_reducible apply foldl_sound
    | with_reducible apply State.mirrorWrite_sound
    | with_reducible apply State.settleCredit_sound
    | with_reducible apply State.resetPage_sound
    | with_reducible apply State.stopNow_sound
    | with_reducible apply State.standStill_sound
    | with_reducible apply State.followOut_sound
    | with_reducible refine Sound.snd_of (by with_reducible assumption) ?_
    | with_reducible refine Sound.thd_of (by with_reducible assumption) ?_
    | intro _
    | split
    | dsimp only
    | with_reducible refine Sound.of_mk ?_ rfl rfl rfl rfl rfl rfl rfl rfl rfl rfl rfl rfl rfl

theorem State.tableEntry_sound {s t : State} {a : RegAcc} {k : Nat} (e : State.tableEntry s a = some (k, t)) (hs : Sound p q s) :
    Sound p q t := by
  unfold State.tableEntry at e
  split at e
  · dsimp only at e
    split at e
    · simp only [Option.some.injEq, Prod.mk.injEq] at e
      obtain ⟨-, rfl⟩ := e
      exact State.setFld_sound _ _ _ _ hs
    · split at e
      · simp only [Option.some.injEq, Prod.mk.injEq] at e
        obtain ⟨-, rfl⟩ := e
        split
        · exact State.setFld_sound _ _ _ _ (State.setFld_sound _ _ _ _ hs)
        · exact State.setFld_sound _ _ _ _ hs
      · simp at e
  · dsimp only at e
    split at e
    · simp only [Option.some.injEq, Prod.mk.injEq] at e
      obtain ⟨-, rfl⟩ := e
      exact State.setFld_sound _ _ _ _ hs
    · simp at e
  · simp at e

theorem State.tableWrite_sound (a : RegAcc) {s : State} (hs : Sound p q s) :
    Sound p q (State.tableWrite a s) := by
  unfold State.tableWrite
  repeat' first
    | with_reducible refine State.tableEntry_sound (by with_reducible assumption) ?_
    | with_reducible assumption
    | with_reducible apply foldl_sound
    | with_reducible apply State.setSw_sound
    | with_reducible apply State.recRefused_sound
    | with_reducible refine Sound.snd_of (by with_reducible assumption) ?_
    | with_reducible refine Sound.thd_of (by with_reducible assumption) ?_
    | intro _
    | split
    | dsimp only
    | with_reducible refine Sound.of_mk ?_ rfl rfl rfl rfl rfl rfl rfl rfl rfl rfl rfl rfl rfl

theorem State.tableRead_sound (a : RegAcc) {s : State} (hs : Sound p q s) :
    Sound p q (State.tableRead a s) := by
  unfold State.tableRead
  repeat' first
    | with_reducible refine State.tableEntry_sound (by with_reducible assumption) ?_
    | with_reducible assumption
    | with_reducible apply foldl_sound
    | with_reducible apply State.answerRead_sound
    | with_reducible refine Sound.snd_of (by with_reducible assumption) ?_
    | with_reducible refine Sound.thd_of (by with_reducible assumption) ?_
    | intro _
    | split
    | dsimp only
    | with_reducible refine Sound.of_mk ?_ rfl rfl rfl rfl rfl rfl rfl rfl rfl rfl rfl rfl rfl

theorem State.tableAccess_sound (w : RegWr) (isRead : Bool) (here : RegAcc → Bool) {s : State} (hs : Sound p q s) :
    Sound p q (State.tableAccess w isRead here s) := by
  unfold State.tableAccess
  repeat' first
    | with_reducible assumption
    | with_reducible apply foldl_sound
    | with_reducible apply State.accessAt_sound
    | with_reducible apply State.accessRead_sound
    | with_reducible apply State.tableWrite_sound
    | with_reducible apply State.tableRead_sound
    | with_reducible refine Sound.snd_of (by with_reducible assumption) ?_
    | with_reducible refine Sound.thd_of (by with_reducible assumption) ?_
    | intro _
    | split
    | dsimp only
    | with_reducible refine Sound.of_mk ?_ rfl rfl rfl rfl rfl rfl rfl rfl rfl rfl rfl rfl rfl

theorem State.lutAddrWrite_sound (a : RegAcc) {s : State} (hs : Sound p q s) :
    Sound p q (State.lutAddrWrite a s) := by
  unfold State.lutAddrWrite
  repeat' first
    | with_reducible assumption
    | with_reducible apply foldl_sound
    | with_reducible apply State.refuse_sound
    | with_reducible apply State.plainWrite_sound
    | with_reducible apply State.mirrorWrite_sound
    | with_reducible refine Sound.snd_of (by with_reducible assumption) ?_
    | with_reducible refine Sound.thd_of (by with_reducible assumption) ?_
    | intro _
    | split
    | dsimp only
    | with_reducible refine Sound.of_mk ?_ rfl rfl rfl rfl rfl rfl rfl rfl rfl rfl rfl rfl rfl

end Sys2Proof.Machine
end

