-- ==== Sys2Proof/Laws/SoundCheck.lean ====
section
/-! SUPPORT. Every operation of Machine/Check.lean keeps the invariant of Safety.lean. -/

namespace Sys2Proof.Machine

set_option Elab.async false
set_option linter.all false

variable {p : Part} {q : List Instr}

theorem State.setCvu_sound {s : State} (n : Nat) (e : CvuEngine) (hs : Sound p q s) :
    Sound p q (State.setCvu s n e) := by
  unfold State.setCvu
  repeat' first
    | with_reducible assumption
    | with_reducible apply foldl_sound
    | with_reducible refine Sound.snd_of (by with_reducible assumption) ?_
    | with_reducible refine Sound.thd_of (by with_reducible assumption) ?_
    | intro _
    | split
    | dsimp only
    | with_reducible refine Sound.of_mk ?_ rfl rfl rfl rfl rfl rfl rfl rfl rfl rfl rfl rfl rfl

theorem State.cvuStat_sound {s : State} (n : Nat) (hs : Sound p q s) :
    Sound p q (State.cvuStat s n) := by
  unfold State.cvuStat
  repeat' first
    | with_reducible assumption
    | with_reducible apply foldl_sound
    | with_reducible apply State.setFld_sound
    | with_reducible refine Sound.snd_of (by with_reducible assumption) ?_
    | with_reducible refine Sound.thd_of (by with_reducible assumption) ?_
    | intro _
    | split
    | dsimp only
    | with_reducible refine Sound.of_mk ?_ rfl rfl rfl rfl rfl rfl rfl rfl rfl rfl rfl rfl rfl

theorem State.putEntry_sound {s : State} (c : CvuCmd) (i : Nat) (v : Nat) (hs : Sound p q s) :
    Sound p q (State.putEntry s c i v).2 := by
  unfold State.putEntry
  repeat' first
    | with_reducible assumption
    | with_reducible apply foldl_sound
    | with_reducible apply State.pmcCount_sound
    | with_reducible apply State.pokeBytes_sound
    | with_reducible apply State.guardDram_sound
    | with_reducible apply State.mirrorWords_sound
    | with_reducible refine Sound.snd_of (by with_reducible assumption) ?_
    | with_reducible refine Sound.thd_of (by with_reducible assumption) ?_
    | intro _
    | split
    | dsimp only
    | with_reducible refine Sound.of_mk ?_ rfl rfl rfl rfl rfl rfl rfl rfl rfl rfl rfl rfl rfl

theorem State.scanWords_sound {s : State} (n : Nat) (c : CvuCmd) (x3 : Nat) (x4 : State.Scanning) (hs : Sound p q s) :
    Sound p q (State.scanWords s n c x3 x4).2.2 := by
  induction x3 generalizing s n c x4 with
  | zero =>
    unfold State.scanWords
    repeat' first
      | with_reducible assumption
      | with_reducible apply foldl_sound
      | with_reducible apply State.addCnt_sound
      | with_reducible apply State.event_sound
      | with_reducible apply State.readWordAs_sound
      | with_reducible apply State.putEntry_sound
      | with_reducible refine Sound.snd_of (by with_reducible assumption) ?_
      | with_reducible refine Sound.thd_of (by with_reducible assumption) ?_
      | intro _
      | split
      | dsimp only
      | with_reducible refine Sound.of_mk ?_ rfl rfl rfl rfl rfl rfl rfl rfl rfl rfl rfl rfl rfl
  | succ _ ih =>
    unfold State.scanWords
    repeat' first
      | with_reducible assumption
      | with_reducible apply ih
      | with_reducible apply foldl_sound
      | with_reducible apply State.addCnt_sound
      | with_reducible apply State.event_sound
      | with_reducible apply State.readWordAs_sound
      | with_reducible apply State.putEntry_sound
      | with_reducible refine Sound.snd_of (by with_reducible assumption) ?_
      | with_reducible refine Sound.thd_of (by with_reducible assumption) ?_
      | intro _
      | split
      | dsimp only
      | with_reducible refine Sound.of_mk ?_ rfl rfl rfl rfl rfl rfl rfl rfl rfl rfl rfl rfl rfl

theorem State.scanUnfence_sound {s : State} (c : CvuCmd) (hs : Sound p q s) :
    Sound p q (State.scanUnfence s c) := by
  unfold State.scanUnfence
  repeat' first
    | with_reducible assumption
    | with_reducible apply foldl_sound
    | with_reducible apply State.unfence_sound
    | with_reducible refine Sound.snd_of (by with_reducible assumption) ?_
    | with_reducible refine Sound.thd_of (by with_reducible assumption) ?_
    | intro _
    | split
    | dsimp only
    | with_reducible refine Sound.of_mk ?_ rfl rfl rfl rfl rfl rfl rfl rfl rfl rfl rfl rfl rfl

theorem State.scanDone_sound {s : State} (n : Nat) (slot : Nat) (hs : Sound p q s) :
    Sound p q (State.scanDone s n slot) := by
  unfold State.scanDone
  repeat' first
    | with_reducible assumption
    | with_reducible apply foldl_sound
    | with_reducible apply State.addFld_sound
    | with_reducible apply State.complete_sound
    | with_reducible apply State.setCvu_sound
    | with_reducible apply State.cvuStat_sound
    | with_reducible apply State.scanWords_sound
    | with_reducible apply State.scanUnfence_sound
    | with_reducible refine Sound.snd_of (by with_reducible assumption) ?_
    | with_reducible refine Sound.thd_of (by with_reducible assumption) ?_
    | intro _
    | split
    | dsimp only
    | with_reducible refine Sound.of_mk ?_ rfl rfl rfl rfl rfl rfl rfl rfl rfl rfl rfl rfl rfl

theorem State.scanStartCmd_sound {s : State} (n : Nat) (slot : Nat) (hs : Sound p q s) :
    Sound p q (State.scanStartCmd s n slot) := by
  unfold State.scanStartCmd
  repeat' first
    | with_reducible assumption
    | with_reducible apply foldl_sound
    | with_reducible apply State.pickFn_sound
    | with_reducible apply State.served_sound
    | with_reducible apply State.setCvu_sound
    | with_reducible apply State.cvuStat_sound
    | with_reducible refine Sound.snd_of (by with_reducible assumption) ?_
    | with_reducible refine Sound.thd_of (by with_reducible assumption) ?_
    | intro _
    | split
    | dsimp only
    | with_reducible refine Sound.of_mk ?_ rfl rfl rfl rfl rfl rfl rfl rfl rfl rfl rfl rfl rfl

theorem State.cvuSquash_sound {s : State} (n : Nat) (which : CvuCmd → Bool) (abort : Bool) (hs : Sound p q s) :
    Sound p q (State.cvuSquash s n which abort) := by
  unfold State.cvuSquash
  repeat' first
    | with_reducible assumption
    | with_reducible apply foldl_sound
    | with_reducible apply State.event_sound
    | with_reducible apply State.complete_sound
    | with_reducible apply State.setCvu_sound
    | with_reducible apply State.cvuStat_sound
    | with_reducible apply State.scanUnfence_sound
    | with_reducible refine Sound.snd_of (by with_reducible assumption) ?_
    | with_reducible refine Sound.thd_of (by with_reducible assumption) ?_
    | intro _
    | split
    | dsimp only
    | with_reducible refine Sound.of_mk ?_ rfl rfl rfl rfl rfl rfl rfl rfl rfl rfl rfl rfl rfl

theorem State.scanFence_sound {s : State} (c : CvuCmd) (hs : Sound p q s) :
    Sound p q (State.scanFence s c) := by
  unfold State.scanFence
  repeat' first
    | with_reducible assumption
    | with_reducible apply foldl_sound
    | with_reducible apply State.fence_sound
    | with_reducible refine Sound.snd_of (by with_reducible assumption) ?_
    | with_reducible refine Sound.thd_of (by with_reducible assumption) ?_
    | intro _
    | split
    | dsimp only
    | with_reducible refine Sound.of_mk ?_ rfl rfl rfl rfl rfl rfl rfl rfl rfl rfl rfl rfl rfl

theorem State.carryScan_sound (j : Job) {s : State} (hs : Sound p q s) :
    Sound p q (State.carryScan j s) := by
  unfold State.carryScan
  repeat' first
    | with_reducible assumption
    | with_reducible apply foldl_sound
    | with_reducible apply State.complete_sound
    | with_reducible apply State.setCvu_sound
    | with_reducible apply State.cvuStat_sound
    | with_reducible apply State.scanFence_sound
    | with_reducible refine Sound.snd_of (by with_reducible assumption) ?_
    | with_reducible refine Sound.thd_of (by with_reducible assumption) ?_
    | intro _
    | split
    | dsimp only
    | with_reducible refine Sound.of_mk ?_ rfl rfl rfl rfl rfl rfl rfl rfl rfl rfl rfl rfl rfl

theorem State.cvuCtrlWrite_sound (a : RegAcc) {s : State} (hs : Sound p q s) :
    Sound p q (State.cvuCtrlWrite a s) := by
  unfold State.cvuCtrlWrite
  repeat' first
    | with_reducible assumption
    | with_reducible apply foldl_sound
    | with_reducible apply State.recAcc_sound
    | with_reducible apply State.plainWrite_sound
    | with_reducible refine Sound.snd_of (by with_reducible assumption) ?_
    | with_reducible refine Sound.thd_of (by with_reducible assumption) ?_
    | intro _
    | split
    | dsimp only
    | with_reducible refine Sound.of_mk ?_ rfl rfl rfl rfl rfl rfl rfl rfl rfl rfl rfl rfl rfl

theorem State.regionFinal_sound {s : State} (n j : Nat) (hs : Sound p q s) :
    Sound p q (State.regionFinal s n j) := by
  unfold State.regionFinal
  extract_lets d v f y h seq ws val compare same result s1 s2 old limit s3 s4 s5 done acted dd s6
  have h2 : Sound p q s2 := State.setFld_sound _ _ _ _ (State.setFld_sound _ _ _ _ (State.setFld_sound _ _ _ _ (State.setDisp_sound _ _ hs)))
  have h3 : Sound p q s3 := State.satFld_sound _ _ _ _ (State.satFld_sound _ _ _ _ h2)
  have h4 : Sound p q s4 := by
    show Sound p q (if old = 0 then _ else _)
    split
    · exact State.setFld_sound _ _ _ _ h3
    · exact h3
  have h5 : Sound p q s5 := State.recErr_sound _ _ _ (State.event_sound _ _ (State.chkEvent_sound _ _ _ h4))
  have h6 : Sound p q s6 := State.chkEvent_sound _ _ _ (Sound.of_mk (h5) rfl rfl rfl rfl rfl rfl rfl rfl rfl rfl rfl rfl rfl)
  split
  · exact hs
  · split
    · exact h2
    · split
      · exact State.setFld_sound _ _ _ _ (State.satFld_sound _ _ _ _ h2)
      · split
        · split
          · exact h6
          · exact State.containOutput_sound _ _ _ _ _ h6
        · split
          · exact h5
          · exact Sound.of_mk (h5) rfl rfl rfl rfl rfl rfl rfl rfl rfl rfl rfl rfl rfl

end Sys2Proof.Machine
end

