-- ==== Sys2Proof/Laws/SoundDram.lean ====
section
/-! SUPPORT. Every operation of Machine/Dram.lean keeps the invariant of Safety.lean. -/

namespace Sys2Proof.Machine

set_option Elab.async false
set_option linter.all false

variable {p : Part} {q : List Instr}


theorem Sound.filterMem {s : State} {f : Host.Cell → Bool} (hs : Sound p q s) : Sound p q { s with mem := s.mem.filter f } :=
  hs.setMem (Sparse.wf_filter _ hs.mem)

theorem State.setDmc_sound {s : State} (n : Nat) (d : Dmc) (hs : Sound p q s) :
    Sound p q (State.setDmc s n d) := by
  unfold State.setDmc
  repeat' first
    | with_reducible assumption
    | with_reducible apply foldl_sound
    | with_reducible apply State.setFld_sound
    | with_reducible refine Sound.snd_of (by with_reducible assumption) ?_
    | with_reducible refine Sound.thd_of (by with_reducible assumption) ?_
    | intro _
    | split
    | dsimp only
    | with_reducible refine Sound.of_mk ?_ rfl rfl rfl rfl rfl rfl rfl rfl rfl rfl rfl rfl rfl

theorem State.guardRequest_sound {s : State} (who : Attr) (applet : Bool) (write : Bool) (a : Nat) (hs : Sound p q s) :
    Sound p q (State.guardRequest s who applet write a).2 := by
  unfold State.guardRequest
  repeat' first
    | with_reducible assumption
    | with_reducible apply foldl_sound
    | with_reducible apply State.deny_sound
    | with_reducible apply State.guardDram_sound
    | with_reducible refine Sound.snd_of (by with_reducible assumption) ?_
    | with_reducible refine Sound.thd_of (by with_reducible assumption) ?_
    | intro _
    | split
    | dsimp only
    | with_reducible refine Sound.of_mk ?_ rfl rfl rfl rfl rfl rfl rfl rfl rfl rfl rfl rfl rfl

theorem State.dramRequest_sound {s : State} (x1 : DramReq) (hs : Sound p q s) :
    Sound p q (State.dramRequest s x1) := by
  unfold State.dramRequest
  repeat' first
    | with_reducible assumption
    | with_reducible apply foldl_sound
    | with_reducible apply State.emit_sound
    | with_reducible apply State.setDmc_sound
    | with_reducible apply State.guardRequest_sound
    | with_reducible refine Sound.snd_of (by with_reducible assumption) ?_
    | with_reducible refine Sound.thd_of (by with_reducible assumption) ?_
    | intro _
    | split
    | dsimp only
    | with_reducible refine Sound.of_mk ?_ rfl rfl rfl rfl rfl rfl rfl rfl rfl rfl rfl rfl rfl

theorem State.writeMasked_sound {s : State} (who : Attr) (a : Nat) (w : Nat) (mask : Nat) (hs : Sound p q s) :
    Sound p q (State.writeMasked s who a w mask).2 := by
  unfold State.writeMasked
  repeat' first
    | with_reducible assumption
    | with_reducible apply foldl_sound
    | with_reducible apply State.satFld_sound
    | with_reducible apply State.storeWord_sound
    | with_reducible apply State.noteCorrected_sound
    | with_reducible apply State.noteUncorrectable_sound
    | with_reducible refine Sound.snd_of (by with_reducible assumption) ?_
    | with_reducible refine Sound.thd_of (by with_reducible assumption) ?_
    | intro _
    | split
    | dsimp only
    | with_reducible refine Sound.of_mk ?_ rfl rfl rfl rfl rfl rfl rfl rfl rfl rfl rfl rfl rfl

theorem State.writeWords_sound {s : State} (who : Attr) (a : Nat) (x3 : List (Nat × Nat)) (hs : Sound p q s) :
    Sound p q (State.writeWords s who a x3).2 := by
  induction x3 generalizing s who a with
  | nil =>
    unfold State.writeWords
    repeat' first
      | with_reducible assumption
      | with_reducible apply foldl_sound
      | with_reducible apply State.pmcCount_sound
      | with_reducible apply State.writeMasked_sound
      | with_reducible refine Sound.snd_of (by with_reducible assumption) ?_
      | with_reducible refine Sound.thd_of (by with_reducible assumption) ?_
      | intro _
      | split
      | dsimp only
      | with_reducible refine Sound.of_mk ?_ rfl rfl rfl rfl rfl rfl rfl rfl rfl rfl rfl rfl rfl
  | cons _ _ ih =>
    unfold State.writeWords
    repeat' first
      | with_reducible assumption
      | with_reducible apply ih
      | with_reducible apply foldl_sound
      | with_reducible apply State.pmcCount_sound
      | with_reducible apply State.writeMasked_sound
      | with_reducible refine Sound.snd_of (by with_reducible assumption) ?_
      | with_reducible refine Sound.thd_of (by with_reducible assumption) ?_
      | intro _
      | split
      | dsimp only
      | with_reducible refine Sound.of_mk ?_ rfl rfl rfl rfl rfl rfl rfl rfl rfl rfl rfl rfl rfl

theorem State.readWords_sound {s : State} (who : Attr) (a : Nat) (x3 : Nat) (hs : Sound p q s) :
    Sound p q (State.readWords s who a x3).2 := by
  induction x3 generalizing s who a with
  | zero =>
    unfold State.readWords
    repeat' first
      | with_reducible assumption
      | with_reducible apply foldl_sound
      | with_reducible apply State.pmcCount_sound
      | with_reducible apply State.readWord_sound
      | with_reducible refine Sound.snd_of (by with_reducible assumption) ?_
      | with_reducible refine Sound.thd_of (by with_reducible assumption) ?_
      | intro _
      | split
      | dsimp only
      | with_reducible refine Sound.of_mk ?_ rfl rfl rfl rfl rfl rfl rfl rfl rfl rfl rfl rfl rfl
  | succ _ ih =>
    unfold State.readWords
    repeat' first
      | with_reducible assumption
      | with_reducible apply ih
      | with_reducible apply foldl_sound
      | with_reducible apply State.pmcCount_sound
      | with_reducible apply State.readWord_sound
      | with_reducible refine Sound.snd_of (by with_reducible assumption) ?_
      | with_reducible refine Sound.thd_of (by with_reducible assumption) ?_
      | intro _
      | split
      | dsimp only
      | with_reducible refine Sound.of_mk ?_ rfl rfl rfl rfl rfl rfl rfl rfl rfl rfl rfl rfl rfl

theorem State.refresh_sound {s : State} (n : Nat) (k : Nat) (hs : Sound p q s) :
    Sound p q (State.refresh s n k) := by
  unfold State.refresh
  repeat' first
    | with_reducible assumption
    | with_reducible apply foldl_sound
    | with_reducible apply State.addFld_sound
    | with_reducible refine Sound.snd_of (by with_reducible assumption) ?_
    | with_reducible refine Sound.thd_of (by with_reducible assumption) ?_
    | intro _
    | split
    | dsimp only
    | with_reducible refine Sound.of_mk ?_ rfl rfl rfl rfl rfl rfl rfl rfl rfl rfl rfl rfl rfl

theorem State.setDebt_sound {s : State} (n : Nat) (v : Nat) (hs : Sound p q s) :
    Sound p q (State.setDebt s n v) := by
  unfold State.setDebt
  repeat' first
    | with_reducible assumption
    | with_reducible apply foldl_sound
    | with_reducible apply State.setFld_sound
    | with_reducible refine Sound.snd_of (by with_reducible assumption) ?_
    | with_reducible refine Sound.thd_of (by with_reducible assumption) ?_
    | intro _
    | split
    | dsimp only
    | with_reducible refine Sound.of_mk ?_ rfl rfl rfl rfl rfl rfl rfl rfl rfl rfl rfl rfl rfl

theorem State.payDebt_sound {s : State} (n : Nat) (hs : Sound p q s) :
    Sound p q (State.payDebt s n) := by
  unfold State.payDebt
  repeat' first
    | with_reducible assumption
    | with_reducible apply foldl_sound
    | with_reducible apply State.refresh_sound
    | with_reducible apply State.setDebt_sound
    | with_reducible refine Sound.snd_of (by with_reducible assumption) ?_
    | with_reducible refine Sound.thd_of (by with_reducible assumption) ?_
    | intro _
    | split
    | dsimp only
    | with_reducible refine Sound.of_mk ?_ rfl rfl rfl rfl rfl rfl rfl rfl rfl rfl rfl rfl rfl

theorem State.countBursts_sound {s : State} (n : Nat) (x2 : DramItem) (f : Fld) (hs : Sound p q s) :
    Sound p q (State.countBursts s n x2 f) := by
  unfold State.countBursts
  repeat' first
    | with_reducible assumption
    | with_reducible apply foldl_sound
    | with_reducible apply State.addFld_sound
    | with_reducible refine Sound.snd_of (by with_reducible assumption) ?_
    | with_reducible refine Sound.thd_of (by with_reducible assumption) ?_
    | intro _
    | split
    | dsimp only
    | with_reducible refine Sound.of_mk ?_ rfl rfl rfl rfl rfl rfl rfl rfl rfl rfl rfl rfl rfl

theorem State.noteLatency_sound {s : State} (n : Nat) (x2 : DramItem) (hs : Sound p q s) :
    Sound p q (State.noteLatency s n x2) := by
  unfold State.noteLatency
  repeat' first
    | with_reducible assumption
    | with_reducible apply foldl_sound
    | with_reducible apply State.setRw_sound
    | with_reducible apply State.event_sound
    | with_reducible refine Sound.snd_of (by with_reducible assumption) ?_
    | with_reducible refine Sound.thd_of (by with_reducible assumption) ?_
    | intro _
    | split
    | dsimp only
    | with_reducible refine Sound.of_mk ?_ rfl rfl rfl rfl rfl rfl rfl rfl rfl rfl rfl rfl rfl

theorem State.dramComplete_sound {s : State} (n : Nat) (hs : Sound p q s) :
    Sound p q (State.dramComplete s n) := by
  unfold State.dramComplete
  repeat' first
    | with_reducible assumption
    | with_reducible apply foldl_sound
    | with_reducible apply State.emit_sound
    | with_reducible apply State.setDmc_sound
    | with_reducible apply State.writeWords_sound
    | with_reducible apply State.readWords_sound
    | with_reducible apply State.payDebt_sound
    | with_reducible apply State.countBursts_sound
    | with_reducible apply State.noteLatency_sound
    | with_reducible refine Sound.snd_of (by with_reducible assumption) ?_
    | with_reducible refine Sound.thd_of (by with_reducible assumption) ?_
    | intro _
    | split
    | dsimp only
    | with_reducible refine Sound.of_mk ?_ rfl rfl rfl rfl rfl rfl rfl rfl rfl rfl rfl rfl rfl

theorem State.forced_sound {s : State} (n : Nat) (k : Nat) (hs : Sound p q s) :
    Sound p q (State.forced s n k) := by
  unfold State.forced
  repeat' first
    | with_reducible assumption
    | with_reducible apply foldl_sound
    | with_reducible apply State.addFld_sound
    | with_reducible apply State.event_sound
    | with_reducible apply State.refresh_sound
    | with_reducible refine Sound.snd_of (by with_reducible assumption) ?_
    | with_reducible refine Sound.thd_of (by with_reducible assumption) ?_
    | intro _
    | split
    | dsimp only
    | with_reducible refine Sound.of_mk ?_ rfl rfl rfl rfl rfl rfl rfl rfl rfl rfl rfl rfl rfl

theorem State.refreshDue_sound {s : State} (n : Nat) (hs : Sound p q s) :
    Sound p q (State.refreshDue s n) := by
  unfold State.refreshDue
  repeat' first
    | with_reducible assumption
    | with_reducible apply foldl_sound
    | with_reducible apply State.refresh_sound
    | with_reducible apply State.setDebt_sound
    | with_reducible apply State.payDebt_sound
    | with_reducible apply State.forced_sound
    | with_reducible refine Sound.snd_of (by with_reducible assumption) ?_
    | with_reducible refine Sound.thd_of (by with_reducible assumption) ?_
    | intro _
    | split
    | dsimp only
    | with_reducible refine Sound.of_mk ?_ rfl rfl rfl rfl rfl rfl rfl rfl rfl rfl rfl rfl rfl

theorem State.mr4Poll_sound {s : State} (n : Nat) (rate : Nat) (hot : Bool) (hs : Sound p q s) :
    Sound p q (State.mr4Poll s n rate hot) := by
  unfold State.mr4Poll
  repeat' first
    | with_reducible assumption
    | with_reducible apply foldl_sound
    | with_reducible apply State.event_sound
    | with_reducible apply State.reportContained_sound
    | with_reducible apply State.setDmc_sound
    | with_reducible apply State.setDebt_sound
    | with_reducible apply State.forced_sound
    | with_reducible refine Sound.snd_of (by with_reducible assumption) ?_
    | with_reducible refine Sound.thd_of (by with_reducible assumption) ?_
    | intro _
    | split
    | dsimp only
    | with_reducible refine Sound.of_mk ?_ rfl rfl rfl rfl rfl rfl rfl rfl rfl rfl rfl rfl rfl

theorem State.retrainStart_sound {s : State} (n : Nat) (cause : Nat) (hs : Sound p q s) :
    Sound p q (State.retrainStart s n cause) := by
  unfold State.retrainStart
  repeat' first
    | with_reducible assumption
    | with_reducible apply foldl_sound
    | with_reducible apply State.setDmc_sound
    | with_reducible refine Sound.snd_of (by with_reducible assumption) ?_
    | with_reducible refine Sound.thd_of (by with_reducible assumption) ?_
    | intro _
    | split
    | dsimp only
    | with_reducible refine Sound.of_mk ?_ rfl rfl rfl rfl rfl rfl rfl rfl rfl rfl rfl rfl rfl

theorem State.dramPowerDown_sound {s : State} (n : Nat) (hs : Sound p q s) :
    Sound p q (State.dramPowerDown s n) := by
  unfold State.dramPowerDown
  repeat' first
    | with_reducible assumption
    | with_reducible apply foldl_sound
    | with_reducible apply State.setDmc_sound
    | with_reducible refine Sound.snd_of (by with_reducible assumption) ?_
    | with_reducible refine Sound.thd_of (by with_reducible assumption) ?_
    | intro _
    | split
    | dsimp only
    | with_reducible refine Sound.of_mk ?_ rfl rfl rfl rfl rfl rfl rfl rfl rfl rfl rfl rfl rfl

theorem State.portWrite_sound (a : RegAcc) {s : State} (run : Nat → Nat → State → State) (hs : Sound p q s) (hrun : ∀ (y0 : Nat) (y1 : Nat) (y2 : State), Sound p q y2 → Sound p q (run y0 y1 y2)) :
    Sound p q (State.portWrite a s run) := by
  unfold State.portWrite
  repeat' first
    | with_reducible assumption
    | with_reducible apply foldl_sound
    | with_reducible apply hrun
    | with_reducible apply State.recRefused_sound
    | with_reducible apply State.refuse_sound
    | with_reducible refine Sound.snd_of (by with_reducible assumption) ?_
    | with_reducible refine Sound.thd_of (by with_reducible assumption) ?_
    | intro _
    | split
    | dsimp only
    | with_reducible refine Sound.of_mk ?_ rfl rfl rfl rfl rfl rfl rfl rfl rfl rfl rfl rfl rfl

theorem State.setTarget_sound {s : State} (n : Nat) (x2 : Nat) (v : Nat) (hs : Sound p q s) :
    Sound p q (State.setTarget s n x2 v) := by
  unfold State.setTarget
  repeat' first
    | with_reducible assumption
    | with_reducible apply foldl_sound
    | with_reducible apply State.setRw_sound
    | with_reducible apply State.setDmc_sound
    | with_reducible apply State.payDebt_sound
    | with_reducible refine Sound.snd_of (by with_reducible assumption) ?_
    | with_reducible refine Sound.thd_of (by with_reducible assumption) ?_
    | intro _
    | split
    | dsimp only
    | with_reducible refine Sound.of_mk ?_ rfl rfl rfl rfl rfl rfl rfl rfl rfl rfl rfl rfl rfl

theorem State.portTargetWrite_sound (a : RegAcc) {s : State} (hs : Sound p q s) :
    Sound p q (State.portTargetWrite a s) := by
  unfold State.portTargetWrite
  repeat' first
    | with_reducible assumption
    | with_reducible apply foldl_sound
    | with_reducible apply State.portWrite_sound
    | with_reducible apply State.setTarget_sound
    | with_reducible refine Sound.snd_of (by with_reducible assumption) ?_
    | with_reducible refine Sound.thd_of (by with_reducible assumption) ?_
    | intro _
    | split
    | dsimp only
    | with_reducible refine Sound.of_mk ?_ rfl rfl rfl rfl rfl rfl rfl rfl rfl rfl rfl rfl rfl

theorem State.maxlatClear_sound (a : RegAcc) {s : State} (hs : Sound p q s) :
    Sound p q (State.maxlatClear a s) := by
  unfold State.maxlatClear
  repeat' first
    | with_reducible assumption
    | with_reducible apply foldl_sound
    | with_reducible apply State.setRw_sound
    | with_reducible apply State.portWrite_sound
    | with_reducible refine Sound.snd_of (by with_reducible assumption) ?_
    | with_reducible refine Sound.thd_of (by with_reducible assumption) ?_
    | intro _
    | split
    | dsimp only
    | with_reducible refine Sound.of_mk ?_ rfl rfl rfl rfl rfl rfl rfl rfl rfl rfl rfl rfl rfl

theorem State.debtMaxClear_sound (a : RegAcc) {s : State} (hs : Sound p q s) :
    Sound p q (State.debtMaxClear a s) := by
  unfold State.debtMaxClear
  repeat' first
    | with_reducible assumption
    | with_reducible apply foldl_sound
    | with_reducible apply State.setFld_sound
    | with_reducible apply State.recRefused_sound
    | with_reducible refine Sound.snd_of (by with_reducible assumption) ?_
    | with_reducible refine Sound.thd_of (by with_reducible assumption) ?_
    | intro _
    | split
    | dsimp only
    | with_reducible refine Sound.of_mk ?_ rfl rfl rfl rfl rfl rfl rfl rfl rfl rfl rfl rfl rfl

theorem State.trainCtrlWrite_sound (a : RegAcc) {s : State} (hs : Sound p q s) :
    Sound p q (State.trainCtrlWrite a s) := by
  unfold State.trainCtrlWrite
  repeat' first
    | with_reducible assumption
    | with_reducible apply foldl_sound
    | with_reducible apply State.plainWrite_sound
    | with_reducible apply State.setDmc_sound
    | with_reducible refine Sound.snd_of (by with_reducible assumption) ?_
    | with_reducible refine Sound.thd_of (by with_reducible assumption) ?_
    | intro _
    | split
    | dsimp only
    | with_reducible refine Sound.of_mk ?_ rfl rfl rfl rfl rfl rfl rfl rfl rfl rfl rfl rfl rfl

theorem State.dmcCfgWrite_sound (a : RegAcc) {s : State} (hs : Sound p q s) :
    Sound p q (State.dmcCfgWrite a s) := by
  unfold State.dmcCfgWrite
  repeat' first
    | with_reducible assumption
    | with_reducible apply foldl_sound
    | with_reducible apply State.refuse_sound
    | with_reducible apply State.plainWrite_sound
    | with_reducible refine Sound.snd_of (by with_reducible assumption) ?_
    | with_reducible refine Sound.thd_of (by with_reducible assumption) ?_
    | intro _
    | split
    | dsimp only
    | with_reducible refine Sound.of_mk ?_ rfl rfl rfl rfl rfl rfl rfl rfl rfl rfl rfl rfl rfl

theorem State.wdrainWrite_sound (a : RegAcc) {s : State} (hs : Sound p q s) :
    Sound p q (State.wdrainWrite a s) := by
  unfold State.wdrainWrite
  repeat' first
    | with_reducible assumption
    | with_reducible apply foldl_sound
    | with_reducible apply State.refuse_sound
    | with_reducible apply State.plainWrite_sound
    | with_reducible apply State.setDmc_sound
    | with_reducible apply State.payDebt_sound
    | with_reducible refine Sound.snd_of (by with_reducible assumption) ?_
    | with_reducible refine Sound.thd_of (by with_reducible assumption) ?_
    | intro _
    | split
    | dsimp only
    | with_reducible refine Sound.of_mk ?_ rfl rfl rfl rfl rfl rfl rfl rfl rfl rfl rfl rfl rfl

theorem State.refCtrlWrite_sound (a : RegAcc) {s : State} (hs : Sound p q s) :
    Sound p q (State.refCtrlWrite a s) := by
  unfold State.refCtrlWrite
  repeat' first
    | with_reducible assumption
    | with_reducible apply foldl_sound
    | with_reducible apply State.refuse_sound
    | with_reducible apply State.plainWrite_sound
    | with_reducible refine Sound.snd_of (by with_reducible assumption) ?_
    | with_reducible refine Sound.thd_of (by with_reducible assumption) ?_
    | intro _
    | split
    | dsimp only
    | with_reducible refine Sound.of_mk ?_ rfl rfl rfl rfl rfl rfl rfl rfl rfl rfl rfl rfl rfl

theorem State.drainChannel_sound {s : State} (n : Nat) (hs : Sound p q s) :
    Sound p q (State.drainChannel s n) := by
  unfold State.drainChannel
  repeat' first
    | with_reducible assumption
    | with_reducible apply foldl_sound
    | with_reducible apply State.dramComplete_sound
    | with_reducible refine Sound.snd_of (by with_reducible assumption) ?_
    | with_reducible refine Sound.thd_of (by with_reducible assumption) ?_
    | intro _
    | split
    | dsimp only
    | with_reducible refine Sound.of_mk ?_ rfl rfl rfl rfl rfl rfl rfl rfl rfl rfl rfl rfl rfl

theorem State.selfRefreshEntry_sound {s : State} (hs : Sound p q s) :
    Sound p q (State.selfRefreshEntry s) := by
  unfold State.selfRefreshEntry
  repeat' first
    | with_reducible assumption
    | with_reducible apply foldl_sound
    | with_reducible apply State.setFld_sound
    | with_reducible apply State.setDmc_sound
    | with_reducible apply State.refresh_sound
    | with_reducible apply State.setDebt_sound
    | with_reducible apply State.drainChannel_sound
    | with_reducible refine Sound.snd_of (by with_reducible assumption) ?_
    | with_reducible refine Sound.thd_of (by with_reducible assumption) ?_
    | intro _
    | split
    | dsimp only
    | with_reducible refine Sound.of_mk ?_ rfl rfl rfl rfl rfl rfl rfl rfl rfl rfl rfl rfl rfl

theorem State.wakeTrain_sound {s : State} (n : Nat) (hs : Sound p q s) :
    Sound p q (State.wakeTrain s n) := by
  unfold State.wakeTrain
  repeat' first
    | with_reducible assumption
    | with_reducible apply foldl_sound
    | with_reducible apply State.setRw_sound
    | with_reducible apply State.addFld_sound
    | with_reducible apply State.event_sound
    | with_reducible apply State.setDmc_sound
    | with_reducible refine Sound.snd_of (by with_reducible assumption) ?_
    | with_reducible refine Sound.thd_of (by with_reducible assumption) ?_
    | intro _
    | split
    | dsimp only
    | with_reducible refine Sound.of_mk ?_ rfl rfl rfl rfl rfl rfl rfl rfl rfl rfl rfl rfl rfl

theorem State.selfRefreshExit_sound {s : State} (hs : Sound p q s) :
    Sound p q (State.selfRefreshExit s) := by
  unfold State.selfRefreshExit
  repeat' first
    | with_reducible refine Sound.filterMem ?_
    | with_reducible assumption
    | with_reducible apply foldl_sound
    | with_reducible apply State.clearWritten_sound
    | with_reducible apply State.wakeTrain_sound
    | with_reducible refine Sound.snd_of (by with_reducible assumption) ?_
    | with_reducible refine Sound.thd_of (by with_reducible assumption) ?_
    | intro _
    | split
    | dsimp only
    | with_reducible refine Sound.of_mk ?_ rfl rfl rfl rfl rfl rfl rfl rfl rfl rfl rfl rfl rfl

theorem State.regionsSet_sound {s : State} (hs : Sound p q s) :
    Sound p q (State.regionsSet s) := by
  unfold State.regionsSet
  repeat' first
    | with_reducible assumption
    | with_reducible apply foldl_sound
    | with_reducible apply State.setFld_sound
    | with_reducible apply State.recErr_sound
    | with_reducible refine Sound.snd_of (by with_reducible assumption) ?_
    | with_reducible refine Sound.thd_of (by with_reducible assumption) ?_
    | intro _
    | split
    | dsimp only
    | with_reducible refine Sound.of_mk ?_ rfl rfl rfl rfl rfl rfl rfl rfl rfl rfl rfl rfl rfl

theorem State.edacCtrlWrite_sound (a : RegAcc) {s : State} (hs : Sound p q s) :
    Sound p q (State.edacCtrlWrite a s) := by
  unfold State.edacCtrlWrite
  repeat' first
    | with_reducible assumption
    | with_reducible apply foldl_sound
    | with_reducible apply State.plainWrite_sound
    | with_reducible apply State.regionsSet_sound
    | with_reducible refine Sound.snd_of (by with_reducible assumption) ?_
    | with_reducible refine Sound.thd_of (by with_reducible assumption) ?_
    | intro _
    | split
    | dsimp only
    | with_reducible refine Sound.of_mk ?_ rfl rfl rfl rfl rfl rfl rfl rfl rfl rfl rfl rfl rfl

theorem State.regionWrite_sound (a : RegAcc) {s : State} (hs : Sound p q s) :
    Sound p q (State.regionWrite a s) := by
  unfold State.regionWrite
  repeat' first
    | with_reducible assumption
    | with_reducible apply foldl_sound
    | with_reducible apply State.refuse_sound
    | with_reducible apply State.plainWrite_sound
    | with_reducible refine Sound.snd_of (by with_reducible assumption) ?_
    | with_reducible refine Sound.thd_of (by with_reducible assumption) ?_
    | intro _
    | split
    | dsimp only
    | with_reducible refine Sound.of_mk ?_ rfl rfl rfl rfl rfl rfl rfl rfl rfl rfl rfl rfl rfl

theorem State.threshWrite_sound (a : RegAcc) {s : State} (hs : Sound p q s) :
    Sound p q (State.threshWrite a s) := by
  unfold State.threshWrite
  repeat' first
    | with_reducible assumption
    | with_reducible apply foldl_sound
    | with_reducible apply State.setFld_sound
    | with_reducible apply State.recRefused_sound
    | with_reducible apply State.plainWrite_sound
    | with_reducible refine Sound.snd_of (by with_reducible assumption) ?_
    | with_reducible refine Sound.thd_of (by with_reducible assumption) ?_
    | intro _
    | split
    | dsimp only
    | with_reducible refine Sound.of_mk ?_ rfl rfl rfl rfl rfl rfl rfl rfl rfl rfl rfl rfl rfl

theorem State.edacLogCtrl_sound (a : RegAcc) {s : State} (hs : Sound p q s) :
    Sound p q (State.edacLogCtrl a s) := by
  unfold State.edacLogCtrl
  repeat' first
    | with_reducible assumption
    | with_reducible apply foldl_sound
    | with_reducible apply State.setFld_sound
    | with_reducible apply State.recRefused_sound
    | with_reducible refine Sound.snd_of (by with_reducible assumption) ?_
    | with_reducible refine Sound.thd_of (by with_reducible assumption) ?_
    | intro _
    | split
    | dsimp only
    | with_reducible refine Sound.of_mk ?_ rfl rfl rfl rfl rfl rfl rfl rfl rfl rfl rfl rfl rfl

theorem State.retirePlotWrite_sound (a : RegAcc) {s : State} (hs : Sound p q s) :
    Sound p q (State.retirePlotWrite a s) := by
  unfold State.retirePlotWrite
  repeat' first
    | with_reducible assumption
    | with_reducible apply foldl_sound
    | with_reducible apply State.recAcc_sound
    | with_reducible apply State.recRefused_sound
    | with_reducible apply State.refuse_sound
    | with_reducible apply State.mirror_sound
    | with_reducible apply State.retirePlot_sound
    | with_reducible refine Sound.snd_of (by with_reducible assumption) ?_
    | with_reducible refine Sound.thd_of (by with_reducible assumption) ?_
    | intro _
    | split
    | dsimp only
    | with_reducible refine Sound.of_mk ?_ rfl rfl rfl rfl rfl rfl rfl rfl rfl rfl rfl rfl rfl

theorem State.retireBankWrite_sound (a : RegAcc) {s : State} (hs : Sound p q s) :
    Sound p q (State.retireBankWrite a s) := by
  unfold State.retireBankWrite
  repeat' first
    | with_reducible assumption
    | with_reducible apply foldl_sound
    | with_reducible apply State.setFld_sound
    | with_reducible apply State.recAcc_sound
    | with_reducible apply State.recRefused_sound
    | with_reducible apply State.refuse_sound
    | with_reducible apply State.mirror_sound
    | with_reducible apply State.retirePlot_sound
    | with_reducible refine Sound.snd_of (by with_reducible assumption) ?_
    | with_reducible refine Sound.thd_of (by with_reducible assumption) ?_
    | intro _
    | split
    | dsimp only
    | with_reducible refine Sound.of_mk ?_ rfl rfl rfl rfl rfl rfl rfl rfl rfl rfl rfl rfl rfl

theorem State.retireBankDone_sound {s : State} (hs : Sound p q s) :
    Sound p q (State.retireBankDone s) := by
  unfold State.retireBankDone
  repeat' first
    | with_reducible assumption
    | with_reducible apply foldl_sound
    | with_reducible apply State.setFld_sound
    | with_reducible apply State.event_sound
    | with_reducible refine Sound.snd_of (by with_reducible assumption) ?_
    | with_reducible refine Sound.thd_of (by with_reducible assumption) ?_
    | intro _
    | split
    | dsimp only
    | with_reducible refine Sound.of_mk ?_ rfl rfl rfl rfl rfl rfl rfl rfl rfl rfl rfl rfl rfl

theorem State.edacReset_sound {s : State} (hs : Sound p q s) :
    Sound p q (State.edacReset s) := by
  unfold State.edacReset
  repeat' first
    | with_reducible assumption
    | with_reducible apply foldl_sound
    | with_reducible apply State.resetPage_sound
    | with_reducible apply State.retireBankDone_sound
    | with_reducible refine Sound.snd_of (by with_reducible assumption) ?_
    | with_reducible refine Sound.thd_of (by with_reducible assumption) ?_
    | intro _
    | split
    | dsimp only
    | with_reducible refine Sound.of_mk ?_ rfl rfl rfl rfl rfl rfl rfl rfl rfl rfl rfl rfl rfl

end Sys2Proof.Machine
end

