-- ==== Sys2Proof/Laws/SoundPair.lean ====
section
/-! SUPPORT. Every operation of Machine/Pair.lean keeps the invariant of Safety.lean. -/

namespace Sys2Proof.Machine

set_option Elab.async false
set_option linter.all false

variable {p : Part} {q : List Instr}


/-- At a takeover the shadows take the active values. -/
theorem Sound.shadRegs {s : State} {d : Display} {x : Pair} (hs : Sound p q s) :
    Sound p q { s with shad := s.regs, display := d, pair := x } :=
  ⟨hs.part, hs.queue, hs.mem, hs.regs, hs.regs, hs.copyRegs, hs.copyShad, hs.flash, hs.time, hs.jobs, hs.tables⟩

theorem toBits_lt (w : Nat) (v : Int) : toBits w v < 2 ^ w := by
  unfold toBits
  have h : (0 : Int) < 2 ^ w := Int.pow_pos (by decide)
  have h1 := Int.emod_nonneg v (Int.ne_of_gt h)
  have h2 := Int.emod_lt_of_pos v h
  have h3 : ((2 ^ w : Nat) : Int) = 2 ^ w := by push_cast; rfl
  omega

/-- A step of DTIME. -/
theorem Sound.setDtime {s : State} (v : Int) (hs : Sound p q s) :
    Sound p q { s with time := { s.time with dtime := toBits 64 v } } :=
  ⟨hs.part, hs.queue, hs.mem, hs.regs, hs.shad, hs.copyRegs, hs.copyShad, hs.flash,
    ⟨toBits_lt 64 v, hs.time.frac, hs.time.ticks, hs.time.tickFrac⟩, hs.jobs, hs.tables⟩

theorem State.pairDisagree_sound {s : State} (reason : Nat) (out : Nat) (plot : Nat) (hs : Sound p q s) :
    Sound p q (State.pairDisagree s reason out plot) := by
  unfold State.pairDisagree
  repeat' first
    | with_reducible assumption
    | with_reducible apply foldl_sound
    | with_reducible apply State.event_sound
    | with_reducible apply State.recErr_sound
    | with_reducible refine Sound.snd_of (by with_reducible assumption) ?_
    | with_reducible refine Sound.thd_of (by with_reducible assumption) ?_
    | intro _
    | split
    | dsimp only
    | with_reducible refine Sound.of_mk ?_ rfl rfl rfl rfl rfl rfl rfl rfl rfl rfl rfl rfl rfl

theorem State.enterPair_sound {s : State} (st : PairState) (hs : Sound p q s) :
    Sound p q (State.enterPair s st) := by
  unfold State.enterPair
  repeat' first
    | with_reducible assumption
    | with_reducible apply foldl_sound
    | with_reducible apply State.event_sound
    | with_reducible refine Sound.snd_of (by with_reducible assumption) ?_
    | with_reducible refine Sound.thd_of (by with_reducible assumption) ?_
    | intro _
    | split
    | dsimp only
    | with_reducible refine Sound.of_mk ?_ rfl rfl rfl rfl rfl rfl rfl rfl rfl rfl rfl rfl rfl

theorem State.takeToken_sound {s : State} (hs : Sound p q s) :
    Sound p q (State.takeToken s) := by
  unfold State.takeToken
  repeat' first
    | with_reducible assumption
    | with_reducible apply foldl_sound
    | with_reducible apply State.satFld_sound
    | with_reducible refine Sound.snd_of (by with_reducible assumption) ?_
    | with_reducible refine Sound.thd_of (by with_reducible assumption) ?_
    | intro _
    | split
    | dsimp only
    | with_reducible refine Sound.of_mk ?_ rfl rfl rfl rfl rfl rfl rfl rfl rfl rfl rfl rfl rfl

theorem State.askJoin_sound {s : State} (hs : Sound p q s) :
    Sound p q (State.askJoin s) := by
  unfold State.askJoin
  repeat' first
    | with_reducible assumption
    | with_reducible apply foldl_sound
    | with_reducible apply State.sendFlit_sound
    | with_reducible refine Sound.snd_of (by with_reducible assumption) ?_
    | with_reducible refine Sound.thd_of (by with_reducible assumption) ?_
    | intro _
    | split
    | dsimp only
    | with_reducible refine Sound.of_mk ?_ rfl rfl rfl rfl rfl rfl rfl rfl rfl rfl rfl rfl rfl

theorem State.enterDetached_sound {s : State} (hs : Sound p q s) :
    Sound p q (State.enterDetached s) := by
  unfold State.enterDetached
  repeat' first
    | with_reducible assumption
    | with_reducible apply foldl_sound
    | with_reducible apply State.enterPair_sound
    | with_reducible apply State.askJoin_sound
    | with_reducible refine Sound.snd_of (by with_reducible assumption) ?_
    | with_reducible refine Sound.thd_of (by with_reducible assumption) ?_
    | intro _
    | split
    | dsimp only
    | with_reducible refine Sound.of_mk ?_ rfl rfl rfl rfl rfl rfl rfl rfl rfl rfl rfl rfl rfl

theorem State.followPartner_sound {s : State} (hs : Sound p q s) :
    Sound p q (State.followPartner s) := by
  unfold State.followPartner
  repeat' first
    | with_reducible assumption
    | with_reducible apply foldl_sound
    | with_reducible apply State.followOut_sound
    | with_reducible refine Sound.snd_of (by with_reducible assumption) ?_
    | with_reducible refine Sound.thd_of (by with_reducible assumption) ?_
    | intro _
    | split
    | dsimp only
    | with_reducible refine Sound.of_mk ?_ rfl rfl rfl rfl rfl rfl rfl rfl rfl rfl rfl rfl rfl

theorem State.unfollow_sound {s : State} (hs : Sound p q s) :
    Sound p q (State.unfollow s) := by
  unfold State.unfollow
  repeat' first
    | with_reducible assumption
    | with_reducible apply foldl_sound
    | with_reducible apply State.setRw_sound
    | with_reducible refine Sound.snd_of (by with_reducible assumption) ?_
    | with_reducible refine Sound.thd_of (by with_reducible assumption) ?_
    | intro _
    | split
    | dsimp only
    | with_reducible refine Sound.of_mk ?_ rfl rfl rfl rfl rfl rfl rfl rfl rfl rfl rfl rfl rfl

theorem State.startRole_sound {s : State} (snap : Bool) (hs : Sound p q s) :
    Sound p q (State.startRole s snap) := by
  unfold State.startRole
  repeat' first
    | with_reducible assumption
    | with_reducible apply foldl_sound
    | with_reducible apply State.setFld_sound
    | with_reducible apply State.touchActivate_sound
    | with_reducible apply State.hapSilence_sound
    | with_reducible apply State.audTakeover_sound
    | with_reducible apply State.unfollow_sound
    | with_reducible refine Sound.snd_of (by with_reducible assumption) ?_
    | with_reducible refine Sound.thd_of (by with_reducible assumption) ?_
    | intro _
    | split
    | dsimp only
    | with_reducible refine Sound.of_mk ?_ rfl rfl rfl rfl rfl rfl rfl rfl rfl rfl rfl rfl rfl

theorem State.stopStreams_sound {s : State} (hs : Sound p q s) :
    Sound p q (State.stopStreams s) := by
  unfold State.stopStreams
  repeat' first
    | with_reducible assumption
    | with_reducible apply foldl_sound
    | with_reducible apply State.setStream_sound
    | with_reducible apply State.releaseRegions_sound
    | with_reducible refine Sound.snd_of (by with_reducible assumption) ?_
    | with_reducible refine Sound.thd_of (by with_reducible assumption) ?_
    | intro _
    | split
    | dsimp only
    | with_reducible refine Sound.of_mk ?_ rfl rfl rfl rfl rfl rfl rfl rfl rfl rfl rfl rfl rfl

theorem State.keepFreeing_sound {s : State} (i : Nat) (hs : Sound p q s) :
    Sound p q (State.keepFreeing s i) := by
  unfold State.keepFreeing
  repeat' first
    | with_reducible assumption
    | with_reducible apply foldl_sound
    | with_reducible apply State.setBuf_sound
    | with_reducible refine Sound.snd_of (by with_reducible assumption) ?_
    | with_reducible refine Sound.thd_of (by with_reducible assumption) ?_
    | intro _
    | split
    | dsimp only
    | with_reducible refine Sound.of_mk ?_ rfl rfl rfl rfl rfl rfl rfl rfl rfl rfl rfl rfl rfl

theorem State.keepEnding_sound {s : State} (hs : Sound p q s) :
    Sound p q (State.keepEnding s) := by
  unfold State.keepEnding
  repeat' first
    | with_reducible assumption
    | with_reducible apply foldl_sound
    | with_reducible apply State.keepFreeing_sound
    | with_reducible refine Sound.snd_of (by with_reducible assumption) ?_
    | with_reducible refine Sound.thd_of (by with_reducible assumption) ?_
    | intro _
    | split
    | dsimp only
    | with_reducible refine Sound.of_mk ?_ rfl rfl rfl rfl rfl rfl rfl rfl rfl rfl rfl rfl rfl

theorem State.abandonJob_sound {s : State} (jid : Nat) (hs : Sound p q s) :
    Sound p q (State.abandonJob s jid) := by
  unfold State.abandonJob
  repeat' first
    | with_reducible assumption
    | with_reducible apply foldl_sound
    | with_reducible apply State.dropJob_sound
    | with_reducible apply State.complete_sound
    | with_reducible refine Sound.snd_of (by with_reducible assumption) ?_
    | with_reducible refine Sound.thd_of (by with_reducible assumption) ?_
    | intro _
    | split
    | dsimp only
    | with_reducible refine Sound.of_mk ?_ rfl rfl rfl rfl rfl rfl rfl rfl rfl rfl rfl rfl rfl

theorem State.abandonOps_sound {s : State} (hs : Sound p q s) :
    Sound p q (State.abandonOps s) := by
  unfold State.abandonOps
  repeat' first
    | with_reducible refine Sound.of_tables ?_ (fun h => ⟨Sparse.sortedFrom_map (fun _ => rfl) h.chans, Sparse.sortedFrom_map (fun _ => rfl) h.bufs⟩) rfl rfl rfl rfl rfl rfl rfl rfl rfl rfl rfl
    | with_reducible assumption
    | with_reducible apply foldl_sound
    | with_reducible apply State.abandonJob_sound
    | with_reducible refine Sound.snd_of (by with_reducible assumption) ?_
    | with_reducible refine Sound.thd_of (by with_reducible assumption) ?_
    | intro _
    | split
    | dsimp only
    | with_reducible refine Sound.of_mk ?_ rfl rfl rfl rfl rfl rfl rfl rfl rfl rfl rfl rfl rfl

theorem State.sendDrop_sound {s : State} (c : Commit) (hs : Sound p q s) :
    Sound p q (State.sendDrop s c) := by
  unfold State.sendDrop
  repeat' first
    | with_reducible assumption
    | with_reducible apply foldl_sound
    | with_reducible apply State.sendFlit_sound
    | with_reducible refine Sound.snd_of (by with_reducible assumption) ?_
    | with_reducible refine Sound.thd_of (by with_reducible assumption) ?_
    | intro _
    | split
    | dsimp only
    | with_reducible refine Sound.of_mk ?_ rfl rfl rfl rfl rfl rfl rfl rfl rfl rfl rfl rfl rfl

theorem State.endGuestWork_sound {s : State} (hs : Sound p q s) :
    Sound p q (State.endGuestWork s) := by
  unfold State.endGuestWork
  repeat' first
    | with_reducible assumption
    | with_reducible apply foldl_sound
    | with_reducible apply State.abandonAll_sound
    | with_reducible apply State.itemEnded_sound
    | with_reducible apply State.ingSquash_sound
    | with_reducible apply State.cvuSquash_sound
    | with_reducible apply State.abandonOps_sound
    | with_reducible apply State.sendDrop_sound
    | with_reducible refine Sound.snd_of (by with_reducible assumption) ?_
    | with_reducible refine Sound.thd_of (by with_reducible assumption) ?_
    | intro _
    | split
    | dsimp only
    | with_reducible refine Sound.of_mk ?_ rfl rfl rfl rfl rfl rfl rfl rfl rfl rfl rfl rfl rfl

theorem State.leaveRole_sound {s : State} (st : PairState) (hs : Sound p q s) :
    Sound p q (State.leaveRole s st) := by
  unfold State.leaveRole
  repeat' first
    | with_reducible assumption
    | with_reducible apply foldl_sound
    | with_reducible apply State.dplLeave_sound
    | with_reducible apply State.touchLeave_sound
    | with_reducible apply State.hapSilence_sound
    | with_reducible apply State.enterPair_sound
    | with_reducible apply State.followPartner_sound
    | with_reducible apply State.stopStreams_sound
    | with_reducible apply State.keepEnding_sound
    | with_reducible apply State.endGuestWork_sound
    | with_reducible refine Sound.snd_of (by with_reducible assumption) ?_
    | with_reducible refine Sound.thd_of (by with_reducible assumption) ?_
    | intro _
    | split
    | dsimp only
    | with_reducible refine Sound.of_mk ?_ rfl rfl rfl rfl rfl rfl rfl rfl rfl rfl rfl rfl rfl

theorem State.releaseKept_sound {s : State} (hs : Sound p q s) :
    Sound p q (State.releaseKept s) := by
  unfold State.releaseKept
  repeat' first
    | with_reducible assumption
    | with_reducible apply foldl_sound
    | with_reducible apply State.chanDrained_sound
    | with_reducible apply State.unfence_sound
    | with_reducible refine Sound.snd_of (by with_reducible assumption) ?_
    | with_reducible refine Sound.thd_of (by with_reducible assumption) ?_
    | intro _
    | split
    | dsimp only
    | with_reducible refine Sound.of_mk ?_ rfl rfl rfl rfl rfl rfl rfl rfl rfl rfl rfl rfl rfl

theorem State.takeover_sound {s : State} (stale : Bool) (hs : Sound p q s) :
    Sound p q (State.takeover s stale) := by
  unfold State.takeover
  repeat' first
    | with_reducible refine Sound.shadRegs ?_
    | with_reducible assumption
    | with_reducible apply foldl_sound
    | with_reducible apply State.setFld_sound
    | with_reducible apply State.releaseSlot_sound
    | with_reducible apply State.enterPair_sound
    | with_reducible apply State.takeToken_sound
    | with_reducible apply State.startRole_sound
    | with_reducible apply State.releaseKept_sound
    | with_reducible refine Sound.snd_of (by with_reducible assumption) ?_
    | with_reducible refine Sound.thd_of (by with_reducible assumption) ?_
    | intro _
    | split
    | dsimp only
    | with_reducible refine Sound.of_mk ?_ rfl rfl rfl rfl rfl rfl rfl rfl rfl rfl rfl rfl rfl

theorem State.takeoverCondition_sound {s : State} (hs : Sound p q s) :
    Sound p q (State.takeoverCondition s) := by
  unfold State.takeoverCondition
  repeat' first
    | with_reducible assumption
    | with_reducible apply foldl_sound
    | with_reducible apply State.takeover_sound
    | with_reducible refine Sound.snd_of (by with_reducible assumption) ?_
    | with_reducible refine Sound.thd_of (by with_reducible assumption) ?_
    | intro _
    | split
    | dsimp only
    | with_reducible refine Sound.of_mk ?_ rfl rfl rfl rfl rfl rfl rfl rfl rfl rfl rfl rfl rfl

theorem State.waitingStep_sound {s : State} (hs : Sound p q s) :
    Sound p q (State.waitingStep s) := by
  unfold State.waitingStep
  repeat' first
    | with_reducible assumption
    | with_reducible apply foldl_sound
    | with_reducible apply State.enterPair_sound
    | with_reducible apply State.takeToken_sound
    | with_reducible apply State.unfollow_sound
    | with_reducible refine Sound.snd_of (by with_reducible assumption) ?_
    | with_reducible refine Sound.thd_of (by with_reducible assumption) ?_
    | intro _
    | split
    | dsimp only
    | with_reducible refine Sound.of_mk ?_ rfl rfl rfl rfl rfl rfl rfl rfl rfl rfl rfl rfl rfl

theorem State.guyInEdge_sound {s : State} (asserted : Bool) (hs : Sound p q s) :
    Sound p q (State.guyInEdge s asserted) := by
  unfold State.guyInEdge
  repeat' first
    | with_reducible assumption
    | with_reducible apply foldl_sound
    | with_reducible apply State.waitingStep_sound
    | with_reducible refine Sound.snd_of (by with_reducible assumption) ?_
    | with_reducible refine Sound.thd_of (by with_reducible assumption) ?_
    | intro _
    | split
    | dsimp only
    | with_reducible refine Sound.of_mk ?_ rfl rfl rfl rfl rfl rfl rfl rfl rfl rfl rfl rfl rfl

theorem State.guyFilter_sound {s : State} (hs : Sound p q s) :
    Sound p q (State.guyFilter s) := by
  unfold State.guyFilter
  repeat' first
    | with_reducible assumption
    | with_reducible apply foldl_sound
    | with_reducible apply State.enterDetached_sound
    | with_reducible apply State.takeoverCondition_sound
    | with_reducible refine Sound.snd_of (by with_reducible assumption) ?_
    | with_reducible refine Sound.thd_of (by with_reducible assumption) ?_
    | intro _
    | split
    | dsimp only
    | with_reducible refine Sound.of_mk ?_ rfl rfl rfl rfl rfl rfl rfl rfl rfl rfl rfl rfl rfl

theorem State.guyCollision_sound {s : State} (hs : Sound p q s) :
    Sound p q (State.guyCollision s) := by
  unfold State.guyCollision
  repeat' first
    | with_reducible assumption
    | with_reducible apply foldl_sound
    | with_reducible apply State.pairDisagree_sound
    | with_reducible apply State.askJoin_sound
    | with_reducible apply State.leaveRole_sound
    | with_reducible refine Sound.snd_of (by with_reducible assumption) ?_
    | with_reducible refine Sound.thd_of (by with_reducible assumption) ?_
    | intro _
    | split
    | dsimp only
    | with_reducible refine Sound.of_mk ?_ rfl rfl rfl rfl rfl rfl rfl rfl rfl rfl rfl rfl rfl

theorem State.collisionTimeout_sound {s : State} (hs : Sound p q s) :
    Sound p q (State.collisionTimeout s) := by
  unfold State.collisionTimeout
  repeat' first
    | with_reducible assumption
    | with_reducible apply foldl_sound
    | with_reducible apply State.takeFree_sound
    | with_reducible apply State.pairDisagree_sound
    | with_reducible apply State.askJoin_sound
    | with_reducible apply State.leaveRole_sound
    | with_reducible refine Sound.snd_of (by with_reducible assumption) ?_
    | with_reducible refine Sound.thd_of (by with_reducible assumption) ?_
    | intro _
    | split
    | dsimp only
    | with_reducible refine Sound.of_mk ?_ rfl rfl rfl rfl rfl rfl rfl rfl rfl rfl rfl rfl rfl

theorem State.backoffEnd_sound {s : State} (hs : Sound p q s) :
    Sound p q (State.backoffEnd s) := by
  unfold State.backoffEnd
  repeat' first
    | with_reducible assumption
    | with_reducible apply foldl_sound
    | with_reducible apply State.takeoverCondition_sound
    | with_reducible refine Sound.snd_of (by with_reducible assumption) ?_
    | with_reducible refine Sound.thd_of (by with_reducible assumption) ?_
    | intro _
    | split
    | dsimp only
    | with_reducible refine Sound.of_mk ?_ rfl rfl rfl rfl rfl rfl rfl rfl rfl rfl rfl rfl rfl

theorem State.waitingTimeout_sound {s : State} (hs : Sound p q s) :
    Sound p q (State.waitingTimeout s) := by
  unfold State.waitingTimeout
  repeat' first
    | with_reducible assumption
    | with_reducible apply foldl_sound
    | with_reducible apply State.enterPair_sound
    | with_reducible apply State.takeToken_sound
    | with_reducible apply State.unfollow_sound
    | with_reducible refine Sound.snd_of (by with_reducible assumption) ?_
    | with_reducible refine Sound.thd_of (by with_reducible assumption) ?_
    | intro _
    | split
    | dsimp only
    | with_reducible refine Sound.of_mk ?_ rfl rfl rfl rfl rfl rfl rfl rfl rfl rfl rfl rfl rfl

theorem State.setGuyFault_sound {s : State} (hs : Sound p q s) :
    Sound p q (State.setGuyFault s) := by
  unfold State.setGuyFault
  repeat' first
    | with_reducible assumption
    | with_reducible apply foldl_sound
    | with_reducible apply State.event_sound
    | with_reducible apply State.reportContained_sound
    | with_reducible apply State.pairDisagree_sound
    | with_reducible refine Sound.snd_of (by with_reducible assumption) ?_
    | with_reducible refine Sound.thd_of (by with_reducible assumption) ?_
    | intro _
    | split
    | dsimp only
    | with_reducible refine Sound.of_mk ?_ rfl rfl rfl rfl rfl rfl rfl rfl rfl rfl rfl rfl rfl

theorem State.noteBeat_sound {s : State} (b : Beat) (slow : Bool) (hs : Sound p q s) :
    Sound p q (State.noteBeat s b slow) := by
  unfold State.noteBeat
  repeat' first
    | with_reducible assumption
    | with_reducible apply foldl_sound
    | with_reducible apply State.setFld_sound
    | with_reducible refine Sound.snd_of (by with_reducible assumption) ?_
    | with_reducible refine Sound.thd_of (by with_reducible assumption) ?_
    | intro _
    | split
    | dsimp only
    | with_reducible refine Sound.of_mk ?_ rfl rfl rfl rfl rfl rfl rfl rfl rfl rfl rfl rfl rfl

theorem State.checkGuy_sound {s : State} (b : Beat) (hs : Sound p q s) :
    Sound p q (State.checkGuy s b) := by
  unfold State.checkGuy
  repeat' first
    | with_reducible assumption
    | with_reducible apply foldl_sound
    | with_reducible apply State.enterDetached_sound
    | with_reducible apply State.setGuyFault_sound
    | with_reducible refine Sound.snd_of (by with_reducible assumption) ?_
    | with_reducible refine Sound.thd_of (by with_reducible assumption) ?_
    | intro _
    | split
    | dsimp only
    | with_reducible refine Sound.of_mk ?_ rfl rfl rfl rfl rfl rfl rfl rfl rfl rfl rfl rfl rfl

theorem State.linkComesUp_sound {s : State} (speed : Nat) (width : Nat) (x3 : FlitHdr) (b : Beat) (hs : Sound p q s) :
    Sound p q (State.linkComesUp s speed width x3 b) := by
  unfold State.linkComesUp
  repeat' first
    | with_reducible assumption
    | with_reducible apply foldl_sound
    | with_reducible apply State.setFld_sound
    | with_reducible apply State.event_sound
    | with_reducible apply State.sendFlit_sound
    | with_reducible apply State.accept_sound
    | with_reducible apply State.askJoin_sound
    | with_reducible apply State.noteBeat_sound
    | with_reducible apply State.checkGuy_sound
    | with_reducible refine Sound.snd_of (by with_reducible assumption) ?_
    | with_reducible refine Sound.thd_of (by with_reducible assumption) ?_
    | intro _
    | split
    | dsimp only
    | with_reducible refine Sound.of_mk ?_ rfl rfl rfl rfl rfl rfl rfl rfl rfl rfl rfl rfl rfl

theorem State.sendBeat_sound {s : State} (hs : Sound p q s) :
    Sound p q (State.sendBeat s) := by
  unfold State.sendBeat
  repeat' first
    | with_reducible assumption
    | with_reducible apply foldl_sound
    | with_reducible apply State.sendFlit_sound
    | with_reducible refine Sound.snd_of (by with_reducible assumption) ?_
    | with_reducible refine Sound.thd_of (by with_reducible assumption) ?_
    | intro _
    | split
    | dsimp only
    | with_reducible refine Sound.of_mk ?_ rfl rfl rfl rfl rfl rfl rfl rfl rfl rfl rfl rfl rfl

theorem State.heartbeat_sound {s : State} (x1 : FlitHdr) (b : Beat) (slow : Bool) (hs : Sound p q s) :
    Sound p q (State.heartbeat s x1 b slow) := by
  unfold State.heartbeat
  repeat' first
    | with_reducible assumption
    | with_reducible apply foldl_sound
    | with_reducible apply State.accept_sound
    | with_reducible apply State.noteBeat_sound
    | with_reducible apply State.checkGuy_sound
    | with_reducible refine Sound.snd_of (by with_reducible assumption) ?_
    | with_reducible refine Sound.thd_of (by with_reducible assumption) ?_
    | intro _
    | split
    | dsimp only
    | with_reducible refine Sound.of_mk ?_ rfl rfl rfl rfl rfl rfl rfl rfl rfl rfl rfl rfl rfl

theorem State.goSolo_sound {s : State} (hs : Sound p q s) :
    Sound p q (State.goSolo s) := by
  unfold State.goSolo
  repeat' first
    | with_reducible assumption
    | with_reducible apply foldl_sound
    | with_reducible apply State.applyLeadless_sound
    | with_reducible apply State.wakeReleases_sound
    | with_reducible apply State.abandonAll_sound
    | with_reducible apply State.enterPair_sound
    | with_reducible refine Sound.snd_of (by with_reducible assumption) ?_
    | with_reducible refine Sound.thd_of (by with_reducible assumption) ?_
    | intro _
    | split
    | dsimp only
    | with_reducible refine Sound.of_mk ?_ rfl rfl rfl rfl rfl rfl rfl rfl rfl rfl rfl rfl rfl

theorem State.linkDown_sound {s : State} (hs : Sound p q s) :
    Sound p q (State.linkDown s) := by
  unfold State.linkDown
  repeat' first
    | with_reducible assumption
    | with_reducible apply foldl_sound
    | with_reducible apply State.event_sound
    | with_reducible apply State.dropLink_sound
    | with_reducible apply State.enterPair_sound
    | with_reducible apply State.takeoverCondition_sound
    | with_reducible apply State.goSolo_sound
    | with_reducible refine Sound.snd_of (by with_reducible assumption) ?_
    | with_reducible refine Sound.thd_of (by with_reducible assumption) ?_
    | intro _
    | split
    | dsimp only
    | with_reducible refine Sound.of_mk ?_ rfl rfl rfl rfl rfl rfl rfl rfl rfl rfl rfl rfl rfl

theorem State.replayTimeout_sound {s : State} (hs : Sound p q s) :
    Sound p q (State.replayTimeout s) := by
  unfold State.replayTimeout
  repeat' first
    | with_reducible assumption
    | with_reducible apply foldl_sound
    | with_reducible apply State.replayAll_sound
    | with_reducible refine Sound.snd_of (by with_reducible assumption) ?_
    | with_reducible refine Sound.thd_of (by with_reducible assumption) ?_
    | intro _
    | split
    | dsimp only
    | with_reducible refine Sound.of_mk ?_ rfl rfl rfl rfl rfl rfl rfl rfl rfl rfl rfl rfl rfl

theorem State.nullFlit_sound {s : State} (x1 : FlitHdr) (hs : Sound p q s) :
    Sound p q (State.nullFlit s x1) := by
  unfold State.nullFlit
  repeat' first
    | with_reducible assumption
    | with_reducible apply foldl_sound
    | with_reducible apply State.takeHeader_sound
    | with_reducible refine Sound.snd_of (by with_reducible assumption) ?_
    | with_reducible refine Sound.thd_of (by with_reducible assumption) ?_
    | intro _
    | split
    | dsimp only
    | with_reducible refine Sound.of_mk ?_ rfl rfl rfl rfl rfl rfl rfl rfl rfl rfl rfl rfl rfl

theorem State.startResync_sound {s : State} (hs : Sound p q s) :
    Sound p q (State.startResync s) := by
  unfold State.startResync
  repeat' first
    | with_reducible assumption
    | with_reducible apply foldl_sound
    | with_reducible refine Sound.snd_of (by with_reducible assumption) ?_
    | with_reducible refine Sound.thd_of (by with_reducible assumption) ?_
    | intro _
    | split
    | dsimp only
    | with_reducible refine Sound.of_mk ?_ rfl rfl rfl rfl rfl rfl rfl rfl rfl rfl rfl rfl rfl

theorem State.joinRequest_sound {s : State} (config : Nat) (hs : Sound p q s) :
    Sound p q (State.joinRequest s config) := by
  unfold State.joinRequest
  repeat' first
    | with_reducible assumption
    | with_reducible apply foldl_sound
    | with_reducible apply State.event_sound
    | with_reducible apply State.sendFlit_sound
    | with_reducible apply State.pairDisagree_sound
    | with_reducible apply State.enterPair_sound
    | with_reducible apply State.startResync_sound
    | with_reducible refine Sound.snd_of (by with_reducible assumption) ?_
    | with_reducible refine Sound.thd_of (by with_reducible assumption) ?_
    | intro _
    | split
    | dsimp only
    | with_reducible refine Sound.of_mk ?_ rfl rfl rfl rfl rfl rfl rfl rfl rfl rfl rfl rfl rfl

theorem State.joinAccept_sound {s : State} (hs : Sound p q s) :
    Sound p q (State.joinAccept s) := by
  unfold State.joinAccept
  repeat' first
    | with_reducible assumption
    | with_reducible apply foldl_sound
    | with_reducible apply State.enterPair_sound
    | with_reducible refine Sound.snd_of (by with_reducible assumption) ?_
    | with_reducible refine Sound.thd_of (by with_reducible assumption) ?_
    | intro _
    | split
    | dsimp only
    | with_reducible refine Sound.of_mk ?_ rfl rfl rfl rfl rfl rfl rfl rfl rfl rfl rfl rfl rfl

theorem State.joinRefused_sound {s : State} (hs : Sound p q s) :
    Sound p q (State.joinRefused s) := by
  unfold State.joinRefused
  repeat' first
    | with_reducible assumption
    | with_reducible apply foldl_sound
    | with_reducible apply State.enterPair_sound
    | with_reducible refine Sound.snd_of (by with_reducible assumption) ?_
    | with_reducible refine Sound.thd_of (by with_reducible assumption) ?_
    | intro _
    | split
    | dsimp only
    | with_reducible refine Sound.of_mk ?_ rfl rfl rfl rfl rfl rfl rfl rfl rfl rfl rfl rfl rfl

theorem State.syncDone_sound {s : State} (hs : Sound p q s) :
    Sound p q (State.syncDone s) := by
  unfold State.syncDone
  repeat' first
    | with_reducible assumption
    | with_reducible apply foldl_sound
    | with_reducible apply State.event_sound
    | with_reducible apply State.enterPair_sound
    | with_reducible refine Sound.snd_of (by with_reducible assumption) ?_
    | with_reducible refine Sound.thd_of (by with_reducible assumption) ?_
    | intro _
    | split
    | dsimp only
    | with_reducible refine Sound.of_mk ?_ rfl rfl rfl rfl rfl rfl rfl rfl rfl rfl rfl rfl rfl

theorem State.resyncSent_sound {s : State} (hs : Sound p q s) :
    Sound p q (State.resyncSent s) := by
  unfold State.resyncSent
  repeat' first
    | with_reducible assumption
    | with_reducible apply foldl_sound
    | with_reducible apply State.event_sound
    | with_reducible apply State.sendFlit_sound
    | with_reducible refine Sound.snd_of (by with_reducible assumption) ?_
    | with_reducible refine Sound.thd_of (by with_reducible assumption) ?_
    | intro _
    | split
    | dsimp only
    | with_reducible refine Sound.of_mk ?_ rfl rfl rfl rfl rfl rfl rfl rfl rfl rfl rfl rfl rfl

theorem State.resyncCause_sound {s : State} (hs : Sound p q s) :
    Sound p q (State.resyncCause s) := by
  unfold State.resyncCause
  repeat' first
    | with_reducible assumption
    | with_reducible apply foldl_sound
    | with_reducible apply State.enterPair_sound
    | with_reducible apply State.askJoin_sound
    | with_reducible refine Sound.snd_of (by with_reducible assumption) ?_
    | with_reducible refine Sound.thd_of (by with_reducible assumption) ?_
    | intro _
    | split
    | dsimp only
    | with_reducible refine Sound.of_mk ?_ rfl rfl rfl rfl rfl rfl rfl rfl rfl rfl rfl rfl rfl

theorem State.startHandover_sound {s : State} (hs : Sound p q s) :
    Sound p q (State.startHandover s) := by
  unfold State.startHandover
  repeat' first
    | with_reducible assumption
    | with_reducible apply foldl_sound
    | with_reducible refine Sound.snd_of (by with_reducible assumption) ?_
    | with_reducible refine Sound.thd_of (by with_reducible assumption) ?_
    | intro _
    | split
    | dsimp only
    | with_reducible refine Sound.of_mk ?_ rfl rfl rfl rfl rfl rfl rfl rfl rfl rfl rfl rfl rfl

theorem State.handoverWrite_sound (a : RegAcc) {s : State} (hs : Sound p q s) :
    Sound p q (State.handoverWrite a s) := by
  unfold State.handoverWrite
  repeat' first
    | with_reducible assumption
    | with_reducible apply foldl_sound
    | with_reducible apply State.recAcc_sound
    | with_reducible apply State.pairDisagree_sound
    | with_reducible apply State.startHandover_sound
    | with_reducible refine Sound.snd_of (by with_reducible assumption) ?_
    | with_reducible refine Sound.thd_of (by with_reducible assumption) ?_
    | intro _
    | split
    | dsimp only
    | with_reducible refine Sound.of_mk ?_ rfl rfl rfl rfl rfl rfl rfl rfl rfl rfl rfl rfl rfl

theorem State.handoverDrained_sound {s : State} (hs : Sound p q s) :
    Sound p q (State.handoverDrained s) := by
  unfold State.handoverDrained
  repeat' first
    | with_reducible assumption
    | with_reducible apply foldl_sound
    | with_reducible apply State.sendFlit_sound
    | with_reducible refine Sound.snd_of (by with_reducible assumption) ?_
    | with_reducible refine Sound.thd_of (by with_reducible assumption) ?_
    | intro _
    | split
    | dsimp only
    | with_reducible refine Sound.of_mk ?_ rfl rfl rfl rfl rfl rfl rfl rfl rfl rfl rfl rfl rfl

theorem State.keepToken_sound {s : State} (hs : Sound p q s) :
    Sound p q (State.keepToken s) := by
  unfold State.keepToken
  repeat' first
    | with_reducible assumption
    | with_reducible apply foldl_sound
    | with_reducible refine Sound.snd_of (by with_reducible assumption) ?_
    | with_reducible refine Sound.thd_of (by with_reducible assumption) ?_
    | intro _
    | split
    | dsimp only
    | with_reducible refine Sound.of_mk ?_ rfl rfl rfl rfl rfl rfl rfl rfl rfl rfl rfl rfl rfl

theorem State.handoverTimeout_sound {s : State} (hs : Sound p q s) :
    Sound p q (State.handoverTimeout s) := by
  unfold State.handoverTimeout
  repeat' first
    | with_reducible assumption
    | with_reducible apply foldl_sound
    | with_reducible apply State.recErr_sound
    | with_reducible apply State.keepToken_sound
    | with_reducible refine Sound.snd_of (by with_reducible assumption) ?_
    | with_reducible refine Sound.thd_of (by with_reducible assumption) ?_
    | intro _
    | split
    | dsimp only
    | with_reducible refine Sound.of_mk ?_ rfl rfl rfl rfl rfl rfl rfl rfl rfl rfl rfl rfl rfl

theorem State.answerOffer_sound {s : State} (hs : Sound p q s) :
    Sound p q (State.answerOffer s) := by
  unfold State.answerOffer
  repeat' first
    | with_reducible assumption
    | with_reducible apply foldl_sound
    | with_reducible apply State.sendFlit_sound
    | with_reducible refine Sound.snd_of (by with_reducible assumption) ?_
    | with_reducible refine Sound.thd_of (by with_reducible assumption) ?_
    | intro _
    | split
    | dsimp only
    | with_reducible refine Sound.of_mk ?_ rfl rfl rfl rfl rfl rfl rfl rfl rfl rfl rfl rfl rfl

theorem State.handoverOffer_sound {s : State} (count : Nat) (hs : Sound p q s) :
    Sound p q (State.handoverOffer s count) := by
  unfold State.handoverOffer
  repeat' first
    | with_reducible assumption
    | with_reducible apply foldl_sound
    | with_reducible apply State.answerOffer_sound
    | with_reducible refine Sound.snd_of (by with_reducible assumption) ?_
    | with_reducible refine Sound.thd_of (by with_reducible assumption) ?_
    | intro _
    | split
    | dsimp only
    | with_reducible refine Sound.of_mk ?_ rfl rfl rfl rfl rfl rfl rfl rfl rfl rfl rfl rfl rfl

theorem State.handoverReady_sound {s : State} (hs : Sound p q s) :
    Sound p q (State.handoverReady s) := by
  unfold State.handoverReady
  repeat' first
    | with_reducible assumption
    | with_reducible apply foldl_sound
    | with_reducible apply State.leaveRole_sound
    | with_reducible apply State.resyncCause_sound
    | with_reducible refine Sound.snd_of (by with_reducible assumption) ?_
    | with_reducible refine Sound.thd_of (by with_reducible assumption) ?_
    | intro _
    | split
    | dsimp only
    | with_reducible refine Sound.of_mk ?_ rfl rfl rfl rfl rfl rfl rfl rfl rfl rfl rfl rfl rfl

theorem State.handoverRefused_sound {s : State} (reason : Nat) (hs : Sound p q s) :
    Sound p q (State.handoverRefused s reason) := by
  unfold State.handoverRefused
  repeat' first
    | with_reducible assumption
    | with_reducible apply foldl_sound
    | with_reducible apply State.pairDisagree_sound
    | with_reducible apply State.keepToken_sound
    | with_reducible refine Sound.snd_of (by with_reducible assumption) ?_
    | with_reducible refine Sound.thd_of (by with_reducible assumption) ?_
    | intro _
    | split
    | dsimp only
    | with_reducible refine Sound.of_mk ?_ rfl rfl rfl rfl rfl rfl rfl rfl rfl rfl rfl rfl rfl

theorem State.clearBridged_sound {s : State} (hs : Sound p q s) :
    Sound p q (State.clearBridged s) := by
  unfold State.clearBridged
  repeat' first
    | with_reducible assumption
    | with_reducible apply foldl_sound
    | with_reducible apply State.setFld_sound
    | with_reducible refine Sound.snd_of (by with_reducible assumption) ?_
    | with_reducible refine Sound.thd_of (by with_reducible assumption) ?_
    | intro _
    | split
    | dsimp only
    | with_reducible refine Sound.of_mk ?_ rfl rfl rfl rfl rfl rfl rfl rfl rfl rfl rfl rfl rfl

theorem State.timeSyncDue_sound {s : State} (hs : Sound p q s) :
    Sound p q (State.timeSyncDue s) := by
  unfold State.timeSyncDue
  repeat' first
    | with_reducible assumption
    | with_reducible apply foldl_sound
    | with_reducible apply State.sendFlit_sound
    | with_reducible refine Sound.snd_of (by with_reducible assumption) ?_
    | with_reducible refine Sound.thd_of (by with_reducible assumption) ?_
    | intro _
    | split
    | dsimp only
    | with_reducible refine Sound.of_mk ?_ rfl rfl rfl rfl rfl rfl rfl rfl rfl rfl rfl rfl rfl

theorem State.timeSyncRequest_sound {s : State} (t1 : Nat) (hs : Sound p q s) :
    Sound p q (State.timeSyncRequest s t1) := by
  unfold State.timeSyncRequest
  repeat' first
    | with_reducible assumption
    | with_reducible apply foldl_sound
    | with_reducible apply State.sendFlit_sound
    | with_reducible refine Sound.snd_of (by with_reducible assumption) ?_
    | with_reducible refine Sound.thd_of (by with_reducible assumption) ?_
    | intro _
    | split
    | dsimp only
    | with_reducible refine Sound.of_mk ?_ rfl rfl rfl rfl rfl rfl rfl rfl rfl rfl rfl rfl rfl

theorem State.timeSyncReply_sound {s : State} (t1 : Nat) (t2 : Nat) (t3 : Nat) (hs : Sound p q s) :
    Sound p q (State.timeSyncReply s t1 t2 t3) := by
  unfold State.timeSyncReply
  repeat' first
    | with_reducible refine Sound.setDtime _ ?_
    | with_reducible assumption
    | with_reducible apply foldl_sound
    | with_reducible apply State.setFld_sound
    | with_reducible apply State.takeFree_sound
    | with_reducible apply State.event_sound
    | with_reducible apply State.pairDisagree_sound
    | with_reducible apply State.clearBridged_sound
    | with_reducible refine Sound.snd_of (by with_reducible assumption) ?_
    | with_reducible refine Sound.thd_of (by with_reducible assumption) ?_
    | intro _
    | split
    | dsimp only
    | with_reducible refine Sound.of_mk ?_ rfl rfl rfl rfl rfl rfl rfl rfl rfl rfl rfl rfl rfl

theorem State.timeSyncFrame_sound {s : State} (n : Nat) (seq : Nat) (ta : Nat) (hs : Sound p q s) :
    Sound p q (State.timeSyncFrame s n seq ta) := by
  unfold State.timeSyncFrame
  repeat' first
    | with_reducible assumption
    | with_reducible apply foldl_sound
    | with_reducible apply State.setFld_sound
    | with_reducible refine Sound.snd_of (by with_reducible assumption) ?_
    | with_reducible refine Sound.thd_of (by with_reducible assumption) ?_
    | intro _
    | split
    | dsimp only
    | with_reducible refine Sound.of_mk ?_ rfl rfl rfl rfl rfl rfl rfl rfl rfl rfl rfl rfl rfl

theorem State.timeSyncVrr_sound {s : State} (n : Nat) (seq : Nat) (line : Nat) (proceed : Bool) (hs : Sound p q s) :
    Sound p q (State.timeSyncVrr s n seq line proceed) := by
  unfold State.timeSyncVrr
  repeat' first
    | with_reducible assumption
    | with_reducible apply foldl_sound
    | with_reducible refine Sound.snd_of (by with_reducible assumption) ?_
    | with_reducible refine Sound.thd_of (by with_reducible assumption) ?_
    | intro _
    | split
    | dsimp only
    | with_reducible refine Sound.of_mk ?_ rfl rfl rfl rfl rfl rfl rfl rfl rfl rfl rfl rfl rfl

theorem State.armRecord_sound {s : State} (recNo : Nat) (g : Nat) (fn : Nat) (entries : List (Nat × Nat × Nat)) (fin : Bool) (hs : Sound p q s) :
    Sound p q (State.armRecord s recNo g fn entries fin) := by
  unfold State.armRecord
  repeat' first
    | with_reducible assumption
    | with_reducible apply foldl_sound
    | with_reducible apply State.sendFlit_sound
    | with_reducible refine Sound.snd_of (by with_reducible assumption) ?_
    | with_reducible refine Sound.thd_of (by with_reducible assumption) ?_
    | intro _
    | split
    | dsimp only
    | with_reducible refine Sound.of_mk ?_ rfl rfl rfl rfl rfl rfl rfl rfl rfl rfl rfl rfl rfl

theorem State.armApply_sound {s : State} (recNo : Nat) (frame : Nat) (hs : Sound p q s) :
    Sound p q (State.armApply s recNo frame) := by
  unfold State.armApply
  repeat' first
    | with_reducible assumption
    | with_reducible apply foldl_sound
    | with_reducible apply State.takeResources_sound
    | with_reducible apply State.applyAtOnce_sound
    | with_reducible apply State.sendFlit_sound
    | with_reducible apply State.noteSkew_sound
    | with_reducible refine Sound.snd_of (by with_reducible assumption) ?_
    | with_reducible refine Sound.thd_of (by with_reducible assumption) ?_
    | intro _
    | split
    | dsimp only
    | with_reducible refine Sound.of_mk ?_ rfl rfl rfl rfl rfl rfl rfl rfl rfl rfl rfl rfl rfl

theorem State.armDrop_sound {s : State} (recNo : Nat) (hs : Sound p q s) :
    Sound p q (State.armDrop s recNo) := by
  unfold State.armDrop
  repeat' first
    | with_reducible assumption
    | with_reducible apply foldl_sound
    | with_reducible refine Sound.snd_of (by with_reducible assumption) ?_
    | with_reducible refine Sound.thd_of (by with_reducible assumption) ?_
    | intro _
    | split
    | dsimp only
    | with_reducible refine Sound.of_mk ?_ rfl rfl rfl rfl rfl rfl rfl rfl rfl rfl rfl rfl rfl

theorem State.ackHeld_sound {s : State} (recNo : Nat) (hs : Sound p q s) :
    Sound p q (State.ackHeld s recNo) := by
  unfold State.ackHeld
  repeat' first
    | with_reducible assumption
    | with_reducible apply foldl_sound
    | with_reducible apply State.putCommit_sound
    | with_reducible apply State.applyLeadless_sound
    | with_reducible apply State.wakeReleases_sound
    | with_reducible refine Sound.snd_of (by with_reducible assumption) ?_
    | with_reducible refine Sound.thd_of (by with_reducible assumption) ?_
    | intro _
    | split
    | dsimp only
    | with_reducible refine Sound.of_mk ?_ rfl rfl rfl rfl rfl rfl rfl rfl rfl rfl rfl rfl rfl

theorem State.ackApplied_sound {s : State} (recNo : Nat) (frame : Nat) (hs : Sound p q s) :
    Sound p q (State.ackApplied s recNo frame) := by
  unfold State.ackApplied
  repeat' first
    | with_reducible assumption
    | with_reducible apply foldl_sound
    | with_reducible apply State.noteSkew_sound
    | with_reducible refine Sound.snd_of (by with_reducible assumption) ?_
    | with_reducible refine Sound.thd_of (by with_reducible assumption) ?_
    | intro _
    | split
    | dsimp only
    | with_reducible refine Sound.of_mk ?_ rfl rfl rfl rfl rfl rfl rfl rfl rfl rfl rfl rfl rfl

theorem State.regionDisagree_sound {s : State} (own : Digest) (other : Digest) (ownDue : Nat) (otherDue : Nat) (hs : Sound p q s) :
    Sound p q (State.regionDisagree s own other ownDue otherDue) := by
  unfold State.regionDisagree
  repeat' first
    | with_reducible assumption
    | with_reducible apply foldl_sound
    | with_reducible apply State.reportContained_sound
    | with_reducible apply State.pairDisagree_sound
    | with_reducible apply State.resyncCause_sound
    | with_reducible apply State.startHandover_sound
    | with_reducible refine Sound.snd_of (by with_reducible assumption) ?_
    | with_reducible refine Sound.thd_of (by with_reducible assumption) ?_
    | intro _
    | split
    | dsimp only
    | with_reducible refine Sound.of_mk ?_ rfl rfl rfl rfl rfl rfl rfl rfl rfl rfl rfl rfl rfl

theorem State.compareDigests_sound {s : State} (own : Digest) (other : Digest) (hs : Sound p q s) :
    Sound p q (State.compareDigests s own other) := by
  unfold State.compareDigests
  repeat' first
    | with_reducible assumption
    | with_reducible apply foldl_sound
    | with_reducible apply State.setFld_sound
    | with_reducible apply State.satFld_sound
    | with_reducible apply State.pairDisagree_sound
    | with_reducible apply State.resyncCause_sound
    | with_reducible refine Sound.snd_of (by with_reducible assumption) ?_
    | with_reducible refine Sound.thd_of (by with_reducible assumption) ?_
    | intro _
    | split
    | dsimp only
    | with_reducible refine Sound.of_mk ?_ rfl rfl rfl rfl rfl rfl rfl rfl rfl rfl rfl rfl rfl

theorem State.matchDigest_sound {s : State} (n : Nat) (frame : Nat) (hs : Sound p q s) :
    Sound p q (State.matchDigest s n frame) := by
  unfold State.matchDigest
  repeat' first
    | with_reducible assumption
    | with_reducible apply foldl_sound
    | with_reducible apply State.regionDisagree_sound
    | with_reducible apply State.compareDigests_sound
    | with_reducible refine Sound.snd_of (by with_reducible assumption) ?_
    | with_reducible refine Sound.thd_of (by with_reducible assumption) ?_
    | intro _
    | split
    | dsimp only
    | with_reducible refine Sound.of_mk ?_ rfl rfl rfl rfl rfl rfl rfl rfl rfl rfl rfl rfl rfl

theorem State.ownDigest_sound {s : State} (d : Digest) (hs : Sound p q s) :
    Sound p q (State.ownDigest s d) := by
  unfold State.ownDigest
  repeat' first
    | with_reducible assumption
    | with_reducible apply foldl_sound
    | with_reducible apply State.setFld_sound
    | with_reducible apply State.sendFlit_sound
    | with_reducible apply State.matchDigest_sound
    | with_reducible refine Sound.snd_of (by with_reducible assumption) ?_
    | with_reducible refine Sound.thd_of (by with_reducible assumption) ?_
    | intro _
    | split
    | dsimp only
    | with_reducible refine Sound.of_mk ?_ rfl rfl rfl rfl rfl rfl rfl rfl rfl rfl rfl rfl rfl

theorem State.partnerDigest_sound {s : State} (d : Digest) (hs : Sound p q s) :
    Sound p q (State.partnerDigest s d) := by
  unfold State.partnerDigest
  repeat' first
    | with_reducible assumption
    | with_reducible apply foldl_sound
    | with_reducible apply State.event_sound
    | with_reducible apply State.recErr_sound
    | with_reducible apply State.noteSkew_sound
    | with_reducible apply State.pairDisagree_sound
    | with_reducible apply State.matchDigest_sound
    | with_reducible refine Sound.snd_of (by with_reducible assumption) ?_
    | with_reducible refine Sound.thd_of (by with_reducible assumption) ?_
    | intro _
    | split
    | dsimp only
    | with_reducible refine Sound.of_mk ?_ rfl rfl rfl rfl rfl rfl rfl rfl rfl rfl rfl rfl rfl

theorem State.mirrorRead_sound {s : State} (plot : Nat) (word : Nat) (x3 : Nat) (hs : Sound p q s) :
    Sound p q (State.mirrorRead s plot word x3).2 := by
  induction x3 generalizing s plot word with
  | zero =>
    unfold State.mirrorRead
    repeat' first
      | with_reducible assumption
      | with_reducible apply foldl_sound
      | with_reducible apply State.readWord_sound
      | with_reducible refine Sound.snd_of (by with_reducible assumption) ?_
      | with_reducible refine Sound.thd_of (by with_reducible assumption) ?_
      | intro _
      | split
      | dsimp only
      | with_reducible refine Sound.of_mk ?_ rfl rfl rfl rfl rfl rfl rfl rfl rfl rfl rfl rfl rfl
  | succ _ ih =>
    unfold State.mirrorRead
    repeat' first
      | with_reducible assumption
      | with_reducible apply ih
      | with_reducible apply foldl_sound
      | with_reducible apply State.readWord_sound
      | with_reducible refine Sound.snd_of (by with_reducible assumption) ?_
      | with_reducible refine Sound.thd_of (by with_reducible assumption) ?_
      | intro _
      | split
      | dsimp only
      | with_reducible refine Sound.of_mk ?_ rfl rfl rfl rfl rfl rfl rfl rfl rfl rfl rfl rfl rfl

theorem State.sentOne_sound {s : State} (f : Flit) (item : Option MirrorItem) (rest : List MirrorItem) (items : Nat) (words : Nat) (hs : Sound p q s) :
    Sound p q (State.sentOne s f item rest items words) := by
  unfold State.sentOne
  repeat' first
    | with_reducible assumption
    | with_reducible apply foldl_sound
    | with_reducible apply State.addCnt_sound
    | with_reducible apply State.sendNow_sound
    | with_reducible refine Sound.snd_of (by with_reducible assumption) ?_
    | with_reducible refine Sound.thd_of (by with_reducible assumption) ?_
    | intro _
    | split
    | dsimp only
    | with_reducible refine Sound.of_mk ?_ rfl rfl rfl rfl rfl rfl rfl rfl rfl rfl rfl rfl rfl

theorem State.sendSync_sound {s : State} (hs : Sound p q s) :
    Sound p q (State.sendSync s) := by
  unfold State.sendSync
  repeat' first
    | with_reducible assumption
    | with_reducible apply foldl_sound
    | with_reducible apply State.mirrorRead_sound
    | with_reducible apply State.sentOne_sound
    | with_reducible refine Sound.snd_of (by with_reducible assumption) ?_
    | with_reducible refine Sound.thd_of (by with_reducible assumption) ?_
    | intro _
    | split
    | dsimp only
    | with_reducible refine Sound.of_mk ?_ rfl rfl rfl rfl rfl rfl rfl rfl rfl rfl rfl rfl rfl

theorem State.mirrorSend_sound {s : State} (hs : Sound p q s) :
    Sound p q (State.mirrorSend s) := by
  unfold State.mirrorSend
  repeat' first
    | with_reducible assumption
    | with_reducible apply foldl_sound
    | with_reducible apply State.mirrorRead_sound
    | with_reducible apply State.sentOne_sound
    | with_reducible apply State.sendSync_sound
    | with_reducible refine Sound.snd_of (by with_reducible assumption) ?_
    | with_reducible refine Sound.thd_of (by with_reducible assumption) ?_
    | intro _
    | split
    | dsimp only
    | with_reducible refine Sound.of_mk ?_ rfl rfl rfl rfl rfl rfl rfl rfl rfl rfl rfl rfl rfl

theorem State.wakeReport_sound {s : State} (sub : Nat) (arg : Nat) (hs : Sound p q s) :
    Sound p q (State.wakeReport s sub arg) := by
  unfold State.wakeReport
  repeat' first
    | with_reducible assumption
    | with_reducible apply foldl_sound
    | with_reducible apply State.event_sound
    | with_reducible refine Sound.snd_of (by with_reducible assumption) ?_
    | with_reducible refine Sound.thd_of (by with_reducible assumption) ?_
    | intro _
    | split
    | dsimp only
    | with_reducible refine Sound.of_mk ?_ rfl rfl rfl rfl rfl rfl rfl rfl rfl rfl rfl rfl rfl

theorem State.plkCtrlWrite_sound (a : RegAcc) {s : State} (hs : Sound p q s) :
    Sound p q (State.plkCtrlWrite a s) := by
  unfold State.plkCtrlWrite
  repeat' first
    | with_reducible assumption
    | with_reducible apply foldl_sound
    | with_reducible apply State.recAcc_sound
    | with_reducible apply State.recRefused_sound
    | with_reducible apply State.startRecovery_sound
    | with_reducible apply State.askJoin_sound
    | with_reducible apply State.resyncCause_sound
    | with_reducible apply State.handoverWrite_sound
    | with_reducible refine Sound.snd_of (by with_reducible assumption) ?_
    | with_reducible refine Sound.thd_of (by with_reducible assumption) ?_
    | intro _
    | split
    | dsimp only
    | with_reducible refine Sound.of_mk ?_ rfl rfl rfl rfl rfl rfl rfl rfl rfl rfl rfl rfl rfl

theorem State.pairStart_sound {s : State} (hs : Sound p q s) :
    Sound p q (State.pairStart s) := by
  unfold State.pairStart
  repeat' first
    | with_reducible assumption
    | with_reducible apply foldl_sound
    | with_reducible apply State.setFld_sound
    | with_reducible apply State.followPartner_sound
    | with_reducible apply State.waitingStep_sound
    | with_reducible refine Sound.snd_of (by with_reducible assumption) ?_
    | with_reducible refine Sound.thd_of (by with_reducible assumption) ?_
    | intro _
    | split
    | dsimp only
    | with_reducible refine Sound.of_mk ?_ rfl rfl rfl rfl rfl rfl rfl rfl rfl rfl rfl rfl rfl

theorem State.pairStop_sound {s : State} (hs : Sound p q s) :
    Sound p q (State.pairStop s) := by
  unfold State.pairStop
  repeat' first
    | with_reducible assumption
    | with_reducible apply foldl_sound
    | with_reducible apply State.setFld_sound
    | with_reducible apply State.dropLink_sound
    | with_reducible apply State.startRole_sound
    | with_reducible apply State.releaseKept_sound
    | with_reducible apply State.goSolo_sound
    | with_reducible refine Sound.snd_of (by with_reducible assumption) ?_
    | with_reducible refine Sound.thd_of (by with_reducible assumption) ?_
    | intro _
    | split
    | dsimp only
    | with_reducible refine Sound.of_mk ?_ rfl rfl rfl rfl rfl rfl rfl rfl rfl rfl rfl rfl rfl

theorem State.plkEnable_sound (a : RegAcc) (on : Bool) {s : State} (hs : Sound p q s) :
    Sound p q (State.plkEnable a on s) := by
  unfold State.plkEnable
  repeat' first
    | with_reducible assumption
    | with_reducible apply foldl_sound
    | with_reducible apply State.recAcc_sound
    | with_reducible apply State.pairStop_sound
    | with_reducible refine Sound.snd_of (by with_reducible assumption) ?_
    | with_reducible refine Sound.thd_of (by with_reducible assumption) ?_
    | intro _
    | split
    | dsimp only
    | with_reducible refine Sound.of_mk ?_ rfl rfl rfl rfl rfl rfl rfl rfl rfl rfl rfl rfl rfl

theorem State.plkReset_sound (a : RegAcc) {s : State} (hs : Sound p q s) :
    Sound p q (State.plkReset a s) := by
  unfold State.plkReset
  repeat' first
    | with_reducible assumption
    | with_reducible apply foldl_sound
    | with_reducible apply State.recAcc_sound
    | with_reducible apply State.resetPage_sound
    | with_reducible apply State.pairStop_sound
    | with_reducible refine Sound.snd_of (by with_reducible assumption) ?_
    | with_reducible refine Sound.thd_of (by with_reducible assumption) ?_
    | intro _
    | split
    | dsimp only
    | with_reducible refine Sound.of_mk ?_ rfl rfl rfl rfl rfl rfl rfl rfl rfl rfl rfl rfl rfl

end Sys2Proof.Machine
end

