-- ==== Sys2Proof/Laws/SoundFrame.lean ====
section
/-! SUPPORT. Every operation of Machine/Frame.lean keeps the invariant of Safety.lean. -/

namespace Sys2Proof.Machine

set_option Elab.async false
set_option linter.all false

variable {p : Part} {q : List Instr}

theorem State.enterPower_sound {s : State} (st : PowerState) (hs : Sound p q s) :
    Sound p q (State.enterPower s st) := by
  unfold State.enterPower
  repeat' first
    | with_reducible assumption
    | with_reducible apply foldl_sound
    | with_reducible apply State.setFld_sound
    | with_reducible apply State.satFld_sound
    | with_reducible refine Sound.snd_of (by with_reducible assumption) ?_
    | with_reducible refine Sound.thd_of (by with_reducible assumption) ?_
    | intro _
    | split
    | dsimp only
    | with_reducible refine Sound.of_mk ?_ rfl rfl rfl rfl rfl rfl rfl rfl rfl rfl rfl rfl rfl

theorem State.endRequest_sound {s : State} (code : Nat) (info : Nat) (hs : Sound p q s) :
    Sound p q (State.endRequest s code info) := by
  unfold State.endRequest
  repeat' first
    | with_reducible assumption
    | with_reducible apply foldl_sound
    | with_reducible apply State.setFld_sound
    | with_reducible apply State.event_sound
    | with_reducible apply State.recErr_sound
    | with_reducible refine Sound.snd_of (by with_reducible assumption) ?_
    | with_reducible refine Sound.thd_of (by with_reducible assumption) ?_
    | intro _
    | split
    | dsimp only
    | with_reducible refine Sound.of_mk ?_ rfl rfl rfl rfl rfl rfl rfl rfl rfl rfl rfl rfl rfl

theorem State.idleCheck_sound {s : State} (hs : Sound p q s) :
    Sound p q (State.idleCheck s) := by
  unfold State.idleCheck
  repeat' first
    | with_reducible assumption
    | with_reducible apply foldl_sound
    | with_reducible apply State.enterPower_sound
    | with_reducible apply State.endRequest_sound
    | with_reducible refine Sound.snd_of (by with_reducible assumption) ?_
    | with_reducible refine Sound.thd_of (by with_reducible assumption) ?_
    | intro _
    | split
    | dsimp only
    | with_reducible refine Sound.of_mk ?_ rfl rfl rfl rfl rfl rfl rfl rfl rfl rfl rfl rfl rfl

theorem State.restartOutputs_sound {s : State} (hs : Sound p q s) :
    Sound p q (State.restartOutputs s) := by
  unfold State.restartOutputs
  repeat' first
    | with_reducible assumption
    | with_reducible apply foldl_sound
    | with_reducible apply State.setFld_sound
    | with_reducible apply State.setDisp_sound
    | with_reducible refine Sound.snd_of (by with_reducible assumption) ?_
    | with_reducible refine Sound.thd_of (by with_reducible assumption) ?_
    | intro _
    | split
    | dsimp only
    | with_reducible refine Sound.of_mk ?_ rfl rfl rfl rfl rfl rfl rfl rfl rfl rfl rfl rfl rfl

theorem State.idleExit_sound {s : State} (hs : Sound p q s) :
    Sound p q (State.idleExit s) := by
  unfold State.idleExit
  repeat' first
    | with_reducible assumption
    | with_reducible apply foldl_sound
    | with_reducible apply State.enterPower_sound
    | with_reducible apply State.restartOutputs_sound
    | with_reducible refine Sound.snd_of (by with_reducible assumption) ?_
    | with_reducible refine Sound.thd_of (by with_reducible assumption) ?_
    | intro _
    | split
    | dsimp only
    | with_reducible refine Sound.of_mk ?_ rfl rfl rfl rfl rfl rfl rfl rfl rfl rfl rfl rfl rfl

theorem State.idleEntry_sound {s : State} (hs : Sound p q s) :
    Sound p q (State.idleEntry s) := by
  unfold State.idleEntry
  repeat' first
    | with_reducible assumption
    | with_reducible apply foldl_sound
    | with_reducible apply State.idleCheck_sound
    | with_reducible refine Sound.snd_of (by with_reducible assumption) ?_
    | with_reducible refine Sound.thd_of (by with_reducible assumption) ?_
    | intro _
    | split
    | dsimp only
    | with_reducible refine Sound.of_mk ?_ rfl rfl rfl rfl rfl rfl rfl rfl rfl rfl rfl rfl rfl

theorem State.publishFrame_sound {s : State} (n : Nat) (hs : Sound p q s) :
    Sound p q (State.publishFrame s n) := by
  unfold State.publishFrame
  repeat' first
    | with_reducible assumption
    | with_reducible apply foldl_sound
    | with_reducible apply State.setFld_sound
    | with_reducible apply State.addFld_sound
    | with_reducible refine Sound.snd_of (by with_reducible assumption) ?_
    | with_reducible refine Sound.thd_of (by with_reducible assumption) ?_
    | intro _
    | split
    | dsimp only
    | with_reducible refine Sound.of_mk ?_ rfl rfl rfl rfl rfl rfl rfl rfl rfl rfl rfl rfl rfl

theorem State.mirrorStore_sound {s : State} (key : Nat) (val : Nat) (hs : Sound p q s) :
    Sound p q (State.mirrorStore s key val) := by
  unfold State.mirrorStore
  repeat' first
    | with_reducible assumption
    | with_reducible apply foldl_sound
    | with_reducible apply State.setFld_sound
    | with_reducible apply State.applyField_sound
    | with_reducible apply State.ownerApply_sound
    | with_reducible apply State.chkOwnerTaken_sound
    | with_reducible apply State.plainEnable_sound
    | with_reducible refine Sound.snd_of (by with_reducible assumption) ?_
    | with_reducible refine Sound.thd_of (by with_reducible assumption) ?_
    | intro _
    | split
    | dsimp only
    | with_reducible refine Sound.of_mk ?_ rfl rfl rfl rfl rfl rfl rfl rfl rfl rfl rfl rfl rfl

theorem State.takeMirrored_sound {s : State} (n : Nat) (seq : Nat) (hs : Sound p q s) :
    Sound p q (State.takeMirrored s n seq) := by
  unfold State.takeMirrored
  repeat' first
    | with_reducible assumption
    | with_reducible apply foldl_sound
    | with_reducible apply State.mirrorStore_sound
    | with_reducible refine Sound.snd_of (by with_reducible assumption) ?_
    | with_reducible refine Sound.thd_of (by with_reducible assumption) ?_
    | intro _
    | split
    | dsimp only
    | with_reducible refine Sound.of_mk ?_ rfl rfl rfl rfl rfl rfl rfl rfl rfl rfl rfl rfl rfl

theorem State.noteEarly_sound {s : State} (n : Nat) (hs : Sound p q s) :
    Sound p q (State.noteEarly s n) := by
  unfold State.noteEarly
  repeat' first
    | with_reducible assumption
    | with_reducible apply foldl_sound
    | with_reducible apply State.setFld_sound
    | with_reducible refine Sound.snd_of (by with_reducible assumption) ?_
    | with_reducible refine Sound.thd_of (by with_reducible assumption) ?_
    | intro _
    | split
    | dsimp only
    | with_reducible refine Sound.of_mk ?_ rfl rfl rfl rfl rfl rfl rfl rfl rfl rfl rfl rfl rfl

theorem State.earlyRefused_sound {s : State} (n : Nat) (hs : Sound p q s) :
    Sound p q (State.earlyRefused s n) := by
  unfold State.earlyRefused
  repeat' first
    | with_reducible assumption
    | with_reducible apply foldl_sound
    | with_reducible apply State.setFld_sound
    | with_reducible apply State.logInfo_sound
    | with_reducible apply State.destroyChan_sound
    | with_reducible apply State.stopNow_sound
    | with_reducible apply State.standStill_sound
    | with_reducible refine Sound.snd_of (by with_reducible assumption) ?_
    | with_reducible refine Sound.thd_of (by with_reducible assumption) ?_
    | intro _
    | split
    | dsimp only
    | with_reducible refine Sound.of_mk ?_ rfl rfl rfl rfl rfl rfl rfl rfl rfl rfl rfl rfl rfl

theorem State.dropContain_sound {s : State} (n : Nat) (hs : Sound p q s) :
    Sound p q (State.dropContain s n) := by
  unfold State.dropContain
  repeat' first
    | with_reducible assumption
    | with_reducible apply foldl_sound
    | with_reducible apply State.setFld_sound
    | with_reducible refine Sound.snd_of (by with_reducible assumption) ?_
    | with_reducible refine Sound.thd_of (by with_reducible assumption) ?_
    | intro _
    | split
    | dsimp only
    | with_reducible refine Sound.of_mk ?_ rfl rfl rfl rfl rfl rfl rfl rfl rfl rfl rfl rfl rfl

theorem State.frameStop_sound {s : State} (n : Nat) (keep : Bool) (contained : Bool) (hs : Sound p q s) :
    Sound p q (State.frameStop s n keep contained) := by
  unfold State.frameStop
  repeat' first
    | with_reducible assumption
    | with_reducible apply foldl_sound
    | with_reducible apply State.setDisp_sound
    | with_reducible apply State.lanesIdle_sound
    | with_reducible apply State.enterReplay_sound
    | with_reducible apply State.dropRan_sound
    | with_reducible apply State.stopNow_sound
    | with_reducible apply State.idleCheck_sound
    | with_reducible apply State.dropContain_sound
    | with_reducible refine Sound.snd_of (by with_reducible assumption) ?_
    | with_reducible refine Sound.thd_of (by with_reducible assumption) ?_
    | intro _
    | split
    | dsimp only
    | with_reducible refine Sound.of_mk ?_ rfl rfl rfl rfl rfl rfl rfl rfl rfl rfl rfl rfl rfl

theorem State.frameNext_sound {s : State} (n : Nat) (seq : Nat) (total : Nat) (hs : Sound p q s) :
    Sound p q (State.frameNext s n seq total) := by
  unfold State.frameNext
  repeat' first
    | with_reducible assumption
    | with_reducible apply foldl_sound
    | with_reducible apply State.latchPoint_sound
    | with_reducible apply State.videoLatch_sound
    | with_reducible apply State.replayStep_sound
    | with_reducible apply State.takeMirrored_sound
    | with_reducible apply State.earlyRefused_sound
    | with_reducible refine Sound.snd_of (by with_reducible assumption) ?_
    | with_reducible refine Sound.thd_of (by with_reducible assumption) ?_
    | intro _
    | split
    | dsimp only
    | with_reducible refine Sound.of_mk ?_ rfl rfl rfl rfl rfl rfl rfl rfl rfl rfl rfl rfl rfl

theorem State.frameResults_sound {s : State} (n : Nat) (hs : Sound p q s) :
    Sound p q (State.frameResults s n) := by
  unfold State.frameResults
  repeat' first
    | with_reducible assumption
    | with_reducible apply foldl_sound
    | with_reducible apply State.event_sound
    | with_reducible apply State.regionFinal_sound
    | with_reducible apply State.ownDigest_sound
    | with_reducible apply State.publishFrame_sound
    | with_reducible apply State.noteEarly_sound
    | with_reducible refine Sound.snd_of (by with_reducible assumption) ?_
    | with_reducible refine Sound.thd_of (by with_reducible assumption) ?_
    | intro _
    | split
    | dsimp only
    | with_reducible refine Sound.of_mk ?_ rfl rfl rfl rfl rfl rfl rfl rfl rfl rfl rfl rfl rfl

theorem State.frameDone_sound {s : State} (n : Nat) (hs : Sound p q s) :
    Sound p q (State.frameDone s n) := by
  unfold State.frameDone
  repeat' first
    | with_reducible assumption
    | with_reducible apply foldl_sound
    | with_reducible apply State.frameStop_sound
    | with_reducible apply State.frameNext_sound
    | with_reducible apply State.frameResults_sound
    | with_reducible refine Sound.snd_of (by with_reducible assumption) ?_
    | with_reducible refine Sound.thd_of (by with_reducible assumption) ?_
    | intro _
    | split
    | dsimp only
    | with_reducible refine Sound.of_mk ?_ rfl rfl rfl rfl rfl rfl rfl rfl rfl rfl rfl rfl rfl

theorem State.scanOutStarts_sound {s : State} (n : Nat) (hs : Sound p q s) :
    Sound p q (State.scanOutStarts s n) := by
  unfold State.scanOutStarts
  repeat' first
    | with_reducible assumption
    | with_reducible apply foldl_sound
    | with_reducible apply State.applyDecisions_sound
    | with_reducible apply State.videoLatch_sound
    | with_reducible apply State.exitReplay_sound
    | with_reducible apply State.counterStart_sound
    | with_reducible apply State.earlyRefused_sound
    | with_reducible refine Sound.snd_of (by with_reducible assumption) ?_
    | with_reducible refine Sound.thd_of (by with_reducible assumption) ?_
    | intro _
    | split
    | dsimp only
    | with_reducible refine Sound.of_mk ?_ rfl rfl rfl rfl rfl rfl rfl rfl rfl rfl rfl rfl rfl

theorem State.commitCommand_sound (c : CmdArgs) {s : State} (hs : Sound p q s) :
    Sound p q (State.commitCommand c s) := by
  unfold State.commitCommand
  repeat' first
    | with_reducible assumption
    | with_reducible apply foldl_sound
    | with_reducible apply State.carryEntry_sound
    | with_reducible apply State.carryCommit_sound
    | with_reducible apply State.idleExit_sound
    | with_reducible refine Sound.snd_of (by with_reducible assumption) ?_
    | with_reducible refine Sound.thd_of (by with_reducible assumption) ?_
    | intro _
    | split
    | dsimp only
    | with_reducible refine Sound.of_mk ?_ rfl rfl rfl rfl rfl rfl rfl rfl rfl rfl rfl rfl rfl

end Sys2Proof.Machine
end

