-- ==== Sys2Proof/Laws/SoundRestart.lean ====
section
/-! SUPPORT. Every operation of Machine/Restart.lean keeps the invariant of Safety.lean. -/

namespace Sys2Proof.Machine

set_option Elab.async false
set_option linter.all false

variable {p : Part} {q : List Instr}


theorem Time.reset_inRange : Time.reset.InRange := ⟨by decide, by decide, by decide, by decide⟩

/-- The capture of device time, and what a device reset keeps of it. -/
theorem Sound.setBridge {s : State} {a b c : Nat} {d : Bool} (hs : Sound p q s) :
    Sound p q { s with time := { s.time with dtimeE := a, tickE := b, calE := c, captured := d } } :=
  ⟨hs.part, hs.queue, hs.mem, hs.regs, hs.shad, hs.copyRegs, hs.copyShad, hs.flash,
    ⟨hs.time.dtime, hs.time.frac, hs.time.ticks, hs.time.tickFrac⟩, hs.jobs, hs.tables⟩

theorem State.captureTime_sound {s : State} (hs : Sound p q s) : Sound p q (State.captureTime s) := by
  unfold State.captureTime
  split
  · exact hs
  · exact hs.setBridge

theorem State.bridgeTime_sound {s : State} (hs : Sound p q s) : Sound p q (State.bridgeTime s) := by
  unfold State.bridgeTime
  split
  · exact hs
  · dsimp only
    generalize (s.time.ticks - s.time.tickE) * s.time.calE / 65536 = n
    refine State.event_sound _ _ (State.setFld_sound _ _ _ _ (State.setFld_sound _ _ _ _ ?_))
    generalize s.time.dtimeE + n = m
    exact ⟨hs.part, hs.queue, hs.mem, hs.regs, hs.shad, hs.copyRegs, hs.copyShad, hs.flash,
      ⟨Nat.mod_lt _ (by decide), Nat.zero_lt_succ _, hs.time.ticks, hs.time.tickFrac⟩, hs.jobs, hs.tables⟩

theorem State.writeTail_sound {s : State} (hs : Sound p q s) :
    Sound p q (State.writeTail s) := by
  unfold State.writeTail
  repeat' first
    | with_reducible assumption
    | with_reducible apply foldl_sound
    | with_reducible refine Sound.snd_of (by with_reducible assumption) ?_
    | with_reducible refine Sound.thd_of (by with_reducible assumption) ?_
    | intro _
    | split
    | dsimp only
    | with_reducible refine Sound.of_mk ?_ rfl rfl rfl rfl rfl rfl rfl rfl rfl rfl rfl rfl rfl

theorem State.recallTail_sound {s : State} (hs : Sound p q s) :
    Sound p q (State.recallTail s) := by
  unfold State.recallTail
  repeat' first
    | with_reducible assumption
    | with_reducible apply foldl_sound
    | with_reducible apply State.setFld_sound
    | with_reducible refine Sound.snd_of (by with_reducible assumption) ?_
    | with_reducible refine Sound.thd_of (by with_reducible assumption) ?_
    | intro _
    | split
    | dsimp only
    | with_reducible refine Sound.of_mk ?_ rfl rfl rfl rfl rfl rfl rfl rfl rfl rfl rfl rfl rfl

theorem State.limitLog_sound {s : State} (hs : Sound p q s) :
    Sound p q (State.limitLog s) := by
  unfold State.limitLog
  repeat' first
    | with_reducible assumption
    | with_reducible apply foldl_sound
    | with_reducible apply State.setFld_sound
    | with_reducible apply State.recallTail_sound
    | with_reducible refine Sound.snd_of (by with_reducible assumption) ?_
    | with_reducible refine Sound.thd_of (by with_reducible assumption) ?_
    | intro _
    | split
    | dsimp only
    | with_reducible refine Sound.of_mk ?_ rfl rfl rfl rfl rfl rfl rfl rfl rfl rfl rfl rfl rfl

theorem State.setLoaded_sound {s : State} (k : Nat) (v : Nat) (hs : Sound p q s) :
    Sound p q (State.setLoaded s k v) := by
  unfold State.setLoaded
  repeat' first
    | with_reducible assumption
    | with_reducible apply foldl_sound
    | with_reducible apply State.setRw_sound
    | with_reducible refine Sound.snd_of (by with_reducible assumption) ?_
    | with_reducible refine Sound.thd_of (by with_reducible assumption) ?_
    | intro _
    | split
    | dsimp only
    | with_reducible refine Sound.of_mk ?_ rfl rfl rfl rfl rfl rfl rfl rfl rfl rfl rfl rfl rfl

theorem State.deviceReset_sound {s : State} (cause : Nat) (hs : Sound p q s) : Sound p q (State.deviceReset s cause) := by
  have ht := State.captureTime_sound hs
  unfold State.deviceReset
  dsimp only
  refine State.setLoaded_sound _ _ ?_
  exact ⟨ht.part, ht.queue, rfl, Sparse.wf_filter _ ht.regs, rfl, rfl, rfl, ht.flash,
    ⟨ht.time.dtime, Nat.zero_lt_succ _, ht.time.ticks, ht.time.tickFrac⟩, by simp [State.reset, Hosts.reset], ⟨rfl, rfl⟩⟩

theorem State.aonPowerOn_sound {s : State} (hs : Sound p q s) : Sound p q (State.aonPowerOn s) := by
  have ht := State.deviceReset_sound 1 hs
  unfold State.aonPowerOn
  dsimp only
  refine State.event_sound _ _ (State.setLoaded_sound _ _ ?_)
  exact ⟨ht.part, ht.queue, ht.mem, rfl, ht.shad, rfl, rfl, ht.flash, Time.reset_inRange, ht.jobs, ht.tables⟩

end Sys2Proof.Machine
end

