-- ==== Sys2Proof/Laws/SoundUpdate.lean ====
section
/-! SUPPORT. Every operation of Machine/Update.lean keeps the invariant of Safety.lean. -/

namespace Sys2Proof.Machine

set_option Elab.async false
set_option linter.all false

variable {p : Part} {q : List Instr}

theorem State.program_sound {s : State} (a : Nat) (bs : List Nat) (hs : Sound p q s) : Sound p q (State.program s a bs) := by
  induction bs generalizing s a with
  | nil => exact hs
  | cons b r ih =>
    unfold State.program
    refine ih _ ⟨hs.part, hs.queue, hs.mem, hs.regs, hs.shad, hs.copyRegs, hs.copyShad, Sparse.wf_set _ _ ?_, hs.time, hs.jobs, hs.tables⟩
    split
    · exact Sparse.wf_filter _ hs.flash
    · exact hs.flash

theorem State.writeBoot_sound {s : State} (r : BootRecord) (hs : Sound p q s) :
    Sound p q (State.writeBoot s r) := by
  unfold State.writeBoot
  repeat' first
    | with_reducible assumption
    | with_reducible apply foldl_sound
    | with_reducible refine Sound.snd_of (by with_reducible assumption) ?_
    | with_reducible refine Sound.thd_of (by with_reducible assumption) ?_
    | intro _
    | split
    | dsimp only
    | with_reducible refine Sound.of_mk ?_ rfl rfl rfl rfl rfl rfl rfl rfl rfl rfl rfl rfl rfl

theorem State.updStat_sound {s : State} (hs : Sound p q s) :
    Sound p q (State.updStat s) := by
  unfold State.updStat
  repeat' first
    | with_reducible assumption
    | with_reducible apply foldl_sound
    | with_reducible apply State.setFld_sound
    | with_reducible refine Sound.snd_of (by with_reducible assumption) ?_
    | with_reducible refine Sound.thd_of (by with_reducible assumption) ?_
    | intro _
    | split
    | dsimp only
    | with_reducible refine Sound.of_mk ?_ rfl rfl rfl rfl rfl rfl rfl rfl rfl rfl rfl rfl rfl

theorem State.setUpd_sound {s : State} (u : Update) (hs : Sound p q s) (hu : u.flash = s.update.flash) :
    Sound p q (State.setUpd s u) :=
  State.updStat_sound ⟨hs.part, hs.queue, hs.mem, hs.regs, hs.shad, hs.copyRegs, hs.copyShad, hu ▸ hs.flash, hs.time, hs.jobs, hs.tables⟩

theorem State.closeSession_sound {s : State} (hs : Sound p q s) :
    Sound p q (State.closeSession s) := by
  unfold State.closeSession
  repeat' first
    | with_reducible assumption
    | with_reducible apply foldl_sound
    | with_reducible apply State.setUpd_sound
    | with_reducible refine Sound.snd_of (by with_reducible assumption) ?_
    | with_reducible refine Sound.thd_of (by with_reducible assumption) ?_
    | intro _
    | split
    | dsimp only
    | with_reducible refine Sound.of_mk ?_ rfl rfl rfl rfl rfl rfl rfl rfl rfl rfl rfl rfl rfl

theorem State.loseSession_sound {s : State} (hs : Sound p q s) :
    Sound p q (State.loseSession s) := by
  unfold State.loseSession
  repeat' first
    | with_reducible assumption
    | with_reducible apply foldl_sound
    | with_reducible apply State.setFld_sound
    | with_reducible apply State.event_sound
    | with_reducible apply State.recErr_sound
    | with_reducible apply State.closeSession_sound
    | with_reducible refine Sound.snd_of (by with_reducible assumption) ?_
    | with_reducible refine Sound.thd_of (by with_reducible assumption) ?_
    | intro _
    | split
    | dsimp only
    | with_reducible refine Sound.of_mk ?_ rfl rfl rfl rfl rfl rfl rfl rfl rfl rfl rfl rfl rfl

theorem State.updFnReset_sound {s : State} (fn : Nat) (hs : Sound p q s) :
    Sound p q (State.updFnReset s fn) := by
  unfold State.updFnReset
  repeat' first
    | with_reducible assumption
    | with_reducible apply foldl_sound
    | with_reducible apply State.loseSession_sound
    | with_reducible refine Sound.snd_of (by with_reducible assumption) ?_
    | with_reducible refine Sound.thd_of (by with_reducible assumption) ?_
    | intro _
    | split
    | dsimp only
    | with_reducible refine Sound.of_mk ?_ rfl rfl rfl rfl rfl rfl rfl rfl rfl rfl rfl rfl rfl

theorem State.burnFuse_sound {s : State} (kind : Nat) (svn : Nat) (hs : Sound p q s) :
    Sound p q (State.burnFuse s kind svn) := by
  unfold State.burnFuse
  repeat' first
    | with_reducible assumption
    | with_reducible apply foldl_sound
    | with_reducible refine Sound.snd_of (by with_reducible assumption) ?_
    | with_reducible refine Sound.thd_of (by with_reducible assumption) ?_
    | intro _
    | split
    | dsimp only
    | with_reducible refine Sound.of_mk ?_ rfl rfl rfl rfl rfl rfl rfl rfl rfl rfl rfl rfl rfl

theorem State.settleBoot_sound {s : State} (kind : Nat) (loc : Nat) (hs : Sound p q s) :
    Sound p q (State.settleBoot s kind loc) := by
  unfold State.settleBoot
  repeat' first
    | with_reducible assumption
    | with_reducible apply foldl_sound
    | with_reducible apply State.writeBoot_sound
    | with_reducible refine Sound.snd_of (by with_reducible assumption) ?_
    | with_reducible refine Sound.thd_of (by with_reducible assumption) ?_
    | intro _
    | split
    | dsimp only
    | with_reducible refine Sound.of_mk ?_ rfl rfl rfl rfl rfl rfl rfl rfl rfl rfl rfl rfl rfl

theorem State.confirmImage_sound {s : State} (kind : Nat) (loc : Nat) (hs : Sound p q s) :
    Sound p q (State.confirmImage s kind loc) := by
  unfold State.confirmImage
  repeat' first
    | with_reducible assumption
    | with_reducible apply foldl_sound
    | with_reducible apply State.event_sound
    | with_reducible apply State.logInfo_sound
    | with_reducible apply State.burnFuse_sound
    | with_reducible apply State.settleBoot_sound
    | with_reducible refine Sound.snd_of (by with_reducible assumption) ?_
    | with_reducible refine Sound.thd_of (by with_reducible assumption) ?_
    | intro _
    | split
    | dsimp only
    | with_reducible refine Sound.of_mk ?_ rfl rfl rfl rfl rfl rfl rfl rfl rfl rfl rfl rfl rfl

theorem State.revertImage_sound {s : State} (kind : Nat) (reason : Nat) (hs : Sound p q s) :
    Sound p q (State.revertImage s kind reason) := by
  unfold State.revertImage
  repeat' first
    | with_reducible assumption
    | with_reducible apply foldl_sound
    | with_reducible apply State.event_sound
    | with_reducible apply State.recErr_sound
    | with_reducible apply State.logInfo_sound
    | with_reducible apply State.settleBoot_sound
    | with_reducible refine Sound.snd_of (by with_reducible assumption) ?_
    | with_reducible refine Sound.thd_of (by with_reducible assumption) ?_
    | intro _
    | split
    | dsimp only
    | with_reducible refine Sound.of_mk ?_ rfl rfl rfl rfl rfl rfl rfl rfl rfl rfl rfl rfl rfl

theorem State.trialConfirmed_sound {s : State} (hs : Sound p q s) :
    Sound p q (State.trialConfirmed s) := by
  unfold State.trialConfirmed
  repeat' first
    | with_reducible assumption
    | with_reducible apply foldl_sound
    | with_reducible apply State.confirmImage_sound
    | with_reducible refine Sound.snd_of (by with_reducible assumption) ?_
    | with_reducible refine Sound.thd_of (by with_reducible assumption) ?_
    | intro _
    | split
    | dsimp only
    | with_reducible refine Sound.of_mk ?_ rfl rfl rfl rfl rfl rfl rfl rfl rfl rfl rfl rfl rfl

theorem State.trialTimeout_sound {s : State} (hs : Sound p q s) :
    Sound p q (State.trialTimeout s) := by
  unfold State.trialTimeout
  repeat' first
    | with_reducible assumption
    | with_reducible apply foldl_sound
    | with_reducible apply State.deviceReset_sound
    | with_reducible refine Sound.snd_of (by with_reducible assumption) ?_
    | with_reducible refine Sound.thd_of (by with_reducible assumption) ?_
    | intro _
    | split
    | dsimp only
    | with_reducible refine Sound.of_mk ?_ rfl rfl rfl rfl rfl rfl rfl rfl rfl rfl rfl rfl rfl

theorem State.updCmdWrite_sound (a : RegAcc) {s : State} (hs : Sound p q s) :
    Sound p q (State.updCmdWrite a s) := by
  unfold State.updCmdWrite
  repeat' first
    | with_reducible assumption
    | with_reducible apply foldl_sound
    | with_reducible apply State.recErr_sound
    | with_reducible apply State.recAcc_sound
    | with_reducible apply State.recRefused_sound
    | with_reducible apply State.setUpd_sound
    | with_reducible refine Sound.snd_of (by with_reducible assumption) ?_
    | with_reducible refine Sound.thd_of (by with_reducible assumption) ?_
    | intro _
    | split
    | dsimp only
    | with_reducible refine Sound.of_mk ?_ rfl rfl rfl rfl rfl rfl rfl rfl rfl rfl rfl rfl rfl

theorem State.stage_sound {s : State} (r : UpdRun) (hs : Sound p q s) :
    Sound p q (State.stage s r).2 := by
  unfold State.stage
  repeat' first
    | with_reducible assumption
    | with_reducible apply foldl_sound
    | with_reducible apply State.readBuf_sound
    | with_reducible apply State.program_sound
    | with_reducible apply State.setUpd_sound
    | with_reducible refine Sound.snd_of (by with_reducible assumption) ?_
    | with_reducible refine Sound.thd_of (by with_reducible assumption) ?_
    | intro _
    | split
    | dsimp only
    | with_reducible refine Sound.of_mk ?_ rfl rfl rfl rfl rfl rfl rfl rfl rfl rfl rfl rfl rfl

theorem State.activate_sound {s : State} (r : UpdRun) (hs : Sound p q s) :
    Sound p q (State.activate s r) := by
  unfold State.activate
  repeat' first
    | with_reducible assumption
    | with_reducible apply foldl_sound
    | with_reducible apply State.writeBoot_sound
    | with_reducible apply State.setUpd_sound
    | with_reducible refine Sound.snd_of (by with_reducible assumption) ?_
    | with_reducible refine Sound.thd_of (by with_reducible assumption) ?_
    | intro _
    | split
    | dsimp only
    | with_reducible refine Sound.of_mk ?_ rfl rfl rfl rfl rfl rfl rfl rfl rfl rfl rfl rfl rfl

theorem State.abortSession_sound {s : State} (hs : Sound p q s) :
    Sound p q (State.abortSession s) := by
  unfold State.abortSession
  repeat' first
    | with_reducible assumption
    | with_reducible apply foldl_sound
    | with_reducible apply State.closeSession_sound
    | with_reducible apply State.settleBoot_sound
    | with_reducible refine Sound.snd_of (by with_reducible assumption) ?_
    | with_reducible refine Sound.thd_of (by with_reducible assumption) ?_
    | intro _
    | split
    | dsimp only
    | with_reducible refine Sound.of_mk ?_ rfl rfl rfl rfl rfl rfl rfl rfl rfl rfl rfl rfl rfl

theorem State.updCmdDone_sound {s : State} (genuine : Bool) (hs : Sound p q s) :
    Sound p q (State.updCmdDone s genuine) := by
  unfold State.updCmdDone
  repeat' first
    | with_reducible assumption
    | with_reducible apply foldl_sound
    | with_reducible apply State.setFld_sound
    | with_reducible apply State.event_sound
    | with_reducible apply State.recErr_sound
    | with_reducible apply State.deviceReset_sound
    | with_reducible apply State.updStat_sound
    | with_reducible apply State.setUpd_sound
    | with_reducible apply State.closeSession_sound
    | with_reducible apply State.stage_sound
    | with_reducible apply State.activate_sound
    | with_reducible apply State.abortSession_sound
    | with_reducible refine Sound.snd_of (by with_reducible assumption) ?_
    | with_reducible refine Sound.thd_of (by with_reducible assumption) ?_
    | intro _
    | split
    | dsimp only
    | with_reducible refine Sound.of_mk ?_ rfl rfl rfl rfl rfl rfl rfl rfl rfl rfl rfl rfl rfl

theorem State.updLockWrite_sound (a : RegAcc) {s : State} (hs : Sound p q s) :
    Sound p q (State.updLockWrite a s) := by
  unfold State.updLockWrite
  repeat' first
    | with_reducible assumption
    | with_reducible apply foldl_sound
    | with_reducible apply State.setFld_sound
    | with_reducible apply State.plainWrite_sound
    | with_reducible refine Sound.snd_of (by with_reducible assumption) ?_
    | with_reducible refine Sound.thd_of (by with_reducible assumption) ?_
    | intro _
    | split
    | dsimp only
    | with_reducible refine Sound.of_mk ?_ rfl rfl rfl rfl rfl rfl rfl rfl rfl rfl rfl rfl rfl

theorem State.sessionTimeout_sound {s : State} (hs : Sound p q s) :
    Sound p q (State.sessionTimeout s) := by
  unfold State.sessionTimeout
  repeat' first
    | with_reducible assumption
    | with_reducible apply foldl_sound
    | with_reducible apply State.loseSession_sound
    | with_reducible refine Sound.snd_of (by with_reducible assumption) ?_
    | with_reducible refine Sound.thd_of (by with_reducible assumption) ?_
    | intro _
    | split
    | dsimp only
    | with_reducible refine Sound.of_mk ?_ rfl rfl rfl rfl rfl rfl rfl rfl rfl rfl rfl rfl rfl

theorem State.loadTarget_sound {s : State} (t : Nat) (hs : Sound p q s) :
    Sound p q (State.loadTarget s t) := by
  unfold State.loadTarget
  repeat' first
    | with_reducible assumption
    | with_reducible apply foldl_sound
    | with_reducible apply State.panelStart_sound
    | with_reducible apply State.panelStopped_sound
    | with_reducible refine Sound.snd_of (by with_reducible assumption) ?_
    | with_reducible refine Sound.thd_of (by with_reducible assumption) ?_
    | intro _
    | split
    | dsimp only
    | with_reducible refine Sound.of_mk ?_ rfl rfl rfl rfl rfl rfl rfl rfl rfl rfl rfl rfl rfl

theorem State.beginTarget_sound {s : State} (t : Nat) (hs : Sound p q s) :
    Sound p q (State.beginTarget s t) := by
  unfold State.beginTarget
  repeat' first
    | with_reducible assumption
    | with_reducible apply foldl_sound
    | with_reducible apply State.endStreams_sound
    | with_reducible refine Sound.snd_of (by with_reducible assumption) ?_
    | with_reducible refine Sound.thd_of (by with_reducible assumption) ?_
    | intro _
    | split
    | dsimp only
    | with_reducible refine Sound.of_mk ?_ rfl rfl rfl rfl rfl rfl rfl rfl rfl rfl rfl rfl rfl

theorem State.microLoad_sound {s0 : State} (ok : Bool) (hs0 : Sound p q s0) :
    Sound p q (State.microLoad s0 ok) := by
  unfold State.microLoad
  repeat' first
    | with_reducible assumption
    | with_reducible apply foldl_sound
    | with_reducible apply State.setLoaded_sound
    | with_reducible apply State.closeSession_sound
    | with_reducible apply State.confirmImage_sound
    | with_reducible apply State.revertImage_sound
    | with_reducible apply State.loadTarget_sound
    | with_reducible apply State.beginTarget_sound
    | with_reducible refine Sound.snd_of (by with_reducible assumption) ?_
    | with_reducible refine Sound.thd_of (by with_reducible assumption) ?_
    | intro _
    | split
    | dsimp only
    | with_reducible refine Sound.of_mk ?_ rfl rfl rfl rfl rfl rfl rfl rfl rfl rfl rfl rfl rfl

theorem State.handoverReadyRestart_sound {s : State} (x1 : FlitHdr) (hs : Sound p q s) :
    Sound p q (State.handoverReadyRestart s x1) := by
  unfold State.handoverReadyRestart
  repeat' first
    | with_reducible assumption
    | with_reducible apply foldl_sound
    | with_reducible apply State.accept_sound
    | with_reducible apply State.handoverReady_sound
    | with_reducible apply State.deviceReset_sound
    | with_reducible refine Sound.snd_of (by with_reducible assumption) ?_
    | with_reducible refine Sound.thd_of (by with_reducible assumption) ?_
    | intro _
    | split
    | dsimp only
    | with_reducible refine Sound.of_mk ?_ rfl rfl rfl rfl rfl rfl rfl rfl rfl rfl rfl rfl rfl

end Sys2Proof.Machine
end

