-- ==== Sys2Proof/Laws/SoundFnReset.lean ====
section
/-! SUPPORT. Every operation of Machine/FnReset.lean keeps the invariant of Safety.lean. -/

namespace Sys2Proof.Machine

set_option Elab.async false
set_option linter.all false

variable {p : Part} {q : List Instr}


theorem Sound.someRegs {s : State} {f : Nat × Word32 → Bool} (hs : Sound p q s) : Sound p q { s with regs := s.regs.filter f } :=
  ⟨hs.part, hs.queue, hs.mem, Sparse.wf_filter _ hs.regs, hs.shad, hs.copyRegs, hs.copyShad, hs.flash, hs.time, hs.jobs, hs.tables⟩

theorem State.showFn_sound {s : State} (f : Nat) (hs : Sound p q s) :
    Sound p q (State.showFn s f) := by
  unfold State.showFn
  repeat' first
    | with_reducible assumption
    | with_reducible apply foldl_sound
    | with_reducible apply State.setFld_sound
    | with_reducible refine Sound.snd_of (by with_reducible assumption) ?_
    | with_reducible refine Sound.thd_of (by with_reducible assumption) ?_
    | intro _
    | split
    | dsimp only
    | with_reducible refine Sound.of_mk ?_ rfl rfl rfl rfl rfl rfl rfl rfl rfl rfl rfl rfl rfl

theorem State.idleQueues_sound {s : State} (f : Nat) (hs : Sound p q s) :
    Sound p q (State.idleQueues s f) := by
  unfold State.idleQueues
  repeat' first
    | with_reducible assumption
    | with_reducible apply foldl_sound
    | with_reducible apply State.setFld_sound
    | with_reducible apply State.setQueue_sound
    | with_reducible refine Sound.snd_of (by with_reducible assumption) ?_
    | with_reducible refine Sound.thd_of (by with_reducible assumption) ?_
    | intro _
    | split
    | dsimp only
    | with_reducible refine Sound.of_mk ?_ rfl rfl rfl rfl rfl rfl rfl rfl rfl rfl rfl rfl rfl

theorem State.resetVfPage_sound {s : State} (f : Nat) (hs : Sound p q s) :
    Sound p q (State.resetVfPage s f) := by
  unfold State.resetVfPage
  repeat' first
    | with_reducible assumption
    | with_reducible apply foldl_sound
    | with_reducible apply State.resetPage_sound
    | with_reducible refine Sound.snd_of (by with_reducible assumption) ?_
    | with_reducible refine Sound.thd_of (by with_reducible assumption) ?_
    | intro _
    | split
    | dsimp only
    | with_reducible refine Sound.of_mk ?_ rfl rfl rfl rfl rfl rfl rfl rfl rfl rfl rfl rfl rfl

theorem State.resetQueueRegs_sound {s : State} (f : Nat) (hs : Sound p q s) :
    Sound p q (State.resetQueueRegs s f) := by
  unfold State.resetQueueRegs
  repeat' first
    | with_reducible refine Sound.someRegs ?_
    | with_reducible assumption
    | with_reducible apply foldl_sound
    | with_reducible refine Sound.snd_of (by with_reducible assumption) ?_
    | with_reducible refine Sound.thd_of (by with_reducible assumption) ?_
    | intro _
    | split
    | dsimp only
    | with_reducible refine Sound.of_mk ?_ rfl rfl rfl rfl rfl rfl rfl rfl rfl rfl rfl rfl rfl

theorem State.enableFn_sound {s : State} (f : Nat) (hs : Sound p q s) :
    Sound p q (State.enableFn s f) := by
  unfold State.enableFn
  repeat' first
    | with_reducible assumption
    | with_reducible apply foldl_sound
    | with_reducible apply State.event_sound
    | with_reducible apply State.setFn_sound
    | with_reducible apply State.showFn_sound
    | with_reducible apply State.idleQueues_sound
    | with_reducible apply State.resetVfPage_sound
    | with_reducible apply State.resetQueueRegs_sound
    | with_reducible refine Sound.snd_of (by with_reducible assumption) ?_
    | with_reducible refine Sound.thd_of (by with_reducible assumption) ?_
    | intro _
    | split
    | dsimp only
    | with_reducible refine Sound.of_mk ?_ rfl rfl rfl rfl rfl rfl rfl rfl rfl rfl rfl rfl rfl

theorem State.squashFn_sound {s : State} (f : Nat) (hs : Sound p q s) :
    Sound p q (State.squashFn s f) := by
  unfold State.squashFn
  repeat' first
    | with_reducible assumption
    | with_reducible apply foldl_sound
    | with_reducible apply State.dropFnCommits_sound
    | with_reducible apply State.ingSquash_sound
    | with_reducible apply State.cvuSquash_sound
    | with_reducible apply State.hapResetFn_sound
    | with_reducible apply State.audResetFn_sound
    | with_reducible refine Sound.snd_of (by with_reducible assumption) ?_
    | with_reducible refine Sound.thd_of (by with_reducible assumption) ?_
    | intro _
    | split
    | dsimp only
    | with_reducible refine Sound.of_mk ?_ rfl rfl rfl rfl rfl rfl rfl rfl rfl rfl rfl rfl rfl

theorem State.forgetJobs_sound {s : State} (f : Nat) (hs : Sound p q s) :
    Sound p q (State.forgetJobs s f) := by
  unfold State.forgetJobs
  repeat' first
    | with_reducible assumption
    | with_reducible apply foldl_sound
    | with_reducible apply State.setQueue_sound
    | with_reducible apply State.keepJobs_sound
    | with_reducible refine Sound.snd_of (by with_reducible assumption) ?_
    | with_reducible refine Sound.thd_of (by with_reducible assumption) ?_
    | intro _
    | split
    | dsimp only
    | with_reducible refine Sound.of_mk ?_ rfl rfl rfl rfl rfl rfl rfl rfl rfl rfl rfl rfl rfl

theorem State.forgetOwed_sound {s : State} (f : Nat) (hs : Sound p q s) :
    Sound p q (State.forgetOwed s f) := by
  unfold State.forgetOwed
  repeat' first
    | with_reducible assumption
    | with_reducible apply foldl_sound
    | with_reducible apply State.keepJobs_sound
    | with_reducible refine Sound.snd_of (by with_reducible assumption) ?_
    | with_reducible refine Sound.thd_of (by with_reducible assumption) ?_
    | intro _
    | split
    | dsimp only
    | with_reducible refine Sound.of_mk ?_ rfl rfl rfl rfl rfl rfl rfl rfl rfl rfl rfl rfl rfl

theorem State.startReset_sound {s : State} (f : Nat) (cause : Nat) (bus : Bool) (hpPage : Bool) (jid : Option Nat) (hs : Sound p q s) :
    Sound p q (State.startReset s f cause bus hpPage jid) := by
  unfold State.startReset
  repeat' first
    | with_reducible assumption
    | with_reducible apply foldl_sound
    | with_reducible apply State.event_sound
    | with_reducible apply State.setFn_sound
    | with_reducible apply State.updFnReset_sound
    | with_reducible apply State.showFn_sound
    | with_reducible apply State.squashFn_sound
    | with_reducible apply State.forgetJobs_sound
    | with_reducible apply State.forgetOwed_sound
    | with_reducible refine Sound.snd_of (by with_reducible assumption) ?_
    | with_reducible refine Sound.thd_of (by with_reducible assumption) ?_
    | intro _
    | split
    | dsimp only
    | with_reducible refine Sound.of_mk ?_ rfl rfl rfl rfl rfl rfl rfl rfl rfl rfl rfl rfl rfl

theorem State.carryFnReset_sound (j : Job) {s : State} (hs : Sound p q s) :
    Sound p q (State.carryFnReset j s) := by
  unfold State.carryFnReset
  repeat' first
    | with_reducible assumption
    | with_reducible apply foldl_sound
    | with_reducible apply State.complete_sound
    | with_reducible apply State.startReset_sound
    | with_reducible refine Sound.snd_of (by with_reducible assumption) ?_
    | with_reducible refine Sound.thd_of (by with_reducible assumption) ?_
    | intro _
    | split
    | dsimp only
    | with_reducible refine Sound.of_mk ?_ rfl rfl rfl rfl rfl rfl rfl rfl rfl rfl rfl rfl rfl

theorem State.clearVfEnable_sound {s : State} (x1 : Nat) (hs : Sound p q s) :
    Sound p q (State.clearVfEnable s x1) := by
  unfold State.clearVfEnable
  repeat' first
    | with_reducible assumption
    | with_reducible apply foldl_sound
    | with_reducible apply State.setFld_sound
    | with_reducible apply State.startReset_sound
    | with_reducible refine Sound.snd_of (by with_reducible assumption) ?_
    | with_reducible refine Sound.thd_of (by with_reducible assumption) ?_
    | intro _
    | split
    | dsimp only
    | with_reducible refine Sound.of_mk ?_ rfl rfl rfl rfl rfl rfl rfl rfl rfl rfl rfl rfl rfl

theorem State.flr_sound {s : State} (f : Nat) (hs : Sound p q s) :
    Sound p q (State.flr s f) := by
  unfold State.flr
  repeat' first
    | with_reducible assumption
    | with_reducible apply foldl_sound
    | with_reducible apply State.startReset_sound
    | with_reducible apply State.clearVfEnable_sound
    | with_reducible refine Sound.snd_of (by with_reducible assumption) ?_
    | with_reducible refine Sound.thd_of (by with_reducible assumption) ?_
    | intro _
    | split
    | dsimp only
    | with_reducible refine Sound.of_mk ?_ rfl rfl rfl rfl rfl rfl rfl rfl rfl rfl rfl rfl rfl

theorem State.setVfEnable_sound {s : State} (x1 : Nat) (n : Nat) (hs : Sound p q s) :
    Sound p q (State.setVfEnable s x1 n) := by
  unfold State.setVfEnable
  repeat' first
    | with_reducible assumption
    | with_reducible apply foldl_sound
    | with_reducible apply State.setFld_sound
    | with_reducible apply State.enableFn_sound
    | with_reducible refine Sound.snd_of (by with_reducible assumption) ?_
    | with_reducible refine Sound.thd_of (by with_reducible assumption) ?_
    | intro _
    | split
    | dsimp only
    | with_reducible refine Sound.of_mk ?_ rfl rfl rfl rfl rfl rfl rfl rfl rfl rfl rfl rfl rfl

theorem State.dropAllocs_sound {s : State} (f : Nat) (hs : Sound p q s) :
    Sound p q (State.dropAllocs s f) := by
  unfold State.dropAllocs
  repeat' first
    | with_reducible assumption
    | with_reducible apply foldl_sound
    | with_reducible apply State.setBuf_sound
    | with_reducible refine Sound.snd_of (by with_reducible assumption) ?_
    | with_reducible refine Sound.thd_of (by with_reducible assumption) ?_
    | intro _
    | split
    | dsimp only
    | with_reducible refine Sound.of_mk ?_ rfl rfl rfl rfl rfl rfl rfl rfl rfl rfl rfl rfl rfl

theorem State.destroyFnChans_sound {s : State} (f : Nat) (hs : Sound p q s) :
    Sound p q (State.destroyFnChans s f) := by
  unfold State.destroyFnChans
  repeat' first
    | with_reducible assumption
    | with_reducible apply foldl_sound
    | with_reducible apply State.mirror_sound
    | with_reducible apply State.destroyChan_sound
    | with_reducible apply State.dropAllocs_sound
    | with_reducible refine Sound.snd_of (by with_reducible assumption) ?_
    | with_reducible refine Sound.thd_of (by with_reducible assumption) ?_
    | intro _
    | split
    | dsimp only
    | with_reducible refine Sound.of_mk ?_ rfl rfl rfl rfl rfl rfl rfl rfl rfl rfl rfl rfl rfl

theorem State.releaseFnSlots_sound {s : State} (f : Nat) (hs : Sound p q s) :
    Sound p q (State.releaseFnSlots s f) := by
  unfold State.releaseFnSlots
  repeat' first
    | with_reducible assumption
    | with_reducible apply foldl_sound
    | with_reducible apply State.releaseSlot_sound
    | with_reducible refine Sound.snd_of (by with_reducible assumption) ?_
    | with_reducible refine Sound.thd_of (by with_reducible assumption) ?_
    | intro _
    | split
    | dsimp only
    | with_reducible refine Sound.of_mk ?_ rfl rfl rfl rfl rfl rfl rfl rfl rfl rfl rfl rfl rfl

theorem State.poolStep_sound {s : State} (f : Nat) (hs : Sound p q s) :
    Sound p q (State.poolStep s f) := by
  unfold State.poolStep
  repeat' first
    | with_reducible assumption
    | with_reducible apply foldl_sound
    | with_reducible apply State.event_sound
    | with_reducible apply State.setFn_sound
    | with_reducible apply State.destroyFnChans_sound
    | with_reducible apply State.releaseFnSlots_sound
    | with_reducible refine Sound.snd_of (by with_reducible assumption) ?_
    | with_reducible refine Sound.thd_of (by with_reducible assumption) ?_
    | intro _
    | split
    | dsimp only
    | with_reducible refine Sound.of_mk ?_ rfl rfl rfl rfl rfl rfl rfl rfl rfl rfl rfl rfl rfl

theorem State.queueStep_sound {s : State} (f : Nat) (hs : Sound p q s) :
    Sound p q (State.queueStep s f) := by
  unfold State.queueStep
  repeat' first
    | with_reducible assumption
    | with_reducible apply foldl_sound
    | with_reducible apply State.event_sound
    | with_reducible apply State.post_sound
    | with_reducible apply State.complete_sound
    | with_reducible apply State.resetPage_sound
    | with_reducible apply State.setFn_sound
    | with_reducible apply State.deliverPending_sound
    | with_reducible apply State.showFn_sound
    | with_reducible apply State.idleQueues_sound
    | with_reducible apply State.resetVfPage_sound
    | with_reducible apply State.forgetJobs_sound
    | with_reducible refine Sound.snd_of (by with_reducible assumption) ?_
    | with_reducible refine Sound.thd_of (by with_reducible assumption) ?_
    | intro _
    | split
    | dsimp only
    | with_reducible refine Sound.of_mk ?_ rfl rfl rfl rfl rfl rfl rfl rfl rfl rfl rfl rfl rfl

theorem State.hpReset_sound (x0 : Nat) {s : State} (hs : Sound p q s) :
    Sound p q (State.hpReset x0 s) := by
  unfold State.hpReset
  repeat' first
    | with_reducible assumption
    | with_reducible apply foldl_sound
    | with_reducible apply State.resetPage_sound
    | with_reducible apply State.startReset_sound
    | with_reducible refine Sound.snd_of (by with_reducible assumption) ?_
    | with_reducible refine Sound.thd_of (by with_reducible assumption) ?_
    | intro _
    | split
    | dsimp only
    | with_reducible refine Sound.of_mk ?_ rfl rfl rfl rfl rfl rfl rfl rfl rfl rfl rfl rfl rfl

theorem State.pfResetWrite_sound (a : RegAcc) {s : State} (hs : Sound p q s) :
    Sound p q (State.pfResetWrite a s) := by
  unfold State.pfResetWrite
  repeat' first
    | with_reducible assumption
    | with_reducible apply foldl_sound
    | with_reducible apply State.recRefused_sound
    | with_reducible apply State.startReset_sound
    | with_reducible refine Sound.snd_of (by with_reducible assumption) ?_
    | with_reducible refine Sound.thd_of (by with_reducible assumption) ?_
    | intro _
    | split
    | dsimp only
    | with_reducible refine Sound.of_mk ?_ rfl rfl rfl rfl rfl rfl rfl rfl rfl rfl rfl rfl rfl

theorem State.vfCtrlWrite_sound (a : RegAcc) (fn : Nat) {s : State} (hs : Sound p q s) :
    Sound p q (State.vfCtrlWrite a fn s) := by
  unfold State.vfCtrlWrite
  repeat' first
    | with_reducible assumption
    | with_reducible apply foldl_sound
    | with_reducible apply State.setFld_sound
    | with_reducible apply State.recRefused_sound
    | with_reducible apply State.startReset_sound
    | with_reducible refine Sound.snd_of (by with_reducible assumption) ?_
    | with_reducible refine Sound.thd_of (by with_reducible assumption) ?_
    | intro _
    | split
    | dsimp only
    | with_reducible refine Sound.of_mk ?_ rfl rfl rfl rfl rfl rfl rfl rfl rfl rfl rfl rfl rfl

theorem State.fnLinkDown_sound {s : State} (f : Nat) (hs : Sound p q s) :
    Sound p q (State.fnLinkDown s f) := by
  unfold State.fnLinkDown
  repeat' first
    | with_reducible assumption
    | with_reducible apply foldl_sound
    | with_reducible apply State.setFn_sound
    | with_reducible apply State.updFnReset_sound
    | with_reducible apply State.showFn_sound
    | with_reducible apply State.idleQueues_sound
    | with_reducible apply State.squashFn_sound
    | with_reducible apply State.forgetJobs_sound
    | with_reducible refine Sound.snd_of (by with_reducible assumption) ?_
    | with_reducible refine Sound.thd_of (by with_reducible assumption) ?_
    | intro _
    | split
    | dsimp only
    | with_reducible refine Sound.of_mk ?_ rfl rfl rfl rfl rfl rfl rfl rfl rfl rfl rfl rfl rfl

theorem State.portLinkDown_sound {s : State} (x1 : Nat) (hs : Sound p q s) :
    Sound p q (State.portLinkDown s x1) := by
  unfold State.portLinkDown
  repeat' first
    | with_reducible assumption
    | with_reducible apply foldl_sound
    | with_reducible apply State.setRw_sound
    | with_reducible apply State.setFld_sound
    | with_reducible apply State.satFld_sound
    | with_reducible apply State.event_sound
    | with_reducible apply State.fnLinkDown_sound
    | with_reducible refine Sound.snd_of (by with_reducible assumption) ?_
    | with_reducible refine Sound.thd_of (by with_reducible assumption) ?_
    | intro _
    | split
    | dsimp only
    | with_reducible refine Sound.of_mk ?_ rfl rfl rfl rfl rfl rfl rfl rfl rfl rfl rfl rfl rfl

theorem State.portLinkUp_sound {s : State} (x1 : Nat) (speed : Nat) (width : Nat) (hs : Sound p q s) :
    Sound p q (State.portLinkUp s x1 speed width) := by
  unfold State.portLinkUp
  repeat' first
    | with_reducible assumption
    | with_reducible apply foldl_sound
    | with_reducible apply State.setFld_sound
    | with_reducible apply State.event_sound
    | with_reducible apply State.enableFn_sound
    | with_reducible refine Sound.snd_of (by with_reducible assumption) ?_
    | with_reducible refine Sound.thd_of (by with_reducible assumption) ?_
    | intro _
    | split
    | dsimp only
    | with_reducible refine Sound.of_mk ?_ rfl rfl rfl rfl rfl rfl rfl rfl rfl rfl rfl rfl rfl

end Sys2Proof.Machine
end

