-- ==== Sys2Proof/Laws/SoundFaults.lean ====
section
/-! SUPPORT. Every operation of Machine/Faults.lean keeps the invariant of Safety.lean. -/

namespace Sys2Proof.Machine

set_option Elab.async false
set_option linter.all false

variable {p : Part} {q : List Instr}


theorem Sound.noJobs {s : State} {b : Bool} (hs : Sound p q s) :
    Sound p q { s with hosts := { s.hosts with jobs := [], coreEntries := [], fetchStopped := b } } :=
  ⟨hs.part, hs.queue, hs.mem, hs.regs, hs.shad, hs.copyRegs, hs.copyShad, hs.flash, hs.time, by simp, hs.tables⟩

theorem State.fatalRecord_sound {s : State} (source : Nat) (code : Nat) (pg : Page) (info : Nat) (fn : Nat) (hs : Sound p q s) :
    Sound p q (State.fatalRecord s source code pg info fn) := by
  unfold State.fatalRecord
  repeat' first
    | with_reducible assumption
    | with_reducible apply foldl_sound
    | with_reducible apply State.report_sound
    | with_reducible apply State.writeTail_sound
    | with_reducible refine Sound.snd_of (by with_reducible assumption) ?_
    | with_reducible refine Sound.thd_of (by with_reducible assumption) ?_
    | intro _
    | split
    | dsimp only
    | with_reducible refine Sound.of_mk ?_ rfl rfl rfl rfl rfl rfl rfl rfl rfl rfl rfl rfl rfl

theorem State.squashAll_sound {s : State} (hs : Sound p q s) :
    Sound p q (State.squashAll s) := by
  unfold State.squashAll
  repeat' first
    | with_reducible refine Sound.noJobs ?_
    | with_reducible assumption
    | with_reducible apply foldl_sound
    | with_reducible apply State.ingSquash_sound
    | with_reducible apply State.cvuSquash_sound
    | with_reducible refine Sound.snd_of (by with_reducible assumption) ?_
    | with_reducible refine Sound.thd_of (by with_reducible assumption) ?_
    | intro _
    | split
    | dsimp only
    | with_reducible refine Sound.of_mk ?_ rfl rfl rfl rfl rfl rfl rfl rfl rfl rfl rfl rfl rfl

theorem State.idleAll_sound {s : State} (hs : Sound p q s) :
    Sound p q (State.idleAll s) := by
  unfold State.idleAll
  repeat' first
    | with_reducible assumption
    | with_reducible apply foldl_sound
    | with_reducible apply State.dplDead_sound
    | with_reducible apply State.setTouch_sound
    | with_reducible apply State.hapSilence_sound
    | with_reducible apply State.audKill_sound
    | with_reducible apply State.linkDown_sound
    | with_reducible apply State.portLinkDown_sound
    | with_reducible refine Sound.snd_of (by with_reducible assumption) ?_
    | with_reducible refine Sound.thd_of (by with_reducible assumption) ?_
    | intro _
    | split
    | dsimp only
    | with_reducible refine Sound.of_mk ?_ rfl rfl rfl rfl rfl rfl rfl rfl rfl rfl rfl rfl rfl

theorem State.deviceFatal_sound {s : State} (source : Nat) (code : Nat) (pg : Page) (info : Nat) (fn : Nat) (hs : Sound p q s) :
    Sound p q (State.deviceFatal s source code pg info fn) := by
  unfold State.deviceFatal
  repeat' first
    | with_reducible assumption
    | with_reducible apply foldl_sound
    | with_reducible apply State.fatalRecord_sound
    | with_reducible apply State.squashAll_sound
    | with_reducible apply State.idleAll_sound
    | with_reducible refine Sound.snd_of (by with_reducible assumption) ?_
    | with_reducible refine Sound.thd_of (by with_reducible assumption) ?_
    | intro _
    | split
    | dsimp only
    | with_reducible refine Sound.of_mk ?_ rfl rfl rfl rfl rfl rfl rfl rfl rfl rfl rfl rfl rfl

theorem State.fatalSource_sound {s : State} (source : Nat) (hs : Sound p q s) :
    Sound p q (State.fatalSource s source) := by
  unfold State.fatalSource
  repeat' first
    | with_reducible assumption
    | with_reducible apply foldl_sound
    | with_reducible apply State.deviceFatal_sound
    | with_reducible refine Sound.snd_of (by with_reducible assumption) ?_
    | with_reducible refine Sound.thd_of (by with_reducible assumption) ?_
    | intro _
    | split
    | dsimp only
    | with_reducible refine Sound.of_mk ?_ rfl rfl rfl rfl rfl rfl rfl rfl rfl rfl rfl rfl rfl

theorem State.fatalRestart_sound {s : State} (hs : Sound p q s) :
    Sound p q (State.fatalRestart s) := by
  unfold State.fatalRestart
  repeat' first
    | with_reducible assumption
    | with_reducible apply foldl_sound
    | with_reducible apply State.deviceReset_sound
    | with_reducible refine Sound.snd_of (by with_reducible assumption) ?_
    | with_reducible refine Sound.thd_of (by with_reducible assumption) ?_
    | intro _
    | split
    | dsimp only
    | with_reducible refine Sound.of_mk ?_ rfl rfl rfl rfl rfl rfl rfl rfl rfl rfl rfl rfl rfl

theorem State.stopBlock_sound {s : State} (pg : Page) (hs : Sound p q s) :
    Sound p q (State.stopBlock s pg) := by
  unfold State.stopBlock
  repeat' first
    | with_reducible assumption
    | with_reducible apply foldl_sound
    | with_reducible apply State.setFld_sound
    | with_reducible apply State.ingSquash_sound
    | with_reducible apply State.cvuSquash_sound
    | with_reducible apply State.setTouch_sound
    | with_reducible apply State.hapSilence_sound
    | with_reducible apply State.audKill_sound
    | with_reducible apply State.linkDown_sound
    | with_reducible refine Sound.snd_of (by with_reducible assumption) ?_
    | with_reducible refine Sound.thd_of (by with_reducible assumption) ?_
    | intro _
    | split
    | dsimp only
    | with_reducible refine Sound.of_mk ?_ rfl rfl rfl rfl rfl rfl rfl rfl rfl rfl rfl rfl rfl

theorem State.stopCore_sound {s : State} (k : Nat) (jid : Option Nat) (hs : Sound p q s) :
    Sound p q (State.stopCore s k jid) := by
  unfold State.stopCore
  repeat' first
    | with_reducible assumption
    | with_reducible apply foldl_sound
    | with_reducible apply State.complete_sound
    | with_reducible apply State.scrub_sound
    | with_reducible refine Sound.snd_of (by with_reducible assumption) ?_
    | with_reducible refine Sound.thd_of (by with_reducible assumption) ?_
    | intro _
    | split
    | dsimp only
    | with_reducible refine Sound.of_mk ?_ rfl rfl rfl rfl rfl rfl rfl rfl rfl rfl rfl rfl rfl

theorem State.gateEntry_sound {s : State} (k : Nat) (addr : Nat) (jid : Option Nat) (hs : Sound p q s) :
    Sound p q (State.gateEntry s k addr jid) := by
  unfold State.gateEntry
  repeat' first
    | with_reducible assumption
    | with_reducible apply foldl_sound
    | with_reducible apply State.addFld_sound
    | with_reducible apply State.pmcCount_sound
    | with_reducible apply State.reportContained_sound
    | with_reducible apply State.setCore_sound
    | with_reducible apply State.freezeCore_sound
    | with_reducible apply State.markCore_sound
    | with_reducible apply State.stopCore_sound
    | with_reducible refine Sound.snd_of (by with_reducible assumption) ?_
    | with_reducible refine Sound.thd_of (by with_reducible assumption) ?_
    | intro _
    | split
    | dsimp only
    | with_reducible refine Sound.of_mk ?_ rfl rfl rfl rfl rfl rfl rfl rfl rfl rfl rfl rfl rfl

theorem State.sramError_sound {s : State} (kind : Nat) (hs : Sound p q s) :
    Sound p q (State.sramError s kind) := by
  unfold State.sramError
  repeat' first
    | with_reducible assumption
    | with_reducible apply foldl_sound
    | with_reducible apply State.satFld_sound
    | with_reducible apply State.event_sound
    | with_reducible refine Sound.snd_of (by with_reducible assumption) ?_
    | with_reducible refine Sound.thd_of (by with_reducible assumption) ?_
    | intro _
    | split
    | dsimp only
    | with_reducible refine Sound.of_mk ?_ rfl rfl rfl rfl rfl rfl rfl rfl rfl rfl rfl rfl rfl

theorem State.onDie_sound {s : State} (x1 : FaultAct) (hs : Sound p q s) :
    Sound p q (State.onDie s x1) := by
  unfold State.onDie
  repeat' first
    | with_reducible assumption
    | with_reducible apply foldl_sound
    | with_reducible apply State.setDisp_sound
    | with_reducible refine Sound.snd_of (by with_reducible assumption) ?_
    | with_reducible refine Sound.thd_of (by with_reducible assumption) ?_
    | intro _
    | split
    | dsimp only
    | with_reducible refine Sound.of_mk ?_ rfl rfl rfl rfl rfl rfl rfl rfl rfl rfl rfl rfl rfl

theorem State.faultReport_sound {s : State} (src : Nat) (sram : Nat) (cls : Nat) (code : Nat) (info : Nat) (fn : Nat) (act : FaultAct) (hs : Sound p q s) :
    Sound p q (State.faultReport s src sram cls code info fn act) := by
  unfold State.faultReport
  repeat' first
    | with_reducible assumption
    | with_reducible apply foldl_sound
    | with_reducible apply State.report_sound
    | with_reducible apply State.reportContained_sound
    | with_reducible apply State.containOutput_sound
    | with_reducible apply State.deviceFatal_sound
    | with_reducible apply State.stopBlock_sound
    | with_reducible apply State.stopCore_sound
    | with_reducible apply State.sramError_sound
    | with_reducible apply State.onDie_sound
    | with_reducible refine Sound.snd_of (by with_reducible assumption) ?_
    | with_reducible refine Sound.thd_of (by with_reducible assumption) ?_
    | intro _
    | split
    | dsimp only
    | with_reducible refine Sound.of_mk ?_ rfl rfl rfl rfl rfl rfl rfl rfl rfl rfl rfl rfl rfl

theorem State.retrainEnd_sound {s : State} (n : Nat) (pause : Nat) (eyes : Option (Nat × Nat)) (readBack : Bool) (hs : Sound p q s) :
    Sound p q (State.retrainEnd s n pause eyes readBack) := by
  unfold State.retrainEnd
  repeat' first
    | with_reducible assumption
    | with_reducible apply foldl_sound
    | with_reducible apply State.setFld_sound
    | with_reducible apply State.addFld_sound
    | with_reducible apply State.satFld_sound
    | with_reducible apply State.event_sound
    | with_reducible apply State.recErr_sound
    | with_reducible apply State.reportCorrected_sound
    | with_reducible apply State.setDmc_sound
    | with_reducible apply State.deviceFatal_sound
    | with_reducible refine Sound.snd_of (by with_reducible assumption) ?_
    | with_reducible refine Sound.thd_of (by with_reducible assumption) ?_
    | intro _
    | split
    | dsimp only
    | with_reducible refine Sound.of_mk ?_ rfl rfl rfl rfl rfl rfl rfl rfl rfl rfl rfl rfl rfl

theorem State.stopChannel_sound (n : Nat) {s : State} (hs : Sound p q s) :
    Sound p q (State.stopChannel n s) := by
  unfold State.stopChannel
  repeat' first
    | with_reducible assumption
    | with_reducible apply foldl_sound
    | with_reducible apply State.setFld_sound
    | with_reducible apply State.setDmc_sound
    | with_reducible apply State.deviceFatal_sound
    | with_reducible refine Sound.snd_of (by with_reducible assumption) ?_
    | with_reducible refine Sound.thd_of (by with_reducible assumption) ?_
    | intro _
    | split
    | dsimp only
    | with_reducible refine Sound.of_mk ?_ rfl rfl rfl rfl rfl rfl rfl rfl rfl rfl rfl rfl rfl

theorem State.dmcEnable_sound (a : RegAcc) (on : Bool) {s : State} (hs : Sound p q s) :
    Sound p q (State.dmcEnable a on s) := by
  unfold State.dmcEnable
  repeat' first
    | with_reducible assumption
    | with_reducible apply foldl_sound
    | with_reducible apply State.recAcc_sound
    | with_reducible apply State.plainEnable_sound
    | with_reducible apply State.stopChannel_sound
    | with_reducible refine Sound.snd_of (by with_reducible assumption) ?_
    | with_reducible refine Sound.thd_of (by with_reducible assumption) ?_
    | intro _
    | split
    | dsimp only
    | with_reducible refine Sound.of_mk ?_ rfl rfl rfl rfl rfl rfl rfl rfl rfl rfl rfl rfl rfl

theorem State.dmcReset_sound (a : RegAcc) {s : State} (hs : Sound p q s) :
    Sound p q (State.dmcReset a s) := by
  unfold State.dmcReset
  repeat' first
    | with_reducible assumption
    | with_reducible apply foldl_sound
    | with_reducible apply State.recAcc_sound
    | with_reducible apply State.resetPage_sound
    | with_reducible apply State.stopChannel_sound
    | with_reducible refine Sound.snd_of (by with_reducible assumption) ?_
    | with_reducible refine Sound.thd_of (by with_reducible assumption) ?_
    | intro _
    | split
    | dsimp only
    | with_reducible refine Sound.of_mk ?_ rfl rfl rfl rfl rfl rfl rfl rfl rfl rfl rfl rfl rfl

theorem State.logCtrlWrite_sound (a : RegAcc) {s : State} (hs : Sound p q s) :
    Sound p q (State.logCtrlWrite a s) := by
  unfold State.logCtrlWrite
  repeat' first
    | with_reducible assumption
    | with_reducible apply foldl_sound
    | with_reducible apply State.setFld_sound
    | with_reducible apply State.plainWrite_sound
    | with_reducible refine Sound.snd_of (by with_reducible assumption) ?_
    | with_reducible refine Sound.thd_of (by with_reducible assumption) ?_
    | intro _
    | split
    | dsimp only
    | with_reducible refine Sound.of_mk ?_ rfl rfl rfl rfl rfl rfl rfl rfl rfl rfl rfl rfl rfl

theorem State.thermtrip_sound {s : State} (hs : Sound p q s) :
    Sound p q (State.thermtrip s) := by
  unfold State.thermtrip
  repeat' first
    | with_reducible assumption
    | with_reducible apply foldl_sound
    | with_reducible refine Sound.snd_of (by with_reducible assumption) ?_
    | with_reducible refine Sound.thd_of (by with_reducible assumption) ?_
    | intro _
    | split
    | dsimp only
    | with_reducible refine Sound.of_mk ?_ rfl rfl rfl rfl rfl rfl rfl rfl rfl rfl rfl rfl rfl

theorem State.sysResetWrite_sound (a : RegAcc) {s : State} (hs : Sound p q s) :
    Sound p q (State.sysResetWrite a s) := by
  unfold State.sysResetWrite
  repeat' first
    | with_reducible assumption
    | with_reducible apply foldl_sound
    | with_reducible apply State.recRefused_sound
    | with_reducible apply State.deviceReset_sound
    | with_reducible refine Sound.snd_of (by with_reducible assumption) ?_
    | with_reducible refine Sound.thd_of (by with_reducible assumption) ?_
    | intro _
    | split
    | dsimp only
    | with_reducible refine Sound.of_mk ?_ rfl rfl rfl rfl rfl rfl rfl rfl rfl rfl rfl rfl rfl

end Sys2Proof.Machine
end

