-- ==== Sys2Proof/Laws/SoundViews.lean ====
section
/-! SUPPORT. Every operation of Machine/Views.lean keeps the invariant of Safety.lean. -/

namespace Sys2Proof.Machine

set_option Elab.async false
set_option linter.all false

variable {p : Part} {q : List Instr}

theorem State.afterRead_sound {s : State} (a : RegAcc) (hs : Sound p q s) :
    Sound p q (State.afterRead s a) := by
  unfold State.afterRead
  repeat' first
    | with_reducible assumption
    | with_reducible apply foldl_sound
    | with_reducible apply State.addFld_sound
    | with_reducible refine Sound.snd_of (by with_reducible assumption) ?_
    | with_reducible refine Sound.thd_of (by with_reducible assumption) ?_
    | intro _
    | split
    | dsimp only
    | with_reducible refine Sound.of_mk ?_ rfl rfl rfl rfl rfl rfl rfl rfl rfl rfl rfl rfl rfl

theorem State.plainRead_sound (a : RegAcc) {s : State} (hs : Sound p q s) :
    Sound p q (State.plainRead a s) := by
  unfold State.plainRead
  repeat' first
    | with_reducible assumption
    | with_reducible apply foldl_sound
    | with_reducible apply State.answerRead_sound
    | with_reducible apply State.latchWord_sound
    | with_reducible apply State.afterRead_sound
    | with_reducible refine Sound.snd_of (by with_reducible assumption) ?_
    | with_reducible refine Sound.thd_of (by with_reducible assumption) ?_
    | intro _
    | split
    | dsimp only
    | with_reducible refine Sound.of_mk ?_ rfl rfl rfl rfl rfl rfl rfl rfl rfl rfl rfl rfl rfl

end Sys2Proof.Machine
end

