-- ==== Sys2Proof/Laws/SoundPowerReq.lean ====
section
/-! SUPPORT. Every operation of Machine/PowerReq.lean keeps the invariant of Safety.lean. -/

namespace Sys2Proof.Machine

set_option Elab.async false
set_option linter.all false

variable {p : Part} {q : List Instr}


theorem Sound.setNow {s : State} {v : Nat} (hs : Sound p q s) :
    Sound p q { s with time := { s.time with dtime := v % 2 ^ 64, frac := 0 } } :=
  ⟨hs.part, hs.queue, hs.mem, hs.regs, hs.shad, hs.copyRegs, hs.copyShad, hs.flash,
    ⟨Nat.mod_lt _ (by decide), Nat.zero_lt_succ _, hs.time.ticks, hs.time.tickFrac⟩, hs.jobs, hs.tables⟩

theorem State.linksStart_sound {s : State} (hs : Sound p q s) :
    Sound p q (State.linksStart s) := by
  unfold State.linksStart
  repeat' first
    | with_reducible assumption
    | with_reducible apply foldl_sound
    | with_reducible apply State.setDpl_sound
    | with_reducible apply State.train_sound
    | with_reducible refine Sound.snd_of (by with_reducible assumption) ?_
    | with_reducible refine Sound.thd_of (by with_reducible assumption) ?_
    | intro _
    | split
    | dsimp only
    | with_reducible refine Sound.of_mk ?_ rfl rfl rfl rfl rfl rfl rfl rfl rfl rfl rfl rfl rfl

theorem State.hapticOn_sound {s : State} (hs : Sound p q s) :
    Sound p q (State.hapticOn s) := by
  unfold State.hapticOn
  repeat' first
    | with_reducible assumption
    | with_reducible apply foldl_sound
    | with_reducible apply State.setHap_sound
    | with_reducible refine Sound.snd_of (by with_reducible assumption) ?_
    | with_reducible refine Sound.thd_of (by with_reducible assumption) ?_
    | intro _
    | split
    | dsimp only
    | with_reducible refine Sound.of_mk ?_ rfl rfl rfl rfl rfl rfl rfl rfl rfl rfl rfl rfl rfl

theorem State.audioOn_sound {s : State} (hs : Sound p q s) :
    Sound p q (State.audioOn s) := by
  unfold State.audioOn
  repeat' first
    | with_reducible assumption
    | with_reducible apply foldl_sound
    | with_reducible apply State.setFld_sound
    | with_reducible refine Sound.snd_of (by with_reducible assumption) ?_
    | with_reducible refine Sound.thd_of (by with_reducible assumption) ?_
    | intro _
    | split
    | dsimp only
    | with_reducible refine Sound.of_mk ?_ rfl rfl rfl rfl rfl rfl rfl rfl rfl rfl rfl rfl rfl

theorem State.backToRun_sound {s : State} (step : Nat) (hs : Sound p q s) :
    Sound p q (State.backToRun s step) := by
  unfold State.backToRun
  repeat' first
    | with_reducible assumption
    | with_reducible apply foldl_sound
    | with_reducible apply State.touchRestart_sound
    | with_reducible apply State.restartOutputs_sound
    | with_reducible apply State.idleExit_sound
    | with_reducible apply State.linksStart_sound
    | with_reducible apply State.hapticOn_sound
    | with_reducible apply State.audioOn_sound
    | with_reducible refine Sound.snd_of (by with_reducible assumption) ?_
    | with_reducible refine Sound.thd_of (by with_reducible assumption) ?_
    | intro _
    | split
    | dsimp only
    | with_reducible refine Sound.of_mk ?_ rfl rfl rfl rfl rfl rfl rfl rfl rfl rfl rfl rfl rfl

theorem State.refuseEntry_sound {s : State} (reason : Nat) (hs : Sound p q s) :
    Sound p q (State.refuseEntry s reason) := by
  unfold State.refuseEntry
  repeat' first
    | with_reducible assumption
    | with_reducible apply foldl_sound
    | with_reducible apply State.endRequest_sound
    | with_reducible apply State.backToRun_sound
    | with_reducible refine Sound.snd_of (by with_reducible assumption) ?_
    | with_reducible refine Sound.thd_of (by with_reducible assumption) ?_
    | intro _
    | split
    | dsimp only
    | with_reducible refine Sound.of_mk ?_ rfl rfl rfl rfl rfl rfl rfl rfl rfl rfl rfl rfl rfl

theorem State.pwrReqWrite_sound (a : RegAcc) {s : State} (hs : Sound p q s) :
    Sound p q (State.pwrReqWrite a s) := by
  unfold State.pwrReqWrite
  repeat' first
    | with_reducible assumption
    | with_reducible apply foldl_sound
    | with_reducible apply State.setFld_sound
    | with_reducible apply State.event_sound
    | with_reducible apply State.recErr_sound
    | with_reducible apply State.recRefused_sound
    | with_reducible apply State.endRequest_sound
    | with_reducible apply State.idleExit_sound
    | with_reducible apply State.idleEntry_sound
    | with_reducible refine Sound.snd_of (by with_reducible assumption) ?_
    | with_reducible refine Sound.thd_of (by with_reducible assumption) ?_
    | intro _
    | split
    | dsimp only
    | with_reducible refine Sound.of_mk ?_ rfl rfl rfl rfl rfl rfl rfl rfl rfl rfl rfl rfl rfl

theorem State.saveList_sound {s : State} (cause : Nat) (hs : Sound p q s) :
    Sound p q (State.saveList s cause) := by
  unfold State.saveList
  repeat' first
    | with_reducible assumption
    | with_reducible apply foldl_sound
    | with_reducible refine Sound.snd_of (by with_reducible assumption) ?_
    | with_reducible refine Sound.thd_of (by with_reducible assumption) ?_
    | intro _
    | split
    | dsimp only
    | with_reducible refine Sound.of_mk ?_ rfl rfl rfl rfl rfl rfl rfl rfl rfl rfl rfl rfl rfl

theorem State.saveAdd_sound (a : RegAcc) {s : State} (hs : Sound p q s) :
    Sound p q (State.saveAdd a s) := by
  unfold State.saveAdd
  repeat' first
    | with_reducible assumption
    | with_reducible apply foldl_sound
    | with_reducible apply State.recErr_sound
    | with_reducible apply State.recAcc_sound
    | with_reducible apply State.recRefused_sound
    | with_reducible refine Sound.snd_of (by with_reducible assumption) ?_
    | with_reducible refine Sound.thd_of (by with_reducible assumption) ?_
    | intro _
    | split
    | dsimp only
    | with_reducible refine Sound.of_mk ?_ rfl rfl rfl rfl rfl rfl rfl rfl rfl rfl rfl rfl rfl

theorem State.saveClear_sound (a : RegAcc) {s : State} (hs : Sound p q s) :
    Sound p q (State.saveClear a s) := by
  unfold State.saveClear
  repeat' first
    | with_reducible assumption
    | with_reducible apply foldl_sound
    | with_reducible apply State.recRefused_sound
    | with_reducible refine Sound.snd_of (by with_reducible assumption) ?_
    | with_reducible refine Sound.thd_of (by with_reducible assumption) ?_
    | intro _
    | split
    | dsimp only
    | with_reducible refine Sound.of_mk ?_ rfl rfl rfl rfl rfl rfl rfl rfl rfl rfl rfl rfl rfl

theorem State.copyDomains_sound {s : State} (hs : Sound p q s) : Sound p q (State.copyDomains s) :=
  ⟨hs.part, hs.queue, hs.mem, hs.regs, hs.shad, Sparse.wf_filter _ hs.regs, Sparse.wf_filter _ hs.shad, hs.flash, hs.time, hs.jobs, hs.tables⟩

theorem State.restoreDomains_sound {s : State} (hs : Sound p q s) : Sound p q (State.restoreDomains s) := by
  unfold State.restoreDomains
  split
  · exact hs
  · exact ⟨hs.part, hs.queue, hs.mem, Sparse.wf_merge (Sparse.wf_filter _ hs.regs) hs.copyRegs,
      Sparse.wf_merge (Sparse.wf_filter _ hs.shad) hs.copyShad, rfl, rfl, hs.flash, hs.time, hs.jobs, hs.tables⟩

theorem State.outputsOff_sound {s : State} (hs : Sound p q s) :
    Sound p q (State.outputsOff s) := by
  unfold State.outputsOff
  repeat' first
    | with_reducible assumption
    | with_reducible apply foldl_sound
    | with_reducible apply State.setDpl_sound
    | with_reducible apply State.auxFail_sound
    | with_reducible apply State.lanesIdle_sound
    | with_reducible apply State.videoStop_sound
    | with_reducible apply State.stopNow_sound
    | with_reducible refine Sound.snd_of (by with_reducible assumption) ?_
    | with_reducible refine Sound.thd_of (by with_reducible assumption) ?_
    | intro _
    | split
    | dsimp only
    | with_reducible refine Sound.of_mk ?_ rfl rfl rfl rfl rfl rfl rfl rfl rfl rfl rfl rfl rfl

theorem State.touchOff_sound {s : State} (hs : Sound p q s) :
    Sound p q (State.touchOff s) := by
  unfold State.touchOff
  repeat' first
    | with_reducible assumption
    | with_reducible apply foldl_sound
    | with_reducible apply State.setTouch_sound
    | with_reducible apply State.touchStop_sound
    | with_reducible refine Sound.snd_of (by with_reducible assumption) ?_
    | with_reducible refine Sound.thd_of (by with_reducible assumption) ?_
    | intro _
    | split
    | dsimp only
    | with_reducible refine Sound.of_mk ?_ rfl rfl rfl rfl rfl rfl rfl rfl rfl rfl rfl rfl rfl

theorem State.hapticBrakeOff_sound {s : State} (hs : Sound p q s) :
    Sound p q (State.hapticBrakeOff s) := by
  unfold State.hapticBrakeOff
  repeat' first
    | with_reducible assumption
    | with_reducible apply foldl_sound
    | with_reducible apply State.setHap_sound
    | with_reducible apply State.hapBrake_sound
    | with_reducible refine Sound.snd_of (by with_reducible assumption) ?_
    | with_reducible refine Sound.thd_of (by with_reducible assumption) ?_
    | intro _
    | split
    | dsimp only
    | with_reducible refine Sound.of_mk ?_ rfl rfl rfl rfl rfl rfl rfl rfl rfl rfl rfl rfl rfl

theorem State.audioFade_sound {s : State} (hs : Sound p q s) :
    Sound p q (State.audioFade s) := by
  unfold State.audioFade
  repeat' first
    | with_reducible assumption
    | with_reducible apply foldl_sound
    | with_reducible apply State.endStreams_sound
    | with_reducible refine Sound.snd_of (by with_reducible assumption) ?_
    | with_reducible refine Sound.thd_of (by with_reducible assumption) ?_
    | intro _
    | split
    | dsimp only
    | with_reducible refine Sound.of_mk ?_ rfl rfl rfl rfl rfl rfl rfl rfl rfl rfl rfl rfl rfl

theorem State.bridgesOff_sound {s : State} (hs : Sound p q s) :
    Sound p q (State.bridgesOff s) := by
  unfold State.bridgesOff
  repeat' first
    | with_reducible assumption
    | with_reducible apply foldl_sound
    | with_reducible apply State.emit_sound
    | with_reducible refine Sound.snd_of (by with_reducible assumption) ?_
    | with_reducible refine Sound.thd_of (by with_reducible assumption) ?_
    | intro _
    | split
    | dsimp only
    | with_reducible refine Sound.of_mk ?_ rfl rfl rfl rfl rfl rfl rfl rfl rfl rfl rfl rfl rfl

theorem State.hapticOff_sound {s : State} (hs : Sound p q s) :
    Sound p q (State.hapticOff s) := by
  unfold State.hapticOff
  repeat' first
    | with_reducible assumption
    | with_reducible apply foldl_sound
    | with_reducible apply State.setHap_sound
    | with_reducible apply State.hapSilence_sound
    | with_reducible refine Sound.snd_of (by with_reducible assumption) ?_
    | with_reducible refine Sound.thd_of (by with_reducible assumption) ?_
    | intro _
    | split
    | dsimp only
    | with_reducible refine Sound.of_mk ?_ rfl rfl rfl rfl rfl rfl rfl rfl rfl rfl rfl rfl rfl

theorem State.linksSlow_sound {s : State} (hs : Sound p q s) :
    Sound p q (State.linksSlow s) := by
  unfold State.linksSlow
  repeat' first
    | with_reducible assumption
    | with_reducible apply foldl_sound
    | with_reducible apply State.setFld_sound
    | with_reducible refine Sound.snd_of (by with_reducible assumption) ?_
    | with_reducible refine Sound.thd_of (by with_reducible assumption) ?_
    | intro _
    | split
    | dsimp only
    | with_reducible refine Sound.of_mk ?_ rfl rfl rfl rfl rfl rfl rfl rfl rfl rfl rfl rfl rfl

theorem State.linksBack_sound {s : State} (hs : Sound p q s) :
    Sound p q (State.linksBack s) := by
  unfold State.linksBack
  repeat' first
    | with_reducible assumption
    | with_reducible apply foldl_sound
    | with_reducible apply State.setFld_sound
    | with_reducible refine Sound.snd_of (by with_reducible assumption) ?_
    | with_reducible refine Sound.thd_of (by with_reducible assumption) ?_
    | intro _
    | split
    | dsimp only
    | with_reducible refine Sound.of_mk ?_ rfl rfl rfl rfl rfl rfl rfl rfl rfl rfl rfl rfl rfl

theorem State.fallowFinish_sound {s : State} (hs : Sound p q s) :
    Sound p q (State.fallowFinish s) := by
  unfold State.fallowFinish
  repeat' first
    | with_reducible assumption
    | with_reducible apply foldl_sound
    | with_reducible apply State.enterPower_sound
    | with_reducible apply State.endRequest_sound
    | with_reducible apply State.captureTime_sound
    | with_reducible apply State.writeTail_sound
    | with_reducible apply State.deviceReset_sound
    | with_reducible apply State.selfRefreshEntry_sound
    | with_reducible apply State.saveList_sound
    | with_reducible apply State.copyDomains_sound
    | with_reducible apply State.bridgesOff_sound
    | with_reducible apply State.linksSlow_sound
    | with_reducible refine Sound.snd_of (by with_reducible assumption) ?_
    | with_reducible refine Sound.thd_of (by with_reducible assumption) ?_
    | intro _
    | split
    | dsimp only
    | with_reducible refine Sound.of_mk ?_ rfl rfl rfl rfl rfl rfl rfl rfl rfl rfl rfl rfl rfl

theorem State.fallowEntry_sound {s : State} (hs : Sound p q s) :
    Sound p q (State.fallowEntry s) := by
  unfold State.fallowEntry
  repeat' first
    | with_reducible assumption
    | with_reducible apply foldl_sound
    | with_reducible apply State.outputsOff_sound
    | with_reducible apply State.touchOff_sound
    | with_reducible apply State.hapticBrakeOff_sound
    | with_reducible apply State.audioFade_sound
    | with_reducible apply State.fallowFinish_sound
    | with_reducible refine Sound.snd_of (by with_reducible assumption) ?_
    | with_reducible refine Sound.thd_of (by with_reducible assumption) ?_
    | intro _
    | split
    | dsimp only
    | with_reducible refine Sound.of_mk ?_ rfl rfl rfl rfl rfl rfl rfl rfl rfl rfl rfl rfl rfl

theorem State.fallowTimeout_sound {s : State} (hs : Sound p q s) :
    Sound p q (State.fallowTimeout s) := by
  unfold State.fallowTimeout
  repeat' first
    | with_reducible assumption
    | with_reducible apply foldl_sound
    | with_reducible apply State.refuseEntry_sound
    | with_reducible refine Sound.snd_of (by with_reducible assumption) ?_
    | with_reducible refine Sound.thd_of (by with_reducible assumption) ?_
    | intro _
    | split
    | dsimp only
    | with_reducible refine Sound.of_mk ?_ rfl rfl rfl rfl rfl rfl rfl rfl rfl rfl rfl rfl rfl

theorem State.loseIsland_sound {s : State} (i : Nat) (hs : Sound p q s) : Sound p q (State.loseIsland s i) := by
  unfold State.loseIsland
  refine foldl_sound (fun t x ht => State.setSw_sound _ _ (State.setRw_sound _ _ ht)) ?_
  exact ⟨hs.part, hs.queue, hs.mem, Sparse.wf_filter _ hs.regs, Sparse.wf_filter _ hs.shad, hs.copyRegs, hs.copyShad, hs.flash, hs.time, hs.jobs, hs.tables⟩

theorem State.islWrite_sound (a : RegAcc) {s : State} (hs : Sound p q s) :
    Sound p q (State.islWrite a s) := by
  unfold State.islWrite
  repeat' first
    | with_reducible assumption
    | with_reducible apply foldl_sound
    | with_reducible apply State.setRw_sound
    | with_reducible apply State.recErr_sound
    | with_reducible apply State.recAcc_sound
    | with_reducible apply State.recRefused_sound
    | with_reducible apply State.loseIsland_sound
    | with_reducible refine Sound.snd_of (by with_reducible assumption) ?_
    | with_reducible refine Sound.thd_of (by with_reducible assumption) ?_
    | intro _
    | split
    | dsimp only
    | with_reducible refine Sound.of_mk ?_ rfl rfl rfl rfl rfl rfl rfl rfl rfl rfl rfl rfl rfl

theorem State.wakeLimitWrite_sound (a : RegAcc) {s : State} (hs : Sound p q s) :
    Sound p q (State.wakeLimitWrite a s) := by
  unfold State.wakeLimitWrite
  repeat' first
    | with_reducible assumption
    | with_reducible apply foldl_sound
    | with_reducible apply State.refuse_sound
    | with_reducible apply State.plainWrite_sound
    | with_reducible refine Sound.snd_of (by with_reducible assumption) ?_
    | with_reducible refine Sound.thd_of (by with_reducible assumption) ?_
    | intro _
    | split
    | dsimp only
    | with_reducible refine Sound.of_mk ?_ rfl rfl rfl rfl rfl rfl rfl rfl rfl rfl rfl rfl rfl

theorem State.twakeWrite_sound (a : RegAcc) {s : State} (hs : Sound p q s) :
    Sound p q (State.twakeWrite a s) := by
  unfold State.twakeWrite
  repeat' first
    | with_reducible assumption
    | with_reducible apply foldl_sound
    | with_reducible apply State.refuse_sound
    | with_reducible apply State.plainWrite_sound
    | with_reducible refine Sound.snd_of (by with_reducible assumption) ?_
    | with_reducible refine Sound.thd_of (by with_reducible assumption) ?_
    | intro _
    | split
    | dsimp only
    | with_reducible refine Sound.of_mk ?_ rfl rfl rfl rfl rfl rfl rfl rfl rfl rfl rfl rfl rfl

theorem State.alarmWrite_sound (a : RegAcc) {s : State} (hs : Sound p q s) :
    Sound p q (State.alarmWrite a s) := by
  unfold State.alarmWrite
  repeat' first
    | with_reducible assumption
    | with_reducible apply foldl_sound
    | with_reducible apply State.recRefused_sound
    | with_reducible apply State.plainWrite_sound
    | with_reducible refine Sound.snd_of (by with_reducible assumption) ?_
    | with_reducible refine Sound.thd_of (by with_reducible assumption) ?_
    | intro _
    | split
    | dsimp only
    | with_reducible refine Sound.of_mk ?_ rfl rfl rfl rfl rfl rfl rfl rfl rfl rfl rfl rfl rfl

theorem State.timSetWrite_sound (a : RegAcc) {s : State} (hs : Sound p q s) :
    Sound p q (State.timSetWrite a s) := by
  unfold State.timSetWrite
  repeat' first
    | with_reducible refine Sound.setNow ?_
    | with_reducible assumption
    | with_reducible apply foldl_sound
    | with_reducible apply State.setFld_sound
    | with_reducible apply State.event_sound
    | with_reducible apply State.recRefused_sound
    | with_reducible apply State.refuse_sound
    | with_reducible apply State.clearBridged_sound
    | with_reducible refine Sound.snd_of (by with_reducible assumption) ?_
    | with_reducible refine Sound.thd_of (by with_reducible assumption) ?_
    | intro _
    | split
    | dsimp only
    | with_reducible refine Sound.of_mk ?_ rfl rfl rfl rfl rfl rfl rfl rfl rfl rfl rfl rfl rfl

theorem State.timTrimWrite_sound (a : RegAcc) {s : State} (hs : Sound p q s) :
    Sound p q (State.timTrimWrite a s) := by
  unfold State.timTrimWrite
  repeat' first
    | with_reducible assumption
    | with_reducible apply foldl_sound
    | with_reducible apply State.refuse_sound
    | with_reducible apply State.plainWrite_sound
    | with_reducible refine Sound.snd_of (by with_reducible assumption) ?_
    | with_reducible refine Sound.thd_of (by with_reducible assumption) ?_
    | intro _
    | split
    | dsimp only
    | with_reducible refine Sound.of_mk ?_ rfl rfl rfl rfl rfl rfl rfl rfl rfl rfl rfl rfl rfl

theorem State.timCal_sound {s : State} (c : Nat) (hs : Sound p q s) :
    Sound p q (State.timCal s c) := by
  unfold State.timCal
  repeat' first
    | with_reducible assumption
    | with_reducible apply foldl_sound
    | with_reducible apply State.setFld_sound
    | with_reducible refine Sound.snd_of (by with_reducible assumption) ?_
    | with_reducible refine Sound.thd_of (by with_reducible assumption) ?_
    | intro _
    | split
    | dsimp only
    | with_reducible refine Sound.of_mk ?_ rfl rfl rfl rfl rfl rfl rfl rfl rfl rfl rfl rfl rfl

theorem State.pmbWrite_sound (a : RegAcc) {s : State} (hs : Sound p q s) :
    Sound p q (State.pmbWrite a s) := by
  unfold State.pmbWrite
  repeat' first
    | with_reducible assumption
    | with_reducible apply foldl_sound
    | with_reducible apply State.setFld_sound
    | with_reducible apply State.emit_sound
    | with_reducible apply State.recErr_sound
    | with_reducible apply State.recRefused_sound
    | with_reducible apply State.refuse_sound
    | with_reducible apply State.plainWrite_sound
    | with_reducible refine Sound.snd_of (by with_reducible assumption) ?_
    | with_reducible refine Sound.thd_of (by with_reducible assumption) ?_
    | intro _
    | split
    | dsimp only
    | with_reducible refine Sound.of_mk ?_ rfl rfl rfl rfl rfl rfl rfl rfl rfl rfl rfl rfl rfl

theorem State.pmbEnd_sound {s : State} (ok : Bool) (pec : Bool) (data : Nat) (hs : Sound p q s) :
    Sound p q (State.pmbEnd s ok pec data) := by
  unfold State.pmbEnd
  repeat' first
    | with_reducible assumption
    | with_reducible apply foldl_sound
    | with_reducible apply State.setFld_sound
    | with_reducible apply State.event_sound
    | with_reducible refine Sound.snd_of (by with_reducible assumption) ?_
    | with_reducible refine Sound.thd_of (by with_reducible assumption) ?_
    | intro _
    | split
    | dsimp only
    | with_reducible refine Sound.of_mk ?_ rfl rfl rfl rfl rfl rfl rfl rfl rfl rfl rfl rfl rfl

theorem State.vholdMeasure_sound {s : State} (mv : Nat) (cap : Nat) (mohm : Nat) (meets : Bool) (hs : Sound p q s) :
    Sound p q (State.vholdMeasure s mv cap mohm meets) := by
  unfold State.vholdMeasure
  repeat' first
    | with_reducible assumption
    | with_reducible apply foldl_sound
    | with_reducible apply State.setFld_sound
    | with_reducible apply State.event_sound
    | with_reducible apply State.reportContained_sound
    | with_reducible refine Sound.snd_of (by with_reducible assumption) ?_
    | with_reducible refine Sound.thd_of (by with_reducible assumption) ?_
    | intro _
    | split
    | dsimp only
    | with_reducible refine Sound.of_mk ?_ rfl rfl rfl rfl rfl rfl rfl rfl rfl rfl rfl rfl rfl

theorem State.abortGates_sound {s : State} (hs : Sound p q s) :
    Sound p q (State.abortGates s) := by
  unfold State.abortGates
  repeat' first
    | with_reducible assumption
    | with_reducible apply foldl_sound
    | with_reducible apply State.scrub_sound
    | with_reducible refine Sound.snd_of (by with_reducible assumption) ?_
    | with_reducible refine Sound.thd_of (by with_reducible assumption) ?_
    | intro _
    | split
    | dsimp only
    | with_reducible refine Sound.of_mk ?_ rfl rfl rfl rfl rfl rfl rfl rfl rfl rfl rfl rfl rfl

theorem State.sagStop_sound {s : State} (hs : Sound p q s) :
    Sound p q (State.sagStop s) := by
  unfold State.sagStop
  repeat' first
    | with_reducible assumption
    | with_reducible apply foldl_sound
    | with_reducible apply State.dropCommit_sound
    | with_reducible apply State.ingSquash_sound
    | with_reducible apply State.cvuSquash_sound
    | with_reducible apply State.setTouch_sound
    | with_reducible apply State.setStream_sound
    | with_reducible apply State.releaseRegions_sound
    | with_reducible apply State.audStopped_sound
    | with_reducible apply State.setDmc_sound
    | with_reducible apply State.outputsOff_sound
    | with_reducible apply State.hapticOff_sound
    | with_reducible refine Sound.snd_of (by with_reducible assumption) ?_
    | with_reducible refine Sound.thd_of (by with_reducible assumption) ?_
    | intro _
    | split
    | dsimp only
    | with_reducible refine Sound.of_mk ?_ rfl rfl rfl rfl rfl rfl rfl rfl rfl rfl rfl rfl rfl

theorem State.sagSession_sound {s : State} (hs : Sound p q s) :
    Sound p q (State.sagSession s) := by
  unfold State.sagSession
  repeat' first
    | with_reducible assumption
    | with_reducible apply foldl_sound
    | with_reducible apply State.setFld_sound
    | with_reducible apply State.event_sound
    | with_reducible apply State.recErr_sound
    | with_reducible apply State.setUpd_sound
    | with_reducible apply State.closeSession_sound
    | with_reducible refine Sound.snd_of (by with_reducible assumption) ?_
    | with_reducible refine Sound.thd_of (by with_reducible assumption) ?_
    | intro _
    | split
    | dsimp only
    | with_reducible refine Sound.of_mk ?_ rfl rfl rfl rfl rfl rfl rfl rfl rfl rfl rfl rfl rfl

theorem State.sagSurvey_sound {s : State} (hs : Sound p q s) :
    Sound p q (State.sagSurvey s) := by
  unfold State.sagSurvey
  repeat' first
    | with_reducible assumption
    | with_reducible apply foldl_sound
    | with_reducible apply State.setAge_sound
    | with_reducible refine Sound.snd_of (by with_reducible assumption) ?_
    | with_reducible refine Sound.thd_of (by with_reducible assumption) ?_
    | intro _
    | split
    | dsimp only
    | with_reducible refine Sound.of_mk ?_ rfl rfl rfl rfl rfl rfl rfl rfl rfl rfl rfl rfl rfl

theorem State.sag_sound {s : State} (hs : Sound p q s) :
    Sound p q (State.sag s) := by
  unfold State.sag
  repeat' first
    | with_reducible assumption
    | with_reducible apply foldl_sound
    | with_reducible apply State.setFld_sound
    | with_reducible apply State.enterPower_sound
    | with_reducible apply State.captureTime_sound
    | with_reducible apply State.selfRefreshEntry_sound
    | with_reducible apply State.saveList_sound
    | with_reducible apply State.copyDomains_sound
    | with_reducible apply State.abortGates_sound
    | with_reducible apply State.sagStop_sound
    | with_reducible apply State.sagSession_sound
    | with_reducible apply State.sagSurvey_sound
    | with_reducible refine Sound.snd_of (by with_reducible assumption) ?_
    | with_reducible refine Sound.thd_of (by with_reducible assumption) ?_
    | intro _
    | split
    | dsimp only
    | with_reducible refine Sound.of_mk ?_ rfl rfl rfl rfl rfl rfl rfl rfl rfl rfl rfl rfl rfl

theorem State.startSave_sound {s : State} (hs : Sound p q s) :
    Sound p q (State.startSave s) := by
  unfold State.startSave
  repeat' first
    | with_reducible assumption
    | with_reducible apply foldl_sound
    | with_reducible apply State.writeTail_sound
    | with_reducible refine Sound.snd_of (by with_reducible assumption) ?_
    | with_reducible refine Sound.thd_of (by with_reducible assumption) ?_
    | intro _
    | split
    | dsimp only
    | with_reducible refine Sound.of_mk ?_ rfl rfl rfl rfl rfl rfl rfl rfl rfl rfl rfl rfl rfl

theorem State.putSlot_sound {s : State} (ok : Bool) (hs : Sound p q s) :
    Sound p q (State.putSlot s ok) := by
  unfold State.putSlot
  repeat' first
    | with_reducible assumption
    | with_reducible apply foldl_sound
    | with_reducible refine Sound.snd_of (by with_reducible assumption) ?_
    | with_reducible refine Sound.thd_of (by with_reducible assumption) ?_
    | intro _
    | split
    | dsimp only
    | with_reducible refine Sound.of_mk ?_ rfl rfl rfl rfl rfl rfl rfl rfl rfl rfl rfl rfl rfl

theorem State.saveEnd_sound {s : State} (fault : Nat) (hs : Sound p q s) :
    Sound p q (State.saveEnd s fault) := by
  unfold State.saveEnd
  repeat' first
    | with_reducible assumption
    | with_reducible apply foldl_sound
    | with_reducible apply State.setFld_sound
    | with_reducible apply State.satFld_sound
    | with_reducible apply State.recErr_sound
    | with_reducible apply State.putSlot_sound
    | with_reducible refine Sound.snd_of (by with_reducible assumption) ?_
    | with_reducible refine Sound.thd_of (by with_reducible assumption) ?_
    | intro _
    | split
    | dsimp only
    | with_reducible refine Sound.of_mk ?_ rfl rfl rfl rfl rfl rfl rfl rfl rfl rfl rfl rfl rfl

theorem State.mramSaveDone_sound {s : State} (err : Bool) (hs : Sound p q s) :
    Sound p q (State.mramSaveDone s err) := by
  unfold State.mramSaveDone
  repeat' first
    | with_reducible assumption
    | with_reducible apply foldl_sound
    | with_reducible apply State.saveEnd_sound
    | with_reducible refine Sound.snd_of (by with_reducible assumption) ?_
    | with_reducible refine Sound.thd_of (by with_reducible assumption) ?_
    | intro _
    | split
    | dsimp only
    | with_reducible refine Sound.of_mk ?_ rfl rfl rfl rfl rfl rfl rfl rfl rfl rfl rfl rfl rfl

theorem State.vholdExhausted_sound {s : State} (hs : Sound p q s) :
    Sound p q (State.vholdExhausted s) := by
  unfold State.vholdExhausted
  repeat' first
    | with_reducible assumption
    | with_reducible apply foldl_sound
    | with_reducible apply State.enterPower_sound
    | with_reducible apply State.saveEnd_sound
    | with_reducible refine Sound.snd_of (by with_reducible assumption) ?_
    | with_reducible refine Sound.thd_of (by with_reducible assumption) ?_
    | intro _
    | split
    | dsimp only
    | with_reducible refine Sound.of_mk ?_ rfl rfl rfl rfl rfl rfl rfl rfl rfl rfl rfl rfl rfl

theorem State.supplyReturn_sound {s : State} (hs : Sound p q s) :
    Sound p q (State.supplyReturn s) := by
  unfold State.supplyReturn
  repeat' first
    | with_reducible assumption
    | with_reducible apply foldl_sound
    | with_reducible apply State.setFld_sound
    | with_reducible apply State.deviceReset_sound
    | with_reducible refine Sound.snd_of (by with_reducible assumption) ?_
    | with_reducible refine Sound.thd_of (by with_reducible assumption) ?_
    | intro _
    | split
    | dsimp only
    | with_reducible refine Sound.of_mk ?_ rfl rfl rfl rfl rfl rfl rfl rfl rfl rfl rfl rfl rfl

end Sys2Proof.Machine
end

