-- ==== Sys2Proof/Laws/SoundClock.lean ====
section
/-! SUPPORT. Every operation of Machine/Clock.lean keeps the invariant of Safety.lean. -/

namespace Sys2Proof.Machine

set_option Elab.async false
set_option linter.all false

variable {p : Part} {q : List Instr}


theorem Sound.setTime {s : State} {t : Time} {n : Nat} (hs : Sound p q s) (ht : t.InRange) :
    Sound p q { s with now := n, time := t } :=
  ⟨hs.part, hs.queue, hs.mem, hs.regs, hs.shad, hs.copyRegs, hs.copyShad, hs.flash, ht, hs.jobs, hs.tables⟩

theorem Time.cycle_inRange {t : Time} (len : Nat) (h : t.InRange) : (t.cycle len).InRange := by
  unfold Time.cycle
  split
  · exact h
  · dsimp only
    generalize t.frac + len = n
    exact ⟨Nat.mod_lt _ (by decide), Nat.mod_lt _ (by decide), h.ticks, h.tickFrac⟩

theorem Time.aonCycle_inRange {t : Time} (h : t.InRange) : t.aonCycle.InRange := by
  unfold Time.aonCycle
  generalize t.tickFrac + 1310720 = n
  exact ⟨h.dtime, h.frac, Nat.mod_lt _ (by decide), Nat.mod_lt _ (by decide)⟩

theorem State.countResidency_sound {s : State} (hs : Sound p q s) :
    Sound p q (State.countResidency s) := by
  unfold State.countResidency
  repeat' first
    | with_reducible assumption
    | with_reducible apply foldl_sound
    | with_reducible apply State.addCnt_sound
    | with_reducible refine Sound.snd_of (by with_reducible assumption) ?_
    | with_reducible refine Sound.thd_of (by with_reducible assumption) ?_
    | intro _
    | split
    | dsimp only
    | with_reducible refine Sound.of_mk ?_ rfl rfl rfl rfl rfl rfl rfl rfl rfl rfl rfl rfl rfl

theorem State.aonTick_sound {s : State} (hs : Sound p q s) : Sound p q (State.aonTick s) := by
  unfold State.aonTick
  split
  · exact hs
  · dsimp only
    have h : Sound p q { s with time := s.time.aonCycle } := hs.setTime (Time.aonCycle_inRange hs.time)
    split
    · exact State.countResidency_sound h
    · exact h

theorem State.countCores_sound {s : State} (hs : Sound p q s) :
    Sound p q (State.countCores s) := by
  unfold State.countCores
  repeat' first
    | with_reducible assumption
    | with_reducible apply foldl_sound
    | with_reducible apply State.pmcCount_sound
    | with_reducible refine Sound.snd_of (by with_reducible assumption) ?_
    | with_reducible refine Sound.thd_of (by with_reducible assumption) ?_
    | intro _
    | split
    | dsimp only
    | with_reducible refine Sound.of_mk ?_ rfl rfl rfl rfl rfl rfl rfl rfl rfl rfl rfl rfl rfl

theorem State.tick_sound {s : State} (hs : Sound p q s) : Sound p q (State.tick s) := by
  have h := State.countCores_sound hs
  exact State.fallowFinish_sound (State.aonTick_sound (h.setTime (Time.cycle_inRange _ h.time)))

end Sys2Proof.Machine
end

