-- ==== Sys2Proof/Laws/SoundFetch.lean ====
section
/-! SUPPORT. Every operation of Machine/Fetch.lean keeps the invariant of Safety.lean. -/

namespace Sys2Proof.Machine

set_option Elab.async false
set_option linter.all false

variable {p : Part} {q : List Instr}

theorem State.dispatch_sound {s : State} (opcode : Nat) (c : CmdArgs) (hs : Sound p q s) :
    Sound p q (State.dispatch s opcode c) := by
  unfold State.dispatch
  repeat' first
    | with_reducible assumption
    | with_reducible apply foldl_sound
    | with_reducible apply State.carryEntry_sound
    | with_reducible apply State.carryChannelCreate_sound
    | with_reducible apply State.carryChannelDestroy_sound
    | with_reducible apply State.carryBufferAlloc_sound
    | with_reducible apply State.carryBufferFree_sound
    | with_reducible apply State.carryBufferQuery_sound
    | with_reducible apply State.carryFnQuery_sound
    | with_reducible apply State.carryNop_sound
    | with_reducible apply State.carryIngest_sound
    | with_reducible apply State.carryScan_sound
    | with_reducible apply State.carryHapticPlay_sound
    | with_reducible apply State.carryTouchRule_sound
    | with_reducible apply State.carryAudioQueue_sound
    | with_reducible apply State.commitCommand_sound
    | with_reducible apply State.carryFnReset_sound
    | with_reducible refine Sound.snd_of (by with_reducible assumption) ?_
    | with_reducible refine Sound.thd_of (by with_reducible assumption) ?_
    | intro _
    | split
    | dsimp only
    | with_reducible refine Sound.of_mk ?_ rfl rfl rfl rfl rfl rfl rfl rfl rfl rfl rfl rfl rfl

theorem State.coreFetch_sound {s : State} (hs : Sound p q s) :
    Sound p q (State.coreFetch s) := by
  unfold State.coreFetch
  repeat' first
    | with_reducible assumption
    | with_reducible apply foldl_sound
    | with_reducible apply State.dispatch_sound
    | with_reducible refine Sound.snd_of (by with_reducible assumption) ?_
    | with_reducible refine Sound.thd_of (by with_reducible assumption) ?_
    | intro _
    | split
    | dsimp only
    | with_reducible refine Sound.of_mk ?_ rfl rfl rfl rfl rfl rfl rfl rfl rfl rfl rfl rfl rfl

theorem State.commandFetch_sound {s : State} (x1 : Nat) (ws : List Word32) (hs : Sound p q s) :
    Sound p q (State.commandFetch s x1 ws) := by
  unfold State.commandFetch
  repeat' first
    | with_reducible assumption
    | with_reducible apply foldl_sound
    | with_reducible apply State.setQueue_sound
    | with_reducible apply State.pickFn_sound
    | with_reducible apply State.served_sound
    | with_reducible apply State.dispatch_sound
    | with_reducible apply State.coreFetch_sound
    | with_reducible refine Sound.snd_of (by with_reducible assumption) ?_
    | with_reducible refine Sound.thd_of (by with_reducible assumption) ?_
    | intro _
    | split
    | dsimp only
    | with_reducible refine Sound.of_mk ?_ rfl rfl rfl rfl rfl rfl rfl rfl rfl rfl rfl rfl rfl

end Sys2Proof.Machine
end

