-- ==== Sys2Proof/Laws/SoundRegWrite.lean ====
section
/-! SUPPORT. Every operation of Machine/RegWrite.lean keeps the invariant of Safety.lean. -/

namespace Sys2Proof.Machine

set_option Elab.async false
set_option linter.all false

variable {p : Part} {q : List Instr}

theorem State.engineEnable_sound (a : RegAcc) (stat : State → State) (on : Bool) {s : State} (hstat : ∀ (y0 : State), Sound p q y0 → Sound p q (stat y0)) (hs : Sound p q s) :
    Sound p q (State.engineEnable a stat on s) := by
  unfold State.engineEnable
  repeat' first
    | with_reducible assumption
    | with_reducible apply foldl_sound
    | with_reducible apply hstat
    | with_reducible apply State.setFld_sound
    | with_reducible apply State.recErr_sound
    | with_reducible apply State.reportContained_sound
    | with_reducible apply State.plainEnable_sound
    | with_reducible refine Sound.snd_of (by with_reducible assumption) ?_
    | with_reducible refine Sound.thd_of (by with_reducible assumption) ?_
    | intro _
    | split
    | dsimp only
    | with_reducible refine Sound.of_mk ?_ rfl rfl rfl rfl rfl rfl rfl rfl rfl rfl rfl rfl rfl

theorem State.outputPageReset_sound (a : RegAcc) (n : Nat) {s : State} (hs : Sound p q s) :
    Sound p q (State.outputPageReset a n s) := by
  unfold State.outputPageReset
  repeat' first
    | with_reducible assumption
    | with_reducible apply foldl_sound
    | with_reducible apply State.mirrorWrite_sound
    | with_reducible apply State.resetGrant_sound
    | with_reducible apply State.settleFences_sound
    | with_reducible apply State.resetPage_sound
    | with_reducible refine Sound.snd_of (by with_reducible assumption) ?_
    | with_reducible refine Sound.thd_of (by with_reducible assumption) ?_
    | intro _
    | split
    | dsimp only
    | with_reducible refine Sound.of_mk ?_ rfl rfl rfl rfl rfl rfl rfl rfl rfl rfl rfl rfl rfl

theorem State.poolReset_sound (a : RegAcc) {s : State} (hs : Sound p q s) :
    Sound p q (State.poolReset a s) := by
  unfold State.poolReset
  repeat' first
    | with_reducible assumption
    | with_reducible apply foldl_sound
    | with_reducible apply State.recAcc_sound
    | with_reducible apply State.mirrorWrite_sound
    | with_reducible apply State.resetPage_sound
    | with_reducible refine Sound.snd_of (by with_reducible assumption) ?_
    | with_reducible refine Sound.thd_of (by with_reducible assumption) ?_
    | intro _
    | split
    | dsimp only
    | with_reducible refine Sound.of_mk ?_ rfl rfl rfl rfl rfl rfl rfl rfl rfl rfl rfl rfl rfl

theorem State.systemReset_sound (pg : Page) {s : State} (hs : Sound p q s) :
    Sound p q (State.systemReset pg s) := by
  unfold State.systemReset
  repeat' first
    | with_reducible assumption
    | with_reducible apply foldl_sound
    | with_reducible apply State.resetPage_sound
    | with_reducible refine Sound.snd_of (by with_reducible assumption) ?_
    | with_reducible refine Sound.thd_of (by with_reducible assumption) ?_
    | intro _
    | split
    | dsimp only
    | with_reducible refine Sound.of_mk ?_ rfl rfl rfl rfl rfl rfl rfl rfl rfl rfl rfl rfl rfl

theorem State.pageEnable_sound (a : RegAcc) (on : Bool) {s : State} (hs : Sound p q s) :
    Sound p q (State.pageEnable a on s) := by
  unfold State.pageEnable
  repeat' first
    | with_reducible assumption
    | with_reducible apply foldl_sound
    | with_reducible apply State.recAcc_sound
    | with_reducible apply State.poolEnable_sound
    | with_reducible apply State.poolDisable_sound
    | with_reducible apply State.plainEnable_sound
    | with_reducible apply State.mirroredEnable_sound
    | with_reducible apply State.dplEnable_sound
    | with_reducible apply State.scnEnable_sound
    | with_reducible apply State.ingStat_sound
    | with_reducible apply State.cvuStat_sound
    | with_reducible apply State.tchEnable_sound
    | with_reducible apply State.hapBlockEnable_sound
    | with_reducible apply State.audEnable_sound
    | with_reducible apply State.plkEnable_sound
    | with_reducible apply State.dmcEnable_sound
    | with_reducible apply State.engineEnable_sound
    | with_reducible refine Sound.snd_of (by with_reducible assumption) ?_
    | with_reducible refine Sound.thd_of (by with_reducible assumption) ?_
    | intro _
    | split
    | dsimp only
    | with_reducible refine Sound.of_mk ?_ rfl rfl rfl rfl rfl rfl rfl rfl rfl rfl rfl rfl rfl

theorem State.pageReset_sound (a : RegAcc) {s : State} (hs : Sound p q s) :
    Sound p q (State.pageReset a s) := by
  unfold State.pageReset
  repeat' first
    | with_reducible assumption
    | with_reducible apply foldl_sound
    | with_reducible apply State.recAcc_sound
    | with_reducible apply State.resetPage_sound
    | with_reducible apply State.dplReset_sound
    | with_reducible apply State.scnReset_sound
    | with_reducible apply State.ingSquash_sound
    | with_reducible apply State.cvuSquash_sound
    | with_reducible apply State.tchReset_sound
    | with_reducible apply State.hapBlockReset_sound
    | with_reducible apply State.audReset_sound
    | with_reducible apply State.plkReset_sound
    | with_reducible apply State.edacReset_sound
    | with_reducible apply State.hpReset_sound
    | with_reducible apply State.dmcReset_sound
    | with_reducible apply State.outputPageReset_sound
    | with_reducible apply State.poolReset_sound
    | with_reducible apply State.systemReset_sound
    | with_reducible refine Sound.snd_of (by with_reducible assumption) ?_
    | with_reducible refine Sound.thd_of (by with_reducible assumption) ?_
    | intro _
    | split
    | dsimp only
    | with_reducible refine Sound.of_mk ?_ rfl rfl rfl rfl rfl rfl rfl rfl rfl rfl rfl rfl rfl

theorem State.pgCtrl_sound (a : RegAcc) {s : State} (hs : Sound p q s) :
    Sound p q (State.pgCtrl a s) := by
  unfold State.pgCtrl
  repeat' first
    | with_reducible assumption
    | with_reducible apply foldl_sound
    | with_reducible apply State.ctrlWrite_sound
    | with_reducible apply State.vfCtrlWrite_sound
    | with_reducible apply State.pageEnable_sound
    | with_reducible apply State.pageReset_sound
    | with_reducible refine Sound.snd_of (by with_reducible assumption) ?_
    | with_reducible refine Sound.thd_of (by with_reducible assumption) ?_
    | intro _
    | split
    | dsimp only
    | with_reducible refine Sound.of_mk ?_ rfl rfl rfl rfl rfl rfl rfl rfl rfl rfl rfl rfl rfl

theorem State.weightWrite_sound (a : RegAcc) {s : State} (hs : Sound p q s) :
    Sound p q (State.weightWrite a s) := by
  unfold State.weightWrite
  repeat' first
    | with_reducible assumption
    | with_reducible apply foldl_sound
    | with_reducible apply State.setRw_sound
    | with_reducible apply State.recRefused_sound
    | with_reducible refine Sound.snd_of (by with_reducible assumption) ?_
    | with_reducible refine Sound.thd_of (by with_reducible assumption) ?_
    | intro _
    | split
    | dsimp only
    | with_reducible refine Sound.of_mk ?_ rfl rfl rfl rfl rfl rfl rfl rfl rfl rfl rfl rfl rfl

theorem State.ownTableWrite_sound (a : RegAcc) {s : State} (hs : Sound p q s) :
    Sound p q (State.ownTableWrite a s) := by
  unfold State.ownTableWrite
  repeat' first
    | with_reducible assumption
    | with_reducible apply foldl_sound
    | with_reducible apply State.refuse_sound
    | with_reducible apply State.plainWrite_sound
    | with_reducible refine Sound.snd_of (by with_reducible assumption) ?_
    | with_reducible refine Sound.thd_of (by with_reducible assumption) ?_
    | intro _
    | split
    | dsimp only
    | with_reducible refine Sound.of_mk ?_ rfl rfl rfl rfl rfl rfl rfl rfl rfl rfl rfl rfl rfl

theorem State.fnCritWrite_sound (a : RegAcc) {s : State} (hs : Sound p q s) :
    Sound p q (State.fnCritWrite a s) := by
  unfold State.fnCritWrite
  repeat' first
    | with_reducible assumption
    | with_reducible apply foldl_sound
    | with_reducible apply State.setRw_sound
    | with_reducible apply State.recRefused_sound
    | with_reducible apply State.mirror_sound
    | with_reducible refine Sound.snd_of (by with_reducible assumption) ?_
    | with_reducible refine Sound.thd_of (by with_reducible assumption) ?_
    | intro _
    | split
    | dsimp only
    | with_reducible refine Sound.of_mk ?_ rfl rfl rfl rfl rfl rfl rfl rfl rfl rfl rfl rfl rfl

theorem State.chkCtrlWrite_sound (a : RegAcc) {s : State} (hs : Sound p q s) :
    Sound p q (State.chkCtrlWrite a s) := by
  unfold State.chkCtrlWrite
  repeat' first
    | with_reducible assumption
    | with_reducible apply foldl_sound
    | with_reducible apply State.refuse_sound
    | with_reducible apply State.plainWrite_sound
    | with_reducible refine Sound.snd_of (by with_reducible assumption) ?_
    | with_reducible refine Sound.thd_of (by with_reducible assumption) ?_
    | intro _
    | split
    | dsimp only
    | with_reducible refine Sound.of_mk ?_ rfl rfl rfl rfl rfl rfl rfl rfl rfl rfl rfl rfl rfl

theorem State.plainWord_sound (a : RegAcc) {s : State} (hs : Sound p q s) :
    Sound p q (State.plainWord a s) := by
  unfold State.plainWord
  repeat' first
    | with_reducible assumption
    | with_reducible apply foldl_sound
    | with_reducible apply State.plainWrite_sound
    | with_reducible apply State.mirrorWrite_sound
    | with_reducible refine Sound.snd_of (by with_reducible assumption) ?_
    | with_reducible refine Sound.thd_of (by with_reducible assumption) ?_
    | intro _
    | split
    | dsimp only
    | with_reducible refine Sound.of_mk ?_ rfl rfl rfl rfl rfl rfl rfl rfl rfl rfl rfl rfl rfl

theorem State.earlyEnd_sound {s : State} (n : Nat) (owner : Bool) (hs : Sound p q s) :
    Sound p q (State.earlyEnd s n owner) := by
  unfold State.earlyEnd
  repeat' first
    | with_reducible assumption
    | with_reducible apply foldl_sound
    | with_reducible apply State.setRw_sound
    | with_reducible apply State.setFld_sound
    | with_reducible apply State.setSfld_sound
    | with_reducible apply State.event_sound
    | with_reducible apply State.mirror_sound
    | with_reducible apply State.destroyChan_sound
    | with_reducible apply State.settleFences_sound
    | with_reducible apply State.plainEnable_sound
    | with_reducible refine Sound.snd_of (by with_reducible assumption) ?_
    | with_reducible refine Sound.thd_of (by with_reducible assumption) ?_
    | intro _
    | split
    | dsimp only
    | with_reducible refine Sound.of_mk ?_ rfl rfl rfl rfl rfl rfl rfl rfl rfl rfl rfl rfl rfl

theorem State.containWrite_sound (a : RegAcc) {s : State} (hs : Sound p q s) :
    Sound p q (State.containWrite a s) := by
  unfold State.containWrite
  repeat' first
    | with_reducible assumption
    | with_reducible apply foldl_sound
    | with_reducible apply State.plainWrite_sound
    | with_reducible refine Sound.snd_of (by with_reducible assumption) ?_
    | with_reducible refine Sound.thd_of (by with_reducible assumption) ?_
    | intro _
    | split
    | dsimp only
    | with_reducible refine Sound.of_mk ?_ rfl rfl rfl rfl rfl rfl rfl rfl rfl rfl rfl rfl rfl

theorem State.sysEarlyWrite_sound (a : RegAcc) {s : State} (hs : Sound p q s) :
    Sound p q (State.sysEarlyWrite a s) := by
  unfold State.sysEarlyWrite
  repeat' first
    | with_reducible assumption
    | with_reducible apply foldl_sound
    | with_reducible apply State.recAcc_sound
    | with_reducible apply State.recRefused_sound
    | with_reducible apply State.earlyEnd_sound
    | with_reducible refine Sound.snd_of (by with_reducible assumption) ?_
    | with_reducible refine Sound.thd_of (by with_reducible assumption) ?_
    | intro _
    | split
    | dsimp only
    | with_reducible refine Sound.of_mk ?_ rfl rfl rfl rfl rfl rfl rfl rfl rfl rfl rfl rfl rfl

theorem State.ownerWord_sound (a : RegAcc) {s : State} (hs : Sound p q s) :
    Sound p q (State.ownerWord a s) := by
  unfold State.ownerWord
  repeat' first
    | with_reducible assumption
    | with_reducible apply foldl_sound
    | with_reducible apply State.ownerWrite_sound
    | with_reducible apply State.earlyEnd_sound
    | with_reducible refine Sound.snd_of (by with_reducible assumption) ?_
    | with_reducible refine Sound.thd_of (by with_reducible assumption) ?_
    | intro _
    | split
    | dsimp only
    | with_reducible refine Sound.of_mk ?_ rfl rfl rfl rfl rfl rfl rfl rfl rfl rfl rfl rfl rfl

theorem State.blockWrite_sound (a : RegAcc) {s : State} (hs : Sound p q s) :
    Sound p q (State.blockWrite a s) := by
  unfold State.blockWrite
  repeat' first
    | with_reducible assumption
    | with_reducible apply foldl_sound
    | with_reducible apply State.mirrorWrite_sound
    | with_reducible apply State.quotaWrite_sound
    | with_reducible apply State.shareWrite_sound
    | with_reducible apply State.limitWrite_sound
    | with_reducible apply State.lowMarkWrite_sound
    | with_reducible apply State.peakClear_sound
    | with_reducible apply State.poolPlaceWrite_sound
    | with_reducible apply State.watermarkWrite_sound
    | with_reducible apply State.denyClear_sound
    | with_reducible apply State.holdWrite_sound
    | with_reducible apply State.pmcSelWrite_sound
    | with_reducible apply State.pmcCtrlWrite_sound
    | with_reducible apply State.dplSetupWrite_sound
    | with_reducible apply State.auxWordWrite_sound
    | with_reducible apply State.auxGo_sound
    | with_reducible apply State.genlockWrite_sound
    | with_reducible apply State.tableWrite_sound
    | with_reducible apply State.lutAddrWrite_sound
    | with_reducible apply State.mgrRoleWrite_sound
    | with_reducible apply State.ingCtrlWrite_sound
    | with_reducible apply State.cvuCtrlWrite_sound
    | with_reducible apply State.tchPlainWrite_sound
    | with_reducible apply State.tchCfgWrite_sound
    | with_reducible apply State.tchBufWrite_sound
    | with_reducible apply State.tchRouteWrite_sound
    | with_reducible apply State.nodeAccess_sound
    | with_reducible apply State.hapCtrlWrite_sound
    | with_reducible apply State.hapCarrierWrite_sound
    | with_reducible apply State.audCtrlWrite_sound
    | with_reducible apply State.audDomWrite_sound
    | with_reducible apply State.tdmCfgWrite_sound
    | with_reducible apply State.busCfgWrite_sound
    | with_reducible apply State.strCfgWrite_sound
    | with_reducible apply State.strChannelWrite_sound
    | with_reducible apply State.plkCtrlWrite_sound
    | with_reducible apply State.ageCtrlWrite_sound
    | with_reducible apply State.portTargetWrite_sound
    | with_reducible apply State.maxlatClear_sound
    | with_reducible apply State.debtMaxClear_sound
    | with_reducible apply State.trainCtrlWrite_sound
    | with_reducible apply State.dmcCfgWrite_sound
    | with_reducible apply State.wdrainWrite_sound
    | with_reducible apply State.refCtrlWrite_sound
    | with_reducible apply State.edacCtrlWrite_sound
    | with_reducible apply State.regionWrite_sound
    | with_reducible apply State.threshWrite_sound
    | with_reducible apply State.edacLogCtrl_sound
    | with_reducible apply State.retirePlotWrite_sound
    | with_reducible apply State.retireBankWrite_sound
    | with_reducible apply State.updCmdWrite_sound
    | with_reducible apply State.updLockWrite_sound
    | with_reducible apply State.pfResetWrite_sound
    | with_reducible apply State.logCtrlWrite_sound
    | with_reducible apply State.sysResetWrite_sound
    | with_reducible apply State.pwrReqWrite_sound
    | with_reducible apply State.saveAdd_sound
    | with_reducible apply State.saveClear_sound
    | with_reducible apply State.islWrite_sound
    | with_reducible apply State.wakeLimitWrite_sound
    | with_reducible apply State.twakeWrite_sound
    | with_reducible apply State.alarmWrite_sound
    | with_reducible apply State.timSetWrite_sound
    | with_reducible apply State.timTrimWrite_sound
    | with_reducible apply State.pmbWrite_sound
    | with_reducible apply State.weightWrite_sound
    | with_reducible apply State.ownTableWrite_sound
    | with_reducible apply State.fnCritWrite_sound
    | with_reducible apply State.chkCtrlWrite_sound
    | with_reducible apply State.plainWord_sound
    | with_reducible apply State.containWrite_sound
    | with_reducible apply State.sysEarlyWrite_sound
    | with_reducible refine Sound.snd_of (by with_reducible assumption) ?_
    | with_reducible refine Sound.thd_of (by with_reducible assumption) ?_
    | intro _
    | split
    | dsimp only
    | with_reducible refine Sound.of_mk ?_ rfl rfl rfl rfl rfl rfl rfl rfl rfl rfl rfl rfl rfl

theorem State.queueWrite_sound (a : RegAcc) (rel : Nat) {s : State} (hs : Sound p q s) :
    Sound p q (State.queueWrite a rel s) := by
  unfold State.queueWrite
  repeat' first
    | with_reducible assumption
    | with_reducible apply foldl_sound
    | with_reducible apply State.doorbellWrite_sound
    | with_reducible apply State.qCtrlWrite_sound
    | with_reducible apply State.qSetupWrite_sound
    | with_reducible refine Sound.snd_of (by with_reducible assumption) ?_
    | with_reducible refine Sound.thd_of (by with_reducible assumption) ?_
    | intro _
    | split
    | dsimp only
    | with_reducible refine Sound.of_mk ?_ rfl rfl rfl rfl rfl rfl rfl rfl rfl rfl rfl rfl rfl

theorem State.headerWrite_sound (a : RegAcc) {s : State} (hs : Sound p q s) :
    Sound p q (State.headerWrite a s) := by
  unfold State.headerWrite
  repeat' first
    | with_reducible assumption
    | with_reducible apply foldl_sound
    | with_reducible apply State.evtRawWrite_sound
    | with_reducible apply State.evtEnWrite_sound
    | with_reducible apply State.evtSetWrite_sound
    | with_reducible apply State.evtRouteWrite_sound
    | with_reducible apply State.errClear_sound
    | with_reducible apply State.shadowCtrlWrite_sound
    | with_reducible apply State.pgCtrl_sound
    | with_reducible apply State.ownerWord_sound
    | with_reducible refine Sound.snd_of (by with_reducible assumption) ?_
    | with_reducible refine Sound.thd_of (by with_reducible assumption) ?_
    | intro _
    | split
    | dsimp only
    | with_reducible refine Sound.of_mk ?_ rfl rfl rfl rfl rfl rfl rfl rfl rfl rfl rfl rfl rfl

theorem State.bodyWrite_sound (a : RegAcc) {s : State} (hs : Sound p q s) :
    Sound p q (State.bodyWrite a s) := by
  unfold State.bodyWrite
  repeat' first
    | with_reducible assumption
    | with_reducible apply foldl_sound
    | with_reducible apply State.blockWrite_sound
    | with_reducible apply State.queueWrite_sound
    | with_reducible refine Sound.snd_of (by with_reducible assumption) ?_
    | with_reducible refine Sound.thd_of (by with_reducible assumption) ?_
    | intro _
    | split
    | dsimp only
    | with_reducible refine Sound.of_mk ?_ rfl rfl rfl rfl rfl rfl rfl rfl rfl rfl rfl rfl rfl

theorem State.regWrite_sound (a : RegAcc) {s : State} (hs : Sound p q s) :
    Sound p q (State.regWrite a s) := by
  unfold State.regWrite
  repeat' first
    | with_reducible assumption
    | with_reducible apply foldl_sound
    | with_reducible apply State.wideWrite_sound
    | with_reducible apply State.chkEventWrite_sound
    | with_reducible apply State.chkOwnerWrite_sound
    | with_reducible apply State.headerWrite_sound
    | with_reducible apply State.bodyWrite_sound
    | with_reducible refine Sound.snd_of (by with_reducible assumption) ?_
    | with_reducible refine Sound.thd_of (by with_reducible assumption) ?_
    | intro _
    | split
    | dsimp only
    | with_reducible refine Sound.of_mk ?_ rfl rfl rfl rfl rfl rfl rfl rfl rfl rfl rfl rfl rfl

theorem State.longWrite_sound (w : RegWr) (lows : List Word32) {s : State} (hs : Sound p q s) :
    Sound p q (State.longWrite w lows s) := by
  unfold State.longWrite
  repeat' first
    | with_reducible assumption
    | with_reducible apply foldl_sound
    | with_reducible apply State.access_sound
    | with_reducible apply State.regWrite_sound
    | with_reducible refine Sound.snd_of (by with_reducible assumption) ?_
    | with_reducible refine Sound.thd_of (by with_reducible assumption) ?_
    | intro _
    | split
    | dsimp only
    | with_reducible refine Sound.of_mk ?_ rfl rfl rfl rfl rfl rfl rfl rfl rfl rfl rfl rfl rfl

theorem State.regRead_sound (a : RegAcc) {s : State} (hs : Sound p q s) :
    Sound p q (State.regRead a s) := by
  unfold State.regRead
  repeat' first
    | with_reducible assumption
    | with_reducible apply foldl_sound
    | with_reducible apply State.ppsDataRead_sound
    | with_reducible apply State.tableRead_sound
    | with_reducible apply State.nodeAccess_sound
    | with_reducible apply State.plainRead_sound
    | with_reducible refine Sound.snd_of (by with_reducible assumption) ?_
    | with_reducible refine Sound.thd_of (by with_reducible assumption) ?_
    | intro _
    | split
    | dsimp only
    | with_reducible refine Sound.of_mk ?_ rfl rfl rfl rfl rfl rfl rfl rfl rfl rfl rfl rfl rfl

theorem State.waited_sound {s : State} (w : Waiting) (hs : Sound p q s) :
    Sound p q (State.waited s w) := by
  unfold State.waited
  repeat' first
    | with_reducible assumption
    | with_reducible apply foldl_sound
    | with_reducible apply State.access_sound
    | with_reducible apply State.accessRead_sound
    | with_reducible apply State.dramRequest_sound
    | with_reducible apply State.regWrite_sound
    | with_reducible apply State.regRead_sound
    | with_reducible refine Sound.snd_of (by with_reducible assumption) ?_
    | with_reducible refine Sound.thd_of (by with_reducible assumption) ?_
    | intro _
    | split
    | dsimp only
    | with_reducible refine Sound.of_mk ?_ rfl rfl rfl rfl rfl rfl rfl rfl rfl rfl rfl rfl rfl

theorem State.groupWake_sound {s : State} (g : Nat) (hs : Sound p q s) :
    Sound p q (State.groupWake s g) := by
  unfold State.groupWake
  repeat' first
    | with_reducible assumption
    | with_reducible apply foldl_sound
    | with_reducible apply State.setRw_sound
    | with_reducible apply State.waited_sound
    | with_reducible refine Sound.snd_of (by with_reducible assumption) ?_
    | with_reducible refine Sound.thd_of (by with_reducible assumption) ?_
    | intro _
    | split
    | dsimp only
    | with_reducible refine Sound.of_mk ?_ rfl rfl rfl rfl rfl rfl rfl rfl rfl rfl rfl rfl rfl

end Sys2Proof.Machine
end

