-- ==== Sys2Proof/Laws/SoundMirror.lean ====
section
/-! SUPPORT. Every operation of Machine/Mirror.lean keeps the invariant of Safety.lean. -/

namespace Sys2Proof.Machine

set_option Elab.async false
set_option linter.all false

variable {p : Part} {q : List Instr}


theorem Sound.clearMirror {s : State} {f g : Nat × Word32 → Bool} {a : Pool} {b : Display} {c : Haptic} {d : Audio} {e : Pair}
    (hs : Sound p q s) (ha : a.Sorted) : Sound p q { s with
      regs := s.regs.filter f, shad := s.shad.filter g, pool := a, display := b, haptic := c, audio := d, pair := e } :=
  ⟨hs.part, hs.queue, hs.mem, Sparse.wf_filter _ hs.regs, Sparse.wf_filter _ hs.shad, hs.copyRegs, hs.copyShad, hs.flash, hs.time, hs.jobs, ha⟩


theorem SlotTable.sorted_occupyAt {α : Type} {t : SlotTable α} (i g : Nat) (v : α) (h : Sparse.sortedFrom 0 t.used = true) :
    Sparse.sortedFrom 0 (t.occupyAt i g v).used = true := Sparse.sortedFrom_put _ h (Nat.zero_le _)

theorem State.mirrorRefused_sound {s : State} (plot : Nat) (hs : Sound p q s) :
    Sound p q (State.mirrorRefused s plot) := by
  unfold State.mirrorRefused
  repeat' first
    | with_reducible assumption
    | with_reducible apply foldl_sound
    | with_reducible apply State.pairDisagree_sound
    | with_reducible apply State.resyncCause_sound
    | with_reducible refine Sound.snd_of (by with_reducible assumption) ?_
    | with_reducible refine Sound.thd_of (by with_reducible assumption) ?_
    | intro _
    | split
    | dsimp only
    | with_reducible refine Sound.of_mk ?_ rfl rfl rfl rfl rfl rfl rfl rfl rfl rfl rfl rfl rfl

theorem State.mirrorWord_sound {s : State} (who : Attr) (plot : Nat) (word : Nat) (poison : Bool) (data : Nat) (hs : Sound p q s) :
    Sound p q (State.mirrorWord s who plot word poison data) := by
  unfold State.mirrorWord
  repeat' first
    | with_reducible assumption
    | with_reducible apply foldl_sound
    | with_reducible apply State.pmcCount_sound
    | with_reducible apply State.storeWord_sound
    | with_reducible apply State.storePoison_sound
    | with_reducible apply State.guardDram_sound
    | with_reducible apply State.mirrorRefused_sound
    | with_reducible refine Sound.snd_of (by with_reducible assumption) ?_
    | with_reducible refine Sound.thd_of (by with_reducible assumption) ?_
    | intro _
    | split
    | dsimp only
    | with_reducible refine Sound.of_mk ?_ rfl rfl rfl rfl rfl rfl rfl rfl rfl rfl rfl rfl rfl

theorem State.mirrorPool_sound {s : State} (plot : Nat) (word : Nat) (who : Attr) (poison : Nat) (data : List Nat) (hs : Sound p q s) :
    Sound p q (State.mirrorPool s plot word who poison data) := by
  unfold State.mirrorPool
  repeat' first
    | with_reducible assumption
    | with_reducible apply foldl_sound
    | with_reducible apply State.mirrorWord_sound
    | with_reducible refine Sound.snd_of (by with_reducible assumption) ?_
    | with_reducible refine Sound.thd_of (by with_reducible assumption) ?_
    | intro _
    | split
    | dsimp only
    | with_reducible refine Sound.of_mk ?_ rfl rfl rfl rfl rfl rfl rfl rfl rfl rfl rfl rfl rfl

theorem State.mirrorActs_sound (a : RegAcc) {s : State} (hs : Sound p q s) :
    Sound p q (State.mirrorActs a s) := by
  unfold State.mirrorActs
  repeat' first
    | with_reducible assumption
    | with_reducible apply foldl_sound
    | with_reducible apply State.groupMove_sound
    | with_reducible apply State.ownerApply_sound
    | with_reducible apply State.chkOwnerTaken_sound
    | with_reducible apply State.regWrite_sound
    | with_reducible refine Sound.snd_of (by with_reducible assumption) ?_
    | with_reducible refine Sound.thd_of (by with_reducible assumption) ?_
    | intro _
    | split
    | dsimp only
    | with_reducible refine Sound.of_mk ?_ rfl rfl rfl rfl rfl rfl rfl rfl rfl rfl rfl rfl rfl

theorem State.mirrorTakes_sound {s : State} (pg : Page) (o : Nat) (w : Nat × Nat × Nat × Nat) (req : Req) (hs : Sound p q s) :
    Sound p q (State.mirrorTakes s pg o w req) := by
  unfold State.mirrorTakes
  repeat' first
    | with_reducible assumption
    | with_reducible apply foldl_sound
    | with_reducible apply State.setRw_sound
    | with_reducible apply State.mirrorActs_sound
    | with_reducible refine Sound.snd_of (by with_reducible assumption) ?_
    | with_reducible refine Sound.thd_of (by with_reducible assumption) ?_
    | intro _
    | split
    | dsimp only
    | with_reducible refine Sound.of_mk ?_ rfl rfl rfl rfl rfl rfl rfl rfl rfl rfl rfl rfl rfl

theorem State.resyncStore_sound {s : State} (pg : Page) (w : Nat × Nat × Nat × Nat) (hs : Sound p q s) :
    Sound p q (State.resyncStore s pg w) := by
  unfold State.resyncStore
  repeat' first
    | with_reducible assumption
    | with_reducible apply foldl_sound
    | with_reducible apply State.setRw_sound
    | with_reducible apply State.setSw_sound
    | with_reducible refine Sound.snd_of (by with_reducible assumption) ?_
    | with_reducible refine Sound.thd_of (by with_reducible assumption) ?_
    | intro _
    | split
    | dsimp only
    | with_reducible refine Sound.of_mk ?_ rfl rfl rfl rfl rfl rfl rfl rfl rfl rfl rfl rfl rfl

theorem State.mirrorReg_sound {s : State} (req : Req) (w : Nat × Nat × Nat × Nat) (hs : Sound p q s) :
    Sound p q (State.mirrorReg s req w) := by
  unfold State.mirrorReg
  repeat' first
    | with_reducible assumption
    | with_reducible apply foldl_sound
    | with_reducible apply State.noteSkew_sound
    | with_reducible apply State.mirrorStore_sound
    | with_reducible apply State.mirrorTakes_sound
    | with_reducible apply State.resyncStore_sound
    | with_reducible refine Sound.snd_of (by with_reducible assumption) ?_
    | with_reducible refine Sound.thd_of (by with_reducible assumption) ?_
    | intro _
    | split
    | dsimp only
    | with_reducible refine Sound.of_mk ?_ rfl rfl rfl rfl rfl rfl rfl rfl rfl rfl rfl rfl rfl

theorem State.mirrorAlloc_sound {s : State} (x1 : Nat) (ch : Nat) (size : Nat) (plots : List Nat) (fill : Bool) (hs : Sound p q s) :
    Sound p q (State.mirrorAlloc s x1 ch size plots fill) := by
  unfold State.mirrorAlloc
  repeat' first
    | with_reducible refine Sound.of_tables ?_ (fun h => ⟨h.chans, SlotTable.sorted_occupyAt _ _ _ h.bufs⟩) rfl rfl rfl rfl rfl rfl rfl rfl rfl rfl rfl
    | with_reducible assumption
    | with_reducible apply foldl_sound
    | with_reducible apply State.setOwnEntry_sound
    | with_reducible apply State.noteLow_sound
    | with_reducible apply State.notePeak_sound
    | with_reducible apply State.zeroRange_sound
    | with_reducible refine Sound.snd_of (by with_reducible assumption) ?_
    | with_reducible refine Sound.thd_of (by with_reducible assumption) ?_
    | intro _
    | split
    | dsimp only
    | with_reducible refine Sound.of_mk ?_ rfl rfl rfl rfl rfl rfl rfl rfl rfl rfl rfl rfl rfl

theorem State.mirrorFree_sound {s : State} (x1 : Nat) (kept : Nat) (hs : Sound p q s) :
    Sound p q (State.mirrorFree s x1 kept) := by
  unfold State.mirrorFree
  repeat' first
    | with_reducible assumption
    | with_reducible apply foldl_sound
    | with_reducible apply State.freeBuf_sound
    | with_reducible apply State.keepFreeing_sound
    | with_reducible refine Sound.snd_of (by with_reducible assumption) ?_
    | with_reducible refine Sound.thd_of (by with_reducible assumption) ?_
    | intro _
    | split
    | dsimp only
    | with_reducible refine Sound.of_mk ?_ rfl rfl rfl rfl rfl rfl rfl rfl rfl rfl rfl rfl rfl

theorem State.mirrorDestroy_sound {s : State} (h : Nat) (draining : Nat) (kept : List Nat) (hs : Sound p q s) :
    Sound p q (State.mirrorDestroy s h draining kept) := by
  unfold State.mirrorDestroy
  split
  · exact hs
  · dsimp only
    generalize hr : kept.foldl State.keepFreeing s = r
    have h1 : Sound p q r := hr ▸ foldl_sound (fun t x ht => State.keepFreeing_sound _ ht) hs
    generalize hb : (if draining = 1 then { r with pair := { r.pair with keptChans := r.pair.keptChans ++ [h % 256] } } else r) = b
    have h2 : Sound p q b := by
      rw [← hb]
      split
      · exact Sound.of_mk h1 rfl rfl rfl rfl rfl rfl rfl rfl rfl rfl rfl rfl rfl
      · exact h1
    have h3 := State.destroyChan_sound (h % 256) none h2
    split
    · split
      · exact Sound.of_tables h2 (fun k => ⟨SlotTable.sorted_update _ _ k.chans, h3.tables.bufs⟩) rfl rfl rfl rfl rfl rfl rfl rfl rfl rfl rfl
      · exact h3
    · exact h3

theorem State.mirrorFreed_sound {s : State} (x1 : Nat) (hs : Sound p q s) :
    Sound p q (State.mirrorFreed s x1) := by
  unfold State.mirrorFreed
  repeat' first
    | with_reducible assumption
    | with_reducible apply foldl_sound
    | with_reducible apply State.unfence_sound
    | with_reducible refine Sound.snd_of (by with_reducible assumption) ?_
    | with_reducible refine Sound.thd_of (by with_reducible assumption) ?_
    | intro _
    | split
    | dsimp only
    | with_reducible refine Sound.of_mk ?_ rfl rfl rfl rfl rfl rfl rfl rfl rfl rfl rfl rfl rfl

theorem State.mirrorDrained_sound {s : State} (x1 : Nat) (hs : Sound p q s) :
    Sound p q (State.mirrorDrained s x1) := by
  unfold State.mirrorDrained
  repeat' first
    | with_reducible assumption
    | with_reducible apply foldl_sound
    | with_reducible apply State.chanDrained_sound
    | with_reducible refine Sound.snd_of (by with_reducible assumption) ?_
    | with_reducible refine Sound.thd_of (by with_reducible assumption) ?_
    | intro _
    | split
    | dsimp only
    | with_reducible refine Sound.of_mk ?_ rfl rfl rfl rfl rfl rfl rfl rfl rfl rfl rfl rfl rfl

theorem State.mirrorRule_sound {s : State} (k : Nat) (fn : Nat) (ps : List Nat) (hs : Sound p q s) :
    Sound p q (State.mirrorRule s k fn ps) := by
  unfold State.mirrorRule
  repeat' first
    | with_reducible assumption
    | with_reducible apply foldl_sound
    | with_reducible apply State.nameClip_sound
    | with_reducible apply State.dropRule_sound
    | with_reducible apply State.putRule_sound
    | with_reducible refine Sound.snd_of (by with_reducible assumption) ?_
    | with_reducible refine Sound.thd_of (by with_reducible assumption) ?_
    | intro _
    | split
    | dsimp only
    | with_reducible refine Sound.of_mk ?_ rfl rfl rfl rfl rfl rfl rfl rfl rfl rfl rfl rfl rfl

theorem State.resyncRule_sound {s : State} (ps : List Nat) (hs : Sound p q s) :
    Sound p q (State.resyncRule s ps) := by
  unfold State.resyncRule
  repeat' first
    | with_reducible assumption
    | with_reducible apply foldl_sound
    | with_reducible apply State.nameClip_sound
    | with_reducible apply State.putRule_sound
    | with_reducible refine Sound.snd_of (by with_reducible assumption) ?_
    | with_reducible refine Sound.thd_of (by with_reducible assumption) ?_
    | intro _
    | split
    | dsimp only
    | with_reducible refine Sound.of_mk ?_ rfl rfl rfl rfl rfl rfl rfl rfl rfl rfl rfl rfl rfl

theorem State.resyncNode_sound {s : State} (ps : List Nat) (hs : Sound p q s) :
    Sound p q (State.resyncNode s ps) := by
  unfold State.resyncNode
  repeat' first
    | with_reducible assumption
    | with_reducible apply foldl_sound
    | with_reducible apply State.setPanel_sound
    | with_reducible refine Sound.snd_of (by with_reducible assumption) ?_
    | with_reducible refine Sound.thd_of (by with_reducible assumption) ?_
    | intro _
    | split
    | dsimp only
    | with_reducible refine Sound.of_mk ?_ rfl rfl rfl rfl rfl rfl rfl rfl rfl rfl rfl rfl rfl

theorem State.mirrorChan_sound {s : State} (x1 : Nat) (fn : Nat) (draining : Bool) (hs : Sound p q s) :
    Sound p q (State.mirrorChan s x1 fn draining) := by
  unfold State.mirrorChan
  repeat' first
    | with_reducible refine Sound.of_tables ?_ (fun h => ⟨SlotTable.sorted_occupyAt _ _ _ h.chans, h.bufs⟩) rfl rfl rfl rfl rfl rfl rfl rfl rfl rfl rfl
    | with_reducible assumption
    | with_reducible apply foldl_sound
    | with_reducible refine Sound.snd_of (by with_reducible assumption) ?_
    | with_reducible refine Sound.thd_of (by with_reducible assumption) ?_
    | intro _
    | split
    | dsimp only
    | with_reducible refine Sound.of_mk ?_ rfl rfl rfl rfl rfl rfl rfl rfl rfl rfl rfl rfl rfl

theorem State.keepDraining_sound {s : State} (i : Nat) (hs : Sound p q s) :
    Sound p q (State.keepDraining s i) := by
  unfold State.keepDraining
  repeat' first
    | with_reducible assumption
    | with_reducible apply foldl_sound
    | with_reducible refine Sound.snd_of (by with_reducible assumption) ?_
    | with_reducible refine Sound.thd_of (by with_reducible assumption) ?_
    | intro _
    | split
    | dsimp only
    | with_reducible refine Sound.of_mk ?_ rfl rfl rfl rfl rfl rfl rfl rfl rfl rfl rfl rfl rfl

theorem State.resyncBuf_sound {s : State} (x1 : Nat) (chan : Nat) (size : Nat) (plots : List Nat) (freeing : Bool) (hs : Sound p q s) :
    Sound p q (State.resyncBuf s x1 chan size plots freeing) := by
  unfold State.resyncBuf
  repeat' first
    | with_reducible assumption
    | with_reducible apply foldl_sound
    | with_reducible apply State.keepFreeing_sound
    | with_reducible apply State.mirrorAlloc_sound
    | with_reducible refine Sound.snd_of (by with_reducible assumption) ?_
    | with_reducible refine Sound.thd_of (by with_reducible assumption) ?_
    | intro _
    | split
    | dsimp only
    | with_reducible refine Sound.of_mk ?_ rfl rfl rfl rfl rfl rfl rfl rfl rfl rfl rfl rfl rfl

theorem State.resyncFree_sound {s : State} (kind : Nat) (fresh : Nat) (freed : List Nat) (gens : Store Nat) (hs : Sound p q s) :
    Sound p q (State.resyncFree s kind fresh freed gens) := by
  unfold State.resyncFree
  repeat' first
    | with_reducible assumption
    | with_reducible apply foldl_sound
    | with_reducible refine Sound.snd_of (by with_reducible assumption) ?_
    | with_reducible refine Sound.thd_of (by with_reducible assumption) ?_
    | intro _
    | split
    | dsimp only
    | with_reducible refine Sound.of_mk ?_ rfl rfl rfl rfl rfl rfl rfl rfl rfl rfl rfl rfl rfl

theorem State.resyncItem_sound {s : State} (op : Nat) (ps : List Nat) (plots : List Nat) (hs : Sound p q s) :
    Sound p q (State.resyncItem s op ps plots) := by
  unfold State.resyncItem
  repeat' first
    | with_reducible assumption
    | with_reducible apply foldl_sound
    | with_reducible apply State.retirePlot_sound
    | with_reducible apply State.mirrorFreed_sound
    | with_reducible apply State.mirrorDrained_sound
    | with_reducible apply State.resyncRule_sound
    | with_reducible apply State.resyncNode_sound
    | with_reducible apply State.resyncFree_sound
    | with_reducible refine Sound.snd_of (by with_reducible assumption) ?_
    | with_reducible refine Sound.thd_of (by with_reducible assumption) ?_
    | intro _
    | split
    | dsimp only
    | with_reducible refine Sound.of_mk ?_ rfl rfl rfl rfl rfl rfl rfl rfl rfl rfl rfl rfl rfl

theorem State.mirrorRecord_sound {s : State} (op : Nat) (ps : List Nat) (plots : List Nat) (hs : Sound p q s) :
    Sound p q (State.mirrorRecord s op ps plots) := by
  unfold State.mirrorRecord
  repeat' first
    | with_reducible assumption
    | with_reducible apply foldl_sound
    | with_reducible apply State.dropRule_sound
    | with_reducible apply State.mirrorAlloc_sound
    | with_reducible apply State.mirrorFree_sound
    | with_reducible apply State.mirrorDestroy_sound
    | with_reducible apply State.mirrorRule_sound
    | with_reducible apply State.mirrorChan_sound
    | with_reducible apply State.keepDraining_sound
    | with_reducible apply State.resyncBuf_sound
    | with_reducible apply State.resyncItem_sound
    | with_reducible refine Sound.snd_of (by with_reducible assumption) ?_
    | with_reducible refine Sound.thd_of (by with_reducible assumption) ?_
    | intro _
    | split
    | dsimp only
    | with_reducible refine Sound.of_mk ?_ rfl rfl rfl rfl rfl rfl rfl rfl rfl rfl rfl rfl rfl

theorem State.stopOutputs_sound {s : State} (hs : Sound p q s) :
    Sound p q (State.stopOutputs s) := by
  unfold State.stopOutputs
  repeat' first
    | with_reducible assumption
    | with_reducible apply foldl_sound
    | with_reducible apply State.setDisp_sound
    | with_reducible apply State.videoStop_sound
    | with_reducible apply State.stopNow_sound
    | with_reducible refine Sound.snd_of (by with_reducible assumption) ?_
    | with_reducible refine Sound.thd_of (by with_reducible assumption) ?_
    | intro _
    | split
    | dsimp only
    | with_reducible refine Sound.of_mk ?_ rfl rfl rfl rfl rfl rfl rfl rfl rfl rfl rfl rfl rfl

theorem State.mirrorClear_sound {s : State} (hs : Sound p q s) :
    Sound p q (State.mirrorClear s) := by
  unfold State.mirrorClear
  repeat' first
    | with_reducible refine Sound.clearMirror ?_ ⟨rfl, rfl⟩
    | with_reducible assumption
    | with_reducible apply foldl_sound
    | with_reducible apply State.setFld_sound
    | with_reducible apply State.disown_sound
    | with_reducible apply State.ruleStat_sound
    | with_reducible apply State.stopOutputs_sound
    | with_reducible refine Sound.snd_of (by with_reducible assumption) ?_
    | with_reducible refine Sound.thd_of (by with_reducible assumption) ?_
    | intro _
    | split
    | dsimp only
    | with_reducible refine Sound.of_mk ?_ rfl rfl rfl rfl rfl rfl rfl rfl rfl rfl rfl rfl rfl

theorem State.mirrorEnd_sound {s : State} (hs : Sound p q s) :
    Sound p q (State.mirrorEnd s) := by
  unfold State.mirrorEnd
  repeat' first
    | with_reducible assumption
    | with_reducible apply foldl_sound
    | with_reducible apply State.grantResources_sound
    | with_reducible apply State.takeSlotFences_sound
    | with_reducible apply State.loadSheets_sound
    | with_reducible refine Sound.snd_of (by with_reducible assumption) ?_
    | with_reducible refine Sound.thd_of (by with_reducible assumption) ?_
    | intro _
    | split
    | dsimp only
    | with_reducible refine Sound.of_mk ?_ rfl rfl rfl rfl rfl rfl rfl rfl rfl rfl rfl rfl rfl

theorem State.mirrorApply_sound {s : State} (m : MirrorMsg) (hs : Sound p q s) :
    Sound p q (State.mirrorApply s m) := by
  unfold State.mirrorApply
  repeat' first
    | with_reducible assumption
    | with_reducible apply foldl_sound
    | with_reducible apply State.mirrorPool_sound
    | with_reducible apply State.mirrorReg_sound
    | with_reducible apply State.mirrorRecord_sound
    | with_reducible apply State.mirrorClear_sound
    | with_reducible apply State.mirrorEnd_sound
    | with_reducible refine Sound.snd_of (by with_reducible assumption) ?_
    | with_reducible refine Sound.thd_of (by with_reducible assumption) ?_
    | intro _
    | split
    | dsimp only
    | with_reducible refine Sound.of_mk ?_ rfl rfl rfl rfl rfl rfl rfl rfl rfl rfl rfl rfl rfl

theorem State.orderedFlit_sound {s : State} (x1 : FlitHdr) (run : State → State) (hs : Sound p q s) (hrun : ∀ (y0 : State), Sound p q y0 → Sound p q (run y0)) :
    Sound p q (State.orderedFlit s x1 run) := by
  unfold State.orderedFlit
  repeat' first
    | with_reducible assumption
    | with_reducible apply foldl_sound
    | with_reducible apply hrun
    | with_reducible apply State.accept_sound
    | with_reducible apply State.answerOffer_sound
    | with_reducible refine Sound.snd_of (by with_reducible assumption) ?_
    | with_reducible refine Sound.thd_of (by with_reducible assumption) ?_
    | intro _
    | split
    | dsimp only
    | with_reducible refine Sound.of_mk ?_ rfl rfl rfl rfl rfl rfl rfl rfl rfl rfl rfl rfl rfl

end Sys2Proof.Machine
end

