-- ==== Sys2Proof/Laws/SoundWake.lean ====
section
/-! SUPPORT. Every operation of Machine/Wake.lean keeps the invariant of Safety.lean. -/

namespace Sys2Proof.Machine

set_option Elab.async false
set_option linter.all false

variable {p : Part} {q : List Instr}

theorem State.writeBack_sound {s : State} (hs : Sound p q s) :
    Sound p q (State.writeBack s) := by
  unfold State.writeBack
  repeat' first
    | with_reducible assumption
    | with_reducible apply foldl_sound
    | with_reducible apply State.event_sound
    | with_reducible apply State.access_sound
    | with_reducible apply State.regWrite_sound
    | with_reducible refine Sound.snd_of (by with_reducible assumption) ?_
    | with_reducible refine Sound.thd_of (by with_reducible assumption) ?_
    | intro _
    | split
    | dsimp only
    | with_reducible refine Sound.of_mk ?_ rfl rfl rfl rfl rfl rfl rfl rfl rfl rfl rfl rfl rfl

theorem State.replayDoorbells_sound {s : State} (hs : Sound p q s) :
    Sound p q (State.replayDoorbells s) := by
  unfold State.replayDoorbells
  repeat' first
    | with_reducible assumption
    | with_reducible apply foldl_sound
    | with_reducible apply State.sqDoorbell_sound
    | with_reducible refine Sound.snd_of (by with_reducible assumption) ?_
    | with_reducible refine Sound.thd_of (by with_reducible assumption) ?_
    | intro _
    | split
    | dsimp only
    | with_reducible refine Sound.of_mk ?_ rfl rfl rfl rfl rfl rfl rfl rfl rfl rfl rfl rfl rfl

theorem State.wakePair_sound {s : State} (hs : Sound p q s) :
    Sound p q (State.wakePair s) := by
  unfold State.wakePair
  repeat' first
    | with_reducible assumption
    | with_reducible apply foldl_sound
    | with_reducible apply State.sendFlit_sound
    | with_reducible apply State.askJoin_sound
    | with_reducible apply State.resyncCause_sound
    | with_reducible refine Sound.snd_of (by with_reducible assumption) ?_
    | with_reducible refine Sound.thd_of (by with_reducible assumption) ?_
    | intro _
    | split
    | dsimp only
    | with_reducible refine Sound.of_mk ?_ rfl rfl rfl rfl rfl rfl rfl rfl rfl rfl rfl rfl rfl

theorem State.wakeRestore_sound {s : State} (hs : Sound p q s) :
    Sound p q (State.wakeRestore s) := by
  unfold State.wakeRestore
  repeat' first
    | with_reducible assumption
    | with_reducible apply foldl_sound
    | with_reducible apply State.enterPower_sound
    | with_reducible apply State.bridgeTime_sound
    | with_reducible apply State.selfRefreshExit_sound
    | with_reducible apply State.restoreDomains_sound
    | with_reducible apply State.writeBack_sound
    | with_reducible refine Sound.snd_of (by with_reducible assumption) ?_
    | with_reducible refine Sound.thd_of (by with_reducible assumption) ?_
    | intro _
    | split
    | dsimp only
    | with_reducible refine Sound.of_mk ?_ rfl rfl rfl rfl rfl rfl rfl rfl rfl rfl rfl rfl rfl

theorem State.wakeBlocks_sound {s : State} (hs : Sound p q s) :
    Sound p q (State.wakeBlocks s) := by
  unfold State.wakeBlocks
  repeat' first
    | with_reducible assumption
    | with_reducible apply foldl_sound
    | with_reducible apply State.touchRestart_sound
    | with_reducible apply State.restartOutputs_sound
    | with_reducible apply State.linksStart_sound
    | with_reducible apply State.hapticOn_sound
    | with_reducible apply State.audioOn_sound
    | with_reducible apply State.linksBack_sound
    | with_reducible apply State.replayDoorbells_sound
    | with_reducible refine Sound.snd_of (by with_reducible assumption) ?_
    | with_reducible refine Sound.thd_of (by with_reducible assumption) ?_
    | intro _
    | split
    | dsimp only
    | with_reducible refine Sound.of_mk ?_ rfl rfl rfl rfl rfl rfl rfl rfl rfl rfl rfl rfl rfl

theorem State.wakeDone_sound {s : State} (hs : Sound p q s) :
    Sound p q (State.wakeDone s) := by
  unfold State.wakeDone
  repeat' first
    | with_reducible assumption
    | with_reducible apply foldl_sound
    | with_reducible apply State.setFld_sound
    | with_reducible apply State.event_sound
    | with_reducible apply State.wakePair_sound
    | with_reducible apply State.wakeRestore_sound
    | with_reducible apply State.wakeBlocks_sound
    | with_reducible refine Sound.snd_of (by with_reducible assumption) ?_
    | with_reducible refine Sound.thd_of (by with_reducible assumption) ?_
    | intro _
    | split
    | dsimp only
    | with_reducible refine Sound.of_mk ?_ rfl rfl rfl rfl rfl rfl rfl rfl rfl rfl rfl rfl rfl

theorem State.attempt_sound {s : State} (x1 : WakeResult) (hs : Sound p q s) :
    Sound p q (State.attempt s x1) := by
  unfold State.attempt
  repeat' first
    | with_reducible assumption
    | with_reducible apply foldl_sound
    | with_reducible apply State.wakeDone_sound
    | with_reducible refine Sound.snd_of (by with_reducible assumption) ?_
    | with_reducible refine Sound.thd_of (by with_reducible assumption) ?_
    | intro _
    | split
    | dsimp only
    | with_reducible refine Sound.of_mk ?_ rfl rfl rfl rfl rfl rfl rfl rfl rfl rfl rfl rfl rfl

theorem State.startWake_sound {s : State} (b : Nat) (r : WakeResult) (hs : Sound p q s) :
    Sound p q (State.startWake s b r) := by
  unfold State.startWake
  repeat' first
    | with_reducible assumption
    | with_reducible apply foldl_sound
    | with_reducible apply State.setFld_sound
    | with_reducible apply State.sendFlit_sound
    | with_reducible apply State.attempt_sound
    | with_reducible refine Sound.snd_of (by with_reducible assumption) ?_
    | with_reducible refine Sound.thd_of (by with_reducible assumption) ?_
    | intro _
    | split
    | dsimp only
    | with_reducible refine Sound.of_mk ?_ rfl rfl rfl rfl rfl rfl rfl rfl rfl rfl rfl rfl rfl

theorem State.offWake_sound {s : State} (b : Nat) (hs : Sound p q s) :
    Sound p q (State.offWake s b) := by
  unfold State.offWake
  repeat' first
    | with_reducible assumption
    | with_reducible apply foldl_sound
    | with_reducible apply State.setFld_sound
    | with_reducible apply State.enterPower_sound
    | with_reducible refine Sound.snd_of (by with_reducible assumption) ?_
    | with_reducible refine Sound.thd_of (by with_reducible assumption) ?_
    | intro _
    | split
    | dsimp only
    | with_reducible refine Sound.of_mk ?_ rfl rfl rfl rfl rfl rfl rfl rfl rfl rfl rfl rfl rfl

theorem State.wakeSource_sound {s : State} (b : Nat) (r : WakeResult) (hs : Sound p q s) :
    Sound p q (State.wakeSource s b r) := by
  unfold State.wakeSource
  repeat' first
    | with_reducible assumption
    | with_reducible apply foldl_sound
    | with_reducible apply State.refuseEntry_sound
    | with_reducible apply State.startWake_sound
    | with_reducible apply State.offWake_sound
    | with_reducible refine Sound.snd_of (by with_reducible assumption) ?_
    | with_reducible refine Sound.thd_of (by with_reducible assumption) ?_
    | intro _
    | split
    | dsimp only
    | with_reducible refine Sound.of_mk ?_ rfl rfl rfl rfl rfl rfl rfl rfl rfl rfl rfl rfl rfl

theorem State.wakeTlp_sound {s : State} (port : Nat) (r : WakeResult) (hs : Sound p q s) :
    Sound p q (State.wakeTlp s port r) := by
  unfold State.wakeTlp
  repeat' first
    | with_reducible assumption
    | with_reducible apply foldl_sound
    | with_reducible apply State.wakeSource_sound
    | with_reducible refine Sound.snd_of (by with_reducible assumption) ?_
    | with_reducible refine Sound.thd_of (by with_reducible assumption) ?_
    | intro _
    | split
    | dsimp only
    | with_reducible refine Sound.of_mk ?_ rfl rfl rfl rfl rfl rfl rfl rfl rfl rfl rfl rfl rfl

theorem State.wakePin_sound {s : State} (r : WakeResult) (hs : Sound p q s) :
    Sound p q (State.wakePin s r) := by
  unfold State.wakePin
  repeat' first
    | with_reducible assumption
    | with_reducible apply foldl_sound
    | with_reducible apply State.setFld_sound
    | with_reducible apply State.event_sound
    | with_reducible apply State.wakeSource_sound
    | with_reducible refine Sound.snd_of (by with_reducible assumption) ?_
    | with_reducible refine Sound.thd_of (by with_reducible assumption) ?_
    | intro _
    | split
    | dsimp only
    | with_reducible refine Sound.of_mk ?_ rfl rfl rfl rfl rfl rfl rfl rfl rfl rfl rfl rfl rfl

theorem State.motionEdge_sound {s : State} (level : Bool) (r : WakeResult) (hs : Sound p q s) :
    Sound p q (State.motionEdge s level r) := by
  unfold State.motionEdge
  repeat' first
    | with_reducible assumption
    | with_reducible apply foldl_sound
    | with_reducible apply State.setFld_sound
    | with_reducible apply State.event_sound
    | with_reducible apply State.wakeSource_sound
    | with_reducible refine Sound.snd_of (by with_reducible assumption) ?_
    | with_reducible refine Sound.thd_of (by with_reducible assumption) ?_
    | intro _
    | split
    | dsimp only
    | with_reducible refine Sound.of_mk ?_ rfl rfl rfl rfl rfl rfl rfl rfl rfl rfl rfl rfl rfl

theorem State.canWake_sound {s : State} (r : WakeResult) (hs : Sound p q s) :
    Sound p q (State.canWake s r) := by
  unfold State.canWake
  repeat' first
    | with_reducible assumption
    | with_reducible apply foldl_sound
    | with_reducible apply State.event_sound
    | with_reducible apply State.wakeSource_sound
    | with_reducible refine Sound.snd_of (by with_reducible assumption) ?_
    | with_reducible refine Sound.thd_of (by with_reducible assumption) ?_
    | intro _
    | split
    | dsimp only
    | with_reducible refine Sound.of_mk ?_ rfl rfl rfl rfl rfl rfl rfl rfl rfl rfl rfl rfl rfl

theorem State.alarmFire_sound {s : State} (r : WakeResult) (hs : Sound p q s) :
    Sound p q (State.alarmFire s r) := by
  unfold State.alarmFire
  repeat' first
    | with_reducible assumption
    | with_reducible apply foldl_sound
    | with_reducible apply State.setFld_sound
    | with_reducible apply State.event_sound
    | with_reducible apply State.wakeSource_sound
    | with_reducible refine Sound.snd_of (by with_reducible assumption) ?_
    | with_reducible refine Sound.thd_of (by with_reducible assumption) ?_
    | intro _
    | split
    | dsimp only
    | with_reducible refine Sound.of_mk ?_ rfl rfl rfl rfl rfl rfl rfl rfl rfl rfl rfl rfl rfl

theorem State.wakeFlit_sound {s : State} (sub : Nat) (arg : Nat) (r : WakeResult) (hs : Sound p q s) :
    Sound p q (State.wakeFlit s sub arg r) := by
  unfold State.wakeFlit
  repeat' first
    | with_reducible assumption
    | with_reducible apply foldl_sound
    | with_reducible apply State.wakeReport_sound
    | with_reducible apply State.wakeSource_sound
    | with_reducible refine Sound.snd_of (by with_reducible assumption) ?_
    | with_reducible refine Sound.thd_of (by with_reducible assumption) ?_
    | intro _
    | split
    | dsimp only
    | with_reducible refine Sound.of_mk ?_ rfl rfl rfl rfl rfl rfl rfl rfl rfl rfl rfl rfl rfl

theorem State.failLatched_sound (x0 : List (List Word32)) (x1 : List (Nat × Nat)) {x2 : State} (hx2 : Sound p q x2) :
    Sound p q (State.failLatched x0 x1 x2) := by
  induction x0 generalizing x1 x2 with
  | nil =>
    unfold State.failLatched
    repeat' first
      | with_reducible assumption
      | with_reducible apply foldl_sound
      | with_reducible apply State.setQueue_sound
      | with_reducible apply State.complete_sound
      | with_reducible apply State.take_sound
      | with_reducible refine Sound.snd_of (by with_reducible assumption) ?_
      | with_reducible refine Sound.thd_of (by with_reducible assumption) ?_
      | intro _
      | split
      | dsimp only
      | with_reducible refine Sound.of_mk ?_ rfl rfl rfl rfl rfl rfl rfl rfl rfl rfl rfl rfl rfl
  | cons _ _ ih =>
    unfold State.failLatched
    repeat' first
      | with_reducible assumption
      | with_reducible apply ih
      | with_reducible apply foldl_sound
      | with_reducible apply State.setQueue_sound
      | with_reducible apply State.complete_sound
      | with_reducible apply State.take_sound
      | with_reducible refine Sound.snd_of (by with_reducible assumption) ?_
      | with_reducible refine Sound.thd_of (by with_reducible assumption) ?_
      | intro _
      | split
      | dsimp only
      | with_reducible refine Sound.of_mk ?_ rfl rfl rfl rfl rfl rfl rfl rfl rfl rfl rfl rfl rfl

theorem State.canReport_sound {s : State} (reason : Nat) (hs : Sound p q s) :
    Sound p q (State.canReport s reason) := by
  unfold State.canReport
  repeat' first
    | with_reducible assumption
    | with_reducible apply foldl_sound
    | with_reducible apply State.emit_sound
    | with_reducible refine Sound.snd_of (by with_reducible assumption) ?_
    | with_reducible refine Sound.thd_of (by with_reducible assumption) ?_
    | intro _
    | split
    | dsimp only
    | with_reducible refine Sound.of_mk ?_ rfl rfl rfl rfl rfl rfl rfl rfl rfl rfl rfl rfl rfl

theorem State.wakeFailed_sound {s : State} (reason : Nat) (item : Nat) (entries : List (List Word32)) (hs : Sound p q s) :
    Sound p q (State.wakeFailed s reason item entries) := by
  unfold State.wakeFailed
  repeat' first
    | with_reducible assumption
    | with_reducible apply foldl_sound
    | with_reducible apply State.setFld_sound
    | with_reducible apply State.event_sound
    | with_reducible apply State.recErr_sound
    | with_reducible apply State.sendFlit_sound
    | with_reducible apply State.sqDoorbell_sound
    | with_reducible apply State.failLatched_sound
    | with_reducible apply State.canReport_sound
    | with_reducible refine Sound.snd_of (by with_reducible assumption) ?_
    | with_reducible refine Sound.thd_of (by with_reducible assumption) ?_
    | intro _
    | split
    | dsimp only
    | with_reducible refine Sound.of_mk ?_ rfl rfl rfl rfl rfl rfl rfl rfl rfl rfl rfl rfl rfl

theorem State.wakeStepTimeout_sound {s : State} (reason : Nat) (item : Nat) (entries : List (List Word32)) (hs : Sound p q s) :
    Sound p q (State.wakeStepTimeout s reason item entries) := by
  unfold State.wakeStepTimeout
  repeat' first
    | with_reducible assumption
    | with_reducible apply foldl_sound
    | with_reducible apply State.wakeFailed_sound
    | with_reducible refine Sound.snd_of (by with_reducible assumption) ?_
    | with_reducible refine Sound.thd_of (by with_reducible assumption) ?_
    | intro _
    | split
    | dsimp only
    | with_reducible refine Sound.of_mk ?_ rfl rfl rfl rfl rfl rfl rfl rfl rfl rfl rfl rfl rfl

theorem State.wakeRetry_sound {s : State} (r : WakeResult) (hs : Sound p q s) :
    Sound p q (State.wakeRetry s r) := by
  unfold State.wakeRetry
  repeat' first
    | with_reducible assumption
    | with_reducible apply foldl_sound
    | with_reducible apply State.attempt_sound
    | with_reducible refine Sound.snd_of (by with_reducible assumption) ?_
    | with_reducible refine Sound.thd_of (by with_reducible assumption) ?_
    | intro _
    | split
    | dsimp only
    | with_reducible refine Sound.of_mk ?_ rfl rfl rfl rfl rfl rfl rfl rfl rfl rfl rfl rfl rfl

theorem State.resumeRun_sound {s : State} (hs : Sound p q s) :
    Sound p q (State.resumeRun s) := by
  unfold State.resumeRun
  repeat' first
    | with_reducible assumption
    | with_reducible apply foldl_sound
    | with_reducible apply State.setFld_sound
    | with_reducible apply State.event_sound
    | with_reducible apply State.complete_sound
    | with_reducible apply State.dropLink_sound
    | with_reducible apply State.enterPair_sound
    | with_reducible apply State.followPartner_sound
    | with_reducible apply State.wakeDone_sound
    | with_reducible refine Sound.snd_of (by with_reducible assumption) ?_
    | with_reducible refine Sound.thd_of (by with_reducible assumption) ?_
    | intro _
    | split
    | dsimp only
    | with_reducible refine Sound.of_mk ?_ rfl rfl rfl rfl rfl rfl rfl rfl rfl rfl rfl rfl rfl

theorem State.pointOfNoReturn_sound {s : State} (supplyGood : Bool) (hs : Sound p q s) :
    Sound p q (State.pointOfNoReturn s supplyGood) := by
  unfold State.pointOfNoReturn
  repeat' first
    | with_reducible assumption
    | with_reducible apply foldl_sound
    | with_reducible apply State.setFld_sound
    | with_reducible apply State.dropLink_sound
    | with_reducible apply State.bridgesOff_sound
    | with_reducible apply State.startSave_sound
    | with_reducible apply State.resumeRun_sound
    | with_reducible refine Sound.snd_of (by with_reducible assumption) ?_
    | with_reducible refine Sound.thd_of (by with_reducible assumption) ?_
    | intro _
    | split
    | dsimp only
    | with_reducible refine Sound.of_mk ?_ rfl rfl rfl rfl rfl rfl rfl rfl rfl rfl rfl rfl rfl

end Sys2Proof.Machine
end

