-- ==== Sys2Proof/Laws/SoundStartup.lean ====
section
/-! SUPPORT. Every operation of Machine/Startup.lean keeps the invariant of Safety.lean. -/

namespace Sys2Proof.Machine

set_option Elab.async false
set_option linter.all false

variable {p : Part} {q : List Instr}

theorem State.pickImage_sound {s : State} (kind : Nat) (reason : Nat) (pass : Nat → Bool) (other : Bool) (hs : Sound p q s) :
    Sound p q (State.pickImage s kind reason pass other).2 := by
  unfold State.pickImage
  repeat' first
    | with_reducible assumption
    | with_reducible apply foldl_sound
    | with_reducible apply State.writeBoot_sound
    | with_reducible apply State.revertImage_sound
    | with_reducible refine Sound.snd_of (by with_reducible assumption) ?_
    | with_reducible refine Sound.thd_of (by with_reducible assumption) ?_
    | intro _
    | split
    | dsimp only
    | with_reducible refine Sound.of_mk ?_ rfl rfl rfl rfl rfl rfl rfl rfl rfl rfl rfl rfl rfl

theorem State.pickSettings_sound {s : State} (l : StartLoad) (slot : Nat) (hs : Sound p q s) :
    Sound p q (State.pickSettings s l slot).2.2 := by
  unfold State.pickSettings
  repeat' first
    | with_reducible assumption
    | with_reducible apply foldl_sound
    | with_reducible apply State.recErr_sound
    | with_reducible apply State.revertImage_sound
    | with_reducible apply State.pickImage_sound
    | with_reducible refine Sound.snd_of (by with_reducible assumption) ?_
    | with_reducible refine Sound.thd_of (by with_reducible assumption) ?_
    | intro _
    | split
    | dsimp only
    | with_reducible refine Sound.of_mk ?_ rfl rfl rfl rfl rfl rfl rfl rfl rfl rfl rfl rfl rfl

theorem State.burnWaiting_sound {s : State} (hs : Sound p q s) :
    Sound p q (State.burnWaiting s) := by
  unfold State.burnWaiting
  repeat' first
    | with_reducible assumption
    | with_reducible apply foldl_sound
    | with_reducible apply State.burnFuse_sound
    | with_reducible refine Sound.snd_of (by with_reducible assumption) ?_
    | with_reducible refine Sound.thd_of (by with_reducible assumption) ?_
    | intro _
    | split
    | dsimp only
    | with_reducible refine Sound.of_mk ?_ rfl rfl rfl rfl rfl rfl rfl rfl rfl rfl rfl rfl rfl

theorem State.loadApplet_sound {s : State} (l : StartLoad) (hs : Sound p q s) :
    Sound p q (State.loadApplet s l) := by
  unfold State.loadApplet
  repeat' first
    | with_reducible assumption
    | with_reducible apply foldl_sound
    | with_reducible apply State.setFld_sound
    | with_reducible apply State.recErr_sound
    | with_reducible apply State.setLoaded_sound
    | with_reducible refine Sound.snd_of (by with_reducible assumption) ?_
    | with_reducible refine Sound.thd_of (by with_reducible assumption) ?_
    | intro _
    | split
    | dsimp only
    | with_reducible refine Sound.of_mk ?_ rfl rfl rfl rfl rfl rfl rfl rfl rfl rfl rfl rfl rfl

theorem State.loadSettings_sound {s : State} (c : Settings) (hs : Sound p q s) :
    Sound p q (State.loadSettings s c) := by
  unfold State.loadSettings
  repeat' first
    | with_reducible assumption
    | with_reducible apply foldl_sound
    | with_reducible apply State.setLoaded_sound
    | with_reducible refine Sound.snd_of (by with_reducible assumption) ?_
    | with_reducible refine Sound.thd_of (by with_reducible assumption) ?_
    | intro _
    | split
    | dsimp only
    | with_reducible refine Sound.of_mk ?_ rfl rfl rfl rfl rfl rfl rfl rfl rfl rfl rfl rfl rfl

theorem State.phaseLoad_sound {s : State} (l : StartLoad) (hs : Sound p q s) :
    Sound p q (State.phaseLoad s l) := by
  unfold State.phaseLoad
  repeat' first
    | with_reducible assumption
    | with_reducible apply foldl_sound
    | with_reducible apply State.setFld_sound
    | with_reducible apply State.setLoaded_sound
    | with_reducible apply State.deviceReset_sound
    | with_reducible apply State.pickImage_sound
    | with_reducible apply State.pickSettings_sound
    | with_reducible apply State.burnWaiting_sound
    | with_reducible apply State.loadApplet_sound
    | with_reducible apply State.loadSettings_sound
    | with_reducible refine Sound.snd_of (by with_reducible assumption) ?_
    | with_reducible refine Sound.thd_of (by with_reducible assumption) ?_
    | intro _
    | split
    | dsimp only
    | with_reducible refine Sound.of_mk ?_ rfl rfl rfl rfl rfl rfl rfl rfl rfl rfl rfl rfl rfl

theorem State.useImage_sound {s : State} (hs : Sound p q s) :
    Sound p q (State.useImage s) := by
  unfold State.useImage
  repeat' first
    | with_reducible assumption
    | with_reducible apply foldl_sound
    | with_reducible apply State.writeBack_sound
    | with_reducible refine Sound.snd_of (by with_reducible assumption) ?_
    | with_reducible refine Sound.thd_of (by with_reducible assumption) ?_
    | intro _
    | split
    | dsimp only
    | with_reducible refine Sound.of_mk ?_ rfl rfl rfl rfl rfl rfl rfl rfl rfl rfl rfl rfl rfl

theorem State.setRegions_sound {s : State} (hs : Sound p q s) :
    Sound p q (State.setRegions s) := by
  unfold State.setRegions
  repeat' first
    | with_reducible assumption
    | with_reducible apply foldl_sound
    | with_reducible apply State.setLoaded_sound
    | with_reducible apply State.regionsSet_sound
    | with_reducible refine Sound.snd_of (by with_reducible assumption) ?_
    | with_reducible refine Sound.thd_of (by with_reducible assumption) ?_
    | intro _
    | split
    | dsimp only
    | with_reducible refine Sound.of_mk ?_ rfl rfl rfl rfl rfl rfl rfl rfl rfl rfl rfl rfl rfl

theorem State.loadCfg_sound {s : State} (cfg : Nat) (hs : Sound p q s) :
    Sound p q (State.loadCfg s cfg) := by
  unfold State.loadCfg
  repeat' first
    | with_reducible assumption
    | with_reducible apply foldl_sound
    | with_reducible apply State.setLoaded_sound
    | with_reducible refine Sound.snd_of (by with_reducible assumption) ?_
    | with_reducible refine Sound.thd_of (by with_reducible assumption) ?_
    | intro _
    | split
    | dsimp only
    | with_reducible refine Sound.of_mk ?_ rfl rfl rfl rfl rfl rfl rfl rfl rfl rfl rfl rfl rfl

theorem State.startDram_sound {s : State} (hs : Sound p q s) :
    Sound p q (State.startDram s) := by
  unfold State.startDram
  repeat' first
    | with_reducible assumption
    | with_reducible apply foldl_sound
    | with_reducible apply State.setFld_sound
    | with_reducible apply State.setDmc_sound
    | with_reducible refine Sound.snd_of (by with_reducible assumption) ?_
    | with_reducible refine Sound.thd_of (by with_reducible assumption) ?_
    | intro _
    | split
    | dsimp only
    | with_reducible refine Sound.of_mk ?_ rfl rfl rfl rfl rfl rfl rfl rfl rfl rfl rfl rfl rfl

theorem State.phaseMemory_sound {s : State} (l : StartLoad) (hs : Sound p q s) :
    Sound p q (State.phaseMemory s l) := by
  unfold State.phaseMemory
  repeat' first
    | with_reducible assumption
    | with_reducible apply foldl_sound
    | with_reducible apply State.setFld_sound
    | with_reducible apply State.event_sound
    | with_reducible apply State.recErr_sound
    | with_reducible apply State.surveyDue_sound
    | with_reducible apply State.bridgeTime_sound
    | with_reducible apply State.recallTail_sound
    | with_reducible apply State.limitLog_sound
    | with_reducible apply State.useImage_sound
    | with_reducible apply State.setRegions_sound
    | with_reducible apply State.loadCfg_sound
    | with_reducible apply State.startDram_sound
    | with_reducible refine Sound.snd_of (by with_reducible assumption) ?_
    | with_reducible refine Sound.thd_of (by with_reducible assumption) ?_
    | intro _
    | split
    | dsimp only
    | with_reducible refine Sound.of_mk ?_ rfl rfl rfl rfl rfl rfl rfl rfl rfl rfl rfl rfl rfl

theorem State.secureWrite_sound {s : State} (key : Nat) (v : Nat) (hs : Sound p q s) :
    Sound p q (State.secureWrite s key v) := by
  unfold State.secureWrite
  repeat' first
    | with_reducible assumption
    | with_reducible apply foldl_sound
    | with_reducible apply State.regWrite_sound
    | with_reducible refine Sound.snd_of (by with_reducible assumption) ?_
    | with_reducible refine Sound.thd_of (by with_reducible assumption) ?_
    | intro _
    | split
    | dsimp only
    | with_reducible refine Sound.of_mk ?_ rfl rfl rfl rfl rfl rfl rfl rfl rfl rfl rfl rfl rfl

theorem State.applyPlan_sound {s : State} (x1 : OwnPlan) (hs : Sound p q s) :
    Sound p q (State.applyPlan s x1) := by
  unfold State.applyPlan
  repeat' first
    | with_reducible assumption
    | with_reducible apply foldl_sound
    | with_reducible apply State.setRw_sound
    | with_reducible apply State.setFld_sound
    | with_reducible apply State.setLoaded_sound
    | with_reducible apply State.secureWrite_sound
    | with_reducible refine Sound.snd_of (by with_reducible assumption) ?_
    | with_reducible refine Sound.thd_of (by with_reducible assumption) ?_
    | intro _
    | split
    | dsimp only
    | with_reducible refine Sound.of_mk ?_ rfl rfl rfl rfl rfl rfl rfl rfl rfl rfl rfl rfl rfl

theorem State.defaultPlan_sound {s : State} (hs : Sound p q s) :
    Sound p q (State.defaultPlan s) := by
  unfold State.defaultPlan
  repeat' first
    | with_reducible assumption
    | with_reducible apply foldl_sound
    | with_reducible apply State.setFld_sound
    | with_reducible apply State.event_sound
    | with_reducible apply State.setLoaded_sound
    | with_reducible refine Sound.snd_of (by with_reducible assumption) ?_
    | with_reducible refine Sound.thd_of (by with_reducible assumption) ?_
    | intro _
    | split
    | dsimp only
    | with_reducible refine Sound.of_mk ?_ rfl rfl rfl rfl rfl rfl rfl rfl rfl rfl rfl rfl rfl

theorem State.placePool_sound {s : State} (x1 : PoolSection) (hs : Sound p q s) :
    Sound p q (State.placePool s x1) := by
  unfold State.placePool
  repeat' first
    | with_reducible assumption
    | with_reducible apply foldl_sound
    | with_reducible apply State.setRw_sound
    | with_reducible apply State.secureWrite_sound
    | with_reducible refine Sound.snd_of (by with_reducible assumption) ?_
    | with_reducible refine Sound.thd_of (by with_reducible assumption) ?_
    | intro _
    | split
    | dsimp only
    | with_reducible refine Sound.of_mk ?_ rfl rfl rfl rfl rfl rfl rfl rfl rfl rfl rfl rfl rfl

theorem State.startPair_sound {s : State} (hs : Sound p q s) :
    Sound p q (State.startPair s) := by
  unfold State.startPair
  repeat' first
    | with_reducible assumption
    | with_reducible apply foldl_sound
    | with_reducible apply State.pairStart_sound
    | with_reducible apply State.setLoaded_sound
    | with_reducible refine Sound.snd_of (by with_reducible assumption) ?_
    | with_reducible refine Sound.thd_of (by with_reducible assumption) ?_
    | intro _
    | split
    | dsimp only
    | with_reducible refine Sound.of_mk ?_ rfl rfl rfl rfl rfl rfl rfl rfl rfl rfl rfl rfl rfl

theorem State.putWord_sound {s : State} (k : Nat) (v : Nat) (hs : Sound p q s) :
    Sound p q (State.putWord s k v) := by
  unfold State.putWord
  repeat' first
    | with_reducible assumption
    | with_reducible apply foldl_sound
    | with_reducible apply State.setRw_sound
    | with_reducible apply State.setSw_sound
    | with_reducible refine Sound.snd_of (by with_reducible assumption) ?_
    | with_reducible refine Sound.thd_of (by with_reducible assumption) ?_
    | intro _
    | split
    | dsimp only
    | with_reducible refine Sound.of_mk ?_ rfl rfl rfl rfl rfl rfl rfl rfl rfl rfl rfl rfl rfl

theorem State.fillImage_sound {s : State} (i : Nat) (ws : List Nat) (hs : Sound p q s) :
    Sound p q (State.fillImage s i ws) := by
  unfold State.fillImage
  repeat' first
    | with_reducible assumption
    | with_reducible apply foldl_sound
    | with_reducible apply State.storeWord_sound
    | with_reducible refine Sound.snd_of (by with_reducible assumption) ?_
    | with_reducible refine Sound.thd_of (by with_reducible assumption) ?_
    | intro _
    | split
    | dsimp only
    | with_reducible refine Sound.of_mk ?_ rfl rfl rfl rfl rfl rfl rfl rfl rfl rfl rfl rfl rfl

theorem State.earlyBuffer_sound {s t : State} {e : EarlyEntry} {a b : Nat} (h : State.earlyBuffer s e = some (a, b, t)) (hs : Sound p q s) :
    Sound p q t := by
  unfold State.earlyBuffer at h
  dsimp only at h
  split at h
  · simp at h
  · split at h
    · simp at h
    · split at h
      · simp at h
      · simp only [Option.some.injEq, Prod.mk.injEq] at h
        obtain ⟨-, -, rfl⟩ := h
        repeat' first
          | with_reducible assumption
          | with_reducible apply foldl_sound
          | with_reducible apply State.fillImage_sound
          | with_reducible apply State.zeroRange_sound
          | with_reducible apply State.setBuf_sound
          | with_reducible apply State.allocate_sound
          | with_reducible refine Sound.of_tables ?_ (fun h => ⟨SlotTable.sorted_occupy _ _ h.chans, h.bufs⟩) rfl rfl rfl rfl rfl rfl rfl rfl rfl rfl rfl
          | intro _
          | split
          | with_reducible refine Sound.of_mk ?_ rfl rfl rfl rfl rfl rfl rfl rfl rfl rfl rfl rfl rfl

theorem State.earlySlot_sound {s : State} (e : EarlyEntry) (i : Nat) (hs : Sound p q s) :
    Sound p q (State.earlySlot s e i) := by
  unfold State.earlySlot
  repeat' first
    | with_reducible assumption
    | with_reducible apply foldl_sound
    | with_reducible apply State.setRw_sound
    | with_reducible apply State.setFld_sound
    | with_reducible apply State.setSfld_sound
    | with_reducible apply State.grantResources_sound
    | with_reducible apply State.settleStore_sound
    | with_reducible apply State.takeSlotFences_sound
    | with_reducible apply State.plainEnable_sound
    | with_reducible apply State.putWord_sound
    | with_reducible refine Sound.snd_of (by with_reducible assumption) ?_
    | with_reducible refine Sound.thd_of (by with_reducible assumption) ?_
    | intro _
    | split
    | dsimp only
    | with_reducible refine Sound.of_mk ?_ rfl rfl rfl rfl rfl rfl rfl rfl rfl rfl rfl rfl rfl

theorem State.earlyImage_sound {s : State} (e : EarlyEntry) (hs : Sound p q s) :
    Sound p q (State.earlyImage s e) := by
  unfold State.earlyImage
  repeat' first
    | with_reducible refine State.earlyBuffer_sound (by with_reducible assumption) ?_
    | with_reducible assumption
    | with_reducible apply foldl_sound
    | with_reducible apply State.setFld_sound
    | with_reducible apply State.logInfo_sound
    | with_reducible apply State.secureWrite_sound
    | with_reducible apply State.earlySlot_sound
    | with_reducible refine Sound.snd_of (by with_reducible assumption) ?_
    | with_reducible refine Sound.thd_of (by with_reducible assumption) ?_
    | intro _
    | split
    | dsimp only
    | with_reducible refine Sound.of_mk ?_ rfl rfl rfl rfl rfl rfl rfl rfl rfl rfl rfl rfl rfl

theorem State.phasePlan_sound {s : State} (hs : Sound p q s) :
    Sound p q (State.phasePlan s) := by
  unfold State.phasePlan
  repeat' first
    | with_reducible assumption
    | with_reducible apply foldl_sound
    | with_reducible apply State.setFld_sound
    | with_reducible apply State.applyPlan_sound
    | with_reducible apply State.defaultPlan_sound
    | with_reducible apply State.placePool_sound
    | with_reducible apply State.startPair_sound
    | with_reducible apply State.earlyImage_sound
    | with_reducible refine Sound.snd_of (by with_reducible assumption) ?_
    | with_reducible refine Sound.thd_of (by with_reducible assumption) ?_
    | intro _
    | split
    | dsimp only
    | with_reducible refine Sound.of_mk ?_ rfl rfl rfl rfl rfl rfl rfl rfl rfl rfl rfl rfl rfl

theorem State.phaseFull_sound {s : State} (hs : Sound p q s) :
    Sound p q (State.phaseFull s) := by
  unfold State.phaseFull
  repeat' first
    | with_reducible assumption
    | with_reducible apply foldl_sound
    | with_reducible apply State.setFld_sound
    | with_reducible apply State.event_sound
    | with_reducible apply State.touchRestart_sound
    | with_reducible apply State.burnWaiting_sound
    | with_reducible refine Sound.snd_of (by with_reducible assumption) ?_
    | with_reducible refine Sound.thd_of (by with_reducible assumption) ?_
    | intro _
    | split
    | dsimp only
    | with_reducible refine Sound.of_mk ?_ rfl rfl rfl rfl rfl rfl rfl rfl rfl rfl rfl rfl rfl

theorem State.phaseStep_sound {s : State} (l : StartLoad) (hs : Sound p q s) :
    Sound p q (State.phaseStep s l) := by
  unfold State.phaseStep
  repeat' first
    | with_reducible assumption
    | with_reducible apply foldl_sound
    | with_reducible apply State.setFld_sound
    | with_reducible apply State.phaseLoad_sound
    | with_reducible apply State.phaseMemory_sound
    | with_reducible apply State.phasePlan_sound
    | with_reducible apply State.phaseFull_sound
    | with_reducible refine Sound.snd_of (by with_reducible assumption) ?_
    | with_reducible refine Sound.thd_of (by with_reducible assumption) ?_
    | intro _
    | split
    | dsimp only
    | with_reducible refine Sound.of_mk ?_ rfl rfl rfl rfl rfl rfl rfl rfl rfl rfl rfl rfl rfl

theorem State.phaseEnd_sound {s : State} (l : StartLoad) (hs : Sound p q s) :
    Sound p q (State.phaseEnd s l) := by
  unfold State.phaseEnd
  repeat' first
    | with_reducible assumption
    | with_reducible apply foldl_sound
    | with_reducible apply State.setFld_sound
    | with_reducible apply State.logInfo_sound
    | with_reducible apply State.phaseStep_sound
    | with_reducible refine Sound.snd_of (by with_reducible assumption) ?_
    | with_reducible refine Sound.thd_of (by with_reducible assumption) ?_
    | intro _
    | split
    | dsimp only
    | with_reducible refine Sound.of_mk ?_ rfl rfl rfl rfl rfl rfl rfl rfl rfl rfl rfl rfl rfl

theorem State.resetN_sound {s : State} (hs : Sound p q s) :
    Sound p q (State.resetN s) := by
  unfold State.resetN
  repeat' first
    | with_reducible assumption
    | with_reducible apply foldl_sound
    | with_reducible apply State.deviceReset_sound
    | with_reducible refine Sound.snd_of (by with_reducible assumption) ?_
    | with_reducible refine Sound.thd_of (by with_reducible assumption) ?_
    | intro _
    | split
    | dsimp only
    | with_reducible refine Sound.of_mk ?_ rfl rfl rfl rfl rfl rfl rfl rfl rfl rfl rfl rfl rfl

theorem State.resetRelease_sound {s : State} (hs : Sound p q s) :
    Sound p q (State.resetRelease s) := by
  unfold State.resetRelease
  repeat' first
    | with_reducible assumption
    | with_reducible apply foldl_sound
    | with_reducible apply State.setFld_sound
    | with_reducible apply State.logInfo_sound
    | with_reducible refine Sound.snd_of (by with_reducible assumption) ?_
    | with_reducible refine Sound.thd_of (by with_reducible assumption) ?_
    | intro _
    | split
    | dsimp only
    | with_reducible refine Sound.of_mk ?_ rfl rfl rfl rfl rfl rfl rfl rfl rfl rfl rfl rfl rfl

end Sys2Proof.Machine
end

