-- ==== Sys2Proof/Laws/SoundExec.lean ====
section
/-! SUPPORT. Every command keeps the invariant of Safety.lean. -/

namespace Sys2Proof.Machine

set_option Elab.async false
set_option linter.all false

variable {pt : Part} {qu : List Instr}

theorem execRegisterWrite_sound (w : RegWr) {s t : State} (h : execRegisterWrite w s = .next t) (hs : Sound pt qu s) : Sound pt qu t := by
  cases h
  repeat' first
    | with_reducible assumption
    | with_reducible apply State.access_sound
    | with_reducible apply State.regWrite_sound
    | intro _
    | split
    | dsimp only

theorem execWideRegisterWrite_sound (w : RegWr) (lows : List Word32) {s t : State} (h : execWideRegisterWrite w lows s = .next t) (hs : Sound pt qu s) : Sound pt qu t := by
  cases h
  repeat' first
    | with_reducible assumption
    | with_reducible apply State.longWrite_sound
    | intro _
    | split
    | dsimp only

theorem execWideRegisterLowRead_sound (r : RegRd) {s t : State} (h : execWideRegisterLowRead r s = .next t) (hs : Sound pt qu s) : Sound pt qu t := by
  cases h
  repeat' first
    | with_reducible assumption
    | with_reducible apply State.accessRead_sound
    | with_reducible apply State.regRead_sound
    | intro _
    | split
    | dsimp only

theorem execCounterLoRead_sound (r : RegRd) {s t : State} (h : execCounterLoRead r s = .next t) (hs : Sound pt qu s) : Sound pt qu t := by
  cases h
  repeat' first
    | with_reducible assumption
    | with_reducible apply State.accessRead_sound
    | with_reducible apply State.regRead_sound
    | intro _
    | split
    | dsimp only

theorem execPgEnableWrite_sound (w : RegWr) {s t : State} (h : execPgEnableWrite w s = .next t) (hs : Sound pt qu s) : Sound pt qu t := by
  cases h
  repeat' first
    | with_reducible assumption
    | with_reducible apply State.accessAt_sound
    | with_reducible apply State.pgCtrl_sound
    | intro _
    | split
    | dsimp only

theorem execPgSoftReset_sound (w : RegWr) {s t : State} (h : execPgSoftReset w s = .next t) (hs : Sound pt qu s) : Sound pt qu t := by
  cases h
  repeat' first
    | with_reducible assumption
    | with_reducible apply State.accessAt_sound
    | with_reducible apply State.pgCtrl_sound
    | intro _
    | split
    | dsimp only

theorem execPgLock_sound (w : RegWr) {s t : State} (h : execPgLock w s = .next t) (hs : Sound pt qu s) : Sound pt qu t := by
  cases h
  repeat' first
    | with_reducible assumption
    | with_reducible apply State.accessAt_sound
    | with_reducible apply State.pgCtrl_sound
    | intro _
    | split
    | dsimp only

theorem execPgUnlock_sound (w : RegWr) {s t : State} (h : execPgUnlock w s = .next t) (hs : Sound pt qu s) : Sound pt qu t := by
  cases h
  repeat' first
    | with_reducible assumption
    | with_reducible apply State.accessAt_sound
    | with_reducible apply State.pgCtrl_sound
    | intro _
    | split
    | dsimp only

theorem execEvtRawClear_sound (w : RegWr) {s t : State} (h : execEvtRawClear w s = .next t) (hs : Sound pt qu s) : Sound pt qu t := by
  cases h
  repeat' first
    | with_reducible assumption
    | with_reducible apply State.accessAt_sound
    | with_reducible apply State.evtRawWrite_sound
    | with_reducible apply State.chkEventWrite_sound
    | intro _
    | split
    | dsimp only

theorem execEvtSetWrite_sound (w : RegWr) {s t : State} (h : execEvtSetWrite w s = .next t) (hs : Sound pt qu s) : Sound pt qu t := by
  cases h
  repeat' first
    | with_reducible assumption
    | with_reducible apply State.accessAt_sound
    | with_reducible apply State.evtSetWrite_sound
    | intro _
    | split
    | dsimp only

theorem execEvtEnWrite_sound (w : RegWr) {s t : State} (h : execEvtEnWrite w s = .next t) (hs : Sound pt qu s) : Sound pt qu t := by
  cases h
  repeat' first
    | with_reducible assumption
    | with_reducible apply State.accessAt_sound
    | with_reducible apply State.evtEnWrite_sound
    | with_reducible apply State.chkEventWrite_sound
    | intro _
    | split
    | dsimp only

theorem execEvtRouteWrite_sound (w : RegWr) {s t : State} (h : execEvtRouteWrite w s = .next t) (hs : Sound pt qu s) : Sound pt qu t := by
  cases h
  repeat' first
    | with_reducible assumption
    | with_reducible apply State.accessAt_sound
    | with_reducible apply State.evtRouteWrite_sound
    | with_reducible apply State.chkEventWrite_sound
    | intro _
    | split
    | dsimp only

theorem execErrCodeClear_sound (w : RegWr) {s t : State} (h : execErrCodeClear w s = .next t) (hs : Sound pt qu s) : Sound pt qu t := by
  cases h
  repeat' first
    | with_reducible assumption
    | with_reducible apply State.accessAt_sound
    | with_reducible apply State.errClear_sound
    | intro _
    | split
    | dsimp only

theorem execShadowGroupWrite_sound (w : RegWr) {s t : State} (h : execShadowGroupWrite w s = .next t) (hs : Sound pt qu s) : Sound pt qu t := by
  cases h
  repeat' first
    | with_reducible assumption
    | with_reducible apply State.accessAt_sound
    | with_reducible apply State.shadowCtrlWrite_sound
    | intro _
    | split
    | dsimp only

theorem execShadowDiscard_sound (w : RegWr) {s t : State} (h : execShadowDiscard w s = .next t) (hs : Sound pt qu s) : Sound pt qu t := by
  cases h
  repeat' first
    | with_reducible assumption
    | with_reducible apply State.accessAt_sound
    | with_reducible apply State.shadowCtrlWrite_sound
    | intro _
    | split
    | dsimp only

theorem execOwnerWrite_sound (w : RegWr) {s t : State} (h : execOwnerWrite w s = .next t) (hs : Sound pt qu s) : Sound pt qu t := by
  cases h
  repeat' first
    | with_reducible assumption
    | with_reducible apply State.accessAt_sound
    | with_reducible apply State.ownerWord_sound
    | intro _
    | split
    | dsimp only

theorem execChkOwnerWrite_sound (w : RegWr) {s t : State} (h : execChkOwnerWrite w s = .next t) (hs : Sound pt qu s) : Sound pt qu t := by
  cases h
  repeat' first
    | with_reducible assumption
    | with_reducible apply State.accessAt_sound
    | with_reducible apply State.chkOwnerWrite_sound
    | intro _
    | split
    | dsimp only

theorem execChannelCreate_sound (c : CmdArgs) {s t : State} (h : execChannelCreate c s = .next t) (hs : Sound pt qu s) : Sound pt qu t := by
  cases h
  repeat' first
    | with_reducible assumption
    | with_reducible apply State.command_sound
    | with_reducible apply State.carryChannelCreate_sound
    | intro _
    | split
    | dsimp only

theorem execChannelDestroy_sound (c : CmdArgs) {s t : State} (h : execChannelDestroy c s = .next t) (hs : Sound pt qu s) : Sound pt qu t := by
  cases h
  repeat' first
    | with_reducible assumption
    | with_reducible apply State.command_sound
    | with_reducible apply State.carryChannelDestroy_sound
    | intro _
    | split
    | dsimp only

theorem execBufferAlloc_sound (c : CmdArgs) {s t : State} (h : execBufferAlloc c s = .next t) (hs : Sound pt qu s) : Sound pt qu t := by
  cases h
  repeat' first
    | with_reducible assumption
    | with_reducible apply State.command_sound
    | with_reducible apply State.carryBufferAlloc_sound
    | intro _
    | split
    | dsimp only

theorem execBufferFree_sound (c : CmdArgs) {s t : State} (h : execBufferFree c s = .next t) (hs : Sound pt qu s) : Sound pt qu t := by
  cases h
  repeat' first
    | with_reducible assumption
    | with_reducible apply State.command_sound
    | with_reducible apply State.carryBufferFree_sound
    | intro _
    | split
    | dsimp only

theorem execBufferQuery_sound (c : CmdArgs) {s t : State} (h : execBufferQuery c s = .next t) (hs : Sound pt qu s) : Sound pt qu t := by
  cases h
  repeat' first
    | with_reducible assumption
    | with_reducible apply State.command_sound
    | with_reducible apply State.carryBufferQuery_sound
    | intro _
    | split
    | dsimp only

theorem execPlotFillDone_sound {s t : State} (h : execPlotFillDone s = .next t) (hs : Sound pt qu s) : Sound pt qu t := by
  cases h
  repeat' first
    | with_reducible assumption
    | with_reducible apply State.plotFillDone_sound
    | intro _
    | split
    | dsimp only

theorem execPoolEnable_sound (w : RegWr) {s t : State} (h : execPoolEnable w s = .next t) (hs : Sound pt qu s) : Sound pt qu t := by
  cases h
  repeat' first
    | with_reducible assumption
    | with_reducible apply State.accessAt_sound
    | with_reducible apply State.pgCtrl_sound
    | intro _
    | split
    | dsimp only

theorem execPoolFnQuotaWrite_sound (w : RegWr) {s t : State} (h : execPoolFnQuotaWrite w s = .next t) (hs : Sound pt qu s) : Sound pt qu t := by
  cases h
  repeat' first
    | with_reducible assumption
    | with_reducible apply State.accessAt_sound
    | with_reducible apply State.quotaWrite_sound
    | intro _
    | split
    | dsimp only

theorem execPoolFnShareWrite_sound (w : RegWr) {s t : State} (h : execPoolFnShareWrite w s = .next t) (hs : Sound pt qu s) : Sound pt qu t := by
  cases h
  repeat' first
    | with_reducible assumption
    | with_reducible apply State.accessAt_sound
    | with_reducible apply State.shareWrite_sound
    | intro _
    | split
    | dsimp only

theorem execChnFnLimitWrite_sound (w : RegWr) {s t : State} (h : execChnFnLimitWrite w s = .next t) (hs : Sound pt qu s) : Sound pt qu t := by
  cases h
  repeat' first
    | with_reducible assumption
    | with_reducible apply State.accessAt_sound
    | with_reducible apply State.limitWrite_sound
    | intro _
    | split
    | dsimp only

theorem execPoolLowMarkWrite_sound (w : RegWr) {s t : State} (h : execPoolLowMarkWrite w s = .next t) (hs : Sound pt qu s) : Sound pt qu t := by
  cases h
  repeat' first
    | with_reducible assumption
    | with_reducible apply State.accessAt_sound
    | with_reducible apply State.lowMarkWrite_sound
    | intro _
    | split
    | dsimp only

theorem execPoolFnPeakClear_sound (w : RegWr) {s t : State} (h : execPoolFnPeakClear w s = .next t) (hs : Sound pt qu s) : Sound pt qu t := by
  cases h
  repeat' first
    | with_reducible assumption
    | with_reducible apply State.accessAt_sound
    | with_reducible apply State.peakClear_sound
    | intro _
    | split
    | dsimp only

theorem execWatermarkSet_sound (w : RegWr) {s t : State} (h : execWatermarkSet w s = .next t) (hs : Sound pt qu s) : Sound pt qu t := by
  cases h
  repeat' first
    | with_reducible assumption
    | with_reducible apply State.accessAt_sound
    | with_reducible apply State.watermarkWrite_sound
    | intro _
    | split
    | dsimp only

theorem execWldDenyClear_sound (w : RegWr) {s t : State} (h : execWldDenyClear w s = .next t) (hs : Sound pt qu s) : Sound pt qu t := by
  cases h
  repeat' first
    | with_reducible assumption
    | with_reducible apply State.accessAt_sound
    | with_reducible apply State.denyClear_sound
    | intro _
    | split
    | dsimp only

theorem execWldHoldWrite_sound (w : RegWr) {s t : State} (h : execWldHoldWrite w s = .next t) (hs : Sound pt qu s) : Sound pt qu t := by
  cases h
  repeat' first
    | with_reducible assumption
    | with_reducible apply State.accessAt_sound
    | with_reducible apply State.holdWrite_sound
    | intro _
    | split
    | dsimp only

theorem execGateEntry_sound (core : Nat) (call : GateCall) {s t : State} (h : execGateEntry core call s = .next t) (hs : Sound pt qu s) : Sound pt qu t := by
  cases h
  repeat' first
    | with_reducible assumption
    | with_reducible apply State.gateEntry_sound
    | intro _
    | split
    | dsimp only

theorem execGateReturn_sound (core r0 r1 : Nat) {s t : State} (h : execGateReturn core r0 r1 s = .next t) (hs : Sound pt qu s) : Sound pt qu t := by
  cases h
  repeat' first
    | with_reducible assumption
    | with_reducible apply State.gateReturn_sound
    | intro _
    | split
    | dsimp only

theorem execGateTimeout_sound (core : Nat) {s t : State} (h : execGateTimeout core s = .next t) (hs : Sound pt qu s) : Sound pt qu t := by
  cases h
  repeat' first
    | with_reducible assumption
    | with_reducible apply State.gateTimeout_sound
    | intro _
    | split
    | dsimp only

theorem execPmcClear_sound (w : RegWr) {s t : State} (h : execPmcClear w s = .next t) (hs : Sound pt qu s) : Sound pt qu t := by
  cases h
  repeat' first
    | with_reducible assumption
    | with_reducible apply State.accessAt_sound
    | with_reducible apply State.pmcCtrlWrite_sound
    | intro _
    | split
    | dsimp only

theorem execSqDoorbell_sound (w : RegWr) {s t : State} (h : execSqDoorbell w s = .next t) (hs : Sound pt qu s) : Sound pt qu t := by
  cases h
  repeat' first
    | with_reducible assumption
    | with_reducible apply State.accessAt_sound
    | with_reducible apply State.doorbellWrite_sound
    | intro _
    | split
    | dsimp only

theorem execCqDoorbell_sound (w : RegWr) {s t : State} (h : execCqDoorbell w s = .next t) (hs : Sound pt qu s) : Sound pt qu t := by
  cases h
  repeat' first
    | with_reducible assumption
    | with_reducible apply State.accessAt_sound
    | with_reducible apply State.doorbellWrite_sound
    | intro _
    | split
    | dsimp only

theorem execQueueEnable_sound (w : RegWr) {s t : State} (h : execQueueEnable w s = .next t) (hs : Sound pt qu s) : Sound pt qu t := by
  cases h
  repeat' first
    | with_reducible assumption
    | with_reducible apply State.accessAt_sound
    | with_reducible apply State.qCtrlWrite_sound
    | intro _
    | split
    | dsimp only

theorem execQueueDisable_sound (w : RegWr) {s t : State} (h : execQueueDisable w s = .next t) (hs : Sound pt qu s) : Sound pt qu t := by
  cases h
  repeat' first
    | with_reducible assumption
    | with_reducible apply State.accessAt_sound
    | with_reducible apply State.qCtrlWrite_sound
    | intro _
    | split
    | dsimp only

theorem execPeerAccess_sound (fn rid off : Nat) (wr : Option Word32) {s t : State} (h : execPeerAccess fn rid off wr s = .next t) (hs : Sound pt qu s) : Sound pt qu t := by
  cases h
  repeat' first
    | with_reducible assumption
    | with_reducible apply State.peerAccess_sound
    | intro _
    | split
    | dsimp only

theorem execCommandFetch_sound (port : Nat) (entry : List Word32) {s t : State} (h : execCommandFetch port entry s = .next t) (hs : Sound pt qu s) : Sound pt qu t := by
  cases h
  repeat' first
    | with_reducible assumption
    | with_reducible apply State.commandFetch_sound
    | intro _
    | split
    | dsimp only

theorem execCoalesceTimeout_sound (fn q : Nat) {s t : State} (h : execCoalesceTimeout fn q s = .next t) (hs : Sound pt qu s) : Sound pt qu t := by
  cases h
  repeat' first
    | with_reducible assumption
    | with_reducible apply State.coalesceTimeout_sound
    | intro _
    | split
    | dsimp only

theorem execNop_sound (c : CmdArgs) {s t : State} (h : execNop c s = .next t) (hs : Sound pt qu s) : Sound pt qu t := by
  cases h
  repeat' first
    | with_reducible assumption
    | with_reducible apply State.command_sound
    | with_reducible apply State.carryNop_sound
    | intro _
    | split
    | dsimp only

theorem execFnReset_sound (c : CmdArgs) {s t : State} (h : execFnReset c s = .next t) (hs : Sound pt qu s) : Sound pt qu t := by
  cases h
  repeat' first
    | with_reducible assumption
    | with_reducible apply State.command_sound
    | with_reducible apply State.carryFnReset_sound
    | intro _
    | split
    | dsimp only

theorem execFnQuery_sound (c : CmdArgs) {s t : State} (h : execFnQuery c s = .next t) (hs : Sound pt qu s) : Sound pt qu t := by
  cases h
  repeat' first
    | with_reducible assumption
    | with_reducible apply State.command_sound
    | with_reducible apply State.carryFnQuery_sound
    | intro _
    | split
    | dsimp only

theorem execFlr_sound (fn : Nat) {s t : State} (h : execFlr fn s = .next t) (hs : Sound pt qu s) : Sound pt qu t := by
  cases h
  repeat' first
    | with_reducible assumption
    | with_reducible apply State.flr_sound
    | intro _
    | split
    | dsimp only

theorem execVfEnableCleared_sound (port : Nat) {s t : State} (h : execVfEnableCleared port s = .next t) (hs : Sound pt qu s) : Sound pt qu t := by
  cases h
  repeat' first
    | with_reducible assumption
    | with_reducible apply State.clearVfEnable_sound
    | intro _
    | split
    | dsimp only

theorem execVfEnableSet_sound (port n : Nat) {s t : State} (h : execVfEnableSet port n s = .next t) (hs : Sound pt qu s) : Sound pt qu t := by
  cases h
  repeat' first
    | with_reducible assumption
    | with_reducible apply State.setVfEnable_sound
    | intro _
    | split
    | dsimp only

theorem execVfSoftReset_sound (w : RegWr) {s t : State} (h : execVfSoftReset w s = .next t) (hs : Sound pt qu s) : Sound pt qu t := by
  cases h
  repeat' first
    | with_reducible assumption
    | with_reducible apply State.accessAt_sound
    | with_reducible apply State.vfCtrlWrite_sound
    | intro _
    | split
    | dsimp only

theorem execHpPfResetStart_sound (w : RegWr) {s t : State} (h : execHpPfResetStart w s = .next t) (hs : Sound pt qu s) : Sound pt qu t := by
  cases h
  repeat' first
    | with_reducible assumption
    | with_reducible apply State.accessAt_sound
    | with_reducible apply State.pfResetWrite_sound
    | intro _
    | split
    | dsimp only

theorem execHpSoftReset_sound (w : RegWr) {s t : State} (h : execHpSoftReset w s = .next t) (hs : Sound pt qu s) : Sound pt qu t := by
  cases h
  repeat' first
    | with_reducible assumption
    | with_reducible apply State.accessAt_sound
    | with_reducible apply State.ctrlWrite_sound
    | with_reducible apply State.plainEnable_sound
    | with_reducible apply State.hpReset_sound
    | intro _
    | split
    | dsimp only

theorem execFnResetPoolStep_sound (fn : Nat) {s t : State} (h : execFnResetPoolStep fn s = .next t) (hs : Sound pt qu s) : Sound pt qu t := by
  cases h
  repeat' first
    | with_reducible assumption
    | with_reducible apply State.poolStep_sound
    | intro _
    | split
    | dsimp only

theorem execFnResetQueueStep_sound (fn : Nat) {s t : State} (h : execFnResetQueueStep fn s = .next t) (hs : Sound pt qu s) : Sound pt qu t := by
  cases h
  repeat' first
    | with_reducible assumption
    | with_reducible apply State.queueStep_sound
    | intro _
    | split
    | dsimp only

theorem execPortLinkDown_sound (port : Nat) {s t : State} (h : execPortLinkDown port s = .next t) (hs : Sound pt qu s) : Sound pt qu t := by
  cases h
  repeat' first
    | with_reducible assumption
    | with_reducible apply State.portLinkDown_sound
    | intro _
    | split
    | dsimp only

theorem execPortLinkUp_sound (port speed width : Nat) {s t : State} (h : execPortLinkUp port speed width s = .next t) (hs : Sound pt qu s) : Sound pt qu t := by
  cases h
  repeat' first
    | with_reducible assumption
    | with_reducible apply State.portLinkUp_sound
    | intro _
    | split
    | dsimp only

theorem execHpMgrRoleWrite_sound (w : RegWr) {s t : State} (h : execHpMgrRoleWrite w s = .next t) (hs : Sound pt qu s) : Sound pt qu t := by
  cases h
  repeat' first
    | with_reducible assumption
    | with_reducible apply State.accessAt_sound
    | with_reducible apply State.mgrRoleWrite_sound
    | intro _
    | split
    | dsimp only

theorem execIngest_sound (c : CmdArgs) {s t : State} (h : execIngest c s = .next t) (hs : Sound pt qu s) : Sound pt qu t := by
  cases h
  repeat' first
    | with_reducible assumption
    | with_reducible apply State.keepEntry_sound
    | with_reducible apply State.command_sound
    | with_reducible apply State.carryIngest_sound
    | intro _
    | split
    | dsimp only

theorem execIngestStart_sound (engine slot : Nat) {s t : State} (h : execIngestStart engine slot s = .next t) (hs : Sound pt qu s) : Sound pt qu t := by
  cases h
  repeat' first
    | with_reducible assumption
    | with_reducible apply State.ingestStart_sound
    | intro _
    | split
    | dsimp only

theorem execHostReadError_sound (engine slot kind addr tiles : Nat) (host : List (Nat × Byte)) {s t : State} (h : execHostReadError engine slot kind addr tiles host s = .next t) (hs : Sound pt qu s) : Sound pt qu t := by
  cases h
  repeat' first
    | with_reducible assumption
    | with_reducible apply State.hostReadError_sound
    | intro _
    | split
    | dsimp only

theorem execIngestDone_sound (engine slot : Nat) (host : List (Nat × Byte)) {s t : State} (h : execIngestDone engine slot host s = .next t) (hs : Sound pt qu s) : Sound pt qu t := by
  cases h
  repeat' first
    | with_reducible assumption
    | with_reducible apply State.ingestDone_sound
    | intro _
    | split
    | dsimp only

theorem execIngSoftReset_sound (w : RegWr) {s t : State} (h : execIngSoftReset w s = .next t) (hs : Sound pt qu s) : Sound pt qu t := by
  cases h
  repeat' first
    | with_reducible assumption
    | with_reducible apply State.accessAt_sound
    | with_reducible apply State.pgCtrl_sound
    | intro _
    | split
    | dsimp only

theorem execPipeLutDataAccess_sound (w : RegWr) (isRead : Bool) {s t : State} (h : execPipeLutDataAccess w isRead s = .next t) (hs : Sound pt qu s) : Sound pt qu t := by
  cases h
  repeat' first
    | with_reducible assumption
    | with_reducible apply State.tableAccess_sound
    | intro _
    | split
    | dsimp only

theorem execPipeSclDataAccess_sound (w : RegWr) (isRead : Bool) {s t : State} (h : execPipeSclDataAccess w isRead s = .next t) (hs : Sound pt qu s) : Sound pt qu t := by
  cases h
  repeat' first
    | with_reducible assumption
    | with_reducible apply State.tableAccess_sound
    | intro _
    | split
    | dsimp only

theorem execSlotLutDataAccess_sound (w : RegWr) (isRead : Bool) {s t : State} (h : execSlotLutDataAccess w isRead s = .next t) (hs : Sound pt qu s) : Sound pt qu t := by
  cases h
  repeat' first
    | with_reducible assumption
    | with_reducible apply State.tableAccess_sound
    | intro _
    | split
    | dsimp only

theorem execLineComposeStart_sound (out : Nat) {s t : State} (h : execLineComposeStart out s = .next t) (hs : Sound pt qu s) : Sound pt qu t := by
  cases h
  repeat' first
    | with_reducible assumption
    | with_reducible apply State.composeLine_sound
    | intro _
    | split
    | dsimp only

theorem execCommit_sound (c : CmdArgs) {s t : State} (h : execCommit c s = .next t) (hs : Sound pt qu s) : Sound pt qu t := by
  cases h
  repeat' first
    | with_reducible assumption
    | with_reducible apply State.keepEntry_sound
    | with_reducible apply State.commitCommand_sound
    | intro _
    | split
    | dsimp only

theorem execApplyLine_sound (out : Nat) {s t : State} (h : execApplyLine out s = .next t) (hs : Sound pt qu s) : Sound pt qu t := by
  cases h
  repeat' first
    | with_reducible assumption
    | with_reducible apply State.applyLine_sound
    | intro _
    | split
    | dsimp only

theorem execFrameDone_sound (out : Nat) {s t : State} (h : execFrameDone out s = .next t) (hs : Sound pt qu s) : Sound pt qu t := by
  cases h
  repeat' first
    | with_reducible assumption
    | with_reducible apply State.frameDone_sound
    | intro _
    | split
    | dsimp only

theorem execCommitAckTimeout_sound (recNo : Nat) {s t : State} (h : execCommitAckTimeout recNo s = .next t) (hs : Sound pt qu s) : Sound pt qu t := by
  cases h
  repeat' first
    | with_reducible assumption
    | with_reducible apply State.ackTimeout_sound
    | intro _
    | split
    | dsimp only

theorem execScanOutStart_sound (w : RegWr) {s t : State} (h : execScanOutStart w s = .next t) (hs : Sound pt qu s) : Sound pt qu t := by
  cases h
  repeat' first
    | with_reducible assumption
    | with_reducible apply State.accessAt_sound
    | with_reducible apply State.ctrlWrite_sound
    | with_reducible apply State.scnEnable_sound
    | with_reducible apply State.scnReset_sound
    | intro _
    | split
    | dsimp only

theorem execScanOutCounterStart_sound (out : Nat) {s t : State} (h : execScanOutCounterStart out s = .next t) (hs : Sound pt qu s) : Sound pt qu t := by
  cases h
  repeat' first
    | with_reducible assumption
    | with_reducible apply State.scanOutStarts_sound
    | intro _
    | split
    | dsimp only

theorem execScanOutStopRequest_sound (w : RegWr) {s t : State} (h : execScanOutStopRequest w s = .next t) (hs : Sound pt qu s) : Sound pt qu t := by
  cases h
  repeat' first
    | with_reducible assumption
    | with_reducible apply State.accessAt_sound
    | with_reducible apply State.ctrlWrite_sound
    | with_reducible apply State.scnEnable_sound
    | with_reducible apply State.scnReset_sound
    | intro _
    | split
    | dsimp only

theorem execScnSoftReset_sound (w : RegWr) {s t : State} (h : execScnSoftReset w s = .next t) (hs : Sound pt qu s) : Sound pt qu t := by
  cases h
  repeat' first
    | with_reducible assumption
    | with_reducible apply State.accessAt_sound
    | with_reducible apply State.ctrlWrite_sound
    | with_reducible apply State.scnEnable_sound
    | with_reducible apply State.scnReset_sound
    | intro _
    | split
    | dsimp only

theorem execScanLineStart_sound (out : Nat) (phase : Int) (m : Monitor) {s t : State} (h : execScanLineStart out phase m s = .next t) (hs : Sound pt qu s) : Sound pt qu t := by
  cases h
  repeat' first
    | with_reducible assumption
    | with_reducible apply State.scanLineStart_sound
    | intro _
    | split
    | dsimp only

theorem execFurrowArrival_sound (out slot plane row clock : Nat) (m : Monitor) {s t : State} (h : execFurrowArrival out slot plane row clock m s = .next t) (hs : Sound pt qu s) : Sound pt qu t := by
  cases h
  repeat' first
    | with_reducible assumption
    | with_reducible apply State.furrowArrival_sound
    | intro _
    | split
    | dsimp only

theorem execHeadlandStart_sound (out : Nat) {s t : State} (h : execHeadlandStart out s = .next t) (hs : Sound pt qu s) : Sound pt qu t := by
  cases h
  repeat' first
    | with_reducible assumption
    | with_reducible apply State.counterEvent_sound
    | intro _
    | split
    | dsimp only

theorem execVsync_sound (out : Nat) {s t : State} (h : execVsync out s = .next t) (hs : Sound pt qu s) : Sound pt qu t := by
  cases h
  repeat' first
    | with_reducible assumption
    | with_reducible apply State.counterEvent_sound
    | intro _
    | split
    | dsimp only

theorem execHeadlandEnd_sound (out : Nat) {s t : State} (h : execHeadlandEnd out s = .next t) (hs : Sound pt qu s) : Sound pt qu t := by
  cases h
  repeat' first
    | with_reducible assumption
    | with_reducible apply State.counterEvent_sound
    | intro _
    | split
    | dsimp only

theorem execLineMatch_sound (out i : Nat) {s t : State} (h : execLineMatch out index s = .next t) (hs : Sound pt qu s) : Sound pt qu t := by
  cases h
  repeat' first
    | with_reducible assumption
    | with_reducible apply State.lineMatch_sound
    | intro _
    | split
    | dsimp only

theorem execVrrDecision_sound (out : Nat) {s t : State} (h : execVrrDecision out s = .next t) (hs : Sound pt qu s) : Sound pt qu t := by
  cases h
  repeat' first
    | with_reducible assumption
    | with_reducible apply State.vrrDecision_sound
    | intro _
    | split
    | dsimp only

theorem execGenlockWrite_sound (w : RegWr) {s t : State} (h : execGenlockWrite w s = .next t) (hs : Sound pt qu s) : Sound pt qu t := by
  cases h
  repeat' first
    | with_reducible assumption
    | with_reducible apply State.accessAt_sound
    | with_reducible apply State.genlockWrite_sound
    | intro _
    | split
    | dsimp only

theorem execDplEnable_sound (w : RegWr) {s t : State} (h : execDplEnable w s = .next t) (hs : Sound pt qu s) : Sound pt qu t := by
  cases h
  repeat' first
    | with_reducible assumption
    | with_reducible apply State.accessAt_sound
    | with_reducible apply State.ctrlWrite_sound
    | with_reducible apply State.dplEnable_sound
    | with_reducible apply State.dplReset_sound
    | intro _
    | split
    | dsimp only

theorem execDplDisable_sound (w : RegWr) {s t : State} (h : execDplDisable w s = .next t) (hs : Sound pt qu s) : Sound pt qu t := by
  cases h
  repeat' first
    | with_reducible assumption
    | with_reducible apply State.accessAt_sound
    | with_reducible apply State.ctrlWrite_sound
    | with_reducible apply State.dplEnable_sound
    | with_reducible apply State.dplReset_sound
    | intro _
    | split
    | dsimp only

theorem execHpdPlug_sound (out sink : Nat) (blockPred : Bool) {s t : State} (h : execHpdPlug out sink blockPred s = .next t) (hs : Sound pt qu s) : Sound pt qu t := by
  cases h
  repeat' first
    | with_reducible assumption
    | with_reducible apply State.hpdPlug_sound
    | intro _
    | split
    | dsimp only

theorem execHpdIrq_sound (out : Nat) (lost : Bool) {s t : State} (h : execHpdIrq out lost s = .next t) (hs : Sound pt qu s) : Sound pt qu t := by
  cases h
  repeat' first
    | with_reducible assumption
    | with_reducible apply State.hpdIrq_sound
    | intro _
    | split
    | dsimp only

theorem execHpdUnplug_sound (out : Nat) {s t : State} (h : execHpdUnplug out s = .next t) (hs : Sound pt qu s) : Sound pt qu t := by
  cases h
  repeat' first
    | with_reducible assumption
    | with_reducible apply State.hpdUnplug_sound
    | intro _
    | split
    | dsimp only

theorem execTrainingAttemptEnd_sound (out : Nat) (ok : Bool) {s t : State} (h : execTrainingAttemptEnd out ok s = .next t) (hs : Sound pt qu s) : Sound pt qu t := by
  cases h
  repeat' first
    | with_reducible assumption
    | with_reducible apply State.attemptEnd_sound
    | intro _
    | split
    | dsimp only

theorem execLinkLoss_sound (out : Nat) {s t : State} (h : execLinkLoss out s = .next t) (hs : Sound pt qu s) : Sound pt qu t := by
  cases h
  repeat' first
    | with_reducible assumption
    | with_reducible apply State.linkLoss_sound
    | intro _
    | split
    | dsimp only

theorem execAuxGo_sound (w : RegWr) {s t : State} (h : execAuxGo w s = .next t) (hs : Sound pt qu s) : Sound pt qu t := by
  cases h
  repeat' first
    | with_reducible assumption
    | with_reducible apply State.accessAt_sound
    | with_reducible apply State.auxGo_sound
    | intro _
    | split
    | dsimp only

theorem execAuxReply_sound (out reply bytes : Nat) (data : List Nat) {s t : State} (h : execAuxReply out reply bytes data s = .next t) (hs : Sound pt qu s) : Sound pt qu t := by
  cases h
  repeat' first
    | with_reducible assumption
    | with_reducible apply State.auxReply_sound
    | intro _
    | split
    | dsimp only

theorem execAuxReplyTimeout_sound (out : Nat) {s t : State} (h : execAuxReplyTimeout out s = .next t) (hs : Sound pt qu s) : Sound pt qu t := by
  cases h
  repeat' first
    | with_reducible assumption
    | with_reducible apply State.auxTimeout_sound
    | intro _
    | split
    | dsimp only

theorem execPpsDataRead_sound (r : RegRd) {s t : State} (h : execPpsDataRead r s = .next t) (hs : Sound pt qu s) : Sound pt qu t := by
  cases h
  repeat' first
    | with_reducible assumption
    | with_reducible apply State.ppsRead_sound
    | intro _
    | split
    | dsimp only

theorem execDplIdleHoldEnd_sound (out : Nat) {s t : State} (h : execDplIdleHoldEnd out s = .next t) (hs : Sound pt qu s) : Sound pt qu t := by
  cases h
  repeat' first
    | with_reducible assumption
    | with_reducible apply State.idleHoldEnd_sound
    | intro _
    | split
    | dsimp only

theorem execScan_sound (c : CmdArgs) {s t : State} (h : execScan c s = .next t) (hs : Sound pt qu s) : Sound pt qu t := by
  cases h
  repeat' first
    | with_reducible assumption
    | with_reducible apply State.keepEntry_sound
    | with_reducible apply State.command_sound
    | with_reducible apply State.carryScan_sound
    | intro _
    | split
    | dsimp only

theorem execScanStart_sound (engine slot : Nat) {s t : State} (h : execScanStart engine slot s = .next t) (hs : Sound pt qu s) : Sound pt qu t := by
  cases h
  repeat' first
    | with_reducible assumption
    | with_reducible apply State.scanStartCmd_sound
    | intro _
    | split
    | dsimp only

theorem execScanDone_sound (engine slot : Nat) {s t : State} (h : execScanDone engine slot s = .next t) (hs : Sound pt qu s) : Sound pt qu t := by
  cases h
  repeat' first
    | with_reducible assumption
    | with_reducible apply State.scanDone_sound
    | intro _
    | split
    | dsimp only

theorem execCheckRegionFinal_sound (out region : Nat) {s t : State} (h : execCheckRegionFinal out region s = .next t) (hs : Sound pt qu s) : Sound pt qu t := by
  cases h
  repeat' first
    | with_reducible assumption
    | with_reducible apply State.regionFinal_sound
    | intro _
    | split
    | dsimp only

theorem execDramRequest_sound (q : DramReq) {s t : State} (h : execDramRequest q s = .next t) (hs : Sound pt qu s) : Sound pt qu t := by
  cases h
  repeat' first
    | with_reducible assumption
    | with_reducible apply State.dramRequest_sound
    | intro _
    | split
    | dsimp only

theorem execDramRequestComplete_sound (ch : Nat) {s t : State} (h : execDramRequestComplete ch s = .next t) (hs : Sound pt qu s) : Sound pt qu t := by
  cases h
  repeat' first
    | with_reducible assumption
    | with_reducible apply State.dramComplete_sound
    | intro _
    | split
    | dsimp only

theorem execRefreshDue_sound (ch : Nat) {s t : State} (h : execRefreshDue ch s = .next t) (hs : Sound pt qu s) : Sound pt qu t := by
  cases h
  repeat' first
    | with_reducible assumption
    | with_reducible apply State.refreshDue_sound
    | intro _
    | split
    | dsimp only

theorem execMr4Poll_sound (ch rate : Nat) (hot : Bool) {s t : State} (h : execMr4Poll ch rate hot s = .next t) (hs : Sound pt qu s) : Sound pt qu t := by
  cases h
  repeat' first
    | with_reducible assumption
    | with_reducible apply State.mr4Poll_sound
    | intro _
    | split
    | dsimp only

theorem execRetrainStart_sound (ch cause : Nat) {s t : State} (h : execRetrainStart ch cause s = .next t) (hs : Sound pt qu s) : Sound pt qu t := by
  cases h
  repeat' first
    | with_reducible assumption
    | with_reducible apply State.retrainStart_sound
    | intro _
    | split
    | dsimp only

theorem execDmcTrainStartWrite_sound (w : RegWr) {s t : State} (h : execDmcTrainStartWrite w s = .next t) (hs : Sound pt qu s) : Sound pt qu t := by
  cases h
  repeat' first
    | with_reducible assumption
    | with_reducible apply State.accessAt_sound
    | with_reducible apply State.trainCtrlWrite_sound
    | intro _
    | split
    | dsimp only

theorem execRetrainEnd_sound (ch pause : Nat) (eyes : Option (Nat × Nat)) (readBack : Bool) {s t : State} (h : execRetrainEnd ch pause eyes readBack s = .next t) (hs : Sound pt qu s) : Sound pt qu t := by
  cases h
  repeat' first
    | with_reducible assumption
    | with_reducible apply State.retrainEnd_sound
    | intro _
    | split
    | dsimp only

theorem execDramPowerDown_sound (ch : Nat) {s t : State} (h : execDramPowerDown ch s = .next t) (hs : Sound pt qu s) : Sound pt qu t := by
  cases h
  repeat' first
    | with_reducible assumption
    | with_reducible apply State.dramPowerDown_sound
    | intro _
    | split
    | dsimp only

theorem execDmcPortTargetAll_sound (w : RegWr) {s t : State} (h : execDmcPortTargetAll w s = .next t) (hs : Sound pt qu s) : Sound pt qu t := by
  cases h
  repeat' first
    | with_reducible assumption
    | with_reducible apply State.accessAt_sound
    | with_reducible apply State.portTargetWrite_sound
    | intro _
    | split
    | dsimp only

theorem execDmcPortMaxlatClear_sound (w : RegWr) {s t : State} (h : execDmcPortMaxlatClear w s = .next t) (hs : Sound pt qu s) : Sound pt qu t := by
  cases h
  repeat' first
    | with_reducible assumption
    | with_reducible apply State.accessAt_sound
    | with_reducible apply State.maxlatClear_sound
    | intro _
    | split
    | dsimp only

theorem execDmcDebtMaxClear_sound (w : RegWr) {s t : State} (h : execDmcDebtMaxClear w s = .next t) (hs : Sound pt qu s) : Sound pt qu t := by
  cases h
  repeat' first
    | with_reducible assumption
    | with_reducible apply State.accessAt_sound
    | with_reducible apply State.debtMaxClear_sound
    | intro _
    | split
    | dsimp only

theorem execDmcStopWrite_sound (w : RegWr) {s t : State} (h : execDmcStopWrite w s = .next t) (hs : Sound pt qu s) : Sound pt qu t := by
  cases h
  repeat' first
    | with_reducible assumption
    | with_reducible apply State.accessAt_sound
    | with_reducible apply State.ctrlWrite_sound
    | with_reducible apply State.dmcEnable_sound
    | with_reducible apply State.dmcReset_sound
    | intro _
    | split
    | dsimp only

theorem execRegionsSet_sound (w : RegWr) {s t : State} (h : execRegionsSet w s = .next t) (hs : Sound pt qu s) : Sound pt qu t := by
  cases h
  repeat' first
    | with_reducible assumption
    | with_reducible apply State.accessAt_sound
    | with_reducible apply State.edacCtrlWrite_sound
    | intro _
    | split
    | dsimp only

theorem execEdacLogRelease_sound (w : RegWr) {s t : State} (h : execEdacLogRelease w s = .next t) (hs : Sound pt qu s) : Sound pt qu t := by
  cases h
  repeat' first
    | with_reducible assumption
    | with_reducible apply State.accessAt_sound
    | with_reducible apply State.edacLogCtrl_sound
    | intro _
    | split
    | dsimp only

theorem execEdacLogClearAll_sound (w : RegWr) {s t : State} (h : execEdacLogClearAll w s = .next t) (hs : Sound pt qu s) : Sound pt qu t := by
  cases h
  repeat' first
    | with_reducible assumption
    | with_reducible apply State.accessAt_sound
    | with_reducible apply State.edacLogCtrl_sound
    | intro _
    | split
    | dsimp only

theorem execEdacRetirePlot_sound (w : RegWr) {s t : State} (h : execEdacRetirePlot w s = .next t) (hs : Sound pt qu s) : Sound pt qu t := by
  cases h
  repeat' first
    | with_reducible assumption
    | with_reducible apply State.accessAt_sound
    | with_reducible apply State.retirePlotWrite_sound
    | intro _
    | split
    | dsimp only

theorem execEdacRetireBank_sound (w : RegWr) {s t : State} (h : execEdacRetireBank w s = .next t) (hs : Sound pt qu s) : Sound pt qu t := by
  cases h
  repeat' first
    | with_reducible assumption
    | with_reducible apply State.accessAt_sound
    | with_reducible apply State.retireBankWrite_sound
    | intro _
    | split
    | dsimp only

theorem execRetireBankDone_sound {s t : State} (h : execRetireBankDone s = .next t) (hs : Sound pt qu s) : Sound pt qu t := by
  cases h
  repeat' first
    | with_reducible assumption
    | with_reducible apply State.retireBankDone_sound
    | intro _
    | split
    | dsimp only

theorem execTchEnable_sound (w : RegWr) {s t : State} (h : execTchEnable w s = .next t) (hs : Sound pt qu s) : Sound pt qu t := by
  cases h
  repeat' first
    | with_reducible assumption
    | with_reducible apply State.accessAt_sound
    | with_reducible apply State.ctrlWrite_sound
    | with_reducible apply State.tchEnable_sound
    | with_reducible apply State.tchReset_sound
    | intro _
    | split
    | dsimp only

theorem execTchPanelEnable_sound (w : RegWr) {s t : State} (h : execTchPanelEnable w s = .next t) (hs : Sound pt qu s) : Sound pt qu t := by
  cases h
  repeat' first
    | with_reducible assumption
    | with_reducible apply State.accessAt_sound
    | with_reducible apply State.tchCfgWrite_sound
    | intro _
    | split
    | dsimp only

theorem execTchPanelDisable_sound (w : RegWr) {s t : State} (h : execTchPanelDisable w s = .next t) (hs : Sound pt qu s) : Sound pt qu t := by
  cases h
  repeat' first
    | with_reducible assumption
    | with_reducible apply State.accessAt_sound
    | with_reducible apply State.tchCfgWrite_sound
    | intro _
    | split
    | dsimp only

theorem execTchSoftReset_sound (w : RegWr) {s t : State} (h : execTchSoftReset w s = .next t) (hs : Sound pt qu s) : Sound pt qu t := by
  cases h
  repeat' first
    | with_reducible assumption
    | with_reducible apply State.accessAt_sound
    | with_reducible apply State.ctrlWrite_sound
    | with_reducible apply State.tchEnable_sound
    | with_reducible apply State.tchReset_sound
    | intro _
    | split
    | dsimp only

theorem execTouchFrameStart_sound (engine : Nat) {s t : State} (h : execTouchFrameStart engine s = .next t) (hs : Sound pt qu s) : Sound pt qu t := by
  cases h
  repeat' first
    | with_reducible assumption
    | with_reducible apply State.touchFrameStart_sound
    | intro _
    | split
    | dsimp only

theorem execTouchPanelScanEnd_sound (engine panel : Nat) (m : List (List Nat × List Nat)) (listen cand : List Nat) {s t : State} (h : execTouchPanelScanEnd engine panel m listen cand s = .next t) (hs : Sound pt qu s) : Sound pt qu t := by
  cases h
  repeat' first
    | with_reducible assumption
    | with_reducible apply State.panelScanEnd_sound
    | intro _
    | split
    | dsimp only

theorem execTouchSnapshot_sound (engine panel : Nat) {s t : State} (h : execTouchSnapshot engine panel s = .next t) (hs : Sound pt qu s) : Sound pt qu t := by
  cases h
  repeat' first
    | with_reducible assumption
    | with_reducible apply State.touchSnapshot_sound
    | intro _
    | split
    | dsimp only

theorem execCaptureRef_sound (w : RegWr) {s t : State} (h : execCaptureRef w s = .next t) (hs : Sound pt qu s) : Sound pt qu t := by
  cases h
  repeat' first
    | with_reducible assumption
    | with_reducible apply State.accessAt_sound
    | with_reducible apply State.tchCfgWrite_sound
    | intro _
    | split
    | dsimp only

theorem execTchNodeDataAccess_sound (w : RegWr) (isRead : Bool) {s t : State} (h : execTchNodeDataAccess w isRead s = .next t) (hs : Sound pt qu s) : Sound pt qu t := by
  cases h
  repeat' first
    | with_reducible assumption
    | with_reducible apply State.accessAt_sound
    | with_reducible apply State.mirrorWrite_sound
    | with_reducible apply State.accessRead_sound
    | with_reducible apply State.nodeAccess_sound
    | intro _
    | split
    | dsimp only

theorem execTchBufWrite_sound (w : RegWr) {s t : State} (h : execTchBufWrite w s = .next t) (hs : Sound pt qu s) : Sound pt qu t := by
  cases h
  repeat' first
    | with_reducible assumption
    | with_reducible apply State.accessAt_sound
    | with_reducible apply State.tchBufWrite_sound
    | intro _
    | split
    | dsimp only

theorem execHapticPlay_sound (c : CmdArgs) {s t : State} (h : execHapticPlay c s = .next t) (hs : Sound pt qu s) : Sound pt qu t := by
  cases h
  repeat' first
    | with_reducible assumption
    | with_reducible apply State.command_sound
    | with_reducible apply State.carryHapticPlay_sound
    | intro _
    | split
    | dsimp only

theorem execTouchRule_sound (c : CmdArgs) {s t : State} (h : execTouchRule c s = .next t) (hs : Sound pt qu s) : Sound pt qu t := by
  cases h
  repeat' first
    | with_reducible assumption
    | with_reducible apply State.command_sound
    | with_reducible apply State.carryTouchRule_sound
    | intro _
    | split
    | dsimp only

theorem execRuleMatch_sound {s t : State} (h : execRuleMatch s = .next t) (hs : Sound pt qu s) : Sound pt qu t := by
  cases h
  repeat' first
    | with_reducible assumption
    | with_reducible apply State.ruleMatch_sound
    | intro _
    | split
    | dsimp only

theorem execClipLoadDone_sound {s t : State} (h : execClipLoadDone s = .next t) (hs : Sound pt qu s) : Sound pt qu t := by
  cases h
  repeat' first
    | with_reducible assumption
    | with_reducible apply State.clipLoadDone_sound
    | intro _
    | split
    | dsimp only

theorem execControlPeriod_sound (ch : Nat) (adcA adcI : Int) (carrier : Nat) {s t : State} (h : execControlPeriod ch adcA adcI carrier s = .next t) (hs : Sound pt qu s) : Sound pt qu t := by
  cases h
  repeat' first
    | with_reducible assumption
    | with_reducible apply State.controlPeriod_sound
    | intro _
    | split
    | dsimp only

theorem execTapSample_sound (tap : Nat) (sample : Int) {s t : State} (h : execTapSample tap sample s = .next t) (hs : Sound pt qu s) : Sound pt qu t := by
  cases h
  repeat' first
    | with_reducible assumption
    | with_reducible apply State.tapSample_sound
    | intro _
    | split
    | dsimp only

theorem execHapChannelEnable_sound (w : RegWr) {s t : State} (h : execHapChannelEnable w s = .next t) (hs : Sound pt qu s) : Sound pt qu t := by
  cases h
  repeat' first
    | with_reducible assumption
    | with_reducible apply State.accessAt_sound
    | with_reducible apply State.hapCtrlWrite_sound
    | intro _
    | split
    | dsimp only

theorem execCalStart_sound (w : RegWr) {s t : State} (h : execCalStart w s = .next t) (hs : Sound pt qu s) : Sound pt qu t := by
  cases h
  repeat' first
    | with_reducible assumption
    | with_reducible apply State.accessAt_sound
    | with_reducible apply State.hapCtrlWrite_sound
    | intro _
    | split
    | dsimp only

theorem execCalDone_sound (ch freq peak : Nat) {s t : State} (h : execCalDone ch freq peak s = .next t) (hs : Sound pt qu s) : Sound pt qu t := by
  cases h
  repeat' first
    | with_reducible assumption
    | with_reducible apply State.calDone_sound
    | intro _
    | split
    | dsimp only

theorem execAudioQueue_sound (c : CmdArgs) {s t : State} (h : execAudioQueue c s = .next t) (hs : Sound pt qu s) : Sound pt qu t := by
  cases h
  repeat' first
    | with_reducible assumption
    | with_reducible apply State.command_sound
    | with_reducible apply State.carryAudioQueue_sound
    | intro _
    | split
    | dsimp only

theorem execAudioBlockBoundary_sound (domain : Nat) (inputs : List (Nat × List Int)) (sync : List Nat) {s t : State} (h : execAudioBlockBoundary domain inputs sync s = .next t) (hs : Sound pt qu s) : Sound pt qu t := by
  cases h
  repeat' first
    | with_reducible assumption
    | with_reducible apply State.blockBoundary_sound
    | intro _
    | split
    | dsimp only

theorem execRouteApply_sound (w : RegWr) {s t : State} (h : execRouteApply w s = .next t) (hs : Sound pt qu s) : Sound pt qu t := by
  cases h
  repeat' first
    | with_reducible assumption
    | with_reducible apply State.accessAt_sound
    | with_reducible apply State.audCtrlWrite_sound
    | intro _
    | split
    | dsimp only

theorem execBridgePrimed_sound (bridge : Nat) {s t : State} (h : execBridgePrimed bridge s = .next t) (hs : Sound pt qu s) : Sound pt qu t := by
  cases h
  repeat' first
    | with_reducible assumption
    | with_reducible apply State.bridgePrimed_sound
    | intro _
    | split
    | dsimp only

theorem execTdmPortEnable_sound (w : RegWr) {s t : State} (h : execTdmPortEnable w s = .next t) (hs : Sound pt qu s) : Sound pt qu t := by
  cases h
  repeat' first
    | with_reducible assumption
    | with_reducible apply State.accessAt_sound
    | with_reducible apply State.tdmCfgWrite_sound
    | intro _
    | split
    | dsimp only

theorem execBusEnableWrite_sound (w : RegWr) {s t : State} (h : execBusEnableWrite w s = .next t) (hs : Sound pt qu s) : Sound pt qu t := by
  cases h
  repeat' first
    | with_reducible assumption
    | with_reducible apply State.accessAt_sound
    | with_reducible apply State.busCfgWrite_sound
    | intro _
    | split
    | dsimp only

theorem execStreamDisable_sound (w : RegWr) {s t : State} (h : execStreamDisable w s = .next t) (hs : Sound pt qu s) : Sound pt qu t := by
  cases h
  repeat' first
    | with_reducible assumption
    | with_reducible apply State.accessAt_sound
    | with_reducible apply State.strCfgWrite_sound
    | intro _
    | split
    | dsimp only

theorem execStreamChannelWrite_sound (w : RegWr) {s t : State} (h : execStreamChannelWrite w s = .next t) (hs : Sound pt qu s) : Sound pt qu t := by
  cases h
  repeat' first
    | with_reducible assumption
    | with_reducible apply State.accessAt_sound
    | with_reducible apply State.strChannelWrite_sound
    | intro _
    | split
    | dsimp only

theorem execDomainHoldover_sound (domain : Nat) {s t : State} (h : execDomainHoldover domain s = .next t) (hs : Sound pt qu s) : Sound pt qu t := by
  cases h
  repeat' first
    | with_reducible assumption
    | with_reducible apply State.domainHoldover_sound
    | intro _
    | split
    | dsimp only

theorem execDomainRelock_sound (domain : Nat) {s t : State} (h : execDomainRelock domain s = .next t) (hs : Sound pt qu s) : Sound pt qu t := by
  cases h
  repeat' first
    | with_reducible assumption
    | with_reducible apply State.domainRelock_sound
    | intro _
    | split
    | dsimp only

theorem execTdmSlip_sound (port : Nat) {s t : State} (h : execTdmSlip port s = .next t) (hs : Sound pt qu s) : Sound pt qu t := by
  cases h
  repeat' first
    | with_reducible assumption
    | with_reducible apply State.tdmSlip_sound
    | intro _
    | split
    | dsimp only

theorem execTdmClockLost_sound (port : Nat) {s t : State} (h : execTdmClockLost port s = .next t) (hs : Sound pt qu s) : Sound pt qu t := by
  cases h
  repeat' first
    | with_reducible assumption
    | with_reducible apply State.tdmClockLost_sound
    | intro _
    | split
    | dsimp only

theorem execAud0SoftReset_sound (w : RegWr) {s t : State} (h : execAud0SoftReset w s = .next t) (hs : Sound pt qu s) : Sound pt qu t := by
  cases h
  repeat' first
    | with_reducible assumption
    | with_reducible apply State.accessAt_sound
    | with_reducible apply State.ctrlWrite_sound
    | with_reducible apply State.audEnable_sound
    | with_reducible apply State.audReset_sound
    | intro _
    | split
    | dsimp only

theorem execGuyInEdge_sound (asserted : Bool) {s t : State} (h : execGuyInEdge asserted s = .next t) (hs : Sound pt qu s) : Sound pt qu t := by
  cases h
  repeat' first
    | with_reducible assumption
    | with_reducible apply State.guyInEdge_sound
    | intro _
    | split
    | dsimp only

theorem execGuyFilterExpiry_sound {s t : State} (h : execGuyFilterExpiry s = .next t) (hs : Sound pt qu s) : Sound pt qu t := by
  cases h
  repeat' first
    | with_reducible assumption
    | with_reducible apply State.guyFilter_sound
    | intro _
    | split
    | dsimp only

theorem execCollision_sound {s t : State} (h : execCollision s = .next t) (hs : Sound pt qu s) : Sound pt qu t := by
  cases h
  repeat' first
    | with_reducible assumption
    | with_reducible apply State.guyCollision_sound
    | intro _
    | split
    | dsimp only

theorem execCollisionTimeout_sound {s t : State} (h : execCollisionTimeout s = .next t) (hs : Sound pt qu s) : Sound pt qu t := by
  cases h
  repeat' first
    | with_reducible assumption
    | with_reducible apply State.collisionTimeout_sound
    | intro _
    | split
    | dsimp only

theorem execCollisionBackoffEnd_sound {s t : State} (h : execCollisionBackoffEnd s = .next t) (hs : Sound pt qu s) : Sound pt qu t := by
  cases h
  repeat' first
    | with_reducible assumption
    | with_reducible apply State.backoffEnd_sound
    | intro _
    | split
    | dsimp only

theorem execWaitingTimeout_sound {s t : State} (h : execWaitingTimeout s = .next t) (hs : Sound pt qu s) : Sound pt qu t := by
  cases h
  repeat' first
    | with_reducible assumption
    | with_reducible apply State.waitingTimeout_sound
    | intro _
    | split
    | dsimp only

theorem execPloliaLinkUp_sound (speed width : Nat) (h : FlitHdr) (b : Beat) {s t : State} (h : execPloliaLinkUp speed width h b s = .next t) (hs : Sound pt qu s) : Sound pt qu t := by
  cases h
  repeat' first
    | with_reducible assumption
    | with_reducible apply State.linkComesUp_sound
    | intro _
    | split
    | dsimp only

theorem execReplayTimeout_sound {s t : State} (h : execReplayTimeout s = .next t) (hs : Sound pt qu s) : Sound pt qu t := by
  cases h
  repeat' first
    | with_reducible assumption
    | with_reducible apply State.replayTimeout_sound
    | intro _
    | split
    | dsimp only

theorem execNullFlit_sound (h : FlitHdr) {s t : State} (h : execNullFlit h s = .next t) (hs : Sound pt qu s) : Sound pt qu t := by
  cases h
  repeat' first
    | with_reducible assumption
    | with_reducible apply State.nullFlit_sound
    | intro _
    | split
    | dsimp only

theorem execHeartbeatSend_sound {s t : State} (h : execHeartbeatSend s = .next t) (hs : Sound pt qu s) : Sound pt qu t := by
  cases h
  repeat' first
    | with_reducible assumption
    | with_reducible apply State.sendBeat_sound
    | intro _
    | split
    | dsimp only

theorem execHeartbeat_sound (h : FlitHdr) (b : Beat) (slow : Bool) {s t : State} (h : execHeartbeat h b slow s = .next t) (hs : Sound pt qu s) : Sound pt qu t := by
  cases h
  repeat' first
    | with_reducible assumption
    | with_reducible apply State.heartbeat_sound
    | intro _
    | split
    | dsimp only

theorem execHeartbeatTimeout_sound {s t : State} (h : execHeartbeatTimeout s = .next t) (hs : Sound pt qu s) : Sound pt qu t := by
  cases h
  repeat' first
    | with_reducible assumption
    | with_reducible apply State.linkDown_sound
    | intro _
    | split
    | dsimp only

theorem execJoinRequest_sound (h : FlitHdr) (config : Nat) {s t : State} (h : execJoinRequest h config s = .next t) (hs : Sound pt qu s) : Sound pt qu t := by
  cases h
  repeat' first
    | with_reducible assumption
    | with_reducible apply State.accept_sound
    | with_reducible apply State.joinRequest_sound
    | intro _
    | split
    | dsimp only

theorem execJoinAccept_sound (h : FlitHdr) {s t : State} (h : execJoinAccept h s = .next t) (hs : Sound pt qu s) : Sound pt qu t := by
  cases h
  repeat' first
    | with_reducible assumption
    | with_reducible apply State.accept_sound
    | with_reducible apply State.joinAccept_sound
    | intro _
    | split
    | dsimp only

theorem execJoinRefuse_sound (h : FlitHdr) (reason : Nat) {s t : State} (h : execJoinRefuse h reason s = .next t) (hs : Sound pt qu s) : Sound pt qu t := by
  cases h
  repeat' first
    | with_reducible assumption
    | with_reducible apply State.accept_sound
    | with_reducible apply State.joinRefused_sound
    | intro _
    | split
    | dsimp only

theorem execSyncDone_sound (h : FlitHdr) {s t : State} (h : execSyncDone h s = .next t) (hs : Sound pt qu s) : Sound pt qu t := by
  cases h
  repeat' first
    | with_reducible assumption
    | with_reducible apply State.accept_sound
    | with_reducible apply State.syncDone_sound
    | intro _
    | split
    | dsimp only

theorem execResyncSendDone_sound {s t : State} (h : execResyncSendDone s = .next t) (hs : Sound pt qu s) : Sound pt qu t := by
  cases h
  repeat' first
    | with_reducible assumption
    | with_reducible apply State.resyncSent_sound
    | intro _
    | split
    | dsimp only

theorem execHandoverOffer_sound (h : FlitHdr) (count : Nat) {s t : State} (h : execHandoverOffer h count s = .next t) (hs : Sound pt qu s) : Sound pt qu t := by
  cases h
  repeat' first
    | with_reducible assumption
    | with_reducible apply State.accept_sound
    | with_reducible apply State.handoverOffer_sound
    | intro _
    | split
    | dsimp only

theorem execHandoverReady_sound (h : FlitHdr) {s t : State} (h : execHandoverReady h s = .next t) (hs : Sound pt qu s) : Sound pt qu t := by
  cases h
  repeat' first
    | with_reducible assumption
    | with_reducible apply State.handoverReadyRestart_sound
    | intro _
    | split
    | dsimp only

theorem execHandoverRefusal_sound (h : FlitHdr) (reason : Nat) {s t : State} (h : execHandoverRefusal h reason s = .next t) (hs : Sound pt qu s) : Sound pt qu t := by
  cases h
  repeat' first
    | with_reducible assumption
    | with_reducible apply State.accept_sound
    | with_reducible apply State.handoverRefused_sound
    | intro _
    | split
    | dsimp only

theorem execPlkHandover_sound (w : RegWr) {s t : State} (h : execPlkHandover w s = .next t) (hs : Sound pt qu s) : Sound pt qu t := by
  cases h
  repeat' first
    | with_reducible assumption
    | with_reducible apply State.accessAt_sound
    | with_reducible apply State.plkCtrlWrite_sound
    | intro _
    | split
    | dsimp only

theorem execHandoverDrained_sound {s t : State} (h : execHandoverDrained s = .next t) (hs : Sound pt qu s) : Sound pt qu t := by
  cases h
  repeat' first
    | with_reducible assumption
    | with_reducible apply State.handoverDrained_sound
    | intro _
    | split
    | dsimp only

theorem execHandoverDrainTimeout_sound {s t : State} (h : execHandoverDrainTimeout s = .next t) (hs : Sound pt qu s) : Sound pt qu t := by
  cases h
  repeat' first
    | with_reducible assumption
    | with_reducible apply State.handoverTimeout_sound
    | intro _
    | split
    | dsimp only

theorem execPlkResync_sound (w : RegWr) {s t : State} (h : execPlkResync w s = .next t) (hs : Sound pt qu s) : Sound pt qu t := by
  cases h
  repeat' first
    | with_reducible assumption
    | with_reducible apply State.accessAt_sound
    | with_reducible apply State.plkCtrlWrite_sound
    | intro _
    | split
    | dsimp only

theorem execPlkRetrain_sound (w : RegWr) {s t : State} (h : execPlkRetrain w s = .next t) (hs : Sound pt qu s) : Sound pt qu t := by
  cases h
  repeat' first
    | with_reducible assumption
    | with_reducible apply State.accessAt_sound
    | with_reducible apply State.plkCtrlWrite_sound
    | intro _
    | split
    | dsimp only

theorem execPlkClearGuyFault_sound (w : RegWr) {s t : State} (h : execPlkClearGuyFault w s = .next t) (hs : Sound pt qu s) : Sound pt qu t := by
  cases h
  repeat' first
    | with_reducible assumption
    | with_reducible apply State.accessAt_sound
    | with_reducible apply State.plkCtrlWrite_sound
    | intro _
    | split
    | dsimp only

theorem execTimeSyncDue_sound {s t : State} (h : execTimeSyncDue s = .next t) (hs : Sound pt qu s) : Sound pt qu t := by
  cases h
  repeat' first
    | with_reducible assumption
    | with_reducible apply State.timeSyncDue_sound
    | intro _
    | split
    | dsimp only

theorem execTimeSyncRequest_sound (h : FlitHdr) (t1 : Nat) {s t : State} (h : execTimeSyncRequest h t1 s = .next t) (hs : Sound pt qu s) : Sound pt qu t := by
  cases h
  repeat' first
    | with_reducible assumption
    | with_reducible apply State.accept_sound
    | with_reducible apply State.timeSyncRequest_sound
    | intro _
    | split
    | dsimp only

theorem execTimeSyncReply_sound (h : FlitHdr) (t1 t2 t3 : Nat) {s t : State} (h : execTimeSyncReply h t1 t2 t3 s = .next t) (hs : Sound pt qu s) : Sound pt qu t := by
  cases h
  repeat' first
    | with_reducible assumption
    | with_reducible apply State.accept_sound
    | with_reducible apply State.timeSyncReply_sound
    | intro _
    | split
    | dsimp only

theorem execTimeSyncFrame_sound (h : FlitHdr) (out seq ta : Nat) {s t : State} (h : execTimeSyncFrame h out seq ta s = .next t) (hs : Sound pt qu s) : Sound pt qu t := by
  cases h
  repeat' first
    | with_reducible assumption
    | with_reducible apply State.accept_sound
    | with_reducible apply State.timeSyncFrame_sound
    | intro _
    | split
    | dsimp only

theorem execTimeSyncVrr_sound (h : FlitHdr) (out seq line : Nat) (proceed : Bool) {s t : State} (h : execTimeSyncVrr h out seq line proceed s = .next t) (hs : Sound pt qu s) : Sound pt qu t := by
  cases h
  repeat' first
    | with_reducible assumption
    | with_reducible apply State.accept_sound
    | with_reducible apply State.timeSyncVrr_sound
    | intro _
    | split
    | dsimp only

theorem execCommitArmRecord_sound (h : FlitHdr) (recNo group fn : Nat) (entries : List (Nat × Nat × Nat)) (fin : Bool) {s t : State} (h : execCommitArmRecord h recNo group fn entries fin s = .next t) (hs : Sound pt qu s) : Sound pt qu t := by
  cases h
  repeat' first
    | with_reducible assumption
    | with_reducible apply State.armRecord_sound
    | with_reducible apply State.idleExit_sound
    | with_reducible apply State.orderedFlit_sound
    | intro _
    | split
    | dsimp only

theorem execCommitArmApply_sound (h : FlitHdr) (recNo frame : Nat) {s t : State} (h : execCommitArmApply h recNo frame s = .next t) (hs : Sound pt qu s) : Sound pt qu t := by
  cases h
  repeat' first
    | with_reducible assumption
    | with_reducible apply State.armApply_sound
    | with_reducible apply State.orderedFlit_sound
    | intro _
    | split
    | dsimp only

theorem execCommitArmDrop_sound (h : FlitHdr) (recNo : Nat) {s t : State} (h : execCommitArmDrop h recNo s = .next t) (hs : Sound pt qu s) : Sound pt qu t := by
  cases h
  repeat' first
    | with_reducible assumption
    | with_reducible apply State.armDrop_sound
    | with_reducible apply State.orderedFlit_sound
    | intro _
    | split
    | dsimp only

theorem execCommitAckHeld_sound (h : FlitHdr) (recNo : Nat) {s t : State} (h : execCommitAckHeld h recNo s = .next t) (hs : Sound pt qu s) : Sound pt qu t := by
  cases h
  repeat' first
    | with_reducible assumption
    | with_reducible apply State.accept_sound
    | with_reducible apply State.ackHeld_sound
    | intro _
    | split
    | dsimp only

theorem execCommitAckApplied_sound (h : FlitHdr) (recNo frame : Nat) {s t : State} (h : execCommitAckApplied h recNo frame s = .next t) (hs : Sound pt qu s) : Sound pt qu t := by
  cases h
  repeat' first
    | with_reducible assumption
    | with_reducible apply State.accept_sound
    | with_reducible apply State.ackApplied_sound
    | intro _
    | split
    | dsimp only

theorem execStateDigest_sound (h : FlitHdr) (d : Digest) {s t : State} (h : execStateDigest h d s = .next t) (hs : Sound pt qu s) : Sound pt qu t := by
  cases h
  repeat' first
    | with_reducible assumption
    | with_reducible apply State.accept_sound
    | with_reducible apply State.partnerDigest_sound
    | intro _
    | split
    | dsimp only

theorem execMirrorWrite_sound (h : FlitHdr) (m : MirrorMsg) {s t : State} (h : execMirrorWrite h m s = .next t) (hs : Sound pt qu s) : Sound pt qu t := by
  cases h
  repeat' first
    | with_reducible assumption
    | with_reducible apply State.mirrorApply_sound
    | with_reducible apply State.orderedFlit_sound
    | intro _
    | split
    | dsimp only

theorem execWakeFlit_sound (h : FlitHdr) (sub arg : Nat) (result : WakeResult) {s t : State} (h : execWakeFlit h sub arg result s = .next t) (hs : Sound pt qu s) : Sound pt qu t := by
  cases h
  repeat' first
    | with_reducible assumption
    | with_reducible apply State.accept_sound
    | with_reducible apply State.wakeFlit_sound
    | intro _
    | split
    | dsimp only

theorem execPwrReqRun_sound (w : RegWr) {s t : State} (h : execPwrReqRun w s = .next t) (hs : Sound pt qu s) : Sound pt qu t := by
  cases h
  repeat' first
    | with_reducible assumption
    | with_reducible apply State.accessAt_sound
    | with_reducible apply State.pwrReqWrite_sound
    | intro _
    | split
    | dsimp only

theorem execPwrReqIdle_sound (w : RegWr) {s t : State} (h : execPwrReqIdle w s = .next t) (hs : Sound pt qu s) : Sound pt qu t := by
  cases h
  repeat' first
    | with_reducible assumption
    | with_reducible apply State.accessAt_sound
    | with_reducible apply State.pwrReqWrite_sound
    | intro _
    | split
    | dsimp only

theorem execPwrReqFallow_sound (w : RegWr) {s t : State} (h : execPwrReqFallow w s = .next t) (hs : Sound pt qu s) : Sound pt qu t := by
  cases h
  repeat' first
    | with_reducible assumption
    | with_reducible apply State.accessAt_sound
    | with_reducible apply State.pwrReqWrite_sound
    | intro _
    | split
    | dsimp only

theorem execPwrReqOff_sound (w : RegWr) {s t : State} (h : execPwrReqOff w s = .next t) (hs : Sound pt qu s) : Sound pt qu t := by
  cases h
  repeat' first
    | with_reducible assumption
    | with_reducible apply State.accessAt_sound
    | with_reducible apply State.pwrReqWrite_sound
    | intro _
    | split
    | dsimp only

theorem execFallowDrainDone_sound {s t : State} (h : execFallowDrainDone s = .next t) (hs : Sound pt qu s) : Sound pt qu t := by
  cases h
  repeat' first
    | with_reducible assumption
    | with_reducible apply State.fallowEntry_sound
    | intro _
    | split
    | dsimp only

theorem execFallowDrainTimeout_sound {s t : State} (h : execFallowDrainTimeout s = .next t) (hs : Sound pt qu s) : Sound pt qu t := by
  cases h
  repeat' first
    | with_reducible assumption
    | with_reducible apply State.fallowTimeout_sound
    | intro _
    | split
    | dsimp only

theorem execWakeTlp_sound (port : Nat) (result : WakeResult) {s t : State} (h : execWakeTlp port result s = .next t) (hs : Sound pt qu s) : Sound pt qu t := by
  cases h
  repeat' first
    | with_reducible assumption
    | with_reducible apply State.wakeTlp_sound
    | intro _
    | split
    | dsimp only

theorem execWakePin_sound (result : WakeResult) {s t : State} (h : execWakePin result s = .next t) (hs : Sound pt qu s) : Sound pt qu t := by
  cases h
  repeat' first
    | with_reducible assumption
    | with_reducible apply State.wakePin_sound
    | intro _
    | split
    | dsimp only

theorem execMotionEdge_sound (level : Bool) (result : WakeResult) {s t : State} (h : execMotionEdge level result s = .next t) (hs : Sound pt qu s) : Sound pt qu t := by
  cases h
  repeat' first
    | with_reducible assumption
    | with_reducible apply State.motionEdge_sound
    | intro _
    | split
    | dsimp only

theorem execCanWakeUp_sound (result : WakeResult) {s t : State} (h : execCanWakeUp result s = .next t) (hs : Sound pt qu s) : Sound pt qu t := by
  cases h
  repeat' first
    | with_reducible assumption
    | with_reducible apply State.canWake_sound
    | intro _
    | split
    | dsimp only

theorem execAlarmFire_sound (result : WakeResult) {s t : State} (h : execAlarmFire result s = .next t) (hs : Sound pt qu s) : Sound pt qu t := by
  cases h
  repeat' first
    | with_reducible assumption
    | with_reducible apply State.alarmFire_sound
    | intro _
    | split
    | dsimp only

theorem execWakeStepTimeout_sound (reason item : Nat) (entries : List (List Word32)) {s t : State} (h : execWakeStepTimeout reason item entries s = .next t) (hs : Sound pt qu s) : Sound pt qu t := by
  cases h
  repeat' first
    | with_reducible assumption
    | with_reducible apply State.wakeStepTimeout_sound
    | intro _
    | split
    | dsimp only

theorem execWakeRetry_sound (result : WakeResult) {s t : State} (h : execWakeRetry result s = .next t) (hs : Sound pt qu s) : Sound pt qu t := by
  cases h
  repeat' first
    | with_reducible assumption
    | with_reducible apply State.wakeRetry_sound
    | intro _
    | split
    | dsimp only

theorem execSag_sound {s t : State} (h : execSag s = .next t) (hs : Sound pt qu s) : Sound pt qu t := by
  cases h
  repeat' first
    | with_reducible assumption
    | with_reducible apply State.sag_sound
    | intro _
    | split
    | dsimp only

theorem execPointOfNoReturn_sound (supplyGood : Bool) {s t : State} (h : execPointOfNoReturn supplyGood s = .next t) (hs : Sound pt qu s) : Sound pt qu t := by
  cases h
  repeat' first
    | with_reducible assumption
    | with_reducible apply State.pointOfNoReturn_sound
    | intro _
    | split
    | dsimp only

theorem execMramSaveDone_sound (err : Bool) {s t : State} (h : execMramSaveDone err s = .next t) (hs : Sound pt qu s) : Sound pt qu t := by
  cases h
  repeat' first
    | with_reducible assumption
    | with_reducible apply State.mramSaveDone_sound
    | intro _
    | split
    | dsimp only

theorem execVholdExhausted_sound {s t : State} (h : execVholdExhausted s = .next t) (hs : Sound pt qu s) : Sound pt qu t := by
  cases h
  repeat' first
    | with_reducible assumption
    | with_reducible apply State.vholdExhausted_sound
    | intro _
    | split
    | dsimp only

theorem execSupplyReturn_sound {s t : State} (h : execSupplyReturn s = .next t) (hs : Sound pt qu s) : Sound pt qu t := by
  cases h
  repeat' first
    | with_reducible assumption
    | with_reducible apply State.supplyReturn_sound
    | intro _
    | split
    | dsimp only

theorem execPwrIslWrite_sound (w : RegWr) {s t : State} (h : execPwrIslWrite w s = .next t) (hs : Sound pt qu s) : Sound pt qu t := by
  cases h
  repeat' first
    | with_reducible assumption
    | with_reducible apply State.accessAt_sound
    | with_reducible apply State.islWrite_sound
    | intro _
    | split
    | dsimp only

theorem execPwrSaveAdd_sound (w : RegWr) {s t : State} (h : execPwrSaveAdd w s = .next t) (hs : Sound pt qu s) : Sound pt qu t := by
  cases h
  repeat' first
    | with_reducible assumption
    | with_reducible apply State.accessAt_sound
    | with_reducible apply State.saveAdd_sound
    | intro _
    | split
    | dsimp only

theorem execPwrSaveClear_sound (w : RegWr) {s t : State} (h : execPwrSaveClear w s = .next t) (hs : Sound pt qu s) : Sound pt qu t := by
  cases h
  repeat' first
    | with_reducible assumption
    | with_reducible apply State.accessAt_sound
    | with_reducible apply State.saveClear_sound
    | intro _
    | split
    | dsimp only

theorem execVholdMeasure_sound (mv capUf mohm : Nat) (meets : Bool) {s t : State} (h : execVholdMeasure mv capUf mohm meets s = .next t) (hs : Sound pt qu s) : Sound pt qu t := by
  cases h
  repeat' first
    | with_reducible assumption
    | with_reducible apply State.vholdMeasure_sound
    | intro _
    | split
    | dsimp only

theorem execTimCalInterval_sound (c : Nat) {s t : State} (h : execTimCalInterval c s = .next t) (hs : Sound pt qu s) : Sound pt qu t := by
  cases h
  repeat' first
    | with_reducible assumption
    | with_reducible apply State.timCal_sound
    | intro _
    | split
    | dsimp only

theorem execTimSet_sound (w : RegWr) {s t : State} (h : execTimSet w s = .next t) (hs : Sound pt qu s) : Sound pt qu t := by
  cases h
  repeat' first
    | with_reducible assumption
    | with_reducible apply State.accessAt_sound
    | with_reducible apply State.timSetWrite_sound
    | intro _
    | split
    | dsimp only

theorem execAonAlarmArm_sound (w : RegWr) {s t : State} (h : execAonAlarmArm w s = .next t) (hs : Sound pt qu s) : Sound pt qu t := by
  cases h
  repeat' first
    | with_reducible assumption
    | with_reducible apply State.accessAt_sound
    | with_reducible apply State.alarmWrite_sound
    | intro _
    | split
    | dsimp only

theorem execAonPmbGo_sound (w : RegWr) {s t : State} (h : execAonPmbGo w s = .next t) (hs : Sound pt qu s) : Sound pt qu t := by
  cases h
  repeat' first
    | with_reducible assumption
    | with_reducible apply State.accessAt_sound
    | with_reducible apply State.pmbWrite_sound
    | intro _
    | split
    | dsimp only

theorem execPmbDone_sound (ok pec : Bool) (data : Nat) {s t : State} (h : execPmbDone ok pec data s = .next t) (hs : Sound pt qu s) : Sound pt qu t := by
  cases h
  repeat' first
    | with_reducible assumption
    | with_reducible apply State.pmbEnd_sound
    | intro _
    | split
    | dsimp only

theorem execAgeSurveyRequest_sound (w : RegWr) {s t : State} (h : execAgeSurveyRequest w s = .next t) (hs : Sound pt qu s) : Sound pt qu t := by
  cases h
  repeat' first
    | with_reducible assumption
    | with_reducible apply State.accessAt_sound
    | with_reducible apply State.ageCtrlWrite_sound
    | intro _
    | split
    | dsimp only

theorem execSurveyEnd_sound (tj : Int) (m : List (Int × Nat)) {s t : State} (h : execSurveyEnd tj m s = .next t) (hs : Sound pt qu s) : Sound pt qu t := by
  cases h
  repeat' first
    | with_reducible assumption
    | with_reducible apply State.surveyEnd_sound
    | intro _
    | split
    | dsimp only

theorem execMarginAlarm_sound (island : Nat) {s t : State} (h : execMarginAlarm island s = .next t) (hs : Sound pt qu s) : Sound pt qu t := by
  cases h
  repeat' first
    | with_reducible assumption
    | with_reducible apply State.marginAlarm_sound
    | intro _
    | split
    | dsimp only

theorem execPlanVoltageStep_sound {s t : State} (h : execPlanVoltageStep s = .next t) (hs : Sound pt qu s) : Sound pt qu t := by
  cases h
  repeat' first
    | with_reducible assumption
    | with_reducible apply State.planStep_sound
    | intro _
    | split
    | dsimp only

theorem execPoweredHour_sound {s t : State} (h : execPoweredHour s = .next t) (hs : Sound pt qu s) : Sound pt qu t := by
  cases h
  repeat' first
    | with_reducible assumption
    | with_reducible apply State.poweredHour_sound
    | intro _
    | split
    | dsimp only

theorem execSurveyDeferEnd_sound {s t : State} (h : execSurveyDeferEnd s = .next t) (hs : Sound pt qu s) : Sound pt qu t := by
  cases h
  repeat' first
    | with_reducible assumption
    | with_reducible apply State.surveyDeferEnd_sound
    | intro _
    | split
    | dsimp only

theorem execUpdOpen_sound (w : RegWr) {s t : State} (h : execUpdOpen w s = .next t) (hs : Sound pt qu s) : Sound pt qu t := by
  cases h
  repeat' first
    | with_reducible assumption
    | with_reducible apply State.accessAt_sound
    | with_reducible apply State.updCmdWrite_sound
    | intro _
    | split
    | dsimp only

theorem execUpdStage_sound (w : RegWr) {s t : State} (h : execUpdStage w s = .next t) (hs : Sound pt qu s) : Sound pt qu t := by
  cases h
  repeat' first
    | with_reducible assumption
    | with_reducible apply State.accessAt_sound
    | with_reducible apply State.updCmdWrite_sound
    | intro _
    | split
    | dsimp only

theorem execUpdVerify_sound (w : RegWr) {s t : State} (h : execUpdVerify w s = .next t) (hs : Sound pt qu s) : Sound pt qu t := by
  cases h
  repeat' first
    | with_reducible assumption
    | with_reducible apply State.accessAt_sound
    | with_reducible apply State.updCmdWrite_sound
    | intro _
    | split
    | dsimp only

theorem execUpdActivate_sound (w : RegWr) {s t : State} (h : execUpdActivate w s = .next t) (hs : Sound pt qu s) : Sound pt qu t := by
  cases h
  repeat' first
    | with_reducible assumption
    | with_reducible apply State.accessAt_sound
    | with_reducible apply State.updCmdWrite_sound
    | intro _
    | split
    | dsimp only

theorem execUpdAbort_sound (w : RegWr) {s t : State} (h : execUpdAbort w s = .next t) (hs : Sound pt qu s) : Sound pt qu t := by
  cases h
  repeat' first
    | with_reducible assumption
    | with_reducible apply State.accessAt_sound
    | with_reducible apply State.updCmdWrite_sound
    | intro _
    | split
    | dsimp only

theorem execUpdClose_sound (w : RegWr) {s t : State} (h : execUpdClose w s = .next t) (hs : Sound pt qu s) : Sound pt qu t := by
  cases h
  repeat' first
    | with_reducible assumption
    | with_reducible apply State.accessAt_sound
    | with_reducible apply State.updCmdWrite_sound
    | intro _
    | split
    | dsimp only

theorem execUpdSessionTimeout_sound {s t : State} (h : execUpdSessionTimeout s = .next t) (hs : Sound pt qu s) : Sound pt qu t := by
  cases h
  repeat' first
    | with_reducible assumption
    | with_reducible apply State.sessionTimeout_sound
    | intro _
    | split
    | dsimp only

theorem execUpdUnlock_sound (w : RegWr) {s t : State} (h : execUpdUnlock w s = .next t) (hs : Sound pt qu s) : Sound pt qu t := by
  cases h
  repeat' first
    | with_reducible assumption
    | with_reducible apply State.accessAt_sound
    | with_reducible apply State.updLockWrite_sound
    | intro _
    | split
    | dsimp only

theorem execTrialConfirmed_sound {s t : State} (h : execTrialConfirmed s = .next t) (hs : Sound pt qu s) : Sound pt qu t := by
  cases h
  repeat' first
    | with_reducible assumption
    | with_reducible apply State.trialConfirmed_sound
    | intro _
    | split
    | dsimp only

theorem execTrialTimeout_sound {s t : State} (h : execTrialTimeout s = .next t) (hs : Sound pt qu s) : Sound pt qu t := by
  cases h
  repeat' first
    | with_reducible assumption
    | with_reducible apply State.trialTimeout_sound
    | intro _
    | split
    | dsimp only

theorem execMicrocodeTargetLoad_sound (ok : Bool) {s t : State} (h : execMicrocodeTargetLoad ok s = .next t) (hs : Sound pt qu s) : Sound pt qu t := by
  cases h
  repeat' first
    | with_reducible assumption
    | with_reducible apply State.microLoad_sound
    | intro _
    | split
    | dsimp only

theorem execAonPowerOn_sound {s t : State} (h : execAonPowerOn s = .next t) (hs : Sound pt qu s) : Sound pt qu t := by
  cases h
  repeat' first
    | with_reducible assumption
    | with_reducible apply State.aonPowerOn_sound
    | intro _
    | split
    | dsimp only

theorem execResetNAssert_sound {s t : State} (h : execResetNAssert s = .next t) (hs : Sound pt qu s) : Sound pt qu t := by
  cases h
  repeat' first
    | with_reducible assumption
    | with_reducible apply State.resetN_sound
    | intro _
    | split
    | dsimp only

theorem execSysRestart_sound (w : RegWr) {s t : State} (h : execSysRestart w s = .next t) (hs : Sound pt qu s) : Sound pt qu t := by
  cases h
  repeat' first
    | with_reducible assumption
    | with_reducible apply State.accessAt_sound
    | with_reducible apply State.sysResetWrite_sound
    | intro _
    | split
    | dsimp only

theorem execResetRelease_sound {s t : State} (h : execResetRelease s = .next t) (hs : Sound pt qu s) : Sound pt qu t := by
  cases h
  repeat' first
    | with_reducible assumption
    | with_reducible apply State.resetRelease_sound
    | intro _
    | split
    | dsimp only

theorem execStartupPhaseEnd_sound (l : StartLoad) {s t : State} (h : execStartupPhaseEnd l s = .next t) (hs : Sound pt qu s) : Sound pt qu t := by
  cases h
  repeat' first
    | with_reducible assumption
    | with_reducible apply State.phaseEnd_sound
    | intro _
    | split
    | dsimp only

theorem execSysEarlyEnd_sound (w : RegWr) {s t : State} (h : execSysEarlyEnd w s = .next t) (hs : Sound pt qu s) : Sound pt qu t := by
  cases h
  repeat' first
    | with_reducible assumption
    | with_reducible apply State.accessAt_sound
    | with_reducible apply State.sysEarlyWrite_sound
    | intro _
    | split
    | dsimp only

theorem execFaultReport_sound (src sram cls code info fn : Nat) (act : FaultAct) {s t : State} (h : execFaultReport src sram cls code info fn act s = .next t) (hs : Sound pt qu s) : Sound pt qu t := by
  cases h
  repeat' first
    | with_reducible assumption
    | with_reducible apply State.faultReport_sound
    | intro _
    | split
    | dsimp only

theorem execDeviceFatalFault_sound (source : Nat) {s t : State} (h : execDeviceFatalFault source s = .next t) (hs : Sound pt qu s) : Sound pt qu t := by
  cases h
  repeat' first
    | with_reducible assumption
    | with_reducible apply State.fatalSource_sound
    | intro _
    | split
    | dsimp only

theorem execFatalRestart_sound {s t : State} (h : execFatalRestart s = .next t) (hs : Sound pt qu s) : Sound pt qu t := by
  cases h
  repeat' first
    | with_reducible assumption
    | with_reducible apply State.fatalRestart_sound
    | intro _
    | split
    | dsimp only

theorem execWatchdogExpiry_sound {s t : State} (h : execWatchdogExpiry s = .next t) (hs : Sound pt qu s) : Sound pt qu t := by
  cases h
  repeat' first
    | with_reducible assumption
    | with_reducible apply State.fatalSource_sound
    | intro _
    | split
    | dsimp only

theorem execReferenceLoss_sound {s t : State} (h : execReferenceLoss s = .next t) (hs : Sound pt qu s) : Sound pt qu t := by
  cases h
  repeat' first
    | with_reducible assumption
    | with_reducible apply State.fatalSource_sound
    | intro _
    | split
    | dsimp only

theorem execThermtrip_sound {s t : State} (h : execThermtrip s = .next t) (hs : Sound pt qu s) : Sound pt qu t := by
  cases h
  repeat' first
    | with_reducible assumption
    | with_reducible apply State.thermtrip_sound
    | intro _
    | split
    | dsimp only

theorem execLogClear_sound (w : RegWr) {s t : State} (h : execLogClear w s = .next t) (hs : Sound pt qu s) : Sound pt qu t := by
  cases h
  repeat' first
    | with_reducible assumption
    | with_reducible apply State.accessAt_sound
    | with_reducible apply State.logCtrlWrite_sound
    | intro _
    | split
    | dsimp only

theorem execFlitCrcFailure_sound (crc : Bool) (reserved : Option FlitHdr) {s t : State} (h : execFlitCrcFailure crc reserved s = .next t) (hs : Sound pt qu s) : Sound pt qu t := by
  cases h
  repeat' first
    | with_reducible assumption
    | with_reducible apply State.badFlit_sound
    | intro _
    | split
    | dsimp only

theorem execPloliaRecoveryDone_sound {s t : State} (h : execPloliaRecoveryDone s = .next t) (hs : Sound pt qu s) : Sound pt qu t := by
  cases h
  repeat' first
    | with_reducible assumption
    | with_reducible apply State.recoveryDone_sound
    | intro _
    | split
    | dsimp only

theorem execMirrorFlitSend_sound {s t : State} (h : execMirrorFlitSend s = .next t) (hs : Sound pt qu s) : Sound pt qu t := by
  cases h
  repeat' first
    | with_reducible assumption
    | with_reducible apply State.mirrorSend_sound
    | intro _
    | split
    | dsimp only

theorem execUpdCmdDone_sound (genuine : Bool) {s t : State} (h : execUpdCmdDone genuine s = .next t) (hs : Sound pt qu s) : Sound pt qu t := by
  cases h
  repeat' first
    | with_reducible assumption
    | with_reducible apply State.updCmdDone_sound
    | intro _
    | split
    | dsimp only

theorem execMsixVectorUnmask_sound (fn vec : Nat) {s t : State} (h : execMsixVectorUnmask fn vec s = .next t) (hs : Sound pt qu s) : Sound pt qu t := by
  cases h
  repeat' first
    | with_reducible assumption
    | with_reducible apply State.unmask_sound
    | intro _
    | split
    | dsimp only

theorem execGroupWakeDone_sound (g : Nat) {s t : State} (h : execGroupWakeDone group s = .next t) (hs : Sound pt qu s) : Sound pt qu t := by
  cases h
  repeat' first
    | with_reducible assumption
    | with_reducible apply State.groupWake_sound
    | intro _
    | split
    | dsimp only

end Sys2Proof.Machine
end

