-- ==== Sys2Proof/Laws/State.lean ====
section
/-! SUPPORT. Every field of the state after each primitive update, by rfl. -/

namespace Sys2Proof.Machine.State

set_option Elab.async false
set_option linter.all false

variable (s : State)

@[simp] theorem setRw_field_pending (k v : Nat) : (s.setRw k v).pending = s.pending := rfl
@[simp] theorem setRw_field_part (k v : Nat) : (s.setRw k v).part = s.part := rfl
@[simp] theorem setRw_field_regs (k v : Nat) : (s.setRw k v).regs = Sparse.set (resetWord s.part) s.regs k (BitVec.ofNat 32 v) := rfl
@[simp] theorem setRw_field_shad (k v : Nat) : (s.setRw k v).shad = s.shad := rfl
@[simp] theorem setRw_field_loaded (k v : Nat) : (s.setRw k v).loaded = s.loaded := rfl
@[simp] theorem setRw_field_staged (k v : Nat) : (s.setRw k v).staged = s.staged := rfl
@[simp] theorem setRw_field_latched (k v : Nat) : (s.setRw k v).latched = s.latched := rfl
@[simp] theorem setRw_field_softResetting (k v : Nat) : (s.setRw k v).softResetting = s.softResetting := rfl
@[simp] theorem setRw_field_mem (k v : Nat) : (s.setRw k v).mem = s.mem := rfl
@[simp] theorem setRw_field_out (k v : Nat) : (s.setRw k v).out = s.out := rfl
@[simp] theorem setRw_field_free (k v : Nat) : (s.setRw k v).free = s.free := rfl
@[simp] theorem setRw_field_now (k v : Nat) : (s.setRw k v).now = s.now := rfl
@[simp] theorem setRw_field_time (k v : Nat) : (s.setRw k v).time = s.time := rfl
@[simp] theorem setRw_field_power (k v : Nat) : (s.setRw k v).power = s.power := rfl
@[simp] theorem setRw_field_dram (k v : Nat) : (s.setRw k v).dram = s.dram := rfl
@[simp] theorem setRw_field_edac (k v : Nat) : (s.setRw k v).edac = s.edac := rfl
@[simp] theorem setRw_field_pool (k v : Nat) : (s.setRw k v).pool = s.pool := rfl
@[simp] theorem setRw_field_ingest (k v : Nat) : (s.setRw k v).ingest = s.ingest := rfl
@[simp] theorem setRw_field_display (k v : Nat) : (s.setRw k v).display = s.display := rfl
@[simp] theorem setRw_field_dpls (k v : Nat) : (s.setRw k v).dpls = s.dpls := rfl
@[simp] theorem setRw_field_cvus (k v : Nat) : (s.setRw k v).cvus = s.cvus := rfl
@[simp] theorem setRw_field_touch (k v : Nat) : (s.setRw k v).touch = s.touch := rfl
@[simp] theorem setRw_field_haptic (k v : Nat) : (s.setRw k v).haptic = s.haptic := rfl
@[simp] theorem setRw_field_audio (k v : Nat) : (s.setRw k v).audio = s.audio := rfl
@[simp] theorem setRw_field_age (k v : Nat) : (s.setRw k v).age = s.age := rfl
@[simp] theorem setRw_field_update (k v : Nat) : (s.setRw k v).update = s.update := rfl
@[simp] theorem setRw_field_faults (k v : Nat) : (s.setRw k v).faults = s.faults := rfl
@[simp] theorem setRw_field_worlds (k v : Nat) : (s.setRw k v).worlds = s.worlds := rfl
@[simp] theorem setRw_field_hosts (k v : Nat) : (s.setRw k v).hosts = s.hosts := rfl
@[simp] theorem setRw_field_pair (k v : Nat) : (s.setRw k v).pair = s.pair := rfl

@[simp] theorem setSw_field_pending (k v : Nat) : (s.setSw k v).pending = s.pending := rfl
@[simp] theorem setSw_field_part (k v : Nat) : (s.setSw k v).part = s.part := rfl
@[simp] theorem setSw_field_regs (k v : Nat) : (s.setSw k v).regs = s.regs := rfl
@[simp] theorem setSw_field_shad (k v : Nat) : (s.setSw k v).shad = Sparse.set (resetWord s.part) s.shad k (BitVec.ofNat 32 v) := rfl
@[simp] theorem setSw_field_loaded (k v : Nat) : (s.setSw k v).loaded = s.loaded := rfl
@[simp] theorem setSw_field_staged (k v : Nat) : (s.setSw k v).staged = s.staged := rfl
@[simp] theorem setSw_field_latched (k v : Nat) : (s.setSw k v).latched = s.latched := rfl
@[simp] theorem setSw_field_softResetting (k v : Nat) : (s.setSw k v).softResetting = s.softResetting := rfl
@[simp] theorem setSw_field_mem (k v : Nat) : (s.setSw k v).mem = s.mem := rfl
@[simp] theorem setSw_field_out (k v : Nat) : (s.setSw k v).out = s.out := rfl
@[simp] theorem setSw_field_free (k v : Nat) : (s.setSw k v).free = s.free := rfl
@[simp] theorem setSw_field_now (k v : Nat) : (s.setSw k v).now = s.now := rfl
@[simp] theorem setSw_field_time (k v : Nat) : (s.setSw k v).time = s.time := rfl
@[simp] theorem setSw_field_power (k v : Nat) : (s.setSw k v).power = s.power := rfl
@[simp] theorem setSw_field_dram (k v : Nat) : (s.setSw k v).dram = s.dram := rfl
@[simp] theorem setSw_field_edac (k v : Nat) : (s.setSw k v).edac = s.edac := rfl
@[simp] theorem setSw_field_pool (k v : Nat) : (s.setSw k v).pool = s.pool := rfl
@[simp] theorem setSw_field_ingest (k v : Nat) : (s.setSw k v).ingest = s.ingest := rfl
@[simp] theorem setSw_field_display (k v : Nat) : (s.setSw k v).display = s.display := rfl
@[simp] theorem setSw_field_dpls (k v : Nat) : (s.setSw k v).dpls = s.dpls := rfl
@[simp] theorem setSw_field_cvus (k v : Nat) : (s.setSw k v).cvus = s.cvus := rfl
@[simp] theorem setSw_field_touch (k v : Nat) : (s.setSw k v).touch = s.touch := rfl
@[simp] theorem setSw_field_haptic (k v : Nat) : (s.setSw k v).haptic = s.haptic := rfl
@[simp] theorem setSw_field_audio (k v : Nat) : (s.setSw k v).audio = s.audio := rfl
@[simp] theorem setSw_field_age (k v : Nat) : (s.setSw k v).age = s.age := rfl
@[simp] theorem setSw_field_update (k v : Nat) : (s.setSw k v).update = s.update := rfl
@[simp] theorem setSw_field_faults (k v : Nat) : (s.setSw k v).faults = s.faults := rfl
@[simp] theorem setSw_field_worlds (k v : Nat) : (s.setSw k v).worlds = s.worlds := rfl
@[simp] theorem setSw_field_hosts (k v : Nat) : (s.setSw k v).hosts = s.hosts := rfl
@[simp] theorem setSw_field_pair (k v : Nat) : (s.setSw k v).pair = s.pair := rfl

@[simp] theorem emit_field_pending (o : Output) : (s.emit o).pending = s.pending := rfl
@[simp] theorem emit_field_part (o : Output) : (s.emit o).part = s.part := rfl
@[simp] theorem emit_field_regs (o : Output) : (s.emit o).regs = s.regs := rfl
@[simp] theorem emit_field_shad (o : Output) : (s.emit o).shad = s.shad := rfl
@[simp] theorem emit_field_loaded (o : Output) : (s.emit o).loaded = s.loaded := rfl
@[simp] theorem emit_field_staged (o : Output) : (s.emit o).staged = s.staged := rfl
@[simp] theorem emit_field_latched (o : Output) : (s.emit o).latched = s.latched := rfl
@[simp] theorem emit_field_softResetting (o : Output) : (s.emit o).softResetting = s.softResetting := rfl
@[simp] theorem emit_field_mem (o : Output) : (s.emit o).mem = s.mem := rfl
@[simp] theorem emit_field_out (o : Output) : (s.emit o).out = s.out ++ [o] := rfl
@[simp] theorem emit_field_free (o : Output) : (s.emit o).free = s.free := rfl
@[simp] theorem emit_field_now (o : Output) : (s.emit o).now = s.now := rfl
@[simp] theorem emit_field_time (o : Output) : (s.emit o).time = s.time := rfl
@[simp] theorem emit_field_power (o : Output) : (s.emit o).power = s.power := rfl
@[simp] theorem emit_field_dram (o : Output) : (s.emit o).dram = s.dram := rfl
@[simp] theorem emit_field_edac (o : Output) : (s.emit o).edac = s.edac := rfl
@[simp] theorem emit_field_pool (o : Output) : (s.emit o).pool = s.pool := rfl
@[simp] theorem emit_field_ingest (o : Output) : (s.emit o).ingest = s.ingest := rfl
@[simp] theorem emit_field_display (o : Output) : (s.emit o).display = s.display := rfl
@[simp] theorem emit_field_dpls (o : Output) : (s.emit o).dpls = s.dpls := rfl
@[simp] theorem emit_field_cvus (o : Output) : (s.emit o).cvus = s.cvus := rfl
@[simp] theorem emit_field_touch (o : Output) : (s.emit o).touch = s.touch := rfl
@[simp] theorem emit_field_haptic (o : Output) : (s.emit o).haptic = s.haptic := rfl
@[simp] theorem emit_field_audio (o : Output) : (s.emit o).audio = s.audio := rfl
@[simp] theorem emit_field_age (o : Output) : (s.emit o).age = s.age := rfl
@[simp] theorem emit_field_update (o : Output) : (s.emit o).update = s.update := rfl
@[simp] theorem emit_field_faults (o : Output) : (s.emit o).faults = s.faults := rfl
@[simp] theorem emit_field_worlds (o : Output) : (s.emit o).worlds = s.worlds := rfl
@[simp] theorem emit_field_hosts (o : Output) : (s.emit o).hosts = s.hosts := rfl
@[simp] theorem emit_field_pair (o : Output) : (s.emit o).pair = s.pair := rfl

@[simp] theorem setQueue_field_pending (fn q : Nat) (x : Queue) : (s.setQueue fn q x).pending = s.pending := rfl
@[simp] theorem setQueue_field_part (fn q : Nat) (x : Queue) : (s.setQueue fn q x).part = s.part := rfl
@[simp] theorem setQueue_field_regs (fn q : Nat) (x : Queue) : (s.setQueue fn q x).regs = s.regs := rfl
@[simp] theorem setQueue_field_shad (fn q : Nat) (x : Queue) : (s.setQueue fn q x).shad = s.shad := rfl
@[simp] theorem setQueue_field_loaded (fn q : Nat) (x : Queue) : (s.setQueue fn q x).loaded = s.loaded := rfl
@[simp] theorem setQueue_field_staged (fn q : Nat) (x : Queue) : (s.setQueue fn q x).staged = s.staged := rfl
@[simp] theorem setQueue_field_latched (fn q : Nat) (x : Queue) : (s.setQueue fn q x).latched = s.latched := rfl
@[simp] theorem setQueue_field_softResetting (fn q : Nat) (x : Queue) : (s.setQueue fn q x).softResetting = s.softResetting := rfl
@[simp] theorem setQueue_field_mem (fn q : Nat) (x : Queue) : (s.setQueue fn q x).mem = s.mem := rfl
@[simp] theorem setQueue_field_out (fn q : Nat) (x : Queue) : (s.setQueue fn q x).out = s.out := rfl
@[simp] theorem setQueue_field_free (fn q : Nat) (x : Queue) : (s.setQueue fn q x).free = s.free := rfl
@[simp] theorem setQueue_field_now (fn q : Nat) (x : Queue) : (s.setQueue fn q x).now = s.now := rfl
@[simp] theorem setQueue_field_time (fn q : Nat) (x : Queue) : (s.setQueue fn q x).time = s.time := rfl
@[simp] theorem setQueue_field_power (fn q : Nat) (x : Queue) : (s.setQueue fn q x).power = s.power := rfl
@[simp] theorem setQueue_field_dram (fn q : Nat) (x : Queue) : (s.setQueue fn q x).dram = s.dram := rfl
@[simp] theorem setQueue_field_edac (fn q : Nat) (x : Queue) : (s.setQueue fn q x).edac = s.edac := rfl
@[simp] theorem setQueue_field_pool (fn q : Nat) (x : Queue) : (s.setQueue fn q x).pool = s.pool := rfl
@[simp] theorem setQueue_field_ingest (fn q : Nat) (x : Queue) : (s.setQueue fn q x).ingest = s.ingest := rfl
@[simp] theorem setQueue_field_display (fn q : Nat) (x : Queue) : (s.setQueue fn q x).display = s.display := rfl
@[simp] theorem setQueue_field_dpls (fn q : Nat) (x : Queue) : (s.setQueue fn q x).dpls = s.dpls := rfl
@[simp] theorem setQueue_field_cvus (fn q : Nat) (x : Queue) : (s.setQueue fn q x).cvus = s.cvus := rfl
@[simp] theorem setQueue_field_touch (fn q : Nat) (x : Queue) : (s.setQueue fn q x).touch = s.touch := rfl
@[simp] theorem setQueue_field_haptic (fn q : Nat) (x : Queue) : (s.setQueue fn q x).haptic = s.haptic := rfl
@[simp] theorem setQueue_field_audio (fn q : Nat) (x : Queue) : (s.setQueue fn q x).audio = s.audio := rfl
@[simp] theorem setQueue_field_age (fn q : Nat) (x : Queue) : (s.setQueue fn q x).age = s.age := rfl
@[simp] theorem setQueue_field_update (fn q : Nat) (x : Queue) : (s.setQueue fn q x).update = s.update := rfl
@[simp] theorem setQueue_field_faults (fn q : Nat) (x : Queue) : (s.setQueue fn q x).faults = s.faults := rfl
@[simp] theorem setQueue_field_worlds (fn q : Nat) (x : Queue) : (s.setQueue fn q x).worlds = s.worlds := rfl
@[simp] theorem setQueue_field_hosts (fn q : Nat) (x : Queue) : (s.setQueue fn q x).hosts = { s.hosts with queues := Sparse.put s.hosts.queues (fn * 8 + q) x } := rfl
@[simp] theorem setQueue_field_pair (fn q : Nat) (x : Queue) : (s.setQueue fn q x).pair = s.pair := rfl

@[simp] theorem setFn_field_pending (f : Nat) (x : Fn) : (s.setFn f x).pending = s.pending := rfl
@[simp] theorem setFn_field_part (f : Nat) (x : Fn) : (s.setFn f x).part = s.part := rfl
@[simp] theorem setFn_field_regs (f : Nat) (x : Fn) : (s.setFn f x).regs = s.regs := rfl
@[simp] theorem setFn_field_shad (f : Nat) (x : Fn) : (s.setFn f x).shad = s.shad := rfl
@[simp] theorem setFn_field_loaded (f : Nat) (x : Fn) : (s.setFn f x).loaded = s.loaded := rfl
@[simp] theorem setFn_field_staged (f : Nat) (x : Fn) : (s.setFn f x).staged = s.staged := rfl
@[simp] theorem setFn_field_latched (f : Nat) (x : Fn) : (s.setFn f x).latched = s.latched := rfl
@[simp] theorem setFn_field_softResetting (f : Nat) (x : Fn) : (s.setFn f x).softResetting = s.softResetting := rfl
@[simp] theorem setFn_field_mem (f : Nat) (x : Fn) : (s.setFn f x).mem = s.mem := rfl
@[simp] theorem setFn_field_out (f : Nat) (x : Fn) : (s.setFn f x).out = s.out := rfl
@[simp] theorem setFn_field_free (f : Nat) (x : Fn) : (s.setFn f x).free = s.free := rfl
@[simp] theorem setFn_field_now (f : Nat) (x : Fn) : (s.setFn f x).now = s.now := rfl
@[simp] theorem setFn_field_time (f : Nat) (x : Fn) : (s.setFn f x).time = s.time := rfl
@[simp] theorem setFn_field_power (f : Nat) (x : Fn) : (s.setFn f x).power = s.power := rfl
@[simp] theorem setFn_field_dram (f : Nat) (x : Fn) : (s.setFn f x).dram = s.dram := rfl
@[simp] theorem setFn_field_edac (f : Nat) (x : Fn) : (s.setFn f x).edac = s.edac := rfl
@[simp] theorem setFn_field_pool (f : Nat) (x : Fn) : (s.setFn f x).pool = s.pool := rfl
@[simp] theorem setFn_field_ingest (f : Nat) (x : Fn) : (s.setFn f x).ingest = s.ingest := rfl
@[simp] theorem setFn_field_display (f : Nat) (x : Fn) : (s.setFn f x).display = s.display := rfl
@[simp] theorem setFn_field_dpls (f : Nat) (x : Fn) : (s.setFn f x).dpls = s.dpls := rfl
@[simp] theorem setFn_field_cvus (f : Nat) (x : Fn) : (s.setFn f x).cvus = s.cvus := rfl
@[simp] theorem setFn_field_touch (f : Nat) (x : Fn) : (s.setFn f x).touch = s.touch := rfl
@[simp] theorem setFn_field_haptic (f : Nat) (x : Fn) : (s.setFn f x).haptic = s.haptic := rfl
@[simp] theorem setFn_field_audio (f : Nat) (x : Fn) : (s.setFn f x).audio = s.audio := rfl
@[simp] theorem setFn_field_age (f : Nat) (x : Fn) : (s.setFn f x).age = s.age := rfl
@[simp] theorem setFn_field_update (f : Nat) (x : Fn) : (s.setFn f x).update = s.update := rfl
@[simp] theorem setFn_field_faults (f : Nat) (x : Fn) : (s.setFn f x).faults = s.faults := rfl
@[simp] theorem setFn_field_worlds (f : Nat) (x : Fn) : (s.setFn f x).worlds = s.worlds := rfl
@[simp] theorem setFn_field_hosts (f : Nat) (x : Fn) : (s.setFn f x).hosts = { s.hosts with fns := Sparse.put s.hosts.fns f x } := rfl
@[simp] theorem setFn_field_pair (f : Nat) (x : Fn) : (s.setFn f x).pair = s.pair := rfl

@[simp] theorem keepJobs_field_pending (f : Job → Bool) : (s.keepJobs f).pending = s.pending := rfl
@[simp] theorem keepJobs_field_part (f : Job → Bool) : (s.keepJobs f).part = s.part := rfl
@[simp] theorem keepJobs_field_regs (f : Job → Bool) : (s.keepJobs f).regs = s.regs := rfl
@[simp] theorem keepJobs_field_shad (f : Job → Bool) : (s.keepJobs f).shad = s.shad := rfl
@[simp] theorem keepJobs_field_loaded (f : Job → Bool) : (s.keepJobs f).loaded = s.loaded := rfl
@[simp] theorem keepJobs_field_staged (f : Job → Bool) : (s.keepJobs f).staged = s.staged := rfl
@[simp] theorem keepJobs_field_latched (f : Job → Bool) : (s.keepJobs f).latched = s.latched := rfl
@[simp] theorem keepJobs_field_softResetting (f : Job → Bool) : (s.keepJobs f).softResetting = s.softResetting := rfl
@[simp] theorem keepJobs_field_mem (f : Job → Bool) : (s.keepJobs f).mem = s.mem := rfl
@[simp] theorem keepJobs_field_out (f : Job → Bool) : (s.keepJobs f).out = s.out := rfl
@[simp] theorem keepJobs_field_free (f : Job → Bool) : (s.keepJobs f).free = s.free := rfl
@[simp] theorem keepJobs_field_now (f : Job → Bool) : (s.keepJobs f).now = s.now := rfl
@[simp] theorem keepJobs_field_time (f : Job → Bool) : (s.keepJobs f).time = s.time := rfl
@[simp] theorem keepJobs_field_power (f : Job → Bool) : (s.keepJobs f).power = s.power := rfl
@[simp] theorem keepJobs_field_dram (f : Job → Bool) : (s.keepJobs f).dram = s.dram := rfl
@[simp] theorem keepJobs_field_edac (f : Job → Bool) : (s.keepJobs f).edac = s.edac := rfl
@[simp] theorem keepJobs_field_pool (f : Job → Bool) : (s.keepJobs f).pool = s.pool := rfl
@[simp] theorem keepJobs_field_ingest (f : Job → Bool) : (s.keepJobs f).ingest = s.ingest := rfl
@[simp] theorem keepJobs_field_display (f : Job → Bool) : (s.keepJobs f).display = s.display := rfl
@[simp] theorem keepJobs_field_dpls (f : Job → Bool) : (s.keepJobs f).dpls = s.dpls := rfl
@[simp] theorem keepJobs_field_cvus (f : Job → Bool) : (s.keepJobs f).cvus = s.cvus := rfl
@[simp] theorem keepJobs_field_touch (f : Job → Bool) : (s.keepJobs f).touch = s.touch := rfl
@[simp] theorem keepJobs_field_haptic (f : Job → Bool) : (s.keepJobs f).haptic = s.haptic := rfl
@[simp] theorem keepJobs_field_audio (f : Job → Bool) : (s.keepJobs f).audio = s.audio := rfl
@[simp] theorem keepJobs_field_age (f : Job → Bool) : (s.keepJobs f).age = s.age := rfl
@[simp] theorem keepJobs_field_update (f : Job → Bool) : (s.keepJobs f).update = s.update := rfl
@[simp] theorem keepJobs_field_faults (f : Job → Bool) : (s.keepJobs f).faults = s.faults := rfl
@[simp] theorem keepJobs_field_worlds (f : Job → Bool) : (s.keepJobs f).worlds = s.worlds := rfl
@[simp] theorem keepJobs_field_hosts (f : Job → Bool) : (s.keepJobs f).hosts = { s.hosts with jobs := s.hosts.jobs.filter f } := rfl
@[simp] theorem keepJobs_field_pair (f : Job → Bool) : (s.keepJobs f).pair = s.pair := rfl

@[simp] theorem setChan_field_pending (i : Nat) (c : Chan) : (s.setChan i c).pending = s.pending := rfl
@[simp] theorem setChan_field_part (i : Nat) (c : Chan) : (s.setChan i c).part = s.part := rfl
@[simp] theorem setChan_field_regs (i : Nat) (c : Chan) : (s.setChan i c).regs = s.regs := rfl
@[simp] theorem setChan_field_shad (i : Nat) (c : Chan) : (s.setChan i c).shad = s.shad := rfl
@[simp] theorem setChan_field_loaded (i : Nat) (c : Chan) : (s.setChan i c).loaded = s.loaded := rfl
@[simp] theorem setChan_field_staged (i : Nat) (c : Chan) : (s.setChan i c).staged = s.staged := rfl
@[simp] theorem setChan_field_latched (i : Nat) (c : Chan) : (s.setChan i c).latched = s.latched := rfl
@[simp] theorem setChan_field_softResetting (i : Nat) (c : Chan) : (s.setChan i c).softResetting = s.softResetting := rfl
@[simp] theorem setChan_field_mem (i : Nat) (c : Chan) : (s.setChan i c).mem = s.mem := rfl
@[simp] theorem setChan_field_out (i : Nat) (c : Chan) : (s.setChan i c).out = s.out := rfl
@[simp] theorem setChan_field_free (i : Nat) (c : Chan) : (s.setChan i c).free = s.free := rfl
@[simp] theorem setChan_field_now (i : Nat) (c : Chan) : (s.setChan i c).now = s.now := rfl
@[simp] theorem setChan_field_time (i : Nat) (c : Chan) : (s.setChan i c).time = s.time := rfl
@[simp] theorem setChan_field_power (i : Nat) (c : Chan) : (s.setChan i c).power = s.power := rfl
@[simp] theorem setChan_field_dram (i : Nat) (c : Chan) : (s.setChan i c).dram = s.dram := rfl
@[simp] theorem setChan_field_edac (i : Nat) (c : Chan) : (s.setChan i c).edac = s.edac := rfl
@[simp] theorem setChan_field_pool (i : Nat) (c : Chan) : (s.setChan i c).pool = { s.pool with chans := s.pool.chans.update i c } := rfl
@[simp] theorem setChan_field_ingest (i : Nat) (c : Chan) : (s.setChan i c).ingest = s.ingest := rfl
@[simp] theorem setChan_field_display (i : Nat) (c : Chan) : (s.setChan i c).display = s.display := rfl
@[simp] theorem setChan_field_dpls (i : Nat) (c : Chan) : (s.setChan i c).dpls = s.dpls := rfl
@[simp] theorem setChan_field_cvus (i : Nat) (c : Chan) : (s.setChan i c).cvus = s.cvus := rfl
@[simp] theorem setChan_field_touch (i : Nat) (c : Chan) : (s.setChan i c).touch = s.touch := rfl
@[simp] theorem setChan_field_haptic (i : Nat) (c : Chan) : (s.setChan i c).haptic = s.haptic := rfl
@[simp] theorem setChan_field_audio (i : Nat) (c : Chan) : (s.setChan i c).audio = s.audio := rfl
@[simp] theorem setChan_field_age (i : Nat) (c : Chan) : (s.setChan i c).age = s.age := rfl
@[simp] theorem setChan_field_update (i : Nat) (c : Chan) : (s.setChan i c).update = s.update := rfl
@[simp] theorem setChan_field_faults (i : Nat) (c : Chan) : (s.setChan i c).faults = s.faults := rfl
@[simp] theorem setChan_field_worlds (i : Nat) (c : Chan) : (s.setChan i c).worlds = s.worlds := rfl
@[simp] theorem setChan_field_hosts (i : Nat) (c : Chan) : (s.setChan i c).hosts = s.hosts := rfl
@[simp] theorem setChan_field_pair (i : Nat) (c : Chan) : (s.setChan i c).pair = s.pair := rfl

@[simp] theorem setBuf_field_pending (i : Nat) (b : Buf) : (s.setBuf i b).pending = s.pending := rfl
@[simp] theorem setBuf_field_part (i : Nat) (b : Buf) : (s.setBuf i b).part = s.part := rfl
@[simp] theorem setBuf_field_regs (i : Nat) (b : Buf) : (s.setBuf i b).regs = s.regs := rfl
@[simp] theorem setBuf_field_shad (i : Nat) (b : Buf) : (s.setBuf i b).shad = s.shad := rfl
@[simp] theorem setBuf_field_loaded (i : Nat) (b : Buf) : (s.setBuf i b).loaded = s.loaded := rfl
@[simp] theorem setBuf_field_staged (i : Nat) (b : Buf) : (s.setBuf i b).staged = s.staged := rfl
@[simp] theorem setBuf_field_latched (i : Nat) (b : Buf) : (s.setBuf i b).latched = s.latched := rfl
@[simp] theorem setBuf_field_softResetting (i : Nat) (b : Buf) : (s.setBuf i b).softResetting = s.softResetting := rfl
@[simp] theorem setBuf_field_mem (i : Nat) (b : Buf) : (s.setBuf i b).mem = s.mem := rfl
@[simp] theorem setBuf_field_out (i : Nat) (b : Buf) : (s.setBuf i b).out = s.out := rfl
@[simp] theorem setBuf_field_free (i : Nat) (b : Buf) : (s.setBuf i b).free = s.free := rfl
@[simp] theorem setBuf_field_now (i : Nat) (b : Buf) : (s.setBuf i b).now = s.now := rfl
@[simp] theorem setBuf_field_time (i : Nat) (b : Buf) : (s.setBuf i b).time = s.time := rfl
@[simp] theorem setBuf_field_power (i : Nat) (b : Buf) : (s.setBuf i b).power = s.power := rfl
@[simp] theorem setBuf_field_dram (i : Nat) (b : Buf) : (s.setBuf i b).dram = s.dram := rfl
@[simp] theorem setBuf_field_edac (i : Nat) (b : Buf) : (s.setBuf i b).edac = s.edac := rfl
@[simp] theorem setBuf_field_pool (i : Nat) (b : Buf) : (s.setBuf i b).pool = { s.pool with bufs := s.pool.bufs.update i b } := rfl
@[simp] theorem setBuf_field_ingest (i : Nat) (b : Buf) : (s.setBuf i b).ingest = s.ingest := rfl
@[simp] theorem setBuf_field_display (i : Nat) (b : Buf) : (s.setBuf i b).display = s.display := rfl
@[simp] theorem setBuf_field_dpls (i : Nat) (b : Buf) : (s.setBuf i b).dpls = s.dpls := rfl
@[simp] theorem setBuf_field_cvus (i : Nat) (b : Buf) : (s.setBuf i b).cvus = s.cvus := rfl
@[simp] theorem setBuf_field_touch (i : Nat) (b : Buf) : (s.setBuf i b).touch = s.touch := rfl
@[simp] theorem setBuf_field_haptic (i : Nat) (b : Buf) : (s.setBuf i b).haptic = s.haptic := rfl
@[simp] theorem setBuf_field_audio (i : Nat) (b : Buf) : (s.setBuf i b).audio = s.audio := rfl
@[simp] theorem setBuf_field_age (i : Nat) (b : Buf) : (s.setBuf i b).age = s.age := rfl
@[simp] theorem setBuf_field_update (i : Nat) (b : Buf) : (s.setBuf i b).update = s.update := rfl
@[simp] theorem setBuf_field_faults (i : Nat) (b : Buf) : (s.setBuf i b).faults = s.faults := rfl
@[simp] theorem setBuf_field_worlds (i : Nat) (b : Buf) : (s.setBuf i b).worlds = s.worlds := rfl
@[simp] theorem setBuf_field_hosts (i : Nat) (b : Buf) : (s.setBuf i b).hosts = s.hosts := rfl
@[simp] theorem setBuf_field_pair (i : Nat) (b : Buf) : (s.setBuf i b).pair = s.pair := rfl

@[simp] theorem setDisp_field_pending (n : Nat) (d : Disp) : (s.setDisp n d).pending = s.pending := rfl
@[simp] theorem setDisp_field_part (n : Nat) (d : Disp) : (s.setDisp n d).part = s.part := rfl
@[simp] theorem setDisp_field_regs (n : Nat) (d : Disp) : (s.setDisp n d).regs = s.regs := rfl
@[simp] theorem setDisp_field_shad (n : Nat) (d : Disp) : (s.setDisp n d).shad = s.shad := rfl
@[simp] theorem setDisp_field_loaded (n : Nat) (d : Disp) : (s.setDisp n d).loaded = s.loaded := rfl
@[simp] theorem setDisp_field_staged (n : Nat) (d : Disp) : (s.setDisp n d).staged = s.staged := rfl
@[simp] theorem setDisp_field_latched (n : Nat) (d : Disp) : (s.setDisp n d).latched = s.latched := rfl
@[simp] theorem setDisp_field_softResetting (n : Nat) (d : Disp) : (s.setDisp n d).softResetting = s.softResetting := rfl
@[simp] theorem setDisp_field_mem (n : Nat) (d : Disp) : (s.setDisp n d).mem = s.mem := rfl
@[simp] theorem setDisp_field_out (n : Nat) (d : Disp) : (s.setDisp n d).out = s.out := rfl
@[simp] theorem setDisp_field_free (n : Nat) (d : Disp) : (s.setDisp n d).free = s.free := rfl
@[simp] theorem setDisp_field_now (n : Nat) (d : Disp) : (s.setDisp n d).now = s.now := rfl
@[simp] theorem setDisp_field_time (n : Nat) (d : Disp) : (s.setDisp n d).time = s.time := rfl
@[simp] theorem setDisp_field_power (n : Nat) (d : Disp) : (s.setDisp n d).power = s.power := rfl
@[simp] theorem setDisp_field_dram (n : Nat) (d : Disp) : (s.setDisp n d).dram = s.dram := rfl
@[simp] theorem setDisp_field_edac (n : Nat) (d : Disp) : (s.setDisp n d).edac = s.edac := rfl
@[simp] theorem setDisp_field_pool (n : Nat) (d : Disp) : (s.setDisp n d).pool = s.pool := rfl
@[simp] theorem setDisp_field_ingest (n : Nat) (d : Disp) : (s.setDisp n d).ingest = s.ingest := rfl
@[simp] theorem setDisp_field_display (n : Nat) (d : Disp) : (s.setDisp n d).display = { s.display with disps := Sparse.put s.display.disps n d } := rfl
@[simp] theorem setDisp_field_dpls (n : Nat) (d : Disp) : (s.setDisp n d).dpls = s.dpls := rfl
@[simp] theorem setDisp_field_cvus (n : Nat) (d : Disp) : (s.setDisp n d).cvus = s.cvus := rfl
@[simp] theorem setDisp_field_touch (n : Nat) (d : Disp) : (s.setDisp n d).touch = s.touch := rfl
@[simp] theorem setDisp_field_haptic (n : Nat) (d : Disp) : (s.setDisp n d).haptic = s.haptic := rfl
@[simp] theorem setDisp_field_audio (n : Nat) (d : Disp) : (s.setDisp n d).audio = s.audio := rfl
@[simp] theorem setDisp_field_age (n : Nat) (d : Disp) : (s.setDisp n d).age = s.age := rfl
@[simp] theorem setDisp_field_update (n : Nat) (d : Disp) : (s.setDisp n d).update = s.update := rfl
@[simp] theorem setDisp_field_faults (n : Nat) (d : Disp) : (s.setDisp n d).faults = s.faults := rfl
@[simp] theorem setDisp_field_worlds (n : Nat) (d : Disp) : (s.setDisp n d).worlds = s.worlds := rfl
@[simp] theorem setDisp_field_hosts (n : Nat) (d : Disp) : (s.setDisp n d).hosts = s.hosts := rfl
@[simp] theorem setDisp_field_pair (n : Nat) (d : Disp) : (s.setDisp n d).pair = s.pair := rfl

@[simp] theorem setEngine_field_pending (n : Nat) (e : IngEngine) : (s.setEngine n e).pending = s.pending := rfl
@[simp] theorem setEngine_field_part (n : Nat) (e : IngEngine) : (s.setEngine n e).part = s.part := rfl
@[simp] theorem setEngine_field_regs (n : Nat) (e : IngEngine) : (s.setEngine n e).regs = s.regs := rfl
@[simp] theorem setEngine_field_shad (n : Nat) (e : IngEngine) : (s.setEngine n e).shad = s.shad := rfl
@[simp] theorem setEngine_field_loaded (n : Nat) (e : IngEngine) : (s.setEngine n e).loaded = s.loaded := rfl
@[simp] theorem setEngine_field_staged (n : Nat) (e : IngEngine) : (s.setEngine n e).staged = s.staged := rfl
@[simp] theorem setEngine_field_latched (n : Nat) (e : IngEngine) : (s.setEngine n e).latched = s.latched := rfl
@[simp] theorem setEngine_field_softResetting (n : Nat) (e : IngEngine) : (s.setEngine n e).softResetting = s.softResetting := rfl
@[simp] theorem setEngine_field_mem (n : Nat) (e : IngEngine) : (s.setEngine n e).mem = s.mem := rfl
@[simp] theorem setEngine_field_out (n : Nat) (e : IngEngine) : (s.setEngine n e).out = s.out := rfl
@[simp] theorem setEngine_field_free (n : Nat) (e : IngEngine) : (s.setEngine n e).free = s.free := rfl
@[simp] theorem setEngine_field_now (n : Nat) (e : IngEngine) : (s.setEngine n e).now = s.now := rfl
@[simp] theorem setEngine_field_time (n : Nat) (e : IngEngine) : (s.setEngine n e).time = s.time := rfl
@[simp] theorem setEngine_field_power (n : Nat) (e : IngEngine) : (s.setEngine n e).power = s.power := rfl
@[simp] theorem setEngine_field_dram (n : Nat) (e : IngEngine) : (s.setEngine n e).dram = s.dram := rfl
@[simp] theorem setEngine_field_edac (n : Nat) (e : IngEngine) : (s.setEngine n e).edac = s.edac := rfl
@[simp] theorem setEngine_field_pool (n : Nat) (e : IngEngine) : (s.setEngine n e).pool = s.pool := rfl
@[simp] theorem setEngine_field_ingest (n : Nat) (e : IngEngine) : (s.setEngine n e).ingest = { s.ingest with engines := Sparse.put s.ingest.engines n e } := rfl
@[simp] theorem setEngine_field_display (n : Nat) (e : IngEngine) : (s.setEngine n e).display = s.display := rfl
@[simp] theorem setEngine_field_dpls (n : Nat) (e : IngEngine) : (s.setEngine n e).dpls = s.dpls := rfl
@[simp] theorem setEngine_field_cvus (n : Nat) (e : IngEngine) : (s.setEngine n e).cvus = s.cvus := rfl
@[simp] theorem setEngine_field_touch (n : Nat) (e : IngEngine) : (s.setEngine n e).touch = s.touch := rfl
@[simp] theorem setEngine_field_haptic (n : Nat) (e : IngEngine) : (s.setEngine n e).haptic = s.haptic := rfl
@[simp] theorem setEngine_field_audio (n : Nat) (e : IngEngine) : (s.setEngine n e).audio = s.audio := rfl
@[simp] theorem setEngine_field_age (n : Nat) (e : IngEngine) : (s.setEngine n e).age = s.age := rfl
@[simp] theorem setEngine_field_update (n : Nat) (e : IngEngine) : (s.setEngine n e).update = s.update := rfl
@[simp] theorem setEngine_field_faults (n : Nat) (e : IngEngine) : (s.setEngine n e).faults = s.faults := rfl
@[simp] theorem setEngine_field_worlds (n : Nat) (e : IngEngine) : (s.setEngine n e).worlds = s.worlds := rfl
@[simp] theorem setEngine_field_hosts (n : Nat) (e : IngEngine) : (s.setEngine n e).hosts = s.hosts := rfl
@[simp] theorem setEngine_field_pair (n : Nat) (e : IngEngine) : (s.setEngine n e).pair = s.pair := rfl

@[simp] theorem setCvu_field_pending (n : Nat) (e : CvuEngine) : (s.setCvu n e).pending = s.pending := rfl
@[simp] theorem setCvu_field_part (n : Nat) (e : CvuEngine) : (s.setCvu n e).part = s.part := rfl
@[simp] theorem setCvu_field_regs (n : Nat) (e : CvuEngine) : (s.setCvu n e).regs = s.regs := rfl
@[simp] theorem setCvu_field_shad (n : Nat) (e : CvuEngine) : (s.setCvu n e).shad = s.shad := rfl
@[simp] theorem setCvu_field_loaded (n : Nat) (e : CvuEngine) : (s.setCvu n e).loaded = s.loaded := rfl
@[simp] theorem setCvu_field_staged (n : Nat) (e : CvuEngine) : (s.setCvu n e).staged = s.staged := rfl
@[simp] theorem setCvu_field_latched (n : Nat) (e : CvuEngine) : (s.setCvu n e).latched = s.latched := rfl
@[simp] theorem setCvu_field_softResetting (n : Nat) (e : CvuEngine) : (s.setCvu n e).softResetting = s.softResetting := rfl
@[simp] theorem setCvu_field_mem (n : Nat) (e : CvuEngine) : (s.setCvu n e).mem = s.mem := rfl
@[simp] theorem setCvu_field_out (n : Nat) (e : CvuEngine) : (s.setCvu n e).out = s.out := rfl
@[simp] theorem setCvu_field_free (n : Nat) (e : CvuEngine) : (s.setCvu n e).free = s.free := rfl
@[simp] theorem setCvu_field_now (n : Nat) (e : CvuEngine) : (s.setCvu n e).now = s.now := rfl
@[simp] theorem setCvu_field_time (n : Nat) (e : CvuEngine) : (s.setCvu n e).time = s.time := rfl
@[simp] theorem setCvu_field_power (n : Nat) (e : CvuEngine) : (s.setCvu n e).power = s.power := rfl
@[simp] theorem setCvu_field_dram (n : Nat) (e : CvuEngine) : (s.setCvu n e).dram = s.dram := rfl
@[simp] theorem setCvu_field_edac (n : Nat) (e : CvuEngine) : (s.setCvu n e).edac = s.edac := rfl
@[simp] theorem setCvu_field_pool (n : Nat) (e : CvuEngine) : (s.setCvu n e).pool = s.pool := rfl
@[simp] theorem setCvu_field_ingest (n : Nat) (e : CvuEngine) : (s.setCvu n e).ingest = s.ingest := rfl
@[simp] theorem setCvu_field_display (n : Nat) (e : CvuEngine) : (s.setCvu n e).display = s.display := rfl
@[simp] theorem setCvu_field_dpls (n : Nat) (e : CvuEngine) : (s.setCvu n e).dpls = s.dpls := rfl
@[simp] theorem setCvu_field_cvus (n : Nat) (e : CvuEngine) : (s.setCvu n e).cvus = Sparse.put s.cvus n e := rfl
@[simp] theorem setCvu_field_touch (n : Nat) (e : CvuEngine) : (s.setCvu n e).touch = s.touch := rfl
@[simp] theorem setCvu_field_haptic (n : Nat) (e : CvuEngine) : (s.setCvu n e).haptic = s.haptic := rfl
@[simp] theorem setCvu_field_audio (n : Nat) (e : CvuEngine) : (s.setCvu n e).audio = s.audio := rfl
@[simp] theorem setCvu_field_age (n : Nat) (e : CvuEngine) : (s.setCvu n e).age = s.age := rfl
@[simp] theorem setCvu_field_update (n : Nat) (e : CvuEngine) : (s.setCvu n e).update = s.update := rfl
@[simp] theorem setCvu_field_faults (n : Nat) (e : CvuEngine) : (s.setCvu n e).faults = s.faults := rfl
@[simp] theorem setCvu_field_worlds (n : Nat) (e : CvuEngine) : (s.setCvu n e).worlds = s.worlds := rfl
@[simp] theorem setCvu_field_hosts (n : Nat) (e : CvuEngine) : (s.setCvu n e).hosts = s.hosts := rfl
@[simp] theorem setCvu_field_pair (n : Nat) (e : CvuEngine) : (s.setCvu n e).pair = s.pair := rfl

@[simp] theorem setTouch_field_pending (e : Nat) (x : TouchEngine) : (s.setTouch e x).pending = s.pending := rfl
@[simp] theorem setTouch_field_part (e : Nat) (x : TouchEngine) : (s.setTouch e x).part = s.part := rfl
@[simp] theorem setTouch_field_regs (e : Nat) (x : TouchEngine) : (s.setTouch e x).regs = s.regs := rfl
@[simp] theorem setTouch_field_shad (e : Nat) (x : TouchEngine) : (s.setTouch e x).shad = s.shad := rfl
@[simp] theorem setTouch_field_loaded (e : Nat) (x : TouchEngine) : (s.setTouch e x).loaded = s.loaded := rfl
@[simp] theorem setTouch_field_staged (e : Nat) (x : TouchEngine) : (s.setTouch e x).staged = s.staged := rfl
@[simp] theorem setTouch_field_latched (e : Nat) (x : TouchEngine) : (s.setTouch e x).latched = s.latched := rfl
@[simp] theorem setTouch_field_softResetting (e : Nat) (x : TouchEngine) : (s.setTouch e x).softResetting = s.softResetting := rfl
@[simp] theorem setTouch_field_mem (e : Nat) (x : TouchEngine) : (s.setTouch e x).mem = s.mem := rfl
@[simp] theorem setTouch_field_out (e : Nat) (x : TouchEngine) : (s.setTouch e x).out = s.out := rfl
@[simp] theorem setTouch_field_free (e : Nat) (x : TouchEngine) : (s.setTouch e x).free = s.free := rfl
@[simp] theorem setTouch_field_now (e : Nat) (x : TouchEngine) : (s.setTouch e x).now = s.now := rfl
@[simp] theorem setTouch_field_time (e : Nat) (x : TouchEngine) : (s.setTouch e x).time = s.time := rfl
@[simp] theorem setTouch_field_power (e : Nat) (x : TouchEngine) : (s.setTouch e x).power = s.power := rfl
@[simp] theorem setTouch_field_dram (e : Nat) (x : TouchEngine) : (s.setTouch e x).dram = s.dram := rfl
@[simp] theorem setTouch_field_edac (e : Nat) (x : TouchEngine) : (s.setTouch e x).edac = s.edac := rfl
@[simp] theorem setTouch_field_pool (e : Nat) (x : TouchEngine) : (s.setTouch e x).pool = s.pool := rfl
@[simp] theorem setTouch_field_ingest (e : Nat) (x : TouchEngine) : (s.setTouch e x).ingest = s.ingest := rfl
@[simp] theorem setTouch_field_display (e : Nat) (x : TouchEngine) : (s.setTouch e x).display = s.display := rfl
@[simp] theorem setTouch_field_dpls (e : Nat) (x : TouchEngine) : (s.setTouch e x).dpls = s.dpls := rfl
@[simp] theorem setTouch_field_cvus (e : Nat) (x : TouchEngine) : (s.setTouch e x).cvus = s.cvus := rfl
@[simp] theorem setTouch_field_touch (e : Nat) (x : TouchEngine) : (s.setTouch e x).touch = { s.touch with engines := Sparse.put s.touch.engines e x } := rfl
@[simp] theorem setTouch_field_haptic (e : Nat) (x : TouchEngine) : (s.setTouch e x).haptic = s.haptic := rfl
@[simp] theorem setTouch_field_audio (e : Nat) (x : TouchEngine) : (s.setTouch e x).audio = s.audio := rfl
@[simp] theorem setTouch_field_age (e : Nat) (x : TouchEngine) : (s.setTouch e x).age = s.age := rfl
@[simp] theorem setTouch_field_update (e : Nat) (x : TouchEngine) : (s.setTouch e x).update = s.update := rfl
@[simp] theorem setTouch_field_faults (e : Nat) (x : TouchEngine) : (s.setTouch e x).faults = s.faults := rfl
@[simp] theorem setTouch_field_worlds (e : Nat) (x : TouchEngine) : (s.setTouch e x).worlds = s.worlds := rfl
@[simp] theorem setTouch_field_hosts (e : Nat) (x : TouchEngine) : (s.setTouch e x).hosts = s.hosts := rfl
@[simp] theorem setTouch_field_pair (e : Nat) (x : TouchEngine) : (s.setTouch e x).pair = s.pair := rfl

@[simp] theorem setBus_field_pending (b : Nat) (x : AudBus) : (s.setBus b x).pending = s.pending := rfl
@[simp] theorem setBus_field_part (b : Nat) (x : AudBus) : (s.setBus b x).part = s.part := rfl
@[simp] theorem setBus_field_regs (b : Nat) (x : AudBus) : (s.setBus b x).regs = s.regs := rfl
@[simp] theorem setBus_field_shad (b : Nat) (x : AudBus) : (s.setBus b x).shad = s.shad := rfl
@[simp] theorem setBus_field_loaded (b : Nat) (x : AudBus) : (s.setBus b x).loaded = s.loaded := rfl
@[simp] theorem setBus_field_staged (b : Nat) (x : AudBus) : (s.setBus b x).staged = s.staged := rfl
@[simp] theorem setBus_field_latched (b : Nat) (x : AudBus) : (s.setBus b x).latched = s.latched := rfl
@[simp] theorem setBus_field_softResetting (b : Nat) (x : AudBus) : (s.setBus b x).softResetting = s.softResetting := rfl
@[simp] theorem setBus_field_mem (b : Nat) (x : AudBus) : (s.setBus b x).mem = s.mem := rfl
@[simp] theorem setBus_field_out (b : Nat) (x : AudBus) : (s.setBus b x).out = s.out := rfl
@[simp] theorem setBus_field_free (b : Nat) (x : AudBus) : (s.setBus b x).free = s.free := rfl
@[simp] theorem setBus_field_now (b : Nat) (x : AudBus) : (s.setBus b x).now = s.now := rfl
@[simp] theorem setBus_field_time (b : Nat) (x : AudBus) : (s.setBus b x).time = s.time := rfl
@[simp] theorem setBus_field_power (b : Nat) (x : AudBus) : (s.setBus b x).power = s.power := rfl
@[simp] theorem setBus_field_dram (b : Nat) (x : AudBus) : (s.setBus b x).dram = s.dram := rfl
@[simp] theorem setBus_field_edac (b : Nat) (x : AudBus) : (s.setBus b x).edac = s.edac := rfl
@[simp] theorem setBus_field_pool (b : Nat) (x : AudBus) : (s.setBus b x).pool = s.pool := rfl
@[simp] theorem setBus_field_ingest (b : Nat) (x : AudBus) : (s.setBus b x).ingest = s.ingest := rfl
@[simp] theorem setBus_field_display (b : Nat) (x : AudBus) : (s.setBus b x).display = s.display := rfl
@[simp] theorem setBus_field_dpls (b : Nat) (x : AudBus) : (s.setBus b x).dpls = s.dpls := rfl
@[simp] theorem setBus_field_cvus (b : Nat) (x : AudBus) : (s.setBus b x).cvus = s.cvus := rfl
@[simp] theorem setBus_field_touch (b : Nat) (x : AudBus) : (s.setBus b x).touch = s.touch := rfl
@[simp] theorem setBus_field_haptic (b : Nat) (x : AudBus) : (s.setBus b x).haptic = s.haptic := rfl
@[simp] theorem setBus_field_audio (b : Nat) (x : AudBus) : (s.setBus b x).audio = { s.audio with buses := Sparse.put s.audio.buses b x } := rfl
@[simp] theorem setBus_field_age (b : Nat) (x : AudBus) : (s.setBus b x).age = s.age := rfl
@[simp] theorem setBus_field_update (b : Nat) (x : AudBus) : (s.setBus b x).update = s.update := rfl
@[simp] theorem setBus_field_faults (b : Nat) (x : AudBus) : (s.setBus b x).faults = s.faults := rfl
@[simp] theorem setBus_field_worlds (b : Nat) (x : AudBus) : (s.setBus b x).worlds = s.worlds := rfl
@[simp] theorem setBus_field_hosts (b : Nat) (x : AudBus) : (s.setBus b x).hosts = s.hosts := rfl
@[simp] theorem setBus_field_pair (b : Nat) (x : AudBus) : (s.setBus b x).pair = s.pair := rfl

@[simp] theorem setCore_field_pending (k : Nat) (c : Core4) : (s.setCore k c).pending = s.pending := rfl
@[simp] theorem setCore_field_part (k : Nat) (c : Core4) : (s.setCore k c).part = s.part := rfl
@[simp] theorem setCore_field_regs (k : Nat) (c : Core4) : (s.setCore k c).regs = s.regs := rfl
@[simp] theorem setCore_field_shad (k : Nat) (c : Core4) : (s.setCore k c).shad = s.shad := rfl
@[simp] theorem setCore_field_loaded (k : Nat) (c : Core4) : (s.setCore k c).loaded = s.loaded := rfl
@[simp] theorem setCore_field_staged (k : Nat) (c : Core4) : (s.setCore k c).staged = s.staged := rfl
@[simp] theorem setCore_field_latched (k : Nat) (c : Core4) : (s.setCore k c).latched = s.latched := rfl
@[simp] theorem setCore_field_softResetting (k : Nat) (c : Core4) : (s.setCore k c).softResetting = s.softResetting := rfl
@[simp] theorem setCore_field_mem (k : Nat) (c : Core4) : (s.setCore k c).mem = s.mem := rfl
@[simp] theorem setCore_field_out (k : Nat) (c : Core4) : (s.setCore k c).out = s.out := rfl
@[simp] theorem setCore_field_free (k : Nat) (c : Core4) : (s.setCore k c).free = s.free := rfl
@[simp] theorem setCore_field_now (k : Nat) (c : Core4) : (s.setCore k c).now = s.now := rfl
@[simp] theorem setCore_field_time (k : Nat) (c : Core4) : (s.setCore k c).time = s.time := rfl
@[simp] theorem setCore_field_power (k : Nat) (c : Core4) : (s.setCore k c).power = s.power := rfl
@[simp] theorem setCore_field_dram (k : Nat) (c : Core4) : (s.setCore k c).dram = s.dram := rfl
@[simp] theorem setCore_field_edac (k : Nat) (c : Core4) : (s.setCore k c).edac = s.edac := rfl
@[simp] theorem setCore_field_pool (k : Nat) (c : Core4) : (s.setCore k c).pool = s.pool := rfl
@[simp] theorem setCore_field_ingest (k : Nat) (c : Core4) : (s.setCore k c).ingest = s.ingest := rfl
@[simp] theorem setCore_field_display (k : Nat) (c : Core4) : (s.setCore k c).display = s.display := rfl
@[simp] theorem setCore_field_dpls (k : Nat) (c : Core4) : (s.setCore k c).dpls = s.dpls := rfl
@[simp] theorem setCore_field_cvus (k : Nat) (c : Core4) : (s.setCore k c).cvus = s.cvus := rfl
@[simp] theorem setCore_field_touch (k : Nat) (c : Core4) : (s.setCore k c).touch = s.touch := rfl
@[simp] theorem setCore_field_haptic (k : Nat) (c : Core4) : (s.setCore k c).haptic = s.haptic := rfl
@[simp] theorem setCore_field_audio (k : Nat) (c : Core4) : (s.setCore k c).audio = s.audio := rfl
@[simp] theorem setCore_field_age (k : Nat) (c : Core4) : (s.setCore k c).age = s.age := rfl
@[simp] theorem setCore_field_update (k : Nat) (c : Core4) : (s.setCore k c).update = s.update := rfl
@[simp] theorem setCore_field_faults (k : Nat) (c : Core4) : (s.setCore k c).faults = s.faults := rfl
@[simp] theorem setCore_field_worlds (k : Nat) (c : Core4) : (s.setCore k c).worlds = { s.worlds with cores := Sparse.put s.worlds.cores k c } := rfl
@[simp] theorem setCore_field_hosts (k : Nat) (c : Core4) : (s.setCore k c).hosts = s.hosts := rfl
@[simp] theorem setCore_field_pair (k : Nat) (c : Core4) : (s.setCore k c).pair = s.pair := rfl

end Sys2Proof.Machine.State
end

