-- ==== Sys2Proof/WellFormed.lean ====
section
/-! DEFINITION. Which commands the environment can send: the numbers of requesters, functions and blocks exist, a host access reaches
its own window as R37 to R39 lay it out, and the world of a requester is the one that R87 stamps. The machine gives a meaning to every
command, well formed or not; this file says which of them the device can meet. -/

namespace Sys2Proof

/-- The functions of the two host ports (R41). -/
def isFunction (fn : Nat) : Bool := decide (fn < 0x40) || (decide (0x80 ≤ fn) && decide (fn < 0xC0))

/-- Every number that names a requester (R41). -/
def isRequester (fn : Nat) : Bool := isFunction fn || fn == 0x40 || fn == 0x41 || fn == 0x42

/-- The virtual functions of the two ports (R41). -/
def isVirtual (fn : Nat) : Bool := isFunction fn && fn % 0x80 != 0

/-- A requester exists, and it is in the secure world exactly when it is the secure core or a service core inside the gate (R87). -/
def Req.wf (r : Req) : Bool := isRequester r.fn && r.secure == (r.fn == 0x41)

/-- A word of a requester's window: a VF has its own window of 64 KiB, and every other requester the PF window of 16 MiB (R37 to R39). -/
def inWindow (r : Req) (win : Window) (off : Nat) : Bool :=
  off % 4 == 0 && (match win with
    | .pf => !isVirtual r.fn && decide (off < 0x1000000)
    | .vf => isVirtual r.fn && decide (off < 0x10000))

/-- A register write that a requester can make. -/
def RegWr.wf (w : RegWr) : Bool := w.req.wf && inWindow w.req w.win w.off

/-- A register read that a requester can make. -/
def RegRd.wf (r : RegRd) : Bool := r.req.wf && inWindow r.req r.win r.off

/-- Queue pairs of a function (R112); the cores' commands come without a queue. -/
def queuePairs (fn : Nat) : Nat := if isVirtual fn then 4 else if isFunction fn then 8 else 1

/-- A command as a submission entry can carry it (R118). -/
def CmdArgs.wf (c : CmdArgs) : Bool :=
  isRequester c.fn && decide (c.q < queuePairs c.fn) && decide (c.cid < 2 ^ 16) && decide (c.rsvd < 2 ^ 39)
    && c.params.length == 14 && c.params.all (fun p => decide (p < 2 ^ 32))

/-- The link fields of a flit (R379). -/
def FlitHdr.wf (h : FlitHdr) : Bool := decide (h.seq < 4096) && decide (h.ack < 4096)

/-- A DRAM request: its words of 16 bytes lie in one block of 256 bytes, a write carries each of its words, and the originators of a port
stamp what R87 gives them: the secure core's number goes with the secure world, and the core port serves the cores alone (R86, R270). -/
def DramReq.wf (q : DramReq) : Bool :=
  isRequester q.fn && decide (q.crit < 4) && decide (q.port < 12) && q.addr % 16 == 0 && decide (1 ≤ q.words)
    && decide (q.addr % 256 + 16 * q.words ≤ 256) && (match q.data with | some d => d.length == q.words | none => true)
    && (q.port < 2 || q.port == 4 || q.port == 5 || q.port == 8 || q.world == (q.fn == 0x41))
    && (q.port != 9 || q.fn == 0x40 || q.fn == 0x41) && (!q.applet || (q.port == 9 && q.fn == 0x41))

/-- The commands that the environment can send. -/
def Instr.wf : Instr → Bool
  | .registerWrite w => w.wf
  | .wideRegisterWrite w _ => w.wf
  | .wideRegisterLowRead r => r.wf
  | .counterLoRead r => r.wf
  | .pgEnableWrite w => w.wf
  | .pgSoftReset w => w.wf
  | .pgLock w => w.wf
  | .pgUnlock w => w.wf
  | .evtRawClear w => w.wf
  | .evtSetWrite w => w.wf
  | .evtEnWrite w => w.wf
  | .evtRouteWrite w => w.wf
  | .errCodeClear w => w.wf
  | .shadowGroupWrite w => w.wf
  | .shadowDiscard w => w.wf
  | .ownerWrite w => w.wf
  | .chkOwnerWrite w => w.wf
  | .channelCreate c => c.wf
  | .channelDestroy c => c.wf
  | .bufferAlloc c => c.wf
  | .bufferFree c => c.wf
  | .bufferQuery c => c.wf
  | .plotFillDone => true
  | .poolEnable w => w.wf
  | .poolFnQuotaWrite w => w.wf
  | .poolFnShareWrite w => w.wf
  | .chnFnLimitWrite w => w.wf
  | .poolLowMarkWrite w => w.wf
  | .poolFnPeakClear w => w.wf
  | .watermarkSet w => w.wf
  | .wldDenyClear w => w.wf
  | .wldHoldWrite w => w.wf
  | .gateEntry core _ => decide (core < 4)
  | .gateReturn core _ _ => decide (core < 4)
  | .gateTimeout core => decide (core < 4)
  | .pmcClear w => w.wf
  | .sqDoorbell w => w.wf
  | .cqDoorbell w => w.wf
  | .queueEnable w => w.wf
  | .queueDisable w => w.wf
  | .peerAccess fn _ _ _ => isFunction fn
  | .commandFetch port entry => decide (port < 3) && decide (entry.length = 16)
  | .coalesceTimeout fn _ => isFunction fn
  | .nop c => c.wf
  | .fnReset c => c.wf
  | .fnQuery c => c.wf
  | .flr fn => isFunction fn
  | .vfEnableCleared port => decide (port < 2)
  | .vfEnableSet port _ => decide (port < 2)
  | .vfSoftReset w => w.wf
  | .hpPfResetStart w => w.wf
  | .hpSoftReset w => w.wf
  | .fnResetPoolStep fn => isFunction fn
  | .fnResetQueueStep fn => isFunction fn
  | .portLinkDown port => decide (port < 2)
  | .portLinkUp port _ _ => decide (port < 2)
  | .hpMgrRoleWrite w => w.wf
  | .ingest c => c.wf
  | .ingestStart engine slot => decide (engine < 4) && decide (slot < 8)
  | .hostReadError engine _ _ _ _ _ => decide (engine < 4)
  | .ingestDone engine _ _ => decide (engine < 4)
  | .ingSoftReset w => w.wf
  | .pipeLutDataAccess w _ => w.wf
  | .pipeSclDataAccess w _ => w.wf
  | .slotLutDataAccess w _ => w.wf
  | .lineComposeStart out => decide (out < 8)
  | .commit c => c.wf
  | .applyLine out => decide (out < 8)
  | .frameDone out => decide (out < 8)
  | .commitAckTimeout _ => true
  | .scanOutStart w => w.wf
  | .scanOutCounterStart out => decide (out < 8)
  | .scanOutStopRequest w => w.wf
  | .scnSoftReset w => w.wf
  | .scanLineStart out _ _ => decide (out < 8)
  | .furrowArrival out slot _ _ _ _ => decide (out < 8) && decide (slot < 16)
  | .headlandStart out => decide (out < 8)
  | .vsync out => decide (out < 8)
  | .headlandEnd out => decide (out < 8)
  | .lineMatch out index => decide (out < 8) && decide (index < 2)
  | .vrrDecision out => decide (out < 8)
  | .genlockWrite w => w.wf
  | .dplEnable w => w.wf
  | .dplDisable w => w.wf
  | .hpdPlug out _ _ => decide (out < 8)
  | .hpdIrq out _ => decide (out < 8)
  | .hpdUnplug out => decide (out < 8)
  | .trainingAttemptEnd out _ => decide (out < 8)
  | .linkLoss out => decide (out < 8)
  | .auxGo w => w.wf
  | .auxReply out _ _ _ => decide (out < 8)
  | .auxReplyTimeout out => decide (out < 8)
  | .ppsDataRead r => r.wf
  | .dplIdleHoldEnd out => decide (out < 8)
  | .scan c => c.wf
  | .scanStart engine slot => decide (engine < 4) && decide (slot < 8)
  | .scanDone engine _ => decide (engine < 4)
  | .checkRegionFinal out region => decide (out < 8) && decide (region < 16)
  | .dramRequest q => q.wf
  | .dramRequestComplete ch => decide (ch < 16)
  | .refreshDue ch => decide (ch < 16)
  | .mr4Poll ch _ _ => decide (ch < 16)
  | .retrainStart ch _ => decide (ch < 16)
  | .dmcTrainStartWrite w => w.wf
  | .retrainEnd ch _ _ _ => decide (ch < 16)
  | .dramPowerDown ch => decide (ch < 16)
  | .dmcPortTargetAll w => w.wf
  | .dmcPortMaxlatClear w => w.wf
  | .dmcDebtMaxClear w => w.wf
  | .dmcStopWrite w => w.wf
  | .regionsSet w => w.wf
  | .edacLogRelease w => w.wf
  | .edacLogClearAll w => w.wf
  | .edacRetirePlot w => w.wf
  | .edacRetireBank w => w.wf
  | .retireBankDone => true
  | .tchEnable w => w.wf
  | .tchPanelEnable w => w.wf
  | .tchPanelDisable w => w.wf
  | .tchSoftReset w => w.wf
  | .touchFrameStart engine => decide (engine < 2)
  | .touchPanelScanEnd engine panel _ _ _ => decide (engine < 2) && decide (panel < 4)
  | .touchSnapshot engine panel => decide (engine < 2) && decide (panel < 4)
  | .captureRef w => w.wf
  | .tchNodeDataAccess w _ => w.wf
  | .tchBufWrite w => w.wf
  | .hapticPlay c => c.wf
  | .touchRule c => c.wf
  | .ruleMatch => true
  | .clipLoadDone => true
  | .controlPeriod ch _ _ _ => decide (ch < 8)
  | .tapSample tap _ => decide (tap < 8)
  | .hapChannelEnable w => w.wf
  | .calStart w => w.wf
  | .calDone ch _ _ => decide (ch < 8)
  | .audioQueue c => c.wf
  | .audioBlockBoundary domain _ _ => decide (domain < 3)
  | .routeApply w => w.wf
  | .bridgePrimed bridge => decide (bridge < 32)
  | .tdmPortEnable w => w.wf
  | .busEnableWrite w => w.wf
  | .streamDisable w => w.wf
  | .streamChannelWrite w => w.wf
  | .domainHoldover domain => decide (domain < 3)
  | .domainRelock domain => decide (domain < 3)
  | .tdmSlip port => decide (port < 12)
  | .tdmClockLost port => decide (port < 12)
  | .aud0SoftReset w => w.wf
  | .guyInEdge _ => true
  | .guyFilterExpiry => true
  | .collision => true
  | .collisionTimeout => true
  | .collisionBackoffEnd => true
  | .waitingTimeout => true
  | .ploliaLinkUp _ _ h _ => h.wf
  | .replayTimeout => true
  | .nullFlit h => h.wf
  | .heartbeatSend => true
  | .heartbeat h _ _ => h.wf
  | .heartbeatTimeout => true
  | .joinRequest h _ => h.wf
  | .joinAccept h => h.wf
  | .joinRefuse h _ => h.wf
  | .syncDone h => h.wf
  | .resyncSendDone => true
  | .handoverOffer h _ => h.wf
  | .handoverReady h => h.wf
  | .handoverRefusal h _ => h.wf
  | .plkHandover w => w.wf
  | .handoverDrained => true
  | .handoverDrainTimeout => true
  | .plkResync w => w.wf
  | .plkRetrain w => w.wf
  | .plkClearGuyFault w => w.wf
  | .timeSyncDue => true
  | .timeSyncRequest h _ => h.wf
  | .timeSyncReply h _ _ _ => h.wf
  | .timeSyncFrame h out _ _ => h.wf && decide (out < 8)
  | .timeSyncVrr h out _ _ _ => h.wf && decide (out < 8)
  | .commitArmRecord h _ group _ _ _ => h.wf && decide (group < 8)
  | .commitArmApply h _ _ => h.wf
  | .commitArmDrop h _ => h.wf
  | .commitAckHeld h _ => h.wf
  | .commitAckApplied h _ _ => h.wf
  | .stateDigest h _ => h.wf
  | .mirrorWrite h _ => h.wf
  | .wakeFlit h sub _ _ => h.wf && decide (sub < 3)
  | .pwrReqRun w => w.wf
  | .pwrReqIdle w => w.wf
  | .pwrReqFallow w => w.wf
  | .pwrReqOff w => w.wf
  | .fallowDrainDone => true
  | .fallowDrainTimeout => true
  | .wakeTlp port _ => decide (port < 2)
  | .wakePin _ => true
  | .motionEdge _ _ => true
  | .canWakeUp _ => true
  | .alarmFire _ => true
  | .wakeStepTimeout _ _ _ => true
  | .wakeRetry _ => true
  | .sag => true
  | .pointOfNoReturn _ => true
  | .mramSaveDone _ => true
  | .vholdExhausted => true
  | .supplyReturn => true
  | .pwrIslWrite w => w.wf
  | .pwrSaveAdd w => w.wf
  | .pwrSaveClear w => w.wf
  | .vholdMeasure _ _ _ _ => true
  | .timCalInterval _ => true
  | .timSet w => w.wf
  | .aonAlarmArm w => w.wf
  | .aonPmbGo w => w.wf
  | .pmbDone _ _ _ => true
  | .ageSurveyRequest w => w.wf
  | .surveyEnd _ _ => true
  | .marginAlarm island => decide (island < 46)
  | .planVoltageStep => true
  | .poweredHour => true
  | .surveyDeferEnd => true
  | .updOpen w => w.wf
  | .updStage w => w.wf
  | .updVerify w => w.wf
  | .updActivate w => w.wf
  | .updAbort w => w.wf
  | .updClose w => w.wf
  | .updSessionTimeout => true
  | .updUnlock w => w.wf
  | .trialConfirmed => true
  | .trialTimeout => true
  | .microcodeTargetLoad _ => true
  | .aonPowerOn => true
  | .resetNAssert => true
  | .sysRestart w => w.wf
  | .resetRelease => true
  | .startupPhaseEnd _ => true
  | .sysEarlyEnd w => w.wf
  | .faultReport _ _ cls _ _ _ _ => decide (1 ≤ cls) && decide (cls ≤ 3)
  | .deviceFatalFault source => decide (1 ≤ source) && decide (source ≤ 6)
  | .fatalRestart => true
  | .watchdogExpiry => true
  | .referenceLoss => true
  | .thermtrip => true
  | .logClear w => w.wf
  | .flitCrcFailure _ _ => true
  | .ploliaRecoveryDone => true
  | .mirrorFlitSend => true
  | .updCmdDone _ => true
  | .msixVectorUnmask fn _ => isFunction fn
  | .groupWakeDone group => decide (group < 25)

end Sys2Proof
end

