-- ==== Sys2Proof/Tests/Slice0.lean ====
section
/-! SUPPORT. Tests: the checks of WellFormed refuse ill-formed commands, the codes and formulas agree with worked examples of the spec, and
for each statement with hypotheses some state and operands meet them together. -/

open Sys2Proof Sys2Proof.Machine

namespace Sys2Proof.Tests

set_option Elab.async false
set_option linter.all false

/-! ## WellFormed -/

def okReq : Req := ⟨0, false⟩

def okWr : RegWr := ⟨okReq, .pf, 0x008, 0xF#4, 1#32⟩

def okCmd : CmdArgs := ⟨0, 0, 5, false, 0, List.replicate 14 0⟩

def okDram : DramReq := ⟨0, false, false, 0, 0, 0, 1, none⟩

def hdr : FlitHdr := ⟨1, 0, false, false⟩

/-- Well-formed commands are accepted. -/
theorem test_wf_accepts :
    ([.registerWrite okWr, .nop okCmd, .dramRequest okDram, .nullFlit hdr, .frameDone 7, .sag] : List Instr).all Instr.wf = true := by decide

/-- R41: a requester number that nothing has. -/
theorem test_wf_requester : Req.wf ⟨0x43, false⟩ = false := by decide

/-- R87: a host in the secure world, and the secure core outside it. -/
theorem test_wf_world : Req.wf ⟨1, true⟩ = false ∧ Req.wf ⟨0x41, false⟩ = false := by decide

/-- R37 to R39: a VF in the PF window, a PF in a VF window, the ends of both windows, and an offset inside a word. -/
theorem test_wf_window :
    ([⟨⟨1, false⟩, .pf, 0, 0xF#4, 0#32⟩, ⟨okReq, .vf, 0, 0xF#4, 0#32⟩, ⟨okReq, .pf, 0x1000000, 0xF#4, 0#32⟩,
      ⟨⟨1, false⟩, .vf, 0x10000, 0xF#4, 0#32⟩, ⟨okReq, .pf, 0x00A, 0xF#4, 0#32⟩] : List RegWr).any RegWr.wf = false := by decide

/-- The same for a read. -/
theorem test_wf_read : RegRd.wf ⟨⟨1, false⟩, .pf, 0⟩ = false ∧ RegRd.wf ⟨okReq, .pf, 0x00A⟩ = false := by decide

/-- R112, R118: a queue pair that the function lacks, a CID, reserved bits and a parameter beyond their widths, and thirteen parameters. -/
theorem test_wf_command :
    ([{ okCmd with q := 8 }, { okCmd with fn := 1, q := 4 }, { okCmd with fn := 0x43 }, { okCmd with cid := 0x10000 }, { okCmd with rsvd := 2 ^ 39 },
      { okCmd with params := List.replicate 13 0 }, { okCmd with params := 2 ^ 32 :: List.replicate 13 0 }] : List CmdArgs).any CmdArgs.wf = false := by
  decide

/-- R379: SEQ and ACK beyond twelve bits. -/
theorem test_wf_flit : FlitHdr.wf ⟨4096, 0, false, false⟩ = false ∧ FlitHdr.wf ⟨0, 4096, true, false⟩ = false := by decide

/-- R86, R270: a requester that does not exist, a level above 3, an address inside a word, no word, a block crossed, data of another length, a port that does not exist,
the core port, and the applet's mark on a host's request. -/
theorem test_wf_dram :
    ([{ okDram with fn := 0x43 }, { okDram with crit := 4 }, { okDram with addr := 8 }, { okDram with words := 0 }, { okDram with addr := 240, words := 2 },
      { okDram with data := some [] }, { okDram with port := 12 }, { okDram with port := 9 }, { okDram with applet := true }] : List DramReq).any DramReq.wf = false := by decide

/-- A command with an ill-formed operand is refused whole. -/
theorem test_wf_operand :
    ([.registerWrite { okWr with off := 2 }, .wideRegisterLowRead ⟨okReq, .pf, 2⟩, .nop { okCmd with q := 8 }, .dramRequest { okDram with words := 0 },
      .nullFlit ⟨4096, 0, false, false⟩] : List Instr).any Instr.wf = false := by decide

/-- An index that names no block. -/
theorem test_wf_index_1 :
    ([.gateEntry 4 ⟨0, none⟩, .gateReturn 4 0 0, .gateTimeout 4, .peerAccess 0x43 0 0 none, .commandFetch 3 (List.replicate 16 0#32),
      .commandFetch 0 [1#32], .coalesceTimeout 0x43 0, .flr 0x43, .vfEnableCleared 2, .vfEnableSet 2 0, .fnResetPoolStep 0x43,
      .fnResetQueueStep 0x43, .portLinkDown 2, .portLinkUp 2 0 0, .ingestStart 4 0, .ingestStart 0 8, .hostReadError 4 0 0 0 0 [], .ingestDone 4 0 [],
      .lineComposeStart 8, .applyLine 8, .frameDone 8, .scanOutCounterStart 8, .scanLineStart 8 0 ⟨0, 0, []⟩,
      .furrowArrival 8 0 0 0 0 ⟨0, 0, []⟩, .furrowArrival 0 16 0 0 0 ⟨0, 0, []⟩, .headlandStart 8] : List Instr).any Instr.wf = false := by decide +kernel

/-- An index that names no block. -/
theorem test_wf_index_2 :
    ([.vsync 8, .headlandEnd 8, .lineMatch 8 0, .lineMatch 0 2, .vrrDecision 8, .hpdPlug 8 0 false, .hpdIrq 8 false, .hpdUnplug 8,
      .trainingAttemptEnd 8 false, .linkLoss 8, .auxReply 8 0 0 [], .auxReplyTimeout 8, .dplIdleHoldEnd 8, .scanStart 4 0, .scanStart 0 8, .scanDone 4 0,
      .checkRegionFinal 8 0, .checkRegionFinal 0 16, .dramRequestComplete 16, .refreshDue 16, .mr4Poll 16 0 false, .retrainStart 16 0,
      .retrainEnd 16 0 none false, .dramPowerDown 16, .touchFrameStart 2, .touchPanelScanEnd 2 0 [] [] []] : List Instr).any Instr.wf = false := by decide +kernel

/-- An index that names no block. -/
theorem test_wf_index_3 :
    ([.touchPanelScanEnd 0 4 [] [] [], .touchSnapshot 2 0, .touchSnapshot 0 4, .controlPeriod 8 0 0 0, .tapSample 8 0, .calDone 8 0 0,
      .audioBlockBoundary 3 [] [], .bridgePrimed 32, .domainHoldover 3, .domainRelock 3, .tdmSlip 12, .tdmClockLost 12,
      .timeSyncFrame hdr 8 0 0, .timeSyncVrr hdr 8 0 0 false, .commitArmRecord hdr 0 8 0 [] false, .wakeFlit hdr 3 0 .up, .wakeTlp 2 .up,
      .marginAlarm 46, .faultReport 0 0 4 0 0 0 .reportOnly, .deviceFatalFault 7, .msixVectorUnmask 0x43 0, .groupWakeDone 25] : List Instr).any Instr.wf = false := by decide +kernel

/-! ## Decode and the step -/

theorem test_no_word_decodes : decodeTableWord 32 0x12345678 = none := rfl

theorem test_fetch_word_keeps : State.reset.withFetchWord 32 0x12345678 = State.reset := rfl

theorem test_reset_queue_empty : State.reset.pending = [] := rfl

/-! ## Worked examples of the spec -/

def digits : List Nat := [0x31, 0x32, 0x33, 0x34, 0x35, 0x36, 0x37, 0x38, 0x39]

/-- R250: the check values of "123456789". -/
theorem test_crc_check_values :
    (List.range 4).map (fun p => let c := Codes.crcOf p; c.done (digits.foldl c.byte c.init))
      = [0xE3069283, 0xCBF43926, 0x6C40DF5F0B497347, 0x29B1] := by decide +kernel

/-- The example of 11_check_values.md: CRC-32C of the bytes 0 to 31. -/
theorem test_crc_scan_example :
    (let c := Codes.crcOf 0; c.done ((List.range 32).foldl c.byte c.init)) = 0x46DD794E := by decide +kernel

/-- The example of 12_dram.md: address 0x1_C6A0_0000 is in channel 10, bank 4, row 0x38D4. -/
theorem test_dram_map :
    (State.reset.place 0x1C6A00000).ch = 10 ∧ (State.reset.place 0x1C6A00000).bank = 4 ∧ (State.reset.place 0x1C6A00000).row = 0x38D4 := by
  decide +kernel

/-- The example of 06_surfaces_and_seedbed.md: a surface of 5120 by 2160 takes 45,619,200 bytes. -/
theorem test_layout_size : Seedbed.layoutSize 0x01 5120 2160 true = 45619200 := by decide +kernel

/-- An entry with WORDS = 0 is CLEAR (R139). -/
theorem test_seedbed_clear : Seedbed.decode ⟨32, 8, 1, [(0, 8)]⟩ 0x8000000012345678 [] = some (List.replicate 256 0) := by decide +kernel

/-! ## The hypotheses of the statements -/

/-- The invariant as a test. -/
def invB (s : State) : Bool :=
  Memory.wf s.mem && (Sparse.wf (resetWord s.part) s.regs && (Sparse.wf (resetWord s.part) s.shad
    && (Sparse.wf (resetWord s.part) s.power.copyRegs && (Sparse.wf (resetWord s.part) s.power.copyShad
    && (Sparse.wf flashDefault s.update.flash && (decide (s.time.dtime < 2 ^ 64) && (decide (s.time.frac < 1000000000)
    && (decide (s.time.ticks < 2 ^ 48) && (decide (s.time.tickFrac < 1000000000)
    && (s.hosts.jobs.all (fun j => decide (j.jid < s.hosts.nextJid))
    && (Sparse.sortedFrom 0 s.pool.chans.used && Sparse.sortedFrom 0 s.pool.bufs.used)))))))))))

theorem inv_of {s : State} (h : invB s = true) : Inv s := by
  simp only [invB, Bool.and_eq_true, decide_eq_true_eq, List.all_eq_true] at h
  obtain ⟨mem, regs, shad, copyRegs, copyShad, flash, dtime, frac, ticks, tickFrac, jobs, chans, bufs⟩ := h
  exact ⟨rfl, rfl, mem, regs, shad, copyRegs, copyShad, flash, ⟨dtime, frac, ticks, tickFrac⟩, jobs, ⟨chans, bufs⟩⟩

/-- Two results of a check are the same. -/
def sameResult {ε α : Type} [DecidableEq ε] [DecidableEq α] (a b : Except ε α) : Bool :=
  match a, b with | .ok x, .ok y => x == y | .error x, .error y => x == y | _, _ => false

theorem except_of {ε α : Type} [DecidableEq ε] [DecidableEq α] {a b : Except ε α} (h : sameResult a b = true) : a = b := by
  cases a <;> cases b <;> simp_all [sameResult]

/-- An update in READY with DATA of 40 bytes running. -/
def dataRunning : State :=
  { State.reset with
    regs := [(77900, 0x28#32)], mem := [(1048576, 0x40#8), (1048577, 0x0a#8), (67371008, 0x75#8), (67371009, 0x0c#8), (67371010, 0x2d#8)]
    update := { State.reset.update with state := 1, running := some ⟨2, 64, false, 0, 0, 0, (0, 0, 40)⟩ } }

/-- The buffer read of that command. -/
def dataRead : Except Nat (List Nat) × State :=
  State.readBuf { dataRunning with update := { dataRunning.update with running := none } } ⟨64, false, dataRunning.fnCrit 64, 8, false, false⟩
    0 0 ((40 + 15) / 16)

/-- An ingest and a scan that wait for an engine. -/
def anIngest : IngCmd := ⟨2, 0, 0, 65536, 64, 1, false, true, 8, 8, 0, 0, 8, 8, 1048576, 32, 0, 0, 0, 0⟩

def aScan : CvuCmd := ⟨2, 64, 0, 1, false, 0, 65536, 0, 32, none, 0, 0⟩

def ingestsWait (k : Nat) : State :=
  { State.reset with
    regs := [(68, 0x17#32), (331784, 1#32)], ingest := { State.reset.ingest with engines := [(1, ⟨List.replicate k anIngest, []⟩)] } }

def scansWait (k : Nat) : State :=
  { State.reset with regs := [(68, 0x17#32), (397320, 1#32)], cvus := [(1, ⟨List.replicate k aScan, []⟩)] }

/-- A scan of secure DRAM under way, and its command. -/
def secureScan : CvuCmd := ⟨2, 65, 0, 1, true, 0, 0, 4096, 16, none, 0, 0⟩

def scanJob : Job := ⟨2, 65, 0, 5, 24, [], 0, .fetched⟩

def scanRuns : State :=
  { State.reset with
    regs := [(131136, 0x08000000#32)], cvus := [(1, ⟨[], [(0, secureScan)]⟩)]
    hosts := { State.reset.hosts with jobs := [scanJob], nextJid := 3 } }

/-- The same with check bits at the scanned word that no data gives. -/
def scanPoisoned : State :=
  { scanRuns with
    regs := [(131136, 0x08000000#32), (589888, 3#32)], mem := [(67109888, 0xff#8), (67109889, 0xff#8), (67109890, 0xff#8), (67109891, 0xff#8)] }

/-- The groups at 700 mV but the fourth, with a plan being applied. -/
def planRunning (now plan : Nat) : State :=
  { State.reset with
    age := { State.reset.age with
      mvNow := (List.range 9).map fun g => (g, if g = 3 then now else 700)
      mvPlan := (List.range 9).map fun g => (g, if g = 3 then plan else 700)
      applying := true } }

/-- The same with the frequency of island 0 to be lowered. -/
def planMhz : State :=
  { planRunning 700 700 with age := { (planRunning 700 700).age with mhzNow := [(0, 800)], mhzPlan := [(0, 750)] } }

/-- A read of the secure core and one of a host, and what the check of each answers. -/
def secureRead : DramReq := ⟨0x41, true, false, 3, 9, 0, 1, none⟩

def hostRead : DramReq := ⟨0, false, false, 1, 0, 0, 1, none⟩

def guarded (q : DramReq) : Bool × State :=
  State.reset.guardRequest ⟨q.fn, q.world, State.reset.stampCrit q, q.port, false, false⟩ q.applet q.data.isSome (q.addr / 16 * 16)

/-- A device at step 2 of an entry to a power state. -/
def entering (target : Nat) : State := { State.reset with power := { State.reset.power with req := some ⟨target, 64, false, 0, 2⟩ } }

/-- A device of a pair that has met its partner. -/
def joinable : State := { State.reset with pair := { State.reset.pair with guyOut := true, trained := true, pProtocol := 1, pPosition := 1, rxSeq := 7 } }

/-- States and operands that meet the hypotheses of EventRegisters, clause by clause. -/
theorem witness_EventRegisters :
    (∃ (s : State) (w : RegWr) (pg : Page), Inv s ∧ s.arrives w pg = true ∧ w.off % 0x1000 = 0x010 ∧ s.secretPage (accOf w pg) = false)
      ∧ (∃ (s : State) (w : RegWr) (pg : Page), Inv s ∧ s.arrives w pg = true ∧ w.off % 0x1000 = 0x014 ∧ s.secretPage (accOf w pg) = false)
      ∧ (∃ (s : State) (w : RegWr) (pg : Page), Inv s ∧ s.arrives w pg = true ∧ w.off % 0x1000 = 0x01C ∧ s.secretPage (accOf w pg) = false)
      ∧ (∃ (s : State) (w : RegWr) (pg : Page), Inv s ∧ s.arrives w pg = true ∧ w.off % 0x1000 = 0x020 ∧ bit 31 w.val.toNat = true ∧ s.secretPage
        (accOf w pg) = false)
      ∧ (∃ (s : State) (w : RegWr) (pg : Page) (i : Instr), Inv s ∧ s.arrives w pg = true ∧ (i, w.off % 0x1000) ∈ [(Instr.evtRawClear w, 0x010),
        (.evtEnWrite w, 0x014), (.evtSetWrite w, 0x01C), (.evtRouteWrite w, 0x030)] ∧ s.secretPage (accOf w pg) = true ∧ s.writesAny (accOf w pg) =
        true) :=
  ⟨⟨State.reset, { req := { fn := 64, secure := false }, win := Window.pf, off := 266256, be := 0xf#4, val := 0x00000003#32 }, Page.pool,
      inv_of (by decide +kernel), by decide +kernel⟩,
    ⟨State.reset, { req := { fn := 64, secure := false }, win := Window.pf, off := 266260, be := 0xf#4, val := 0x00000009#32 }, Page.pool,
      inv_of (by decide +kernel), by decide +kernel⟩,
    ⟨State.reset, { req := { fn := 64, secure := false }, win := Window.pf, off := 266268, be := 0xf#4, val := 0x80000018#32 }, Page.pool,
      inv_of (by decide +kernel), by decide +kernel⟩,
    ⟨State.reset, { req := { fn := 64, secure := false }, win := Window.pf, off := 266272, be := 0xf#4, val := 0x80000007#32 }, Page.pool,
      inv_of (by decide +kernel), by decide +kernel⟩,
    ⟨{ State.reset with regs := [(4140, 0x80400000#32)] },
      { req := { fn := 64, secure := false }, win := Window.pf, off := 4116, be := 0xf#4, val := 0x00000003#32 }, Page.tim,
      Instr.evtEnWrite { req := { fn := 64, secure := false }, win := Window.pf, off := 4116, be := 0xf#4, val := 0x00000003#32 },
      inv_of (by decide +kernel), by decide +kernel⟩⟩

/-- States and operands that meet the hypotheses of RegionEventRegisters, clause by clause. -/
theorem witness_RegionEventRegisters :
    (∃ (s : State) (w : RegWr) (n : Nat) (j : Nat), Inv s ∧ n < 8 ∧ j < 16 ∧ s.arrives w (.chk n) = true ∧ w.off % 0x1000 = 0x100 + 0xC0 * j + 0x2C ∧
      s.secretPage (accOf w (.chk n)) = false)
      ∧ (∃ (s : State) (w : RegWr) (n : Nat) (j : Nat), Inv s ∧ n < 8 ∧ j < 16 ∧ s.arrives w (.chk n) = true ∧ w.off % 0x1000 = 0x100 + 0xC0 * j +
        0x30 ∧ s.secretPage (accOf w (.chk n)) = false) :=
  ⟨⟨State.reset, { req := { fn := 64, secure := false }, win := Window.pf, off := 1250156, be := 0xf#4, val := 0x00000001#32 }, 1, 3,
      inv_of (by decide +kernel), by decide +kernel⟩,
    ⟨State.reset, { req := { fn := 64, secure := false }, win := Window.pf, off := 1250160, be := 0xf#4, val := 0xfffffff1#32 }, 1, 3,
      inv_of (by decide +kernel), by decide +kernel⟩⟩

/-- States and operands that meet the hypotheses of EventRoute, clause by clause. -/
theorem witness_EventRoute :
    (∃ (s : State) (w : RegWr) (pg : Page), Inv s ∧ s.arrives w pg = true ∧ w.off % 0x1000 = 0x030 ∧ s.secretPage (accOf w pg) = false ∧ s.flag pg
      F.OWNER_DELEGATE = false ∧ pg.isVfCtrl = false ∧ (accOf w pg).viaVf = false ∧ bits 5 0 w.val.toNat < State.vectors (bits 23 16 w.val.toNat))
      ∧ (∃ (s : State) (w : RegWr) (pg : Page), Inv s ∧ s.arrives w pg = true ∧ w.off % 0x1000 = 0x030 ∧ s.secretPage (accOf w pg) = false ∧ (s.flag
        pg F.OWNER_DELEGATE = true ∨ pg.isVfCtrl = true ∨ (accOf w pg).viaVf = true) ∧ bits 5 0 w.val.toNat < State.vectors (s.routeFn pg))
      ∧ (∃ (s : State) (w : RegWr) (pg : Page), Inv s ∧ s.arrives w pg = true ∧ w.off % 0x1000 = 0x030 ∧ s.secretPage (accOf w pg) = false ∧
        State.vectors (if s.routeFixed (accOf w pg) F.EVT_ROUTE_FUNCTION then s.routeFn pg else bits 23 16 w.val.toNat) ≤ bits 5 0 w.val.toNat ∧
        s.writesAny (accOf w pg) = true) :=
  ⟨⟨State.reset, { req := { fn := 64, secure := false }, win := Window.pf, off := 266288, be := 0xf#4, val := 0x80400005#32 }, Page.pool,
      inv_of (by decide +kernel), by decide +kernel⟩,
    ⟨{ State.reset with regs := [(1191980, 0x00013101#32)] },
      { req := { fn := 64, secure := false }, win := Window.pf, off := 1191984, be := 0xf#4, val := 0x80800007#32 }, Page.slot 1 2,
      inv_of (by decide +kernel), by decide +kernel⟩,
    ⟨State.reset, { req := { fn := 64, secure := false }, win := Window.pf, off := 266288, be := 0xf#4, val := 0x8001003f#32 }, Page.pool,
      inv_of (by decide +kernel), by decide +kernel⟩⟩

/-- States and operands that meet the hypotheses of PageLock, clause by clause. -/
theorem witness_PageLock :
    (∃ (s : State) (w : RegWr) (pg : Page), Inv s ∧ s.arrives w pg = true ∧ w.off % 0x1000 = 0x008 ∧ w.val.toNat = 4 + s.fld pg F.PG_CTRL_ENABLE ∧
      s.grants (accOf w pg) F.PG_CTRL_LOCK = true)
      ∧ (∃ (s : State) (w : RegWr) (pg : Page), Inv s ∧ s.arrives w pg = true ∧ w.off % 0x1000 = 0x008 ∧ w.val.toNat = 8 + s.fld pg F.PG_CTRL_ENABLE ∧
        w.req.secure = true)
      ∧ (∃ (s : State) (w : RegWr) (pg : Page), Inv s ∧ s.arrives w pg = true ∧ w.off % 0x1000 = 0x008 ∧ pg.isVfCtrl = false ∧ s.flag pg
        F.PG_CTRL_LOCK = true ∧ s.secretPage (accOf w pg) = false ∧ w.val.toNat = 1 - s.fld pg F.PG_CTRL_ENABLE) :=
  ⟨⟨State.reset, { req := { fn := 64, secure := false }, win := Window.pf, off := 4104, be := 0xf#4, val := 0x00000005#32 }, Page.tim,
      inv_of (by decide +kernel), by decide +kernel⟩,
    ⟨State.reset, { req := { fn := 65, secure := true }, win := Window.pf, off := 4104, be := 0xf#4, val := 0x00000009#32 }, Page.tim,
      inv_of (by decide +kernel), by decide +kernel⟩,
    ⟨{ State.reset with regs := [(4104, 0x00000005#32)] },
      { req := { fn := 64, secure := false }, win := Window.pf, off := 4104, be := 0xf#4, val := 0#32 }, Page.tim, inv_of (by decide +kernel),
      by decide +kernel⟩⟩

/-- States and operands that meet the hypotheses of PageEnable, clause by clause. -/
theorem witness_PageEnable :
    (∃ (s : State) (w : RegWr) (pg : Page), Inv s ∧ s.arrives w pg = true ∧ w.off % 0x1000 = 0x008 ∧ pg ∈ [.sys, .tim, .log, .pwr, .aon, .upd, .wld,
      .own, .pmc] ∧ w.val.toNat = 1 - s.fld pg F.PG_CTRL_ENABLE ∧ s.grants (accOf w pg) F.PG_CTRL_ENABLE = true ∧ s.pageHeld (accOf w pg) = none ∧
      s.pageGated pg = false)
      ∧ (∃ (s : State) (w : RegWr) (n : Nat) (k : Nat) (pg : Page), Inv s ∧ n < 8 ∧ k < 16 ∧ pg ∈ [.pipe n, .slot n k, .chk n] ∧ s.arrives w pg = true
        ∧ w.off % 0x1000 = 0x008 ∧ w.val.toNat = 1 - s.fld pg F.PG_CTRL_ENABLE ∧ s.grants (accOf w pg) F.PG_CTRL_ENABLE = true ∧ s.pageHeld (accOf w
        pg) = none ∧ s.pageGated pg = false)
      ∧ (∃ (s : State) (w : RegWr) (n : Nat) (k : Nat) (i : Nat) (pg : Page), Inv s ∧ n < 8 ∧ k < 16 ∧ pg ∈ [.pipe n, .slot n k, .chk n] ∧ s.arrives w
        pg = true ∧ w.off % 0x1000 = 0x008 ∧ w.val.toNat = 1 ∧ s.grants (accOf w pg) F.PG_CTRL_ENABLE = true ∧ State.pageIsland pg = some i ∧
        s.pageGated pg = true)
      ∧ (∃ (s : State) (w : RegWr) (pg : Page) (g : Nat), Inv s ∧ s.arrives w pg = true ∧ w.off % 0x1000 = 0x008 ∧ pg.isVfCtrl = false ∧ w.val.toNat =
        0 ∧ s.fld pg F.PG_CTRL_ENABLE = 1 ∧ s.grants (accOf w pg) F.PG_CTRL_ENABLE = true ∧ s.pageHeld (accOf w pg) = some g) :=
  ⟨⟨State.reset, { req := { fn := 64, secure := false }, win := Window.pf, off := 3211272, be := 0xf#4, val := 0x00000001#32 }, Page.pmc,
      inv_of (by decide +kernel), by decide +kernel⟩,
    ⟨State.reset, { req := { fn := 64, secure := false }, win := Window.pf, off := 1118216, be := 0xf#4, val := 0x00000001#32 }, 0, 15, Page.chk 0,
      inv_of (by decide +kernel), by decide +kernel⟩,
    ⟨{ State.reset with regs := [(73115107341, 0x00000001#32)] },
      { req := { fn := 64, secure := false }, win := Window.pf, off := 1441800, be := 0xf#4, val := 0x00000001#32 }, 3, 2, 13, Page.pipe 3,
      inv_of (by decide +kernel), by decide +kernel⟩,
    ⟨{ State.reset with regs := [(131168, 0x00010001#32), (1048584, 0x00000001#32)] },
      { req := { fn := 64, secure := false }, win := Window.pf, off := 1048584, be := 0xf#4, val := 0#32 }, Page.pipe 0, 0,
      inv_of (by decide +kernel), by decide +kernel⟩⟩

/-- States and operands that meet the hypotheses of PageSoftReset, clause by clause. -/
theorem witness_PageSoftReset :
    (∃ (s : State) (w : RegWr) (pg : Page) (n : Nat) (k : Nat), Inv s ∧ n < 8 ∧ k < 16 ∧ (pg = .tim ∨ pg = .slot n k ∧ (s.disp n).running = false) ∧
      s.arrives w pg = true ∧ w.off % 0x1000 = 0x008 ∧ w.val.toNat = 2 + s.fld pg F.PG_CTRL_ENABLE ∧ s.grants (accOf w pg) F.PG_CTRL_SOFT_RESET = true
      ∧ s.pageHeld (accOf w pg) = none ∧ s.pageArmed pg.base = false ∧ s.pageGated pg = false)
      ∧ (∃ (s : State) (w : RegWr) (n : Nat) (k : Nat), Inv s ∧ n < 8 ∧ k < 16 ∧ s.arrives w (.slot n k) = true ∧ w.off % 0x1000 = 0x008 ∧ w.val.toNat
        = 2 + s.fld (.slot n k) F.PG_CTRL_ENABLE ∧ s.grants (accOf w (.slot n k)) F.PG_CTRL_SOFT_RESET = true ∧ s.pageHeld (accOf w (.slot n k)) =
        none ∧ s.pageArmed (Page.slot n k).base = true) :=
  ⟨⟨State.reset, { req := { fn := 64, secure := false }, win := Window.pf, off := 4104, be := 0xf#4, val := 0x00000003#32 }, Page.tim, 0, 0,
      inv_of (by decide +kernel), by decide +kernel⟩,
    ⟨
      { State.reset with
        display := { State.reset.display with
          commits := [
            { 
              cno := 0, jid := none, cid := 0, fn := 64, group := 0, target := none, entries := [], pages := [2031616], stage := CommitStage.waiting,
              frame := 0, todo := [], posted := false, handover := none, release := none, sentAt := 0, silent := false }] } },
      { req := { fn := 64, secure := false }, win := Window.pf, off := 2031624, be := 0xf#4, val := 0x00000002#32 }, 7, 15,
      inv_of (by decide +kernel), by decide +kernel⟩⟩

/-- States and operands that meet the hypotheses of PlainRegisterWrite, clause by clause. -/
theorem witness_PlainRegisterWrite :
    ∃ (s : State) (w : RegWr) (n : Nat) (k : Nat) (o : Nat), Inv s ∧ n < 8 ∧ k < 16 ∧ s.arrives w (.slot n k) = true ∧ w.off % 0x1000 = o ∧ 0x040 ≤ o
      ∧ o ≠ F.SLOT_LUT_DATA_ENTRY.off ∧ s.secretPage (accOf w (.slot n k)) = false ∧ (s.writtenFields (accOf w (.slot n k))).any (s.refusedSec (accOf
      w (.slot n k))) = false ∧ (s.writtenFields (accOf w (.slot n k))).any (s.refusedLock (accOf w (.slot n k))) = false :=
  ⟨State.reset, { req := { fn := 64, secure := false }, win := Window.pf, off := 1052736, be := 0xf#4, val := 0x00000001#32 }, 0, 0, 64,
    inv_of (by decide +kernel), by decide +kernel⟩

/-- States and operands that meet the hypotheses of WideAndCounterAccess, clause by clause. -/
theorem witness_WideAndCounterAccess :
    (∃ (s : State) (w : RegWr) (pg : Page), Inv s ∧ s.arrives w pg = true ∧ s.isWide (accOf w pg) = true ∧ w.off % 0x1000 % 16 ≠ 12)
      ∧ (∃ (s : State) (w : RegWr) (n : Nat) (k : Nat) (o : Nat), Inv s ∧ n < 8 ∧ k < 16 ∧ s.arrives w (.slot n k) = true ∧ w.off % 0x1000 = o ∧
        s.isWide (accOf w (.slot n k)) = true ∧ o % 16 = 12 ∧ s.secretPage (accOf w (.slot n k)) = false ∧ (s.writtenFields (accOf w (.slot n k))).any
        (s.refusedSec (accOf w (.slot n k))) = false ∧ (s.writtenFields (accOf w (.slot n k))).any (s.refusedLock (accOf w (.slot n k))) = false ∧ (∀
        l ∈ s.staged, l.fn = w.req.fn → l.key < (Page.slot n k).key (o - 12) ∨ (Page.slot n k).key o ≤ l.key))
      ∧ (∃ (s : State) (r : RegRd) (pg : Page), s.readReaches r pg = true ∧ s.isWide (rdOf r pg) = true ∧ r.off % 0x1000 % 16 = 0 ∧ readOnlyReturns pg
        (r.off % 0x1000) = true)
      ∧ (∃ (s : State) (r : RegRd) (pg : Page) (v : Word32), s.readReaches r pg = true ∧ s.isWide (rdOf r pg) = true ∧ r.off % 0x1000 % 16 ≠ 0 ∧
        readOnlyReturns pg (r.off % 0x1000) = true ∧ State.isCounterLo pg (r.off % 0x1000) = false ∧ s.latched.find? (fun l => l.fn == r.req.fn &&
        l.key == pg.key (r.off % 0x1000)) = some ⟨r.req.fn, pg.key (r.off % 0x1000), v⟩)
      ∧ (∃ (s : State) (r : RegRd) (pg : Page), s.readReaches r pg = true ∧ s.isWide (rdOf r pg) = false ∧ State.isCounterLo pg (r.off % 0x1000) =
        true)
      ∧ (∃ (s : State) (r : RegRd) (pg : Page) (v : Word32), s.readReaches r pg = true ∧ 4 ≤ r.off % 0x1000 ∧ State.isCounterLo pg (r.off % 0x1000 -
        4) = true ∧ State.isCounterLo pg (r.off % 0x1000) = false ∧ s.isWide (rdOf r pg) = false ∧ s.latched.find? (fun l => l.fn == r.req.fn && l.key
        == pg.key (r.off % 0x1000)) = some ⟨r.req.fn, pg.key (r.off % 0x1000), v⟩)
      ∧ (∃ (s : State) (r : RegRd) (pg : Page), s.readReaches r pg = true ∧ s.isWide (rdOf r pg) = false ∧ readOnlyReturns pg (r.off % 0x1000) = true
        ∧ State.isCounterLo pg (r.off % 0x1000) = false ∧ (4 ≤ r.off % 0x1000 → State.isCounterLo pg (r.off % 0x1000 - 4) = false)) :=
  ⟨⟨{ State.reset with regs := [(2031620, 0xf0000100#32)] },
      { req := { fn := 64, secure := false }, win := Window.pf, off := 2031684, be := 0xf#4, val := 0x00030010#32 }, Page.slot 7 15,
      inv_of (by decide +kernel), by decide +kernel⟩,
    ⟨{ State.reset with regs := [(2031620, 0xf0000100#32)] },
      { req := { fn := 64, secure := false }, win := Window.pf, off := 2031692, be := 0xf#4, val := 0x00030010#32 }, 7, 15, 76,
      inv_of (by decide +kernel), by decide +kernel⟩,
    ⟨{ State.reset with regs := [(2031620, 0xf0000100#32)] }, { req := { fn := 64, secure := false }, win := Window.pf, off := 2031680 },
      Page.slot 7 15, by decide +kernel⟩,
    ⟨{ State.reset with regs := [(2031620, 0xf0000100#32)], latched := [{ fn := 64, key := 2031684, val := 0x00000009#32 }] },
      { req := { fn := 64, secure := false }, win := Window.pf, off := 2031684 }, Page.slot 7 15, 0x00000009#32, by decide +kernel⟩,
    ⟨State.reset, { req := { fn := 64, secure := false }, win := Window.pf, off := 4160 }, Page.tim, by decide +kernel⟩,
    ⟨{ State.reset with latched := [{ fn := 64, key := 4164, val := 0x00000009#32 }] },
      { req := { fn := 64, secure := false }, win := Window.pf, off := 4164 }, Page.tim, 0x00000009#32, by decide +kernel⟩,
    ⟨State.reset, { req := { fn := 64, secure := false }, win := Window.pf, off := 2031684 }, Page.slot 7 15, by decide +kernel⟩⟩

/-- States and operands that meet the hypotheses of ShadowControl, clause by clause. -/
theorem witness_ShadowControl :
    (∃ (s : State) (w : RegWr) (n : Nat), Inv s ∧ n < 8 ∧ s.arrives w (.pipe n) = true ∧ w.off % 0x1000 = 0x028 ∧ w.val.toNat < 8 ∧ s.grants (accOf w
      (.pipe n)) F.SHADOW_CTRL_GROUP = true ∧ (State.outputPages n).any (fun pg => s.pageArmed pg.base) = false ∧ s.display.commits = [])
      ∧ (∃ (s : State) (w : RegWr) (n : Nat), Inv s ∧ n < 8 ∧ s.arrives w (.pipe n) = true ∧ w.off % 0x1000 = 0x028 ∧ w.val.toNat < 8 ∧ s.grants
        (accOf w (.pipe n)) F.SHADOW_CTRL_GROUP = true ∧ (State.outputPages n).any (fun pg => s.pageArmed pg.base) = true)
      ∧ (∃ (s : State) (w : RegWr) (n : Nat) (k : Nat), Inv s ∧ n < 8 ∧ k < 16 ∧ s.arrives w (.slot n k) = true ∧ w.off % 0x1000 = 0x028 ∧ w.val.toNat
        = 2 ^ 16 + s.fld (.slot n k) F.SHADOW_CTRL_GROUP ∧ s.grants (accOf w (.slot n k)) F.SHADOW_CTRL_DISCARD = true ∧ s.pageArmed (Page.slot n
        k).base = false) :=
  ⟨⟨State.reset, { req := { fn := 64, secure := false }, win := Window.pf, off := 1966120, be := 0xf#4, val := 0x00000007#32 }, 7,
      inv_of (by decide +kernel), by decide +kernel⟩,
    ⟨
      { State.reset with
        display := { State.reset.display with
          commits := [
            { 
              cno := 0, jid := none, cid := 0, fn := 64, group := 0, target := none, entries := [], pages := [2031616], stage := CommitStage.waiting,
              frame := 0, todo := [], posted := false, handover := none, release := none, sentAt := 0, silent := false }] } },
      { req := { fn := 64, secure := false }, win := Window.pf, off := 1966120, be := 0xf#4, val := 0x00000007#32 }, 7, inv_of (by decide +kernel),
      by decide +kernel⟩,
    ⟨State.reset, { req := { fn := 64, secure := false }, win := Window.pf, off := 2031656, be := 0xf#4, val := 0x00010000#32 }, 7, 15,
      inv_of (by decide +kernel), by decide +kernel⟩⟩

/-- States and operands that meet the hypotheses of Ownership, clause by clause. -/
theorem witness_Ownership :
    (∃ (s : State) (w : RegWr) (pg : Page), Inv s ∧ (∀ n k, pg = .slot n k → bits 23 16 w.val.toNat = s.fld pg F.OWNER_FUNCTION ∨ s.standby = true) ∧
      s.arrives w pg = true ∧ w.off % 0x1000 = 0x02C ∧ w.req.secure = true ∧ pg.isVfCtrl = false ∧ s.writesAny (accOf w pg) = true ∧ s.ownerRefusal pg
      (State.ownerBits w.val.toNat) = none)
      ∧ (∃ (s : State) (w : RegWr) (pg : Page) (code : Nat), Inv s ∧ s.arrives w pg = true ∧ w.off % 0x1000 = 0x02C ∧ w.req.secure = true ∧
        pg.isVfCtrl = false ∧ s.writesAny (accOf w pg) = true ∧ s.ownerRefusal pg (State.ownerBits w.val.toNat) = some code)
      ∧ (∃ (s : State) (w : RegWr) (n : Nat) (k : Nat), Inv s ∧ n < 8 ∧ k < 16 ∧ s.arrives w (.slot n k) = true ∧ w.off % 0x1000 = 0x02C ∧
        w.req.secure = true ∧ s.ownerRefusal (.slot n k) (State.ownerBits w.val.toNat) = none ∧ bits 23 16 w.val.toNat ≠ s.fld (.slot n k)
        F.OWNER_FUNCTION ∧ s.standby = false ∧ s.display.commits = [] ∧ n * 16 + k ∉ s.display.waitingRelease ∧ (s.leadOf (s.groupOf n)).isSome =
        true)
      ∧ (∃ (s : State) (w : RegWr) (n : Nat) (j : Nat), Inv s ∧ n < 8 ∧ j < 16 ∧ s.arrives w (.chk n) = true ∧ w.off % 0x1000 = F.CHK_OWNER_WORLD.at
        [j] ∧ w.req.secure = true ∧ s.writesAny (accOf w (.chk n)) = true ∧ (bit 8 w.val.toNat = true → isVf (bits 23 16 w.val.toNat) = true ∧ bits 3
        0 w.val.toNat ≠ 0 ∧ bit 31 w.val.toNat = false ∧ s.frameTaken (bits 23 16 w.val.toNat) (bits 3 0 w.val.toNat) none (some n) = false) ∧
        s.pageArmed (Page.chk n).base = false)
      ∧ (∃ (s : State) (w : RegWr) (n : Nat) (j : Nat) (code : Nat), Inv s ∧ n < 8 ∧ j < 16 ∧ s.arrives w (.chk n) = true ∧ w.off % 0x1000 =
        F.CHK_OWNER_WORLD.at [j] ∧ w.req.secure = true ∧ s.writesAny (accOf w (.chk n)) = true ∧ (if bit 8 w.val.toNat = true ∧ (isVf (bits 23 16
        w.val.toNat) = false ∨ bits 3 0 w.val.toNat = 0 ∨ bit 31 w.val.toNat = true) then code = 0x0006 else if bit 8 w.val.toNat = true ∧
        s.frameTaken (bits 23 16 w.val.toNat) (bits 3 0 w.val.toNat) none (some n) = true then code = 0x0203 else s.pageArmed (Page.chk n).base = true
        ∧ code = 0x0303))
      ∧ (∃ (s : State) (w : RegWr) (pg : Page), Inv s ∧ s.arrives w pg = true ∧ w.off % 0x1000 = 0x02C ∧ w.req.secure = false ∧ s.writesAny (accOf w
        pg) = true)
      ∧ (∃ (s : State) (w : RegWr) (n : Nat) (j : Nat), Inv s ∧ n < 8 ∧ j < 16 ∧ s.arrives w (.chk n) = true ∧ w.off % 0x1000 = F.CHK_OWNER_WORLD.at
        [j] ∧ w.req.secure = false ∧ s.writesAny (accOf w (.chk n)) = true) :=
  ⟨⟨State.reset, { req := { fn := 65, secure := true }, win := Window.pf, off := 4140, be := 0xf#4, val := 0x80401000#32 }, Page.tim,
      inv_of (by decide +kernel), (fun _ _ h => nomatch h), by decide +kernel⟩,
    ⟨State.reset, { req := { fn := 65, secure := true }, win := Window.pf, off := 4140, be := 0xf#4, val := 0x00000102#32 }, Page.tim, 10,
      inv_of (by decide +kernel), by decide +kernel⟩,
    ⟨
      { State.reset with
        regs := [(1327148, 0x00410000#32)], display := { State.reset.display with disps := [(2, { idleDisp with running := true })] } },
      { req := { fn := 65, secure := true }, win := Window.pf, off := 1327148, be := 0xf#4, val := 0x00400000#32 }, 2, 3, inv_of (by decide +kernel),
      by decide +kernel⟩,
    ⟨State.reset, { req := { fn := 65, secure := true }, win := Window.pf, off := 2038848, be := 0xf#4, val := 0x00010101#32 }, 7, 15,
      inv_of (by decide +kernel), by decide +kernel⟩,
    ⟨State.reset, { req := { fn := 65, secure := true }, win := Window.pf, off := 2038848, be := 0xf#4, val := 0x80010101#32 }, 7, 15, 6,
      inv_of (by decide +kernel), by decide +kernel⟩,
    ⟨State.reset, { req := { fn := 64, secure := false }, win := Window.pf, off := 4140, be := 0xf#4, val := 0x00410000#32 }, Page.tim,
      inv_of (by decide +kernel), by decide +kernel⟩,
    ⟨State.reset, { req := { fn := 64, secure := false }, win := Window.pf, off := 2038848, be := 0xf#4, val := 0x00010101#32 }, 7, 15,
      inv_of (by decide +kernel), by decide +kernel⟩⟩

/-- States and operands that meet the hypotheses of ChannelCommands, clause by clause. -/
theorem witness_ChannelCommands :
    (∃ (s : State) (c : CmdArgs) (i : Nat), Inv s ∧ s.accepts 0x01 c = true ∧ s.posts c.fn c.q = true ∧ s.mirrors = false ∧ s.poolNotReady = false ∧
      c.params.getD 0 0 < 2 ^ 16 ∧ bits 7 4 (c.params.getD 0 0) = 0 ∧ 1 ≤ bits 3 0 (c.params.getD 0 0) ∧ bits 3 0 (c.params.getD 0 0) ≤ 6 ∧ isHolder
      (if isVf c.fn then c.fn else bits 15 8 (c.params.getD 0 0)) = true ∧ s.chanCount (if isVf c.fn then c.fn else bits 15 8 (c.params.getD 0 0)) <
      s.chanLimit (if isVf c.fn then c.fn else bits 15 8 (c.params.getD 0 0)) ∧ s.pool.chans.next 256 = some i)
      ∧ (∃ (s : State) (c : CmdArgs) (i : Nat), Inv s ∧ s.checkChan c.fn (c.params.getD 0 0) = .ok i ∧ s.accepts 0x02 c = true ∧ s.posts c.fn c.q =
        true ∧ s.mirrors = false ∧ s.poolNotReady = false ∧ (∀ p ∈ s.pool.bufs.used, p.2.chan = i → p.2.fences = 0 ∧ p.2.state = .live))
      ∧ (∃ (s : State) (c : CmdArgs) (i : Nat) (x : Chan) (j : Nat) (b : Buf), Inv s ∧ s.checkChan c.fn (c.params.getD 0 0) = .ok i ∧ s.accepts 0x02 c
        = true ∧ s.posts c.fn c.q = true ∧ s.mirrors = false ∧ s.poolNotReady = false ∧ s.chan i = some x ∧ s.buf j = some b ∧ b.chan = i ∧ 0 <
        b.fences ∧ b.state = .live)
      ∧ (∃ (s : State) (c : CmdArgs) (code : Nat), Inv s ∧ s.checkChan c.fn (c.params.getD 0 0) = .error code ∧ s.accepts 0x02 c = true ∧ s.posts c.fn
        c.q = true ∧ s.poolNotReady = false) :=
  ⟨⟨{ State.reset with regs := [(68, 0x00000017#32), (262152, 0x00000001#32), (266248, 0x00000001#32)] },
      { fn := 64, q := 0, cid := 5, ordered := false, rsvd := 0, params := [16386] }, 0, inv_of (by decide +kernel), by decide +kernel⟩,
    ⟨
      { State.reset with
        regs := [(68, 0x00000017#32), (262152, 0x00000001#32), (266248, 0x00000001#32)],
        pool := { State.reset.pool with
          chans := { used := [(0, { kind := 2, fn := 64, draining := false, destroyJob := none })], gens := [], fresh := 1, freed := [] } } },
      { fn := 64, q := 0, cid := 5, ordered := false, rsvd := 0, params := [536871168] }, 0, inv_of (by decide +kernel),
      except_of (by decide +kernel), by decide +kernel⟩,
    ⟨
      { State.reset with
        regs := [(68, 0x00000017#32), (262152, 0x00000001#32), (266248, 0x00000001#32)],
        pool := { State.reset.pool with
          chans := { used := [(0, { kind := 2, fn := 64, draining := false, destroyJob := none })], gens := [], fresh := 1, freed := [] },
          bufs := { 
            used := [
              (
                0,
                { 
                  state := BufState.live, chan := 0, chanHandle := 536871168, fn := 64, plots := [0, 1], size := 98304, fences := 1, toFill := [],
                  allocJob := none, freeJob := none, freeAfterFill := false })], gens := [], fresh := 1, freed := [] } } },
      { fn := 64, q := 0, cid := 5, ordered := false, rsvd := 0, params := [536871168] }, 0,
      { kind := 2, fn := 64, draining := false, destroyJob := none }, 0,
      { 
        state := BufState.live, chan := 0, chanHandle := 536871168, fn := 64, plots := [0, 1], size := 98304, fences := 1, toFill := [],
        allocJob := none, freeJob := none, freeAfterFill := false }, inv_of (by decide +kernel), except_of (by decide +kernel), by decide +kernel⟩,
    ⟨{ State.reset with regs := [(68, 0x00000017#32), (262152, 0x00000001#32), (266248, 0x00000001#32)] },
      { fn := 64, q := 0, cid := 5, ordered := false, rsvd := 0, params := [536871424] }, 258, inv_of (by decide +kernel),
      except_of (by decide +kernel), by decide +kernel⟩⟩

/-- States and operands that meet the hypotheses of BufferCommands, clause by clause. -/
theorem witness_BufferCommands :
    (∃ (s : State) (c : CmdArgs) (ci : Nat) (i : Nat) (x : Chan), Inv s ∧ s.checkChan c.fn (c.params.getD 0 0) = .ok ci ∧ s.accepts 0x03 c = true ∧
      s.posts c.fn c.q = true ∧ s.mirrors = false ∧ s.poolNotReady = false ∧ s.chan ci = some x ∧ 0 < c.params.getD 1 0 ∧ c.params.getD 1 0 ≤
      kindLimit x.kind ∧ s.allocCheck x.fn (plotsFor (c.params.getD 1 0)) = none ∧ s.pool.bufs.next 65536 = some i ∧ (s.takePlots (plotsFor
      (c.params.getD 1 0))).1.filter (s.needsFill x.fn) = [])
      ∧ (∃ (s : State) (c : CmdArgs) (ci : Nat) (i : Nat) (x : Chan), Inv s ∧ s.checkChan c.fn (c.params.getD 0 0) = .ok ci ∧ s.accepts 0x03 c = true
        ∧ s.poolNotReady = false ∧ s.chan ci = some x ∧ 0 < c.params.getD 1 0 ∧ c.params.getD 1 0 ≤ kindLimit x.kind ∧ s.allocCheck x.fn (plotsFor
        (c.params.getD 1 0)) = none ∧ s.pool.bufs.next 65536 = some i ∧ (s.takePlots (plotsFor (c.params.getD 1 0))).1.filter (s.needsFill x.fn) ≠ [])
      ∧ (∃ (s : State) (c : CmdArgs) (ci : Nat) (x : Chan) (code : Nat), Inv s ∧ s.checkChan c.fn (c.params.getD 0 0) = .ok ci ∧ s.accepts 0x03 c =
        true ∧ s.posts c.fn c.q = true ∧ s.poolNotReady = false ∧ s.chan ci = some x ∧ 0 < c.params.getD 1 0 ∧ c.params.getD 1 0 ≤ kindLimit x.kind ∧
        s.allocCheck x.fn (plotsFor (c.params.getD 1 0)) = some code)
      ∧ (∃ (s : State) (c : CmdArgs) (i : Nat) (b : Buf), Inv s ∧ s.checkBuf c.fn (c.params.getD 0 0) = .ok i ∧ s.accepts 0x04 c = true ∧ s.posts c.fn
        c.q = true ∧ s.mirrors = false ∧ s.poolNotReady = false ∧ s.buf i = some b ∧ b.fences = 0)
      ∧ (∃ (s : State) (c : CmdArgs) (i : Nat) (b : Buf), Inv s ∧ s.checkBuf c.fn (c.params.getD 0 0) = .ok i ∧ s.accepts 0x04 c = true ∧ s.posts c.fn
        c.q = true ∧ s.mirrors = false ∧ s.poolNotReady = false ∧ s.buf i = some b ∧ 0 < b.fences)
      ∧ (∃ (s : State) (c : CmdArgs) (i : Nat) (b : Buf), Inv s ∧ s.checkBuf c.fn (c.params.getD 0 0) true = .ok i ∧ s.accepts 0x05 c = true ∧ s.posts
        c.fn c.q = true ∧ s.poolNotReady = false ∧ s.buf i = some b) :=
  ⟨⟨
      { State.reset with
        regs := [(68, 0x00000017#32), (135232, 0x00100000#32), (262152, 0x00000001#32), (266248, 0x00000001#32), (266312, 0x00000002#32)],
        mem := [
          (1048576, 0x40#8), (1048577, 0x08#8), (1048580, 0x40#8), (1048581, 0x08#8), (67371008, 0x2d#8), (67371009, 0xf8#8), (67371010, 0x21#8)],
        pool := { State.reset.pool with
          chans := { used := [(0, { kind := 2, fn := 64, draining := false, destroyJob := none })], gens := [], fresh := 1, freed := [] },
          bufs := { used := [], gens := [(0, 2)], fresh := 1, freed := [0] } } },
      { fn := 64, q := 0, cid := 5, ordered := false, rsvd := 0, params := [536871168, 65536] }, 0, 1,
      { kind := 2, fn := 64, draining := false, destroyJob := none }, inv_of (by decide +kernel), except_of (by decide +kernel), by decide +kernel⟩,
    ⟨
      { State.reset with
        regs := [(68, 0x00000017#32), (262152, 0x00000001#32), (266248, 0x00000001#32), (266312, 0x00000008#32)],
        pool := { State.reset.pool with
          chans := { used := [(0, { kind := 2, fn := 64, draining := false, destroyJob := none })], gens := [], fresh := 1, freed := [] } } },
      { fn := 64, q := 0, cid := 5, ordered := false, rsvd := 0, params := [536871168, 98304] }, 0, 0,
      { kind := 2, fn := 64, draining := false, destroyJob := none }, inv_of (by decide +kernel), except_of (by decide +kernel), by decide +kernel⟩,
    ⟨
      { State.reset with
        regs := [(68, 0x00000017#32), (262152, 0x00000001#32), (266248, 0x00000001#32), (283568504896, 0x00000006#32)],
        pool := { State.reset.pool with
          chans := { used := [(0, { kind := 2, fn := 64, draining := false, destroyJob := none })], gens := [], fresh := 1, freed := [] },
          bufs := { 
            used := [
              (
                0,
                { 
                  state := BufState.live, chan := 0, chanHandle := 536871168, fn := 64, plots := [0, 1], size := 98304, fences := 0, toFill := [],
                  allocJob := none, freeJob := none, freeAfterFill := false })], gens := [], fresh := 1, freed := [] } } },
      { fn := 64, q := 0, cid := 5, ordered := false, rsvd := 0, params := [536871168, 360448] }, 0,
      { kind := 2, fn := 64, draining := false, destroyJob := none }, 259, inv_of (by decide +kernel), except_of (by decide +kernel),
      by decide +kernel⟩,
    ⟨
      { State.reset with
        regs := [(68, 0x00000017#32), (262152, 0x00000001#32), (266248, 0x00000001#32)],
        pool := { State.reset.pool with
          bufs := { 
            used := [
              (
                0,
                { 
                  state := BufState.live, chan := 0, chanHandle := 536871168, fn := 64, plots := [0, 1], size := 98304, fences := 0, toFill := [],
                  allocJob := none, freeJob := none, freeAfterFill := false })], gens := [], fresh := 1, freed := [] } } },
      { fn := 64, q := 0, cid := 5, ordered := false, rsvd := 0, params := [65536] }, 0,
      { 
        state := BufState.live, chan := 0, chanHandle := 536871168, fn := 64, plots := [0, 1], size := 98304, fences := 0, toFill := [],
        allocJob := none, freeJob := none, freeAfterFill := false }, inv_of (by decide +kernel), except_of (by decide +kernel), by decide +kernel⟩,
    ⟨
      { State.reset with
        regs := [(68, 0x00000017#32), (262152, 0x00000001#32), (266248, 0x00000001#32)],
        pool := { State.reset.pool with
          bufs := { 
            used := [
              (
                0,
                { 
                  state := BufState.live, chan := 0, chanHandle := 536871168, fn := 64, plots := [0, 1], size := 98304, fences := 1, toFill := [],
                  allocJob := none, freeJob := none, freeAfterFill := false })], gens := [], fresh := 1, freed := [] } } },
      { fn := 64, q := 0, cid := 5, ordered := false, rsvd := 0, params := [65536] }, 0,
      { 
        state := BufState.live, chan := 0, chanHandle := 536871168, fn := 64, plots := [0, 1], size := 98304, fences := 1, toFill := [],
        allocJob := none, freeJob := none, freeAfterFill := false }, inv_of (by decide +kernel), except_of (by decide +kernel), by decide +kernel⟩,
    ⟨
      { State.reset with
        regs := [(68, 0x00000017#32), (262152, 0x00000001#32), (266248, 0x00000001#32)],
        pool := { State.reset.pool with
          bufs := { 
            used := [
              (
                0,
                { 
                  state := BufState.live, chan := 0, chanHandle := 536871168, fn := 64, plots := [0, 1], size := 98304, fences := 0, toFill := [],
                  allocJob := none, freeJob := none, freeAfterFill := false })], gens := [], fresh := 1, freed := [] } } },
      { fn := 64, q := 0, cid := 5, ordered := false, rsvd := 0, params := [65536] }, 0,
      { 
        state := BufState.live, chan := 0, chanHandle := 536871168, fn := 64, plots := [0, 1], size := 98304, fences := 0, toFill := [],
        allocJob := none, freeJob := none, freeAfterFill := false }, inv_of (by decide +kernel), except_of (by decide +kernel), by decide +kernel⟩⟩

/-- States and operands that meet the hypotheses of PlotFill, clause by clause. -/
theorem witness_PlotFill :
    (∃ (s : State) (i : Nat) (p : Nat) (rest : List Nat) (ps : List Nat) (b : Buf), Inv s ∧ s.pool.fillQueue = i :: rest ∧ s.buf i = some b ∧ b.toFill
      = p :: ps ∧ ps ≠ [])
      ∧ (∃ (s : State) (i : Nat) (p : Nat) (jid : Nat) (rest : List Nat) (b : Buf) (j : Job), Inv s ∧ s.pool.fillQueue = i :: rest ∧ s.buf i = some b
        ∧ b.toFill = [p] ∧ b.freeAfterFill = false ∧ s.mirrors = false ∧ b.allocJob = some jid ∧ s.awaits jid j = true) :=
  ⟨⟨
      { State.reset with
        pool := { State.reset.pool with
          bufs := { 
            used := [
              (
                0,
                { 
                  state := BufState.filling, chan := 0, chanHandle := 536871168, fn := 64, plots := [0, 1], size := 98304, fences := 0,
                  toFill := [0, 1], allocJob := some 1, freeJob := none, freeAfterFill := false })], gens := [], fresh := 1, freed := [] },
          fillQueue := [0] } }, 0, 0, [], [1],
      { 
        state := BufState.filling, chan := 0, chanHandle := 536871168, fn := 64, plots := [0, 1], size := 98304, fences := 0, toFill := [0, 1],
        allocJob := some 1, freeJob := none, freeAfterFill := false }, inv_of (by decide +kernel), by decide +kernel⟩,
    ⟨
      { State.reset with
        pool := { State.reset.pool with
          bufs := { 
            used := [
              (
                0,
                { 
                  state := BufState.filling, chan := 0, chanHandle := 536871168, fn := 64, plots := [0, 1], size := 98304, fences := 0, toFill := [1],
                  allocJob := some 1, freeJob := none, freeAfterFill := false })], gens := [], fresh := 1, freed := [] }, fillQueue := [0] },
        hosts := { State.reset.hosts with
          queues := [],
          jobs := [{ jid := 1, fn := 64, q := 0, cid := 5, opcode := 3, params := [536871168, 98304], sqHead := 0, stage := JobStage.fetched }],
          nextJid := 2 } }, 0, 1, 1, [],
      { 
        state := BufState.filling, chan := 0, chanHandle := 536871168, fn := 64, plots := [0, 1], size := 98304, fences := 0, toFill := [1],
        allocJob := some 1, freeJob := none, freeAfterFill := false },
      { jid := 1, fn := 64, q := 0, cid := 5, opcode := 3, params := [536871168, 98304], sqHead := 0, stage := JobStage.fetched },
      inv_of (by decide +kernel), by decide +kernel⟩⟩

/-- States and operands that meet the hypotheses of PoolSettings, clause by clause. -/
theorem witness_PoolSettings :
    (∃ (s : State) (w : RegWr), Inv s ∧ s.arrives w .pool = true ∧ w.off % 0x1000 = 0x008 ∧ w.val.toNat = 1 ∧ s.grants (accOf w .pool)
      F.PG_CTRL_ENABLE = true ∧ s.pageGated .pool = false ∧ s.poolRefusal = none ∧ s.edac.plotList = [] ∧ s.edac.bankList = [])
      ∧ (∃ (s : State) (w : RegWr) (code : Nat), Inv s ∧ s.arrives w .pool = true ∧ w.off % 0x1000 = 0x008 ∧ w.val.toNat = 1 ∧ s.grants (accOf w
        .pool) F.PG_CTRL_ENABLE = true ∧ s.pageGated .pool = false ∧ s.poolRefusal = some code)
      ∧ (∃ (s : State) (w : RegWr) (f : Nat), Inv s ∧ s.arrives w .pool = true ∧ w.off % 0x1000 = F.POOL_FN_QUOTA_QUOTA.off ∧ s.secretPage (accOf w
        .pool) = false ∧ s.flag .pool F.PG_CTRL_LOCK = false ∧ s.fld .pool F.POOL_FN_SEL_FUNCTION = f ∧ isHolder f = true ∧ s.share f ≤ bits 20 0
        w.val.toNat)
      ∧ (∃ (s : State) (w : RegWr) (f : Nat), Inv s ∧ s.arrives w .pool = true ∧ w.off % 0x1000 = F.POOL_FN_SHARE_SHARE.off ∧ s.secretPage (accOf w
        .pool) = false ∧ s.flag .pool F.PG_CTRL_LOCK = false ∧ s.fld .pool F.POOL_FN_SEL_FUNCTION = f ∧ isHolder f = true ∧ bits 20 0 w.val.toNat ≤
        s.quota f ∧ (bits 20 0 w.val.toNat ≤ s.share f ∨ s.shareSum - s.share f + bits 20 0 w.val.toNat ≤ s.poolPlots - s.pool.plots.retired.length))
      ∧ (∃ (s : State) (w : RegWr) (f : Nat), Inv s ∧ s.arrives w .chn = true ∧ w.off % 0x1000 = F.CHN_FN_LIMIT_LIMIT.off ∧ s.secretPage (accOf w
        .chn) = false ∧ s.flag .chn F.PG_CTRL_LOCK = false ∧ s.fld .chn F.CHN_FN_SEL_FUNCTION = f ∧ isHolder f = true ∧ bits 8 0 w.val.toNat ≤ 256)
      ∧ (∃ (s : State) (w : RegWr), Inv s ∧ s.arrives w .pool = true ∧ w.off % 0x1000 = F.POOL_LOW_MARK_MARK.off ∧ s.secretPage (accOf w .pool) =
        false ∧ s.flag .pool F.PG_CTRL_LOCK = false)
      ∧ (∃ (s : State) (w : RegWr) (f : Nat), Inv s ∧ s.arrives w .pool = true ∧ w.off % 0x1000 = F.POOL_FN_PEAK_CLEAR.off ∧ s.secretPage (accOf w
        .pool) = false ∧ s.fld .pool F.POOL_FN_SEL_FUNCTION = f ∧ isHolder f = true ∧ bits F.POOL_FN_PEAK_CLEAR.hi F.POOL_FN_PEAK_CLEAR.lo w.val.toNat
        = 1)
      ∧ (∃ (s : State) (w : RegWr) (f : Nat), Inv s ∧ s.arrives w .pool = true ∧ w.off % 0x1000 = F.POOL_FN_QUOTA_QUOTA.off ∧ s.grants (accOf w .pool)
        F.POOL_FN_QUOTA_QUOTA = true ∧ s.fld .pool F.POOL_FN_SEL_FUNCTION = f ∧ (isHolder f = false ∨ bits 20 0 w.val.toNat < s.share f))
      ∧ (∃ (s : State) (w : RegWr) (f : Nat) (code : Nat), Inv s ∧ s.arrives w .pool = true ∧ w.off % 0x1000 = F.POOL_FN_SHARE_SHARE.off ∧ s.grants
        (accOf w .pool) F.POOL_FN_SHARE_SHARE = true ∧ s.fld .pool F.POOL_FN_SEL_FUNCTION = f ∧ (if isHolder f = false ∨ s.quota f < bits 20 0
        w.val.toNat then code = 0x0006 else s.share f < bits 20 0 w.val.toNat ∧ s.poolPlots - s.pool.plots.retired.length < s.shareSum - s.share f +
        bits 20 0 w.val.toNat ∧ code = 0x0604))
      ∧ (∃ (s : State) (w : RegWr) (f : Nat), Inv s ∧ s.arrives w .chn = true ∧ w.off % 0x1000 = F.CHN_FN_LIMIT_LIMIT.off ∧ s.grants (accOf w .chn)
        F.CHN_FN_LIMIT_LIMIT = true ∧ s.fld .chn F.CHN_FN_SEL_FUNCTION = f ∧ (isHolder f = false ∨ 256 < bits 8 0 w.val.toNat)) :=
  ⟨⟨{ State.reset with regs := [(131136, 0x08000000#32), (266304, 0x08000000#32), (266312, 0x00000008#32), (589888, 0x00000003#32)] },
      { req := { fn := 64, secure := false }, win := Window.pf, off := 266248, be := 0xf#4, val := 0x00000001#32 }, inv_of (by decide +kernel),
      by decide +kernel⟩,
    ⟨State.reset, { req := { fn := 64, secure := false }, win := Window.pf, off := 266248, be := 0xf#4, val := 0x00000001#32 }, 4865,
      inv_of (by decide +kernel), by decide +kernel⟩,
    ⟨{ State.reset with regs := [(266332, 0x00000003#32)] },
      { req := { fn := 64, secure := false }, win := Window.pf, off := 266336, be := 0xf#4, val := 0x00000006#32 }, 3, inv_of (by decide +kernel),
      by decide +kernel⟩,
    ⟨{ State.reset with regs := [(266312, 0x00000002#32), (266332, 0x00000040#32)] },
      { req := { fn := 64, secure := false }, win := Window.pf, off := 266340, be := 0xf#4, val := 0x00000002#32 }, 64, inv_of (by decide +kernel),
      by decide +kernel⟩,
    ⟨{ State.reset with regs := [(262228, 0x00000040#32)] },
      { req := { fn := 64, secure := false }, win := Window.pf, off := 262232, be := 0xf#4, val := 0x00000006#32 }, 64, inv_of (by decide +kernel),
      by decide +kernel⟩,
    ⟨State.reset, { req := { fn := 64, secure := false }, win := Window.pf, off := 266328, be := 0xf#4, val := 0x00000009#32 },
      inv_of (by decide +kernel), by decide +kernel⟩,
    ⟨{ State.reset with regs := [(266332, 0x00000040#32)] },
      { req := { fn := 64, secure := false }, win := Window.pf, off := 266348, be := 0xf#4, val := 0x80000000#32 }, 64, inv_of (by decide +kernel),
      by decide +kernel⟩,
    ⟨{ State.reset with regs := [(266332, 0x00000055#32)] },
      { req := { fn := 64, secure := false }, win := Window.pf, off := 266336, be := 0xf#4, val := 0x00000002#32 }, 85, inv_of (by decide +kernel),
      by decide +kernel⟩,
    ⟨{ State.reset with regs := [(266332, 0x00000040#32)] },
      { req := { fn := 64, secure := false }, win := Window.pf, off := 266340, be := 0xf#4, val := 0x00000009#32 }, 64, 1540,
      inv_of (by decide +kernel), by decide +kernel⟩,
    ⟨{ State.reset with regs := [(262228, 0x00000040#32)] },
      { req := { fn := 64, secure := false }, win := Window.pf, off := 262232, be := 0xf#4, val := 0x00000101#32 }, 64, inv_of (by decide +kernel),
      by decide +kernel⟩⟩

/-- States and operands that meet the hypotheses of WorldRegisters, clause by clause. -/
theorem witness_WorldRegisters :
    (∃ (s : State) (w : RegWr), Inv s ∧ s.arrives w .wld = true ∧ w.off % 0x1000 = 0x044 ∧ w.req.secure = true ∧ bit 31 w.val.toNat = true ∧ s.flag
      .wld F.WLD_WMARK_HI_SET = false)
      ∧ (∃ (s : State) (w : RegWr), Inv s ∧ s.arrives w .wld = true ∧ w.off % 0x1000 = 0x044 ∧ w.req.secure = true ∧ s.flag .wld F.WLD_WMARK_HI_SET =
        true ∧ s.writesAny (accOf w .wld) = true)
      ∧ (∃ (s : State) (w : RegWr), Inv s ∧ s.arrives w .wld = true ∧ w.off % 0x1000 = 0x04C ∧ bit 31 w.val.toNat = true ∧ s.grants (accOf w .wld)
        F.WLD_DENY_ATTR_CLEAR = true)
      ∧ (∃ (s : State) (w : RegWr), Inv s ∧ s.arrives w .wld = true ∧ w.off % 0x1000 = 0x060 ∧ w.req.secure = true)
      ∧ (∃ (s : State) (w : RegWr), Inv s ∧ s.arrives w .pmc = true ∧ w.off % 0x1000 = 0x040 ∧ bit 1 w.val.toNat = true ∧ s.secretPage (accOf w .pmc)
        = false) :=
  ⟨⟨State.reset, { req := { fn := 65, secure := true }, win := Window.pf, off := 131140, be := 0xf#4, val := 0x80000003#32 },
      inv_of (by decide +kernel), by decide +kernel⟩,
    ⟨{ State.reset with regs := [(131140, 0x80000000#32)] },
      { req := { fn := 65, secure := true }, win := Window.pf, off := 131140, be := 0xf#4, val := 0x00000003#32 }, inv_of (by decide +kernel),
      by decide +kernel⟩,
    ⟨State.reset, { req := { fn := 64, secure := false }, win := Window.pf, off := 131148, be := 0xf#4, val := 0x80000000#32 },
      inv_of (by decide +kernel), by decide +kernel⟩,
    ⟨State.reset, { req := { fn := 65, secure := true }, win := Window.pf, off := 131168, be := 0xf#4, val := 0x00010003#32 },
      inv_of (by decide +kernel), by decide +kernel⟩,
    ⟨State.reset, { req := { fn := 64, secure := false }, win := Window.pf, off := 3211328, be := 0xf#4, val := 0x00000002#32 },
      inv_of (by decide +kernel), by decide +kernel⟩⟩

/-- States and operands that meet the hypotheses of Gate, clause by clause. -/
theorem witness_Gate :
    (∃ (s : State) (k : Nat) (addr : Nat) (jid : Option Nat), Inv s ∧ k < 4 ∧ (s.core k).inSecure = false ∧ addr ∈ s.worlds.gateTable)
      ∧ (∃ (s : State) (k : Nat) (addr : Nat) (jid : Option Nat), Inv s ∧ k < 4 ∧ (s.core k).inSecure = false ∧ addr ∉ s.worlds.gateTable)
      ∧ (∃ (s : State) (k : Nat) (addr : Nat) (j : Nat) (job : Job), Inv s ∧ k < 4 ∧ (s.core k).inSecure = false ∧ addr ∉ s.worlds.gateTable ∧
        s.awaits j job = true)
      ∧ (∃ (s : State) (k : Nat) (r0 : Nat) (r1 : Nat), Inv s ∧ k < 4 ∧ (s.core k).inSecure = true)
      ∧ (∃ (s : State) (k : Nat), Inv s ∧ k < 4 ∧ (s.core k).inSecure = true) :=
  ⟨⟨{ State.reset with worlds := { State.reset.worlds with gateTable := [512] } }, 2, 512, none, inv_of (by decide +kernel), by decide +kernel⟩,
    ⟨State.reset, 2, 513, none, inv_of (by decide +kernel), by decide +kernel⟩,
    ⟨
      { State.reset with
        hosts := { State.reset.hosts with
          jobs := [{ jid := 50, fn := 64, q := 0, cid := 3, opcode := 127, params := [], sqHead := 0, stage := JobStage.fetched }], nextJid := 60 } },
      2, 768, 50, { jid := 50, fn := 64, q := 0, cid := 3, opcode := 127, params := [], sqHead := 0, stage := JobStage.fetched },
      inv_of (by decide +kernel), by decide +kernel⟩,
    ⟨
      { State.reset with
        worlds := { State.reset.worlds with cores := [(2, { inSecure := true, since := 0, result0 := 0, result1 := 0, scrubbed := false })] } }, 2, 5,
      6, inv_of (by decide +kernel), by decide +kernel⟩,
    ⟨
      { State.reset with
        worlds := { State.reset.worlds with cores := [(2, { inSecure := true, since := 0, result0 := 0, result1 := 0, scrubbed := false })] } }, 2,
      inv_of (by decide +kernel), by decide +kernel⟩⟩

/-- States and operands that meet the hypotheses of GroupWake, clause by clause. -/
theorem witness_GroupWake :
    (∃ (s : State) (g : Nat), Inv s ∧ g < 25 ∧ g ∈ s.worlds.waking ∧ s.asleep = false ∧ (∀ p ∈ s.worlds.waitingSecure, p.1 ≠ g))
      ∧ (∃ (s : State) (g : Nat) (x : Waiting) (i : Instr), Inv s ∧ g < 25 ∧ g ∈ s.worlds.waking ∧ s.asleep = false ∧ s.worlds.waitingSecure = [(g,
        x)] ∧ (match x with | .write w => i = .registerWrite w | .read r => i = .counterLoRead r | .dram q => i = .dramRequest q)) :=
  ⟨⟨{ State.reset with worlds := { State.reset.worlds with waking := [0] } }, 0, inv_of (by decide +kernel), by decide +kernel⟩,
    ⟨
      { State.reset with
        worlds := { State.reset.worlds with
          waking := [16],
          waitingSecure := [
            (16, Waiting.write { req := { fn := 65, secure := true }, win := Window.pf, off := 2621460, be := 0xf#4, val := 0x00000003#32 })] } }, 16,
      Waiting.write { req := { fn := 65, secure := true }, win := Window.pf, off := 2621460, be := 0xf#4, val := 0x00000003#32 },
      Instr.registerWrite { req := { fn := 65, secure := true }, win := Window.pf, off := 2621460, be := 0xf#4, val := 0x00000003#32 },
      inv_of (by decide +kernel), by decide +kernel⟩⟩

/-- States and operands that meet the hypotheses of QueueRegisters, clause by clause. -/
theorem witness_QueueRegisters :
    (∃ (s : State) (w : RegWr) (pg : Page) (f : Nat) (q : Nat), Inv s ∧ s.arrives w pg = true ∧ queueWord (accOf w pg) = some (f, q, 0x14) ∧ bit 0
      w.val.toNat = true ∧ s.secretPage (accOf w pg) = false ∧ (s.queue f q).state = .idle ∧ s.qf f q F.Q_CTRL_ENABLE = 0 ∧ 2 ≤ s.sqSize f q ∧
      s.sqSize f q ≤ 4096 ∧ 2 ≤ s.cqSize f q ∧ s.cqSize f q ≤ 4096 ∧ bits 7 2 w.val.toNat < State.vectors f)
      ∧ (∃ (s : State) (w : RegWr) (pg : Page) (f : Nat) (q : Nat), Inv s ∧ s.arrives w pg = true ∧ queueWord (accOf w pg) = some (f, q, 0x14) ∧ bit 0
        w.val.toNat = false ∧ s.secretPage (accOf w pg) = false ∧ s.qf f q F.Q_CTRL_ENABLE = 1 ∧ ((s.queue f q).state = .running ∨ (s.queue f q).state
        = .error))
      ∧ (∃ (s : State) (w : RegWr) (pg : Page) (f : Nat) (q : Nat), Inv s ∧ s.arrives w pg = true ∧ queueWord (accOf w pg) = some (f, q, 0x20) ∧
        s.secretPage (accOf w pg) = false ∧ s.fnState f ≠ .resetting ∧ s.power.state ≠ .fallow ∧ (s.queue f q).state = .running ∧ w.val.toNat % 4096 <
        s.sqSize f q ∧ (w.val.toNat % 4096 + s.sqSize f q - (s.queue f q).sqTail) % s.sqSize f q ≤ s.sqFree f q)
      ∧ (∃ (s : State) (w : RegWr) (pg : Page) (f : Nat) (q : Nat), Inv s ∧ s.arrives w pg = true ∧ queueWord (accOf w pg) = some (f, q, 0x20) ∧
        s.secretPage (accOf w pg) = false ∧ s.fnState f ≠ .resetting ∧ s.power.state ≠ .fallow ∧ (s.queue f q).state = .running ∧ w.val.toNat % 4096 <
        s.sqSize f q ∧ s.sqFree f q < (w.val.toNat % 4096 + s.sqSize f q - (s.queue f q).sqTail) % s.sqSize f q)
      ∧ (∃ (s : State) (w : RegWr) (pg : Page) (f : Nat) (q : Nat), Inv s ∧ s.arrives w pg = true ∧ queueWord (accOf w pg) = some (f, q, 0x20) ∧
        s.secretPage (accOf w pg) = false ∧ s.fnState f ≠ .resetting ∧ s.power.state ≠ .fallow ∧ (s.queue f q).state = .idle)
      ∧ (∃ (s : State) (w : RegWr) (pg : Page) (f : Nat) (q : Nat), Inv s ∧ s.arrives w pg = true ∧ queueWord (accOf w pg) = some (f, q, 0x24) ∧
        s.secretPage (accOf w pg) = false ∧ s.fnState f ≠ .resetting ∧ ((s.queue f q).state = .running ∨ (s.queue f q).state = .draining ∧
        s.uncompleted f q ≠ 0) ∧ (s.queue f q).held = [] ∧ w.val.toNat % 4096 < s.cqSize f q ∧ (w.val.toNat % 4096 + s.cqSize f q - (s.queue f
        q).cqHead) % s.cqSize f q ≤ s.unconsumed f q)
      ∧ (∃ (s : State) (w : RegWr) (pg : Page) (f : Nat) (q : Nat), Inv s ∧ s.arrives w pg = true ∧ queueWord (accOf w pg) = some (f, q, 0x24) ∧
        s.secretPage (accOf w pg) = false ∧ s.fnState f ≠ .resetting ∧ (s.queue f q).state = .running ∧ s.cqSize f q ≤ w.val.toNat % 4096)
      ∧ (∃ (s : State) (w : RegWr) (pg : Page) (f : Nat) (q : Nat) (e : CqEntry), Inv s ∧ s.arrives w pg = true ∧ queueWord (accOf w pg) = some (f, q,
        0x24) ∧ s.secretPage (accOf w pg) = false ∧ s.fnState f ≠ .resetting ∧ (s.queue f q).state = .running ∧ (s.queue f q).held = [e] ∧ e.fin =
        true ∧ w.val.toNat % 4096 < s.cqSize f q ∧ (s.queue f q).cqTail < s.cqSize f q ∧ w.val.toNat % 4096 = (s.queue f q).cqTail ∧ 1 < s.cqSize f q)
      ∧ (∃ (s : State) (w : RegWr) (pg : Page) (f : Nat) (q : Nat), Inv s ∧ s.arrives w pg = true ∧ queueWord (accOf w pg) = some (f, q, 0x20) ∧
        s.secretPage (accOf w pg) = false ∧ s.fnState f ≠ .resetting ∧ s.power.state = .fallow)
      ∧ (∃ (s : State) (w : RegWr) (pg : Page) (f : Nat) (q : Nat) (o : Nat) (i : Instr), Inv s ∧ s.arrives w pg = true ∧ queueWord (accOf w pg) =
        some (f, q, o) ∧ (i, o) ∈ [(Instr.sqDoorbell w, 0x20), (.cqDoorbell w, 0x24)] ∧ s.secretPage (accOf w pg) = true ∧ s.writesAny (accOf w pg) =
        true) :=
  ⟨⟨{ State.reset with regs := [(68, 0x00000017#32), (16785744, 0x00100008#32)] },
      { req := { fn := 2, secure := false }, win := Window.vf, off := 340, be := 0xf#4, val := 0x0002030d#32 }, Page.vf 2, 2, 1,
      inv_of (by decide +kernel), by decide +kernel⟩,
    ⟨
      { State.reset with
        regs := [(68, 0x00000017#32), (16785748, 0x0002030d#32)],
        hosts := { State.reset.hosts with queues := [(17, { idleQueue with state := QState.running })] } },
      { req := { fn := 2, secure := false }, win := Window.vf, off := 340, be := 0xf#4, val := 0#32 }, Page.vf 2, 2, 1, inv_of (by decide +kernel),
      by decide +kernel⟩,
    ⟨
      { State.reset with
        regs := [(68, 0x00000017#32), (16785744, 0x00100008#32)],
        hosts := { State.reset.hosts with queues := [(17, { idleQueue with state := QState.running })] } },
      { req := { fn := 2, secure := false }, win := Window.vf, off := 352, be := 0xf#4, val := 0x00000005#32 }, Page.vf 2, 2, 1,
      inv_of (by decide +kernel), by decide +kernel⟩,
    ⟨
      { State.reset with
        regs := [(68, 0x00000017#32), (16785744, 0x00100008#32)],
        hosts := { State.reset.hosts with queues := [(17, { idleQueue with state := QState.running, sqTail := 5 })] } },
      { req := { fn := 2, secure := false }, win := Window.vf, off := 352, be := 0xf#4, val := 0x00000004#32 }, Page.vf 2, 2, 1,
      inv_of (by decide +kernel), by decide +kernel⟩,
    ⟨{ State.reset with regs := [(68, 0x00000017#32)] },
      { req := { fn := 2, secure := false }, win := Window.vf, off := 352, be := 0xf#4, val := 0x00000005#32 }, Page.vf 2, 2, 1,
      inv_of (by decide +kernel), by decide +kernel⟩,
    ⟨
      { State.reset with
        regs := [(68, 0x00000017#32), (16785744, 0x00100008#32)],
        hosts := { State.reset.hosts with queues := [(17, { idleQueue with state := QState.running, cqTail := 1 })] } },
      { req := { fn := 2, secure := false }, win := Window.vf, off := 356, be := 0xf#4, val := 0x00000001#32 }, Page.vf 2, 2, 1,
      inv_of (by decide +kernel), by decide +kernel⟩,
    ⟨
      { State.reset with
        regs := [(68, 0x00000017#32)], hosts := { State.reset.hosts with queues := [(17, { idleQueue with state := QState.running })] } },
      { req := { fn := 2, secure := false }, win := Window.vf, off := 356, be := 0xf#4, val := 0x00000010#32 }, Page.vf 2, 2, 1,
      inv_of (by decide +kernel), by decide +kernel⟩,
    ⟨
      { State.reset with
        regs := [(68, 0x00000017#32), (16785744, 0x00100008#32)],
        hosts := { State.reset.hosts with
          queues := [
            (
              17,
              { idleQueue with state := QState.running, cqTail := 3, held := [{ cid := 9, status := 0, sqHead := 1, fin := true, res := [1, 2] }] })] } },
      { req := { fn := 2, secure := false }, win := Window.vf, off := 356, be := 0xf#4, val := 0x00000003#32 }, Page.vf 2, 2, 1,
      { cid := 9, status := 0, sqHead := 1, fin := true, res := [1, 2] }, inv_of (by decide +kernel), by decide +kernel⟩,
    ⟨{ State.reset with regs := [(68, 0x00000017#32)], power := { State.reset.power with state := PowerState.fallow } },
      { req := { fn := 2, secure := false }, win := Window.vf, off := 352, be := 0xf#4, val := 0x00000005#32 }, Page.vf 2, 2, 1,
      inv_of (by decide +kernel), by decide +kernel⟩,
    ⟨{ State.reset with regs := [(68, 0x00000017#32), (196652, 0x80410000#32)] },
      { req := { fn := 0, secure := false }, win := Window.pf, off := 197152, be := 0xf#4, val := 0x00000005#32 }, Page.hp 0, 0, 0, 32,
      Instr.sqDoorbell { req := { fn := 0, secure := false }, win := Window.pf, off := 197152, be := 0xf#4, val := 0x00000005#32 },
      inv_of (by decide +kernel), by decide +kernel⟩⟩

/-- States and operands that meet the hypotheses of FetchAndSimpleCommands, clause by clause. -/
theorem witness_FetchAndSimpleCommands :
    (∃ (s : State) (p : Nat) (f : Nat) (q : Nat) (ws : List Word32), Inv s ∧ s.fetchOn p = true ∧ s.waitingFns p = [f] ∧ s.weight f ≠ 0 ∧ s.due
      (s.round p) f ≠ 0 ∧ s.waitingQueues f = [q] ∧ (s.queue f q).held = [] ∧ (entryArgs f q ws).1 = 0 ∧ (entryArgs f q ws).2.ordered = false ∧
      (entryArgs f q ws).2.rsvd = 0 ∧ (entryArgs f q ws).2.params.all (· == 0) = true)
      ∧ (∃ (s : State) (p : Nat) (f : Nat) (q : Nat) (ws : List Word32), s.fetchOn p = true ∧ s.waitingFns p = [f] ∧ s.weight f ≠ 0 ∧ s.due (s.round
        p) f ≠ 0 ∧ s.waitingQueues f = [q] ∧ (entryArgs f q ws).2.ordered = true ∧ s.uncompleted f q ≠ 0)
      ∧ (∃ (s : State) (c : CmdArgs) (ws : List Word32), Inv s ∧ s.coreFetchOn = true ∧ s.hosts.coreEntries = [(0x00, c)] ∧ isCore c.fn = true ∧
        c.ordered = false ∧ c.rsvd = 0 ∧ c.params.all (· == 0) = true ∧ s.posts c.fn c.q = true)
      ∧ (∃ (s : State) (c : CmdArgs), s.entryWaits c = true)
      ∧ (∃ (s : State) (c : CmdArgs), Inv s ∧ s.accepts 0x00 c = true ∧ s.posts c.fn c.q = true)
      ∧ (∃ (s : State) (c : CmdArgs), Inv s ∧ s.accepts 0x41 c = true ∧ s.posts c.fn c.q = true ∧ (isPf (c.params.getD 0 0) = true ∨ isVf
        (c.params.getD 0 0) = true) ∧ c.params.getD 0 0 ≠ c.fn)
      ∧ (∃ (s : State) (c : CmdArgs), Inv s ∧ s.entryWaits c = false ∧ s.ready = true ∧ s.posts c.fn c.q = true ∧ c.fn ≠ s.manager)
      ∧ (∃ (s : State) (c : CmdArgs), Inv s ∧ s.entryWaits c = false ∧ s.ready = false ∧ s.posts c.fn c.q = true) :=
  ⟨⟨
      { State.reset with
        regs := [(196672, 0x00000084#32), (16785744, 0x00100008#32)],
        hosts := { State.reset.hosts with
          queues := [(17, { idleQueue with state := QState.running, sqHead := 1 })], fns := [(2, { absentFn with state := FnState.enabled })] } }, 0,
      2, 1, [0x00070000#32, 0#32, 0#32, 0#32, 0#32, 0#32, 0#32, 0#32, 0#32, 0#32, 0#32, 0#32, 0#32, 0#32, 0#32, 0#32], inv_of (by decide +kernel),
      by decide +kernel⟩,
    ⟨
      { State.reset with
        regs := [(196672, 0x00000084#32), (16785744, 0x00100008#32)],
        hosts := { State.reset.hosts with
          queues := [(17, { idleQueue with state := QState.running, sqHead := 1 })], fns := [(2, { absentFn with state := FnState.enabled })],
          jobs := [{ jid := 50, fn := 2, q := 1, cid := 3, opcode := 16, params := [], sqHead := 0, stage := JobStage.fetched }] } }, 0, 2, 1,
      [0x00070100#32, 0#32, 0#32, 0#32, 0#32, 0#32, 0#32, 0#32, 0#32, 0#32, 0#32, 0#32, 0#32, 0#32, 0#32, 0#32], by decide +kernel⟩,
    ⟨
      { State.reset with
        hosts := { State.reset.hosts with coreEntries := [(0, { fn := 64, q := 0, cid := 5, ordered := false, rsvd := 0, params := [] })] } },
      { fn := 64, q := 0, cid := 5, ordered := false, rsvd := 0, params := [] },
      [0x00070000#32, 0#32, 0#32, 0#32, 0#32, 0#32, 0#32, 0#32, 0#32, 0#32, 0#32, 0#32, 0#32, 0#32, 0#32, 0#32], inv_of (by decide +kernel),
      by decide +kernel⟩,
    ⟨
      { State.reset with
        hosts := { State.reset.hosts with coreEntries := [(0, { fn := 64, q := 0, cid := 5, ordered := false, rsvd := 0, params := [] })] } },
      { fn := 64, q := 0, cid := 5, ordered := false, rsvd := 0, params := [] }, by decide +kernel⟩,
    ⟨
      { State.reset with
        regs := [(16785744, 0x00100008#32)], hosts := { State.reset.hosts with queues := [(17, { idleQueue with state := QState.running })] } },
      { fn := 2, q := 1, cid := 5, ordered := false, rsvd := 0, params := [] }, inv_of (by decide +kernel), by decide +kernel⟩,
    ⟨
      { State.reset with
        regs := [(68, 0x00000017#32), (197136, 0x00100008#32)],
        hosts := { State.reset.hosts with queues := [(0, { idleQueue with state := QState.running })] } },
      { fn := 0, q := 0, cid := 5, ordered := false, rsvd := 0, params := [2] }, inv_of (by decide +kernel), by decide +kernel⟩,
    ⟨
      { State.reset with
        regs := [(68, 0x00000017#32), (16785744, 0x00100008#32)],
        hosts := { State.reset.hosts with queues := [(17, { idleQueue with state := QState.running })] } },
      { fn := 2, q := 1, cid := 5, ordered := false, rsvd := 0, params := [1] }, inv_of (by decide +kernel), by decide +kernel⟩,
    ⟨
      { State.reset with
        regs := [(16785744, 0x00100008#32)], hosts := { State.reset.hosts with queues := [(17, { idleQueue with state := QState.running })] } },
      { fn := 2, q := 1, cid := 5, ordered := false, rsvd := 0, params := [1] }, inv_of (by decide +kernel), by decide +kernel⟩⟩

/-- States and operands that meet the hypotheses of HostPortEvents, clause by clause. -/
theorem witness_HostPortEvents :
    (∃ (s : State) (f : Nat) (rid : Nat) (off : Nat) (v : Word32), Inv s ∧ (isPf f = true ∨ isVf f = true) ∧ s.flag (.hp (portOf f))
      F.HP_HOST_RID_VALID = true ∧ s.fld (.hp (portOf f)) F.HP_HOST_RID_RID ≠ rid ∧ off < 0x100)
      ∧ (∃ (s : State) (f : Nat) (rid : Nat) (off : Nat), s.flag (.hp (portOf f)) F.HP_HOST_RID_VALID = true ∧ s.fld (.hp (portOf f))
        F.HP_HOST_RID_RID ≠ rid)
      ∧ (∃ (s : State) (f : Nat) (rid : Nat) (q : Nat) (tail : Nat), isVf f = true ∧ q < 4 ∧ s.flag (.hp (portOf f)) F.HP_HOST_RID_VALID = true ∧
        s.fld (.hp (portOf f)) F.HP_HOST_RID_RID ≠ rid ∧ tail < 4096 ∧ s.fnState f ≠ .resetting ∧ s.power.state ≠ .fallow ∧ (s.queue f q).state =
        .running ∧ tail < s.sqSize f q ∧ (tail + s.sqSize f q - (s.queue f q).sqTail) % s.sqSize f q ≤ s.sqFree f q)
      ∧ (∃ (s : State) (w : RegWr) (p : Nat), Inv s ∧ p < 2 ∧ s.arrives w (.hp p) = true ∧ w.off % 0x1000 = F.HP_MGR_ROLE.off ∧ w.req.secure = true ∧
        s.flag (.hp p) F.HP_MGR_ROLE = false ∧ bit 0 w.val.toNat = true)
      ∧ (∃ (s : State) (f : Nat) (q : Nat), isCore f = false ∧ (s.queue f q).unsignalled ≠ 0 ∧ (s.queue f q).oldest + 1000 * s.qf f q
        F.Q_CTRL_COAL_TIME ≤ s.now)
      ∧ (∃ (s : State) (f : Nat) (vec : Nat), vec < State.vectors f ∧ f ≠ 0x40 ∧ f ≠ 0x41 ∧ s.fnState f = .enabled) :=
  ⟨⟨{ State.reset with regs := [(196688, 0x00010100#32)] }, 2, 512, 128, 0x00000005#32, inv_of (by decide +kernel), by decide +kernel⟩,
    ⟨{ State.reset with regs := [(196688, 0x00010100#32)] }, 2, 512, 128, by decide +kernel⟩,
    ⟨
      { State.reset with
        regs := [(196688, 0x00010100#32), (16785744, 0x00100008#32)],
        hosts := { State.reset.hosts with queues := [(17, { idleQueue with state := QState.running, sqTail := 3 })] } }, 2, 512, 1, 4,
      by decide +kernel⟩,
    ⟨State.reset, { req := { fn := 65, secure := true }, win := Window.pf, off := 200780, be := 0xf#4, val := 0x00000001#32 }, 1,
      inv_of (by decide +kernel), by decide +kernel⟩,
    ⟨{ State.reset with hosts := { State.reset.hosts with queues := [(17, { idleQueue with unsignalled := 1 })] } }, 2, 1, by decide +kernel⟩,
    ⟨{ State.reset with hosts := { State.reset.hosts with fns := [(2, { absentFn with state := FnState.enabled })] } }, 2, 3, by decide +kernel⟩⟩

/-- States and operands that meet the hypotheses of FunctionResetStart, clause by clause. -/
theorem witness_FunctionResetStart :
    (∃ (s : State) (f : Nat), Inv s ∧ isVf f = true ∧ s.fnState f = .enabled)
      ∧ (∃ (s : State) (f : Nat), Inv s ∧ isVf f = true ∧ s.fnState f = .resetting)
      ∧ (∃ (s : State) (f : Nat), Inv s ∧ isPf f = true ∧ s.fnState f = .enabled)
      ∧ (∃ (s : State) (p : Nat), Inv s ∧ p < 2)
      ∧ (∃ (s : State) (c : CmdArgs), Inv s ∧ s.accepts 0x40 c = true ∧ (isPf (c.params.getD 0 0) = true ∨ isVf (c.params.getD 0 0) = true) ∧
        c.params.getD 0 0 ≠ c.fn ∧ s.fnState (c.params.getD 0 0) = .enabled)
      ∧ (∃ (s : State) (c : CmdArgs), Inv s ∧ s.accepts 0x40 c = true ∧ s.posts c.fn c.q = true ∧ (isPf (c.params.getD 0 0) = true ∨ isVf
        (c.params.getD 0 0) = true) ∧ c.params.getD 0 0 ≠ c.fn ∧ s.fnState (c.params.getD 0 0) = .absent ∧ s.holdsPool (c.params.getD 0 0) = false ∧
        (s.fn (c.params.getD 0 0)).step = 0)
      ∧ (∃ (s : State) (w : RegWr) (f : Nat), Inv s ∧ s.arrives w (.vf f) = true ∧ isVf f = true ∧ w.off % 0x1000 = 0x008 ∧ w.val.toNat = 2 + s.fld
        (.vf f) F.PG_CTRL_ENABLE ∧ s.grants (accOf w (.vf f)) F.PG_CTRL_SOFT_RESET = true ∧ s.fnState f = .enabled)
      ∧ (∃ (s : State) (w : RegWr) (p : Nat), Inv s ∧ p < 2 ∧ s.arrives w (.hp p) = true ∧ w.off % 0x1000 = F.HP_PF_RESET_START.off ∧ s.grants (accOf
        w (.hp p)) F.HP_PF_RESET_START = true ∧ s.fnState (0x80 * p) = .enabled)
      ∧ (∃ (s : State) (w : RegWr) (p : Nat), Inv s ∧ p < 2 ∧ s.arrives w (.hp p) = true ∧ w.off % 0x1000 = 0x008 ∧ w.val.toNat = 2 + s.fld (.hp p)
        F.PG_CTRL_ENABLE ∧ s.grants (accOf w (.hp p)) F.PG_CTRL_SOFT_RESET = true ∧ s.pageHeld (accOf w (.hp p)) = none ∧ s.pageArmed (Page.hp p).base
        = false ∧ s.fnState (0x80 * p) = .enabled) :=
  ⟨⟨{ State.reset with hosts := { State.reset.hosts with fns := [(2, { absentFn with state := FnState.enabled })] } }, 2, inv_of (by decide +kernel),
      by decide +kernel⟩,
    ⟨{ State.reset with hosts := { State.reset.hosts with fns := [(2, { absentFn with state := FnState.resetting })] } }, 2,
      inv_of (by decide +kernel), by decide +kernel⟩,
    ⟨{ State.reset with hosts := { State.reset.hosts with fns := [(0, { absentFn with state := FnState.enabled })] } }, 0, inv_of (by decide +kernel),
      by decide +kernel⟩,
    ⟨State.reset, 0, inv_of (by decide +kernel), by decide +kernel⟩,
    ⟨
      { State.reset with
        regs := [(68, 0x00000017#32)], hosts := { State.reset.hosts with fns := [(2, { absentFn with state := FnState.enabled })] } },
      { fn := 0, q := 0, cid := 5, ordered := false, rsvd := 0, params := [2] }, inv_of (by decide +kernel), by decide +kernel⟩,
    ⟨
      { State.reset with
        regs := [(68, 0x00000017#32), (197136, 0x00100008#32)],
        hosts := { State.reset.hosts with queues := [(0, { idleQueue with state := QState.running })] } },
      { fn := 0, q := 0, cid := 5, ordered := false, rsvd := 0, params := [9] }, inv_of (by decide +kernel), by decide +kernel⟩,
    ⟨
      { State.reset with
        regs := [(68, 0x00000017#32), (16785416, 0x00000001#32)],
        hosts := { State.reset.hosts with fns := [(2, { absentFn with state := FnState.enabled })] } },
      { req := { fn := 2, secure := false }, win := Window.vf, off := 8, be := 0xf#4, val := 0x00000003#32 }, 2, inv_of (by decide +kernel),
      by decide +kernel⟩,
    ⟨
      { State.reset with
        regs := [(68, 0x00000017#32)], hosts := { State.reset.hosts with fns := [(0, { absentFn with state := FnState.enabled })] } },
      { req := { fn := 0, secure := false }, win := Window.pf, off := 196716, be := 0xf#4, val := 0x00000001#32 }, 0, inv_of (by decide +kernel),
      by decide +kernel⟩,
    ⟨
      { State.reset with
        regs := [(68, 0x00000017#32)], hosts := { State.reset.hosts with fns := [(0, { absentFn with state := FnState.enabled })] } },
      { req := { fn := 0, secure := false }, win := Window.pf, off := 196616, be := 0xf#4, val := 0x00000003#32 }, 0, inv_of (by decide +kernel),
      by decide +kernel⟩⟩

/-- States and operands that meet the hypotheses of FunctionStates, clause by clause. -/
theorem witness_FunctionStates :
    (∃ (s : State) (f : Nat), Inv s ∧ s.stepsEnded f = true ∧ (s.fn f).linkDown = false ∧ (s.fn f).step = 1 ∧ s.standby = false)
      ∧ (∃ (s : State) (f : Nat), Inv s ∧ s.stepsEnded f = true ∧ (s.fn f).linkDown = true)
      ∧ (∃ (s : State) (f : Nat), Inv s ∧ isVf f = true ∧ (s.fn f).step = 3 ∧ (s.fn f).waiters = [] ∧ (s.fn f).hpPage = false)
      ∧ (∃ (s : State) (f : Nat) (j : Job), Inv s ∧ isVf f = true ∧ (s.fn f).step = 3 ∧ (s.fn f).hostOk = true ∧ (s.fn f).fromHeld = false ∧ (s.fn
        f).fromAbsent = false ∧ j ∈ s.hosts.jobs ∧ j.fn = f ∧ j.stage = .fetched ∧ s.posts f j.q = true)
      ∧ (∃ (s : State) (p : Nat) (speed : Nat) (width : Nat), Inv s ∧ p < 2 ∧ 1 ≤ speed ∧ speed ≤ 5 ∧ width ∈ [1, 2, 4, 8] ∧ s.faults.inReset = false
        ∧ s.faults.recovery = false ∧ s.faults.fatal = none ∧ s.portUp p = false ∧ s.power.state ≠ .off ∧ s.power.state ≠ .stopped ∧ (s.fnState (0x80
        * p) = .absent ∨ s.fnState (0x80 * p) = .held))
      ∧ (∃ (s : State) (p : Nat) (n : Nat), Inv s ∧ p < 2 ∧ n ≤ 63 ∧ s.portUp p = true ∧ s.fnState (0x80 * p) = .enabled)
      ∧ (∃ (s : State) (p : Nat), Inv s ∧ p < 2 ∧ s.portUp p = true) :=
  ⟨⟨{ State.reset with hosts := { State.reset.hosts with fns := [(2, { absentFn with step := 1 })] } }, 2, inv_of (by decide +kernel),
      by decide +kernel⟩,
    ⟨{ State.reset with hosts := { State.reset.hosts with fns := [(2, { absentFn with linkDown := true })] } }, 2, inv_of (by decide +kernel),
      by decide +kernel⟩,
    ⟨{ State.reset with hosts := { State.reset.hosts with fns := [(2, { absentFn with step := 3 })] } }, 2, inv_of (by decide +kernel),
      by decide +kernel⟩,
    ⟨
      { State.reset with
        regs := [(16785744, 0x00100008#32)],
        hosts := { State.reset.hosts with
          queues := [(17, { idleQueue with state := QState.running })], fns := [(2, { absentFn with step := 3, hostOk := true })],
          jobs := [{ jid := 50, fn := 2, q := 1, cid := 3, opcode := 16, params := [], sqHead := 0, stage := JobStage.fetched }], nextJid := 60 } },
      2, { jid := 50, fn := 2, q := 1, cid := 3, opcode := 16, params := [], sqHead := 0, stage := JobStage.fetched }, inv_of (by decide +kernel),
      by decide +kernel⟩,
    ⟨State.reset, 0, 4, 8, inv_of (by decide +kernel), by decide +kernel⟩,
    ⟨
      { State.reset with
        regs := [(196672, 0x00000084#32)], hosts := { State.reset.hosts with fns := [(0, { absentFn with state := FnState.enabled })] } }, 0, 3,
      inv_of (by decide +kernel), by decide +kernel⟩,
    ⟨{ State.reset with regs := [(196672, 0x00000084#32)] }, 0, inv_of (by decide +kernel), by decide +kernel⟩⟩

/-- States and operands that meet the hypotheses of IngestAcceptance, clause by clause. -/
theorem witness_IngestAcceptance :
    (∃ (s : State) (c : CmdArgs) (i : Nat) (n : Nat) (b : Buf), Inv s ∧ s.checkBuf c.fn (c.params.getD 0 0) = .ok i ∧ s.accepts 0x10 c = true ∧
      s.ingestFull (c.params.getD 1 0) = false ∧ s.buf i = some b ∧ s.bufKind i = 1 ∧ s.ingestCheck i (s.take 0x10 c).1 = none ∧ s.ingestTarget
      (c.params.getD 1 0) = some n)
      ∧ (∃ (s : State) (c : CmdArgs) (code : Nat), Inv s ∧ s.checkBuf c.fn (c.params.getD 0 0) = .error code ∧ s.accepts 0x10 c = true ∧ s.posts c.fn
        c.q = true ∧ s.ingestFull (c.params.getD 1 0) = false)
      ∧ (∃ (s : State) (c : CmdArgs) (i : Nat) (code : Nat), Inv s ∧ s.checkBuf c.fn (c.params.getD 0 0) = .ok i ∧ s.accepts 0x10 c = true ∧ s.posts
        c.fn c.q = true ∧ s.ingestFull (c.params.getD 1 0) = false ∧ s.bufKind i = 1 ∧ s.ingestCheck i (s.take 0x10 c).1 = some code)
      ∧ (∃ (s : State) (c : CmdArgs) (i : Nat), Inv s ∧ s.checkBuf c.fn (c.params.getD 0 0) = .ok i ∧ s.accepts 0x10 c = true ∧ s.posts c.fn c.q =
        true ∧ s.ingestFull (c.params.getD 1 0) = false ∧ s.bufKind i ≠ 1)
      ∧ (∃ (s : State) (c : CmdArgs) (i : Nat), Inv s ∧ s.checkBuf c.fn (c.params.getD 0 0) = .ok i ∧ s.accepts 0x10 c = true ∧ s.posts c.fn c.q =
        true ∧ s.ingestFull (c.params.getD 1 0) = false ∧ s.bufKind i = 1 ∧ s.ingestCheck i (s.take 0x10 c).1 = none ∧ (∀ n < 4, s.flag (.ing n)
        F.PG_CTRL_ENABLE = false ∧ s.blockStopped (.ing n) = false))
      ∧ (∃ (s : State) (c : CmdArgs), s.ingestFull (c.params.getD 1 0) = true)
      ∧ (∃ (s : State) (s1 : State) (n : Nat) (f : Nat) (k : Nat) (x : IngCmd), Inv s ∧ s.pickFn (2 + n) ((List.range 256).filter fun g => (s.engine
        n).waiting.any fun c => !s.ingBlocked c && c.fn == g) = (some f, s1) ∧ n < 4 ∧ s.standby = false ∧ k < 8 ∧ Sparse.find (s.engine n).slots k =
        none ∧ (s.engine n).waiting.find? (fun c => c.fn == f && !s.ingBlocked c) = some x) :=
  ⟨⟨
      { State.reset with
        regs := [(68, 0x00000017#32), (331784, 0x00000001#32)],
        pool := { State.reset.pool with
          chans := { used := [(0, { kind := 1, fn := 64, draining := false, destroyJob := none })], gens := [], fresh := 1, freed := [] },
          bufs := { 
            used := [
              (
                0,
                { 
                  state := BufState.live, chan := 0, chanHandle := 268435712, fn := 64, plots := [0], size := 65536, fences := 0, toFill := [],
                  allocJob := none, freeJob := none, freeAfterFill := false })], gens := [], fresh := 1, freed := [] } } },
      { fn := 64, q := 0, cid := 5, ordered := false, rsvd := 0, params := [65536, 61441, 524296, 0, 0, 1048576, 0, 32, 0, 0, 0] }, 0, 1,
      { 
        state := BufState.live, chan := 0, chanHandle := 268435712, fn := 64, plots := [0], size := 65536, fences := 0, toFill := [],
        allocJob := none, freeJob := none, freeAfterFill := false }, inv_of (by decide +kernel), except_of (by decide +kernel), by decide +kernel⟩,
    ⟨{ State.reset with regs := [(68, 0x00000017#32)] },
      { fn := 64, q := 0, cid := 5, ordered := false, rsvd := 0, params := [131072, 61441, 524296, 0, 0, 1048576, 0, 32, 0, 0, 0] }, 258,
      inv_of (by decide +kernel), except_of (by decide +kernel), by decide +kernel⟩,
    ⟨
      { State.reset with
        regs := [(68, 0x00000017#32)],
        pool := { State.reset.pool with
          chans := { used := [(0, { kind := 1, fn := 64, draining := false, destroyJob := none })], gens := [], fresh := 1, freed := [] },
          bufs := { 
            used := [
              (
                0,
                { 
                  state := BufState.live, chan := 0, chanHandle := 268435712, fn := 64, plots := [0], size := 65536, fences := 0, toFill := [],
                  allocJob := none, freeJob := none, freeAfterFill := false })], gens := [], fresh := 1, freed := [] } } },
      { fn := 64, q := 0, cid := 5, ordered := false, rsvd := 0, params := [65536, 61447, 524296, 0, 0, 1048576, 0, 32, 0, 0, 0] }, 0, 1793,
      inv_of (by decide +kernel), except_of (by decide +kernel), by decide +kernel⟩,
    ⟨
      { State.reset with
        regs := [(68, 0x00000017#32)],
        pool := { State.reset.pool with
          bufs := { 
            used := [
              (
                0,
                { 
                  state := BufState.live, chan := 0, chanHandle := 268435712, fn := 64, plots := [0], size := 65536, fences := 0, toFill := [],
                  allocJob := none, freeJob := none, freeAfterFill := false })], gens := [], fresh := 1, freed := [] } } },
      { fn := 64, q := 0, cid := 5, ordered := false, rsvd := 0, params := [65536, 61441, 524296, 0, 0, 1048576, 0, 32, 0, 0, 0] }, 0,
      inv_of (by decide +kernel), except_of (by decide +kernel), by decide +kernel⟩,
    ⟨
      { State.reset with
        regs := [(68, 0x00000017#32)],
        pool := { State.reset.pool with
          chans := { used := [(0, { kind := 1, fn := 64, draining := false, destroyJob := none })], gens := [], fresh := 1, freed := [] },
          bufs := { 
            used := [
              (
                0,
                { 
                  state := BufState.live, chan := 0, chanHandle := 268435712, fn := 64, plots := [0], size := 65536, fences := 0, toFill := [],
                  allocJob := none, freeJob := none, freeAfterFill := false })], gens := [], fresh := 1, freed := [] } } },
      { fn := 64, q := 0, cid := 5, ordered := false, rsvd := 0, params := [65536, 61441, 524296, 0, 0, 1048576, 0, 32, 0, 0, 0] }, 0,
      inv_of (by decide +kernel), except_of (by decide +kernel), by decide +kernel⟩,
    ⟨ingestsWait 64, ⟨64, 0, 5, false, 0, [65536, 61441]⟩, by decide +kernel⟩,
    ⟨ingestsWait 1, ingestsWait 1, 1, 64, 0, anIngest, inv_of (by decide +kernel), Prod.ext (by decide +kernel) rfl, by decide +kernel⟩⟩

/-- States and operands that meet the hypotheses of IngestEnd, clause by clause. -/
theorem witness_IngestEnd :
    (∃ (s : State) (n : Nat) (k : Nat) (host : List (Nat × Byte)) (c : IngCmd) (j : Job), Inv s ∧ n < 4 ∧ Sparse.find (s.engine n).slots k = some c ∧
      (s.mirrors = true → s.mirrorQueued < 8388608) ∧ s.standby = false ∧ s.hostAnswers (s.ingPort c) = true ∧ (s.ingTiles n c host (c.work.drop
      c.tiles)).2.1 = true ∧ s.awaits c.jid j = true)
      ∧ (∃ (s : State) (n : Nat) (k : Nat) (host : List (Nat × Byte)) (c : IngCmd) (j : Job), Inv s ∧ n < 4 ∧ Sparse.find (s.engine n).slots k = some
        c ∧ (s.mirrors = true → s.mirrorQueued < 8388608) ∧ s.standby = false ∧ s.hostAnswers (s.ingPort c) = true ∧ (s.ingTiles n c host (c.work.drop
        c.tiles)).2.1 = false ∧ s.awaits c.jid j = true)
      ∧ (∃ (s : State) (n : Nat) (k : Nat) (kind : Nat) (addr : Nat) (m : Nat) (host : List (Nat × Byte)) (c : IngCmd) (j : Job), Inv s ∧ n < 4 ∧
        Sparse.find (s.engine n).slots k = some c ∧ s.standby = false ∧ c.tiles + m < c.work.length ∧ (s.ingTiles n c host ((c.work.drop c.tiles).take
        m)).2.1 = true ∧ s.awaits c.jid j = true ∧ addr < 2 ^ 64)
      ∧ (∃ (s : State) (w : RegWr) (n : Nat), Inv s ∧ n < 4 ∧ s.arrives w (.ing n) = true ∧ w.off % 0x1000 = 0x008 ∧ w.val.toNat = 2 + s.fld (.ing n)
        F.PG_CTRL_ENABLE ∧ s.grants (accOf w (.ing n)) F.PG_CTRL_SOFT_RESET = true ∧ s.pageHeld (accOf w (.ing n)) = none ∧ s.pageArmed (Page.ing
        n).base = false)
      ∧ (∃ (s : State) (w : RegWr) (n : Nat) (c : IngCmd) (j : Job), Inv s ∧ n < 4 ∧ s.arrives w (.ing n) = true ∧ w.off % 0x1000 = 0x008 ∧
        w.val.toNat = 2 + s.fld (.ing n) F.PG_CTRL_ENABLE ∧ s.grants (accOf w (.ing n)) F.PG_CTRL_SOFT_RESET = true ∧ s.pageHeld (accOf w (.ing n)) =
        none ∧ s.pageArmed (Page.ing n).base = false ∧ s.engine n = ⟨[c], []⟩ ∧ s.awaits c.jid j = true) :=
  ⟨⟨
      { State.reset with
        regs := [(196672, 0x00000004#32), (266304, 0x08000000#32)],
        mem := [(1048576, 0x40#8), (1048577, 0x0a#8), (67371008, 0x75#8), (67371009, 0x0c#8), (67371010, 0x2d#8)],
        pool := { State.reset.pool with
          bufs := { 
            used := [
              (
                0,
                { 
                  state := BufState.live, chan := 0, chanHandle := 268435712, fn := 64, plots := [0], size := 65536, fences := 1, toFill := [],
                  allocJob := none, freeJob := none, freeAfterFill := false })], gens := [], fresh := 1, freed := [] } },
        ingest := { State.reset.ingest with
          engines := [
            (
              1,
              { 
                waiting := [],
                slots := [
                  (
                    0,
                    { 
                      jid := 2, seq := 0, buf := 0, handle := 65536, fn := 64, format := 1, srcTiled := false, seedbed := true, width := 8,
                      height := 8, rectX := 0, rectY := 0, rectW := 8, rectH := 8, src0 := 1048576, pitch0 := 32, src1 := 0, pitch1 := 0, tiles := 0,
                      words := 0 })] })] },
        hosts := { State.reset.hosts with
          jobs := [
            { 
              jid := 2, fn := 64, q := 0, cid := 5, opcode := 16, params := [65536, 62465, 524296, 0, 0, 1048576, 0, 32, 0, 0, 0], sqHead := 0,
              stage := JobStage.fetched }], nextJid := 3 } }, 1, 0, [(1048576, 0x01#8)],
      { 
        jid := 2, seq := 0, buf := 0, handle := 65536, fn := 64, format := 1, srcTiled := false, seedbed := true, width := 8, height := 8, rectX := 0,
        rectY := 0, rectW := 8, rectH := 8, src0 := 1048576, pitch0 := 32, src1 := 0, pitch1 := 0, tiles := 0, words := 0 },
      { 
        jid := 2, fn := 64, q := 0, cid := 5, opcode := 16, params := [65536, 62465, 524296, 0, 0, 1048576, 0, 32, 0, 0, 0], sqHead := 0,
        stage := JobStage.fetched }, inv_of (by decide +kernel), by decide +kernel⟩,
    ⟨
      { State.reset with
        regs := [(131136, 0x10000000#32), (196672, 0x00000004#32)],
        ingest := { State.reset.ingest with
          engines := [
            (
              1,
              { 
                waiting := [],
                slots := [
                  (
                    0,
                    { 
                      jid := 2, seq := 0, buf := 0, handle := 65536, fn := 64, format := 1, srcTiled := false, seedbed := false, width := 8,
                      height := 8, rectX := 0, rectY := 0, rectW := 8, rectH := 8, src0 := 1048576, pitch0 := 32, src1 := 0, pitch1 := 0, tiles := 0,
                      words := 0 })] })] },
        hosts := { State.reset.hosts with
          jobs := [
            { 
              jid := 2, fn := 64, q := 0, cid := 5, opcode := 16, params := [65536, 61441, 524296, 0, 0, 1048576, 0, 32, 0, 0, 0], sqHead := 0,
              stage := JobStage.fetched }], nextJid := 3 } }, 1, 0, [(1048576, 0x01#8)],
      { 
        jid := 2, seq := 0, buf := 0, handle := 65536, fn := 64, format := 1, srcTiled := false, seedbed := false, width := 8, height := 8,
        rectX := 0, rectY := 0, rectW := 8, rectH := 8, src0 := 1048576, pitch0 := 32, src1 := 0, pitch1 := 0, tiles := 0, words := 0 },
      { 
        jid := 2, fn := 64, q := 0, cid := 5, opcode := 16, params := [65536, 61441, 524296, 0, 0, 1048576, 0, 32, 0, 0, 0], sqHead := 0,
        stage := JobStage.fetched }, inv_of (by decide +kernel), by decide +kernel⟩,
    ⟨
      { State.reset with
        ingest := { State.reset.ingest with
          engines := [
            (
              1,
              { 
                waiting := [],
                slots := [
                  (
                    0,
                    { 
                      jid := 2, seq := 0, buf := 0, handle := 65536, fn := 64, format := 1, srcTiled := false, seedbed := false, width := 8,
                      height := 8, rectX := 0, rectY := 0, rectW := 8, rectH := 8, src0 := 1048576, pitch0 := 32, src1 := 0, pitch1 := 0, tiles := 0,
                      words := 0 })] })] },
        hosts := { State.reset.hosts with
          jobs := [
            { 
              jid := 2, fn := 64, q := 0, cid := 5, opcode := 16, params := [65536, 61441, 524296, 0, 0, 1048576, 0, 32, 0, 0, 0], sqHead := 0,
              stage := JobStage.fetched }], nextJid := 3 } }, 1, 0, 2, 20015998343868, 0, [(1048576, 0x01#8)],
      { 
        jid := 2, seq := 0, buf := 0, handle := 65536, fn := 64, format := 1, srcTiled := false, seedbed := false, width := 8, height := 8,
        rectX := 0, rectY := 0, rectW := 8, rectH := 8, src0 := 1048576, pitch0 := 32, src1 := 0, pitch1 := 0, tiles := 0, words := 0 },
      { 
        jid := 2, fn := 64, q := 0, cid := 5, opcode := 16, params := [65536, 61441, 524296, 0, 0, 1048576, 0, 32, 0, 0, 0], sqHead := 0,
        stage := JobStage.fetched }, inv_of (by decide +kernel), by decide +kernel⟩,
    ⟨{ State.reset with regs := [(331784, 0x00000001#32)] },
      { req := { fn := 64, secure := false }, win := Window.pf, off := 331784, be := 0xf#4, val := 0x00000003#32 }, 1, inv_of (by decide +kernel),
      by decide +kernel⟩,
    ⟨
      { State.reset with
        regs := [(331784, 0x00000001#32)],
        ingest := { State.reset.ingest with
          engines := [
            (
              1,
              { 
                waiting := [
                  { 
                    jid := 2, seq := 0, buf := 0, handle := 65536, fn := 64, format := 1, srcTiled := false, seedbed := true, width := 8, height := 8,
                    rectX := 0, rectY := 0, rectW := 8, rectH := 8, src0 := 1048576, pitch0 := 32, src1 := 0, pitch1 := 0, tiles := 0, words := 0 }],
                slots := [] })] },
        hosts := { State.reset.hosts with
          queues := [],
          jobs := [
            { 
              jid := 2, fn := 64, q := 0, cid := 5, opcode := 16, params := [65536, 62465, 524296, 0, 0, 1048576, 0, 32, 0, 0, 0], sqHead := 0,
              stage := JobStage.fetched }], nextJid := 3 } },
      { req := { fn := 64, secure := false }, win := Window.pf, off := 331784, be := 0xf#4, val := 0x00000003#32 }, 1,
      { 
        jid := 2, seq := 0, buf := 0, handle := 65536, fn := 64, format := 1, srcTiled := false, seedbed := true, width := 8, height := 8, rectX := 0,
        rectY := 0, rectW := 8, rectH := 8, src0 := 1048576, pitch0 := 32, src1 := 0, pitch1 := 0, tiles := 0, words := 0 },
      { 
        jid := 2, fn := 64, q := 0, cid := 5, opcode := 16, params := [65536, 62465, 524296, 0, 0, 1048576, 0, 32, 0, 0, 0], sqHead := 0,
        stage := JobStage.fetched }, inv_of (by decide +kernel), by decide +kernel⟩⟩

/-- States and operands that meet the hypotheses of ScanCommand, clause by clause. -/
theorem witness_ScanCommand :
    (∃ (s : State) (c : CmdArgs) (n : Nat), Inv s ∧ s.accepts 0x18 c = true ∧ s.scanFull (c.params.getD 1 0) = false ∧ s.scanFault (s.take 0x18 c).1 =
      none ∧ c.params.getD 4 0 ≠ 0 ∧ s.scanTarget (c.params.getD 1 0) = some n)
      ∧ (∃ (s : State) (c : CmdArgs), Inv s ∧ s.accepts 0x18 c = true ∧ s.posts c.fn c.q = true ∧ s.scanFull (c.params.getD 1 0) = false ∧ s.scanFault
        (s.take 0x18 c).1 = none ∧ c.params.getD 4 0 = 0)
      ∧ (∃ (s : State) (c : CmdArgs) (code : Nat), Inv s ∧ s.accepts 0x18 c = true ∧ s.posts c.fn c.q = true ∧ s.scanFull (c.params.getD 1 0) = false
        ∧ s.scanFault (s.take 0x18 c).1 = some code)
      ∧ (∃ (s : State) (c : CmdArgs), s.scanFull (c.params.getD 1 0) = true)
      ∧ (∃ (s : State) (s1 : State) (n : Nat) (f : Nat) (k : Nat) (x : CvuCmd), Inv s ∧ s.pickFn (6 + n) ((List.range 256).filter fun g => (s.cvu
        n).waiting.any fun c => c.fn == g) = (some f, s1) ∧ n < 4 ∧ k < 8 ∧ Sparse.find (s.cvu n).slots k = none ∧ (s.cvu n).waiting.find? (fun c =>
        c.fn == f) = some x)
      ∧ (∃ (s : State) (n : Nat) (k : Nat) (c : CvuCmd) (j : Job) (ws : List Nat), Inv s ∧ (∀ i < ws.length, s.inCheckArea (c.start + 16 * i) = false
        ∧ s.lookWord (c.start + 16 * i) = .clean (ws.getD i 0)) ∧ n < 4 ∧ Sparse.find (s.cvu n).slots k = some c ∧ c.fn = 0x41 ∧ c.addrMode = true ∧
        c.result = none ∧ c.len = 16 * ws.length ∧ c.start + c.len ≤ s.installed ∧ c.start + c.len ≤ s.watermark ∧ s.awaits c.jid j = true)
      ∧ (∃ (s : State) (n : Nat) (k : Nat) (m : Nat) (c : CvuCmd) (j : Job), Inv s ∧ (∀ i < m, s.inCheckArea (c.start + 16 * i) = false ∧ ∃ w,
        s.lookWord (c.start + 16 * i) = .clean w) ∧ n < 4 ∧ Sparse.find (s.cvu n).slots k = some c ∧ c.fn = 0x41 ∧ c.addrMode = true ∧ c.result = none
        ∧ 16 * m < c.len ∧ c.len % 16 = 0 ∧ c.start + c.len ≤ s.installed ∧ c.start + c.len ≤ s.watermark ∧ s.inCheckArea (c.start + 16 * m) = false ∧
        s.lookWord (c.start + 16 * m) = .poisoned ∧ s.awaits c.jid j = true) :=
  ⟨⟨
      { State.reset with
        regs := [(68, 0x00000017#32), (397320, 0x00000001#32)],
        pool := { State.reset.pool with
          bufs := { 
            used := [
              (
                0,
                { 
                  state := BufState.live, chan := 0, chanHandle := 268435712, fn := 64, plots := [0], size := 65536, fences := 0, toFill := [],
                  allocJob := none, freeJob := none, freeAfterFill := false })], gens := [], fresh := 1, freed := [] } } },
      { fn := 64, q := 0, cid := 5, ordered := false, rsvd := 0, params := [65536, 3844, 0, 0, 32, 0, 0, 0] }, 1, inv_of (by decide +kernel),
      by decide +kernel⟩,
    ⟨
      { State.reset with
        regs := [(68, 0x00000017#32), (397320, 0x00000001#32)],
        pool := { State.reset.pool with
          bufs := { 
            used := [
              (
                0,
                { 
                  state := BufState.live, chan := 0, chanHandle := 268435712, fn := 64, plots := [0], size := 65536, fences := 0, toFill := [],
                  allocJob := none, freeJob := none, freeAfterFill := false })], gens := [], fresh := 1, freed := [] } } },
      { fn := 64, q := 0, cid := 5, ordered := false, rsvd := 0, params := [65536, 3843, 0, 0, 0, 0, 0, 0] }, inv_of (by decide +kernel),
      by decide +kernel⟩,
    ⟨
      { State.reset with
        regs := [(68, 0x00000017#32)],
        pool := { State.reset.pool with
          bufs := { 
            used := [
              (
                0,
                { 
                  state := BufState.live, chan := 0, chanHandle := 268435712, fn := 64, plots := [0], size := 65536, fences := 0, toFill := [],
                  allocJob := none, freeJob := none, freeAfterFill := false })], gens := [], fresh := 1, freed := [] } } },
      { fn := 64, q := 0, cid := 5, ordered := false, rsvd := 0, params := [65536, 3844, 8, 0, 32, 0, 0, 0] }, 6, inv_of (by decide +kernel),
      by decide +kernel⟩,
    ⟨scansWait 64, ⟨64, 0, 5, false, 0, [65536, 260]⟩, by decide +kernel⟩,
    ⟨scansWait 1, scansWait 1, 1, 64, 0, aScan, inv_of (by decide +kernel), Prod.ext (by decide +kernel) rfl, by decide +kernel⟩,
    ⟨scanRuns, 1, 0, secureScan, scanJob, [0], inv_of (by decide +kernel),
      (fun i h => match i, h with | 0, _ => ⟨by decide +kernel, rfl⟩ | n + 1, h => absurd h (by simp)), by decide +kernel⟩,
    ⟨scanPoisoned, 1, 0, 0, secureScan, scanJob, inv_of (by decide +kernel), (fun i h => absurd h (Nat.not_lt_zero i)), by decide +kernel⟩⟩

/-- States and operands that meet the hypotheses of CheckRegion, clause by clause. -/
theorem witness_CheckRegion :
    (∃ (s : State) (n : Nat) (j : Nat), Inv s ∧ n < 8 ∧ j < 16 ∧ s.chkDue n j = true ∧ s.chkFld n j F.CHK_CTRL_COMPARE = 0)
      ∧ (∃ (s : State) (n : Nat) (j : Nat) (seq : Nat) (val : Nat), Inv s ∧ n < 8 ∧ j < 16 ∧ s.chkDue n j = true ∧ s.chkFld n j F.CHK_CTRL_COMPARE = 1
        ∧ seq = s.fld (.scn n) F.SCN_SEQ_SEQ ∧ val = State.regionValue seq (s.chkWords n j) ∧ val = Nat.xor (s.chkFld n j F.CHK_EXPECT_E0)
        (State.zeroRegister seq (s.chkWords n j).length))
      ∧ (∃ (s : State) (n : Nat) (j : Nat) (seq : Nat) (val : Nat) (run : Nat), Inv s ∧ n < 8 ∧ j < 16 ∧ s.chkDue n j = true ∧ s.chkFld n j
        F.CHK_CTRL_COMPARE = 1 ∧ seq = s.fld (.scn n) F.SCN_SEQ_SEQ ∧ val = State.regionValue seq (s.chkWords n j) ∧ val ≠ Nat.xor (s.chkFld n j
        F.CHK_EXPECT_E0) (State.zeroRegister seq (s.chkWords n j).length) ∧ run = s.fld (.chk n) F.CHK_STAT_RUN [j] ∧ run + 1 < max 1 (s.chkFld n j
        F.CHK_CTRL_LIMIT))
      ∧ (∃ (s : State) (n : Nat) (j : Nat) (seq : Nat) (val : Nat) (run : Nat), Inv s ∧ n < 8 ∧ j < 16 ∧ s.chkDue n j = true ∧ s.chkFld n j
        F.CHK_CTRL_COMPARE = 1 ∧ seq = s.fld (.scn n) F.SCN_SEQ_SEQ ∧ val = State.regionValue seq (s.chkWords n j) ∧ val ≠ Nat.xor (s.chkFld n j
        F.CHK_EXPECT_E0) (State.zeroRegister seq (s.chkWords n j).length) ∧ run = s.fld (.chk n) F.CHK_STAT_RUN [j] ∧ max 1 (s.chkFld n j
        F.CHK_CTRL_LIMIT) ≤ satAdd 8 run 1 ∧ (run = 0 ∨ s.display.acted.contains (n * 16 + j) = false) ∧ s.chkFld n j F.CHK_CTRL_ACTION = 0)
      ∧ (∃ (s : State) (n : Nat) (j : Nat) (seq : Nat) (val : Nat) (run : Nat), Inv s ∧ n < 8 ∧ j < 16 ∧ s.chkDue n j = true ∧ s.chkFld n j
        F.CHK_CTRL_COMPARE = 1 ∧ seq = s.fld (.scn n) F.SCN_SEQ_SEQ ∧ val = State.regionValue seq (s.chkWords n j) ∧ val ≠ Nat.xor (s.chkFld n j
        F.CHK_EXPECT_E0) (State.zeroRegister seq (s.chkWords n j).length) ∧ run = s.fld (.chk n) F.CHK_STAT_RUN [j] ∧ max 1 (s.chkFld n j
        F.CHK_CTRL_LIMIT) ≤ satAdd 8 run 1 ∧ (run = 0 ∨ s.display.acted.contains (n * 16 + j) = false) ∧ s.chkFld n j F.CHK_CTRL_ACTION ≠ 0)
      ∧ (∃ (s : State) (n : Nat) (j : Nat) (seq : Nat) (val : Nat) (run : Nat), Inv s ∧ n < 8 ∧ j < 16 ∧ s.chkDue n j = true ∧ s.chkFld n j
        F.CHK_CTRL_COMPARE = 1 ∧ seq = s.fld (.scn n) F.SCN_SEQ_SEQ ∧ val = State.regionValue seq (s.chkWords n j) ∧ val ≠ Nat.xor (s.chkFld n j
        F.CHK_EXPECT_E0) (State.zeroRegister seq (s.chkWords n j).length) ∧ run = s.fld (.chk n) F.CHK_STAT_RUN [j] ∧ run ≠ 0 ∧
        s.display.acted.contains (n * 16 + j) = true) :=
  ⟨⟨
      { State.reset with
        display := { State.reset.display with
          disps := [
            (
              2,
              { idleDisp with
                running := true,
                lines := [
                  [
                    { q0 := 9, q1 := 10, q2 := 11, tag := 1 }, { q0 := 10, q1 := 11, q2 := 12, tag := 1 }, { q0 := 11, q1 := 12, q2 := 13, tag := 1 },
                    { q0 := 12, q1 := 13, q2 := 14, tag := 1 }, { q0 := 13, q1 := 14, q2 := 15, tag := 1 }]], regions := [3] })] } }, 2, 3,
      inv_of (by decide +kernel), by decide +kernel⟩,
    ⟨
      { State.reset with
        regs := [(2113628, 0x0000004d#32)],
        display := { State.reset.display with
          disps := [
            (
              2,
              { idleDisp with
                running := true, frame := [(1381188, 0x00000103#32), (1381192, 0x00000001#32), (1381196, 0x00020003#32), (1381200, 0xfa6d33b1#32)],
                lines := [
                  [
                    { q0 := 1, q1 := 2, q2 := 3, tag := 1 }, { q0 := 2, q1 := 3, q2 := 4, tag := 1 }, { q0 := 3, q1 := 4, q2 := 5, tag := 1 },
                    { q0 := 4, q1 := 5, q2 := 6, tag := 1 }, { q0 := 5, q1 := 6, q2 := 7, tag := 1 }],
                  [
                    { q0 := 9, q1 := 10, q2 := 11, tag := 1 }, { q0 := 10, q1 := 11, q2 := 12, tag := 1 }, { q0 := 11, q1 := 12, q2 := 13, tag := 1 },
                    { q0 := 12, q1 := 13, q2 := 14, tag := 1 }, { q0 := 13, q1 := 14, q2 := 15, tag := 1 }]], regions := [3] })] } }, 2, 3, 77,
      2262340960, inv_of (by decide +kernel), by decide +kernel⟩,
    ⟨
      { State.reset with
        regs := [(2113628, 0x0000004d#32)],
        display := { State.reset.display with
          disps := [
            (
              2,
              { idleDisp with
                running := true, frame := [(1381188, 0x00000503#32), (1381192, 0x00000001#32), (1381196, 0x00020003#32)],
                lines := [
                  [
                    { q0 := 1, q1 := 2, q2 := 3, tag := 1 }, { q0 := 2, q1 := 3, q2 := 4, tag := 1 }, { q0 := 3, q1 := 4, q2 := 5, tag := 1 },
                    { q0 := 4, q1 := 5, q2 := 6, tag := 1 }, { q0 := 5, q1 := 6, q2 := 7, tag := 1 }],
                  [
                    { q0 := 9, q1 := 10, q2 := 11, tag := 1 }, { q0 := 10, q1 := 11, q2 := 12, tag := 1 }, { q0 := 11, q1 := 12, q2 := 13, tag := 1 },
                    { q0 := 12, q1 := 13, q2 := 14, tag := 1 }, { q0 := 13, q1 := 14, q2 := 15, tag := 1 }]], regions := [3] })] } }, 2, 3, 77,
      2262340960, 0, inv_of (by decide +kernel), by decide +kernel⟩,
    ⟨
      { State.reset with
        regs := [(2113628, 0x0000004d#32)],
        display := { State.reset.display with
          disps := [
            (
              2,
              { idleDisp with
                running := true, frame := [(1381188, 0x00000103#32), (1381192, 0x00000001#32), (1381196, 0x00020003#32)],
                lines := [
                  [
                    { q0 := 1, q1 := 2, q2 := 3, tag := 1 }, { q0 := 2, q1 := 3, q2 := 4, tag := 1 }, { q0 := 3, q1 := 4, q2 := 5, tag := 1 },
                    { q0 := 4, q1 := 5, q2 := 6, tag := 1 }, { q0 := 5, q1 := 6, q2 := 7, tag := 1 }],
                  [
                    { q0 := 9, q1 := 10, q2 := 11, tag := 1 }, { q0 := 10, q1 := 11, q2 := 12, tag := 1 }, { q0 := 11, q1 := 12, q2 := 13, tag := 1 },
                    { q0 := 12, q1 := 13, q2 := 14, tag := 1 }, { q0 := 13, q1 := 14, q2 := 15, tag := 1 }]], regions := [3] })] } }, 2, 3, 77,
      2262340960, 0, inv_of (by decide +kernel), by decide +kernel⟩,
    ⟨
      { State.reset with
        regs := [(2113628, 0x0000004d#32)],
        display := { State.reset.display with
          disps := [
            (
              2,
              { idleDisp with
                running := true, frame := [(1381188, 0x00000107#32), (1381192, 0x00000001#32), (1381196, 0x00020003#32)],
                lines := [
                  [
                    { q0 := 1, q1 := 2, q2 := 3, tag := 1 }, { q0 := 2, q1 := 3, q2 := 4, tag := 1 }, { q0 := 3, q1 := 4, q2 := 5, tag := 1 },
                    { q0 := 4, q1 := 5, q2 := 6, tag := 1 }, { q0 := 5, q1 := 6, q2 := 7, tag := 1 }],
                  [
                    { q0 := 9, q1 := 10, q2 := 11, tag := 1 }, { q0 := 10, q1 := 11, q2 := 12, tag := 1 }, { q0 := 11, q1 := 12, q2 := 13, tag := 1 },
                    { q0 := 12, q1 := 13, q2 := 14, tag := 1 }, { q0 := 13, q1 := 14, q2 := 15, tag := 1 }]], regions := [3] })] } }, 2, 3, 77,
      2262340960, 0, inv_of (by decide +kernel), by decide +kernel⟩,
    ⟨
      { State.reset with
        regs := [(1381212, 0x00000200#32), (2113628, 0x0000004d#32)],
        display := { State.reset.display with
          disps := [
            (
              2,
              { idleDisp with
                running := true, frame := [(1381188, 0x00000103#32), (1381192, 0x00000001#32), (1381196, 0x00020003#32)],
                lines := [
                  [
                    { q0 := 1, q1 := 2, q2 := 3, tag := 1 }, { q0 := 2, q1 := 3, q2 := 4, tag := 1 }, { q0 := 3, q1 := 4, q2 := 5, tag := 1 },
                    { q0 := 4, q1 := 5, q2 := 6, tag := 1 }, { q0 := 5, q1 := 6, q2 := 7, tag := 1 }],
                  [
                    { q0 := 9, q1 := 10, q2 := 11, tag := 1 }, { q0 := 10, q1 := 11, q2 := 12, tag := 1 }, { q0 := 11, q1 := 12, q2 := 13, tag := 1 },
                    { q0 := 12, q1 := 13, q2 := 14, tag := 1 }, { q0 := 13, q1 := 14, q2 := 15, tag := 1 }]], regions := [3] })], acted := [35] } },
      2, 3, 77, 2262340960, 2, inv_of (by decide +kernel), by decide +kernel⟩⟩

/-- States and operands that meet the hypotheses of TableAccess, clause by clause. -/
theorem witness_TableAccess :
    (∃ (s : State) (w : RegWr) (n : Nat), Inv s ∧ n < 8 ∧ s.arrives w (.pipe n) = true ∧ w.off % 0x1000 = 0x064 ∧ s.secretPage (accOf w (.pipe n)) =
      false)
      ∧ (∃ (s : State) (w : RegWr) (n : Nat), Inv s ∧ n < 8 ∧ s.readReaches ⟨w.req, w.win, w.off⟩ (.pipe n) = true ∧ w.off % 0x1000 = 0x064 ∧
        s.secretPage (rdOf ⟨w.req, w.win, w.off⟩ (.pipe n)) = false)
      ∧ (∃ (s : State) (w : RegWr) (n : Nat), Inv s ∧ n < 8 ∧ s.arrives w (.pipe n) = true ∧ w.off % 0x1000 = 0x06C ∧ s.secretPage (accOf w (.pipe n))
        = false)
      ∧ (∃ (s : State) (w : RegWr) (n : Nat) (k : Nat), Inv s ∧ n < 8 ∧ k < 16 ∧ s.arrives w (.slot n k) = true ∧ w.off % 0x1000 = 0x0C4 ∧
        s.secretPage (accOf w (.slot n k)) = false) :=
  ⟨⟨State.reset, { req := { fn := 64, secure := false }, win := Window.pf, off := 1441892, be := 0xf#4, val := 0x12345678#32 }, 3,
      inv_of (by decide +kernel), by decide +kernel⟩,
    ⟨State.reset, { req := { fn := 64, secure := false }, win := Window.pf, off := 1441892, be := 0xf#4, val := 0x12345678#32 }, 3,
      inv_of (by decide +kernel), by decide +kernel⟩,
    ⟨State.reset, { req := { fn := 64, secure := false }, win := Window.pf, off := 1441900, be := 0xf#4, val := 0x12345678#32 }, 3,
      inv_of (by decide +kernel), by decide +kernel⟩,
    ⟨State.reset, { req := { fn := 64, secure := false }, win := Window.pf, off := 1462468, be := 0xf#4, val := 0x12345678#32 }, 3, 4,
      inv_of (by decide +kernel), by decide +kernel⟩⟩

/-- States and operands that meet the hypotheses of CommitArming, clause by clause. -/
theorem witness_CommitArming :
    (∃ (s : State) (c : CmdArgs), Inv s ∧ s.accepts 0x20 c = true ∧ s.posts c.fn c.q = true ∧ s.commitParams c = false)
      ∧ (∃ (s : State) (c : CmdArgs), Inv s ∧ s.accepts 0x20 c = true ∧ s.posts c.fn c.q = true ∧ s.commitParams c = true ∧ s.commitWords c = [])
      ∧ (∃ (s : State) (c : CmdArgs) (m : Nat) (pg : Page), Inv s ∧ s.accepts 0x20 c = true ∧ s.posts c.fn c.q = true ∧ s.commitParams c = true ∧
        s.commitWords c ≠ [] ∧ (s.commitSet c).find? (fun m => s.display.commits.any fun d => d.pages.contains m) = some m ∧ pageOf (m / 0x1000 *
        0x1000) = some pg)
      ∧ (∃ (s : State) (c : CmdArgs) (hand : Option (List Nat)), Inv s ∧ s.reserveCheck ⟨s.groupOutputs (commitGroup c), s.nextView.armedView
        (s.commitWords c), fun i => (s.commitSet c).contains (Page.slot (i / 16) (i % 16)).base⟩ = .ok hand ∧ s.accepts 0x20 c = true ∧ s.posts c.fn
        c.q = true ∧ s.commitParams c = true ∧ s.commitWords c ≠ [] ∧ (s.commitWords c).length ≤ 8192 ∧ (s.leadOf (commitGroup c)).isSome = true ∧
        s.commitsQuiet = true ∧ s.mirrors = false ∧ s.power.state ≠ .idle ∧ ((s.commitSet c).all fun m => s.display.commits.all fun d =>
        !d.pages.contains m) = true ∧ (s.display.commits.filter fun d => d.group == (commitGroup c) && d.release.isNone && !d.posted).length < 8 ∧
        ((s.groupOutputs (commitGroup c)).all fun n => (s.commitWords c).all fun e => decide (e.1 < (Page.scn n).key 0x040) || decide ((Page.scn
        n).key 0x058 ≤ e.1)) = true ∧ s.slotChecks (s.armedView (s.commitWords c)) (s.groupOutputs (commitGroup c)) (s.commitSet c) c.fn = none ∧ (bit
        8 (c.params.getD 0 0) = true → s.targetFault (commitGroup c) (c.params.getD 1 0) = none))
      ∧ (∃ (s : State) (c : Commit) (jid : Nat) (j : Job), Inv s ∧ s.display.commits = [c] ∧ c.stage = .sent ∧ c.jid = some jid ∧ c.silent = false ∧
        c.posted = false ∧ s.owes jid j = true ∧ s.display.waitingRelease = []) :=
  ⟨⟨{ State.reset with regs := [(68, 0x00000017#32)] }, { fn := 64, q := 0, cid := 5, ordered := false, rsvd := 0, params := [15] },
      inv_of (by decide +kernel), by decide +kernel⟩,
    ⟨{ State.reset with regs := [(68, 0x00000017#32)] }, { fn := 64, q := 0, cid := 5, ordered := false, rsvd := 0, params := [0] },
      inv_of (by decide +kernel), by decide +kernel⟩,
    ⟨
      { State.reset with
        regs := [(68, 0x00000017#32), (2113600, 0x07d00040#32)],
        display := { State.reset.display with
          commits := [
            { 
              cno := 0, jid := some 2, cid := 5, fn := 64, group := 0, target := none, entries := [(1310788, 273)],
              pages := [
                1048576, 1052672, 1056768, 1060864, 1064960, 1069056, 1073152, 1077248, 1081344, 1085440, 1089536, 1093632, 1097728, 1101824, 1105920,
                1110016, 1114112, 1118464, 1118656, 1118848, 1119040, 1119232, 1119424, 1119616, 1119808, 1120000, 1120192, 1120384, 1120576, 1120768,
                1120960, 1121152, 1121344, 2097152, 1179648, 1183744, 1187840, 1191936, 1196032, 1200128, 1204224, 1208320, 1212416, 1216512, 1220608,
                1224704, 1228800, 1232896, 1236992, 1241088, 1245184, 1249536, 1249728, 1249920, 1250112, 1250304, 1250496, 1250688, 1250880, 1251072,
                1251264, 1251456, 1251648, 1251840, 1252032, 1252224, 1252416, 2105344, 1310720, 1314816, 1318912, 1323008, 1327104, 1331200, 1335296,
                1339392, 1343488, 1347584, 1351680, 1355776, 1359872, 1363968, 1368064, 1372160, 1376256, 1380608, 1380800, 1380992, 1381184, 1381376,
                1381568, 1381760, 1381952, 1382144, 1382336, 1382528, 1382720, 1382912, 1383104, 1383296, 1383488, 2113536, 1441792, 1445888, 1449984,
                1454080, 1458176, 1462272, 1466368, 1470464, 1474560, 1478656, 1482752, 1486848, 1490944, 1495040, 1499136, 1503232, 1507328, 1511680,
                1511872, 1512064, 1512256, 1512448, 1512640, 1512832, 1513024, 1513216, 1513408, 1513600, 1513792, 1513984, 1514176, 1514368, 1514560,
                2121728, 1572864, 1576960, 1581056, 1585152, 1589248, 1593344, 1597440, 1601536, 1605632, 1609728, 1613824, 1617920, 1622016, 1626112,
                1630208, 1634304, 1638400, 1642752, 1642944, 1643136, 1643328, 1643520, 1643712, 1643904, 1644096, 1644288, 1644480, 1644672, 1644864,
                1645056, 1645248, 1645440, 1645632, 2129920, 1703936, 1708032, 1712128, 1716224, 1720320, 1724416, 1728512, 1732608, 1736704, 1740800,
                1744896, 1748992, 1753088, 1757184, 1761280, 1765376, 1769472, 1773824, 1774016, 1774208, 1774400, 1774592, 1774784, 1774976, 1775168,
                1775360, 1775552, 1775744, 1775936, 1776128, 1776320, 1776512, 1776704, 2138112, 1835008, 1839104, 1843200, 1847296, 1851392, 1855488,
                1859584, 1863680, 1867776, 1871872, 1875968, 1880064, 1884160, 1888256, 1892352, 1896448, 1900544, 1904896, 1905088, 1905280, 1905472,
                1905664, 1905856, 1906048, 1906240, 1906432, 1906624, 1906816, 1907008, 1907200, 1907392, 1907584, 1907776, 2146304, 1966080, 1970176,
                1974272, 1978368, 1982464, 1986560, 1990656, 1994752, 1998848, 2002944, 2007040, 2011136, 2015232, 2019328, 2023424, 2027520, 2031616,
                2035968, 2036160, 2036352, 2036544, 2036736, 2036928, 2037120, 2037312, 2037504, 2037696, 2037888, 2038080, 2038272, 2038464, 2038656,
                2038848, 2154496], stage := CommitStage.waiting, frame := 0, todo := [], posted := false, handover := none, release := none,
              sentAt := 0, silent := false }] }, hosts := { State.reset.hosts with queues := [] } },
      { fn := 64, q := 0, cid := 5, ordered := false, rsvd := 0, params := [0] }, 1048576, Page.pipe 0, inv_of (by decide +kernel), by decide +kernel⟩,
    ⟨
      { State.reset with
        regs := [
          (68, 0x00000017#32), (2113600, 0x07d00040#32), (2113604, 0x00c80064#32), (2113608, 0x00040040#32), (2113612, 0x00080002#32),
          (2113616, 0x000061a8#32)],
        shad := [
          (1310788, 0x00000111#32), (2113600, 0x07d00040#32), (2113604, 0x00c80064#32), (2113608, 0x00040040#32), (2113612, 0x00080002#32),
          (2113616, 0x000061a8#32)], display := { State.reset.display with disps := [(2, { idleDisp with running := true })] } },
      { fn := 64, q := 0, cid := 5, ordered := false, rsvd := 0, params := [0] }, none, inv_of (by decide +kernel), except_of (by decide +kernel),
      by decide +kernel⟩,
    ⟨
      { State.reset with
        display := { State.reset.display with
          commits := [
            { 
              cno := 0, jid := some 2, cid := 5, fn := 64, group := 0, target := none, entries := [(1310788, 273)], pages := [],
              stage := CommitStage.sent, frame := 0, todo := [], posted := false, handover := none, release := none, sentAt := 0, silent := false }] },
        hosts := { State.reset.hosts with
          queues := [], jobs := [{ jid := 2, fn := 64, q := 0, cid := 5, opcode := 32, params := [0], sqHead := 0, stage := JobStage.owed }],
          nextJid := 3 } },
      { 
        cno := 0, jid := some 2, cid := 5, fn := 64, group := 0, target := none, entries := [(1310788, 273)], pages := [], stage := CommitStage.sent,
        frame := 0, todo := [], posted := false, handover := none, release := none, sentAt := 0, silent := false }, 2,
      { jid := 2, fn := 64, q := 0, cid := 5, opcode := 32, params := [0], sqHead := 0, stage := JobStage.owed }, inv_of (by decide +kernel),
      by decide +kernel⟩⟩

/-- States and operands that meet the hypotheses of ApplyLine, clause by clause. -/
theorem witness_ApplyLine :
    (∃ (s : State) (n : Nat) (c : Commit), Inv s ∧ (∀ x, c.target = some x → x = (s.fld (.scn n) F.SCN_SEQ_SEQ + 1) % 2 ^ 32) ∧ n < 8 ∧ s.atApplyLine
      n = true ∧ s.leadOf (s.groupOf n) = some n ∧ Sparse.find s.display.applySeen n ≠ some ((s.fld (.scn n) F.SCN_SEQ_SEQ + 1) % 2 ^ 32) ∧
      s.display.commits = [c] ∧ s.display.waitingRelease = [] ∧ c.group = s.groupOf n ∧ c.stage = .waiting ∧ c.release = none ∧ c.entries.length ≤
      8192 ∧ s.namesCheck (s.armedView c.entries) (s.groupOutputs c.group) c.pages c.fn = none)
      ∧ (∃ (s : State) (n : Nat) (x : Nat) (c : Commit), Inv s ∧ n < 8 ∧ s.atApplyLine n = true ∧ s.leadOf (s.groupOf n) = some n ∧ Sparse.find
        s.display.applySeen n ≠ some ((s.fld (.scn n) F.SCN_SEQ_SEQ + 1) % 2 ^ 32) ∧ s.display.commits = [c] ∧ s.display.waitingRelease = [] ∧ c.group
        = s.groupOf n ∧ c.stage = .waiting ∧ c.target = some x ∧ 0 < (x + 2 ^ 32 - (s.fld (.scn n) F.SCN_SEQ_SEQ + 1) % 2 ^ 32) % 2 ^ 32 ∧ (x + 2 ^ 32
        - (s.fld (.scn n) F.SCN_SEQ_SEQ + 1) % 2 ^ 32) % 2 ^ 32 < 2 ^ 31 ∧ x < 2 ^ 32)
      ∧ (∃ (s : State) (n : Nat) (x : Nat) (jid : Nat) (c : Commit) (j : Job), Inv s ∧ n < 8 ∧ s.atApplyLine n = true ∧ s.leadOf (s.groupOf n) = some
        n ∧ Sparse.find s.display.applySeen n ≠ some ((s.fld (.scn n) F.SCN_SEQ_SEQ + 1) % 2 ^ 32) ∧ s.display.commits = [c] ∧
        s.display.waitingRelease = [] ∧ c.group = s.groupOf n ∧ c.stage = .waiting ∧ c.target = some x ∧ 2 ^ 31 ≤ (x + 2 ^ 32 - (s.fld (.scn n)
        F.SCN_SEQ_SEQ + 1) % 2 ^ 32) % 2 ^ 32 ∧ c.jid = some jid ∧ c.silent = false ∧ c.posted = false ∧ s.owes jid j = true)
      ∧ (∃ (s : State) (n : Nat) (jid : Nat) (code : Nat) (pg : Page) (c : Commit) (j : Job), Inv s ∧ n < 8 ∧ s.atApplyLine n = true ∧ s.leadOf
        (s.groupOf n) = some n ∧ Sparse.find s.display.applySeen n ≠ some ((s.fld (.scn n) F.SCN_SEQ_SEQ + 1) % 2 ^ 32) ∧ s.display.commits = [c] ∧
        s.display.waitingRelease = [] ∧ c.group = s.groupOf n ∧ c.stage = .waiting ∧ c.release = none ∧ c.target = none ∧ c.entries.length ≤ 8192 ∧
        s.namesCheck (s.armedView c.entries) (s.groupOutputs c.group) c.pages c.fn = some (pg, code) ∧ c.jid = some jid ∧ c.silent = false ∧ c.posted
        = false ∧ s.owes jid j = true) :=
  ⟨⟨
      { State.reset with
        regs := [(2113608, 0x00040040#32)],
        display := { State.reset.display with
          disps := [(2, { idleDisp with running := true, line := 60, guard := 4 })],
          commits := [
            { 
              cno := 0, jid := some 2, cid := 5, fn := 64, group := 0, target := none, entries := [(1310788, 273)], pages := [],
              stage := CommitStage.waiting, frame := 0, todo := [], posted := false, handover := none, release := none, sentAt := 0, silent := false }] } },
      2,
      { 
        cno := 0, jid := some 2, cid := 5, fn := 64, group := 0, target := none, entries := [(1310788, 273)], pages := [],
        stage := CommitStage.waiting, frame := 0, todo := [], posted := false, handover := none, release := none, sentAt := 0, silent := false },
      inv_of (by decide +kernel), (fun _ h => nomatch h), by decide +kernel⟩,
    ⟨
      { State.reset with
        regs := [(2113608, 0x00040040#32)],
        display := { State.reset.display with
          disps := [(2, { idleDisp with running := true, line := 60, guard := 4 })],
          commits := [
            { 
              cno := 0, jid := some 2, cid := 5, fn := 64, group := 0, target := some 3, entries := [(1310788, 273)], pages := [],
              stage := CommitStage.waiting, frame := 0, todo := [], posted := false, handover := none, release := none, sentAt := 0, silent := false }] } },
      2, 3,
      { 
        cno := 0, jid := some 2, cid := 5, fn := 64, group := 0, target := some 3, entries := [(1310788, 273)], pages := [],
        stage := CommitStage.waiting, frame := 0, todo := [], posted := false, handover := none, release := none, sentAt := 0, silent := false },
      inv_of (by decide +kernel), by decide +kernel⟩,
    ⟨
      { State.reset with
        regs := [(2113608, 0x00040040#32)],
        display := { State.reset.display with
          disps := [(2, { idleDisp with running := true, line := 60, guard := 4 })],
          commits := [
            { 
              cno := 0, jid := some 2, cid := 5, fn := 64, group := 0, target := some 0, entries := [(1310788, 273)], pages := [],
              stage := CommitStage.waiting, frame := 0, todo := [], posted := false, handover := none, release := none, sentAt := 0, silent := false }] },
        hosts := { State.reset.hosts with
          queues := [], jobs := [{ jid := 2, fn := 64, q := 0, cid := 5, opcode := 32, params := [0], sqHead := 0, stage := JobStage.owed }],
          nextJid := 3 } }, 2, 0, 2,
      { 
        cno := 0, jid := some 2, cid := 5, fn := 64, group := 0, target := some 0, entries := [(1310788, 273)], pages := [],
        stage := CommitStage.waiting, frame := 0, todo := [], posted := false, handover := none, release := none, sentAt := 0, silent := false },
      { jid := 2, fn := 64, q := 0, cid := 5, opcode := 32, params := [0], sqHead := 0, stage := JobStage.owed }, inv_of (by decide +kernel),
      by decide +kernel⟩,
    ⟨
      { State.reset with
        regs := [(2113608, 0x00040040#32)],
        display := { State.reset.display with
          disps := [(2, { idleDisp with running := true, line := 60, guard := 4 })],
          commits := [
            { 
              cno := 0, jid := some 2, cid := 5, fn := 64, group := 0, target := none, entries := [(1327172, 153), (1310788, 273)],
              pages := [1327104], stage := CommitStage.waiting, frame := 0, todo := [], posted := false, handover := none, release := none,
              sentAt := 0, silent := false }] },
        hosts := { State.reset.hosts with
          queues := [], jobs := [{ jid := 2, fn := 64, q := 0, cid := 5, opcode := 32, params := [0], sqHead := 0, stage := JobStage.owed }],
          nextJid := 3 } }, 2, 2, 257, Page.slot 2 3,
      { 
        cno := 0, jid := some 2, cid := 5, fn := 64, group := 0, target := none, entries := [(1327172, 153), (1310788, 273)], pages := [1327104],
        stage := CommitStage.waiting, frame := 0, todo := [], posted := false, handover := none, release := none, sentAt := 0, silent := false },
      { jid := 2, fn := 64, q := 0, cid := 5, opcode := 32, params := [0], sqHead := 0, stage := JobStage.owed }, inv_of (by decide +kernel),
      by decide +kernel⟩⟩

/-- States and operands that meet the hypotheses of FrameBoundary, clause by clause. -/
theorem witness_FrameBoundary :
    (∃ (s : State) (n : Nat), Inv s ∧ n < 8 ∧ s.frameEnds n = true ∧ (s.disp n).stopping = false ∧ (s.frameResults n).faults.containStop.contains n =
      false ∧ s.entering 1 = false ∧ Sparse.find s.faults.early n = none ∧ s.display.commits = [] ∧ s.display.waitingRelease = [] ∧ s.pair.latched =
      [])
      ∧ (∃ (s : State) (n : Nat) (jid : Nat) (c : Commit) (j : Job), Inv s ∧ n < 8 ∧ s.frameEnds n = true ∧ (s.disp n).stopping = false ∧
        (s.frameResults n).faults.containStop.contains n = false ∧ s.entering 1 = false ∧ Sparse.find s.faults.early n = none ∧ s.display.commits =
        [c] ∧ s.display.waitingRelease = [] ∧ s.pair.latched = [] ∧ c.stage = .applying ∧ c.todo = [n] ∧ c.frame = (s.fld (.scn n) F.SCN_SEQ_SEQ + 1)
        % 2 ^ 32 ∧ c.jid = some jid ∧ c.silent = false ∧ c.posted = false ∧ c.release = none ∧ s.owes jid j = true ∧ (c.entries.map Prod.fst).Nodup ∧
        (∀ e ∈ c.entries, State.outputKey n e.1 = true ∧ State.outputOf (State.memberOf e.1) = n ∧ e.1 ≠ (Page.scn n).key F.SCN_SEQ_SEQ.off))
      ∧ (∃ (s : State) (n : Nat), Inv s ∧ n < 8 ∧ s.frameEnds n = true ∧ (s.disp n).stopping = true ∧ (s.frameResults n).faults.containStop.contains n
        = false ∧ s.entering 1 = false ∧ s.display.commits = [] ∧ s.display.waitingRelease = [] ∧ s.pair.latched = []) :=
  ⟨⟨
      { State.reset with
        regs := [(2113608, 0x00040040#32)],
        display := { State.reset.display with disps := [(2, { idleDisp with running := true, line := 63, lines := (List.replicate 64 []) })] } }, 2,
      inv_of (by decide +kernel), by decide +kernel⟩,
    ⟨
      { State.reset with
        regs := [(2113608, 0x00040040#32)],
        display := { State.reset.display with
          disps := [(2, { idleDisp with running := true, line := 63, lines := (List.replicate 64 []) })],
          commits := [
            { 
              cno := 0, jid := some 2, cid := 5, fn := 64, group := 0, target := none, entries := [(1310788, 273)], pages := [],
              stage := CommitStage.applying, frame := 1, todo := [2], posted := false, handover := none, release := none, sentAt := 0, silent := false }] },
        hosts := { State.reset.hosts with
          queues := [], jobs := [{ jid := 2, fn := 64, q := 0, cid := 5, opcode := 32, params := [0], sqHead := 0, stage := JobStage.owed }],
          nextJid := 3 } }, 2, 2,
      { 
        cno := 0, jid := some 2, cid := 5, fn := 64, group := 0, target := none, entries := [(1310788, 273)], pages := [],
        stage := CommitStage.applying, frame := 1, todo := [2], posted := false, handover := none, release := none, sentAt := 0, silent := false },
      { jid := 2, fn := 64, q := 0, cid := 5, opcode := 32, params := [0], sqHead := 0, stage := JobStage.owed }, inv_of (by decide +kernel),
      by decide +kernel⟩,
    ⟨
      { State.reset with
        regs := [(2113608, 0x00040040#32)],
        display := { State.reset.display with
          disps := [(2, { idleDisp with running := true, stopping := true, line := 63, lines := (List.replicate 64 []) })] } }, 2,
      inv_of (by decide +kernel), by decide +kernel⟩⟩

/-- States and operands that meet the hypotheses of ScanOutControl, clause by clause. -/
theorem witness_ScanOutControl :
    (∃ (s : State) (w : RegWr) (n : Nat), Inv s ∧ n < 8 ∧ s.ctrlGranted w (.scn n) F.PG_CTRL_ENABLE 1 = true ∧ s.fld (.scn n) F.PG_CTRL_ENABLE = 0 ∧
      (s.disp n).running = false ∧ s.faults.stopped.contains (Page.scn n).base = false ∧ (s.copiedTiming n).startFault n = none)
      ∧ (∃ (s : State) (w : RegWr) (n : Nat) (code : Nat) (info : Nat), Inv s ∧ n < 8 ∧ s.ctrlGranted w (.scn n) F.PG_CTRL_ENABLE 1 = true ∧ s.fld
        (.scn n) F.PG_CTRL_ENABLE = 0 ∧ (s.disp n).running = false ∧ s.faults.stopped.contains (Page.scn n).base = false ∧ (s.copiedTiming
        n).startFault n = some (code, info) ∧ s.fld (.scn n) F.ERR_CODE_CODE = 0)
      ∧ (∃ (s : State) (w : RegWr) (n : Nat), Inv s ∧ n < 8 ∧ s.ctrlGranted w (.scn n) F.PG_CTRL_ENABLE 1 = true ∧ s.fld (.scn n) F.PG_CTRL_ENABLE = 0
        ∧ s.faults.stopped.contains (Page.scn n).base = true)
      ∧ (∃ (s : State) (w : RegWr) (n : Nat), Inv s ∧ n < 8 ∧ s.ctrlGranted w (.scn n) F.PG_CTRL_ENABLE 1 = true ∧ s.fld (.scn n) F.PG_CTRL_ENABLE = 0
        ∧ s.faults.stopped.contains (Page.scn n).base = false ∧ (s.disp n).running = true)
      ∧ (∃ (s : State) (n : Nat), s.aligned n = false)
      ∧ (∃ (s : State) (n : Nat), Inv s ∧ n < 8 ∧ (s.disp n).starting = true ∧ s.power.state ≠ .fallow ∧ s.power.state ≠ .holdup ∧ s.aligned n = true
        ∧ s.display.commits = [] ∧ s.display.waitingRelease = [] ∧ Sparse.find s.faults.early n = none)
      ∧ (∃ (s : State) (w : RegWr) (n : Nat), Inv s ∧ n < 8 ∧ s.ctrlGranted w (.scn n) F.PG_CTRL_ENABLE 0 = true ∧ s.fld (.scn n) F.PG_CTRL_ENABLE = 1
        ∧ (s.disp n).running = true ∧ (s.disp n).line < (s.timing n).va)
      ∧ (∃ (s : State) (w : RegWr) (n : Nat), Inv s ∧ n < 8 ∧ s.ctrlGranted w (.scn n) F.PG_CTRL_ENABLE 0 = true ∧ s.fld (.scn n) F.PG_CTRL_ENABLE = 1
        ∧ (s.disp n).running = false)
      ∧ (∃ (s : State) (w : RegWr) (n : Nat), Inv s ∧ n < 8 ∧ s.ctrlGranted w (.scn n) F.PG_CTRL_ENABLE 0 = true ∧ s.fld (.scn n) F.PG_CTRL_ENABLE = 1
        ∧ (s.disp n).running = true ∧ (s.timing n).va ≤ (s.disp n).line ∧ s.display.commits = [] ∧ s.display.waitingRelease = [])
      ∧ (∃ (s : State) (w : RegWr) (n : Nat), Inv s ∧ n < 8 ∧ s.ctrlGranted w (.scn n) F.PG_CTRL_SOFT_RESET (2 + s.fld (.scn n) F.PG_CTRL_ENABLE) =
        true ∧ s.pageArmed (Page.scn n).base = false ∧ s.display.commits = [] ∧ s.display.waitingRelease = []) :=
  ⟨⟨
      { State.reset with
        shad := [(2113600, 0x07d00040#32), (2113604, 0x00c80064#32), (2113608, 0x00040040#32), (2113612, 0x00080002#32), (2113616, 0x000061a8#32)] },
      { req := { fn := 64, secure := false }, win := Window.pf, off := 2113544, be := 0xf#4, val := 0x00000001#32 }, 2, inv_of (by decide +kernel),
      by decide +kernel⟩,
    ⟨State.reset, { req := { fn := 64, secure := false }, win := Window.pf, off := 2113544, be := 0xf#4, val := 0x00000001#32 }, 2, 2306, 64,
      inv_of (by decide +kernel), by decide +kernel⟩,
    ⟨{ State.reset with faults := { State.reset.faults with stopped := [2113536] } },
      { req := { fn := 64, secure := false }, win := Window.pf, off := 2113544, be := 0xf#4, val := 0x00000001#32 }, 2, inv_of (by decide +kernel),
      by decide +kernel⟩,
    ⟨{ State.reset with display := { State.reset.display with disps := [(2, { idleDisp with running := true })] } },
      { req := { fn := 64, secure := false }, win := Window.pf, off := 2113544, be := 0xf#4, val := 0x00000001#32 }, 2, inv_of (by decide +kernel),
      by decide +kernel⟩,
    ⟨
      { State.reset with
        regs := [(2113616, 0x000061a8#32), (2113624, 0x00000013#32), (2121792, 0x07d00040#32), (2121800, 0x00040040#32), (2121808, 0x000061a8#32)],
        display := { State.reset.display with disps := [(3, { idleDisp with running := true })] } }, 2, by decide +kernel⟩,
    ⟨{ State.reset with display := { State.reset.display with disps := [(2, { idleDisp with starting := true })] } }, 2, inv_of (by decide +kernel),
      by decide +kernel⟩,
    ⟨
      { State.reset with
        regs := [(2113544, 0x00000001#32), (2113608, 0x00040040#32)],
        display := { State.reset.display with disps := [(2, { idleDisp with running := true })] } },
      { req := { fn := 64, secure := false }, win := Window.pf, off := 2113544, be := 0xf#4, val := 0#32 }, 2, inv_of (by decide +kernel),
      by decide +kernel⟩,
    ⟨{ State.reset with regs := [(2113544, 0x00000001#32)] },
      { req := { fn := 64, secure := false }, win := Window.pf, off := 2113544, be := 0xf#4, val := 0#32 }, 2, inv_of (by decide +kernel),
      by decide +kernel⟩,
    ⟨
      { State.reset with
        regs := [(2113544, 0x00000001#32)], display := { State.reset.display with disps := [(2, { idleDisp with running := true, line := 64 })] } },
      { req := { fn := 64, secure := false }, win := Window.pf, off := 2113544, be := 0xf#4, val := 0#32 }, 2, inv_of (by decide +kernel),
      by decide +kernel⟩,
    ⟨{ State.reset with regs := [(2113544, 0x00000001#32)] },
      { req := { fn := 64, secure := false }, win := Window.pf, off := 2113544, be := 0xf#4, val := 0x00000003#32 }, 2, inv_of (by decide +kernel),
      by decide +kernel⟩⟩

/-- States and operands that meet the hypotheses of ScanOutCounter, clause by clause. -/
theorem witness_ScanOutCounter :
    (∃ (s : State) (n : Nat) (phase : Int) (m : Monitor), Inv s ∧ n < 8 ∧ (s.disp n).running = true)
      ∧ (∃ (s : State) (n : Nat), Inv s ∧ n < 8 ∧ (s.disp n).running = true ∧ (s.disp n).fresh = false ∧ (s.disp n).line = (s.timing n).va)
      ∧ (∃ (s : State) (n : Nat), Inv s ∧ n < 8 ∧ (s.disp n).running = true ∧ (s.disp n).fresh = false ∧ (s.disp n).line = (s.timing n).va + (s.timing
        n).vfp + (s.disp n).added)
      ∧ (∃ (s : State) (n : Nat), Inv s ∧ n < 8 ∧ (s.disp n).running = true ∧ (s.disp n).fresh = false ∧ (s.disp n).line + 1 = totalLines (s.timing n)
        (s.disp n))
      ∧ (∃ (s : State) (n : Nat) (i : Nat) (en : Fld) (line : Fld), Inv s ∧ n < 8 ∧ (i, en, line) ∈ [(0, F.SCN_LM0_EN, F.SCN_LM0_LINE), (1,
        F.SCN_LM1_EN, F.SCN_LM1_LINE)] ∧ (s.disp n).running = true ∧ (s.disp n).fresh = false ∧ s.fld (.scn n) en = 1 ∧ s.fld (.scn n) line = (s.disp
        n).line)
      ∧ (∃ (s : State) (n : Nat), (s.disp n).running = false)
      ∧ (∃ (s : State) (n : Nat) (go : Bool), Inv s ∧ n < 8 ∧ (s.disp n).running = true ∧ (s.timing n).vrr = true ∧ (s.disp n).proceeded = false ∧
        (s.disp n).line + 1 = (s.timing n).va + (s.timing n).vfp + (s.disp n).added ∧ s.standby = false ∧ ((State.genlockOf (s.disp n)).1 = true →
        (State.genlockOf (s.disp n)).2.1 ≠ 8) ∧ go = ((s.disp n).applied || (s.display.commits.any fun c => c.group == s.groupOf n && c.stage ==
        .waiting) || decide ((s.timing n).vmax ≤ totalLines (s.timing n) (s.disp n))))
      ∧ (∃ (s : State) (n : Nat) (f : Nat × Nat × Nat × Bool), Inv s ∧ n < 8 ∧ (s.disp n).running = true ∧ (s.timing n).vrr = true ∧ (s.disp
        n).proceeded = false ∧ (s.disp n).line + 1 = (s.timing n).va + (s.timing n).vfp + (s.disp n).added ∧ (State.genlockOf (s.disp n)).1 = true ∧
        (State.genlockOf (s.disp n)).2.1 = 8 ∧ (s.pair.vrrFlits.find? fun g => g.1 == n && g.2.1 == s.fld (.scn n) F.SCN_SEQ_SEQ && g.2.2.1 == (s.disp
        n).line) = some f) :=
  ⟨⟨{ State.reset with display := { State.reset.display with disps := [(2, { idleDisp with running := true })] } }, 2, 0,
      { rateCrit := 0, rateGen := 0, partly := [] }, inv_of (by decide +kernel), by decide +kernel⟩,
    ⟨
      { State.reset with
        regs := [(2113608, 0x00040040#32)], display := { State.reset.display with disps := [(2, { idleDisp with running := true, line := 64 })] } },
      2, inv_of (by decide +kernel), by decide +kernel⟩,
    ⟨
      { State.reset with
        regs := [(2113608, 0x00040040#32)], display := { State.reset.display with disps := [(2, { idleDisp with running := true, line := 68 })] } },
      2, inv_of (by decide +kernel), by decide +kernel⟩,
    ⟨
      { State.reset with
        regs := [(2113608, 0x00040040#32), (2113612, 0x00080002#32)],
        display := { State.reset.display with disps := [(2, { idleDisp with running := true, line := 77 })] } }, 2, inv_of (by decide +kernel),
      by decide +kernel⟩,
    ⟨
      { State.reset with
        regs := [(2113644, 0x80000040#32)], display := { State.reset.display with disps := [(2, { idleDisp with running := true, line := 64 })] } },
      2, 1, { off := 108, hi := 31, lo := 31, acc := Acc.rw, rwl := false, sec := false, reset := some 0, dims := [] },
      { off := 108, hi := 12, lo := 0, acc := Acc.rw, rwl := false, sec := false, reset := some 0, dims := [] }, inv_of (by decide +kernel),
      by decide +kernel⟩,
    ⟨State.reset, 7, by decide +kernel⟩,
    ⟨
      { State.reset with
        regs := [(2113608, 0x00040040#32), (2113620, 0x00640001#32)],
        display := { State.reset.display with disps := [(2, { idleDisp with running := true, line := 67 })] } }, 2, false, inv_of (by decide +kernel),
      by decide +kernel⟩,
    ⟨
      { State.reset with
        regs := [(2113608, 0x00040040#32), (2113620, 0x00640001#32)],
        display := { State.reset.display with disps := [(2, { idleDisp with running := true, line := 67, genlock := 24 })] },
        pair := { State.reset.pair with vrrFlits := [(2, 0, 67, true)] } }, 2, (2, 0, 67, true), inv_of (by decide +kernel), by decide +kernel⟩⟩

/-- States and operands that meet the hypotheses of GenlockSetting, clause by clause. -/
theorem witness_GenlockSetting :
    (∃ (s : State) (w : RegWr) (n : Nat), Inv s ∧ n < 8 ∧ s.wordGranted w (.scn n) F.SCN_GENLOCK_SRC.off = true ∧ s.secretPage (accOf w (.scn n)) =
      false ∧ bits 3 0 w.val.toNat ≤ 8 ∧ (bit 4 w.val.toNat = true ∨ bits 3 0 w.val.toNat ≠ s.fld (.scn n) F.SCN_GENLOCK_SRC → bits 3 0 w.val.toNat ≠
      n ∧ (bits 3 0 w.val.toNat = 8 → s.paired = true) ∧ (bits 3 0 w.val.toNat < 8 → s.fld (.scn (bits 3 0 w.val.toNat)) F.SCN_GENLOCK_EN = 0 ∧ s.fld
      (.scn (bits 3 0 w.val.toNat)) F.SCN_MODE_VRR_EN = 0)) ∧ (bit 4 w.val.toNat = true → ∀ m < 8, m ≠ n → ¬ (s.fld (.scn m) F.SCN_GENLOCK_EN = 1 ∧
      s.fld (.scn m) F.SCN_GENLOCK_SRC = n)))
      ∧ (∃ (s : State) (w : RegWr) (n : Nat), Inv s ∧ n < 8 ∧ s.wordGranted w (.scn n) F.SCN_GENLOCK_SRC.off = true ∧ s.secretPage (accOf w (.scn n))
        = false ∧ s.writesAny (accOf w (.scn n)) = true ∧ (8 < bits 3 0 w.val.toNat ∨ ((bit 4 w.val.toNat = true ∨ bits 3 0 w.val.toNat ≠ s.fld (.scn
        n) F.SCN_GENLOCK_SRC) ∧ (bits 3 0 w.val.toNat = n ∨ (bits 3 0 w.val.toNat = 8 ∧ s.paired = false) ∨ (bits 3 0 w.val.toNat < 8 ∧ (s.fld (.scn
        (bits 3 0 w.val.toNat)) F.SCN_GENLOCK_EN = 1 ∨ s.fld (.scn (bits 3 0 w.val.toNat)) F.SCN_MODE_VRR_EN = 1)))) ∨ (bit 4 w.val.toNat = true ∧ ∃ m
        < 8, m ≠ n ∧ s.fld (.scn m) F.SCN_GENLOCK_EN = 1 ∧ s.fld (.scn m) F.SCN_GENLOCK_SRC = n))) :=
  ⟨⟨State.reset, { req := { fn := 64, secure := false }, win := Window.pf, off := 2121816, be := 0xf#4, val := 0x00000012#32 }, 3,
      inv_of (by decide +kernel), by decide +kernel⟩,
    ⟨State.reset, { req := { fn := 64, secure := false }, win := Window.pf, off := 2121816, be := 0xf#4, val := 0x00000013#32 }, 3,
      inv_of (by decide +kernel), by decide +kernel⟩⟩

/-- States and operands that meet the hypotheses of FurrowsAndLines, clause by clause. -/
theorem witness_FurrowsAndLines :
    (∃ (s : State) (s0 : State) (n : Nat) (k : Nat) (p : Nat) (row : Nat) (clock : Nat) (m : Monitor) (sl : Compose.Slot) (f : Furrow) (q : Nat ×
      Seedbed.Plane), Inv s ∧ n < 8 ∧ (s.disp n).running = true ∧ (s.fetchedSlots n (s.disp n)).find? (fun x => x.k == k) = some sl ∧ (slotFurrows sl
      (s.timing n).va).find? (fun g => g.plane == p && g.row == row) = some f ∧ (slotPlanes sl).find? (fun x => x.1 == p) = some q ∧ s0 = s.advance n
      (lineClock (s.timing n) (s.disp n) + clock) m ∧ State.fetchedNext (s0.currentFurrows n (s0.disp n) (s.timing n)) sl f = true)
      ∧ (∃ (s : State) (n : Nat), Inv s ∧ n < 8 ∧ (s.disp n).running = true ∧ (s.disp n).lines.length < (s.timing n).va ∧ ((s.disp n).lines.length < 4
        ∨ ((s.disp n).line < (s.timing n).va ∧ (s.disp n).fresh = false ∧ (s.disp n).lines.length ≤ (s.disp n).line + 4)))
      ∧ (∃ (s : State) (n : Nat), Inv s ∧ n < 8 ∧ (s.disp n).running = true ∧ (s.disp n).lines.length < (s.timing n).va ∧ ((s.disp n).lines.length < 4
        ∨ ((s.disp n).line < (s.timing n).va ∧ (s.disp n).fresh = false ∧ (s.disp n).lines.length ≤ (s.disp n).line + 4)) ∧ (∀ sl ∈ State.frameSlots
        (s.frameView n) n, sl.en = false)) :=
  ⟨⟨
      { State.reset with
        regs := [
          (68, 0x00000017#32), (131136, 0x08000000#32), (135232, 0x00100000#32), (262152, 0x00000001#32), (262156, 0x00000001#32),
          (262228, 0x00000040#32), (266248, 0x00000001#32), (266252, 0x00000001#32), (266304, 0x08000000#32), (266312, 0x00000008#32),
          (266332, 0x00000040#32), (266376, 0x00000001#32), (589888, 0x00000003#32), (1310728, 0x00000001#32), (1310732, 0x00010001#32),
          (1335304, 0x00000001#32), (1335364, 0x00010000#32), (1335372, 0x00080010#32), (1335380, 0x00080010#32), (1335384, 0x00020003#32),
          (1335388, 0x00080010#32), (1380364, 0x00010000#32), (2113544, 0x00000001#32), (2113548, 0x00070001#32), (2113600, 0x07d00040#32),
          (2113604, 0x00c80064#32), (2113608, 0x00040040#32), (2113612, 0x00080002#32), (2113616, 0x000061a8#32), (2113636, 0x00000040#32)],
        shad := [(2113600, 0x07d00040#32), (2113604, 0x00c80064#32), (2113608, 0x00040040#32), (2113612, 0x00080002#32), (2113616, 0x000061a8#32)],
        mem := [(1048576, 0x40#8), (1048577, 0x0a#8), (67371008, 0x75#8), (67371009, 0x0c#8), (67371010, 0x2d#8), (67371011, 0x1e#8)],
        out := [
          Output.completion 64 0 0 [5, 65536, 0, 0, 268435712, 0, 0, 0, 0, 0, 0, 0, 0, 0, 0, 0], Output.message 64 0,
          Output.completion 64 0 1 [5, 65536, 0, 0, 65536, 0, 0, 0, 0, 0, 0, 0, 0, 0, 0, 0], Output.message 64 0],
        pool := { State.reset.pool with
          chans := { used := [(0, { kind := 1, fn := 64, draining := false, destroyJob := none })], gens := [], fresh := 1, freed := [] },
          bufs := { 
            used := [
              (
                0,
                { 
                  state := BufState.live, chan := 0, chanHandle := 268435712, fn := 64, plots := [0], size := 65536, fences := 0, toFill := [],
                  allocJob := none, freeJob := none, freeAfterFill := false })], gens := [], fresh := 1, freed := [] },
          plots := { fresh := 1, freed := [], retired := [], marked := [] }, peak := [(64, 1)] },
        display := { State.reset.display with
          disps := [
            (
              2,
              { idleDisp with
                running := true, line := 64, guard := 4, lead := 16548,
                frame := [
                  (1310728, 0x00000001#32), (1310732, 0x00000001#32), (1335304, 0x00000001#32), (1335364, 0x00010000#32), (1335372, 0x00080010#32),
                  (1335380, 0x00080010#32), (1335384, 0x00020003#32), (1335388, 0x00080010#32), (2113544, 0x00000001#32), (2113548, 0x00020001#32),
                  (2113600, 0x07d00040#32), (2113604, 0x00c80064#32), (2113608, 0x00040040#32), (2113612, 0x00080002#32), (2113616, 0x000061a8#32)] })] },
        hosts := { State.reset.hosts with queues := [(512, { idleQueue with state := QState.running })], nextJid := 2 } },
      { 
        pending := [], part := Part.sx8400,
        regs := [
          (68, 0x00000017#32), (131136, 0x08000000#32), (135232, 0x00100000#32), (262152, 0x00000001#32), (262156, 0x00000001#32),
          (262228, 0x00000040#32), (266248, 0x00000001#32), (266252, 0x00000001#32), (266304, 0x08000000#32), (266312, 0x00000008#32),
          (266332, 0x00000040#32), (266376, 0x00000001#32), (589888, 0x00000003#32), (1310728, 0x00000001#32), (1310732, 0x00010001#32),
          (1335304, 0x00000001#32), (1335364, 0x00010000#32), (1335372, 0x00080010#32), (1335380, 0x00080010#32), (1335384, 0x00020003#32),
          (1335388, 0x00080010#32), (1380364, 0x00010000#32), (2113544, 0x00000001#32), (2113548, 0x00070001#32), (2113600, 0x07d00040#32),
          (2113604, 0x00c80064#32), (2113608, 0x00040040#32), (2113612, 0x00080002#32), (2113616, 0x000061a8#32), (2113636, 0x00000040#32)],
        shad := [(2113600, 0x07d00040#32), (2113604, 0x00c80064#32), (2113608, 0x00040040#32), (2113612, 0x00080002#32), (2113616, 0x000061a8#32)],
        loaded := [], staged := [], latched := [], softResetting := [],
        mem := [(1048576, 0x40#8), (1048577, 0x0a#8), (67371008, 0x75#8), (67371009, 0x0c#8), (67371010, 0x2d#8), (67371011, 0x1e#8)],
        out := [
          Output.completion 64 0 0 [5, 65536, 0, 0, 268435712, 0, 0, 0, 0, 0, 0, 0, 0, 0, 0, 0], Output.message 64 0,
          Output.completion 64 0 1 [5, 65536, 0, 0, 65536, 0, 0, 0, 0, 0, 0, 0, 0, 0, 0, 0], Output.message 64 0], free := 0, now := 0,
        time := { dtime := 0, frac := 0, ticks := 0, tickFrac := 0, dtimeE := 0, tickE := 0, calE := 0, captured := false },
        power := { 
          state := PowerState.run, req := none, ranOutputs := [], stateGated := [], saveList := [], sram := none, recordN := 0, consumed := true,
          recordOk := true, slotA := none, slotB := none, copyRegs := [], copyShad := [], copyOk := false, doorbells := [], wake := none,
          attempts := 0, wakeAt := 0, wakeWait := false, resume := false, sagAt := 0, flushed := false, saving := false, restart := false,
          links := [], wakeEn := 127, readyAtSag := false, noResume := false, alarmArmed := false, pmb := none, railMap := [], pmbPage := [] },
        dram := { chans := [], nextRid := 0, lastTrained := 15, trainedAt := none },
        edac := { log := [], plotList := [], bankList := [], retiring := none },
        pool := { 
          chans := { used := [(0, { kind := 1, fn := 64, draining := false, destroyJob := none })], gens := [], fresh := 1, freed := [] },
          bufs := { 
            used := [
              (
                0,
                { 
                  state := BufState.live, chan := 0, chanHandle := 268435712, fn := 64, plots := [0], size := 65536, fences := 0, toFill := [],
                  allocJob := none, freeJob := none, freeAfterFill := false })], gens := [], fresh := 1, freed := [] },
          plots := { fresh := 1, freed := [], retired := [], marked := [] }, fillQueue := [], peak := [(64, 1)], cache := [] },
        ingest := { engines := [], nextSeq := 0, ended := 0, lastEnd := [] },
        display := { 
          disps := [
            (
              2,
              { 
                running := true, starting := false, stopping := false, again := false, line := 64, fresh := false, guard := 4, genlock := 0,
                added := 0, adjust := 0, correct := 0, proceeded := false, lead := 16548,
                frame := [
                  (1310728, 0x00000001#32), (1310732, 0x00000001#32), (1335304, 0x00000001#32), (1335364, 0x00010000#32), (1335372, 0x00080010#32),
                  (1335380, 0x00080010#32), (1335384, 0x00020003#32), (1335388, 0x00080010#32), (2113544, 0x00000001#32), (2113548, 0x00020001#32),
                  (2113600, 0x07d00040#32), (2113604, 0x00c80064#32), (2113608, 0x00040040#32), (2113612, 0x00080002#32), (2113616, 0x000061a8#32)],
                released := [], failing := [], handed := [], tiles := [], spoiled := [], arrived := [], sheets := [], newSheets := [], lines := [],
                composeEnd := 0, shed := [], shedSeen := [327680], slack := [], twoPass := 0, eliminated := 0, subst := [], live := [],
                shedSpans := 0, underruns := 0, drops := 0, shedMax := none, creditMin := none, gsFallback := [], failedBefore := [], regions := [],
                regionsDone := [], results := [], goodPhase := 0, trim := 0, missed := false, applied := false, changed := false, doneMark := 0,
                resumed := false })], commits := [], fences := [], released := [], waitingRelease := [], grants := [], newGrants := [],
          reserves := [], applySeen := [], acted := [] }, dpls := [], cvus := [], touch := { engines := [], handoffs := [] },
        haptic := { rules := [], extents := [], chans := [], taps := [], stalled := [], adds := [], plays := [] },
        audio := { 
          active := [], old := [], armed := none, todo := [], xfade := 0, fades := [], applying := false, streams := [], buses := [], bridges := [],
          joining := [], fresh := [], fadeIn := [], pause := 0, late := [], side := [], closing := [], faded := [] },
        age := { 
          mvNow := [], mvPlan := [], mhzNow := [], mhzPlan := [], applying := false, changed := false, caps := [], measured := [], ledger := [],
          hours := 0, survey := none, waiting := none, surveys := 0, record := none },
        update := { 
          state := 0, holder := 0, kind := 0, target := 0, staged := 0, running := none, flash := [],
          copy0 := { 
            seq := 1, crcOk := true,
            data := { 
              xiresol := { confirmed := 0, trial := none, attempts := 0 }, microcode := { confirmed := 0, trial := none, attempts := 0 },
              settings := { confirmed := 0, trial := none, attempts := 0 }, when_ := 0 } },
          copy1 := { 
            seq := 0, crcOk := true,
            data := { 
              xiresol := { confirmed := 0, trial := none, attempts := 0 }, microcode := { confirmed := 0, trial := none, attempts := 0 },
              settings := { confirmed := 0, trial := none, attempts := 0 }, when_ := 0 } }, trials := [], begun := [], reason := 0, fuses := [],
          burn := [], micro := [], loading := false, motion := false, motionAt := none, journal := (0, 0, 0) },
        faults := { 
          log := [], tail := [], nextLog := 0, fatal := none, fatalAt := 0, halted := false, fatalCount := 0, fatalLast := 0, restarts := [],
          inReset := false, cause := 1, recovery := false, settings := none, releasedAt := 0, early := [], containStop := [], stopped := [],
          thermtrip := false }, worlds := { gateTable := [], cores := [], gateFaults := 0, waking := [], waitingSecure := [] },
        hosts := { 
          queues := [
            (
              512,
              { 
                state := QState.running, sqHead := 0, sqTail := 0, cqHead := 0, cqTail := 0, phase := false, unsignalled := 0, oldest := 0, held := [] })],
          fns := [], jobs := [], nextJid := 2, coreEntries := [], fetchStopped := false, rounds := [], lastQ := [], unmasked := [], msiPending := [],
          heldIrqs := [] },
        pair := { 
          state := PairState.waiting, guyOut := false, guyIn := false, guyFault := false, linkUp := false, trained := false, edgeAt := 0,
          wasAsserted := false, collision := false, backoff := false, backoffUs := 0, pProtocol := 0, pPosition := 0, pState := 0, pGuyOut := false,
          pGuyIn := false, pVersion := 0, pDtime := 0, pApplied := 0, guyDiffer := 0, lastReason := 0, wakeReason := 0, versionDiff := false,
          txSeq := 1, rxSeq := 1, acked := 0, discarding := false, recovering := false, replay := [], control := [], ordered := [], sentOrdered := 0,
          applied := 0, mirrorFence := [], resyncing := false, resyncPlots := [], syncWords := [], resyncItems := 0, nextRec := 0, held := [],
          handover := 0, handoverAt := 0, offered := none, ownDigests := [], partnerDigests := [], partnerRuns := [], refusedCount := 0,
          refusedPlot := none, skewed := [], syncT1 := none, vrrFlits := [], storedGenlock := [], latched := [], releasedAt := 0, pFallow := false,
          sinceSync := [], mismatched := [], recPlots := [], keptFree := [], keptChans := [], resyncAfter := false, applySent := [], lineZero := [],
          frameErr := [], partnerZero := [] } }, 2, 5, 0, 0, 100, { rateCrit := 0, rateGen := 0, partly := [] },
      { 
        n := 2, k := 5, en := true, mode := 0, isOpaque := false, solid := false, imtx := false, degamma := false, gmtx := false, gsImage := false,
        buf := 65536, format := 1, seedbed := false, w := 16, h := 8, cx := 0, cy := 0, cw := 16, ch := 8, dx := 3, dy := 2, dw := 16, dh := 8,
        pa := 65535, color := 0, gsColor := 4278190080, gsBuf := 0, gsW := 0, gsH := 0, crit := 0, fn := 64, world := false },
      { plane := 0, row := 0, line := 2 }, (0, { tileW := 8, tileH := 8, bytes := 4, chans := [(0, 8), (8, 8), (16, 8), (24, 8)] }),
      inv_of (by decide +kernel), by decide +kernel⟩,
    ⟨
      { State.reset with
        regs := [(2113608, 0x00040040#32)], display := { State.reset.display with disps := [(2, { idleDisp with running := true })] } }, 2,
      inv_of (by decide +kernel), by decide +kernel⟩,
    ⟨
      { State.reset with
        regs := [(2113608, 0x00040040#32)], display := { State.reset.display with disps := [(2, { idleDisp with running := true })] } }, 2,
      inv_of (by decide +kernel), by decide +kernel⟩⟩

/-- States and operands that meet the hypotheses of TransmitterEnable, clause by clause. -/
theorem witness_TransmitterEnable :
    (∃ (s : State) (w : RegWr) (n : Nat), Inv s ∧ n < 8 ∧ s.ctrlGranted w (.dpl n) F.PG_CTRL_ENABLE 1 = true ∧ s.fld (.dpl n) F.PG_CTRL_ENABLE = 0 ∧
      s.dplFault n = none ∧ ((s.dpl n).hpd && s.flag (.dpl n) F.DPL_CTRL_AUTO_TRAIN) = false)
      ∧ (∃ (s : State) (w : RegWr) (n : Nat), Inv s ∧ n < 8 ∧ s.ctrlGranted w (.dpl n) F.PG_CTRL_ENABLE 1 = true ∧ s.fld (.dpl n) F.PG_CTRL_ENABLE = 0
        ∧ s.dplFault n = none ∧ (s.dpl n).hpd = true ∧ s.flag (.dpl n) F.DPL_CTRL_AUTO_TRAIN = true ∧ (s.dpl n).dead = false ∧ (s.dpl n).idleHold =
        false ∧ s.configs n ≠ [])
      ∧ (∃ (s : State) (w : RegWr) (n : Nat) (code : Nat), Inv s ∧ n < 8 ∧ s.ctrlGranted w (.dpl n) F.PG_CTRL_ENABLE 1 = true ∧ s.fld (.dpl n)
        F.PG_CTRL_ENABLE = 0 ∧ s.dplFault n = some code)
      ∧ (∃ (s : State) (w : RegWr) (n : Nat), Inv s ∧ n < 8 ∧ s.ctrlGranted w (.dpl n) F.PG_CTRL_ENABLE 0 = true ∧ s.fld (.dpl n) F.PG_CTRL_ENABLE =
        1)
      ∧ (∃ (s : State) (n : Nat), Inv s ∧ n < 8 ∧ (s.dpl n).idleHold = true ∧ (s.dpl n).powered = true ∧ (s.dpl n).hpd = true ∧ (s.dpl n).dead = false
        ∧ s.configs n ≠ []) :=
  ⟨⟨State.reset, { req := { fn := 64, secure := false }, win := Window.pf, off := 2109448, be := 0xf#4, val := 0x00000001#32 }, 1,
      inv_of (by decide +kernel), by decide +kernel⟩,
    ⟨{ State.reset with dpls := [(1, { idleDpl with hpd := true })] },
      { req := { fn := 64, secure := false }, win := Window.pf, off := 2109448, be := 0xf#4, val := 0x00000001#32 }, 1, inv_of (by decide +kernel),
      by decide +kernel⟩,
    ⟨{ State.reset with regs := [(2109504, 0x0000041e#32)] },
      { req := { fn := 64, secure := false }, win := Window.pf, off := 2109448, be := 0xf#4, val := 0x00000001#32 }, 1, 6, inv_of (by decide +kernel),
      by decide +kernel⟩,
    ⟨{ State.reset with regs := [(2109448, 0x00000001#32)] },
      { req := { fn := 64, secure := false }, win := Window.pf, off := 2109448, be := 0xf#4, val := 0#32 }, 1, inv_of (by decide +kernel),
      by decide +kernel⟩,
    ⟨{ State.reset with dpls := [(1, { idleDpl with powered := true, hpd := true, idleHold := true })] }, 1, inv_of (by decide +kernel),
      by decide +kernel⟩⟩

/-- States and operands that meet the hypotheses of HotPlugAndTraining, clause by clause. -/
theorem witness_HotPlugAndTraining :
    (∃ (s : State) (n : Nat) (sink : Nat) (bp : Bool), Inv s ∧ n < 8 ∧ (s.dpl n).hpd = false ∧ s.asleep = false ∧ ((s.dpl n).powered && s.flag (.dpl
      n) F.DPL_CTRL_AUTO_TRAIN) = false)
      ∧ (∃ (s : State) (n : Nat) (sink : Nat) (bp : Bool), Inv s ∧ n < 8 ∧ (s.dpl n).hpd = false ∧ s.asleep = false ∧ (s.dpl n).powered = true ∧
        s.flag (.dpl n) F.DPL_CTRL_AUTO_TRAIN = true ∧ (s.dpl n).dead = false ∧ (s.dpl n).idleHold = false)
      ∧ (∃ (s : State) (n : Nat), Inv s ∧ n < 8 ∧ (s.dpl n).hpd = true ∧ s.asleep = false)
      ∧ (∃ (s : State) (n : Nat), Inv s ∧ n < 8 ∧ (s.dpl n).hpd = true ∧ s.asleep = false)
      ∧ (∃ (s : State) (n : Nat) (i : Nat) (c : Nat × Nat), Inv s ∧ n < 8 ∧ (s.dpl n).hpd = true ∧ s.asleep = false ∧ (s.dpl n).dead = false ∧ (s.dpl
        n).idleHold = false ∧ (s.dpl n).trained = some c ∧ (s.configs n).findIdx? (· == c) = some i)
      ∧ (∃ (s : State) (n : Nat) (i : Nat) (c : Nat × Nat), Inv s ∧ n < 8 ∧ (s.dpl n).hpd = true ∧ s.asleep = false ∧ (s.dpl n).dead = false ∧ (s.dpl
        n).idleHold = false ∧ (s.dpl n).trained = some c ∧ (s.configs n).findIdx? (· == c) = some i)
      ∧ (∃ (s : State) (n : Nat) (c : Nat × Nat) (rest : List (Nat × Nat)), Inv s ∧ n < 8 ∧ (s.dpl n).toTry = c :: rest)
      ∧ (∃ (s : State) (n : Nat) (c : Nat × Nat) (rest : List (Nat × Nat)), Inv s ∧ n < 8 ∧ (s.dpl n).toTry = c :: rest ∧ rest ≠ [])
      ∧ (∃ (s : State) (n : Nat) (c : Nat × Nat), Inv s ∧ n < 8 ∧ (s.dpl n).toTry = [c]) :=
  ⟨⟨State.reset, 1, 19, true, inv_of (by decide +kernel), by decide +kernel⟩,
    ⟨{ State.reset with dpls := [(1, { idleDpl with powered := true })] }, 1, 19, true, inv_of (by decide +kernel), by decide +kernel⟩,
    ⟨{ State.reset with dpls := [(1, { idleDpl with hpd := true })] }, 1, inv_of (by decide +kernel), by decide +kernel⟩,
    ⟨{ State.reset with dpls := [(1, { idleDpl with hpd := true })] }, 1, inv_of (by decide +kernel), by decide +kernel⟩,
    ⟨{ State.reset with regs := [(2109516, 0x00000013#32)], dpls := [(1, { idleDpl with hpd := true, trained := some (2, 4) })] }, 1, 1, (2, 4),
      inv_of (by decide +kernel), by decide +kernel⟩,
    ⟨{ State.reset with regs := [(2109516, 0x00000013#32)], dpls := [(1, { idleDpl with hpd := true, trained := some (2, 4) })] }, 1, 1, (2, 4),
      inv_of (by decide +kernel), by decide +kernel⟩,
    ⟨
      { State.reset with
        dpls := [(1, { idleDpl with toTry := [(3, 4), (2, 4), (1, 4), (0, 4), (3, 2), (2, 2), (1, 2), (0, 2), (3, 1), (2, 1), (1, 1), (0, 1)] })] },
      1, (3, 4), [(2, 4), (1, 4), (0, 4), (3, 2), (2, 2), (1, 2), (0, 2), (3, 1), (2, 1), (1, 1), (0, 1)], inv_of (by decide +kernel),
      by decide +kernel⟩,
    ⟨
      { State.reset with
        dpls := [(1, { idleDpl with toTry := [(3, 4), (2, 4), (1, 4), (0, 4), (3, 2), (2, 2), (1, 2), (0, 2), (3, 1), (2, 1), (1, 1), (0, 1)] })] },
      1, (3, 4), [(2, 4), (1, 4), (0, 4), (3, 2), (2, 2), (1, 2), (0, 2), (3, 1), (2, 1), (1, 1), (0, 1)], inv_of (by decide +kernel),
      by decide +kernel⟩,
    ⟨{ State.reset with dpls := [(1, { idleDpl with toTry := [(1, 1)] })] }, 1, (1, 1), inv_of (by decide +kernel), by decide +kernel⟩⟩

/-- States and operands that meet the hypotheses of AuxAndPps, clause by clause. -/
theorem witness_AuxAndPps :
    (∃ (s : State) (w : RegWr) (n : Nat) (len : Nat) (req : Nat) (addr : Nat) (data : List Nat), Inv s ∧ n < 8 ∧ s.wordGranted w (.dpl n) 0x064 = true
      ∧ s.secretPage (accOf w (.dpl n)) = false ∧ s.grants (accOf w (.dpl n)) F.DPL_AUX_CTRL_GO = true ∧ (s.dpl n).aux = none ∧ s.auxDown n = false ∧
      len = bits 4 0 w.val.toNat ∧ req = s.fld (.dpl n) F.DPL_AUX_ADDR_REQ ∧ addr = s.fld (.dpl n) F.DPL_AUX_ADDR_ADDR ∧ len ≤ 16 ∧ (len = 0 →
      State.auxNative req = false) ∧ ((s.dpl n).trained.isSome = true → State.auxOwned req addr len = false) ∧ data = (if bit 0 req then [] else
      (List.range len).map fun i => bits (8 * (i % 4) + 7) (8 * (i % 4)) (s.rw ((Page.dpl n).key (0x070 + 4 * (i / 4))))))
      ∧ (∃ (s : State) (w : RegWr) (n : Nat), Inv s ∧ n < 8 ∧ s.wordGranted w (.dpl n) 0x064 = true ∧ s.secretPage (accOf w (.dpl n)) = false ∧
        s.grants (accOf w (.dpl n)) F.DPL_AUX_CTRL_GO = true ∧ (s.dpl n).aux = none ∧ s.auxDown n = true ∧ bits 4 0 w.val.toNat ≤ 16 ∧ (bits 4 0
        w.val.toNat = 0 → State.auxNative (s.fld (.dpl n) F.DPL_AUX_ADDR_REQ) = false) ∧ (s.dpl n).trained = none)
      ∧ (∃ (s : State) (w : RegWr) (n : Nat), Inv s ∧ n < 8 ∧ s.wordGranted w (.dpl n) 0x064 = true ∧ s.secretPage (accOf w (.dpl n)) = false ∧ (s.dpl
        n).aux.isSome = true ∧ s.writesAny (accOf w (.dpl n)) = true)
      ∧ (∃ (s : State) (w : RegWr) (n : Nat) (o : Nat), Inv s ∧ n < 8 ∧ o ∈ [0x060, 0x070, 0x074, 0x078, 0x07C] ∧ s.wordGranted w (.dpl n) o = true ∧
        s.secretPage (accOf w (.dpl n)) = false ∧ (s.dpl n).aux.isSome = true ∧ s.writesAny (accOf w (.dpl n)) = true)
      ∧ (∃ (s : State) (n : Nat) (reply : Nat) (bytes : Nat) (data : List Nat) (x : Aux), Inv s ∧ n < 8 ∧ (s.dpl n).aux = some x ∧ (s.dpl n).auxHeld =
        false ∧ x.len ≤ 16 ∧ reply < 16 ∧ State.auxDefers reply = false ∧ (∀ v ∈ data, v < 256))
      ∧ (∃ (s : State) (n : Nat) (reply : Nat) (bytes : Nat) (data : List Nat) (x : Aux), Inv s ∧ n < 8 ∧ (s.dpl n).aux = some x ∧ (s.dpl n).auxHeld =
        false ∧ reply < 16 ∧ State.auxDefers reply = true ∧ s.fld (.dpl n) F.DPL_AUX_STAT_DEFERS < 6)
      ∧ (∃ (s : State) (n : Nat) (x : Aux), Inv s ∧ n < 8 ∧ (s.dpl n).aux = some x ∧ (s.dpl n).auxHeld = false ∧ s.fld (.dpl n)
        F.DPL_AUX_STAT_TIMEOUTS < 2)
      ∧ (∃ (s : State) (n : Nat) (x : Aux), Inv s ∧ n < 8 ∧ (s.dpl n).aux = some x ∧ (s.dpl n).auxHeld = false ∧ s.fld (.dpl n)
        F.DPL_AUX_STAT_TIMEOUTS = 2)
      ∧ (∃ (s : State) (r : RegRd) (n : Nat), Inv s ∧ n < 8 ∧ s.readReaches r (.dpl n) = true ∧ r.off % 0x1000 = 0x084) :=
  ⟨⟨{ State.reset with regs := [(2109536, 0x09012345#32)], dpls := [(1, { idleDpl with powered := true })] },
      { req := { fn := 64, secure := false }, win := Window.pf, off := 2109540, be := 0xf#4, val := 0x80000003#32 }, 1, 3, 9, 74565, [],
      inv_of (by decide +kernel), by decide +kernel⟩,
    ⟨State.reset, { req := { fn := 64, secure := false }, win := Window.pf, off := 2109540, be := 0xf#4, val := 0x80000003#32 }, 1,
      inv_of (by decide +kernel), by decide +kernel⟩,
    ⟨{ State.reset with dpls := [(1, { idleDpl with aux := some { req := 9, addr := 74565, len := 3, data := [] } })] },
      { req := { fn := 64, secure := false }, win := Window.pf, off := 2109540, be := 0xf#4, val := 0x80000005#32 }, 1, inv_of (by decide +kernel),
      by decide +kernel⟩,
    ⟨{ State.reset with dpls := [(1, { idleDpl with aux := some { req := 9, addr := 74565, len := 3, data := [] } })] },
      { req := { fn := 64, secure := false }, win := Window.pf, off := 2109536, be := 0xf#4, val := 0x09000005#32 }, 1, 96,
      inv_of (by decide +kernel), by decide +kernel⟩,
    ⟨{ State.reset with dpls := [(1, { idleDpl with aux := some { req := 9, addr := 74565, len := 3, data := [] } })] }, 1, 0, 5, [1, 2, 3, 4],
      { req := 9, addr := 74565, len := 3, data := [] }, inv_of (by decide +kernel), by decide +kernel⟩,
    ⟨{ State.reset with dpls := [(1, { idleDpl with aux := some { req := 9, addr := 74565, len := 3, data := [] } })] }, 1, 2, 5, [1, 2, 3, 4],
      { req := 9, addr := 74565, len := 3, data := [] }, inv_of (by decide +kernel), by decide +kernel⟩,
    ⟨{ State.reset with dpls := [(1, { idleDpl with aux := some { req := 9, addr := 74565, len := 3, data := [] } })] }, 1,
      { req := 9, addr := 74565, len := 3, data := [] }, inv_of (by decide +kernel), by decide +kernel⟩,
    ⟨
      { State.reset with
        regs := [(2109544, 0x00200001#32)], dpls := [(1, { idleDpl with aux := some { req := 9, addr := 74565, len := 3, data := [] } })] }, 1,
      { req := 9, addr := 74565, len := 3, data := [] }, inv_of (by decide +kernel), by decide +kernel⟩,
    ⟨State.reset, { req := { fn := 64, secure := false }, win := Window.pf, off := 2109572 }, 1, inv_of (by decide +kernel), by decide +kernel⟩⟩

/-- States and operands that meet the hypotheses of DramTraffic, clause by clause. -/
theorem witness_DramTraffic :
    (∃ (s : State) (q : DramReq), Inv s ∧ q.addr % 16 = 0 ∧ 0 < q.words ∧ q.addr % 256 + 16 * q.words ≤ 256 ∧ q.addr < s.installed ∧ s.inCheckArea
      q.addr = false ∧ q.world = true ∧ q.applet = false ∧ q.addr < s.watermark ∧ (s.place q.addr).ch < s.channels)
      ∧ (∃ (s : State) (q : DramReq), Inv s ∧ q.addr % 16 = 0 ∧ 0 < q.words ∧ q.addr % 256 + 16 * q.words ≤ 256 ∧ q.addr < s.installed ∧ s.inCheckArea
        q.addr = false ∧ q.world = false ∧ q.addr < s.watermark)
      ∧ (∃ (s : State) (s1 : State) (q : DramReq) (ch : Nat), Inv s ∧ ch = (s1.place (q.addr / 16 * 16)).ch ∧ s.guardRequest ⟨q.fn, q.world,
        s.stampCrit q, q.port, false, false⟩ q.applet q.data.isSome (q.addr / 16 * 16) = (true, s1) ∧ 0 < q.words ∧ q.addr / 16 * 16 % 256 + 16 *
        q.words ≤ 256)
      ∧ (∃ (s : State) (s1 : State) (q : DramReq), Inv s ∧ s.guardRequest ⟨q.fn, q.world, s.stampCrit q, q.port, false, false⟩ q.applet q.data.isSome
        (q.addr / 16 * 16) = (false, s1) ∧ 0 < q.words ∧ q.addr / 16 * 16 % 256 + 16 * q.words ≤ 256)
      ∧ (∃ (s : State) (n : Nat) (q : DramItem) (rest : List Nat) (w : Nat), Inv s ∧ n < s.channels ∧ s.issue n (s.drainStep n (s.dmc n)) = some (q,
        rest) ∧ (s.dmc n).training = false ∧ (s.dmc n).failed = false ∧ (s.dmc n).selfRefresh = false ∧ q.data = some [(w, 0xFFFF)] ∧ q.words = 1 ∧
        q.addr % 16 = 0 ∧ w < 2 ^ 128 ∧ q.port < 12 ∧ s.inCheckArea q.addr = false)
      ∧ (∃ (s : State) (n : Nat) (q : DramItem) (rest : List Nat) (w : Nat), Inv s ∧ n < s.channels ∧ s.issue n (s.drainStep n (s.dmc n)) = some (q,
        rest) ∧ (s.dmc n).training = false ∧ (s.dmc n).failed = false ∧ (s.dmc n).selfRefresh = false ∧ q.data = none ∧ q.words = 1 ∧ q.addr % 16 = 0
        ∧ q.port < 12 ∧ s.lookWord q.addr = .clean w)
      ∧ (∃ (s : State) (n : Nat) (p : DramItem) (q : DramItem), (s.dmc n).reqs.Pairwise (fun a b => a.rid < b.rid) ∧ (s.dmc n).batch = [] ∧ p ∈ (s.dmc
        n).reqs ∧ q ∈ (s.dmc n).reqs ∧ p.rid < q.rid ∧ s.rowOf p = s.rowOf q ∧ s.ordered p q = true)
      ∧ (∃ (s : State) (n : Nat), Inv s ∧ n < s.channels ∧ (s.dmc n).reqs = [] ∧ (s.dmc n).training = false ∧ (s.dmc n).failed = false ∧ (s.dmc
        n).selfRefresh = false ∧ (s.dmc n).lastUse + 1000 ≤ s.now) :=
  ⟨⟨{ State.reset with regs := [(131136, 0x08000000#32)] },
      { fn := 65, world := true, applet := false, crit := 3, port := 9, addr := 4656, words := 1, data := none }, inv_of (by decide +kernel),
      by decide +kernel⟩,
    ⟨{ State.reset with regs := [(131136, 0x08000000#32)] },
      { fn := 65, world := false, applet := false, crit := 3, port := 9, addr := 4656, words := 1, data := none }, inv_of (by decide +kernel),
      by decide +kernel⟩,
    ⟨State.reset, (guarded secureRead).2, secureRead, ((guarded secureRead).2.place 0).ch, inv_of (by decide +kernel), rfl,
      Prod.ext (by decide +kernel) rfl, by decide +kernel⟩,
    ⟨State.reset, (guarded hostRead).2, hostRead, inv_of (by decide +kernel), Prod.ext (by decide +kernel) rfl, by decide +kernel⟩,
    ⟨
      { State.reset with
        dram := { State.reset.dram with
          chans := [
            (
              3,
              { State.idleDmc with
                reqs := [
                  { 
                    rid := 0, fn := 65, world := true, crit := 3, port := 9, addr := 4656, words := 1, data := some [(12345678901234567890, 65535)],
                    arrived := 0 }] })] } }, 3,
      { 
        rid := 0, fn := 65, world := true, crit := 3, port := 9, addr := 4656, words := 1, data := some [(12345678901234567890, 65535)], arrived := 0 },
      [], 12345678901234567890, inv_of (by decide +kernel), by decide +kernel⟩,
    ⟨
      { State.reset with
        dram := { State.reset.dram with
          chans := [
            (
              3,
              { State.idleDmc with
                reqs := [{ rid := 0, fn := 65, world := true, crit := 3, port := 9, addr := 4656, words := 1, data := none, arrived := 0 }] })] } },
      3, { rid := 0, fn := 65, world := true, crit := 3, port := 9, addr := 4656, words := 1, data := none, arrived := 0 }, [], 0,
      inv_of (by decide +kernel), by decide +kernel⟩,
    ⟨
      { State.reset with
        dram := { State.reset.dram with
          chans := [
            (
              3,
              { State.idleDmc with
                reqs := [
                  { rid := 1, fn := 65, world := true, crit := 3, port := 9, addr := 4656, words := 1, data := none, arrived := 0 },
                  { rid := 2, fn := 65, world := true, crit := 3, port := 9, addr := 4656, words := 1, data := some [(7, 65535)], arrived := 0 }] })] } },
      3, { rid := 1, fn := 65, world := true, crit := 3, port := 9, addr := 4656, words := 1, data := none, arrived := 0 },
      { rid := 2, fn := 65, world := true, crit := 3, port := 9, addr := 4656, words := 1, data := some [(7, 65535)], arrived := 0 },
      by decide +kernel⟩,
    ⟨{ State.reset with now := 5000 }, 3, inv_of (by decide +kernel), by decide +kernel⟩⟩

/-- States and operands that meet the hypotheses of DramMaintenance, clause by clause. -/
theorem witness_DramMaintenance :
    (∃ (s : State) (n : Nat), Inv s ∧ n < 16 ∧ (s.dmc n).failed = false ∧ (s.dmc n).selfRefresh = false ∧ (s.dmc n).training = false ∧ s.refreshBusy n
      = false ∧ s.fld (.dmc n) F.DMC_REF_STAT_DEBT = 0)
      ∧ (∃ (s : State) (n : Nat), Inv s ∧ n < 16 ∧ (s.dmc n).failed = false ∧ (s.dmc n).selfRefresh = false ∧ (s.dmc n).training = false ∧
        s.refreshBusy n = true ∧ s.fld (.dmc n) F.DMC_REF_STAT_DEBT < s.fld (.dmc n) F.DMC_REF_CTRL_POSTPONE_MAX)
      ∧ (∃ (s : State) (n : Nat), Inv s ∧ n < 16 ∧ (s.dmc n).failed = false ∧ (s.dmc n).selfRefresh = false ∧ (s.dmc n).training = false ∧
        s.refreshBusy n = true ∧ s.fld (.dmc n) F.DMC_REF_CTRL_POSTPONE_MAX ≤ s.fld (.dmc n) F.DMC_REF_STAT_DEBT)
      ∧ (∃ (s : State) (n : Nat) (rate : Nat) (m : Nat) (debt : Nat) (top : Nat), Inv s ∧ n < s.channels ∧ (s.dmc n).failed = false ∧ (s.dmc
        n).selfRefresh = false ∧ rate ≤ 32 ∧ m = (if 16 < rate then 4 else if 8 < rate then 2 else 1) ∧ (s.dmc n).mult ∈ [1, 2, 4] ∧ m ≠ (s.dmc
        n).mult ∧ s.fld (.dmc n) F.DMC_REF_STAT_DEBT ≤ 8 ∧ top = s.fld (.dmc n) F.DMC_REF_CTRL_POSTPONE_MAX ∧ debt = (if (s.dmc n).mult < m then s.fld
        (.dmc n) F.DMC_REF_STAT_DEBT * (m / (s.dmc n).mult) + 1 else ((s.fld (.dmc n) F.DMC_REF_STAT_DEBT + 1) * m + (s.dmc n).mult - 1) / (s.dmc
        n).mult))
      ∧ (∃ (s : State) (n : Nat) (rate : Nat) (hot : Bool), Inv s ∧ n < s.channels ∧ (s.dmc n).failed = false ∧ (s.dmc n).selfRefresh = false ∧ (hot =
        true ∨ 32 < rate))
      ∧ (∃ (s : State) (n : Nat) (cause : Nat), Inv s ∧ (∀ x, s.dram.trainedAt = some x → x + 200000 ≤ s.now) ∧ n < s.channels ∧ ((cause = 0 ∧ s.fld
        (.dmc n) F.DMC_TRAIN_CTRL_INTERVAL ≠ 0) ∨ (cause = 1 ∧ s.fld (.dmc n) F.DMC_TRAIN_CTRL_TEMP_STEP ≠ 0) ∨ (cause = 2 ∧ s.fld (.dmc n)
        F.DMC_TRAIN_STAT_DEGRADED = 1) ∨ (s.dmc n).want = true) ∧ (∀ k < 16, (s.dmc k).training = false) ∧ (∀ k < 16, k ≠ n → (s.dmc k).want = false)
        ∧ (s.dmc n).failed = false ∧ (s.dmc n).selfRefresh = false)
      ∧ (∃ (s : State) (w : RegWr) (n : Nat), Inv s ∧ n < s.channels ∧ s.wordGranted w (.dmc n) 0x06C = true ∧ s.grants (accOf w (.dmc n))
        F.DMC_TRAIN_CTRL_START = true ∧ s.secretPage (accOf w (.dmc n)) = false)
      ∧ (∃ (s : State) (n : Nat) (pause : Nat) (r : Nat) (w : Nat) (rb : Bool), Inv s ∧ n < s.channels ∧ (s.dmc n).training = true)
      ∧ (∃ (s : State) (n : Nat) (pause : Nat), Inv s ∧ n < s.channels ∧ (s.dmc n).training = true)
      ∧ (∃ (s : State) (n : Nat) (pause : Nat), Inv s ∧ n < s.channels ∧ (s.dmc n).training = true ∧ s.faults.inReset = false ∧ s.power.state = .run ∧
        s.faults.fatal = none) :=
  ⟨⟨State.reset, 3, inv_of (by decide +kernel), by decide +kernel⟩,
    ⟨
      { State.reset with
        now := 12000,
        dram := { State.reset.dram with
          chans := [
            (
              3,
              { State.idleDmc with
                reqs := [{ rid := 0, fn := 65, world := true, crit := 3, port := 9, addr := 4656, words := 1, data := none, arrived := 0 }] })] } },
      3, inv_of (by decide +kernel), by decide +kernel⟩,
    ⟨
      { State.reset with
        regs := [(536672, 0x00000008#32)], now := 12000,
        dram := { State.reset.dram with
          chans := [
            (
              3,
              { State.idleDmc with
                reqs := [{ rid := 0, fn := 65, world := true, crit := 3, port := 9, addr := 4656, words := 1, data := none, arrived := 0 }] })] } },
      3, inv_of (by decide +kernel), by decide +kernel⟩,
    ⟨{ State.reset with regs := [(544864, 0x00000006#32)] }, 5, 16, 2, 13, 8, inv_of (by decide +kernel), by decide +kernel⟩,
    ⟨State.reset, 3, 20, true, inv_of (by decide +kernel), by decide +kernel⟩,
    ⟨State.reset, 3, 0, inv_of (by decide +kernel), (fun _ h => nomatch h), by decide +kernel⟩,
    ⟨State.reset, { req := { fn := 64, secure := false }, win := Window.pf, off := 536684, be := 0xf#4, val := 0x80050003#32 }, 3,
      inv_of (by decide +kernel), by decide +kernel⟩,
    ⟨{ State.reset with dram := { State.reset.dram with chans := [(3, { State.idleDmc with training := true })] } }, 3, 12345, 30, 40, false,
      inv_of (by decide +kernel), by decide +kernel⟩,
    ⟨{ State.reset with dram := { State.reset.dram with chans := [(3, { State.idleDmc with training := true })] } }, 3, 12345,
      inv_of (by decide +kernel), by decide +kernel⟩,
    ⟨{ State.reset with dram := { State.reset.dram with chans := [(3, { State.idleDmc with training := true })] } }, 3, 12345,
      inv_of (by decide +kernel), by decide +kernel⟩⟩

/-- States and operands that meet the hypotheses of DmcRegisters, clause by clause. -/
theorem witness_DmcRegisters :
    (∃ (s : State) (w : RegWr) (n : Nat), Inv s ∧ n < s.channels ∧ s.arrives w (.dmc n) = true ∧ w.off % 0x1000 = 0x04C ∧ s.secretPage (accOf w (.dmc
      n)) = false ∧ s.fld (.dmc n) F.DMC_PORT_SEL_PORT < 12 ∧ bit 16 w.val.toNat = true)
      ∧ (∃ (s : State) (w : RegWr) (n : Nat), Inv s ∧ n < s.channels ∧ s.arrives w (.dmc n) = true ∧ w.off % 0x1000 = 0x04C ∧ s.secretPage (accOf w
        (.dmc n)) = false ∧ s.fld (.dmc n) F.DMC_PORT_SEL_PORT < 12 ∧ bit 16 w.val.toNat = false)
      ∧ (∃ (s : State) (w : RegWr) (n : Nat), Inv s ∧ n < s.channels ∧ s.arrives w (.dmc n) = true ∧ w.off % 0x1000 = 0x04C ∧ s.secretPage (accOf w
        (.dmc n)) = false ∧ s.writesAny (accOf w (.dmc n)) = true ∧ 12 ≤ s.fld (.dmc n) F.DMC_PORT_SEL_PORT)
      ∧ (∃ (s : State) (w : RegWr) (n : Nat), Inv s ∧ n < s.channels ∧ s.arrives w (.dmc n) = true ∧ w.off % 0x1000 = 0x054 ∧ s.secretPage (accOf w
        (.dmc n)) = false ∧ s.fld (.dmc n) F.DMC_PORT_SEL_PORT < 12 ∧ bit 31 w.val.toNat = true)
      ∧ (∃ (s : State) (w : RegWr) (n : Nat), Inv s ∧ n < s.channels ∧ s.arrives w (.dmc n) = true ∧ w.off % 0x1000 = 0x060 ∧ s.grants (accOf w (.dmc
        n)) F.DMC_REF_STAT_CLEAR = true)
      ∧ (∃ (s : State) (w : RegWr) (n : Nat), Inv s ∧ n < s.channels ∧ s.ctrlGranted w (.dmc n) F.PG_CTRL_ENABLE 0 = true ∧ s.fld (.dmc n)
        F.PG_CTRL_ENABLE = 1 ∧ w.req.secure = true ∧ s.faults.inReset = false ∧ s.power.state = .run ∧ s.faults.fatal = none)
      ∧ (∃ (s : State) (w : RegWr) (n : Nat), Inv s ∧ n < s.channels ∧ s.ctrlGranted w (.dmc n) F.PG_CTRL_ENABLE 0 = true ∧ s.fld (.dmc n)
        F.PG_CTRL_ENABLE = 1 ∧ w.req.secure = false) :=
  ⟨⟨State.reset, { req := { fn := 64, secure := false }, win := Window.pf, off := 536652, be := 0xf#4, val := 0x00010123#32 }, 3,
      inv_of (by decide +kernel), by decide +kernel⟩,
    ⟨State.reset, { req := { fn := 64, secure := false }, win := Window.pf, off := 536652, be := 0xf#4, val := 0x00000123#32 }, 3,
      inv_of (by decide +kernel), by decide +kernel⟩,
    ⟨{ State.reset with regs := [(536648, 0x0000000c#32)] },
      { req := { fn := 64, secure := false }, win := Window.pf, off := 536652, be := 0xf#4, val := 0x00000123#32 }, 3, inv_of (by decide +kernel),
      by decide +kernel⟩,
    ⟨State.reset, { req := { fn := 64, secure := false }, win := Window.pf, off := 536660, be := 0xf#4, val := 0x80000000#32 }, 3,
      inv_of (by decide +kernel), by decide +kernel⟩,
    ⟨State.reset, { req := { fn := 64, secure := false }, win := Window.pf, off := 536672, be := 0xf#4, val := 0x80000000#32 }, 3,
      inv_of (by decide +kernel), by decide +kernel⟩,
    ⟨State.reset, { req := { fn := 65, secure := true }, win := Window.pf, off := 536584, be := 0xf#4, val := 0#32 }, 3, inv_of (by decide +kernel),
      by decide +kernel⟩,
    ⟨State.reset, { req := { fn := 64, secure := false }, win := Window.pf, off := 536584, be := 0xf#4, val := 0#32 }, 3, inv_of (by decide +kernel),
      by decide +kernel⟩⟩

/-- States and operands that meet the hypotheses of EdacPage, clause by clause. -/
theorem witness_EdacPage :
    (∃ (s : State) (w : RegWr), Inv s ∧ s.wordGranted w .edac 0x040 = true ∧ s.grants (accOf w .edac) F.EDAC_CTRL_REGIONS_SET = true ∧ s.fld .edac
      F.EDAC_CTRL_REGIONS_SET = 0 ∧ s.firstRegionFault = none)
      ∧ (∃ (s : State) (w : RegWr) (r : Nat) (k : Nat), Inv s ∧ s.wordGranted w .edac 0x040 = true ∧ s.grants (accOf w .edac) F.EDAC_CTRL_REGIONS_SET
        = true ∧ s.fld .edac F.EDAC_CTRL_REGIONS_SET = 0 ∧ s.firstRegionFault = some (r, k) ∧ bits 0 0 w.val.toNat = s.fld .edac
        F.EDAC_CTRL_POISON_EN)
      ∧ (∃ (s : State) (w : RegWr) (e : EdacEntry) (l : List EdacEntry), Inv s ∧ s.wordGranted w .edac 0x05C = true ∧ bits 1 0 w.val.toNat = 1 ∧
        s.edac.log = e :: l ∧ l.length < 64)
      ∧ (∃ (s : State) (w : RegWr), Inv s ∧ s.wordGranted w .edac 0x05C = true ∧ bit 1 w.val.toNat = true)
      ∧ (∃ (s : State) (w : RegWr) (p : Nat), Inv s ∧ s.arrives w .edac = true ∧ w.off % 0x1000 = 0x074 ∧ s.secretPage (accOf w .edac) = false ∧
        s.grants (accOf w .edac) F.EDAC_RETIRE_PLOT_PLOT = true ∧ s.edac.retiring = none ∧ p = bits 19 0 w.val.toNat ∧ p < s.poolPlots ∧ p ∉
        s.pool.plots.retired ∧ p ∉ s.pool.plots.marked ∧ (s.pool.bufs.used.any fun b => b.2.plots.contains p) = false ∧ bit 31 w.val.toNat = false)
      ∧ (∃ (s : State) (w : RegWr), Inv s ∧ s.arrives w .edac = true ∧ w.off % 0x1000 = 0x074 ∧ s.secretPage (accOf w .edac) = false ∧ s.writesAny
        (accOf w .edac) = true ∧ s.edac.retiring = none ∧ s.poolPlots ≤ bits 19 0 w.val.toNat)
      ∧ (∃ (s : State) (w : RegWr) (b : Nat × Nat × Nat), Inv s ∧ s.arrives w .edac = true ∧ w.off % 0x1000 = 0x078 ∧ s.secretPage (accOf w .edac) =
        false ∧ s.grants (accOf w .edac) F.EDAC_RETIRE_BANK_CH = true ∧ s.edac.retiring = none ∧ b = (bits 3 0 w.val.toNat, bits 4 4 w.val.toNat, bits
        8 5 w.val.toNat) ∧ b.1 < s.channels ∧ (b.2.1 = 1 → s.fld (.dmc 0) F.DMC_CFG_RANKS = 1) ∧ bit 31 w.val.toNat = false)
      ∧ (∃ (s : State) (b : Nat × Nat × Nat), Inv s ∧ s.edac.retiring = some b) :=
  ⟨⟨State.reset, { req := { fn := 65, secure := true }, win := Window.pf, off := 589888, be := 0xf#4, val := 0x00000002#32 },
      inv_of (by decide +kernel), by decide +kernel⟩,
    ⟨{ State.reset with regs := [(590088, 0#32)] },
      { req := { fn := 65, secure := true }, win := Window.pf, off := 589888, be := 0xf#4, val := 0x00000003#32 }, 0, 3, inv_of (by decide +kernel),
      by decide +kernel⟩,
    ⟨{ State.reset with edac := { State.reset.edac with log := [{ w0 := 1, w1 := 2, w2 := 3, w3 := 4 }, { w0 := 5, w1 := 6, w2 := 7, w3 := 8 }] } },
      { req := { fn := 64, secure := false }, win := Window.pf, off := 589916, be := 0xf#4, val := 0x00000001#32 },
      { w0 := 1, w1 := 2, w2 := 3, w3 := 4 }, [{ w0 := 5, w1 := 6, w2 := 7, w3 := 8 }], inv_of (by decide +kernel), by decide +kernel⟩,
    ⟨State.reset, { req := { fn := 64, secure := false }, win := Window.pf, off := 589916, be := 0xf#4, val := 0x00000003#32 },
      inv_of (by decide +kernel), by decide +kernel⟩,
    ⟨{ State.reset with regs := [(266312, 0x00000008#32)] },
      { req := { fn := 64, secure := false }, win := Window.pf, off := 589940, be := 0xf#4, val := 0x00000001#32 }, 1, inv_of (by decide +kernel),
      by decide +kernel⟩,
    ⟨State.reset, { req := { fn := 64, secure := false }, win := Window.pf, off := 589940, be := 0xf#4, val := 0x00000009#32 },
      inv_of (by decide +kernel), by decide +kernel⟩,
    ⟨State.reset, { req := { fn := 64, secure := false }, win := Window.pf, off := 589944, be := 0xf#4, val := 0x00000045#32 }, (5, 0, 2),
      inv_of (by decide +kernel), by decide +kernel⟩,
    ⟨{ State.reset with edac := { State.reset.edac with retiring := some (5, 0, 2) } }, (5, 0, 2), inv_of (by decide +kernel), by decide +kernel⟩⟩

/-- States and operands that meet the hypotheses of TouchPanels, clause by clause. -/
theorem witness_TouchPanels :
    (∃ (s : State) (w : RegWr) (e : Nat) (p : Nat), Inv s ∧ e < 2 ∧ p < 4 ∧ s.ctrlGranted w (.tch e) F.PG_CTRL_ENABLE 1 = true ∧ s.enabledPanels e =
      [p] ∧ s.panelFault e [p] [p] = none ∧ s.standby = false ∧ s.snapshotFits e p = false ∧ s.fld (.tch e) F.TCH_P_CFG_REF_EN [p] = 0)
      ∧ (∃ (s : State) (w : RegWr) (e : Nat) (code : Nat) (reason : Nat) (p : Nat), Inv s ∧ e < 2 ∧ s.ctrlGranted w (.tch e) F.PG_CTRL_ENABLE 1 = true
        ∧ s.panelFault e (s.enabledPanels e) (s.enabledPanels e) = some (code, reason, p))
      ∧ (∃ (s : State) (w : RegWr) (e : Nat) (p : Nat), Inv s ∧ e < 2 ∧ p < 4 ∧ s.wordGranted w (.tch e) (F.TCH_P_CFG_EN.at [p]) = true ∧ s.flag (.tch
        e) F.PG_CTRL_ENABLE = true ∧ bit 0 w.val.toNat = true ∧ bit 7 w.val.toNat = false ∧ w.val.toNat = s.rw ((Page.tch e).key (F.TCH_P_CFG_EN.at
        [p])) + 1 ∧ s.panelFault e ((s.enabledPanels e).filter (· != p) ++ [p]) [p] = none ∧ s.standby = false ∧ s.snapshotFits e p = true)
      ∧ (∃ (s : State) (w : RegWr) (e : Nat) (p : Nat), Inv s ∧ e < 2 ∧ p < 4 ∧ s.wordGranted w (.tch e) (F.TCH_P_CFG_EN.at [p]) = true ∧ bit 0
        w.val.toNat = false ∧ bit 7 w.val.toNat = false ∧ w.val.toNat + 1 = s.rw ((Page.tch e).key (F.TCH_P_CFG_EN.at [p])) ∧ (s.panel e p).state =
        .scanning ∧ (s.touchEng e).todo.contains p = true)
      ∧ (∃ (s : State) (w : RegWr) (e : Nat) (p : Nat), Inv s ∧ e < 2 ∧ p < 4 ∧ s.wordGranted w (.tch e) (F.TCH_P_CFG_EN.at [p]) = true ∧ bit 0
        w.val.toNat = false ∧ bit 7 w.val.toNat = false ∧ w.val.toNat + 1 = s.rw ((Page.tch e).key (F.TCH_P_CFG_EN.at [p])) ∧ (s.panel e p).state =
        .scanning ∧ (s.touchEng e).todo.contains p = false ∧ (s.panel e p).contacts = [] ∧ s.touchHandle e p = 0)
      ∧ (∃ (s : State) (w : RegWr) (e : Nat), Inv s ∧ e < 2 ∧ s.ctrlGranted w (.tch e) F.PG_CTRL_SOFT_RESET (2 + s.fld (.tch e) F.PG_CTRL_ENABLE) =
        true ∧ s.pageArmed (Page.tch e).base = false)
      ∧ (∃ (s : State) (w : RegWr) (e : Nat) (p : Nat) (i : Nat) (b : Buf), Inv s ∧ s.checkBuf w.req.fn w.val.toNat = .ok i ∧ e < 2 ∧ p < 4 ∧
        s.wordGranted w (.tch e) (F.TCH_P_BUF_BUFFER.at [p]) = true ∧ w.val.toNat ≠ 0 ∧ s.bufKind i = 4 ∧ s.buf i = some b ∧ 2 ≤ b.plots.length)
      ∧ (∃ (s : State) (w : RegWr) (e : Nat) (p : Nat) (i : Nat) (b : Buf), Inv s ∧ s.checkBuf w.req.fn w.val.toNat = .ok i ∧ e < 2 ∧ p < 4 ∧
        s.wordGranted w (.tch e) (F.TCH_P_BUF_BUFFER.at [p]) = true ∧ w.val.toNat ≠ 0 ∧ s.buf i = some b ∧ (s.bufKind i = 4 → b.plots.length < 2)) :=
  ⟨⟨{ State.reset with regs := [(2625920, 0x00000001#32), (2625924, 0x02000300#32), (2625932, 0x03e803e8#32)] },
      { req := { fn := 64, secure := false }, win := Window.pf, off := 2625544, be := 0xf#4, val := 0x00000001#32 }, 1, 2, inv_of (by decide +kernel),
      by decide +kernel⟩,
    ⟨{ State.reset with regs := [(2625920, 0x00000001#32)] },
      { req := { fn := 64, secure := false }, win := Window.pf, off := 2625544, be := 0xf#4, val := 0x00000001#32 }, 1, 2, 0, 2,
      inv_of (by decide +kernel), by decide +kernel⟩,
    ⟨
      { State.reset with
        regs := [(266304, 0x08000000#32), (2625544, 0x00000001#32), (2625924, 0x02000300#32), (2625932, 0x03e803e8#32), (2625952, 0x00010001#32)],
        mem := [(134283280, 0x03#8), (134283281, 0x02#8), (134283283, 0x80#8)],
        pool := { State.reset.pool with
          bufs := { 
            used := [
              (
                0,
                { 
                  state := BufState.live, chan := 0, chanHandle := 268435712, fn := 64, plots := [0], size := 65536, fences := 0, toFill := [],
                  allocJob := none, freeJob := none, freeAfterFill := false }),
              (
                1,
                { 
                  state := BufState.live, chan := 1, chanHandle := 1073742081, fn := 64, plots := [1, 2], size := 131072, fences := 0, toFill := [],
                  allocJob := none, freeJob := none, freeAfterFill := false })], gens := [], fresh := 2, freed := [] } } },
      { req := { fn := 64, secure := false }, win := Window.pf, off := 2625920, be := 0xf#4, val := 0x00000001#32 }, 1, 2, inv_of (by decide +kernel),
      by decide +kernel⟩,
    ⟨
      { State.reset with
        regs := [(2625920, 0x00000001#32)],
        touch := { State.reset.touch with
          engines := [(1, { idleTouch with todo := [2], panels := [(2, { idlePanel with state := PanelState.scanning })] })] } },
      { req := { fn := 64, secure := false }, win := Window.pf, off := 2625920, be := 0xf#4, val := 0#32 }, 1, 2, inv_of (by decide +kernel),
      by decide +kernel⟩,
    ⟨
      { State.reset with
        regs := [(2625920, 0x00000001#32)],
        touch := { State.reset.touch with engines := [(1, { idleTouch with panels := [(2, { idlePanel with state := PanelState.scanning })] })] } },
      { req := { fn := 64, secure := false }, win := Window.pf, off := 2625920, be := 0xf#4, val := 0#32 }, 1, 2, inv_of (by decide +kernel),
      by decide +kernel⟩,
    ⟨{ State.reset with regs := [(2625544, 0x00000001#32)] },
      { req := { fn := 64, secure := false }, win := Window.pf, off := 2625544, be := 0xf#4, val := 0x00000003#32 }, 1, inv_of (by decide +kernel),
      by decide +kernel⟩,
    ⟨
      { State.reset with
        pool := { State.reset.pool with
          chans := { 
            used := [
              (0, { kind := 1, fn := 64, draining := false, destroyJob := none }), (1, { kind := 4, fn := 64, draining := false, destroyJob := none })],
            gens := [], fresh := 2, freed := [] },
          bufs := { 
            used := [
              (
                0,
                { 
                  state := BufState.live, chan := 0, chanHandle := 268435712, fn := 64, plots := [0], size := 65536, fences := 0, toFill := [],
                  allocJob := none, freeJob := none, freeAfterFill := false }),
              (
                1,
                { 
                  state := BufState.live, chan := 1, chanHandle := 1073742081, fn := 64, plots := [1, 2], size := 131072, fences := 0, toFill := [],
                  allocJob := none, freeJob := none, freeAfterFill := false })], gens := [], fresh := 2, freed := [] } } },
      { req := { fn := 64, secure := false }, win := Window.pf, off := 2625952, be := 0xf#4, val := 0x00010001#32 }, 1, 2, 1,
      { 
        state := BufState.live, chan := 1, chanHandle := 1073742081, fn := 64, plots := [1, 2], size := 131072, fences := 0, toFill := [],
        allocJob := none, freeJob := none, freeAfterFill := false }, inv_of (by decide +kernel), except_of (by decide +kernel), by decide +kernel⟩,
    ⟨
      { State.reset with
        pool := { State.reset.pool with
          bufs := { 
            used := [
              (
                0,
                { 
                  state := BufState.live, chan := 0, chanHandle := 268435712, fn := 64, plots := [0], size := 65536, fences := 0, toFill := [],
                  allocJob := none, freeJob := none, freeAfterFill := false }),
              (
                1,
                { 
                  state := BufState.live, chan := 1, chanHandle := 1073742081, fn := 64, plots := [1, 2], size := 131072, fences := 0, toFill := [],
                  allocJob := none, freeJob := none, freeAfterFill := false })], gens := [], fresh := 2, freed := [] } } },
      { req := { fn := 64, secure := false }, win := Window.pf, off := 2625952, be := 0xf#4, val := 0x00010000#32 }, 1, 2, 0,
      { 
        state := BufState.live, chan := 0, chanHandle := 268435712, fn := 64, plots := [0], size := 65536, fences := 0, toFill := [],
        allocJob := none, freeJob := none, freeAfterFill := false }, inv_of (by decide +kernel), except_of (by decide +kernel), by decide +kernel⟩⟩

/-- States and operands that meet the hypotheses of TouchFrames, clause by clause. -/
theorem witness_TouchFrames :
    (∃ (s : State) (e : Nat) (f : Nat), Inv s ∧ e < 2 ∧ s.flag (.tch e) F.PG_STAT_ENABLED = true ∧ (s.touchEng e).todo = [] ∧ f = (s.touchEng
      e).hopTo.getD (s.touchEng e).freq ∧ f < 4 ∧ (∃ p < 4, (s.panel e p).state ≠ .off ∧ (s.panel e p).state ≠ .fault))
      ∧ (∃ (s : State) (e : Nat) (p : Nat) (q : Nat) (k : Nat) (v : Nat) (step : Nat) (r : List Nat) (m : List (List Nat × List Nat)) (listen : List
        Nat) (cand : List Nat), Inv s ∧ e < 2 ∧ p < 4 ∧ (s.touchEng e).todo = p :: q :: r ∧ (s.panel e p).leaving = false ∧ (s.panel e p).state =
        .calibrating ∧ (s.panel e p).calStep = step ∧ step < 6 ∧ (State.frameCounts ((s.touchView e).panelCfg e p) m).find? (fun x => x.1 == k) = some
        (k, v))
      ∧ (∃ (s : State) (e : Nat) (p : Nat) (q : Nat) (k : Nat) (v : Nat) (r : List Nat) (m : List (List Nat × List Nat)) (listen : List Nat) (cand :
        List Nat), Inv s ∧ e < 2 ∧ p < 4 ∧ (s.touchEng e).todo = p :: q :: r ∧ (s.panel e p).leaving = false ∧ (s.panel e p).state = .calibrating ∧
        (s.panel e p).calStep = 13 ∧ (State.frameCounts ((s.touchView e).panelCfg e p) m).find? (fun x => x.1 == k) = some (k, v))
      ∧ (∃ (s : State) (e : Nat) (p : Nat) (m : List (List Nat × List Nat)) (listen : List Nat) (cand : List Nat), Inv s ∧ e < 2 ∧ p < 4 ∧ (s.touchEng
        e).todo = [p] ∧ (s.panel e p).leaving = false ∧ (s.panel e p).state = .listening ∧ (s.touchEng e).closing = false ∧ (s.touchEng e).charger =
        false ∧ (s.touchView e).fld (.tch e) F.TCH_CTRL_CHARGER_EN = 0)
      ∧ (∃ (s : State) (e : Nat) (p : Nat) (m : List (List Nat × List Nat)) (listen : List Nat) (cand : List Nat), (s.touchEng e).todo.head? ≠ some p)
      ∧ (∃ (s : State) (e : Nat) (p : Nat) (i : Nat) (who : Attr), Inv s ∧ e < 2 ∧ p < 4 ∧ (s.panel e p).state = .scanning ∧ s.touchBuf e p = some (i,
        who) ∧ s.fld (.tch e) F.TCH_P_STAT_UNBOUND [p] = 0 ∧ s.inCheckArea (s.bufAddr i 16) = false ∧ s.bufAddr i 16 % 16 = 0)
      ∧ (∃ (s : State) (e : Nat) (p : Nat), (s.panel e p).state ≠ .scanning)
      ∧ (∃ (s : State) (w : RegWr) (e : Nat) (p : Nat) (k : Nat) (n : Node), Inv s ∧ e < 2 ∧ p < 4 ∧ s.wordGranted w (.tch e) (F.TCH_P_CFG_EN.at [p])
        = true ∧ bit 7 w.val.toNat = true ∧ w.val.toNat = s.rw ((Page.tch e).key (F.TCH_P_CFG_EN.at [p])) + 128 ∧ Sparse.find (s.panel e p).nodes k =
        some n)
      ∧ (∃ (s : State) (w : RegWr) (e : Nat) (p : Nat) (drv : Nat) (sns : Nat), Inv s ∧ e < 2 ∧ s.readReaches ⟨w.req, w.win, w.off⟩ (.tch e) = true ∧
        w.off % 0x1000 = 0x05C ∧ s.secretPage (accOf w (.tch e)) = false ∧ s.fld (.tch e) F.TCH_NODE_ADDR_PANEL = p ∧ s.fld (.tch e)
        F.TCH_NODE_ADDR_DRIVE = drv ∧ s.fld (.tch e) F.TCH_NODE_ADDR_SENSE = sns ∧ s.fld (.tch e) F.TCH_NODE_ADDR_FIELD = 1 ∧ drv < (s.panelCfg e p).d
        ∧ sns < (s.panelCfg e p).n)
      ∧ (∃ (s : State) (w : RegWr) (e : Nat) (p : Nat) (drv : Nat) (sns : Nat) (n : Node), Inv s ∧ e < 2 ∧ s.arrives w (.tch e) = true ∧ w.off %
        0x1000 = 0x05C ∧ s.secretPage (accOf w (.tch e)) = false ∧ s.fld (.tch e) F.TCH_NODE_ADDR_PANEL = p ∧ s.fld (.tch e) F.TCH_NODE_ADDR_DRIVE =
        drv ∧ s.fld (.tch e) F.TCH_NODE_ADDR_SENSE = sns ∧ s.fld (.tch e) F.TCH_NODE_ADDR_FIELD = 1 ∧ drv < (s.panelCfg e p).d ∧ sns < (s.panelCfg e
        p).n ∧ Sparse.find (s.panel e p).nodes (nodeKey drv sns) = some n)
      ∧ (∃ (s : State) (w : RegWr) (e : Nat), Inv s ∧ e < 2 ∧ s.arrives w (.tch e) = true ∧ w.off % 0x1000 = 0x05C ∧ s.secretPage (accOf w (.tch e)) =
        false ∧ w.val.toNat ≠ 0 ∧ 6 ≤ s.fld (.tch e) F.TCH_NODE_ADDR_FIELD ∧ s.fld (.tch e) F.ERR_CODE_CODE = 0) :=
  ⟨⟨
      { State.reset with
        regs := [(2625548, 0x00040001#32)],
        touch := { State.reset.touch with engines := [(1, { idleTouch with panels := [(2, { idlePanel with state := PanelState.scanning })] })] } },
      1, 0, inv_of (by decide +kernel), by decide +kernel⟩,
    ⟨
      { State.reset with
        touch := { State.reset.touch with
          engines := [
            (
              1,
              { idleTouch with
                todo := [2, 3], frame := [(2625924, 0x02000300#32)], panels := [(2, { idlePanel with state := PanelState.calibrating })] })] } }, 1,
      2, 3, 128, 32668, 0, [],
      [([33000, 33100, 33200, 33300, 33400, 33500, 33600, 33700, 33800, 33900, 34000, 34100, 34200, 34300, 34400, 34500], [])], [], [],
      inv_of (by decide +kernel), by decide +kernel⟩,
    ⟨
      { State.reset with
        touch := { State.reset.touch with
          engines := [
            (
              1,
              { idleTouch with
                todo := [2, 3], frame := [(2625924, 0x02000300#32)],
                panels := [(2, { idlePanel with state := PanelState.calibrating, calStep := 13 })] })] } }, 1, 2, 3, 128, 32668, [],
      [([33000, 33100, 33200, 33300, 33400, 33500, 33600, 33700, 33800, 33900, 34000, 34100, 34200, 34300, 34400, 34500], [])], [], [],
      inv_of (by decide +kernel), by decide +kernel⟩,
    ⟨
      { State.reset with
        touch := { State.reset.touch with
          engines := [
            (
              1,
              { idleTouch with todo := [3], frame := [(2625600, 0x00000278#32)], panels := [(3, { idlePanel with state := PanelState.listening })] })] } },
      1, 3, [], [32845], [], inv_of (by decide +kernel), by decide +kernel⟩,
    ⟨State.reset, 1, 2, [], [32845], [], by decide +kernel⟩,
    ⟨
      { State.reset with
        regs := [(2625952, 0x00010001#32)],
        pool := { State.reset.pool with
          bufs := { 
            used := [
              (
                0,
                { 
                  state := BufState.live, chan := 0, chanHandle := 268435712, fn := 64, plots := [0], size := 65536, fences := 0, toFill := [],
                  allocJob := none, freeJob := none, freeAfterFill := false }),
              (
                1,
                { 
                  state := BufState.live, chan := 1, chanHandle := 1073742081, fn := 64, plots := [1, 2], size := 131072, fences := 0, toFill := [],
                  allocJob := none, freeJob := none, freeAfterFill := false })], gens := [], fresh := 2, freed := [] } },
        touch := { State.reset.touch with engines := [(1, { idleTouch with panels := [(2, { idlePanel with state := PanelState.scanning })] })] } },
      1, 2, 1, { fn := 64, world := false, crit := 0, port := 7, fill := false, latent := false }, inv_of (by decide +kernel), by decide +kernel⟩,
    ⟨State.reset, 1, 2, by decide +kernel⟩,
    ⟨
      { State.reset with
        regs := [(2625920, 0x00000001#32)],
        touch := { State.reset.touch with
          engines := [
            (1, { idleTouch with panels := [(2, { idlePanel with nodes := [(128, { idleNode with count := 32768, base := 32768, comp := 63 })] })] })] } },
      { req := { fn := 64, secure := false }, win := Window.pf, off := 2625920, be := 0xf#4, val := 0x00000081#32 }, 1, 2, 128,
      { count := 32768, base := 32768, comp := 63, refBase := 0, refComp := 0, bad := false, frozen := false, neg := 0, sum := 0 },
      inv_of (by decide +kernel), by decide +kernel⟩,
    ⟨{ State.reset with regs := [(2625624, 0x00030101#32), (2625924, 0x02000300#32)] },
      { req := { fn := 64, secure := false }, win := Window.pf, off := 2625628, be := 0xf#4, val := 0x00000009#32 }, 1, 2, 1, 1,
      inv_of (by decide +kernel), by decide +kernel⟩,
    ⟨
      { State.reset with
        regs := [(2625624, 0x00030001#32), (2625924, 0x02000300#32)],
        touch := { State.reset.touch with
          engines := [
            (1, { idleTouch with panels := [(2, { idlePanel with nodes := [(128, { idleNode with count := 32768, base := 32768, comp := 63 })] })] })] } },
      { req := { fn := 64, secure := false }, win := Window.pf, off := 2625628, be := 0xf#4, val := 0x00000009#32 }, 1, 2, 1, 0,
      { count := 32768, base := 32768, comp := 63, refBase := 0, refComp := 0, bad := false, frozen := false, neg := 0, sum := 0 },
      inv_of (by decide +kernel), by decide +kernel⟩,
    ⟨{ State.reset with regs := [(2625624, 0x000d0001#32)] },
      { req := { fn := 64, secure := false }, win := Window.pf, off := 2625628, be := 0xf#4, val := 0x00000009#32 }, 1, inv_of (by decide +kernel),
      by decide +kernel⟩⟩

/-- States and operands that meet the hypotheses of HapticCommands, clause by clause. -/
theorem witness_HapticCommands :
    (∃ (s : State) (c : CmdArgs) (e : Effect), Inv s ∧ s.accepts 0x30 c = true ∧ s.posts c.fn c.q = true ∧ bits 31 3 (c.params.getD 0 0) = 0 ∧ e =
      effectOf c.fn (c.params.getD 1 0) (c.params.getD 2 0) (c.params.getD 3 0) (c.params.getD 4 0) ∧ e.tapSource = true ∧ s.effectCheck c.fn (bits 2
      0 (c.params.getD 0 0)) (c.params.getD 1 0) (c.params.getD 2 0) (c.params.getD 3 0) (c.params.getD 4 0) false none false false = none)
      ∧ (∃ (s : State) (c : CmdArgs) (e : Effect), Inv s ∧ s.accepts 0x30 c = true ∧ s.posts c.fn c.q = true ∧ bits 31 3 (c.params.getD 0 0) = 0 ∧ e =
        effectOf c.fn (c.params.getD 1 0) (c.params.getD 2 0) (c.params.getD 3 0) (c.params.getD 4 0) ∧ e.tapSource = false ∧ s.effectCheck c.fn (bits
        2 0 (c.params.getD 0 0)) (c.params.getD 1 0) (c.params.getD 2 0) (c.params.getD 3 0) (c.params.getD 4 0) false none false false = none ∧
        s.extentOf e = none)
      ∧ (∃ (s : State) (c : CmdArgs) (code : Nat), Inv s ∧ s.accepts 0x30 c = true ∧ s.posts c.fn c.q = true ∧ s.effectCheck c.fn (bits 2 0
        (c.params.getD 0 0)) (c.params.getD 1 0) (c.params.getD 2 0) (c.params.getD 3 0) (c.params.getD 4 0) (bits 31 3 (c.params.getD 0 0) != 0) none
        false false = some code)
      ∧ (∃ (s : State) (c : CmdArgs) (k : Nat), Inv s ∧ s.accepts 0x31 c = true ∧ s.posts c.fn c.q = true ∧ (c.params.getD 0 0) % 65536 = 0 ∧ bit 19
        (c.params.getD 0 0) = false ∧ bit 23 (c.params.getD 0 0) = false ∧ bits 31 27 (c.params.getD 0 0) = 0 ∧ (State.ruleOf c.fn c.params).events ≠
        0 ∧ s.clipReady (State.ruleOf c.fn c.params).effect = true ∧ (State.ruleOf c.fn c.params).w ≠ 0 ∧ (State.ruleOf c.fn c.params).h ≠ 0 ∧
        s.haptic.adds = [] ∧ s.haptic.rules.length < 64 ∧ s.effectCheck c.fn (bits 22 20 (c.params.getD 0 0)) (c.params.getD 3 0) (c.params.getD 4 0)
        (c.params.getD 5 0) (c.params.getD 6 0) false (some (bits 18 16 (c.params.getD 0 0))) false false = none ∧ k < 64 ∧ Sparse.find s.haptic.rules
        k = none ∧ (∀ i < k, Sparse.find s.haptic.rules i ≠ none))
      ∧ (∃ (s : State) (c : CmdArgs) (i : Nat) (r : Rule), Inv s ∧ s.accepts 0x31 c = true ∧ s.posts c.fn c.q = true ∧ i < 64 ∧ c.params.getD 0 0 = 1
        + i * 2 ^ 8 ∧ (∀ k < 6, c.params.getD (k + 1) 0 = 0) ∧ Sparse.find s.haptic.rules i = some r ∧ r.leaving = false ∧ (isVf c.fn = true → r.fn =
        c.fn))
      ∧ (∃ (s : State) (i : Nat) (r : Rule) (h : Handoff) (rest : List Handoff), Inv s ∧ s.standby = false ∧ s.touch.handoffs = h :: rest ∧
        s.haptic.rules = [(i, r)] ∧ r.panel = h.panel ∧ s.fnState r.fn ≠ .resetting ∧ h.entries.any (State.ruleMatches r) = true)
      ∧ (∃ (s : State) (i : Nat) (r : Rule) (h : Handoff) (rest : List Handoff), Inv s ∧ s.touch.handoffs = h :: rest ∧ s.haptic.rules = [(i, r)] ∧
        (r.panel ≠ h.panel ∨ h.entries.any (State.ruleMatches r) = false ∨ s.standby = true))
      ∧ (∃ (s : State) (x : Extent) (j : Nat) (ch : Nat) (e : Effect), Inv s ∧ s.haptic.extents = [x] ∧ x.samples = none ∧ s.haptic.adds = [] ∧
        s.haptic.plays = [(j, ch, e)] ∧ e.names x = true) :=
  ⟨⟨{ State.reset with regs := [(68, 0x00000017#32), (2752520, 0x00000001#32), (2752960, 0x00000001#32)] },
      { fn := 64, q := 0, cid := 5, ordered := false, rsvd := 0, params := [3, 1610612741, 0, 0, 100] },
      { tapSource := true, tap := 2, retrig := false, priority := 0, gain := 24576, clip := 0, offset := 0, length := 100, fn := 64 },
      inv_of (by decide +kernel), by decide +kernel⟩,
    ⟨
      { State.reset with
        regs := [(68, 0x00000017#32), (2752520, 0x00000001#32), (2752960, 0x00000001#32)],
        pool := { State.reset.pool with
          chans := { 
            used := [
              (0, { kind := 1, fn := 64, draining := false, destroyJob := none }), (1, { kind := 5, fn := 64, draining := false, destroyJob := none })],
            gens := [], fresh := 2, freed := [] },
          bufs := { 
            used := [
              (
                0,
                { 
                  state := BufState.live, chan := 0, chanHandle := 268435712, fn := 64, plots := [0], size := 65536, fences := 0, toFill := [],
                  allocJob := none, freeJob := none, freeAfterFill := false }),
              (
                1,
                { 
                  state := BufState.live, chan := 1, chanHandle := 1342177537, fn := 64, plots := [1], size := 65536, fences := 0, toFill := [],
                  allocJob := none, freeJob := none, freeAfterFill := false })], gens := [], fresh := 2, freed := [] } } },
      { fn := 64, q := 0, cid := 5, ordered := false, rsvd := 0, params := [3, 1610612736, 65537, 32, 40] },
      { tapSource := false, tap := 0, retrig := false, priority := 0, gain := 24576, clip := 65537, offset := 32, length := 40, fn := 64 },
      inv_of (by decide +kernel), by decide +kernel⟩,
    ⟨{ State.reset with regs := [(68, 0x00000017#32)] },
      { fn := 64, q := 0, cid := 5, ordered := false, rsvd := 0, params := [4, 1610612741, 0, 0, 100] }, 4865, inv_of (by decide +kernel),
      by decide +kernel⟩,
    ⟨{ State.reset with regs := [(68, 0x00000017#32), (2752520, 0x00000001#32), (2752960, 0x00000001#32)] },
      { fn := 64, q := 0, cid := 5, ordered := false, rsvd := 0, params := [19922944, 1310730, 393221, 1610612737, 0, 0, 9] }, 0,
      inv_of (by decide +kernel), by decide +kernel⟩,
    ⟨
      { State.reset with
        regs := [(68, 0x00000017#32)],
        haptic := { State.reset.haptic with
          rules := [
            (
              0,
              { 
                fn := 64, panel := 0, channel := 3, events := 1, x := 10, y := 20, w := 5, h := 6,
                effect := { 
                  tapSource := true, tap := 0, retrig := false, priority := 0, gain := 24576, clip := 0, offset := 0, length := 9, fn := 64 },
                fires := 0, leaving := false })] } }, { fn := 64, q := 0, cid := 5, ordered := false, rsvd := 0, params := [1, 0, 0, 0, 0, 0, 0] }, 0,
      { 
        fn := 64, panel := 0, channel := 3, events := 1, x := 10, y := 20, w := 5, h := 6,
        effect := { tapSource := true, tap := 0, retrig := false, priority := 0, gain := 24576, clip := 0, offset := 0, length := 9, fn := 64 },
        fires := 0, leaving := false }, inv_of (by decide +kernel), by decide +kernel⟩,
    ⟨
      { State.reset with
        touch := { State.reset.touch with
          handoffs := [
            { 
              panel := 0, time := 5,
              entries := [
                { 
                  id := 1, event := 1, large := false, stuck := false, present := false, x := 12, y := 22, strength := 5, area := 5, prevX := 12,
                  prevY := 22 }] },
            { 
              panel := 0, time := 5,
              entries := [
                { 
                  id := 1, event := 1, large := false, stuck := false, present := false, x := 12, y := 22, strength := 5, area := 5, prevX := 12,
                  prevY := 22 }] }] },
        haptic := { State.reset.haptic with
          rules := [
            (
              0,
              { 
                fn := 64, panel := 0, channel := 3, events := 1, x := 10, y := 20, w := 5, h := 6,
                effect := { 
                  tapSource := true, tap := 0, retrig := false, priority := 0, gain := 24576, clip := 0, offset := 0, length := 9, fn := 64 },
                fires := 0, leaving := false })] } }, 0,
      { 
        fn := 64, panel := 0, channel := 3, events := 1, x := 10, y := 20, w := 5, h := 6,
        effect := { tapSource := true, tap := 0, retrig := false, priority := 0, gain := 24576, clip := 0, offset := 0, length := 9, fn := 64 },
        fires := 0, leaving := false },
      { 
        panel := 0, time := 5,
        entries := [
          { 
            id := 1, event := 1, large := false, stuck := false, present := false, x := 12, y := 22, strength := 5, area := 5, prevX := 12,
            prevY := 22 }] },
      [
        { 
          panel := 0, time := 5,
          entries := [
            { 
              id := 1, event := 1, large := false, stuck := false, present := false, x := 12, y := 22, strength := 5, area := 5, prevX := 12,
              prevY := 22 }] }], inv_of (by decide +kernel), by decide +kernel⟩,
    ⟨
      { State.reset with
        touch := { State.reset.touch with
          handoffs := [
            { 
              panel := 2, time := 5,
              entries := [
                { 
                  id := 1, event := 1, large := false, stuck := false, present := false, x := 12, y := 22, strength := 5, area := 5, prevX := 12,
                  prevY := 22 }] }] },
        haptic := { State.reset.haptic with
          rules := [
            (
              0,
              { 
                fn := 64, panel := 0, channel := 3, events := 1, x := 10, y := 20, w := 5, h := 6,
                effect := { 
                  tapSource := true, tap := 0, retrig := false, priority := 0, gain := 24576, clip := 0, offset := 0, length := 9, fn := 64 },
                fires := 0, leaving := false })] } }, 0,
      { 
        fn := 64, panel := 0, channel := 3, events := 1, x := 10, y := 20, w := 5, h := 6,
        effect := { tapSource := true, tap := 0, retrig := false, priority := 0, gain := 24576, clip := 0, offset := 0, length := 9, fn := 64 },
        fires := 0, leaving := false },
      { 
        panel := 2, time := 5,
        entries := [
          { 
            id := 1, event := 1, large := false, stuck := false, present := false, x := 12, y := 22, strength := 5, area := 5, prevX := 12,
            prevY := 22 }] }, [], inv_of (by decide +kernel), by decide +kernel⟩,
    ⟨
      { State.reset with
        haptic := { State.reset.haptic with
          extents := [{ clip := 65537, offset := 32, length := 40, fn := 64, samples := none }],
          plays := [
            (
              4, 3,
              { tapSource := false, tap := 0, retrig := false, priority := 0, gain := 24576, clip := 65537, offset := 32, length := 40, fn := 64 })] } },
      { clip := 65537, offset := 32, length := 40, fn := 64, samples := none }, 4, 3,
      { tapSource := false, tap := 0, retrig := false, priority := 0, gain := 24576, clip := 65537, offset := 32, length := 40, fn := 64 },
      inv_of (by decide +kernel), by decide +kernel⟩⟩

/-- States and operands that meet the hypotheses of HapticChannels, clause by clause. -/
theorem witness_HapticChannels :
    (∃ (s : State) (c : Nat) (jid : Nat) (carrier : Nat) (adcA : Int) (adcI : Int) (v : Int) (x : Arrival) (j : Job) (ext : Extent) (l : List Int),
      Inv s ∧ c < 8 ∧ s.standby = false ∧ s.hapRuns = true ∧ s.haptic.rules.all (fun p => !p.2.leaving) = true ∧ (s.hap c).state = .idle ∧ (s.hap
      c).effect = none ∧ (s.hap c).waiting = none ∧ (s.hap c).arrivals = [x] ∧ x.rule = none ∧ x.jid = some jid ∧ s.awaits jid j = true ∧
      x.effect.gain ≠ 0 ∧ x.effect.tapSource = false ∧ s.extentOf x.effect = some ext ∧ ext.samples = some (v :: l) ∧ s.fld .hap
      F.HAP_H_PHASE_START_PERIODS [c] ≠ 0 ∧ (s.fld .hap F.HAP_H_LIMIT_I_LIMIT [c] = 0 ∨ adcI.natAbs < s.fld .hap F.HAP_H_LIMIT_I_LIMIT [c]))
      ∧ (∃ (s : State) (c : Nat) (carrier : Nat) (adcA : Int) (adcI : Int) (v : Int) (a : Int) (i' : Int) (e : Effect) (ext : Extent) (l : List Int),
        Inv s ∧ c < 8 ∧ s.standby = false ∧ s.hapRuns = true ∧ s.haptic.rules.all (fun p => !p.2.leaving) = true ∧ (s.hap c).state = .drive ∧ (s.hap
        c).effect = some e ∧ (s.hap c).waiting = none ∧ (s.hap c).arrivals = [] ∧ (s.hap c).ending = false ∧ e.tapSource = false ∧ (s.hap c).period <
        e.length ∧ s.extentOf e = some ext ∧ ext.samples = some l ∧ l.getD (s.hap c).period 0 = v ∧ (s.hap c).duty.natAbs < 16384 ∧ (s.fld .hap
        F.HAP_H_LIMIT_I_LIMIT [c] = 0 ∨ adcI.natAbs < s.fld .hap F.HAP_H_LIMIT_I_LIMIT [c]) ∧ (s.fld .hap F.HAP_H_LIMIT_I_FAULT [c] = 0 ∨ adcI.natAbs
        < s.fld .hap F.HAP_H_LIMIT_I_FAULT [c]) ∧ s.fld .hap F.HAP_H_SENSE_ACC_INV [c] = 0 ∧ a = clamp (-32767) 32767 (adcA * s.fld .hap
        F.HAP_H_SENSE_ACC_SCALE [c] / 2 ^ 12) ∧ i' = clamp (-1048576) 1048576 ((s.hap c).integ + (clamp (-32767) 32767 (v * e.gain / 2 ^ 15) - a)))
      ∧ (∃ (s : State) (c : Nat) (carrier : Nat) (adcA : Int) (adcI : Int), Inv s ∧ c < 8 ∧ s.standby = false ∧ s.hapRuns = true ∧ s.haptic.rules.all
        (fun p => !p.2.leaving) = true ∧ (s.hap c).state = .brake ∧ (s.hap c).effect = none ∧ (s.hap c).waiting = none ∧ (s.hap c).arrivals = [] ∧
        s.fld .hap F.HAP_H_PHASE_BRAKE_MAX [c] ≤ (s.hap c).braked ∧ (s.hap c).limited = 0 ∧ (s.fld .hap F.HAP_H_LIMIT_I_FAULT [c] = 0 ∨ adcI.natAbs <
        s.fld .hap F.HAP_H_LIMIT_I_FAULT [c]))
      ∧ (∃ (s : State) (c : Nat) (carrier : Nat) (adcA : Int) (adcI : Int), Inv s ∧ c < 8 ∧ s.standby = false ∧ s.hapRuns = true ∧ (s.hap c).state ∈
        [.start, .drive, .brake, .cal] ∧ s.fld .hap F.HAP_H_LIMIT_I_FAULT [c] ≠ 0 ∧ s.fld .hap F.HAP_H_LIMIT_I_FAULT [c] ≤ adcI.natAbs)
      ∧ (∃ (s : State) (tap : Nat) (v : Int), tap < 8 ∧ s.tapFed tap = true)
      ∧ (∃ (s : State) (w : RegWr) (c : Nat), Inv s ∧ c < 8 ∧ s.wordGranted w .hap (F.HAP_H_CTRL_EN.at [c]) = true ∧ bit 1 w.val.toNat = false ∧ bit 0
        w.val.toNat = true ∧ w.val.toNat = s.rw (Page.hap.key (F.HAP_H_CTRL_EN.at [c])) + 1 ∧ (s.hap c).state = .off)
      ∧ (∃ (s : State) (w : RegWr) (c : Nat), Inv s ∧ c < 8 ∧ s.wordGranted w .hap (F.HAP_H_CTRL_EN.at [c]) = true ∧ bit 1 w.val.toNat = false ∧ bit 0
        w.val.toNat = false ∧ w.val.toNat + 1 = s.rw (Page.hap.key (F.HAP_H_CTRL_EN.at [c])) ∧ (s.hap c).state = .fault)
      ∧ (∃ (s : State) (w : RegWr) (c : Nat), Inv s ∧ c < 8 ∧ s.wordGranted w .hap (F.HAP_H_CTRL_EN.at [c]) = true ∧ bit 1 w.val.toNat = false ∧ bit 0
        w.val.toNat = false ∧ w.val.toNat + 1 = s.rw (Page.hap.key (F.HAP_H_CTRL_EN.at [c])) ∧ (s.hap c).state ∈ [.idle, .start, .drive, .cal] ∧ s.fld
        .hap F.HAP_H_PHASE_BRAKE_MAX [c] ≠ 0)
      ∧ (∃ (s : State) (w : RegWr) (c : Nat), Inv s ∧ c < 8 ∧ s.wordGranted w .hap (F.HAP_H_CTRL_EN.at [c]) = true ∧ bit 1 w.val.toNat = true ∧
        w.val.toNat = s.rw (Page.hap.key (F.HAP_H_CTRL_EN.at [c])) + 2 ∧ (s.hap c).state = .idle ∧ s.hapRuns = true ∧ s.fld .hap F.HAP_H_CALCFG_F_LO
        [c] < s.fld .hap F.HAP_H_CALCFG_F_HI [c] ∧ s.fld .hap F.HAP_H_CALCFG_CAL_LEVEL [c] ≠ 0)
      ∧ (∃ (s : State) (w : RegWr) (c : Nat), Inv s ∧ c < 8 ∧ s.wordGranted w .hap (F.HAP_H_CTRL_EN.at [c]) = true ∧ bit 1 w.val.toNat = true ∧
        w.val.toNat = s.rw (Page.hap.key (F.HAP_H_CTRL_EN.at [c])) + 2 ∧ (s.hap c).state ≠ .idle)
      ∧ (∃ (s : State) (c : Nat) (freq : Nat) (peak : Nat) (level : Nat), Inv s ∧ c < 8 ∧ (s.hap c).state = .cal ∧ (s.hap c).peak = peak ∧ s.fld .hap
        F.HAP_H_CALCFG_CAL_LEVEL [c] = level ∧ level ≠ 0 ∧ level ≤ 16 * peak)
      ∧ (∃ (s : State) (c : Nat) (freq : Nat), Inv s ∧ c < 8 ∧ (s.hap c).state = .cal ∧ (s.hap c).peak < s.fld .hap F.HAP_H_CALCFG_CAL_LEVEL [c] / 16)
      ∧ (∃ (s : State) (c : Nat) (carrier : Nat) (i : Nat) (adcA : Int) (adcI : Int) (r : Rule), Inv s ∧ c < 8 ∧ Sparse.find s.haptic.rules i = some r
        ∧ r.leaving = true ∧ r.channel = c)
      ∧ (∃ (s : State) (c : Nat) (carrier : Nat) (adcA : Int) (adcI : Int), Inv s ∧ c < 8 ∧ (s.standby = true ∨ s.hapRuns = false)) :=
  ⟨⟨
      { State.reset with
        regs := [(2752520, 0x00000001#32)],
        haptic := { State.reset.haptic with
          extents := [
            { 
              clip := 65537, offset := 32, length := 40, fn := 64,
              samples := some [
                12000, 0, 0, 0, 0, 0, 0, 0, 0, 0, 0, 0, 0, 0, 0, 0, 0, 0, 0, 0, 0, 0, 0, 0, 0, 0, 0, 0, 0, 0, 0, 0, 0, 0, 0, 0, 0, 0, 0, 0] }],
          chans := [
            (
              3,
              { idleHap with
                state := HapState.idle,
                arrivals := [
                  { 
                    effect := { 
                      tapSource := false, tap := 0, retrig := false, priority := 0, gain := 24576, clip := 65537, offset := 32, length := 40, fn := 64 },
                    rule := none, jid := some 4, touchAt := 0 }] })] },
        hosts := { State.reset.hosts with
          queues := [],
          jobs := [
            { jid := 4, fn := 64, q := 0, cid := 5, opcode := 48, params := [3, 1610612736, 65537, 32, 40], sqHead := 0, stage := JobStage.fetched }],
          nextJid := 5 } }, 3, 4, 0, 0, 0, 12000,
      { 
        effect := { 
          tapSource := false, tap := 0, retrig := false, priority := 0, gain := 24576, clip := 65537, offset := 32, length := 40, fn := 64 },
        rule := none, jid := some 4, touchAt := 0 },
      { jid := 4, fn := 64, q := 0, cid := 5, opcode := 48, params := [3, 1610612736, 65537, 32, 40], sqHead := 0, stage := JobStage.fetched },
      { 
        clip := 65537, offset := 32, length := 40, fn := 64,
        samples := some [12000, 0, 0, 0, 0, 0, 0, 0, 0, 0, 0, 0, 0, 0, 0, 0, 0, 0, 0, 0, 0, 0, 0, 0, 0, 0, 0, 0, 0, 0, 0, 0, 0, 0, 0, 0, 0, 0, 0, 0] },
      (List.replicate 39 0), inv_of (by decide +kernel), by decide +kernel⟩,
    ⟨
      { State.reset with
        regs := [(2752520, 0x00000001#32)],
        haptic := { State.reset.haptic with
          extents := [
            { 
              clip := 65537, offset := 32, length := 40, fn := 64,
              samples := some [
                12000, 0, 0, 0, 0, 0, 0, 0, 0, 0, 0, 0, 0, 0, 0, 0, 0, 0, 0, 0, 0, 0, 0, 0, 0, 0, 0, 0, 0, 0, 0, 0, 0, 0, 0, 0, 0, 0, 0, 0] }],
          chans := [
            (
              3,
              { idleHap with
                state := HapState.drive,
                effect := some { 
                  tapSource := false, tap := 0, retrig := false, priority := 0, gain := 24576, clip := 65537, offset := 32, length := 40, fn := 64 },
                period := 1, integ := 55 })] } }, 3, 0, 700, 3, 0, 700, -645,
      { tapSource := false, tap := 0, retrig := false, priority := 0, gain := 24576, clip := 65537, offset := 32, length := 40, fn := 64 },
      { 
        clip := 65537, offset := 32, length := 40, fn := 64,
        samples := some [12000, 0, 0, 0, 0, 0, 0, 0, 0, 0, 0, 0, 0, 0, 0, 0, 0, 0, 0, 0, 0, 0, 0, 0, 0, 0, 0, 0, 0, 0, 0, 0, 0, 0, 0, 0, 0, 0, 0, 0] },
      [12000, 0, 0, 0, 0, 0, 0, 0, 0, 0, 0, 0, 0, 0, 0, 0, 0, 0, 0, 0, 0, 0, 0, 0, 0, 0, 0, 0, 0, 0, 0, 0, 0, 0, 0, 0, 0, 0, 0, 0],
      inv_of (by decide +kernel), by decide +kernel⟩,
    ⟨
      { State.reset with
        regs := [(2752520, 0x00000001#32)],
        haptic := { State.reset.haptic with chans := [(3, { idleHap with state := HapState.brake, braked := 64 })] } }, 3, 0, 7000, 3,
      inv_of (by decide +kernel), by decide +kernel⟩,
    ⟨
      { State.reset with
        regs := [(2752520, 0x00000001#32)], haptic := { State.reset.haptic with chans := [(3, { idleHap with state := HapState.brake })] } }, 3, 0,
      7000, -30720, inv_of (by decide +kernel), by decide +kernel⟩,
    ⟨{ State.reset with regs := [(2900224, 0x40000001#32)], audio := { State.reset.audio with active := [(2883696, 0x00008000#32)] } }, 0, 40000,
      by decide +kernel⟩,
    ⟨State.reset, { req := { fn := 64, secure := false }, win := Window.pf, off := 2752960, be := 0xf#4, val := 0x00000001#32 }, 3,
      inv_of (by decide +kernel), by decide +kernel⟩,
    ⟨
      { State.reset with
        regs := [(2752960, 0x00000001#32)], haptic := { State.reset.haptic with chans := [(3, { idleHap with state := HapState.fault })] } },
      { req := { fn := 64, secure := false }, win := Window.pf, off := 2752960, be := 0xf#4, val := 0#32 }, 3, inv_of (by decide +kernel),
      by decide +kernel⟩,
    ⟨
      { State.reset with
        regs := [(2752960, 0x00000001#32)], haptic := { State.reset.haptic with chans := [(3, { idleHap with state := HapState.idle })] } },
      { req := { fn := 64, secure := false }, win := Window.pf, off := 2752960, be := 0xf#4, val := 0#32 }, 3, inv_of (by decide +kernel),
      by decide +kernel⟩,
    ⟨
      { State.reset with
        regs := [(2752520, 0x00000001#32), (2752960, 0x00000001#32)],
        haptic := { State.reset.haptic with chans := [(3, { idleHap with state := HapState.idle })] } },
      { req := { fn := 64, secure := false }, win := Window.pf, off := 2752960, be := 0xf#4, val := 0x00000003#32 }, 3, inv_of (by decide +kernel),
      by decide +kernel⟩,
    ⟨{ State.reset with regs := [(2752960, 0x00000001#32)] },
      { req := { fn := 64, secure := false }, win := Window.pf, off := 2752960, be := 0xf#4, val := 0x00000003#32 }, 3, inv_of (by decide +kernel),
      by decide +kernel⟩,
    ⟨{ State.reset with haptic := { State.reset.haptic with chans := [(3, { idleHap with state := HapState.cal, peak := 512 })] } }, 3, 777, 512,
      8192, inv_of (by decide +kernel), by decide +kernel⟩,
    ⟨{ State.reset with haptic := { State.reset.haptic with chans := [(3, { idleHap with state := HapState.cal })] } }, 3, 777,
      inv_of (by decide +kernel), by decide +kernel⟩,
    ⟨
      { State.reset with
        haptic := { State.reset.haptic with
          rules := [
            (
              0,
              { 
                fn := 64, panel := 0, channel := 3, events := 1, x := 10, y := 20, w := 5, h := 6,
                effect := { 
                  tapSource := true, tap := 0, retrig := false, priority := 0, gain := 24576, clip := 0, offset := 0, length := 9, fn := 64 },
                fires := 0, leaving := true })] } }, 3, 0, 0, 0, 0,
      { 
        fn := 64, panel := 0, channel := 3, events := 1, x := 10, y := 20, w := 5, h := 6,
        effect := { tapSource := true, tap := 0, retrig := false, priority := 0, gain := 24576, clip := 0, offset := 0, length := 9, fn := 64 },
        fires := 0, leaving := true }, inv_of (by decide +kernel), by decide +kernel⟩,
    ⟨State.reset, 3, 0, 0, 0, inv_of (by decide +kernel), by decide +kernel⟩⟩

/-- States and operands that meet the hypotheses of AudioStreams, clause by clause. -/
theorem witness_AudioStreams :
    (∃ (s : State) (c : CmdArgs) (ch : Nat) (i : Nat) (b : Buf), Inv s ∧ s.checkBuf c.fn (c.params.getD 1 0) = .ok i ∧ s.accepts 0x28 c = true ∧
      s.posts c.fn c.q = true ∧ ch < 64 ∧ c.params.getD 0 0 = ch + 1 * 2 ^ 8 ∧ s.buf i = some b ∧ s.bufKind i ∈ [2, 3] ∧ b.chanHandle = s.strFld ch
      F.STR_CHANNEL_CHANNEL ∧ c.params.getD 3 0 ≠ 0 ∧ c.params.getD 3 0 % 16 = 0 ∧ c.params.getD 2 0 % 4 = 0 ∧ c.params.getD 2 0 + c.params.getD 3 0 *
      s.sampleBytes ch ≤ b.plots.length * 65536 ∧ s.blockStopped (.aud 0) = false ∧ s.flag (.aud 0) F.PG_CTRL_ENABLE = true ∧ s.strFld ch F.STR_CFG_EN
      = 1 ∧ s.strFld ch F.STR_CFG_DOMAIN = 0 ∧ (s.stream ch).regions.length < 8)
      ∧ (∃ (s : State) (d : Nat) (ch : Nat) (t0 : Nat) (r : AudRegion) (j : Job), Inv s ∧ d < 3 ∧ ch < 64 ∧ s.flag (.aud 0) F.PG_STAT_ENABLED = true ∧
        s.flag (.aud 0) F.PG_CTRL_ENABLE = true ∧ s.audio.closing = [] ∧ s.audio.faded = [] ∧ s.audio.pause ≠ 2 ∧ s.audio.armed = none ∧ s.audio.fades
        = [] ∧ s.audio.applying = false ∧ s.streamsOf d 0 = [ch] ∧ s.streamsOf d 1 = [] ∧ (∀ b < 24, s.busDomain b ≠ d) ∧ (∀ p < 12, s.tdmFld p
        F.TDM_CFG_DOMAIN ≠ d) ∧ (s.stream ch).regions = [r] ∧ (s.stream ch).running = true ∧ (s.stream ch).ending = false ∧ (s.stream ch).squashed =
        false ∧ r.t0 = some t0 ∧ r.length = r.done + 16 ∧ s.owes r.jid j = true ∧ (s.buf r.buf).map Buf.state = some .live ∧ (s.audRead (s.audAttr
        r.fn) r.buf ((r.offset + s.sampleBytes ch * r.done) / 16 * 16) ((r.offset + s.sampleBytes ch * r.done + 16 * s.sampleBytes ch - (r.offset +
        s.sampleBytes ch * r.done) / 16 * 16 + 15) / 16)).1 ≠ none)
      ∧ (∃ (s : State) (d : Nat) (ch : Nat), Inv s ∧ d < 3 ∧ ch < 64 ∧ s.flag (.aud 0) F.PG_STAT_ENABLED = true ∧ s.flag (.aud 0) F.PG_CTRL_ENABLE =
        true ∧ s.audio.closing = [] ∧ s.audio.faded = [] ∧ s.audio.pause ≠ 2 ∧ s.audio.armed = none ∧ s.audio.fades = [] ∧ s.audio.applying = false ∧
        s.streamsOf d 0 = [ch] ∧ s.streamsOf d 1 = [] ∧ (∀ b < 24, s.busDomain b ≠ d) ∧ (∀ p < 12, s.tdmFld p F.TDM_CFG_DOMAIN ≠ d) ∧ (s.stream
        ch).regions = [] ∧ (s.stream ch).running = true ∧ (s.stream ch).ending = false ∧ (s.stream ch).squashed = false)
      ∧ (∃ (s : State) (w : RegWr) (ch : Nat), Inv s ∧ ch < 64 ∧ s.wordGranted w (strPage ch) (F.STR_CFG_EN.at [ch % 32]) = true ∧ bit 0 w.val.toNat =
        false ∧ w.val.toNat + 1 = s.rw ((strPage ch).key (F.STR_CFG_EN.at [ch % 32])))
      ∧ (∃ (s : State) (w : RegWr) (ch : Nat) (i : Nat) (x : Chan), Inv s ∧ s.checkChan w.req.fn w.val.toNat = .ok i ∧ ch < 64 ∧ s.wordGranted w
        (strPage ch) (F.STR_CHANNEL_CHANNEL.at [ch % 32]) = true ∧ s.strFld ch F.STR_CFG_EN = 0 ∧ w.val.toNat ≠ 0 ∧ s.chan i = some x)
      ∧ (∃ (s : State) (w : RegWr) (ch : Nat) (code : Nat), Inv s ∧ (if s.strFld ch F.STR_CFG_EN = 1 then code = 0x000A else s.checkChan w.req.fn
        w.val.toNat = .error code) ∧ ch < 64 ∧ s.wordGranted w (strPage ch) (F.STR_CHANNEL_CHANNEL.at [ch % 32]) = true)
      ∧ (∃ (s : State) (w : RegWr), Inv s ∧ s.wordGranted w (.aud 0) 0x04C = true ∧ bit 8 w.val.toNat = true ∧ w.val.toNat = s.rw ((Page.aud 0).key
        0x04C) + 256 ∧ s.routeFault s.pendingSet = none)
      ∧ (∃ (s : State) (w : RegWr) (o : Nat) (p : Nat) (r : Nat), Inv s ∧ s.wordGranted w (.aud 0) 0x04C = true ∧ bit 8 w.val.toNat = true ∧
        w.val.toNat = s.rw ((Page.aud 0).key 0x04C) + 256 ∧ s.routeFault s.pendingSet = some (o, p, r))
      ∧ (∃ (s : State) (k : Nat) (b : Bridge), Inv s ∧ k < 32 ∧ Sparse.find s.audio.bridges k = some b ∧ b.source < 2 ^ 9 ∧ b.src < 4 ∧ b.dst < 4)
      ∧ (∃ (s : State) (w : RegWr), Inv s ∧ s.ctrlGranted w (.aud 0) F.PG_CTRL_SOFT_RESET (2 + s.fld (.aud 0) F.PG_CTRL_ENABLE) = true ∧ s.pageArmed
        (Page.aud 0).base = false) :=
  ⟨⟨
      { State.reset with
        regs := [(68, 0x00000017#32), (2883592, 0x00000001#32), (2896208, 0x00000001#32), (2896212, 0x20000101#32)],
        pool := { State.reset.pool with
          chans := { 
            used := [
              (0, { kind := 1, fn := 64, draining := false, destroyJob := none }), (1, { kind := 2, fn := 64, draining := false, destroyJob := none })],
            gens := [], fresh := 2, freed := [] },
          bufs := { 
            used := [
              (
                0,
                { 
                  state := BufState.live, chan := 0, chanHandle := 268435712, fn := 64, plots := [0], size := 65536, fences := 0, toFill := [],
                  allocJob := none, freeJob := none, freeAfterFill := false }),
              (
                1,
                { 
                  state := BufState.live, chan := 1, chanHandle := 536871169, fn := 64, plots := [1], size := 65536, fences := 0, toFill := [],
                  allocJob := none, freeJob := none, freeAfterFill := false })], gens := [], fresh := 2, freed := [] } } },
      { fn := 64, q := 0, cid := 5, ordered := false, rsvd := 0, params := [293, 65537, 0, 32] }, 37, 1,
      { 
        state := BufState.live, chan := 1, chanHandle := 536871169, fn := 64, plots := [1], size := 65536, fences := 0, toFill := [],
        allocJob := none, freeJob := none, freeAfterFill := false }, inv_of (by decide +kernel), except_of (by decide +kernel), by decide +kernel⟩,
    ⟨
      { State.reset with
        regs := [(266304, 0x08000000#32), (2883592, 0x00000001#32), (2883596, 0x00000001#32), (2896208, 0x00000005#32)],
        mem := [
          (1048576, 0x40#8), (1048577, 0x0a#8), (1048580, 0x40#8), (1048581, 0x0a#8), (67371008, 0x87#8), (67371009, 0x24#8), (67371010, 0x38#8)],
        pool := { State.reset.pool with
          bufs := { 
            used := [
              (
                0,
                { 
                  state := BufState.live, chan := 0, chanHandle := 268435712, fn := 64, plots := [0], size := 65536, fences := 0, toFill := [],
                  allocJob := none, freeJob := none, freeAfterFill := false }),
              (
                1,
                { 
                  state := BufState.live, chan := 1, chanHandle := 536871169, fn := 64, plots := [1], size := 65536, fences := 1, toFill := [],
                  allocJob := none, freeJob := none, freeAfterFill := false })], gens := [], fresh := 2, freed := [] } },
        audio := { State.reset.audio with
          streams := [
            (
              37,
              { idleStream with
                regions := [
                  { jid := 4, fn := 64, buf := 1, offset := 0, length := 32, last := false, done := 16, t0 := some 30064771077, delay := 3 }],
                running := true })] },
        hosts := { State.reset.hosts with
          queues := [],
          jobs := [{ jid := 4, fn := 64, q := 0, cid := 5, opcode := 40, params := [293, 65537, 0, 32], sqHead := 0, stage := JobStage.owed }],
          nextJid := 5 } }, 1, 37, 30064771077,
      { jid := 4, fn := 64, buf := 1, offset := 0, length := 32, last := false, done := 16, t0 := some 30064771077, delay := 3 },
      { jid := 4, fn := 64, q := 0, cid := 5, opcode := 40, params := [293, 65537, 0, 32], sqHead := 0, stage := JobStage.owed },
      inv_of (by decide +kernel), by decide +kernel⟩,
    ⟨
      { State.reset with
        regs := [(2883592, 0x00000001#32), (2883596, 0x00000001#32), (2896208, 0x00000005#32)],
        audio := { State.reset.audio with streams := [(37, { idleStream with running := true })] } }, 1, 37, inv_of (by decide +kernel),
      by decide +kernel⟩,
    ⟨{ State.reset with regs := [(2896208, 0x00000005#32)] },
      { req := { fn := 64, secure := false }, win := Window.pf, off := 2896208, be := 0xf#4, val := 0x00000004#32 }, 37, inv_of (by decide +kernel),
      by decide +kernel⟩,
    ⟨
      { State.reset with
        pool := { State.reset.pool with
          chans := { 
            used := [
              (0, { kind := 1, fn := 64, draining := false, destroyJob := none }), (1, { kind := 2, fn := 64, draining := false, destroyJob := none })],
            gens := [], fresh := 2, freed := [] } } },
      { req := { fn := 64, secure := false }, win := Window.pf, off := 2896212, be := 0xf#4, val := 0x20000101#32 }, 37, 1,
      { kind := 2, fn := 64, draining := false, destroyJob := none }, inv_of (by decide +kernel), except_of (by decide +kernel), by decide +kernel⟩,
    ⟨State.reset, { req := { fn := 64, secure := false }, win := Window.pf, off := 2896212, be := 0xf#4, val := 0x20000105#32 }, 37, 258,
      inv_of (by decide +kernel), except_of (by decide +kernel), by decide +kernel⟩,
    ⟨State.reset, { req := { fn := 64, secure := false }, win := Window.pf, off := 2883660, be := 0xf#4, val := 0x00000101#32 },
      inv_of (by decide +kernel), by decide +kernel⟩,
    ⟨{ State.reset with regs := [(2883704, 0x00000018#32)] },
      { req := { fn := 64, secure := false }, win := Window.pf, off := 2883660, be := 0xf#4, val := 0x00000101#32 }, 120, 0, 3,
      inv_of (by decide +kernel), by decide +kernel⟩,
    ⟨{ State.reset with audio := { State.reset.audio with bridges := [(3, { source := 386, src := 1, dst := 2, primed := false })] } }, 3,
      { source := 386, src := 1, dst := 2, primed := false }, inv_of (by decide +kernel), by decide +kernel⟩,
    ⟨{ State.reset with regs := [(2883592, 0x00000001#32)] },
      { req := { fn := 64, secure := false }, win := Window.pf, off := 2883592, be := 0xf#4, val := 0x00000003#32 }, inv_of (by decide +kernel),
      by decide +kernel⟩⟩

/-- States and operands that meet the hypotheses of AudioPorts, clause by clause. -/
theorem witness_AudioPorts :
    (∃ (s : State) (w : RegWr) (p : Nat), Inv s ∧ p < 12 ∧ s.wordGranted w (.aud 1) (F.TDM_CFG_EN.at (tdmIx p)) = true ∧ s.tdmFld p F.TDM_CFG_EN = 0 ∧
      bit 0 w.val.toNat = true ∧ State.tdmFault w.val.toNat = none)
      ∧ (∃ (s : State) (w : RegWr) (p : Nat) (code : Nat), Inv s ∧ p < 12 ∧ s.wordGranted w (.aud 1) (F.TDM_CFG_EN.at (tdmIx p)) = true ∧ s.tdmFld p
        F.TDM_CFG_EN = 0 ∧ bit 0 w.val.toNat = true ∧ State.tdmFault w.val.toNat = some code)
      ∧ (∃ (s : State) (w : RegWr) (b : Nat), Inv s ∧ b < 24 ∧ s.wordGranted w (busPage b) (F.BUS_CFG_EN.at [b % 8]) = true ∧ (bits 2 1 w.val.toNat =
        s.busDomain b ∨ (s.fld (busPage b) F.BUS_CFG_EN [b % 8] = 0 ∧ bits 2 1 w.val.toNat ≠ 3)))
      ∧ (∃ (s : State) (w : RegWr) (b : Nat), Inv s ∧ b < 24 ∧ s.wordGranted w (busPage b) (F.BUS_CFG_EN.at [b % 8]) = true ∧ bits 2 1 w.val.toNat ≠
        s.busDomain b ∧ (s.fld (busPage b) F.BUS_CFG_EN [b % 8] = 1 ∨ bits 2 1 w.val.toNat = 3))
      ∧ (∃ (s : State) (d : Nat), Inv s ∧ d < 3 ∧ s.fld (.aud 0) F.AUD_DOM_LOCKED [d] = 1)
      ∧ (∃ (s : State) (d : Nat) (p : Nat), Inv s ∧ d < 3 ∧ p < 6 ∧ s.fld (.aud 0) F.AUD_DOM_SOURCE [d] = p + 1 ∧ s.fld (.aud 0) F.AUD_DOM_HOLDOVER
        [d] = 1 ∧ s.tdmFld p F.TDM_CFG_EN = 1 ∧ s.tdmFld p F.TDM_CFG_MASTER = 0 ∧ s.tdmFld p F.TDM_CFG_DOMAIN = d)
      ∧ (∃ (s : State) (d : Nat), Inv s ∧ d < 3 ∧ s.fld (.aud 0) F.AUD_DOM_LOCKED [d] = 0)
      ∧ (∃ (s : State) (p : Nat), Inv s ∧ p < 12 ∧ s.tdmFld p F.TDM_CFG_EN = 1 ∧ s.tdmFld p F.TDM_CFG_MASTER = 0 ∧ (p < 6 → s.fld (.aud 0)
        F.AUD_DOM_SOURCE [s.tdmFld p F.TDM_CFG_DOMAIN] ≠ p + 1))
      ∧ (∃ (s : State) (p : Nat), Inv s ∧ p < 12 ∧ s.tdmFld p F.TDM_CFG_EN = 1 ∧ s.tdmFld p F.TDM_CFG_MASTER = 0 ∧ s.tdmFld p F.TDM_STAT_CLOCK_LOST =
        0)
      ∧ (∃ (s : State) (w : RegWr) (p : Nat), Inv s ∧ p < 12 ∧ s.wordGranted w (.aud 1) (F.TDM_CFG_EN.at (tdmIx p)) = true ∧ bit 0 w.val.toNat = false
        ∧ w.val.toNat + 1 = s.rw ((Page.aud 1).key (F.TDM_CFG_EN.at (tdmIx p))))
      ∧ (∃ (s : State) (d : Nat) (p : Nat) (i : Nat) (inputs : List (Nat × List Int)) (sync : List Nat) (l : List Int) (st : Store (List Int)) (next :
        Store (List Int)), Inv s ∧ d < 3 ∧ p < 6 ∧ s.flag (.aud 0) F.PG_STAT_ENABLED = true ∧ s.flag (.aud 0) F.PG_CTRL_ENABLE = true ∧
        s.audio.closing = [] ∧ s.audio.faded = [] ∧ s.audio.pause ≠ 2 ∧ s.standby = false ∧ s.portServed d p = true ∧ i < s.tdmFld (6 + p)
        F.TDM_CFG_SLOTS ∧ p ∉ s.audio.joining ∧ p ∉ s.audio.fresh ∧ p ∉ s.audio.fadeIn ∧ (d = 0 → s.audio.side = []) ∧ Sparse.find s.audio.late d =
        some (st, next) ∧ Sparse.find st (p * 16 + i) = some l)
      ∧ (∃ (s : State) (d : Nat) (b : Nat) (inputs : List (Nat × List Int)) (xs : List (List (Int × Int))) (u : List Int) (l : List Int) (run :
        BusRun) (sat : Bool) (lim : Bool), Inv s ∧ d < 3 ∧ s.flag (.aud 0) F.PG_STAT_ENABLED = true ∧ s.flag (.aud 0) F.PG_CTRL_ENABLE = true ∧
        s.audio.closing = [] ∧ s.audio.faded = [] ∧ s.audio.pause ≠ 2 ∧ s.audio.armed = none ∧ s.audio.fades = [] ∧ s.audio.applying = false ∧
        s.streamsOf d 0 = [] ∧ (List.range 24).filter (fun k => s.busDomain k == d) = [b] ∧ s.fld (busPage b) F.BUS_CFG_EN [b % 8] = 1 ∧ (s.bus b).on
        = true ∧ (s.bus b).fade = none ∧ (s.bus b).old = none ∧ xs = (s.busInputs s.audio.active d b inputs ⟨[], []⟩).1 ∧ busBlock (s.busCfg
        s.audio.active b) (s.bus b).run xs = (u, l, run, sat, lim)) :=
  ⟨⟨State.reset, { req := { fn := 64, secure := false }, win := Window.pf, off := 2888224, be := 0xf#4, val := 0x00000083#32 }, 8,
      inv_of (by decide +kernel), by decide +kernel⟩,
    ⟨State.reset, { req := { fn := 64, secure := false }, win := Window.pf, off := 2887968, be := 0xf#4, val := 0x00000441#32 }, 2, 6,
      inv_of (by decide +kernel), by decide +kernel⟩,
    ⟨State.reset, { req := { fn := 64, secure := false }, win := Window.pf, off := 2905280, be := 0xf#4, val := 0x12340009#32 }, 11,
      inv_of (by decide +kernel), by decide +kernel⟩,
    ⟨State.reset, { req := { fn := 64, secure := false }, win := Window.pf, off := 2905280, be := 0xf#4, val := 0x12340007#32 }, 11,
      inv_of (by decide +kernel), by decide +kernel⟩,
    ⟨{ State.reset with regs := [(2883648, 0x00000103#32)] }, 0, inv_of (by decide +kernel), by decide +kernel⟩,
    ⟨{ State.reset with regs := [(2883648, 0x00000203#32), (2887968, 0x00000081#32)] }, 0, 2, inv_of (by decide +kernel), by decide +kernel⟩,
    ⟨State.reset, 0, inv_of (by decide +kernel), by decide +kernel⟩,
    ⟨{ State.reset with regs := [(2887968, 0x00000081#32)] }, 2, inv_of (by decide +kernel), by decide +kernel⟩,
    ⟨{ State.reset with regs := [(2887968, 0x00000081#32)] }, 2, inv_of (by decide +kernel), by decide +kernel⟩,
    ⟨{ State.reset with regs := [(2887968, 0x00000081#32)] },
      { req := { fn := 64, secure := false }, win := Window.pf, off := 2887968, be := 0xf#4, val := 0x00000080#32 }, 2, inv_of (by decide +kernel),
      by decide +kernel⟩,
    ⟨
      { State.reset with
        regs := [(2883592, 0x00000001#32), (2883596, 0x00000001#32), (2888224, 0x00000083#32)],
        audio := { State.reset.audio with
          late := [(0, [(33, [0, 1000, 2000, 3000, 4000, 5000, 6000, 7000, 8000, 9000, 10000, 11000, 12000, 13000, 14000, 15000])], [])] } }, 0, 2, 1,
      [], [], [0, 1000, 2000, 3000, 4000, 5000, 6000, 7000, 8000, 9000, 10000, 11000, 12000, 13000, 14000, 15000],
      [(33, [0, 1000, 2000, 3000, 4000, 5000, 6000, 7000, 8000, 9000, 10000, 11000, 12000, 13000, 14000, 15000])], [], inv_of (by decide +kernel),
      by decide +kernel⟩,
    ⟨
      { State.reset with
        regs := [(2883592, 0x00000001#32), (2883596, 0x00000001#32), (2887936, 0x00001091#32), (2905280, 0x40000003#32)],
        audio := { State.reset.audio with
          active := [(2905284, 0x10001388#32), (2905296, 0x40000001#32)], buses := [(11, { idleBus with on := true })] } }, 1, 11,
      [(1, [0, 1000, 2000, 3000, 4000, 5000, 6000, 7000, 8000, 9000, 10000, 11000, 12000, 13000, 14000, 15000])],
      [
        [(0, 16384)], [(1000, 16384)], [(2000, 16384)], [(3000, 16384)], [(4000, 16384)], [(5000, 16384)], [(6000, 16384)], [(7000, 16384)],
        [(8000, 16384)], [(9000, 16384)], [(10000, 16384)], [(11000, 16384)], [(12000, 16384)], [(13000, 16384)], [(14000, 16384)], [(15000, 16384)]],
      [0, 1000, 2000, 3000, 4000, 5000, 6000, 7000, 8000, 9000, 10000, 11000, 12000, 13000, 14000, 15000],
      [0, 1000, 2000, 3000, 4000, 5000, 4999, 4999, 5000, 4999, 5000, 4999, 4999, 4999, 4999, 4999],
      { biquads := (List.replicate 10 (0, 0, 0, 0)), lg := 11012 }, false, true, inv_of (by decide +kernel), by decide +kernel⟩⟩

/-- States and operands that meet the hypotheses of PairStates, clause by clause. -/
theorem witness_PairStates :
    (∃ (s : State) (a : Bool), Inv s ∧ s.pair.guyIn ≠ a ∧ s.pair.state ≠ .waiting)
      ∧ (∃ (s : State), Inv s ∧ s.paired = true ∧ s.pair.state = .waiting ∧ s.position = 0 ∧ s.pair.guyIn = true)
      ∧ (∃ (s : State), Inv s ∧ s.paired = true ∧ s.pair.guyIn = false ∧ s.pair.wasAsserted = true ∧ s.pair.guyFault = false ∧ s.pair.backoff = false
        ∧ s.pair.state = .standby ∧ s.pair.handover ≠ 3)
      ∧ (∃ (s : State), Inv s ∧ s.paired = true ∧ s.pair.guyIn = true ∧ s.pair.state = .waiting ∧ s.pair.linkUp = false)
      ∧ (∃ (s : State), Inv s ∧ s.paired = true ∧ s.pair.guyOut = true ∧ s.pair.guyIn = true ∧ s.position = 0)
      ∧ (∃ (s : State), Inv s ∧ s.paired = true ∧ s.pair.guyOut = true ∧ s.pair.guyIn = true ∧ s.position = 1)
      ∧ (∃ (s : State), Inv s ∧ s.paired = true ∧ s.pair.collision = true ∧ s.pair.guyOut = true ∧ s.pair.guyIn = true)
      ∧ (∃ (s : State), Inv s ∧ s.paired = true ∧ s.pair.backoff = true ∧ s.pair.guyIn = true)
      ∧ (∃ (s : State), Inv s ∧ s.paired = true ∧ s.pair.backoff = true ∧ s.pair.guyIn = false ∧ s.pair.state = .detached)
      ∧ (∃ (s : State), Inv s ∧ s.paired = true ∧ s.pair.state = .waiting ∧ s.position = 1 ∧ s.pair.guyIn = false ∧ (s.pair.linkUp && s.pair.pGuyOut)
        = false)
      ∧ (∃ (s : State) (speed : Nat) (width : Nat) (h : FlitHdr) (b : Beat), Inv s ∧ s.paired = true ∧ s.pair.linkUp = false ∧ s.faults.fatal = none ∧
        s.pair.recovering = false ∧ h.ackValid = false ∧ h.nak = false ∧ b.guyOut = s.pair.guyIn)
      ∧ (∃ (s : State), Inv s ∧ s.paired = true ∧ s.canSend = true)
      ∧ (∃ (s : State) (h : FlitHdr) (b : Beat) (slow : Bool), Inv s ∧ s.linked = true ∧ s.receives h = true ∧ b.guyOut = s.pair.guyIn)
      ∧ (∃ (s : State) (h : FlitHdr) (b : Beat) (slow : Bool), Inv s ∧ s.linked = true ∧ s.receives h = true ∧ b.guyOut ≠ s.pair.guyIn ∧
        s.pair.guyDiffer = 2 ∧ s.pair.guyFault = false ∧ s.pair.state ≠ .waiting)
      ∧ (∃ (s : State), Inv s ∧ s.linked = true ∧ s.pair.state = .active)
      ∧ (∃ (s : State), Inv s ∧ s.linked = true ∧ s.pair.state = .standby ∧ s.pair.guyFault = false) :=
  ⟨⟨{ State.reset with pair := { State.reset.pair with state := PairState.standby, guyIn := true } }, false, inv_of (by decide +kernel),
      by decide +kernel⟩,
    ⟨{ State.reset with regs := [(3145736, 0x00000001#32)], pair := { State.reset.pair with guyIn := true } }, inv_of (by decide +kernel),
      by decide +kernel⟩,
    ⟨{ State.reset with regs := [(3145736, 0x00000001#32)], pair := { State.reset.pair with state := PairState.standby, wasAsserted := true } },
      inv_of (by decide +kernel), by decide +kernel⟩,
    ⟨{ State.reset with regs := [(3145736, 0x00000001#32)], pair := { State.reset.pair with guyIn := true } }, inv_of (by decide +kernel),
      by decide +kernel⟩,
    ⟨{ State.reset with regs := [(3145736, 0x00000001#32)], pair := { State.reset.pair with guyOut := true, guyIn := true } },
      inv_of (by decide +kernel), by decide +kernel⟩,
    ⟨
      { State.reset with
        regs := [(3145736, 0x00000001#32), (3145792, 0x00006431#32)], pair := { State.reset.pair with guyOut := true, guyIn := true } },
      inv_of (by decide +kernel), by decide +kernel⟩,
    ⟨{ State.reset with regs := [(3145736, 0x00000001#32)], pair := { State.reset.pair with guyOut := true, guyIn := true, collision := true } },
      inv_of (by decide +kernel), by decide +kernel⟩,
    ⟨{ State.reset with regs := [(3145736, 0x00000001#32)], pair := { State.reset.pair with guyIn := true, backoff := true } },
      inv_of (by decide +kernel), by decide +kernel⟩,
    ⟨{ State.reset with regs := [(3145736, 0x00000001#32)], pair := { State.reset.pair with state := PairState.detached, backoff := true } },
      inv_of (by decide +kernel), by decide +kernel⟩,
    ⟨{ State.reset with regs := [(3145736, 0x00000001#32), (3145792, 0x00006431#32)] }, inv_of (by decide +kernel), by decide +kernel⟩,
    ⟨{ State.reset with regs := [(3145736, 0x00000001#32)] }, 3, 8, { seq := 7, ack := 0, ackValid := false, nak := false },
      { protocol := 1, position := 1, state := 4, guyOut := false, guyIn := false, version := 77, dtime := 5, applied := 6 },
      inv_of (by decide +kernel), by decide +kernel⟩,
    ⟨{ State.reset with regs := [(3145736, 0x00000001#32)], pair := { State.reset.pair with trained := true } }, inv_of (by decide +kernel),
      by decide +kernel⟩,
    ⟨{ State.reset with regs := [(3145736, 0x00000001#32)], pair := { State.reset.pair with linkUp := true, trained := true, rxSeq := 7 } },
      { seq := 7, ack := 0, ackValid := false, nak := false },
      { protocol := 1, position := 1, state := 4, guyOut := false, guyIn := false, version := 77, dtime := 5, applied := 6 }, true,
      inv_of (by decide +kernel), by decide +kernel⟩,
    ⟨
      { State.reset with
        regs := [(3145736, 0x00000001#32)],
        pair := { State.reset.pair with state := PairState.solo, linkUp := true, trained := true, guyDiffer := 2, rxSeq := 7 } },
      { seq := 7, ack := 0, ackValid := false, nak := false },
      { protocol := 1, position := 1, state := 4, guyOut := true, guyIn := false, version := 77, dtime := 5, applied := 6 }, false,
      inv_of (by decide +kernel), by decide +kernel⟩,
    ⟨{ State.reset with regs := [(3145736, 0x00000001#32)], pair := { State.reset.pair with state := PairState.active, linkUp := true } },
      inv_of (by decide +kernel), by decide +kernel⟩,
    ⟨{ State.reset with regs := [(3145736, 0x00000001#32)], pair := { State.reset.pair with state := PairState.standby, linkUp := true } },
      inv_of (by decide +kernel), by decide +kernel⟩⟩

/-- States and operands that meet the hypotheses of PairRoles, clause by clause. -/
theorem witness_PairRoles :
    (∃ (s : State) (h : FlitHdr) (config : Nat), Inv s ∧ s.joinFault config = none ∧ s.receives h = true ∧ s.canSend = true ∧ s.pair.guyOut = true)
      ∧ (∃ (s : State) (h : FlitHdr) (config : Nat) (r : Nat), Inv s ∧ s.receives h = true ∧ s.canSend = true ∧ s.pair.guyOut = true ∧ s.joinFault
        config = some r)
      ∧ (∃ (s : State) (h : FlitHdr), Inv s ∧ s.receives h = true ∧ s.pair.state ∈ [.detached, .syncing, .apart])
      ∧ (∃ (s : State) (h : FlitHdr) (r : Nat), Inv s ∧ s.receives h = true ∧ r ≠ 0 ∧ s.pair.state ∈ [.detached, .syncing, .apart])
      ∧ (∃ (s : State) (h : FlitHdr), Inv s ∧ s.receives h = true ∧ s.pair.state = .syncing)
      ∧ (∃ (s : State), Inv s ∧ s.activeLinked = true ∧ s.canSend = true ∧ s.pair.replay.length < 511 ∧ s.pair.resyncing = true ∧ s.pair.resyncItems =
        0 ∧ s.pair.resyncPlots = [])
      ∧ (∃ (s : State) (h : FlitHdr) (count : Nat), Inv s ∧ s.receives h = true ∧ s.canSend = true ∧ s.pair.guyOut = false ∧ s.pair.state = .standby ∧
        s.pair.applied = count ∧ s.pair.guyFault = false)
      ∧ (∃ (s : State) (h : FlitHdr) (count : Nat), Inv s ∧ s.receives h = true ∧ s.canSend = true ∧ s.pair.guyOut = false ∧ s.pair.applied = count ∧
        (s.pair.state ≠ .standby ∨ s.pair.guyFault = true))
      ∧ (∃ (s : State) (h : FlitHdr) (count : Nat), Inv s ∧ s.receives h = true ∧ s.pair.guyOut = false ∧ s.pair.applied ≠ count)
      ∧ (∃ (s : State) (h : FlitHdr), Inv s ∧ s.receives h = true ∧ s.pair.state = .active ∧ s.pair.handover = 2 ∧ s.pair.resyncAfter = false ∧
        s.boot.when_ ≠ 2)
      ∧ (∃ (s : State) (h : FlitHdr) (r : Nat), Inv s ∧ s.receives h = true ∧ s.pair.handover = 2)
      ∧ (∃ (s : State) (w : RegWr), Inv s ∧ s.wordGranted w .plk 0x044 = true ∧ w.val.toNat = 1 ∧ s.linked = true ∧ s.pair.state = .active ∧
        s.pair.guyFault = false ∧ s.pair.pState = 4 ∧ s.pair.handover = 0)
      ∧ (∃ (s : State) (w : RegWr), Inv s ∧ s.wordGranted w .plk 0x044 = true ∧ w.val.toNat = 1 ∧ (s.linked = false ∨ s.pair.state ≠ .active))
      ∧ (∃ (s : State), Inv s ∧ s.activeLinked = true ∧ s.canSend = true ∧ s.pair.handover = 1 ∧ s.display.commits.all Commit.posted = true ∧
        s.chanOpsRun = false ∧ s.pair.ordered = [] ∧ s.pair.resyncing = false)
      ∧ (∃ (s : State), Inv s ∧ s.pair.handover = 1)
      ∧ (∃ (s : State) (w : RegWr), Inv s ∧ s.wordGranted w .plk 0x044 = true ∧ w.val.toNat = 2 ∧ s.linked = true ∧ s.canSend = true ∧ s.pair.state =
        .standby ∧ s.pair.guyOut = false)
      ∧ (∃ (s : State) (w : RegWr), Inv s ∧ s.wordGranted w .plk 0x044 = true ∧ w.val.toNat = 2 ∧ (s.pair.guyOut = true ∨ s.paired = false))
      ∧ (∃ (s : State) (w : RegWr), Inv s ∧ s.wordGranted w .plk 0x044 = true ∧ w.val.toNat = 4 ∧ s.pair.trained = true ∧ s.pair.recovering = false)
      ∧ (∃ (s : State) (w : RegWr), Inv s ∧ s.wordGranted w .plk 0x044 = true ∧ w.val.toNat = 8) :=
  ⟨⟨joinable, ⟨7, 0, false, false⟩, joinable.configDigest, inv_of (by decide +kernel),
      (if_neg (by decide +kernel)).trans ((if_neg (by decide +kernel)).trans ((if_neg fun h => h rfl).trans (if_neg (by decide +kernel)))),
      by decide +kernel⟩,
    ⟨
      { State.reset with
        regs := [(3145792, 0x00006431#32)],
        pair := { State.reset.pair with guyOut := true, trained := true, pProtocol := 1, pPosition := 1, rxSeq := 7 } },
      { seq := 7, ack := 0, ackValid := false, nak := false }, 0, 2, inv_of (by decide +kernel), by decide +kernel⟩,
    ⟨{ State.reset with pair := { State.reset.pair with state := PairState.detached, trained := true, rxSeq := 7 } },
      { seq := 7, ack := 0, ackValid := false, nak := false }, inv_of (by decide +kernel), by decide +kernel⟩,
    ⟨{ State.reset with pair := { State.reset.pair with state := PairState.detached, trained := true, rxSeq := 7 } },
      { seq := 7, ack := 0, ackValid := false, nak := false }, 3, inv_of (by decide +kernel), by decide +kernel⟩,
    ⟨{ State.reset with pair := { State.reset.pair with state := PairState.syncing, trained := true, rxSeq := 7 } },
      { seq := 7, ack := 0, ackValid := false, nak := false }, inv_of (by decide +kernel), by decide +kernel⟩,
    ⟨
      { State.reset with
        regs := [(3145736, 0x00000001#32)],
        pair := { State.reset.pair with state := PairState.active, linkUp := true, trained := true, resyncing := true } }, inv_of (by decide +kernel),
      by decide +kernel⟩,
    ⟨{ State.reset with pair := { State.reset.pair with state := PairState.standby, trained := true, rxSeq := 7, applied := 9 } },
      { seq := 7, ack := 0, ackValid := false, nak := false }, 9, inv_of (by decide +kernel), by decide +kernel⟩,
    ⟨{ State.reset with pair := { State.reset.pair with trained := true, rxSeq := 7, applied := 9 } },
      { seq := 7, ack := 0, ackValid := false, nak := false }, 9, inv_of (by decide +kernel), by decide +kernel⟩,
    ⟨{ State.reset with pair := { State.reset.pair with trained := true, rxSeq := 7 } }, { seq := 7, ack := 0, ackValid := false, nak := false }, 9,
      inv_of (by decide +kernel), by decide +kernel⟩,
    ⟨{ State.reset with pair := { State.reset.pair with state := PairState.active, trained := true, rxSeq := 7, handover := 2 } },
      { seq := 7, ack := 0, ackValid := false, nak := false }, inv_of (by decide +kernel), by decide +kernel⟩,
    ⟨{ State.reset with pair := { State.reset.pair with trained := true, rxSeq := 7, handover := 2 } },
      { seq := 7, ack := 0, ackValid := false, nak := false }, 10, inv_of (by decide +kernel), by decide +kernel⟩,
    ⟨
      { State.reset with
        regs := [(3145736, 0x00000001#32)], pair := { State.reset.pair with state := PairState.active, linkUp := true, pState := 4 } },
      { req := { fn := 64, secure := false }, win := Window.pf, off := 3145796, be := 0xf#4, val := 0x00000001#32 }, inv_of (by decide +kernel),
      by decide +kernel⟩,
    ⟨State.reset, { req := { fn := 64, secure := false }, win := Window.pf, off := 3145796, be := 0xf#4, val := 0x00000001#32 },
      inv_of (by decide +kernel), by decide +kernel⟩,
    ⟨
      { State.reset with
        regs := [(3145736, 0x00000001#32)],
        pair := { State.reset.pair with state := PairState.active, linkUp := true, trained := true, handover := 1 } }, inv_of (by decide +kernel),
      by decide +kernel⟩,
    ⟨{ State.reset with pair := { State.reset.pair with handover := 1 } }, inv_of (by decide +kernel), by decide +kernel⟩,
    ⟨
      { State.reset with
        regs := [(3145736, 0x00000001#32)], pair := { State.reset.pair with state := PairState.standby, linkUp := true, trained := true } },
      { req := { fn := 64, secure := false }, win := Window.pf, off := 3145796, be := 0xf#4, val := 0x00000002#32 }, inv_of (by decide +kernel),
      by decide +kernel⟩,
    ⟨State.reset, { req := { fn := 64, secure := false }, win := Window.pf, off := 3145796, be := 0xf#4, val := 0x00000002#32 },
      inv_of (by decide +kernel), by decide +kernel⟩,
    ⟨{ State.reset with pair := { State.reset.pair with trained := true } },
      { req := { fn := 64, secure := false }, win := Window.pf, off := 3145796, be := 0xf#4, val := 0x00000004#32 }, inv_of (by decide +kernel),
      by decide +kernel⟩,
    ⟨State.reset, { req := { fn := 65, secure := true }, win := Window.pf, off := 3145796, be := 0xf#4, val := 0x00000008#32 },
      inv_of (by decide +kernel), by decide +kernel⟩⟩

/-- States and operands that meet the hypotheses of PairStream, clause by clause. -/
theorem witness_PairStream :
    (∃ (s : State) (f : SentFlit), Inv s ∧ s.pair.trained = true ∧ s.pair.recovering = false ∧ s.pair.replay = [f] ∧ f.replays < 7)
      ∧ (∃ (s : State) (f : SentFlit), Inv s ∧ s.pair.trained = true ∧ s.pair.recovering = false ∧ s.pair.replay = [f] ∧ 7 ≤ f.replays)
      ∧ (∃ (s : State) (h : FlitHdr) (f : SentFlit), Inv s ∧ s.pair.trained = true ∧ s.pair.recovering = false ∧ s.pair.replay = [f] ∧ f.item = none ∧
        f.seq < 4096 ∧ s.pair.control = [] ∧ h.ackValid = true ∧ h.ack = f.seq ∧ h.nak = false)
      ∧ (∃ (s : State), Inv s ∧ s.pair.trained = true ∧ s.pair.recovering = false ∧ s.pair.discarding = false)
      ∧ (∃ (s : State), s.pair.recovering = true)
      ∧ (∃ (s : State) (addr : Nat) (val : Nat) (latch : Nat) (sel : Nat) (fn : Nat) (world : Bool) (r : List MirrorItem), Inv s ∧ s.activeLinked =
        true ∧ s.canSend = true ∧ s.pair.pFallow = false ∧ s.pair.ordered = .reg addr val latch sel fn world :: r)
      ∧ (∃ (s : State) (h : FlitHdr) (n : Nat) (v : Nat) (latch : Nat) (sel : Nat) (fn : Nat) (crit : Nat) (world : Bool), Inv s ∧ s.receives h = true
        ∧ s.standby = true ∧ s.pair.offered = none ∧ n < 8)
      ∧ (∃ (s : State) (h : FlitHdr) (handle : Nat) (fn : Nat), Inv s ∧ s.receives h = true ∧ s.standby = true ∧ s.pair.offered = none ∧
        s.pair.recPlots = [])
      ∧ (∃ (s : State), Inv s ∧ s.linked = true ∧ s.pair.guyOut = false ∧ s.canSend = true)
      ∧ (∃ (s : State) (h : FlitHdr) (t1 : Nat), Inv s ∧ s.receives h = true ∧ s.canSend = true ∧ s.pair.guyOut = true)
      ∧ (∃ (s : State) (h : FlitHdr) (t1 : Nat) (t2 : Nat) (t3 : Nat) (o : Int), Inv s ∧ s.receives h = true ∧ s.pair.guyOut = false ∧ s.pair.syncT1 =
        some t1 ∧ o = (((t1 : Int) - t2) + ((s.time.dtime : Int) - t3)).tdiv 2 ∧ s.fld .plk F.PLK_CFG_TIME_STEP_US * 1000 < o.natAbs)
      ∧ (∃ (s : State) (h : FlitHdr) (t1 : Nat) (t2 : Nat) (t3 : Nat) (o : Int), Inv s ∧ s.receives h = true ∧ s.pair.guyOut = false ∧ s.pair.syncT1 =
        some t1 ∧ o = (((t1 : Int) - t2) + ((s.time.dtime : Int) - t3)).tdiv 2 ∧ o.natAbs ≤ s.fld .plk F.PLK_CFG_TIME_STEP_US * 1000 ∧ o ≠ 0)
      ∧ (∃ (s : State) (h : FlitHdr) (n : Nat) (seq : Nat) (ta : Nat) (tb : Nat), Inv s ∧ s.receives h = true ∧ s.pair.guyOut = false ∧ n < 8 ∧
        (s.disp n).running = true ∧ Sparse.find s.pair.lineZero n = some tb ∧ seq < 2 ^ 32 - 1 ∧ 2 * ((tb : Int) - ta).natAbs < (s.timing n).ht *
        totalLines (s.timing n) (s.disp n) * 1000000 / (s.timing n).khz)
      ∧ (∃ (s : State) (h : FlitHdr) (n : Nat) (seq : Nat) (line : Nat) (go : Bool), Inv s ∧ s.receives h = true ∧ s.pair.guyOut = false)
      ∧ (∃ (s : State) (h : FlitHdr) (rec : Nat) (g : Nat) (fn : Nat) (es : List (Nat × Nat × Nat)), Inv s ∧ s.receives h = true ∧ s.canSend = true ∧
        s.standby = true ∧ s.pair.offered = none ∧ s.power.state = .run ∧ (∀ r ∈ s.pair.held, r.recNo ≠ rec))
      ∧ (∃ (s : State) (h : FlitHdr) (rec : Nat) (frame : Nat) (n : Nat) (r : HeldRecord), Inv s ∧ s.receives h = true ∧ s.canSend = true ∧ s.standby
        = true ∧ s.pair.offered = none ∧ s.pair.held = [r] ∧ r.recNo = rec ∧ r.final = true ∧ s.leadOf r.group = some n ∧ frame < 2 ^ 32 ∧ 2 ^ 31 ≤
        (s.fld (.scn n) F.SCN_SEQ_SEQ + 2 ^ 32 - frame) % 2 ^ 32)
      ∧ (∃ (s : State) (h : FlitHdr) (rec : Nat), Inv s ∧ s.receives h = true ∧ s.standby = true ∧ s.pair.offered = none)
      ∧ (∃ (s : State) (h : FlitHdr) (rec : Nat) (n : Nat) (c : Commit), Inv s ∧ s.receives h = true ∧ s.display.commits = [c] ∧ c.cno = rec ∧ c.stage
        = .sent ∧ s.leadOf c.group = some n ∧ s.display.waitingRelease = [])
      ∧ (∃ (s : State) (h : FlitHdr) (rec : Nat) (n : Nat) (f : Nat) (frame : Nat), Inv s ∧ s.receives h = true ∧ s.pair.applySent = [(rec, n, f)] ∧
        s.pair.skewed = [])
      ∧ (∃ (s : State) (h : FlitHdr) (d : Digest) (e : Digest) (due : Nat), Inv s ∧ s.receives h = true ∧ s.paired = true ∧ s.pair.state = .standby ∧
        d.out < 8 ∧ s.pair.ownDigests = [(e, due)] ∧ e.out = d.out ∧ e.frame = d.frame ∧ e.value = d.value ∧ s.pair.partnerDigests = [] ∧ e.bad = 0 ∧
        d.bad = 0 ∧ d.flags = 0)
      ∧ (∃ (s : State) (h : FlitHdr) (d : Digest) (e : Digest) (due : Nat), Inv s ∧ s.receives h = true ∧ s.paired = true ∧ s.pair.state = .standby ∧
        d.out < 8 ∧ s.pair.ownDigests = [(e, due)] ∧ e.out = d.out ∧ e.frame = d.frame ∧ e.value ≠ d.value ∧ s.pair.partnerDigests = [] ∧ e.bad = 0 ∧
        d.bad = 0 ∧ e.flags = 0 ∧ d.flags = 0 ∧ s.fld .plk F.PLK_CFG_STATE_LIMIT = 0)
      ∧ (∃ (s : State) (h : FlitHdr) (arg : Nat) (r : WakeResult), Inv s ∧ s.receives h = true)
      ∧ (∃ (s : State) (h : FlitHdr) (arg : Nat) (r : WakeResult), Inv s ∧ s.receives h = true)
      ∧ (∃ (s : State) (h : FlitHdr) (d : Digest) (e : Digest) (due : Nat) (j : Nat), Inv s ∧ s.receives h = true ∧ s.linked = true ∧ s.pair.state =
        .standby ∧ d.out < 8 ∧ s.pair.ownDigests = [(e, due)] ∧ e.out = d.out ∧ e.frame = d.frame ∧ e.value = d.value ∧ s.pair.partnerDigests = [] ∧
        d.flags = 0 ∧ j < 16 ∧ bit j e.bad = true ∧ bit j due = true ∧ bit j d.bad = false ∧ bit j d.active = true)
      ∧ (∃ (s : State) (h : FlitHdr) (k : FlitHdr), s.pair.trained = true ∧ s.pair.recovering = false ∧ s.linked = true ∧ k =
        { h with ackValid := false, nak := false } ∧ (s.takeHeader h).pair.trained = true ∧ (s.takeHeader h).pair.recovering = false ∧ (s.takeHeader
        h).linked = true) :=
  ⟨⟨
      { State.reset with
        pair := { State.reset.pair with trained := true, replay := [{ seq := 9, flit := Flit.role (RoleMsg.ready), item := none, replays := 3 }] } },
      { seq := 9, flit := Flit.role (RoleMsg.ready), item := none, replays := 3 }, inv_of (by decide +kernel), by decide +kernel⟩,
    ⟨
      { State.reset with
        pair := { State.reset.pair with trained := true, replay := [{ seq := 9, flit := Flit.role (RoleMsg.ready), item := none, replays := 7 }] } },
      { seq := 9, flit := Flit.role (RoleMsg.ready), item := none, replays := 7 }, inv_of (by decide +kernel), by decide +kernel⟩,
    ⟨
      { State.reset with
        pair := { State.reset.pair with trained := true, replay := [{ seq := 9, flit := Flit.role (RoleMsg.ready), item := none, replays := 7 }] } },
      { seq := 7, ack := 9, ackValid := true, nak := false }, { seq := 9, flit := Flit.role (RoleMsg.ready), item := none, replays := 7 },
      inv_of (by decide +kernel), by decide +kernel⟩,
    ⟨{ State.reset with pair := { State.reset.pair with trained := true } }, inv_of (by decide +kernel), by decide +kernel⟩,
    ⟨{ State.reset with pair := { State.reset.pair with recovering := true } }, by decide +kernel⟩,
    ⟨
      { State.reset with
        regs := [(3145736, 0x00000001#32)],
        pair := { State.reset.pair with
          state := PairState.active, linkUp := true, trained := true, ordered := [MirrorItem.reg 4660 5 6 7 8 true, MirrorItem.marker true] } }, 4660,
      5, 6, 7, 8, true, [MirrorItem.marker true], inv_of (by decide +kernel), by decide +kernel⟩,
    ⟨{ State.reset with regs := [(3145736, 0x00000001#32)], pair := { State.reset.pair with trained := true, rxSeq := 7 } },
      { seq := 7, ack := 0, ackValid := false, nak := false }, 5, 18, 9, 0, 64, 1, false, inv_of (by decide +kernel), by decide +kernel⟩,
    ⟨{ State.reset with regs := [(3145736, 0x00000001#32)], pair := { State.reset.pair with trained := true, rxSeq := 7 } },
      { seq := 7, ack := 0, ackValid := false, nak := false }, 268435715, 64, inv_of (by decide +kernel), by decide +kernel⟩,
    ⟨{ State.reset with regs := [(3145736, 0x00000001#32)], pair := { State.reset.pair with linkUp := true, trained := true } },
      inv_of (by decide +kernel), by decide +kernel⟩,
    ⟨{ State.reset with pair := { State.reset.pair with guyOut := true, trained := true, rxSeq := 7 } },
      { seq := 7, ack := 0, ackValid := false, nak := false }, 44, inv_of (by decide +kernel), by decide +kernel⟩,
    ⟨
      { State.reset with
        time := { State.reset.time with dtime := 1000000 }, pair := { State.reset.pair with trained := true, rxSeq := 7, syncT1 := some 44 } },
      { seq := 7, ack := 0, ackValid := false, nak := false }, 44, 10, 20, 500007, inv_of (by decide +kernel), by decide +kernel⟩,
    ⟨
      { State.reset with
        time := { State.reset.time with dtime := 1000000 }, pair := { State.reset.pair with trained := true, rxSeq := 7, syncT1 := some 44 } },
      { seq := 7, ack := 0, ackValid := false, nak := false }, 44, 500010, 500020, 7, inv_of (by decide +kernel), by decide +kernel⟩,
    ⟨
      { State.reset with
        regs := [(2113600, 0x07d00040#32), (2113608, 0x00040040#32), (2113616, 0x000061a8#32)],
        display := { State.reset.display with disps := [(2, { idleDisp with running := true })] },
        pair := { State.reset.pair with trained := true, rxSeq := 7, lineZero := [(2, 99)] } },
      { seq := 7, ack := 0, ackValid := false, nak := false }, 2, 77, 99, 99, inv_of (by decide +kernel), by decide +kernel⟩,
    ⟨{ State.reset with pair := { State.reset.pair with trained := true, rxSeq := 7 } }, { seq := 7, ack := 0, ackValid := false, nak := false }, 2,
      77, 99, true, inv_of (by decide +kernel), by decide +kernel⟩,
    ⟨{ State.reset with regs := [(3145736, 0x00000001#32)], pair := { State.reset.pair with trained := true, rxSeq := 7 } },
      { seq := 7, ack := 0, ackValid := false, nak := false }, 3, 1, 64, [(1, 2, 3)], inv_of (by decide +kernel), by decide +kernel⟩,
    ⟨
      { State.reset with
        regs := [(3145736, 0x00000001#32)], display := { State.reset.display with disps := [(2, { idleDisp with running := true })] },
        pair := { State.reset.pair with
          trained := true, rxSeq := 7, held := [{ recNo := 3, group := 0, fn := 64, entries := [(1310784, 2, 0)], pages := [], final := true }] } },
      { seq := 7, ack := 0, ackValid := false, nak := false }, 3, 5, 2,
      { recNo := 3, group := 0, fn := 64, entries := [(1310784, 2, 0)], pages := [], final := true }, inv_of (by decide +kernel), by decide +kernel⟩,
    ⟨{ State.reset with regs := [(3145736, 0x00000001#32)], pair := { State.reset.pair with trained := true, rxSeq := 7 } },
      { seq := 7, ack := 0, ackValid := false, nak := false }, 3, inv_of (by decide +kernel), by decide +kernel⟩,
    ⟨
      { State.reset with
        display := { State.reset.display with
          disps := [(2, { idleDisp with running := true })],
          commits := [
            { 
              cno := 3, jid := none, cid := 0, fn := 64, group := 0, target := none, entries := [(1310784, 2)], pages := [],
              stage := CommitStage.sent, frame := 0, todo := [0, 1, 2, 3, 4, 5, 6, 7], posted := false, handover := none, release := none,
              sentAt := 0, silent := false }] }, pair := { State.reset.pair with trained := true, rxSeq := 7 } },
      { seq := 7, ack := 0, ackValid := false, nak := false }, 3, 2,
      { 
        cno := 3, jid := none, cid := 0, fn := 64, group := 0, target := none, entries := [(1310784, 2)], pages := [], stage := CommitStage.sent,
        frame := 0, todo := [0, 1, 2, 3, 4, 5, 6, 7], posted := false, handover := none, release := none, sentAt := 0, silent := false },
      inv_of (by decide +kernel), by decide +kernel⟩,
    ⟨{ State.reset with pair := { State.reset.pair with trained := true, rxSeq := 7, applySent := [(3, 2, 9)] } },
      { seq := 7, ack := 0, ackValid := false, nak := false }, 3, 2, 9, 9, inv_of (by decide +kernel), by decide +kernel⟩,
    ⟨
      { State.reset with
        regs := [(3145736, 0x00000001#32)],
        pair := { State.reset.pair with
          state := PairState.standby, trained := true, rxSeq := 7,
          ownDigests := [({ out := 5, frame := 3, value := 77, flags := 0, bad := 0, active := 0, refused := 0, plot := 0 }, 0)] } },
      { seq := 7, ack := 0, ackValid := false, nak := false },
      { out := 5, frame := 3, value := 77, flags := 0, bad := 0, active := 0, refused := 0, plot := 0 },
      { out := 5, frame := 3, value := 77, flags := 0, bad := 0, active := 0, refused := 0, plot := 0 }, 0, inv_of (by decide +kernel),
      by decide +kernel⟩,
    ⟨
      { State.reset with
        regs := [(3145736, 0x00000001#32), (3145792, 0x00006400#32)],
        pair := { State.reset.pair with
          state := PairState.standby, trained := true, rxSeq := 7,
          ownDigests := [({ out := 5, frame := 3, value := 77, flags := 0, bad := 0, active := 0, refused := 0, plot := 0 }, 0)] } },
      { seq := 7, ack := 0, ackValid := false, nak := false },
      { out := 5, frame := 3, value := 4, flags := 0, bad := 0, active := 0, refused := 0, plot := 0 },
      { out := 5, frame := 3, value := 77, flags := 0, bad := 0, active := 0, refused := 0, plot := 0 }, 0, inv_of (by decide +kernel),
      by decide +kernel⟩,
    ⟨{ State.reset with pair := { State.reset.pair with trained := true, rxSeq := 7 } }, { seq := 7, ack := 0, ackValid := false, nak := false }, 3,
      WakeResult.up, inv_of (by decide +kernel), by decide +kernel⟩,
    ⟨{ State.reset with pair := { State.reset.pair with trained := true, rxSeq := 7 } }, { seq := 7, ack := 0, ackValid := false, nak := false }, 3,
      WakeResult.up, inv_of (by decide +kernel), by decide +kernel⟩,
    ⟨
      { State.reset with
        regs := [(3145736, 0x00000001#32)],
        pair := { State.reset.pair with
          state := PairState.standby, linkUp := true, trained := true, rxSeq := 7,
          ownDigests := [({ out := 5, frame := 3, value := 77, flags := 0, bad := 4, active := 0, refused := 0, plot := 0 }, 4)] } },
      { seq := 7, ack := 0, ackValid := false, nak := false },
      { out := 5, frame := 3, value := 77, flags := 0, bad := 0, active := 5, refused := 0, plot := 0 },
      { out := 5, frame := 3, value := 77, flags := 0, bad := 4, active := 0, refused := 0, plot := 0 }, 4, 2, inv_of (by decide +kernel),
      by decide +kernel⟩,
    ⟨{ State.reset with regs := [(3145736, 0x00000001#32)], pair := { State.reset.pair with linkUp := true, trained := true } },
      { seq := 7, ack := 9, ackValid := true, nak := true }, { seq := 7, ack := 9, ackValid := false, nak := false }, by decide +kernel⟩⟩

/-- States and operands that meet the hypotheses of PowerRequests, clause by clause. -/
theorem witness_PowerRequests :
    (∃ (s : State) (w : RegWr), Inv s ∧ s.arrives w .pwr = true ∧ w.off % 0x1000 = 0x040 ∧ s.grants (accOf w .pwr) F.PWR_REQ_TARGET = true ∧ bits 2 0
      w.val.toNat = 2 ∧ w.req.secure = false ∧ w.req.fn ≠ 0x40 ∧ w.req.fn ≠ s.manager ∧ s.fld .pwr F.ERR_CODE_CODE = 0)
      ∧ (∃ (s : State) (w : RegWr), Inv s ∧ s.arrives w .pwr = true ∧ w.off % 0x1000 = 0x040 ∧ s.grants (accOf w .pwr) F.PWR_REQ_TARGET = true ∧ bits
        2 0 w.val.toNat = 4 ∧ (w.req.secure = true ∨ w.req.fn = 0x40) ∧ s.power.req ≠ none ∧ s.fld .pwr F.ERR_CODE_CODE = 0)
      ∧ (∃ (s : State) (w : RegWr) (g : Nat), Inv s ∧ s.arrives w .pwr = true ∧ w.off % 0x1000 = 0x040 ∧ s.grants (accOf w .pwr) F.PWR_REQ_TARGET =
        true ∧ bits 2 0 w.val.toNat = 1 ∧ w.req = ⟨0x40, false⟩ ∧ s.power.req = none ∧ g < 8 ∧ s.held g = true ∧ (∀ h < g, s.held h = false) ∧ s.fld
        .pwr F.ERR_CODE_CODE = 0)
      ∧ (∃ (s : State) (w : RegWr), Inv s ∧ s.arrives w .pwr = true ∧ w.off % 0x1000 = 0x040 ∧ s.grants (accOf w .pwr) F.PWR_REQ_TARGET = true ∧ bits
        2 0 w.val.toNat = 2 ∧ w.req = ⟨0x41, true⟩ ∧ s.power.req = none ∧ s.power.state = .run ∧ s.pair.state = .active ∧ s.paired = true ∧
        s.pair.pFallow = false ∧ s.fld .pwr F.ERR_CODE_CODE = 0)
      ∧ (∃ (s : State) (w : RegWr), Inv s ∧ s.arrives w .pwr = true ∧ w.off % 0x1000 = 0x040 ∧ s.grants (accOf w .pwr) F.PWR_REQ_TARGET = true ∧ bits
        2 0 w.val.toNat = 1 ∧ w.req = ⟨0x41, true⟩ ∧ s.power.req = none ∧ s.power.state = .run ∧ s.runningOutputs = [])
      ∧ (∃ (s : State) (w : RegWr), Inv s ∧ s.arrives w .pwr = true ∧ w.off % 0x1000 = 0x040 ∧ s.grants (accOf w .pwr) F.PWR_REQ_TARGET = true ∧ bits
        2 0 w.val.toNat = 1 ∧ w.req = ⟨0x41, true⟩ ∧ s.power.req = none ∧ s.power.state = .run ∧ s.runningOutputs ≠ [] ∧ (s.fld .pwr
        F.PWR_IDLE_CFG_ALLOW_CL3 = 1 ∨ ∀ n ∈ s.runningOutputs, ∀ x ∈ State.frameSlots (s.frameView n) n, x.en = true → (s.frameView n).fld (.slot n
        x.k) F.OWNER_CRIT ≠ 3) ∧ (∀ n ∈ s.runningOutputs, s.flag (.dpl n) F.DPL_SINK_PR = true))
      ∧ (∃ (s : State) (w : RegWr) (n : Nat), Inv s ∧ s.arrives w .pwr = true ∧ w.off % 0x1000 = 0x040 ∧ s.grants (accOf w .pwr) F.PWR_REQ_TARGET =
        true ∧ bits 2 0 w.val.toNat = 1 ∧ w.req = ⟨0x41, true⟩ ∧ s.power.req = none ∧ s.power.state = .run ∧ n ∈ s.runningOutputs ∧ s.fld .pwr
        F.ERR_CODE_CODE = 0 ∧ ((∃ x ∈ State.frameSlots (s.frameView n) n, x.en = true ∧ (s.frameView n).fld (.slot n x.k) F.OWNER_CRIT = 3) ∧ s.fld
        .pwr F.PWR_IDLE_CFG_ALLOW_CL3 = 0 ∨ s.fld .pwr F.PWR_IDLE_CFG_ALLOW_CL3 = 1 ∧ s.flag (.dpl n) F.DPL_SINK_PR = false))
      ∧ (∃ (s : State) (w : RegWr), Inv s ∧ s.arrives w .pwr = true ∧ w.off % 0x1000 = 0x040 ∧ s.grants (accOf w .pwr) F.PWR_REQ_TARGET = true ∧ bits
        2 0 w.val.toNat = 0 ∧ w.req = ⟨0x41, true⟩ ∧ s.power.req = none ∧ s.power.state = .idle)
      ∧ (∃ (s : State) (w : RegWr), Inv s ∧ s.arrives w .pwr = true ∧ w.off % 0x1000 = 0x040 ∧ s.grants (accOf w .pwr) F.PWR_REQ_TARGET = true ∧ bits
        2 0 w.val.toNat = 2 ∧ w.req = ⟨0x41, true⟩ ∧ s.power.req = none ∧ s.power.state ∈ [.run, .idle] ∧ (s.pair.state = .active → s.paired = false ∨
        s.pair.pFallow = true))
      ∧ (∃ (s : State) (w : RegWr), Inv s ∧ s.arrives w .pwr = true ∧ w.off % 0x1000 = 0x040 ∧ s.grants (accOf w .pwr) F.PWR_REQ_TARGET = true ∧ bits
        2 0 w.val.toNat = 4 ∧ w.req = ⟨0x41, true⟩ ∧ s.power.req = none ∧ s.power.state ∈ [.run, .idle] ∧ (s.pair.state = .active → s.paired = false ∨
        s.pair.pFallow = true))
      ∧ (∃ (s : State) (r : PowerReq), Inv s ∧ s.power.req = some r ∧ (r.target = 2 ∨ r.target = 4) ∧ r.step = 1 ∧ s.drained = true ∧ s.asleep = false
        ∧ s.flag (.aud 0) F.PG_STAT_ENABLED = true)
      ∧ (∃ (s : State) (r : PowerReq), Inv s ∧ s.power.req = some r ∧ r.target = 2 ∧ (r.step = 2 ∨ r.step = 1 ∧ s.drained = true) ∧ s.quietened = true
        ∧ s.asleep = false)
      ∧ (∃ (s : State) (r : PowerReq), Inv s ∧ s.power.req = some r ∧ r.target = 4 ∧ (r.step = 2 ∨ r.step = 1 ∧ s.drained = true) ∧ s.quietened = true
        ∧ s.asleep = false)
      ∧ (∃ (s : State) (r : PowerReq), Inv s ∧ s.power.req = some r ∧ (r.target = 2 ∨ r.target = 4) ∧ r.step = 1 ∧ s.power.state = .run ∧
        s.power.ranOutputs = [] ∧ s.fld .pwr F.ERR_CODE_CODE = 0)
      ∧ (∃ (s : State) (w : RegWr) (i : Nat), Inv s ∧ s.arrives w .pwr = true ∧ w.off % 0x1000 = 0x060 ∧ s.secretPage (accOf w .pwr) = false ∧
        w.req.secure = true ∧ s.fld .pwr F.PWR_ISL_SEL_ISLAND = i ∧ i < 46 ∧ 2 ≤ islandDomain i ∧ bits 1 0 w.val.toNat = 1 ∧ s.islandCtrl i = 0 ∧ (∃
        pg ∈ islandPages i, s.flag pg F.PG_STAT_ENABLED = true))
      ∧ (∃ (s : State) (w : RegWr) (i : Nat), Inv s ∧ s.arrives w .pwr = true ∧ w.off % 0x1000 = 0x060 ∧ s.secretPage (accOf w .pwr) = false ∧
        w.req.secure = true ∧ s.fld .pwr F.PWR_ISL_SEL_ISLAND = i ∧ i < 46 ∧ 2 ≤ islandDomain i ∧ bits 1 0 w.val.toNat = 1 ∧ s.islandCtrl i = 0 ∧ (∀
        pg ∈ islandPages i, s.flag pg F.PG_STAT_ENABLED = false))
      ∧ (∃ (s : State) (w : RegWr) (pg : Page) (o : Nat), Inv s ∧ s.arrives w .pwr = true ∧ w.off % 0x1000 = 0x068 ∧ s.secretPage (accOf w .pwr) =
        false ∧ o = bits 23 0 w.val.toNat ∧ pageOf o = some pg ∧ s.populated o = true ∧ w.req.secure = true ∧ (∀ e ∈ s.power.saveList, e.1 ≠ o) ∧
        s.power.saveList.length < 4096)
      ∧ (∃ (s : State) (w : RegWr), Inv s ∧ s.arrives w .pwr = true ∧ w.off % 0x1000 = 0x06C ∧ s.grants (accOf w .pwr) F.PWR_SAVE_CTRL_CLEAR = true)
      ∧ (∃ (s : State), Inv s ∧ s.faults.inReset = false ∧ s.asleep = false ∧ s.faults.fatal = none)
      ∧ (∃ (s : State), Inv s ∧ s.faults.inReset = false ∧ s.power.state = .fallow)
      ∧ (∃ (s : State) (img : SramImage), Inv s ∧ s.power.state = .holdup ∧ s.power.flushed = false ∧ s.power.noResume = false ∧ s.power.sram = some
        img ∧ img.words = [])
      ∧ (∃ (s : State), Inv s ∧ s.power.state = .holdup ∧ s.power.flushed = false)
      ∧ (∃ (s : State) (img : SramImage), Inv s ∧ s.power.state = .holdup ∧ s.power.saving = true ∧ s.power.readyAtSag = true ∧ s.power.sram = some
        img ∧ s.power.slotA = none)
      ∧ (∃ (s : State), Inv s ∧ s.power.state = .holdup ∧ s.power.saving = true ∧ s.power.readyAtSag = true)
      ∧ (∃ (s : State), Inv s ∧ s.power.state = .holdup ∧ s.power.restart = true)
      ∧ (∃ (s : State) (mv : Nat) (cap : Nat) (mohm : Nat), Inv s ∧ mv < 2 ^ 13 ∧ cap < 2 ^ 16 ∧ mohm ≤ 50)
      ∧ (∃ (s : State) (mv : Nat) (cap : Nat) (mohm : Nat) (meets : Bool), Inv s ∧ mv < 2 ^ 13 ∧ cap < 2 ^ 16 ∧ mohm < 2 ^ 16 ∧ (meets = false ∨ 50 <
        mohm)) :=
  ⟨⟨{ State.reset with regs := [(68, 0x00000017#32)] },
      { req := { fn := 128, secure := false }, win := Window.pf, off := 65600, be := 0xf#4, val := 0x00000002#32 }, inv_of (by decide +kernel),
      by decide +kernel⟩,
    ⟨{ State.reset with power := { State.reset.power with req := some { target := 2, fn := 65, secure := true, startNs := 5, step := 1 } } },
      { req := { fn := 65, secure := true }, win := Window.pf, off := 65600, be := 0xf#4, val := 0x00000004#32 }, inv_of (by decide +kernel),
      by decide +kernel⟩,
    ⟨{ State.reset with regs := [(131168, 0x00000006#32)] },
      { req := { fn := 64, secure := false }, win := Window.pf, off := 65600, be := 0xf#4, val := 0x00000001#32 }, 1, inv_of (by decide +kernel),
      by decide +kernel⟩,
    ⟨{ State.reset with regs := [(3145736, 0x00000001#32)], pair := { State.reset.pair with state := PairState.active } },
      { req := { fn := 65, secure := true }, win := Window.pf, off := 65600, be := 0xf#4, val := 0x00000002#32 }, inv_of (by decide +kernel),
      by decide +kernel⟩,
    ⟨State.reset, { req := { fn := 65, secure := true }, win := Window.pf, off := 65600, be := 0xf#4, val := 0x00000001#32 },
      inv_of (by decide +kernel), by decide +kernel⟩,
    ⟨
      { State.reset with
        regs := [(2117708, 0x00000040#32)], display := { State.reset.display with disps := [(2, { idleDisp with running := true })] } },
      { req := { fn := 65, secure := true }, win := Window.pf, off := 65600, be := 0xf#4, val := 0x00000001#32 }, inv_of (by decide +kernel),
      by decide +kernel⟩,
    ⟨
      { State.reset with
        regs := [(65624, 0x00000001#32)], display := { State.reset.display with disps := [(2, { idleDisp with running := true })] } },
      { req := { fn := 65, secure := true }, win := Window.pf, off := 65600, be := 0xf#4, val := 0x00000001#32 }, 2, inv_of (by decide +kernel),
      by decide +kernel⟩,
    ⟨{ State.reset with power := { State.reset.power with state := PowerState.idle } },
      { req := { fn := 65, secure := true }, win := Window.pf, off := 65600, be := 0xf#4, val := 0#32 }, inv_of (by decide +kernel), by decide +kernel⟩,
    ⟨State.reset, { req := { fn := 65, secure := true }, win := Window.pf, off := 65600, be := 0xf#4, val := 0x00000002#32 },
      inv_of (by decide +kernel), by decide +kernel⟩,
    ⟨State.reset, { req := { fn := 65, secure := true }, win := Window.pf, off := 65600, be := 0xf#4, val := 0x00000004#32 },
      inv_of (by decide +kernel), by decide +kernel⟩,
    ⟨
      { State.reset with
        regs := [(2883596, 0x00000001#32)],
        power := { State.reset.power with req := some { target := 2, fn := 65, secure := true, startNs := 0, step := 1 } } },
      { target := 2, fn := 65, secure := true, startNs := 0, step := 1 }, inv_of (by decide +kernel), by decide +kernel⟩,
    ⟨{ State.reset with power := { State.reset.power with req := some { target := 2, fn := 65, secure := true, startNs := 0, step := 1 } } },
      { target := 2, fn := 65, secure := true, startNs := 0, step := 1 }, inv_of (by decide +kernel), by decide +kernel⟩,
    ⟨{ State.reset with power := { State.reset.power with req := some { target := 4, fn := 65, secure := true, startNs := 0, step := 1 } } },
      { target := 4, fn := 65, secure := true, startNs := 0, step := 1 }, inv_of (by decide +kernel), by decide +kernel⟩,
    ⟨{ State.reset with power := { State.reset.power with req := some { target := 2, fn := 65, secure := true, startNs := 0, step := 1 } } },
      { target := 2, fn := 65, secure := true, startNs := 0, step := 1 }, inv_of (by decide +kernel), by decide +kernel⟩,
    ⟨{ State.reset with regs := [(65628, 0x0000000a#32), (1048588, 0x00000001#32)] },
      { req := { fn := 65, secure := true }, win := Window.pf, off := 65632, be := 0xf#4, val := 0x00000001#32 }, 10, inv_of (by decide +kernel),
      by decide +kernel⟩,
    ⟨{ State.reset with regs := [(65628, 0x0000000b#32)] },
      { req := { fn := 65, secure := true }, win := Window.pf, off := 65632, be := 0xf#4, val := 0x00000001#32 }, 11, inv_of (by decide +kernel),
      by decide +kernel⟩,
    ⟨State.reset, { req := { fn := 65, secure := true }, win := Window.pf, off := 65640, be := 0xf#4, val := 0x0000105c#32 }, Page.tim, 4188,
      inv_of (by decide +kernel), by decide +kernel⟩,
    ⟨State.reset, { req := { fn := 65, secure := true }, win := Window.pf, off := 65644, be := 0xf#4, val := 0x00000001#32 },
      inv_of (by decide +kernel), by decide +kernel⟩,
    ⟨State.reset, inv_of (by decide +kernel), by decide +kernel⟩,
    ⟨{ State.reset with power := { State.reset.power with state := PowerState.fallow } }, inv_of (by decide +kernel), by decide +kernel⟩,
    ⟨
      { State.reset with
        power := { State.reset.power with
          state := PowerState.holdup, sram := some { words := [], bad := [], cause := 3, dtime := 0, tick := 0, cal := 2000000000 } } },
      { words := [], bad := [], cause := 3, dtime := 0, tick := 0, cal := 2000000000 }, inv_of (by decide +kernel), by decide +kernel⟩,
    ⟨{ State.reset with power := { State.reset.power with state := PowerState.holdup } }, inv_of (by decide +kernel), by decide +kernel⟩,
    ⟨
      { State.reset with
        power := { State.reset.power with
          state := PowerState.holdup, sram := some { words := [(4188, true, 30)], bad := [], cause := 3, dtime := 0, tick := 0, cal := 2000000000 },
          saving := true, readyAtSag := true } }, { words := [(4188, true, 30)], bad := [], cause := 3, dtime := 0, tick := 0, cal := 2000000000 },
      inv_of (by decide +kernel), by decide +kernel⟩,
    ⟨{ State.reset with power := { State.reset.power with state := PowerState.holdup, saving := true, readyAtSag := true } },
      inv_of (by decide +kernel), by decide +kernel⟩,
    ⟨{ State.reset with power := { State.reset.power with state := PowerState.holdup, restart := true } }, inv_of (by decide +kernel),
      by decide +kernel⟩,
    ⟨State.reset, 5000, 2000, 30, inv_of (by decide +kernel), by decide +kernel⟩,
    ⟨State.reset, 5000, 2000, 51, true, inv_of (by decide +kernel), by decide +kernel⟩⟩

/-- States and operands that meet the hypotheses of WakesAndTime, clause by clause. -/
theorem witness_WakesAndTime :
    (∃ (s : State) (i : Instr) (b : Nat) (img : SramImage), Inv s ∧ (i, b) ∈ [(.wakeTlp 0 .up, 0), (.wakeTlp 1 .up, 1), (.canWakeUp .up, 3), (.wakePin
      .up, 4), (.motionEdge true .up, 5), (.motionEdge false .up, 5), (.alarmFire .up, 6)] ∧ (b < 2 → s.portUp b = true) ∧ (b = 6 → s.power.alarmArmed
      = true ∧ s.fld .aon F.AON_ALARM_HI_ALARM_EN = 1 ∧ s.fld .aon F.AON_ALARM_LO_TICK + s.fld .aon F.AON_ALARM_HI_TICK * 2 ^ 32 ≤ s.time.ticks) ∧
      s.power.state = .fallow ∧ s.power.wake = none ∧ bit b (s.fld .pwr F.PWR_WAKE_EN_SOURCES) = true ∧ s.power.sram = some img ∧ img.words = [])
      ∧ (∃ (s : State) (img : SramImage) (v : Nat), Inv s ∧ s.power.state = .fallow ∧ s.power.wake = none ∧ bit 4 (s.fld .pwr F.PWR_WAKE_EN_SOURCES) =
        true ∧ s.power.sram = some img ∧ img.words = [(Page.tim.key 0x05C, true, v)] ∧ img.bad = [] ∧ s.fld .tim F.PG_CTRL_LOCK = 0 ∧ s.softResetting
        = [] ∧ s.faults.inReset = false ∧ s.faults.recovery = false ∧ s.faults.stopped = [])
      ∧ (∃ (s : State) (i : Instr) (b : Nat), Inv s ∧ (i, b) ∈ [(.wakeTlp 0 .stuck, 0), (.wakeTlp 1 .stuck, 1)] ∧ s.portUp b = true ∧ s.power.state =
        .fallow ∧ s.power.wake = none ∧ bit b (s.fld .pwr F.PWR_WAKE_EN_SOURCES) = true ∧ s.linked = false)
      ∧ (∃ (s : State) (i : Instr) (b : Nat) (r : PowerReq), Inv s ∧ (i, b) ∈ [(.wakeTlp 0 .up, 0), (.wakeTlp 1 .up, 1), (.canWakeUp .up, 3),
        (.wakePin .up, 4), (.motionEdge true .up, 5)] ∧ (b < 2 → s.portUp b = true) ∧ s.power.state = .run ∧ s.power.req = some r ∧ (r.target = 2 ∨
        r.target = 4) ∧ s.power.ranOutputs = [] ∧ bit b (s.fld .pwr F.PWR_WAKE_EN_SOURCES) = true ∧ s.fld .pwr F.ERR_CODE_CODE = 0)
      ∧ (∃ (s : State) (i : Instr) (b : Nat) (c : Nat), Inv s ∧ (i, b, c) ∈ [(.canWakeUp .stuck, 3, 5), (.wakePin .stuck, 4, 6), (.motionEdge true
        .stuck, 5, 5)] ∧ s.power.state = .off ∧ bit b s.power.wakeEn = true)
      ∧ (∃ (s : State) (i : Instr) (b : Nat) (r : WakeResult), Inv s ∧ (i, b) ∈ [(.canWakeUp r, 3), (.wakePin r, 4), (.motionEdge false r, 5)] ∧
        s.power.state ≠ .stopped ∧ bit b (s.fld .pwr F.PWR_WAKE_EN_SOURCES) = false ∧ (s.power.state = .off → bit b s.power.wakeEn = false))
      ∧ (∃ (s : State) (r : WakeResult), Inv s ∧ s.power.state = .run ∧ s.power.req = none ∧ s.power.alarmArmed = true ∧ s.fld .aon
        F.AON_ALARM_HI_ALARM_EN = 1 ∧ s.fld .aon F.AON_ALARM_LO_TICK + s.fld .aon F.AON_ALARM_HI_TICK * 2 ^ 32 ≤ s.time.ticks)
      ∧ (∃ (s : State) (b : Nat) (reason : Nat) (item : Nat) (es : List (List Word32)), Inv s ∧ s.power.state = .fallow ∧ s.power.wake = some b ∧
        s.power.wakeWait = false ∧ 0 < reason ∧ reason ≤ 3 ∧ item < 64 ∧ s.power.attempts ≤ s.fld .pwr F.PWR_WAKE_LIMIT_RETRIES)
      ∧ (∃ (s : State) (b : Nat) (reason : Nat) (item : Nat) (es : List (List Word32)), Inv s ∧ s.power.state = .fallow ∧ s.power.wake = some b ∧
        s.power.wakeWait = false ∧ 0 < reason ∧ reason ≤ 3 ∧ item < 64 ∧ s.fld .pwr F.PWR_WAKE_LIMIT_RETRIES < s.power.attempts ∧ s.power.doorbells =
        [] ∧ s.linked = false ∧ s.standby = false ∧ s.fld .pwr F.ERR_CODE_CODE = 0)
      ∧ (∃ (s : State) (b : Nat) (img : SramImage), Inv s ∧ s.power.state = .fallow ∧ s.power.wake = some b ∧ s.power.wakeWait = true ∧ s.power.sram =
        some img ∧ img.words = [])
      ∧ (∃ (s : State) (c : Nat), Inv s ∧ s.asleep = false ∧ c * 80 < 2 ^ 32)
      ∧ (∃ (s : State) (w : RegWr), Inv s ∧ s.arrives w .tim = true ∧ w.off % 0x1000 = 0x04C ∧ s.secretPage (accOf w .tim) = false ∧ (w.req.secure =
        true ∨ w.req.fn = s.manager) ∧ s.standby = false)
      ∧ (∃ (s : State) (w : RegWr), Inv s ∧ s.arrives w .tim = true ∧ w.off % 0x1000 = 0x04C ∧ s.secretPage (accOf w .tim) = false ∧ s.writesAny
        (accOf w .tim) = true ∧ ((w.req.secure = false ∧ w.req.fn ≠ s.manager) ∨ s.standby = true))
      ∧ (∃ (s : State) (w : RegWr), Inv s ∧ s.arrives w .aon = true ∧ w.off % 0x1000 = 0x074 ∧ s.secretPage (accOf w .aon) = false)
      ∧ (∃ (s : State) (w : RegWr), Inv s ∧ s.arrives w .aon = true ∧ w.off % 0x1000 = 0x094 ∧ s.grants (accOf w .aon) F.AON_PMB_CTRL_GO = true ∧
        s.secretPage (accOf w .aon) = false ∧ w.req.secure = true ∧ bits 17 16 w.val.toNat = 2 ∧ bits 15 8 w.val.toNat = 0x79 ∧ bit 7 w.val.toNat =
        true ∧ s.power.pmb = none)
      ∧ (∃ (s : State) (addr : Nat) (cmd : Nat) (len : Nat) (data : Nat) (pec : Bool), Inv s ∧ s.power.pmb = some (addr, cmd, true, len) ∧ len ≤ 2)
      ∧ (∃ (s : State) (addr : Nat) (cmd : Nat) (len : Nat) (data : Nat) (read : Bool) (pec : Bool), Inv s ∧ s.power.pmb = some (addr, cmd, read,
        len)) :=
  ⟨⟨
      { State.reset with
        power := { State.reset.power with
          state := PowerState.fallow, sram := some { words := [], bad := [], cause := 2, dtime := 0, tick := 0, cal := 2000000000 } } },
      Instr.wakePin (WakeResult.up), 4, { words := [], bad := [], cause := 2, dtime := 0, tick := 0, cal := 2000000000 }, inv_of (by decide +kernel),
      by decide +kernel⟩,
    ⟨
      { State.reset with
        power := { State.reset.power with
          state := PowerState.fallow, sram := some { words := [(4188, true, 30)], bad := [], cause := 2, dtime := 0, tick := 0, cal := 2000000000 } } },
      { words := [(4188, true, 30)], bad := [], cause := 2, dtime := 0, tick := 0, cal := 2000000000 }, 30, inv_of (by decide +kernel),
      by decide +kernel⟩,
    ⟨{ State.reset with regs := [(200768, 0x00000011#32)], power := { State.reset.power with state := PowerState.fallow } },
      Instr.wakeTlp 1 (WakeResult.stuck), 1, inv_of (by decide +kernel), by decide +kernel⟩,
    ⟨{ State.reset with power := { State.reset.power with req := some { target := 2, fn := 65, secure := true, startNs := 0, step := 1 } } },
      Instr.canWakeUp (WakeResult.up), 3, { target := 2, fn := 65, secure := true, startNs := 0, step := 1 }, inv_of (by decide +kernel),
      by decide +kernel⟩,
    ⟨{ State.reset with power := { State.reset.power with state := PowerState.off } }, Instr.wakePin (WakeResult.stuck), 4, 6,
      inv_of (by decide +kernel), by decide +kernel⟩,
    ⟨{ State.reset with regs := [(65612, 0#32)] }, Instr.wakePin (WakeResult.up), 4, WakeResult.up, inv_of (by decide +kernel), by decide +kernel⟩,
    ⟨
      { State.reset with
        regs := [(69748, 0x80000000#32)], time := { State.reset.time with ticks := 5 }, power := { State.reset.power with alarmArmed := true } },
      WakeResult.up, inv_of (by decide +kernel), by decide +kernel⟩,
    ⟨{ State.reset with power := { State.reset.power with state := PowerState.fallow, wake := some 4 } }, 4, 2, 33, [], inv_of (by decide +kernel),
      by decide +kernel⟩,
    ⟨{ State.reset with power := { State.reset.power with state := PowerState.fallow, wake := some 4, attempts := 3 } }, 4, 2, 33, [],
      inv_of (by decide +kernel), by decide +kernel⟩,
    ⟨
      { State.reset with
        power := { State.reset.power with
          state := PowerState.fallow, sram := some { words := [], bad := [], cause := 2, dtime := 0, tick := 0, cal := 2000000000 }, wake := some 4,
          wakeWait := true } }, 4, { words := [], bad := [], cause := 2, dtime := 0, tick := 0, cal := 2000000000 }, inv_of (by decide +kernel),
      by decide +kernel⟩,
    ⟨State.reset, 25000500, inv_of (by decide +kernel), by decide +kernel⟩,
    ⟨State.reset, { req := { fn := 65, secure := true }, win := Window.pf, off := 4172, be := 0xf#4, val := 0xffffffff#32 },
      inv_of (by decide +kernel), by decide +kernel⟩,
    ⟨State.reset, { req := { fn := 64, secure := false }, win := Window.pf, off := 4172, be := 0xf#4, val := 0x00000007#32 },
      inv_of (by decide +kernel), by decide +kernel⟩,
    ⟨State.reset, { req := { fn := 65, secure := true }, win := Window.pf, off := 69748, be := 0xf#4, val := 0x80001234#32 },
      inv_of (by decide +kernel), by decide +kernel⟩,
    ⟨State.reset, { req := { fn := 65, secure := true }, win := Window.pf, off := 69780, be := 0xf#4, val := 0x800279b3#32 },
      inv_of (by decide +kernel), by decide +kernel⟩,
    ⟨{ State.reset with power := { State.reset.power with pmb := some (51, 121, true, 2) } }, 51, 121, 2, 43981, false, inv_of (by decide +kernel),
      by decide +kernel⟩,
    ⟨{ State.reset with power := { State.reset.power with pmb := some (51, 121, true, 2) } }, 51, 121, 2, 43981, true, true,
      inv_of (by decide +kernel), by decide +kernel⟩⟩

/-- States and operands that meet the hypotheses of AgeingAndUpdate, clause by clause. -/
theorem witness_AgeingAndUpdate :
    (∃ (s : State) (w : RegWr), Inv s ∧ s.arrives w .age = true ∧ w.off % 0x1000 = 0x040 ∧ w.req = ⟨0x41, true⟩ ∧ bit 0 w.val.toNat = true ∧ 10 ≤ bits
      15 8 w.val.toNat ∧ bits 15 8 w.val.toNat ≤ 50 ∧ s.awake = true ∧ s.age.survey = none ∧ s.age.applying = false ∧ s.fld .pwr F.PWR_STAT_HOLD_READY
      = 1)
      ∧ (∃ (s : State) (w : RegWr) (c : Nat), Inv s ∧ s.arrives w .age = true ∧ w.off % 0x1000 = 0x040 ∧ w.req = ⟨0x41, true⟩ ∧ bit 0 w.val.toNat =
        true ∧ bits 15 8 w.val.toNat = 15 ∧ s.awake = true ∧ s.age.survey = some c)
      ∧ (∃ (s : State) (tj : Int) (m : List (Int × Nat)) (c : Nat), Inv s ∧ s.age.survey = some c ∧ c < 8 ∧ c ≠ 1)
      ∧ (∃ (s : State) (g : Nat), Inv s ∧ s.age.applying = true ∧ s.power.state ≠ .holdup ∧ g < 9 ∧ s.mvNow g < s.mvPlan g ∧ (∀ h < g, s.mvPlan h ≤
        s.mvNow h))
      ∧ (∃ (s : State) (i : Nat), Inv s ∧ (∀ k < i, s.mhzNow k = s.mhzPlan k) ∧ s.age.applying = true ∧ s.power.state ≠ .holdup ∧ (∀ h < 9, s.mvPlan h
        ≤ s.mvNow h) ∧ i < 46 ∧ s.mhzNow i ≠ s.mhzPlan i ∧ (s.mayLower = true ∨ s.mhzPlan i < s.mhzNow i))
      ∧ (∃ (s : State) (g : Nat), Inv s ∧ (∀ i < 46, s.mhzNow i = s.mhzPlan i) ∧ s.age.applying = true ∧ s.power.state ≠ .holdup ∧ s.mayLower = true ∧
        g < 9 ∧ (∀ h < 9, s.mvPlan h ≤ s.mvNow h) ∧ s.mvPlan g < s.mvNow g ∧ (∀ h < g, s.mvNow h = s.mvPlan h))
      ∧ (∃ (s : State), Inv s ∧ (∀ i < 46, s.mhzNow i = s.mhzPlan i) ∧ s.age.applying = true ∧ s.power.state ≠ .holdup ∧ (∀ g < 9, s.mvNow g =
        s.mvPlan g))
      ∧ (∃ (s : State), s.power.state = .holdup)
      ∧ (∃ (s : State) (i : Nat) (g : Nat), Inv s ∧ i < 46 ∧ s.islandPowered i = true ∧ islandGroup i = g ∧ s.mvPlan g + 10 ≤ (groupRange g).2 ∧
        s.awake = true ∧ s.age.survey = none)
      ∧ (∃ (s : State) (i : Nat) (g : Nat), Inv s ∧ i < 46 ∧ s.islandPowered i = true ∧ islandGroup i = g ∧ s.mvPlan g = (groupRange g).2 ∧ s.mvNow g
        = (groupRange g).2 ∧ s.awake = true ∧ s.age.survey = none)
      ∧ (∃ (s : State), Inv s ∧ s.awake = true)
      ∧ (∃ (s : State) (c : Nat), Inv s ∧ s.age.waiting = some c ∧ s.power.state = .run ∧ s.age.survey = none)
      ∧ (∃ (s : State) (i : Instr) (w : RegWr) (op : Nat), Inv s ∧ (i, op) ∈ [(.updOpen w, 1), (.updStage w, 2), (.updVerify w, 3), (.updActivate w,
        4), (.updAbort w, 5), (.updClose w, 6)] ∧ s.arrives w .upd = true ∧ w.off % 0x1000 = 0x040 ∧ s.secretPage (accOf w .upd) = false ∧ bits 3 0
        w.val.toNat = op ∧ s.update.running = none ∧ s.updCheck op w.req.fn w.req.secure (bits 6 4 w.val.toNat) (bits 9 8 w.val.toNat) = (0, 0))
      ∧ (∃ (s : State) (w : RegWr) (r : UpdRun), Inv s ∧ s.arrives w .upd = true ∧ w.off % 0x1000 = 0x040 ∧ s.secretPage (accOf w .upd) = false ∧ bits
        3 0 w.val.toNat = 1 ∧ s.update.running = some r)
      ∧ (∃ (s : State) (w : RegWr) (code : Nat), Inv s ∧ s.arrives w .upd = true ∧ w.off % 0x1000 = 0x040 ∧ s.secretPage (accOf w .upd) = false ∧ bits
        3 0 w.val.toNat = 1 ∧ s.update.running = none ∧ s.update.state = 0 ∧ s.flag .upd F.PG_CTRL_ENABLE = true ∧ bits 6 4 w.val.toNat ∈ [1, 2, 3, 4]
        ∧ w.req = ⟨0x40, false⟩ ∧ code = (if s.fld .upd F.UPD_LOCK_LOCK = 1 then 0x0503 else if s.fld .pwr F.PWR_STAT_HOLD_READY = 0 ∨ s.fld .aon
        F.AON_VHOLD_MV < 4850 then 0x0502 else if s.fld .upd F.UPD_CFG_MOTION_EN = 1 ∧ s.update.motion = s.flag .upd F.UPD_CFG_MOTION_HIGH then 0x0501
        else 0) ∧ code ≠ 0)
      ∧ (∃ (s : State) (g : Bool) (secure : Bool) (fn : Nat) (kind : Nat) (w : Nat) (args : Nat × Nat × Nat), Inv s ∧ s.update.running = some ⟨1, fn,
        secure, kind, w, 0, args⟩ ∧ kind ∈ [1, 2, 3, 4] ∧ fn < 256)
      ∧ (∃ (s : State) (u : State) (g : Bool) (secure : Bool) (fn : Nat) (kind : Nat) (w : Nat) (buf : Nat) (off : Nat) (len : Nat) (ws : List Nat),
        Inv s ∧ State.readBuf { s with update := { s.update with running := none } } ⟨fn, secure, s.fnCrit fn, 8, false, false⟩ buf 0 ((len + 15) /
        16) = (.ok ws, u) ∧ s.update.running = some ⟨2, fn, secure, kind, w, 0, (buf, off, len)⟩ ∧ s.update.state = 1)
      ∧ (∃ (s : State) (g : Bool) (secure : Bool) (fn : Nat) (kind : Nat) (w : Nat) (args : Nat × Nat × Nat), Inv s ∧ s.update.running = some ⟨3, fn,
        secure, kind, w, 0, args⟩ ∧ s.update.state = 1)
      ∧ (∃ (s : State) (g : Bool) (secure : Bool) (fn : Nat) (kind : Nat) (k : Nat) (w : Nat) (args : Nat × Nat × Nat), Inv s ∧ s.update.running =
        some ⟨4, fn, secure, kind, w, 0, args⟩ ∧ s.update.kind = k ∧ k ∈ [1, 2, 3] ∧ w ∈ [1, 2] ∧ s.update.copy0.crcOk = true ∧ s.update.copy1.crcOk =
        true ∧ s.update.copy0.seq < s.update.copy1.seq ∧ s.update.copy1.seq < 2 ^ 32 - 1)
      ∧ (∃ (s : State) (g : Bool) (secure : Bool) (fn : Nat) (kind : Nat) (k : Nat) (args : Nat × Nat × Nat), Inv s ∧ s.update.running = some ⟨4, fn,
        secure, kind, 3, 0, args⟩ ∧ s.update.kind = k ∧ k ∈ [1, 3] ∧ s.update.copy0.crcOk = true ∧ s.update.copy1.crcOk = true ∧ s.update.copy0.seq <
        s.update.copy1.seq ∧ s.update.copy1.seq < 2 ^ 32 - 1)
      ∧ (∃ (s : State) (g : Bool) (secure : Bool) (fn : Nat) (kind : Nat) (args : Nat × Nat × Nat), Inv s ∧ s.update.running = some ⟨4, fn, secure,
        kind, 3, 0, args⟩ ∧ s.update.kind = 2)
      ∧ (∃ (s : State) (g : Bool) (secure : Bool) (fn : Nat) (kind : Nat) (op : Nat) (w : Nat) (args : Nat × Nat × Nat), Inv s ∧ s.update.running =
        some ⟨op, fn, secure, kind, w, 0, args⟩ ∧ (op = 5 ∧ s.update.state ∈ [1, 2] ∨ op = 6 ∧ s.update.state ∈ [1, 2, 3]))
      ∧ (∃ (s : State) (g : Bool) (secure : Bool) (fn : Nat) (kind : Nat) (k : Nat) (w : Nat) (args : Nat × Nat × Nat), Inv s ∧ s.update.running =
        some ⟨5, fn, secure, kind, w, 0, args⟩ ∧ s.update.state = 3 ∧ s.update.kind = k ∧ k ∈ [1, 2, 3] ∧ s.update.copy0.crcOk = true ∧
        s.update.copy1.crcOk = true ∧ s.update.copy0.seq < s.update.copy1.seq ∧ s.update.copy1.seq < 2 ^ 32 - 1)
      ∧ (∃ (s : State), Inv s ∧ s.update.running = none ∧ s.update.state ∈ [1, 2, 3])
      ∧ (∃ (s : State) (w : RegWr), Inv s ∧ s.arrives w .upd = true ∧ w.off % 0x1000 = 0x05C ∧ w.req.secure = true ∧ bit 1 w.val.toNat = true)
      ∧ (∃ (s : State) (k : Nat) (loc : Nat), Inv s ∧ s.update.trials = [k] ∧ k ∈ [1, 2, 3] ∧ s.ready = true ∧ s.paired = false ∧ s.faults.fatal =
        none ∧ s.now ≤ s.faults.releasedAt + 60000000000 ∧ (s.boot.entry k).trial = some loc ∧ s.update.copy0.crcOk = true ∧ s.update.copy1.crcOk =
        true ∧ s.update.copy0.seq < s.update.copy1.seq ∧ s.update.copy1.seq < 2 ^ 32 - 1)
      ∧ (∃ (s : State), Inv s ∧ s.update.trials ≠ [])
      ∧ (∃ (s : State) (x : Nat) (r : Nat) (rest : List Nat), Inv s ∧ s.update.state = 4 ∧ s.update.micro = x :: r :: rest ∧ x < 10 ∧ s.targetReady x
        = true ∧ (s.update.loading = true ∨ s.updRefusal (s.update.holder == 0x41) = none))
      ∧ (∃ (s : State) (x : Nat) (rest : List Nat) (g : Bool), Inv s ∧ s.update.state = 4 ∧ s.update.micro = x :: rest ∧ x < 10 ∧ s.targetReady x =
        false ∧ (s.update.loading = true ∨ s.updRefusal (s.update.holder == 0x41) = none))
      ∧ (∃ (s : State) (x : Nat) (rest : List Nat), Inv s ∧ s.update.state = 4 ∧ s.update.micro = x :: rest ∧ x < 10 ∧ s.targetReady x = true ∧
        (s.update.loading = true ∨ s.updRefusal (s.update.holder == 0x41) = none) ∧ s.update.copy0.crcOk = true ∧ s.update.copy1.crcOk = true ∧
        s.update.copy0.seq < s.update.copy1.seq ∧ s.update.copy1.seq < 2 ^ 32 - 1) :=
  ⟨⟨{ State.reset with regs := [(65608, 0x00000008#32)] },
      { req := { fn := 65, secure := true }, win := Window.pf, off := 73792, be := 0xf#4, val := 0x00001403#32 }, inv_of (by decide +kernel),
      by decide +kernel⟩,
    ⟨{ State.reset with age := { State.reset.age with survey := some 3 } },
      { req := { fn := 65, secure := true }, win := Window.pf, off := 73792, be := 0xf#4, val := 0x00000f01#32 }, 3, inv_of (by decide +kernel),
      by decide +kernel⟩,
    ⟨{ State.reset with age := { State.reset.age with survey := some 3 } }, 70,
      [
        (-40, 0), (-33, 1), (-26, 2), (-19, 3), (-12, 4), (-5, 5), (2, 6), (9, 7), (16, 8), (23, 9), (30, 10), (37, 11), (44, 12), (51, 13), (58, 14),
        (65, 15), (72, 16), (79, 17), (86, 18), (93, 19), (100, 20), (107, 21), (114, 22), (121, 23), (128, 24), (135, 25), (142, 26), (149, 27),
        (156, 28), (163, 29), (170, 30), (177, 31), (184, 32), (191, 33), (198, 34), (205, 35), (212, 36), (219, 37), (226, 38), (233, 39), (240, 40),
        (247, 41), (254, 42), (261, 43), (268, 44), (275, 45)], 3, inv_of (by decide +kernel), by decide +kernel⟩,
    ⟨planRunning 700 703, 3, inv_of (by decide +kernel), by decide +kernel⟩,
    ⟨planMhz, 0, inv_of (by decide +kernel), (fun k h => absurd h (Nat.not_lt_zero k)), by decide +kernel⟩,
    ⟨planRunning 707 700, 3, inv_of (by decide +kernel), (fun _ _ => rfl), by decide +kernel⟩,
    ⟨planRunning 700 700, inv_of (by decide +kernel), (fun _ _ => rfl), by decide +kernel⟩,
    ⟨{ State.reset with power := { State.reset.power with state := PowerState.holdup } }, by decide +kernel⟩,
    ⟨planRunning 700 700, 28, 5, inv_of (by decide +kernel), by decide +kernel⟩,
    ⟨{ State.reset with age := { State.reset.age with mvNow := [(5, 850)], mvPlan := [(5, 850)] } }, 28, 5, inv_of (by decide +kernel),
      by decide +kernel⟩,
    ⟨State.reset, inv_of (by decide +kernel), by decide +kernel⟩,
    ⟨{ State.reset with age := { State.reset.age with waiting := some 2 } }, 2, inv_of (by decide +kernel), by decide +kernel⟩,
    ⟨State.reset, Instr.updClose { req := { fn := 64, secure := false }, win := Window.pf, off := 77888, be := 0xf#4, val := 0x00000006#32 },
      { req := { fn := 64, secure := false }, win := Window.pf, off := 77888, be := 0xf#4, val := 0x00000006#32 }, 6, inv_of (by decide +kernel),
      by decide +kernel⟩,
    ⟨
      { State.reset with
        update := { State.reset.update with
          running := some { op := 1, fn := 64, secure := false, kind := 1, when_ := 0, code := 0, args := (0, 0, 0) } } },
      { req := { fn := 64, secure := false }, win := Window.pf, off := 77888, be := 0xf#4, val := 0x00000011#32 },
      { op := 1, fn := 64, secure := false, kind := 1, when_ := 0, code := 0, args := (0, 0, 0) }, inv_of (by decide +kernel), by decide +kernel⟩,
    ⟨State.reset, { req := { fn := 64, secure := false }, win := Window.pf, off := 77888, be := 0xf#4, val := 0x00000011#32 }, 1282,
      inv_of (by decide +kernel), by decide +kernel⟩,
    ⟨
      { State.reset with
        update := { State.reset.update with
          running := some { op := 1, fn := 64, secure := false, kind := 1, when_ := 0, code := 0, args := (0, 0, 0) } } }, false, false, 64, 1, 0,
      (0, 0, 0), inv_of (by decide +kernel), by decide +kernel⟩,
    ⟨dataRunning, dataRead.2, false, false, 64, 0, 0, 0, 0, 40, [0, 0, 0], inv_of (by decide +kernel), Prod.ext (except_of (by decide +kernel)) rfl,
      by decide +kernel⟩,
    ⟨
      { State.reset with
        update := { State.reset.update with
          state := 1, running := some { op := 3, fn := 64, secure := false, kind := 0, when_ := 0, code := 0, args := (65536, 0, 40) } } }, true,
      false, 64, 0, 0, (65536, 0, 40), inv_of (by decide +kernel), by decide +kernel⟩,
    ⟨
      { State.reset with
        update := { State.reset.update with
          kind := 1, running := some { op := 4, fn := 64, secure := false, kind := 0, when_ := 1, code := 0, args := (65536, 0, 40) },
          copy1 := { 
            seq := 5, crcOk := true,
            data := { 
              xiresol := { confirmed := 0, trial := none, attempts := 0 }, microcode := { confirmed := 0, trial := none, attempts := 0 },
              settings := { confirmed := 0, trial := none, attempts := 0 }, when_ := 0 } } } }, true, false, 64, 0, 1, 1, (65536, 0, 40),
      inv_of (by decide +kernel), by decide +kernel⟩,
    ⟨
      { State.reset with
        update := { State.reset.update with
          kind := 1, running := some { op := 4, fn := 64, secure := false, kind := 0, when_ := 3, code := 0, args := (65536, 0, 40) },
          copy1 := { 
            seq := 5, crcOk := true,
            data := { 
              xiresol := { confirmed := 0, trial := none, attempts := 0 }, microcode := { confirmed := 0, trial := none, attempts := 0 },
              settings := { confirmed := 0, trial := none, attempts := 0 }, when_ := 0 } } } }, true, false, 64, 0, 1, (65536, 0, 40),
      inv_of (by decide +kernel), by decide +kernel⟩,
    ⟨
      { State.reset with
        update := { State.reset.update with
          kind := 2, running := some { op := 4, fn := 64, secure := false, kind := 0, when_ := 3, code := 0, args := (65536, 0, 40) } } }, true,
      false, 64, 0, (65536, 0, 40), inv_of (by decide +kernel), by decide +kernel⟩,
    ⟨
      { State.reset with
        update := { State.reset.update with
          state := 1, running := some { op := 5, fn := 64, secure := false, kind := 0, when_ := 0, code := 0, args := (65536, 0, 40) } } }, true,
      false, 64, 0, 5, 0, (65536, 0, 40), inv_of (by decide +kernel), by decide +kernel⟩,
    ⟨
      { State.reset with
        update := { State.reset.update with
          state := 3, kind := 1, running := some { op := 5, fn := 64, secure := false, kind := 0, when_ := 0, code := 0, args := (65536, 0, 40) },
          copy1 := { 
            seq := 6, crcOk := true,
            data := { 
              xiresol := { confirmed := 0, trial := some 1, attempts := 2 }, microcode := { confirmed := 0, trial := none, attempts := 0 },
              settings := { confirmed := 0, trial := none, attempts := 0 }, when_ := 1 } } } }, true, false, 64, 0, 1, 0, (65536, 0, 40),
      inv_of (by decide +kernel), by decide +kernel⟩,
    ⟨{ State.reset with update := { State.reset.update with state := 1 } }, inv_of (by decide +kernel), by decide +kernel⟩,
    ⟨State.reset, { req := { fn := 65, secure := true }, win := Window.pf, off := 77916, be := 0xf#4, val := 0x00000002#32 },
      inv_of (by decide +kernel), by decide +kernel⟩,
    ⟨
      { State.reset with
        regs := [(68, 0x00000017#32)],
        update := { State.reset.update with
          copy1 := { 
            seq := 6, crcOk := true,
            data := { 
              xiresol := { confirmed := 0, trial := some 1, attempts := 2 }, microcode := { confirmed := 0, trial := none, attempts := 0 },
              settings := { confirmed := 0, trial := none, attempts := 0 }, when_ := 1 } }, trials := [1] } }, 1, 1, inv_of (by decide +kernel),
      by decide +kernel⟩,
    ⟨{ State.reset with update := { State.reset.update with trials := [1] } }, inv_of (by decide +kernel), by decide +kernel⟩,
    ⟨
      { State.reset with
        regs := [(65608, 0x00000008#32), (69764, 0x00001388#32), (77912, 0x00000003#32)],
        update := { State.reset.update with state := 4, micro := [3, 4] } }, 3, 4, [], inv_of (by decide +kernel), by decide +kernel⟩,
    ⟨
      { State.reset with
        regs := [(65608, 0x00000008#32), (69764, 0x00001388#32), (77912, 0x00000003#32)],
        haptic := { State.reset.haptic with chans := [(2, { idleHap with state := HapState.drive })] },
        update := { State.reset.update with state := 4, micro := [9, 10] } }, 9, [10], true, inv_of (by decide +kernel), by decide +kernel⟩,
    ⟨
      { State.reset with
        regs := [(65608, 0x00000008#32), (69764, 0x00001388#32), (77912, 0x00000003#32)],
        update := { State.reset.update with
          state := 4,
          copy1 := { 
            seq := 5, crcOk := true,
            data := { 
              xiresol := { confirmed := 0, trial := none, attempts := 0 }, microcode := { confirmed := 0, trial := none, attempts := 0 },
              settings := { confirmed := 0, trial := none, attempts := 0 }, when_ := 0 } }, micro := [3, 4] } }, 3, [4], inv_of (by decide +kernel),
      by decide +kernel⟩⟩

/-- States and operands that meet the hypotheses of StartAndFaults, clause by clause. -/
theorem witness_StartAndFaults :
    (∃ (s : State), Inv s)
      ∧ (∃ (s : State), Inv s ∧ s.power.state ≠ .stopped)
      ∧ (∃ (s : State) (w : RegWr), Inv s ∧ s.arrives w .sys = true ∧ w.off % 0x1000 = F.SYS_RESET_RESTART.off ∧ s.grants (accOf w .sys)
        F.SYS_RESET_RESTART = true)
      ∧ (∃ (s : State), Inv s ∧ s.faults.inReset = true ∧ s.power.state = .run ∧ s.faults.cause < 16 ∧ s.fld .sys F.SYS_STAT_PHASE ≠ 8)
      ∧ (∃ (s : State) (l : StartLoad), Inv s ∧ s.faults.inReset = false ∧ s.faults.recovery = false ∧ s.faults.fatal = none ∧ s.power.state = .run ∧
        s.fld .sys F.SYS_STAT_PHASE = 1)
      ∧ (∃ (s : State) (l : StartLoad), Inv s ∧ s.faults.inReset = false ∧ s.faults.recovery = false ∧ s.faults.fatal = none ∧ s.power.state = .run ∧
        s.fld .sys F.SYS_STAT_PHASE = 2 ∧ (s.boot.entry 1).trial = none ∧ s.update.begun.contains 1 = false ∧ bit (s.boot.entry 1).confirmed l.slots =
        false ∧ bit (1 - (s.boot.entry 1).confirmed) l.slots = false)
      ∧ (∃ (s : State) (l : StartLoad) (k : Nat) (h : Nat), Inv s ∧ s.faults.inReset = false ∧ s.faults.recovery = false ∧ s.faults.fatal = none ∧
        s.power.state = .run ∧ s.fld .sys F.SYS_STAT_PHASE = 2 ∧ (∀ i ∈ [1, 2, 3], (s.boot.entry i).trial = none) ∧ s.update.begun = [] ∧
        s.update.burn = [] ∧ k = (s.boot.entry 1).confirmed ∧ k ≤ 1 ∧ bit k l.slots = true ∧ h = (s.boot.entry 2).confirmed ∧ h ≤ 1 ∧ bit h l.halves =
        true)
      ∧ (∃ (s : State) (l : StartLoad) (k : Nat), Inv s ∧ s.faults.inReset = false ∧ s.faults.recovery = false ∧ s.faults.fatal = none ∧ s.power.state
        = .run ∧ s.fld .sys F.SYS_STAT_PHASE = 2 ∧ (s.boot.entry 1).trial = none ∧ s.update.begun = [] ∧ k = (s.boot.entry 1).confirmed ∧ k ≤ 1 ∧ bit
        k l.slots = false ∧ bit (1 - k) l.slots = true ∧ (∀ i ∈ [2, 3], (s.boot.entry i).trial = none) ∧ s.update.burn = [])
      ∧ (∃ (s : State) (l : StartLoad) (n : Nat), Inv s ∧ s.faults.inReset = false ∧ s.faults.recovery = false ∧ s.faults.fatal = none ∧ s.power.state
        = .run ∧ s.fld .sys F.SYS_STAT_PHASE = 3 ∧ n < s.channels ∧ (State.cfgSupported (s.startCfg l) = false ∨ l.modes.getD n none ≠ some (bits 1 0
        (s.startCfg l), bits 2 2 (s.startCfg l))) ∧ (∀ i < n, State.cfgSupported (s.startCfg l) = true ∧ l.modes.getD i none = some (bits 1 0
        (s.startCfg l), bits 2 2 (s.startCfg l))))
      ∧ (∃ (s : State) (l : StartLoad), Inv s ∧ s.faults.inReset = false ∧ s.faults.recovery = false ∧ s.faults.fatal = none ∧ s.power.state = .run ∧
        s.fld .sys F.SYS_STAT_PHASE = 3 ∧ s.savedImage = none ∧ s.faults.tail.length ≤ 256 ∧ s.faults.tail.length + s.faults.log.length < 4096 ∧
        State.cfgSupported (s.startCfg l) = true ∧ (∀ i < s.channels, l.modes.getD i none = some (bits 1 0 (s.startCfg l), bits 2 2 (s.startCfg l))))
      ∧ (∃ (s : State) (l : StartLoad), Inv s ∧ (∀ c, s.faults.settings = some c → c.plan = none ∧ c.pair = none ∧ c.pool = none) ∧ s.faults.inReset =
        false ∧ s.faults.recovery = false ∧ s.faults.fatal = none ∧ s.power.state = .run ∧ s.fld .sys F.SYS_STAT_PHASE = 4 ∧ s.fld .wld
        F.WLD_WMARK_HI_WMARK_HI = 0)
      ∧ (∃ (s : State) (l : StartLoad) (c : Settings) (p : OwnPlan), Inv s ∧ s.faults.inReset = false ∧ s.faults.recovery = false ∧ s.faults.fatal =
        none ∧ s.power.state = .run ∧ s.fld .sys F.SYS_STAT_PHASE = 4 ∧ s.faults.settings = some c ∧ c.plan = some p ∧ p.owners = [] ∧ c.pair = none ∧
        c.pool = none)
      ∧ (∃ (s : State) (l : StartLoad) (p : Nat), Inv s ∧ s.faults.inReset = false ∧ s.faults.recovery = false ∧ s.faults.fatal = none ∧ s.power.state
        = .run ∧ s.fld .sys F.SYS_STAT_PHASE = p ∧ p ∈ [5, 6] ∧ (p = 5 → s.age.survey ≠ some 1) ∧ (p = 6 → s.age.applying = false) ∧ s.update.burn =
        [])
      ∧ (∃ (s : State) (l : StartLoad), ((s.fld .sys F.SYS_STAT_PHASE = 5 ∧ s.age.survey = some 1) ∨ (s.fld .sys F.SYS_STAT_PHASE = 6 ∧ s.age.applying
        = true) ∨ s.faults.inReset = true ∨ s.faults.recovery = true ∨ s.faults.fatal ≠ none ∨ s.power.state ≠ .run ∨ 7 ≤ s.fld .sys
        F.SYS_STAT_PHASE))
      ∧ (∃ (s : State) (w : RegWr) (n : Nat) (e : Early), Inv s ∧ s.arrives w .sys = true ∧ w.off % 0x1000 = F.SYS_EARLY_END.off ∧ (w.req.secure =
        true ∨ (w.req.fn = s.manager ∧ s.secretPage (accOf w .sys) = false)) ∧ n < 8 ∧ bit (8 + n) w.val.toNat = true ∧ Sparse.find s.faults.early n =
        some e ∧ e.slot < 16)
      ∧ (∃ (s : State) (w : RegWr), Inv s ∧ s.arrives w .sys = true ∧ w.off % 0x1000 = F.SYS_EARLY_END.off ∧ (w.req.secure = true ∨ (w.req.fn =
        s.manager ∧ s.secretPage (accOf w .sys) = false)) ∧ (∀ n < 8, bit (8 + n) w.val.toNat = true → Sparse.find s.faults.early n = none))
      ∧ (∃ (s : State) (w : RegWr), Inv s ∧ s.arrives w .sys = true ∧ w.off % 0x1000 = F.SYS_EARLY_END.off ∧ w.req.secure = false ∧ (w.req.fn =
        s.manager → s.secretPage (accOf w .sys) = true))
      ∧ (∃ (s : State) (src : Nat) (code : Nat) (info : Nat) (fn : Nat) (pg : Page) (act : FaultAct), Inv s ∧ (∀ k j, act ≠ .furrow k j) ∧ (∀ k, act ≠
        .ownCache k) ∧ pageOf src = some pg ∧ statusCodes.contains code = true ∧ s.faults.inReset = false ∧ s.power.state ≠ .off ∧ s.power.state ≠
        .stopped ∧ s.fld .sys F.SYS_STAT_PHASE ≠ 8 ∧ (∀ e ∈ s.faults.log, s.isRepeat 1 code pg.source e = false))
      ∧ (∃ (s : State) (src : Nat) (sram : Nat) (cls : Nat) (code : Nat) (info : Nat) (fn : Nat) (pg : Page), Inv s ∧ pageOf src = some pg ∧
        statusCodes.contains code = true ∧ s.faults.inReset = false ∧ s.power.state ≠ .off ∧ s.power.state ≠ .stopped ∧ sram ∈ [1, 2] ∧ cls ∈ [1, 2])
      ∧ (∃ (s : State) (src : Nat) (code : Nat) (info : Nat) (fn : Nat) (n : Nat) (pg : Page) (e : LogEntry) (l : List LogEntry) (m : List LogEntry),
        Inv s ∧ pageOf src = some pg ∧ statusCodes.contains code = true ∧ s.faults.inReset = false ∧ s.power.state ≠ .off ∧ s.power.state ≠ .stopped ∧
        s.faults.log = l ++ [e] ++ m ∧ e ∉ l ∧ e ∉ m ∧ s.isRepeat 2 code pg.source e = true ∧ (∀ x ∈ m, s.isRepeat 2 code pg.source x = false) ∧ n <
        8)
      ∧ (∃ (s : State) (src : Nat) (code : Nat) (info : Nat) (fn : Nat) (n : Nat), Inv s ∧ n < 4 ∧ pageOf src = some (.ing n) ∧ statusCodes.contains
        code = true ∧ s.faults.inReset = false ∧ s.power.state ≠ .off ∧ s.power.state ≠ .stopped)
      ∧ (∃ (s : State) (src : Nat) (code : Nat) (info : Nat) (fn : Nat) (k : Nat) (pg : Page), Inv s ∧ pageOf src = some pg ∧ statusCodes.contains
        code = true ∧ s.faults.inReset = false ∧ s.power.state ≠ .off ∧ s.power.state ≠ .stopped ∧ k < 4)
      ∧ (∃ (s : State) (i : Instr) (c : Nat), Inv s ∧ (i, c) ∈ [(.deviceFatalFault 1, 1), (.deviceFatalFault 2, 2), (.deviceFatalFault 4, 4),
        (.deviceFatalFault 5, 5), (.deviceFatalFault 3, 3), (.deviceFatalFault 6, 6), (.watchdogExpiry, 3), (.referenceLoss, 6)] ∧ s.faults.inReset =
        false ∧ s.faults.fatal = none ∧ s.power.state ∉ [.off, .stopped, .holdup] ∧ (i = .referenceLoss → s.asleep = false))
      ∧ (∃ (s : State), s.asleep = true)
      ∧ (∃ (s : State) (c : Nat) (d : Nat), Inv s ∧ 0 < d ∧ d ≤ 6 ∧ s.faults.inReset = false ∧ s.faults.fatal = some c ∧ s.power.state ∉ [.off,
        .stopped])
      ∧ (∃ (s : State) (c : Nat), Inv s ∧ s.faults.fatal = some c ∧ s.faults.halted = false ∧ s.power.state ∉ [.off, .stopped, .holdup] ∧ (s.fld .sys
        F.SYS_FATAL_HALT = 1 ∨ s.fld .sys F.SYS_FATAL_RESTART_LIMIT ≤ (s.faults.restarts.filter fun r => decide (s.now < r + 600000000000)).length))
      ∧ (∃ (s : State) (c : Nat), Inv s ∧ s.faults.fatal = some c ∧ s.faults.halted = false ∧ s.power.state ∉ [.off, .stopped, .holdup] ∧ s.fld .sys
        F.SYS_FATAL_HALT = 0 ∧ (s.faults.restarts.filter fun r => decide (s.now < r + 600000000000)).length < s.fld .sys F.SYS_FATAL_RESTART_LIMIT)
      ∧ (∃ (s : State), s.power.state ≠ .stopped)
      ∧ (∃ (s : State) (w : RegWr), Inv s ∧ s.arrives w .log = true ∧ w.off % 0x1000 = F.LOG_CTRL_CLEAR.off ∧ s.grants (accOf w .log) F.LOG_CTRL_CLEAR
        = true) :=
  ⟨⟨State.reset, inv_of (by decide +kernel)⟩,
    ⟨State.reset, inv_of (by decide +kernel), by decide +kernel⟩,
    ⟨State.reset, { req := { fn := 65, secure := true }, win := Window.pf, off := 92, be := 0xf#4, val := 0x00000001#32 }, inv_of (by decide +kernel),
      by decide +kernel⟩,
    ⟨{ State.reset with faults := { State.reset.faults with inReset := true } }, inv_of (by decide +kernel), by decide +kernel⟩,
    ⟨State.reset,
      { 
        slots := 3, slotVers := (1, 2), schemas := ((0, 10), 0, 10), halves := 3, mcVers := (5, 6), copies := (none, none), keyFused := false,
        applet := none, modes := (List.replicate 16 (some (1, 1))), gates := [4096] }, inv_of (by decide +kernel), by decide +kernel⟩,
    ⟨{ State.reset with regs := [(68, 0x00000022#32)] },
      { 
        slots := 0, slotVers := (1, 2), schemas := ((0, 10), 0, 10), halves := 3, mcVers := (5, 6), copies := (none, none), keyFused := false,
        applet := none, modes := (List.replicate 16 (some (1, 1))), gates := [4096] }, inv_of (by decide +kernel), by decide +kernel⟩,
    ⟨{ State.reset with regs := [(68, 0x00000022#32)] },
      { 
        slots := 3, slotVers := (1, 2), schemas := ((0, 10), 0, 10), halves := 3, mcVers := (5, 6), copies := (none, none), keyFused := false,
        applet := none, modes := (List.replicate 16 (some (1, 1))), gates := [4096] }, 0, 0, inv_of (by decide +kernel), by decide +kernel⟩,
    ⟨{ State.reset with regs := [(68, 0x00000022#32)] },
      { 
        slots := 2, slotVers := (1, 2), schemas := ((0, 10), 0, 10), halves := 3, mcVers := (5, 6), copies := (none, none), keyFused := false,
        applet := none, modes := (List.replicate 16 (some (1, 1))), gates := [4096] }, 0, inv_of (by decide +kernel), by decide +kernel⟩,
    ⟨{ State.reset with regs := [(68, 0x00000023#32)] },
      { 
        slots := 3, slotVers := (1, 2), schemas := ((0, 10), 0, 10), halves := 3, mcVers := (5, 6), copies := (none, none), keyFused := false,
        applet := none, modes := [some (1, 1), some (1, 1), none], gates := [4096] }, 2, inv_of (by decide +kernel), by decide +kernel⟩,
    ⟨{ State.reset with regs := [(68, 0x00000023#32)] },
      { 
        slots := 3, slotVers := (1, 2), schemas := ((0, 10), 0, 10), halves := 3, mcVers := (5, 6), copies := (none, none), keyFused := false,
        applet := none, modes := (List.replicate 16 (some (1, 1))), gates := [4096] }, inv_of (by decide +kernel), by decide +kernel⟩,
    ⟨{ State.reset with regs := [(68, 0x00000024#32)] },
      { 
        slots := 3, slotVers := (1, 2), schemas := ((0, 10), 0, 10), halves := 3, mcVers := (5, 6), copies := (none, none), keyFused := false,
        applet := none, modes := (List.replicate 16 (some (1, 1))), gates := [4096] }, inv_of (by decide +kernel), (fun _ h => nomatch h),
      by decide +kernel⟩,
    ⟨
      { State.reset with
        regs := [(68, 0x00000024#32)],
        faults := { State.reset.faults with
          settings := some { 
            schema := 3,
            plan := some { 
              wmarkLo := 134217728, wmarkHi := 0, tableLo := 1048576, tableHi := 0, crits := [(3, 2), (64, 3)], hold := 0, owners := [] },
            regions := [], dmcCfg := 85, pair := none, rails := [], updCfg := 0, updLock := 0, pool := none, early := [] } } },
      { 
        slots := 3, slotVers := (1, 2), schemas := ((0, 10), 0, 10), halves := 3, mcVers := (5, 6), copies := (none, none), keyFused := false,
        applet := none, modes := (List.replicate 16 (some (1, 1))), gates := [4096] },
      { 
        schema := 3,
        plan := some { wmarkLo := 134217728, wmarkHi := 0, tableLo := 1048576, tableHi := 0, crits := [(3, 2), (64, 3)], hold := 0, owners := [] },
        regions := [], dmcCfg := 85, pair := none, rails := [], updCfg := 0, updLock := 0, pool := none, early := [] },
      { wmarkLo := 134217728, wmarkHi := 0, tableLo := 1048576, tableHi := 0, crits := [(3, 2), (64, 3)], hold := 0, owners := [] },
      inv_of (by decide +kernel), by decide +kernel⟩,
    ⟨{ State.reset with regs := [(68, 0x00000125#32)] },
      { 
        slots := 3, slotVers := (1, 2), schemas := ((0, 10), 0, 10), halves := 3, mcVers := (5, 6), copies := (none, none), keyFused := false,
        applet := none, modes := (List.replicate 16 (some (1, 1))), gates := [4096] }, 5, inv_of (by decide +kernel), by decide +kernel⟩,
    ⟨{ State.reset with regs := [(68, 0x00000125#32)], age := { State.reset.age with survey := some 1 } },
      { 
        slots := 3, slotVers := (1, 2), schemas := ((0, 10), 0, 10), halves := 3, mcVers := (5, 6), copies := (none, none), keyFused := false,
        applet := none, modes := (List.replicate 16 (some (1, 1))), gates := [4096] }, by decide +kernel⟩,
    ⟨{ State.reset with faults := { State.reset.faults with early := [(2, { slot := 3, chan := 0, buf := 0, endOwner := 64, shown := false })] } },
      { req := { fn := 65, secure := true }, win := Window.pf, off := 88, be := 0xf#4, val := 0x00000400#32 }, 2,
      { slot := 3, chan := 0, buf := 0, endOwner := 64, shown := false }, inv_of (by decide +kernel), by decide +kernel⟩,
    ⟨State.reset, { req := { fn := 65, secure := true }, win := Window.pf, off := 88, be := 0xf#4, val := 0x00000100#32 }, inv_of (by decide +kernel),
      by decide +kernel⟩,
    ⟨State.reset, { req := { fn := 64, secure := false }, win := Window.pf, off := 88, be := 0xf#4, val := 0x0000ff00#32 },
      inv_of (by decide +kernel), by decide +kernel⟩,
    ⟨State.reset, 589824, 1025, 77, 3, Page.edac, FaultAct.reportOnly, inv_of (by decide +kernel), (fun _ _ h => nomatch h), (fun _ h => nomatch h),
      by decide +kernel⟩,
    ⟨State.reset, 589824, 1, 1, 1025, 77, 3, Page.edac, inv_of (by decide +kernel), by decide +kernel⟩,
    ⟨
      { State.reset with
        faults := { State.reset.faults with
          log := [{ dtime := 0, epoch := 0, cls := 2, prev := false, code := 1025, source := 5122, info := 77, fn := 3, reps := 0, seq := 0 }] } },
      2113536, 1025, 77, 3, 2, Page.scn 2,
      { dtime := 0, epoch := 0, cls := 2, prev := false, code := 1025, source := 5122, info := 77, fn := 3, reps := 0, seq := 0 }, [], [],
      inv_of (by decide +kernel), by decide +kernel⟩,
    ⟨State.reset, 331776, 1025, 77, 3, 1, inv_of (by decide +kernel), by decide +kernel⟩,
    ⟨State.reset, 131072, 1025, 77, 3, 1, Page.wld, inv_of (by decide +kernel), by decide +kernel⟩,
    ⟨State.reset, Instr.watchdogExpiry, 3, inv_of (by decide +kernel), by decide +kernel⟩,
    ⟨{ State.reset with power := { State.reset.power with state := PowerState.fallow } }, by decide +kernel⟩,
    ⟨{ State.reset with faults := { State.reset.faults with fatal := some 5 } }, 5, 2, inv_of (by decide +kernel), by decide +kernel⟩,
    ⟨{ State.reset with regs := [(80, 0x00070000#32)], faults := { State.reset.faults with fatal := some 5 } }, 5, inv_of (by decide +kernel),
      by decide +kernel⟩,
    ⟨{ State.reset with faults := { State.reset.faults with fatal := some 5 } }, 5, inv_of (by decide +kernel), by decide +kernel⟩,
    ⟨State.reset, by decide +kernel⟩,
    ⟨State.reset, { req := { fn := 65, secure := true }, win := Window.pf, off := 8264, be := 0xf#4, val := 0x80000000#32 },
      inv_of (by decide +kernel), by decide +kernel⟩⟩

/-- States and operands that meet the hypotheses of IdleStepIsACycle, clause by clause. -/
theorem witness_IdleStepIsACycle :
    (∃ (s : State), Inv s ∧ (∀ r, s.power.req = some r → r.step = 2 → r.target ∈ [2, 4] → s.quietened = true → s.asleep = true) ∧ s.pending = [])
      ∧ (∃ (s : State), Inv s ∧ s.pending = [] ∧ s.time.captured = false ∧ s.fld .tim F.TIM_TRIM_PPB < 2 ^ 17 ∧ s.power.req = none)
      ∧ (∃ (s : State), Inv s ∧ s.pending = [] ∧ s.time.captured = false ∧ 2 ^ 17 ≤ s.fld .tim F.TIM_TRIM_PPB ∧ s.power.req = none)
      ∧ (∃ (s : State) (i : Nat), Inv s ∧ s.pending = [] ∧ s.power.req = none ∧ i < 8)
      ∧ (∃ (s : State) (r : PowerReq), Inv s ∧ s.pending = [] ∧ s.power.req = some r ∧ r.step = 2 ∧ r.target = 2 ∧ s.quietened = true ∧ s.asleep =
        false)
      ∧ (∃ (s : State) (r : PowerReq), Inv s ∧ s.pending = [] ∧ s.power.req = some r ∧ r.step = 2 ∧ r.target = 4 ∧ s.quietened = true ∧ s.asleep =
        false) :=
  ⟨⟨State.reset, inv_of (by decide +kernel), (fun _ h => nomatch h), by decide +kernel⟩,
    ⟨State.reset, inv_of (by decide +kernel), by decide +kernel⟩,
    ⟨{ State.reset with regs := [(4176, 0x0003ffff#32)] }, inv_of (by decide +kernel), by decide +kernel⟩,
    ⟨State.reset, 3, inv_of (by decide +kernel), by decide +kernel⟩,
    ⟨entering 2, ⟨2, 64, false, 0, 2⟩, inv_of (by decide +kernel), by decide +kernel⟩,
    ⟨entering 4, ⟨4, 64, false, 0, 2⟩, inv_of (by decide +kernel), by decide +kernel⟩⟩

/-- States and operands that meet the hypotheses of SagAfterFatalFault, clause by clause. -/
theorem witness_SagAfterFatalFault :
    (∃ (s : State) (c : Nat), Inv s ∧ s.faults.inReset = false ∧ s.faults.fatal = some c ∧ s.asleep = false)
      ∧ (∃ (s : State) (good : Bool), Inv s ∧ s.power.state = .holdup ∧ s.power.flushed = false ∧ s.power.noResume = true)
      ∧ (∃ (s : State) (err : Bool), Inv s ∧ s.power.state = .holdup ∧ s.power.saving = true)
      ∧ (∃ (s : State) (d : Nat), Inv s ∧ 0 < d ∧ d ≤ 6 ∧ s.faults.inReset = false ∧ s.power.state = .holdup) :=
  ⟨⟨{ State.reset with faults := { State.reset.faults with fatal := some 5 } }, 5, inv_of (by decide +kernel), by decide +kernel⟩,
    ⟨{ State.reset with power := { State.reset.power with state := PowerState.holdup, noResume := true } }, true, inv_of (by decide +kernel),
      by decide +kernel⟩,
    ⟨{ State.reset with power := { State.reset.power with state := PowerState.holdup, saving := true } }, true, inv_of (by decide +kernel),
      by decide +kernel⟩,
    ⟨{ State.reset with power := { State.reset.power with state := PowerState.holdup } }, 4, inv_of (by decide +kernel), by decide +kernel⟩⟩

/-- A state that meets the hypotheses of EveryStepKeepsInv. -/
theorem witness_EveryStepKeepsInv : ∃ (s t : State), Inv s ∧ step s = .next t :=
  ⟨State.reset, _, inv_of (by decide +kernel), rfl⟩

/-- An entry with WORDS = 0. -/
theorem witness_SeedbedZeroWords : ∃ (entry : Nat), entry / 2 ^ 57 % 32 = 0 := ⟨0x8000000012345678, by decide +kernel⟩

/-- A tile of format 6. -/
theorem witness_SeedbedRoundTrip :
    ∃ (format : Nat) (pls : List Seedbed.Plane) (pl : Seedbed.Plane) (es : List Nat), Seedbed.planes format = some pls ∧ pl ∈ pls ∧
      es.length = pl.count ∧ (∀ e ∈ es, e < 2 ^ (8 * pl.bytes)) :=
  ⟨6, [⟨32, 8, 1, [(0, 8)]⟩], ⟨32, 8, 1, [(0, 8)]⟩, List.replicate 256 255, by decide +kernel, by decide +kernel, by decide +kernel,
    by decide +kernel⟩

end Sys2Proof.Tests
end

section
/-! Proofs of the statements about the whole machine: the frame of every command, the invariant at reset and along every
step, what reset leaves, and the plain register write. -/

namespace Sys2Proof.Machine

/-! ### Every command: it answers a state, changes only its pieces, and keeps the invariant -/

/-- No command faults or is refused. -/
theorem exec_next (i : Instr) (s : State) : ∃ t, exec i s = .next t := by
  cases i <;> exact ⟨_, rfl⟩

/-- The frame laws of the commands under the one dispatcher, one arm for each command. -/
theorem exec_only {s t : State} : (i : Instr) → exec i s = .next t → OnlyChanges s t (pieces i)
  | .registerWrite w, e => execRegisterWrite_only w e
  | .wideRegisterWrite w lows, e => execWideRegisterWrite_only w lows e
  | .wideRegisterLowRead r, e => execWideRegisterLowRead_only r e
  | .counterLoRead r, e => execCounterLoRead_only r e
  | .pgEnableWrite w, e => execPgEnableWrite_only w e
  | .pgSoftReset w, e => execPgSoftReset_only w e
  | .pgLock w, e => execPgLock_only w e
  | .pgUnlock w, e => execPgUnlock_only w e
  | .evtRawClear w, e => execEvtRawClear_only w e
  | .evtSetWrite w, e => execEvtSetWrite_only w e
  | .evtEnWrite w, e => execEvtEnWrite_only w e
  | .evtRouteWrite w, e => execEvtRouteWrite_only w e
  | .errCodeClear w, e => execErrCodeClear_only w e
  | .shadowGroupWrite w, e => execShadowGroupWrite_only w e
  | .shadowDiscard w, e => execShadowDiscard_only w e
  | .ownerWrite w, e => execOwnerWrite_only w e
  | .chkOwnerWrite w, e => execChkOwnerWrite_only w e
  | .channelCreate c, e => execChannelCreate_only c e
  | .channelDestroy c, e => execChannelDestroy_only c e
  | .bufferAlloc c, e => execBufferAlloc_only c e
  | .bufferFree c, e => execBufferFree_only c e
  | .bufferQuery c, e => execBufferQuery_only c e
  | .plotFillDone, e => execPlotFillDone_only e
  | .poolEnable w, e => execPoolEnable_only w e
  | .poolFnQuotaWrite w, e => execPoolFnQuotaWrite_only w e
  | .poolFnShareWrite w, e => execPoolFnShareWrite_only w e
  | .chnFnLimitWrite w, e => execChnFnLimitWrite_only w e
  | .poolLowMarkWrite w, e => execPoolLowMarkWrite_only w e
  | .poolFnPeakClear w, e => execPoolFnPeakClear_only w e
  | .watermarkSet w, e => execWatermarkSet_only w e
  | .wldDenyClear w, e => execWldDenyClear_only w e
  | .wldHoldWrite w, e => execWldHoldWrite_only w e
  | .gateEntry core call, e => execGateEntry_only core call e
  | .gateReturn core r0 r1, e => execGateReturn_only core r0 r1 e
  | .gateTimeout core, e => execGateTimeout_only core e
  | .pmcClear w, e => execPmcClear_only w e
  | .sqDoorbell w, e => execSqDoorbell_only w e
  | .cqDoorbell w, e => execCqDoorbell_only w e
  | .queueEnable w, e => execQueueEnable_only w e
  | .queueDisable w, e => execQueueDisable_only w e
  | .peerAccess fn rid off wr, e => execPeerAccess_only fn rid off wr e
  | .commandFetch port entry, e => execCommandFetch_only port entry e
  | .coalesceTimeout fn q, e => execCoalesceTimeout_only fn q e
  | .nop c, e => execNop_only c e
  | .fnReset c, e => execFnReset_only c e
  | .fnQuery c, e => execFnQuery_only c e
  | .flr fn, e => execFlr_only fn e
  | .vfEnableCleared port, e => execVfEnableCleared_only port e
  | .vfEnableSet port n, e => execVfEnableSet_only port n e
  | .vfSoftReset w, e => execVfSoftReset_only w e
  | .hpPfResetStart w, e => execHpPfResetStart_only w e
  | .hpSoftReset w, e => execHpSoftReset_only w e
  | .fnResetPoolStep fn, e => execFnResetPoolStep_only fn e
  | .fnResetQueueStep fn, e => execFnResetQueueStep_only fn e
  | .portLinkDown port, e => execPortLinkDown_only port e
  | .portLinkUp port speed width, e => execPortLinkUp_only port speed width e
  | .hpMgrRoleWrite w, e => execHpMgrRoleWrite_only w e
  | .ingest c, e => execIngest_only c e
  | .ingestStart engine slot, e => execIngestStart_only engine slot e
  | .hostReadError engine slot kind addr tiles host, e => execHostReadError_only engine slot kind addr tiles host e
  | .ingestDone engine slot host, e => execIngestDone_only engine slot host e
  | .ingSoftReset w, e => execIngSoftReset_only w e
  | .pipeLutDataAccess w isRead, e => execPipeLutDataAccess_only w isRead e
  | .pipeSclDataAccess w isRead, e => execPipeSclDataAccess_only w isRead e
  | .slotLutDataAccess w isRead, e => execSlotLutDataAccess_only w isRead e
  | .lineComposeStart out, e => execLineComposeStart_only out e
  | .commit c, e => execCommit_only c e
  | .applyLine out, e => execApplyLine_only out e
  | .frameDone out, e => execFrameDone_only out e
  | .commitAckTimeout recNo, e => execCommitAckTimeout_only recNo e
  | .scanOutStart w, e => execScanOutStart_only w e
  | .scanOutCounterStart out, e => execScanOutCounterStart_only out e
  | .scanOutStopRequest w, e => execScanOutStopRequest_only w e
  | .scnSoftReset w, e => execScnSoftReset_only w e
  | .scanLineStart out phase m, e => execScanLineStart_only out phase m e
  | .furrowArrival out slot plane row clock m, e => execFurrowArrival_only out slot plane row clock m e
  | .headlandStart out, e => execHeadlandStart_only out e
  | .vsync out, e => execVsync_only out e
  | .headlandEnd out, e => execHeadlandEnd_only out e
  | .lineMatch out index, e => execLineMatch_only out index e
  | .vrrDecision out, e => execVrrDecision_only out e
  | .genlockWrite w, e => execGenlockWrite_only w e
  | .dplEnable w, e => execDplEnable_only w e
  | .dplDisable w, e => execDplDisable_only w e
  | .hpdPlug out sink blockPred, e => execHpdPlug_only out sink blockPred e
  | .hpdIrq out lost, e => execHpdIrq_only out lost e
  | .hpdUnplug out, e => execHpdUnplug_only out e
  | .trainingAttemptEnd out ok, e => execTrainingAttemptEnd_only out ok e
  | .linkLoss out, e => execLinkLoss_only out e
  | .auxGo w, e => execAuxGo_only w e
  | .auxReply out reply bytes data, e => execAuxReply_only out reply bytes data e
  | .auxReplyTimeout out, e => execAuxReplyTimeout_only out e
  | .ppsDataRead r, e => execPpsDataRead_only r e
  | .dplIdleHoldEnd out, e => execDplIdleHoldEnd_only out e
  | .scan c, e => execScan_only c e
  | .scanStart engine slot, e => execScanStart_only engine slot e
  | .scanDone engine slot, e => execScanDone_only engine slot e
  | .checkRegionFinal out region, e => execCheckRegionFinal_only out region e
  | .dramRequest q, e => execDramRequest_only q e
  | .dramRequestComplete ch, e => execDramRequestComplete_only ch e
  | .refreshDue ch, e => execRefreshDue_only ch e
  | .mr4Poll ch rate hot, e => execMr4Poll_only ch rate hot e
  | .retrainStart ch cause, e => execRetrainStart_only ch cause e
  | .dmcTrainStartWrite w, e => execDmcTrainStartWrite_only w e
  | .retrainEnd ch pause eyes readBack, e => execRetrainEnd_only ch pause eyes readBack e
  | .dramPowerDown ch, e => execDramPowerDown_only ch e
  | .dmcPortTargetAll w, e => execDmcPortTargetAll_only w e
  | .dmcPortMaxlatClear w, e => execDmcPortMaxlatClear_only w e
  | .dmcDebtMaxClear w, e => execDmcDebtMaxClear_only w e
  | .dmcStopWrite w, e => execDmcStopWrite_only w e
  | .regionsSet w, e => execRegionsSet_only w e
  | .edacLogRelease w, e => execEdacLogRelease_only w e
  | .edacLogClearAll w, e => execEdacLogClearAll_only w e
  | .edacRetirePlot w, e => execEdacRetirePlot_only w e
  | .edacRetireBank w, e => execEdacRetireBank_only w e
  | .retireBankDone, e => execRetireBankDone_only e
  | .tchEnable w, e => execTchEnable_only w e
  | .tchPanelEnable w, e => execTchPanelEnable_only w e
  | .tchPanelDisable w, e => execTchPanelDisable_only w e
  | .tchSoftReset w, e => execTchSoftReset_only w e
  | .touchFrameStart engine, e => execTouchFrameStart_only engine e
  | .touchPanelScanEnd engine panel m listen cand, e => execTouchPanelScanEnd_only engine panel m listen cand e
  | .touchSnapshot engine panel, e => execTouchSnapshot_only engine panel e
  | .captureRef w, e => execCaptureRef_only w e
  | .tchNodeDataAccess w isRead, e => execTchNodeDataAccess_only w isRead e
  | .tchBufWrite w, e => execTchBufWrite_only w e
  | .hapticPlay c, e => execHapticPlay_only c e
  | .touchRule c, e => execTouchRule_only c e
  | .ruleMatch, e => execRuleMatch_only e
  | .clipLoadDone, e => execClipLoadDone_only e
  | .controlPeriod ch adcA adcI carrier, e => execControlPeriod_only ch adcA adcI carrier e
  | .tapSample tap sample, e => execTapSample_only tap sample e
  | .hapChannelEnable w, e => execHapChannelEnable_only w e
  | .calStart w, e => execCalStart_only w e
  | .calDone ch freq peak, e => execCalDone_only ch freq peak e
  | .audioQueue c, e => execAudioQueue_only c e
  | .audioBlockBoundary domain inputs sync, e => execAudioBlockBoundary_only domain inputs sync e
  | .routeApply w, e => execRouteApply_only w e
  | .bridgePrimed bridge, e => execBridgePrimed_only bridge e
  | .tdmPortEnable w, e => execTdmPortEnable_only w e
  | .busEnableWrite w, e => execBusEnableWrite_only w e
  | .streamDisable w, e => execStreamDisable_only w e
  | .streamChannelWrite w, e => execStreamChannelWrite_only w e
  | .domainHoldover domain, e => execDomainHoldover_only domain e
  | .domainRelock domain, e => execDomainRelock_only domain e
  | .tdmSlip port, e => execTdmSlip_only port e
  | .tdmClockLost port, e => execTdmClockLost_only port e
  | .aud0SoftReset w, e => execAud0SoftReset_only w e
  | .guyInEdge asserted, e => execGuyInEdge_only asserted e
  | .guyFilterExpiry, e => execGuyFilterExpiry_only e
  | .collision, e => execCollision_only e
  | .collisionTimeout, e => execCollisionTimeout_only e
  | .collisionBackoffEnd, e => execCollisionBackoffEnd_only e
  | .waitingTimeout, e => execWaitingTimeout_only e
  | .ploliaLinkUp speed width h b, e => execPloliaLinkUp_only speed width h b e
  | .replayTimeout, e => execReplayTimeout_only e
  | .nullFlit h, e => execNullFlit_only h e
  | .heartbeatSend, e => execHeartbeatSend_only e
  | .heartbeat h b slow, e => execHeartbeat_only h b slow e
  | .heartbeatTimeout, e => execHeartbeatTimeout_only e
  | .joinRequest h config, e => execJoinRequest_only h config e
  | .joinAccept h, e => execJoinAccept_only h e
  | .joinRefuse h reason, e => execJoinRefuse_only h reason e
  | .syncDone h, e => execSyncDone_only h e
  | .resyncSendDone, e => execResyncSendDone_only e
  | .handoverOffer h count, e => execHandoverOffer_only h count e
  | .handoverReady h, e => execHandoverReady_only h e
  | .handoverRefusal h reason, e => execHandoverRefusal_only h reason e
  | .plkHandover w, e => execPlkHandover_only w e
  | .handoverDrained, e => execHandoverDrained_only e
  | .handoverDrainTimeout, e => execHandoverDrainTimeout_only e
  | .plkResync w, e => execPlkResync_only w e
  | .plkRetrain w, e => execPlkRetrain_only w e
  | .plkClearGuyFault w, e => execPlkClearGuyFault_only w e
  | .timeSyncDue, e => execTimeSyncDue_only e
  | .timeSyncRequest h t1, e => execTimeSyncRequest_only h t1 e
  | .timeSyncReply h t1 t2 t3, e => execTimeSyncReply_only h t1 t2 t3 e
  | .timeSyncFrame h out seq ta, e => execTimeSyncFrame_only h out seq ta e
  | .timeSyncVrr h out seq line proceed, e => execTimeSyncVrr_only h out seq line proceed e
  | .commitArmRecord h recNo group fn entries fin, e => execCommitArmRecord_only h recNo group fn entries fin e
  | .commitArmApply h recNo frame, e => execCommitArmApply_only h recNo frame e
  | .commitArmDrop h recNo, e => execCommitArmDrop_only h recNo e
  | .commitAckHeld h recNo, e => execCommitAckHeld_only h recNo e
  | .commitAckApplied h recNo frame, e => execCommitAckApplied_only h recNo frame e
  | .stateDigest h d, e => execStateDigest_only h d e
  | .mirrorWrite h m, e => execMirrorWrite_only h m e
  | .wakeFlit h sub arg result, e => execWakeFlit_only h sub arg result e
  | .pwrReqRun w, e => execPwrReqRun_only w e
  | .pwrReqIdle w, e => execPwrReqIdle_only w e
  | .pwrReqFallow w, e => execPwrReqFallow_only w e
  | .pwrReqOff w, e => execPwrReqOff_only w e
  | .fallowDrainDone, e => execFallowDrainDone_only e
  | .fallowDrainTimeout, e => execFallowDrainTimeout_only e
  | .wakeTlp port result, e => execWakeTlp_only port result e
  | .wakePin result, e => execWakePin_only result e
  | .motionEdge level result, e => execMotionEdge_only level result e
  | .canWakeUp result, e => execCanWakeUp_only result e
  | .alarmFire result, e => execAlarmFire_only result e
  | .wakeStepTimeout reason item entries, e => execWakeStepTimeout_only reason item entries e
  | .wakeRetry result, e => execWakeRetry_only result e
  | .sag, e => execSag_only e
  | .pointOfNoReturn supplyGood, e => execPointOfNoReturn_only supplyGood e
  | .mramSaveDone err, e => execMramSaveDone_only err e
  | .vholdExhausted, e => execVholdExhausted_only e
  | .supplyReturn, e => execSupplyReturn_only e
  | .pwrIslWrite w, e => execPwrIslWrite_only w e
  | .pwrSaveAdd w, e => execPwrSaveAdd_only w e
  | .pwrSaveClear w, e => execPwrSaveClear_only w e
  | .vholdMeasure mv capUf mohm meets, e => execVholdMeasure_only mv capUf mohm meets e
  | .timCalInterval c, e => execTimCalInterval_only c e
  | .timSet w, e => execTimSet_only w e
  | .aonAlarmArm w, e => execAonAlarmArm_only w e
  | .aonPmbGo w, e => execAonPmbGo_only w e
  | .pmbDone ok pec data, e => execPmbDone_only ok pec data e
  | .ageSurveyRequest w, e => execAgeSurveyRequest_only w e
  | .surveyEnd tj m, e => execSurveyEnd_only tj m e
  | .marginAlarm island, e => execMarginAlarm_only island e
  | .planVoltageStep, e => execPlanVoltageStep_only e
  | .poweredHour, e => execPoweredHour_only e
  | .surveyDeferEnd, e => execSurveyDeferEnd_only e
  | .updOpen w, e => execUpdOpen_only w e
  | .updStage w, e => execUpdStage_only w e
  | .updVerify w, e => execUpdVerify_only w e
  | .updActivate w, e => execUpdActivate_only w e
  | .updAbort w, e => execUpdAbort_only w e
  | .updClose w, e => execUpdClose_only w e
  | .updSessionTimeout, e => execUpdSessionTimeout_only e
  | .updUnlock w, e => execUpdUnlock_only w e
  | .trialConfirmed, e => execTrialConfirmed_only e
  | .trialTimeout, e => execTrialTimeout_only e
  | .microcodeTargetLoad ok, e => execMicrocodeTargetLoad_only ok e
  | .aonPowerOn, e => execAonPowerOn_only e
  | .resetNAssert, e => execResetNAssert_only e
  | .sysRestart w, e => execSysRestart_only w e
  | .resetRelease, e => execResetRelease_only e
  | .startupPhaseEnd l, e => execStartupPhaseEnd_only l e
  | .sysEarlyEnd w, e => execSysEarlyEnd_only w e
  | .faultReport src sram cls code info fn act, e => execFaultReport_only src sram cls code info fn act e
  | .deviceFatalFault source, e => execDeviceFatalFault_only source e
  | .fatalRestart, e => execFatalRestart_only e
  | .watchdogExpiry, e => execWatchdogExpiry_only e
  | .referenceLoss, e => execReferenceLoss_only e
  | .thermtrip, e => execThermtrip_only e
  | .logClear w, e => execLogClear_only w e
  | .flitCrcFailure crc reserved, e => execFlitCrcFailure_only crc reserved e
  | .ploliaRecoveryDone, e => execPloliaRecoveryDone_only e
  | .mirrorFlitSend, e => execMirrorFlitSend_only e
  | .updCmdDone genuine, e => execUpdCmdDone_only genuine e
  | .msixVectorUnmask fn vec, e => execMsixVectorUnmask_only fn vec e
  | .groupWakeDone group, e => execGroupWakeDone_only group e

/-- The invariance laws of the commands under the one dispatcher, one arm for each command. -/
theorem exec_sound {p : Part} {q : List Instr} {s t : State} (hs : Sound p q s) :
    (i : Instr) → exec i s = .next t → Sound p q t
  | .registerWrite w, e => execRegisterWrite_sound w e hs
  | .wideRegisterWrite w lows, e => execWideRegisterWrite_sound w lows e hs
  | .wideRegisterLowRead r, e => execWideRegisterLowRead_sound r e hs
  | .counterLoRead r, e => execCounterLoRead_sound r e hs
  | .pgEnableWrite w, e => execPgEnableWrite_sound w e hs
  | .pgSoftReset w, e => execPgSoftReset_sound w e hs
  | .pgLock w, e => execPgLock_sound w e hs
  | .pgUnlock w, e => execPgUnlock_sound w e hs
  | .evtRawClear w, e => execEvtRawClear_sound w e hs
  | .evtSetWrite w, e => execEvtSetWrite_sound w e hs
  | .evtEnWrite w, e => execEvtEnWrite_sound w e hs
  | .evtRouteWrite w, e => execEvtRouteWrite_sound w e hs
  | .errCodeClear w, e => execErrCodeClear_sound w e hs
  | .shadowGroupWrite w, e => execShadowGroupWrite_sound w e hs
  | .shadowDiscard w, e => execShadowDiscard_sound w e hs
  | .ownerWrite w, e => execOwnerWrite_sound w e hs
  | .chkOwnerWrite w, e => execChkOwnerWrite_sound w e hs
  | .channelCreate c, e => execChannelCreate_sound c e hs
  | .channelDestroy c, e => execChannelDestroy_sound c e hs
  | .bufferAlloc c, e => execBufferAlloc_sound c e hs
  | .bufferFree c, e => execBufferFree_sound c e hs
  | .bufferQuery c, e => execBufferQuery_sound c e hs
  | .plotFillDone, e => execPlotFillDone_sound e hs
  | .poolEnable w, e => execPoolEnable_sound w e hs
  | .poolFnQuotaWrite w, e => execPoolFnQuotaWrite_sound w e hs
  | .poolFnShareWrite w, e => execPoolFnShareWrite_sound w e hs
  | .chnFnLimitWrite w, e => execChnFnLimitWrite_sound w e hs
  | .poolLowMarkWrite w, e => execPoolLowMarkWrite_sound w e hs
  | .poolFnPeakClear w, e => execPoolFnPeakClear_sound w e hs
  | .watermarkSet w, e => execWatermarkSet_sound w e hs
  | .wldDenyClear w, e => execWldDenyClear_sound w e hs
  | .wldHoldWrite w, e => execWldHoldWrite_sound w e hs
  | .gateEntry core call, e => execGateEntry_sound core call e hs
  | .gateReturn core r0 r1, e => execGateReturn_sound core r0 r1 e hs
  | .gateTimeout core, e => execGateTimeout_sound core e hs
  | .pmcClear w, e => execPmcClear_sound w e hs
  | .sqDoorbell w, e => execSqDoorbell_sound w e hs
  | .cqDoorbell w, e => execCqDoorbell_sound w e hs
  | .queueEnable w, e => execQueueEnable_sound w e hs
  | .queueDisable w, e => execQueueDisable_sound w e hs
  | .peerAccess fn rid off wr, e => execPeerAccess_sound fn rid off wr e hs
  | .commandFetch port entry, e => execCommandFetch_sound port entry e hs
  | .coalesceTimeout fn q, e => execCoalesceTimeout_sound fn q e hs
  | .nop c, e => execNop_sound c e hs
  | .fnReset c, e => execFnReset_sound c e hs
  | .fnQuery c, e => execFnQuery_sound c e hs
  | .flr fn, e => execFlr_sound fn e hs
  | .vfEnableCleared port, e => execVfEnableCleared_sound port e hs
  | .vfEnableSet port n, e => execVfEnableSet_sound port n e hs
  | .vfSoftReset w, e => execVfSoftReset_sound w e hs
  | .hpPfResetStart w, e => execHpPfResetStart_sound w e hs
  | .hpSoftReset w, e => execHpSoftReset_sound w e hs
  | .fnResetPoolStep fn, e => execFnResetPoolStep_sound fn e hs
  | .fnResetQueueStep fn, e => execFnResetQueueStep_sound fn e hs
  | .portLinkDown port, e => execPortLinkDown_sound port e hs
  | .portLinkUp port speed width, e => execPortLinkUp_sound port speed width e hs
  | .hpMgrRoleWrite w, e => execHpMgrRoleWrite_sound w e hs
  | .ingest c, e => execIngest_sound c e hs
  | .ingestStart engine slot, e => execIngestStart_sound engine slot e hs
  | .hostReadError engine slot kind addr tiles host, e => execHostReadError_sound engine slot kind addr tiles host e hs
  | .ingestDone engine slot host, e => execIngestDone_sound engine slot host e hs
  | .ingSoftReset w, e => execIngSoftReset_sound w e hs
  | .pipeLutDataAccess w isRead, e => execPipeLutDataAccess_sound w isRead e hs
  | .pipeSclDataAccess w isRead, e => execPipeSclDataAccess_sound w isRead e hs
  | .slotLutDataAccess w isRead, e => execSlotLutDataAccess_sound w isRead e hs
  | .lineComposeStart out, e => execLineComposeStart_sound out e hs
  | .commit c, e => execCommit_sound c e hs
  | .applyLine out, e => execApplyLine_sound out e hs
  | .frameDone out, e => execFrameDone_sound out e hs
  | .commitAckTimeout recNo, e => execCommitAckTimeout_sound recNo e hs
  | .scanOutStart w, e => execScanOutStart_sound w e hs
  | .scanOutCounterStart out, e => execScanOutCounterStart_sound out e hs
  | .scanOutStopRequest w, e => execScanOutStopRequest_sound w e hs
  | .scnSoftReset w, e => execScnSoftReset_sound w e hs
  | .scanLineStart out phase m, e => execScanLineStart_sound out phase m e hs
  | .furrowArrival out slot plane row clock m, e => execFurrowArrival_sound out slot plane row clock m e hs
  | .headlandStart out, e => execHeadlandStart_sound out e hs
  | .vsync out, e => execVsync_sound out e hs
  | .headlandEnd out, e => execHeadlandEnd_sound out e hs
  | .lineMatch out index, e => execLineMatch_sound out index e hs
  | .vrrDecision out, e => execVrrDecision_sound out e hs
  | .genlockWrite w, e => execGenlockWrite_sound w e hs
  | .dplEnable w, e => execDplEnable_sound w e hs
  | .dplDisable w, e => execDplDisable_sound w e hs
  | .hpdPlug out sink blockPred, e => execHpdPlug_sound out sink blockPred e hs
  | .hpdIrq out lost, e => execHpdIrq_sound out lost e hs
  | .hpdUnplug out, e => execHpdUnplug_sound out e hs
  | .trainingAttemptEnd out ok, e => execTrainingAttemptEnd_sound out ok e hs
  | .linkLoss out, e => execLinkLoss_sound out e hs
  | .auxGo w, e => execAuxGo_sound w e hs
  | .auxReply out reply bytes data, e => execAuxReply_sound out reply bytes data e hs
  | .auxReplyTimeout out, e => execAuxReplyTimeout_sound out e hs
  | .ppsDataRead r, e => execPpsDataRead_sound r e hs
  | .dplIdleHoldEnd out, e => execDplIdleHoldEnd_sound out e hs
  | .scan c, e => execScan_sound c e hs
  | .scanStart engine slot, e => execScanStart_sound engine slot e hs
  | .scanDone engine slot, e => execScanDone_sound engine slot e hs
  | .checkRegionFinal out region, e => execCheckRegionFinal_sound out region e hs
  | .dramRequest q, e => execDramRequest_sound q e hs
  | .dramRequestComplete ch, e => execDramRequestComplete_sound ch e hs
  | .refreshDue ch, e => execRefreshDue_sound ch e hs
  | .mr4Poll ch rate hot, e => execMr4Poll_sound ch rate hot e hs
  | .retrainStart ch cause, e => execRetrainStart_sound ch cause e hs
  | .dmcTrainStartWrite w, e => execDmcTrainStartWrite_sound w e hs
  | .retrainEnd ch pause eyes readBack, e => execRetrainEnd_sound ch pause eyes readBack e hs
  | .dramPowerDown ch, e => execDramPowerDown_sound ch e hs
  | .dmcPortTargetAll w, e => execDmcPortTargetAll_sound w e hs
  | .dmcPortMaxlatClear w, e => execDmcPortMaxlatClear_sound w e hs
  | .dmcDebtMaxClear w, e => execDmcDebtMaxClear_sound w e hs
  | .dmcStopWrite w, e => execDmcStopWrite_sound w e hs
  | .regionsSet w, e => execRegionsSet_sound w e hs
  | .edacLogRelease w, e => execEdacLogRelease_sound w e hs
  | .edacLogClearAll w, e => execEdacLogClearAll_sound w e hs
  | .edacRetirePlot w, e => execEdacRetirePlot_sound w e hs
  | .edacRetireBank w, e => execEdacRetireBank_sound w e hs
  | .retireBankDone, e => execRetireBankDone_sound e hs
  | .tchEnable w, e => execTchEnable_sound w e hs
  | .tchPanelEnable w, e => execTchPanelEnable_sound w e hs
  | .tchPanelDisable w, e => execTchPanelDisable_sound w e hs
  | .tchSoftReset w, e => execTchSoftReset_sound w e hs
  | .touchFrameStart engine, e => execTouchFrameStart_sound engine e hs
  | .touchPanelScanEnd engine panel m listen cand, e => execTouchPanelScanEnd_sound engine panel m listen cand e hs
  | .touchSnapshot engine panel, e => execTouchSnapshot_sound engine panel e hs
  | .captureRef w, e => execCaptureRef_sound w e hs
  | .tchNodeDataAccess w isRead, e => execTchNodeDataAccess_sound w isRead e hs
  | .tchBufWrite w, e => execTchBufWrite_sound w e hs
  | .hapticPlay c, e => execHapticPlay_sound c e hs
  | .touchRule c, e => execTouchRule_sound c e hs
  | .ruleMatch, e => execRuleMatch_sound e hs
  | .clipLoadDone, e => execClipLoadDone_sound e hs
  | .controlPeriod ch adcA adcI carrier, e => execControlPeriod_sound ch adcA adcI carrier e hs
  | .tapSample tap sample, e => execTapSample_sound tap sample e hs
  | .hapChannelEnable w, e => execHapChannelEnable_sound w e hs
  | .calStart w, e => execCalStart_sound w e hs
  | .calDone ch freq peak, e => execCalDone_sound ch freq peak e hs
  | .audioQueue c, e => execAudioQueue_sound c e hs
  | .audioBlockBoundary domain inputs sync, e => execAudioBlockBoundary_sound domain inputs sync e hs
  | .routeApply w, e => execRouteApply_sound w e hs
  | .bridgePrimed bridge, e => execBridgePrimed_sound bridge e hs
  | .tdmPortEnable w, e => execTdmPortEnable_sound w e hs
  | .busEnableWrite w, e => execBusEnableWrite_sound w e hs
  | .streamDisable w, e => execStreamDisable_sound w e hs
  | .streamChannelWrite w, e => execStreamChannelWrite_sound w e hs
  | .domainHoldover domain, e => execDomainHoldover_sound domain e hs
  | .domainRelock domain, e => execDomainRelock_sound domain e hs
  | .tdmSlip port, e => execTdmSlip_sound port e hs
  | .tdmClockLost port, e => execTdmClockLost_sound port e hs
  | .aud0SoftReset w, e => execAud0SoftReset_sound w e hs
  | .guyInEdge asserted, e => execGuyInEdge_sound asserted e hs
  | .guyFilterExpiry, e => execGuyFilterExpiry_sound e hs
  | .collision, e => execCollision_sound e hs
  | .collisionTimeout, e => execCollisionTimeout_sound e hs
  | .collisionBackoffEnd, e => execCollisionBackoffEnd_sound e hs
  | .waitingTimeout, e => execWaitingTimeout_sound e hs
  | .ploliaLinkUp speed width h b, e => execPloliaLinkUp_sound speed width h b e hs
  | .replayTimeout, e => execReplayTimeout_sound e hs
  | .nullFlit h, e => execNullFlit_sound h e hs
  | .heartbeatSend, e => execHeartbeatSend_sound e hs
  | .heartbeat h b slow, e => execHeartbeat_sound h b slow e hs
  | .heartbeatTimeout, e => execHeartbeatTimeout_sound e hs
  | .joinRequest h config, e => execJoinRequest_sound h config e hs
  | .joinAccept h, e => execJoinAccept_sound h e hs
  | .joinRefuse h reason, e => execJoinRefuse_sound h reason e hs
  | .syncDone h, e => execSyncDone_sound h e hs
  | .resyncSendDone, e => execResyncSendDone_sound e hs
  | .handoverOffer h count, e => execHandoverOffer_sound h count e hs
  | .handoverReady h, e => execHandoverReady_sound h e hs
  | .handoverRefusal h reason, e => execHandoverRefusal_sound h reason e hs
  | .plkHandover w, e => execPlkHandover_sound w e hs
  | .handoverDrained, e => execHandoverDrained_sound e hs
  | .handoverDrainTimeout, e => execHandoverDrainTimeout_sound e hs
  | .plkResync w, e => execPlkResync_sound w e hs
  | .plkRetrain w, e => execPlkRetrain_sound w e hs
  | .plkClearGuyFault w, e => execPlkClearGuyFault_sound w e hs
  | .timeSyncDue, e => execTimeSyncDue_sound e hs
  | .timeSyncRequest h t1, e => execTimeSyncRequest_sound h t1 e hs
  | .timeSyncReply h t1 t2 t3, e => execTimeSyncReply_sound h t1 t2 t3 e hs
  | .timeSyncFrame h out seq ta, e => execTimeSyncFrame_sound h out seq ta e hs
  | .timeSyncVrr h out seq line proceed, e => execTimeSyncVrr_sound h out seq line proceed e hs
  | .commitArmRecord h recNo group fn entries fin, e => execCommitArmRecord_sound h recNo group fn entries fin e hs
  | .commitArmApply h recNo frame, e => execCommitArmApply_sound h recNo frame e hs
  | .commitArmDrop h recNo, e => execCommitArmDrop_sound h recNo e hs
  | .commitAckHeld h recNo, e => execCommitAckHeld_sound h recNo e hs
  | .commitAckApplied h recNo frame, e => execCommitAckApplied_sound h recNo frame e hs
  | .stateDigest h d, e => execStateDigest_sound h d e hs
  | .mirrorWrite h m, e => execMirrorWrite_sound h m e hs
  | .wakeFlit h sub arg result, e => execWakeFlit_sound h sub arg result e hs
  | .pwrReqRun w, e => execPwrReqRun_sound w e hs
  | .pwrReqIdle w, e => execPwrReqIdle_sound w e hs
  | .pwrReqFallow w, e => execPwrReqFallow_sound w e hs
  | .pwrReqOff w, e => execPwrReqOff_sound w e hs
  | .fallowDrainDone, e => execFallowDrainDone_sound e hs
  | .fallowDrainTimeout, e => execFallowDrainTimeout_sound e hs
  | .wakeTlp port result, e => execWakeTlp_sound port result e hs
  | .wakePin result, e => execWakePin_sound result e hs
  | .motionEdge level result, e => execMotionEdge_sound level result e hs
  | .canWakeUp result, e => execCanWakeUp_sound result e hs
  | .alarmFire result, e => execAlarmFire_sound result e hs
  | .wakeStepTimeout reason item entries, e => execWakeStepTimeout_sound reason item entries e hs
  | .wakeRetry result, e => execWakeRetry_sound result e hs
  | .sag, e => execSag_sound e hs
  | .pointOfNoReturn supplyGood, e => execPointOfNoReturn_sound supplyGood e hs
  | .mramSaveDone err, e => execMramSaveDone_sound err e hs
  | .vholdExhausted, e => execVholdExhausted_sound e hs
  | .supplyReturn, e => execSupplyReturn_sound e hs
  | .pwrIslWrite w, e => execPwrIslWrite_sound w e hs
  | .pwrSaveAdd w, e => execPwrSaveAdd_sound w e hs
  | .pwrSaveClear w, e => execPwrSaveClear_sound w e hs
  | .vholdMeasure mv capUf mohm meets, e => execVholdMeasure_sound mv capUf mohm meets e hs
  | .timCalInterval c, e => execTimCalInterval_sound c e hs
  | .timSet w, e => execTimSet_sound w e hs
  | .aonAlarmArm w, e => execAonAlarmArm_sound w e hs
  | .aonPmbGo w, e => execAonPmbGo_sound w e hs
  | .pmbDone ok pec data, e => execPmbDone_sound ok pec data e hs
  | .ageSurveyRequest w, e => execAgeSurveyRequest_sound w e hs
  | .surveyEnd tj m, e => execSurveyEnd_sound tj m e hs
  | .marginAlarm island, e => execMarginAlarm_sound island e hs
  | .planVoltageStep, e => execPlanVoltageStep_sound e hs
  | .poweredHour, e => execPoweredHour_sound e hs
  | .surveyDeferEnd, e => execSurveyDeferEnd_sound e hs
  | .updOpen w, e => execUpdOpen_sound w e hs
  | .updStage w, e => execUpdStage_sound w e hs
  | .updVerify w, e => execUpdVerify_sound w e hs
  | .updActivate w, e => execUpdActivate_sound w e hs
  | .updAbort w, e => execUpdAbort_sound w e hs
  | .updClose w, e => execUpdClose_sound w e hs
  | .updSessionTimeout, e => execUpdSessionTimeout_sound e hs
  | .updUnlock w, e => execUpdUnlock_sound w e hs
  | .trialConfirmed, e => execTrialConfirmed_sound e hs
  | .trialTimeout, e => execTrialTimeout_sound e hs
  | .microcodeTargetLoad ok, e => execMicrocodeTargetLoad_sound ok e hs
  | .aonPowerOn, e => execAonPowerOn_sound e hs
  | .resetNAssert, e => execResetNAssert_sound e hs
  | .sysRestart w, e => execSysRestart_sound w e hs
  | .resetRelease, e => execResetRelease_sound e hs
  | .startupPhaseEnd l, e => execStartupPhaseEnd_sound l e hs
  | .sysEarlyEnd w, e => execSysEarlyEnd_sound w e hs
  | .faultReport src sram cls code info fn act, e => execFaultReport_sound src sram cls code info fn act e hs
  | .deviceFatalFault source, e => execDeviceFatalFault_sound source e hs
  | .fatalRestart, e => execFatalRestart_sound e hs
  | .watchdogExpiry, e => execWatchdogExpiry_sound e hs
  | .referenceLoss, e => execReferenceLoss_sound e hs
  | .thermtrip, e => execThermtrip_sound e hs
  | .logClear w, e => execLogClear_sound w e hs
  | .flitCrcFailure crc reserved, e => execFlitCrcFailure_sound crc reserved e hs
  | .ploliaRecoveryDone, e => execPloliaRecoveryDone_sound e hs
  | .mirrorFlitSend, e => execMirrorFlitSend_sound e hs
  | .updCmdDone genuine, e => execUpdCmdDone_sound genuine e hs
  | .msixVectorUnmask fn vec, e => execMsixVectorUnmask_sound fn vec e hs
  | .groupWakeDone group, e => execGroupWakeDone_sound group e hs

/-- Settles O54: every command answers a state, and its frame law bounds what it changes. -/
theorem everyCommandKeepsTheRest : Obligations.EveryCommandKeepsTheRest := by
  intro i s
  obtain ⟨t, h⟩ := exec_next i s
  exact ⟨t, h, exec_only i h⟩

/-! ### The invariant -/

/-- Soundness for any part and queue gives the invariant, which names the state's own. -/
theorem Sound.inv {p : Part} {q : List Instr} {s : State} (hs : Sound p q s) : Inv s := by
  unfold Inv
  rw [hs.part, hs.queue]
  exact hs

/-- Nothing but the queue itself depends on the queue. -/
theorem Sound.withPending {p : Part} {q : List Instr} {s : State} (hs : Sound p q s) (rest : List Instr) :
    Sound p rest { s with pending := rest } :=
  ⟨hs.part, rfl, hs.mem, hs.regs, hs.shad, hs.copyRegs, hs.copyShad, hs.flash, hs.time, hs.jobs, hs.tables⟩

/-- With no command waiting, one reference cycle passes. -/
theorem step_of_pending_nil {s : State} (h : s.pending = []) : step s = .next s.tick := by
  unfold step
  rw [h]

/-- With commands waiting, the one at the front runs on the rest. -/
theorem step_of_pending_cons {s : State} {c : Instr} {rest : List Instr} (h : s.pending = c :: rest) :
    step s = exec c { s with pending := rest } := by
  unfold step
  rw [h]

/-- Settles O56: a cycle keeps the invariant, and so does the command at the front, whatever queue it leaves. -/
theorem everyStepKeepsInv : Obligations.EveryStepKeepsInv := by
  intro s t hs h
  cases hp : s.pending with
  | nil =>
    rw [step_of_pending_nil hp] at h
    cases h
    exact (State.tick_sound hs).inv
  | cons c rest =>
    rw [step_of_pending_cons hp] at h
    exact (exec_sound (Sound.withPending hs rest) c h).inv

/-- The register words may be any in canonical form. -/
theorem Sound.withRegs {p : Part} {q : List Instr} {s : State} {regs : Store Word32} (hs : Sound p q s)
    (h : Sparse.wf (resetWord p) regs = true) : Sound p q { s with regs := regs } :=
  ⟨hs.part, hs.queue, hs.mem, h, hs.shad, hs.copyRegs, hs.copyShad, hs.flash, hs.time, hs.jobs, hs.tables⟩

/-- Settles O55: every store and table is empty at reset, and the time counters are 0. -/
theorem invAtReset : Obligations.InvAtReset where
  part := rfl
  queue := rfl
  mem := rfl
  regs := Sparse.wf_nil
  shad := Sparse.wf_nil
  copyRegs := Sparse.wf_nil
  copyShad := Sparse.wf_nil
  flash := Sparse.wf_nil
  time := Time.reset_inRange
  jobs := fun _ hj => nomatch hj
  tables := ⟨rfl, rfl⟩

/-! ### What reset leaves -/

/-- No word is listed at reset, so that each field reads its reset value. -/
theorem fld_reset (pg : Page) (f : Fld) (ix : List Nat) :
    State.reset.fld pg f ix = bits f.hi f.lo (resetWord .sx8400 (pg.key (f.at ix))).toNat := rfl

/-- Settles O57: the state of reset, field by field; the seven register fields by their reset words. -/
theorem resetLeaves : Obligations.ResetLeaves := by
  unfold Obligations.ResetLeaves
  simp only [fld_reset]
  exact ⟨fun _ => rfl, fun _ => rfl, by decide, by decide, by decide, by decide, by decide, by decide, by decide,
    rfl, rfl, rfl, rfl, fun _ => rfl, fun _ => rfl, rfl, rfl, rfl, rfl, rfl, rfl⟩

/-! ### Folds over a list, read at one place -/

/-- A fold of updates none of which changes what `r` reads. -/
theorem foldl_read_of_forall {σ α β : Type} {f : σ → α → σ} (r : σ → β) {l : List α} {s : σ}
    (h : ∀ x ∈ l, ∀ s, r (f s x) = r s) : r (l.foldl f s) = r s := by
  induction l generalizing s with
  | nil => rfl
  | cons a l ih =>
    rw [List.foldl_cons, ih fun x hx => h x (List.mem_cons_of_mem _ hx), h a List.mem_cons_self]

/-- A fold of updates one of which gives what `r` reads its value, which the later ones leave. -/
theorem foldl_read_of_mem {σ α β : Type} {f : σ → α → σ} (r : σ → β) {R : α → α → Prop} {l : List α} {x : α} {v : β} {s : σ}
    (hl : l.Pairwise R) (hx : x ∈ l) (hself : ∀ s, r (f s x) = v) (hother : ∀ y ∈ l, R x y → ∀ s, r (f s y) = r s) :
    r (l.foldl f s) = v := by
  induction l generalizing s with
  | nil => cases hx
  | cons a l ih =>
    obtain ⟨ha, hl⟩ := List.pairwise_cons.1 hl
    rw [List.foldl_cons]
    rcases List.mem_cons.1 hx with rfl | hx
    · rw [foldl_read_of_forall r fun y hy => hother y (List.mem_cons_of_mem _ hy) (ha y hy), hself]
    · exact ih hl hx fun y hy => hother y (List.mem_cons_of_mem _ hy)

/-! ### Fields of one word -/

/-- Two fields of one word have no bit in common. -/
def Fld.Apart (f g : Fld) : Prop := f.hi < g.lo ∨ g.hi < f.lo

theorem Fld.apart_of_ne {l : List Fld} (hl : l.Pairwise Fld.Apart) {f g : Fld} (hf : f ∈ l) (hg : g ∈ l) (h : f ≠ g) : f.Apart g := by
  induction hl with
  | nil => cases hf
  | cons ha _ ih =>
    rcases List.mem_cons.1 hf with rfl | hfl <;> rcases List.mem_cons.1 hg with rfl | hgl
    · exact absurd rfl h
    · exact ha g hgl
    · exact Or.symm (ha f hfl)
    · exact ih hfl hgl

/-- A field is a range of a 32-bit word. -/
def Fld.InWord (f : Fld) : Prop := f.lo ≤ f.hi ∧ f.hi < 32

theorem Fld.bits_setBits_of_apart {f g : Fld} (h : f.Apart g) (hf : f.InWord) (hg : g.InWord) (v x : Nat) :
    bits f.hi f.lo (setBits g.hi g.lo v x) = bits f.hi f.lo v :=
  h.elim (fun h => bits_setBits_below v x h hf.1) (fun h => bits_setBits_above v x h hg.1)

theorem Fld.bits_setBits_bits (f : Fld) (v x : Nat) : bits f.hi f.lo (setBits f.hi f.lo v (bits f.hi f.lo x)) = bits f.hi f.lo x := by
  rw [bits_setBits_self, Nat.mod_eq_of_lt (bits_lt ..)]

namespace State

/-- The word that a write of a field gives its value (R10): the shadow word for an RWS field, else the active word. -/
def target (s : State) (f : Fld) (k : Nat) : Nat := if f.acc = .rws then s.sw k else s.rw k

variable (a : RegAcc) (s : State) {f g : Fld}

theorem target_of_rw {s : State} {k : Nat} (ha : f.acc = .rw) : s.target f k = s.rw k := if_neg (by simp [ha])

theorem target_of_rws {s : State} {k : Nat} (ha : f.acc = .rws) : s.target f k = s.sw k := if_pos ha

theorem rw_applyField_other (f : Fld) {k : Nat} (h : k ≠ a.page.key a.off) : (applyField a s f).rw k = s.rw k := by
  unfold applyField
  cases f.acc <;> simp [rw_setRw_other _ h]

theorem sw_applyField_other (f : Fld) {k : Nat} (h : k ≠ a.page.key a.off) : (applyField a s f).sw k = s.sw k := by
  unfold applyField
  cases f.acc <;> simp [sw_setSw_other _ h]

/-- The write of an RO or RWS field changes no active word. -/
theorem rw_applyField_passive (ha : f.acc = .ro ∨ f.acc = .rws) (k : Nat) : (applyField a s f).rw k = s.rw k := by
  unfold applyField
  rcases ha with ha | ha <;> simp only [ha, rw_setSw]

/-- The write of one field leaves the active value of every field beside it. -/
theorem active_applyField_apart (h : f.Apart g) (hf : f.InWord) (hg : g.InWord) :
    bits f.hi f.lo ((applyField a s g).rw (a.page.key a.off)) = bits f.hi f.lo (s.rw (a.page.key a.off)) := by
  have hw := fun x => Nat.mod_eq_of_lt (setBits_lt x (rw_lt s (a.page.key a.off)) hg.2 hg.1)
  unfold applyField
  cases g.acc <;> simp only [rw_setSw, rw_setRw_self, hw, Fld.bits_setBits_of_apart h hf hg]

/-- The write of one field leaves the shadow of every field beside it. -/
theorem shadow_applyField_apart (h : f.Apart g) (hf : f.InWord) (hg : g.InWord) :
    bits f.hi f.lo ((applyField a s g).sw (a.page.key a.off)) = bits f.hi f.lo (s.sw (a.page.key a.off)) := by
  have hw := fun x => Nat.mod_eq_of_lt (setBits_lt x (sw_lt s (a.page.key a.off)) hg.2 hg.1)
  unfold applyField
  cases g.acc <;> simp only [sw_setRw, sw_setSw_self, hw, Fld.bits_setBits_of_apart h hf hg]

theorem target_applyField_apart (h : f.Apart g) (hf : f.InWord) (hg : g.InWord) :
    bits f.hi f.lo ((applyField a s g).target f (a.page.key a.off)) = bits f.hi f.lo (s.target f (a.page.key a.off)) := by
  unfold target
  split
  · exact shadow_applyField_apart a s h hf hg
  · exact active_applyField_apart a s h hf hg

/-- R10: the write of an RW or RWS field gives it its value. -/
theorem target_applyField_self (ha : f.acc = .rw ∨ f.acc = .rws) (hf : f.InWord) :
    bits f.hi f.lo ((applyField a s f).target f (a.page.key a.off)) = bits f.hi f.lo a.val := by
  have hr := fun x => Nat.mod_eq_of_lt (setBits_lt x (rw_lt s (a.page.key a.off)) hf.2 hf.1)
  have hs := fun x => Nat.mod_eq_of_lt (setBits_lt x (sw_lt s (a.page.key a.off)) hf.2 hf.1)
  rcases ha with ha | ha
  · simp only [target_of_rw ha, applyField, ha, rw_setRw_self, hr, Fld.bits_setBits_bits]
  · simp only [target_of_rws ha, applyField, ha, sw_setSw_self, hs, Fld.bits_setBits_bits]

/-! ### Plain writes and mirrored ones -/

variable {a s}

theorem mem_writtenFields : f ∈ s.writtenFields a ↔ f ∈ a.page.fieldsAt a.off ∧ s.written a f = true := List.mem_filter

/-- A write none of whose fields is refused applies its written fields in turn. -/
theorem plainWrite_of_unrefused (hsec : (s.writtenFields a).any (s.refusedSec a) = false)
    (hlock : (s.writtenFields a).any (s.refusedLock a) = false) :
    s.plainWrite a = (s.writtenFields a).foldl (applyField a) s := by
  have hg : s.grantedFields a = s.writtenFields a := by
    simp only [List.any_eq_false] at hsec hlock
    exact List.filter_eq_self.2 fun f hf => by simp [hsec f hf, hlock f hf]
  have hkeep : (s.writtenFields a).filter (fun _ => true) = s.writtenFields a := List.filter_eq_self.2 fun _ _ => rfl
  simp only [plainWrite, recRefused, hg, hsec, hlock, hkeep, Bool.false_eq_true, if_false]

@[simp] theorem rw_mirrorWrite (b t : State) (a : RegAcc) (latch sel k : Nat) : (mirrorWrite b t a latch sel).rw k = t.rw k := by
  unfold mirrorWrite mirror
  (repeat' split) <;> rfl

@[simp] theorem sw_mirrorWrite (b t : State) (a : RegAcc) (latch sel k : Nat) : (mirrorWrite b t a latch sel).sw k = t.sw k := by
  unfold mirrorWrite mirror
  (repeat' split) <;> rfl

/-- With no partner to mirror to, the pair keeps what it holds. -/
theorem mirrorWrite_of_not_mirrors {t : State} (h : t.mirrors = false) (b : State) (a : RegAcc) (latch sel : Nat) :
    mirrorWrite b t a latch sel = t := by
  unfold mirrorWrite mirror
  rw [h]
  exact ite_self t

/-- Only the pair's role and the enable bit of its page say whether the device mirrors. -/
theorem mirrors_congr {t : State} (hr : t.rw (Page.plk.key 0x008) = s.rw (Page.plk.key 0x008)) (hp : t.pair = s.pair) :
    t.mirrors = s.mirrors := by
  have hf : t.flag .plk F.PG_CTRL_ENABLE = s.flag .plk F.PG_CTRL_ENABLE := congrArg (fun v => bits 0 0 v == 1) hr
  unfold mirrors
  rw [hf, hp]

/-! ### Writing the fields of a word -/

theorem rw_foldl_applyField_other (l : List Fld) {k : Nat} (h : k ≠ a.page.key a.off) : (l.foldl (applyField a) s).rw k = s.rw k :=
  foldl_read_of_forall (fun t : State => t.rw k) fun f _ t => rw_applyField_other a t f h

theorem sw_foldl_applyField_other (l : List Fld) {k : Nat} (h : k ≠ a.page.key a.off) : (l.foldl (applyField a) s).sw k = s.sw k :=
  foldl_read_of_forall (fun t : State => t.sw k) fun f _ t => sw_applyField_other a t f h

theorem foldl_applyField_only (a : RegAcc) (s : State) (l : List Fld) : OnlyChanges s (l.foldl (applyField a) s) [.regs, .shad] :=
  foldl_only (fun _ f h => applyField_only a f (List.Subset.refl _) h) (OnlyChanges.refl s _)

section fields
variable (hin : ∀ g ∈ a.page.fieldsAt a.off, g.InWord) (hap : (a.page.fieldsAt a.off).Pairwise Fld.Apart)
include hin hap

/-- What the written fields do not name keeps its active value: an RO field, and that of an RWS field. -/
theorem active_writtenFields_passive (hf : f ∈ a.page.fieldsAt a.off) (ha : f.acc = .ro ∨ f.acc = .rws) :
    bits f.hi f.lo (((s.writtenFields a).foldl (applyField a) s).rw (a.page.key a.off)) = bits f.hi f.lo (s.rw (a.page.key a.off)) := by
  refine foldl_read_of_forall (fun t : State => bits f.hi f.lo (t.rw (a.page.key a.off))) fun g hg t => ?_
  by_cases hfg : f = g
  · subst hfg
    exact congrArg _ (rw_applyField_passive a t ha _)
  · have hg := (mem_writtenFields.1 hg).1
    exact active_applyField_apart a t (Fld.apart_of_ne hap hf hg hfg) (hin f hf) (hin g hg)

/-- R10, R497: an RW or RWS field has its value after the write; one that the write does not change had it before. -/
theorem target_writtenFields (hf : f ∈ a.page.fieldsAt a.off) (ha : f.acc = .rw ∨ f.acc = .rws)
    (hn : s.written a f = false → bits f.hi f.lo (s.target f (a.page.key a.off)) = bits f.hi f.lo a.val) :
    bits f.hi f.lo (((s.writtenFields a).foldl (applyField a) s).target f (a.page.key a.off)) = bits f.hi f.lo a.val := by
  cases hw : s.written a f with
  | true =>
    exact foldl_read_of_mem (fun t : State => bits f.hi f.lo (t.target f (a.page.key a.off))) (hap.filter _)
      (mem_writtenFields.2 ⟨hf, hw⟩) (fun t => target_applyField_self a t ha (hin f hf))
      fun g hg hfg t => target_applyField_apart a t hfg (hin f hf) (hin g (mem_writtenFields.1 hg).1)
  | false =>
    rw [← hn hw]
    refine foldl_read_of_forall (fun t : State => bits f.hi f.lo (t.target f (a.page.key a.off))) fun g hg t => ?_
    obtain ⟨hg, hgw⟩ := mem_writtenFields.1 hg
    have hfg : f ≠ g := fun h => by simp [← h, hw] at hgw
    exact target_applyField_apart a t (Fld.apart_of_ne hap hf hg hfg) (hin f hf) (hin g hg)

end fields

end State

/-! ### The plain register write of a slot page -/

/-- Two fields of a page share no bit of any word behind the header. -/
def Fld.separate (f g : Fld) : Bool :=
  decide (f.hi < g.lo) || decide (g.hi < f.lo) || (f.dims.isEmpty && decide (f.off < max 0x040 g.off))
    || (g.dims.isEmpty && decide (g.off < f.off))

theorem Fld.off_le_of_hits {f : Fld} {o : Nat} (h : f.hits o = true) : f.off ≤ o := by
  simp only [Fld.hits, Bool.and_eq_true, decide_eq_true_eq] at h
  exact h.1

theorem Fld.off_eq_of_hits {f : Fld} {o : Nat} (h : f.hits o = true) (hd : f.dims = []) : f.off = o := by
  simp only [Fld.hits, hd, inDims, Bool.and_eq_true, decide_eq_true_eq, beq_iff_eq] at h
  omega

theorem Fld.apart_of_separate {f g : Fld} {o : Nat} (ho : 0x040 ≤ o) (h : f.separate g = true) (hf : f.hits o = true)
    (hg : g.hits o = true) : f.Apart g := by
  have hfo := Fld.off_le_of_hits hf
  have hgo := Fld.off_le_of_hits hg
  simp only [Fld.separate, Bool.or_eq_true, Bool.and_eq_true, decide_eq_true_eq, List.isEmpty_iff] at h
  rcases h with ((h | h) | ⟨hd, hlt⟩) | ⟨hd, hlt⟩
  · exact .inl h
  · exact .inr h
  · have := Fld.off_eq_of_hits hf hd
    omega
  · have := Fld.off_eq_of_hits hg hd
    omega

theorem slot_flds_separate (n k : Nat) : (Page.slot n k).flds.Pairwise fun f g => f.separate g = true := by
  show (fldsHDR ++ fldsSLOT).Pairwise fun f g => f.separate g = true
  decide +kernel

theorem slot_fieldsAt_apart (n k : Nat) {o : Nat} (ho : 0x040 ≤ o) : ((Page.slot n k).fieldsAt o).Pairwise Fld.Apart :=
  List.pairwise_filter.2 ((slot_flds_separate n k).imp fun h hf hg => Fld.apart_of_separate ho h hf hg)

theorem slot_fieldsAt_inWord (n k o : Nat) : ∀ f ∈ (Page.slot n k).fieldsAt o, f.InWord := fun f hf =>
  (by decide : ∀ f ∈ fldsHDR ++ fldsSLOT, f.lo ≤ f.hi ∧ f.hi < 32) f (List.mem_filter.1 hf).1

/-- No field behind the header of a slot page is a route. -/
theorem slot_fieldsAt_not_route (n k : Nat) {o : Nat} {f : Fld} (ho : 0x040 ≤ o) (hf : f ∈ (Page.slot n k).fieldsAt o) :
    f ≠ F.EVT_ROUTE_FUNCTION ∧ f ≠ F.CHK_ROUTE_FUNCTION := by
  obtain ⟨hmem, hhit⟩ := List.mem_filter.1 hf
  constructor
  · rintro rfl
    have := Fld.off_eq_of_hits hhit rfl
    simp only [F.EVT_ROUTE_FUNCTION] at this
    omega
  · rintro rfl
    exact absurd hmem (by decide +kernel : F.CHK_ROUTE_FUNCTION ∉ fldsHDR ++ fldsSLOT)

namespace State

variable {s : State} {req : Req} {n k o v : Nat} {via : Bool} {f : Fld}

/-- A word of a slot page behind the header, but the table's data word, has no rule of its own. -/
theorem regWrite_slot (ho : 0x040 ≤ o) (hl : o ≠ F.SLOT_LUT_DATA_ENTRY.off) (hw : s.isWide ⟨.slot n k, o, req, v, via⟩ = false) :
    regWrite ⟨.slot n k, o, req, v, via⟩ s
      = mirrorWrite s (s.plainWrite ⟨.slot n k, o, req, v, via⟩) ⟨.slot n k, o, req, v, via⟩ 0 0 := by
  simp only [regWrite, isChkOwner, isChkEvent, bodyWrite, queueWord, blockWrite, plainWord, hw, hl, Nat.not_lt.2 ho, if_false,
    Bool.false_eq_true, Bool.or_self]

/-- What a field of a slot page reads as, to a requester that the page is not closed to. -/
theorem readFor_slot (hl : o ≠ F.SLOT_LUT_DATA_ENTRY.off) (hsp : s.secretPage ⟨.slot n k, o, req, v, via⟩ = false)
    (hsec : f.sec = false) (ha : f.acc ≠ .wo) :
    s.readFor ⟨.slot n k, o, req, v, via⟩ f = bits f.hi f.lo (s.target f ((Page.slot n k).key o)) := by
  have hopen : (s.secFor ⟨.slot n k, o, req, v, via⟩ f && !req.secure) = false := by
    simp only [secretPage, secFor, hsec, Bool.false_or] at hsp ⊢
    rw [Bool.and_assoc, Bool.and_assoc, Bool.and_assoc]
    revert hsp
    cases s.flag (.slot n k) F.OWNER_WORLD <;> simp +contextual
  have hkey : s.wordKey (.slot n k) o = some ((Page.slot n k).key o) := if_neg hl
  simp only [readFor, hopen, hkey, if_neg ha, Bool.false_eq_true, if_false, target]
  split <;> rfl

/-- An RW or RWS field of a slot page that a write leaves unwritten has the value of the write already (R497). -/
theorem target_of_unwritten (ho : 0x040 ≤ o) (hl : o ≠ F.SLOT_LUT_DATA_ENTRY.off)
    (hsp : s.secretPage ⟨.slot n k, o, req, v, via⟩ = false) (hf : f ∈ (Page.slot n k).fieldsAt o) (hsec : f.sec = false)
    (ha : f.acc = .rw ∨ f.acc = .rws) (hn : s.written ⟨.slot n k, o, req, v, via⟩ f = false) :
    bits f.hi f.lo (s.target f ((Page.slot n k).key o)) = bits f.hi f.lo v := by
  obtain ⟨hevt, hchk⟩ := slot_fieldsAt_not_route n k ho hf
  have hro : s.routeFixed ⟨.slot n k, o, req, v, via⟩ f = false := by
    simp only [routeFixed, beq_eq_false_iff_ne.2 hevt, beq_eq_false_iff_ne.2 hchk, Bool.false_and, Bool.or_self]
  have hread := readFor_slot hl hsp hsec (by rcases ha with ha | ha <;> simp [ha])
  unfold written at hn
  rw [hro, hread] at hn
  rcases ha with ha | ha <;> exact (by simpa [ha] using hn : bits f.hi f.lo v = _).symm

/-- R10, R497: the plain register write, on a page whose words are no parts of wide registers. -/
theorem plainRegisterWrite_of_not_wide {w : RegWr} (harr : s.arrives w (.slot n k) = true) (hoff : w.off % 0x1000 = o) (ho : 0x040 ≤ o)
    (hl : o ≠ F.SLOT_LUT_DATA_ENTRY.off) (hwide : s.isWide (accOf w (.slot n k)) = false)
    (hsp : s.secretPage (accOf w (.slot n k)) = false)
    (hsec : (s.writtenFields (accOf w (.slot n k))).any (s.refusedSec (accOf w (.slot n k))) = false)
    (hlock : (s.writtenFields (accOf w (.slot n k))).any (s.refusedLock (accOf w (.slot n k))) = false) :
    ∃ t, exec (.registerWrite w) s = .next t
      ∧ (∀ f ∈ (Page.slot n k).fieldsAt o, f.acc = .rw → f.sec = false → bits f.hi f.lo (t.rw ((Page.slot n k).key o)) = bits f.hi f.lo w.val.toNat)
      ∧ (∀ f ∈ (Page.slot n k).fieldsAt o, f.acc = .rws → f.sec = false → bits f.hi f.lo (t.sw ((Page.slot n k).key o)) = bits f.hi f.lo w.val.toNat
          ∧ bits f.hi f.lo (t.rw ((Page.slot n k).key o)) = bits f.hi f.lo (s.rw ((Page.slot n k).key o)))
      ∧ (∀ f ∈ (Page.slot n k).fieldsAt o, f.acc = .ro → bits f.hi f.lo (t.rw ((Page.slot n k).key o)) = bits f.hi f.lo (s.rw ((Page.slot n k).key o)))
      ∧ (s.mirrors = false → t.pair = s.pair) ∧ OnlyChanges s t [.regs, .shad, .pair]
      ∧ SameWordsBut s t [(Page.slot n k).key o] ∧ SameShadowsBut s t [(Page.slot n k).key o] := by
  subst hoff
  have hin := slot_fieldsAt_inWord n k (w.off % 0x1000)
  have hap := slot_fieldsAt_apart n k ho
  have hrun : s.access w regWrite = mirrorWrite s (s.plainWrite (accOf w (.slot n k))) (accOf w (.slot n k)) 0 0 :=
    (access_eq harr regWrite).trans (regWrite_slot ho hl hwide)
  rw [plainWrite_of_unrefused hsec hlock] at hrun
  have honly := foldl_applyField_only (accOf w (.slot n k)) s (s.writtenFields (accOf w (.slot n k)))
  have hplk : Page.plk.key 0x008 ≠ (Page.slot n k).key (w.off % 0x1000) := by
    simp only [Page.key, Page.base]
    omega
  have hmirrors := mirrors_congr (rw_foldl_applyField_other (s := s) (s.writtenFields (accOf w (.slot n k))) hplk)
    (honly.2.2 .pair (by decide))
  refine ⟨_, congrArg Host.Outcome.next hrun, fun f hf ha hfs => ?_, fun f hf ha hfs => ⟨?_, ?_⟩, fun f hf ha => ?_, fun hm => ?_,
    mirrorWrite_only _ 0 0 (by decide) (honly.mono (by decide)), fun j hj => ?_, fun j hj => ?_⟩
  · rw [rw_mirrorWrite, ← target_of_rw ha]
    exact target_writtenFields hin hap hf (.inl ha) (target_of_unwritten ho hl hsp hf hfs (.inl ha))
  · rw [sw_mirrorWrite, ← target_of_rws ha]
    exact target_writtenFields hin hap hf (.inr ha) (target_of_unwritten ho hl hsp hf hfs (.inr ha))
  · rw [rw_mirrorWrite]
    exact active_writtenFields_passive hin hap hf (.inr ha)
  · rw [rw_mirrorWrite]
    exact active_writtenFields_passive hin hap hf (.inl ha)
  · rw [mirrorWrite_of_not_mirrors (hmirrors.trans hm)]
    exact honly.2.2 .pair (by decide)
  · rw [rw_mirrorWrite]
    exact rw_foldl_applyField_other _ (List.ne_of_not_mem_cons hj)
  · rw [sw_mirrorWrite]
    exact sw_foldl_applyField_other _ (List.ne_of_not_mem_cons hj)

end State

/-! ### The register write that refutes O6

The statement of O6 leaves out that PG_CAP.WIDE of the page is 0. That holds at reset (R44), but the invariant does not say
so, and a write to a page with WIDE = 1 is staged (R49). With it as a hypothesis the statement holds, by
`State.plainRegisterWrite_of_not_wide`. -/

/-- R49: a write of a lower word of a wide register is staged for its requester. -/
theorem State.regWrite_lowWord {s : State} {a : RegAcc} (hw : s.isWide a = true) (hl : a.off % 16 ≠ 12) :
    State.regWrite a s = s.stageWord a.req.fn (a.page.key a.off) (BitVec.ofNat 32 a.val) := by
  have ho : ¬ a.off < 0x040 := by
    simp only [State.isWide, Bool.and_eq_true, decide_eq_true_eq] at hw
    omega
  unfold State.regWrite State.wideWrite
  rw [if_neg ho, if_pos hw, if_pos hl]

/-- A word has been staged. -/
theorem State.staged_stageWord_ne_nil (s : State) (fn key : Nat) (v : Word32) : (s.stageWord fn key v).staged ≠ [] :=
  List.append_ne_nil_of_right_ne_nil _ (List.cons_ne_nil _ _)

/-- A state whose slot 15 of output 7 has PG_CAP.WIDE set, beside its other capability bits. -/
def wideSlot : State := { State.reset with regs := [((Page.slot 7 15).key 0x004, 0xF0000100#32)] }

/-- A write of SLOT_BUF of that slot by a management core. -/
def slotBufWrite : RegWr := ⟨⟨0x40, false⟩, .pf, (Page.slot 7 15).key 0x044, 0xF#4, 0x00030010#32⟩

/-- At reset PG_CAP.WIDE is 0, and that write gives the shadow its value. -/
theorem exec_slotBufWrite_reset : ∃ t, exec (.registerWrite slotBufWrite) State.reset = .next t
    ∧ bits 31 0 (t.sw ((Page.slot 7 15).key 0x044)) = 0x00030010 := by
  obtain ⟨t, ht, -, hshadow, -⟩ := State.plainRegisterWrite_of_not_wide (s := State.reset) (w := slotBufWrite) (n := 7) (k := 15)
    (by decide) rfl (by decide) (by decide) (by decide) (by decide) (by decide) (by decide)
  exact ⟨t, ht, (hshadow F.SLOT_BUF_BUFFER (by decide) rfl rfl).1⟩

theorem wideSlot_inv : Inv wideSlot := Sound.withRegs invAtReset (by decide)

theorem wideSlot_arrives : wideSlot.arrives slotBufWrite (.slot 7 15) = true := by decide

/-- The write stages its word. -/
theorem exec_slotBufWrite_staged {t : State} (h : exec (.registerWrite slotBufWrite) wideSlot = .next t) : t.staged ≠ [] := by
  have ht : wideSlot.access slotBufWrite State.regWrite = t := Host.Outcome.next.inj h
  rw [State.access_eq wideSlot_arrives, State.regWrite_lowWord (by decide) (by decide)] at ht
  rw [← ht]
  exact State.staged_stageWord_ne_nil _ _ _ _

/-- Refutes O6: on a slot page with PG_CAP.WIDE = 1, which the invariant admits, a write of SLOT_BUF is staged. -/
theorem not_plainRegisterWrite : ¬ Obligations.PlainRegisterWrite := by
  intro h
  obtain ⟨t, ht, -, -, -, -, ⟨-, -, hsame⟩, -, -⟩ := h wideSlot slotBufWrite 7 15 0x044 wideSlot_inv
    (by decide) (by decide) wideSlot_arrives (by decide) (by decide) (by decide) (by decide) (by decide) (by decide)
  exact exec_slotBufWrite_staged ht (hsame .staged (by decide))

end Sys2Proof.Machine
end

section
/-! Proofs about submission entries (O16): what a first completion does to its queue, a fetch with one candidate, and the commands NOP and
FN_QUERY. -/

namespace Sys2Proof.Machine

/-! ### The queues after a first completion -/

theorem SameEntriesBut.trans {α : Type} {a b c : Store α} {ks : List Nat} (h : SameEntriesBut a b ks) (h' : SameEntriesBut b c ks) :
    SameEntriesBut a c ks := fun k hk => (h' k hk).trans (h k hk)

namespace State

variable {s : State} {fn q jid status : Nat} {j : Job} {c : CmdArgs}

@[simp] theorem queue_setQueue_self (s : State) (fn q : Nat) (x : Queue) : (s.setQueue fn q x).queue fn q = x := by
  simp only [queue, setQueue, Sparse.find_put_self, Option.getD_some]

/-- Setting a queue changes no other one. -/
theorem sameEntries_setQueue (s : State) (fn q : Nat) (x : Queue) :
    SameEntriesBut s.hosts.queues (s.setQueue fn q x).hosts.queues [fn * 8 + q] := fun _ hk =>
  Sparse.find_put_other _ x (List.ne_of_not_mem_cons hk)

@[simp] theorem sendMsg_queues (s : State) (fn vec : Nat) : (s.sendMsg fn vec).hosts.queues = s.hosts.queues :=
  (sendMsg_only fn vec (List.Subset.refl _) (OnlyChanges.refl s _)).2.2 .queues (by decide)

/-- An operation on one queue that moves neither its fetch pointer nor another queue. -/
def KeepsHead (s t : State) (fn q : Nat) : Prop :=
  (t.queue fn q).sqHead = (s.queue fn q).sqHead ∧ SameEntriesBut s.hosts.queues t.hosts.queues [fn * 8 + q]

theorem KeepsHead.trans {t u : State} (h : s.KeepsHead t fn q) (h' : t.KeepsHead u fn q) : s.KeepsHead u fn q :=
  ⟨h'.1.trans h.1, h.2.trans h'.2⟩

theorem keepsHead_of_queues {t : State} (h : t.hosts.queues = s.hosts.queues) : s.KeepsHead t fn q := by
  refine ⟨?_, fun k _ => by rw [h]⟩
  simp only [queue, h]

theorem keepsHead_of_put {t : State} {x : Queue} (h : t.hosts.queues = Sparse.put s.hosts.queues (fn * 8 + q) x)
    (hx : x.sqHead = (s.queue fn q).sqHead) : s.KeepsHead t fn q := by
  refine ⟨?_, fun k hk => ?_⟩
  · rw [← hx, queue, h, Sparse.find_put_self]
    rfl
  · rw [h]
    exact Sparse.find_put_other _ x (List.ne_of_not_mem_cons hk)

theorem keepsHead_signalQueue (s : State) (fn q : Nat) : s.KeepsHead (s.signalQueue fn q) fn q :=
  keepsHead_of_put (sendMsg_queues _ _ _) rfl

theorem keepsHead_writeEntry (s : State) (fn q : Nat) (e : CqEntry) : s.KeepsHead (s.writeEntry fn q e) fn q := by
  unfold writeEntry
  dsimp only
  split
  · exact (keepsHead_of_put rfl (by rfl)).trans (keepsHead_signalQueue _ fn q)
  · exact keepsHead_of_put rfl rfl

theorem keepsHead_post (s : State) (fn q cid status sqHead : Nat) (fin : Bool) (res : List Nat) :
    s.KeepsHead (s.post fn q cid status sqHead fin res) fn q := by
  unfold post
  dsimp only
  split
  · exact keepsHead_of_queues rfl
  · split
    · exact keepsHead_writeEntry s fn q _
    · exact keepsHead_of_put rfl rfl

theorem keepsHead_drainCheck (s : State) (fn q : Nat) : s.KeepsHead (s.drainCheck fn q) fn q := by
  unfold drainCheck
  dsimp only
  split
  · exact keepsHead_of_put rfl rfl
  · exact keepsHead_of_queues rfl

/-- The first completion of a command moves the completion pointers of its own queue alone. -/
theorem keepsHead_complete (hj : s.job jid = some j) (status : Nat) (res : List Nat) :
    s.KeepsHead (s.complete jid status res) j.fn j.q := by
  unfold complete
  simp only [hj]
  split
  · exact keepsHead_of_queues rfl
  · have hpost := keepsHead_post s j.fn j.q j.cid status j.sqHead false res
    refine (hpost.trans ?_).trans (keepsHead_drainCheck _ _ _)
    split <;> exact keepsHead_of_queues rfl

/-! ### Posting into a ring with room for the entry -/

theorem mem_out_writeEntry (s : State) (fn q : Nat) (e : CqEntry) :
    s.cqWrite fn q (s.queue fn q).cqTail (s.queue fn q).phase e ∈ (s.writeEntry fn q e).out := by
  unfold writeEntry
  dsimp only
  generalize s.cqWrite fn q _ _ e = o
  have ho : o ∈ (s.emit o).out := List.mem_append_right _ (List.mem_singleton.2 rfl)
  split
  · exact mem_out_signalQueue _ _ ho
  · exact ho

/-- The first completion of a command is put out by a running queue whose ring has room for it. -/
theorem complete_out_of_room (hj : s.job jid = some j) (hs : j.stage = .fetched) (hq : (s.queue j.fn j.q).state = .running)
    (hh : (s.queue j.fn j.q).held = []) {res : List Nat} (hr : s.cqRoom j.fn j.q ⟨j.cid, status, j.sqHead, false, res⟩ = true) :
    ∃ tail phase, s.cqWrite j.fn j.q tail phase ⟨j.cid, status, j.sqHead, false, res⟩ ∈ (s.complete jid status res).out := by
  have hpost : s.post j.fn j.q j.cid status j.sqHead false res = s.writeEntry j.fn j.q ⟨j.cid, status, j.sqHead, false, res⟩ := by
    unfold post
    simp only [hq, hh, hr]
    rfl
  refine ⟨(s.queue j.fn j.q).cqTail, (s.queue j.fn j.q).phase, ?_⟩
  unfold complete
  simp only [hj, hs, hpost]
  refine mem_out_drainCheck _ _ ?_
  split <;> exact mem_out_writeEntry s j.fn j.q _

/-- R116: a completion that is not DEFERRED needs one free entry of the ring. -/
theorem cqRoom_of_free {e : CqEntry} (h : s.unconsumed fn q + 1 < s.cqSize fn q) (he : e.status ≠ 1) : s.cqRoom fn q e = true := by
  simp [cqRoom, h, he]

/-! ### NOP -/

/-- R500: an entry of a NOP whose unused words are zero passes every check. -/
theorem entryCheck_nop (s : State) (hr : c.rsvd = 0) (hp : c.params.all (· == 0) = true) : s.entryCheck 0x00 c = none := by
  have hz : (c.params.any fun x => x != 0) = false := by
    simpa [List.all_eq_true, List.any_eq_false] using hp
  simp [entryCheck, knownOpcode, usedParams, hr, hz]

/-- A NOP that is taken up completes OK. -/
theorem dispatch_nop (s : State) (hr : c.rsvd = 0) (hp : c.params.all (· == 0) = true) :
    s.dispatch 0x00 c = (s.take 0x00 c).2.complete s.hosts.nextJid 0 := by
  have hn := (s.take 0x00 c).2.entryCheck_nop hr hp
  simp only [dispatch, carryEntry, hn]
  rfl

theorem takeComplete_only (s : State) (opcode : Nat) (c : CmdArgs) (status : Nat) (res : List Nat) :
    OnlyChanges s ((s.take opcode c).2.complete s.hosts.nextJid status res) [.out, .queues, .jobs, .msiPending] :=
  complete_only _ status res (List.Subset.refl _) (take_only opcode c (by decide) (OnlyChanges.refl s _))

theorem keepsHead_takeComplete (hjobs : ∀ j ∈ s.hosts.jobs, j.jid < s.hosts.nextJid) (opcode : Nat) (c : CmdArgs) (status : Nat)
    (res : List Nat) : s.KeepsHead ((s.take opcode c).2.complete s.hosts.nextJid status res) c.fn c.q :=
  (keepsHead_of_queues rfl).trans (keepsHead_complete (job_take hjobs opcode c) status res)

/-- A command that completes as soon as it is fetched, from a running queue whose ring has a free entry. -/
theorem completed_take_of_room (hjobs : ∀ j ∈ s.hosts.jobs, j.jid < s.hosts.nextJid) (hq : (s.queue c.fn c.q).state = .running)
    (hh : (s.queue c.fn c.q).held = []) (hfree : s.unconsumed c.fn c.q + 1 < s.cqSize c.fn c.q) (opcode : Nat) (res : List Nat)
    (hs : status ≠ 1) : Completed s ((s.take opcode c).2.complete s.hosts.nextJid status res) c status res := by
  obtain ⟨tail, phase, ho⟩ := complete_out_of_room (job_take hjobs opcode c) rfl hq hh (cqRoom_of_free hfree hs)
  exact ⟨tail, phase, _, ho⟩

/-! ### A fetch with one candidate -/

/-- The turn of a queue that a port serves: the last queue of its function, and one service of the function's round. -/
def fetchTurn (s : State) (p f q : Nat) : State :=
  ({ s with hosts := { s.hosts with lastQ := Sparse.put s.hosts.lastQ f q } }).served p f

/-- The entry at the head of a ring has been fetched in its turn: the head has moved on (R117). -/
def fetched (s : State) (p f q : Nat) : State :=
  (s.fetchTurn p f q).setQueue f q { s.queue f q with
    sqHead := if (s.queue f q).sqHead + 1 < s.sqSize f q then (s.queue f q).sqHead + 1 else 0 }

/-- R124: of one waiting function that is due, that function is served. -/
theorem pickFn_single {p f : Nat} (hw : s.weight f ≠ 0) (hd : s.due (s.round p) f ≠ 0) : s.pickFn p [f] = (some f, s) := by
  simp [pickFn, hw, hd]

theorem after_single (x q : Nat) : after [q] x = some q := by
  unfold after
  rw [List.find?_singleton]
  by_cases h : x < q <;> simp [h]

/-- A fetch on a port where one queue of one function is fetchable. -/
theorem commandFetch_single {p f : Nat} {ws : List Word32} (hon : s.fetchOn p = true) (hf : s.waitingFns p = [f]) (hw : s.weight f ≠ 0)
    (hd : s.due (s.round p) f ≠ 0) (hq : s.waitingQueues f = [q]) :
    s.commandFetch p ws =
      if (s.fetchTurn p f q).entryHeld f q (entryArgs f q ws).1 (entryArgs f q ws).2 then s.fetchTurn p f q
      else (s.fetched p f q).dispatch (entryArgs f q ws).1 (entryArgs f q ws).2 := by
  have hp : p ≠ 2 := by
    simp only [fetchOn, Bool.and_eq_true, decide_eq_true_eq] at hon
    omega
  unfold commandFetch
  simp only [if_neg hp, hon, hf, pickFn_single hw hd, hq, after_single]
  rfl

theorem fetchTurn_only (s : State) (p f q : Nat) : OnlyChanges s (s.fetchTurn p f q) [.arbiter] := by
  have hw : [Piece.arbiter] ⊆ [.arbiter] := List.Subset.refl _
  exact served_only p f hw (OnlyChanges.of_mk (OnlyChanges.refl s _) rfl rfl)

theorem fetched_only (s : State) (p f q : Nat) : OnlyChanges s (s.fetched p f q) [.queues, .arbiter] :=
  setQueue_only f q _ (by decide) ((fetchTurn_only s p f q).mono (by decide))

theorem queue_fetched (s : State) (p f q : Nat) : (s.fetched p f q).queue f q = { s.queue f q with
    sqHead := if (s.queue f q).sqHead + 1 < s.sqSize f q then (s.queue f q).sqHead + 1 else 0 } := queue_setQueue_self ..

theorem unconsumed_fetched (s : State) (p f q : Nat) : (s.fetched p f q).unconsumed f q = s.unconsumed f q := by
  simp only [unconsumed, queue_fetched]
  rfl

/-- Some services are due by the weights in force and the round's record of what it has served. -/
theorem due_of_only {t : State} {cs : List Piece} (h : OnlyChanges s t cs) (hr : .regs ∉ cs) (ha : .arbiter ∉ cs) (p f : Nat) :
    t.due (t.round p) f = s.due (s.round p) f := by
  have hregs : t.regs = s.regs := h.2.2 .regs hr
  have hrounds : t.hosts.rounds = s.hosts.rounds := (h.2.2 .arbiter ha).1
  simp only [due, weight, round, rw, h.1, hregs, hrounds]

/-- A turn uses one service of the function's round (R125). -/
theorem due_fetched (s : State) (p f q : Nat) :
    (s.fetched p f q).due ((s.fetched p f q).round p) f = s.due (s.round p) f - 1 := by
  have hround : (s.fetched p f q).round p
      = ⟨Sparse.put (s.round p).used f (Sparse.get (fun _ => 0) (s.round p).used f + 1), Sparse.put (s.round p).servedAt f s.now⟩ := by
    show (Sparse.find (Sparse.put s.hosts.rounds p _) p).getD _ = _
    rw [Sparse.find_put_self]
    rfl
  have hused : Sparse.get (fun _ => 0) ((s.fetched p f q).round p).used f = Sparse.get (fun _ => 0) (s.round p).used f + 1 := by
    rw [hround, Sparse.get, Sparse.find_put_self]
    rfl
  rw [due, hused, due, Nat.sub_add_eq]
  rfl

/-- R115, R116: what a queue that is fetched from holds to. -/
theorem running_of_fetchable {f : Nat} (hq : s.waitingQueues f = [q]) :
    (s.queue f q).state = .running ∧ s.unconsumed f q + 1 < s.cqSize f q := by
  have hmem : q ∈ s.waitingQueues f := by simp [hq]
  have hfetch := (List.mem_filter.1 hmem).2
  simp only [fetchable, Bool.and_eq_true, beq_iff_eq, decide_eq_true_eq, and_assoc] at hfetch
  obtain ⟨hrun, -, hload⟩ := hfetch
  rw [cqLoad] at hload
  exact ⟨hrun, by omega⟩

/-- R117, R118, R124: a NOP entry is fetched and completes OK. -/
theorem commandFetch_nop {p f : Nat} {ws : List Word32} (hi : Inv s) (hon : s.fetchOn p = true) (hf : s.waitingFns p = [f])
    (hw : s.weight f ≠ 0) (hd : s.due (s.round p) f ≠ 0) (hq : s.waitingQueues f = [q]) (hh : (s.queue f q).held = [])
    (hop : (entryArgs f q ws).1 = 0) (ho : (entryArgs f q ws).2.ordered = false) (hr : (entryArgs f q ws).2.rsvd = 0)
    (hp : (entryArgs f q ws).2.params.all (· == 0) = true) :
    ∃ t, exec (.commandFetch p ws) s = .next t ∧ Completed s t (entryArgs f q ws).2 0 []
      ∧ (t.queue f q).sqHead = (if (s.queue f q).sqHead + 1 < s.sqSize f q then (s.queue f q).sqHead + 1 else 0)
      ∧ t.due (t.round p) f = s.due (s.round p) f - 1 ∧ SameEntriesBut s.hosts.queues t.hosts.queues [f * 8 + q]
      ∧ OnlyChanges s t [.out, .queues, .jobs, .arbiter, .msiPending] := by
  have hheld : (s.fetchTurn p f q).entryHeld f q 0 (entryArgs f q ws).2 = false := by simp [entryHeld, ho]
  have hrun : s.commandFetch p ws = ((s.fetched p f q).take 0x00 (entryArgs f q ws).2).2.complete s.hosts.nextJid 0 := by
    rw [commandFetch_single hon hf hw hd hq, hop, hheld]
    exact dispatch_nop _ hr hp
  obtain ⟨hstate, hfree⟩ := running_of_fetchable hq
  have hjobs : ∀ j ∈ (s.fetched p f q).hosts.jobs, j.jid < (s.fetched p f q).hosts.nextJid := hi.jobs
  have hqueue := queue_fetched s p f q
  have honly := takeComplete_only (s.fetched p f q) 0x00 (entryArgs f q ws).2 0 []
  have hkeeps := keepsHead_takeComplete hjobs 0x00 (entryArgs f q ws).2 0 []
  refine ⟨_, congrArg Host.Outcome.next hrun, ?_, hkeeps.1.trans (congrArg Queue.sqHead hqueue), ?_,
    (sameEntries_setQueue s f q _).trans hkeeps.2, ((fetched_only s p f q).mono (by decide)).trans (honly.mono (by decide))⟩
  · exact completed_take_of_room (c := (entryArgs f q ws).2) hjobs (hqueue ▸ hstate) (hqueue ▸ hh)
      ((unconsumed_fetched s p f q).symm ▸ hfree) 0x00 [] (by decide)
  · exact (due_of_only honly (by decide) (by decide) p f).trans (due_fetched s p f q)

/-- R117: an ORDERED entry behind one that has not completed stays in its ring. -/
theorem commandFetch_ordered {p f : Nat} {ws : List Word32} (hon : s.fetchOn p = true) (hf : s.waitingFns p = [f]) (hw : s.weight f ≠ 0)
    (hd : s.due (s.round p) f ≠ 0) (hq : s.waitingQueues f = [q]) (ho : (entryArgs f q ws).2.ordered = true)
    (hu : s.uncompleted f q ≠ 0) : exec (.commandFetch p ws) s = .next (s.fetchTurn p f q) := by
  have hheld : (s.fetchTurn p f q).entryHeld f q (entryArgs f q ws).1 (entryArgs f q ws).2 = true := by
    have : (s.fetchTurn p f q).uncompleted f q ≠ 0 := hu
    simp [entryHeld, ho, this]
  refine congrArg Host.Outcome.next ?_
  rw [commandFetch_single hon hf hw hd hq, hheld, if_pos rfl]

/-! ### The internal queues -/

/-- The internal queues hold no entry any more. -/
def clearCoreEntries (s : State) : State := { s with hosts := { s.hosts with coreEntries := [] } }

theorem clearCoreEntries_only (s : State) : OnlyChanges s s.clearCoreEntries [.coreEntries] := by
  have hw : [Piece.coreEntries] ⊆ [.coreEntries] := List.Subset.refl _
  exact OnlyChanges.of_mk (OnlyChanges.refl s _) rfl rfl

/-- A fetch takes up the one entry of the internal queues when it is no ORDERED one (R150, R195). -/
theorem coreFetch_nop (h : s.hosts.coreEntries = [(0x00, c)]) (ho : c.ordered = false) (hr : c.rsvd = 0)
    (hp : c.params.all (· == 0) = true) : s.coreFetch = (s.clearCoreEntries.take 0x00 c).2.complete s.hosts.nextJid 0 := by
  have hready : s.coreReady = some (0x00, c) := by
    have hheld : s.entryHeld c.fn c.q 0x00 c = false := by simp [entryHeld, ho]
    simp [coreReady, h, hheld]
  simp only [coreFetch, hready, h, List.erase_cons_head]
  exact dispatch_nop _ hr hp

/-- An entry of an internal queue whose turn has come completes OK. -/
theorem commandFetch_core_nop {ws : List Word32} (hi : Inv s) (hon : s.coreFetchOn = true) (h : s.hosts.coreEntries = [(0x00, c)])
    (ho : c.ordered = false) (hr : c.rsvd = 0) (hp : c.params.all (· == 0) = true) (hposts : s.posts c.fn c.q = true) :
    ∃ t, exec (.commandFetch 2 ws) s = .next t ∧ Completed s t c 0 [] ∧ t.hosts.coreEntries = []
      ∧ OnlyChanges s t [.out, .queues, .jobs, .coreEntries, .msiPending] := by
  have hrun : s.commandFetch 2 ws = (s.clearCoreEntries.take 0x00 c).2.complete s.hosts.nextJid 0 :=
    (if_pos rfl).trans ((if_pos hon).trans (coreFetch_nop h ho hr hp))
  have honly := takeComplete_only s.clearCoreEntries 0x00 c 0 []
  obtain ⟨tail, phase, hout⟩ := complete_out (job_take (s := s.clearCoreEntries) hi.jobs 0x00 c) rfl
    (canPost_take (s := s.clearCoreEntries) hposts 0x00 c) 0 []
  exact ⟨_, congrArg Host.Outcome.next hrun, ⟨tail, phase, _, hout⟩, honly.2.2 .coreEntries (by decide),
    ((clearCoreEntries_only s).mono (by decide)).trans (honly.mono (by decide))⟩

/-! ### Commands that complete as they are taken up -/

/-- R500: an entry that fails a check completes with the code of the first one that fails. -/
theorem command_of_check {opcode code : Nat} {carry : Job → State → State} (hw : s.entryWaits c = false)
    (hc : s.entryCheck opcode c = some code) :
    s.command opcode c carry = (s.take opcode c).2.complete s.hosts.nextJid code := by
  have hc' : (s.take opcode c).2.entryCheck opcode c = some code := hc
  simp only [command, hw, carryEntry, hc']
  rfl

/-- R122: FN_QUERY of another function answers its state and what it holds. -/
theorem command_fnQuery {f : Nat} (ha : s.accepts 0x41 c = true) (hf : c.params.getD 0 0 = f) (hfn : isPf f = true ∨ isVf f = true)
    (hne : f ≠ c.fn) :
    s.command 0x41 c carryFnQuery
      = (s.take 0x41 c).2.complete s.hosts.nextJid 0 [s.fnStat f, s.usedPlots f, s.chanCount f] := by
  rw [command_eq ha]
  have hp : (s.take 0x41 c).1.p 0 = f := hf
  have hno : ¬ ((!(isPf f || isVf f)) = true ∨ f = (s.take 0x41 c).1.fn) := by
    rintro (h | h)
    · rcases hfn with hfn | hfn <;> simp [hfn] at h
    · exact hne h
  simp only [carryFnQuery, hp, if_neg hno]
  rfl

end State

/-- A command that completes as it is taken up: what its queue writes, and what stays. -/
theorem exists_takeComplete {s : State} {c : CmdArgs} {i : Instr} {opcode status : Nat} {res : List Nat} (hi : Inv s)
    (hp : s.posts c.fn c.q = true) (h : exec i s = .next ((s.take opcode c).2.complete s.hosts.nextJid status res)) :
    ∃ t, exec i s = .next t ∧ Completed s t c status res ∧ OnlyChanges s t [.out, .queues, .jobs, .msiPending] :=
  ⟨_, h, State.completed_take hi hp opcode status res, State.takeComplete_only s opcode c status res⟩

/-- Settles O16, clause by clause: a fetch on a port and on the internal queues, then NOP and FN_QUERY with their checks. -/
theorem fetchAndSimpleCommands : Obligations.FetchAndSimpleCommands := by
  unfold Obligations.FetchAndSimpleCommands
  refine ⟨fun s p f q ws => State.commandFetch_nop, fun s p f q ws hon hf hw hd hq ho hu => ?_,
    fun s c ws hi hon h _ => State.commandFetch_core_nop hi hon h, fun s c hw => ?_, fun s c hi ha hp => ?_,
    fun s c hi ha hp hfn hne => ?_, fun s c hi hw hready hp hmgr => ?_, fun s c hi hw hready hp => ?_⟩
  · exact ⟨_, State.commandFetch_ordered hon hf hw hd hq ho hu, rfl, rfl, State.fetchTurn_only s p f q⟩
  · refine ⟨_, congrArg Host.Outcome.next (if_pos hw), ?_, State.keepEntry_only 0x00 c (List.Subset.refl _) (OnlyChanges.refl s _)⟩
    unfold State.keepEntry
    split <;> simp
  · exact exists_takeComplete hi hp (congrArg Host.Outcome.next (State.command_eq ha _))
  · exact exists_takeComplete hi hp (congrArg Host.Outcome.next (State.command_fnQuery ha rfl hfn hne))
  · have hcheck : s.entryCheck 0x41 c = some 0x000A := by simp [State.entryCheck, hready, knownOpcode, hmgr]
    exact exists_takeComplete hi hp (congrArg Host.Outcome.next (State.command_of_check hw hcheck))
  · have hcheck : s.entryCheck 0x41 c = some 0x1301 := by simp [State.entryCheck, hready]
    exact exists_takeComplete hi hp (congrArg Host.Outcome.next (State.command_of_check hw hcheck))

end Sys2Proof.Machine
end

section
/-! Proofs about recording a status code, and the doorbell that refutes O15. -/

namespace Sys2Proof.Machine

/-! ### What recording a status code writes -/

/-- R44: no page has more than 12 block events. -/
theorem evtCount_le (pg : Page) : evtCount pg ≤ 12 := by
  cases pg
  case aud n =>
    unfold evtCount
    dsimp only
    split
    · decide
    · split <;> decide
  all_goals exact Nat.le_of_ble_eq_true rfl

/-- Bit 31 of the event register is no reserved bit of any page. -/
theorem land_err_evtMask (pg : Page) : Nat.land (2 ^ 31) (evtMask pg) = 2 ^ 31 := by
  have hmask : ∀ n < 13, Nat.land (2 ^ 31) (2 ^ 31 + (2 ^ n - 1)) = 2 ^ 31 := by decide
  exact hmask (evtCount pg) (Nat.lt_succ_of_le (evtCount_le pg))

theorem word_lor_err (x : Nat) : BitVec.ofNat 32 (Nat.lor x (2 ^ 31) % 2 ^ 32) = BitVec.ofNat 32 x ||| 0x80000000#32 := by
  show BitVec.ofNat 32 ((x ||| 2 ^ 31) % 2 ^ 32) = _
  apply BitVec.eq_of_toNat_eq
  rw [BitVec.toNat_or, BitVec.toNat_ofNat, BitVec.toNat_ofNat, Nat.mod_mod, Nat.or_mod_two_pow]
  rfl

namespace State

variable {s : State} {pg : Page} {code info : Nat}

/-- Recording a code writes the error words of its page alone. -/
theorem sameWordsBut_recErr (s : State) (pg : Page) (code info : Nat) : SameWordsBut s (s.recErr pg code info) (errWords pg) := by
  intro k hk
  simp only [errWords, List.mem_cons, List.not_mem_nil, or_false, not_or] at hk
  obtain ⟨hevt, hcode, hinfo⟩ := hk
  unfold recErr
  dsimp only
  rw [rw_raise_other _ hevt]
  split
  · rw [rw_setRw_other _ hinfo, rw_setFld_other _ hcode]
  · rw [rw_setFld_other _ hcode]

/-- R45: recording a code that fits ERR_CODE, with a detail that fits ERR_INFO. -/
theorem records_recErr (hc : code < 2 ^ 16) (hi : info < 2 ^ 32) : Records s (s.recErr pg code info) pg code info := by
  have hkeys : pg.key 0x010 ≠ pg.key 0x020 ∧ pg.key 0x010 ≠ pg.key 0x024 ∧ pg.key 0x020 ≠ pg.key 0x024 := by
    simp only [Page.key]
    omega
  obtain ⟨hec, hei, hci⟩ := hkeys
  have hword : ∀ t : State, t.rw (pg.key 0x010) = s.rw (pg.key 0x010) →
      (t.raise pg (2 ^ 31)).word (pg.key 0x010) = s.word (pg.key 0x010) ||| 0x80000000#32 := by
    intro t ht
    rw [word, rw_raise_self, land_err_evtMask, ht, word_lor_err]
    rfl
  have hfld : ∀ (t : State) (f : Fld), f.at [] = 0x020 → (t.raise pg (2 ^ 31)).fld pg f = t.fld pg f := fun t f hf => by
    rw [fld, fld, hf, rw_raise_other _ hec.symm]
  have hdetail : ∀ t : State, (t.raise pg (2 ^ 31)).rw (pg.key 0x024) = t.rw (pg.key 0x024) := fun t => rw_raise_other _ hei.symm
  unfold recErr Records
  dsimp only
  split
  case isTrue h0 =>
    refine ⟨hword _ ?_, ?_, ?_⟩
    · rw [rw_setRw_other _ hei, rw_setFld_other _ hec]
    · rw [hfld _ _ rfl]
      exact (congrArg (bits 15 0) (rw_setRw_other _ hci)).trans
        ((fld_setFld_self s pg F.ERR_CODE_CODE code [] (by decide) (by decide)).trans (Nat.mod_eq_of_lt hc))
    · rw [hdetail, rw_setRw_self, Nat.mod_eq_of_lt hi]
  case isFalse h0 =>
    refine ⟨hword _ (rw_setFld_other _ hec), ?_, ?_, ?_⟩
    · rw [hfld _ _ rfl]
      exact fld_setFld_below s 1 rfl (by decide) (by decide) (by decide) (by decide)
    · rw [flag, hfld _ _ rfl, fld_setFld_self s pg F.ERR_CODE_OVERFLOW 1 [] (by decide) (by decide)]
      decide
    · rw [hdetail, rw_setFld_other _ hci.symm]

/-- A doorbell of an IDLE queue records NOT_PERMITTED with the access as its detail (R45, R115). -/
theorem doorbellWrite_idle {a : RegAcc} {f q : Nat} (hq : queueWord a = some (f, q, 0x20)) (hsec : s.secretPage a = false)
    (hres : s.fnState f ≠ .resetting) (hpow : s.power.state ≠ .fallow) (hidle : (s.queue f q).state = .idle) :
    doorbellWrite a s = s.recErr (qPage f) 0x000A a.info := by
  simp only [doorbellWrite, hsec, hq, sqDoorbell, if_neg hres, if_neg hpow, hidle, Bool.false_eq_true, if_false]

/-- The detail of a register access holds the requester's number in its bits [23:16] (R45). -/
theorem info_lt {a : RegAcc} (hf : a.req.fn < 2 ^ 8) : a.info < 2 ^ 32 := by
  have hw : b2n a.req.secure ≤ 1 := by cases a.req.secure <;> decide
  unfold RegAcc.info
  omega

/-- R115: the doorbell of an IDLE queue, by a requester whose number fits its 8 bits. -/
theorem sqDoorbell_idle {w : RegWr} {f q : Nat} (harr : s.arrives w pg = true) (hq : queueWord (accOf w pg) = some (f, q, 0x20))
    (hsec : s.secretPage (accOf w pg) = false) (hres : s.fnState f ≠ .resetting) (hpow : s.power.state ≠ .fallow)
    (hidle : (s.queue f q).state = .idle) (hreq : w.req.fn < 2 ^ 8) :
    ∃ t, exec (.sqDoorbell w) s = .next t ∧ Records s t (qPage f) 0x000A (accOf w pg).info
      ∧ OnlyChanges s t [.regs, .out, .msiPending] ∧ SameWordsBut s t (errWords (qPage f)) := by
  have hrun : s.accessAt w (isQueueWord 0x20) doorbellWrite = s.recErr (qPage f) 0x000A (accOf w pg).info :=
    (accessAt_eq harr (by simp [isQueueWord, hq]) doorbellWrite).trans (doorbellWrite_idle hq hsec hres hpow hidle)
  exact ⟨_, congrArg Host.Outcome.next hrun, records_recErr (by decide) (info_lt hreq),
    recErr_only _ _ _ (List.Subset.refl _) (OnlyChanges.refl s _), sameWordsBut_recErr s _ _ _⟩

end State

/-! ### The doorbell that refutes O15 -/

/-- A state of full services, where queue 0 of PFA is IDLE. -/
def fullServices : State := { State.reset with regs := [(Page.sys.key F.SYS_STAT_PHASE.off, 0x17#32)] }

/-- A doorbell of that queue by a requester whose number needs 17 bits. -/
def wideRequesterDoorbell : RegWr := ⟨⟨0x10000, false⟩, .pf, (Page.hp 0).key 0x220, 0xF#4, 5#32⟩

theorem fullServices_inv : Inv fullServices := Sound.withRegs invAtReset (by decide)

/-- Refutes O15: ERR_INFO takes 32 bits of the detail, and a doorbell of an IDLE queue by a requester number of more than 16 bits, which
neither the invariant nor `arrives` excludes, has a longer one. With the number in its 8 bits the clause holds (`State.sqDoorbell_idle`). -/
theorem not_queueRegisters : ¬ Obligations.QueueRegisters := by
  intro h
  obtain ⟨-, -, -, -, hidle, -⟩ := h
  obtain ⟨t, -, ⟨-, hcode⟩, -⟩ := hidle fullServices wideRequesterDoorbell (.hp 0) 0 0 fullServices_inv (by decide) (by decide) (by decide)
    (by decide) (by decide) (by decide)
  rw [if_pos (by decide)] at hcode
  have hlong : 2 ^ 32 ≤ (accOf wideRequesterDoorbell (.hp 0)).info := by decide
  have hword := State.rw_lt t ((qPage 0).key 0x024)
  rw [hcode.2] at hword
  omega

end Sys2Proof.Machine
end

section
/-! Two states of functions in reset that the invariant admits: they refute O18 and O19. -/

namespace Sys2Proof.Machine

/-! ### The function reset that refutes O18

A reset abandons the function's commits and then arms the slot releases that waited for one (R128, R207). The commits of a group that has no
lead output apply as soon as they are ready (R197), whatever registers their words name. -/

/-- The functions, queues and commands may be any whose numbers are below the next one. -/
theorem Sound.withHosts {p : Part} {q : List Instr} {s : State} {hosts : Hosts} (hs : Sound p q s)
    (h : ∀ j ∈ hosts.jobs, j.jid < hosts.nextJid) : Sound p q { s with hosts := hosts } :=
  ⟨hs.part, hs.queue, hs.mem, hs.regs, hs.shad, hs.copyRegs, hs.copyShad, hs.flash, hs.time, h, hs.tables⟩

/-- The invariant says nothing of commits and releases. -/
theorem Sound.withDisplay {p : Part} {q : List Instr} {s : State} (hs : Sound p q s) (display : Display) :
    Sound p q { s with display := display } :=
  ⟨hs.part, hs.queue, hs.mem, hs.regs, hs.shad, hs.copyRegs, hs.copyShad, hs.flash, hs.time, hs.jobs, hs.tables⟩

/-- A waiting commit whose one word is HP_SRIOV of HPA with VF_ENABLE set. -/
def sriovCommit : Commit where
  cno := 7
  jid := none
  cid := 0
  fn := 9
  group := 0
  target := none
  entries := [((Page.hp 0).key F.HP_SRIOV_VF_ENABLE.off, 0x40)]
  pages := []
  stage := .waiting
  frame := 0
  todo := []
  posted := false
  handover := none
  release := none
  sentAt := 0
  silent := false

/-- VF 2 is enabled, no output runs, and the release of slot 0 waits beside that commit. -/
def releaseWaits : State := { State.reset with
  hosts := { Hosts.reset with fns := [(2, { absentFn with state := .enabled })] }
  display := { Display.reset with commits := [sriovCommit], waitingRelease := [0] } }

theorem releaseWaits_inv : Inv releaseWaits :=
  (Sound.withHosts (hosts := { Hosts.reset with fns := [(2, { absentFn with state := .enabled })] }) invAtReset fun _ h => nomatch h).withDisplay _

/-- The reset of VF 2 arms the release, the commit applies with it, and VF Enable is 1 again. -/
theorem clearVfEnable_releaseWaits : (releaseWaits.clearVfEnable 0).flag (.hp 0) F.HP_SRIOV_VF_ENABLE = true := by
  decide +kernel

/-- Refutes O18: the invariant admits a commit that names HP_SRIOV, and clearing VF Enable applies it. -/
theorem not_functionResetStart : ¬ Obligations.FunctionResetStart := by
  intro h
  obtain ⟨-, -, -, hclear, -⟩ := h
  obtain ⟨t, ht, hflag, -⟩ := hclear releaseWaits 0 releaseWaits_inv (by decide)
  have hrun : releaseWaits.clearVfEnable 0 = t := Host.Outcome.next.inj ht
  rw [← hrun, clearVfEnable_releaseWaits] at hflag
  exact Bool.noConfusion hflag

/-! ### The end of a function reset that refutes O19

Step 4 posts ABORTED for each command of the function in turn. One for which the completion ring has no room left waits behind it, and the
queue is then made IDLE, which discards what waits. -/

/-- A command of queue 1 of VF 2 that has been fetched. -/
def fetchedJob (jid cid : Nat) : Job := ⟨jid, 2, 1, cid, 0x10, [], 0, .fetched⟩

/-- VF 2 before step 4 of a managed reset: its queue 1 has two fetched commands and a completion ring of 2 entries, which R116 would fill with one. -/
def crowdedReset : State := { State.reset with
  regs := [((Page.vf 2).key 0x150, 0x00020008#32)]
  hosts := { Hosts.reset with
    queues := [(17, { idleQueue with state := .running })]
    fns := [(2, { absentFn with step := 3, hostOk := true })]
    jobs := [fetchedJob 50 3, fetchedJob 51 4]
    nextJid := 60 } }

theorem crowdedReset_inv : Inv crowdedReset :=
  (Sound.withRegs invAtReset (regs := [((Page.vf 2).key 0x150, 0x00020008#32)]) (by decide)).withHosts (by decide)

/-- CID and STATUS of a completion entry in host memory (R119). -/
def cidStatus : Output → Option Nat
  | .hostWrite _ _ ws => ws.head?
  | _ => none

/-- Only the first command's completion is put out. -/
theorem cidStatus_queueStep_crowdedReset :
    ∀ o ∈ (crowdedReset.queueStep 2).out, cidStatus o ≠ some (4 + 8 * 2 ^ 16) := by decide +kernel

/-- Refutes O19: the clause on ABORTED bounds the load of a queue by its ring before the first of the commands is reported, not before the
last of them, and the invariant does not bound it. -/
theorem not_functionStates : ¬ Obligations.FunctionStates := by
  intro h
  obtain ⟨-, -, -, habort, -⟩ := h
  obtain ⟨t, ht, tail, phase, hout⟩ := habort crowdedReset 2 (fetchedJob 51 4) crowdedReset_inv (by decide) (by decide) (by decide)
    (by decide) (by decide) (by decide) (by decide) (by decide) (by decide)
  have hrun : crowdedReset.queueStep 2 = t := Host.Outcome.next.inj ht
  rw [← hrun] at hout
  exact cidStatus_queueStep_crowdedReset _ hout rfl

end Sys2Proof.Machine
end

section
/-! Proofs about the Seedbed format: CLEAR entries (O59) and the round trip of a tile (O60). -/

namespace Sys2Proof.Machine.Seedbed

/-! ### Numbers packed from values of one width -/

theorem packBits_lt {w : Nat} {l : List Nat} (h : ∀ v ∈ l, v < 2 ^ w) : packBits w l < 2 ^ (w * l.length) := by
  induction l with
  | nil => exact Nat.two_pow_pos _
  | cons v r ih =>
    have hr := ih fun x hx => h x (List.mem_cons_of_mem _ hx)
    have hv := h v List.mem_cons_self
    calc v + 2 ^ w * packBits w r < 2 ^ w * (packBits w r + 1) := by rw [Nat.mul_add]; omega
      _ ≤ 2 ^ w * 2 ^ (w * r.length) := Nat.mul_le_mul_left _ hr
      _ = 2 ^ (w * (v :: r).length) := by rw [← Nat.pow_add, List.length_cons, Nat.mul_add, Nat.mul_one, Nat.add_comm]

/-- Values above the packed ones do not disturb them. -/
theorem unpackBits_packBits_add {w : Nat} {l : List Nat} (h : ∀ v ∈ l, v < 2 ^ w) (x : Nat) :
    unpackBits w l.length (packBits w l + 2 ^ (w * l.length) * x) = l := by
  induction l with
  | nil => rfl
  | cons v r ih =>
    have hv := h v List.mem_cons_self
    have e : packBits w (v :: r) + 2 ^ (w * (v :: r).length) * x = v + 2 ^ w * (packBits w r + 2 ^ (w * r.length) * x) := by
      rw [List.length_cons, Nat.mul_add, Nat.pow_add, Nat.mul_one, packBits, Nat.mul_add, Nat.add_assoc,
        Nat.mul_comm (2 ^ (w * r.length)) (2 ^ w), Nat.mul_assoc]
    rw [e, List.length_cons, unpackBits, Nat.add_mul_mod_self_left, Nat.mod_eq_of_lt hv, Nat.add_mul_div_left _ _ (Nat.two_pow_pos w),
      Nat.div_eq_of_lt hv, Nat.zero_add, ih fun y hy => h y (List.mem_cons_of_mem _ hy)]

theorem unpackBits_packBits {w : Nat} {l : List Nat} (h : ∀ v ∈ l, v < 2 ^ w) : unpackBits w l.length (packBits w l) = l := by
  have h0 := unpackBits_packBits_add h 0
  rwa [Nat.mul_zero, Nat.add_zero] at h0

/-- Zeros at the top add nothing. -/
theorem packBits_append_zeros (w : Nat) (l : List Nat) (k : Nat) : packBits w (l ++ List.replicate k 0) = packBits w l := by
  induction l with
  | nil =>
    induction k with
    | zero => rfl
    | succ k ih =>
      rw [List.nil_append] at ih ⊢
      have hstep : packBits w (0 :: List.replicate k 0) = 0 + 2 ^ w * packBits w (List.replicate k 0) := rfl
      rw [List.replicate_succ, hstep, ih, packBits, Nat.mul_zero]
  | cons v r ih => simp only [List.cons_append, packBits, ih]

/-- The data words of a number, packed again, are its low bits. -/
theorem packBits_wordOf (m v : Nat) : packBits 128 ((List.range m).map fun k => wordOf k v) = v % 2 ^ (128 * m) := by
  induction m generalizing v with
  | zero => exact (Nat.mod_one v).symm
  | succ m ih =>
    have hstep : ∀ k, wordOf (k + 1) v = wordOf k (v / 2 ^ 128) := fun k => by
      rw [wordOf, wordOf, Nat.div_div_eq_div_mul, ← Nat.pow_add, Nat.mul_add, Nat.add_comm]
    have hmap : ((List.range (m + 1)).map fun k => wordOf k v) = wordOf 0 v :: (List.range m).map fun k => wordOf k (v / 2 ^ 128) := by
      rw [List.range_succ_eq_map, List.map_cons, List.map_map]
      exact congrArg _ (List.map_congr_left fun k _ => hstep k)
    rw [hmap, packBits, ih, wordOf, Nat.mul_zero, Nat.pow_zero, Nat.div_one, Nat.mul_add, Nat.mul_one, Nat.add_comm (128 * m), Nat.pow_add,
      Nat.mod_mul]

theorem wordOf_lt (k v : Nat) : wordOf k v < 2 ^ 128 := Nat.mod_lt _ (Nat.two_pow_pos _)

/-! ### The range of a channel (R144) -/

theorem listMin_le {l : List Nat} {v : Nat} (h : v ∈ l) : listMin l ≤ v := by
  induction l with
  | nil => cases h
  | cons a r ih =>
    cases r with
    | nil => exact Nat.le_of_eq (List.mem_singleton.1 h).symm
    | cons b r =>
      show min a (listMin (b :: r)) ≤ v
      rcases List.mem_cons.1 h with rfl | hm
      · exact Nat.min_le_left _ _
      · exact Nat.le_trans (Nat.min_le_right _ _) (ih hm)

theorem le_listMax {l : List Nat} {v : Nat} (h : v ∈ l) : v ≤ listMax l := by
  induction l with
  | nil => cases h
  | cons a r ih =>
    rcases List.mem_cons.1 h with rfl | hm
    · exact Nat.le_max_left _ _
    · exact Nat.le_trans (ih hm) (Nat.le_max_right _ _)

theorem listMax_lt {l : List Nat} {b : Nat} (hb : 0 < b) (h : ∀ v ∈ l, v < b) : listMax l < b := by
  induction l with
  | nil => exact hb
  | cons a r ih => exact Nat.max_lt.2 ⟨h a List.mem_cons_self, ih fun v hv => h v (List.mem_cons_of_mem _ hv)⟩

theorem widthFor_spec {d k : Nat} (hk : k ≤ 16) (h : d < 2 ^ k) : d < 2 ^ widthFor d ∧ widthFor d ≤ k := by
  obtain ⟨w, hw⟩ : ∃ w, (List.range 17).find? (fun w => decide (d < 2 ^ w)) = some w := by
    rw [← Option.isSome_iff_exists, List.find?_isSome]
    exact ⟨k, List.mem_range.2 (by omega), decide_eq_true h⟩
  have hwf : widthFor d = w := by rw [widthFor, hw]; rfl
  rw [List.find?_range_eq_some] at hw
  obtain ⟨hlt, -, hleast⟩ := hw
  rw [hwf]
  refine ⟨of_decide_eq_true hlt, Nat.le_of_not_lt fun hkw => ?_⟩
  have hnot := hleast k hkw
  rw [decide_eq_true h] at hnot
  cases hnot

theorem chanOf_lt (e : Nat) (c : Nat × Nat) : chanOf e c < 2 ^ c.2 := Nat.mod_lt _ (Nat.two_pow_pos _)

/-- Least value and width of channel `c` over the elements of a tile. -/
def chanRange (es : List Nat) (c : Nat × Nat) : (Nat × Nat) × Nat × Nat :=
  (c, listMin (es.map fun e => chanOf e c), widthFor (listMax (es.map fun e => chanOf e c) - listMin (es.map fun e => chanOf e c)))

theorem listMin_lt {l : List Nat} {b : Nat} (hb : 0 < b) (h : ∀ v ∈ l, v < b) : listMin l < b := by
  cases l with
  | nil => exact hb
  | cons a r => exact Nat.lt_of_le_of_lt (listMin_le List.mem_cons_self) (h a List.mem_cons_self)

theorem chanRange_min_lt (es : List Nat) (c : Nat × Nat) : (chanRange es c).2.1 < 2 ^ c.2 :=
  listMin_lt (Nat.two_pow_pos _) fun v hv => by
    obtain ⟨e, -, rfl⟩ := List.mem_map.1 hv
    exact chanOf_lt e c

theorem chanRange_span_lt (es : List Nat) (c : Nat × Nat) :
    listMax (es.map fun e => chanOf e c) - listMin (es.map fun e => chanOf e c) < 2 ^ c.2 :=
  Nat.lt_of_le_of_lt (Nat.sub_le _ _) <| listMax_lt (Nat.two_pow_pos _) fun v hv => by
    obtain ⟨e, -, rfl⟩ := List.mem_map.1 hv
    exact chanOf_lt e c

theorem chanRange_width_le {c : Nat × Nat} (hc : c.2 ≤ 16) (es : List Nat) : (chanRange es c).2.2 ≤ c.2 :=
  (widthFor_spec hc (chanRange_span_lt es c)).2

/-- What an element adds to the least value of its channel fits the channel's width. -/
theorem chanOf_mem_chanRange {c : Nat × Nat} (hc : c.2 ≤ 16) {es : List Nat} {e : Nat} (he : e ∈ es) :
    (chanRange es c).2.1 ≤ chanOf e c ∧ chanOf e c - (chanRange es c).2.1 < 2 ^ (chanRange es c).2.2 := by
  have hm : chanOf e c ∈ es.map fun e => chanOf e c := List.mem_map.2 ⟨e, he, rfl⟩
  refine ⟨listMin_le hm, ?_⟩
  have hw : _ < 2 ^ (chanRange es c).2.2 := (widthFor_spec hc (chanRange_span_lt es c)).1
  exact Nat.lt_of_le_of_lt (Nat.sub_le_sub_right (le_listMax hm) _) hw

/-! ### Residuals: an element as offsets from the least values of its channels (R142, R143) -/

/-- The residual of an element over the channel ranges, first channel lowest. -/
def residual (e : Nat) : List ((Nat × Nat) × Nat × Nat) → Nat
  | [] => 0
  | x :: r => (chanOf e x.1 - x.2.1) + 2 ^ x.2.2 * residual e r

/-- The element that a residual stands for. -/
def elemFrom : List ((Nat × Nat) × Nat × Nat) → Nat → Nat
  | [], _ => 0
  | x :: l, r => (x.2.1 + r % 2 ^ x.2.2) % 2 ^ x.1.2 * 2 ^ x.1.1 + elemFrom l (r / 2 ^ x.2.2)

/-- Bits that a residual takes. -/
def residualWidth (l : List ((Nat × Nat) × Nat × Nat)) : Nat := (l.map fun x => x.2.2).sum

theorem residualWidth_cons (x : (Nat × Nat) × Nat × Nat) (l : List ((Nat × Nat) × Nat × Nat)) :
    residualWidth (x :: l) = x.2.2 + residualWidth l := rfl

/-- The encoder's fold is the residual. -/
theorem foldl_residual (e : Nat) (l : List ((Nat × Nat) × Nat × Nat)) (a b : Nat) :
    l.foldl (fun (acc : Nat × Nat) x => (acc.1 + (chanOf e x.1 - x.2.1) * 2 ^ acc.2, acc.2 + x.2.2)) (a, b)
      = (a + 2 ^ b * residual e l, b + residualWidth l) := by
  induction l generalizing a b with
  | nil => rfl
  | cons x l ih =>
    rw [List.foldl_cons, ih, residual, residualWidth_cons]
    refine Prod.ext ?_ (Nat.add_assoc _ _ _)
    dsimp only
    rw [Nat.pow_add, Nat.mul_add, Nat.add_assoc, Nat.mul_comm (chanOf e x.1 - x.2.1), Nat.mul_assoc]

/-- The decoder's fold is the element. -/
theorem foldl_elemFrom (r : Nat) (l : List ((Nat × Nat) × Nat × Nat)) (a b : Nat) :
    (l.foldl (fun (acc : Nat × Nat) (x : (Nat × Nat) × Nat × Nat) =>
        (acc.1 + (x.2.1 + r / 2 ^ acc.2 % 2 ^ x.2.2) % 2 ^ x.1.2 * 2 ^ x.1.1, acc.2 + x.2.2)) (a, b)).1
      = a + elemFrom l (r / 2 ^ b) := by
  induction l generalizing a b with
  | nil => rfl
  | cons x l ih => rw [List.foldl_cons, ih, elemFrom, Nat.pow_add, Nat.div_div_eq_div_mul, Nat.add_assoc]

/-- Each channel of the element lies within its range. -/
def Within (e : Nat) (l : List ((Nat × Nat) × Nat × Nat)) : Prop :=
  ∀ x ∈ l, x.2.1 ≤ chanOf e x.1 ∧ chanOf e x.1 - x.2.1 < 2 ^ x.2.2

theorem residual_lt {e : Nat} {l : List ((Nat × Nat) × Nat × Nat)} (h : Within e l) : residual e l < 2 ^ residualWidth l := by
  induction l with
  | nil => exact Nat.one_pos
  | cons x l ih =>
    obtain ⟨-, hx⟩ := h x List.mem_cons_self
    have hl := ih fun y hy => h y (List.mem_cons_of_mem _ hy)
    calc residual e (x :: l) < 2 ^ x.2.2 * (residual e l + 1) := by rw [residual, Nat.mul_add]; omega
      _ ≤ 2 ^ x.2.2 * 2 ^ residualWidth l := Nat.mul_le_mul_left _ hl
      _ = 2 ^ residualWidth (x :: l) := by rw [← Nat.pow_add]; rfl

/-- The channels of an element, each at its place. -/
theorem elemFrom_residual {e : Nat} {l : List ((Nat × Nat) × Nat × Nat)} (h : Within e l) :
    elemFrom l (residual e l) = (l.map fun x => chanOf e x.1 * 2 ^ x.1.1).sum := by
  induction l with
  | nil => rfl
  | cons x l ih =>
    obtain ⟨hle, hlt⟩ := h x List.mem_cons_self
    have hl := ih fun y hy => h y (List.mem_cons_of_mem _ hy)
    rw [elemFrom, residual, Nat.add_mul_mod_self_left, Nat.mod_eq_of_lt hlt, Nat.add_sub_cancel' hle, Nat.mod_eq_of_lt (chanOf_lt e x.1),
      Nat.add_mul_div_left _ _ (Nat.two_pow_pos _), Nat.div_eq_of_lt hlt, Nat.zero_add, hl, List.map_cons, List.sum_cons]

/-- Channels that follow each other without a gap from bit `lo` to bit `hi`. -/
def Contiguous : Nat → List (Nat × Nat) → Nat → Prop
  | lo, [], hi => lo = hi
  | lo, c :: r, hi => c.1 = lo ∧ Contiguous (lo + c.2) r hi

theorem sum_chanOf {cs : List (Nat × Nat)} {lo hi : Nat} (h : Contiguous lo cs hi) (e : Nat) :
    (cs.map fun c => chanOf e c * 2 ^ c.1).sum + e % 2 ^ lo = e % 2 ^ hi := by
  induction cs generalizing lo with
  | nil => rw [show lo = hi from h]; exact Nat.zero_add _
  | cons c r ih =>
    obtain ⟨rfl, hr⟩ := h
    rw [← ih hr, List.map_cons, List.sum_cons, Nat.pow_add, Nat.mod_mul, chanOf, Nat.mul_comm (2 ^ c.1)]
    ac_rfl

/-! ### The planes of R132 and R134 -/

/-- What every plane has: up to four channels of at most 16 bits that make up an element, elements of at most 4 or of 8 bytes, and 256 bytes
in a tile. -/
structure Plane.Regular (pl : Plane) : Prop where
  chans : pl.chans.length ≤ 4
  widths : ∀ c ∈ pl.chans, c.2 ≤ 16
  contiguous : Contiguous 0 pl.chans (8 * pl.bytes)
  bytes : pl.bytes ≤ 4 ∨ pl.bytes = 8
  tile : 8 * pl.bytes * pl.count = 2048

theorem regular_of_planes {format : Nat} {pls : List Plane} {pl : Plane} (h : planes format = some pls) (hm : pl ∈ pls) : pl.Regular := by
  unfold planes at h
  split at h <;> cases h
  case h_5 =>
    rcases List.mem_cons.1 hm with rfl | hm
    · exact ⟨by decide, by decide, by simp [Contiguous], by decide, by decide⟩
    · cases List.mem_singleton.1 hm
      exact ⟨by decide, by decide, by simp [Contiguous], by decide, by decide⟩
  all_goals
    cases List.mem_singleton.1 hm
    exact ⟨by decide, by decide, by simp [Contiguous], by decide, by decide⟩

/-! ### Entries (R138, R139) -/

/-- An entry of a mode, with its count of words and its low 32 bits. -/
def entryOf (mode words low : Nat) : Nat := mode * 2 ^ 62 + words * 2 ^ 57 + low

section entry
variable {mode words low : Nat}

theorem entryOf_mode (hm : mode < 4) (hw : words < 32) (hl : low < 2 ^ 32) : entryOf mode words low / 2 ^ 62 % 4 = mode := by
  unfold entryOf; omega

theorem entryOf_words (hw : words < 32) (hl : low < 2 ^ 32) : entryOf mode words low / 2 ^ 57 % 32 = words := by
  unfold entryOf; omega

theorem entryOf_rsvd (hl : low < 2 ^ 32) : entryOf mode words low / 2 ^ 32 % 2 ^ 25 = 0 := by unfold entryOf; omega

theorem entryOf_const (hl : low < 2 ^ 32) : entryOf mode words low % 2 ^ 32 = low := by unfold entryOf; omega

theorem entryOf_lt (hm : mode < 4) (hw : words < 32) (hl : low < 2 ^ 32) : entryOf mode words low < 2 ^ 64 := by
  unfold entryOf; omega

end entry

/-- With WORDS = 0 nothing is fetched. -/
theorem fetchCount_words_zero (pl : Plane) {entry : Nat} (h : entry / 2 ^ 57 % 32 = 0) : fetchCount pl entry = 0 := by
  simp only [fetchCount, h, ↓reduceIte]

theorem decode_words_zero (pl : Plane) {entry : Nat} (ws : List Nat) (h : entry / 2 ^ 57 % 32 = 0) :
    decode pl entry ws = some (List.replicate pl.count 0) := by
  simp only [decode, h, ↓reduceIte]

section decode
variable {words low : Nat} (hw : words < 32) (h0 : words ≠ 0) (pl : Plane)
include hw h0

/-- What a reader fetches by the mode of the entry. -/
theorem fetchCount_entryOf {mode : Nat} (hm : mode < 4) (hl : low < 2 ^ 32) : fetchCount pl (entryOf mode words low)
    = if mode = 0 then 16 else if mode = 1 then words else if mode = 2 then (if pl.bytes = 8 then 1 else 0) else 0 := by
  simp only [fetchCount, entryOf_mode hm hw hl, entryOf_words hw hl, h0, ↓reduceIte]

theorem decode_clear (ws : List Nat) : decode pl (entryOf 3 words 0) ws = some (List.replicate pl.count 0) := by
  have hl : 0 < 2 ^ 32 := by decide
  simp only [decode, entryOf_mode (by decide : 3 < 4) hw hl, entryOf_words hw hl, entryOf_rsvd hl, h0, ↓reduceIte, ne_eq,
    not_true_eq_false]

/-- CONSTANT of an eight-byte element has its value in a data word (R140). -/
theorem decode_const_word (hb : pl.bytes = 8) {e : Nat} (he : e < 2 ^ 64) :
    decode pl (entryOf 2 words 0) [e] = some (List.replicate pl.count e) := by
  have hl : 0 < 2 ^ 32 := by decide
  simp only [decode, entryOf_mode (by decide : 2 < 4) hw hl, entryOf_words hw hl, entryOf_rsvd hl, entryOf_const hl, h0, hb, ↓reduceIte,
    ne_eq, not_true_eq_false, Nat.reduceEqDiff, List.headD_cons, Nat.mod_eq_of_lt he]

/-- CONSTANT of a smaller element has it in the entry (R140). -/
theorem decode_const_entry (hb : pl.bytes ≠ 8) (hl : low < 2 ^ 32) (he : low < 2 ^ (8 * pl.bytes)) (ws : List Nat) :
    decode pl (entryOf 2 words low) ws = some (List.replicate pl.count low) := by
  simp only [decode, entryOf_mode (by decide : 2 < 4) hw hl, entryOf_words hw hl, entryOf_rsvd hl, entryOf_const hl, h0, hb, ↓reduceIte,
    ne_eq, not_true_eq_false, Nat.reduceEqDiff, Nat.not_le.2 he]

end decode

theorem decode_raw (pl : Plane) (ws : List Nat) : decode pl (entryOf 0 16 0) ws = some (elemsOf pl ws) := by
  have hw : 16 < 32 := by decide
  have hl : 0 < 2 ^ 32 := by decide
  simp only [decode, entryOf_mode (by decide : 0 < 4) hw hl, entryOf_words hw hl, entryOf_rsvd hl, ↓reduceIte, ne_eq, not_true_eq_false,
    Nat.reduceEqDiff]

/-! ### PACKED tiles (R141 to R143) -/

/-- A list of up to four values, as the four places of the header word hold it. -/
def pad4 (l : List Nat) : List Nat := l ++ List.replicate (4 - l.length) 0

theorem length_pad4 {l : List Nat} (h : l.length ≤ 4) : (pad4 l).length = 4 := by
  rw [pad4, List.length_append, List.length_replicate]
  omega

theorem mem_pad4 {l : List Nat} {v : Nat} (h : v ∈ pad4 l) : v ∈ l ∨ v = 0 :=
  (List.mem_append.1 h).imp_right List.eq_of_mem_replicate

theorem sum_pad4 (l : List Nat) : (pad4 l).sum = l.sum := by
  rw [pad4, List.sum_append, List.sum_replicate_nat, Nat.mul_zero, Nat.add_zero]

theorem getD_pad4_left {l : List Nat} {c : Nat} (h : c < l.length) : (pad4 l).getD c 0 = l[c] := by
  rw [pad4, List.getD, List.getElem?_append_left h, List.getElem?_eq_getElem h, Option.getD_some]

theorem getD_pad4_right {l : List Nat} {c : Nat} (h : l.length ≤ c) : (pad4 l).getD c 0 = 0 := by
  rw [pad4, List.getD, List.getElem?_append_right h, List.getElem?_replicate]
  split <;> rfl

/-- Zipping the channels with the padded header values gives their ranges back. -/
theorem zip_header (cs : List (Nat × Nat)) (f : Nat × Nat → (Nat × Nat) × Nat × Nat) (hf : ∀ c, (f c).1 = c) (p q : List Nat) :
    cs.zip (((cs.map fun c => (f c).2.1) ++ p).zip ((cs.map fun c => (f c).2.2) ++ q)) = cs.map f := by
  induction cs with
  | nil => rfl
  | cons c r ih =>
    simp only [List.map_cons, List.cons_append, List.zip_cons_cons, ih]
    exact congrArg (· :: _) (Prod.ext (hf c).symm rfl)

/-- The header word of a PACKED tile (R141): least values, then widths. -/
def header (rs : List ((Nat × Nat) × Nat × Nat)) : Nat :=
  packBits 16 (rs.map fun x => x.2.1) + 2 ^ 64 * packBits 5 (rs.map fun x => x.2.2)

/-- Data words of a PACKED tile: the header and its residuals (R142). -/
def packedWords (pl : Plane) (rs : List ((Nat × Nat) × Nat × Nat)) : Nat := 1 + (pl.count * residualWidth rs + 127) / 128

section header
variable {rs : List ((Nat × Nat) × Nat × Nat)} (hlen : rs.length ≤ 4) (hmin : ∀ x ∈ rs, x.2.1 < 2 ^ 16) (hwid : ∀ x ∈ rs, x.2.2 < 2 ^ 5)

include hmin in
theorem mins_lt : ∀ v ∈ rs.map fun x => x.2.1, v < 2 ^ 16 := by
  intro v hv
  obtain ⟨x, hx, rfl⟩ := List.mem_map.1 hv
  exact hmin x hx

include hwid in
theorem widths_lt : ∀ v ∈ rs.map fun x => x.2.2, v < 2 ^ 5 := by
  intro v hv
  obtain ⟨x, hx, rfl⟩ := List.mem_map.1 hv
  exact hwid x hx

include hlen hmin in
theorem mins_header : unpackBits 16 4 (header rs) = pad4 (rs.map fun x => x.2.1) := by
  have h4 := length_pad4 (l := rs.map fun x => x.2.1) (by rwa [List.length_map])
  have hlt : ∀ v ∈ pad4 (rs.map fun x => x.2.1), v < 2 ^ 16 := fun v hv => by
    rcases mem_pad4 hv with hm | rfl
    · exact mins_lt hmin v hm
    · decide
  have h := unpackBits_packBits_add hlt (packBits 5 (rs.map fun x => x.2.2))
  rw [h4, pad4, packBits_append_zeros] at h
  exact h

include hlen hmin in
theorem header_div : header rs / 2 ^ 64 = packBits 5 (rs.map fun x => x.2.2) := by
  have hlt : packBits 16 (rs.map fun x => x.2.1) < 2 ^ 64 :=
    Nat.lt_of_lt_of_le (packBits_lt (mins_lt hmin)) (Nat.pow_le_pow_right (by decide) (by rw [List.length_map]; omega))
  rw [header, Nat.add_mul_div_left _ _ (Nat.two_pow_pos _), Nat.div_eq_of_lt hlt, Nat.zero_add]

include hlen hmin hwid

theorem widths_header : unpackBits 5 4 (header rs / 2 ^ 64) = pad4 (rs.map fun x => x.2.2) := by
  have h4 := length_pad4 (l := rs.map fun x => x.2.2) (by rwa [List.length_map])
  have hlt : ∀ v ∈ pad4 (rs.map fun x => x.2.2), v < 2 ^ 5 := fun v hv => by
    rcases mem_pad4 hv with hm | rfl
    · exact widths_lt hwid v hm
    · decide
  have h := unpackBits_packBits hlt
  rw [h4, pad4, packBits_append_zeros, ← pad4] at h
  rw [header_div hlen hmin, h]

/-- The bits above the header's fields are 0. -/
theorem header_lt : header rs < 2 ^ 84 := by
  have hlt : packBits 5 (rs.map fun x => x.2.2) < 2 ^ 20 :=
    Nat.lt_of_lt_of_le (packBits_lt (widths_lt hwid)) (Nat.pow_le_pow_right (by decide) (by rw [List.length_map]; omega))
  rw [show (2 : Nat) ^ 84 = 2 ^ 20 * 2 ^ 64 from rfl, ← Nat.div_lt_iff_lt_mul (Nat.two_pow_pos _), header_div hlen hmin]
  exact hlt

end header

/-- The ranges of the channels of a plane over a tile. -/
def ranges (pl : Plane) (es : List Nat) : List ((Nat × Nat) × Nat × Nat) := pl.chans.map (chanRange es)

section ranges
variable {pl : Plane} (hpl : pl.Regular) (es : List Nat)
include hpl

theorem ranges_length : (ranges pl es).length ≤ 4 := by rw [ranges, List.length_map]; exact hpl.chans

theorem ranges_min_lt : ∀ x ∈ ranges pl es, x.2.1 < 2 ^ 16 :=
  List.forall_mem_map.2 fun c hc => Nat.lt_of_lt_of_le (chanRange_min_lt es c) (Nat.pow_le_pow_right (by decide) (hpl.widths c hc))

theorem ranges_width_lt : ∀ x ∈ ranges pl es, x.2.2 < 2 ^ 5 :=
  List.forall_mem_map.2 fun c hc => by
    have h1 := chanRange_width_le (hpl.widths c hc) es
    have h2 := hpl.widths c hc
    omega

theorem within_ranges {e : Nat} (he : e ∈ es) : Within e (ranges pl es) :=
  List.forall_mem_map.2 fun c hc => chanOf_mem_chanRange (hpl.widths c hc) he

/-- A residual stands for its element. -/
theorem elemFrom_residual_ranges {e : Nat} (he : e ∈ es) (hlt : e < 2 ^ (8 * pl.bytes)) :
    elemFrom (ranges pl es) (residual e (ranges pl es)) = e := by
  rw [elemFrom_residual (within_ranges hpl es he), ranges, List.map_map]
  have h := sum_chanOf hpl.contiguous e
  rw [Nat.pow_zero, Nat.mod_one, Nat.add_zero, Nat.mod_eq_of_lt hlt] at h
  exact h

/-- The header's fields of channel `c` pass the reader's check (R145): within the channel's width, or 0 where there is no channel. -/
theorem header_channel (c : Nat) :
    (∀ ch, pl.chans[c]? = some ch → (pad4 ((ranges pl es).map fun x => x.2.1)).getD c 0 < 2 ^ ch.2
        ∧ (pad4 ((ranges pl es).map fun x => x.2.2)).getD c 0 ≤ ch.2)
      ∧ (pl.chans[c]? = none → (pad4 ((ranges pl es).map fun x => x.2.1)).getD c 0 = 0
        ∧ (pad4 ((ranges pl es).map fun x => x.2.2)).getD c 0 = 0) := by
  constructor
  · intro ch h
    obtain ⟨hc, rfl⟩ := List.getElem?_eq_some_iff.1 h
    have hr : c < (ranges pl es).length := by rwa [ranges, List.length_map]
    rw [getD_pad4_left (by rwa [List.length_map]), getD_pad4_left (by rwa [List.length_map])]
    simp only [ranges, List.getElem_map]
    exact ⟨chanRange_min_lt es pl.chans[c], chanRange_width_le (hpl.widths _ (List.getElem_mem hc)) es⟩
  · intro h
    have hr : (ranges pl es).length ≤ c := by rw [ranges, List.length_map]; exact List.getElem?_eq_none_iff.1 h
    exact ⟨getD_pad4_right (by rwa [List.length_map]), getD_pad4_right (by rwa [List.length_map])⟩

/-- A PACKED tile decodes to the elements that its residuals stand for. -/
theorem decode_packed (hw : packedWords pl (ranges pl es) ≤ 15) (tail : List Nat) :
    decode pl (entryOf 1 (packedWords pl (ranges pl es)) 0) (header (ranges pl es) :: tail)
      = some ((unpackBits (residualWidth (ranges pl es)) pl.count (packBits 128 tail)).map (elemFrom (ranges pl es))) := by
  have hlen := ranges_length hpl es
  have hmin := ranges_min_lt hpl es
  have hwid := ranges_width_lt hpl es
  have hl : 0 < 2 ^ 32 := by decide
  have hw' : packedWords pl (ranges pl es) < 32 := by omega
  have h0 : packedWords pl (ranges pl es) ≠ 0 := by unfold packedWords; omega
  have hs : (pad4 ((ranges pl es).map fun x => x.2.2)).sum = residualWidth (ranges pl es) := sum_pad4 _
  have hzip : pl.chans.zip ((pad4 ((ranges pl es).map fun x => x.2.1)).zip (pad4 ((ranges pl es).map fun x => x.2.2))) = ranges pl es := by
    rw [pad4, pad4, ranges, List.map_map, List.map_map]
    exact zip_header pl.chans (chanRange es) (fun _ => rfl) _ _
  simp only [decode, entryOf_mode (by decide : 1 < 4) hw' hl, entryOf_words hw' hl, entryOf_rsvd hl, h0, ↓reduceIte, ne_eq,
    not_true_eq_false, Nat.reduceEqDiff, List.headD_cons, mins_header hlen hmin, widths_header hlen hmin hwid, hs, hzip,
    Nat.div_eq_of_lt (header_lt hlen hmin hwid), List.drop_succ_cons, List.drop_zero]
  rw [if_neg]
  · exact congrArg some (List.map_congr_left fun r _ => by rw [foldl_elemFrom, Nat.pow_zero, Nat.div_one, Nat.zero_add])
  · rintro (h | h | h | h)
    · exact h
    · obtain ⟨c, -, hc⟩ := List.all_eq_false.1 (Bool.not_eq_true' _ ▸ h)
      obtain ⟨hsome, hnone⟩ := header_channel hpl es c
      split at hc
      case h_1 ch hch => exact hc (by rw [Bool.and_eq_true, decide_eq_true_eq, decide_eq_true_eq]; exact hsome ch hch)
      case h_2 hch => exact hc (by rw [Bool.and_eq_true, beq_iff_eq, beq_iff_eq]; exact hnone hch)
    · omega
    · exact h rfl

end ranges

/-! ### The four modes of the encoder (R144) -/

/-- The residuals of a tile, packed. -/
def residuals (pl : Plane) (es : List Nat) : Nat :=
  packBits (residualWidth (ranges pl es)) (es.map fun e => residual e (ranges pl es))

section encode
variable {pl : Plane} {es : List Nat}

theorem all_beq {v : Nat} : es.all (· == v) = true ↔ ∀ e ∈ es, e = v := by
  simp only [List.all_eq_true, beq_iff_eq]

theorem encode_zeros (h : ∀ e ∈ es, e = 0) : encode pl es = ⟨entryOf 3 1 0, [], 3⟩ := by
  unfold encode
  exact if_pos (all_beq.2 h)

variable (hz : ¬∀ e ∈ es, e = 0)
include hz

theorem encode_same_word (hs : ∀ e ∈ es, e = es.headD 0) (hb : pl.bytes = 8) : encode pl es = ⟨entryOf 2 1 0, [es.headD 0], 2⟩ := by
  unfold encode
  exact (if_neg (mt all_beq.1 hz)).trans ((if_pos (all_beq.2 hs)).trans (if_pos hb))

theorem encode_same_entry (hs : ∀ e ∈ es, e = es.headD 0) (hb : pl.bytes ≠ 8) :
    encode pl es = ⟨entryOf 2 1 (es.headD 0), [], 2⟩ := by
  unfold encode
  exact (if_neg (mt all_beq.1 hz)).trans ((if_pos (all_beq.2 hs)).trans (if_neg hb))

variable (hs : ¬∀ e ∈ es, e = es.headD 0)
include hs

theorem encode_packed (hw : packedWords pl (ranges pl es) ≤ 15) : encode pl es =
    ⟨entryOf 1 (packedWords pl (ranges pl es)) 0, header (ranges pl es) ::
      (List.range (packedWords pl (ranges pl es) - 1)).map fun k => wordOf k (residuals pl es), 1⟩ := by
  have hres : residuals pl es = packBits (residualWidth (ranges pl es)) (es.map fun e => ((ranges pl es).foldl
      (fun (acc : Nat × Nat) x => (acc.1 + (chanOf e x.1 - x.2.1) * 2 ^ acc.2, acc.2 + x.2.2)) (0, 0)).1) := by
    simp only [foldl_residual, Nat.pow_zero, Nat.one_mul, Nat.zero_add, residuals]
  rw [hres, entryOf, Nat.add_zero]
  unfold encode
  exact (if_neg (mt all_beq.1 hz)).trans ((if_neg (mt all_beq.1 hs)).trans (if_pos hw))

theorem encode_raw (hw : ¬packedWords pl (ranges pl es) ≤ 15) : encode pl es =
    ⟨entryOf 0 16 0, (List.range 16).map fun k => wordOf k (packBits (8 * pl.bytes) es), 0⟩ := by
  unfold encode
  exact (if_neg (mt all_beq.1 hz)).trans ((if_neg (mt all_beq.1 hs)).trans (if_neg hw))

end encode

/-! ### The round trip -/

/-- An encoded tile reads back: its elements, from the words that a reader fetches for it, and its entry and words have their sizes. -/
structure Roundtrips (pl : Plane) (es : List Nat) (x : Encoded) : Prop where
  decodes : decode pl x.entry x.words = some es
  fetched : x.words.length = fetchCount pl x.entry
  entry_lt : x.entry < 2 ^ 64
  words_lt : ∀ w ∈ x.words, w < 2 ^ 128

section roundtrip
variable {pl : Plane} {es : List Nat} (hpl : pl.Regular) (hn : es.length = pl.count) (hlt : ∀ e ∈ es, e < 2 ^ (8 * pl.bytes))

include hn in
theorem roundtrips_zeros (hz : ∀ e ∈ es, e = 0) : Roundtrips pl es (encode pl es) := by
  rw [encode_zeros hz]
  exact {
    decodes := by rw [decode_clear (by decide) (by decide), ← hn, ← List.eq_replicate_of_mem hz]
    fetched := by rw [fetchCount_entryOf (by decide) (by decide) pl (by decide) (by decide)]; rfl
    entry_lt := entryOf_lt (by decide) (by decide) (by decide)
    words_lt := fun _ h => nomatch h }

include hpl hn hlt in
theorem roundtrips_same (hz : ¬∀ e ∈ es, e = 0) (hs : ∀ e ∈ es, e = es.headD 0) : Roundtrips pl es (encode pl es) := by
  have hes : List.replicate pl.count (es.headD 0) = es := by rw [← hn, ← List.eq_replicate_of_mem hs]
  have he : es.headD 0 < 2 ^ (8 * pl.bytes) := by
    cases es with
    | nil => exact Nat.two_pow_pos _
    | cons e r => exact hlt e List.mem_cons_self
  by_cases hb : pl.bytes = 8
  · have he64 : es.headD 0 < 2 ^ 64 := by rwa [hb] at he
    rw [encode_same_word hz hs hb]
    exact {
      decodes := by rw [decode_const_word (by decide) (by decide) pl hb he64, hes]
      fetched := by
        rw [fetchCount_entryOf (by decide) (by decide) pl (by decide) (by decide), if_neg (by decide),
          if_neg (by decide), if_pos rfl, if_pos hb]
        rfl
      entry_lt := entryOf_lt (by decide) (by decide) (by decide)
      words_lt := fun w hw => by
        rw [List.mem_singleton.1 hw]
        omega }
  · have he32 : es.headD 0 < 2 ^ 32 :=
      Nat.lt_of_lt_of_le he (Nat.pow_le_pow_right (by decide) (by have := hpl.bytes; omega))
    rw [encode_same_entry hz hs hb]
    exact {
      decodes := by rw [decode_const_entry (by decide) (by decide) pl hb he32 he, hes]
      fetched := by
        rw [fetchCount_entryOf (by decide) (by decide) pl (by decide) he32, if_neg (by decide),
          if_neg (by decide), if_pos rfl, if_neg hb]
        rfl
      entry_lt := entryOf_lt (by decide) (by decide) he32
      words_lt := fun _ h => nomatch h }

include hn hpl in
/-- The residuals of a tile fit the data words behind the header. -/
theorem residuals_mod : residuals pl es % 2 ^ (128 * (packedWords pl (ranges pl es) - 1)) = residuals pl es := by
  refine Nat.mod_eq_of_lt (Nat.lt_of_lt_of_le (packBits_lt ?_) (Nat.pow_le_pow_right (by decide) ?_))
  · intro v hv
    obtain ⟨e, he, rfl⟩ := List.mem_map.1 hv
    exact residual_lt (within_ranges hpl es he)
  · rw [List.length_map, hn, packedWords, Nat.mul_comm _ pl.count]
    omega

include hpl hn hlt in
theorem roundtrips_packed (hz : ¬∀ e ∈ es, e = 0) (hs : ¬∀ e ∈ es, e = es.headD 0) (hw : packedWords pl (ranges pl es) ≤ 15) :
    Roundtrips pl es (encode pl es) := by
  have hpos : packedWords pl (ranges pl es) ≠ 0 := by unfold packedWords; omega
  have hres : unpackBits (residualWidth (ranges pl es)) pl.count (residuals pl es) = es.map fun e => residual e (ranges pl es) := by
    have h := unpackBits_packBits (w := residualWidth (ranges pl es)) (l := es.map fun e => residual e (ranges pl es)) fun v hv => by
      obtain ⟨e, he, rfl⟩ := List.mem_map.1 hv
      exact residual_lt (within_ranges hpl es he)
    rwa [List.length_map, hn] at h
  have hback : (es.map fun e => residual e (ranges pl es)).map (elemFrom (ranges pl es)) = es := by
    rw [List.map_map]
    exact (List.map_congr_left fun e he => elemFrom_residual_ranges hpl es he (hlt e he)).trans (List.map_id es)
  rw [encode_packed hz hs hw]
  exact {
    decodes := by rw [decode_packed hpl es hw, packBits_wordOf, residuals_mod hpl hn, hres, hback]
    fetched := by
      rw [fetchCount_entryOf (by omega) hpos pl (by decide) (by decide)]
      simp only [List.length_cons, List.length_map, List.length_range, Nat.one_ne_zero, ↓reduceIte]
      omega
    entry_lt := entryOf_lt (by decide) (by omega) (by decide)
    words_lt := fun w hw => by
      rcases List.mem_cons.1 hw with rfl | hw
      · exact Nat.lt_trans (header_lt (ranges_length hpl es) (ranges_min_lt hpl es) (ranges_width_lt hpl es)) (by decide)
      · obtain ⟨k, -, rfl⟩ := List.mem_map.1 hw
        exact wordOf_lt k _ }

include hpl hn hlt in
theorem roundtrips_raw (hz : ¬∀ e ∈ es, e = 0) (hs : ¬∀ e ∈ es, e = es.headD 0) (hw : ¬packedWords pl (ranges pl es) ≤ 15) :
    Roundtrips pl es (encode pl es) := by
  have hraw : packBits (8 * pl.bytes) es < 2 ^ (128 * 16) := by
    have h := packBits_lt hlt
    rwa [hn, hpl.tile, show 2048 = 128 * 16 from rfl] at h
  rw [encode_raw hz hs hw]
  exact {
    decodes := by rw [decode_raw, elemsOf, packBits_wordOf, Nat.mod_eq_of_lt hraw, ← hn, unpackBits_packBits hlt]
    fetched := by
      rw [fetchCount_entryOf (by decide) (by decide) pl (by decide) (by decide), if_pos rfl, List.length_map, List.length_range]
    entry_lt := entryOf_lt (by decide) (by decide) (by decide)
    words_lt := fun w hw => by
      obtain ⟨k, -, rfl⟩ := List.mem_map.1 hw
      exact wordOf_lt k _ }

include hpl hn hlt in
theorem roundtrips_encode : Roundtrips pl es (encode pl es) := by
  by_cases hz : ∀ e ∈ es, e = 0
  · exact roundtrips_zeros hn hz
  by_cases hs : ∀ e ∈ es, e = es.headD 0
  · exact roundtrips_same hpl hn hlt hz hs
  by_cases hw : packedWords pl (ranges pl es) ≤ 15
  · exact roundtrips_packed hpl hn hlt hz hs hw
  · exact roundtrips_raw hpl hn hlt hz hs hw

end roundtrip

end Sys2Proof.Machine.Seedbed

namespace Sys2Proof.Machine
open Seedbed

/-- Settles O59: WORDS = 0 decides before MODE does, and the entry of a CLEAR tile decodes to zeros. -/
theorem seedbedZeroWords : Obligations.SeedbedZeroWords := by
  intro pl entry ws h
  have hclear : decode pl (3 * 2 ^ 62 + 2 ^ 57) [] = some (List.replicate pl.count 0) :=
    decode_clear (words := 1) (by decide) (by decide) pl []
  exact ⟨fetchCount_words_zero pl h, (decode_words_zero pl ws h).trans hclear.symm, decode_words_zero pl ws (by decide)⟩

/-- Settles O60, by the four modes of the encoder. -/
theorem seedbedRoundTrip : Obligations.SeedbedRoundTrip := by
  intro format pls pl es hf hm hn hlt
  obtain ⟨hdec, hfetch, hentry, hwords⟩ := roundtrips_encode (regular_of_planes hf hm) hn hlt
  exact ⟨hdec, hfetch, hentry, hwords⟩

end Sys2Proof.Machine
end

section
/-! Proofs about the ingest engines: acceptance and start of an INGEST (O20), and the end of one that refutes O21. -/

namespace Sys2Proof.Machine

theorem SameWordsBut.trans {a b c : State} {ks : List Nat} (h : SameWordsBut a b ks) (h' : SameWordsBut b c ks) : SameWordsBut a c ks :=
  fun k hk => (h' k hk).trans (h k hk)

/-- Where the register words are left alone, so is every word. -/
theorem OnlyChanges.sameWordsBut {s t : State} {cs : List Piece} (h : OnlyChanges s t cs) (hr : .regs ∉ cs) (ks : List Nat) :
    SameWordsBut s t ks := fun k _ => by
  have hregs : t.regs = s.regs := h.2.2 .regs hr
  rw [State.rw, State.rw, hregs, h.1]

namespace State

variable {s : State}

/-! ### The state of an engine -/

/-- PG_STAT, with BLOCK_STAT in it, is the one word that follows the lists of an engine. -/
theorem sameWordsBut_ingStat (s : State) (n : Nat) : SameWordsBut s (s.ingStat n) [(Page.ing n).key 0x00C] := by
  intro k hk
  have hne : k ≠ (Page.ing n).key 0x00C := List.ne_of_not_mem_cons hk
  have hset : ∀ (t : State) (f : Fld) (v : Nat), f.at [] = 0x00C → (t.setFld (.ing n) f v).rw k = t.rw k :=
    fun t f v hf => rw_setFld_other v (by rw [hf]; exact hne)
  unfold ingStat
  dsimp only
  split
  · rw [hset _ _ _ rfl, hset _ _ _ rfl]
  · split
    · rw [hset _ _ _ rfl, hset _ _ _ rfl, hset _ _ _ rfl]
    · rw [hset _ _ _ rfl, hset _ _ _ rfl]

theorem ingStat_regs_only (s : State) (n : Nat) : OnlyChanges s (s.ingStat n) [.regs] :=
  ingStat_only n (List.Subset.refl _) (OnlyChanges.refl s _)

@[simp] theorem ingStat_ingest (s : State) (n : Nat) : (s.ingStat n).ingest = s.ingest :=
  (ingStat_regs_only s n).2.2 .ingest (by decide)

@[simp] theorem ingStat_bufs (s : State) (n : Nat) : (s.ingStat n).pool.bufs = s.pool.bufs :=
  (ingStat_regs_only s n).2.2 .bufs (by decide)

@[simp] theorem ingStat_rounds (s : State) (n : Nat) : (s.ingStat n).hosts.rounds = s.hosts.rounds :=
  ((ingStat_regs_only s n).2.2 .arbiter (by decide)).1

/-- The engines stand in `ingest` alone. -/
theorem engine_of_engines {t : State} {n : Nat} {e : IngEngine} (h : t.ingest.engines = Sparse.put s.ingest.engines n e) :
    t.engine n = e ∧ SameEntriesBut s.ingest.engines t.ingest.engines [n] := by
  refine ⟨by rw [engine, h, Sparse.find_put_self]; rfl, fun k hk => ?_⟩
  rw [h]
  exact Sparse.find_put_other _ e (List.ne_of_not_mem_cons hk)

theorem ingestTarget_lt {p1 n : Nat} (h : s.ingestTarget p1 = some n) : n < 4 := by
  unfold ingestTarget at h
  dsimp only at h
  split at h
  · exact List.mem_range.1 (List.mem_filter.1 (List.mem_filter.1 (List.mem_of_find?_eq_some h)).1).1
  · split at h
    case isTrue hmem =>
      cases h
      exact List.mem_range.1 (List.mem_filter.1 hmem).1
    case isFalse => cases h

/-- No engine is a target while none is enabled. -/
theorem ingestTarget_none {p1 : Nat} (h : ∀ n < 4, s.flag (.ing n) F.PG_CTRL_ENABLE = false) : s.ingestTarget p1 = none := by
  have hnil : ((List.range 4).filter fun n => s.flag (.ing n) F.PG_CTRL_ENABLE && !s.blockStopped (.ing n)) = [] :=
    List.filter_eq_nil_iff.2 fun n hn => by simp [h n (List.mem_range.1 hn)]
  unfold ingestTarget
  simp only [hnil]
  split <;> simp

/-! ### Acceptance (R148, R150) -/

section accept
variable {c : CmdArgs} {i n : Nat} {b : Buf}

/-- The command that an accepted INGEST becomes in its engine's waiting list (R147). -/
def ingCmdOf (s : State) (i : Nat) (j : Job) : IngCmd where
  jid := j.jid
  seq := s.ingest.nextSeq
  buf := i
  handle := j.p 0
  fn := j.fn
  format := bits 7 0 (j.p 1)
  srcTiled := bits 9 8 (j.p 1) == 1
  seedbed := bit 10 (j.p 1)
  width := bits 15 0 (j.p 2)
  height := bits 31 16 (j.p 2)
  rectX := bits 15 0 (j.p 3)
  rectY := bits 31 16 (j.p 3)
  rectW := if j.p 4 = 0 then bits 15 0 (j.p 2) else bits 15 0 (j.p 4)
  rectH := if j.p 4 = 0 then bits 31 16 (j.p 2) else bits 31 16 (j.p 4)
  src0 := j.p 5 + j.p 6 * 2 ^ 32
  pitch0 := j.p 7
  src1 := j.p 8 + j.p 9 * 2 ^ 32
  pitch1 := j.p 10
  tiles := 0
  words := 0

/-- A command has joined the waiting list of an engine with a fence on its buffer; BLOCK_STAT does not show it yet. -/
def joined (s : State) (n : Nat) (x : IngCmd) : State :=
  let t := (s.fence x.buf).setEngine n { s.engine n with waiting := (s.engine n).waiting ++ [x] }
  { t with ingest := { t.ingest with nextSeq := t.ingest.nextSeq + 1 } }

/-- A command joins the waiting list of an engine. -/
def enqueue (s : State) (n : Nat) (x : IngCmd) : State := (s.joined n x).ingStat n

/-- An accepted entry with room in its engine's list is checked and carried out. -/
theorem exec_ingest (ha : s.accepts 0x10 c = true) (hf : s.ingestFull (c.params.getD 1 0) = false) :
    exec (.ingest c) s = .next (carryIngest (s.take 0x10 c).1 (s.take 0x10 c).2) := by
  rw [← command_eq ha carryIngest]
  exact congrArg Host.Outcome.next (if_neg (by rw [hf]; exact Bool.false_ne_true))

/-- R148 step 1: a handle that fails R65. -/
theorem carryIngest_badHandle {j : Job} {code : Nat} (h : s.checkBuf j.fn (j.p 0) = .error code) :
    carryIngest j s = s.complete j.jid code [0, 0] := by
  simp only [carryIngest, h]

/-- The engine field of an INGEST that passes R148 names an engine, or any of them. -/
theorem engine_of_ingestCheck {j : Job} (hc : s.ingestCheck i j = none) : bits 15 12 (j.p 1) < 4 ∨ bits 15 12 (j.p 1) = 15 := by
  have hlt : bits 15 12 (j.p 1) < 2 ^ 4 := bits_lt 15 12 _
  refine Decidable.byContradiction fun hno => ?_
  unfold ingestCheck at hc
  dsimp only at hc
  rw [if_pos] at hc
  · cases hc
  · exact .inr (.inr (.inr (.inl ⟨by omega, by omega⟩)))

section checked
variable {j : Job} (hb : s.checkBuf j.fn (j.p 0) = .ok i)
include hb

/-- R148 step 2: a buffer of another kind. -/
theorem carryIngest_wrongKind (hk : s.bufKind i ≠ 1) : carryIngest j s = s.complete j.jid 0x0107 [0, 0] := by
  simp only [carryIngest, hb, if_pos hk]

variable (hk : s.bufKind i = 1)
include hk

/-- R148 steps 3 to 7. -/
theorem carryIngest_failedCheck {code : Nat} (hc : s.ingestCheck i j = some code) : carryIngest j s = s.complete j.jid code [0, 0] := by
  simp only [carryIngest, hb, hk, ne_eq, not_true_eq_false, if_false, hc]

variable (hc : s.ingestCheck i j = none)
include hc

theorem carryIngest_noEngine (hn : s.ingestTarget (j.p 1) = none) : carryIngest j s = s.complete j.jid
    (s.notRunning (if bits 15 12 (j.p 1) = 15 then (List.range 4).map Page.ing else [.ing (bits 15 12 (j.p 1))])) [0, 0] := by
  simp only [carryIngest, hb, hk, ne_eq, not_true_eq_false, if_false, hc, hn]

theorem carryIngest_accepted (hn : s.ingestTarget (j.p 1) = some n) : carryIngest j s = s.enqueue n (s.ingCmdOf i j) := by
  simp only [carryIngest, hb, hk, ne_eq, not_true_eq_false, if_false, hc, hn]
  rfl

/-- R148 step 8: no engine is enabled, and none was stopped by a fault. -/
theorem carryIngest_notReady (hoff : ∀ n < 4, s.flag (.ing n) F.PG_CTRL_ENABLE = false ∧ s.blockStopped (.ing n) = false) :
    carryIngest j s = s.complete j.jid 0x1301 [0, 0] := by
  rw [carryIngest_noEngine hb hk hc (ingestTarget_none fun n hn => (hoff n hn).1)]
  have hrun : ∀ pgs : List Page, (∀ pg ∈ pgs, s.blockStopped pg = false) → s.notRunning pgs = 0x1301 := fun pgs h =>
    if_neg (by simpa using h)
  rw [hrun]
  intro pg hpg
  split at hpg
  · obtain ⟨n, hn, rfl⟩ := List.mem_map.1 hpg
    exact (hoff n (List.mem_range.1 hn)).2
  case isFalse hne =>
    rw [List.mem_singleton.1 hpg]
    exact (hoff _ ((engine_of_ingestCheck hc).resolve_right hne)).2

end checked

/-- What joining a waiting list changes. -/
theorem enqueue_spec (s : State) (n : Nat) (x : IngCmd) (hb : s.buf x.buf = some b) :
    (s.enqueue n x).engine n = { s.engine n with waiting := (s.engine n).waiting ++ [x] }
      ∧ (s.enqueue n x).buf x.buf = some { b with fences := b.fences + 1 }
      ∧ SameEntriesBut s.pool.bufs.used (s.enqueue n x).pool.bufs.used [x.buf]
      ∧ SameEntriesBut s.ingest.engines (s.enqueue n x).ingest.engines [n]
      ∧ OnlyChanges s (s.enqueue n x) [.regs, .bufs, .ingest] ∧ SameWordsBut s (s.enqueue n x) [(Page.ing n).key 0x00C] := by
  have hfence : s.fence x.buf = s.setBuf x.buf { b with fences := b.fences + 1 } := by simp only [fence, hb]
  have hbufs : (s.enqueue n x).pool.bufs.used = Sparse.put s.pool.bufs.used x.buf { b with fences := b.fences + 1 } := by
    simp only [enqueue, joined, ingStat_bufs, hfence]
    rfl
  have heng : (s.enqueue n x).ingest.engines
      = Sparse.put s.ingest.engines n { s.engine n with waiting := (s.engine n).waiting ++ [x] } := by
    simp only [enqueue, joined, ingStat_ingest, hfence]
    rfl
  obtain ⟨hself, hother⟩ := engine_of_engines heng
  have hw : [Piece.bufs, .ingest] ⊆ [.bufs, .ingest] := List.Subset.refl _
  have hbefore : OnlyChanges s (s.joined n x) [.bufs, .ingest] :=
    OnlyChanges.of_mk (setEngine_only n _ (by decide) (fence_only x.buf (by decide) (OnlyChanges.refl s _))) rfl rfl
  refine ⟨hself, ?_, fun k hk => ?_, hother, (hbefore.mono (by decide)).trans ((ingStat_regs_only _ n).mono (by decide)),
    (hbefore.sameWordsBut (by decide) _).trans (sameWordsBut_ingStat _ n)⟩
  · rw [buf, hbufs, Sparse.find_put_self]
  · rw [hbufs]
    exact Sparse.find_put_other _ _ (List.ne_of_not_mem_cons hk)

end accept

/-! ### Start (R124, R150, R152) -/

/-- A service of a function counts in its round (R125). -/
theorem due_served (s : State) (i f : Nat) : (s.served i f).due ((s.served i f).round i) f = s.due (s.round i) f - 1 := by
  have hround : (s.served i f).round i
      = ⟨Sparse.put (s.round i).used f (Sparse.get (fun _ => 0) (s.round i).used f + 1), Sparse.put (s.round i).servedAt f s.now⟩ := by
    rw [round, served, Sparse.find_put_self]
    rfl
  have hused : Sparse.get (fun _ => 0) ((s.served i f).round i).used f = Sparse.get (fun _ => 0) (s.round i).used f + 1 := by
    rw [hround, Sparse.get, Sparse.find_put_self]
    rfl
  rw [due, hused, due, Nat.sub_add_eq]
  rfl

/-- The weights stand in banks above the window, where no engine has a word. -/
theorem weight_ingStat (s : State) {n : Nat} (hn : n < 4) (f : Nat) : (s.ingStat n).weight f = s.weight f := by
  have hkey : bankKey ((Page.hp (f / 0x80)).key F.HP_FN_WEIGHT_WEIGHT.off) (f % 0x80) ∉ [(Page.ing n).key 0x00C] := by
    simp only [List.mem_singleton, bankKey, Page.key, Page.base]
    omega
  rw [weight, weight, sameWordsBut_ingStat s n _ hkey]

theorem due_ingStat (s : State) {n : Nat} (hn : n < 4) (i f : Nat) :
    (s.ingStat n).due ((s.ingStat n).round i) f = s.due (s.round i) f := by
  have hround : (s.ingStat n).round i = s.round i := by simp only [round, ingStat_rounds]
  rw [due, due, weight_ingStat s hn, hround]

/-- The engine's command that starts: it leaves the waiting list for a slot, and its function has been served. -/
def startIn (s : State) (n slot f : Nat) (e : IngEngine) (x : IngCmd) : State :=
  ((s.setEngine n ⟨e.waiting.filter fun d => d.seq != x.seq, Sparse.put e.slots slot x⟩).served (2 + n) f).ingStat n

section start
variable {n f k : Nat} {x : IngCmd} {s1 : State}

theorem ingestStart_eq (hst : s.standby = false) (hk : k < 8) (hfree : Sparse.find (s.engine n).slots k = none)
    (hpick : s.pickFn (2 + n) ((List.range 256).filter fun g => (s.engine n).waiting.any fun c => !s.ingBlocked c && c.fn == g)
      = (some f, s1))
    (hx : (s.engine n).waiting.find? (fun c => c.fn == f && !s.ingBlocked c) = some x) :
    s.ingestStart n k = s1.startIn n k f (s.engine n) x := by
  have hgo : ¬(8 ≤ k ∨ (Sparse.find (s.engine n).slots k).isSome = true) := by simp [hfree, hk]
  have hmay : ((s.engine n).waiting.filter fun c => !s.ingBlocked c).find? (fun c => c.fn == f) = some x := by
    rw [List.find?_filter, ← hx]
    exact congrArg (fun p => List.find? p _) (funext fun c => by rw [Bool.decide_and, Bool.decide_eq_true, Bool.decide_eq_true, Bool.and_comm])
  unfold ingestStart
  dsimp only
  rw [if_neg hgo]
  simp only [List.any_filter, hpick, hst, Bool.false_eq_true, if_false, hmay]
  rfl

theorem pickFn_arbiter_only {i : Nat} {fns : List Nat} {o : Option Nat} (h : s.pickFn i fns = (o, s1)) : OnlyChanges s s1 [.arbiter] :=
  OnlyChanges.snd_of h (pickFn_only _ _ (List.Subset.refl _) (OnlyChanges.refl s _))

/-- What the start of a command changes. -/
theorem startIn_spec (s : State) (hn : n < 4) (k f : Nat) (e : IngEngine) (x : IngCmd) :
    (s.startIn n k f e x).engine n = ⟨e.waiting.filter fun d => d.seq != x.seq, Sparse.put e.slots k x⟩
      ∧ SameEntriesBut s.ingest.engines (s.startIn n k f e x).ingest.engines [n]
      ∧ (s.startIn n k f e x).due ((s.startIn n k f e x).round (2 + n)) f = s.due (s.round (2 + n)) f - 1
      ∧ OnlyChanges s (s.startIn n k f e x) [.regs, .ingest, .arbiter] ∧ SameWordsBut s (s.startIn n k f e x) [(Page.ing n).key 0x00C] := by
  have heng : (s.startIn n k f e x).ingest.engines
      = Sparse.put s.ingest.engines n ⟨e.waiting.filter fun d => d.seq != x.seq, Sparse.put e.slots k x⟩ := by
    simp only [startIn, ingStat_ingest]
    rfl
  obtain ⟨hself, hother⟩ := engine_of_engines heng
  have hbefore : OnlyChanges s ((s.setEngine n ⟨e.waiting.filter fun d => d.seq != x.seq, Sparse.put e.slots k x⟩).served (2 + n) f)
      [.ingest, .arbiter] :=
    served_only _ f (by decide) (setEngine_only n _ (by decide) (OnlyChanges.refl s _))
  refine ⟨hself, hother, ?_, (hbefore.mono (by decide)).trans ((ingStat_regs_only _ n).mono (by decide)),
    (hbefore.sameWordsBut (by decide) _).trans (sameWordsBut_ingStat _ n)⟩
  rw [startIn, due_ingStat _ hn, due_served]
  rfl

end start

end State

/-- An accepted INGEST that fails a check of R148 completes with its code and counts 0. -/
theorem exists_ingest_completed {s : State} {c : CmdArgs} {code : Nat} (hi : Inv s) (ha : s.accepts 0x10 c = true)
    (hp : s.posts c.fn c.q = true) (hf : s.ingestFull (c.params.getD 1 0) = false)
    (h : State.carryIngest (s.take 0x10 c).1 (s.take 0x10 c).2 = (s.take 0x10 c).2.complete (s.take 0x10 c).1.jid code [0, 0]) :
    ∃ t, exec (.ingest c) s = .next t ∧ Completed s t c code [0, 0] ∧ OnlyChanges s t [.out, .queues, .jobs, .msiPending] :=
  exists_takeComplete hi hp ((State.exec_ingest ha hf).trans (congrArg Host.Outcome.next h))

/-- Settles O20, clause by clause: acceptance, the completions of R148 in its order, an entry that stays, and the start of a command. -/
theorem ingestAcceptance : Obligations.IngestAcceptance := by
  unfold Obligations.IngestAcceptance
  refine ⟨fun s c i n b hi ha hf hb hbuf hk hc hn => ?_, fun s c code hi ha hp hf hb => ?_, fun s c i code hi ha hp hf hb hk hc => ?_,
    fun s c i hi ha hp hf hb hk => ?_, fun s c i hi ha hp hf hb hk hc hoff => ?_, fun s c hf => ?_,
    fun s s1 n f k x hi hn hst hk hfree hpick hx => ?_⟩
  · have hrun := (State.exec_ingest ha hf).trans (congrArg Host.Outcome.next
      (State.carryIngest_accepted (s := (s.take 0x10 c).2) (j := (s.take 0x10 c).1) hb hk hc hn))
    obtain ⟨heng, hfence, hbufs, hengs, honly, hwords⟩ := State.enqueue_spec (s.take 0x10 c).2 n
      ((s.take 0x10 c).2.ingCmdOf i (s.take 0x10 c).1) hbuf
    exact ⟨_, hrun, heng, hfence, hbufs, hengs,
      (State.take_only 0x10 c (by decide) (OnlyChanges.refl s _)).trans (honly.mono (by decide)), hwords⟩
  · exact exists_ingest_completed hi ha hp hf (State.carryIngest_badHandle (s := (s.take 0x10 c).2) (j := (s.take 0x10 c).1) hb)
  · exact exists_ingest_completed hi ha hp hf (State.carryIngest_failedCheck (s := (s.take 0x10 c).2) (j := (s.take 0x10 c).1) hb hk hc)
  · exact exists_ingest_completed hi ha hp hf (State.carryIngest_wrongKind (s := (s.take 0x10 c).2) (j := (s.take 0x10 c).1) hb hk)
  · exact exists_ingest_completed hi ha hp hf (State.carryIngest_notReady (s := (s.take 0x10 c).2) (j := (s.take 0x10 c).1) hb hk hc hoff)
  · refine ⟨_, congrArg Host.Outcome.next (if_pos hf), ?_, State.keepEntry_only 0x10 c (List.Subset.refl _) (OnlyChanges.refl s _)⟩
    unfold State.keepEntry
    split <;> simp
  · have hpicked := State.pickFn_arbiter_only hpick
    have hengines : s1.ingest = s.ingest := hpicked.2.2 .ingest (by decide)
    obtain ⟨heng, hengs, hdue, honly, hwords⟩ := State.startIn_spec s1 hn k f (s.engine n) x
    refine ⟨_, congrArg Host.Outcome.next (State.ingestStart_eq hst hk hfree hpick hx), ?_, ?_, hdue, fun i hi => ?_, hengines ▸ hengs,
      (hpicked.mono (by decide)).trans honly, (hpicked.sameWordsBut (by decide) _).trans hwords⟩
    · rw [heng, Sparse.find_put_self]
    · rw [heng]
    · rw [heng]
      exact Sparse.find_put_other _ x (List.ne_of_not_mem_cons hi)

/-! ### The end of an ingest that refutes O21

The end of an ingest releases its fence before it completes (R155). The last fence of a buffer in FREEING frees it (R81), so the final
completion of the BUFFER_FREE is posted first; in a ring with room for one entry the completion of the ingest then waits behind it. -/

/-- An INGEST of VF 2 with its one tile written, number 51, into buffer 0. -/
def writtenIngest : IngCmd where
  jid := 51
  seq := 0
  buf := 0
  handle := 0x10000
  fn := 2
  format := 1
  srcTiled := false
  seedbed := false
  width := 8
  height := 8
  rectX := 0
  rectY := 0
  rectW := 8
  rectH := 8
  src0 := 0x100000
  pitch0 := 32
  src1 := 0
  pitch1 := 0
  tiles := 1
  words := 16

/-- A BUFFER_FREE of queue 1 of VF 2 that has completed DEFERRED. -/
def deferredFree : Job := { fetchedJob 50 3 with opcode := 0x04, stage := .owed }

/-- A buffer of one plot that this BUFFER_FREE waits for, held by one fence. -/
def freeingBuf : Buf := ⟨.freeing, 0, 0x10000100, 2, [0], 65536, 1, [], none, some 50, false⟩

/-- The ingest is at its end in slot 0 of engine 0; the completion ring of queue 1 of VF 2 has 2 entries, and nothing stands in it. R116 would
not have fetched the second of the two commands. -/
def lastFence : State := { State.reset with
  regs := [((Page.hp 0).key 0x040, 0x00000004#32), ((Page.vf 2).key 0x150, 0x00020008#32)]
  pool := { Pool.reset with bufs := { used := [(0, freeingBuf)], gens := [], fresh := 1, freed := [] } }
  ingest := { Ingest.reset with engines := [(0, ⟨[], [(0, writtenIngest)]⟩)] }
  hosts := { Hosts.reset with
    queues := [(17, { idleQueue with state := .running })]
    jobs := [deferredFree, fetchedJob 51 4]
    nextJid := 60 } }

theorem lastFence_inv : Inv lastFence where
  part := rfl
  queue := rfl
  mem := Sparse.wf_nil
  regs := by decide
  shad := Sparse.wf_nil
  copyRegs := Sparse.wf_nil
  copyShad := Sparse.wf_nil
  flash := Sparse.wf_nil
  time := Time.reset_inRange
  jobs := by decide
  tables := ⟨rfl, rfl⟩

/-- The completion of the ingest is not put out. -/
theorem cidStatus_ingestDone_lastFence : ∀ o ∈ (lastFence.ingestDone 0 0 []).out, cidStatus o ≠ some 4 := by decide +kernel

/-- Refutes O21: the clause on the end of a command bounds the load of its queue by the ring before the fence is released, not before the
completion is posted, and the invariant does not bound it. -/
theorem not_ingestEnd : ¬ Obligations.IngestEnd := by
  intro h
  obtain ⟨hdone, -⟩ := h
  obtain ⟨t, ht, -, ⟨tail, phase, hout⟩, -⟩ := hdone lastFence 0 0 [] writtenIngest (fetchedJob 51 4) lastFence_inv (by decide) rfl
    (by decide) (by decide) (by decide) (by decide) (by decide)
  have hrun : lastFence.ingestDone 0 0 [] = t := Host.Outcome.next.inj ht
  rw [← hrun] at hout
  exact cidStatus_ingestDone_lastFence _ hout rfl

end Sys2Proof.Machine
end

section
/-! Proofs about the indirect tables (O24): the entry that an address register names, and the step that an access takes to the next one. -/

namespace Sys2Proof.Machine

namespace State

variable {s s1 : State} {n k key : Nat}

/-! ### A read that reaches its word -/

/-- A read that reaches its word runs what the word does with it. -/
theorem accessRead_eq {r : RegRd} {pg : Page} (h : s.readReaches r pg = true) (run : RegAcc → State → State) :
    s.accessRead r run = run (rdOf r pg) s := by
  simp only [readReaches, rdOf, Bool.and_eq_true, beq_iff_eq, Bool.not_eq_true', Option.isNone_iff_eq_none, and_assoc] at h
  obtain ⟨hreach, hpage, hdomain, hgate, hblock, hwait⟩ := h
  simp [accessRead, rdOf, hreach, hpage, hdomain, hgate, hblock, hwait, Option.filter]

/-! ### The bits of a table entry -/

/-- The bits of a word that a commit as 0x41 carries are the RWS bits of its register. -/
theorem commitMask_of_word {key a : Nat} {pg : Page} (ha : (if key < 0x1_0000_0000 then key else (key - 0x1_0000_0000) / 0x100000) = a)
    (hpg : pageOf (a / 0x1000 * 0x1000) = some pg) : commitMask 0x41 key
      = ((pg.fieldsAt (a % 0x1000)).map fun f => if f.acc = .rws then (2 ^ (f.hi + 1 - f.lo) - 1) * 2 ^ f.lo else 0).sum := by
  simp only [commitMask, ha, hpg, true_or, and_true]

/-- The register that a banked word stands behind. -/
theorem register_bankKey (a : Nat) {sel : Nat} (hsel : sel < 0x100000) :
    (if bankKey a sel < 0x1_0000_0000 then bankKey a sel else (bankKey a sel - 0x1_0000_0000) / 0x100000) = a := by
  unfold bankKey
  rw [if_neg (by omega)]
  omega

/-- Every page begins on a multiple of its size (R42). -/
theorem base_aligned (pg : Page) : pg.base % 0x1000 = 0 := by
  cases pg <;> simp only [Page.base] <;> omega

/-- The bits of an entry that a commit as 0x41 carries are the RWS bits of the register in front of it. -/
theorem commitMask_bankKey {pg : Page} {o sel : Nat} (hpg : pageOf pg.base = some pg) (ho : o < 0x1000) (hsel : sel < 0x100000) :
    commitMask 0x41 (bankKey (pg.key o) sel)
      = ((pg.fieldsAt o).map fun f => if f.acc = .rws then (2 ^ (f.hi + 1 - f.lo) - 1) * 2 ^ f.lo else 0).sum := by
  have hb := base_aligned pg
  have hpage : pg.key o / 0x1000 * 0x1000 = pg.base := by unfold Page.key; omega
  have hoff : pg.key o % 0x1000 = o := by unfold Page.key; omega
  rw [commitMask_of_word (register_bankKey _ hsel) (hpage ▸ hpg), hoff]

theorem pageOf_pipe (hn : n < 8) : pageOf (Page.pipe n).base = some (.pipe n) := by
  revert n
  decide

theorem pageOf_slot (hn : n < 8) (hk : k < 16) : pageOf (Page.slot n k).base = some (.slot n k) := by
  have hall : ∀ n < 8, ∀ k < 16, pageOf (Page.slot n k).base = some (.slot n k) := by decide
  exact hall n hn k hk

/-! ### The entry that an address register names -/

/-- The regamma entry that PIPE_LUT_ADDR names. -/
def pipeLutKey (s : State) (n : Nat) : Nat :=
  bankKey ((Page.pipe n).key 0x064) (s.fld (.pipe n) F.PIPE_LUT_ADDR_CHANNEL * 1024 + s.fld (.pipe n) F.PIPE_LUT_ADDR_INDEX)

/-- The coefficient pair that PIPE_SCL_ADDR names. -/
def pipeSclKey (s : State) (n : Nat) : Nat :=
  bankKey ((Page.pipe n).key 0x06C) (s.fld (.pipe n) F.PIPE_SCL_ADDR_SCALER * 256 + s.fld (.pipe n) F.PIPE_SCL_ADDR_DIR * 128
    + s.fld (.pipe n) F.PIPE_SCL_ADDR_PHASE * 2 + s.fld (.pipe n) F.PIPE_SCL_ADDR_HALF)

/-- The degamma entry that SLOTk_LUT_ADDR names. -/
def slotLutKey (s : State) (n k : Nat) : Nat := bankKey ((Page.slot n k).key 0x0C4) (s.fld (.slot n k) F.SLOT_LUT_ADDR_INDEX)

theorem commitMask_pipeLutKey (s : State) (hn : n < 8) : commitMask 0x41 (s.pipeLutKey n) = 2 ^ 16 - 1 := by
  have hchan : s.fld (.pipe n) F.PIPE_LUT_ADDR_CHANNEL < 4 := bits_lt ..
  have hindex : s.fld (.pipe n) F.PIPE_LUT_ADDR_INDEX < 1024 := bits_lt ..
  exact commitMask_bankKey (pageOf_pipe hn) (by decide) (by omega)

theorem commitMask_pipeSclKey (s : State) (hn : n < 8) : commitMask 0x41 (s.pipeSclKey n) = 2 ^ 32 - 1 := by
  have hscaler : s.fld (.pipe n) F.PIPE_SCL_ADDR_SCALER < 4 := bits_lt ..
  have hdir : s.fld (.pipe n) F.PIPE_SCL_ADDR_DIR < 2 := bits_lt ..
  have hphase : s.fld (.pipe n) F.PIPE_SCL_ADDR_PHASE < 64 := bits_lt ..
  have hhalf : s.fld (.pipe n) F.PIPE_SCL_ADDR_HALF < 2 := bits_lt ..
  exact commitMask_bankKey (pageOf_pipe hn) (by decide) (by omega)

theorem commitMask_slotLutKey (s : State) (hn : n < 8) (hk : k < 16) : commitMask 0x41 (s.slotLutKey n k) = 2 ^ 16 - 1 := by
  have hindex : s.fld (.slot n k) F.SLOT_LUT_ADDR_INDEX < 1024 := bits_lt ..
  exact commitMask_bankKey (pageOf_slot hn hk) (by decide) (by omega)

/-! ### The step of an address register (R185) -/

/-- The state after INDEX of PIPE_LUT_ADDR has moved on. -/
def pipeLutStepped (s : State) (n : Nat) : State := s.setFld (.pipe n) F.PIPE_LUT_ADDR_INDEX (s.fld (.pipe n) F.PIPE_LUT_ADDR_INDEX + 1)

/-- The state after PIPE_SCL_ADDR has moved on: HALF flips, and after the second half PHASE rises. -/
def pipeSclStepped (s : State) (n : Nat) : State :=
  let t := s.setFld (.pipe n) F.PIPE_SCL_ADDR_HALF (s.fld (.pipe n) F.PIPE_SCL_ADDR_HALF + 1)
  if s.fld (.pipe n) F.PIPE_SCL_ADDR_HALF = 1 then t.setFld (.pipe n) F.PIPE_SCL_ADDR_PHASE (s.fld (.pipe n) F.PIPE_SCL_ADDR_PHASE + 1)
  else t

/-- The state after INDEX of SLOTk_LUT_ADDR has moved on. -/
def slotLutStepped (s : State) (n k : Nat) : State :=
  s.setFld (.slot n k) F.SLOT_LUT_ADDR_INDEX (s.fld (.slot n k) F.SLOT_LUT_ADDR_INDEX + 1)

theorem tableEntry_pipeLut {a : RegAcc} (hp : a.page = .pipe n) (ho : a.off = 0x064) :
    s.tableEntry a = some (s.pipeLutKey n, s.pipeLutStepped n) := by
  unfold tableEntry
  rw [hp, ho]
  rfl

theorem tableEntry_pipeScl {a : RegAcc} (hp : a.page = .pipe n) (ho : a.off = 0x06C) :
    s.tableEntry a = some (s.pipeSclKey n, s.pipeSclStepped n) := by
  unfold tableEntry
  rw [hp, ho]
  rfl

theorem tableEntry_slotLut {a : RegAcc} (hp : a.page = .slot n k) (ho : a.off = 0x0C4) :
    s.tableEntry a = some (s.slotLutKey n k, s.slotLutStepped n k) := by
  unfold tableEntry
  rw [hp, ho]
  rfl

theorem sameWordsBut_setFld (s : State) (pg : Page) (f : Fld) (v : Nat) : SameWordsBut s (s.setFld pg f v) [pg.key (f.at [])] :=
  fun _ hk => rw_setFld_other v (List.ne_of_not_mem_cons hk)

/-- INDEX runs from 1023 to 0, and CHANNEL stays. -/
theorem pipeLutStepped_spec (s : State) (n : Nat) :
    (s.pipeLutStepped n).fld (.pipe n) F.PIPE_LUT_ADDR_INDEX = (s.fld (.pipe n) F.PIPE_LUT_ADDR_INDEX + 1) % 1024
      ∧ (s.pipeLutStepped n).fld (.pipe n) F.PIPE_LUT_ADDR_CHANNEL = s.fld (.pipe n) F.PIPE_LUT_ADDR_CHANNEL
      ∧ SameWordsBut s (s.pipeLutStepped n) [(Page.pipe n).key 0x060] :=
  ⟨fld_setFld_self s _ _ _ _ (by decide) (by decide), fld_setFld_above s _ rfl (by decide) (by decide) (by decide),
    sameWordsBut_setFld s (.pipe n) F.PIPE_LUT_ADDR_INDEX _⟩

theorem slotLutStepped_spec (s : State) (n k : Nat) :
    (s.slotLutStepped n k).fld (.slot n k) F.SLOT_LUT_ADDR_INDEX = (s.fld (.slot n k) F.SLOT_LUT_ADDR_INDEX + 1) % 1024
      ∧ SameWordsBut s (s.slotLutStepped n k) [(Page.slot n k).key 0x0C0] :=
  ⟨fld_setFld_self s _ _ _ _ (by decide) (by decide), sameWordsBut_setFld s (.slot n k) F.SLOT_LUT_ADDR_INDEX _⟩

theorem sameWordsBut_pipeSclStepped (s : State) (n : Nat) : SameWordsBut s (s.pipeSclStepped n) [(Page.pipe n).key 0x068] := by
  have hhalf := fun v => sameWordsBut_setFld s (.pipe n) F.PIPE_SCL_ADDR_HALF v
  unfold pipeSclStepped
  dsimp only
  split
  · exact SameWordsBut.trans (hhalf _) (sameWordsBut_setFld _ (.pipe n) F.PIPE_SCL_ADDR_PHASE _)
  · exact hhalf _

theorem half_pipeSclStepped (s : State) (n : Nat) :
    (s.pipeSclStepped n).fld (.pipe n) F.PIPE_SCL_ADDR_HALF = 1 - s.fld (.pipe n) F.PIPE_SCL_ADDR_HALF := by
  have hlt : s.fld (.pipe n) F.PIPE_SCL_ADDR_HALF < 2 := bits_lt ..
  have hflip : (s.setFld (.pipe n) F.PIPE_SCL_ADDR_HALF (s.fld (.pipe n) F.PIPE_SCL_ADDR_HALF + 1)).fld (.pipe n) F.PIPE_SCL_ADDR_HALF
      = 1 - s.fld (.pipe n) F.PIPE_SCL_ADDR_HALF :=
    (fld_setFld_self s _ _ _ _ (by decide) (by decide)).trans (show _ % 2 = _ by omega)
  unfold pipeSclStepped
  dsimp only
  split
  · exact (fld_setFld_above _ (f := F.PIPE_SCL_ADDR_PHASE) (f' := F.PIPE_SCL_ADDR_HALF) _ rfl (by decide) (by decide) (by decide)).trans hflip
  · exact hflip

theorem phase_pipeSclStepped (s : State) (n : Nat) : (s.pipeSclStepped n).fld (.pipe n) F.PIPE_SCL_ADDR_PHASE
    = (s.fld (.pipe n) F.PIPE_SCL_ADDR_PHASE + s.fld (.pipe n) F.PIPE_SCL_ADDR_HALF) % 64 := by
  have hhalf : s.fld (.pipe n) F.PIPE_SCL_ADDR_HALF < 2 := bits_lt ..
  have hphase : s.fld (.pipe n) F.PIPE_SCL_ADDR_PHASE < 64 := bits_lt ..
  unfold pipeSclStepped
  dsimp only
  split
  case isTrue h =>
    rw [h]
    exact fld_setFld_self _ _ _ _ _ (by decide) (by decide)
  case isFalse h =>
    refine (fld_setFld_below s (f := F.PIPE_SCL_ADDR_HALF) (f' := F.PIPE_SCL_ADDR_PHASE) _ rfl
      (by decide) (by decide) (by decide) (by decide)).trans ?_
    omega

/-- A field of PIPE_SCL_ADDR below PHASE stays: SCALER and DIR. -/
theorem fld_pipeSclStepped_below (s : State) (n : Nat) {f : Fld} (ha : f.at [] = 0x068) (hb : f.hi < F.PIPE_SCL_ADDR_PHASE.lo)
    (hl : f.lo ≤ f.hi) : (s.pipeSclStepped n).fld (.pipe n) f = s.fld (.pipe n) f := by
  have hhalf := fun v => fld_setFld_below s (pg := .pipe n) (f := F.PIPE_SCL_ADDR_HALF) v ha (by decide) (by decide)
    (Nat.lt_trans hb (by decide)) hl
  unfold pipeSclStepped
  dsimp only
  split
  · exact (fld_setFld_below _ (f := F.PIPE_SCL_ADDR_PHASE) _ ha (by decide) (by decide) hb hl).trans (hhalf _)
  · exact hhalf _

/-! ### The accesses -/

/-- The write of a data register sets the entry that the address names, in the state after the address has moved on. -/
theorem tableAccess_write {w : RegWr} {pg : Page} {here : RegAcc → Bool} (harr : s.arrives w pg = true) (hh : here (accOf w pg) = true)
    (he : s.tableEntry (accOf w pg) = some (key, s1)) (hsec : s.secretPage (accOf w pg) = false) :
    tableAccess w false here s = s1.setSw key (Nat.land w.val.toNat (commitMask 0x41 key)) := by
  unfold tableAccess
  rw [if_neg Bool.false_ne_true, accessAt_eq harr hh]
  simp only [tableWrite, he, hsec]
  rfl

/-- The read of a data register returns the entry that the address names, and the address moves on. -/
theorem tableAccess_read {w : RegWr} {pg : Page} {here : RegAcc → Bool} (hr : s.readReaches ⟨w.req, w.win, w.off⟩ pg = true)
    (hh : here (rdOf ⟨w.req, w.win, w.off⟩ pg) = true) (he : s.tableEntry (rdOf ⟨w.req, w.win, w.off⟩ pg) = some (key, s1))
    (hsec : s.secretPage (rdOf ⟨w.req, w.win, w.off⟩ pg) = false) :
    tableAccess w true here s = s1.emit (.readData w.req.fn (BitVec.ofNat 32 (s.sw key))) := by
  unfold tableAccess
  rw [if_pos rfl, accessRead_eq hr]
  simp only [hh, if_true, tableRead, he, hsec]
  rfl

theorem fld_setSw (s : State) (key v : Nat) (pg : Page) (f : Fld) : (s.setSw key v).fld pg f = s.fld pg f := rfl

theorem sameWordsBut_setSw {ks : List Nat} (h : SameWordsBut s s1 ks) (key v : Nat) : SameWordsBut s (s1.setSw key v) ks := h

/-- What the write of an entry of `b` bits leaves beside the step of its address: the entry alone among the shadows. -/
theorem setEntry_spec {a : RegAcc} {b : Nat} (he : s.tableEntry a = some (key, s1)) (hm : commitMask 0x41 key = 2 ^ b - 1) (hb : b ≤ 32)
    (v : Nat) : (s1.setSw key (Nat.land v (commitMask 0x41 key))).sw key = v % 2 ^ b
      ∧ SameShadowsBut s (s1.setSw key (Nat.land v (commitMask 0x41 key))) [key]
      ∧ OnlyChanges s (s1.setSw key (Nat.land v (commitMask 0x41 key))) [.regs, .shad] := by
  have hs : OnlyChanges s s1 [.regs] := tableEntry_only he (List.Subset.refl _) (OnlyChanges.refl s _)
  have hshad : s1.shad = s.shad := hs.2.2 .shad (by decide)
  refine ⟨?_, fun j hj => ?_, setSw_only key _ (by decide) (hs.mono (by decide))⟩
  · have hmask : Nat.land v (2 ^ b - 1) = v % 2 ^ b := Nat.and_two_pow_sub_one_eq_mod v b
    have hlt : v % 2 ^ b < 2 ^ 32 := Nat.lt_of_lt_of_le (Nat.mod_lt _ (Nat.two_pow_pos b)) (Nat.pow_le_pow_right (by decide) hb)
    rw [sw_setSw_self, hm, hmask, Nat.mod_eq_of_lt hlt]
  · rw [sw_setSw_other _ (List.ne_of_not_mem_cons hj), sw, sw, hshad, hs.1]

end State

/-- Settles O24, register by register: the access runs on the entry that its address names, and the address register takes one step. -/
theorem tableAccess : Obligations.TableAccess := by
  unfold Obligations.TableAccess
  refine ⟨fun s w n _ hn harr hoff hsec => ?_, fun s w n _ hn hr hoff hsec => ?_, fun s w n _ hn harr hoff hsec => ?_,
    fun s w n k _ hn hk harr hoff hsec => ?_⟩
  · have he : s.tableEntry (accOf w (.pipe n)) = _ := State.tableEntry_pipeLut rfl hoff
    obtain ⟨hself, hother, honly⟩ := State.setEntry_spec he (State.commitMask_pipeLutKey s hn) (by decide) w.val.toNat
    obtain ⟨hindex, hchan, hwords⟩ := State.pipeLutStepped_spec s n
    exact ⟨_, congrArg Host.Outcome.next (State.tableAccess_write harr (beq_iff_eq.2 hoff) he hsec), ⟨hself, hother⟩,
      (State.fld_setSw ..).trans hindex, (State.fld_setSw ..).trans hchan, honly, State.sameWordsBut_setSw hwords _ _⟩
  · have he : s.tableEntry (rdOf ⟨w.req, w.win, w.off⟩ (.pipe n)) = _ := State.tableEntry_pipeLut rfl hoff
    have hstep : OnlyChanges s (s.pipeLutStepped n) [.regs, .out] := State.tableEntry_only he (by decide) (OnlyChanges.refl s _)
    obtain ⟨hindex, -, hwords⟩ := State.pipeLutStepped_spec s n
    exact ⟨_, congrArg Host.Outcome.next (State.tableAccess_read hr (beq_iff_eq.2 hoff) he hsec), rfl, hindex,
      State.emit_only _ (by decide) hstep, hwords⟩
  · have he : s.tableEntry (accOf w (.pipe n)) = _ := State.tableEntry_pipeScl rfl hoff
    obtain ⟨hself, hother, honly⟩ := State.setEntry_spec he (State.commitMask_pipeSclKey s hn) (by decide) w.val.toNat
    exact ⟨_, congrArg Host.Outcome.next (State.tableAccess_write harr (beq_iff_eq.2 hoff) he hsec),
      ⟨hself.trans (Nat.mod_eq_of_lt w.val.isLt), hother, (State.fld_setSw ..).trans (State.half_pipeSclStepped s n),
        (State.fld_setSw ..).trans (State.phase_pipeSclStepped s n)⟩,
      (State.fld_setSw ..).trans (State.fld_pipeSclStepped_below s n rfl (by decide) (by decide)),
      (State.fld_setSw ..).trans (State.fld_pipeSclStepped_below s n rfl (by decide) (by decide)),
      honly, State.sameWordsBut_setSw (State.sameWordsBut_pipeSclStepped s n) _ _⟩
  · have he : s.tableEntry (accOf w (.slot n k)) = _ := State.tableEntry_slotLut rfl hoff
    obtain ⟨hself, hother, honly⟩ := State.setEntry_spec he (State.commitMask_slotLutKey s hn hk) (by decide) w.val.toNat
    obtain ⟨hindex, hwords⟩ := State.slotLutStepped_spec s n k
    exact ⟨_, congrArg Host.Outcome.next (State.tableAccess_write harr (beq_iff_eq.2 hoff) he hsec), ⟨hself, hother⟩,
      (State.fld_setSw ..).trans hindex, honly, State.sameWordsBut_setSw hwords _ _⟩

end Sys2Proof.Machine
end

section
/-! Proofs about the end of a commit: when its final completion is put out, and three commits of a function in reset, which refute O25, O26
and O27. -/

namespace Sys2Proof.Machine

namespace State

variable {s : State} {n jid : Nat} {c : Commit} {j : Job}

/-! ### The final completion of a command that completed DEFERRED -/

/-- R121: a queue that can post puts a final completion out, unless its function is in reset (R128). -/
theorem post_final_out {fn q : Nat} (hp : s.CanPost fn q) (hr : s.fnState fn ≠ .resetting) (cid status sqHead : Nat) (res : List Nat) :
    ∃ tail phase, s.cqWrite fn q tail phase ⟨cid, status, sqHead, true, res⟩ ∈ (s.post fn q cid status sqHead true res).out := by
  refine ⟨(s.queue fn q).cqTail, (s.queue fn q).phase, ?_⟩
  have hposts : ¬((s.queue fn q).state = .idle ∨ (true = true ∧ ((s.queue fn q).state = .draining ∨ s.fnState fn = .resetting))) := by
    rcases hp.1 with h | h <;> simp [h, hr]
  unfold post
  dsimp only
  rw [if_neg hposts, if_pos ⟨hp.2.1, hp.room _⟩]
  exact mem_out_writeEntry s fn q _

/-- R128: nothing is posted as final to a function in reset. -/
theorem post_final_resetting {fn q : Nat} (hr : s.fnState fn = .resetting) (cid status sqHead : Nat) (res : List Nat) :
    s.post fn q cid status sqHead true res = s := if_pos (.inr ⟨rfl, .inr hr⟩)

theorem job_of_owes (h : s.owes jid j = true) : s.job jid = some j ∧ j.stage = .owed ∧ s.posts j.fn j.q = true := by
  simpa only [owes, Bool.and_eq_true, beq_iff_eq, and_assoc] using h

theorem finish_owed (h : s.owes jid j = true) (status : Nat) (res : List Nat) :
    s.finish jid status res = (s.post j.fn j.q j.cid status j.sqHead true res).dropJob jid := by
  obtain ⟨hj, hs, -⟩ := job_of_owes h
  simp only [finish, hj, hs, if_true]

theorem posts_finish (h : s.owes jid j = true) (hr : s.fnState j.fn ≠ .resetting) (status : Nat) (res : List Nat) :
    Posts s (s.finish jid status res) j true status res := by
  obtain ⟨-, -, hp⟩ := job_of_owes h
  rw [finish_owed h]
  exact post_final_out (canPost_of_posts hp) hr j.cid status j.sqHead res

theorem finish_resetting_out (h : s.owes jid j = true) (hr : s.fnState j.fn = .resetting) (status : Nat) (res : List Nat) :
    (s.finish jid status res).out = s.out := by
  rw [finish_owed h, post_final_resetting hr]
  rfl

/-! ### A commit that is dropped (R200) -/

/-- The state in which a dropped commit completes: the partner has been told, and nothing is armed any more. -/
def dropped (s : State) (c : Commit) : State := (s.mirror (.arm 2 c.cno 0 c.group c.fn [])).dropCommit c

/-- Dropping a commit changes the pair and the list of commits, and nothing that a completion reads. -/
theorem dropped_eq (s : State) (c : Commit) : ∃ p, s.dropped c
    = { s with pair := p, display := { s.display with commits := s.display.commits.filter fun d => d.cno != c.cno } } := by
  unfold dropped mirror
  split <;> exact ⟨_, rfl⟩

theorem abandonCommit_finish (hj : c.jid = some jid) (hs : c.silent = false) (hp : c.posted = false) (status : Nat) (res : List Nat) :
    s.abandonCommit c status res = (s.dropped c).finish jid status res := by
  show (s.dropped c).endCommit c status res = _
  simp only [endCommit, hj, hs, hp, Bool.false_eq_true, or_self, if_false]
  rfl

section abandon
variable (hj : c.jid = some jid) (hs : c.silent = false) (hp : c.posted = false) (ho : s.owes jid j = true)
include hj hs hp ho

/-- R200: a dropped commit posts its code, when its function is not in reset. -/
theorem posts_abandonCommit (hr : s.fnState j.fn ≠ .resetting) (status : Nat) (res : List Nat) :
    Posts s (s.abandonCommit c status res) j true status res := by
  rw [abandonCommit_finish hj hs hp]
  obtain ⟨p, he⟩ := dropped_eq s c
  rw [he]
  exact posts_finish (s := { s with pair := p, display := _ }) ho hr status res

theorem abandonCommit_resetting_out (hr : s.fnState j.fn = .resetting) (status : Nat) (res : List Nat) :
    (s.abandonCommit c status res).out = s.out := by
  rw [abandonCommit_finish hj hs hp]
  obtain ⟨p, he⟩ := dropped_eq s c
  rw [he]
  exact finish_resetting_out (s := { s with pair := p, display := _ }) ho hr status res

end abandon

theorem abandonCommit_display (s : State) (c : Commit) (status : Nat) (res : List Nat) :
    (s.abandonCommit c status res).display = { s.display with commits := s.display.commits.filter fun d => d.cno != c.cno } := by
  have hend : OnlyChanges (s.dropped c) (s.abandonCommit c status res) [.out, .queues, .jobs, .msiPending] :=
    endCommit_only c status res (List.Subset.refl _) (OnlyChanges.refl _ _)
  have hdisplay : (s.abandonCommit c status res).display = (s.dropped c).display := hend.2.2 .display (by decide)
  obtain ⟨p, he⟩ := dropped_eq s c
  rw [hdisplay, he]

/-- Of one armed commit that is dropped nothing is left in the display. -/
theorem abandonCommit_display_single (h : s.display.commits = [c]) (status : Nat) (res : List Nat) :
    (s.abandonCommit c status res).display = { s.display with commits := [] } := by
  simp [abandonCommit_display, h]

theorem wakeReleases_of_none (h : s.display.waitingRelease = []) : s.wakeReleases = s := by
  rw [wakeReleases, h]
  rfl

theorem wakeReleases_abandonCommit (h : s.display.waitingRelease = []) (c : Commit) (status : Nat) (res : List Nat) :
    (s.abandonCommit c status res).wakeReleases = s.abandonCommit c status res :=
  wakeReleases_of_none (by rw [abandonCommit_display]; exact h)

/-- R200: the one commit that waits for its acknowledgement is dropped. -/
theorem ackTimeout_single (hc : s.display.commits = [c]) (hs : c.stage = .sent) (hw : s.display.waitingRelease = []) :
    s.ackTimeout c.cno = s.abandonCommit c 0x0304 [0] := by
  have hfind : s.display.commits.find? (fun d => d.cno == c.cno && d.stage == .sent) = some c := by simp [hc, hs]
  simp only [ackTimeout, hfind]
  exact wakeReleases_abandonCommit hw c _ _

/-- The frame whose apply line output n is at (R192). -/
def nextFrame (s : State) (n : Nat) : Nat := (s.fld (.scn n) F.SCN_SEQ_SEQ + 1) % 2 ^ 32

/-- The apply line of the next frame of output n has begun. -/
def applyBegun (s : State) (n : Nat) : State :=
  { s with display := { s.display with applySeen := Sparse.put s.display.applySeen n (s.nextFrame n) } }

theorem applyBegun_only (s : State) (n : Nat) : OnlyChanges s (s.applyBegun n) [.display] := by
  have hw : [Piece.display] ⊆ [.display] := List.Subset.refl _
  exact OnlyChanges.of_mk (OnlyChanges.refl s _) rfl rfl

/-- R198: a waiting commit whose target has passed is dropped at the apply line. -/
theorem applyLine_late {x : Nat} (hat : s.atApplyLine n = true) (hlead : s.leadOf (s.groupOf n) = some n)
    (hseen : Sparse.find s.display.applySeen n ≠ some (s.nextFrame n)) (hc : s.display.commits = [c]) (hw : s.display.waitingRelease = [])
    (hg : c.group = s.groupOf n) (hs : c.stage = .waiting) (ht : c.target = some x)
    (hx : 2 ^ 31 ≤ (x + 2 ^ 32 - s.nextFrame n) % 2 ^ 32) :
    s.applyLine n = (s.applyBegun n).abandonCommit c 0x0302 [0] := by
  have hmine : ((s.applyBegun n).display.commits.filter fun d => d.group == (s.applyBegun n).groupOf n) = [c] := by
    have hgroup : (c.group == (s.applyBegun n).groupOf n) = true := beq_iff_eq.2 hg
    show s.display.commits.filter _ = _
    rw [hc]
    simp only [List.filter_cons, hgroup, if_true, List.filter_nil]
  have hdecide : (s.applyBegun n).applyDecisions (s.nextFrame n) 0 [c] = (s.applyBegun n).abandonCommit c 0x0302 [0] := by
    have hlate : decide (2 ^ 31 ≤ (x + 2 ^ 32 - s.nextFrame n) % 2 ^ 32) = true := decide_eq_true hx
    simp only [applyDecisions, hs, ht, hlate]
    rfl
  have hrun : s.applyLine n = ((s.applyBegun n).applyDecisions (s.nextFrame n) 0
      ((s.applyBegun n).display.commits.filter fun d => d.group == (s.applyBegun n).groupOf n)).wakeReleases :=
    if_pos ⟨hat, hlead, hseen⟩
  rw [hrun, hmine, hdecide]
  exact wakeReleases_abandonCommit (s := s.applyBegun n) hw c _ _

end State

/-! ### What holds of a commit whose function is not in reset -/

/-- R200: the clause of O25 on an armed commit without an acknowledgement, when its function is not in reset. -/
theorem commitAckTimeout_abandons {s : State} {c : Commit} {jid : Nat} {j : Job} (hc : s.display.commits = [c]) (hs : c.stage = .sent)
    (hj : c.jid = some jid) (hsil : c.silent = false) (hpost : c.posted = false) (ho : s.owes jid j = true)
    (hw : s.display.waitingRelease = []) (hr : s.fnState j.fn ≠ .resetting) :
    ∃ t, exec (.commitAckTimeout c.cno) s = .next t ∧ Posts s t j true 0x0304 [0] ∧ t.display = { s.display with commits := [] }
      ∧ OnlyChanges s t [.out, .display, .queues, .jobs, .msiPending, .pair] :=
  ⟨_, congrArg Host.Outcome.next (State.ackTimeout_single hc hs hw), State.posts_abandonCommit hj hsil hpost ho hr _ _,
    State.abandonCommit_display_single hc _ _, State.abandonCommit_only c _ _ (List.Subset.refl _) (OnlyChanges.refl s _)⟩

/-- R198, R200: the clause of O26 on a target that has passed, when the commit's function is not in reset. -/
theorem applyLine_dropsLate {s : State} {n x jid : Nat} {c : Commit} {j : Job} (hat : s.atApplyLine n = true)
    (hlead : s.leadOf (s.groupOf n) = some n) (hseen : Sparse.find s.display.applySeen n ≠ some (s.nextFrame n))
    (hc : s.display.commits = [c]) (hw : s.display.waitingRelease = []) (hg : c.group = s.groupOf n) (hs : c.stage = .waiting)
    (ht : c.target = some x) (hx : 2 ^ 31 ≤ (x + 2 ^ 32 - s.nextFrame n) % 2 ^ 32) (hj : c.jid = some jid) (hsil : c.silent = false)
    (hpost : c.posted = false) (ho : s.owes jid j = true) (hr : s.fnState j.fn ≠ .resetting) :
    ∃ t, exec (.applyLine n) s = .next t ∧ t.display.commits = [] ∧ Posts s t j true 0x0302 [0]
      ∧ OnlyChanges s t [.out, .display, .queues, .jobs, .msiPending, .pair] :=
  ⟨_, congrArg Host.Outcome.next (State.applyLine_late hat hlead hseen hc hw hg hs ht hx),
    congrArg Display.commits (State.abandonCommit_display_single (s := s.applyBegun n) hc _ _),
    State.posts_abandonCommit (s := s.applyBegun n) hj hsil hpost ho hr _ _,
    State.abandonCommit_only c _ _ (List.Subset.refl _) ((State.applyBegun_only s n).mono (by decide))⟩

/-! ### Three commits of a function in reset

R128 posts no final completion to a function in reset. A reset discards what the function owes, but VF 2 of these states has armed its
commit since, and neither the invariant nor `owes` looks at the state of the function. -/

/-- The COMMIT of queue 1 of VF 2, number 50, has completed DEFERRED. -/
def deferredCommit : Job := { fetchedJob 50 3 with opcode := 0x20, stage := .owed }

/-- Its armed commit, of one word of pipe 2. -/
def resetFnCommit : Commit where
  cno := 7
  jid := some 50
  cid := 3
  fn := 2
  group := 0
  target := none
  entries := [((Page.pipe 2).key 0x044, 0x111)]
  pages := []
  stage := .sent
  frame := 0
  todo := []
  posted := false
  handover := none
  release := none
  sentAt := 0
  silent := false

/-- VF 2 is in reset and owes that completion; its queue 1 has room for it. Output 2, of 64 lines, stands at `d`. -/
def resetFnOwes (d : Disp) (c : Commit) : State := { State.reset with
  regs := [((Page.scn 2).key 0x048, 0x00040040#32), ((Page.vf 2).key 0x150, 0x00020008#32)]
  display := { Display.reset with disps := [(2, d)], commits := [c] }
  hosts := { Hosts.reset with
    queues := [(17, { idleQueue with state := .running })]
    fns := [(2, { absentFn with state := .resetting })]
    jobs := [deferredCommit]
    nextJid := 60 } }

theorem resetFnOwes_inv (d : Disp) (c : Commit) : Inv (resetFnOwes d c) :=
  ((Sound.withRegs invAtReset (regs := [((Page.scn 2).key 0x048, 0x00040040#32), ((Page.vf 2).key 0x150, 0x00020008#32)])
    (by decide)).withHosts (by decide)).withDisplay _

theorem resetFnOwes_resetting (d : Disp) (c : Commit) : (resetFnOwes d c).fnState deferredCommit.fn = .resetting := rfl

/-- A completion that a command posts is something put out. -/
theorem Posts.out_ne_nil {s t : State} {j : Job} {fin : Bool} {status : Nat} {res : List Nat} (h : Posts s t j fin status res) : t.out ≠ [] := by
  obtain ⟨_, _, ho⟩ := h
  exact List.ne_nil_of_mem ho

/-- Refutes O25: the acknowledgement of a commit of VF 2 does not come while VF 2 is in reset; nothing is posted. With the function not in
reset the clause holds (`commitAckTimeout_abandons`). -/
theorem not_commitArming : ¬ Obligations.CommitArming := by
  intro h
  obtain ⟨-, -, -, -, habandon⟩ := h
  have ho : (resetFnOwes idleDisp resetFnCommit).owes 50 deferredCommit = true := by decide +kernel
  obtain ⟨t, ht, hposts, -⟩ := habandon (resetFnOwes idleDisp resetFnCommit) resetFnCommit 50 deferredCommit (resetFnOwes_inv _ _) rfl rfl rfl
    rfl rfl ho rfl
  have hrun : (resetFnOwes idleDisp resetFnCommit).abandonCommit resetFnCommit 0x0304 [0] = t :=
    (State.ackTimeout_single rfl rfl rfl).symm.trans (Host.Outcome.next.inj ht)
  refine hposts.out_ne_nil ?_
  rw [← hrun]
  exact State.abandonCommit_resetting_out rfl rfl rfl ho (resetFnOwes_resetting _ _) _ _

/-- The apply line of output 2 (R192). -/
def applyLineDisp : Disp := { idleDisp with running := true, line := 60, guard := 4 }

/-- The commit waits, and its target, frame 0, has passed. -/
def lateCommit : Commit := { resetFnCommit with stage := .waiting, target := some 0 }

/-- Refutes O26: the target of a commit of VF 2 has passed while VF 2 is in reset; nothing is posted. With the function not in reset the
clause holds (`applyLine_dropsLate`). -/
theorem not_applyLine : ¬ Obligations.ApplyLine := by
  intro h
  obtain ⟨-, -, hlate, -⟩ := h
  have ho : (resetFnOwes applyLineDisp lateCommit).owes 50 deferredCommit = true := by decide +kernel
  have hat : (resetFnOwes applyLineDisp lateCommit).atApplyLine 2 = true := by decide +kernel
  have hlead : (resetFnOwes applyLineDisp lateCommit).leadOf ((resetFnOwes applyLineDisp lateCommit).groupOf 2) = some 2 := by decide +kernel
  have hgroup : lateCommit.group = (resetFnOwes applyLineDisp lateCommit).groupOf 2 := by decide +kernel
  have hx : 2 ^ 31 ≤ (0 + 2 ^ 32 - (resetFnOwes applyLineDisp lateCommit).nextFrame 2) % 2 ^ 32 := by decide +kernel
  have hseen : Sparse.find (resetFnOwes applyLineDisp lateCommit).display.applySeen 2
      ≠ some ((resetFnOwes applyLineDisp lateCommit).nextFrame 2) := nofun
  obtain ⟨t, ht, -, hposts, -⟩ := hlate (resetFnOwes applyLineDisp lateCommit) 2 0 50 lateCommit deferredCommit (resetFnOwes_inv _ _)
    (by decide) hat hlead hseen rfl rfl hgroup rfl rfl hx rfl rfl rfl ho
  have hrun := (State.applyLine_late hat hlead hseen rfl rfl hgroup rfl rfl hx).symm.trans (Host.Outcome.next.inj ht)
  refine hposts.out_ne_nil ?_
  rw [← hrun]
  exact State.abandonCommit_resetting_out (s := (resetFnOwes applyLineDisp lateCommit).applyBegun 2) rfl rfl rfl ho
    (resetFnOwes_resetting applyLineDisp lateCommit) _ _

/-- The last line of output 2, whose 64 lines have been composed. -/
def lastLineDisp : Disp := { idleDisp with running := true, line := 63, lines := List.replicate 64 [] }

/-- The commit is APPLYING for frame 1. -/
def applyingCommit : Commit := { resetFnCommit with stage := .applying, frame := 1, todo := [2] }

/-- What the end of the frame puts out is not the completion of the commit. -/
theorem cidStatus_frameDone_resetFnOwes :
    ∀ o ∈ ((resetFnOwes lastLineDisp applyingCommit).frameDone 2).out, cidStatus o ≠ some 3 := by decide +kernel

/-- Refutes O27: a commit of VF 2 applies at the latch point while VF 2 is in reset; its final completion is not posted. -/
theorem not_frameBoundary : ¬ Obligations.FrameBoundary := by
  intro h
  obtain ⟨-, happlies, -⟩ := h
  obtain ⟨t, ht, ⟨tail, phase, hout⟩, -⟩ := happlies (resetFnOwes lastLineDisp applyingCommit) 2 50 applyingCommit deferredCommit
    (resetFnOwes_inv _ _) (by decide) (by decide +kernel) rfl (by decide +kernel) rfl rfl rfl rfl rfl rfl rfl (by decide +kernel) rfl rfl rfl rfl
    (by decide +kernel) (by decide) (by decide +kernel)
  have hrun : (resetFnOwes lastLineDisp applyingCommit).frameDone 2 = t := Host.Outcome.next.inj ht
  rw [← hrun] at hout
  exact cidStatus_frameDone_resetFnOwes _ hout rfl

end Sys2Proof.Machine
end

section
/-! Proofs about furrow fetch and line composition (O31): what an evaluation of the monitor keeps of an output, what a fetched furrow adds to the
furrow store, and the pixels of a composed line. -/

namespace Sys2Proof.Machine

open Compose

/-! ### What furrow fetch and shedding keep of an output -/

/-- One output goes on within its frame: the latched words, the counter and the composed lines stay, and no furrow or tile leaves the store. -/
structure Disp.GoesOn (d e : Disp) : Prop where
  frame : e.frame = d.frame
  line : e.line = d.line
  lines : e.lines = d.lines
  arrived : ∀ x ∈ d.arrived, x ∈ e.arrived
  tiles : ∀ key, (Sparse.find d.tiles key).isSome = true → (Sparse.find e.tiles key).isSome = true

namespace Disp.GoesOn

variable {d e g : Disp}

theorem refl (d : Disp) : d.GoesOn d := ⟨rfl, rfl, rfl, fun _ h => h, fun _ h => h⟩

theorem trans (h : d.GoesOn e) (h' : e.GoesOn g) : d.GoesOn g :=
  ⟨h'.frame.trans h.frame, h'.line.trans h.line, h'.lines.trans h.lines, fun x hx => h'.arrived x (h.arrived x hx),
    fun key hk => h'.tiles key (h.tiles key hk)⟩

theorem startSet (d : Disp) (k fid : Nat) (remove : Bool) : d.GoesOn (State.startSet d k fid remove) := by
  unfold State.startSet
  split
  · exact refl d
  · exact ⟨rfl, rfl, rfl, fun _ h => h, fun _ h => h⟩

theorem noteSlack (d : Disp) (k : Nat) (on : Bool) : d.GoesOn (State.noteSlack d k on) :=
  ⟨rfl, rfl, rfl, fun _ h => h, fun _ h => h⟩

theorem shedMore (d : Disp) (k fid : Nat) (l : List ShedUnit) (x : Option Nat) :
    d.GoesOn { State.startSet d k fid false with shed := l, shedMax := x } :=
  (startSet d k fid false).trans ⟨rfl, rfl, rfl, fun _ h => h, fun _ h => h⟩

theorem arrive (d : Disp) (key : Nat) : d.GoesOn { d with arrived := d.arrived ++ [key] } :=
  ⟨rfl, rfl, rfl, fun _ h => List.mem_append_left _ h, fun _ h => h⟩

end Disp.GoesOn

/-- Of the displays only output n differs, and it goes on within its frame. -/
structure State.GoesOn (n : Nat) (s t : State) : Prop where
  others : SameEntriesBut s.display.disps t.display.disps [n]
  disp : (s.disp n).GoesOn (t.disp n)

namespace State

variable {s t u : State} {n : Nat} {d : Disp}

theorem disp_setDisp_self (s : State) (n : Nat) (d : Disp) : (s.setDisp n d).disp n = d := by
  rw [disp, setDisp_field_display, Sparse.find_put_self]
  rfl

theorem sameEntriesBut_setDisp (s : State) (n : Nat) (d : Disp) : SameEntriesBut s.display.disps (s.setDisp n d).display.disps [n] := by
  intro k hk
  rw [setDisp_field_display]
  exact Sparse.find_put_other _ _ (List.ne_of_not_mem_cons hk)

theorem disp_congr (h : t.display = s.display) (n : Nat) : t.disp n = s.disp n := by
  unfold disp
  rw [h]

theorem display_event (s : State) (pg : Page) (i : Nat) : (s.event pg i).display = s.display :=
  (event_only pg i (List.Subset.refl _) (OnlyChanges.refl s _)).2.2 .display (by decide)

theorem display_pmcCount (s : State) (event fn : Nat) (world filterApplies : Bool) (k : Nat) :
    (s.pmcCount event fn world filterApplies k).display = s.display :=
  (pmcCount_only event fn world filterApplies k (List.Subset.refl _) (OnlyChanges.refl s _)).2.2 .display (by decide)

theorem display_foldl_event {α : Type} (l : List α) (pg : α → Page) (i : Nat) (s : State) :
    (l.foldl (fun u k => u.event (pg k) i) s).display = s.display :=
  foldl_read_of_forall State.display fun k _ u => display_event u (pg k) i

namespace GoesOn

theorem refl (s : State) : GoesOn n s s := ⟨fun _ _ => rfl, .refl _⟩

theorem trans (h : GoesOn n s t) (h' : GoesOn n t u) : GoesOn n s u :=
  ⟨fun k hk => (h'.others k hk).trans (h.others k hk), h.disp.trans h'.disp⟩

theorem of_display (h : t.display = s.display) : GoesOn n s t :=
  ⟨fun _ _ => by rw [h], by rw [disp_congr h]; exact .refl _⟩

theorem setDisp (h : (s.disp n).GoesOn d) : GoesOn n s (s.setDisp n d) :=
  ⟨sameEntriesBut_setDisp s n d, by rw [disp_setDisp_self]; exact h⟩

/-- R231: shedding a unit. -/
theorem shedUnit (s : State) (n : Nat) (sl : Slot) (f : Furrow) (i : Nat) : GoesOn n s (s.shedUnit n sl f i) := by
  unfold State.shedUnit
  dsimp only
  split
  · exact ((setDisp (.shedMore ..)).trans (of_display (display_pmcCount ..))).trans (of_display (display_event ..))
  · exact (setDisp (.shedMore ..)).trans (of_display (display_pmcCount ..))

theorem shedLoop (n : Nat) (now : Int) (m : Monitor) (fuel : Nat) : ∀ s : State, GoesOn n s (State.shedLoop n now m fuel s) := by
  induction fuel with
  | zero => exact refl
  | succ fuel ih =>
    intro s
    unfold State.shedLoop
    dsimp only
    split
    · split
      · exact (shedUnit ..).trans (ih _)
      · exact refl s
    · exact refl s

theorem shedForLine (n y : Nat) (fuel : Nat) : ∀ s : State, GoesOn n s (State.shedForLine n y fuel s) := by
  induction fuel with
  | zero => exact refl
  | succ fuel ih =>
    intro s
    unfold State.shedForLine
    dsimp only
    split
    · exact (shedUnit ..).trans (ih _)
    · exact refl s

end GoesOn

/-- The furrows that slots go on to are noted in the displays, and nowhere else. -/
structure Notes (n : Nat) (s t : State) : Prop where
  goes : GoesOn n s t
  rest : t = { s with display := t.display }

namespace Notes

theorem refl (s : State) : Notes n s s := ⟨.refl s, rfl⟩

theorem trans (h : Notes n s t) (h' : Notes n t u) : Notes n s u :=
  ⟨h.goes.trans h'.goes, by rw [h'.rest, h.rest]⟩

theorem setDisp (h : (s.disp n).GoesOn d) : Notes n s (s.setDisp n d) := ⟨.setDisp h, rfl⟩

theorem advanceSlot (n : Nat) (now : Int) (m : Monitor) (top : Nat) (sl : Slot) (fuel : Nat) :
    ∀ s : State, Notes n s (State.advanceSlot n now m top sl fuel s) := by
  induction fuel with
  | zero => exact refl
  | succ fuel ih =>
    intro s
    unfold State.advanceSlot
    dsimp only
    split
    · exact refl s
    · split
      · exact (setDisp (((Disp.GoesOn.startSet ..).trans (.noteSlack ..)).trans (.arrive ..))).trans (ih _)
      · exact setDisp (.startSet ..)

theorem advance (s : State) (n : Nat) (now : Int) (m : Monitor) : Notes n s (s.advance n now m) := by
  have hfold : ∀ (top : Nat) (l : List Slot) (u : State), Notes n s u →
      Notes n s (l.foldl (fun u sl => State.advanceSlot n now m top sl (slotFurrows sl (s.timing n).va).length u) u) := by
    intro top l
    induction l with
    | nil => exact fun _ h => h
    | cons sl l ih => exact fun u h => ih _ (h.trans (advanceSlot ..))
  exact hfold _ _ _ (refl s)

end Notes

theorem GoesOn.monitor (s : State) (n : Nat) (now : Int) (m : Monitor) : GoesOn n s (s.monitor n now m) := by
  have hnote : ∀ {α : Type} (k : α → Nat) (on : α → Bool) (l : List α) (e : Disp),
      e.GoesOn (l.foldl (fun x p => noteSlack x (k p) (on p)) e) := by
    intro α k on l
    induction l with
    | nil => exact Disp.GoesOn.refl
    | cons p l ih => exact fun e => (Disp.GoesOn.noteSlack e _ _).trans (ih _)
  exact ((Notes.advance s n now m).goes.trans (.shedLoop n now m _ _)).trans (.setDisp (hnote _ _ _ _))

/-! ### A furrow that arrives (R226, R230) -/

/-- What composition reads of a view does not depend on the displays. -/
theorem frameSlots_display (v : State) (x : Display) (n : Nat) : frameSlots { v with display := x } n = frameSlots v n := rfl

theorem keepouts_display (v : State) (x : Display) (n : Nat) : keepouts { v with display := x } n = keepouts v n := rfl

theorem timing_display (s : State) (x : Display) (n : Nat) : timing { s with display := x } n = s.timing n := rfl

/-- A tile that has been read leaves the displays as they are. -/
theorem display_readTile (s : State) (sl : Slot) (p : Nat) (pl : Seedbed.Plane) (ty tx : Nat) (entry : Option Nat) :
    (s.readTile sl p pl ty tx entry).2.display = s.display :=
  (readTile_only sl p pl ty tx entry (List.Subset.refl _) (OnlyChanges.refl s _)).2.2 .display (by decide)

theorem display_readMeta (s : State) (who : Attr) (l : List Nat) : (s.readMeta who l).2.display = s.display :=
  (readMeta_only who l (List.Subset.refl _) (OnlyChanges.refl s _)).2.2 .display (by decide)

/-- A fold that puts an entry for each of its elements: every key of the list and every key listed before is listed. -/
theorem isSome_find_foldl_put {α β σ : Type} {g : Store α × σ → β → Store α × σ} {key : β → Nat}
    (hput : ∀ acc x, ∃ v, (g acc x).1 = Sparse.put acc.1 (key x) v) (l : List β) (acc : Store α × σ) {k : Nat}
    (h : k ∈ l.map key ∨ (Sparse.find acc.1 k).isSome = true) : (Sparse.find (l.foldl g acc).1 k).isSome = true := by
  induction l generalizing acc with
  | nil => simpa using h
  | cons x l ih =>
    obtain ⟨v, hv⟩ := hput acc x
    refine ih (g acc x) ?_
    by_cases hk : k = key x
    · exact .inr (by rw [hv, hk, Sparse.find_put_self]; rfl)
    · rw [hv, Sparse.find_put_other _ _ hk]
      simpa [hk] using h

/-- The tile columns of a furrow that the frame of output n needs as it stands. -/
def columnsNeeded (s : State) (n : Nat) (sl : Slot) (f : Furrow) : List Nat :=
  neededCols (s.disp n) (frameSlots (s.frameView n) n) (keepouts (s.frameView n) n) (s.timing n) sl f

/-- R226: what a fetched furrow leaves: its needed tiles beside those of the store, and its mark as arrived. -/
theorem fetchFurrow_eq (s : State) (n : Nat) (sl : Slot) (f : Furrow) (pl : Seedbed.Plane) :
    ∃ (u : State) (tiles : Store Tile), s.fetchFurrow n sl f pl
        = u.setDisp n { u.disp n with tiles := tiles, arrived := (u.disp n).arrived ++ [furrowKey sl.k f] }
      ∧ u.display = s.display
      ∧ ∀ key, key ∈ (s.columnsNeeded n sl f).map (tileKey sl.k f.plane f.row) ∨ (Sparse.find (s.disp n).tiles key).isSome = true →
          (Sparse.find tiles key).isSome = true := by
  refine ⟨_, _, rfl, ?_, fun key h => ?_⟩
  · refine (foldl_read_of_forall (fun acc : Store Tile × State => acc.2.display) fun tx _ acc => display_readTile ..).trans ?_
    cases sl.seedbed
    · rfl
    · exact display_readMeta ..
  · exact isSome_find_foldl_put (fun acc tx => ⟨_, rfl⟩) _ _ h

theorem GoesOn.fetchFurrow (s : State) (n : Nat) (sl : Slot) (f : Furrow) (pl : Seedbed.Plane) : GoesOn n s (s.fetchFurrow n sl f pl) := by
  obtain ⟨u, tiles, hrun, hu, htiles⟩ := fetchFurrow_eq s n sl f pl
  rw [hrun]
  refine (GoesOn.of_display hu).trans (.setDisp ⟨rfl, rfl, rfl, fun _ h => List.mem_append_left _ h, fun key h => htiles key (.inr ?_)⟩)
  rw [← disp_congr hu]
  exact h

theorem mem_arrived_fetchFurrow (s : State) (n : Nat) (sl : Slot) (f : Furrow) (pl : Seedbed.Plane) :
    furrowKey sl.k f ∈ ((s.fetchFurrow n sl f pl).disp n).arrived := by
  obtain ⟨u, tiles, hrun, -, -⟩ := fetchFurrow_eq s n sl f pl
  rw [hrun, disp_setDisp_self]
  exact List.mem_append_right _ (List.mem_singleton_self _)

theorem tiles_fetchFurrow (s : State) (n : Nat) (sl : Slot) (f : Furrow) (pl : Seedbed.Plane) {tx : Nat} (h : tx ∈ s.columnsNeeded n sl f) :
    (Sparse.find ((s.fetchFurrow n sl f pl).disp n).tiles (tileKey sl.k f.plane f.row tx)).isSome = true := by
  obtain ⟨u, tiles, hrun, -, htiles⟩ := fetchFurrow_eq s n sl f pl
  rw [hrun, disp_setDisp_self]
  exact htiles _ (.inl (List.mem_map_of_mem h))

/-- Noting furrows in the displays does not change which columns lines need, but by the shed sets of the output. -/
theorem Notes.columnsNeeded (h : Notes n s t) (sl : Slot) (f : Furrow) : t.columnsNeeded n sl f
    = neededCols (t.disp n) (frameSlots (s.frameView n) n) (keepouts (s.frameView n) n) (s.timing n) sl f := by
  have hview : t.frameView n = { s.frameView n with display := t.display } := by
    unfold frameView
    rw [h.goes.disp.frame]
    exact congrArg (fun u : State => { u with regs := (s.disp n).frame }) h.rest
  have htiming : t.timing n = s.timing n := by
    rw [h.rest]
    exact timing_display s _ n
  unfold State.columnsNeeded
  rw [hview, htiming, frameSlots_display, keepouts_display]

variable {k p row clock : Nat} {m : Monitor} {sl : Slot} {f : Furrow} {q : Nat × Seedbed.Plane}

/-- R226: the furrow that its port fetches next is fetched, and the monitor evaluates. -/
theorem furrowArrival_next (hrun : (s.disp n).running = true) (hsl : (s.fetchedSlots n (s.disp n)).find? (fun x => x.k == k) = some sl)
    (hf : (slotFurrows sl (s.timing n).va).find? (fun g => g.plane == p && g.row == row) = some f)
    (hq : (slotPlanes sl).find? (fun x => x.1 == p) = some q) (ht : t = s.advance n (lineClock (s.timing n) (s.disp n) + clock) m)
    (hnext : fetchedNext (t.currentFurrows n (t.disp n) (s.timing n)) sl f = true) :
    s.furrowArrival n k p row clock m = (t.fetchFurrow n sl f q.2).monitor n (lineClock (s.timing n) (s.disp n) + clock) m := by
  subst ht
  simp only [furrowArrival, hsl, hf, hq]
  exact if_neg (by simp [hrun, hnext])

/-! ### The pixels of a line (R171, R175, R180, R232, R233) -/

/-- The columns of the spans of a line are its columns. -/
theorem sum_span_columns (ha : Nat) : ∀ k, ((List.range k).map fun i => (spanCols ha i).2 - (spanCols ha i).1).sum = min ha (128 * k)
  | 0 => by simp
  | k + 1 => by
    rw [List.range_succ, List.map_append, List.sum_append, sum_span_columns ha k]
    simp only [spanCols, List.map_cons, List.map_nil, List.sum_cons, List.sum_nil]
    omega

/-- R175: a slot that is not enabled contributes nowhere. -/
theorem contributors_of_disabled (kos : List Keepout) (c : Nat × Nat) (y : Nat) {slots : List Slot} (h : ∀ sl ∈ slots, sl.en = false) :
    contributors kos slots c y = ([], []) := by
  have hfrom : ∀ (l : List Slot) (hidden : Bool), (∀ sl ∈ l, sl.en = false) → contributorsFrom kos c y l hidden = ([], []) := by
    intro l
    induction l with
    | nil => exact fun _ _ => rfl
    | cons sl l ih =>
      intro hidden hl
      have hno : candidate kos c y sl = false := by simp [candidate, hl sl List.mem_cons_self]
      rw [contributorsFrom, hno]
      exact ih hidden fun x hx => hl x (List.mem_cons_of_mem _ hx)
  exact hfrom _ _ fun sl hsl => h sl (List.mem_reverse.1 hsl)

/-- R180: the pixel of the output groundsheet. -/
def groundPix (s : State) (n : Nat) : OutPix := outStages (s.frameView n) n (background (s.frameView n) n) 0

/-- R180: with no layer a pixel is that of the output groundsheet. -/
theorem cascade_nil (s : State) (n : Nat) (kos : List Keepout) (x y : Nat) : cascade (s.frameView n) n kos [] x y = s.groundPix n := rfl

theorem getD_map_const {α β : Type} (l : List α) (b : β) (i : Nat) : (l.map fun _ => b).getD i b = b := by
  rw [List.map_const', List.getD_eq_getElem?_getD, List.getElem?_replicate]
  split <;> rfl

/-- R171, R232, R233: the work of a line puts H_ACTIVE pixels behind the earlier lines. -/
theorem lines_lineWork (s : State) (n : Nat) (d0 : Disp) (start : Nat) (deficit : Bool) :
    ∃ line, (s.lineWork n d0 start deficit).disp.lines = d0.lines ++ [line] ∧ line.length = (s.timing n).ha
      ∧ ((∀ sl ∈ frameSlots (s.frameView n) n, sl.en = false) → ∀ px ∈ line, px = s.groundPix n) := by
  refine ⟨_, rfl, ?_, fun hoff px hpx => ?_⟩
  · simp only [List.length_flatMap, List.length_map, List.length_range, sum_span_columns, spanCount]
    omega
  · obtain ⟨i, hi, hpx⟩ := List.mem_flatMap.1 hpx
    obtain ⟨x, -, rfl⟩ := List.mem_map.1 hpx
    simp only [contributors_of_disabled _ _ _ hoff, getD_map_const, List.map_nil, ite_self, cascade_nil]
    exact ite_self (s.groundPix n)

/-- The display takes the line, and events of its frame may follow. -/
theorem display_putLine (s : State) (n : Nat) (w : LineWork) : (s.putLine n w).display = (s.setDisp n w.disp).display := by
  unfold putLine
  dsimp only
  (repeat' split) <;> simp only [display_event, display_foldl_event]

/-- R232, R233: the pipe may begin the next line of output n. -/
def lineDue (s : State) (n : Nat) : Prop :=
  (s.disp n).running = true ∧ (s.disp n).lines.length < (s.timing n).va
    ∧ ((s.disp n).lines.length < 4
      ∨ ((s.disp n).line < (s.timing n).va ∧ (s.disp n).fresh = false ∧ (s.disp n).lines.length ≤ (s.disp n).line + 4))

/-- The line that needed spoiled tiles is behind (R303). -/
theorem GoesOn.clearSpoiled (u : State) (n : Nat) (c : Prop) [Decidable c] :
    GoesOn n u (if c then u else u.setDisp n { u.disp n with spoiled := [] }) := by
  split
  · exact .refl u
  · exact .setDisp ⟨rfl, rfl, rfl, fun _ h => h, fun _ h => h⟩

/-- A line that may end too late is first shed for (R177, R233). -/
theorem GoesOn.shedIf (c : Prop) [Decidable c] (n y fuel : Nat) (s : State) : GoesOn n s (if c then State.shedForLine n y fuel s else s) := by
  split
  · exact .shedForLine ..
  · exact .refl s

/-- Composing the line that is due: the display takes its work after the shedding for it, and the frame goes on. -/
theorem goesOn_composeLine (h : s.lineDue n) : ∃ (s0 : State) (start : Nat) (late : Bool), GoesOn n s s0
    ∧ GoesOn n (s0.putLine n (s.lineWork n (s0.disp n) start late)) (s.composeLine n) := by
  obtain ⟨hrun, hleft, hready⟩ := h
  have hgo : ¬ ((!(s.disp n).running) = true ∨ (s.timing n).va ≤ (s.disp n).lines.length
      ∨ ¬ ((s.disp n).lines.length < 4
        ∨ ((s.disp n).line < (s.timing n).va ∧ (!(s.disp n).fresh) = true ∧ (s.disp n).lines.length ≤ (s.disp n).line + 4))) := by
    rintro (h | h | h)
    · simp [hrun] at h
    · omega
    · exact h (by simpa using hready)
  unfold composeLine
  dsimp only
  rw [if_neg hgo]
  exact ⟨_, _, _, .shedIf .., .clearSpoiled ..⟩

/-- R171, R232, R233: the line that is due is composed behind the earlier ones. -/
theorem composeLine_due (h : s.lineDue n) :
    ∃ line, ((s.composeLine n).disp n).lines = (s.disp n).lines ++ [line] ∧ line.length = (s.timing n).ha
      ∧ ((∀ sl ∈ frameSlots (s.frameView n) n, sl.en = false) → ∀ px ∈ line, px = s.groundPix n)
      ∧ ((s.composeLine n).disp n).line = (s.disp n).line ∧ SameEntriesBut s.display.disps (s.composeLine n).display.disps [n] := by
  obtain ⟨s0, start, late, hshed, hend⟩ := goesOn_composeLine h
  obtain ⟨line, hlines, hlength, hground⟩ := lines_lineWork s n (s0.disp n) start late
  have hput := display_putLine s0 n (s.lineWork n (s0.disp n) start late)
  have hdisp := (disp_congr hput n).trans (disp_setDisp_self ..)
  refine ⟨line, ?_, hlength, hground, ?_, fun k hk => ?_⟩
  · rw [hend.disp.lines, hdisp, hlines, hshed.disp.lines]
  · rw [hend.disp.line, hdisp]
    exact hshed.disp.line
  · rw [hend.others k hk, hput, sameEntriesBut_setDisp _ _ _ k hk, hshed.others k hk]

end State

/-- Settles O31: the needed tiles of the furrow that its port fetches next enter the store, which the monitor then leaves them in; a composed
line has one pixel for each column of its spans, and with no slot enabled no layer reaches it. -/
theorem furrowsAndLines : Obligations.FurrowsAndLines := by
  refine ⟨fun s s0 n k p row clock m sl f q _ _ hrun hsl hf hq hs0 hnext => ?_, fun s n _ _ hrun hleft hready => ?_,
    fun s n _ _ hrun hleft hready hoff => ?_⟩
  · have hnotes : State.Notes n s s0 := hs0 ▸ State.Notes.advance ..
    have hfetch := State.GoesOn.fetchFurrow s0 n sl f q.2
    have hmon := State.GoesOn.monitor (s0.fetchFurrow n sl f q.2) n (lineClock (s.timing n) (s.disp n) + clock) m
    have hall := (hnotes.goes.trans hfetch).trans hmon
    have hk : sl.k = k := by simpa using List.find?_some hsl
    obtain ⟨hp, hrow⟩ : f.plane = p ∧ f.row = row := by simpa using List.find?_some hf
    have hgo := State.furrowArrival_next hrun hsl hf hq hs0 hnext
    refine ⟨_, congrArg Host.Outcome.next hgo, ?_, hall.disp.arrived, fun tx htx => ?_, hall.disp.lines, hall.disp.line, hall.others,
      exec_only (.furrowArrival n k p row clock m) (congrArg Host.Outcome.next hgo)⟩
    · rw [← hk]
      exact hmon.disp.arrived _ (State.mem_arrived_fetchFurrow s0 n sl f q.2)
    · rw [← hk, ← hp, ← hrow]
      rw [← hnotes.columnsNeeded] at htx
      exact hmon.disp.tiles _ (State.tiles_fetchFurrow s0 n sl f q.2 htx)
  · obtain ⟨line, hlines, hlength, -, hline, hothers⟩ := State.composeLine_due ⟨hrun, hleft, hready⟩
    refine ⟨_, rfl, ?_, ?_, hline, hothers, exec_only (.lineComposeStart n) rfl⟩
    · rw [hlines, List.dropLast_concat]
    · rw [hlines, List.getLast?_concat, Option.map_some, hlength]
  · obtain ⟨line, hlines, hlength, hground, -, -⟩ := State.composeLine_due ⟨hrun, hleft, hready⟩
    refine ⟨_, rfl, ?_, exec_only (.lineComposeStart n) rfl⟩
    rw [hlines, List.eq_replicate_iff.2 ⟨hlength, hground hoff⟩]
    rfl

end Sys2Proof.Machine
end

section
/-! Proofs about starts, Adaptive-Sync decisions and genlock settings of scan-out. One clause of each of O28, O29 and O30 fails, and holds under the
bound that the statement leaves out: of the requester's number, or of the lines of a frame. -/

namespace Sys2Proof.Machine

namespace State

variable {s : State} {n : Nat} {w : RegWr} {a : RegAcc}

/-! ### A write of ENABLE alone to a PG_CTRL of scan-out -/

theorem scn_fieldsAt_ctrl (n : Nat) :
    (Page.scn n).fieldsAt 0x008 = [F.PG_CTRL_ENABLE, F.PG_CTRL_SOFT_RESET, F.PG_CTRL_LOCK, F.PG_CTRL_UNLOCK] := rfl

/-- The value 1 writes no other bit of PG_CTRL: those are set by ones (R10). -/
theorem eq_enable_of_written {f : Fld} (hp : a.page = .scn n) (ho : a.off = 0x008) (hv : a.val = 1) (hf : f ∈ s.writtenFields a) :
    f = F.PG_CTRL_ENABLE := by
  obtain ⟨hmem, hw⟩ := mem_writtenFields.1 hf
  rw [hp, ho, scn_fieldsAt_ctrl] at hmem
  simp only [List.mem_cons, List.not_mem_nil, or_false] at hmem
  rcases hmem with rfl | rfl | rfl | rfl
  · rfl
  all_goals
    unfold written at hw
    rw [hv] at hw
    split at hw <;> exact Bool.noConfusion (hw : false = true)

/-- A granted write of 1 to PG_CTRL runs the start alone, in an island that is not gated. -/
theorem ctrlWrite_enable (hp : a.page = .scn n) (ho : a.off = 0x008) (hv : a.val = 1) (hen : s.grants a F.PG_CTRL_ENABLE = true)
    (hgate : s.pageGated (.scn n) = false) (enable : Bool → State → State) (reset : State → State) :
    s.ctrlWrite a enable reset = enable true s := by
  have hgranted : F.PG_CTRL_ENABLE ∈ s.writtenFields a ∧ s.refusedSec a F.PG_CTRL_ENABLE = false
      ∧ s.refusedLock a F.PG_CTRL_ENABLE = false := by
    simpa [grants, grantedFields] using hen
  obtain ⟨-, hsec, hlock⟩ := hgranted
  have hnot : ∀ f, f ≠ F.PG_CTRL_ENABLE → s.grants a f = false := fun f hf => by
    have hno : f ∉ s.grantedFields a := fun h => hf (eq_enable_of_written hp ho hv (List.mem_filter.1 h).1)
    simpa [grants] using hno
  have hnosec : (s.writtenFields a).any (s.refusedSec a) = false :=
    List.any_eq_false.2 fun f hf => by simp [eq_enable_of_written hp ho hv hf, hsec]
  have hnolock : (s.writtenFields a).any (s.refusedLock a) = false :=
    List.any_eq_false.2 fun f hf => by simp [eq_enable_of_written hp ho hv hf, hlock]
  have hungate : s.ungatePage (.scn n) = s := by
    unfold ungatePage
    unfold pageGated at hgate
    split
    · next i hi => rw [hi] at hgate; exact if_neg (by simpa using hgate)
    · rfl
  have hrec : s.recRefused a = s := by simp only [recRefused, hnosec, hnolock, Bool.false_eq_true, if_false]
  simp only [ctrlWrite, hen, hnot F.PG_CTRL_SOFT_RESET (by decide), hnot F.PG_CTRL_LOCK (by decide), hnot F.PG_CTRL_UNLOCK (by decide), hrec,
    ctrlEnable, ctrlReset, ctrlLock, hv, hp, hungate]
  rfl

/-- R472: an output that a contained fault stopped refuses the start, to a requester whose number fits its 8 bits. -/
theorem scanOutStart_stopped (hg : s.ctrlGranted w (.scn n) F.PG_CTRL_ENABLE 1 = true) (hstop : s.faults.stopped.contains (Page.scn n).base = true)
    (hreq : w.req.fn < 2 ^ 8) :
    ∃ t, exec (.scanOutStart w) s = .next t ∧ Records s t (.scn n) 0x1302 (accOf w (.scn n)).info
      ∧ OnlyChanges s t [.regs, .out, .msiPending] ∧ SameWordsBut s t (errWords (.scn n)) := by
  simp only [ctrlGranted, Bool.and_eq_true, beq_iff_eq, Bool.not_eq_true', and_assoc] at hg
  obtain ⟨harr, hgate, hoff, hval, hen, -⟩ := hg
  have hrun : s.accessAt w (fun a => isScnCtrl a && bit 0 a.val) (fun a t => t.ctrlWrite a (scnEnable a) (scnReset a))
      = s.recErr (.scn n) 0x1302 (accOf w (.scn n)).info := by
    rw [accessAt_eq harr (by simp [isScnCtrl, accOf, hoff, hval]; decide), ctrlWrite_enable rfl hoff hval hen hgate]
    exact if_pos hstop
  exact ⟨_, congrArg Host.Outcome.next hrun, records_recErr (by decide) (info_lt hreq),
    recErr_only _ _ _ (List.Subset.refl _) (OnlyChanges.refl s _), sameWordsBut_recErr s _ _ _⟩

/-! ### A genlock setting that is refused (R220) -/

/-- R220: a setting with no valid reference, or that would create what genlock cannot follow, is refused to a requester whose number fits its 8
bits. -/
theorem genlockWrite_refused (hg : s.wordGranted w (.scn n) F.SCN_GENLOCK_SRC.off = true)
    (hbad : 8 < bits 3 0 w.val.toNat
      ∨ ((bit 4 w.val.toNat = true ∨ bits 3 0 w.val.toNat ≠ s.fld (.scn n) F.SCN_GENLOCK_SRC)
        ∧ (bits 3 0 w.val.toNat = n ∨ (bits 3 0 w.val.toNat = 8 ∧ s.paired = false)
          ∨ (bits 3 0 w.val.toNat < 8 ∧ (s.fld (.scn (bits 3 0 w.val.toNat)) F.SCN_GENLOCK_EN = 1
            ∨ s.fld (.scn (bits 3 0 w.val.toNat)) F.SCN_MODE_VRR_EN = 1))))
      ∨ (bit 4 w.val.toNat = true ∧ ∃ m < 8, m ≠ n ∧ s.fld (.scn m) F.SCN_GENLOCK_EN = 1 ∧ s.fld (.scn m) F.SCN_GENLOCK_SRC = n))
    (hreq : w.req.fn < 2 ^ 8) :
    ∃ t, exec (.genlockWrite w) s = .next t ∧ Records s t (.scn n) 0x0006 (accOf w (.scn n)).info
      ∧ OnlyChanges s t [.regs, .out, .msiPending] ∧ SameWordsBut s t (errWords (.scn n)) := by
  simp only [wordGranted, Bool.and_eq_true, beq_iff_eq, Bool.not_eq_true', and_assoc] at hg
  obtain ⟨harr, hoff, hany, hsec, -⟩ := hg
  have hwrite : genlockWrite (accOf w (.scn n)) s = s.recErr (.scn n) 0x0006 (accOf w (.scn n)).info := by
    refine (if_neg ?_).trans ((if_pos ?_).trans (if_neg ?_))
    · simpa using hany
    · simpa [accOf, and_assoc] using hbad
    · simpa using hsec
  have hrun : s.accessAt w (fun a => match a.page with | .scn _ => F.SCN_GENLOCK_SRC.hits a.off | _ => false) genlockWrite
      = s.recErr (.scn n) 0x0006 (accOf w (.scn n)).info :=
    (accessAt_eq harr (by simp only [accOf, hoff]; decide) genlockWrite).trans hwrite
  exact ⟨_, congrArg Host.Outcome.next hrun, records_recErr (by decide) (info_lt hreq),
    recErr_only _ _ _ (List.Subset.refl _) (OnlyChanges.refl s _), sameWordsBut_recErr s _ _ _⟩

/-! ### A decision of Adaptive-Sync (R224) -/

/-- Counting an event changes words of the page of the counters alone. -/
theorem rw_pmcCount_other {k : Nat} (h : k / 0x1000 * 0x1000 ≠ Page.pmc.base) (s : State) (event fn : Nat) (world filterApplies : Bool) (c : Nat) :
    (s.pmcCount event fn world filterApplies c).rw k = s.rw k := by
  unfold pmcCount
  split
  · rfl
  · refine foldl_read_of_forall (fun t : State => t.rw k) fun i hi t => ?_
    have hi := List.mem_range.1 hi
    have hlo : k ≠ Page.pmc.key (F.PMC_CNT_LO_COUNT_LO.at [i]) := by
      simp only [Page.key, Page.base, F.PMC_CNT_LO_COUNT_LO, Fld.at, List.zip_cons_cons, List.zip_nil_right, List.map_cons, List.map_nil,
        List.sum_cons, List.sum_nil] at h ⊢
      omega
    have hhi : k ≠ Page.pmc.key (F.PMC_CNT_HI_COUNT_HI.at [i]) := by
      simp only [Page.key, Page.base, F.PMC_CNT_HI_COUNT_HI, Fld.at, List.zip_cons_cons, List.zip_nil_right, List.map_cons, List.map_nil,
        List.sum_cons, List.sum_nil] at h ⊢
      omega
    split
    · exact (rw_setFld_other _ hhi).trans (rw_setFld_other _ hlo)
    · rfl

/-- A flit that falls due is counted, and changes no register beside the counters. -/
theorem rw_sendFlit_other {k : Nat} (h : k / 0x1000 * 0x1000 ≠ Page.pmc.base) (s : State) (f : Flit) : (s.sendFlit f).rw k = s.rw k := by
  unfold sendFlit sendNow
  dsimp only
  split
  · rfl
  · split
    · split
      · rfl
      · exact rw_pmcCount_other h _ _ _ _ _ _
    · rfl

theorem display_sendFlit (s : State) (f : Flit) : (s.sendFlit f).display = s.display :=
  (sendFlit_only f none (List.Subset.refl _) (OnlyChanges.refl s _)).2.2 .display (by decide)

theorem display_adaptiveSdp (s : State) (k total : Nat) : (s.adaptiveSdp k total).display = s.display := by
  unfold adaptiveSdp
  split <;> rfl

theorem rw_adaptiveSdp (s : State) (n total k : Nat) : (s.adaptiveSdp n total).rw k = s.rw k := by
  unfold adaptiveSdp
  split <;> rfl

/-- A line that is not the last one before the vertical sync takes no decision. -/
theorem vrrDecision_elsewhere (h : (s.disp n).line ≠ (s.timing n).va + (s.timing n).vfp - 1 + (s.disp n).added) : s.vrrDecision n = s :=
  if_pos (.inr (.inr (.inr h)))

/-- The display that a decision leaves: the output proceeds, or a line is added. -/
def vrrDisp (s : State) (n : Nat) (go : Bool) : Disp :=
  if go then { s.disp n with proceeded := true } else { s.disp n with added := (s.disp n).added + 1 }

/-- The decision is taken and shown in the wait flag; nobody has been told. -/
def vrrTaken (s : State) (n : Nat) (go : Bool) : State :=
  (s.setDisp n (s.vrrDisp n go)).setFld (.scn n) F.SCN_BS_VRR_WAIT (b2n (!go))

theorem display_vrrTaken (s : State) (n : Nat) (go : Bool) : (s.vrrTaken n go).display = (s.setDisp n (s.vrrDisp n go)).display := rfl

theorem wait_vrrTaken (s : State) (n : Nat) (go : Bool) : (s.vrrTaken n go).fld (.scn n) F.SCN_BS_VRR_WAIT = b2n (!go) := by
  refine (fld_setFld_self _ (.scn n) F.SCN_BS_VRR_WAIT (b2n (!go)) [] (by decide) (by decide)).trans ?_
  cases go <;> rfl

theorem rw_vrrTaken_other {k : Nat} (s : State) (go : Bool) (h : k ≠ (Page.scn n).key 0x00C) : (s.vrrTaken n go).rw k = s.rw k := by
  unfold vrrTaken
  rw [rw_setFld_other _ h]
  rfl

/-- R224: what an output decides that repeats nobody's decision: a commit of its group is ready, or the frame is at its longest. -/
def ownDecision (s : State) (n : Nat) : Bool :=
  (s.disp n).applied || (s.display.commits.any fun c => c.group == s.groupOf n && c.stage == .waiting)
    || decide ((s.timing n).vmax ≤ totalLines (s.timing n) (s.disp n))

section decision
variable (hrun : (s.disp n).running = true) (hvrr : (s.timing n).vrr = true) (hproc : (s.disp n).proceeded = false) (hsby : s.standby = false)
  (hown : (genlockOf (s.disp n)).1 = true → (genlockOf (s.disp n)).2.1 ≠ 8)
include hrun hvrr hproc hsby hown

/-- R224: the output decides by itself, and an active device tells its partner. -/
theorem vrrDecision_own {go : Bool} (hgo : go = s.ownDecision n)
    (hline : (s.disp n).line = (s.timing n).va + (s.timing n).vfp - 1 + (s.disp n).added) :
    ∃ (u : State) (f : Flit), s.vrrDecision n = (if s.activeLinked = true then u.sendFlit f else u)
      ∧ u.display = (s.vrrTaken n go).display ∧ ∀ k, u.rw k = (s.vrrTaken n go).rw k := by
  unfold ownDecision at hgo
  have htold : (if (genlockOf (s.disp n)).1 = true ∧ (genlockOf (s.disp n)).2.1 = 8 then s.pair.vrrFlits.find? fun f =>
      f.1 == n && f.2.1 == s.fld (.scn n) F.SCN_SEQ_SEQ && f.2.2.1 == (s.disp n).line else none) = none :=
    if_neg fun h => hown h.1 h.2
  have hdue : ¬ ((!(s.disp n).running) = true ∨ (!(s.timing n).vrr) = true ∨ (s.disp n).proceeded = true
      ∨ (s.disp n).line ≠ (s.timing n).va + (s.timing n).vfp - 1 + (s.disp n).added) := by
    simp [hrun, hvrr, hproc, hline]
  have hskew : ¬ (s.standby = true ∧ s.pair.linkUp = true ∧ (none : Option (Nat × Nat × Nat × Bool)).isNone = true) := by
    simp [hsby]
  unfold vrrDecision
  dsimp only
  rw [if_neg hdue, htold]
  dsimp only
  rw [← hgo, if_neg hskew]
  refine ⟨_, _, rfl, ?_, fun k => ?_⟩ <;> cases go
  · rfl
  · exact display_adaptiveSdp ..
  · rfl
  · exact rw_adaptiveSdp ..

/-- R224: the clause of O29 on an output that decides by itself, for a frame with an active line or a front porch. -/
theorem vrrDecision_decides {go : Bool} (hn : n < 8) (hgo : go = s.ownDecision n)
    (hline : (s.disp n).line + 1 = (s.timing n).va + (s.timing n).vfp + (s.disp n).added) (hlines : 0 < (s.timing n).va + (s.timing n).vfp) :
    ∃ t, exec (.vrrDecision n) s = .next t
      ∧ t.disp n = (if go then { s.disp n with proceeded := true } else { s.disp n with added := (s.disp n).added + 1 })
      ∧ t.fld (.scn n) F.SCN_BS_VRR_WAIT = b2n (!go) ∧ SameEntriesBut s.display.disps t.display.disps [n]
      ∧ OnlyChanges s t (pieces (.vrrDecision n)) ∧ (s.activeLinked = false → SameWordsBut s t [(Page.scn n).key 0x00C]) := by
  obtain ⟨u, f, hu, hdisplay, hwords⟩ := vrrDecision_own hrun hvrr hproc hsby hown hgo (by omega)
  have hshown : (s.vrrDecision n).display = (s.setDisp n (s.vrrDisp n go)).display := by
    rw [hu, ← display_vrrTaken, ← hdisplay]
    split
    · exact display_sendFlit ..
    · rfl
  have hpage : (Page.scn n).key 0x00C / 0x1000 * 0x1000 ≠ Page.pmc.base := by
    simp only [Page.key, Page.base]
    omega
  have hwait : (s.vrrDecision n).rw ((Page.scn n).key 0x00C) = (s.vrrTaken n go).rw ((Page.scn n).key 0x00C) := by
    rw [hu, ← hwords]
    split
    · exact rw_sendFlit_other hpage ..
    · rfl
  have hflag : (s.vrrDecision n).fld (.scn n) F.SCN_BS_VRR_WAIT = b2n (!go) := by
    rw [← wait_vrrTaken s n go]
    exact congrArg (bits 19 19) hwait
  refine ⟨_, rfl, (disp_congr hshown n).trans (disp_setDisp_self ..), hflag, ?_, exec_only (.vrrDecision n) rfl, fun hlink k hk => ?_⟩
  · rw [hshown]
    exact sameEntriesBut_setDisp s n _
  · rw [hu, hlink, if_neg Bool.false_ne_true, hwords]
    exact rw_vrrTaken_other s go (List.ne_of_not_mem_cons hk)

end decision

end State

/-! ### The refusals that refute O28 and O30

A refusal records the access as its detail, with the requester's number from bit 16 on, and ERR_INFO is one word. Neither the invariant nor
`arrives` bounds that number. -/

/-- A first code is recorded with a detail of one word. -/
theorem Records.info_lt {s t : State} {pg : Page} {code info : Nat} (h : Records s t pg code info) (h0 : s.fld pg F.ERR_CODE_CODE = 0) :
    info < 2 ^ 32 := by
  obtain ⟨-, hcode⟩ := h
  rw [if_pos h0] at hcode
  rw [← hcode.2]
  exact State.rw_lt ..

/-- Stops, fatal faults and resets may stand as they like. -/
theorem Sound.withFaults {p : Part} {q : List Instr} {s : State} (hs : Sound p q s) (faults : Faults) : Sound p q { s with faults := faults } :=
  ⟨hs.part, hs.queue, hs.mem, hs.regs, hs.shad, hs.copyRegs, hs.copyShad, hs.flash, hs.time, hs.jobs, hs.tables⟩

/-- Full services, and a contained fault has stopped output 2. -/
def stoppedOutput : State := { fullServices with faults := { fullServices.faults with stopped := [(Page.scn 2).base] } }

theorem stoppedOutput_inv : Inv stoppedOutput := Sound.withFaults fullServices_inv _

/-- A write to a word of SCN2 by a requester whose number needs 17 bits. -/
def wideRequesterWrite (off : Nat) (val : Word32) : RegWr := ⟨⟨0x10000, false⟩, .pf, (Page.scn 2).key off, 0xF#4, val⟩

/-- Refutes O28: an output that a contained fault stopped refuses the start with a detail that does not fit ERR_INFO. With the requester's number
in its 8 bits the clause holds (`State.scanOutStart_stopped`). -/
theorem not_scanOutControl : ¬ Obligations.ScanOutControl := by
  intro h
  obtain ⟨-, -, hstopped, -⟩ := h
  obtain ⟨t, -, hrec, -⟩ := hstopped stoppedOutput (wideRequesterWrite 0x008 1#32) 2 stoppedOutput_inv (by decide) (by decide +kernel)
    (by decide +kernel) (by decide +kernel)
  exact absurd (hrec.info_lt (by decide +kernel)) (by decide)

/-- Refutes O30: a genlock setting that names reference 9 is refused with a detail that does not fit ERR_INFO. With the requester's number in its
8 bits the clause holds (`State.genlockWrite_refused`). -/
theorem not_genlockSetting : ¬ Obligations.GenlockSetting := by
  intro h
  obtain ⟨-, hrefused⟩ := h
  obtain ⟨t, -, hrec, -⟩ := hrefused fullServices (wideRequesterWrite 0x058 9#32) 2 fullServices_inv (by decide) (by decide +kernel)
    (by decide +kernel) (by decide +kernel) (.inl (by decide))
  exact absurd (hrec.info_lt (by decide +kernel)) (by decide)

/-! ### The frame that refutes O29

R212 excludes a frame of no active line and no front porch, and the invariant does not. In such a frame the line that the statement names is not
the one at which a decision falls due. -/

/-- Output 2 runs with Adaptive-Sync and a frame of no active line and no front porch, to which one line has been added. -/
def emptyFrame : State := { State.reset with
  regs := [((Page.scn 2).key F.SCN_MODE_VRR_EN.off, 1#32)]
  display := { Display.reset with disps := [(2, { idleDisp with running := true, added := 1 })] } }

theorem emptyFrame_inv : Inv emptyFrame :=
  (Sound.withRegs invAtReset (regs := [((Page.scn 2).key F.SCN_MODE_VRR_EN.off, 1#32)]) (by decide)).withDisplay _

/-- Refutes O29: in that frame the output takes no decision on the line of the statement, and does not proceed. With an active line or a front
porch the clause holds (`State.vrrDecision_decides`). -/
theorem not_scanOutCounter : ¬ Obligations.ScanOutCounter := by
  intro h
  obtain ⟨-, -, -, -, -, -, hvrr, -⟩ := h
  obtain ⟨t, ht, hdisp, -⟩ := hvrr emptyFrame 2 true emptyFrame_inv (by decide) rfl (by decide +kernel) rfl (by decide +kernel)
    (by decide +kernel) nofun (by decide +kernel)
  have hsame : emptyFrame = t := (State.vrrDecision_elsewhere (by decide +kernel)).symm.trans (Host.Outcome.next.inj ht)
  rw [← hsame] at hdisp
  exact Bool.false_ne_true (congrArg Disp.proceeded hdisp)

end Sys2Proof.Machine
end

section
/-! Proofs about the transmitters of the display links: what each operation does to its transmitter and to the words of its page (O33), and
the refusals that refute O32 and O34. -/

namespace Sys2Proof.Machine

@[simp] theorem Page.key_inj {pg : Page} {o p : Nat} : pg.key o = pg.key p ↔ o = p := by
  unfold Page.key
  omega

theorem SameWordsBut.widen {s t : State} {pg : Page} {os ps : List Nat} (h : SameWordsBut s t (os.map pg.key)) (hs : os ⊆ ps) :
    SameWordsBut s t (ps.map pg.key) :=
  fun k hk => h k fun hm => hk (List.map_subset _ hs hm)

/-- A word of the page at none of the listed offsets is as it was. -/
theorem SameWordsBut.rw_key {s t : State} {pg : Page} {os : List Nat} (h : SameWordsBut s t (os.map pg.key)) {o : Nat} (ho : o ∉ os) :
    t.rw (pg.key o) = s.rw (pg.key o) :=
  h _ (by simpa using ho)

theorem SameWordsBut.word_key {s t : State} {pg : Page} {os : List Nat} (h : SameWordsBut s t (os.map pg.key)) {o : Nat} (ho : o ∉ os) :
    t.word (pg.key o) = s.word (pg.key o) :=
  congrArg (BitVec.ofNat 32) (h.rw_key ho)

theorem SameWordsBut.fld {s t : State} {pg : Page} {os : List Nat} (h : SameWordsBut s t (os.map pg.key)) (f : Fld) (ho : f.at [] ∉ os) :
    t.fld pg f = s.fld pg f :=
  congrArg (bits f.hi f.lo) (h.rw_key ho)

namespace State

variable {s t u : State} {n : Nat} {d : Dpl} {os ps : List Nat}

/-! ### Event words -/

theorem bit_rw (s : State) (k i : Nat) : bit i (s.rw k) = (s.word k).getLsbD i := by
  rw [word, BitVec.getLsbD, BitVec.toNat_ofNat, Nat.mod_eq_of_lt (rw_lt s k), bit, Nat.testBit_eq_decide_div_mod_eq]
  exact Bool.beq_eq_decide_eq _ _

theorem word_raise (s : State) (pg : Page) (mask : Nat) :
    (s.raise pg mask).word (pg.key 0x010) = s.word (pg.key 0x010) ||| BitVec.ofNat 32 (Nat.land mask (evtMask pg)) := by
  rw [word, rw_raise_self]
  apply BitVec.eq_of_toNat_eq
  rw [BitVec.toNat_or, word, BitVec.toNat_ofNat, BitVec.toNat_ofNat, BitVec.toNat_ofNat, Nat.mod_mod]
  exact Nat.or_mod_two_pow

/-- Setting events clears none. -/
theorem bit_raise {pg : Page} {i : Nat} (mask : Nat) (h : bit i (s.rw (pg.key 0x010)) = true) :
    bit i ((s.raise pg mask).rw (pg.key 0x010)) = true := by
  rw [bit_rw] at h ⊢
  rw [word_raise, BitVec.getLsbD_or, h, Bool.true_or]

/-- R44: a transmitter has ten block events, bits 0 to 9. -/
theorem word_event_dpl (s : State) (n : Nat) {i : Nat} (hi : i < 10) :
    (s.event (.dpl n) i).word ((Page.dpl n).key 0x010) = s.word ((Page.dpl n).key 0x010) ||| BitVec.ofNat 32 (2 ^ i) := by
  have hmask : ∀ i < 10, Nat.land (2 ^ i) (2 ^ 31 + (2 ^ 10 - 1)) = 2 ^ i := by decide
  exact (word_raise s (.dpl n) (2 ^ i)).trans (congrArg (fun m => _ ||| BitVec.ofNat 32 m) (hmask i hi))

theorem bit_event_dpl (s : State) (n : Nat) {i : Nat} (hi : i < 10) : bit i ((s.event (.dpl n) i).rw ((Page.dpl n).key 0x010)) = true := by
  have hset : ∀ i < 10, (BitVec.ofNat 32 (2 ^ i)).getLsbD i = true := by decide
  rw [bit_rw, word_event_dpl s n hi, BitVec.getLsbD_or, hset i hi, Bool.or_true]

/-! ### What the operations of a transmitter write -/

theorem dpl_congr (h : t.dpls = s.dpls) (n : Nat) : t.dpl n = s.dpl n := by
  unfold dpl
  rw [h]

@[simp] theorem dpl_setDpl_self (s : State) (n : Nat) (d : Dpl) : (s.setDpl n d).dpl n = d :=
  congrArg (Option.getD · idleDpl) (Sparse.find_put_self s.dpls n d)

@[simp] theorem dpls_event (s : State) (pg : Page) (i : Nat) : (s.event pg i).dpls = s.dpls :=
  (event_only pg i (List.Subset.refl _) (OnlyChanges.refl s _)).2.2 .dpls (by decide)

@[simp] theorem dpls_recErr (s : State) (pg : Page) (code info : Nat) : (s.recErr pg code info).dpls = s.dpls :=
  (recErr_only pg code info (List.Subset.refl _) (OnlyChanges.refl s _)).2.2 .dpls (by decide)

@[simp] theorem dpl_event (s : State) (pg : Page) (i n : Nat) : (s.event pg i).dpl n = s.dpl n := dpl_congr (dpls_event s pg i) n

@[simp] theorem dpl_recErr (s : State) (pg : Page) (code info n : Nat) : (s.recErr pg code info).dpl n = s.dpl n :=
  dpl_congr (dpls_recErr s pg code info) n

@[simp] theorem dpl_setRw (s : State) (k v n : Nat) : (s.setRw k v).dpl n = s.dpl n := dpl_congr (setRw_field_dpls s k v) n

@[simp] theorem dpl_emit (s : State) (o : Output) (n : Nat) : (s.emit o).dpl n = s.dpl n := dpl_congr (emit_field_dpls s o) n

theorem dpls_setDpl (s : State) (n : Nat) (d : Dpl) : (s.setDpl n d).dpls = Sparse.put s.dpls n d := rfl

/-- PG_STAT, with BLOCK_STAT in it, and DPL_LINK are the words that follow the state of a transmitter. -/
theorem sameWordsBut_setDpl (s : State) (n : Nat) (d : Dpl) : SameWordsBut s (s.setDpl n d) ([0x00C, 0x048].map (Page.dpl n).key) := by
  have hset : ∀ (u : State) (f : Fld) (v : Nat), f.at [] ∈ [0x00C, 0x048] → SameWordsBut s u ([0x00C, 0x048].map (Page.dpl n).key) →
      SameWordsBut s (u.setFld (.dpl n) f v) ([0x00C, 0x048].map (Page.dpl n).key) :=
    fun u f v hf hu k hk => (rw_setFld_other (ix := []) v fun he => hk (by rw [he]; exact List.mem_map_of_mem hf)).trans (hu k hk)
  unfold setDpl
  split
  iterate 10 refine hset _ _ _ (by decide) ?_
  exact fun _ _ => rfl

/-! A release of the AUX channel does something for a waiting transaction only (R243). -/

theorem auxRelease_of_none (haux : (s.dpl n).aux = none) : s.auxRelease n = s := by
  simp only [auxRelease, haux]

theorem auxRelease_of_started (hheld : (s.dpl n).auxHeld = false) : s.auxRelease n = s := by
  unfold auxRelease
  dsimp only
  split
  · exact if_neg (by simp [hheld])
  · rfl

theorem auxRelease_of_held {x : Aux} (haux : (s.dpl n).aux = some x) (hheld : (s.dpl n).auxHeld = true) :
    s.auxRelease n = (s.setDpl n { s.dpl n with auxHeld := false }).emit (.aux n x.req x.addr x.len x.data) := by
  simp only [auxRelease, haux, hheld, if_true]

end State

/-- Of the transmitters only DPLn differs, and of the register words only those of its page at the listed offsets; no event of the page has
been cleared, and the ageing state stands. -/
structure State.LinkOnly (n : Nat) (os : List Nat) (s t : State) : Prop where
  words : SameWordsBut s t (os.map (Page.dpl n).key)
  others : SameEntriesBut s.dpls t.dpls [n]
  events : ∀ i, bit i (s.rw ((Page.dpl n).key 0x010)) = true → bit i (t.rw ((Page.dpl n).key 0x010)) = true
  age : t.age = s.age

namespace State

variable {s t u : State} {n : Nat} {d : Dpl} {os ps : List Nat}

namespace LinkOnly

theorem trans (h : LinkOnly n os s t) (h' : LinkOnly n os t u) : LinkOnly n os s u :=
  ⟨h.words.trans h'.words, h.others.trans h'.others, fun i hi => h'.events i (h.events i hi), h'.age.trans h.age⟩

theorem widen (h : LinkOnly n os s t) (hs : os ⊆ ps) : LinkOnly n ps s t := ⟨h.words.widen hs, h.others, h.events, h.age⟩

/-- Where EVT_RAW is not written, it needs no word about the events. -/
theorem of_words (hw : SameWordsBut s t (os.map (Page.dpl n).key)) (ho : 0x010 ∉ os) (hd : SameEntriesBut s.dpls t.dpls [n])
    (ha : t.age = s.age) : LinkOnly n os s t :=
  ⟨hw, hd, fun i hi => by rwa [hw.rw_key ho], ha⟩

theorem setDpl (s : State) (n : Nat) (d : Dpl) : LinkOnly n [0x00C, 0x048] s (s.setDpl n d) :=
  of_words (sameWordsBut_setDpl s n d) (by decide)
    (fun _ hk => by rw [dpls_setDpl, Sparse.find_put_other _ _ (List.ne_of_not_mem_cons hk)])
    ((setDpl_only n d (List.Subset.refl _) (OnlyChanges.refl s _)).2.2 .age (by decide))

theorem emit (h : LinkOnly n os s t) (o : Output) : LinkOnly n os s (t.emit o) := ⟨h.words, h.others, h.events, h.age⟩

theorem setRw (s : State) (n : Nat) {o : Nat} (v : Nat) (ho : o ≠ 0x010) : LinkOnly n [o] s (s.setRw ((Page.dpl n).key o) v) :=
  of_words (fun _ hk => rw_setRw_other v (List.ne_of_not_mem_cons hk)) (by simpa using ho.symm) (fun _ _ => rfl) rfl

theorem event (s : State) (n i : Nat) : LinkOnly n [0x010] s (s.event (.dpl n) i) :=
  ⟨fun _ hk => rw_raise_other _ (List.ne_of_not_mem_cons hk), fun _ _ => by rw [dpls_event], fun _ => bit_raise _,
    (event_only _ _ (List.Subset.refl _) (OnlyChanges.refl s _)).2.2 .age (by decide)⟩

theorem recErr (s : State) (n code info : Nat) : LinkOnly n [0x010, 0x020, 0x024] s (s.recErr (.dpl n) code info) := by
  refine ⟨sameWordsBut_recErr s (.dpl n) code info, fun _ _ => by rw [dpls_recErr], fun i hi => ?_,
    (recErr_only _ _ _ (List.Subset.refl _) (OnlyChanges.refl s _)).2.2 .age (by decide)⟩
  unfold State.recErr
  refine bit_raise _ ?_
  split
  · rwa [rw_setRw_other _ (by simp), rw_setFld_other _ (by simp [Fld.at, F.ERR_CODE_CODE])]
  · rwa [rw_setFld_other _ (by simp [Fld.at, F.ERR_CODE_OVERFLOW])]

/-- R243: a transaction that waits starts, and waits no more. -/
theorem auxRelease (s : State) (n : Nat) : LinkOnly n [0x00C, 0x048] s (s.auxRelease n) := by
  have hself : LinkOnly n [0x00C, 0x048] s s := ⟨fun _ _ => rfl, fun _ _ => rfl, fun _ h => h, rfl⟩
  rcases Option.eq_none_or_eq_some (s.dpl n).aux with haux | ⟨x, haux⟩
  · rwa [auxRelease_of_none haux]
  · cases hheld : (s.dpl n).auxHeld with
    | true => exact auxRelease_of_held haux hheld ▸ (setDpl s n _).emit _
    | false => rwa [auxRelease_of_started hheld]

theorem trainFailed (s : State) (n tries : Nat) : LinkOnly n [0x00C, 0x010, 0x020, 0x024, 0x048] s (s.trainFailed n tries) := by
  unfold State.trainFailed
  exact ((((setDpl s n _).widen (by decide)).trans ((event _ n 4).widen (by decide))).trans ((recErr _ n 0x0A02 _).widen (by decide))).trans
    ((auxRelease _ n).widen (by decide))

theorem satFld (s : State) (n : Nat) (f : Fld) (v : Nat) (hf : f.at [] ≠ 0x010) : LinkOnly n [f.at []] s (s.satFld (.dpl n) f v) :=
  setRw s n _ hf

theorem lanesIdle (s : State) (n : Nat) : LinkOnly n [0x00C, 0x048] s (s.lanesIdle n) := by
  unfold State.lanesIdle
  exact (setDpl s n _).trans (auxRelease _ n)

/-- R238: the eligible configurations follow DPL_CTRL, DPL_SINK and the ageing state. -/
theorem configs (h : LinkOnly n os s t) (hctrl : 0x040 ∉ os) (hsink : 0x04C ∉ os) : t.configs n = s.configs n := by
  have hfld : ∀ f : Fld, f.at [] = 0x040 ∨ f.at [] = 0x04C → t.fld (.dpl n) f = s.fld (.dpl n) f := fun f hf =>
    h.words.fld f (by rcases hf with hf | hf <;> rwa [hf])
  have hrate : ∀ r, t.rateAllowed n r = s.rateAllowed n r := fun r => by
    unfold rateAllowed islandCap
    rw [h.age]
  unfold State.configs
  simp only [hfld F.DPL_CTRL_MAX_RATE (.inl rfl), hfld F.DPL_SINK_MAX_RATE (.inr rfl), hfld F.DPL_CTRL_EDP (.inl rfl),
    hfld F.DPL_CTRL_LANES (.inl rfl), hfld F.DPL_SINK_MAX_LANES (.inr rfl), hrate]

theorem autoTrain (h : LinkOnly n os s t) (hctrl : 0x040 ∉ os) :
    t.flag (.dpl n) F.DPL_CTRL_AUTO_TRAIN = s.flag (.dpl n) F.DPL_CTRL_AUTO_TRAIN :=
  congrArg (· == 1) (h.words.fld F.DPL_CTRL_AUTO_TRAIN hctrl)

end LinkOnly

/-! ### The transmitter after each operation -/

/-- R243: a transaction in progress waits no more. -/
theorem dpl_auxRelease (s : State) (n : Nat) :
    (s.auxRelease n).dpl n = { s.dpl n with auxHeld := if (s.dpl n).aux.isSome then false else (s.dpl n).auxHeld } := by
  rcases Option.eq_none_or_eq_some (s.dpl n).aux with haux | ⟨x, haux⟩
  · rw [auxRelease_of_none haux, if_neg (by simp [haux])]
  · rw [if_pos (by simp [haux])]
    cases hheld : (s.dpl n).auxHeld with
    | true => rw [auxRelease_of_held haux hheld, dpl_emit, dpl_setDpl_self]
    | false => rw [auxRelease_of_started hheld, ← hheld]

/-- R243: the waiting transaction goes out on the AUX channel. -/
theorem mem_out_auxRelease {x : Aux} (haux : (s.dpl n).aux = some x) (hheld : (s.dpl n).auxHeld = true) :
    Output.aux n x.req x.addr x.len x.data ∈ (s.auxRelease n).out := by
  rw [auxRelease_of_held haux hheld]
  exact List.mem_append_right _ (List.mem_singleton_self _)

/-- R239: a transmitter for which no configuration is left. -/
theorem dpl_trainFailed (s : State) (n tries : Nat) : (s.trainFailed n tries).dpl n = { s.dpl n with
    toTry := [], trained := none, video := false, auxHeld := if (s.dpl n).aux.isSome then false else (s.dpl n).auxHeld } := by
  unfold trainFailed
  rw [dpl_auxRelease, dpl_recErr, dpl_event, dpl_setDpl_self]

/-- R239: TRAIN_FAIL is set and the page records the number of attempts. -/
theorem trainFailed_records (s : State) (n tries : Nat) :
    bit 4 ((s.trainFailed n tries).rw ((Page.dpl n).key 0x010)) = true
      ∧ (s.fld (.dpl n) F.ERR_CODE_CODE = 0 → (s.trainFailed n tries).fld (.dpl n) F.ERR_CODE_CODE = 0x0A02
        ∧ (s.trainFailed n tries).rw ((Page.dpl n).key 0x024) = tries % 16) := by
  unfold trainFailed
  dsimp only
  generalize hu : (s.setDpl n { s.dpl n with toTry := [], trained := none, video := false }).event (.dpl n) 4 = u
  have hsu : LinkOnly n [0x00C, 0x010, 0x048] s u :=
    hu ▸ ((LinkOnly.setDpl s n _).widen (by decide)).trans ((LinkOnly.event _ n 4).widen (by decide))
  have hrel := LinkOnly.auxRelease (u.recErr (.dpl n) 0x0A02 (tries % 16)) n
  refine ⟨hrel.events 4 ((LinkOnly.recErr u n _ _).events 4 (hu ▸ bit_event_dpl _ n (by decide))), fun h0 => ?_⟩
  obtain ⟨-, hcode⟩ := records_recErr (s := u) (pg := .dpl n) (code := 0x0A02) (info := tries % 16) (by decide) (by omega)
  rw [if_pos ((hsu.words.fld F.ERR_CODE_CODE (by decide)).trans h0)] at hcode
  exact ⟨(hrel.words.fld F.ERR_CODE_CODE (by decide)).trans hcode.1, (hrel.words.rw_key (by decide)).trans hcode.2⟩

/-- R239: a transmitter whose training over some configurations has begun. -/
def inTraining (d : Dpl) (cs : List (Nat × Nat)) : Dpl :=
  { d with toTry := cs, tries := 0, trained := none, decided := false, video := false, dsc := false, replay := false }

section ready
variable {cs : List (Nat × Nat)} (hdead : (s.dpl n).dead = false) (hhold : (s.dpl n).idleHold = false) (hhpd : (s.dpl n).hpd = true)
include hdead hhold hhpd

/-- R239: a transmitter that holds no electrical idle trains while HPD is high. -/
theorem trainWith_eq : s.trainWith n cs
    = if cs = [] then (s.setDpl n (inTraining (s.dpl n) cs)).trainFailed n 0 else s.setDpl n (inTraining (s.dpl n) cs) := by
  refine (if_neg ?_).trans (if_neg ?_)
  · simp [hdead, hhold]
  · simp [hhpd]

theorem LinkOnly.trainWith : LinkOnly n [0x00C, 0x010, 0x020, 0x024, 0x048] s (s.trainWith n cs) := by
  rw [trainWith_eq hdead hhold hhpd]
  have hset := (LinkOnly.setDpl s n (inTraining (s.dpl n) cs)).widen (ps := [0x00C, 0x010, 0x020, 0x024, 0x048]) (by decide)
  split
  · exact hset.trans (.trainFailed _ n 0)
  · exact hset

/-- With no eligible configuration the training ends as it begins. -/
theorem dpl_trainWith : ((s.trainWith n cs).dpl n).hpd = true ∧ ((s.trainWith n cs).dpl n).toTry = cs
    ∧ ((s.trainWith n cs).dpl n).trained = none := by
  rw [trainWith_eq hdead hhold hhpd]
  split
  case isTrue h => simp [dpl_trainFailed, inTraining, hhpd, h]
  case isFalse => simp [inTraining, hhpd]

end ready

/-! ### Hot plug (R242) -/

/-- HPD has changed: the transmitter, DPL_SINK and an event show it, before any training. -/
def hpdNoted (s : State) (n : Nat) (d : Dpl) (sink i : Nat) : State :=
  ((s.setDpl n d).setRw ((Page.dpl n).key F.DPL_SINK_PR.off) sink).event (.dpl n) i

theorem dpl_hpdNoted (s : State) (n : Nat) (d : Dpl) (sink i : Nat) : (s.hpdNoted n d sink i).dpl n = d := by
  rw [hpdNoted, dpl_event, dpl_setRw, dpl_setDpl_self]

theorem linkOnly_sink (s : State) (n : Nat) (d : Dpl) (sink : Nat) :
    LinkOnly n [0x00C, 0x048, 0x04C] s ((s.setDpl n d).setRw ((Page.dpl n).key F.DPL_SINK_PR.off) sink) :=
  ((LinkOnly.setDpl s n d).widen (by decide)).trans ((LinkOnly.setRw _ n sink (by decide)).widen (by decide))

theorem LinkOnly.hpdNoted (s : State) (n : Nat) (d : Dpl) (sink i : Nat) :
    LinkOnly n [0x00C, 0x010, 0x048, 0x04C] s (s.hpdNoted n d sink i) :=
  ((linkOnly_sink s n d sink).widen (by decide)).trans ((LinkOnly.event _ n i).widen (by decide))

theorem sink_hpdNoted {sink : Nat} (hsink : sink < 2 ^ 32) (s : State) (n : Nat) (d : Dpl) (i : Nat) :
    (s.hpdNoted n d sink i).rw ((Page.dpl n).key 0x04C) = sink := by
  rw [State.hpdNoted, event, rw_raise_other _ (by simp)]
  exact (rw_setRw_self _ _ _).trans (Nat.mod_eq_of_lt hsink)

theorem word_hpdNoted {i : Nat} (hi : i < 10) (s : State) (n : Nat) (d : Dpl) (sink : Nat) :
    (s.hpdNoted n d sink i).word ((Page.dpl n).key 0x010) = s.word ((Page.dpl n).key 0x010) ||| BitVec.ofNat 32 (2 ^ i) := by
  rw [State.hpdNoted, word_event_dpl _ n hi, (linkOnly_sink s n d sink).words.word_key (by decide)]

/-- A plug that has been noted. -/
def plugged (s : State) (n sink : Nat) (bp : Bool) : State :=
  s.hpdNoted n { s.dpl n with hpd := true, blockPred := bp, seedCap := bit 22 sink } (sink % 2 ^ 22) 0

theorem hpdPlug_eq {sink : Nat} {bp : Bool} (hhpd : (s.dpl n).hpd = false) (hawake : s.asleep = false) : s.hpdPlug n sink bp
    = if (s.dpl n).powered ∧ s.flag (.dpl n) F.DPL_CTRL_AUTO_TRAIN then (s.plugged n sink bp).train n else s.plugged n sink bp := by
  have hflag := (LinkOnly.hpdNoted s n { s.dpl n with hpd := true, blockPred := bp, seedCap := bit 22 sink }
    (sink % 2 ^ 22) 0).autoTrain (by decide)
  simp only [← hflag]
  exact if_neg (by simp [hhpd, hawake])

/-- R242: a plug without AUTO_TRAIN, or at a transmitter without power. -/
theorem hpdPlug_quiet {sink : Nat} {bp : Bool} (hhpd : (s.dpl n).hpd = false) (hawake : s.asleep = false)
    (hauto : ((s.dpl n).powered && s.flag (.dpl n) F.DPL_CTRL_AUTO_TRAIN) = false) :
    ∃ t, exec (.hpdPlug n sink bp) s = .next t ∧ t.dpl n = { s.dpl n with hpd := true, blockPred := bp, seedCap := bit 22 sink }
      ∧ t.rw ((Page.dpl n).key 0x04C) = sink % 2 ^ 22 ∧ t.word ((Page.dpl n).key 0x010) = s.word ((Page.dpl n).key 0x010) ||| 1#32
      ∧ SameEntriesBut s.dpls t.dpls [n] ∧ OnlyChanges s t [.regs, .out, .dpls, .msiPending]
      ∧ SameWordsBut s t ([0x00C, 0x010, 0x048, 0x04C].map (Page.dpl n).key) := by
  have ht : s.hpdPlug n sink bp = s.plugged n sink bp :=
    (hpdPlug_eq hhpd hawake).trans (if_neg (by rw [← Bool.and_eq_true, hauto]; exact Bool.false_ne_true))
  have hlink := LinkOnly.hpdNoted s n { s.dpl n with hpd := true, blockPred := bp, seedCap := bit 22 sink } (sink % 2 ^ 22) 0
  exact ⟨_, congrArg Host.Outcome.next ht, dpl_hpdNoted .., sink_hpdNoted (by omega) .., word_hpdNoted (by decide) .., hlink.others,
    ht ▸ exec_only (.hpdPlug n sink bp) rfl, hlink.words⟩

theorem hpdPlug_trains {sink : Nat} {bp : Bool} (hhpd : (s.dpl n).hpd = false) (hawake : s.asleep = false) (hpow : (s.dpl n).powered = true)
    (hauto : s.flag (.dpl n) F.DPL_CTRL_AUTO_TRAIN = true) (hdead : (s.dpl n).dead = false) (hhold : (s.dpl n).idleHold = false) :
    ∃ t, exec (.hpdPlug n sink bp) s = .next t ∧ (t.dpl n).hpd = true ∧ (t.dpl n).toTry = t.configs n ∧ (t.dpl n).trained = none
      ∧ bit 0 (t.rw ((Page.dpl n).key 0x010)) = true ∧ OnlyChanges s t [.regs, .out, .dpls, .msiPending] := by
  have ht : s.hpdPlug n sink bp = (s.plugged n sink bp).trainWith n ((s.plugged n sink bp).configs n) := by
    rw [hpdPlug_eq hhpd hawake, if_pos ⟨hpow, hauto⟩, train]
  have hd : (s.plugged n sink bp).dpl n = _ := dpl_hpdNoted ..
  have hset : bit 0 ((s.plugged n sink bp).rw ((Page.dpl n).key 0x010)) = true := bit_event_dpl _ n (by decide)
  generalize s.plugged n sink bp = u at ht hd hset
  have hdead' : (u.dpl n).dead = false := by rw [hd, hdead]
  have hhold' : (u.dpl n).idleHold = false := by rw [hd, hhold]
  have hhpd' : (u.dpl n).hpd = true := by rw [hd]
  have hlink := LinkOnly.trainWith (cs := u.configs n) hdead' hhold' hhpd'
  obtain ⟨hplug, htry, htrained⟩ := dpl_trainWith (cs := u.configs n) hdead' hhold' hhpd'
  exact ⟨_, congrArg Host.Outcome.next ht, hplug, htry.trans (hlink.configs (by decide) (by decide)).symm, htrained, hlink.events 0 hset,
    ht ▸ exec_only (.hpdPlug n sink bp) rfl⟩

/-! ### Unplug and IRQ_HPD (R242) -/

theorem dpl_lanesIdle (s : State) (n : Nat) : (s.lanesIdle n).dpl n = { s.dpl n with
    toTry := [], tries := 0, trained := none, seed := false, decided := false, video := false, dsc := false, replay := false, still := 0
    auxHeld := if (s.dpl n).aux.isSome then false else (s.dpl n).auxHeld } := by
  unfold lanesIdle
  rw [dpl_auxRelease, dpl_setDpl_self]

theorem hpdUnplug_present (hhpd : (s.dpl n).hpd = true) (hawake : s.asleep = false) :
    ∃ t, exec (.hpdUnplug n) s = .next t ∧ (t.dpl n).hpd = false ∧ (t.dpl n).trained = none ∧ (t.dpl n).video = false
      ∧ t.rw ((Page.dpl n).key 0x04C) = 0 ∧ t.word ((Page.dpl n).key 0x010) = s.word ((Page.dpl n).key 0x010) ||| 2#32
      ∧ SameEntriesBut s.dpls t.dpls [n] ∧ OnlyChanges s t [.regs, .out, .dpls, .msiPending]
      ∧ SameWordsBut s t ([0x00C, 0x010, 0x048, 0x04C].map (Page.dpl n).key) := by
  have hidle := LinkOnly.lanesIdle s n
  have hd := dpl_lanesIdle s n
  have ht : s.hpdUnplug n
      = (s.lanesIdle n).hpdNoted n { (s.lanesIdle n).dpl n with hpd := false, blockPred := false, seedCap := false } 0 1 :=
    if_neg (by simp [hhpd, hawake])
  have honly : OnlyChanges s (s.hpdUnplug n) _ := exec_only (.hpdUnplug n) rfl
  refine ⟨_, congrArg Host.Outcome.next ht, ?_⟩
  rw [ht] at honly
  generalize s.lanesIdle n = u at hidle hd honly ⊢
  have hlink := (hidle.widen (by decide)).trans (LinkOnly.hpdNoted u n { u.dpl n with hpd := false, blockPred := false, seedCap := false } 0 1)
  refine ⟨?_, ?_, ?_, sink_hpdNoted (by decide) .., (word_hpdNoted (by decide) ..).trans ?_, hlink.others, honly, hlink.words⟩
  · rw [dpl_hpdNoted]
  · rw [dpl_hpdNoted, hd]
  · rw [dpl_hpdNoted, hd]
  · exact congrArg (· ||| _) (hidle.words.word_key (by decide))

theorem hpdIrq_reports (hhpd : (s.dpl n).hpd = true) (hawake : s.asleep = false) :
    ∃ t, exec (.hpdIrq n false) s = .next t ∧ t.word ((Page.dpl n).key 0x010) = s.word ((Page.dpl n).key 0x010) ||| 4#32
      ∧ OnlyChanges s t [.regs, .out, .msiPending] ∧ SameWordsBut s t [(Page.dpl n).key 0x010] :=
  ⟨_, congrArg Host.Outcome.next (if_neg (by simp [hhpd, hawake])), word_event_dpl s n (by decide),
    event_only _ _ (List.Subset.refl _) (OnlyChanges.refl s _), (LinkOnly.event s n 2).words⟩

/-! ### Link loss (R241) -/

/-- A link loss that has been counted, before the transmitter retrains. -/
def lossNoted (s : State) (n : Nat) : State := (s.satFld (.dpl n) F.DPL_LOCK_LOSS_COUNT 1).event (.dpl n) 5

theorem LinkOnly.lossNoted (s : State) (n : Nat) : LinkOnly n [0x010, 0x054] s (s.lossNoted n) :=
  ((LinkOnly.satFld s n _ 1 (by decide)).widen (by decide)).trans ((LinkOnly.event _ n 5).widen (by decide))

/-- R239, R241: the counters of a transmitter are whole words, and saturate. -/
theorem fld_satFld_word (s : State) (pg : Page) (f : Fld) (hhi : f.hi = 31) (hlo : f.lo = 0) :
    (s.satFld pg f 1).fld pg f = min (s.fld pg f + 1) 0xFFFFFFFF := by
  rw [satFld, fld_setFld_self _ _ _ _ _ (by omega) (by omega), hhi, hlo, satAdd]
  exact Nat.mod_eq_of_lt (by omega)

/-- A transmitter has lost its link in a configuration that is still eligible. -/
structure LossAt (s : State) (n i : Nat) (c : Nat × Nat) : Prop where
  hpd : (s.dpl n).hpd = true
  dead : (s.dpl n).dead = false
  idleHold : (s.dpl n).idleHold = false
  trained : (s.dpl n).trained = some c
  last : (s.configs n).findIdx? (· == c) = some i

section loss
variable {i : Nat} {c : Nat × Nat} (h : LossAt s n i c)
include h

theorem linkLoss_eq : s.linkLoss n = (s.lossNoted n).setDpl n (inTraining (s.dpl n) ((s.configs n).drop i)) := by
  have hcfg : (s.lossNoted n).configs n = s.configs n := (LinkOnly.lossNoted s n).configs (by decide) (by decide)
  have hd : (s.lossNoted n).dpl n = s.dpl n := (dpl_event ..).trans rfl
  have hleft : (s.configs n).drop i ≠ [] := by
    obtain ⟨hi, -⟩ := List.findIdx?_eq_some_iff_getElem.1 h.last
    simpa using hi
  unfold linkLoss
  simp only [h.trained]
  rw [← lossNoted, hcfg, h.last]
  dsimp only
  rw [trainWith_eq (by rw [hd, h.dead]) (by rw [hd, h.idleHold]) (by rw [hd, h.hpd]), if_neg hleft, hd]

theorem LinkOnly.linkLoss : LinkOnly n [0x00C, 0x010, 0x048, 0x054] s (s.linkLoss n) := by
  rw [linkLoss_eq h]
  exact ((LinkOnly.lossNoted s n).widen (by decide)).trans ((LinkOnly.setDpl _ n _).widen (by decide))

theorem dpl_linkLoss : (s.linkLoss n).dpl n = inTraining (s.dpl n) ((s.configs n).drop i) := by
  rw [linkLoss_eq h, dpl_setDpl_self]

theorem linkLoss_counted : (s.linkLoss n).fld (.dpl n) F.DPL_LOCK_LOSS_COUNT = min (s.fld (.dpl n) F.DPL_LOCK_LOSS_COUNT + 1) 0xFFFFFFFF
    ∧ bit 5 ((s.linkLoss n).rw ((Page.dpl n).key 0x010)) = true := by
  have hset := LinkOnly.setDpl (s.lossNoted n) n (inTraining (s.dpl n) ((s.configs n).drop i))
  rw [linkLoss_eq h]
  refine ⟨(hset.words.fld F.DPL_LOCK_LOSS_COUNT (by decide)).trans ?_, hset.events 5 (bit_event_dpl _ n (by decide))⟩
  exact ((LinkOnly.event _ n 5).words.fld F.DPL_LOCK_LOSS_COUNT (by decide)).trans (fld_satFld_word s (.dpl n) F.DPL_LOCK_LOSS_COUNT rfl rfl)

end loss

/-- R241: the transmitter retrains downward from the configuration that last trained. -/
theorem linkLoss_retrains {i : Nat} {c : Nat × Nat} (h : LossAt s n i c) :
    ∃ t, exec (.linkLoss n) s = .next t ∧
      (t.dpl n).toTry = (s.configs n).drop i ∧ (t.dpl n).trained = none ∧ (t.dpl n).video = false
      ∧ t.fld (.dpl n) F.DPL_LOCK_LOSS_COUNT = min (s.fld (.dpl n) F.DPL_LOCK_LOSS_COUNT + 1) 0xFFFFFFFF
      ∧ bit 5 (t.rw ((Page.dpl n).key 0x010)) = true ∧ OnlyChanges s t [.regs, .out, .dpls, .msiPending]
      ∧ SameWordsBut s t ([0x00C, 0x010, 0x048, 0x054].map (Page.dpl n).key) := by
  have hd := dpl_linkLoss h
  obtain ⟨hcount, hevent⟩ := linkLoss_counted h
  exact ⟨_, rfl, by rw [hd, inTraining], by rw [hd, inTraining], by rw [hd, inTraining], hcount, hevent, exec_only (.linkLoss n) rfl,
    (LinkOnly.linkLoss h).words⟩

/-- R242: IRQ_HPD with a lost link, after its event, is a link loss. -/
theorem hpdIrq_retrains {i : Nat} {c : Nat × Nat} (h : LossAt s n i c) (hawake : s.asleep = false) :
    ∃ t, exec (.hpdIrq n true) s = .next t ∧ bit 2 (t.rw ((Page.dpl n).key 0x010)) = true ∧
      (t.dpl n).toTry = (s.configs n).drop i ∧ (t.dpl n).trained = none ∧ (t.dpl n).video = false
      ∧ t.fld (.dpl n) F.DPL_LOCK_LOSS_COUNT = min (s.fld (.dpl n) F.DPL_LOCK_LOSS_COUNT + 1) 0xFFFFFFFF
      ∧ bit 5 (t.rw ((Page.dpl n).key 0x010)) = true ∧ OnlyChanges s t [.regs, .out, .dpls, .msiPending]
      ∧ SameWordsBut s t ([0x00C, 0x010, 0x048, 0x054].map (Page.dpl n).key) := by
  have hirq := LinkOnly.event s n 2
  have hcfg := hirq.configs (by decide) (by decide)
  have hd := dpl_event s (.dpl n) 2 n
  have hset := bit_event_dpl s n (i := 2) (by decide)
  have honly : OnlyChanges s (s.event (.dpl n) 2) [.regs, .out, .dpls, .msiPending] :=
    event_only _ _ (by decide) (OnlyChanges.refl s _)
  have ht : s.hpdIrq n true = (s.event (.dpl n) 2).linkLoss n := if_neg (by simp [h.hpd, hawake])
  generalize s.event (.dpl n) 2 = u at *
  have hu : LossAt u n i c := ⟨hd ▸ h.hpd, hd ▸ h.dead, hd ▸ h.idleHold, hd ▸ h.trained, hcfg ▸ h.last⟩
  have hlink := LinkOnly.linkLoss hu
  obtain ⟨t, hrun, htry, htrained, hvideo, hcount, hevent, hrest, hwords⟩ := linkLoss_retrains hu
  obtain rfl : u.linkLoss n = t := Host.Outcome.next.inj hrun
  exact ⟨_, congrArg Host.Outcome.next ht, hlink.events 2 hset, hcfg ▸ htry, htrained, hvideo,
    (hirq.words.fld F.DPL_LOCK_LOSS_COUNT (by decide)) ▸ hcount, hevent, honly.trans hrest,
    ((hirq.widen (by decide)).trans hlink).words⟩

/-! ### Training attempts (R239) -/

/-- A transmitter whose training has ended in a configuration. -/
def trainedAt (s : State) (n : Nat) (c : Nat × Nat) : Dpl := { s.dpl n with
  toTry := [], tries := 0, trained := some c, decided := false, seed := (s.dpl n).seedCap && s.flag (.dpl n) F.DPL_CTRL_EDP }

section attempt
variable {c : Nat × Nat} {rest : List (Nat × Nat)} (htry : (s.dpl n).toTry = c :: rest)
include htry

theorem attemptEnd_ok : s.attemptEnd n true = ((s.setDpl n (s.trainedAt n c)).event (.dpl n) 3).auxRelease n := by
  simp only [attemptEnd, htry, if_true, trainedAt]

theorem attemptEnd_failed : s.attemptEnd n false
    = if rest = [] then (s.satFld (.dpl n) F.DPL_TRAIN_FAILS_COUNT 1).trainFailed n ((s.dpl n).tries + 1)
      else (s.satFld (.dpl n) F.DPL_TRAIN_FAILS_COUNT 1).setDpl n { s.dpl n with toTry := rest, tries := (s.dpl n).tries + 1 } := by
  simp only [attemptEnd, htry, Bool.false_eq_true, if_false]

/-- An attempt trains: the configuration stands, and a transaction that waited for the training goes out. -/
theorem attemptEnd_trains :
    ∃ t, exec (.trainingAttemptEnd n true) s = .next t
      ∧ (t.dpl n).toTry = [] ∧ (t.dpl n).tries = 0 ∧ (t.dpl n).trained = some c ∧ (t.dpl n).decided = false
      ∧ (t.dpl n).auxHeld = (if (s.dpl n).aux.isSome then false else (s.dpl n).auxHeld)
      ∧ (∀ x, (s.dpl n).aux = some x → (s.dpl n).auxHeld = true → Output.aux n x.req x.addr x.len x.data ∈ t.out)
      ∧ t.word ((Page.dpl n).key 0x010) = s.word ((Page.dpl n).key 0x010) ||| 8#32
      ∧ OnlyChanges s t [.regs, .out, .dpls, .msiPending] ∧ SameWordsBut s t ([0x00C, 0x010, 0x048].map (Page.dpl n).key) := by
  have hset := LinkOnly.setDpl s n (s.trainedAt n c)
  have hword := word_event_dpl (s.setDpl n (s.trainedAt n c)) n (i := 3) (by decide)
  rw [hset.words.word_key (by decide)] at hword
  have hd : ((s.setDpl n (s.trainedAt n c)).event (.dpl n) 3).dpl n = s.trainedAt n c := by rw [dpl_event, dpl_setDpl_self]
  have hevent := (hset.widen (ps := [0x00C, 0x010, 0x048]) (by decide)).trans ((LinkOnly.event _ n 3).widen (by decide))
  have ht := attemptEnd_ok htry
  generalize (s.setDpl n (s.trainedAt n c)).event (.dpl n) 3 = u at hword hd hevent ht
  have hrel := LinkOnly.auxRelease u n
  have hdt := dpl_auxRelease u n
  rw [hd] at hdt
  refine ⟨_, congrArg Host.Outcome.next ht, ?_, ?_, ?_, ?_, ?_, fun x haux hheld => ?_, (hrel.words.word_key (by decide)).trans hword,
    ht ▸ exec_only (.trainingAttemptEnd n true) rfl, (hevent.trans (hrel.widen (by decide))).words⟩
  · rw [hdt, trainedAt]
  · rw [hdt, trainedAt]
  · rw [hdt, trainedAt]
  · rw [hdt, trainedAt]
  · rw [hdt, trainedAt]
  · exact mem_out_auxRelease (by rw [hd, trainedAt, haux]) (by rw [hd, trainedAt, hheld])

/-- An attempt fails while a configuration is left: it counts, and the next one is tried. -/
theorem attemptEnd_fails (hrest : rest ≠ []) :
    ∃ t, exec (.trainingAttemptEnd n false) s = .next t ∧ t.dpl n = { s.dpl n with toTry := rest, tries := (s.dpl n).tries + 1 }
      ∧ t.fld (.dpl n) F.DPL_TRAIN_FAILS_COUNT = min (s.fld (.dpl n) F.DPL_TRAIN_FAILS_COUNT + 1) 0xFFFFFFFF
      ∧ OnlyChanges s t [.regs, .dpls] ∧ SameWordsBut s t ([0x00C, 0x048, 0x050].map (Page.dpl n).key) := by
  have ht := (attemptEnd_failed htry).trans (if_neg hrest)
  have hset := LinkOnly.setDpl (s.satFld (.dpl n) F.DPL_TRAIN_FAILS_COUNT 1) n { s.dpl n with toTry := rest, tries := (s.dpl n).tries + 1 }
  exact ⟨_, congrArg Host.Outcome.next ht, dpl_setDpl_self .., (hset.words.fld F.DPL_TRAIN_FAILS_COUNT (by decide)).trans
    (fld_satFld_word s (.dpl n) F.DPL_TRAIN_FAILS_COUNT rfl rfl),
    setDpl_only _ _ (List.Subset.refl _) (satFld_only _ _ _ _ (by decide) (OnlyChanges.refl s _)),
    (((LinkOnly.satFld s n _ 1 (by decide)).widen (by decide)).trans (hset.widen (by decide))).words⟩

end attempt

/-- The last attempt fails: the page records the failure with the number of attempts. -/
theorem attemptEnd_failsLast {c : Nat × Nat} (htry : (s.dpl n).toTry = [c]) :
    ∃ t, exec (.trainingAttemptEnd n false) s = .next t ∧ (t.dpl n).toTry = [] ∧ (t.dpl n).trained = none ∧ (t.dpl n).video = false
      ∧ bit 4 (t.rw ((Page.dpl n).key 0x010)) = true
      ∧ (s.fld (.dpl n) F.ERR_CODE_CODE = 0 → t.fld (.dpl n) F.ERR_CODE_CODE = 0x0A02 ∧ t.rw ((Page.dpl n).key 0x024) = ((s.dpl n).tries + 1) % 16)
      ∧ OnlyChanges s t [.regs, .out, .dpls, .msiPending]
      ∧ SameWordsBut s t ([0x00C, 0x048, 0x050].map (Page.dpl n).key ++ errWords (.dpl n)) := by
  have ht := (attemptEnd_failed htry).trans (if_pos rfl)
  have hcount := LinkOnly.satFld s n F.DPL_TRAIN_FAILS_COUNT 1 (by decide)
  generalize s.satFld (.dpl n) F.DPL_TRAIN_FAILS_COUNT 1 = u at hcount ht
  have hd := dpl_trainFailed u n ((s.dpl n).tries + 1)
  obtain ⟨hevent, hcode⟩ := trainFailed_records u n ((s.dpl n).tries + 1)
  have hlink := (hcount.widen (ps := [0x00C, 0x048, 0x050, 0x010, 0x020, 0x024]) (by decide)).trans
    ((LinkOnly.trainFailed u n ((s.dpl n).tries + 1)).widen (by decide))
  exact ⟨_, congrArg Host.Outcome.next ht, by rw [hd], by rw [hd], by rw [hd], hevent,
    fun h0 => hcode ((hcount.words.fld F.ERR_CODE_CODE (by decide)).trans h0), ht ▸ exec_only (.trainingAttemptEnd n false) rfl, hlink.words⟩

end State

/-- Settles O33, clause by clause: a plug that is noted and one that trains, an unplug, IRQ_HPD, a link loss found by itself and through
IRQ_HPD, and the three ends of an attempt. -/
theorem hotPlugAndTraining : Obligations.HotPlugAndTraining := by
  unfold Obligations.HotPlugAndTraining
  refine ⟨fun s n sink bp _ _ hhpd hawake hauto => State.hpdPlug_quiet hhpd hawake hauto,
    fun s n sink bp _ _ hhpd hawake hpow hauto hdead hhold => State.hpdPlug_trains hhpd hawake hpow hauto hdead hhold,
    fun s n _ _ hhpd hawake => State.hpdUnplug_present hhpd hawake, fun s n _ _ hhpd hawake => State.hpdIrq_reports hhpd hawake,
    fun s n i c _ _ hhpd _ hdead hhold htrained hlast => State.linkLoss_retrains ⟨hhpd, hdead, hhold, htrained, hlast⟩,
    fun s n i c _ _ hhpd hawake hdead hhold htrained hlast => State.hpdIrq_retrains ⟨hhpd, hdead, hhold, htrained, hlast⟩ hawake,
    fun s n c rest _ _ htry => State.attemptEnd_trains htry, fun s n c rest _ _ htry hrest => State.attemptEnd_fails htry hrest,
    fun s n c _ _ htry => State.attemptEnd_failsLast htry⟩

/-! ### Refusals with a detail of one word (R45)

A refusal records the access as its detail, with the requester's number from bit 16 on. Neither the invariant nor `arrives` bounds that number,
and ERR_INFO is one word. -/

namespace State

variable {s : State} {n code : Nat} {w : RegWr} {a : RegAcc}

/-- R237: a failing check records its code, to a requester whose number fits its 8 bits. -/
theorem dplEnable_refused (hp : a.page = .dpl n) (hfault : s.dplFault n = some code) (hcode : code < 2 ^ 16) (hreq : a.req.fn < 2 ^ 8) :
    Records s (dplEnable a true s) (.dpl n) code a.info := by
  have hrun : dplEnable a true s = s.recErr (.dpl n) code a.info := by
    simp only [dplEnable, hp, hfault, recAcc, if_true]
  exact hrun ▸ records_recErr hcode (info_lt hreq)

theorem refuse_of_granted (hany : s.writesAny a = true) (hsec : (s.writtenFields a).any (s.refusedSec a) = false)
    (hlock : (s.writtenFields a).any (s.refusedLock a) = false) (code : Nat) : s.refuse a code = s.recAcc a code := by
  have hne : (s.writtenFields a).isEmpty = false := by simpa [writesAny] using hany
  simp only [refuse, hne, hsec, hlock, Bool.false_eq_true, if_false]

/-- R243: while a transaction runs, a write of DPL_AUX_CTRL records BUSY, to a requester whose number fits its 8 bits. -/
theorem auxGo_busy (hg : s.wordGranted w (.dpl n) 0x064 = true) (hopen : s.secretPage (accOf w (.dpl n)) = false)
    (hbusy : (s.dpl n).aux.isSome = true) (hreq : w.req.fn < 2 ^ 8) :
    ∃ t, exec (.auxGo w) s = .next t ∧ Records s t (.dpl n) 0x0009 (accOf w (.dpl n)).info
      ∧ OnlyChanges s t [.regs, .out, .msiPending] ∧ SameWordsBut s t (errWords (.dpl n)) := by
  simp only [wordGranted, Bool.and_eq_true, beq_iff_eq, Bool.not_eq_true', and_assoc] at hg
  obtain ⟨harr, hoff, hany, hsec, hlock⟩ := hg
  have hwrite : auxGo (accOf w (.dpl n)) s = s.recErr (.dpl n) 0x0009 (accOf w (.dpl n)).info :=
    (if_neg (by simp [hopen])).trans ((if_pos hbusy).trans (refuse_of_granted hany hsec hlock 0x0009))
  have hrun : exec (.auxGo w) s = .next (s.recErr (.dpl n) 0x0009 (accOf w (.dpl n)).info) :=
    congrArg Host.Outcome.next ((accessAt_eq harr (by simp only [accOf, hoff]; decide) auxGo).trans hwrite)
  exact ⟨_, hrun, records_recErr (by decide) (info_lt hreq),
    recErr_only _ _ _ (List.Subset.refl _) (OnlyChanges.refl s _), sameWordsBut_recErr s _ _ _⟩

end State

/-- The transmitters may stand as they like. -/
theorem Sound.withDpls {p : Part} {q : List Instr} {s : State} (hs : Sound p q s) (dpls : Store Dpl) : Sound p q { s with dpls := dpls } :=
  ⟨hs.part, hs.queue, hs.mem, hs.regs, hs.shad, hs.copyRegs, hs.copyShad, hs.flash, hs.time, hs.jobs, hs.tables⟩

/-- A write to a word of DPL2 by a requester whose number needs 17 bits. -/
def wideRequesterLinkWrite (off : Nat) (val : Word32) : RegWr := ⟨⟨0x10000, false⟩, .pf, (Page.dpl 2).key off, 0xF#4, val⟩

/-- Full services, and DPL2 is set to the LANES code 3, which R237 refuses. -/
def threeLanes : State := { State.reset with
  regs := [(Page.sys.key F.SYS_STAT_PHASE.off, 0x17#32), ((Page.dpl 2).key F.DPL_CTRL_LANES.off, 0x41E#32)] }

theorem threeLanes_inv : Inv threeLanes :=
  Sound.withRegs invAtReset (regs := [(Page.sys.key F.SYS_STAT_PHASE.off, 0x17#32), ((Page.dpl 2).key F.DPL_CTRL_LANES.off, 0x41E#32)])
    (by decide)

/-- Refutes O32: the enable of a transmitter that fails its check is refused with a detail that does not fit ERR_INFO. With the requester's
number in its 8 bits the code is recorded with that detail (`State.dplEnable_refused`). -/
theorem not_transmitterEnable : ¬ Obligations.TransmitterEnable := by
  intro h
  obtain ⟨-, -, hfault, -⟩ := h
  obtain ⟨t, -, hrec, -⟩ := hfault threeLanes (wideRequesterLinkWrite 0x008 1#32) 2 0x0006 threeLanes_inv (by decide) (by decide +kernel)
    (by decide +kernel) (by decide +kernel)
  exact absurd (hrec.info_lt (by decide +kernel)) (by decide)

/-- Full services, and an AUX transaction of DPL2 is in progress. -/
def auxBusy : State := { fullServices with dpls := [(2, { idleDpl with aux := some ⟨9, 0x12345, 3, []⟩ })] }

theorem auxBusy_inv : Inv auxBusy := Sound.withDpls fullServices_inv _

/-- Refutes O34: a write of DPL_AUX_CTRL while a transaction runs is refused with a detail that does not fit ERR_INFO. With the requester's
number in its 8 bits the clause holds (`State.auxGo_busy`). -/
theorem not_auxAndPps : ¬ Obligations.AuxAndPps := by
  intro h
  obtain ⟨-, -, hbusy, -⟩ := h
  obtain ⟨t, -, hrec, -⟩ := hbusy auxBusy (wideRequesterLinkWrite 0x064 0x80000005#32) 2 auxBusy_inv (by decide) (by decide +kernel)
    (by decide +kernel) (by decide +kernel) (by decide +kernel)
  exact absurd (hrec.info_lt (by decide +kernel)) (by decide)

end Sys2Proof.Machine
end
